-- ==== Sys2Proof/Word.lean ====
section
/-! DEFINITION. The word types of the device: bytes, register words, structure words and the sparse table used for
every indexed collection. Bits are numbered from 0 at the least significant end (00_scope.md, Numbers, units and time). -/

namespace Sys2Proof

/-- One byte. -/
abbrev Byte := BitVec 8

/-- A 32-bit register word or FP32 bit pattern (02_arithmetic.md R19). -/
abbrev W32 := BitVec 32

/-- A 64-bit register word or slot word (04_thokel_programs.md R90). -/
abbrev W64 := BitVec 64

/-- A 64-byte granule, record or descriptor, bit 0 being bit 0 of its first byte (00_scope.md, R9). -/
abbrev Rec := BitVec 512

/-- A bit field of a structure: its lowest bit and its width. -/
structure Fld where
  lo : Nat
  len : Nat
  deriving DecidableEq, Repr

/-- A sparse table: entries by strictly rising key; a key that is absent stands for the default its reader supplies. -/
abbrev Tab (α : Type) := List (Nat × α)

end Sys2Proof
end

