-- ==== Sys2Proof/Config.lean ====
section
/-! DEFINITION. What the spec leaves open: constants without a body, so that nothing in Lean knows their values. Every one
is named in the assumption log (entries 10 and on). -/

namespace Sys2Proof.Config

/-- What a decoder makes of a granule with five or more corrupted symbols (R204: no guarantee): 0 uncorrectable,
1 other data, 2 clean. Log entry 10. -/
opaque overloadedDecode : Nat → Nat

/-- The data that such a granule, or an SRAM word with three or more flipped bits, may be delivered as (R204, R338). Log
entry 10. -/
opaque wrongBytes : Nat → Nat → BitVec 512

/-- Whether a value the spec gives as an exact quotient and a register holds as a whole number is rounded up (the quotient
is not whole and the spec states no rounding). Arguments: what is rounded, numerator, denominator. Log entry 11. -/
opaque roundsUp : Nat → Int → Int → Bool

/-- The 352 payload bits of an event-log record of a type from the fields that Table 14-7 lists (their places are not
stated). Log entry 12. -/
opaque logPayload : Nat → List Nat → BitVec 352

/-- The bytes of a response whose layout the spec leaves open (Table 14-8, R412 to R415), from a code for the response and
the values it carries. Log entry 12. -/
opaque respBytes : Nat → List Nat → List (BitVec 8)

/-- The values a request's bytes carry, where Table 14-8 names them and gives no places. Log entry 12. -/
opaque reqFields : Nat → List (BitVec 8) → List Nat

/-- The byte strings (keys, signatures) a request's bytes carry, likewise. Log entry 12. -/
opaque reqBlobs : Nat → List (BitVec 8) → List (List (BitVec 8))

/-- Whether a request length lies in a mailbox command's range, of which Table 14-8 names no number. Log entry 12. -/
opaque lenInRange : Nat → Nat → Bool

/-- SHA-384 of a byte string (R397). Log entry 13. -/
opaque sha384 : List (BitVec 8) → BitVec 384

/-- Digest of the boot ROM, measurement block 1 (Table 14-12), which the spec does not give. Log entry 13. -/
opaque romDigest : BitVec 384

/-- ECDSA P-384 verification: key, message, signature (R397). Log entry 13. -/
opaque ecdsaVerifies : List (BitVec 8) → List (BitVec 8) → List (BitVec 8) → Bool

/-- LMS verification: key, message, signature (R397). Log entry 13. -/
opaque lmsVerifies : List (BitVec 8) → List (BitVec 8) → List (BitVec 8) → Bool

/-- A signature or key the gander makes: a code for its kind, the secret or seed it is made with, and what is signed or
derived from (R411 to R414). Log entry 13. -/
opaque signs : Nat → BitVec 256 → List (BitVec 8) → List (BitVec 8)

/-- Whether a monitor's count is saturated (R388 names saturation and not the count). Log entry 16. -/
opaque monSaturated : Nat → Bool

/-- Whether a sector's hold exceeds its share of the budget (R382 names the share and does not define it): sector, hold,
the sum of the holds. Log entry 16. -/
opaque exceedsShare : Nat → Nat → Nat → Bool

/-- C_max of a block-scaled operation none of whose blocks has a scale code that counts (R32 leaves every such block out and
Table 2-4 then names no anchor). Log entry 17. -/
opaque emptyCmax : Nat → Int

/-- The virtual address that an EDGE_FAULT reports where a list position or a BLOCK value lies out of range, so that R53 gives
no address; argument: the handle. Log entry 19. -/
opaque edgeVaddr : Nat → Nat

/-- What a field of a width shows of a number that does not fit it, where the spec does not make the field saturate. Log
entry 25. -/
opaque tooWide : Nat → Nat → Nat

/-- Whether a READY bitmap shows every member of an epoch that this device has not staged, whose MEMBERS it does not know
(R306). Log entry 27. -/
opaque foreignReady : Nat → Nat → Bool

/-- Whether the device sets Relaxed Ordering on a data write to a host bus address, which it may (R176). Log entry 74. -/
opaque relaxesData : Nat → Bool

/-- A value the spec leaves free, drawn by a counter of the state. Log entry 14. -/
opaque freeWord : Nat → Nat

end Sys2Proof.Config
end

