-- ==== Sys2Proof/Machine/Bits.lean ====
section
/-! DEFINITION. Bit fields, byte order and sparse tables: the helpers every layout of the spec is read with
(00_scope.md R5 and the paragraph after R9: little-endian, bit 0 of a structure is bit 0 of its first byte). -/

namespace Sys2Proof.Machine

/-- The field of a word, as a number. -/
def bitsOf {w : Nat} (v : BitVec w) (lo len : Nat) : Nat := (v.toNat >>> lo) % 2 ^ len

/-- Bit `i` of a word. -/
def bitOf {w : Nat} (v : BitVec w) (i : Nat) : Bool := v.getLsbD i

/-- The field `f` of a word. -/
def fld {w : Nat} (v : BitVec w) (f : Fld) : Nat := bitsOf v f.lo f.len

/-- The word with field `f` set to the low bits of `x`. -/
def putFld {w : Nat} (v : BitVec w) (f : Fld) (x : Nat) : BitVec w :=
  BitVec.ofNat w (v.toNat - (fld v f) <<< f.lo + (x % 2 ^ f.len) <<< f.lo)

/-- A number placed at bit `lo` of a structure under construction. -/
def atBit (lo : Nat) (x : Nat) : Nat := x <<< lo

/-- `n` read as a two's-complement number of `len` bits. -/
def signed (len n : Nat) : Int := if n < 2 ^ (len - 1) then (n : Int) else (n : Int) - 2 ^ len

/-- The low `len` bits of an integer, as a number. -/
def wrapNat (len : Nat) (x : Int) : Nat := (x % (2 ^ len : Int)).toNat

/-- Quotient rounded up; 0 when the divisor is 0. -/
def ceilDiv (a b : Nat) : Nat := (a + b - 1) / b

/-- The little-endian number of a list of bytes. -/
def leNat : List Byte → Nat
  | [] => 0
  | b :: bs => b.toNat + 256 * leNat bs

/-- `n` bytes of a number, little-endian. -/
def leBytes : Nat → Nat → List Byte
  | 0, _ => []
  | n + 1, x => BitVec.ofNat 8 x :: leBytes n (x / 256)

/-- 64 bytes as a record. -/
def recOf (bs : List Byte) : Rec := BitVec.ofNat 512 (leNat bs)

/-- The 64 bytes of a record. -/
def recBytes (r : Rec) : List Byte := leBytes 64 r.toNat

/-- Consecutive pieces of `n` elements (fuel bounds their number). -/
def chunksOf {α : Type} (n : Nat) : Nat → List α → List (List α)
  | 0, _ => []
  | _ + 1, [] => []
  | k + 1, xs => xs.take n :: chunksOf n k (xs.drop n)

/-- The entry of a sparse table at `k`, or the default. -/
def tget {α : Type} : Tab α → α → Nat → α
  | [], d, _ => d
  | (k', v) :: t, d, k => if k' == k then v else tget t d k

/-- The table with the entry at `k` set, keys kept rising. -/
def tset {α : Type} : Tab α → Nat → α → Tab α
  | [], k, v => [(k, v)]
  | (k', v') :: t, k, v =>
    if k < k' then (k, v) :: (k', v') :: t
    else if k = k' then (k, v) :: t
    else (k', v') :: tset t k v

/-- The table without its entry at `k`. -/
def tdel {α : Type} (t : Tab α) (k : Nat) : Tab α := t.filter (fun e => e.1 != k)

/-- Whether the table lists `k`. -/
def thas {α : Type} (t : Tab α) (k : Nat) : Bool := t.any (fun e => e.1 == k)

/-- The entry at `k` changed by `f`, its default standing in where there is none. -/
def tmod {α : Type} (t : Tab α) (d : α) (k : Nat) (f : α → α) : Tab α := tset t k (f (tget t d k))

/-- Saturating addition in `len` bits. -/
def satAdd (len a b : Nat) : Nat := min (a + b) (2 ^ len - 1)

/-- The list with element `i` changed. -/
def modifyNth {α : Type} (xs : List α) (i : Nat) (f : α → α) : List α := xs.modify i f

/-- The least element of a list by a key, the earliest among equals. -/
def leastBy {α : Type} (key : α → Nat) : List α → Option α
  | [] => none
  | x :: xs =>
    match leastBy key xs with
    | none => some x
    | some y => if key y < key x then some y else some x

/-- One register of a page (Table 0-4 and the field maps): its offset in the page, its stride and number of copies, its
bytes, the bits of type RW, RW1C, W1S and WO, and its Reset column. -/
structure RegRow where
  off : Nat
  stride : Nat
  count : Nat
  size : Nat
  rw : Nat
  w1c : Nat
  w1s : Nat
  wo : Nat
  rst : Nat
  deriving DecidableEq, Repr

end Sys2Proof.Machine
end

