-- ==== Sys2Proof/Machine/RegMap.lean ====
section
/-! DEFINITION. The register map of BAR0 (16_register_pages.md R442 to R444 and the field maps of the owning chapters):
one address per register, one `Fld` per field of every field map (the name is `f`, the register, an underscore, the
field), and one row per register of every page with its width, the bits of each access type of Table 0-4 and its
Reset column. A field the Reset column shows as "loaded" or "Fixed" has 0 here: its value is placed by POWER_ON
or computed by the read (R444, R452). -/

namespace Sys2Proof.Machine

/-- SECT_LIB_STATUS: 04_thokel_programs, R128, Table 4-16. -/
def rSectLibStatus (k : Nat) : Nat := 0x104000 + 0x20000 * k + 0x40
def fSectLibStatus_Loaded : Fld := ⟨0, 1⟩
def fSectLibStatus_Count : Fld := ⟨1, 9⟩
def fSectLibStatus_Keyid : Fld := ⟨10, 16⟩
/-- SECT_LIB_VER: 04_thokel_programs, R128, Table 4-17. -/
def rSectLibVer (k : Nat) : Nat := 0x104000 + 0x20000 * k + 0x44
def fSectLibVer_LibVer : Fld := ⟨0, 32⟩
/-- SECT_DTAB_BASE: 04_thokel_programs, R128, Table 4-18. -/
def rSectDtabBase (k c : Nat) : Nat := 0x104100 + 0x20000 * k + 0x40 * c
def fSectDtabBase_Base : Fld := ⟨16, 32⟩
/-- SECT_ILL_BASE: 04_thokel_programs, R128, Table 4-19. -/
def rSectIllBase (k c : Nat) : Nat := 0x104100 + 0x20000 * k + 0x40 * c + 0x8
def fSectIllBase_Base : Fld := ⟨12, 36⟩
/-- SECT_ILL_CTRL: 04_thokel_programs, R128, Table 4-20. -/
def rSectIllCtrl (k c : Nat) : Nat := 0x104100 + 0x20000 * k + 0x40 * c + 0x10
def fSectIllCtrl_En : Fld := ⟨0, 1⟩
def fSectIllCtrl_Log2n : Fld := ⟨4, 4⟩
/-- SECT_ILL_HEAD: 04_thokel_programs, R128, Table 4-21. -/
def rSectIllHead (k c : Nat) : Nat := 0x104100 + 0x20000 * k + 0x40 * c + 0x14
def fSectIllHead_Head : Fld := ⟨0, 32⟩
/-- SECT_ILL_TAIL: 04_thokel_programs, R128, Table 4-21. -/
def rSectIllTail (k c : Nat) : Nat := 0x104100 + 0x20000 * k + 0x40 * c + 0x18
def fSectIllTail_Tail : Fld := ⟨0, 32⟩
/-- SECT_ILL_CNT: 04_thokel_programs, R128, Table 4-21. -/
def rSectIllCnt (k c : Nat) : Nat := 0x104100 + 0x20000 * k + 0x40 * c + 0x1c
def fSectIllCnt_Cnt : Fld := ⟨0, 32⟩
/-- SECT_ILL_LOST: 04_thokel_programs, R128, Table 4-21. -/
def rSectIllLost (k c : Nat) : Nat := 0x104100 + 0x20000 * k + 0x40 * c + 0x20
def fSectIllLost_Lost : Fld := ⟨0, 32⟩
/-- SECT_CTX_STATE: 04_thokel_programs, R128, Table 4-22. -/
def rSectCtxState (k c : Nat) : Nat := 0x104100 + 0x20000 * k + 0x40 * c + 0x24
def fSectCtxState_Trapped : Fld := ⟨0, 1⟩
def fSectCtxState_Routine : Fld := ⟨1, 8⟩
def fSectCtxState_Bundle : Fld := ⟨9, 11⟩
def fSectCtxState_Tile : Fld := ⟨20, 8⟩
/-- CQ_HOLD_FREE: 05_command_queues, R151, Table 5-9. -/
def rCqHoldFree : Nat := 0x10000 + 0x40
def fCqHoldFree_Free : Fld := ⟨0, 9⟩
/-- CQ_Q_CFG: 05_command_queues, R151, Table 5-10. -/
def rCqQCfg (q : Nat) : Nat := 0x11200 + 0x1000 * (q / 32) + 0x40 * (q % 32)
def fCqQCfg_En : Fld := ⟨0, 1⟩
def fCqQCfg_Func : Fld := ⟨1, 5⟩
def fCqQCfg_Part : Fld := ⟨6, 3⟩
def fCqQCfg_Ring : Fld := ⟨9, 7⟩
def fCqQCfg_DepthLog2 : Fld := ⟨16, 4⟩
/-- CQ_Q_TMO: 05_command_queues, R151, Table 5-11. -/
def rCqQTmo (q : Nat) : Nat := 0x11200 + 0x1000 * (q / 32) + 0x40 * (q % 32) + 0x4
def fCqQTmo_Default : Fld := ⟨0, 24⟩
/-- CQ_Q_CREDIT: 05_command_queues, R151, Table 5-11. -/
def rCqQCredit (q : Nat) : Nat := 0x11200 + 0x1000 * (q / 32) + 0x40 * (q % 32) + 0x8
def fCqQCredit_Credit : Fld := ⟨0, 11⟩
/-- CQ_Q_WCNT: 05_command_queues, R151, Table 5-11. -/
def rCqQWcnt (q : Nat) : Nat := 0x11200 + 0x1000 * (q / 32) + 0x40 * (q % 32) + 0xc
def fCqQWcnt_Wcnt : Fld := ⟨0, 32⟩
/-- CQ_Q_SCNT: 05_command_queues, R151, Table 5-11. -/
def rCqQScnt (q : Nat) : Nat := 0x11200 + 0x1000 * (q / 32) + 0x40 * (q % 32) + 0x10
def fCqQScnt_Scnt : Fld := ⟨0, 32⟩
/-- CQ_Q_CCNT: 05_command_queues, R151, Table 5-11. -/
def rCqQCcnt (q : Nat) : Nat := 0x11200 + 0x1000 * (q / 32) + 0x40 * (q % 32) + 0x14
def fCqQCcnt_Ccnt : Fld := ⟨0, 32⟩
/-- CQ_Q_QOVF: 05_command_queues, R151, Table 5-11. -/
def rCqQQovf (q : Nat) : Nat := 0x11200 + 0x1000 * (q / 32) + 0x40 * (q % 32) + 0x18
def fCqQQovf_Qovf : Fld := ⟨0, 32⟩
/-- CQ_Q_QREJ: 05_command_queues, R151, Table 5-11. -/
def rCqQQrej (q : Nat) : Nat := 0x11200 + 0x1000 * (q / 32) + 0x40 * (q % 32) + 0x1c
def fCqQQrej_Qrej : Fld := ⟨0, 32⟩
/-- CQ_Q_LASTDROP: 05_command_queues, R151, Table 5-11. -/
def rCqQLastdrop (q : Nat) : Nat := 0x11200 + 0x1000 * (q / 32) + 0x40 * (q % 32) + 0x20
def fCqQLastdrop_Seq : Fld := ⟨0, 32⟩
/-- CQ_Q_FLUSHED: 05_command_queues, R151, Table 5-11. -/
def rCqQFlushed (q : Nat) : Nat := 0x11200 + 0x1000 * (q / 32) + 0x40 * (q % 32) + 0x24
def fCqQFlushed_Flushed : Fld := ⟨0, 32⟩
/-- CQ_Q_STATE: 05_command_queues, R151, Table 5-12. -/
def rCqQState (q : Nat) : Nat := 0x11200 + 0x1000 * (q / 32) + 0x40 * (q % 32) + 0x28
def fCqQState_Wait : Fld := ⟨0, 3⟩
def fCqQState_Running : Fld := ⟨16, 9⟩
/-- CQ_R_BASE: 05_command_queues, R151, Table 5-13. -/
def rCqRBase (r : Nat) : Nat := 0x15200 + 0x1000 * (r / 32) + 0x40 * (r % 32)
def fCqRBase_Base : Fld := ⟨12, 52⟩
/-- CQ_R_CFG: 05_command_queues, R151, Table 5-13. -/
def rCqRCfg (r : Nat) : Nat := 0x15200 + 0x1000 * (r / 32) + 0x40 * (r % 32) + 0x8
def fCqRCfg_En : Fld := ⟨0, 1⟩
def fCqRCfg_Func : Fld := ⟨1, 5⟩
def fCqRCfg_Log2n : Fld := ⟨8, 4⟩
def fCqRCfg_Vec : Fld := ⟨12, 6⟩
def fCqRCfg_ErrNow : Fld := ⟨18, 1⟩
/-- CQ_R_MOD: 05_command_queues, R151, Table 5-13. -/
def rCqRMod (r : Nat) : Nat := 0x15200 + 0x1000 * (r / 32) + 0x40 * (r % 32) + 0xc
def fCqRMod_Count : Fld := ⟨0, 8⟩
def fCqRMod_Timer : Fld := ⟨8, 16⟩
/-- CQ_R_TAIL: 05_command_queues, R151, Table 5-13. -/
def rCqRTail (r : Nat) : Nat := 0x15200 + 0x1000 * (r / 32) + 0x40 * (r % 32) + 0x10
def fCqRTail_Tail : Fld := ⟨0, 32⟩
/-- CQ_R_HEAD: 05_command_queues, R151, Table 5-13. -/
def rCqRHead (r : Nat) : Nat := 0x15200 + 0x1000 * (r / 32) + 0x40 * (r % 32) + 0x14
def fCqRHead_Head : Fld := ⟨0, 32⟩
/-- CQ_R_HOLD: 05_command_queues, R151, Table 5-13. -/
def rCqRHold (r : Nat) : Nat := 0x15200 + 0x1000 * (r / 32) + 0x40 * (r % 32) + 0x18
def fCqRHold_Held : Fld := ⟨0, 18⟩
/-- CQ_R_ERR: 05_command_queues, R151, Table 5-13. -/
def rCqRErr (r : Nat) : Nat := 0x15200 + 0x1000 * (r / 32) + 0x40 * (r % 32) + 0x1c
def fCqRErr_Err : Fld := ⟨0, 32⟩
/-- SRV_SPLIT: 07_compute_stacks, R201, Table 7-7. -/
def rSrvSplit (p : Nat) : Nat := 0xC00E00 + 4 * p
def fSrvSplit_BatchThresh : Fld := ⟨0, 6⟩
/-- CS_STATE: 07_compute_stacks, R213, Table 7-12. -/
def rCsState (n : Nat) : Nat := 0x400000 + 0x10000 * n + 0x40
def fCsState_Ready : Fld := ⟨0, 1⟩
def fCsState_Training : Fld := ⟨1, 1⟩
def fCsState_VbmClear : Fld := ⟨2, 1⟩
def fCsState_Selfref : Fld := ⟨3, 1⟩
def fCsState_Part : Fld := ⟨4, 3⟩
/-- CS_TEMP: 07_compute_stacks, R213, Table 7-13. -/
def rCsTemp (n : Nat) : Nat := 0x400000 + 0x10000 * n + 0x44
def fCsTemp_Temp : Fld := ⟨0, 10⟩
def fCsTemp_Band : Fld := ⟨10, 2⟩
def fCsTemp_SensorFail : Fld := ⟨12, 1⟩
def fCsTemp_Hottest : Fld := ⟨13, 4⟩
/-- CS_TEMP_MAX: 07_compute_stacks, R213, Table 7-14. -/
def rCsTempMax (n : Nat) : Nat := 0x400000 + 0x10000 * n + 0x48
def fCsTempMax_Max : Fld := ⟨0, 10⟩
def fCsTempMax_Clr : Fld := ⟨31, 1⟩
/-- CS_HEN_BUSY: 07_compute_stacks, R213, Table 7-15. -/
def rCsHenBusy (n : Nat) : Nat := 0x400000 + 0x10000 * n + 0x4c
def fCsHenBusy_Busy : Fld := ⟨0, 32⟩
/-- CS_HEN_PEND: 07_compute_stacks, R213, Table 7-15. -/
def rCsHenPend (n : Nat) : Nat := 0x400000 + 0x10000 * n + 0x50
def fCsHenPend_Pend : Fld := ⟨0, 9⟩
/-- CS_WIN_WAIT: 07_compute_stacks, R213, Table 7-16. -/
def rCsWinWait (n : Nat) : Nat := 0x400000 + 0x10000 * n + 0x54
def fCsWinWait_Max : Fld := ⟨0, 12⟩
def fCsWinWait_Defer : Fld := ⟨12, 16⟩
def fCsWinWait_Clr : Fld := ⟨31, 1⟩
/-- CS_POISON: 07_compute_stacks, R213, Table 7-17. -/
def rCsPoison (n : Nat) : Nat := 0x400000 + 0x10000 * n + 0x58
def fCsPoison_Written : Fld := ⟨0, 16⟩
def fCsPoison_Read : Fld := ⟨16, 16⟩
/-- CS_HEN_OPS: 07_compute_stacks, R213, Table 7-17. -/
def rCsHenOps (n : Nat) : Nat := 0x400000 + 0x10000 * n + 0x60
def fCsHenOps_Ops : Fld := ⟨0, 64⟩
/-- SRV_TABLE_FREE: 08_requests_and_promises, R240, Table 8-11. -/
def rSrvTableFree : Nat := 0xC00000 + 0x40
def fSrvTableFree_Free : Fld := ⟨0, 15⟩
/-- SRV_SUB_REJ: 08_requests_and_promises, R240, Table 8-11. -/
def rSrvSubRej : Nat := 0xC00000 + 0x44
def fSrvSubRej_Rej : Fld := ⟨0, 32⟩
/-- SRV_RT_SEL: 08_requests_and_promises, R240, Table 8-11. -/
def rSrvRtSel : Nat := 0xC00000 + 0x48
def fSrvRtSel_Index : Fld := ⟨0, 14⟩
/-- SRV_RT_DATA: 08_requests_and_promises, R240, Table 8-11. -/
def rSrvRtData (i : Nat) : Nat := 0xC00000 + 0x80 + 4 * i
def fSrvRtData_Data : Fld := ⟨0, 32⟩
/-- SRV_ADM_CTRL: 08_requests_and_promises, R240, Table 8-12. -/
def rSrvAdmCtrl (p : Nat) : Nat := 0xC00100 + 0x80 * p
def fSrvAdmCtrl_En : Fld := ⟨0, 1⟩
def fSrvAdmCtrl_EntryMax : Fld := ⟨2, 15⟩
/-- SRV_ADM_DEC_CAP: 08_requests_and_promises, R240, Table 8-12. -/
def rSrvAdmDecCap (p : Nat) : Nat := 0xC00100 + 0x80 * p + 0x4
def fSrvAdmDecCap_DecCap : Fld := ⟨0, 32⟩
/-- SRV_ADM_PF_SLICE: 08_requests_and_promises, R240, Table 8-12. -/
def rSrvAdmPfSlice (p : Nat) : Nat := 0xC00100 + 0x80 * p + 0x8
def fSrvAdmPfSlice_PfSlice : Fld := ⟨0, 32⟩
/-- SRV_ADM_SETUP: 08_requests_and_promises, R240, Table 8-12. -/
def rSrvAdmSetup (p : Nat) : Nat := 0xC00100 + 0x80 * p + 0xc
def fSrvAdmSetup_Base : Fld := ⟨0, 16⟩
def fSrvAdmSetup_Ktok : Fld := ⟨16, 16⟩
/-- SRV_ADM_BEAT: 08_requests_and_promises, R240, Table 8-12. -/
def rSrvAdmBeat (p : Nat) : Nat := 0xC00100 + 0x80 * p + 0x10
def fSrvAdmBeat_BeatNs : Fld := ⟨0, 16⟩
/-- SRV_ADM_SHARE_LO: 08_requests_and_promises, R240, Table 8-12. -/
def rSrvAdmShareLo (p : Nat) : Nat := 0xC00100 + 0x80 * p + 0x14
def fSrvAdmShareLo_Share0 : Fld := ⟨0, 32⟩
/-- SRV_ADM_SHARE_HI: 08_requests_and_promises, R240, Table 8-12. -/
def rSrvAdmShareHi (p : Nat) : Nat := 0xC00100 + 0x80 * p + 0x18
def fSrvAdmShareHi_Share4 : Fld := ⟨0, 32⟩
/-- SRV_ADM_FLOOR: 08_requests_and_promises, R240, Table 8-12. -/
def rSrvAdmFloor (p : Nat) : Nat := 0xC00100 + 0x80 * p + 0x1c
def fSrvAdmFloor_Rate : Fld := ⟨0, 7⟩
def fSrvAdmFloor_Clk : Fld := ⟨7, 7⟩
/-- SRV_ADM_POOL: 08_requests_and_promises, R240, Table 8-12. -/
def rSrvAdmPool (p : Nat) : Nat := 0xC00100 + 0x80 * p + 0x20
def fSrvAdmPool_Pool : Fld := ⟨0, 27⟩
/-- SRV_ADM_CADENCE: 08_requests_and_promises, R240, Table 8-12. -/
def rSrvAdmCadence (p : Nat) : Nat := 0xC00100 + 0x80 * p + 0x24
def fSrvAdmCadence_C : Fld := ⟨0, 32⟩
/-- SRV_LOAD: 08_requests_and_promises, R240, Table 8-12. -/
def rSrvLoad (p : Nat) : Nat := 0xC00100 + 0x80 * p + 0x28
def fSrvLoad_Load : Fld := ⟨0, 32⟩
/-- SRV_LIVE: 08_requests_and_promises, R240, Table 8-12. -/
def rSrvLive (p : Nat) : Nat := 0xC00100 + 0x80 * p + 0x2c
def fSrvLive_Live : Fld := ⟨0, 15⟩
/-- SRV_PF_PEND: 08_requests_and_promises, R240, Table 8-12. -/
def rSrvPfPend (p : Nat) : Nat := 0xC00100 + 0x80 * p + 0x30
def fSrvPfPend_PfPend : Fld := ⟨0, 64⟩
/-- SRV_POOL_FREE: 08_requests_and_promises, R240, Table 8-12. -/
def rSrvPoolFree (p : Nat) : Nat := 0xC00100 + 0x80 * p + 0x38
def fSrvPoolFree_Free : Fld := ⟨0, 27⟩
/-- SRV_ACCEPT: 08_requests_and_promises, R240, Table 8-12. -/
def rSrvAccept (p : Nat) : Nat := 0xC00100 + 0x80 * p + 0x3c
def fSrvAccept_Accept : Fld := ⟨0, 32⟩
/-- SRV_REFUSE: 08_requests_and_promises, R240, Table 8-12. -/
def rSrvRefuse (p : Nat) : Nat := 0xC00100 + 0x80 * p + 0x40
def fSrvRefuse_Refuse : Fld := ⟨0, 32⟩
/-- SRV_LAST_REFUSE: 08_requests_and_promises, R240, Table 8-12. -/
def rSrvLastRefuse (p : Nat) : Nat := 0xC00100 + 0x80 * p + 0x44
def fSrvLastRefuse_Reason : Fld := ⟨0, 8⟩
/-- SRV_LAST_SEQ: 08_requests_and_promises, R240, Table 8-12. -/
def rSrvLastSeq (p : Nat) : Nat := 0xC00100 + 0x80 * p + 0x48
def fSrvLastSeq_Seq : Fld := ⟨0, 32⟩
/-- SRV_LATE: 08_requests_and_promises, R240, Table 8-12. -/
def rSrvLate (p : Nat) : Nat := 0xC00100 + 0x80 * p + 0x4c
def fSrvLate_Late : Fld := ⟨0, 32⟩
/-- SRV_ABORT: 08_requests_and_promises, R240, Table 8-12. -/
def rSrvAbort (p : Nat) : Nat := 0xC00100 + 0x80 * p + 0x50
def fSrvAbort_Abort : Fld := ⟨0, 32⟩
/-- SRV_LATE_MAX: 08_requests_and_promises, R240, Table 8-12. -/
def rSrvLateMax (p : Nat) : Nat := 0xC00100 + 0x80 * p + 0x54
def fSrvLateMax_Max : Fld := ⟨0, 31⟩
def fSrvLateMax_Clr : Fld := ⟨31, 1⟩
/-- SRV_COEF_BASE: 08_requests_and_promises, R240, Table 8-13. -/
def rSrvCoefBase (p s : Nat) : Nat := 0xC01040 + 0x1000 * p + 0x40 * s
def fSrvCoefBase_Base : Fld := ⟨0, 32⟩
/-- SRV_COEF_PER_REQ: 08_requests_and_promises, R240, Table 8-13. -/
def rSrvCoefPerReq (p s : Nat) : Nat := 0xC01040 + 0x1000 * p + 0x40 * s + 0x4
def fSrvCoefPerReq_PerReq : Fld := ⟨0, 32⟩
/-- SRV_COEF_PER_KTOK: 08_requests_and_promises, R240, Table 8-13. -/
def rSrvCoefPerKtok (p s : Nat) : Nat := 0xC01040 + 0x1000 * p + 0x40 * s + 0x8
def fSrvCoefPerKtok_PerKtok : Fld := ⟨0, 32⟩
/-- SRV_COEF_COLT: 08_requests_and_promises, R240, Table 8-13. -/
def rSrvCoefColt (p s : Nat) : Nat := 0xC01040 + 0x1000 * p + 0x40 * s + 0xc
def fSrvCoefColt_Colt : Fld := ⟨0, 32⟩
/-- SRV_COEF_DELTA: 08_requests_and_promises, R240, Table 8-13. -/
def rSrvCoefDelta (p s : Nat) : Nat := 0xC01040 + 0x1000 * p + 0x40 * s + 0x10
def fSrvCoefDelta_Delta : Fld := ⟨0, 32⟩
/-- SRV_COEF_PF_BASE: 08_requests_and_promises, R240, Table 8-13. -/
def rSrvCoefPfBase (p s : Nat) : Nat := 0xC01040 + 0x1000 * p + 0x40 * s + 0x14
def fSrvCoefPfBase_PfBase : Fld := ⟨0, 32⟩
/-- SRV_COEF_PF_TOK: 08_requests_and_promises, R240, Table 8-13. -/
def rSrvCoefPfTok (p s : Nat) : Nat := 0xC01040 + 0x1000 * p + 0x40 * s + 0x18
def fSrvCoefPfTok_PfTok : Fld := ⟨0, 32⟩
/-- SRV_COEF_PF_SQ: 08_requests_and_promises, R240, Table 8-13. -/
def rSrvCoefPfSq (p s : Nat) : Nat := 0xC01040 + 0x1000 * p + 0x40 * s + 0x1c
def fSrvCoefPfSq_PfSq : Fld := ⟨0, 32⟩
/-- SRV_COEF_KVB: 08_requests_and_promises, R240, Table 8-13. -/
def rSrvCoefKvb (p s : Nat) : Nat := 0xC01040 + 0x1000 * p + 0x40 * s + 0x20
def fSrvCoefKvb_Kvb : Fld := ⟨0, 20⟩
/-- SRV_COEF_LIMIT: 08_requests_and_promises, R240, Table 8-13. -/
def rSrvCoefLimit (p s : Nat) : Nat := 0xC01040 + 0x1000 * p + 0x40 * s + 0x24
def fSrvCoefLimit_Maxctx : Fld := ⟨0, 24⟩
def fSrvCoefLimit_ColtMax : Fld := ⟨24, 4⟩
/-- SRV_SLOT_CFG: 09_attention_kv_and_variants, R276, Table 9-9. -/
def rSrvSlotCfg (s : Nat) : Nat := 0xC07100 + 0x40 * s
def fSrvSlotCfg_Part : Fld := ⟨0, 3⟩
def fSrvSlotCfg_Pin : Fld := ⟨3, 1⟩
def fSrvSlotCfg_Format : Fld := ⟨4, 2⟩
def fSrvSlotCfg_Colt : Fld := ⟨6, 1⟩
/-- SRV_SLOT_STATE: 09_attention_kv_and_variants, R276, Table 9-9. -/
def rSrvSlotState (s : Nat) : Nat := 0xC07100 + 0x40 * s + 0x4
def fSrvSlotState_State : Fld := ⟨0, 3⟩
def fSrvSlotState_Live : Fld := ⟨4, 15⟩
/-- SRV_SLOT_BASE: 09_attention_kv_and_variants, R276, Table 9-9. -/
def rSrvSlotBase (s : Nat) : Nat := 0xC07100 + 0x40 * s + 0x8
def fSrvSlotBase_Base : Fld := ⟨16, 32⟩
/-- SRV_SLOT_SIZE: 09_attention_kv_and_variants, R276, Table 9-9. -/
def rSrvSlotSize (s : Nat) : Nat := 0xC07100 + 0x40 * s + 0x10
def fSrvSlotSize_Size : Fld := ⟨0, 32⟩
/-- SRV_SLOT_MODEL_ID: 09_attention_kv_and_variants, R276, Table 9-9. -/
def rSrvSlotModelId (s : Nat) : Nat := 0xC07100 + 0x40 * s + 0x18
def fSrvSlotModelId_ModelId : Fld := ⟨0, 64⟩
/-- SRV_SLOT_LRU: 09_attention_kv_and_variants, R276, Table 9-9. -/
def rSrvSlotLru (s : Nat) : Nat := 0xC07100 + 0x40 * s + 0x20
def fSrvSlotLru_Time : Fld := ⟨0, 64⟩
/-- SRV_SLOT_GEOM: 09_attention_kv_and_variants, R276, Table 9-9. -/
def rSrvSlotGeom (s : Nat) : Nat := 0xC07100 + 0x40 * s + 0x28
def fSrvSlotGeom_Layers : Fld := ⟨0, 8⟩
def fSrvSlotGeom_D : Fld := ⟨8, 11⟩
def fSrvSlotGeom_Dv : Fld := ⟨19, 11⟩
/-- SRV_SLOT_TOKB: 09_attention_kv_and_variants, R276, Table 9-9. -/
def rSrvSlotTokb (s : Nat) : Nat := 0xC07100 + 0x40 * s + 0x2c
def fSrvSlotTokb_Tokb : Fld := ⟨0, 20⟩
/-- SRV_SLOT_BLOCKS: 09_attention_kv_and_variants, R276, Table 9-9. -/
def rSrvSlotBlocks (s : Nat) : Nat := 0xC07100 + 0x40 * s + 0x30
def fSrvSlotBlocks_Blocks : Fld := ⟨0, 32⟩
/-- SRV_SLOT_KEEP: 09_attention_kv_and_variants, R276, Table 9-9. -/
def rSrvSlotKeep (s : Nat) : Nat := 0xC07100 + 0x40 * s + 0x34
def fSrvSlotKeep_Keep : Fld := ⟨0, 24⟩
def fSrvSlotKeep_Sink : Fld := ⟨24, 8⟩
/-- SRV_SLOT_M4: 09_attention_kv_and_variants, R276, Table 9-9. -/
def rSrvSlotM4 (s : Nat) : Nat := 0xC07100 + 0x40 * s + 0x38
def fSrvSlotM4_Recent : Fld := ⟨0, 12⟩
/-- SRV_KV_WIN: 09_attention_kv_and_variants, R277, Table 9-10. -/
def rSrvKvWin (p : Nat) : Nat := 0xC08100 + 0x80 * p
def fSrvKvWin_Wlog2 : Fld := ⟨0, 6⟩
def fSrvKvWin_Base : Fld := ⟨16, 32⟩
/-- SRV_KV_PLIST: 09_attention_kv_and_variants, R277, Table 9-10. -/
def rSrvKvPlist (p : Nat) : Nat := 0xC08100 + 0x80 * p + 0x8
def fSrvKvPlist_Base : Fld := ⟨12, 36⟩
/-- SRV_KV_ARENA: 09_attention_kv_and_variants, R277, Table 9-10. -/
def rSrvKvArena (p : Nat) : Nat := 0xC08100 + 0x80 * p + 0x10
def fSrvKvArena_Base : Fld := ⟨16, 32⟩
/-- SRV_KV_ARENA_PAGES: 09_attention_kv_and_variants, R277, Table 9-10. -/
def rSrvKvArenaPages (p : Nat) : Nat := 0xC08100 + 0x80 * p + 0x18
def fSrvKvArenaPages_Pages : Fld := ⟨0, 28⟩
/-- SRV_KV_DESC: 09_attention_kv_and_variants, R277, Table 9-10. -/
def rSrvKvDesc (p : Nat) : Nat := 0xC08100 + 0x80 * p + 0x1c
def fSrvKvDesc_Ctx : Fld := ⟨0, 4⟩
def fSrvKvDesc_Hbase : Fld := ⟨4, 12⟩
def fSrvKvDesc_Hcount : Fld := ⟨16, 13⟩
/-- SRV_KV_KEY: 09_attention_kv_and_variants, R277, Table 9-10. -/
def rSrvKvKey (p : Nat) : Nat := 0xC08100 + 0x80 * p + 0x20
def fSrvKvKey_Pkey : Fld := ⟨0, 8⟩
/-- SRV_PFX_CTRL: 09_attention_kv_and_variants, R277, Table 9-10. -/
def rSrvPfxCtrl (p : Nat) : Nat := 0xC08100 + 0x80 * p + 0x24
def fSrvPfxCtrl_En : Fld := ⟨0, 1⟩
def fSrvPfxCtrl_Publish : Fld := ⟨1, 1⟩
def fSrvPfxCtrl_CowMin : Fld := ⟨2, 6⟩
def fSrvPfxCtrl_Flush : Fld := ⟨8, 1⟩
/-- SRV_PFX_NODES: 09_attention_kv_and_variants, R277, Table 9-10. -/
def rSrvPfxNodes (p : Nat) : Nat := 0xC08100 + 0x80 * p + 0x28
def fSrvPfxNodes_NodeMax : Fld := ⟨0, 19⟩
/-- SRV_PFX_PAGES: 09_attention_kv_and_variants, R277, Table 9-10. -/
def rSrvPfxPages (p : Nat) : Nat := 0xC08100 + 0x80 * p + 0x2c
def fSrvPfxPages_TreePages : Fld := ⟨0, 28⟩
/-- SRV_PFX_USED: 09_attention_kv_and_variants, R277, Table 9-10. -/
def rSrvPfxUsed (p : Nat) : Nat := 0xC08100 + 0x80 * p + 0x30
def fSrvPfxUsed_Nodes : Fld := ⟨0, 19⟩
/-- SRV_PFX_PAGES_USED: 09_attention_kv_and_variants, R277, Table 9-10. -/
def rSrvPfxPagesUsed (p : Nat) : Nat := 0xC08100 + 0x80 * p + 0x34
def fSrvPfxPagesUsed_Pages : Fld := ⟨0, 28⟩
/-- SRV_PFX_SEED: 09_attention_kv_and_variants, R277, Table 9-10. -/
def rSrvPfxSeed (p i : Nat) : Nat := 0xC08100 + 0x80 * p + 0x38 + 4 * i
def fSrvPfxSeed_Seed : Fld := ⟨0, 32⟩
/-- SRV_PFX_HIT: 09_attention_kv_and_variants, R277, Table 9-10. -/
def rSrvPfxHit (p : Nat) : Nat := 0xC08100 + 0x80 * p + 0x48
def fSrvPfxHit_Hit : Fld := ⟨0, 32⟩
/-- SRV_PFX_MISS: 09_attention_kv_and_variants, R277, Table 9-10. -/
def rSrvPfxMiss (p : Nat) : Nat := 0xC08100 + 0x80 * p + 0x4c
def fSrvPfxMiss_Miss : Fld := ⟨0, 32⟩
/-- SRV_PFX_COLLIDE: 09_attention_kv_and_variants, R277, Table 9-10. -/
def rSrvPfxCollide (p : Nat) : Nat := 0xC08100 + 0x80 * p + 0x50
def fSrvPfxCollide_Collide : Fld := ⟨0, 32⟩
/-- SRV_PFX_EVICT: 09_attention_kv_and_variants, R277, Table 9-10. -/
def rSrvPfxEvict (p : Nat) : Nat := 0xC08100 + 0x80 * p + 0x54
def fSrvPfxEvict_Evict : Fld := ⟨0, 32⟩
/-- SRV_PFX_COW: 09_attention_kv_and_variants, R277, Table 9-10. -/
def rSrvPfxCow (p : Nat) : Nat := 0xC08100 + 0x80 * p + 0x58
def fSrvPfxCow_Cow : Fld := ⟨0, 32⟩
/-- SRV_DELTA_ARENA: 09_attention_kv_and_variants, R277, Table 9-10. -/
def rSrvDeltaArena (p : Nat) : Nat := 0xC08100 + 0x80 * p + 0x60
def fSrvDeltaArena_Base : Fld := ⟨16, 32⟩
/-- SRV_DELTA_ARENA_SIZE: 09_attention_kv_and_variants, R277, Table 9-10. -/
def rSrvDeltaArenaSize (p : Nat) : Nat := 0xC08100 + 0x80 * p + 0x68
def fSrvDeltaArenaSize_Size : Fld := ⟨0, 32⟩
/-- SRV_COLT_PASS: 09_attention_kv_and_variants, R277, Table 9-10. -/
def rSrvColtPass (p : Nat) : Nat := 0xC08100 + 0x80 * p + 0x6c
def fSrvColtPass_Pass : Fld := ⟨0, 32⟩
/-- SRV_COLT_TOK: 09_attention_kv_and_variants, R277, Table 9-10. -/
def rSrvColtTok (p : Nat) : Nat := 0xC08100 + 0x80 * p + 0x70
def fSrvColtTok_Tok : Fld := ⟨0, 32⟩
/-- SRV_COLT_DROP: 09_attention_kv_and_variants, R277, Table 9-10. -/
def rSrvColtDrop (p : Nat) : Nat := 0xC08100 + 0x80 * p + 0x74
def fSrvColtDrop_Drop : Fld := ⟨0, 32⟩
/-- SRV_DELTA_SEL: 09_attention_kv_and_variants, R278, Table 9-11. -/
def rSrvDeltaSel : Nat := 0xC09000 + 0x40
def fSrvDeltaSel_Ver : Fld := ⟨0, 12⟩
/-- SRV_DELTA_FREE: 09_attention_kv_and_variants, R278, Table 9-11. -/
def rSrvDeltaFree : Nat := 0xC09000 + 0x44
def fSrvDeltaFree_Free : Fld := ⟨0, 13⟩
/-- SRV_DELTA_REC0: 09_attention_kv_and_variants, R278, Table 9-11. -/
def rSrvDeltaRec0 : Nat := 0xC09000 + 0x48
def fSrvDeltaRec0_State : Fld := ⟨0, 3⟩
def fSrvDeltaRec0_Slot : Fld := ⟨3, 4⟩
def fSrvDeltaRec0_Lineage : Fld := ⟨7, 12⟩
def fSrvDeltaRec0_Current : Fld := ⟨19, 12⟩
def fSrvDeltaRec0_CurValid : Fld := ⟨31, 1⟩
/-- SRV_DELTA_REC1: 09_attention_kv_and_variants, R278, Table 9-11. -/
def rSrvDeltaRec1 : Nat := 0xC09000 + 0x4c
def fSrvDeltaRec1_Refs : Fld := ⟨0, 16⟩
/-- SRV_DELTA_REC2: 09_attention_kv_and_variants, R278, Table 9-11. -/
def rSrvDeltaRec2 : Nat := 0xC09000 + 0x50
def fSrvDeltaRec2_Nb : Fld := ⟨0, 32⟩
/-- SRV_DELTA_REC3: 09_attention_kv_and_variants, R278, Table 9-11. -/
def rSrvDeltaRec3 : Nat := 0xC09000 + 0x58
def fSrvDeltaRec3_Base : Fld := ⟨0, 48⟩
/-- FAB_CFG: 10_fold_fabric, R313, Table 10-13. -/
def rFabCfg : Nat := 0x800000 + 0x40
def fFabCfg_Fid : Fld := ⟨0, 10⟩
def fFabCfg_TimeRoot : Fld := ⟨10, 1⟩
def fFabCfg_FbForce : Fld := ⟨11, 1⟩
/-- FAB_FOLD_TAG: 10_fold_fabric, R313, Table 10-13. -/
def rFabFoldTag : Nat := 0x800000 + 0x44
def fFabFoldTag_Tag : Fld := ⟨0, 32⟩
/-- FAB_STATUS: 10_fold_fabric, R313, Table 10-13. -/
def rFabStatus : Nat := 0x800000 + 0x48
def fFabStatus_EpochState : Fld := ⟨0, 2⟩
def fFabStatus_Staged : Fld := ⟨2, 1⟩
def fFabStatus_Fallback : Fld := ⟨3, 1⟩
def fFabStatus_Detour : Fld := ⟨4, 3⟩
def fFabStatus_TimeAligned : Fld := ⟨7, 1⟩
def fFabStatus_TimeLost : Fld := ⟨8, 1⟩
def fFabStatus_Root : Fld := ⟨9, 1⟩
/-- FAB_EPOCH: 10_fold_fabric, R313, Table 10-13. -/
def rFabEpoch : Nat := 0x800000 + 0x4c
def fFabEpoch_Epoch : Fld := ⟨0, 32⟩
/-- FAB_BEAT: 10_fold_fabric, R313, Table 10-13. -/
def rFabBeat : Nat := 0x800000 + 0x50
def fFabBeat_Beat : Fld := ⟨0, 64⟩
/-- FAB_BEAT_LEN: 10_fold_fabric, R313, Table 10-13. -/
def rFabBeatLen : Nat := 0x800000 + 0x58
def fFabBeatLen_Len : Fld := ⟨0, 17⟩
/-- FAB_NEED: 10_fold_fabric, R313, Table 10-13. -/
def rFabNeed : Nat := 0x800000 + 0x5c
def fFabNeed_Need : Fld := ⟨0, 24⟩
/-- FAB_TIME: 10_fold_fabric, R313, Table 10-13. -/
def rFabTime : Nat := 0x800000 + 0x60
def fFabTime_Err : Fld := ⟨0, 16⟩
def fFabTime_Parent : Fld := ⟨16, 7⟩
def fFabTime_Dist : Fld := ⟨23, 4⟩
/-- FAB_TIME_ROOT: 10_fold_fabric, R313, Table 10-13. -/
def rFabTimeRoot : Nat := 0x800000 + 0x64
def fFabTimeRoot_RootFid : Fld := ⟨0, 10⟩
/-- FAB_GAP_JOBS: 10_fold_fabric, R313, Table 10-13. -/
def rFabGapJobs : Nat := 0x800000 + 0x68
def fFabGapJobs_Gap : Fld := ⟨0, 64⟩
/-- FAB_STOP_JOBS: 10_fold_fabric, R313, Table 10-13. -/
def rFabStopJobs : Nat := 0x800000 + 0x70
def fFabStopJobs_Stop : Fld := ⟨0, 64⟩
/-- FAB_TMO: 10_fold_fabric, R313, Table 10-13. -/
def rFabTmo : Nat := 0x800000 + 0x78
def fFabTmo_Grace : Fld := ⟨0, 10⟩
/-- FAB_BTMO_CNT: 10_fold_fabric, R313, Table 10-13. -/
def rFabBtmoCnt : Nat := 0x800000 + 0x7c
def fFabBtmoCnt_Cnt : Fld := ⟨0, 32⟩
/-- FAB_SLOT_FAULT: 10_fold_fabric, R313, Table 10-13. -/
def rFabSlotFault : Nat := 0x800000 + 0x80
def fFabSlotFault_Cnt : Fld := ⟨0, 16⟩
def fFabSlotFault_Idx : Fld := ⟨16, 15⟩
/-- FAB_DOWN: 10_fold_fabric, R313, Table 10-13. -/
def rFabDown : Nat := 0x800000 + 0x84
def fFabDown_Count : Fld := ⟨0, 8⟩
/-- FAB_LINK_CTRL: 10_fold_fabric, R313, Table 10-14. -/
def rFabLinkCtrl (i : Nat) : Nat := 0x801000 + 0x1000 * i + 0x40
def fFabLinkCtrl_En : Fld := ⟨0, 1⟩
def fFabLinkCtrl_Retrain : Fld := ⟨1, 1⟩
def fFabLinkCtrl_Retire : Fld := ⟨2, 1⟩
/-- FAB_LINK_STATE: 10_fold_fabric, R313, Table 10-14. -/
def rFabLinkState (i : Nat) : Nat := 0x801000 + 0x1000 * i + 0x44
def fFabLinkState_State : Fld := ⟨0, 3⟩
def fFabLinkState_Reason : Fld := ⟨4, 4⟩
def fFabLinkState_Gen : Fld := ⟨8, 4⟩
def fFabLinkState_Lanes : Fld := ⟨12, 2⟩
/-- FAB_LINK_PEER: 10_fold_fabric, R313, Table 10-14. -/
def rFabLinkPeer (i : Nat) : Nat := 0x801000 + 0x1000 * i + 0x48
def fFabLinkPeer_Fid : Fld := ⟨0, 10⟩
def fFabLinkPeer_Link : Fld := ⟨10, 7⟩
def fFabLinkPeer_Valid : Fld := ⟨17, 1⟩
/-- FAB_LINK_EXPECT: 10_fold_fabric, R313, Table 10-14. -/
def rFabLinkExpect (i : Nat) : Nat := 0x801000 + 0x1000 * i + 0x4c
def fFabLinkExpect_Fid : Fld := ⟨0, 10⟩
def fFabLinkExpect_Link : Fld := ⟨10, 7⟩
def fFabLinkExpect_En : Fld := ⟨17, 1⟩
/-- FAB_LINK_FLIGHT: 10_fold_fabric, R313, Table 10-14. -/
def rFabLinkFlight (i : Nat) : Nat := 0x801000 + 0x1000 * i + 0x50
def fFabLinkFlight_Flight : Fld := ⟨0, 12⟩
def fFabLinkFlight_Long : Fld := ⟨12, 1⟩
/-- FAB_LINK_FEC_CORR: 10_fold_fabric, R313, Table 10-14. -/
def rFabLinkFecCorr (i : Nat) : Nat := 0x801000 + 0x1000 * i + 0x54
def fFabLinkFecCorr_Corr : Fld := ⟨0, 32⟩
/-- FAB_LINK_FEC_UNCORR: 10_fold_fabric, R313, Table 10-14. -/
def rFabLinkFecUncorr (i : Nat) : Nat := 0x801000 + 0x1000 * i + 0x58
def fFabLinkFecUncorr_Uncorr : Fld := ⟨0, 32⟩
/-- FAB_LINK_CFG: 10_fold_fabric, R313, Table 10-14. -/
def rFabLinkCfg (i : Nat) : Nat := 0x801000 + 0x1000 * i + 0x5c
def fFabLinkCfg_UncorrMax : Fld := ⟨0, 8⟩
/-- FAB_LINK_BTMO: 10_fold_fabric, R313, Table 10-14. -/
def rFabLinkBtmo (i : Nat) : Nat := 0x801000 + 0x1000 * i + 0x60
def fFabLinkBtmo_Btmo : Fld := ⟨0, 32⟩
/-- FAB_LINK_BADWORD: 10_fold_fabric, R313, Table 10-14. -/
def rFabLinkBadword (i : Nat) : Nat := 0x801000 + 0x1000 * i + 0x64
def fFabLinkBadword_Bad : Fld := ⟨0, 32⟩
/-- SECT_PART_LAYOUT: 11_partitions_and_virtual_functions, R337, Table 11-5. -/
def rSectPartLayout : Nat := 0x101000 + 0x40
def fSectPartLayout_Sect : Fld := ⟨0, 18⟩
/-- SECT_PART_BUSY: 11_partitions_and_virtual_functions, R337, Table 11-6. -/
def rSectPartBusy : Nat := 0x101000 + 0x44
def fSectPartBusy_LayoutBusy : Fld := ⟨0, 1⟩
/-- SECT_VF_BIND: 11_partitions_and_virtual_functions, R337, Table 11-7. -/
def rSectVfBind (v : Nat) : Nat := 0x101080 + 4 * (v - 1)
def fSectVfBind_Part : Fld := ⟨0, 3⟩
def fSectVfBind_PrioMax : Fld := ⟨3, 3⟩
def fSectVfBind_Vec : Fld := ⟨6, 6⟩
/-- SECT_VF_EVENT: 11_partitions_and_virtual_functions, R337, Table 11-8. -/
def rSectVfEvent (v : Nat) : Nat := 0x101100 + 4 * (v - 1)
def fSectVfEvent_ResetBegin : Fld := ⟨0, 1⟩
def fSectVfEvent_ResetEnd : Fld := ⟨1, 1⟩
def fSectVfEvent_EnBegin : Fld := ⟨16, 1⟩
def fSectVfEvent_EnEnd : Fld := ⟨17, 1⟩
/-- SECT_IRQ_ROUTE0: 11_partitions_and_virtual_functions, R337, Table 11-9. -/
def rSectIrqRoute0 : Nat := 0x101000 + 0xe0
def fSectIrqRoute0_Route0 : Fld := ⟨0, 32⟩
/-- SECT_IRQ_ROUTE1: 11_partitions_and_virtual_functions, R337, Table 11-9. -/
def rSectIrqRoute1 : Nat := 0x101000 + 0xe4
def fSectIrqRoute1_Route4 : Fld := ⟨0, 32⟩
/-- SECT_IRQ_ROUTE2: 11_partitions_and_virtual_functions, R337, Table 11-9. -/
def rSectIrqRoute2 : Nat := 0x101000 + 0xe8
def fSectIrqRoute2_Route8 : Fld := ⟨0, 24⟩
/-- SECT_VF_FLR_DONE: 11_partitions_and_virtual_functions, R337, Table 11-9. -/
def rSectVfFlrDone : Nat := 0x101000 + 0xf0
def fSectVfFlrDone_Done : Fld := ⟨1, 24⟩
/-- SECT_PART_CTRL: 11_partitions_and_virtual_functions, R337, Table 11-10. -/
def rSectPartCtrl (k : Nat) : Nat := 0x101000 + 0x20000 * k + 0x200
def fSectPartCtrl_Reset : Fld := ⟨0, 1⟩
/-- SECT_PART_STATUS: 11_partitions_and_virtual_functions, R337, Table 11-10. -/
def rSectPartStatus (k : Nat) : Nat := 0x101000 + 0x20000 * k + 0x204
def fSectPartStatus_Exists : Fld := ⟨0, 1⟩
def fSectPartStatus_Quiet : Fld := ⟨1, 1⟩
def fSectPartStatus_InReset : Fld := ⟨2, 1⟩
def fSectPartStatus_Sectors : Fld := ⟨3, 3⟩
def fSectPartStatus_LastCause : Fld := ⟨8, 3⟩
def fSectPartStatus_Resets : Fld := ⟨16, 16⟩
/-- SECT_SLICE_CTRL: 11_partitions_and_virtual_functions, R337, Table 11-10. -/
def rSectSliceCtrl (k : Nat) : Nat := 0x101000 + 0x20000 * k + 0x20c
def fSectSliceCtrl_En : Fld := ⟨0, 1⟩
def fSectSliceCtrl_Last : Fld := ⟨4, 4⟩
def fSectSliceCtrl_Cur : Fld := ⟨8, 4⟩
/-- SECT_QOS_HOST: 11_partitions_and_virtual_functions, R337, Table 11-10. -/
def rSectQosHost (k : Nat) : Nat := 0x101000 + 0x20000 * k + 0x210
def fSectQosHost_Weight : Fld := ⟨0, 6⟩
def fSectQosHost_Bar4Rate : Fld := ⟨8, 8⟩
/-- SECT_QOS_OVER: 11_partitions_and_virtual_functions, R337, Table 11-10. -/
def rSectQosOver (k : Nat) : Nat := 0x101000 + 0x20000 * k + 0x214
def fSectQosOver_Over : Fld := ⟨0, 32⟩
/-- SECT_SLICE_ENT: 11_partitions_and_virtual_functions, R337, Table 11-10. -/
def rSectSliceEnt (k e : Nat) : Nat := 0x101000 + 0x20000 * k + 0x240 + 4 * e
def fSectSliceEnt_Ctxmask : Fld := ⟨0, 16⟩
def fSectSliceEnt_Len : Fld := ⟨16, 16⟩
/-- SECT_CTX_CFG: 11_partitions_and_virtual_functions, R337, Table 11-11. -/
def rSectCtxCfg (k c : Nat) : Nat := 0x101400 + 0x20000 * k + 0x10 * c
def fSectCtxCfg_En : Fld := ⟨0, 1⟩
def fSectCtxCfg_Func : Fld := ⟨1, 5⟩
def fSectCtxCfg_Vec : Fld := ⟨6, 6⟩
/-- SECT_CTX_ROOT: 11_partitions_and_virtual_functions, R337, Table 11-11. -/
def rSectCtxRoot (k c : Nat) : Nat := 0x101400 + 0x20000 * k + 0x10 * c + 0x8
def fSectCtxRoot_Root : Fld := ⟨12, 36⟩
/-- RAS_STATUS: 12_faults_and_recovery, R364, Table 12-9. -/
def rRasStatus : Nat := 0xE00000 + 0x40
def fRasStatus_Recovering : Fld := ⟨0, 6⟩
def fRasStatus_Replay : Fld := ⟨8, 6⟩
def fRasStatus_SelftestDone : Fld := ⟨16, 1⟩
/-- RAS_SELFTEST: 12_faults_and_recovery, R364, Table 12-9. -/
def rRasSelftest : Nat := 0xE00000 + 0x44
def fRasSelftest_Failed : Fld := ⟨0, 16⟩
def fRasSelftest_Tested : Fld := ⟨16, 16⟩
/-- RAS_REPLAY: 12_faults_and_recovery, R364, Table 12-9. -/
def rRasReplay : Nat := 0xE00000 + 0x48
def fRasReplay_Tmo : Fld := ⟨0, 10⟩
def fRasReplay_En : Fld := ⟨10, 1⟩
/-- RAS_DMA_HALT: 12_faults_and_recovery, R364, Table 12-9. -/
def rRasDmaHalt : Nat := 0xE00000 + 0x4c
def fRasDmaHalt_Halt : Fld := ⟨0, 24⟩
/-- RAS_UNIT_SEL: 12_faults_and_recovery, R364, Table 12-9. -/
def rRasUnitSel : Nat := 0xE00000 + 0x50
def fRasUnitSel_Kind : Fld := ⟨0, 4⟩
def fRasUnitSel_Index : Fld := ⟨4, 9⟩
/-- RAS_UNIT_STATE: 12_faults_and_recovery, R364, Table 12-9. -/
def rRasUnitState : Nat := 0xE00000 + 0x54
def fRasUnitState_State : Fld := ⟨0, 2⟩
def fRasUnitState_Reason : Fld := ⟨2, 4⟩
def fRasUnitState_Persisted : Fld := ⟨6, 1⟩
/-- RAS_UNIT_CMD: 12_faults_and_recovery, R364, Table 12-9. -/
def rRasUnitCmd : Nat := 0xE00000 + 0x58
def fRasUnitCmd_Return : Fld := ⟨0, 1⟩
/-- RAS_RETIRE: 12_faults_and_recovery, R364, Table 12-9. -/
def rRasRetire : Nat := 0xE00000 + 0x5c
def fRasRetire_Used : Fld := ⟨0, 10⟩
def fRasRetire_Free : Fld := ⟨16, 10⟩
/-- RAS_INJECT: 12_faults_and_recovery, R364, Table 12-9. -/
def rRasInject : Nat := 0xE00000 + 0x60
def fRasInject_Granule : Fld := ⟨6, 34⟩
def fRasInject_Mode : Fld := ⟨40, 2⟩
/-- RAS_SRAM_CE: 12_faults_and_recovery, R364, Table 12-9. -/
def rRasSramCe (k : Nat) : Nat := 0xE00000 + 0x80 + 8 * k
def fRasSramCe_Ce : Fld := ⟨0, 32⟩
/-- RAS_SRAM_UE: 12_faults_and_recovery, R364, Table 12-9. -/
def rRasSramUe (k : Nat) : Nat := 0xE00000 + 0x84 + 8 * k
def fRasSramUe_Ue : Fld := ⟨0, 32⟩
/-- RAS_RECOV_TRIG: 12_faults_and_recovery, R364, Table 12-10. -/
def rRasRecovTrig (p : Nat) : Nat := 0xE00100 + 0x10 * p
def fRasRecovTrig_Trigger : Fld := ⟨0, 3⟩
def fRasRecovTrig_Suspects : Fld := ⟨3, 5⟩
def fRasRecovTrig_Replayed : Fld := ⟨8, 4⟩
def fRasRecovTrig_Culprit : Fld := ⟨12, 1⟩
def fRasRecovTrig_CulpritCtx : Fld := ⟨13, 4⟩
def fRasRecovTrig_EngineOos : Fld := ⟨17, 1⟩
/-- RAS_RECOV_TIME: 12_faults_and_recovery, R364, Table 12-10. -/
def rRasRecovTime (p : Nat) : Nat := 0xE00100 + 0x10 * p + 0x4
def fRasRecovTime_Time : Fld := ⟨0, 32⟩
/-- RAS_RECOV_MAX: 12_faults_and_recovery, R364, Table 12-10. -/
def rRasRecovMax (p : Nat) : Nat := 0xE00100 + 0x10 * p + 0x8
def fRasRecovMax_Max : Fld := ⟨0, 32⟩
/-- RAS_SUSP_SEL: 12_faults_and_recovery, R364, Table 12-11. -/
def rRasSuspSel : Nat := 0xE00000 + 0x180
def fRasSuspSel_Part : Fld := ⟨0, 3⟩
def fRasSuspSel_Index : Fld := ⟨3, 5⟩
/-- RAS_SUSP_DATA: 12_faults_and_recovery, R364, Table 12-11. -/
def rRasSuspData : Nat := 0xE00000 + 0x184
def fRasSuspData_Ctx : Fld := ⟨0, 4⟩
def fRasSuspData_Queue : Fld := ⟨4, 7⟩
def fRasSuspData_Serving : Fld := ⟨11, 1⟩
def fRasSuspData_Outcome : Fld := ⟨12, 2⟩
def fRasSuspData_Status : Fld := ⟨16, 8⟩
def fRasSuspData_Opcode : Fld := ⟨24, 8⟩
/-- RAS_SUSP_SEQ: 12_faults_and_recovery, R364, Table 12-11. -/
def rRasSuspSeq : Nat := 0xE00000 + 0x188
def fRasSuspSeq_Seq : Fld := ⟨0, 32⟩
/-- RAS_SUSP_ENG: 12_faults_and_recovery, R364, Table 12-11. -/
def rRasSuspEng : Nat := 0xE00000 + 0x18c
def fRasSuspEng_Kind : Fld := ⟨0, 4⟩
def fRasSuspEng_Index : Fld := ⟨4, 9⟩
/-- CS_ERR_TOTAL: 12_faults_and_recovery, R365, Table 12-12. -/
def rCsErrTotal (n : Nat) : Nat := 0x401000 + 0x10000 * n + 0x40
def fCsErrTotal_Ce : Fld := ⟨0, 16⟩
def fCsErrTotal_Ue : Fld := ⟨16, 16⟩
/-- CS_ERR_OVF: 12_faults_and_recovery, R365, Table 12-12. -/
def rCsErrOvf (n : Nat) : Nat := 0x401000 + 0x10000 * n + 0x44
def fCsErrOvf_Ovf : Fld := ⟨0, 32⟩
/-- CS_ERR_CTRL: 12_faults_and_recovery, R365, Table 12-12. -/
def rCsErrCtrl (n : Nat) : Nat := 0x401000 + 0x10000 * n + 0x48
def fCsErrCtrl_Thresh : Fld := ⟨0, 8⟩
/-- CS_IF_RETRY: 12_faults_and_recovery, R365, Table 12-12. -/
def rCsIfRetry (n : Nat) : Nat := 0x401000 + 0x10000 * n + 0x4c
def fCsIfRetry_Retry : Fld := ⟨0, 16⟩
def fCsIfRetry_Fail : Fld := ⟨16, 16⟩
/-- CS_SCRUB_CTRL: 12_faults_and_recovery, R365, Table 12-12. -/
def rCsScrubCtrl (n : Nat) : Nat := 0x401000 + 0x10000 * n + 0x50
def fCsScrubCtrl_En : Fld := ⟨0, 1⟩
def fCsScrubCtrl_Idle : Fld := ⟨4, 8⟩
def fCsScrubCtrl_MaxLap : Fld := ⟨16, 16⟩
/-- CS_SCRUB_LAP: 12_faults_and_recovery, R365, Table 12-12. -/
def rCsScrubLap (n : Nat) : Nat := 0x401000 + 0x10000 * n + 0x54
def fCsScrubLap_Lap : Fld := ⟨0, 32⟩
/-- CS_SCRUB_LAPS: 12_faults_and_recovery, R365, Table 12-12. -/
def rCsScrubLaps (n : Nat) : Nat := 0x401000 + 0x10000 * n + 0x58
def fCsScrubLaps_Laps : Fld := ⟨0, 32⟩
/-- CS_SCRUB_FIX: 12_faults_and_recovery, R365, Table 12-12. -/
def rCsScrubFix (n : Nat) : Nat := 0x401000 + 0x10000 * n + 0x5c
def fCsScrubFix_Corrected : Fld := ⟨0, 16⟩
def fCsScrubFix_Poisoned : Fld := ⟨16, 16⟩
/-- CS_RETIRE_STATE: 12_faults_and_recovery, R365, Table 12-12. -/
def rCsRetireState (n : Nat) : Nat := 0x401000 + 0x10000 * n + 0x60
def fCsRetireState_Regions : Fld := ⟨0, 9⟩
def fCsRetireState_Stack : Fld := ⟨9, 1⟩
/-- CS_RETIRE_BANK: 12_faults_and_recovery, R365, Table 12-12. -/
def rCsRetireBank (n p : Nat) : Nat := 0x401000 + 0x10000 * n + 0x80 + 8 * p
def fCsRetireBank_Banks : Fld := ⟨0, 48⟩
/-- CS_ERR_LOG_A: 12_faults_and_recovery, R365, Table 12-13. -/
def rCsErrLogA (n i : Nat) : Nat := 0x401200 + 0x10000 * n + 0x10 * i
def fCsErrLogA_Valid : Fld := ⟨0, 1⟩
def fCsErrLogA_Kind : Fld := ⟨1, 2⟩
def fCsErrLogA_Pc : Fld := ⟨3, 5⟩
def fCsErrLogA_Bank : Fld := ⟨8, 6⟩
def fCsErrLogA_Row : Fld := ⟨14, 16⟩
/-- CS_ERR_LOG_B: 12_faults_and_recovery, R365, Table 12-13. -/
def rCsErrLogB (n i : Nat) : Nat := 0x401200 + 0x10000 * n + 0x10 * i + 0x4
def fCsErrLogB_Gran : Fld := ⟨0, 4⟩
def fCsErrLogB_Symbols : Fld := ⟨4, 4⟩
def fCsErrLogB_Source : Fld := ⟨8, 3⟩
def fCsErrLogB_Count : Fld := ⟨16, 16⟩
/-- CS_ERR_LOG_TIME: 12_faults_and_recovery, R365, Table 12-13. -/
def rCsErrLogTime (n i : Nat) : Nat := 0x401200 + 0x10000 * n + 0x10 * i + 0x8
def fCsErrLogTime_Time : Fld := ⟨0, 64⟩
/-- PWR_STATE: 13_power_clocks_thermal, R395, Table 13-10. -/
def rPwrState : Nat := 0xD00000 + 0x40
def fPwrState_State : Fld := ⟨0, 4⟩
def fPwrState_PadHeld : Fld := ⟨4, 1⟩
def fPwrState_WakeSrc : Fld := ⟨8, 4⟩
/-- PWR_CTRL: 13_power_clocks_thermal, R395, Table 13-10. -/
def rPwrCtrl : Nat := 0xD00000 + 0x44
def fPwrCtrl_Wake : Fld := ⟨0, 1⟩
def fPwrCtrl_PadRelease : Fld := ⟨1, 1⟩
def fPwrCtrl_Shutdown : Fld := ⟨2, 1⟩
def fPwrCtrl_Key : Fld := ⟨24, 8⟩
/-- PWR_WAKE_EN: 13_power_clocks_thermal, R395, Table 13-10. -/
def rPwrWakeEn : Nat := 0xD00000 + 0x48
def fPwrWakeEn_Queue : Fld := ⟨0, 1⟩
def fPwrWakeEn_Sub : Fld := ⟨1, 1⟩
def fPwrWakeEn_Mgmt : Fld := ⟨2, 1⟩
def fPwrWakeEn_Fabric : Fld := ⟨3, 1⟩
/-- PWR_REFUSE: 13_power_clocks_thermal, R395, Table 13-10. -/
def rPwrRefuse : Nat := 0xD00000 + 0x4c
def fPwrRefuse_Cnt : Fld := ⟨0, 32⟩
/-- PWR_REFUSE_LAST: 13_power_clocks_thermal, R395, Table 13-10. -/
def rPwrRefuseLast : Nat := 0xD00000 + 0x50
def fPwrRefuseLast_Refuser : Fld := ⟨0, 4⟩
def fPwrRefuseLast_Mask : Fld := ⟨4, 6⟩
def fPwrRefuseLast_Target : Fld := ⟨10, 2⟩
/-- PWR_REFUSE_SEQ: 13_power_clocks_thermal, R395, Table 13-10. -/
def rPwrRefuseSeq : Nat := 0xD00000 + 0x54
def fPwrRefuseSeq_Seq : Fld := ⟨0, 32⟩
/-- PWR_LOW_CNT: 13_power_clocks_thermal, R395, Table 13-10. -/
def rPwrLowCnt : Nat := 0xD00000 + 0x58
def fPwrLowCnt_Lull : Fld := ⟨0, 16⟩
def fPwrLowCnt_Fallow : Fld := ⟨16, 16⟩
/-- PWR_RELEASE_CNT: 13_power_clocks_thermal, R395, Table 13-10. -/
def rPwrReleaseCnt : Nat := 0xD00000 + 0x5c
def fPwrReleaseCnt_Release : Fld := ⟨0, 16⟩
/-- PWR_CLK: 13_power_clocks_thermal, R395, Table 13-10. -/
def rPwrClk : Nat := 0xD00000 + 0x60
def fPwrClk_Target : Fld := ⟨0, 7⟩
def fPwrClk_Cur : Fld := ⟨8, 7⟩
def fPwrClk_Fallback : Fld := ⟨15, 1⟩
/-- PWR_CAP: 13_power_clocks_thermal, R395, Table 13-10. -/
def rPwrCap : Nat := 0xD00000 + 0x64
def fPwrCap_Cap : Fld := ⟨0, 11⟩
def fPwrCap_Margin : Fld := ⟨12, 6⟩
/-- PWR_POWER: 13_power_clocks_thermal, R395, Table 13-10. -/
def rPwrPower : Nat := 0xD00000 + 0x68
def fPwrPower_Avg : Fld := ⟨0, 11⟩
def fPwrPower_Peak : Fld := ⟨16, 11⟩
def fPwrPower_Clr : Fld := ⟨31, 1⟩
/-- PWR_CAP_OVER: 13_power_clocks_thermal, R395, Table 13-10. -/
def rPwrCapOver : Nat := 0xD00000 + 0x6c
def fPwrCapOver_Cnt : Fld := ⟨0, 32⟩
/-- PWR_GATE: 13_power_clocks_thermal, R395, Table 13-10. -/
def rPwrGate : Nat := 0xD00000 + 0x70
def fPwrGate_IdleUs : Fld := ⟨0, 8⟩
/-- PWR_DROOP: 13_power_clocks_thermal, R395, Table 13-10. -/
def rPwrDroop : Nat := 0xD00000 + 0x74
def fPwrDroop_Thresh : Fld := ⟨0, 8⟩
def fPwrDroop_Hold : Fld := ⟨8, 8⟩
def fPwrDroop_Budget : Fld := ⟨16, 12⟩
/-- PWR_DROOP_CNT: 13_power_clocks_thermal, R395, Table 13-10. -/
def rPwrDroopCnt : Nat := 0xD00000 + 0x78
def fPwrDroopCnt_Events : Fld := ⟨0, 16⟩
def fPwrDroopCnt_Over : Fld := ⟨16, 16⟩
/-- PWR_FOLD: 13_power_clocks_thermal, R395, Table 13-10. -/
def rPwrFold : Nat := 0xD00000 + 0x7c
def fPwrFold_Balance : Fld := ⟨0, 1⟩
/-- PWR_PHASE_SEL: 13_power_clocks_thermal, R395, Table 13-10. -/
def rPwrPhaseSel : Nat := 0xD00000 + 0x80
def fPwrPhaseSel_Index : Fld := ⟨0, 8⟩
def fPwrPhaseSel_Clear : Fld := ⟨31, 1⟩
/-- PWR_PHASE_DATA: 13_power_clocks_thermal, R395, Table 13-10. -/
def rPwrPhaseData : Nat := 0xD00000 + 0x84
def fPwrPhaseData_Key : Fld := ⟨0, 16⟩
def fPwrPhaseData_P : Fld := ⟨16, 16⟩
/-- PWR_PHASE_DEF: 13_power_clocks_thermal, R395, Table 13-10. -/
def rPwrPhaseDef : Nat := 0xD00000 + 0x88
def fPwrPhaseDef_Default : Fld := ⟨0, 16⟩
/-- PWR_SECT_MAX: 13_power_clocks_thermal, R395, Table 13-11. -/
def rPwrSectMax (k : Nat) : Nat := 0xD00100 + 8 * k
def fPwrSectMax_R : Fld := ⟨0, 7⟩
def fPwrSectMax_Max : Fld := ⟨8, 7⟩
def fPwrSectMax_Hold : Fld := ⟨16, 7⟩
def fPwrSectMax_Reason : Fld := ⟨24, 4⟩
def fPwrSectMax_Gated : Fld := ⟨28, 1⟩
/-- PWR_SECT_POWER: 13_power_clocks_thermal, R395, Table 13-11. -/
def rPwrSectPower (k : Nat) : Nat := 0xD00100 + 8 * k + 0x4
def fPwrSectPower_Power : Fld := ⟨0, 10⟩
/-- THM_DIODE: 13_power_clocks_thermal, R396, Table 13-12. -/
def rThmDiode : Nat := 0xD80000 + 0x40
def fThmDiode_Temp : Fld := ⟨0, 12⟩
def fThmDiode_Fail : Fld := ⟨12, 1⟩
/-- THM_HOT: 13_power_clocks_thermal, R396, Table 13-12. -/
def rThmHot : Nat := 0xD80000 + 0x44
def fThmHot_Temp : Fld := ⟨0, 12⟩
def fThmHot_Sect : Fld := ⟨12, 3⟩
def fThmHot_Mon : Fld := ⟨15, 4⟩
def fThmHot_Diode : Fld := ⟨19, 1⟩
/-- THM_LIMIT: 13_power_clocks_thermal, R396, Table 13-12. -/
def rThmLimit : Nat := 0xD80000 + 0x48
def fThmLimit_TThrottle : Fld := ⟨0, 8⟩
def fThmLimit_FailRate : Fld := ⟨8, 7⟩
/-- THM_RISE: 13_power_clocks_thermal, R396, Table 13-12. -/
def rThmRise : Nat := 0xD80000 + 0x4c
def fThmRise_Warn : Fld := ⟨0, 8⟩
def fThmRise_Act : Fld := ⟨8, 8⟩
/-- THM_STATUS: 13_power_clocks_thermal, R396, Table 13-12. -/
def rThmStatus : Nat := 0xD80000 + 0x50
def fThmStatus_Throttle : Fld := ⟨0, 6⟩
def fThmStatus_Rise : Fld := ⟨8, 6⟩
def fThmStatus_Freeze : Fld := ⟨16, 6⟩
/-- THM_MON_SEL: 13_power_clocks_thermal, R396, Table 13-12. -/
def rThmMonSel : Nat := 0xD80000 + 0x54
def fThmMonSel_Sect : Fld := ⟨0, 3⟩
def fThmMonSel_Mon : Fld := ⟨3, 4⟩
/-- THM_MON_DATA: 13_power_clocks_thermal, R396, Table 13-12. -/
def rThmMonData : Nat := 0xD80000 + 0x58
def fThmMonData_Temp : Fld := ⟨0, 12⟩
def fThmMonData_Fail : Fld := ⟨12, 1⟩
def fThmMonData_Rate : Fld := ⟨16, 8⟩
/-- THM_FAIL_LO: 13_power_clocks_thermal, R396, Table 13-12. -/
def rThmFailLo : Nat := 0xD80000 + 0x60
def fThmFailLo_Fail : Fld := ⟨0, 32⟩
/-- THM_FAIL_MID: 13_power_clocks_thermal, R396, Table 13-12. -/
def rThmFailMid : Nat := 0xD80000 + 0x64
def fThmFailMid_Fail : Fld := ⟨0, 32⟩
/-- THM_FAIL_HI: 13_power_clocks_thermal, R396, Table 13-12. -/
def rThmFailHi : Nat := 0xD80000 + 0x68
def fThmFailHi_Fail : Fld := ⟨0, 8⟩
/-- THM_TRIP_LAST: 13_power_clocks_thermal, R396, Table 13-12. -/
def rThmTripLast : Nat := 0xD80000 + 0x6c
def fThmTripLast_Cause : Fld := ⟨0, 3⟩
/-- THM_MAX: 13_power_clocks_thermal, R396, Table 13-12. -/
def rThmMax : Nat := 0xD80000 + 0x70
def fThmMax_Max : Fld := ⟨0, 12⟩
def fThmMax_Clr : Fld := ⟨31, 1⟩
/-- MGMT_STATUS: 14_gander_security_update, R419, Table 14-14. -/
def rMgmtStatus : Nat := 0xF00000 + 0x40
def fMgmtStatus_FwReady : Fld := ⟨0, 1⟩
def fMgmtStatus_BootMode : Fld := ⟨1, 1⟩
def fMgmtStatus_CfgSrc : Fld := ⟨2, 2⟩
def fMgmtStatus_ActPending : Fld := ⟨4, 1⟩
/-- MGMT_FW_VER: 14_gander_security_update, R419, Table 14-14. -/
def rMgmtFwVer : Nat := 0xF00000 + 0x44
def fMgmtFwVer_FwVer : Fld := ⟨0, 32⟩
/-- MGMT_SVN: 14_gander_security_update, R419, Table 14-14. -/
def rMgmtSvn : Nat := 0xF00000 + 0x48
def fMgmtSvn_Image : Fld := ⟨0, 7⟩
def fMgmtSvn_Fused : Fld := ⟨8, 7⟩
def fMgmtSvn_Revoked : Fld := ⟨16, 4⟩
/-- MGMT_SEC_STATE: 14_gander_security_update, R419, Table 14-14. -/
def rMgmtSecState : Nat := 0xF00000 + 0x4c
def fMgmtSecState_DebugOpened : Fld := ⟨0, 1⟩
def fMgmtSecState_IdentityValid : Fld := ⟨1, 1⟩
def fMgmtSecState_LmsExhausted : Fld := ⟨2, 1⟩
def fMgmtSecState_AttestReady : Fld := ⟨3, 1⟩
/-- MGMT_LMS: 14_gander_security_update, R419, Table 14-14. -/
def rMgmtLms : Nat := 0xF00000 + 0x50
def fMgmtLms_Used : Fld := ⟨0, 16⟩
/-- MGMT_STAGE: 14_gander_security_update, R419, Table 14-14. -/
def rMgmtStage : Nat := 0xF00000 + 0x58
def fMgmtStage_En : Fld := ⟨0, 1⟩
def fMgmtStage_Base : Fld := ⟨26, 14⟩
/-- MGMT_MCTP: 14_gander_security_update, R419, Table 14-14. -/
def rMgmtMctp : Nat := 0xF00000 + 0x60
def fMgmtMctp_EidPcie : Fld := ⟨0, 8⟩
def fMgmtMctp_EidI3c : Fld := ⟨8, 8⟩
def fMgmtMctp_I3cDyn : Fld := ⟨16, 7⟩
/-- MGMT_LOG: 14_gander_security_update, R419, Table 14-14. -/
def rMgmtLog : Nat := 0xF00000 + 0x64
def fMgmtLog_Newest : Fld := ⟨0, 32⟩
/-- MGMT_LOG_LOST: 14_gander_security_update, R419, Table 14-14. -/
def rMgmtLogLost : Nat := 0xF00000 + 0x68
def fMgmtLogLost_Lost : Fld := ⟨0, 32⟩
/-- MGMT_UPD_STATUS: 14_gander_security_update, R419, Table 14-14. -/
def rMgmtUpdStatus : Nat := 0xF00000 + 0x6c
def fMgmtUpdStatus_State : Fld := ⟨0, 3⟩
def fMgmtUpdStatus_Progress : Fld := ⟨8, 7⟩
def fMgmtUpdStatus_Result : Fld := ⟨16, 4⟩
/-- MGMT_RCV_CTRL: 14_gander_security_update, R419, Table 14-14. -/
def rMgmtRcvCtrl : Nat := 0xF00000 + 0x70
def fMgmtRcvCtrl_Go : Fld := ⟨0, 1⟩
def fMgmtRcvCtrl_Reboot : Fld := ⟨1, 1⟩
def fMgmtRcvCtrl_Result : Fld := ⟨4, 4⟩
/-- MGMT_MBX_CTRL: 14_gander_security_update, R419, Table 14-14. -/
def rMgmtMbxCtrl : Nat := 0xF00000 + 0x80
def fMgmtMbxCtrl_Go : Fld := ⟨0, 1⟩
def fMgmtMbxCtrl_Busy : Fld := ⟨1, 1⟩
/-- MGMT_MBX_CMD: 14_gander_security_update, R419, Table 14-14. -/
def rMgmtMbxCmd : Nat := 0xF00000 + 0x84
def fMgmtMbxCmd_Cmd : Fld := ⟨0, 8⟩
def fMgmtMbxCmd_Len : Fld := ⟨16, 12⟩
/-- MGMT_MBX_STATUS: 14_gander_security_update, R419, Table 14-14. -/
def rMgmtMbxStatus : Nat := 0xF00000 + 0x88
def fMgmtMbxStatus_Status : Fld := ⟨0, 8⟩
def fMgmtMbxStatus_Rlen : Fld := ⟨16, 11⟩
/-- HIF_LINK: 15_host_link_and_package, R441, Table 15-12. -/
def rHifLink : Nat := 0x1000 + 0x40
def fHifLink_Rate : Fld := ⟨0, 4⟩
def fHifLink_Width : Fld := ⟨4, 4⟩
def fHifLink_Flit : Fld := ⟨8, 1⟩
def fHifLink_State : Fld := ⟨9, 3⟩
def fHifLink_Reversed : Fld := ⟨12, 1⟩
/-- HIF_RESET: 15_host_link_and_package, R441, Table 15-12. -/
def rHifReset : Nat := 0x1000 + 0x44
def fHifReset_Last : Fld := ⟨0, 3⟩
def fHifReset_Ready : Fld := ⟨3, 1⟩
def fHifReset_Warm : Fld := ⟨16, 16⟩
/-- HIF_BAR4_WIN: 15_host_link_and_package, R441, Table 15-12. -/
def rHifBar4Win : Nat := 0x1000 + 0x48
def fHifBar4Win_Base : Fld := ⟨36, 4⟩
/-- HIF_ABORT_CNT: 15_host_link_and_package, R441, Table 15-12. -/
def rHifAbortCnt : Nat := 0x1000 + 0x50
def fHifAbortCnt_Cnt : Fld := ⟨0, 32⟩
/-- HIF_ABORT_LAST: 15_host_link_and_package, R441, Table 15-12. -/
def rHifAbortLast : Nat := 0x1000 + 0x58
def fHifAbortLast_Addr : Fld := ⟨0, 64⟩
/-- HIF_TX_DROP: 15_host_link_and_package, R441, Table 15-12. -/
def rHifTxDrop : Nat := 0x1000 + 0x60
def fHifTxDrop_Cnt : Fld := ⟨0, 32⟩
/-- HIF_POISON_TX: 15_host_link_and_package, R441, Table 15-12. -/
def rHifPoisonTx : Nat := 0x1000 + 0x64
def fHifPoisonTx_Cnt : Fld := ⟨0, 32⟩
/-- HIF_UR_CNT: 15_host_link_and_package, R441, Table 15-12. -/
def rHifUrCnt : Nat := 0x1000 + 0x68
def fHifUrCnt_Cnt : Fld := ⟨0, 32⟩
/-- HIF_IDE: 15_host_link_and_package, R441, Table 15-12. -/
def rHifIde : Nat := 0x1000 + 0x6c
def fHifIde_State : Fld := ⟨0, 2⟩
def fHifIde_Keyset : Fld := ⟨2, 1⟩
/-- BLK_ID: 16_register_pages, R444, Table 16-2. -/
def rBlkId (pg : Nat) : Nat := pg
def fBlkId_Type : Fld := ⟨0, 8⟩
def fBlkId_Instance : Fld := ⟨8, 8⟩
def fBlkId_Page : Fld := ⟨16, 8⟩
def fBlkId_Layout : Fld := ⟨24, 4⟩
/-- BLK_CTRL: 16_register_pages, R444, Table 16-3. -/
def rBlkCtrl (pg : Nat) : Nat := pg + 0x8
def fBlkCtrl_ErrClr : Fld := ⟨0, 1⟩
/-- BLK_STATUS: 16_register_pages, R444, Table 16-4. -/
def rBlkStatus (pg : Nat) : Nat := pg + 0xc
def fBlkStatus_Live : Fld := ⟨0, 1⟩
def fBlkStatus_Oos : Fld := ⟨1, 1⟩
def fBlkStatus_InReset : Fld := ⟨2, 1⟩
def fBlkStatus_Part : Fld := ⟨8, 3⟩
/-- BLK_INT_STAT: 16_register_pages, R444, Table 16-5. -/
def rBlkIntStat (pg : Nat) : Nat := pg + 0x10
def fBlkIntStat_Stat : Fld := ⟨0, 32⟩
/-- BLK_INT_EN: 16_register_pages, R444, Table 16-5. -/
def rBlkIntEn (pg : Nat) : Nat := pg + 0x14
def fBlkIntEn_En : Fld := ⟨0, 32⟩
/-- BLK_INT_FORCE: 16_register_pages, R444, Table 16-5. -/
def rBlkIntForce (pg : Nat) : Nat := pg + 0x18
def fBlkIntForce_Force : Fld := ⟨0, 32⟩
/-- BLK_ERR_CNT: 16_register_pages, R444, Table 16-5. -/
def rBlkErrCnt (pg : Nat) : Nat := pg + 0x1c
def fBlkErrCnt_Cnt : Fld := ⟨0, 32⟩
/-- DEV_ID: 16_register_pages, R453, Table 16-6. -/
def rDevId : Nat := 0x0 + 0x40
def fDevId_Id : Fld := ⟨0, 16⟩
/-- DEV_REV: 16_register_pages, R453, Table 16-6. -/
def rDevRev : Nat := 0x0 + 0x44
def fDevRev_Minor : Fld := ⟨0, 8⟩
def fDevRev_Major : Fld := ⟨8, 8⟩
/-- DEV_STATUS: 16_register_pages, R453, Table 16-6. -/
def rDevStatus : Nat := 0x0 + 0x48
def fDevStatus_CfgDefault : Fld := ⟨0, 1⟩
def fDevStatus_Recovery : Fld := ⟨1, 1⟩
def fDevStatus_DebugOpened : Fld := ⟨2, 1⟩
def fDevStatus_Ready : Fld := ⟨3, 1⟩
/-- DEV_TIME: 16_register_pages, R453, Table 16-6. -/
def rDevTime : Nat := 0x0 + 0x50
def fDevTime_Time : Fld := ⟨0, 64⟩
/-- DEV_UID: 16_register_pages, R453, Table 16-6. -/
def rDevUid : Nat := 0x0 + 0x58
def fDevUid_Uid : Fld := ⟨0, 64⟩

/-- The rows of a page of kind `sectThk`, without the common header. -/
def rows_sectThk : List RegRow := [
  ⟨0x40, 0x0, 1, 4, 0x0, 0x0, 0x0, 0x0, 0x0⟩,
  ⟨0x44, 0x0, 1, 4, 0x0, 0x0, 0x0, 0x0, 0x0⟩,
  ⟨0x100, 0x40, 16, 8, 0xffffffff0000, 0x0, 0x0, 0x0, 0x0⟩,
  ⟨0x108, 0x40, 16, 8, 0xfffffffff000, 0x0, 0x0, 0x0, 0x0⟩,
  ⟨0x110, 0x40, 16, 4, 0xf1, 0x0, 0x0, 0x0, 0x0⟩,
  ⟨0x114, 0x40, 16, 4, 0x0, 0x0, 0x0, 0x0, 0x0⟩,
  ⟨0x118, 0x40, 16, 4, 0xffffffff, 0x0, 0x0, 0x0, 0x0⟩,
  ⟨0x11c, 0x40, 16, 4, 0x0, 0x0, 0x0, 0x0, 0x0⟩,
  ⟨0x120, 0x40, 16, 4, 0x0, 0x0, 0x0, 0x0, 0x0⟩,
  ⟨0x124, 0x40, 16, 4, 0x0, 0x1, 0x0, 0x0, 0x0⟩
]

/-- The rows of a page of kind `cq`, without the common header. -/
def rows_cq : List RegRow := [
  ⟨0x40, 0x0, 1, 4, 0x0, 0x0, 0x0, 0x0, 0x100⟩
]

/-- The rows of a page of kind `cqQ`, without the common header. -/
def rows_cqQ : List RegRow := [
  ⟨0x200, 0x40, 32, 4, 0xfffff, 0x0, 0x0, 0x0, 0xa0000⟩,
  ⟨0x204, 0x40, 32, 4, 0xffffff, 0x0, 0x0, 0x0, 0xf4240⟩,
  ⟨0x208, 0x40, 32, 4, 0x0, 0x0, 0x0, 0x0, 0x400⟩,
  ⟨0x20c, 0x40, 32, 4, 0x0, 0x0, 0x0, 0x0, 0x0⟩,
  ⟨0x210, 0x40, 32, 4, 0x0, 0x0, 0x0, 0x0, 0x0⟩,
  ⟨0x214, 0x40, 32, 4, 0x0, 0x0, 0x0, 0x0, 0x0⟩,
  ⟨0x218, 0x40, 32, 4, 0x0, 0x0, 0x0, 0x0, 0x0⟩,
  ⟨0x21c, 0x40, 32, 4, 0x0, 0x0, 0x0, 0x0, 0x0⟩,
  ⟨0x220, 0x40, 32, 4, 0x0, 0x0, 0x0, 0x0, 0x0⟩,
  ⟨0x224, 0x40, 32, 4, 0x0, 0x0, 0x0, 0x0, 0x0⟩,
  ⟨0x228, 0x40, 32, 4, 0x0, 0x0, 0x0, 0x0, 0x0⟩
]

/-- The rows of a page of kind `cqR`, without the common header. -/
def rows_cqR : List RegRow := [
  ⟨0x200, 0x40, 32, 8, 0xfffffffffffff000, 0x0, 0x0, 0x0, 0x0⟩,
  ⟨0x208, 0x40, 32, 4, 0x7ff3f, 0x0, 0x0, 0x0, 0x40600⟩,
  ⟨0x20c, 0x40, 32, 4, 0xffffff, 0x0, 0x0, 0x0, 0x1⟩,
  ⟨0x210, 0x40, 32, 4, 0x0, 0x0, 0x0, 0x0, 0x0⟩,
  ⟨0x214, 0x40, 32, 4, 0xffffffff, 0x0, 0x0, 0x0, 0x0⟩,
  ⟨0x218, 0x40, 32, 4, 0x0, 0x0, 0x0, 0x0, 0x0⟩,
  ⟨0x21c, 0x40, 32, 4, 0x0, 0x0, 0x0, 0x0, 0x0⟩
]

/-- The rows of a page of kind `srv0`, without the common header. -/
def rows_srv0 : List RegRow := [
  ⟨0xe00, 0x4, 6, 4, 0x3f, 0x0, 0x0, 0x0, 0x18⟩,
  ⟨0x40, 0x0, 1, 4, 0x0, 0x0, 0x0, 0x0, 0x4000⟩,
  ⟨0x44, 0x0, 1, 4, 0x0, 0x0, 0x0, 0x0, 0x0⟩,
  ⟨0x48, 0x0, 1, 4, 0x3fff, 0x0, 0x0, 0x0, 0x0⟩,
  ⟨0x80, 0x4, 16, 4, 0x0, 0x0, 0x0, 0x0, 0x0⟩,
  ⟨0x100, 0x80, 6, 4, 0x1fffd, 0x0, 0x0, 0x0, 0x0⟩,
  ⟨0x104, 0x80, 6, 4, 0xffffffff, 0x0, 0x0, 0x0, 0x0⟩,
  ⟨0x108, 0x80, 6, 4, 0xffffffff, 0x0, 0x0, 0x0, 0x0⟩,
  ⟨0x10c, 0x80, 6, 4, 0xffffffff, 0x0, 0x0, 0x0, 0x0⟩,
  ⟨0x110, 0x80, 6, 4, 0xffff, 0x0, 0x0, 0x0, 0x0⟩,
  ⟨0x114, 0x80, 6, 4, 0xffffffff, 0x0, 0x0, 0x0, 0x40404040⟩,
  ⟨0x118, 0x80, 6, 4, 0xffffffff, 0x0, 0x0, 0x0, 0x40404040⟩,
  ⟨0x11c, 0x80, 6, 4, 0x3fff, 0x0, 0x0, 0x0, 0x2040⟩,
  ⟨0x120, 0x80, 6, 4, 0x7ffffff, 0x0, 0x0, 0x0, 0x0⟩,
  ⟨0x124, 0x80, 6, 4, 0x0, 0x0, 0x0, 0x0, 0x5dc⟩,
  ⟨0x128, 0x80, 6, 4, 0x0, 0x0, 0x0, 0x0, 0x0⟩,
  ⟨0x12c, 0x80, 6, 4, 0x0, 0x0, 0x0, 0x0, 0x0⟩,
  ⟨0x130, 0x80, 6, 8, 0x0, 0x0, 0x0, 0x0, 0x0⟩,
  ⟨0x138, 0x80, 6, 4, 0x0, 0x0, 0x0, 0x0, 0x0⟩,
  ⟨0x13c, 0x80, 6, 4, 0x0, 0x0, 0x0, 0x0, 0x0⟩,
  ⟨0x140, 0x80, 6, 4, 0x0, 0x0, 0x0, 0x0, 0x0⟩,
  ⟨0x144, 0x80, 6, 4, 0x0, 0x0, 0x0, 0x0, 0x0⟩,
  ⟨0x148, 0x80, 6, 4, 0x0, 0x0, 0x0, 0x0, 0x0⟩,
  ⟨0x14c, 0x80, 6, 4, 0x0, 0x0, 0x0, 0x0, 0x0⟩,
  ⟨0x150, 0x80, 6, 4, 0x0, 0x0, 0x0, 0x0, 0x0⟩,
  ⟨0x154, 0x80, 6, 4, 0x0, 0x0, 0x0, 0x80000000, 0x0⟩
]

/-- The rows of a page of kind `cs0`, without the common header. -/
def rows_cs0 : List RegRow := [
  ⟨0x40, 0x0, 1, 4, 0x0, 0x0, 0x0, 0x0, 0x70⟩,
  ⟨0x44, 0x0, 1, 4, 0x0, 0x0, 0x0, 0x0, 0x0⟩,
  ⟨0x48, 0x0, 1, 4, 0x0, 0x0, 0x0, 0x80000000, 0x0⟩,
  ⟨0x4c, 0x0, 1, 4, 0x0, 0x0, 0x0, 0x0, 0x0⟩,
  ⟨0x50, 0x0, 1, 4, 0x0, 0x0, 0x0, 0x0, 0x0⟩,
  ⟨0x54, 0x0, 1, 4, 0x0, 0x0, 0x0, 0x80000000, 0x0⟩,
  ⟨0x58, 0x0, 1, 4, 0x0, 0x0, 0x0, 0x0, 0x0⟩,
  ⟨0x60, 0x0, 1, 8, 0x0, 0x0, 0x0, 0x0, 0x0⟩
]

/-- The rows of a page of kind `srvCoef`, without the common header. -/
def rows_srvCoef : List RegRow := [
  ⟨0x40, 0x40, 16, 4, 0xffffffff, 0x0, 0x0, 0x0, 0x0⟩,
  ⟨0x44, 0x40, 16, 4, 0xffffffff, 0x0, 0x0, 0x0, 0x0⟩,
  ⟨0x48, 0x40, 16, 4, 0xffffffff, 0x0, 0x0, 0x0, 0x0⟩,
  ⟨0x4c, 0x40, 16, 4, 0xffffffff, 0x0, 0x0, 0x0, 0x0⟩,
  ⟨0x50, 0x40, 16, 4, 0xffffffff, 0x0, 0x0, 0x0, 0x0⟩,
  ⟨0x54, 0x40, 16, 4, 0xffffffff, 0x0, 0x0, 0x0, 0x0⟩,
  ⟨0x58, 0x40, 16, 4, 0xffffffff, 0x0, 0x0, 0x0, 0x0⟩,
  ⟨0x5c, 0x40, 16, 4, 0xffffffff, 0x0, 0x0, 0x0, 0x0⟩,
  ⟨0x60, 0x40, 16, 4, 0xfffff, 0x0, 0x0, 0x0, 0x0⟩,
  ⟨0x64, 0x40, 16, 4, 0xfffffff, 0x0, 0x0, 0x0, 0x0⟩
]

/-- The rows of a page of kind `srv7`, without the common header. -/
def rows_srv7 : List RegRow := [
  ⟨0x100, 0x40, 16, 4, 0xf, 0x0, 0x0, 0x0, 0x7⟩,
  ⟨0x104, 0x40, 16, 4, 0x0, 0x0, 0x0, 0x0, 0x0⟩,
  ⟨0x108, 0x40, 16, 8, 0xffffffff0000, 0x0, 0x0, 0x0, 0x0⟩,
  ⟨0x110, 0x40, 16, 4, 0xffffffff, 0x0, 0x0, 0x0, 0x0⟩,
  ⟨0x118, 0x40, 16, 8, 0x0, 0x0, 0x0, 0x0, 0x0⟩,
  ⟨0x120, 0x40, 16, 8, 0x0, 0x0, 0x0, 0x0, 0x0⟩,
  ⟨0x128, 0x40, 16, 4, 0x0, 0x0, 0x0, 0x0, 0x0⟩,
  ⟨0x12c, 0x40, 16, 4, 0x0, 0x0, 0x0, 0x0, 0x0⟩,
  ⟨0x130, 0x40, 16, 4, 0x0, 0x0, 0x0, 0x0, 0x0⟩,
  ⟨0x134, 0x40, 16, 4, 0x0, 0x0, 0x0, 0x0, 0x0⟩,
  ⟨0x138, 0x40, 16, 4, 0x0, 0x0, 0x0, 0x0, 0x0⟩
]

/-- The rows of a page of kind `srv8`, without the common header. -/
def rows_srv8 : List RegRow := [
  ⟨0x100, 0x80, 6, 8, 0xffffffff003f, 0x0, 0x0, 0x0, 0x18⟩,
  ⟨0x108, 0x80, 6, 8, 0xfffffffff000, 0x0, 0x0, 0x0, 0x0⟩,
  ⟨0x110, 0x80, 6, 8, 0xffffffff0000, 0x0, 0x0, 0x0, 0x0⟩,
  ⟨0x118, 0x80, 6, 4, 0xfffffff, 0x0, 0x0, 0x0, 0x0⟩,
  ⟨0x11c, 0x80, 6, 4, 0x1fffffff, 0x0, 0x0, 0x0, 0x0⟩,
  ⟨0x120, 0x80, 6, 4, 0xff, 0x0, 0x0, 0x0, 0x0⟩,
  ⟨0x124, 0x80, 6, 4, 0xff, 0x0, 0x0, 0x100, 0x0⟩,
  ⟨0x128, 0x80, 6, 4, 0x7ffff, 0x0, 0x0, 0x0, 0x0⟩,
  ⟨0x12c, 0x80, 6, 4, 0xfffffff, 0x0, 0x0, 0x0, 0x0⟩,
  ⟨0x130, 0x80, 6, 4, 0x0, 0x0, 0x0, 0x0, 0x0⟩,
  ⟨0x134, 0x80, 6, 4, 0x0, 0x0, 0x0, 0x0, 0x0⟩,
  ⟨0x138, 0x80, 6, 4, 0xffffffff, 0x0, 0x0, 0x0, 0x0⟩,
  ⟨0x13c, 0x80, 6, 4, 0xffffffff, 0x0, 0x0, 0x0, 0x0⟩,
  ⟨0x140, 0x80, 6, 4, 0xffffffff, 0x0, 0x0, 0x0, 0x0⟩,
  ⟨0x144, 0x80, 6, 4, 0xffffffff, 0x0, 0x0, 0x0, 0x0⟩,
  ⟨0x148, 0x80, 6, 4, 0x0, 0x0, 0x0, 0x0, 0x0⟩,
  ⟨0x14c, 0x80, 6, 4, 0x0, 0x0, 0x0, 0x0, 0x0⟩,
  ⟨0x150, 0x80, 6, 4, 0x0, 0x0, 0x0, 0x0, 0x0⟩,
  ⟨0x154, 0x80, 6, 4, 0x0, 0x0, 0x0, 0x0, 0x0⟩,
  ⟨0x158, 0x80, 6, 4, 0x0, 0x0, 0x0, 0x0, 0x0⟩,
  ⟨0x160, 0x80, 6, 8, 0xffffffff0000, 0x0, 0x0, 0x0, 0x0⟩,
  ⟨0x168, 0x80, 6, 4, 0xffffffff, 0x0, 0x0, 0x0, 0x0⟩,
  ⟨0x16c, 0x80, 6, 4, 0x0, 0x0, 0x0, 0x0, 0x0⟩,
  ⟨0x170, 0x80, 6, 4, 0x0, 0x0, 0x0, 0x0, 0x0⟩,
  ⟨0x174, 0x80, 6, 4, 0x0, 0x0, 0x0, 0x0, 0x0⟩
]

/-- The rows of a page of kind `srv9`, without the common header. -/
def rows_srv9 : List RegRow := [
  ⟨0x40, 0x0, 1, 4, 0xfff, 0x0, 0x0, 0x0, 0x0⟩,
  ⟨0x44, 0x0, 1, 4, 0x0, 0x0, 0x0, 0x0, 0x1000⟩,
  ⟨0x48, 0x0, 1, 4, 0x0, 0x0, 0x0, 0x0, 0x0⟩,
  ⟨0x4c, 0x0, 1, 4, 0x0, 0x0, 0x0, 0x0, 0x0⟩,
  ⟨0x50, 0x0, 1, 4, 0x0, 0x0, 0x0, 0x0, 0x0⟩,
  ⟨0x58, 0x0, 1, 8, 0x0, 0x0, 0x0, 0x0, 0x0⟩
]

/-- The rows of a page of kind `fab`, without the common header. -/
def rows_fab : List RegRow := [
  ⟨0x40, 0x0, 1, 4, 0xfff, 0x0, 0x0, 0x0, 0x0⟩,
  ⟨0x44, 0x0, 1, 4, 0xffffffff, 0x0, 0x0, 0x0, 0x0⟩,
  ⟨0x48, 0x0, 1, 4, 0x0, 0x0, 0x0, 0x0, 0x0⟩,
  ⟨0x4c, 0x0, 1, 4, 0x0, 0x0, 0x0, 0x0, 0x0⟩,
  ⟨0x50, 0x0, 1, 8, 0x0, 0x0, 0x0, 0x0, 0x0⟩,
  ⟨0x58, 0x0, 1, 4, 0x0, 0x0, 0x0, 0x0, 0x1f40⟩,
  ⟨0x5c, 0x0, 1, 4, 0x0, 0x0, 0x0, 0x0, 0x1f40⟩,
  ⟨0x60, 0x0, 1, 4, 0x0, 0x0, 0x0, 0x0, 0x7ff0000⟩,
  ⟨0x64, 0x0, 1, 4, 0x0, 0x0, 0x0, 0x0, 0x0⟩,
  ⟨0x68, 0x0, 1, 8, 0x0, 0xffffffffffffffff, 0x0, 0x0, 0x0⟩,
  ⟨0x70, 0x0, 1, 8, 0x0, 0x0, 0x0, 0x0, 0x0⟩,
  ⟨0x78, 0x0, 1, 4, 0x3ff, 0x0, 0x0, 0x0, 0x64⟩,
  ⟨0x7c, 0x0, 1, 4, 0x0, 0x0, 0x0, 0x0, 0x0⟩,
  ⟨0x80, 0x0, 1, 4, 0x0, 0x0, 0x0, 0x0, 0x0⟩,
  ⟨0x84, 0x0, 1, 4, 0x0, 0x0, 0x0, 0x0, 0x0⟩
]

/-- The rows of a page of kind `fabLink`, without the common header. -/
def rows_fabLink : List RegRow := [
  ⟨0x40, 0x0, 1, 4, 0x1, 0x0, 0x4, 0x2, 0x0⟩,
  ⟨0x44, 0x0, 1, 4, 0x0, 0x0, 0x0, 0x0, 0x0⟩,
  ⟨0x48, 0x0, 1, 4, 0x0, 0x0, 0x0, 0x0, 0x0⟩,
  ⟨0x4c, 0x0, 1, 4, 0x3ffff, 0x0, 0x0, 0x0, 0x0⟩,
  ⟨0x50, 0x0, 1, 4, 0x0, 0x0, 0x0, 0x0, 0x0⟩,
  ⟨0x54, 0x0, 1, 4, 0x0, 0x0, 0x0, 0x0, 0x0⟩,
  ⟨0x58, 0x0, 1, 4, 0x0, 0x0, 0x0, 0x0, 0x0⟩,
  ⟨0x5c, 0x0, 1, 4, 0xff, 0x0, 0x0, 0x0, 0x8⟩,
  ⟨0x60, 0x0, 1, 4, 0x0, 0x0, 0x0, 0x0, 0x0⟩,
  ⟨0x64, 0x0, 1, 4, 0x0, 0x0, 0x0, 0x0, 0x0⟩
]

/-- The rows of a page of kind `sectPart`, without the common header. -/
def rows_sectPart : List RegRow := [
  ⟨0x40, 0x0, 1, 4, 0x3ffff, 0x0, 0x0, 0x0, 0x3ffff⟩,
  ⟨0x44, 0x0, 1, 4, 0x0, 0x0, 0x0, 0x0, 0x0⟩,
  ⟨0x80, 0x4, 24, 4, 0xfff, 0x0, 0x0, 0x0, 0x3f⟩,
  ⟨0x100, 0x4, 24, 4, 0x30000, 0x3, 0x0, 0x0, 0x0⟩,
  ⟨0xe0, 0x0, 1, 4, 0xbfbfbfbf, 0x0, 0x0, 0x0, 0x0⟩,
  ⟨0xe4, 0x0, 1, 4, 0xbfbfbfbf, 0x0, 0x0, 0x0, 0x0⟩,
  ⟨0xe8, 0x0, 1, 4, 0xbfbfbf, 0x0, 0x0, 0x0, 0x0⟩,
  ⟨0xf0, 0x0, 1, 4, 0x0, 0x1fffffe, 0x0, 0x0, 0x0⟩,
  ⟨0x200, 0x0, 1, 4, 0x0, 0x0, 0x0, 0x1, 0x0⟩,
  ⟨0x204, 0x0, 1, 4, 0x0, 0x0, 0x0, 0x0, 0x0⟩,
  ⟨0x20c, 0x0, 1, 4, 0xf1, 0x0, 0x0, 0x0, 0x0⟩,
  ⟨0x210, 0x0, 1, 4, 0xff3f, 0x0, 0x0, 0x0, 0x8⟩,
  ⟨0x214, 0x0, 1, 4, 0x0, 0x0, 0x0, 0x0, 0x0⟩,
  ⟨0x240, 0x4, 16, 4, 0xffffffff, 0x0, 0x0, 0x0, 0x0⟩,
  ⟨0x400, 0x10, 16, 4, 0xfff, 0x0, 0x0, 0x0, 0x0⟩,
  ⟨0x408, 0x10, 16, 8, 0xfffffffff000, 0x0, 0x0, 0x0, 0x0⟩
]

/-- The rows of a page of kind `ras`, without the common header. -/
def rows_ras : List RegRow := [
  ⟨0x40, 0x0, 1, 4, 0x0, 0x0, 0x0, 0x0, 0x0⟩,
  ⟨0x44, 0x0, 1, 4, 0x0, 0x0, 0x0, 0x0, 0x0⟩,
  ⟨0x48, 0x0, 1, 4, 0x7ff, 0x0, 0x0, 0x0, 0x4c8⟩,
  ⟨0x4c, 0x0, 1, 4, 0x0, 0xffffff, 0x0, 0x0, 0x0⟩,
  ⟨0x50, 0x0, 1, 4, 0x1fff, 0x0, 0x0, 0x0, 0x0⟩,
  ⟨0x54, 0x0, 1, 4, 0x0, 0x0, 0x0, 0x0, 0x0⟩,
  ⟨0x58, 0x0, 1, 4, 0x0, 0x0, 0x0, 0x1, 0x0⟩,
  ⟨0x5c, 0x0, 1, 4, 0x0, 0x0, 0x0, 0x0, 0x0⟩,
  ⟨0x60, 0x0, 1, 8, 0x3ffffffffc0, 0x0, 0x0, 0x0, 0x0⟩,
  ⟨0x80, 0x8, 7, 4, 0x0, 0x0, 0x0, 0x0, 0x0⟩,
  ⟨0x84, 0x8, 7, 4, 0x0, 0x0, 0x0, 0x0, 0x0⟩,
  ⟨0x100, 0x10, 6, 4, 0x0, 0x0, 0x0, 0x0, 0x0⟩,
  ⟨0x104, 0x10, 6, 4, 0x0, 0x0, 0x0, 0x0, 0x0⟩,
  ⟨0x108, 0x10, 6, 4, 0x0, 0x0, 0x0, 0x0, 0x0⟩,
  ⟨0x180, 0x0, 1, 4, 0xff, 0x0, 0x0, 0x0, 0x0⟩,
  ⟨0x184, 0x0, 1, 4, 0x0, 0x0, 0x0, 0x0, 0x0⟩,
  ⟨0x188, 0x0, 1, 4, 0x0, 0x0, 0x0, 0x0, 0x0⟩,
  ⟨0x18c, 0x0, 1, 4, 0x0, 0x0, 0x0, 0x0, 0x0⟩
]

/-- The rows of a page of kind `cs1`, without the common header. -/
def rows_cs1 : List RegRow := [
  ⟨0x40, 0x0, 1, 4, 0x0, 0x0, 0x0, 0x0, 0x0⟩,
  ⟨0x44, 0x0, 1, 4, 0x0, 0x0, 0x0, 0x0, 0x0⟩,
  ⟨0x48, 0x0, 1, 4, 0xff, 0x0, 0x0, 0x0, 0x10⟩,
  ⟨0x4c, 0x0, 1, 4, 0x0, 0x0, 0x0, 0x0, 0x0⟩,
  ⟨0x50, 0x0, 1, 4, 0xffff0ff1, 0x0, 0x0, 0x0, 0x7d00041⟩,
  ⟨0x54, 0x0, 1, 4, 0x0, 0x0, 0x0, 0x0, 0x0⟩,
  ⟨0x58, 0x0, 1, 4, 0x0, 0x0, 0x0, 0x0, 0x0⟩,
  ⟨0x5c, 0x0, 1, 4, 0x0, 0x0, 0x0, 0x0, 0x0⟩,
  ⟨0x60, 0x0, 1, 4, 0x0, 0x0, 0x0, 0x0, 0x0⟩,
  ⟨0x80, 0x8, 32, 8, 0x0, 0x0, 0x0, 0x0, 0x0⟩,
  ⟨0x200, 0x10, 32, 4, 0x0, 0x1, 0x0, 0x0, 0x0⟩,
  ⟨0x204, 0x10, 32, 4, 0x0, 0x0, 0x0, 0x0, 0x0⟩,
  ⟨0x208, 0x10, 32, 8, 0x0, 0x0, 0x0, 0x0, 0x0⟩
]

/-- The rows of a page of kind `pwr`, without the common header. -/
def rows_pwr : List RegRow := [
  ⟨0x40, 0x0, 1, 4, 0x0, 0x0, 0x0, 0x0, 0x0⟩,
  ⟨0x44, 0x0, 1, 4, 0x0, 0x0, 0x0, 0xff000007, 0x0⟩,
  ⟨0x48, 0x0, 1, 4, 0xf, 0x0, 0x0, 0x0, 0x1⟩,
  ⟨0x4c, 0x0, 1, 4, 0x0, 0x0, 0x0, 0x0, 0x0⟩,
  ⟨0x50, 0x0, 1, 4, 0x0, 0x0, 0x0, 0x0, 0x0⟩,
  ⟨0x54, 0x0, 1, 4, 0x0, 0x0, 0x0, 0x0, 0x0⟩,
  ⟨0x58, 0x0, 1, 4, 0x0, 0x0, 0x0, 0x0, 0x0⟩,
  ⟨0x5c, 0x0, 1, 4, 0x0, 0x0, 0x0, 0x0, 0x0⟩,
  ⟨0x60, 0x0, 1, 4, 0x7f, 0x0, 0x0, 0x0, 0x4040⟩,
  ⟨0x64, 0x0, 1, 4, 0x3f7ff, 0x0, 0x0, 0x0, 0x10320⟩,
  ⟨0x68, 0x0, 1, 4, 0x0, 0x0, 0x0, 0x80000000, 0x0⟩,
  ⟨0x6c, 0x0, 1, 4, 0x0, 0x0, 0x0, 0x0, 0x0⟩,
  ⟨0x70, 0x0, 1, 4, 0xff, 0x0, 0x0, 0x0, 0x4⟩,
  ⟨0x74, 0x0, 1, 4, 0xfffffff, 0x0, 0x0, 0x0, 0x1f40832⟩,
  ⟨0x78, 0x0, 1, 4, 0x0, 0x0, 0x0, 0x0, 0x0⟩,
  ⟨0x7c, 0x0, 1, 4, 0x1, 0x0, 0x0, 0x0, 0x0⟩,
  ⟨0x80, 0x0, 1, 4, 0xff, 0x0, 0x0, 0x80000000, 0x0⟩,
  ⟨0x84, 0x0, 1, 4, 0x0, 0x0, 0x0, 0x0, 0x0⟩,
  ⟨0x88, 0x0, 1, 4, 0xffff, 0x0, 0x0, 0x0, 0x30d4⟩,
  ⟨0x100, 0x8, 6, 4, 0x7f00, 0x0, 0x0, 0x0, 0x14040⟩,
  ⟨0x104, 0x8, 6, 4, 0x0, 0x0, 0x0, 0x0, 0x0⟩
]

/-- The rows of a page of kind `thm`, without the common header. -/
def rows_thm : List RegRow := [
  ⟨0x40, 0x0, 1, 4, 0x0, 0x0, 0x0, 0x0, 0x0⟩,
  ⟨0x44, 0x0, 1, 4, 0x0, 0x0, 0x0, 0x0, 0x0⟩,
  ⟨0x48, 0x0, 1, 4, 0x7fff, 0x0, 0x0, 0x0, 0x1069⟩,
  ⟨0x4c, 0x0, 1, 4, 0x0, 0x0, 0x0, 0x0, 0x280f⟩,
  ⟨0x50, 0x0, 1, 4, 0x0, 0x0, 0x0, 0x0, 0x0⟩,
  ⟨0x54, 0x0, 1, 4, 0x7f, 0x0, 0x0, 0x0, 0x0⟩,
  ⟨0x58, 0x0, 1, 4, 0x0, 0x0, 0x0, 0x0, 0x0⟩,
  ⟨0x60, 0x0, 1, 4, 0x0, 0x0, 0x0, 0x0, 0x0⟩,
  ⟨0x64, 0x0, 1, 4, 0x0, 0x0, 0x0, 0x0, 0x0⟩,
  ⟨0x68, 0x0, 1, 4, 0x0, 0x0, 0x0, 0x0, 0x0⟩,
  ⟨0x6c, 0x0, 1, 4, 0x0, 0x0, 0x0, 0x0, 0x0⟩,
  ⟨0x70, 0x0, 1, 4, 0x0, 0x0, 0x0, 0x80000000, 0x0⟩
]

/-- The rows of a page of kind `mgmt`, without the common header. -/
def rows_mgmt : List RegRow := [
  ⟨0x40, 0x0, 1, 4, 0x0, 0x0, 0x0, 0x0, 0x0⟩,
  ⟨0x44, 0x0, 1, 4, 0x0, 0x0, 0x0, 0x0, 0x0⟩,
  ⟨0x48, 0x0, 1, 4, 0x0, 0x0, 0x0, 0x0, 0x0⟩,
  ⟨0x4c, 0x0, 1, 4, 0x0, 0x0, 0x0, 0x0, 0x0⟩,
  ⟨0x50, 0x0, 1, 4, 0x0, 0x0, 0x0, 0x0, 0x0⟩,
  ⟨0x58, 0x0, 1, 8, 0xfffc000001, 0x0, 0x0, 0x0, 0x0⟩,
  ⟨0x60, 0x0, 1, 4, 0x0, 0x0, 0x0, 0x0, 0x0⟩,
  ⟨0x64, 0x0, 1, 4, 0x0, 0x0, 0x0, 0x0, 0x0⟩,
  ⟨0x68, 0x0, 1, 4, 0x0, 0x0, 0x0, 0x0, 0x0⟩,
  ⟨0x6c, 0x0, 1, 4, 0x0, 0x0, 0x0, 0x0, 0x0⟩,
  ⟨0x70, 0x0, 1, 4, 0x0, 0x0, 0x0, 0x3, 0x0⟩,
  ⟨0x80, 0x0, 1, 4, 0x0, 0x0, 0x0, 0x1, 0x0⟩,
  ⟨0x84, 0x0, 1, 4, 0xfff00ff, 0x0, 0x0, 0x0, 0x0⟩,
  ⟨0x88, 0x0, 1, 4, 0x0, 0x0, 0x0, 0x0, 0x0⟩,
  ⟨0x400, 0x4, 256, 4, 0x0, 0x0, 0x0, 0x0, 0x0⟩,
  ⟨0x800, 0x4, 512, 4, 0xffffffff, 0x0, 0x0, 0x0, 0x0⟩
]

/-- The rows of a page of kind `hif`, without the common header. -/
def rows_hif : List RegRow := [
  ⟨0x40, 0x0, 1, 4, 0x0, 0x0, 0x0, 0x0, 0x0⟩,
  ⟨0x44, 0x0, 1, 4, 0x0, 0x0, 0x0, 0x0, 0x0⟩,
  ⟨0x48, 0x0, 1, 8, 0xf000000000, 0x0, 0x0, 0x0, 0x0⟩,
  ⟨0x50, 0x0, 1, 4, 0x0, 0x0, 0x0, 0x0, 0x0⟩,
  ⟨0x58, 0x0, 1, 8, 0x0, 0x0, 0x0, 0x0, 0x0⟩,
  ⟨0x60, 0x0, 1, 4, 0x0, 0x0, 0x0, 0x0, 0x0⟩,
  ⟨0x64, 0x0, 1, 4, 0x0, 0x0, 0x0, 0x0, 0x0⟩,
  ⟨0x68, 0x0, 1, 4, 0x0, 0x0, 0x0, 0x0, 0x0⟩,
  ⟨0x6c, 0x0, 1, 4, 0x0, 0x0, 0x0, 0x0, 0x0⟩
]

/-- The rows of the common header (Tables 16-2 to 16-5). -/
def rows_HDR : List RegRow := [
  ⟨0x0, 0x0, 1, 8, 0x0, 0x0, 0x0, 0x0, 0x1000000⟩,
  ⟨0x8, 0x0, 1, 4, 0x0, 0x0, 0x0, 0x1, 0x0⟩,
  ⟨0xc, 0x0, 1, 4, 0x0, 0x0, 0x0, 0x0, 0x700⟩,
  ⟨0x10, 0x0, 1, 4, 0x0, 0xffffffff, 0x0, 0x0, 0x0⟩,
  ⟨0x14, 0x0, 1, 4, 0xffffffff, 0x0, 0x0, 0x0, 0x0⟩,
  ⟨0x18, 0x0, 1, 4, 0x0, 0x0, 0x0, 0xffffffff, 0x0⟩,
  ⟨0x1c, 0x0, 1, 4, 0x0, 0x0, 0x0, 0x0, 0x0⟩
]

/-- The rows of a page of kind `dev`, without the common header. -/
def rows_dev : List RegRow := [
  ⟨0x40, 0x0, 1, 4, 0x0, 0x0, 0x0, 0x0, 0x4d12⟩,
  ⟨0x44, 0x0, 1, 4, 0x0, 0x0, 0x0, 0x0, 0xa01⟩,
  ⟨0x48, 0x0, 1, 4, 0x0, 0x0, 0x0, 0x0, 0x0⟩,
  ⟨0x50, 0x0, 1, 8, 0x0, 0x0, 0x0, 0x0, 0x0⟩,
  ⟨0x58, 0x0, 1, 8, 0x0, 0x0, 0x0, 0x0, 0x0⟩
]

end Sys2Proof.Machine
end

