-- ==== Sys2Proof/Machine/State/Mem.lean ====
section
/-! DEFINITION. Memories as plain data: the bytes (an unlisted byte reads as 0, 07_compute_stacks.md R207) and, per
64-byte granule, what its check bytes and valid bit say (R204 to R208). The same type holds tile and sector SRAM, the
atomic slots and the image of host memory, whose unlisted bytes also read as 0 (log entry 4). -/

namespace Sys2Proof.Machine

open Host (Cell)

/-- What the metadata of a granule says: its valid bit (R207), whether it holds the poison word (R206), and how many
symbols of it are corrupted (R204, R364). -/
structure GranFlag where
  valid : Bool := false
  poison : Bool := false
  bad : Nat := 0
  deriving DecidableEq, Repr

/-- A memory: its listed bytes and its listed granule flags, each by strictly rising address, no entry equal to what
an unlisted one stands for. -/
structure Memory where
  cells : List Cell := []
  flags : Tab GranFlag := []
  deriving DecidableEq, Repr

/-- The on-die arrays of R338, the bitmap words of a stack (R207) and its interface (R342; `word` is then the number of
transfers in a row that fail their CRC). -/
inductive SramArray where
  | tileSram | sectSram | routineStore | instrBuffer | vreg | accumulator | descReg | queueStorage | complEntry
  | reqTable | prefixNode | slotMeta | deltaMeta | fabStaging | fabActive | bitmapWord | ifTransfer
  deriving DecidableEq, Repr

/-- Flipped bits standing in a word of an on-die array: the array, its unit number, the word within it, and whether the
decoder reads it as uncorrectable (R338, R339). No command plants one; any state may hold them. -/
structure Upset where
  arr : SramArray
  unit : Nat
  word : Nat
  ue : Bool
  deriving DecidableEq, Repr

/-- A write on its way to its home: its location, its bytes, the nibble it is confined to for a single E2M1 element (R56),
its poison mark (R31), the function whose ID a host write carries (R325), and the command, handle and virtual address
that a failure is reported to (R59, R428). A location is a stack's device physical address, or one of the ranges that
Sys2Proof/Machine/Ops.lean gives tile SRAM, sector SRAM, the atomic slots and host windows. -/
structure PWrite where
  addr : Nat
  data : List Byte
  nibble : Option Bool := none
  poison : Bool := false
  func : Nat := 0
  cmd : Option Nat := none
  handle : Nat := 0
  vaddr : Nat := 0
  deriving DecidableEq, Repr

end Sys2Proof.Machine
end

