-- ==== Sys2Proof/Syntax.lean ====
section
/-! DEFINITION. The commands of the device: one constructor per row of the opcode table, in the table's order, with the
operands the outside world (host, peer, board, management bus, or the passing of a device event) gives it.
Operands that name a unit are bounded by the unit counts of Table 1-1 (01_device_at_work.md R11). -/

namespace Sys2Proof

/-- Device tile number 24k + t (R11). -/
abbrev TileId := Fin 144
/-- Sector 0 to 5 (R11). -/
abbrev SectId := Fin 6
/-- Compute stack CS0 to CS11 (R11). -/
abbrev StackId := Fin 12
/-- Device hen 32n + p (R11). -/
abbrev HenId := Fin 384
/-- Pseudo-channel of a stack (R184). -/
abbrev PcId := Fin 32
/-- Command queue 0 to 127 (R129). -/
abbrev QueueId := Fin 128
/-- Completion ring 0 to 127 (R129). -/
abbrev RingId := Fin 128
/-- Umaif link 0 to 95 (R11). -/
abbrev LinkId := Fin 96
/-- Partition 0 to 5 (R314). -/
abbrev PartId := Fin 6
/-- Model slot 0 to 15 (R261). -/
abbrev SlotId := Fin 16
/-- PCI function: 0 the PF, 1 to 24 the VFs (R323). -/
abbrev Func := Fin 25
/-- Request-table entry index 0 to 16,383 (R214). -/
abbrev EntryId := Fin 16384

/-- How a completion of a device read of host memory came back (R427). -/
inductive ReadStatus where
  | ok | unsupported | abort | poisoned
  deriving DecidableEq, Repr

/-- Codewords of a link that a FEC interval corrected, and that it could not correct (R313). -/
structure FecCounts where
  corrected : Nat
  uncorrected : Nat
  deriving DecidableEq, Repr

/-- The place and the size in bytes of a register access. -/
structure RegSpan where
  off : Nat
  size : Nat
  deriving DecidableEq, Repr

/-- The two MCTP bindings of the gander (R410). -/
inductive Binding where
  | pcie | i3c
  deriving DecidableEq, Repr

/-- Kinds of unit, coded as RAS_UNIT_SEL.KIND codes them (Table 12-9). -/
inductive UnitKind where
  | tile | dma | hen | stack | link | sector
  deriving DecidableEq, Repr

/-- A unit of the device: its kind and device unit number (Table 12-9). -/
structure UnitId where
  kind : UnitKind
  index : Nat
  deriving DecidableEq, Repr

/-- One operand element of a dense product: its code and, where its operand carries block scales, its block's scale code. -/
structure ProdElem where
  code : Nat
  scale : Option Nat
  deriving DecidableEq, Repr

/-- One dense product of a step for one output row n of weight matrix `matrix` (R267): PAIR (Table 7-3), the element types of
weights and activations, whether each carries block scales, the base operands W(k, n) and x(k, b), the base product's
ANCHOR (0x200 for AUTO) and output shift, the type and saturating mode of the result, and the virtual address it goes to. -/
structure DenseProd where
  matrix : Nat
  row : Nat
  pair : Nat
  wType : Nat
  xType : Nat
  wScaled : Bool
  xScaled : Bool
  w : List ProdElem
  x : List ProdElem
  anchor : BitVec 10
  shift : Int
  outType : Nat
  sat : Bool
  va : Nat
  deriving DecidableEq, Repr

/-- What the program of one request produced in one decode step: one row of main-model logits for each position of the
pass, the colt's drafts and one row of colt logits for each draft, whether the step read poison, the step's flags, and the
dense products of its request, to which the bound delta version adds (R267), and what it wrote besides (virtual address,
bytes). The spec leaves the program itself to the compiler. -/
structure StepResult where
  entry : EntryId
  mainRows : List (List W32)
  drafts : List W32
  coltRows : List (List W32)
  poison : Bool
  aflags : Byte
  products : List DenseProd
  writes : List (Nat × List Byte)
  deriving DecidableEq, Repr

/-- What one prefill slice did for one request: prompt tokens whose rows it wrote and, when it ended the prompt, the row of
logits that gives the first token; poison read, flags, products and writes as above. -/
structure SliceResult where
  entry : EntryId
  tokens : Nat
  finalRow : Option (List W32)
  poison : Bool
  aflags : Byte
  products : List DenseProd
  writes : List (Nat × List Byte)
  deriving DecidableEq, Repr

/-- What a peer sends in link training (R283, R284), and the measured flight time in 0.25 ns units (Table 10-14). -/
structure PeerIdent where
  gen : Nat
  fid : Nat
  foldTag : W32
  link : Nat
  flight : Nat
  deriving DecidableEq, Repr

/-- One incoming 64-byte granule of a slot, with its poison mark (R298); `none` when it did not arrive intact (R300). -/
structure RxGranule where
  data : Rec
  poison : Bool
  arrived : Bool
  deriving DecidableEq, Repr

/-- A sensor reading in units of 0.25 °C, or a failed plausibility check (R211, R388). -/
structure Reading where
  temp : Int
  bad : Bool
  deriving DecidableEq, Repr

/-- Device states a PCI configuration write can change (R428, R323, R423, R326). -/
inductive CfgReg where
  | busMaster | msixEnable | msixMask | powerState | bar4Size | vfEnable | numVfs | maxPayload | maxReadReq
  | cplTimeoutRange
  deriving DecidableEq, Repr

/-- The commands of the block, one per row of the opcode table. -/
inductive Instr where
  /-- MMA (R100): tile `t` issues the MMA in the matrix slot of its current bundle. -/
  | mma (t : TileId)
  /-- MMA_PRODUCTS_LAND (R120): the oldest in-flight products of tile `t` land. -/
  | mmaProductsLand (t : TileId)
  | mrd (t : TileId)
  | vadd (t : TileId)
  | vmul (t : TileId)
  | vfma (t : TileId)
  | vmax (t : TileId)
  | vmin (t : TileId)
  | vrcp (t : TileId)
  | vrsq (t : TileId)
  | vexp2 (t : TileId)
  | vlog2 (t : TileId)
  | vpair (t : TileId)
  | vpmaxi (t : TileId)
  | vimm (t : TileId)
  | xadd (t : TileId)
  | xrd (t : TileId)
  | vld (t : TileId)
  | vst (t : TileId)
  | move (t : TileId)
  /-- MOVE_COMPLETE (R111): the `i`-th outstanding move-slot operation of tile `t` performs its last write. -/
  | moveComplete (t : TileId) (i : Nat)
  /-- ATOMIC_PERFORM (R168): the oldest atomic request of tile `t` is performed by its target's home. -/
  | atomicPerform (t : TileId)
  | msend (t : TileId)
  /-- MSEND_ARRIVAL (R109): the last byte of the `i`-th outstanding operation of tile `t`, an MSEND, arrives. -/
  | msendArrival (t : TileId) (i : Nat)
  | hgemm (t : TileId)
  | hattn (t : TileId)
  | hsoftmax (t : TileId)
  | hreduce (t : TileId)
  /-- HEN_START (R198): the hens of hen operation `op` start their first row step. -/
  | henStart (op : Nat)
  /-- HEN_ROW_STEP (R188): hen `h` completes a row step. -/
  | henRowStep (h : HenId)
  | hattnExchange (op : Nat)
  | henOpFinish (op : Nat)
  | loop (t : TileId)
  | call (t : TileId)
  | ret (t : TileId)
  | wait (t : TileId)
  | barrier (t : TileId)
  /-- BARRIER_RELEASE (R113): the tiles of command `c` waiting at a barrier are released. -/
  | barrierRelease (c : Nat)
  | spread (t : TileId)
  | cset (t : TileId)
  /-- END (R86): tile `t` issues nothing further. -/
  | endProgram (t : TileId)
  /-- QUEUE_RECORD_WRITE (R131): a posted write of `data` at BAR2 offset `off` of function `f`, in the queue windows. -/
  | queueRecordWrite (f : Func) (off : Nat) (data : List Byte)
  /-- NOP (R136): the head command of queue `q` has its turn; it is a NOP. The next rows likewise name the queue. -/
  | nop (q : QueueId)
  | runProgram (q : QueueId)
  | copy (q : QueueId)
  | libLoad (q : QueueId)
  /-- LIB_LOAD_VERIFY (R118): the image of the started LIB_LOAD `c` is verified. -/
  | libLoadVerify (c : Nat)
  | modelLoad (q : QueueId)
  /-- MODEL_LOAD_CHECK (R262): the copy of the started MODEL_LOAD `c` has ended. -/
  | modelLoadCheck (c : Nat)
  | modelEvict (q : QueueId)
  /-- SLOT_EVICTED (R261): slot `s` ends EVICTING. -/
  | slotEvicted (s : SlotId)
  | deltaPut (q : QueueId)
  | deltaPutCheck (c : Nat)
  | deltaRetire (q : QueueId)
  | adaptStep (q : QueueId)
  | pageRetire (q : QueueId)
  | powerState (q : QueueId)
  | fenceEpoch (q : QueueId)
  /-- EPOCH_IMAGE_CHECK (R295): the copy of the image of the started FENCE_EPOCH `c` has ended. -/
  | epochImageCheck (c : Nat)
  /-- EPOCH_COMMIT (R305): the boundary fixed by the deciding round arrives. -/
  | epochCommit
  /-- COMMAND_COMPLETE (R157): all engines of the started command `c` have finished. -/
  | commandComplete (c : Nat)
  /-- COMPLETION_RECORD_WRITE (R147): the oldest ready completion record of ring `r` is issued to its ring. -/
  | completionRecordWrite (r : RingId)
  | moderationTimer (r : RingId)
  /-- COMMAND_TIMEOUT (R144): the expiry of command `c` is looked for, at the check that falls once every microsecond. -/
  | commandTimeout (c : Nat)
  /-- COMMAND_HANG (R144): 10 us after detection the engines `hung` of command `c` have not reported stopped. -/
  | commandHang (c : Nat) (hung : List UnitId)
  /-- CQ_Q_CFG (R151): function `f` writes `v` to the configuration of queue `q`. -/
  | cqQCfg (f : Func) (q : QueueId) (v : W32)
  | cqRCfg (f : Func) (r : RingId) (v : W32)
  | cqRHead (f : Func) (r : RingId) (v : W32)
  /-- SUBMIT (R224): a posted write of `data` at BAR2 offset `off` of function `f`, in the submission window. -/
  | submit (f : Func) (off : Nat) (data : List Byte)
  /-- CANCEL (R231): likewise, carrying a record of KIND CANCEL. -/
  | cancel (f : Func) (off : Nat) (data : List Byte)
  /-- ANSWER_READ (R220): function `f` reads `len` bytes at BAR2 offset `off` in the submission window. -/
  | answerRead (f : Func) (off : Nat) (len : Nat)
  /-- SETUP_DONE (R225): set-up of the request in entry `e` ends. -/
  | setupDone (e : EntryId)
  | servingCycle (p : PartId)
  /-- DECODE_STEP (R232): the decode step of slot `s` in partition `p` ends with what its program produced. -/
  | decodeStep (p : PartId) (s : SlotId) (results : List StepResult)
  | prefillSlice (p : PartId) (results : List SliceResult)
  | tokenHandover (e : EntryId)
  | requestRecordWrite (e : EntryId)
  | flush (f : Func) (p : PartId) (v : W32)
  /-- SRV_ADM_PARAM_WRITE (R223): function `f` writes `v` to the admission parameter at BAR0 offset `off`. -/
  | srvAdmParamWrite (f : Func) (off : Nat) (v : W32)
  | srvAdmPool (f : Func) (p : PartId) (v : W32)
  | srvRtSel (f : Func) (v : W32)
  | srvDeltaSel (f : Func) (v : W32)
  | srvLateMaxClr (f : Func) (p : PartId) (v : W32)
  | fabLinkEn (f : Func) (i : LinkId) (v : W32)
  | retrain (f : Func) (i : LinkId) (v : W32)
  | retire (f : Func) (i : LinkId) (v : W32)
  /-- LINK_TRAINED (R284): training of link `i` reaches the identity exchange with this peer. -/
  | linkTrained (i : LinkId) (peer : PeerIdent)
  | trainTimeout (i : LinkId)
  | linkRetry (i : LinkId)
  /-- LANE_LOSS (R301): lane `lane` of link `i` loses lock. -/
  | laneLoss (i : LinkId) (lane : Fin 2)
  /-- FEC_LIMIT (R301, R313): of link `i`, the codewords corrected and those met uncorrectable in
  the last 1 ms. -/
  | fecLimit (i : LinkId) (n : FecCounts)
  | beatBoundary
  /-- PACE_WORD (R290): the 128-byte pace word `w` arrives on link `i`. -/
  | paceWord (i : LinkId) (w : BitVec 1024)
  /-- BEND (R285): the BEND word `w` arrives on link `i`, its first byte at `at256` in units of 1/256 ns. -/
  | bend (i : LinkId) (w : Rec) (at256 : Nat)
  | bendDeadline (i : LinkId)
  | notice (i : LinkId) (w : Rec)
  /-- SLOT_TX (R296): entry `n` of the table in force sends its granules. -/
  | slotTx (n : Nat)
  /-- SLOT_RX (R296): entry `n` of the table in force receives these granules. -/
  | slotRx (n : Nat) (granules : List RxGranule)
  | rootTimeout
  | timeLost
  /-- FOLD_COMMAND_START (R302): the fold command that waits at the head of queue `q`. -/
  | foldCommandStart (q : Nat)
  | sectPartLayout (f : Func) (v : W32)
  | layoutDone
  /-- PARTITION_RESET (R332): the PF writes SECT_PART_CTRL of partition `p`. -/
  | partitionReset (p : PartId)
  /-- RESET_RETRAIN_DONE (R358): phase 4 of the reset of partition `p` ends; `failed` units failed their checkers. -/
  | resetRetrainDone (p : PartId) (failed : List UnitId)
  | stackReadyTimeout (n : StackId)
  /-- SUSPECT_REPLAY (R356): the next suspect of partition `p` was run alone, ended with `status`, and the engines
  `hung` did not stop. -/
  | suspectReplay (p : PartId) (status : Byte) (hung : List UnitId)
  | resetEnd (p : PartId)
  | sliceBoundary (p : PartId)
  | sectSliceCtrl (f : Func) (k : SectId) (v : W32)
  | vfFlr (v : Func)
  | vfFlrEscalate (v : Func)
  | pfFlr
  /-- BLK_INT_FORCE (R445): function `f` writes `v` to the force register of the page at BAR0 offset `page`. -/
  | blkIntForce (f : Func) (page : Nat) (v : W32)
  | errClr (f : Func) (page : Nat) (v : W32)
  /-- REGISTER_WRITE (R447): function `f` writes the `size` low bytes of `v` at BAR0 offset `off`. -/
  | registerWrite (f : Func) (off : Nat) (size : Nat) (v : W64)
  | bar4Read (f : Func) (off : Nat) (len : Nat)
  | bar4Write (f : Func) (off : Nat) (data : List Byte)
  /-- WRITE_BUFFER_DRAIN (R153): the oldest buffered write of sector `k` to the granule at `gran` drains to its home. -/
  | writeBufferDrain (k : SectId) (gran : Nat)
  | serviceWindow (n : StackId) (p : PcId)
  | refreshPeriod (n : StackId) (p : PcId)
  /-- STACK_TEMP_SAMPLE (R211): the readings of DRAM dies 0 to 11 and of the base die (12). -/
  | stackTempSample (n : StackId) (readings : List Reading)
  | bitmapClearDone (n : StackId)
  | scrubStep (n : StackId) (p : PcId)
  | csTempMaxClr (f : Func) (n : StackId) (v : W32)
  | csWinWaitClr (f : Func) (n : StackId) (v : W32)
  /-- RETURN (R353): function `f` writes `v` to RAS_UNIT_CMD. -/
  | returnUnit (f : Func) (v : W32)
  | rasUnitSel (f : Func) (v : W32)
  | rasSuspSel (f : Func) (v : W32)
  | rasInject (f : Func) (v : W64)
  | powerOn
  /-- RAILS_GOOD (R435): the rails are good; `failed` units failed the power-on self-test. -/
  | railsGood (failed : List UnitId)
  | powerOnComplete
  | perstN
  | hotReset
  | dlDown
  /-- LINK_UP (R421): the host link reaches L0 at rate code `rate` and `width` lanes (codes of HIF_LINK). -/
  | linkUp (rate : Nat) (width : Nat) (flit : Bool) (reversed : Bool)
  /-- HOST_READ_COMPLETION (R427): the completion of the `i`-th outstanding device read arrives. -/
  | hostReadCompletion (i : Nat) (status : ReadStatus) (data : List Byte)
  | completionTimeout (i : Nat)
  | atomicopRequest (f : Func)
  | ioRequest (f : Func)
  /-- POISONED_TLP (R426): a poisoned write arrives at BAR `bar` offset `off` of function `f`. -/
  | poisonedTlp (f : Func) (bar : Nat) (off : Nat) (data : List Byte)
  | ideInsecure
  | entered
  | wake (f : Func) (v : W32)
  /-- WAKE_DONE (R375): the wake under way ends; `failed` units failed the checker self-test of R347. -/
  | wakeDone (failed : List UnitId)
  | padRelease (f : Func) (v : W32)
  | shutdown (f : Func) (v : W32)
  | supplySag
  | saveEnd
  /-- THERMAL_SAMPLE (R386): the diode's reading and, per monitor 0 to 71, its oscillator count and its sector's
  supply voltage in mV. -/
  | thermalSample (diode : Reading) (monitors : List (Nat × Int))
  /-- RECALIBRATION (R387): the diode, counts and voltages at the new calibration point. -/
  | recalibration (diode : Reading) (monitors : List (Nat × Int))
  /-- POWER_SAMPLE (R379): the package power and the rail power of sectors 0 to 5, in mW. -/
  | powerSample (package : Nat) (rails : List Nat)
  | rateUpdate
  /-- DROOP (R384): the supply of sector `k` falls `mv` below nominal. -/
  | droop (k : SectId) (mv : Nat)
  /-- DROOP_HOLD_EXPIRY (R384): the droop hold of sector `k` ends after `ns`. -/
  | droopHoldExpiry (k : SectId) (ns : Nat)
  | sectorClockOff (k : SectId)
  | sectorWake (k : SectId)
  | pwrClk (f : Func) (v : W32)
  | clockSwitch
  | pwrPhaseSel (f : Func) (v : W32)
  | pwrPhaseClear (f : Func) (v : W32)
  | pwrPowerClr (f : Func) (v : W32)
  | thmMonSel (f : Func) (v : W32)
  | thmMaxClr (f : Func) (v : W32)
  | go (f : Func) (v : W32)
  | reboot (f : Func) (v : W32)
  | identityRead
  | sensorRead
  | logRead
  | logInfo
  | keyEnrol
  | keyRevoke
  | keyList
  | cfgRead
  /-- DEBUG_CHALLENGE (R418): the mailbox command, with the 32-byte nonce the crypto engine draws. -/
  | debugChallenge (nonce : BitVec 256)
  | debugOpen
  | configurationWrite
  | logFlush
  | setEndpointId (b : Binding) (eid : Byte)
  | vdmWake (b : Binding)
  | getVersion (b : Binding)
  | getCapabilities (b : Binding)
  /-- NEGOTIATE_ALGORITHMS (R412): whether the request offers the algorithms of R412. -/
  | negotiateAlgorithms (b : Binding) (offersOurs : Bool)
  | getDigests (b : Binding)
  | getCertificate (b : Binding) (slot : Nat)
  | challenge (b : Binding) (slot : Nat) (nonce : BitVec 256)
  /-- GET_MEASUREMENTS (R414): the measurement indices asked for, and whether a signature is asked. -/
  | getMeasurements (b : Binding) (indices : List Nat) (signed : Bool) (nonce : BitVec 256)
  | keyExchange (b : Binding) (slot : Nat)
  | finish (b : Binding) (session : Nat)
  | heartbeat (b : Binding) (session : Nat)
  | keyUpdate (b : Binding) (session : Nat)
  | endSession (b : Binding) (session : Nat)
  /-- ATTESTATION_KEY_GEN (R413): a fresh key is generated from this random seed. -/
  | attestationKeyGen (seed : BitVec 256)
  | queryDeviceIdentifiers (b : Binding)
  | getFirmwareParameters (b : Binding)
  | requestUpdate (b : Binding) (maxTransfer : Nat)
  | passComponentTable (b : Binding)
  | updateComponent (b : Binding) (imageBytes : Nat)
  /-- REQUEST_FIRMWARE_DATA (R416): the portion at image offset `off` arrives. -/
  | requestFirmwareData (off : Nat) (data : List Byte)
  | transferComplete
  | verifyComplete
  | applyComplete
  | activateFirmware (b : Binding)
  | getStatus (b : Binding)
  | cancelUpdateComponent (b : Binding)
  | cancelUpdate (b : Binding)
  | perstNRise
  | wakeNRelease
  | bendSend (i : LinkId)
  | ganderLinkMessage (i : LinkId)
  | pciConfigWrite (f : Func) (reg : CfgReg) (v : Nat)
  /-- LOW_WORD_READ (R5, R445): a read of 4 or 8 bytes at an offset of BAR0. -/
  | lowWordRead (f : Func) (r : RegSpan)
  /-- IDE_KM (R430): a key-management message in secured session `session`: install key set `k` or switch to it. -/
  | ideKm (b : Binding) (session : Nat) (keySet : Bool) (switch : Bool)
  | pldmPlatformMonitoring (b : Binding) (sensor : Nat)
  | pldmBaseDiscovery (b : Binding)
  | i3cDynamicAddress (addr : BitVec 7)
  | stackRetrainDone (n : StackId)
  deriving DecidableEq, Repr

end Sys2Proof
end

