-- ==== Sys2Proof/Machine/State/Fabric.lean ====
section
/-! DEFINITION. The state of the fabric unit and the Umaif links that is not a register (10_fold_fabric.md). -/

namespace Sys2Proof.Machine

/-- An epoch image as the staging table or the active table holds it (R294): header, WORK, the base table and the
detours; with the epoch number of the FENCE_EPOCH that staged it (R305). -/
structure FabImage where
  hdr : BitVec 4096
  work : List Nat
  tables : List (List (BitVec 256))
  epoch : Nat
  deriving DecidableEq, Repr

/-- The values of a pace word (Table 10-8) other than VERSION, TYPE and BEAT. -/
structure Pace where
  need : Nat := 0
  fallback : Bool := false
  gap : BitVec 64 := 0
  stop : BitVec 64 := 0
  epoch : Nat := 0
  ready : BitVec 768 := 0
  deriving DecidableEq, Repr

/-- What a TX slot of the current beat sends, as it stood at the start of the beat (R296, R298), and what has been sent
of it: granules with their poison marks, whether an address of it faults, whether it was sent, and whether a reset of its
partition made it zeros (R299). -/
structure TxSlot where
  n : Nat
  granules : List (Rec × Bool)
  fault : Bool
  sent : Bool
  zeros : Bool := false
  deriving DecidableEq, Repr

/-- An RX slot of a beat and whether every granule of it arrived intact (R300). -/
structure RxSlot where
  n : Nat
  arrived : Bool
  notified : Bool
  deriving DecidableEq, Repr

/-- What one link heard of its peer in the latest BEND (R285, Table 10-7): root, distance, the peer's TX_TIME and its
arrival in 1/256 ns, whether that BEND echoes one of this end, and the offset computed then, in 1/256 ns. -/
structure Heard where
  root : Nat
  dist : Nat
  txTime : Nat
  rxTime : Nat
  echo : Bool
  offset : Int
  deriving DecidableEq, Repr

/-- What is sent on a link: in training the generation and the identity of this end (R283, R284), then management words
(pace, notice, BEND) and the granules of slots with their poison marks. -/
inductive LinkMsg where
  | training (gen fid tag devId devRev link : Nat)
  | pace (w : BitVec 1024)
  | notice (w : Rec)
  | bend (w : Rec)
  | slot (n : Nat) (granules : List (Rec × Bool))
  deriving DecidableEq, Repr

/-- The fabric unit: staged and active images; the beat number at which a decided commit falls, and that at which this device's
epoch stops because others commit one it has not staged (R306); its own pace word of the current beat and how often it was
sent, when it was last sent, and whether a change of it waits to be sent (R289); number and start of the current beat and
the number of the one before; agreed lengths of this beat and the next, and whether the next begins the fall-back; the NEED
of the latest round; GAP bits of the rounds of this period and of the period before; the down-set now, as the latest round
held it, and as acted on (R309); notices forwarded in this epoch, each with its beat, those waiting and how many were sent
in this beat; whether the beat began with TIME_LOST set; slots of the current beat, RX slots, table and BENDs of the beat
before, and the links whose deadline passed; what each link heard; when a root was last heard, and when one that a candidate
yields to was; when each link last entered TRAINING or DOWN; whether a parent was found since power-on or TIME_LOST; what
DEV_TIME has to slew, in ns; clock and rate sampled for the last three pace words (R292), and the beats in which a response
lowered them; and what was sent. -/
structure Fab where
  staged : Option FabImage := none
  active : Option FabImage := none
  commitAt : Option Nat := none
  foreignAt : Option Nat := none
  pace : Pace := {}
  paceSent : Nat := 0
  paceAt : Nat := 0
  paceDue : Bool := false
  beatNo : Nat := 0
  prevNo : Nat := 0
  beatStart : Nat := 0
  len1 : Nat := 8000
  len2 : Nat := 8000
  fb2 : Bool := false
  roundNeed : Nat := 8000
  gapPeriod : BitVec 64 := 0
  lastGap : BitVec 64 := 0
  down : List (Nat × Nat) := []
  downRound : List (Nat × Nat) := []
  downActed : List (Nat × Nat) := []
  forwarded : List (Nat × Nat × Nat) := []
  noticeQ : List Rec := []
  noticesSent : Nat := 0
  lost : Bool := false
  tx : List TxSlot := []
  rx : List RxSlot := []
  rxPrev : List RxSlot := []
  tablePrev : List (BitVec 256) := []
  bends : Tab Rec := []
  bendsPrev : Tab Rec := []
  deadlineDone : List Nat := []
  heard : Tab Heard := []
  rootHeard : Nat := 0
  lowerHeard : Nat := 0
  linkAt : Tab Nat := []
  hadParent : Bool := false
  slew : Int := 0
  samples : List (Nat × Nat) := []
  lowered : List Nat := []
  sent : List (Nat × LinkMsg) := []
  deriving DecidableEq, Repr

end Sys2Proof.Machine
end

