-- ==== Sys2Proof/Machine/State/Gander.lean ====
section
/-! DEFINITION. The state of the gander: fuses, flash, the event log, the configuration block, keys, sessions and updates
(14_gander_security_update.md), and the identity region no command can write (R398). -/

namespace Sys2Proof.Machine

/-- What only manufacture writes: the identity record (Table 14-3, R398), the device secret (R411) and the fused gains of
the monitors in units of 2^-16 (R387). -/
structure Ident where
  valid : Bool := false
  vid : BitVec 16 := 0
  uniqueId : BitVec 64 := 0
  serial : BitVec 128 := 0
  certs : List Byte := []
  lmsIdPub : List Byte := []
  vendorSig : List Byte := []
  secret : BitVec 256 := 0
  kt : Tab Int := []
  kv : Tab Int := []
  deriving DecidableEq, Repr

/-- An event-log record (R405, Table 14-7): its payload as the list of the fields the table names, its version and CRC
left to the reading. -/
structure LogRec where
  typ : Nat
  seq : Nat
  time : Nat
  payload : List Nat
  deriving DecidableEq, Repr

/-- A routine-signing key entry (Table 14-5). -/
structure KeyEnt where
  keyid : Nat
  valid : Bool
  ecdsa : List Byte
  lms : List Byte
  deriving DecidableEq, Repr

/-- A retirement record (Table 14-6), its version left to the reading. -/
structure RetRec where
  kind : Nat
  addr : Nat
  unit : Nat
  time : Nat
  deriving DecidableEq, Repr

/-- A configuration block (R403, Table 14-5): SEQ, key entries and high-water marks by entry index, retirement list,
I3C static address and the rest of the management section. -/
structure CfgBlock where
  seq : Nat := 0
  keys : Tab KeyEnt := []
  marks : List (Nat × Nat) := []
  retired : List RetRec := []
  i3c : Nat := 0x5A
  mgmt : List Byte := []
  deriving DecidableEq, Repr

/-- A configuration copy in flash: erased or broken in one of the ways R403 checks, or a valid block. -/
inductive CfgCopy where
  | badVersion | badLength | badCheck
  | block (b : CfgBlock)
  deriving DecidableEq, Repr

/-- A change of the configuration block that waits for its write (R404): a key entry written at an index, the entry there
revoked (R408), a high-water mark raised (R409), a retirement record appended (R351). -/
inductive CfgChange where
  | enrol (idx : Nat) (k : KeyEnt)
  | revoke (idx : Nat)
  | mark (keyid ver : Nat)
  | retire (r : RetRec)
  deriving DecidableEq, Repr

/-- What waits for the write: the mailbox command, a started command, or nothing. -/
inductive CfgCause where
  | mailbox
  | cmd (c : Nat)
  | nobody
  deriving DecidableEq, Repr

/-- A fuse key slot (R400, R401). -/
structure KeySlot where
  provisioned : Bool := false
  revoked : Bool := false
  ecdsaHash : BitVec 384 := 0
  lmsHash : BitVec 384 := 0
  deriving DecidableEq, Repr

/-- What the SPDM or PLDM or MCTP responder sends (R410 to R416). `errOther` is an error whose code the spec leaves to the
protocol it cites. -/
inductive Reply where
  | ok (data : List Byte)
  | errUnspecified
  | errOther
  | errSessionLimit
  | alreadyInUpdate
  | unableToInitiate
  | notInUpdate
  | busy
  deriving DecidableEq, Repr

/-- The attestation LMS key in use (R413): its seed, leaves used, and the identity leaf that signed it, when one did. -/
structure AttKey where
  seed : BitVec 256
  used : Nat
  idLeaf : Option Nat
  deriving DecidableEq, Repr

/-- An SPDM session (R412). -/
structure Session where
  binding : Binding
  number : Nat
  finished : Bool
  updates : Nat := 0
  deriving DecidableEq, Repr

/-- A firmware update in progress (R415, R416): the agent's binding, its maximum transfer, the component's size, the next
offset asked for, the version that runs, and the version of the component once it was verified, and whether it was
applied. -/
structure Update where
  agent : Binding
  maxTransfer : Nat
  bytes : Nat := 0
  nextOff : Nat := 0
  oldVer : Nat := 0
  newVer : Option Nat := none
  applied : Bool := false
  deriving DecidableEq, Repr

/-- The gander: whether it runs, the fused SVN, key slots and DEBUG_OPENED fuse, the two configuration copies, the block in force
(`none`: factory defaults) and the changes that wait for their write, the event log in flash and the records buffered, oldest
first, with the next SEQ, the image region of flash (its bytes, [] when the header is erased), header and body digest of the
running image, identity leaves used, the attestation key, whether the device secret is blocked and debug access enabled, the nonce
of the latest challenge, sessions, negotiated bindings, the update in progress, and the replies sent. -/
structure Gander where
  up : Bool := false
  svn : Nat := 0
  slots : Tab KeySlot := []
  debugFuse : Bool := false
  copyA : CfgCopy := .badVersion
  copyB : CfgCopy := .badVersion
  block : Option CfgBlock := none
  cfgPend : List (CfgChange × CfgCause) := []
  logFlash : List LogRec := []
  logBuf : List LogRec := []
  logSeq : Nat := 0
  image : List Byte := []
  runHdr : List Byte := []
  lmsUsed : Nat := 0
  att : Option AttKey := none
  secretBlocked : Bool := false
  debugOn : Bool := false
  nonce : Option (BitVec 256) := none
  sessions : List Session := []
  negotiated : List Binding := []
  upd : Option Update := none
  replies : List (Binding × Reply) := []
  respBuf : List Byte := []
  deriving DecidableEq, Repr

end Sys2Proof.Machine
end

