-- ==== Sys2Proof/Machine/State/Tile.lean ====
section
/-! DEFINITION. The state of tiles, routine libraries and hens (04_thokel_programs.md Table 4-1; 02_arithmetic.md R24 to
R31, R36; 07_compute_stacks.md R187 to R199). -/

namespace Sys2Proof.Machine

/-- The five sticky marks of an accumulator (R26). -/
structure Marks where
  inexact : Bool := false
  range : Bool := false
  nan : Bool := false
  pinf : Bool := false
  ninf : Bool := false
  deriving DecidableEq, Repr

/-- One lane accumulator: the 96-bit integer, its marks and poison mark, whether infinity met zero in it (Table 2-6
INVALID), its anchor, the terms taken, and for a BF16 accumulation the running sum, the leaves of the open chunk and the
flags of its additions (R24, R26, R30, R31, R36, R102). -/
structure Lane where
  acc : BitVec 96 := 0
  marks : Marks := {}
  inv : Bool := false
  flags : Byte := 0
  poison : Bool := false
  anchor : Int := 0
  terms : Nat := 0
  sum : W32 := 0
  chunk : List W32 := []
  deriving DecidableEq, Repr

/-- What one MMA adds to one lane: for an exact pair the sum of its truncated terms, their marks and count; for BF16
its leaves; for a starting MMA the anchor and the seed. -/
structure LaneProd where
  add : BitVec 96 := 0
  marks : Marks := {}
  inv : Bool := false
  flags : Byte := 0
  terms : Nat := 0
  anchor : Int := 0
  leaves : List W32 := []
  seed : W32 := 0
  poison : Bool := false
  deriving DecidableEq, Repr

/-- The open accumulation as the issue order sees it: PAIR and ANCHOR of its starting MMA and each lane's anchor
(R100, R101). -/
structure OpenAcc where
  pair : Nat
  anchor : BitVec 10
  anchors : List Int
  deriving DecidableEq, Repr

/-- Matrix-slot work issued and not yet landed, in issue order: products of an MMA, or an MRD waiting for its sample, with
the accumulation it saw open, and its destination handle, cursor and issue number (R103). -/
inductive Inflight where
  | products (start bf16 : Bool) (lanes : List LaneProd)
  | readout (word : W64) (bf16 : Bool) (dst : Nat) (cs : List (BitVec 32)) (seq : Nat)
  deriving DecidableEq, Repr

/-- One FP32 element of a vector register with its poison mark (R31). -/
structure Elem where
  val : W32 := 0
  poison : Bool := false
  deriving DecidableEq, Repr

/-- One open loop level (R94): its body, the iterations left, its record, the coordinates it saved, and how deep in the
call stack it was opened. -/
structure LoopLevel where
  first : Nat
  last : Nat
  left : Nat
  first_iter : Bool
  record : Option Nat
  saved : List (Nat × Nat × BitVec 32)
  depth : Nat
  routine : Nat
  deriving DecidableEq, Repr

/-- One return entry of the call stack (R115): caller's routine, CALL bundle and bound arguments. -/
structure Frame where
  routine : Nat
  bundle : Nat
  args : List (BitVec 13)
  deriving DecidableEq, Repr

/-- A MOVE or MSEND issued: resolved source and destination handles, the cursors at its issue, log2 of its element and row
counts, the saturating mode, and its keys in the write order (R71). -/
structure MovePlan where
  src : Nat
  dst : Nat
  cs : List (BitVec 32)
  cd : List (BitVec 32)
  loge : Nat
  logr : Nat
  sat : Bool
  seq : Nat
  deriving DecidableEq, Repr

/-- One element on its way to a destination view: logical coordinates, source type, code and scale, and its poison mark. -/
structure Item where
  cs : List Int
  ty : Nat
  code : Nat
  scale : Option Nat := none
  poison : Bool := false
  deriving DecidableEq, Repr

/-- What an outstanding move-slot operation still has to do (R108 to R111, R166): a MOVE its copy; an MSEND its copy to
tile `dtile` and the count in `actr`; an MSEND whose last byte has left the sender, so that its tag counts it no longer, the
arrival of what it sent; a MOVE into the atomic port that waits for its source, its slots; one whose slots are written, its
requests; an HDISP its hen operation. -/
inductive OutKind where
  | move (p : MovePlan)
  | msend (p : MovePlan) (dtile actr : Nat)
  | sent (p : MovePlan) (dtile actr : Nat) (items : List Item)
  | slots (p : MovePlan)
  | atomics
  | hdisp (op : Nat)
  deriving DecidableEq, Repr

/-- An outstanding move-slot operation: a number of its own within the command, its tag and its kind. -/
structure OutOp where
  id : Nat
  tag : Nat
  kind : OutKind
  deriving DecidableEq, Repr

/-- An atomic request written into a slot and not yet performed (R166, R169): slot, whole granule written or not, the
operation of the tile that wrote it, the destination handle, the issue number of its MOVE, and the slot's 64 bytes as that
MOVE left them. -/
structure AtomReq where
  slot : Nat
  whole : Bool
  op : Nat
  handle : Nat
  seq : Nat
  data : List Byte
  deriving DecidableEq, Repr

/-- The state of one tile (Table 4-1). `issued` lists the slots of the current bundle already issued; `preV`, `preC`
keep what they wrote as it stood before the bundle (R91). -/
structure Tile where
  cmd : Option Nat := none
  rank : Nat := 0
  nt : Nat := 0
  routine : Nat := 0
  bundle : Nat := 0
  issued : List Nat := []
  written : List Nat := []
  ended : Bool := false
  atBarrier : Bool := false
  stopped : Bool := false
  args : List (BitVec 13) := []
  vregs : Tab (List Elem) := []
  preV : Tab (List Elem) := []
  lanes : Tab Lane := []
  openAcc : Option OpenAcc := none
  inflight : List Inflight := []
  cursors : Tab (List (BitVec 32)) := []
  loops : List LoopLevel := []
  frames : List Frame := []
  outs : List OutOp := []
  nextOp : Nat := 0
  atoms : List AtomReq := []
  arrival : Tab (BitVec 24) := []
  deriving DecidableEq, Repr

/-- A routine as the routine store and an instruction buffer hold it (Tables 4-9, 4-10, R117), with what the loader
recorded: the routines its closure reaches, and the direct handles and argument positions written in it (R118). -/
structure Routine where
  num : Nat
  rver : Nat
  bundles : List (BitVec 256)
  records : List (BitVec 256)
  handles : List Nat
  closure : List Nat
  writeHandles : List Nat
  writeArgs : List Nat
  closureBytes : Nat
  deriving DecidableEq, Repr

/-- A library in force (R116, R118): its key, version, routines and the SHA-384 of its signed bytes (Table 14-12). -/
structure Library where
  keyid : Nat
  libVer : Nat
  routines : List Routine
  digest : BitVec 384
  deriving DecidableEq, Repr

/-- What an element read gave: its code, its block scale's code, and the worst read outcome (0 good, 1 poison, 2 and 3 a
fresh uncorrectable error, Table 7-9). -/
structure ElemRead where
  code : Nat
  scale : Option Nat
  out : Nat
  deriving DecidableEq, Repr

/-- Where one element of a hen operand lies: its physical address (none where no address is generated), the nibble of an
E2M1 element, and the address of its block's scale. -/
structure HenElem where
  addr : Option Nat
  hi : Bool
  scale : Option Nat
  deriving DecidableEq, Repr

/-- One row of a hen operand (R190): its row number, the device hen that holds it (none where it generates no address), its
elements, and the addresses of its outputs (none where a write is discarded) with those of its second output. -/
structure HenRow where
  row : Nat
  hen : Option Nat
  elems : List HenElem
  outs : List (Option Nat)
  aux : List (Option Nat)
  deriving DecidableEq, Repr

/-- A hen operation dispatched and not yet finished (R189 to R199): the command, tile and outstanding operation that
dispatched it, HENOP, its parameter block, its extents (Table 7-4) and element types of H1, H2 and P0, whether H1 and H2
carry block scales, its rows, its input, for HATTN the output addresses by stack index and head, the stacks it reaches, its
hens, and how far it has come: its start time reached, row maxima exchanged with the scores of pass 1 (by position, by
head), row steps left and rows whose results are written, by hen. -/
structure HenOp where
  id : Nat
  cmd : Nat
  tile : Nat
  outId : Nat
  kind : Nat
  block : Rec
  dims : List Nat
  types : List Nat
  scaled : Bool × Bool
  rows : List HenRow
  input : List (List ElemRead)
  outO : List (List (Option Nat))
  outM : List (List (Option Nat))
  stks : List Nat
  hens : List Nat
  started : Bool
  exchanged : Bool
  rowMax : List (W32 × Bool)
  scores : List (List (W32 × Bool))
  stepsLeft : Tab Nat
  rowsDone : Tab Nat := []
  idle : List Nat := []
  deriving DecidableEq, Repr

/-- An access of another engine queued behind a hen operation (R202): who made it, where, what it writes (`none` for a
read), its length, the windows it has waited, the ns its completion is held by the meter (R330), and the position in the
arrival order of submissions that it arrived before (R160). -/
structure Access where
  func : Nat
  addr : Nat
  len : Nat
  data : Option (List Byte)
  windows : Nat
  held : Nat
  stamp : Nat := 0
  deriving DecidableEq, Repr

/-- The state of one compute stack that is not a register: accesses queued per pseudo-channel, the next row each
refresh period covers, the scrubber's position per pseudo-channel, the pseudo-channels done in this lap and when it
began, samples towards a lower band, samples at or above 115 °C, retired regions (address, length), whether it is
retraining on its own, whether its bitmap still has to be cleared, the log entries whose threshold was reported, and when
its last training began (R202, R209 to R211, R341, R342, R345, R346, R351, R358). -/
structure Stack where
  accQ : Tab (List Access) := []
  refreshRow : Tab Nat := []
  scrubAt : Tab Nat := []
  lapDone : List Nat := []
  lapStart : Nat := 0
  lapLate : Bool := false
  below : Nat := 0
  hot : Nat := 0
  retired : List (Nat × Nat) := []
  retraining : Bool := false
  unclear : Bool := false
  threshSeen : List Nat := []
  ifDown : Bool := false
  trainAt : Nat := 0
  deriving DecidableEq, Repr

end Sys2Proof.Machine
end

