-- ==== Sys2Proof/Machine/State/Platform.lean ====
section
/-! DEFINITION. The state of the host interface and the pins, of power and temperature control and of the units' service
that is not a register (15_host_link_and_package.md; 13_power_clocks_thermal.md; 12_faults_and_recovery.md; 11 R326 to
R330). -/

namespace Sys2Proof.Machine

/-- What a function's PCI configuration space says that the device acts on (R326, R428, R423, R323). -/
structure FnCfg where
  busMaster : Bool := false
  msixEnable : Bool := false
  msixMask : Bool := false
  d3 : Bool := false
  deriving DecidableEq, Repr

/-- One MSI-X table entry with its pending bit (R326). PCI Express resets a vector to masked. -/
structure Vector where
  addr : Nat := 0
  data : Nat := 0
  masked : Bool := true
  pend : Bool := false
  deriving DecidableEq, Repr

/-- What an outstanding device read of host memory is for (R427): a started command, a move-slot operation, the head of
queue k or, for k = 128 + t, the next instruction of tile t (R89, R176), or an entry's token list. -/
inductive ReadFor where
  | cmd (c : Nat)
  | op (tile id : Nat)
  | head (k : Nat)
  | tokens (entry : Nat)
  deriving DecidableEq, Repr

/-- An outstanding device read: requester function, host bus address, length, purpose, the virtual address and handle a
failure reports, and the DEV_TIME it was sent. -/
structure OutRead where
  func : Nat
  addr : Nat
  len : Nat
  purpose : ReadFor
  vaddr : Nat
  handle : Nat
  sentAt : Nat
  deriving DecidableEq, Repr

/-- What leaves the host interface: a posted write of data, of a record or of ring state, with its EP mark, Relaxed Ordering
and No Snoop (R176); an MSI-X message; the data of a read (with its EP mark and the extra time in ns its completion was
held, R330), a successful completion without data, or an Unsupported Request. -/
inductive HostOut where
  | posted (func addr : Nat) (data : List Byte) (ep relaxed noSnoop : Bool)
  | message (func vec addr data : Nat)
  | readData (func : Nat) (data : List Byte) (poisoned : Bool) (heldNs : Nat)
  | unsupported (func : Nat)
  | poisonReceived (func : Nat)
  | resetRead (func : Nat) (addr : Nat)
  deriving DecidableEq, Repr

/-- The token bucket of R330 of one partition: bytes available, and when it was last refilled. -/
structure Bucket where
  level : Nat := 65536
  refilled : Nat := 0
  beyond : Nat := 0
  deriving DecidableEq, Repr

/-- Where the power-on or warm sequence of Table 15-6 stands: no AON supply; booted and waiting for RAILS_GOOD; rails
good, stacks training; complete. -/
inductive BootPhase where
  | off | waitRails | training | complete
  deriving DecidableEq, Repr

/-- The host interface, the pins of Table 15-7, and the sequence of R435. `wakeN`, `thermtripN` hold the pin level; `wakeAt` says when WAKE_N
was driven low; `warm` says that the sequence runs after a warm reset;
`bar4` holds the BAR4 accesses that wait for an earlier one of their function (R173). -/
structure Hif where
  phase : BootPhase := .off
  perstN : Bool := false
  railsGood : Bool := false
  pgStk : Bool := false
  pgCore : Bool := false
  wakeN : Bool := true
  wakeAt : Nat := 0
  thermtripN : Bool := true
  dbgOpen : Bool := false
  perstFellAt : Nat := 0
  warm : Bool := false
  fns : Tab FnCfg := []
  vecs : Tab Vector := []
  vfEnable : Bool := false
  numVfs : Nat := 0
  bar4Log2 : Nat := 40
  maxPayload : Nat := 128
  maxReadReq : Nat := 512
  cplRange : Nat := 0
  reads : List OutRead := []
  out : List HostOut := []
  buckets : Tab Bucket := []
  bar4 : List Access := []
  ideKeys : List Bool := []
  deriving DecidableEq, Repr

/-- One learned phase (R383): its key, its power in 10 mW, and when it was last used. -/
structure Phase where
  key : Nat
  p : Nat
  used : Nat
  deriving DecidableEq, Repr

/-- The power controller: power samples of the last 1 ms in mW, newest first (package, rails), consecutive samples with AVG above
110 % of the cap, the learned phases by index (R383), running sums per sector for mean rail power and mean rate (power, rate,
samples) and what they were when each partition's decode step or slice began, the supply limit of each sector, droop holds of the
last 64 us (sector, time, ns) and sectors now in a droop, thermal limits of R389, the low state an entry commits to (R371), the
wake source waiting for the end of an entry and the state a wake left (R375), and what a save will record (R392). -/
structure Pwr where
  samples : List (Nat × List Nat) := []
  overCap : Nat := 0
  phases : Tab Phase := []
  sums : Tab (Nat × Nat × Nat) := []
  runs : Tab (Tab (Nat × Nat × Nat)) := []
  supplyCap : Tab Nat := []
  droopHolds : List (Nat × Nat × Nat) := []
  drooping : List Nat := []
  entering : Option Nat := none
  wakeWaits : Nat := 0
  wakeFrom : Nat := 0
  sagTrigger : Nat := 0
  sagTrip : List Nat := []
  deriving DecidableEq, Repr

/-- One ring-oscillator monitor (R386 to R388): latest readings, newest first, in 0.25 °C; the calibration point (count,
mV, 0.25 °C); consecutive samples 25 °C from its sector's mean. -/
structure Mon where
  hist : List Int := []
  nCal : Int := 0
  vCal : Int := 0
  tCal : Int := 0
  apart : Nat := 0
  deriving DecidableEq, Repr

/-- The thermal response of one sector (R389): its throttle and rise limits, when the throttle last stepped or its sector cooled,
whether it is cool, when every rise was last at or above RISE_WARN, and whether the freeze and the RISE_ACT limit are held, with
the rate frozen. -/
structure ThmSect where
  throttle : Nat := 64
  steppedAt : Nat := 0
  cool : Bool := false
  warnAt : Nat := 0
  freeze : Option Nat := none
  act : Bool := false
  deriving DecidableEq, Repr

/-- Temperature control: the monitors, the sectors' responses, and since when package power has stayed below 10 % of the cap
(R387). -/
structure Thm where
  mons : Tab Mon := []
  sects : Tab ThmSect := []
  lowPowerSince : Option Nat := none
  deriving DecidableEq, Repr

/-- A unit's service as RAS_UNIT_STATE codes it (Table 12-9): 0 IN_SERVICE, 1 OUT_OF_SERVICE, 2 RETIRED, 3 RETURNING;
its reason; whether a retirement record exists. -/
structure UnitSt where
  state : Nat := 0
  reason : Nat := 0
  persisted : Bool := false
  deriving DecidableEq, Repr

/-- Unit service by unit code (kind × 512 + index), and the units that a reset in progress still has to take out
(R358 phase 6). -/
structure Ras where
  units : Tab UnitSt := []
  pendingOos : List (Nat × UnitId) := []
  deriving DecidableEq, Repr

end Sys2Proof.Machine
end

