-- ==== Sys2Proof/Machine/State/Queue.lean ====
section
/-! DEFINITION. The state of command queues, started commands, completion entries, partitions and sectors
(05_command_queues.md; 06_memory_ordering.md R153; 11_partitions_and_virtual_functions.md; 12_faults_and_recovery.md). -/

namespace Sys2Proof.Machine

/-- A write that has passed through the serialising writer (R71, R67): its handle, the keys of the write order (logical
index, rank, issue number), where it went, the destination's element type, whether it is summed (R68), and its code, which
for a sum into FP32 or BF16 is the contribution's FP32 word. -/
structure SerialWrite where
  handle : Nat
  index : Nat
  rank : Nat
  seq : Nat
  addr : Nat
  nibble : Option Bool
  vaddr : Nat
  elem : Nat
  accum : Bool
  val : Nat
  poison : Bool
  deriving DecidableEq, Repr

/-- What an element under ACCUMULATE held before the command's first contribution to it (R68): its location, its code and
whether it was poison. -/
structure OldCode where
  addr : Nat
  code : Nat
  poison : Bool
  deriving DecidableEq, Repr

/-- Why a started command is still in its start: passed the checks and waits (a fold command for its period, R302; a
LIB_LOAD for earlier programs, R119), or runs, or has been told to stop. -/
inductive CmdPhase where
  | waiting | running | stopping | finished
  deriving DecidableEq, Repr

/-- A started command (R141) or a serving-engine step run as one (R232): its record, what it latched, and its outcome so far
(Table 5-7); with what it read at its start: descriptors (R47) and scatter lists by handle (R66); what its writes through the
serialising writer have been, and what the elements they sum into held before; and when the detection of its timeout
was (R144). -/
structure Cmd where
  id : Nat
  queue : Nat
  serving : Bool := false
  part : Nat
  func : Nat
  word : Rec
  start : Nat
  phase : CmdPhase := .running
  status : Byte := 0
  faultAt : Option Nat := none
  handle : Nat := 0
  vaddr : Nat := 0
  detail : Nat := 0
  aflags : Byte := 0
  poisonWritten : Bool := false
  tiles : List Nat := []
  rc : List Nat := []
  descs : Tab Rec := []
  lists : Tab (List Nat) := []
  skips : Nat := 0
  skipSeen : List (Nat × Nat × Nat × Nat) := []
  serial : List SerialWrite := []
  olds : List OldCode := []
  nextSeq : Nat := 0
  engines : List UnitId := []
  slot : Nat := 0
  fold : Bool := false
  foldEnded : Bool := false
  foldGap : Bool := false
  foldStop : Bool := false
  sums : Tab (Nat × Nat × Nat) := []
  bypass : Nat × Nat := (0, 0)
  expiredAt : Nat := 0
  deriving DecidableEq, Repr

/-- A produced token waiting for its handover (R233): its value, its index and the flags of its step. -/
structure TokenOut where
  token : W32
  index : Nat
  aflags : Byte
  deriving DecidableEq, Repr

/-- A record ready for its ring (R142, R147, R234): the group whose completion entry holds it (`none` for a request
record), its ring, IRQ_NOW, whether its STATUS is other than OK, its 256 bits with PHASE 0, whether it found its ring full
(R148), the request-table entry it belongs to, whether it is that request's final record, and, for a token not yet judged
(R235), the token. -/
structure Ready where
  group : Option Nat
  ring : Nat
  irqNow : Bool
  notOk : Bool
  word : BitVec 256
  held : Bool := false
  queue : Nat := 0
  entry : Option Nat := none
  final : Bool := false
  tok : Option TokenOut := none
  deriving DecidableEq, Repr

/-- What host memory has answered to a head, or to a tile's next instruction, that waits for reads of descriptors or lists
(R89, R176): the granules that have come, and the handle and virtual address of a read that failed. -/
structure Fetched where
  got : List Nat := []
  failed : Option (Nat × Nat) := none
  deriving DecidableEq, Repr

/-- The command queues: records in queue storage per queue (R130) with the position of each in the arrival order of all
submissions (R79), and the position of the next; by queue, a fold command at the head that has passed its start checks
(R302); what host memory has answered to the head of queue q (at q) and to tile t (at 128 + t); per partition, the queue number
from which its next start is looked for (R140); started commands in start order, the next command number, records ready for
their rings in order, and per ring the records written since it last signalled and when
its timer started (R149). -/
structure Cq where
  storage : Tab (List Rec) := []
  stamps : Tab (List Nat) := []
  nextStamp : Nat := 0
  checked : Tab Cmd := []
  fetched : Tab Fetched := []
  turns : Tab Nat := []
  cmds : List Cmd := []
  nextId : Nat := 0
  ready : List Ready := []
  modCount : Tab Nat := []
  modStart : Tab Nat := []
  deriving DecidableEq, Repr

/-- State of a sector that is not a register: the library in its routine store (R82), its write buffer oldest first
(R153), and since when it has been idle. -/
structure Sector where
  lib : Option Library := none
  wbuf : List PWrite := []
  idleSince : Nat := 0
  deriving DecidableEq, Repr

/-- A suspect (R354, R356): its context, queue, opcode and SEQ, whether it is a serving step, the first hung engine it
used, the outcome and status of its replay, the engines that did not stop in it, its started record, and of a serving step the counts
it latched. -/
structure Suspect where
  ctx : Nat
  queue : Nat
  serving : Bool
  opcode : Nat
  seq : Nat
  engine : UnitId
  outcome : Nat
  status : Byte
  hung : List UnitId
  cmd : Option Cmd
  counts : List Nat := []
  deriving DecidableEq, Repr

/-- The phases of Table 12-6 that commands of the table separate. -/
inductive ResetPhase where
  | none | records | replay | restored
  deriving DecidableEq, Repr

/-- State of a partition that is not a register: the phase of the reset in progress, when it began, its suspects in start
order and how many were replayed, when the slice entry in force ends, its context mask and whether none is in force (R320),
whether a reset waits for ACTIVE (R378), the command replayed now, when that replay began, and the trigger of the reset
(Table 12-5). -/
structure Part where
  phase : ResetPhase := .none
  resetAt : Nat := 0
  cause : Nat := 0
  suspects : List Suspect := []
  replayed : Nat := 0
  sliceEnd : Nat := 0
  sliceIdle : Bool := false
  sliceMask : Nat := 0
  replaying : Option Nat := none
  replayAt : Nat := 0
  trigger : Nat := 0
  resetWaits : Bool := false
  resetWaitCause : Nat := 0
  deriving DecidableEq, Repr

end Sys2Proof.Machine
end

