-- ==== Sys2Proof/Machine/State/Serving.lean ====
section
/-! DEFINITION. The state of the serving engine (08_requests_and_promises.md; 09_attention_kv_and_variants.md). -/

namespace Sys2Proof.Machine

/-- Request states (Table 8-2). -/
inductive ReqState where
  | free | admitted | prefill | decode | held | closing
  deriving DecidableEq, Repr

/-- One entry of a request's page list (Table 9-1): VALID, SHARED and the page's virtual address. -/
structure PageEnt where
  valid : Bool
  shared : Bool
  page : Nat
  deriving DecidableEq, Repr

/-- A request-table entry: the fields of Table 8-1, and what the serving engine keeps alongside it (its charges of R224
and R226, its prompt, its page list, its shared nodes, the block under earmark, produced tokens, records held by R235,
the causes of R236 met since the previous handover, the colt's count of R260, and whether it left PREFILL in the cycle in
progress, R232). -/
structure Entry where
  state : ReqState := .free
  prio : Nat := 0
  part : Nat := 0
  slot : Nat := 0
  deltaEn : Bool := false
  delta : Nat := 0
  sample : Bool := false
  seq : W32 := 0
  plen : Nat := 0
  glen : Nat := 0
  pos : Nat := 0
  gen : Nat := 0
  pfxNode : Option Nat := none
  coltMax : Nat := 0
  colt : Nat := 0
  home : Nat := 0
  cause : Nat := 0
  ring : Nat := 0
  func : Nat := 0
  lastToken : W32 := 0
  deadline : Nat := 0
  eos : W32 := 0
  pages : Nat := 0
  npages : Nat := 0
  resv : Nat := 0
  temp : W32 := 0
  seed : W32 := 0
  ctx : Nat := 0
  tokensVa : Nat := 0
  pkey : Nat := 0
  order : Nat := 0
  dec : Nat := 0
  pf : Nat := 0
  pfHeld : Bool := false
  charged : Bool := false
  prompt : List W32 := []
  output : List W32 := []
  plist : List PageEnt := []
  nodes : List Nat := []
  priv : List Nat := []
  earmark : List Nat := []
  nextStack : Nat := 0
  before : ReqState := .prefill
  outs : List TokenOut := []
  cancelled : Bool := false
  causes : List Nat := []
  rejects : Nat := 0
  fresh : Bool := false
  deriving DecidableEq, Repr

/-- A prefix-tree node (R250): key, parent, slot, delta version, tokens, pages, references, last use and BAD. -/
structure Node where
  part : Nat
  key : BitVec 64
  parent : Option Nat
  slot : Nat
  delta : Option Nat
  tokens : List W32
  pages : List Nat
  refs : Nat
  lastUse : Nat
  bad : Bool
  deriving DecidableEq, Repr

/-- Delta version states (Table 9-6). -/
inductive VerState where
  | free | loading | live | retiring | train
  deriving DecidableEq, Repr

/-- A delta version (R268): state, slot, lineage, references, blocks, base and bytes of its range, and its partition. -/
structure Version where
  state : VerState := .free
  slot : Nat := 0
  part : Nat := 0
  lineage : Nat := 0
  refs : Nat := 0
  nb : Nat := 0
  base : Nat := 0
  bytes : Nat := 0
  deriving DecidableEq, Repr

/-- The answer standing in a submission slot (Table 8-6). -/
structure Answer where
  answer : Nat := 0
  reason : Nat := 0
  entry : Nat := 0
  seq : W32 := 0
  arrival : Nat := 0
  first : Nat := 0
  cadence : Nat := 0
  need : Nat := 0
  deriving DecidableEq, Repr

/-- A decode step of a slot, or a prefill slice, that has run in a period and waits for its end (R302, R304). -/
inductive FoldRun where
  | step (slot : Nat) (results : List StepResult)
  | slice (results : List SliceResult)
  deriving DecidableEq, Repr

/-- The serving engine: request table, answers by function × 256 + slot, prefix-tree nodes, delta versions, current
version per lineage (R268), accepts so far (the admission order of R232), the rotation of R239 per partition, arena pages
in use per partition, the partitions whose cycle is in progress with their start, the runtime counts RC5 to RC7 that each
partition's latest step or slice latched (R200), and each function's selection and copy made by the select registers (R451). Of a
partition in the fold: the beat at which its next step or slice starts, and the step or slice that has run in the current period,
whose outcome the end of the period settles (R302, R304). -/
structure Srv where
  entries : Tab Entry := []
  answers : Tab Answer := []
  nodes : Tab Node := []
  versions : Tab Version := []
  current : Tab Nat := []
  accepts : Nat := 0
  rotation : Tab Nat := []
  arena : Tab (List Nat) := []
  cycles : Tab Nat := []
  stepsDone : Tab (List Nat) := []
  counts : Tab (List Nat) := []
  foldFrom : Tab Nat := []
  foldRuns : Tab FoldRun := []
  rtCopy : Tab (List W32) := []
  deltaCopy : Tab (List W64) := []
  deriving DecidableEq, Repr

end Sys2Proof.Machine
end

