-- ==== Sys2Proof/Machine/State.lean ====
section
/-! DEFINITION. The state of the device, its faults and refusals, and its state at reset.

Registers are held once, in `regs`, by BAR0 address; an address that is absent holds its Reset column
(Sys2Proof/Machine/RegMap.lean). Every other piece of state has a field of its own. The commands that wait are
`pending`, first in, first out. -/

namespace Sys2Proof.Machine

/-- The accounting of committed low-state entries, refusals apart, and of pad holds (R370, R373, R376, R377):
PWR_LOW_CNT.LULL, PWR_LOW_CNT.FALLOW, PWR_RELEASE_CNT.RELEASE and PWR_STATE.PAD_HELD. -/
structure Pads where
  lull : BitVec 16 := 0
  fallow : BitVec 16 := 0
  release : BitVec 16 := 0
  held : Bool := false
  deriving DecidableEq, Repr

/-- Everything the commands change that is neither the queue, nor pad accounting, nor identity: DEV_TIME in ns; the
register file; the words latched by low-word reads and the low words held by R447, by function; the memories (stacks by
device physical address, tile SRAM, sector SRAM, atomic slots, the image of host memory); queues and commands; tiles, hen
operations and stacks; sectors, partitions and the sectors a layout change is on; the serving engine; the fabric; power,
temperature, unit service, gander, host interface; flipped bits standing in on-die arrays; and the counter that free
values are drawn by. -/
structure Dev where
  time : Nat := 0
  regs : Tab W64 := []
  latched : Tab (Nat × Nat) := []
  heldLow : Tab (Nat × Nat) := []
  stk : Memory := {}
  tram : Memory := {}
  sram : Memory := {}
  slots : Memory := {}
  host : Memory := {}
  cq : Cq := {}
  tiles : Tab Tile := []
  henOps : List HenOp := []
  nextHenOp : Nat := 0
  cs : Tab Stack := []
  sect : Tab Sector := []
  parts : Tab Part := []
  layoutOn : List Nat := []
  srv : Srv := {}
  fab : Fab := {}
  pwr : Pwr := {}
  thm : Thm := {}
  ras : Ras := {}
  gan : Gander := {}
  hif : Hif := {}
  upsets : List Upset := []
  free : Nat := 0
  deriving DecidableEq, Repr

/-- The state of the block: the commands waiting, the pad accounting, the identity and the rest of the device. -/
structure State where
  pending : List Instr := []
  pads : Pads := {}
  ident : Ident := {}
  dev : Dev := {}
  deriving DecidableEq, Repr

/-- Why the machine stops. No meaning of this model raises a fault: every command of the table has an effect that the
spec states, and an event that its unit's state rules out leaves the state as it is (log entry 2). -/
inductive Fault where
  /-- Raised by nobody; it stands for a state from which the spec gives no step. Safe. -/
  | noStep
  deriving DecidableEq, Repr

/-- Why a command has no meaning. -/
inductive Refusal where
  /-- Raised by an arm of `exec` that has no meaning yet, with the mnemonic of its row. Safe. -/
  | notModelled (mnemonic : String)
  deriving DecidableEq, Repr

/-- The machine before power-on: no supply is on, nothing is queued, every register holds its Reset column, and every
memory reads as 0 (R433 to R435; fields the Reset column shows as loaded are 0 until POWER_ON, log entry 3). -/
def State.reset : State := {}

/-- The state with the device part changed. -/
def State.onDev (s : State) (f : Dev → Dev) : State := { s with dev := f s.dev }

end Sys2Proof.Machine
end

