-- ==== Sys2Proof/Machine/Regs.lean ====
section
/-! DEFINITION. The register file of BAR0: pages (16_register_pages.md Table 16-1), register rows, reading and changing a
register or a field, counters, partition layout, event bits and MSI-X messages (11 R326 to R328; 15 R428). -/

namespace Sys2Proof.Machine

/-! ## Pages and rows -/

/-- The page at a BAR0 offset that begins a page: block type, instance, page index and its registers (Table 16-1). -/
def pageInfo (b : Nat) : Option (Nat × Nat × Nat × List RegRow) :=
  if b = 0x0 then some (0, 0, 0, rows_dev)
  else if b = 0x1000 then some (1, 0, 0, rows_hif)
  else if b = 0x10000 then some (2, 0, 0, rows_cq)
  else if 0x11000 ≤ b ∧ b < 0x15000 then some (2, 0, 1 + (b - 0x11000) / 0x1000, rows_cqQ)
  else if 0x15000 ≤ b ∧ b < 0x19000 then some (2, 0, 5 + (b - 0x15000) / 0x1000, rows_cqR)
  else if 0x100000 ≤ b ∧ b < 0x1C0000 then
    let k := (b - 0x100000) / 0x20000
    let j := (b - 0x100000) % 0x20000
    if j = 0 then some (3, k, 0, [])
    else if j = 0x1000 then some (3, k, 1, rows_sectPart)
    else if j = 0x4000 then some (3, k, 4, rows_sectThk)
    else none
  else if 0x400000 ≤ b ∧ b < 0x4C0000 then
    let n := (b - 0x400000) / 0x10000
    let j := (b - 0x400000) % 0x10000
    if j = 0 then some (4, n, 0, rows_cs0)
    else if j = 0x1000 then some (4, n, 1, rows_cs1)
    else none
  else if b = 0x800000 then some (5, 0, 0, rows_fab)
  else if 0x801000 ≤ b ∧ b < 0x861000 then some (5, 0, 1 + (b - 0x801000) / 0x1000, rows_fabLink)
  else if b = 0xC00000 then some (6, 0, 0, rows_srv0)
  else if 0xC01000 ≤ b ∧ b < 0xC07000 then some (6, 0, (b - 0xC00000) / 0x1000, rows_srvCoef)
  else if b = 0xC07000 then some (6, 0, 7, rows_srv7)
  else if b = 0xC08000 then some (6, 0, 8, rows_srv8)
  else if b = 0xC09000 then some (6, 0, 9, rows_srv9)
  else if b = 0xD00000 then some (7, 0, 0, rows_pwr)
  else if b = 0xD80000 then some (8, 0, 0, rows_thm)
  else if b = 0xE00000 then some (9, 0, 0, rows_ras)
  else if b = 0xF00000 then some (10, 0, 0, rows_mgmt)
  else none

/-- The first byte of the page that holds a BAR0 offset. -/
def pageOf (off : Nat) : Nat := off / 4096 * 4096

/-- Whether a register row covers the in-page offset `o`. -/
def RegRow.covers (r : RegRow) (o : Nat) : Bool :=
  r.off ≤ o && (if r.count ≤ 1 then o < r.off + r.size
    else o < r.off + r.stride * r.count && (o - r.off) % r.stride < r.size)

/-- The register row of a BAR0 offset and the offset at which that register begins (R443: outside the map, none). -/
def findReg (off : Nat) : Option (RegRow × Nat) :=
  match pageInfo (pageOf off) with
  | none => none
  | some (_, _, _, rows) =>
    let o := off % 4096
    let rs := if o < 0x40 then rows_HDR else rows
    match rs.find? (fun r => r.covers o) with
    | none => none
    | some r =>
      some (r, pageOf off + (if r.count ≤ 1 then r.off else r.off + (o - r.off) / r.stride * r.stride))

/-- The Reset column of the register at an address. -/
def resetOf (a : Nat) : W64 :=
  match findReg a with
  | some (r, b) => if a = b then BitVec.ofNat 64 r.rst else 0
  | none => 0

/-- The entry of a sparse table at `k`. -/
def tfind {α : Type} (t : Tab α) (k : Nat) : Option α :=
  match t.find? (fun e => e.1 == k) with
  | some e => some e.2
  | none => none

/-- The value the register file holds for the register at `a` (what reads compute is added by `Dev.readReg`). -/
def Dev.reg (d : Dev) (a : Nat) : W64 :=
  match tfind d.regs a with
  | some v => v
  | none => resetOf a

/-- The register file with the register at `a` set. -/
def Dev.setReg (d : Dev) (a : Nat) (v : W64) : Dev := { d with regs := tset d.regs a v }

/-- The register file with a register set, as a function of its value. -/
def Dev.modReg (d : Dev) (a : Nat) (f : W64 → W64) : Dev := d.setReg a (f (d.reg a))

/-- A field of a register. -/
def Dev.getF (d : Dev) (a : Nat) (f : Fld) : Nat := fld (d.reg a) f

/-- A register with one field set. -/
def Dev.putF (d : Dev) (a : Nat) (f : Fld) (x : Nat) : Dev := d.setReg a (putFld (d.reg a) f x)

/-- A saturating counter field, advanced by `n`. -/
def Dev.addF (d : Dev) (a : Nat) (f : Fld) (n : Nat) : Dev := d.putF a f (satAdd f.len (d.getF a f) n)

/-- A free-running counter field, advanced by `n`. -/
def Dev.rollF (d : Dev) (a : Nat) (f : Fld) (n : Nat) : Dev := d.putF a f (d.getF a f + n)

/-- The registers from `lo` up to `hi` back at their Reset column. -/
def Dev.resetRegs (d : Dev) (lo hi : Nat) : Dev :=
  { d with regs := d.regs.filter (fun e => !(lo ≤ e.1 && e.1 < hi)) }

/-- BLK_ERR_CNT of a page counts one access (R446). -/
def Dev.blkErr (d : Dev) (page : Nat) : Dev := d.addF (rBlkErrCnt page) fBlkErrCnt_Cnt 1

/-! ## Page bases -/

def pgDev : Nat := 0x0
def pgHif : Nat := 0x1000
def pgCqQ (q : Nat) : Nat := 0x11000 + 0x1000 * (q / 32)
def pgCqR (r : Nat) : Nat := 0x15000 + 0x1000 * (r / 32)
def pgPart (k : Nat) : Nat := 0x101000 + 0x20000 * k
def pgThk (k : Nat) : Nat := 0x104000 + 0x20000 * k
def pgCs0 (n : Nat) : Nat := 0x400000 + 0x10000 * n
def pgCs1 (n : Nat) : Nat := 0x401000 + 0x10000 * n
def pgFab : Nat := 0x800000
def pgLink (i : Nat) : Nat := 0x801000 + 0x1000 * i
def pgSrv (j : Nat) : Nat := 0xC00000 + 0x1000 * j
def pgPwr : Nat := 0xD00000
def pgThm : Nat := 0xD80000
def pgRas : Nat := 0xE00000
def pgMgmt : Nat := 0xF00000

/-! ## Partitions and sectors (R314) -/

/-- The partition that owns sector `k`, 7 for none (Table 11-5). -/
def Dev.sectPart (d : Dev) (k : Nat) : Nat := bitsOf (d.reg rSectPartLayout) (3 * k) 3

/-- The sectors of partition `p`, ascending. -/
def Dev.sectorsOf (d : Dev) (p : Nat) : List Nat := (List.range 6).filter (fun k => d.sectPart k == p)

/-- The lowest-numbered sector of partition `p`. -/
def Dev.firstSect (d : Dev) (p : Nat) : Option Nat := (d.sectorsOf p).head?

/-- The lowest-numbered sector of `p`, 0 standing for none. -/
def Dev.liveSect (d : Dev) (p : Nat) : Nat := (d.firstSect p).getD 0

/-- Whether partition `p` owns a sector. -/
def Dev.partExists (d : Dev) (p : Nat) : Bool := p < 6 && !(d.sectorsOf p).isEmpty

/-- Whether sector `k` is the lowest-numbered of its partition, so that its partition-level registers are live (R337). -/
def Dev.isLive (d : Dev) (k : Nat) : Bool := d.sectPart k < 6 && d.firstSect (d.sectPart k) == some k

/-- The stacks of partition `p`, ascending (R314). -/
def Dev.stacksOf (d : Dev) (p : Nat) : List Nat := (d.sectorsOf p).flatMap (fun k => [2 * k, 2 * k + 1])

/-- The partition that owns stack `n`. -/
def Dev.stackPart (d : Dev) (n : Nat) : Nat := d.sectPart (n / 2)

/-- Whether partition `p` is in reset (R332). -/
def Dev.inReset (d : Dev) (p : Nat) : Bool := (tget d.parts {} p).phase != .none

/-- The partition a VF is bound to, 7 for none (Table 11-7). -/
def Dev.vfPart (d : Dev) (v : Nat) : Nat := d.getF (rSectVfBind v) fSectVfBind_Part

/-! ## Contexts (R318) -/

/-- CTX_CFG of context `c` of partition `p`. -/
def Dev.ctxReg (d : Dev) (p c : Nat) : Nat := rSectCtxCfg (d.liveSect p) c

/-- Whether context `c` of partition `p` exists. -/
def Dev.ctxEn (d : Dev) (p c : Nat) : Bool :=
  d.partExists p && d.getF (d.ctxReg p c) fSectCtxCfg_En == 1

/-- The function that owns context `c` of partition `p`. -/
def Dev.ctxFunc (d : Dev) (p c : Nat) : Nat := d.getF (d.ctxReg p c) fSectCtxCfg_Func

/-! ## The host link -/

/-- The configuration of a function. -/
def Dev.fn (d : Dev) (f : Nat) : FnCfg := tget d.hif.fns {} f

/-- The MSI-X entry of a vector of a function (R326). -/
def Dev.vector (d : Dev) (f v : Nat) : Vector := tget d.hif.vecs {} (64 * f + v)

/-- Bus Master Enable of the PF and of the function (R428). -/
def Dev.masters (d : Dev) (f : Nat) : Bool := (d.fn 0).busMaster && (d.fn f).busMaster

/-- Whether the link carries what the device sends: L0 or L1, and Link IDE not Insecure (R428). -/
def Dev.linkCarries (d : Dev) : Bool :=
  (d.getF rHifLink fHifLink_State == 2 || d.getF rHifLink fHifLink_State == 4)
    && d.getF rHifIde fHifIde_State != 2

/-- Whether a posted write of function `f` can be sent (R428). -/
def Dev.canSend (d : Dev) (f : Nat) : Bool := d.masters f && d.linkCarries

def Dev.sendOut (d : Dev) (o : HostOut) : Dev := { d with hif := { d.hif with out := d.hif.out ++ [o] } }

/-- A message of vector `v` of function `f` is due: not sent while MSI-X Enable is clear, pending while masked or while a
Bus Master Enable is clear, dropped while the link does not carry it, else sent (R326, R428). -/
def Dev.sendMsg (d : Dev) (fv : Nat × Nat) : Dev :=
  let f := fv.1
  let v := fv.2
  let c := d.fn f
  let e := d.vector f v
  if !c.msixEnable then d
  else if c.msixMask || e.masked || !d.masters f then
    { d with hif := { d.hif with vecs := tset d.hif.vecs (64 * f + v) { e with pend := true } } }
  else if !d.linkCarries then
    (d.addF rHifTxDrop fHifTxDrop_Cnt 1).modReg (rBlkIntStat pgHif) (· ||| 8)
  else d.sendOut (.message f v e.addr e.data)

/-! ## Event bits -/

/-- The BLK_INT_STAT bits that a page defines (R444: bits the owning chapter does not define are RSV). -/
def definedBits (page : Nat) : Nat :=
  match pageInfo page with
  | none => 0
  | some (t, k, j, _) =>
    if t = 0 then 0x1
    else if t = 1 then 0x1F
    else if t = 2 then (if j = 0 then 0 else 0xFFFF_FFFF)
    else if t = 3 then (if j = 1 then (if k = 0 then 0x303 else 0x3) else if j = 4 then 0xFFFF_FFFF else 0)
    else if t = 4 then (if j = 0 then 0x1F else 0x3F)
    else if t = 5 then (if j = 0 then 0x1FF else 0)
    else if t = 6 then (if j = 0 then 0x13F3F else if j = 7 then 0xFFFF_FFFF else 0)
    else if t = 7 then 0x1F
    else if t = 8 then 0xF
    else if t = 9 then 0x3F1F
    else 0x7F

/-- The vector the PF takes a block type's events on (Table 11-9), when enabled. -/
def Dev.pfRoute (d : Dev) (t : Nat) : Option (Nat × Nat) :=
  let w := if t < 4 then d.reg rSectIrqRoute0 else if t < 8 then d.reg rSectIrqRoute1 else d.reg rSectIrqRoute2
  let b := bitsOf w (8 * (t % 4)) 8
  if b / 128 = 1 then some (0, b % 64) else none

/-- The function and vector that bit `i` of a page signals (Table 11-3). -/
def Dev.route (d : Dev) (page i : Nat) : Option (Nat × Nat) :=
  match pageInfo page with
  | none => none
  | some (t, k, j, _) =>
    if t = 2 ∧ 1 ≤ j ∧ j ≤ 4 then
      let q := 32 * (j - 1) + i
      let f := d.getF (rCqQCfg q) fCqQCfg_Func
      if f = 0 then d.pfRoute t
      else some (f, d.getF (rCqRCfg (d.getF (rCqQCfg q) fCqQCfg_Ring)) fCqRCfg_Vec)
    else if t = 2 ∧ 5 ≤ j then
      let r := 32 * (j - 5) + i
      let f := d.getF (rCqRCfg r) fCqRCfg_Func
      if f = 0 then d.pfRoute t else some (f, d.getF (rCqRCfg r) fCqRCfg_Vec)
    else if t = 3 ∧ j = 4 then
      let f := d.getF (rSectCtxCfg k (i % 16)) fSectCtxCfg_Func
      if f = 0 then d.pfRoute t else some (f, d.getF (rSectCtxCfg k (i % 16)) fSectCtxCfg_Vec)
    else d.pfRoute t

/-- The pairs of function and vector whose OR of (STAT AND EN) is 1 (R328). -/
def Dev.lines (d : Dev) : List (Nat × Nat) :=
  (d.regs.flatMap (fun e =>
    if e.1 % 4096 = 0x10 ∧ e.2 ≠ 0 then
      let page := e.1 - 0x10
      let on := (e.2 &&& d.reg (rBlkIntEn page)).toNat
      ((List.range 32).filter (fun i => on.testBit i)).filterMap (fun i => d.route page i)
    else []))
  ++ ((List.range 24).filterMap (fun j =>
    let w := d.reg (rSectVfEvent (j + 1))
    if (bitOf w 0 && bitOf w 16) || (bitOf w 1 && bitOf w 17) then
      some (j + 1, d.getF (rSectVfBind (j + 1)) fSectVfBind_Vec)
    else none))

/-- One message for every pair whose OR rose between two states of the device (R328). -/
def Dev.signal (before after : Dev) : Dev :=
  let was := before.lines
  ((after.lines.eraseDups).filter (fun l => !was.contains l)).foldl Dev.sendMsg after

/-- Event bits of a page set, and the messages this raises. -/
def Dev.raise (d : Dev) (page bits : Nat) : Dev :=
  Dev.signal d (d.modReg (rBlkIntStat page) (· ||| BitVec.ofNat 64 bits))

/-- The host link lost a posted write: HIF_TX_DROP and TX_DROP (R428, R441). -/
def Dev.txDrop (d : Dev) : Dev := (d.addF rHifTxDrop fHifTxDrop_Cnt 1).raise pgHif 8

end Sys2Proof.Machine
end

