-- ==== Sys2Proof/Machine/Ops.lean ====
section
/-! DEFINITION. The named operations over memories: bytes and granule flags in canonical form, the error log of a stack
(12 R340), the gander's event log (14 R405), reads and writes of stack memory (07 R204 to R208, 12 R342, R350, R352,
R364), of on-die SRAM (12 R338, R339) and of host windows (06 R176, 15 R428), the write buffers (06 R153), and how a
command meets a failure (04 R59, 05 R146). -/

namespace Sys2Proof.Machine

open Host (Cell)

/-! ## Bytes and flags -/

/-- The byte at an address: 0 where none is listed. -/
def cellAt : List Cell → Nat → Byte
  | [], _ => 0
  | (a, b) :: cs, x => if a = x then b else cellAt cs x

/-- The listed bytes with one byte written, addresses rising and no byte 0 listed. -/
def cellSet : List Cell → Nat → Byte → List Cell
  | [], x, v => if v = 0 then [] else [(x, v)]
  | (a, b) :: cs, x, v =>
    if x < a then (if v = 0 then (a, b) :: cs else (x, v) :: (a, b) :: cs)
    else if x = a then (if v = 0 then cs else (x, v) :: cs)
    else (a, b) :: cellSet cs x v

/-- The byte of a memory at an address. -/
def Memory.byte (m : Memory) (a : Nat) : Byte := cellAt m.cells a

/-- A memory with one byte written. -/
def Memory.put (m : Memory) (a : Nat) (v : Byte) : Memory := { m with cells := cellSet m.cells a v }

/-- `n` bytes of a memory. -/
def Memory.bytes (m : Memory) (a n : Nat) : List Byte := (List.range n).map (fun i => m.byte (a + i))

/-- A memory with bytes written from an address on. -/
def Memory.putBytes (m : Memory) : Nat → List Byte → Memory
  | _, [] => m
  | a, b :: bs => (m.put a b).putBytes (a + 1) bs

/-- The flag of the granule at an address that is a multiple of 64. -/
def Memory.flag (m : Memory) (g : Nat) : GranFlag := tget m.flags {} g

/-- A memory with the flag of a granule set; a flag that says nothing is not listed. -/
def Memory.setFlag (m : Memory) (g : Nat) (f : GranFlag) : Memory :=
  { m with flags := if f = {} then tdel m.flags g else tset m.flags g f }

/-- A memory without the bytes and flags from `lo` up to `hi`. -/
def Memory.clear (m : Memory) (lo hi : Nat) : Memory :=
  { cells := m.cells.filter (fun c => !(lo ≤ c.1 && c.1 < hi)),
    flags := m.flags.filter (fun c => !(lo ≤ c.1 && c.1 < hi)) }

/-- The canonical form of listed bytes: addresses strictly rising, no byte 0. -/
def cellsWf : List Cell → Bool
  | [] => true
  | [(_, b)] => b != 0
  | (a, b) :: (a', b') :: cs => b != 0 && a < a' && cellsWf ((a', b') :: cs)

/-- The canonical form of listed flags: granules strictly rising, no flag that says nothing. -/
def flagsWf : Tab GranFlag → Bool
  | [] => true
  | [(_, f)] => f != {}
  | (g, f) :: (g', f') :: t => f != {} && g < g' && flagsWf ((g', f') :: t)

/-- The canonical form of a memory. -/
def Memory.wf (m : Memory) : Bool := cellsWf m.cells && flagsWf m.flags

/-- The granule of an address. -/
def granOf (a : Nat) : Nat := a / 64 * 64

/-! ## Locations: one number for every place a device access can reach -/

def stackBytes : Nat := 0x12_0000_0000
def stackTop : Nat := 0xD8_0000_0000
def locTram (t off : Nat) : Nat := 2 ^ 48 + t * 2 ^ 21 + off
def locSram (k off : Nat) : Nat := 2 ^ 49 + k * 2 ^ 24 + off
def locSlot (t off : Nat) : Nat := 2 ^ 50 + t * 4096 + off
def locHost (busAddr : Nat) : Nat := 2 ^ 51 + busAddr

def isStk (l : Nat) : Bool := l < stackTop
def isTram (l : Nat) : Bool := 2 ^ 48 ≤ l && l < 2 ^ 49
def isSram (l : Nat) : Bool := 2 ^ 49 ≤ l && l < 2 ^ 50
def isSlot (l : Nat) : Bool := 2 ^ 50 ≤ l && l < 2 ^ 51
def isHost (l : Nat) : Bool := 2 ^ 51 ≤ l

/-- The sector whose engines write a location directly (R152, R153): none for a host window. -/
def homeSect (l : Nat) : Option Nat :=
  if isStk l then some (l / stackBytes / 2)
  else if isTram l then some ((l - 2 ^ 48) / 2 ^ 21 / 24)
  else if isSram l then some ((l - 2 ^ 49) / 2 ^ 24)
  else if isSlot l then some ((l - 2 ^ 50) / 4096 / 24)
  else none

/-! ## Stack addressing (R185, Table 7-1) -/

def stackOf (a : Nat) : Nat := a / stackBytes
def pcOf (a : Nat) : Nat := a % stackBytes / 0x1_0000 % 32
def pcLocal (a : Nat) : Nat := (a % stackBytes) / 2 ^ 21 * 0x1_0000 + a % stackBytes % 0x1_0000
def bankOf (a : Nat) : Nat := pcLocal a / 1024 % 48
def rowOf (a : Nat) : Nat := pcLocal a / 1024 / 48
def granInRow (a : Nat) : Nat := pcLocal a % 1024 / 64

/-- The device physical address of pseudo-channel-local address `a` of pseudo-channel `p` of stack `n`. -/
def physOf (n p a : Nat) : Nat := n * stackBytes + a / 0x1_0000 * 2 ^ 21 + p * 0x1_0000 + a % 0x1_0000

/-! ## The gander's event log (R405) -/

/-- A record joins the buffer, or is counted as lost when 4,096 wait there (R405). -/
def Dev.log (d : Dev) (typ : Nat) (payload : List Nat) : Dev :=
  if !d.gan.up then d
  else if d.gan.logBuf.length ≥ 4096 then
    (d.addF rMgmtLogLost fMgmtLogLost_Lost 1).raise pgMgmt 0x10
  else
    let s := (d.gan.logSeq + 1) % 2 ^ 32
    { d with gan := { d.gan with
        logBuf := d.gan.logBuf ++ [{ typ := typ, seq := s, time := d.time, payload := payload }], logSeq := s } }

/-! ## Unit service (R348 to R353) -/

def kindCode : UnitKind → Nat
  | .tile => 0 | .dma => 1 | .hen => 2 | .stack => 3 | .link => 4 | .sector => 5

def unitCode (u : UnitId) : Nat := kindCode u.kind * 512 + u.index

/-- A unit's service. -/
def Dev.unit (d : Dev) (u : UnitId) : UnitSt := tget d.ras.units {} (unitCode u)

def Dev.setUnit (d : Dev) (u : UnitId) (x : UnitSt) : Dev :=
  { d with ras := { d.ras with units := tset d.ras.units (unitCode u) x } }

/-- Whether a unit does not serve: out of service, retired or returning (R352, R353). -/
def Dev.unitGone (d : Dev) (k : UnitKind) (i : Nat) : Bool := (d.unit ⟨k, i⟩).state != 0

def Dev.unitRetired (d : Dev) (k : UnitKind) (i : Nat) : Bool := (d.unit ⟨k, i⟩).state == 2

/-- A unit in service leaves it, with a reason, and UNIT_OOS sets (R348). -/
def Dev.takeOut (d : Dev) (u : UnitId) (reason : Nat) : Dev :=
  if (d.unit u).state = 2 then d
  else (d.setUnit u { (d.unit u) with state := 1, reason := reason }).raise pgRas 8

/-! ## The error log of a stack (R340, R341) -/

def Dev.stackSt (d : Dev) (n : Nat) : Stack := tget d.cs {} n

def Dev.modStack (d : Dev) (n : Nat) (f : Stack → Stack) : Dev := { d with cs := tmod d.cs {} n f }

/-- The log entry that matches an event, by pseudo-channel, bank, row and class. -/
def Dev.logMatch (d : Dev) (n pc bank row : Nat) (uncorr : Bool) : Option Nat :=
  (List.range 32).find? (fun i =>
    let a := d.reg (rCsErrLogA n i)
    fld a fCsErrLogA_Valid == 1 && fld a fCsErrLogA_Pc == pc && fld a fCsErrLogA_Bank == bank
      && fld a fCsErrLogA_Row == row && (fld a fCsErrLogA_Kind % 2 == 1) == uncorr)

/-- The entry an event with no match takes: the lowest invalid one, else for an uncorrectable event the correctable entry
of lowest COUNT, the lowest index among equals. -/
def Dev.logSlot (d : Dev) (n : Nat) (uncorr : Bool) : Option Nat :=
  match (List.range 32).find? (fun i => fld (d.reg (rCsErrLogA n i)) fCsErrLogA_Valid == 0) with
  | some i => some i
  | none =>
    if uncorr then
      leastBy (fun i => fld (d.reg (rCsErrLogB n i)) fCsErrLogB_Count)
        ((List.range 32).filter (fun i => fld (d.reg (rCsErrLogA n i)) fCsErrLogA_Kind % 2 == 0))
    else none

/-- CE_THRESH, once for each time an entry is taken (R341). -/
def Dev.checkThresh (d : Dev) (n i : Nat) : Dev :=
  let th := d.getF (rCsErrCtrl n) fCsErrCtrl_Thresh
  let st := d.stackSt n
  if th ≠ 0 ∧ fld (d.reg (rCsErrLogA n i)) fCsErrLogA_Kind % 2 = 0
      ∧ th ≤ fld (d.reg (rCsErrLogB n i)) fCsErrLogB_Count ∧ !st.threshSeen.contains i then
    (d.modStack n (fun s => { s with threshSeen := i :: s.threshSeen })).raise (pgCs1 n) 1
  else d

/-- The counters and the summary bit of an event of stack `n` (R340). -/
def Dev.countErr (d : Dev) (n : Nat) (un : Bool) : Dev :=
  if un then (d.addF (rCsErrTotal n) fCsErrTotal_Ue 1).raise (pgCs1 n) 2
  else d.addF (rCsErrTotal n) fCsErrTotal_Ce 1

/-- An event matches log entry `i` of its stack: the entry takes the event's granule, source and time, the greater number of
symbols, and counts it (R340). -/
def Dev.logAgain (d : Dev) (a syms src i : Nat) : Dev :=
  let n := stackOf a
  let b := d.reg (rCsErrLogB n i)
  let d := d.setReg (rCsErrLogB n i)
    (BitVec.ofNat 64 (granInRow a + atBit 4 (max syms (fld b fCsErrLogB_Symbols)) + atBit 8 src
      + atBit 16 (satAdd 16 (fld b fCsErrLogB_Count) 1)))
  (d.setReg (rCsErrLogTime n i) (BitVec.ofNat 64 d.time)).checkThresh n i

/-- An event takes log entry `i` of its stack (R340). -/
def Dev.logNew (d : Dev) (a kind syms src i : Nat) : Dev :=
  let n := stackOf a
  let d := d.setReg (rCsErrLogA n i) (BitVec.ofNat 64 (1 + atBit 1 kind + atBit 3 (pcOf a) + atBit 8 (bankOf a)
    + atBit 14 (rowOf a)))
  let d := d.setReg (rCsErrLogB n i) (BitVec.ofNat 64 (granInRow a + atBit 4 syms + atBit 8 src + atBit 16 1))
  let d := d.setReg (rCsErrLogTime n i) (BitVec.ofNat 64 d.time)
  (d.modStack n (fun s => { s with threshSeen := s.threshSeen.filter (· != i) })).checkThresh n i

/-- The log entry of an event: the one it matches, else one it takes, else it is counted as overflow (R340). -/
def Dev.logEnter (d : Dev) (a kind syms src : Nat) : Dev :=
  let n := stackOf a
  let un := kind % 2 == 1
  match d.logMatch n (pcOf a) (bankOf a) (rowOf a) un with
  | some i => d.logAgain a syms src i
  | none =>
    match d.logSlot n un with
    | some i => d.logNew a kind syms src i
    | none => (d.addF (rCsErrOvf n) fCsErrOvf_Ovf 1).raise (pgCs1 n) 4

/-- One correctable or uncorrectable event of a granule at address `a`: counted, logged, and for an uncorrectable one
reported to the gander (R340). `kind` is that of CS_ERR_LOG_A, `src` that of CS_ERR_LOG_B. -/
def Dev.logErr (d : Dev) (a kind syms src : Nat) : Dev :=
  let n := stackOf a
  let d := (d.countErr n (kind % 2 == 1)).logEnter a kind syms src
  if kind % 2 = 1 then d.log 0x10 [n, pcOf a, bankOf a, rowOf a, granInRow a, src] else d

/-- A number in a field of `w` bits; what a field shows of a number that does not fit it is left open (log entry 25). -/
def fitTo (w x : Nat) : Nat := if x < 2 ^ w then x else Config.tooWide w x % 2 ^ w

/-! ## Stack memory -/

/-- Whether the granule lies in a retired region of scope PAGE, ROW or BANK, or in a stack retired or out of service
(R350, R348). -/
def Dev.deadGran (d : Dev) (g : Nat) : Bool :=
  let n := stackOf g
  d.unitGone .stack n
    || (d.stackSt n).retired.any (fun r => if r.2 = 0x1_0000 then g / 0x1_0000 == r.1 / 0x1_0000
        else pcOf g == pcOf r.1 && pcLocal g / 1024 == pcLocal r.1 / 1024)
    || bitOf (d.reg (rCsRetireBank n (pcOf g))) (bankOf g)

/-- The number, in its stack, of the bitmap word that holds a granule's valid bit (R207: 64 granules of a pseudo-channel a
word). -/
def bitmapWordOf (g : Nat) : Nat := pcOf g * 2 ^ 24 + pcLocal g / 4096

/-- The 64 granules of the bitmap word of a granule. -/
def bitmapGrans (g : Nat) : List Nat :=
  (List.range 64).map (fun i => physOf (stackOf g) (pcOf g) (pcLocal g / 4096 * 4096 + 64 * i))

def Dev.dropUpset (d : Dev) (arr : SramArray) (u w : Nat) : Dev :=
  { d with upsets := d.upsets.filter (fun x => !(x.arr == arr && x.unit == u && x.word == w)) }

def Dev.findUpset (d : Dev) (arr : SramArray) (u w : Nat) : Option Upset :=
  d.upsets.find? (fun x => x.arr == arr && x.unit == u && x.word == w)

/-- A bitmap word that is about to be read: a correctable one is corrected and logged; an uncorrectable one makes its
granules read as poison until each is written, and is logged (R207, R340). -/
def Dev.checkBitmap (d : Dev) (g src : Nat) : Dev :=
  match d.findUpset .bitmapWord (stackOf g) (bitmapWordOf g) with
  | none => d
  | some x =>
    let d := d.dropUpset .bitmapWord (stackOf g) (bitmapWordOf g)
    if x.ue then
      let d := { d with stk := (bitmapGrans g).foldl (fun m h =>
        m.setFlag h { valid := true, poison := true, bad := 0 }) d.stk }
      d.logErr g 3 0xF src
    else d.logErr g 2 1 src

/-- A granule becomes the poison word because a read found it uncorrectable (R206). -/
def Dev.poisonGran (d : Dev) (g src : Nat) : Dev :=
  let d := { d with stk := (d.stk.clear g (g + 64)).setFlag g { valid := true, poison := true } }
  let d := (d.addF (rCsPoison (stackOf g)) fCsPoison_Written 1).raise (pgCs0 (stackOf g)) 8
  d.logErr g 1 0xF src

/-- How a granule was read: its data, and whether the data are good, poison, or a fresh uncorrectable error. -/
abbrev GranRead := List Byte × Nat

def zeros (n : Nat) : List Byte := List.replicate n 0

def Dev.countPoisonRead (d : Dev) (g : Nat) : Dev := d.addF (rCsPoison (stackOf g)) fCsPoison_Read 1

/-- The interface transfer of an access (R342): retries while the CRC fails; after the fourth, a fresh uncorrectable error
without rewriting, and the stack is marked for the reset that follows. -/
def Dev.transfer (d : Dev) (n : Nat) : Dev × Bool :=
  match d.upsets.find? (fun x => x.arr == .ifTransfer && x.unit == n) with
  | none => (d, true)
  | some x =>
    let d := { d with upsets := d.upsets.filter (fun (y : Upset) => !(y.arr == SramArray.ifTransfer && y.unit == n)) }
    let d := d.addF (rCsIfRetry n) fCsIfRetry_Retry (min x.word 4)
    if x.word ≤ 4 then (d, true)
    else
      (((d.addF (rCsIfRetry n) fCsIfRetry_Fail 1).raise (pgCs1 n) 0x20).modStack n (fun s => { s with ifDown := true }),
       false)

/-- One granule of stack memory read by the engine `src` (Table 7-9 says what the engine does with the outcome): 0 data,
1 poison, 2 a fresh uncorrectable error, 3 a fresh one of the interface (R342). -/
def Dev.readGran (d : Dev) (src g : Nat) : Dev × GranRead :=
  let n := stackOf g
  if d.deadGran g then (d.countPoisonRead g, (zeros 64, 1))
  else
    let (d, okIf) := d.transfer n
    if !okIf then (d, (zeros 64, 3))
    else
      let d := d.checkBitmap g src
      let f := d.stk.flag g
      if !f.valid then (d, (zeros 64, 0))
      else if f.poison ∧ f.bad ≤ 2 then (d.countPoisonRead g, (zeros 64, 1))
      else if f.bad = 0 then (d, (d.stk.bytes g 64, 0))
      else if !f.poison ∧ f.bad ≤ 2 then (d.logErr g 0 f.bad src, (d.stk.bytes g 64, 0))
      else if f.bad ≤ 4 then (d.poisonGran g src, (zeros 64, 2))
      else
        match Config.overloadedDecode g % 3 with
        | 0 => (d.poisonGran g src, (zeros 64, 2))
        | 1 => (d, (recBytes (Config.wrongBytes 0 g), 0))
        | _ => (d, (d.stk.bytes g 64, 0))

/-- The granules a span of bytes touches. -/
def gransOf (a n : Nat) : List Nat :=
  if n = 0 then [] else (List.range ((a + n - 1) / 64 - a / 64 + 1)).map (fun i => granOf a + 64 * i)

/-- `n` bytes of stack memory and the worst outcome over their granules. -/
def Dev.readStk (d : Dev) (src a n : Nat) : Dev × GranRead :=
  let (d, bs, st) := (gransOf a n).foldl (fun (acc : Dev × List Byte × Nat) g =>
    let (d', (b, s)) := acc.1.readGran src g
    (d', acc.2.1 ++ b, max acc.2.2 s)) (d, [], 0)
  (d, ((bs.drop (a % 64)).take n, st))

/-- Bytes `o` and on of a granule's 64 replaced. -/
def spliceBytes (old : List Byte) (o : Nat) (bs : List Byte) : List Byte :=
  old.take o ++ bs ++ old.drop (o + bs.length)

/-- A whole granule written, or stored as the poison word: its transfer may fail, which leaves it as it was (R342); its bitmap
word is read to set its valid bit, so that one found uncorrectable leaves the other granules of the word poison (R207). -/
def Dev.writeWhole (d : Dev) (g : Nat) (bs : List Byte) (poison : Bool) (bad : Nat) : Dev :=
  let (d, okIf) := d.transfer (stackOf g)
  if !okIf then d
  else
    let d := d.checkBitmap g 7
    if poison then
      { d with stk := (d.stk.clear g (g + 64)).setFlag g { valid := true, poison := true, bad := bad } }
    else
      { d with stk := ((d.stk.clear g (g + 64)).putBytes g bs).setFlag g { valid := true, bad := bad } }

/-- A piece of a write that lies in one granule, by Table 7-10; `poison` stores the granule as the poison word. -/
def Dev.writeGran (d : Dev) (a : Nat) (bs : List Byte) (poison : Bool) : Dev :=
  let g := granOf a
  if d.deadGran g then d
  else
    let inj := d.reg rRasInject
    let hit := bitsOf inj 6 34 * 64 == g && fld inj fRasInject_Mode != 0
    let bad := if hit then fld inj fRasInject_Mode else 0
    let d := if hit then d.putF rRasInject fRasInject_Mode 0 else d
    if poison || bs.length == 64 then d.writeWhole g bs poison bad
    else
      let (d, (old, st)) := d.readGran 7 g
      if st ≠ 0 then d
      else { d with stk := (d.stk.putBytes g (spliceBytes old (a % 64) bs)).setFlag g { valid := true, bad := bad } }

/-- A span of bytes cut at granule boundaries. -/
def cutGrans : Nat → Nat → List Byte → List (Nat × List Byte)
  | 0, _, _ => []
  | _ + 1, _, [] => []
  | k + 1, a, bs => (a, bs.take (64 - a % 64)) :: cutGrans k (a + (64 - a % 64)) (bs.drop (64 - a % 64))

/-- A write of bytes to stack memory. -/
def Dev.writeStk (d : Dev) (a : Nat) (bs : List Byte) (poison : Bool) : Dev :=
  (cutGrans (bs.length + 1) a bs).foldl (fun d x => d.writeGran x.1 x.2 poison) d

/-! ## On-die SRAM (R338, R339) -/

/-- The sector counter an array's events go to: a sector, or 6 outside the sectors. The address generators of tiles are
numbered as the tiles, those of DMA channels 144 + 4k + c. -/
def sramCounter : SramArray → Nat → Nat
  | .tileSram, u => u / 24
  | .instrBuffer, u => u / 24
  | .vreg, u => u / 24
  | .accumulator, u => u / 24
  | .descReg, u => if u < 144 then u / 24 else (u - 144) / 4
  | .sectSram, u => u
  | .routineStore, u => u
  | _, _ => 6

/-- The number of an array for SRAM_UE records (Table 14-7). -/
def arrayCode : SramArray → Nat
  | .tileSram => 0 | .sectSram => 1 | .routineStore => 2 | .instrBuffer => 3 | .vreg => 4 | .accumulator => 5
  | .descReg => 6 | .queueStorage => 7 | .complEntry => 8 | .reqTable => 9 | .prefixNode => 10 | .slotMeta => 11
  | .deltaMeta => 12 | .fabStaging => 13 | .fabActive => 14 | .bitmapWord => 15 | .ifTransfer => 16

/-- Whether an uncorrectable word of an array stays as it is when it is read: words of a routine store and of an instruction
buffer, which only a reload replaces (R127). -/
def SramArray.keeps : SramArray → Bool
  | .routineStore | .instrBuffer => true
  | _ => false

/-- A word of an on-die array is read: a correctable upset is corrected in place and counted, an uncorrectable one is
counted, reported and answered `true`; the outcome of Table 12-1 is the caller's. -/
def Dev.readWord (d : Dev) (arr : SramArray) (u w : Nat) : Dev × Bool :=
  match d.findUpset arr u w with
  | none => (d, false)
  | some x =>
    let k := sramCounter arr u
    let d := if x.ue && arr.keeps then d else d.dropUpset arr u w
    if x.ue then
      (((d.addF (rRasSramUe k) fRasSramUe_Ue 1).raise pgRas 2).log 0x11 [k, arrayCode arr], true)
    else (d.addF (rRasSramCe k) fRasSramCe_Ce 1, false)

/-- The words of an array read one after another; whether any was uncorrectable. -/
def Dev.readWords (d : Dev) (arr : SramArray) (u : Nat) (ws : List Nat) : Dev × Bool :=
  if d.upsets.isEmpty then (d, false)
  else ws.foldl (fun (acc : Dev × Bool) w => let (d', b) := acc.1.readWord arr u w; (d', acc.2 || b)) (d, false)

/-- Every upset of a unit of an array ends: all of its words are written (R338). -/
def Dev.dropUnit (d : Dev) (arr : SramArray) (u : Nat) : Dev :=
  { d with upsets := d.upsets.filter (fun x => !(x.arr == arr && x.unit == u)) }

/-- Words of an array are written whole: what stood in them ends (R338). -/
def Dev.dropWords (d : Dev) (arr : SramArray) (u : Nat) (ws : List Nat) : Dev :=
  if d.upsets.isEmpty then d else ws.foldl (fun d w => d.dropUpset arr u w) d

/-- The poison mark and data of one granule of a tile or sector SRAM: an uncorrectable word makes the granule poison
(Table 12-1). `base` is the granule's address in its memory, `u` the unit and `off` its offset in the unit. -/
def Dev.readSramGran (d : Dev) (tile : Bool) (base u off : Nat) : Dev × GranRead :=
  let (d, ue) := d.readWords (if tile then .tileSram else .sectSram) u ((List.range 8).map (fun i => off / 8 + i))
  let d := if !ue then d
    else if tile then { d with tram := d.tram.setFlag base { poison := true } }
    else { d with sram := d.sram.setFlag base { poison := true } }
  let m := if tile then d.tram else d.sram
  if (m.flag base).poison then (d, (zeros 64, 1)) else (d, (m.bytes base 64, 0))

/-- A piece of a write in one granule of SRAM; only a full write replaces poison (Table 12-1). -/
def sramWriteGran (m : Memory) (a : Nat) (bs : List Byte) (poison : Bool) : Memory :=
  let g := granOf a
  if poison then (m.clear g (g + 64)).setFlag g { poison := true }
  else if bs.length = 64 then ((m.clear g (g + 64)).setFlag g {}).putBytes g bs
  else if (m.flag g).poison then m
  else m.putBytes a bs

/-- A write of bytes to a memory of SRAM. -/
def sramWrite (m : Memory) (a : Nat) (bs : List Byte) (poison : Bool) : Memory :=
  (cutGrans (bs.length + 1) a bs).foldl (fun m x => sramWriteGran m x.1 x.2 poison) m

/-- A span of SRAM is about to be written: words written whole lose what stood in them, and one written in part is read
first (R338), its granule becoming poison when it is uncorrectable (Table 12-1). `a` is the address in the memory. -/
def Dev.overwrite (d : Dev) (tile : Bool) (a n : Nat) : Dev :=
  if d.upsets.isEmpty then d
  else
    let arr := if tile then SramArray.tileSram else .sectSram
    let size := if tile then 2 ^ 21 else 2 ^ 24
    let words := (List.range ((a + n + 7) / 8 - a / 8)).map (· + a / 8)
    words.foldl (fun d w =>
      let u := 8 * w / size
      let off := 8 * w % size / 8
      if a ≤ 8 * w ∧ 8 * w + 8 ≤ a + n then d.dropUpset arr u off
      else (d.readSramGran tile (granOf (8 * w)) u (granOf (8 * w) % size)).1) d

/-- A write of bytes to tile or sector SRAM. -/
def Dev.writeSram (d : Dev) (tile : Bool) (a : Nat) (bs : List Byte) (poison : Bool) : Dev :=
  let d := if poison then d.overwrite tile (granOf a) 64 else d.overwrite tile a bs.length
  if tile then { d with tram := sramWrite d.tram a bs poison } else { d with sram := sramWrite d.sram a bs poison }

/-! ## Accesses at a bank whose hen runs (R202, R203) -/

/-- Whether hen u has done its part of an operation: its row steps, an idle one that follows the last (R389), and for HATTN the
exchange (R197). -/
def HenOp.doneBy (o : HenOp) (u : Nat) : Bool :=
  o.started && tget o.stepsLeft 0 u == 0 && !o.idle.contains u && (o.kind != 2 || o.exchanged)

/-- Whether stack n reads TEMP_CRIT, 105 °C or more (R211, R389). -/
def Dev.tempCrit (d : Dev) (n : Nat) : Bool := 420 ≤ d.getF (rCsTemp n) fCsTemp_Temp

/-- Operations queued at the controller of stack n, in dispatch order: those whose start has not come (R199). -/
def Dev.pendingAt (d : Dev) (n : Nat) : List HenOp := d.henOps.filter (fun o => !o.started && o.stks.contains n)

/-- Whether an operation's dispatch is held in the mesh: a controller it goes to holds 256 earlier ones (R199). -/
def Dev.inMesh (d : Dev) (o : HenOp) : Bool :=
  !o.started && o.stks.any (fun n => 256 ≤ ((d.pendingAt n).filter (fun p => p.id < o.id)).length)

/-- The operation that hen u runs, or runs next: the earliest to arrive of those it has not done (R199). -/
def Dev.nextOn (d : Dev) (u : Nat) : Option HenOp :=
  d.henOps.find? (fun o => o.hens.contains u && !o.doneBy u && !d.inMesh o)

/-- Whether hen p of stack n runs an operation. -/
def Dev.henBusy (d : Dev) (n p : Nat) : Bool :=
  match d.nextOn (32 * n + p) with
  | none => false
  | some o => o.started

/-- The accesses queued at pseudo-channel p of stack n. -/
def Dev.queued (d : Dev) (n p : Nat) : List Access := tget (d.stackSt n).accQ [] p

def Dev.setQueued (d : Dev) (n p : Nat) (q : List Access) : Dev :=
  d.modStack n (fun s => { s with accQ := tset s.accQ p q })

/-- Whether BAR4 accesses to stack n are not performed: its partition is in reset, the device is not ACTIVE, or the stack
retrains on its own (R182, R342, R374, Table 13-4). -/
def Dev.bar4Closed (d : Dev) (n : Nat) : Bool :=
  d.getF rPwrState fPwrState_State != 0 || (d.stackPart n < 6 && d.inReset (d.stackPart n)) || (d.stackSt n).retraining

/-- The controller performs one access of the host, which lies in one granule (R173, R203, Table 7-9, Table 15-3); while its
stack is closed it reads 0xFF or is discarded, and is counted (R182). -/
def Dev.serve (d : Dev) (a : Access) : Dev :=
  if d.bar4Closed (stackOf a.addr) then
    let d := d.blkErr pgHif
    match a.data with
    | some _ => d
    | none => d.sendOut (.readData a.func (List.replicate a.len 0xFF) false a.held)
  else
    match a.data with
    | some bs => d.writeStk a.addr bs false
    | none =>
      let (d, (bs, st)) := d.readStk 4 a.addr a.len
      let d := if st = 0 then d else d.addF rHifPoisonTx fHifPoisonTx_Cnt 1
      d.sendOut (.readData a.func (if st = 0 then bs else zeros a.len) (st != 0) a.held)

/-- The wait in bc of an access served in the window after `w` others since it arrived: windows are at most 96 bc apart,
and the instant of arrival between two of them is left open (log entry 26). -/
def windowWait (w free : Nat) : Nat := 96 * w + free % 97

/-- CS_WIN_WAIT.MAX takes the wait of an access served. -/
def Dev.noteWait (d : Dev) (n w : Nat) : Dev :=
  let x := windowWait w (Config.freeWord d.free)
  let d := { d with free := d.free + 1 }
  d.putF (rCsWinWait n) fCsWinWait_Max (max (d.getF (rCsWinWait n) fCsWinWait_Max) (fitTo 12 x))

/-- The accesses of a queue with the windows that each waits when four go in each window: the i-th after i / 4 more. -/
def afterWindows (q : List Access) : List Access :=
  (q.zip (List.range q.length)).map (fun e => { e.1 with windows := e.1.windows + e.2 / 4 })

/-- An engine's access reaches the pseudo-channel of location l: those that arrived before it are served first, four in each
window, and where a hen runs there it stands in the window its place in the queue gives it (R202; an engine's
access is performed at the instant that stands for its window, log entry 55). -/
def Dev.inWindow (d : Dev) (l : Nat) : Dev :=
  let n := stackOf l
  let p := pcOf l
  let q := d.queued n p
  let busy := d.henBusy n p
  if q.isEmpty && !busy then d
  else
    let late := (q.drop 4).filter (fun a => a.windows == 0)
    let own := if busy && 4 ≤ q.length then 1 else 0
    let d := (d.setQueued n p []).addF (rCsWinWait n) fCsWinWait_Defer ((if busy then late.length else 0) + own)
    let d := (afterWindows q).foldl (fun d a => (d.noteWait n a.windows).serve a) d
    if busy then d.noteWait n (q.length / 4) else d

/-! ## Any location -/

/-- One granule of any location, read at its home. -/
def Dev.readHomeGran (d : Dev) (src g : Nat) : Dev × GranRead :=
  if isStk g then (d.inWindow g).readGran src g
  else if isTram g then
    let a := g - 2 ^ 48
    d.readSramGran true a (a / 2 ^ 21) (a % 2 ^ 21)
  else if isSram g then
    let a := g - 2 ^ 49
    d.readSramGran false a (a / 2 ^ 24) (a % 2 ^ 24)
  else if isSlot g then (d, (d.slots.bytes (g - 2 ^ 50) 64, 0))
  else (d, (d.host.bytes (g - 2 ^ 51) 64, 0))

/-- A byte with its high or its low nibble taken from another (R56). -/
def nibbleMerge (hi : Bool) (old v : Byte) : Byte :=
  if hi then (old &&& 0x0F) ||| (v &&& 0xF0) else (old &&& 0xF0) ||| (v &&& 0x0F)

/-- The bytes of a granule with the buffered writes of a sector laid over them in their order; a poisoned write makes the
outcome poison (R153). -/
def overlay (ws : List PWrite) (g : Nat) (r : GranRead) : GranRead :=
  ws.foldl (fun (r : GranRead) w =>
    if granOf w.addr = g then
      if w.poison then (zeros 64, 1)
      else if w.data.length = 64 then (w.data, 0)
      else if r.2 ≠ 0 then r
      else
        match w.nibble with
        | none => (spliceBytes r.1 (w.addr % 64) w.data, 0)
        | some hi =>
          let o := w.addr % 64
          let old := r.1.getD o 0
          let v := w.data.headD 0
          (spliceBytes r.1 o [nibbleMerge hi old v], 0)
    else r) r

def Dev.wbuf (d : Dev) (k : Nat) : List PWrite := (tget d.sect {} k).wbuf

/-- `n` bytes read by an engine of sector `k` (or by none, `k = 6`): at their homes, under what the sector's own write
buffer holds (R153), and the worst outcome. -/
def Dev.readBy (d : Dev) (k src a n : Nat) : Dev × GranRead :=
  let (d, bs, st) := (gransOf a n).foldl (fun (acc : Dev × List Byte × Nat) g =>
    let (d', r) := acc.1.readHomeGran src g
    let r' := overlay (d'.wbuf k) g r
    (d', acc.2.1 ++ r'.1, max acc.2.2 r'.2)) (d, [], 0)
  (d, ((bs.drop (a % 64)).take n, st))

/-! ## Status of a started command (R146, Table 5-6) -/

/-- Precedence of a status among those a started command may meet, 1 highest. -/
def statusRank (s : Nat) : Nat :=
  if s = 0x38 then 1 else if s = 0x37 then 2 else if s = 0x36 then 3 else if s = 0x35 then 4
  else if s = 0x34 ∨ s = 0x60 then 5
  else if 0x30 ≤ s ∧ s ≤ 0x33 then 6
  else if s = 0x02 then 7 else if s = 0x01 then 8 else if s = 0 then 9 else 6

def Dev.cmd? (d : Dev) (c : Nat) : Option Cmd := d.cq.cmds.find? (fun x => x.id == c)

def Dev.modCmd (d : Dev) (c : Nat) (f : Cmd → Cmd) : Dev :=
  { d with cq := { d.cq with cmds := d.cq.cmds.map (fun x => if x.id = c then f x else x) } }

/-- A started command meets a failure (R59, R146): its status is the one of higher precedence, among equals the earlier, and
DMA_UNCORR before META_UNCORR of the same instant (R363); its engines stop. -/
def Cmd.fail (x : Cmd) (time status handle vaddr : Nat) : Cmd :=
  let keep := x.faultAt.isSome && statusRank x.status.toNat ≤ statusRank status
    && !(x.status == 0x60 && status == 0x34 && x.faultAt == some time)
  if keep then { x with phase := .stopping }
  else { x with phase := .stopping, status := BitVec.ofNat 8 status, faultAt := some time, handle := handle,
                vaddr := vaddr }

/-- The tiles of a command issue nothing further (R59). -/
def Dev.stopTiles (d : Dev) (c : Nat) : Dev :=
  { d with tiles := d.tiles.map (fun e => if e.2.cmd = some c then (e.1, { e.2 with stopped := true }) else e) }

/-- Command `c` fails with a status, handle and virtual address (R59). -/
def Dev.failCmd (d : Dev) (c status handle vaddr : Nat) : Dev :=
  (d.modCmd c (fun x => x.fail d.time status handle vaddr)).stopTiles c

/-- A write of a command stored poison (POISON_WRITTEN, Table 5-6). -/
def Dev.notePoison (d : Dev) (c : Option Nat) : Dev :=
  match c with
  | none => d
  | some c => d.modCmd c (fun x => { x with poisonWritten := true })

/-! ## Writes -/

/-- A posted write to a host window: sent with No Snoop clear, and Relaxed Ordering where the device chooses it, with poisoned
granules as zero bytes under EP (a write lies in one granule, so no TLP mixes them); or dropped, which fails its
command with HOST_ABORT (R176, R428). -/
def Dev.hostWrite (d : Dev) (w : PWrite) : Dev :=
  if !d.canSend w.func then
    let d := d.txDrop
    match w.cmd with
    | none => d
    | some c => d.failCmd c 0x33 w.handle w.vaddr
  else
    let a := w.addr - 2 ^ 51
    let d := if w.poison then d.addF rHifPoisonTx fHifPoisonTx_Cnt 1 else d
    let bs := if w.poison then zeros w.data.length else w.data
    let bs := match w.nibble with
      | none => bs
      | some hi => [nibbleMerge hi (d.host.byte a) (bs.headD 0)]
    { d with host := d.host.putBytes a bs }.sendOut (.posted w.func a bs w.poison (Config.relaxesData a) false)

/-- A write at its home. -/
def Dev.writeHome (d : Dev) (w : PWrite) : Dev :=
  let d := if w.poison then d.notePoison w.cmd else d
  if isHost w.addr then d.hostWrite w
  else
    let (d, w) :=
      match w.nibble with
      | none => (d, w)
      | some hi =>
        let (d, r) := d.readHomeGran 7 (granOf w.addr)
        let old := r.1.getD (w.addr % 64) 0
        let v := w.data.headD 0
        (d, { w with nibble := none, data := [nibbleMerge hi old v] })
    if isStk w.addr then (d.inWindow w.addr).writeStk w.addr w.data w.poison
    else if isTram w.addr then d.writeSram true (w.addr - 2 ^ 48) w.data w.poison
    else if isSram w.addr then d.writeSram false (w.addr - 2 ^ 49) w.data w.poison
    else { d with slots := d.slots.putBytes (w.addr - 2 ^ 50) w.data }

def Dev.modSect (d : Dev) (k : Nat) (f : Sector → Sector) : Dev := { d with sect := tmod d.sect {} k f }

/-- A write by an engine of sector `k`: at its home when that lies in the sector, else into the sector's write buffer
(R153). `k = 6` stands for an engine outside the sectors, which has no buffer. -/
def Dev.writeBy (d : Dev) (k : Nat) (w : PWrite) : Dev :=
  if k = 6 ∨ homeSect w.addr = some k then d.writeHome w
  else (if w.poison then d.notePoison w.cmd else d).modSect k (fun s => { s with wbuf := s.wbuf ++ [w] })

/-- The oldest buffered write of sector `k` to granule `g` goes to its home (R153). -/
def Dev.drainOne (d : Dev) (k g : Nat) : Dev :=
  match (d.wbuf k).find? (fun w => granOf w.addr == g) with
  | none => d
  | some w => (d.modSect k (fun s => { s with wbuf := s.wbuf.erase w })).writeHome w

/-- Every buffered write of sector `k` goes to its home, oldest first (R161, R157). -/
def Dev.drainAll (d : Dev) (k : Nat) : Dev :=
  (d.wbuf k).foldl (fun d w => d.writeHome w) (d.modSect k (fun s => { s with wbuf := [] }))

end Sys2Proof.Machine
end

