-- ==== Sys2Proof/Machine/Translate.lean ====
section
/-! DEFINITION. Translation and protection of every address an engine generates (03 R57, R58, R60, R455; 04 R87; 07 R186;
11 R317; 12 R343). An engine is named by the source code of CS_ERR_LOG_B: 0 hen, 1 tile, 2 DMA channel, 3 command
processor or serving engine, 5 fabric. -/

namespace Sys2Proof.Machine

/-- An engine that makes accesses: its source code, its sector (6: none, so no write buffer), its tile (for a tile), the
context whose page table it uses, the range of virtual addresses it may write whatever the leaf says (R272: the
serving engine's DELTA_PUT, an ADAPT_STEP in its own TRAIN version), and whether the access is of a MOVE's data, which
alone may reach ATOMIC_PORT (R165). -/
structure Engine where
  src : Nat
  sect : Nat := 6
  tile : Nat := 0
  part : Nat
  ctx : Nat
  bypass : Nat × Nat := (0, 0)
  port : Bool := false
  deriving DecidableEq, Repr

/-- One page-table entry read; outside the partition's stacks the walk fails (R317), and an entry that cannot be read
fails the access with META_UNCORR (R343). -/
def Dev.readPte (d : Dev) (e : Engine) (a : Nat) : Dev × Except Nat Nat :=
  if !isStk a || d.stackPart (stackOf a) != e.part then (d, .error 0x30)
  else
    let (d, r) := d.readBy e.sect 3 a 8
    if r.2 ≠ 0 then (d, .error 0x60) else (d, .ok (leNat r.1))

/-- The leaf that maps a virtual address: physical address, key and write permission (R455). -/
def Dev.walk (d : Dev) (e : Engine) (va : Nat) : Dev × Except Nat (Nat × Nat × Bool) :=
  let root := fld (d.reg (rSectCtxRoot (d.liveSect e.part) e.ctx)) fSectCtxRoot_Root * 4096
  match d.readPte e (root + 8 * (va / 2 ^ 39 % 512)) with
  | (d, .error s) => (d, .error s)
  | (d, .ok e1) =>
    if e1 % 2 = 0 ∨ e1 / 2 % 2 = 1 then (d, .error 0x30)
    else
      match d.readPte e (e1 / 2 ^ 16 % 2 ^ 32 * 2 ^ 16 + 8 * (va / 2 ^ 26 % 8192)) with
      | (d, .error s) => (d, .error s)
      | (d, .ok e2) =>
        if e2 % 2 = 0 then (d, .error 0x30)
        else if e2 / 2 % 2 = 1 then
          (d, .ok (e2 / 2 ^ 26 % 2 ^ 22 * 2 ^ 26 + va % 2 ^ 26, e2 / 16 % 256, e2 / 4 % 2 = 1))
        else
          match d.readPte e (e2 / 2 ^ 17 % 2 ^ 31 * 2 ^ 17 + 8 * (va / 2 ^ 12 % 16384)) with
          | (d, .error s) => (d, .error s)
          | (d, .ok e3) =>
            if e3 % 2 = 0 ∨ e3 / 2 % 2 = 0 then (d, .error 0x30)
            else (d, .ok (e3 / 2 ^ 12 % 2 ^ 36 * 2 ^ 12 + va % 2 ^ 12, e3 / 16 % 256, e3 / 4 % 2 = 1))

/-- The location a device physical address names for an engine (Table 7-1a, R87, R165, R317). -/
def Dev.locate (d : Dev) (e : Engine) (pa : Nat) : Except Nat Nat :=
  if pa < stackTop then
    if d.stackPart (stackOf pa) = e.part then .ok pa else .error 0x31
  else if pa < 0xF0_0000_0000 then .error 0x30
  else if pa < 0xF0_0020_0000 then
    if e.src = 1 then .ok (locTram e.tile (pa - 0xF0_0000_0000)) else .error 0x31
  else if pa < 0xF0_0100_0000 then .error 0x30
  else if pa < 0xF0_0200_0000 then
    if e.src = 1 then .ok (locSram (e.tile / 24) (pa - 0xF0_0100_0000)) else .error 0x31
  else if pa < 0xF0_0200_1000 then
    if e.src = 1 ∧ e.port then .ok (locSlot e.tile (pa - 0xF0_0200_0000)) else .error 0x31
  else if pa < 0x8000_0000_0000 then .error 0x30
  else if e.src = 0 ∨ e.src = 5 then .error 0x31
  else .ok (locHost (pa - 0x8000_0000_0000))

/-! ## KV windows (09 R242, R243) -/

/-- The request-table entry and the offset that a virtual address of partition p names, when it lies in a KV window. -/
def Dev.kvWindow (d : Dev) (p va : Nat) : Option (Nat × Nat) :=
  let w := d.reg (rSrvKvWin p)
  let lo := fld w fSrvKvWin_Base * 2 ^ 16
  let sz := 2 ^ fld w fSrvKvWin_Wlog2
  let n := d.getF (rSrvAdmCtrl p) fSrvAdmCtrl_EntryMax
  let first := ((List.range p).map (fun j => d.getF (rSrvAdmCtrl j) fSrvAdmCtrl_EntryMax)).foldl (· + ·) 0
  if lo ≤ va ∧ va < lo + n * sz then some (first + (va - lo) / sz, (va - lo) % sz) else none

/-- The serving engine in the context of the KV descriptors (R243, R246). -/
def Dev.kvEngine (d : Dev) (p : Nat) : Engine := { src := 3, part := p, ctx := d.getF (rSrvKvDesc p) fSrvKvDesc_Ctx }

/-- A write in a KV context, made under the ID of the function that owns the context (R325). -/
def Dev.kvWrite (d : Dev) (p : Nat) : PWrite := { addr := 0, data := [], func := d.ctxFunc p (d.kvEngine p).ctx }

/-- Entry `i` of a page list, read through the page table of the KV descriptors' context. -/
def Dev.readPlist (d : Dev) (p list i : Nat) : Dev × Except Nat Nat :=
  let e := d.kvEngine p
  match d.walk e (list + 8 * i) with
  | (d, .error s) => (d, .error s)
  | (d, .ok (pa, _, _)) =>
    match d.locate e pa with
    | .error s => (d, .error s)
    | .ok l =>
      let (d, r) := d.readBy 6 3 l 8
      if r.2 ≠ 0 then (d, .error 0x60) else (d, .ok (leNat r.1))

/-- The address that a window offset of entry `i` stands for: a page without a valid entry is XLATE_FAULT, a write to a
shared page PROT_FAULT. -/
def Dev.kvResolve (d : Dev) (p i off : Nat) (write : Bool) : Dev × Except Nat Nat :=
  let x := tget d.srv.entries {} i
  if x.npages ≤ off / 16384 then (d, .error 0x30)
  else
    match d.readPlist p x.pages (off / 16384) with
    | (d, .error s) => (d, .error s)
    | (d, .ok w) =>
      if w % 2 = 0 then (d, .error 0x30)
      else if write ∧ w / 2 % 2 = 1 then (d, .error 0x31)
      else (d, .ok (w / 2 ^ 14 % 2 ^ 34 * 2 ^ 14 + off % 16384))

/-- The virtual address that the page table sees. -/
def Dev.kvAddr (d : Dev) (p va : Nat) (write : Bool) : Dev × Except Nat Nat :=
  match d.kvWindow p va with
  | none => (d, .ok va)
  | some (i, off) => d.kvResolve p i off write

/-- An access of an engine at a virtual address outside every KV window: its location, or the status it fails with
(R57, R58). -/
def Dev.xlatePage (d : Dev) (e : Engine) (pkey va : Nat) (write : Bool) : Dev × Except Nat Nat :=
  match d.walk e va with
  | (d, .error s) => (d, .error s)
  | (d, .ok (pa, key, w)) =>
    match d.locate e pa with
    | .error s => (d, .error s)
    | .ok l =>
      if key ≠ 0 ∧ key ≠ pkey then (d, .error 0x31)
      else if write ∧ !w ∧ !(e.bypass.1 ≤ va ∧ va < e.bypass.2) then (d, .error 0x31)
      else (d, .ok l)

/-- An access of an engine at a virtual address under a key: its location, or the status it fails with (R57, R58, R242). -/
def Dev.xlate (d : Dev) (e : Engine) (pkey va : Nat) (write : Bool) : Dev × Except Nat Nat :=
  match d.kvAddr e.part va write with
  | (d, .error s) => (d, .error s)
  | (d, .ok va') => d.xlatePage e pkey va' write

/-- `n` bytes at a virtual address read by an engine, granule by granule, for reads that need no descriptor (lists,
images, records): the bytes, or the status and the virtual address of the failing granule (R343). -/
def Dev.readVa (d : Dev) (e : Engine) (pkey va n : Nat) : Dev × Except (Nat × Nat) (List Byte) :=
  (cutGrans (n + 1) va (zeros n)).foldl (fun (acc : Dev × Except (Nat × Nat) (List Byte)) piece =>
    match acc with
    | (d, .error x) => (d, .error x)
    | (d, .ok bs) =>
      match d.xlate e pkey piece.1 false with
      | (d, .error s) => (d, .error (s, piece.1))
      | (d, .ok l) =>
        let (d, r) := d.readBy e.sect e.src l piece.2.length
        if r.2 ≠ 0 then (d, .error (0x60, piece.1)) else (d, .ok (bs ++ r.1))) (d, .ok [])

/-- Bytes written at a virtual address by an engine, granule by granule; answers the first failing status and address. -/
def Dev.writeVa (d : Dev) (e : Engine) (pkey va : Nat) (bs : List Byte) (w : PWrite) : Dev × Except (Nat × Nat) Unit :=
  (cutGrans (bs.length + 1) va bs).foldl (fun (acc : Dev × Except (Nat × Nat) Unit) piece =>
    match acc with
    | (d, .error x) => (d, .error x)
    | (d, .ok _) =>
      match d.xlate e pkey piece.1 true with
      | (d, .error s) => (d, .error (s, piece.1))
      | (d, .ok l) => (d.writeBy e.sect { w with addr := l, data := piece.2, nibble := none, vaddr := piece.1 }, .ok ()))
    (d, .ok ())

end Sys2Proof.Machine
end

