-- ==== Sys2Proof/Machine/Promises.lean ====
section
/-! DEFINITION. The serving engine's books (08_requests_and_promises.md R214, R223, R225, R226, R233 to R238; 09 R255,
R256, R261, R264, R268): entries and their ranges, the cadence, the judgement of a token, charges and their release,
prefix-tree nodes and delta versions that end, and slots that drain. -/

namespace Sys2Proof.Machine

def Dev.onSrv (d : Dev) (f : Srv → Srv) : Dev := { d with srv := f d.srv }

def Dev.entry (d : Dev) (e : Nat) : Entry := tget d.srv.entries {} e

def Dev.modEntry (d : Dev) (e : Nat) (f : Entry → Entry) : Dev :=
  d.onSrv (fun s => { s with entries := tmod s.entries {} e f })

/-- Whether an entry is occupied (Table 8-2). -/
def Entry.occupied (x : Entry) : Bool := x.state != .free

/-! ## Ranges, counts and the cadence -/

def Dev.entryMax (d : Dev) (p : Nat) : Nat := d.getF (rSrvAdmCtrl p) fSrvAdmCtrl_EntryMax

/-- The first entry of partition p (R214). -/
def Dev.entryBase (d : Dev) (p : Nat) : Nat := ((List.range p).map d.entryMax).foldl (· + ·) 0

/-- SRV_LIVE of partition p: its occupied entries. -/
def Dev.liveCount (d : Dev) (p : Nat) : Nat := (d.srv.entries.filter (fun e => e.2.occupied && e.2.part == p)).length

/-- SRV_SLOT_STATE.LIVE: the occupied entries bound to slot s (R261). -/
def Dev.slotLive (d : Dev) (s : Nat) : Nat := (d.srv.entries.filter (fun e => e.2.occupied && e.2.slot == s)).length

/-- live[p][s] of R224: the requests of a slot whose charges stand. -/
def Dev.charged (d : Dev) (p s : Nat) : Nat :=
  (d.srv.entries.filter (fun e => e.2.charged && e.2.part == p && e.2.slot == s)).length

/-- The cadence of partition p in ns (R223), as SRV_ADM_CADENCE shows it. -/
def Dev.cadence (d : Dev) (p : Nat) : Nat :=
  let w := d.getF (rSrvAdmDecCap p) fSrvAdmDecCap_DecCap + d.getF (rSrvAdmPfSlice p) fSrvAdmPfSlice_PfSlice + 1500
  let b := d.getF (rSrvAdmBeat p) fSrvAdmBeat_BeatNs
  if b = 0 then w else (ceilDiv w b + 1) * b

/-! ## Slots: bits of page 7 (R276) and the states of Table 9-4 -/

def Dev.slotState (d : Dev) (s : Nat) : Nat := d.getF (rSrvSlotState s) fSrvSlotState_State

/-- A slot enters a state; READY and EMPTY raise their bits. -/
def Dev.enterSlotState (d : Dev) (s st : Nat) : Dev :=
  let was := d.slotState s
  let d := d.putF (rSrvSlotState s) fSrvSlotState_State st
  if st = 2 then d.raise (pgSrv 7) (2 ^ s)
  else if st = 0 ∧ (was = 1 ∨ was = 4) then d.raise (pgSrv 7) (2 ^ (16 + s))
  else d

/-- Whether slot s holds M4 caches. -/
def Dev.slotM4 (d : Dev) (s : Nat) : Bool := d.getF (rSrvSlotCfg s) fSrvSlotCfg_Format == 1

def Dev.tokb (d : Dev) (s : Nat) : Nat := d.getF (rSrvSlotTokb s) fSrvSlotTokb_Tokb

/-! ## Nodes (R250, R255, R256) -/

/-- A reference count with one fewer. -/
def Node.unref (n : Node) : Node := { n with refs := n.refs - 1 }

/-- Pages go back to the arena of partition p. -/
def Dev.freePages (d : Dev) (p : Nat) (ps : List Nat) : Dev :=
  d.onSrv (fun s => { s with arena := tmod s.arena [] p (fun us => us.filter (fun u => !ps.contains u)) })

/-- Node n leaves the tree: its pages return to the arena, its parent has one reference fewer, and a parent that is BAD
and has none goes too. Fuel bounds the depth. -/
def Dev.dropNode : Nat → Dev → Nat → Dev
  | 0, d, _ => d
  | k + 1, d, n =>
    match tfind d.srv.nodes n with
    | none => d
    | some x =>
      let d := (d.onSrv (fun s => { s with nodes := tdel s.nodes n })).freePages x.part x.pages
      match x.parent with
      | none => d
      | some m =>
        match tfind d.srv.nodes m with
        | none => d
        | some y =>
          let d := d.onSrv (fun s => { s with nodes := tset s.nodes m y.unref })
          if y.bad ∧ y.unref.refs = 0 then Dev.dropNode k (d.addF (rSrvPfxEvict y.part) fSrvPfxEvict_Evict 1) m else d

/-- Node n is evicted and counted (R255). -/
def Dev.evictNode (d : Dev) (n : Nat) : Dev :=
  match tfind d.srv.nodes n with
  | none => d
  | some x => Dev.dropNode (d.srv.nodes.length + 1) (d.addF (rSrvPfxEvict x.part) fSrvPfxEvict_Evict 1) n

/-- One reference to node n ends; a BAD node without any is evicted (R256). -/
def Dev.unrefNode (d : Dev) (n : Nat) : Dev :=
  match tfind d.srv.nodes n with
  | none => d
  | some x =>
    let d := d.onSrv (fun s => { s with nodes := tset s.nodes n x.unref })
    if x.bad ∧ x.unref.refs = 0 then d.evictNode n else d

/-- The nodes that `who` selects are discarded with their pages (R256). -/
def Dev.discardNodes (d : Dev) (who : Node → Bool) : Dev :=
  let gone := d.srv.nodes.filter (fun e => who e.2)
  let d := d.onSrv (fun s => { s with nodes := s.nodes.filter (fun e => !who e.2) })
  gone.foldl (fun d e => d.freePages e.2.part e.2.pages) d

/-- The node that eviction takes next in partition p: unreferenced, oldest last use, lowest number (R255). -/
def Dev.evictable (d : Dev) (p : Nat) : Option Nat :=
  (leastBy (fun e : Nat × Node => e.2.lastUse) (d.srv.nodes.filter (fun e => e.2.part == p && e.2.refs == 0))).map (·.1)

/-- Every node of partition p that can be evicted is, repeating until none remains (R255). -/
def Dev.flushTree : Nat → Dev → Nat → Dev
  | 0, d, _ => d
  | k + 1, d, p =>
    match d.evictable p with
    | none => d
    | some n => Dev.flushTree k (d.evictNode n) p

/-! ## Delta versions (R268) -/

def Dev.version (d : Dev) (v : Nat) : Version := tget d.srv.versions {} v

def Dev.setVersion (d : Dev) (v : Nat) (x : Version) : Dev :=
  d.onSrv (fun s => { s with versions := if x.state = .free then tdel s.versions v else tset s.versions v x })

/-- Version v becomes FREE: it keeps no lineage link, and its nodes are discarded (Table 9-6, R256). -/
def Dev.freeVersion (d : Dev) (v : Nat) : Dev :=
  let l := (d.version v).lineage
  let d := d.setVersion v {}
  let d := if tfind d.srv.current l = some v then d.onSrv (fun s => { s with current := tdel s.current l }) else d
  d.discardNodes (fun n => n.delta == some v)

/-- One reference to version v ends (R268). -/
def Dev.unrefVersion (d : Dev) (v : Nat) : Dev :=
  let x := d.version v
  let d := d.setVersion v { x with refs := x.refs - 1 }
  if x.state = .retiring ∧ x.refs ≤ 1 then d.freeVersion v else d

/-! ## Charges and their release (R225, R226, R238) -/

/-- pf leaves PF_PEND, once. -/
def Dev.releasePf (d : Dev) (e : Nat) : Dev :=
  let x := d.entry e
  if !x.pfHeld then d
  else
    (d.setReg (rSrvPfPend x.part) (BitVec.ofNat 64 ((d.reg (rSrvPfPend x.part)).toNat - x.pf))).modEntry e (fun x =>
      { x with pfHeld := false })

def Dev.creditPool (d : Dev) (p n : Nat) : Dev := d.putF (rSrvPoolFree p) fSrvPoolFree_Free (d.getF (rSrvPoolFree p) fSrvPoolFree_Free + n)

/-- The charges of entry e are released, once: LOAD with BASE when the slot's live count falls to 0, PF_PEND, the
reservation, the private pages and the references on shared blocks. -/
def Dev.releaseCharges (d : Dev) (e : Nat) : Dev :=
  let x := d.entry e
  if !x.charged then d
  else
    let d := (d.releasePf e).modEntry e (fun x => { x with
      charged := false, resv := 0, priv := [], earmark := [], nodes := [] })
    let base := if d.charged x.part x.slot = 0 then d.getF (rSrvCoefBase x.part x.slot) fSrvCoefBase_Base else 0
    let d := d.putF (rSrvLoad x.part) fSrvLoad_Load (d.getF (rSrvLoad x.part) fSrvLoad_Load - (x.dec + base))
    let d := (d.creditPool x.part (x.resv + x.priv.length + x.earmark.length)).freePages x.part (x.priv ++ x.earmark)
    x.nodes.foldl (fun d n => d.unrefNode n) d

/-- A slot that drains and has no request left goes on to EVICTING, and its nodes are discarded (Table 9-4, R256). -/
def Dev.enterEvicting (d : Dev) (s : Nat) : Dev := (d.enterSlotState s 4).discardNodes (fun n => n.slot == s)

/-- Entry e enters FREE (R216, R226, R268): REQUEST_FREE. -/
def Dev.freeEntry (d : Dev) (e : Nat) : Dev :=
  let x := d.entry e
  if !x.occupied then d
  else
    let d := d.releaseCharges e
    let d := if x.deltaEn then d.unrefVersion x.delta else d
    let d := d.onSrv (fun s => { s with entries := tdel s.entries e })
    if d.slotState x.slot = 3 ∧ d.slotLive x.slot = 0 then d.enterEvicting x.slot else d

/-! ## Request records (R234, Table 8-7) -/

/-- The 256 bits of a request record, PHASE 0. -/
def requestWord (status : Nat) (aflags : Byte) (cause : Nat) (final : Bool) (seq : W32) (e : Nat) (token : W32)
    (time index late : Nat) : BitVec 256 :=
  BitVec.ofNat 256 (0x1 + atBit 8 status + atBit 16 aflags.toNat + atBit 24 cause + atBit 31 (if final then 1 else 0)
    + atBit 32 seq.toNat + atBit 64 e + atBit 80 token.toNat + atBit 128 (time % 2 ^ 64) + atBit 192 (index % 2 ^ 24)
    + atBit 216 0x80 + atBit 224 (min late (2 ^ 32 - 1)))

/-- Whether a token ends its request (R234). -/
def Entry.finalToken (x : Entry) (t : TokenOut) : Bool := t.token == x.eos || t.index == x.glen

/-- A token of entry e is handed over now and judged against its deadline (R233, R235 to R237): the record's bits, with
the grid, the counters and the entry's CAUSE as they then stand. `held` says that its record waited for ring space. -/
def Dev.judge (d : Dev) (e : Nat) (t : TokenOut) (held : Bool) : Dev × BitVec 256 :=
  let x := d.entry e
  let c := d.cadence x.part
  let late := x.deadline < d.time
  let lateNs := d.time - x.deadline
  let cause := if late then x.causes.foldl min (if held then 7 else 8) else 0
  let word := requestWord (if late then 1 else 0) t.aflags cause (x.finalToken t) x.seq e t.token d.time t.index lateNs
  let d := if t.index = 1 then d.releasePf e else d
  let d := d.modEntry e (fun x => { x with
    causes := []
    cause := if late then cause else x.cause
    deadline := if late ∨ held then d.time + 2 * c else x.deadline + c })
  if late then
    let d := d.addF (rSrvLate x.part) fSrvLate_Late 1
    let d := d.putF (rSrvLateMax x.part) fSrvLateMax_Max
      (max (d.getF (rSrvLateMax x.part) fSrvLateMax_Max) (min lateNs (2 ^ 31 - 1)))
    (d.raise (pgSrv 0) (2 ^ x.part), word)
  else (d, word)

/-- A final record that is no token joins those ready: CANCELLED or ABORTED (R231, R238). The spec gives its AFLAGS and
INDEX no value: they are drawn free. -/
def Dev.pushFinal (d : Dev) (e status cause : Nat) : Dev :=
  let x := d.entry e
  let w := requestWord status (BitVec.ofNat 8 (Config.freeWord d.free)) cause true x.seq e 0 d.time
    (Config.freeWord (d.free + 1)) 0
  let r : Ready := {
    group := none, ring := x.ring, irqNow := false, notOk := true, word := w, entry := some e, final := true }
  { d with free := d.free + 2, cq := { d.cq with ready := d.cq.ready ++ [r] } }

/-- Outstanding reads of a token list are no longer waited for. -/
def Dev.dropTokenReads (d : Dev) (e : Nat) : Dev :=
  { d with hif := { d.hif with reads := d.hif.reads.filter (fun r => r.purpose != .tokens e) } }

/-- A request closes with a final record of its own (R216). -/
def Dev.closeWith (d : Dev) (e status cause : Nat) : Dev :=
  let d := (d.dropTokenReads e).modEntry e (fun x => { x with state := .closing, outs := [] })
  d.pushFinal e status cause

/-- A request is aborted with a cause (R236, R238): REQUEST_ABORT. -/
def Dev.abortEntry (d : Dev) (e cause : Nat) : Dev :=
  let x := d.entry e
  if !x.occupied ∨ x.state = .closing then d
  else
    let d := (d.addF (rSrvAbort x.part) fSrvAbort_Abort 1).modEntry e (fun x => { x with cause := cause })
    (d.closeWith e 0x11 cause).raise (pgSrv 0) (2 ^ (8 + x.part))

/-- The occupied entries that `who` selects, ascending. -/
def Dev.entriesWhere (d : Dev) (who : Entry → Bool) : List Nat :=
  (d.srv.entries.filter (fun e => e.2.occupied && who e.2)).map (·.1)

/-- Every request of partition p is aborted, and its charges are released (R238). -/
def Dev.abortAll (d : Dev) (p cause : Nat) : Dev :=
  let es := d.entriesWhere (fun x => x.part == p)
  let d := es.foldl (fun d e => d.abortEntry e cause) d
  let d := es.foldl (fun d e => d.releaseCharges e) d
  d.onSrv (fun s => { s with
    cycles := tdel s.cycles p, stepsDone := tdel s.stepsDone p, foldRuns := tdel s.foldRuns p, foldFrom := tdel s.foldFrom p })

/-- Whether tokens of entry e have still to be handed over: produced ones, and those whose records wait for room (R233). -/
def Dev.owesTokens (d : Dev) (e : Nat) : Bool :=
  !(d.entry e).outs.isEmpty || d.cq.ready.any (fun y => y.entry == some e && y.tok.isSome)

/-- A cancelled request closes, once the tokens of the step it was in are handed over (R231). -/
def Dev.cancelEntry (d : Dev) (e : Nat) : Dev :=
  let x := d.entry e
  if !x.occupied ∨ x.state = .closing then d
  else if !d.owesTokens e then d.closeWith e 0x10 0
  else d.modEntry e (fun x => { x with cancelled := true })

/-- The requests of VF v are cancelled (R333 item 3). -/
def Dev.cancelOwned (d : Dev) (v : Nat) : Dev := (d.entriesWhere (fun x => x.func == v)).foldl (fun d e => d.cancelEntry e) d

/-- A cause occurs in partition p: it counts for every request whose next deadline has not passed (R236). -/
def Dev.noteCause (d : Dev) (p cause : Nat) : Dev :=
  d.onSrv (fun s => { s with entries := s.entries.map (fun (e : Nat × Entry) =>
    if e.2.occupied && e.2.part == p && d.time ≤ e.2.deadline && !e.2.causes.contains cause then
      (e.1, { e.2 with causes := e.2.causes ++ [cause] }) else e) })

/-- What the handover of a token of entry e does to its request: the first one takes it from PREFILL to DECODE, where it steps from
the next cycle on (Table 8-3, R232); the last one of a cancelled request closes it (R231). -/
def Dev.handedOver (d : Dev) (e : Nat) : Dev :=
  let x := d.entry e
  let d := if x.state = .prefill then d.modEntry e (fun x => { x with state := .decode, fresh := true })
    else if x.state = .held ∧ x.before = .prefill then d.modEntry e (fun x => { x with before := .decode, fresh := true })
    else d
  if x.cancelled ∧ x.state ≠ .closing ∧ !d.owesTokens e then d.closeWith e 0x10 0 else d

/-- A record of entry e waits for ring space (R235). -/
def Dev.enterHeld (d : Dev) (e : Nat) : Dev :=
  let x := d.entry e
  if x.state = .prefill ∨ x.state = .decode then d.modEntry e (fun x => { x with state := .held, before := x.state }) else d

/-- A request record has been written or discarded: a final one frees its entry; the last one held returns its request to
its earlier state (R216, R235). -/
def Dev.afterRecord (d : Dev) (x : Ready) : Dev :=
  match x.entry with
  | none => d
  | some e =>
    if x.final then d.freeEntry e
    else if (d.entry e).state = .held ∧ !d.cq.ready.any (fun y => y.entry == some e) then
      d.modEntry e (fun x => { x with state := x.before })
    else d

/-- Ready records that `who` selects are discarded (R333 item 4). -/
def Dev.discardRecords (d : Dev) (who : Ready → Bool) : Dev :=
  let gone := d.cq.ready.filter who
  let d := { d with cq := { d.cq with ready := d.cq.ready.filter (fun x => !who x) } }
  gone.foldl (fun d x => d.afterRecord x) d

/-! ## Loads that end (R261, R265, R269, R361) -/

/-- A MODEL_LOAD or DELTA_PUT ends: a slot still LOADING returns to EMPTY, a version still LOADING to FREE. -/
def Dev.loadEnded (d : Dev) (x : Cmd) : Dev :=
  if bitsOf x.word 4 8 = 0x10 ∧ d.slotState x.slot = 1 then d.enterSlotState x.slot 0
  else if bitsOf x.word 4 8 = 0x12 ∧ (d.version x.slot).state = .loading then d.freeVersion x.slot
  else d

/-- The submission slots of function v answer NONE (R333 item 8). -/
def Dev.answersNone (d : Dev) (v : Nat) : Dev :=
  d.onSrv (fun s => { s with answers := s.answers.filter (fun a => a.1 / 256 != v) })

/-- The serving engine loses everything (R391, Table 15-5). -/
def Dev.dropServing (d : Dev) : Dev := { d with srv := {} }

end Sys2Proof.Machine
end

