-- ==== Sys2Proof/Machine/Rings.lean ====
section
/-! DEFINITION. Completion rings (05 R142, R145, R147 to R149): writing a record, holding it for room, losing or
discarding it, and moderation. Request records (08 R234) use the same rings. -/

namespace Sys2Proof.Machine

/-- Records the ring holds and the consumer has not taken. -/
def Dev.ringUsed (d : Dev) (r : Nat) : Nat :=
  (d.getF (rCqRTail r) fCqRTail_Tail + 2 ^ 32 - d.getF (rCqRHead r) fCqRHead_Head) % 2 ^ 32

def Dev.ringSize (d : Dev) (r : Nat) : Nat := 2 ^ d.getF (rCqRCfg r) fCqRCfg_Log2n

/-- Whether the device may write the next record (R147). -/
def Dev.ringRoom (d : Dev) (r : Nat) : Bool := d.ringUsed r < d.ringSize r

/-- PHASE of the next record: 1 on the first lap, inverted on each lap (Table 5-7). -/
def Dev.ringPhase (d : Dev) (r : Nat) : Nat :=
  if d.getF (rCqRTail r) fCqRTail_Tail / d.ringSize r % 2 = 0 then 1 else 0

/-- CQ_R_ERR counts a record lost or discarded, and the ring's bit sets (R148). -/
def Dev.ringErr (d : Dev) (r : Nat) : Dev :=
  (d.addF (rCqRErr r) fCqRErr_Err 1).raise (pgCqR r) (2 ^ (r % 32))

/-- The ring signals: one message, count cleared, timer stopped (R149). -/
def Dev.ringSignal (d : Dev) (r : Nat) : Dev :=
  let d := d.sendMsg (d.getF (rCqRCfg r) fCqRCfg_Func, d.getF (rCqRCfg r) fCqRCfg_Vec)
  { d with cq := { d.cq with modCount := tset d.cq.modCount r 0, modStart := tdel d.cq.modStart r } }

/-- Moderation after the write of a record (R149). -/
def Dev.moderate (d : Dev) (r : Nat) (irqNow notOk : Bool) : Dev :=
  let n := tget d.cq.modCount 0 r + 1
  let d := { d with cq := { d.cq with modCount := tset d.cq.modCount r n, modStart := if n = 1 then tset d.cq.modStart r d.time else d.cq.modStart } }
  let lim := max 1 (d.getF (rCqRMod r) fCqRMod_Count)
  if lim ≤ n ∨ irqNow ∨ (notOk ∧ d.getF (rCqRCfg r) fCqRCfg_ErrNow = 1) then d.ringSignal r else d

/-- A record leaves for its ring, which has room or is disabled: discarded where EN is clear, lost where the link drops it,
else written as one 32-byte posted write with its PHASE, Relaxed Ordering and No Snoop clear (R147, R148, R176). -/
def Dev.ringPut (d : Dev) (x : Ready) : Dev :=
  let r := x.ring
  if d.getF (rCqRCfg r) fCqRCfg_En = 0 then d.ringErr r
  else
    let i := d.getF (rCqRTail r) fCqRTail_Tail
    if !d.canSend (d.getF (rCqRCfg r) fCqRCfg_Func) then
      (d.txDrop.ringErr r).rollF (rCqRTail r) fCqRTail_Tail 1
    else
      let a := fld (d.reg (rCqRBase r)) fCqRBase_Base * 4096 + 32 * (i % d.ringSize r)
      let w := x.word.toNat + atBit 4 (d.ringPhase r)
      let d := { d with host := d.host.putBytes a (leBytes 32 w) }.sendOut
        (.posted (d.getF (rCqRCfg r) fCqRCfg_Func) a (leBytes 32 w) false false false)
      (d.rollF (rCqRTail r) fCqRTail_Tail 1).moderate r x.irqNow x.notOk

/-- Whether a record must wait: its ring is enabled and full, or an earlier record of the ring is held (R148). -/
def Dev.mustHold (d : Dev) (x : Ready) : Bool :=
  d.getF (rCqRCfg x.ring) fCqRCfg_En == 1
    && (!d.ringRoom x.ring || d.cq.ready.any (fun y => y.ring == x.ring && y.held && y != x))

/-- A request record with the TIME given (Table 8-7). -/
def withTime (w : BitVec 256) (time : Nat) : BitVec 256 :=
  BitVec.ofNat 256 (w.toNat - atBit 128 (bitsOf w 128 64) + atBit 128 (time % 2 ^ 64))

/-- The record as it goes out: an uncorrectable completion entry gives META_UNCORR and zero fields (R339); a token not yet
judged is handed over, and judged, now, and a final record that waited for room takes the time of its write (R233, R235). -/
def Dev.entryWord (d : Dev) (x : Ready) : Dev × Ready :=
  match x.group with
  | none =>
    match x.entry, x.tok with
    | some e, some t =>
      let (d, w) := d.judge e t x.held
      (d, { x with word := w, tok := none, notOk := bitsOf w 8 8 != 0 })
    | _, _ => (d, if x.held then { x with word := withTime x.word d.time } else x)
  | some g =>
    let (d, ue) := d.readWord .complEntry g x.queue
    if ue then (d, { x with word := BitVec.ofNat 256 (0x1 + atBit 8 0x60), notOk := true }) else (d, x)

/-- Record x, which a ring is to hold no more, goes out, and its request goes on (R233, R235). -/
def Dev.putRecord (d : Dev) (x : Ready) : Dev :=
  let (d, y) := d.entryWord x
  let d := { d with cq := { d.cq with ready := d.cq.ready.erase x } }
  let d := match x.entry, x.tok with
    | some e, some _ => d.handedOver e
    | _, _ => d
  (d.ringPut y).afterRecord x

/-- A record marked as waiting for room, where it is `x`. -/
def markHeld (x y : Ready) : Ready := if y = x then { y with held := true } else y

/-- The oldest record of a ring that has not been issued is issued: held where it must wait, else put (R147, R148). -/
def Dev.issueRecord (d : Dev) (x : Ready) : Dev :=
  if d.mustHold x then
    let d := { d with cq := { d.cq with ready := d.cq.ready.map (markHeld x) } }
    match x.entry with
    | none => d
    | some e => d.enterHeld e
  else d.putRecord x

/-- Held records of a ring are written while it has room, in order; all are discarded when the ring is disabled
(R148: HELD_RECORD_WRITE). Fuel bounds their number. -/
def Dev.writeHeld : Nat → Dev → Nat → Dev
  | 0, d, _ => d
  | k + 1, d, r =>
    match d.cq.ready.find? (fun x => x.ring == r && x.held) with
    | none => d
    | some x =>
      if d.getF (rCqRCfg r) fCqRCfg_En = 1 ∧ !d.ringRoom r then d
      else Dev.writeHeld k (d.putRecord x) r

/-- Every held record of a ring that can go. -/
def Dev.flushHeld (d : Dev) (r : Nat) : Dev := Dev.writeHeld d.cq.ready.length d r

/-- Completion entries of a group (a sector's partition, or 7 for device-level queues) that are taken: running commands
and records not yet written (R142). -/
def Dev.entriesUsed (d : Dev) (g : Nat) : Nat :=
  (d.cq.cmds.filter (fun c => !c.serving && c.part == g)).length
    + (d.cq.ready.filter (fun x => x.group == some g)).length

/-- Completion entries a group has (R142). -/
def Dev.entriesOf (d : Dev) (g : Nat) : Nat := if g = 7 then 16 else 40 * (d.sectorsOf g).length

/-- A completion record (Table 5-7) of a command, with PHASE 0. -/
def completionWord (status aflags : Byte) (queue seq handle ctx vaddr time detail opcode : Nat) : BitVec 256 :=
  BitVec.ofNat 256 (0x1 + atBit 8 status.toNat + atBit 16 aflags.toNat + atBit 24 (queue % 128) + atBit 32 (seq % 2 ^ 32)
    + atBit 64 (handle % 4096) + atBit 76 (ctx % 16) + atBit 80 (vaddr % 2 ^ 48) + atBit 128 (time % 2 ^ 64)
    + atBit 192 (detail % 2 ^ 24) + atBit 216 (opcode % 256))

/-- A record joins those ready, unless its command completed with OK under NOCOMP (R145); its completion entry's word is
written. -/
def Dev.pushRecord (d : Dev) (x : Ready) (suppressed : Bool) : Dev :=
  if suppressed then d else
    let d := match x.group with
      | none => d
      | some g => d.dropWords .complEntry g [x.queue]
    { d with cq := { d.cq with ready := d.cq.ready ++ [x] } }

/-- A command of queue `q` ends with a status: its record is ready (suppressed under NOCOMP with OK), and CCNT counts it
(R132, R145). -/
def Dev.finishRecord (d : Dev) (q part : Nat) (recd : Rec) (status aflags : Byte) (handle vaddr detail : Nat) : Dev :=
  let x : Ready := {
    group := some part, ring := d.getF (rCqQCfg q) fCqQCfg_Ring, irqNow := bitOf recd 18,
    notOk := status != 0, queue := q,
    word := completionWord status aflags q (bitsOf recd 32 32) handle (bitsOf recd 88 4) vaddr d.time detail (bitsOf recd 4 8) }
  (d.pushRecord x (bitOf recd 17 && status == 0)).rollF (rCqQCcnt q) fCqQCcnt_Ccnt 1

/-- COMPLETION_RECORD_WRITE (R147): the oldest completion record of the ring not yet issued is issued. -/
def Dev.completionRecordWrite (d : Dev) (r : Nat) : Dev :=
  match d.cq.ready.find? (fun x => x.ring == r && !x.held && x.group.isSome) with
  | none => d
  | some x => d.issueRecord x

/-- MODERATION_TIMER (R149): the ring's timer is compared with DEV_TIME. -/
def Dev.moderationTimer (d : Dev) (r : Nat) : Dev :=
  let t := d.getF (rCqRMod r) fCqRMod_Timer
  match tfind d.cq.modStart r with
  | none => d
  | some t0 => if t ≠ 0 ∧ t0 + 1000 * t ≤ d.time then d.ringSignal r else d

end Sys2Proof.Machine
end

