-- ==== Sys2Proof/Machine/Commands.lean ====
section
/-! DEFINITION. Started commands: their engines, their outcome and their end (05 R140 to R146, R150; 04 R86, R126; 10 R302,
R303), and the queues' storage (05 R130, R132). -/

namespace Sys2Proof.Machine

/-- The records waiting in a queue's storage, oldest first. -/
def Dev.waiting (d : Dev) (q : Nat) : List Rec := tget d.cq.storage [] q

def Dev.setWaiting (d : Dev) (q : Nat) (rs : List Rec) : Dev :=
  { d with cq := { d.cq with storage := tset d.cq.storage q rs } }

/-- A record joins a queue's storage, last in the arrival order of all submissions (R79, R132). -/
def Dev.enqueue (d : Dev) (q : Nat) (r : Rec) : Dev :=
  let d := d.setWaiting q (d.waiting q ++ [r])
  { d with cq := { d.cq with
      stamps := tset d.cq.stamps q (tget d.cq.stamps [] q ++ [d.cq.nextStamp]), nextStamp := d.cq.nextStamp + 1 } }

/-- The partition a queue is bound to, 7 for the device. -/
def Dev.queuePart (d : Dev) (q : Nat) : Nat := d.getF (rCqQCfg q) fCqQCfg_Part

/-- The head of a queue leaves its storage, with what was kept for it: SCNT advances (R132), and the next start of its
partition is looked for from the next queue number on (R140). -/
def Dev.popHead (d : Dev) (q : Nat) : Dev :=
  let d := (d.setWaiting q ((d.waiting q).drop 1)).rollF (rCqQScnt q) fCqQScnt_Scnt 1
  { d with cq := { d.cq with
      stamps := tset d.cq.stamps q ((tget d.cq.stamps [] q).drop 1)
      checked := tdel d.cq.checked q, fetched := tdel d.cq.fetched q
      turns := tset d.cq.turns (d.queuePart q) ((q + 1) % 128) } }

/-- The position of a queue's head in the arrival order of all submissions. -/
def Dev.headStamp (d : Dev) (q : Nat) : Nat := (tget d.cq.stamps [] q).headD 0

def Dev.queueFunc (d : Dev) (q : Nat) : Nat := d.getF (rCqQCfg q) fCqQCfg_Func

def Dev.queueEn (d : Dev) (q : Nat) : Bool := d.getF (rCqQCfg q) fCqQCfg_En == 1

/-- Host reads for the head of queue q are no longer waited for. -/
def Dev.dropHeadReads (d : Dev) (q : Nat) : Dev :=
  { d with hif := { d.hif with reads := d.hif.reads.filter (fun r => r.purpose != .head q) } }

/-- Records of a queue accepted and not started are discarded: FLUSHED counts them and SCNT advances (R150 step 3); what
was asked of host memory for its head is no longer waited for. -/
def Dev.flushQueue (d : Dev) (q : Nat) : Dev :=
  let n := (d.waiting q).length
  let d := (((d.setWaiting q []).dropHeadReads q).addF (rCqQFlushed q) fCqQFlushed_Flushed n).rollF (rCqQScnt q) fCqQScnt_Scnt n
  { d with
    cq := { d.cq with stamps := tdel d.cq.stamps q, checked := tdel d.cq.checked q, fetched := tdel d.cq.fetched q } }

def Dev.tile (d : Dev) (t : Nat) : Tile := tget d.tiles {} t

def Dev.modTile (d : Dev) (t : Nat) (f : Tile → Tile) : Dev := { d with tiles := tmod d.tiles {} t f }

/-- The tiles of a command run no command: their clock is stopped, arrival counters and SRAM stand (R367). -/
def Dev.freeTiles (d : Dev) (c : Nat) : Dev :=
  { d with tiles := d.tiles.map (fun e => if e.2.cmd = some c then (e.1, { arrival := e.2.arrival }) else e) }

/-- The command is no longer among those started. -/
def Dev.dropCmd (d : Dev) (c : Nat) : Dev :=
  { d with cq := { d.cq with cmds := d.cq.cmds.filter (fun x => x.id != c) } }

/-- The hen operations a command dispatched. -/
def Dev.henOpsOf (d : Dev) (c : Nat) : List HenOp := d.henOps.filter (fun o => o.cmd == c)

/-- Hen operations of a command leave the stack controllers. -/
def Dev.dropHenOps (d : Dev) (c : Nat) : Dev := { d with henOps := d.henOps.filter (fun o => o.cmd != c) }

/-- Whether an outstanding host read is one of command c: its own, or one of its tiles'. -/
def Dev.readsFor (d : Dev) (c : Nat) (p : ReadFor) : Bool :=
  match p with
  | .cmd c' => c' == c
  | .op t _ => (d.tile t).cmd == some c
  | .head k => 128 ≤ k && (d.tile (k - 128)).cmd == some c
  | .tokens _ => false

/-- Outstanding host reads of a command and of its tiles are no longer waited for. -/
def Dev.dropReads (d : Dev) (c : Nat) : Dev :=
  { d with
    hif := { d.hif with reads := d.hif.reads.filter (fun r => !d.readsFor c r.purpose) }
    cq := { d.cq with fetched := d.cq.fetched.filter (fun e => !d.readsFor c (.head e.1)) } }

/-- The status of a command that has run (Table 5-6, R303): what failed it, else FOLD_STOP, FOLD_GAP, POISON_WRITTEN,
ILLEGAL_SKIPPED or OK. -/
def Cmd.finalStatus (x : Cmd) : Byte :=
  if x.faultAt.isSome then x.status
  else if x.foldStop then 0x55
  else if x.foldGap then 0x54
  else if x.poisonWritten then 0x02
  else if x.skips ≠ 0 then 0x01
  else 0

/-- DETAIL of a completion record: the skip count of ILLEGAL_SKIPPED, saturating; what the status set otherwise. -/
def Cmd.finalDetail (x : Cmd) : Nat :=
  if x.finalStatus = 0x01 then min x.skips (2 ^ 24 - 1) else x.detail

/-- A started command ends: its engines are free and its record is ready (R145, R157). -/
def Dev.endCmd (d : Dev) (x : Cmd) : Dev :=
  let d := (((((d.dropReads x.id).freeTiles x.id).dropHenOps x.id).dropCmd x.id).loadEnded x)
  if x.serving then d
  else d.finishRecord x.queue x.part x.word x.finalStatus x.aflags x.handle x.vaddr x.finalDetail

/-- A started command ends with a status of its own (RESET_LOST, TIMEOUT, HANG, EPOCH_...), whatever it met before. -/
def Dev.endCmdWith (d : Dev) (x : Cmd) (status detail : Nat) : Dev :=
  d.endCmd { x with status := BitVec.ofNat 8 status, faultAt := some d.time, detail := detail, handle := 0, vaddr := 0 }

/-- The commands of a partition, in start order. -/
def Dev.cmdsOf (d : Dev) (p : Nat) : List Cmd := d.cq.cmds.filter (fun x => x.part == p)

/-- OPCODE of a command. -/
def Cmd.opcode (x : Cmd) : Nat := bitsOf x.word 4 8

/-- Whether every tile of a command has ended and nothing it started is outstanding (R86, R157). -/
def Dev.cmdDrained (d : Dev) (x : Cmd) : Bool :=
  d.tiles.all (fun e => e.2.cmd != some x.id || ((e.2.ended || e.2.stopped) && e.2.outs.isEmpty && e.2.inflight.isEmpty))
    && !d.henOps.any (fun o => o.cmd == x.id)
    && !d.hif.reads.any (fun r => r.purpose == .cmd x.id)

/-- Whether a started command has nothing left to do. -/
def Dev.cmdDone (d : Dev) (x : Cmd) : Bool :=
  d.cmdDrained x && (!x.fold || x.foldEnded)
    && (match x.phase with
        | .waiting => false
        | .running => x.opcode == 0x01 || x.opcode == 0x14
        | .stopping => true
        | .finished => true)

/-- A command's timeout in µs (R143). -/
def Dev.timeoutOf (d : Dev) (x : Cmd) : Nat :=
  let t := bitsOf x.word 64 24
  let z := d.getF (rCqQTmo x.queue) fCqQTmo_Default
  if t ≠ 0 then t else if z ≠ 0 then z else 16777215

/-- Whether a command uses sector k: a tile of it, or a unit of it among its engines. -/
def Cmd.usesSector (x : Cmd) (k : Nat) : Bool :=
  x.tiles.any (fun t => t / 24 == k)
    || x.engines.any (fun u => u.kind == .dma && u.index / 4 == k)

/-- The sectors that a command used run it no longer (R367). -/
def Dev.leaveSectors (d : Dev) (x : Cmd) : Dev :=
  ((List.range 6).filter (fun k => x.usesSector k)).foldl (fun d k => d.modSect k (fun s => { s with idleSince := d.time })) d

/-- A stopped command gives up what it has not performed: operations outstanding on its tiles, queued atomics and hen
operations (R59: accesses already issued complete; what has not been issued does not happen). -/
def Dev.abandon (d : Dev) (c : Nat) : Dev :=
  let d : Dev := { d with tiles := d.tiles.map (fun (e : Nat × Tile) =>
    if e.2.cmd = some c then (e.1, { e.2 with outs := [], inflight := [], atoms := [], stopped := true }) else e) }
  (d.dropHenOps c).dropReads c

end Sys2Proof.Machine
end

