-- ==== Sys2Proof/Machine/Flags.lean ====
section
/-! DEFINITION. Number formats, FP32 arithmetic, functions, conversions and the arithmetic flags they raise
(02_arithmetic.md R19 to R23, R30, R38 to R42). A finite value is held exactly, as a sign, a magnitude and a power of two,
and is rounded once, to nearest even. -/

namespace Sys2Proof.Machine

/-! ## The arithmetic flag byte (Table 2-6) -/

def flInexact : Byte := 0x01
def flRange : Byte := 0x02
def flInvalid : Byte := 0x04
def flOverflow : Byte := 0x08
def flSaturate : Byte := 0x10

/-- A flag when a condition holds. -/
def flagIf (c : Bool) (f : Byte) : Byte := if c then f else 0

/-! ## Exact values -/

/-- A number: NaN, an infinity, or ± m × 2^e. -/
inductive Num where
  | nan
  | inf (neg : Bool)
  | fin (neg : Bool) (m : Nat) (e : Int)
  deriving DecidableEq, Repr

def Num.isNan : Num → Bool
  | .nan => true
  | _ => false

def Num.isInf : Num → Bool
  | .inf _ => true
  | _ => false

def Num.neg : Num → Bool
  | .nan => false
  | .inf n => n
  | .fin n _ _ => n

def Num.isZero : Num → Bool
  | .fin _ m _ => m == 0
  | _ => false

/-- A floating-point format: its width, significand bits with the leading one, weight of the least subnormal bit, and the
largest finite value as significand and power of two. -/
structure Fmt where
  width : Nat
  p : Nat
  qmin : Int
  maxSig : Nat
  maxQ : Int
  deriving DecidableEq, Repr

def fmtE4M3 : Fmt := ⟨8, 4, -9, 14, 5⟩
def fmtE5M2 : Fmt := ⟨8, 3, -16, 7, 13⟩
def fmtE2M1 : Fmt := ⟨4, 2, -1, 3, 1⟩
def fmtBF16 : Fmt := ⟨16, 8, -133, 255, 120⟩
def fmtFP32 : Fmt := ⟨32, 24, -149, 0xFFFFFF, 104⟩

/-- The value of a finite code of a format. -/
def Fmt.value (f : Fmt) (code : Nat) : Num :=
  let neg := code / 2 ^ (f.width - 1) % 2 == 1
  let x := code % 2 ^ (f.width - 1) / 2 ^ (f.p - 1)
  let man := code % 2 ^ (f.p - 1)
  if x = 0 then .fin neg man f.qmin else .fin neg (man + 2 ^ (f.p - 1)) (f.qmin + x - 1)

/-- A magnitude shifted right with rounding to nearest even. -/
def rneShift (m sh : Nat) : Nat :=
  if sh = 0 then m
  else
    let q := m / 2 ^ sh
    let r := m % 2 ^ sh
    let half := 2 ^ (sh - 1)
    if half < r ∨ (r = half ∧ q % 2 = 1) then q + 1 else q

/-- A positive magnitude rounded to the format's precision as if its exponent range were unbounded above: significand and
power of two. -/
def Fmt.round (f : Fmt) (m : Nat) (e : Int) : Nat × Int :=
  let top : Int := e + Nat.log2 m
  let q := max (top - (f.p - 1)) f.qmin
  let s := if q ≤ e then m * 2 ^ (e - q).toNat else rneShift m (q - e).toNat
  if s = 2 ^ f.p then (2 ^ (f.p - 1), q + 1) else (s, q)

/-- Whether a rounded magnitude exceeds the largest finite value. -/
def Fmt.exceeds (f : Fmt) (x : Nat × Int) : Bool := f.maxQ < x.2 || (x.2 == f.maxQ && f.maxSig < x.1)

/-- The code of a sign and a rounded magnitude within range. -/
def Fmt.encode (f : Fmt) (neg : Bool) (x : Nat × Int) : Nat :=
  (if neg then 2 ^ (f.width - 1) else 0)
    + (if x.1 < 2 ^ (f.p - 1) then x.1 else (x.2 - f.qmin + 1).toNat * 2 ^ (f.p - 1) + (x.1 - 2 ^ (f.p - 1)))

/-- The code of the largest finite magnitude of a sign. -/
def Fmt.maxCode (f : Fmt) (neg : Bool) : Nat := f.encode neg (f.maxSig, f.maxQ)

/-! ## FP32 -/

def qnan : W32 := 0x7FC00000

def infOf (neg : Bool) : W32 := if neg then 0xFF800000 else 0x7F800000

/-- The exact value of an FP32 word. -/
def numOf (w : W32) : Num :=
  let x := w.toNat / 2 ^ 23 % 256
  if x = 255 then (if w.toNat % 2 ^ 23 = 0 then .inf (w.toNat / 2 ^ 31 == 1) else .nan)
  else fmtFP32.value w.toNat

def isNan32 (w : W32) : Bool := (numOf w).isNan

/-- ± m × 2^e rounded once to FP32; beyond range the infinity of its sign, with OVERFLOW (R28, R38). -/
def round32 (neg : Bool) (m : Nat) (e : Int) : W32 × Byte :=
  if m = 0 then (if neg then 0x80000000 else 0, 0)
  else
    let x := fmtFP32.round m e
    if fmtFP32.exceeds x then (infOf neg, flOverflow) else (BitVec.ofNat 32 (fmtFP32.encode neg x), 0)

/-- The signed integer of a sign and a magnitude, at a lower power of two. -/
def alignTo (neg : Bool) (m : Nat) (e lo : Int) : Int :=
  let v : Int := (m * 2 ^ (e - lo).toNat : Nat)
  if neg then -v else v

/-- The sum of two finite values, rounded once; an exact zero is −0 when both operands are −0 (IEEE 754). -/
def sumFin (n1 : Bool) (m1 : Nat) (e1 : Int) (n2 : Bool) (m2 : Nat) (e2 : Int) : W32 × Byte :=
  let lo := min e1 e2
  let s := alignTo n1 m1 e1 lo + alignTo n2 m2 e2 lo
  if s = 0 then (if m1 = 0 ∧ m2 = 0 ∧ n1 ∧ n2 then 0x80000000 else 0, 0) else round32 (decide (s < 0)) s.natAbs lo

/-- A sum of two values, each exact (R38). -/
def addNum (a b : Num) : W32 × Byte :=
  match a, b with
  | .nan, _ => (qnan, 0)
  | _, .nan => (qnan, 0)
  | .inf x, .inf y => if x = y then (infOf x, 0) else (qnan, flInvalid)
  | .inf x, _ => (infOf x, 0)
  | _, .inf y => (infOf y, 0)
  | .fin n1 m1 e1, .fin n2 m2 e2 => sumFin n1 m1 e1 n2 m2 e2

/-- An exact product; `none` for infinity times zero. -/
def mulNum (a b : Num) : Option Num :=
  match a, b with
  | .nan, _ => some .nan
  | _, .nan => some .nan
  | .fin n1 m1 e1, .fin n2 m2 e2 => some (.fin (n1 != n2) (m1 * m2) (e1 + e2))
  | x, y => if x.isZero || y.isZero then none else some (.inf (x.neg != y.neg))

/-- A value rounded once to FP32. -/
def roundNum : Num → W32 × Byte
  | .nan => (qnan, 0)
  | .inf n => (infOf n, 0)
  | .fin n m e => round32 n m e

/-- FP32 addition (R38). -/
def fadd (a b : W32) : W32 × Byte := addNum (numOf a) (numOf b)

def negate32 (a : W32) : W32 := a ^^^ 0x80000000

def fsub (a b : W32) : W32 × Byte := fadd a (negate32 b)

/-- FP32 multiplication (R38). -/
def fmul (a b : W32) : W32 × Byte :=
  match mulNum (numOf a) (numOf b) with
  | none => (qnan, flInvalid)
  | some x => roundNum x

/-- a × b + c with one rounding (R38); a NaN operand gives NaN without INVALID. -/
def ffma (a b c : W32) : W32 × Byte :=
  if isNan32 a || isNan32 b || isNan32 c then (qnan, 0)
  else
    match mulNum (numOf a) (numOf b) with
    | none => (qnan, flInvalid)
    | some x => addNum x (numOf c)

/-- A key that orders FP32 words other than NaN, −0 below +0 (R38). -/
def orderKey (w : W32) : Int := if w.toNat < 2 ^ 31 then (w.toNat : Int) else -1 - (w.toNat - 2 ^ 31 : Int)

def fmax (a b : W32) : W32 :=
  if isNan32 a || isNan32 b then qnan else if orderKey a < orderKey b then b else a

def fmin (a b : W32) : W32 :=
  if isNan32 a || isNan32 b then qnan else if orderKey b < orderKey a then b else a

/-- Whether a is larger than b where an index is chosen: a NaN counts as larger than any number (R38). -/
def indexGreater (a b : W32) : Bool :=
  if isNan32 a then !isNan32 b else if isNan32 b then false else orderKey b < orderKey a

/-! ## Functions (R39) -/

/-- The quotient of two naturals times 2^e, in a form that rounds as the exact quotient does: 64 bits beyond the divisor
and one sticky bit. -/
def ratio (num den : Nat) (e : Int) : Nat × Int :=
  let k := 64 + Nat.log2 den
  let n := num * 2 ^ k
  (2 * (n / den) + (if n % den = 0 then 0 else 1), e - k - 1)

/-- The integer square root, bit by bit from bit `n` down. -/
def isqrtGo (x : Nat) : Nat → Nat → Nat
  | 0, r => r
  | n + 1, r => if (r + 2 ^ n) * (r + 2 ^ n) ≤ x then isqrtGo x n (r + 2 ^ n) else isqrtGo x n r

def isqrt (x : Nat) : Nat := isqrtGo x (Nat.log2 x / 2 + 1) 0

/-- VRCP (Table 2-10). -/
def vrcp (a : W32) : W32 × Byte :=
  match numOf a with
  | .nan => (qnan, 0)
  | .inf n => (if n then 0x80000000 else 0, 0)
  | .fin n m e =>
    if m = 0 then (infOf n, 0)
    else
      let x := ratio 1 m (-e)
      round32 n x.1 x.2

/-- 1 / √(m × 2^e) for m > 0, with one sticky bit. -/
def rsqrtPos (m : Nat) (e : Int) : Nat × Int :=
  let (m, e) := if e % 2 = 0 then (m, e) else (2 * m, e - 1)
  let k := 64 + Nat.log2 m
  let q := 2 ^ (2 * k) / m
  let s := isqrt q
  (2 * s + (if s * s * m = 2 ^ (2 * k) then 0 else 1), -(e / 2) - k - 1)

/-- VRSQ (Table 2-10). -/
def vrsq (a : W32) : W32 × Byte :=
  match numOf a with
  | .nan => (qnan, 0)
  | .inf n => if n then (qnan, flInvalid) else (0, 0)
  | .fin n m e =>
    if m = 0 then (infOf n, 0)
    else if n then (qnan, flInvalid)
    else
      let x := rsqrtPos m e
      round32 false x.1 x.2

/-- Fixed-point bits that exp2 works with (DEDUCED, log entry 18: no FP32 input has an exact result that lies nearer to a
rounding boundary than this precision separates). -/
def expPrec : Nat := 192

/-- ln 2 = Σ 2 / ((2k + 1) × 3^(2k + 1)), in fixed point. -/
def ln2Fixed : Nat :=
  (List.range 70).foldl (fun s k => s + 2 ^ (expPrec + 1) / ((2 * k + 1) * 3 ^ (2 * k + 1))) 0

/-- e^t − 1's terms t^n / n! summed from 1, in fixed point. -/
def expSum (t : Nat) : Nat → Nat → Nat → Nat → Nat
  | 0, _, _, acc => acc
  | k + 1, n, term, acc =>
    let term := term * t / 2 ^ expPrec / n
    expSum t k (n + 1) term (acc + term)

/-- 2^x for a finite x = ± m × 2^e, from the integer part and the fraction of x. An exact result below the least
subnormal reads +0 (R39: that sentence, taken as it stands; log entry 18). -/
def exp2Fin (neg : Bool) (m : Nat) (e : Int) : W32 × Byte :=
  let v : Int := (if neg then -1 else 1) * (m * 2 ^ (expPrec + e).toNat : Nat)
  let whole := v / 2 ^ expPrec
  let frac := (v % 2 ^ expPrec).toNat
  if 128 ≤ whole then (infOf false, flOverflow)
  else if whole < -149 then (0, 0)
  else if frac = 0 then round32 false 1 whole
  else
    let y := expSum (frac * ln2Fixed / 2 ^ expPrec) 60 1 (2 ^ expPrec) (2 ^ expPrec)
    round32 false (2 * y + 1) (whole - expPrec - 1)

/-- VEXP2 (Table 2-10). -/
def vexp2 (a : W32) : W32 × Byte :=
  match numOf a with
  | .nan => (qnan, 0)
  | .inf n => (if n then 0 else infOf false, 0)
  | .fin n m e => if m = 0 then (0x3F800000, 0) else exp2Fin n m e

/-- Bits of the fraction of log2 of y in [1, 2), in fixed point with `p` fraction bits, by repeated squaring. -/
def logBits (p : Nat) : Nat → Nat → Nat → Nat
  | 0, _, acc => acc
  | k + 1, y, acc =>
    let y2 := y * y / 2 ^ p
    if 2 ^ (p + 1) ≤ y2 then logBits p k (y2 / 2) (2 * acc + 1) else logBits p k y2 (2 * acc)

/-- Fraction bits of a base-2 logarithm (log entry 18). -/
def logPrec : Nat := 128

/-- log2 of m × 2^e for m > 0: an integer when m is a power of two, else never a rounding tie. -/
def log2Fin (m : Nat) (e : Int) : W32 × Byte :=
  let t := Nat.log2 m
  let whole : Int := e + t
  if m = 2 ^ t then round32 (decide (whole < 0)) whole.natAbs 0
  else
    let p := 320
    let f := logBits p logPrec (m * 2 ^ p / 2 ^ t) 0
    let v : Int := 2 * (whole * 2 ^ logPrec + f) + 1
    round32 (decide (v < 0)) v.natAbs (-(logPrec : Int) - 1)

/-- VLOG2 (Table 2-10). -/
def vlog2 (a : W32) : W32 × Byte :=
  match numOf a with
  | .nan => (qnan, 0)
  | .inf n => if n then (qnan, flInvalid) else (infOf false, 0)
  | .fin n m e =>
    if m = 0 then (infOf true, 0)
    else if n then (qnan, flInvalid)
    else log2Fin m e

/-! ## Element types (Table 3-2) -/

def tE4M3 : Nat := 0
def tE5M2 : Nat := 1
def tE2M1 : Nat := 2
def tE8M0 : Nat := 3
def tBF16 : Nat := 4
def tFP32 : Nat := 5
def tINT8 : Nat := 6
def tINT32 : Nat := 7
def tU8 : Nat := 8
def tU16 : Nat := 9
def tU32 : Nat := 10
def tU64 : Nat := 11
def tEXACT : Nat := 12

/-- Bits of an element code. -/
def elemBits (t : Nat) : Nat :=
  if t = 2 then 4 else if t = 4 ∨ t = 9 then 16 else if t = 5 ∨ t = 7 ∨ t = 10 then 32
  else if t = 11 then 64 else if t = 12 then 128 else 8

/-- The raw types of R40. -/
def isRaw (t : Nat) : Bool := t == 3 || (8 ≤ t && t ≤ 12)

def isFp8 (t : Nat) : Bool := t == 0 || t == 1

/-- The floating-point format of an element type. -/
def fmtOf (t : Nat) : Fmt :=
  if t = 0 then fmtE4M3 else if t = 1 then fmtE5M2 else if t = 2 then fmtE2M1 else if t = 4 then fmtBF16 else fmtFP32

/-- The exact value of an element code of a numeric type (R19, R20). -/
def codeNum (t code : Nat) : Num :=
  if t = 6 then .fin (decide (128 ≤ code % 256)) (signed 8 (code % 256)).natAbs 0
  else if t = 7 then .fin (decide (2 ^ 31 ≤ code % 2 ^ 32)) (signed 32 (code % 2 ^ 32)).natAbs 0
  else if t = 0 then (if code % 128 = 127 then .nan else fmtE4M3.value code)
  else if t = 1 then
    (if code / 4 % 32 = 31 then (if code % 4 = 0 then .inf (decide (128 ≤ code % 256)) else .nan) else fmtE5M2.value code)
  else if t = 2 then fmtE2M1.value code
  else if t = 4 then numOf (BitVec.ofNat 32 (code % 2 ^ 16 * 2 ^ 16))
  else numOf (BitVec.ofNat 32 code)

/-- A value with a block scale code applied: 2^(s − 127), NaN for 0xFF (R21). -/
def scaleNum (s : Nat) (x : Num) : Num :=
  if s = 255 then .nan
  else
    match x with
    | .fin n m e => .fin n m (e + s - 127)
    | x => x

/-- An element widened to FP32, with its block scale where it carries one (R40, R107). Without a scale no flag rises: every
narrow format is exact, and INT32 rounds silently. -/
def widen (t : Nat) (scale : Option Nat) (code : Nat) : W32 × Byte :=
  match scale with
  | none => ((roundNum (codeNum t code)).1, 0)
  | some s => roundNum (scaleNum s (codeNum t code))

/-! ## Narrowing (Table 2-8a) -/

/-- A finite value rounded to the nearest integer, ties to even. -/
def rneInt (neg : Bool) (m : Nat) (e : Int) : Int :=
  let v : Nat := if 0 ≤ e then m * 2 ^ e.toNat else rneShift m (-e).toNat
  if neg then -(v : Int) else v

/-- An integer clamped to a range, with SATURATE when it was outside. -/
def clampInt (lo hi v : Int) : Int × Byte :=
  if v < lo then (lo, flSaturate) else if hi < v then (hi, flSaturate) else (v, 0)

/-- A value to an integer type of `n` bits. -/
def toInt (n : Nat) (x : Num) : Nat × Byte :=
  let lo : Int := -(2 ^ (n - 1) : Int)
  let hi : Int := 2 ^ (n - 1) - 1
  match x with
  | .nan => (0, flInvalid)
  | .inf neg => (wrapNat n (if neg then lo else hi), flSaturate)
  | .fin neg m e => let r := clampInt lo hi (rneInt neg m e); (wrapNat n r.1, r.2)

/-- Whether a magnitude lies below the least subnormal of a format: R40 takes it to zero (log entry 18). -/
def Fmt.tiny (f : Fmt) (m : Nat) (e : Int) : Bool := e + Nat.log2 m < f.qmin

/-- Table 2-8a for E2M1 without block scales: a zero is always +0. -/
def toE2M1 (x : Num) : Nat × Byte :=
  match x with
  | .nan => (0, flInvalid)
  | .inf neg => (fmtE2M1.maxCode neg, flSaturate)
  | .fin neg m e =>
    if m = 0 ∨ fmtE2M1.tiny m e then (0, 0)
    else
      let r := fmtE2M1.round m e
      if fmtE2M1.exceeds r then (fmtE2M1.maxCode neg, flSaturate)
      else if r.1 = 0 then (0, 0) else (fmtE2M1.encode neg r, 0)

/-- Table 2-8a for E4M3 (t = 0), E5M2 (1) and BF16 (4), saturating or not. -/
def toFloat (t : Nat) (sat : Bool) (x : Num) : Nat × Byte :=
  let f := fmtOf t
  let sgn (neg : Bool) : Nat := if neg then 2 ^ (f.width - 1) else 0
  let infCode (neg : Bool) : Nat := sgn neg + (if t = 1 then 0x7C else 0x7F80)
  let nanCode := if t = 4 then 0x7FC0 else 0x7F
  match x with
  | .nan => (nanCode, 0)
  | .inf neg =>
    if sat then (f.maxCode neg, flSaturate) else if t = 0 then (0x7F, flInvalid) else (infCode neg, 0)
  | .fin neg m e =>
    if m = 0 ∨ f.tiny m e then (sgn neg, 0)
    else
      let r := f.round m e
      if f.exceeds r then
        if sat then (f.maxCode neg, flSaturate)
        else if t = 0 then (0x7F, flInvalid) else (infCode neg, flOverflow)
      else (f.encode neg r, 0)

/-- FP32 converted to an element type (Table 2-8a): `mode` none is the default of R40, some b is saturating or not. -/
def narrow (t : Nat) (mode : Option Bool) (w : W32) : Nat × Byte :=
  if t = 5 then (w.toNat, 0)
  else if t = 6 then toInt 8 (numOf w)
  else if t = 7 then toInt 32 (numOf w)
  else if t = 2 then toE2M1 (numOf w)
  else toFloat t (mode.getD (t != 4)) (numOf w)

/-! ## Block quantisation (R41) -/

def fp32Max : Num := .fin false 0xFFFFFF 104

/-- The power of two of the leading bit of an FP32 magnitude, an infinity counted as the largest finite; `none` for 0. -/
def leadOf (w : W32) : Option Int :=
  match numOf w with
  | .nan => none
  | .inf _ => some 127
  | .fin _ m e => if m = 0 then none else some (e + Nat.log2 m)

/-- emax of R41. -/
def emaxOf (t : Nat) : Int := if t = 2 then 2 else if t = 0 then 8 else 15

/-- One value of a block of exponent e: its code. -/
def quantOne (t : Nat) (e : Int) (w : W32) : Nat :=
  let f := fmtOf t
  match numOf w with
  | .nan => 0
  | .inf neg => f.maxCode neg
  | .fin neg m q =>
    let z : Nat := if neg ∧ t ≠ 2 then 2 ^ (f.width - 1) else 0
    if m = 0 then z
    else
      let r := f.round m (q - e)
      if f.exceeds r then f.maxCode neg else if r.1 = 0 then z else f.encode neg r

/-- 32 values to a scale code and element codes of type t. -/
def quantise (t : Nat) (vs : List W32) : Nat × List Nat × Byte :=
  if vs.any isNan32 then (0xFF, vs.map (fun _ => 0), 0)
  else
    match (vs.filterMap leadOf).foldl (fun (b : Option Int) x => some (match b with | none => x | some y => max x y)) none with
    | none => (0x7F, vs.map (fun _ => 0), 0)
    | some top =>
      let e := max (-127) (min 127 (top - emaxOf t))
      ((e + 127).toNat, vs.map (quantOne t e), flagIf (vs.any (fun w => (numOf w).isInf)) flSaturate)

/-! ## Element conversion between two types (R40) -/

/-- The code of type `td` that a code of type `ts`, with its block scale, converts to; equal types without scales, and any
pair with a raw type, move bit for bit. Quantising destinations are the caller's. -/
def convert (ts td : Nat) (scale : Option Nat) (mode : Option Bool) (code : Nat) : Nat × Byte :=
  if (ts = td ∧ scale.isNone) ∨ isRaw ts ∨ isRaw td then (code % 2 ^ elemBits td, 0)
  else
    let w := widen ts scale code
    let r := narrow td mode w.1
    (r.1, w.2 ||| r.2)

end Sys2Proof.Machine
end

