-- ==== Sys2Proof/Machine/Accum.lean ====
section
/-! DEFINITION. The exact accumulator, block scales, readout, the BF16 tree and exact partials (02_arithmetic.md R23 to R37,
R45, R46). Tiles and hens share every definition of this file (R35). -/

namespace Sys2Proof.Machine

/-! ## Marks -/

def Marks.or (a b : Marks) : Marks where
  inexact := a.inexact || b.inexact
  range := a.range || b.range
  nan := a.nan || b.nan
  pinf := a.pinf || b.pinf
  ninf := a.ninf || b.ninf

/-- Bits 126:122 of an exact partial (Table 2-9). -/
def Marks.bits (m : Marks) : Nat :=
  (if m.inexact then 1 else 0) + (if m.range then 2 else 0) + (if m.nan then 4 else 0) + (if m.pinf then 8 else 0)
    + (if m.ninf then 16 else 0)

def marksOf (n : Nat) : Marks where
  inexact := n.testBit 0
  range := n.testBit 1
  nan := n.testBit 2
  pinf := n.testBit 3
  ninf := n.testBit 4

/-! ## Terms (R25, R26) -/

/-- A magnitude m × 2^e shifted to the anchor, and whether a non-zero bit was lost. -/
def shiftTo (m : Nat) (e anchor : Int) : Nat × Bool :=
  if anchor ≤ e then (m * 2 ^ (e - anchor).toNat, false)
  else
    let sh := (anchor - e).toNat
    (m / 2 ^ sh, m % 2 ^ sh != 0)

/-- Terms that one accumulation takes before RANGE is set. -/
def termLimit : Nat := 2 ^ 24

/-- One term: the product of two element values under a combined block scale (`none`: a NaN block scale), added to what an
instruction contributes. -/
def LaneProd.addTerm (p : LaneProd) (anchor : Int) (scale : Option Int) (a b : Num) : LaneProd :=
  let p := { p with terms := p.terms + 1 }
  match scale with
  | none => { p with marks := { p.marks with nan := true } }
  | some c =>
    match mulNum a b with
    | none => { p with marks := { p.marks with nan := true }, inv := true }
    | some .nan => { p with marks := { p.marks with nan := true } }
    | some (.inf neg) =>
      { p with marks := if neg then { p.marks with ninf := true } else { p.marks with pinf := true } }
    | some (.fin neg m e) =>
      let s := shiftTo m (e + c) anchor
      { p with
        add := if neg then p.add - BitVec.ofNat 96 s.1 else p.add + BitVec.ofNat 96 s.1
        marks := { p.marks with inexact := p.marks.inexact || s.2, range := p.marks.range || decide (2 ^ 71 ≤ s.1) } }

/-- The combined block scale of R32; an operand without scales reads 127. -/
def combined (sw sa : Option Nat) : Option Int :=
  let w := sw.getD 127
  let a := sa.getD 127
  if w = 255 ∨ a = 255 then none else some ((w : Int) + a - 254)

/-- C_max of a list of combined scales (R32). -/
def cMax (cs : List (Option Int)) : Int :=
  match (cs.filterMap id) with
  | [] => max (-254) (min 254 (Config.emptyCmax 0))
  | x :: xs => xs.foldl max x

/-- The AUTO anchor of Table 2-4. -/
def autoAnchor (ta tb : Nat) (scaled : Bool) (cmax : Int) : Int :=
  let e5 := (if ta = 1 then 1 else 0) + (if tb = 1 then 1 else 0)
  if ta = 2 then cmax - (if tb = 1 then 48 else 41)
  else if ta = 6 then 0
  else if scaled then cmax - (if e5 = 0 then 53 else if e5 = 1 then 46 else 39)
  else if e5 = 0 then -18 else if e5 = 1 then -25 else -32

/-! ## Landing -/

/-- Products of a BF16 chunk summed in the tree of R36: one level. -/
def treeLevel : List W32 → List W32 × Byte
  | a :: b :: rest =>
    let s := fadd a b
    let r := treeLevel rest
    (s.1 :: r.1, s.2 ||| r.2)
  | [a] => let s := fadd a 0; ([s.1], s.2)
  | [] => ([], 0)

/-- The root of 64 leaves, absent ones +0, and the flags of its additions. -/
def treeRoot (leaves : List W32) : W32 × Byte :=
  let l0 := leaves ++ List.replicate (64 - leaves.length) 0
  let r := (List.range 6).foldl (fun (acc : List W32 × Byte) _ =>
    let x := treeLevel acc.1
    (x.1, acc.2 ||| x.2)) (l0, 0)
  (r.1.headD 0, r.2)

/-- The open chunk of a lane is closed into its running sum, when it has a leaf (R102); the flags of its additions wait for the
readout, OVERFLOW among them (R30; a DESIGN CHOICE, log entry 73). -/
def Lane.closeChunk (l : Lane) : Lane :=
  if l.chunk.isEmpty then l
  else
    let r := treeRoot l.chunk
    let s := fadd l.sum r.1
    { l with sum := s.1, chunk := [], flags := l.flags ||| r.2 ||| s.2 }

/-- Leaves join the open chunk one at a time; a full chunk closes. -/
def Lane.addLeaves (l : Lane) (leaves : List W32) : Lane :=
  leaves.foldl (fun l x =>
    let l := { l with chunk := l.chunk ++ [x] }
    if l.chunk.length = 64 then l.closeChunk else l) l

/-- The products of one MMA land in a lane; a start clears it first (R100). -/
def Lane.land (l : Lane) (start bf16 : Bool) (p : LaneProd) : Lane :=
  let l : Lane := if start then { anchor := p.anchor, sum := p.seed } else l
  let l := { l with poison := l.poison || p.poison }
  if bf16 then { l.addLeaves p.leaves with flags := (l.addLeaves p.leaves).flags ||| p.flags }
  else
    let n := l.terms + p.terms
    let m := l.marks.or p.marks
    { l with acc := l.acc + p.add, inv := l.inv || p.inv, terms := n,
             marks := { m with range := m.range || decide (termLimit < n) } }

/-! ## Exact partials (Table 2-9) -/

def partialOf (value : Int) (anchor : Int) (marks : Marks) (poison : Bool) : BitVec 128 :=
  BitVec.ofNat 128 (wrapNat 112 value + atBit 112 (wrapNat 10 anchor) + atBit 122 marks.bits
    + (if poison then 2 ^ 127 else 0))

def partialValue (x : BitVec 128) : Int := signed 112 (bitsOf x 0 112)
def partialAnchor (x : BitVec 128) : Int := signed 10 (bitsOf x 112 10)
def partialMarks (x : BitVec 128) : Marks := marksOf (bitsOf x 122 5)
def partialPoison (x : BitVec 128) : Bool := bitOf x 127

/-- A partial aligned to an anchor: its value, and the mark this adds (R46). -/
def alignPartial (anchor : Int) (x : BitVec 128) : Int × Marks :=
  let v := partialValue x
  let s := shiftTo v.natAbs (partialAnchor x) anchor
  let left := decide (anchor < partialAnchor x)
  (if v < 0 then -(s.1 : Int) else s.1, { inexact := s.2, range := left && decide (2 ^ 95 ≤ s.1) })

/-- An exact reduction of partials at an anchor, and the flags it raises (R46, R30). Each sum of two is a reduction of its own,
so the limit of 65,536 partials is never met (a DESIGN CHOICE, log entry 73). -/
def exactSum (anchor : Int) (xs : List (BitVec 128)) : BitVec 128 × Byte :=
  let limit : Marks := { range := decide (65536 < xs.length) }
  let al := xs.map (alignPartial anchor)
  let raised := al.foldl (fun m a => m.or a.2) limit
  let marks := xs.foldl (fun m x => m.or (partialMarks x)) raised
  let total := al.foldl (fun s a => s + a.1) 0
  (partialOf total anchor marks (xs.any partialPoison), flagIf raised.inexact flInexact ||| flagIf raised.range flRange)

/-! ## Readout (Table 2-5) -/

/-- The result of a FP32 (mode 0) or INT32 (mode 1) readout of an integer A at an anchor with its marks; `inv` records
infinity times zero. -/
def readValue (a : Int) (scale : Int) (marks : Marks) (inv : Bool) (mode : Nat) : W32 × Byte :=
  let base := flagIf marks.inexact flInexact ||| flagIf marks.range flRange
    ||| flagIf (inv || (marks.pinf && marks.ninf && !marks.nan)) flInvalid
  let f32 := mode = 0
  if marks.nan || (marks.pinf && marks.ninf) then (if f32 then qnan else 0, base)
  else if marks.pinf then (if f32 then infOf false else 0x7FFFFFFF, base)
  else if marks.ninf then (if f32 then infOf true else 0x80000000, base)
  else if marks.range then (if f32 then qnan else 0, base ||| flInvalid)
  else if f32 then
    let r := round32 (decide (a < 0)) a.natAbs scale
    (r.1, base ||| r.2)
  else
    let r := toInt 32 (.fin (decide (a < 0)) a.natAbs scale)
    (BitVec.ofNat 32 r.1, base ||| r.2)

/-- The exact partial of an FP32 sum (R28, the RAW readout of a BF16 accumulation). -/
def rawOfFp32 (s : W32) (poison : Bool) : BitVec 128 :=
  match numOf s with
  | .nan => partialOf 0 0 { nan := true } poison
  | .inf neg => partialOf 0 0 (if neg then { ninf := true } else { pinf := true }) poison
  | .fin neg m e => partialOf (if neg then -(m : Int) else m) (if m = 0 then 0 else e) {} poison

/-- The readout of one lane: the result's bits, its flags and the lane afterwards (a BF16 readout closes a partial
chunk, R102, and hands over the flags its additions raised). The shift moves no FP32 readout of a BF16 accumulation (R28;
DESIGN CHOICES, log entry 73). -/
def Lane.read (l : Lane) (bf16 : Bool) (mode : Nat) (shift : Int) : Nat × Byte × Lane :=
  if bf16 then
    let l := l.closeChunk
    let f := l.flags
    let l := { l with flags := 0 }
    if mode = 2 then ((rawOfFp32 l.sum l.poison).toNat, f, l)
    else if mode = 1 then
      let r := toInt 32 (numOf l.sum)
      (r.1, f ||| r.2, l)
    else (l.sum.toNat, f, l)
  else if mode = 2 then ((partialOf l.acc.toInt l.anchor l.marks l.poison).toNat, 0, l)
  else
    let r := readValue l.acc.toInt (l.anchor + shift) l.marks l.inv mode
    (r.1.toNat, r.2, l)

/-- The readout of an exact partial to FP32 (R46, R105). Its NAN mark does not say whence it came, and raises no INVALID (a
DESIGN CHOICE, log entry 73). -/
def readPartial (x : BitVec 128) (shift : Int) : W32 × Byte :=
  readValue (partialValue x) (partialAnchor x + shift) (partialMarks x) false 0

/-- A BF16 dot product of leaves in the order of R36, from a seed. -/
def bf16Sum (seed : W32) (leaves : List W32) : W32 × Byte :=
  let l := (({ sum := seed } : Lane).addLeaves leaves).closeChunk
  (l.sum, l.flags)

end Sys2Proof.Machine
end

