-- ==== Sys2Proof/Machine/Operands.lean ====
section
/-! DEFINITION. Tensor descriptors and address generation (03_tensor_descriptors.md R47 to R56, R62 to R75): layouts, logical
views, out-of-range handling, validation, block scales, element reads, and writes with their collision handling. -/

namespace Sys2Proof.Machine

/-! ## Layout (Tables 3-1, 3-4) -/

/-- A window: kernel extent, stride, dilation and paddings (R62). -/
structure Win where
  k : Nat
  t : Nat
  u : Nat
  lo : Nat
  hi : Nat
  deriving DecidableEq, Repr

/-- A descriptor, its fields as Table 3-1 names them. -/
structure Desc where
  version : Nat
  elem : Nat
  rank : Nat
  edge : Nat
  collide : Nat
  pkey : Nat
  blk : List Nat
  winCount : Nat
  listEn : Bool
  scaleEn : Bool
  listHandle : Nat
  scaleHandle : Nat
  base : Nat
  size : List Nat
  stride : List Int
  win : List Win
  deriving DecidableEq, Repr

def winOf (x : Nat) : Win := ⟨x % 16 + 1, x / 16 % 8 + 1, x / 128 % 8 + 1, x / 1024 % 8, x / 8192 % 8⟩

/-- The descriptor of a 64-byte record; the BLK fields of dimensions at or above RANK are ignored (R48). -/
def descOf (r : Rec) : Desc where
  version := bitsOf r 0 4
  elem := bitsOf r 4 4
  rank := bitsOf r 8 3
  edge := bitsOf r 12 2
  collide := bitsOf r 14 2
  pkey := bitsOf r 16 8
  blk := (List.range 3).map (fun i => if i < bitsOf r 8 3 then bitsOf r (24 + 4 * i) 4 else 0)
  winCount := bitsOf r 36 2
  listEn := bitOf r 38
  scaleEn := bitOf r 39
  listHandle := bitsOf r 40 12
  scaleHandle := bitsOf r 52 12
  base := bitsOf r 64 48
  size := (List.range 6).map (fun d => bitsOf r (128 + 24 * d) 24)
  stride := (List.range 6).map (fun d => signed 32 (bitsOf r (272 + 32 * d) 32))
  win := (List.range 3).map (fun j => winOf (bitsOf r (464 + 16 * j) 16))

/-- How engines of a command reach memory: the engine, the descriptors the command latched at its start (R47), and the
entries of its scatter lists, read in one pass at its start (R66). -/
structure Reach where
  eng : Engine
  descs : Tab Rec
  lists : Tab (List Nat) := []
  deriving DecidableEq, Repr

/-- The same for accesses of a MOVE's data, which may reach ATOMIC_PORT (R165). -/
def Reach.toPort (rc : Reach) : Reach := { rc with eng := { rc.eng with port := true } }

/-- The same for its lists and scales, which may not. -/
def Reach.noPort (rc : Reach) : Reach := { rc with eng := { rc.eng with port := false } }

def Reach.desc (rc : Reach) (h : Nat) : Desc := descOf (tget rc.descs 0 h)

/-- Element bytes; an E2M1 element counts as one for alignment (R49, R50 item 4). -/
def elemBytes (t : Nat) : Nat := max 1 (elemBits t / 8)

def Desc.sz (x : Desc) (i : Nat) : Nat := x.size.getD i 0
def Desc.st (x : Desc) (i : Nat) : Int := x.stride.getD i 0

/-- Output extent of windowed dimension j (R62). -/
def Desc.outExtent (x : Desc) (j : Nat) : Int :=
  match x.win[j - 1]? with
  | none => 0
  | some w => ((x.sz j : Int) + w.lo + w.hi - w.u * (w.k - 1) - 1) / w.t + 1

/-- Dimensions of the logical view (Table 3-5). -/
def Desc.logicalRank (x : Desc) : Nat := if x.listEn then 4 else x.rank + x.winCount

/-- Logical extents (Table 3-5); `len` is the list length. -/
def Desc.extents (x : Desc) (len : Nat) : List Nat :=
  if x.listEn then [2 ^ x.blk.getD 0 0, 2 ^ x.blk.getD 1 0, 2 ^ x.blk.getD 2 0, len]
  else
    (List.range x.rank).map (fun i => if 1 ≤ i ∧ i ≤ x.winCount then (x.outExtent i).toNat else x.sz i)
      ++ (List.range x.winCount).map (fun j => (x.win.map Win.k).getD j 0)

/-- The list length of a listed descriptor. -/
def Reach.listLen (rc : Reach) (x : Desc) : Nat := if x.listEn then (rc.desc x.listHandle).sz 0 else 0

def Reach.extents (rc : Reach) (x : Desc) : List Nat := x.extents (rc.listLen x)

/-- Elements of a logical view. -/
def Reach.count (rc : Reach) (h : Nat) : Nat := (rc.extents (rc.desc h)).foldl (· * ·) 1

/-- The coordinates of linear logical index `i` (R52). -/
def coordsOf : List Nat → Nat → List Int
  | [], _ => []
  | n :: ns, i => (i % max 1 n : Nat) :: coordsOf ns (i / max 1 n)

/-- The linear logical index of coordinates (R52). -/
def indexOf : List Nat → List Int → Int
  | n :: ns, c :: cs => c + n * indexOf ns cs
  | _, _ => 0

/-- The block grid of R64. -/
def Desc.grid (x : Desc) : List Nat :=
  (List.range x.rank).map (fun i => ceilDiv (x.sz i) (2 ^ (if i < 3 then x.blk.getD i 0 else 0)))

/-! ## Spans and injectivity (R53, R70) -/

def Desc.isB4 (x : Desc) : Bool := x.elem == 2

/-- The reach of dimensions below 0 and above 0 from BASE. -/
def Desc.spanLo (x : Desc) : Int :=
  (List.range x.rank).foldl (fun s i => if x.isB4 && i == 0 then s else s + min 0 (((x.sz i : Int) - 1) * x.st i)) x.base

def Desc.spanHi (x : Desc) : Int :=
  (List.range x.rank).foldl (fun s i => if x.isB4 && i == 0 then s else s + max 0 (((x.sz i : Int) - 1) * x.st i)) x.base
    + (if x.isB4 then (x.sz 0 : Int) / 2 - 1 else (elemBytes x.elem : Int) - 1)

/-- Insertion by magnitude of stride. -/
def insertDim (p : Nat × Nat) : List (Nat × Nat) → List (Nat × Nat)
  | [] => [p]
  | q :: qs => if p.1 ≤ q.1 then p :: q :: qs else q :: insertDim p qs

/-- The injectivity test of R70. -/
def Desc.injective (x : Desc) : Bool :=
  let dims := ((List.range x.rank).filter (fun i => 1 < x.sz i && !(x.isB4 && i == 0))).map
    (fun i => ((x.st i).natAbs, x.sz i))
  let sorted := dims.foldl (fun acc p => insertDim p acc) []
  (sorted.foldl (fun (acc : Nat × Bool) p => (acc.1 + p.1 * (p.2 - 1), acc.2 && decide (acc.1 ≤ p.1)))
    (if x.isB4 then x.sz 0 / 2 else elemBytes x.elem, true)).2

/-! ## Validation (R50) -/

/-- Whether a list descriptor is one (R50 item 8). -/
def Desc.isList (x : Desc) : Bool := x.elem == 11 && x.rank == 1 && !x.listEn && !x.scaleEn && x.winCount == 0

/-- Whether descriptor `s` may hold the scales of `x` (R50 item 9). -/
def Desc.scalesFit (x s : Desc) : Bool :=
  (x.elem == 2 || isFp8 x.elem) && s.elem == 3 && s.rank == x.rank && s.sz 0 == x.sz 0 / 32
    && (List.range x.rank).all (fun i => i == 0 || s.sz i == x.sz i)
    && !s.listEn && !s.scaleEn && s.winCount == 0

/-- Whether a descriptor fails R50; `write` says that the command writes through it. A list or scale descriptor whose own
entry could not be read fails the command at its own handle (R89), so it is not judged here. -/
def Reach.bad (rc : Reach) (h : Nat) (write : Bool) : Bool :=
  let x := rc.desc h
  let e := elemBytes x.elem
  let dims := List.range x.rank
  x.version != 1
    || 13 ≤ x.elem || x.edge == 3 || x.collide == 3 || x.rank == 0 || x.rank == 7
    || dims.any (fun i => x.sz i == 0)
    || x.base % e != 0 || dims.any (fun i => !(x.isB4 && i == 0) && x.st i % e != 0)
    || ((x.isB4 || x.scaleEn) && x.sz 0 % 32 != 0)
    || 65536 * 8 < 2 ^ (x.blk.foldl (· + ·) 0) * elemBits x.elem || (x.isB4 && x.blk.getD 0 0 < 5)
    || x.rank ≤ x.winCount || (List.range x.winCount).any (fun j => x.outExtent (j + 1) < 1)
    || (x.winCount != 0 && x.listEn)
    || (x.listEn && thas rc.descs x.listHandle && !(rc.desc x.listHandle).isList)
    || (x.scaleEn && ((!(x.elem == 2 || isFp8 x.elem))
          || (thas rc.descs x.scaleHandle && !x.scalesFit (rc.desc x.scaleHandle))))
    || x.spanLo < 0 || 2 ^ 48 ≤ x.spanHi
    || (write && (x.winCount != 0
        || (x.collide == 2 && x.elem != 5 && x.elem != 4 && x.elem != 7)
        || (x.listEn && (65536 < rc.listLen x || !x.injective))))

/-! ## Where an element lies -/

/-- A failed access: status, handle and faulting virtual address (R59). -/
structure Fail where
  status : Nat
  handle : Nat
  vaddr : Nat
  deriving DecidableEq, Repr

/-- What coordinates come to: source coordinates in range; none under EDGE ZERO (with the clamped coordinates its scale is
read at); a block without source coordinates (R65 SKIP); an edge fault. -/
inductive Spot where
  | on (x : List Int)
  | zero (x : List Int)
  | skip
  | edge (va : Nat)
  deriving DecidableEq, Repr

def clampTo (n : Nat) (c : Int) : Int := max 0 (min c ((n : Int) - 1))

def inside (ns : List Nat) (cs : List Int) : Bool := (ns.zip cs).all (fun p => 0 ≤ p.2 && p.2 < p.1)

def clampAll (ns : List Nat) (cs : List Int) : List Int := (ns.zip cs).map (fun p => clampTo p.1 p.2)

/-- Byte address and, for E2M1, the nibble of source coordinates (R53, R49). -/
def Desc.addrOf (x : Desc) (cs : List Int) : Nat × Option Bool :=
  let s := (List.range x.rank).foldl (fun s i => if x.isB4 && i == 0 then s else s + cs.getD i 0 * x.st i) (x.base : Int)
  let c0 := cs.getD 0 0
  if x.isB4 then (wrapNat 48 (s + c0 / 2), some (c0 % 2 == 1)) else (wrapNat 48 s, none)

/-- Source coordinates of a plain or windowed view (Table 3-5, R62). -/
def Desc.sourceOf (x : Desc) (cs : List Int) : List Int :=
  (List.range x.rank).map (fun i =>
    let c := cs.getD i 0
    if 1 ≤ i ∧ i ≤ x.winCount then
      match x.win[i - 1]? with
      | none => c
      | some w => c * w.t + cs.getD (x.rank + i - 1) 0 * w.u - w.lo
    else c)

/-- What source coordinates come to: `raw` from the logical coordinates as they are, `safe` from clamped ones. A write out of
range under CLAMP or ZERO has no place (Table 3-6). -/
def Desc.settle (x : Desc) (okLogical write : Bool) (raw safe : List Int) : Spot :=
  let sizes := x.size.take x.rank
  if okLogical && inside sizes raw then .on raw
  else if x.edge = 2 then .edge (x.addrOf raw).1
  else if x.edge = 0 ∧ !write then .on (clampAll sizes safe)
  else .zero (clampAll sizes safe)

/-- A traversal step as it reads: the device, the granules it has read, each of which it reads once (R69), and the worst
outcome so far. -/
structure StepRead where
  dev : Dev
  seen : Tab GranRead := []
  worst : Nat := 0
  deriving DecidableEq, Repr

/-- One granule of a step: read, or replicated (R69). -/
def StepRead.gran (r : StepRead) (e : Engine) (g : Nat) : StepRead × GranRead :=
  match tfind r.seen g with
  | some x => (r, x)
  | none =>
    let (d, x) := r.dev.readBy e.sect e.src g 64
    (⟨d, tset r.seen g x, max r.worst x.2⟩, x)

/-- `n` bytes read by a step, and the worst outcome over their granules. -/
def StepRead.bytes (r : StepRead) (e : Engine) (a n : Nat) : StepRead × GranRead :=
  let (r, bs, st) := (gransOf a n).foldl (fun (acc : StepRead × List Byte × Nat) g =>
    let (r', x) := acc.1.gran e g
    (r', acc.2.1 ++ x.1, max acc.2.2 x.2)) (r, [], 0)
  (r, ((bs.drop (a % 64)).take n, st))

/-- Entry `n` of the list of listed descriptor `h` (R65), read within a step. An access that faults names the list's handle
(R59); one that finds an uncorrectable error names the handle whose traversal needed the read (R343). -/
def StepRead.listEntry (r : StepRead) (rc : Reach) (h n : Nat) : StepRead × Except Fail Nat :=
  let lh := (rc.desc h).listHandle
  let l := rc.desc lh
  let va := (l.addrOf [n]).1
  match r.dev.xlate rc.noPort.eng l.pkey va false with
  | (d, .error s) => ({ r with dev := d }, .error ⟨s, lh, va⟩)
  | (d, .ok loc) =>
    let (q, b) := ({ r with dev := d } : StepRead).bytes rc.eng loc 8
    if b.2 ≠ 0 then ({ q with worst := r.worst }, .error ⟨0x60, h, va⟩) else (q, .ok (leNat b.1))

/-- Grid coordinates of a linear block index (R64), with the block extents applied to the in-block coordinates. -/
def Desc.blockCoords (x : Desc) (block : Nat) (cs : List Int) : List Int :=
  let g := coordsOf x.grid block
  (List.range x.rank).map (fun i =>
    if i < 3 then g.getD i 0 * 2 ^ x.blk.getD i 0 + cs.getD i 0 else g.getD i 0)

/-- The list entry that a traversal of a listed view needs at logical coordinates: none where EDGE decides without it (R55). -/
def Reach.entryIndex (rc : Reach) (h : Nat) (cs : List Int) (write : Bool) : Option Nat :=
  let x := rc.desc h
  let n := cs.getD 3 0
  let okN := decide (0 ≤ n ∧ n < rc.listLen x)
  let okC := inside ((rc.extents x).take 3) ((List.range 3).map (fun i => cs.getD i 0))
  if !okN && x.edge == 2 then none
  else if !(okN && okC) && x.edge != 2 && (write || (x.edge == 1 && !x.scaleEn)) then none
  else some (clampTo (rc.listLen x) n).toNat

/-- Where logical coordinates of a view lie (R54, R62, R65), its list entry read by `entry`. An element that EDGE ZERO reads as
zero, or whose write is discarded, generates no address, not even its list entry's (R55). -/
def Reach.placeBy {α : Type} (entry : α → Nat → α × Except Fail Nat) (a : α) (rc : Reach) (h : Nat) (cs : List Int) (write : Bool) :
    α × Except Fail Spot :=
  let x := rc.desc h
  let ext := rc.extents x
  let cs := (List.range x.logicalRank).map (fun i => cs.getD i 0)
  if !x.listEn then
    (a, .ok (x.settle (inside ext cs) write (x.sourceOf cs) (x.sourceOf (clampAll ext cs))))
  else
    let n := cs.getD 3 0
    let len := rc.listLen x
    let okN := decide (0 ≤ n ∧ n < len)
    match rc.entryIndex h cs write with
    | none => (a, .ok (if x.edge = 2 then .edge (Config.edgeVaddr h % 2 ^ 48) else .zero []))
    | some i =>
      match entry a i with
      | (a, .error f) => (a, .error f)
      | (a, .ok ent) =>
        if 2 ^ 63 ≤ ent then (a, .ok .skip)
        else
          let total := x.grid.foldl (· * ·) 1
          let okB := decide (ent < total)
          if !okB && x.edge == 2 then (a, .ok (.edge (Config.edgeVaddr h % 2 ^ 48)))
          else
            let b := min ent (total - 1)
            let c3 := cs.take 3
            let e3 := ext.take 3
            (a, .ok (x.settle (okN && okB && inside e3 c3) write (x.blockCoords b c3) (x.blockCoords b (clampAll e3 c3))))

/-- Where logical coordinates lie for a read within a step. -/
def StepRead.place (r : StepRead) (rc : Reach) (h : Nat) (cs : List Int) : StepRead × Except Fail Spot :=
  Reach.placeBy (fun r i => r.listEntry rc h i) r rc h cs false

/-- Where logical coordinates lie for a read (a step of its own) or a write, which takes its list entries as the pass at command
start read them (R66). -/
def Dev.place (d : Dev) (rc : Reach) (h : Nat) (cs : List Int) (write : Bool) : Dev × Except Fail Spot :=
  Reach.placeBy (fun d i =>
    match (if write then tfind rc.lists h else none) with
    | some es => (d, .ok (es.getD i 0))
    | none =>
      let q := ({ dev := d } : StepRead).listEntry rc h i
      (q.1.dev, q.2)) d rc h cs write

/-! ## Element reads -/

/-- The location of an address generated through handle h; `inTile` asks that it lie in the tile's own SRAM (R88). -/
def Dev.locOf (d : Dev) (rc : Reach) (h va : Nat) (write inTile : Bool) : Dev × Except Fail Nat :=
  match d.xlate rc.eng (rc.desc h).pkey va write with
  | (d, .error s) => (d, .error ⟨s, h, va⟩)
  | (d, .ok l) => if inTile && !isTram l then (d, .error ⟨0x31, h, va⟩) else (d, .ok l)

/-- The scale code of source coordinates of descriptor x (R74); scale reads clamp. -/
def StepRead.scale (r : StepRead) (rc : Reach) (x : Desc) (cs : List Int) (inTile : Bool) : StepRead × Except Fail (Nat × Nat) :=
  let s := rc.desc x.scaleHandle
  let at_ := clampAll (s.size.take s.rank) ((List.range s.rank).map (fun i => if i = 0 then cs.getD 0 0 / 32 else cs.getD i 0))
  let va := (s.addrOf at_).1
  match r.dev.locOf rc.noPort x.scaleHandle va false inTile with
  | (d, .error f) => ({ r with dev := d }, .error f)
  | (d, .ok l) =>
    let (r, b) := ({ r with dev := d } : StepRead).bytes rc.eng l 1
    (r, .ok (leNat b.1, b.2))

/-- The element at source coordinates. -/
def StepRead.at_ (r : StepRead) (rc : Reach) (h : Nat) (cs : List Int) (inTile : Bool) : StepRead × Except Fail (Nat × Nat) :=
  let x := rc.desc h
  let va := x.addrOf cs
  match r.dev.locOf rc h va.1 false inTile with
  | (d, .error f) => ({ r with dev := d }, .error f)
  | (d, .ok l) =>
    let (r, y) := ({ r with dev := d } : StepRead).bytes rc.eng l (elemBytes x.elem)
    let b := leNat y.1
    let code := match va.2 with
      | none => b
      | some hi => if hi then b / 16 else b % 16
    (r, .ok (code, y.2))

/-- An element of a logical view, with its block scale when `scales` asks for it and it has one. -/
def StepRead.elem (r : StepRead) (rc : Reach) (h : Nat) (cs : List Int) (inTile scales : Bool) : StepRead × Except Fail ElemRead :=
  let x := rc.desc h
  match r.place rc h cs with
  | (r, .error f) => (r, .error f)
  | (r, .ok (.edge va)) => (r, .error ⟨0x32, h, va⟩)
  | (r, .ok .skip) => (r, .ok ⟨0, none, 0⟩)
  | (r, .ok (.zero src)) =>
    if x.scaleEn && scales then
      match r.scale rc x src inTile with
      | (r, .error f) => (r, .error f)
      | (r, .ok (s, o)) => (r, .ok ⟨0, some s, o⟩)
    else (r, .ok ⟨0, none, 0⟩)
  | (r, .ok (.on src)) =>
    match r.at_ rc h src inTile with
    | (r, .error f) => (r, .error f)
    | (r, .ok (c, o)) =>
      if x.scaleEn && scales then
        match r.scale rc x src inTile with
        | (r, .error f) => (r, .error f)
        | (r, .ok (s, o')) => (r, .ok ⟨c, some s, max o o'⟩)
      else (r, .ok ⟨c, none, o⟩)

/-- Elements of one step at a list of coordinates: those read before the first failure, and that failure. -/
def StepRead.elems (rc : Reach) (h : Nat) (inTile scales : Bool) : StepRead → List (List Int) → StepRead × List ElemRead × Option Fail
  | r, [] => (r, [], none)
  | r, c :: cs =>
    match r.elem rc h c inTile scales with
    | (r, .error f) => (r, [], some f)
    | (r, .ok e) =>
      let (r, es, f) := StepRead.elems rc h inTile scales r cs
      (r, e :: es, f)

/-- Elements at a list of coordinates read in one traversal step, or its first failure. -/
def Dev.readElems (rc : Reach) (h : Nat) (inTile scales : Bool) (d : Dev) (cs : List (List Int)) : Dev × Except Fail (List ElemRead) :=
  match StepRead.elems rc h inTile scales { dev := d } cs with
  | (r, es, none) => (r.dev, .ok es)
  | (r, _, some f) => (r.dev, .error f)

/-! ## Element writes -/

/-- An element placed: location, nibble, virtual address, logical index, element bytes, and the item; with its source
coordinates in the destination. -/
structure Placed where
  loc : Nat
  nibble : Option Bool
  vaddr : Nat
  index : Nat
  src : List Int
  item : Item
  deriving DecidableEq, Repr

/-- Whether ORDERED suppresses a write at list position n: a higher entry of the list, neither SKIP nor out of range, names the
same block (R66, R67). -/
def Reach.superseded (rc : Reach) (h : Nat) (n : Nat) : Bool :=
  let x := rc.desc h
  let es := tget rc.lists [] h
  x.listEn && x.collide == 1 && (es.drop (n + 1)).any (fun e => e == es.getD n 0 && e < x.grid.foldl (· * ·) 1)

/-- Where the scale of a placed element lies in its scale tensor: source coordinates and virtual address (R74). -/
def Reach.scaleAt (rc : Reach) (x : Desc) (src : List Int) : List Int × Nat :=
  let s := rc.desc x.scaleHandle
  let at_ := (List.range s.rank).map (fun i => if i = 0 then src.getD 0 0 / 32 else src.getD i 0)
  (at_, (s.addrOf at_).1)

/-- Where an item goes: `none` when it is discarded (Table 3-6, R65) or suppressed (R67). -/
def Dev.placeItem (d : Dev) (rc : Reach) (h : Nat) (inTile : Bool) (it : Item) : Dev × Except Fail (Option Placed) :=
  let x := rc.desc h
  match d.place rc h it.cs true with
  | (d, .error f) => (d, .error f)
  | (d, .ok (.edge va)) => (d, .error ⟨0x32, h, va⟩)
  | (d, .ok .skip) => (d, .ok none)
  | (d, .ok (.zero _)) => (d, .ok none)
  | (d, .ok (.on src)) =>
    if rc.superseded h (it.cs.getD 3 0).toNat then (d, .ok none)
    else
      let cs := (List.range x.logicalRank).map (fun i => it.cs.getD i 0)
      let va := x.addrOf src
      match d.locOf rc h va.1 true inTile with
      | (d, .error f) => (d, .error f)
      | (d, .ok l) =>
        let p : Placed := ⟨l, va.2, va.1, (indexOf (rc.extents x) cs).toNat, src, it⟩
        if !x.scaleEn || isRaw it.ty then (d, .ok (some p))
        else
          match d.locOf rc.noPort x.scaleHandle (rc.scaleAt x src).2 true inTile with
          | (d, .error f) => (d, .error f)
          | (d, .ok _) => (d, .ok (some p))

/-- Every item placed: those placed before the first failure, and that failure with the items from the failing one on. -/
def Dev.placeItems (rc : Reach) (h : Nat) (inTile : Bool) : Dev → List Item → Dev × List Placed × Option (Fail × List Item)
  | d, [] => (d, [], none)
  | d, it :: its =>
    match d.placeItem rc h inTile it with
    | (d, .error f) => (d, [], some (f, it :: its))
    | (d, .ok none) => Dev.placeItems rc h inTile d its
    | (d, .ok (some p)) =>
      let (d, ps, f) := Dev.placeItems rc h inTile d its
      (d, p :: ps, f)

/-- Items placed as far as they can be; the others write nothing. -/
def Dev.placedOf (d : Dev) (rc : Reach) (h : Nat) (inTile : Bool) (its : List Item) : List Placed :=
  its.filterMap (fun it =>
    match (d.placeItem rc h inTile it).2 with
    | .ok p => p
    | .error _ => none)

/-- The granules that placed items would write, those of their scales included. -/
def Dev.granulesOf (d : Dev) (rc : Reach) (h : Nat) (inTile : Bool) (ps : List Placed) : List Nat :=
  let x := rc.desc h
  ps.flatMap (fun p =>
    granOf p.loc :: (if !x.scaleEn then []
      else match (d.locOf rc.noPort x.scaleHandle (rc.scaleAt x p.src).2 true inTile).2 with
        | .ok l => [granOf l]
        | .error _ => []))

/-- Whether writes through a descriptor pass through the serialising writer: a scatter, whose several writes to one list
position the tie-break of R71 settles, and a plain descriptor that fails the test of R70 (R67, R71). -/
def Desc.serial (x : Desc) : Bool := x.listEn || (x.collide != 0 && !x.injective)

/-- A contribution to a sum (R68): the FP32 word that enters an FP32 or BF16 sum, or the INT32 code. -/
def contribution (elem ty : Nat) (scale : Option Nat) (code : Nat) : Nat × Byte :=
  if elem = 7 then convert ty 7 scale none code
  else if isRaw ty then ((widen elem none (code % 2 ^ elemBits elem)).1.toNat, 0)
  else
    let w := widen ty scale code
    (w.1.toNat, w.2)

/-- What one nibble or byte of a granule receives: offset in nibbles, value of 4 bits. -/
abbrev NibbleWrite := Nat × Nat

/-- The nibbles of an element code at a location. -/
def nibblesOf (bytes loc : Nat) (nibble : Option Bool) (code : Nat) : List NibbleWrite :=
  match nibble with
  | some hi => [(2 * (loc % 64) + (if hi then 1 else 0), code % 16)]
  | none => (List.range (2 * bytes)).map (fun i => (2 * (loc % 64) + i, code / 16 ^ i % 16))

/-- The last value a list of nibble writes leaves at an offset. -/
def lastNibble (ws : List NibbleWrite) (o : Nat) : Option Nat :=
  ws.foldl (fun acc w => if w.1 = o then some w.2 else acc) none

/-- The byte that nibble writes leave at a byte offset: nothing, one nibble, or both. -/
inductive ByteWrite where
  | none | half (hi : Bool) (b : Byte) | full (b : Byte)
  deriving DecidableEq, Repr

def byteWrite (ws : List NibbleWrite) (o : Nat) : ByteWrite :=
  match lastNibble ws (2 * o), lastNibble ws (2 * o + 1) with
  | some l, some h => .full (BitVec.ofNat 8 (l + 16 * h))
  | some l, Option.none => .half false (BitVec.ofNat 8 l)
  | Option.none, some h => .half true (BitVec.ofNat 8 (16 * h))
  | Option.none, Option.none => .none

/-- Runs of whole bytes, and single nibbles, of a granule's byte writes from offset o on. -/
def runsOf (w : PWrite) (g : Nat) : Nat → List ByteWrite → List PWrite
  | _, [] => []
  | o, .none :: bs => runsOf w g (o + 1) bs
  | o, .half hi b :: bs => { w with addr := g + o, data := [b], nibble := some hi } :: runsOf w g (o + 1) bs
  | o, .full b :: bs =>
    match runsOf w g (o + 1) bs with
    | r :: rs =>
      if r.nibble.isNone ∧ r.addr = g + o + 1 then { r with addr := g + o, data := b :: r.data } :: rs
      else { w with addr := g + o, data := [b], nibble := Option.none } :: r :: rs
    | [] => [{ w with addr := g + o, data := [b], nibble := Option.none }]

/-- The writes of one instruction or engine step, element by element, gathered by granule in the order granules are first
met: a granule that receives any poisoned element is written wholly as poison (R31). -/
def gather (w : PWrite) (ps : List (Placed × Nat × Nat × Bool)) : List PWrite :=
  let gs := (ps.map (fun p => granOf p.1.loc)).eraseDups
  gs.flatMap (fun g =>
    let mine := ps.filter (fun p => granOf p.1.loc == g)
    if mine.any (fun p => p.2.2.2) then [{ w with addr := g, data := zeros 64, poison := true }]
    else
      let ns := mine.flatMap (fun p => nibblesOf p.2.1 p.1.loc p.1.nibble p.2.2.1)
      runsOf w g 0 ((List.range 64).map (byteWrite ns)))

/-- Arithmetic flags raised for a command (R30). -/
def Dev.addFlags (d : Dev) (c : Nat) (f : Byte) : Dev := d.modCmd c (fun x => { x with aflags := x.aflags ||| f })

/-- Who writes: the command, the rank of its tile and the issue number of its instruction (R71). -/
structure Writer where
  cmd : Nat
  rank : Nat
  seq : Nat
  func : Nat
  deriving DecidableEq, Repr

def Writer.pw (w : Writer) (h vaddr : Nat) : PWrite :=
  { addr := 0, data := [], func := w.func, cmd := some w.cmd, handle := h, vaddr := vaddr }

/-- Which granules a step's writes reach: all of them, or, of a step that failed, those a free value names among the granules
that nothing after the failure was to write (R59: wholly old, or wholly as written). -/
abbrev Keep := Nat → Bool

/-- The writes of a step performed, as far as `keep` lets them be. -/
def Dev.writeAll (d : Dev) (k : Nat) (keep : Keep) (ws : List PWrite) : Dev :=
  (ws.filter (fun w => keep (granOf w.addr))).foldl (fun d w => d.writeBy k w) d

/-- The sum of an old code and contributions in order, as a code of the element type (R68). -/
def accumulate (elem old : Nat) (vals : List Nat) : Nat × Byte :=
  if elem = 7 then
    let s := vals.foldl (fun s v => s + signed 32 (v % 2 ^ 32)) (signed 32 (old % 2 ^ 32))
    let r := clampInt (-(2 ^ 31)) (2 ^ 31 - 1) s
    (wrapNat 32 r.1, r.2)
  else
    let r := vals.foldl (fun (acc : W32 × Byte) v =>
      let s := fadd acc.1 (BitVec.ofNat 32 v)
      (s.1, acc.2 ||| s.2)) ((widen elem none old).1, 0)
    let n := narrow elem (some false) r.1
    (n.1, r.2 ||| n.2)

/-! ### The serialising writer (R67, R68, R71) -/

/-- Whether one write comes before another in the write order. -/
def SerialWrite.before (a b : SerialWrite) : Bool :=
  a.index < b.index || (a.index == b.index && (a.rank < b.rank || (a.rank == b.rank && a.seq ≤ b.seq)))

/-- Insertion in write order, after equals. -/
def insertSerial (x : SerialWrite) : List SerialWrite → List SerialWrite
  | [] => [x]
  | y :: ys => if y.before x then y :: insertSerial x ys else x :: y :: ys

def inWriteOrder (ws : List SerialWrite) : List SerialWrite := ws.foldl (fun acc x => insertSerial x acc) []

/-- Whether two writes are to one element. -/
def SerialWrite.same (a b : SerialWrite) : Bool := a.addr == b.addr && a.nibble == b.nibble

/-- The element of a serial write, placed. -/
def SerialWrite.placed (z : SerialWrite) : Placed := ⟨z.addr, z.nibble, z.vaddr, 0, [], ⟨[], z.elem, 0, none, false⟩⟩

/-- Writes of every sector's buffer to a granule go to their home (R153: a buffer drains at any time). -/
def Dev.settleGran (d : Dev) (g : Nat) : Dev :=
  (List.range 6).foldl (fun d k =>
    ((d.wbuf k).filter (fun w => granOf w.addr == g)).foldl (fun d w => d.writeHome w)
      (d.modSect k (fun s => { s with wbuf := s.wbuf.filter (fun w => granOf w.addr != g) }))) d

/-- What an element under ACCUMULATE held before the command, saved at the command's first contribution to it. -/
def Dev.saveOld (d : Dev) (c : Nat) (z : SerialWrite) : Dev :=
  match d.cmd? c with
  | none => d
  | some x =>
    if x.olds.any (fun o => o.addr == z.addr) then d
    else
      let (d, r) := d.readBy 6 3 z.addr (elemBytes z.elem)
      d.modCmd c (fun x => { x with olds := x.olds ++ [⟨z.addr, leNat r.1, r.2 != 0⟩] })

/-- The sum an element under ACCUMULATE holds: its old code with the command's contributions in write order, and whether any
was poison. -/
def Cmd.sumAt (x : Cmd) (z : SerialWrite) : (Nat × Byte) × Bool :=
  let ws := inWriteOrder (x.serial.filter (fun y => y.accum && y.addr == z.addr))
  let o := (x.olds.find? (fun o => o.addr == z.addr)).getD ⟨z.addr, 0, false⟩
  (accumulate z.elem o.code (ws.map (·.val)), o.poison || ws.any (·.poison))

/-- What the serialising writer stores for one write of command x, which already lists it: the sum under ACCUMULATE; else its
own code, unless a later write in the order has passed. A poisoned write leaves poison all the same (R31). -/
def Cmd.serialStore (x : Cmd) (z : SerialWrite) : Option (Placed × Nat × Nat × Bool) :=
  let n := elemBytes z.elem
  if z.accum then
    let v := x.sumAt z
    some (z.placed, n, v.1.1, v.2)
  else
    match (inWriteOrder (x.serial.filter (fun y => !y.accum && y.same z))).getLast? with
    | none => none
    | some y => if y.before z || y == z then some (z.placed, n, z.val, z.poison) else
        if z.poison then some (z.placed, n, y.val, true) else none

/-- The serialising writer takes the writes of one step: they join the command's, and the elements they name are written at
their homes, gathered by granule. -/
def Dev.serialise (d : Dev) (w : Writer) (h : Nat) (keep : Keep) (zs : List SerialWrite) : Dev :=
  let zs := zs.filter (fun z => keep (granOf z.addr))
  let d := ((zs.map (fun z => granOf z.addr)).eraseDups).foldl (fun d g => d.settleGran g) d
  let d := (zs.filter (·.accum)).foldl (fun d z => d.saveOld w.cmd z) d
  let d := d.modCmd w.cmd (fun x => { x with serial := x.serial ++ zs })
  match d.cmd? w.cmd with
  | none => d
  | some x => d.writeAll 6 (fun _ => true) (gather (w.pw h ((zs.map (·.vaddr)).headD 0)) (zs.filterMap x.serialStore))

/-! ### Stores -/

/-- Placed items of a destination without block scales, or of raw codes, converted and written: through the serialising
writer, as sums with what stands there, or as they are (R40, R68, R71). -/
def Dev.storePlain (d : Dev) (w : Writer) (rc : Reach) (h : Nat) (sat : Option Bool) (keep : Keep) (ps : List Placed) : Dev :=
  let x := rc.desc h
  let qs : List (Placed × Nat × Byte) := ps.map (fun p =>
    let r := if x.collide = 2 then contribution x.elem p.item.ty p.item.scale p.item.code
      else convert p.item.ty x.elem p.item.scale sat p.item.code
    (p, r.1, r.2))
  let d := d.addFlags w.cmd (qs.foldl (fun f q => f ||| q.2.2) 0)
  if x.serial then
    d.serialise w h keep (qs.map (fun q =>
      { handle := h, index := q.1.index, rank := w.rank, seq := w.seq, addr := q.1.loc, nibble := q.1.nibble, vaddr := q.1.vaddr,
        elem := x.elem, accum := x.collide == 2, val := q.2.1, poison := q.1.item.poison }))
  else
    let pw := w.pw h ((ps.map (·.vaddr)).headD 0)
    if x.collide = 2 then
      let (d, rs) := qs.foldl (fun (acc : Dev × List (Placed × Nat × Nat × Bool)) q =>
        let (d, r) := acc.1.readBy rc.eng.sect rc.eng.src q.1.loc (elemBytes x.elem)
        let v := accumulate x.elem (leNat r.1) [q.2.1]
        (d.addFlags w.cmd v.2, acc.2 ++ [(q.1, elemBytes x.elem, v.1, r.2 != 0 || q.1.item.poison)])) (d, [])
      d.writeAll rc.eng.sect keep (gather pw rs)
    else d.writeAll rc.eng.sect keep (gather pw (qs.map (fun q => (q.1, elemBytes x.elem, q.2.1, q.1.item.poison))))

/-- Of elements that name one source coordinate, the one of the highest logical index (R67, R71). -/
def newest (ps : List Placed) : List Placed :=
  ps.filter (fun p => !ps.any (fun q => q.src == p.src && decide (p.index < q.index)))

/-- A code on its way through the serialising writer, to be written as it is. -/
def Writer.ordered (w : Writer) (h elem : Nat) (p : Placed) (code : Nat) (poison : Bool) : SerialWrite :=
  { handle := h, index := p.index, rank := w.rank, seq := w.seq, addr := p.loc, nibble := p.nibble, vaddr := p.vaddr,
    elem := elem, accum := false, val := code, poison := poison }

/-- One group of a block-scaled destination quantised: its elements and its scale (R41, R75); a poisoned member poisons the
group (R31). Through the serialising writer the scale takes the place of its group's first element. -/
def Dev.storeGroup (d : Dev) (w : Writer) (rc : Reach) (h : Nat) (inTile : Bool) (keep : Keep) (ps : List Placed) : Dev :=
  let x := rc.desc h
  match ps with
  | [] => d
  | p0 :: _ =>
    let vals := ps.map (fun p => widen p.item.ty p.item.scale p.item.code)
    let q := quantise x.elem (vals.map (·.1))
    let poison := ps.any (fun p => p.item.poison)
    let sc := rc.scaleAt x p0.src
    match d.locOf rc.noPort x.scaleHandle sc.2 true inTile with
    | (d, .error f) => d.failCmd w.cmd f.status f.handle f.vaddr
    | (d, .ok l) =>
      let d := d.addFlags w.cmd (vals.foldl (fun f v => f ||| v.2) q.2.2)
      if x.serial then
        let codes := (ps.zip q.2.1).map (fun pc => w.ordered h x.elem pc.1 pc.2 poison)
        let scale := w.ordered x.scaleHandle 3 { p0 with loc := l, nibble := none, vaddr := sc.2 } q.1 poison
        (d.serialise w h keep codes).serialise w x.scaleHandle keep [scale]
      else
      let d := d.writeAll rc.eng.sect keep (gather (w.pw h p0.vaddr)
        ((ps.zip q.2.1).map (fun pc => (pc.1, elemBytes x.elem, pc.2, poison))))
      d.writeAll rc.eng.sect keep (gather (w.pw x.scaleHandle sc.2)
        [(⟨l, none, sc.2, 0, sc.1, p0.item⟩, 1, q.1, poison)])

/-- The key of the group of 32 an element of a block-scaled destination belongs to (R75): its source coordinates and, where a
listed block holds whole groups, its list position, since ORDERED takes a block from one entry (R67). -/
def Desc.groupKey (x : Desc) (p : Placed) : List Int :=
  p.src.modify 0 (· / 32) ++ (if x.listEn && 5 ≤ x.blk.getD 0 0 then [p.item.cs.getD 3 0] else [])

/-- Placed items of a step converted by R40, quantised by R41 where the destination carries block scales, and written. -/
def Dev.storePlaced (d : Dev) (w : Writer) (rc : Reach) (h : Nat) (inTile : Bool) (sat : Option Bool) (keep : Keep)
    (ps : List Placed) : Dev :=
  let x := rc.desc h
  if x.scaleEn && !(ps.all (fun p => isRaw p.item.ty)) then
    ((ps.map x.groupKey).eraseDups).foldl (fun d k =>
      d.storeGroup w rc h inTile keep (newest (ps.filter (fun p => x.groupKey p == k)))) d
  else d.storePlain w rc h sat keep ps

/-- Items of a step whose command failed before the elements `later` of its footprint: each granule that none of those was to
write, nor a group of 32 that one of those belongs to, is left old, or is written, as a free value says (R59). -/
def Dev.storePart (d : Dev) (w : Writer) (rc : Reach) (h : Nat) (inTile : Bool) (sat : Option Bool) (ps : List Placed)
    (later : List Item) : Dev :=
  let x := rc.desc h
  let behind := d.placedOf rc h inTile later
  let not := d.granulesOf rc h inTile behind
  let whole := ps.filter (fun p => !x.scaleEn || !behind.any (fun q => x.groupKey q == x.groupKey p))
  let free := Config.freeWord d.free
  { d with free := d.free + 1 }.storePlaced w rc h inTile sat (fun g => free.testBit (g / 64) && !not.contains g) whole

/-- Items written through a handle: placed and checked, then converted and written. An access that fails ends the command, and
which granules were written before it is left open (R59); the answer says whether none failed. -/
def Dev.storeItems (d : Dev) (w : Writer) (rc : Reach) (h : Nat) (inTile : Bool) (sat : Option Bool) (its : List Item) :
    Dev × Bool :=
  let (d, ps, bad) := Dev.placeItems rc h inTile d its
  match bad with
  | none => (d.storePlaced w rc h inTile sat (fun _ => true) ps, true)
  | some (f, later) => ((d.storePart w rc h inTile sat ps later).failCmd w.cmd f.status f.handle f.vaddr, false)

/-- Items written through a handle. -/
def Dev.store (d : Dev) (w : Writer) (rc : Reach) (h : Nat) (inTile : Bool) (sat : Option Bool) (its : List Item) : Dev :=
  (d.storeItems w rc h inTile sat its).1

end Sys2Proof.Machine
end

