-- ==== Sys2Proof/Machine/HostReads.lean ====
section
/-! DEFINITION. Reads of host windows by engines (15 R427, R428; 06 R176; 04 R89): how one is sent, how it fails, and the lists
that a queue's head or a tile's next instruction waits for. -/

namespace Sys2Proof.Machine

/-- A read of a host window fails: counted, its address recorded, HOST_ABORT set (R427). -/
def Dev.hostFail (d : Dev) (addr : Nat) : Dev :=
  ((d.addF rHifAbortCnt fHifAbortCnt_Cnt 1).putF rHifAbortLast fHifAbortLast_Addr addr).raise pgHif 4

/-- What host memory has answered to head or tile `k`. -/
def Dev.fetchedAt (d : Dev) (k : Nat) : Fetched := tget d.cq.fetched {} k

def Dev.setFetched (d : Dev) (k : Nat) (f : Fetched) : Dev :=
  { d with cq := { d.cq with fetched := tset d.cq.fetched k f } }

/-- What was asked for head or tile `k` has served its purpose. -/
def Dev.clearFetched (d : Dev) (k : Nat) : Dev := { d with cq := { d.cq with fetched := tdel d.cq.fetched k } }

/-- A read for head or tile `k` failed; the first failure counts. -/
def Dev.headFailed (d : Dev) (k handle vaddr : Nat) : Dev :=
  let f := d.fetchedAt k
  if f.failed.isSome then d else d.setFetched k { f with failed := some (handle, vaddr) }

/-- A device read is sent; with a Bus Master Enable clear it fails at once, and its requester with it (R427, R428). -/
def Dev.sendRead (d : Dev) (c : Option Nat) (r : OutRead) : Dev :=
  if !d.masters r.func then
    let d := d.hostFail r.addr
    match c, r.purpose with
    | some c, _ => d.failCmd c 0x33 r.handle r.vaddr
    | none, .head k => d.headFailed k r.handle r.vaddr
    | none, _ => d
  else { d with hif := { d.hif with reads := d.hif.reads ++ [{ r with sentAt := d.time }] } }

/-- A granule of host memory that a traversal reads: the handle and virtual address a failure reports, and its bus address. -/
structure HostGran where
  handle : Nat
  vaddr : Nat
  addr : Nat
  deriving DecidableEq, Repr

/-- Granules of host memory that head or tile `k` of function `func` needs: those neither come nor asked for are asked for;
the answer is the failure of one, or whether all have come. -/
def Dev.awaitGrans (d : Dev) (k func : Nat) (need : List HostGran) : Dev × Except (Nat × Nat) Bool :=
  let missing (d : Dev) (g : HostGran) : Bool := !(d.fetchedAt k).got.contains g.addr
  let d := need.foldl (fun d g =>
    if missing d g && !d.hif.reads.any (fun r => r.purpose == .head k && r.addr == g.addr) then
      d.sendRead none { func := func, addr := g.addr, len := 64, purpose := .head k, vaddr := g.vaddr, handle := g.handle, sentAt := 0 }
    else d) d
  match (d.fetchedAt k).failed with
  | some f => (d, .error f)
  | none => (d, .ok (!need.any (missing d)))

/-- The host granule of a location, if it is one. -/
def hostGran (handle vaddr : Nat) (l : Nat) : Option HostGran :=
  if isHost l then some ⟨handle, vaddr, granOf (l - 2 ^ 51)⟩ else none

/-- Host granules that hold entries `ns` of the list of view h. -/
def Dev.entryGrans (d : Dev) (rc : Reach) (h : Nat) (ns : List Nat) : List HostGran :=
  let lh := (rc.desc h).listHandle
  let l := rc.desc lh
  ns.filterMap (fun n =>
    let va := (l.addrOf [n]).1
    match (d.xlate rc.noPort.eng l.pkey va false).2 with
    | .ok loc => hostGran lh va loc
    | .error _ => none)

/-- Host granules that hold entries of the list of a listed view, for reads at a list of coordinates (R65). -/
def Dev.listGrans (d : Dev) (rc : Reach) (h : Nat) (cs : List (List Int)) : List HostGran :=
  if !(rc.desc h).listEn then [] else d.entryGrans rc h (cs.filterMap (fun c => rc.entryIndex h c false)).eraseDups

/-- Host granules that hold elements of a view at a list of coordinates, and their scales; what cannot be translated is left
to the access itself. -/
def Dev.hostGrans (d : Dev) (rc : Reach) (h : Nat) (scales : Bool) (cs : List (List Int)) : List HostGran :=
  let x := rc.desc h
  let at_ (e : Engine) (h va : Nat) : List HostGran :=
    match (d.xlate e (rc.desc h).pkey va false).2 with
    | .ok l => (hostGran h va l).toList
    | .error _ => []
  let scale (src : List Int) : List HostGran :=
    if scales && x.scaleEn then at_ rc.noPort.eng x.scaleHandle (rc.scaleAt x src).2 else []
  cs.foldl (fun acc c =>
    let gs := match (d.place rc h c false).2 with
      | .ok (.on src) => at_ rc.eng h (x.addrOf src).1 ++ scale src
      | .ok (.zero src) => scale src
      | _ => []
    gs.foldl (fun acc g => if acc.any (fun y => y.addr == g.addr) then acc else acc ++ [g]) acc) []

end Sys2Proof.Machine
end

