-- ==== Sys2Proof/Machine/Tiles.lean ====
section
/-! DEFINITION. Tiles at work: bundles and slots, handle operands, cursors, skips and traps, registers, and the order in which
the slots of a bundle issue (04_thokel_programs.md R83, R90 to R93, R121, R123 to R127). -/

namespace Sys2Proof.Machine

/-! ## The program a tile runs -/

/-- A routine of the library in force in a sector (R82). -/
def Dev.routineOf (d : Dev) (k r : Nat) : Option Routine :=
  match (tget d.sect {} k).lib with
  | none => none
  | some l => l.routines.find? (fun x => x.num == r)

/-- The routine tile t is in; the instruction buffer holds its closure as the routine store does, which no LIB_LOAD changes
while a program runs (R84, R119). -/
def Dev.tileRoutine (d : Dev) (t : Nat) : Option Routine := d.routineOf (t / 24) (d.tile t).routine

/-- The current bundle of tile t. -/
def Dev.bundle (d : Dev) (t : Nat) : BitVec 256 :=
  match d.tileRoutine t with
  | none => 0
  | some r => r.bundles.getD (d.tile t).bundle 0

/-- The word of slot s of a bundle (Table 4-2). -/
def slotWord (b : BitVec 256) (s : Nat) : W64 := BitVec.ofNat 64 (bitsOf b (64 * s) 64)

/-- The opcode of a slot word. -/
def opOf (w : W64) : Nat := bitsOf w 0 6

/-- Whether an opcode is defined for a slot (Tables 4-4 to 4-8). -/
def opDefined (s op : Nat) : Bool :=
  if s = 0 then op == 1 || op == 2 else if s = 1 then 1 ≤ op && op ≤ 0xE else if s = 2 then 1 ≤ op && op ≤ 5
  else 1 ≤ op && op ≤ 8

/-- Why a slot word is skipped whatever its operands: a NOP with a reserved bit set, or an opcode that its slot does not define
(Table 4-14); 0 for any other word. -/
def wordReason (s : Nat) (w : W64) : Nat :=
  if s = 3 then 0 else if opOf w = 0 then (if w = 0 then 0 else 2) else if opDefined s (opOf w) then 0 else 1

/-- Whether a slot has nothing to issue. -/
def slotIdle (s : Nat) (w : W64) : Bool := if s = 3 then opOf w == 0 else w == 0

/-- Vector registers that a slot word reads as it issues (Tables 4-4 to 4-7). -/
def slotReads (s : Nat) (w : W64) : List Nat :=
  let at_ (lo : Nat) : Nat := bitsOf w lo 5
  match s, opOf w with
  | 0, 1 => if bitsOf w 6 2 = 2 ∧ bitOf w 46 then [at_ 47] else []
  | 1, 3 => [at_ 11, at_ 16, at_ 21]
  | 1, n => if n = 1 ∨ n = 2 ∨ n = 4 ∨ n = 5 ∨ n = 10 ∨ n = 11 then [at_ 11, at_ 16] else if 6 ≤ n ∧ n ≤ 9 then [at_ 11] else []
  | 2, 2 => [at_ 10]
  | _, _ => []

/-- Vector registers that a slot word writes. -/
def slotWrites (s : Nat) (w : W64) : List Nat :=
  let at_ (lo : Nat) : Nat := bitsOf w lo 5
  match s, opOf w with
  | 0, 2 => if bitOf w 17 then [] else [at_ 18]
  | 1, 11 => [at_ 6, at_ 21]
  | 1, 14 => [at_ 19]
  | 1, n => if 1 ≤ n ∧ n ≤ 12 then [at_ 6] else []
  | 2, 1 => [at_ 10]
  | _, _ => []

/-- The handle operands an instruction slot names, in bundle word `w` of slot `s`; an operand its instruction does not use
names no tensor. -/
def operandsOf (s : Nat) (w : W64) : List Nat :=
  let at_ (lo : Nat) : Nat := bitsOf w lo 13
  match s, opOf w with
  | 0, 1 => [at_ 10, at_ 23]
  | 0, 2 => if bitOf w 17 then [at_ 24] else []
  | 1, 13 => [at_ 6, at_ 19, at_ 32]
  | 1, 14 => [at_ 6]
  | 2, 1 => [at_ 15]
  | 2, 2 => [at_ 15]
  | 2, 3 => [at_ 10, at_ 23]
  | 2, 4 => [at_ 10, at_ 23]
  | 2, 5 =>
    let k := bitsOf w 10 8
    if k = 1 ∨ k = 2 then [at_ 18, at_ 31, at_ 44] else if k = 3 ∨ k = 4 then [at_ 18, at_ 31] else [at_ 18]
  | 3, 7 => [at_ 6]
  | _, _ => []

/-- The operands an instruction writes through. -/
def writesOf (s : Nat) (w : W64) : List Nat :=
  let at_ (lo : Nat) : Nat := bitsOf w lo 13
  match s, opOf w with
  | 0, 2 => if bitOf w 17 then [at_ 24] else []
  | 1, 13 => [at_ 32]
  | 2, 2 => [at_ 15]
  | 2, 3 => [at_ 23]
  | 2, 4 => [at_ 23]
  | _, _ => []

/-- A record of the tile's routine. -/
def Dev.recordOf (d : Dev) (t i : Nat) : BitVec 256 :=
  match d.tileRoutine t with
  | none => 0
  | some r => r.records.getD i 0

/-! ## Handle operands (Table 4-3, R92) -/

/-- A handle operand in the terms of a list of bound arguments: the handle, or the skip reason. 0x1FFF, valid in records only,
is taken as reserved (a DESIGN CHOICE, log entry 73). -/
def resolveArg (args : List (BitVec 13)) (v : Nat) : Except Nat Nat :=
  if v < 0x1000 then .ok v
  else if v < 0x1008 then
    let a := (args.getD (v - 0x1000) 0x1FFF).toNat
    if a = 0x1FFF then .error 4 else .ok (a % 4096)
  else .error 2

def Dev.resolve (d : Dev) (t v : Nat) : Except Nat Nat := resolveArg (d.tile t).args v

/-- The handle an operand names, once it is known to be legal. -/
def Dev.handle (d : Dev) (t v : Nat) : Nat :=
  match d.resolve t v with
  | .ok h => h
  | .error _ => 0

/-! ## Cursors (R93) -/

/-- The cursor of a handle: nine coordinates. -/
def Tile.cursor (x : Tile) (h : Nat) : List (BitVec 32) := tget x.cursors (List.replicate 9 0) h

def Dev.cursor (d : Dev) (t h : Nat) : List (BitVec 32) := (d.tile t).cursor h

/-- A cursor as signed coordinates, `a` and `b` added in dimensions 0 and 1; the sums do not wrap as the cursor does (a DESIGN
CHOICE, log entry 73). -/
def coordsAt (c : List (BitVec 32)) (a b : Nat) : List Int :=
  ((c.map (fun x => x.toInt)).modify 0 (· + a)).modify 1 (· + b)

/-- A cursor coordinate changed, modulo 2^32. -/
def Tile.setCursor (x : Tile) (h dim : Nat) (f : BitVec 32 → BitVec 32) : Tile :=
  { x with cursors := tset x.cursors h ((x.cursor h).modify dim f) }

/-! ## The command of a tile -/

/-- The command tile t runs. -/
def Dev.tileCmd (d : Dev) (t : Nat) : Option Cmd :=
  match (d.tile t).cmd with
  | none => none
  | some c => d.cmd? c

/-- CTX of a command record (Table 5-2). -/
def Cmd.ctx (x : Cmd) : Nat := bitsOf x.word 88 4

/-- How tile t reaches memory for its command. -/
def Cmd.reach (x : Cmd) (t : Nat) : Reach :=
  { eng := { src := 1, sect := t / 24, tile := t, part := x.part, ctx := x.ctx, bypass := x.bypass }
    descs := x.descs, lists := x.lists }

def Cmd.writer (x : Cmd) (rank seq : Nat) : Writer := ⟨x.id, rank, seq, x.func⟩

/-- The next issue number of a command's instructions. -/
def Dev.nextSeq (d : Dev) (c : Nat) : Dev := d.modCmd c (fun x => { x with nextSeq := x.nextSeq + 1 })

/-! ## Skips (R123 to R126) and fetch traps (R127) -/

/-- An entry of the illegal-instruction ring (Table 4-15). -/
def illEntry (time seq tile routine bundle slot reason : Nat) (word : W64) : List Byte :=
  leBytes 32 (time % 2 ^ 64 + atBit 64 seq + atBit 96 tile + atBit 104 routine + atBit 112 bundle + atBit 123 slot
    + atBit 128 reason + atBit 192 word.toNat)

/-- The first skip of a tile, routine, bundle and slot is appended to the context's ring, or dropped (R125). -/
def Dev.illAppend (d : Dev) (x : Cmd) (bs : List Byte) : Dev :=
  let k := d.liveSect x.part
  let c := x.ctx
  let l := d.getF (rSectIllCtrl k c) fSectIllCtrl_Log2n
  if d.getF (rSectIllCtrl k c) fSectIllCtrl_En = 0 ∨ l < 6 ∨ 12 < l then d
  else
    let head := d.getF (rSectIllHead k c) fSectIllHead_Head
    let used := (head + 2 ^ 32 - d.getF (rSectIllTail k c) fSectIllTail_Tail) % 2 ^ 32
    let lost (d : Dev) : Dev := d.addF (rSectIllLost k c) fSectIllLost_Lost 1
    if used = 2 ^ l then lost d
    else
      let va := d.getF (rSectIllBase k c) fSectIllBase_Base * 4096 + 32 * (head % 2 ^ l)
      match d.writeVa { src := 3, part := x.part, ctx := c } 0 va bs { addr := 0, data := [], func := x.func } with
      | (d, .error _) => lost d
      | (d, .ok _) => (d.rollF (rSectIllHead k c) fSectIllHead_Head 1).raise (pgThk k) (2 ^ c)

/-- INSTRUCTION_SKIP: slot s of tile t's bundle is skipped with a reason (R124, R125). -/
def Dev.skip (d : Dev) (t s reason : Nat) (w : W64) : Dev :=
  match d.tileCmd t with
  | none => d
  | some x =>
    let z := d.tile t
    let key := (t, z.routine, z.bundle, s)
    let d := d.modCmd x.id (fun x => { x with skips := x.skips + 1, skipSeen := (key :: x.skipSeen).eraseDups })
    let d := d.addF (rSectIllCnt (d.liveSect x.part) x.ctx) fSectIllCnt_Cnt 1
    if x.skipSeen.contains key then d
    else d.illAppend x (illEntry d.time (bitsOf x.word 32 32) t z.routine z.bundle s reason w)

/-- FETCH_TRAP: an uncorrectable word stops the command and traps the context (R127); `bundle` is 0x7FF for the copy. -/
def Dev.fetchTrap (d : Dev) (x : Cmd) (t routine bundle : Nat) : Dev :=
  let k := d.liveSect x.part
  let d := d.setReg (rSectCtxState k x.ctx) (BitVec.ofNat 64 (1 + atBit 1 routine + atBit 9 bundle + atBit 20 t))
  (d.raise (pgThk k) (2 ^ (16 + x.ctx))).failCmd x.id 0x35 0 0

/-! ## Registers (R31, R91) -/

def zeroReg : List Elem := List.replicate 128 {}

/-- A vector register as it stood before the bundle (R91). -/
def Tile.vreg (x : Tile) (r : Nat) : List Elem :=
  match tfind x.preV r with
  | some v => v
  | none => tget x.vregs zeroReg r

/-- A vector register written by a slot of the bundle: its old value is kept for the bundle's other slots. -/
def Tile.setVreg (x : Tile) (r : Nat) (v : List Elem) : Tile :=
  { x with
    preV := if thas x.preV r then x.preV else tset x.preV r (tget x.vregs zeroReg r)
    vregs := tset x.vregs r v
    written := r :: x.written }

/-- Elements `lo` and on of register r of tile t are written: what stood in their words, two elements each, ends (R338). -/
def Dev.regDrop (d : Dev) (t r lo n : Nat) : Dev :=
  d.dropWords .vreg t ((List.range (n / 2)).map (fun i => 64 * r + lo / 2 + i))

/-- Elements of a register marked poisoned where the word they lie in is among `ws` (Table 12-1). -/
def markElems (ws : List Nat) (v : List Elem) : List Elem :=
  (v.zip (List.range v.length)).map (fun e => if ws.contains (e.2 / 2) then { e.1 with poison := true } else e.1)

/-- Register r of tile t is about to be read: words found uncorrectable mark their elements (R338, R339). -/
def Dev.checkReg (d : Dev) (t r : Nat) : Dev :=
  if d.upsets.isEmpty then d
  else
    let (d, ws) := (List.range 64).foldl (fun (acc : Dev × List Nat) i =>
      let (d, ue) := acc.1.readWord .vreg t (64 * r + i)
      (d, if ue then i :: acc.2 else acc.2)) (d, [])
    if ws.isEmpty then d
    else d.modTile t (fun x => { x with vregs := tset x.vregs r (markElems ws (tget x.vregs zeroReg r)) })

/-- A register with 64 of its elements replaced, the upper half when `hi`. -/
def setHalf (v : List Elem) (hi : Bool) (h : List Elem) : List Elem :=
  if hi then v.take 64 ++ h else h ++ v.drop 64

/-- Whether a write of register r by an MRD of an earlier bundle is still pending (R121). -/
def Tile.pendingReg (x : Tile) (r : Nat) : Bool :=
  x.inflight.any (fun i =>
    match i with
    | .readout w _ _ _ _ => !bitOf w 17 && bitsOf w 18 5 == r
    | .products _ _ _ => false)

/-! ## Issue -/

/-- Whether an outstanding operation still counts in its tag: an MSEND whose last byte has left the sender does not (R111). -/
def OutKind.counts : OutKind → Bool
  | .sent _ _ _ _ => false
  | _ => true

/-- Moves of a tag that are outstanding (R111). -/
def Tile.pendingTag (x : Tile) (tag : Nat) : Bool := x.outs.any (fun o => o.tag == tag && o.kind.counts)

/-- Whether WAIT's condition holds (Table 4-8). -/
def Tile.waitMet (x : Tile) (w : W64) : Bool :=
  (List.range 16).all (fun g => !(bitOf w (6 + g) && x.pendingTag g))
    && (!bitOf w 26 || bitsOf w 27 24 ≤ (tget x.arrival 0 (bitsOf w 22 4)).toNat)

/-- Whether the loop slot of a bundle holds the issue of the others: a WAIT or BARRIER not yet passed (R112, R121). -/
def Tile.heldBy (x : Tile) (b : BitVec 256) : Bool :=
  let op := opOf (slotWord b 3)
  (op == 4 || op == 5) && !x.issued.contains 3

/-- The lowest slot of the bundle that has still to issue. -/
def Tile.nextSlot (x : Tile) (b : BitVec 256) : Option Nat :=
  if x.heldBy b then some 3
  else (List.range 4).find? (fun s => !slotIdle s (slotWord b s) && !x.issued.contains s)

/-- Whether nothing of the current bundle has issued but its loop slot, whose condition comes first. -/
def Tile.fresh (x : Tile) : Bool := x.issued.all (· == 3)

/-- Whether a bundle that has not issued is held: a vector register it reads or writes has a write pending, or its matrix slot
is not NOP while the sector's governor holds matrix issue for a droop (R121, R384). -/
def Dev.bundleHeld (d : Dev) (t : Nat) (b : BitVec 256) : Bool :=
  let x := d.tile t
  x.fresh
    && ((List.range 3).any (fun s =>
          (slotReads s (slotWord b s) ++ slotWrites s (slotWord b s)).any x.pendingReg)
      || (opOf (slotWord b 0) != 0 && d.pwr.drooping.contains (t / 24)))

/-- Coordinates written back (R94). -/
def Tile.restore (x : Tile) (saved : List (Nat × Nat × BitVec 32)) : Tile :=
  saved.foldl (fun x e => x.setCursor e.1 e.2.1 (fun _ => e.2.2)) x

/-- The triples of an increment record that apply: handle, dimension, increment (R95, R97, R117). -/
def triples (args : List (BitVec 13)) (r : BitVec 256) : List (Nat × Nat × Int) :=
  (List.range 4).filterMap (fun j =>
    let o := 64 * j
    if !bitOf r (o + 41) then none
    else
      match resolveArg args (bitsOf r o 13) with
      | .error _ => none
      | .ok h => some (h, bitsOf r (o + 13) 4, signed 24 (bitsOf r (o + 17) 24)))

/-- Increments, each `times` over, applied in triple order (R95, R97). -/
def Tile.increment (x : Tile) (ts : List (Nat × Nat × Int)) (times : Nat) : Tile :=
  ts.foldl (fun x e => x.setCursor e.1 e.2.1 (fun c => c + BitVec.ofInt 32 (e.2.2 * times))) x

/-- END_OF_BODY: what follows the last slot of bundle b (R94): every level whose body ends there, innermost first, repeats
or closes. `depth` tells the levels of the routine that is running. Fuel: at most six levels are open. -/
def Tile.endOf (recs : Nat → BitVec 256) : Nat → Tile → Nat → Tile
  | 0, x, b => { x with bundle := b + 1 }
  | fuel + 1, x, b =>
    match x.loops with
    | [] => { x with bundle := b + 1 }
    | l :: ls =>
      if l.last ≠ b ∨ l.depth ≠ x.frames.length then { x with bundle := b + 1 }
      else
        let x := match l.record with
          | none => x
          | some r => x.increment (triples x.args (recs r)) 1
        if 1 < l.left then
          { x with loops := { l with left := l.left - 1, first_iter := false } :: ls, bundle := l.first }
        else Tile.endOf recs fuel ({ x with loops := ls }.restore l.saved) b

/-- The bundle's slots have all issued: its state ends, and control goes on from it (R94). -/
def Dev.endBundle (d : Dev) (t : Nat) : Dev :=
  let recs := d.recordOf t
  d.modTile t (fun x => { x with issued := [], written := [], preV := [] }.endOf recs 8 x.bundle)

/-- Slot s of tile t has issued; the bundle ends when none is left. -/
def Dev.slotDone (d : Dev) (t s : Nat) : Dev :=
  let d := d.modTile t (fun x => { x with issued := s :: x.issued })
  let b := d.bundle t
  if ((d.tile t).nextSlot b).isNone then d.endBundle t else d

/-- The word number of a slot in a routine store or an instruction buffer, as upsets name it: a body's records and handle list
follow its bundles (R116). -/
def slotNumber (routine bundle s : Nat) : Nat := (routine * 4096 + bundle) * 4 + s

/-- The record that a loop-slot word names (Table 4-8). -/
def recordIn (w : W64) : Option Nat :=
  match opOf w with
  | 1 => if bitsOf w 42 6 = 0x3F then none else some (bitsOf w 42 6)
  | 2 => if bitsOf w 14 6 = 0x3F then none else some (bitsOf w 14 6)
  | 6 => some (bitsOf w 6 6)
  | _ => none

/-- The words fetched for a bundle of tile t: its four slots, and those of the record its loop slot names. -/
def Dev.fetchWords (d : Dev) (t : Nat) (b : BitVec 256) : List Nat :=
  let x := d.tile t
  let four (i : Nat) : List Nat := (List.range 4).map (slotNumber x.routine i)
  four x.bundle ++ (match recordIn (slotWord b 3), d.tileRoutine t with
    | some i, some r => four (r.bundles.length + i)
    | _, _ => [])

/-- A bundle about to issue: its words are fetched, and the vector registers it reads are read; `true` when a word is
uncorrectable, which traps the context (R127, R339). -/
def Dev.fetch (d : Dev) (c : Cmd) (t : Nat) (b : BitVec 256) : Dev × Bool :=
  let x := d.tile t
  if !x.fresh then (d, false)
  else
    let (d, ue) := d.readWords .instrBuffer t (d.fetchWords t b)
    if ue then (d.fetchTrap c t x.routine x.bundle, true)
    else (((List.range 3).flatMap (fun s => slotReads s (slotWord b s))).foldl (fun d r => d.checkReg t r) d, false)

/-- Bundles that issue without a command of the table are passed: those that hold only NOPs, and slots whose word is skipped
whatever its operands (R90, R123). -/
def Dev.clearWay : Nat → Dev → Nat → Dev
  | 0, d, _ => d
  | fuel + 1, d, t =>
    let x := d.tile t
    match d.tileCmd t with
    | none => d
    | some c =>
      if x.ended ∨ x.stopped then d
      else
        let b := d.bundle t
        match x.nextSlot b with
        | none =>
          match d.fetch c t b with
          | (d, true) => d
          | (d, false) => Dev.clearWay fuel (d.endBundle t) t
        | some s =>
          let w := slotWord b s
          if wordReason s w = 0 ∨ d.bundleHeld t b then d
          else
            match d.fetch c t b with
            | (d, true) => d
            | (d, false) => Dev.clearWay fuel ((d.skip t s (wordReason s w) w).slotDone t s) t

/-- How far a tile may pass over bundles of NOPs at once. -/
def wayFuel : Nat := 2 ^ 40

/-- Tile t comes to slot s of its current bundle: the command and the slot's word, where the word holds opcode `op` and the
bundle issues (R121, R127); a tile whose current slot is another one, or whose bundle is held, is left as it is. -/
def Dev.atSlot (d : Dev) (t s op : Nat) : Dev × Option (Cmd × W64) :=
  let d := Dev.clearWay wayFuel d t
  let x := d.tile t
  match d.tileCmd t with
  | none => (d, none)
  | some c =>
    let b := d.bundle t
    let w := slotWord b s
    if x.ended ∨ x.stopped ∨ x.nextSlot b ≠ some s ∨ opOf w ≠ op ∨ d.bundleHeld t b then (d, none)
    else
      match d.fetch c t b with
      | (d, true) => (d, none)
      | (d, false) => (d, some (c, w))

/-- The descriptor registers of handles in unit `u`, a tile or a DMA channel after them, are read: the first handle one of whose
words is uncorrectable (R338, R339). -/
def Dev.descRegs (d : Dev) (u : Nat) (hs : List Nat) : Dev × Option Nat :=
  if d.upsets.isEmpty then (d, none)
  else hs.foldl (fun (acc : Dev × Option Nat) h =>
    if acc.2.isSome then acc
    else
      let (d, ue) := acc.1.readWords .descReg u ((List.range 8).map (8 * h + ·))
      (d, if ue then some h else none)) (d, none)

/-- The descriptor registers of the handles that a word names, with their lists and scales, are read: the first handle one of
whose words is uncorrectable (R338, R339). -/
def Dev.checkHandles (d : Dev) (c : Cmd) (t s : Nat) (w : W64) : Dev × Option Nat :=
  if d.upsets.isEmpty then (d, none)
  else
    let hs := ((operandsOf s w).filterMap (fun v => (d.resolve t v).toOption)).flatMap (fun h =>
      let x := (c.reach t).desc h
      h :: (if x.listEn then [x.listHandle] else []) ++ (if x.scaleEn then [x.scaleHandle] else []))
    d.descRegs t hs

/-- The key in `fetched` of tile t. -/
def tileKey (t : Nat) : Nat := 128 + t

/-- The gather lists that tile t's instruction reads at views and coordinates: their entries in host windows are asked for, and
the answer is the failure of one, or whether all have come (R65, R176). -/
def Dev.awaitLists (d : Dev) (c : Cmd) (t : Nat) (ls : List (Nat × List (List Int))) : Dev × Except (Nat × Nat) Bool :=
  let need := ls.flatMap (fun l => d.listGrans (c.reach t) l.1 l.2)
  if need.isEmpty then (d, .ok true)
  else
    match d.awaitGrans (tileKey t) c.func need with
    | (d, .ok true) => (d.clearFetched (tileKey t), .ok true)
    | r => r

/-- Tile t issues slot s of its current bundle, which holds opcode `op`: it is skipped for the first reason that holds (R123),
else performed. Entries of gather lists in host windows, at the views and coordinates that `lists` names, are read first
(R65, R176). -/
def Dev.issue (d : Dev) (t s op : Nat) (reason : Dev → Cmd → W64 → Nat) (run : Dev → Cmd → W64 → Dev)
    (lists : Dev → Cmd → W64 → List (Nat × List (List Int)) := fun _ _ _ => []) : Dev :=
  match d.atSlot t s op with
  | (d, none) => d
  | (d, some (c, w)) =>
    match d.checkHandles c t s w with
    | (d, some h) => d.failCmd c.id 0x60 h 0
    | (d, none) =>
      let r := reason d c w
      if r ≠ 0 then (d.skip t s r w).slotDone t s
      else
        match d.awaitLists c t (lists d c w) with
        | (d, .error f) => d.failCmd c.id 0x33 f.1 f.2
        | (d, .ok false) => d
        | (d, .ok true) => (run d c w).slotDone t s

/-! ## Legality (Table 4-14) -/

/-- The first reason among reserved fields, invalid fields and handle operands (reasons 0x02 to 0x04). -/
def Dev.formReason (d : Dev) (t : Nat) (reserved invalid : Bool) (operands : List Nat) : Nat :=
  let errs := operands.map (fun v => match d.resolve t v with | .error e => e | .ok _ => 0)
  if reserved || errs.contains 2 then 2 else if invalid then 3 else if errs.contains 4 then 4 else 0

/-- The first non-zero of a list of reasons. -/
def firstReason (rs : List Nat) : Nat := (rs.find? (· != 0)).getD 0

/-- VR_CONFLICT (R91). -/
def Dev.conflict (d : Dev) (t : Nat) (writes : List Nat) : Nat := if writes.any ((d.tile t).written.contains ·) then 8 else 0

/-- Whether a cursor's first coordinate is not a multiple of 32. -/
def Dev.misaligned (d : Dev) (t h : Nat) : Bool := ((d.cursor t h).headD 0).toNat % 32 != 0

end Sys2Proof.Machine
end

