-- ==== Sys2Proof/Machine/Matrix.lean ====
section
/-! DEFINITION. The matrix slot: MMA, the landing of its products, and MRD (04_thokel_programs.md R98 to R103; 02 R23 to
R37). -/

namespace Sys2Proof.Machine

/-! ## MMA -/

def mmaPair (w : W64) : Nat := bitsOf w 6 2
def mmaStart (w : W64) : Nat := bitsOf w 8 2
def mmaA (w : W64) : Nat := bitsOf w 10 13
def mmaB (w : W64) : Nat := bitsOf w 23 13
def mmaAnchor (w : W64) : BitVec 10 := BitVec.ofNat 10 (bitsOf w 36 10)

/-- Terms of one MMA per lane (R99). -/
def mmaTerms (pair : Nat) : Nat := if pair = 1 then 128 else if pair = 2 then 16 else 64

/-- Whether the element types agree with PAIR (R99). -/
def pairFits (pair : Nat) (a b : Desc) : Bool :=
  if pair = 0 then isFp8 a.elem && isFp8 b.elem
  else if pair = 1 then a.elem == 2 && a.scaleEn && isFp8 b.elem
  else if pair = 2 then a.elem == 4 && b.elem == 4
  else a.elem == 6 && b.elem == 6

/-- Whether an MMA is block-scaled (R101). -/
def blockScaled (pair : Nat) (a b : Desc) : Bool := pair == 1 || (pair == 0 && (a.scaleEn || b.scaleEn))

/-- Whether an MMA says that it starts an accumulation: START, or START_FIRST with the innermost open level in its first
iteration (Table 4-4). -/
def Tile.mmaStarts (x : Tile) (w : W64) : Bool :=
  mmaStart w == 1 || (mmaStart w == 2 && (match x.loops with | [] => false | l :: _ => l.first_iter))

/-- Whether it opens an accumulation: it starts one, or none is open (R100). -/
def Tile.mmaOpens (x : Tile) (w : W64) : Bool := x.mmaStarts w || x.openAcc.isNone

/-- The skip reason of an MMA (Table 4-14, R99, R100). -/
def Dev.mmaReason (d : Dev) (t : Nat) (c : Cmd) (w : W64) : Nat :=
  let form := d.formReason t (bitsOf w 53 11 != 0) (mmaStart w == 3) [mmaA w, mmaB w]
  if form ≠ 0 then form
  else
    let rc := c.reach t
    let ha := d.handle t (mmaA w)
    let hb := d.handle t (mmaB w)
    let a := rc.desc ha
    let b := rc.desc hb
    let x := d.tile t
    let mismatch :=
      match x.openAcc with
      | none => false
      | some o => !x.mmaStarts w && (o.pair != mmaPair w || o.anchor != mmaAnchor w)
    firstReason [if pairFits (mmaPair w) a b then 0 else 5,
      if blockScaled (mmaPair w) a b && (d.misaligned t ha || d.misaligned t hb) then 6 else 0,
      if mismatch then 7 else 0]

/-- The scale code of the block at logical coordinates: `none` for a block that R74 leaves without one, 127 where the
operand carries no scales (R32); and whether it was read as poison. A block outside the view under EDGE FAULT fails as its
elements would (a DESIGN CHOICE, log entry 73). -/
def Dev.scaleCode (d : Dev) (rc : Reach) (h : Nat) (cs : List Int) : Dev × Except Fail (Option Nat × Bool) :=
  let x := rc.desc h
  if !x.scaleEn then (d, .ok (some 127, false))
  else
    match d.place rc h cs false with
    | (d, .error f) => (d, .error f)
    | (d, .ok (.edge va)) => (d, .error ⟨0x32, h, va⟩)
    | (d, .ok .skip) => (d, .ok (none, false))
    | (d, .ok (.zero src)) | (d, .ok (.on src)) =>
      match ({ dev := d } : StepRead).scale rc x src true with
      | (r, .error f) => (r.dev, .error f)
      | (r, .ok (s, o)) => (r.dev, .ok (some s, o != 0))

/-- The pre-pass over blocks of one lane (R33, R101): combined scales that count, from block coordinates of both operands. -/
def Dev.prepass (rc : Reach) (ha hb : Nat) : Dev → List (List Int × List Int) → Dev × Except Fail (List (Option Int) × Bool)
  | d, [] => (d, .ok ([], false))
  | d, (ca, cb) :: rest =>
    match d.scaleCode rc ha ca with
    | (d, .error f) => (d, .error f)
    | (d, .ok (sa, pa)) =>
      match d.scaleCode rc hb cb with
      | (d, .error f) => (d, .error f)
      | (d, .ok (sb, pb)) =>
        let here : List (Option Int) :=
          match sa, sb with
          | some x, some y => [combined (some x) (some y)]
          | _, _ => []
        match Dev.prepass rc ha hb d rest with
        | (d, .error f) => (d, .error f)
        | (d, .ok (cs, p)) => (d, .ok (here ++ cs, p || pa || pb))

/-- Coordinates of the blocks of lane i's pre-pass: those of the whole of dimension 0 of SRCA's view, each with the block of
SRCB that the cursors pair it with (R101). A part of SRCA's dimension 0 beyond its last whole block of 32 is in none (a
DESIGN CHOICE, log entry 73). -/
def Dev.laneBlocks (d : Dev) (t : Nat) (rc : Reach) (w : W64) (i : Nat) : List (List Int × List Int) :=
  let ca := coordsAt (d.cursor t (d.handle t (mmaA w))) 0 i
  let cb := coordsAt (d.cursor t (d.handle t (mmaB w))) 0 0
  let off := cb.headD 0 - ca.headD 0
  (List.range ((rc.extents (rc.desc (d.handle t (mmaA w)))).headD 0 / 32)).map (fun q =>
    (ca.set 0 (32 * q : Nat), cb.set 0 ((32 * q : Nat) + off)))

/-- One lane's anchor and whether its pre-pass read poison (R24, R101): a scale read as poison marks the lane (a DESIGN CHOICE,
log entry 73). -/
def Dev.laneAnchor (d : Dev) (t : Nat) (rc : Reach) (w : W64) (i : Nat) : Dev × Except Fail (Int × Bool) :=
  let ha := d.handle t (mmaA w)
  let hb := d.handle t (mmaB w)
  let a := rc.desc ha
  let b := rc.desc hb
  if mmaAnchor w ≠ 0x200 then (d, .ok ((mmaAnchor w).toInt, false))
  else if !blockScaled (mmaPair w) a b then (d, .ok (autoAnchor a.elem b.elem false 0, false))
  else
    match Dev.prepass rc ha hb d (d.laneBlocks t rc w i) with
    | (d, .error f) => (d, .error f)
    | (d, .ok (cs, p)) => (d, .ok (autoAnchor a.elem b.elem true (cMax cs), p))

/-- Lane anchors, for lanes i and on. -/
def Dev.laneAnchors (t : Nat) (rc : Reach) (w : W64) : Dev → List Nat → Dev × Except Fail (List (Int × Bool))
  | d, [] => (d, .ok [])
  | d, i :: is =>
    match d.laneAnchor t rc w i with
    | (d, .error f) => (d, .error f)
    | (d, .ok a) =>
      match Dev.laneAnchors t rc w d is with
      | (d, .error f) => (d, .error f)
      | (d, .ok as) => (d, .ok (a :: as))

/-- Whether an element belongs to a block without a scale, which contributes no term (R74). -/
def noTerm (x : Desc) (e : ElemRead) : Bool := x.scaleEn && e.scale.isNone

/-- The element types and block scales of a pair of operands. -/
structure PairOps where
  pair : Nat
  ta : Nat
  tb : Nat
  sa : Bool
  sb : Bool
  deriving DecidableEq, Repr

/-- Whether the block of a pair of elements contributes no term, an operand that carries scales having none there (R74). -/
def PairOps.absent (o : PairOps) (a b : ElemRead) : Bool := (o.sa && a.scale.isNone) || (o.sb && b.scale.isNone)

/-- What one lane or hen row takes: exact terms, or the FP32 leaves of a BF16 pair (R25, R36). A poisoned element marks it
even where its block contributes no term (R31; a DESIGN CHOICE, log entry 73). -/
def PairOps.products (o : PairOps) (anchor : Int) (as bs : List ElemRead) : LaneProd :=
  (as.zip bs).foldl (fun (p : LaneProd) e =>
    let p := { p with poison := p.poison || e.1.out != 0 || e.2.out != 0 }
    if o.absent e.1 e.2 then p
    else if o.pair = 2 then
      let m := fmul (widen 4 none e.1.code).1 (widen 4 none e.2.code).1
      { p with leaves := p.leaves ++ [m.1], flags := p.flags ||| m.2 }
    else
      let scale := if o.pair = 3 then some 0 else combined e.1.scale e.2.scale
      p.addTerm anchor scale (codeNum o.ta e.1.code) (codeNum o.tb e.2.code)) { anchor := anchor }

def pairOps (pair : Nat) (a b : Desc) : PairOps := ⟨pair, a.elem, b.elem, a.scaleEn, b.scaleEn⟩

/-- Coordinates of lane i's elements of SRCA, and of SRCB's (R99). -/
def laneCoords (c : List (BitVec 32)) (n i : Nat) : List (List Int) := (List.range n).map (fun k => coordsAt c k i)

/-- The rows of SRCA for lanes i and on. -/
def Dev.mmaRows (rc : Reach) (h : Nat) (c : List (BitVec 32)) (n : Nat) : Dev → List Nat → Dev × Except Fail (List (List ElemRead))
  | d, [] => (d, .ok [])
  | d, i :: is =>
    match Dev.readElems rc h true true d (laneCoords c n i) with
    | (d, .error f) => (d, .error f)
    | (d, .ok r) =>
      match Dev.mmaRows rc h c n d is with
      | (d, .error f) => (d, .error f)
      | (d, .ok rs) => (d, .ok (r :: rs))

/-- The seed of lane i of a starting BF16 accumulation with SEED, read at issue (R102); with another PAIR the bit says nothing
(a DESIGN CHOICE, log entry 73). -/
def Tile.seed (x : Tile) (w : W64) (i : Nat) : Elem :=
  if mmaPair w = 2 ∧ bitOf w 46 then (x.vreg (bitsOf w 47 5)).getD (if bitOf w 52 then 64 + i else i) {} else {}

/-- The views and coordinates that an MMA reads, its pre-pass included. -/
def Dev.mmaLists (d : Dev) (t : Nat) (c : Cmd) (w : W64) : List (Nat × List (List Int)) :=
  let rc := c.reach t
  let ha := d.handle t (mmaA w)
  let hb := d.handle t (mmaB w)
  let n := mmaTerms (mmaPair w)
  let auto := (d.tile t).mmaOpens w && mmaAnchor w == 0x200 && blockScaled (mmaPair w) (rc.desc ha) (rc.desc hb)
  let blocks := if auto then (List.range 64).flatMap (d.laneBlocks t rc w) else []
  [(ha, (List.range 64).flatMap (laneCoords (d.cursor t ha) n) ++ blocks.map (·.1)),
   (hb, laneCoords (d.cursor t hb) n 0 ++ blocks.map (·.2))].filter (fun l => (rc.desc l.1).listEn)

/-- MMA performed: operands and seeds are read at issue, and the products of the 64 lanes are in flight. -/
def Dev.mmaRun (d : Dev) (t : Nat) (c : Cmd) (w : W64) : Dev :=
  let rc := c.reach t
  let x := d.tile t
  let pair := mmaPair w
  let n := mmaTerms pair
  let ha := d.handle t (mmaA w)
  let hb := d.handle t (mmaB w)
  let opens := x.mmaOpens w
  let fail (d : Dev) (f : Fail) : Dev := d.failCmd c.id f.status f.handle f.vaddr
  match Dev.readElems rc hb true true d (laneCoords (x.cursor hb) n 0) with
  | (d, .error f) => fail d f
  | (d, .ok bs) =>
    match Dev.mmaRows rc ha (x.cursor ha) n d (List.range 64) with
    | (d, .error f) => fail d f
    | (d, .ok rows) =>
      match (if opens ∧ pair ≠ 2 then Dev.laneAnchors t rc w d (List.range 64)
             else (d, .ok ((List.range 64).map (fun i =>
               (((x.openAcc.map OpenAcc.anchors).getD []).getD i 0, false))))) with
      | (d, .error f) => fail d f
      | (d, .ok anchors) =>
        let lanes := (List.range 64).map (fun i =>
          let an := anchors.getD i (0, false)
          let p := (pairOps pair (rc.desc ha) (rc.desc hb)).products an.1 (rows.getD i []) bs
          let s := if opens then x.seed w i else {}
          { p with seed := s.val, poison := p.poison || an.2 || s.poison })
        d.modTile t (fun x => { x with
          inflight := x.inflight ++ [.products opens (pair == 2) lanes]
          openAcc := if opens then some ⟨pair, mmaAnchor w, anchors.map (·.1)⟩ else x.openAcc })

/-- MMA (R98 to R102). -/
def Dev.mma (d : Dev) (t : Nat) : Dev :=
  d.issue t 0 1 (fun d c w => d.mmaReason t c w) (fun d c w => d.mmaRun t c w) (fun d c w => d.mmaLists t c w)

/-! ## MRD -/

def mrdMode (w : W64) : Nat := bitsOf w 6 2
def mrdToDst (w : W64) : Bool := bitOf w 17

/-- The element type of an MRD's destination (R103). -/
def mrdType (mode : Nat) : Nat := if mode = 0 then 5 else if mode = 1 then 7 else 12

/-- The skip reason of an MRD. -/
def Dev.mrdReason (d : Dev) (t : Nat) (c : Cmd) (w : W64) : Nat :=
  let form := d.formReason t (bitsOf w 37 27 != 0) (mrdMode w == 3 || (mrdMode w == 2 && !mrdToDst w))
    (if mrdToDst w then [bitsOf w 24 13] else [])
  if form ≠ 0 then form
  else
    let notInt :=
      match (d.tile t).openAcc with
      | none => false
      | some o => mrdMode w == 1 && o.pair != 3
    let wrongDst := mrdToDst w && ((c.reach t).desc (d.handle t (bitsOf w 24 13))).elem != mrdType (mrdMode w)
    firstReason [if notInt || wrongDst then 5 else 0, d.conflict t (if mrdToDst w then [] else [bitsOf w 18 5])]

/-- Each lane read, with the lanes afterwards. -/
def readLanes (lanes : Tab Lane) (bf16 : Bool) (w : W64) : List (Nat × Byte × Lane) :=
  (List.range 64).map (fun i => (tget lanes {} i).read bf16 (mrdMode w) (signed 9 (bitsOf w 8 9)))

/-- The accumulators of tile t are about to be read, lane i in word i: one found uncorrectable is marked poisoned (Table 12-1). -/
def Dev.checkLanes (d : Dev) (t : Nat) : Dev :=
  if d.upsets.isEmpty then d
  else (List.range 64).foldl (fun d i =>
    let (d, ue) := d.readWord .accumulator t i
    if ue then d.modTile t (fun x => { x with lanes := tmod x.lanes {} i (fun l => { l with poison := true }) }) else d) d

/-- An MRD takes its sample: results to VD, or through DST as 64 consecutive elements; flags to the command (R103). -/
def Dev.sample (d : Dev) (t : Nat) (c : Cmd) (w : W64) (bf16 : Bool) (dst : Nat) (cs : List (BitVec 32)) (seq : Nat) : Dev :=
  let d := d.checkLanes t
  let x := d.tile t
  let rs := readLanes x.lanes bf16 w
  let d := d.modTile t (fun x => { x with
    lanes := (List.range 64).foldl (fun l i =>
      match rs[i]? with
      | some r => if bf16 then tset l i r.2.2 else l
      | none => l) x.lanes })
  let d := d.addFlags c.id (rs.foldl (fun f r => f ||| r.2.1) 0)
  if mrdToDst w then
    d.store (c.writer x.rank seq) (c.reach t) dst true none ((List.range 64).map (fun i =>
      let r := rs.getD i (0, 0, {})
      ⟨coordsAt cs i 0, mrdType (mrdMode w), r.1, none, r.2.2.poison⟩))
  else
    let es : List Elem := rs.map (fun r => ⟨BitVec.ofNat 32 r.1, r.2.2.poison⟩)
    let r := bitsOf w 18 5
    (d.regDrop t r (if bitOf w 23 then 64 else 0) 64).modTile t (fun x =>
      let v := setHalf (tget x.vregs zeroReg r) (bitOf w 23) es
      if x.written.contains r then x.setVreg r v else { x with vregs := tset x.vregs r v })

/-- MRD issued: it samples at once when no products are in flight, else when they have landed. -/
def Dev.mrdRun (d : Dev) (t : Nat) (c : Cmd) (w : W64) : Dev :=
  let x := d.tile t
  let bf16 := match x.openAcc with
    | none => false
    | some o => o.pair == 2
  let h := d.handle t (bitsOf w 24 13)
  let seq := c.nextSeq
  let d := (d.nextSeq c.id).modTile t (fun x => { x with
    written := if mrdToDst w then x.written else bitsOf w 18 5 :: x.written })
  if x.inflight.isEmpty then d.sample t c w bf16 h (x.cursor h) seq
  else d.modTile t (fun x => { x with inflight := x.inflight ++ [.readout w bf16 h (x.cursor h) seq] })

/-- MRD (R103). -/
def Dev.mrd (d : Dev) (t : Nat) : Dev :=
  d.issue t 0 2 (fun d c w => d.mrdReason t c w) (fun d c w => d.mrdRun t c w)

/-! ## Landing -/

/-- Readouts at the head of what is in flight take their samples. -/
def Dev.takeSamples : Nat → Dev → Nat → Cmd → Dev
  | 0, d, _, _ => d
  | fuel + 1, d, t, c =>
    match (d.tile t).inflight with
    | .readout w bf16 dst cs seq :: rest =>
      let d := d.modTile t (fun x => { x with inflight := rest })
      let d := d.sample t c w bf16 dst cs seq
      Dev.takeSamples fuel d t c
    | _ => d

/-- MMA_PRODUCTS_LAND (R120, R100): the oldest products in flight land in the 64 lanes, and every MRD that waited for them
samples. -/
def Dev.productsLand (d : Dev) (t : Nat) : Dev :=
  match (d.tile t).inflight, d.tileCmd t with
  | .products start bf16 ps :: rest, some c =>
    let d := if start then d.dropUnit .accumulator t else d.checkLanes t
    let d := d.modTile t (fun x => { x with
      inflight := rest
      lanes := (List.range 64).foldl (fun l i => tset l i ((tget l {} i).land start bf16 (ps.getD i {}))) x.lanes })
    Dev.takeSamples (rest.length + 1) d t c
  | _, _ => d

end Sys2Proof.Machine
end

