-- ==== Sys2Proof/Machine/VectorOps.lean ====
section
/-! DEFINITION. The vector slot (04_thokel_programs.md R104, R105; 02 R38, R39, R46), and the move-slot loads and stores VLD
and VST (R107). -/

namespace Sys2Proof.Machine

def vD (w : W64) : Nat := bitsOf w 6 5
def vA (w : W64) : Nat := bitsOf w 11 5
def vB (w : W64) : Nat := bitsOf w 16 5
def vC (w : W64) : Nat := bitsOf w 21 5

/-- Elements of register r as the bundle sees it. -/
def Dev.vregOf (d : Dev) (t r : Nat) : List Elem := (d.tile t).vreg r

/-- A vector slot's result written, with the flags it raised (R30). -/
def Dev.putVreg (d : Dev) (t : Nat) (c : Cmd) (r : Nat) (es : List (Elem × Byte)) : Dev :=
  ((d.regDrop t r 0 128).modTile t (fun x => x.setVreg r (es.map (·.1)))).addFlags c.id (es.foldl (fun f e => f ||| e.2) 0)

/-- A vector instruction of the plain layout: reserved bits from `lo` up, and its element function. -/
def Dev.vecIssue (d : Dev) (t op lo : Nat) (f : List Elem → List Elem → List Elem → List (Elem × Byte)) :
    Dev :=
  d.issue t 1 op
    (fun d _ w => if bitsOf w lo (64 - lo) ≠ 0 then 2 else d.conflict t [vD w])
    (fun d c w => d.putVreg t c (vD w) (f (d.vregOf t (vA w)) (d.vregOf t (vB w)) (d.vregOf t (vC w))))

/-- An element computed from one, two or three elements, marked when any of them is (R31). -/
def elem1 (f : W32 → W32 × Byte) (a : Elem) : Elem × Byte :=
  let r := f a.val
  (⟨r.1, a.poison⟩, r.2)

def elem2 (f : W32 → W32 → W32 × Byte) (a b : Elem) : Elem × Byte :=
  let r := f a.val b.val
  (⟨r.1, a.poison || b.poison⟩, r.2)

def elem3 (f : W32 → W32 → W32 → W32 × Byte) (a b c : Elem) : Elem × Byte :=
  let r := f a.val b.val c.val
  (⟨r.1, a.poison || b.poison || c.poison⟩, r.2)

def vec1 (f : W32 → W32 × Byte) (a _ _ : List Elem) : List (Elem × Byte) := a.map (elem1 f)
def vec2 (f : W32 → W32 → W32 × Byte) (a b _ : List Elem) : List (Elem × Byte) := (a.zip b).map (fun p => elem2 f p.1 p.2)

/-- VADD, VMUL, VMAX, VMIN (Table 4-6): two registers, reserved bits 63:21 and VC unused. -/
def Dev.vec2Issue (d : Dev) (t op : Nat) (f : W32 → W32 → W32 × Byte) : Dev :=
  d.vecIssue t op 26 (vec2 f)

def Dev.vec1Issue (d : Dev) (t op : Nat) (f : W32 → W32 × Byte) : Dev :=
  d.vecIssue t op 26 (vec1 f)

/-- VFMA (Table 4-6). -/
def Dev.vfmaIssue (d : Dev) (t : Nat) : Dev :=
  d.vecIssue t 3 26 (fun a b c =>
    (a.zip (b.zip c)).map (fun p => elem3 ffma p.1 p.2.1 p.2.2))

/-- Sums of neighbours 2i and 2i + 1. -/
def pairSums (v : List Elem) : List (Elem × Byte) :=
  (List.range 64).map (fun i => elem2 fadd (v.getD (2 * i) {}) (v.getD (2 * i + 1) {}))

/-- VPAIR (Table 4-6). -/
def Dev.vpairIssue (d : Dev) (t : Nat) : Dev :=
  d.vecIssue t 0xA 26 (fun a b _ => pairSums a ++ pairSums b)

/-- Whether candidate b is taken over candidate a: a larger value, or an equal one with a lower index (Table 4-6). -/
def takesSecond (va ia vb ib : W32) : Bool :=
  indexGreater vb va || (!indexGreater va vb && (match numOf ia, numOf ib with
    | .fin n1 m1 e1, .fin n2 m2 e2 => decide (alignTo n2 m2 e2 (min e1 e2) < alignTo n1 m1 e1 (min e1 e2))
    | _, _ => indexGreater ia ib))

/-- One step of VPMAXI for candidates 2i and 2i + 1: value and index. -/
def maxStep (vals idx : List Elem) (i : Nat) : Elem × Elem :=
  let va := vals.getD (2 * i) {}
  let vb := vals.getD (2 * i + 1) {}
  let ia := idx.getD (2 * i) {}
  let ib := idx.getD (2 * i + 1) {}
  let second := takesSecond va.val ia.val vb.val ib.val
  let v := if second then vb.val else va.val
  let x := if second then ib.val else ia.val
  let p := va.poison || vb.poison || ia.poison || ib.poison
  (⟨if isNan32 v then qnan else v, p⟩, ⟨x, p⟩)

/-- VPMAXI (Table 4-6). -/
def Dev.vpmaxiIssue (d : Dev) (t : Nat) : Dev :=
  d.issue t 1 0xB
    (fun d _ w => if bitsOf w 26 38 ≠ 0 then 2 else if vC w = vD w then 3 else d.conflict t [vD w, vC w])
    (fun d c w =>
      let a := d.vregOf t (vA w)
      let b := d.vregOf t (vB w)
      let r := (List.range 64).map (maxStep a b)
      let v := r.map (fun e => (e.1, (0 : Byte)))
      let x := r.map (fun e => (e.2, (0 : Byte)))
      (d.putVreg t c (vD w) (v ++ v)).putVreg t c (vC w) (x ++ x))

/-- VIMM (Table 4-6). -/
def Dev.vimmIssue (d : Dev) (t : Nat) : Dev :=
  d.issue t 1 0xC
    (fun d _ w => if bitsOf w 11 21 ≠ 0 then 2 else d.conflict t [vD w])
    (fun d c w => d.putVreg t c (vD w) (List.replicate 128 (⟨BitVec.ofNat 32 (bitsOf w 32 32), false⟩, 0)))

/-! ## Exact partials (R105) -/

/-- Eight elements along dimension 0 at a cursor. -/
def Dev.read8 (d : Dev) (t : Nat) (c : Cmd) (h : Nat) : Dev × Except Fail (List ElemRead) :=
  Dev.readElems (c.reach t) h true true d (laneCoords (d.cursor t h) 8 0)

/-- The listed views among handles of tile t's instruction, each with the `n` elements along dimension 0 at its cursor. -/
def Dev.rowLists (d : Dev) (t : Nat) (c : Cmd) (n : Nat) (hs : List Nat) : List (Nat × List (List Int)) :=
  (hs.map (fun h => (h, laneCoords (d.cursor t h) n 0))).filter (fun l => ((c.reach t).desc l.1).listEn)

def asPartial (e : ElemRead) : BitVec 128 :=
  if e.out ≠ 0 then BitVec.ofNat 128 (e.code ||| 2 ^ 127) else BitVec.ofNat 128 e.code

/-- XADD (R105). -/
def Dev.xaddIssue (d : Dev) (t : Nat) : Dev :=
  d.issue t 1 0xD
    (fun d c w =>
      let form := d.formReason t (bitsOf w 55 9 != 0) false [bitsOf w 6 13, bitsOf w 19 13, bitsOf w 32 13]
      if form ≠ 0 then form
      else if [bitsOf w 6 13, bitsOf w 19 13, bitsOf w 32 13].all (fun v => ((c.reach t).desc (d.handle t v)).elem == 12) then 0
      else 5)
    (fun d c w =>
      let h1 := d.handle t (bitsOf w 6 13)
      let h2 := d.handle t (bitsOf w 19 13)
      let h3 := d.handle t (bitsOf w 32 13)
      let anchor := signed 10 (bitsOf w 45 10)
      match d.read8 t c h1 with
      | (d, .error f) => d.failCmd c.id f.status f.handle f.vaddr
      | (d, .ok as) =>
        match d.read8 t c h2 with
        | (d, .error f) => d.failCmd c.id f.status f.handle f.vaddr
        | (d, .ok bs) =>
          let rs := (as.zip bs).map (fun p => (exactSum anchor [asPartial p.1, asPartial p.2], p.1.out != 0 || p.2.out != 0))
          let d := d.addFlags c.id (rs.foldl (fun f r => f ||| r.1.2) 0)
          let x := d.tile t
          (d.nextSeq c.id).store (c.writer x.rank c.nextSeq) (c.reach t) h3 true none
            ((List.range 8).map (fun i =>
              let r := rs.getD i ((0, 0), false)
              ⟨coordsAt (x.cursor h3) i 0, 12, r.1.1.toNat, none, r.2⟩)))
    (fun d c w => d.rowLists t c 8 [d.handle t (bitsOf w 6 13), d.handle t (bitsOf w 19 13)])

/-- XRD (R105). -/
def Dev.xrdIssue (d : Dev) (t : Nat) : Dev :=
  d.issue t 1 0xE
    (fun d c w =>
      let form := d.formReason t (bitsOf w 37 27 != 0) false [bitsOf w 6 13]
      firstReason [form,
        if form = 0 ∧ ((c.reach t).desc (d.handle t (bitsOf w 6 13))).elem ≠ 12 then 5 else 0,
        d.conflict t [bitsOf w 19 5]])
    (fun d c w =>
      match d.read8 t c (d.handle t (bitsOf w 6 13)) with
      | (d, .error f) => d.failCmd c.id f.status f.handle f.vaddr
      | (d, .ok es) =>
        let r := bitsOf w 19 5
        let g := 8 * bitsOf w 24 4
        let vals := es.map (fun e =>
          let v := readPartial (asPartial e) (signed 9 (bitsOf w 28 9))
          ((⟨v.1, e.out != 0 || partialPoison (asPartial e)⟩ : Elem), v.2))
        let old := tget (d.tile t).vregs zeroReg r
        let d := (d.addFlags c.id (vals.foldl (fun f v => f ||| v.2) 0)).regDrop t r g 8
        d.modTile t (fun x => x.setVreg r (old.take g ++ vals.map (·.1) ++ old.drop (g + 8))))
    (fun d c w => d.rowLists t c 8 [d.handle t (bitsOf w 6 13)])

/-! ## VLD and VST (R107) -/

/-- Element types VLD and VST accept. -/
def vecType (t : Nat) : Bool := [0, 1, 2, 4, 5, 6].contains t

/-- First element and number of elements of PART. -/
def partSpan (p : Nat) : Nat × Nat := if p = 0 then (0, 128) else if p = 1 then (0, 64) else (64, 64)

/-- The skip reason of a VLD or VST through a handle operand, with the bits above its fields. -/
def Dev.vecMemReason (d : Dev) (t : Nat) (c : Cmd) (w : W64) (top : Nat) (writes : List Nat) : Nat :=
  let form := d.formReason t (bitsOf w 6 4 != 0 || bitsOf w top (64 - top) != 0) (bitsOf w 28 2 == 3) [bitsOf w 15 13]
  if form ≠ 0 then form
  else
    let h := d.handle t (bitsOf w 15 13)
    let x := (c.reach t).desc h
    firstReason [if vecType x.elem then 0 else 5,
      if (x.elem == 2 || x.scaleEn) && d.misaligned t h then 6 else 0, d.conflict t writes]

/-- VLD (R107): the chosen part along dimension 0 at SRC's cursor, element 0 of the part first. -/
def Dev.vldIssue (d : Dev) (t : Nat) : Dev :=
  d.issue t 2 1
    (fun d c w => d.vecMemReason t c w 30 [bitsOf w 10 5])
    (fun d c w =>
      let h := d.handle t (bitsOf w 15 13)
      let rc := c.reach t
      let x := rc.desc h
      let span := partSpan (bitsOf w 28 2)
      match Dev.readElems rc h true true d (laneCoords (d.cursor t h) span.2 0) with
      | (d, .error f) => d.failCmd c.id f.status f.handle f.vaddr
      | (d, .ok es) =>
        let r := bitsOf w 10 5
        let vals := es.map (fun e =>
          if noTerm x e then (({} : Elem), (0 : Byte))
          else
            let v := widen x.elem e.scale e.code
            (⟨v.1, e.out != 0⟩, v.2))
        let old := tget (d.tile t).vregs zeroReg r
        let d := (d.addFlags c.id (vals.foldl (fun f v => f ||| v.2) 0)).regDrop t r span.1 span.2
        d.modTile t (fun z => z.setVreg r (old.take span.1 ++ vals.map (·.1) ++ old.drop (span.1 + span.2))))
    (fun d c w => d.rowLists t c (partSpan (bitsOf w 28 2)).2 [d.handle t (bitsOf w 15 13)])

/-- VST (R107). -/
def Dev.vstIssue (d : Dev) (t : Nat) : Dev :=
  d.issue t 2 2
    (fun d c w => d.vecMemReason t c w 31 [])
    (fun d c w =>
      let h := d.handle t (bitsOf w 15 13)
      let span := partSpan (bitsOf w 28 2)
      let v := d.vregOf t (bitsOf w 10 5)
      let x := d.tile t
      (d.nextSeq c.id).store (c.writer x.rank c.nextSeq) (c.reach t) h true (if bitOf w 30 then some true else none)
        ((List.range span.2).map (fun i =>
          let e := v.getD (span.1 + i) {}
          ⟨coordsAt (x.cursor h) i 0, 5, e.val.toNat, none, e.poison⟩)))

end Sys2Proof.Machine
end

