-- ==== Sys2Proof/Machine/Moves.lean ====
section
/-! DEFINITION. MOVE and MSEND, their completion (04_thokel_programs.md R108, R109, R111), reads of host windows
(15 R427, R428), and atomics (06 R161, R165 to R169). -/

namespace Sys2Proof.Machine

/-! ## Outstanding operations -/

/-- The operation numbered `id` of tile t has completed: its tag counts one less (R111). -/
def Dev.dropOp (d : Dev) (t id : Nat) : Dev := d.modTile t (fun x => { x with outs := x.outs.filter (fun o => o.id != id) })

/-- An operation joins those outstanding on tile t. -/
def Dev.pushOp (d : Dev) (t tag : Nat) (k : OutKind) : Dev :=
  d.modTile t (fun x => { x with outs := x.outs ++ [⟨x.nextOp, tag, k⟩], nextOp := x.nextOp + 1 })

/-- The element offsets of a plan, dimension 0 fastest (R108). -/
def MovePlan.offsets (p : MovePlan) : List (Nat × Nat) :=
  (List.range (2 ^ p.logr)).flatMap (fun r => (List.range (2 ^ p.loge)).map (fun e => (e, r)))

/-- Source elements of a plan read, and the items they make at its destination. -/
def Dev.planItems (d : Dev) (rc : Reach) (p : MovePlan) (inTile : Bool) : Dev × Except Fail (List Item) :=
  let x := rc.desc p.src
  let scales := !isRaw (rc.desc p.dst).elem
  match Dev.readElems rc.toPort p.src inTile scales d (p.offsets.map (fun o => coordsAt p.cs o.1 o.2)) with
  | (d, .error f) => (d, .error f)
  | (d, .ok es) =>
    (d, .ok ((p.offsets.zip es).map (fun oe =>
      let e := oe.2
      if scales && noTerm x e then ⟨coordsAt p.cd oe.1.1 oe.1.2, x.elem, 0, none, false⟩
      else ⟨coordsAt p.cd oe.1.1 oe.1.2, x.elem, e.code, e.scale, e.out != 0⟩)))

/-- The items of a plan of tile t written at its destination, seen from tile `dt`; whether no access failed (R108, R109). -/
def Dev.deliver (d : Dev) (t dt : Nat) (c : Cmd) (p : MovePlan) (inTile : Bool) (its : List Item) : Dev × Bool :=
  let rc := (c.reach t).toPort
  let rc := { rc with eng := { rc.eng with tile := dt } }
  d.storeItems (c.writer (d.tile t).rank p.seq) rc p.dst inTile (if p.sat then some true else none) its

/-- A MOVE's plan carried out by tile t; whether no access failed. -/
def Dev.runPlan (d : Dev) (t : Nat) (c : Cmd) (p : MovePlan) : Dev × Bool :=
  match d.planItems (c.reach t) p false with
  | (d, .error f) => (d.failCmd c.id f.status f.handle f.vaddr, false)
  | (d, .ok its) => d.deliver t t c p false its

/-! ## Atomic requests -/

/-- Granules of tile t's slots that placed elements reach, ascending, each with whether all of it is written (R166). -/
def slotsWritten (t : Nat) (ps : List Placed) (bytes : Nat) : List (Nat × Bool) :=
  (List.range 64).filterMap (fun s =>
    let mine := ps.filter (fun p => granOf p.loc == locSlot t (64 * s))
    if mine.isEmpty then none
    else
      let ns := mine.flatMap (fun p => nibblesOf bytes p.loc p.nibble 0)
      some (s, (List.range 128).all (fun o => ns.any (fun n => n.1 == o))))

/-- Where a plan's elements are to be written, as far as its addresses are good. -/
def Dev.planPlaces (d : Dev) (t : Nat) (c : Cmd) (p : MovePlan) : List Placed :=
  (Dev.placeItems (c.reach t).toPort p.dst false d (p.offsets.map (fun o => ⟨coordsAt p.cd o.1 o.2, 8, 0, none, false⟩))).2.1

/-- Whether an earlier MOVE into ATOMIC_PORT has still to write its slots, which are written in issue order (R169). -/
def Tile.slotsBefore (x : Tile) (id : Nat) : Bool :=
  x.outs.any (fun o => o.id < id && (match o.kind with | .slots _ => true | _ => false))

/-- A MOVE into ATOMIC_PORT, operation `id`, writes its slots, and one request for each waits its turn, with the bytes that the
MOVE leaves in it (R165, R166, R169). -/
def Dev.writeSlots (d : Dev) (t id : Nat) (c : Cmd) (p : MovePlan) : Dev :=
  let ps := d.planPlaces t c p
  match d.runPlan t c p with
  | (d, false) => d.dropOp t id
  | (d, true) =>
    let reqs := (slotsWritten t ps (elemBytes ((c.reach t).desc p.dst).elem)).map (fun s =>
      ({ slot := s.1, whole := s.2, op := id, handle := p.dst, seq := p.seq
         data := d.slots.bytes (t * 4096 + 64 * s.1) 64 } : AtomReq))
    d.modTile t (fun x => { x with
      atoms := x.atoms ++ reqs
      outs := x.outs.map (fun o => if o.id = id then { o with kind := .atomics } else o) })

/-! ## MOVE and MSEND -/

/-- The plan of a MOVE or MSEND word, from the cursors at its issue. -/
def Dev.planOf (d : Dev) (t : Nat) (c : Cmd) (w : W64) (eBit rBit : Nat) (sat : Bool) : MovePlan :=
  let s := d.handle t (bitsOf w 10 13)
  let z := d.handle t (bitsOf w 23 13)
  ⟨s, z, d.cursor t s, d.cursor t z, bitsOf w eBit 4, bitsOf w rBit 3, sat, c.nextSeq⟩

/-- The source coordinates of a plan. -/
def MovePlan.sources (p : MovePlan) : List (List Int) := p.offsets.map (fun o => coordsAt p.cs o.1 o.2)

/-- MOVE issued: host granules of its source are asked for, and the copy is outstanding (R108, R111); one into ATOMIC_PORT whose
source and turn have come writes its slots (R165, R169). -/
def Dev.moveRun (d : Dev) (t : Nat) (c : Cmd) (w : W64) : Dev :=
  let p := d.planOf t c w 36 40 (bitOf w 43)
  let rc := c.reach t
  let tag := bitsOf w 6 4
  let id := (d.tile t).nextOp
  let host := d.hostGrans rc.toPort p.src (!isRaw (rc.desc p.dst).elem) p.sources
  let port := (d.planPlaces t c p).any (fun q => isSlot q.loc)
  let d := (d.nextSeq c.id).pushOp t tag (if port then .slots p else .move p)
  if port ∧ host.isEmpty ∧ !(d.tile t).slotsBefore id then d.writeSlots t id c p
  else host.foldl (fun d g => d.sendRead (some c.id)
      { func := c.func, addr := g.addr, len := 64, purpose := .op t id, vaddr := g.vaddr, handle := g.handle, sentAt := 0 }) d

/-- Whether a block-scaled view's cursor is not at a whole block (Table 4-14 ALIGN). -/
def Dev.blockMisaligned (d : Dev) (t : Nat) (c : Cmd) (v : Nat) : Bool :=
  ((c.reach t).desc (d.handle t v)).scaleEn && d.misaligned t (d.handle t v)

/-- The skip reason of a MOVE or MSEND: its form, then the alignment of block-scaled views. -/
def Dev.moveReason (d : Dev) (t : Nat) (c : Cmd) (w : W64) (reserved invalid : Bool) : Nat :=
  let ops := [bitsOf w 10 13, bitsOf w 23 13]
  let form := d.formReason t reserved invalid ops
  if form ≠ 0 then form else if ops.any (d.blockMisaligned t c) then 6 else 0

/-- The views a MOVE or MSEND reads. -/
def Cmd.moveLists (c : Cmd) (t : Nat) (p : MovePlan) : List (Nat × List (List Int)) :=
  if ((c.reach t).desc p.src).listEn then [(p.src, p.sources)] else []

/-- MOVE (R108). -/
def Dev.moveIssue (d : Dev) (t : Nat) : Dev :=
  d.issue t 2 3
    (fun d c w => d.moveReason t c w (bitsOf w 44 20 != 0) (12 < bitsOf w 36 4 || 6 < bitsOf w 40 3))
    (fun d c w => d.moveRun t c w)
    (fun d c w => c.moveLists t (d.planOf t c w 36 40 (bitOf w 43)))

/-- MSEND (R109). -/
def Dev.msendIssue (d : Dev) (t : Nat) : Dev :=
  d.issue t 2 4
    (fun d c w =>
      d.moveReason t c w (bitsOf w 52 12 != 0) (12 < bitsOf w 45 4 || 6 < bitsOf w 49 3 || 23 < bitsOf w 36 5))
    (fun d c w =>
      (d.nextSeq c.id).pushOp t (bitsOf w 6 4)
        (.msend (d.planOf t c w 45 49 false) (t / 24 * 24 + bitsOf w 36 5) (bitsOf w 41 4)))
    (fun d c w => c.moveLists t (d.planOf t c w 45 49 false))

/-- Whether reads of an operation are still outstanding. -/
def Dev.opReads (d : Dev) (t id : Nat) : Bool := d.hif.reads.any (fun r => r.purpose == .op t id)

/-- The last byte of an MSEND leaves its sender: what it sends is on its way, and its tag counts one less (R109, R111). -/
def Dev.depart (d : Dev) (t id : Nat) (c : Cmd) (p : MovePlan) (dt actr : Nat) : Dev :=
  match d.planItems (c.reach t) p true with
  | (d, .error f) => (d.failCmd c.id f.status f.handle f.vaddr).dropOp t id
  | (d, .ok its) => d.modTile t (fun x => { x with
      outs := x.outs.map (fun o => if o.id = id then { o with kind := .sent p dt actr its } else o) })

/-- MOVE_COMPLETE (R111): the i-th outstanding operation of tile t, a MOVE whose host reads have come back, performs its
writes and its tag counts one less; a MOVE into ATOMIC_PORT writes its slots in its turn; an MSEND's bytes leave. -/
def Dev.moveComplete (d : Dev) (t i : Nat) : Dev :=
  match (d.tile t).outs[i]?, d.tileCmd t with
  | some ⟨id, _, .move p⟩, some c => if d.opReads t id then d else (d.runPlan t c p).1.dropOp t id
  | some ⟨id, _, .slots p⟩, some c => if d.opReads t id ∨ (d.tile t).slotsBefore id then d else d.writeSlots t id c p
  | some ⟨id, _, .msend p dt actr⟩, some c => d.depart t id c p dt actr
  | _, _ => d

/-- What an MSEND sent is written in the destination tile's SRAM, whose arrival counter counts one more when the last byte has
arrived (R109). -/
def Dev.arrive (d : Dev) (t id : Nat) (c : Cmd) (p : MovePlan) (dt actr : Nat) (its : List Item) : Dev :=
  match d.deliver t dt c p true its with
  | (d, false) => d.dropOp t id
  | (d, true) => (d.modTile dt (fun x => { x with arrival := tset x.arrival actr (tget x.arrival 0 actr + 1) })).dropOp t id

/-- MSEND_ARRIVAL (R109, R111): the i-th outstanding operation of tile t, an MSEND, arrives; what has not left by then leaves
first. -/
def Dev.msendArrival (d : Dev) (t i : Nat) : Dev :=
  match (d.tile t).outs[i]?, d.tileCmd t with
  | some ⟨id, _, .sent p dt actr its⟩, some c => d.arrive t id c p dt actr its
  | some ⟨id, _, .msend p dt actr⟩, some c =>
    match d.planItems (c.reach t) p true with
    | (d, .error f) => (d.failCmd c.id f.status f.handle f.vaddr).dropOp t id
    | (d, .ok its) => d.arrive t id c p dt actr its
  | _, _ => d

/-! ## Atomics (Table 6-3) -/

/-- The larger of two targets as SIGNED selects. -/
def atomMax (sgn : Bool) (w a b : Nat) : Nat :=
  if sgn then (if signed w a < signed w b then b else a) else max a b

/-- The value an operation writes, or none (R167). -/
def atomValue (op w : Nat) (sgn : Bool) (old v cmp : Nat) : Option Nat :=
  if op = 1 then some ((old + v) % 2 ^ w)
  else if op = 2 then some (atomMax sgn w old v)
  else if op = 3 then (if old = cmp then some v else none)
  else some v

/-- Whether a request is INVALID (R166, Table 6-4). -/
def atomInvalid (r : Rec) : Bool :=
  let op := bitsOf r 0 4
  let wide := bitOf r 4
  let n := if wide then 8 else 4
  4 < op || bitsOf r 6 2 == 3 || bitsOf r 10 6 != 0 || bitsOf r 24 40 != 0 || bitsOf r 112 16 != 0
    || (if op = 0 then wide
        else bitsOf r 64 48 % n != 0 || (!wide && bitsOf r 160 32 != 0) || (op == 3 && !wide && bitsOf r 224 32 != 0))

/-- The device's half of a slot: OLD, STATUS and zeros. -/
def Dev.slotResult (d : Dev) (t slot old status : Nat) : Dev :=
  { d with slots := d.slots.putBytes (t * 4096 + 64 * slot + 32) (leBytes 8 old ++ leBytes 1 status ++ zeros 23) }

/-- A request has finished: its slot holds the outcome, and its MOVE completes with its last one (R169). -/
def Dev.atomDone (d : Dev) (t : Nat) (q : AtomReq) (old status : Nat) : Dev :=
  let d := (d.slotResult t q.slot old status).modTile t (fun x => { x with atoms := x.atoms.drop 1 })
  if (d.tile t).atoms.any (fun a => a.op == q.op) then d else d.dropOp t q.op

/-- What a release orders at DEVICE scope: the sector's write buffer is performed (R161). -/
def Dev.atomOrder (d : Dev) (t : Nat) (r : Rec) : Dev :=
  if bitOf r 9 ∧ bitsOf r 6 2 = 2 then d.drainAll (t / 24) else d

/-- Whether earlier moves of the tile, or earlier readouts whose write has still to be made, hold a release back (R161). -/
def Dev.atomWaits (d : Dev) (t : Nat) (q : AtomReq) (r : Rec) : Bool :=
  bitOf r 9 && ((d.tile t).outs.any (fun o => o.id < q.op)
    || (d.tile t).inflight.any (fun i =>
        match i with
        | .readout w _ _ _ seq => mrdToDst w && seq < q.seq
        | .products _ _ _ => false))

/-- ATOMIC_PERFORM (R166 to R169): the oldest request of tile t. -/
def Dev.atomicPerform (d : Dev) (t : Nat) : Dev :=
  match (d.tile t).atoms, d.tileCmd t with
  | q :: _, some c =>
    let r := recOf q.data
    if !q.whole then d.atomDone t q 0 2
    else if atomInvalid r then d.atomDone t q 0 3
    else if d.atomWaits t q r then d
    else if bitsOf r 0 4 = 0 then (d.atomOrder t r).atomDone t q 0 1
    else
      let va := bitsOf r 64 48
      let w := if bitOf r 4 then 64 else 32
      match d.xlate (c.reach t).toPort.eng (bitsOf r 16 8) va true with
      | (d, .error s) =>
        (d.failCmd c.id s q.handle va).modTile t (fun x => { x with
          atoms := x.atoms.filter (fun a => a.op != q.op), outs := x.outs.filter (fun o => o.id != q.op) })
      | (d, .ok l) =>
        if isHost l || isSlot l then d.atomDone t q 0 4
        else
          let (d, g) := (d.atomOrder t r).readHomeGran 1 (granOf l)
          if g.2 ≠ 0 then d.atomDone t q 0 5
          else
            let old := leNat ((g.1.drop (l % 64)).take (w / 8))
            match atomValue (bitsOf r 0 4) w (bitOf r 5) old (bitsOf r 128 w) (bitsOf r 192 w) with
            | none => d.atomDone t q old 1
            | some v =>
              (d.writeHome { addr := l, data := leBytes (w / 8) v, func := c.func }).atomDone t q old 1
  | _, _ => d

end Sys2Proof.Machine
end

