-- ==== Sys2Proof/Machine/Loops.lean ====
section
/-! DEFINITION. The loop slot: LOOP, CALL, RET, WAIT, BARRIER and its release, SPREAD, CSET and END (04_thokel_programs.md R94
to R97, R112 to R115). -/

namespace Sys2Proof.Machine

/-- A loop-slot instruction of tile t, never skipped (R112). -/
def Dev.control (d : Dev) (t op : Nat) (run : Dev → Cmd → W64 → Dev) : Dev :=
  d.issue t 3 op (fun _ _ _ => 0) run

/-- LOOP's count (R96). -/
def loopCount (rc : List Nat) (w : W64) : Nat :=
  if !bitOf w 6 then bitsOf w 7 24
  else
    let v : Int := (rc.getD (bitsOf w 7 3) 0 : Nat) + signed 12 (bitsOf w 14 12)
    (v / 2 ^ bitsOf w 10 4).toNat

/-- Tile t's control goes on: its bundle has ended, by `f`. -/
def Dev.jump (d : Dev) (t : Nat) (f : Tile → Tile) : Dev :=
  d.modTile t (fun x => f { x with issued := [], written := [], preV := [] })

/-- The coordinates that a record names, as they stand (R94). -/
def Tile.savedBy (x : Tile) (r : BitVec 256) : List (Nat × Nat × BitVec 32) :=
  (triples x.args r).map (fun e => (e.1, e.2.1, (x.cursor e.1).getD e.2.1 0))

/-- What LOOP does to its tile (R94): the body is entered, or left out when the count is 0. -/
def Tile.openLoop (x : Tile) (recs : Nat → BitVec 256) (n : Nat) (w : W64) : Tile :=
  let b := x.bundle
  let body := bitsOf w 31 11
  let rec_ := bitsOf w 42 6
  if n = 0 then x.endOf recs 8 (b + body)
  else
    let l : LoopLevel := ⟨b + 1, b + body, n, true, if rec_ = 0x3F then none else some rec_,
      if rec_ = 0x3F then [] else x.savedBy (recs rec_), x.frames.length, x.routine⟩
    { x with loops := l :: x.loops, bundle := b + 1 }

/-- The caller's and the callee's argument bindings (R115): entry k resolved in the caller's terms. -/
def bindArgs (args : List (BitVec 13)) (r : BitVec 256) : List (BitVec 13) :=
  (List.range 8).map (fun k =>
    match resolveArg args (bitsOf r (16 * k) 13) with
    | .ok h => BitVec.ofNat 13 h
    | .error _ => 0x1FFF)

/-- What CALL does to its tile. -/
def Tile.call (x : Tile) (recs : Nat → BitVec 256) (w : W64) : Tile :=
  let a := bitsOf w 14 6
  { x with
    frames := ⟨x.routine, x.bundle, x.args⟩ :: x.frames
    routine := bitsOf w 6 8
    bundle := 0
    args := if a = 0x3F then List.replicate 8 0x1FFF else bindArgs x.args (recs a) }

/-- Levels that the running routine opened are closed, innermost first (R115 step 1). -/
def Tile.closeLevels : Nat → Tile → Tile
  | 0, x => x
  | fuel + 1, x =>
    match x.loops with
    | [] => x
    | l :: ls => if l.depth = x.frames.length then Tile.closeLevels fuel ({ x with loops := ls }.restore l.saved) else x

/-- A tile finishes (R86). -/
def Tile.finish (x : Tile) : Tile := { x with ended := true, atBarrier := false }

/-- What RET does to its tile: `recs` of the caller, known once the routine has changed. -/
def Dev.doReturn (d : Dev) (t : Nat) : Dev :=
  match (d.tile t).frames with
  | [] => d.jump t Tile.finish
  | f :: fs =>
    let d := d.jump t (fun x =>
      let x := Tile.closeLevels 8 x
      { x with frames := fs, routine := f.routine, bundle := f.bundle, args := f.args })
    let recs := d.recordOf t
    d.modTile t (fun x => x.endOf recs 8 f.bundle)

/-- A loop-slot instruction that moves control by itself: its slot is fetched, and `f` ends the bundle. -/
def Dev.branch (d : Dev) (t op : Nat) (f : Dev → Cmd → W64 → Dev) : Dev :=
  match d.atSlot t 3 op with
  | (d, none) => d
  | (d, some (c, w)) => f d c w

/-- LOOP (R94 to R96). -/
def Dev.loopIssue (d : Dev) (t : Nat) : Dev :=
  d.branch t 1 (fun d c w =>
    let recs := d.recordOf t
    d.jump t (fun x => x.openLoop recs (loopCount c.rc w) w))

/-- CALL (R115). -/
def Dev.callIssue (d : Dev) (t : Nat) : Dev :=
  d.branch t 2 (fun d _ w =>
    let recs := d.recordOf t
    d.jump t (fun x => x.call recs w))

/-- RET (R115): with an empty call stack it acts as END. -/
def Dev.retIssue (d : Dev) (t : Nat) : Dev := d.branch t 3 (fun d _ _ => d.doReturn t)

/-- END (R86). -/
def Dev.endIssue (d : Dev) (t : Nat) : Dev := d.branch t 8 (fun d _ _ => d.jump t Tile.finish)

/-- WAIT (Table 4-8): held until its condition holds; then ACOUNT is taken from the arrival counter. -/
def Dev.waitIssue (d : Dev) (t : Nat) : Dev :=
  let d := Dev.clearWay wayFuel d t
  let w := slotWord (d.bundle t) 3
  if !(d.tile t).waitMet w then d
  else
    d.control t 4 (fun d _ w =>
      if bitOf w 26 then
        d.modTile t (fun x => { x with
          arrival := tset x.arrival (bitsOf w 22 4) (tget x.arrival 0 (bitsOf w 22 4) - BitVec.ofNat 24 (bitsOf w 27 24)) })
      else d)

/-- BARRIER (Table 4-8): tile t has reached it, and its bundle is held. -/
def Dev.barrierIssue (d : Dev) (t : Nat) : Dev := d.branch t 5 (fun d _ _ => d.modTile t (fun x => { x with atBarrier := true }))

/-- BARRIER_RELEASE (R113, R114): when every tile of the command that has not issued END waits at a BARRIER, all go on. -/
def Dev.barrierRelease (d : Dev) (c : Nat) : Dev :=
  let mine := d.tiles.filter (fun e => e.2.cmd == some c)
  if mine.isEmpty ∨ !mine.all (fun e => e.2.ended || e.2.atBarrier) ∨ !mine.any (fun e => e.2.atBarrier) then d
  else
    (mine.filter (fun e => e.2.atBarrier)).foldl (fun d e =>
      (d.modTile e.1 (fun x => { x with atBarrier := false })).slotDone e.1 3) d

/-- SPREAD (R97): rank × increment added once to each coordinate its record names. -/
def Dev.spreadIssue (d : Dev) (t : Nat) : Dev :=
  d.control t 6 (fun d _ w =>
    let r := d.recordOf t (bitsOf w 6 6)
    d.modTile t (fun x => x.increment (triples x.args r) x.rank))

/-- CSET (R97): one cursor to 0; no effect for an unbound argument. -/
def Dev.csetIssue (d : Dev) (t : Nat) : Dev :=
  d.control t 7 (fun d _ w =>
    match d.resolve t (bitsOf w 6 13) with
    | .ok h => d.modTile t (fun x => { x with cursors := tdel x.cursors h })
    | .error _ => d)

end Sys2Proof.Machine
end

