-- ==== Sys2Proof/Machine/Hens.lean ====
section
/-! DEFINITION. Hen operations (07_compute_stacks.md R187 to R199; 06 R171, R172): dispatch and its checks, placement, the
four operations, row steps, the exchange of row maxima and the finish. -/

namespace Sys2Proof.Machine

/-! ## The parameter block (Table 7-3) -/

def pbPair (b : Rec) : Nat := bitsOf b 8 2
def pbRmode (b : Rec) : Nat := bitsOf b 10 2
def pbAnchor (b : Rec) : BitVec 10 := BitVec.ofNat 10 (bitsOf b 12 10)
def pbAnchorS (b : Rec) : BitVec 10 := BitVec.ofNat 10 (bitsOf b 22 10)
def pbShift (b : Rec) : Int := signed 9 (bitsOf b 32 9)
def pbSat (b : Rec) : Option Bool := if bitOf b 41 then some true else none
def pbNpos (b : Rec) : Nat := bitsOf b 42 4
def pbP0 (b : Rec) : Nat := bitsOf b 48 13
def pbP1 (b : Rec) : Nat := bitsOf b 64 13
def pbScale (b : Rec) : W32 := BitVec.ofNat 32 (bitsOf b 96 32)

/-- Whether a reserved bit of the block is set. -/
def pbReserved (b : Rec) : Bool :=
  bitsOf b 4 4 != 0 || bitsOf b 46 2 != 0 || bitsOf b 61 3 != 0 || bitsOf b 77 19 != 0 || bitsOf b 128 384 != 0

/-- Whether a field holds a value Table 7-3 forbids for the operation. -/
def pbInvalid (op : Nat) (b : Rec) : Bool :=
  op == 0 || 4 < op || bitsOf b 0 4 != 1 || (if op = 1 then pbPair b == 3 else pbPair b != 0)
    || (op != 4 && pbRmode b != 0) || 8 < pbNpos b

/-- Whether the operation uses P1 (Table 7-4). -/
def usesP1 (op : Nat) (b : Rec) : Bool := op == 2 || op == 3 || (op == 4 && pbRmode b == 2)

def usesH2 (op : Nat) : Bool := op == 1 || op == 2

/-- HDISP fields (Table 4-7). -/
def hdOp (w : W64) : Nat := bitsOf w 10 8
def hdH0 (w : W64) : Nat := bitsOf w 18 13
def hdH1 (w : W64) : Nat := bitsOf w 31 13
def hdH2 (w : W64) : Nat := bitsOf w 44 13

/-- HENOP values that name an operation (Table 7-2). -/
def henOpKnown (op : Nat) : Bool := 1 ≤ op && op ≤ 4

/-- The skip reason of an HDISP word: a role its operation leaves unused may hold any valid handle operand (R189). A HENOP that
names no operation, with H0 unbound, is FIELD_INVALID; with a block to read, its reserved bits come first (R191). -/
def Dev.hdispReason (d : Dev) (t : Nat) (w : W64) : Nat :=
  let used := if usesH2 (hdOp w) then [hdH0 w, hdH1 w, hdH2 w] else if hdOp w = 3 ∨ hdOp w = 4 then [hdH0 w, hdH1 w] else []
  let reserved := [hdH0 w, hdH1 w, hdH2 w].any (fun v => match d.resolve t v with | .error 2 => v != 0x1FFF | _ => false)
  let h0 := match d.resolve t (hdH0 w) with | .ok _ => true | .error _ => false
  d.formReason t (bitsOf w 57 7 != 0 || reserved) (!henOpKnown (hdOp w) && !h0) used

/-! ## Dispatch checks (R191) -/

/-- Bytes of a view with its scales (R191, R198). -/
def Reach.footprint (rc : Reach) (h : Nat) : Nat :=
  let x := rc.desc h
  ceilDiv (rc.count h * elemBits x.elem) 8 + (if x.scaleEn then rc.count h / 32 else 0)

def prodTail (ns : List Nat) : Nat := (ns.drop 1).foldl (· * ·) 1

/-- Whether H1 and H2 alone break a limit or an extent of Table 7-4 (R191). -/
def Reach.henInputBad (rc : Reach) (op h1 h2 : Nat) : Bool :=
  let e1 := rc.extents (rc.desc h1)
  let e2 := rc.extents (rc.desc h2)
  let n1 := e1.headD 0
  (if op = 1 then e2 != [n1, e2.getD 1 0] || 32 < e2.getD 1 0
   else if op = 2 then e2 != [n1, e2.getD 1 0] || 128 < e2.getD 1 0 || n1 < 64 || 1024 < n1
   else false)
    || (usesH2 op && 768 * 1024 < rc.footprint h2)
    || (rc.desc h1).winCount != 0 || (usesH2 op && (rc.desc h2).winCount != 0)

/-- The element types of HSOFTMAX and HREDUCE operands. -/
def softType (t : Nat) : Bool := t == 5 || t == 4 || isFp8 t

/-- Handles of an operation: H1, H2, P0, P1. -/
structure HenHandles where
  h1 : Nat
  h2 : Nat
  p0 : Nat
  p1 : Nat
  deriving DecidableEq, Repr

/-- The extents of the operation, when those of its operands agree with Table 7-4 and its limits (R191). -/
def Reach.henDims (rc : Reach) (op nstk : Nat) (b : Rec) (h : HenHandles) : Option (List Nat) :=
  let e1 := rc.extents (rc.desc h.h1)
  let e2 := rc.extents (rc.desc h.h2)
  let e0 := rc.extents (rc.desc h.p0)
  let ep := rc.extents (rc.desc h.p1)
  let n1 := e1.headD 0
  let rows := prodTail e1
  if rc.henInputBad op h.h1 h.h2 then none
  else if op = 1 then
    let bb := e2.getD 1 0
    if e0 = [rows, bb] then some [n1, rows, bb] else none
  else if op = 2 then
    let hh := e2.getD 1 0
    let dv := e0.headD 0 - 1
    if 1 ≤ e0.headD 0 ∧ e0 = [dv + 1, hh, nstk] ∧ ep = [hh, nstk] ∧ dv ≤ n1 then some [n1, hh, dv, nstk, rows] else none
  else if op = 3 then
    if e0 = e1 ∧ ep = [2, rows] then some [n1, rows] else none
  else
    if rc.count h.p0 = rows ∧ (pbRmode b ≠ 2 ∨ rc.count h.p1 = rows) then some [n1, rows] else none

/-- Whether the element types lie within Table 7-4. -/
def Reach.henTypes (rc : Reach) (op : Nat) (b : Rec) (h : HenHandles) : Bool :=
  let x := rc.desc h.h1
  let y := rc.desc h.h2
  let z := rc.desc h.p0
  let q := rc.desc h.p1
  if op = 1 then
    (if pbPair b = 0 then isFp8 x.elem && isFp8 y.elem
     else if pbPair b = 1 then x.elem == 2 && x.scaleEn && isFp8 y.elem
     else x.elem == 4 && y.elem == 4) && (softType z.elem || z.elem == 12)
  else if op = 2 then
    isFp8 x.elem && isFp8 y.elem && !x.scaleEn && !y.scaleEn && z.elem == 12 && q.elem == 5
  else if op = 3 then softType x.elem && softType z.elem && q.elem == 5
  else softType x.elem && z.elem == 5 && (pbRmode b != 2 || q.elem == 10)

/-- Whether an output operand breaks a write condition: a list, a footprint that may collide, or R50 item 11. -/
def Desc.badOutput (x : Desc) : Bool :=
  x.listEn || !x.injective || x.winCount != 0 || (x.collide == 2 && x.elem != 5 && x.elem != 4 && x.elem != 7)

/-- Whether a parameter-block operand is a direct handle that the dispatching routine does not list, or no operand at all
(R191). -/
def Dev.badParam (d : Dev) (t v : Nat) : Bool :=
  match d.resolve t v with
  | .error 4 => false
  | .error _ => true
  | .ok h => v < 0x1000 && !(match d.tileRoutine t with | none => false | some r => r.handles.contains h)

/-- The first reason of R191 that holds where H0 is not U8, so that no parameter block can be read. -/
def Dev.henNoBlock (d : Dev) (t : Nat) (rc : Reach) (w : W64) : Nat :=
  if !henOpKnown (hdOp w) || rc.henInputBad (hdOp w) (d.handle t (hdH1 w)) (d.handle t (hdH2 w)) then 3 else 5

/-- The first reason of R191 that holds, and the handles and extents when none does; `b` is the parameter block, if H0 is U8. -/
def Dev.henCheck (d : Dev) (t : Nat) (rc : Reach) (w : W64) (block : Option Rec) (nstk : Nat) :
    Nat × HenHandles × List Nat :=
  match block with
  | none => (d.henNoBlock t rc w, ⟨0, 0, 0, 0⟩, [])
  | some b =>
  let op := hdOp w
  let h : HenHandles := ⟨d.handle t (hdH1 w), d.handle t (hdH2 w), d.handle t (pbP0 b), d.handle t (pbP1 b)⟩
  let params := pbP0 b :: (if usesP1 op b then [pbP1 b] else [])
  let ops := [h.h1, h.p0] ++ (if usesH2 op then [h.h2] else []) ++ (if usesP1 op b then [h.p1] else [])
  let outs := h.p0 :: (if usesP1 op b then [h.p1] else [])
  let dims := rc.henDims op nstk b h
  let unbound := params.any (fun v => match d.resolve t v with | .error 4 => true | _ => false)
  let field := pbInvalid op b || params.any (d.badParam t)
    || (!unbound && (dims.isNone || ops.any (fun q => (rc.desc q).winCount != 0) || outs.any (fun q => (rc.desc q).badOutput)))
  (firstReason [if pbReserved b then 2 else 0, if field then 3 else 0, if unbound then 4 else 0,
    if rc.henTypes op b h then 0 else 5], h, dims.getD [])

/-! ## Address generation (R190) -/

/-- The device hen of a physical address of stack memory. -/
def henOf (l : Nat) : Nat := 32 * stackOf l + pcOf l

/-- A row under generation: the hen found so far, and whether an element of it generated an address. -/
structure RowGen where
  hen : Option Nat
  data : Bool
  elems : List HenElem
  deriving DecidableEq, Repr

/-- An address that must lie in stack memory, in the row's hen, with the hen in service (R190, R352). -/
def Dev.rowAddr (d : Dev) (hen : Option Nat) (h va l : Nat) : Except Fail Nat :=
  if !isStk l then .error ⟨0x31, h, va⟩
  else if d.unitGone .hen (henOf l) then .error ⟨0x31, h, va⟩
  else
    match hen with
    | some u => if u = henOf l then .ok u else .error ⟨0x31, h, va⟩
    | none => .ok (henOf l)

/-- The scale address of source coordinates. -/
def Dev.scaleAddr (d : Dev) (rc : Reach) (x : Desc) (src : List Int) : Dev × Except Fail (Nat × Nat) :=
  let s := rc.desc x.scaleHandle
  let at_ := clampAll (s.size.take s.rank) ((List.range s.rank).map (fun i => if i = 0 then src.getD 0 0 / 32 else src.getD i 0))
  let va := (s.addrOf at_).1
  match d.locOf rc.noPort x.scaleHandle va false false with
  | (d, .error f) => (d, .error f)
  | (d, .ok l) => (d, .ok (l, va))

/-- One element of a row: its addresses generated and checked. -/
def Dev.rowElem (d : Dev) (rc : Reach) (h : Nat) (g : RowGen) (cs : List Int) : Dev × Except Fail RowGen :=
  let x := rc.desc h
  let withScale (d : Dev) (g : RowGen) (e : HenElem) (src : List Int) : Dev × Except Fail RowGen :=
    if !x.scaleEn then (d, .ok { g with elems := g.elems ++ [e] })
    else
      match d.scaleAddr rc x src with
      | (d, .error f) => (d, .error f)
      | (d, .ok (l, va)) =>
        match d.rowAddr g.hen x.scaleHandle va l with
        | .error f => (d, .error f)
        | .ok u => (d, .ok { g with hen := some u, elems := g.elems ++ [{ e with scale := some l }] })
  match d.place rc h cs false with
  | (d, .error f) => (d, .error f)
  | (d, .ok (.edge va)) => (d, .error ⟨0x32, h, va⟩)
  | (d, .ok .skip) => (d, .ok { g with elems := g.elems ++ [⟨none, false, none⟩] })
  | (d, .ok (.zero src)) => withScale d g ⟨none, false, none⟩ src
  | (d, .ok (.on src)) =>
    let va := x.addrOf src
    match d.locOf rc h va.1 false false with
    | (d, .error f) => (d, .error f)
    | (d, .ok l) =>
      match d.rowAddr g.hen h va.1 l with
      | .error f => (d, .error f)
      | .ok u => withScale d { g with hen := some u, data := true } ⟨some l, va.2.getD false, none⟩ src

def Dev.genElems (rc : Reach) (h : Nat) : Dev → RowGen → List (List Int) → Dev × Except Fail RowGen
  | d, g, [] => (d, .ok g)
  | d, g, c :: cs =>
    match d.rowElem rc h g c with
    | (d, .error f) => (d, .error f)
    | (d, .ok g) => Dev.genElems rc h d g cs

/-- Output addresses at coordinates, each in hen `hen` when it is given, and in stack `stk` when that is. -/
def Dev.outAddrs (rc : Reach) (h : Nat) (hen stk : Option Nat) : Dev → List (List Int) → Dev × Except Fail (List (Option Nat))
  | d, [] => (d, .ok [])
  | d, c :: cs =>
    match d.placeItem rc h false ⟨c, 8, 0, none, false⟩ with
    | (d, .error f) => (d, .error f)
    | (d, .ok p) =>
      let here : Except Fail (Option Nat) :=
        match p with
        | none => .ok none
        | some p =>
          if !isStk p.loc || (match hen with | some u => henOf p.loc != u | none => false)
              || (match stk with | some n => stackOf p.loc != n | none => false) then .error ⟨0x31, h, p.vaddr⟩
          else .ok (some p.loc)
      match here with
      | .error f => (d, .error f)
      | .ok a =>
        match Dev.outAddrs rc h hen stk d cs with
        | (d, .error f) => (d, .error f)
        | (d, .ok as) => (d, .ok (a :: as))

/-- Coordinates of element k of row r of a view. -/
def rowCoords (ext : List Nat) (k r : Nat) : List Int := (k : Int) :: coordsOf (ext.drop 1) r

/-- Coordinates of the r-th element of a view. -/
def nthCoords (ext : List Nat) (i : Nat) : List Int := coordsOf ext i

/-- Where the outputs of row r go: handles, and coordinates of the first and the second output operand. -/
def henOutputs (rc : Reach) (op : Nat) (b : Rec) (h : HenHandles) (dims : List Nat) (r : Nat) :
    List (List Int) × List (List Int) :=
  let e0 := rc.extents (rc.desc h.p0)
  let ep := rc.extents (rc.desc h.p1)
  if op = 1 then ((List.range (dims.getD 2 0)).map (fun q => nthCoords e0 (r + dims.getD 1 0 * q)), [])
  else if op = 3 then
    ((List.range (dims.getD 0 0)).map (fun k => rowCoords e0 k r), [nthCoords ep (2 * r), nthCoords ep (2 * r + 1)])
  else if op = 4 then ([nthCoords e0 r], if pbRmode b = 2 then [nthCoords ep r] else [])
  else ([], [])

/-- Rows r and on of the operation, with the addresses of their outputs (R190). -/
def Dev.henRows (rc : Reach) (op : Nat) (b : Rec) (h : HenHandles) (dims : List Nat) :
    Dev → List Nat → Dev × Except Fail (List HenRow)
  | d, [] => (d, .ok [])
  | d, r :: rs =>
    let ext := rc.extents (rc.desc h.h1)
    match Dev.genElems rc h.h1 d ⟨none, false, []⟩ ((List.range (dims.getD 0 0)).map (fun k => rowCoords ext k r)) with
    | (d, .error f) => (d, .error f)
    | (d, .ok g) =>
      let hen := if g.data then g.hen else none
      let oc := if g.data ∨ op = 1 then henOutputs rc op b h dims r else ([], [])
      match Dev.outAddrs rc h.p0 hen none d oc.1 with
      | (d, .error f) => (d, .error f)
      | (d, .ok o) =>
        match Dev.outAddrs rc h.p1 hen none d oc.2 with
        | (d, .error f) => (d, .error f)
        | (d, .ok a) =>
          match Dev.henRows rc op b h dims d rs with
          | (d, .error f) => (d, .error f)
          | (d, .ok rows) => (d, .ok (⟨r, hen, g.elems, o, a⟩ :: rows))

/-- Whether a location is in tile or sector SRAM. -/
def isLocal (l : Nat) : Bool := isTram l || isSram l

/-- The addresses of one element of the input, its scale's too, generated and checked: each lies in tile or sector SRAM (R190). -/
def Dev.inputElem (d : Dev) (rc : Reach) (h : Nat) (cs : List Int) : Dev × Option Fail :=
  let x := rc.desc h
  let withScale (d : Dev) (src : List Int) : Dev × Option Fail :=
    if !x.scaleEn then (d, none)
    else
      match d.scaleAddr rc x src with
      | (d, .error f) => (d, some f)
      | (d, .ok (l, va)) => (d, if isLocal l then none else some ⟨0x31, x.scaleHandle, va⟩)
  match d.place rc h cs false with
  | (d, .error f) => (d, some f)
  | (d, .ok (.edge va)) => (d, some ⟨0x32, h, va⟩)
  | (d, .ok .skip) => (d, none)
  | (d, .ok (.zero src)) => withScale d src
  | (d, .ok (.on src)) =>
    let va := (x.addrOf src).1
    match d.locOf rc h va false false with
    | (d, .error f) => (d, some f)
    | (d, .ok l) => if isLocal l then withScale d src else (d, some ⟨0x31, h, va⟩)

/-- The first failure among the addresses of input elements. -/
def Dev.checkInput (rc : Reach) (h : Nat) : Dev → List (List Int) → Dev × Option Fail
  | d, [] => (d, none)
  | d, c :: cs =>
    match d.inputElem rc h c with
    | (d, some f) => (d, some f)
    | (d, none) => Dev.checkInput rc h d cs

/-- The columns of H2 read, once the addresses of all have been checked. -/
def Dev.readColumns (rc : Reach) (h : Nat) : Dev → List (List (List Int)) → Dev × Except Fail (List (List ElemRead))
  | d, [] => (d, .ok [])
  | d, cs :: rest =>
    match Dev.readElems rc h false true d cs with
    | (d, .error f) => (d, .error f)
    | (d, .ok es) =>
      match Dev.readColumns rc h d rest with
      | (d, .error f) => (d, .error f)
      | (d, .ok r) => (d, .ok (es :: r))

/-- The input: the first `m` columns of H2, of `n` elements each (R190). -/
def Dev.henInput (d : Dev) (rc : Reach) (h n m : Nat) : Dev × Except Fail (List (List ElemRead)) :=
  let ext := rc.extents (rc.desc h)
  let cols := (List.range m).map (fun q => (List.range n).map (fun k => rowCoords ext k q))
  match Dev.checkInput rc h d cols.flatten with
  | (d, some f) => (d, .error f)
  | (d, none) => Dev.readColumns rc h d cols

/-- The addresses of O or M of an HATTN by partition stack index (R190). -/
def Dev.attnOuts (rc : Reach) (h per : Nat) (stks : List Nat) : Dev → List Nat → Dev × Except Fail (List (List (Option Nat)))
  | d, [] => (d, .ok [])
  | d, v :: vs =>
    let ext := rc.extents (rc.desc h)
    match Dev.outAddrs rc h none (some (stks.getD v 0)) d ((List.range per).map (fun i => nthCoords ext (i + per * v))) with
    | (d, .error f) => (d, .error f)
    | (d, .ok o) =>
      match Dev.attnOuts rc h per stks d vs with
      | (d, .error f) => (d, .error f)
      | (d, .ok os) => (d, .ok (o :: os))

/-! ## Row steps (R197) -/

/-- 1 KiB row segments that a hen reads or writes for its rows. -/
def henSegments (rows : List HenRow) : Nat :=
  ((rows.flatMap (fun r => (r.elems.filterMap (·.addr)) ++ (r.elems.filterMap (·.scale)) ++ r.outs.filterMap id
    ++ r.aux.filterMap id)).map (· / 1024)).eraseDups.length

/-- The compute bc of a hen (Table 7-5). -/
def henCompute (o : HenOp) (rows : List HenRow) : Nat :=
  let n := rows.length
  let k := o.dims.getD 0 0
  if o.kind = 1 then
    let bb := o.dims.getD 2 0
    let r := if pbPair o.block = 0 then 256 else if pbPair o.block = 1 then 512 else 64
    let auto := pbAnchor o.block = 0x200 ∧ (pbPair o.block = 1 ∨ (pbPair o.block = 0 ∧ (o.scaled.1 ∨ o.scaled.2)))
    n * (ceilDiv (k * bb) r + (if auto then bb * (2 + ceilDiv k 2048) else 0))
  else if o.kind = 2 then
    let h := o.dims.getD 1 0
    ceilDiv (h * n * (k + o.dims.getD 2 0 + 1)) 256 + ceilDiv (h * n) 16
  else if o.kind = 3 then 2 * ceilDiv (k * n) 16
  else ceilDiv (k * n) 64

/-- Row steps of hen u (R197); an HATTN takes the largest value over its hens. -/
def HenOp.stepsOf (o : HenOp) (u : Nat) : Nat :=
  let one (u : Nat) : Nat :=
    let rows := o.rows.filter (fun r => r.hen == some u)
    max (ceilDiv (henSegments rows * 1024 * (if o.kind = 2 ∨ o.kind = 3 then 2 else 1)) 24576) (ceilDiv (henCompute o rows) 96)
  if o.kind = 2 then (o.hens.map one).foldl max 0 else one u

/-! ## Dispatch -/

/-- The 64 bytes of the parameter block, when H0's elements are bytes in the tile's own SRAM (R189). -/
def Dev.henBlock (d : Dev) (t : Nat) (rc : Reach) (h : Nat) : Dev × Except Fail (Option Rec) :=
  if (rc.desc h).elem ≠ 8 then (d, .ok none)
  else
    match Dev.readElems rc h true false d ((List.range 64).map (fun i => coordsAt (d.cursor t h) i 0)) with
    | (d, .error f) => (d, .error f)
    | (d, .ok es) => (d, .ok (some (recOf (es.map (fun e => BitVec.ofNat 8 e.code)))))

/-- The rows an operation reads: the positions of an HATTN below its limit (R193), all rows otherwise. -/
def henRowList (c : Cmd) (op : Nat) (b : Rec) (dims : List Nat) : List Nat :=
  if op = 2 then
    let n := dims.getD 4 0
    List.range (if pbNpos b = 0 then n else min n (c.rc.getD (pbNpos b - 1) 0))
  else List.range (dims.getD 1 0)

/-- A dispatched operation, its addresses generated (R190): rows, input and output addresses. -/
def Dev.henGather (d : Dev) (t : Nat) (c : Cmd) (w : W64) (b : Rec) (h : HenHandles) (dims stks : List Nat) (outId : Nat) :
    Dev × Except Fail HenOp :=
  let rc := c.reach t
  let op := hdOp w
  match (if usesH2 op then d.henInput rc h.h2 (dims.getD 0 0) (dims.getD (if op = 1 then 2 else 1) 0) else (d, .ok [])) with
  | (d, .error f) => (d, .error f)
  | (d, .ok input) =>
    match Dev.henRows rc op b h dims d (henRowList c op b dims) with
    | (d, .error f) => (d, .error f)
    | (d, .ok rows) =>
      let attn := op = 2
      let per := (dims.getD 2 0 + 1) * dims.getD 1 0
      match (if attn then Dev.attnOuts rc h.p0 per stks d (List.range stks.length) else (d, .ok [])) with
      | (d, .error f) => (d, .error f)
      | (d, .ok oO) =>
        match (if attn then Dev.attnOuts rc h.p1 (dims.getD 1 0) stks d (List.range stks.length) else (d, .ok [])) with
        | (d, .error f) => (d, .error f)
        | (d, .ok oM) =>
          let holders := rows.flatMap (fun r => match r.hen with
            | some u => [u]
            | none => (r.outs.filterMap id).map henOf)
          let hens := if attn then stks.flatMap (fun n => (List.range 32).map (32 * n + ·)) else holders.eraseDups
          (d, .ok {
            id := d.nextHenOp, cmd := c.id, tile := t, outId := outId, kind := op, block := b, dims := dims
            types := [(rc.desc h.h1).elem, (rc.desc h.h2).elem, (rc.desc h.p0).elem]
            scaled := ((rc.desc h.h1).scaleEn, (rc.desc h.h2).scaleEn)
            rows := rows, input := input, outO := oO, outM := oM
            stks := if attn then stks else (hens.map (· / 32)).eraseDups
            hens := hens, started := false, exchanged := false, rowMax := [], scores := [], stepsLeft := [] })

/-- A rejected operation: logged and counted as a skip; its tag rises and falls, and its bundle goes on (R191). -/
def Dev.henReject (d : Dev) (t : Nat) (w : W64) (reason : Nat) : Dev := d.skip t 2 reason w

/-- HDISP performed by tile t: H0's block is read, the operation checked, its addresses generated, the sector's buffered
writes sent to the arrays (R171), and the operation joins those of the stack controllers. -/
def Dev.hdispRun (d : Dev) (t : Nat) (c : Cmd) (w : W64) : Dev :=
  let rc := c.reach t
  let stks := d.stacksOf c.part
  let fail (d : Dev) (f : Fail) : Dev := d.failCmd c.id f.status f.handle f.vaddr
  match d.henBlock t rc (d.handle t (hdH0 w)) with
  | (d, .error f) => fail d f
  | (d, .ok block) =>
    let (r, h, dims) := d.henCheck t rc w block stks.length
    let b := block.getD 0
    if r ≠ 0 then d.henReject t w r
    else
      let outId := (d.tile t).nextOp
      match d.henGather t c w b h dims stks outId with
      | (d, .error f) => fail d f
      | (d, .ok o) =>
        let d := d.drainAll (t / 24)
        let d := d.pushOp t (bitsOf w 6 4) (.hdisp o.id)
        let d := d.modCmd c.id (fun x => { x with engines := (x.engines ++ o.hens.map (fun u => (⟨.hen, u⟩ : UnitId))).eraseDups })
        { d with henOps := d.henOps ++ [o], nextHenOp := d.nextHenOp + 1 }

/-- The coordinates of a whole view. -/
def Reach.allCoords (rc : Reach) (h : Nat) : List (List Int) := (List.range (rc.count h)).map (coordsOf (rc.extents (rc.desc h)))

/-- The gather lists that an HDISP reads: H0's, and H1's and H2's of an operation that is not rejected. -/
def Dev.hdispLists (d : Dev) (t : Nat) (c : Cmd) (w : W64) : List (Nat × List (List Int)) :=
  let rc := c.reach t
  let h0 := d.handle t (hdH0 w)
  let listed (h : Nat) (cs : List (List Int)) : List (Nat × List (List Int)) := if (rc.desc h).listEn then [(h, cs)] else []
  listed h0 ((List.range 64).map (fun i => coordsAt (d.cursor t h0) i 0))
    ++ (match (d.henBlock t rc h0).2 with
        | .error _ => []
        | .ok block =>
          let (r, h, _) := d.henCheck t rc w block (d.stacksOf c.part).length
          if r ≠ 0 then []
          else listed h.h1 (rc.allCoords h.h1) ++ (if usesH2 (hdOp w) then listed h.h2 (rc.allCoords h.h2) else []))

/-- HDISP of the operations that `sel` selects. -/
def Dev.hdispIssue (d : Dev) (t : Nat) (sel : Nat → Bool) : Dev :=
  let d := Dev.clearWay wayFuel d t
  if !sel (hdOp (slotWord (d.bundle t) 2)) then d
  else d.issue t 2 5 (fun d _ w => d.hdispReason t w) (fun d c w => d.hdispRun t c w) (fun d c w => d.hdispLists t c w)

/-! ## Running -/

def Dev.henOp? (d : Dev) (id : Nat) : Option HenOp := d.henOps.find? (fun o => o.id == id)

def Dev.modHenOp (d : Dev) (id : Nat) (f : HenOp → HenOp) : Dev :=
  { d with henOps := d.henOps.map (fun o => if o.id = id then f o else o) }

/-- HEN_START (R198, R199): the operation's dispatch has been taken by its stack controllers; its hens start, each when it has
no earlier one to run. -/
def Dev.henStart (d : Dev) (id : Nat) : Dev :=
  match d.henOp? id with
  | none => d
  | some o =>
    if o.started ∨ d.inMesh o then d
    else d.modHenOp id (fun o => { o with started := true, stepsLeft := o.hens.foldl (fun s u => tset s u (o.stepsOf u)) [] })

/-- One element of a row read by its hen. -/
def Dev.henRead (d : Dev) (ty : Nat) (e : HenElem) : Dev × ElemRead :=
  let (d, c) :=
    match e.addr with
    | none => (d, (0, 0))
    | some a =>
      let (d, r) := d.readStk 0 a (elemBytes ty)
      let v := leNat r.1
      (d, (if ty = 2 then (if e.hi then v / 16 else v % 16) else v, r.2))
  match e.scale with
  | none => (d, ⟨c.1, none, c.2⟩)
  | some s =>
    let (d, r) := d.readStk 0 s 1
    (d, ⟨c.1, some (leNat r.1), max c.2 r.2⟩)

def Dev.henReadRow (d : Dev) (ty : Nat) (es : List HenElem) : Dev × List ElemRead :=
  es.foldl (fun (acc : Dev × List ElemRead) e =>
    let (d, r) := acc.1.henRead ty e
    (d, acc.2 ++ [r])) (d, [])

/-- The combined scales over the blocks of two rows of elements (R32). -/
def blockScales (o : PairOps) (as bs : List ElemRead) : List (Option Int) :=
  (List.range ((as.length + 31) / 32)).filterMap (fun q =>
    match as[32 * q]?, bs[32 * q]? with
    | some a, some b => if o.absent a b then none else some (combined a.scale b.scale)
    | _, _ => none)

/-- The lane that a dot product leaves (R35). -/
def dotLane (o : PairOps) (anchor : BitVec 10) (as bs : List ElemRead) : Lane :=
  let scaled := o.pair = 1 ∨ (o.pair = 0 ∧ (o.sa ∨ o.sb))
  let an : Int :=
    if o.pair = 2 then 0
    else if anchor ≠ 0x200 then anchor.toInt
    else if scaled then autoAnchor o.ta o.tb true (cMax (blockScales o as bs))
    else autoAnchor o.ta o.tb false 0
  ({} : Lane).land true (o.pair == 2) (o.products an as bs)

/-- An output element of a hen: its address, type, code and poison mark. -/
structure HenOut where
  addr : Option Nat
  ty : Nat
  code : Nat
  poison : Bool
  deriving DecidableEq, Repr

/-- Outputs written by the hens in their own pseudo-channels; COLLIDE is ignored (R191). -/
def Dev.henWrite (d : Dev) (o : HenOp) (outs : List HenOut) : Dev :=
  let ps := outs.filterMap (fun x =>
    match x.addr with
    | none => none
    | some a => some ((⟨a, none, 0, 0, [], ⟨[], x.ty, 0, none, false⟩⟩ : Placed), elemBytes x.ty, x.code, x.poison))
  (gather { addr := 0, data := [], cmd := some o.cmd } ps).foldl (fun d w =>
    (if w.poison then d.notePoison w.cmd else d).writeStk w.addr w.data w.poison) d

/-- One row of an HGEMM (R192). -/
def HenOp.gemmRow (o : HenOp) (r : HenRow) (ws : List ElemRead) : List HenOut × Byte :=
  let p : PairOps := ⟨pbPair o.block, o.types.getD 0 0, o.types.getD 1 0, o.scaled.1, o.scaled.2⟩
  let ty := o.types.getD 2 0
  let one (a : Option Nat) (xs : List ElemRead) : HenOut × Byte :=
    if r.hen.isNone then (⟨a, ty, 0, false⟩, 0)
    else
      let l := dotLane p (pbAnchor o.block) ws xs
      if ty = 12 then
        let v := l.read (p.pair == 2) 2 0
        (⟨a, ty, v.1, l.poison⟩, v.2.1)
      else
        let v := l.read (p.pair == 2) 0 (pbShift o.block)
        let n := narrow ty (pbSat o.block) (BitVec.ofNat 32 v.1)
        (⟨a, ty, n.1, l.poison⟩, v.2.1 ||| n.2)
  let rs := (r.outs.zip o.input).map (fun ax => one ax.1 ax.2)
  (rs.map (·.1), rs.foldl (fun f x => f ||| x.2) 0)

/-- Elements widened to FP32 (R194, R195), their flags, and whether any is poisoned. -/
def widenRow (ty : Nat) (scaled : Bool) (es : List ElemRead) : List W32 × Byte × Bool :=
  let vs := es.map (fun e => if scaled && e.scale.isNone then (0, 0) else widen ty e.scale e.code)
  (vs.map (·.1), vs.foldl (fun f v => f ||| v.2) 0, es.any (fun e => e.out != 0))

/-- A value threaded through a step with its flags. -/
def andFlags (a : W32 × Byte) (f : Byte) : W32 × Byte := (a.1, a.2 ||| f)

/-- One row of an HSOFTMAX (R194). -/
def HenOp.softRow (o : HenOp) (r : HenRow) (es : List ElemRead) : List HenOut × Byte :=
  let (xs, f0, poison) := widenRow (o.types.getD 0 0) o.scaled.1 es
  let ty := o.types.getD 2 0
  let m := (xs.drop 1).foldl fmax (if isNan32 (xs.headD 0) then qnan else xs.headD 0)
  let ps := xs.map (fun x =>
    let a := fsub x m
    let b := andFlags (fmul a.1 (pbScale o.block)) a.2
    andFlags (vexp2 b.1) b.2)
  let l := bf16Sum 0 (ps.map (·.1))
  let rl := vrcp l.1
  let ys := ps.map (fun p =>
    let y := fmul p.1 rl.1
    let n := narrow ty (pbSat o.block) y.1
    (n.1, y.2 ||| n.2))
  let flags := ys.foldl (fun f y => f ||| y.2) (ps.foldl (fun f p => f ||| p.2) (f0 ||| l.2 ||| rl.2))
  ((r.outs.zip ys).map (fun ay => ⟨ay.1, ty, ay.2.1, poison⟩)
    ++ [⟨r.aux.getD 0 none, 5, m.toNat, poison⟩, ⟨r.aux.getD 1 none, 5, l.1.toNat, poison⟩], flags)

/-- The index of the maximum: a NaN counts as larger than any number, the lower index wins (R195). -/
def argMax (xs : List W32) : Nat :=
  (List.range xs.length).foldl (fun best i => if indexGreater (xs.getD i 0) (xs.getD best 0) then i else best) 0

/-- E4M3 1.0 as an operand element. -/
def oneE4M3 : ElemRead := ⟨0x38, none, 0⟩

/-- One row of an HREDUCE (R195). -/
def HenOp.reduceRow (o : HenOp) (r : HenRow) (es : List ElemRead) : List HenOut × Byte :=
  let ty := o.types.getD 0 0
  let mode := pbRmode o.block
  let a := r.outs.getD 0 none
  if mode = 0 ∧ isFp8 ty then
    let l := dotLane ⟨0, ty, 0, o.scaled.1, false⟩ (pbAnchorS o.block) es (es.map (fun _ => oneE4M3))
    let v := l.read false 0 0
    ([⟨a, 5, v.1, l.poison⟩], v.2.1)
  else
    let (xs, f0, poison) := widenRow ty o.scaled.1 es
    if mode = 0 then
      let s := bf16Sum 0 xs
      ([⟨a, 5, s.1.toNat, poison⟩], f0 ||| s.2)
    else if mode = 3 then
      let qs := xs.map (fun x => fmul x x)
      let s := bf16Sum 0 (qs.map (·.1))
      ([⟨a, 5, s.1.toNat, poison⟩], qs.foldl (fun f q => f ||| q.2) (f0 ||| s.2))
    else if mode = 1 then
      let m := (xs.drop 1).foldl fmax (if isNan32 (xs.headD 0) then qnan else xs.headD 0)
      ([⟨a, 5, m.toNat, poison⟩], f0)
    else
      let i := argMax xs
      let v := xs.getD i 0
      ([⟨a, 5, (if isNan32 v then qnan else v).toNat, poison⟩, ⟨r.aux.getD 0 none, 10, i, poison⟩], f0)

/-! ## HATTN (R193) -/

/-- Positions of an HATTN with their hens: rows that generate an address. -/
def HenOp.positions (o : HenOp) : List HenRow := o.rows.filter (fun r => r.hen.isSome)

/-- One score of pass 1: t[j] of a head, its flags and its poison mark. -/
def HenOp.score (o : HenOp) (q cs : List ElemRead) : (W32 × Bool) × Byte :=
  let l := dotLane ⟨0, o.types.getD 1 0, o.types.getD 0 0, false, false⟩ (pbAnchorS o.block) q cs
  let s := l.read false 0 0
  let t := fmul (BitVec.ofNat 32 s.1) (pbScale o.block)
  ((t.1, l.poison), s.2.1 ||| t.2)

/-- p8[j] of a head, from its score and the shared maximum. -/
def attnP8 (t mx : W32) : Nat × Byte :=
  let a := fsub t mx
  let b := andFlags (vexp2 a.1) a.2
  let c := andFlags (fmul b.1 0x43800000) b.2
  let n := narrow 0 (some true) c.1
  (n.1, c.2 ||| n.2)

/-- The partial that a hen contributes: an exact sum of p8 × values at an anchor. -/
def attnPartial (tb : Nat) (anchor : BitVec 10) (ps : List Nat) (vs : List ElemRead) : BitVec 128 :=
  let l := dotLane ⟨0, 0, tb, false, false⟩ anchor (ps.map (fun p => ⟨p, none, 0⟩)) vs
  BitVec.ofNat 128 (l.read false 2 0).1

/-- The results of an HATTN in the base die of stack index v for head h: the Dv + 1 partials of O, and M. -/
def HenOp.attnHead (o : HenOp) (rows : List (HenRow × List ElemRead)) (v h : Nat) : List (BitVec 128) × Byte :=
  let dv := o.dims.getD 2 0
  let tb := o.types.getD 0 0
  let stk := o.stks.getD v 0
  let mx := o.rowMax.getD h (infOf true, false)
  let an : BitVec 10 := if pbAnchor o.block = 0x200 then BitVec.ofInt 10 (autoAnchor 0 tb false 0) else pbAnchor o.block
  let anL : BitVec 10 := BitVec.ofInt 10 (-18)
  let mark (x : BitVec 128) : BitVec 128 := if mx.2 then x ||| BitVec.ofNat 128 (2 ^ 127) else x
  if mx.1 = infOf true then
    ((List.range (dv + 1)).map (fun i => mark (partialOf 0 (if i = dv then -18 else an.toInt) {} false)), 0)
  else
    let js := ((List.range rows.length).filterMap (fun j =>
      match rows[j]? with
      | some r => if (r.1.hen.getD 0) / 32 = stk then some (r.1.hen.getD 0, (o.scores.getD j []).getD h (0, false), r.2) else none
      | none => none))
    let ps := js.map (fun x => (x.1, attnP8 x.2.1.1 mx.1, x.2.2))
    let hens := (ps.map (·.1)).eraseDups
    let parts (i : Nat) : List (BitVec 128) := hens.map (fun u =>
      let mine := ps.filter (fun x => x.1 == u)
      let codes := mine.map (fun x => x.2.1.1)
      if i = dv then attnPartial 0 anL codes (mine.map (fun _ => oneE4M3))
      else attnPartial tb an codes (mine.map (fun x => x.2.2.getD i ⟨0, none, 0⟩)))
    let flags := ps.foldl (fun f x => f ||| x.2.1.2) 0
    ((List.range (dv + 1)).map (fun i => mark (exactSum (if i = dv then -18 else an.toInt) (parts i)).1), flags)

/-- Pass 2 and the combine: every output of an HATTN and its flags. -/
def HenOp.attnOutputs (o : HenOp) (rows : List (HenRow × List ElemRead)) : List HenOut × Byte :=
  let dv := o.dims.getD 2 0
  let hh := o.dims.getD 1 0
  let all := (List.range o.stks.length).map (fun v => (List.range hh).map (fun h =>
    let r := o.attnHead rows v h
    let mx := o.rowMax.getD h (infOf true, false)
    let os := (List.range (dv + 1)).map (fun i =>
      (⟨(o.outO.getD v []).getD (i + (dv + 1) * h) none, 12, (r.1.getD i 0).toNat, mx.2 || partialPoison (r.1.getD i 0)⟩ : HenOut))
    (os ++ [⟨(o.outM.getD v []).getD h none, 5, mx.1.toNat, mx.2⟩], r.2)))
  (all.flatMap (fun v => v.flatMap (·.1)), all.foldl (fun f v => v.foldl (fun f h => f ||| h.2) f) 0)

/-! ## Row steps and the finish -/

/-- The outputs and flags of one row whose elements have been read. -/
def HenOp.rowResult (o : HenOp) (r : HenRow) (es : List ElemRead) : List HenOut × Byte :=
  if o.kind = 1 then o.gemmRow r es
  else if o.kind = 2 ∨ r.hen.isNone then ([], 0)
  else if o.kind = 3 then o.softRow r es
  else o.reduceRow r es

/-- The rows that hen u writes results of: those it processes, and those left out whose outputs it holds (R190). -/
def HenOp.rowsOf (o : HenOp) (u : Nat) : List HenRow :=
  o.rows.filter (fun r => match r.hen with
    | some v => v == u
    | none => r.outs.any (fun a => a.map henOf == some u))

/-- Hen u streams row r and writes its results (R188, R192, R194, R195). -/
def Dev.henRow (d : Dev) (o : HenOp) (u : Nat) (r : HenRow) : Dev :=
  let (d, es) := d.henReadRow (o.types.getD 0 0) r.elems
  let res := o.rowResult r es
  (d.henWrite o (res.1.filter (fun x => x.addr.map henOf == some u))).addFlags o.cmd res.2

/-- Hen u writes the results of its next n rows of operation o. -/
def Dev.henRowsDone (d : Dev) (o : HenOp) (u n : Nat) : Dev :=
  if o.kind = 2 then d
  else
    let k := tget o.rowsDone 0 u
    let d := (((o.rowsOf u).drop k).take n).foldl (fun d r => d.henRow o u r) d
    d.modHenOp o.id (fun o => { o with rowsDone := tset o.rowsDone u (k + n) })

/-- HEN_ROW_STEP (R188): hen u completes a row step of the operation it runs, with the results it writes within it: which rows
they are is left open, but after its last step all are written (log entry 76). While its stack reads TEMP_CRIT an idle row step,
which does nothing, follows each (R389). -/
def Dev.henRowStep (d : Dev) (u : Nat) : Dev :=
  match d.nextOn u with
  | none => d
  | some o =>
    let left := tget o.stepsLeft 0 u
    if o.idle.contains u then d.modHenOp o.id (fun o => { o with idle := o.idle.filter (· != u) })
    else if !o.started ∨ left = 0 then d
    else
      let rest := (o.rowsOf u).length - tget o.rowsDone 0 u
      let n := if left = 1 then rest else Config.freeWord d.free % (rest + 1)
      let d := { d with free := d.free + 1 }.modHenOp o.id (fun o => { o with
        stepsLeft := tset o.stepsLeft u (left - 1)
        idle := if d.tempCrit (u / 32) then u :: o.idle else o.idle })
      d.henRowsDone o u n

/-- HATTN_EXCHANGE (R193): pass 1 has ended in every hen, each of which has this operation to run; the scores stand, and every hen
receives the row maxima. -/
def Dev.hattnExchange (d : Dev) (id : Nat) : Dev :=
  match d.henOp? id with
  | none => d
  | some o =>
    if !o.started ∨ o.exchanged ∨ o.kind ≠ 2 ∨ o.hens.any (fun u => (d.nextOn u).map (·.id) != some id) then d
    else
      let (d, rows) := o.positions.foldl (fun (acc : Dev × List (List ElemRead)) r =>
        let (d, es) := acc.1.henReadRow (o.types.getD 0 0) r.elems
        (d, acc.2 ++ [es])) (d, [])
      let sc := rows.map (fun cs => o.input.map (fun q => o.score q cs))
      let flags := sc.foldl (fun f r => r.foldl (fun f x => f ||| x.2) f) 0
      let scores := sc.map (fun r => r.map (·.1))
      let mx := (List.range (o.dims.getD 1 0)).map (fun h =>
        scores.foldl (fun (m : W32 × Bool) r =>
          let t := r.getD h (0, false)
          (fmax m.1 t.1, m.2 || t.2)) (infOf true, false))
      (d.modHenOp id (fun o => { o with exchanged := true, scores := scores, rowMax := mx })).addFlags o.cmd flags

/-- What an HATTN writes at its finish: pass 2 over its positions, and the combine (R193). -/
def Dev.attnFinish (d : Dev) (o : HenOp) : Dev :=
  let (d, rows) := o.positions.foldl (fun (acc : Dev × List (HenRow × List ElemRead)) r =>
    let (d, es) := acc.1.henReadRow (o.types.getD 0 0) r.elems
    (d, acc.2 ++ [(r, es)])) (d, [])
  let res := o.attnOutputs rows
  (d.henWrite o res.1).addFlags o.cmd res.2

/-- HEN_OP_FINISH (R197, R198, R172): every hen has run its row steps; the results stand in memory, the flags in the command,
and the HDISP completes. -/
def Dev.henOpFinish (d : Dev) (id : Nat) : Dev :=
  match d.henOp? id with
  | none => d
  | some o =>
    if !o.started ∨ !o.hens.all o.doneBy then d
    else
      let d := if o.kind = 2 then d.attnFinish o else o.hens.foldl (fun d u => d.henRowsDone o u o.rows.length) d
      let d := o.stks.foldl (fun d n => d.rollF (rCsHenOps n) fCsHenOps_Ops 1) d
      { d.dropOp o.tile o.outId with henOps := (d.dropOp o.tile o.outId).henOps.filter (fun p => p.id != id) }

end Sys2Proof.Machine
end

