-- ==== Sys2Proof/Machine/Crc.lean ====
section
/-! DEFINITION. CRC-32C, the check word of images, configuration copies and records (R118, R294, R399, R403, R405). The
polynomial is 0x1EDC6F41, reflected, with initial value and final complement of all ones (PRESUMED: the CRC-32C of RFC
3720, log entry 15). -/

namespace Sys2Proof.Machine

/-- One bit of the reflected division. -/
def crcBit (c : Nat) : Nat := if c % 2 = 1 then (c / 2) ^^^ 0x82F63B78 else c / 2

/-- Eight bits of the reflected division. -/
def crcByte (c : Nat) (b : Byte) : Nat :=
  (List.range 8).foldl (fun c _ => crcBit c) (c ^^^ b.toNat)

/-- CRC-32C of a byte string. -/
def crc32c (bs : List Byte) : Nat := (bs.foldl crcByte 0xFFFF_FFFF) ^^^ 0xFFFF_FFFF

end Sys2Proof.Machine
end

