-- ==== Sys2Proof/Machine/GanderCore.lean ====
section
/-! DEFINITION. The gander's own storage (14_gander_security_update.md): configuration copies (R403, R404), retirement
records (12 R351), the event log in flash (R405), firmware-image checks (R400), and boot (R399, R401, R402). -/

namespace Sys2Proof.Machine

def Dev.onGan (d : Dev) (f : Gander → Gander) : Dev := { d with gan := f d.gan }

/-! ## The configuration block -/

/-- Factory defaults (R403). -/
def factoryBlock : CfgBlock := {}

/-- The block in force. -/
def Gander.cfg (g : Gander) : CfgBlock := g.block.getD factoryBlock

/-- The copy boot selects: the valid one with the higher SEQ; 0 copy A, 1 copy B, 2 factory defaults (R403). -/
def selectCopy (a b : CfgCopy) : Nat × Option CfgBlock :=
  match a, b with
  | .block x, .block y => if x.seq < y.seq then (1, some y) else (0, some x)
  | .block x, _ => (0, some x)
  | _, .block y => (1, some y)
  | _, _ => (2, none)

/-- The numbers of a retirement record. -/
def RetRec.fields (r : RetRec) : List Nat := [r.kind, r.addr, r.unit, r.time]

/-- The high-water mark of a key raised (R409). -/
def CfgBlock.raiseMark (b : CfgBlock) (key ver : Nat) : CfgBlock :=
  { b with marks := if b.marks.any (fun m => m.1 == key) then b.marks.map (fun m => if m.1 = key then (key, ver) else m)
                    else b.marks ++ [(key, ver)] }

/-- The block with a change made. -/
def CfgBlock.apply (b : CfgBlock) : CfgChange → CfgBlock
  | .enrol i k => { b with keys := tset b.keys i k }
  | .revoke i => { b with keys := b.keys.map (fun e => if e.1 = i then (e.1, { e.2 with valid := false }) else e) }
  | .mark key ver => b.raiseMark key ver
  | .retire r => { b with retired := b.retired ++ [r] }

/-- A change waits for its configuration write (R404). -/
def Dev.cfgAsk (d : Dev) (x : CfgChange) (why : CfgCause) : Dev :=
  d.onGan (fun g => { g with cfgPend := g.cfgPend ++ [(x, why)] })

/-- Whether a change appends to the retirement list. -/
def CfgChange.retires : CfgChange → Bool
  | .retire _ => true
  | _ => false

/-- Records of the retirement list, those that wait for their write included. -/
def Gander.retireCount (g : Gander) : Nat := g.cfg.retired.length + (g.cfgPend.filter (fun x => x.1.retires)).length

/-- A complete new copy is in force (R404): it stands in the slot that was not in use, with SEQ one higher; the older copy
is erased; CFG_DEFAULT clears. -/
def Dev.writeCopy (d : Dev) (b : CfgBlock) : Dev :=
  let b := { b with seq := (b.seq + 1) % 2 ^ 32 }
  let inA := d.getF rMgmtStatus fMgmtStatus_CfgSrc = 0
  let d :=
    if inA then (d.onGan (fun g => { g with copyB := .block b, copyA := .badVersion, block := some b })).putF
        rMgmtStatus fMgmtStatus_CfgSrc 1
    else (d.onGan (fun g => { g with copyA := .block b, copyB := .badVersion, block := some b })).putF
        rMgmtStatus fMgmtStatus_CfgSrc 0
  (d.putF rDevStatus fDevStatus_CfgDefault 0).setReg rRasRetire
    (BitVec.ofNat 64 (b.retired.length + atBit 16 (512 - b.retired.length)))

/-- The mailbox command ends with a status and a response (R406). -/
def Dev.finishMbx (d : Dev) (status : Nat) (resp : List Byte) : Dev :=
  let d := d.onGan (fun g => { g with respBuf := resp.take 1024 })
  let d := d.setReg rMgmtMbxStatus (BitVec.ofNat 64 (status + atBit 16 (min resp.length 1024)))
  (d.putF rMgmtMbxCtrl fMgmtMbxCtrl_Busy 0).raise pgMgmt 1

/-- The event-log record of a written change: KEY (R408) or RETIRE (R351). -/
def Dev.logChange (d : Dev) (x : CfgChange) : Dev :=
  match x with
  | .enrol _ k => d.log 0x31 [0x10, k.keyid]
  | .revoke i =>
    match tfind d.gan.cfg.keys i with
    | some k => d.log 0x31 [0x11, k.keyid]
    | none => d
  | .mark _ _ => d
  | .retire r => d.log 0x13 r.fields

/-- What waited for a configuration write goes on (R404, R407). -/
def Dev.cfgWritten (d : Dev) (why : CfgCause) : Dev :=
  match why with
  | .mailbox => d.finishMbx 0 []
  | .cmd c => d.modCmd c (fun x => if x.phase = .waiting then { x with phase := .finished } else x)
  | .nobody => d

/-- Whether flash that was just programmed reads back as it was written: not said by the spec, so drawn (log entry 30). -/
def Dev.flashGood (d : Dev) : Dev × Bool := ({ d with free := d.free + 1 }, Config.freeWord d.free % 2 == 0)

/-- CONFIGURATION_WRITE (R404): the first change that waits is programmed and read back, and what waited for it goes on. A
copy that does not verify leaves the block in force as it is: a mailbox command ends with FLASH_FAIL, any other change
waits for another write. -/
def Dev.configurationWrite (d : Dev) : Dev :=
  match d.gan.cfgPend with
  | [] => d
  | (x, why) :: rest =>
    if !d.gan.up then d
    else
      let (d, good) := d.flashGood
      let d' := d.onGan (fun g => { g with cfgPend := rest })
      if good then ((d'.writeCopy (d.gan.cfg.apply x)).logChange x).cfgWritten why
      else if why = .mailbox then d'.finishMbx 7 []
      else d

/-! ## The event log -/

/-- Records of flash that entering a new 64 KiB sector costs: 1,024 go when the ring of 262,144 is full (R405). -/
def eraseOldest (rs : List LogRec) : List LogRec :=
  if rs.length > 262144 - 1024 then rs.drop 1024 else rs

/-- Buffered records are programmed, oldest first; when the write point enters a new sector the next sector is erased
(R405). -/
def flushLog : List LogRec → List LogRec → List LogRec
  | flash, [] => flash
  | flash, r :: rs =>
    let flash := flash ++ [r]
    flushLog (if r.seq % 1024 = 1 then eraseOldest flash else flash) rs

/-- LOG_FLUSH (R405). -/
def Dev.logFlush (d : Dev) : Dev :=
  if !d.gan.up then d
  else d.onGan (fun g => { g with logFlash := flushLog g.logFlash g.logBuf, logBuf := [] })

/-- A record written through to flash at once (R390, R391, R402, R418). -/
def Dev.logNow (d : Dev) (typ : Nat) (payload : List Nat) : Dev := (d.log typ payload).logFlush

/-! ## The firmware image (R400) -/

/-- A field of a byte string's bits, numbered as Table 14-4 numbers them. -/
def byteBits (bs : List Byte) (lo len : Nat) : Nat :=
  leNat ((bs.drop (lo / 8)).take (len / 8 + 2)) / 2 ^ (lo % 8) % 2 ^ len

def byteSlice (bs : List Byte) (lo n : Nat) : List Byte := (bs.drop lo).take n

/-- The first check of R400 that an image fails, 1 to 6, or 0 when it is accepted. -/
def imageCheck (g : Gander) (img : List Byte) : Nat :=
  let n := byteBits img 96 32
  let s := tget g.slots {} (byteBits img 8 2)
  let hdr := img.take 256
  let pub := byteSlice img 256 97
  let lms := byteSlice img 353 48
  if img.length < 4096 ∨ byteBits img 0 4 ≠ 1 ∨ n < 8192 ∨ 40 * 2 ^ 20 < n ∨ img.length < n then 1
  else if !s.provisioned ∨ s.revoked then 2
  else if Config.sha384 pub ≠ s.ecdsaHash ∨ Config.sha384 lms ≠ s.lmsHash then 3
  else if !Config.ecdsaVerifies pub hdr (byteSlice img 402 96) ∨ !Config.lmsVerifies lms hdr (byteSlice img 498 1620) then 4
  else if byteBits img 64 8 < g.svn then 5
  else if Config.sha384 (byteSlice img 4096 (n - 4096)) ≠ BitVec.ofNat 384 (leNat (byteSlice img 16 48)) then 6
  else 0

/-- Stage DERIVE: SVN fuses up to the image's SVN, and the revocation fuses it names except its own slot (R401). -/
def burnFuses (g : Gander) (img : List Byte) : Gander :=
  let svn := max g.svn (min (byteBits img 64 8) 64)
  let own := byteBits img 8 2
  { g with
    svn := svn
    slots := (List.range 4).foldl (fun t i =>
      if byteBits img (16 + i) 1 = 1 ∧ i ≠ own then tset t i { tget t {} i with revoked := true } else t) g.slots }

/-- REVOKED of MGMT_SVN: bit i for key slot i. -/
def revokedMask (g : Gander) : Nat :=
  (List.range 4).foldl (fun m i => m + (if (tget g.slots {} i).revoked then 2 ^ i else 0)) 0

/-- Why a configuration copy is not used, for the CFG_DEFAULT record. -/
def copyReason : CfgCopy → Nat
  | .badCheck => 1 | .badVersion => 2 | .badLength => 3 | .block _ => 0

/-- The cause of the newest THERMAL_TRIP record in the log (R405). -/
def lastTrip (rs : List LogRec) : Nat :=
  match (rs.reverse.find? (fun r => r.typ == 0x20)) with
  | some r => r.payload.headD 0
  | none => 0

end Sys2Proof.Machine
end

