-- ==== Sys2Proof/Machine/Partitions.lean ====
section
/-! DEFINITION. Partitions, contexts and time slices, unit service, partition reset and function-level reset
(11_partitions_and_virtual_functions.md; 12_faults_and_recovery.md R347 to R361; 05 R150; 06 R179 to R183). -/

namespace Sys2Proof.Machine

def Dev.part (d : Dev) (p : Nat) : Part := tget d.parts {} p

def Dev.modPart (d : Dev) (p : Nat) (f : Part → Part) : Dev := { d with parts := tmod d.parts {} p f }

/-! ## The epoch a partition runs under (R294, R302) -/

/-- JOBS byte p of the current epoch, 0 with no epoch (Table 10-5). -/
def Dev.jobsByte (d : Dev) (p : Nat) : Nat :=
  match d.fab.active with
  | none => 0
  | some img => bitsOf img.hdr (240 + 8 * p) 8

def Dev.hasEpoch (d : Dev) : Bool := d.getF rFabStatus fFabStatus_EpochState != 0

/-- Whether partition p has fold jobs in the current epoch. -/
def Dev.foldPart (d : Dev) (p : Nat) : Bool := d.hasEpoch && d.jobsByte p / 128 == 1

/-- The header of the epoch in force (Table 10-5), zero without one. -/
def Dev.hdr (d : Dev) : BitVec 4096 :=
  match d.fab.active with
  | some img => if d.hasEpoch then img.hdr else 0
  | none => 0

def hdrPeriod (h : BitVec 4096) : Nat := bitsOf h 128 10

/-- Beats of a period of the epoch in force. -/
def Dev.period (d : Dev) : Nat := max 1 (hdrPeriod d.hdr)

/-- The first beat of the next period after the current beat has begun (R302). -/
def Dev.nextPeriod (d : Dev) : Nat := (d.fab.beatNo / d.period + 1) * d.period

/-- Whether job j is stopped in the current epoch (R303, R306, R310). -/
def Dev.stoppedJob (d : Dev) (j : Nat) : Bool :=
  d.getF rFabStatus fFabStatus_EpochState == 2 || bitOf (d.reg rFabStopJobs) j

/-- The fold job of a partition. -/
def Dev.jobOf (d : Dev) (p : Nat) : Nat := d.jobsByte p % 64

/-! ## Quiet partitions and the layout (R315, R316) -/

/-- QUIET of partition p (R315). -/
def Dev.quiet (d : Dev) (p : Nat) : Bool :=
  !(List.range 128).any (fun q => d.queueEn q && d.queuePart q == p)
    && d.getF (rSrvAdmCtrl p) fSrvAdmCtrl_En == 0 && d.liveCount p == 0
    && !(List.range 16).any (fun s => d.getF (rSrvSlotCfg s) fSrvSlotCfg_Part == p)
    && !(List.range 24).any (fun v => d.vfPart (v + 1) == p)
    && !(List.range 16).any (fun c => d.ctxEn p c)
    && !d.foldPart p
    && !d.inReset p

/-- The sectors that a layout word gives partition p. -/
def layoutSectors (w p : Nat) : List Nat := (List.range 6).filter (fun k => w / 8 ^ k % 8 == p)

/-- Whether a layout word obeys R314: every partition that appears owns 1, 2, 3 or 6 sectors, and no field is 6. -/
def layoutOk (w : Nat) : Bool :=
  (List.range 6).all (fun k => w / 8 ^ k % 8 != 6)
    && (List.range 6).all (fun p => [0, 1, 2, 3, 6].contains (layoutSectors w p).length)

/-- A write of SECT_PART_LAYOUT (R315, R316; Table 12-4 SECTOR and R352 for sectors that do not serve). -/
def Dev.writeLayout (d : Dev) (w : Nat) : Dev :=
  let old := (d.reg rSectPartLayout).toNat
  let bad := !layoutOk w
    || (List.range 6).any (fun p => layoutSectors w p != layoutSectors old p && !d.quiet p)
    || (List.range 6).any (fun k => w / 8 ^ k % 8 != 7 && w / 8 ^ k % 8 != old / 8 ^ k % 8 && d.unitGone .sector k)
  if bad then d.blkErr (pgPart 0)
  else
    let changed := (List.range 6).filter (fun k => w / 8 ^ k % 8 != old / 8 ^ k % 8)
    let d := d.setReg rSectPartLayout (BitVec.ofNat 64 (w % 2 ^ 18))
    { d.putF rSectPartBusy fSectPartBusy_LayoutBusy 1 with layoutOn := d.layoutOn ++ changed }

/-- Tile SRAM and sector SRAM of sector k hold zero. -/
def Dev.zeroSram (d : Dev) (k : Nat) : Dev :=
  { d with
    upsets := d.upsets.filter (fun u => !((u.arr == .tileSram && u.unit / 24 == k) || (u.arr == .sectSram && u.unit == k)))
    tram := d.tram.clear (24 * k * 2 ^ 21) (24 * (k + 1) * 2 ^ 21)
    sram := d.sram.clear (k * 2 ^ 24) ((k + 1) * 2 ^ 24)
    slots := d.slots.clear (24 * k * 4096) (24 * (k + 1) * 4096) }

/-- The routine store of sector k is empty (R119). -/
def Dev.dropLib (d : Dev) (k : Nat) : Dev :=
  (((d.dropUnit .routineStore k).modSect k (fun s => { s with lib := none })).setReg (rSectLibStatus k) 0).setReg (rSectLibVer k) 0

/-- LAYOUT_DONE: the changed sectors end as R316 states, and LAYOUT sets. -/
def Dev.layoutDone (d : Dev) : Dev :=
  if d.getF rSectPartBusy fSectPartBusy_LayoutBusy = 0 then d
  else
    let d := d.layoutOn.foldl (fun d k =>
      (((d.zeroSram k).dropLib k).resetRegs (rSectDtabBase k 0) (rSectDtabBase k 0 + 0x400)).resetRegs
        (pgPart k + 0x200) (pgPart k + 0x500)) d
    ({ d with layoutOn := [] }.putF rSectPartBusy fSectPartBusy_LayoutBusy 0).raise (pgPart 0) 0x100

/-! ## Contexts and bindings (R318, R323) -/

/-- A write of SECT_CTX_CFG of context c of sector k's live page, value `v` (R318). -/
def Dev.writeCtxCfg (d : Dev) (k c : Nat) (v : W64) : Dev :=
  let p := d.sectPart k
  let a := rSectCtxCfg k c
  let f := fld v fSectCtxCfg_Func
  let en := d.getF a fSectCtxCfg_En = 1
  if (f ≠ 0 ∧ (24 < f ∨ d.vfPart f ≠ p)) ∨ (en ∧ f ≠ d.getF a fSectCtxCfg_Func) then d.blkErr (pgPart k)
  else Dev.signal d (d.setReg a (v &&& 0xFFF))

/-- A write of SECT_CTX_ROOT (R318). -/
def Dev.writeCtxRoot (d : Dev) (k c : Nat) (v : W64) : Dev :=
  let a := rSectCtxRoot k c
  let v := v &&& 0xFFFF_FFFF_F000
  if d.getF (rSectCtxCfg k c) fSectCtxCfg_En = 1 ∧ v ≠ d.reg a then d.blkErr (pgPart k) else d.setReg a v

/-- Whether a VF owns something that holds its binding (R323). -/
def Dev.vfHolds (d : Dev) (v : Nat) : Bool :=
  (List.range 6).any (fun p => (List.range 16).any (fun c => d.ctxEn p c && d.ctxFunc p c == v))
    || (List.range 128).any (fun q => d.queueEn q && d.queueFunc q == v)
    || (List.range 128).any (fun r => d.getF (rCqRCfg r) fCqRCfg_En == 1 && d.getF (rCqRCfg r) fCqRCfg_Func == v)
    || d.srv.entries.any (fun e => e.2.state != .free && e.2.func == v)

/-- A write of SECT_VF_BIND_v (R323). -/
def Dev.writeVfBind (d : Dev) (v : Nat) (w : W64) : Dev :=
  let a := rSectVfBind v
  if fld w fSectVfBind_Part ≠ d.vfPart v ∧ d.vfHolds v then d.blkErr (pgPart 0)
  else Dev.signal d (d.setReg a (w &&& 0xFFF))

/-! ## Time slices (R320) -/

def Dev.sliceEnt (d : Dev) (k e : Nat) : W64 := d.reg (rSectSliceEnt k e)

/-- The first entry of non-zero LEN at or after `e` in the rotation of `n` entries, within `fuel` looks. -/
def Dev.nextEntry (d : Dev) (k n : Nat) : Nat → Nat → Option Nat
  | 0, _ => none
  | fuel + 1, e =>
    if fld (d.sliceEnt k (e % n)) fSectSliceEnt_Len ≠ 0 then some (e % n) else Dev.nextEntry d k n fuel (e + 1)

/-- Entry `e` comes into force at time `t0`, or none can (R320). -/
def Dev.enterSlice (d : Dev) (p k t0 : Nat) (e : Option Nat) : Dev :=
  match e with
  | some e =>
    let w := d.sliceEnt k e
    (d.putF (rSectSliceCtrl k) fSectSliceCtrl_Cur e).modPart p (fun x =>
      { x with sliceEnd := t0 + 1000 * fld w fSectSliceEnt_Len, sliceIdle := false, sliceMask := fld w fSectSliceEnt_Ctxmask })
  | none =>
    (d.putF (rSectSliceCtrl k) fSectSliceCtrl_Cur (d.getF (rSectSliceCtrl k) fSectSliceCtrl_Last)).modPart p
      (fun x => { x with sliceIdle := true })

/-- SECT_SLICE_CTRL written: the rotation begins at entry 0 when EN rises (R320). -/
def Dev.writeSliceCtrl (d : Dev) (k : Nat) (v : W64) : Dev :=
  let a := rSectSliceCtrl k
  let was := d.getF a fSectSliceCtrl_En
  let d := d.setReg a ((d.reg a &&& 0xF00) ||| (v &&& 0xF1))
  if was = 0 ∧ d.getF a fSectSliceCtrl_En = 1 then
    let n := d.getF a fSectSliceCtrl_Last + 1
    d.enterSlice (d.sectPart k) k d.time (d.nextEntry k n n 0)
  else d

/-- SLICE_BOUNDARY: the check of partition p's boundary, once every microsecond (R320). -/
def Dev.sliceBoundary (d : Dev) (p : Nat) : Dev :=
  let k := d.liveSect p
  let a := rSectSliceCtrl k
  if !d.partExists p ∨ d.getF a fSectSliceCtrl_En = 0 then d
  else
    let n := d.getF a fSectSliceCtrl_Last + 1
    let x := d.part p
    if x.sliceIdle then
      match d.nextEntry k n n 0 with
      | some e => d.enterSlice p k d.time (some e)
      | none => d.enterSlice p k d.time none
    else if x.sliceEnd ≤ d.time then
      let cur := d.getF a fSectSliceCtrl_Cur
      d.enterSlice p k x.sliceEnd (d.nextEntry k n n (if cur + 1 < n then cur + 1 else 0))
    else d

/-- Whether context c of partition p may start commands now (R320, R322). -/
def Dev.admits (d : Dev) (p c : Nat) : Bool :=
  d.getF (rSectSliceCtrl (d.liveSect p)) fSectSliceCtrl_En == 0 || (d.part p).sliceIdle
    || (d.part p).sliceMask.testBit c

/-! ## Unit service (R347 to R353) -/

/-- Units of partition p's sectors and stacks. -/
def Dev.unitInPart (d : Dev) (p : Nat) (u : UnitId) : Bool :=
  match u.kind with
  | .tile => d.sectPart (u.index / 24) == p
  | .dma => d.sectPart (u.index / 4) == p
  | .hen => d.sectPart (u.index / 64) == p
  | .stack => d.sectPart (u.index / 2) == p
  | .link => false
  | .sector => d.sectPart u.index == p

/-- A link is DISABLED: its receivers lock on nothing (Table 10-14). -/
def Dev.disableLink (d : Dev) (i : Nat) : Dev :=
  (d.putF (rFabLinkState i) fFabLinkState_Lanes 0).putF (rFabLinkState i) fFabLinkState_State 0

/-- When link i entered its state is noted (R281, R282). -/
def Dev.stampLink (d : Dev) (i : Nat) : Dev := { d with fab := { d.fab with linkAt := tset d.fab.linkAt i d.time } }

/-- What this end sends in training: the highest generation it supports, 1, and its identity (R283, R284). -/
def Dev.trainingWord (d : Dev) (i : Nat) : LinkMsg :=
  .training 1 (d.getF rFabCfg fFabCfg_Fid) (d.getF rFabFoldTag fFabFoldTag_Tag) 0x4D12 0x0A01 i

/-- A link enters TRAINING: no lane is in lock and no identity is received yet (Tables 10-3, 10-14); its own is sent. -/
def Dev.trainLink (d : Dev) (i : Nat) : Dev :=
  let d := { d with fab := { d.fab with sent := d.fab.sent ++ [(i, d.trainingWord i)] } }
  (((d.stampLink i).putF (rFabLinkState i) fFabLinkState_Lanes 0).putF (rFabLinkState i) fFabLinkState_State 1).putF
    (rFabLinkPeer i) fFabLinkPeer_Valid 0

/-- A link that leaves service: DISABLED for good while out of service (R352); a retired one stays RETIRED (R351). -/
def Dev.linkOff (d : Dev) (u : UnitId) : Dev :=
  if u.kind = .link ∧ !d.unitRetired .link u.index then d.disableLink u.index else d

/-- The checker self-test of R347 over `units` units: `failed` names the unit of each checker that failed. -/
def Dev.selftest (d : Dev) (failed : List UnitId) : Dev :=
  let tested := Config.freeWord d.free % 2 ^ 16
  let d := { d with free := d.free + 1 }
  let d := (d.setReg rRasSelftest (BitVec.ofNat 64 (min failed.length 0xFFFF + atBit 16 tested))).putF rRasStatus fRasStatus_SelftestDone 1
  if failed.isEmpty then d
  else (failed.foldl (fun d u => (d.takeOut u 1).linkOff u) d).raise pgRas 1

/-- A returning unit resumes service; a link enters TRAINING when its EN is 1 (R353). -/
def Dev.resume (d : Dev) (u : UnitId) : Dev :=
  let d := d.setUnit u { (d.unit u) with state := 0, reason := 0 }
  if u.kind = .link ∧ d.getF (rFabLinkCtrl u.index) fFabLinkCtrl_En = 1 then d.trainLink u.index else d

/-- The kind and index a unit code stands for. -/
def unitOfCode (c : Nat) : UnitId :=
  ⟨match c / 512 with
    | 0 => .tile | 1 => .dma | 2 => .hen | 3 => .stack | 4 => .link | _ => .sector, c % 512⟩

/-- Every returning unit that `who` selects resumes service. -/
def Dev.resumeWhere (d : Dev) (who : UnitId → Bool) : Dev :=
  (d.ras.units.filter (fun e => e.2.state == 3 && who (unitOfCode e.1))).foldl (fun d e => d.resume (unitOfCode e.1)) d

/-- The unit that RAS_UNIT_SEL names, when it exists. -/
def Dev.selUnit (d : Dev) : Option UnitId :=
  let k := d.getF rRasUnitSel fRasUnitSel_Kind
  let i := d.getF rRasUnitSel fRasUnitSel_Index
  let n := match k with
    | 0 => 144 | 1 => 24 | 2 => 384 | 3 => 12 | 4 => 96 | 5 => 6 | _ => 0
  if i < n then some (unitOfCode (k * 512 + i)) else none

/-- Whether a unit that returns may resume at once: no epoch, and its partition (if it has one) quiet (R353). -/
def Dev.resumesNow (d : Dev) (u : UnitId) : Bool :=
  !d.hasEpoch && (List.range 6).all (fun p => !d.unitInPart p u || d.quiet p)

/-- RAS_UNIT_CMD.RETURN (R353, Table 12-9). -/
def Dev.returnSelected (d : Dev) : Dev :=
  match d.selUnit with
  | none => d.blkErr pgRas
  | some u =>
    if (d.unit u).state ≠ 1 then d.blkErr pgRas
    else
      let d := d.setUnit u { (d.unit u) with state := 3 }
      if d.resumesNow u then d.resume u else d

/-! ## The DEVICE's links of a partition (R358) -/

/-- The slot entries of the table in force. -/
def Dev.tableNow (d : Dev) : List (BitVec 256) :=
  match d.fab.active with
  | none => []
  | some img => img.tables.getD (d.getF rFabStatus fFabStatus_Detour) []

/-- Whether a link belongs to a partition. -/
def Dev.linkOfPart (d : Dev) (p i : Nat) : Bool :=
  d.hasEpoch && d.tableNow.any (fun e => bitOf e 0 && bitsOf e 2 7 == i && bitsOf e 51 3 == p)

/-! ## Training of a stack (R209, R342, R358, R375, R435) -/

/-- Stack n trains from now on; its bitmap is cleared afterwards or not. -/
def Dev.trainFrom (d : Dev) (n : Nat) (clears : Bool) : Dev :=
  (d.modStack n (fun s => { s with trainAt := d.time })).setReg (rCsState n)
    (BitVec.ofNat 64 (atBit 1 1 + atBit 2 (if clears then 1 else 0) + atBit 3 1))

/-! ## Partition reset -/

/-- RESET_BEGIN or RESET_END: the page's bit and the events of the VFs bound to p (R332, R336). -/
def Dev.resetEvent (d : Dev) (p bit : Nat) : Dev :=
  let vfs := ((List.range 24).map (· + 1)).filter (fun v => d.vfPart v == p)
  let d' := vfs.foldl (fun d v => d.modReg (rSectVfEvent v) (· ||| BitVec.ofNat 64 (2 ^ bit))) d
  Dev.signal d (d'.modReg (rBlkIntStat (pgPart (d.liveSect p))) (· ||| BitVec.ofNat 64 (2 ^ bit)))

/-- Of the buffered writes of stopped commands to a granule, the first few are performed: how many, the spec leaves open, so that
the granule stands as it did or as one of its writes left it (R179). -/
def Dev.settleBuffer (d : Dev) (k : Nat) : Dev :=
  let ws := (d.wbuf k).filter (fun w => !isHost w.addr)
  ((ws.map (fun w => granOf w.addr)).eraseDups).foldl (fun d g =>
    let mine := ws.filter (fun w => granOf w.addr == g)
    (mine.take (Config.freeWord d.free % (mine.length + 1))).foldl (fun d w => d.writeHome { w with cmd := none })
      { d with free := d.free + 1 })
    (d.modSect k (fun s => { s with wbuf := [] }))

/-- Whether a command is lost with partition p (R361): one of its own queues or steps, or a FENCE_EPOCH whose image is read
through it and whose commit no round has decided. -/
def Dev.lostWith (d : Dev) (p : Nat) (x : Cmd) : Bool :=
  x.part == p || (x.opcode == 0x22 && bitsOf x.word 128 3 == p && d.fab.commitAt.isNone)
    || (x.opcode == 0x10 && x.part == 7 && d.getF (rSrvSlotCfg x.slot) fSrvSlotCfg_Part == p)

/-- Records not yet issued that `who` selects, with those that come before one of them on the same ring (R147). -/
def dueWith (who : Ready → Bool) : List Ready → List Ready
  | [] => []
  | x :: xs =>
    let ys := dueWith who xs
    if !x.held && (who x || ys.any (fun y => y.ring == x.ring)) then x :: ys else ys

/-- Records of the partition's queues and requests that are ready are issued, each ring's in its order (R147, R150, R238). -/
def Dev.issueAll (d : Dev) (p : Nat) : Dev :=
  (dueWith (fun x => x.group == some p ||
    match x.entry with
    | some e => (tget d.srv.entries {} e).part == p
    | none => false) d.cq.ready).foldl (fun d x => d.issueRecord x) d

/-- Commands by ascending queue number, those of one queue in start order, those of no queue last (R147). -/
def byQueue (xs : List Cmd) : List Cmd :=
  (List.range 128).flatMap (fun q => xs.filter (fun x => !x.serving && x.queue == q)) ++ xs.filter (fun x => x.serving)

/-- The staged epoch is discarded (R306, Table 12-1). -/
def Dev.dropStaged (d : Dev) : Dev := { d with fab := { d.fab with staged := none } }.putF rFabStatus fFabStatus_Staged 0

/-- Phases 1 to 3 of Table 12-6, and the stacks' training, with which phase 4 begins. -/
def Dev.resetWork (d : Dev) (p : Nat) : Dev :=
  let lost := byQueue (d.cq.cmds.filter (fun x => d.lostWith p x))
  let d := lost.foldl (fun d x => (d.abandon x.id).endCmdWith x 0x38 0) d
  let d := if lost.any (fun x => x.opcode == 0x22) then d.dropStaged else d
  let d := (d.sectorsOf p).foldl (fun d k => (d.settleBuffer k).modSect k (fun s => { s with idleSince := d.time })) d
  let d := { d with henOps := d.henOps.filter (fun o => !o.stks.any (fun n => d.stackPart n == p)) }
  let d := { d with tiles := d.tiles.map (fun (e : Nat × Tile) =>
    if d.sectPart (e.1 / 24) = p then (e.1, ({} : Tile)) else e) }
  let d := ((List.range 128).filter (fun q => d.queuePart q == p)).foldl (fun d q => d.flushQueue q) d
  let d := d.abortAll p 1
  let d := d.issueAll p
  (d.stacksOf p).foldl (fun d n => if d.unitGone .stack n then d else d.trainFrom n false) d

/-- The links of partition p that are DOWN train (R358). -/
def Dev.trainDown (d : Dev) (p : Nat) : Dev :=
  ((List.range 96).filter (fun i => d.linkOfPart p i && d.getF (rFabLinkState i) fFabLinkState_State == 4)).foldl
    (fun d i => d.trainLink i) d

/-- A reset of partition p begins with a cause (R332) and, for RECOVERY, a trigger (R355) and suspects (R354). -/
def Dev.beginReset (d : Dev) (p cause trigger : Nat) (suspects : List Suspect) : Dev :=
  if !d.partExists p ∨ d.inReset p then d
  else if d.getF rPwrState fPwrState_State ≠ 0 then
    d.modPart p (fun x => { x with resetWaits := true, resetWaitCause := cause, trigger := trigger })
  else
    let k := d.liveSect p
    let d := d.modPart p (fun x => { x with
      phase := .records, resetAt := d.time, cause := cause, trigger := trigger, suspects := suspects, replayed := 0,
      replaying := none, resetWaits := false })
    let d := (d.putF (rSectPartStatus k) fSectPartStatus_LastCause cause).addF (rSectPartStatus k) fSectPartStatus_Resets 1
    let d := d.setReg (rRasRecovTrig p) (BitVec.ofNat 64 ((if cause = 4 then trigger else 4)
      + atBit 3 (min suspects.length 31)))
    let d := if cause = 4 then d.modReg rRasStatus (· ||| BitVec.ofNat 64 (2 ^ p)) else d
    ((d.resetEvent p 0).resetWork p).trainDown p

/-- Recovery begins a reset with a trigger (R355). -/
def Dev.recover (d : Dev) (p trigger : Nat) : Dev := d.beginReset p 4 trigger []

/-- A stack interface failure resets the partition that holds the stack, or retrains a stack that none holds (R342). -/
def Dev.ifFailed (d : Dev) (n : Nat) : Dev :=
  let d := d.modStack n (fun s => { s with ifDown := false })
  if d.stackPart n < 6 then d.recover (d.stackPart n) 3
  else (d.modStack n (fun s => { s with retraining := true })).trainFrom n false

/-- CS_STATE of a stack that finishes training: READY, which raises bit 4 when it rises (R213). -/
def Dev.stackReady (d : Dev) (n : Nat) : Dev :=
  if d.getF (rCsState n) fCsState_Ready = 1 then d
  else (d.setReg (rCsState n) 1).raise (pgCs0 n) 0x10

/-- The judgement of the outcomes (R357). -/
def Dev.judgeReplays (d : Dev) (p : Nat) : Dev :=
  let x := d.part p
  let hung := x.suspects.filter (fun s => s.outcome == 2)
  let d := d.modReg rRasStatus (fun w => w &&& BitVec.ofNat 64 (2 ^ 64 - 1 - 2 ^ (8 + p)))
  let d := d.modPart p (fun x => { x with phase := .restored, replaying := none })
  let d :=
    match hung with
    | [] => d
    | [s] =>
      let d := d.putF (d.ctxReg p s.ctx) fSectCtxCfg_En 0
      (d.putF (rRasRecovTrig p) fRasRecovTrig_Culprit 1).putF (rRasRecovTrig p) fRasRecovTrig_CulpritCtx s.ctx
    | _ =>
      let us := (hung.flatMap (fun (s : Suspect) => s.hung)).eraseDups
      { d with ras := { d.ras with pendingOos := d.ras.pendingOos ++ us.map (fun u => (p, u)) } }.putF
        (rRasRecovTrig p) fRasRecovTrig_EngineOos 1
  d.raise pgRas (2 ^ (8 + p))

/-- Whether suspect i is replayed (R356). -/
def Dev.replays (d : Dev) (i : Nat) : Bool := i < 8 && d.getF rRasReplay fRasReplay_En == 1

/-- The next suspect's replay starts, or the outcomes are judged (R356). -/
def Dev.nextReplay (d : Dev) (p : Nat) : Dev :=
  let x := d.part p
  match x.suspects[x.replayed]? with
  | none => d.judgeReplays p
  | some s =>
    if !d.replays x.replayed then d.judgeReplays p
    else
      let d := d.modPart p (fun x => { x with replayAt := d.time })
      match s.cmd with
      | none => d
      | some c =>
        let id := d.cq.nextId
        let c := { c with id := id, serving := true, start := d.time, phase := .waiting, status := 0,
                            faultAt := none, serial := [], olds := [] }
        let d := { d with cq := { d.cq with cmds := d.cq.cmds ++ [c], nextId := id + 1 } }
        d.modPart p (fun x => { x with replaying := some id })

/-- RESET_RETRAIN_DONE: phase 4 ends (R358): the partition's stacks are READY, its SRAM is zero, its checkers tested;
suspects are replayed next, if there are any. -/
def Dev.resetRetrainDone (d : Dev) (p : Nat) (failed : List UnitId) : Dev :=
  if (d.part p).phase ≠ .records then d
  else
    let d := (d.stacksOf p).foldl (fun d n => d.stackReady n) d
    let d := (d.sectorsOf p).foldl (fun d k => d.zeroSram k) d
    let d := d.selftest (failed.filter (fun u => d.unitInPart p u || (u.kind == .link && d.linkOfPart p u.index)))
    if (d.part p).suspects.isEmpty then d.modPart p (fun x => { x with phase := .restored })
    else
      ((d.modPart p (fun x => { x with phase := .replay })).modReg rRasStatus
        (· ||| BitVec.ofNat 64 (2 ^ (8 + p)))).nextReplay p

/-- STACK_READY_TIMEOUT: a stack not READY within 600 ms of the beginning of its training leaves service with reason IF_FAIL, and what waited goes on
without it (R358, R375, R435). -/
def Dev.stackReadyTimeout (d : Dev) (n : Nat) : Dev :=
  if d.getF (rCsState n) fCsState_Training = 0 ∨ d.time < (d.stackSt n).trainAt + 600000000 then d
  else ((d.modStack n (fun s => { s with retraining := false })).takeOut ⟨.stack, n⟩ 3).stackReady n

/-- The command that partition p replays now. -/
def Dev.replayed? (d : Dev) (p : Nat) : Option Cmd := (d.part p).replaying.bind d.cmd?

/-- When the timeout of the replay under way expires: its own or RAS_REPLAY.TMO, whichever is shorter; a serving step has none
of its own (R356). -/
def Dev.replayExpiry (d : Dev) (p : Nat) : Nat :=
  let tmo := 1000000 * d.getF rRasReplay fRasReplay_Tmo
  (d.part p).replayAt + (match d.replayed? p with
    | some x => min (1000 * d.timeoutOf x) tmo
    | none => tmo)

/-- Whether this model runs a command's work itself, so that it knows its status: RUN_PROGRAM, ADAPT_STEP and COPY. -/
def Cmd.ownRun (x : Cmd) : Bool := x.opcode == 0x01 || x.opcode == 0x14 || x.opcode == 0x02

/-- Whether the replay under way can end with a status: TIMEOUT after its expiry, HANG 10 µs later with an engine that has not
stopped, any other when its command has nothing left to do (R144, R356). -/
def Dev.replayOver (d : Dev) (p : Nat) (status : Byte) (hung : List UnitId) : Bool :=
  if status = 0x36 then d.replayExpiry p ≤ d.time
  else if status = 0x37 then !hung.isEmpty && d.replayExpiry p + 10000 ≤ d.time
  else
    match d.replayed? p with
    | some x => !x.ownRun || d.cmdDone { x with fold := false }
    | none => true

/-- The status of the replay under way: that of the command's own run where this model has it. -/
def Dev.replayStatus (d : Dev) (p : Nat) (status : Byte) : Byte :=
  if status = 0x36 ∨ status = 0x37 then status
  else
    match d.replayed? p with
    | some x => if x.ownRun then x.finalStatus else status
    | none => status

/-- SUSPECT_REPLAY: the replay under way ends with a status, and the engines that did not stop (R356). -/
def Dev.suspectReplay (d : Dev) (p : Nat) (status : Byte) (hung : List UnitId) : Dev :=
  let x := d.part p
  if x.phase ≠ .replay ∨ !d.replayOver p status hung then d
  else
    let status := d.replayStatus p status
    let out := if status = 0x37 then 2 else 1
    let d :=
      match d.replayed? p with
      | none => d
      | some c => (((d.abandon c.id).freeTiles c.id).dropCmd c.id).leaveSectors c
    let d := (d.sectorsOf p).foldl (fun d k => d.drainAll k) d
    let d := d.modPart p (fun x => { x with
      suspects := x.suspects.modify x.replayed (fun s => { s with outcome := out, status := status, hung := hung })
      replayed := x.replayed + 1, replaying := none })
    (d.putF (rRasRecovTrig p) fRasRecovTrig_Replayed (x.replayed + 1)).nextReplay p

/-- RESET_END: phases 6 and 7 (R358): SRAM zero, routine stores empty, out-of-service decisions and slot states in effect,
returning units back, RESET_END set, the duration taken. -/
def Dev.resetEnd (d : Dev) (p : Nat) : Dev :=
  let x := d.part p
  if x.phase ≠ .restored then d
  else
    let us := (d.ras.pendingOos.filter (fun e => e.1 == p)).map (·.2)
    let d := (d.sectorsOf p).foldl (fun d k => (d.zeroSram k).dropLib k) d
    let d := us.foldl (fun d u => (d.takeOut u 2).linkOff u) d
    let d := { d with ras := { d.ras with pendingOos := d.ras.pendingOos.filter (fun e => e.1 != p) } }
    let d := d.modReg rRasDmaHalt (fun w => (d.sectorsOf p).foldl (fun w k =>
      w &&& BitVec.ofNat 64 (2 ^ 64 - 1 - 15 * 2 ^ (4 * k))) w)
    let d := d.issueAll p
    let us := (d.time - x.resetAt) / 1000
    let d := d.putF (rRasRecovTime p) fRasRecovTime_Time us
    let d := d.putF (rRasRecovMax p) fRasRecovMax_Max (max us (d.getF (rRasRecovMax p) fRasRecovMax_Max))
    let d := d.modReg rRasStatus (fun w => w &&& BitVec.ofNat 64 (2 ^ 64 - 1 - 2 ^ p))
    let d := d.modPart p (fun x => { x with phase := .none, suspects := x.suspects })
    let d := if d.hasEpoch then d else d.resumeWhere (fun u => d.unitInPart p u)
    (d.resetEvent p 1).log 0x12 [p, x.cause, x.trigger, us]

/-- PARTITION_RESET: the PF writes SECT_PART_CTRL.RESET of p (R332). -/
def Dev.partitionReset (d : Dev) (p : Nat) : Dev := d.beginReset p 1 4 []

/-! ## Function-level reset (R333 to R335) -/

/-- Thokel context group of context c of sector k at its Reset values (R333 item 7). -/
def Dev.resetThokel (d : Dev) (k c : Nat) : Dev := d.resetRegs (rSectDtabBase k c) (rSectDtabBase k c + 0x40)

/-- The counters of a queue that an FLR clears (R333 item 5). -/
def Dev.clearCounts (d : Dev) (q : Nat) : Dev :=
  [rCqQWcnt q, rCqQScnt q, rCqQCcnt q, rCqQQovf q, rCqQQrej q, rCqQFlushed q].foldl (fun d a => d.setReg a 0) d

/-- The fields of a ring that a VF may write, at their Reset values (R333 item 6); FUNC is the PF's. -/
def Dev.resetRing (d : Dev) (r : Nat) : Dev :=
  let f := d.getF (rCqRCfg r) fCqRCfg_Func
  ((d.setReg (rCqRCfg r) (putFld (resetOf (rCqRCfg r)) fCqRCfg_Func f)).setReg (rCqRMod r) (resetOf (rCqRMod r))).setReg
    (rCqRHead r) (resetOf (rCqRHead r))

/-- The function path of an FLR of VF v (R333). -/
def Dev.vfFlrPath (d : Dev) (v : Nat) : Dev :=
  let d := (d.cq.cmds.filter (fun x => x.func == v)).foldl (fun d x =>
    ((((d.abandon x.id).freeTiles x.id).dropCmd x.id).leaveSectors x).loadEnded x) d
  let d := d.cancelOwned v
  let rings := (List.range 128).filter (fun r => d.getF (rCqRCfg r) fCqRCfg_Func == v)
  let d := d.discardRecords (fun x => rings.contains x.ring)
  let d := ((List.range 128).filter (fun q => d.queueFunc q == v)).foldl (fun d q => (d.flushQueue q).clearCounts q) d
  let d := rings.foldl (fun d r => d.resetRing r) d
  let p := d.vfPart v
  let k := d.liveSect p
  let d := ((List.range 16).filter (fun c => d.ctxEn p c && d.ctxFunc p c == v)).foldl (fun d c => d.resetThokel k c) d
  let d := d.answersNone v
  let d := { d with hif := { d.hif with
    vecs := d.hif.vecs.filter (fun e => !(64 * v ≤ e.1 && e.1 < 64 * (v + 1)))
    fns := tset d.hif.fns v {} } }
  d.setReg (rSectVfEvent v) 0

/-- Bit v of SECT_VF_FLR_DONE and VF_FLR (R333, R336). -/
def Dev.vfFlrDone (d : Dev) (v : Nat) : Dev :=
  (d.modReg rSectVfFlrDone (· ||| BitVec.ofNat 64 (2 ^ v))).raise (pgPart 0) 0x200

/-- VF_FLR: an FLR of a VF whose commands all stop (R333). -/
def Dev.vfFlr (d : Dev) (v : Nat) : Dev := if v = 0 then d else (d.vfFlrPath v).vfFlrDone v

/-- VF_FLR_ESCALATE: an FLR of a VF with a started command that does not stop within 10 us; without one nothing escalates
(R334). -/
def Dev.vfFlrEscalate (d : Dev) (v : Nat) : Dev :=
  if v = 0 then d
  else
    let p := d.vfPart v
    let left := d.cq.cmds.any (fun x => x.func == v)
    let d := (d.vfFlrPath v).vfFlrDone v
    if left then d.beginReset p 2 4 [] else d

/-- PF_FLR (R335, Table 15-5): every partition is reset with cause PF_FLR, every VF is removed, and the blocks of its row
go to their Reset values. -/
def Dev.pfFlr (d : Dev) : Dev :=
  let d := { d with hif := { d.hif with
    fns := [], vecs := [], vfEnable := false, numVfs := 0, bar4Log2 := 40, maxPayload := 128, maxReadReq := 512, cplRange := 0 } }
  let d := (List.range 6).foldl (fun d p => d.beginReset p 3 4 []) d
  let d := ((List.range 24).map (· + 1)).foldl (fun d v => d.vfFlrPath v) d
  let d := ((List.range 128).filter (fun q => d.queuePart q == 7)).foldl (fun d q => d.flushQueue q) d
  let d := (d.discardRecords (fun _ => true)).resetRegs 0x10000 0x19000
  let d := ((d.resetRegs 0x101080 0x1010E0).resetRegs 0x1010F0 0x1010F4).resetRegs 0x101100 0x101160
  { d with cq := { d.cq with storage := [], stamps := [], checked := [], fetched := [], turns := [], modCount := [], modStart := [] } }

end Sys2Proof.Machine
end

