-- ==== Sys2Proof/Machine/Power.lean ====
section
/-! DEFINITION. Power states, wakes, pads, shutdown and save, power samples, issue rates, phase tables, droops, sector gating
and the arithmetic clock (13_power_clocks_thermal.md R366 to R385, R391 to R395). -/

namespace Sys2Proof.Machine

/-- PWR_STATE.STATE (Table 13-2). -/
def Dev.pstate (d : Dev) : Nat := d.getF rPwrState fPwrState_State

def Dev.setPstate (d : Dev) (x : Nat) : Dev := d.putF rPwrState fPwrState_State x

def Dev.onPwr (d : Dev) (f : Pwr → Pwr) : Dev := { d with pwr := f d.pwr }

def Dev.onHif (d : Dev) (f : Hif → Hif) : Dev := { d with hif := f d.hif }

/-- Whether any request-table entry is occupied. -/
def Dev.anyOccupied (d : Dev) : Bool := d.srv.entries.any (fun e => e.2.state != .free)

/-! ## Refusal and entry (R371 to R374) -/

/-- The refuser mask of Table 13-3, bit i − 1 for code i; `self` is the deciding command's own queue entry, not yet
counted anywhere. -/
def Dev.refusers (d : Dev) : Nat :=
  let b (i : Nat) (c : Bool) : Nat := if c then 2 ^ (i - 1) else 0
  b 1 (d.pstate == 5)
    + b 2 ((List.range 6).any d.inReset || d.getF rSectPartBusy fSectPartBusy_LayoutBusy == 1)
    + b 3 d.anyOccupied
    + b 4 (!d.cq.cmds.isEmpty || d.cq.storage.any (fun e => !e.2.isEmpty) || d.cq.ready.any (fun x => x.held))
    + b 5 (d.getF rFabStatus fFabStatus_EpochState == 1 || d.getF rFabStatus fFabStatus_Staged == 1
        || d.cq.cmds.any (fun x => x.opcode == 0x22))
    + b 6 (d.gan.debugOn || !d.gan.cfgPend.isEmpty || d.getF rMgmtMbxCtrl fMgmtMbxCtrl_Busy == 1
        || (d.gan.upd.isSome && d.getF rMgmtUpdStatus fMgmtUpdStatus_State != 5))

/-- The lowest refuser code of a mask. -/
def lowestCode (m : Nat) : Nat := ((List.range 6).find? (fun i => m.testBit i)).elim 0 (· + 1)

/-- A refused POWER_STATE (R373). -/
def Dev.refuse (d : Dev) (mask target seq : Nat) : Dev :=
  let d := d.addF rPwrRefuse fPwrRefuse_Cnt 1
  let d := d.setReg rPwrRefuseLast (BitVec.ofNat 64 (lowestCode mask + atBit 4 mask + atBit 10 target))
  (d.setReg rPwrRefuseSeq (BitVec.ofNat 64 (seq % 2 ^ 32))).raise pgPwr 4

/-- The pad accounting of a committed entry (R371, R376): FALLOW latches the pads. -/
def Pads.commit (x : Pads) (target : Nat) : Pads :=
  if target = 2 then { x with fallow := x.fallow + 1, held := true } else { x with lull := x.lull + 1 }

/-- The pads are released, and the release counted (R376, R433). -/
def Pads.doRelease (x : Pads) : Pads := { x with release := x.release + 1, held := false }

/-- A committed entry begins (R371). -/
def Dev.commitEntry (d : Dev) (target : Nat) : Dev :=
  (d.setPstate 1).onPwr (fun x => { x with entering := some target, wakeWaits := 0 })

/-- What the device loses in FALLOW (Table 13-4). -/
def Dev.fallowLoss (d : Dev) : Dev :=
  let d := (List.range 6).foldl (fun d k => (d.zeroSram k).dropLib k) d
  let d := { d with tiles := [] }
  (List.range 96).foldl (fun d i =>
    if d.getF (rFabLinkState i) fFabLinkState_State = 5 then d else d.disableLink i) d

/-- Every stack in self-refresh or out of it. -/
def Dev.selfRefresh (d : Dev) (on : Bool) (train : Bool) : Dev :=
  (List.range 12).foldl (fun d n =>
    if d.unitRetired .stack n then d
    else if on then d.setReg (rCsState n) (BitVec.ofNat 64 (atBit 3 1))
    else if train then d.trainFrom n false
    else d.stackReady n) d

/-! ## Wakes (R375, R378) -/

/-- WAKE_N is driven low for wake sources 5 and 6 while the link is not in L0 (R375, R437). -/
def Dev.driveWakeN (d : Dev) (src : Nat) : Dev :=
  if (src = 5 ∨ src = 6) ∧ d.getF rHifLink fHifLink_State ≠ 2 ∧ d.hif.wakeN then
    d.onHif (fun h => { h with wakeN := false, wakeAt := d.time })
  else d

/-- The device leaves LULL or FALLOW. -/
def Dev.startWake (d : Dev) (src : Nat) : Dev :=
  let d := d.onPwr (fun x => { x with wakeFrom := d.pstate, wakeWaits := 0, entering := none })
  ((d.setPstate 4).putF rPwrState fPwrState_WakeSrc src).driveWakeN src

/-- A wake source (R375): it acts in LULL and FALLOW, waits in ENTERING for the end of the entry, and is absorbed or
without effect elsewhere. -/
def Dev.wakeSource (d : Dev) (src : Nat) : Dev :=
  if d.pstate = 2 ∨ d.pstate = 3 then (if src = 6 ∧ d.pstate = 3 then d else d.startWake src)
  else if d.pstate = 1 ∧ d.pwr.wakeWaits = 0 ∧ !(src = 6 ∧ d.pwr.entering = some 2) then
    d.onPwr (fun x => { x with wakeWaits := src })
  else d

/-- ENTERED: the state becomes LULL or FALLOW (R371, R374); a wake source that waited acts at once. -/
def Dev.entered (d : Dev) : Dev :=
  match d.pstate, d.pwr.entering with
  | 1, some t =>
    let d := if t = 2 then d.fallowLoss else d
    let w := d.pwr.wakeWaits
    let d := ((d.selfRefresh true false).setPstate (if t = 2 then 3 else 2)).onPwr (fun x => { x with entering := none })
    let d := d.raise pgPwr 1
    if w = 0 then d else d.startWake w
  | _, _ => d

/-- Resets that waited for ACTIVE begin (R378). -/
def Dev.waitingResets (d : Dev) : Dev :=
  (List.range 6).foldl (fun d p =>
    if (d.part p).resetWaits then
      let x := d.part p
      (d.modPart p (fun x => { x with resetWaits := false })).beginReset p x.resetWaitCause x.trigger []
    else d) d

/-- The device reaches ACTIVE. -/
def Dev.reachActive (d : Dev) : Dev := ((d.setPstate 0).raise pgPwr 1).waitingResets

/-- WAKE_DONE: from LULL the device is ACTIVE; from FALLOW it is WAKE_HELD after the self-test of what was powered up, its
pads still held; after PAD_RELEASE it is ACTIVE with its stacks trained (R375, R376). -/
def Dev.wakeDone (d : Dev) (padHeld : Bool) (failed : List UnitId) : Dev :=
  if d.pstate ≠ 4 then d
  else if d.pwr.wakeFrom = 2 then (d.selfRefresh false false).reachActive
  else if padHeld then ((d.selftest failed).setPstate 5).raise pgPwr 2
  else (d.selfRefresh false false).reachActive

/-- The device part of an accepted PAD_RELEASE: the stacks leave self-refresh and retrain, links with EN set train
(R375, R376). -/
def Dev.afterRelease (d : Dev) : Dev :=
  let d := (d.setPstate 4).selfRefresh false true
  (List.range 96).foldl (fun d i =>
    if d.getF (rFabLinkCtrl i) fFabLinkCtrl_En = 1 ∧ d.getF (rFabLinkState i) fFabLinkState_State = 0
        ∧ !d.unitGone .link i then d.trainLink i
    else d) d

/-- PAD_RELEASE written (R376). -/
def State.padRelease (s : State) : State :=
  if s.dev.pstate = 5 ∧ s.pads.held then { s with pads := s.pads.doRelease, dev := s.dev.afterRelease }
  else s.onDev (fun d => d.blkErr pgPwr)

/-! ## Stopping everything (R390 to R392, R433) -/

/-- Every engine stops and every job is gone: commands, records not yet written, hen operations, buffered writes, requests
(R391: every record not yet written is abandoned). -/
def Dev.stopAll (d : Dev) : Dev :=
  let d := (List.range 6).foldl (fun d k => d.settleBuffer k) d
  let d := { d with
    cq := { d.cq with storage := [], stamps := [], checked := [], fetched := [], turns := [], cmds := [], ready := [], modCount := [], modStart := [] }
    tiles := [], henOps := [] }
  (d.onHif (fun h => { h with reads := [], bar4 := [] })).dropServing

/-- The update in progress ends with a RESULT of MGMT_UPD_STATUS, and its UPDATE record (14 R416). -/
def Dev.endUpdate (d : Dev) (result : Nat) : Dev :=
  match d.gan.upd with
  | none => d
  | some u =>
    ((d.onGan (fun g => { g with upd := none })).setReg rMgmtUpdStatus (BitVec.ofNat 64 (atBit 16 result))).log 0x30
      ([u.oldVer] ++ u.newVer.toList ++ [result])

/-- The power-good outputs are released: the board removes every rail but VIN_AON, and stack contents, SRAM and all state
outside AON are lost: the host link is down and no register page is served (R366, R390, R391, R452). -/
def Dev.dropRails (d : Dev) : Dev :=
  let d := { (d.endUpdate 5).stopAll with
    stk := {}, tram := {}, sram := {}, slots := {}, sect := [], cs := [], parts := [], layoutOn := [], fab := {},
    thm := { d.thm with sects := [] } }
  let d := (List.range 12).foldl (fun d n => d.setReg (rCsState n) 0) ((d.resetRegs pgHif (pgHif + 0x1000)).putF rDevStatus fDevStatus_Ready 0)
  d.onHif (fun h => { h with pgStk := false, pgCore := false, railsGood := false, phase := .off })

/-- Every sector's issue rate. -/
def Dev.rates (d : Dev) : List Nat := (List.range 6).map (fun k => d.getF (rPwrSectMax k) fPwrSectMax_R)

/-- SHUTDOWN with its key (R391). -/
def Dev.shutdown (d : Dev) : Dev :=
  if d.pstate = 6 ∨ d.pstate = 7 then d
  else
    let was := d.pstate
    (d.dropRails.logNow 0x21 [was]).setPstate 6

/-- SUPPLY_SAG: in every state except HALTED the save begins (R392, Table 13-9); the command does not say whether SAG_N or
the comparator found the sag, so the trigger that the record names is free. -/
def Dev.supplySag (d : Dev) : Dev :=
  if d.pstate = 6 ∨ d.pstate = 7 ∨ !d.gan.up then d
  else
    (({ d with free := d.free + 1 }.dropRails).setPstate 7).onPwr (fun x => { x with
      sagTrigger := Config.freeWord d.free, sagTrip := [] })

/-- SAVE_END: SAG_SAVE, the SAG_DETAIL records and up to 18 buffered records are programmed, and AON stops (R392). -/
def Dev.saveEnd (d : Dev) : Dev :=
  if d.pstate ≠ 7 ∨ !d.gan.up then d
  else
    let buf := d.gan.logBuf
    let lost := buf.length - 18
    let s0 := d.gan.logSeq
    let mk (i typ : Nat) (pl : List Nat) : LogRec := { typ := typ, seq := (s0 + i) % 2 ^ 32, time := d.time, payload := pl }
    let details := (List.range 12).map (fun n => mk (2 + n) 0x23
      [n, (d.reg (rCsErrTotal n)).toNat, (d.reg (rCsErrOvf n)).toNat])
    let pend := (d.gan.cfgPend.filterMap (fun x =>
      match x with
      | (.retire r, .cmd _) => some (mk 14 0x23 r.fields)
      | _ => none)).take 1
    let recs := mk 1 0x22 ([d.pwr.sagTrigger, lost] ++ d.pwr.sagTrip) :: details ++ pend ++ buf.take 18
    d.onGan (fun g => { g with
      logFlash := flushLog g.logFlash recs, logBuf := [], logSeq := (s0 + 13 + pend.length) % 2 ^ 32, up := false })

/-- A thermal trip with a cause (R390): HALTED, THERMTRIP_N low, the record in flash; during a save it changes the record
alone. `hot` is the hottest sensor and its reading. -/
def Dev.thermalTrip (d : Dev) (cause : Nat) (hot : List Nat) : Dev :=
  if d.pstate = 6 then d
  else if d.pstate = 7 then d.onPwr (fun x => { x with sagTrip := cause :: hot })
  else
    let rs := d.rates
    let d := d.dropRails.onHif (fun h => { h with thermtripN := false })
    (d.logNow 0x20 (cause :: hot ++ rs)).setPstate 6

/-! ## The arithmetic clock (R369) -/

/-- FB_CLK of the current epoch, 0 with none. -/
def Dev.fbClk (d : Dev) : Nat :=
  match d.fab.active with
  | none => 0
  | some img => if d.hasEpoch then bitsOf img.hdr 115 7 else 0

/-- The largest clock that R292 holds. -/
def Dev.heldClk (d : Dev) : Nat := (d.fab.samples.map (·.1)).foldl max 0

/-- The effective clock in 62.5 MHz steps (R369). -/
def Dev.effClk (d : Dev) : Nat :=
  if d.getF rFabStatus fFabStatus_Fallback = 1 then d.fbClk
  else
    let floors := ((List.range 6).filter (fun p => 0 < d.liveCount p)).map (fun p => d.getF (rSrvAdmFloor p) fSrvAdmFloor_Clk)
    max (max (d.getF rPwrClk fPwrClk_Target) (floors.foldl max 0)) (max d.heldClk d.fbClk)

/-- CLOCK_SWITCH (R369). -/
def Dev.clockSwitch (d : Dev) : Dev :=
  (d.putF rPwrClk fPwrClk_Cur d.effClk).putF rPwrClk fPwrClk_Fallback (d.getF rFabStatus fFabStatus_Fallback)

/-- PWR_CLK written (Table 13-10): TARGET outside 16 to 64 is discarded. -/
def Dev.writeClk (d : Dev) (v : W64) : Dev :=
  let t := fld v fPwrClk_Target
  if 16 ≤ t ∧ t ≤ 64 then d.putF rPwrClk fPwrClk_Target t else d.blkErr pgPwr

/-! ## Power samples (R379, R382) -/

/-- A quotient, rounded as the spec leaves open (log entry 11). -/
def openDiv (what : Nat) (a b : Nat) : Nat :=
  if b = 0 then 0 else if a % b ≠ 0 ∧ Config.roundsUp what a b then a / b + 1 else a / b

/-- The mean of the last 1 ms of package power, in W. -/
def Pwr.avg (x : Pwr) : Nat := openDiv 0 ((x.samples.map (·.1)).foldl (· + ·) 0) (1000 * x.samples.length)

/-- The mean of the last 1 ms of sector k's rail, in W. -/
def Pwr.railAvg (x : Pwr) (k : Nat) : Nat :=
  openDiv 1 ((x.samples.map (fun s => s.2.getD k 0)).foldl (· + ·) 0) (1000 * x.samples.length)

/-- Sector k's hold as PWR_SECT_MAX shows it. -/
def Dev.holdOf (d : Dev) (k : Nat) : Nat := d.getF (rPwrSectMax k) fPwrSectMax_Hold

/-- The supply limit of R382 while AVG has stayed above 110 % of the cap for 1 ms. -/
def Dev.capLimit (d : Dev) : Dev :=
  let total := ((List.range 6).map d.holdOf).foldl (· + ·) 0
  if 1000 ≤ d.pwr.overCap then
    d.onPwr (fun x => { x with supplyCap := (List.range 6).filterMap (fun k =>
      if Config.exceedsShare k (d.holdOf k) total then some (k, max 1 (d.holdOf k - 8)) else none) })
  else if d.pwr.overCap = 0 then d.onPwr (fun x => { x with supplyCap := [] })
  else d

/-- POWER_SAMPLE, in mW (R379). -/
def Dev.powerSample (d : Dev) (package : Nat) (rails : List Nat) : Dev :=
  let d := d.onPwr (fun x => { x with
    samples := ((package, rails) :: x.samples).take 1000
    sums := (List.range 6).foldl (fun t k =>
      let o := tget t (0, 0, 0) k
      tset t k (o.1 + rails.getD k 0, o.2.1 + d.getF (rPwrSectMax k) fPwrSectMax_R, o.2.2 + 1)) x.sums })
  let avg := d.pwr.avg
  let d := d.putF rPwrPower fPwrPower_Avg avg
  let d := d.putF rPwrPower fPwrPower_Peak (max avg (d.getF rPwrPower fPwrPower_Peak))
  let d := (List.range 6).foldl (fun d k => d.putF (rPwrSectPower k) fPwrSectPower_Power (d.pwr.railAvg k)) d
  let cap := d.getF rPwrCap fPwrCap_Cap
  let d := d.onPwr (fun x => { x with overCap := if cap * 110 < avg * 100 then x.overCap + 1 else 0 })
  let low := package * 10 < cap * 1000
  let d := { d with thm := { d.thm with lowPowerSince :=
    if low then (match d.thm.lowPowerSince with | some t => some t | none => some d.time) else none } }
  d.capLimit

/-! ## Issue rates (R381, R383, R385, R389) -/

/-- What a command's phase key says of its kind (R383): its partition, kind and the entry routine. -/
def Cmd.phaseKey (x : Cmd) : Nat :=
  x.part % 8 + (if x.opcode = 0x01 ∨ x.opcode = 0x14 then atBit 5 (bitsOf x.word 128 8) else atBit 3 3)

/-- RC5 of a decode step for a batch of b: 1 when its weight products run in the tiles (R200). -/
def Dev.inTiles (d : Dev) (p b : Nat) : Nat := if b < d.getF (rSrvSplit p) fSrvSplit_BatchThresh then 0 else 1

/-- The runtime counts RC5 to RC7 of a step or slice whose weight products run in the tiles (1) or the hens (0), for `b` requests
(R200). -/
def stepCounts (tiles b : Nat) : List Nat := [tiles, 1 - tiles, b]

/-- The phase of a decode step of slot s for a batch of b (R200, R383). -/
def Dev.stepPhase (d : Dev) (p s b : Nat) : Nat := p % 8 + atBit 3 1 + atBit 5 s + atBit 13 (d.inTiles p b)

/-- The phase of a prefill slice whose first request is of slot s; its RC5 is 1 (R200, R383). -/
def slicePhase (p s : Nat) : Nat := p % 8 + atBit 3 2 + atBit 5 s + atBit 13 1

/-- The phase of partition p's cycle in progress: that of the decode step it runs next, else of its slice (R232). -/
def Dev.cyclePhase (d : Dev) (p : Nat) : Option Nat :=
  if !thas d.srv.cycles p then none
  else
    let batch (s : Nat) : Nat :=
      (d.srv.entries.filter (fun e => e.2.part == p && e.2.state == .decode && !e.2.fresh && e.2.slot == s)).length
    match (List.range 16).find? (fun s => !(tget d.srv.stepsDone [] p).contains s && batch s != 0) with
    | some s => some (d.stepPhase p s (batch s))
    | none =>
      (leastBy (fun (e : Nat × Entry) => e.2.order)
        (d.srv.entries.filter (fun e => e.2.part == p && e.2.state == .prefill))).map (fun e => slicePhase p e.2.slot)

/-- The phase a sector is in: that of its partition's cycle, else that of the first started command that uses it. -/
def Dev.sectorPhase (d : Dev) (k : Nat) : Option Nat :=
  match d.cyclePhase (d.sectPart k) with
  | some key => some key
  | none => (d.cq.cmds.find? (fun x => x.usesSector k)).map Cmd.phaseKey

/-- Learned power of a phase, in 10 mW (R383). -/
def Dev.phaseP (d : Dev) (key : Nat) : Nat :=
  match d.pwr.phases.find? (fun e => e.2.key == key) with
  | some e => e.2.p
  | none => d.getF rPwrPhaseDef fPwrPhaseDef_Default

/-- The run of a phase ends with an observed power (R383). -/
def Dev.learn (d : Dev) (key obs : Nat) : Dev :=
  let upd (p : Nat) : Nat := if p < obs then obs else p - ceilDiv (p - obs) 16
  match d.pwr.phases.find? (fun e => e.2.key == key) with
  | some e => d.onPwr (fun x => { x with phases := tset x.phases e.1 { e.2 with p := upd e.2.p, used := d.time } })
  | none =>
    let p := upd (d.getF rPwrPhaseDef fPwrPhaseDef_Default)
    let slot :=
      match (List.range 256).find? (fun i => !thas d.pwr.phases i) with
      | some i => i
      | none => ((leastBy (fun (e : Nat × Phase) => e.2.used) d.pwr.phases).map (·.1)).getD 0
    d.onPwr (fun x => { x with phases := tset x.phases slot { key := key, p := p, used := d.time } })

/-- The end of a run of a phase, for each sector that took part: mean rail power × 64 / mean r × 4,000 / f since the sums
stood at `start`, in 10 mW (R383). -/
def Dev.learnRun (d : Dev) (key : Nat) (ks : List Nat) (start : Tab (Nat × Nat × Nat)) : Dev :=
  ks.foldl (fun d k =>
    let a := tget start (0, 0, 0) k
    let b := tget d.pwr.sums (0, 0, 0) k
    let n := b.2.2 - a.2.2
    let r := b.2.1 - a.2.1
    if n = 0 ∨ r = 0 then d
    else d.learn key (openDiv 2 ((b.1 - a.1) * 64 * 64) (10 * r * d.getF rPwrClk fPwrClk_Cur))) d

/-- PHASE_UPDATE at the end of a command's run. -/
def Dev.phaseUpdate (d : Dev) (x : Cmd) : Dev :=
  d.learnRun x.phaseKey ((List.range 6).filter (fun k => x.usesSector k)) x.sums

/-- A decode step or slice of partition p begins to be measured. -/
def Dev.runBegins (d : Dev) (p : Nat) : Dev := d.onPwr (fun x => { x with runs := tset x.runs p x.sums })

/-- A decode step or slice of partition p, of a phase, has run; the next one is measured from here. -/
def Dev.runEnds (d : Dev) (p key : Nat) : Dev := (d.learnRun key (d.sectorsOf p) (tget d.pwr.runs [] p)).runBegins p

/-- Stacks of sector k reading TEMP_CRIT (R389). -/
def Dev.stackCrit (d : Dev) (k : Nat) : Bool :=
  [2 * k, 2 * k + 1].any d.tempCrit

def Dev.thmSect (d : Dev) (k : Nat) : ThmSect := tget d.thm.sects {} k

/-- THM_FAIL bit of a monitor. -/
def Dev.monFailed (d : Dev) (n : Nat) : Bool :=
  if n < 32 then bitOf (d.reg rThmFailLo) n else if n < 64 then bitOf (d.reg rThmFailMid) (n - 32)
  else bitOf (d.reg rThmFailHi) (n - 64)

def Dev.sectMonFailed (d : Dev) (k : Nat) : Bool := (List.range 12).any (fun m => d.monFailed (12 * k + m))

/-- The thermal limit of sector k (Table 13-8). -/
def Dev.thermalLimit (d : Dev) (k : Nat) : Nat :=
  if d.getF rThmDiode fThmDiode_Fail = 1 ∨ d.sectMonFailed k then d.getF rThmLimit fThmLimit_FailRate
  else
    let x := d.thmSect k
    min x.throttle (if x.act ∨ d.stackCrit k then 32 else 64)

/-- The supply limit of sector k (R382). -/
def Dev.supplyLimit (d : Dev) (k : Nat) : Nat := tget d.pwr.supplyCap 64 k

/-- hold[k] of R381; R292 holds the rates that pace the fold, those of sectors with fold jobs. -/
def Dev.computeHold (d : Dev) (k : Nat) : Nat :=
  let p := d.sectPart k
  let floor := if p < 6 ∧ 0 < d.liveCount p then d.getF (rSrvAdmFloor p) fSrvAdmFloor_Rate else 0
  let held := if d.foldPart p then (d.fab.samples.map (·.2)).foldl max 0 else 0
  max 1 (max floor held)

/-- NEED of a beat of nominal length l and work fraction `work` at clock f (62.5 MHz steps) and rate r: L − W +
W × (4,000 MHz / f) × (64 / r), rounded up to a multiple of 8 ns (R291). -/
def needAt (l work f r : Nat) : Nat :=
  let f := max 1 f
  let r := max 1 r
  8 * ceilDiv ((l * 256 - l * work) * f * r + l * work * 4096) (8 * 256 * f * r)

/-- The lowest rate at which the device's own NEED does not exceed that of the latest round (R385). -/
def Dev.balanceLim (d : Dev) (k : Nat) : Nat :=
  if d.getF rPwrFold fPwrFold_Balance = 1 ∧ d.foldPart (d.sectPart k) then
    match d.fab.active with
    | none => 64
    | some img =>
      let l := bitsOf img.hdr 64 17
      let work := img.work.getD ((d.getF rFabBeat fFabBeat_Beat + 2) % max 1 (bitsOf img.hdr 128 10)) 0
      (((List.range 64).map (· + 1)).find? (fun r =>
        needAt l work (d.getF rPwrClk fPwrClk_Cur) r ≤ d.fab.roundNeed)).getD 64
  else 64

/-- lim[k] of R381: the host limit, lowered by a rise freeze (R389) and by BALANCE (R385), never below the hold then. -/
def Dev.computeLim (d : Dev) (k hold : Nat) : Nat :=
  let m := max 1 (d.getF (rPwrSectMax k) fPwrSectMax_Max)
  let m := match (d.thmSect k).freeze with
    | some z => max hold (min m z)
    | none => m
  if d.balanceLim k < m then max hold (d.balanceLim k) else m

/-- One ascending pass of R381: rates, what is spent, and whether any rate rose. -/
def ratePass (steps lims : List Nat) (budget : Int) (rs : List Nat) (spend : Int) : List Nat × Int × Bool :=
  (List.range 6).foldl (fun acc k =>
    let r := acc.1.getD k 0
    let st := steps.getD k 0
    if r < lims.getD k 0 ∧ acc.2.1 + st ≤ budget then (acc.1.set k (r + 1), acc.2.1 + st, true) else acc)
    (rs, spend, false)

/-- Passes until one raises nothing; every pass but the last raises a rate, so 400 suffice. -/
def ratePasses (steps lims : List Nat) (budget : Int) : Nat → List Nat → Int → List Nat
  | 0, rs, _ => rs
  | n + 1, rs, spend =>
    let x := ratePass steps lims budget rs spend
    if x.2.2 then ratePasses steps lims budget n x.1 x.2.1 else x.1

/-- What sets r_k, for PWR_SECT_MAX.REASON (Table 13-11). -/
def Dev.rateReason (d : Dev) (k r raised lim : Nat) : Nat :=
  if r < raised then
    (if d.supplyLimit k ≤ r then 5
     else if d.getF rThmDiode fThmDiode_Fail = 1 ∨ d.sectMonFailed k then 6
     else if (d.thmSect k).act then 4 else 3)
  else if raised < lim then 1
  else if lim = 64 then 0
  else if d.balanceLim k = lim then 7
  else if (d.thmSect k).freeze.any (fun z => z < max 1 (d.getF (rPwrSectMax k) fPwrSectMax_Max)) then 4 else 2

/-- A response that holds sector k below the floor of R228 is a cause for its partition's requests: THERMAL where the thermal limit
sets the rate, SUPPLY where the supply limit does, and both where both do (R236, R237, R382, R389). -/
def Dev.noteFloor (d : Dev) (k r : Nat) : Dev :=
  let p := d.sectPart k
  let floor := d.getF (rSrvAdmFloor p) fSrvAdmFloor_Rate
  let note (d : Dev) (lim cause : Nat) : Dev := if lim ≤ r ∧ lim < floor then d.noteCause p cause else d
  if p < 6 then note (note d (d.thermalLimit k) 4) (d.supplyLimit k) 5 else d

/-- A thermal or supply response has lowered a rate below one sampled for a pace word in the current beat (R292). -/
def Dev.lowerBeat (d : Dev) : Dev :=
  { d with fab := { d.fab with lowered := (d.fab.beatNo :: d.fab.lowered.filter (fun b => d.fab.beatNo ≤ b + 2)).eraseDups } }

/-- RATE_UPDATE (R381, R382). Power is in units of 1/4096 mW, so that a rate step is exact. -/
def Dev.rateUpdate (d : Dev) : Dev :=
  let s := d.pwr.samples.headD (0, [])
  let rails := (List.range 6).map (fun k => s.2.getD k 0)
  let budget : Int := (((d.getF rPwrCap fPwrCap_Cap : Int) - d.getF rPwrCap fPwrCap_Margin) * 1000
    - ((s.1 : Int) - (rails.foldl (· + ·) 0 : Nat))) * 4096
  let steps := (List.range 6).map (fun k =>
    match d.sectorPhase k with
    | none => 0
    | some key => d.phaseP key * 10 * d.getF rPwrClk fPwrClk_Cur)
  let holds := (List.range 6).map d.computeHold
  let lims := (List.range 6).map (fun k => d.computeLim k (holds.getD k 1))
  let spend : Int := (((List.range 6).map (fun k => holds.getD k 0 * steps.getD k 0)).foldl (· + ·) 0 : Nat)
  let rs := ratePasses steps lims budget 400 holds spend
  let d := if budget < spend then (d.addF rPwrCapOver fPwrCapOver_Cnt 1).raise pgPwr 8 else d
  (List.range 6).foldl (fun d k =>
    let r0 := rs.getD k 1
    let r := max 1 (min r0 (min (d.thermalLimit k) (d.supplyLimit k)))
    let d := d.putF (rPwrSectMax k) fPwrSectMax_R r
    let d := d.putF (rPwrSectMax k) fPwrSectMax_Hold (holds.getD k 1)
    let d := d.putF (rPwrSectMax k) fPwrSectMax_Reason (d.rateReason k r r0 (lims.getD k 64))
    let held := d.fab.samples.any (fun x => r < x.2)
    let d := if held ∧ d.foldPart (d.sectPart k) then d.lowerBeat else d
    d.noteFloor k r) d

/-! ## Droops and gating (R384, R367) -/

/-- DROOP: the supply of sector k falls `mv` below nominal (R384). -/
def Dev.droop (d : Dev) (k mv : Nat) : Dev :=
  if mv ≤ d.getF rPwrDroop fPwrDroop_Thresh then d
  else
    (d.addF rPwrDroopCnt fPwrDroopCnt_Events 1).onPwr (fun x => { x with drooping := (k :: x.drooping).eraseDups })

/-- DROOP_HOLD_EXPIRY: the hold of sector k ends after `ns`; beyond the allowance in 64 us it was a supply response
(R384). -/
def Dev.droopHoldExpiry (d : Dev) (k ns : Nat) : Dev :=
  if !d.pwr.drooping.contains k then d
  else
    let d := d.onPwr (fun x => { x with
      drooping := x.drooping.filter (· != k)
      droopHolds := (k, d.time, ns) :: x.droopHolds.filter (fun h => d.time < h.2.1 + 64000) })
    let total := ((d.pwr.droopHolds.filter (fun h => h.1 == k)).map (fun h => h.2.2)).foldl (· + ·) 0
    if d.getF rPwrDroop fPwrDroop_Budget < total then
      let d := ((d.addF rPwrDroopCnt fPwrDroopCnt_Over 1).raise pgPwr 0x10).noteCause (d.sectPart k) 5
      d.lowerBeat
    else d

/-- Whether sector k runs nothing: no command, no hen operation, no serving cycle (R367, R368). -/
def Dev.sectorIdle (d : Dev) (k : Nat) : Bool :=
  !thas d.srv.cycles (d.sectPart k) && !d.cq.cmds.any (fun x => x.usesSector k) && !d.henOps.any (fun o => o.tile / 24 == k)

/-- SECTOR_CLOCK_OFF (R367). -/
def Dev.sectorClockOff (d : Dev) (k : Nat) : Dev :=
  let us := d.getF rPwrGate fPwrGate_IdleUs
  if us = 0 ∨ !d.sectorIdle k ∨ d.foldPart (d.sectPart k) ∨ d.time < (tget d.sect {} k).idleSince + 1000 * us then d
  else d.putF (rPwrSectMax k) fPwrSectMax_Gated 1

/-- SECTOR_WAKE (R367). -/
def Dev.sectorWake (d : Dev) (k : Nat) : Dev :=
  (d.modSect k (fun s => { s with idleSince := d.time })).putF (rPwrSectMax k) fPwrSectMax_Gated 0

/-! ## The phase select register (R451) -/

/-- PWR_PHASE_SEL written: CLEAR empties the table; the entry INDEX is copied to PWR_PHASE_DATA. -/
def Dev.writePhaseSel (d : Dev) (v : W64) : Dev :=
  let i := fld v fPwrPhaseSel_Index
  let d := if fld v fPwrPhaseSel_Clear = 1 then d.onPwr (fun x => { x with phases := [] }) else d
  let d := d.setReg rPwrPhaseSel (BitVec.ofNat 64 i)
  match tfind d.pwr.phases i with
  | some e => d.setReg rPwrPhaseData (BitVec.ofNat 64 (e.key + atBit 16 (e.p % 2 ^ 16)))
  | none => d.setReg rPwrPhaseData 0xFFFF

end Sys2Proof.Machine
end

