-- ==== Sys2Proof/Machine/HostGate.lean ====
section
/-! DEFINITION. What happens to a request of the host before any block sees it (15_host_link_and_package.md R426, R432, R435;
14 R402; 11 R323, R324). -/

namespace Sys2Proof.Machine

/-- Whether the sequence of R435 has ended, so that requests are received. -/
def Dev.ready (d : Dev) : Bool := d.getF rHifReset fHifReset_Ready == 1

/-- Whether the device runs recovery boot (R402). -/
def Dev.recoveryBoot (d : Dev) : Bool := d.getF rMgmtStatus fMgmtStatus_BootMode == 1

/-- Whether a function can be addressed: the PF, or a VF that the PF has enabled, not in D3hot (R323, R426). -/
def Dev.fnServes (d : Dev) (f : Nat) : Bool :=
  (f == 0 || (d.hif.vfEnable && f ≤ d.hif.numVfs)) && !(d.fn f).d3

/-- An Unsupported Request: counted, and answered when the request asks for a completion (R426). -/
def Dev.unsupported (d : Dev) (f : Nat) (nonPosted : Bool) : Dev :=
  let d := d.addF rHifUrCnt fHifUrCnt_Cnt 1
  if nonPosted then d.sendOut (.unsupported f) else d

/-- A memory request of function f: not received before the device is ready, an Unsupported Request where the function does
not serve, without effect in recovery boot, where only the DEV and MGMT pages exist (R402), else handled by `k`. -/
def Dev.received (d : Dev) (f : Nat) (nonPosted : Bool) (k : Dev → Dev) : Dev :=
  if !d.ready then d
  else if !d.fnServes f then d.unsupported f nonPosted
  else if d.recoveryBoot then d
  else k d

end Sys2Proof.Machine
end

