-- ==== Sys2Proof/Machine/Library.lean ====
section
/-! DEFINITION. Library images (04_thokel_programs.md R112, R116 to R118; 14 R409): their layout, the form checks, and what the
loader records for each routine. -/

namespace Sys2Proof.Machine

/-! ## Layout (Tables 4-9, 4-10) -/

/-- Bytes of a body: bundles, records, and the handle list padded to 32 bytes. -/
def bodyBytes (bundles records handles : Nat) : Nat := 32 * (bundles + records) + ceilDiv (2 * handles) 32 * 32

def Routine.bytes (r : Routine) : Nat := bodyBytes r.bundles.length r.records.length r.handles.length

/-- `n` words of `w` bytes from a byte string. -/
def wordsAt (bs : List Byte) (off w n : Nat) : List Nat :=
  (List.range n).map (fun i => leNat (byteSlice bs (off + w * i) w))

/-- The routine that header `i` of an image describes, without what the loader records; none where a field of the header or
the digest is wrong. -/
def parseRoutine (img : List Byte) (count i : Nat) : Option Routine :=
  let h := leNat (byteSlice img (64 + 64 * i) 64)
  let f (lo n : Nat) : Nat := h / 2 ^ lo % 2 ^ n
  let nb := f 16 11
  let nr := f 27 6
  let nh := f 33 7
  let off := f 64 32
  let size := bodyBytes nb nr nh
  let body := byteSlice img off size
  if f 0 4 ≠ 1 ∨ nb = 0 ∨ 64 < nh ∨ off % 32 ≠ 0 ∨ off < 64 + 64 * count ∨ img.length < off + size
      ∨ Config.sha384 body ≠ BitVec.ofNat 384 (h / 2 ^ 128) then none
  else some {
    num := f 8 8, rver := f 48 16
    bundles := (wordsAt body 0 32 nb).map (BitVec.ofNat 256)
    records := (wordsAt body (32 * nb) 32 nr).map (BitVec.ofNat 256)
    handles := wordsAt body (32 * (nb + nr)) 2 nh
    closure := [], writeHandles := [], writeArgs := [], closureBytes := f 96 32 }

/-- Every routine of an image, when all parse. -/
def parseRoutines (img : List Byte) (count : Nat) : Option (List Routine) :=
  (List.range count).foldr (fun i acc =>
    match parseRoutine img count i, acc with
    | some r, some rs => some (r :: rs)
    | _, _ => none) (some [])

/-! ## Loop-slot words and nesting (R94, R97, R112) -/

/-- Bits a loop-slot opcode defines, from bit 0 up (Table 4-8); none for an undefined opcode. -/
def loopBits (op : Nat) : Option Nat :=
  match op with
  | 0 => some 6 | 1 => some 48 | 2 => some 20 | 3 => some 6 | 4 => some 51 | 5 => some 6 | 6 => some 12 | 7 => some 19
  | 8 => some 6 | _ => none

/-- Type of a record (R117): 1 increment, 2 argument. -/
def recType (r : BitVec 256) : Nat := bitsOf r 254 2

def Routine.recIs (r : Routine) (i ty : Nat) : Bool :=
  match r.records[i]? with
  | some x => recType x == ty
  | none => false

/-- Whether a handle operand is legal outside argument records (Table 4-3). -/
def operandOk (v : Nat) : Bool := v < 0x1008

/-- One loop-slot word in bundle `b` of routine `r` under the bodies open there (last bundles, innermost first): whether it
is well formed, and the bodies open after it. -/
def Routine.scanWord (r : Routine) (nums : List Nat) (b : Nat) (opens : List Nat) : Bool × List Nat :=
  let w := slotWord (r.bundles.getD b 0) 3
  let opens := opens.dropWhile (· < b)
  let op := opOf w
  match loopBits op with
  | none => (false, opens)
  | some n =>
    if w.toNat / 2 ^ n ≠ 0 then (false, opens)
    else
      match op with
      | 1 =>
        let body := bitsOf w 31 11
        let rec_ := bitsOf w 42 6
        let last := b + body
        (body != 0 && last < r.bundles.length && (opens.isEmpty || last ≤ opens.headD 0)
          && !(bitOf w 6 && bitsOf w 26 5 != 0) && (rec_ == 0x3F || r.recIs rec_ 1), last :: opens)
      | 2 => (nums.contains (bitsOf w 6 8) && (bitsOf w 14 6 == 0x3F || r.recIs (bitsOf w 14 6) 2), opens)
      | 6 => (r.recIs (bitsOf w 6 6) 1, opens)
      | 7 => (operandOk (bitsOf w 6 13), opens)
      | _ => (true, opens)

/-- A call of a routine: the levels open at it, the callee, and its argument record. -/
structure CallSite where
  levels : Nat
  callee : Nat
  arg : Nat
  deriving DecidableEq, Repr

/-- The scan of a routine: whether its loop slots are well formed, its calls, and its deepest nesting. -/
def Routine.scan (r : Routine) (nums : List Nat) : Bool × List CallSite × Nat :=
  let z := (List.range r.bundles.length).foldl
    (fun (acc : Bool × List CallSite × Nat × List Nat) b =>
      let s := r.scanWord nums b acc.2.2.2
      let w := slotWord (r.bundles.getD b 0) 3
      let calls := if opOf w = 2 then acc.2.1 ++ [⟨s.2.length, bitsOf w 6 8, bitsOf w 14 6⟩] else acc.2.1
      (acc.1 && s.1, calls, max acc.2.2.1 s.2.length, s.2)) (true, [], 0, [])
  let last := opOf (slotWord (r.bundles.getD (r.bundles.length - 1) 0) 3)
  (z.1 && (last == 3 || last == 8), z.2.1, z.2.2.1)

/-! ## What the loader records (R118) -/

/-- Operands over every slot of a routine. -/
def Routine.overSlots (r : Routine) (f : Nat → W64 → List Nat) : List Nat :=
  r.bundles.flatMap (fun b => (List.range 4).flatMap (fun s => f s (slotWord b s)))

/-- The operands that a record names. -/
def recordOperands (x : BitVec 256) : List Nat :=
  if recType x = 1 then ((List.range 4).filter (fun j => bitOf x (64 * j + 41))).map (fun j => bitsOf x (64 * j) 13)
  else if recType x = 2 then (List.range 8).map (fun k => bitsOf x (16 * k) 13)
  else []

/-- Whether every direct handle that the routine names is in its handle list. -/
def Routine.listed (r : Routine) : Bool :=
  ((r.overSlots operandsOf ++ r.records.flatMap recordOperands).filter (· < 0x1000)).all (fun h => r.handles.contains h)

/-- A routine of a list by number. -/
def findRoutine (rs : List Routine) (n : Nat) : Option Routine := rs.find? (fun r => r.num == n)

/-- Call depth and open levels of a routine over its call chains; none when a chain is deeper than `fuel` calls. -/
def depthOf (rs : List Routine) (nums : List Nat) : Nat → Nat → Option (Nat × Nat)
  | 0, _ => none
  | fuel + 1, n =>
    match findRoutine rs n with
    | none => none
    | some r =>
      let s := r.scan nums
      s.2.1.foldl (fun acc (c : CallSite) =>
        match acc, depthOf rs nums fuel c.callee with
        | some a, some b => some (max a.1 (b.1 + 1), max a.2 (c.levels + b.2))
        | _, _ => none) (some (0, s.2.2))

/-- The routines that a routine can reach, itself among them (calls nest at most four deep). -/
def reachOf (rs : List Routine) (nums : List Nat) : Nat → List Nat → List Nat
  | 0, seen => seen
  | fuel + 1, seen =>
    reachOf rs nums fuel ((seen ++ seen.flatMap (fun n =>
      match findRoutine rs n with
      | none => []
      | some r => (r.scan nums).2.1.map CallSite.callee)).eraseDups)

/-- Direct handles and argument positions that a routine or anything it calls writes through, in its own terms. -/
def writeSet (rs : List Routine) (nums : List Nat) : Nat → Nat → List Nat
  | 0, _ => []
  | fuel + 1, n =>
    match findRoutine rs n with
    | none => []
    | some r =>
      let own := r.overSlots writesOf
      let called := (r.scan nums).2.1.flatMap (fun (c : CallSite) =>
        (writeSet rs nums fuel c.callee).map (fun v =>
          if v < 0x1000 then v
          else if c.arg = 0x3F then 0x1FFF
          else bitsOf (r.records.getD c.arg 0) (16 * (v - 0x1000)) 13))
      ((own ++ called).filter operandOk).eraseDups

/-- A routine with what the loader records for it. -/
def Routine.loaded (rs : List Routine) (nums : List Nat) (r : Routine) : Routine :=
  let reach := reachOf rs nums 4 [r.num]
  let ws := writeSet rs nums 5 r.num
  { r with
    closure := reach
    writeHandles := ws.filter (· < 0x1000)
    writeArgs := (ws.filter (0x1000 ≤ ·)).map (· - 0x1000) }

/-- The routines of a routine's closure. -/
def closureOf (rs : List Routine) (r : Routine) : List Routine := rs.filter (fun x => r.closure.contains x.num)

/-- Direct handles of a closure. -/
def closureHandles (rs : List Routine) (r : Routine) : List Nat := ((closureOf rs r).flatMap Routine.handles).eraseDups

/-- The routines of an image that meets every form check of R118; none where one fails. -/
def formCheck (img : List Byte) : Option (List Routine) :=
  let h := leNat (img.take 64)
  let count := h / 16 % 512
  if h % 16 ≠ 1 ∨ count = 0 ∨ 256 < count ∨ 2 ^ 20 < img.length then none
  else
    match parseRoutines img count with
    | none => none
    | some rs =>
      let nums := rs.map Routine.num
      let rs' := rs.map (Routine.loaded rs nums)
      let ok := nums.eraseDups.length == nums.length
        && rs'.all (fun r => (r.scan nums).1 && r.listed
          && (match depthOf rs nums 6 r.num with
              | some dl => dl.1 ≤ 4 && dl.2 ≤ 6
              | none => false)
          && ((closureOf rs' r).map Routine.bytes).foldl (· + ·) 0 ≤ 65536
          && (closureHandles rs' r).length ≤ 64)
      if ok then some rs' else none

/-! ## Verification and installation (R118, R119, R409) -/

/-- IMAGE_BYTES of a library header. -/
def imageBytes (hdr : List Byte) : Nat := byteBits hdr 64 32

/-- The highest LIB_VER accepted for a key, 0 with none. -/
def CfgBlock.mark (b : CfgBlock) (key : Nat) : Nat :=
  match b.marks.find? (fun m => m.1 == key) with
  | some m => m.2
  | none => 0

/-- The gander's answer and the loader's on a whole image with its signature block: the status (0 for OK) and the library
(R118). -/
def judgeLibrary (b : CfgBlock) (img : List Byte) : Nat × Option Library :=
  let n := imageBytes img
  let signed_ := img.take n
  let key := byteBits img 16 16
  let ver := byteBits img 32 32
  match (b.keys.find? (fun e => e.2.keyid == key && e.2.valid)).map (·.2) with
  | none => (0x1E, none)
  | some k =>
    if !Config.ecdsaVerifies k.ecdsa signed_ (byteSlice img n 96)
        || !Config.lmsVerifies k.lms signed_ (byteSlice img (n + 96) 1620) then (0x1E, none)
    else if ver < b.mark key then (0x1F, none)
    else
      match formCheck signed_ with
      | none => (0x20, none)
      | some rs => (0, some { keyid := key, libVer := ver, routines := rs, digest := Config.sha384 signed_ })

/-- A library comes into force in every sector of a partition (R119). -/
def Dev.install (d : Dev) (p : Nat) (l : Library) : Dev :=
  (d.sectorsOf p).foldl (fun d k =>
    (((d.dropUnit .routineStore k).modSect k (fun s => { s with lib := some l })).setReg (rSectLibStatus k)
      (BitVec.ofNat 64 (1 + atBit 1 l.routines.length + atBit 10 l.keyid))).setReg (rSectLibVer k)
      (BitVec.ofNat 64 (l.libVer % 2 ^ 32))) d

end Sys2Proof.Machine
end

