-- ==== Sys2Proof/Machine/Queues.lean ====
section
/-! DEFINITION. Command queues: submission, why a head waits, start checks, starts, programs, completion, timeouts and hangs
(05_command_queues.md R129 to R146; 04 R82 to R85, R89, R127; 03 R50, R51, R66, R67, R71; 12 R344, R354, R355). -/

namespace Sys2Proof.Machine

/-! ## Submission (R131 to R133) -/

/-- Free records of a queue's storage (R132). -/
def Dev.credit (d : Dev) (q : Nat) : Nat := 2 ^ d.getF (rCqQCfg q) fCqQCfg_DepthLog2 - (d.waiting q).length

/-- QUEUE_RECORD_WRITE: a posted write in the queue windows is accepted, dropped or rejected; an accepted record may wake the
device (Table 13-5). -/
def Dev.queueWrite (d : Dev) (f off : Nat) (data : List Byte) : Dev :=
  let q := off / 0x1_0000
  let p := d.queuePart q
  if 128 ≤ q then d
  else if data.length ≠ 64 ∨ off % 64 ≠ 0 ∨ !d.queueEn q ∨ d.queueFunc q ≠ f ∨ (p < 6 ∧ d.inReset p) then
    (d.addF (rCqQQrej q) fCqQQrej_Qrej 1).raise (pgCqQ q) (2 ^ (q % 32))
  else
    let r := recOf data
    if d.credit q = 0 then
      ((d.addF (rCqQQovf q) fCqQQovf_Qovf 1).putF (rCqQLastdrop q) fCqQLastdrop_Seq (bitsOf r 32 32)).raise (pgCqQ q) (2 ^ (q % 32))
    else
      let d := d.dropWords .queueStorage q [d.getF (rCqQWcnt q) fCqQWcnt_Wcnt % 1024]
      let d := (d.enqueue q r).rollF (rCqQWcnt q) fCqQWcnt_Wcnt 1
      if bitsOf r 4 8 = 0x21 then d.wakeSource 2
      else if d.getF rPwrWakeEn fPwrWakeEn_Queue = 1 then d.wakeSource 3
      else d

/-! ## Records (Tables 5-1, 5-3) -/

def opcodeOf (r : Rec) : Nat := bitsOf r 4 8

def knownOps : List Nat := [0x00, 0x01, 0x02, 0x03, 0x10, 0x11, 0x12, 0x13, 0x14, 0x20, 0x21, 0x22]

def pfOnlyOps : List Nat := [0x10, 0x11, 0x20, 0x21, 0x22]

/-- The opcode whose row starts a record: its own, and NOP's for a record no command has (log entry 21). -/
def recordRow (r : Rec) : Nat := if knownOps.contains (opcodeOf r) then opcodeOf r else 0

/-- The tile set of RUN_PROGRAM and ADAPT_STEP (R137), ascending. -/
def tileSet (r : Rec) : List Nat :=
  ((List.range 6).filter (fun k => bitOf r (136 + k))).flatMap (fun k =>
    ((List.range 24).filter (fun t => bitOf r (144 + t))).map (fun t => 24 * k + t))

/-! ## DMA channels (R138, R344) -/

/-- Whether channel c of sector k is halted. -/
def Dev.halted (d : Dev) (k c : Nat) : Bool := bitOf (d.reg rRasDmaHalt) (4 * k + c)

/-- The sector in which work on fixed channel `c`, which starts in sector k0 of partition p, runs: the next sector of the
partition whose channel is neither halted nor gone, wrapping (R344). -/
def Dev.fixedChannel (d : Dev) (p k0 c : Nat) : Option Nat :=
  let ks := d.sectorsOf p
  (ks.filter (k0 ≤ ·) ++ ks.filter (· < k0)).find? (fun k => !d.halted k c && !d.unitGone .dma (4 * k + c))

/-- Why no channel `c` of a partition qualifies at a start check: ENGINE_HALTED while any is halted, else ENGINE_INVALID
(R344). -/
def Dev.noChannel (d : Dev) (p c : Nat) : Nat :=
  if (d.sectorsOf p).any (fun k => d.halted k c && !d.unitGone .dma (4 * k + c)) then 0x17 else 0x16

/-- The partition of a MODEL_LOAD, which a device-level queue names in the record (R262). -/
def loadPart (p : Nat) (r : Rec) : Nat := if p = 7 then bitsOf r 133 3 else p

/-- The DMA channel a head needs, as a unit index 4k + c. -/
def Dev.channelOf (d : Dev) (p : Nat) (r : Rec) : Option Nat :=
  match opcodeOf r with
  | 0x02 => some (4 * bitsOf r 160 3 + bitsOf r 163 2)
  | 0x10 => let p := loadPart p r; (d.fixedChannel p (d.liveSect p) 3).map (fun k => 4 * k + 3)
  | 0x12 => (d.fixedChannel p (d.liveSect p) 3).map (fun k => 4 * k + 3)
  | _ => none

/-- Whether a started command uses a unit. -/
def Cmd.uses (x : Cmd) (u : UnitId) : Bool :=
  x.engines.contains u || (u.kind == .tile && x.tiles.contains u.index)

/-- Argument Ai of a record. -/
def argOf (r : Rec) (i : Nat) : Nat := bitsOf r (192 + 13 * i) 13

/-- The direct handles that a record binds. -/
def argHandles (r : Rec) : List Nat := ((List.range 8).map (argOf r)).filter (· < 0x1000)

/-- The handles and the write set of a program command (R84 step 2). -/
def Dev.programHandles (d : Dev) (p : Nat) (r : Rec) : List Nat × List Nat :=
  let k := d.liveSect p
  match d.routineOf k (bitsOf r 128 8), (tget d.sect {} k).lib with
  | some e, some l =>
    (argHandles r ++ closureHandles l.routines e,
     e.writeHandles ++ (e.writeArgs.map (argOf r)).filter (· < 0x1000))
  | _, _ => ([], [])

/-! ## Descriptors of a command (R47, R50, R51, R66, R67, R71, R89, R343) -/

/-- The command processor of a context: it reads and writes through the buffer of its sector (R153). -/
def Dev.cpOf (d : Dev) (p c : Nat) : Engine := { src := 3, sect := if p < 6 then d.liveSect p else 6, part := p, ctx := c }

/-- The virtual address of an entry of the descriptor table. -/
def Dev.descVa (d : Dev) (e : Engine) (h : Nat) : Nat :=
  d.getF (rSectDtabBase (d.liveSect e.part) e.ctx) fSectDtabBase_Base * 65536 + 64 * h

/-- One entry of the descriptor table. -/
def Dev.readDesc (d : Dev) (e : Engine) (h : Nat) : Dev × Except Fail Rec :=
  match d.readVa e 0 (d.descVa e h) 64 with
  | (d, .error f) => (d, .error ⟨f.1, h, f.2⟩)
  | (d, .ok bs) => (d, .ok (recOf bs))

/-- What the table gave: descriptors read, and the failures of those that could not be read. -/
abbrev Latched := Tab Rec × Tab Fail

/-- Descriptors read in the order given, added to those already read. -/
def Dev.readDescs (e : Engine) : Dev → Latched → List Nat → Dev × Latched
  | d, t, [] => (d, t)
  | d, t, h :: hs =>
    match d.readDesc e h with
    | (d, .error f) => Dev.readDescs e d (t.1, tset t.2 h f) hs
    | (d, .ok r) => Dev.readDescs e d (tset t.1 h r, t.2) hs

/-- The list and scale descriptors that a set of descriptors names. -/
def alsoNamed (t : Tab Rec) : List Nat :=
  (t.flatMap (fun e =>
    let x := descOf e.2
    if x.version ≠ 1 then []
    else (if x.listEn then [x.listHandle] else []) ++ (if x.scaleEn then [x.scaleHandle] else []))).eraseDups

/-- Numbers in rising order without repeats. -/
def ascending (xs : List Nat) : List Nat := (xs.foldl (fun (t : Tab Unit) x => tset t x ()) []).map (·.1)

/-- Every descriptor that a set of handles uses (R47), with what could not be read. -/
def Dev.latchAll (d : Dev) (e : Engine) (hs : List Nat) : Dev × Latched :=
  let (d, t) := Dev.readDescs e d ([], []) (ascending hs)
  Dev.readDescs e d t ((ascending (alsoNamed t.1)).filter (fun h => !thas t.1 h && !thas t.2 h))

/-- The descriptors that a set of handles uses, or the failure of the lowest handle that could not be read (R89). -/
def Dev.latchDescs (d : Dev) (e : Engine) (hs : List Nat) : Dev × Except Fail (Tab Rec) :=
  let (d, t) := d.latchAll e hs
  match t.2 with
  | [] => (d, .ok t.1)
  | f :: _ => (d, .error f.2)

/-- The first `n` entries of the list of descriptor `h`, read in one pass (R66). -/
def Dev.readList (d : Dev) (rc : Reach) (h n : Nat) : Dev × Except Fail (List Nat) :=
  let z := (List.range n).foldl (fun (acc : StepRead × Except Fail (List Nat)) i =>
    match acc with
    | (r, .error f) => (r, .error f)
    | (r, .ok xs) =>
      match r.listEntry rc h i with
      | (r, .error f) => (r, .error f)
      | (r, .ok x) => (r, .ok (xs ++ [x]))) ({ dev := d }, .ok [])
  (z.1.dev, z.2)

/-- The scatter lists of listed write descriptors, by handle; or what is wrong with them: one that cannot be read, or entries that
name one block under FAULT (R66, R67). -/
def Dev.scanLists (rc : Reach) : Dev → Tab (List Nat) → List Nat → Dev × Except Fail (Tab (List Nat))
  | d, t, [] => (d, .ok t)
  | d, t, h :: hs =>
    let x := rc.desc h
    match d.readList rc h (rc.listLen x) with
    | (d, .error f) => (d, .error f)
    | (d, .ok es) =>
      let blocks := es.filter (fun b => b < x.grid.foldl (· * ·) 1)
      if x.collide = 0 ∧ blocks.eraseDups.length ≠ blocks.length then (d, .error ⟨0x1C, 0, 0⟩)
      else Dev.scanLists rc d (tset t h es) hs

/-- The scatter lists of the write descriptors, or what is wrong: a plain descriptor that may collide under FAULT (R71); then, the
lists scanned, what is wrong with those (R51). -/
def Dev.checkWrites (rc : Reach) (d : Dev) (hs : List Nat) : Dev × Except Fail (Tab (List Nat)) :=
  if hs.any (fun h => !(rc.desc h).listEn && (rc.desc h).collide == 0 && !(rc.desc h).injective) then
    (d, .error ⟨0x1C, 0, 0⟩)
  else Dev.scanLists rc d [] (hs.filter (fun h => (rc.desc h).listEn))

/-- The descriptors of a command read, once, and validated: what fails it, the first failing handle in ascending order (R50, R51,
R89), then what `extra` finds before any list is read (R75); or the reach of its engines, with descriptors and scatter lists
(R47, R66, R84 step 2). -/
def Dev.validate (d : Dev) (e : Engine) (hs writes : List Nat) (extra : Reach → Option Fail := fun _ => none) :
    Dev × Except Fail Reach :=
  let (d, t) := d.latchAll e hs
  let rc : Reach := { eng := e, descs := t.1 }
  match (ascending (t.1.map (·.1) ++ t.2.map (·.1))).find? (fun h => thas t.2 h || rc.bad h (writes.contains h)) with
  | some h => (d, .error (tget t.2 ⟨0x1B, h, 0⟩ h))
  | none =>
    match extra rc with
    | some f => (d, .error f)
    | none =>
      match Dev.checkWrites rc d (ascending writes) with
      | (d, .error f) => (d, .error f)
      | (d, .ok ls) => (d, .ok { rc with lists := ls })

/-- Granules of host memory that a head reads before it starts (R89, R176): entries of the descriptor table, then those of the
lists and scales they name, then the lists of the handles `whole`; what comes first is needed first. -/
def Dev.startNeeds (d : Dev) (q : Nat) (e : Engine) (hs whole : List Nat) : List HostGran :=
  let table (hs : List Nat) : List HostGran := hs.filterMap (fun h =>
    match (d.xlate e 0 (d.descVa e h) false).2 with
    | .ok l => hostGran h (d.descVa e h) l
    | .error _ => none)
  let lacks (gs : List HostGran) : Bool := gs.any (fun g => !(d.fetchedAt q).got.contains g.addr)
  if lacks (table hs) then table hs
  else
    let t := (d.latchAll e hs).2.1
    if lacks (table (alsoNamed t)) then table (alsoNamed t)
    else
      let rc : Reach := { eng := e, descs := t }
      whole.flatMap (fun h => if (rc.desc h).listEn && !rc.bad h false then d.entryGrans rc h (List.range (rc.listLen (rc.desc h))) else [])

/-- The DMA channel of a COPY as an engine: it writes through the buffer of its sector. -/
def dmaOf (p c k : Nat) : Engine := { src := 2, sect := k, part := p, ctx := c }

def copySrc (r : Rec) : Nat := bitsOf r 128 12
def copyDst (r : Rec) : Nat := bitsOf r 144 12

/-- Whether the spans of two descriptors share a virtual byte (R76). -/
def overlaps (a b : Desc) : Bool := a.spanLo ≤ b.spanHi && b.spanLo ≤ a.spanHi

/-- Whether two descriptors have identical layout (R77); SIZE and STRIDE beyond RANK are ignored (R48), but
STRIDE0 of E2M1 views is compared (a DESIGN CHOICE, log entry 73). -/
def sameLayout (a b : Desc) : Bool :=
  a.elem == b.elem && a.rank == b.rank && a.size.take a.rank == b.size.take b.rank && a.stride.take a.rank == b.stride.take b.rank
    && [a, b].all (fun x => x.winCount == 0 && !x.listEn && !x.scaleEn && x.injective)

/-- Bytes of a copy's footprint: source elements times e (R76). -/
def Reach.copyBytes (rc : Reach) (h : Nat) : Nat := rc.count h * elemBits (rc.desc h).elem / 8

/-- Whether a copy passes through the staging region (R77, R78). -/
def Reach.staged (rc : Reach) (r : Rec) : Bool :=
  let a := rc.desc (copySrc r)
  let b := rc.desc (copyDst r)
  overlaps a b && !sameLayout a b

/-! ## The staging region (R76 to R79) -/

/-- The 4 KiB pages of a descriptor's span. -/
def Desc.pages (x : Desc) : List Nat :=
  (List.range ((x.spanHi - x.spanLo).toNat / 4096 + 2)).map (fun i => x.spanLo.toNat / 4096 * 4096 + 4096 * i)

/-- Whether descriptors reach the upper 8 MiB of sector k's SRAM. -/
def Dev.touchesStaging (d : Dev) (rc : Reach) (k : Nat) : Bool :=
  rc.descs.any (fun e =>
    let x := descOf e.2
    x.pages.any (fun va =>
      match (d.xlate rc.eng x.pkey va false).2 with
      | .ok l => locSram k 0x80_0000 ≤ l && l < locSram (k + 1) 0
      | .error _ => false))

/-- The sector of a COPY (Table 5-5). -/
def copySect (r : Rec) : Nat := bitsOf r 160 3

/-- Whether a started command is a staged COPY of sector k. -/
def Cmd.stages (x : Cmd) (k : Nat) : Bool := x.opcode == 0x02 && x.slot == 1 && copySect x.word == k

/-- Whether a program about to start is held back by a staged copy of one of its sectors. -/
def Dev.heldByStaging (d : Dev) (p : Nat) (r : Rec) : Bool :=
  let ks := ((tileSet r).map (· / 24)).eraseDups
  ks.any (fun k => d.cq.cmds.any (fun x => x.stages k)
    && (match (d.latchDescs (d.cpOf p (bitsOf r 88 4)) (d.programHandles p r).1).2 with
        | .error _ => false
        | .ok t => d.touchesStaging
            { eng := { src := 1, sect := k, tile := 24 * k, part := p, ctx := bitsOf r 88 4 }, descs := t } k))

/-- How a tile of a started command reaches memory, as far as its descriptors say. -/
def Cmd.tileReach (x : Cmd) (t : Nat) : Reach :=
  { eng := { src := 1, sect := t / 24, tile := t, part := x.part, ctx := x.ctx }, descs := x.descs }

/-- Whether a record is a COPY that passes through the staging region. -/
def Dev.stagedHead (d : Dev) (p : Nat) (r : Rec) : Bool :=
  opcodeOf r == 0x02 && (match (d.latchDescs (d.cpOf p (bitsOf r 88 4)) [copySrc r, copyDst r]).2 with
    | .error _ => false
    | .ok t => ({ eng := d.cpOf p (bitsOf r 88 4), descs := t } : Reach).staged r)

/-- Whether the head of a queue, a COPY, is staged and must wait for the region: another staged copy runs in its sector, or a
running command uses the region (R79). -/
def Dev.copyWaits (d : Dev) (p : Nat) (r : Rec) : Bool :=
  let k := copySect r
  d.stagedHead p r && d.cq.cmds.any (fun x => x.stages k || x.tiles.any (fun t => t / 24 == k && d.touchesStaging (x.tileReach t) k))

/-- Whether the region holds a head back (R79). -/
def Dev.stagingWaits (d : Dev) (p : Nat) (r : Rec) : Bool :=
  if opcodeOf r = 0x02 then d.copyWaits p r
  else if opcodeOf r = 0x01 ∨ opcodeOf r = 0x14 then d.heldByStaging p r
  else false


/-! ## Why a head waits (R140, R119, R320, R321, R350, R361, R371, R374) -/

/-- Whether partition p serves (R321). -/
def Dev.serves (d : Dev) (p : Nat) : Bool := d.getF (rSrvAdmCtrl p) fSrvAdmCtrl_En == 1 || d.liveCount p != 0

/-- Whether a context is trapped (R127). -/
def Dev.trapped (d : Dev) (p c : Nat) : Bool := d.getF (rSectCtxState (d.liveSect p) c) fSectCtxState_Trapped == 1

/-- Whether commands that run tiles must wait: the partition serves, a tile of the set runs a command, a library is being
copied, or a running ADAPT_STEP holds the version. -/
def Dev.tilesBusy (d : Dev) (p : Nat) (r : Rec) : Bool :=
  d.serves p
    || d.cq.cmds.any (fun x => x.tiles.any (fun t => (tileSet r).contains t))
    || d.cq.cmds.any (fun x => x.part == p && x.opcode == 0x03)
    || (opcodeOf r == 0x14 && d.cq.cmds.any (fun x => x.part == p && x.opcode == 0x14
          && bitsOf x.word 296 12 == bitsOf r 296 12))

/-- Whether a PAGE_RETIRE must wait: a running command uses the unit, or the stack is in a reset's retraining. -/
def Dev.retireWaits (d : Dev) (r : Rec) : Bool :=
  let s := bitsOf r 128 3
  let u := bitsOf r 176 8
  if s = 4 then d.cq.cmds.any (fun x => x.uses ⟨.tile, u⟩)
  else if s = 5 then d.cq.cmds.any (fun x => x.uses ⟨.dma, u⟩)
  else if s ≤ 3 ∧ bitsOf r 136 40 < stackTop then
    let n := stackOf (bitsOf r 136 40)
    d.getF (rCsState n) fCsState_Training == 1
  else false

/-- Whether a started ADAPT_STEP of partition p trains version v. -/
def Dev.training (d : Dev) (p v : Nat) : Bool :=
  d.cq.cmds.any (fun x => x.part == p && x.opcode == 0x14 && bitsOf x.word 296 12 == v)

/-- Whether the engines of a head are busy; a FREEZE or DELTA_RETIRE of a version under an ADAPT_STEP waits alike (R270). -/
def Dev.enginesBusy (d : Dev) (p : Nat) (r : Rec) : Bool :=
  let op := opcodeOf r
  if op = 0x01 ∨ op = 0x14 then p < 6 && d.tilesBusy p r
  else if op = 0x13 then d.training p (bitsOf r 128 12)
  else if op = 0x12 ∧ bitsOf r 144 2 = 2 then d.training p (bitsOf r 128 12)
  else if op = 0x20 then d.retireWaits r
  else
    match d.channelOf p r with
    | some c => d.cq.cmds.any (fun x => x.uses ⟨.dma, c⟩)
    | none => false

/-- Whether the device's state lets the head of a queue start (R371, R374; log entry 22). -/
def Dev.startsNow (d : Dev) (p : Nat) (r : Rec) : Bool :=
  d.pstate == 0 || (p == 7 && d.pstate == 5 && opcodeOf r == 0x21)

/-- The reasons for which the head of queue q waits, as CQ_Q_STATE.WAIT codes them, except the turn of staged copies: a head
outside its slice shows that first (R320); a head of a trapped context waits for no engine (R141). -/
def Dev.ownReasons (d : Dev) (q : Nat) (r : Rec) : List Nat :=
  let p := d.queuePart q
  let c := bitsOf r 88 4
  if p < 6 ∧ d.inReset p then [5]
  else
    (if p < 6 && !d.admits p c then [3] else [])
      ++ (if !d.startsNow p r || ((d.enginesBusy p r || d.stagingWaits p r) && !(p < 6 && d.trapped p c)) then [1] else [])
      ++ (if bitOf r 16 && d.cq.cmds.any (fun x => x.queue == q && !x.serving) then [2] else [])
      ++ (if d.entriesOf p ≤ d.entriesUsed p then [4] else [])

/-- Whether a staged copy at the head of another queue, submitted earlier, is to have the region of its sector first (R79). -/
def Dev.behindStaged (d : Dev) (q : Nat) (r : Rec) : Bool :=
  let p := d.queuePart q
  d.stagedHead p r && (List.range 128).any (fun q' =>
    match d.waiting q' with
    | [] => false
    | r' :: _ => d.headStamp q' < d.headStamp q && d.queuePart q' == p && copySect r' == copySect r && d.stagedHead p r'
        && !d.trapped p (bitsOf r' 88 4) && (d.ownReasons q' r').isEmpty)

/-- The reasons for which the head of queue q waits, as CQ_Q_STATE.WAIT codes them. -/
def Dev.waitReasons (d : Dev) (q : Nat) (r : Rec) : List Nat :=
  let ws := d.ownReasons q r
  if ws.isEmpty && d.behindStaged q r && !d.trapped (d.queuePart q) (bitsOf r 88 4) then [1] else ws

/-- CQ_Q_STATE.WAIT: the first of the reasons. -/
def Dev.waitCode (d : Dev) (q : Nat) : Nat :=
  match d.waiting q with
  | [] => 0
  | r :: _ => (d.waitReasons q r).headD 0

/-- Whether a BAR4 write of a queue's function that arrived before its head was submitted still waits at a controller (R160). -/
def Dev.bar4Before (d : Dev) (q : Nat) : Bool :=
  let earlier (a : Access) : Bool := a.func == d.queueFunc q && a.data.isSome && a.stamp ≤ d.headStamp q
  d.hif.bar4.any earlier || d.cs.any (fun e => e.2.accQ.any (fun z => z.2.any earlier))

/-- How far queue q stands from the queue number at which its partition's round robin is (R140). -/
def Dev.turnsAway (d : Dev) (q : Nat) : Nat := (q + 128 - tget d.cq.turns 0 (d.queuePart q) % 128) % 128

/-- Whether the start is another queue's: of the queues of its partition whose heads can start, one comes before queue q in the
round robin (R140). A head whose reads of host memory are out, and a fold command that waits for its period, cannot start. -/
def Dev.outOfTurn (d : Dev) (q : Nat) : Bool :=
  d.cq.storage.any (fun e =>
    match e.2 with
    | [] => false
    | r :: _ => d.queuePart e.1 == d.queuePart q && d.turnsAway e.1 < d.turnsAway q && !thas d.cq.checked e.1
        && !thas d.cq.fetched e.1 && (d.waitReasons e.1 r).isEmpty && !d.bar4Before e.1)

/-! ## Start checks and starts (R141) -/

/-- The checks of the record itself, codes 0x10 to 0x14 (Table 5-6, R136, R318, R319). -/
def Dev.recordCheck (d : Dev) (q : Nat) (r : Rec) : Nat :=
  let p := d.queuePart q
  let f := d.queueFunc q
  let op := opcodeOf r
  let c := bitsOf r 88 4
  if bitsOf r 0 4 ≠ 1 then 0x10
  else if !knownOps.contains op then 0x11
  else if (p = 7 ∧ !(op = 0 ∨ pfOnlyOps.contains op)) ∨ (f ≠ 0 ∧ pfOnlyOps.contains op) then 0x12
  else if p = 7 then 0
  else if !d.ctxEn p c ∨ d.ctxFunc p c ≠ f then 0x13
  else if d.trapped p c then 0x14
  else 0

/-- The command a record becomes. -/
def Dev.mkCmd (d : Dev) (q : Nat) (r : Rec) : Cmd :=
  { id := d.cq.nextId, queue := q, part := d.queuePart q, func := d.queueFunc q, word := r, start := d.time,
    sums := d.pwr.sums }

/-- A command takes its completion entry and its engines; the sectors it uses are clocked (R142, R367). -/
def Dev.begin_ (d : Dev) (x : Cmd) : Dev :=
  let d := { d with cq := { d.cq with cmds := d.cq.cmds ++ [x], nextId := max d.cq.nextId (x.id + 1) } }
  ((List.range 6).filter (fun k => x.usesSector k)).foldl (fun d k => d.sectorWake k) d

/-- A command that fails a start check completes without running (R141). -/
def Dev.refuseStart (d : Dev) (x : Cmd) (status handle vaddr detail : Nat) : Dev :=
  d.finishRecord x.queue x.part x.word (BitVec.ofNat 8 status) 0 handle vaddr detail

/-- A head that fails a start check leaves its queue and completes without running (R141). -/
def Dev.refuseHead (d : Dev) (x : Cmd) (status handle vaddr detail : Nat) : Dev :=
  (d.popHead x.queue).refuseStart x status handle vaddr detail

/-- A head starts: its record leaves queue storage, and its engines begin (R141). -/
def Dev.startHead (d : Dev) (x : Cmd) : Dev := (d.popHead x.queue).begin_ x

/-- Whether the head of queue q is a command of row `op` whose turn has come: it waits for nothing, no other queue
comes before it (R140, R160), and it is not a fold command that has passed its checks already (R302). -/
def Dev.headReady (d : Dev) (q op : Nat) : Bool :=
  match d.waiting q with
  | [] => false
  | r :: _ => recordRow r == op && (d.waitReasons q r).isEmpty && !d.bar4Before q && !d.outOfTurn q
      && !thas d.cq.checked q

/-- The turn of the head of queue q, when it is a command of row `op`: nothing while it waits, or while what `needs` names of
host memory has not come (log entry 77); the command where the checks of its record pass, else it completes by the first that
fails (R141). -/
def Dev.turn (d : Dev) (q op : Nat) (needs : Dev → Cmd → List HostGran := fun _ _ => []) : Dev × Option Cmd :=
  match d.waiting q with
  | [] => (d, none)
  | r :: _ =>
    if !d.headReady q op then (d, none)
    else
      let (d, ue) := d.readWord .queueStorage q (d.getF (rCqQScnt q) fCqQScnt_Scnt % 1024)
      let x := d.mkCmd q r
      if ue then (d.refuseHead { x with word := 0 } 0x60 0 0 0, none)
      else
        let s := d.recordCheck q r
        if s ≠ 0 then (d.refuseHead x s 0 0 0, none)
        else
          let gs := needs d x
          if gs.isEmpty then (d, some x)
          else
            match d.awaitGrans q x.func gs with
            | (d, .error f) => ((d.dropHeadReads q).refuseHead x 0x33 f.1 f.2 0, none)
            | (d, .ok false) => (d, none)
            | (d, .ok true) => (d, some x)

/-- The head of queue q at its turn: its record leaves storage, and its command goes on as `run` says. -/
def Dev.takeHead (d : Dev) (q op : Nat) (run : Dev → Cmd → Dev) : Dev :=
  match d.turn q op with
  | (d, none) => d
  | (d, some x) => run (d.popHead q) x

/-- NOP (R136). -/
def Dev.nop (d : Dev) (q : Nat) : Dev := d.takeHead q 0 (fun d x => d.refuseStart x 0 0 0 0)

/-! ## RUN_PROGRAM and ADAPT_STEP (R82 to R85, R137, R217, R303) -/

/-- The count that a selector of Table 8-4 takes from an entry. -/
def countOf (e : Entry) (i sel : Nat) : Nat :=
  match sel with
  | 0 => e.pos | 1 => e.gen | 2 => e.plen | 3 => e.glen | 4 => e.glen - e.gen | 5 => e.colt
  | 6 => e.lastToken.toNat | 7 => i | _ => e.home

/-- Whether an entry may supply counts to a command of a partition (R217). -/
def Dev.suppliesCounts (d : Dev) (p i : Nat) : Bool :=
  let e := tget d.srv.entries {} i
  e.part == p && (e.state == .prefill || e.state == .decode || e.state == .held)

/-- Start checks of a program command, codes 0x15 to 0x1A. -/
def Dev.programCheck (d : Dev) (p : Nat) (r : Rec) : Nat :=
  let ts := tileSet r
  if (List.range 8).any (fun i => 0xFFF < argOf r i && argOf r i != 0x1FFF)
      || (List.range 8).any (fun i => bitOf r (168 + i) && 8 < bitsOf r (320 + 24 * i) 6) then 0x15
  else if ts.isEmpty || ts.any (fun t => d.sectPart (t / 24) != p || d.unitGone .tile t) then 0x18
  else if (d.routineOf (d.liveSect p) (bitsOf r 128 8)).isNone then 0x19
  else if bitsOf r 168 8 ≠ 0 ∧ !d.suppliesCounts p (bitsOf r 176 14) then 0x1A
  else 0

/-- The runtime counts of a record (R85, R137), modulo 2^24; a replay keeps those it had (R356). -/
def Dev.latchCounts (d : Dev) (r : Rec) : List Nat :=
  let i := bitsOf r 176 14
  let e := tget d.srv.entries {} i
  (List.range 8).map (fun k =>
    let v := bitsOf r (320 + 24 * k) 24
    if bitOf r (168 + k) then countOf e i (v % 64) % 2 ^ 24 else v)

/-- The words of a closure in the routine store, by which its upsets are named: those of its bodies (R84, R116). -/
def closureWords (l : Library) (e : Routine) : List Nat :=
  (closureOf l.routines e).flatMap (fun r => (List.range (ceilDiv r.bytes 8)).map (slotNumber r.num 0 0 + ·))

/-- The copy of the closure out of the routine store of every sector: whether a word was uncorrectable (R84 step 3). -/
def Dev.copyClosure (d : Dev) (r : Rec) (ks : List Nat) : Dev × Bool :=
  if d.upsets.isEmpty then (d, false)
  else ks.foldl (fun (acc : Dev × Bool) k =>
    match acc.1.routineOf k (bitsOf r 128 8), (tget acc.1.sect {} k).lib with
    | some e, some l =>
      let (d, b) := acc.1.readWords .routineStore k (closureWords l e)
      (d, acc.2 || b)
    | _, _ => acc) (d, false)

/-- Every atomic slot of a tile holds zero (R165). -/
def Dev.zeroSlots (d : Dev) (t : Nat) : Dev := { d with slots := d.slots.clear (t * 4096) ((t + 1) * 4096) }

/-- The registers and the instruction buffer of a tile are written: what stood in their words ends (R338). -/
def Dev.settleTile (d : Dev) (t : Nat) : Dev :=
  if d.upsets.isEmpty then d
  else (((d.dropUnit .vreg t).dropUnit .accumulator t).dropUnit .descReg t).dropUnit .instrBuffer t

/-- The tiles of a command as they start (Table 4-1), their atomic slots zero (R165). -/
def Dev.startTiles (d : Dev) (x : Cmd) : Dev :=
  let args := (List.range 8).map (fun i => BitVec.ofNat 13 (argOf x.word i))
  (x.tiles.zip (List.range x.tiles.length)).foldl (fun d tr =>
    ((d.settleTile tr.1).zeroSlots tr.1).modTile tr.1 (fun _ => { cmd := some x.id, rank := tr.2, nt := x.tiles.length, routine := bitsOf x.word 128 8, args := args })) d

/-- Whether DVER of an ADAPT_STEP is a TRAIN version of a READY slot of the partition (R273). -/
def Dev.trains (d : Dev) (p : Nat) (r : Rec) : Bool :=
  let v := d.version (bitsOf r 296 12)
  v.state == .train && d.slotState v.slot == 2 && d.getF (rSrvSlotCfg v.slot) fSrvSlotCfg_Part == p

/-- The range of its own TRAIN version that an ADAPT_STEP may write (R272). -/
def Dev.trainRange (d : Dev) (r : Rec) : Nat × Nat :=
  if opcodeOf r = 0x14 then
    let v := d.version (bitsOf r 296 12)
    (v.base, v.base + v.bytes)
  else (0, 0)

/-- What the last start check of a program command finds, after its descriptors (R273, R275). -/
def Dev.lateCheck (d : Dev) (p : Nat) (r : Rec) : Bool := opcodeOf r == 0x14 && !d.trains p r

/-- The descriptors of a program command read and checked, with the last of its start checks: what fails it, or the command with
what it latched (R47, R66, R84 step 2). -/
def Dev.checkProgram (d : Dev) (x : Cmd) : Dev × Except Fail Cmd :=
  let hw := d.programHandles x.part x.word
  match d.validate (d.cpOf x.part x.ctx) hw.1 hw.2 with
  | (d, .error f) => (d, .error f)
  | (d, .ok rc) =>
    if d.lateCheck x.part x.word then (d, .error ⟨0x44, 0, 0⟩)
    else (d, .ok { x with descs := rc.descs, lists := rc.lists })

/-- A checked program command takes its entry and its tiles; `begun` says that it already holds its entry (a replay). -/
def Dev.takeTiles (d : Dev) (x : Cmd) (begun : Bool) : Dev :=
  let x := { x with tiles := tileSet x.word, phase := .running, start := d.time, bypass := d.trainRange x.word }
  if begun then d.modCmd x.id (fun _ => x) else d.startHead x

/-- Step 1 of R84: the runtime counts are latched; `true` when the entry that supplies them is uncorrectable. -/
def Dev.latchStart (d : Dev) (x : Cmd) (begun : Bool) : Dev × Cmd × Bool :=
  let (d, bad) := if bitsOf x.word 168 8 = 0 || begun then (d, false) else d.readWord .reqTable (bitsOf x.word 176 14) 0
  (d, { x with rc := if begun then x.rc else d.latchCounts x.word, serial := [], olds := [] }, bad)

/-- Steps 3 to 5 of R84: the closure is copied into the tiles, whose state is set, and issue begins. -/
def Dev.runTiles (d : Dev) (x : Cmd) : Dev :=
  let ts := tileSet x.word
  let (d, ue) := d.copyClosure x.word ((ts.map (· / 24)).eraseDups)
  if ue then d.fetchTrap x (ts.headD 0) (bitsOf x.word 128 8) 0x7FF else d.startTiles { x with tiles := ts }

/-- The start of a program command (R84), checked or, when `checked`, as it was checked at its turn (R302). An uncorrectable
request-table word resets the partition (R339). -/
def Dev.launch (d : Dev) (x : Cmd) (checked begun : Bool) : Dev :=
  let (d, x, bad) := d.latchStart x begun
  if bad then (d.takeTiles x begun).recover x.part 2
  else if checked then (d.takeTiles x begun).runTiles x
  else
    match d.checkProgram x with
    | (d, .error f) => if begun then d.failCmd x.id f.status f.handle f.vaddr else d.refuseHead x f.status f.handle f.vaddr 0
    | (d, .ok x) => (d.takeTiles x begun).runTiles x

/-- Whether the job of a partition is stopped (R303, R310). -/
def Dev.jobStopped (d : Dev) (p : Nat) : Bool := d.foldPart p && d.stoppedJob (d.jobOf p)

/-- A program command that passed the checks of its record: a fold command, once its descriptors have passed theirs, waits at the
head of its queue for its period; any other starts (R302, R303). -/
def Dev.enterProgram (d : Dev) (x : Cmd) : Dev :=
  if !d.foldPart x.part then d.launch x false false
  else
    match d.checkProgram x with
    | (d, .error f) => d.refuseHead x f.status f.handle f.vaddr 0
    | (d, .ok x) =>
      if d.jobStopped x.part then d.refuseHead x 0x55 0 0 0
      else { d with cq := { d.cq with checked := tset d.cq.checked x.queue { x with fold := true } } }

/-- A program command at the head of queue q: its record's checks by `check`, then its descriptors. -/
def Dev.programTurn (d : Dev) (q op : Nat) (check : Dev → Cmd → Nat) : Dev :=
  let needs (d : Dev) (x : Cmd) : List HostGran :=
    if check d x ≠ 0 then []
    else
      let hw := d.programHandles x.part x.word
      d.startNeeds q (d.cpOf x.part x.ctx) (ascending hw.1) (ascending hw.2)
  match d.turn q op needs with
  | (d, none) => d
  | (d, some x) =>
    let s := check d x
    if s ≠ 0 then d.refuseHead x s 0 0 0 else d.enterProgram x

/-- RUN_PROGRAM (R84, R141). -/
def Dev.runProgram (d : Dev) (q : Nat) : Dev := d.programTurn q 0x01 (fun d x => d.programCheck x.part x.word)

/-! ## LIB_LOAD (R118, R119, R139) -/

/-- Granules of host memory among `n` bytes at a virtual address: (virtual address, bus address). -/
def Dev.hostPieces (d : Dev) (e : Engine) (pkey va n : Nat) : List (Nat × Nat) :=
  ((cutGrans (n + 1) va (zeros n)).filterMap (fun piece =>
    match d.xlate e pkey piece.1 false with
    | (_, .ok l) => if isHost l then some (piece.1, granOf (l - 2 ^ 51)) else none
    | _ => none))

/-- Host granules of a span are asked for on behalf of a command (R427, R428). -/
def Dev.askHost (d : Dev) (c func handle : Nat) (ps : List (Nat × Nat)) : Dev :=
  ps.foldl (fun d g => d.sendRead (some c)
    { func := func, addr := g.2, len := 64, purpose := .cmd c, vaddr := g.1, handle := handle, sentAt := 0 }) d

/-- LIB_LOAD starts: the header of its image is asked for, where it lies in host memory. -/
def Dev.libLoad (d : Dev) (q : Nat) : Dev :=
  d.takeHead q 0x03 (fun d x =>
    let va := bitsOf x.word 128 48
    if va % 64 ≠ 0 then d.refuseStart x 0x15 0 0 0
    else
      let d := d.begin_ { x with phase := .waiting }
      d.askHost x.id x.func 0 (d.hostPieces (d.cpOf x.part x.ctx) (bitsOf x.word 176 8) va 64))

/-- Whether a LIB_LOAD still waits: for a program of its partition that started before it, or for host reads. -/
def Dev.libWaits (d : Dev) (x : Cmd) : Bool :=
  d.cq.cmds.any (fun y => y.part == x.part && y.id < x.id && (y.opcode == 0x01 || y.opcode == 0x14))
    || d.hif.reads.any (fun r => r.purpose == .cmd x.id)

/-- Host granules of the rest of an image, once its header has come. -/
def Dev.libRest (d : Dev) (x : Cmd) : List (Nat × Nat) :=
  let va := bitsOf x.word 128 48
  let pkey := bitsOf x.word 176 8
  match (d.readVa (d.cpOf x.part x.ctx) pkey va 64).2 with
  | .error _ => []
  | .ok h => d.hostPieces (d.cpOf x.part x.ctx) pkey (va + 64) (imageBytes h + 1716 - 64)

/-- LIB_LOAD_VERIFY: the image is read, verified and put in force, or the load ends with what it failed (R118, R119); where
the high-water mark rises, the load waits for that configuration write (R409). The gander serves one request at a time, so
a configuration write that waits comes first (R407). Where
the image lies in host memory, the reads of what follows its header go out first. -/
def Dev.libLoadVerify (d : Dev) (c : Nat) : Dev :=
  match d.cmd? c with
  | none => d
  | some x =>
    if x.opcode ≠ 0x03 ∨ x.phase ≠ .waiting ∨ d.libWaits x ∨ !d.gan.cfgPend.isEmpty then d
    else
      let e := d.cpOf x.part x.ctx
      let pkey := bitsOf x.word 176 8
      let va := bitsOf x.word 128 48
      let more := if x.slot = 0 then d.libRest x else []
      if !more.isEmpty then (d.modCmd c (fun y => { y with slot := 1 })).askHost c x.func 0 more
      else
        match d.readVa e pkey va 64 with
        | (d, .error f) => d.failCmd c f.1 0 f.2
        | (d, .ok h) =>
          match d.readVa e pkey va (imageBytes h + 1716) with
          | (d, .error f) => d.failCmd c f.1 0 f.2
          | (d, .ok img) =>
            match judgeLibrary d.gan.cfg img with
            | (0, some l) =>
              let d := d.install x.part l
              if d.gan.cfg.mark l.keyid < l.libVer then d.cfgAsk (.mark l.keyid l.libVer) (.cmd c)
              else d.modCmd c (fun y => { y with phase := .finished })
            | (s, _) => d.failCmd c s 0 0

/-! ## Completion (R86, R157) -/

/-- The sums of a command's writes under ACCUMULATE are whole: their flags enter its flag byte (R68, R30). -/
def Dev.finishSerial (d : Dev) (x : Cmd) : Dev :=
  let zs := x.serial.filter (·.accum)
  let firsts := (zs.map (·.addr)).eraseDups.filterMap (fun a => zs.find? (fun z => z.addr == a))
  if firsts.isEmpty then d else d.addFlags x.id (firsts.foldl (fun f z => f ||| (x.sumAt z).1.2) 0)

/-- The partition whose sectors' write buffers hold writes of a command's engines. -/
def Cmd.bufferPart (x : Cmd) : Nat := if x.opcode = 0x10 then loadPart x.part x.word else x.part

/-- The write buffers of a partition's sectors are emptied. -/
def Dev.drainPart (d : Dev) (p : Nat) : Dev := (d.sectorsOf p).foldl (fun d k => d.drainAll k) d

/-- Whether the engines of a command whose expiry was detected have still time to report stopped (R144). -/
def Dev.inStopTime (d : Dev) (x : Cmd) : Bool := x.status != 0x36 || d.time ≤ x.expiredAt + 10000

/-- Whether a device physical address lies in the region that a PAGE_RETIRE of scope 0 to 3 names (Table 12-4). -/
def inRegion (r : Rec) (l : Nat) : Bool :=
  let a := bitsOf r 136 40
  stackOf l == stackOf a
    && (match bitsOf r 128 3 with
        | 0 => l / 0x1_0000 == a / 0x1_0000
        | 1 => pcOf l == pcOf a && pcLocal l / 1024 == pcLocal a / 1024
        | 2 => pcOf l == pcOf a && bankOf l == bankOf a
        | _ => true)

/-- Whether no access to the region of a PAGE_RETIRE is in flight any more (R350): hen operations of its stack dispatched before
it (`nextSeq` keeps the number of the next one), writes in a buffer, and accesses of the host that wait. A MOVE makes its
accesses as it completes. -/
def Dev.retireQuiet (d : Dev) (x : Cmd) : Bool :=
  let hit (l : Nat) : Bool := isStk l && inRegion x.word l
  x.opcode != 0x20 || 3 < bitsOf x.word 128 3
    || !(d.henOps.any (fun o => o.id < x.nextSeq && o.stks.contains (stackOf (bitsOf x.word 136 40)))
        || d.sect.any (fun e => e.2.wbuf.any (fun w => hit w.addr))
        || d.hif.bar4.any (fun a => hit a.addr)
        || d.cs.any (fun e => e.2.accQ.any (fun z => z.2.any (fun a => hit a.addr))))

/-- COMMAND_COMPLETE: the command's engines have finished; its writes are performed, its phase's power is learned, and its
record is ready (R145, R157, R383). A replayed command ends with its SUSPECT_REPLAY (R356). -/
def Dev.commandComplete (d : Dev) (c : Nat) : Dev :=
  match d.cmd? c with
  | none => d
  | some x =>
    if x.serving ∨ !d.cmdDone x ∨ (x.opcode = 0x22 ∧ x.phase = .finished) ∨ !d.inStopTime x ∨ !d.retireQuiet x then d
    else
      let d := (d.finishSerial x).drainPart x.bufferPart
      match d.cmd? c with
      | none => d
      | some x =>
        let d := d.phaseUpdate x
        (d.leaveSectors x).endCmd x

/-! ## Timeout and hang (R143, R144, R306, R354, R355) -/

/-- Microseconds from start to detection. -/
def elapsedUs (d : Dev) (x : Cmd) : Nat := openDiv 4 (d.time - x.start) 1000

/-- COMMAND_TIMEOUT: when the timeout of a started command has expired, its engines are stopped as for a fault; a
FENCE_EPOCH ends with EPOCH_ABORT unless its commit is decided (R144, R306). -/
def Dev.commandTimeout (d : Dev) (c : Nat) : Dev :=
  match d.cmd? c with
  | none => d
  | some x =>
    if x.serving ∨ x.status = 0x36 ∨ d.time < x.start + 1000 * d.timeoutOf x then d
    else if x.opcode = 0x22 then
      if x.phase = .stopping then d else
      if x.phase = .finished ∧ d.fab.commitAt.isSome then d else d.dropStaged.endCmdWith x 0x53 0
    else
      (((d.failCmd c 0x36 0 0).modCmd c (fun y => { y with detail := elapsedUs d x, handle := 0, vaddr := 0, expiredAt := d.time })).abandon c)

/-- The first of a list of engines that a command uses, or whose stack controller queues an operation of it (R354). -/
def Dev.usesHung (d : Dev) (x : Cmd) (hung : List UnitId) : Option UnitId :=
  hung.find? (fun u => x.uses u || d.henOps.any (fun o => o.cmd == x.id && u.kind == .hen && o.hens.contains u.index))

/-- The partition that holds an engine. -/
def Dev.engineParts (d : Dev) (hung : List UnitId) : List Nat :=
  ((List.range 6).filter (fun p => hung.any (fun u => d.unitInPart p u)))

/-- Insertion of a suspect by the time its command started, after equals. -/
def insertSuspect (s : Nat × Suspect) : List (Nat × Suspect) → List (Nat × Suspect)
  | [] => [s]
  | t :: ts => if t.1 ≤ s.1 then t :: insertSuspect s ts else s :: t :: ts

/-- The serving engine's step in progress as a suspect: its cycle runs, and a tile or hen of its partition hangs (R354). -/
def Dev.servingSuspect (d : Dev) (p : Nat) (hung : List UnitId) : Option (Nat × Suspect) :=
  match tfind d.srv.cycles p, hung.find? (fun u => (u.kind == .tile || u.kind == .hen) && d.unitInPart p u) with
  | some t, some u => some (t, { ctx := d.getF (rSrvKvDesc p) fSrvKvDesc_Ctx, queue := 0, serving := true, opcode := 0, seq := 0,
                                 engine := u, outcome := 0, status := 0, hung := [], cmd := none,
                                 counts := tget d.srv.counts [] p })
  | _, _ => none

/-- The suspects of a partition, in the order in which their commands started (R354). -/
def Dev.suspectsOf (d : Dev) (p : Nat) (hung : List UnitId) : List Suspect :=
  let cmds := (d.cq.cmds.filter (fun x => x.part == p && x.phase != .waiting)).filterMap (fun x =>
    (d.usesHung x hung).map (fun u => (x.start,
      ({ ctx := x.ctx, queue := x.queue, serving := x.serving, opcode := x.opcode, seq := bitsOf x.word 32 32, engine := u,
         outcome := 0, status := 0, hung := [], cmd := some x } : Suspect))))
  (((d.servingSuspect p hung).toList ++ cmds).foldl (fun acc s => insertSuspect s acc) []).map (·.2)

/-- COMMAND_HANG: engines of a command have not reported stopped within 10 µs of the detection of its expiry: it completes with
HANG and the engines' partition begins recovery (R144, R354, R355). -/
def Dev.commandHang (d : Dev) (c : Nat) (hung : List UnitId) : Dev :=
  match d.cmd? c with
  | none => d
  | some x =>
    if x.status ≠ 0x36 ∨ hung.isEmpty ∨ d.time < x.expiredAt + 10000 then d
    else
      let ps := d.engineParts hung
      let p := if ps.isEmpty then x.part else ps.headD x.part
      let ss := d.suspectsOf p hung
      let d := (d.finishSerial x).drainPart x.bufferPart
      let x := (d.cmd? c).getD x
      ((d.leaveSectors x).endCmdWith x 0x37 x.detail).beginReset p 4 1 ss

end Sys2Proof.Machine
end

