-- ==== Sys2Proof/Machine/Copy.lean ====
section
/-! DEFINITION. COPY (05_command_queues.md R138; 03 R75 to R81; 12 R344). -/

namespace Sys2Proof.Machine

/-- Start checks of a COPY, codes 0x16 and 0x17 (R138, R344). -/
def Dev.copyCheck (d : Dev) (p : Nat) (r : Rec) : Nat :=
  let k := copySect r
  let c := bitsOf r 163 2
  if 6 ≤ k ∨ d.sectPart k ≠ p ∨ d.unitGone .dma (4 * k + c) then 0x16 else if d.halted k c then 0x17 else 0

/-- The unit of a COPY's channel among the holders of descriptor registers: the tiles come first (R338). -/
def copyRegs (r : Rec) : Nat := 144 + 4 * copySect r + bitsOf r 163 2

/-- How the channel of a started COPY reaches memory. -/
def Cmd.copyReach (x : Cmd) : Reach := ⟨dmaOf x.part x.ctx (copySect x.word), x.descs, x.lists⟩

def Cmd.copyWriter (x : Cmd) : Writer := ⟨x.id, 0, 0, x.func⟩

/-! ## Reading the source -/

/-- Why a copy stopped reading: an access failed, or one met a fresh uncorrectable error, which halts the channel whatever else
its step meets (R344). -/
inductive CopyStop where
  | fault (f : Fail) | uncorr
  deriving DecidableEq, Repr

/-- Elements read step by step (R69): those read, and why the copy stopped, if it did. -/
def Dev.copyRead (rc : Reach) (h : Nat) (scales : Bool) : Dev → List (List (List Int)) → Dev × List ElemRead × Option CopyStop
  | d, [] => (d, [], none)
  | d, cs :: rest =>
    let (r, es, f) := StepRead.elems rc h false scales { dev := d } cs
    if 2 ≤ r.worst then (r.dev, [], some .uncorr)
    else
      match f with
      | some f => (r.dev, es, some (.fault f))
      | none =>
        let (d, es', f) := Dev.copyRead rc h scales r.dev rest
        (d, es ++ es', f)

/-- Source elements of a copy, by their logical indices, read in steps of 64 bytes of elements (log entry 75), and the items they
make (R75). -/
def Dev.copyItems (d : Dev) (rc : Reach) (r : Rec) (ix : List Nat) : Dev × List Item × Option CopyStop :=
  let s := copySrc r
  let x := rc.desc s
  let scales := !isRaw (rc.desc (copyDst r)).elem
  let es := rc.extents x
  let ed := rc.extents (rc.desc (copyDst r))
  let (d, rs, f) := Dev.copyRead rc s scales d (chunksOf (512 / elemBits x.elem) ix.length (ix.map (coordsOf es)))
  (d, (ix.zip rs).map (fun ir =>
    if scales && noTerm x ir.2 then ⟨coordsOf ed ir.1, x.elem, 0, none, false⟩
    else ⟨coordsOf ed ir.1, x.elem, ir.2.code, ir.2.scale, ir.2.out != 0⟩), f)

def copySat (r : Rec) : Option Bool := if bitOf r 156 then some true else none

/-! ## A copy that fails, aliased copies, and the copy itself -/

/-- What a copy that stopped while reading had written, which the spec leaves open by granule (R59, R81): granules of the elements
`its` that it read first; none of a staged one. -/
def Dev.copyPart (d : Dev) (x : Cmd) (its : List Item) : Dev :=
  if x.slot = 1 then d
  else
    let rc := x.copyReach
    let h := copyDst x.word
    let ed := rc.extents (rc.desc h)
    let (_, ps, bad) := Dev.placeItems rc h false d its
    let rest := ((List.range (rc.count h)).drop its.length).map (fun i => ⟨coordsOf ed i, 8, 0, none, false⟩)
    d.storePart x.copyWriter rc h false (copySat x.word) ps ((bad.elim [] (·.2)) ++ rest)

/-- The staging region once a staged copy has read into it: free values, `n` granules of them (R78 does not say how the source
lies in it). -/
def Dev.scribble (d : Dev) (k n : Nat) : Dev :=
  (List.range n).foldl (fun d i =>
    { d with
      sram := sramWrite d.sram (k * 2 ^ 24 + 0x80_0000 + 64 * i) (leBytes 64 (Config.freeWord d.free)) false
      free := d.free + 1 }) d

/-- A DMA channel that met a fresh uncorrectable error halts (R344). -/
def Dev.haltChannel (d : Dev) (k c : Nat) : Dev :=
  (d.modReg rRasDmaHalt (· ||| BitVec.ofNat 64 (2 ^ (4 * k + c)))).raise pgRas 4

/-- The physical granules that the elements of a view lie in; what cannot be translated is left to the access itself. -/
def Dev.viewGrans (d : Dev) (rc : Reach) (h : Nat) (write : Bool) : List Nat :=
  let x := rc.desc h
  (((List.range (rc.count h)).map (coordsOf (rc.extents x))).filterMap (fun c =>
    match (d.place rc h c write).2 with
    | .ok (.on src) =>
      match (d.locOf rc h (x.addrOf src).1 write false).2 with
      | .ok l => some (granOf l)
      | .error _ => none
    | _ => none)).eraseDups

/-- Whether a copy's source and destination share physical memory although their spans share no virtual byte (R80). -/
def Dev.aliased (d : Dev) (rc : Reach) (r : Rec) : Bool :=
  !overlaps (rc.desc (copySrc r)) (rc.desc (copyDst r))
    && (let gs := d.viewGrans rc (copySrc r) false
        (d.viewGrans rc (copyDst r) true).any (fun g => gs.contains g))

/-- The granule that an aliased copy writes an element with: its own, or that of the first element of its group of 32 where the
destination carries block scales, since a group is quantised as one (R41; log entry 75). -/
def Reach.copyGran (rc : Reach) (h : Nat) (ps : List Placed) (p : Placed) : Nat :=
  let x := rc.desc h
  granOf (if x.scaleEn then ((ps.find? (fun q => x.groupKey q == x.groupKey p)).getD p).loc else p.loc)

/-- The elements of a copy, by logical index with its item, that are written together: one list for each destination granule, in
the order in which granules are first met. -/
def Dev.copyGroups (d : Dev) (rc : Reach) (h : Nat) (its : List Item) : List (List (Nat × Item)) :=
  let ps := (((List.range its.length).zip its).filterMap (fun e =>
    match (d.placeItem rc h false e.2).2 with
    | .ok (some p) => some (e, p)
    | _ => none))
  let gran := rc.copyGran h (ps.map (·.2))
  ((ps.map (fun p => gran p.2)).eraseDups).map (fun g => (ps.filter (fun p => gran p.2 == g)).map (·.1))

/-- An aliased copy, granule by granule of its destination: each holds the source as it stood before the copy or as earlier
granules have left it, as a free value says (R80). -/
def Dev.storeAliased (x : Cmd) : Dev → List (List (Nat × Item)) → Dev
  | d, [] => d
  | d, z :: zs =>
    let late := Config.freeWord d.free % 2 = 1
    let d := { d with free := d.free + 1 }
    let its := if late then (d.copyItems x.copyReach x.word (z.map (·.1))).2.1 else z.map (·.2)
    match d.storeItems x.copyWriter x.copyReach (copyDst x.word) false (copySat x.word) its with
    | (d, true) => Dev.storeAliased x d zs
    | (d, false) => d

/-- The elements of a copy written (R75), also those of an aliased one (R80). -/
def Dev.copyStore (d : Dev) (x : Cmd) (its : List Item) : Dev :=
  let rc := x.copyReach
  let h := copyDst x.word
  if d.aliased rc x.word && (Dev.placeItems rc h false d its).2.2.isNone then Dev.storeAliased x d (d.copyGroups rc h its)
  else d.store x.copyWriter rc h false (copySat x.word) its

/-- The elements move: the channel's descriptor registers are read (R338, R339), then the source as it stands, converted and
written (R75, R77, R78). -/
def Dev.copyMove (d : Dev) (x : Cmd) : Dev :=
  let k := copySect x.word
  let rc := x.copyReach
  let n := rc.count (copySrc x.word)
  match d.descRegs (copyRegs x.word) (x.descs.map (·.1)) with
  | (d, some h) => d.failCmd x.id 0x60 h 0
  | (d, none) =>
    let (d, its, stop) := d.copyItems rc x.word (List.range n)
    let d := if x.slot = 1 then d.scribble k (ceilDiv (rc.copyBytes (copySrc x.word)) 64) else d
    match stop with
    | some (.fault f) => (d.copyPart x its).failCmd x.id f.status f.handle f.vaddr
    | some .uncorr => ((d.copyPart x its).haltChannel k (bitsOf x.word 163 2)).failCmd x.id 0x34 0 0
    | none => (d.copyStore x its).modCmd x.id (fun y => if y.phase = .running then { y with phase := .finished } else y)

/-! ## Its start -/

/-- Host granules of a copy's source and its scales. -/
def Dev.copyHost (d : Dev) (x : Cmd) : List HostGran :=
  let rc := x.copyReach
  let s := copySrc x.word
  d.hostGrans rc s (!isRaw (rc.desc (copyDst x.word)).elem) ((List.range (rc.count s)).map (coordsOf (rc.extents (rc.desc s))))

/-- What R75 asks of a copy's views before any list of theirs is read: as many elements in the one as in the other. -/
def countsDiffer (r : Rec) (rc : Reach) : Option Fail :=
  if rc.count (copySrc r) ≠ rc.count (copyDst r) then some ⟨0x1B, copyDst r, 0⟩ else none

/-- The descriptors of a copy read and checked: what fails it, or the command with what it latched (R47, R75, R78). -/
def Dev.checkCopy (d : Dev) (x : Cmd) : Dev × Except Fail Cmd :=
  let r := x.word
  match d.validate (d.cpOf x.part x.ctx) [copySrc r, copyDst r] [copyDst r] (countsDiffer r) with
  | (d, .error f) => (d, .error f)
  | (d, .ok rc) =>
    if rc.staged r && 8 * 2 ^ 20 < rc.copyBytes (copySrc r) then (d, .error ⟨0x1D, 0, 0⟩)
    else (d, .ok { x with
      descs := rc.descs, lists := rc.lists, slot := if rc.staged r then 1 else 0, phase := .running, start := d.time
      engines := [⟨.dma, 4 * copySect r + bitsOf r 163 2⟩] })

/-- A COPY whose checks of the record passed: its descriptors are checked, then it starts; what lies in host memory is asked for
first, and the elements move when all of it has come. `begun` says that it holds its entry already (a replay). -/
def Dev.startCopy (d : Dev) (x : Cmd) (begun : Bool) : Dev :=
  match d.checkCopy x with
  | (d, .error f) => if begun then d.failCmd x.id f.status f.handle f.vaddr else d.refuseHead x f.status f.handle f.vaddr 0
  | (d, .ok x) =>
    let d := (if begun then d.modCmd x.id (fun _ => x) else d.startHead x).dropUnit .descReg (copyRegs x.word)
    let host := d.copyHost x
    if host.isEmpty then d.copyMove x
    else host.foldl (fun d g => d.sendRead (some x.id)
      { func := x.func, addr := g.addr, len := 64, purpose := .cmd x.id, vaddr := g.vaddr, handle := g.handle, sentAt := 0 }) d

/-- COPY (R138). -/
def Dev.copy (d : Dev) (q : Nat) : Dev :=
  let needs (d : Dev) (x : Cmd) : List HostGran :=
    let hs := [copySrc x.word, copyDst x.word]
    if d.copyCheck x.part x.word ≠ 0 then []
    else d.startNeeds q (d.cpOf x.part x.ctx) (ascending hs) [copyDst x.word, copySrc x.word]
  match d.turn q 0x02 needs with
  | (d, none) => d
  | (d, some x) =>
    let s := d.copyCheck x.part x.word
    if s ≠ 0 then d.refuseHead x s 0 0 0 else d.startCopy x false

end Sys2Proof.Machine
end

