-- ==== Sys2Proof/Machine/Admission.lean ====
section
/-! DEFINITION. The submission window and admission (08_requests_and_promises.md R214, R215, R218 to R224, R229 to R231,
R239; 09 R243, R247, R257, R268). -/

namespace Sys2Proof.Machine

/-! ## Answers (Table 8-6) -/

/-- The 32 bytes of an answer. -/
def Answer.bytes (a : Answer) : List Byte :=
  leBytes 32 (1 + atBit 4 a.answer + atBit 8 a.reason + atBit 16 (a.entry % 2 ^ 14) + atBit 32 a.seq.toNat
    + atBit 64 (a.arrival % 2 ^ 64) + atBit 128 (a.first % 2 ^ 64) + atBit 192 (fitTo 32 a.cadence)
    + atBit 224 (min a.need (2 ^ 32 - 1)))

/-- The answer of slot k of function f is `a`. -/
def Dev.setAnswer (d : Dev) (f k : Nat) (a : Answer) : Dev := d.onSrv (fun s => { s with answers := tset s.answers (256 * f + k) a })

/-- ANSWER_READ: bytes of a slot outside its answer read zero (R218, R220). -/
def Dev.answerRead (d : Dev) (f off len : Nat) : Dev :=
  let byte (o : Nat) : Byte :=
    if 0x80_0000 ≤ o ∧ o < 0x81_0000 ∧ 0x40 ≤ o % 0x100 ∧ o % 0x100 < 0x60 then
      (tget d.srv.answers {} (256 * f + (o - 0x80_0000) / 0x100)).bytes.getD (o % 0x100 - 0x40) 0
    else 0
  d.sendOut (.readData f ((List.range len).map (fun i => byte (off + i))) false 0)

/-! ## The arithmetic of R224 -/

/-- What R224 computes for a SUBMIT that passed the checks up to TABLE_FULL. -/
structure Charge where
  dec : Nat
  base : Nat
  pages : Nat
  pf : Nat
  first : Nat
  deriving DecidableEq, Repr

def subPlen (r : Rec) : Nat := bitsOf r 128 24
def subGlen (r : Rec) : Nat := bitsOf r 152 24
def subSlot (r : Rec) : Nat := bitsOf r 14 4
def subColt (r : Rec) : Nat := bitsOf r 176 4

/-- SHARE of priority `prio` of partition p, in 1/64. -/
def Dev.share (d : Dev) (p prio : Nat) : Nat :=
  bitsOf (if prio < 4 then d.reg (rSrvAdmShareLo p) else d.reg (rSrvAdmShareHi p)) (8 * (prio % 4)) 8

/-- The charge of a record in partition p arriving at `ta`. -/
def Dev.chargeOf (d : Dev) (p : Nat) (r : Rec) (ta : Nat) : Charge :=
  let s := subSlot r
  let plen := subPlen r
  let tot := plen + subGlen r
  let kt := ceilDiv tot 1024
  let dec := d.getF (rSrvCoefPerReq p s) fSrvCoefPerReq_PerReq + kt * d.getF (rSrvCoefPerKtok p s) fSrvCoefPerKtok_PerKtok
    + subColt r * d.getF (rSrvCoefColt p s) fSrvCoefColt_Colt
    + (if bitOf r 18 then d.getF (rSrvCoefDelta p s) fSrvCoefDelta_Delta else 0)
  let pf := d.getF (rSrvCoefPfBase p s) fSrvCoefPfBase_PfBase
    + ceilDiv (plen * d.getF (rSrvCoefPfTok p s) fSrvCoefPfTok_PfTok * 1000
        + plen * plen * d.getF (rSrvCoefPfSq p s) fSrvCoefPfSq_PfSq) 1000000
  let n := ceilDiv ((d.reg (rSrvPfPend p)).toNat + pf) (d.getF (rSrvAdmPfSlice p) fSrvAdmPfSlice_PfSlice)
  { dec := dec
    base := if d.charged p s = 0 then d.getF (rSrvCoefBase p s) fSrvCoefBase_Base else 0
    pages := ceilDiv (tot * d.getF (rSrvCoefKvb p s) fSrvCoefKvb_Kvb) 16384
    pf := pf
    first := ta + d.getF (rSrvAdmSetup p) fSrvAdmSetup_Base + ceilDiv plen 1024 * d.getF (rSrvAdmSetup p) fSrvAdmSetup_Ktok
      + (n + 1) * d.cadence p }

/-- The version that a SUBMIT binds (R268). -/
def Dev.bindVersion (d : Dev) (r : Rec) : Option Nat :=
  let v := bitsOf r 19 12
  let x := d.version v
  if x.slot ≠ subSlot r then none
  else if x.state = .live then some v
  else if x.state = .retiring then
    match tfind d.srv.current x.lineage with
    | some c => if (d.version c).state = .live then some c else none
    | none => none
  else none

/-- The draft length a slot allows in partition p (R247, R257). -/
def Dev.coltLimit (d : Dev) (p s : Nat) : Nat :=
  if d.getF (rSrvSlotCfg s) fSrvSlotCfg_Colt = 1 ∧ !d.slotM4 s then d.getF (rSrvCoefLimit p s) fSrvCoefLimit_ColtMax else 0

/-- The lowest free entry of partition p (R214). -/
def Dev.freeIndex (d : Dev) (p : Nat) : Option Nat :=
  ((List.range (d.entryMax p)).map (d.entryBase p + ·)).find? (fun e => !(d.entry e).occupied)

/-- The partition a record is for: the VF's, or the one the PF names; `none` where it cannot be determined. -/
def Dev.subPart (d : Dev) (f : Nat) (r : Rec) : Option Nat :=
  let p := if f = 0 then (if bitsOf r 4 4 = 0 then bitsOf r 11 3 else 7) else d.vfPart f
  if p < 6 then some p else none

/-- The checks of Table 8-8 up to TABLE_FULL, in code order; 0 when none fails. -/
def Dev.submitCheck (d : Dev) (f p : Nat) (r : Rec) : Nat :=
  let s := subSlot r
  let tot := subPlen r + subGlen r
  let ring := bitsOf r 120 7
  if bitsOf r 0 4 ≠ 1 ∨ bitsOf r 4 4 ≠ 0 ∨ 8 < subColt r ∨ subPlen r = 0 ∨ subGlen r = 0 ∨ (f = 0 ∧ 5 < bitsOf r 11 3) then 1
  else if !d.partExists p ∨ d.getF (rSrvAdmCtrl p) fSrvAdmCtrl_En = 0 ∨ d.inReset p ∨ d.pstate ≠ 0
      ∨ d.getF (rSrvAdmPfSlice p) fSrvAdmPfSlice_PfSlice = 0 then 2
  else if !d.ctxEn p (bitsOf r 180 4) ∨ d.ctxFunc p (bitsOf r 180 4) ≠ f then 3
  else if d.getF (rCqRCfg ring) fCqRCfg_En = 0 ∨ d.getF (rCqRCfg ring) fCqRCfg_Func ≠ f then 4
  else if d.slotState s ≠ 2 ∨ d.getF (rSrvSlotCfg s) fSrvSlotCfg_Part ≠ p then 5
  else if bitOf r 18 ∧ (d.bindVersion r).isNone then 6
  else if d.getF (rSrvCoefLimit p s) fSrvCoefLimit_Maxctx < tot
      ∨ 2 ^ d.getF (rSrvKvWin p) fSrvKvWin_Wlog2 < tot * d.tokb s then 7
  else if d.coltLimit p s < subColt r then 8
  else if (d.freeIndex p).isNone then 9
  else 0

/-- The limit that the decode load of a priority may reach (R224). -/
def Dev.loadLimit (d : Dev) (p prio : Nat) : Nat := d.getF (rSrvAdmDecCap p) fSrvAdmDecCap_DecCap * d.share p prio / 64

/-- A refusal (R230): counted in its partition's registers, partition 0's where none can be determined. -/
def Dev.refuseSub (d : Dev) (f k : Nat) (p : Option Nat) (a : Answer) : Dev :=
  let p := p.getD 0
  let d := d.addF (rSrvRefuse p) fSrvRefuse_Refuse 1
  let d := d.setReg (rSrvLastRefuse p) (BitVec.ofNat 64 a.reason)
  (d.setReg (rSrvLastSeq p) (BitVec.ofNat 64 a.seq.toNat)).setAnswer f k { a with answer := 2 }

/-- The home sector of an accepted request (R239). -/
def Dev.homeOf (d : Dev) (p aff : Nat) : Nat :=
  let ks := d.sectorsOf p
  ks.getD ((if aff = 0 then tget d.srv.rotation 0 p else aff) % ks.length) 0

/-- The entry of an accepted request (R215, R224, R239, R243). -/
def Dev.newEntry (d : Dev) (f p e : Nat) (r : Rec) (c : Charge) : Entry :=
  { state := .admitted
    prio := bitsOf r 8 3
    part := p
    slot := subSlot r
    deltaEn := bitOf r 18
    delta := if bitOf r 18 then (d.bindVersion r).getD 0 else 0
    sample := bitOf r 31
    seq := BitVec.ofNat 32 (bitsOf r 32 32)
    plen := subPlen r
    glen := subGlen r
    coltMax := subColt r
    colt := subColt r
    home := d.homeOf p (bitsOf r 320 32)
    ring := bitsOf r 120 7
    func := f
    deadline := c.first
    eos := BitVec.ofNat 32 (bitsOf r 224 32)
    pages := d.getF (rSrvKvPlist p) fSrvKvPlist_Base * 4096 + (e - d.entryBase p) * 2 ^ (d.getF (rSrvKvWin p) fSrvKvWin_Wlog2 - 11)
    resv := c.pages
    temp := BitVec.ofNat 32 (bitsOf r 256 32)
    seed := BitVec.ofNat 32 (bitsOf r 288 32)
    ctx := bitsOf r 180 4
    tokensVa := bitsOf r 64 48
    pkey := bitsOf r 112 8
    order := d.srv.accepts
    dec := c.dec
    pf := c.pf
    pfHeld := true
    charged := true }

/-- The engine that fetches the token list of an entry: DMA channel 0 of its home sector, or of the one R344 substitutes. -/
def Dev.setupEngine (d : Dev) (x : Entry) : Option Engine :=
  (d.fixedChannel x.part x.home 0).map (fun k => dmaOf x.part x.ctx k)

/-- The host granules of a token list are asked for with the submitter's ID (R325, R427); a list that cannot be read
for want of bus mastering aborts its request. -/
def Dev.askTokens (d : Dev) (e : Nat) : Dev :=
  let x := d.entry e
  let ps := d.hostPieces (dmaOf x.part x.ctx x.home) x.pkey x.tokensVa (4 * x.plen)
  let d' := ps.foldl (fun d g => d.sendRead none
    { func := x.func, addr := g.2, len := 64, purpose := .tokens e, vaddr := g.1, handle := 0, sentAt := 0 }) d
  if ps.isEmpty ∨ d.masters x.func then d' else d'.abortEntry e 3

/-- The commit of R224: charges, entry, deadline, home, and the answer ACCEPT. -/
def Dev.accept (d : Dev) (f k p : Nat) (r : Rec) (c : Charge) (a : Answer) : Dev :=
  match d.freeIndex p with
  | none => d
  | some e =>
    let x := d.newEntry f p e r c
    let d := d.putF (rSrvLoad p) fSrvLoad_Load (d.getF (rSrvLoad p) fSrvLoad_Load + c.dec + c.base)
    let d := d.setReg (rSrvPfPend p) (d.reg (rSrvPfPend p) + BitVec.ofNat 64 c.pf)
    let d := d.putF (rSrvPoolFree p) fSrvPoolFree_Free (d.getF (rSrvPoolFree p) fSrvPoolFree_Free - c.pages)
    let d := d.onSrv (fun s => { s with
      entries := tset s.entries e x, accepts := s.accepts + 1, rotation := tmod s.rotation 0 p (· + 1) })
    let d := if x.deltaEn then d.setVersion x.delta { d.version x.delta with refs := (d.version x.delta).refs + 1 } else d
    let d := (d.addF (rSrvAccept p) fSrvAccept_Accept 1).setReg (rSrvSlotLru x.slot) (BitVec.ofNat 64 d.time)
    (d.setAnswer f k { a with answer := 1, entry := e, first := c.first, cadence := d.cadence p }).askTokens e

/-- Metadata of model slot s is read (R339): an uncorrectable word resets the owning partition, or leaves an unbound slot
EMPTY. -/
def Dev.readSlotMeta (d : Dev) (s : Nat) : Dev :=
  let (d, ue) := d.readWord .slotMeta s 0
  let p := d.getF (rSrvSlotCfg s) fSrvSlotCfg_Part
  if !ue then d else if p < 6 then d.recover p 2 else d.enterSlotState s 0

/-- Metadata of delta version v is read (R339): an uncorrectable word resets the owning partition. -/
def Dev.readVersionMeta (d : Dev) (v : Nat) : Dev :=
  let (d, ue) := d.readWord .deltaMeta v 0
  if ue then d.recover (d.version v).part 2 else d

/-- A submission with the priority that its VF may have at most (R331); the PF's is not capped. -/
def Dev.cappedPrio (d : Dev) (f : Nat) (r : Rec) : Rec :=
  if f = 0 then r else putFld r ⟨8, 3⟩ (min (bitsOf r 8 3) (d.getF (rSectVfBind f) fSectVfBind_PrioMax))

/-- A SUBMIT record of function f in slot k (R224, R230, R331). -/
def Dev.admitReq (d : Dev) (f k : Nat) (r : Rec) : Dev :=
  let r := d.cappedPrio f r
  let d := d.readSlotMeta (subSlot r)
  let d := if bitOf r 18 then d.readVersionMeta (bitsOf r 19 12) else d
  let pw := d.subPart f r
  let p := pw.getD 7
  let a : Answer := { seq := BitVec.ofNat 32 (bitsOf r 32 32), arrival := d.time }
  let chk := d.submitCheck f p r
  if chk ≠ 0 then d.refuseSub f k pw { a with reason := chk }
  else
    let c := d.chargeOf p r d.time
    let cad := d.cadence p
    let load := d.getF (rSrvLoad p) fSrvLoad_Load + (c.dec + c.base)
    let lim := d.loadLimit p (bitsOf r 8 3)
    let pool := d.getF (rSrvPoolFree p) fSrvPoolFree_Free
    if bitsOf r 208 16 ≠ 0 ∧ bitsOf r 208 16 * 1000 < cad then d.refuseSub f k pw { a with reason := 0xA, cadence := cad }
    else if lim < load then d.refuseSub f k pw { a with reason := 0xB, need := load - lim }
    else if pool < c.pages then d.refuseSub f k pw { a with reason := 0xC, need := c.pages - pool }
    else if bitsOf r 184 24 ≠ 0 ∧ bitsOf r 184 24 * 1000 < c.first - d.time then
      d.refuseSub f k pw { a with reason := 0xD, first := c.first, cadence := cad }
    else d.accept f k p r c a

/-- A CANCEL record of function f in slot k (R231). -/
def Dev.cancelReq (d : Dev) (f k : Nat) (r : Rec) : Dev :=
  let e := bitsOf r 352 14
  let a : Answer := { seq := BitVec.ofNat 32 (bitsOf r 32 32), arrival := d.time, entry := e }
  if (d.entry e).occupied ∧ (d.entry e).func = f then (d.setAnswer f k { a with answer := 3 }).cancelEntry e
  else d.setAnswer f k { a with answer := 4 }

/-- Whether a write is a submission (R218). -/
def isSubmission (off : Nat) (data : List Byte) : Bool :=
  0x80_0000 ≤ off && off < 0x81_0000 && off % 0x100 == 0 && data.length == 64

/-- A write in the submission window: rejected, or a submission, which may wake the device (R218, Table 13-5). -/
def Dev.windowWrite (d : Dev) (f off : Nat) (data : List Byte) : Dev :=
  if !(0x80_0000 ≤ off && off < 0x81_0000) then d
  else if !isSubmission off data then (d.addF rSrvSubRej fSrvSubRej_Rej 1).raise (pgSrv 0) 0x1_0000
  else
    let r := recOf data
    let k := (off - 0x80_0000) / 0x100
    let d := if bitsOf r 0 4 = 1 ∧ bitsOf r 4 4 = 1 then d.cancelReq f k r else d.admitReq f k r
    if d.getF rPwrWakeEn fPwrWakeEn_Sub = 1 then d.wakeSource 4 else d

/-- SUBMIT: a write to the submission window as the host interface receives it. -/
def Dev.submit (d : Dev) (f off : Nat) (data : List Byte) : Dev := d.received f false (fun d => d.windowWrite f off data)

/-- CANCEL: likewise, of a record of KIND CANCEL. -/
def Dev.cancel (d : Dev) (f off : Nat) (data : List Byte) : Dev := d.received f false (fun d => d.windowWrite f off data)

/-! ## The entry as the host sees it (Table 8-1) -/

def stateCode : ReqState → Nat
  | .free => 0 | .admitted => 1 | .prefill => 2 | .decode => 3 | .held => 4 | .closing => 5

/-- The 64 bytes of an entry. -/
def Entry.word (x : Entry) : Rec :=
  BitVec.ofNat 512 (1 + atBit 4 (stateCode x.state) + atBit 8 x.prio + atBit 11 x.part + atBit 14 x.slot
    + atBit 18 (if x.deltaEn then 1 else 0) + atBit 19 x.delta + atBit 31 (if x.sample then 1 else 0) + atBit 32 x.seq.toNat
    + atBit 64 x.plen + atBit 88 x.glen + atBit 112 (x.pos % 2 ^ 24) + atBit 136 (x.gen % 2 ^ 24)
    + atBit 160 (x.pfxNode.getD 0 % 2 ^ 18) + atBit 178 (if x.pfxNode.isSome then 1 else 0) + atBit 179 x.coltMax
    + atBit 183 x.colt + atBit 187 x.home + atBit 190 x.cause + atBit 194 x.ring + atBit 201 x.func
    + atBit 224 x.lastToken.toNat + atBit 256 (x.deadline % 2 ^ 64) + atBit 320 x.eos.toNat + atBit 352 (x.pages % 2 ^ 48)
    + atBit 400 (fitTo 24 x.npages) + atBit 424 (fitTo 24 x.resv) + atBit 448 x.temp.toNat + atBit 480 x.seed.toNat)

/-- Whether entry i lies in the range of the partition that function f may see (R214, R240). -/
def Dev.seesEntry (d : Dev) (f i : Nat) : Bool :=
  let p := d.vfPart f
  f == 0 || (p < 6 && d.entryBase p ≤ i && i < d.entryBase p + d.entryMax p)

/-- SRV_RT_SEL written by function f: the entry is copied to the function's SRV_RT_DATA; a VF copies zeros for an entry
outside its partition (R240, R451). The copy is kept with the index selected in front. -/
def Dev.writeRtSel (d : Dev) (f : Nat) (v : W64) : Dev :=
  let i := fld v fSrvRtSel_Index
  let w : Rec := if d.seesEntry f i then (d.entry i).word else 0
  d.onSrv (fun s => { s with
    rtCopy := tset s.rtCopy f (BitVec.ofNat 32 i :: (List.range 16).map (fun j => BitVec.ofNat 32 (bitsOf w (32 * j) 32))) })

end Sys2Proof.Machine
end

