-- ==== Sys2Proof/Machine/Hash.lean ====
section
/-! DEFINITION. SipHash-2-4 (09_attention_kv_and_variants.md R251, R259). The spec names it and does not define it; the
rounds are those of the published function (PRESUMED, log entry 24). -/

namespace Sys2Proof.Machine

/-- The four words of the state. -/
structure Sip where
  v0 : W64
  v1 : W64
  v2 : W64
  v3 : W64
  deriving DecidableEq, Repr

/-- One SipRound. -/
def Sip.round (s : Sip) : Sip :=
  let v0 := s.v0 + s.v1
  let v1 := s.v1.rotateLeft 13 ^^^ v0
  let v0 := v0.rotateLeft 32
  let v2 := s.v2 + s.v3
  let v3 := s.v3.rotateLeft 16 ^^^ v2
  let v0 := v0 + v3
  let v3 := v3.rotateLeft 21 ^^^ v0
  let v2 := v2 + v1
  let v1 := v1.rotateLeft 17 ^^^ v2
  let v2 := v2.rotateLeft 32
  ⟨v0, v1, v2, v3⟩

/-- One 64-bit word of the message taken in, with two rounds. -/
def Sip.absorb (s : Sip) (m : W64) : Sip :=
  let t := ({ s with v3 := s.v3 ^^^ m } : Sip).round.round
  { t with v0 := t.v0 ^^^ m }

/-- The message as 64-bit words: full words, then the rest with the length in the top byte. -/
def sipWords (msg : List Byte) : List W64 :=
  let n := msg.length / 8
  (List.range n).map (fun i => BitVec.ofNat 64 (leNat ((msg.drop (8 * i)).take 8)))
    ++ [BitVec.ofNat 64 (leNat (msg.drop (8 * n)) + atBit 56 (msg.length % 256))]

/-- SipHash-2-4 of a message under a 128-bit key, bit 0 of the key being bit 0 of its first byte. -/
def sipHash (key : BitVec 128) (msg : List Byte) : W64 :=
  let k0 : W64 := key.extractLsb' 0 64
  let k1 : W64 := key.extractLsb' 64 64
  let s : Sip := ⟨k0 ^^^ 0x736f6d6570736575, k1 ^^^ 0x646f72616e646f6d, k0 ^^^ 0x6c7967656e657261, k1 ^^^ 0x7465646279746573⟩
  let s := (sipWords msg).foldl Sip.absorb s
  let s := ({ s with v2 := s.v2 ^^^ 0xFF } : Sip).round.round.round.round
  s.v0 ^^^ s.v1 ^^^ s.v2 ^^^ s.v3

end Sys2Proof.Machine
end

