-- ==== Sys2Proof/Machine/Prefix.lean ====
section
/-! DEFINITION. Private KV pages and page lists, the prefix tree and set-up (09_attention_kv_and_variants.md R242 to R245, R250
to R256; 08 R225, R239; 01 R15; 12 R339, R343, R344). -/

namespace Sys2Proof.Machine

/-! ## Moves by a DMA channel for the serving engine (R344, Table 7-9) -/

/-- `n` bytes read by an engine at a virtual address: a status and the address that met it, or the bytes and the worst
outcome over their granules. -/
def Dev.dmaRead (d : Dev) (e : Engine) (pkey va n : Nat) : Dev × Except (Nat × Nat) GranRead :=
  (cutGrans (n + 1) va (zeros n)).foldl (fun (acc : Dev × Except (Nat × Nat) GranRead) piece =>
    match acc with
    | (d, .error s) => (d, .error s)
    | (d, .ok (bs, st)) =>
      match d.xlate e pkey piece.1 false with
      | (d, .error s) => (d, .error (s, piece.1))
      | (d, .ok l) =>
        let (d, r) := d.readBy e.sect e.src l piece.2.length
        (d, .ok (bs ++ r.1, max st r.2))) (d, .ok ([], 0))

/-- `n` bytes moved by an engine for command `c`, granule by granule, poison carried along: a status and the address that met
it, or the worst outcome. -/
def Dev.dmaMove (d : Dev) (e : Engine) (c : Option Nat) (pkey src dst n : Nat) : Dev × Except (Nat × Nat) Nat :=
  (cutGrans (n + 1) src (zeros n)).foldl (fun (acc : Dev × Except (Nat × Nat) Nat) piece =>
    match acc with
    | (d, .error s) => (d, .error s)
    | (d, .ok st) =>
      match d.dmaRead e pkey piece.1 piece.2.length with
      | (d, .error s) => (d, .error s)
      | (d, .ok (bs, o)) =>
        match d.xlate e pkey (dst + (piece.1 - src)) true with
        | (d, .error s) => (d, .error (s, dst + (piece.1 - src)))
        | (d, .ok l) =>
          (d.writeBy e.sect { addr := l, data := bs, poison := o != 0, func := d.ctxFunc e.part e.ctx, cmd := c,
                               vaddr := dst + (piece.1 - src) },
           .ok (max st o))) (d, .ok 0)

/-- How a request meets what its DMA channel `k` read: nothing, poison, or a fresh uncorrectable error, which also halts the
channel (R236, R344). Whether the request goes on. -/
def Dev.dmaOutcome (d : Dev) (e k : Nat) (st : Nat) : Dev × Bool :=
  if st = 0 then (d, true)
  else ((if 2 ≤ st then d.haltChannel k 0 else d).abortEntry e 2, false)

/-! ## The arena (R244, R245) -/

def Dev.pfxPkey (d : Dev) (p : Nat) : Nat := d.getF (rSrvKvKey p) fSrvKvKey_Pkey

/-- The pages of partition p's arena that nothing uses. -/
def Dev.arenaFree (d : Dev) (p : Nat) : List Nat :=
  let base := d.getF (rSrvKvArena p) fSrvKvArena_Base * 65536
  let used := tget d.srv.arena [] p
  ((List.range (d.getF (rSrvKvArenaPages p) fSrvKvArenaPages_Pages)).map (fun i => base + 16384 * i)).filter (fun a =>
    !used.contains a)

/-- The stack and pseudo-channel that a page lies in, by the page table of the KV descriptors' context. -/
def Dev.pageHome (d : Dev) (p page : Nat) : Option (Nat × Nat) :=
  match (d.walk (d.kvEngine p) page).2 with
  | .ok (pa, _, _) => if isStk pa then some (stackOf pa, pcOf pa) else none
  | .error _ => none

/-- The free pages of each pseudo-channel of stack n, for those that can supply `h`. -/
def Dev.suppliers (d : Dev) (p n h : Nat) : List (Nat × List Nat) :=
  let free := (d.arenaFree p).map (fun a => (a, d.pageHome p a))
  ((List.range 32).map (fun c => (c, (free.filter (fun x => x.2 == some (n, c))).map (·.1)))).filter (fun x =>
    h ≤ x.2.length && !x.2.isEmpty)

/-- The supplier with the most free pages, the lowest-numbered on a tie. -/
def mostFree (xs : List (Nat × List Nat)) : Option (List Nat) := (leastBy (fun x => 2 ^ 40 - x.2.length) xs).map (·.2)

/-- `h` of the pages of a pseudo-channel; which, the spec leaves open (free values). -/
def pickPages (free : Nat) : Nat → List Nat → List Nat
  | 0, _ => []
  | _ + 1, [] => []
  | h + 1, x :: xs =>
    let l := x :: xs
    let i := Config.freeWord free % l.length
    l.getD i x :: pickPages (free + 1) h (l.eraseIdx i)

/-- The stacks of partition p, from position `i` of the rotation that begins at CS(2 × HOME). -/
def Dev.stackRotation (d : Dev) (p home i : Nat) : List Nat :=
  let ss := d.stacksOf p
  let from_ := ss.idxOf (2 * home) + i
  (List.range ss.length).map (fun j => ss.getD ((from_ + j) % ss.length) 0)

/-- A new private block of entry e takes its pages from one pseudo-channel (R244): whether one could supply them. -/
def Dev.allocBlock (d : Dev) (e : Nat) : Dev × Bool :=
  let x := d.entry e
  let h := min (d.tokb x.slot / 256) x.resv
  match (d.stackRotation x.part x.home x.nextStack).findSome? (fun n => mostFree (d.suppliers x.part n h)) with
  | none => (d, false)
  | some free =>
    let ps := pickPages d.free h free
    let d := { d with free := d.free + h }
    let d := d.onSrv (fun s => { s with arena := tmod s.arena [] x.part (· ++ ps) })
    (d.modEntry e (fun x => { x with resv := x.resv - h, earmark := x.earmark ++ ps, nextStack := x.nextStack + 1 }), true)

/-- The 8 bytes of a page-list entry (Table 9-1). -/
def PageEnt.bytes (g : PageEnt) : List Byte :=
  leBytes 8 ((if g.valid then 1 else 0) + (if g.shared then 2 else 0) + atBit 14 (g.page / 16384 % 2 ^ 34))

/-- Page-list entry i of entry e is `g`, in the list and in the memory that holds it (R243). -/
def Dev.setPlist (d : Dev) (e i : Nat) (g : PageEnt) : Dev :=
  let x := d.entry e
  let d := (d.writeVa (d.kvEngine x.part) (d.pfxPkey x.part) (x.pages + 8 * i) g.bytes (d.kvWrite x.part)).1
  d.modEntry e (fun x =>
    let pl := (x.plist ++ List.replicate (i + 1 - x.plist.length) ({ valid := false, shared := false, page := 0 } : PageEnt)).set i g
    { x with plist := pl, npages := pl.length })

/-- The page list of entry e grows to `n` pages; whether it could. Fuel bounds the pages. -/
def Dev.growTo : Nat → Dev → Nat → Nat → Dev × Bool
  | 0, d, e, n => (d, n ≤ (d.entry e).plist.length)
  | k + 1, d, e, n =>
    let x := d.entry e
    let i := x.plist.length
    if n ≤ i then (d, true)
    else
      let (d, ok) := if i % (d.tokb x.slot / 256) = 0 ∨ x.earmark.isEmpty then d.allocBlock e else (d, true)
      match ok, (d.entry e).earmark with
      | true, g :: rest =>
        let d := d.modEntry e (fun x => { x with earmark := rest, priv := x.priv ++ [g] })
        Dev.growTo k (d.setPlist e i ⟨true, false, g⟩) e n
      | _, _ => (d, false)

/-- Pages that `rows` token slots reach. -/
def Dev.pagesFor (d : Dev) (s rows : Nat) : Nat := ceilDiv (rows * d.tokb s) 16384

/-- Private pages for entry e up to `rows` token slots (KV_PAGE_ALLOC). -/
def Dev.reachRows (d : Dev) (e rows : Nat) : Dev × Bool :=
  let n := d.pagesFor (d.entry e).slot rows
  Dev.growTo n d e n

/-! ## The tree (R250 to R256) -/

/-- The 128-bit key of R251. -/
def Dev.pfxSeed (d : Dev) (p : Nat) : BitVec 128 :=
  BitVec.ofNat 128 ((List.range 4).map (fun i => atBit (32 * i) (d.getF (rSrvPfxSeed p i) fSrvPfxSeed_Seed))).sum

/-- The bytes of tokens, 4 each. -/
def tokenBytes (ts : List W32) : List Byte := ts.flatMap (fun t => leBytes 4 t.toNat)

/-- The key of a block after its parent's key (R251). -/
def Dev.nodeKey (d : Dev) (x : Entry) (parent : W64) (ts : List W32) : W64 :=
  sipHash (d.pfxSeed x.part) (leBytes 8 parent.toNat
    ++ leBytes 8 (d.reg (rSrvSlotModelId x.slot)).toNat ++ leBytes 2 (if x.deltaEn then x.delta else 0xFFFF) ++ zeros 6
    ++ tokenBytes ts)

/-- The delta version of an entry, if it has one. -/
def Entry.ver (x : Entry) : Option Nat := if x.deltaEn then some x.delta else none

/-- Tokens of block b of an entry's text: prompt, then what it generated. -/
def Entry.block (x : Entry) (b : Nat) : List W32 := ((x.prompt ++ x.output).drop (64 * b)).take 64

/-- Whether a node belongs to an entry's tree. -/
def Node.forEntry (n : Node) (x : Entry) : Bool := n.part == x.part && n.slot == x.slot && n.delta == x.ver

/-- A node is marked BAD, and goes when nothing refers to it (R256). -/
def Dev.markBad (d : Dev) (n : Nat) : Dev :=
  let d := d.onSrv (fun s => { s with nodes := s.nodes.map (fun (e : Nat × Node) =>
    if e.1 = n then (e.1, { e.2 with bad := true }) else e) })
  match tfind d.srv.nodes n with
  | some x => if x.refs = 0 then d.evictNode n else d
  | none => d

/-- A node whose metadata cannot be read is BAD, and the requests that name it are aborted with cause POISON (R339). -/
def Dev.badNode (d : Dev) (n : Nat) : Dev :=
  ((d.entriesWhere (fun x => x.nodes.contains n)).foldl (fun d e => d.abortEntry e 2) d).markBad n

/-- Node n is used now by one more request. -/
def Dev.refNode (d : Dev) (n : Nat) : Dev :=
  d.onSrv (fun s => { s with nodes := s.nodes.map (fun (e : Nat × Node) =>
    if e.1 = n then (e.1, { e.2 with refs := e.2.refs + 1, lastUse := d.time }) else e) })

/-- A hit: block b of entry e is node n's, shared (R252). -/
def Dev.shareNode (d : Dev) (e b n : Nat) (pages : List Nat) : Dev :=
  let d := (d.refNode n).modEntry e (fun x => { x with nodes := x.nodes ++ [n], pfxNode := some n })
  (pages.zip (List.range pages.length)).foldl (fun d gi => d.setPlist e (b * pages.length + gi.2) ⟨true, true, gi.1⟩) d

/-- PREFIX_WALK from block b on, after the parent node and its key: how many blocks hit (R252). Fuel bounds the blocks. -/
def Dev.prefixWalk : Nat → Dev → Nat → Nat → Option Nat → W64 → Dev × Nat
  | 0, d, _, b, _, _ => (d, b)
  | k + 1, d, e, b, parent, pkey =>
    let x := d.entry e
    if x.plen - 1 < 64 * (b + 1) then (d, b)
    else
      let ts := x.block b
      let key := d.nodeKey x pkey ts
      let same := d.srv.nodes.filter (fun n => n.2.forEntry x && n.2.key == key)
      match same.find? (fun n => n.2.parent == parent && n.2.tokens == ts && !n.2.bad) with
      | some (n, nd) =>
        let (d, ue) := d.readWord .prefixNode n 0
        if ue then ((d.badNode n).addF (rSrvPfxMiss x.part) fSrvPfxMiss_Miss 1, b)
        else
          let d := (d.addF (rSrvPfxHit x.part) fSrvPfxHit_Hit 1).shareNode e b n nd.pages
          Dev.prefixWalk k d e (b + 1) (some n) key
      | none =>
        let d := if same.any (fun n => n.2.tokens != ts) then d.addF (rSrvPfxCollide x.part) fSrvPfxCollide_Collide 1 else d
        (d.addF (rSrvPfxMiss x.part) fSrvPfxMiss_Miss 1, b)

/-- Leading tokens two blocks share. -/
def sharedLead : List W32 → List W32 → Nat
  | a :: as, b :: bs => if a = b then 1 + sharedLead as bs else 0
  | _, _ => 0

/-- A node among candidates placed by its last use, most recent first, the lower number first on a tie. -/
def insertRecent (n : Nat × Node) : List (Nat × Node) → List (Nat × Node)
  | [] => [n]
  | m :: ms => if n.2.lastUse ≤ m.2.lastUse then m :: insertRecent n ms else n :: m :: ms

/-- The child that COPY_ON_WRITE copies from after `b` hits, and how many token slots (R253). -/
def Dev.cowSource (d : Dev) (e b : Nat) : Option (Nat × Node × Nat) :=
  let x := d.entry e
  let kids := d.srv.nodes.filter (fun n => n.2.forEntry x && n.2.parent == x.pfxNode && !n.2.bad)
  let four := (kids.foldl (fun acc n => insertRecent n acc) []).take 4
  let lim := min 63 (x.plen - 1 - 64 * b)
  let ks := four.map (fun n => (n.1, n.2, min lim (sharedLead n.2.tokens (x.block b))))
  let best := ks.foldl (fun m k => max m k.2.2) 0
  let cow := d.getF (rSrvPfxCtrl x.part) fSrvPfxCtrl_CowMin
  if cow = 0 ∨ best < cow then none else leastBy (fun k => k.1) (ks.filter (fun k => k.2.2 == best))

/-- COPY_ON_WRITE (R253): the rows that count as cached, and whether the request goes on. `k` is the sector whose channel 0
moves. -/
def Dev.copyOnWrite (d : Dev) (e b k : Nat) : Dev × Nat × Bool :=
  match d.cowSource e b with
  | none => (d, 0, true)
  | some (n, nd, rows) =>
    let x := d.entry e
    let t := d.tokb x.slot
    let (d, ok) := d.reachRows e (64 * b + rows)
    if !ok then (d, 0, true)
    else
      let d := (d.refNode n).addF (rSrvPfxCow x.part) fSrvPfxCow_Cow 1
      let eng := dmaOf x.part (d.kvEngine x.part).ctx k
      let dst := ((d.entry e).plist.drop (b * (t / 256))).map PageEnt.page
      let (d, st) := ((List.range (ceilDiv (rows * t) 16384)).foldl (fun (acc : Dev × Nat) i =>
        match acc.1.dmaMove eng none (acc.1.pfxPkey x.part) (nd.pages.getD i 0) (dst.getD i 0) (min 16384 (rows * t - 16384 * i)) with
        | (d, .ok s) => (d, max acc.2 s)
        | (d, .error _) => (d, max acc.2 1)) (d, 0))
      let d := d.unrefNode n
      let (d, go) := d.dmaOutcome e k st
      (d, rows, go)

/-- Room in the tree of partition p for `h` pages and one node, by eviction (R254, R255): whether there is. -/
def Dev.treeRoom : Nat → Dev → Nat → Nat → Dev × Bool
  | 0, d, _, _ => (d, false)
  | k + 1, d, p, h =>
    let ns := d.srv.nodes.filter (fun n => n.2.part == p)
    let pages := (ns.map (fun n => n.2.pages.length)).foldl (· + ·) 0
    if pages + h ≤ d.getF (rSrvPfxPages p) fSrvPfxPages_TreePages ∧ ns.length + 1 ≤ d.getF (rSrvPfxNodes p) fSrvPfxNodes_NodeMax
    then (d, true)
    else
      match d.evictable p with
      | none => (d, false)
      | some n => Dev.treeRoom k (d.evictNode n) p h

/-- A node number not in use: which, the spec leaves open. -/
def Dev.newNode (d : Dev) : Nat :=
  let free := (List.range 262144).filter (fun n => !thas d.srv.nodes n)
  free.getD (Config.freeWord d.free % free.length) 0

/-- PREFIX_PUBLISH: block b of entry e, now full, is offered to the tree (R254). -/
def Dev.publish (d : Dev) (e b : Nat) : Dev :=
  let x := d.entry e
  let h := d.tokb x.slot / 256
  let mine := (x.plist.drop (b * h)).take h
  let parent := if b = 0 then none else x.nodes[b - 1]?
  if d.getF (rSrvPfxCtrl x.part) fSrvPfxCtrl_Publish = 0 ∨ d.slotM4 x.slot ∨ (b ≠ 0 ∧ parent.isNone) ∨ x.nodes.length ≠ b
      ∨ mine.length ≠ h ∨ mine.any (fun g => g.shared) ∨ (x.block b).length ≠ 64 then d
  else
    let pkey := match parent with
      | some n => ((tfind d.srv.nodes n).elim 0 (fun (y : Node) => y.key))
      | none => 0
    let ts := x.block b
    let key := d.nodeKey x pkey ts
    if d.srv.nodes.any (fun n => n.2.part == x.part && n.2.key == key && n.2.tokens == ts) then d
    else
      let (d, ok) := Dev.treeRoom (d.srv.nodes.length + 1) d x.part h
      if !ok then d
      else
        let n := d.newNode
        let pages := mine.map PageEnt.page
        let nd : Node := { part := x.part, key := key, parent := parent, slot := x.slot, delta := x.ver, tokens := ts,
                           pages := pages, refs := 1, lastUse := d.time, bad := false }
        let d := { d with free := d.free + 1 }.onSrv (fun s => { s with nodes := tset s.nodes n nd })
        let d := match parent with
          | some m => d.onSrv (fun s => { s with nodes := s.nodes.map (fun (y : Nat × Node) =>
              if y.1 = m then (y.1, { y.2 with refs := y.2.refs + 1 }) else y) })
          | none => d
        let d := (pages.zip (List.range h)).foldl (fun d gi => d.setPlist e (b * h + gi.2) ⟨true, true, gi.1⟩) d
        (d.creditPool x.part h).modEntry e (fun x => { x with
          priv := x.priv.filter (fun g => !pages.contains g), nodes := x.nodes ++ [n] })

/-- The blocks that filled while POS went from `was` to its present value are offered (R254). -/
def Dev.publishFull (d : Dev) (e was : Nat) : Dev :=
  ((List.range ((d.entry e).pos / 64 + 1)).filter (fun b => was < 64 * (b + 1) && 64 * (b + 1) ≤ (d.entry e).pos)).foldl
    (fun d b => d.publish e b) d

/-- FLUSH (R255). -/
def Dev.flush (d : Dev) (p : Nat) : Dev := Dev.flushTree (d.srv.nodes.length + 1) d p

/-! ## Set-up (R15, R225, R239, R252) -/

/-- Bytes landing in the set-up buffer of sector `home`, portion after portion of 1 MiB (R239). -/
def Dev.landSetup (d : Dev) (home : Nat) (bs : List Byte) : Dev :=
  (chunksOf (2 ^ 20) (bs.length + 1) bs).foldl (fun d c =>
    { d with sram := sramWrite d.sram (home * 2 ^ 24 + 0x70_0000) c false }) d

/-- PAGE_REFUND at the end of set-up, after `hits` shared blocks (R225). -/
def Dev.refund (d : Dev) (e hits : Nat) : Dev :=
  let x := d.entry e
  let need := ceilDiv ((x.plen + x.glen - 64 * hits) * d.getF (rSrvCoefKvb x.part x.slot) fSrvCoefKvb_Kvb) 16384
  if x.resv ≤ need then d
  else (d.creditPool x.part (x.resv - need)).modEntry e (fun x => { x with resv := need })

/-- The prompt of an entry as the bytes of its token list. -/
def tokensOf (bs : List Byte) : List W32 := (chunksOf 4 bs.length bs).map (fun b => BitVec.ofNat 32 (leNat b))

/-- Set-up with the tokens at hand: prefix walk, refund, copy, first page of the tail, and the state it leads to. -/
def Dev.finishSetup (d : Dev) (e k : Nat) (ts : List W32) : Dev :=
  let d := d.modEntry e (fun x => { x with prompt := ts, lastToken := ts.getLast?.getD 0 })
  let x := d.entry e
  let tree := d.getF (rSrvPfxCtrl x.part) fSrvPfxCtrl_En == 1 && !d.slotM4 x.slot
  let (d, hits) := if tree then Dev.prefixWalk (x.plen / 64 + 1) d e 0 none 0 else (d, 0)
  let d := d.refund e hits
  let (d, rows, go) := if tree then d.copyOnWrite e hits k else (d, 0, true)
  if !go then d
  else
    let cached := 64 * hits + rows
    let (d, _) := Dev.growTo (d.pagesFor x.slot (cached + 1)) d e (cached * d.tokb x.slot / 16384 + 1)
    d.modEntry e (fun x => { x with
      pos := cached, state := if x.plen - cached = 1 then .decode else .prefill })

/-- SETUP_DONE: the token list of an admitted request has landed (R225, R239, R252, R253). It waits for a channel by
R344. -/
def Dev.setupDone (d : Dev) (e : Nat) : Dev :=
  let x := d.entry e
  if x.state ≠ .admitted ∨ d.hif.reads.any (fun r => r.purpose == .tokens e) then d
  else
    match d.setupEngine x with
    | none => d
    | some eng =>
      match d.dmaRead eng x.pkey x.tokensVa (4 * x.plen) with
      | (d, .error s) => d.abortEntry e (if s.1 = 0x60 then 2 else 3)
      | (d, .ok (bs, st)) =>
        let (d, go) := d.dmaOutcome e eng.sect st
        if !go then d else (d.landSetup x.home bs).finishSetup e eng.sect (tokensOf bs)

end Sys2Proof.Machine
end

