-- ==== Sys2Proof/Machine/Deltas.lean ====
section
/-! DEFINITION. What a bound delta version adds to the dense products of a step (09_attention_kv_and_variants.md R266, R267). -/

namespace Sys2Proof.Machine

/-- One block of a delta image (R266). -/
structure DeltaBlock where
  matrix : Nat
  brow : Nat
  bcol : Nat
  scale : Nat
  codes : List Byte
  deriving DecidableEq, Repr

def blockOf (bs : List Byte) : DeltaBlock :=
  let x : BitVec 128 := BitVec.ofNat 128 (leNat (bs.take 16))
  ⟨bitsOf x 0 16, bitsOf x 16 24, bitsOf x 40 24, bitsOf x 64 8, bs.drop 16⟩

/-- `n` bytes of partition p's memory as the serving engine reads model data, and the worst outcome; an address that the KV
descriptors' context does not translate counts as poison (log entry 54). -/
def Dev.modelBytes (d : Dev) (p va n : Nat) : Dev × GranRead :=
  (cutGrans (n + 1) va (zeros n)).foldl (fun (acc : Dev × GranRead) piece =>
    let e := acc.1.kvEngine p
    let loc := match (acc.1.walk e piece.1).2 with
      | .ok (pa, _, _) => acc.1.locate e pa
      | .error s => .error s
    match loc with
    | .error _ => (acc.1, (acc.2.1 ++ zeros piece.2.length, max acc.2.2 1))
    | .ok l =>
      let (d, r) := acc.1.readBy e.sect e.src l piece.2.length
      (d, (acc.2.1 ++ r.1, max acc.2.2 r.2))) (d, ([], 0))

/-- The blocks of version v that meet output row n of weight matrix m, in the order of the image, and whether one was poison. -/
def Dev.blocksFor (d : Dev) (v m n : Nat) : Dev × List DeltaBlock × Bool :=
  let x := d.version v
  (List.range x.nb).foldl (fun (acc : Dev × List DeltaBlock × Bool) i =>
    let at_ := x.base + 64 + 272 * i
    let (d, h) := acc.1.modelBytes x.part at_ 16
    let b := blockOf h.1
    if h.2 = 0 ∧ (b.matrix ≠ m ∨ b.brow ≠ n / 16) then (d, acc.2)
    else
      let (d, r) := d.modelBytes x.part at_ 272
      (d, acc.2.1 ++ [blockOf r.1], acc.2.2 || r.2 != 0)) (d, [], false)

def prodRead (e : ProdElem) : ElemRead := ⟨e.code, e.scale, 0⟩

def prodOps (z : DenseProd) : PairOps := ⟨z.pair, z.wType, z.xType, z.wScaled, z.xScaled⟩

/-- The terms of one block for output row n: Δ(k − 16 BCOL, n − 16 BROW) × 2^(SCALE − 127) × x(k, b) (R267), x with its own block
scale. -/
def DeltaBlock.terms (b : DeltaBlock) (z : DenseProd) (anchor : Int) : LaneProd :=
  (List.range 16).foldl (fun (p : LaneProd) r =>
    match z.x[16 * b.bcol + r]? with
    | none => p
    | some x =>
      if z.xScaled && x.scale.isNone then p
      else
        p.addTerm anchor (combined (some b.scale) x.scale) (codeNum tE4M3 (b.codes.getD (16 * r + z.row % 16) 0).toNat)
          (codeNum z.xType x.code)) { anchor := anchor }

/-- One dense product of a request: the base terms at the anchor that the base alone chooses, the terms of the blocks, and one
readout, converted by R40 (R267, R35). A delta to a BF16 product, which sums in FP32, leaves a value that the spec does not
state: a free one. -/
def prodValue (z : DenseProd) (bs : List DeltaBlock) (free : Nat) : Nat × Byte :=
  let base := dotLane (prodOps z) z.anchor (z.w.map prodRead) (z.x.map prodRead)
  let l := if z.pair = 2 then base else bs.foldl (fun l b => l.land false false (b.terms z l.anchor)) base
  let v := if z.outType = 12 then l.read (z.pair == 2) 2 0 else l.read (z.pair == 2) 0 z.shift
  if z.pair = 2 ∧ !bs.isEmpty then (Config.freeWord free % 2 ^ elemBits z.outType, BitVec.ofNat 8 (Config.freeWord (free + 1)))
  else if z.outType = 12 then (v.1, v.2.1)
  else
    let n := narrow z.outType (if z.sat then some true else none) (BitVec.ofNat 32 v.1)
    (n.1, v.2.1 ||| n.2)

/-- The dense products of a step of entry e, each with what the entry's version adds, written where the program puts them: the
flags they raise, and whether model data read was poison. -/
def Dev.runProducts (d : Dev) (e : Nat) (zs : List DenseProd) : Dev × Byte × Bool :=
  let x := d.entry e
  zs.foldl (fun (acc : Dev × Byte × Bool) z =>
    let (d, bs, bad) := if x.deltaEn then acc.1.blocksFor x.delta z.matrix z.row else (acc.1, [], false)
    let v := prodValue z bs d.free
    let d := { d with free := d.free + 2 }
    let d := if bad then d
      else (d.writeVa (d.kvEngine x.part) (d.pfxPkey x.part) z.va (leBytes (elemBytes z.outType) v.1) (d.kvWrite x.part)).1
    (d, acc.2.1 ||| v.2, acc.2.2 || bad)) (d, 0, false)

end Sys2Proof.Machine
end

