-- ==== Sys2Proof/Machine/Sampling.lean ====
section
/-! DEFINITION. How a token is decided (09_attention_kv_and_variants.md R258, R259). -/

namespace Sys2Proof.Machine

/-- A key that orders FP32 numbers, the two zeros alike. -/
def realKey (w : W32) : Int := if (numOf w).isZero then 0 else orderKey w

/-- a ≤ b as numbers; false with a NaN. -/
def fle (a b : W32) : Bool := !isNan32 a && !isNan32 b && realKey a ≤ realKey b

/-- a < b as numbers; false with a NaN. -/
def flt (a b : W32) : Bool := !isNan32 a && !isNan32 b && realKey a < realKey b

/-- uniform(k, j) of R259. -/
def uniform (seed : W32) (k j : Nat) : W32 :=
  let h := sipHash (BitVec.ofNat 128 seed.toNat) (leBytes 4 k ++ [BitVec.ofNat 8 j] ++ zeros 3)
  (round32 false (h.toNat >>> 40) (-24)).1

/-- The lowest index of the maximum of a row (R38, R259). -/
def argmax (row : List W32) : Nat :=
  ((row.zip (List.range row.length)).foldl (fun (best : W32 × Nat) x =>
    if indexGreater x.1 best.1 then x else best) (row.headD 0, 0)).2

/-- Weights of a row of logits, their sum, and the flags raised (R259). -/
def weights (logits : List W32) (temp : W32) : List W32 × W32 × Byte :=
  let m := logits.tail.foldl fmax (logits.headD 0)
  let r := vrcp temp
  let kt := fmul 0x3FB8AA3B r.1
  let ws := logits.map (fun x =>
    let a := fsub x m
    let b := fmul a.1 kt.1
    let c := vexp2 b.1
    (c.1, a.2 ||| b.2 ||| c.2))
  let s := bf16Sum 0 (ws.map (·.1))
  (ws.map (·.1), s.1, ws.foldl (fun f w => f ||| w.2) (r.2 ||| kt.2 ||| s.2))

/-- Chunks passed over by draw: the sum before the chunk that holds the target, that chunk's number, and the flags. -/
def skipChunks (target : W32) : List W32 → W32 → Nat → Byte → W32 × Nat × Byte
  | r :: r' :: rest, s, c, fl =>
    let a := fadd s r
    if fle a.1 target then skipChunks target (r' :: rest) a.1 (c + 1) (fl ||| a.2) else (s, c, fl ||| a.2)
  | _, s, c, fl => (s, c, fl)

/-- The first element at which the running sum passes the target. -/
def drawIn (target : W32) : List W32 → W32 → Nat → Byte → Option Nat × Byte
  | [], _, _, fl => (none, fl)
  | w :: ws, s, i, fl =>
    let a := fadd s w
    if flt target a.1 then (some i, fl ||| a.2) else drawIn target ws a.1 (i + 1) (fl ||| a.2)

/-- draw(w, S, u) of R259. -/
def draw (w : List W32) (sum u : W32) : Nat × Byte :=
  let chunks := chunksOf 64 w.length w
  let roots := chunks.map treeRoot
  let t := fmul u sum
  let c := skipChunks t.1 (roots.map (·.1)) 0 0 t.2
  let fl := roots.foldl (fun f r => f ||| r.2) c.2.2
  match drawIn t.1 (chunks.getD c.2.1 []) c.1 (64 * c.2.1) fl with
  | (some i, fl) => (i, fl)
  | (none, fl) =>
    let upto := w.take (64 * (c.2.1 + 1))
    (((List.range upto.length).filter (fun i => flt 0 (upto.getD i 0))).foldl max 0, fl)

/-- Whether a request is greedy (R259). -/
def Entry.greedy (x : Entry) : Bool := !x.sample || x.temp == 0

/-- The token drawn from the main model alone. -/
def Entry.mainToken (x : Entry) (k : Nat) (row : List W32) : Nat × Byte :=
  if x.greedy then (argmax row, 0)
  else
    let w := weights row x.temp
    let r := draw w.1 w.2.1 (uniform x.seed k 1)
    (r.1, w.2.2 ||| r.2)

/-- The test of draft t for token k: whether it is accepted, and the token taken when it is not, with flags (R259). -/
def Entry.testDraft (x : Entry) (k : Nat) (row crow : List W32) (t : W32) : Bool × Nat × Byte :=
  if x.greedy then (t.toNat == argmax row, argmax row, 0)
  else
    let wp := weights row x.temp
    let wq := weights crow x.temp
    let rp := vrcp wp.2.1
    let rq := vrcp wq.2.1
    let p := wp.1.map (fun w => fmul w rp.1)
    let q := wq.1.map (fun w => fmul w rq.1)
    let lhs := fmul (uniform x.seed k 0) ((q.map (·.1)).getD t.toNat 0)
    let fl := (p ++ q).foldl (fun f v => f ||| v.2) (wp.2.2 ||| wq.2.2 ||| rp.2 ||| rq.2 ||| lhs.2)
    if flt lhs.1 ((p.map (·.1)).getD t.toNat 0) then (true, 0, fl)
    else
      let r := (p.zip q).map (fun v => let s := fsub v.1.1 v.2.1; (fmax 0 s.1, s.2))
      let sr := bf16Sum 0 (r.map (·.1))
      let dr := draw (r.map (·.1)) sr.1 (uniform x.seed k 1)
      (false, dr.1, r.foldl (fun f v => f ||| v.2) (fl ||| sr.2 ||| dr.2))

/-- COLT_VERIFY: the tokens a pass yields from token index k on, and its flags (R258): the leading drafts accepted, then one
token of the main model. -/
def Entry.verify (x : Entry) : Nat → List (List W32) → List (List W32) → List W32 → List W32 × Byte
  | k, rows, _, [] => let r := x.mainToken k (rows.headD []); ([BitVec.ofNat 32 r.1], r.2)
  | k, rows, crows, t :: ts =>
    match x.testDraft k (rows.headD []) (crows.headD []) t with
    | (true, _, fl) => let r := x.verify (k + 1) rows.tail crows.tail ts; (t :: r.1, fl ||| r.2)
    | (false, i, fl) => ([BitVec.ofNat 32 i], fl)

/-- The tokens kept: those up to and with the one that equals EOS (R258). -/
def cutEos (eos : W32) : List W32 → List W32
  | [] => []
  | t :: ts => if t = eos then [t] else t :: cutEos eos ts

end Sys2Proof.Machine
end

