-- ==== Sys2Proof/Machine/Serving.lean ====
section
/-! DEFINITION. Serving cycles, decode steps, prefill slices, and the delivery of tokens (08_requests_and_promises.md R232 to
R235; 09 R244, R246 to R249, R254, R258, R260; 10 R304; 12 R339, R343). -/

namespace Sys2Proof.Machine

/-! ## KV descriptors and M4 slots (R246 to R249) -/

/-- A KV descriptor (R246): VERSION 1, CLAMP, FAULT. -/
def kvDesc (elem rank pkey base : Nat) (sizes : List Nat) (strides : List Nat) : Rec :=
  let put (lo w : Nat) (xs : List Nat) : Nat := ((xs.zip (List.range xs.length)).map (fun x => atBit (lo + w * x.2) (x.1 % 2 ^ w))).sum
  BitVec.ofNat 512 (1 + atBit 4 elem + atBit 8 rank + atBit 16 pkey + atBit 64 (base % 2 ^ 48) + put 128 24 sizes
    + put 272 32 strides)

def Dev.layersOf (d : Dev) (s : Nat) : Nat := d.getF (rSrvSlotGeom s) fSrvSlotGeom_Layers
def Dev.rowElems (d : Dev) (s : Nat) : Nat := d.getF (rSrvSlotGeom s) fSrvSlotGeom_D
def Dev.keepOf (d : Dev) (s : Nat) : Nat := d.getF (rSrvSlotKeep s) fSrvSlotKeep_Keep
def Dev.sinkOf (d : Dev) (s : Nat) : Nat := d.getF (rSrvSlotKeep s) fSrvSlotKeep_Sink
def Dev.recentOf (d : Dev) (s : Nat) : Nat := d.getF (rSrvSlotM4 s) fSrvSlotM4_Recent

/-- The first byte of the KV window of entry e (R242). -/
def Dev.windowOf (d : Dev) (e : Nat) : Nat :=
  let p := (d.entry e).part
  d.getF (rSrvKvWin p) fSrvKvWin_Base * 2 ^ 16 + (e - d.entryBase p) * 2 ^ d.getF (rSrvKvWin p) fSrvKvWin_Wlog2

/-- Descriptors of a request at batch position: `attended` rows after the command, `new` rows from token slot `first` on
(Table 9-2). -/
def Dev.kvDescs (d : Dev) (e attended new first : Nat) : List Rec :=
  let s := (d.entry e).slot
  let w := d.windowOf e
  let ls := d.layersOf s
  let row := d.rowElems s
  let t := d.tokb s
  let k := d.pfxPkey (d.entry e).part
  (List.range ls).map (fun l => kvDesc tE4M3 2 k (w + l * row) [row, attended] [1, t])
    ++ [kvDesc tE4M3 3 k (w + first * t) [row, ls, new] [1, row, t]]
    ++ (if d.slotM4 s then [kvDesc tFP32 1 k (w + ls * row) [attended] [t]] else [])

/-- Descriptors each request of slot s takes (R246). -/
def Dev.descsEach (d : Dev) (s : Nat) : Nat := d.layersOf s + (if d.slotM4 s then 2 else 1)

/-- KV_DESC_WRITE for batch position i (R246): the descriptors go into the table of the KV descriptors' context. -/
def Dev.writeKvDescs (d : Dev) (e i attended new first : Nat) : Dev :=
  let x := d.entry e
  let c := d.getF (rSrvKvDesc x.part) fSrvKvDesc_Ctx
  let n := d.descsEach x.slot
  let nbp := d.getF (rSrvKvDesc x.part) fSrvKvDesc_Hcount / n
  let h := d.getF (rSrvKvDesc x.part) fSrvKvDesc_Hbase + i % nbp * n
  let va := d.getF (rSectDtabBase (d.liveSect x.part) c) fSectDtabBase_Base * 65536 + 64 * h
  (d.writeVa (d.kvEngine x.part) 0 va ((d.kvDescs e attended new first).flatMap recBytes) (d.kvWrite x.part)).1

/-- Whether the descriptors of one request of slot s fit the range of handles. -/
def Dev.descsFit (d : Dev) (p s : Nat) : Bool := d.descsEach s ≤ d.getF (rSrvKvDesc p) fSrvKvDesc_Hcount

/-- The byte of the window of entry e at which token slot `i` keeps its SCORE (R247). -/
def Dev.scoreVa (d : Dev) (e i : Nat) : Nat :=
  let s := (d.entry e).slot
  d.windowOf e + i * d.tokb s + d.layersOf s * d.rowElems s

/-- SCORE and POSITION of the first `n` token slots of entry e, in slot order; `none` when they cannot be read (R343). -/
def Dev.readScores (d : Dev) (e n : Nat) : Dev × Option (List (W32 × Nat)) :=
  let p := (d.entry e).part
  (List.range n).foldl (fun (acc : Dev × Option (List (W32 × Nat))) i =>
    match acc with
    | (d, none) => (d, none)
    | (d, some xs) =>
      match d.dmaRead (d.kvEngine p) (d.pfxPkey p) (d.scoreVa e i) 8 with
      | (d, .ok (bs, 0)) => (d, some (xs ++ [(BitVec.ofNat 32 (leNat (bs.take 4)), leNat (bs.drop 4))]))
      | (d, _) => (d, none)) (d, some [])

/-- Whether score a ranks below score b, a NaN below any number (R248, R249). -/
def scoreBelow (a b : W32) : Bool := if isNan32 a then !isNan32 b else if isNan32 b then false else realKey a < realKey b

/-- The token slot whose row a decode step of an M4 request overwrites when KEEP slots are held (R249). -/
def Dev.victim (d : Dev) (e : Nat) (xs : List (W32 × Nat)) : Option Nat :=
  let x := d.entry e
  let elig := (xs.zip (List.range xs.length)).filter (fun y =>
    d.sinkOf x.slot ≤ y.1.2 && y.1.2 + d.recentOf x.slot < x.pos)
  (elig.foldl (fun (best : Option ((W32 × Nat) × Nat)) y =>
    match best with
    | none => some y
    | some b =>
      if scoreBelow y.1.1 b.1.1 ∨ (!scoreBelow b.1.1 y.1.1 ∧ y.1.2 < b.1.2) then some y else some b) none).map (·.2)

/-- The serving engine writes the SCORE (when given) and POSITION of a token slot (R247, R249). -/
def Dev.writeScore (d : Dev) (e i : Nat) (score : Option W32) (pos : Nat) : Dev :=
  let p := (d.entry e).part
  let go (d : Dev) (va : Nat) (bs : List Byte) : Dev :=
    (d.writeVa (d.kvEngine p) (d.pfxPkey p) va bs (d.kvWrite p)).1
  let d := match score with
    | some w => go d (d.scoreVa e i) (leBytes 4 w.toNat)
    | none => d
  go d (d.scoreVa e i + 4) (leBytes 4 pos)

/-- The token slot that takes the new row of an M4 request, with its SCORE and POSITION as the step begins (M4_VICTIM); a
score that cannot be read aborts the request. Whether it goes on. -/
def Dev.m4Slot (d : Dev) (e : Nat) : Dev × Nat × Bool :=
  let x := d.entry e
  let keep := d.keepOf x.slot
  if x.pos < keep then (d.writeScore e x.pos none x.pos, x.pos, true)
  else
    match d.readScores e keep with
    | (d, none) => (d.abortEntry e 2, 0, false)
    | (d, some xs) =>
      match d.victim e xs with
      | none => (d, 0, false)
      | some i => (d.writeScore e i (some 0) x.pos, i, true)

/-- The positions that M4_EVICTION keeps, ascending (R248). -/
def Dev.keptPositions (d : Dev) (e : Nat) (xs : List (W32 × Nat)) : List Nat :=
  let s := (d.entry e).slot
  let n := xs.length
  let sink := d.sinkOf s
  let recent := d.recentOf s
  let rest := (List.range n).filter (fun i => sink ≤ i && i + recent < n)
  let rank := rest.foldl (fun (acc : List Nat) i =>
    let sc (j : Nat) : W32 := (xs.getD j (0, 0)).1
    acc.takeWhile (fun j => !scoreBelow (sc j) (sc i)) ++ [i] ++ acc.dropWhile (fun j => !scoreBelow (sc j) (sc i))) []
  let top := rank.take (d.keepOf s - sink - recent)
  (List.range n).filter (fun i => i < sink || n ≤ i + recent || top.contains i)

/-- M4_EVICTION (R248) by channel 0 of sector k: whether the request goes on. -/
def Dev.m4Evict (d : Dev) (e k : Nat) : Dev × Bool :=
  let x := d.entry e
  if !d.slotM4 x.slot ∨ x.plen ≤ d.keepOf x.slot then (d, true)
  else
    match d.readScores e x.plen with
    | (d, none) => (d.abortEntry e 2, false)
    | (d, some xs) =>
      let t := d.tokb x.slot
      let eng := dmaOf x.part (d.kvEngine x.part).ctx k
      let ps := d.keptPositions e xs
      let (d, st) := (ps.zip (List.range ps.length)).foldl (fun (acc : Dev × Nat) y =>
        if y.1 = y.2 then acc
        else
          match acc.1.dmaMove eng none (acc.1.pfxPkey x.part) (acc.1.windowOf e + y.1 * t) (acc.1.windowOf e + y.2 * t) t with
          | (d, .ok s) => (d, max acc.2 s)
          | (d, .error _) => (d, max acc.2 1)) (d, 0)
      d.dmaOutcome e k st

/-! ## Cycles (R232) -/

/-- Requests of a partition in a state, ascending. -/
def Dev.inState (d : Dev) (p : Nat) (st : ReqState) : List Nat := d.entriesWhere (fun x => x.part == p && x.state == st)

/-- The requests of slot s that take a decode step in this cycle: not those that left PREFILL in it (R232). -/
def Dev.decodersOf (d : Dev) (p s : Nat) : List Nat :=
  (d.inState p .decode).filter (fun e => (d.entry e).slot == s && !(d.entry e).fresh)

def Dev.stepDone (d : Dev) (p s : Nat) : Bool := (tget d.srv.stepsDone [] p).contains s

/-- The slots that still owe a decode step in the cycle in progress, ascending. -/
def Dev.stepsLeft (d : Dev) (p : Nat) : List Nat :=
  (List.range 16).filter (fun s => !d.stepDone p s && !(d.decodersOf p s).isEmpty)

/-- Whether partition p runs cycles now: it is not in reset, the device is ACTIVE, and its fold job is not stopped (R304). -/
def Dev.cyclesRun (d : Dev) (p : Nat) : Bool := d.partExists p && !d.inReset p && d.pstate == 0 && !d.jobStopped p

/-- In a fold partition, the beat at which the next step or slice starts: the period start at which it became ready, or the next
one (R302). -/
def Dev.readyFold (d : Dev) (p : Nat) : Dev :=
  if !d.foldPart p then d
  else d.onSrv (fun s => { s with
    foldFrom := tmod s.foldFrom 0 p (fun b => if d.fab.beatNo ≤ b ∧ thas s.foldFrom p then b else d.nextPeriod) })

/-- SERVING_CYCLE: a cycle starts when the one before has run its steps and its slice; it wakes the partition's sectors
(R232, R368). -/
def Dev.servingCycle (d : Dev) (p : Nat) : Dev :=
  if !d.cyclesRun p ∨ (thas d.srv.cycles p ∧ (!(d.stepsLeft p).isEmpty ∨ !(d.inState p .prefill).isEmpty))
      ∨ ((d.inState p .decode).isEmpty ∧ (d.inState p .prefill).isEmpty) then d
  else
    ((((d.sectorsOf p).foldl (fun d k => d.sectorWake k) d).runBegins p).onSrv (fun s => { s with
      cycles := tset s.cycles p d.time, stepsDone := tdel s.stepsDone p
      entries := s.entries.map (fun (e : Nat × Entry) => if e.2.part = p then (e.1, { e.2 with fresh := false }) else e) })).readyFold p

/-- Whether the job of partition p lost data in the period that ended last, or is stopped: its step or slice is run again
(R303, R304). -/
def Dev.gapped (d : Dev) (p : Nat) : Bool :=
  d.foldPart p && (bitOf d.fab.lastGap (d.jobOf p) || d.stoppedJob (d.jobOf p))

/-- When the program of a step or slice of partition p ends now: in a fold partition `none` before its period has begun or while
one of that period waits for its outcome, else whether it ends within its period; `true` elsewhere (R302). -/
def Dev.stepInTime (d : Dev) (p : Nat) : Option Bool :=
  let b := tget d.srv.foldFrom 0 p
  if !d.foldPart p then some true
  else if thas d.srv.foldRuns p ∨ d.fab.beatNo < b then none
  else some (decide (d.fab.beatNo < b + d.period))

/-! ## Decode steps (R232, R258, R260) -/

/-- Draft tokens of the next pass of a request (R257, R260). -/
def Entry.drafts (x : Entry) : Nat :=
  let room := x.glen - x.gen - 1
  if x.colt ≠ 0 then min x.colt room else if x.coltMax ≠ 0 ∧ x.gen % 64 = 0 then min x.coltMax room else 0

/-- COLT_ADAPT after a pass of `n` drafts of which `k` were accepted (R260). -/
def Dev.coltAdapt (d : Dev) (e n k : Nat) : Dev :=
  let x := d.entry e
  if n = 0 then d
  else
    let d := (d.addF (rSrvColtPass x.part) fSrvColtPass_Pass 1).addF (rSrvColtTok x.part) fSrvColtTok_Tok k
    if k ≠ 0 then d.modEntry e (fun x => { x with rejects := 0, colt := if x.colt = 0 then x.coltMax else x.colt })
    else if x.colt ≠ 0 ∧ x.rejects + 1 = 3 then
      (d.modEntry e (fun x => { x with rejects := 3, colt := 0 })).addF (rSrvColtDrop x.part) fSrvColtDrop_Drop 1
    else d.modEntry e (fun x => { x with rejects := x.rejects + 1 })

/-- Whether a page of a node holds poison. -/
def Dev.nodePoisoned (d : Dev) (n : Node) : Bool :=
  n.pages.any (fun a =>
    match (d.walk (d.kvEngine n.part) a).2 with
    | .ok (pa, _, _) => isStk pa && (List.range 256).any (fun i => (d.stk.flag (granOf pa + 64 * i)).poison)
    | .error _ => false)

/-- A step of entry e read poison: its request alone is aborted, and the nodes it names that hold poison are BAD (R236, R256). -/
def Dev.poisonStep (d : Dev) (e : Nat) : Dev :=
  let ns := (d.entry e).nodes.filter (fun n => ((tfind d.srv.nodes n).map d.nodePoisoned).getD false)
  (ns.foldl (fun d n => d.markBad n) d).abortEntry e 2

/-- What a serving program wrote (its addresses are its own; a write that fails is not made). -/
def Dev.programWrites (d : Dev) (p : Nat) (ws : List (Nat × List Byte)) : Dev :=
  ws.foldl (fun d w => (d.writeVa (d.kvEngine p) (d.pfxPkey p) w.1 w.2 (d.kvWrite p)).1) d

/-- Tokens that a step produced join those waiting for handover, numbered on from GEN (R233, R258). -/
def Dev.produce (d : Dev) (e : Nat) (ts : List W32) (fl : Byte) : Dev :=
  d.modEntry e (fun x => { x with
    outs := (ts.zip (List.range ts.length)).map (fun t => ⟨t.1, x.gen + 1 + t.2, fl⟩)
    gen := x.gen + ts.length
    output := x.output ++ ts
    lastToken := ts.getLast?.getD x.lastToken })

/-- Entries of a batch that can take the step, with the pages their new rows reach (R244): those that cannot wait. -/
def Dev.readyBatch (d : Dev) (es : List Nat) (rows : Entry → Nat) : Dev × List Nat :=
  es.foldl (fun (acc : Dev × List Nat) e =>
    let (d, bad) := acc.1.readWord .reqTable e 0
    if bad then (d.recover (d.entry e).part 2, acc.2)
    else
      let (d, ok) := d.reachRows e (rows (d.entry e))
      (d, if ok then acc.2 ++ [e] else acc.2)) (d, [])

/-- Rows of the cache that a decode pass of an entry reaches. -/
def Dev.decodeRows (d : Dev) (x : Entry) : Nat :=
  if d.slotM4 x.slot then min (x.pos + 1) (d.keepOf x.slot) else x.pos + x.drafts + 1

/-- What the step does for one request before its program runs: M4 slot and KV descriptors. -/
def Dev.beforeStep (d : Dev) (e i : Nat) : Dev :=
  let x := d.entry e
  if d.slotM4 x.slot then
    let (d, slot, go) := d.m4Slot e
    if go then d.writeKvDescs e i (min (x.pos + 1) (d.keepOf x.slot)) 1 slot else d
  else d.writeKvDescs e i (x.pos + x.drafts + 1) (x.drafts + 1) x.pos

/-- What the step does with one request's result (R258, R260, R254). -/
def Dev.afterStep (d : Dev) (r : StepResult) : Dev :=
  let e := r.entry.val
  let x := d.entry e
  if x.state ≠ .decode then d
  else if r.poison then d.poisonStep e
  else
    let n := x.drafts
    let v := x.verify (x.gen + 1) r.mainRows r.coltRows (r.drafts.take n)
    let k := v.1.length - 1
    let d := (d.produce e (cutEos x.eos v.1) (r.aflags ||| v.2)).coltAdapt e n k
    (d.modEntry e (fun y => { y with pos := y.pos + k + 1 })).publishFull e x.pos

/-- Whether results cover a batch with the rows that its passes need. -/
def Dev.covers (d : Dev) (es : List Nat) (rs : List StepResult) : Bool :=
  rs.map (fun r => r.entry.val) == es && rs.all (fun r =>
    let n := (d.entry r.entry.val).drafts
    r.poison || (r.drafts.length == n && r.mainRows.length == n + 1 && r.coltRows.length == n && !r.mainRows.any List.isEmpty))

/-- What the programs of a step wrote, and their dense products with the bound versions' terms (R267): the results with the flags
and the poison that these met. -/
def Dev.stepWrites (d : Dev) (p : Nat) : List StepResult → Dev × List StepResult
  | [] => (d, [])
  | r :: rs =>
    let (d, fl, bad) := (d.programWrites p r.writes).runProducts r.entry.val r.products
    let (d, rs) := d.stepWrites p rs
    (d, { r with aflags := r.aflags ||| fl, poison := r.poison || bad } :: rs)

/-- The outcome of a decode step of slot s whose results stand. -/
def Dev.finishStep (d : Dev) (p s : Nat) (rs : List StepResult) : Dev :=
  (rs.foldl (fun d r => d.afterStep r) d).onSrv (fun sv => { sv with stepsDone := tmod sv.stepsDone [] p (· ++ [s]) })

/-- A step or slice of a fold partition waits for the end of its period. -/
def Dev.keepRun (d : Dev) (p : Nat) (x : FoldRun) : Dev := d.onSrv (fun s => { s with foldRuns := tset s.foldRuns p x })

/-- A step or slice of a fold partition that overran its period is run again in the next one (R302, R304). -/
def Dev.rerun (d : Dev) (p : Nat) : Dev := d.onSrv (fun s => { s with foldFrom := tset s.foldFrom p d.nextPeriod })

/-- The counts RC5 to RC7 that a step or slice of partition p latches (R200). -/
def Dev.latchRc (d : Dev) (p : Nat) (rc : List Nat) : Dev := d.onSrv (fun s => { s with counts := tset s.counts p rc })

/-- DECODE_STEP: the step of slot s in the cycle of partition p has run for its batch with these results (R232); in a fold
partition its outcome waits for the end of its period (R302, R304). It is left as it was where the cycle does not stand there,
tokens wait for handover, or the results do not cover the batch. -/
def Dev.decodeStep (d : Dev) (p s : Nat) (rs : List StepResult) : Dev :=
  if (d.stepInTime p).isNone ∨ !d.cyclesRun p ∨ !thas d.srv.cycles p ∨ (d.stepsLeft p).head? ≠ some s ∨ !d.descsFit p s
      ∨ (d.decodersOf p s).any (fun e => !(d.entry e).outs.isEmpty) then d
  else
    let (d1, es) := d.readyBatch (d.decodersOf p s) d.decodeRows
    if !d1.covers es rs then d
    else
      let key := d.stepPhase p s es.length
      let d2 := (es.zip (List.range es.length)).foldl (fun d ei => d.beforeStep ei.1 ei.2)
        (d1.latchRc p (stepCounts (d1.inTiles p es.length) es.length))
      let (d3, rs) := d2.stepWrites p rs
      let d4 := d3.runEnds p key
      if !d.foldPart p then d4.finishStep p s rs
      else if d.stepInTime p = some true then d4.keepRun p (.step s rs)
      else d4.rerun p

/-! ## Prefill slices (R232, R248) -/

/-- Requests in PREFILL in the order of their admission. -/
def Dev.prefillOrder (d : Dev) (p : Nat) : List Nat :=
  (d.inState p .prefill).foldl (fun (acc : List Nat) e =>
    acc.takeWhile (fun j => (d.entry j).order ≤ (d.entry e).order) ++ [e]
      ++ acc.dropWhile (fun j => (d.entry j).order ≤ (d.entry e).order)) []

/-- The worst-case work in ns of `n` rows of a prompt, by the coefficients of R224 for rows; PF_BASE, which R224 charges to a
prompt and to none of its rows, is not in it (a DESIGN CHOICE, log entry 54). -/
def Dev.rowsWork (d : Dev) (x : Entry) (n : Nat) : Nat :=
  ceilDiv (n * d.getF (rSrvCoefPfTok x.part x.slot) fSrvCoefPfTok_PfTok * 1000
    + ((x.pos + n) * (x.pos + n) - x.pos * x.pos) * d.getF (rSrvCoefPfSq x.part x.slot) fSrvCoefPfSq_PfSq) 1000000

/-- Whether a slice is at most PF_SLICE of worst-case work (R232). -/
def Dev.sliceSmall (d : Dev) (p : Nat) (rs : List SliceResult) : Bool :=
  (rs.map (fun r => if r.poison then 0 else d.rowsWork (d.entry r.entry.val) r.tokens)).foldl (· + ·) 0
    ≤ d.getF (rSrvAdmPfSlice p) fSrvAdmPfSlice_PfSlice

/-- Whether a slice's results fit its requests: rows of their prompts, and logits where one ends. -/
def Dev.sliceFits (d : Dev) (rs : List SliceResult) : Bool :=
  rs.all (fun r =>
    let x := d.entry r.entry.val
    x.outs.isEmpty && (r.poison || (0 < r.tokens && x.pos + r.tokens ≤ x.plen
      && (x.pos + r.tokens != x.plen || (r.finalRow.any (fun w => !w.isEmpty) && (d.setupEngine x).isSome)))))

/-- What the slice does with one request's result: rows, full blocks, and at the end of the prompt the eviction and the first
token. -/
def Dev.afterSlice (d : Dev) (r : SliceResult) : Dev :=
  let e := r.entry.val
  let x := d.entry e
  if x.state ≠ .prefill then d
  else if r.poison then d.poisonStep e
  else
    let d := (d.modEntry e (fun y => { y with pos := y.pos + r.tokens })).publishFull e x.pos
    if x.pos + r.tokens ≠ x.plen then d
    else
      match d.setupEngine x with
      | none => d
      | some eng =>
        let (d, go) := d.m4Evict e eng.sect
        if !go then d
        else
          let t := x.mainToken 1 (r.finalRow.getD [])
          d.produce e [BitVec.ofNat 32 t.1] (r.aflags ||| t.2)

/-- A cycle of partition p ends: its sectors are idle from now on until something runs there (R367, R368). -/
def Dev.endCycle (d : Dev) (p : Nat) : Dev :=
  ((d.sectorsOf p).foldl (fun d k => d.modSect k (fun s => { s with idleSince := d.time })) d).onSrv (fun sv => { sv with
    cycles := tdel sv.cycles p, stepsDone := tdel sv.stepsDone p })

/-- What the programs of a slice wrote, as of a step. -/
def Dev.sliceWrites (d : Dev) (p : Nat) : List SliceResult → Dev × List SliceResult
  | [] => (d, [])
  | r :: rs =>
    let (d, fl, bad) := (d.programWrites p r.writes).runProducts r.entry.val r.products
    let (d, rs) := d.sliceWrites p rs
    (d, { r with aflags := r.aflags ||| fl, poison := r.poison || bad } :: rs)

/-- The outcome of a slice whose results stand. -/
def Dev.finishSlice (d : Dev) (p : Nat) (rs : List SliceResult) : Dev := (rs.foldl (fun d r => d.afterSlice r) d).endCycle p

/-- PREFILL_SLICE: after the cycle's decode steps, a slice of at most PF_SLICE has run for requests in PREFILL in admission order,
and the cycle ends (R232); in a fold partition its outcome waits for the end of its period (R302, R304). -/
def Dev.prefillSlice (d : Dev) (p : Nat) (rs : List SliceResult) : Dev :=
  if (d.stepInTime p).isNone ∨ !d.cyclesRun p ∨ !thas d.srv.cycles p ∨ !(d.stepsLeft p).isEmpty ∨ !d.sliceFits rs
      ∨ !d.sliceSmall p rs
      ∨ rs.any (fun r => !d.descsFit p (d.entry r.entry.val).slot) then d
  else
    let rowsOf (x : Entry) : Nat := x.pos + ((rs.find? (fun r => (d.entry r.entry.val).order == x.order)).elim 0 (·.tokens))
    let (d1, es) := d.readyBatch ((d.prefillOrder p).take rs.length) rowsOf
    if rs.map (fun r => r.entry.val) ≠ es then d
    else
      let key := rs.head?.map (fun r => slicePhase p (d.entry r.entry.val).slot)
      let d2 := (rs.zip (List.range rs.length)).foldl (fun d ri =>
        let e := ri.1.entry.val
        let x := d.entry e
        let d := if d.slotM4 x.slot then (List.range ri.1.tokens).foldl (fun d j => d.writeScore e (x.pos + j) none (x.pos + j)) d else d
        d.writeKvDescs e ri.2 (x.pos + ri.1.tokens) ri.1.tokens x.pos) (d1.latchRc p (stepCounts 1 rs.length))
      let (d3, rs) := d2.sliceWrites p rs
      let d4 := match key with
        | none => d3
        | some x => d3.runEnds p x
      if !d.foldPart p then d4.finishSlice p rs
      else if d.stepInTime p = some true then d4.keepRun p (.slice rs)
      else d4.rerun p

/-- The period of the beat that ends is over: the step or slice of each fold partition that ran in it stands, or is run again
where its job lost data or stopped; the next one starts with the next period (R302 to R304). -/
def Dev.settleRuns (d : Dev) : Dev :=
  d.srv.foldRuns.foldl (fun d (e : Nat × FoldRun) =>
    let d := d.onSrv (fun s => { s with foldRuns := tdel s.foldRuns e.1, foldFrom := tset s.foldFrom e.1 (d.fab.beatNo + 1) })
    if d.gapped e.1 then d
    else
      match e.2 with
      | .step s rs => d.finishStep e.1 s rs
      | .slice rs => d.finishSlice e.1 rs) d

/-! ## Delivery (R233 to R235) -/

/-- Whether a request record issued now will find room in its ring, behind those ready before it. -/
def Dev.ringOpen (d : Dev) (r : Nat) : Bool :=
  let ahead := d.cq.ready.filter (fun x => x.ring == r)
  d.getF (rCqRCfg r) fCqRCfg_En == 0 || (!ahead.any (fun x => x.held) && d.ringUsed r + ahead.length < d.ringSize r)

/-- TOKEN_HANDOVER: the oldest produced token of entry e is issued to the ring writer and judged; one that will have to wait
for ring space is judged when its record is written (R233, R235, R237). -/
def Dev.tokenHandover (d : Dev) (e : Nat) : Dev :=
  let x := d.entry e
  match x.outs with
  | [] => d
  | t :: rest =>
    let fin := x.finalToken t
    let r : Ready := { group := none, ring := x.ring, irqNow := false, notOk := false, word := 0, entry := some e,
                       final := fin, tok := some t }
    let now := d.ringOpen x.ring
    let (d, r) := if now then d.entryWord r else (d, r)
    let d := { d with cq := { d.cq with ready := d.cq.ready ++ [r] } }
    let d := d.modEntry e (fun x => { x with
      outs := if fin then [] else rest
      state := if fin then .closing else x.state })
    if now then d.handedOver e else d

/-- REQUEST_RECORD_WRITE: the oldest record of entry e not yet issued is written, or its request is HELD (R234, R235). -/
def Dev.requestRecordWrite (d : Dev) (e : Nat) : Dev :=
  match d.cq.ready.find? (fun x => x.entry == some e && !x.held) with
  | none => d
  | some x => d.issueRecord x

end Sys2Proof.Machine
end

