-- ==== Sys2Proof/Machine/Models.lean ====
section
/-! DEFINITION. Model slots and delta versions: MODEL_LOAD, MODEL_EVICT, DELTA_PUT, DELTA_RETIRE, ADAPT_STEP
(09_attention_kv_and_variants.md R261 to R273). -/

namespace Sys2Proof.Machine

/-- A command that does all it does at its start completes with OK. -/
def Dev.doneAtStart (d : Dev) (x : Cmd) : Dev := d.refuseStart x 0 0 0 0

/-! ## Copies into a region (R262, R269, R344) -/

/-- Bytes moved by a load that failed: as many granules as a free value says (R59 leaves it open). The image has been read
already, so nothing that reading counts or logs is counted again. -/
def Dev.loadPartly (d : Dev) (eng : Engine) (c pkey src dst n : Nat) : Dev :=
  let m := Config.freeWord d.free % (n / 64 + 1)
  { ({ d with free := d.free + 1 }.dmaMove eng (some c) pkey src dst (64 * m)).1 with
    regs := d.regs, cs := d.cs, gan := d.gan }

/-- The copy of a load command `c` on channel 3 of the engine's sector: the bytes of the image when it ended with OK; else the
command has failed, or has written poison. -/
def Dev.loadCopy (d : Dev) (eng : Engine) (c pkey src dst n : Nat) : Dev × Option (List Byte) :=
  match d.dmaRead { eng with bypass := (0, 0) } pkey src n with
  | (d, .error s) => ((d.loadPartly eng c pkey src dst n).failCmd c s.1 0 s.2, none)
  | (d', .ok (bs, st)) =>
    if 2 ≤ st then (((d'.loadPartly eng c pkey src dst n).haltChannel eng.sect 3).failCmd c 0x34 0 0, none)
    else
      match d.dmaMove eng (some c) pkey src dst n with
      | (_, .error s) => ((d'.loadPartly eng c pkey src dst n).failCmd c s.1 0 s.2, none)
      | (d, .ok _) => (d, if st = 0 then some bs else none)

/-- A load has nothing left to do. -/
def Dev.finishLoad (d : Dev) (c : Nat) : Dev :=
  d.modCmd c (fun y => if y.phase = .running then { y with phase := .finished } else y)

/-- Whether the host reads of a command are still outstanding. -/
def Dev.readsWait (d : Dev) (c : Nat) : Bool := d.hif.reads.any (fun r => r.purpose == .cmd c)

/-! ## MODEL_LOAD (R262, R263) -/

/-- OPERAND_INVALID of MODEL_LOAD. -/
def Dev.loadOperands (p : Nat) (r : Rec) : Bool :=
  let fmt := bitsOf r 137 2
  let row := bitsOf r 360 11
  let dv := bitsOf r 371 11
  let slot := bitsOf r 128 5
  (p < 6 && bitsOf r 133 3 != p) || 2 ≤ fmt || bitsOf r 352 8 == 0 || row < 64 || 1024 < row || dv == 0 || row < dv
    || (bitOf r 139 && fmt == 1)
    || (fmt == 1 && (bitsOf r 416 24 == 0 || bitsOf r 416 24 ≤ bitsOf r 440 8 + bitsOf r 448 12))
    || bitsOf r 200 40 == 0 || (16 ≤ slot && slot ≤ 30)

def Dev.slotPart (d : Dev) (s : Nat) : Nat := d.getF (rSrvSlotCfg s) fSrvSlotCfg_Part

/-- Bytes of the region of slot s. -/
def Dev.slotBytes (d : Dev) (s : Nat) : Nat := d.getF (rSrvSlotSize s) fSrvSlotSize_Size * 65536

/-- The slot that R263 chooses for a load of `n` bytes into partition p. -/
def Dev.chooseSlot (d : Dev) (p n : Nat) : Option Nat :=
  match (List.range 16).find? (fun s => d.slotState s == 0 && d.slotPart s == p && n ≤ d.slotBytes s) with
  | some s => some s
  | none =>
    leastBy (fun s => (d.reg (rSrvSlotLru s)).toNat) ((List.range 16).filter (fun s =>
      d.slotPart s == p && d.slotState s == 2 && d.getF (rSrvSlotCfg s) fSrvSlotCfg_Pin == 0 && d.slotLive s == 0
        && !d.srv.versions.any (fun v => v.2.state == .train && v.2.slot == s) && n ≤ d.slotBytes s))

/-- The delta versions of slot s become FREE. -/
def Dev.freeVersionsOf (d : Dev) (s : Nat) : Dev :=
  ((d.srv.versions.filter (fun v => v.2.slot == s)).map (·.1)).foldl (fun d v => d.freeVersion v) d

/-- The start checks of MODEL_LOAD beyond those of its record: a status, or the slot and the channel's sector (R262, R263,
R344). -/
def Dev.loadCheck (d : Dev) (x : Cmd) : Except Nat (Nat × Nat) :=
  let r := x.word
  let p := loadPart x.part r
  let f := x.func
  let n := bitsOf r 200 40
  let s := bitsOf r 128 5
  if x.part = 7 ∧ (!d.ctxEn p x.ctx ∨ d.ctxFunc p x.ctx ≠ f) then .error 0x13
  else if x.part = 7 ∧ d.trapped p x.ctx then .error 0x14
  else if Dev.loadOperands x.part r then .error 0x15
  else
    match d.fixedChannel p (d.liveSect p) 3 with
    | none => .error (d.noChannel p 3)
    | some k =>
      if s = 0x1F then
        match d.chooseSlot p n with
        | none => .error 0x41
        | some s => .ok (s, k)
      else if d.slotState s ≠ 0 then .error 0x40
      else if d.slotPart s ≠ p then .error 0x42
      else if d.slotBytes s < n then .error 0x48
      else .ok (s, k)

/-- MODEL_LOAD: a slot is chosen or checked and enters LOADING; the copy's host reads go out. -/
def Dev.modelLoad (d : Dev) (q : Nat) : Dev :=
  d.takeHead q 0x10 (fun d x =>
    let d := if bitsOf x.word 128 5 < 16 then d.readSlotMeta (bitsOf x.word 128 5) else d
    match d.loadCheck x with
    | .error s => d.refuseStart x s 0 0 0
    | .ok (s, k) =>
      let d := if d.slotState s = 2 then ((d.enterEvicting s).freeVersionsOf s).enterSlotState s 0 else d
      let d := (d.enterSlotState s 1).begin_ { x with slot := s, engines := [⟨.dma, 4 * k + 3⟩] }
      d.askHost x.id x.func 0 (d.hostPieces (dmaOf (loadPart x.part x.word) x.ctx k) (bitsOf x.word 192 8)
        (bitsOf x.word 144 48) (bitsOf x.word 200 40)))

/-- TOKB of a model (R241). -/
def tokbOf (r : Rec) : Nat := ceilDiv (bitsOf r 352 8 * bitsOf r 360 11 + (if bitsOf r 137 2 = 1 then 8 else 0)) 256 * 256

/-- Slot s holds the model that a MODEL_LOAD record names, and is READY (R262, Table 9-9). -/
def Dev.slotReady (d : Dev) (s : Nat) (r : Rec) : Dev :=
  let d := d.putF (rSrvSlotCfg s) fSrvSlotCfg_Pin (bitsOf r 136 1)
  let d := d.putF (rSrvSlotCfg s) fSrvSlotCfg_Format (bitsOf r 137 2)
  let d := d.putF (rSrvSlotCfg s) fSrvSlotCfg_Colt (bitsOf r 139 1)
  let d := d.setReg (rSrvSlotModelId s) (BitVec.ofNat 64 (bitsOf r 256 64))
  let d := d.setReg (rSrvSlotLru s) (BitVec.ofNat 64 d.time)
  let d := d.setReg (rSrvSlotGeom s) (BitVec.ofNat 64 (bitsOf r 352 8 + atBit 8 (bitsOf r 360 11) + atBit 19 (bitsOf r 371 11)))
  let d := d.setReg (rSrvSlotTokb s) (BitVec.ofNat 64 (tokbOf r))
  let d := d.setReg (rSrvSlotBlocks s) (BitVec.ofNat 64 (bitsOf r 384 32))
  let d := d.setReg (rSrvSlotKeep s) (BitVec.ofNat 64 (bitsOf r 416 24 + atBit 24 (bitsOf r 440 8)))
  let d := d.setReg (rSrvSlotM4 s) (BitVec.ofNat 64 (bitsOf r 448 12))
  d.enterSlotState s 2

/-- The sector of the channel a command took. -/
def Cmd.dmaSect (x : Cmd) : Nat := (x.engines.headD ⟨.dma, 0⟩).index / 4

/-- MODEL_LOAD_CHECK: the copy ends; its CRC is compared, and the slot is READY or, when the command ends, EMPTY (R262). -/
def Dev.modelLoadCheck (d : Dev) (c : Nat) : Dev :=
  match d.cmd? c with
  | none => d
  | some x =>
    if x.opcode ≠ 0x10 ∨ x.phase ≠ .running ∨ d.readsWait c then d
    else
      let r := x.word
      let base := fld (d.reg (rSrvSlotBase x.slot)) fSrvSlotBase_Base * 65536
      match d.loadCopy (dmaOf (loadPart x.part r) x.ctx x.dmaSect) c (bitsOf r 192 8) (bitsOf r 144 48) base (bitsOf r 200 40) with
      | (d, none) => d.finishLoad c
      | (d, some bs) =>
        if crc32c bs ≠ bitsOf r 320 32 then (d.failCmd c 0x43 0 0).finishLoad c
        else (d.slotReady x.slot r).finishLoad c

/-! ## MODEL_EVICT and SLOT_EVICTED (R261, R264) -/

/-- MODEL_EVICT. -/
def Dev.modelEvict (d : Dev) (q : Nat) : Dev :=
  d.takeHead q 0x11 (fun d x =>
    let s := bitsOf x.word 128 4
    let d := d.readSlotMeta s
    if d.slotState s ≠ 2 ∨ (x.part ≠ 7 ∧ d.slotPart s ≠ x.part) then d.refuseStart x 0x42 0 0 0
    else (if d.slotLive s = 0 then d.enterEvicting s else d.enterSlotState s 3).doneAtStart x)

/-- SLOT_EVICTED: once no ADAPT_STEP of the slot runs, its nodes and versions are gone and it is EMPTY (Table 9-4). -/
def Dev.slotEvicted (d : Dev) (s : Nat) : Dev :=
  if d.slotState s ≠ 4 ∨ d.cq.cmds.any (fun x => x.opcode == 0x14 && (d.version (bitsOf x.word 296 12)).slot == s) then d
  else ((d.discardNodes (fun n => n.slot == s)).freeVersionsOf s).enterSlotState s 0

/-! ## Deltas (R266 to R271) -/

/-- The keys by which block records ascend, packed: MATRIX, BROW, BCOL. -/
def blockKey (b : List Byte) : Nat :=
  let x := leNat (b.take 16)
  x % 2 ^ 16 * 2 ^ 48 + x / 2 ^ 16 % 2 ^ 24 * 2 ^ 24 + x / 2 ^ 40 % 2 ^ 24

/-- Whether numbers ascend strictly. -/
def strictly : List Nat → Bool
  | a :: b :: rest => a < b && strictly (b :: rest)
  | _ => true

/-- NB of a delta image's header. -/
def deltaNb (img : List Byte) : Nat := leNat ((img.drop 4).take 4)

/-- Whether a delta image keeps the rules of R266 that DELTA_FORM covers. -/
def deltaForm (img : List Byte) : Bool :=
  let hdr := leNat (img.take 64)
  let blocks := chunksOf 272 (img.length + 1) (img.drop 64)
  hdr % 16 == 1 && hdr / 2 ^ 4 % 2 ^ 28 == 0 && hdr / 2 ^ 128 == 0
    && img.length == 64 + 272 * deltaNb img
    && blocks.all (fun b => leNat (b.take 16) / 2 ^ 72 == 0 && (b.getD 8 0) != 0xFF)
    && strictly (blocks.map blockKey)

/-- What the checks of R269 find of an image for slot s: a status, 0 when it passes. -/
def Dev.deltaImage (d : Dev) (s : Nat) (crc : Nat) (img : List Byte) : Nat :=
  if crc32c img ≠ crc then 0x43
  else if leNat ((img.drop 8).take 8) ≠ (d.reg (rSrvSlotModelId s)).toNat then 0x47
  else if d.getF (rSrvSlotBlocks s) fSrvSlotBlocks_Blocks / 50 < deltaNb img then 0x46
  else if !deltaForm img then 0x45
  else 0

/-- Version v becomes LIVE, in OLD's lineage when it replaces one that still stands, else at the head of a new one (R268,
R269). -/
def Dev.goLive (d : Dev) (v : Nat) (old : Option Nat) : Dev :=
  let x := d.version v
  let joins : Bool := match old with
    | some o => (d.version o).state == .live || (d.version o).state == .retiring
    | none => false
  let o := old.getD 0
  let l := if joins then (d.version o).lineage else v
  let d := (d.setVersion v { x with state := .live, lineage := l }).onSrv (fun s => { s with current := tset s.current l v })
  if joins ∧ (d.version o).state = .live then
    let y := d.version o
    if y.refs = 0 then d.freeVersion o else d.setVersion o { y with state := .retiring }
  else d

/-- OLD of a DELTA_PUT that replaces. -/
def oldOf (r : Rec) : Option Nat := if bitOf r 146 then some (bitsOf r 148 12) else none

/-- Whether DST to DST + BYTES − 1 lies in the delta arena of partition p and meets no version (R270). -/
def Dev.regionFree (d : Dev) (p dst n : Nat) : Bool :=
  let lo := fld (d.reg (rSrvDeltaArena p)) fSrvDeltaArena_Base * 65536
  let hi := lo + d.getF (rSrvDeltaArenaSize p) fSrvDeltaArenaSize_Size * 65536
  lo ≤ dst && dst + n ≤ hi && !d.srv.versions.any (fun v => v.2.part == p && dst < v.2.base + v.2.bytes && v.2.base < dst + n)

/-- DELTA_STATE of a DELTA_PUT (R270). -/
def Dev.putState (d : Dev) (r : Rec) : Bool :=
  let v := bitsOf r 128 12
  let s := bitsOf r 140 4
  let x := d.version v
  (if bitsOf r 144 2 = 2 then x.state != .train || x.slot != s
   else x.state != .free || (!bitOf r 146 && d.srv.versions.any (fun u => u.2.lineage == v)))
  || (match oldOf r with
      | some o => (d.version o).state != .live || (d.version o).slot != s
      | none => false)

/-- Start checks of DELTA_PUT: a status, 0 when all pass (R270, R344). -/
def Dev.putCheck (d : Dev) (p : Nat) (r : Rec) : Nat :=
  let mode := bitsOf r 144 2
  let s := bitsOf r 140 4
  if mode = 3 ∨ bitsOf r 208 48 % 64 ≠ 0 ∨ (mode ≠ 2 ∧ bitsOf r 264 32 < 64) then 0x15
  else if mode ≠ 2 ∧ (d.fixedChannel p (d.liveSect p) 3).isNone then d.noChannel p 3
  else if d.slotState s ≠ 2 ∨ d.slotPart s ≠ p then 0x42
  else if d.putState r then 0x44
  else if mode ≠ 2 ∧ !d.regionFree p (bitsOf r 208 48) (bitsOf r 264 32) then 0x48
  else 0

/-- DELTA_PUT: FREEZE acts at once; a load sets its version LOADING and its host reads go out (R269). -/
def Dev.deltaPut (d : Dev) (q : Nat) : Dev :=
  d.takeHead q 0x12 (fun d x =>
    let r := x.word
    let v := bitsOf r 128 12
    let d := (d.readSlotMeta (bitsOf r 140 4)).readVersionMeta v
    let s := d.putCheck x.part r
    if s ≠ 0 then d.refuseStart x s 0 0 0
    else if bitsOf r 144 2 = 2 then (d.goLive v (oldOf r)).doneAtStart x
    else
      let k := (d.fixedChannel x.part (d.liveSect x.part) 3).getD 0
      let d := d.setVersion v { state := .loading, slot := bitsOf r 140 4, part := x.part, lineage := v,
                                base := bitsOf r 208 48, bytes := bitsOf r 264 32 }
      let d := d.begin_ { x with slot := v, engines := [⟨.dma, 4 * k + 3⟩] }
      d.askHost x.id x.func 0 (d.hostPieces (dmaOf x.part x.ctx k) (bitsOf r 256 8) (bitsOf r 160 48) (bitsOf r 264 32)))

/-- DELTA_PUT_CHECK: the copy ends; the image is checked and the version is LIVE, TRAIN or, when the command ends, FREE
(R269). -/
def Dev.deltaPutCheck (d : Dev) (c : Nat) : Dev :=
  match d.cmd? c with
  | none => d
  | some x =>
    if x.opcode ≠ 0x12 ∨ x.phase ≠ .running ∨ d.readsWait c then d
    else
      let r := x.word
      let dst := bitsOf r 208 48
      let n := bitsOf r 264 32
      match d.loadCopy { dmaOf x.part x.ctx x.dmaSect with bypass := (dst, dst + n) } c (bitsOf r 256 8) (bitsOf r 160 48) dst n with
      | (d, none) => d.finishLoad c
      | (d, some img) =>
        let y := d.version x.slot
        let s := d.deltaImage y.slot (bitsOf r 296 32) img
        if y.state ≠ .loading then d.finishLoad c
        else if s ≠ 0 then (d.failCmd c s 0 0).finishLoad c
        else
          let d := d.setVersion x.slot { y with nb := deltaNb img, state := .train }
          (if bitsOf r 144 2 = 0 then d.goLive x.slot (oldOf r) else d).finishLoad c

/-- DELTA_RETIRE (R271). -/
def Dev.deltaRetire (d : Dev) (q : Nat) : Dev :=
  d.takeHead q 0x13 (fun d x =>
    let v := bitsOf x.word 128 12
    let s := bitsOf x.word 140 4
    let d := (d.readSlotMeta s).readVersionMeta v
    let y := d.version v
    if d.slotState s ≠ 2 ∨ d.slotPart s ≠ x.part then d.refuseStart x 0x42 0 0 0
    else if y.slot ≠ s ∨ (y.state ≠ .live ∧ y.state ≠ .train) then d.refuseStart x 0x44 0 0 0
    else if y.state = .train then (d.freeVersion v).doneAtStart x
    else
      let d := if tfind d.srv.current y.lineage = some v then
        d.onSrv (fun t => { t with current := tdel t.current y.lineage }) else d
      (if y.refs = 0 then d.freeVersion v else d.setVersion v { y with state := .retiring }).doneAtStart x)

/-- ADAPT_STEP (R273): the checks and the start of RUN_PROGRAM, with its version, whose metadata is read first (R339). -/
def Dev.adaptStep (d : Dev) (q : Nat) : Dev :=
  (if d.headReady q 0x14 then d.readVersionMeta (bitsOf ((d.waiting q).headD 0) 296 12) else d).programTurn q 0x14 (fun d x =>
    d.programCheck x.part x.word)

/-! ## The delta select register (R278, R451) -/

/-- SRV_DELTA_REC0 to 3 of a version (Table 9-11). -/
def Dev.deltaRec (d : Dev) (i : Nat) : List W64 :=
  let x := d.version i
  let code : Nat := match x.state with
    | .free => 0 | .loading => 1 | .live => 2 | .retiring => 3 | .train => 4
  let cur := tfind d.srv.current x.lineage
  let has := x.state != .free && cur.isSome
  [BitVec.ofNat 64 (code + atBit 3 x.slot + atBit 7 x.lineage + (if has then atBit 19 (cur.getD 0) + atBit 31 1 else 0)),
   BitVec.ofNat 64 (x.refs % 2 ^ 16), BitVec.ofNat 64 x.nb, BitVec.ofNat 64 x.base]

/-- SRV_DELTA_SEL written by function f: the version's record is copied to the function's SRV_DELTA_REC0 to 3; a VF copies
zeros for a version of another partition. The copy is kept with the version selected in front. -/
def Dev.writeDeltaSel (d : Dev) (f : Nat) (v : W64) : Dev :=
  let i := fld v fSrvDeltaSel_Ver
  let d := d.readVersionMeta i
  let sees := f = 0 ∨ (d.version i).state = .free ∨ (d.version i).part = d.vfPart f
  d.onSrv (fun s => { s with
    deltaCopy := tset s.deltaCopy f (BitVec.ofNat 64 i :: (if sees then d.deltaRec i else [])) })

end Sys2Proof.Machine
end

