-- ==== Sys2Proof/Machine/Stacks.lean ====
section
/-! DEFINITION. The stack controllers: BAR4 accesses of the host, service windows, refresh, the bitmap clear and the
scrubbers (07_compute_stacks.md R202, R203, R207, R209, R210, R212; 06 R173, R182; 11 R324, R330; 12 R342, R345, R346;
15 R423, R424). -/

namespace Sys2Proof.Machine

/-! ## Where a BAR4 access goes -/

/-- The device physical address of a BAR4 offset: the PF's window, or the stacks of a VF's partition in ascending order
(R423, R424, Table 11-2); `none` outside them, and of a VF with no partition (R314, R324). -/
def Dev.bar4Addr (d : Dev) (f off : Nat) : Option Nat :=
  if f = 0 then
    if 2 ^ d.hif.bar4Log2 ≤ off then none
    else
      let a := d.getF rHifBar4Win fHifBar4Win_Base * 2 ^ 36 + off
      if a < stackTop then some a else none
  else if 2 ^ 39 ≤ off ∨ 6 ≤ d.vfPart f then none
  else ((d.stacksOf (d.vfPart f))[off / stackBytes]?).map (fun n => n * stackBytes + off % stackBytes)

/-! ## The meter (R330) -/

def Dev.bar4Rate (d : Dev) (p : Nat) : Nat := if p < 6 then d.getF (rSectQosHost (d.liveSect p)) fSectQosHost_Bar4Rate else 0

/-- The bucket of partition p as it stands now, and the time until it has caught up with reads already held. -/
def Dev.bucket (d : Dev) (p : Nat) : Bucket :=
  let b := tget d.hif.buckets {} p
  { b with level := min 65536 (b.level + d.bar4Rate p * (d.time - b.refilled)), refilled := max d.time b.refilled }

def Dev.setBucket (d : Dev) (p : Nat) (b : Bucket) : Dev := d.onHif (fun h => { h with buckets := tset h.buckets p b })

/-- A read of `n` bytes draws on the bucket; how many ns its completion is held. -/
def Dev.meterRead (d : Dev) (p n : Nat) : Dev × Nat :=
  let rate := d.bar4Rate p
  if rate = 0 then (d, 0)
  else
    let b := d.bucket p
    let w := ceilDiv (n - b.level) rate
    (d.setBucket p { b with level := b.level + rate * w - n, refilled := b.refilled + w }, b.refilled + w - d.time)

/-- A write of `n` bytes draws on the bucket and is never held; the bytes written beyond an empty bucket are counted by 64,
what is left of them staying for the next write. -/
def Dev.meterWrite (d : Dev) (p n : Nat) : Dev :=
  if d.bar4Rate p = 0 then d
  else
    let b := d.bucket p
    let beyond := b.beyond + (n - b.level)
    (d.setBucket p { b with level := b.level - n, beyond := beyond % 64 }).addF (rSectQosOver (d.liveSect p)) fSectQosOver_Over (beyond / 64)

/-- The bucket of partition p up to now at the rate in force, which is about to change. -/
def Dev.settleBucket (d : Dev) (p : Nat) : Dev := if p < 6 then d.setBucket p (d.bucket p) else d

/-! ## Accesses at a controller -/

/-- Whether an access of function f is queued at another pseudo-channel than (n, p): what follows it in f's arrival order
is not yet issued (R173). -/
def Dev.behind (d : Dev) (f n p : Nat) : Bool :=
  d.cs.any (fun e => e.2.accQ.any (fun q => (e.1 != n || q.1 != p) && q.2.any (fun a => a.func == f)))

/-- The oldest access that the host interface can issue is issued: to a pseudo-channel's queue while a hen runs there or
accesses wait there, else performed (R173, R202). -/
def Dev.issueBar4 (d : Dev) : Nat → Dev
  | 0 => d
  | fuel + 1 =>
    let firsts := d.hif.bar4.filter (fun a => d.hif.bar4.find? (fun b => b.func == a.func) == some a)
    match firsts.find? (fun a => !d.behind a.func (stackOf a.addr) (pcOf a.addr)) with
    | none => d
    | some a =>
      let n := stackOf a.addr
      let p := pcOf a.addr
      let d := d.onHif (fun h => { h with bar4 := h.bar4.erase a })
      let d :=
        if d.henBusy n p ∨ !(d.queued n p).isEmpty then d.setQueued n p (d.queued n p ++ [a])
        else d.serve a
      Dev.issueBar4 d fuel

/-- Accesses of a host request, one for each granule, join the arrival order, stamped with it (R160), and are issued as far as
possible. -/
def Dev.bar4Arrive (d : Dev) (as : List Access) : Dev :=
  let d := d.onHif (fun h => { h with bar4 := h.bar4 ++ as.map (fun a => { a with stamp := d.cq.nextStamp }) })
  d.issueBar4 d.hif.bar4.length

/-- BAR4_READ: `len` bytes at BAR4 offset `off` (R173, R182, R330, R423). -/
def Dev.bar4Read (d : Dev) (f off len : Nat) : Dev :=
  match d.bar4Addr f off with
  | none => (d.blkErr pgHif).sendOut (.readData f (zeros len) false 0)
  | some a =>
    let n := stackOf a
    if d.bar4Closed n then (d.blkErr pgHif).sendOut (.readData f (List.replicate len 0xFF) false 0)
    else
      let (d, held) := d.meterRead (d.stackPart n) len
      d.bar4Arrive ((cutGrans (len + 1) a (zeros len)).map (fun x =>
        ({ func := f, addr := x.1, len := x.2.length, data := none, held := held, windows := 0 } : Access)))

/-- BAR4_WRITE: `data` at BAR4 offset `off`. -/
def Dev.bar4Write (d : Dev) (f off : Nat) (data : List Byte) : Dev :=
  match d.bar4Addr f off with
  | none => d.blkErr pgHif
  | some a =>
    let n := stackOf a
    if d.bar4Closed n then d.blkErr pgHif
    else
      (d.meterWrite (d.stackPart n) data.length).bar4Arrive ((cutGrans (data.length + 1) a data).map (fun x =>
        ({ func := f, addr := x.1, len := x.2.length, data := some x.2, held := 0, windows := 0 } : Access)))

/-! ## Service windows (R202) -/

/-- SERVICE_WINDOW: up to four queued accesses are issued in arrival order; those left wait one more window, and the ones
for which it was the first are counted. With no hen operation running the queue is served whole. -/
def Dev.serviceWindow (d : Dev) (n p : Nat) : Dev :=
  let q := d.queued n p
  let busy := d.henBusy n p
  let now := if busy then q.take 4 else q
  let rest := if busy then q.drop 4 else []
  let d := d.addF (rCsWinWait n) fCsWinWait_Defer (rest.filter (fun a => a.windows == 0)).length
  let d := d.setQueued n p (rest.map (fun a => { a with windows := a.windows + 1 }))
  let d := now.foldl (fun d a => (d.noteWait n a.windows).serve a) d
  d.issueBar4 d.hif.bar4.length

/-- CS_WIN_WAIT written (Table 7-16). -/
def Dev.writeWinWait (d : Dev) (n : Nat) (v : W64) : Dev :=
  if fld v fCsWinWait_Clr = 1 then d.setReg (rCsWinWait n) 0 else d

/-- CS_TEMP_MAX written (Table 7-14). -/
def Dev.writeTempMax (d : Dev) (n : Nat) (v : W64) : Dev :=
  if fld v fCsTempMax_Clr = 1 then d.putF (rCsTempMax n) fCsTempMax_Max (d.getF (rCsTemp n) fCsTemp_Temp) else d

/-! ## Refresh (R210) -/

/-- Rows of each bank that a refresh period covers in a band (Table 7-11). -/
def bandRows (band : Nat) : Nat := match band with
  | 0 => 8 | 1 => 16 | _ => 32

/-- Rows of a bank. -/
def rowsPerBank : Nat := 49152

/-! ## The scrubber (R345, R346) -/

/-- Granules of a pseudo-channel. -/
def pcGranules : Nat := 37748736

/-- LAP_LATE, once for the lap in progress, when it passes MAX_LAP ms. -/
def Dev.checkLap (d : Dev) (n : Nat) : Dev :=
  let m := d.getF (rCsScrubCtrl n) fCsScrubCtrl_MaxLap
  let st := d.stackSt n
  if m ≠ 0 ∧ !st.lapLate ∧ st.lapStart + m * 1000000 < d.time then
    (d.modStack n (fun s => { s with lapLate := true })).raise (pgCs1 n) 0x10
  else d

/-- REFRESH_PERIOD: the next rows of every bank are refreshed, as many as the band in force sets. -/
def Dev.refreshPeriod (d : Dev) (n p : Nat) : Dev :=
  if d.getF (rCsState n) fCsState_Selfref = 1 ∨ d.getF (rCsState n) fCsState_Training = 1 then d
  else
    (d.modStack n (fun s => { s with
      refreshRow := tset s.refreshRow p
        ((tget s.refreshRow 0 p + bandRows (d.getF (rCsTemp n) fCsTemp_Band)) % rowsPerBank) })).checkLap n

/-- A pass of a pseudo-channel is complete; with the last of them the lap ends. -/
def Dev.passEnds (d : Dev) (n p : Nat) : Dev :=
  let done := (p :: (d.stackSt n).lapDone).eraseDups
  if done.length < 32 then d.modStack n (fun s => { s with lapDone := done })
  else
    let ms := openDiv 3 (d.time - (d.stackSt n).lapStart) 1000000
    let d := d.modStack n (fun s => { s with lapDone := [], lapStart := d.time, lapLate := false })
    let d := d.setReg (rCsScrubLap n) (BitVec.ofNat 64 (fitTo 32 ms))
    (d.addF (rCsScrubLaps n) fCsScrubLaps_Laps 1).raise (pgCs1 n) 8

/-- The scrubber reads and repairs one granule. -/
def Dev.scrubGranule (d : Dev) (g : Nat) : Dev :=
  let n := stackOf g
  if d.deadGran g ∨ !(d.stk.flag g).valid then d
  else
    let f := d.stk.flag g
    let (d, (_, st)) := d.readGran 6 g
    if st = 3 then d.ifFailed n
    else if st = 2 then d.addF (rCsScrubFix n) fCsScrubFix_Poisoned 1
    else if st = 0 ∧ 1 ≤ f.bad ∧ f.bad ≤ 2 then
      ({ d with stk := d.stk.setFlag g { f with bad := 0 } }).addF (rCsScrubFix n) fCsScrubFix_Corrected 1
    else d

/-- SCRUB_STEP: the scrubber of an idle pseudo-channel takes its next granule, or passes over a bitmap word that shows all
its granules unwritten. -/
def Dev.scrubStep (d : Dev) (n p : Nat) : Dev :=
  if d.getF (rCsState n) fCsState_Ready = 0 ∨ d.getF (rCsScrubCtrl n) fCsScrubCtrl_En = 0
      ∨ d.henOps.any (fun o => o.hens.contains (32 * n + p)) ∨ !(d.queued n p).isEmpty then d.checkLap n
  else
    let i := tget (d.stackSt n).scrubAt 0 p
    let g := physOf n p (64 * i)
    let d := d.checkBitmap g 6
    let skip := i % 64 = 0 ∧ (bitmapGrans g).all (fun h => !(d.stk.flag h).valid)
    let d := if skip then d else d.scrubGranule g
    let j := i + (if skip then 64 else 1)
    let d := d.modStack n (fun s => { s with scrubAt := tset s.scrubAt p (if j < pcGranules then j else 0) })
    (if j < pcGranules then d else d.passEnds n p).checkLap n

/-! ## Training and the bitmap clear -/

/-- BITMAP_CLEAR_DONE: the bitmap words of a stack that has trained after its supply came on are clear, and the stack is
READY (R207, R209); what stood in those words ends (R338), and its scrubbers begin a lap. -/
def Dev.bitmapClearDone (d : Dev) (n : Nat) : Dev :=
  if d.getF (rCsState n) fCsState_VbmClear = 0 then d
  else
    let d := { d with stk := d.stk.clear (n * stackBytes) ((n + 1) * stackBytes) }.dropUnit .bitmapWord n
    let d := d.modStack n (fun s => { s with
      unclear := false, scrubAt := [], lapDone := [], lapStart := d.time, lapLate := false })
    d.stackReady n

/-- STACK_RETRAIN_DONE: a stack that no partition owns has retrained (R342). -/
def Dev.stackRetrainDone (d : Dev) (n : Nat) : Dev :=
  if (d.stackSt n).retraining then (d.modStack n (fun s => { s with retraining := false })).stackReady n else d

end Sys2Proof.Machine
end

