-- ==== Sys2Proof/Machine/Links.lean ====
section
/-! DEFINITION. Umaif links, their training and loss, notices, and time across the fold (10_fold_fabric.md R279 to R287,
R301, R308, R311; 12 R352, R353; 13 R375). -/

namespace Sys2Proof.Machine

def Dev.onFab (d : Dev) (f : Fab → Fab) : Dev := { d with fab := f d.fab }

/-! ## Link state (Table 10-2) -/

def Dev.linkState (d : Dev) (i : Nat) : Nat := d.getF (rFabLinkState i) fFabLinkState_State

/-- Whether link i is FENCED or ACTIVE. -/
def Dev.linkUp (d : Dev) (i : Nat) : Bool := d.linkState i == 2 || d.linkState i == 3

def Dev.setLink (d : Dev) (i st : Nat) : Dev := d.putF (rFabLinkState i) fFabLinkState_State st

/-- The links in service, ascending. -/
def Dev.upLinks (d : Dev) : List Nat := (List.range 96).filter d.linkUp

/-- A word or slot leaves on link i. -/
def Dev.sendLink (d : Dev) (i : Nat) (m : LinkMsg) : Dev := d.onFab (fun x => { x with sent := x.sent ++ [(i, m)] })

/-- A management word leaves on every link in service. -/
def Dev.sendAll (d : Dev) (m : LinkMsg) : Dev := d.upLinks.foldl (fun d i => d.sendLink i m) d

def Dev.fid (d : Dev) : Nat := d.getF rFabCfg fFabCfg_Fid

/-- What link i heard is forgotten when the link leaves service. -/
def Dev.forget (d : Dev) (i : Nat) : Dev := d.onFab (fun x => { x with heard := tdel x.heard i })

/-- Link i enters FENCED. -/
def Dev.fence (d : Dev) (i : Nat) : Dev := (d.setLink i 2).raise pgFab 2

/-- Link i enters TRAINING, and what it heard is forgotten. -/
def Dev.train (d : Dev) (i : Nat) : Dev := (d.trainLink i).forget i

/-! ## Notices (R308, Table 10-9) -/

/-- The notice that names a link of a device. -/
def noticeWord (fid link beat : Nat) : Rec :=
  BitVec.ofNat 512 (1 + atBit 4 2 + atBit 8 fid + atBit 18 link + atBit 32 (beat % 2 ^ 32))

/-- Notices that wait are sent while fewer than four were sent in this beat (R289). -/
def Dev.sendNotices (d : Dev) : Dev :=
  let n := 4 - d.fab.noticesSent
  let ws := d.fab.noticeQ.take n
  let d := d.onFab (fun x => { x with noticeQ := x.noticeQ.drop n, noticesSent := x.noticesSent + ws.length })
  ws.foldl (fun d w => d.sendAll (.notice w)) d

/-- A link joins the down-set of the epoch, and a notice of it goes on, each distinct one once per epoch; the word goes on as it
came, its reserved bits too (a DESIGN CHOICE, log entry 73). -/
def Dev.notify (d : Dev) (fid link : Nat) (w : Rec) : Dev :=
  let key := (fid, link, bitsOf w 32 32)
  if d.fab.forwarded.contains key then d
  else
    let d := d.onFab (fun x => { x with
      forwarded := key :: x.forwarded, noticeQ := x.noticeQ ++ [w]
      down := if x.down.contains (fid, link) then x.down else (fid, link) :: x.down })
    (d.putF rFabDown fFabDown_Count d.fab.down.length).sendNotices

/-- Link i enters DOWN with a reason, and is named to the fold; a link that follows its peer's notice is not named again, as
Table 10-11 shows (R308). -/
def Dev.goDown (d : Dev) (i reason : Nat) : Dev :=
  let d := ((((d.stampLink i).setLink i 4).putF (rFabLinkState i) fFabLinkState_Reason reason).forget i).raise pgFab 1
  if reason ≠ 9 then d.notify d.fid i (noticeWord d.fid i d.fab.beatNo) else d

/-! ## FAB_LINK_CTRL (R281, R311, R352) -/

/-- A link is retired by its driver: for good until power-on, with a record (R311, R351). -/
def Dev.retireLink (d : Dev) (i : Nat) : Dev :=
  if d.linkState i = 5 then d
  else
    let full := 512 ≤ d.gan.retireCount
    let d := ((d.setLink i 5).setUnit ⟨.link, i⟩ { state := 2, reason := 5, persisted := !full }).forget i
    if full then d.raise pgRas 0x10
    else d.cfgAsk (.retire { kind := 7, addr := 0, unit := i, time := d.time }) .nobody

/-- A write of FAB_LINK_CTRL of link i: RETIRE, EN and RETRAIN act in this order. -/
def Dev.writeLinkCtrl (d : Dev) (i : Nat) (v : W64) : Dev :=
  let a := rFabLinkCtrl i
  let was := d.getF a fFabLinkCtrl_En
  let en := fld v fFabLinkCtrl_En
  let d := if fld v fFabLinkCtrl_Retire = 1 then (d.putF a fFabLinkCtrl_Retire 1).retireLink i else d
  if d.unitGone .link i then d
  else
    let d := d.putF a fFabLinkCtrl_En en
    if en = 0 then (d.disableLink i).forget i
    else if was = 0 ∨ fld v fFabLinkCtrl_Retrain = 1 then d.train i
    else d

/-- LINK_RETRY: a DOWN link retries once a second, unless it failed an identity check (R281). -/
def Dev.linkRetry (d : Dev) (i : Nat) : Dev :=
  let r := d.getF (rFabLinkState i) fFabLinkState_Reason
  if d.linkState i = 4 ∧ tget d.fab.linkAt 0 i + 1000000000 ≤ d.time ∧ d.getF (rFabLinkCtrl i) fFabLinkCtrl_En = 1 ∧ !(5 ≤ r ∧ r ≤ 7) ∧ !d.unitGone .link i then d.train i
  else d

/-! ## Training (R282 to R284) -/

/-- The identity check that fails, as a DOWN reason; 0 when all pass (R284). -/
def Dev.identityCheck (d : Dev) (i : Nat) (p : PeerIdent) : Nat :=
  let x := d.reg (rFabLinkExpect i)
  if p.foldTag.toNat ≠ d.getF rFabFoldTag fFabFoldTag_Tag then 5
  else if p.fid = d.fid ∨ 768 ≤ p.fid ∨ 768 ≤ d.fid then 6
  else if fld x fFabLinkExpect_En = 1 ∧ (fld x fFabLinkExpect_Fid ≠ p.fid ∨ fld x fFabLinkExpect_Link ≠ p.link) then 7
  else 0

/-- LINK_TRAINED: the generation is negotiated, the peer's identity checked and recorded, the flight time measured. -/
def Dev.linkTrained (d : Dev) (i : Nat) (p : PeerIdent) : Dev :=
  if d.linkState i ≠ 1 then d
  else
    let gen := min 1 p.gen
    let d := (d.putF (rFabLinkState i) fFabLinkState_Gen gen).putF (rFabLinkState i) fFabLinkState_Lanes 3
    if gen = 0 then d.goDown i 4
    else
      let c := d.identityCheck i p
      if c ≠ 0 then d.goDown i c
      else
        let d := d.setReg (rFabLinkPeer i) (BitVec.ofNat 64 (p.fid + atBit 10 (p.link % 128) + atBit 17 1))
        let d := d.setReg (rFabLinkFlight i) (BitVec.ofNat 64 (fitTo 12 p.flight + atBit 12 (if 60 < p.flight then 1 else 0)))
        (d.forget i).fence i

/-- TRAIN_TIMEOUT: 50 ms after it entered TRAINING the link is not FENCED (R282). -/
def Dev.trainTimeout (d : Dev) (i : Nat) : Dev :=
  if d.linkState i = 1 ∧ tget d.fab.linkAt 0 i + 50000000 ≤ d.time then d.goDown i 8 else d

/-! ## Losing a link (R301, R308) -/

/-- LANE_LOSS: a lane of a link in service loses lock. -/
def Dev.laneLoss (d : Dev) (i lane : Nat) : Dev :=
  if !d.linkUp i then d
  else
    let l := d.getF (rFabLinkState i) fFabLinkState_Lanes
    (d.putF (rFabLinkState i) fFabLinkState_Lanes (if l.testBit lane then l - 2 ^ lane else l)).goDown i 1

/-- FEC_LIMIT: the codewords corrected and those uncorrectable in the last 1 ms are counted (R313), and the latter compared with
UNCORR_MAX. -/
def Dev.fecLimit (d : Dev) (i corrected n : Nat) : Dev :=
  if !d.linkUp i then d
  else
    let d := d.addF (rFabLinkFecCorr i) fFabLinkFecCorr_Corr corrected
    let d := d.addF (rFabLinkFecUncorr i) fFabLinkFecUncorr_Uncorr n
    if d.getF (rFabLinkCfg i) fFabLinkCfg_UncorrMax < n then d.goDown i 2 else d

/-- Whether a protocol word is taken: the link is in service and VERSION is the negotiated generation; a word with another
VERSION is counted and has no other effect (R283). -/
def Dev.takeWord (d : Dev) (i version : Nat) (k : Dev → Dev) : Dev :=
  if !d.linkUp i then d
  else if version ≠ d.getF (rFabLinkState i) fFabLinkState_Gen then d.addF (rFabLinkBadword i) fFabLinkBadword_Bad 1
  else k d

/-- The links in service whose recorded peer is link `link` of device `fid`. -/
def Dev.peerOf (d : Dev) (fid link : Nat) : List Nat :=
  d.upLinks.filter (fun j => d.getF (rFabLinkPeer j) fFabLinkPeer_Fid == fid && d.getF (rFabLinkPeer j) fFabLinkPeer_Link == link)

/-- NOTICE: the link named joins the down-set, the notice goes on, and its other end here goes DOWN (R308). -/
def Dev.notice (d : Dev) (i : Nat) (w : Rec) : Dev :=
  d.takeWord i (bitsOf w 0 4) (fun d =>
    let fid := bitsOf w 8 10
    let link := bitsOf w 18 7
    (d.peerOf fid link).foldl (fun d j => d.goDown j 9) (d.notify fid link w))

/-- GANDER_LINK_MESSAGE: wake source 6 (R375). -/
def Dev.ganderLinkMessage (d : Dev) (i : Nat) : Dev :=
  if d.linkUp i ∧ d.getF rPwrWakeEn fPwrWakeEn_Fabric = 1 then d.wakeSource 6 else d

/-! ## Time (R285 to R287) -/

/-- Whether this device acts as root. -/
def Dev.isRoot (d : Dev) : Bool := d.getF rFabStatus fFabStatus_Root == 1

/-- What the tree says: the link of the parent, with what it heard; among the links that follow the root of lowest FID, the
one of lowest DIST, then of lowest number. -/
def Dev.parent (d : Dev) : Option (Nat × Heard) :=
  let hs := d.fab.heard.filter (fun e => d.linkUp e.1 && e.2.dist != 15)
  match leastBy (fun (e : Nat × Heard) => e.2.root) hs with
  | none => none
  | some r => leastBy (fun (e : Nat × Heard) => e.2.dist) (hs.filter (fun e => e.2.root == r.2.root))

/-- A whole number of 1/256 ns units in units of `u`, rounded as the spec leaves open (log entry 11). -/
def openUnits (what : Nat) (x : Int) (u : Nat) : Int :=
  if x % (u : Int) ≠ 0 ∧ Config.roundsUp what x u then x / (u : Int) + 1 else x / (u : Int)

/-- FAB_TIME, FAB_TIME_ROOT and TIME_ALIGNED follow the tree (Table 10-13). -/
def Dev.showTime (d : Dev) : Dev :=
  if d.isRoot then
    let d := d.setReg rFabTime (BitVec.ofNat 64 (atBit 16 0x7F))
    (d.setReg rFabTimeRoot (BitVec.ofNat 64 d.fid)).putF rFabStatus fFabStatus_TimeAligned 1
  else
    match d.parent with
    | none =>
      (d.setReg rFabTime (BitVec.ofNat 64 (atBit 16 0x7F + atBit 23 15))).putF rFabStatus fFabStatus_TimeAligned 0
    | some (i, h) =>
      let dist := min (h.dist + 1) 15
      let d := d.setReg rFabTime (BitVec.ofNat 64 (wrapNat 16 (openUnits 5 h.offset 64) + atBit 16 i + atBit 23 dist))
      (d.setReg rFabTimeRoot (BitVec.ofNat 64 h.root)).putF rFabStatus fFabStatus_TimeAligned (if dist < 15 then 1 else 0)

/-- With no epoch, beats fall on the 8,000 ns grid of DEV_TIME (R288). -/
def Dev.gridBeats (d : Dev) : Dev :=
  if d.hasEpoch then d
  else d.onFab (fun x => { x with beatStart := d.time / 8000 * 8000, beatNo := d.time / 8000, len1 := 8000 })

/-- DEV_TIME steps by `s` ns: what was heard is seen from the new time. -/
def Dev.stepBy (d : Dev) (s : Int) : Dev :=
  let shift (t : Nat) : Nat := ((t : Int) + s).toNat
  { d with time := shift d.time }.onFab (fun x => { x with
    heard := x.heard.map (fun (e : Nat × Heard) => (e.1, { e.2 with offset := e.2.offset - 256 * s }))
    rootHeard := shift x.rootHeard, lowerHeard := shift x.lowerHeard })

/-- DEV_TIME steps once to the parent's time on first finding a parent, when the device has no epoch and no occupied
entry (R286): the offset is known once the parent has echoed a BEND of this end. -/
def Dev.timeStep (d : Dev) : Dev :=
  match d.parent with
  | none => d
  | some (_, h) =>
    if d.fab.hadParent ∨ d.isRoot ∨ !h.echo then d
    else
      let d := d.onFab (fun x => { x with hadParent := true })
      if d.hasEpoch ∨ d.anyOccupied then d
      else (d.stepBy (openUnits 6 h.offset 256)).gridBeats.raise pgDev 1

/-- What a BEND says of its sender and its time; without an echo of a BEND of this end there is no offset yet. -/
def heardOf (w : Rec) (at256 : Nat) : Heard :=
  let t1 : Int := bitsOf w 136 72
  let t2 : Int := bitsOf w 208 72
  let t3 : Int := bitsOf w 64 72
  { root := bitsOf w 8 10, dist := bitsOf w 18 4, txTime := bitsOf w 64 72, rxTime := at256,
    echo := !(t1 = 0 ∧ t2 = 0)
    offset := if t1 = 0 ∧ t2 = 0 then 0 else ((t2 - t1) - ((at256 : Int) - t3)) / 2 }

/-- The deadline of the beat before, in DEV_TIME (R300). -/
def Dev.graceEnd (d : Dev) : Nat := d.fab.beatStart + d.getF rFabTmo fFabTmo_Grace

/-- A root was heard: TIME_LOST ends, and a candidate yields to a root of lower FID (R287). -/
def Dev.hearRoot (d : Dev) (root : Nat) : Dev :=
  let d := (d.onFab (fun x => { x with rootHeard := d.time })).putF rFabStatus fFabStatus_TimeLost 0
  if d.getF rFabCfg fFabCfg_TimeRoot = 0 ∨ root < d.fid then
    (d.onFab (fun x => { x with lowerHeard := d.time })).putF rFabStatus fFabStatus_Root 0
  else d

/-- BEND: stream states are kept for the deadline of their beat, when they come by it (R300), and the timestamps feed the tree
(R285 to R287). -/
def Dev.bend (d : Dev) (i : Nat) (w : Rec) (at256 : Nat) : Dev :=
  d.takeWord i (bitsOf w 0 4) (fun d =>
    let h := heardOf w at256
    let b := bitsOf w 32 32
    let d := d.onFab (fun x => { x with
      heard := tset x.heard i h
      bends := if b = x.beatNo % 2 ^ 32 then tset x.bends i w else x.bends
      bendsPrev := if b ≠ x.beatNo % 2 ^ 32 ∧ b = x.prevNo % 2 ^ 32 ∧ !thas x.bendsPrev i ∧ at256 ≤ 256 * d.graceEnd then tset x.bendsPrev i w
        else x.bendsPrev })
    let d := if h.dist ≠ 15 ∧ h.root ≠ d.fid then d.hearRoot h.root else d
    d.timeStep.showTime)

/-- ROOT_TIMEOUT: a candidate that has heard no root of lower FID for 1 ms acts as root (R287); it has a root again. -/
def Dev.rootTimeout (d : Dev) : Dev :=
  if d.getF rFabCfg fFabCfg_TimeRoot = 1 ∧ d.fab.lowerHeard + 1000000 ≤ d.time then
    ((d.putF rFabStatus fFabStatus_Root 1).putF rFabStatus fFabStatus_TimeLost 0).showTime
  else d

/-- TIME_LOST: a device that has heard no root for 8 ms says so (R287). -/
def Dev.timeLost (d : Dev) : Dev :=
  if d.isRoot ∨ d.time < d.fab.rootHeard + 8000000 ∨ d.getF rFabStatus fFabStatus_TimeLost = 1 then d
  else
    let d := d.onFab (fun x => { x with hadParent := false, heard := [] })
    ((d.putF rFabStatus fFabStatus_TimeLost 1).showTime).raise pgFab 0x80

/-- What DEV_TIME slews in the beat that begins: toward the parent, by any amount that 200 ppm of the beat allows (R286,
log entry 14). -/
def Dev.slewBeat (d : Dev) : Dev :=
  match d.parent with
  | none => d
  | some (_, h) =>
    if d.isRoot then d
    else
      let lim := min (h.offset.natAbs / 256) (d.fab.len1 * 200 / 1000000)
      let k := Config.freeWord d.free % (lim + 1)
      { d with free := d.free + 1 }.onFab (fun x => { x with slew := if h.offset < 0 then -(k : Int) else k })

end Sys2Proof.Machine
end

