-- ==== Sys2Proof/Machine/Beats.lean ====
section
/-! DEFINITION. Beats, rounds, slots, streams, fold commands and epochs (10_fold_fabric.md R288 to R310; 06 R178, R182;
12 R361). -/

namespace Sys2Proof.Machine

/-! ## Slot entries (Table 10-6) -/

abbrev SlotEnt := BitVec 256

def seValid (e : SlotEnt) : Bool := bitOf e 0
def seRx (e : SlotEnt) : Bool := bitOf e 1
def seLink (e : SlotEnt) : Nat := bitsOf e 2 7
def seBeat (e : SlotEnt) : Nat := bitsOf e 9 10
def seStart (e : SlotEnt) : Nat := bitsOf e 19 13
def seGranules (e : SlotEnt) : Nat := bitsOf e 32 16
def seOp (e : SlotEnt) : Nat := bitsOf e 48 3
def sePart (e : SlotEnt) : Nat := bitsOf e 51 3
def seCtx (e : SlotEnt) : Nat := bitsOf e 54 4
def seJob (e : SlotEnt) : Nat := bitsOf e 58 6
def seVaddr (e : SlotEnt) : Nat := bitsOf e 64 48
def sePkey (e : SlotEnt) : Nat := bitsOf e 112 8
def seAnchor (e : SlotEnt) : Int := signed 10 (bitsOf e 120 10)
def seNotify (e : SlotEnt) : Bool := bitOf e 151
def seNtile (e : SlotEnt) : Nat := bitsOf e 152 8
def seNactr (e : SlotEnt) : Nat := bitsOf e 160 4

/-- The engine by which the fabric reaches memory for a slot. -/
def seEngine (e : SlotEnt) : Engine := { src := 5, part := sePart e, ctx := seCtx e }

/-! ## The epoch in force (Table 10-5) -/

def hdrLen (h : BitVec 4096) : Nat := bitsOf h 64 17
def hdrMax (h : BitVec 4096) : Nat := bitsOf h 81 17
def hdrFbLen (h : BitVec 4096) : Nat := bitsOf h 98 17
def hdrMember (h : BitVec 4096) (n : Nat) : Bool := n < 768 && bitOf h (1024 + n)
/-- COVER word j of detour t (1 to 4). -/
def hdrCover (h : BitVec 4096) (t j : Nat) : Nat := bitsOf h (1792 + 512 * (t - 1) + 32 * j) 32

/-- L of the current beat (R289). -/
def Dev.nominal (d : Dev) : Nat := if d.hasEpoch then hdrLen d.hdr else 8000
/-- Whether the fall-back is in force. -/
def Dev.fallback (d : Dev) : Bool := d.getF rFabStatus fFabStatus_Fallback == 1

/-- The entries of the table in force for the beat numbered n, with their indices in the table. -/
def Dev.entriesAt (d : Dev) (n : Nat) : List (Nat × SlotEnt) :=
  if !d.hasEpoch then []
  else (((List.range d.tableNow.length).zip d.tableNow).filter (fun e => seValid e.2 && seBeat e.2 == n % d.period))

/-! ## Pace words (Table 10-8) -/

/-- The 128 bytes of a pace word for the beat numbered `beat`. -/
def Pace.word (p : Pace) (beat : Nat) : BitVec 1024 :=
  BitVec.ofNat 1024 (1 + atBit 4 1 + atBit 32 (beat % 2 ^ 32) + atBit 64 (p.need % 2 ^ 24)
    + atBit 88 (if p.fallback then 1 else 0) + atBit 96 p.gap.toNat + atBit 160 p.stop.toNat
    + atBit 224 (p.epoch % 2 ^ 32) + atBit 256 p.ready.toNat)

/-- The values of a pace word received. -/
def paceOf (w : BitVec 1024) : Pace :=
  { need := bitsOf w 64 24, fallback := bitOf w 88, gap := BitVec.ofNat 64 (bitsOf w 96 64),
    stop := BitVec.ofNat 64 (bitsOf w 160 64), epoch := bitsOf w 224 32, ready := BitVec.ofNat 768 (bitsOf w 256 768) }

/-- The merge rules of Table 10-8: `a` is the device's own word. -/
def Pace.merge (a b : Pace) : Pace :=
  { need := max a.need b.need, fallback := a.fallback || b.fallback, gap := a.gap ||| b.gap, stop := a.stop ||| b.stop,
    epoch := max a.epoch b.epoch
    ready := if a.epoch < b.epoch then b.ready else if a.epoch = b.epoch then a.ready ||| b.ready else a.ready }

/-- The device's own word leaves on every link in service, at most 8 times in a beat (R289). -/
def Dev.sendPace (d : Dev) : Dev :=
  if 8 ≤ d.fab.paceSent then d
  else (d.onFab (fun x => { x with paceSent := x.paceSent + 1, paceAt := d.time, paceDue := false })).sendAll
    (.pace (d.fab.pace.word d.fab.beatNo))

/-- A changed word leaves once 50 ns have passed since the last one left, with all that changed by then (R289, log entry 67). -/
def Dev.flushPace (d : Dev) : Dev := if d.fab.paceDue ∧ d.fab.paceAt + 50 ≤ d.time then d.sendPace else d

/-- A word is merged into the device's own, which goes on when that changes it (R290). -/
def Dev.mergePace (d : Dev) (p : Pace) : Dev :=
  let m := d.fab.pace.merge p
  if m = d.fab.pace then d else (d.onFab (fun x => { x with pace := m, paceDue := true })).flushPace

/-- PACE_WORD: a pace word for the current beat arrives on link i. -/
def Dev.paceWord (d : Dev) (i : Nat) (w : BitVec 1024) : Dev :=
  d.takeWord i (bitsOf w 0 4) (fun d => if bitsOf w 32 32 = d.fab.beatNo % 2 ^ 32 then d.mergePace (paceOf w) else d)

/-- The issue-rate cap of the device in 1/64: that of its slowest sector with fold jobs (R291). -/
def Dev.foldRate (d : Dev) : Nat :=
  ((List.range 6).filter (fun k => d.foldPart (d.sectPart k))).foldl (fun r k => min r (d.getF (rPwrSectMax k) fPwrSectMax_R)) 64

/-- The device's own pace word for the beat that begins, before any word is merged: NEED of the beat two ahead from the clock
and rate sampled now (R291, R292), FALLBACK, and readiness (Table 10-8). -/
def Dev.beginPace (d : Dev) : Dev :=
  let f := d.getF rPwrClk fPwrClk_Cur
  let r := d.foldRate
  let samples := d.hasEpoch && !d.fallback
  let work := match d.fab.active with
    | some img => img.work.getD ((d.fab.beatNo + 2) % d.period) 0
    | none => 0
  let need := if !d.hasEpoch then 8000 else if d.fallback then 0 else needAt d.nominal work f r
  let ep := match d.fab.staged with
    | some img => (img.epoch, BitVec.ofNat 768 (2 ^ d.fid))
    | none => (d.getF rFabEpoch fFabEpoch_Epoch, 0)
  let p : Pace := { need := need, fallback := d.getF rFabCfg fFabCfg_FbForce == 1, epoch := ep.1, ready := ep.2 }
  let d := if d.fallback then d else d.setReg rFabNeed (BitVec.ofNat 64 (need % 2 ^ 24))
  (d.onFab (fun x => { x with
    pace := p, paceSent := 0, paceDue := false, noticesSent := 0
    samples := (if samples then (f, r) else (0, 0)) :: x.samples.take 2 })).sendPace

/-! ## Slots as the beat begins (R178, R296) -/

/-- The granules of a TX slot, with their poison marks, and whether an address of it faults (R298). -/
def Dev.readSlot (d : Dev) (e : SlotEnt) : Dev × List (Rec × Bool) × Bool :=
  (List.range (seGranules e)).foldl (fun (acc : Dev × List (Rec × Bool) × Bool) i =>
    let (d, gs, bad) := acc
    match d.xlate (seEngine e) (sePkey e) (seVaddr e + 64 * i) false with
    | (d, .error _) => (d, gs ++ [(0, true)], true)
    | (d, .ok l) =>
      let (d, (bs, st)) := d.readBy 6 5 l 64
      (d, gs ++ [(recOf bs, st != 0)], bad)) (d, [], false)

/-- The slots of the beat that begins: what the TX slots send is taken now. A partition in reset reads nothing (R182). -/
def Dev.beginSlots (d : Dev) : Dev :=
  let es := d.entriesAt d.fab.beatNo
  let (d, tx) := (es.filter (fun e => !seRx e.2)).foldl (fun (acc : Dev × List TxSlot) e =>
    let (d, ts) := acc
    let zero := d.inReset (sePart e.2)
    let (d, gs, bad) := if zero ∨ d.linkState (seLink e.2) ≠ 3
      then (d, List.replicate (seGranules e.2) ((0 : Rec), false), false) else d.readSlot e.2
    (d, ts ++ [{ n := e.1, granules := gs, fault := bad, sent := false, zeros := zero }])) (d, [])
  d.onFab (fun x => { x with
    tx := tx
    rx := (es.filter (fun e => seRx e.2)).map (fun e => { n := e.1, arrived := false, notified := false }) })

/-! ## Streams (R297, R299, R300) -/

/-- What the BEND of a link says of a job, when it arrived. -/
def bendState (bends : Tab Rec) (link job : Nat) : Option Nat := (tfind bends link).map (fun w => bitsOf w (280 + 2 * job) 2)

/-- Whether the stream of an RX slot is confirmed: its job VALID in the BEND, every granule of the stream arrived. -/
def confirmed (table : List SlotEnt) (bends : Tab Rec) (rx : List RxSlot) (s : RxSlot) : Bool :=
  let e := table.getD s.n 0
  bendState bends (seLink e) (seJob e) == some 1
    && rx.all (fun r => let x := table.getD r.n 0
        seLink x != seLink e || seJob x != seJob e || r.arrived)

/-- The arrival counter that an RX slot names counts one more (R297). -/
def Dev.notifyTile (d : Dev) (e : SlotEnt) : Dev :=
  if d.inReset (sePart e) then d
  else d.modTile (seNtile e) (fun x => { x with arrival := tset x.arrival (seNactr e) (tget x.arrival 0 (seNactr e) + 1) })

/-- The RX slots of a beat that are confirmed and were not yet notified are notified; on link `i` alone when one is given. -/
def Dev.notifyRx (d : Dev) (table : List SlotEnt) (bends : Tab Rec) (i : Option Nat) (rx : List RxSlot) : Dev × List RxSlot :=
  rx.foldl (fun (acc : Dev × List RxSlot) s =>
    let (d, out) := acc
    let e := table.getD s.n 0
    if seNotify e && !s.notified && (i.isNone || i == some (seLink e)) && confirmed table bends rx s then
      (d.notifyTile e, out ++ [{ s with notified := true }])
    else (d, out ++ [s])) (d, [])

/-- The mask of a job. -/
def jobBit (j : Nat) : BitVec 64 := BitVec.ofNat 64 (2 ^ j)

/-- BEND_DEADLINE: at the boundary plus GRACE, each RX stream of link i in the beat before is confirmed or is a beat timeout
(R300). -/
def Dev.bendDeadline (d : Dev) (i : Nat) : Dev :=
  if d.fab.deadlineDone.contains i ∨ d.time < d.graceEnd then d
  else
    let tb := d.fab.tablePrev
    let bends := d.fab.bendsPrev
    let rx := d.fab.rxPrev
    let d := d.onFab (fun x => { x with deadlineDone := i :: x.deadlineDone })
    let mine := rx.filter (fun s => seLink (tb.getD s.n 0) == i)
    let jobs := (mine.map (fun s => seJob (tb.getD s.n 0))).eraseDups
    let lost := jobs.filter (fun j =>
      !mine.any (fun s => seJob (tb.getD s.n 0) == j && confirmed tb bends rx s))
    let (d, rx) := d.notifyRx tb bends (some i) rx
    let d := d.onFab (fun x => { x with rxPrev := rx })
    if lost.isEmpty then d
    else
      let d := (d.addF rFabBtmoCnt fFabBtmoCnt_Cnt lost.length).addF (rFabLinkBtmo i) fFabLinkBtmo_Btmo lost.length
      let d := d.raise pgFab 4
      let gone := lost.filter (fun j => bendState bends i j == some 3)
      let gap := lost.filter (fun j => bendState bends i j != some 3)
      let d := if !thas bends i ∧ d.linkUp i then d.goDown i 3 else d
      d.mergePace { need := 0, epoch := 0, gap := gap.foldl (fun m j => m ||| jobBit j) 0,
                    stop := gone.foldl (fun m j => m ||| jobBit j) 0 }

/-! ## Slots in the beat (R296, R298) -/

/-- A slot fault of entry n (R298). -/
def Dev.slotFault (d : Dev) (n : Nat) : Dev :=
  ((d.addF rFabSlotFault fFabSlotFault_Cnt 1).putF rFabSlotFault fFabSlotFault_Idx n).raise pgFab 0x100

/-- SLOT_TX: entry n sends its granules as they stood at the start of the beat: zeros while its partition is in reset
(R182), poison when an address faults or the entry cannot be read (R298, Table 12-1). -/
def Dev.slotTx (d : Dev) (n : Nat) : Dev :=
  match d.fab.tx.find? (fun t => t.n == n && !t.sent) with
  | none => d
  | some t =>
    let e := d.tableNow.getD n 0
    if d.linkState (seLink e) ≠ 3 then d
    else
      let (d, ue) := d.readWord .fabActive 0 n
      let bad := t.fault || ue
      let d := if bad then d.slotFault n else d
      let zero := t.zeros || d.inReset (sePart e)
      let gs : List (Rec × Bool) :=
        if zero then t.granules.map (fun _ => ((0 : Rec), false))
        else if bad then t.granules.map (fun _ => ((0 : Rec), true)) else t.granules
      (d.onFab (fun x => { x with tx := x.tx.map (fun y => if y.n = n then { y with sent := true, zeros := zero } else y) })).sendLink
        (seLink e) (.slot n gs)

/-- One granule of an RX slot by its OP: what is written, and whether as poison. Each RADD_X128 is a reduction of two partials
(R46; a DESIGN CHOICE, log entry 73). -/
def rxResult (e : SlotEnt) (incoming : Rec) (poison : Bool) (own : GranRead) : List Byte × Bool :=
  if seOp e = 0 then (recBytes incoming, poison)
  else if poison ∨ own.2 ≠ 0 then (zeros 64, true)
  else
    let mine := recOf own.1
    if seOp e = 1 then
      ((List.range 16).flatMap (fun k =>
        let a : W32 := BitVec.ofNat 32 (bitsOf incoming (32 * k) 32)
        let b : W32 := BitVec.ofNat 32 (bitsOf mine (32 * k) 32)
        leBytes 4 (fadd a b).1.toNat), false)
    else
      ((List.range 4).flatMap (fun k =>
        let a : BitVec 128 := BitVec.ofNat 128 (bitsOf incoming (128 * k) 128)
        let b : BitVec 128 := BitVec.ofNat 128 (bitsOf mine (128 * k) 128)
        leBytes 16 (exactSum (seAnchor e) [a, b]).1.toNat), false)

/-- The locations of an RX slot's granules, or `none` when one of its addresses faults. -/
def Dev.rxPlaces (d : Dev) (e : SlotEnt) : Dev × Option (List Nat) :=
  (List.range (seGranules e)).foldl (fun (acc : Dev × Option (List Nat)) i =>
    match acc.2, acc.1.xlate (seEngine e) (sePkey e) (seVaddr e + 64 * i) true with
    | some ls, (d, .ok l) => (d, some (ls ++ [l]))
    | _, (d, _) => (d, none)) (d, some [])

/-- SLOT_RX: granules for entry n arrive and are written by OP; those of a stopped job or of a partition in reset are
discarded (R182, R296, R298, R300). -/
def Dev.slotRx (d : Dev) (n : Nat) (gs : List RxGranule) : Dev :=
  if !d.fab.rx.any (fun s => s.n == n && !s.arrived) then d
  else
    let e := d.tableNow.getD n 0
    if d.linkState (seLink e) ≠ 3 ∨ gs.length ≠ seGranules e then d
    else
      let d := d.onFab (fun x => { x with
        rx := x.rx.map (fun s => if s.n = n then { s with arrived := gs.all (fun g => g.arrived) } else s) })
      if d.stoppedJob (seJob e) ∨ d.inReset (sePart e) then d
      else
        let (d, ue) := d.readWord .fabActive 0 n
        if ue then d.slotFault n
        else
          match d.rxPlaces e with
          | (d, none) => d.slotFault n
          | (d, some ls) =>
            (ls.zip gs).foldl (fun d x =>
              if !x.2.arrived then d
              else
                let (d, own) := if seOp e = 0 then (d, ([], 0)) else d.readBy 6 5 x.1 64
                let r := rxResult e x.2.data x.2.poison own
                d.writeHome { addr := x.1, data := r.1, poison := r.2 }) d

/-! ## BEND_SEND (R289, R299, Table 10-7) -/

/-- The state of job j's TX stream on link i in this beat, 0 for no slots; TIME_LOST tells from the boundary after it set
(R287), a partition's reset also when it ended within the beat. -/
def Dev.streamState (d : Dev) (i j : Nat) : Nat :=
  let mine := d.fab.tx.filter (fun t => let e := d.tableNow.getD t.n 0; seLink e == i && seJob e == j)
  if mine.isEmpty then 0
  else if (d.fab.lost ∧ d.getF rFabStatus fFabStatus_TimeLost = 1)
      ∨ mine.any (fun t => t.zeros || d.inReset (sePart (d.tableNow.getD t.n 0))) then 3
  else if d.fab.lowered.any (fun b => b ≤ d.fab.beatNo && d.fab.beatNo ≤ b + 2) ∨ mine.any (fun t => !t.sent) then 2
  else 1

/-- The BEND that link i sends now. -/
def Dev.bendWord (d : Dev) (i : Nat) : Rec :=
  let h := tfind d.fab.heard i
  BitVec.ofNat 512 (1 + atBit 4 3 + atBit 8 (d.getF rFabTimeRoot fFabTimeRoot_RootFid)
    + atBit 18 (d.getF rFabTime fFabTime_Dist) + atBit 32 (d.fab.beatNo % 2 ^ 32) + atBit 64 (d.time * 256 % 2 ^ 72)
    + atBit 136 (h.elim 0 (·.txTime) % 2 ^ 72) + atBit 208 (h.elim 0 (·.rxTime) % 2 ^ 72)
    + ((List.range 64).foldl (fun w j => w + atBit (280 + 2 * j) (d.streamState i j)) 0))

def Dev.bendSend (d : Dev) (i : Nat) : Dev := if d.linkUp i then d.sendLink i (.bend (d.bendWord i)) else d

/-! ## The boundary (R288, R290 to R293, R303, R309, R310) -/

/-- The lowest detour whose valid COVER words include every link of a down-set (R309). -/
def Dev.coveredBy (d : Dev) (t : Nat) (down : List (Nat × Nat)) : Bool :=
  down.all (fun x => (List.range 16).any (fun j => hdrCover d.hdr t j % 2 ^ 18 == x.1 + atBit 10 x.2 + atBit 17 1))

/-- The jobs of the epoch at this device. -/
def Dev.epochJobs (d : Dev) : BitVec 64 :=
  (List.range 6).foldl (fun m p => if d.foldPart p then m ||| jobBit (d.jobOf p) else m)
    (d.tableNow.foldl (fun m e => if seValid e then m ||| jobBit (seJob e) else m) 0)

/-- Jobs stop (R303, R310): FAB_STOP_JOBS, STOP, and the cause FOLD of their requests (R304). -/
def Dev.stopJobs (d : Dev) (m : BitVec 64) : Dev :=
  let new := m &&& ~~~ d.reg rFabStopJobs
  if new = 0 then d
  else (List.range 6).foldl (fun d p => if d.foldPart p ∧ bitOf new (d.jobOf p) then d.noteCause p 6 else d)
    ((d.modReg rFabStopJobs (· ||| m)).raise pgFab 0x10)

/-- GAP bits of a round (R303): FAB_GAP_JOBS, GAP, the period's bits, and the cause FOLD. -/
def Dev.gapJobs (d : Dev) (m : BitVec 64) : Dev :=
  if m = 0 then d
  else
    let d := (d.modReg rFabGapJobs (· ||| m)).raise pgFab 8
    let d := d.onFab (fun x => { x with gapPeriod := x.gapPeriod ||| m })
    (List.range 6).foldl (fun d p => if d.foldPart p ∧ bitOf m (d.jobOf p) then d.noteCause p 6 else d) d

/-- The table follows the down-set that the round before last first held (R309, R310). -/
def Dev.selectDetour (d : Dev) : Dev :=
  let s := d.fab.downRound
  let d' := d.onFab (fun x => { x with downActed := s, downRound := x.down })
  if s = d.fab.downActed ∨ d.getF rFabStatus fFabStatus_EpochState ≠ 1 then d'
  else
    let now := d.getF rFabStatus fFabStatus_Detour
    if now ≠ 0 ∧ d.coveredBy now s then d'
    else
      match ((List.range (bitsOf d.hdr 138 3)).map (· + 1)).find? (fun t => d.coveredBy t s) with
      | some t => d'.putF rFabStatus fFabStatus_Detour t
      | none => ((d'.stopJobs d.epochJobs).putF rFabStatus fFabStatus_EpochState 2).raise pgFab 0x10

/-- The period of the beat that ends is over: fold commands of it learn whether their job lost data or stopped, or that
they overran (R302, R303); steps and slices likewise (R304). -/
def Dev.endPeriod (d : Dev) : Dev :=
  let gap := d.fab.gapPeriod
  let d := { d with cq := { d.cq with cmds := d.cq.cmds.map (fun (x : Cmd) =>
    if x.fold ∧ !x.foldEnded then
      { x with foldEnded := true, foldStop := d.stoppedJob (d.jobOf x.part),
               foldGap := bitOf gap (d.jobOf x.part) || !d.cmdDrained x }
    else x) } }
  (d.onFab (fun x => { x with lastGap := gap, gapPeriod := 0 })).settleRuns

/-- The beat at which a commit decided by the round of beat b falls: the first period start of the old epoch from b + 2 on,
or b + 2 itself (R305). -/
def Dev.commitBeat (d : Dev) (b : Nat) : Nat := if d.hasEpoch then ceilDiv (b + 2) d.period * d.period else b + 2

/-- Whether a round shows every member of an image ready for it (R305). -/
def roundReady (p : Pace) (img : FabImage) : Bool :=
  p.epoch == img.epoch && (List.range 768).all (fun n => !hdrMember img.hdr n || bitOf p.ready n)

/-- The round of beat b decides the commit of the staged epoch, or of one that this device has not staged (R305, R306). -/
def Dev.decide_ (d : Dev) (b : Nat) : Dev :=
  let p := d.fab.pace
  let mine : Bool := match d.fab.staged with
    | some img => roundReady p img
    | none => false
  let other : Bool := match d.fab.staged with
    | some img => img.epoch != p.epoch
    | none => true
  if mine ∧ d.fab.commitAt.isNone then d.onFab (fun x => { x with commitAt := some (d.commitBeat b) })
  else if other ∧ d.getF rFabStatus fFabStatus_EpochState = 1 ∧ d.getF rFabEpoch fFabEpoch_Epoch < p.epoch
      ∧ d.fab.foreignAt.isNone ∧ Config.foreignReady p.epoch p.ready.toNat then
    d.onFab (fun x => { x with foreignAt := some (d.commitBeat b) })
  else d

/-- The end of the beat: receive notifications, the round, the agreed length of the beat two ahead, what the round decides. -/
def Dev.endBeat (d : Dev) : Dev :=
  let b := d.fab.beatNo
  let p := d.fab.pace
  let (d, rx) := d.notifyRx d.tableNow d.fab.bends none d.fab.rx
  let d := (d.gapJobs p.gap).stopJobs p.stop
  let d := if d.hasEpoch ∧ (b + 1) % d.period = 0 then d.endPeriod else d
  let d := d.decide_ b
  let falls := d.hasEpoch && !d.fallback && !d.fab.fb2 && (p.fallback || hdrMax d.hdr < p.need)
  let next := if !d.hasEpoch then 8000
    else if d.fallback || d.fab.fb2 || falls then bitsOf d.hdr 98 17 else max d.nominal p.need
  let d := if d.fab.fb2 then (d.putF rFabStatus fFabStatus_Fallback 1).raise pgFab 0x40 else d
  d.onFab (fun x => { x with
    rxPrev := rx, tablePrev := d.tableNow, bendsPrev := x.bends, bends := [], deadlineDone := [], prevNo := b
    roundNeed := p.need, beatStart := x.beatStart + x.len1, len1 := x.len2, len2 := next, fb2 := falls })

/-- The beat that begins is longer than BEAT_NS allows: where the fall-back, a detour, a lost link or the epoch makes it so, the
requests of that fold partition see the cause FOLD (R236). -/
def Dev.longBeat (d : Dev) : Dev :=
  (List.range 6).foldl (fun d p =>
    let b := d.getF (rSrvAdmBeat p) fSrvAdmBeat_BeatNs
    if d.foldPart p ∧ b ≠ 0 ∧ b < d.fab.len1 ∧ (d.fallback ∨ d.getF rFabStatus fFabStatus_Detour ≠ 0 ∨ d.fab.down ≠ []
        ∨ b < d.nominal) then d.noteCause p 6
    else d) d

/-- The beat numbered n begins: its table, its pace word, its slots, and what DEV_TIME slews in it. -/
def Dev.beginBeat (d : Dev) (n : Nat) : Dev :=
  let d := d.onFab (fun x => { x with beatNo := n, lost := d.getF rFabStatus fFabStatus_TimeLost == 1 })
  let d := if d.hasEpoch then d.setReg rFabBeat (BitVec.ofNat 64 n) else d
  let d := (d.setReg rFabBeatLen (BitVec.ofNat 64 d.fab.len1)).selectDetour
  (d.longBeat.beginPace.sendNotices.beginSlots).slewBeat

/-- The number of the next beat: with no epoch, that of the 8,000 ns grid of DEV_TIME (R288). -/
def Dev.nextBeat (d : Dev) : Nat := if d.hasEpoch then d.fab.beatNo + 1 else (d.fab.beatStart + d.fab.len1) / 8000

/-- A device that has not staged an epoch which others commit stops its own at that boundary (R306). -/
def Dev.foreignStop (d : Dev) (n : Nat) : Dev :=
  match d.fab.foreignAt with
  | none => d
  | some b =>
    if n < b then d
    else
      let d := (d.onFab (fun x => { x with foreignAt := none })).putF rFabStatus fFabStatus_EpochState 2
      ((List.range 96).filter (fun i => d.linkState i == 3)).foldl (fun d i => d.fence i) d

/-- Whether the host interface and the fabric have left their reset (R432, R435). -/
def Dev.fabricRuns (d : Dev) : Bool := d.hif.phase == .complete && d.pstate != 6 && d.pstate != 7

/-- Whether the boundary that ends the current beat is that of a decided commit. -/
def Dev.commitDue (d : Dev) : Bool :=
  match d.fab.commitAt with
  | none => false
  | some b => b ≤ d.nextBeat

/-- Whether DEV_TIME has reached the boundary that ends the current beat (R288). -/
def Dev.boundaryReached (d : Dev) : Bool := d.fab.beatStart + d.fab.len1 ≤ d.time

/-- BEAT_BOUNDARY: the beat ends and the next one begins. -/
def Dev.beatBoundary (d : Dev) : Dev :=
  if !d.fabricRuns ∨ !d.boundaryReached ∨ d.commitDue then d
  else
    let n := d.nextBeat
    (d.endBeat.foreignStop n).beginBeat n

/-! ## The commit (R305, R307, R353) -/

/-- The fabric unit of a FENCE_EPOCH that waits for its commit completes. -/
def Dev.endFence (d : Dev) (status : Nat) : Dev :=
  match d.cq.cmds.find? (fun x => x.opcode == 0x22 && x.phase == .finished) with
  | none => d
  | some x => if status = 0 then d.endCmd x else d.endCmdWith x status 0

/-- Links change state by the new table (R307). -/
def Dev.commitLinks (d : Dev) (table : List SlotEnt) : Dev :=
  (List.range 96).foldl (fun d i =>
    let uses := table.any (fun e => seValid e && seLink e == i)
    if d.linkState i = 2 ∧ uses then d.setLink i 3
    else if d.linkState i = 3 ∧ !uses then d.fence i
    else d) d

/-- The staged epoch replaces the one in force. -/
def Dev.commit (d : Dev) (img : FabImage) : Dev :=
  let d := d.onFab (fun x => { x with
    active := some img, staged := none, commitAt := none, foreignAt := none, len1 := hdrLen img.hdr,
    len2 := hdrLen img.hdr, fb2 := false, down := [], downRound := [], downActed := [], forwarded := [], noticeQ := [],
    lowered := [] })
  let d := d.setReg rFabStatus ((d.reg rFabStatus &&& 0x380) ||| 1)
  let d := ((d.setReg rFabEpoch (BitVec.ofNat 64 img.epoch)).setReg rFabStopJobs 0).setReg rFabDown 0
  let d := ((d.commitLinks (img.tables.getD 0 [])).resumeWhere (fun _ => true)).onSrv (fun s => { s with foldFrom := [] })
  (d.endFence 0).raise pgFab 0x20

/-- EPOCH_COMMIT: at the boundary that the deciding round fixed, the beat ends, the staged tables come into force and beat 0
of the epoch begins. A staging table that cannot be read is discarded instead (Table 12-1). -/
def Dev.epochCommit (d : Dev) : Dev :=
  match d.fab.staged with
  | none => d
  | some img =>
    if !d.fabricRuns ∨ !d.boundaryReached ∨ !d.commitDue then d
    else
      let (d, ue) := d.readWords .fabStaging 0 ((d.upsets.filter (fun x => x.arr == .fabStaging)).map (·.word))
      if ue then
        let n := d.nextBeat
        (((d.dropStaged.onFab (fun x => { x with commitAt := none })).endFence 0x52).endBeat).beginBeat n
      else ((d.endBeat).commit img).beginBeat 0

/-! ## Fold commands (R302, R303, R322) -/

/-- FOLD_COMMAND_START: the fold command at the head of queue q, which has passed its checks, starts at the next period start,
when it waits for nothing else (an admitting slice, its tiles), or completes with FOLD_STOP; once its partition has no fold
jobs any more it starts as any command. -/
def Dev.foldCommandStart (d : Dev) (q : Nat) : Dev :=
  match tfind d.cq.checked q, d.waiting q with
  | some x, r :: _ =>
    let y := { x with id := d.cq.nextId, sums := d.pwr.sums }
    if !(d.waitReasons q r).isEmpty ∨ d.bar4Before q then d
    else if !d.foldPart x.part then d.launch { y with fold := false } true false
    else if d.fab.beatNo % d.period ≠ 0 ∨ d.fab.beatStart < x.start then d
    else if d.jobStopped x.part then d.refuseHead y 0x55 0 0 0
    else d.launch y true false
  | _, _ => d

/-! ## FENCE_EPOCH (R305, R295) -/

/-- The partition whose context translates the image. -/
def fencePart (r : Rec) : Nat := bitsOf r 128 3

/-- The engine that copies an image. -/
def Cmd.fenceEngine (x : Cmd) : Engine := { src := 5, part := fencePart x.word, ctx := x.ctx }

/-- The start checks of FENCE_EPOCH beyond those of its record; 0 when none fails. -/
def Dev.fenceCheck (d : Dev) (x : Cmd) : Nat :=
  let p := fencePart x.word
  if !d.ctxEn p x.ctx ∨ d.ctxFunc p x.ctx ≠ x.func then 0x13
  else if d.trapped p x.ctx then 0x14
  else if bitsOf x.word 136 6 ≠ 0 then 0x15
  else if bitsOf x.word 192 32 ≤ d.getF rFabEpoch fFabEpoch_Epoch then 0x50
  else if d.cq.cmds.any (fun y => y.opcode == 0x22) then 0x51
  else 0

/-- FENCE_EPOCH starts: the fabric unit copies the header first. -/
def Dev.fenceEpoch (d : Dev) (q : Nat) : Dev :=
  d.takeHead q 0x22 (fun d x =>
    let s := d.fenceCheck x
    if s ≠ 0 then d.refuseStart x s 0 0 0
    else
      let d := d.begin_ { x with phase := .running }
      d.askHost x.id x.func 0 (d.hostPieces x.fenceEngine (bitsOf x.word 184 8) (bitsOf x.word 136 48) 512))

/-- Bytes of an image after its header, and the entries of each of its tables. -/
def imageTables (h : BitVec 4096) : List Nat :=
  bitsOf h 160 16 :: (List.range (min 4 (bitsOf h 138 3))).map (fun i => bitsOf h (176 + 16 * i) 16)
def imageRest (h : BitVec 4096) : Nat :=
  ceilDiv (hdrPeriod h) 64 * 64 + 32 * (imageTables h).foldl (· + ·) 0

/-- Header, WORK and tables of an image, staged as epoch n. -/
def imageOf (n : Nat) (bs : List Byte) : FabImage :=
  let h : BitVec 4096 := BitVec.ofNat 4096 (leNat (bs.take 512))
  let ents := (chunksOf 32 32768 (bs.drop (512 + ceilDiv (hdrPeriod h) 64 * 64))).map (fun x => BitVec.ofNat 256 (leNat x))
  { hdr := h, epoch := n, work := ((bs.drop 512).take (hdrPeriod h)).map (·.toNat),
    tables := ((imageTables h).foldl (fun (acc : List (List SlotEnt) × List SlotEnt) n =>
      (acc.1 ++ [acc.2.take n], acc.2.drop n)) ([], ents)).1 }

/-- Whether the header fields lie in their ranges (Table 10-5). -/
def headerOk (h : BitVec 4096) : Bool :=
  bitsOf h 0 4 == 1 && 2000 ≤ hdrLen h && hdrLen h ≤ 64000 && hdrLen h ≤ hdrMax h && hdrMax h ≤ 64000
    && hdrLen h ≤ bitsOf h 98 17 && bitsOf h 98 17 ≤ hdrMax h && 16 ≤ bitsOf h 115 7 && bitsOf h 115 7 ≤ 64
    && 2 ≤ hdrPeriod h && hdrPeriod h ≤ 1023 && bitsOf h 138 3 ≤ 4

/-- The place of an entry in the order of R295: BEAT, LINK, DIR, START. -/
def slotKey (e : SlotEnt) : Nat := ((seBeat e * 128 + seLink e) * 2 + (if seRx e then 1 else 0)) * 8192 + seStart e

/-- Whether two entries share link, direction and beat. -/
def sameLane (a b : SlotEnt) : Bool := slotKey a / 8192 == slotKey b / 8192

/-- Granules of the entries that `who` selects. -/
def slotGranules (es : List SlotEnt) (who : SlotEnt → Bool) : Nat := ((es.filter who).map seGranules).foldl (· + ·) 0

/-- The checks of R295 on one entry. -/
def Dev.entryOk (d : Dev) (h : BitVec 4096) (e : SlotEnt) : Bool :=
  let p := sePart e
  seBeat e + 1 != hdrPeriod h && seOp e < 3 && (seOp e == 0 || seRx e) && !d.unitGone .link (seLink e) && p < 6
    && bitsOf h (240 + 8 * p) 8 / 128 == 1 && bitsOf h (240 + 8 * p) 6 == seJob e && d.ctxEn p (seCtx e)
    && (!seNotify e || (seNtile e < 144 && d.sectPart (seNtile e / 24) == p))
    && seStart e * 800 + seGranules e * 256 ≤ (hdrLen h - 400) * 100

/-- The checks of R295 on one table, over the entries in use. -/
def Dev.tableOk (d : Dev) (h : BitVec 4096) (t : List SlotEnt) : Bool :=
  let es := t.filter seValid
  let l := hdrLen h - 400
  es.all (fun e => d.entryOk h e)
    && (es.zip es.tail).all (fun x => slotKey x.1 ≤ slotKey x.2
        && (!sameLane x.1 x.2 || seStart x.1 * 800 + seGranules x.1 * 256 ≤ seStart x.2 * 800))
    && es.all (fun e => (es.filter (fun x => seBeat x == seBeat e)).length ≤ 4096)
    && es.all (fun e => slotGranules es (sameLane e) * 256 ≤ 95 * l)
    && es.all (fun e => 2 * slotGranules es (fun x => seBeat x == seBeat e && seRx x == seRx e
        && (seLink x < 48) == (seLink e < 48)) ≤ bitsOf h 115 7 * l)

/-- Whether no COVER word of a detour names a link without VALID (R295). -/
def coverOk (h : BitVec 4096) : Bool :=
  (List.range (bitsOf h 138 3)).all (fun t => (List.range 16).all (fun j =>
    let w := hdrCover h (t + 1) j
    w % 2 ^ 17 == 0 || w / 2 ^ 17 % 2 == 1))

/-- The image's check word: CRC-32C with the CRC field taken as zero. -/
def crcOk (bs : List Byte) : Bool := crc32c (bs.take 508 ++ zeros 4 ++ bs.drop 512) == leNat ((bs.drop 508).take 4)

/-- Whether an image passes R295. -/
def Dev.imageOk (d : Dev) (bs : List Byte) : Bool :=
  let img := imageOf 0 bs
  let h := img.hdr
  crcOk bs && headerOk h && bitsOf h 8 10 == d.fid && hdrMember h d.fid && coverOk h
    && (imageTables h).foldl (· + ·) 0 ≤ 32768 && img.tables.all (fun t => d.tableOk h t)

/-- An image fails its check (R305): nothing is staged. -/
def Dev.fenceForm (d : Dev) (x : Cmd) : Dev := d.endCmdWith x 0x52 0

/-- EPOCH_IMAGE_CHECK: the copy has ended; the image is staged or fails (R295, R305). What follows the header of an image in
host memory is asked for when the header has come. -/
def Dev.epochImageCheck (d : Dev) (c : Nat) : Dev :=
  match d.cmd? c with
  | none => d
  | some x =>
    if x.opcode ≠ 0x22 ∨ x.phase ≠ .running ∨ d.readsWait c then d
    else
      let e := x.fenceEngine
      let pkey := bitsOf x.word 184 8
      let va := bitsOf x.word 136 48
      match d.readVa e pkey va 512 with
      | (d, .error f) => d.failCmd c f.1 0 f.2
      | (d, .ok hb) =>
        let h : BitVec 4096 := BitVec.ofNat 4096 (leNat hb)
        let n := imageRest h
        if 32768 < (imageTables h).foldl (· + ·) 0 then d.fenceForm x
        else
          let more := if x.slot = 0 then d.hostPieces e pkey (va + 512) n else []
          if !more.isEmpty then (d.modCmd c (fun y => { y with slot := 1 })).askHost c x.func 0 more
          else
            match d.readVa e pkey va (512 + n) with
            | (d, .error f) => d.failCmd c f.1 0 f.2
            | (d, .ok bs) =>
              if !d.imageOk bs then d.fenceForm x
              else
                ((d.onFab (fun y => { y with staged := some (imageOf (bitsOf x.word 192 32) bs) })).putF rFabStatus fFabStatus_Staged 1).modCmd c
                  (fun y => { y with phase := .finished })

end Sys2Proof.Machine
end

