-- ==== Sys2Proof/Machine/Replay.lean ====
section
/-! DEFINITION. The start of a suspect's replay (12_faults_and_recovery.md R356): the command runs again with the runtime
counts of its original start and writes memory as it did then. -/

namespace Sys2Proof.Machine

/-- The replay of partition p begins, when it has not yet. -/
def Dev.startReplay (d : Dev) (p : Nat) : Dev :=
  match (d.part p).replaying with
  | none => d
  | some c =>
    match d.cmd? c with
    | none => d
    | some x =>
      let r := x.word
      if x.phase ≠ .waiting then d
      else if x.opcode = 0x01 ∨ x.opcode = 0x14 then d.launch x false true
      else if x.opcode = 0x02 then d.startCopy x true
      else if x.opcode = 0x10 then
        let base := fld (d.reg (rSrvSlotBase x.slot)) fSrvSlotBase_Base * 65536
        ((d.loadCopy (dmaOf (loadPart x.part r) x.ctx x.dmaSect) c (bitsOf r 192 8) (bitsOf r 144 48) base (bitsOf r 200 40)).1).modCmd
          c (fun y => { y with phase := .finished })
      else if x.opcode = 0x12 then
        let dst := bitsOf r 208 48
        let n := bitsOf r 264 32
        let eng : Engine := { dmaOf x.part x.ctx x.dmaSect with bypass := (dst, dst + n) }
        ((d.loadCopy eng c (bitsOf r 256 8) (bitsOf r 160 48) dst n).1).modCmd c (fun y => { y with phase := .finished })
      else d.modCmd c (fun y => { y with phase := .finished })

/-- RESET_RETRAIN_DONE. -/
def Dev.phaseFourEnds (d : Dev) (p : Nat) (failed : List UnitId) : Dev := (d.resetRetrainDone p failed).startReplay p

/-- SUSPECT_REPLAY. -/
def Dev.replayEnds (d : Dev) (p : Nat) (status : Byte) (hung : List UnitId) : Dev := (d.suspectReplay p status hung).startReplay p

end Sys2Proof.Machine
end

