-- ==== Sys2Proof/Machine/Recovery.lean ====
section
/-! DEFINITION. Retirement (12_faults_and_recovery.md R349 to R353), POWER_STATE (13 R371 to R373), and the replay of a suspect
(12 R356). -/

namespace Sys2Proof.Machine

/-! ## What is retired -/

/-- The device physical address at which a PAGE, ROW or BANK region of an address begins, and its length as a region. -/
def regionOf (scope a : Nat) : Nat × Nat :=
  if scope = 0 then (a / 0x1_0000 * 0x1_0000, 0x1_0000) else (a / 1024 * 1024, 1024)

/-- Whether what a PAGE_RETIRE names is already retired (R349). -/
def Dev.isRetired (d : Dev) (scope a u : Nat) : Bool :=
  let n := stackOf a
  let whole := d.unitRetired .stack n
  let bank := bitOf (d.reg (rCsRetireBank n (pcOf a))) (bankOf a)
  let regs := (d.stackSt n).retired
  match scope with
  | 0 => whole || regs.contains (regionOf 0 a)
  | 1 => whole || bank || regs.contains (regionOf 0 a) || regs.contains (regionOf 1 a)
  | 2 => whole || bank
  | 3 => whole
  | 4 => d.unitRetired .tile u
  | 5 => d.unitRetired .dma u
  | _ => d.unitRetired .sector u

/-- A unit is retired for a reason, for good (R350, R352). -/
def Dev.retireUnit (d : Dev) (u : UnitId) (reason : Nat) (persisted : Bool) : Dev :=
  d.setUnit u { state := 2, reason := reason, persisted := persisted || (d.unit u).persisted }

/-- The effect of a retirement (Table 12-4). -/
def Dev.applyRetire (d : Dev) (scope a u reason : Nat) (persisted : Bool) : Dev :=
  let n := stackOf a
  match scope with
  | 0 | 1 =>
    let d := d.modStack n (fun s => { s with retired := s.retired ++ [regionOf scope a] })
    d.putF (rCsRetireState n) fCsRetireState_Regions ((d.stackSt n).retired.length)
  | 2 => d.modReg (rCsRetireBank n (pcOf a)) (· ||| BitVec.ofNat 64 (2 ^ bankOf a))
  | 3 => (d.retireUnit ⟨.stack, n⟩ reason persisted).putF (rCsRetireState n) fCsRetireState_Stack 1
  | 4 => d.retireUnit ⟨.tile, u⟩ reason persisted
  | 5 => d.retireUnit ⟨.dma, u⟩ reason persisted
  | 6 => d.retireUnit ⟨.sector, u⟩ reason persisted
  | _ => (d.retireUnit ⟨.link, u⟩ reason persisted).putF (rFabLinkState u) fFabLinkState_State 5

/-- A record of the retirement list applied at power-on, with reason RECORD (R351). -/
def Dev.applyRecord (d : Dev) (r : RetRec) : Dev := d.applyRetire r.kind r.addr r.unit 6 true

/-- Start checks of PAGE_RETIRE (R349 to R351, R363). -/
def Dev.retireCheck (d : Dev) (r : Rec) : Nat :=
  let s := bitsOf r 128 3
  let a := bitsOf r 136 40
  let u := bitsOf r 176 8
  if s = 7 ∨ (s ≤ 3 ∧ stackTop ≤ a) ∨ (s = 4 ∧ 144 ≤ u) ∨ (s = 5 ∧ 24 ≤ u) ∨ (s = 6 ∧ 6 ≤ u) then 0x15
  else if d.isRetired s a u then 0
  else if (s ≤ 1 ∧ 256 ≤ (d.stackSt (stackOf a)).retired.length) ∨ (bitOf r 184 ∧ 512 ≤ d.gan.retireCount) then 0x61
  else if s = 6 ∧ d.sectPart u < 6 then 0x62
  else 0

/-- The unit number of a retirement record. -/
def retireUnitNo (s a u : Nat) : Nat := if s ≤ 2 then 0 else if s = 3 then stackOf a else u

/-- PAGE_RETIRE (R349): in effect at once; its completion waits, where PERSIST asks for it, until the record is appended (R351), and
for a region until accesses in flight to it have ended (R350); what is already retired stays as it is. -/
def Dev.pageRetire (d : Dev) (q : Nat) : Dev :=
  d.takeHead q 0x20 (fun d x =>
    let r := x.word
    let s := bitsOf r 128 3
    let a := bitsOf r 136 40
    let u := bitsOf r 176 8
    let c := d.retireCheck r
    if c ≠ 0 then d.refuseStart x c 0 0 0
    else if d.isRetired s a u then d.refuseStart x 0 0 0 0
    else
      let d := d.applyRetire s a u 4 (bitOf r 184)
      let x := { x with nextSeq := d.nextHenOp }
      if bitOf r 184 then
        (d.begin_ { x with phase := .waiting }).cfgAsk (.retire ⟨s, a, retireUnitNo s a u, d.time⟩) (.cmd x.id)
      else if d.retireQuiet x then d.refuseStart x 0 0 0 0
      else d.begin_ { x with phase := .finished })

/-! ## POWER_STATE (R371 to R373) -/

/-- The head of queue q as POWER_STATE meets it: its TARGET, and whether it commits. -/
def Dev.powerStateRun (d : Dev) (x : Cmd) : Dev :=
  let t := bitsOf x.word 128 2
  if t = 3 then d.refuseStart x 0x15 0 0 0
  else if t = 0 then d.refuseStart x 0 0 0 0
  else
    let m := d.refusers
    if m ≠ 0 then (d.refuse m t (bitsOf x.word 32 32)).refuseStart x 0x70 0 0 m
    else (d.refuseStart x 0 0 0 0).commitEntry t

/-- POWER_STATE on the device part. -/
def Dev.powerState (d : Dev) (q : Nat) : Dev := d.takeHead q 0x21 (fun d x => d.powerStateRun x)

/-- POWER_STATE: when the head commits, the entry is counted, and an entry into FALLOW latches the pads at its commit
(R371, R376; log entry 23). -/
def State.powerState (s : State) (q : Nat) : State :=
  let d := s.dev.powerState q
  if s.dev.pstate = 0 ∧ d.pstate = 1 then
    { s with dev := d, pads := s.pads.commit (d.pwr.entering.getD 1) }
  else { s with dev := d }

end Sys2Proof.Machine
end

