-- ==== Sys2Proof/Machine/HostLink.lean ====
section
/-! DEFINITION. Boot and the power-on sequence, warm resets, the host link and its configuration space, and what comes back
from the host (15_host_link_and_package.md R420 to R437; 14_gander_security_update.md R399 to R402; 12 R351). -/

namespace Sys2Proof.Machine

/-! ## Boot (R399, R402) -/

/-- What a restart of the gander from ROM keeps: fuses, flash, the leaf counter, and the image of host memory; everything
else is as at power-on (Table 15-4, Table 15-5). -/
def Dev.restarted (d : Dev) : Dev :=
  { host := d.host, free := d.free
    hif := { out := d.hif.out, perstN := d.hif.perstN, perstFellAt := d.hif.perstFellAt, railsGood := d.hif.railsGood }
    cs := (List.range 12).map (fun n => (n, { unclear := true }))
    gan := { svn := d.gan.svn, slots := d.gan.slots, debugFuse := d.gan.debugFuse, copyA := d.gan.copyA,
             copyB := d.gan.copyB, logFlash := d.gan.logFlash, image := d.gan.image, lmsUsed := d.gan.lmsUsed,
             replies := d.gan.replies, up := true, logSeq := (d.gan.logFlash.map (·.seq)).foldl max 0 } }

/-- Stages FUSES, IDENTITY and CONFIG, and the fields shown as loaded that they give. -/
def Dev.bootStages (d : Dev) (i : Ident) : Dev :=
  let g := d.gan
  let c := selectCopy g.copyA g.copyB
  let retired := (c.2.getD factoryBlock).retired.length
  let d := d.onGan (fun g => { g with secretBlocked := g.debugFuse, block := c.2 })
  let d := d.putF rMgmtStatus fMgmtStatus_CfgSrc c.1
  let d := d.setReg rMgmtSecState (BitVec.ofNat 64 ((if g.debugFuse then 1 else 0) + atBit 1 (if i.valid then 1 else 0)
    + atBit 2 (if 32768 ≤ g.lmsUsed then 1 else 0)))
  let d := d.setReg rMgmtLms (BitVec.ofNat 64 (min g.lmsUsed 0xFFFF))
  let d := d.setReg rRasRetire (BitVec.ofNat 64 (retired + atBit 16 (512 - retired)))
  let d := d.setReg rDevUid (if i.valid then i.uniqueId else 0)
  let d := d.putF rDevStatus fDevStatus_DebugOpened (if g.debugFuse then 1 else 0)
  if c.1 ≠ 2 then d
  else ((d.putF rDevStatus fDevStatus_CfgDefault 1).raise pgMgmt 0x20).log 0x03 [copyReason g.copyA, copyReason g.copyB]

/-- Recovery boot: the image failed check `k` of R400. -/
def Dev.recoveryStart (d : Dev) (k : Nat) : Dev :=
  ((d.putF rMgmtStatus fMgmtStatus_BootMode 1).putF rDevStatus fDevStatus_Recovery 1).logNow 0x02 [k]

/-- MGMT_SVN of an image header under the fuses of the gander. -/
def Gander.svnWord (g : Gander) (hdr : List Byte) : Nat :=
  byteBits hdr 64 8 % 2 ^ 7 + atBit 8 g.svn + atBit 16 (revokedMask g)

/-- Stages DERIVE and START with an accepted image. -/
def Dev.startImage (d : Dev) : Dev :=
  let d := d.onGan (fun g => { burnFuses g g.image with runHdr := g.image.take 4096 })
  let hdr := d.gan.runHdr
  let d := (d.setReg rMgmtFwVer (BitVec.ofNat 64 (byteBits hdr 32 32))).setReg rMgmtSvn (BitVec.ofNat 64 (d.gan.svnWord hdr))
  let d := d.setReg rThmTripLast (BitVec.ofNat 64 (lastTrip d.gan.logFlash))
  let d := (d.putF rMgmtStatus fMgmtStatus_FwReady 1).raise pgMgmt 2
  d.log 0x01 [0, byteBits hdr 32 32, byteBits hdr 64 8, d.getF rMgmtStatus fMgmtStatus_CfgSrc]

/-- Training of the host link begins, once PERST_N and RAILS_GOOD are high (R435 step 8, R436). -/
def Dev.hostLinkTrains (d : Dev) : Dev :=
  if d.hif.perstN ∧ d.hif.railsGood ∧ d.hif.phase ≠ .off ∧ d.getF rHifLink fHifLink_State = 0 then d.putF rHifLink fHifLink_State 1
  else d

/-- The gander runs from ROM; `last` is HIF_RESET.LAST. Steps 1 to 3 of Table 15-6 end with both power-good outputs high. -/
def Dev.boot (d : Dev) (i : Ident) (last : Nat) : Dev :=
  let d := d.restarted.bootStages i
  let d := d.setReg rHifReset (BitVec.ofNat 64 last)
  let k := imageCheck d.gan d.gan.image
  let d := if k = 0 then d.startImage
    else d.recoveryStart k |>.setReg rMgmtSvn (BitVec.ofNat 64 (d.gan.svnWord []))
  (d.onHif (fun h => { h with phase := .waitRails, pgStk := true, pgCore := true })).hostLinkTrains

/-- POWER_ON, and the restarts of the gander that act as one: no pad is held, and the counts of AON start again. -/
def State.boot (s : State) (last : Nat) : State := { s with pads := {}, dev := s.dev.boot s.ident last }

/-- POWER_ON (R435 steps 1 to 3): the AON supply becomes good, with PERST_N and RAILS_GOOD still low. -/
def State.powerOn (s : State) : State :=
  (s.onDev (fun d => d.onHif (fun h => { h with perstN := false, railsGood := false, perstFellAt := 0 }))).boot 0

/-! ## The rest of the sequence (R435) -/

/-- Stack n trains; its bitmap is cleared afterwards when its supply has just come on (R209). -/
def Dev.trainStack (d : Dev) (n : Nat) : Dev := d.trainFrom n (d.stackSt n).unclear

/-- The stacks that train: CS0 alone in recovery boot (R402). -/
def Dev.bootStacks (d : Dev) : List Nat := if d.recoveryBoot then [0] else List.range 12

/-- RAILS_GOOD (R435 steps 5 to 7): the arithmetic clock runs at its target, the checkers are tested, retirement records are
applied after a power-on, and the stacks train. After a warm reset the sequence goes on from here once PERST_N is high
(R433, R434). -/
def Dev.railsGood (d : Dev) (failed : List UnitId) : Dev :=
  let d := (d.onHif (fun h => { h with railsGood := true })).hostLinkTrains
  if d.hif.phase ≠ .waitRails ∨ !d.hif.pgStk ∨ (d.hif.warm ∧ !d.hif.perstN) then d
  else
    let d := d.putF rPwrClk fPwrClk_Cur d.effClk
    let d := if d.recoveryBoot then d else d.selftest failed
    let d := if d.hif.warm ∨ d.recoveryBoot then d else d.gan.cfg.retired.foldl (fun d r => d.applyRecord r) d
    let d := d.bootStacks.foldl (fun d n => d.trainStack n) d
    d.onHif (fun h => { h with phase := .training })

/-- POWER_ON_COMPLETE (R435 step 9): every stack is READY, PERST_N is high; the device is ACTIVE and serves requests. Stacks
that train without a bitmap clear reach READY within this event. -/
def Dev.powerOnComplete (d : Dev) : Dev :=
  if d.hif.phase ≠ .training ∨ !d.hif.perstN ∨ d.bootStacks.any (fun n => d.getF (rCsState n) fCsState_VbmClear == 1) then d
  else
    let d := d.bootStacks.foldl (fun d n => d.stackReady n) d
    let d := (d.putF rHifReset fHifReset_Ready 1).putF rDevStatus fDevStatus_Ready 1
    (d.onHif (fun h => { h with phase := .complete, warm := false })).gridBeats

/-! ## Warm reset (R431 to R434) -/

/-- Whether a warm reset keeps the register at an address: the blocks of the power-on row of Table 15-5, what reports
retirement, and RAS_RECOV_MAX. -/
def keptWarm (a : Nat) : Bool :=
  a < 0x1000 || (0xD00000 ≤ a && a < 0xD01000) || (0xD80000 ≤ a && a < 0xD81000) || (0xF00000 ≤ a && a < 0xF01000)
    || a == rRasRetire || (List.range 6).any (fun p => a == rRasRecovMax p)
    || (List.range 12).any (fun n => a == rCsRetireState n || (List.range 32).any (fun p => a == rCsRetireBank n p))

/-- The registers after a warm reset: RETIRED links stay RETIRED (R432). -/
def Dev.warmRegs (d : Dev) : Tab W64 :=
  let kept := d.regs.filter (fun e => keptWarm e.1)
  ((List.range 96).filter (fun i => d.linkState i == 5)).foldl (fun t i =>
    tset (tset t (rFabLinkState i) 5) (rFabLinkCtrl i) (d.reg (rFabLinkCtrl i) &&& 4)) kept

/-- The device part of a warm reset with HIF_RESET.LAST `last`: every engine stops, what it left obeys R179, stacks go to
self-refresh and keep contents and bitmaps, every job and request is gone, and what Table 15-5 names is at its Reset
column. -/
def Dev.warmReset (d : Dev) (last : Nat) : Dev :=
  let was := d.pstate
  let warm := satAdd 16 (d.getF rHifReset fHifReset_Warm) 1
  let d := d.stopAll
  let d := { d with
    regs := d.warmRegs, latched := [], heldLow := [], tram := {}, sram := {}, slots := {}, sect := [], parts := [],
    layoutOn := [], fab := { hadParent := d.fab.hadParent, rootHeard := d.time, lowerHeard := d.time },
    cs := d.cs.map (fun (e : Nat × Stack) => (e.1, ({ retired := e.2.retired, unclear := e.2.unclear } : Stack)))
    ras := { d.ras with pendingOos := [] } }
  let d := d.onHif (fun h => { h with
    phase := .waitRails, warm := true, fns := [], vecs := [], vfEnable := false, numVfs := 0, bar4Log2 := 40,
    maxPayload := 128, maxReadReq := 512, cplRange := 0, buckets := [], ideKeys := [] })
  let d := (d.onPwr (fun x => { x with entering := none, wakeWaits := 0 })).setPstate 0
  let d := (d.setReg rHifReset (BitVec.ofNat 64 (last + atBit 16 warm))).putF rDevStatus fDevStatus_Ready 0
  let d := (List.range 12).foldl (fun d n => d.setReg (rCsState n) (BitVec.ofNat 64 (atBit 3 1))) d
  if was = 0 then d else d.raise pgPwr 1

/-- Whether a reset of the running device acts: not before the rails' step of the sequence, and not in HALTED or SAVING
(R434). -/
def Dev.resettable (d : Dev) : Bool := (d.hif.phase == .training || d.hif.phase == .complete) && d.pstate != 6 && d.pstate != 7

/-- Held pads are released as an accepted PAD_RELEASE releases them (R433). -/
def Pads.warm (x : Pads) : Pads := if x.held then x.doRelease else x

/-- A warm reset begins. -/
def State.warmReset (s : State) (last : Nat) : State :=
  if s.dev.resettable then { s with pads := s.pads.warm, dev := s.dev.warmReset last } else s

/-- A warm reset ends: the link trains; with an activated image pending the gander restarts from ROM (R433, R435). -/
def State.warmEnd (s : State) : State :=
  if s.dev.hif.warm ∧ s.dev.getF rMgmtStatus fMgmtStatus_ActPending = 1 then s.boot 4 else s.onDev Dev.hostLinkTrains

/-- PERST_N falls: the link is down (R433, R434). -/
def State.perstFalls (s : State) : State :=
  if !s.dev.hif.perstN then s
  else (s.warmReset 1).onDev (fun d => (d.setReg rHifLink 0).onHif (fun h => { h with perstN := false, perstFellAt := d.time }))

/-- PERST_N rises: it ends a warm reset; in HALTED or SAVING, after at least 10 ms of assertion with RAILS_GOOD high, the
gander restarts and the full sequence runs (R434). Once a save has stopped DEV_TIME the assertion has lasted as long as the
board must hold it (R436; log entry 60). -/
def State.perstRises (s : State) : State :=
  if s.dev.hif.perstN then s
  else
    let t := s.onDev (fun d => d.onHif (fun h => { h with perstN := true }))
    let d := s.dev
    if d.pstate = 6 ∨ d.pstate = 7 then
      (if d.hif.railsGood ∧ (d.gan.up = false ∨ d.hif.perstFellAt + 10000000 ≤ d.time) then t.boot 4 else t)
    else t.warmEnd

/-- Whether the data link is up: L0, RECOVERY or L1. -/
def Dev.linkIsUp (d : Dev) : Bool := 2 ≤ d.getF rHifLink fHifLink_State && d.getF rHifLink fHifLink_State ≤ 4

/-- A hot reset or DL_Down acts as a warm reset that ends at once (R431, R433). -/
def State.linkReset (s : State) (last : Nat) : State :=
  if s.dev.linkIsUp ∧ s.dev.resettable then (s.warmReset last).warmEnd else s

/-! ## The link (R421, R437, R441) -/

/-- LINK_UP: the link reaches L0; WAKE_N is released. -/
def Dev.linkUpEvent (d : Dev) (rate width : Nat) (flit reversed : Bool) : Dev :=
  if !d.hif.perstN ∨ !(d.hif.phase == .training || d.hif.phase == .complete) then d
  else
    let d := d.setReg rHifLink (BitVec.ofNat 64 (rate % 16 + atBit 4 (width % 16) + atBit 8 (if flit then 1 else 0)
      + atBit 9 2 + atBit 12 (if reversed then 1 else 0)))
    let d := d.onHif (fun h => { h with wakeN := true })
    d.raise pgHif (1 + if rate < 7 ∨ width < 8 then 2 else 0)

/-- WAKE_N_RELEASE: WAKE_N is released 100 ms after it was driven low (R437). -/
def Dev.wakeNRelease (d : Dev) : Dev :=
  if d.hif.wakeN ∨ d.time < d.hif.wakeAt + 100000000 then d else d.onHif (fun h => { h with wakeN := true })

/-- IDE_INSECURE: an established Link IDE stream enters the Insecure state, whose keys are invalid by the base specification
(R430; PRESUMED, log entry 29). -/
def Dev.ideInsecure (d : Dev) : Dev :=
  if d.getF rHifIde fHifIde_State = 1 then
    ((d.putF rHifIde fHifIde_State 2).onHif (fun h => { h with ideKeys := [] })).raise pgHif 0x10
  else d

/-! ## Configuration space (R323, R326, R335, R420, R423, R428) -/

/-- Messages of function f that were pending and need wait no longer are sent (R326). -/
def Dev.flushPending (d : Dev) (f : Nat) : Dev :=
  (List.range 64).foldl (fun d v =>
    let e := d.vector f v
    if e.pend ∧ (d.fn f).msixEnable ∧ !(d.fn f).msixMask ∧ !e.masked ∧ d.masters f then
      { d with hif := { d.hif with vecs := tset d.hif.vecs (64 * f + v) { e with pend := false } } }.sendMsg (f, v)
    else d) d

def Dev.setFn (d : Dev) (f : Nat) (g : FnCfg → FnCfg) : Dev := d.onHif (fun h => { h with fns := tmod h.fns {} f g })

/-- The VFs present change: each that goes is handled as an FLR of it (R335). -/
def Dev.setVfs (d : Dev) (en : Bool) (n : Nat) : Dev :=
  let was := if d.hif.vfEnable then d.hif.numVfs else 0
  let now := if en then n else 0
  let d := ((List.range was).filter (fun v => now ≤ v)).foldl (fun d v => d.vfFlr (v + 1)) d
  d.onHif (fun h => { h with vfEnable := en, numVfs := n })

/-- The pending messages of every function that a change of function f's configuration concerns. -/
def Dev.flushFrom (d : Dev) (f : Nat) : Dev :=
  if f = 0 then (List.range 25).foldl (fun d g => d.flushPending g) d else d.flushPending f

/-- What a PCI configuration read of the PF answers at offsets 0 and 8: Vendor ID LYSDOM_VID, held in the identity record, and
Device ID DEV_ID; Revision ID 0x01 and class code 0x12_0000 (R1, R420; where they stand is PCI's, PRESUMED, log entry 29). No row
of the table is a configuration read. -/
def State.configRead (s : State) (off : Nat) : Nat :=
  if off = 0 then s.ident.vid.toNat + atBit 16 (s.dev.reg rDevId).toNat
  else if off = 8 then 1 + atBit 8 0x12_0000
  else 0

/-- PCI_CONFIG_WRITE of function f: registers of the PF alone are no registers of a VF. -/
def Dev.configWrite (d : Dev) (f : Nat) (reg : CfgReg) (v : Nat) : Dev :=
  if !d.ready ∨ !(f == 0 || (d.hif.vfEnable && f ≤ d.hif.numVfs)) then d
  else
    match reg with
    | .busMaster => (d.setFn f (fun c => { c with busMaster := v % 2 == 1 })).flushFrom f
    | .msixEnable => (d.setFn f (fun c => { c with msixEnable := v % 2 == 1 })).flushPending f
    | .msixMask => (d.setFn f (fun c => { c with msixMask := v % 2 == 1 })).flushPending f
    | .powerState => if v = 0 ∨ v = 3 then d.setFn f (fun c => { c with d3 := v == 3 }) else d
    | .bar4Size => if f = 0 ∧ 36 ≤ v ∧ v ≤ 40 then d.onHif (fun h => { h with bar4Log2 := v }) else d
    | .vfEnable => if f = 0 ∧ !d.recoveryBoot then d.setVfs (v % 2 == 1) d.hif.numVfs else d
    | .numVfs => if f = 0 ∧ v ≤ 24 ∧ !d.recoveryBoot then d.setVfs d.hif.vfEnable v else d
    | .maxPayload => if f = 0 ∧ (v = 128 ∨ v = 256 ∨ v = 512) then d.onHif (fun h => { h with maxPayload := v }) else d
    | .maxReadReq =>
      if f = 0 ∧ [128, 256, 512, 1024, 2048, 4096].contains v then d.onHif (fun h => { h with maxReadReq := v }) else d
    | .cplTimeoutRange => if f = 0 ∧ v ≤ 4 then d.onHif (fun h => { h with cplRange := v }) else d

/-! ## Requests outside the register and queue rules (R426) -/

/-- ATOMICOP_REQUEST and IO_REQUEST: Unsupported Request. -/
def Dev.unsupportedRequest (d : Dev) (f : Nat) : Dev := if d.ready then d.unsupported f true else d

/-- POISONED_TLP: a poisoned write is discarded and reported. -/
def Dev.poisonedTlp (d : Dev) (f : Nat) : Dev :=
  if !d.ready then d else if !d.fnServes f then d.unsupported f false else d.sendOut (.poisonReceived f)

/-! ## Device reads of host memory (R427) -/

/-- Read `i` is no longer outstanding. -/
def Dev.dropRead (d : Dev) (i : Nat) : Dev := d.onHif (fun h => { h with reads := h.reads.eraseIdx i })

/-- A read failed: counted, and its requester meets the failure. -/
def Dev.readFailed (d : Dev) (r : OutRead) : Dev :=
  let d := d.hostFail r.addr
  match r.purpose with
  | .cmd c => d.failCmd c 0x33 r.handle r.vaddr
  | .op t _ =>
    match (d.tile t).cmd with
    | some c => d.failCmd c 0x33 r.handle r.vaddr
    | none => d
  | .tokens e => d.abortEntry e 3
  | .head k => d.headFailed k r.handle r.vaddr

/-- A read came back: a COPY whose last read this was moves its elements; a head or a tile has one granule more; other requesters
go on with their own commands. -/
def Dev.readCame (d : Dev) (r : OutRead) : Dev :=
  match r.purpose with
  | .cmd c =>
    match d.cmd? c with
    | some x => if x.opcode = 0x02 ∧ x.phase = .running ∧ !d.readsWait c then d.copyMove x else d
    | none => d
  | .head k =>
    let f := d.fetchedAt k
    d.setFetched k { f with got := r.addr :: f.got }
  | _ => d

/-- HOST_READ_COMPLETION: the completion of the `i`-th outstanding read; good data are what host memory holds there. -/
def Dev.hostReadCompletion (d : Dev) (i : Nat) (status : ReadStatus) (data : List Byte) : Dev :=
  match d.hif.reads[i]? with
  | none => d
  | some r =>
    if status ≠ .ok then (d.dropRead i).readFailed r
    else if data.length ≠ r.len then d
    else
      let d := d.dropRead i
      ({ d with host := d.host.putBytes r.addr data }).readCame r

/-- The completion timeout in ns: 40 ms by default, for ranges A to D the upper end of the range as PCI Express defines it
(PRESUMED, log entry 29). -/
def cplTimeout (range : Nat) : Nat := match range with
  | 0 => 40000000 | 1 => 10000000 | 2 => 250000000 | 3 => 4000000000 | _ => 64000000000

/-- COMPLETION_TIMEOUT: no completion of the `i`-th outstanding read has arrived in time. -/
def Dev.completionTimeout (d : Dev) (i : Nat) : Dev :=
  match d.hif.reads[i]? with
  | none => d
  | some r => if d.time < r.sentAt + cplTimeout d.hif.cplRange then d else (d.dropRead i).readFailed r

end Sys2Proof.Machine
end

