-- ==== Sys2Proof/Machine/Mailbox.lean ====
section
/-! DEFINITION. The gander's mailbox (14_gander_security_update.md R406 to R409, R418) and what its sensors show (R410). -/

namespace Sys2Proof.Machine

/-- Whether the gander's firmware runs (R399, and the chapter's opening: not in HALTED or SAVING). -/
def Dev.firmware (d : Dev) : Bool :=
  d.gan.up && d.getF rMgmtStatus fMgmtStatus_FwReady == 1 && d.pstate != 6 && d.pstate != 7

/-- Whether the firmware takes another request now: it serves one at a time, and a configuration write that is waited for
comes first (R407). -/
def Dev.ganFree (d : Dev) : Bool := d.firmware && d.gan.cfgPend.isEmpty

/-! ## Starting a command (R406) -/

/-- The commands of Table 14-8. -/
def mbxCmds : List Nat := [0x01, 0x02, 0x03, 0x04, 0x10, 0x11, 0x12, 0x20, 0x30, 0x31]

def Dev.mbxBusy (d : Dev) : Bool := d.getF rMgmtMbxCtrl fMgmtMbxCtrl_Busy == 1

/-- A write of 1 to MGMT_MBX_CTRL.GO: BUSY sets, and a command that is not defined ends at once; while BUSY is set the
write is discarded and counted. -/
def Dev.mbxGo (d : Dev) : Dev :=
  if d.mbxBusy then d.blkErr pgMgmt
  else
    let d := d.putF rMgmtMbxCtrl fMgmtMbxCtrl_Busy 1
    if mbxCmds.contains (d.getF rMgmtMbxCmd fMgmtMbxCmd_Cmd) then d else d.finishMbx 1 []

/-- LEN of the request. -/
def Dev.reqLen (d : Dev) : Nat := d.getF rMgmtMbxCmd fMgmtMbxCmd_Len

/-- The request's bytes. -/
def Dev.reqBytes (d : Dev) : List Byte :=
  ((List.range 512).flatMap (fun i => leBytes 4 (d.reg (pgMgmt + 0x800 + 4 * i)).toNat)).take d.reqLen

/-- Mailbox command `cmd` runs, when it is the one in progress and its turn has come; a length outside its range ends it
with BAD_LEN. -/
def Dev.mailbox (d : Dev) (cmd : Nat) (hasRequest : Bool) (k : Dev → Dev) : Dev :=
  if !d.ganFree ∨ !d.mbxBusy ∨ d.getF rMgmtMbxCmd fMgmtMbxCmd_Cmd ≠ cmd then d
  else if (if hasRequest then 2048 < d.reqLen || !Config.lenInRange cmd d.reqLen else d.reqLen != 0) then d.finishMbx 2 []
  else k d

/-- The request's number `i`, where Table 14-8 names it and gives it no place (log entry 12). -/
def Dev.reqNum (d : Dev) (cmd i : Nat) : Nat := (Config.reqFields cmd d.reqBytes).getD i 0

def Dev.reqBlob (d : Dev) (cmd i : Nat) : List Byte := (Config.reqBlobs cmd d.reqBytes).getD i []

/-- A request whose operand lies outside what Table 14-8 gives: the status is not stated (log entry 32). -/
def Dev.openStatus (d : Dev) : Dev :=
  { d with free := d.free + 1 }.finishMbx (Config.freeWord d.free % 256) []

/-- A byte string cut or filled with zero bytes to a length. -/
def fixLen (n : Nat) (bs : List Byte) : List Byte := bs.take n ++ zeros (n - bs.length)

/-! ## Identity, sensors, log -/

/-- IDENTITY_READ. -/
def Dev.identityRead (d : Dev) (i : Ident) : Dev :=
  d.mailbox 0x01 false (fun d => d.finishMbx 0 (Config.respBytes 0x01
    [i.vid.toNat, 0x4D12, 0x0A01, i.serial.toNat, i.uniqueId.toNat, if i.valid then 1 else 0]))

/-- VIN_AON as the comparator's input shows it, which no event of the model gives (log entry 16). -/
def vinAon (d : Dev) : Nat := Config.freeWord d.free

/-- A sensor of Table 14-11: its value, and whether its operational state is failed; none for a number that is not a
sensor's. -/
def Dev.sensor (d : Dev) (n : Nat) : Option (Nat × Bool) :=
  if n = 1 then some (d.getF rThmHot fThmHot_Temp, false)
  else if n = 2 then some (d.getF rThmDiode fThmDiode_Temp, d.getF rThmDiode fThmDiode_Fail == 1)
  else if 3 ≤ n ∧ n ≤ 14 then
    some (d.getF (rCsTemp (n - 3)) fCsTemp_Temp, d.getF (rCsTemp (n - 3)) fCsTemp_SensorFail == 1)
  else if n = 15 then some (d.getF rPwrPower fPwrPower_Avg, false)
  else if n = 16 then some (vinAon d, false)
  else if n = 17 then some (d.pstate, false)
  else none

/-- What a sensor reading is answered with: number, value, unit of Table 14-11 and state. -/
def sensorNumbers (n : Nat) (x : Nat × Bool) : List Nat :=
  [n, x.1, if n ≤ 14 then 0 else n - 14, if x.2 then 1 else 0]

/-- SENSOR_READ. -/
def Dev.sensorRead (d : Dev) : Dev :=
  d.mailbox 0x02 true (fun d =>
    let n := d.reqNum 0x02 0
    match d.sensor n with
    | none => d.openStatus
    | some x => { d with free := d.free + 1 }.finishMbx 0 (Config.respBytes 0x02 (sensorNumbers n x)))

/-- A record of the event log as its 64 bytes (R405). -/
def LogRec.bytes (r : LogRec) : List Byte :=
  let x := leBytes 60 (1 + atBit 8 r.typ + atBit 32 r.seq + atBit 64 r.time
    + atBit 128 (Config.logPayload r.typ r.payload).toNat)
  x ++ leBytes 4 (crc32c x)

/-- The records the log holds, those in the buffer included. -/
def Gander.records (g : Gander) : List LogRec := g.logFlash ++ g.logBuf

/-- LOG_READ: the records with the SEQ values asked for that the log holds, in SEQ order. -/
def Dev.logRead (d : Dev) : Dev :=
  d.mailbox 0x03 true (fun d =>
    let first := d.reqNum 0x03 0
    let n := d.reqNum 0x03 1
    if n = 0 ∨ 16 < n then d.openStatus
    else
      let rs := (List.range n).filterMap (fun j => d.gan.records.find? (fun r => r.seq == (first + j) % 2 ^ 32))
      if rs.isEmpty then d.finishMbx 6 [] else d.finishMbx 0 (rs.flatMap LogRec.bytes))

/-- LOG_INFO: oldest and newest SEQ (of an empty log they are not stated), and the records lost. -/
def Dev.logInfo (d : Dev) : Dev :=
  d.mailbox 0x04 false (fun d =>
    let ss := d.gan.records.map (·.seq)
    { d with free := d.free + 2 }.finishMbx 0 (Config.respBytes 0x04
      [ss.headD (Config.freeWord d.free), ss.getLastD (Config.freeWord (d.free + 1)), d.getF rMgmtLogLost fMgmtLogLost_Lost]))

/-! ## Keys and configuration (R404, R408) -/

/-- The entry that KEY_ENROL writes: the one that holds the KEYID, else one that is not valid, which one the spec leaves
open (log entry 14); none when all 16 are valid. -/
def Dev.keySlot (d : Dev) (keyid : Nat) : Option Nat :=
  let ks := d.gan.cfg.keys
  match ks.find? (fun e => e.2.keyid == keyid) with
  | some e => some e.1
  | none =>
    let free := (List.range 16).filter (fun i => match tfind ks i with | some e => !e.valid | none => true)
    free[Config.freeWord d.free % free.length]?

/-- KEY_ENROL: completes after the configuration write, or with FULL. -/
def Dev.keyEnrol (d : Dev) : Dev :=
  d.mailbox 0x10 true (fun d =>
    let keyid := d.reqNum 0x10 0 % 65536
    if keyid = 0 then d.openStatus
    else
      match d.keySlot keyid with
      | none => d.finishMbx 5 []
      | some i => { d with free := d.free + 1 }.cfgAsk
          (.enrol i { keyid := keyid, valid := true, ecdsa := d.reqBlob 0x10 0, lms := d.reqBlob 0x10 1 }) .mailbox)

/-- KEY_REVOKE: completes after the configuration write, or with NOT_FOUND. -/
def Dev.keyRevoke (d : Dev) : Dev :=
  d.mailbox 0x11 true (fun d =>
    match d.gan.cfg.keys.find? (fun e => e.2.keyid == d.reqNum 0x11 0 && e.2.valid) with
    | none => d.finishMbx 6 []
    | some e => d.cfgAsk (.revoke e.1) .mailbox)

/-- A key entry with the high-water entry of its KEYID, in 200 bytes. -/
def CfgBlock.keyBytes (b : CfgBlock) (i : Nat) : List Byte :=
  match tfind b.keys i with
  | none => zeros 200
  | some k => fixLen 200 (Config.respBytes 0x12
      [k.keyid, if k.valid then 1 else 0, leNat k.ecdsa, leNat k.lms, ((b.marks.find? (fun m => m.1 == k.keyid)).map (·.2)).getD 0])

/-- KEY_LIST. -/
def Dev.keyList (d : Dev) : Dev :=
  d.mailbox 0x12 true (fun d =>
    let first := d.reqNum 0x12 0
    let n := d.reqNum 0x12 1
    if 15 < first ∨ n = 0 ∨ 5 < n then d.openStatus
    else d.finishMbx 0 (((List.range n).filter (fun j => first + j ≤ 15)).flatMap (fun j => d.gan.cfg.keyBytes (first + j))))

/-- The numbers of a configuration block. -/
def CfgBlock.numbers (b : CfgBlock) : List Nat :=
  [b.seq] ++ b.keys.flatMap (fun e => [e.1, e.2.keyid, if e.2.valid then 1 else 0, leNat e.2.ecdsa, leNat e.2.lms])
    ++ b.marks.flatMap (fun m => [m.1, m.2]) ++ b.retired.flatMap RetRec.fields ++ [b.i3c, leNat b.mgmt]

/-- CFG_READ: bytes of the copy in force. -/
def Dev.cfgRead (d : Dev) : Dev :=
  d.mailbox 0x20 true (fun d =>
    let n := d.reqNum 0x20 2
    if 1024 < n then d.openStatus
    else d.finishMbx 0 (fixLen n (Config.respBytes 0x20 ([d.reqNum 0x20 0, d.reqNum 0x20 1] ++ d.gan.cfg.numbers))))

/-! ## Debug access (R418) -/

/-- DEBUG_CHALLENGE: a fresh nonce replaces the one before. -/
def Dev.debugChallenge (d : Dev) (i : Ident) (nonce : BitVec 256) : Dev :=
  d.mailbox 0x30 false (fun d =>
    (d.onGan (fun g => { g with nonce := some nonce })).finishMbx 0 (Config.respBytes 0x30 [i.uniqueId.toNat, nonce.toNat]))

/-- Whether the device's state forbids opening debug access. -/
def Dev.debugBarred (d : Dev) : Bool :=
  (List.range 6).any (fun p => d.partExists p) || d.fab.staged.isSome || d.hasEpoch || d.gan.upd.isSome

/-- The token of a DEBUG_OPEN request: UNIQUE_ID, nonce, serial; what is signed, and the two public keys with their
signatures, which key slot 0 of the fuse array vouches for by their hashes. -/
def Dev.tokenGood (d : Dev) (i : Ident) : Bool :=
  let s := tget d.gan.slots {} 0
  let msg := d.reqBlob 0x31 0
  let pe := d.reqBlob 0x31 1
  let pl := d.reqBlob 0x31 3
  d.reqNum 0x31 0 == i.uniqueId.toNat && d.gan.nonce == some (BitVec.ofNat 256 (d.reqNum 0x31 1))
    && Config.sha384 pe == s.ecdsaHash && Config.sha384 pl == s.lmsHash
    && Config.ecdsaVerifies pe msg (d.reqBlob 0x31 2) && Config.lmsVerifies pl msg (d.reqBlob 0x31 4)

/-- Step 1: sessions end, keys and seeds are erased, the device secret is blocked; Link IDE has no keys left. -/
def Dev.eraseSecrets (d : Dev) : Dev :=
  let d := d.onGan (fun g => { g with sessions := [], att := none, secretBlocked := true })
  let d := d.onHif (fun h => { h with ideKeys := [] })
  (d.setReg rHifIde 0).putF rMgmtSecState fMgmtSecState_AttestReady 0

/-- DEBUG_OPEN. -/
def Dev.debugOpen (d : Dev) (i : Ident) : Dev :=
  d.mailbox 0x31 true (fun d =>
    if d.debugBarred then d.finishMbx 3 []
    else
      let good := d.tokenGood i
      let d := d.onGan (fun g => { g with nonce := none })
      if !good then d.finishMbx 4 []
      else
        let d := d.eraseSecrets.logNow 0x32 [i.uniqueId.toNat, d.reqNum 0x31 2]
        let d := d.onGan (fun g => { g with debugFuse := true, debugOn := true })
        let d := (d.putF rMgmtSecState fMgmtSecState_DebugOpened 1).putF rDevStatus fDevStatus_DebugOpened 1
        (d.onHif (fun h => { h with dbgOpen := true })).finishMbx 0 [])

end Sys2Proof.Machine
end

