-- ==== Sys2Proof/Machine/Attest.lean ====
section
/-! DEFINITION. The management bus: MCTP control, sensors over PLDM, the SPDM responder, attestation keys and Link IDE keys
(14_gander_security_update.md R410 to R414; 15_host_link_and_package.md R430). -/

namespace Sys2Proof.Machine

/-! ## MCTP (R410) -/

/-- Whether a binding carries messages: the host link only once the device is ready and the link carries requests. -/
def Dev.bindingUp (d : Dev) (b : Binding) : Bool :=
  match b with
  | .i3c => true
  | .pcie => d.ready && d.linkCarries && (d.fn 0).busMaster

/-- The gander sends a reply. -/
def Dev.reply (d : Dev) (b : Binding) (r : Reply) : Dev := d.onGan (fun g => { g with replies := g.replies ++ [(b, r)] })

/-- A reply that succeeds, of a kind and with the values it carries, whose layout the cited protocols give (log entry 12). -/
def Dev.answer (d : Dev) (b : Binding) (kind : Nat) (xs : List Nat) : Dev := d.reply b (.ok (Config.respBytes kind xs))

/-- An MCTP request on a binding meets the firmware when its turn has come: a mailbox command in progress came before it
(R407). -/
def Dev.mctp (d : Dev) (b : Binding) (k : Dev → Dev) : Dev := if d.ganFree && !d.mbxBusy && d.bindingUp b then k d else d

/-- SET_ENDPOINT_ID. -/
def Dev.setEndpointId (d : Dev) (b : Binding) (eid : Byte) : Dev :=
  d.mctp b (fun d =>
    let d := match b with
      | .pcie => d.putF rMgmtMctp fMgmtMctp_EidPcie eid.toNat
      | .i3c => d.putF rMgmtMctp fMgmtMctp_EidI3c eid.toNat
    d.answer b 0x100 [eid.toNat])

/-- VDM_WAKE: wake source 5, when PWR_WAKE_EN.MGMT allows it (R375). -/
def Dev.vdmWake (d : Dev) (b : Binding) : Dev :=
  d.mctp b (fun d => if d.getF rPwrWakeEn fPwrWakeEn_Mgmt = 1 then d.wakeSource 5 else d)

/-- I3C_DYNAMIC_ADDRESS. -/
def Dev.i3cDynamicAddress (d : Dev) (addr : BitVec 7) : Dev :=
  if d.firmware then d.putF rMgmtMctp fMgmtMctp_I3cDyn addr.toNat else d

/-- PLDM_PLATFORM_MONITORING: a sensor of Table 14-11. -/
def Dev.pldmPlatformMonitoring (d : Dev) (b : Binding) (n : Nat) : Dev :=
  d.mctp b (fun d =>
    match d.sensor n with
    | none => d.reply b .errOther
    | some x => { d with free := d.free + 1 }.answer b 0x101 (sensorNumbers n x))

/-- PLDM_BASE_DISCOVERY. -/
def Dev.pldmBaseDiscovery (d : Dev) (b : Binding) : Dev := d.mctp b (fun d => d.answer b 0x102 [])

/-! ## Certificates (R411, R412) -/

/-- Whether requests that need a signature or a certificate are served. -/
def Dev.attests (d : Dev) (i : Ident) : Bool := i.valid && !d.gan.debugFuse

/-- BODY_DIGEST of the running image with FW_VER and SVN. -/
def Gander.runDigest (g : Gander) : List Byte := byteSlice g.runHdr 16 48

/-- The Alias certificate: signed by the DeviceID key, of the key derived from the DeviceID secret, BODY_DIGEST and the
fused SVN. -/
def Gander.aliasCert (g : Gander) (i : Ident) : List Byte :=
  Config.signs 1 i.secret (g.runDigest ++ leBytes 1 g.svn)

/-- The certificate chain of slot 0. -/
def Gander.chain (g : Gander) (i : Ident) : List Byte := i.certs ++ g.aliasCert i

/-- An ECDSA signature with the Alias key. -/
def Gander.aliasSign (g : Gander) (i : Ident) (msg : List Byte) : List Byte :=
  Config.signs 2 i.secret (g.runDigest ++ leBytes 1 g.svn ++ msg)

/-- A request that needs a certificate or a signature: Unspecified while the device does not attest. -/
def Dev.signedReq (d : Dev) (i : Ident) (b : Binding) (k : Dev → Dev) : Dev :=
  d.mctp b (fun d => if d.attests i then k d else d.reply b .errUnspecified)

/-! ## SPDM requests (R412) -/

def Dev.getVersion (d : Dev) (b : Binding) : Dev := d.mctp b (fun d => d.answer b 0x110 [])

def Dev.getCapabilities (d : Dev) (b : Binding) : Dev := d.mctp b (fun d => d.answer b 0x111 [])

/-- NEGOTIATE_ALGORITHMS: the algorithms of R412 and no other. -/
def Dev.negotiateAlgorithms (d : Dev) (b : Binding) (ours : Bool) : Dev :=
  d.mctp b (fun d =>
    let rest := d.gan.negotiated.filter (· != b)
    let d := d.onGan (fun g => { g with negotiated := if ours then b :: rest else rest })
    d.answer b 0x112 [if ours then 1 else 0])

/-- GET_DIGESTS: the digest of slot 0's chain. -/
def Dev.getDigests (d : Dev) (i : Ident) (b : Binding) : Dev :=
  d.signedReq i b (fun d => d.answer b 0x113 [(Config.sha384 (d.gan.chain i)).toNat])

/-- GET_CERTIFICATE, for slot 0 only. -/
def Dev.getCertificate (d : Dev) (i : Ident) (b : Binding) (slot : Nat) : Dev :=
  d.signedReq i b (fun d => if slot ≠ 0 then d.reply b .errOther else d.reply b (.ok (d.gan.chain i)))

/-! ## Measurements (R412, R414, Table 14-12) -/

/-- The digest of the library in force in partition p; 0 without one. -/
def Dev.libDigest (d : Dev) (p : Nat) : Nat :=
  if !d.partExists p then 0
  else match (tget d.sect {} (d.liveSect p)).lib with
    | some l => l.digest.toNat
    | none => 0

/-- The numbers of measurement block `n`, 1 to 10; none for an index that Table 14-12 does not list. -/
def Dev.measurement (d : Dev) (n : Nat) : Option (List Nat) :=
  let g := d.gan
  if n = 1 then some [Config.romDigest.toNat]
  else if n = 2 then some [leNat g.runDigest, byteBits g.runHdr 32 32, byteBits g.runHdr 64 8]
  else if n = 3 then some [match g.block with
    | some b => (Config.sha384 (Config.respBytes 0x20 b.numbers)).toNat
    | none => 0]
  else if 4 ≤ n ∧ n ≤ 9 then some [d.libDigest (n - 4)]
  else if n = 10 then some [d.getF rMgmtStatus fMgmtStatus_BootMode, g.svn, if g.debugFuse then 1 else 0, g.lmsUsed]
  else none

/-- The measurement blocks asked for other than 0xF0, in index order. -/
def Dev.blocks (d : Dev) (ns : List Nat) : List (Nat × List Nat) :=
  (List.range 11).filterMap (fun n => if ns.contains n then (d.measurement n).map (fun x => (n, x)) else none)

def blockNumbers (bs : List (Nat × List Nat)) : List Nat := bs.flatMap (fun b => b.1 :: b.2)

/-- Whether the identity leaves are spent (R413). -/
def Gander.exhausted (g : Gander) : Bool := 32768 ≤ g.lmsUsed

/-- The public key of an attestation key, by its seed. -/
def attPublic (k : AttKey) : List Byte := Config.signs 3 k.seed []

/-- The identity leaf's signature over an attestation public key and the SHA-384 of the Alias certificate (R413). -/
def Gander.leafSignature (g : Gander) (i : Ident) (k : AttKey) : List Byte :=
  match k.idLeaf with
  | none => []
  | some n => Config.signs 4 i.secret (leBytes 2 n ++ attPublic k ++ leBytes 48 (Config.sha384 (g.aliasCert i)).toNat)

/-- Block 0xF0 with attestation key `k`: STATUS, its public key, the identity leaf's signature, LMS_ID_PUB, VENDOR_LMS_SIG,
and the countersignature over nonce and blocks with its next leaf. -/
def Gander.block240 (g : Gander) (i : Ident) (k : AttKey) (nonce : BitVec 256) (bs : List (Nat × List Nat)) : List Byte :=
  let signed_ := leBytes 32 nonce.toNat ++ Config.respBytes 0x114 (blockNumbers bs)
  [0] ++ attPublic k ++ g.leafSignature i k ++ i.lmsIdPub ++ i.vendorSig
    ++ Config.signs 5 k.seed (leBytes 2 k.used ++ leBytes 48 (Config.sha384 signed_).toNat)

/-- The answer with measurement blocks, block 0xF0 when it is one of them, and a signature when it is asked for. -/
def Dev.sendMeasurements (d : Dev) (i : Ident) (b : Binding) (bs : List (Nat × List Nat)) (f0 : List Byte) (signed_ : Bool)
    (nonce : BitVec 256) : Dev :=
  let msg := Config.respBytes 0x114 (blockNumbers bs ++ [leNat f0, f0.length])
  d.reply b (.ok (if signed_ then msg ++ d.gan.aliasSign i (leBytes 32 nonce.toNat ++ msg) else msg))

/-- GET_MEASUREMENTS. While the attestation key is being generated, a request for block 0xF0 waits (R413). -/
def Dev.getMeasurements (d : Dev) (i : Ident) (b : Binding) (ns : List Nat) (signed_ : Bool) (nonce : BitVec 256) : Dev :=
  d.mctp b (fun d =>
    let f0 := ns.contains 0xF0
    if (signed_ || f0) && !d.attests i then d.reply b .errUnspecified
    else
      let bs := d.blocks ns
      if !f0 then d.sendMeasurements i b bs [] signed_ nonce
      else if d.gan.exhausted then d.sendMeasurements i b bs [1] signed_ nonce
      else
        match d.gan.att with
        | none => d
        | some k =>
          if 32768 ≤ k.used then d
          else
            let blk := d.gan.block240 i k nonce bs
            (d.onGan (fun g => { g with att := some { k with used := k.used + 1 } })).sendMeasurements i b bs blk signed_ nonce)

/-- CHALLENGE: signed with the Alias key. -/
def Dev.challenge (d : Dev) (i : Ident) (b : Binding) (slot : Nat) (nonce : BitVec 256) : Dev :=
  d.signedReq i b (fun d =>
    if slot ≠ 0 then d.reply b .errOther
    else
      let msg := Config.respBytes 0x115 [(Config.sha384 (d.gan.chain i)).toNat, nonce.toNat]
      d.reply b (.ok (msg ++ d.gan.aliasSign i msg)))

/-- ATTESTATION_KEY_GEN: at boot, and when the key's leaves are spent; the next identity leaf is marked used before it
signs (R413). -/
def Dev.attestationKeyGen (d : Dev) (seed : BitVec 256) : Dev :=
  let spent := match d.gan.att with
    | none => true
    | some k => decide (32768 ≤ k.used)
  if !d.ganFree ∨ d.gan.secretBlocked ∨ !spent then d
  else
    let leaf := if d.gan.exhausted then none else some d.gan.lmsUsed
    let used := if d.gan.exhausted then d.gan.lmsUsed else d.gan.lmsUsed + 1
    let d := d.onGan (fun g => { g with att := some { seed := seed, used := 0, idLeaf := leaf }, lmsUsed := used })
    let d := d.setReg rMgmtLms (BitVec.ofNat 64 (min used 0xFFFF))
    let d := (d.putF rMgmtSecState fMgmtSecState_AttestReady 1).putF rMgmtSecState fMgmtSecState_LmsExhausted
      (if 32768 ≤ used then 1 else 0)
    if leaf.isSome ∧ 32768 - used < 1024 then d.raise pgMgmt 0x40 else d

/-! ## Sessions and Link IDE keys (R412, R430) -/

/-- A session number that is free; sessions are numbered from 0. -/
def Gander.freeSession (g : Gander) : Nat :=
  ((List.range 4).find? (fun n => g.sessions.all (fun s => s.number != n))).getD 4

/-- KEY_EXCHANGE: up to four sessions. -/
def Dev.keyExchange (d : Dev) (i : Ident) (b : Binding) (slot : Nat) : Dev :=
  d.signedReq i b (fun d =>
    if slot ≠ 0 then d.reply b .errOther
    else if 4 ≤ d.gan.sessions.length then d.reply b .errSessionLimit
    else
      let n := d.gan.freeSession
      let d := d.onGan (fun g => { g with sessions := g.sessions ++ [{ binding := b, number := n, finished := false }] })
      let msg := Config.respBytes 0x116 [n, (Config.sha384 (d.gan.chain i)).toNat]
      d.reply b (.ok (msg ++ d.gan.aliasSign i msg)))

/-- The session a request names on its binding. -/
def Dev.session (d : Dev) (b : Binding) (n : Nat) : Option Session :=
  d.gan.sessions.find? (fun s => s.binding == b && s.number == n)

/-- A session's record changed. -/
def Dev.modSession (d : Dev) (n : Nat) (f : Session → Session) : Dev :=
  d.onGan (fun g => { g with sessions := g.sessions.map (fun s => if s.number = n then f s else s) })

/-- A request within a finished session. -/
def Dev.inSession (d : Dev) (b : Binding) (n : Nat) (k : Dev → Dev) : Dev :=
  d.mctp b (fun d =>
    match d.session b n with
    | some s => if s.finished then k d else d.reply b .errOther
    | none => d.reply b .errOther)

/-- FINISH: the session carries secured messages. -/
def Dev.finishSession (d : Dev) (b : Binding) (n : Nat) : Dev :=
  d.mctp b (fun d =>
    match d.session b n with
    | some s => if s.finished then d.reply b .errOther
                else (d.modSession n (fun s => { s with finished := true })).answer b 0x117 [n]
    | none => d.reply b .errOther)

def Dev.heartbeat (d : Dev) (b : Binding) (n : Nat) : Dev := d.inSession b n (fun d => d.answer b 0x118 [n])

def Dev.keyUpdate (d : Dev) (b : Binding) (n : Nat) : Dev :=
  d.inSession b n (fun d => (d.modSession n (fun s => { s with updates := s.updates + 1 })).answer b 0x119 [n])

def Dev.endSession (d : Dev) (b : Binding) (n : Nat) : Dev :=
  d.inSession b n (fun d =>
    (d.onGan (fun g => { g with sessions := g.sessions.filter (fun s => s.number != n) })).answer b 0x11A [n])

/-- IDE_KM: a key set is installed, or the stream switches to an installed one and is Secure. -/
def Dev.ideKm (d : Dev) (b : Binding) (n : Nat) (keySet switch : Bool) : Dev :=
  d.inSession b n (fun d =>
    if d.gan.debugFuse then d.reply b .errOther
    else if !switch then
      (d.onHif (fun h => { h with ideKeys := keySet :: h.ideKeys.filter (· != keySet) })).answer b 0x11B [n]
    else if !d.hif.ideKeys.contains keySet then d.reply b .errOther
    else (d.setReg rHifIde (BitVec.ofNat 64 (1 + if keySet then 4 else 0))).answer b 0x11C [n])

end Sys2Proof.Machine
end

