-- ==== Sys2Proof/Machine/Update.lean ====
section
/-! DEFINITION. Firmware update over PLDM, and recovery boot's own path to flash (14_gander_security_update.md R402, R415 to
R417). -/

namespace Sys2Proof.Machine

/-! ## The staging region (R417) -/

/-- The device physical address of the staging region. -/
def Dev.stageBase (d : Dev) : Nat := d.getF rMgmtStage fMgmtStage_Base * 2 ^ 26

/-- Whether the stack that holds an address cannot be reached now: it retrains or is in self-refresh. -/
def Dev.stageWaits (d : Dev) : Bool :=
  d.stageBase < stackTop && d.getF (rCsState (stackOf d.stageBase)) fCsState_Ready == 0
    && !d.unitGone .stack (stackOf d.stageBase)

/-- The reader that an error-log entry shows for the gander, which the spec gives no code (log entry 14). -/
def ganSrc (d : Dev) : Nat := Config.freeWord d.free % 8

/-- `n` bytes of stack memory read by the gander, and whether a byte was poison; an address above the stacks holds none. -/
def Dev.ganRead (d : Dev) (a n : Nat) : Dev × List Byte × Bool :=
  if stackTop < a + n then (d, zeros n, true)
  else
    let (d, r) := { d with free := d.free + 1 }.readStk (ganSrc d) a n
    (d, r.1, r.2 != 0)

def Dev.ganWrite (d : Dev) (a : Nat) (bs : List Byte) : Dev :=
  if stackTop < a + bs.length then d else d.writeStk a bs false

/-! ## The update (R415, R416) -/

def Dev.updState (d : Dev) : Nat := d.getF rMgmtUpdStatus fMgmtUpdStatus_State

/-- The update enters a state, with none of that state's work done. -/
def Dev.setUpdState (d : Dev) (s : Nat) : Dev :=
  (d.putF rMgmtUpdStatus fMgmtUpdStatus_State s).putF rMgmtUpdStatus fMgmtUpdStatus_Progress 0

def Dev.modUpd (d : Dev) (f : Update → Update) : Dev := d.onGan (fun g => { g with upd := g.upd.map f })

/-- A request of the update agent in one of some states; to anyone else, and in any other state, no update is in progress. -/
def Dev.fromAgent (d : Dev) (b : Binding) (states : List Nat) (k : Dev → Update → Dev) : Dev :=
  d.mctp b (fun d =>
    match d.gan.upd with
    | some u => if u.agent = b ∧ states.contains d.updState then k d u else d.reply b .notInUpdate
    | none => d.reply b .notInUpdate)

def Dev.queryDeviceIdentifiers (d : Dev) (i : Ident) (b : Binding) : Dev :=
  d.mctp b (fun d => d.answer b 0x120 [i.vid.toNat, 0x4D12])

/-- GET_FIRMWARE_PARAMETERS: one component of identifier 0x0001. -/
def Dev.getFirmwareParameters (d : Dev) (b : Binding) : Dev :=
  d.mctp b (fun d => d.answer b 0x121
    [0x0001, d.getF rMgmtFwVer fMgmtFwVer_FwVer, d.getF rMgmtStatus fMgmtStatus_ActPending, byteBits d.gan.image 32 32])

/-- Whether a DEBUG_OPEN is in progress. -/
def Dev.debugOpening (d : Dev) : Bool := d.mbxBusy && d.getF rMgmtMbxCmd fMgmtMbxCmd_Cmd == 0x31

/-- Whether an update cannot begin: no staging region, recovery boot, or a DEBUG_OPEN in progress (R415). -/
def Dev.cannotUpdate (d : Dev) : Bool := d.getF rMgmtStage fMgmtStage_En == 0 || d.recoveryBoot || d.debugOpening

/-- REQUEST_UPDATE. In recovery boot the ROM answers it; of the mailbox commands in progress it waits for all but DEBUG_OPEN,
during which it is answered (R407, R415). -/
def Dev.requestUpdate (d : Dev) (b : Binding) (maxTransfer : Nat) : Dev :=
  if !d.gan.up ∨ d.pstate = 6 ∨ d.pstate = 7 ∨ !d.gan.cfgPend.isEmpty ∨ !d.bindingUp b ∨ (d.mbxBusy ∧ !d.debugOpening) then d
  else if d.gan.upd.isSome then d.reply b .alreadyInUpdate
  else if d.cannotUpdate then d.reply b .unableToInitiate
  else
    let u : Update := { agent := b, maxTransfer := maxTransfer, oldVer := d.getF rMgmtFwVer fMgmtFwVer_FwVer }
    let d := d.onGan (fun g => { g with upd := some u })
    (d.setUpdState 1).answer b 0x122 []

def Dev.passComponentTable (d : Dev) (b : Binding) : Dev := d.fromAgent b [1] (fun d _ => d.answer b 0x123 [])

/-- UPDATE_COMPONENT: the component is asked for; one that the staging region cannot hold is refused (log entry 33). -/
def Dev.updateComponent (d : Dev) (b : Binding) (n : Nat) : Dev :=
  d.fromAgent b [1] (fun d _ =>
    if 2 ^ 26 < n then d.reply b .errOther
    else ((d.modUpd (fun u => { u with bytes := n, nextOff := 0 })).setUpdState 2).answer b 0x124 [])

/-- Bytes of the next portion that the gander asks for (R415). -/
def Update.portion (u : Update) : Nat := min (min 4096 u.maxTransfer) (u.bytes - u.nextOff)

/-- REQUEST_FIRMWARE_DATA: the portion asked for arrives and is written at its offset. -/
def Dev.requestFirmwareData (d : Dev) (off : Nat) (data : List Byte) : Dev :=
  match d.gan.upd with
  | none => d
  | some u =>
    if !d.firmware ∨ d.updState ≠ 2 ∨ off ≠ u.nextOff ∨ data.length ≠ u.portion ∨ data.isEmpty ∨ d.stageWaits then d
    else
      let n := u.nextOff + data.length
      ((d.ganWrite (d.stageBase + off) data).modUpd (fun u => { u with nextOff := n })).putF
        rMgmtUpdStatus fMgmtUpdStatus_Progress (openDiv 6 (100 * n) u.bytes)

/-- TRANSFER_COMPLETE: the whole component has come; verification begins. -/
def Dev.transferComplete (d : Dev) : Dev :=
  match d.gan.upd with
  | none => d
  | some u => if !d.firmware ∨ d.updState ≠ 2 ∨ u.nextOff ≠ u.bytes then d else d.setUpdState 3

/-- The update ends without success: its RESULT, and UPDATE_FAIL. -/
def Dev.failUpdate (d : Dev) (result : Nat) : Dev := (d.endUpdate result).raise pgMgmt 8

/-- The staged component, read back. -/
def Dev.staged (d : Dev) (u : Update) : Dev × List Byte × Bool := d.ganRead d.stageBase u.bytes

/-- VERIFY_COMPLETE: R400 applied to the staged bytes. A component that passes enters apply, whose first act removes the old
image's header; one that fails ends the update with flash untouched. -/
def Dev.verifyComplete (d : Dev) : Dev :=
  match d.gan.upd with
  | none => d
  | some u =>
    if !d.firmware ∨ d.updState ≠ 3 ∨ d.stageWaits then d
    else
      let (d, img, poison) := d.staged u
      let d := d.modUpd (fun u => { u with newVer := some (byteBits img 32 32) })
      if poison ∨ imageCheck d.gan img ≠ 0 then d.failUpdate 2
      else (d.onGan (fun g => { g with image := [] })).setUpdState 4

/-- Flash as apply leaves it: the image whole, or, where it does not read back, without its header. -/
def Dev.programImage (d : Dev) (img : List Byte) : Dev × Bool :=
  let (d, good) := d.flashGood
  (d.onGan (fun g => { g with image := if good then img.take (byteBits img 96 32) else [] }), good)

/-- APPLY_COMPLETE: the image is programmed, header last, and read back. -/
def Dev.applyComplete (d : Dev) : Dev :=
  match d.gan.upd with
  | none => d
  | some u =>
    if !d.firmware ∨ d.updState ≠ 4 ∨ u.applied ∨ d.stageWaits then d
    else
      let (d, img, poison) := d.staged u
      let (d, good) := d.programImage img
      if poison ∨ !good ∨ Config.sha384 (byteSlice img 4096 (byteBits img 96 32 - 4096))
          ≠ BitVec.ofNat 384 (leNat (byteSlice img 16 48)) then
        (d.onGan (fun g => { g with image := [] })).failUpdate 3
      else
        let d := (d.putF rMgmtUpdStatus fMgmtUpdStatus_Result 1).putF rMgmtUpdStatus fMgmtUpdStatus_Progress 100
        ((d.modUpd (fun u => { u with applied := true })).log 0x30 ([u.oldVer] ++ u.newVer.toList ++ [1])).raise pgMgmt 4

/-- ACTIVATE_FIRMWARE: the new image runs after the next power-on sequence. -/
def Dev.activateFirmware (d : Dev) (b : Binding) : Dev :=
  d.fromAgent b [4] (fun d u =>
    if !u.applied then d.reply b .errOther
    else
      let d := (d.onGan (fun g => { g with upd := none })).setUpdState 5
      (d.putF rMgmtStatus fMgmtStatus_ActPending 1).answer b 0x125 [])

/-- GET_STATUS. -/
def Dev.getStatus (d : Dev) (b : Binding) : Dev :=
  d.mctp b (fun d => d.answer b 0x126
    [d.updState, d.getF rMgmtUpdStatus fMgmtUpdStatus_Progress, d.getF rMgmtUpdStatus fMgmtUpdStatus_Result])

/-- CANCEL_UPDATE_COMPONENT: the component may be asked for again; refused during apply. -/
def Dev.cancelUpdateComponent (d : Dev) (b : Binding) : Dev :=
  d.fromAgent b [2, 3, 4] (fun d _ =>
    if d.updState = 4 then d.reply b .busy
    else ((d.modUpd (fun u => { u with bytes := 0, nextOff := 0 })).setUpdState 1).answer b 0x127 [])

/-- CANCEL_UPDATE: refused during apply, harmless to flash before it; after it the image stays where it is. -/
def Dev.cancelUpdate (d : Dev) (b : Binding) : Dev :=
  d.fromAgent b [1, 2, 3, 4] (fun d u =>
    if u.applied then ((d.onGan (fun g => { g with upd := none })).setUpdState 0).answer b 0x128 []
    else if d.updState = 4 then d.reply b .busy
    else (d.endUpdate 4).answer b 0x128 [])

/-! ## Recovery boot (R402) -/

/-- The image that the host driver pushed into CS0: the header, and what its IMAGE_BYTES says follows. -/
def Dev.pushedImage (d : Dev) : Dev × List Byte :=
  let (d, hdr, _) := d.ganRead 0 4096
  let n := byteBits hdr 96 32
  if n ≤ 4096 ∨ 40 * 2 ^ 20 < n then (d, hdr)
  else
    let (d, img, _) := d.ganRead 0 n
    (d, img)

def Dev.setRcvResult (d : Dev) (r : Nat) : Dev := d.putF rMgmtRcvCtrl fMgmtRcvCtrl_Result r

/-- GO: the ROM checks the image in CS0 and writes it to flash. -/
def Dev.recoveryGo (d : Dev) : Dev :=
  let (d, img) := d.pushedImage
  let k := imageCheck d.gan img
  if k ≠ 0 then d.setRcvResult (k + 2)
  else
    let (d, good) := d.programImage img
    d.setRcvResult (if good then 2 else 9)

/-- A write of MGMT_RCV_CTRL: outside recovery boot its actions are discarded and counted; REBOOT releases the rails and
restarts the gander from ROM. -/
def State.writeRcvCtrl (s : State) (v : W64) : State :=
  let goes := fld v fMgmtRcvCtrl_Go == 1
  let reboots := fld v fMgmtRcvCtrl_Reboot == 1
  if !goes ∧ !reboots then s
  else if !s.dev.recoveryBoot then s.onDev (fun d => d.blkErr pgMgmt)
  else
    let s := if goes then s.onDev Dev.recoveryGo else s
    if reboots then (s.onDev (fun d => d.onHif (fun h => { h with railsGood := false }))).boot 4 else s

end Sys2Proof.Machine
end

