-- ==== Sys2Proof/Machine/RegWrite.lean ====
section
/-! DEFINITION. Writes to BAR0: the access rules R5 to R9 (00_scope.md), R425, R447 to R449 (16_register_pages.md), the views of
a VF (11 R324), the MSI-X table (11 R326; 15 R422), and what each register's field map does with a write. -/

namespace Sys2Proof.Machine

/-! ## Who reaches which register (R128, R324, R337, R240, R276 to R278) -/

/-- The bits of a page's BLK_INT_STAT and BLK_INT_EN that function f reaches: every defined one from the PF, those of sources
it owns from a VF (R324, R327). -/
def Dev.ownBits (d : Dev) (page f : Nat) : Nat :=
  if f = 0 then definedBits page
  else ((List.range 32).filter (fun i => (definedBits page).testBit i
    && (match d.route page i with | some r => r.1 == f | none => false))).foldl (fun m i => m + 2 ^ i) 0

/-- Whether a register of sector k's pages 1 and 4 is live (R128, R337). -/
def Dev.sectLive (d : Dev) (k j o : Nat) : Bool :=
  if o < 0x40 then true
  else if j = 1 then (if o < 0x200 then k == 0 else d.isLive k)
  else o < 0x100 || d.isLive k

/-- What a VF reaches of a register at in-page offset `o` of page (t, k, j): whether it reads it, and whether it writes it. -/
def Dev.vfView (d : Dev) (f t k j o : Nat) : Bool × Bool :=
  let p := d.vfPart f
  if t = 0 then (0x40 ≤ o, false)
  else if o < 0x40 then let b := o == 0x10 || o == 0x14; (b, b)
  else if t = 2 ∧ 1 ≤ j ∧ j ≤ 4 then
    let own := d.queueFunc (32 * (j - 1) + (o - 0x200) / 0x40) == f
    (own, own && o % 0x40 != 0)
  else if t = 2 ∧ 5 ≤ j then
    let own := d.getF (rCqRCfg (32 * (j - 5) + (o - 0x200) / 0x40)) fCqRCfg_Func == f
    (own, own && o % 0x40 != 0)
  else if t = 3 ∧ j = 1 then
    if o < 0x200 then
      (o == 0x80 + 4 * (f - 1) || o == 0x100 + 4 * (f - 1), o == 0x100 + 4 * (f - 1))
    else if o < 0x400 then (p < 6 && d.firstSect p == some k, false)
    else (d.ctxFunc (d.sectPart k) ((o - 0x400) / 0x10) == f && p < 6 && d.sectPart k == p, false)
  else if t = 3 ∧ j = 4 then
    let mine := p < 6 && d.sectPart k == p
    if o < 0x100 then (mine, false)
    else let own := mine && d.ctxFunc p ((o - 0x100) / 0x40) == f; (own, own)
  else if t = 6 ∧ j = 0 then
    if o = 0x48 then (true, true)
    else if 0x80 ≤ o ∧ o < 0x100 then (true, false)
    else if 0xE00 ≤ o then (o == 0xE00 + 4 * p, false)
    else (0x100 ≤ o && (o - 0x100) / 0x80 == p, false)
  else if t = 6 ∧ j ≤ 6 then (j - 1 == p, false)
  else if t = 6 ∧ j = 7 then (p < 6 && d.getF (rSrvSlotCfg ((o - 0x100) / 0x40)) fSrvSlotCfg_Part == p, false)
  else if t = 6 ∧ j = 8 then ((o - 0x100) / 0x80 == p, false)
  else if t = 6 ∧ j = 9 then (o != 0x44, o == 0x40)
  else (false, false)

/-- What function f reaches of the register at `a`: reads it, writes it. -/
def Dev.view (d : Dev) (f a : Nat) : Bool × Bool :=
  match pageInfo (pageOf a) with
  | none => (false, false)
  | some (t, k, j, _) =>
    let o := a % 4096
    if t = 3 ∧ !d.sectLive k j o then (false, false)
    else if f = 0 then (true, true) else d.vfView f t k j o

/-! ## Field maps -/

/-- A register's value after a write by its access types (Table 0-4, R449). -/
def RegRow.merge (r : RegRow) (old v : W64) : W64 :=
  let m (x : Nat) : W64 := BitVec.ofNat 64 x
  ((((old &&& ~~~ m r.rw) ||| (v &&& m r.rw)) &&& ~~~ (v &&& m r.w1c)) ||| (v &&& m r.w1s))

def Dev.plainWrite (d : Dev) (a : Nat) (r : RegRow) (v : W64) : Dev := d.setReg a (r.merge (d.reg a) v)

/-- A write that its rule discards and counts (R448). -/
def Dev.discardIf (d : Dev) (bad : Bool) (a : Nat) (k : Dev → Dev) : Dev := if bad then d.blkErr (pageOf a) else k d

/-- A write of the common header (R444 to R446). -/
def Dev.writeHeader (d : Dev) (f page o : Nat) (v : W64) : Dev :=
  let own : W64 := BitVec.ofNat 64 (d.ownBits page f)
  if o = 0x08 then (if fld v fBlkCtrl_ErrClr = 1 then d.setReg (rBlkErrCnt page) 0 else d)
  else if o = 0x10 then d.modReg (rBlkIntStat page) (fun w => w &&& ~~~ (v &&& own))
  else if o = 0x14 then Dev.signal d (d.modReg (rBlkIntEn page) (fun w => (w &&& ~~~ own) ||| (v &&& own)))
  else if o = 0x18 then d.raise page (v &&& own).toNat
  else d

/-! ### Command queues and rings (R129, R151) -/

/-- CQ_Q_CFG of queue q; a VF with no partition has no queue (R129, R323). -/
def Dev.writeQCfg (d : Dev) (q : Nat) (v : W64) : Dev :=
  let a := rCqQCfg q
  let v := v &&& 0xF_FFFF
  let was := d.queueEn q
  let en := fld v fCqQCfg_En == 1
  let depth := fld v fCqQCfg_DepthLog2
  let func := fld v fCqQCfg_Func
  let bad := depth < 4 || 10 < depth || (was && v / 2 != d.reg a / 2) || 24 < func
    || (func != 0 && (fld v fCqQCfg_Part != d.vfPart func || 6 ≤ d.vfPart func))
    || d.getF (rCqRCfg (fld v fCqQCfg_Ring)) fCqRCfg_Func != func
  d.discardIf bad a (fun d =>
    let d := if was && !en then d.flushQueue q else d
    let d := if !was && en then d.clearCounts q else d
    Dev.signal d (d.setReg a v))

/-- CQ_R_CFG of ring r; FUNC only from the PF. -/
def Dev.writeRCfg (d : Dev) (f r : Nat) (v : W64) : Dev :=
  let a := rCqRCfg r
  let v := v &&& 0x7_FF3F
  let v := if f = 0 then v else putFld v fCqRCfg_Func (d.getF a fCqRCfg_Func)
  let was := d.getF a fCqRCfg_En == 1
  let en := fld v fCqRCfg_En == 1
  let n := fld v fCqRCfg_Log2n
  let bad := n < 6 || 15 < n || (was && (fld v fCqRCfg_Func != d.getF a fCqRCfg_Func || n != d.getF a fCqRCfg_Log2n))
  d.discardIf bad a (fun d =>
    let d := if !was && en then (d.setReg (rCqRTail r) 0).setReg (rCqRHead r) 0 else d
    (Dev.signal d (d.setReg a v)).flushHeld r)

/-- CQ_R_BASE of ring r. -/
def Dev.writeRBase (d : Dev) (r : Nat) (v : W64) : Dev :=
  let v := v &&& 0xFFFF_FFFF_FFFF_F000
  d.discardIf (d.getF (rCqRCfg r) fCqRCfg_En == 1 && v != d.reg (rCqRBase r)) (rCqRBase r) (fun d => d.setReg (rCqRBase r) v)

/-- CQ_R_HEAD of ring r: not above TAIL, both running free modulo 2^32. -/
def Dev.writeRHead (d : Dev) (r : Nat) (v : W64) : Dev :=
  let h := v.toNat % 2 ^ 32
  let ahead := (h + 2 ^ 32 - (d.reg (rCqRTail r)).toNat) % 2 ^ 32
  d.discardIf (0 < ahead && ahead < 2 ^ 31) (rCqRHead r) (fun d => (d.setReg (rCqRHead r) (BitVec.ofNat 64 h)).flushHeld r)

/-! ### Sector pages (R315 to R323, R332, R337; 04 R128) -/

/-- A register of sector k's partition page; SECT_QOS_HOST changes the rate from now on (R330). -/
def Dev.writePartPage (d : Dev) (k a o : Nat) (r : RegRow) (v : W64) : Dev :=
  if o = 0x40 then d.writeLayout (v.toNat % 2 ^ 18)
  else if 0x80 ≤ o ∧ o < 0xE0 then d.writeVfBind ((o - 0x80) / 4 + 1) v
  else if o < 0x200 then Dev.signal d (d.plainWrite a r v)
  else if o = 0x200 then
    (if fld v fSectPartCtrl_Reset = 1 then (d.partitionReset (d.sectPart k)).wakeSource 7 else d)
  else if o = 0x20C then d.writeSliceCtrl k v
  else if o = 0x210 then (d.settleBucket (d.sectPart k)).plainWrite a r v
  else if 0x400 ≤ o then
    (if o % 0x10 = 0 then d.writeCtxCfg k ((o - 0x400) / 0x10) v else d.writeCtxRoot k ((o - 0x400) / 0x10) v)
  else d.plainWrite a r v

/-- SECT_ILL_CTRL: EN rising clears pointers and counters (R128). -/
def Dev.writeIllCtrl (d : Dev) (k c : Nat) (v : W64) : Dev :=
  let a := rSectIllCtrl k c
  let d := if d.getF a fSectIllCtrl_En = 0 ∧ fld v fSectIllCtrl_En = 1 then
      [rSectIllHead k c, rSectIllTail k c, rSectIllCnt k c, rSectIllLost k c].foldl (fun d b => d.setReg b 0) d
    else d
  d.setReg a (v &&& 0xF1)

/-! ### The fabric unit (10 R284) -/

/-- Whether every link is DISABLED. -/
def Dev.linksOff (d : Dev) : Bool := (List.range 96).all (fun i => d.linkState i == 0)

/-- FAB_CFG: FID and TIME_ROOT change only while every link is DISABLED; a device that is no candidate is no root (R285). -/
def Dev.writeFabCfg (d : Dev) (v : W64) : Dev :=
  let v := v &&& 0xFFF
  let same := fld v fFabCfg_Fid == d.getF rFabCfg fFabCfg_Fid && fld v fFabCfg_TimeRoot == d.getF rFabCfg fFabCfg_TimeRoot
  d.discardIf (!same && !d.linksOff) rFabCfg (fun d =>
    let d := d.setReg rFabCfg v
    if fld v fFabCfg_TimeRoot = 0 ∧ d.isRoot then (d.putF rFabStatus fFabStatus_Root 0).showTime else d)

/-! ### The serving engine's registers (R201, R214, R222, R240, R261, R277) -/

/-- Whether a partition at or above p holds an occupied entry. -/
def Dev.liveFrom (d : Dev) (p : Nat) : Bool := (List.range 6).any (fun q => p ≤ q && d.liveCount q != 0)

/-- SRV_ADM_CTRL: EN at any time; ENTRY_MAX by R214 and R222. -/
def Dev.writeAdmCtrl (d : Dev) (p : Nat) (v : W64) : Dev :=
  let a := rSrvAdmCtrl p
  let v := v &&& 0x1_FFFD
  let n := fld v fSrvAdmCtrl_EntryMax
  let total := ((List.range 6).filter (· != p)).foldl (fun t q => t + d.entryMax q) n
  d.discardIf (n != d.entryMax p && (16384 < total || d.liveFrom p)) a (fun d => d.setReg a v)

/-- Whether a share byte lies above 64. -/
def sharesBad (v : W64) : Bool := (List.range 4).any (fun j => 64 < bitsOf v (8 * j) 8)

/-- An admission parameter of partition p, at in-group offset g (R222, R223: the cadence follows it). -/
def Dev.writeAdm (d : Dev) (p g a : Nat) (r : RegRow) (v : W64) : Dev :=
  if g = 0 then d.writeAdmCtrl p v
  else if g = 0x54 then (if fld v fSrvLateMax_Clr = 1 then d.setReg a 0 else d)
  else if 0x24 ≤ g then d
  else d.discardIf (d.liveCount p != 0 || ((g == 0x14 || g == 0x18) && sharesBad v)) a (fun d =>
    let d := d.plainWrite a r v
    if g = 0x20 then d.putF (rSrvPoolFree p) fSrvPoolFree_Free (fld v fSrvAdmPool_Pool) else d)

/-- A coefficient record of partition p. -/
def Dev.writeCoef (d : Dev) (p a : Nat) (r : RegRow) (v : W64) : Dev :=
  d.discardIf (d.liveCount p != 0 || ((a % 4096 - 0x40) % 0x40 == 0x24 && 8 < fld v fSrvCoefLimit_ColtMax)) a
    (fun d => d.plainWrite a r v)

/-- A register of slot s: its partition and region change only while it is EMPTY (R261). -/
def Dev.writeSlotReg (d : Dev) (s a : Nat) (r : RegRow) (v : W64) : Dev :=
  if d.slotState s = 0 then d.plainWrite a r v
  else if a = rSrvSlotCfg s then d.putF a fSrvSlotCfg_Pin (fld v fSrvSlotCfg_Pin)
  else d

/-- Nodes of partition p's prefix tree. -/
def Dev.nodesUsed (d : Dev) (p : Nat) : Nat := (d.srv.nodes.filter (fun n => n.2.part == p)).length

/-- SRV_PFX_CTRL: a write to bits 7:0 while entries live is discarded and counted, whatever it carries; FLUSH acts (R255, R277). -/
def Dev.writePfxCtrl (d : Dev) (p a : Nat) (v : W64) : Dev :=
  let d := d.discardIf (d.liveCount p != 0) a (fun d => d.setReg a (v &&& 0xFF))
  if fld v fSrvPfxCtrl_Flush = 1 then d.flush p else d

/-- A register of partition p's group of page 8, at in-group offset g (R277). -/
def Dev.writeKvReg (d : Dev) (p g a : Nat) (r : RegRow) (v : W64) : Dev :=
  if g = 0x24 then d.writePfxCtrl p a v
  else
    let win := fld v fSrvKvWin_Wlog2
    let nodes := fld v fSrvPfxNodes_NodeMax
    let total := ((List.range 6).filter (· != p)).foldl (fun t q => t + d.getF (rSrvPfxNodes q) fSrvPfxNodes_NodeMax) nodes
    let bad := if g ≤ 0x20 then d.liveCount p != 0 || (g == 0 && (win < 24 || 34 < win))
      else if g = 0x28 then d.nodesUsed p != 0 || 262144 < total
      else if g = 0x2C ∨ (0x38 ≤ g ∧ g < 0x48) then d.nodesUsed p != 0
      else if g = 0x60 then d.srv.versions.any (fun x => x.2.part == p && x.2.state != .free)
      else false
    d.discardIf bad a (fun d => d.plainWrite a r v)

/-- A register of SRV page j. -/
def Dev.writeSrv (d : Dev) (f j a o : Nat) (r : RegRow) (v : W64) : Dev :=
  if j = 0 then
    if o = 0x48 then d.writeRtSel f v
    else if o < 0x100 then d
    else if 0xE00 ≤ o then
      let p := (o - 0xE00) / 4
      d.discardIf (33 < fld v fSrvSplit_BatchThresh || d.liveCount p != 0) a (fun d => d.plainWrite a r v)
    else d.writeAdm ((o - 0x100) / 0x80) ((o - 0x100) % 0x80) a r v
  else if j ≤ 6 then d.writeCoef (j - 1) a r v
  else if j = 7 then d.writeSlotReg ((o - 0x100) / 0x40) a r v
  else if j = 8 then d.writeKvReg ((o - 0x100) / 0x80) ((o - 0x100) % 0x80) a r v
  else if o = 0x40 then d.writeDeltaSel f v
  else d

/-! ### Power, temperature, faults, the gander, the host interface -/

/-- A register of the PWR page other than PWR_CTRL (R395). -/
def Dev.writePwr (d : Dev) (a : Nat) (r : RegRow) (v : W64) : Dev :=
  if a = rPwrClk then d.writeClk v
  else if a = rPwrPhaseSel then d.writePhaseSel v
  else if a = rPwrPower then
    (if fld v fPwrPower_Clr = 1 then d.putF a fPwrPower_Peak (d.getF a fPwrPower_Avg) else d)
  else if a = rPwrCap then
    let c := fld v fPwrCap_Cap
    d.discardIf (c < 400 || 1050 < c) a (fun d => d.plainWrite a r v)
  else d.plainWrite a r v

/-- A register of the THM page (R396). -/
def Dev.writeThm (d : Dev) (a : Nat) (r : RegRow) (v : W64) : Dev :=
  if a = rThmLimit then
    let t := fld v fThmLimit_TThrottle
    d.discardIf (t < 85 || 112 < t) a (fun d => d.plainWrite a r v)
  else if a = rThmMax then
    (if fld v fThmMax_Clr = 1 then d.putF a fThmMax_Max (d.getF rThmHot fThmHot_Temp) else d)
  else d.plainWrite a r v

/-- A register of the RAS page (R353, R364, 12 Table 12-9). -/
def Dev.writeRas (d : Dev) (a : Nat) (r : RegRow) (v : W64) : Dev :=
  if a = rRasReplay then
    let t := fld v fRasReplay_Tmo
    d.discardIf (t < 10 || 300 < t) a (fun d => d.plainWrite a r v)
  else if a = rRasUnitCmd then (if fld v fRasUnitCmd_Return = 1 then d.returnSelected else d)
  else d.plainWrite a r v

/-- A register of the MGMT page other than MGMT_RCV_CTRL: the mailbox's request stands while BUSY, and MGMT_STAGE changes
only while no update is under way (R406, R417, R419). -/
def Dev.writeMgmt (d : Dev) (a o : Nat) (r : RegRow) (v : W64) : Dev :=
  if a = rMgmtStage then (if d.updState = 0 then d.plainWrite a r v else d)
  else if a = rMgmtMbxCtrl then (if fld v fMgmtMbxCtrl_Go = 1 then d.mbxGo else d)
  else if a = rMgmtMbxCmd ∨ 0x800 ≤ o then d.discardIf d.mbxBusy a (fun d => d.plainWrite a r v)
  else d.plainWrite a r v

/-- HIF_BAR4_WIN: BASE is a multiple of the BAR4 size (R423). -/
def Dev.writeBar4Win (d : Dev) (v : W64) : Dev :=
  d.discardIf (fld v fHifBar4Win_Base * 2 ^ 36 % 2 ^ d.hif.bar4Log2 != 0) rHifBar4Win
    (fun d => d.setReg rHifBar4Win (v &&& 0xF0_0000_0000))

/-- A register of a compute stack's pages (R213, R341, R345). -/
def Dev.writeCs (d : Dev) (n j a o : Nat) (r : RegRow) (v : W64) : Dev :=
  if j = 0 ∧ o = 0x48 then d.writeTempMax n v
  else if j = 0 ∧ o = 0x54 then d.writeWinWait n v
  else d.plainWrite a r v

/-- FAB page 0 and the link pages. -/
def Dev.writeFab (d : Dev) (j a : Nat) (r : RegRow) (v : W64) : Dev :=
  if j ≠ 0 then
    (if a = rFabLinkCtrl (j - 1) then d.writeLinkCtrl (j - 1) v else d.plainWrite a r v)
  else if a = rFabCfg then d.writeFabCfg v
  else if a = rFabFoldTag then d.discardIf (!d.linksOff) a (fun d => d.plainWrite a r v)
  else if a = rFabTmo then
    let g := fld v fFabTmo_Grace
    d.discardIf (g < 20 || 1000 < g) a (fun d => d.plainWrite a r v)
  else d.plainWrite a r v

/-- A whole register written by function f, which reaches it. -/
def Dev.applyReg (d : Dev) (f a : Nat) (r : RegRow) (v : W64) : Dev :=
  let o := a % 4096
  let page := pageOf a
  if o < 0x40 then d.writeHeader f page o v
  else
    match pageInfo page with
    | none => d
    | some (t, k, j, _) =>
      if t = 1 then (if a = rHifBar4Win then d.writeBar4Win v else d)
      else if t = 2 then
        if 1 ≤ j ∧ j ≤ 4 then
          let q := 32 * (j - 1) + (o - 0x200) / 0x40
          if o % 0x40 = 0 then d.writeQCfg q v else d.plainWrite a r v
        else if 5 ≤ j then
          let i := 32 * (j - 5) + (o - 0x200) / 0x40
          if o % 0x40 = 0 then d.writeRBase i v
          else if o % 0x40 = 8 then d.writeRCfg f i v
          else if o % 0x40 = 0x14 then d.writeRHead i v
          else d.plainWrite a r v
        else d
      else if t = 3 then
        if j = 1 then d.writePartPage k a o r v
        else if 0x100 ≤ o ∧ (o - 0x100) % 0x40 = 0x10 then d.writeIllCtrl k ((o - 0x100) / 0x40) v
        else d.plainWrite a r v
      else if t = 4 then d.writeCs k j a o r v
      else if t = 5 then d.writeFab j a r v
      else if t = 6 then d.writeSrv f j a o r v
      else if t = 7 then d.writePwr a r v
      else if t = 8 then d.writeThm a r v
      else if t = 9 then d.writeRas a r v
      else if t = 10 then d.writeMgmt a o r v
      else d

/-- PWR_CTRL (R375, R376, R391): SHUTDOWN acts with its key, and a write of it without the key is discarded and counted, with
what else it carries (R448); else PAD_RELEASE, discarded likewise outside WAKE_HELD; else WAKE. WAKE beside a PAD_RELEASE that
acts has nothing left to wake. -/
def State.writePwrCtrl (s : State) (v : W64) : State :=
  if fld v fPwrCtrl_Shutdown = 1 then
    (if fld v fPwrCtrl_Key = 0xA5 then s.onDev Dev.shutdown else s.onDev (fun d => d.blkErr pgPwr))
  else if fld v fPwrCtrl_PadRelease = 1 then s.padRelease
  else if fld v fPwrCtrl_Wake = 1 then s.onDev (fun d => d.wakeSource 1)
  else s

/-! ## Accesses (R5 to R9, R324, R425, R447) -/

/-- The register at `a` takes a whole new value from function f, when f writes it. -/
def State.atReg (s : State) (f a : Nat) (v : W64) : State :=
  match findReg a with
  | none => s
  | some (r, _) =>
    if !(s.dev.view f a).2 then s
    else if a = rPwrCtrl then s.writePwrCtrl v
    else if a = rMgmtRcvCtrl then s.writeRcvCtrl v
    else s.onDev (fun d => d.applyReg f a r v)

def msixTable : Nat := 0x3FF_0000

/-- One word of function f's MSI-X table (R326, R422). -/
def Dev.msixWord (d : Dev) (f o w : Nat) : Dev :=
  let v := o / 16
  let e := d.vector f v
  let e := match o / 4 % 4 with
    | 0 => { e with addr := e.addr / 2 ^ 32 * 2 ^ 32 + w }
    | 1 => { e with addr := e.addr % 2 ^ 32 + w * 2 ^ 32 }
    | 2 => { e with data := w }
    | _ => { e with masked := w % 2 == 1 }
  (d.onHif (fun h => { h with vecs := tset h.vecs (64 * f + v) e })).flushPending f

/-- A write of `size` bytes to the MSI-X table. -/
def Dev.msixWrite (d : Dev) (f o size : Nat) (v : W64) : Dev :=
  let d := d.msixWord f o (v.toNat % 2 ^ 32)
  if size = 8 then d.msixWord f (o + 4) (v.toNat / 2 ^ 32) else d

/-- Low word of a 64-bit register held for its high word (R447). -/
def Dev.holdLow (d : Dev) (f a w : Nat) : Dev := { d with heldLow := tset d.heldLow f (a, w) }

def Dev.dropLow (d : Dev) (f : Nat) : Dev := { d with heldLow := tdel d.heldLow f }

/-- A BAR0 write with no low word held. -/
def State.freshWrite (s : State) (f off size : Nat) (v : W64) : State :=
  if (size ≠ 4 ∧ size ≠ 8) ∨ off % size ≠ 0 then s.onDev (fun d => d.blkErr pgHif)
  else if msixTable ≤ off ∧ off < msixTable + 1024 then s.onDev (fun d => d.msixWrite f (off - msixTable) size v)
  else
    let w := v.toNat % 2 ^ 32
    match findReg off with
    | none =>
      if size = 8 ∧ (findReg (off + 4)).isSome then s.onDev (fun d => d.blkErr pgHif) else s
    | some (r, a) =>
      if r.size = 8 then
        if size = 8 then s.atReg f a v
        else if off = a then s.onDev (fun d => d.holdLow f a w)
        else s.atReg f a (BitVec.ofNat 64 ((s.dev.reg a).toNat % 2 ^ 32 + w * 2 ^ 32))
      else if size = 8 then s.onDev (fun d => d.blkErr pgHif)
      else s.atReg f a (BitVec.ofNat 64 w)

/-- A BAR0 write: it completes a held low word, or lets it take effect alone first (R447). -/
def State.bar0Write (s : State) (f off size : Nat) (v : W64) : State :=
  match tfind s.dev.heldLow f with
  | none => s.freshWrite f off size v
  | some (a, low) =>
    let s := s.onDev (fun d => d.dropLow f)
    if size = 4 ∧ off = a + 4 then s.atReg f a (BitVec.ofNat 64 (low + v.toNat % 2 ^ 32 * 2 ^ 32))
    else (s.atReg f a (BitVec.ofNat 64 ((s.dev.reg a).toNat / 2 ^ 32 * 2 ^ 32 + low))).freshWrite f off size v

/-- Whether the host interface passes a BAR0 access of function f to a page: the device is ready, the function serves, and
in recovery boot only the DEV and MGMT pages exist (R402, R426, R432). -/
def Dev.bar0Open (d : Dev) (f off : Nat) : Bool :=
  d.ready && d.fnServes f && (!d.recoveryBoot || pageOf off == pgDev || pageOf off == pgMgmt)

/-- Function f writes the `size` low bytes of `v` at BAR0 offset `off`. -/
def State.regWrite (s : State) (f off size : Nat) (v : W64) : State :=
  if s.dev.bar0Open f off then s.bar0Write f off size v
  else if s.dev.ready ∧ !s.dev.fnServes f then s.onDev (fun d => d.unsupported f false)
  else s

/-- Function f writes a 32-bit register at `a` with one access. -/
def State.reg32 (s : State) (f a : Nat) (v : W32) : State := s.regWrite f a 4 (v.zeroExtend 64)

end Sys2Proof.Machine
end

