-- ==== Sys2Proof/Machine/ExecFabric.lean ====
section
/-! DEFINITION. The commands of links, time and the fold (10_fold_fabric.md). One meaning for each row: what the
row does is the operation it calls. -/

namespace Sys2Proof.Machine

/-- FAB_LINK_EN (R281). -/
def execFabLinkEn (f : Func) (i : LinkId) (v : W32) (s : State) : Host.Outcome State Fault Refusal :=
  .next (s.reg32 f (rFabLinkCtrl i) v)

/-- RETRAIN (R281). -/
def execRetrain (f : Func) (i : LinkId) (v : W32) (s : State) : Host.Outcome State Fault Refusal :=
  .next (s.reg32 f (rFabLinkCtrl i) v)

/-- RETIRE (R311). -/
def execRetire (f : Func) (i : LinkId) (v : W32) (s : State) : Host.Outcome State Fault Refusal :=
  .next (s.reg32 f (rFabLinkCtrl i) v)

/-- LINK_TRAINED (R284). -/
def execLinkTrained (i : LinkId) (peer : PeerIdent) (s : State) : Host.Outcome State Fault Refusal :=
  .next (s.onDev (fun d => d.linkTrained i peer))

/-- TRAIN_TIMEOUT (R282). -/
def execTrainTimeout (i : LinkId) (s : State) : Host.Outcome State Fault Refusal :=
  .next (s.onDev (fun d => d.trainTimeout i))

/-- LINK_RETRY (R281). -/
def execLinkRetry (i : LinkId) (s : State) : Host.Outcome State Fault Refusal :=
  .next (s.onDev (fun d => d.linkRetry i))

/-- LANE_LOSS (R301). -/
def execLaneLoss (i : LinkId) (lane : Fin 2) (s : State) : Host.Outcome State Fault Refusal :=
  .next (s.onDev (fun d => d.laneLoss i lane))

/-- FEC_LIMIT (R301, R313). -/
def execFecLimit (i : LinkId) (n : FecCounts) (s : State) : Host.Outcome State Fault Refusal :=
  .next (s.onDev (fun d => d.fecLimit i n.corrected n.uncorrected))

/-- BEAT_BOUNDARY (R288). -/
def execBeatBoundary (s : State) : Host.Outcome State Fault Refusal :=
  .next (s.onDev (fun d => d.beatBoundary))

/-- PACE_WORD (R290). -/
def execPaceWord (i : LinkId) (w : BitVec 1024) (s : State) : Host.Outcome State Fault Refusal :=
  .next (s.onDev (fun d => d.paceWord i w))

/-- BEND (R285). -/
def execBend (i : LinkId) (w : Rec) (at256 : Nat) (s : State) : Host.Outcome State Fault Refusal :=
  .next (s.onDev (fun d => d.bend i w at256))

/-- BEND_DEADLINE (R300). -/
def execBendDeadline (i : LinkId) (s : State) : Host.Outcome State Fault Refusal :=
  .next (s.onDev (fun d => d.bendDeadline i))

/-- NOTICE (R308). -/
def execNotice (i : LinkId) (w : Rec) (s : State) : Host.Outcome State Fault Refusal :=
  .next (s.onDev (fun d => d.notice i w))

/-- SLOT_TX (R296). -/
def execSlotTx (n : Nat) (s : State) : Host.Outcome State Fault Refusal :=
  .next (s.onDev (fun d => d.slotTx n))

/-- SLOT_RX (R296). -/
def execSlotRx (n : Nat) (granules : List RxGranule) (s : State) : Host.Outcome State Fault Refusal :=
  .next (s.onDev (fun d => d.slotRx n granules))

/-- ROOT_TIMEOUT (R287). -/
def execRootTimeout (s : State) : Host.Outcome State Fault Refusal :=
  .next (s.onDev (fun d => d.rootTimeout))

/-- TIME_LOST (R287). -/
def execTimeLost (s : State) : Host.Outcome State Fault Refusal :=
  .next (s.onDev (fun d => d.timeLost))

/-- FOLD_COMMAND_START (R302). -/
def execFoldCommandStart (q : Nat) (s : State) : Host.Outcome State Fault Refusal :=
  .next (s.onDev (fun d => d.foldCommandStart q))

end Sys2Proof.Machine
end

