-- ==== Sys2Proof/Machine/ExecGander.lean ====
section
/-! DEFINITION. The commands of the gander (14_gander_security_update.md). One meaning for each row: what the
row does is the operation it calls. -/

namespace Sys2Proof.Machine

/-- GO (R402). -/
def execGo (f : Func) (v : W32) (s : State) : Host.Outcome State Fault Refusal :=
  .next (s.reg32 f rMgmtRcvCtrl v)

/-- REBOOT (R402). -/
def execReboot (f : Func) (v : W32) (s : State) : Host.Outcome State Fault Refusal :=
  .next (s.reg32 f rMgmtRcvCtrl v)

/-- IDENTITY_READ (R406). -/
def execIdentityRead (s : State) : Host.Outcome State Fault Refusal :=
  .next (s.onDev (fun d => d.identityRead s.ident))

/-- SENSOR_READ (R406). -/
def execSensorRead (s : State) : Host.Outcome State Fault Refusal :=
  .next (s.onDev (fun d => d.sensorRead))

/-- LOG_READ (R406). -/
def execLogRead (s : State) : Host.Outcome State Fault Refusal :=
  .next (s.onDev (fun d => d.logRead))

/-- LOG_INFO (R406). -/
def execLogInfo (s : State) : Host.Outcome State Fault Refusal :=
  .next (s.onDev (fun d => d.logInfo))

/-- KEY_ENROL (R408). -/
def execKeyEnrol (s : State) : Host.Outcome State Fault Refusal :=
  .next (s.onDev (fun d => d.keyEnrol))

/-- KEY_REVOKE (R408). -/
def execKeyRevoke (s : State) : Host.Outcome State Fault Refusal :=
  .next (s.onDev (fun d => d.keyRevoke))

/-- KEY_LIST (R406). -/
def execKeyList (s : State) : Host.Outcome State Fault Refusal :=
  .next (s.onDev (fun d => d.keyList))

/-- CFG_READ (R406). -/
def execCfgRead (s : State) : Host.Outcome State Fault Refusal :=
  .next (s.onDev (fun d => d.cfgRead))

/-- DEBUG_CHALLENGE (R418). -/
def execDebugChallenge (nonce : BitVec 256) (s : State) : Host.Outcome State Fault Refusal :=
  .next (s.onDev (fun d => d.debugChallenge s.ident nonce))

/-- DEBUG_OPEN (R418). -/
def execDebugOpen (s : State) : Host.Outcome State Fault Refusal :=
  .next (s.onDev (fun d => d.debugOpen s.ident))

/-- CONFIGURATION_WRITE (R404). -/
def execConfigurationWrite (s : State) : Host.Outcome State Fault Refusal :=
  .next (s.onDev (fun d => d.configurationWrite))

/-- LOG_FLUSH (R405). -/
def execLogFlush (s : State) : Host.Outcome State Fault Refusal :=
  .next (s.onDev (fun d => d.logFlush))

/-- SET_ENDPOINT_ID (R410). -/
def execSetEndpointId (b : Binding) (eid : Byte) (s : State) : Host.Outcome State Fault Refusal :=
  .next (s.onDev (fun d => d.setEndpointId b eid))

/-- VDM_WAKE (R410). -/
def execVdmWake (b : Binding) (s : State) : Host.Outcome State Fault Refusal :=
  .next (s.onDev (fun d => d.vdmWake b))

/-- GET_VERSION (R412). -/
def execGetVersion (b : Binding) (s : State) : Host.Outcome State Fault Refusal :=
  .next (s.onDev (fun d => d.getVersion b))

/-- GET_CAPABILITIES (R412). -/
def execGetCapabilities (b : Binding) (s : State) : Host.Outcome State Fault Refusal :=
  .next (s.onDev (fun d => d.getCapabilities b))

/-- NEGOTIATE_ALGORITHMS (R412). -/
def execNegotiateAlgorithms (b : Binding) (offersOurs : Bool) (s : State) : Host.Outcome State Fault Refusal :=
  .next (s.onDev (fun d => d.negotiateAlgorithms b offersOurs))

/-- GET_DIGESTS (R412). -/
def execGetDigests (b : Binding) (s : State) : Host.Outcome State Fault Refusal :=
  .next (s.onDev (fun d => d.getDigests s.ident b))

/-- GET_CERTIFICATE (R412). -/
def execGetCertificate (b : Binding) (slot : Nat) (s : State) : Host.Outcome State Fault Refusal :=
  .next (s.onDev (fun d => d.getCertificate s.ident b slot))

/-- CHALLENGE (R412). -/
def execChallenge (b : Binding) (slot : Nat) (nonce : BitVec 256) (s : State) : Host.Outcome State Fault Refusal :=
  .next (s.onDev (fun d => d.challenge s.ident b slot nonce))

/-- GET_MEASUREMENTS (R414). -/
def execGetMeasurements (b : Binding) (indices : List Nat) (signed : Bool) (nonce : BitVec 256) (s : State) : Host.Outcome State Fault Refusal :=
  .next (s.onDev (fun d => d.getMeasurements s.ident b indices signed nonce))

/-- KEY_EXCHANGE (R412). -/
def execKeyExchange (b : Binding) (slot : Nat) (s : State) : Host.Outcome State Fault Refusal :=
  .next (s.onDev (fun d => d.keyExchange s.ident b slot))

/-- FINISH (R412). -/
def execFinish (b : Binding) (session : Nat) (s : State) : Host.Outcome State Fault Refusal :=
  .next (s.onDev (fun d => d.finishSession b session))

/-- HEARTBEAT (R412). -/
def execHeartbeat (b : Binding) (session : Nat) (s : State) : Host.Outcome State Fault Refusal :=
  .next (s.onDev (fun d => d.heartbeat b session))

/-- KEY_UPDATE (R412). -/
def execKeyUpdate (b : Binding) (session : Nat) (s : State) : Host.Outcome State Fault Refusal :=
  .next (s.onDev (fun d => d.keyUpdate b session))

/-- END_SESSION (R412). -/
def execEndSession (b : Binding) (session : Nat) (s : State) : Host.Outcome State Fault Refusal :=
  .next (s.onDev (fun d => d.endSession b session))

/-- ATTESTATION_KEY_GEN (R413). -/
def execAttestationKeyGen (seed : BitVec 256) (s : State) : Host.Outcome State Fault Refusal :=
  .next (s.onDev (fun d => d.attestationKeyGen seed))

/-- QUERY_DEVICE_IDENTIFIERS (R415). -/
def execQueryDeviceIdentifiers (b : Binding) (s : State) : Host.Outcome State Fault Refusal :=
  .next (s.onDev (fun d => d.queryDeviceIdentifiers s.ident b))

/-- GET_FIRMWARE_PARAMETERS (R415). -/
def execGetFirmwareParameters (b : Binding) (s : State) : Host.Outcome State Fault Refusal :=
  .next (s.onDev (fun d => d.getFirmwareParameters b))

/-- REQUEST_UPDATE (R415). -/
def execRequestUpdate (b : Binding) (maxTransfer : Nat) (s : State) : Host.Outcome State Fault Refusal :=
  .next (s.onDev (fun d => d.requestUpdate b maxTransfer))

/-- PASS_COMPONENT_TABLE (R415). -/
def execPassComponentTable (b : Binding) (s : State) : Host.Outcome State Fault Refusal :=
  .next (s.onDev (fun d => d.passComponentTable b))

/-- UPDATE_COMPONENT (R415). -/
def execUpdateComponent (b : Binding) (imageBytes : Nat) (s : State) : Host.Outcome State Fault Refusal :=
  .next (s.onDev (fun d => d.updateComponent b imageBytes))

/-- REQUEST_FIRMWARE_DATA (R416). -/
def execRequestFirmwareData (off : Nat) (data : List Byte) (s : State) : Host.Outcome State Fault Refusal :=
  .next (s.onDev (fun d => d.requestFirmwareData off data))

/-- TRANSFER_COMPLETE (R416). -/
def execTransferComplete (s : State) : Host.Outcome State Fault Refusal :=
  .next (s.onDev (fun d => d.transferComplete))

/-- VERIFY_COMPLETE (R416). -/
def execVerifyComplete (s : State) : Host.Outcome State Fault Refusal :=
  .next (s.onDev (fun d => d.verifyComplete))

/-- APPLY_COMPLETE (R416). -/
def execApplyComplete (s : State) : Host.Outcome State Fault Refusal :=
  .next (s.onDev (fun d => d.applyComplete))

/-- ACTIVATE_FIRMWARE (R416). -/
def execActivateFirmware (b : Binding) (s : State) : Host.Outcome State Fault Refusal :=
  .next (s.onDev (fun d => d.activateFirmware b))

/-- GET_STATUS (R415). -/
def execGetStatus (b : Binding) (s : State) : Host.Outcome State Fault Refusal :=
  .next (s.onDev (fun d => d.getStatus b))

/-- CANCEL_UPDATE_COMPONENT (R416). -/
def execCancelUpdateComponent (b : Binding) (s : State) : Host.Outcome State Fault Refusal :=
  .next (s.onDev (fun d => d.cancelUpdateComponent b))

/-- CANCEL_UPDATE (R416). -/
def execCancelUpdate (b : Binding) (s : State) : Host.Outcome State Fault Refusal :=
  .next (s.onDev (fun d => d.cancelUpdate b))

end Sys2Proof.Machine
end

