-- ==== Sys2Proof/Machine/ExecHost.lean ====
section
/-! DEFINITION. The commands of power-on, resets, the host link and its requests (15_host_link_and_package.md). One meaning for each row: what the
row does is the operation it calls. -/

namespace Sys2Proof.Machine

/-- POWER_ON (R435). -/
def execPowerOn (s : State) : Host.Outcome State Fault Refusal :=
  .next (s.powerOn)

/-- RAILS_GOOD (R435). -/
def execRailsGood (failed : List UnitId) (s : State) : Host.Outcome State Fault Refusal :=
  .next (s.onDev (fun d => d.railsGood failed))

/-- POWER_ON_COMPLETE (R435). -/
def execPowerOnComplete (s : State) : Host.Outcome State Fault Refusal :=
  .next (s.onDev (fun d => d.powerOnComplete))

/-- PERST_N (R433). -/
def execPerstN (s : State) : Host.Outcome State Fault Refusal :=
  .next (s.perstFalls)

/-- HOT_RESET (R431). -/
def execHotReset (s : State) : Host.Outcome State Fault Refusal :=
  .next (s.linkReset 2)

/-- DL_DOWN (R431). -/
def execDlDown (s : State) : Host.Outcome State Fault Refusal :=
  .next (s.linkReset 3)

/-- LINK_UP (R421). -/
def execLinkUp (rate : Nat) (width : Nat) (flit : Bool) (reversed : Bool) (s : State) : Host.Outcome State Fault Refusal :=
  .next (s.onDev (fun d => d.linkUpEvent rate width flit reversed))

/-- HOST_READ_COMPLETION (R427). -/
def execHostReadCompletion (i : Nat) (status : ReadStatus) (data : List Byte) (s : State) : Host.Outcome State Fault Refusal :=
  .next (s.onDev (fun d => d.hostReadCompletion i status data))

/-- COMPLETION_TIMEOUT (R427). -/
def execCompletionTimeout (i : Nat) (s : State) : Host.Outcome State Fault Refusal :=
  .next (s.onDev (fun d => d.completionTimeout i))

/-- ATOMICOP_REQUEST (R426). -/
def execAtomicopRequest (f : Func) (s : State) : Host.Outcome State Fault Refusal :=
  .next (s.onDev (fun d => d.unsupportedRequest f))

/-- IO_REQUEST (R426). -/
def execIoRequest (f : Func) (s : State) : Host.Outcome State Fault Refusal :=
  .next (s.onDev (fun d => d.unsupportedRequest f))

/-- POISONED_TLP (R426). -/
def execPoisonedTlp (f : Func) (_bar : Nat) (_off : Nat) (_data : List Byte) (s : State) : Host.Outcome State Fault Refusal :=
  .next (s.onDev (fun d => d.poisonedTlp f))

/-- IDE_INSECURE (R430). -/
def execIdeInsecure (s : State) : Host.Outcome State Fault Refusal :=
  .next (s.onDev (fun d => d.ideInsecure))

end Sys2Proof.Machine
end

