-- ==== Sys2Proof/Machine/Thermal.lean ====
section
/-! DEFINITION. Temperature: die sensors, calibration, failures, responses and trips (13 R386 to R390, R396), and the
stacks' own samples (07 R211). Temperatures are in units of 0.25 °C. -/

namespace Sys2Proof.Machine

def Dev.onThm (d : Dev) (f : Thm → Thm) : Dev := { d with thm := f d.thm }

def Dev.mon (d : Dev) (n : Nat) : Mon := tget d.thm.mons {} n

/-- A signed value as a field holds it. -/
def fieldOf (len : Nat) (x : Int) : Nat := wrapNat len x

/-- A signed quotient, rounded as the spec leaves open (log entry 11). -/
def openDivInt (what : Nat) (a b : Int) : Int :=
  if b = 0 then 0 else if a % b ≠ 0 ∧ Config.roundsUp what a b then a / b + 1 else a / b

/-- A monitor's reading T_cal + K_t × (n − n_cal − K_v × (V − V_cal)), the gains in units of 2^-16 (R387). -/
def monReading (i : Ident) (m : Mon) (n : Nat) (count volt : Int) : Int :=
  let kt := tget i.kt 0 n
  let kv := tget i.kv 0 n
  m.tCal + openDivInt 3 (kt * ((count - m.nCal) * 2 ^ 16 - kv * (volt - m.vCal))) (2 ^ 32)

/-- Sum of a list of integers. -/
def sumInt (xs : List Int) : Int := xs.foldl (· + ·) 0

/-- The greatest of a list of integers above a floor. -/
def maxInt (lo : Int) (xs : List Int) : Int := xs.foldl max lo

/-- Insertion in rising order, for the median. -/
def insertInt (x : Int) : List Int → List Int
  | [] => [x]
  | y :: ys => if x ≤ y then x :: y :: ys else y :: insertInt x ys

/-- Twice the median of a list (the sum of its two middle values). -/
def twiceMedian (xs : List Int) : Int :=
  let s := xs.foldl (fun acc x => insertInt x acc) []
  s.getD ((s.length - 1) / 2) 0 + s.getD (s.length / 2) 0

/-- Monitors that work: not failed, and not in FALLOW, where a sector has none (R387). -/
def Dev.working (d : Dev) : List Nat :=
  if d.pstate = 3 then [] else (List.range 72).filter (fun n => !d.monFailed n)

/-- A failed monitor: its THM_FAIL bit and SENSOR_FAIL (R388). -/
def Dev.failMon (d : Dev) (n : Nat) : Dev :=
  let a := if n < 32 then rThmFailLo else if n < 64 then rThmFailMid else rThmFailHi
  (d.modReg a (· ||| BitVec.ofNat 64 (2 ^ (n % 32)))).raise pgThm 8

/-- The latest reading of a monitor. -/
def Mon.last (m : Mon) : Int := m.hist.headD 0

/-- Rise over the last 1 ms, 50 samples of 20 us: the reading less the reading 1 ms earlier (R386). -/
def Mon.rise (m : Mon) : Int :=
  match m.hist[50]? with
  | some x => m.last - x
  | none => 0

/-- The sample of one monitor: its reading joins its history, and R388's checks of the count and the reading apply. -/
def Dev.sampleMon (d : Dev) (i : Ident) (n count : Nat) (volt : Int) : Dev :=
  let m := d.mon n
  let t := monReading i m n count volt
  let d := d.onThm (fun x => { x with mons := tset x.mons n { m with hist := (t :: m.hist).take 51 } })
  if count = 0 ∨ Config.monSaturated count ∨ t < -160 ∨ 600 < t then d.failMon n else d

/-- The check against the mean of the sector's other working monitors, 10 samples running (R388). -/
def Dev.checkApart (d : Dev) (n : Nat) : Dev :=
  let others := (d.working.filter (fun m => m / 12 == n / 12 && m != n)).map (fun m => (d.mon m).last)
  let k : Int := others.length
  let t := (d.mon n).last
  let far := k ≠ 0 ∧ 100 * k < (t * k - sumInt others).natAbs
  let c := if far then (d.mon n).apart + 1 else 0
  let d := d.onThm (fun x => { x with mons := tmod x.mons {} n (fun m => { m with apart := c }) })
  if 10 ≤ c then d.failMon n else d

/-- The diode's sample (R386, R388). -/
def Dev.sampleDiode (d : Dev) (r : Reading) : Dev :=
  let was := d.getF rThmDiode fThmDiode_Fail = 1
  let temps := d.working.map (fun n => (d.mon n).last)
  let atCal := match d.thm.lowPowerSince with
    | some t => decide (t + 10000000 ≤ d.time)
    | none => false
  let off := atCal && !temps.isEmpty && decide (160 < (2 * r.temp - twiceMedian temps).natAbs)
  if was then d
  else if r.bad ∨ off then (d.setReg rThmDiode (BitVec.ofNat 64 (fieldOf 12 r.temp + atBit 12 1))).raise pgThm 8
  else d.setReg rThmDiode (BitVec.ofNat 64 (fieldOf 12 r.temp))

/-- The throttle response of sector k, whose hottest working monitor reads `hot` (Table 13-8): four steps down every 100 µs at
the threshold or above, and, from the moment it is 2 °C below, one step up every 1 ms. -/
def Dev.throttleStep (d : Dev) (k : Nat) (hot : Int) : Dev :=
  let x := d.thmSect k
  let tt : Int := 4 * (d.getF rThmLimit fThmLimit_TThrottle : Int)
  let on := bitOf (d.reg rThmStatus) k
  let d' :=
    if tt ≤ hot then
      if !on ∨ x.steppedAt + 100000 ≤ d.time then
        let d := d.onThm (fun y => { y with sects := tset y.sects k { x with
          throttle := max 1 (x.throttle - 4), steppedAt := d.time, cool := false } })
        let d := d.modReg rThmStatus (· ||| BitVec.ofNat 64 (2 ^ k))
        if on then d else d.raise pgThm 1
      else d.onThm (fun y => { y with sects := tset y.sects k { x with cool := false } })
    else if hot < tt - 8 ∧ x.throttle < 64 then
      if !x.cool then d.onThm (fun y => { y with sects := tset y.sects k { x with cool := true, steppedAt := d.time } })
      else if x.steppedAt + 1000000 ≤ d.time then
        d.onThm (fun y => { y with sects := tset y.sects k { x with throttle := x.throttle + 1, steppedAt := d.time } })
      else d
    else d.onThm (fun y => { y with sects := tset y.sects k { x with cool := false } })
  if hot < tt - 8 ∧ (d'.thmSect k).throttle = 64 then
    d'.modReg rThmStatus (fun w => w &&& BitVec.ofNat 64 (2 ^ 64 - 1 - 2 ^ k))
  else d'

/-- The rise responses of sector k, whose steepest working monitor rises by `rise` quarter degrees in 1 ms: RISE_WARN at
1.5 °C/ms, RISE_ACT at 4.0 °C/ms (Table 13-8). -/
def Dev.riseStep (d : Dev) (k : Nat) (rise : Int) : Dev :=
  let x := d.thmSect k
  let warn : Bool := 6 ≤ rise
  let act : Bool := 16 ≤ rise
  let x := if warn then { x with warnAt := d.time } else x
  let past := !warn && x.warnAt + 1000000 ≤ d.time
  let lim := d.computeLim k (d.computeHold k)
  let x := if warn ∧ x.freeze.isNone then { x with freeze := some lim } else if past then { x with freeze := none, act := false } else x
  let x := if act then { x with act := true } else x
  let was := d.thmSect k
  let d := d.onThm (fun y => { y with sects := tset y.sects k x })
  let bits := (if x.act then 2 ^ (8 + k) else 0) + (if x.freeze.isSome then 2 ^ (16 + k) else 0)
  let d := d.modReg rThmStatus (fun w =>
    (w &&& BitVec.ofNat 64 (2 ^ 64 - 1 - 2 ^ (8 + k) - 2 ^ (16 + k))) ||| BitVec.ofNat 64 bits)
  let d := if x.freeze.isSome ∧ was.freeze.isNone then d.raise pgThm 2 else d
  if x.act ∧ !was.act then d.raise pgThm 4 else d

/-- The responses of every sector (R389). -/
def Dev.thermalResponses (d : Dev) : Dev :=
  (List.range 6).foldl (fun d k =>
    let ms := (d.working.filter (fun n => n / 12 == k)).map d.mon
    if ms.isEmpty then d
    else (d.throttleStep k (maxInt (-2048) (ms.map Mon.last))).riseStep k (maxInt (-2048) (ms.map Mon.rise))) d

/-- The junction temperature and the sensor that shows it: the highest reading among the diode and the working monitors
(R386); 72 stands for the diode. -/
def Dev.junction (d : Dev) : Option (Int × Nat) :=
  let dio : List (Int × Nat) :=
    if d.getF rThmDiode fThmDiode_Fail = 1 then [] else [(signed 12 (d.getF rThmDiode fThmDiode_Temp), 72)]
  let all := d.working.map (fun n => ((d.mon n).last, n)) ++ dio
  all.foldl (fun best x =>
    match best with
    | none => some x
    | some b => if b.1 < x.1 then some x else some b) none

/-- THM_HOT and THM_MAX take the junction temperature. -/
def Dev.showJunction (d : Dev) (j : Int × Nat) : Dev :=
  let hot := if j.2 = 72 then atBit 19 1 else atBit 12 (j.2 / 12) + atBit 15 (j.2 % 12)
  let d := d.setReg rThmHot (BitVec.ofNat 64 (fieldOf 12 j.1 + hot))
  if signed 12 (d.getF rThmMax fThmMax_Max) < j.1 then d.putF rThmMax fThmMax_Max (fieldOf 12 j.1) else d

/-- Whether R388 calls for a trip: the diode failed and all 12 monitors of a sector failed. -/
def Dev.sensorTrip (d : Dev) : Bool :=
  d.getF rThmDiode fThmDiode_Fail == 1
    && (List.range 6).any (fun k => (List.range 12).all (fun m => d.monFailed (12 * k + m)))

/-- The hottest sensor and its reading, as a THERMAL_TRIP record names them; free where no sensor works (log entry 78). -/
def Dev.hottestSensor (d : Dev) : List Nat :=
  match d.junction with
  | some j => [j.2, fieldOf 12 j.1]
  | none => [Config.freeWord d.free, Config.freeWord (d.free + 1)]

/-- THERMAL_SAMPLE: every working sensor is sampled (R386), failures found (R388), responses (R389) and trips (R390)
follow. The AON sensor hub runs in every state but HALTED and the end of a save. -/
def Dev.thermalSample (d : Dev) (i : Ident) (diode : Reading) (counts : List (Nat × Int)) : Dev :=
  if !d.gan.up ∨ d.pstate = 6 then d
  else
    let ws := d.working
    let d := ws.foldl (fun d n =>
      match counts[n]? with
      | some (c, v) => d.sampleMon i n c v
      | none => d) d
    let d := (ws.filter (fun n => !d.monFailed n)).foldl (fun d n => d.checkApart n) d
    let d := d.sampleDiode diode
    let d := match d.junction with
      | some j => d.showJunction j
      | none => d
    let d := d.thermalResponses
    if d.sensorTrip then { d with free := d.free + 2 }.thermalTrip 3 d.hottestSensor
    else
      match d.junction with
      | some j => if 472 ≤ j.1 then d.thermalTrip 1 d.hottestSensor else d
      | none => d

/-- RECALIBRATION: the calibration point is taken against the diode, at the power-on self-test or after 10 ms below 10 % of
the cap; a failed diode freezes it (R387, R388). -/
def Dev.recalibrate (d : Dev) (diode : Reading) (counts : List (Nat × Int)) : Dev :=
  let due := d.hif.phase == .training ||
    (match d.thm.lowPowerSince with
      | some t => decide (t + 10000000 ≤ d.time)
      | none => false)
  if d.getF rThmDiode fThmDiode_Fail = 1 ∨ diode.bad ∨ !due then d
  else
    d.working.foldl (fun d n =>
      match counts[n]? with
      | some cv => d.onThm (fun x => { x with
          mons := tmod x.mons {} n (fun m => { m with nCal := (cv.1 : Int), vCal := cv.2, tCal := diode.temp }) })
      | none => d) d

/-! ## Stack temperature (R211) -/

/-- The refresh band a temperature reaches (Table 7-11). -/
def bandOf (t : Nat) : Nat := if t < 340 then 0 else if t < 380 then 1 else 2

/-- The threshold at which a band begins. -/
def bandStart (b : Nat) : Nat := if b = 0 then 0 else if b = 1 then 340 else 380

/-- The reading of a stack sensor: 110 °C when it fails its plausibility check (R211). -/
def stackReading (r : Reading) : Nat := if r.bad then 440 else r.temp.toNat

/-- The highest of a list of readings with the sensor that shows it, the lowest-numbered among equals. -/
def hottest (ts : List Nat) : Nat × Nat :=
  ((List.range ts.length).map (fun i => (ts.getD i 0, i))).foldl (fun b x => if b.1 < x.1 then x else b) (ts.headD 0, 0)

/-- STACK_TEMP_SAMPLE: temperature, band, TEMP_CRIT, SENSOR_FAIL and the STACK trip (R211, R390). -/
def Dev.stackTempSample (d : Dev) (n : Nat) (readings : List Reading) : Dev :=
  if readings.isEmpty then d
  else
    let bad := readings.any (fun r => r.bad)
    let h := hottest (readings.map stackReading)
    let t := min h.1 1023
    let old := d.getF (rCsTemp n) fCsTemp_Band
    let below := if t + 12 ≤ bandStart old then (d.stackSt n).below + 1 else 0
    let band := if old < bandOf t then bandOf t else if 10 ≤ below then old - 1 else old
    let below := if band ≠ old then 0 else below
    let hot := if 460 ≤ t then (d.stackSt n).hot + 1 else 0
    let wasBad := d.getF (rCsTemp n) fCsTemp_SensorFail = 1
    let d := d.modStack n (fun s => { s with below := below, hot := hot })
    let d := d.setReg (rCsTemp n) (BitVec.ofNat 64 (t + atBit 10 band + atBit 12 (if bad then 1 else 0) + atBit 13 h.2))
    let d := d.putF (rCsTempMax n) fCsTempMax_Max (max t (d.getF (rCsTempMax n) fCsTempMax_Max))
    let bits := (if old < band then 1 else 0) + (if 420 ≤ t then 2 else 0) + (if bad ∧ !wasBad then 4 else 0)
    let d := if bits = 0 then d else d.raise (pgCs0 n) bits
    if 10 ≤ hot then d.thermalTrip 2 [100 + n, t] else d

end Sys2Proof.Machine
end

