-- ==== Sys2Proof/Machine/RegRead.lean ====
section
/-! DEFINITION. Reads of BAR0: what a register shows (fields that the device derives from its state), the views of a VF, and the
words latched by low-word reads (00_scope.md R5, R6, R9; 16_register_pages.md R444, R451 to R454). -/

namespace Sys2Proof.Machine

/-! ## What a register shows -/

/-- BLK_ID of a page (Table 16-2). -/
def blkId (t k j : Nat) : Nat := t + atBit 8 k + atBit 16 j + atBit 24 1

/-- BLK_STATUS of a page (Table 16-4). -/
def Dev.blkStatus (d : Dev) (t k j : Nat) : Nat :=
  let b (i : Nat) (c : Bool) : Nat := if c then 2 ^ i else 0
  if t = 3 then
    b 0 (d.isLive k) + b 1 (d.unitGone .sector k) + b 2 (d.sectPart k < 6 && d.inReset (d.sectPart k)) + atBit 8 (d.sectPart k)
  else if t = 4 then
    b 1 (d.unitGone .stack k) + b 2 (d.stackPart k < 6 && d.inReset (d.stackPart k)) + atBit 8 (d.stackPart k)
  else if t = 5 ∧ j ≠ 0 then b 1 (d.unitGone .link (j - 1) || d.linkState (j - 1) == 5) + atBit 8 7
  else atBit 8 7

/-- A register of the common header as function f reads it. -/
def Dev.readHeader (d : Dev) (f page t k j o : Nat) : Nat :=
  if o = 0x00 then blkId t k j
  else if o = 0x0C then d.blkStatus t k j
  else if o = 0x10 ∨ o = 0x14 then (d.reg (page + o) &&& BitVec.ofNat 64 (d.ownBits page f)).toNat
  else if o = 0x1C then (d.reg (page + o)).toNat
  else 0

/-- CQ_Q_STATE of queue q (Table 5-12). -/
def Dev.queueState (d : Dev) (q : Nat) : Nat :=
  d.waitCode q + atBit 16 (min 511 (d.cq.cmds.filter (fun x => x.queue == q && !x.serving)).length)

/-- CQ_HOLD_FREE: completion entries free on the device. -/
def Dev.holdFree (d : Dev) : Nat := 256 - ([0, 1, 2, 3, 4, 5, 7].map d.entriesUsed).foldl (· + ·) 0

/-- A register of the CQ block, where the device derives it. -/
def Dev.readCq (d : Dev) (j o : Nat) : Option Nat :=
  if j = 0 then some d.holdFree
  else if j ≤ 4 then
    let q := 32 * (j - 1) + (o - 0x200) / 0x40
    if o % 0x40 = 0x08 then some (d.credit q) else if o % 0x40 = 0x28 then some (d.queueState q) else none
  else
    let r := 32 * (j - 5) + (o - 0x200) / 0x40
    if o % 0x40 = 0x18 then some (d.cq.ready.filter (fun x => x.ring == r && x.held)).length else none

/-- SECT_PART_STATUS of the partition whose live page is sector k's. -/
def Dev.partStatus (d : Dev) (k : Nat) : Nat :=
  let p := d.sectPart k
  let n := (d.sectorsOf p).length
  1 + (if d.quiet p then 2 else 0) + (if d.inReset p then 4 else 0) + atBit 3 n
    + (d.reg (rSectPartStatus k)).toNat / 256 * 256

/-- CS_HEN_BUSY and CS_HEN_PEND of stack n: the queue holds at most 256 operations (R199). -/
def Dev.henBusyBits (d : Dev) (n : Nat) : Nat :=
  ((List.range 32).filter (d.henBusy n)).foldl (fun m p => m + 2 ^ p) 0

def Dev.henPend (d : Dev) (n : Nat) : Nat := min 256 (d.pendingAt n).length

/-- The delta versions in use. -/
def Dev.versionsUsed (d : Dev) : Nat := (d.srv.versions.filter (fun x => x.2.state != .free)).length

/-- SRV_ADM_CADENCE: C by the parameters that stand (R223). -/
def Dev.cadenceShown (d : Dev) (p : Nat) : Nat := fitTo 32 (d.cadence p)

/-- A register of SRV page j that is derived, or kept by function. -/
def Dev.readSrv (d : Dev) (f j o : Nat) : Option Nat :=
  let rt := tget d.srv.rtCopy [] f
  let dl := tget d.srv.deltaCopy [] f
  if j = 0 then
    if o = 0x40 then some (16384 - (d.srv.entries.filter (fun e => e.2.occupied)).length)
    else if o = 0x48 then some (rt.headD 0).toNat
    else if 0x80 ≤ o ∧ o < 0xC0 then some (rt.getD (1 + (o - 0x80) / 4) 0).toNat
    else if 0x100 ≤ o ∧ o < 0xE00 then
      let p := (o - 0x100) / 0x80
      let g := (o - 0x100) % 0x80
      if g = 0x24 then some (d.cadenceShown p) else if g = 0x2C then some (d.liveCount p) else none
    else none
  else if j = 7 then
    let s := (o - 0x100) / 0x40
    if (o - 0x100) % 0x40 = 0x04 then some (d.slotState s + atBit 4 (d.slotLive s)) else none
  else if j = 8 then
    let p := (o - 0x100) / 0x80
    let g := (o - 0x100) % 0x80
    if g = 0x30 then some (d.nodesUsed p)
    else if g = 0x34 then
      some ((d.srv.nodes.filter (fun n => n.2.part == p)).foldl (fun m n => m + n.2.pages.length) 0)
    else none
  else if j = 9 then
    if o = 0x40 then some (dl.headD 0).toNat
    else if o = 0x44 then some (4096 - d.versionsUsed)
    else if o = 0x48 then some (dl.getD 1 0).toNat
    else if o = 0x4C then some (dl.getD 2 0).toNat
    else if o = 0x50 then some (dl.getD 3 0).toNat
    else if o = 0x58 then some (dl.getD 4 0).toNat
    else none
  else none

/-- THM_MON_DATA of the monitor selected. -/
def Dev.monData (d : Dev) : Nat :=
  let k := d.getF rThmMonSel fThmMonSel_Sect
  let m := d.getF rThmMonSel fThmMonSel_Mon
  if 6 ≤ k ∨ 12 ≤ m then 0
  else
    let x := d.mon (12 * k + m)
    fieldOf 12 x.last + (if d.monFailed (12 * k + m) then 2 ^ 12 else 0) + atBit 16 (fieldOf 8 (openDivInt 7 (5 * x.rise) 2))

/-- RAS_UNIT_STATE of the unit selected. -/
def Dev.unitShown (d : Dev) : Nat :=
  match d.selUnit with
  | none => 0
  | some u => let x := d.unit u; x.state % 4 + atBit 2 (x.reason % 16) + (if x.persisted then 64 else 0)

/-- The suspect selected. -/
def Dev.suspShown (d : Dev) : Option Suspect :=
  (d.part (d.getF rRasSuspSel fRasSuspSel_Part)).suspects[d.getF rRasSuspSel fRasSuspSel_Index]?

/-- A derived register of the RAS page. -/
def Dev.readRas (d : Dev) (a : Nat) : Option Nat :=
  if a = rRasUnitState then some d.unitShown
  else if a = rRasSuspData then
    some (match d.suspShown with
      | none => 0
      | some s => s.ctx + atBit 4 (if s.serving then 0 else s.queue) + (if s.serving then 2 ^ 11 else 0) + atBit 12 s.outcome
          + atBit 16 s.status.toNat + atBit 24 s.opcode)
  else if a = rRasSuspSeq then some (match d.suspShown with | none => 0 | some s => s.seq)
  else if a = rRasSuspEng then
    some (match d.suspShown with | none => 0 | some s => kindCode s.engine.kind + atBit 4 s.engine.index)
  else none

/-- A derived register of the MGMT page: the newest SEQ, and the response buffer. -/
def Dev.readMgmt (d : Dev) (a o : Nat) : Option Nat :=
  if a = rMgmtLog then some d.gan.logSeq
  else if 0x400 ≤ o ∧ o < 0x800 then some (leNat (byteSlice d.gan.respBuf (o - 0x400) 4))
  else none

/-- The whole register at `a` as function f reads it, before its view. -/
def State.regShown (s : State) (f a : Nat) : Nat :=
  let d := s.dev
  let o := a % 4096
  let held := (d.reg a).toNat
  match pageInfo (pageOf a) with
  | none => 0
  | some (t, k, j, _) =>
    if o < 0x40 then d.readHeader f (pageOf a) t k j o
    else if t = 0 then (if a = rDevTime then d.time % 2 ^ 64 else held)
    else if t = 2 then (d.readCq j o).getD held
    else if t = 3 then (if j = 1 ∧ o = 0x204 then d.partStatus k else held)
    else if t = 4 then
      if a = rCsState k then held % 16 + atBit 4 (d.stackPart k)
      else if a = rCsHenBusy k then d.henBusyBits k
      else if a = rCsHenPend k then d.henPend k
      else held
    else if t = 6 then (d.readSrv f j o).getD held
    else if t = 7 then
      if a = rPwrState then held % 2 ^ 4 + (if s.pads.held then 16 else 0) + held / 32 * 32
      else if a = rPwrLowCnt then s.pads.lull.toNat + atBit 16 s.pads.fallow.toNat
      else if a = rPwrReleaseCnt then s.pads.release.toNat
      else held
    else if t = 8 then (if a = rThmMonData then d.monData else held)
    else if t = 9 then (d.readRas a).getD held
    else if t = 10 then (d.readMgmt a o).getD held
    else held

/-- The register at `a` as function f reads it: zero outside its view (R9, R324). -/
def State.readReg (s : State) (f a : Nat) : Nat :=
  match findReg a with
  | none => 0
  | some (r, _) => if (s.dev.view f a).1 then s.regShown f a % 2 ^ (8 * r.size) else 0

/-! ## Reads of words -/

/-- The 64-bit counters that a low-word read latches (R5, R454, and the field maps of these registers). -/
def isLatched (a : Nat) : Bool :=
  a == rDevTime || a == rFabBeat || a == rHifAbortLast
    || (List.range 12).any (fun n => a == rCsHenOps n || (List.range 32).any (fun i => a == rCsErrLogTime n i))

def latchKey (f a : Nat) : Nat := f * 2 ^ 26 + a

/-- A word of function f's MSI-X table or PBA. -/
def Dev.msixRead (d : Dev) (f o : Nat) : Nat :=
  if o < 1024 then
    let e := d.vector f (o / 16)
    match o / 4 % 4 with
    | 0 => e.addr % 2 ^ 32
    | 1 => e.addr / 2 ^ 32
    | 2 => e.data
    | _ => if e.masked then 1 else 0
  else if 0x8000 ≤ o ∧ o < 0x8008 then
    ((List.range 32).filter (fun i => (d.vector f (8 * (o - 0x8000) + i)).pend)).foldl (fun m i => m + 2 ^ i) 0
  else 0

/-- A 4-byte read of function f at BAR0 offset `off`: the word, and the state with what the read latches. -/
def State.wordRead (s : State) (f off : Nat) : State × Nat :=
  if off % 4 ≠ 0 then (s.onDev (fun d => d.blkErr pgHif), 0)
  else if msixTable ≤ off ∧ off < msixTable + 0x1_0000 then (s, s.dev.msixRead f (off - msixTable))
  else
    match findReg off with
    | none => (s, 0)
    | some (_, a) =>
      let w := s.readReg f a
      if off = a then
        (if isLatched a then s.onDev (fun d => { d with latched := tset d.latched (latchKey f a) (a, w / 2 ^ 32) }) else s,
         w % 2 ^ 32)
      else
        match tfind s.dev.latched (latchKey f a) with
        | some x => (s.onDev (fun d => { d with latched := tdel d.latched (latchKey f a) }), x.2)
        | none => (s, w / 2 ^ 32)

/-- An 8-byte read of function f at BAR0 offset `off`: a 64-bit register at one instant (R5), two words of the MSI-X table, or
zero; one that takes in 32-bit registers crosses a register (R425). -/
def State.wholeRead (s : State) (f off : Nat) : State × Nat :=
  let crossing : State × Nat := (s.onDev (fun d => d.blkErr pgHif), 0)
  if off % 8 ≠ 0 then crossing
  else if msixTable ≤ off ∧ off < msixTable + 0x1_0000 then
    (s, s.dev.msixRead f (off - msixTable) + 2 ^ 32 * s.dev.msixRead f (off + 4 - msixTable))
  else
    match findReg off with
    | none => if (findReg (off + 4)).isSome then crossing else (s, 0)
    | some (r, a) => if r.size = 8 then (s, s.readReg f a) else crossing

/-- LOW_WORD_READ: function f reads `size` bytes at BAR0 offset `off`; sizes other than 4 and 8 break R5 (R425). -/
def State.lowWordRead (s : State) (f off size : Nat) : State :=
  if !s.dev.ready then s
  else if !s.dev.fnServes f then s.onDev (fun d => d.unsupported f true)
  else if !s.dev.bar0Open f off then s.onDev (fun d => d.sendOut (.readData f (zeros size) false 0))
  else
    let x := if size = 8 then s.wholeRead f off
      else if size = 4 then s.wordRead f off else (s.onDev (fun d => d.blkErr pgHif), 0)
    x.1.onDev (fun d => d.sendOut (.readData f (leBytes size x.2) false 0))

end Sys2Proof.Machine
end

