-- ==== Sys2Proof/Machine/ExecMore.lean ====
section
/-! DEFINITION. The commands that stand last in the opcode table. One meaning for each row: what the
row does is the operation it calls. -/

namespace Sys2Proof.Machine

/-- PERST_N_RISE (R434). -/
def execPerstNRise (s : State) : Host.Outcome State Fault Refusal :=
  .next (s.perstRises)

/-- WAKE_N_RELEASE (R437). -/
def execWakeNRelease (s : State) : Host.Outcome State Fault Refusal :=
  .next (s.onDev (fun d => d.wakeNRelease))

/-- BEND_SEND (R289). -/
def execBendSend (i : LinkId) (s : State) : Host.Outcome State Fault Refusal :=
  .next (s.onDev (fun d => d.bendSend i))

/-- GANDER_LINK_MESSAGE (R375). -/
def execGanderLinkMessage (i : LinkId) (s : State) : Host.Outcome State Fault Refusal :=
  .next (s.onDev (fun d => d.ganderLinkMessage i))

/-- PCI_CONFIG_WRITE (R428). -/
def execPciConfigWrite (f : Func) (reg : CfgReg) (v : Nat) (s : State) : Host.Outcome State Fault Refusal :=
  .next (s.onDev (fun d => d.configWrite f reg v))

/-- LOW_WORD_READ (R5, R454). -/
def execLowWordRead (f : Func) (r : RegSpan) (s : State) : Host.Outcome State Fault Refusal :=
  .next (s.lowWordRead f r.off r.size)

/-- IDE_KM (R430). -/
def execIdeKm (b : Binding) (session : Nat) (keySet : Bool) (switch : Bool) (s : State) : Host.Outcome State Fault Refusal :=
  .next (s.onDev (fun d => d.ideKm b session keySet switch))

/-- PLDM_PLATFORM_MONITORING (R410). -/
def execPldmPlatformMonitoring (b : Binding) (sensor : Nat) (s : State) : Host.Outcome State Fault Refusal :=
  .next (s.onDev (fun d => d.pldmPlatformMonitoring b sensor))

/-- PLDM_BASE_DISCOVERY (R410). -/
def execPldmBaseDiscovery (b : Binding) (s : State) : Host.Outcome State Fault Refusal :=
  .next (s.onDev (fun d => d.pldmBaseDiscovery b))

/-- I3C_DYNAMIC_ADDRESS (R410). -/
def execI3cDynamicAddress (addr : BitVec 7) (s : State) : Host.Outcome State Fault Refusal :=
  .next (s.onDev (fun d => d.i3cDynamicAddress addr))

/-- STACK_RETRAIN_DONE (R342). -/
def execStackRetrainDone (n : StackId) (s : State) : Host.Outcome State Fault Refusal :=
  .next (s.onDev (fun d => d.stackRetrainDone n))

end Sys2Proof.Machine
end

