-- ==== Sys2Proof/Machine/ExecPart.lean ====
section
/-! DEFINITION. The commands of partitions, resets and functions (11_partitions_and_virtual_functions.md; 12_faults_and_recovery.md). One meaning for each row: what the
row does is the operation it calls. -/

namespace Sys2Proof.Machine

/-- An FLR reaches a VF that is present, once requests are received (R323, R335, R435). -/
def Dev.onVf (d : Dev) (v : Nat) (k : Dev → Dev) : Dev :=
  if d.ready ∧ d.hif.vfEnable ∧ v ≤ d.hif.numVfs then k d else d

/-- SECT_PART_LAYOUT (R315). -/
def execSectPartLayout (f : Func) (v : W32) (s : State) : Host.Outcome State Fault Refusal :=
  .next (s.reg32 f rSectPartLayout v)

/-- LAYOUT_DONE (R316). -/
def execLayoutDone (s : State) : Host.Outcome State Fault Refusal :=
  .next (s.onDev (fun d => d.layoutDone))

/-- PARTITION_RESET (R332). -/
def execPartitionReset (p : PartId) (s : State) : Host.Outcome State Fault Refusal :=
  .next (if s.dev.partExists p then s.reg32 0 (rSectPartCtrl (s.dev.liveSect p)) 1 else s)

/-- RESET_RETRAIN_DONE (R358). -/
def execResetRetrainDone (p : PartId) (failed : List UnitId) (s : State) : Host.Outcome State Fault Refusal :=
  .next (s.onDev (fun d => d.phaseFourEnds p failed))

/-- STACK_READY_TIMEOUT (R358). -/
def execStackReadyTimeout (n : StackId) (s : State) : Host.Outcome State Fault Refusal :=
  .next (s.onDev (fun d => d.stackReadyTimeout n))

/-- SUSPECT_REPLAY (R356). -/
def execSuspectReplay (p : PartId) (status : Byte) (hung : List UnitId) (s : State) : Host.Outcome State Fault Refusal :=
  .next (s.onDev (fun d => d.replayEnds p status hung))

/-- RESET_END (R358). -/
def execResetEnd (p : PartId) (s : State) : Host.Outcome State Fault Refusal :=
  .next (s.onDev (fun d => d.resetEnd p))

/-- SLICE_BOUNDARY (R320). -/
def execSliceBoundary (p : PartId) (s : State) : Host.Outcome State Fault Refusal :=
  .next (s.onDev (fun d => d.sliceBoundary p))

/-- SECT_SLICE_CTRL (R320). -/
def execSectSliceCtrl (f : Func) (k : SectId) (v : W32) (s : State) : Host.Outcome State Fault Refusal :=
  .next (s.reg32 f (rSectSliceCtrl k) v)

/-- VF_FLR (R333). -/
def execVfFlr (v : Func) (s : State) : Host.Outcome State Fault Refusal :=
  .next (s.onDev (fun d => d.onVf v (fun d => d.vfFlr v)))

/-- VF_FLR_ESCALATE (R334). -/
def execVfFlrEscalate (v : Func) (s : State) : Host.Outcome State Fault Refusal :=
  .next (s.onDev (fun d => d.onVf v (fun d => d.vfFlrEscalate v)))

/-- PF_FLR (R335). -/
def execPfFlr (s : State) : Host.Outcome State Fault Refusal :=
  .next (s.onDev (fun d => if d.ready then d.pfFlr.wakeSource 7 else d))

/-- BLK_INT_FORCE (R445). -/
def execBlkIntForce (f : Func) (page : Nat) (v : W32) (s : State) : Host.Outcome State Fault Refusal :=
  .next (s.reg32 f (page + 0x18) v)

/-- ERR_CLR (R446). -/
def execErrClr (f : Func) (page : Nat) (v : W32) (s : State) : Host.Outcome State Fault Refusal :=
  .next (s.reg32 f (page + 0x8) v)

/-- REGISTER_WRITE (R447). -/
def execRegisterWrite (f : Func) (off : Nat) (size : Nat) (v : W64) (s : State) : Host.Outcome State Fault Refusal :=
  .next (s.regWrite f off size v)

end Sys2Proof.Machine
end

