-- ==== Sys2Proof/Machine/ExecPower.lean ====
section
/-! DEFINITION. The commands of power, clocks and temperature (13_power_clocks_thermal.md). One meaning for each row: what the
row does is the operation it calls. -/

namespace Sys2Proof.Machine

/-- ENTERED (R371). -/
def execEntered (s : State) : Host.Outcome State Fault Refusal :=
  .next (s.onDev (fun d => d.entered))

/-- WAKE (R375). -/
def execWake (f : Func) (v : W32) (s : State) : Host.Outcome State Fault Refusal :=
  .next (s.reg32 f rPwrCtrl v)

/-- WAKE_DONE (R375). -/
def execWakeDone (failed : List UnitId) (s : State) : Host.Outcome State Fault Refusal :=
  .next (s.onDev (fun d => d.wakeDone s.pads.held failed))

/-- PAD_RELEASE (R376). -/
def execPadRelease (f : Func) (v : W32) (s : State) : Host.Outcome State Fault Refusal :=
  .next (s.reg32 f rPwrCtrl v)

/-- SHUTDOWN (R391). -/
def execShutdown (f : Func) (v : W32) (s : State) : Host.Outcome State Fault Refusal :=
  .next (s.reg32 f rPwrCtrl v)

/-- SUPPLY_SAG (R392). -/
def execSupplySag (s : State) : Host.Outcome State Fault Refusal :=
  .next (s.onDev (fun d => d.supplySag))

/-- SAVE_END (R392). -/
def execSaveEnd (s : State) : Host.Outcome State Fault Refusal :=
  .next (s.onDev (fun d => d.saveEnd))

/-- THERMAL_SAMPLE (R386). -/
def execThermalSample (diode : Reading) (monitors : List (Nat × Int)) (s : State) : Host.Outcome State Fault Refusal :=
  .next (s.onDev (fun d => d.thermalSample s.ident diode monitors))

/-- RECALIBRATION (R387). -/
def execRecalibration (diode : Reading) (monitors : List (Nat × Int)) (s : State) : Host.Outcome State Fault Refusal :=
  .next (s.onDev (fun d => d.recalibrate diode monitors))

/-- POWER_SAMPLE (R379). -/
def execPowerSample (package : Nat) (rails : List Nat) (s : State) : Host.Outcome State Fault Refusal :=
  .next (s.onDev (fun d => d.powerSample package rails))

/-- RATE_UPDATE (R381). -/
def execRateUpdate (s : State) : Host.Outcome State Fault Refusal :=
  .next (s.onDev (fun d => d.rateUpdate))

/-- DROOP (R384). -/
def execDroop (k : SectId) (mv : Nat) (s : State) : Host.Outcome State Fault Refusal :=
  .next (s.onDev (fun d => d.droop k mv))

/-- DROOP_HOLD_EXPIRY (R384). -/
def execDroopHoldExpiry (k : SectId) (ns : Nat) (s : State) : Host.Outcome State Fault Refusal :=
  .next (s.onDev (fun d => d.droopHoldExpiry k ns))

/-- SECTOR_CLOCK_OFF (R367). -/
def execSectorClockOff (k : SectId) (s : State) : Host.Outcome State Fault Refusal :=
  .next (s.onDev (fun d => d.sectorClockOff k))

/-- SECTOR_WAKE (R367). -/
def execSectorWake (k : SectId) (s : State) : Host.Outcome State Fault Refusal :=
  .next (s.onDev (fun d => d.sectorWake k))

/-- PWR_CLK (R369). -/
def execPwrClk (f : Func) (v : W32) (s : State) : Host.Outcome State Fault Refusal :=
  .next (s.reg32 f rPwrClk v)

/-- CLOCK_SWITCH (R369). -/
def execClockSwitch (s : State) : Host.Outcome State Fault Refusal :=
  .next (s.onDev (fun d => d.clockSwitch))

/-- PWR_PHASE_SEL (R451). -/
def execPwrPhaseSel (f : Func) (v : W32) (s : State) : Host.Outcome State Fault Refusal :=
  .next (s.reg32 f rPwrPhaseSel v)

/-- PWR_PHASE_CLEAR (R383). -/
def execPwrPhaseClear (f : Func) (v : W32) (s : State) : Host.Outcome State Fault Refusal :=
  .next (s.reg32 f rPwrPhaseSel v)

/-- PWR_POWER_CLR (R395). -/
def execPwrPowerClr (f : Func) (v : W32) (s : State) : Host.Outcome State Fault Refusal :=
  .next (s.reg32 f rPwrPower v)

/-- THM_MON_SEL (R451). -/
def execThmMonSel (f : Func) (v : W32) (s : State) : Host.Outcome State Fault Refusal :=
  .next (s.reg32 f rThmMonSel v)

/-- THM_MAX_CLR (R396). -/
def execThmMaxClr (f : Func) (v : W32) (s : State) : Host.Outcome State Fault Refusal :=
  .next (s.reg32 f rThmMax v)

end Sys2Proof.Machine
end

