-- ==== Sys2Proof/Machine/ExecQueue.lean ====
section
/-! DEFINITION. The commands of queues, rings and the command processor (05_command_queues.md and the chapters its opcodes name). One meaning for each row: what the
row does is the operation it calls. -/

namespace Sys2Proof.Machine

/-- QUEUE_RECORD_WRITE (R131). -/
def execQueueRecordWrite (f : Func) (off : Nat) (data : List Byte) (s : State) : Host.Outcome State Fault Refusal :=
  .next (s.onDev (fun d => d.received f false (fun d => d.queueWrite f off data)))

/-- NOP (R136). -/
def execNop (q : QueueId) (s : State) : Host.Outcome State Fault Refusal :=
  .next (s.onDev (fun d => d.nop q))

/-- RUN_PROGRAM (R84). -/
def execRunProgram (q : QueueId) (s : State) : Host.Outcome State Fault Refusal :=
  .next (s.onDev (fun d => d.runProgram q))

/-- COPY (R138). -/
def execCopy (q : QueueId) (s : State) : Host.Outcome State Fault Refusal :=
  .next (s.onDev (fun d => d.copy q))

/-- LIB_LOAD (R119). -/
def execLibLoad (q : QueueId) (s : State) : Host.Outcome State Fault Refusal :=
  .next (s.onDev (fun d => d.libLoad q))

/-- LIB_LOAD_VERIFY (R118). -/
def execLibLoadVerify (c : Nat) (s : State) : Host.Outcome State Fault Refusal :=
  .next (s.onDev (fun d => d.libLoadVerify c))

/-- MODEL_LOAD (R262). -/
def execModelLoad (q : QueueId) (s : State) : Host.Outcome State Fault Refusal :=
  .next (s.onDev (fun d => d.modelLoad q))

/-- MODEL_LOAD_CHECK (R262). -/
def execModelLoadCheck (c : Nat) (s : State) : Host.Outcome State Fault Refusal :=
  .next (s.onDev (fun d => d.modelLoadCheck c))

/-- MODEL_EVICT (R264). -/
def execModelEvict (q : QueueId) (s : State) : Host.Outcome State Fault Refusal :=
  .next (s.onDev (fun d => d.modelEvict q))

/-- SLOT_EVICTED (R261). -/
def execSlotEvicted (s2 : SlotId) (s : State) : Host.Outcome State Fault Refusal :=
  .next (s.onDev (fun d => d.slotEvicted s2))

/-- DELTA_PUT (R269). -/
def execDeltaPut (q : QueueId) (s : State) : Host.Outcome State Fault Refusal :=
  .next (s.onDev (fun d => d.deltaPut q))

/-- DELTA_PUT_CHECK (R269). -/
def execDeltaPutCheck (c : Nat) (s : State) : Host.Outcome State Fault Refusal :=
  .next (s.onDev (fun d => d.deltaPutCheck c))

/-- DELTA_RETIRE (R271). -/
def execDeltaRetire (q : QueueId) (s : State) : Host.Outcome State Fault Refusal :=
  .next (s.onDev (fun d => d.deltaRetire q))

/-- ADAPT_STEP (R273). -/
def execAdaptStep (q : QueueId) (s : State) : Host.Outcome State Fault Refusal :=
  .next (s.onDev (fun d => d.adaptStep q))

/-- PAGE_RETIRE (R349). -/
def execPageRetire (q : QueueId) (s : State) : Host.Outcome State Fault Refusal :=
  .next (s.onDev (fun d => d.pageRetire q))

/-- POWER_STATE (R371). -/
def execPowerState (q : QueueId) (s : State) : Host.Outcome State Fault Refusal :=
  .next (s.powerState q)

/-- FENCE_EPOCH (R305). -/
def execFenceEpoch (q : QueueId) (s : State) : Host.Outcome State Fault Refusal :=
  .next (s.onDev (fun d => d.fenceEpoch q))

/-- EPOCH_IMAGE_CHECK (R295). -/
def execEpochImageCheck (c : Nat) (s : State) : Host.Outcome State Fault Refusal :=
  .next (s.onDev (fun d => d.epochImageCheck c))

/-- EPOCH_COMMIT (R305). -/
def execEpochCommit (s : State) : Host.Outcome State Fault Refusal :=
  .next (s.onDev (fun d => d.epochCommit))

/-- COMMAND_COMPLETE (R157). -/
def execCommandComplete (c : Nat) (s : State) : Host.Outcome State Fault Refusal :=
  .next (s.onDev (fun d => d.commandComplete c))

/-- COMPLETION_RECORD_WRITE (R147). -/
def execCompletionRecordWrite (r : RingId) (s : State) : Host.Outcome State Fault Refusal :=
  .next (s.onDev (fun d => d.completionRecordWrite r))

/-- MODERATION_TIMER (R149). -/
def execModerationTimer (r : RingId) (s : State) : Host.Outcome State Fault Refusal :=
  .next (s.onDev (fun d => d.moderationTimer r))

/-- COMMAND_TIMEOUT (R144). -/
def execCommandTimeout (c : Nat) (s : State) : Host.Outcome State Fault Refusal :=
  .next (s.onDev (fun d => d.commandTimeout c))

/-- COMMAND_HANG (R144). -/
def execCommandHang (c : Nat) (hung : List UnitId) (s : State) : Host.Outcome State Fault Refusal :=
  .next (s.onDev (fun d => d.commandHang c hung))

/-- CQ_Q_CFG (R151). -/
def execCqQCfg (f : Func) (q : QueueId) (v : W32) (s : State) : Host.Outcome State Fault Refusal :=
  .next (s.reg32 f (rCqQCfg q) v)

/-- CQ_R_CFG (R151). -/
def execCqRCfg (f : Func) (r : RingId) (v : W32) (s : State) : Host.Outcome State Fault Refusal :=
  .next (s.reg32 f (rCqRCfg r) v)

/-- CQ_R_HEAD (R147). -/
def execCqRHead (f : Func) (r : RingId) (v : W32) (s : State) : Host.Outcome State Fault Refusal :=
  .next (s.reg32 f (rCqRHead r) v)

end Sys2Proof.Machine
end

