-- ==== Sys2Proof/Machine/ExecServing.lean ====
section
/-! DEFINITION. The commands of the serving engine (08_requests_and_promises.md; 09_attention_kv_and_variants.md). One meaning for each row: what the
row does is the operation it calls. -/

namespace Sys2Proof.Machine

/-- A read of the submission window. In recovery boot, where BAR2 is not decoded, it reads as zero (R402, R9). -/
def Dev.answerWindow (d : Dev) (f off len : Nat) : Dev :=
  if d.ready ∧ d.fnServes f ∧ d.recoveryBoot then d.sendOut (.readData f (zeros len) false 0)
  else d.received f true (fun d => d.answerRead f off len)

/-- SUBMIT (R224). -/
def execSubmit (f : Func) (off : Nat) (data : List Byte) (s : State) : Host.Outcome State Fault Refusal :=
  .next (s.onDev (fun d => d.submit f off data))

/-- CANCEL (R231). -/
def execCancel (f : Func) (off : Nat) (data : List Byte) (s : State) : Host.Outcome State Fault Refusal :=
  .next (s.onDev (fun d => d.cancel f off data))

/-- ANSWER_READ (R220). -/
def execAnswerRead (f : Func) (off : Nat) (len : Nat) (s : State) : Host.Outcome State Fault Refusal :=
  .next (s.onDev (fun d => d.answerWindow f off len))

/-- SETUP_DONE (R225). -/
def execSetupDone (e : EntryId) (s : State) : Host.Outcome State Fault Refusal :=
  .next (s.onDev (fun d => d.setupDone e))

/-- SERVING_CYCLE (R232). -/
def execServingCycle (p : PartId) (s : State) : Host.Outcome State Fault Refusal :=
  .next (s.onDev (fun d => d.servingCycle p))

/-- DECODE_STEP (R232). -/
def execDecodeStep (p : PartId) (s2 : SlotId) (results : List StepResult) (s : State) : Host.Outcome State Fault Refusal :=
  .next (s.onDev (fun d => d.decodeStep p s2 results))

/-- PREFILL_SLICE (R232). -/
def execPrefillSlice (p : PartId) (results : List SliceResult) (s : State) : Host.Outcome State Fault Refusal :=
  .next (s.onDev (fun d => d.prefillSlice p results))

/-- TOKEN_HANDOVER (R233). -/
def execTokenHandover (e : EntryId) (s : State) : Host.Outcome State Fault Refusal :=
  .next (s.onDev (fun d => d.tokenHandover e))

/-- REQUEST_RECORD_WRITE (R234). -/
def execRequestRecordWrite (e : EntryId) (s : State) : Host.Outcome State Fault Refusal :=
  .next (s.onDev (fun d => d.requestRecordWrite e))

/-- FLUSH (R255). -/
def execFlush (f : Func) (p : PartId) (v : W32) (s : State) : Host.Outcome State Fault Refusal :=
  .next (s.reg32 f (rSrvPfxCtrl p) v)

/-- SRV_ADM_PARAM_WRITE (R223). -/
def execSrvAdmParamWrite (f : Func) (off : Nat) (v : W32) (s : State) : Host.Outcome State Fault Refusal :=
  .next (s.reg32 f off v)

/-- SRV_ADM_POOL (R222). -/
def execSrvAdmPool (f : Func) (p : PartId) (v : W32) (s : State) : Host.Outcome State Fault Refusal :=
  .next (s.reg32 f (rSrvAdmPool p) v)

/-- SRV_RT_SEL (R451). -/
def execSrvRtSel (f : Func) (v : W32) (s : State) : Host.Outcome State Fault Refusal :=
  .next (s.reg32 f rSrvRtSel v)

/-- SRV_DELTA_SEL (R278). -/
def execSrvDeltaSel (f : Func) (v : W32) (s : State) : Host.Outcome State Fault Refusal :=
  .next (s.reg32 f rSrvDeltaSel v)

/-- SRV_LATE_MAX_CLR (R240). -/
def execSrvLateMaxClr (f : Func) (p : PartId) (v : W32) (s : State) : Host.Outcome State Fault Refusal :=
  .next (s.reg32 f (rSrvLateMax p) v)

end Sys2Proof.Machine
end

