-- ==== Sys2Proof/Machine/ExecStack.lean ====
section
/-! DEFINITION. The commands of BAR4, compute stacks and unit service (06, 07, 12). One meaning for each row: what the
row does is the operation it calls. -/

namespace Sys2Proof.Machine

/-- A BAR4 access of function f to `len` bytes at `off` before any stack sees it. In recovery boot the first 64 MiB alone
are decoded, for the PF, and every other offset reads as zero and discards writes (R402, R9); otherwise as `Dev.received`. -/
def Dev.bar4Access (d : Dev) (f off len : Nat) (read : Bool) (k : Dev → Dev) : Dev :=
  if d.ready ∧ d.fnServes f ∧ d.recoveryBoot then
    (if f = 0 ∧ off + len ≤ 0x400_0000 then k d else if read then d.sendOut (.readData f (zeros len) false 0) else d)
  else d.received f read k

/-- BAR4_READ (R173). -/
def execBar4Read (f : Func) (off : Nat) (len : Nat) (s : State) : Host.Outcome State Fault Refusal :=
  .next (s.onDev (fun d => d.bar4Access f off len true (fun d => d.bar4Read f off len)))

/-- BAR4_WRITE (R173). -/
def execBar4Write (f : Func) (off : Nat) (data : List Byte) (s : State) : Host.Outcome State Fault Refusal :=
  .next (s.onDev (fun d => d.bar4Access f off data.length false (fun d => d.bar4Write f off data)))

/-- WRITE_BUFFER_DRAIN (R153). -/
def execWriteBufferDrain (k : SectId) (gran : Nat) (s : State) : Host.Outcome State Fault Refusal :=
  .next (s.onDev (fun d => d.drainOne k gran))

/-- SERVICE_WINDOW (R202). -/
def execServiceWindow (n : StackId) (p : PcId) (s : State) : Host.Outcome State Fault Refusal :=
  .next (s.onDev (fun d => d.serviceWindow n p))

/-- REFRESH_PERIOD (R210). -/
def execRefreshPeriod (n : StackId) (p : PcId) (s : State) : Host.Outcome State Fault Refusal :=
  .next (s.onDev (fun d => d.refreshPeriod n p))

/-- STACK_TEMP_SAMPLE (R211). -/
def execStackTempSample (n : StackId) (readings : List Reading) (s : State) : Host.Outcome State Fault Refusal :=
  .next (s.onDev (fun d => d.stackTempSample n readings))

/-- BITMAP_CLEAR_DONE (R209). -/
def execBitmapClearDone (n : StackId) (s : State) : Host.Outcome State Fault Refusal :=
  .next (s.onDev (fun d => d.bitmapClearDone n))

/-- SCRUB_STEP (R345). -/
def execScrubStep (n : StackId) (p : PcId) (s : State) : Host.Outcome State Fault Refusal :=
  .next (s.onDev (fun d => d.scrubStep n p))

/-- CS_TEMP_MAX_CLR (R213). -/
def execCsTempMaxClr (f : Func) (n : StackId) (v : W32) (s : State) : Host.Outcome State Fault Refusal :=
  .next (s.reg32 f (rCsTempMax n) v)

/-- CS_WIN_WAIT_CLR (R213). -/
def execCsWinWaitClr (f : Func) (n : StackId) (v : W32) (s : State) : Host.Outcome State Fault Refusal :=
  .next (s.reg32 f (rCsWinWait n) v)

/-- RETURN (R353). -/
def execReturnUnit (f : Func) (v : W32) (s : State) : Host.Outcome State Fault Refusal :=
  .next (s.reg32 f rRasUnitCmd v)

/-- RAS_UNIT_SEL (R451). -/
def execRasUnitSel (f : Func) (v : W32) (s : State) : Host.Outcome State Fault Refusal :=
  .next (s.reg32 f rRasUnitSel v)

/-- RAS_SUSP_SEL (R451). -/
def execRasSuspSel (f : Func) (v : W32) (s : State) : Host.Outcome State Fault Refusal :=
  .next (s.reg32 f rRasSuspSel v)

/-- RAS_INJECT (R364). -/
def execRasInject (f : Func) (v : W64) (s : State) : Host.Outcome State Fault Refusal :=
  .next (s.regWrite f rRasInject 8 v)

end Sys2Proof.Machine
end

