-- ==== Sys2Proof/Machine/ExecTile.lean ====
section
/-! DEFINITION. The commands of tiles and hens (04_thokel_programs.md; 07_compute_stacks.md). One meaning for each row: what the
row does is the operation it calls. -/

namespace Sys2Proof.Machine

/-- MMA (R100). -/
def execMma (t : TileId) (s : State) : Host.Outcome State Fault Refusal :=
  .next (s.onDev (fun d => d.mma t))

/-- MMA_PRODUCTS_LAND (R120). -/
def execMmaProductsLand (t : TileId) (s : State) : Host.Outcome State Fault Refusal :=
  .next (s.onDev (fun d => d.productsLand t))

/-- MRD (R103). -/
def execMrd (t : TileId) (s : State) : Host.Outcome State Fault Refusal :=
  .next (s.onDev (fun d => d.mrd t))

/-- VADD (R104). -/
def execVadd (t : TileId) (s : State) : Host.Outcome State Fault Refusal :=
  .next (s.onDev (fun d => d.vec2Issue t 1 fadd))

/-- VMUL (R104). -/
def execVmul (t : TileId) (s : State) : Host.Outcome State Fault Refusal :=
  .next (s.onDev (fun d => d.vec2Issue t 2 fmul))

/-- VFMA (R104). -/
def execVfma (t : TileId) (s : State) : Host.Outcome State Fault Refusal :=
  .next (s.onDev (fun d => d.vfmaIssue t))

/-- VMAX (R104). -/
def execVmax (t : TileId) (s : State) : Host.Outcome State Fault Refusal :=
  .next (s.onDev (fun d => d.vec2Issue t 4 (fun a b => (fmax a b, 0))))

/-- VMIN (R104). -/
def execVmin (t : TileId) (s : State) : Host.Outcome State Fault Refusal :=
  .next (s.onDev (fun d => d.vec2Issue t 5 (fun a b => (fmin a b, 0))))

/-- VRCP (R39). -/
def execVrcp (t : TileId) (s : State) : Host.Outcome State Fault Refusal :=
  .next (s.onDev (fun d => d.vec1Issue t 6 vrcp))

/-- VRSQ (R39). -/
def execVrsq (t : TileId) (s : State) : Host.Outcome State Fault Refusal :=
  .next (s.onDev (fun d => d.vec1Issue t 7 vrsq))

/-- VEXP2 (R39). -/
def execVexp2 (t : TileId) (s : State) : Host.Outcome State Fault Refusal :=
  .next (s.onDev (fun d => d.vec1Issue t 8 vexp2))

/-- VLOG2 (R39). -/
def execVlog2 (t : TileId) (s : State) : Host.Outcome State Fault Refusal :=
  .next (s.onDev (fun d => d.vec1Issue t 9 vlog2))

/-- VPAIR (R104). -/
def execVpair (t : TileId) (s : State) : Host.Outcome State Fault Refusal :=
  .next (s.onDev (fun d => d.vpairIssue t))

/-- VPMAXI (R104). -/
def execVpmaxi (t : TileId) (s : State) : Host.Outcome State Fault Refusal :=
  .next (s.onDev (fun d => d.vpmaxiIssue t))

/-- VIMM (R104). -/
def execVimm (t : TileId) (s : State) : Host.Outcome State Fault Refusal :=
  .next (s.onDev (fun d => d.vimmIssue t))

/-- XADD (R105). -/
def execXadd (t : TileId) (s : State) : Host.Outcome State Fault Refusal :=
  .next (s.onDev (fun d => d.xaddIssue t))

/-- XRD (R105). -/
def execXrd (t : TileId) (s : State) : Host.Outcome State Fault Refusal :=
  .next (s.onDev (fun d => d.xrdIssue t))

/-- VLD (R107). -/
def execVld (t : TileId) (s : State) : Host.Outcome State Fault Refusal :=
  .next (s.onDev (fun d => d.vldIssue t))

/-- VST (R107). -/
def execVst (t : TileId) (s : State) : Host.Outcome State Fault Refusal :=
  .next (s.onDev (fun d => d.vstIssue t))

/-- MOVE (R108). -/
def execMove (t : TileId) (s : State) : Host.Outcome State Fault Refusal :=
  .next (s.onDev (fun d => d.moveIssue t))

/-- MOVE_COMPLETE (R111). -/
def execMoveComplete (t : TileId) (i : Nat) (s : State) : Host.Outcome State Fault Refusal :=
  .next (s.onDev (fun d => d.moveComplete t i))

/-- ATOMIC_PERFORM (R168). -/
def execAtomicPerform (t : TileId) (s : State) : Host.Outcome State Fault Refusal :=
  .next (s.onDev (fun d => d.atomicPerform t))

/-- MSEND (R109). -/
def execMsend (t : TileId) (s : State) : Host.Outcome State Fault Refusal :=
  .next (s.onDev (fun d => d.msendIssue t))

/-- MSEND_ARRIVAL (R109). -/
def execMsendArrival (t : TileId) (i : Nat) (s : State) : Host.Outcome State Fault Refusal :=
  .next (s.onDev (fun d => d.msendArrival t i))

/-- HGEMM (R192). -/
def execHgemm (t : TileId) (s : State) : Host.Outcome State Fault Refusal :=
  .next (s.onDev (fun d => d.hdispIssue t (fun k => k != 2 && k != 3 && k != 4)))

/-- HATTN (R193). -/
def execHattn (t : TileId) (s : State) : Host.Outcome State Fault Refusal :=
  .next (s.onDev (fun d => d.hdispIssue t (· == 2)))

/-- HSOFTMAX (R194). -/
def execHsoftmax (t : TileId) (s : State) : Host.Outcome State Fault Refusal :=
  .next (s.onDev (fun d => d.hdispIssue t (· == 3)))

/-- HREDUCE (R195). -/
def execHreduce (t : TileId) (s : State) : Host.Outcome State Fault Refusal :=
  .next (s.onDev (fun d => d.hdispIssue t (· == 4)))

/-- HEN_START (R198). -/
def execHenStart (op : Nat) (s : State) : Host.Outcome State Fault Refusal :=
  .next (s.onDev (fun d => d.henStart op))

/-- HEN_ROW_STEP (R188). -/
def execHenRowStep (h : HenId) (s : State) : Host.Outcome State Fault Refusal :=
  .next (s.onDev (fun d => d.henRowStep h))

/-- HATTN_EXCHANGE (R193). -/
def execHattnExchange (op : Nat) (s : State) : Host.Outcome State Fault Refusal :=
  .next (s.onDev (fun d => d.hattnExchange op))

/-- HEN_OP_FINISH (R197). -/
def execHenOpFinish (op : Nat) (s : State) : Host.Outcome State Fault Refusal :=
  .next (s.onDev (fun d => d.henOpFinish op))

/-- LOOP (R94). -/
def execLoop (t : TileId) (s : State) : Host.Outcome State Fault Refusal :=
  .next (s.onDev (fun d => d.loopIssue t))

/-- CALL (R115). -/
def execCall (t : TileId) (s : State) : Host.Outcome State Fault Refusal :=
  .next (s.onDev (fun d => d.callIssue t))

/-- RET (R115). -/
def execRet (t : TileId) (s : State) : Host.Outcome State Fault Refusal :=
  .next (s.onDev (fun d => d.retIssue t))

/-- WAIT (R112). -/
def execWait (t : TileId) (s : State) : Host.Outcome State Fault Refusal :=
  .next (s.onDev (fun d => d.waitIssue t))

/-- BARRIER (R112). -/
def execBarrier (t : TileId) (s : State) : Host.Outcome State Fault Refusal :=
  .next (s.onDev (fun d => d.barrierIssue t))

/-- BARRIER_RELEASE (R113). -/
def execBarrierRelease (c : Nat) (s : State) : Host.Outcome State Fault Refusal :=
  .next (s.onDev (fun d => d.barrierRelease c))

/-- SPREAD (R97). -/
def execSpread (t : TileId) (s : State) : Host.Outcome State Fault Refusal :=
  .next (s.onDev (fun d => d.spreadIssue t))

/-- CSET (R97). -/
def execCset (t : TileId) (s : State) : Host.Outcome State Fault Refusal :=
  .next (s.onDev (fun d => d.csetIssue t))

/-- END (R86). -/
def execEndProgram (t : TileId) (s : State) : Host.Outcome State Fault Refusal :=
  .next (s.onDev (fun d => d.endIssue t))

end Sys2Proof.Machine
end

