-- ==== Sys2Proof/Machine/Dispatch.lean ====
section
/-! DEFINITION. The one dispatch: each command to its meaning. -/

namespace Sys2Proof.Machine

def exec (i : Instr) (s : State) : Host.Outcome State Fault Refusal :=
  match i with
  | .mma t => Sys2Proof.Machine.execMma t s
  | .mmaProductsLand t => Sys2Proof.Machine.execMmaProductsLand t s
  | .mrd t => Sys2Proof.Machine.execMrd t s
  | .vadd t => Sys2Proof.Machine.execVadd t s
  | .vmul t => Sys2Proof.Machine.execVmul t s
  | .vfma t => Sys2Proof.Machine.execVfma t s
  | .vmax t => Sys2Proof.Machine.execVmax t s
  | .vmin t => Sys2Proof.Machine.execVmin t s
  | .vrcp t => Sys2Proof.Machine.execVrcp t s
  | .vrsq t => Sys2Proof.Machine.execVrsq t s
  | .vexp2 t => Sys2Proof.Machine.execVexp2 t s
  | .vlog2 t => Sys2Proof.Machine.execVlog2 t s
  | .vpair t => Sys2Proof.Machine.execVpair t s
  | .vpmaxi t => Sys2Proof.Machine.execVpmaxi t s
  | .vimm t => Sys2Proof.Machine.execVimm t s
  | .xadd t => Sys2Proof.Machine.execXadd t s
  | .xrd t => Sys2Proof.Machine.execXrd t s
  | .vld t => Sys2Proof.Machine.execVld t s
  | .vst t => Sys2Proof.Machine.execVst t s
  | .move t => Sys2Proof.Machine.execMove t s
  | .moveComplete t k => Sys2Proof.Machine.execMoveComplete t k s
  | .atomicPerform t => Sys2Proof.Machine.execAtomicPerform t s
  | .msend t => Sys2Proof.Machine.execMsend t s
  | .msendArrival t k => Sys2Proof.Machine.execMsendArrival t k s
  | .hgemm t => Sys2Proof.Machine.execHgemm t s
  | .hattn t => Sys2Proof.Machine.execHattn t s
  | .hsoftmax t => Sys2Proof.Machine.execHsoftmax t s
  | .hreduce t => Sys2Proof.Machine.execHreduce t s
  | .henStart op => Sys2Proof.Machine.execHenStart op s
  | .henRowStep h => Sys2Proof.Machine.execHenRowStep h s
  | .hattnExchange op => Sys2Proof.Machine.execHattnExchange op s
  | .henOpFinish op => Sys2Proof.Machine.execHenOpFinish op s
  | .loop t => Sys2Proof.Machine.execLoop t s
  | .call t => Sys2Proof.Machine.execCall t s
  | .ret t => Sys2Proof.Machine.execRet t s
  | .wait t => Sys2Proof.Machine.execWait t s
  | .barrier t => Sys2Proof.Machine.execBarrier t s
  | .barrierRelease c => Sys2Proof.Machine.execBarrierRelease c s
  | .spread t => Sys2Proof.Machine.execSpread t s
  | .cset t => Sys2Proof.Machine.execCset t s
  | .endProgram t => Sys2Proof.Machine.execEndProgram t s
  | .queueRecordWrite f off data => Sys2Proof.Machine.execQueueRecordWrite f off data s
  | .nop q => Sys2Proof.Machine.execNop q s
  | .runProgram q => Sys2Proof.Machine.execRunProgram q s
  | .copy q => Sys2Proof.Machine.execCopy q s
  | .libLoad q => Sys2Proof.Machine.execLibLoad q s
  | .libLoadVerify c => Sys2Proof.Machine.execLibLoadVerify c s
  | .modelLoad q => Sys2Proof.Machine.execModelLoad q s
  | .modelLoadCheck c => Sys2Proof.Machine.execModelLoadCheck c s
  | .modelEvict q => Sys2Proof.Machine.execModelEvict q s
  | .slotEvicted s2 => Sys2Proof.Machine.execSlotEvicted s2 s
  | .deltaPut q => Sys2Proof.Machine.execDeltaPut q s
  | .deltaPutCheck c => Sys2Proof.Machine.execDeltaPutCheck c s
  | .deltaRetire q => Sys2Proof.Machine.execDeltaRetire q s
  | .adaptStep q => Sys2Proof.Machine.execAdaptStep q s
  | .pageRetire q => Sys2Proof.Machine.execPageRetire q s
  | .powerState q => Sys2Proof.Machine.execPowerState q s
  | .fenceEpoch q => Sys2Proof.Machine.execFenceEpoch q s
  | .epochImageCheck c => Sys2Proof.Machine.execEpochImageCheck c s
  | .epochCommit => Sys2Proof.Machine.execEpochCommit s
  | .commandComplete c => Sys2Proof.Machine.execCommandComplete c s
  | .completionRecordWrite r => Sys2Proof.Machine.execCompletionRecordWrite r s
  | .moderationTimer r => Sys2Proof.Machine.execModerationTimer r s
  | .commandTimeout c => Sys2Proof.Machine.execCommandTimeout c s
  | .commandHang c hung => Sys2Proof.Machine.execCommandHang c hung s
  | .cqQCfg f q v => Sys2Proof.Machine.execCqQCfg f q v s
  | .cqRCfg f r v => Sys2Proof.Machine.execCqRCfg f r v s
  | .cqRHead f r v => Sys2Proof.Machine.execCqRHead f r v s
  | .submit f off data => Sys2Proof.Machine.execSubmit f off data s
  | .cancel f off data => Sys2Proof.Machine.execCancel f off data s
  | .answerRead f off len => Sys2Proof.Machine.execAnswerRead f off len s
  | .setupDone e => Sys2Proof.Machine.execSetupDone e s
  | .servingCycle p => Sys2Proof.Machine.execServingCycle p s
  | .decodeStep p s2 results => Sys2Proof.Machine.execDecodeStep p s2 results s
  | .prefillSlice p results => Sys2Proof.Machine.execPrefillSlice p results s
  | .tokenHandover e => Sys2Proof.Machine.execTokenHandover e s
  | .requestRecordWrite e => Sys2Proof.Machine.execRequestRecordWrite e s
  | .flush f p v => Sys2Proof.Machine.execFlush f p v s
  | .srvAdmParamWrite f off v => Sys2Proof.Machine.execSrvAdmParamWrite f off v s
  | .srvAdmPool f p v => Sys2Proof.Machine.execSrvAdmPool f p v s
  | .srvRtSel f v => Sys2Proof.Machine.execSrvRtSel f v s
  | .srvDeltaSel f v => Sys2Proof.Machine.execSrvDeltaSel f v s
  | .srvLateMaxClr f p v => Sys2Proof.Machine.execSrvLateMaxClr f p v s
  | .fabLinkEn f k v => Sys2Proof.Machine.execFabLinkEn f k v s
  | .retrain f k v => Sys2Proof.Machine.execRetrain f k v s
  | .retire f k v => Sys2Proof.Machine.execRetire f k v s
  | .linkTrained k peer => Sys2Proof.Machine.execLinkTrained k peer s
  | .trainTimeout k => Sys2Proof.Machine.execTrainTimeout k s
  | .linkRetry k => Sys2Proof.Machine.execLinkRetry k s
  | .laneLoss k lane => Sys2Proof.Machine.execLaneLoss k lane s
  | .fecLimit k n => Sys2Proof.Machine.execFecLimit k n s
  | .beatBoundary => Sys2Proof.Machine.execBeatBoundary s
  | .paceWord k w => Sys2Proof.Machine.execPaceWord k w s
  | .bend k w at256 => Sys2Proof.Machine.execBend k w at256 s
  | .bendDeadline k => Sys2Proof.Machine.execBendDeadline k s
  | .notice k w => Sys2Proof.Machine.execNotice k w s
  | .slotTx n => Sys2Proof.Machine.execSlotTx n s
  | .slotRx n granules => Sys2Proof.Machine.execSlotRx n granules s
  | .rootTimeout => Sys2Proof.Machine.execRootTimeout s
  | .timeLost => Sys2Proof.Machine.execTimeLost s
  | .foldCommandStart c => Sys2Proof.Machine.execFoldCommandStart c s
  | .sectPartLayout f v => Sys2Proof.Machine.execSectPartLayout f v s
  | .layoutDone => Sys2Proof.Machine.execLayoutDone s
  | .partitionReset p => Sys2Proof.Machine.execPartitionReset p s
  | .resetRetrainDone p failed => Sys2Proof.Machine.execResetRetrainDone p failed s
  | .stackReadyTimeout n => Sys2Proof.Machine.execStackReadyTimeout n s
  | .suspectReplay p status hung => Sys2Proof.Machine.execSuspectReplay p status hung s
  | .resetEnd p => Sys2Proof.Machine.execResetEnd p s
  | .sliceBoundary p => Sys2Proof.Machine.execSliceBoundary p s
  | .sectSliceCtrl f k v => Sys2Proof.Machine.execSectSliceCtrl f k v s
  | .vfFlr v => Sys2Proof.Machine.execVfFlr v s
  | .vfFlrEscalate v => Sys2Proof.Machine.execVfFlrEscalate v s
  | .pfFlr => Sys2Proof.Machine.execPfFlr s
  | .blkIntForce f page v => Sys2Proof.Machine.execBlkIntForce f page v s
  | .errClr f page v => Sys2Proof.Machine.execErrClr f page v s
  | .registerWrite f off size v => Sys2Proof.Machine.execRegisterWrite f off size v s
  | .bar4Read f off len => Sys2Proof.Machine.execBar4Read f off len s
  | .bar4Write f off data => Sys2Proof.Machine.execBar4Write f off data s
  | .writeBufferDrain k gran => Sys2Proof.Machine.execWriteBufferDrain k gran s
  | .serviceWindow n p => Sys2Proof.Machine.execServiceWindow n p s
  | .refreshPeriod n p => Sys2Proof.Machine.execRefreshPeriod n p s
  | .stackTempSample n readings => Sys2Proof.Machine.execStackTempSample n readings s
  | .bitmapClearDone n => Sys2Proof.Machine.execBitmapClearDone n s
  | .scrubStep n p => Sys2Proof.Machine.execScrubStep n p s
  | .csTempMaxClr f n v => Sys2Proof.Machine.execCsTempMaxClr f n v s
  | .csWinWaitClr f n v => Sys2Proof.Machine.execCsWinWaitClr f n v s
  | .returnUnit f v => Sys2Proof.Machine.execReturnUnit f v s
  | .rasUnitSel f v => Sys2Proof.Machine.execRasUnitSel f v s
  | .rasSuspSel f v => Sys2Proof.Machine.execRasSuspSel f v s
  | .rasInject f v => Sys2Proof.Machine.execRasInject f v s
  | .powerOn => Sys2Proof.Machine.execPowerOn s
  | .railsGood failed => Sys2Proof.Machine.execRailsGood failed s
  | .powerOnComplete => Sys2Proof.Machine.execPowerOnComplete s
  | .perstN => Sys2Proof.Machine.execPerstN s
  | .hotReset => Sys2Proof.Machine.execHotReset s
  | .dlDown => Sys2Proof.Machine.execDlDown s
  | .linkUp rate width flit reversed => Sys2Proof.Machine.execLinkUp rate width flit reversed s
  | .hostReadCompletion k status data => Sys2Proof.Machine.execHostReadCompletion k status data s
  | .completionTimeout k => Sys2Proof.Machine.execCompletionTimeout k s
  | .atomicopRequest f => Sys2Proof.Machine.execAtomicopRequest f s
  | .ioRequest f => Sys2Proof.Machine.execIoRequest f s
  | .poisonedTlp f bar off data => Sys2Proof.Machine.execPoisonedTlp f bar off data s
  | .ideInsecure => Sys2Proof.Machine.execIdeInsecure s
  | .entered => Sys2Proof.Machine.execEntered s
  | .wake f v => Sys2Proof.Machine.execWake f v s
  | .wakeDone failed => Sys2Proof.Machine.execWakeDone failed s
  | .padRelease f v => Sys2Proof.Machine.execPadRelease f v s
  | .shutdown f v => Sys2Proof.Machine.execShutdown f v s
  | .supplySag => Sys2Proof.Machine.execSupplySag s
  | .saveEnd => Sys2Proof.Machine.execSaveEnd s
  | .thermalSample diode monitors => Sys2Proof.Machine.execThermalSample diode monitors s
  | .recalibration diode monitors => Sys2Proof.Machine.execRecalibration diode monitors s
  | .powerSample package rails => Sys2Proof.Machine.execPowerSample package rails s
  | .rateUpdate => Sys2Proof.Machine.execRateUpdate s
  | .droop k mv => Sys2Proof.Machine.execDroop k mv s
  | .droopHoldExpiry k ns => Sys2Proof.Machine.execDroopHoldExpiry k ns s
  | .sectorClockOff k => Sys2Proof.Machine.execSectorClockOff k s
  | .sectorWake k => Sys2Proof.Machine.execSectorWake k s
  | .pwrClk f v => Sys2Proof.Machine.execPwrClk f v s
  | .clockSwitch => Sys2Proof.Machine.execClockSwitch s
  | .pwrPhaseSel f v => Sys2Proof.Machine.execPwrPhaseSel f v s
  | .pwrPhaseClear f v => Sys2Proof.Machine.execPwrPhaseClear f v s
  | .pwrPowerClr f v => Sys2Proof.Machine.execPwrPowerClr f v s
  | .thmMonSel f v => Sys2Proof.Machine.execThmMonSel f v s
  | .thmMaxClr f v => Sys2Proof.Machine.execThmMaxClr f v s
  | .go f v => Sys2Proof.Machine.execGo f v s
  | .reboot f v => Sys2Proof.Machine.execReboot f v s
  | .identityRead => Sys2Proof.Machine.execIdentityRead s
  | .sensorRead => Sys2Proof.Machine.execSensorRead s
  | .logRead => Sys2Proof.Machine.execLogRead s
  | .logInfo => Sys2Proof.Machine.execLogInfo s
  | .keyEnrol => Sys2Proof.Machine.execKeyEnrol s
  | .keyRevoke => Sys2Proof.Machine.execKeyRevoke s
  | .keyList => Sys2Proof.Machine.execKeyList s
  | .cfgRead => Sys2Proof.Machine.execCfgRead s
  | .debugChallenge nonce => Sys2Proof.Machine.execDebugChallenge nonce s
  | .debugOpen => Sys2Proof.Machine.execDebugOpen s
  | .configurationWrite => Sys2Proof.Machine.execConfigurationWrite s
  | .logFlush => Sys2Proof.Machine.execLogFlush s
  | .setEndpointId b eid => Sys2Proof.Machine.execSetEndpointId b eid s
  | .vdmWake b => Sys2Proof.Machine.execVdmWake b s
  | .getVersion b => Sys2Proof.Machine.execGetVersion b s
  | .getCapabilities b => Sys2Proof.Machine.execGetCapabilities b s
  | .negotiateAlgorithms b offersOurs => Sys2Proof.Machine.execNegotiateAlgorithms b offersOurs s
  | .getDigests b => Sys2Proof.Machine.execGetDigests b s
  | .getCertificate b slot => Sys2Proof.Machine.execGetCertificate b slot s
  | .challenge b slot nonce => Sys2Proof.Machine.execChallenge b slot nonce s
  | .getMeasurements b indices signed nonce => Sys2Proof.Machine.execGetMeasurements b indices signed nonce s
  | .keyExchange b slot => Sys2Proof.Machine.execKeyExchange b slot s
  | .finish b session => Sys2Proof.Machine.execFinish b session s
  | .heartbeat b session => Sys2Proof.Machine.execHeartbeat b session s
  | .keyUpdate b session => Sys2Proof.Machine.execKeyUpdate b session s
  | .endSession b session => Sys2Proof.Machine.execEndSession b session s
  | .attestationKeyGen seed => Sys2Proof.Machine.execAttestationKeyGen seed s
  | .queryDeviceIdentifiers b => Sys2Proof.Machine.execQueryDeviceIdentifiers b s
  | .getFirmwareParameters b => Sys2Proof.Machine.execGetFirmwareParameters b s
  | .requestUpdate b maxTransfer => Sys2Proof.Machine.execRequestUpdate b maxTransfer s
  | .passComponentTable b => Sys2Proof.Machine.execPassComponentTable b s
  | .updateComponent b imageBytes => Sys2Proof.Machine.execUpdateComponent b imageBytes s
  | .requestFirmwareData off data => Sys2Proof.Machine.execRequestFirmwareData off data s
  | .transferComplete => Sys2Proof.Machine.execTransferComplete s
  | .verifyComplete => Sys2Proof.Machine.execVerifyComplete s
  | .applyComplete => Sys2Proof.Machine.execApplyComplete s
  | .activateFirmware b => Sys2Proof.Machine.execActivateFirmware b s
  | .getStatus b => Sys2Proof.Machine.execGetStatus b s
  | .cancelUpdateComponent b => Sys2Proof.Machine.execCancelUpdateComponent b s
  | .cancelUpdate b => Sys2Proof.Machine.execCancelUpdate b s
  | .perstNRise => Sys2Proof.Machine.execPerstNRise s
  | .wakeNRelease => Sys2Proof.Machine.execWakeNRelease s
  | .bendSend k => Sys2Proof.Machine.execBendSend k s
  | .ganderLinkMessage k => Sys2Proof.Machine.execGanderLinkMessage k s
  | .pciConfigWrite f reg v => Sys2Proof.Machine.execPciConfigWrite f reg v s
  | .lowWordRead f r => Sys2Proof.Machine.execLowWordRead f r s
  | .ideKm b session keySet switch => Sys2Proof.Machine.execIdeKm b session keySet switch s
  | .pldmPlatformMonitoring b sensor => Sys2Proof.Machine.execPldmPlatformMonitoring b sensor s
  | .pldmBaseDiscovery b => Sys2Proof.Machine.execPldmBaseDiscovery b s
  | .i3cDynamicAddress addr => Sys2Proof.Machine.execI3cDynamicAddress addr s
  | .stackRetrainDone n => Sys2Proof.Machine.execStackRetrainDone n s

end Sys2Proof.Machine
end

