-- ==== Sys2Proof/Machine/Tick.lean ====
section
/-! DEFINITION. What passes while no command waits: one period of the 25 MHz clock of AON (13_power_clocks_thermal.md
R366; 16_register_pages.md, DEV_TIME), and what the device then does by itself (12 R342). -/

namespace Sys2Proof.Machine

/-- The resets that failed stack interfaces call for (R342), in ascending stack number; a scrubber that
meets the failure has begun its own already. -/
def Dev.resetFailedStacks (d : Dev) : Dev :=
  (List.range 12).foldl (fun d n => if (d.stackSt n).ifDown then d.ifFailed n else d) d

/-- One AON clock period: while AON runs, the resets that failed stack interfaces call for begin (log entry 70), and DEV_TIME
gains 40 ns and what the beat has it slew (R286); a pace word that waited for its 50 ns leaves (R289). A design choice, log
entry 31. -/
def Dev.tick (d : Dev) : Dev :=
  if d.gan.up then
    let d := d.resetFailedStacks
    { d with time := ((d.time : Int) + 40 + d.fab.slew).toNat, fab := { d.fab with slew := 0 } }.flushPace
  else d

end Sys2Proof.Machine
end

