-- ==== Sys2Proof/Safety.lean ====
section
/-! DEFINITION. The terms claims about this device are stated in: which parts of it a command may change, what is ready to
happen (a tile's slot, a queue's head, an operation outstanding), and what a safe state of the device is. -/

namespace Sys2Proof.Machine

/-! ## Parts of the device -/

/-- The parts a device state is made of, one for each field. -/
inductive Comp where
  | time | regs | latched | heldLow | stk | tram | sram | slots | host | cq | tiles | henOps | nextHenOp | cs | sect
  | parts | layoutOn | srv | fab | pwr | thm | ras | gan | hif | upsets | free
  deriving DecidableEq, Repr

/-- Two states of the device hold the same in one part. -/
def Dev.agree (d e : Dev) : Comp → Prop
  | .time => e.time = d.time
  | .regs => e.regs = d.regs
  | .latched => e.latched = d.latched
  | .heldLow => e.heldLow = d.heldLow
  | .stk => e.stk = d.stk
  | .tram => e.tram = d.tram
  | .sram => e.sram = d.sram
  | .slots => e.slots = d.slots
  | .host => e.host = d.host
  | .cq => e.cq = d.cq
  | .tiles => e.tiles = d.tiles
  | .henOps => e.henOps = d.henOps
  | .nextHenOp => e.nextHenOp = d.nextHenOp
  | .cs => e.cs = d.cs
  | .sect => e.sect = d.sect
  | .parts => e.parts = d.parts
  | .layoutOn => e.layoutOn = d.layoutOn
  | .srv => e.srv = d.srv
  | .fab => e.fab = d.fab
  | .pwr => e.pwr = d.pwr
  | .thm => e.thm = d.thm
  | .ras => e.ras = d.ras
  | .gan => e.gan = d.gan
  | .hif => e.hif = d.hif
  | .upsets => e.upsets = d.upsets
  | .free => e.free = d.free

/-- `e` differs from `d` in the parts listed and in no other: every memory, register, queue, tile and unit outside them holds
what it held. -/
def Dev.onlyIn (d e : Dev) (cs : List Comp) : Prop := ∀ c : Comp, cs.contains c = false → d.agree e c

/-- Every register but those listed holds what it held. -/
def Dev.regsBut (d e : Dev) (rs : List Nat) : Prop := ∀ a : Nat, rs.contains a = false → e.reg a = d.reg a

/-- Every tile but one holds what it held. -/
def Dev.tilesBut (d e : Dev) (t : Nat) : Prop := ∀ u : Nat, u ≠ t → e.tile u = d.tile u

/-- Every byte of a memory outside `n` bytes from `a` on reads as it read. -/
def Memory.sameOutside (m m' : Memory) (a n : Nat) : Prop := ∀ x : Nat, x < a ∨ a + n ≤ x → m'.byte x = m.byte x

/-- Every memory of the device lists its bytes in canonical form. -/
def Dev.memWf (d : Dev) : Prop :=
  d.stk.wf = true ∧ d.tram.wf = true ∧ d.sram.wf = true ∧ d.slots.wf = true ∧ d.host.wf = true

/-! ## Pad accounting (R377) -/

/-- PWR_LOW_CNT.FALLOW is PWR_RELEASE_CNT plus PAD_HELD, modulo 2^16 (R377). -/
def State.padsBalance (s : State) : Prop := s.pads.fallow = s.pads.release + (if s.pads.held then 1 else 0)

/-- The accounts balance, and the pads are held only from the commit of an entry into FALLOW to their release, or in a device that
stopped (R376, R377). -/
def State.padsKept (s : State) : Prop :=
  s.padsBalance
    ∧ (s.pads.held = true → (s.dev.pstate = 1 ∧ s.dev.pwr.entering = some 2) ∨ s.dev.pstate = 3
        ∨ (s.dev.pstate = 4 ∧ s.dev.pwr.wakeFrom ≠ 2) ∨ s.dev.pstate = 5 ∨ s.dev.pstate = 6 ∨ s.dev.pstate = 7)

/-! ## A tile about to issue -/

/-- Slot `s` of tile t's current bundle is the next to issue; it holds word `w` with opcode `op`, the bundle is not held, and
the tile runs command `c` and has neither ended nor stopped (R121). No flipped bits stand in any on-die array. -/
abbrev Dev.issuing (d : Dev) (t s op : Nat) (c : Cmd) (w : W64) : Prop :=
  d.tileCmd t = some c ∧ (d.tile t).ended = false ∧ (d.tile t).stopped = false
    ∧ (d.tile t).nextSlot (d.bundle t) = some s ∧ slotWord (d.bundle t) s = w ∧ opOf w = op ∧ d.upsets = []
    ∧ d.bundleHeld t (d.bundle t) = false

/-- The contents of vector register `r` now. -/
def Tile.now (x : Tile) (r : Nat) : List Elem := tget x.vregs zeroReg r

/-- The queues as they stand, but that command `c` has met the flags `f` too. -/
def Cq.flagged (q : Cq) (c : Nat) (f : Byte) : Cq :=
  { q with cmds := q.cmds.map (fun x => if x.id = c then { x with aflags := x.aflags ||| f } else x) }

/-- A vector instruction of the plain layout may run: it is about to issue, its reserved bits are 0, and no lower slot of the
bundle wrote its result register (R91, R121, R123). -/
abbrev Dev.vectorReady (d : Dev) (t op : Nat) (c : Cmd) (w : W64) : Prop :=
  d.issuing t 1 op c w ∧ bitsOf w 26 38 = 0 ∧ (d.tile t).written.contains (vD w) = false

/-- The OR of a list of flag bytes. -/
def orAll (fs : List Byte) : Byte := fs.foldl (· ||| ·) 0

/-- The work a tile has in hand is the same: registers, lanes, arguments, calls, matrix work and moves outstanding, arrival
counters, its command and its rank. What may differ is where it stands: bundle, slots issued, open loops and the cursors that
the end of a loop body steps. -/
def Tile.sameWork (x y : Tile) : Prop :=
  y.vregs = x.vregs ∧ y.lanes = x.lanes ∧ y.arrival = x.arrival ∧ y.outs = x.outs ∧ y.cmd = x.cmd ∧ y.args = x.args
    ∧ y.inflight = x.inflight ∧ y.openAcc = x.openAcc ∧ y.frames = x.frames ∧ y.routine = x.routine ∧ y.ended = x.ended
    ∧ y.stopped = x.stopped ∧ y.atoms = x.atoms ∧ y.rank = x.rank ∧ y.nt = x.nt ∧ y.atBarrier = x.atBarrier

/-- Between two states of a tile, no vector register but those listed changed, and its other work is the same; where no loop
is open its cursors are the same too. -/
def Tile.vregsBut (x y : Tile) (rs : List Nat) : Prop :=
  (∀ q : Nat, rs.contains q = false → y.now q = x.now q) ∧ ({ y with vregs := x.vregs } : Tile).sameWork x
    ∧ (x.loops = [] → y.cursors = x.cursors)

/-- A vector instruction has run: register `r` of tile t holds `es`, nothing else of the tile and no other tile changed; the
command gained the flags `f`; and nothing else of the device changed. -/
def Dev.vectorDone (d e : Dev) (t : Nat) (c : Cmd) (r : Nat) (es : List Elem) (f : Byte) : Prop :=
  (e.tile t).now r = es ∧ (d.tile t).vregsBut (e.tile t) [r] ∧ d.tilesBut e t ∧ e.cq = d.cq.flagged c.id f
    ∧ d.onlyIn e [.tiles, .cq]

/-- A vector instruction with two sources runs, its result and flags computed element by element by `f`. -/
def VectorPair (row : TileId → Instr) (op : Nat) (f : W32 → W32 → W32 × Byte) : Prop :=
  ∀ (s : State) (t : TileId) (c : Cmd) (w : W64), s.dev.vectorReady t op c w →
    let a := (s.dev.tile t).vreg (vA w)
    let b := (s.dev.tile t).vreg (vB w)
    ∃ e : Dev, exec (row t) s = .next { s with dev := e } ∧ s.dev.vectorDone e t c (vD w)
      (List.zipWith (fun x y => ⟨(f x.val y.val).1, x.poison || y.poison⟩) a b)
      (orAll (List.zipWith (fun x y => (f x.val y.val).2) a b))

/-- A vector instruction with one source runs, its result and flags computed element by element by `f`. -/
def VectorUnary (row : TileId → Instr) (op : Nat) (f : W32 → W32 × Byte) : Prop :=
  ∀ (s : State) (t : TileId) (c : Cmd) (w : W64), s.dev.vectorReady t op c w →
    let a := (s.dev.tile t).vreg (vA w)
    ∃ e : Dev, exec (row t) s = .next { s with dev := e } ∧ s.dev.vectorDone e t c (vD w)
      (a.map (fun x => ⟨(f x.val).1, x.poison⟩)) (orAll (a.map (fun x => (f x.val).2)))

/-! ## Requests of the host and heads of queues -/

/-- Requests of function `f` reach the blocks: the device is ready, the function serves, and the device runs firmware (R323,
R402, R426, R435). -/
abbrev Dev.reached (d : Dev) (f : Nat) : Prop := d.ready = true ∧ d.fnServes f = true ∧ d.recoveryBoot = false

/-- The head of queue `q` is record `r`, `rest` behind it, nothing makes it wait, no other queue comes before it, and it has not
passed its checks already (R140, R160, R302). No flipped bits stand in any on-die array. -/
abbrev Dev.headOpen (d : Dev) (q : Nat) (r : Rec) (rest : List Rec) : Prop :=
  d.waiting q = r :: rest ∧ d.waitReasons q r = [] ∧ d.bar4Before q = false ∧ d.outOfTurn q = false
    ∧ thas d.cq.checked q = false ∧ d.upsets = []

/-- All that the head of queue `q`, of function `func`, reads of host memory before it starts has come (R89, R176). -/
abbrev Dev.headHas (d : Dev) (q func : Nat) (gs : List HostGran) : Prop := gs = [] ∨ d.awaitGrans q func gs = (d, .ok true)

/-- The head of queue `q` may start, its record passes the checks of codes 0x10 to 0x14, and it asks for `op`; `d1` is the
device without it in storage and `x` the command it becomes (R132, R141). -/
abbrev Dev.starting (d d1 : Dev) (q op : Nat) (r : Rec) (rest : List Rec) (x : Cmd) : Prop :=
  d.headOpen q r rest ∧ opcodeOf r = op ∧ d.recordCheck q r = 0 ∧ d1 = d.popHead q ∧ x = d.mkCmd q r

/-- The completion record of command `x` when it ends at its start with a status, FAULT handle and address, and DETAIL
(Table 5-7). -/
def Dev.startRecord (d : Dev) (x : Cmd) (status handle vaddr detail : Nat) : Ready :=
  { group := some x.part, ring := d.getF (rCqQCfg x.queue) fCqQCfg_Ring, irqNow := bitOf x.word 18
    notOk := BitVec.ofNat 8 status != 0, queue := x.queue
    word := completionWord (BitVec.ofNat 8 status) 0 x.queue (bitsOf x.word 32 32) handle (bitsOf x.word 88 4) vaddr d.time detail
      (bitsOf x.word 4 8) }

/-- Command `x`, whose record has left storage, ends at its start: one record becomes ready unless NOCOMP suppresses an OK, and
CCNT counts the command; nothing else of queues and registers changed, and outside them no part but `more` (R141, R145). -/
def Dev.endsAtStart (d e : Dev) (x : Cmd) (status handle vaddr detail : Nat) (more : List Comp) : Prop :=
  e.cq = { d.cq with ready := d.cq.ready
      ++ (if bitOf x.word 17 = true ∧ status = 0 then [] else [d.startRecord x status handle vaddr detail]) }
    ∧ e.getF (rCqQCcnt x.queue) fCqQCcnt_Ccnt = (d.getF (rCqQCcnt x.queue) fCqQCcnt_Ccnt + 1) % 2 ^ 32
    ∧ d.regsBut e [rCqQCcnt x.queue] ∧ d.onlyIn e ([.cq, .regs] ++ more)

/-- Command `x` has started: it is the last of those started, and of the registers only the clock gating of the sectors it uses
changed (R142, R367). -/
def Dev.begun (d e : Dev) (x : Cmd) (more : List Comp) : Prop :=
  e.cq = { d.cq with cmds := d.cq.cmds ++ [x], nextId := max d.cq.nextId (x.id + 1) }
    ∧ d.regsBut e ((List.range 6).map rPwrSectMax) ∧ d.onlyIn e ([.cq, .regs, .sect] ++ more)

/-- Bit `i` of an event register is set. -/
def Dev.event (d : Dev) (page i : Nat) : Bool := bitOf (d.reg (rBlkIntStat page)) i

/-- A record was put at index `i` of ring `r` in host memory, its 32 bytes holding `w`, and no other byte of host memory changed
(R147). -/
def Dev.ringWritten (d e : Dev) (r : Nat) (w : Nat) : Prop :=
  let i := d.getF (rCqRTail r) fCqRTail_Tail
  let a := fld (d.reg (rCqRBase r)) fCqRBase_Base * 4096 + 32 * (i % 2 ^ d.getF (rCqRCfg r) fCqRCfg_Log2n)
  e.host.bytes a 32 = leBytes 32 w ∧ d.host.sameOutside e.host a 32 ∧ e.getF (rCqRTail r) fCqRTail_Tail = (i + 1) % 2 ^ 32

/-- The 256 bits of a ready record with the PHASE of its ring's current lap (R148). -/
def Dev.phased (d : Dev) (r : Nat) (w : BitVec 256) : Nat :=
  w.toNat + atBit 4 (if d.getF (rCqRTail r) fCqRTail_Tail / 2 ^ d.getF (rCqRCfg r) fCqRCfg_Log2n % 2 = 0 then 1 else 0)

/-- A message of vector `v` of function `f` can be sent now (R326, R428). -/
def Dev.signals (d : Dev) (f v : Nat) : Prop :=
  (d.fn f).msixEnable = true ∧ (d.fn f).msixMask = false ∧ (d.vector f v).masked = false ∧ d.masters f = true ∧ d.linkCarries = true

/-- Function `f` can write the register at `a`: its page is open to the function, and no low word is held for it (R447). -/
abbrev Dev.regOpen (d : Dev) (f a : Nat) : Prop := d.bar0Open f a = true ∧ tfind d.heldLow f = none

/-- A write of a page was discarded and counted in BLK_ERR_CNT, and nothing else changed (R446, R448). -/
def Dev.discarded (d e : Dev) (page : Nat) : Prop :=
  e.getF (rBlkErrCnt page) fBlkErrCnt_Cnt = min (2 ^ 32 - 1) (d.getF (rBlkErrCnt page) fBlkErrCnt_Cnt + 1)
    ∧ d.regsBut e [rBlkErrCnt page] ∧ d.onlyIn e [.regs]

/-- Bit `bit` of a page's event register is set, and besides it only the registers `rs`, what the messages it raises may leave
in the host interface, and the parts `cs` changed (R328, R441, R444). -/
def Dev.raised (d e : Dev) (page bit : Nat) (rs : List Nat) (cs : List Comp) : Prop :=
  e.event page bit = true ∧ d.regsBut e (rs ++ [rBlkIntStat page, rHifTxDrop, rBlkIntStat pgHif])
    ∧ d.onlyIn e ([.regs, .hif] ++ cs)

/-- A counter field of a register saturated one up. -/
abbrev Dev.counted (d e : Dev) (a : Nat) (f : Fld) (n : Nat) : Prop :=
  e.getF a f = min (2 ^ f.len - 1) (d.getF a f + n)

/-- A link is named to the fold for a beat, once (R308): the notice of it was sent on or waits, and unless it was already, the link
is in the down-set. -/
def Dev.linkNamed (d e : Dev) (fid link beat : Nat) : Prop :=
  e.fab.forwarded.contains (fid, link, beat) = true
    ∧ (d.fab.forwarded.contains (fid, link, beat) = false → e.fab.down.contains (fid, link) = true)

/-- Every byte of tile SRAM and of sector SRAM of sector `k` reads as zero. -/
def Dev.sramZero (d : Dev) (k : Nat) : Prop :=
  (∀ a : Nat, 24 * k * 2 ^ 21 ≤ a → a < 24 * (k + 1) * 2 ^ 21 → d.tram.byte a = 0)
    ∧ (∀ a : Nat, k * 2 ^ 24 ≤ a → a < (k + 1) * 2 ^ 24 → d.sram.byte a = 0)

/-- The first of `n` slice entries, looked at in turn from `i` on, whose LEN is not 0 (R320). -/
def Dev.firstEntry (d : Dev) (k n i : Nat) : Option Nat :=
  ((List.range n).map (fun j => (i + j) % n)).find? (fun j => d.getF (rSectSliceEnt k j) fSectSliceEnt_Len != 0)

/-- Slice entry `x` of partition `p` in force from `t` on, with its length and mask, or none in force (R320). -/
def Dev.sliceOn (d e : Dev) (p k t : Nat) : Option Nat → Prop
  | some x => e.getF (rSectSliceCtrl k) fSectSliceCtrl_Cur = x
      ∧ e.part p = { d.part p with
          sliceEnd := t + 1000 * d.getF (rSectSliceEnt k x) fSectSliceEnt_Len
          sliceIdle := false
          sliceMask := d.getF (rSectSliceEnt k x) fSectSliceEnt_Ctxmask }
  | none => e.getF (rSectSliceCtrl k) fSectSliceCtrl_Cur = d.getF (rSectSliceCtrl k) fSectSliceCtrl_Last
      ∧ e.part p = { d.part p with sliceIdle := true }

/-- Nothing waits for an access of BAR4: none is queued, and hen `p` of stack `n` runs no operation. -/
def Dev.bar4Idle (d : Dev) (n p : Nat) : Prop :=
  d.hif.bar4 = [] ∧ (∀ z ∈ d.cs, z.2.accQ = []) ∧ d.henBusy n p = false ∧ d.upsets = []

/-! ## Resets of the whole device -/

/-- Every buffer of posted writes is empty. -/
def Dev.buffersEmpty (d : Dev) : Prop := ∀ k : Nat, d.wbuf k = []

/-- Training of the host link begins where it stands in DETECT with PERST_N and RAILS_GOOD high; else nothing happens (R435 step 8,
R436). -/
def Dev.linkTrains (d e : Dev) : Prop :=
  let go : Prop := d.hif.perstN = true ∧ d.hif.railsGood = true ∧ d.hif.phase ≠ .off ∧ d.getF rHifLink fHifLink_State = 0
  (go → e.getF rHifLink fHifLink_State = 1 ∧ d.regsBut e [rHifLink] ∧ d.onlyIn e [.regs]) ∧ (¬ go → e = d)

/-- The host link is down and no register page is served (R366, R452). -/
def Dev.unserved (d : Dev) : Prop := d.ready = false ∧ d.getF rHifLink fHifLink_State = 0 ∧ d.linkCarries = false

/-- A warm reset with HIF_RESET.LAST `last` has begun (R432, R433): every job is gone, tile and sector memory is zero, the stacks
keep their contents and stand in self-refresh, registers but those Table 15-5 keeps are at their Reset column, links are
DISABLED but for those retired, and held pads have been released and counted. -/
def State.warmed (s t : State) (last : Nat) : Prop :=
  let d := s.dev
  let e := t.dev
  t.pads = (if s.pads.held then { s.pads with release := s.pads.release + 1, held := false } else s.pads)
  ∧ t.ident = s.ident ∧ t.pending = s.pending ∧ e.time = d.time
  ∧ e.cq.cmds = [] ∧ e.cq.storage = [] ∧ e.cq.ready = [] ∧ e.tiles = [] ∧ e.henOps = [] ∧ e.srv = {} ∧ e.sect = [] ∧ e.parts = []
  ∧ e.tram = {} ∧ e.sram = {} ∧ e.slots = {} ∧ e.hif.reads = [] ∧ e.hif.vfEnable = false ∧ e.hif.fns = []
  ∧ e.hif.phase = .waitRails ∧ e.hif.warm = true
  ∧ e.pstate = 0 ∧ e.getF rHifReset fHifReset_Ready = 0 ∧ e.getF rHifReset fHifReset_Last = last
  ∧ d.counted e rHifReset fHifReset_Warm 1
  ∧ (∀ n : Nat, n < 12 → e.getF (rCsState n) fCsState_Selfref = 1 ∧ e.getF (rCsState n) fCsState_Ready = 0)
  ∧ (∀ a : Nat, keptWarm a = false → a ≠ rHifReset → (∀ n : Nat, n < 12 → a ≠ rCsState n) →
      (∀ i : Nat, i < 96 → a ≠ rFabLinkState i ∧ a ≠ rFabLinkCtrl i) → e.reg a = resetOf a)
  ∧ (d.buffersEmpty → e.stk = d.stk ∧ e.host = d.host ∧ e.ras.units = d.ras.units ∧ e.gan = d.gan
      ∧ (∀ i : Nat, i < 96 → e.linkState i = if d.linkState i = 5 then 5 else 0))

/-- The gander has restarted from ROM with HIF_RESET.LAST `last` (R399 to R403, R434, R435): nothing but its flash, its fuses, the
identity and what lies outside the device is kept, the configuration copy R403 selects is in force, and the image that R400
accepts runs, or recovery boot. -/
def State.booted (s t : State) (last : Nat) : Prop :=
  let g := s.dev.gan
  let e := t.dev
  t.pads = {} ∧ t.ident = s.ident ∧ t.pending = s.pending ∧ e.time = 0
  ∧ e.cq = {} ∧ e.tiles = [] ∧ e.henOps = [] ∧ e.srv = {} ∧ e.fab = {} ∧ e.parts = []
  ∧ e.stk = {} ∧ e.tram = {} ∧ e.sram = {} ∧ e.slots = {} ∧ e.host = s.dev.host
  ∧ e.hif.phase = .waitRails ∧ e.hif.pgStk = true ∧ e.hif.pgCore = true ∧ e.hif.vfEnable = false ∧ e.hif.fns = []
  ∧ e.getF rHifReset fHifReset_Last = last ∧ e.getF rHifReset fHifReset_Ready = 0 ∧ e.pstate = 0
  ∧ e.getF rHifLink fHifLink_State = (if e.hif.perstN = true ∧ e.hif.railsGood = true then 1 else 0)
  ∧ e.gan.up = true ∧ e.gan.image = g.image ∧ e.gan.copyA = g.copyA ∧ e.gan.copyB = g.copyB ∧ e.gan.lmsUsed = g.lmsUsed
  ∧ e.gan.debugFuse = g.debugFuse ∧ e.gan.att = none ∧ e.gan.sessions = [] ∧ e.gan.upd = none ∧ e.gan.cfgPend = []
  ∧ e.getF rMgmtStatus fMgmtStatus_CfgSrc = (selectCopy g.copyA g.copyB).1 ∧ e.gan.block = (selectCopy g.copyA g.copyB).2
  ∧ e.reg rDevUid = (if s.ident.valid = true then s.ident.uniqueId else 0)
  ∧ (imageCheck g g.image = 0 → e.getF rMgmtStatus fMgmtStatus_BootMode = 0 ∧ e.getF rMgmtStatus fMgmtStatus_FwReady = 1
      ∧ e.gan.runHdr = g.image.take 4096 ∧ e.gan.svn = max g.svn (min (byteBits g.image 64 8) 64))
  ∧ (imageCheck g g.image ≠ 0 → e.getF rMgmtStatus fMgmtStatus_BootMode = 1 ∧ e.getF rMgmtStatus fMgmtStatus_FwReady = 0
      ∧ e.getF rDevStatus fDevStatus_Recovery = 1 ∧ e.gan.svn = g.svn)

/-! ## The gander's answers -/

/-- Mailbox command `cmd` is in progress and its turn has come (R406, R407). -/
abbrev Dev.mbxRuns (d : Dev) (cmd : Nat) : Prop :=
  d.ganFree = true ∧ d.mbxBusy = true ∧ d.getF rMgmtMbxCmd fMgmtMbxCmd_Cmd = cmd

/-- The mailbox command ended with a status and a response: BUSY is clear, MBX_DONE set, the response is in its buffer, and the
gander is otherwise as `g` says (R406). -/
def Dev.mbxDone (d e : Dev) (g : Gander) (status : Nat) (resp : List Byte) : Prop :=
  e.getF rMgmtMbxStatus fMgmtMbxStatus_Status = status ∧ e.getF rMgmtMbxStatus fMgmtMbxStatus_Rlen = min resp.length 1024
    ∧ e.gan = { g with respBuf := resp.take 1024 }
    ∧ e.getF rMgmtMbxCtrl fMgmtMbxCtrl_Busy = 0 ∧ e.event pgMgmt 0 = true
    ∧ d.regsBut e [rMgmtMbxStatus, rMgmtMbxCtrl, rBlkIntStat pgMgmt, rHifTxDrop, rBlkIntStat pgHif]
    ∧ d.onlyIn e [.gan, .regs, .hif, .free]

/-- The mailbox command ended with a status that Table 14-8 leaves open. -/
def Dev.mbxOpen (d e : Dev) : Prop := ∃ st : Nat, st < 256 ∧ d.mbxDone e d.gan st []

/-- A change waits for its configuration write, the mailbox command with it; nothing else changed (R404, R407). -/
def Dev.mbxWaits (d e : Dev) (x : CfgChange) : Prop :=
  e.gan = { d.gan with cfgPend := d.gan.cfgPend ++ [(x, .mailbox)] } ∧ d.onlyIn e [.gan, .free]

/-- The responder sent a reply on a binding, and the gander is otherwise as `g` says; besides it only `cs` changed. -/
def Dev.said (d e : Dev) (g : Gander) (b : Binding) (r : Reply) (cs : List Comp) : Prop :=
  e.gan = { g with replies := g.replies ++ [(b, r)] } ∧ d.onlyIn e (.gan :: cs)

/-- The responder said something and did nothing else. -/
def Dev.only (d e : Dev) (b : Binding) (r : Reply) : Prop := d.said e d.gan b r []

/-- A request on a binding meets the firmware. -/
abbrev Dev.heard (d : Dev) (b : Binding) : Prop := d.ganFree = true ∧ d.mbxBusy = false ∧ d.bindingUp b = true

/-- A request of the agent of the update in progress, in one of some states (R415, R416). -/
abbrev Dev.updating (d : Dev) (b : Binding) (u : Update) (states : List Nat) : Prop :=
  d.heard b ∧ d.gan.upd = some u ∧ u.agent = b ∧ states.contains d.updState = true

/-- A request of an update that no update of this agent in these states is there for. -/
abbrev Dev.notUpdating (d : Dev) (b : Binding) (states : List Nat) : Prop :=
  d.heard b ∧ ∀ u : Update, d.gan.upd = some u → u.agent = b → states.contains d.updState = false

end Sys2Proof.Machine
end

