-- ==== Sys2Proof/Certificates/Slice0/Obligations.lean ====
section
/-! DEFINITION. What is claimed of the model, one `def Obligations.<Name> : Prop` each. A statement's docstring says what it
states and where the spec says it; a clause that rests on a reading or a choice of the model names its log entry. -/

section

open Sys2Proof Sys2Proof.Machine

/-! ## Tiles: the vector slot -/

/-- VADD, VMUL, VMAX and VMIN write, element by element, the sum, product, maximum and minimum of their sources as these
stood before the bundle, with the poison mark of either, and OR the flags raised into the command; VRCP, VRSQ, VEXP2 and
VLOG2 the function of each element; VFMA the fused a × b + c; VPAIR the 64 sums of neighbours of its first source and then
those of its second; VIMM its immediate, unmarked. VPMAXI writes, for each pair of neighbouring candidates, the value and
index its rule picks, raising no flag (04 Table 4-6, R91; 02 R31, R38, R39, Table 2-10). Where 02 R39 leaves an
exponential below the least subnormal open to reading, `vexp2` reads +0 (log entry 18). -/
def Obligations.VectorInstructionsCompute : Prop :=
  (VectorPair .vadd 1 fadd ∧ VectorPair .vmul 2 fmul ∧ VectorPair .vmax 4 (fun a b => (fmax a b, 0))
     ∧ VectorPair .vmin 5 (fun a b => (fmin a b, 0)))
  ∧ (VectorUnary .vrcp 6 vrcp ∧ VectorUnary .vrsq 7 vrsq ∧ VectorUnary .vexp2 8 vexp2 ∧ VectorUnary .vlog2 9 vlog2)
  ∧ ((∀ (s : State) (t : TileId) (c : Cmd) (w : W64), s.dev.vectorReady t 3 c w →
     let a := (s.dev.tile t).vreg (vA w)
     let b := (s.dev.tile t).vreg (vB w)
     let z := (s.dev.tile t).vreg (vC w)
     ∃ e : Dev, exec (.vfma t) s = .next { s with dev := e } ∧ s.dev.vectorDone e t c (vD w)
       (List.zipWith (fun x (p : Elem × Elem) => ⟨(ffma x.val p.1.val p.2.val).1, x.poison || p.1.poison || p.2.poison⟩) a (b.zip z))
       (orAll (List.zipWith (fun x (p : Elem × Elem) => (ffma x.val p.1.val p.2.val).2) a (b.zip z))))
   ∧ (∀ (s : State) (t : TileId) (c : Cmd) (w : W64), s.dev.vectorReady t 0xA c w →
     let a := (s.dev.tile t).vreg (vA w)
     let b := (s.dev.tile t).vreg (vB w)
     let sums (v : List Elem) := (List.range 64).map (fun i =>
       let x := v.getD (2 * i) {}
       let y := v.getD (2 * i + 1) {}
       ((⟨(fadd x.val y.val).1, x.poison || y.poison⟩ : Elem), (fadd x.val y.val).2))
     ∃ e : Dev, exec (.vpair t) s = .next { s with dev := e } ∧ s.dev.vectorDone e t c (vD w)
       ((sums a ++ sums b).map (·.1)) (orAll ((sums a ++ sums b).map (·.2))))
   ∧ (∀ (s : State) (t : TileId) (c : Cmd) (w : W64), s.dev.issuing t 1 0xC c w → bitsOf w 11 21 = 0 →
     (s.dev.tile t).written.contains (vD w) = false →
     ∃ e : Dev, exec (.vimm t) s = .next { s with dev := e } ∧ s.dev.vectorDone e t c (vD w)
       (List.replicate 128 ⟨BitVec.ofNat 32 (bitsOf w 32 32), false⟩) 0))
  ∧ (∀ (s : State) (t : TileId) (c : Cmd) (w : W64), s.dev.issuing t 1 0xB c w → bitsOf w 26 38 = 0 → vC w ≠ vD w →
     (s.dev.tile t).written.contains (vD w) = false → (s.dev.tile t).written.contains (vC w) = false →
     let a := (s.dev.tile t).vreg (vA w)
     let b := (s.dev.tile t).vreg (vB w)
     let second (i : Nat) : Bool := takesSecond (a.getD (2 * i) {}).val (b.getD (2 * i) {}).val
       (a.getD (2 * i + 1) {}).val (b.getD (2 * i + 1) {}).val
     let mark (i : Nat) : Bool := (a.getD (2 * i) {}).poison || (a.getD (2 * i + 1) {}).poison || (b.getD (2 * i) {}).poison
       || (b.getD (2 * i + 1) {}).poison
     let pick (v : List Elem) (i : Nat) : W32 := if second i then (v.getD (2 * i + 1) {}).val else (v.getD (2 * i) {}).val
     let vals : List Elem := (List.range 64).map (fun i => ⟨if isNan32 (pick a i) then 0x7FC00000 else pick a i, mark i⟩)
     let idx : List Elem := (List.range 64).map (fun i => ⟨pick b i, mark i⟩)
     ∃ e : Dev, exec (.vpmaxi t) s = .next { s with dev := e }
       ∧ (e.tile t).now (vD w) = vals ++ vals ∧ (e.tile t).now (vC w) = idx ++ idx
       ∧ (s.dev.tile t).vregsBut (e.tile t) [vD w, vC w] ∧ s.dev.tilesBut e t
       ∧ e.cq = s.dev.cq.flagged c.id 0 ∧ s.dev.onlyIn e [.tiles, .cq])

/-- An instruction of the plain vector layout with a reserved bit set, or whose result register a lower slot of its bundle
wrote, is skipped: no register, lane, cursor, tag or flag changes, and the command counts one more skip (04 R123, R124). -/
def Obligations.IllegalVectorInstructionIsSkipped : Prop :=
  ∀ row ∈ [(Instr.vadd, 1), (.vmul, 2), (.vfma, 3), (.vmax, 4), (.vmin, 5), (.vrcp, 6), (.vrsq, 7), (.vexp2, 8), (.vlog2, 9),
      (.vpair, 0xA)],
    ∀ (s : State) (t : TileId) (c : Cmd) (w : W64), s.dev.issuing t 1 row.2 c w →
      (bitsOf w 26 38 ≠ 0 ∨ (s.dev.tile t).written.contains (vD w) = true) →
      ∃ e : Dev, exec (row.1 t) s = .next { s with dev := e } ∧ (s.dev.tile t).sameWork (e.tile t)
        ∧ ((s.dev.tile t).loops = [] → (e.tile t).cursors = (s.dev.tile t).cursors)
        ∧ ∀ x ∈ e.cq.cmds, x.id = c.id → ∃ y ∈ s.dev.cq.cmds, y.id = c.id ∧ x.skips = y.skips + 1 ∧ x.aflags = y.aflags

/-! ## Tiles: exact partials, loads and stores -/

/-- XRD reads eight partials at SRC's cursor and writes their FP32 readouts at OUTSHIFT to elements 8 × GROUP and on of VD, no
other element changing; an element read from a poisoned granule or from a partial marked POISON is marked (04 R105; 02 R31, R46).
XADD writes through DST's cursor the eight sums of its sources' partials at ANCHOR, as eight elements along dimension 0. Both
wait, with nothing of theirs done, until the list entries they read in host windows have come (03 R65; 06 R176); that the whole
instruction waits for them is a reading of this model (log entry 74). -/
def Obligations.ExactPartialInstructionsCompute : Prop :=
  (∀ (s : State) (t : TileId) (c : Cmd) (w : W64) (d0 d' : Dev) (es : List ElemRead), s.dev.issuing t 1 0xE c w →
    let h := s.dev.handle t (bitsOf w 6 13)
    let r := bitsOf w 19 5
    let g := 8 * bitsOf w 24 4
    s.dev.formReason t (bitsOf w 37 27 != 0) false [bitsOf w 6 13] = 0 → ((c.reach t).desc h).elem = 12 →
    (s.dev.tile t).written.contains r = false →
    (s.dev.awaitLists c t (s.dev.rowLists t c 8 [h]) = (d0, .ok false) → exec (.xrd t) s = .next { s with dev := d0 })
    ∧ (s.dev.awaitLists c t (s.dev.rowLists t c 8 [h]) = (d0, .ok true) → d0.read8 t c h = (d', .ok es) →
    let out (x : ElemRead) : W32 × Byte := readPartial (asPartial x) (signed 9 (bitsOf w 28 9))
    ∃ e : Dev, exec (.xrd t) s = .next { s with dev := e }
      ∧ (e.tile t).now r = ((d'.tile t).now r).take g
          ++ es.map (fun x => ⟨(out x).1, x.out != 0 || partialPoison (asPartial x)⟩) ++ ((d'.tile t).now r).drop (g + 8)
      ∧ (d'.tile t).vregsBut (e.tile t) [r] ∧ d'.tilesBut e t
      ∧ e.cq = d'.cq.flagged c.id (orAll (es.map (fun x => (out x).2))) ∧ d'.onlyIn e [.tiles, .cq]))
  ∧ (∀ (s : State) (t : TileId) (c : Cmd) (w : W64) (d0 d1 d2 : Dev) (as bs : List ElemRead), s.dev.issuing t 1 0xD c w →
    let h1 := s.dev.handle t (bitsOf w 6 13)
    let h2 := s.dev.handle t (bitsOf w 19 13)
    let h3 := s.dev.handle t (bitsOf w 32 13)
    s.dev.formReason t (bitsOf w 55 9 != 0) false [bitsOf w 6 13, bitsOf w 19 13, bitsOf w 32 13] = 0 →
    ((c.reach t).desc h1).elem = 12 → ((c.reach t).desc h2).elem = 12 → ((c.reach t).desc h3).elem = 12 →
    (s.dev.awaitLists c t (s.dev.rowLists t c 8 [h1, h2]) = (d0, .ok false) → exec (.xadd t) s = .next { s with dev := d0 })
    ∧ (s.dev.awaitLists c t (s.dev.rowLists t c 8 [h1, h2]) = (d0, .ok true) →
    d0.read8 t c h1 = (d1, .ok as) → d1.read8 t c h2 = (d2, .ok bs) →
    let sum (i : Nat) : BitVec 128 × Byte := exactSum (signed 10 (bitsOf w 45 10))
      [asPartial (as.getD i ⟨0, none, 0⟩), asPartial (bs.getD i ⟨0, none, 0⟩)]
    let bad (i : Nat) : Bool := (as.getD i ⟨0, none, 0⟩).out != 0 || (bs.getD i ⟨0, none, 0⟩).out != 0
    let d3 := d2.addFlags c.id (orAll ((List.range 8).map (fun i => (sum i).2)))
    let d4 := (d3.nextSeq c.id).store (c.writer (d3.tile t).rank c.nextSeq) (c.reach t) h3 true none
      ((List.range 8).map (fun i => ⟨coordsAt ((d3.tile t).cursor h3) i 0, 12, (sum i).1.toNat, none, bad i⟩))
    as.length = 8 → bs.length = 8 →
    ∃ e : Dev, exec (.xadd t) s = .next { s with dev := e }
      ∧ (d4.tile t).sameWork (e.tile t) ∧ d4.tilesBut e t ∧ d4.onlyIn e [.tiles]))

/-- VLD writes the chosen part of VD with the elements along dimension 0 at SRC's cursor, widened to FP32, elements of a block
without a scale as +0; the other part of VD and every other register stay. VST stores the chosen part of VA through DST's cursor,
element by element (04 R107). A VLD waits, with nothing done, until list entries it reads in host windows have come (03 R65;
06 R176; log entry 74). -/
def Obligations.VldLoadsVstStores : Prop :=
  (∀ (s : State) (t : TileId) (c : Cmd) (w : W64) (d0 d' : Dev) (es : List ElemRead), s.dev.issuing t 2 1 c w →
    let h := s.dev.handle t (bitsOf w 15 13)
    let r := bitsOf w 10 5
    let span := partSpan (bitsOf w 28 2)
    let x := (c.reach t).desc h
    let lists := s.dev.rowLists t c span.2 [h]
    s.dev.vecMemReason t c w 30 [r] = 0 →
    (s.dev.awaitLists c t lists = (d0, .ok false) → exec (.vld t) s = .next { s with dev := d0 })
    ∧ (s.dev.awaitLists c t lists = (d0, .ok true) →
    Dev.readElems (c.reach t) h true true d0 ((List.range span.2).map (fun i => coordsAt (d0.cursor t h) i 0)) = (d', .ok es) →
    let val (y : ElemRead) : Elem × Byte :=
      if x.scaleEn && y.scale.isNone then ({}, 0)
      else (⟨(widen x.elem y.scale y.code).1, y.out != 0⟩, (widen x.elem y.scale y.code).2)
    ∃ e : Dev, exec (.vld t) s = .next { s with dev := e }
      ∧ (e.tile t).now r = ((d'.tile t).now r).take span.1 ++ es.map (fun y => (val y).1)
          ++ ((d'.tile t).now r).drop (span.1 + span.2)
      ∧ (d'.tile t).vregsBut (e.tile t) [r] ∧ d'.tilesBut e t
      ∧ e.cq = d'.cq.flagged c.id (orAll (es.map (fun y => (val y).2))) ∧ d'.onlyIn e [.tiles, .cq]))
  ∧ (∀ (s : State) (t : TileId) (c : Cmd) (w : W64), s.dev.issuing t 2 2 c w → s.dev.vecMemReason t c w 31 [] = 0 →
    let h := s.dev.handle t (bitsOf w 15 13)
    let span := partSpan (bitsOf w 28 2)
    let v := (s.dev.tile t).vreg (bitsOf w 10 5)
    let d1 := (s.dev.nextSeq c.id).store (c.writer (s.dev.tile t).rank c.nextSeq) (c.reach t) h true
      (if bitOf w 30 then some true else none)
      ((List.range span.2).map (fun i => ⟨coordsAt ((s.dev.tile t).cursor h) i 0, 5, (v.getD (span.1 + i) {}).val.toNat, none,
        (v.getD (span.1 + i) {}).poison⟩))
    ∃ e : Dev, exec (.vst t) s = .next { s with dev := e }
      ∧ (d1.tile t).sameWork (e.tile t) ∧ d1.tilesBut e t ∧ d1.onlyIn e [.tiles])

/-! ## Tiles: the matrix slot -/

/-- An MMA whose operands can be read puts one set of products of the 64 lanes in flight, behind those already there, and no
accumulator changes yet; a starting one, or the first while none is open, opens an accumulation with its PAIR and ANCHOR; it
waits, with nothing done, until list entries it reads in host windows have come (log entry 74). The oldest products land in all 64
lanes, a start clearing each lane first; an MRD with nothing in flight reads all 64 lanes at once, to half of VD or through DST,
and one with products in flight waits behind them with its destination and cursor (04 R98 to R101, R103, R120; 02 R28, R29). -/
def Obligations.MatrixInstructionsRun : Prop :=
  (∀ (s : State) (t : TileId) (c : Cmd) (w : W64) (d0 d1 d2 d3 : Dev) (bs : List ElemRead) (rows : List (List ElemRead))
     (an : List (Int × Bool)), s.dev.issuing t 0 1 c w →
     let x := d0.tile t
     let rc := c.reach t
     let ha := d0.handle t (mmaA w)
     let hb := d0.handle t (mmaB w)
     let pair := mmaPair w
     s.dev.mmaReason t c w = 0 →
     (s.dev.awaitLists c t (s.dev.mmaLists t c w) = (d0, .ok false) → exec (.mma t) s = .next { s with dev := d0 })
     ∧ (s.dev.awaitLists c t (s.dev.mmaLists t c w) = (d0, .ok true) →
     Dev.readElems rc hb true true d0 ((List.range (mmaTerms pair)).map (fun k => coordsAt (x.cursor hb) k 0)) = (d1, .ok bs) →
     Dev.mmaRows rc ha (x.cursor ha) (mmaTerms pair) d1 (List.range 64) = (d2, .ok rows) →
     (if x.mmaOpens w ∧ pair ≠ 2 then Dev.laneAnchors t rc w d2 (List.range 64)
       else (d2, .ok ((List.range 64).map (fun i => (((x.openAcc.map OpenAcc.anchors).getD []).getD i 0, false))))) = (d3, .ok an) →
     let lane (i : Nat) : LaneProd :=
       let p := (pairOps pair (rc.desc ha) (rc.desc hb)).products (an.getD i (0, false)).1 (rows.getD i []) bs
       let z := if x.mmaOpens w then x.seed w i else {}
       { p with seed := z.val, poison := p.poison || (an.getD i (0, false)).2 || z.poison }
     ∃ e : Dev, exec (.mma t) s = .next { s with dev := e }
       ∧ (e.tile t).inflight = (d3.tile t).inflight ++ [.products (x.mmaOpens w) (pair == 2) ((List.range 64).map lane)]
       ∧ (e.tile t).openAcc = (if x.mmaOpens w then some ⟨pair, mmaAnchor w, an.map (·.1)⟩ else (d3.tile t).openAcc)
       ∧ (e.tile t).lanes = (d3.tile t).lanes ∧ (e.tile t).vregs = (d3.tile t).vregs ∧ (e.tile t).outs = (d3.tile t).outs
       ∧ d3.tilesBut e t ∧ d3.onlyIn e [.tiles]))
  ∧ ((∀ (s : State) (t : TileId) (c : Cmd) (start bf16 : Bool) (ps : List LaneProd) (rest : List Inflight),
     s.dev.tileCmd t = some c → s.dev.upsets = [] → (s.dev.tile t).inflight = .products start bf16 ps :: rest →
     (∀ w b h cs q, rest.head? ≠ some (.readout w b h cs q)) →
     ∃ e : Dev, exec (.mmaProductsLand t) s = .next { s with dev := e } ∧ (e.tile t).inflight = rest
       ∧ (∀ i : Nat, i < 64 → tget (e.tile t).lanes {} i = (tget (s.dev.tile t).lanes {} i).land start bf16 (ps.getD i {}))
       ∧ ({ e.tile t with lanes := (s.dev.tile t).lanes, inflight := (s.dev.tile t).inflight } : Tile) = s.dev.tile t
       ∧ s.dev.tilesBut e t ∧ s.dev.onlyIn e [.tiles])
   ∧ (∀ (s : State) (t : TileId) (c : Cmd) (w : W64), s.dev.issuing t 0 2 c w → s.dev.mrdReason t c w = 0 →
     let x := s.dev.tile t
     let bf16 := match x.openAcc with | none => false | some o => o.pair == 2
     let rs := readLanes x.lanes bf16 w
     let h := s.dev.handle t (bitsOf w 24 13)
     ∃ e : Dev, exec (.mrd t) s = .next { s with dev := e }
       ∧ (x.inflight ≠ [] → (e.tile t).inflight = x.inflight ++ [.readout w bf16 h (x.cursor h) c.nextSeq]
           ∧ (e.tile t).vregs = x.vregs ∧ (e.tile t).lanes = x.lanes ∧ s.dev.tilesBut e t ∧ s.dev.onlyIn e [.tiles, .cq])
       ∧ (x.inflight = [] → mrdToDst w = false →
           (e.tile t).now (bitsOf w 18 5) = setHalf (x.now (bitsOf w 18 5)) (bitOf w 23)
             (rs.map (fun r => ⟨BitVec.ofNat 32 r.1, r.2.2.poison⟩))
           ∧ (∀ q : Nat, q ≠ bitsOf w 18 5 → (e.tile t).now q = x.now q)
           ∧ e.cq = ((s.dev.nextSeq c.id).cq).flagged c.id (orAll (rs.map (·.2.1)))
           ∧ s.dev.tilesBut e t ∧ s.dev.onlyIn e [.tiles, .cq])
       ∧ (x.inflight = [] → mrdToDst w = true → ∃ d1 : Dev, s.dev.onlyIn d1 [.tiles, .cq]
           ∧ d1.cq = ((s.dev.nextSeq c.id).cq).flagged c.id (orAll (rs.map (·.2.1)))
           ∧ let d2 := d1.store (c.writer x.rank c.nextSeq) (c.reach t) h true none ((List.range 64).map (fun i =>
               ⟨coordsAt (x.cursor h) i 0, mrdType (mrdMode w), (rs.getD i (0, 0, {})).1, none,
                 (rs.getD i (0, 0, {})).2.2.poison⟩))
             (d2.tile t).sameWork (e.tile t) ∧ d2.tilesBut e t ∧ d2.onlyIn e [.tiles])))

/-! ## Tiles: the move slot -/

/-- A MOVE or MSEND that is legal becomes outstanding under its tag as it issues, once the list entries it reads in host
windows have come (log entry 74), and copies nothing yet: a MOVE's host granules are asked for, and one whose destination lies
in the atomic port writes its slots when its source has come and no earlier one has still to, leaving one request for each slot
with the bytes then in it. A MOVE that completes has performed its plan and is outstanding no longer; an MSEND whose bytes leave
counts in its tag no longer, and one that arrives writes them in the destination tile's SRAM and, where no access failed, adds 1
to that tile's arrival counter, modulo 2^24 (04 R108, R109, R111; 06 R165, R166, R169; 15 R427). That the plan is performed at
MOVE_COMPLETE and MSEND_ARRIVAL is a reading of this model (log entry 34). -/
def Obligations.MovesRunAndComplete : Prop :=
  ((∀ (s : State) (t : TileId) (c : Cmd) (w : W64) (d0 : Dev), s.dev.issuing t 2 3 c w →
     s.dev.moveReason t c w (bitsOf w 44 20 != 0) (12 < bitsOf w 36 4 || 6 < bitsOf w 40 3) = 0 →
     s.dev.awaitLists c t (c.moveLists t (s.dev.planOf t c w 36 40 (bitOf w 43))) = (d0, .ok true) →
     let p := d0.planOf t c w 36 40 (bitOf w 43)
     let x := d0.tile t
     let host := d0.hostGrans (c.reach t).toPort p.src (!isRaw ((c.reach t).desc p.dst).elem) p.sources
     let port := (d0.planPlaces t c p).any (fun q => isSlot q.loc)
     let out : OutOp := ⟨x.nextOp, bitsOf w 6 4, if port then .slots p else .move p⟩
     ∃ e : Dev, exec (.move t) s = .next { s with dev := e }
       ∧ (host = [] → port = false ∨ x.slotsBefore x.nextOp = true → (e.tile t).outs = x.outs ++ [out]
           ∧ ({ e.tile t with outs := x.outs } : Tile).sameWork x ∧ d0.tilesBut e t ∧ d0.onlyIn e [.tiles, .cq])
       ∧ (host ≠ [] → d0.masters c.func = true → (e.tile t).outs = x.outs ++ [out]
           ∧ e.hif.reads = d0.hif.reads
               ++ host.map (fun g => (⟨c.func, g.addr, 64, .op t x.nextOp, g.vaddr, g.handle, d0.time⟩ : OutRead))
           ∧ d0.tilesBut e t ∧ d0.onlyIn e [.tiles, .cq, .hif])
       ∧ (∀ d2 : Dev, host = [] → port = true → x.slotsBefore x.nextOp = false →
           let d1 := (d0.nextSeq c.id).pushOp t (bitsOf w 6 4) (.slots p)
           d1.runPlan t c p = (d2, true) →
           (e.tile t).atoms = (d2.tile t).atoms ++ (slotsWritten t (d1.planPlaces t c p) (elemBytes ((c.reach t).desc p.dst).elem)).map
               (fun z => ⟨z.1, z.2, x.nextOp, p.dst, p.seq, d2.slots.bytes (t * 4096 + 64 * z.1) 64⟩)
           ∧ (e.tile t).outs = (d2.tile t).outs.map (fun o => if o.id = x.nextOp then { o with kind := .atomics } else o)
           ∧ d2.tilesBut e t ∧ d2.onlyIn e [.tiles]))
   ∧ (∀ (s : State) (t : TileId) (c : Cmd) (w : W64) (d0 : Dev), s.dev.issuing t 2 4 c w →
     s.dev.moveReason t c w (bitsOf w 52 12 != 0) (12 < bitsOf w 45 4 || 6 < bitsOf w 49 3 || 23 < bitsOf w 36 5) = 0 →
     s.dev.awaitLists c t (c.moveLists t (s.dev.planOf t c w 45 49 false)) = (d0, .ok true) →
     let x := d0.tile t
     ∃ e : Dev, exec (.msend t) s = .next { s with dev := e }
       ∧ (e.tile t).outs = x.outs ++ [⟨x.nextOp, bitsOf w 6 4,
           .msend (d0.planOf t c w 45 49 false) (t / 24 * 24 + bitsOf w 36 5) (bitsOf w 41 4)⟩]
       ∧ ({ e.tile t with outs := x.outs } : Tile).sameWork x ∧ d0.tilesBut e t ∧ d0.onlyIn e [.tiles, .cq]))
  ∧ ((∀ (s : State) (t : TileId) (c : Cmd) (i id tag : Nat) (p : MovePlan), s.dev.tileCmd t = some c →
     (s.dev.tile t).outs[i]? = some ⟨id, tag, .move p⟩ → s.dev.opReads t id = false →
     let d1 := (s.dev.runPlan t c p).1
     ∃ e : Dev, exec (.moveComplete t i) s = .next { s with dev := e }
       ∧ (e.tile t).outs = (d1.tile t).outs.filter (fun o => o.id != id)
       ∧ ({ e.tile t with outs := (d1.tile t).outs } : Tile) = d1.tile t ∧ d1.tilesBut e t ∧ d1.onlyIn e [.tiles])
   ∧ (∀ (s : State) (t : TileId) (c : Cmd) (i id tag dt a : Nat) (p : MovePlan) (d1 : Dev) (its : List Item),
     s.dev.tileCmd t = some c → (s.dev.tile t).outs[i]? = some ⟨id, tag, .msend p dt a⟩ →
     s.dev.planItems (c.reach t) p true = (d1, .ok its) →
     ∃ e : Dev, exec (.moveComplete t i) s = .next { s with dev := e }
       ∧ (e.tile t).outs = (d1.tile t).outs.map (fun o => if o.id = id then { o with kind := .sent p dt a its } else o)
       ∧ (∀ g : Nat, ((d1.tile t).outs.all (fun o => o.id == id || o.tag != g)) = true → (e.tile t).pendingTag g = false)
       ∧ ({ e.tile t with outs := (d1.tile t).outs } : Tile) = d1.tile t ∧ d1.tilesBut e t ∧ d1.onlyIn e [.tiles])
   ∧ (∀ (s : State) (t : TileId) (c : Cmd) (i id tag dt a : Nat) (p : MovePlan) (its : List Item) (d1 : Dev) (ok : Bool),
     s.dev.tileCmd t = some c → (s.dev.tile t).outs[i]? = some ⟨id, tag, .sent p dt a its⟩ →
     s.dev.deliver t dt c p true its = (d1, ok) →
     ∃ e : Dev, exec (.msendArrival t i) s = .next { s with dev := e }
       ∧ tget (e.tile dt).arrival 0 a = (if ok then tget (d1.tile dt).arrival 0 a + 1 else tget (d1.tile dt).arrival 0 a)
       ∧ (∀ b : Nat, b ≠ a → tget (e.tile dt).arrival 0 b = tget (d1.tile dt).arrival 0 b)
       ∧ (e.tile t).outs = (d1.tile t).outs.filter (fun o => o.id != id)
       ∧ (∀ u : Nat, u ≠ t → u ≠ dt → e.tile u = d1.tile u) ∧ d1.onlyIn e [.tiles]))

/-- Where the oldest request of a tile is a whole and valid one of ADD, MAX, CAS or XCHG, nothing earlier holds it back, and its
target is memory that reads without poison, the request is performed: ADD writes (t + v) mod 2^w, MAX the larger of t and v as
SIGNED selects, CAS v when t equals COMPARE and else nothing, XCHG v; OLD holds t and STATUS 1. A FENCE touches no memory but
what its release orders, and its OLD is 0 (06 R167, R168, Tables 6-3 and 6-4). -/
def Obligations.AtomicsActOnTheirTarget : Prop :=
  ∀ (s : State) (t : TileId) (c : Cmd) (q : AtomReq) (rest : List AtomReq), s.dev.tileCmd t = some c →
    (s.dev.tile t).atoms = q :: rest → q.whole = true →
    let r := recOf q.data
    let at_ := t * 4096 + 64 * q.slot + 32
    let w := if bitOf r 4 then 64 else 32
    let v := bitsOf r 128 w
    atomInvalid r = false → s.dev.atomWaits t q r = false →
    (∀ (d1 d2 : Dev) (l : Nat) (bs : List Byte), bitsOf r 0 4 ≠ 0 →
      s.dev.xlate (c.reach t).toPort.eng (bitsOf r 16 8) (bitsOf r 64 48) true = (d1, .ok l) → isHost l = false → isSlot l = false →
      (d1.atomOrder t r).readHomeGran 1 (granOf l) = (d2, bs, 0) →
      let old := leNat ((bs.drop (l % 64)).take (w / 8))
      let put (x : Nat) : Dev := d2.writeHome { addr := l, data := leBytes (w / 8) x, func := c.func }
      let d3 := match bitsOf r 0 4 with
        | 1 => put ((old + v) % 2 ^ w)
        | 2 => put (if bitOf r 5 then (if signed w old < signed w v then v else old) else max old v)
        | 3 => if old = bitsOf r 192 w then put v else d2
        | _ => put v
      ∃ e : Dev, exec (.atomicPerform t) s = .next { s with dev := e }
        ∧ e.slots = d3.slots.putBytes at_ (leBytes 8 old ++ leBytes 1 1 ++ zeros 23)
        ∧ (e.tile t).atoms = (d3.tile t).atoms.drop 1 ∧ d3.tilesBut e t ∧ d3.onlyIn e [.slots, .tiles])
    ∧ (bitsOf r 0 4 = 0 →
      let d3 := if bitOf r 9 ∧ bitsOf r 6 2 = 2 then s.dev.drainAll (t / 24) else s.dev
      ∃ e : Dev, exec (.atomicPerform t) s = .next { s with dev := e }
        ∧ e.slots = d3.slots.putBytes at_ (leBytes 8 0 ++ leBytes 1 1 ++ zeros 23)
        ∧ (e.tile t).atoms = (d3.tile t).atoms.drop 1 ∧ d3.tilesBut e t ∧ d3.onlyIn e [.slots, .tiles])

/-- An HDISP of each operation that passes its dispatch checks, once the list entries it reads in host windows have come (log
entry 74), joins the operations of the stack controllers, becomes outstanding under its tag, and sends the sector's buffered
writes home first; one that fails them, a HENOP that names no operation among them, is rejected and counts as a skip, starts no
hen and writes nothing of its own (07 R189 to R191; 06 R171; 04 R111). -/
def Obligations.HdispDispatchesOrRejects : Prop :=
  ∀ row ∈ [(Instr.hgemm, fun k : Nat => k != 2 && k != 3 && k != 4), (.hattn, (· == 2)), (.hsoftmax, (· == 3)),
      (.hreduce, (· == 4))],
    ∀ (s : State) (t : TileId) (c : Cmd) (w : W64) (d0 d1 : Dev) (block : Option Rec), s.dev.issuing t 2 5 c w →
      row.2 (hdOp w) = true → s.dev.hdispReason t w = 0 → s.dev.awaitLists c t (s.dev.hdispLists t c w) = (d0, .ok true) →
      d0.henBlock t (c.reach t) (d0.handle t (hdH0 w)) = (d1, .ok block) →
      let stks := d0.stacksOf c.part
      let chk := d1.henCheck t (c.reach t) w block stks.length
      ∃ e : Dev, exec (row.1 t) s = .next { s with dev := e }
        ∧ (∀ (d2 : Dev) (o : HenOp), chk.1 = 0 →
          d1.henGather t c w (block.getD 0) chk.2.1 chk.2.2 stks (d1.tile t).nextOp = (d2, .ok o) →
          let d3 := d2.drainAll (t / 24)
          e.henOps = d3.henOps ++ [o] ∧ o.kind = hdOp w ∧ o.started = false ∧ o.cmd = c.id ∧ e.nextHenOp = d3.nextHenOp + 1
            ∧ (e.tile t).outs = (d3.tile t).outs ++ [⟨(d3.tile t).nextOp, bitsOf w 6 4, .hdisp o.id⟩]
            ∧ d3.tilesBut e t ∧ d3.onlyIn e [.tiles, .cq, .henOps, .nextHenOp])
        ∧ (chk.1 ≠ 0 → e.henOps = (d1.skip t 2 chk.1 w).henOps ∧ (d1.skip t 2 chk.1 w).onlyIn e [.tiles]
            ∧ ((d1.skip t 2 chk.1 w).tile t).sameWork (e.tile t))

/-- A hen operation starts unless its dispatch is held in the mesh, where it waits unchanged while a controller it goes to
holds 256 earlier ones. A row step of the hen whose earliest operation not done has started takes one off what that hen has
left and writes the results of some of its next rows, all that are left with the last; which rows is left open (log entry 76).
While its stack is at 105 °C or more an idle row step follows each, which changes nothing else.
The exchange of an HATTN that every hen of it runs hands every head's maximum score to its hens. Once each of its hens has done
its part it finishes: its results are written, CS_HEN_OPS of each stack it reached counts it, its HDISP is outstanding no
longer, and it leaves the stack controllers (07 R188, R193, R197 to R199; 06 R172; 13 R389). -/
def Obligations.HenOperationsRun : Prop :=
  ((∀ (s : State) (o : HenOp), s.dev.henOp? o.id = some o → o.started = false →
     (s.dev.inMesh o = true → exec (.henStart o.id) s = .next s)
     ∧ (s.dev.inMesh o = false → ∃ e : Dev, exec (.henStart o.id) s = .next { s with dev := e }
         ∧ e.henOps = s.dev.henOps.map (fun p => if p.id = o.id then
             { p with started := true, stepsLeft := o.hens.foldl (fun z u => tset z u (o.stepsOf u)) [] } else p)
         ∧ s.dev.onlyIn e [.henOps]))
   ∧ (∀ (s : State) (u : HenId) (o : HenOp), s.dev.nextOn u = some o → o.idle.contains u = true →
     exec (.henRowStep u) s = .next { s with dev := { s.dev with henOps := s.dev.henOps.map (fun p => if p.id = o.id then
       { p with idle := p.idle.filter (· != u.val) } else p) } })
   ∧ (∀ (s : State) (u : HenId) (o : HenOp), s.dev.nextOn u = some o → o.idle.contains u = false → o.started = true →
     tget o.stepsLeft 0 u ≠ 0 →
     let idle (p : HenOp) : List Nat := if 420 ≤ s.dev.getF (rCsTemp (u / 32)) fCsTemp_Temp then u.val :: p.idle else p.idle
     let left := tget o.stepsLeft 0 u
     let k := tget o.rowsDone 0 u
     let rest := (o.rowsOf u).length - k
     ∃ (e : Dev) (n : Nat), exec (.henRowStep u) s = .next { s with dev := e } ∧ n ≤ rest ∧ (left = 1 → n = rest)
       ∧ (o.kind = 2 → e.henOps = s.dev.henOps.map (fun p => if p.id = o.id then
             { p with stepsLeft := tset p.stepsLeft u (left - 1), idle := idle p } else p) ∧ s.dev.onlyIn e [.henOps, .free])
       ∧ (o.kind ≠ 2 → ∃ d1 : Dev, s.dev.onlyIn d1 [.henOps, .free]
           ∧ d1.henOps = s.dev.henOps.map (fun p => if p.id = o.id then
               { p with stepsLeft := tset p.stepsLeft u (left - 1), idle := idle p } else p)
           ∧ let d2 := (((o.rowsOf u).drop k).take n).foldl (fun d r => d.henRow o u r) d1
             d2.onlyIn e [.henOps] ∧ e.henOps = d2.henOps.map (fun p => if p.id = o.id then
               { p with rowsDone := tset p.rowsDone u (k + n) } else p)))
   ∧ (∀ (s : State) (o : HenOp), s.dev.henOp? o.id = some o → o.started = true → o.exchanged = false → o.kind = 2 →
     (∀ u ∈ o.hens, (s.dev.nextOn u).map (·.id) = some o.id) →
     let rd := o.positions.foldl (fun (acc : Dev × List (List ElemRead)) r =>
       ((acc.1.henReadRow (o.types.getD 0 0) r.elems).1, acc.2 ++ [(acc.1.henReadRow (o.types.getD 0 0) r.elems).2])) (s.dev, [])
     let sc := rd.2.map (fun cs => o.input.map (fun q => o.score q cs))
     ∃ e : Dev, exec (.hattnExchange o.id) s = .next { s with dev := e }
       ∧ e.henOps = rd.1.henOps.map (fun p => if p.id = o.id then
           { p with
             exchanged := true
             scores := sc.map (·.map (·.1))
             rowMax := (List.range (o.dims.getD 1 0)).map (fun h => sc.foldl (fun (m : W32 × Bool) r =>
             (fmax m.1 ((r.map (·.1)).getD h (0, false)).1, m.2 || ((r.map (·.1)).getD h (0, false)).2)) (infOf true, false)) }
           else p)
       ∧ rd.1.onlyIn e [.henOps, .cq]))
  ∧ (∀ (s : State) (o : HenOp), s.dev.henOp? o.id = some o → o.started = true → (∀ u ∈ o.hens, o.doneBy u = true) →
     let d1 := if o.kind = 2 then s.dev.attnFinish o else o.hens.foldl (fun d u => d.henRowsDone o u o.rows.length) s.dev
     let d2 := o.stks.foldl (fun d n => d.rollF (rCsHenOps n) fCsHenOps_Ops 1) d1
     ∃ e : Dev, exec (.henOpFinish o.id) s = .next { s with dev := e }
       ∧ e.henOps = d1.henOps.filter (fun p => p.id != o.id)
       ∧ (e.tile o.tile).outs = (d1.tile o.tile).outs.filter (fun z => z.id != o.outId)
       ∧ d1.tilesBut e o.tile ∧ e.regs = d2.regs ∧ d1.onlyIn e [.henOps, .tiles, .regs])

/-! ## Tiles: the loop slot -/

/-- LOOP counts as R96 says: a count of 0 leaves the body out, any other opens a level that saves the coordinates its
record names. SPREAD adds rank × increment to each coordinate its record names, and CSET sets one cursor to 0. CALL saves
routine, bundle and bound arguments and enters its routine with the arguments its record binds; RET goes back, closing the
levels the routine opened, and with no CALL open acts as END. A WAIT whose condition does not hold leaves everything as it
is, and one that holds takes ACOUNT from its counter; BARRIER holds its tile until every tile of the command has ended or
waits at one (04 R86, R94, R96, R97, R112 to R115, Table 4-8). What the end of an enclosing loop body then does is left to
the other clauses. -/
def Obligations.LoopSlotMovesControl : Prop :=
  ((∀ (s : State) (t : TileId) (c : Cmd) (w : W64), s.dev.issuing t 3 1 c w →
     let x := s.dev.tile t
     let n := if bitOf w 6 then ((c.rc.getD (bitsOf w 7 3) 0 : Int) + signed 12 (bitsOf w 14 12)) / 2 ^ bitsOf w 10 4
       else (bitsOf w 7 24 : Int)
     let last := x.bundle + bitsOf w 31 11
     let r := bitsOf w 42 6
     let fresh : Tile := { x with issued := [], written := [], preV := [] }
     ∃ e : Dev, exec (.loop t) s = .next { s with dev := e }
       ∧ (0 < n → e.tile t = { fresh with
           bundle := x.bundle + 1
           loops := ⟨x.bundle + 1, last, n.toNat, true, if r = 0x3F then none else some r,
             if r = 0x3F then [] else x.savedBy (s.dev.recordOf t r), x.frames.length, x.routine⟩ :: x.loops })
       ∧ (n ≤ 0 → x.sameWork (e.tile t) ∧ (x.loops = [] → e.tile t = { fresh with bundle := last + 1 }))
       ∧ s.dev.tilesBut e t ∧ s.dev.onlyIn e [.tiles])
   ∧ (∀ (s : State) (t : TileId) (c : Cmd) (w : W64), s.dev.issuing t 3 6 c w →
     let x := s.dev.tile t
     ∃ e : Dev, exec (.spread t) s = .next { s with dev := e } ∧ x.sameWork (e.tile t)
       ∧ (x.loops = [] → (e.tile t).cursors = (x.increment (triples x.args (s.dev.recordOf t (bitsOf w 6 6))) x.rank).cursors)
       ∧ s.dev.tilesBut e t ∧ s.dev.onlyIn e [.tiles])
   ∧ (∀ (s : State) (t : TileId) (c : Cmd) (w : W64), s.dev.issuing t 3 7 c w →
     let x := s.dev.tile t
     ∃ e : Dev, exec (.cset t) s = .next { s with dev := e } ∧ x.sameWork (e.tile t)
       ∧ (x.loops = [] → ∀ h : Nat, (e.tile t).cursor h
           = if s.dev.resolve t (bitsOf w 6 13) = .ok h then List.replicate 9 0 else x.cursor h)
       ∧ s.dev.tilesBut e t ∧ s.dev.onlyIn e [.tiles]))
  ∧ ((∀ (s : State) (t : TileId) (c : Cmd) (w : W64), s.dev.issuing t 3 2 c w →
     let x := s.dev.tile t
     let a := bitsOf w 14 6
     ∃ e : Dev, exec (.call t) s = .next { s with dev := e }
       ∧ { e.tile t with args := x.args } = { x with
           issued := [], written := [], preV := [], frames := ⟨x.routine, x.bundle, x.args⟩ :: x.frames, routine := bitsOf w 6 8
           bundle := 0 }
       ∧ (a = 0x3F → (e.tile t).args = List.replicate 8 0x1FFF)
       ∧ (a ≠ 0x3F → ∀ k : Nat, k < 8 → (e.tile t).args[k]? = some
           (match resolveArg x.args (bitsOf (s.dev.recordOf t a) (16 * k) 13) with
            | .ok h => BitVec.ofNat 13 h
            | .error _ => 0x1FFF))
       ∧ s.dev.tilesBut e t ∧ s.dev.onlyIn e [.tiles])
   ∧ (∀ (s : State) (t : TileId) (c : Cmd) (w : W64), s.dev.issuing t 3 3 c w →
     let x := s.dev.tile t
     let fresh : Tile := { x with issued := [], written := [], preV := [] }
     ∃ e : Dev, exec (.ret t) s = .next { s with dev := e }
       ∧ (x.frames = [] → e.tile t = { fresh with ended := true, atBarrier := false })
       ∧ (∀ (f : Frame) (fs : List Frame), x.frames = f :: fs → (∀ l ∈ x.loops, l.depth = x.frames.length) → x.loops.length ≤ 6 →
           e.tile t = { fresh with
             frames := fs, routine := f.routine, bundle := f.bundle + 1, args := f.args, loops := []
             cursors := (x.loops.foldl (fun y l => y.restore l.saved) x).cursors })
       ∧ s.dev.tilesBut e t ∧ s.dev.onlyIn e [.tiles])
   ∧ (∀ (s : State) (t : TileId) (c : Cmd) (w : W64), s.dev.issuing t 3 8 c w →
     ∃ e : Dev, exec (.endProgram t) s = .next { s with dev := e }
       ∧ e.tile t = { s.dev.tile t with issued := [], written := [], preV := [], ended := true, atBarrier := false }
       ∧ s.dev.tilesBut e t ∧ s.dev.onlyIn e [.tiles]))
  ∧ ((∀ (s : State) (t : TileId) (c : Cmd) (w : W64), s.dev.issuing t 3 4 c w →
     let x := s.dev.tile t
     let met : Prop := (∀ g : Nat, g < 16 → bitOf w (6 + g) = true → ∀ o ∈ x.outs, o.tag = g → o.kind.counts = false)
       ∧ (bitOf w 26 = true → bitsOf w 27 24 ≤ (tget x.arrival 0 (bitsOf w 22 4)).toNat)
     (¬ met → exec (.wait t) s = .next s)
     ∧ (met → ∃ e : Dev, exec (.wait t) s = .next { s with dev := e }
         ∧ (∀ a : Nat, tget (e.tile t).arrival 0 a = tget x.arrival 0 a
             - (if bitOf w 26 = true ∧ a = bitsOf w 22 4 then BitVec.ofNat 24 (bitsOf w 27 24) else 0))
         ∧ x.sameWork { e.tile t with arrival := x.arrival } ∧ (x.loops = [] → (e.tile t).cursors = x.cursors)
         ∧ s.dev.tilesBut e t ∧ s.dev.onlyIn e [.tiles]))
   ∧ (∀ (s : State) (t : TileId) (c : Cmd) (w : W64), s.dev.issuing t 3 5 c w →
     ∃ e : Dev, exec (.barrier t) s = .next { s with dev := e } ∧ e.tile t = { s.dev.tile t with atBarrier := true }
       ∧ s.dev.tilesBut e t ∧ s.dev.onlyIn e [.tiles])
   ∧ (∀ (s : State) (c : Nat),
     let mine := s.dev.tiles.filter (fun z => z.2.cmd == some c)
     ((∃ z ∈ mine, z.2.ended = false ∧ z.2.atBarrier = false) → exec (.barrierRelease c) s = .next s)
     ∧ ((∀ z ∈ mine, z.2.ended = true ∨ z.2.atBarrier = true) → ∃ e : Dev,
         exec (.barrierRelease c) s = .next { s with dev := e }
         ∧ (∀ t : Nat, (∃ z ∈ mine, z.1 = t ∧ z.2.atBarrier = true) →
             ({ s.dev.tile t with atBarrier := false } : Tile).sameWork (e.tile t))
         ∧ (∀ t : Nat, (∀ z ∈ mine, z.1 = t → z.2.atBarrier = false) → e.tile t = s.dev.tile t)
         ∧ s.dev.onlyIn e [.tiles])))

/-! ## Queues and the command processors -/

/-- A posted write in a queue window: what is no valid submission is rejected and counted in QREJ; a record that finds no credit
is dropped, counted in QOVF and named in LASTDROP; either sets the queue's bit, and leaves every queue as it was. Any other is
the last record of its queue, counted in WCNT, and ends what stood in the storage word it takes (05 R131 to R133, R151; 12
R338). The order of arrival over all queues is kept beside it, for the copies that share a staging region (03 R79). -/
def Obligations.QueueWriteIsAcceptedDroppedOrRejected : Prop :=
  ∀ (s : State) (f : Func) (off : Nat) (data : List Byte), s.dev.reached f → off < 0x80_0000 →
    let d := s.dev
    let q := off / 0x1_0000
    let p := d.queuePart q
    let bad : Prop := data.length ≠ 64 ∨ off % 64 ≠ 0 ∨ d.queueEn q = false ∨ d.queueFunc q ≠ f ∨ (p < 6 ∧ d.inReset p = true)
    let r := recOf data
    ∃ e : Dev, exec (.queueRecordWrite f off data) s = .next { s with dev := e }
      ∧ (bad → e.getF (rCqQQrej q) fCqQQrej_Qrej = min (2 ^ 32 - 1) (d.getF (rCqQQrej q) fCqQQrej_Qrej + 1)
          ∧ e.event (pgCqQ q) (q % 32) = true ∧ d.regsBut e [rCqQQrej q, rBlkIntStat (pgCqQ q), rHifTxDrop, rBlkIntStat pgHif]
          ∧ d.onlyIn e [.regs, .hif])
      ∧ (¬ bad → d.credit q = 0 → e.getF (rCqQQovf q) fCqQQovf_Qovf = min (2 ^ 32 - 1) (d.getF (rCqQQovf q) fCqQQovf_Qovf + 1)
          ∧ e.getF (rCqQLastdrop q) fCqQLastdrop_Seq = bitsOf r 32 32
          ∧ e.event (pgCqQ q) (q % 32) = true ∧ d.onlyIn e [.regs, .hif])
      ∧ (¬ bad → d.credit q ≠ 0 → e.cq = { d.cq with
            storage := tset d.cq.storage q (d.waiting q ++ [r])
            stamps := tset d.cq.stamps q (tget d.cq.stamps [] q ++ [d.cq.nextStamp])
            nextStamp := d.cq.nextStamp + 1 }
          ∧ e.getF (rCqQWcnt q) fCqQWcnt_Wcnt = (d.getF (rCqQWcnt q) fCqQWcnt_Wcnt + 1) % 2 ^ 32
          ∧ (d.pstate = 0 → d.regsBut e [rCqQWcnt q] ∧ d.onlyIn e [.cq, .regs, .upsets])
          ∧ (opcodeOf r = 0x21 → d.pstate = 2 ∨ d.pstate = 3 → e.pstate = 4 ∧ e.getF rPwrState fPwrState_WakeSrc = 2))

/-- Whatever row its record calls for, a head that waits for something, or that another queue of its partition comes before in
the round robin, is left alone; one whose record fails a check of codes 0x10 to 0x14 completes with that status, its credit back,
and runs nothing; a NOP that may start completes with OK and does nothing else (05 R136, R140, R141, Table 5-6). -/
def Obligations.HeadsCompleteAtTheirStart : Prop :=
  (∀ row ∈ [((fun q => Instr.nop q : QueueId → Instr), 0), (.runProgram, 0x01), (.copy, 0x02), (.libLoad, 0x03), (.modelLoad, 0x10),
       (.modelEvict, 0x11), (.deltaPut, 0x12), (.deltaRetire, 0x13), (.adaptStep, 0x14), (.pageRetire, 0x20),
       (.powerState, 0x21), (.fenceEpoch, 0x22)],
     ∀ (s : State) (q : QueueId),
       (∀ r ∈ (s.dev.waiting q).head?, s.dev.waitReasons q r ≠ [] ∨ s.dev.outOfTurn q = true →
         exec (row.1 q) s = .next s)
       ∧ ∀ (r : Rec) (rest : List Rec), s.dev.headOpen q r rest → recordRow r = row.2 → s.dev.recordCheck q r ≠ 0 →
       ∃ e : Dev, exec (row.1 q) s = .next { s with dev := e }
         ∧ (s.dev.popHead q).endsAtStart e (s.dev.mkCmd q r) (s.dev.recordCheck q r) 0 0 0 [])
  ∧ (∀ (s : State) (q : QueueId) (r : Rec) (rest : List Rec) (d1 : Dev) (x : Cmd), s.dev.starting d1 q 0 r rest x →
     ∃ e : Dev, exec (.nop q) s = .next { s with dev := e } ∧ d1.endsAtStart e x 0 0 0 0 [])

/-- RUN_PROGRAM and ADAPT_STEP, their checks passed and their descriptors read and found good, start: the tiles of their set stand
at the entry routine's first bundle with their rank in the set, the bound arguments and fresh state, their atomic slots zero, and
the command holds the latched counts, descriptors and scatter lists; where its partition's job is on the fold, the record stays the
head of its queue with its checks passed, to start with a period, or completes with FOLD_STOP where the job is stopped (03 R47,
R66; 04 R84, R85, Table 4-1; 05 R137; 06 R165; 09 R273; 10 R302, R303). -/
def Obligations.ProgramsStartOnTheirTiles : Prop :=
  ∀ row ∈ [((fun q => Instr.runProgram q : QueueId → Instr), 0x01), (.adaptStep, 0x14)],
    ∀ (s : State) (q : QueueId) (r : Rec) (rest : List Rec) (d1 d2 : Dev) (x : Cmd) (rc : Reach),
      s.dev.starting d1 q row.2 r rest x → s.dev.programCheck x.part r = 0 →
      let cp := s.dev.cpOf x.part x.ctx
      let hw := s.dev.programHandles x.part r
      s.dev.headHas q x.func (s.dev.startNeeds q cp (ascending hw.1) (ascending hw.2)) →
      s.dev.validate cp hw.1 hw.2 = (d2, .ok rc) → (row.2 = 0x14 → d2.trains x.part r = true) → d2.upsets = [] →
      let ts := tileSet r
      (s.dev.foldPart x.part = false → ∃ e : Dev, exec (row.1 q) s = .next { s with dev := e }
        ∧ (d2.popHead q).begun e
            { x with
              rc := s.dev.latchCounts r, tiles := ts, phase := .running, start := d2.time, descs := rc.descs
              lists := rc.lists, bypass := d2.trainRange r }
            [.tiles, .slots]
        ∧ (∀ (i u : Nat), ts[i]? = some u → e.tile u =
            { cmd := some x.id, rank := i, nt := ts.length, routine := bitsOf r 128 8
              args := (List.range 8).map (fun k => BitVec.ofNat 13 (bitsOf r (192 + 13 * k) 13)) }
            ∧ ∀ a : Nat, u * 4096 ≤ a → a < (u + 1) * 4096 → e.slots.byte a = 0)
        ∧ (∀ u : Nat, ts.contains u = false → e.tile u = d2.tile u))
      ∧ (s.dev.foldPart x.part = true → ∃ e : Dev, exec (row.1 q) s = .next { s with dev := e }
          ∧ (d2.jobStopped x.part = false → e.cq = { d2.cq with
                checked := tset d2.cq.checked q { x with descs := rc.descs, lists := rc.lists, fold := true } }
              ∧ d2.onlyIn e [.cq])
          ∧ (d2.jobStopped x.part = true → (d2.popHead q).endsAtStart e x 0x55 0 0 0 []))

/-- A COPY whose checks pass, whose spans do not need staging and whose views share no physical memory (R80) moves its elements
from the source to the destination in index order and has finished, holding its DMA channel until COMMAND_COMPLETE; one whose
source lies in host memory asks for it first (05 R138; 03 R75 to R77; 15 R427). Its elements move at its start or when the last
read has come, a reading of this model. -/
def Obligations.CopyMovesItsElements : Prop :=
  ∀ (s : State) (q : QueueId) (r : Rec) (rest : List Rec) (d1 d2 : Dev) (x : Cmd) (rc0 : Reach),
    s.dev.starting d1 q 0x02 r rest x → s.dev.copyCheck x.part r = 0 →
    let cp := s.dev.cpOf x.part x.ctx
    s.dev.headHas q x.func (s.dev.startNeeds q cp (ascending [copySrc r, copyDst r]) [copyDst r, copySrc r]) →
    s.dev.validate cp [copySrc r, copyDst r] [copyDst r] (countsDiffer r) = (d2, .ok rc0) → rc0.staged r = false → d2.upsets = [] →
    let y : Cmd := { x with
      descs := rc0.descs, lists := rc0.lists, phase := .running, start := d2.time
      engines := [⟨.dma, 4 * copySect r + bitsOf r 163 2⟩] }
    let d3 := (d2.popHead q).begin_ y
    let rc := y.copyReach
    let host := d3.copyHost y
    rc.count (copySrc r) = rc.count (copyDst r) ∧ (d2.popHead q).begun d3 y []
    ∧ (∀ (d4 : Dev) (its : List Item), host = [] → d3.copyItems rc r (List.range (rc.count (copySrc r))) = (d4, its, none) →
        d4.aliased rc r = false → ∃ e : Dev, exec (.copy q) s = .next { s with dev := e }
          ∧ let d5 := d4.store ⟨x.id, 0, 0, x.func⟩ rc (copyDst r) false (copySat r) its
            d5.onlyIn e [.cq] ∧ e.cq.cmds = d5.cq.cmds.map (fun z =>
              if z.id = x.id ∧ z.phase = .running then { z with phase := .finished } else z)
            ∧ ({ e.cq with cmds := d5.cq.cmds } : Cq) = d5.cq)
    ∧ (host ≠ [] → d3.masters x.func = true → ∃ e : Dev, exec (.copy q) s = .next { s with dev := e }
        ∧ e.hif.reads = d3.hif.reads
            ++ host.map (fun g => (⟨x.func, g.addr, 64, .cmd x.id, g.vaddr, g.handle, d3.time⟩ : OutRead))
        ∧ d3.onlyIn e [.hif])

/-- LIB_LOAD and FENCE_EPOCH, their checks passed, start and ask for the header of their image where it lies in host memory
(04 R118; 10 R295, R305; 15 R427). -/
def Obligations.ImageCommandsStart : Prop :=
  (∀ (s : State) (q : QueueId) (r : Rec) (rest : List Rec) (d1 : Dev) (x : Cmd), s.dev.starting d1 q 0x03 r rest x →
    bitsOf r 128 48 % 64 = 0 → d1.masters x.func = true →
    let d2 := d1.begin_ { x with phase := .waiting }
    let host := d2.hostPieces (d2.cpOf x.part x.ctx) (bitsOf r 176 8) (bitsOf r 128 48) 64
    ∃ e : Dev, exec (.libLoad q) s = .next { s with dev := e } ∧ d1.begun d2 { x with phase := .waiting } []
      ∧ e.hif.reads = d2.hif.reads ++ host.map (fun g => (⟨x.func, g.2, 64, .cmd x.id, g.1, 0, d2.time⟩ : OutRead))
      ∧ d2.onlyIn e [.hif])
  ∧ (∀ (s : State) (q : QueueId) (r : Rec) (rest : List Rec) (d1 : Dev) (x : Cmd), s.dev.starting d1 q 0x22 r rest x →
    d1.masters x.func = true →
    let p := bitsOf r 128 3
    d1.ctxEn p x.ctx = true → d1.ctxFunc p x.ctx = x.func → d1.trapped p x.ctx = false → bitsOf r 136 6 = 0 →
    d1.getF rFabEpoch fFabEpoch_Epoch < bitsOf r 192 32 → (∀ y ∈ d1.cq.cmds, y.opcode ≠ 0x22) →
    let d2 := d1.begin_ { x with phase := .running }
    let host := d2.hostPieces { src := 5, part := p, ctx := x.ctx } (bitsOf r 184 8) (bitsOf r 136 48) 512
    ∃ e : Dev, exec (.fenceEpoch q) s = .next { s with dev := e } ∧ d1.begun d2 { x with phase := .running } []
      ∧ e.hif.reads = d2.hif.reads ++ host.map (fun g => (⟨x.func, g.2, 64, .cmd x.id, g.1, 0, d2.time⟩ : OutRead))
      ∧ d2.onlyIn e [.hif])

/-- The images that started commands copied are judged, and what they hold comes into force: a library in the sectors of its
partition, a model in its slot, a delta as a version, an epoch in the staging table; a wrong check word is CRC's status and
changes nothing but the command (04 R118, R119; 09 R262, R269; 10 R295, R305). Each image is read when it is judged, a reading
of this model. -/
def Obligations.ImagesAreJudged : Prop :=
  (∀ (s : State) (c : Nat) (x : Cmd) (d1 d2 : Dev) (h img : List Byte), s.dev.cmd? c = some x → x.opcode = 0x03 →
    x.phase = .waiting → s.dev.libWaits x = false → s.dev.gan.cfgPend = [] → (x.slot = 0 → s.dev.libRest x = []) →
    let e0 := s.dev.cpOf x.part x.ctx
    s.dev.readVa e0 (bitsOf x.word 176 8) (bitsOf x.word 128 48) 64 = (d1, .ok h) →
    d1.readVa e0 (bitsOf x.word 176 8) (bitsOf x.word 128 48) (imageBytes h + 1716) = (d2, .ok img) →
    ∃ e : Dev, exec (.libLoadVerify c) s = .next { s with dev := e }
      ∧ match judgeLibrary d2.gan.cfg img with
        | (0, some l) =>
          let d3 := d2.install x.part l
          if l.libVer ≤ d2.gan.cfg.mark l.keyid then d3.onlyIn e [.cq]
            ∧ e.cq.cmds = d3.cq.cmds.map (fun y => if y.id = c then { y with phase := .finished } else y)
          else e.gan.cfgPend = d2.gan.cfgPend ++ [(.mark l.keyid l.libVer, .cmd c)] ∧ e.cq = d3.cq ∧ e.sect = d3.sect
        | (code, _) => d2.onlyIn e [.cq, .tiles]
            ∧ e.cq.cmds = d2.cq.cmds.map (fun y => if y.id = c then y.fail d2.time code 0 0 else y))
  ∧ (∀ (s : State) (c : Nat) (x : Cmd) (d1 : Dev) (bs : List Byte), s.dev.cmd? c = some x → x.opcode = 0x10 → x.phase = .running →
    s.dev.readsWait c = false →
    let r := x.word
    s.dev.loadCopy (dmaOf (loadPart x.part r) x.ctx x.dmaSect) c (bitsOf r 192 8) (bitsOf r 144 48)
      (fld (s.dev.reg (rSrvSlotBase x.slot)) fSrvSlotBase_Base * 65536) (bitsOf r 200 40) = (d1, some bs) →
    (crc32c bs = bitsOf r 320 32 → ∃ e : Dev, exec (.modelLoadCheck c) s = .next { s with dev := e }
      ∧ let d2 := d1.slotReady x.slot r
        d2.slotState x.slot = 2 ∧ d2.onlyIn e [.cq]
        ∧ e.cq.cmds = d2.cq.cmds.map (fun y => if y.id = c ∧ y.phase = .running then { y with phase := .finished } else y))
    ∧ (crc32c bs ≠ bitsOf r 320 32 → ∃ e : Dev, exec (.modelLoadCheck c) s = .next { s with dev := e }
      ∧ d1.onlyIn e [.cq, .tiles] ∧ e.cq.cmds = d1.cq.cmds.map (fun y => if y.id = c then y.fail d1.time 0x43 0 0 else y)))
  ∧ (∀ (s : State) (c : Nat) (x : Cmd) (d1 : Dev) (img : List Byte), s.dev.cmd? c = some x → x.opcode = 0x12 → x.phase = .running →
    s.dev.readsWait c = false →
    let r := x.word
    let dst := bitsOf r 208 48
    let n := bitsOf r 264 32
    s.dev.loadCopy { dmaOf x.part x.ctx x.dmaSect with bypass := (dst, dst + n) } c (bitsOf r 256 8) (bitsOf r 160 48) dst n
      = (d1, some img) →
    (d1.version x.slot).state = .loading →
    let code := d1.deltaImage (d1.version x.slot).slot (bitsOf r 296 32) img
    (code = 0 → ∃ e : Dev, exec (.deltaPutCheck c) s = .next { s with dev := e }
      ∧ let d2 := d1.setVersion x.slot { d1.version x.slot with nb := deltaNb img, state := .train }
        let d3 := if bitsOf r 144 2 = 0 then d2.goLive x.slot (if bitOf r 146 then some (bitsOf r 148 12) else none) else d2
        d3.onlyIn e [.cq]
        ∧ e.cq.cmds = d3.cq.cmds.map (fun y => if y.id = c ∧ y.phase = .running then { y with phase := .finished } else y))
    ∧ (code ≠ 0 → ∃ e : Dev, exec (.deltaPutCheck c) s = .next { s with dev := e }
      ∧ d1.onlyIn e [.cq, .tiles] ∧ e.cq.cmds = d1.cq.cmds.map (fun y => if y.id = c then y.fail d1.time code 0 0 else y)))
  ∧ (∀ (s : State) (c : Nat) (x : Cmd) (d1 d2 : Dev) (hb bs : List Byte), s.dev.cmd? c = some x → x.opcode = 0x22 →
    x.phase = .running → s.dev.readsWait c = false →
    let e0 : Engine := { src := 5, part := bitsOf x.word 128 3, ctx := x.ctx }
    let va := bitsOf x.word 136 48
    s.dev.readVa e0 (bitsOf x.word 184 8) va 512 = (d1, .ok hb) →
    let h : BitVec 4096 := BitVec.ofNat 4096 (leNat hb)
    (imageTables h).foldl (· + ·) 0 ≤ 32768 → (x.slot = 0 → d1.hostPieces e0 (bitsOf x.word 184 8) (va + 512) (imageRest h) = []) →
    d1.readVa e0 (bitsOf x.word 184 8) va (512 + imageRest h) = (d2, .ok bs) →
    (d2.imageOk bs = true → ∃ e : Dev, exec (.epochImageCheck c) s = .next { s with dev := e }
      ∧ e.fab = { d2.fab with staged := some (imageOf (bitsOf x.word 192 32) bs) } ∧ e.getF rFabStatus fFabStatus_Staged = 1
      ∧ e.cq.cmds = d2.cq.cmds.map (fun y => if y.id = c then { y with phase := .finished } else y)
      ∧ d2.regsBut e [rFabStatus] ∧ d2.onlyIn e [.fab, .cq, .regs])
    ∧ (d2.imageOk bs = false → ∃ e : Dev, exec (.epochImageCheck c) s = .next { s with dev := e } ∧ e.fab = d2.fab
      ∧ e.cq.cmds = d2.cq.cmds.filter (fun y => y.id != c)))

/-- A MODEL_LOAD that passes its checks puts its slot (the one named, or the one R263 picks, evicted first where it was
READY) into LOADING and starts on DMA channel 3, its host granules asked for; one that fails a check completes with its
status. MODEL_EVICT of a READY slot of its partition starts the drain, or with no live request the eviction, and completes
with OK; of any other slot it completes with SLOT_STATE. SLOT_EVICTED ends an eviction that no ADAPT_STEP holds up: the
slot is EMPTY, and no node and no version of it is left (09 R256, R261 to R264, Table 9-4; 12 R344). -/
def Obligations.ModelsLoadAndLeave : Prop :=
  (∀ (s : State) (q : QueueId) (r : Rec) (rest : List Rec) (d1 : Dev) (x : Cmd), s.dev.starting d1 q 0x10 r rest x →
     d1.masters x.func = true →
     let p := loadPart x.part r
     ∃ e : Dev, exec (.modelLoad q) s = .next { s with dev := e }
       ∧ match d1.loadCheck x with
         | .error code => d1.endsAtStart e x code 0 0 0 []
         | .ok (n, k) =>
           let d2 := if d1.slotState n = 2 then ((d1.enterEvicting n).freeVersionsOf n).enterSlotState n 0 else d1
           let d3 := d2.enterSlotState n 1
           let y : Cmd := { x with slot := n, engines := [⟨.dma, 4 * k + 3⟩] }
           let host := (d3.begin_ y).hostPieces (dmaOf p x.ctx k) (bitsOf r 192 8) (bitsOf r 144 48) (bitsOf r 200 40)
           d3.slotState n = 1 ∧ d1.onlyIn d3 [.regs, .srv, .hif] ∧ d3.begun e y [.hif]
             ∧ e.hif.reads = d3.hif.reads ++ host.map (fun g => (⟨x.func, g.2, 64, .cmd x.id, g.1, 0, d1.time⟩ : OutRead)))
  ∧ ((∀ (s : State) (q : QueueId) (r : Rec) (rest : List Rec) (d1 : Dev) (x : Cmd), s.dev.starting d1 q 0x11 r rest x →
     let n := bitsOf r 128 4
     ∃ e : Dev, exec (.modelEvict q) s = .next { s with dev := e }
       ∧ (d1.slotState n = 2 → (x.part = 7 ∨ d1.slotPart n = x.part) →
           let d2 := if d1.slotLive n = 0 then d1.enterEvicting n else d1.enterSlotState n 3
           d2.slotState n = (if d1.slotLive n = 0 then 4 else 3)
             ∧ d2.srv.nodes = d1.srv.nodes.filter (fun z => !(d1.slotLive n == 0 && z.2.slot == n))
             ∧ d1.onlyIn d2 [.regs, .srv, .hif] ∧ d2.endsAtStart e x 0 0 0 0 [])
       ∧ (¬ (d1.slotState n = 2 ∧ (x.part = 7 ∨ d1.slotPart n = x.part)) → d1.endsAtStart e x 0x42 0 0 0 []))
   ∧ (∀ (s : State) (n : SlotId), s.dev.slotState n = 4 →
     (∀ x ∈ s.dev.cq.cmds, x.opcode = 0x14 → (s.dev.version (bitsOf x.word 296 12)).slot ≠ n) →
     ∃ e : Dev, exec (.slotEvicted n) s = .next { s with dev := e } ∧ e.slotState n = 0
       ∧ e.srv.nodes.all (fun z => z.2.slot != n) = true
       ∧ (∀ v : Nat, (s.dev.version v).slot = n → (e.version v).state = .free)
       ∧ e.srv.entries = s.dev.srv.entries ∧ s.dev.onlyIn e [.regs, .srv, .hif]))

/-- A DELTA_PUT that passes its checks starts: a load makes its version LOADING on DMA channel 3 and asks for its host
granules; FREEZE makes its TRAIN version LIVE and completes with OK. DELTA_RETIRE, its slot READY and of its partition,
completes with OK at once: a LIVE version becomes RETIRING, or FREE where no request holds it, and its lineage is left
with no current version when it was that; a TRAIN version becomes FREE; any other state gives DELTA_STATE (09 R268 to
R271, Table 9-6). -/
def Obligations.DeltasComeAndGo : Prop :=
  (∀ (s : State) (q : QueueId) (r : Rec) (rest : List Rec) (d1 : Dev) (x : Cmd), s.dev.starting d1 q 0x12 r rest x →
     d1.masters x.func = true →
     let v := bitsOf r 128 12
     let code := d1.putCheck x.part r
     ∃ e : Dev, exec (.deltaPut q) s = .next { s with dev := e }
       ∧ (code ≠ 0 → d1.endsAtStart e x code 0 0 0 [])
       ∧ (code = 0 → bitsOf r 144 2 = 2 →
           let d2 := d1.goLive v (if bitOf r 146 then some (bitsOf r 148 12) else none)
           (d2.version v).state = .live ∧ d1.onlyIn d2 [.srv] ∧ d2.endsAtStart e x 0 0 0 0 [])
       ∧ (code = 0 → bitsOf r 144 2 ≠ 2 →
           let k := (d1.fixedChannel x.part (d1.liveSect x.part) 3).getD 0
           let y : Cmd := { x with slot := v, engines := [⟨.dma, 4 * k + 3⟩] }
           let d2 := d1.setVersion v
             { state := .loading, slot := bitsOf r 140 4, part := x.part, lineage := v, base := bitsOf r 208 48
               bytes := bitsOf r 264 32 }
           let host := (d2.begin_ y).hostPieces (dmaOf x.part x.ctx k) (bitsOf r 256 8) (bitsOf r 160 48) (bitsOf r 264 32)
           (d2.version v).state = .loading ∧ d2.begun e y [.hif]
             ∧ e.hif.reads = d2.hif.reads ++ host.map (fun g => (⟨x.func, g.2, 64, .cmd x.id, g.1, 0, d1.time⟩ : OutRead))))
  ∧ (∀ (s : State) (q : QueueId) (r : Rec) (rest : List Rec) (d1 : Dev) (x : Cmd), s.dev.starting d1 q 0x13 r rest x →
     let v := bitsOf r 128 12
     let y := d1.version v
     d1.slotState (bitsOf r 140 4) = 2 → d1.slotPart (bitsOf r 140 4) = x.part → y.slot = bitsOf r 140 4 →
     ∃ (d2 e : Dev), exec (.deltaRetire q) s = .next { s with dev := e }
       ∧ (y.state = .live ∨ y.state = .train → d2.endsAtStart e x 0 0 0 0 [] ∧ d1.onlyIn d2 [.srv]
           ∧ (d2.version v).state = (if y.state = .live ∧ y.refs ≠ 0 then .retiring else .free)
           ∧ (y.state = .live → tfind d2.srv.current y.lineage ≠ some v)
           ∧ d2.srv.entries = d1.srv.entries ∧ (∀ u : Nat, u ≠ v → d2.version u = d1.version u))
       ∧ (y.state ≠ .live → y.state ≠ .train → d1.endsAtStart e x 0x44 0 0 0 []))

/-- PAGE_RETIRE, its checks passed, retires what it names: it counts as retired from then on. Without PERSIST it completes with OK
at once, or, where accesses to its region are still in flight, when they have ended; with PERSIST it waits for the configuration
write that records it; of what is already retired it changes nothing (12 R349 to R351, Table 12-4). That a retirement is in effect
before its record is written is a reading of this model. -/
def Obligations.PageRetireRetires : Prop :=
  ∀ (s : State) (q : QueueId) (r : Rec) (rest : List Rec) (d1 : Dev) (x : Cmd), s.dev.starting d1 q 0x20 r rest x →
    let sc := bitsOf r 128 3
    let a := bitsOf r 136 40
    let u := bitsOf r 176 8
    let code := d1.retireCheck r
    ∃ e : Dev, exec (.pageRetire q) s = .next { s with dev := e }
      ∧ (code ≠ 0 → d1.endsAtStart e x code 0 0 0 [])
      ∧ (code = 0 → d1.isRetired sc a u = true → d1.endsAtStart e x 0 0 0 0 [])
      ∧ (code = 0 → d1.isRetired sc a u = false →
          let d2 := d1.applyRetire sc a u 4 (bitOf r 184)
          let y : Cmd := { x with nextSeq := d2.nextHenOp }
          d2.isRetired sc a u = true ∧ d1.onlyIn d2 [.regs, .cs, .ras]
            ∧ (bitOf r 184 = false → d2.retireQuiet y = true → d2.endsAtStart e x 0 0 0 0 [])
            ∧ (bitOf r 184 = false → d2.retireQuiet y = false → d2.begun e { y with phase := .finished } [])
            ∧ (bitOf r 184 = true → d2.begun e { y with phase := .waiting } [.gan]
                ∧ e.gan = { d2.gan with cfgPend := d2.gan.cfgPend
                    ++ [(.retire ⟨sc, a, retireUnitNo sc a u, d1.time⟩, .cmd x.id)] }))

/-- POWER_STATE: TARGET 3 is OPERAND_INVALID and ACTIVE changes nothing; a low target that meets refusers completes with
POWER_REFUSED, its mask in DETAIL and in PWR_REFUSE_LAST, its SEQ in PWR_REFUSE_SEQ, and is counted; one that meets none completes
with OK, the device enters ENTERING, and the entry is counted, one into FALLOW latching the pads (13 R371 to R373, R376, R377).
The pads latch at the commit, a reading of this model (log entry 23). -/
def Obligations.PowerStateCommitsOrIsRefused : Prop :=
  ∀ (s : State) (q : QueueId) (r : Rec) (rest : List Rec) (d1 : Dev) (x : Cmd), s.dev.starting d1 q 0x21 r rest x →
    let t := bitsOf r 128 2
    let m := d1.refusers
    (t = 3 → ∃ e : Dev, exec (.powerState q) s = .next { s with dev := e } ∧ d1.endsAtStart e x 0x15 0 0 0 [])
    ∧ (t = 0 → ∃ e : Dev, exec (.powerState q) s = .next { s with dev := e } ∧ d1.endsAtStart e x 0 0 0 0 [])
    ∧ (t = 1 ∨ t = 2 → m ≠ 0 → ∃ (d2 e : Dev), exec (.powerState q) s = .next { s with dev := e }
        ∧ d2.endsAtStart e x 0x70 0 0 m []
        ∧ d2.getF rPwrRefuse fPwrRefuse_Cnt = min (2 ^ 32 - 1) (d1.getF rPwrRefuse fPwrRefuse_Cnt + 1)
        ∧ d2.getF rPwrRefuseLast fPwrRefuseLast_Refuser = lowestCode m ∧ d2.getF rPwrRefuseLast fPwrRefuseLast_Mask = m
        ∧ d2.getF rPwrRefuseLast fPwrRefuseLast_Target = t ∧ d2.getF rPwrRefuseSeq fPwrRefuseSeq_Seq = bitsOf r 32 32
        ∧ d2.event pgPwr 2 = true ∧ d1.onlyIn d2 [.regs, .hif])
    ∧ (t = 1 ∨ t = 2 → m = 0 → ∃ (d2 e : Dev), d1.endsAtStart d2 x 0 0 0 0 []
        ∧ exec (.powerState q) s = .next { s with
            dev := e
            pads := if t = 2 then { s.pads with fallow := s.pads.fallow + 1, held := true }
              else { s.pads with lull := s.pads.lull + 1 } }
        ∧ e.pstate = 1 ∧ e.pwr.entering = some t ∧ d2.regsBut e [rPwrState] ∧ d2.onlyIn e [.regs, .pwr])

/-- A started command whose engines have finished completes: its held writes are performed and its sectors' buffers
drained first, its tiles are free with their arrival counters kept, CCNT counts it, and one record with its final status
is ready, unless NOCOMP suppresses an OK. One that has not expired is left alone at the check; one that has stops as for a
fault, with TIMEOUT and the elapsed microseconds. Where engines of it have not reported stopped 10 microseconds after that it
ends with HANG, and the recovery of the engines' partition begins. A replayed command neither completes nor expires by itself (05
R142 to R145, R157; 04 R59, R86; 12 R354 to R356; 13 R367). -/
def Obligations.StartedCommandsEnd : Prop :=
  (∀ (s : State) (c : Nat) (x y : Cmd), s.dev.cmd? c = some x → s.dev.cmdDone x = true → x.opcode ≠ 0x22 →
     s.dev.inStopTime x = true → s.dev.retireQuiet x = true →
     let d1 := (s.dev.finishSerial x).drainPart x.bufferPart
     d1.cmd? c = some y → x.serving = false → y.serving = false → y.queue < 128 →
     ∃ e : Dev, exec (.commandComplete c) s = .next { s with dev := e }
       ∧ e.cq.cmds = d1.cq.cmds.filter (fun z => z.id != c) ∧ e.cq.storage = d1.cq.storage
       ∧ (∃ w : Ready, w.word = completionWord y.finalStatus y.aflags y.queue (bitsOf y.word 32 32) y.handle (bitsOf y.word 88 4)
             y.vaddr d1.time y.finalDetail (bitsOf y.word 4 8)
           ∧ w.ring = d1.getF (rCqQCfg y.queue) fCqQCfg_Ring ∧ w.group = some y.part
           ∧ e.cq.ready = d1.cq.ready ++ (if bitOf y.word 17 = true ∧ y.finalStatus = 0 then [] else [w]))
       ∧ e.getF (rCqQCcnt y.queue) fCqQCcnt_Ccnt = (d1.getF (rCqQCcnt y.queue) fCqQCcnt_Ccnt + 1) % 2 ^ 32
       ∧ (∀ z ∈ e.tiles, z.2.cmd ≠ some c)
       ∧ (∀ t : Nat, (e.tile t).arrival = (d1.tile t).arrival)
       ∧ d1.onlyIn e [.regs, .cq, .tiles, .henOps, .sect, .srv, .pwr, .hif, .upsets])
  ∧ (∀ (s : State) (c : Nat) (x : Cmd), s.dev.cmd? c = some x → x.serving = true →
     exec (.commandComplete c) s = .next s ∧ exec (.commandTimeout c) s = .next s)
  ∧ ((∀ (s : State) (c : Nat) (x : Cmd), s.dev.cmd? c = some x → x.serving = false →
     x.status ≠ 0x36 → x.opcode ≠ 0x22 →
     let us := s.dev.timeoutOf x
     (s.dev.time < x.start + 1000 * us → exec (.commandTimeout c) s = .next s)
     ∧ (x.start + 1000 * us ≤ s.dev.time → ∃ e : Dev, exec (.commandTimeout c) s = .next { s with dev := e }
         ∧ e.cq.cmds = s.dev.cq.cmds.map (fun z => if z.id = c then
             { z.fail s.dev.time 0x36 0 0 with
               detail := openDiv 4 (s.dev.time - x.start) 1000, handle := 0, vaddr := 0, expiredAt := s.dev.time } else z)
         ∧ (∀ z ∈ e.tiles, z.2.cmd = some c → z.2.outs = [] ∧ z.2.inflight = [] ∧ z.2.atoms = [] ∧ z.2.stopped = true)
         ∧ (∀ o ∈ e.henOps, o.cmd ≠ c) ∧ s.dev.onlyIn e [.cq, .tiles, .henOps, .hif]))
   ∧ (∀ (s : State) (c : Nat) (x y : Cmd) (u : UnitId) (us : List UnitId), s.dev.cmd? c = some x → x.status = 0x36 →
     (s.dev.time < x.expiredAt + 10000 → exec (.commandHang c (u :: us)) s = .next s)
     ∧ (x.expiredAt + 10000 ≤ s.dev.time →
       let p := if s.dev.engineParts (u :: us) = [] then x.part else (s.dev.engineParts (u :: us)).headD x.part
       let d1 := (s.dev.finishSerial x).drainPart x.bufferPart
       let d2 := (d1.leaveSectors y).endCmdWith y 0x37 y.detail
       d1.cmd? c = some y → y.serving = false →
       d2.cq.cmds.all (fun z => z.id != y.id) = true
       ∧ (∃ w ∈ d2.cq.ready, w.word = completionWord 0x37 y.aflags y.queue (bitsOf y.word 32 32) 0 (bitsOf y.word 88 4) 0 d1.time
           y.detail (bitsOf y.word 4 8))
       ∧ exec (.commandHang c (u :: us)) s = .next { s with dev := d2.beginReset p 4 1 (s.dev.suspectsOf p (u :: us)) })))

/-! ## Rings, and the registers of queues and rings -/

/-- The oldest completion record of a ring is held where the ring is full or an earlier one is held; discarded and counted
where the ring is disabled; lost, counted, and the tail advanced, where the link drops it; else written at its index with
its PHASE, the tail advanced, and the ring's moderation count one higher, or cleared when that write makes it signal. A
request's record, already judged, goes the same way, a held one taking its request to HELD and a final one freeing its
entry. A ring whose timer runs signals at the check that finds TIMER microseconds passed (05 R147 to R149; 08 R216, R234,
R235; 11 R326). -/
def Obligations.RecordsReachTheirRing : Prop :=
  (∀ (s : State) (r : RingId) (x : Ready), s.dev.cq.ready.find? (fun y => y.ring == r.val && !y.held && y.group.isSome) = some x →
     x.entry = none → s.dev.upsets = [] →
     let d := s.dev
     let on := d.getF (rCqRCfg r) fCqRCfg_En
     let n := tget d.cq.modCount 0 r + 1
     let now : Prop := max 1 (d.getF (rCqRMod r) fCqRMod_Count) ≤ n ∨ x.irqNow = true
       ∨ (x.notOk = true ∧ d.getF (rCqRCfg r) fCqRCfg_ErrNow = 1)
     let err (e : Dev) : Prop := e.getF (rCqRErr r) fCqRErr_Err = min (2 ^ 32 - 1) (d.getF (rCqRErr r) fCqRErr_Err + 1)
       ∧ e.event (pgCqR r) (r % 32) = true ∧ e.host = d.host
     ∃ e : Dev, exec (.completionRecordWrite r) s = .next { s with dev := e }
       ∧ (d.mustHold x = true → e.cq = { d.cq with ready := d.cq.ready.map (markHeld x) } ∧ d.onlyIn e [.cq])
       ∧ (d.mustHold x = false → e.cq.ready = d.cq.ready.erase x ∧ e.cq.cmds = d.cq.cmds ∧ e.cq.storage = d.cq.storage
           ∧ d.onlyIn e [.cq, .regs, .hif, .host]
           ∧ (on = 0 → err e ∧ e.getF (rCqRTail r) fCqRTail_Tail = d.getF (rCqRTail r) fCqRTail_Tail)
           ∧ (on = 1 → d.canSend (d.getF (rCqRCfg r) fCqRCfg_Func) = false →
               err e ∧ e.getF (rCqRTail r) fCqRTail_Tail = (d.getF (rCqRTail r) fCqRTail_Tail + 1) % 2 ^ 32)
           ∧ (on = 1 → d.canSend (d.getF (rCqRCfg r) fCqRCfg_Func) = true → d.ringWritten e r (d.phased r x.word)
               ∧ (now → tget e.cq.modCount 0 r = 0 ∧ tfind e.cq.modStart r = none)
               ∧ (¬ now → tget e.cq.modCount 0 r = n ∧ ∃ a : Nat, e.hif = { d.hif with out := d.hif.out
                   ++ [.posted (d.getF (rCqRCfg r) fCqRCfg_Func) a (leBytes 32 (d.phased r x.word)) false false false] }))))
  ∧ (∀ (s : State) (i : EntryId) (x : Ready), s.dev.cq.ready.find? (fun y => y.entry == some i.val && !y.held) = some x →
     x.group = none → x.tok = none → x.ring < 128 → s.dev.upsets = [] →
     let d := s.dev
     let z := d.entry i
     ∃ e : Dev, exec (.requestRecordWrite i) s = .next { s with dev := e }
       ∧ (d.mustHold x = true → e.cq = { d.cq with ready := d.cq.ready.map (markHeld x) }
           ∧ (z.state = .prefill ∨ z.state = .decode → e.entry i = { z with state := .held, before := z.state })
           ∧ (∀ j : Nat, j ≠ i → e.entry j = d.entry j) ∧ d.onlyIn e [.cq, .srv])
       ∧ (d.mustHold x = false → d.getF (rCqRCfg x.ring) fCqRCfg_En = 1 → d.canSend (d.getF (rCqRCfg x.ring) fCqRCfg_Func) = true →
           e.cq.ready = d.cq.ready.erase x ∧ d.ringWritten e x.ring (d.phased x.ring x.word)
           ∧ (x.final = true → (e.entry i).state = .free) ∧ (∀ j : Nat, j ≠ i → e.entry j = d.entry j)
           ∧ d.onlyIn e [.cq, .regs, .hif, .host, .srv]))
  ∧ (∀ (s : State) (r : RingId),
     let d := s.dev
     let us := d.getF (rCqRMod r) fCqRMod_Timer
     let f := d.getF (rCqRCfg r) fCqRCfg_Func
     let v := d.getF (rCqRCfg r) fCqRCfg_Vec
     (tfind d.cq.modStart r = none → exec (.moderationTimer r) s = .next s)
     ∧ (∀ t0 : Nat, tfind d.cq.modStart r = some t0 →
         (us = 0 ∨ d.time < t0 + 1000 * us → exec (.moderationTimer r) s = .next s)
         ∧ (us ≠ 0 → t0 + 1000 * us ≤ d.time → ∃ e : Dev, exec (.moderationTimer r) s = .next { s with dev := e }
             ∧ e.cq = { d.cq with modCount := tset d.cq.modCount r 0, modStart := tdel d.cq.modStart r }
             ∧ (d.signals f v → e.hif = { d.hif with out := d.hif.out ++ [.message f v (d.vector f v).addr (d.vector f v).data] }
                 ∧ e.regs = d.regs)
             ∧ d.onlyIn e [.cq, .hif, .regs])))

/-- CQ_Q_CFG, CQ_R_CFG and CQ_R_HEAD as the PF writes them: a write that Tables 5-10 and 5-13 discard is counted in BLK_ERR_CNT
and changes nothing; any other sets the register, a queue's EN rising clears its counts and falling discards its unstarted
records, a ring's EN rising clears its pointers. A VF's write of CQ_Q_CFG changes nothing (05 R129, R151, Tables 5-10 and 5-13;
11 R324). A HEAD counts as above TAIL when less than 2^31 ahead of it, a reading of this model. -/
def Obligations.QueueAndRingRegistersTakeWrites : Prop :=
  (∀ (s : State) (q : QueueId) (v : W32), s.dev.regOpen 0 (rCqQCfg q) →
    let d := s.dev
    let a := rCqQCfg q
    let w : W64 := v.zeroExtend 64 &&& 0xF_FFFF
    let func := fld w fCqQCfg_Func
    let bad : Prop := fld w fCqQCfg_DepthLog2 < 4 ∨ 10 < fld w fCqQCfg_DepthLog2
      ∨ (d.queueEn q = true ∧ bitsOf w 1 63 ≠ bitsOf (d.reg a) 1 63) ∨ 24 < func
      ∨ (func ≠ 0 ∧ (fld w fCqQCfg_Part ≠ d.vfPart func ∨ 6 ≤ d.vfPart func)) ∨ d.getF (rCqRCfg (fld w fCqQCfg_Ring)) fCqRCfg_Func ≠ func
    ∃ e : Dev, exec (.cqQCfg 0 q v) s = .next { s with dev := e }
      ∧ (bad → d.discarded e (pgCqQ q))
      ∧ (¬ bad → e.reg a = w ∧ d.onlyIn e [.cq, .regs, .hif]
          ∧ (d.queueEn q = false → fld w fCqQCfg_En = 1 → e.cq = d.cq
              ∧ ∀ b ∈ [rCqQWcnt q, rCqQScnt q, rCqQCcnt q, rCqQQovf q, rCqQQrej q, rCqQFlushed q], e.reg b = 0)
          ∧ (d.queueEn q = true → fld w fCqQCfg_En = 0 → e.cq = { d.cq with
                storage := tset d.cq.storage q [], stamps := tdel d.cq.stamps q, checked := tdel d.cq.checked q
                fetched := tdel d.cq.fetched q }
              ∧ (∀ z ∈ e.hif.reads, z.purpose ≠ .head q)
              ∧ e.getF (rCqQFlushed q) fCqQFlushed_Flushed
                = min (2 ^ 32 - 1) (d.getF (rCqQFlushed q) fCqQFlushed_Flushed + (d.waiting q).length))))
  ∧ (∀ (s : State) (f : Func) (q : QueueId) (v : W32), f ≠ 0 → s.dev.regOpen f (rCqQCfg q) →
      exec (.cqQCfg f q v) s = .next s)
  ∧ (∀ (s : State) (r : RingId) (v : W32), s.dev.regOpen 0 (rCqRCfg r) →
    s.dev.cq.ready.find? (fun x => x.ring == r.val && x.held) = none →
    let d := s.dev
    let a := rCqRCfg r
    let w : W64 := v.zeroExtend 64 &&& 0x7_FF3F
    let on := d.getF a fCqRCfg_En
    let bad : Prop := fld w fCqRCfg_Log2n < 6 ∨ 15 < fld w fCqRCfg_Log2n
      ∨ (on = 1 ∧ (fld w fCqRCfg_Func ≠ d.getF a fCqRCfg_Func ∨ fld w fCqRCfg_Log2n ≠ d.getF a fCqRCfg_Log2n))
    ∃ e : Dev, exec (.cqRCfg 0 r v) s = .next { s with dev := e }
      ∧ (bad → d.discarded e (pgCqR r))
      ∧ (¬ bad → e.reg a = w ∧ (on = 0 → fld w fCqRCfg_En = 1 → e.reg (rCqRTail r) = 0 ∧ e.reg (rCqRHead r) = 0)
          ∧ e.cq = d.cq ∧ d.onlyIn e [.regs, .hif]))
  ∧ (∀ (s : State) (r : RingId) (v : W32), s.dev.regOpen 0 (rCqRHead r) →
    s.dev.cq.ready.find? (fun x => x.ring == r.val && x.held) = none →
    let ahead := (v.toNat + 2 ^ 32 - (s.dev.reg (rCqRTail r)).toNat) % 2 ^ 32
    ∃ e : Dev, exec (.cqRHead 0 r v) s = .next { s with dev := e }
      ∧ (0 < ahead → ahead < 2 ^ 31 → s.dev.discarded e (pgCqR r))
      ∧ (ahead = 0 ∨ 2 ^ 31 ≤ ahead → e.reg (rCqRHead r) = v.zeroExtend 64 ∧ s.dev.regsBut e [rCqRHead r]
          ∧ s.dev.onlyIn e [.regs]))

/-! ## The serving engine -/

/-- A SUBMIT that reaches the window is refused with the lowest reason that holds, counted, and changes no request; or it
is accepted: its charges are taken, the lowest free entry of its partition holds the request, and its slot's answer says
so with the first deadline and the cadence. The priority is capped for a VF. A CANCEL of an occupied entry of the
submitting function answers CANCELLED: a request in no step closes with a final record, one with tokens to hand over does
so after them, one that closes already goes on; any other answers NOT_FOUND. A read of the window gives the answers as
they stand, and zero elsewhere (08 R214, R218, R220, R224, R230, R231; Tables 8-6 and 8-8; 11 R331). -/
def Obligations.SubmissionsAreAnswered : Prop :=
  (∀ (s : State) (f : Func) (off : Nat) (data : List Byte), s.dev.reached f → isSubmission off data = true →
     s.dev.upsets = [] → s.dev.pstate = 0 →
     let d := s.dev
     let r := d.cappedPrio f (recOf data)
     bitsOf (recOf data) 0 4 ≠ 1 ∨ bitsOf (recOf data) 4 4 ≠ 1 →
     let k := (off - 0x80_0000) / 0x100
     let p := (d.subPart f r).getD 7
     let pr := (d.subPart f r).getD 0
     let c := d.chargeOf p r d.time
     let cad := d.cadence p
     let load := d.getF (rSrvLoad p) fSrvLoad_Load + (c.dec + c.base)
     let pool := d.getF (rSrvPoolFree p) fSrvPoolFree_Free
     let reason : Nat :=
       if d.submitCheck f p r ≠ 0 then d.submitCheck f p r
       else if bitsOf r 208 16 ≠ 0 ∧ bitsOf r 208 16 * 1000 < cad then 0xA
       else if d.loadLimit p (bitsOf r 8 3) < load then 0xB
       else if pool < c.pages then 0xC
       else if bitsOf r 184 24 ≠ 0 ∧ bitsOf r 184 24 * 1000 < c.first - d.time then 0xD else 0
     let a (e : Dev) : Answer := tget e.srv.answers {} (256 * f.val + k)
     ∃ e : Dev, exec (.submit f off data) s = .next { s with dev := e }
       ∧ (a e).seq = BitVec.ofNat 32 (bitsOf (recOf data) 32 32) ∧ (a e).arrival = d.time
       ∧ (reason ≠ 0 → (a e).answer = 2 ∧ (a e).reason = reason ∧ e.srv.entries = d.srv.entries
           ∧ e.getF (rSrvRefuse pr) fSrvRefuse_Refuse = min (2 ^ 32 - 1) (d.getF (rSrvRefuse pr) fSrvRefuse_Refuse + 1)
           ∧ e.getF (rSrvLastRefuse pr) fSrvLastRefuse_Reason = reason
           ∧ e.getF (rSrvLastSeq pr) fSrvLastSeq_Seq = bitsOf (recOf data) 32 32
           ∧ d.regsBut e [rSrvRefuse pr, rSrvLastRefuse pr, rSrvLastSeq pr] ∧ d.onlyIn e [.srv, .regs])
       ∧ (∀ i : Nat, reason = 0 → d.freeIndex p = some i → d.masters f = true →
           (a e).answer = 1 ∧ (a e).entry = i ∧ (a e).first = c.first ∧ (a e).cadence = cad
           ∧ e.entry i = d.newEntry f p i r c ∧ (∀ j : Nat, j ≠ i → e.entry j = d.entry j)
           ∧ e.getF (rSrvLoad p) fSrvLoad_Load = load % 2 ^ 32 ∧ e.getF (rSrvPoolFree p) fSrvPoolFree_Free = (pool - c.pages) % 2 ^ 27
           ∧ e.reg (rSrvPfPend p) = d.reg (rSrvPfPend p) + BitVec.ofNat 64 c.pf ∧ d.onlyIn e [.srv, .regs, .hif]))
  ∧ ((∀ (s : State) (f : Func) (off : Nat) (data : List Byte), s.dev.reached f → isSubmission off data = true →
     s.dev.pstate = 0 → bitsOf (recOf data) 0 4 = 1 → bitsOf (recOf data) 4 4 = 1 →
     let d := s.dev
     let k := (off - 0x80_0000) / 0x100
     let i := bitsOf (recOf data) 352 14
     let x := d.entry i
     let mine : Prop := x.occupied = true ∧ x.func = f
     let owes : Prop := x.outs ≠ [] ∨ ∃ y ∈ d.cq.ready, y.entry = some i ∧ y.tok.isSome = true
     ∃ e : Dev, exec (.cancel f off data) s = .next { s with dev := e }
       ∧ tget e.srv.answers {} (256 * f.val + k)
         = { answer := if x.occupied = true ∧ x.func = f then 3 else 4, entry := i, arrival := d.time
             seq := BitVec.ofNat 32 (bitsOf (recOf data) 32 32) }
       ∧ (∀ j : Nat, j ≠ i → e.entry j = d.entry j)
       ∧ (¬ mine → e.srv.entries = d.srv.entries ∧ d.onlyIn e [.srv])
       ∧ (mine → x.state = .closing → e.entry i = x ∧ d.onlyIn e [.srv])
       ∧ (mine → x.state ≠ .closing → owes → e.entry i = { x with cancelled := true } ∧ d.onlyIn e [.srv])
       ∧ (mine → x.state ≠ .closing → ¬ owes → e.entry i = { x with state := .closing, outs := [] }
           ∧ (∃ w : Ready, e.cq.ready = d.cq.ready ++ [w] ∧ w.entry = some i ∧ w.final = true ∧ w.ring = x.ring
               ∧ bitsOf w.word 8 8 = 0x10)
           ∧ d.onlyIn e [.srv, .cq, .hif, .free]))
   ∧ (∀ (s : State) (f : Func) (off len : Nat), s.dev.reached f → 0x80_0000 ≤ off → off + len ≤ 0x81_0000 →
     ∃ (bs : List Byte) (e : Dev), exec (.answerRead f off len) s = .next { s with dev := e } ∧ bs.length = len
       ∧ e.hif = { s.dev.hif with out := s.dev.hif.out ++ [.readData f bs false 0] } ∧ s.dev.onlyIn e [.hif]
       ∧ ∀ j : Nat, j < len → bs[j]? = some
           (let o := (off + j) % 0x100
            if 0x40 ≤ o ∧ o < 0x60 then
              (tget s.dev.srv.answers {} (256 * f.val + (off + j - 0x80_0000) / 0x100)).bytes.getD (o - 0x40) 0
            else 0)))

/-- SETUP_DONE, its token list landed and readable, takes the prompt; with the prefix tree off the request has no cached
row and goes to PREFILL, or to DECODE when its prompt is one token. SERVING_CYCLE starts a cycle of a partition that runs
cycles, has work and owes nothing in the cycle before; requests that left PREFILL in that one step from now on, and the first
step or slice of a fold partition waits for a period. A decode step whose results cover its batch is done in its cycle, its dense
products with the bound versions' terms; for a batch of one its tokens are those the verification keeps, cut at EOS, and GEN and
POS advance with them. A prefill slice whose results fit and are within PF_SLICE ends the cycle; for one request its rows advance
POS. In a fold partition the outcome waits for the end of the period the step or slice ran in, and one that overran it is run
again in the next. What does not stand there changes nothing (07 R200; 08 R225, R232, R233, Table 8-2; 09 R252, R258, R267; 10
R302 to R304). -/
def Obligations.ServingCyclesRun : Prop :=
  ((∀ (s : State) (i : EntryId) (eng : Engine) (d1 : Dev) (bs : List Byte),
     let d := s.dev
     let x := d.entry i
     x.state = .admitted → (∀ r ∈ d.hif.reads, r.purpose ≠ .tokens i) → d.setupEngine x = some eng →
     d.dmaRead eng x.pkey x.tokensVa (4 * x.plen) = (d1, .ok (bs, 0)) → d1.entry i = x →
     d.getF (rSrvPfxCtrl x.part) fSrvPfxCtrl_En = 0 → d1.getF (rSrvPfxCtrl x.part) fSrvPfxCtrl_En = 0 →
     ∃ e : Dev, exec (.setupDone i) s = .next { s with dev := e }
       ∧ (e.entry i).prompt = tokensOf bs ∧ (e.entry i).lastToken = (tokensOf bs).getLast?.getD 0 ∧ (e.entry i).pos = 0
       ∧ (e.entry i).state = (if x.plen = 1 then .decode else .prefill)
       ∧ (∀ j : Nat, j ≠ i → e.entry j = d1.entry j) ∧ e.cq = d1.cq ∧ e.tiles = d1.tiles)
   ∧ (∀ (s : State) (p : PartId),
     let d := s.dev
     let idle : Prop := d.inState p .decode = [] ∧ d.inState p .prefill = []
     let owes : Prop := thas d.srv.cycles p = true ∧ (d.stepsLeft p ≠ [] ∨ d.inState p .prefill ≠ [])
     (d.cyclesRun p = false ∨ idle ∨ owes → exec (.servingCycle p) s = .next s)
     ∧ (d.cyclesRun p = true → ¬ idle → ¬ owes → ∃ e : Dev, exec (.servingCycle p) s = .next { s with dev := e }
         ∧ e.srv = { d.srv with
             cycles := tset d.srv.cycles p d.time, stepsDone := tdel d.srv.stepsDone p
             entries := d.srv.entries.map (fun (z : Nat × Entry) => if z.2.part = p then (z.1, { z.2 with fresh := false }) else z)
             foldFrom := if d.foldPart p = true then
                 tmod d.srv.foldFrom 0 p (fun b => if d.fab.beatNo ≤ b ∧ thas d.srv.foldFrom p then b else d.nextPeriod)
               else d.srv.foldFrom }
         ∧ (∀ k ∈ d.sectorsOf p, e.getF (rPwrSectMax k) fPwrSectMax_Gated = 0)
         ∧ e.pwr = { d.pwr with runs := tset d.pwr.runs p d.pwr.sums }
         ∧ d.regsBut e ((List.range 6).map rPwrSectMax) ∧ d.onlyIn e [.srv, .regs, .sect, .pwr])))
  ∧ ((∀ (s : State) (p : PartId) (n : SlotId) (rs : List StepResult) (d1 : Dev) (es : List Nat),
     let d := s.dev
     let stands : Prop := d.stepInTime p ≠ none ∧ d.cyclesRun p = true ∧ thas d.srv.cycles p = true
       ∧ (d.stepsLeft p).head? = some n.val ∧ d.descsFit p n = true ∧ ∀ i ∈ d.decodersOf p n, (d.entry i).outs = []
     (¬ stands → exec (.decodeStep p n rs) s = .next s)
     ∧ (stands → d.readyBatch (d.decodersOf p n) d.decodeRows = (d1, es) → d1.covers es rs = true →
       let d2 := (es.zip (List.range es.length)).foldl (fun d z => d.beforeStep z.1 z.2)
         (d1.latchRc p (stepCounts (d1.inTiles p es.length) es.length))
       let d3 := (d2.stepWrites p rs).1
       let rs' := (d2.stepWrites p rs).2
       let d4 := d3.runEnds p (d.stepPhase p n es.length)
       (d.foldPart p = true → exec (.decodeStep p n rs) s = .next { s with
           dev := if d.stepInTime p = some true then d4.keepRun p (.step n rs') else d4.rerun p })
       ∧ (d.foldPart p = false → ∃ e : Dev, exec (.decodeStep p n rs) s = .next { s with dev := e }
           ∧ (tget e.srv.stepsDone [] p).contains n.val = true
           ∧ (∀ r : StepResult, rs' = [r] → r.poison = false → (d4.entry r.entry).state = .decode →
               let x := d4.entry r.entry
               let v := x.verify (x.gen + 1) r.mainRows r.coltRows (r.drafts.take x.drafts)
               let ts := cutEos x.eos v.1
               let y := e.entry r.entry
               y.outs = (ts.zip (List.range ts.length)).map (fun t => ⟨t.1, x.gen + 1 + t.2, r.aflags ||| v.2⟩)
                 ∧ y.gen = x.gen + ts.length ∧ y.output = x.output ++ ts ∧ y.pos = x.pos + (v.1.length - 1) + 1
                 ∧ y.lastToken = ts.getLast?.getD x.lastToken ∧ y.state = .decode))))
   ∧ (∀ (s : State) (p : PartId) (rs : List SliceResult),
     let d := s.dev
     let stands : Prop := d.stepInTime p ≠ none ∧ d.cyclesRun p = true ∧ thas d.srv.cycles p = true ∧ d.stepsLeft p = []
       ∧ d.sliceFits rs = true ∧ d.sliceSmall p rs = true ∧ ∀ r ∈ rs, d.descsFit p (d.entry r.entry).slot = true
     (¬ stands → exec (.prefillSlice p rs) s = .next s)
     ∧ (stands → rs = [] → d.foldPart p = true → exec (.prefillSlice p rs) s = .next { s with
           dev := if d.stepInTime p = some true then (d.latchRc p [1, 0, 0]).keepRun p (.slice []) else (d.latchRc p [1, 0, 0]).rerun p })
     ∧ (stands → rs = [] → d.foldPart p = false → ∃ e : Dev, exec (.prefillSlice p rs) s = .next { s with dev := e }
         ∧ e.srv = { d.srv with
             cycles := tdel d.srv.cycles p, stepsDone := tdel d.srv.stepsDone p, counts := tset d.srv.counts p [1, 0, 0] }
         ∧ (∀ k ∈ d.sectorsOf p, (tget e.sect {} k).idleSince = d.time) ∧ d.onlyIn e [.srv, .sect])
     ∧ (∀ (r : SliceResult) (d1 : Dev), stands → rs = [r] →
         d.readyBatch ((d.prefillOrder p).take 1) (fun x => x.pos + if (d.entry r.entry).order = x.order then r.tokens else 0)
           = (d1, [r.entry.val]) →
         let d2 := (let x := d1.entry r.entry
           let d1 := d1.latchRc p [1, 0, 1]
           (if d1.slotM4 x.slot then (List.range r.tokens).foldl (fun d j => d.writeScore r.entry (x.pos + j) none (x.pos + j)) d1
             else d1).writeKvDescs r.entry 0 (x.pos + r.tokens) r.tokens x.pos)
         let d3 := (d2.sliceWrites p [r]).1
         let x := d3.entry r.entry
         d.foldPart p = false → (∀ r' ∈ (d2.sliceWrites p [r]).2, r'.poison = false) → x.state = .prefill →
         x.pos + r.tokens ≠ x.plen →
         ∃ e : Dev, exec (.prefillSlice p rs) s = .next { s with dev := e }
           ∧ (e.entry r.entry).pos = x.pos + r.tokens ∧ (e.entry r.entry).state = .prefill
           ∧ thas e.srv.cycles p = false ∧ (e.entry r.entry).outs = x.outs)))

/-- The oldest produced token of a request, its ring with room, is handed over and judged against its deadline: on time its record
says TOKEN and the grid goes on by one cadence; late it says TOKEN_LATE with the lowest cause met and the nanoseconds late, the
partition counts it, and the grid restarts two cadences on. The first token takes its request to DECODE, where it steps from the
next cycle on; the last one closes it (08 R232 to R234, R236, R237, Table 8-3). A record that will have to wait is judged, and its
token handed over, when it is written. -/
def Obligations.TokenHandoverIsJudged : Prop :=
  ∀ (s : State) (i : EntryId) (t : TokenOut) (rest : List TokenOut),
    let d := s.dev
    let x := d.entry i
    x.outs = t :: rest → x.part < 6 → x.cancelled = false →
    let fin := x.finalToken t
    let late := x.deadline < d.time
    let cause := if late then x.causes.foldl min 8 else 0
    let word := requestWord (if late then 1 else 0) t.aflags cause fin x.seq i t.token d.time t.index (d.time - x.deadline)
    let state := if fin = true then .closing else if d.ringOpen x.ring = true ∧ x.state = .prefill then .decode else x.state
    ∃ (w : Ready) (e : Dev), exec (.tokenHandover i) s = .next { s with dev := e } ∧ e.cq.ready = d.cq.ready ++ [w]
      ∧ w.entry = some i ∧ w.ring = x.ring ∧ w.final = fin ∧ (e.entry i).state = state
      ∧ (e.entry i).outs = (if fin = true then [] else rest) ∧ (∀ j : Nat, j ≠ i → e.entry j = d.entry j)
      ∧ (d.ringOpen x.ring = false → w.tok = some t ∧ (e.entry i).deadline = x.deadline ∧ d.onlyIn e [.cq, .srv])
      ∧ (fin = false → d.ringOpen x.ring = true → x.state = .prefill → (e.entry i).fresh = true)
      ∧ (d.ringOpen x.ring = true → w.word = word ∧ w.tok = none ∧ d.onlyIn e [.cq, .srv, .regs, .hif]
          ∧ (e.entry i).deadline = (if late then d.time + 2 * d.cadence x.part else x.deadline + d.cadence x.part)
          ∧ (late → (e.entry i).cause = cause ∧ e.event (pgSrv 0) x.part = true
              ∧ e.getF (rSrvLate x.part) fSrvLate_Late = min (2 ^ 32 - 1) (d.getF (rSrvLate x.part) fSrvLate_Late + 1)
              ∧ e.getF (rSrvLateMax x.part) fSrvLateMax_Max
                = max (d.getF (rSrvLateMax x.part) fSrvLateMax_Max) (min (d.time - x.deadline) (2 ^ 31 - 1))))

/-- The serving registers as the PF writes them. An admission parameter is stored unless a live entry of its partition, or a share
byte above 64, makes Table 8-10 discard it; SRV_ADM_POOL sets POOL_FREE too; SRV_LATE_MAX clears by its CLR; FLUSH evicts every
node of the partition that can be evicted, and bits 7:0 written with it are stored, or with a live entry discarded and counted; the
select registers copy the entry and the version they name for the function (08
R222, R223, R240; 09 R255, R277, R278; 16 R451). -/
def Obligations.ServingRegistersTakeWrites : Prop :=
  (∀ (s : State) (p : PartId) (v : W32), ∀ a ∈ [rSrvAdmDecCap p, rSrvAdmPfSlice p, rSrvAdmBeat p, rSrvAdmSetup p, rSrvAdmShareLo p,
      rSrvAdmShareHi p, rSrvAdmFloor p], s.dev.regOpen 0 a →
    let w : W64 := v.zeroExtend 64
    let bad : Prop := s.dev.liveCount p ≠ 0
      ∨ ((a = rSrvAdmShareLo p ∨ a = rSrvAdmShareHi p) ∧ ∃ j : Nat, j < 4 ∧ 64 < bitsOf w (8 * j) 8)
    ∃ e : Dev, exec (.srvAdmParamWrite 0 a v) s = .next { s with dev := e }
      ∧ (bad → s.dev.discarded e (pgSrv 0))
      ∧ (¬ bad → s.dev.regsBut e [a] ∧ s.dev.onlyIn e [.regs]
          ∧ ∀ (r : RegRow) (b i : Nat), findReg a = some (r, b) → i < 32 → r.rw.testBit i = true →
              (e.reg a).getLsbD i = v.getLsbD i))
  ∧ (∀ (s : State) (p : PartId) (v : W32), s.dev.regOpen 0 (rSrvAdmPool p) →
    ∃ e : Dev, exec (.srvAdmPool 0 p v) s = .next { s with dev := e }
      ∧ (s.dev.liveCount p ≠ 0 → s.dev.discarded e (pgSrv 0))
      ∧ (s.dev.liveCount p = 0 → e.getF (rSrvAdmPool p) fSrvAdmPool_Pool = fld v fSrvAdmPool_Pool
          ∧ e.getF (rSrvPoolFree p) fSrvPoolFree_Free = fld v fSrvAdmPool_Pool
          ∧ s.dev.regsBut e [rSrvAdmPool p, rSrvPoolFree p] ∧ s.dev.onlyIn e [.regs]))
  ∧ (∀ (s : State) (p : PartId) (v : W32), s.dev.regOpen 0 (rSrvLateMax p) →
    ∃ e : Dev, exec (.srvLateMaxClr 0 p v) s = .next { s with dev := e }
      ∧ e.reg (rSrvLateMax p) = (if fld v fSrvLateMax_Clr = 1 then 0 else s.dev.reg (rSrvLateMax p))
      ∧ s.dev.regsBut e [rSrvLateMax p] ∧ s.dev.onlyIn e [.regs])
  ∧ (∀ (s : State) (p : PartId) (v : W32), s.dev.regOpen 0 (rSrvPfxCtrl p) → fld v fSrvPfxCtrl_Flush = 1 →
    let a := rSrvPfxCtrl p
    ∃ e : Dev, exec (.flush 0 p v) s = .next { s with dev := e }
      ∧ e.evictable p = none
      ∧ (s.dev.liveCount p = 0 → e.reg a = v.zeroExtend 64 &&& 0xFF)
      ∧ (s.dev.liveCount p ≠ 0 → e.reg a = s.dev.reg a ∧ s.dev.counted e (rBlkErrCnt (pageOf a)) fBlkErrCnt_Cnt 1)
      ∧ e.srv.entries = s.dev.srv.entries ∧ s.dev.onlyIn e [.srv, .regs])
  ∧ (∀ (s : State) (f : Func) (v : W32), s.dev.regOpen f rSrvRtSel →
    let i := fld v fSrvRtSel_Index
    ∃ e : Dev, exec (.srvRtSel f v) s = .next { s with dev := e }
      ∧ e.srv = { s.dev.srv with rtCopy := tset s.dev.srv.rtCopy f (BitVec.ofNat 32 i :: (List.range 16).map (fun j =>
          if s.dev.seesEntry f i = true then BitVec.ofNat 32 (bitsOf (s.dev.entry i).word (32 * j) 32) else 0)) }
      ∧ s.dev.onlyIn e [.srv])
  ∧ (∀ (s : State) (f : Func) (v : W32), s.dev.regOpen f rSrvDeltaSel → s.dev.upsets = [] →
    let i := fld v fSrvDeltaSel_Ver
    let sees : Prop := f = 0 ∨ (s.dev.version i).state = .free ∨ (s.dev.version i).part = s.dev.vfPart f
    ∃ (t : Tab (List W64)) (e : Dev), exec (.srvDeltaSel f v) s = .next { s with dev := e }
      ∧ e.srv = { s.dev.srv with deltaCopy := t } ∧ s.dev.onlyIn e [.srv]
      ∧ (sees → tget t [] f = BitVec.ofNat 64 i :: s.dev.deltaRec i) ∧ (¬ sees → tget t [] f = [BitVec.ofNat 64 i])
      ∧ ∀ g : Nat, g ≠ f → tget t [] g = tget s.dev.srv.deltaCopy [] g)

/-! ## The fabric -/

/-- FAB_LINK_EN, RETRAIN and RETIRE, one register, as the PF writes it: with EN a DISABLED link starts training and so
does one told to retrain, each sending its generation and identity; without it the link is DISABLED; RETIRE retires it with a
record for the configuration area; a retired link or one out of service takes no write but RETIRE. A link in TRAINING that is
trained becomes FENCED with its peer recorded, or DOWN with the reason of the first check its peer's identity fails; one not
FENCED within 50 ms goes DOWN; a DOWN link retries after 1 s unless an identity check failed. A link in service that loses a lane,
or meets more uncorrectable codewords than its limit, goes DOWN; a link that goes DOWN joins the down-set (10 R281 to R284, R301,
R308, R311, R313, Table 10-2; 12 R351, R352). -/
def Obligations.LinksAreControlledAndTrained : Prop :=
  (∀ row ∈ [(Instr.fabLinkEn), (.retrain), (.retire)], ∀ (s : State) (i : LinkId) (v : W32), s.dev.regOpen 0 (rFabLinkCtrl i) →
     let d := s.dev
     let gone := d.unitGone .link i
     let was := d.getF (rFabLinkCtrl i) fFabLinkCtrl_En
     let en := fld v fFabLinkCtrl_En
     let full : Prop := 512 ≤ d.gan.retireCount
     ∃ e : Dev, exec (row 0 i v) s = .next { s with dev := e }
       ∧ (fld v fFabLinkCtrl_Retire = 0 → gone = true → e = d)
       ∧ (fld v fFabLinkCtrl_Retire = 0 → gone = false → e.getF (rFabLinkCtrl i) fFabLinkCtrl_En = en
           ∧ e.linkState i = (if en = 0 then 0 else if was = 0 ∨ fld v fFabLinkCtrl_Retrain = 1 then 1 else d.linkState i)
           ∧ (e.linkState i = 1 → d.linkState i ≠ 1 → e.getF (rFabLinkPeer i) fFabLinkPeer_Valid = 0)
           ∧ e.fab.sent = d.fab.sent ++ (if en = 1 ∧ (was = 0 ∨ fld v fFabLinkCtrl_Retrain = 1) then
               [(i.val, .training 1 d.fid (d.getF rFabFoldTag fFabFoldTag_Tag) 0x4D12 0x0A01 i)] else [])
           ∧ d.regsBut e [rFabLinkCtrl i, rFabLinkState i, rFabLinkPeer i] ∧ d.onlyIn e [.regs, .fab])
       ∧ (fld v fFabLinkCtrl_Retire = 1 → d.linkState i ≠ 5 → e.linkState i = 5 ∧ e.unitRetired .link i = true
           ∧ (∀ u : UnitId, unitCode u ≠ unitCode ⟨.link, i⟩ → e.unit u = d.unit u)
           ∧ (full → d.raised e pgRas 4 [rFabLinkCtrl i, rFabLinkState i] [.fab, .ras])
           ∧ (¬ full → e.gan.cfgPend = d.gan.cfgPend ++ [(.retire ⟨7, 0, i, d.time⟩, .nobody)]
               ∧ d.regsBut e [rFabLinkCtrl i, rFabLinkState i] ∧ d.onlyIn e [.regs, .fab, .ras, .gan])))
  ∧ ((∀ (s : State) (i : LinkId) (p : PeerIdent),
     let d := s.dev
     let x := d.reg (rFabLinkExpect i)
     let reason : Nat := if p.gen = 0 then 4
       else if p.foldTag.toNat ≠ d.getF rFabFoldTag fFabFoldTag_Tag then 5
       else if p.fid = d.fid ∨ 768 ≤ p.fid ∨ 768 ≤ d.fid then 6
       else if fld x fFabLinkExpect_En = 1 ∧ (fld x fFabLinkExpect_Fid ≠ p.fid ∨ fld x fFabLinkExpect_Link ≠ p.link) then 7 else 0
     (d.linkState i ≠ 1 → exec (.linkTrained i p) s = .next s)
     ∧ (d.linkState i = 1 → ∃ e : Dev, exec (.linkTrained i p) s = .next { s with dev := e }
         ∧ e.getF (rFabLinkState i) fFabLinkState_Gen = min 1 p.gen ∧ e.getF (rFabLinkState i) fFabLinkState_Lanes = 3
         ∧ (reason ≠ 0 → e.linkState i = 4 ∧ e.getF (rFabLinkState i) fFabLinkState_Reason = reason
             ∧ d.linkNamed e d.fid i (d.fab.beatNo % 2 ^ 32) ∧ d.raised e pgFab 0 [rFabLinkState i, rFabDown] [.fab])
         ∧ (reason = 0 → e.linkState i = 2 ∧ e.getF (rFabLinkPeer i) fFabLinkPeer_Valid = 1
             ∧ (p.fid < 768 → e.getF (rFabLinkPeer i) fFabLinkPeer_Fid = p.fid)
             ∧ e.getF (rFabLinkPeer i) fFabLinkPeer_Link = p.link % 128
             ∧ e.getF (rFabLinkFlight i) fFabLinkFlight_Long = (if 60 < p.flight then 1 else 0)
             ∧ d.raised e pgFab 1 [rFabLinkState i, rFabLinkPeer i, rFabLinkFlight i] [.fab])))
   ∧ (∀ (s : State) (i : LinkId),
     let d := s.dev
     let go : Prop := d.linkState i = 1 ∧ tget d.fab.linkAt 0 i.val + 50000000 ≤ d.time
     (¬ go → exec (.trainTimeout i) s = .next s)
     ∧ (go → ∃ e : Dev, exec (.trainTimeout i) s = .next { s with dev := e } ∧ e.linkState i = 4
         ∧ e.getF (rFabLinkState i) fFabLinkState_Reason = 8 ∧ d.linkNamed e d.fid i (d.fab.beatNo % 2 ^ 32)
         ∧ d.raised e pgFab 0 [rFabLinkState i, rFabDown] [.fab]))
   ∧ (∀ (s : State) (i : LinkId),
     let r := s.dev.getF (rFabLinkState i) fFabLinkState_Reason
     let go : Prop := s.dev.linkState i = 4 ∧ tget s.dev.fab.linkAt 0 i.val + 1000000000 ≤ s.dev.time
       ∧ s.dev.getF (rFabLinkCtrl i) fFabLinkCtrl_En = 1 ∧ r ≠ 5 ∧ r ≠ 6 ∧ r ≠ 7 ∧ s.dev.unitGone .link i = false
     (¬ go → exec (.linkRetry i) s = .next s)
     ∧ (go → ∃ e : Dev, exec (.linkRetry i) s = .next { s with dev := e } ∧ e.linkState i = 1
         ∧ e.getF (rFabLinkPeer i) fFabLinkPeer_Valid = 0
         ∧ e.fab.sent = s.dev.fab.sent
             ++ [(i.val, .training 1 s.dev.fid (s.dev.getF rFabFoldTag fFabFoldTag_Tag) 0x4D12 0x0A01 i)]
         ∧ s.dev.regsBut e [rFabLinkState i, rFabLinkPeer i]
         ∧ s.dev.onlyIn e [.regs, .fab]))
   ∧ (∀ (s : State) (i : LinkId) (l : Fin 2), (s.dev.linkUp i = false → exec (.laneLoss i l) s = .next s)
     ∧ (s.dev.linkUp i = true → ∃ e : Dev, exec (.laneLoss i l) s = .next { s with dev := e } ∧ e.linkState i = 4
         ∧ e.getF (rFabLinkState i) fFabLinkState_Reason = 1
         ∧ (e.getF (rFabLinkState i) fFabLinkState_Lanes).testBit l = false
         ∧ s.dev.linkNamed e s.dev.fid i (s.dev.fab.beatNo % 2 ^ 32)
         ∧ s.dev.raised e pgFab 0 [rFabLinkState i, rFabDown] [.fab]))
   ∧ (∀ (s : State) (i : LinkId) (c n : Nat),
     let d := s.dev
     (d.linkUp i = false → exec (.fecLimit i ⟨c, n⟩) s = .next s)
     ∧ (d.linkUp i = true → ∃ e : Dev, exec (.fecLimit i ⟨c, n⟩) s = .next { s with dev := e }
         ∧ d.counted e (rFabLinkFecCorr i) fFabLinkFecCorr_Corr c
         ∧ d.counted e (rFabLinkFecUncorr i) fFabLinkFecUncorr_Uncorr n
         ∧ (n ≤ d.getF (rFabLinkCfg i) fFabLinkCfg_UncorrMax →
             d.regsBut e [rFabLinkFecCorr i, rFabLinkFecUncorr i] ∧ d.onlyIn e [.regs])
         ∧ (d.getF (rFabLinkCfg i) fFabLinkCfg_UncorrMax < n → e.linkState i = 4
             ∧ e.getF (rFabLinkState i) fFabLinkState_Reason = 2 ∧ d.linkNamed e d.fid i (d.fab.beatNo % 2 ^ 32)
             ∧ d.raised e pgFab 0 [rFabLinkFecCorr i, rFabLinkFecUncorr i, rFabLinkState i, rFabDown] [.fab]))))

/-- A boundary that DEV_TIME has reached, while the fabric runs and no commit is due, ends the beat and begins the next: the
agreed lengths move up, the next but one is the longest any device needs (or the fall-back's), and the GAP and STOP bits of the
round join those registers. A pace word for the current beat is merged by the rules of Table 10-8 and, when it changed something,
goes on at once or 50 ns after the last one sent, 8 in a beat; one of another generation is counted. EPOCH_COMMIT at the boundary
decided makes the staged epoch the one in force at its beat 0 and moves the links by its table (10 R283, R288 to R293, R303, R305
to R307). With no epoch the beats number the 8,000 ns grid of DEV_TIME, a reading of the model. -/
def Obligations.BeatsRunAndEpochsCommit : Prop :=
  (∀ (s : State),
    let d := s.dev
    let p := d.fab.pace
    let runs : Prop := d.fabricRuns = true ∧ d.fab.beatStart + d.fab.len1 ≤ d.time ∧ d.commitDue = false
    (¬ runs → exec .beatBoundary s = .next s)
    ∧ (runs → ∃ e : Dev, exec .beatBoundary s = .next { s with dev := e }
        ∧ e.fab.beatNo = (if d.hasEpoch then d.fab.beatNo + 1 else (d.fab.beatStart + d.fab.len1) / 8000)
        ∧ e.fab.prevNo = d.fab.beatNo ∧ e.fab.beatStart = d.fab.beatStart + d.fab.len1 ∧ e.fab.len1 = d.fab.len2
        ∧ e.fab.len2 = (if d.hasEpoch = false then 8000
            else if d.fallback = true ∨ d.fab.fb2 = true ∨ p.fallback = true ∨ hdrMax d.hdr < p.need then hdrFbLen d.hdr
            else max (hdrLen d.hdr) p.need)
        ∧ e.reg rFabGapJobs = d.reg rFabGapJobs ||| p.gap
        ∧ (d.reg rFabStopJobs ||| p.stop) &&& ~~~ e.reg rFabStopJobs = 0
        ∧ e.reg rFabBeatLen = BitVec.ofNat 64 d.fab.len2
        ∧ ∀ k ∈ [Comp.time, .latched, .heldLow, .nextHenOp, .layoutOn, .thm], d.agree e k))
  ∧ (∀ (s : State) (i : LinkId) (w : BitVec 1024),
    let d := s.dev
    let a := d.fab.pace
    let b := paceOf w
    let m : Pace := {
      need := max a.need b.need, fallback := a.fallback || b.fallback, gap := a.gap ||| b.gap, stop := a.stop ||| b.stop
      epoch := max a.epoch b.epoch
      ready := if a.epoch < b.epoch then b.ready else if a.epoch = b.epoch then a.ready ||| b.ready else a.ready }
    let gen := d.getF (rFabLinkState i) fFabLinkState_Gen
    (d.linkUp i = false → exec (.paceWord i w) s = .next s)
    ∧ (d.linkUp i = true → bitsOf w 0 4 ≠ gen → ∃ e : Dev, exec (.paceWord i w) s = .next { s with dev := e }
        ∧ d.counted e (rFabLinkBadword i) fFabLinkBadword_Bad 1 ∧ d.regsBut e [rFabLinkBadword i] ∧ d.onlyIn e [.regs])
    ∧ (d.linkUp i = true → bitsOf w 0 4 = gen →
        (bitsOf w 32 32 ≠ d.fab.beatNo % 2 ^ 32 → exec (.paceWord i w) s = .next s)
        ∧ (bitsOf w 32 32 = d.fab.beatNo % 2 ^ 32 → ∃ e : Dev, exec (.paceWord i w) s = .next { s with dev := e }
            ∧ d.onlyIn e [.fab]
            ∧ let sends : Prop := d.fab.paceAt + 50 ≤ d.time ∧ d.fab.paceSent < 8
              (m = a → e.fab = d.fab)
              ∧ (m ≠ a → ¬ sends → e.fab = { d.fab with pace := m, paceDue := true })
              ∧ (m ≠ a → sends → e.fab = { d.fab with
                  pace := m, paceDue := false, paceSent := d.fab.paceSent + 1, paceAt := d.time
                  sent := d.fab.sent ++ d.upLinks.map (fun j => (j, .pace (m.word d.fab.beatNo))) }))))
  ∧ (∀ (s : State) (img : FabImage),
    let d := s.dev
    d.fab.staged = some img →
    let due : Prop := d.fabricRuns = true ∧ d.fab.beatStart + d.fab.len1 ≤ d.time ∧ d.commitDue = true
    (¬ due → exec .epochCommit s = .next s)
    ∧ (due → d.upsets = [] → ∃ e : Dev, exec .epochCommit s = .next { s with dev := e }
        ∧ e.fab.active = some img ∧ e.fab.staged = none ∧ e.fab.commitAt = none ∧ e.fab.beatNo = 0
        ∧ e.getF rFabStatus fFabStatus_EpochState = 1 ∧ e.getF rFabStatus fFabStatus_Staged = 0
        ∧ e.getF rFabEpoch fFabEpoch_Epoch = img.epoch % 2 ^ 32 ∧ e.reg rFabStopJobs = 0
        ∧ (∀ i : LinkId,
            let uses : Prop := ∃ x ∈ img.tables.getD 0 [], seValid x = true ∧ seLink x = i
            (∀ u ∈ d.ras.units, unitOfCode u.1 = ⟨.link, i⟩ → u.2.state ≠ 3) →
            (d.linkState i = 2 → uses → e.linkState i = 3) ∧ (d.linkState i = 3 → ¬ uses → e.linkState i = 2))
        ∧ (∀ x : Cmd, d.cq.cmds.find? (fun y => y.opcode == 0x22 && y.phase == .finished) = some x →
            ∀ y ∈ e.cq.cmds, y.id ≠ x.id)))
  ∧ (∀ s : State, s.dev.fab.staged = none → exec .epochCommit s = .next s)

/-- A fold command that has passed its checks and stands at the head of its queue goes on waiting while anything else holds the head
back, and until a period of its job starts after it was checked; then it leaves the queue, with FOLD_STOP where its job is stopped,
else its tiles start as those of any program command do; so does one whose partition is no longer of the fold. A queue whose head
is no such command is left alone (05 R140; 10 R302, R303; 11 R322). -/
def Obligations.FoldCommandsStartAtPeriods : Prop :=
  ∀ (s : State) (q : Nat),
    let d := s.dev
    (tfind d.cq.checked q = none ∨ d.waiting q = [] → exec (.foldCommandStart q) s = .next s)
    ∧ ∀ (x : Cmd) (r : Rec) (rest : List Rec), tfind d.cq.checked q = some x → d.waiting q = r :: rest →
        let ready : Prop := d.waitReasons q r = [] ∧ d.bar4Before q = false
        let fold := d.foldPart x.part
        let onTime : Prop := d.fab.beatNo % d.period = 0 ∧ x.start ≤ d.fab.beatStart
        let ts := tileSet x.word
        (¬ ready ∨ fold = true ∧ ¬ onTime → exec (.foldCommandStart q) s = .next s)
        ∧ (ready → fold = true → onTime → d.jobStopped x.part = true → d.upsets = [] →
            ∃ e : Dev, exec (.foldCommandStart q) s = .next { s with dev := e } ∧ (d.popHead x.queue).endsAtStart e x 0x55 0 0 0 [])
        ∧ (ready → fold = false ∨ onTime ∧ d.jobStopped x.part = false → d.upsets = [] →
            ∃ e : Dev, exec (.foldCommandStart q) s = .next { s with dev := e }
              ∧ (d.popHead x.queue).begun e
                  { x with
                    id := d.cq.nextId, sums := d.pwr.sums, fold := if fold = true then x.fold else false
                    rc := d.latchCounts x.word, serial := [], olds := [], tiles := ts, phase := .running, start := d.time
                    bypass := d.trainRange x.word }
                  [.tiles, .slots]
              ∧ (∀ (i u : Nat), ts[i]? = some u → e.tile u =
                  { cmd := some d.cq.nextId, rank := i, nt := ts.length, routine := bitsOf x.word 128 8
                    args := (List.range 8).map (fun k => BitVec.ofNat 13 (bitsOf x.word (192 + 13 * k) 13)) }
                  ∧ ∀ a : Nat, u * 4096 ≤ a → a < (u + 1) * 4096 → e.slots.byte a = 0)
              ∧ (∀ u : Nat, ts.contains u = false → e.tile u = d.tile u))

/-- A device follows the time it hears: a BEND of the link's generation is remembered, and one that comes by a root clears
TIME_LOST, and ROOT where the device is no candidate or that root's FID is lower than its own; DEV_TIME keeps its value where an
epoch runs, a request is held or a parent was found before. A candidate that heard no such root for 1 ms acts as root; a device that
heard none for 8 ms says so. A notice adds its link to the down-set once and takes the other end here DOWN; a link's own BEND leaves,
and a gander's message arrives, on links in service only, the message waking the device from LULL where that is enabled, at the end
of the entry while it enters LULL, and never from FALLOW (10 R283, R285 to R287, R299, R300, R308; 13 R375). -/
def Obligations.TimeWordsAndNotices : Prop :=
  (∀ (s : State) (i : LinkId) (w : Rec) (t : Nat),
    let d := s.dev
    let gen := d.getF (rFabLinkState i) fFabLinkState_Gen
    let root := bitsOf w 8 10
    let beat := bitsOf w 32 32
    (d.linkUp i = false → exec (.bend i w t) s = .next s)
    ∧ (d.linkUp i = true → bitsOf w 0 4 ≠ gen → ∃ e : Dev, exec (.bend i w t) s = .next { s with dev := e }
        ∧ d.counted e (rFabLinkBadword i) fFabLinkBadword_Bad 1 ∧ d.regsBut e [rFabLinkBadword i] ∧ d.onlyIn e [.regs])
    ∧ (d.linkUp i = true → bitsOf w 0 4 = gen → ∃ e : Dev, exec (.bend i w t) s = .next { s with dev := e }
        ∧ (tfind e.fab.heard i.val).map (fun h => (h.root, h.dist, h.txTime, h.rxTime))
            = some (root, bitsOf w 18 4, bitsOf w 64 72, t)
        ∧ (beat = d.fab.beatNo % 2 ^ 32 → tfind e.fab.bends i.val = some w)
        ∧ (beat ≠ d.fab.beatNo % 2 ^ 32 → beat = d.fab.prevNo % 2 ^ 32 → thas d.fab.bendsPrev i.val = false →
            tfind e.fab.bendsPrev i.val = if t ≤ 256 * (d.fab.beatStart + d.getF rFabTmo fFabTmo_Grace) then some w else none)
        ∧ (bitsOf w 18 4 ≠ 15 → root ≠ d.fid →
            e.getF rFabStatus fFabStatus_TimeLost = 0 ∧ e.fab.rootHeard = e.time
            ∧ (d.getF rFabCfg fFabCfg_TimeRoot = 0 ∨ root < d.fid →
                e.getF rFabStatus fFabStatus_Root = 0 ∧ e.fab.lowerHeard = e.time))
        ∧ (d.hasEpoch = true ∨ d.anyOccupied = true ∨ d.fab.hadParent = true → e.time = d.time)
        ∧ d.regsBut e [rFabStatus, rFabTime, rFabTimeRoot, rBlkIntStat pgDev, rHifTxDrop, rBlkIntStat pgHif]
        ∧ d.onlyIn e [.fab, .regs, .time, .hif]))
  ∧ (∀ (s : State) (i : LinkId), ∃ e : Dev, exec (.bendSend i) s = .next { s with dev := e }
    ∧ e.fab = { s.dev.fab with sent := s.dev.fab.sent ++ (if s.dev.linkUp i then [(i.val, .bend (s.dev.bendWord i))] else []) }
    ∧ s.dev.onlyIn e [.fab])
  ∧ (∀ s : State,
    let d := s.dev
    let go : Prop := d.getF rFabCfg fFabCfg_TimeRoot = 1 ∧ d.fab.lowerHeard + 1000000 ≤ d.time
    (¬ go → exec .rootTimeout s = .next s)
    ∧ (go → ∃ e : Dev, exec .rootTimeout s = .next { s with dev := e } ∧ e.getF rFabStatus fFabStatus_Root = 1
        ∧ e.getF rFabStatus fFabStatus_TimeLost = 0 ∧ e.getF rFabStatus fFabStatus_TimeAligned = 1
        ∧ e.reg rFabTimeRoot = BitVec.ofNat 64 d.fid
        ∧ e.getF rFabTime fFabTime_Dist = 0 ∧ d.regsBut e [rFabStatus, rFabTime, rFabTimeRoot] ∧ d.onlyIn e [.regs]))
  ∧ (∀ s : State,
    let d := s.dev
    let go : Prop := d.getF rFabStatus fFabStatus_Root ≠ 1 ∧ d.fab.rootHeard + 8000000 ≤ d.time
      ∧ d.getF rFabStatus fFabStatus_TimeLost = 0
    (¬ go → exec .timeLost s = .next s)
    ∧ (go → ∃ e : Dev, exec .timeLost s = .next { s with dev := e } ∧ e.getF rFabStatus fFabStatus_TimeLost = 1
        ∧ e.getF rFabStatus fFabStatus_TimeAligned = 0 ∧ e.getF rFabTime fFabTime_Dist = 15
        ∧ d.raised e pgFab 7 [rFabStatus, rFabTime] [.fab]))
  ∧ (∀ (s : State) (i : LinkId) (w : Rec),
    let d := s.dev
    let fid := bitsOf w 8 10
    let link := bitsOf w 18 7
    let gen := d.getF (rFabLinkState i) fFabLinkState_Gen
    let peer (j : Nat) : Prop := d.linkUp j = true ∧ d.getF (rFabLinkPeer j) fFabLinkPeer_Fid = fid
      ∧ d.getF (rFabLinkPeer j) fFabLinkPeer_Link = link
    (d.linkUp i = false → exec (.notice i w) s = .next s)
    ∧ (d.linkUp i = true → bitsOf w 0 4 ≠ gen → ∃ e : Dev, exec (.notice i w) s = .next { s with dev := e }
        ∧ d.counted e (rFabLinkBadword i) fFabLinkBadword_Bad 1 ∧ d.regsBut e [rFabLinkBadword i] ∧ d.onlyIn e [.regs])
    ∧ (d.linkUp i = true → bitsOf w 0 4 = gen → ∃ e : Dev, exec (.notice i w) s = .next { s with dev := e }
        ∧ d.linkNamed e fid link (bitsOf w 32 32)
        ∧ (∀ j : LinkId, peer j → e.linkState j = 4 ∧ e.getF (rFabLinkState j) fFabLinkState_Reason = 9)
        ∧ (∀ j : LinkId, ¬ peer j → e.reg (rFabLinkState j) = d.reg (rFabLinkState j))
        ∧ d.regsBut e ((List.range 96).map rFabLinkState ++ [rFabDown, rBlkIntStat pgFab, rHifTxDrop, rBlkIntStat pgHif])
        ∧ d.onlyIn e [.fab, .regs, .hif]))
  ∧ (∀ (s : State) (i : LinkId),
    let d := s.dev
    let heard : Prop := d.linkUp i = true ∧ d.getF rPwrWakeEn fPwrWakeEn_Fabric = 1
    let entersLull : Prop := d.pstate = 1 ∧ d.pwr.wakeWaits = 0 ∧ d.pwr.entering ≠ some 2
    (heard → d.pstate = 2 → ∃ e : Dev, exec (.ganderLinkMessage i) s = .next { s with dev := e }
      ∧ e.pstate = 4 ∧ e.getF rPwrState fPwrState_WakeSrc = 6
      ∧ e.pwr = { d.pwr with wakeFrom := 2, wakeWaits := 0, entering := none }
      ∧ (d.getF rHifLink fHifLink_State ≠ 2 → e.hif.wakeN = false) ∧ d.regsBut e [rPwrState] ∧ d.onlyIn e [.regs, .pwr, .hif])
    ∧ (heard → entersLull →
        exec (.ganderLinkMessage i) s = .next { s with dev := { d with pwr := { d.pwr with wakeWaits := 6 } } })
    ∧ (¬ heard ∨ (d.pstate ≠ 2 ∧ ¬ entersLull) → exec (.ganderLinkMessage i) s = .next s))

/-- A slot of the current beat whose link is ACTIVE: one that sends leaves with its granules as they stood at the boundary, as
zeros where its partition is in reset or was at the boundary, and as poison where it faulted; one that receives an intact granule
writes it by COPY. A slot that is not of the beat, was sent or came before, or whose link is not ACTIVE leaves everything as it is
(06 R178, R182; 10 R296, R298). -/
def Obligations.SlotsSendAndReceive : Prop :=
  (∀ (s : State) (n : Nat) (t : TxSlot), s.dev.fab.tx.find? (fun x => x.n == n && !x.sent) = some t → s.dev.upsets = [] →
    let d := s.dev
    let x := d.tableNow.getD n 0
    let l := bitsOf x 2 7
    let zero := t.zeros || d.inReset (bitsOf x 51 3)
    (d.linkState l ≠ 3 → exec (.slotTx n) s = .next s)
    ∧ (d.linkState l = 3 → ∃ e : Dev, exec (.slotTx n) s = .next { s with dev := e }
        ∧ e.fab = { d.fab with
            tx := d.fab.tx.map (fun y => if y.n = n then { y with sent := true, zeros := zero } else y)
            sent := d.fab.sent ++ [(l, .slot n (
              if zero = true then t.granules.map (fun _ => (0, false))
              else if t.fault = true then t.granules.map (fun _ => (0, true)) else t.granules))] }
        ∧ (t.fault = false → d.onlyIn e [.fab])
        ∧ (t.fault = true → d.counted e rFabSlotFault fFabSlotFault_Cnt 1
            ∧ e.getF rFabSlotFault fFabSlotFault_Idx = n % 2 ^ 15 ∧ d.raised e pgFab 8 [rFabSlotFault] [.fab])))
  ∧ (∀ (s : State) (n : Nat), s.dev.fab.tx.find? (fun x => x.n == n && !x.sent) = none → exec (.slotTx n) s = .next s)
  ∧ (∀ (s : State) (n : Nat) (g : RxGranule) (d1 : Dev) (l : Nat),
    let d := s.dev
    let x := d.tableNow.getD n 0
    d.fab.rx.any (fun r => r.n == n && !r.arrived) = true → d.linkState (bitsOf x 2 7) = 3 → bitsOf x 32 16 = 1 →
    bitsOf x 48 3 = 0 → g.arrived = true → d.stoppedJob (bitsOf x 58 6) = false → d.inReset (bitsOf x 51 3) = false →
    d.upsets = [] →
    let d0 : Dev := { d with fab := { d.fab with rx := d.fab.rx.map (fun r => if r.n = n then { r with arrived := true } else r) } }
    d0.xlate (seEngine x) (bitsOf x 112 8) (bitsOf x 64 48) true = (d1, .ok l) →
    exec (.slotRx n [g]) s
      = .next { s with dev := d1.writeHome { addr := l, data := recBytes g.data, poison := g.poison } })
  ∧ (∀ (s : State) (n : Nat) (gs : List RxGranule),
    s.dev.fab.rx.any (fun r => r.n == n && !r.arrived) = false → exec (.slotRx n gs) s = .next s)

/-- The deadline of a beat's BENDs on a link, FAB_TMO.GRACE after the boundary, passes once. Every stream of RX slots on the link
in the beat before is then confirmed, and its NOTIFY slots count at their arrival counters and nothing else does, or is a beat
timeout: each such job counts once in FAB_BTMO_CNT and in the link's counter, BTMO is set, and the job's STOP bit (its BEND said
GONE) or GAP bit goes into the pace word. Without any BEND a link in service goes DOWN for BEAT_TIMEOUT and is named to the fold
(10 R297, R300, R308). -/
def Obligations.DeadlinesConfirmOrTimeOut : Prop :=
  ∀ (s : State) (i : LinkId),
    let d := s.dev
    let tb := d.fab.tablePrev
    let bends := d.fab.bendsPrev
    let entry := fun x : RxSlot => tb.getD x.n 0
    let good := fun x : RxSlot => confirmed tb bends d.fab.rxPrev x
    let mine := d.fab.rxPrev.filter (fun x => seLink (entry x) == i.val)
    let lost := fun j : Nat => (∃ x ∈ mine, seJob (entry x) = j) ∧ ∀ x ∈ mine, seJob (entry x) = j → good x = false
    let noted := d.fab.rxPrev.map (fun x =>
      if seLink (entry x) = i.val ∧ seNotify (entry x) = true ∧ good x = true then { x with notified := true } else x)
    let hits := fun (t a : Nat) => (mine.filter (fun x => seNotify (entry x) && !x.notified && good x
      && seNtile (entry x) == t && seNactr (entry x) == a && !d.inReset (sePart (entry x)))).length
    let due : Prop := d.fab.deadlineDone.contains i.val = false ∧ d.fab.beatStart + d.getF rFabTmo fFabTmo_Grace ≤ d.time
    (¬ due → exec (.bendDeadline i) s = .next s)
    ∧ (due → ∃ e : Dev, exec (.bendDeadline i) s = .next { s with dev := e }
        ∧ e.fab.deadlineDone = i.val :: d.fab.deadlineDone ∧ e.fab.rxPrev = noted
        ∧ (∀ t a : Nat, tget (e.tile t).arrival 0 a = tget (d.tile t).arrival 0 a + hits t a)
        ∧ ((∀ j : Nat, ¬ lost j) → d.onlyIn e [.fab, .tiles]
            ∧ ({ e.fab with deadlineDone := d.fab.deadlineDone, rxPrev := d.fab.rxPrev } : Fab) = d.fab)
        ∧ (∀ js : List Nat, js.Nodup → (∀ j : Nat, j ∈ js ↔ lost j) → js ≠ [] →
            d.counted e rFabBtmoCnt fFabBtmoCnt_Cnt js.length ∧ d.counted e (rFabLinkBtmo i) fFabLinkBtmo_Btmo js.length
            ∧ (∀ j : Nat, e.fab.pace.stop.getLsbD j =
                (d.fab.pace.stop.getLsbD j || js.contains j && bendState bends i j == some 3))
            ∧ (∀ j : Nat, e.fab.pace.gap.getLsbD j =
                (d.fab.pace.gap.getLsbD j || js.contains j && bendState bends i j != some 3))
            ∧ (thas bends i.val = false → d.linkUp i = true → e.linkState i = 4
                ∧ e.getF (rFabLinkState i) fFabLinkState_Reason = 3 ∧ d.linkNamed e d.fid i (d.fab.beatNo % 2 ^ 32))
            ∧ (thas bends i.val = true ∨ d.linkUp i = false → e.linkState i = d.linkState i)
            ∧ d.raised e pgFab 2 [rFabBtmoCnt, rFabLinkBtmo i, rFabLinkState i, rFabDown] [.fab, .tiles]))

/-! ## Partitions, slices and resets -/

/-- SECT_PART_LAYOUT as the PF writes it: a word that gives a partition a number of sectors it cannot have, changes the
sectors of one that is not quiet, or adds a sector that does not serve is discarded and counted; any other is the layout,
with LAYOUT_BUSY until LAYOUT_DONE, when the changed sectors hold zeros and no library. SECT_SLICE_CTRL of a live page
takes EN and LAST, and where EN rises the first entry with a length comes into force; SLICE_BOUNDARY moves on, when the
entry in force has lasted its length, to the next entry with a length, its mask and its end counted from the last end. A
VF's write of the layout changes nothing (11 R314 to R316, R320, R324, R337; 12 R352, Table 12-4). -/
def Obligations.LayoutsAndSlicesChange : Prop :=
  ((∀ (s : State) (v : W32), s.dev.regOpen 0 rSectPartLayout →
     let d := s.dev
     let fieldOf (w k : Nat) : Nat := w / 8 ^ k % 8
     let w := v.toNat % 2 ^ 18
     let old := (d.reg rSectPartLayout).toNat
     let sectors (x p : Nat) : List Nat := (List.range 6).filter (fun k => fieldOf x k == p)
     let bad : Prop := (∃ k : Nat, k < 6 ∧ fieldOf w k = 6)
       ∨ (∃ p : Nat, p < 6 ∧ [0, 1, 2, 3, 6].contains (sectors w p).length = false)
       ∨ (∃ p : Nat, p < 6 ∧ sectors w p ≠ sectors old p ∧ d.quiet p = false)
       ∨ (∃ k : Nat, k < 6 ∧ fieldOf w k ≠ 7 ∧ fieldOf w k ≠ fieldOf old k ∧ d.unitGone .sector k = true)
     ∃ e : Dev, exec (.sectPartLayout 0 v) s = .next { s with dev := e }
       ∧ (bad → d.discarded e (pgPart 0))
       ∧ (¬ bad → e.reg rSectPartLayout = BitVec.ofNat 64 w ∧ e.getF rSectPartBusy fSectPartBusy_LayoutBusy = 1
           ∧ e.layoutOn = d.layoutOn ++ (List.range 6).filter (fun k => fieldOf w k != fieldOf old k)
           ∧ d.regsBut e [rSectPartLayout, rSectPartBusy] ∧ d.onlyIn e [.regs, .layoutOn]))
   ∧ (∀ (s : State) (f : Func) (v : W32), f ≠ 0 → s.dev.regOpen f rSectPartLayout → exec (.sectPartLayout f v) s = .next s)
   ∧ (∀ s : State, s.dev.getF rSectPartBusy fSectPartBusy_LayoutBusy = 0 → exec .layoutDone s = .next s)
   ∧ (∀ s : State, s.dev.getF rSectPartBusy fSectPartBusy_LayoutBusy = 1 → (∀ k ∈ s.dev.layoutOn, k < 6) →
     ∃ e : Dev, exec .layoutDone s = .next { s with dev := e } ∧ e.layoutOn = []
       ∧ e.getF rSectPartBusy fSectPartBusy_LayoutBusy = 0 ∧ e.event (pgPart 0) 8 = true
       ∧ (∀ k ∈ s.dev.layoutOn, e.sramZero k ∧ (tget e.sect {} k).lib = none)
       ∧ (∀ k : Nat, s.dev.layoutOn.contains k = false → tget e.sect {} k = tget s.dev.sect {} k
           ∧ ∀ a : Nat, 24 * k * 2 ^ 21 ≤ a → a < 24 * (k + 1) * 2 ^ 21 → e.tram.byte a = s.dev.tram.byte a)
       ∧ s.dev.onlyIn e [.regs, .hif, .tram, .sram, .slots, .sect, .layoutOn, .upsets]))
  ∧ ((∀ (s : State) (k : SectId) (v : W32), s.dev.regOpen 0 (rSectSliceCtrl k) →
     let d := s.dev
     (d.isLive k = false → exec (.sectSliceCtrl 0 k v) s = .next s)
     ∧ (d.isLive k = true → ∃ e : Dev, exec (.sectSliceCtrl 0 k v) s = .next { s with dev := e }
         ∧ e.getF (rSectSliceCtrl k) fSectSliceCtrl_En = fld v fSectSliceCtrl_En
         ∧ e.getF (rSectSliceCtrl k) fSectSliceCtrl_Last = fld v fSectSliceCtrl_Last
         ∧ d.regsBut e [rSectSliceCtrl k] ∧ d.onlyIn e [.regs, .parts]
         ∧ (d.getF (rSectSliceCtrl k) fSectSliceCtrl_En = 1 ∨ fld v fSectSliceCtrl_En = 0 → e.parts = d.parts
             ∧ e.getF (rSectSliceCtrl k) fSectSliceCtrl_Cur = d.getF (rSectSliceCtrl k) fSectSliceCtrl_Cur)
         ∧ (d.getF (rSectSliceCtrl k) fSectSliceCtrl_En = 0 → fld v fSectSliceCtrl_En = 1 →
             (∀ x : Nat, d.firstEntry k (fld v fSectSliceCtrl_Last + 1) 0 = some x → d.sliceOn e (d.sectPart k) k d.time (some x))
             ∧ (d.firstEntry k (fld v fSectSliceCtrl_Last + 1) 0 = none → (e.part (d.sectPart k)).sliceIdle = true))))
   ∧ (∀ (s : State) (p : PartId),
     let d := s.dev
     let k := d.liveSect p
     let n := d.getF (rSectSliceCtrl k) fSectSliceCtrl_Last + 1
     let cur := d.getF (rSectSliceCtrl k) fSectSliceCtrl_Cur
     let on : Prop := d.partExists p = true ∧ d.getF (rSectSliceCtrl k) fSectSliceCtrl_En = 1
     (¬ on → exec (.sliceBoundary p) s = .next s)
     ∧ (on → (d.part p).sliceIdle = false → d.time < (d.part p).sliceEnd → exec (.sliceBoundary p) s = .next s)
     ∧ (on → (d.part p).sliceIdle = false → (d.part p).sliceEnd ≤ d.time →
         ∃ e : Dev, exec (.sliceBoundary p) s = .next { s with dev := e }
           ∧ d.sliceOn e p k (d.part p).sliceEnd (d.firstEntry k n (if cur + 1 < n then cur + 1 else 0))
           ∧ d.regsBut e [rSectSliceCtrl k] ∧ d.onlyIn e [.regs, .parts])
     ∧ (on → (d.part p).sliceIdle = true → ∃ e : Dev, exec (.sliceBoundary p) s = .next { s with dev := e }
         ∧ d.sliceOn e p k d.time (d.firstEntry k n 0) ∧ d.regsBut e [rSectSliceCtrl k] ∧ d.onlyIn e [.regs, .parts])))

/-- A reset of a partition that the PF asks for begins at once in ACTIVE: its commands, queued records, tiles and requests
are gone, its stacks leave READY to train as do its links that are DOWN, RESET_BEGIN sets and the cause is recorded; in a low
state it waits; one under way, or of a partition that does not exist, changes nothing. When training ends its stacks are READY, its SRAM is zero and
the units whose checkers failed do not serve; suspects are replayed where replay is enabled, and their outcomes judged (a
lone hung one loses its context, several cost their engines service): a replay ends in TIMEOUT once the shorter of its own timeout
and RAS_REPLAY.TMO has expired, in HANG with an engine not stopped 10 microseconds later, else with the status of its run where the
model has it; RESET_END ends it, its routine stores empty and its duration recorded. A stack that is still in training 600 ms after
that began leaves service (11 R332, R336; 12 R353, R356 to R358, Table 12-6; 13 R378). -/
def Obligations.PartitionResetsRun : Prop :=
  (∀ (s : State) (p : PartId),
     let d := s.dev
     let k := d.liveSect p
     d.regOpen 0 (rSectPartCtrl k) →
     (d.partExists p = false ∨ (d.inReset p = true ∧ d.pstate = 0) → exec (.partitionReset p) s = .next s)
     ∧ (d.partExists p = true → d.inReset p = false → d.pstate = 0 →
         ∃ e : Dev, exec (.partitionReset p) s = .next { s with dev := e }
           ∧ (e.part p).phase = .records ∧ (e.part p).cause = 1 ∧ (e.part p).resetAt = d.time
           ∧ e.getF (rSectPartStatus k) fSectPartStatus_LastCause = 1
           ∧ d.counted e (rSectPartStatus k) fSectPartStatus_Resets 1
           ∧ e.event (pgPart k) 0 = true
           ∧ (∀ x ∈ e.cq.cmds, x.part ≠ p)
           ∧ (∀ q : Nat, q < 128 → d.queuePart q = p → e.waiting q = [])
           ∧ (∀ t : TileId, d.sectPart (t / 24) = p → e.tile t = {})
           ∧ (∀ i : Nat, (e.entry i).occupied = true → (e.entry i).part = p → (e.entry i).state = .closing)
           ∧ (∀ n ∈ d.stacksOf p, d.unitGone .stack n = false → e.getF (rCsState n) fCsState_Ready = 0
               ∧ e.getF (rCsState n) fCsState_Training = 1 ∧ (e.stackSt n).trainAt = d.time)
           ∧ (∀ i : Nat, i < 96 → e.linkState i = if d.linkOfPart p i = true ∧ d.linkState i = 4 then 1 else d.linkState i))
     ∧ (d.partExists p = true → d.inReset p = false → d.pstate ≠ 0 →
         ∃ e : Dev, exec (.partitionReset p) s = .next { s with dev := e }
           ∧ (e.part p).resetWaits = true ∧ (e.part p).resetWaitCause = 1 ∧ (e.part p).phase = (d.part p).phase))
  ∧ ((∀ (s : State) (p : PartId) (bad : List UnitId), (s.dev.part p).replaying = none →
     let d := s.dev
     ((d.part p).phase ≠ .records → exec (.resetRetrainDone p bad) s = .next s)
     ∧ ((d.part p).phase = .records → (d.part p).suspects = [] ∨ d.getF rRasReplay fRasReplay_En = 0 →
         ∃ e : Dev, exec (.resetRetrainDone p bad) s = .next { s with dev := e } ∧ (e.part p).phase = .restored
           ∧ (∀ n ∈ d.stacksOf p, e.getF (rCsState n) fCsState_Ready = 1)
           ∧ (∀ k ∈ d.sectorsOf p, e.sramZero k)
           ∧ (∀ u ∈ bad, d.unitInPart p u = true → (e.unit u).state ≠ 0)
           ∧ e.getF rRasStatus fRasStatus_SelftestDone = 1 ∧ e.stk = d.stk ∧ e.cq = d.cq))
   ∧ (∀ (s : State) (n : StackId),
     let d := s.dev
     let due := (d.stackSt n).trainAt + 600000000
     (d.getF (rCsState n) fCsState_Training = 0 ∨ d.time < due → exec (.stackReadyTimeout n) s = .next s)
     ∧ (d.getF (rCsState n) fCsState_Training = 1 → due ≤ d.time → ∃ e : Dev, exec (.stackReadyTimeout n) s = .next { s with dev := e }
         ∧ e.unitGone .stack n = true ∧ e.getF (rCsState n) fCsState_Ready = 1
         ∧ d.regsBut e [rCsState n, rBlkIntStat pgRas, rBlkIntStat (pgCs0 n), rHifTxDrop, rBlkIntStat pgHif]
         ∧ d.onlyIn e [.regs, .hif, .cs, .ras]))
   ∧ (∀ (s : State) (p : PartId) (st : Byte) (us : List UnitId),
     let d := s.dev
     let x := d.part p
     let tmo := 1000000 * d.getF rRasReplay fRasReplay_Tmo
     (x.phase ≠ .replay → x.replaying = none → exec (.suspectReplay p st us) s = .next s)
     ∧ (∀ (c : Nat) (y : Cmd), x.phase = .replay → x.replaying = some c → d.cmd? c = some y → y.phase ≠ .waiting →
         let expiry := x.replayAt + min (1000 * d.timeoutOf y) tmo
         (st = 0x36 ∧ d.time < expiry) ∨ (st = 0x37 ∧ (us = [] ∨ d.time < expiry + 10000))
           ∨ (st ≠ 0x36 ∧ st ≠ 0x37 ∧ y.ownRun = true ∧ d.cmdDone { y with fold := false } = false) →
         exec (.suspectReplay p st us) s = .next s)
     ∧ (∀ (c : Nat) (y : Cmd), x.phase = .replay → x.replaying = some c → d.cmd? c = some y → x.replayed + 1 = x.suspects.length →
         x.replayed < 8 → (∀ z ∈ x.suspects, z.ctx < 16) →
         let expiry := x.replayAt + min (1000 * d.timeoutOf y) tmo
         (st = 0x36 ∧ expiry ≤ d.time) ∨ (st = 0x37 ∧ us ≠ [] ∧ expiry + 10000 ≤ d.time)
           ∨ (st ≠ 0x36 ∧ st ≠ 0x37 ∧ (y.ownRun = true → d.cmdDone { y with fold := false } = true)) →
         let now := if st = 0x36 ∨ st = 0x37 ∨ y.ownRun = false then st else y.finalStatus
         let ss := x.suspects.modify x.replayed
           (fun z => { z with outcome := if now = 0x37 then 2 else 1, status := now, hung := us })
         let hung := ss.filter (fun z => z.outcome == 2)
         ∃ e : Dev, exec (.suspectReplay p st us) s = .next { s with dev := e }
           ∧ (e.part p).phase = .restored ∧ (e.part p).suspects = ss ∧ (∀ z ∈ e.cq.cmds, z.id ≠ c)
           ∧ e.getF (rRasRecovTrig p) fRasRecovTrig_Replayed = x.replayed + 1 ∧ e.event pgRas (8 + p) = true
           ∧ (∀ z : Suspect, hung = [z] → e.getF (d.ctxReg p z.ctx) fSectCtxCfg_En = 0
               ∧ e.getF (rRasRecovTrig p) fRasRecovTrig_CulpritCtx = z.ctx)
           ∧ (2 ≤ hung.length → e.ras.pendingOos
               = d.ras.pendingOos ++ (hung.flatMap (fun z => z.hung)).eraseDups.map (fun u => (p.val, u)))))
   ∧ (∀ (s : State) (p : PartId),
     let d := s.dev
     ((d.part p).phase ≠ .restored → exec (.resetEnd p) s = .next s)
     ∧ ((d.part p).phase = .restored → ∃ e : Dev, exec (.resetEnd p) s = .next { s with dev := e }
         ∧ (e.part p).phase = .none ∧ e.inReset p = false
         ∧ (∀ k ∈ d.sectorsOf p, e.sramZero k ∧ (tget e.sect {} k).lib = none)
         ∧ (∀ z ∈ d.ras.pendingOos, z.1 = p → (e.unit z.2).state ≠ 0 ∨ d.hasEpoch = false)
         ∧ e.getF (rRasRecovTime p) fRasRecovTime_Time = (d.time - (d.part p).resetAt) / 1000 % 2 ^ 32
         ∧ bitOf (e.reg rRasStatus) p = false ∧ e.event (pgPart (d.liveSect p)) 1 = true ∧ e.stk = d.stk)))

/-- An FLR of a VF that is present takes everything it owns: its commands, its queued records with their counts, its function
registers, its events; its requests close; DONE and VF_FLR say so; an FLR with a command that does not stop resets its partition
besides. An FLR of the PF resets every partition, removes every VF and puts the configuration space, the queues and the rings at
their Reset values (11 R333 to R336). -/
def Obligations.FunctionResetsTakeWhatTheirFunctionsOwn : Prop :=
  (∀ row ∈ [((fun v => Instr.vfFlr v : Func → Instr), false), (.vfFlrEscalate, true)], ∀ (s : State) (v : Func),
    let d := s.dev
    let here : Prop := d.ready = true ∧ d.hif.vfEnable = true ∧ v ≤ d.hif.numVfs ∧ v ≠ 0
    let p := d.vfPart v
    (¬ here → exec (row.1 v) s = .next s)
    ∧ (here → ∃ e : Dev, exec (row.1 v) s = .next { s with dev := e }
        ∧ (∀ x ∈ e.cq.cmds, x.func ≠ v)
        ∧ (∀ q : Nat, q < 128 → d.queueFunc q = v → e.waiting q = []
            ∧ (row.2 = false → ∀ a ∈ [rCqQWcnt q, rCqQScnt q, rCqQCcnt q, rCqQQovf q, rCqQQrej q, rCqQFlushed q], e.reg a = 0))
        ∧ (∀ i : Nat, (e.entry i).occupied = true → (e.entry i).func = v →
            (e.entry i).state = .closing ∨ (e.entry i).cancelled = true)
        ∧ e.fn v = {} ∧ bitOf (e.reg rSectVfFlrDone) v = true ∧ e.event (pgPart 0) 9 = true
        ∧ (row.2 = false ∨ (∀ x ∈ d.cq.cmds, x.func ≠ v) → e.reg (rSectVfEvent v) = 0 ∧ e.stk = d.stk ∧ e.tram = d.tram
            ∧ e.sram = d.sram ∧ e.parts = d.parts)
        ∧ (row.2 = true → (∃ x ∈ d.cq.cmds, x.func = v) → d.partExists p = true → d.inReset p = false → d.pstate = 0 →
            (e.part p).phase = .records ∧ (e.part p).cause = 2)))
  ∧ (∀ s : State,
    let d := s.dev
    (d.ready = false → exec .pfFlr s = .next s)
    ∧ (d.ready = true → ∃ e : Dev, exec .pfFlr s = .next { s with dev := e }
        ∧ e.hif.vfEnable = false ∧ e.hif.bar4Log2 = 40 ∧ e.hif.maxReadReq = 512 ∧ e.hif.maxPayload = 128 ∧ e.hif.cplRange = 0
        ∧ (∀ f : Nat, e.fn f = {}) ∧ (∀ q : Nat, e.waiting q = [])
        ∧ (∀ a : Nat, 0x10000 ≤ a → a < 0x19000 → e.reg a = resetOf a)
        ∧ (∀ p : Nat, d.partExists p = true → d.inReset p = false → d.pstate = 0 →
            (e.part p).phase = .records ∧ (e.part p).cause = 3)))

/-! ## Register accesses -/

/-- The common header as the PF writes it: FORCE sets the event bits written that the page defines, a STAT write clears those
written 1, EN takes those written, ERR_CLR clears the error count; a VF's FORCE and ERR_CLR change nothing (16 R444 to R446; 11
R324, R328). -/
def Obligations.HeaderRegistersTakeWrites : Prop :=
  ∀ (s : State) (page : Nat) (v : W32), (pageInfo page).isSome = true → page % 4096 = 0 →
    let d := s.dev
    let mask : W64 := BitVec.ofNat 64 (definedBits page)
    let w : W64 := v.zeroExtend 64
    (d.regOpen 0 (page + 0x18) → ∃ e : Dev, exec (.blkIntForce 0 page v) s = .next { s with dev := e }
      ∧ (page ≠ pgHif → e.reg (rBlkIntStat page) = d.reg (rBlkIntStat page) ||| (w &&& mask))
      ∧ (d.reg (rBlkIntStat page) ||| (w &&& mask)) &&& ~~~ e.reg (rBlkIntStat page) = 0
      ∧ d.regsBut e [rBlkIntStat page, rHifTxDrop, rBlkIntStat pgHif] ∧ d.onlyIn e [.regs, .hif])
    ∧ (d.regOpen 0 (page + 0x8) → ∃ e : Dev, exec (.errClr 0 page v) s = .next { s with dev := e }
      ∧ e.reg (rBlkErrCnt page) = (if fld v fBlkCtrl_ErrClr = 1 then 0 else d.reg (rBlkErrCnt page))
      ∧ d.regsBut e [rBlkErrCnt page] ∧ d.onlyIn e [.regs])
    ∧ (∀ f : Func, f ≠ 0 → d.regOpen f page → exec (.blkIntForce f page v) s = .next s ∧ exec (.errClr f page v) s = .next s)
    ∧ (d.regOpen 0 (page + 0x10) → ∃ e : Dev, exec (.registerWrite 0 (page + 0x10) 4 w) s = .next { s with dev := e }
      ∧ e.reg (rBlkIntStat page) = d.reg (rBlkIntStat page) &&& ~~~ (w &&& mask)
      ∧ d.regsBut e [rBlkIntStat page] ∧ d.onlyIn e [.regs])
    ∧ (d.regOpen 0 (page + 0x14) → ∃ e : Dev, exec (.registerWrite 0 (page + 0x14) 4 w) s = .next { s with dev := e }
      ∧ e.reg (rBlkIntEn page) = (d.reg (rBlkIntEn page) &&& ~~~ mask) ||| (w &&& mask)
      ∧ d.regsBut e [rBlkIntEn page, rHifTxDrop, rBlkIntStat pgHif] ∧ d.onlyIn e [.regs, .hif])

/-- A write of BAR0 that is not a word or double word in place, or that crosses a register, is discarded and counted by the host
interface; one outside the map, or to what its function does not write, changes nothing; the low word of a 64-bit register is held,
and with its high word the two act as one write. A read of a word answers it; a read of the low word of a counter keeps its high word
for the next read; a read of eight bytes of a 64-bit register answers it whole; a read of another size or place answers zeros and is
counted (00 R5 to R9; 16 R443, R447, R449, R454; 11 R324). -/
def Obligations.RegisterAccessesFollowTheRules : Prop :=
  ∀ (s : State) (f : Func) (off : Nat), s.dev.bar0Open f off = true →
    let d := s.dev
    let out (e : Dev) (bs : List Byte) : Prop :=
      e.hif = { d.hif with out := d.hif.out ++ [.readData f bs false 0] }
    (tfind d.heldLow f = none →
      (∀ (n : Nat) (v : W64), (n ≠ 4 ∧ n ≠ 8) ∨ off % n ≠ 0 →
        ∃ e : Dev, exec (.registerWrite f off n v) s = .next { s with dev := e } ∧ d.discarded e pgHif)
      ∧ (∀ v : W64, findReg off = none → off % 4 = 0 → off < 0x3FF_0000 → exec (.registerWrite f off 4 v) s = .next s)
      ∧ (∀ (r : RegRow) (v : W64), findReg off = some (r, off) → r.size = 4 → off % 8 = 0 → off < 0x3FF_0000 →
        ∃ e : Dev, exec (.registerWrite f off 8 v) s = .next { s with dev := e } ∧ d.discarded e pgHif)
      ∧ (∀ (r : RegRow) (v : W64), findReg off = some (r, off) → r.size = 4 → off % 4 = 0 → off < 0x3FF_0000 →
        (d.view f off).2 = false → exec (.registerWrite f off 4 v) s = .next s)
      ∧ (∀ (r : RegRow) (v : W64), findReg off = some (r, off) → r.size = 8 → off % 8 = 0 → off < 0x3FF_0000 →
        exec (.registerWrite f off 4 v) s
          = .next { s with dev := { d with heldLow := tset d.heldLow f (off, v.toNat % 2 ^ 32) } }))
    ∧ (∀ (r : RegRow) (low : Nat) (v : W64), findReg off = some (r, off) → r.size = 8 → off % 8 = 0 → off < 0x3FF_0000 →
        low < 2 ^ 32 → tfind d.heldLow f = some (off, low) →
        let d1 : Dev := { d with heldLow := tdel d.heldLow f }
        exec (.registerWrite f (off + 4) 4 v) s
          = exec (.registerWrite f off 8 (BitVec.ofNat 64 (low + v.toNat % 2 ^ 32 * 2 ^ 32))) { s with dev := d1 })
    ∧ (∀ r : RegRow, findReg off = some (r, off) → off % 4 = 0 → off < 0x3FF_0000 →
        let w := if (d.view f off).1 = true then s.regShown f off % 2 ^ (8 * r.size) else 0
        ∃ e : Dev, exec (.lowWordRead f ⟨off, 4⟩) s = .next { s with dev := e } ∧ out e (leBytes 4 (w % 2 ^ 32))
          ∧ (isLatched off = true → tfind e.latched (f * 2 ^ 26 + off) = some (off, w / 2 ^ 32) ∧ d.onlyIn e [.hif, .latched])
          ∧ (isLatched off = false → d.onlyIn e [.hif]))
    ∧ (∀ (r : RegRow) (x : Nat × Nat), findReg (off + 4) = some (r, off) → off % 8 = 0 → off + 4 < 0x3FF_0000 →
        d.bar0Open f (off + 4) = true → tfind d.latched (f * 2 ^ 26 + off) = some x →
        ∃ e : Dev, exec (.lowWordRead f ⟨off + 4, 4⟩) s = .next { s with dev := e } ∧ out e (leBytes 4 x.2)
          ∧ tfind e.latched (f * 2 ^ 26 + off) = none ∧ d.onlyIn e [.hif, .latched])
    ∧ (∀ r : RegRow, findReg off = some (r, off) → r.size = 8 → off % 8 = 0 → off < 0x3FF_0000 →
        let w := if (d.view f off).1 = true then s.regShown f off % 2 ^ 64 else 0
        ∃ e : Dev, exec (.lowWordRead f ⟨off, 8⟩) s = .next { s with dev := e } ∧ out e (leBytes 8 w) ∧ d.onlyIn e [.hif])
    ∧ (∀ n : Nat, (n ≠ 4 ∧ n ≠ 8) ∨ off % n ≠ 0 →
        ∃ e : Dev, exec (.lowWordRead f ⟨off, n⟩) s = .next { s with dev := e } ∧ out e (List.replicate n 0)
          ∧ d.counted e (rBlkErrCnt pgHif) fBlkErrCnt_Cnt 1 ∧ d.regsBut e [rBlkErrCnt pgHif] ∧ d.onlyIn e [.regs, .hif])

/-! ## Stack memory -/

/-- A BAR4 read outside the function's memory answers zeros, one of a stack that cannot be reached answers ones, and both are
counted; an access of one granule that nothing holds back reads it, poison as EP over zeros, or writes its bytes and no other, a
retired granule taking nothing. A write beyond its granule's home is not stated here. A buffered write drains to its home; a service
window serves up to four queued accesses while a hen runs, and all of them otherwise, those left waiting one window more (06 R153,
R173, R182; 07 R202, R203, R205; 11 R330; 12 R350; 15 R423). -/
def Obligations.StackAccessesReadAndWriteGranules : Prop :=
  (∀ (s : State) (f : Func) (off len : Nat), s.dev.reached f → 0 < len →
    let d := s.dev
    let answered (e : Dev) (bs : List Byte) : Prop := d.counted e (rBlkErrCnt pgHif) fBlkErrCnt_Cnt 1
      ∧ e.hif = { d.hif with out := d.hif.out ++ [.readData f bs false 0] } ∧ d.regsBut e [rBlkErrCnt pgHif]
      ∧ d.onlyIn e [.regs, .hif]
    (d.bar4Addr f off = none → ∃ e : Dev, exec (.bar4Read f off len) s = .next { s with dev := e }
      ∧ answered e (List.replicate len 0))
    ∧ (∀ a : Nat, d.bar4Addr f off = some a → d.bar4Closed (stackOf a) = true →
      ∃ e : Dev, exec (.bar4Read f off len) s = .next { s with dev := e } ∧ answered e (List.replicate len 0xFF))
    ∧ (∀ (a : Nat) (d1 : Dev) (bs : List Byte) (st : Nat), d.bar4Addr f off = some a → d.bar4Closed (stackOf a) = false →
      d.bar4Idle (stackOf a) (pcOf a) → a % 64 + len ≤ 64 →
      let m := d.meterRead (d.stackPart (stackOf a)) len
      m.1.readStk 4 a len = (d1, bs, st) → st < 3 →
      ∃ e : Dev, exec (.bar4Read f off len) s = .next { s with dev := e }
        ∧ e.hif = { d1.hif with
            out := d1.hif.out ++ [.readData f (if st = 0 then bs else List.replicate len 0) (st != 0) m.2] }
        ∧ (st = 0 → e.regs = d1.regs) ∧ d1.onlyIn e [.hif, .regs]))
  ∧ (∀ (s : State) (f : Func) (off : Nat) (data : List Byte), s.dev.reached f → data ≠ [] →
    let d := s.dev
    (d.bar4Addr f off = none → ∃ e : Dev, exec (.bar4Write f off data) s = .next { s with dev := e } ∧ d.discarded e pgHif)
    ∧ (∀ a : Nat, d.bar4Addr f off = some a → d.bar4Closed (stackOf a) = true →
      ∃ e : Dev, exec (.bar4Write f off data) s = .next { s with dev := e } ∧ d.discarded e pgHif)
    ∧ (∀ a : Nat, d.bar4Addr f off = some a → d.bar4Closed (stackOf a) = false → d.bar4Idle (stackOf a) (pcOf a) →
      a % 64 + data.length ≤ 64 →
      let g := granOf a
      let whole : Prop := data.length = 64
        ∨ ((d.stk.flag g).valid = true ∧ (d.stk.flag g).poison = false ∧ (d.stk.flag g).bad = 0)
      ∃ e : Dev, exec (.bar4Write f off data) s = .next { s with dev := e } ∧ d.stk.sameOutside e.stk g 64
        ∧ (d.deadGran g = true → e.stk = d.stk)
        ∧ (d.deadGran g = false → d.stk.wf = true → whole → e.stk.bytes a data.length = data
            ∧ d.stk.sameOutside e.stk a data.length ∧ (e.stk.flag g).valid = true ∧ (e.stk.flag g).poison = false)
        ∧ d.onlyIn e [.stk, .regs, .hif, .cs, .gan]))
  ∧ (∀ (s : State) (k : SectId) (g : Nat),
    let d := s.dev
    ((d.wbuf k).find? (fun w => granOf w.addr == g) = none → exec (.writeBufferDrain k g) s = .next s)
    ∧ (∀ w : PWrite, (d.wbuf k).find? (fun w => granOf w.addr == g) = some w →
      ∃ e : Dev, exec (.writeBufferDrain k g) s = .next { s with dev := e } ∧ e.wbuf k = (d.wbuf k).erase w
        ∧ (∀ j : Nat, j ≠ k → e.wbuf j = d.wbuf j)
        ∧ (isTram w.addr = true → w.nibble = none → w.poison = false → d.upsets = [] →
            e.tram = sramWrite d.tram (w.addr - 2 ^ 48) w.data false ∧ d.onlyIn e [.sect, .tram])
        ∧ (isHost w.addr = true → w.nibble = none → w.poison = false → d.canSend w.func = true →
            e.host = d.host.putBytes (w.addr - 2 ^ 51) w.data
            ∧ (∃ relaxed : Bool, e.hif = { d.hif with
                out := d.hif.out ++ [.posted w.func (w.addr - 2 ^ 51) w.data false relaxed false] })
            ∧ d.onlyIn e [.sect, .host, .hif])))
  ∧ (∀ (s : State) (n : StackId) (p : PcId), s.dev.hif.bar4 = [] → s.dev.upsets = [] →
    let d := s.dev
    let q := d.queued n p
    let busy := d.henBusy n p
    ∃ e : Dev, exec (.serviceWindow n p) s = .next { s with dev := e }
      ∧ e.queued n p = (if busy then (q.drop 4).map (fun a => { a with windows := a.windows + 1 }) else [])
      ∧ d.counted e (rCsWinWait n) fCsWinWait_Defer
          (if busy then ((q.drop 4).filter (fun a => a.windows == 0)).length else 0)
      ∧ (∀ a ∈ (if busy then q.take 4 else q), a.data = none →
          ∃ (bs : List Byte) (ep : Bool), HostOut.readData a.func bs ep a.held ∈ e.hif.out)
      ∧ d.onlyIn e [.regs, .cs, .hif, .stk, .gan, .free])

/-- A refresh period refreshes as many rows of each bank as the band sets, a stack in self-refresh or training none. A temperature
sample shows the hottest reading, a failed sensor reading 110 °C, raises the band at once, sets TEMP_CRIT at 105 °C, and trips at the tenth sample running at
115 °C. The scrubber repairs a granule of up to two bad symbols and makes one of three or four poison. The bitmap clear leaves a stack
reading zeros, and it and a stack's own retraining end READY (07 R207, R209 to R211, R213; 12 R342, R345; 13 R390). -/
def Obligations.StacksAreKeptUp : Prop :=
  (∀ (s : State) (n : StackId) (p : PcId),
    let d := s.dev
    let off : Prop := d.getF (rCsState n) fCsState_Selfref = 1 ∨ d.getF (rCsState n) fCsState_Training = 1
    let rows := match d.getF (rCsTemp n) fCsTemp_Band with | 0 => 8 | 1 => 16 | _ => 32
    (off → exec (.refreshPeriod n p) s = .next s)
    ∧ (¬ off → ∃ e : Dev, exec (.refreshPeriod n p) s = .next { s with dev := e }
        ∧ tget (e.stackSt n).refreshRow 0 p = (tget (d.stackSt n).refreshRow 0 p + rows) % 49152
        ∧ (∀ q : Nat, q ≠ p → tget (e.stackSt n).refreshRow 0 q = tget (d.stackSt n).refreshRow 0 q)
        ∧ d.regsBut e [rBlkIntStat (pgCs1 n), rHifTxDrop, rBlkIntStat pgHif] ∧ d.onlyIn e [.cs, .regs, .hif]))
  ∧ (∀ (s : State) (n : StackId) (rs : List Reading), rs ≠ [] →
    let d := s.dev
    let t : Nat := min 1023 ((rs.map (fun r => if r.bad then 440 else r.temp.toNat)).foldl max 0)
    let old : Nat := d.getF (rCsTemp n) fCsTemp_Band
    let band : Nat := if t < 340 then 0 else if t < 380 then 1 else 2
    (t < 460 → ∃ e : Dev, exec (.stackTempSample n rs) s = .next { s with dev := e }
      ∧ e.getF (rCsTemp n) fCsTemp_Temp = t
      ∧ e.getF (rCsTemp n) fCsTemp_SensorFail = (if rs.any (fun r => r.bad) then 1 else 0)
      ∧ e.getF (rCsTempMax n) fCsTempMax_Max = max t (d.getF (rCsTempMax n) fCsTempMax_Max)
      ∧ (old < band → e.getF (rCsTemp n) fCsTemp_Band = band ∧ e.event (pgCs0 n) 0 = true)
      ∧ (¬ old < band → e.getF (rCsTemp n) fCsTemp_Band = old ∨ e.getF (rCsTemp n) fCsTemp_Band = old - 1)
      ∧ (420 ≤ t → e.event (pgCs0 n) 1 = true)
      ∧ d.onlyIn e [.cs, .regs, .hif])
    ∧ (460 ≤ t → (d.stackSt n).hot = 9 → d.pstate ≠ 6 → d.pstate ≠ 7 →
      ∃ e : Dev, exec (.stackTempSample n rs) s = .next { s with dev := e }
        ∧ e.pstate = 6 ∧ e.hif.thermtripN = false ∧ e.stk = {} ∧ e.cq.cmds = []))
  ∧ (∀ (s : State) (n : StackId) (p : PcId),
    let d := s.dev
    let i := tget (d.stackSt n).scrubAt 0 p
    let g := physOf n p (64 * i)
    let fl := d.stk.flag g
    let runs : Prop := d.getF (rCsState n) fCsState_Ready = 1 ∧ d.getF (rCsScrubCtrl n) fCsScrubCtrl_En = 1
      ∧ (∀ o ∈ d.henOps, o.hens.contains (32 * n.val + p.val) = false) ∧ d.queued n p = []
    (¬ runs → ∃ e : Dev, exec (.scrubStep n p) s = .next { s with dev := e } ∧ e.stk = d.stk
      ∧ (e.stackSt n).scrubAt = (d.stackSt n).scrubAt)
    ∧ (runs → i + 64 < pcGranules → d.upsets = [] → d.deadGran g = false → fl.valid = true →
      ∃ e : Dev, exec (.scrubStep n p) s = .next { s with dev := e } ∧ tget (e.stackSt n).scrubAt 0 p = i + 1
        ∧ d.onlyIn e [.stk, .regs, .cs, .gan, .hif]
        ∧ (fl.poison = false → 1 ≤ fl.bad → fl.bad ≤ 2 → e.stk.cells = d.stk.cells ∧ e.stk.flag g = { fl with bad := 0 }
            ∧ d.counted e (rCsScrubFix n) fCsScrubFix_Corrected 1 ∧ d.counted e (rCsErrTotal n) fCsErrTotal_Ce 1)
        ∧ (3 ≤ fl.bad → fl.bad ≤ 4 → e.stk.flag g = { valid := true, poison := true }
            ∧ (∀ x : Nat, g ≤ x → x < g + 64 → e.stk.byte x = 0) ∧ d.stk.sameOutside e.stk g 64
            ∧ d.counted e (rCsScrubFix n) fCsScrubFix_Poisoned 1 ∧ d.counted e (rCsErrTotal n) fCsErrTotal_Ue 1)
        ∧ (fl.bad = 0 → e.stk = d.stk)))
  ∧ (∀ (s : State) (n : StackId),
    let d := s.dev
    (d.getF (rCsState n) fCsState_VbmClear = 0 → exec (.bitmapClearDone n) s = .next s)
    ∧ (d.getF (rCsState n) fCsState_VbmClear = 1 → ∃ e : Dev, exec (.bitmapClearDone n) s = .next { s with dev := e }
        ∧ (∀ x : Nat, n * stackBytes ≤ x → x < (n + 1) * stackBytes → e.stk.byte x = 0 ∧ (e.stk.flag x).valid = false)
        ∧ d.stk.sameOutside e.stk (n * stackBytes) stackBytes ∧ e.getF (rCsState n) fCsState_Ready = 1
        ∧ e.upsets = d.upsets.filter (fun x => !(x.arr == .bitmapWord && x.unit == n.val))
        ∧ d.onlyIn e [.stk, .cs, .regs, .hif, .upsets]))
  ∧ (∀ (s : State) (n : StackId),
    let d := s.dev
    ((d.stackSt n).retraining = false → exec (.stackRetrainDone n) s = .next s)
    ∧ ((d.stackSt n).retraining = true → ∃ e : Dev, exec (.stackRetrainDone n) s = .next { s with dev := e }
        ∧ (e.stackSt n).retraining = false ∧ e.getF (rCsState n) fCsState_Ready = 1
        ∧ d.onlyIn e [.cs, .regs, .hif]))

/-- The stacks' clearing registers, and the registers of unit service, as the PF writes them: CLR puts CS_TEMP_MAX at the temperature
and CS_WIN_WAIT at 0; RETURN makes a unit out of service RETURNING, or IN_SERVICE where it can resume at once, and is discarded for
any other; the selects and RAS_INJECT take their fields. A VF's writes change nothing (07 R213; 11 R324; 12 R353, R364; 16 R451). -/
def Obligations.StackAndUnitRegistersTakeWrites : Prop :=
  (∀ (s : State) (n : StackId) (v : W32),
    (s.dev.regOpen 0 (rCsTempMax n) → ∃ e : Dev, exec (.csTempMaxClr 0 n v) s = .next { s with dev := e }
      ∧ e.getF (rCsTempMax n) fCsTempMax_Max = (if fld v fCsTempMax_Clr = 1 then s.dev.getF (rCsTemp n) fCsTemp_Temp
          else s.dev.getF (rCsTempMax n) fCsTempMax_Max)
      ∧ s.dev.regsBut e [rCsTempMax n] ∧ s.dev.onlyIn e [.regs])
    ∧ (s.dev.regOpen 0 (rCsWinWait n) → ∃ e : Dev, exec (.csWinWaitClr 0 n v) s = .next { s with dev := e }
      ∧ e.reg (rCsWinWait n) = (if fld v fCsWinWait_Clr = 1 then 0 else s.dev.reg (rCsWinWait n))
      ∧ s.dev.regsBut e [rCsWinWait n] ∧ s.dev.onlyIn e [.regs])
    ∧ (∀ f : Func, f ≠ 0 → s.dev.regOpen f (rCsTempMax n) →
        exec (.csTempMaxClr f n v) s = .next s ∧ exec (.csWinWaitClr f n v) s = .next s))
  ∧ (∀ (s : State) (v : W32), s.dev.regOpen 0 rRasUnitCmd →
    let d := s.dev
    (fld v fRasUnitCmd_Return = 0 → exec (.returnUnit 0 v) s = .next s)
    ∧ (fld v fRasUnitCmd_Return = 1 → d.selUnit = none → ∃ e : Dev, exec (.returnUnit 0 v) s = .next { s with dev := e }
        ∧ d.discarded e pgRas)
    ∧ (∀ u : UnitId, fld v fRasUnitCmd_Return = 1 → d.selUnit = some u →
        ((d.unit u).state ≠ 1 → ∃ e : Dev, exec (.returnUnit 0 v) s = .next { s with dev := e } ∧ d.discarded e pgRas)
        ∧ ((d.unit u).state = 1 →
            let now : Prop := d.hasEpoch = false ∧ ∀ p : Nat, p < 6 → d.unitInPart p u = true → d.quiet p = true
            ∃ e : Dev, exec (.returnUnit 0 v) s = .next { s with dev := e }
              ∧ (now → (e.unit u).state = 0
                  ∧ (u.kind = .link → d.getF (rFabLinkCtrl u.index) fFabLinkCtrl_En = 1 → e.linkState u.index = 1))
              ∧ (¬ now → (e.unit u).state = 3 ∧ e.regs = d.regs)
              ∧ (∀ w : UnitId, unitCode w ≠ unitCode u → e.unit w = d.unit w) ∧ d.onlyIn e [.ras, .regs, .fab])))
  ∧ (∀ (s : State) (v : W32),
    (s.dev.regOpen 0 rRasUnitSel → ∃ e : Dev, exec (.rasUnitSel 0 v) s = .next { s with dev := e }
      ∧ e.getF rRasUnitSel fRasUnitSel_Kind = fld v fRasUnitSel_Kind
      ∧ e.getF rRasUnitSel fRasUnitSel_Index = fld v fRasUnitSel_Index
      ∧ s.dev.regsBut e [rRasUnitSel] ∧ s.dev.onlyIn e [.regs])
    ∧ (s.dev.regOpen 0 rRasSuspSel → ∃ e : Dev, exec (.rasSuspSel 0 v) s = .next { s with dev := e }
      ∧ e.getF rRasSuspSel fRasSuspSel_Part = fld v fRasSuspSel_Part
      ∧ e.getF rRasSuspSel fRasSuspSel_Index = fld v fRasSuspSel_Index
      ∧ s.dev.regsBut e [rRasSuspSel] ∧ s.dev.onlyIn e [.regs])
    ∧ (∀ f : Func, f ≠ 0 → s.dev.regOpen f rRasUnitSel →
        exec (.rasUnitSel f v) s = .next s ∧ exec (.rasSuspSel f v) s = .next s ∧ exec (.returnUnit f v) s = .next s))
  ∧ (∀ (s : State) (v : W64), s.dev.regOpen 0 rRasInject → ∃ e : Dev, exec (.rasInject 0 v) s = .next { s with dev := e }
    ∧ e.getF rRasInject fRasInject_Granule = fld v fRasInject_Granule
    ∧ e.getF rRasInject fRasInject_Mode = fld v fRasInject_Mode ∧ s.dev.regsBut e [rRasInject] ∧ s.dev.onlyIn e [.regs])

/-! ## The host link, power-on and resets -/

/-- POWER_ON restarts the gander with PERST_N and RAILS_GOOD low. RAILS_GOOD, while the sequence waits for it, sets the clock, puts
the units of the retirement list out of service for good after a power-on, and starts the stacks' training; the host link trains once
PERST_N is high as well. POWER_ON_COMPLETE, once
PERST_N is high and no bitmap clear is under way, makes every stack READY and the device READY, and with no epoch its beats fall on
the 8,000 ns grid of DEV_TIME (10 R288; 15 R433 to R435; 12 R351; 14 R399 to
R403). The stacks named are those that train, CS0 alone in recovery boot; units and records name
what the device has. -/
def Obligations.PowerOnSequenceRuns : Prop :=
  (∀ s : State, ∃ t : State, exec .powerOn s = .next t ∧ s.booted t 0 ∧ t.dev.hif.perstN = false ∧ t.dev.hif.railsGood = false)
  ∧ (∀ (s : State) (failed : List UnitId),
    let d := s.dev
    let go : Prop := d.hif.phase = .waitRails ∧ d.hif.pgStk = true ∧ (d.hif.warm = true → d.hif.perstN = true)
    let plain : Prop := (∀ u ∈ failed, u.kind = .link → u.index < 96)
      ∧ ∀ r ∈ d.gan.cfg.retired, r.addr < stackTop ∧ r.unit < 144 ∧ (7 ≤ r.kind → r.unit < 96)
    ∃ e : Dev, exec (.railsGood failed) s = .next { s with dev := e } ∧ e.hif.railsGood = true
      ∧ (¬ go → ({ d with hif := { d.hif with railsGood := true } } : Dev).linkTrains e)
      ∧ (go → plain → e.hif.phase = .training ∧ e.stk = d.stk ∧ e.cq = d.cq ∧ e.tiles = d.tiles
          ∧ (∀ n ∈ d.bootStacks, e.getF (rCsState n) fCsState_Training = 1 ∧ e.getF (rCsState n) fCsState_Ready = 0
              ∧ e.getF (rCsState n) fCsState_VbmClear = (if (d.stackSt n).unclear = true then 1 else 0)
              ∧ (e.stackSt n).trainAt = d.time)
          ∧ e.getF rHifLink fHifLink_State
              = (if d.hif.perstN = true ∧ d.getF rHifLink fHifLink_State = 0 then 1 else d.getF rHifLink fHifLink_State)
          ∧ (failed = [] → d.gan.cfg.retired = [] → e.getF rPwrClk fPwrClk_Cur = d.effClk % 128)
          ∧ (d.recoveryBoot = false → d.hif.warm = false → ∀ r ∈ d.gan.cfg.retired,
              (r.kind = 4 → (e.unit ⟨.tile, r.unit⟩).state = 2) ∧ (r.kind = 5 → (e.unit ⟨.dma, r.unit⟩).state = 2)
              ∧ (r.kind = 6 → (e.unit ⟨.sector, r.unit⟩).state = 2) ∧ (r.kind = 3 → (e.unit ⟨.stack, stackOf r.addr⟩).state = 2))))
  ∧ (∀ s : State,
    let d := s.dev
    let go : Prop := d.hif.phase = .training ∧ d.hif.perstN = true
      ∧ ∀ n ∈ d.bootStacks, d.getF (rCsState n) fCsState_VbmClear ≠ 1
    (¬ go → exec .powerOnComplete s = .next s)
    ∧ (go → ∃ e : Dev, exec .powerOnComplete s = .next { s with dev := e } ∧ e.hif.phase = .complete ∧ e.hif.warm = false
        ∧ e.ready = true ∧ e.getF rDevStatus fDevStatus_Ready = 1
        ∧ (∀ n ∈ d.bootStacks, e.getF (rCsState n) fCsState_Ready = 1)
        ∧ e.fab = (if d.hasEpoch = true then d.fab else
            { d.fab with beatStart := d.time / 8000 * 8000, beatNo := d.time / 8000, len1 := 8000 })
        ∧ d.onlyIn e [.regs, .hif, .fab]))

/-- PERST_N falling, a hot reset and DL_Down of a running device begin a warm reset with their own cause; where the device cannot be
reset or the link is not up they change nothing but the pin and the link, which PERST_N takes down. A warm reset ends when PERST_N
rises, or at once for the other two, and the host link trains again; with an activated image pending the gander then restarts. In
HALTED and SAVING a rise of PERST_N restarts the device only after 10 ms of assertion with RAILS_GOOD high, which once the gander has
stopped are taken to have passed (log entry 60), and does nothing else (15 R431 to R436; 14 R416). -/
def Obligations.HostResetsAct : Prop :=
  (∀ s : State, (s.dev.hif.perstN = false → exec .perstN s = .next s)
    ∧ (s.dev.hif.perstN = true → s.dev.resettable = false →
        exec .perstN s
          = .next (s.onDev (fun d => (d.setReg rHifLink 0).onHif (fun h => { h with perstN := false, perstFellAt := d.time }))))
    ∧ (s.dev.hif.perstN = true → s.dev.resettable = true → ∃ t : State, exec .perstN s = .next t ∧ s.warmed t 1
        ∧ t.dev.hif.perstN = false ∧ t.dev.hif.perstFellAt = s.dev.time ∧ t.dev.linkIsUp = false))
  ∧ (∀ row ∈ [(Instr.hotReset, 2), (.dlDown, 3)], ∀ s : State,
    (s.dev.linkIsUp = false ∨ s.dev.resettable = false → exec row.1 s = .next s)
    ∧ (s.dev.linkIsUp = true → s.dev.resettable = true → ∃ w : State, s.warmed w row.2
        ∧ (w.dev.getF rMgmtStatus fMgmtStatus_ActPending = 0 → ∃ e : Dev, exec row.1 s = .next { w with dev := e } ∧ w.dev.linkTrains e)
        ∧ (w.dev.getF rMgmtStatus fMgmtStatus_ActPending = 1 → ∃ t : State, exec row.1 s = .next t ∧ w.booted t 4)))
  ∧ (∀ s : State,
    let d := s.dev
    let up : State := s.onDev (fun d => d.onHif (fun h => { h with perstN := true }))
    let off : Prop := d.pstate = 6 ∨ d.pstate = 7
    let boots : Prop := (off ∧ d.hif.railsGood = true ∧ (d.gan.up = false ∨ d.hif.perstFellAt + 10000000 ≤ d.time))
      ∨ (¬ off ∧ d.hif.warm = true ∧ d.getF rMgmtStatus fMgmtStatus_ActPending = 1)
    (d.hif.perstN = true → exec .perstNRise s = .next s)
    ∧ (d.hif.perstN = false → ¬ boots → off → exec .perstNRise s = .next up)
    ∧ (d.hif.perstN = false → ¬ boots → ¬ off → ∃ e : Dev, exec .perstNRise s = .next { s with dev := e } ∧ up.dev.linkTrains e)
    ∧ (d.hif.perstN = false → boots → ∃ t : State, exec .perstNRise s = .next t ∧ s.booted t 4))

/-- The link's own events, and its configuration space. LINK_UP of a link out of PERST_N shows what it reached, releases WAKE_N
and sets LINK_UP, and DEGRADED below full rate or width; an established IDE stream that turns insecure is shown so and has no keys
left; WAKE_N_RELEASE raises the pin 100 ms after it was driven low. A configuration write of a function that is present sets what it names within its range and
nothing else; where it unmasks a function's vectors the messages that were pending go; VFs that it removes lose what they own.
What a configuration read answers at offset 0 is the identity record's Vendor ID and DEV_ID. Ranges, offsets and IDE keys beyond
the spec's own words follow log entry 29 (00 R1; 15 R420, R421, R423, R428, R430, R437; 11 R323, R326, R335). -/
def Obligations.LinkAndConfigurationSpaceAct : Prop :=
  (∀ (s : State) (rate width : Nat) (flit rev : Bool),
    let d := s.dev
    let go : Prop := d.hif.perstN = true ∧ (d.hif.phase = .training ∨ d.hif.phase = .complete)
    (¬ go → exec (.linkUp rate width flit rev) s = .next s)
    ∧ (go → rate < 16 → width < 16 → ∃ e : Dev, exec (.linkUp rate width flit rev) s = .next { s with dev := e }
        ∧ e.getF rHifLink fHifLink_State = 2 ∧ e.getF rHifLink fHifLink_Rate = rate ∧ e.getF rHifLink fHifLink_Width = width
        ∧ e.getF rHifLink fHifLink_Flit = (if flit then 1 else 0) ∧ e.getF rHifLink fHifLink_Reversed = (if rev then 1 else 0)
        ∧ e.hif.wakeN = true ∧ (rate < 7 ∨ width < 8 → e.event pgHif 1 = true) ∧ d.raised e pgHif 0 [rHifLink] []))
  ∧ (∀ s : State, (s.dev.getF rHifIde fHifIde_State ≠ 1 → exec .ideInsecure s = .next s)
    ∧ (s.dev.getF rHifIde fHifIde_State = 1 → ∃ e : Dev, exec .ideInsecure s = .next { s with dev := e }
        ∧ e.getF rHifIde fHifIde_State = 2 ∧ e.hif.ideKeys = [] ∧ s.dev.raised e pgHif 4 [rHifIde] []))
  ∧ (∀ s : State,
    (s.dev.hif.wakeN = true ∨ s.dev.time < s.dev.hif.wakeAt + 100000000 → exec .wakeNRelease s = .next s)
    ∧ (s.dev.hif.wakeN = false → s.dev.hif.wakeAt + 100000000 ≤ s.dev.time →
        exec .wakeNRelease s = .next { s with dev := { s.dev with hif := { s.dev.hif with wakeN := true } } }))
  ∧ (∀ (s : State) (f : Func) (r : CfgReg) (v : Nat),
    let d := s.dev
    let x := d.fn f
    let own : Bool := [CfgReg.busMaster, .msixEnable, .msixMask, .powerState].contains r
    let legal : Prop := match r with
      | .powerState => v = 0 ∨ v = 3
      | .bar4Size => 36 ≤ v ∧ v ≤ 40
      | .numVfs => v ≤ 24 ∧ d.recoveryBoot = false
      | .vfEnable => d.recoveryBoot = false
      | .maxPayload => v = 128 ∨ v = 256 ∨ v = 512
      | .maxReadReq => v = 128 ∨ v = 256 ∨ v = 512 ∨ v = 1024 ∨ v = 2048 ∨ v = 4096
      | .cplTimeoutRange => v ≤ 4
      | _ => True
    let here : Prop := d.ready = true ∧ (f = 0 ∨ (d.hif.vfEnable = true ∧ f ≤ d.hif.numVfs))
    let acts : Prop := here ∧ (own = true ∨ f = 0) ∧ legal
    (¬ acts → exec (.pciConfigWrite f r v) s = .next s)
    ∧ (acts → ∃ e : Dev, exec (.pciConfigWrite f r v) s = .next { s with dev := e }
        ∧ (r = .busMaster → e.fn f = { x with busMaster := v % 2 == 1 })
        ∧ (r = .msixEnable → e.fn f = { x with msixEnable := v % 2 == 1 })
        ∧ (r = .msixMask → e.fn f = { x with msixMask := v % 2 == 1 })
        ∧ (r = .powerState → e.fn f = { x with d3 := v == 3 })
        ∧ (own = true → (∀ g : Nat, g ≠ f → e.fn g = d.fn g) ∧ d.onlyIn e [.hif, .regs]
            ∧ ∀ j : Nat, j < 64 → (d.vector f j).pend = true → (d.vector f j).masked = false → r ≠ .powerState →
              (e.fn f).msixEnable = true → (e.fn f).msixMask = false → e.masters f = true → (e.vector f j).pend = false
                ∧ (d.linkCarries = true → HostOut.message f j (d.vector f j).addr (d.vector f j).data ∈ e.hif.out))
        ∧ (r = .bar4Size → e = { d with hif := { d.hif with bar4Log2 := v } })
        ∧ (r = .maxPayload → e = { d with hif := { d.hif with maxPayload := v } })
        ∧ (r = .maxReadReq → e = { d with hif := { d.hif with maxReadReq := v } })
        ∧ (r = .cplTimeoutRange → e = { d with hif := { d.hif with cplRange := v } })
        ∧ (r = .vfEnable → e.hif.vfEnable = (v % 2 == 1) ∧ e.hif.numVfs = d.hif.numVfs)
        ∧ (r = .numVfs → e.hif.numVfs = v ∧ e.hif.vfEnable = d.hif.vfEnable)
        ∧ (r = .vfEnable ∨ r = .numVfs → ∀ g : Nat, g ≠ 0 → d.hif.vfEnable = true → g ≤ d.hif.numVfs →
            (e.hif.vfEnable = false ∨ e.hif.numVfs < g) → e.fn g = {} ∧ ∀ y ∈ e.cq.cmds, y.func ≠ g)))
  ∧ (∀ s : State, s.configRead 0 % 2 ^ 16 = s.ident.vid.toNat ∧ s.configRead 0 / 2 ^ 16 = (s.dev.reg rDevId).toNat)

/-- A completion of an outstanding read puts its data where host memory is read and ends it; an error of any kind, and a timeout, is
counted, its address kept, and fails the command or the request it was for; before its time, or of no outstanding read, nothing
happens. AtomicOp and I/O requests are unsupported requests, counted and answered so; a poisoned write reaches no block (15 R426,
R427). The data move of a COPY whose last read came is stated with its start. -/
def Obligations.HostReadsComeBackOrFail : Prop :=
  (∀ (s : State) (i : Nat) (r : OutRead), s.dev.hif.reads[i]? = some r →
    let d := s.dev
    let failed (e : Dev) : Prop := ((∀ j : Nat, r.purpose ≠ .tokens j) → e.hif.reads = d.hif.reads.eraseIdx i) ∧ e.host = d.host ∧ e.stk = d.stk
      ∧ d.counted e rHifAbortCnt fHifAbortCnt_Cnt 1 ∧ e.getF rHifAbortLast fHifAbortLast_Addr = r.addr % 2 ^ 64
      ∧ e.event pgHif 2 = true
      ∧ (∀ c : Nat, (r.purpose = .cmd c ∨ ∃ t j : Nat, r.purpose = .op t j ∧ (d.tile t).cmd = some c) →
          e.cq.cmds = d.cq.cmds.map (fun y => if y.id = c then y.fail d.time 0x33 r.handle r.vaddr else y))
      ∧ (∀ k : Nat, r.purpose = .head k → (d.fetchedAt k).failed = none → (e.fetchedAt k).failed = some (r.handle, r.vaddr))
      ∧ (∀ j : Nat, r.purpose = .tokens j → (d.entry j).occupied = true → (d.entry j).state ≠ .closing → (d.entry j).outs = [] →
          (e.entry j).state = .closing ∧ (e.entry j).cause = 3)
    (∀ (st : ReadStatus) (data : List Byte), st ≠ .ok →
      ∃ e : Dev, exec (.hostReadCompletion i st data) s = .next { s with dev := e } ∧ failed e)
    ∧ (∀ data : List Byte, data.length ≠ r.len → exec (.hostReadCompletion i .ok data) s = .next s)
    ∧ (∀ data : List Byte, data.length = r.len →
      (∀ (c : Nat) (x : Cmd), r.purpose = .cmd c → d.cmd? c = some x → x.opcode ≠ 0x02 ∨ x.phase ≠ .running) →
      let d1 : Dev := { d with
        hif := { d.hif with reads := d.hif.reads.eraseIdx i }
        host := d.host.putBytes r.addr data }
      ((∀ k : Nat, r.purpose ≠ .head k) → exec (.hostReadCompletion i .ok data) s = .next { s with dev := d1 })
      ∧ (∀ k : Nat, r.purpose = .head k → exec (.hostReadCompletion i .ok data) s = .next { s with dev := { d1 with
          cq := { d.cq with fetched := tset d.cq.fetched k { d.fetchedAt k with got := r.addr :: (d.fetchedAt k).got } } } }))
    ∧ (d.time < r.sentAt + cplTimeout d.hif.cplRange → exec (.completionTimeout i) s = .next s)
    ∧ (r.sentAt + cplTimeout d.hif.cplRange ≤ d.time →
      ∃ e : Dev, exec (.completionTimeout i) s = .next { s with dev := e } ∧ failed e))
  ∧ (∀ (s : State) (i : Nat) (st : ReadStatus) (data : List Byte), s.dev.hif.reads[i]? = none →
    exec (.hostReadCompletion i st data) s = .next s ∧ exec (.completionTimeout i) s = .next s)
  ∧ (∀ row ∈ [(Instr.atomicopRequest), (.ioRequest)], ∀ (s : State) (f : Func),
    (s.dev.ready = false → exec (row f) s = .next s)
    ∧ (s.dev.ready = true → ∃ e : Dev, exec (row f) s = .next { s with dev := e }
        ∧ s.dev.counted e rHifUrCnt fHifUrCnt_Cnt 1
        ∧ e.hif = { s.dev.hif with out := s.dev.hif.out ++ [.unsupported f] }
        ∧ s.dev.regsBut e [rHifUrCnt] ∧ s.dev.onlyIn e [.regs, .hif]))
  ∧ (∀ (s : State) (f : Func) (bar off : Nat) (data : List Byte),
    (s.dev.ready = false → exec (.poisonedTlp f bar off data) s = .next s)
    ∧ (s.dev.ready = true → s.dev.fnServes f = false → ∃ e : Dev, exec (.poisonedTlp f bar off data) s = .next { s with dev := e }
        ∧ s.dev.counted e rHifUrCnt fHifUrCnt_Cnt 1 ∧ s.dev.regsBut e [rHifUrCnt] ∧ s.dev.onlyIn e [.regs])
    ∧ (s.dev.ready = true → s.dev.fnServes f = true → exec (.poisonedTlp f bar off data) s
        = .next { s with dev := { s.dev with hif := { s.dev.hif with out := s.dev.hif.out ++ [.poisonReceived f] } } }))

/-! ## Power, clocks and temperature -/

/-- ENTERED ends an entry in LULL or FALLOW, with every stack in self-refresh and, in FALLOW, tile and sector memory and routine
stores empty and links DISABLED; a wake source that came during the entry acts at once. WAKE_DONE ends a wake: from LULL in ACTIVE,
from FALLOW in WAKE_HELD after the self-test while the pads are held, else in ACTIVE, where a reset that waited begins. A supply sag
loses everything but what is kept in AON and flash, takes the host link down and enters SAVING; SAVE_END programs its records and ends the gander. Elsewhere
these events change nothing (13 R366, R371, R374 to R376, R378, R390 to R392; 16 R452). -/
def Obligations.PowerStatesChange : Prop :=
  (∀ s : State,
    let d := s.dev
    (d.pstate ≠ 1 ∨ d.pwr.entering = none → exec .entered s = .next s)
    ∧ (∀ t : Nat, d.pstate = 1 → d.pwr.entering = some t →
      let low := if t = 2 then 3 else 2
      let w := d.pwr.wakeWaits
      ∃ e : Dev, exec .entered s = .next { s with dev := e } ∧ e.pwr.entering = none ∧ e.event pgPwr 0 = true ∧ e.stk = d.stk
        ∧ (w = 0 → e.pstate = low)
        ∧ (w ≠ 0 → e.pstate = 4 ∧ e.pwr.wakeFrom = low ∧ e.getF rPwrState fPwrState_WakeSrc = w % 16)
        ∧ (∀ n : Nat, n < 12 → d.unitRetired .stack n = false →
            e.getF (rCsState n) fCsState_Selfref = 1 ∧ e.getF (rCsState n) fCsState_Ready = 0)
        ∧ (t = 2 → e.tiles = [] ∧ (∀ k : Nat, k < 6 → e.sramZero k ∧ (tget e.sect {} k).lib = none)
            ∧ ∀ i : Nat, i < 96 → e.linkState i = if d.linkState i = 5 then 5 else 0)
        ∧ (t ≠ 2 → e.tiles = d.tiles ∧ e.tram = d.tram ∧ e.sram = d.sram ∧ e.sect = d.sect
            ∧ ∀ i : Nat, i < 96 → e.linkState i = d.linkState i)))
  ∧ (∀ (s : State) (failed : List UnitId),
    let d := s.dev
    let active : Prop := d.pstate = 4 ∧ (d.pwr.wakeFrom = 2 ∨ s.pads.held = false)
    (d.pstate ≠ 4 → exec (.wakeDone failed) s = .next s)
    ∧ (active → (∀ p : Nat, p < 6 → (d.part p).resetWaits = false) → ∃ e : Dev,
        exec (.wakeDone failed) s = .next { s with dev := e } ∧ e.pstate = 0 ∧ e.event pgPwr 0 = true
        ∧ (∀ n : Nat, n < 12 → d.unitRetired .stack n = false → e.getF (rCsState n) fCsState_Ready = 1)
        ∧ d.onlyIn e [.regs, .hif])
    ∧ (∀ p : PartId, active → (∀ q : Nat, q < 6 → ((d.part q).resetWaits = true ↔ q = p.val)) → d.partExists p = true →
        d.inReset p = false → ∃ e : Dev, exec (.wakeDone failed) s = .next { s with dev := e }
          ∧ (e.part p).phase = .records ∧ (e.part p).cause = (d.part p).resetWaitCause ∧ (e.part p).resetWaits = false)
    ∧ (d.pstate = 4 → d.pwr.wakeFrom ≠ 2 → s.pads.held = true → (∀ u ∈ failed, u.kind = .link → u.index < 96) →
        ∃ e : Dev, exec (.wakeDone failed) s = .next { s with dev := e } ∧ e.pstate = 5 ∧ e.event pgPwr 1 = true
          ∧ e.getF rRasStatus fRasStatus_SelftestDone = 1 ∧ (∀ u ∈ failed, (e.unit u).state ≠ 0)
          ∧ d.onlyIn e [.regs, .hif, .ras, .free]))
  ∧ (∀ s : State,
    let d := s.dev
    (d.pstate = 6 ∨ d.pstate = 7 ∨ d.gan.up = false → exec .supplySag s = .next s)
    ∧ (d.pstate ≠ 6 → d.pstate ≠ 7 → d.gan.up = true → ∃ e : Dev, exec .supplySag s = .next { s with dev := e } ∧ e.pstate = 7
        ∧ e.stk = {} ∧ e.tram = {} ∧ e.sram = {} ∧ e.cq.cmds = [] ∧ e.cq.ready = [] ∧ e.tiles = [] ∧ e.srv = {} ∧ e.gan.upd = none
        ∧ e.hif.pgStk = false ∧ e.hif.pgCore = false ∧ e.hif.phase = .off ∧ e.unserved ∧ e.pwr.sagTrigger = Config.freeWord d.free ∧ e.gan.up = true))
  ∧ (∀ s : State,
    let d := s.dev
    (d.pstate ≠ 7 ∨ d.gan.up = false → exec .saveEnd s = .next s)
    ∧ (d.pstate = 7 → d.gan.up = true → ∃ e : Dev, exec .saveEnd s = .next { s with dev := e } ∧ e.gan.up = false
        ∧ e.gan.logBuf = [] ∧ d.onlyIn e [.gan] ∧ e.gan.image = d.gan.image
        ∧ ∃ r ∈ e.gan.logFlash, r.typ = 0x22 ∧ r.seq = (d.gan.logSeq + 1) % 2 ^ 32 ∧ r.time = d.time
          ∧ r.payload = [d.pwr.sagTrigger, d.gan.logBuf.length - 18] ++ d.pwr.sagTrip))

/-- PWR_CTRL as the PF writes it: SHUTDOWN with its key halts the device from any state and without it is discarded and counted;
PAD_RELEASE releases the held pads in WAKE_HELD, counts the release and starts the stacks' training, and is discarded and counted
in any other state; WAKE leaves a low state, waits during an entry, and has no effect elsewhere. SHUTDOWN goes before PAD_RELEASE
and that before WAKE, a reading of this model. A VF's write changes nothing (13 R375, R376, R391, R395). -/
def Obligations.PowerControlActs : Prop :=
  ∀ row ∈ [(Instr.wake), (.padRelease), (.shutdown)],
    (∀ (s : State) (f : Func) (v : W32), f ≠ 0 → s.dev.regOpen f rPwrCtrl → exec (row f v) s = .next s)
    ∧ (∀ (s : State) (v : W32), s.dev.regOpen 0 rPwrCtrl →
      let d := s.dev
      let down := fld v fPwrCtrl_Shutdown
      let free := fld v fPwrCtrl_PadRelease
      let wake := fld v fPwrCtrl_Wake
      (down = 1 → fld v fPwrCtrl_Key ≠ 0xA5 → ∃ e : Dev, exec (row 0 v) s = .next { s with dev := e } ∧ d.discarded e pgPwr)
      ∧ (down = 1 → fld v fPwrCtrl_Key = 0xA5 → (d.pstate = 6 ∨ d.pstate = 7) → exec (row 0 v) s = .next s)
      ∧ (down = 1 → fld v fPwrCtrl_Key = 0xA5 → d.pstate ≠ 6 → d.pstate ≠ 7 →
          ∃ e : Dev, exec (row 0 v) s = .next { s with dev := e } ∧ e.pstate = 6 ∧ e.stk = {} ∧ e.tram = {} ∧ e.sram = {}
            ∧ e.cq.cmds = [] ∧ e.cq.ready = [] ∧ e.tiles = [] ∧ e.srv = {} ∧ e.hif.pgStk = false ∧ e.hif.pgCore = false
            ∧ e.unserved ∧ e.hif.thermtripN = d.hif.thermtripN ∧ e.host = d.host
            ∧ (d.gan.up = true → d.gan.logBuf.length < 4095 →
                ∃ r ∈ e.gan.logFlash, r.typ = 0x21 ∧ r.time = d.time ∧ r.payload = [d.pstate]))
      ∧ (down = 0 → free = 1 → d.pstate = 5 → s.pads.held = true → ∃ e : Dev,
          exec (row 0 v) s
            = .next { s with dev := e, pads := { s.pads with release := s.pads.release + 1, held := false } }
          ∧ e.pstate = 4
          ∧ (∀ n : Nat, n < 12 → d.unitRetired .stack n = false → e.getF (rCsState n) fCsState_Training = 1
              ∧ (e.stackSt n).trainAt = d.time)
          ∧ (∀ i : Nat, i < 96 → e.linkState i
              = if d.getF (rFabLinkCtrl i) fFabLinkCtrl_En = 1 ∧ d.linkState i = 0 ∧ d.unitGone .link i = false then 1
                else d.linkState i)
          ∧ ({ e.fab with sent := d.fab.sent, linkAt := d.fab.linkAt } : Fab) = d.fab ∧ d.onlyIn e [.regs, .fab, .cs])
      ∧ (down = 0 → free = 1 → (d.pstate ≠ 5 ∨ s.pads.held = false) →
          ∃ e : Dev, exec (row 0 v) s = .next { s with dev := e } ∧ d.discarded e pgPwr)
      ∧ (down = 0 → free = 0 → wake = 1 → (d.pstate = 2 ∨ d.pstate = 3) → ∃ e : Dev,
          exec (row 0 v) s = .next { s with dev := e } ∧ e.pstate = 4 ∧ e.getF rPwrState fPwrState_WakeSrc = 1
            ∧ e.pwr = { d.pwr with wakeFrom := d.pstate, wakeWaits := 0, entering := none }
            ∧ d.regsBut e [rPwrState] ∧ d.onlyIn e [.regs, .pwr])
      ∧ (down = 0 → free = 0 → wake = 1 → d.pstate = 1 → d.pwr.wakeWaits = 0 →
          exec (row 0 v) s = .next { s with dev := { d with pwr := { d.pwr with wakeWaits := 1 } } })
      ∧ (down = 0 → free = 0 → (wake = 0 ∨ (d.pstate = 1 ∧ d.pwr.wakeWaits ≠ 0)
          ∨ (d.pstate ≠ 1 ∧ d.pstate ≠ 2 ∧ d.pstate ≠ 3)) → exec (row 0 v) s = .next s))

/-- A thermal sample reads every working monitor by the formula of R387, fails one whose count or reading is out of range, shows the
junction temperature, and trips at 118 °C or where R388 says so; below that it loses nothing. At T_THROTTLE it takes four off its
sector's throttle limit, and a rise freezes it. A calibration is taken, against a good diode, at the self-test or after 10 ms of low
power, and elsewhere changes nothing (13 R386 to R390, R396). In FALLOW and while saving the junction is not stated here. Rounding and
saturation are free (log entries 11 and 16). -/
def Obligations.TemperatureIsSampledAndActedOn : Prop :=
  (∀ (s : State) (diode : Reading) (counts : List (Nat × Int)),
    let d := s.dev
    (d.gan.up = false ∨ d.pstate = 6 → exec (.thermalSample diode counts) s = .next s)
    ∧ (d.gan.up = true → d.pstate ≠ 6 → d.pstate ≠ 3 → d.pstate ≠ 7 →
      let facts (e : Dev) : Prop :=
        (∀ (n c : Nat) (v : Int), d.working.contains n = true → counts[n]? = some (c, v) →
          let t := monReading s.ident (d.mon n) n c v
          (e.mon n).last = t ∧ (c = 0 ∨ Config.monSaturated c = true ∨ t < -160 ∨ 600 < t → e.monFailed n = true))
        ∧ (d.getF rThmDiode fThmDiode_Fail = 0 → diode.bad = true → e.getF rThmDiode fThmDiode_Fail = 1)
        ∧ (∀ j : Int × Nat, e.junction = some j → e.getF rThmHot fThmHot_Temp = wrapNat 12 j.1)
      let trips (e : Dev) : Prop := e.sensorTrip = true ∨ ∃ j : Int × Nat, e.junction = some j ∧ 472 ≤ j.1
      ∃ e : Dev, exec (.thermalSample diode counts) s = .next { s with dev := e }
        ∧ ((e.pstate = 6 ∧ e.hif.thermtripN = false ∧ e.hif.pgCore = false ∧ e.unserved ∧ e.stk = {} ∧ e.cq.cmds = [] ∧ e.tiles = []
            ∧ (d.buffersEmpty → facts e ∧ trips e))
          ∨ (facts e ∧ ¬ trips e ∧ e.pstate = d.pstate ∧ d.onlyIn e [.thm, .regs, .hif]
            ∧ ∀ k : Nat, k < 6 →
              let ms := (e.working.filter (fun n => n / 12 == k)).map e.mon
              let hot := maxInt (-2048) (ms.map Mon.last)
              let tt : Int := 4 * (d.getF rThmLimit fThmLimit_TThrottle : Int)
              ms ≠ [] →
              (tt ≤ hot → (bitOf (d.reg rThmStatus) k = false ∨ (d.thmSect k).steppedAt + 100000 ≤ d.time) →
                (e.thmSect k).throttle = max 1 ((d.thmSect k).throttle - 4) ∧ bitOf (e.reg rThmStatus) k = true)
              ∧ (6 ≤ maxInt (-2048) (ms.map Mon.rise) → (e.thmSect k).freeze.isSome = true)
              ∧ (16 ≤ maxInt (-2048) (ms.map Mon.rise) → (e.thmSect k).act = true)))))
  ∧ (∀ (s : State) (diode : Reading) (counts : List (Nat × Int)),
    let d := s.dev
    let due : Prop := d.getF rThmDiode fThmDiode_Fail = 0 ∧ diode.bad = false
      ∧ (d.hif.phase = .training ∨ ∃ t : Nat, d.thm.lowPowerSince = some t ∧ t + 10000000 ≤ d.time)
    (¬ due → exec (.recalibration diode counts) s = .next s)
    ∧ (due → ∃ e : Dev, exec (.recalibration diode counts) s = .next { s with dev := e } ∧ d.onlyIn e [.thm]
        ∧ (∀ (n c : Nat) (v : Int), d.working.contains n = true → counts[n]? = some (c, v) →
            e.mon n = { d.mon n with nCal := (c : Int), vCal := v, tCal := diode.temp })
        ∧ (∀ n : Nat, d.working.contains n = false → e.mon n = d.mon n)))

/-- A power sample joins those of the last millisecond and shows their mean, the peak and each rail's mean. A rate update sets every
sector's rate by the algorithm of R381 from the sample, the learned power of what runs, holds and limits, and counts a budget that
the holds alone exceed. A droop below the threshold holds and is counted; its end adds to the 64 microseconds' total, and one beyond
the allowance is counted and raises DROOP_BUDGET. A sector that has been idle for IDLE_US may be clocked off and a wake clocks it on;
a clock switch shows the effective clock (13 R367, R369, R379, R381 to R384). Rounding is free (log entry 11). -/
def Obligations.PowerAndRatesAreControlled : Prop :=
  (∀ (s : State) (package : Nat) (rails : List Nat),
    let d := s.dev
    ∃ e : Dev, exec (.powerSample package rails) s = .next { s with dev := e }
      ∧ e.pwr.samples = ((package, rails) :: d.pwr.samples).take 1000
      ∧ e.getF rPwrPower fPwrPower_Avg = e.pwr.avg % 2048
      ∧ e.getF rPwrPower fPwrPower_Peak = max e.pwr.avg (d.getF rPwrPower fPwrPower_Peak) % 2048
      ∧ (∀ k : Nat, k < 6 → e.getF (rPwrSectPower k) fPwrSectPower_Power = e.pwr.railAvg k % 1024)
      ∧ e.pwr.overCap = (if d.getF rPwrCap fPwrCap_Cap * 110 < e.pwr.avg * 100 then d.pwr.overCap + 1 else 0)
      ∧ (e.pwr.overCap = 0 → e.pwr.supplyCap = [])
      ∧ d.regsBut e (rPwrPower :: (List.range 6).map rPwrSectPower) ∧ d.onlyIn e [.regs, .pwr, .thm])
  ∧ (∀ s : State,
    let d := s.dev
    let x := d.pwr.samples.headD (0, [])
    let rails := (List.range 6).map (fun k => x.2.getD k 0)
    let budget : Int := (((d.getF rPwrCap fPwrCap_Cap : Int) - d.getF rPwrCap fPwrCap_Margin) * 1000
      - ((x.1 : Int) - (rails.foldl (· + ·) 0 : Nat))) * 4096
    let steps := (List.range 6).map (fun k => match d.sectorPhase k with
      | none => 0
      | some key => d.phaseP key * 10 * d.getF rPwrClk fPwrClk_Cur)
    let holds := (List.range 6).map d.computeHold
    let lims := (List.range 6).map (fun k => d.computeLim k (holds.getD k 1))
    let spend : Int := (((List.range 6).map (fun k => holds.getD k 0 * steps.getD k 0)).foldl (· + ·) 0 : Nat)
    let rs := ratePasses steps lims budget 400 holds spend
    ∃ e : Dev, exec .rateUpdate s = .next { s with dev := e }
      ∧ (∀ k : Nat, k < 6 →
          e.getF (rPwrSectMax k) fPwrSectMax_R = max 1 (min (rs.getD k 1) (min (d.thermalLimit k) (d.supplyLimit k))) % 128
          ∧ e.getF (rPwrSectMax k) fPwrSectMax_Hold = holds.getD k 1 % 128)
      ∧ (budget < spend → d.counted e rPwrCapOver fPwrCapOver_Cnt 1 ∧ e.event pgPwr 3 = true)
      ∧ d.regsBut e ([rPwrCapOver, rBlkIntStat pgPwr, rHifTxDrop, rBlkIntStat pgHif] ++ (List.range 6).map rPwrSectMax)
      ∧ d.onlyIn e [.regs, .hif, .fab, .srv])
  ∧ (∀ (s : State) (k : SectId) (mv : Nat),
    let d := s.dev
    (mv ≤ d.getF rPwrDroop fPwrDroop_Thresh → exec (.droop k mv) s = .next s)
    ∧ (d.getF rPwrDroop fPwrDroop_Thresh < mv → ∃ e : Dev, exec (.droop k mv) s = .next { s with dev := e }
        ∧ d.counted e rPwrDroopCnt fPwrDroopCnt_Events 1 ∧ e.pwr.drooping.contains k.val = true
        ∧ d.regsBut e [rPwrDroopCnt] ∧ d.onlyIn e [.regs, .pwr]))
  ∧ (∀ (s : State) (k : SectId) (ns : Nat),
    let d := s.dev
    let hs := (k.val, d.time, ns) :: d.pwr.droopHolds.filter (fun h => d.time < h.2.1 + 64000)
    let total := ((hs.filter (fun h => h.1 == k.val)).map (fun h => h.2.2)).foldl (· + ·) 0
    (d.pwr.drooping.contains k.val = false → exec (.droopHoldExpiry k ns) s = .next s)
    ∧ (d.pwr.drooping.contains k.val = true → ∃ e : Dev, exec (.droopHoldExpiry k ns) s = .next { s with dev := e }
        ∧ e.pwr = { d.pwr with drooping := d.pwr.drooping.filter (· != k.val), droopHolds := hs }
        ∧ (total ≤ d.getF rPwrDroop fPwrDroop_Budget → d.onlyIn e [.pwr])
        ∧ (d.getF rPwrDroop fPwrDroop_Budget < total → d.counted e rPwrDroopCnt fPwrDroopCnt_Over 1
            ∧ e.fab.lowered.contains d.fab.beatNo = true ∧ d.raised e pgPwr 4 [rPwrDroopCnt] [.pwr, .srv, .fab])))
  ∧ (∀ (s : State) (k : SectId),
    let d := s.dev
    let us := d.getF rPwrGate fPwrGate_IdleUs
    let off : Prop := us ≠ 0 ∧ d.sectorIdle k = true ∧ d.foldPart (d.sectPart k) = false
      ∧ (tget d.sect {} k).idleSince + 1000 * us ≤ d.time
    (¬ off → exec (.sectorClockOff k) s = .next s)
    ∧ (off → ∃ e : Dev, exec (.sectorClockOff k) s = .next { s with dev := e } ∧ e.getF (rPwrSectMax k) fPwrSectMax_Gated = 1
        ∧ d.regsBut e [rPwrSectMax k] ∧ d.onlyIn e [.regs])
    ∧ (∃ e : Dev, exec (.sectorWake k) s = .next { s with dev := e } ∧ e.getF (rPwrSectMax k) fPwrSectMax_Gated = 0
        ∧ tget e.sect {} k = { tget d.sect {} k with idleSince := d.time }
        ∧ d.regsBut e [rPwrSectMax k] ∧ d.onlyIn e [.regs, .sect]))
  ∧ (∀ s : State,
    let d := s.dev
    ∃ e : Dev, exec .clockSwitch s = .next { s with dev := e }
      ∧ (d.getF rFabStatus fFabStatus_Fallback = 1 → e.getF rPwrClk fPwrClk_Cur = d.fbClk % 128)
      ∧ (d.getF rFabStatus fFabStatus_Fallback = 0 → d.effClk < 128 → d.getF rPwrClk fPwrClk_Target ≤ e.getF rPwrClk fPwrClk_Cur
          ∧ d.fbClk ≤ e.getF rPwrClk fPwrClk_Cur ∧ d.heldClk ≤ e.getF rPwrClk fPwrClk_Cur
          ∧ ∀ p : Nat, p < 6 → 0 < d.liveCount p → d.getF (rSrvAdmFloor p) fSrvAdmFloor_Clk ≤ e.getF rPwrClk fPwrClk_Cur)
      ∧ e.getF rPwrClk fPwrClk_Target = d.getF rPwrClk fPwrClk_Target ∧ d.regsBut e [rPwrClk] ∧ d.onlyIn e [.regs])

/-- The remaining registers of power, temperature and recovery as the PF writes them: TARGET of PWR_CLK between 16 and 64, any other
discarded; a phase select, with CLEAR emptying the table first; the peak, the maximum and the monitor select; GO and REBOOT of
MGMT_RCV_CTRL, which outside recovery boot are discarded and counted, check and program the image in CS0, and restart the gander. A
VF's write changes nothing (13 R369, R383, R395, R396; 14 R402; 16 R451). Whether flash reads back is free (log entry 30). -/
def Obligations.PowerAndRecoveryRegistersTakeWrites : Prop :=
  (∀ row ∈ [((fun f v => Instr.pwrClk f v : Func → W32 → Instr), rPwrClk), (.pwrPhaseSel, rPwrPhaseSel),
      (.pwrPhaseClear, rPwrPhaseSel), (.pwrPowerClr, rPwrPower), (.thmMonSel, rThmMonSel), (.thmMaxClr, rThmMax),
      (.go, rMgmtRcvCtrl), (.reboot, rMgmtRcvCtrl)],
    ∀ (s : State) (f : Func) (v : W32), f ≠ 0 → s.dev.regOpen f row.2 → exec (row.1 f v) s = .next s)
  ∧ (∀ (s : State) (v : W32),
    let d := s.dev
    (d.regOpen 0 rPwrClk →
      let t := fld v fPwrClk_Target
      (16 ≤ t → t ≤ 64 → ∃ e : Dev, exec (.pwrClk 0 v) s = .next { s with dev := e } ∧ e.getF rPwrClk fPwrClk_Target = t
        ∧ e.getF rPwrClk fPwrClk_Cur = d.getF rPwrClk fPwrClk_Cur ∧ d.regsBut e [rPwrClk] ∧ d.onlyIn e [.regs])
      ∧ (t < 16 ∨ 64 < t → ∃ e : Dev, exec (.pwrClk 0 v) s = .next { s with dev := e } ∧ d.discarded e pgPwr))
    ∧ (d.regOpen 0 rPwrPhaseSel → ∀ row ∈ [(Instr.pwrPhaseSel), (.pwrPhaseClear)],
      let i := fld v fPwrPhaseSel_Index
      let ps := if fld v fPwrPhaseSel_Clear = 1 then [] else d.pwr.phases
      ∃ e : Dev, exec (row 0 v) s = .next { s with dev := e } ∧ e.pwr = { d.pwr with phases := ps }
        ∧ e.getF rPwrPhaseSel fPwrPhaseSel_Index = i
        ∧ e.reg rPwrPhaseData = (match tfind ps i with
            | some x => BitVec.ofNat 64 (x.key + atBit 16 (x.p % 2 ^ 16))
            | none => 0xFFFF)
        ∧ d.regsBut e [rPwrPhaseSel, rPwrPhaseData] ∧ d.onlyIn e [.regs, .pwr])
    ∧ (d.regOpen 0 rPwrPower → ∃ e : Dev, exec (.pwrPowerClr 0 v) s = .next { s with dev := e }
      ∧ e.getF rPwrPower fPwrPower_Peak
        = (if fld v fPwrPower_Clr = 1 then d.getF rPwrPower fPwrPower_Avg else d.getF rPwrPower fPwrPower_Peak)
      ∧ e.getF rPwrPower fPwrPower_Avg = d.getF rPwrPower fPwrPower_Avg ∧ d.regsBut e [rPwrPower] ∧ d.onlyIn e [.regs])
    ∧ (d.regOpen 0 rThmMax → ∃ e : Dev, exec (.thmMaxClr 0 v) s = .next { s with dev := e }
      ∧ e.getF rThmMax fThmMax_Max
        = (if fld v fThmMax_Clr = 1 then d.getF rThmHot fThmHot_Temp else d.getF rThmMax fThmMax_Max)
      ∧ d.regsBut e [rThmMax] ∧ d.onlyIn e [.regs])
    ∧ (d.regOpen 0 rThmMonSel → ∃ e : Dev, exec (.thmMonSel 0 v) s = .next { s with dev := e }
      ∧ e.getF rThmMonSel fThmMonSel_Sect = fld v fThmMonSel_Sect ∧ e.getF rThmMonSel fThmMonSel_Mon = fld v fThmMonSel_Mon
      ∧ d.regsBut e [rThmMonSel] ∧ d.onlyIn e [.regs])
    ∧ (d.regOpen 0 rMgmtRcvCtrl → ∀ row ∈ [(Instr.go), (.reboot)],
      let goes := fld v fMgmtRcvCtrl_Go
      let again := fld v fMgmtRcvCtrl_Reboot
      (goes = 0 → again = 0 → exec (row 0 v) s = .next s)
      ∧ (goes = 1 ∨ again = 1 → d.recoveryBoot = false →
          ∃ e : Dev, exec (row 0 v) s = .next { s with dev := e } ∧ d.discarded e pgMgmt)
      ∧ (∀ (d1 : Dev) (img : List Byte), goes = 1 → again = 0 → d.recoveryBoot = true → d.pushedImage = (d1, img) →
          let k := imageCheck d1.gan img
          ∃ e : Dev, exec (row 0 v) s = .next { s with dev := e } ∧ d1.regsBut e [rMgmtRcvCtrl]
            ∧ (k ≠ 0 → e.getF rMgmtRcvCtrl fMgmtRcvCtrl_Result = k + 2 ∧ d1.onlyIn e [.regs])
            ∧ (k = 0 → d1.onlyIn e [.regs, .gan, .free]
                ∧ ((e.getF rMgmtRcvCtrl fMgmtRcvCtrl_Result = 2 ∧ e.gan.image = img.take (byteBits img 96 32))
                  ∨ (e.getF rMgmtRcvCtrl fMgmtRcvCtrl_Result = 9 ∧ e.gan.image = []))))
      ∧ (∀ (d1 : Dev) (img : List Byte), goes = 1 → again = 1 → d.recoveryBoot = true → d.pushedImage = (d1, img) →
          ∃ (e : Dev) (t : State), exec (row 0 v) s = .next t ∧ ({ s with dev := e } : State).booted t 4
            ∧ d1.onlyIn e [.regs, .gan, .free])
      ∧ (goes = 0 → again = 1 → d.recoveryBoot = true → ∃ t : State, exec (row 0 v) s = .next t ∧ s.booted t 4
          ∧ t.dev.hif.railsGood = false)))

/-! ## The gander -/

/-- A mailbox command that is not the one in progress, or whose turn has not come, changes nothing; one whose request has a length
outside its range ends with BAD_LEN; any other does what its row of Table 14-8 says: it answers, waits for a configuration write, or
opens debug access (14 R406 to R408, R418). Layouts and ranges are free (log entry 12), and so is the status of an operand outside
its range (log entry 32) and the choice of a key entry (log entry 14). -/
def Obligations.MailboxCommandsDoTheirWork : Prop :=
  (∀ row ∈ [(Instr.identityRead, 0x01), (.sensorRead, 0x02), (.logRead, 0x03), (.logInfo, 0x04), (.keyEnrol, 0x10),
      (.keyRevoke, 0x11), (.keyList, 0x12), (.cfgRead, 0x20), (.debugOpen, 0x31)],
    ∀ s : State, ¬ s.dev.mbxRuns row.2 → exec row.1 s = .next s)
  ∧ (∀ (s : State) (nonce : BitVec 256), ¬ s.dev.mbxRuns 0x30 → exec (.debugChallenge nonce) s = .next s)
  ∧ (∀ row ∈ [(Instr.sensorRead, 0x02), (.logRead, 0x03), (.keyEnrol, 0x10), (.keyRevoke, 0x11), (.keyList, 0x12),
      (.cfgRead, 0x20), (.debugOpen, 0x31)],
    ∀ s : State, s.dev.mbxRuns row.2 → 2048 < s.dev.reqLen →
      ∃ e : Dev, exec row.1 s = .next { s with dev := e } ∧ s.dev.mbxDone e s.dev.gan 2 [])
  ∧ (∀ (s : State) (nonce : BitVec 256),
    let d := s.dev
    let i := s.ident
    let g := d.gan
    (d.mbxRuns 0x01 → ∃ e : Dev, exec .identityRead s = .next { s with dev := e }
      ∧ (d.reqLen ≠ 0 → d.mbxDone e g 2 [])
      ∧ (d.reqLen = 0 → d.mbxDone e g 0 (Config.respBytes 0x01
          [i.vid.toNat, 0x4D12, 0x0A01, i.serial.toNat, i.uniqueId.toNat, if i.valid then 1 else 0])))
    ∧ (d.mbxRuns 0x04 → ∃ (a b : Nat) (e : Dev), exec .logInfo s = .next { s with dev := e }
      ∧ (d.reqLen ≠ 0 → d.mbxDone e g 2 [])
      ∧ (d.reqLen = 0 → d.mbxDone e g 0 (Config.respBytes 0x04 [a, b, d.getF rMgmtLogLost fMgmtLogLost_Lost])
          ∧ (∀ r ∈ g.records.head?, a = r.seq) ∧ (∀ r ∈ g.records.getLast?, b = r.seq)))
    ∧ (d.mbxRuns 0x30 → ∃ e : Dev, exec (.debugChallenge nonce) s = .next { s with dev := e }
      ∧ (d.reqLen ≠ 0 → d.mbxDone e g 2 [])
      ∧ (d.reqLen = 0 → d.mbxDone e { g with nonce := some nonce } 0
          (Config.respBytes 0x30 [i.uniqueId.toNat, nonce.toNat]))))
  ∧ (∀ s : State, s.dev.reqLen ≤ 2048 →
    let d := s.dev
    let g := d.gan
    (d.mbxRuns 0x02 → ∃ e : Dev, exec .sensorRead s = .next { s with dev := e }
      ∧ (Config.lenInRange 0x02 d.reqLen = false → d.mbxDone e g 2 [])
      ∧ (Config.lenInRange 0x02 d.reqLen = true →
          (∀ x : Nat × Bool, d.sensor (d.reqNum 0x02 0) = some x →
            d.mbxDone e g 0 (Config.respBytes 0x02 (sensorNumbers (d.reqNum 0x02 0) x)))
          ∧ (d.sensor (d.reqNum 0x02 0) = none → d.mbxOpen e)))
    ∧ (d.mbxRuns 0x03 → ∃ e : Dev, exec .logRead s = .next { s with dev := e }
      ∧ (Config.lenInRange 0x03 d.reqLen = false → d.mbxDone e g 2 [])
      ∧ (Config.lenInRange 0x03 d.reqLen = true →
          let n := d.reqNum 0x03 1
          let rs := (List.range n).filterMap (fun j =>
            (g.logFlash ++ g.logBuf).find? (fun r => r.seq == (d.reqNum 0x03 0 + j) % 2 ^ 32))
          (n = 0 ∨ 16 < n → d.mbxOpen e)
          ∧ (0 < n → n ≤ 16 → rs = [] → d.mbxDone e g 6 [])
          ∧ (0 < n → n ≤ 16 → rs ≠ [] → d.mbxDone e g 0 (rs.flatMap LogRec.bytes))))
    ∧ (d.mbxRuns 0x10 → ∃ e : Dev, exec .keyEnrol s = .next { s with dev := e }
      ∧ (Config.lenInRange 0x10 d.reqLen = false → d.mbxDone e g 2 [])
      ∧ (Config.lenInRange 0x10 d.reqLen = true →
          let id := d.reqNum 0x10 0 % 65536
          let k : KeyEnt := { keyid := id, valid := true, ecdsa := d.reqBlob 0x10 0, lms := d.reqBlob 0x10 1 }
          (id = 0 → d.mbxOpen e)
          ∧ (∀ z : Nat × KeyEnt, id ≠ 0 → g.cfg.keys.find? (fun y => y.2.keyid == id) = some z → d.mbxWaits e (.enrol z.1 k))
          ∧ (id ≠ 0 → g.cfg.keys.find? (fun y => y.2.keyid == id) = none →
              ((∀ j : Nat, j < 16 → ∃ z : KeyEnt, tfind g.cfg.keys j = some z ∧ z.valid = true) → d.mbxDone e g 5 [])
              ∧ ((∃ j : Nat, j < 16 ∧ ∀ z : KeyEnt, tfind g.cfg.keys j = some z → z.valid = false) →
                  ∃ j : Nat, j < 16 ∧ (∀ z : KeyEnt, tfind g.cfg.keys j = some z → z.valid = false) ∧ d.mbxWaits e (.enrol j k)))))
    ∧ (d.mbxRuns 0x11 → ∃ e : Dev, exec .keyRevoke s = .next { s with dev := e }
      ∧ (Config.lenInRange 0x11 d.reqLen = false → d.mbxDone e g 2 [])
      ∧ (Config.lenInRange 0x11 d.reqLen = true →
          let z := g.cfg.keys.find? (fun y => y.2.keyid == d.reqNum 0x11 0 && y.2.valid)
          (z = none → d.mbxDone e g 6 []) ∧ (∀ y : Nat × KeyEnt, z = some y → d.mbxWaits e (.revoke y.1))))
    ∧ (d.mbxRuns 0x12 → ∃ e : Dev, exec .keyList s = .next { s with dev := e }
      ∧ (Config.lenInRange 0x12 d.reqLen = false → d.mbxDone e g 2 [])
      ∧ (Config.lenInRange 0x12 d.reqLen = true →
          let a := d.reqNum 0x12 0
          let n := d.reqNum 0x12 1
          (15 < a ∨ n = 0 ∨ 5 < n → d.mbxOpen e)
          ∧ (a ≤ 15 → 0 < n → n ≤ 5 → d.mbxDone e g 0
              (((List.range n).filter (fun j => a + j ≤ 15)).flatMap (fun j => g.cfg.keyBytes (a + j))))))
    ∧ (d.mbxRuns 0x20 → ∃ e : Dev, exec .cfgRead s = .next { s with dev := e }
      ∧ (Config.lenInRange 0x20 d.reqLen = false → d.mbxDone e g 2 [])
      ∧ (Config.lenInRange 0x20 d.reqLen = true →
          let n := d.reqNum 0x20 2
          (1024 < n → d.mbxOpen e)
          ∧ (n ≤ 1024 → ∃ bs : List Byte, bs.length = n ∧ d.mbxDone e g 0 bs)))
    ∧ (d.mbxRuns 0x31 → ∃ e : Dev, exec .debugOpen s = .next { s with dev := e }
      ∧ (Config.lenInRange 0x31 d.reqLen = false → d.mbxDone e g 2 [])
      ∧ (Config.lenInRange 0x31 d.reqLen = true →
          let barred : Prop := (∃ p : Nat, p < 6 ∧ d.partExists p = true) ∨ d.fab.staged ≠ none ∨ d.hasEpoch = true ∨ g.upd ≠ none
          (barred → d.mbxDone e g 3 [])
          ∧ (¬ barred → d.tokenGood s.ident = false → d.mbxDone e { g with nonce := none } 4 [])
          ∧ (¬ barred → d.tokenGood s.ident = true → e.getF rMgmtMbxStatus fMgmtMbxStatus_Status = 0
              ∧ e.getF rMgmtMbxCtrl fMgmtMbxCtrl_Busy = 0 ∧ e.event pgMgmt 0 = true
              ∧ e.gan.debugFuse = true ∧ e.gan.debugOn = true ∧ e.gan.secretBlocked = true ∧ e.gan.att = none
              ∧ e.gan.sessions = [] ∧ e.gan.nonce = none ∧ e.hif.ideKeys = [] ∧ e.hif.dbgOpen = true
              ∧ e.getF rMgmtSecState fMgmtSecState_DebugOpened = 1 ∧ e.getF rMgmtSecState fMgmtSecState_AttestReady = 0
              ∧ e.getF rDevStatus fDevStatus_DebugOpened = 1 ∧ e.getF rHifIde fHifIde_State = 0))))

/-- CONFIGURATION_WRITE programs the oldest change that waits into the copy not in use, which is then in force with SEQ one higher,
and what waited for it goes on; a copy that does not read back leaves the block in force, a mailbox command then ending with
FLASH_FAIL. LOG_FLUSH programs the buffered records in their order. With nothing that waits, or the gander down, they change
nothing (14 R403 to R405, R407). Whether flash reads back is free, and another change then waits on (log entry 30). -/
def Obligations.FlashWritesTakeEffect : Prop :=
  (∀ s : State, s.dev.gan.cfgPend = [] ∨ s.dev.gan.up = false → exec .configurationWrite s = .next s)
  ∧ (∀ (s : State) (x : CfgChange) (why : CfgCause) (rest : List (CfgChange × CfgCause)), s.dev.gan.cfgPend = (x, why) :: rest →
    s.dev.gan.up = true →
    let d := s.dev
    let b := d.gan.cfg.apply x
    ∃ e : Dev, exec .configurationWrite s = .next { s with dev := e }
      ∧ ((e.gan.cfgPend = rest ∧ e.gan.cfg = { b with seq := (b.seq + 1) % 2 ^ 32 }
            ∧ e.getF rMgmtStatus fMgmtStatus_CfgSrc = (if d.getF rMgmtStatus fMgmtStatus_CfgSrc = 0 then 1 else 0)
            ∧ (d.getF rMgmtStatus fMgmtStatus_CfgSrc = 0 → e.gan.copyB = .block e.gan.cfg ∧ e.gan.copyA = .badVersion)
            ∧ (d.getF rMgmtStatus fMgmtStatus_CfgSrc ≠ 0 → e.gan.copyA = .block e.gan.cfg ∧ e.gan.copyB = .badVersion)
            ∧ e.getF rDevStatus fDevStatus_CfgDefault = 0
            ∧ (why = .mailbox → e.getF rMgmtMbxStatus fMgmtMbxStatus_Status = 0 ∧ e.getF rMgmtMbxCtrl fMgmtMbxCtrl_Busy = 0)
            ∧ (∀ c : Nat, why = .cmd c → e.cq.cmds = d.cq.cmds.map (fun y =>
                if y.id = c ∧ y.phase = .waiting then { y with phase := .finished } else y))
            ∧ d.onlyIn e [.gan, .regs, .hif, .cq, .free])
          ∨ (e.gan.cfg = d.gan.cfg ∧ e.gan.copyA = d.gan.copyA ∧ e.gan.copyB = d.gan.copyB ∧ e.cq = d.cq
            ∧ (why = .mailbox → e.gan.cfgPend = rest ∧ e.getF rMgmtMbxStatus fMgmtMbxStatus_Status = 7)
            ∧ (why ≠ .mailbox → e.gan = d.gan ∧ d.onlyIn e [.free]))))
  ∧ (∀ s : State, (s.dev.gan.up = false → exec .logFlush s = .next s)
    ∧ (s.dev.gan.up = true → s.dev.gan.logFlash.length + s.dev.gan.logBuf.length ≤ 261120 →
        exec .logFlush s = .next { s with dev := { s.dev with gan := { s.dev.gan with
          logFlash := s.dev.gan.logFlash ++ s.dev.gan.logBuf
          logBuf := [] } } }))

/-- The management bus: a request that meets no firmware, or whose binding is down, changes nothing. MCTP control sets an endpoint
address or the dynamic I3C address; a wake request wakes the device when it is enabled; sensors and discovery are answered. SPDM
requests that need a certificate or a signature get Unspecified where the device does not attest, and those that name a slot other
than 0 an error (14 R410 to R412; 13 R375). Layouts and signatures are free (log entries 12 and 13). -/
def Obligations.ManagementRequestsAreAnswered : Prop :=
  (∀ row ∈ [((fun b => Instr.getVersion b : Binding → Instr)), (.getCapabilities), (.pldmBaseDiscovery), (.vdmWake), (.getDigests),
      (.queryDeviceIdentifiers), (.getFirmwareParameters), (.getStatus), (.passComponentTable), (.activateFirmware),
      (.cancelUpdateComponent), (.cancelUpdate), (fun b => .setEndpointId b 1), (fun b => .negotiateAlgorithms b true),
      (fun b => .pldmPlatformMonitoring b 1), (fun b => .getCertificate b 0), (fun b => .challenge b 0 0),
      (fun b => .getMeasurements b [1] false 0), (fun b => .keyExchange b 0), (fun b => .finish b 0), (fun b => .heartbeat b 0),
      (fun b => .keyUpdate b 0), (fun b => .endSession b 0), (fun b => .ideKm b 0 false false), (fun b => .updateComponent b 1)],
    ∀ (s : State) (b : Binding), ¬ s.dev.heard b → exec (row b) s = .next s)
  ∧ (∀ (s : State) (b : Binding) (eid : Byte) (ours : Bool) (n : Nat), s.dev.heard b →
    let d := s.dev
    let g := d.gan
    (∀ row ∈ [((fun b => Instr.getVersion b : Binding → Instr), 0x110), (.getCapabilities, 0x111), (.pldmBaseDiscovery, 0x102)],
      ∃ e : Dev, exec (row.1 b) s = .next { s with dev := e } ∧ d.only e b (.ok (Config.respBytes row.2 [])))
    ∧ (∃ e : Dev, exec (.setEndpointId b eid) s = .next { s with dev := e }
        ∧ d.said e g b (.ok (Config.respBytes 0x100 [eid.toNat])) [.regs] ∧ d.regsBut e [rMgmtMctp]
        ∧ e.getF rMgmtMctp fMgmtMctp_EidPcie = (if b = .pcie then eid.toNat else d.getF rMgmtMctp fMgmtMctp_EidPcie)
        ∧ e.getF rMgmtMctp fMgmtMctp_EidI3c = (if b = .i3c then eid.toNat else d.getF rMgmtMctp fMgmtMctp_EidI3c))
    ∧ (∃ e : Dev, exec (.negotiateAlgorithms b ours) s = .next { s with dev := e }
        ∧ d.said e { g with negotiated := (if ours then [b] else []) ++ g.negotiated.filter (· != b) } b
            (.ok (Config.respBytes 0x112 [if ours then 1 else 0])) [])
    ∧ (∃ e : Dev, exec (.pldmPlatformMonitoring b n) s = .next { s with dev := e }
        ∧ (d.sensor n = none → d.only e b .errOther)
        ∧ (∀ x : Nat × Bool, d.sensor n = some x → d.said e g b (.ok (Config.respBytes 0x101 (sensorNumbers n x))) [.free]))
    ∧ (d.getF rPwrWakeEn fPwrWakeEn_Mgmt = 0 → exec (.vdmWake b) s = .next s)
    ∧ (d.getF rPwrWakeEn fPwrWakeEn_Mgmt = 1 → d.pstate = 2 ∨ d.pstate = 3 →
        ∃ e : Dev, exec (.vdmWake b) s = .next { s with dev := e } ∧ e.pstate = 4 ∧ e.getF rPwrState fPwrState_WakeSrc = 5
          ∧ (d.getF rHifLink fHifLink_State ≠ 2 → e.hif.wakeN = false) ∧ d.onlyIn e [.regs, .pwr, .hif])
    ∧ (d.getF rPwrWakeEn fPwrWakeEn_Mgmt = 1 → d.pstate = 0 → exec (.vdmWake b) s = .next s))
  ∧ (∀ (s : State) (addr : BitVec 7), (s.dev.firmware = false → exec (.i3cDynamicAddress addr) s = .next s)
    ∧ (s.dev.firmware = true → ∃ e : Dev, exec (.i3cDynamicAddress addr) s = .next { s with dev := e }
        ∧ e.getF rMgmtMctp fMgmtMctp_I3cDyn = addr.toNat ∧ s.dev.regsBut e [rMgmtMctp] ∧ s.dev.onlyIn e [.regs]))
  ∧ (∀ (s : State) (b : Binding) (slot : Nat) (nonce : BitVec 256), s.dev.heard b →
    let d := s.dev
    let i := s.ident
    let g := d.gan
    let attests : Prop := i.valid = true ∧ g.debugFuse = false
    let cert := Config.signs 1 i.secret (byteSlice g.runHdr 16 48 ++ leBytes 1 g.svn)
    let sign (m : List Byte) := Config.signs 2 i.secret (byteSlice g.runHdr 16 48 ++ leBytes 1 g.svn ++ m)
    let chain := (Config.sha384 (i.certs ++ cert)).toNat
    (∀ row ∈ [(Instr.getDigests b), (.getCertificate b slot), (.challenge b slot nonce), (.keyExchange b slot)],
      ¬ attests → ∃ e : Dev, exec row s = .next { s with dev := e } ∧ d.only e b .errUnspecified)
    ∧ (attests → slot ≠ 0 → ∀ row ∈ [(Instr.getCertificate b slot), (.challenge b slot nonce), (.keyExchange b slot)],
        ∃ e : Dev, exec row s = .next { s with dev := e } ∧ d.only e b .errOther)
    ∧ (attests → ∃ e : Dev, exec (.getDigests b) s = .next { s with dev := e }
        ∧ d.only e b (.ok (Config.respBytes 0x113 [chain])))
    ∧ (attests → ∃ e : Dev, exec (.getCertificate b 0) s = .next { s with dev := e } ∧ d.only e b (.ok (i.certs ++ cert)))
    ∧ (attests → let m := Config.respBytes 0x115 [chain, nonce.toNat]
        ∃ e : Dev, exec (.challenge b 0 nonce) s = .next { s with dev := e } ∧ d.only e b (.ok (m ++ sign m)))
    ∧ (attests → 4 ≤ g.sessions.length →
        ∃ e : Dev, exec (.keyExchange b 0) s = .next { s with dev := e } ∧ d.only e b .errSessionLimit)
    ∧ (attests → g.sessions.length < 4 → ∃ (n : Nat) (e : Dev), exec (.keyExchange b 0) s = .next { s with dev := e } ∧ n < 4
        ∧ (∀ z ∈ g.sessions, z.number ≠ n)
        ∧ let m := Config.respBytes 0x116 [n, chain]
          d.said e { g with sessions := g.sessions ++ [{ binding := b, number := n, finished := false }] } b (.ok (m ++ sign m)) []))

/-- GET_MEASUREMENTS answers the blocks of Table 14-12 asked for, in index order, with a signature where one is asked for; block 0xF0
with its countersignature takes one leaf of the attestation key, waits while there is none with leaves left, and shows exhaustion once
the identity leaves are spent. ATTESTATION_KEY_GEN makes a key when there is none with leaves left, taking the next identity leaf
first. Secured sessions finish, are kept alive, update their keys and end; IDE key sets are installed and switched to within them (14
R412 to R414; 15 R430). Signatures and layouts are free (log entries 12 and 13). -/
def Obligations.MeasurementsAndSessionsAreServed : Prop :=
  (∀ (s : State) (b : Binding) (ns : List Nat) (sg : Bool) (nonce : BitVec 256), s.dev.heard b →
    let d := s.dev
    let i := s.ident
    let g := d.gan
    let attests : Bool := i.valid && !g.debugFuse
    let bs := (List.range 11).filterMap (fun n => if ns.contains n = true then (d.measurement n).map (fun x => (n, x)) else none)
    let answer (f0 : List Byte) : Reply :=
      let m := Config.respBytes 0x114 (bs.flatMap (fun x => x.1 :: x.2) ++ [leNat f0, f0.length])
      .ok (if sg then m ++ g.aliasSign i (leBytes 32 nonce.toNat ++ m) else m)
    let f0 := ns.contains 0xF0
    ((sg || f0) = true → attests = false →
      ∃ e : Dev, exec (.getMeasurements b ns sg nonce) s = .next { s with dev := e } ∧ d.only e b .errUnspecified)
    ∧ (f0 = false → (sg = true → attests = true) →
      ∃ e : Dev, exec (.getMeasurements b ns sg nonce) s = .next { s with dev := e } ∧ d.only e b (answer []))
    ∧ (f0 = true → attests = true → 32768 ≤ g.lmsUsed →
      ∃ e : Dev, exec (.getMeasurements b ns sg nonce) s = .next { s with dev := e } ∧ d.only e b (answer [1]))
    ∧ (f0 = true → attests = true → g.lmsUsed < 32768 → (∀ k : AttKey, g.att = some k → 32768 ≤ k.used) →
      exec (.getMeasurements b ns sg nonce) s = .next s)
    ∧ (∀ k : AttKey, f0 = true → attests = true → g.lmsUsed < 32768 → g.att = some k → k.used < 32768 →
      ∃ e : Dev, exec (.getMeasurements b ns sg nonce) s = .next { s with dev := e }
        ∧ d.said e { g with att := some { k with used := k.used + 1 } } b (answer (g.block240 i k nonce bs)) []))
  ∧ (∀ (s : State) (seed : BitVec 256),
    let d := s.dev
    let g := d.gan
    let spent : Prop := ∀ k : AttKey, g.att = some k → 32768 ≤ k.used
    let used := if 32768 ≤ g.lmsUsed then g.lmsUsed else g.lmsUsed + 1
    (d.ganFree = false ∨ g.secretBlocked = true ∨ ¬ spent → exec (.attestationKeyGen seed) s = .next s)
    ∧ (d.ganFree = true → g.secretBlocked = false → spent → ∃ e : Dev,
        exec (.attestationKeyGen seed) s = .next { s with dev := e }
        ∧ e.gan = { g with
            att := some { seed := seed, used := 0, idLeaf := if 32768 ≤ g.lmsUsed then none else some g.lmsUsed }
            lmsUsed := used }
        ∧ e.getF rMgmtLms fMgmtLms_Used = min used 65535
        ∧ e.getF rMgmtSecState fMgmtSecState_AttestReady = 1
        ∧ e.getF rMgmtSecState fMgmtSecState_LmsExhausted = (if 32768 ≤ used then 1 else 0)
        ∧ (g.lmsUsed < 32768 → 32768 - used < 1024 → e.event pgMgmt 6 = true)
        ∧ d.regsBut e [rMgmtLms, rMgmtSecState, rBlkIntStat pgMgmt, rHifTxDrop, rBlkIntStat pgHif]
        ∧ d.onlyIn e [.gan, .regs, .hif]))
  ∧ (∀ (s : State) (b : Binding) (n : Nat) (set sw : Bool), s.dev.heard b →
    let d := s.dev
    let g := d.gan
    let z := d.session b n
    (∀ row ∈ [(Instr.heartbeat b n), (.keyUpdate b n), (.endSession b n), (.ideKm b n set sw)],
      (∀ x : Session, z = some x → x.finished = false) →
        ∃ e : Dev, exec row s = .next { s with dev := e } ∧ d.only e b .errOther)
    ∧ ((∀ x : Session, z = some x → x.finished = true) →
        ∃ e : Dev, exec (.finish b n) s = .next { s with dev := e } ∧ d.only e b .errOther)
    ∧ (∀ x : Session, z = some x → x.finished = false → ∃ e : Dev, exec (.finish b n) s = .next { s with dev := e }
        ∧ d.said e { g with sessions := g.sessions.map (fun y => if y.number = n then { y with finished := true } else y) } b
            (.ok (Config.respBytes 0x117 [n])) [])
    ∧ (∀ x : Session, z = some x → x.finished = true →
        (∃ e : Dev, exec (.heartbeat b n) s = .next { s with dev := e } ∧ d.only e b (.ok (Config.respBytes 0x118 [n])))
        ∧ (∃ e : Dev, exec (.keyUpdate b n) s = .next { s with dev := e }
            ∧ d.said e { g with sessions := g.sessions.map (fun y => if y.number = n then { y with updates := y.updates + 1 } else y) }
                b (.ok (Config.respBytes 0x119 [n])) [])
        ∧ (∃ e : Dev, exec (.endSession b n) s = .next { s with dev := e }
            ∧ d.said e { g with sessions := g.sessions.filter (fun y => y.number != n) } b (.ok (Config.respBytes 0x11A [n])) [])
        ∧ (∃ e : Dev, exec (.ideKm b n set sw) s = .next { s with dev := e }
            ∧ (g.debugFuse = true → d.only e b .errOther)
            ∧ (g.debugFuse = false → sw = false → d.said e g b (.ok (Config.respBytes 0x11B [n])) [.hif]
                ∧ e.hif = { d.hif with ideKeys := set :: d.hif.ideKeys.filter (· != set) })
            ∧ (g.debugFuse = false → sw = true → d.hif.ideKeys.contains set = false → d.only e b .errOther)
            ∧ (g.debugFuse = false → sw = true → d.hif.ideKeys.contains set = true →
                d.said e g b (.ok (Config.respBytes 0x11C [n])) [.regs] ∧ d.regsBut e [rHifIde]
                ∧ e.getF rHifIde fHifIde_State = 1 ∧ e.getF rHifIde fHifIde_Keyset = (if set then 1 else 0)))))

/-- A firmware update goes through its states: requested where a staging region is set and none is in progress, its component asked
for, its portions staged at their offsets in order, verified by the checks of a boot, applied with the old header gone first, and
activated for the next power-on; a failed check leaves flash untouched, a failed apply leaves it without an image; a cancel ends it
before apply and is refused during it; identifiers, parameters and status are answered at any time, but for what R407 puts before
them (14 R400, R407, R415 to R417). Where it
reads back wrong is free (log entry 30), and the sizes it takes are a reading (log entry 33). -/
def Obligations.FirmwareUpdateGoesThroughItsStates : Prop :=
  (∀ (s : State) (b : Binding) (n : Nat),
    let d := s.dev
    let g := d.gan
    let at_ := d.updState
    let down : Prop := g.up = false ∨ d.pstate = 6 ∨ d.pstate = 7 ∨ g.cfgPend ≠ [] ∨ d.bindingUp b = false
      ∨ (d.mbxBusy = true ∧ d.getF rMgmtMbxCmd fMgmtMbxCmd_Cmd ≠ 0x31)
    (d.heard b → ∀ row ∈ [(Instr.queryDeviceIdentifiers b, 0x120, [s.ident.vid.toNat, 0x4D12]),
        (.getFirmwareParameters b, 0x121, [1, d.getF rMgmtFwVer fMgmtFwVer_FwVer, d.getF rMgmtStatus fMgmtStatus_ActPending,
          byteBits g.image 32 32]),
        (.getStatus b, 0x126, [at_, d.getF rMgmtUpdStatus fMgmtUpdStatus_Progress, d.getF rMgmtUpdStatus fMgmtUpdStatus_Result])],
      ∃ e : Dev, exec row.1 s = .next { s with dev := e } ∧ d.only e b (.ok (Config.respBytes row.2.1 row.2.2)))
    ∧ ((down → exec (.requestUpdate b n) s = .next s)
        ∧ (¬ down → ∃ e : Dev, exec (.requestUpdate b n) s = .next { s with dev := e }
            ∧ (g.upd ≠ none → d.only e b .alreadyInUpdate)
            ∧ (g.upd = none → d.cannotUpdate = true → d.only e b .unableToInitiate)
            ∧ (g.upd = none → d.cannotUpdate = false → e.updState = 1
                ∧ d.said e { g with upd := some { agent := b, maxTransfer := n, oldVer := d.getF rMgmtFwVer fMgmtFwVer_FwVer } } b
                    (.ok (Config.respBytes 0x122 [])) [.regs] ∧ d.regsBut e [rMgmtUpdStatus])))
    ∧ (∀ row ∈ [(Instr.passComponentTable b, [1]), (.updateComponent b n, [1]), (.activateFirmware b, [4]),
        (.cancelUpdateComponent b, [2, 3, 4]), (.cancelUpdate b, [1, 2, 3, 4])],
      d.notUpdating b row.2 → ∃ e : Dev, exec row.1 s = .next { s with dev := e } ∧ d.only e b .notInUpdate)
    ∧ (∀ u : Update, d.updating b u [1] →
        (∃ e : Dev, exec (.passComponentTable b) s = .next { s with dev := e } ∧ d.only e b (.ok (Config.respBytes 0x123 [])))
        ∧ (∃ e : Dev, exec (.updateComponent b n) s = .next { s with dev := e }
            ∧ (2 ^ 26 < n → d.only e b .errOther)
            ∧ (n ≤ 2 ^ 26 → e.updState = 2 ∧ d.regsBut e [rMgmtUpdStatus]
                ∧ d.said e { g with upd := some { u with bytes := n, nextOff := 0 } } b (.ok (Config.respBytes 0x124 [])) [.regs])))
    ∧ (∀ u : Update, d.updating b u [4] → ∃ e : Dev, exec (.activateFirmware b) s = .next { s with dev := e }
        ∧ (u.applied = false → d.only e b .errOther)
        ∧ (u.applied = true → e.updState = 5 ∧ e.getF rMgmtStatus fMgmtStatus_ActPending = 1
            ∧ d.said e { g with upd := none } b (.ok (Config.respBytes 0x125 [])) [.regs]
            ∧ d.regsBut e [rMgmtUpdStatus, rMgmtStatus]))
    ∧ (∀ u : Update, d.updating b u [2, 3, 4] → ∃ e : Dev, exec (.cancelUpdateComponent b) s = .next { s with dev := e }
        ∧ (at_ = 4 → d.only e b .busy)
        ∧ (at_ ≠ 4 → e.updState = 1 ∧ d.regsBut e [rMgmtUpdStatus]
            ∧ d.said e { g with upd := some { u with bytes := 0, nextOff := 0 } } b (.ok (Config.respBytes 0x127 [])) [.regs]))
    ∧ (∀ u : Update, d.updating b u [1, 2, 3, 4] → ∃ e : Dev, exec (.cancelUpdate b) s = .next { s with dev := e }
        ∧ (u.applied = false → at_ = 4 → d.only e b .busy)
        ∧ (u.applied = true ∨ at_ ≠ 4 → e.updState = 0 ∧ e.gan.upd = none ∧ e.gan.image = g.image
            ∧ e.gan.replies = g.replies ++ [(b, .ok (Config.respBytes 0x128 []))] ∧ d.onlyIn e [.gan, .regs, .hif])
        ∧ (u.applied = false → at_ ≠ 4 → e.getF rMgmtUpdStatus fMgmtUpdStatus_Result = 4)))
  ∧ (∀ s : State, s.dev.gan.upd = none → ∀ row ∈ [(Instr.requestFirmwareData 0 []), (.transferComplete), (.verifyComplete),
      (.applyComplete)], exec row s = .next s)
  ∧ (∀ (s : State) (u : Update) (off : Nat) (data : List Byte), s.dev.gan.upd = some u →
    let d := s.dev
    let come : Prop := d.firmware = true ∧ d.updState = 2 ∧ off = u.nextOff ∧ data ≠ []
      ∧ data.length = min (min 4096 u.maxTransfer) (u.bytes - u.nextOff) ∧ d.stageWaits = false
    let whole : Prop := d.firmware = true ∧ d.updState = 2 ∧ u.nextOff = u.bytes
    let verifies : Prop := d.firmware = true ∧ d.updState = 3 ∧ d.stageWaits = false
    let applies : Prop := d.firmware = true ∧ d.updState = 4 ∧ u.applied = false ∧ d.stageWaits = false
    (¬ come → exec (.requestFirmwareData off data) s = .next s)
    ∧ (come → ∃ e : Dev, exec (.requestFirmwareData off data) s = .next { s with dev := e }
        ∧ e.gan.upd = some { u with nextOff := u.nextOff + data.length } ∧ e.updState = 2
        ∧ e.stk = (d.ganWrite (d.stageBase + off) data).stk)
    ∧ (¬ whole → exec .transferComplete s = .next s)
    ∧ (whole → ∃ e : Dev, exec .transferComplete s = .next { s with dev := e } ∧ e.updState = 3 ∧ d.regsBut e [rMgmtUpdStatus]
        ∧ d.onlyIn e [.regs])
    ∧ (¬ verifies → exec .verifyComplete s = .next s)
    ∧ (∀ (d1 : Dev) (img : List Byte) (bad : Bool), verifies → d.ganRead d.stageBase u.bytes = (d1, img, bad) →
        ∃ e : Dev, exec .verifyComplete s = .next { s with dev := e }
          ∧ (bad = false → imageCheck d1.gan img = 0 → e.updState = 4 ∧ d1.onlyIn e [.gan, .regs]
              ∧ e.gan = { d1.gan with upd := d1.gan.upd.map (fun z => { z with newVer := some (byteBits img 32 32) }), image := [] })
          ∧ (bad = true ∨ imageCheck d1.gan img ≠ 0 → e.updState = 0 ∧ e.gan.image = d1.gan.image ∧ e.gan.upd = none
              ∧ e.getF rMgmtUpdStatus fMgmtUpdStatus_Result = 2 ∧ e.event pgMgmt 3 = true))
    ∧ (¬ applies → exec .applyComplete s = .next s)
    ∧ (∀ (d1 : Dev) (img : List Byte) (bad : Bool), applies → d.ganRead d.stageBase u.bytes = (d1, img, bad) →
        let body := Config.sha384 (byteSlice img 4096 (byteBits img 96 32 - 4096))
        let fits : Prop := body = BitVec.ofNat 384 (leNat (byteSlice img 16 48))
        ∃ e : Dev, exec .applyComplete s = .next { s with dev := e }
          ∧ ((bad = false ∧ fits ∧ e.gan.image = img.take (byteBits img 96 32) ∧ e.event pgMgmt 2 = true
                ∧ e.gan.upd = d1.gan.upd.map (fun z => { z with applied := true })
                ∧ e.getF rMgmtUpdStatus fMgmtUpdStatus_Result = 1)
            ∨ (e.gan.image = [] ∧ e.updState = 0 ∧ e.gan.upd = none ∧ e.event pgMgmt 3 = true
                ∧ e.getF rMgmtUpdStatus fMgmtUpdStatus_Result = 3))))

/-! ## The whole machine -/

/-- A step takes the command at the front of the queue and runs it with the queue's rest; with no command waiting, 40 ns pass
while the gander's AON clock runs, and nothing else changes but the slew that the beat still owes (log entry 31) and a pace word
that waited its 50 ns (10 R289), as long as no stack interface has failed without its reset having begun (log entry 70). -/
def Obligations.StepRunsTheFrontCommand : Prop :=
  (∀ (s : State) (c : Instr) (rest : List Instr), s.pending = c :: rest → step s = exec c { s with pending := rest })
  ∧ (∀ s : State, s.pending = [] → ∃ e : Dev, step s = .next { s with dev := e }
      ∧ (s.dev.gan.up = false → e = s.dev)
      ∧ (s.dev.gan.up = true → (∀ n < 12, (s.dev.stackSt n).ifDown = false) → e.time = ((s.dev.time : Int) + 40 + s.dev.fab.slew).toNat
          ∧ s.dev.onlyIn e [.time, .fab]
          ∧ let f := s.dev.fab
            let sends : Prop := f.paceDue = true ∧ f.paceAt + 50 ≤ e.time ∧ f.paceSent < 8
            (¬ sends → e.fab = { f with slew := 0 })
            ∧ (sends → e.fab = { f with
                slew := 0, paceDue := false, paceSent := f.paceSent + 1, paceAt := e.time
                sent := f.sent ++ s.dev.upLinks.map (fun i => (i, .pace (f.pace.word f.beatNo))) })))

/-- Every command completes: it answers a next state, never a fault or a refusal; it leaves the commands that wait as they are, and
it leaves the identity region, which no command can unprotect (14 R398). -/
def Obligations.EveryCommandCompletesAndKeepsTheIdentity : Prop :=
  ∀ (c : Instr) (s : State), ∃ t : State, exec c s = .next t ∧ t.pending = s.pending ∧ t.ident = s.ident

/-- Every step keeps the pad accounting: PWR_LOW_CNT.FALLOW is PWR_RELEASE_CNT plus PAD_HELD, modulo 2^16, and pads are held only on
the way into, in and out of FALLOW, up to their release, or while the device is stopped. So each entry into FALLOW that commits owes
exactly one release, a refused request owes none, and no release is counted without a hold (13 R372, R373, R376, R377). -/
def Obligations.PadAccountingBalances : Prop :=
  ∀ s t : State, s.padsKept → step s = .next t → t.padsKept

/-- Every step of the machine keeps every memory in its canonical form, so that two memories that read the same, with the same
granule flags, are the same data. -/
def Obligations.StepsKeepMemoriesCanonical : Prop :=
  ∀ s t : State, s.dev.memWf → step s = .next t → t.dev.memWf

/-- The machine after reset: no command waits, no pad is held and the accounts balance, memories are in canonical form and read zero,
no request, command or record exists, every register holds its Reset column, a few of them written out (05 field map of CQ_Q and
CQ_R; 12, 13 field maps of RAS, PWR and THM). -/
def Obligations.ResetLeavesTheResetColumn : Prop :=
  State.reset.pending = [] ∧ State.reset.padsKept ∧ State.reset.dev.memWf
  ∧ (∀ a : Nat, State.reset.dev.stk.byte a = 0 ∧ State.reset.dev.tram.byte a = 0 ∧ State.reset.dev.sram.byte a = 0)
  ∧ State.reset.dev.cq = {} ∧ State.reset.dev.srv = {} ∧ State.reset.dev.tiles = [] ∧ State.reset.dev.pstate = 0
  ∧ (∀ a : Nat, State.reset.dev.reg a = resetOf a)
  ∧ (∀ q : QueueId, State.reset.dev.getF (rCqQCfg q) fCqQCfg_En = 0 ∧ State.reset.dev.getF (rCqQCfg q) fCqQCfg_DepthLog2 = 10)
  ∧ (∀ r : RingId, State.reset.dev.getF (rCqRCfg r) fCqRCfg_Log2n = 6 ∧ State.reset.dev.getF (rCqRCfg r) fCqRCfg_ErrNow = 1
      ∧ State.reset.dev.getF (rCqRMod r) fCqRMod_Count = 1)
  ∧ State.reset.dev.getF rPwrCap fPwrCap_Cap = 800 ∧ State.reset.dev.getF rPwrCap fPwrCap_Margin = 16
  ∧ State.reset.dev.getF rPwrClk fPwrClk_Target = 64 ∧ State.reset.dev.getF rPwrDroop fPwrDroop_Budget = 500
  ∧ State.reset.dev.getF rThmLimit fThmLimit_TThrottle = 105 ∧ State.reset.dev.getF rRasReplay fRasReplay_Tmo = 200
  ∧ (∀ k : SectId, State.reset.dev.getF (rPwrSectMax k) fPwrSectMax_Max = 64)
  ∧ (∀ p : PartId, State.reset.dev.getF (rSrvAdmFloor p) fSrvAdmFloor_Rate = 64)

end
end

