-- ==== Sys2Proof/Laws/Memory.lean ====
section
/-! SUPPORT. The basic laws of memory: every operation keeps the canonical form, a read after a write to the same address
gives what was written, and a write leaves every other address alone. -/

namespace Sys2Proof.Machine

open Host (Cell)

/-- Every listed address is at least `lo`. -/
def cellsFrom (lo : Nat) (cs : List Cell) : Prop := ∀ c ∈ cs, lo ≤ c.1

theorem cellsWf_cons {a : Nat} {b : Byte} {cs : List Cell} :
    cellsWf ((a, b) :: cs) = true ↔ b ≠ 0 ∧ cellsFrom (a + 1) cs ∧ cellsWf cs = true := by
  induction cs generalizing a b with
  | nil => simp [cellsWf, cellsFrom]
  | cons c cs ih =>
    obtain ⟨a', b'⟩ := c
    simp only [cellsWf, Bool.and_eq_true, bne_iff_ne, ne_eq, decide_eq_true_eq]
    rw [ih]
    constructor
    · rintro ⟨⟨hb, ha⟩, hb', hf, hw⟩
      refine ⟨hb, ?_, hb', hf, hw⟩
      intro c hc
      rcases List.mem_cons.mp hc with rfl | hc
      · exact ha
      · have := hf c hc
        omega
    · rintro ⟨hb, hf, hb', hf', hw⟩
      exact ⟨⟨hb, hf (a', b') (by simp)⟩, hb', hf', hw⟩

theorem cellsFrom_mono {lo lo' : Nat} {cs : List Cell} (h : cellsFrom lo cs) (hl : lo' ≤ lo) : cellsFrom lo' cs :=
  fun c hc => le_trans hl (h c hc)

theorem cellAt_of_from {lo x : Nat} {cs : List Cell} (h : cellsFrom lo cs) (hx : x < lo) : cellAt cs x = 0 := by
  induction cs with
  | nil => rfl
  | cons c cs ih =>
    obtain ⟨a, b⟩ := c
    have ha : lo ≤ a := h (a, b) (by simp)
    have : a ≠ x := by omega
    simp only [cellAt, if_neg this]
    exact ih (fun c hc => h c (by simp [hc]))

theorem cellsFrom_set {lo x : Nat} {v : Byte} {cs : List Cell} (h : cellsFrom lo cs) (hx : lo ≤ x) :
    cellsFrom lo (cellSet cs x v) := by
  induction cs with
  | nil =>
    unfold cellSet
    split
    · simp [cellsFrom]
    · simp [cellsFrom, hx]
  | cons c cs ih =>
    obtain ⟨a, b⟩ := c
    have ha : lo ≤ a := h (a, b) (by simp)
    have ht : cellsFrom lo cs := fun c hc => h c (by simp [hc])
    unfold cellSet
    split
    · split
      · exact h
      · intro c hc
        rcases List.mem_cons.mp hc with rfl | hc
        · exact hx
        · exact h c hc
    · split
      · split
        · exact ht
        · intro c hc
          rcases List.mem_cons.mp hc with rfl | hc
          · exact hx
          · exact ht c hc
      · intro c hc
        rcases List.mem_cons.mp hc with rfl | hc
        · exact ha
        · exact ih ht c hc

/-- A write keeps the canonical form. -/
theorem cellsWf_set {x : Nat} {v : Byte} {cs : List Cell} (h : cellsWf cs = true) : cellsWf (cellSet cs x v) = true := by
  induction cs with
  | nil =>
    unfold cellSet
    split
    · rfl
    · exact cellsWf_cons.mpr ⟨‹_›, by simp [cellsFrom], rfl⟩
  | cons c cs ih =>
    obtain ⟨a, b⟩ := c
    have hc := cellsWf_cons.mp h
    unfold cellSet
    split
    · split
      · exact h
      · refine cellsWf_cons.mpr ⟨‹_›, ?_, h⟩
        intro c hm
        rcases List.mem_cons.mp hm with rfl | hm
        · simpa using ‹x < a›
        · have := hc.2.1 c hm
          omega
    · split
      · split
        · exact hc.2.2
        · subst_vars
          exact cellsWf_cons.mpr ⟨‹_›, hc.2.1, hc.2.2⟩
      · refine cellsWf_cons.mpr ⟨hc.1, cellsFrom_set hc.2.1 (by omega), ih hc.2.2⟩

theorem cellAt_set_self {x : Nat} {v : Byte} {cs : List Cell} (h : cellsWf cs = true) : cellAt (cellSet cs x v) x = v := by
  induction cs with
  | nil =>
    unfold cellSet
    split
    · simp [cellAt, *]
    · simp [cellAt]
  | cons c cs ih =>
    obtain ⟨a, b⟩ := c
    have hc := cellsWf_cons.mp h
    unfold cellSet
    split
    · split
      · have : a ≠ x := by omega
        simp only [cellAt, if_neg this]
        rw [cellAt_of_from hc.2.1 (by omega)]
        exact Eq.symm ‹v = 0›
      · simp [cellAt]
    · split
      · subst_vars
        split
        · rw [cellAt_of_from hc.2.1 (by omega)]
          exact Eq.symm ‹v = 0›
        · simp [cellAt]
      · have : a ≠ x := fun e => ‹¬ x = a› e.symm
        simp only [cellAt, if_neg this]
        exact ih hc.2.2

theorem cellAt_set_ne {x y : Nat} {v : Byte} {cs : List Cell} (h : y ≠ x) : cellAt (cellSet cs x v) y = cellAt cs y := by
  have hx : x ≠ y := h.symm
  induction cs with
  | nil =>
    unfold cellSet
    split <;> simp [cellAt, hx]
  | cons c cs ih =>
    obtain ⟨a, b⟩ := c
    unfold cellSet
    split
    · split
      · rfl
      · simp [cellAt, hx]
    · split
      · subst_vars
        split <;> simp [cellAt, hx]
      · simp only [cellAt, ih]

/-! ## Memories -/

theorem Memory.wf_iff {m : Memory} : m.wf = true ↔ cellsWf m.cells = true ∧ flagsWf m.flags = true := by
  simp [Memory.wf]

theorem Memory.wf_put {m : Memory} (h : m.wf = true) (a : Nat) (v : Byte) : (m.put a v).wf = true :=
  wf_iff.mpr ⟨cellsWf_set (wf_iff.mp h).1, (wf_iff.mp h).2⟩

theorem Memory.wf_putBytes {m : Memory} (h : m.wf = true) (a : Nat) (bs : List Byte) : (m.putBytes a bs).wf = true := by
  induction bs generalizing m a with
  | nil => exact h
  | cons b bs ih => exact ih (wf_put h a b) (a + 1)

/-- Every listed granule is at least `lo`. -/
def flagsFrom (lo : Nat) (t : Tab GranFlag) : Prop := ∀ c ∈ t, lo ≤ c.1

theorem flagsWf_cons {g : Nat} {f : GranFlag} {t : Tab GranFlag} :
    flagsWf ((g, f) :: t) = true ↔ f ≠ {} ∧ flagsFrom (g + 1) t ∧ flagsWf t = true := by
  induction t generalizing g f with
  | nil => simp [flagsWf, flagsFrom]
  | cons c t ih =>
    obtain ⟨g', f'⟩ := c
    simp only [flagsWf, Bool.and_eq_true, bne_iff_ne, ne_eq, decide_eq_true_eq]
    rw [ih]
    constructor
    · rintro ⟨⟨hf, hg⟩, hf', hr, hw⟩
      refine ⟨hf, ?_, hf', hr, hw⟩
      intro c hc
      rcases List.mem_cons.mp hc with rfl | hc
      · exact hg
      · have := hr c hc
        omega
    · rintro ⟨hf, hr, hf', hr', hw⟩
      exact ⟨⟨hf, hr (g', f') (by simp)⟩, hf', hr', hw⟩

theorem flagsFrom_tset {lo g : Nat} {f : GranFlag} {t : Tab GranFlag} (h : flagsFrom lo t) (hg : lo ≤ g) :
    flagsFrom lo (tset t g f) := by
  induction t with
  | nil => simp [tset, flagsFrom, hg]
  | cons c t ih =>
    obtain ⟨g', f'⟩ := c
    have h' : lo ≤ g' := h (g', f') (by simp)
    have ht : flagsFrom lo t := fun c hc => h c (by simp [hc])
    unfold tset
    split
    · exact fun c hc => (List.mem_cons.mp hc).elim (fun e => by rw [e]; exact hg) (fun m => h c m)
    · split
      · exact fun c hc => (List.mem_cons.mp hc).elim (fun e => by rw [e]; exact hg) (fun m => ht c m)
      · exact fun c hc => (List.mem_cons.mp hc).elim (fun e => by rw [e]; exact h') (fun m => ih ht c m)

theorem flagsWf_tset {g : Nat} {f : GranFlag} {t : Tab GranFlag} (h : flagsWf t = true) (hf : f ≠ {}) :
    flagsWf (tset t g f) = true := by
  induction t with
  | nil => simp [tset, flagsWf, hf]
  | cons c t ih =>
    obtain ⟨g', f'⟩ := c
    have hc := flagsWf_cons.mp h
    unfold tset
    split
    · refine flagsWf_cons.mpr ⟨hf, ?_, h⟩
      intro c hm
      rcases List.mem_cons.mp hm with rfl | hm
      · show g + 1 ≤ g'
        omega
      · have := hc.2.1 c hm
        omega
    · split
      · rename_i _ he
        subst he
        exact flagsWf_cons.mpr ⟨hf, hc.2.1, hc.2.2⟩
      · exact flagsWf_cons.mpr ⟨hc.1, flagsFrom_tset hc.2.1 (by omega), ih hc.2.2⟩

theorem flagsWf_filter {t : Tab GranFlag} (p : Nat × GranFlag → Bool) (h : flagsWf t = true) : flagsWf (t.filter p) = true := by
  induction t with
  | nil => rfl
  | cons c t ih =>
    obtain ⟨g, f⟩ := c
    have hc := flagsWf_cons.mp h
    rw [List.filter_cons]
    split
    · exact flagsWf_cons.mpr ⟨hc.1, fun c hm => hc.2.1 c (List.mem_of_mem_filter hm), ih hc.2.2⟩
    · exact ih hc.2.2

theorem Memory.wf_setFlag {m : Memory} (h : m.wf = true) (g : Nat) (f : GranFlag) : (m.setFlag g f).wf = true := by
  refine wf_iff.mpr ⟨(wf_iff.mp h).1, ?_⟩
  unfold setFlag
  split
  · exact flagsWf_filter _ (wf_iff.mp h).2
  · exact flagsWf_tset (wf_iff.mp h).2 ‹_›

theorem cellsFrom_filter {lo : Nat} {cs : List Cell} (p : Cell → Bool) (h : cellsFrom lo cs) : cellsFrom lo (cs.filter p) :=
  fun c hc => h c (List.mem_of_mem_filter hc)

theorem cellsWf_filter {cs : List Cell} (p : Cell → Bool) (h : cellsWf cs = true) : cellsWf (cs.filter p) = true := by
  induction cs with
  | nil => rfl
  | cons c cs ih =>
    obtain ⟨a, b⟩ := c
    have hc := cellsWf_cons.mp h
    rw [List.filter_cons]
    split
    · exact cellsWf_cons.mpr ⟨hc.1, cellsFrom_filter p hc.2.1, ih hc.2.2⟩
    · exact ih hc.2.2

theorem Memory.wf_clear {m : Memory} (h : m.wf = true) (lo hi : Nat) : (m.clear lo hi).wf = true :=
  wf_iff.mpr ⟨cellsWf_filter _ (wf_iff.mp h).1, flagsWf_filter _ (wf_iff.mp h).2⟩

theorem Memory.byte_put_self {m : Memory} (h : m.wf = true) (a : Nat) (v : Byte) : (m.put a v).byte a = v :=
  cellAt_set_self (wf_iff.mp h).1

theorem Memory.byte_put_ne (m : Memory) {a b : Nat} (v : Byte) (h : b ≠ a) : (m.put a v).byte b = m.byte b := cellAt_set_ne h

theorem Memory.byte_putBytes_out (m : Memory) {a b : Nat} (bs : List Byte) (h : b < a ∨ a + bs.length ≤ b) :
    (m.putBytes a bs).byte b = m.byte b := by
  induction bs generalizing m a with
  | nil => rfl
  | cons v bs ih =>
    simp only [List.length_cons] at h
    have := ih (m.put a v) (a := a + 1) (by omega)
    rw [putBytes, this, byte_put_ne _ _ (by omega)]

theorem Memory.byte_putBytes_in {m : Memory} (h : m.wf = true) (a i : Nat) (bs : List Byte) (hi : i < bs.length) :
    (m.putBytes a bs).byte (a + i) = bs.getD i 0 := by
  induction bs generalizing m a i with
  | nil => simp at hi
  | cons v bs ih =>
    rw [putBytes]
    cases i with
    | zero =>
      rw [byte_putBytes_out _ _ (by omega), Nat.add_zero, byte_put_self h]
      rfl
    | succ i =>
      have hi' : i < bs.length := by simpa using hi
      have := ih (wf_put h a v) (a + 1) i hi'
      rw [show a + (i + 1) = a + 1 + i by omega, this]
      rfl

@[simp] theorem Memory.byte_setFlag (m : Memory) (g a : Nat) (f : GranFlag) : (m.setFlag g f).byte a = m.byte a := rfl

theorem cellAt_filter_out {cs : List Cell} {lo hi x : Nat} (h : x < lo ∨ hi ≤ x) :
    cellAt (cs.filter (fun c => !(lo ≤ c.1 && c.1 < hi))) x = cellAt cs x := by
  induction cs with
  | nil => rfl
  | cons c cs ih =>
    obtain ⟨a, b⟩ := c
    rw [List.filter_cons]
    split
    · simp only [cellAt, ih]
    · rename_i hn
      have : a ≠ x := by
        intro e
        subst e
        simp at hn
        omega
      simp only [cellAt, if_neg this, ih]

theorem Memory.byte_clear_out (m : Memory) {lo hi a : Nat} (h : a < lo ∨ hi ≤ a) : (m.clear lo hi).byte a = m.byte a :=
  cellAt_filter_out h

theorem cellAt_filter_in {cs : List Cell} {lo hi x : Nat} (h : lo ≤ x ∧ x < hi) :
    cellAt (cs.filter (fun c => !(lo ≤ c.1 && c.1 < hi))) x = 0 := by
  induction cs with
  | nil => rfl
  | cons c cs ih =>
    obtain ⟨a, b⟩ := c
    rw [List.filter_cons]
    split
    · rename_i hn
      have : a ≠ x := by
        intro e
        subst e
        simp [h.1, h.2] at hn
      simp only [cellAt, if_neg this, ih]
    · exact ih

theorem Memory.byte_clear_in (m : Memory) {lo hi a : Nat} (h : lo ≤ a ∧ a < hi) : (m.clear lo hi).byte a = 0 :=
  cellAt_filter_in h

/-- Every memory of the machine after reset is in canonical form. -/
theorem reset_memories_wf : State.reset.dev.stk.wf = true ∧ State.reset.dev.tram.wf = true ∧ State.reset.dev.sram.wf = true
    ∧ State.reset.dev.slots.wf = true ∧ State.reset.dev.host.wf = true := by decide

end Sys2Proof.Machine
end

