-- ==== Sys2Proof/Laws/State.lean ====
section
/-! SUPPORT. What each named update of the state does to each field: one lemma per field per update, true by rfl. A later
proof rewrites with these and never unfolds a record update. -/

namespace Sys2Proof.Machine

/-! ## The state -/

@[simp] theorem State.onDev_dev (s : State) (f : Dev → Dev) : (s.onDev f).dev = f s.dev := rfl
@[simp] theorem State.onDev_pending (s : State) (f : Dev → Dev) : (s.onDev f).pending = s.pending := rfl
@[simp] theorem State.onDev_pads (s : State) (f : Dev → Dev) : (s.onDev f).pads = s.pads := rfl
@[simp] theorem State.onDev_ident (s : State) (f : Dev → Dev) : (s.onDev f).ident = s.ident := rfl

/-! ## The device -/

@[simp] theorem Dev.setReg_time (d : Dev) (a : Nat) (v : W64) : (d.setReg a v).time = d.time := rfl
@[simp] theorem Dev.setReg_regs (d : Dev) (a : Nat) (v : W64) : (d.setReg a v).regs = tset d.regs a v := rfl
@[simp] theorem Dev.setReg_latched (d : Dev) (a : Nat) (v : W64) : (d.setReg a v).latched = d.latched := rfl
@[simp] theorem Dev.setReg_heldLow (d : Dev) (a : Nat) (v : W64) : (d.setReg a v).heldLow = d.heldLow := rfl
@[simp] theorem Dev.setReg_stk (d : Dev) (a : Nat) (v : W64) : (d.setReg a v).stk = d.stk := rfl
@[simp] theorem Dev.setReg_tram (d : Dev) (a : Nat) (v : W64) : (d.setReg a v).tram = d.tram := rfl
@[simp] theorem Dev.setReg_sram (d : Dev) (a : Nat) (v : W64) : (d.setReg a v).sram = d.sram := rfl
@[simp] theorem Dev.setReg_slots (d : Dev) (a : Nat) (v : W64) : (d.setReg a v).slots = d.slots := rfl
@[simp] theorem Dev.setReg_host (d : Dev) (a : Nat) (v : W64) : (d.setReg a v).host = d.host := rfl
@[simp] theorem Dev.setReg_cq (d : Dev) (a : Nat) (v : W64) : (d.setReg a v).cq = d.cq := rfl
@[simp] theorem Dev.setReg_tiles (d : Dev) (a : Nat) (v : W64) : (d.setReg a v).tiles = d.tiles := rfl
@[simp] theorem Dev.setReg_henOps (d : Dev) (a : Nat) (v : W64) : (d.setReg a v).henOps = d.henOps := rfl
@[simp] theorem Dev.setReg_nextHenOp (d : Dev) (a : Nat) (v : W64) : (d.setReg a v).nextHenOp = d.nextHenOp := rfl
@[simp] theorem Dev.setReg_cs (d : Dev) (a : Nat) (v : W64) : (d.setReg a v).cs = d.cs := rfl
@[simp] theorem Dev.setReg_sect (d : Dev) (a : Nat) (v : W64) : (d.setReg a v).sect = d.sect := rfl
@[simp] theorem Dev.setReg_parts (d : Dev) (a : Nat) (v : W64) : (d.setReg a v).parts = d.parts := rfl
@[simp] theorem Dev.setReg_layoutOn (d : Dev) (a : Nat) (v : W64) : (d.setReg a v).layoutOn = d.layoutOn := rfl
@[simp] theorem Dev.setReg_srv (d : Dev) (a : Nat) (v : W64) : (d.setReg a v).srv = d.srv := rfl
@[simp] theorem Dev.setReg_fab (d : Dev) (a : Nat) (v : W64) : (d.setReg a v).fab = d.fab := rfl
@[simp] theorem Dev.setReg_pwr (d : Dev) (a : Nat) (v : W64) : (d.setReg a v).pwr = d.pwr := rfl
@[simp] theorem Dev.setReg_thm (d : Dev) (a : Nat) (v : W64) : (d.setReg a v).thm = d.thm := rfl
@[simp] theorem Dev.setReg_ras (d : Dev) (a : Nat) (v : W64) : (d.setReg a v).ras = d.ras := rfl
@[simp] theorem Dev.setReg_gan (d : Dev) (a : Nat) (v : W64) : (d.setReg a v).gan = d.gan := rfl
@[simp] theorem Dev.setReg_hif (d : Dev) (a : Nat) (v : W64) : (d.setReg a v).hif = d.hif := rfl
@[simp] theorem Dev.setReg_upsets (d : Dev) (a : Nat) (v : W64) : (d.setReg a v).upsets = d.upsets := rfl
@[simp] theorem Dev.setReg_free (d : Dev) (a : Nat) (v : W64) : (d.setReg a v).free = d.free := rfl

@[simp] theorem Dev.modReg_time (d : Dev) (a : Nat) (f : W64 → W64) : (d.modReg a f).time = d.time := rfl
@[simp] theorem Dev.modReg_regs (d : Dev) (a : Nat) (f : W64 → W64) : (d.modReg a f).regs = tset d.regs a (f (d.reg a)) := rfl
@[simp] theorem Dev.modReg_latched (d : Dev) (a : Nat) (f : W64 → W64) : (d.modReg a f).latched = d.latched := rfl
@[simp] theorem Dev.modReg_heldLow (d : Dev) (a : Nat) (f : W64 → W64) : (d.modReg a f).heldLow = d.heldLow := rfl
@[simp] theorem Dev.modReg_stk (d : Dev) (a : Nat) (f : W64 → W64) : (d.modReg a f).stk = d.stk := rfl
@[simp] theorem Dev.modReg_tram (d : Dev) (a : Nat) (f : W64 → W64) : (d.modReg a f).tram = d.tram := rfl
@[simp] theorem Dev.modReg_sram (d : Dev) (a : Nat) (f : W64 → W64) : (d.modReg a f).sram = d.sram := rfl
@[simp] theorem Dev.modReg_slots (d : Dev) (a : Nat) (f : W64 → W64) : (d.modReg a f).slots = d.slots := rfl
@[simp] theorem Dev.modReg_host (d : Dev) (a : Nat) (f : W64 → W64) : (d.modReg a f).host = d.host := rfl
@[simp] theorem Dev.modReg_cq (d : Dev) (a : Nat) (f : W64 → W64) : (d.modReg a f).cq = d.cq := rfl
@[simp] theorem Dev.modReg_tiles (d : Dev) (a : Nat) (f : W64 → W64) : (d.modReg a f).tiles = d.tiles := rfl
@[simp] theorem Dev.modReg_henOps (d : Dev) (a : Nat) (f : W64 → W64) : (d.modReg a f).henOps = d.henOps := rfl
@[simp] theorem Dev.modReg_nextHenOp (d : Dev) (a : Nat) (f : W64 → W64) : (d.modReg a f).nextHenOp = d.nextHenOp := rfl
@[simp] theorem Dev.modReg_cs (d : Dev) (a : Nat) (f : W64 → W64) : (d.modReg a f).cs = d.cs := rfl
@[simp] theorem Dev.modReg_sect (d : Dev) (a : Nat) (f : W64 → W64) : (d.modReg a f).sect = d.sect := rfl
@[simp] theorem Dev.modReg_parts (d : Dev) (a : Nat) (f : W64 → W64) : (d.modReg a f).parts = d.parts := rfl
@[simp] theorem Dev.modReg_layoutOn (d : Dev) (a : Nat) (f : W64 → W64) : (d.modReg a f).layoutOn = d.layoutOn := rfl
@[simp] theorem Dev.modReg_srv (d : Dev) (a : Nat) (f : W64 → W64) : (d.modReg a f).srv = d.srv := rfl
@[simp] theorem Dev.modReg_fab (d : Dev) (a : Nat) (f : W64 → W64) : (d.modReg a f).fab = d.fab := rfl
@[simp] theorem Dev.modReg_pwr (d : Dev) (a : Nat) (f : W64 → W64) : (d.modReg a f).pwr = d.pwr := rfl
@[simp] theorem Dev.modReg_thm (d : Dev) (a : Nat) (f : W64 → W64) : (d.modReg a f).thm = d.thm := rfl
@[simp] theorem Dev.modReg_ras (d : Dev) (a : Nat) (f : W64 → W64) : (d.modReg a f).ras = d.ras := rfl
@[simp] theorem Dev.modReg_gan (d : Dev) (a : Nat) (f : W64 → W64) : (d.modReg a f).gan = d.gan := rfl
@[simp] theorem Dev.modReg_hif (d : Dev) (a : Nat) (f : W64 → W64) : (d.modReg a f).hif = d.hif := rfl
@[simp] theorem Dev.modReg_upsets (d : Dev) (a : Nat) (f : W64 → W64) : (d.modReg a f).upsets = d.upsets := rfl
@[simp] theorem Dev.modReg_free (d : Dev) (a : Nat) (f : W64 → W64) : (d.modReg a f).free = d.free := rfl

@[simp] theorem Dev.putF_time (d : Dev) (a : Nat) (f : Fld) (x : Nat) : (d.putF a f x).time = d.time := rfl
@[simp] theorem Dev.putF_regs (d : Dev) (a : Nat) (f : Fld) (x : Nat) : (d.putF a f x).regs = tset d.regs a (putFld (d.reg a) f x) := rfl
@[simp] theorem Dev.putF_latched (d : Dev) (a : Nat) (f : Fld) (x : Nat) : (d.putF a f x).latched = d.latched := rfl
@[simp] theorem Dev.putF_heldLow (d : Dev) (a : Nat) (f : Fld) (x : Nat) : (d.putF a f x).heldLow = d.heldLow := rfl
@[simp] theorem Dev.putF_stk (d : Dev) (a : Nat) (f : Fld) (x : Nat) : (d.putF a f x).stk = d.stk := rfl
@[simp] theorem Dev.putF_tram (d : Dev) (a : Nat) (f : Fld) (x : Nat) : (d.putF a f x).tram = d.tram := rfl
@[simp] theorem Dev.putF_sram (d : Dev) (a : Nat) (f : Fld) (x : Nat) : (d.putF a f x).sram = d.sram := rfl
@[simp] theorem Dev.putF_slots (d : Dev) (a : Nat) (f : Fld) (x : Nat) : (d.putF a f x).slots = d.slots := rfl
@[simp] theorem Dev.putF_host (d : Dev) (a : Nat) (f : Fld) (x : Nat) : (d.putF a f x).host = d.host := rfl
@[simp] theorem Dev.putF_cq (d : Dev) (a : Nat) (f : Fld) (x : Nat) : (d.putF a f x).cq = d.cq := rfl
@[simp] theorem Dev.putF_tiles (d : Dev) (a : Nat) (f : Fld) (x : Nat) : (d.putF a f x).tiles = d.tiles := rfl
@[simp] theorem Dev.putF_henOps (d : Dev) (a : Nat) (f : Fld) (x : Nat) : (d.putF a f x).henOps = d.henOps := rfl
@[simp] theorem Dev.putF_nextHenOp (d : Dev) (a : Nat) (f : Fld) (x : Nat) : (d.putF a f x).nextHenOp = d.nextHenOp := rfl
@[simp] theorem Dev.putF_cs (d : Dev) (a : Nat) (f : Fld) (x : Nat) : (d.putF a f x).cs = d.cs := rfl
@[simp] theorem Dev.putF_sect (d : Dev) (a : Nat) (f : Fld) (x : Nat) : (d.putF a f x).sect = d.sect := rfl
@[simp] theorem Dev.putF_parts (d : Dev) (a : Nat) (f : Fld) (x : Nat) : (d.putF a f x).parts = d.parts := rfl
@[simp] theorem Dev.putF_layoutOn (d : Dev) (a : Nat) (f : Fld) (x : Nat) : (d.putF a f x).layoutOn = d.layoutOn := rfl
@[simp] theorem Dev.putF_srv (d : Dev) (a : Nat) (f : Fld) (x : Nat) : (d.putF a f x).srv = d.srv := rfl
@[simp] theorem Dev.putF_fab (d : Dev) (a : Nat) (f : Fld) (x : Nat) : (d.putF a f x).fab = d.fab := rfl
@[simp] theorem Dev.putF_pwr (d : Dev) (a : Nat) (f : Fld) (x : Nat) : (d.putF a f x).pwr = d.pwr := rfl
@[simp] theorem Dev.putF_thm (d : Dev) (a : Nat) (f : Fld) (x : Nat) : (d.putF a f x).thm = d.thm := rfl
@[simp] theorem Dev.putF_ras (d : Dev) (a : Nat) (f : Fld) (x : Nat) : (d.putF a f x).ras = d.ras := rfl
@[simp] theorem Dev.putF_gan (d : Dev) (a : Nat) (f : Fld) (x : Nat) : (d.putF a f x).gan = d.gan := rfl
@[simp] theorem Dev.putF_hif (d : Dev) (a : Nat) (f : Fld) (x : Nat) : (d.putF a f x).hif = d.hif := rfl
@[simp] theorem Dev.putF_upsets (d : Dev) (a : Nat) (f : Fld) (x : Nat) : (d.putF a f x).upsets = d.upsets := rfl
@[simp] theorem Dev.putF_free (d : Dev) (a : Nat) (f : Fld) (x : Nat) : (d.putF a f x).free = d.free := rfl

@[simp] theorem Dev.addF_time (d : Dev) (a : Nat) (f : Fld) (n : Nat) : (d.addF a f n).time = d.time := rfl
@[simp] theorem Dev.addF_regs (d : Dev) (a : Nat) (f : Fld) (n : Nat) : (d.addF a f n).regs = tset d.regs a (putFld (d.reg a) f (satAdd f.len (d.getF a f) n)) := rfl
@[simp] theorem Dev.addF_latched (d : Dev) (a : Nat) (f : Fld) (n : Nat) : (d.addF a f n).latched = d.latched := rfl
@[simp] theorem Dev.addF_heldLow (d : Dev) (a : Nat) (f : Fld) (n : Nat) : (d.addF a f n).heldLow = d.heldLow := rfl
@[simp] theorem Dev.addF_stk (d : Dev) (a : Nat) (f : Fld) (n : Nat) : (d.addF a f n).stk = d.stk := rfl
@[simp] theorem Dev.addF_tram (d : Dev) (a : Nat) (f : Fld) (n : Nat) : (d.addF a f n).tram = d.tram := rfl
@[simp] theorem Dev.addF_sram (d : Dev) (a : Nat) (f : Fld) (n : Nat) : (d.addF a f n).sram = d.sram := rfl
@[simp] theorem Dev.addF_slots (d : Dev) (a : Nat) (f : Fld) (n : Nat) : (d.addF a f n).slots = d.slots := rfl
@[simp] theorem Dev.addF_host (d : Dev) (a : Nat) (f : Fld) (n : Nat) : (d.addF a f n).host = d.host := rfl
@[simp] theorem Dev.addF_cq (d : Dev) (a : Nat) (f : Fld) (n : Nat) : (d.addF a f n).cq = d.cq := rfl
@[simp] theorem Dev.addF_tiles (d : Dev) (a : Nat) (f : Fld) (n : Nat) : (d.addF a f n).tiles = d.tiles := rfl
@[simp] theorem Dev.addF_henOps (d : Dev) (a : Nat) (f : Fld) (n : Nat) : (d.addF a f n).henOps = d.henOps := rfl
@[simp] theorem Dev.addF_nextHenOp (d : Dev) (a : Nat) (f : Fld) (n : Nat) : (d.addF a f n).nextHenOp = d.nextHenOp := rfl
@[simp] theorem Dev.addF_cs (d : Dev) (a : Nat) (f : Fld) (n : Nat) : (d.addF a f n).cs = d.cs := rfl
@[simp] theorem Dev.addF_sect (d : Dev) (a : Nat) (f : Fld) (n : Nat) : (d.addF a f n).sect = d.sect := rfl
@[simp] theorem Dev.addF_parts (d : Dev) (a : Nat) (f : Fld) (n : Nat) : (d.addF a f n).parts = d.parts := rfl
@[simp] theorem Dev.addF_layoutOn (d : Dev) (a : Nat) (f : Fld) (n : Nat) : (d.addF a f n).layoutOn = d.layoutOn := rfl
@[simp] theorem Dev.addF_srv (d : Dev) (a : Nat) (f : Fld) (n : Nat) : (d.addF a f n).srv = d.srv := rfl
@[simp] theorem Dev.addF_fab (d : Dev) (a : Nat) (f : Fld) (n : Nat) : (d.addF a f n).fab = d.fab := rfl
@[simp] theorem Dev.addF_pwr (d : Dev) (a : Nat) (f : Fld) (n : Nat) : (d.addF a f n).pwr = d.pwr := rfl
@[simp] theorem Dev.addF_thm (d : Dev) (a : Nat) (f : Fld) (n : Nat) : (d.addF a f n).thm = d.thm := rfl
@[simp] theorem Dev.addF_ras (d : Dev) (a : Nat) (f : Fld) (n : Nat) : (d.addF a f n).ras = d.ras := rfl
@[simp] theorem Dev.addF_gan (d : Dev) (a : Nat) (f : Fld) (n : Nat) : (d.addF a f n).gan = d.gan := rfl
@[simp] theorem Dev.addF_hif (d : Dev) (a : Nat) (f : Fld) (n : Nat) : (d.addF a f n).hif = d.hif := rfl
@[simp] theorem Dev.addF_upsets (d : Dev) (a : Nat) (f : Fld) (n : Nat) : (d.addF a f n).upsets = d.upsets := rfl
@[simp] theorem Dev.addF_free (d : Dev) (a : Nat) (f : Fld) (n : Nat) : (d.addF a f n).free = d.free := rfl

@[simp] theorem Dev.rollF_time (d : Dev) (a : Nat) (f : Fld) (n : Nat) : (d.rollF a f n).time = d.time := rfl
@[simp] theorem Dev.rollF_regs (d : Dev) (a : Nat) (f : Fld) (n : Nat) : (d.rollF a f n).regs = tset d.regs a (putFld (d.reg a) f (d.getF a f + n)) := rfl
@[simp] theorem Dev.rollF_latched (d : Dev) (a : Nat) (f : Fld) (n : Nat) : (d.rollF a f n).latched = d.latched := rfl
@[simp] theorem Dev.rollF_heldLow (d : Dev) (a : Nat) (f : Fld) (n : Nat) : (d.rollF a f n).heldLow = d.heldLow := rfl
@[simp] theorem Dev.rollF_stk (d : Dev) (a : Nat) (f : Fld) (n : Nat) : (d.rollF a f n).stk = d.stk := rfl
@[simp] theorem Dev.rollF_tram (d : Dev) (a : Nat) (f : Fld) (n : Nat) : (d.rollF a f n).tram = d.tram := rfl
@[simp] theorem Dev.rollF_sram (d : Dev) (a : Nat) (f : Fld) (n : Nat) : (d.rollF a f n).sram = d.sram := rfl
@[simp] theorem Dev.rollF_slots (d : Dev) (a : Nat) (f : Fld) (n : Nat) : (d.rollF a f n).slots = d.slots := rfl
@[simp] theorem Dev.rollF_host (d : Dev) (a : Nat) (f : Fld) (n : Nat) : (d.rollF a f n).host = d.host := rfl
@[simp] theorem Dev.rollF_cq (d : Dev) (a : Nat) (f : Fld) (n : Nat) : (d.rollF a f n).cq = d.cq := rfl
@[simp] theorem Dev.rollF_tiles (d : Dev) (a : Nat) (f : Fld) (n : Nat) : (d.rollF a f n).tiles = d.tiles := rfl
@[simp] theorem Dev.rollF_henOps (d : Dev) (a : Nat) (f : Fld) (n : Nat) : (d.rollF a f n).henOps = d.henOps := rfl
@[simp] theorem Dev.rollF_nextHenOp (d : Dev) (a : Nat) (f : Fld) (n : Nat) : (d.rollF a f n).nextHenOp = d.nextHenOp := rfl
@[simp] theorem Dev.rollF_cs (d : Dev) (a : Nat) (f : Fld) (n : Nat) : (d.rollF a f n).cs = d.cs := rfl
@[simp] theorem Dev.rollF_sect (d : Dev) (a : Nat) (f : Fld) (n : Nat) : (d.rollF a f n).sect = d.sect := rfl
@[simp] theorem Dev.rollF_parts (d : Dev) (a : Nat) (f : Fld) (n : Nat) : (d.rollF a f n).parts = d.parts := rfl
@[simp] theorem Dev.rollF_layoutOn (d : Dev) (a : Nat) (f : Fld) (n : Nat) : (d.rollF a f n).layoutOn = d.layoutOn := rfl
@[simp] theorem Dev.rollF_srv (d : Dev) (a : Nat) (f : Fld) (n : Nat) : (d.rollF a f n).srv = d.srv := rfl
@[simp] theorem Dev.rollF_fab (d : Dev) (a : Nat) (f : Fld) (n : Nat) : (d.rollF a f n).fab = d.fab := rfl
@[simp] theorem Dev.rollF_pwr (d : Dev) (a : Nat) (f : Fld) (n : Nat) : (d.rollF a f n).pwr = d.pwr := rfl
@[simp] theorem Dev.rollF_thm (d : Dev) (a : Nat) (f : Fld) (n : Nat) : (d.rollF a f n).thm = d.thm := rfl
@[simp] theorem Dev.rollF_ras (d : Dev) (a : Nat) (f : Fld) (n : Nat) : (d.rollF a f n).ras = d.ras := rfl
@[simp] theorem Dev.rollF_gan (d : Dev) (a : Nat) (f : Fld) (n : Nat) : (d.rollF a f n).gan = d.gan := rfl
@[simp] theorem Dev.rollF_hif (d : Dev) (a : Nat) (f : Fld) (n : Nat) : (d.rollF a f n).hif = d.hif := rfl
@[simp] theorem Dev.rollF_upsets (d : Dev) (a : Nat) (f : Fld) (n : Nat) : (d.rollF a f n).upsets = d.upsets := rfl
@[simp] theorem Dev.rollF_free (d : Dev) (a : Nat) (f : Fld) (n : Nat) : (d.rollF a f n).free = d.free := rfl

@[simp] theorem Dev.setWaiting_time (d : Dev) (q : Nat) (rs : List Rec) : (d.setWaiting q rs).time = d.time := rfl
@[simp] theorem Dev.setWaiting_regs (d : Dev) (q : Nat) (rs : List Rec) : (d.setWaiting q rs).regs = d.regs := rfl
@[simp] theorem Dev.setWaiting_latched (d : Dev) (q : Nat) (rs : List Rec) : (d.setWaiting q rs).latched = d.latched := rfl
@[simp] theorem Dev.setWaiting_heldLow (d : Dev) (q : Nat) (rs : List Rec) : (d.setWaiting q rs).heldLow = d.heldLow := rfl
@[simp] theorem Dev.setWaiting_stk (d : Dev) (q : Nat) (rs : List Rec) : (d.setWaiting q rs).stk = d.stk := rfl
@[simp] theorem Dev.setWaiting_tram (d : Dev) (q : Nat) (rs : List Rec) : (d.setWaiting q rs).tram = d.tram := rfl
@[simp] theorem Dev.setWaiting_sram (d : Dev) (q : Nat) (rs : List Rec) : (d.setWaiting q rs).sram = d.sram := rfl
@[simp] theorem Dev.setWaiting_slots (d : Dev) (q : Nat) (rs : List Rec) : (d.setWaiting q rs).slots = d.slots := rfl
@[simp] theorem Dev.setWaiting_host (d : Dev) (q : Nat) (rs : List Rec) : (d.setWaiting q rs).host = d.host := rfl
@[simp] theorem Dev.setWaiting_cq (d : Dev) (q : Nat) (rs : List Rec) : (d.setWaiting q rs).cq = { d.cq with storage := tset d.cq.storage q rs } := rfl
@[simp] theorem Dev.setWaiting_tiles (d : Dev) (q : Nat) (rs : List Rec) : (d.setWaiting q rs).tiles = d.tiles := rfl
@[simp] theorem Dev.setWaiting_henOps (d : Dev) (q : Nat) (rs : List Rec) : (d.setWaiting q rs).henOps = d.henOps := rfl
@[simp] theorem Dev.setWaiting_nextHenOp (d : Dev) (q : Nat) (rs : List Rec) : (d.setWaiting q rs).nextHenOp = d.nextHenOp := rfl
@[simp] theorem Dev.setWaiting_cs (d : Dev) (q : Nat) (rs : List Rec) : (d.setWaiting q rs).cs = d.cs := rfl
@[simp] theorem Dev.setWaiting_sect (d : Dev) (q : Nat) (rs : List Rec) : (d.setWaiting q rs).sect = d.sect := rfl
@[simp] theorem Dev.setWaiting_parts (d : Dev) (q : Nat) (rs : List Rec) : (d.setWaiting q rs).parts = d.parts := rfl
@[simp] theorem Dev.setWaiting_layoutOn (d : Dev) (q : Nat) (rs : List Rec) : (d.setWaiting q rs).layoutOn = d.layoutOn := rfl
@[simp] theorem Dev.setWaiting_srv (d : Dev) (q : Nat) (rs : List Rec) : (d.setWaiting q rs).srv = d.srv := rfl
@[simp] theorem Dev.setWaiting_fab (d : Dev) (q : Nat) (rs : List Rec) : (d.setWaiting q rs).fab = d.fab := rfl
@[simp] theorem Dev.setWaiting_pwr (d : Dev) (q : Nat) (rs : List Rec) : (d.setWaiting q rs).pwr = d.pwr := rfl
@[simp] theorem Dev.setWaiting_thm (d : Dev) (q : Nat) (rs : List Rec) : (d.setWaiting q rs).thm = d.thm := rfl
@[simp] theorem Dev.setWaiting_ras (d : Dev) (q : Nat) (rs : List Rec) : (d.setWaiting q rs).ras = d.ras := rfl
@[simp] theorem Dev.setWaiting_gan (d : Dev) (q : Nat) (rs : List Rec) : (d.setWaiting q rs).gan = d.gan := rfl
@[simp] theorem Dev.setWaiting_hif (d : Dev) (q : Nat) (rs : List Rec) : (d.setWaiting q rs).hif = d.hif := rfl
@[simp] theorem Dev.setWaiting_upsets (d : Dev) (q : Nat) (rs : List Rec) : (d.setWaiting q rs).upsets = d.upsets := rfl
@[simp] theorem Dev.setWaiting_free (d : Dev) (q : Nat) (rs : List Rec) : (d.setWaiting q rs).free = d.free := rfl

@[simp] theorem Dev.modCmd_time (d : Dev) (c : Nat) (f : Cmd → Cmd) : (d.modCmd c f).time = d.time := rfl
@[simp] theorem Dev.modCmd_regs (d : Dev) (c : Nat) (f : Cmd → Cmd) : (d.modCmd c f).regs = d.regs := rfl
@[simp] theorem Dev.modCmd_latched (d : Dev) (c : Nat) (f : Cmd → Cmd) : (d.modCmd c f).latched = d.latched := rfl
@[simp] theorem Dev.modCmd_heldLow (d : Dev) (c : Nat) (f : Cmd → Cmd) : (d.modCmd c f).heldLow = d.heldLow := rfl
@[simp] theorem Dev.modCmd_stk (d : Dev) (c : Nat) (f : Cmd → Cmd) : (d.modCmd c f).stk = d.stk := rfl
@[simp] theorem Dev.modCmd_tram (d : Dev) (c : Nat) (f : Cmd → Cmd) : (d.modCmd c f).tram = d.tram := rfl
@[simp] theorem Dev.modCmd_sram (d : Dev) (c : Nat) (f : Cmd → Cmd) : (d.modCmd c f).sram = d.sram := rfl
@[simp] theorem Dev.modCmd_slots (d : Dev) (c : Nat) (f : Cmd → Cmd) : (d.modCmd c f).slots = d.slots := rfl
@[simp] theorem Dev.modCmd_host (d : Dev) (c : Nat) (f : Cmd → Cmd) : (d.modCmd c f).host = d.host := rfl
@[simp] theorem Dev.modCmd_cq (d : Dev) (c : Nat) (f : Cmd → Cmd) : (d.modCmd c f).cq = { d.cq with cmds := d.cq.cmds.map (fun x => if x.id = c then f x else x) } := rfl
@[simp] theorem Dev.modCmd_tiles (d : Dev) (c : Nat) (f : Cmd → Cmd) : (d.modCmd c f).tiles = d.tiles := rfl
@[simp] theorem Dev.modCmd_henOps (d : Dev) (c : Nat) (f : Cmd → Cmd) : (d.modCmd c f).henOps = d.henOps := rfl
@[simp] theorem Dev.modCmd_nextHenOp (d : Dev) (c : Nat) (f : Cmd → Cmd) : (d.modCmd c f).nextHenOp = d.nextHenOp := rfl
@[simp] theorem Dev.modCmd_cs (d : Dev) (c : Nat) (f : Cmd → Cmd) : (d.modCmd c f).cs = d.cs := rfl
@[simp] theorem Dev.modCmd_sect (d : Dev) (c : Nat) (f : Cmd → Cmd) : (d.modCmd c f).sect = d.sect := rfl
@[simp] theorem Dev.modCmd_parts (d : Dev) (c : Nat) (f : Cmd → Cmd) : (d.modCmd c f).parts = d.parts := rfl
@[simp] theorem Dev.modCmd_layoutOn (d : Dev) (c : Nat) (f : Cmd → Cmd) : (d.modCmd c f).layoutOn = d.layoutOn := rfl
@[simp] theorem Dev.modCmd_srv (d : Dev) (c : Nat) (f : Cmd → Cmd) : (d.modCmd c f).srv = d.srv := rfl
@[simp] theorem Dev.modCmd_fab (d : Dev) (c : Nat) (f : Cmd → Cmd) : (d.modCmd c f).fab = d.fab := rfl
@[simp] theorem Dev.modCmd_pwr (d : Dev) (c : Nat) (f : Cmd → Cmd) : (d.modCmd c f).pwr = d.pwr := rfl
@[simp] theorem Dev.modCmd_thm (d : Dev) (c : Nat) (f : Cmd → Cmd) : (d.modCmd c f).thm = d.thm := rfl
@[simp] theorem Dev.modCmd_ras (d : Dev) (c : Nat) (f : Cmd → Cmd) : (d.modCmd c f).ras = d.ras := rfl
@[simp] theorem Dev.modCmd_gan (d : Dev) (c : Nat) (f : Cmd → Cmd) : (d.modCmd c f).gan = d.gan := rfl
@[simp] theorem Dev.modCmd_hif (d : Dev) (c : Nat) (f : Cmd → Cmd) : (d.modCmd c f).hif = d.hif := rfl
@[simp] theorem Dev.modCmd_upsets (d : Dev) (c : Nat) (f : Cmd → Cmd) : (d.modCmd c f).upsets = d.upsets := rfl
@[simp] theorem Dev.modCmd_free (d : Dev) (c : Nat) (f : Cmd → Cmd) : (d.modCmd c f).free = d.free := rfl

@[simp] theorem Dev.dropCmd_time (d : Dev) (c : Nat) : (d.dropCmd c).time = d.time := rfl
@[simp] theorem Dev.dropCmd_regs (d : Dev) (c : Nat) : (d.dropCmd c).regs = d.regs := rfl
@[simp] theorem Dev.dropCmd_latched (d : Dev) (c : Nat) : (d.dropCmd c).latched = d.latched := rfl
@[simp] theorem Dev.dropCmd_heldLow (d : Dev) (c : Nat) : (d.dropCmd c).heldLow = d.heldLow := rfl
@[simp] theorem Dev.dropCmd_stk (d : Dev) (c : Nat) : (d.dropCmd c).stk = d.stk := rfl
@[simp] theorem Dev.dropCmd_tram (d : Dev) (c : Nat) : (d.dropCmd c).tram = d.tram := rfl
@[simp] theorem Dev.dropCmd_sram (d : Dev) (c : Nat) : (d.dropCmd c).sram = d.sram := rfl
@[simp] theorem Dev.dropCmd_slots (d : Dev) (c : Nat) : (d.dropCmd c).slots = d.slots := rfl
@[simp] theorem Dev.dropCmd_host (d : Dev) (c : Nat) : (d.dropCmd c).host = d.host := rfl
@[simp] theorem Dev.dropCmd_cq (d : Dev) (c : Nat) : (d.dropCmd c).cq = { d.cq with cmds := d.cq.cmds.filter (fun x => x.id != c) } := rfl
@[simp] theorem Dev.dropCmd_tiles (d : Dev) (c : Nat) : (d.dropCmd c).tiles = d.tiles := rfl
@[simp] theorem Dev.dropCmd_henOps (d : Dev) (c : Nat) : (d.dropCmd c).henOps = d.henOps := rfl
@[simp] theorem Dev.dropCmd_nextHenOp (d : Dev) (c : Nat) : (d.dropCmd c).nextHenOp = d.nextHenOp := rfl
@[simp] theorem Dev.dropCmd_cs (d : Dev) (c : Nat) : (d.dropCmd c).cs = d.cs := rfl
@[simp] theorem Dev.dropCmd_sect (d : Dev) (c : Nat) : (d.dropCmd c).sect = d.sect := rfl
@[simp] theorem Dev.dropCmd_parts (d : Dev) (c : Nat) : (d.dropCmd c).parts = d.parts := rfl
@[simp] theorem Dev.dropCmd_layoutOn (d : Dev) (c : Nat) : (d.dropCmd c).layoutOn = d.layoutOn := rfl
@[simp] theorem Dev.dropCmd_srv (d : Dev) (c : Nat) : (d.dropCmd c).srv = d.srv := rfl
@[simp] theorem Dev.dropCmd_fab (d : Dev) (c : Nat) : (d.dropCmd c).fab = d.fab := rfl
@[simp] theorem Dev.dropCmd_pwr (d : Dev) (c : Nat) : (d.dropCmd c).pwr = d.pwr := rfl
@[simp] theorem Dev.dropCmd_thm (d : Dev) (c : Nat) : (d.dropCmd c).thm = d.thm := rfl
@[simp] theorem Dev.dropCmd_ras (d : Dev) (c : Nat) : (d.dropCmd c).ras = d.ras := rfl
@[simp] theorem Dev.dropCmd_gan (d : Dev) (c : Nat) : (d.dropCmd c).gan = d.gan := rfl
@[simp] theorem Dev.dropCmd_hif (d : Dev) (c : Nat) : (d.dropCmd c).hif = d.hif := rfl
@[simp] theorem Dev.dropCmd_upsets (d : Dev) (c : Nat) : (d.dropCmd c).upsets = d.upsets := rfl
@[simp] theorem Dev.dropCmd_free (d : Dev) (c : Nat) : (d.dropCmd c).free = d.free := rfl

@[simp] theorem Dev.modTile_time (d : Dev) (t : Nat) (f : Tile → Tile) : (d.modTile t f).time = d.time := rfl
@[simp] theorem Dev.modTile_regs (d : Dev) (t : Nat) (f : Tile → Tile) : (d.modTile t f).regs = d.regs := rfl
@[simp] theorem Dev.modTile_latched (d : Dev) (t : Nat) (f : Tile → Tile) : (d.modTile t f).latched = d.latched := rfl
@[simp] theorem Dev.modTile_heldLow (d : Dev) (t : Nat) (f : Tile → Tile) : (d.modTile t f).heldLow = d.heldLow := rfl
@[simp] theorem Dev.modTile_stk (d : Dev) (t : Nat) (f : Tile → Tile) : (d.modTile t f).stk = d.stk := rfl
@[simp] theorem Dev.modTile_tram (d : Dev) (t : Nat) (f : Tile → Tile) : (d.modTile t f).tram = d.tram := rfl
@[simp] theorem Dev.modTile_sram (d : Dev) (t : Nat) (f : Tile → Tile) : (d.modTile t f).sram = d.sram := rfl
@[simp] theorem Dev.modTile_slots (d : Dev) (t : Nat) (f : Tile → Tile) : (d.modTile t f).slots = d.slots := rfl
@[simp] theorem Dev.modTile_host (d : Dev) (t : Nat) (f : Tile → Tile) : (d.modTile t f).host = d.host := rfl
@[simp] theorem Dev.modTile_cq (d : Dev) (t : Nat) (f : Tile → Tile) : (d.modTile t f).cq = d.cq := rfl
@[simp] theorem Dev.modTile_tiles (d : Dev) (t : Nat) (f : Tile → Tile) : (d.modTile t f).tiles = tmod d.tiles {} t f := rfl
@[simp] theorem Dev.modTile_henOps (d : Dev) (t : Nat) (f : Tile → Tile) : (d.modTile t f).henOps = d.henOps := rfl
@[simp] theorem Dev.modTile_nextHenOp (d : Dev) (t : Nat) (f : Tile → Tile) : (d.modTile t f).nextHenOp = d.nextHenOp := rfl
@[simp] theorem Dev.modTile_cs (d : Dev) (t : Nat) (f : Tile → Tile) : (d.modTile t f).cs = d.cs := rfl
@[simp] theorem Dev.modTile_sect (d : Dev) (t : Nat) (f : Tile → Tile) : (d.modTile t f).sect = d.sect := rfl
@[simp] theorem Dev.modTile_parts (d : Dev) (t : Nat) (f : Tile → Tile) : (d.modTile t f).parts = d.parts := rfl
@[simp] theorem Dev.modTile_layoutOn (d : Dev) (t : Nat) (f : Tile → Tile) : (d.modTile t f).layoutOn = d.layoutOn := rfl
@[simp] theorem Dev.modTile_srv (d : Dev) (t : Nat) (f : Tile → Tile) : (d.modTile t f).srv = d.srv := rfl
@[simp] theorem Dev.modTile_fab (d : Dev) (t : Nat) (f : Tile → Tile) : (d.modTile t f).fab = d.fab := rfl
@[simp] theorem Dev.modTile_pwr (d : Dev) (t : Nat) (f : Tile → Tile) : (d.modTile t f).pwr = d.pwr := rfl
@[simp] theorem Dev.modTile_thm (d : Dev) (t : Nat) (f : Tile → Tile) : (d.modTile t f).thm = d.thm := rfl
@[simp] theorem Dev.modTile_ras (d : Dev) (t : Nat) (f : Tile → Tile) : (d.modTile t f).ras = d.ras := rfl
@[simp] theorem Dev.modTile_gan (d : Dev) (t : Nat) (f : Tile → Tile) : (d.modTile t f).gan = d.gan := rfl
@[simp] theorem Dev.modTile_hif (d : Dev) (t : Nat) (f : Tile → Tile) : (d.modTile t f).hif = d.hif := rfl
@[simp] theorem Dev.modTile_upsets (d : Dev) (t : Nat) (f : Tile → Tile) : (d.modTile t f).upsets = d.upsets := rfl
@[simp] theorem Dev.modTile_free (d : Dev) (t : Nat) (f : Tile → Tile) : (d.modTile t f).free = d.free := rfl

@[simp] theorem Dev.modHenOp_time (d : Dev) (i : Nat) (f : HenOp → HenOp) : (d.modHenOp i f).time = d.time := rfl
@[simp] theorem Dev.modHenOp_regs (d : Dev) (i : Nat) (f : HenOp → HenOp) : (d.modHenOp i f).regs = d.regs := rfl
@[simp] theorem Dev.modHenOp_latched (d : Dev) (i : Nat) (f : HenOp → HenOp) : (d.modHenOp i f).latched = d.latched := rfl
@[simp] theorem Dev.modHenOp_heldLow (d : Dev) (i : Nat) (f : HenOp → HenOp) : (d.modHenOp i f).heldLow = d.heldLow := rfl
@[simp] theorem Dev.modHenOp_stk (d : Dev) (i : Nat) (f : HenOp → HenOp) : (d.modHenOp i f).stk = d.stk := rfl
@[simp] theorem Dev.modHenOp_tram (d : Dev) (i : Nat) (f : HenOp → HenOp) : (d.modHenOp i f).tram = d.tram := rfl
@[simp] theorem Dev.modHenOp_sram (d : Dev) (i : Nat) (f : HenOp → HenOp) : (d.modHenOp i f).sram = d.sram := rfl
@[simp] theorem Dev.modHenOp_slots (d : Dev) (i : Nat) (f : HenOp → HenOp) : (d.modHenOp i f).slots = d.slots := rfl
@[simp] theorem Dev.modHenOp_host (d : Dev) (i : Nat) (f : HenOp → HenOp) : (d.modHenOp i f).host = d.host := rfl
@[simp] theorem Dev.modHenOp_cq (d : Dev) (i : Nat) (f : HenOp → HenOp) : (d.modHenOp i f).cq = d.cq := rfl
@[simp] theorem Dev.modHenOp_tiles (d : Dev) (i : Nat) (f : HenOp → HenOp) : (d.modHenOp i f).tiles = d.tiles := rfl
@[simp] theorem Dev.modHenOp_nextHenOp (d : Dev) (i : Nat) (f : HenOp → HenOp) : (d.modHenOp i f).nextHenOp = d.nextHenOp := rfl
@[simp] theorem Dev.modHenOp_cs (d : Dev) (i : Nat) (f : HenOp → HenOp) : (d.modHenOp i f).cs = d.cs := rfl
@[simp] theorem Dev.modHenOp_sect (d : Dev) (i : Nat) (f : HenOp → HenOp) : (d.modHenOp i f).sect = d.sect := rfl
@[simp] theorem Dev.modHenOp_parts (d : Dev) (i : Nat) (f : HenOp → HenOp) : (d.modHenOp i f).parts = d.parts := rfl
@[simp] theorem Dev.modHenOp_layoutOn (d : Dev) (i : Nat) (f : HenOp → HenOp) : (d.modHenOp i f).layoutOn = d.layoutOn := rfl
@[simp] theorem Dev.modHenOp_srv (d : Dev) (i : Nat) (f : HenOp → HenOp) : (d.modHenOp i f).srv = d.srv := rfl
@[simp] theorem Dev.modHenOp_fab (d : Dev) (i : Nat) (f : HenOp → HenOp) : (d.modHenOp i f).fab = d.fab := rfl
@[simp] theorem Dev.modHenOp_pwr (d : Dev) (i : Nat) (f : HenOp → HenOp) : (d.modHenOp i f).pwr = d.pwr := rfl
@[simp] theorem Dev.modHenOp_thm (d : Dev) (i : Nat) (f : HenOp → HenOp) : (d.modHenOp i f).thm = d.thm := rfl
@[simp] theorem Dev.modHenOp_ras (d : Dev) (i : Nat) (f : HenOp → HenOp) : (d.modHenOp i f).ras = d.ras := rfl
@[simp] theorem Dev.modHenOp_gan (d : Dev) (i : Nat) (f : HenOp → HenOp) : (d.modHenOp i f).gan = d.gan := rfl
@[simp] theorem Dev.modHenOp_hif (d : Dev) (i : Nat) (f : HenOp → HenOp) : (d.modHenOp i f).hif = d.hif := rfl
@[simp] theorem Dev.modHenOp_upsets (d : Dev) (i : Nat) (f : HenOp → HenOp) : (d.modHenOp i f).upsets = d.upsets := rfl
@[simp] theorem Dev.modHenOp_free (d : Dev) (i : Nat) (f : HenOp → HenOp) : (d.modHenOp i f).free = d.free := rfl

@[simp] theorem Dev.modStack_time (d : Dev) (n : Nat) (f : Stack → Stack) : (d.modStack n f).time = d.time := rfl
@[simp] theorem Dev.modStack_regs (d : Dev) (n : Nat) (f : Stack → Stack) : (d.modStack n f).regs = d.regs := rfl
@[simp] theorem Dev.modStack_latched (d : Dev) (n : Nat) (f : Stack → Stack) : (d.modStack n f).latched = d.latched := rfl
@[simp] theorem Dev.modStack_heldLow (d : Dev) (n : Nat) (f : Stack → Stack) : (d.modStack n f).heldLow = d.heldLow := rfl
@[simp] theorem Dev.modStack_stk (d : Dev) (n : Nat) (f : Stack → Stack) : (d.modStack n f).stk = d.stk := rfl
@[simp] theorem Dev.modStack_tram (d : Dev) (n : Nat) (f : Stack → Stack) : (d.modStack n f).tram = d.tram := rfl
@[simp] theorem Dev.modStack_sram (d : Dev) (n : Nat) (f : Stack → Stack) : (d.modStack n f).sram = d.sram := rfl
@[simp] theorem Dev.modStack_slots (d : Dev) (n : Nat) (f : Stack → Stack) : (d.modStack n f).slots = d.slots := rfl
@[simp] theorem Dev.modStack_host (d : Dev) (n : Nat) (f : Stack → Stack) : (d.modStack n f).host = d.host := rfl
@[simp] theorem Dev.modStack_cq (d : Dev) (n : Nat) (f : Stack → Stack) : (d.modStack n f).cq = d.cq := rfl
@[simp] theorem Dev.modStack_tiles (d : Dev) (n : Nat) (f : Stack → Stack) : (d.modStack n f).tiles = d.tiles := rfl
@[simp] theorem Dev.modStack_henOps (d : Dev) (n : Nat) (f : Stack → Stack) : (d.modStack n f).henOps = d.henOps := rfl
@[simp] theorem Dev.modStack_nextHenOp (d : Dev) (n : Nat) (f : Stack → Stack) : (d.modStack n f).nextHenOp = d.nextHenOp := rfl
@[simp] theorem Dev.modStack_cs (d : Dev) (n : Nat) (f : Stack → Stack) : (d.modStack n f).cs = tmod d.cs {} n f := rfl
@[simp] theorem Dev.modStack_sect (d : Dev) (n : Nat) (f : Stack → Stack) : (d.modStack n f).sect = d.sect := rfl
@[simp] theorem Dev.modStack_parts (d : Dev) (n : Nat) (f : Stack → Stack) : (d.modStack n f).parts = d.parts := rfl
@[simp] theorem Dev.modStack_layoutOn (d : Dev) (n : Nat) (f : Stack → Stack) : (d.modStack n f).layoutOn = d.layoutOn := rfl
@[simp] theorem Dev.modStack_srv (d : Dev) (n : Nat) (f : Stack → Stack) : (d.modStack n f).srv = d.srv := rfl
@[simp] theorem Dev.modStack_fab (d : Dev) (n : Nat) (f : Stack → Stack) : (d.modStack n f).fab = d.fab := rfl
@[simp] theorem Dev.modStack_pwr (d : Dev) (n : Nat) (f : Stack → Stack) : (d.modStack n f).pwr = d.pwr := rfl
@[simp] theorem Dev.modStack_thm (d : Dev) (n : Nat) (f : Stack → Stack) : (d.modStack n f).thm = d.thm := rfl
@[simp] theorem Dev.modStack_ras (d : Dev) (n : Nat) (f : Stack → Stack) : (d.modStack n f).ras = d.ras := rfl
@[simp] theorem Dev.modStack_gan (d : Dev) (n : Nat) (f : Stack → Stack) : (d.modStack n f).gan = d.gan := rfl
@[simp] theorem Dev.modStack_hif (d : Dev) (n : Nat) (f : Stack → Stack) : (d.modStack n f).hif = d.hif := rfl
@[simp] theorem Dev.modStack_upsets (d : Dev) (n : Nat) (f : Stack → Stack) : (d.modStack n f).upsets = d.upsets := rfl
@[simp] theorem Dev.modStack_free (d : Dev) (n : Nat) (f : Stack → Stack) : (d.modStack n f).free = d.free := rfl

@[simp] theorem Dev.modSect_time (d : Dev) (k : Nat) (f : Sector → Sector) : (d.modSect k f).time = d.time := rfl
@[simp] theorem Dev.modSect_regs (d : Dev) (k : Nat) (f : Sector → Sector) : (d.modSect k f).regs = d.regs := rfl
@[simp] theorem Dev.modSect_latched (d : Dev) (k : Nat) (f : Sector → Sector) : (d.modSect k f).latched = d.latched := rfl
@[simp] theorem Dev.modSect_heldLow (d : Dev) (k : Nat) (f : Sector → Sector) : (d.modSect k f).heldLow = d.heldLow := rfl
@[simp] theorem Dev.modSect_stk (d : Dev) (k : Nat) (f : Sector → Sector) : (d.modSect k f).stk = d.stk := rfl
@[simp] theorem Dev.modSect_tram (d : Dev) (k : Nat) (f : Sector → Sector) : (d.modSect k f).tram = d.tram := rfl
@[simp] theorem Dev.modSect_sram (d : Dev) (k : Nat) (f : Sector → Sector) : (d.modSect k f).sram = d.sram := rfl
@[simp] theorem Dev.modSect_slots (d : Dev) (k : Nat) (f : Sector → Sector) : (d.modSect k f).slots = d.slots := rfl
@[simp] theorem Dev.modSect_host (d : Dev) (k : Nat) (f : Sector → Sector) : (d.modSect k f).host = d.host := rfl
@[simp] theorem Dev.modSect_cq (d : Dev) (k : Nat) (f : Sector → Sector) : (d.modSect k f).cq = d.cq := rfl
@[simp] theorem Dev.modSect_tiles (d : Dev) (k : Nat) (f : Sector → Sector) : (d.modSect k f).tiles = d.tiles := rfl
@[simp] theorem Dev.modSect_henOps (d : Dev) (k : Nat) (f : Sector → Sector) : (d.modSect k f).henOps = d.henOps := rfl
@[simp] theorem Dev.modSect_nextHenOp (d : Dev) (k : Nat) (f : Sector → Sector) : (d.modSect k f).nextHenOp = d.nextHenOp := rfl
@[simp] theorem Dev.modSect_cs (d : Dev) (k : Nat) (f : Sector → Sector) : (d.modSect k f).cs = d.cs := rfl
@[simp] theorem Dev.modSect_sect (d : Dev) (k : Nat) (f : Sector → Sector) : (d.modSect k f).sect = tmod d.sect {} k f := rfl
@[simp] theorem Dev.modSect_parts (d : Dev) (k : Nat) (f : Sector → Sector) : (d.modSect k f).parts = d.parts := rfl
@[simp] theorem Dev.modSect_layoutOn (d : Dev) (k : Nat) (f : Sector → Sector) : (d.modSect k f).layoutOn = d.layoutOn := rfl
@[simp] theorem Dev.modSect_srv (d : Dev) (k : Nat) (f : Sector → Sector) : (d.modSect k f).srv = d.srv := rfl
@[simp] theorem Dev.modSect_fab (d : Dev) (k : Nat) (f : Sector → Sector) : (d.modSect k f).fab = d.fab := rfl
@[simp] theorem Dev.modSect_pwr (d : Dev) (k : Nat) (f : Sector → Sector) : (d.modSect k f).pwr = d.pwr := rfl
@[simp] theorem Dev.modSect_thm (d : Dev) (k : Nat) (f : Sector → Sector) : (d.modSect k f).thm = d.thm := rfl
@[simp] theorem Dev.modSect_ras (d : Dev) (k : Nat) (f : Sector → Sector) : (d.modSect k f).ras = d.ras := rfl
@[simp] theorem Dev.modSect_gan (d : Dev) (k : Nat) (f : Sector → Sector) : (d.modSect k f).gan = d.gan := rfl
@[simp] theorem Dev.modSect_hif (d : Dev) (k : Nat) (f : Sector → Sector) : (d.modSect k f).hif = d.hif := rfl
@[simp] theorem Dev.modSect_upsets (d : Dev) (k : Nat) (f : Sector → Sector) : (d.modSect k f).upsets = d.upsets := rfl
@[simp] theorem Dev.modSect_free (d : Dev) (k : Nat) (f : Sector → Sector) : (d.modSect k f).free = d.free := rfl

@[simp] theorem Dev.modPart_time (d : Dev) (p : Nat) (f : Part → Part) : (d.modPart p f).time = d.time := rfl
@[simp] theorem Dev.modPart_regs (d : Dev) (p : Nat) (f : Part → Part) : (d.modPart p f).regs = d.regs := rfl
@[simp] theorem Dev.modPart_latched (d : Dev) (p : Nat) (f : Part → Part) : (d.modPart p f).latched = d.latched := rfl
@[simp] theorem Dev.modPart_heldLow (d : Dev) (p : Nat) (f : Part → Part) : (d.modPart p f).heldLow = d.heldLow := rfl
@[simp] theorem Dev.modPart_stk (d : Dev) (p : Nat) (f : Part → Part) : (d.modPart p f).stk = d.stk := rfl
@[simp] theorem Dev.modPart_tram (d : Dev) (p : Nat) (f : Part → Part) : (d.modPart p f).tram = d.tram := rfl
@[simp] theorem Dev.modPart_sram (d : Dev) (p : Nat) (f : Part → Part) : (d.modPart p f).sram = d.sram := rfl
@[simp] theorem Dev.modPart_slots (d : Dev) (p : Nat) (f : Part → Part) : (d.modPart p f).slots = d.slots := rfl
@[simp] theorem Dev.modPart_host (d : Dev) (p : Nat) (f : Part → Part) : (d.modPart p f).host = d.host := rfl
@[simp] theorem Dev.modPart_cq (d : Dev) (p : Nat) (f : Part → Part) : (d.modPart p f).cq = d.cq := rfl
@[simp] theorem Dev.modPart_tiles (d : Dev) (p : Nat) (f : Part → Part) : (d.modPart p f).tiles = d.tiles := rfl
@[simp] theorem Dev.modPart_henOps (d : Dev) (p : Nat) (f : Part → Part) : (d.modPart p f).henOps = d.henOps := rfl
@[simp] theorem Dev.modPart_nextHenOp (d : Dev) (p : Nat) (f : Part → Part) : (d.modPart p f).nextHenOp = d.nextHenOp := rfl
@[simp] theorem Dev.modPart_cs (d : Dev) (p : Nat) (f : Part → Part) : (d.modPart p f).cs = d.cs := rfl
@[simp] theorem Dev.modPart_sect (d : Dev) (p : Nat) (f : Part → Part) : (d.modPart p f).sect = d.sect := rfl
@[simp] theorem Dev.modPart_parts (d : Dev) (p : Nat) (f : Part → Part) : (d.modPart p f).parts = tmod d.parts {} p f := rfl
@[simp] theorem Dev.modPart_layoutOn (d : Dev) (p : Nat) (f : Part → Part) : (d.modPart p f).layoutOn = d.layoutOn := rfl
@[simp] theorem Dev.modPart_srv (d : Dev) (p : Nat) (f : Part → Part) : (d.modPart p f).srv = d.srv := rfl
@[simp] theorem Dev.modPart_fab (d : Dev) (p : Nat) (f : Part → Part) : (d.modPart p f).fab = d.fab := rfl
@[simp] theorem Dev.modPart_pwr (d : Dev) (p : Nat) (f : Part → Part) : (d.modPart p f).pwr = d.pwr := rfl
@[simp] theorem Dev.modPart_thm (d : Dev) (p : Nat) (f : Part → Part) : (d.modPart p f).thm = d.thm := rfl
@[simp] theorem Dev.modPart_ras (d : Dev) (p : Nat) (f : Part → Part) : (d.modPart p f).ras = d.ras := rfl
@[simp] theorem Dev.modPart_gan (d : Dev) (p : Nat) (f : Part → Part) : (d.modPart p f).gan = d.gan := rfl
@[simp] theorem Dev.modPart_hif (d : Dev) (p : Nat) (f : Part → Part) : (d.modPart p f).hif = d.hif := rfl
@[simp] theorem Dev.modPart_upsets (d : Dev) (p : Nat) (f : Part → Part) : (d.modPart p f).upsets = d.upsets := rfl
@[simp] theorem Dev.modPart_free (d : Dev) (p : Nat) (f : Part → Part) : (d.modPart p f).free = d.free := rfl

@[simp] theorem Dev.onSrv_time (d : Dev) (f : Srv → Srv) : (d.onSrv f).time = d.time := rfl
@[simp] theorem Dev.onSrv_regs (d : Dev) (f : Srv → Srv) : (d.onSrv f).regs = d.regs := rfl
@[simp] theorem Dev.onSrv_latched (d : Dev) (f : Srv → Srv) : (d.onSrv f).latched = d.latched := rfl
@[simp] theorem Dev.onSrv_heldLow (d : Dev) (f : Srv → Srv) : (d.onSrv f).heldLow = d.heldLow := rfl
@[simp] theorem Dev.onSrv_stk (d : Dev) (f : Srv → Srv) : (d.onSrv f).stk = d.stk := rfl
@[simp] theorem Dev.onSrv_tram (d : Dev) (f : Srv → Srv) : (d.onSrv f).tram = d.tram := rfl
@[simp] theorem Dev.onSrv_sram (d : Dev) (f : Srv → Srv) : (d.onSrv f).sram = d.sram := rfl
@[simp] theorem Dev.onSrv_slots (d : Dev) (f : Srv → Srv) : (d.onSrv f).slots = d.slots := rfl
@[simp] theorem Dev.onSrv_host (d : Dev) (f : Srv → Srv) : (d.onSrv f).host = d.host := rfl
@[simp] theorem Dev.onSrv_cq (d : Dev) (f : Srv → Srv) : (d.onSrv f).cq = d.cq := rfl
@[simp] theorem Dev.onSrv_tiles (d : Dev) (f : Srv → Srv) : (d.onSrv f).tiles = d.tiles := rfl
@[simp] theorem Dev.onSrv_henOps (d : Dev) (f : Srv → Srv) : (d.onSrv f).henOps = d.henOps := rfl
@[simp] theorem Dev.onSrv_nextHenOp (d : Dev) (f : Srv → Srv) : (d.onSrv f).nextHenOp = d.nextHenOp := rfl
@[simp] theorem Dev.onSrv_cs (d : Dev) (f : Srv → Srv) : (d.onSrv f).cs = d.cs := rfl
@[simp] theorem Dev.onSrv_sect (d : Dev) (f : Srv → Srv) : (d.onSrv f).sect = d.sect := rfl
@[simp] theorem Dev.onSrv_parts (d : Dev) (f : Srv → Srv) : (d.onSrv f).parts = d.parts := rfl
@[simp] theorem Dev.onSrv_layoutOn (d : Dev) (f : Srv → Srv) : (d.onSrv f).layoutOn = d.layoutOn := rfl
@[simp] theorem Dev.onSrv_srv (d : Dev) (f : Srv → Srv) : (d.onSrv f).srv = f d.srv := rfl
@[simp] theorem Dev.onSrv_fab (d : Dev) (f : Srv → Srv) : (d.onSrv f).fab = d.fab := rfl
@[simp] theorem Dev.onSrv_pwr (d : Dev) (f : Srv → Srv) : (d.onSrv f).pwr = d.pwr := rfl
@[simp] theorem Dev.onSrv_thm (d : Dev) (f : Srv → Srv) : (d.onSrv f).thm = d.thm := rfl
@[simp] theorem Dev.onSrv_ras (d : Dev) (f : Srv → Srv) : (d.onSrv f).ras = d.ras := rfl
@[simp] theorem Dev.onSrv_gan (d : Dev) (f : Srv → Srv) : (d.onSrv f).gan = d.gan := rfl
@[simp] theorem Dev.onSrv_hif (d : Dev) (f : Srv → Srv) : (d.onSrv f).hif = d.hif := rfl
@[simp] theorem Dev.onSrv_upsets (d : Dev) (f : Srv → Srv) : (d.onSrv f).upsets = d.upsets := rfl
@[simp] theorem Dev.onSrv_free (d : Dev) (f : Srv → Srv) : (d.onSrv f).free = d.free := rfl

@[simp] theorem Dev.onFab_time (d : Dev) (f : Fab → Fab) : (d.onFab f).time = d.time := rfl
@[simp] theorem Dev.onFab_regs (d : Dev) (f : Fab → Fab) : (d.onFab f).regs = d.regs := rfl
@[simp] theorem Dev.onFab_latched (d : Dev) (f : Fab → Fab) : (d.onFab f).latched = d.latched := rfl
@[simp] theorem Dev.onFab_heldLow (d : Dev) (f : Fab → Fab) : (d.onFab f).heldLow = d.heldLow := rfl
@[simp] theorem Dev.onFab_stk (d : Dev) (f : Fab → Fab) : (d.onFab f).stk = d.stk := rfl
@[simp] theorem Dev.onFab_tram (d : Dev) (f : Fab → Fab) : (d.onFab f).tram = d.tram := rfl
@[simp] theorem Dev.onFab_sram (d : Dev) (f : Fab → Fab) : (d.onFab f).sram = d.sram := rfl
@[simp] theorem Dev.onFab_slots (d : Dev) (f : Fab → Fab) : (d.onFab f).slots = d.slots := rfl
@[simp] theorem Dev.onFab_host (d : Dev) (f : Fab → Fab) : (d.onFab f).host = d.host := rfl
@[simp] theorem Dev.onFab_cq (d : Dev) (f : Fab → Fab) : (d.onFab f).cq = d.cq := rfl
@[simp] theorem Dev.onFab_tiles (d : Dev) (f : Fab → Fab) : (d.onFab f).tiles = d.tiles := rfl
@[simp] theorem Dev.onFab_henOps (d : Dev) (f : Fab → Fab) : (d.onFab f).henOps = d.henOps := rfl
@[simp] theorem Dev.onFab_nextHenOp (d : Dev) (f : Fab → Fab) : (d.onFab f).nextHenOp = d.nextHenOp := rfl
@[simp] theorem Dev.onFab_cs (d : Dev) (f : Fab → Fab) : (d.onFab f).cs = d.cs := rfl
@[simp] theorem Dev.onFab_sect (d : Dev) (f : Fab → Fab) : (d.onFab f).sect = d.sect := rfl
@[simp] theorem Dev.onFab_parts (d : Dev) (f : Fab → Fab) : (d.onFab f).parts = d.parts := rfl
@[simp] theorem Dev.onFab_layoutOn (d : Dev) (f : Fab → Fab) : (d.onFab f).layoutOn = d.layoutOn := rfl
@[simp] theorem Dev.onFab_srv (d : Dev) (f : Fab → Fab) : (d.onFab f).srv = d.srv := rfl
@[simp] theorem Dev.onFab_fab (d : Dev) (f : Fab → Fab) : (d.onFab f).fab = f d.fab := rfl
@[simp] theorem Dev.onFab_pwr (d : Dev) (f : Fab → Fab) : (d.onFab f).pwr = d.pwr := rfl
@[simp] theorem Dev.onFab_thm (d : Dev) (f : Fab → Fab) : (d.onFab f).thm = d.thm := rfl
@[simp] theorem Dev.onFab_ras (d : Dev) (f : Fab → Fab) : (d.onFab f).ras = d.ras := rfl
@[simp] theorem Dev.onFab_gan (d : Dev) (f : Fab → Fab) : (d.onFab f).gan = d.gan := rfl
@[simp] theorem Dev.onFab_hif (d : Dev) (f : Fab → Fab) : (d.onFab f).hif = d.hif := rfl
@[simp] theorem Dev.onFab_upsets (d : Dev) (f : Fab → Fab) : (d.onFab f).upsets = d.upsets := rfl
@[simp] theorem Dev.onFab_free (d : Dev) (f : Fab → Fab) : (d.onFab f).free = d.free := rfl

@[simp] theorem Dev.onPwr_time (d : Dev) (f : Pwr → Pwr) : (d.onPwr f).time = d.time := rfl
@[simp] theorem Dev.onPwr_regs (d : Dev) (f : Pwr → Pwr) : (d.onPwr f).regs = d.regs := rfl
@[simp] theorem Dev.onPwr_latched (d : Dev) (f : Pwr → Pwr) : (d.onPwr f).latched = d.latched := rfl
@[simp] theorem Dev.onPwr_heldLow (d : Dev) (f : Pwr → Pwr) : (d.onPwr f).heldLow = d.heldLow := rfl
@[simp] theorem Dev.onPwr_stk (d : Dev) (f : Pwr → Pwr) : (d.onPwr f).stk = d.stk := rfl
@[simp] theorem Dev.onPwr_tram (d : Dev) (f : Pwr → Pwr) : (d.onPwr f).tram = d.tram := rfl
@[simp] theorem Dev.onPwr_sram (d : Dev) (f : Pwr → Pwr) : (d.onPwr f).sram = d.sram := rfl
@[simp] theorem Dev.onPwr_slots (d : Dev) (f : Pwr → Pwr) : (d.onPwr f).slots = d.slots := rfl
@[simp] theorem Dev.onPwr_host (d : Dev) (f : Pwr → Pwr) : (d.onPwr f).host = d.host := rfl
@[simp] theorem Dev.onPwr_cq (d : Dev) (f : Pwr → Pwr) : (d.onPwr f).cq = d.cq := rfl
@[simp] theorem Dev.onPwr_tiles (d : Dev) (f : Pwr → Pwr) : (d.onPwr f).tiles = d.tiles := rfl
@[simp] theorem Dev.onPwr_henOps (d : Dev) (f : Pwr → Pwr) : (d.onPwr f).henOps = d.henOps := rfl
@[simp] theorem Dev.onPwr_nextHenOp (d : Dev) (f : Pwr → Pwr) : (d.onPwr f).nextHenOp = d.nextHenOp := rfl
@[simp] theorem Dev.onPwr_cs (d : Dev) (f : Pwr → Pwr) : (d.onPwr f).cs = d.cs := rfl
@[simp] theorem Dev.onPwr_sect (d : Dev) (f : Pwr → Pwr) : (d.onPwr f).sect = d.sect := rfl
@[simp] theorem Dev.onPwr_parts (d : Dev) (f : Pwr → Pwr) : (d.onPwr f).parts = d.parts := rfl
@[simp] theorem Dev.onPwr_layoutOn (d : Dev) (f : Pwr → Pwr) : (d.onPwr f).layoutOn = d.layoutOn := rfl
@[simp] theorem Dev.onPwr_srv (d : Dev) (f : Pwr → Pwr) : (d.onPwr f).srv = d.srv := rfl
@[simp] theorem Dev.onPwr_fab (d : Dev) (f : Pwr → Pwr) : (d.onPwr f).fab = d.fab := rfl
@[simp] theorem Dev.onPwr_pwr (d : Dev) (f : Pwr → Pwr) : (d.onPwr f).pwr = f d.pwr := rfl
@[simp] theorem Dev.onPwr_thm (d : Dev) (f : Pwr → Pwr) : (d.onPwr f).thm = d.thm := rfl
@[simp] theorem Dev.onPwr_ras (d : Dev) (f : Pwr → Pwr) : (d.onPwr f).ras = d.ras := rfl
@[simp] theorem Dev.onPwr_gan (d : Dev) (f : Pwr → Pwr) : (d.onPwr f).gan = d.gan := rfl
@[simp] theorem Dev.onPwr_hif (d : Dev) (f : Pwr → Pwr) : (d.onPwr f).hif = d.hif := rfl
@[simp] theorem Dev.onPwr_upsets (d : Dev) (f : Pwr → Pwr) : (d.onPwr f).upsets = d.upsets := rfl
@[simp] theorem Dev.onPwr_free (d : Dev) (f : Pwr → Pwr) : (d.onPwr f).free = d.free := rfl

@[simp] theorem Dev.onThm_time (d : Dev) (f : Thm → Thm) : (d.onThm f).time = d.time := rfl
@[simp] theorem Dev.onThm_regs (d : Dev) (f : Thm → Thm) : (d.onThm f).regs = d.regs := rfl
@[simp] theorem Dev.onThm_latched (d : Dev) (f : Thm → Thm) : (d.onThm f).latched = d.latched := rfl
@[simp] theorem Dev.onThm_heldLow (d : Dev) (f : Thm → Thm) : (d.onThm f).heldLow = d.heldLow := rfl
@[simp] theorem Dev.onThm_stk (d : Dev) (f : Thm → Thm) : (d.onThm f).stk = d.stk := rfl
@[simp] theorem Dev.onThm_tram (d : Dev) (f : Thm → Thm) : (d.onThm f).tram = d.tram := rfl
@[simp] theorem Dev.onThm_sram (d : Dev) (f : Thm → Thm) : (d.onThm f).sram = d.sram := rfl
@[simp] theorem Dev.onThm_slots (d : Dev) (f : Thm → Thm) : (d.onThm f).slots = d.slots := rfl
@[simp] theorem Dev.onThm_host (d : Dev) (f : Thm → Thm) : (d.onThm f).host = d.host := rfl
@[simp] theorem Dev.onThm_cq (d : Dev) (f : Thm → Thm) : (d.onThm f).cq = d.cq := rfl
@[simp] theorem Dev.onThm_tiles (d : Dev) (f : Thm → Thm) : (d.onThm f).tiles = d.tiles := rfl
@[simp] theorem Dev.onThm_henOps (d : Dev) (f : Thm → Thm) : (d.onThm f).henOps = d.henOps := rfl
@[simp] theorem Dev.onThm_nextHenOp (d : Dev) (f : Thm → Thm) : (d.onThm f).nextHenOp = d.nextHenOp := rfl
@[simp] theorem Dev.onThm_cs (d : Dev) (f : Thm → Thm) : (d.onThm f).cs = d.cs := rfl
@[simp] theorem Dev.onThm_sect (d : Dev) (f : Thm → Thm) : (d.onThm f).sect = d.sect := rfl
@[simp] theorem Dev.onThm_parts (d : Dev) (f : Thm → Thm) : (d.onThm f).parts = d.parts := rfl
@[simp] theorem Dev.onThm_layoutOn (d : Dev) (f : Thm → Thm) : (d.onThm f).layoutOn = d.layoutOn := rfl
@[simp] theorem Dev.onThm_srv (d : Dev) (f : Thm → Thm) : (d.onThm f).srv = d.srv := rfl
@[simp] theorem Dev.onThm_fab (d : Dev) (f : Thm → Thm) : (d.onThm f).fab = d.fab := rfl
@[simp] theorem Dev.onThm_pwr (d : Dev) (f : Thm → Thm) : (d.onThm f).pwr = d.pwr := rfl
@[simp] theorem Dev.onThm_thm (d : Dev) (f : Thm → Thm) : (d.onThm f).thm = f d.thm := rfl
@[simp] theorem Dev.onThm_ras (d : Dev) (f : Thm → Thm) : (d.onThm f).ras = d.ras := rfl
@[simp] theorem Dev.onThm_gan (d : Dev) (f : Thm → Thm) : (d.onThm f).gan = d.gan := rfl
@[simp] theorem Dev.onThm_hif (d : Dev) (f : Thm → Thm) : (d.onThm f).hif = d.hif := rfl
@[simp] theorem Dev.onThm_upsets (d : Dev) (f : Thm → Thm) : (d.onThm f).upsets = d.upsets := rfl
@[simp] theorem Dev.onThm_free (d : Dev) (f : Thm → Thm) : (d.onThm f).free = d.free := rfl

@[simp] theorem Dev.onGan_time (d : Dev) (f : Gander → Gander) : (d.onGan f).time = d.time := rfl
@[simp] theorem Dev.onGan_regs (d : Dev) (f : Gander → Gander) : (d.onGan f).regs = d.regs := rfl
@[simp] theorem Dev.onGan_latched (d : Dev) (f : Gander → Gander) : (d.onGan f).latched = d.latched := rfl
@[simp] theorem Dev.onGan_heldLow (d : Dev) (f : Gander → Gander) : (d.onGan f).heldLow = d.heldLow := rfl
@[simp] theorem Dev.onGan_stk (d : Dev) (f : Gander → Gander) : (d.onGan f).stk = d.stk := rfl
@[simp] theorem Dev.onGan_tram (d : Dev) (f : Gander → Gander) : (d.onGan f).tram = d.tram := rfl
@[simp] theorem Dev.onGan_sram (d : Dev) (f : Gander → Gander) : (d.onGan f).sram = d.sram := rfl
@[simp] theorem Dev.onGan_slots (d : Dev) (f : Gander → Gander) : (d.onGan f).slots = d.slots := rfl
@[simp] theorem Dev.onGan_host (d : Dev) (f : Gander → Gander) : (d.onGan f).host = d.host := rfl
@[simp] theorem Dev.onGan_cq (d : Dev) (f : Gander → Gander) : (d.onGan f).cq = d.cq := rfl
@[simp] theorem Dev.onGan_tiles (d : Dev) (f : Gander → Gander) : (d.onGan f).tiles = d.tiles := rfl
@[simp] theorem Dev.onGan_henOps (d : Dev) (f : Gander → Gander) : (d.onGan f).henOps = d.henOps := rfl
@[simp] theorem Dev.onGan_nextHenOp (d : Dev) (f : Gander → Gander) : (d.onGan f).nextHenOp = d.nextHenOp := rfl
@[simp] theorem Dev.onGan_cs (d : Dev) (f : Gander → Gander) : (d.onGan f).cs = d.cs := rfl
@[simp] theorem Dev.onGan_sect (d : Dev) (f : Gander → Gander) : (d.onGan f).sect = d.sect := rfl
@[simp] theorem Dev.onGan_parts (d : Dev) (f : Gander → Gander) : (d.onGan f).parts = d.parts := rfl
@[simp] theorem Dev.onGan_layoutOn (d : Dev) (f : Gander → Gander) : (d.onGan f).layoutOn = d.layoutOn := rfl
@[simp] theorem Dev.onGan_srv (d : Dev) (f : Gander → Gander) : (d.onGan f).srv = d.srv := rfl
@[simp] theorem Dev.onGan_fab (d : Dev) (f : Gander → Gander) : (d.onGan f).fab = d.fab := rfl
@[simp] theorem Dev.onGan_pwr (d : Dev) (f : Gander → Gander) : (d.onGan f).pwr = d.pwr := rfl
@[simp] theorem Dev.onGan_thm (d : Dev) (f : Gander → Gander) : (d.onGan f).thm = d.thm := rfl
@[simp] theorem Dev.onGan_ras (d : Dev) (f : Gander → Gander) : (d.onGan f).ras = d.ras := rfl
@[simp] theorem Dev.onGan_gan (d : Dev) (f : Gander → Gander) : (d.onGan f).gan = f d.gan := rfl
@[simp] theorem Dev.onGan_hif (d : Dev) (f : Gander → Gander) : (d.onGan f).hif = d.hif := rfl
@[simp] theorem Dev.onGan_upsets (d : Dev) (f : Gander → Gander) : (d.onGan f).upsets = d.upsets := rfl
@[simp] theorem Dev.onGan_free (d : Dev) (f : Gander → Gander) : (d.onGan f).free = d.free := rfl

@[simp] theorem Dev.onHif_time (d : Dev) (f : Hif → Hif) : (d.onHif f).time = d.time := rfl
@[simp] theorem Dev.onHif_regs (d : Dev) (f : Hif → Hif) : (d.onHif f).regs = d.regs := rfl
@[simp] theorem Dev.onHif_latched (d : Dev) (f : Hif → Hif) : (d.onHif f).latched = d.latched := rfl
@[simp] theorem Dev.onHif_heldLow (d : Dev) (f : Hif → Hif) : (d.onHif f).heldLow = d.heldLow := rfl
@[simp] theorem Dev.onHif_stk (d : Dev) (f : Hif → Hif) : (d.onHif f).stk = d.stk := rfl
@[simp] theorem Dev.onHif_tram (d : Dev) (f : Hif → Hif) : (d.onHif f).tram = d.tram := rfl
@[simp] theorem Dev.onHif_sram (d : Dev) (f : Hif → Hif) : (d.onHif f).sram = d.sram := rfl
@[simp] theorem Dev.onHif_slots (d : Dev) (f : Hif → Hif) : (d.onHif f).slots = d.slots := rfl
@[simp] theorem Dev.onHif_host (d : Dev) (f : Hif → Hif) : (d.onHif f).host = d.host := rfl
@[simp] theorem Dev.onHif_cq (d : Dev) (f : Hif → Hif) : (d.onHif f).cq = d.cq := rfl
@[simp] theorem Dev.onHif_tiles (d : Dev) (f : Hif → Hif) : (d.onHif f).tiles = d.tiles := rfl
@[simp] theorem Dev.onHif_henOps (d : Dev) (f : Hif → Hif) : (d.onHif f).henOps = d.henOps := rfl
@[simp] theorem Dev.onHif_nextHenOp (d : Dev) (f : Hif → Hif) : (d.onHif f).nextHenOp = d.nextHenOp := rfl
@[simp] theorem Dev.onHif_cs (d : Dev) (f : Hif → Hif) : (d.onHif f).cs = d.cs := rfl
@[simp] theorem Dev.onHif_sect (d : Dev) (f : Hif → Hif) : (d.onHif f).sect = d.sect := rfl
@[simp] theorem Dev.onHif_parts (d : Dev) (f : Hif → Hif) : (d.onHif f).parts = d.parts := rfl
@[simp] theorem Dev.onHif_layoutOn (d : Dev) (f : Hif → Hif) : (d.onHif f).layoutOn = d.layoutOn := rfl
@[simp] theorem Dev.onHif_srv (d : Dev) (f : Hif → Hif) : (d.onHif f).srv = d.srv := rfl
@[simp] theorem Dev.onHif_fab (d : Dev) (f : Hif → Hif) : (d.onHif f).fab = d.fab := rfl
@[simp] theorem Dev.onHif_pwr (d : Dev) (f : Hif → Hif) : (d.onHif f).pwr = d.pwr := rfl
@[simp] theorem Dev.onHif_thm (d : Dev) (f : Hif → Hif) : (d.onHif f).thm = d.thm := rfl
@[simp] theorem Dev.onHif_ras (d : Dev) (f : Hif → Hif) : (d.onHif f).ras = d.ras := rfl
@[simp] theorem Dev.onHif_gan (d : Dev) (f : Hif → Hif) : (d.onHif f).gan = d.gan := rfl
@[simp] theorem Dev.onHif_hif (d : Dev) (f : Hif → Hif) : (d.onHif f).hif = f d.hif := rfl
@[simp] theorem Dev.onHif_upsets (d : Dev) (f : Hif → Hif) : (d.onHif f).upsets = d.upsets := rfl
@[simp] theorem Dev.onHif_free (d : Dev) (f : Hif → Hif) : (d.onHif f).free = d.free := rfl

@[simp] theorem Dev.setUnit_time (d : Dev) (u : UnitId) (x : UnitSt) : (d.setUnit u x).time = d.time := rfl
@[simp] theorem Dev.setUnit_regs (d : Dev) (u : UnitId) (x : UnitSt) : (d.setUnit u x).regs = d.regs := rfl
@[simp] theorem Dev.setUnit_latched (d : Dev) (u : UnitId) (x : UnitSt) : (d.setUnit u x).latched = d.latched := rfl
@[simp] theorem Dev.setUnit_heldLow (d : Dev) (u : UnitId) (x : UnitSt) : (d.setUnit u x).heldLow = d.heldLow := rfl
@[simp] theorem Dev.setUnit_stk (d : Dev) (u : UnitId) (x : UnitSt) : (d.setUnit u x).stk = d.stk := rfl
@[simp] theorem Dev.setUnit_tram (d : Dev) (u : UnitId) (x : UnitSt) : (d.setUnit u x).tram = d.tram := rfl
@[simp] theorem Dev.setUnit_sram (d : Dev) (u : UnitId) (x : UnitSt) : (d.setUnit u x).sram = d.sram := rfl
@[simp] theorem Dev.setUnit_slots (d : Dev) (u : UnitId) (x : UnitSt) : (d.setUnit u x).slots = d.slots := rfl
@[simp] theorem Dev.setUnit_host (d : Dev) (u : UnitId) (x : UnitSt) : (d.setUnit u x).host = d.host := rfl
@[simp] theorem Dev.setUnit_cq (d : Dev) (u : UnitId) (x : UnitSt) : (d.setUnit u x).cq = d.cq := rfl
@[simp] theorem Dev.setUnit_tiles (d : Dev) (u : UnitId) (x : UnitSt) : (d.setUnit u x).tiles = d.tiles := rfl
@[simp] theorem Dev.setUnit_henOps (d : Dev) (u : UnitId) (x : UnitSt) : (d.setUnit u x).henOps = d.henOps := rfl
@[simp] theorem Dev.setUnit_nextHenOp (d : Dev) (u : UnitId) (x : UnitSt) : (d.setUnit u x).nextHenOp = d.nextHenOp := rfl
@[simp] theorem Dev.setUnit_cs (d : Dev) (u : UnitId) (x : UnitSt) : (d.setUnit u x).cs = d.cs := rfl
@[simp] theorem Dev.setUnit_sect (d : Dev) (u : UnitId) (x : UnitSt) : (d.setUnit u x).sect = d.sect := rfl
@[simp] theorem Dev.setUnit_parts (d : Dev) (u : UnitId) (x : UnitSt) : (d.setUnit u x).parts = d.parts := rfl
@[simp] theorem Dev.setUnit_layoutOn (d : Dev) (u : UnitId) (x : UnitSt) : (d.setUnit u x).layoutOn = d.layoutOn := rfl
@[simp] theorem Dev.setUnit_srv (d : Dev) (u : UnitId) (x : UnitSt) : (d.setUnit u x).srv = d.srv := rfl
@[simp] theorem Dev.setUnit_fab (d : Dev) (u : UnitId) (x : UnitSt) : (d.setUnit u x).fab = d.fab := rfl
@[simp] theorem Dev.setUnit_pwr (d : Dev) (u : UnitId) (x : UnitSt) : (d.setUnit u x).pwr = d.pwr := rfl
@[simp] theorem Dev.setUnit_thm (d : Dev) (u : UnitId) (x : UnitSt) : (d.setUnit u x).thm = d.thm := rfl
@[simp] theorem Dev.setUnit_ras (d : Dev) (u : UnitId) (x : UnitSt) : (d.setUnit u x).ras = { d.ras with units := tset d.ras.units (unitCode u) x } := rfl
@[simp] theorem Dev.setUnit_gan (d : Dev) (u : UnitId) (x : UnitSt) : (d.setUnit u x).gan = d.gan := rfl
@[simp] theorem Dev.setUnit_hif (d : Dev) (u : UnitId) (x : UnitSt) : (d.setUnit u x).hif = d.hif := rfl
@[simp] theorem Dev.setUnit_upsets (d : Dev) (u : UnitId) (x : UnitSt) : (d.setUnit u x).upsets = d.upsets := rfl
@[simp] theorem Dev.setUnit_free (d : Dev) (u : UnitId) (x : UnitSt) : (d.setUnit u x).free = d.free := rfl

@[simp] theorem Dev.sendOut_time (d : Dev) (o : HostOut) : (d.sendOut o).time = d.time := rfl
@[simp] theorem Dev.sendOut_regs (d : Dev) (o : HostOut) : (d.sendOut o).regs = d.regs := rfl
@[simp] theorem Dev.sendOut_latched (d : Dev) (o : HostOut) : (d.sendOut o).latched = d.latched := rfl
@[simp] theorem Dev.sendOut_heldLow (d : Dev) (o : HostOut) : (d.sendOut o).heldLow = d.heldLow := rfl
@[simp] theorem Dev.sendOut_stk (d : Dev) (o : HostOut) : (d.sendOut o).stk = d.stk := rfl
@[simp] theorem Dev.sendOut_tram (d : Dev) (o : HostOut) : (d.sendOut o).tram = d.tram := rfl
@[simp] theorem Dev.sendOut_sram (d : Dev) (o : HostOut) : (d.sendOut o).sram = d.sram := rfl
@[simp] theorem Dev.sendOut_slots (d : Dev) (o : HostOut) : (d.sendOut o).slots = d.slots := rfl
@[simp] theorem Dev.sendOut_host (d : Dev) (o : HostOut) : (d.sendOut o).host = d.host := rfl
@[simp] theorem Dev.sendOut_cq (d : Dev) (o : HostOut) : (d.sendOut o).cq = d.cq := rfl
@[simp] theorem Dev.sendOut_tiles (d : Dev) (o : HostOut) : (d.sendOut o).tiles = d.tiles := rfl
@[simp] theorem Dev.sendOut_henOps (d : Dev) (o : HostOut) : (d.sendOut o).henOps = d.henOps := rfl
@[simp] theorem Dev.sendOut_nextHenOp (d : Dev) (o : HostOut) : (d.sendOut o).nextHenOp = d.nextHenOp := rfl
@[simp] theorem Dev.sendOut_cs (d : Dev) (o : HostOut) : (d.sendOut o).cs = d.cs := rfl
@[simp] theorem Dev.sendOut_sect (d : Dev) (o : HostOut) : (d.sendOut o).sect = d.sect := rfl
@[simp] theorem Dev.sendOut_parts (d : Dev) (o : HostOut) : (d.sendOut o).parts = d.parts := rfl
@[simp] theorem Dev.sendOut_layoutOn (d : Dev) (o : HostOut) : (d.sendOut o).layoutOn = d.layoutOn := rfl
@[simp] theorem Dev.sendOut_srv (d : Dev) (o : HostOut) : (d.sendOut o).srv = d.srv := rfl
@[simp] theorem Dev.sendOut_fab (d : Dev) (o : HostOut) : (d.sendOut o).fab = d.fab := rfl
@[simp] theorem Dev.sendOut_pwr (d : Dev) (o : HostOut) : (d.sendOut o).pwr = d.pwr := rfl
@[simp] theorem Dev.sendOut_thm (d : Dev) (o : HostOut) : (d.sendOut o).thm = d.thm := rfl
@[simp] theorem Dev.sendOut_ras (d : Dev) (o : HostOut) : (d.sendOut o).ras = d.ras := rfl
@[simp] theorem Dev.sendOut_gan (d : Dev) (o : HostOut) : (d.sendOut o).gan = d.gan := rfl
@[simp] theorem Dev.sendOut_hif (d : Dev) (o : HostOut) : (d.sendOut o).hif = { d.hif with out := d.hif.out ++ [o] } := rfl
@[simp] theorem Dev.sendOut_upsets (d : Dev) (o : HostOut) : (d.sendOut o).upsets = d.upsets := rfl
@[simp] theorem Dev.sendOut_free (d : Dev) (o : HostOut) : (d.sendOut o).free = d.free := rfl

@[simp] theorem Dev.setQueued_time (d : Dev) (n p : Nat) (q : List Access) : (d.setQueued n p q).time = d.time := rfl
@[simp] theorem Dev.setQueued_regs (d : Dev) (n p : Nat) (q : List Access) : (d.setQueued n p q).regs = d.regs := rfl
@[simp] theorem Dev.setQueued_latched (d : Dev) (n p : Nat) (q : List Access) : (d.setQueued n p q).latched = d.latched := rfl
@[simp] theorem Dev.setQueued_heldLow (d : Dev) (n p : Nat) (q : List Access) : (d.setQueued n p q).heldLow = d.heldLow := rfl
@[simp] theorem Dev.setQueued_stk (d : Dev) (n p : Nat) (q : List Access) : (d.setQueued n p q).stk = d.stk := rfl
@[simp] theorem Dev.setQueued_tram (d : Dev) (n p : Nat) (q : List Access) : (d.setQueued n p q).tram = d.tram := rfl
@[simp] theorem Dev.setQueued_sram (d : Dev) (n p : Nat) (q : List Access) : (d.setQueued n p q).sram = d.sram := rfl
@[simp] theorem Dev.setQueued_slots (d : Dev) (n p : Nat) (q : List Access) : (d.setQueued n p q).slots = d.slots := rfl
@[simp] theorem Dev.setQueued_host (d : Dev) (n p : Nat) (q : List Access) : (d.setQueued n p q).host = d.host := rfl
@[simp] theorem Dev.setQueued_cq (d : Dev) (n p : Nat) (q : List Access) : (d.setQueued n p q).cq = d.cq := rfl
@[simp] theorem Dev.setQueued_tiles (d : Dev) (n p : Nat) (q : List Access) : (d.setQueued n p q).tiles = d.tiles := rfl
@[simp] theorem Dev.setQueued_henOps (d : Dev) (n p : Nat) (q : List Access) : (d.setQueued n p q).henOps = d.henOps := rfl
@[simp] theorem Dev.setQueued_nextHenOp (d : Dev) (n p : Nat) (q : List Access) : (d.setQueued n p q).nextHenOp = d.nextHenOp := rfl
@[simp] theorem Dev.setQueued_sect (d : Dev) (n p : Nat) (q : List Access) : (d.setQueued n p q).sect = d.sect := rfl
@[simp] theorem Dev.setQueued_parts (d : Dev) (n p : Nat) (q : List Access) : (d.setQueued n p q).parts = d.parts := rfl
@[simp] theorem Dev.setQueued_layoutOn (d : Dev) (n p : Nat) (q : List Access) : (d.setQueued n p q).layoutOn = d.layoutOn := rfl
@[simp] theorem Dev.setQueued_srv (d : Dev) (n p : Nat) (q : List Access) : (d.setQueued n p q).srv = d.srv := rfl
@[simp] theorem Dev.setQueued_fab (d : Dev) (n p : Nat) (q : List Access) : (d.setQueued n p q).fab = d.fab := rfl
@[simp] theorem Dev.setQueued_pwr (d : Dev) (n p : Nat) (q : List Access) : (d.setQueued n p q).pwr = d.pwr := rfl
@[simp] theorem Dev.setQueued_thm (d : Dev) (n p : Nat) (q : List Access) : (d.setQueued n p q).thm = d.thm := rfl
@[simp] theorem Dev.setQueued_ras (d : Dev) (n p : Nat) (q : List Access) : (d.setQueued n p q).ras = d.ras := rfl
@[simp] theorem Dev.setQueued_gan (d : Dev) (n p : Nat) (q : List Access) : (d.setQueued n p q).gan = d.gan := rfl
@[simp] theorem Dev.setQueued_hif (d : Dev) (n p : Nat) (q : List Access) : (d.setQueued n p q).hif = d.hif := rfl
@[simp] theorem Dev.setQueued_upsets (d : Dev) (n p : Nat) (q : List Access) : (d.setQueued n p q).upsets = d.upsets := rfl
@[simp] theorem Dev.setQueued_free (d : Dev) (n p : Nat) (q : List Access) : (d.setQueued n p q).free = d.free := rfl

@[simp] theorem Dev.modEntry_time (d : Dev) (i : Nat) (f : Entry → Entry) : (d.modEntry i f).time = d.time := rfl
@[simp] theorem Dev.modEntry_regs (d : Dev) (i : Nat) (f : Entry → Entry) : (d.modEntry i f).regs = d.regs := rfl
@[simp] theorem Dev.modEntry_latched (d : Dev) (i : Nat) (f : Entry → Entry) : (d.modEntry i f).latched = d.latched := rfl
@[simp] theorem Dev.modEntry_heldLow (d : Dev) (i : Nat) (f : Entry → Entry) : (d.modEntry i f).heldLow = d.heldLow := rfl
@[simp] theorem Dev.modEntry_stk (d : Dev) (i : Nat) (f : Entry → Entry) : (d.modEntry i f).stk = d.stk := rfl
@[simp] theorem Dev.modEntry_tram (d : Dev) (i : Nat) (f : Entry → Entry) : (d.modEntry i f).tram = d.tram := rfl
@[simp] theorem Dev.modEntry_sram (d : Dev) (i : Nat) (f : Entry → Entry) : (d.modEntry i f).sram = d.sram := rfl
@[simp] theorem Dev.modEntry_slots (d : Dev) (i : Nat) (f : Entry → Entry) : (d.modEntry i f).slots = d.slots := rfl
@[simp] theorem Dev.modEntry_host (d : Dev) (i : Nat) (f : Entry → Entry) : (d.modEntry i f).host = d.host := rfl
@[simp] theorem Dev.modEntry_cq (d : Dev) (i : Nat) (f : Entry → Entry) : (d.modEntry i f).cq = d.cq := rfl
@[simp] theorem Dev.modEntry_tiles (d : Dev) (i : Nat) (f : Entry → Entry) : (d.modEntry i f).tiles = d.tiles := rfl
@[simp] theorem Dev.modEntry_henOps (d : Dev) (i : Nat) (f : Entry → Entry) : (d.modEntry i f).henOps = d.henOps := rfl
@[simp] theorem Dev.modEntry_nextHenOp (d : Dev) (i : Nat) (f : Entry → Entry) : (d.modEntry i f).nextHenOp = d.nextHenOp := rfl
@[simp] theorem Dev.modEntry_cs (d : Dev) (i : Nat) (f : Entry → Entry) : (d.modEntry i f).cs = d.cs := rfl
@[simp] theorem Dev.modEntry_sect (d : Dev) (i : Nat) (f : Entry → Entry) : (d.modEntry i f).sect = d.sect := rfl
@[simp] theorem Dev.modEntry_parts (d : Dev) (i : Nat) (f : Entry → Entry) : (d.modEntry i f).parts = d.parts := rfl
@[simp] theorem Dev.modEntry_layoutOn (d : Dev) (i : Nat) (f : Entry → Entry) : (d.modEntry i f).layoutOn = d.layoutOn := rfl
@[simp] theorem Dev.modEntry_srv (d : Dev) (i : Nat) (f : Entry → Entry) : (d.modEntry i f).srv = { d.srv with entries := tmod d.srv.entries {} i f } := rfl
@[simp] theorem Dev.modEntry_fab (d : Dev) (i : Nat) (f : Entry → Entry) : (d.modEntry i f).fab = d.fab := rfl
@[simp] theorem Dev.modEntry_pwr (d : Dev) (i : Nat) (f : Entry → Entry) : (d.modEntry i f).pwr = d.pwr := rfl
@[simp] theorem Dev.modEntry_thm (d : Dev) (i : Nat) (f : Entry → Entry) : (d.modEntry i f).thm = d.thm := rfl
@[simp] theorem Dev.modEntry_ras (d : Dev) (i : Nat) (f : Entry → Entry) : (d.modEntry i f).ras = d.ras := rfl
@[simp] theorem Dev.modEntry_gan (d : Dev) (i : Nat) (f : Entry → Entry) : (d.modEntry i f).gan = d.gan := rfl
@[simp] theorem Dev.modEntry_hif (d : Dev) (i : Nat) (f : Entry → Entry) : (d.modEntry i f).hif = d.hif := rfl
@[simp] theorem Dev.modEntry_upsets (d : Dev) (i : Nat) (f : Entry → Entry) : (d.modEntry i f).upsets = d.upsets := rfl
@[simp] theorem Dev.modEntry_free (d : Dev) (i : Nat) (f : Entry → Entry) : (d.modEntry i f).free = d.free := rfl

@[simp] theorem Dev.setVersion_time (d : Dev) (v : Nat) (x : Version) : (d.setVersion v x).time = d.time := rfl
@[simp] theorem Dev.setVersion_regs (d : Dev) (v : Nat) (x : Version) : (d.setVersion v x).regs = d.regs := rfl
@[simp] theorem Dev.setVersion_latched (d : Dev) (v : Nat) (x : Version) : (d.setVersion v x).latched = d.latched := rfl
@[simp] theorem Dev.setVersion_heldLow (d : Dev) (v : Nat) (x : Version) : (d.setVersion v x).heldLow = d.heldLow := rfl
@[simp] theorem Dev.setVersion_stk (d : Dev) (v : Nat) (x : Version) : (d.setVersion v x).stk = d.stk := rfl
@[simp] theorem Dev.setVersion_tram (d : Dev) (v : Nat) (x : Version) : (d.setVersion v x).tram = d.tram := rfl
@[simp] theorem Dev.setVersion_sram (d : Dev) (v : Nat) (x : Version) : (d.setVersion v x).sram = d.sram := rfl
@[simp] theorem Dev.setVersion_slots (d : Dev) (v : Nat) (x : Version) : (d.setVersion v x).slots = d.slots := rfl
@[simp] theorem Dev.setVersion_host (d : Dev) (v : Nat) (x : Version) : (d.setVersion v x).host = d.host := rfl
@[simp] theorem Dev.setVersion_cq (d : Dev) (v : Nat) (x : Version) : (d.setVersion v x).cq = d.cq := rfl
@[simp] theorem Dev.setVersion_tiles (d : Dev) (v : Nat) (x : Version) : (d.setVersion v x).tiles = d.tiles := rfl
@[simp] theorem Dev.setVersion_henOps (d : Dev) (v : Nat) (x : Version) : (d.setVersion v x).henOps = d.henOps := rfl
@[simp] theorem Dev.setVersion_nextHenOp (d : Dev) (v : Nat) (x : Version) : (d.setVersion v x).nextHenOp = d.nextHenOp := rfl
@[simp] theorem Dev.setVersion_cs (d : Dev) (v : Nat) (x : Version) : (d.setVersion v x).cs = d.cs := rfl
@[simp] theorem Dev.setVersion_sect (d : Dev) (v : Nat) (x : Version) : (d.setVersion v x).sect = d.sect := rfl
@[simp] theorem Dev.setVersion_parts (d : Dev) (v : Nat) (x : Version) : (d.setVersion v x).parts = d.parts := rfl
@[simp] theorem Dev.setVersion_layoutOn (d : Dev) (v : Nat) (x : Version) : (d.setVersion v x).layoutOn = d.layoutOn := rfl
@[simp] theorem Dev.setVersion_srv (d : Dev) (v : Nat) (x : Version) : (d.setVersion v x).srv = { d.srv with
    versions := if x.state = .free then tdel d.srv.versions v else tset d.srv.versions v x } := rfl
@[simp] theorem Dev.setVersion_fab (d : Dev) (v : Nat) (x : Version) : (d.setVersion v x).fab = d.fab := rfl
@[simp] theorem Dev.setVersion_pwr (d : Dev) (v : Nat) (x : Version) : (d.setVersion v x).pwr = d.pwr := rfl
@[simp] theorem Dev.setVersion_thm (d : Dev) (v : Nat) (x : Version) : (d.setVersion v x).thm = d.thm := rfl
@[simp] theorem Dev.setVersion_ras (d : Dev) (v : Nat) (x : Version) : (d.setVersion v x).ras = d.ras := rfl
@[simp] theorem Dev.setVersion_gan (d : Dev) (v : Nat) (x : Version) : (d.setVersion v x).gan = d.gan := rfl
@[simp] theorem Dev.setVersion_hif (d : Dev) (v : Nat) (x : Version) : (d.setVersion v x).hif = d.hif := rfl
@[simp] theorem Dev.setVersion_upsets (d : Dev) (v : Nat) (x : Version) : (d.setVersion v x).upsets = d.upsets := rfl
@[simp] theorem Dev.setVersion_free (d : Dev) (v : Nat) (x : Version) : (d.setVersion v x).free = d.free := rfl

@[simp] theorem Dev.setFn_time (d : Dev) (f : Nat) (g : FnCfg → FnCfg) : (d.setFn f g).time = d.time := rfl
@[simp] theorem Dev.setFn_regs (d : Dev) (f : Nat) (g : FnCfg → FnCfg) : (d.setFn f g).regs = d.regs := rfl
@[simp] theorem Dev.setFn_latched (d : Dev) (f : Nat) (g : FnCfg → FnCfg) : (d.setFn f g).latched = d.latched := rfl
@[simp] theorem Dev.setFn_heldLow (d : Dev) (f : Nat) (g : FnCfg → FnCfg) : (d.setFn f g).heldLow = d.heldLow := rfl
@[simp] theorem Dev.setFn_stk (d : Dev) (f : Nat) (g : FnCfg → FnCfg) : (d.setFn f g).stk = d.stk := rfl
@[simp] theorem Dev.setFn_tram (d : Dev) (f : Nat) (g : FnCfg → FnCfg) : (d.setFn f g).tram = d.tram := rfl
@[simp] theorem Dev.setFn_sram (d : Dev) (f : Nat) (g : FnCfg → FnCfg) : (d.setFn f g).sram = d.sram := rfl
@[simp] theorem Dev.setFn_slots (d : Dev) (f : Nat) (g : FnCfg → FnCfg) : (d.setFn f g).slots = d.slots := rfl
@[simp] theorem Dev.setFn_host (d : Dev) (f : Nat) (g : FnCfg → FnCfg) : (d.setFn f g).host = d.host := rfl
@[simp] theorem Dev.setFn_cq (d : Dev) (f : Nat) (g : FnCfg → FnCfg) : (d.setFn f g).cq = d.cq := rfl
@[simp] theorem Dev.setFn_tiles (d : Dev) (f : Nat) (g : FnCfg → FnCfg) : (d.setFn f g).tiles = d.tiles := rfl
@[simp] theorem Dev.setFn_henOps (d : Dev) (f : Nat) (g : FnCfg → FnCfg) : (d.setFn f g).henOps = d.henOps := rfl
@[simp] theorem Dev.setFn_nextHenOp (d : Dev) (f : Nat) (g : FnCfg → FnCfg) : (d.setFn f g).nextHenOp = d.nextHenOp := rfl
@[simp] theorem Dev.setFn_cs (d : Dev) (f : Nat) (g : FnCfg → FnCfg) : (d.setFn f g).cs = d.cs := rfl
@[simp] theorem Dev.setFn_sect (d : Dev) (f : Nat) (g : FnCfg → FnCfg) : (d.setFn f g).sect = d.sect := rfl
@[simp] theorem Dev.setFn_parts (d : Dev) (f : Nat) (g : FnCfg → FnCfg) : (d.setFn f g).parts = d.parts := rfl
@[simp] theorem Dev.setFn_layoutOn (d : Dev) (f : Nat) (g : FnCfg → FnCfg) : (d.setFn f g).layoutOn = d.layoutOn := rfl
@[simp] theorem Dev.setFn_srv (d : Dev) (f : Nat) (g : FnCfg → FnCfg) : (d.setFn f g).srv = d.srv := rfl
@[simp] theorem Dev.setFn_fab (d : Dev) (f : Nat) (g : FnCfg → FnCfg) : (d.setFn f g).fab = d.fab := rfl
@[simp] theorem Dev.setFn_pwr (d : Dev) (f : Nat) (g : FnCfg → FnCfg) : (d.setFn f g).pwr = d.pwr := rfl
@[simp] theorem Dev.setFn_thm (d : Dev) (f : Nat) (g : FnCfg → FnCfg) : (d.setFn f g).thm = d.thm := rfl
@[simp] theorem Dev.setFn_ras (d : Dev) (f : Nat) (g : FnCfg → FnCfg) : (d.setFn f g).ras = d.ras := rfl
@[simp] theorem Dev.setFn_gan (d : Dev) (f : Nat) (g : FnCfg → FnCfg) : (d.setFn f g).gan = d.gan := rfl
@[simp] theorem Dev.setFn_hif (d : Dev) (f : Nat) (g : FnCfg → FnCfg) : (d.setFn f g).hif = { d.hif with fns := tmod d.hif.fns {} f g } := rfl
@[simp] theorem Dev.setFn_upsets (d : Dev) (f : Nat) (g : FnCfg → FnCfg) : (d.setFn f g).upsets = d.upsets := rfl
@[simp] theorem Dev.setFn_free (d : Dev) (f : Nat) (g : FnCfg → FnCfg) : (d.setFn f g).free = d.free := rfl

@[simp] theorem Dev.setBucket_time (d : Dev) (p : Nat) (b : Bucket) : (d.setBucket p b).time = d.time := rfl
@[simp] theorem Dev.setBucket_regs (d : Dev) (p : Nat) (b : Bucket) : (d.setBucket p b).regs = d.regs := rfl
@[simp] theorem Dev.setBucket_latched (d : Dev) (p : Nat) (b : Bucket) : (d.setBucket p b).latched = d.latched := rfl
@[simp] theorem Dev.setBucket_heldLow (d : Dev) (p : Nat) (b : Bucket) : (d.setBucket p b).heldLow = d.heldLow := rfl
@[simp] theorem Dev.setBucket_stk (d : Dev) (p : Nat) (b : Bucket) : (d.setBucket p b).stk = d.stk := rfl
@[simp] theorem Dev.setBucket_tram (d : Dev) (p : Nat) (b : Bucket) : (d.setBucket p b).tram = d.tram := rfl
@[simp] theorem Dev.setBucket_sram (d : Dev) (p : Nat) (b : Bucket) : (d.setBucket p b).sram = d.sram := rfl
@[simp] theorem Dev.setBucket_slots (d : Dev) (p : Nat) (b : Bucket) : (d.setBucket p b).slots = d.slots := rfl
@[simp] theorem Dev.setBucket_host (d : Dev) (p : Nat) (b : Bucket) : (d.setBucket p b).host = d.host := rfl
@[simp] theorem Dev.setBucket_cq (d : Dev) (p : Nat) (b : Bucket) : (d.setBucket p b).cq = d.cq := rfl
@[simp] theorem Dev.setBucket_tiles (d : Dev) (p : Nat) (b : Bucket) : (d.setBucket p b).tiles = d.tiles := rfl
@[simp] theorem Dev.setBucket_henOps (d : Dev) (p : Nat) (b : Bucket) : (d.setBucket p b).henOps = d.henOps := rfl
@[simp] theorem Dev.setBucket_nextHenOp (d : Dev) (p : Nat) (b : Bucket) : (d.setBucket p b).nextHenOp = d.nextHenOp := rfl
@[simp] theorem Dev.setBucket_cs (d : Dev) (p : Nat) (b : Bucket) : (d.setBucket p b).cs = d.cs := rfl
@[simp] theorem Dev.setBucket_sect (d : Dev) (p : Nat) (b : Bucket) : (d.setBucket p b).sect = d.sect := rfl
@[simp] theorem Dev.setBucket_parts (d : Dev) (p : Nat) (b : Bucket) : (d.setBucket p b).parts = d.parts := rfl
@[simp] theorem Dev.setBucket_layoutOn (d : Dev) (p : Nat) (b : Bucket) : (d.setBucket p b).layoutOn = d.layoutOn := rfl
@[simp] theorem Dev.setBucket_srv (d : Dev) (p : Nat) (b : Bucket) : (d.setBucket p b).srv = d.srv := rfl
@[simp] theorem Dev.setBucket_fab (d : Dev) (p : Nat) (b : Bucket) : (d.setBucket p b).fab = d.fab := rfl
@[simp] theorem Dev.setBucket_pwr (d : Dev) (p : Nat) (b : Bucket) : (d.setBucket p b).pwr = d.pwr := rfl
@[simp] theorem Dev.setBucket_thm (d : Dev) (p : Nat) (b : Bucket) : (d.setBucket p b).thm = d.thm := rfl
@[simp] theorem Dev.setBucket_ras (d : Dev) (p : Nat) (b : Bucket) : (d.setBucket p b).ras = d.ras := rfl
@[simp] theorem Dev.setBucket_gan (d : Dev) (p : Nat) (b : Bucket) : (d.setBucket p b).gan = d.gan := rfl
@[simp] theorem Dev.setBucket_hif (d : Dev) (p : Nat) (b : Bucket) : (d.setBucket p b).hif = { d.hif with buckets := tset d.hif.buckets p b } := rfl
@[simp] theorem Dev.setBucket_upsets (d : Dev) (p : Nat) (b : Bucket) : (d.setBucket p b).upsets = d.upsets := rfl
@[simp] theorem Dev.setBucket_free (d : Dev) (p : Nat) (b : Bucket) : (d.setBucket p b).free = d.free := rfl

@[simp] theorem Dev.popHead_time (d : Dev) (q : Nat) : (d.popHead q).time = d.time := rfl
@[simp] theorem Dev.popHead_latched (d : Dev) (q : Nat) : (d.popHead q).latched = d.latched := rfl
@[simp] theorem Dev.popHead_heldLow (d : Dev) (q : Nat) : (d.popHead q).heldLow = d.heldLow := rfl
@[simp] theorem Dev.popHead_stk (d : Dev) (q : Nat) : (d.popHead q).stk = d.stk := rfl
@[simp] theorem Dev.popHead_tram (d : Dev) (q : Nat) : (d.popHead q).tram = d.tram := rfl
@[simp] theorem Dev.popHead_sram (d : Dev) (q : Nat) : (d.popHead q).sram = d.sram := rfl
@[simp] theorem Dev.popHead_slots (d : Dev) (q : Nat) : (d.popHead q).slots = d.slots := rfl
@[simp] theorem Dev.popHead_host (d : Dev) (q : Nat) : (d.popHead q).host = d.host := rfl
@[simp] theorem Dev.popHead_tiles (d : Dev) (q : Nat) : (d.popHead q).tiles = d.tiles := rfl
@[simp] theorem Dev.popHead_henOps (d : Dev) (q : Nat) : (d.popHead q).henOps = d.henOps := rfl
@[simp] theorem Dev.popHead_nextHenOp (d : Dev) (q : Nat) : (d.popHead q).nextHenOp = d.nextHenOp := rfl
@[simp] theorem Dev.popHead_cs (d : Dev) (q : Nat) : (d.popHead q).cs = d.cs := rfl
@[simp] theorem Dev.popHead_sect (d : Dev) (q : Nat) : (d.popHead q).sect = d.sect := rfl
@[simp] theorem Dev.popHead_parts (d : Dev) (q : Nat) : (d.popHead q).parts = d.parts := rfl
@[simp] theorem Dev.popHead_layoutOn (d : Dev) (q : Nat) : (d.popHead q).layoutOn = d.layoutOn := rfl
@[simp] theorem Dev.popHead_srv (d : Dev) (q : Nat) : (d.popHead q).srv = d.srv := rfl
@[simp] theorem Dev.popHead_fab (d : Dev) (q : Nat) : (d.popHead q).fab = d.fab := rfl
@[simp] theorem Dev.popHead_pwr (d : Dev) (q : Nat) : (d.popHead q).pwr = d.pwr := rfl
@[simp] theorem Dev.popHead_thm (d : Dev) (q : Nat) : (d.popHead q).thm = d.thm := rfl
@[simp] theorem Dev.popHead_ras (d : Dev) (q : Nat) : (d.popHead q).ras = d.ras := rfl
@[simp] theorem Dev.popHead_gan (d : Dev) (q : Nat) : (d.popHead q).gan = d.gan := rfl
@[simp] theorem Dev.popHead_hif (d : Dev) (q : Nat) : (d.popHead q).hif = d.hif := rfl
@[simp] theorem Dev.popHead_upsets (d : Dev) (q : Nat) : (d.popHead q).upsets = d.upsets := rfl
@[simp] theorem Dev.popHead_free (d : Dev) (q : Nat) : (d.popHead q).free = d.free := rfl

end Sys2Proof.Machine
end

