-- ==== Sys2Proof/Laws/Tables.lean ====
section
/-! SUPPORT. Sparse tables and bit fields: reading what was written, and leaving the rest alone. None of these needs the keys
of a table to rise. -/

namespace Sys2Proof.Machine

/-! ## Sparse tables -/

@[simp] theorem tget_nil {α : Type} (d : α) (k : Nat) : tget [] d k = d := rfl

@[simp] theorem tget_tset_self {α : Type} (t : Tab α) (d v : α) (k : Nat) : tget (tset t k v) d k = v := by
  induction t with
  | nil => simp [tset, tget]
  | cons e t ih =>
    obtain ⟨k', v'⟩ := e
    unfold tset
    split
    · simp [tget]
    · split
      · simp [tget]
      · have h : (k' == k) = false := by simp; omega
        simp [tget, h, ih]

theorem tget_tset_ne {α : Type} (t : Tab α) (d v : α) {k j : Nat} (h : j ≠ k) : tget (tset t k v) d j = tget t d j := by
  have hk : (k == j) = false := by simpa using h.symm
  induction t with
  | nil => simp [tset, tget, hk]
  | cons e t ih =>
    obtain ⟨k', v'⟩ := e
    unfold tset
    split
    · simp [tget, hk]
    · split
      · rename_i _ hkk
        subst hkk
        simp [tget, hk]
      · simp only [tget, ih]

theorem tget_tset {α : Type} (t : Tab α) (d v : α) (k j : Nat) :
    tget (tset t k v) d j = if j = k then v else tget t d j := by
  split
  · subst_vars; simp
  · exact tget_tset_ne t d v ‹_›

@[simp] theorem tget_tmod_self {α : Type} (t : Tab α) (d : α) (k : Nat) (f : α → α) :
    tget (tmod t d k f) d k = f (tget t d k) := by simp [tmod]

theorem tget_tmod_ne {α : Type} (t : Tab α) (d : α) {k j : Nat} (f : α → α) (h : j ≠ k) :
    tget (tmod t d k f) d j = tget t d j := by simp [tmod, tget_tset_ne _ _ _ h]

theorem tfind_cons {α : Type} (k' : Nat) (v : α) (t : Tab α) (k : Nat) :
    tfind ((k', v) :: t) k = if k' = k then some v else tfind t k := by
  by_cases h : k' = k <;> simp [tfind, h]

@[simp] theorem tfind_tset_self {α : Type} (t : Tab α) (k : Nat) (v : α) : tfind (tset t k v) k = some v := by
  induction t with
  | nil => simp [tset, tfind_cons]
  | cons e t ih =>
    obtain ⟨k', v'⟩ := e
    unfold tset
    split
    · simp [tfind_cons]
    · split
      · simp [tfind_cons]
      · have h : k' ≠ k := by omega
        simp [tfind_cons, h, ih]

theorem tfind_tset_ne {α : Type} (t : Tab α) (v : α) {k j : Nat} (h : j ≠ k) : tfind (tset t k v) j = tfind t j := by
  have hk : k ≠ j := h.symm
  induction t with
  | nil => simp [tset, hk, tfind]
  | cons e t ih =>
    obtain ⟨k', v'⟩ := e
    unfold tset
    split
    · simp [tfind_cons, hk]
    · split
      · rename_i _ hkk
        subst hkk
        simp [tfind_cons, hk]
      · simp only [tfind_cons, ih]

/-! ## The register file -/

@[simp] theorem Dev.reg_setReg_self (d : Dev) (a : Nat) (v : W64) : (d.setReg a v).reg a = v := by
  simp [Dev.reg, Dev.setReg]

theorem Dev.reg_setReg_ne (d : Dev) {a b : Nat} (v : W64) (h : b ≠ a) : (d.setReg a v).reg b = d.reg b := by
  simp [Dev.reg, Dev.setReg, tfind_tset_ne _ _ h]

theorem Dev.reg_setReg (d : Dev) (a b : Nat) (v : W64) : (d.setReg a v).reg b = if b = a then v else d.reg b := by
  split
  · subst_vars; simp
  · exact d.reg_setReg_ne v ‹_›

@[simp] theorem Dev.reg_putF_self (d : Dev) (a : Nat) (f : Fld) (x : Nat) : (d.putF a f x).reg a = putFld (d.reg a) f x := by
  simp [Dev.putF]

theorem Dev.reg_putF_ne (d : Dev) {a b : Nat} (f : Fld) (x : Nat) (h : b ≠ a) : (d.putF a f x).reg b = d.reg b := by
  simp [Dev.putF, Dev.reg_setReg_ne _ _ h]

/-- A change of another part of the device leaves every register alone. -/
theorem Dev.reg_congr {d e : Dev} (h : d.regs = e.regs) (a : Nat) : d.reg a = e.reg a := by simp [Dev.reg, h]

/-! ## Fields -/

/-- A number cut at two places. -/
theorem nat_split (n lo len : Nat) :
    n = 2 ^ lo * (2 ^ len * (n / 2 ^ (lo + len)) + n / 2 ^ lo % 2 ^ len) + n % 2 ^ lo := by
  have h1 := Nat.div_add_mod n (2 ^ lo)
  have h2 := Nat.div_add_mod (n / 2 ^ lo) (2 ^ len)
  rw [Nat.div_div_eq_div_mul, ← pow_add] at h2
  rw [h2, h1]

/-- Bit by bit: a field written, the other bits as they were. -/
theorem putFld_getLsbD {w : Nat} (v : BitVec w) (f : Fld) (x i : Nat) (hf : f.lo + f.len ≤ w) :
    (putFld v f x).getLsbD i =
      if f.lo ≤ i ∧ i < f.lo + f.len then x.testBit (i - f.lo) else v.getLsbD i := by
  obtain ⟨lo, len⟩ := f
  simp only at hf ⊢
  set n := v.toNat with hn
  set q := n / 2 ^ (lo + len) with hq
  set m := n / 2 ^ lo % 2 ^ len with hm
  set l := n % 2 ^ lo with hl
  have hs : n = 2 ^ lo * (2 ^ len * q + m) + l := nat_split n lo len
  have hm' : m < 2 ^ len := Nat.mod_lt _ (by positivity)
  have hl' : l < 2 ^ lo := Nat.mod_lt _ (by positivity)
  have hx : x % 2 ^ len < 2 ^ len := Nat.mod_lt _ (by positivity)
  have hval : n - (n / 2 ^ lo % 2 ^ len) * 2 ^ lo + (x % 2 ^ len) * 2 ^ lo = 2 ^ lo * (2 ^ len * q + x % 2 ^ len) + l := by
    rw [← hm]
    have : n - m * 2 ^ lo = 2 ^ lo * (2 ^ len * q) + l := by
      conv_lhs => rw [hs]
      rw [Nat.mul_add, Nat.mul_comm m]
      omega
    rw [this]
    ring
  have hlt : n < 2 ^ w := v.isLt
  have hqlt : q < 2 ^ (w - (lo + len)) := by
    rw [hq, Nat.div_lt_iff_lt_mul (by positivity), ← pow_add]
    rwa [Nat.sub_add_cancel hf]
  have hlt2 : 2 ^ lo * (2 ^ len * q + x % 2 ^ len) + l < 2 ^ w := by
    have h1 : 2 ^ len * q + x % 2 ^ len < 2 ^ len * 2 ^ (w - (lo + len)) := by
      have : q + 1 ≤ 2 ^ (w - (lo + len)) := hqlt
      have := Nat.mul_le_mul_left (2 ^ len) this
      rw [Nat.mul_add] at this
      omega
    have h2 : 2 ^ lo * (2 ^ len * 2 ^ (w - (lo + len))) = 2 ^ w := by
      rw [← pow_add, ← pow_add]
      congr 1
      omega
    have := Nat.mul_le_mul_left (2 ^ lo) (Nat.succ_le_of_lt h1)
    rw [h2, Nat.mul_succ] at this
    omega
  have hbit : ∀ (k : Nat), k < 2 ^ len → (2 ^ lo * (2 ^ len * q + k) + l).testBit i =
      if i < lo then l.testBit i else if i < lo + len then k.testBit (i - lo) else q.testBit (i - lo - len) := by
    intro k hk
    rw [Nat.testBit_two_pow_mul_add _ hl']
    by_cases h1 : i < lo
    · simp [h1]
    · rw [if_neg h1, if_neg h1, Nat.testBit_two_pow_mul_add _ hk]
      by_cases h2 : i < lo + len
      · rw [if_pos h2, if_pos (by omega)]
      · rw [if_neg h2, if_neg (by omega)]
  have hv : v.getLsbD i = n.testBit i := rfl
  rw [hv]
  unfold putFld
  simp only [fld, bitsOf, Nat.shiftLeft_eq, Nat.shiftRight_eq_div_pow]
  rw [BitVec.getLsbD_ofNat]
  rw [← hn, hval, hbit _ hx, Nat.testBit_mod_two_pow]
  by_cases hi : i < w
  · have hnb := hbit m hm'
    rw [← hs] at hnb
    rw [hnb]
    by_cases h1 : i < lo
    · simp [h1, hi, show ¬ lo ≤ i by omega]
    · by_cases h2 : i < lo + len
      · simp [h1, h2, hi, show lo ≤ i by omega, show i - lo < len by omega]
      · simp [h1, h2, hi]
  · have h0 : n.testBit i = false := Nat.testBit_lt_two_pow (lt_of_lt_of_le hlt (Nat.pow_le_pow_right (by norm_num) (by omega)))
    simp [hi, h0]
    omega

/-- A field reads as it was written, cut to its width. -/
theorem fld_putFld_self {w : Nat} (v : BitVec w) (f : Fld) (x : Nat) (hf : f.lo + f.len ≤ w) :
    fld (putFld v f x) f = x % 2 ^ f.len := by
  apply Nat.eq_of_testBit_eq
  intro i
  simp only [fld, bitsOf, Nat.testBit_mod_two_pow, Nat.testBit_shiftRight]
  have h := putFld_getLsbD v f x (f.lo + i) hf
  rw [show (putFld v f x).toNat.testBit (f.lo + i) = (putFld v f x).getLsbD (f.lo + i) from rfl, h]
  by_cases hi : i < f.len
  · simp [hi]
  · simp [hi]

/-- A field that shares no bit with the one written reads as before. -/
theorem fld_putFld_ne {w : Nat} (v : BitVec w) (f g : Fld) (x : Nat) (hf : f.lo + f.len ≤ w)
    (h : g.lo + g.len ≤ f.lo ∨ f.lo + f.len ≤ g.lo) : fld (putFld v f x) g = fld v g := by
  apply Nat.eq_of_testBit_eq
  intro i
  simp only [fld, bitsOf, Nat.testBit_mod_two_pow, Nat.testBit_shiftRight]
  by_cases hi : i < g.len
  · have hb := putFld_getLsbD v f x (g.lo + i) hf
    rw [if_neg (by omega)] at hb
    rw [show (putFld v f x).toNat.testBit (g.lo + i) = (putFld v f x).getLsbD (g.lo + i) from rfl, hb]
    rfl
  · simp [hi]

theorem Dev.getF_putF_self (d : Dev) (a : Nat) (f : Fld) (x : Nat) (hf : f.lo + f.len ≤ 64) :
    (d.putF a f x).getF a f = x % 2 ^ f.len := by simp [Dev.getF, fld_putFld_self _ _ _ hf]

theorem Dev.getF_putF_field (d : Dev) (a : Nat) (f g : Fld) (x : Nat) (hf : f.lo + f.len ≤ 64)
    (h : g.lo + g.len ≤ f.lo ∨ f.lo + f.len ≤ g.lo) : (d.putF a f x).getF a g = d.getF a g := by
  simp [Dev.getF, fld_putFld_ne _ _ _ _ hf h]

theorem Dev.getF_putF_ne (d : Dev) {a b : Nat} (f g : Fld) (x : Nat) (h : b ≠ a) : (d.putF a f x).getF b g = d.getF b g := by
  simp [Dev.getF, Dev.reg_putF_ne _ _ _ h]

end Sys2Proof.Machine
end

