-- ==== Sys2Proof/Laws/Tiles.lean ====
section
/-! SUPPORT. What issuing a slot can do: the way is clear, the bundle may end, and nothing but the tile moves on. -/

namespace Sys2Proof.Machine

@[simp] theorem Dev.tile_modTile_self (d : Dev) (t : Nat) (f : Tile → Tile) : (d.modTile t f).tile t = f (d.tile t) := by
  simp [Dev.tile]

theorem Dev.tile_modTile_ne (d : Dev) {t u : Nat} (f : Tile → Tile) (h : u ≠ t) : (d.modTile t f).tile u = d.tile u := by
  simp [Dev.tile, tget_tmod_ne _ _ _ h]

theorem Dev.tile_congr {d e : Dev} (h : e.tiles = d.tiles) (t : Nat) : e.tile t = d.tile t := by simp [Dev.tile, h]

@[simp] theorem Dev.tile_modCmd (d : Dev) (c : Nat) (f : Cmd → Cmd) (t : Nat) : (d.modCmd c f).tile t = d.tile t := rfl
@[simp] theorem Dev.tile_setReg (d : Dev) (a : Nat) (v : W64) (t : Nat) : (d.setReg a v).tile t = d.tile t := rfl

/-! ## Where control goes when a bundle ends -/

theorem Tile.sameWork_refl (x : Tile) : x.sameWork x := by simp [Tile.sameWork]

theorem Tile.sameWork_trans {x y z : Tile} (h : x.sameWork y) (k : y.sameWork z) : x.sameWork z := by
  simp only [Tile.sameWork] at *
  obtain ⟨h1, h2, h3, h4, h5, h6, h7, h8, h9, h10, h11, h12, h13, h14, h15, h16⟩ := h
  obtain ⟨k1, k2, k3, k4, k5, k6, k7, k8, k9, k10, k11, k12, k13, k14, k15, k16⟩ := k
  exact ⟨k1.trans h1, k2.trans h2, k3.trans h3, k4.trans h4, k5.trans h5, k6.trans h6, k7.trans h7, k8.trans h8,
    k9.trans h9, k10.trans h10, k11.trans h11, k12.trans h12, k13.trans h13, k14.trans h14, k15.trans h15, k16.trans h16⟩

theorem Tile.sameWork_increment (x : Tile) (ts : List (Nat × Nat × Int)) (n : Nat) : x.sameWork (x.increment ts n) := by
  unfold Tile.increment
  induction ts generalizing x with
  | nil => exact x.sameWork_refl
  | cons e ts ih => exact Tile.sameWork_trans (y := x.setCursor e.1 e.2.1 _) (by simp [Tile.sameWork, Tile.setCursor]) (ih _)

theorem Tile.sameWork_restore (x : Tile) (ts : List (Nat × Nat × BitVec 32)) : x.sameWork (x.restore ts) := by
  unfold Tile.restore
  induction ts generalizing x with
  | nil => exact x.sameWork_refl
  | cons e ts ih => exact Tile.sameWork_trans (y := x.setCursor e.1 e.2.1 _) (by simp [Tile.sameWork, Tile.setCursor]) (ih _)

theorem Tile.sameWork_endOf (recs : Nat → BitVec 256) (n : Nat) (x : Tile) (b : Nat) : x.sameWork (x.endOf recs n b) := by
  induction n generalizing x with
  | zero => simp [Tile.endOf, Tile.sameWork]
  | succ n ih =>
    unfold Tile.endOf
    split
    · simp [Tile.sameWork]
    · rename_i l ls hl
      split
      · simp [Tile.sameWork]
      · cases hr : l.record with
        | none =>
          simp only
          split
          · simp [Tile.sameWork]
          · exact Tile.sameWork_trans (y := ({ x with loops := ls } : Tile))
              (by simp [Tile.sameWork]) (Tile.sameWork_trans (Tile.sameWork_restore _ _) (ih _))
        | some r =>
          simp only
          split
          · exact Tile.sameWork_trans (Tile.sameWork_increment x (triples x.args (recs r)) 1) (by simp [Tile.sameWork])
          · exact Tile.sameWork_trans (Tile.sameWork_increment x (triples x.args (recs r)) 1)
              (Tile.sameWork_trans (y := ({ x.increment (triples x.args (recs r)) 1 with loops := ls } : Tile))
                (by simp [Tile.sameWork]) (Tile.sameWork_trans (Tile.sameWork_restore _ _) (ih _)))

theorem Tile.endOf_no_loops (recs : Nat → BitVec 256) (n : Nat) (x : Tile) (b : Nat) (h : x.loops = []) :
    x.endOf recs n b = { x with bundle := b + 1 } := by
  cases n <;> simp [Tile.endOf, h]

/-! ## Slots -/

/-- A change of one tile leaves the others and the rest of the device alone. -/
theorem Dev.modTile_frame (d : Dev) (t : Nat) (f : Tile → Tile) :
    d.tilesBut (d.modTile t f) t ∧ d.onlyIn (d.modTile t f) [.tiles] := by
  refine ⟨fun u hu => Dev.tile_modTile_ne _ _ hu, ?_⟩
  intro c hc
  cases c <;> first | rfl | simp at hc

theorem Dev.onlyIn_trans {d e f : Dev} {cs : List Comp} (h : d.onlyIn e cs) (k : e.onlyIn f cs) : d.onlyIn f cs := by
  intro c hc
  have h1 := h c hc
  have h2 := k c hc
  cases c <;> exact Eq.trans h2 h1

theorem Dev.onlyIn_mono {d e : Dev} {cs ds : List Comp} (h : d.onlyIn e cs)
    (hs : ∀ c, cs.contains c = true → ds.contains c = true) : d.onlyIn e ds := by
  intro c hc
  apply h c
  cases hcs : cs.contains c
  · rfl
  · rw [hs c hcs] at hc
    exact absurd hc (by decide)

theorem Dev.tilesBut_trans {d e f : Dev} {t : Nat} (h : d.tilesBut e t) (k : e.tilesBut f t) : d.tilesBut f t :=
  fun u hu => (k u hu).trans (h u hu)

/-- A slot that has issued changes its tile only in where it stands. -/
theorem Dev.slotDone_frame (d : Dev) (t s : Nat) :
    (d.tile t).sameWork ((d.slotDone t s).tile t) ∧ ((d.tile t).loops = [] → ((d.slotDone t s).tile t).cursors = (d.tile t).cursors)
      ∧ d.tilesBut (d.slotDone t s) t ∧ d.onlyIn (d.slotDone t s) [.tiles] := by
  have f1 := d.modTile_frame t (fun x => { x with issued := s :: x.issued })
  unfold Dev.slotDone
  simp only
  split
  · have f2 := (d.modTile t (fun x => { x with issued := s :: x.issued })).modTile_frame t
      (fun x => { x with issued := [], written := [], preV := [] }.endOf
        ((d.modTile t (fun x => { x with issued := s :: x.issued })).recordOf t) 8 x.bundle)
    refine ⟨?_, ?_, Dev.tilesBut_trans f1.1 f2.1, Dev.onlyIn_trans f1.2 f2.2⟩
    · simp only [Dev.endBundle, Dev.tile_modTile_self]
      exact Tile.sameWork_trans (y := { d.tile t with issued := [], written := [], preV := [] })
        (by simp [Tile.sameWork]) (Tile.sameWork_endOf _ _ _ _)
    · intro h
      simp only [Dev.endBundle, Dev.tile_modTile_self]
      rw [Tile.endOf_no_loops]
      exact h
  · exact ⟨by simp [Tile.sameWork], by simp, f1.1, f1.2⟩

/-- The way is clear when the next slot holds a defined instruction. -/
theorem Dev.clearWay_ready (d : Dev) (t s : Nat) (n : Nat) (hn : (d.tile t).nextSlot (d.bundle t) = some s)
    (hd : wordReason s (slotWord (d.bundle t) s) = 0) : Dev.clearWay n d t = d := by
  cases n with
  | zero => rfl
  | succ n =>
    unfold Dev.clearWay
    simp only [hn, hd]
    split <;> simp

/-- Where no flipped bit stands, fetching a bundle finds nothing and changes nothing. -/
theorem Dev.fetch_clean {d : Dev} (h : d.upsets = []) (c : Cmd) (t : Nat) (b : BitVec 256) : d.fetch c t b = (d, false) := by
  have hk (rs : List Nat) : rs.foldl (fun d r => d.checkReg t r) d = d := by
    induction rs with
    | nil => rfl
    | cons r rs ih => rw [List.foldl_cons]; simpa [Dev.checkReg, h] using ih
  simp [Dev.fetch, Dev.readWords, h, hk]

/-- A word that its slot defines is no reason to skip. -/
theorem wordReason_defined {s : Nat} {w : W64} (hd : opDefined s (opOf w) = true) (hz : opOf w ≠ 0) : wordReason s w = 0 := by
  unfold wordReason
  simp [hd, hz]

/-- A tile about to issue a slot has come to it. -/
theorem Dev.atSlot_issuing {d : Dev} {t s op : Nat} {c : Cmd} {w : W64} (h : d.issuing t s op c w)
    (hd : wordReason s w = 0) : d.atSlot t s op = (d, some (c, w)) := by
  obtain ⟨h1, h2, h3, h4, h5, h6, h7, h8⟩ := h
  have hw : Dev.clearWay wayFuel d t = d := d.clearWay_ready t s wayFuel h4 (by rw [h5]; exact hd)
  unfold Dev.atSlot
  simp only [hw, h1, h2, h3, h4, h5, h6, h8, Dev.fetch_clean h7]
  simp

@[simp] theorem Dev.awaitLists_nil (d : Dev) (c : Cmd) (t : Nat) : d.awaitLists c t [] = (d, .ok true) := by
  simp [Dev.awaitLists]

/-- An instruction that nothing holds and nothing makes illegal is performed, and its slot has issued. -/
theorem Dev.issue_performs {d : Dev} {t s op : Nat} {c : Cmd} {w : W64}
    {reason : Dev → Cmd → W64 → Nat} {run : Dev → Cmd → W64 → Dev} {lists : Dev → Cmd → W64 → List (Nat × List (List Int))}
    (h : d.issuing t s op c w) (hd : wordReason s w = 0) (hl : reason d c w = 0)
    (ha : d.awaitLists c t (lists d c w) = (d, .ok true)) :
    d.issue t s op reason run lists = (run d c w).slotDone t s := by
  unfold Dev.issue
  have h7 := h.2.2.2.2.2.2.1
  simp [Dev.atSlot_issuing h hd, Dev.checkHandles, h7, hl, ha]

/-- An instruction that a reason of R123 makes illegal is skipped. -/
theorem Dev.issue_skips {d : Dev} {t s op : Nat} {c : Cmd} {w : W64}
    {reason : Dev → Cmd → W64 → Nat} {run : Dev → Cmd → W64 → Dev} {lists : Dev → Cmd → W64 → List (Nat × List (List Int))}
    (h : d.issuing t s op c w) (hd : wordReason s w = 0) (hl : reason d c w ≠ 0) :
    d.issue t s op reason run lists = (d.skip t s (reason d c w) w).slotDone t s := by
  unfold Dev.issue
  have h7 := h.2.2.2.2.2.2.1
  simp [Dev.atSlot_issuing h hd, Dev.checkHandles, h7, hl]

/-- A loop-slot instruction that moves control by itself runs when it is about to issue. -/
theorem Dev.branch_runs {d : Dev} {t op : Nat} {c : Cmd} {w : W64} {f : Dev → Cmd → W64 → Dev} (h : d.issuing t 3 op c w) :
    d.branch t op f = f d c w := by
  unfold Dev.branch
  rw [Dev.atSlot_issuing h (by simp [wordReason])]

/-- A bundle ended by its loop slot changes its tile only. -/
theorem Dev.jump_frame (d : Dev) (t : Nat) (f : Tile → Tile) :
    d.tilesBut (d.jump t f) t ∧ d.onlyIn (d.jump t f) [.tiles] := d.modTile_frame _ _

/-! ## Vector instructions -/

theorem Tile.now_setVreg_self (x : Tile) (r : Nat) (v : List Elem) : (x.setVreg r v).now r = v := by
  simp [Tile.now, Tile.setVreg]
theorem Tile.now_setVreg_ne (x : Tile) {r q : Nat} (v : List Elem) (h : q ≠ r) : (x.setVreg r v).now q = x.now q := by
  simp [Tile.now, Tile.setVreg, tget_tset_ne _ _ _ h]

/-- A register written and its slot done: the effect of every vector instruction with one result. -/
theorem Dev.putVreg_slotDone (d : Dev) (hu : d.upsets = []) (t s : Nat) (c : Cmd) (r : Nat) (es : List (Elem × Byte)) :
    d.vectorDone ((d.putVreg t c r es).slotDone t s) t c r (es.map (·.1)) (orAll (es.map (·.2))) := by
  have hf := (d.putVreg t c r es).slotDone_frame t s
  obtain ⟨hs, hc, hb, ho⟩ := hf
  have hp : d.putVreg t c r es = (d.modTile t (fun x => x.setVreg r (es.map (·.1)))).addFlags c.id (es.foldl (fun f e => f ||| e.2) 0) := by
    simp [Dev.putVreg, Dev.regDrop, Dev.dropWords, hu]
  have ht : (d.putVreg t c r es).tile t = (d.tile t).setVreg r (es.map (·.1)) := by simp [hp, Dev.addFlags]
  rw [ht] at hs hc
  simp only [Tile.sameWork] at hs
  refine ⟨?_, ⟨?_, ?_, ?_⟩, ?_, ?_, ?_⟩
  · simp only [Tile.now, hs.1]; exact Tile.now_setVreg_self _ _ _
  · intro q hq
    simp only [Tile.now, hs.1]; exact Tile.now_setVreg_ne _ _ (by simpa using hq)
  · simp only [Tile.sameWork]; simp [Tile.setVreg] at hs ⊢; simp_all
  · intro hl; exact hc hl
  · refine Dev.tilesBut_trans (e := d.putVreg t c r es) ?_ hb
    intro u hu
    simp only [hp, Dev.addFlags, Dev.tile_modCmd]
    exact Dev.tile_modTile_ne _ _ hu
  · have := ho .cq (by decide)
    simp only [Dev.agree] at this
    rw [this]
    simp [hp, Dev.addFlags, Cq.flagged, orAll, List.foldl_map]
  · refine Dev.onlyIn_trans (e := d.putVreg t c r es) ?_ (Dev.onlyIn_mono ho ?_)
    · rw [hp]; intro c hc; cases c <;> first | rfl | simp at hc
    · intro c; cases c <;> decide

/-- A ready instruction of the plain vector layout has its effect. -/
theorem Dev.vecIssue_done {s : State} {t : TileId} {op : Nat} {c : Cmd} {w : W64} {f}
    (h : s.dev.vectorReady t op c w) (hop : wordReason 1 w = 0) :
    let es := f ((s.dev.tile t).vreg (vA w)) ((s.dev.tile t).vreg (vB w)) ((s.dev.tile t).vreg (vC w))
    s.dev.vectorDone (s.dev.vecIssue t op 26 f) t c (vD w) (es.map (·.1)) (orAll (es.map (·.2))) := by
  obtain ⟨hi, hr, hw⟩ := h
  unfold Dev.vecIssue
  rw [Dev.issue_performs hi hop (by simp only [hr]; simp only [Dev.conflict]; simp_all) (by simp)]
  exact Dev.putVreg_slotDone _ hi.2.2.2.2.2.2.1 _ _ _ _ _

end Sys2Proof.Machine
end

