-- ==== Sys2Proof/Laws/Writes.lean ====
section
/-! SUPPORT. What the shared operations can do: for each named operation over registers, messages, error logs, memories and
write buffers, the parts of the device it may change (a frame, `Dev.onlyIn`), and that it keeps every memory in canonical
form. -/

namespace Sys2Proof.Machine

/-! ## Frames: composing them -/

theorem Dev.onlyIn_refl (d : Dev) (cs : List Comp) : d.onlyIn d cs := by
  intro c _
  cases c <;> rfl

/-- A change made only to parts that a longer list holds. -/
theorem Dev.onlyIn_sub {d e : Dev} {cs : List Comp} (ds : List Comp) (h : d.onlyIn e cs)
    (hs : cs.all (fun c => ds.contains c) = true) : d.onlyIn e ds := by
  refine Dev.onlyIn_mono h fun c hc => ?_
  exact List.all_eq_true.mp hs c (by simpa using hc)

theorem Dev.onlyIn_foldl {α : Type} {cs : List Comp} (f : Dev → α → Dev) (h : ∀ (d : Dev) a, d.onlyIn (f d a) cs) (l : List α)
    (d : Dev) : d.onlyIn (l.foldl f d) cs := by
  induction l generalizing d with
  | nil => exact d.onlyIn_refl cs
  | cons a l ih => exact Dev.onlyIn_trans (h d a) (ih (f d a))

theorem Dev.onlyIn_foldl_fst {α β : Type} {cs : List Comp} (f : Dev × β → α → Dev × β)
    (h : ∀ (p : Dev × β) a, p.1.onlyIn (f p a).1 cs) (l : List α) (p : Dev × β) : p.1.onlyIn (l.foldl f p).1 cs := by
  induction l generalizing p with
  | nil => exact p.1.onlyIn_refl cs
  | cons a l ih => exact Dev.onlyIn_trans (h p a) (ih (f p a))

/-- Whatever changes no memory keeps memories canonical. -/
theorem Dev.memWf_of_onlyIn {d e : Dev} {cs : List Comp} (h : d.onlyIn e cs)
    (hs : [Comp.stk, .tram, .sram, .slots, .host].all (fun c => !cs.contains c) = true) (hm : d.memWf) : e.memWf := by
  simp only [List.all_cons, List.all_nil, Bool.and_true, Bool.and_eq_true, Bool.not_eq_true'] at hs
  obtain ⟨h1, h2, h3, h4, h5⟩ := hs
  have k1 : e.stk = d.stk := h .stk h1
  have k2 : e.tram = d.tram := h .tram h2
  have k3 : e.sram = d.sram := h .sram h3
  have k4 : e.slots = d.slots := h .slots h4
  have k5 : e.host = d.host := h .host h5
  simpa only [Dev.memWf, k1, k2, k3, k4, k5] using hm

theorem Dev.memWf_foldl {α : Type} (f : Dev → α → Dev) (h : ∀ (d : Dev) a, d.memWf → (f d a).memWf) (l : List α) (d : Dev)
    (hd : d.memWf) : (l.foldl f d).memWf := by
  induction l generalizing d with
  | nil => exact hd
  | cons a l ih => exact ih (f d a) (h d a hd)

theorem Dev.memWf_foldl_fst {α β : Type} (f : Dev × β → α → Dev × β) (h : ∀ (p : Dev × β) a, p.1.memWf → (f p a).1.memWf) (l : List α)
    (p : Dev × β) (hp : p.1.memWf) : (l.foldl f p).1.memWf := by
  induction l generalizing p with
  | nil => exact hp
  | cons a l ih => exact ih (f p a) (h p a hp)

/-! ## Registers, messages and logs -/

theorem Dev.setReg_frame (d : Dev) (a : Nat) (v : W64) : d.onlyIn (d.setReg a v) [.regs] := by
  intro c hc
  cases c <;> first | rfl | simp at hc

theorem Dev.modReg_frame (d : Dev) (a : Nat) (f : W64 → W64) : d.onlyIn (d.modReg a f) [.regs] := d.setReg_frame _ _

theorem Dev.putF_frame (d : Dev) (a : Nat) (f : Fld) (x : Nat) : d.onlyIn (d.putF a f x) [.regs] := d.setReg_frame _ _

theorem Dev.addF_frame (d : Dev) (a : Nat) (f : Fld) (n : Nat) : d.onlyIn (d.addF a f n) [.regs] := d.setReg_frame _ _

theorem Dev.sendMsg_frame (d : Dev) (fv : Nat × Nat) : d.onlyIn (d.sendMsg fv) [.regs, .hif] := by
  intro c hc
  unfold Dev.sendMsg
  simp only
  repeat' split
  all_goals cases c <;> first | rfl | simp at hc

/-- The messages a rise of lines sends change the host interface and its counters only (R328). -/
theorem Dev.signal_frame (d e : Dev) : e.onlyIn (Dev.signal d e) [.regs, .hif] :=
  Dev.onlyIn_foldl _ (fun d a => d.sendMsg_frame a) _ e

/-- Raising an event changes registers and the host interface only. -/
theorem Dev.raise_frame (d : Dev) (page bits : Nat) : d.onlyIn (d.raise page bits) [.regs, .hif] :=
  Dev.onlyIn_trans (Dev.onlyIn_sub _ (d.modReg_frame _ _) (by decide)) (Dev.signal_frame _ _)

theorem Dev.txDrop_frame (d : Dev) : d.onlyIn d.txDrop [.regs, .hif] :=
  Dev.onlyIn_trans (Dev.onlyIn_sub _ (d.addF_frame _ _ _) (by decide)) (Dev.raise_frame _ _ _)

/-- An event-log record joins the gander's buffer or is counted as lost (R405). -/
theorem Dev.log_frame (d : Dev) (typ : Nat) (p : List Nat) : d.onlyIn (d.log typ p) [.regs, .hif, .gan] := by
  unfold Dev.log
  split
  · exact d.onlyIn_refl _
  · split
    · exact Dev.onlyIn_trans (Dev.onlyIn_sub _ (d.addF_frame _ _ _) (by decide)) (Dev.onlyIn_sub _ (Dev.raise_frame _ _ _) (by decide))
    · intro c hc
      cases c <;> first | rfl | simp at hc

theorem Dev.modStack_frame (d : Dev) (n : Nat) (f : Stack → Stack) : d.onlyIn (d.modStack n f) [.cs] := by
  intro c hc
  cases c <;> first | rfl | simp at hc

theorem Dev.checkThresh_frame (d : Dev) (n i : Nat) : d.onlyIn (d.checkThresh n i) [.regs, .hif, .cs] := by
  unfold Dev.checkThresh
  simp only
  split
  · exact Dev.onlyIn_trans (Dev.onlyIn_sub _ (d.modStack_frame _ _) (by decide)) (Dev.onlyIn_sub _ (Dev.raise_frame _ _ _) (by decide))
  · exact d.onlyIn_refl _

theorem Dev.countErr_frame (d : Dev) (n : Nat) (un : Bool) : d.onlyIn (d.countErr n un) [.regs, .hif] := by
  unfold Dev.countErr
  split
  · exact Dev.onlyIn_trans (Dev.onlyIn_sub _ (Dev.addF_frame _ _ _ _) (by decide)) (Dev.raise_frame _ _ _)
  · exact Dev.onlyIn_sub _ (Dev.addF_frame _ _ _ _) (by decide)

theorem Dev.logAgain_frame (d : Dev) (a syms src i : Nat) : d.onlyIn (d.logAgain a syms src i) [.regs, .hif, .cs] :=
  Dev.onlyIn_trans (Dev.onlyIn_sub _ (Dev.setReg_frame _ _ _) (by decide))
    (Dev.onlyIn_trans (Dev.onlyIn_sub _ (Dev.setReg_frame _ _ _) (by decide)) (Dev.checkThresh_frame _ _ _))

theorem Dev.logNew_frame (d : Dev) (a kind syms src i : Nat) : d.onlyIn (d.logNew a kind syms src i) [.regs, .hif, .cs] :=
  Dev.onlyIn_trans (Dev.onlyIn_sub _ (Dev.setReg_frame _ _ _) (by decide))
    (Dev.onlyIn_trans (Dev.onlyIn_sub _ (Dev.setReg_frame _ _ _) (by decide))
      (Dev.onlyIn_trans (Dev.onlyIn_sub _ (Dev.setReg_frame _ _ _) (by decide))
        (Dev.onlyIn_trans (Dev.onlyIn_sub _ (Dev.modStack_frame _ _ _) (by decide)) (Dev.checkThresh_frame _ _ _))))

theorem Dev.logEnter_frame (d : Dev) (a kind syms src : Nat) : d.onlyIn (d.logEnter a kind syms src) [.regs, .hif, .cs] := by
  unfold Dev.logEnter
  simp only
  split
  · exact d.logAgain_frame _ _ _ _
  · split
    · exact d.logNew_frame _ _ _ _ _
    · exact Dev.onlyIn_trans (Dev.onlyIn_sub _ (Dev.addF_frame _ _ _ _) (by decide))
        (Dev.onlyIn_sub _ (Dev.raise_frame _ _ _) (by decide))

/-- An error event of a stack is counted, logged and reported; no memory changes (R340). -/
theorem Dev.logErr_frame (d : Dev) (a kind syms src : Nat) :
    d.onlyIn (d.logErr a kind syms src) [.regs, .hif, .gan, .cs] := by
  have h : d.onlyIn ((d.countErr (stackOf a) (kind % 2 == 1)).logEnter a kind syms src) [.regs, .hif, .gan, .cs] :=
    Dev.onlyIn_trans (Dev.onlyIn_sub _ (Dev.countErr_frame _ _ _) (by decide))
      (Dev.onlyIn_sub _ (Dev.logEnter_frame _ _ _ _ _) (by decide))
  unfold Dev.logErr
  simp only
  split
  · exact Dev.onlyIn_trans h (Dev.onlyIn_sub _ (Dev.log_frame _ _ _) (by decide))
  · exact h

/-! ## Stack memory -/

theorem Dev.dropUpset_frame (d : Dev) (arr : SramArray) (u w : Nat) : d.onlyIn (d.dropUpset arr u w) [.upsets] := by
  intro c hc
  cases c <;> first | rfl | simp at hc

/-- Where only stack memory and parts that are no memory change, memories stay canonical as soon as stack memory does. -/
theorem Dev.memWf_stk {d e : Dev} {cs : List Comp} (h : d.onlyIn e cs)
    (hs : [Comp.tram, .sram, .slots, .host].all (fun c => !cs.contains c) = true) (hm : d.memWf) (hk : e.stk.wf = true) :
    e.memWf := by
  simp only [List.all_cons, List.all_nil, Bool.and_true, Bool.and_eq_true, Bool.not_eq_true'] at hs
  obtain ⟨h2, h3, h4, h5⟩ := hs
  have k2 : e.tram = d.tram := h .tram h2
  have k3 : e.sram = d.sram := h .sram h3
  have k4 : e.slots = d.slots := h .slots h4
  have k5 : e.host = d.host := h .host h5
  obtain ⟨_, m2, m3, m4, m5⟩ := hm
  exact ⟨hk, k2 ▸ m2, k3 ▸ m3, k4 ▸ m4, k5 ▸ m5⟩

theorem Memory.wf_setFlags {m : Memory} (h : m.wf = true) (f : GranFlag) (gs : List Nat) :
    (gs.foldl (fun m g => m.setFlag g f) m).wf = true := by
  induction gs generalizing m with
  | nil => exact h
  | cons g gs ih => exact ih (Memory.wf_setFlag h g f)

theorem Dev.setStk_frame (d : Dev) (m : Memory) : d.onlyIn { d with stk := m } [.stk] := by
  intro c hc
  cases c <;> first | rfl | simp at hc

/-- Two changes of stack memory in a row, each with its frame. -/
theorem Dev.frame_trans {d e f : Dev} {cs : List Comp} (h1 : d.onlyIn e cs ∧ (d.memWf → e.memWf))
    (h2 : e.onlyIn f cs ∧ (e.memWf → f.memWf)) : d.onlyIn f cs ∧ (d.memWf → f.memWf) :=
  ⟨Dev.onlyIn_trans h1.1 h2.1, fun hm => h2.2 (h1.2 hm)⟩

/-- Marking the granules of an uncorrectable bitmap word changes stack memory only, and keeps it canonical (R207). -/
theorem Dev.checkBitmap_frame (d : Dev) (g src : Nat) :
    d.onlyIn (d.checkBitmap g src) [.regs, .hif, .gan, .cs, .stk, .upsets]
      ∧ (d.memWf → (d.checkBitmap g src).memWf) := by
  have hl : ∀ (e : Dev) (k n : Nat), e.onlyIn (e.logErr g k n src) [.regs, .hif, .gan, .cs, .stk, .upsets]
      ∧ (e.memWf → (e.logErr g k n src).memWf) := fun e k n =>
    ⟨Dev.onlyIn_sub _ (Dev.logErr_frame _ _ _ _ _) (by decide), Dev.memWf_of_onlyIn (Dev.logErr_frame _ _ _ _ _) (by decide)⟩
  have hs : ∀ (e : Dev) (m : Memory), (e.memWf → m.wf = true) →
      e.onlyIn { e with stk := m } [.regs, .hif, .gan, .cs, .stk, .upsets] ∧ (e.memWf → Dev.memWf { e with stk := m }) :=
    fun e m h => ⟨Dev.onlyIn_sub _ (e.setStk_frame m) (by decide), fun hm => ⟨h hm, hm.2⟩⟩
  have hd := Dev.dropUpset_frame d .bitmapWord (stackOf g) (bitmapWordOf g)
  have h0 : d.onlyIn (d.dropUpset .bitmapWord (stackOf g) (bitmapWordOf g)) [.regs, .hif, .gan, .cs, .stk, .upsets]
      ∧ (d.memWf → (d.dropUpset .bitmapWord (stackOf g) (bitmapWordOf g)).memWf) :=
    ⟨Dev.onlyIn_sub _ hd (by decide), Dev.memWf_of_onlyIn hd (by decide)⟩
  unfold Dev.checkBitmap
  split
  · exact ⟨d.onlyIn_refl _, id⟩
  · simp only
    generalize d.dropUpset .bitmapWord (stackOf g) (bitmapWordOf g) = e at h0 ⊢
    split
    · exact Dev.frame_trans h0 (Dev.frame_trans (hs e _ fun hm => Memory.wf_setFlags hm.1 _ _) (hl _ _ _))
    · exact Dev.frame_trans h0 (hl _ _ _)

/-- A granule read for the first time as uncorrectable becomes the poison word: stack memory, its counters and logs change
(R206). -/
theorem Dev.poisonGran_frame (d : Dev) (g src : Nat) :
    d.onlyIn (d.poisonGran g src) [.regs, .hif, .gan, .cs, .stk] ∧ (d.memWf → (d.poisonGran g src).memWf) := by
  have h2 : ∀ e : Dev, e.onlyIn (((e.addF (rCsPoison (stackOf g)) fCsPoison_Written 1).raise (pgCs0 (stackOf g)) 8).logErr
      g 1 0xF src) [.regs, .hif, .gan, .cs] := fun e =>
    Dev.onlyIn_trans (Dev.onlyIn_sub _ (Dev.addF_frame _ _ _ _) (by decide))
      (Dev.onlyIn_trans (Dev.onlyIn_sub _ (Dev.raise_frame _ _ _) (by decide)) (Dev.logErr_frame _ _ _ _ _))
  unfold Dev.poisonGran
  simp only
  exact ⟨Dev.onlyIn_trans (Dev.onlyIn_sub _ (Dev.setStk_frame _ _) (by decide)) (Dev.onlyIn_sub _ (h2 _) (by decide)),
    fun hm => Dev.memWf_of_onlyIn (h2 _) (by decide) ⟨Memory.wf_setFlag (Memory.wf_clear hm.1 _ _) _ _, hm.2⟩⟩

theorem Dev.countPoisonRead_frame (d : Dev) (g : Nat) : d.onlyIn (d.countPoisonRead g) [.regs] := d.addF_frame _ _ _

/-- The interface transfer of an access spends its upsets, its counters and its event and may mark its stack; no memory
changes (R342). -/
theorem Dev.transfer_frame (d : Dev) (n : Nat) : d.onlyIn (d.transfer n).1 [.regs, .hif, .cs, .upsets] := by
  have hu : ∀ us : List Upset, d.onlyIn { d with upsets := us } [.regs, .hif, .cs, .upsets] := fun us c hc => by
    cases c <;> first | rfl | simp at hc
  have hs : ∀ (e : Dev) (f : Stack → Stack), e.onlyIn (e.modStack n f) [.regs, .hif, .cs, .upsets] := fun e f c hc => by
    cases c <;> first | rfl | simp at hc
  unfold Dev.transfer
  split
  · exact d.onlyIn_refl _
  · simp only
    split
    · exact Dev.onlyIn_trans (hu _) (Dev.onlyIn_sub _ (Dev.addF_frame _ _ _ _) (by decide))
    · exact Dev.onlyIn_trans (hu _) (Dev.onlyIn_trans (Dev.onlyIn_sub _ (Dev.addF_frame _ _ _ _) (by decide))
        (Dev.onlyIn_trans (Dev.onlyIn_sub _ (Dev.addF_frame _ _ _ _) (by decide))
          (Dev.onlyIn_trans (Dev.onlyIn_sub _ (Dev.raise_frame _ _ _) (by decide)) (hs _ _))))

/-- The parts that an access to stack memory may change. -/
abbrev stkComps : List Comp := [.regs, .hif, .gan, .cs, .stk, .upsets]

/-- A read of one granule changes only what its errors change, and keeps memories canonical (Table 7-9). -/
theorem Dev.readGran_frame (d : Dev) (src g : Nat) :
    d.onlyIn (d.readGran src g).1 stkComps ∧ (d.memWf → (d.readGran src g).1.memWf) := by
  have h1 : d.onlyIn (d.transfer (stackOf g)).1 stkComps ∧ (d.memWf → (d.transfer (stackOf g)).1.memWf) :=
    ⟨Dev.onlyIn_sub _ (Dev.transfer_frame _ _) (by decide), Dev.memWf_of_onlyIn (Dev.transfer_frame _ _) (by decide)⟩
  have hc : ∀ e : Dev, e.onlyIn (e.countPoisonRead g) stkComps ∧ (e.memWf → (e.countPoisonRead g).memWf) := fun e =>
    ⟨Dev.onlyIn_sub _ (Dev.countPoisonRead_frame _ _) (by decide),
      Dev.memWf_of_onlyIn (Dev.countPoisonRead_frame _ _) (by decide)⟩
  have hp : ∀ e : Dev, e.onlyIn (e.poisonGran g src) stkComps ∧ (e.memWf → (e.poisonGran g src).memWf) := fun e =>
    ⟨Dev.onlyIn_sub _ (Dev.poisonGran_frame _ _ _).1 (by decide), (Dev.poisonGran_frame _ _ _).2⟩
  have hl : ∀ (e : Dev) (n : Nat), e.onlyIn (e.logErr g 0 n src) stkComps ∧ (e.memWf → (e.logErr g 0 n src).memWf) :=
    fun e n => ⟨Dev.onlyIn_sub _ (Dev.logErr_frame _ _ _ _ _) (by decide),
      Dev.memWf_of_onlyIn (Dev.logErr_frame _ _ _ _ _) (by decide)⟩
  unfold Dev.readGran
  simp only
  generalize d.transfer (stackOf g) = t at h1 ⊢
  obtain ⟨t, ok⟩ := t
  have h2 := Dev.frame_trans h1 (t.checkBitmap_frame g src)
  simp only at h2 ⊢
  generalize t.checkBitmap g src = e at h2 ⊢
  have h3 := Dev.frame_trans h2 (hp e)
  generalize e.poisonGran g src = q at h3 ⊢
  split
  · exact hc d
  split
  · exact h1
  split
  · exact h2
  split
  · exact Dev.frame_trans h2 (hc e)
  split
  · exact h2
  split
  · exact Dev.frame_trans h2 (hl e _)
  split
  · exact h3
  split
  · exact h3
  · exact h2
  · exact h2

/-- A read of stack memory changes only what its errors change, and keeps memories canonical. -/
theorem Dev.readStk_frame (d : Dev) (src a n : Nat) :
    d.onlyIn (d.readStk src a n).1 stkComps ∧ (d.memWf → (d.readStk src a n).1.memWf) := by
  have h1 := Dev.onlyIn_foldl_fst (β := List Byte × Nat) (fun acc g => ((acc.1.readGran src g).1,
    acc.2.1 ++ (acc.1.readGran src g).2.1, max acc.2.2 (acc.1.readGran src g).2.2))
    (fun p g => (p.1.readGran_frame src g).1) (gransOf a n) (d, [], 0)
  have h2 := Dev.memWf_foldl_fst (β := List Byte × Nat) (fun acc g => ((acc.1.readGran src g).1,
    acc.2.1 ++ (acc.1.readGran src g).2.1, max acc.2.2 (acc.1.readGran src g).2.2))
    (fun p g => (p.1.readGran_frame src g).2) (gransOf a n) (d, [], 0)
  exact ⟨h1, h2⟩

/-- A whole granule written changes stack memory and what its errors change, and keeps memories canonical (R207, R342). -/
theorem Dev.writeWhole_frame (d : Dev) (g : Nat) (bs : List Byte) (poison : Bool) (bad : Nat) :
    d.onlyIn (d.writeWhole g bs poison bad) stkComps ∧ (d.memWf → (d.writeWhole g bs poison bad).memWf) := by
  have h1 : d.onlyIn (d.transfer (stackOf g)).1 stkComps ∧ (d.memWf → (d.transfer (stackOf g)).1.memWf) :=
    ⟨Dev.onlyIn_sub _ (Dev.transfer_frame _ _) (by decide), Dev.memWf_of_onlyIn (Dev.transfer_frame _ _) (by decide)⟩
  have hs : ∀ (e : Dev) (m : Memory), (e.memWf → m.wf = true) →
      e.onlyIn { e with stk := m } stkComps ∧ (e.memWf → Dev.memWf { e with stk := m }) :=
    fun e m h => ⟨Dev.onlyIn_sub _ (e.setStk_frame m) (by decide), fun hm => ⟨h hm, hm.2⟩⟩
  unfold Dev.writeWhole
  simp only
  generalize d.transfer (stackOf g) = t at h1 ⊢
  obtain ⟨t, ok⟩ := t
  have h2 := Dev.frame_trans h1 (t.checkBitmap_frame g 7)
  simp only at h2 ⊢
  generalize t.checkBitmap g 7 = e at h2 ⊢
  split
  · exact h1
  split
  · exact Dev.frame_trans h2 (hs e _ fun hm => Memory.wf_setFlag (Memory.wf_clear hm.1 _ _) _ _)
  · exact Dev.frame_trans h2 (hs e _ fun hm => Memory.wf_setFlag (Memory.wf_putBytes (Memory.wf_clear hm.1 _ _) _ _) _ _)

/-- A write of a piece of one granule changes stack memory and what its errors change, and keeps memories canonical
(Table 7-10). -/
theorem Dev.writeGran_frame (d : Dev) (a : Nat) (bs : List Byte) (poison : Bool) :
    d.onlyIn (d.writeGran a bs poison) stkComps ∧ (d.memWf → (d.writeGran a bs poison).memWf) := by
  unfold Dev.writeGran
  simp only
  split
  · exact ⟨d.onlyIn_refl _, id⟩
  · generalize hi : (if (bitsOf (d.reg rRasInject) 6 34 * 64 == granOf a && fld (d.reg rRasInject) fRasInject_Mode != 0) = true
        then d.putF rRasInject fRasInject_Mode 0 else d) = d1
    have h1 : d.onlyIn d1 stkComps ∧ (d.memWf → d1.memWf) := by
      rw [← hi]
      split
      · exact ⟨Dev.onlyIn_sub _ (Dev.putF_frame _ _ _ _) (by decide), Dev.memWf_of_onlyIn (Dev.putF_frame _ _ _ _) (by decide)⟩
      · exact ⟨d.onlyIn_refl _, id⟩
    have hr := d1.readGran_frame 7 (granOf a)
    split
    · exact Dev.frame_trans h1 (d1.writeWhole_frame _ _ _ _)
    · split
      · exact Dev.frame_trans h1 hr
      · exact ⟨Dev.onlyIn_trans h1.1 (Dev.onlyIn_trans hr.1 (Dev.onlyIn_sub _ (Dev.setStk_frame _ _) (by decide))), fun hm =>
          ⟨Memory.wf_setFlag (Memory.wf_putBytes (hr.2 (h1.2 hm)).1 _ _) _ _, (hr.2 (h1.2 hm)).2⟩⟩

/-- A write of stack memory changes stack memory and what its errors change, and keeps memories canonical. -/
theorem Dev.writeStk_frame (d : Dev) (a : Nat) (bs : List Byte) (poison : Bool) :
    d.onlyIn (d.writeStk a bs poison) stkComps ∧ (d.memWf → (d.writeStk a bs poison).memWf) := by
  unfold Dev.writeStk
  exact ⟨Dev.onlyIn_foldl (fun e (x : Nat × List Byte) => e.writeGran x.1 x.2 poison)
      (fun e x => (e.writeGran_frame x.1 x.2 poison).1) _ d,
    Dev.memWf_foldl (fun e (x : Nat × List Byte) => e.writeGran x.1 x.2 poison)
      (fun e x => (e.writeGran_frame x.1 x.2 poison).2) _ d⟩

/-! ## On-die SRAM -/

theorem Dev.readWord_frame (d : Dev) (arr : SramArray) (u w : Nat) :
    d.onlyIn (d.readWord arr u w).1 [.regs, .hif, .gan, .upsets] := by
  unfold Dev.readWord
  split
  · exact d.onlyIn_refl _
  · rename_i x _
    simp only
    have hu : d.onlyIn (if (x.ue && arr.keeps) = true then d else d.dropUpset arr u w) [.regs, .hif, .gan, .upsets] := by
      split
      · exact d.onlyIn_refl _
      · exact Dev.onlyIn_sub _ (Dev.dropUpset_frame d arr u w) (by decide)
    generalize (if (x.ue && arr.keeps) = true then d else d.dropUpset arr u w) = e at hu ⊢
    split
    · exact Dev.onlyIn_trans hu (Dev.onlyIn_trans (Dev.onlyIn_sub _ (Dev.addF_frame _ _ _ _) (by decide))
        (Dev.onlyIn_trans (Dev.onlyIn_sub _ (Dev.raise_frame _ _ _) (by decide))
          (Dev.onlyIn_sub _ (Dev.log_frame _ _ _) (by decide))))
    · exact Dev.onlyIn_trans hu (Dev.onlyIn_sub _ (Dev.addF_frame _ _ _ _) (by decide))

/-- Reading words of an on-die array changes no memory (R338, R339). -/
theorem Dev.readWords_frame (d : Dev) (arr : SramArray) (u : Nat) (ws : List Nat) :
    d.onlyIn (d.readWords arr u ws).1 [.regs, .hif, .gan, .upsets] := by
  unfold Dev.readWords
  split
  · exact d.onlyIn_refl _
  · exact Dev.onlyIn_foldl_fst (β := Bool) (fun acc w => ((acc.1.readWord arr u w).1, acc.2 || (acc.1.readWord arr u w).2))
      (fun p w => p.1.readWord_frame arr u w) _ (d, false)

/-- With no flipped bit standing, words read as they are. -/
theorem Dev.readWords_clean {d : Dev} (h : d.upsets = []) (arr : SramArray) (u : Nat) (ws : List Nat) :
    d.readWords arr u ws = (d, false) := by simp [Dev.readWords, h]

theorem Memory.wf_sramWriteGran {m : Memory} (h : m.wf = true) (a : Nat) (bs : List Byte) (poison : Bool) :
    (sramWriteGran m a bs poison).wf = true := by
  unfold sramWriteGran
  simp only
  split
  · exact Memory.wf_setFlag (Memory.wf_clear h _ _) _ _
  · split
    · exact Memory.wf_putBytes (Memory.wf_setFlag (Memory.wf_clear h _ _) _ _) _ _
    · split
      · exact h
      · exact Memory.wf_putBytes h _ _

/-- A write of SRAM keeps the memory canonical. -/
theorem Memory.wf_sramWrite {m : Memory} (h : m.wf = true) (a : Nat) (bs : List Byte) (poison : Bool) :
    (sramWrite m a bs poison).wf = true := by
  unfold sramWrite
  generalize cutGrans (bs.length + 1) a bs = l
  induction l generalizing m with
  | nil => exact h
  | cons x l ih => exact ih (Memory.wf_sramWriteGran h _ _ _)

/-- A granule of SRAM read: only its poison mark and what the words' errors change may change (Table 12-1). -/
theorem Dev.readSramGran_frame (d : Dev) (tile : Bool) (base u off : Nat) :
    d.onlyIn (d.readSramGran tile base u off).1 [.regs, .hif, .gan, .upsets, .tram, .sram]
      ∧ (d.memWf → (d.readSramGran tile base u off).1.memWf) := by
  unfold Dev.readSramGran
  simp only
  generalize hw : d.readWords _ u _ = r
  have h1 : d.onlyIn r.1 [.regs, .hif, .gan, .upsets] := by
    rw [← hw]
    exact Dev.readWords_frame _ _ _ _
  have m1 : d.memWf → r.1.memWf := Dev.memWf_of_onlyIn h1 (by decide)
  have h2 := Dev.onlyIn_sub [.regs, .hif, .gan, .upsets, .tram, .sram] h1 (by decide)
  have ht : ∀ (e : Dev) (m : Memory), e.onlyIn { e with tram := m } [.regs, .hif, .gan, .upsets, .tram, .sram] :=
    fun e m c hc => by cases c <;> first | rfl | simp at hc
  have hs : ∀ (e : Dev) (m : Memory), e.onlyIn { e with sram := m } [.regs, .hif, .gan, .upsets, .tram, .sram] :=
    fun e m c hc => by cases c <;> first | rfl | simp at hc
  have fin : ∀ (b : Bool) (x y : GranRead) (e : Dev), (if b = true then (e, x) else (e, y)).1 = e := by
    intro b x y e
    cases b <;> rfl
  rw [fin]
  split
  · exact ⟨h2, m1⟩
  · split
    · exact ⟨Dev.onlyIn_trans h2 (ht _ _), fun hm =>
        ⟨(m1 hm).1, Memory.wf_setFlag (m1 hm).2.1 _ _, (m1 hm).2.2⟩⟩
    · exact ⟨Dev.onlyIn_trans h2 (hs _ _), fun hm =>
        ⟨(m1 hm).1, (m1 hm).2.1, Memory.wf_setFlag (m1 hm).2.2.1 _ _, (m1 hm).2.2.2⟩⟩

/-- What SRAM writes and reads of its words may change. -/
abbrev sramComps : List Comp := [.regs, .hif, .gan, .upsets, .tram, .sram]

/-- Words about to be written: only upsets, what they change, and poison marks may change (R338). -/
theorem Dev.overwrite_frame (d : Dev) (tile : Bool) (a n : Nat) :
    d.onlyIn (d.overwrite tile a n) sramComps ∧ (d.memWf → (d.overwrite tile a n).memWf) := by
  have hd (e : Dev) (arr : SramArray) (u w : Nat) :
      e.onlyIn (e.dropUpset arr u w) sramComps ∧ (e.memWf → (e.dropUpset arr u w).memWf) :=
    ⟨Dev.onlyIn_sub _ (Dev.dropUpset_frame _ _ _ _) (by decide), Dev.memWf_of_onlyIn (Dev.dropUpset_frame _ _ _ _) (by decide)⟩
  unfold Dev.overwrite
  simp only
  split
  · exact ⟨d.onlyIn_refl _, id⟩
  · constructor
    · refine Dev.onlyIn_foldl _ (fun e w => ?_) _ d
      split
      · exact (hd _ _ _ _).1
      · exact (Dev.readSramGran_frame _ _ _ _ _).1
    · refine Dev.memWf_foldl _ (fun e w => ?_) _ d
      split
      · exact (hd _ _ _ _).2
      · exact (Dev.readSramGran_frame _ _ _ _ _).2

/-- A write of tile or sector SRAM changes it and what its words' errors change, and keeps memories canonical. -/
theorem Dev.writeSram_frame (d : Dev) (tile : Bool) (a : Nat) (bs : List Byte) (poison : Bool) :
    d.onlyIn (d.writeSram tile a bs poison) sramComps ∧ (d.memWf → (d.writeSram tile a bs poison).memWf) := by
  have h1 : d.onlyIn (if poison = true then d.overwrite tile (granOf a) 64 else d.overwrite tile a bs.length) sramComps
      ∧ (d.memWf → (if poison = true then d.overwrite tile (granOf a) 64 else d.overwrite tile a bs.length).memWf) := by
    split <;> exact Dev.overwrite_frame _ _ _ _
  have ht : ∀ (e : Dev) (m : Memory), e.onlyIn { e with tram := m } sramComps :=
    fun e m c hc => by cases c <;> first | rfl | simp at hc
  have hs : ∀ (e : Dev) (m : Memory), e.onlyIn { e with sram := m } sramComps :=
    fun e m c hc => by cases c <;> first | rfl | simp at hc
  unfold Dev.writeSram
  simp only
  generalize (if poison = true then d.overwrite tile (granOf a) 64 else d.overwrite tile a bs.length) = e at h1 ⊢
  split
  · exact Dev.frame_trans h1 ⟨ht _ _, fun hm => ⟨hm.1, Memory.wf_sramWrite hm.2.1 _ _ _, hm.2.2⟩⟩
  · exact Dev.frame_trans h1 ⟨hs _ _, fun hm => ⟨hm.1, hm.2.1, Memory.wf_sramWrite hm.2.2.1 _ _ _, hm.2.2.2⟩⟩

/-! ## Accesses that wait at a pseudo-channel (R202) -/

theorem Dev.sendOut_frame (d : Dev) (o : HostOut) : d.onlyIn (d.sendOut o) [.hif] := by
  intro c hc
  cases c <;> first | rfl | simp at hc

theorem Dev.blkErr_frame (d : Dev) (page : Nat) : d.onlyIn (d.blkErr page) [.regs] := d.addF_frame _ _ _

/-- The parts that accesses served at a pseudo-channel may change. -/
abbrev winComps : List Comp := [.regs, .hif, .gan, .cs, .stk, .upsets, .free]

/-- An access of the host performed: stack memory, its errors, and what the host is told (R173, R182). -/
theorem Dev.serve_frame (d : Dev) (a : Access) : d.onlyIn (d.serve a) winComps ∧ (d.memWf → (d.serve a).memWf) := by
  have hb : d.onlyIn (d.blkErr pgHif) winComps ∧ (d.memWf → (d.blkErr pgHif).memWf) :=
    ⟨Dev.onlyIn_sub _ (Dev.blkErr_frame _ _) (by decide), Dev.memWf_of_onlyIn (Dev.blkErr_frame _ _) (by decide)⟩
  have ho (e : Dev) (o : HostOut) : e.onlyIn (e.sendOut o) winComps ∧ (e.memWf → (e.sendOut o).memWf) :=
    ⟨Dev.onlyIn_sub _ (Dev.sendOut_frame _ _) (by decide), Dev.memWf_of_onlyIn (Dev.sendOut_frame _ _) (by decide)⟩
  have hr := d.readStk_frame 4 a.addr a.len
  unfold Dev.serve
  simp only
  split
  · split
    · exact hb
    · exact Dev.frame_trans hb (ho _ _)
  · split
    · exact ⟨Dev.onlyIn_sub _ (Dev.writeStk_frame _ _ _ _).1 (by decide), (Dev.writeStk_frame _ _ _ _).2⟩
    · refine Dev.frame_trans ⟨Dev.onlyIn_sub _ hr.1 (by decide), hr.2⟩ (Dev.frame_trans ?_ (ho _ _))
      split
      · exact ⟨Dev.onlyIn_refl _ _, id⟩
      · exact ⟨Dev.onlyIn_sub _ (Dev.addF_frame _ _ _ _) (by decide), Dev.memWf_of_onlyIn (Dev.addF_frame _ _ _ _) (by decide)⟩

theorem Dev.noteWait_frame (d : Dev) (n w : Nat) : d.onlyIn (d.noteWait n w) [.regs, .free] := by
  have hf : d.onlyIn { d with free := d.free + 1 } [.regs, .free] := fun c hc => by cases c <;> first | rfl | simp at hc
  exact Dev.onlyIn_trans hf (Dev.onlyIn_sub _ (Dev.putF_frame _ _ _ _) (by decide))

/-- Accesses that wait are served before an engine's (R202): what they change, and how long each waited. -/
theorem Dev.inWindow_frame (d : Dev) (l : Nat) : d.onlyIn (d.inWindow l) winComps ∧ (d.memWf → (d.inWindow l).memWf) := by
  have hw (e : Dev) (n w : Nat) : e.onlyIn (e.noteWait n w) winComps ∧ (e.memWf → (e.noteWait n w).memWf) :=
    ⟨Dev.onlyIn_sub _ (Dev.noteWait_frame _ _ _) (by decide), Dev.memWf_of_onlyIn (Dev.noteWait_frame _ _ _) (by decide)⟩
  have hq (e : Dev) (n p : Nat) (q : List Access) :
      e.onlyIn (e.setQueued n p q) winComps ∧ (e.memWf → (e.setQueued n p q).memWf) :=
    ⟨Dev.onlyIn_sub _ (Dev.modStack_frame _ _ _) (by decide), Dev.memWf_of_onlyIn (Dev.modStack_frame _ _ _) (by decide)⟩
  have ha (e : Dev) (a : Nat) (f : Fld) (n : Nat) : e.onlyIn (e.addF a f n) winComps ∧ (e.memWf → (e.addF a f n).memWf) :=
    ⟨Dev.onlyIn_sub _ (Dev.addF_frame _ _ _ _) (by decide), Dev.memWf_of_onlyIn (Dev.addF_frame _ _ _ _) (by decide)⟩
  have hf (n : Nat) (as : List Access) (e : Dev) :
      e.onlyIn (as.foldl (fun d a => (d.noteWait n a.windows).serve a) e) winComps
        ∧ (e.memWf → (as.foldl (fun d a => (d.noteWait n a.windows).serve a) e).memWf) := by
    have hs (e : Dev) (a : Access) : e.onlyIn ((e.noteWait n a.windows).serve a) winComps
        ∧ (e.memWf → ((e.noteWait n a.windows).serve a).memWf) :=
      Dev.frame_trans (hw e n a.windows) (Dev.serve_frame (e.noteWait n a.windows) a)
    exact ⟨Dev.onlyIn_foldl (fun (d : Dev) (a : Access) => (d.noteWait n a.windows).serve a) (fun e a => (hs e a).1) as e,
      Dev.memWf_foldl (fun (d : Dev) (a : Access) => (d.noteWait n a.windows).serve a) (fun e a => (hs e a).2) as e⟩
  unfold Dev.inWindow
  simp only
  split
  · exact ⟨d.onlyIn_refl _, id⟩
  · generalize ((if d.henBusy (stackOf l) (pcOf l) = true then _ else 0) + _ : Nat) = n
    have h1 := Dev.frame_trans (Dev.frame_trans (hq d (stackOf l) (pcOf l) []) (ha _ (rCsWinWait (stackOf l)) fCsWinWait_Defer n))
      (hf (stackOf l) (afterWindows (d.queued (stackOf l) (pcOf l))) _)
    split
    · exact Dev.frame_trans h1 (hw _ _ _)
    · exact h1

/-- With nothing waiting at a pseudo-channel and no hen running there, an access is served directly (R202). -/
theorem Dev.inWindow_quiet {d : Dev} {l : Nat} (hq : d.queued (stackOf l) (pcOf l) = [])
    (hb : d.henBusy (stackOf l) (pcOf l) = false) : d.inWindow l = d := by
  simp [Dev.inWindow, hq, hb]

/-! ## Any location -/

/-- The parts that a read by an engine may change: counters, logs and events of the errors it meets, the poison they leave, and
what the accesses it waits behind change. -/
abbrev readComps : List Comp := [.regs, .hif, .gan, .cs, .stk, .upsets, .tram, .sram, .free]

theorem Dev.readHomeGran_frame (d : Dev) (src g : Nat) :
    d.onlyIn (d.readHomeGran src g).1 readComps ∧ (d.memWf → (d.readHomeGran src g).1.memWf) := by
  unfold Dev.readHomeGran
  simp only
  split
  · exact Dev.frame_trans ⟨Dev.onlyIn_sub _ (Dev.inWindow_frame _ _).1 (by decide), (Dev.inWindow_frame _ _).2⟩
      ⟨Dev.onlyIn_sub _ (Dev.readGran_frame _ _ _).1 (by decide), (Dev.readGran_frame _ _ _).2⟩
  · split
    · exact ⟨Dev.onlyIn_sub _ (Dev.readSramGran_frame _ _ _ _ _).1 (by decide), (Dev.readSramGran_frame _ _ _ _ _).2⟩
    · split
      · exact ⟨Dev.onlyIn_sub _ (Dev.readSramGran_frame _ _ _ _ _).1 (by decide), (Dev.readSramGran_frame _ _ _ _ _).2⟩
      · split
        · exact ⟨d.onlyIn_refl _, id⟩
        · exact ⟨d.onlyIn_refl _, id⟩

/-- A read by an engine, at the homes and under its sector's write buffer, changes only what errors change, and keeps
memories canonical (R153). -/
theorem Dev.readBy_frame (d : Dev) (k src a n : Nat) :
    d.onlyIn (d.readBy k src a n).1 readComps ∧ (d.memWf → (d.readBy k src a n).1.memWf) := by
  have h1 := Dev.onlyIn_foldl_fst (β := List Byte × Nat) (fun acc g => ((acc.1.readHomeGran src g).1,
    acc.2.1 ++ (overlay ((acc.1.readHomeGran src g).1.wbuf k) g (acc.1.readHomeGran src g).2).1,
    max acc.2.2 (overlay ((acc.1.readHomeGran src g).1.wbuf k) g (acc.1.readHomeGran src g).2).2))
    (fun p g => (p.1.readHomeGran_frame src g).1) (gransOf a n) (d, [], 0)
  have h2 := Dev.memWf_foldl_fst (β := List Byte × Nat) (fun acc g => ((acc.1.readHomeGran src g).1,
    acc.2.1 ++ (overlay ((acc.1.readHomeGran src g).1.wbuf k) g (acc.1.readHomeGran src g).2).1,
    max acc.2.2 (overlay ((acc.1.readHomeGran src g).1.wbuf k) g (acc.1.readHomeGran src g).2).2))
    (fun p g => (p.1.readHomeGran_frame src g).2) (gransOf a n) (d, [], 0)
  exact ⟨h1, h2⟩

theorem Dev.modCmd_frame (d : Dev) (c : Nat) (f : Cmd → Cmd) : d.onlyIn (d.modCmd c f) [.cq] := by
  intro c hc
  cases c <;> first | rfl | simp at hc

/-- A command that fails changes itself and its tiles (R59). -/
theorem Dev.failCmd_frame (d : Dev) (c status handle vaddr : Nat) :
    d.onlyIn (d.failCmd c status handle vaddr) [.cq, .tiles] := by
  intro c hc
  cases c <;> first | rfl | simp at hc

theorem Dev.notePoison_frame (d : Dev) (c : Option Nat) : d.onlyIn (d.notePoison c) [.cq] := by
  unfold Dev.notePoison
  split
  · exact d.onlyIn_refl _
  · exact d.modCmd_frame _ _

/-- A posted write to a host window: the image of host memory, or the drop and the failure of its command (R176, R428). -/
theorem Dev.hostWrite_frame (d : Dev) (w : PWrite) :
    d.onlyIn (d.hostWrite w) [.regs, .hif, .cq, .tiles, .host] ∧ (d.memWf → (d.hostWrite w).memWf) := by
  have hh : ∀ (e : Dev) (m : Memory), e.onlyIn { e with host := m } [.regs, .hif, .cq, .tiles, .host] :=
    fun e m c hc => by cases c <;> first | rfl | simp at hc
  unfold Dev.hostWrite
  simp only
  split
  · have h1 := Dev.onlyIn_sub [.regs, .hif, .cq, .tiles, .host] d.txDrop_frame (by decide)
    split
    · exact ⟨h1, Dev.memWf_of_onlyIn d.txDrop_frame (by decide)⟩
    · exact ⟨Dev.onlyIn_trans h1 (Dev.onlyIn_sub _ (Dev.failCmd_frame _ _ _ _ _) (by decide)), fun hm =>
        Dev.memWf_of_onlyIn (Dev.failCmd_frame _ _ _ _ _) (by decide) (Dev.memWf_of_onlyIn d.txDrop_frame (by decide) hm)⟩
  · generalize hp : (if w.poison = true then d.addF rHifPoisonTx fHifPoisonTx_Cnt 1 else d) = d1
    have h1 : d.onlyIn d1 [.regs] := by
      rw [← hp]
      split
      · exact d.addF_frame _ _ _
      · exact d.onlyIn_refl _
    have m1 : d.memWf → d1.memWf := Dev.memWf_of_onlyIn h1 (by decide)
    refine ⟨Dev.onlyIn_trans (Dev.onlyIn_sub _ h1 (by decide))
      (Dev.onlyIn_trans (hh _ _) (Dev.onlyIn_sub _ (Dev.sendOut_frame _ _) (by decide))), fun hm => ?_⟩
    exact Dev.memWf_of_onlyIn (Dev.sendOut_frame _ _) (by decide)
      ⟨(m1 hm).1, (m1 hm).2.1, (m1 hm).2.2.1, (m1 hm).2.2.2.1, Memory.wf_putBytes (m1 hm).2.2.2.2 _ _⟩

/-- The parts that a write at its home may change. -/
abbrev writeComps : List Comp :=
  [.regs, .hif, .gan, .cs, .stk, .upsets, .tram, .sram, .slots, .host, .cq, .tiles, .free]

/-- A write at its home changes memories, its command and what its errors change, and keeps memories canonical. -/
theorem Dev.writeHome_frame (d : Dev) (w : PWrite) :
    d.onlyIn (d.writeHome w) writeComps ∧ (d.memWf → (d.writeHome w).memWf) := by
  have hl : ∀ (e : Dev) (m : Memory), e.onlyIn { e with slots := m } writeComps :=
    fun e m c hc => by cases c <;> first | rfl | simp at hc
  have key : ∀ (e : Dev) (v : PWrite), d.onlyIn e writeComps ∧ (d.memWf → e.memWf) →
      d.onlyIn (if isStk v.addr then (e.inWindow v.addr).writeStk v.addr v.data v.poison
        else if isTram v.addr then e.writeSram true (v.addr - 2 ^ 48) v.data v.poison
        else if isSram v.addr then e.writeSram false (v.addr - 2 ^ 49) v.data v.poison
        else { e with slots := e.slots.putBytes (v.addr - 2 ^ 50) v.data }) writeComps
      ∧ (d.memWf → Dev.memWf (if isStk v.addr then (e.inWindow v.addr).writeStk v.addr v.data v.poison
        else if isTram v.addr then e.writeSram true (v.addr - 2 ^ 48) v.data v.poison
        else if isSram v.addr then e.writeSram false (v.addr - 2 ^ 49) v.data v.poison
        else { e with slots := e.slots.putBytes (v.addr - 2 ^ 50) v.data })) := by
    intro e v h2
    split
    · exact Dev.frame_trans h2 (Dev.frame_trans
        ⟨Dev.onlyIn_sub _ (Dev.inWindow_frame _ _).1 (by decide), (Dev.inWindow_frame _ _).2⟩
        ⟨Dev.onlyIn_sub _ (Dev.writeStk_frame _ _ _ _).1 (by decide), (Dev.writeStk_frame _ _ _ _).2⟩)
    · split
      · exact Dev.frame_trans h2 ⟨Dev.onlyIn_sub _ (Dev.writeSram_frame _ _ _ _ _).1 (by decide), (Dev.writeSram_frame _ _ _ _ _).2⟩
      · split
        · exact Dev.frame_trans h2 ⟨Dev.onlyIn_sub _ (Dev.writeSram_frame _ _ _ _ _).1 (by decide), (Dev.writeSram_frame _ _ _ _ _).2⟩
        · exact Dev.frame_trans h2 ⟨hl _ _, fun hm =>
            ⟨hm.1, hm.2.1, hm.2.2.1, Memory.wf_putBytes hm.2.2.2.1 _ _, hm.2.2.2.2⟩⟩
  have h0 : d.onlyIn (if w.poison then d.notePoison w.cmd else d) [.cq] := by
    split
    · exact d.notePoison_frame _
    · exact d.onlyIn_refl _
  unfold Dev.writeHome
  simp only
  generalize (if w.poison then d.notePoison w.cmd else d) = d1 at h0 ⊢
  have h1 : d.onlyIn d1 writeComps ∧ (d.memWf → d1.memWf) :=
    ⟨Dev.onlyIn_sub writeComps h0 (by decide), Dev.memWf_of_onlyIn h0 (by decide)⟩
  split
  · exact ⟨Dev.onlyIn_trans h1.1 (Dev.onlyIn_sub _ (d1.hostWrite_frame w).1 (by decide)),
      fun hm => (d1.hostWrite_frame w).2 (h1.2 hm)⟩
  · cases w.nibble with
    | none => exact key d1 w h1
    | some hi =>
      exact key (d1.readHomeGran 7 (granOf w.addr)).1 { w with
          nibble := none
          data := [nibbleMerge hi ((d1.readHomeGran 7 (granOf w.addr)).2.1.getD (w.addr % 64) 0) (w.data.headD 0)] }
        (Dev.frame_trans h1
          ⟨Dev.onlyIn_sub _ (d1.readHomeGran_frame 7 (granOf w.addr)).1 (by decide), (d1.readHomeGran_frame 7 (granOf w.addr)).2⟩)

theorem Dev.modSect_frame (d : Dev) (k : Nat) (f : Sector → Sector) : d.onlyIn (d.modSect k f) [.sect] := by
  intro c hc
  cases c <;> first | rfl | simp at hc

/-- The parts that a write by an engine may change: those of its home, or its sector's write buffer (R153). -/
abbrev engineComps : List Comp :=
  [.regs, .hif, .gan, .cs, .stk, .upsets, .tram, .sram, .slots, .host, .cq, .tiles, .sect, .free]

theorem Dev.writeBy_frame (d : Dev) (k : Nat) (w : PWrite) :
    d.onlyIn (d.writeBy k w) engineComps ∧ (d.memWf → (d.writeBy k w).memWf) := by
  unfold Dev.writeBy
  split
  · exact ⟨Dev.onlyIn_sub _ (Dev.writeHome_frame _ _).1 (by decide), (Dev.writeHome_frame _ _).2⟩
  · generalize hp : (if w.poison = true then d.notePoison w.cmd else d) = d1
    have h0 : d.onlyIn d1 [.cq] := by
      rw [← hp]
      split
      · exact d.notePoison_frame _
      · exact d.onlyIn_refl _
    exact ⟨Dev.onlyIn_trans (Dev.onlyIn_sub _ h0 (by decide)) (Dev.onlyIn_sub _ (Dev.modSect_frame _ _ _) (by decide)),
      fun hm => Dev.memWf_of_onlyIn (Dev.modSect_frame _ _ _) (by decide) (Dev.memWf_of_onlyIn h0 (by decide) hm)⟩

theorem Dev.drainOne_frame (d : Dev) (k g : Nat) :
    d.onlyIn (d.drainOne k g) engineComps ∧ (d.memWf → (d.drainOne k g).memWf) := by
  unfold Dev.drainOne
  split
  · exact ⟨d.onlyIn_refl _, id⟩
  · exact ⟨Dev.onlyIn_trans (Dev.onlyIn_sub _ (Dev.modSect_frame _ _ _) (by decide))
        (Dev.onlyIn_sub _ (Dev.writeHome_frame _ _).1 (by decide)),
      fun hm => (Dev.writeHome_frame _ _).2 (Dev.memWf_of_onlyIn (Dev.modSect_frame _ _ _) (by decide) hm)⟩

/-- Draining a sector's write buffer changes memories, the commands whose writes fail, and what errors change. -/
theorem Dev.drainAll_frame (d : Dev) (k : Nat) :
    d.onlyIn (d.drainAll k) engineComps ∧ (d.memWf → (d.drainAll k).memWf) := by
  unfold Dev.drainAll
  exact ⟨Dev.onlyIn_trans (Dev.onlyIn_sub _ (Dev.modSect_frame _ _ _) (by decide))
      (Dev.onlyIn_foldl (fun e w => e.writeHome w) (fun e w => Dev.onlyIn_sub _ (Dev.writeHome_frame e w).1 (by decide)) _ _),
    fun hm => Dev.memWf_foldl (fun e w => e.writeHome w) (fun e w => (Dev.writeHome_frame e w).2) _ _
      (Dev.memWf_of_onlyIn (Dev.modSect_frame _ _ _) (by decide) hm)⟩

end Sys2Proof.Machine
end

