-- ==== Sys2Proof/WellFormed.lean ====
section
/-! DEFINITION. Which commands are well formed: the operands are ones the outside world can give (a unit that exists, a
list with one element for each sensor it stands for, an access of a size that a bus can carry). Every meaning is total and
says what happens to an ill-formed operand too. -/

namespace Sys2Proof

/-- A unit of Table 12-9 with a number that Table 1-1 has (01_device_at_work.md R11). -/
def UnitId.wf (u : UnitId) : Bool :=
  match u.kind with
  | .tile => u.index < 144
  | .dma => u.index < 24
  | .hen => u.index < 384
  | .stack => u.index < 12
  | .link => u.index < 96
  | .sector => u.index < 6

/-- No entry is named twice. -/
def distinctEntries : List EntryId → Bool
  | [] => true
  | e :: es => !es.contains e && distinctEntries es

/-- Well-formed commands. -/
def Instr.wf (i : Instr) : Bool :=
  match i with
  | .queueRecordWrite _f off data => off % 4 == 0 && !data.isEmpty
  | .commandHang _c hung => hung.all UnitId.wf
  | .submit _f _off data => !data.isEmpty
  | .cancel _f _off data => !data.isEmpty
  | .answerRead _f _off len => 0 < len
  | .decodeStep _p _s results => distinctEntries (results.map (·.entry))
  | .prefillSlice _p results => distinctEntries (results.map (·.entry))
  | .srvAdmParamWrite _f off _v => 0xC00100 ≤ off && off < 0xC00400 && off % 4 == 0
  | .linkTrained _i peer => peer.gen < 16 && peer.fid < 1024 && peer.link < 96
  | .slotRx _n granules => !granules.isEmpty
  | .resetRetrainDone _p failed => failed.all UnitId.wf
  | .suspectReplay _p _status hung => hung.all UnitId.wf
  | .vfFlr v => v != 0
  | .vfFlrEscalate v => v != 0
  | .blkIntForce _f page _v => page % 4096 == 0
  | .errClr _f page _v => page % 4096 == 0
  | .lowWordRead _f r => [4, 8].contains r.size
  | .registerWrite _f _off size _v => [1, 2, 4, 8].contains size
  | .bar4Read _f _off len => 0 < len && len ≤ 4096
  | .bar4Write _f _off data => !data.isEmpty && data.length ≤ 512
  | .writeBufferDrain _k gran => gran % 64 == 0
  | .stackTempSample _n readings => readings.length == 13
  | .railsGood failed => failed.all UnitId.wf
  | .linkUp rate width _flit _reversed => rate < 16 && width < 16
  | .poisonedTlp _f bar _off _data => [0, 2, 4].contains bar
  | .wakeDone failed => failed.all UnitId.wf
  | .thermalSample _diode monitors => monitors.length == 72
  | .recalibration _diode monitors => monitors.length == 72
  | .powerSample _package rails => rails.length == 6
  | .getMeasurements _b indices _signed _nonce => !indices.isEmpty
  | .requestFirmwareData _off data => !data.isEmpty && data.length ≤ 4096
  | .mma _ | .mmaProductsLand _ | .mrd _ | .vadd _ | .vmul _ | .vfma _ | .vmax _ | .vmin _ | .vrcp _ | .vrsq _ | .vexp2 _
  | .vlog2 _ | .vpair _ | .vpmaxi _ | .vimm _ | .xadd _ | .xrd _ | .vld _ | .vst _ | .move _ | .moveComplete _ _
  | .atomicPerform _ | .msend _ | .msendArrival _ _ | .hgemm _ | .hattn _ | .hsoftmax _ | .hreduce _ | .henStart _
  | .henRowStep _ | .hattnExchange _ | .henOpFinish _ | .loop _ | .call _ | .ret _ | .wait _ | .barrier _
  | .barrierRelease _ | .spread _ | .cset _ | .endProgram _ | .nop _ | .runProgram _ | .copy _ | .libLoad _
  | .libLoadVerify _ | .modelLoad _ | .modelLoadCheck _ | .modelEvict _ | .slotEvicted _ | .deltaPut _ | .deltaPutCheck _
  | .deltaRetire _ | .adaptStep _ | .pageRetire _ | .powerState _ | .fenceEpoch _ | .epochImageCheck _ | .epochCommit
  | .commandComplete _ | .completionRecordWrite _ | .moderationTimer _ | .commandTimeout _ | .cqQCfg _ _ _ | .cqRCfg _ _ _
  | .cqRHead _ _ _ | .setupDone _ | .servingCycle _ | .tokenHandover _ | .requestRecordWrite _ | .flush _ _ _
  | .srvAdmPool _ _ _ | .srvRtSel _ _ | .srvDeltaSel _ _ | .srvLateMaxClr _ _ _ | .fabLinkEn _ _ _ | .retrain _ _ _
  | .retire _ _ _ | .trainTimeout _ | .linkRetry _ | .laneLoss _ _ | .fecLimit _ _ | .beatBoundary | .paceWord _ _
  | .bend _ _ _ | .bendDeadline _ | .notice _ _ | .slotTx _ | .rootTimeout | .timeLost | .foldCommandStart _
  | .sectPartLayout _ _ | .layoutDone | .partitionReset _ | .stackReadyTimeout _ | .resetEnd _ | .sliceBoundary _
  | .sectSliceCtrl _ _ _ | .pfFlr | .serviceWindow _ _ | .refreshPeriod _ _ | .bitmapClearDone _ | .scrubStep _ _
  | .csTempMaxClr _ _ _ | .csWinWaitClr _ _ _ | .returnUnit _ _ | .rasUnitSel _ _ | .rasSuspSel _ _ | .rasInject _ _
  | .powerOn | .powerOnComplete | .perstN | .hotReset | .dlDown | .hostReadCompletion _ _ _ | .completionTimeout _
  | .atomicopRequest _ | .ioRequest _ | .ideInsecure | .entered | .wake _ _ | .padRelease _ _ | .shutdown _ _ | .supplySag
  | .saveEnd | .rateUpdate | .droop _ _ | .droopHoldExpiry _ _ | .sectorClockOff _ | .sectorWake _ | .pwrClk _ _
  | .clockSwitch | .pwrPhaseSel _ _ | .pwrPhaseClear _ _ | .pwrPowerClr _ _ | .thmMonSel _ _ | .thmMaxClr _ _ | .go _ _
  | .reboot _ _ | .identityRead | .sensorRead | .logRead | .logInfo | .keyEnrol | .keyRevoke | .keyList | .cfgRead
  | .debugChallenge _ | .debugOpen | .configurationWrite | .logFlush | .setEndpointId _ _ | .vdmWake _ | .getVersion _
  | .getCapabilities _ | .negotiateAlgorithms _ _ | .getDigests _ | .getCertificate _ _ | .challenge _ _ _
  | .keyExchange _ _ | .finish _ _ | .heartbeat _ _ | .keyUpdate _ _ | .endSession _ _ | .attestationKeyGen _
  | .queryDeviceIdentifiers _ | .getFirmwareParameters _ | .requestUpdate _ _ | .passComponentTable _ | .updateComponent _ _
  | .transferComplete | .verifyComplete | .applyComplete | .activateFirmware _ | .getStatus _ | .cancelUpdateComponent _
  | .cancelUpdate _ | .perstNRise | .wakeNRelease | .bendSend _ | .ganderLinkMessage _ | .pciConfigWrite _ _ _
  | .ideKm _ _ _ _ | .pldmPlatformMonitoring _ _ | .pldmBaseDiscovery _ | .i3cDynamicAddress _
  | .stackRetrainDone _ => true

end Sys2Proof
end

