-- ==== Sys2Proof/Tests/Slice0.lean ====
section
/-! SUPPORT. Tests of the model: for each statement that has hypotheses, states and operands that meet them (the names
`test_meets_…`, each naming its statement); for every check of well-formedness a command it refuses; and the manual's own worked
examples. What the tests expect comes from the manual, never from a run. -/

namespace Sys2Proof.Tests

open Sys2Proof.Machine

set_option Elab.async false

/-! ## Small states -/

/-- Fields of registers set, one after another. -/
def put (d : Dev) (l : List (Nat × Fld × Nat)) : Dev := l.foldl (fun d x => d.putF x.1 x.2.1 x.2.2) d

/-- A device that serves its host: powered, firmware running, link up, the PF a bus master, all sectors in partition 0, context 0
of partition 0 enabled for the PF. -/
def live : Dev := put {
  hif := { phase := .complete, perstN := true, railsGood := true, pgStk := true, pgCore := true, fns := [(0, { busMaster := true })] }
  gan := { up := true } }
  [(rHifReset, fHifReset_Ready, 1), (rHifLink, fHifLink_State, 2), (rMgmtStatus, fMgmtStatus_FwReady, 1),
   (rSectPartLayout, ⟨0, 18⟩, 0), (rSectCtxCfg 0 0, fSectCtxCfg_En, 1)]

/-- A page table at stack address 0: virtual addresses below 2^26 are the tile windows, those of the next 64 MiB stack 0,
those of the 64 MiB after that host memory. -/
def table : Memory :=
  { cells := [(0, 1), (2, 1), (0x10000, 7), (0x10004, 0xF0), (0x10008, 7), (0x10010, 7), (0x10015, 0x80)]
    flags := [(0, { valid := true }), (0x10000, { valid := true })] }

/-- A plain descriptor of rank 1: `elem`, `n` elements of `e` bytes each from virtual address `va` on. -/
def vector (elem n e va : Nat) : Rec :=
  BitVec.ofNat 512 (1 + atBit 4 elem + atBit 8 1 + atBit 12 1 + atBit 64 va + atBit 128 n + atBit 272 e)

/-- Command 1 of queue 0, a RUN_PROGRAM of partition 0 and context 0 on tile 0, with its descriptors. -/
def running (ds : Tab Rec) : Cmd :=
  { id := 1, queue := 0, part := 0, func := 0, word := BitVec.ofNat 512 0x11, start := 0, tiles := [0], descs := ds }

/-- Tile 0 runs command 1, word `w` in slot `s` of its bundle, its state otherwise `x`. -/
def tileAt (s : Nat) (w : W64) (x : Tile) (ds : Tab Rec) : State :=
  { dev := { live with
      stk := table
      sect := [(0, { lib := some {
        keyid := 0
        libVer := 1
        digest := 0
        routines := [{
          num := 0
          rver := 1
          bundles := [BitVec.ofNat 256 (w.toNat * 2 ^ (64 * s)), 0]
          records := []
          handles := [5, 6]
          closure := []
          writeHandles := []
          writeArgs := []
          closureBytes := 64 }] } })]
      cq := { cmds := [running ds], nextId := 2 }
      tiles := [(0, { x with cmd := some 1 })] } }

/-! ## Witnesses: each hypothesis of a statement is met -/

/-- VADD and its like; VIMM and VPMAXI (VectorInstructionsCompute). -/
theorem test_meets_vector :
    (∀ op ∈ [1, 2, 3, 4, 5, 6, 7, 8, 9, 0xA],
      (tileAt 1 (BitVec.ofNat 64 op) {} []).dev.vectorReady 0 op (running []) (BitVec.ofNat 64 op))
    ∧ (tileAt 1 0xC {} []).dev.issuing 0 1 0xC (running []) 0xC ∧ bitsOf (0xC : W64) 11 21 = 0
    ∧ (tileAt 1 0x4B {} []).dev.issuing 0 1 0xB (running []) 0x4B ∧ bitsOf (0x4B : W64) 26 38 = 0 ∧ vC 0x4B ≠ vD 0x4B := by
  decide +kernel
/-- No lower slot wrote a register in them. -/
theorem test_meets_unwritten (w : W64) : ((tileAt 1 w {} []).dev.tile 0).written = [] := rfl

/-- A reserved bit set, and a result register that a lower slot wrote (IllegalVectorInstructionIsSkipped). -/
theorem test_meets_illegal_vector :
    (∀ op ∈ [1, 2, 3, 4, 5, 6, 7, 8, 9, 0xA],
      (tileAt 1 (BitVec.ofNat 64 (op + 2 ^ 26)) {} []).dev.issuing 0 1 op (running []) (BitVec.ofNat 64 (op + 2 ^ 26))
      ∧ bitsOf (BitVec.ofNat 64 (op + 2 ^ 26)) 26 38 ≠ 0)
    ∧ (tileAt 1 1 { written := [0] } []).dev.issuing 0 1 1 (running []) 1
    ∧ ((tileAt 1 1 { written := [0] } []).dev.tile 0).written.contains (vD 1) = true := by
  decide +kernel

/-- Exact partials in tile SRAM. -/
def exact : Tab Rec := [(5, vector 12 8 16 0), (6, vector 12 8 16 0x1000)]
/-- A descriptor with its list at handle 7, and that list in a window of host memory. -/
def listed (r : Rec) : Rec := r ||| BitVec.ofNat 512 (atBit 38 1 + atBit 40 7)
def hostList : Rec := vector 6 8 4 0x800_0000
/-- Whether the list entries of some views have come; and whether some have still to come. -/
def come (r : Dev × Except (Nat × Nat) Bool) (k : Dev → Bool) : Bool := match r with
  | (d, .ok true) => k d
  | _ => false
def toCome (r : Dev × Except (Nat × Nat) Bool) : Bool := match r with
  | (_, .ok false) => true
  | _ => false
/-- A read of elements that succeeds. -/
def reads (r : Dev × Except Fail (List ElemRead)) (k : Dev → List ElemRead → Bool) : Bool := match r with
  | (d, .ok es) => k d es
  | _ => false
def wordXrd : W64 := BitVec.ofNat 64 (0xE + 5 * 2 ^ 6)
def wordXadd : W64 := BitVec.ofNat 64 (0xD + 5 * 2 ^ 6 + 5 * 2 ^ 19 + 6 * 2 ^ 32)

/-- XRD and XADD with operands that can be read (ExactPartialInstructionsCompute). -/
theorem test_meets_exact :
    (let s := tileAt 1 wordXrd {} exact
     s.dev.issuing 0 1 0xE (running exact) wordXrd ∧ s.dev.formReason 0 (bitsOf wordXrd 37 27 != 0) false [bitsOf wordXrd 6 13] = 0
     ∧ (((running exact).reach 0).desc 5).elem = 12 ∧ (s.dev.tile 0).written = []
     ∧ come (s.dev.awaitLists (running exact) 0 (s.dev.rowLists 0 (running exact) 8 [5]))
       (fun d => (d.read8 0 (running exact) 5).2.isOk) = true)
    ∧ (let ds := [(5, listed (vector 12 8 16 0)), (6, listed (vector 12 8 16 0x1000)), (7, hostList)]
       let s := tileAt 1 wordXrd {} ds
       toCome (s.dev.awaitLists (running ds) 0 (s.dev.rowLists 0 (running ds) 8 [5])) = true
       ∧ toCome (s.dev.awaitLists (running ds) 0 (s.dev.rowLists 0 (running ds) 8 [5, 6])) = true)
    ∧ (let s := tileAt 1 wordXadd {} exact
       s.dev.issuing 0 1 0xD (running exact) wordXadd
       ∧ s.dev.formReason 0 (bitsOf wordXadd 55 9 != 0) false [bitsOf wordXadd 6 13, bitsOf wordXadd 19 13, bitsOf wordXadd 32 13] = 0
       ∧ come (s.dev.awaitLists (running exact) 0 (s.dev.rowLists 0 (running exact) 8 [5, 5]))
         (fun d => reads (d.read8 0 (running exact) 5) (fun d as => as.length == 8
           && reads (d.read8 0 (running exact) 5) (fun _ bs => bs.length == 8))) = true) := by
  decide +kernel

def floats : Tab Rec := [(5, vector 5 2 4 0)]
def wordVld : W64 := BitVec.ofNat 64 (1 + 5 * 2 ^ 15)
def wordVst : W64 := BitVec.ofNat 64 (2 + 5 * 2 ^ 15)

/-- VLD and VST of 128 floats, two of them in tile SRAM and zeros beyond (VldLoadsVstStores). -/
theorem test_meets_vld_vst :
    (let s := tileAt 2 wordVld {} floats
     let c := running floats
     s.dev.issuing 0 2 1 c wordVld ∧ s.dev.vecMemReason 0 c wordVld 30 [0] = 0
     ∧ come (s.dev.awaitLists c 0 (s.dev.rowLists 0 c (partSpan 0).2 [5])) (fun d =>
         (Dev.readElems (c.reach 0) 5 true true d ((List.range (partSpan 0).2).map (fun i => coordsAt (d.cursor 0 5) i 0))).2.isOk)
       = true)
    ∧ (let ds := [(5, listed (vector 5 8 4 0)), (7, hostList)]
       let s := tileAt 2 wordVld {} ds
       s.dev.issuing 0 2 1 (running ds) wordVld ∧ s.dev.vecMemReason 0 (running ds) wordVld 30 [0] = 0
       ∧ toCome (s.dev.awaitLists (running ds) 0 (s.dev.rowLists 0 (running ds) (partSpan 0).2 [5])) = true)
    ∧ (let s := tileAt 2 wordVst {} floats
       s.dev.issuing 0 2 2 (running floats) wordVst ∧ s.dev.vecMemReason 0 (running floats) wordVst 31 [] = 0) := by
  decide +kernel

/-- Two BF16 operands of one element each, zeros beyond it. -/
def bytes8 : Tab Rec := [(5, vector 4 1 2 0), (6, vector 4 1 2 64)]
def wordMma : W64 := BitVec.ofNat 64 (1 + 2 * 2 ^ 6 + 5 * 2 ^ 10 + 6 * 2 ^ 23)

/-- An MMA whose operands can be read, with no accumulation open and with one open; products in flight; an MRD to a register and
one through DST, with nothing in flight and with something (MatrixInstructionsRun). -/
theorem test_meets_matrix :
    (let c := running bytes8
     let rc := c.reach 0
     (∀ o ∈ [none, some ⟨2, 0, []⟩],
       (tileAt 0 wordMma { openAcc := o } bytes8).dev.issuing 0 0 1 c wordMma
       ∧ (tileAt 0 wordMma { openAcc := o } bytes8).dev.mmaReason 0 c wordMma = 0)
     ∧ (let s := tileAt 0 wordMma {} bytes8
        come (s.dev.awaitLists c 0 (s.dev.mmaLists 0 c wordMma)) (fun d =>
          reads (Dev.readElems rc 6 true true d ((List.range 16).map (fun k => coordsAt (d.cursor 0 6) k 0)))
            (fun d _ => (Dev.mmaRows rc 5 (d.cursor 0 5) 16 d (List.range 64)).2.isOk)) = true)
     ∧ (let ds := [(5, listed (vector 4 8 2 0)), (6, vector 4 1 2 64), (7, hostList)]
        let s := tileAt 0 wordMma {} ds
        s.dev.mmaReason 0 (running ds) wordMma = 0 ∧ toCome (s.dev.awaitLists (running ds) 0 (s.dev.mmaLists 0 (running ds) wordMma)) = true))
    ∧ (let s := tileAt 0 0 { inflight := [.products true false []] } []
       s.dev.tileCmd 0 = some (running []) ∧ ∃ rest : List Inflight, (s.dev.tile 0).inflight = .products true false [] :: rest
         ∧ rest.head? = none)
    ∧ (∀ x ∈ [({} : Tile), { inflight := [.products true false []] }],
        ((tileAt 0 2 x []).dev.issuing 0 0 2 (running []) 2 ∧ (tileAt 0 2 x []).dev.mrdReason 0 (running []) 2 = 0)
        ∧ (let w : W64 := BitVec.ofNat 64 (2 + 2 ^ 17 + 5 * 2 ^ 24)
           (tileAt 0 w x floats).dev.issuing 0 0 2 (running floats) w ∧ (tileAt 0 w x floats).dev.mrdReason 0 (running floats) w = 0
             ∧ mrdToDst w = true)) := by
  refine ⟨by decide +kernel, ⟨by decide +kernel, [], by decide +kernel, rfl⟩, by decide +kernel⟩

/-- Bytes in tile SRAM, in a window of host memory and in the atomic port. -/
def spans : Tab Rec := [(5, vector 8 64 1 0), (6, vector 8 64 1 0x1000), (7, vector 8 64 1 0x200_0000), (8, vector 8 64 1 0x800_0000)]
def wordMove (src dst : Nat) : W64 := BitVec.ofNat 64 (3 + src * 2 ^ 10 + dst * 2 ^ 23 + 2 * 2 ^ 36)
def wordMsend : W64 := BitVec.ofNat 64 (4 + 5 * 2 ^ 10 + 6 * 2 ^ 23 + 1 * 2 ^ 36 + 2 * 2 ^ 45)
def plan : MovePlan := ⟨5, 6, List.replicate 9 0, List.replicate 9 0, 2, 0, false, 0⟩
/-- The host granules that a MOVE's source lies in. -/
def hostOf (d : Dev) (p : MovePlan) : List HostGran :=
  d.hostGrans ((running spans).reach 0).toPort p.src (!isRaw (((running spans).reach 0).desc p.dst).elem) p.sources

/-- A MOVE within tile SRAM, one into the atomic port, with and without an earlier one there, and one from host memory, an MSEND, and
each outstanding (MovesRunAndComplete). -/
theorem test_meets_moves :
    (∀ dst ∈ [6, 7],
      let w := wordMove 5 dst
      let s := tileAt 2 w {} spans
      s.dev.issuing 0 2 3 (running spans) w
      ∧ s.dev.moveReason 0 (running spans) w (bitsOf w 44 20 != 0) (12 < bitsOf w 36 4 || 6 < bitsOf w 40 3) = 0
      ∧ come (s.dev.awaitLists (running spans) 0 ((running spans).moveLists 0 (s.dev.planOf 0 (running spans) w 36 40 (bitOf w 43))))
          (fun d =>
            let p := d.planOf 0 (running spans) w 36 40 (bitOf w 43)
            (hostOf d p).isEmpty && (d.planPlaces 0 (running spans) p).any (fun q => isSlot q.loc) == (dst == 7)
              && !(d.tile 0).slotsBefore (d.tile 0).nextOp
              && (((d.nextSeq 1).pushOp 0 (bitsOf w 6 4) (.slots p)).runPlan 0 (running spans) p).2) = true)
    ∧ ({ outs := [⟨0, 0, .slots plan⟩], nextOp := 1 } : Tile).slotsBefore 1 = true
    ∧ (let s := tileAt 2 (wordMove 8 6) {} spans
       s.dev.issuing 0 2 3 (running spans) (wordMove 8 6)
       ∧ hostOf s.dev (s.dev.planOf 0 (running spans) (wordMove 8 6) 36 40 false) ≠ [] ∧ s.dev.masters (running spans).func = true)
    ∧ (let s := tileAt 2 wordMsend {} spans
       s.dev.issuing 0 2 4 (running spans) wordMsend
       ∧ s.dev.moveReason 0 (running spans) wordMsend (bitsOf wordMsend 52 12 != 0)
           (12 < bitsOf wordMsend 45 4 || 6 < bitsOf wordMsend 49 3 || 23 < bitsOf wordMsend 36 5) = 0
       ∧ come (s.dev.awaitLists (running spans) 0
           ((running spans).moveLists 0 (s.dev.planOf 0 (running spans) wordMsend 45 49 false))) (fun _ => true) = true)
    ∧ (let s := tileAt 2 0 { outs := [⟨0, 0, .move plan⟩, ⟨1, 0, .msend plan 1 0⟩, ⟨2, 0, .sent plan 1 0 []⟩] } spans
       s.dev.tileCmd 0 = some (running spans) ∧ (s.dev.tile 0).outs[0]? = some ⟨0, 0, .move plan⟩ ∧ s.dev.opReads 0 0 = false
       ∧ (s.dev.tile 0).outs[1]? = some ⟨1, 0, .msend plan 1 0⟩
       ∧ (s.dev.planItems ((running spans).reach 0) plan true).2.isOk = true
       ∧ (s.dev.tile 0).outs[2]? = some ⟨2, 0, .sent plan 1 0 []⟩) := by
  decide +kernel

/-- An atomic request of tile 0 in its slot 0, its operation and target as given; stack 0 lies at 0x400_0000. -/
def atom (op : Nat) : AtomReq :=
  ⟨0, true, 0, 7, 0, recBytes (BitVec.ofNat 512 (op + atBit 64 (0x400_0000 + 0x800) + atBit 128 5))⟩
def request (op : Nat) : State := tileAt 2 0 { atoms := [atom op] } []

/-- ADD, MAX, CAS and XCHG with a target in stack memory, and a FENCE (AtomicsActOnTheirTarget). -/
theorem test_meets_atomics :
    (∀ op ∈ [0, 1, 2, 3, 4],
      let d := (request op).dev
      let q := atom op
      let r := recOf q.data
      d.tileCmd 0 = some (running []) ∧ (d.tile 0).atoms = [q] ∧ q.whole = true ∧ atomInvalid r = false ∧ d.atomWaits 0 q r = false
      ∧ bitsOf r 0 4 = op
      ∧ (op ≠ 0 →
          ((match d.xlate ((running []).reach 0).toPort.eng (bitsOf r 16 8) (bitsOf r 64 48) true with
            | (d1, .ok l) => !isHost l && !isSlot l && ((d1.atomOrder 0 r).readHomeGran 1 (granOf l)).2.2 == 0
            | _ => false) = true))) := by
  decide +kernel

/-- A parameter block in tile SRAM, and operands of one row in stack memory. -/
def henViews : Tab Rec := [(5, vector 5 4 4 0x400_0800), (6, vector 5 1 4 0x400_0900), (7, vector 8 64 1 0x100)]
def wordHdisp (op : Nat) : W64 := BitVec.ofNat 64 (5 + op * 2 ^ 10 + 7 * 2 ^ 18 + 5 * 2 ^ 31 + 6 * 2 ^ 44)
def dispatching (op : Nat) : State :=
  let s := tileAt 2 (wordHdisp op) {} henViews
  { s with dev := { s.dev with tram := ({} : Memory).putBytes 0x100 (leBytes 8 (1 + atBit 48 6)) } }

/-- Dispatches of every operation whose words are legal, one that names no operation, an HREDUCE that passes its checks and an
HSOFTMAX that fails (HdispDispatchesOrRejects). -/
theorem test_meets_hdisp :
    ∀ op ∈ [0, 1, 2, 3, 4],
      let d := (dispatching op).dev
      d.issuing 0 2 5 (running henViews) (wordHdisp op) ∧ hdOp (wordHdisp op) = op ∧ d.hdispReason 0 (wordHdisp op) = 0 := by
  decide +kernel
theorem test_meets_hdisp_lists :
    ∀ op ∈ [3, 4],
      let d := (dispatching op).dev
      come (d.awaitLists (running henViews) 0 (d.hdispLists 0 (running henViews) (wordHdisp op)))
          (fun d => (d.henBlock 0 ((running henViews).reach 0) 7).2.isOk) = true := by
  decide +kernel
theorem test_meets_hdisp_passes :
    let c := running henViews
    let d := (dispatching 4).dev
    (match d.henBlock 0 (c.reach 0) 7 with
      | (d1, .ok b) =>
        let chk := d1.henCheck 0 (c.reach 0) (wordHdisp 4) b 12
        chk.1 == 0 && (d1.henGather 0 c (wordHdisp 4) (b.getD 0) chk.2.1 chk.2.2 (d.stacksOf 0) (d1.tile 0).nextOp).2.isOk
      | _ => false) = true := by
  decide +kernel
theorem test_meets_hdisp_fails :
    ∀ op ∈ [0, 3],
      let c := running henViews
      let d := (dispatching op).dev
      (match d.henBlock 0 (c.reach 0) 7 with
        | (d1, .ok b) => (d1.henCheck 0 (c.reach 0) (wordHdisp op) b 12).1 != 0
        | _ => false) = true := by
  decide +kernel

/-- Operation `n` of command 1: an HREDUCE, or with `kind` 2 an HATTN, of hen 0 with one row. -/
def henOp (n kind : Nat) (started : Bool) (left : Nat) : HenOp :=
  { id := n, cmd := 1, tile := 0, outId := 0, kind := kind, block := 1, dims := [1, 1, 1, 1, 1], types := [5, 5, 5],
    scaled := (false, false), rows := [⟨0, some 0, [⟨some 0x800, false, none⟩], [some 0x900], []⟩], input := [], outO := [],
    outM := [], stks := [0], hens := [0], started := started, exchanged := false, rowMax := [], scores := [],
    stepsLeft := [(0, left)] }
def hens (os : List HenOp) : State :=
  let s := tileAt 2 0 {} []
  { s with dev := { s.dev with henOps := os, nextHenOp := 2 } }

/-- An operation that may start and one held in the mesh behind 256 others; one with a row step left, and with an idle one, of a
cool stack and of a hot one; an HATTN before its exchange; one whose row steps are done (HenOperationsRun). -/
theorem test_meets_hen_operations :
    ((hens [henOp 0 4 false 0]).dev.henOp? 0 = some (henOp 0 4 false 0)
      ∧ (hens [henOp 0 4 false 0]).dev.inMesh (henOp 0 4 false 0) = false)
    ∧ (let d := (hens ((List.range 257).map (fun n => henOp n 4 false 0))).dev
       d.henOp? 256 = some (henOp 256 4 false 0) ∧ d.inMesh (henOp 256 4 false 0) = true)
    ∧ (∀ k ∈ [2, 4], (hens [henOp 0 k true 1]).dev.nextOn 0 = some (henOp 0 k true 1) ∧ tget (henOp 0 k true 1).stepsLeft 0 0 ≠ 0
        ∧ (henOp 0 k true 1).idle.contains 0 = false)
    ∧ (hens [{ henOp 0 4 true 0 with idle := [0] }]).dev.nextOn 0 = some { henOp 0 4 true 0 with idle := [0] }
    ∧ (∀ t ∈ [419, 420], (put live [(rCsTemp 0, fCsTemp_Temp, t)]).getF (rCsTemp 0) fCsTemp_Temp = t)
    ∧ ((hens [henOp 0 2 true 1]).dev.henOp? 0 = some (henOp 0 2 true 1) ∧ (henOp 0 2 true 1).exchanged = false
      ∧ ∀ u ∈ (henOp 0 2 true 1).hens, ((hens [henOp 0 2 true 1]).dev.nextOn u).map (·.id) = some 0)
    ∧ ((hens [henOp 0 4 true 0]).dev.henOp? 0 = some (henOp 0 4 true 0)
      ∧ ∀ u ∈ (henOp 0 4 true 0).hens, (henOp 0 4 true 0).doneBy u = true) := by
  decide +kernel

/-- Each opcode of the loop slot is about to issue: LOOP with and without a body to run, CALL with and without a record, RET in a
routine called, WAIT that holds and that waits, and tiles at a barrier (LoopSlotMovesControl). -/
theorem test_meets_loop_slot :
    (∀ op ∈ [1, 2, 3, 4, 5, 6, 7, 8], (tileAt 3 (BitVec.ofNat 64 op) {} []).dev.issuing 0 3 op (running []) (BitVec.ofNat 64 op))
    ∧ (tileAt 3 (BitVec.ofNat 64 (1 + 3 * 2 ^ 7)) {} []).dev.issuing 0 3 1 (running []) (BitVec.ofNat 64 (1 + 3 * 2 ^ 7))
    ∧ (tileAt 3 (BitVec.ofNat 64 (2 + 0x3F * 2 ^ 14)) {} []).dev.issuing 0 3 2 (running []) (BitVec.ofNat 64 (2 + 0x3F * 2 ^ 14))
    ∧ (let x : Tile := { frames := [⟨0, 0, []⟩], loops := [⟨0, 1, 1, true, none, [], 1, 0⟩] }
       (tileAt 3 3 x []).dev.issuing 0 3 3 (running []) 3 ∧ (∀ l ∈ x.loops, l.depth = x.frames.length) ∧ x.loops.length ≤ 6)
    ∧ (let w : W64 := BitVec.ofNat 64 (4 + 2 ^ 6)
       let x : Tile := { outs := [⟨0, 0, .atomics⟩] }
       (tileAt 3 w x []).dev.issuing 0 3 4 (running []) w ∧ bitOf w 6 = true ∧ ∃ o ∈ x.outs, o.tag = 0 ∧ o.kind.counts = true)
    ∧ (∀ b ∈ [false, true],
        ∀ z ∈ (tileAt 3 5 { atBarrier := b } []).dev.tiles.filter (fun z => z.2.cmd == some 1), z.2.ended = false ∧ z.2.atBarrier = b) := by
  decide +kernel

/-! ### Queues and commands -/

/-- A record of version 1 with an opcode, and the fields above bit 127 that `more` holds. -/
def record (op more : Nat) : Rec := BitVec.ofNat 512 (1 + atBit 4 op + more)

/-- Queue 0 of partition 0 (7: of the device), enabled, with one record; the state otherwise that of a tile with no program
running. -/
def queued (part : Nat) (r : Rec) (f : Dev → Dev) : State :=
  let d := (tileAt 2 0 {} []).dev
  let d := put { d with tiles := [], cq := { storage := [(0, [r])], nextId := 1 } }
    [(rCqQCfg 0, fCqQCfg_En, 1), (rCqQCfg 0, fCqQCfg_Part, part)]
  { dev := f d }

/-- Queue 0's head may start and its record, of opcode `op`, passes its checks. -/
abbrev starts (s : State) (op : Nat) (r : Rec) : Prop :=
  s.dev.headOpen 0 r [] ∧ opcodeOf r = op ∧ s.dev.recordCheck 0 r = 0

/-- A function's write of a record in place, one of the wrong length, one without credit and a POWER_STATE that wakes
(QueueWriteIsAcceptedDroppedOrRejected). -/
theorem test_meets_queue_write :
    (let d := (queued 0 0 id).dev
     d.reached 0 ∧ d.queueEn 0 = true ∧ d.queueFunc 0 = 0 ∧ d.inReset 0 = false ∧ d.credit 0 ≠ 0 ∧ d.pstate = 0)
    ∧ (let d := (queued 0 0 (fun d => put d [(rCqQCfg 0, fCqQCfg_DepthLog2, 4)] |> fun d => d.setWaiting 0 (List.replicate 16 0))).dev
       d.reached 0 ∧ d.queueEn 0 = true ∧ d.credit 0 = 0)
    ∧ (let d := (queued 7 0 (fun d => d.setPstate 3)).dev
       d.reached 0 ∧ d.queueEn 0 = true ∧ d.credit 0 ≠ 0 ∧ d.pstate = 3 ∧ opcodeOf (record 0x21 0) = 0x21) := by
  decide +kernel

/-- A head of each row whose record has version 0, and a NOP that may start (HeadsCompleteAtTheirStart). -/
theorem test_meets_heads :
    (∀ op ∈ [0, 0x01, 0x02, 0x03, 0x10, 0x11, 0x12, 0x13, 0x14, 0x20, 0x21, 0x22],
      let r : Rec := BitVec.ofNat 512 (atBit 4 op)
      (queued 0 r id).dev.headOpen 0 r [] ∧ recordRow r = op ∧ (queued 0 r id).dev.recordCheck 0 r ≠ 0)
    ∧ starts (queued 0 (record 0 0) id) 0 (record 0 0)
    ∧ (let d := (queued 0 (record 0 0) (fun d => d.setPstate 3)).dev
       (d.waiting 0).head? = some (record 0 0) ∧ d.waitReasons 0 (record 0 0) ≠ []) := by
  decide +kernel

/-- Heads of queues 0 and 1 of one partition start one after the other, whichever row is sent first (R140). -/
theorem test_starts_in_round_robin :
    let d := put (queued 0 (record 0 0) (fun d => d.setWaiting 1 [record 0 0])).dev [(rCqQCfg 1, fCqQCfg_En, 1)]
    let nops := fun (d : Dev) (qs : List Nat) => qs.foldl (fun d q => d.nop q) d
    d.outOfTurn 1 = true ∧ (d.waiting 1).head? = some (record 0 0)
      ∧ ((nops d [1, 0]).waiting 0, (nops d [1, 0]).waiting 1) = ([], [record 0 0])
      ∧ ((nops d [1, 0, 1]).waiting 0, (nops d [1, 0, 1]).waiting 1) = ([], []) := by
  decide +kernel

/-- Tile 0 of sector 0, and version 0 of slot 0, whose model is READY. -/
def program (op : Nat) : Rec := record op (atBit 136 1 + atBit 144 1 + (List.range 8).foldl (fun n k => n + atBit (192 + 13 * k) 0x1FFF) 0)
def training (d : Dev) : Dev :=
  (put d [(rSrvSlotCfg 0, fSrvSlotCfg_Part, 0), (rSrvSlotState 0, fSrvSlotState_State, 2)]).setVersion 0
    { state := .train, slot := 0, part := 0, lineage := 0, base := 0x400_1000, bytes := 64 }
/-- The descriptor table, at stack address 0, with the descriptors of handles 5 and 6. -/
def described (a b : Rec) (d : Dev) : Dev :=
  let m := (d.stk.putBytes 0x140 (recBytes a)).putBytes 0x180 (recBytes b)
  let flags := tset (tset m.flags 0x140 { valid := true }) 0x180 { valid := true }
  put { d with stk := { m with flags := flags } } [(rSectDtabBase 0 0, fSectDtabBase_Base, 0x400)]
/-- Jobs of partition 0 in an epoch that runs. -/
def folding (d : Dev) : Dev :=
  put { d with fab := { d.fab with active := some ⟨BitVec.ofNat 4096 (atBit 128 1 + atBit 240 0x80), [], [], 0⟩ } }
    [(rFabStatus, fFabStatus_EpochState, 1)]
def bytes4 (va : Nat) : Rec := vector 8 4 1 va

/-- RUN_PROGRAM and ADAPT_STEP with descriptors that pass, in a partition without fold jobs and in one with them, its job stopped or
not (ProgramsStartOnTheirTiles). -/
theorem test_meets_programs :
    ∀ op ∈ [0x01, 0x14], ∀ z ∈ [(false, 0), (true, 0), (true, 1)],
      let s := queued 0 (program op) (fun d => put ((if z.1 then folding else id) (described (bytes4 0x400_2000) (bytes4 0x400_3000)
        (training d))) [(rFabStopJobs, ⟨0, 1⟩, z.2)])
      let cp := s.dev.cpOf 0 0
      let hw := s.dev.programHandles 0 (program op)
      starts s op (program op) ∧ (s.dev.popHead 0).programCheck 0 (program op) = 0
      ∧ s.dev.startNeeds 0 cp (ascending hw.1) (ascending hw.2) = [] ∧ s.dev.foldPart 0 = z.1
      ∧ ((let v := s.dev.validate cp hw.1 hw.2
          v.2.isOk && v.1.upsets.isEmpty && v.1.trains 0 (program op) && (z.1 == false || v.1.jobStopped 0 == (z.2 == 1))) = true) := by
  decide +kernel

/-- A COPY between two spans of stack memory, and one from host memory (CopyMovesItsElements). -/
theorem test_meets_copy :
    ∀ src ∈ [0x400_2000, 0x800_0000],
      let r := record 0x02 (atBit 128 5 + atBit 144 6)
      let s := queued 0 r (described (bytes4 src) (bytes4 0x400_3000))
      let cp := s.dev.cpOf 0 0
      let x := s.dev.mkCmd 0 r
      starts s 0x02 r ∧ (s.dev.popHead 0).copyCheck x.part r = 0
      ∧ s.dev.startNeeds 0 cp (ascending [copySrc r, copyDst r]) [copyDst r, copySrc r] = []
      ∧ ((match s.dev.validate cp [copySrc r, copyDst r] [copyDst r] (countsDiffer r) with
          | (d2, .ok rc0) =>
            let y : Cmd := { x with descs := rc0.descs, lists := rc0.lists, phase := .running, start := d2.time, engines := [⟨.dma, 0⟩] }
            let d3 := (d2.popHead 0).begin_ y
            let host := d3.copyHost y
            let z := d3.copyItems y.copyReach r (List.range (y.copyReach.count (copySrc r)))
            !rc0.staged r && d2.upsets.isEmpty
              && (if src == 0x400_2000 then (host == []) && z.2.2.isNone && !z.1.aliased y.copyReach r
                  else (host != []) && d3.masters 0)
          | _ => false) = true) := by
  decide +kernel

/-- LIB_LOAD and FENCE_EPOCH, their checks passed (ImageCommandsStart). -/
theorem test_meets_image_commands :
    (let r := record 0x03 (atBit 128 0x800_0000)
     starts (queued 0 r id) 0x03 r ∧ bitsOf r 128 48 % 64 = 0 ∧ (queued 0 r id).dev.masters 0 = true)
    ∧ (let r := record 0x22 (atBit 136 0x800_0000 + atBit 192 1)
       let s := queued 7 r id
       let d := s.dev.popHead 0
       starts s 0x22 r ∧ d.ctxEn 0 0 = true ∧ d.ctxFunc 0 0 = 0 ∧ d.trapped 0 0 = false ∧ bitsOf r 136 6 = 0
       ∧ d.getF rFabEpoch fFabEpoch_Epoch < bitsOf r 192 32 ∧ ∀ y ∈ d.cq.cmds, y.opcode ≠ 0x22) := by
  decide +kernel

/-- Command 0 of queue 0 has started with a record, in a phase. -/
def started (part : Nat) (r : Rec) (phase : CmdPhase) (f : Dev → Dev) : State :=
  queued part r (fun d => f { d with cq := { cmds := [{ d.mkCmd 0 r with id := 0, phase := phase }], nextId := 1 } })

/-- Bytes put in stack 0 at virtual address 0x400_4000, their granules valid. -/
def stacked (bs : List Byte) (d : Dev) : Dev :=
  let m := d.stk.putBytes 0x4000 bs
  let flags := (List.range ((bs.length + 63) / 64)).foldl (fun t i => tset t (0x4000 + 64 * i) { valid := true }) m.flags
  { d with stk := { m with flags := flags } }

/-- A delta image of no block, and an epoch image with no slot, its check word as given. -/
def deltaBytes : List Byte := leBytes 64 1
def epochBytes (crc : Nat) : List Byte :=
  leBytes 508 (1 + atBit 64 2000 + atBit 81 2000 + atBit 98 2000 + atBit 115 16 + atBit 128 2 + atBit 1024 1) ++ leBytes 4 crc ++ zeros 64

/-- The granules of an image that is header and signatures alone. -/
theorem test_image_granules : cutGrans 1717 0x400_4000 (zeros 1716)
    = (List.range 27).map (fun i => (0x400_4000 + 64 * i, zeros (if i = 26 then 52 else 64))) := by
  decide +kernel

/-- Whether `n` bytes at a virtual address read without error and without a change of the device. -/
def readsPlainly (d : Dev) (e : Engine) (k va n : Nat) : Bool :=
  match d.xlate e k va false with
  | (d', .ok l) => d' == d && (d'.readBy e.sect e.src l n).1 == d && (d'.readBy e.sect e.src l n).2.2 == 0
  | _ => false

/-- A read of a virtual range succeeds, and leaves the device, when each granule of it reads plainly. -/
theorem readVa_plainly (d : Dev) (e : Engine) (k va n : Nat)
    (h : ∀ x ∈ cutGrans (n + 1) va (zeros n), readsPlainly d e k x.1 x.2.length = true) :
    ∃ bs : List Byte, d.readVa e k va n = (d, .ok bs) := by
  unfold Dev.readVa
  generalize cutGrans (n + 1) va (zeros n) = xs at h
  suffices ∀ b0 : List Byte, ∃ bs : List Byte, xs.foldl (fun (acc : Dev × Except (Nat × Nat) (List Byte)) piece =>
      match acc with
      | (d, .error x) => (d, .error x)
      | (d, .ok bs) =>
        match d.xlate e k piece.1 false with
        | (d, .error s) => (d, .error (s, piece.1))
        | (d, .ok l) =>
          let (d, r) := d.readBy e.sect e.src l piece.2.length
          if r.2 ≠ 0 then (d, .error (0x60, piece.1)) else (d, .ok (bs ++ r.1))) (d, .ok b0) = (d, .ok bs) from this []
  induction xs with
  | nil => exact fun b0 => ⟨b0, rfl⟩
  | cons x xs ih =>
    intro b0
    have hx := h x (by simp)
    unfold readsPlainly at hx
    rw [List.foldl_cons]
    rcases hq : d.xlate e k x.1 false with ⟨d', z⟩
    rw [hq] at hx
    cases z with
    | error s => simp at hx
    | ok l =>
      simp only [Bool.and_eq_true, beq_iff_eq] at hx
      obtain ⟨⟨h1, h2⟩, h3⟩ := hx
      rcases hr : d'.readBy e.sect e.src l x.2.length with ⟨d2, r⟩
      rw [hr] at h2 h3
      simp only [hq, hr, ne_eq]
      rw [if_neg (by simpa using h3)]
      have h4 : d2 = d := h2
      rw [h4]
      exact ih (fun y hy => h y (by simp [hy])) _

def libRec : Rec := record 0x03 (atBit 128 0x400_4000)
def libState : State := started 0 libRec .waiting id

theorem test_library_reads : ∀ x ∈ (List.range 27).map (fun i => (0x400_4000 + 64 * i, zeros (if i = 26 then 52 else 64))),
    readsPlainly libState.dev (libState.dev.cpOf 0 0) 0 x.1 x.2.length = true := by
  decide +kernel

/-- A library image of no bytes beyond its header that was copied (ImagesAreJudged). -/
theorem test_meets_library_image :
    ((libState.dev.cmd? 0).map (fun x => x.opcode == 0x03 && x.phase == .waiting && !libState.dev.libWaits x)) = some true
    ∧ libState.dev.gan.cfgPend = [] ∧ readsPlainly libState.dev (libState.dev.cpOf 0 0) 0 0x400_4000 64 = true
    ∧ ((libState.dev.readVa (libState.dev.cpOf 0 0) 0 0x400_4000 64).2.toOption.map imageBytes) = some 0
    ∧ ∃ bs : List Byte, libState.dev.readVa (libState.dev.cpOf 0 0) 0 0x400_4000 (0 + 1716) = (libState.dev, .ok bs) := by
  refine ⟨by decide +kernel, by decide +kernel, by decide +kernel, by decide +kernel, readVa_plainly _ _ _ _ _ ?_⟩
  exact test_image_granules ▸ test_library_reads

/-- A model whose check word agrees and one whose does not (ImagesAreJudged). -/
theorem test_meets_model_image :
    (∀ crc ∈ [63499111, 0],
        let r := record 0x10 (atBit 144 0x400_4000 + atBit 200 64 + atBit 320 crc)
        let s := started 0 r .running (fun d => put d [(rSrvSlotBase 0, fSrvSlotBase_Base, 0x401)])
        (s.dev.cmd? 0).isSome = true ∧ s.dev.readsWait 0 = false
        ∧ ((match s.dev.loadCopy (dmaOf 0 0 0) 0 0 0x400_4000 0x401_0000 64 with
            | (_, some bs) => (crc32c bs == bitsOf r 320 32) == (crc != 0)
            | _ => false) = true)) := by
  decide +kernel

/-- A delta whose check word agrees and one whose does not (ImagesAreJudged). -/
theorem test_meets_delta_image :
    (∀ crc ∈ [2009465957, 0],
        let r := record 0x12 (atBit 160 0x400_4000 + atBit 208 0x401_0000 + atBit 264 64 + atBit 296 crc)
        let s := started 0 r .running (fun d => (stacked deltaBytes (training d)).setVersion 0 { state := .loading })
        s.dev.readsWait 0 = false
        ∧ ((match s.dev.loadCopy { dmaOf 0 0 0 with bypass := (0x401_0000, 0x401_0040) } 0 0 0x400_4000 0x401_0000 64 with
            | (d1, some img) => (d1.version 0).state == .loading && (d1.deltaImage 0 (bitsOf r 296 32) img == 0) == (crc != 0)
            | _ => false) = true)) := by
  decide +kernel

def epochState (crc : Nat) : State :=
  started 7 (record 0x22 (atBit 136 0x400_4000 + atBit 192 1)) .running (stacked (epochBytes crc))
def epochEngine : Engine := { src := 5, part := 0, ctx := 0 }

/-- An epoch image that passes its checks and one that does not: its header, the rest, and the checks (ImagesAreJudged). -/
theorem test_meets_epoch_header : ∀ crc ∈ [78397437, 0],
    (epochState crc).dev.readsWait 0 = false
    ∧ ((epochState crc).dev.readVa epochEngine 0 0x400_4000 512).2.toOption = some ((epochBytes crc).take 512) := by
  decide +kernel
theorem test_meets_epoch_rest : ∀ crc ∈ [78397437, 0],
    let h : BitVec 4096 := BitVec.ofNat 4096 (leNat ((epochBytes crc).take 512))
    (imageTables h).foldl (· + ·) 0 = 0 ∧ imageRest h = 64
    ∧ (epochState crc).dev.hostPieces epochEngine 0 (0x400_4000 + 512) 64 = []
    ∧ ((epochState crc).dev.readVa epochEngine 0 0x400_4000 (512 + 64)).2.toOption = some (epochBytes crc) := by
  decide +kernel
/-- The 64 bytes that hold the header's fields up to PERIOD. -/
def epochFields : List Byte := leBytes 64 (1 + atBit 64 2000 + atBit 81 2000 + atBit 98 2000 + atBit 115 16 + atBit 128 2)
theorem test_epoch_parts : (epochBytes 78397437).take 508 ++ zeros 4 ++ (epochBytes 78397437).drop 512
    = epochFields ++ (zeros 64 ++ (leBytes 64 1 ++ (zeros 64 ++ (zeros 64 ++ (zeros 64 ++ (zeros 64 ++ (zeros 64 ++ zeros 64))))))) := by
  decide +kernel
theorem test_crc_fields : epochFields.foldl crcByte 0xFFFF_FFFF = 638583962 ∧ (leBytes 64 1).foldl crcByte 3733950111 = 1038739330 := by
  decide +kernel
theorem test_crc_zeros :
    (zeros 64).foldl crcByte 638583962 = 3733950111 ∧ (zeros 64).foldl crcByte 1038739330 = 1047112506
    ∧ (zeros 64).foldl crcByte 1047112506 = 720743154 ∧ (zeros 64).foldl crcByte 720743154 = 3349570178
    ∧ (zeros 64).foldl crcByte 3349570178 = 2782722630 ∧ (zeros 64).foldl crcByte 2782722630 = 3125803715
    ∧ (zeros 64).foldl crcByte 3125803715 = 4216569858 := by
  decide +kernel
theorem foldl_two {xs ys : List Byte} {a b c : Nat} (h1 : xs.foldl crcByte a = b) (h2 : ys.foldl crcByte b = c) :
    (xs ++ ys).foldl crcByte a = c := by
  rw [List.foldl_append, h1, h2]
theorem crc_of {bs : List Byte} (h : bs.foldl crcByte 0xFFFF_FFFF = 4216569858) : crc32c bs = 78397437 := by
  unfold crc32c
  rw [h]
  decide
theorem test_epoch_fold : (epochFields ++ (zeros 64 ++ (leBytes 64 1 ++ (zeros 64 ++ (zeros 64 ++ (zeros 64 ++ (zeros 64 ++
    (zeros 64 ++ zeros 64)))))))).foldl crcByte 0xFFFF_FFFF = 4216569858 := by
  obtain ⟨a, b, c, d, e, f, g⟩ := test_crc_zeros
  obtain ⟨p, q⟩ := test_crc_fields
  exact foldl_two p (foldl_two a (foldl_two q (foldl_two b (foldl_two c (foldl_two d (foldl_two e (foldl_two f g)))))))
theorem test_epoch_crc : crc32c ((epochBytes 78397437).take 508 ++ zeros 4 ++ (epochBytes 78397437).drop 512) = 78397437 :=
  (congrArg crc32c test_epoch_parts).trans (crc_of test_epoch_fold)
/-- What the check of an image asks for besides its check word. -/
theorem test_epoch_rest_ok :
    let bs := epochBytes 78397437
    let h := (imageOf 1 bs).hdr
    leNat ((bs.drop 508).take 4) = 78397437
    ∧ (headerOk h && bitsOf h 8 10 == (epochState 0).dev.fid && hdrMember h (epochState 0).dev.fid && coverOk h
      && (imageTables h).foldl (· + ·) 0 ≤ 32768 && (imageOf 1 bs).tables.all (fun t => (epochState 0).dev.tableOk h t)) = true := by
  decide +kernel

/-- Slot 0 of partition 0 in a state, a model of one expert block in a region of 64 KiB. -/
def slotted (st : Nat) (d : Dev) : Dev :=
  put d [(rSrvSlotCfg 0, fSrvSlotCfg_Part, 0), (rSrvSlotSize 0, fSrvSlotSize_Size, 1), (rSrvSlotState 0, fSrvSlotState_State, st)]
/-- A MODEL_LOAD of `n` bytes into slot 0, and one into the slot that R263 picks (0x1F). -/
def loadRec (slot n : Nat) : Rec :=
  record 0x10 (atBit 128 slot + atBit 144 0x400_4000 + atBit 200 n + atBit 352 1 + atBit 360 64 + atBit 371 64)

/-- A MODEL_LOAD that passes its checks and one that fails them; MODEL_EVICT of a READY slot and of another; an eviction to end
(ModelsLoadAndLeave). -/
theorem test_meets_models :
    (∀ z ∈ [(0, 64, true), (0x1F, 64, true), (0, 0x20000, false)],
      let r := loadRec z.1 z.2.1
      let s := queued 0 r (slotted 0)
      let d1 := s.dev.popHead 0
      starts s 0x10 r ∧ d1.masters 0 = true ∧ (d1.loadCheck (s.dev.mkCmd 0 r)).isOk = z.2.2)
    ∧ (∀ st ∈ [0, 2], let r := record 0x11 0
        let s := queued 0 r (slotted st)
        starts s 0x11 r ∧ (s.dev.popHead 0).slotState 0 = st ∧ (s.dev.popHead 0).slotPart 0 = 0)
    ∧ (slotted 4 live).slotState 0 = 4 ∧ ∀ x ∈ (slotted 4 live).cq.cmds, x.opcode ≠ 0x14 := by
  decide +kernel

/-- Version 0 of slot 0, READY, in a state. -/
def versioned (v : VerState) (d : Dev) : Dev := (slotted 2 d).setVersion 0 { state := v, base := 0x401_0000, bytes := 64 }
def arena (d : Dev) : Dev := put d [(rSrvDeltaArena 0, fSrvDeltaArena_Base, 0x401), (rSrvDeltaArenaSize 0, fSrvDeltaArenaSize_Size, 1)]

/-- A DELTA_PUT that loads, a FREEZE and a DELTA_PUT that fails its checks; DELTA_RETIRE of a LIVE version, a TRAIN version and one
still loading (DeltasComeAndGo). -/
theorem test_meets_deltas :
    (∀ z ∈ [(0, VerState.free, 0), (2, .train, 0), (3, .free, 0x15)],
      let r := record 0x12 (atBit 144 z.1 + atBit 160 0x400_4000 + atBit 208 0x401_0000 + atBit 264 64)
      let s := queued 0 r (fun d => arena (versioned z.2.1 d))
      starts s 0x12 r ∧ (s.dev.popHead 0).masters 0 = true ∧ (s.dev.popHead 0).putCheck 0 r = z.2.2)
    ∧ (∀ v ∈ [VerState.live, .train, .loading],
        let r := record 0x13 0
        let s := queued 0 r (versioned v)
        let d1 := s.dev.popHead 0
        starts s 0x13 r ∧ d1.slotState 0 = 2 ∧ d1.slotPart 0 = 0 ∧ (d1.version 0).slot = 0 ∧ (d1.version 0).state = v) := by
  decide +kernel

/-- PAGE_RETIRE of a page with and without PERSIST, of one already retired, and of an address outside the stacks; of a page with a
write to it that waits, and with none (PageRetireRetires). -/
theorem test_meets_page_retire :
    (∀ z ∈ [(0, 0, false), (0, 1, false), (7, 0, false), (0, 0, true)],
      let r := record 0x20 (atBit 128 z.1 + atBit 184 z.2.1)
      let s := queued 7 r (fun d => if z.2.2 then d.applyRetire 0 0 0 4 false else d)
      let d1 := s.dev.popHead 0
      starts s 0x20 r ∧ (d1.retireCheck r = 0 ↔ z.1 = 0) ∧ d1.isRetired 0 0 0 = z.2.2)
    ∧ (∀ ws ∈ [[], [({ addr := 0, data := zeros 64 } : PWrite)]],
        let r := record 0x20 0
        let s := queued 7 r (fun d => { d with sect := [(0, { wbuf := ws })] })
        let d2 := (s.dev.popHead 0).applyRetire 0 0 0 4 (bitOf r 184)
        starts s 0x20 r ∧ d2.retireQuiet { s.dev.mkCmd 0 r with nextSeq := d2.nextHenOp } = ws.isEmpty) := by
  decide +kernel

/-- Every TARGET of POWER_STATE, with no refuser and with one (PowerStateCommitsOrIsRefused). -/
theorem test_meets_power_state :
    ∀ t ∈ [0, 1, 2, 3], ∀ busy ∈ [0, 1],
      let r := record 0x21 (atBit 128 t)
      let s := queued 7 r (fun d => put d [(rMgmtMbxCtrl, fMgmtMbxCtrl_Busy, busy)])
      starts s 0x21 r ∧ ((s.dev.popHead 0).refusers = 0 ↔ busy = 0) := by
  decide +kernel

/-- A command that has finished, one before and after its timeout, and one that timed out with an engine hung, before and after the
10 microseconds given to stop (StartedCommandsEnd). -/
theorem test_meets_ends :
    (let s := started 0 (record 0x02 0) .finished id
     ((s.dev.cmd? 0).map (fun x => s.dev.cmdDone x && x.opcode != 0x22 && s.dev.inStopTime x && s.dev.retireQuiet x
       && (((s.dev.finishSerial x).drainPart x.bufferPart).cmd? 0).any (fun y => !x.serving && !y.serving && y.queue < 128))) = some true)
    ∧ (let s := started 0 (record 0x02 0) .running (fun d => d.modCmd 0 (fun x => { x with serving := true }))
       (s.dev.cmd? 0).map (·.serving) = some true)
    ∧ (∀ t ∈ [999, 1000],
        let s := started 0 (record 0x02 (atBit 64 1)) .running (fun d => { d with time := t })
        ((s.dev.cmd? 0).map (fun x => !x.serving && x.status != 0x36 && x.opcode != 0x22
          && (decide (s.dev.time < x.start + 1000 * s.dev.timeoutOf x) == (t == 999)))) = some true)
    ∧ (∀ t ∈ [9999, 10000],
        let s := started 0 (record 0x02 0) .stopping (fun d => { d.modCmd 0 (fun x => { x with status := 0x36 }) with time := t })
        ((s.dev.cmd? 0).map (fun x => x.status == 0x36 && (decide (s.dev.time < x.expiredAt + 10000) == (t == 9999))
          && (((s.dev.finishSerial x).drainPart x.bufferPart).cmd? 0).any (fun y => !y.serving))) = some true) := by
  decide +kernel

/-- A record ready for ring 0, whose state is as given: `full` leaves no room. -/
def ringing (en full : Nat) (x : Ready) (d : Dev) : Dev :=
  put { d with cq := { d.cq with ready := [x] } }
    [(rCqRCfg 0, fCqRCfg_En, en), (rCqRHead 0, ⟨0, 32⟩, 0), (rCqRTail 0, ⟨0, 32⟩, 64 * full)]
def readyRec : Ready := { group := some 0, ring := 0, irqNow := false, notOk := false, word := 0 }
def unlinked (d : Dev) : Dev := put d [(rHifLink, fHifLink_State, 0)]

/-- A record whose ring is full, one whose ring is disabled, one that the link drops and one that is written; a request's record
that is held and one that is written; a moderation timer that does not run, runs, and has expired (RecordsReachTheirRing). -/
theorem test_meets_records :
    (∀ z ∈ [(1, 1, id), (0, 0, id), (1, 0, unlinked), (1, 0, id)],
      let d := z.2.2 (ringing z.1 z.2.1 readyRec live)
      d.cq.ready.find? (fun y => y.ring == 0 && !y.held && y.group.isSome) = some readyRec ∧ readyRec.entry = none ∧ d.upsets = []
      ∧ d.mustHold readyRec = (z.2.1 == 1) ∧ d.getF (rCqRCfg 0) fCqRCfg_En = z.1)
    ∧ (unlinked live).canSend 0 = false ∧ live.canSend 0 = true
    ∧ (∀ full ∈ [0, 1],
        let x : Ready := { readyRec with group := none, entry := some 3, final := true }
        let d := ringing 1 full x live
        d.cq.ready.find? (fun y => y.entry == some 3 && !y.held) = some x ∧ x.tok = none ∧ x.ring < 128 ∧ d.upsets = []
        ∧ d.mustHold x = (full == 1))
    ∧ (∀ t ∈ [999, 1000],
        let d := put { live with time := t, cq := { modStart := [(0, 0)] } } [(rCqRMod 0, fCqRMod_Timer, 1)]
        tfind d.cq.modStart 0 = some 0 ∧ d.getF (rCqRMod 0) fCqRMod_Timer ≠ 0 ∧ (d.time < 1000 ↔ t = 999))
    ∧ tfind live.cq.modStart 0 = none := by
  decide +kernel

/-- The PF and a VF write CQ_Q_CFG, CQ_R_CFG and CQ_R_HEAD: a value that is discarded and one that is not, with the queue or ring off
and on (QueueAndRingRegistersTakeWrites). -/
theorem test_meets_queue_registers :
    live.regOpen 0 (rCqQCfg 0) ∧ live.regOpen 0 (rCqRCfg 0) ∧ live.regOpen 0 (rCqRHead 0)
    ∧ live.cq.ready.find? (fun x => x.ring == 0 && x.held) = none
    ∧ (let d := { live with hif := { live.hif with vfEnable := true, numVfs := 1 } }
       d.regOpen 1 (rCqQCfg 0))
    ∧ live.queueEn 0 = false ∧ (queued 0 0 id).dev.queueEn 0 = true ∧ (queued 0 0 id).dev.regOpen 0 (rCqQCfg 0)
    ∧ (let w : W64 := BitVec.ofNat 64 (live.reg (rCqQCfg 0)).toNat
       ¬ fld w fCqQCfg_DepthLog2 < 4 ∧ ¬ 10 < fld w fCqQCfg_DepthLog2 ∧ fld w fCqQCfg_Func = 0
       ∧ live.getF (rCqRCfg (fld w fCqQCfg_Ring)) fCqRCfg_Func = 0) := by
  decide +kernel

/-! ## The serving engine -/

/-- Entry `i` of the request table as given. -/
def withEntry (i : Nat) (x : Entry) (d : Dev) : Dev := { d with srv := { d.srv with entries := tset d.srv.entries i x } }

/-- Partition 0 serves: four entries, ring 0 open, a model in slot 0, loads and pages to give. -/
def serving (d : Dev) : Dev := put (slotted 2 d)
  [(rSrvAdmCtrl 0, fSrvAdmCtrl_En, 1), (rSrvAdmCtrl 0, fSrvAdmCtrl_EntryMax, 4), (rSrvAdmDecCap 0, ⟨0, 32⟩, 1000),
   (rSrvAdmPfSlice 0, ⟨0, 32⟩, 500), (rSrvAdmShareLo 0, ⟨0, 32⟩, 0x40404040), (rSrvAdmShareHi 0, ⟨0, 32⟩, 0x40404040),
   (rSrvPoolFree 0, fSrvPoolFree_Free, 100), (rSrvCoefLimit 0 0, fSrvCoefLimit_Maxctx, 1000), (rSrvKvWin 0, fSrvKvWin_Wlog2, 30), (rSrvKvWin 0, fSrvKvWin_Base, 0x8000_0000),
   (rSrvSlotTokb 0, fSrvSlotTokb_Tokb, 16), (rSrvCoefKvb 0 0, ⟨0, 32⟩, 16), (rSrvKvDesc 0, fSrvKvDesc_Hcount, 8191),
   (rCqRCfg 0, fCqRCfg_En, 1), (rCqRCfg 0, fCqRCfg_Log2n, 6)]

/-- A SUBMIT of the PF for partition 0, slot 0, with a prompt of `n` tokens and the least cadence and first token it accepts. -/
def submission (n ttft : Nat) : List Byte :=
  recBytes (BitVec.ofNat 512 (1 + atBit 128 n + atBit 152 8 + atBit 184 ttft + atBit 256 0x400_4000))

/-- Submissions accepted and refused, by the checks and by the first-token bound; CANCEL of a request in no step, of one with a
token to hand over, of one closing, of none; reads of the window (SubmissionsAreAnswered). -/
theorem test_meets_submissions :
    (∀ z ∈ [(2, 0, 0), (0, 0, 1), (2, 1, 0xD)],
      let d := serving live
      let data := submission z.1 z.2.1
      let r := d.cappedPrio 0 (recOf data)
      d.reached 0 ∧ isSubmission 0x80_0000 data = true ∧ d.upsets = [] ∧ d.pstate = 0
      ∧ (bitsOf (recOf data) 0 4 ≠ 1 ∨ bitsOf (recOf data) 4 4 ≠ 1) ∧ d.subPart 0 r = some 0
      ∧ d.submitCheck 0 0 r = (if z.2.2 = 1 then 1 else 0) ∧ d.freeIndex 0 = some 0 ∧ d.masters 0 = true
      ∧ (let c := d.chargeOf 0 r d.time
         c.dec + c.base ≤ d.loadLimit 0 0 ∧ c.pages ≤ 100
         ∧ ((bitsOf r 184 24 ≠ 0 ∧ bitsOf r 184 24 * 1000 < c.first - d.time) ↔ z.2.2 = 0xD)))
    ∧ (∀ x ∈ [({ state := .free } : Entry), { state := .decode }, { state := .closing },
          { state := .decode, outs := [⟨1, 1, 0⟩] }],
        let d := withEntry 0 x (serving live)
        let data := recBytes (BitVec.ofNat 512 (1 + atBit 4 1))
        d.reached 0 ∧ isSubmission 0x80_0000 data = true ∧ d.pstate = 0
        ∧ bitsOf (recOf data) 0 4 = 1 ∧ bitsOf (recOf data) 4 4 = 1 ∧ bitsOf (recOf data) 352 14 = 0
        ∧ d.entry 0 = x ∧ x.func = 0) := by
  decide +kernel

/-- SETUP_DONE with its tokens readable; SERVING_CYCLE of a partition that runs, is idle, and owes; a decode step of one request and
a prefill slice of one, and one of none (ServingCyclesRun). -/
theorem test_meets_setup :
    let x : Entry := { state := .admitted, plen := 2, tokensVa := 0x400_4000 }
    let d := stacked (leBytes 64 0x0000000200000001) (withEntry 0 x (serving { live with stk := table }))
    d.entry 0 = x ∧ (∀ r ∈ d.hif.reads, r.purpose ≠ .tokens 0) ∧ (d.setupEngine x).isSome = true
    ∧ ((match d.setupEngine x with
        | some eng => (match d.dmaRead eng x.pkey x.tokensVa (4 * x.plen) with
          | (d1, .ok (bs, st)) => st == 0 && bs.length == 8 && d1.entry 0 == x && d1.getF (rSrvPfxCtrl x.part) fSrvPfxCtrl_En == 0
          | _ => false)
        | none => false) = true)
    ∧ d.getF (rSrvPfxCtrl 0) fSrvPfxCtrl_En = 0 := by
  decide +kernel

/-- A request of one partition in a state, in the cycle that started at 0. -/
def cycling (x : Entry) (d : Dev) : Dev :=
  let d := withEntry 0 x (serving d)
  { d with srv := { d.srv with cycles := [(0, 0)] } }

theorem test_meets_cycles :
    (let d := serving live
     d.cyclesRun 0 = true ∧ d.inState 0 .decode = [] ∧ d.inState 0 .prefill = [] ∧ d.stepsLeft 0 = []
     ∧ d.cyclesRun 5 = false)
    ∧ (∀ fold ∈ [false, true],
       let d := (if fold then folding else id) (withEntry 0 { state := .decode } (serving live))
       d.cyclesRun 0 = true ∧ d.foldPart 0 = fold ∧ d.inState 0 .decode ≠ [] ∧ thas d.srv.cycles 0 = false)
    ∧ (let d := cycling { state := .decode } live
       d.cyclesRun 0 = true ∧ thas d.srv.cycles 0 = true ∧ d.stepsLeft 0 ≠ []) := by
  decide +kernel

/-- Where a cycle's next step or slice stands: outside a fold, in its period, and past its end. -/
def periods : List (Bool × Nat) := [(false, 0), (true, 0), (true, 1)]
def inPeriod (z : Bool × Nat) (d : Dev) : Dev :=
  let d := (if z.1 then folding else id) d
  { d with fab := { d.fab with beatNo := z.2 } }
/-- What a step found in each of them (`stepInTime`). -/
theorem test_meets_periods : ∀ z ∈ periods, (inPeriod z (cycling { state := .decode } live)).stepInTime 0 = some (z.2 == 0) := by
  decide +kernel

def oneResult : StepResult :=
  { entry := 0, mainRows := [[0, 0x3F800000]], drafts := [], coltRows := [], poison := false, aflags := 0, products := [], writes := [] }
theorem test_meets_decode_step :
    ∀ z ∈ periods,
    let x : Entry := { state := .decode, plen := 2, glen := 8, gen := 1, pos := 2, npages := 1, plist := [⟨true, false, 0⟩] }
    let d := inPeriod z (cycling x live)
    let q := d.readyBatch (d.decodersOf 0 0) d.decodeRows
    let rs := [oneResult]
    let d2 := (q.2.zip (List.range q.2.length)).foldl (fun d z => d.beforeStep z.1 z.2)
      (q.1.latchRc 0 (stepCounts (q.1.inTiles 0 q.2.length) q.2.length))
    let w := d2.stepWrites 0 rs
    d.cyclesRun 0 = true ∧ thas d.srv.cycles 0 = true ∧ (d.stepsLeft 0).head? = some 0 ∧ d.descsFit 0 0 = true
    ∧ (∀ i ∈ d.decodersOf 0 0, (d.entry i).outs = []) ∧ q.1.covers q.2 rs = true
    ∧ w.2 = rs ∧ ((w.1.runEnds 0 (d.stepPhase 0 0 1)).entry 0).state = .decode := by
  decide +kernel
theorem test_meets_prefill_slice :
    ∀ z ∈ periods,
    let x : Entry := { state := .prefill, plen := 2, glen := 8, npages := 1, plist := [⟨true, false, 0⟩] }
    let d := inPeriod z (cycling x live)
    let r : SliceResult := { entry := 0, tokens := 1, finalRow := none, poison := false, aflags := 0, products := [], writes := [] }
    let q := d.readyBatch ((d.prefillOrder 0).take 1) (fun y => y.pos + if (d.entry 0).order = y.order then r.tokens else 0)
    let d1 := q.1
    let d2 := (let y := d1.entry 0
      let d1 := d1.latchRc 0 [1, 0, 1]
      (if d1.slotM4 y.slot then (List.range r.tokens).foldl (fun d j => d.writeScore 0 (y.pos + j) none (y.pos + j)) d1
        else d1).writeKvDescs 0 0 (y.pos + r.tokens) r.tokens y.pos)
    let w := d2.sliceWrites 0 [r]
    d.cyclesRun 0 = true ∧ thas d.srv.cycles 0 = true ∧ d.stepsLeft 0 = [] ∧ d.sliceFits [r] = true ∧ d.sliceFits [] = true
    ∧ d.sliceSmall 0 [r] = true ∧ d.sliceSmall 0 [] = true ∧ d.stepInTime 0 = some (z.2 == 0) ∧ d.foldPart 0 = z.1
    ∧ d.descsFit 0 0 = true ∧ q.2 = [0] ∧ w.2 = [r] ∧ (w.1.entry 0).state = .prefill
    ∧ (w.1.entry 0).pos + r.tokens ≠ (w.1.entry 0).plen := by
  decide +kernel

/-- A token on time and one late, each with ring space and with a full ring (TokenHandoverIsJudged). -/
theorem test_meets_handover :
    ∀ now ∈ [0, 100], ∀ full ∈ [false, true],
      let x : Entry := { state := .decode, glen := 8, deadline := 50, outs := [⟨1, 1, 0⟩] }
      let d := put (withEntry 0 x (serving { live with time := now })) [(rCqRTail 0, ⟨0, 32⟩, if full then 64 else 0)]
      (d.entry 0).outs = ⟨1, 1, 0⟩ :: [] ∧ (d.entry 0).part < 6 ∧ (d.entry 0).cancelled = false ∧ d.ringOpen 0 = !full
      ∧ ((d.entry 0).deadline < d.time ↔ now = 100) := by
  decide +kernel

/-- Parameters written with and without live entries, share bytes above 64; CLR, FLUSH, the selections
(ServingRegistersTakeWrites). -/
theorem test_meets_serving_registers :
    (∀ a ∈ [rSrvAdmDecCap 0, rSrvAdmPfSlice 0, rSrvAdmBeat 0, rSrvAdmSetup 0, rSrvAdmShareLo 0, rSrvAdmShareHi 0, rSrvAdmFloor 0,
        rSrvAdmPool 0, rSrvLateMax 0, rSrvPfxCtrl 0, rSrvRtSel, rSrvDeltaSel], live.regOpen 0 a ∧ (findReg a).isSome = true)
    ∧ live.liveCount 0 = 0 ∧ (withEntry 0 { state := .decode } live).liveCount 0 = 1
    ∧ (∃ j < 4, 64 < bitsOf (0x41 : W64) (8 * j) 8)
    ∧ fld (0x100 : W32) fSrvPfxCtrl_Flush = 1 ∧ bitsOf (0x100 : W32) 0 8 = (put live [(rSrvPfxCtrl 0, ⟨0, 32⟩, 0)]).getF (rSrvPfxCtrl 0) ⟨0, 32⟩
    ∧ (live.version 0).state = .free ∧ live.upsets = []
    ∧ (let d := { live with hif := { live.hif with vfEnable := true, numVfs := 1, fns := [(0, { busMaster := true }), (1, {})] } }
       d.regOpen 1 rSrvDeltaSel ∧ ((d.setVersion 0 { state := .live, part := 5 }).version 0).part ≠ d.vfPart 1) := by
  decide +kernel

/-! ## The fabric -/

/-- Link 0 enabled and in a state, its peer of generation 1. -/
def linked (st : Nat) (d : Dev) : Dev := put d [(rFabLinkState 0, fFabLinkState_State, st), (rFabLinkState 0, fFabLinkState_Gen, 1),
  (rFabLinkCtrl 0, fFabLinkCtrl_En, 1)]

/-- A slot entry of link 0, job 0, one granule. -/
def slotEntry (rx : Nat) : BitVec 256 := BitVec.ofNat 256 (1 + atBit 1 rx + atBit 32 1 + atBit 64 0x400_4000 + atBit 151 1)
/-- An epoch image with those entries and partition 0 in fold job 0. -/
def image (es : List (BitVec 256)) : FabImage :=
  { hdr := BitVec.ofNat 4096 (1 + atBit 64 2000 + atBit 81 2000 + atBit 98 2000 + atBit 115 16 + atBit 128 2 + atBit 240 0x80 + atBit 1024 1)
    work := []
    tables := [es]
    epoch := 1 }
/-- An epoch in force. -/
def inEpoch (es : List (BitVec 256)) (d : Dev) : Dev :=
  put { d with fab := { d.fab with active := some (image es) } } [(rFabStatus, fFabStatus_EpochState, 1)]

def peer : PeerIdent := { gen := 1, fid := 1, foldTag := 0, link := 0, flight := 0 }

/-- EN, RETRAIN and RETIRE of a link with and without an epoch's records to keep, of one retired; identities that pass and that fail;
links in and out of training and service, before and after the times they are given; codewords at and above the limit
(LinksAreControlledAndTrained). -/
theorem test_meets_links :
    live.regOpen 0 (rFabLinkCtrl 0) ∧ live.unitGone .link 0 = false
    ∧ fld (3 : W32) fFabLinkCtrl_Retire = 0 ∧ fld (4 : W32) fFabLinkCtrl_Retire = 1
    ∧ (put live [(rFabLinkCtrl 0, fFabLinkCtrl_En, 1)]).getF (rFabLinkCtrl 0) fFabLinkCtrl_En = 1
    ∧ (linked 5 { live with ras := { live.ras with units := [(unitCode ⟨.link, 0⟩, { state := 3 })] } }).unitGone .link 0 = true
    ∧ live.gan.retireCount < 512 ∧ 512 ≤ ({ live.gan with cfgPend := List.replicate 512 (.retire ⟨7, 0, 0, 0⟩, .nobody) } : Gander).retireCount
    ∧ (∀ st ∈ [0, 1, 2, 3, 4], (linked st live).linkState 0 = st ∧ (linked st live).linkUp 0 = (st == 2 || st == 3))
    ∧ (let x := (linked 1 live).reg (rFabLinkExpect 0)
       peer.gen ≠ 0 ∧ peer.foldTag.toNat = live.getF rFabFoldTag fFabFoldTag_Tag ∧ peer.fid ≠ live.fid ∧ peer.fid < 768 ∧ live.fid < 768
       ∧ fld x fFabLinkExpect_En = 0)
    ∧ (∀ t ∈ [49999999, 50000000],
       let d := linked 1 { live with time := t }
       d.linkState 0 = 1 ∧ (tget d.fab.linkAt 0 0 + 50000000 ≤ d.time ↔ t = 50000000))
    ∧ (∀ t ∈ [999999999, 1000000000],
       let d := linked 4 { live with time := t }
       d.linkState 0 = 4 ∧ (tget d.fab.linkAt 0 0 + 1000000000 ≤ d.time ↔ t = 1000000000)
       ∧ d.getF (rFabLinkCtrl 0) fFabLinkCtrl_En = 1 ∧ d.getF (rFabLinkState 0) fFabLinkState_Reason = 0 ∧ d.unitGone .link 0 = false)
    ∧ (∀ n ∈ [8, 9], (n ≤ (linked 2 live).getF (rFabLinkCfg 0) fFabLinkCfg_UncorrMax ↔ n = 8)) := by
  decide +kernel

/-- A boundary not yet reached and one reached, with no epoch, with one, with the fall-back, and with a commit due; pace words of the
beat, of another and of another generation, that bring something and nothing, with one sent just before, 8 sent, or none; a staged
epoch to commit, with and without a finished EPOCH_ACTIVATE (BeatsRunAndEpochsCommit). -/
theorem test_meets_beats :
    (∀ d ∈ [live, inEpoch [] live, put (inEpoch [] live) [(rFabStatus, fFabStatus_Fallback, 1)]], ∀ t ∈ [7999, 8000],
      let d : Dev := { d with time := t }
      d.fabricRuns = true ∧ d.commitDue = false ∧ (d.fab.beatStart + d.fab.len1 ≤ d.time ↔ t = 8000))
    ∧ (let d : Dev := { live with time := 8000, fab := { live.fab with staged := some (image []), commitAt := some 0 } }
       d.fabricRuns = true ∧ d.fab.beatStart + d.fab.len1 ≤ d.time ∧ d.commitDue = true ∧ d.upsets = []
       ∧ d.fab.staged = some (image []) ∧ (∀ u ∈ d.ras.units, unitOfCode u.1 = ⟨.link, 0⟩ → u.2.state ≠ 3))
    ∧ (let d := linked 2 live
       d.linkUp 0 = true ∧ bitsOf (1 : BitVec 1024) 0 4 = d.getF (rFabLinkState 0) fFabLinkState_Gen
       ∧ bitsOf (1 : BitVec 1024) 32 32 = d.fab.beatNo % 2 ^ 32 ∧ bitsOf (0 : BitVec 1024) 0 4 ≠ d.getF (rFabLinkState 0) fFabLinkState_Gen
       ∧ bitsOf (0x100000001 : BitVec 1024) 32 32 ≠ d.fab.beatNo % 2 ^ 32)
    ∧ (let a := live.fab.pace
       let b := paceOf (1 : BitVec 1024)
       let c := paceOf (1 + 2 ^ 128 : BitVec 1024)
       max a.need b.need = a.need ∧ b = a ∧ c ≠ a)
    ∧ (∀ z ∈ [(50, 0), (49, 0), (50, 8)],
       let d : Dev := { live with time := z.1, fab := { live.fab with paceSent := z.2 } }
       d.fab.paceAt + 50 ≤ d.time ∧ d.fab.paceSent < 8 ↔ z = (50, 0))
    ∧ (let s := started 7 (record 0x22 0) .finished (fun d => { d with fab := { d.fab with staged := some (image []), commitAt := some 0 } })
       (s.dev.cq.cmds.find? (fun y => y.opcode == 0x22 && y.phase == .finished)).isSome = true ∧ s.dev.commitDue = true) := by
  decide +kernel

/-- A program command that has passed its checks at the head of its queue, at a period and within one, its job stopped or not, and
one whose partition has left the fold; no such head (FoldCommandsStartAtPeriods). -/
theorem test_meets_fold :
    (∀ z ∈ [(0, 0, true), (1, 0, true), (0, 1, true), (0, 0, false)],
      let s := queued 0 (program 1) (fun d =>
        (if z.2.2 then inEpoch [] else id) (described (bytes4 0x400_2000) (bytes4 0x400_3000) (training d)))
      let x : Cmd := { s.dev.mkCmd 0 (program 1) with fold := true }
      let d := put { s.dev with cq := { s.dev.cq with checked := [(0, x)] }, fab := { s.dev.fab with beatNo := z.1 } }
        [(rFabStopJobs, ⟨0, 1⟩, z.2.1)]
      tfind d.cq.checked 0 = some x ∧ d.waiting 0 = program 1 :: [] ∧ d.waitReasons 0 (program 1) = [] ∧ d.bar4Before 0 = false
      ∧ d.foldPart x.part = z.2.2 ∧ (z.2.2 = true → d.period = 2) ∧ (d.fab.beatNo % d.period = 0 ↔ z.1 = 0) ∧ x.start ≤ d.fab.beatStart
      ∧ d.jobStopped x.part = (z.2.1 == 1) ∧ d.upsets = [])
    ∧ tfind live.cq.checked 0 = none := by
  decide +kernel

/-- BENDs and notices on a link in service and on one that is not, of its generation and of another, of this beat and the one before,
by a root and by none; a candidate that acts as root and one that does not yet; a device that heard no root for 8 ms, one that heard
one, and the root itself; a message of another gander in LULL, while LULL and FALLOW are entered, in FALLOW, and where it is not heard
(TimeWordsAndNotices). -/
theorem test_meets_time :
    (let d := linked 2 live
     let w : Rec := BitVec.ofNat 512 (1 + atBit 8 1)
     let v : Rec := BitVec.ofNat 512 (1 + atBit 8 1 + atBit 18 15)
     d.linkUp 0 = true ∧ bitsOf w 0 4 = d.getF (rFabLinkState 0) fFabLinkState_Gen ∧ bitsOf w 32 32 = d.fab.beatNo % 2 ^ 32
     ∧ bitsOf w 18 4 ≠ 15 ∧ bitsOf w 8 10 ≠ d.fid ∧ bitsOf v 18 4 = 15 ∧ d.getF rFabCfg fFabCfg_TimeRoot ≠ 1
     ∧ bitsOf (0 : Rec) 0 4 ≠ d.getF (rFabLinkState 0) fFabLinkState_Gen ∧ live.linkUp 0 = false)
    ∧ (let d : Dev := linked 2 { live with fab := { live.fab with beatNo := 1, prevNo := 0 } }
       let w : Rec := BitVec.ofNat 512 1
       d.linkUp 0 = true ∧ bitsOf w 32 32 ≠ d.fab.beatNo % 2 ^ 32 ∧ bitsOf w 32 32 = d.fab.prevNo % 2 ^ 32
       ∧ thas d.fab.bendsPrev 0 = false)
    ∧ (∀ z ∈ [(999999, 1), (1000000, 1), (1000000, 0)],
       let d := put { live with time := z.1 } [(rFabCfg, fFabCfg_TimeRoot, z.2)]
       d.getF rFabCfg fFabCfg_TimeRoot = 1 ∧ d.fab.lowerHeard + 1000000 ≤ d.time ↔ z = (1000000, 1))
    ∧ (∀ z ∈ [(7999999, 0, 0), (8000000, 0, 0), (8000000, 1, 0), (8000000, 0, 1)],
       let d := put { live with time := z.1 } [(rFabStatus, fFabStatus_Root, z.2.1), (rFabStatus, fFabStatus_TimeLost, z.2.2)]
       d.getF rFabStatus fFabStatus_Root ≠ 1 ∧ d.fab.rootHeard + 8000000 ≤ d.time ∧ d.getF rFabStatus fFabStatus_TimeLost = 0
         ↔ z = (8000000, 0, 0))
    ∧ (let d := put (linked 2 live) [(rFabLinkPeer 0, fFabLinkPeer_Fid, 1), (rFabLinkPeer 0, fFabLinkPeer_Link, 0)]
       d.linkUp 0 = true ∧ d.getF (rFabLinkPeer 0) fFabLinkPeer_Fid = 1 ∧ d.getF (rFabLinkPeer 0) fFabLinkPeer_Link = 0)
    ∧ (∀ z ∈ [(2, none), (1, some 1), (1, some 2), (3, none), (0, none)], ∀ en ∈ [0, 1],
       let d := put (linked 2 { live with pwr := { live.pwr with entering := z.2 } })
         [(rPwrWakeEn, fPwrWakeEn_Fabric, en), (rPwrState, fPwrState_State, z.1)]
       d.linkUp 0 = true ∧ (d.getF rPwrWakeEn fPwrWakeEn_Fabric = 1 ↔ en = 1) ∧ d.pstate = z.1 ∧ d.pwr.wakeWaits = 0
       ∧ d.pwr.entering = z.2) := by
  decide +kernel

/-- A TX slot that faulted and one that did not, on a link ACTIVE and not; an RX slot that arrives and one that is none
(SlotsSendAndReceive). -/
theorem test_meets_slots :
    (∀ fault ∈ [false, true], ∀ st ∈ [2, 3], ∀ zero ∈ [false, true],
      let t : TxSlot := { n := 0, granules := [(0, false)], fault := fault, sent := false, zeros := zero }
      let d0 := linked st (inEpoch [slotEntry 0] live)
      let d : Dev := { d0 with fab := { d0.fab with tx := [t] } }
      d.fab.tx.find? (fun x => x.n == 0 && !x.sent) = some t ∧ d.upsets = [] ∧ d.linkState (bitsOf (d.tableNow.getD 0 0) 2 7) = st
      ∧ d.fab.tx.find? (fun x => x.n == 1 && !x.sent) = none)
    ∧ (let d0 := linked 3 (inEpoch [slotEntry 1] { live with stk := table })
       let d : Dev := { d0 with fab := { d0.fab with rx := [{ n := 0, arrived := false, notified := false }] } }
       let x := d.tableNow.getD 0 0
       let d1 : Dev := { d with fab := { d.fab with rx := d.fab.rx.map (fun r => if r.n = 0 then { r with arrived := true } else r) } }
       d.fab.rx.any (fun r => r.n == 0 && !r.arrived) = true ∧ d.linkState (bitsOf x 2 7) = 3 ∧ bitsOf x 32 16 = 1
       ∧ bitsOf x 48 3 = 0 ∧ d.stoppedJob (bitsOf x 58 6) = false ∧ d.inReset (bitsOf x 51 3) = false ∧ d.upsets = []
       ∧ (d1.xlate (seEngine x) (bitsOf x 112 8) (bitsOf x 64 48) true).2.toOption = some 0x4000
       ∧ d.fab.rx.any (fun r => r.n == 1 && !r.arrived) = false) := by
  decide +kernel

/-- A deadline that passed before, one not yet reached, and those due: one whose stream is confirmed and counts its arrival; one whose
stream is lost, with a BEND that says GONE, one that does not, and none (DeadlinesConfirmOrTimeOut). -/
theorem test_meets_deadlines :
    ({ live with fab := { live.fab with deadlineDone := [0] } } : Dev).fab.deadlineDone.contains 0 = true
    ∧ (∀ t ∈ [99, 100],
        let d : Dev := { live with time := t }
        d.fab.deadlineDone.contains 0 = false ∧ (d.fab.beatStart + d.getF rFabTmo fFabTmo_Grace ≤ d.time ↔ t = 100))
    ∧ (∀ z ∈ [(some (1 : Nat), true), (some 1, false), (some 3, true), (none, false)],
        let bends : Tab Rec := match z.1 with
          | some b => [(0, BitVec.ofNat 512 (1 + atBit 280 b))]
          | none => []
        let rx : List RxSlot := [{ n := 0, arrived := z.2, notified := false }]
        let d0 := linked 3 (inEpoch [slotEntry 1] { live with time := 1000000 })
        let d : Dev := { d0 with fab := { d0.fab with tablePrev := [slotEntry 1], bendsPrev := bends, rxPrev := rx } }
        d.fab.deadlineDone.contains 0 = false ∧ d.fab.beatStart + d.getF rFabTmo fFabTmo_Grace ≤ d.time ∧ d.linkUp 0 = true
        ∧ d.fab.rxPrev.map (fun x => (seLink (d.fab.tablePrev.getD x.n 0), seJob (d.fab.tablePrev.getD x.n 0),
            seNotify (d.fab.tablePrev.getD x.n 0), confirmed d.fab.tablePrev bends rx x)) = [(0, 0, true, z.1 == some 1 && z.2)]
        ∧ bendState bends 0 0 = z.1 ∧ thas bends 0 = z.1.isSome) := by
  decide +kernel

/-! ## Partitions, slices and resets -/

/-- A VF is present, bound to partition `p`. -/
def withVf (p : Nat) (d : Dev) : Dev :=
  put { d with hif := { d.hif with vfEnable := true, numVfs := 1, fns := [(0, { busMaster := true }), (1, {})] } }
    [(rSectVfBind 1, ⟨0, 3⟩, p)]

/-- Layouts that pass and that fail each clause; a layout that changes and one that does not; slices off, running within a length, at
its end, and idle (LayoutsAndSlicesChange). -/
theorem test_meets_layouts :
    live.regOpen 0 rSectPartLayout ∧ (withVf 0 live).regOpen 1 rSectPartLayout ∧ live.regOpen 0 (rSectSliceCtrl 0)
    ∧ live.getF rSectPartBusy fSectPartBusy_LayoutBusy = 0
    ∧ (let d := put { live with layoutOn := [0] } [(rSectPartBusy, fSectPartBusy_LayoutBusy, 1)]
       d.getF rSectPartBusy fSectPartBusy_LayoutBusy = 1 ∧ ∀ k ∈ d.layoutOn, k < 6)
    ∧ live.isLive 0 = true ∧ live.isLive 1 = false
    ∧ (let d := put live [(rSectCtxCfg 0 0, fSectCtxCfg_En, 0)]
       d.quiet 1 = true ∧ ∀ k : Fin 6, d.unitGone .sector k = false)
    ∧ live.getF (rSectSliceCtrl 0) fSectSliceCtrl_En = 0 ∧ live.firstEntry 0 1 0 = none
    ∧ (put live [(rSectSliceEnt 0 0, fSectSliceEnt_Len, 5)]).firstEntry 0 1 0 = some 0
    ∧ (∀ z ∈ [(false, 0), (false, 9), (true, 0)],
        let d := put { live with parts := [(0, { sliceIdle := z.1, sliceEnd := z.2 })] } [(rSectSliceCtrl 0, fSectSliceCtrl_En, 1)]
        d.partExists 0 = true ∧ d.getF (rSectSliceCtrl (d.liveSect 0)) fSectSliceCtrl_En = 1 ∧ (d.part 0).sliceIdle = z.1
        ∧ ((d.part 0).sliceEnd ≤ d.time ↔ z.2 = 0)) := by
  decide +kernel

/-- Partition 0 in a phase of its reset, with suspects. -/
def resetting (ph : ResetPhase) (ss : List Suspect) (d : Dev) : Dev := { d with parts := [(0, { phase := ph, suspects := ss })] }
def suspect : Suspect := { ctx := 1, queue := 0, serving := false, opcode := 1, seq := 0, engine := ⟨.tile, 0⟩, outcome := 0, status := 0, hung := [], cmd := none }

/-- Resets of a partition that exists, is in reset, waits, and does not exist; each later phase with what it needs, and without
(PartitionResetsRun). -/
theorem test_meets_partition_resets :
    live.regOpen 0 (rSectPartCtrl (live.liveSect 0)) ∧ live.partExists 0 = true ∧ live.inReset 0 = false ∧ live.pstate = 0
    ∧ live.partExists 5 = false
    ∧ (resetting .records [] live).inReset 0 = true
    ∧ (put live [(rPwrState, fPwrState_State, 1)]).pstate ≠ 0
    ∧ (live.part 0).phase ≠ .records ∧ (live.part 0).replaying = none
    ∧ (let d := resetting .records [] live
       (d.part 0).phase = .records ∧ (d.part 0).suspects = [] ∧ d.unitInPart 0 ⟨.tile, 0⟩ = true ∧ (d.part 0).replaying = none)
    ∧ (∀ v ∈ [0, 1], (put live [(rCsState 0, fCsState_Training, v)]).getF (rCsState 0) fCsState_Training = v)
    ∧ ((live.stackSt 0).trainAt + 600000000 ≤ 600000000 ∧ live.time < (live.stackSt 0).trainAt + 600000000)
    ∧ (live.linkState 0 = 0 ∧ (put live [(rFabLinkState 0, fFabLinkState_State, 4)]).linkState 0 = 4)
    ∧ (∀ z ∈ [(0, 0x21, true, false), (300000000, 0x11, true, true), (0, 0x101, false, false)],
       let y : Cmd := { running [] with word := BitVec.ofNat 512 z.2.1 }
       let d : Dev := { live with
         time := z.1, cq := { live.cq with cmds := [y] }
         parts := [(0, { phase := .replay, suspects := [suspect], replaying := some 1 })] }
       let x := d.part 0
       let t := x.replayAt + min (1000 * d.timeoutOf y) (1000000 * d.getF rRasReplay fRasReplay_Tmo)
       x.phase = .replay ∧ x.replaying = some 1 ∧ d.cmd? 1 = some y ∧ y.phase ≠ .waiting ∧ y.ownRun = z.2.2.1
       ∧ (d.cmdDone { y with fold := false }) = z.2.2.2 ∧ (t + 10000 ≤ d.time ↔ z.1 ≠ 0)
       ∧ x.replayed + 1 = x.suspects.length ∧ x.replayed < 8 ∧ ∀ z ∈ x.suspects, z.ctx < 16)
    ∧ ((resetting .restored [] live).part 0).phase = .restored ∧ (live.part 0).phase ≠ .restored := by
  decide +kernel

/-- An FLR of a VF that is present, with and without a command of its own, of one that is not, and of the PF
(FunctionResetsTakeWhatTheirFunctionsOwn). -/
theorem test_meets_function_resets :
    (let d := withVf 0 live
     d.ready = true ∧ d.hif.vfEnable = true ∧ 1 ≤ d.hif.numVfs ∧ d.vfPart 1 = 0 ∧ d.partExists 0 = true ∧ d.inReset 0 = false
     ∧ d.pstate = 0 ∧ (∀ x ∈ d.cq.cmds, x.func ≠ 1))
    ∧ (∃ x ∈ ({ withVf 0 live with cq := { cmds := [{ running [] with func := 1 }] } } : Dev).cq.cmds, x.func = 1)
    ∧ live.hif.vfEnable = false ∧ live.ready = true ∧ (put live [(rHifReset, fHifReset_Ready, 0)]).ready = false := by
  decide +kernel

/-! ## Register accesses and stack memory -/

/-- A page with events, open to the PF and to a VF (HeaderRegistersTakeWrites). -/
theorem test_meets_headers :
    let d := withVf 0 live
    (pageInfo pgFab).isSome = true ∧ pgFab % 4096 = 0 ∧ live.regOpen 0 (pgFab + 0x18) ∧ live.regOpen 0 (pgFab + 0x8)
    ∧ live.regOpen 0 (pgFab + 0x10) ∧ live.regOpen 0 (pgFab + 0x14) ∧ d.regOpen 1 pgFab := by
  decide +kernel

/-- Accesses of each kind: of a length that is none, outside the map, a double word of a word register, a VF's of what it does not
write, the low and the high word of a 64-bit register, reads of a plain and of a latched register, of a word kept, of eight bytes and
of a length that is none (RegisterAccessesFollowTheRules). -/
theorem test_meets_register_accesses :
    live.bar0Open 0 (rCqQCfg 0) = true ∧ tfind live.heldLow 0 = none ∧ (rCqQCfg 0) % 4 = 0
    ∧ (findReg (rCqQCfg 0)).map (fun x => (x.1.size, x.2)) = some (4, (rCqQCfg 0)) ∧ (rCqQCfg 0) % 8 = 0 ∧ (rCqQCfg 0) < 0x3FF_0000
    ∧ live.bar0Open 0 0x4 = true ∧ findReg 0x3FE_F000 = none ∧ live.bar0Open 0 0x3FE_F000 = true
    ∧ (let d := withVf 0 live
       (d.view 1 (rCqQCfg 0)).2 = false ∧ d.bar0Open 1 (rCqQCfg 0) = true ∧ tfind d.heldLow 1 = none)
    ∧ (findReg rRasInject).map (fun x => (x.1.size, x.2)) = some (8, rRasInject) ∧ rRasInject % 8 = 0 ∧ rRasInject < 0x3FF_0000
    ∧ live.bar0Open 0 rRasInject = true ∧ (∀ n ∈ [2, 16], n ≠ 4 ∧ n ≠ 8) ∧ (rCqQCfg 0 + 2) % 4 ≠ 0 ∧ live.bar0Open 0 (rCqQCfg 0 + 2) = true
    ∧ tfind ({ live with heldLow := [(0, (rRasInject, 5))] } : Dev).heldLow 0 = some (rRasInject, 5)
    ∧ isLatched (rCqQCfg 0) = false ∧ isLatched rDevTime = true
    ∧ (findReg (rDevTime + 4)).map (fun x => x.2) = some rDevTime ∧ rDevTime % 8 = 0 ∧ live.bar0Open 0 (rDevTime + 4) = true
    ∧ tfind ({ live with latched := [(rDevTime, (rDevTime, 5))] } : Dev).latched (0 * 2 ^ 26 + rDevTime) = some (rDevTime, 5) := by
  decide +kernel

/-- Reads and writes of BAR4: outside the memory, of a stack that cannot be reached, of a granule that reads and is written, and
of one retired; buffered writes to tile, host and stack memory; a service window with accesses, a hen running or not
(StackAccessesReadAndWriteGranules). -/
theorem test_meets_stack_accesses :
    live.reached 0 ∧ live.bar4Addr 0 (2 ^ 40) = none ∧ live.bar4Addr 0 0x4000 = some 0x4000 ∧ live.bar4Closed 0 = false
    ∧ live.hif.bar4 = [] ∧ (∀ z ∈ live.cs, z.2.accQ = []) ∧ live.henBusy 0 (pcOf 0x4000) = false ∧ live.upsets = []
    ∧ (resetting .records [] live).bar4Closed 0 = true
    ∧ (let m := live.meterRead (live.stackPart (stackOf 0x4000)) 64
       (m.1.readStk 4 0x4000 64).2.2 = 0)
    ∧ live.deadGran (granOf 0x4000) = false ∧ live.stk.wf = true ∧ (live.applyRetire 1 0x4000 0 4 false).deadGran (granOf 0x4000) = true
    ∧ (∀ a ∈ [2 ^ 48, 2 ^ 51],
        let w : PWrite := { addr := a, data := zeros 64 }
        let d : Dev := { live with sect := [(0, { wbuf := [w] })] }
        (d.wbuf 0).find? (fun w => granOf w.addr == a) = some w ∧ (isTram a = true ↔ a = 2 ^ 48) ∧ (isHost a = true ↔ a = 2 ^ 51)
        ∧ w.nibble = none ∧ w.poison = false ∧ d.canSend w.func = true)
    ∧ (live.wbuf 0).find? (fun w => granOf w.addr == 0) = none
    ∧ (let d : Dev := { live with cs := [(0, { accQ := [(0, [{ func := 0, addr := 0, len := 4, data := none, windows := 0, held := 0 }])] })] }
       d.hif.bar4 = [] ∧ d.upsets = [] ∧ (d.queued 0 0).length = 1 ∧ d.henBusy 0 0 = false) := by
  decide +kernel

/-- A stack refreshed and one in self-refresh; samples below the trip point and the tenth above it; a granule sound, repairable and
poison under the scrubber, and the scrubber off; a clear and a retraining under way and not (StacksAreKeptUp). -/
theorem test_meets_stacks :
    (∀ v ∈ [0, 1], (put live [(rCsState 0, fCsState_Selfref, v)]).getF (rCsState 0) fCsState_Selfref = v)
    ∧ (let rs : List Reading := [⟨100, false⟩]
       min 1023 ((rs.map (fun r => if r.bad then 440 else r.temp.toNat)).foldl max 0) < 460 ∧ rs ≠ [])
    ∧ (let d : Dev := { live with cs := [(0, { hot := 9 })] }
       (d.stackSt 0).hot = 9 ∧ d.pstate ≠ 6 ∧ d.pstate ≠ 7
       ∧ 460 ≤ min 1023 (([(⟨480, false⟩ : Reading)].map (fun r => if r.bad then 440 else r.temp.toNat)).foldl max 0))
    ∧ (∀ bad ∈ [0, 2, 3],
        let d := put { live with stk := { live.stk with flags := [(physOf 0 0 0, { valid := true, bad := bad })] } }
          [(rCsState 0, fCsState_Ready, 1), (rCsScrubCtrl 0, fCsScrubCtrl_En, 1)]
        d.getF (rCsState 0) fCsState_Ready = 1 ∧ d.getF (rCsScrubCtrl 0) fCsScrubCtrl_En = 1 ∧ d.henOps = [] ∧ d.queued 0 0 = []
        ∧ tget (d.stackSt 0).scrubAt 0 0 + 64 < pcGranules ∧ d.upsets = [] ∧ d.deadGran (physOf 0 0 0) = false
        ∧ (d.stk.flag (physOf 0 0 0)).valid = true ∧ (d.stk.flag (physOf 0 0 0)).bad = bad ∧ (d.stk.flag (physOf 0 0 0)).poison = false)
    ∧ live.getF (rCsState 0) fCsState_Ready = 0
    ∧ (∀ v ∈ [0, 1], (put live [(rCsState 0, fCsState_VbmClear, v)]).getF (rCsState 0) fCsState_VbmClear = v)
    ∧ (∀ b ∈ [false, true], (({ live with cs := [(0, { retraining := b })] } : Dev).stackSt 0).retraining = b) := by
  decide +kernel

/-- Each register of the group, open to the PF and to a VF; RETURN of no unit, of one in service, of one out of service that can
resume at once and of one that cannot (StackAndUnitRegistersTakeWrites). -/
theorem test_meets_unit_registers :
    (∀ a ∈ [rCsTempMax 0, rCsWinWait 0, rRasUnitCmd, rRasUnitSel, rRasSuspSel, rRasInject], live.regOpen 0 a)
    ∧ (withVf 0 live).regOpen 1 (rCsTempMax 0) ∧ (withVf 0 live).regOpen 1 rRasUnitSel
    ∧ fld (1 : W32) fRasUnitCmd_Return = 1 ∧ fld (0 : W32) fRasUnitCmd_Return = 0
    ∧ (put live [(rRasUnitSel, fRasUnitSel_Kind, 7)]).selUnit = none
    ∧ (∀ z ∈ [(0, 0), (1, 0), (1, 1)],
        let d := put ({ live with
          ras := { live.ras with units := [(unitCode ⟨.tile, 0⟩, { state := z.1 })] } } : Dev) [(rFabStatus, fFabStatus_EpochState, z.2)]
        d.selUnit = some ⟨.tile, 0⟩ ∧ (d.unit ⟨.tile, 0⟩).state = z.1 ∧ (d.hasEpoch = true ↔ z.2 = 1))
    ∧ (let d := put ({ live with ras := { live.ras with units := [(unitCode ⟨.link, 0⟩, { state := 1 })] } } : Dev)
        [(rRasUnitSel, fRasUnitSel_Kind, 4)]
       d.selUnit = some ⟨.link, 0⟩ ∧ d.hasEpoch = false ∧ ∀ p < 6, d.unitInPart p ⟨.link, 0⟩ = true → d.quiet p = true) := by
  decide +kernel

/-! ## The host link, power-on and resets -/

/-- The sequence waiting for its rails, with and without them; and training, with PERST_N high and low (PowerOnSequenceRuns). -/
theorem test_meets_power_on :
    (let d : Dev := { live with hif := { live.hif with phase := .waitRails } }
     d.hif.phase = .waitRails ∧ d.hif.pgStk = true ∧ d.hif.warm = false ∧ d.gan.cfg.retired = [] ∧ d.recoveryBoot = false)
    ∧ live.hif.phase ≠ .waitRails
    ∧ (let d : Dev := { live with gan := { live.gan with block := some { retired := [⟨4, 0, 0, 0⟩] } } }
       d.gan.cfg.retired = [⟨4, 0, 0, 0⟩])
    ∧ (let d : Dev := { live with hif := { live.hif with phase := .training } }
       d.hasEpoch = false ∧ (inEpoch [] d).hasEpoch = true
       ∧ d.hif.phase = .training ∧ d.hif.perstN = true ∧ ∀ n ∈ d.bootStacks, d.getF (rCsState n) fCsState_VbmClear ≠ 1) := by
  decide +kernel

/-- PERST_N high and low, of a device that can be reset and of one halted; the link up and not; a rise that restarts the gander, from
HALTED and to activate an image, and one that does not (HostResetsAct). -/
theorem test_meets_host_resets :
    live.hif.perstN = true ∧ live.resettable = true ∧ live.linkIsUp = true ∧ (unlinked live).linkIsUp = false
    ∧ (put live [(rPwrState, fPwrState_State, 6)]).resettable = false
    ∧ (∀ z ∈ [(6, false, 0, 10000000), (0, true, 1, 0), (6, false, 0, 0)],
        let d := put { live with
          time := z.2.2.2
          hif := { live.hif with perstN := false, warm := z.2.1 } } [(rPwrState, fPwrState_State, z.1), (rMgmtStatus, fMgmtStatus_ActPending, z.2.2.1)]
        d.hif.perstN = false ∧ d.gan.up = true ∧ d.hif.railsGood = true ∧ d.pstate = z.1 ∧ d.hif.warm = z.2.1
        ∧ d.getF rMgmtStatus fMgmtStatus_ActPending = z.2.2.1 ∧ (d.hif.perstFellAt + 10000000 ≤ d.time ↔ z.2.2.2 ≠ 0))
    ∧ (let d := put { live with gan := { live.gan with up := false }, hif := { live.hif with perstN := false } } [(rPwrState, fPwrState_State, 7)]
       d.hif.perstN = false ∧ d.gan.up = false ∧ d.hif.railsGood = true ∧ d.pstate = 7) := by
  decide +kernel

/-- A rise of PERST_N with the rails good starts the host link's training; one in HALTED leaves it in DETECT. -/
theorem test_host_link_trains :
    (∀ z ∈ [(0, BootPhase.training, 1), (6, .off, 0)],
      let d := put { unlinked live with hif := { live.hif with perstN := false, phase := z.2.1 } } [(rPwrState, fPwrState_State, z.1)]
      (match exec .perstNRise { dev := d } with
        | .next t => t.dev.getF rHifLink fHifLink_State == z.2.2
        | _ => false) = true) := by
  decide +kernel

/-- A shutdown leaves no register page served. -/
theorem test_shutdown_serves_nothing : live.dropRails.ready = false ∧ live.dropRails.linkCarries = false := by decide +kernel

/-- A link out of PERST_N and one in it; an IDE stream established and not; configuration writes of the PF and of a VF present, of one
absent, in and out of their ranges; a vector pending (LinkAndConfigurationSpaceAct). -/
theorem test_meets_configuration :
    live.hif.perstN = true ∧ live.hif.phase = .complete ∧ ({ live with hif := { live.hif with perstN := false } } : Dev).hif.perstN = false
    ∧ (∀ z ∈ [(true, 0), (false, 0), (false, 100000000)],
        let d : Dev := { live with time := z.2, hif := { live.hif with wakeN := z.1 } }
        d.hif.wakeN = z.1 ∧ (d.hif.wakeAt + 100000000 ≤ d.time ↔ z.2 ≠ 0))
    ∧ live.getF rHifIde fHifIde_State = 0 ∧ (put live [(rHifIde, fHifIde_State, 1)]).getF rHifIde fHifIde_State = 1
    ∧ live.ready = true ∧ live.recoveryBoot = false ∧ live.hif.vfEnable = false
    ∧ (let d := withVf 0 live
       d.ready = true ∧ d.hif.vfEnable = true ∧ 1 ≤ d.hif.numVfs)
    ∧ (let d : Dev := { live with hif := { live.hif with vecs := [(0, { masked := false, pend := true })], fns := [(0, { busMaster := true, msixEnable := true, msixMask := true })] } }
       (d.vector 0 0).pend = true ∧ (d.vector 0 0).masked = false ∧ d.linkCarries = true ∧ d.masters 0 = true) := by
  decide +kernel

/-- Outstanding reads of a command, of an operation, of a head and of a token list, before and after their timeout, and none; a
function that can be addressed and one that cannot (HostReadsComeBackOrFail). -/
theorem test_meets_host_reads :
    (∀ p ∈ [ReadFor.cmd 1, .op 0 1, .head 0, .tokens 0],
      let r : OutRead := { func := 0, addr := 0, len := 64, purpose := p, vaddr := 0, handle := 0, sentAt := 0 }
      let s := tileAt 2 0 {} []
      let d := withEntry 0 { state := .admitted } { s.dev with hif := { s.dev.hif with reads := [r] } }
      d.hif.reads[0]? = some r ∧ d.hif.reads[1]? = none ∧ (d.tile 0).cmd = some 1 ∧ (d.cmd? 1).isSome = true
      ∧ (∀ x ∈ d.cq.cmds, x.opcode ≠ 0x02) ∧ (zeros 64).length = r.len ∧ (zeros 63).length ≠ r.len
      ∧ (d.fetchedAt 0).failed = none ∧ (d.entry 0).occupied = true ∧ (d.entry 0).state ≠ .closing ∧ (d.entry 0).outs = []
      ∧ d.time < r.sentAt + cplTimeout d.hif.cplRange
      ∧ r.sentAt + cplTimeout d.hif.cplRange ≤ ({ d with time := cplTimeout d.hif.cplRange } : Dev).time)
    ∧ live.ready = true ∧ live.fnServes 0 = true ∧ live.fnServes 1 = false ∧ (put live [(rHifReset, fHifReset_Ready, 0)]).ready = false := by
  decide +kernel

/-! ## Power, clocks and temperature -/

/-- Partition 0's device in a power state. -/
def powered (n : Nat) (d : Dev) : Dev := put d [(rPwrState, fPwrState_State, n)]

/-- An entry into LULL and into FALLOW, with and without a wake that waits; a wake from LULL, from FALLOW with its pads held and
not, and with a reset that waits; a sag and a save (PowerStatesChange). -/
theorem test_meets_power_states :
    (∀ t ∈ [1, 2], ∀ w ∈ [0, 2],
      let d : Dev := { powered 1 live with pwr := { live.pwr with entering := some t, wakeWaits := w } }
      d.pstate = 1 ∧ d.pwr.entering = some t ∧ d.pwr.wakeWaits = w ∧ d.unitRetired .stack 0 = false)
    ∧ live.pstate = 0 ∧ live.gan.up = true
    ∧ (∀ z ∈ [(2, false), (3, true), (3, false)],
        let s : State := { dev := { powered 4 live with pwr := { live.pwr with wakeFrom := z.1 } }, pads := { held := z.2 } }
        s.dev.pstate = 4 ∧ s.dev.pwr.wakeFrom = z.1 ∧ s.pads.held = z.2 ∧ ∀ p < 6, (s.dev.part p).resetWaits = false)
    ∧ (let d : Dev := { powered 4 live with
         pwr := { live.pwr with wakeFrom := 2 }
         parts := [(0, { resetWaits := true })] }
       d.pstate = 4 ∧ (∀ q < 6, ((d.part q).resetWaits = true ↔ q = 0)) ∧ d.partExists 0 = true ∧ d.inReset 0 = false)
    ∧ (powered 7 live).pstate = 7 ∧ (powered 6 live).pstate = 6 := by
  decide +kernel

/-- PWR_CTRL with each of its bits and keys, in each state that Table 13-4 tells apart (PowerControlActs). -/
theorem test_meets_power_control :
    live.regOpen 0 rPwrCtrl ∧ (withVf 0 live).regOpen 1 rPwrCtrl ∧ live.gan.logBuf.length < 4095
    ∧ (∀ z ∈ [(0, 0, 0), (0, 0, 1), (0, 1, 0), (1, 0, 0)],
        let v : W32 := BitVec.ofNat 32 (atBit fPwrCtrl_Wake.lo z.2.2 + atBit fPwrCtrl_PadRelease.lo z.2.1 + atBit fPwrCtrl_Shutdown.lo z.1
          + atBit fPwrCtrl_Key.lo 0xA5)
        fld v fPwrCtrl_Shutdown = z.1 ∧ fld v fPwrCtrl_PadRelease = z.2.1 ∧ fld v fPwrCtrl_Wake = z.2.2 ∧ fld v fPwrCtrl_Key = 0xA5)
    ∧ (∀ n ∈ [0, 1, 2, 3, 5, 6, 7], (powered n live).pstate = n ∧ (powered n live).regOpen 0 rPwrCtrl)
    ∧ live.unitRetired .stack 0 = false ∧ (powered 1 live).pwr.wakeWaits = 0 := by
  decide +kernel

/-- A sample with the gander up, a working monitor and a good diode; a calibration that is due and one that is not
(TemperatureIsSampledAndActedOn). -/
theorem test_meets_temperature :
    live.gan.up = true ∧ live.pstate = 0 ∧ live.working.contains 0 = true ∧ live.getF rThmDiode fThmDiode_Fail = 0
    ∧ (powered 6 live).pstate = 6 ∧ live.hif.phase = .complete ∧ live.thm.lowPowerSince = none
    ∧ (let d : Dev := { live with time := 10000000, thm := { live.thm with lowPowerSince := some 0 } }
       d.getF rThmDiode fThmDiode_Fail = 0 ∧ d.thm.lowPowerSince = some 0 ∧ 0 + 10000000 ≤ d.time) := by
  decide +kernel
theorem test_buffers_empty : live.buffersEmpty := fun _ => rfl

/-- A droop at and above its threshold; its end within and beyond the allowance, and none; a sector that may be clocked off and
one that may not; the fall-back in force and not (PowerAndRatesAreControlled). -/
theorem test_meets_rates :
    live.getF rPwrDroop fPwrDroop_Thresh < 1000
    ∧ (∀ ns ∈ [0, 1000],
        let d : Dev := { live with pwr := { live.pwr with drooping := [0] } }
        d.pwr.drooping.contains 0 = true ∧ (ns ≤ d.getF rPwrDroop fPwrDroop_Budget ↔ ns = 0))
    ∧ live.pwr.drooping.contains 0 = false
    ∧ (∀ us ∈ [0, 1],
        let d := put { live with time := 1000 } [(rPwrGate, fPwrGate_IdleUs, us)]
        d.getF rPwrGate fPwrGate_IdleUs = us ∧ d.sectorIdle 0 = true ∧ d.foldPart (d.sectPart 0) = false
        ∧ (tget d.sect {} 0).idleSince + 1000 * us ≤ d.time)
    ∧ (∀ v ∈ [0, 1], (put live [(rFabStatus, fFabStatus_Fallback, v)]).getF rFabStatus fFabStatus_Fallback = v)
    ∧ live.effClk < 128 := by
  decide +kernel

/-- Each register of the group, open to the PF and to a VF; targets of PWR_CLK in and out of range; GO and REBOOT in recovery boot and
out of it (PowerAndRecoveryRegistersTakeWrites). -/
theorem test_meets_power_registers :
    (∀ a ∈ [rPwrClk, rPwrPhaseSel, rPwrPower, rThmMonSel, rThmMax, rMgmtRcvCtrl], live.regOpen 0 a ∧ (withVf 0 live).regOpen 1 a)
    ∧ fld (16 : W32) fPwrClk_Target = 16 ∧ fld (64 : W32) fPwrClk_Target = 64 ∧ fld (15 : W32) fPwrClk_Target = 15
    ∧ fld (65 : W32) fPwrClk_Target = 65 ∧ live.recoveryBoot = false
    ∧ (let d := put live [(rMgmtStatus, fMgmtStatus_BootMode, 1)]
       d.recoveryBoot = true ∧ d.regOpen 0 rMgmtRcvCtrl)
    ∧ (∀ z ∈ [(0, 0), (0, 1), (1, 0), (1, 1)],
        let v : W32 := BitVec.ofNat 32 (atBit fMgmtRcvCtrl_Go.lo z.1 + atBit fMgmtRcvCtrl_Reboot.lo z.2)
        fld v fMgmtRcvCtrl_Go = z.1 ∧ fld v fMgmtRcvCtrl_Reboot = z.2) := by
  decide +kernel

/-! ## The gander -/

/-- A mailbox command in progress, with a request of a length and one beyond the buffer, and none (MailboxCommandsDoTheirWork). -/
theorem test_meets_mailbox :
    (∀ c ∈ mbxCmds, ∀ n ∈ [0, 8, 2049],
      let d := put live [(rMgmtMbxCtrl, fMgmtMbxCtrl_Busy, 1), (rMgmtMbxCmd, fMgmtMbxCmd_Cmd, c), (rMgmtMbxCmd, fMgmtMbxCmd_Len, n)]
      d.mbxRuns c ∧ d.reqLen = n)
    ∧ ¬ live.mbxRuns 1
    ∧ (∃ p < 6, live.partExists p = true)
    ∧ (let d := put live [(rSectPartLayout, ⟨0, 18⟩, 0x3FFFF)]
       (∀ p < 6, d.partExists p = false) ∧ d.fab.staged = none ∧ d.hasEpoch = false ∧ d.gan.upd = none) := by
  decide +kernel

/-- Changes that wait, of each cause, with copy A and copy B in use; records buffered (FlashWritesTakeEffect). -/
theorem test_meets_flash :
    (∀ why ∈ [CfgCause.mailbox, .cmd 1, .nobody], ∀ src ∈ [0, 1],
      let d := put { live with gan := { live.gan with cfgPend := [(.revoke 0, why)] } } [(rMgmtStatus, fMgmtStatus_CfgSrc, src)]
      d.gan.cfgPend = (.revoke 0, why) :: [] ∧ d.gan.up = true ∧ d.getF rMgmtStatus fMgmtStatus_CfgSrc = src)
    ∧ live.gan.cfgPend = [] ∧ live.gan.up = true ∧ live.gan.logFlash.length + live.gan.logBuf.length ≤ 261120 := by
  decide +kernel

/-- Requests that meet the firmware on both bindings and that do not; a device that attests and one that does not; sessions free
and all taken (ManagementRequestsAreAnswered). -/
theorem test_meets_management :
    live.heard .i3c ∧ live.heard .pcie ∧ ¬ (put live [(rMgmtMbxCtrl, fMgmtMbxCtrl_Busy, 1)]).heard .i3c ∧ ¬ (put live [(rMgmtStatus, fMgmtStatus_FwReady, 0)]).heard .i3c ∧ live.firmware = true
    ∧ live.getF rPwrWakeEn fPwrWakeEn_Mgmt = 0
    ∧ (∀ n ∈ [0, 2], let d := put (powered n live) [(rPwrWakeEn, fPwrWakeEn_Mgmt, 1)]
        d.heard .i3c ∧ d.pstate = n ∧ d.getF rPwrWakeEn fPwrWakeEn_Mgmt = 1)
    ∧ (let i : Ident := { valid := true }
       i.valid = true ∧ live.gan.debugFuse = false ∧ live.gan.sessions.length < 4)
    ∧ ({ live.gan with debugFuse := true } : Gander).debugFuse = true
    ∧ 4 ≤ ({ live.gan with sessions := List.replicate 4 ⟨.i3c, 0, true, 0⟩ } : Gander).sessions.length := by
  decide +kernel

/-- Leaves left and spent, a key with leaves and none; a session finished and not, with and without its IDE keys
(MeasurementsAndSessionsAreServed). -/
theorem test_meets_measurements :
    live.heard .i3c ∧ live.gan.lmsUsed < 32768 ∧ live.gan.att = none ∧ live.ganFree = true ∧ live.gan.secretBlocked = false
    ∧ (let d : Dev := { live with gan := { live.gan with lmsUsed := 32768, att := some ⟨0, 0, none⟩ } }
       d.heard .i3c ∧ 32768 ≤ d.gan.lmsUsed ∧ d.gan.att = some ⟨0, 0, none⟩)
    ∧ (∀ f ∈ [false, true],
        let d : Dev := { live with
          gan := { live.gan with sessions := [⟨.i3c, 0, f, 0⟩] }
          hif := { live.hif with ideKeys := [true] } }
        d.heard .i3c ∧ d.session .i3c 0 = some ⟨.i3c, 0, f, 0⟩ ∧ d.gan.debugFuse = false ∧ d.hif.ideKeys.contains true = true
        ∧ d.hif.ideKeys.contains false = false)
    ∧ live.session .i3c 0 = none := by
  decide +kernel

/-- An update in each of its states, its portion come and not, applied and not; none, where one can be initiated and where not
(FirmwareUpdateGoesThroughItsStates). -/
theorem test_meets_update :
    live.heard .i3c ∧ live.gan.upd = none ∧ live.cannotUpdate = true
    ∧ (put live [(rMgmtStage, fMgmtStage_En, 1)]).cannotUpdate = false
    ∧ (∀ c ∈ [1, 0x31], (put live [(rMgmtMbxCtrl, fMgmtMbxCtrl_Busy, 1), (rMgmtMbxCmd, fMgmtMbxCmd_Cmd, c)]).debugOpening = (c == 0x31))
    ∧ live.notUpdating .i3c [1]
    ∧ (∀ n ∈ [1, 2, 3, 4], ∀ done ∈ [false, true],
        let u : Update := { agent := .i3c, maxTransfer := 64, bytes := 128, nextOff := 64, applied := done }
        let d := put { live with stk := table, gan := { live.gan with upd := some u } }
          [(rMgmtUpdStatus, fMgmtUpdStatus_State, n), (rCsState 0, fCsState_Ready, 1)]
        d.updating .i3c u [n] ∧ d.firmware = true ∧ d.updState = n ∧ d.stageWaits = false
        ∧ (64 = u.nextOff ∧ zeros 64 ≠ [] ∧ (zeros 64).length = min (min 4096 u.maxTransfer) (u.bytes - u.nextOff))
        ∧ ({ u with nextOff := 128 } : Update).nextOff = u.bytes) := by
  decide +kernel

/-! ## The whole machine -/

/-- A command at the front, none with the gander up, and none with it down (StepRunsTheFrontCommand). -/
theorem test_meets_step :
    ({ dev := live, pending := [.perstN] } : State).pending = .perstN :: [] ∧ ({ dev := live } : State).pending = []
    ∧ live.gan.up = true ∧ State.reset.dev.gan.up = false := by
  decide +kernel

/-- The state after reset keeps the pad accounting, and a step is taken from it (PadAccountingBalances). -/
theorem test_meets_pads : State.reset.padsKept ∧ State.reset.pads.held = false := by
  refine ⟨⟨by unfold State.padsBalance; decide +kernel, ?_⟩, by decide +kernel⟩
  intro h
  exact absurd h (by decide +kernel)

/-- The state after reset has its memories in canonical form (StepsKeepMemoriesCanonical). -/
theorem test_meets_canonical : State.reset.dev.memWf := by
  unfold Dev.memWf
  decide +kernel

/-! ## Ill-formed commands -/

/-- For every check of well-formedness a command that it refuses. -/
theorem test_refused_lists :
    ([.queueRecordWrite 0 2 [0], .queueRecordWrite 0 0 [], .commandHang 0 [⟨.tile, 144⟩], .submit 0 0 [], .cancel 0 0 [],
      .answerRead 0 0 0, .decodeStep 0 0 [oneResult, oneResult],
      .prefillSlice 0 [⟨0, 1, none, false, 0, [], []⟩, ⟨0, 1, none, false, 0, [], []⟩], .srvAdmParamWrite 0 0xC00400 0,
      .linkTrained 0 { peer with link := 96 }, .slotRx 0 [], .resetRetrainDone 0 [⟨.hen, 384⟩], .suspectReplay 0 0 [⟨.stack, 12⟩],
      .vfFlr 0, .vfFlrEscalate 0, .blkIntForce 0 1 0, .errClr 0 1 0, .registerWrite 0 0 3 0, .bar4Read 0 0 0,
      .bar4Write 0 0 (zeros 513), .writeBufferDrain 0 1, .stackTempSample 0 [], .railsGood [⟨.link, 96⟩], .linkUp 16 0 false false,
      .poisonedTlp 0 1 0 [], .wakeDone [⟨.dma, 24⟩], .thermalSample ⟨0, false⟩ [], .recalibration ⟨0, false⟩ [], .powerSample 0 [],
      .getMeasurements .i3c [] false 0, .requestFirmwareData 0 []] : List Instr).all (fun i => !i.wf) = true := by
  decide +kernel

/-- Commands like them that it admits. -/
theorem test_admitted :
    ([.queueRecordWrite 0 4 [0], .commandHang 0 [⟨.tile, 143⟩], .answerRead 0 0 1, .decodeStep 0 0 [oneResult], .linkTrained 0 peer,
      .vfFlr 1, .blkIntForce 0 0x1000 0, .registerWrite 0 0 8 0, .bar4Read 0 0 4096, .bar4Write 0 0 (zeros 512), .linkUp 15 15 true true,
      .perstN] : List Instr).all Instr.wf = true := by
  decide +kernel

/-- The table gives no bits to any command: no word spells one. -/
theorem test_no_word : decodeTableWord 64 0 = none := rfl

/-! ## Worked examples of the manual -/

/-- 02 Table 2-7: the three terms of the dot product, in their order of blocks, and its sum and readout of Table 2-8. -/
def exampleTerms (cs : List Nat) : LaneProd :=
  (cs.zip [(0x7, 0x7E), (0x1, 0x01), (0xF, 0x7E)]).foldl
    (fun p x => p.addTerm (-31) (combined (some x.1) none) (codeNum 2 x.2.1) (codeNum 0 x.2.2)) {}
theorem test_exact_dot_product :
    autoAnchor 2 0 true (cMax ([0x89, 0x75, 0x89].map (fun c => combined (some c) none))) = -31
    ∧ (exampleTerms [0x89, 0x75, 0x89]).add = 0x800
    ∧ readValue 0x800 (-31) {} false 0 = (0x35800000, 0) := by
  decide +kernel
/-- 02, the example after it: at 2^-30 the second term is lost and INEXACT set; at anchor −40 the sum reads 2^-40. -/
theorem test_lost_term :
    let p := exampleTerms [0x89, 0x61, 0x89]
    p.add = 0 ∧ p.marks.inexact = true ∧ readValue 0 (-31) p.marks false 0 = (0, flInexact)
    ∧ readValue 1 (-40) {} false 0 = (0x2B800000, 0) := by
  decide +kernel
/-- 02, the three FP32 partials: 0 by FP32 addition in the first order, and exact in both. -/
theorem test_exact_reduction :
    (fadd (fadd 0x4A280000 0x35800000).1 0xCA280000).1 = 0
    ∧ (fadd (fadd 0x4A280000 0xCA280000).1 0x35800000).1 = 0x35800000
    ∧ readPartial (exactSum (-31) ([0x4A280000, 0x35800000, 0xCA280000].map (fun w => rawOfFp32 w false))).1 0 = (0x35800000, 0) := by
  decide +kernel
/-- 03, the matrix with its rows reversed: its span, and that it is injective. -/
theorem test_reversed_rows :
    let x := descOf (BitVec.ofNat 512 (1 + atBit 4 5 + atBit 8 2 + atBit 64 0x10_0000_2000 + atBit 128 4 + atBit 152 3 + atBit 272 4
      + atBit 304 (2 ^ 32 - 16)))
    x.spanLo = 0x10_0000_1FE0 ∧ x.spanHi = 0x10_0000_200F ∧ x.injective = true := by
  decide +kernel
/-- 04, the LOOP of the latent-KV walk: COUNT 0x1FB0 gives 513 at position 32,769 and 511 at 32,704. -/
theorem test_loop_count :
    let w : W64 := BitVec.ofNat 64 (2 ^ 6 + atBit 7 0x1FB0)
    loopCount [32769] w = 513 ∧ loopCount [32704] w = 511 := by
  decide +kernel
/-- 07, physical address 0x36_0123_4567, and 12, the row of the retirement example. -/
theorem test_addresses :
    let a := 0x36_0123_4567
    stackOf a = 3 ∧ 32 * stackOf a + pcOf a = 99 ∧ pcLocal a = 0x9_4567 ∧ bankOf a = 17 ∧ rowOf a = 12
    ∧ physOf 3 3 0x9_4400 = 0x36_0123_4400 := by
  decide +kernel
/-- 11, the layout 0x1_2440: partitions 0, 1 and 2 and the sectors whose pages they live in. -/
theorem test_layout :
    let d := put live [(rSectPartLayout, ⟨0, 18⟩, 0x12440)]
    d.sectorsOf 0 = [0, 1] ∧ d.sectorsOf 1 = [2] ∧ d.sectorsOf 2 = [3, 4, 5] ∧ d.liveSect 2 = 3 ∧ pgPart 3 = 0x161000 := by
  decide +kernel
/-- 15, BAR4 with BASE 0x40_0000_0000: offset 0x1A_0000_0000 is the first byte of CS5. -/
theorem test_bar4_window :
    let d := put { live with hif := { live.hif with bar4Log2 := 38 } } [(rHifBar4Win, fHifBar4Win_Base, 4)]
    d.bar4Addr 0 0x1A_0000_0000 = some (5 * stackBytes) := by
  decide +kernel
/-- 16, BLK_ID of page 1 of CS7 and the place of CS_SCRUB_LAP. -/
theorem test_block_id : blkId 4 7 1 = 0x01010704 ∧ rCsScrubLap 7 = 0x471054 := by
  decide +kernel
/-- 13 Table 13-7, its last rows: PAD_RELEASE in WAKE_HELD counts one release and lets the pads go; a second is discarded and
counted. -/
theorem test_pad_release :
    let v : W32 := BitVec.ofNat 32 (atBit fPwrCtrl_PadRelease.lo 1)
    let s : State := { dev := powered 5 live, pads := { fallow := 1, held := true } }
    ((match exec (.padRelease 0 v) s with
      | .next t => t.pads.release == 1 && !t.pads.held && t.pads.fallow == 1 && t.dev.pstate == 4
        && (match exec (.padRelease 0 v) t with
          | .next u => u.pads == t.pads && u.dev.getF (rBlkErrCnt pgPwr) fBlkErrCnt_Cnt == 1
          | _ => false)
      | _ => false) = true) := by
  decide +kernel
/-- 05, queue 5 of depth 16: with 14 waiting, three records give two accepted and one dropped, its SEQ in CQ_Q_LASTDROP. -/
theorem test_queue_drops :
    let d := put { live with cq := { live.cq with storage := [(0, List.replicate 14 (record 0 0))] } }
      [(rCqQCfg 0, fCqQCfg_En, 1), (rCqQCfg 0, fCqQCfg_Part, 0), (rCqQCfg 0, fCqQCfg_DepthLog2, 4), (rCqQWcnt 0, ⟨0, 32⟩, 14)]
    let w (n : Nat) : Instr := (.queueRecordWrite 0 0 (recBytes (record 0 (atBit 32 n))))
    ((match exec (w 0x201) { dev := d } with
      | .next a => (match exec (w 0x202) a with
        | .next b => (match exec (w 0x203) b with
          | .next c => c.dev.getF (rCqQQovf 0) fCqQQovf_Qovf == 1 && (c.dev.reg (rCqQLastdrop 0)).toNat == 0x203
              && (c.dev.waiting 0).length == 16
          | _ => false)
        | _ => false)
      | _ => false) = true) := by
  decide +kernel
/-- Reset values of the field maps: CQ_Q_CFG.DEPTH_LOG2 (05), PWR_CAP.CAP and MARGIN (13), RAS_REPLAY.TMO (12). -/
theorem test_reset_values :
    State.reset.dev.getF (rCqQCfg 0) fCqQCfg_DepthLog2 = 10 ∧ State.reset.dev.getF rPwrCap fPwrCap_Cap = 800
    ∧ State.reset.dev.getF rPwrCap fPwrCap_Margin = 16 ∧ State.reset.dev.getF rRasReplay fRasReplay_Tmo = 200 := by
  decide +kernel
/-- With nothing waiting and the gander down, a step changes nothing. -/
theorem test_idle : ((match step State.reset with
    | .next t => decide (t = State.reset)
    | _ => false) = true) := by
  decide +kernel

end Sys2Proof.Tests
end

section
/-! The loop slot (04_thokel_programs.md R94 to R97, R112 to R115): what each of its instructions leaves in its tile, and that
only its tile changes. -/

namespace Sys2Proof.Machine

/-! ## Tables and cursors -/

theorem tget_tdel {α : Type} (t : Tab α) (d : α) (k j : Nat) : tget (tdel t k) d j = if j = k then d else tget t d j := by
  induction t with
  | nil => simp [tdel]
  | cons e t ih =>
    obtain ⟨i, v⟩ := e
    simp only [tdel, List.filter_cons] at ih ⊢
    by_cases hik : i = k
    · by_cases hij : i = j
      · subst hik hij
        simpa using ih
      · simp [hik, tget, ih, show k ≠ j by omega]
    · by_cases hij : i = j
      · simp [hij, tget, show j ≠ k by omega]
      · simp [hik, hij, tget, ih]

theorem Tile.increment_loops (x : Tile) (ts : List (Nat × Nat × Int)) (n : Nat) : (x.increment ts n).loops = x.loops := by
  unfold Tile.increment
  induction ts generalizing x with
  | nil => rfl
  | cons e ts ih => exact ih _

/-- Writing coordinates back sees and changes no part of a tile but its cursors. -/
theorem Tile.restore_eq {x y : Tile} (h : y.cursors = x.cursors) (saved : List (Nat × Nat × BitVec 32)) :
    y.restore saved = { y with cursors := (x.restore saved).cursors } := by
  unfold Tile.restore
  induction saved generalizing x y with
  | nil => simp [← h]
  | cons e saved ih => exact ih (by simp [Tile.setCursor, Tile.cursor, h])

theorem Tile.restore_cursors {x y : Tile} (h : y.cursors = x.cursors) (saved : List (Nat × Nat × BitVec 32)) :
    (y.restore saved).cursors = (x.restore saved).cursors := by rw [Tile.restore_eq h]

/-- The cursors once the coordinates that some levels saved are written back depend on the cursors alone. -/
theorem Tile.restoreAll_cursors {x y : Tile} (h : y.cursors = x.cursors) (ls : List LoopLevel) :
    (ls.foldl (fun z l => z.restore l.saved) y).cursors = (ls.foldl (fun z l => z.restore l.saved) x).cursors := by
  induction ls generalizing x y with
  | nil => exact h
  | cons l ls ih => exact ih (Tile.restore_cursors h l.saved)

theorem Tile.closeLevels_no_loops (n : Nat) {x : Tile} (h : x.loops = []) : x.closeLevels n = x := by
  cases n <;> simp [Tile.closeLevels, h]

/-- Levels that all belong to the running routine are all closed, each writing back what it saved, the innermost first. -/
theorem Tile.closeLevels_all (n : Nat) (x : Tile) (hd : ∀ l ∈ x.loops, l.depth = x.frames.length)
    (hn : x.loops.length ≤ n) :
    x.closeLevels n = { x with
      loops := [], cursors := (x.loops.foldl (fun y l => y.restore l.saved) x).cursors } := by
  induction n generalizing x with
  | zero =>
    have hl : x.loops = [] := List.eq_nil_of_length_eq_zero (by omega)
    rw [hl]
    exact congrArg (fun ls => { x with loops := ls }) hl
  | succ n ih =>
    cases hl : x.loops with
    | nil =>
      rw [Tile.closeLevels_no_loops _ hl]
      exact congrArg (fun ls => { x with loops := ls }) hl
    | cons l ls =>
      rw [hl] at hd hn
      obtain ⟨hdl, hds⟩ := List.forall_mem_cons.mp hd
      have hr : ({ x with loops := ls } : Tile).restore l.saved
          = { x with loops := ls, cursors := (x.restore l.saved).cursors } :=
        Tile.restore_eq (x := x) (y := { x with loops := ls }) rfl _
      have hstep : x.closeLevels (n + 1) = Tile.closeLevels n { x with loops := ls, cursors := (x.restore l.saved).cursors } := by
        rw [Tile.closeLevels, hl, ← hr]
        exact if_pos hdl
      have hcur := Tile.restoreAll_cursors (x := x.restore l.saved)
        (y := { x with loops := ls, cursors := (x.restore l.saved).cursors }) rfl ls
      rw [hstep, ih _ hds (by simpa using hn), hcur]
      rfl

/-! ## Instructions that move control by themselves -/

@[simp] theorem Dev.tile_jump_self (d : Dev) (t : Nat) (f : Tile → Tile) :
    (d.jump t f).tile t = f { d.tile t with issued := [], written := [], preV := [] } := by simp [Dev.jump]

/-- LOOP's count, as R96 computes it, is the sum's quotient where that is positive, and 0 elsewhere. -/
theorem loopCount_eq_toNat (rc : List Nat) (w : W64) :
    loopCount rc w = (if bitOf w 6 then ((rc.getD (bitsOf w 7 3) 0 : Int) + signed 12 (bitsOf w 14 12)) / 2 ^ bitsOf w 10 4
      else (bitsOf w 7 24 : Int)).toNat := by
  unfold loopCount
  cases bitOf w 6 <;> simp

theorem Dev.loopIssue_eq {d : Dev} {t : Nat} {c : Cmd} {w : W64} (h : d.issuing t 3 1 c w) :
    d.loopIssue t = d.jump t (fun x => x.openLoop (d.recordOf t) (loopCount c.rc w) w) := Dev.branch_runs h

theorem Dev.callIssue_eq {d : Dev} {t : Nat} {c : Cmd} {w : W64} (h : d.issuing t 3 2 c w) :
    d.callIssue t = d.jump t (fun x => x.call (d.recordOf t) w) := Dev.branch_runs h

theorem Dev.retIssue_eq {d : Dev} {t : Nat} {c : Cmd} {w : W64} (h : d.issuing t 3 3 c w) :
    d.retIssue t = d.doReturn t := Dev.branch_runs h

theorem Dev.endIssue_eq {d : Dev} {t : Nat} {c : Cmd} {w : W64} (h : d.issuing t 3 8 c w) :
    d.endIssue t = d.jump t Tile.finish := Dev.branch_runs h

theorem Dev.barrierIssue_eq {d : Dev} {t : Nat} {c : Cmd} {w : W64} (h : d.issuing t 3 5 c w) :
    d.barrierIssue t = d.modTile t (fun x => { x with atBarrier := true }) := Dev.branch_runs h

/-- A LOOP of count 0 goes on behind its body as END_OF_BODY does. -/
theorem Tile.openLoop_zero (x : Tile) (recs : Nat → BitVec 256) (w : W64) :
    x.openLoop recs 0 w = x.endOf recs 8 (x.bundle + bitsOf w 31 11) := by simp [Tile.openLoop]

/-- The arguments that a CALL binds, entry by entry. -/
theorem bindArgs_getElem? (args : List (BitVec 13)) (r : BitVec 256) {k : Nat} (hk : k < 8) :
    (bindArgs args r)[k]? = some (match resolveArg args (bitsOf r (16 * k) 13) with
      | .ok h => BitVec.ofNat 13 h
      | .error _ => 0x1FFF) :=
  List.getElem?_map.trans (congrArg (Option.map _) (List.getElem?_range hk))

theorem Dev.doReturn_frame (d : Dev) (t : Nat) : d.tilesBut (d.doReturn t) t ∧ d.onlyIn (d.doReturn t) [.tiles] := by
  unfold Dev.doReturn
  split
  · exact d.jump_frame t _
  · exact ⟨Dev.tilesBut_trans (d.jump_frame t _).1 (Dev.modTile_frame _ t _).1,
      Dev.onlyIn_trans (d.jump_frame t _).2 (Dev.modTile_frame _ t _).2⟩

/-- With no CALL open, RET ends its tile as END does. -/
theorem Dev.doReturn_tile_ended {d : Dev} {t : Nat} (hf : (d.tile t).frames = []) :
    (d.doReturn t).tile t = Tile.finish { d.tile t with issued := [], written := [], preV := [] } := by
  unfold Dev.doReturn
  split
  next => exact Dev.tile_jump_self d t _
  next f fs hcons => exact absurd (hf.symm.trans hcons) (by simp)

/-- A return from a routine with all open levels its own goes on behind the CALL. -/
theorem Dev.doReturn_tile {d : Dev} {t : Nat} {f : Frame} {fs : List Frame} (hf : (d.tile t).frames = f :: fs)
    (hd : ∀ l ∈ (d.tile t).loops, l.depth = (d.tile t).frames.length) (hn : (d.tile t).loops.length ≤ 8) :
    (d.doReturn t).tile t = { d.tile t with
      issued := [], written := [], preV := [], frames := fs, routine := f.routine, bundle := f.bundle + 1, args := f.args
      loops := [], cursors := ((d.tile t).loops.foldl (fun y l => y.restore l.saved) (d.tile t)).cursors } := by
  have hc := Tile.closeLevels_all 8 { d.tile t with issued := [], written := [], preV := [] } hd hn
  have hcur := Tile.restoreAll_cursors (x := d.tile t) (y := { d.tile t with issued := [], written := [], preV := [] }) rfl
    (d.tile t).loops
  simp only [Dev.doReturn, hf]
  rw [Dev.tile_modTile_self, Dev.tile_jump_self, hc, Tile.endOf_no_loops _ _ _ _ rfl, hcur]

/-! ## Instructions that issue and let their bundle end -/

/-- A loop-slot instruction is never skipped (R112): about to issue, it is performed and its slot has issued. -/
theorem Dev.control_runs {d : Dev} {t op : Nat} {c : Cmd} {w : W64} {run : Dev → Cmd → W64 → Dev}
    (h : d.issuing t 3 op c w) : d.control t op run = (run d c w).slotDone t 3 := Dev.issue_performs h (by simp [wordReason]) rfl (by simp)

/-- A slot that has issued after a change of its own tile: the tile differs from the changed one only in where it stands. -/
theorem Dev.slotDone_after {d e : Dev} {t : Nat} (s : Nat) (h : d.tilesBut e t ∧ d.onlyIn e [.tiles]) :
    (e.tile t).sameWork ((e.slotDone t s).tile t)
      ∧ ((e.tile t).loops = [] → ((e.slotDone t s).tile t).cursors = (e.tile t).cursors)
      ∧ d.tilesBut (e.slotDone t s) t ∧ d.onlyIn (e.slotDone t s) [.tiles] := by
  obtain ⟨hwork, hcur, hbut, honly⟩ := e.slotDone_frame t s
  exact ⟨hwork, hcur, Dev.tilesBut_trans h.1 hbut, Dev.onlyIn_trans h.2 honly⟩

theorem Dev.same_frame (d : Dev) (t : Nat) : d.tilesBut d t ∧ d.onlyIn d [.tiles] := ⟨fun _ _ => rfl, d.onlyIn_refl _⟩

/-- WAIT's condition: no operation of a tag it names still counts, and the counter it names has reached ACOUNT. -/
theorem Tile.waitMet_iff (x : Tile) (w : W64) : x.waitMet w = true ↔
    (∀ g : Nat, g < 16 → bitOf w (6 + g) = true → ∀ o ∈ x.outs, o.tag = g → o.kind.counts = false)
      ∧ (bitOf w 26 = true → bitsOf w 27 24 ≤ (tget x.arrival 0 (bitsOf w 22 4)).toNat) := by
  simp only [Tile.waitMet, Tile.pendingTag, Bool.and_eq_true, List.all_eq_true, List.mem_range, Bool.or_eq_true,
    Bool.not_eq_true', Bool.and_eq_false_iff, List.any_eq_false, decide_eq_true_eq, beq_iff_eq, not_and, Bool.not_eq_true]
  refine and_congr (forall₂_congr fun g _ => ?_) ?_
  · cases bitOf w (6 + g) <;> simp
  · cases bitOf w 26 <;> simp

/-- WAIT looks at its condition first, and is held while that does not hold. -/
theorem Dev.waitIssue_unmet {d : Dev} {t : Nat} {c : Cmd} {w : W64} (h : d.issuing t 3 4 c w)
    (hm : (d.tile t).waitMet w = false) : d.waitIssue t = d := by
  obtain ⟨-, -, -, hnext, hword, -⟩ := h
  simp [Dev.waitIssue, Dev.clearWay_ready d t 3 wayFuel hnext (by simp [wordReason]), hword, hm]

/-- What a WAIT that goes on does to its tile: ACOUNT is taken from the counter it names, if it names one. -/
def Dev.takeArrivals (d : Dev) (t : Nat) (w : W64) : Dev :=
  if bitOf w 26 then
    d.modTile t (fun x => { x with
      arrival := tset x.arrival (bitsOf w 22 4) (tget x.arrival 0 (bitsOf w 22 4) - BitVec.ofNat 24 (bitsOf w 27 24)) })
  else d

theorem Dev.waitIssue_met {d : Dev} {t : Nat} {c : Cmd} {w : W64} (h : d.issuing t 3 4 c w)
    (hm : (d.tile t).waitMet w = true) : d.waitIssue t = (d.takeArrivals t w).slotDone t 3 := by
  have hrun := Dev.control_runs (run := fun d _ w => d.takeArrivals t w) h
  obtain ⟨-, -, -, hnext, hword, -⟩ := h
  simp only [Dev.waitIssue, Dev.clearWay_ready d t 3 wayFuel hnext (by simp [wordReason]), hword, hm]
  exact hrun

theorem Dev.takeArrivals_frame (d : Dev) (t : Nat) (w : W64) :
    d.tilesBut (d.takeArrivals t w) t ∧ d.onlyIn (d.takeArrivals t w) [.tiles] := by
  unfold Dev.takeArrivals
  split
  · exact d.modTile_frame t _
  · exact d.same_frame t

/-- Taking ACOUNT changes no part of the tile but its arrival counters. -/
theorem Dev.takeArrivals_tile (d : Dev) (t : Nat) (w : W64) :
    (d.takeArrivals t w).tile t = { d.tile t with arrival := ((d.takeArrivals t w).tile t).arrival } := by
  unfold Dev.takeArrivals
  split <;> simp

theorem Dev.takeArrivals_arrival (d : Dev) (t : Nat) (w : W64) (a : Nat) :
    tget ((d.takeArrivals t w).tile t).arrival 0 a = tget (d.tile t).arrival 0 a
      - (if bitOf w 26 = true ∧ a = bitsOf w 22 4 then BitVec.ofNat 24 (bitsOf w 27 24) else 0) := by
  unfold Dev.takeArrivals
  cases bitOf w 26 with
  | false => simp
  | true =>
    by_cases ha : a = bitsOf w 22 4
    · simp [ha]
    · simp [ha, tget_tset_ne _ _ _ ha]

theorem Tile.arrival_of_sameWork {x y : Tile} (h : x.sameWork y) : y.arrival = x.arrival := by
  obtain ⟨-, -, harr, -⟩ := h
  exact harr

/-- The arrival counters are part of the work a tile has in hand; with them set aside the rest still agrees. -/
theorem Tile.sameWork_setArrival {x y : Tile} (v : Tab (BitVec 24)) (h : x.sameWork y) :
    ({ x with arrival := v } : Tile).sameWork { y with arrival := v } := by
  obtain ⟨hvregs, hlanes, -, hrest⟩ := h
  exact ⟨hvregs, hlanes, rfl, hrest⟩

/-- What a CSET does: the cursor it names is 0, as a cursor that the table does not list is. -/
def Dev.clearCursor (d : Dev) (t : Nat) (w : W64) : Dev :=
  match d.resolve t (bitsOf w 6 13) with
  | .ok h => d.modTile t (fun x => { x with cursors := tdel x.cursors h })
  | .error _ => d

theorem Dev.csetIssue_eq {d : Dev} {t : Nat} {c : Cmd} {w : W64} (h : d.issuing t 3 7 c w) :
    d.csetIssue t = (d.clearCursor t w).slotDone t 3 := Dev.control_runs (run := fun d _ w => d.clearCursor t w) h

theorem Dev.clearCursor_frame (d : Dev) (t : Nat) (w : W64) :
    d.tilesBut (d.clearCursor t w) t ∧ d.onlyIn (d.clearCursor t w) [.tiles] := by
  unfold Dev.clearCursor
  split
  · exact d.modTile_frame t _
  · exact d.same_frame t

/-- Clearing a cursor changes no part of the tile but its cursors. -/
theorem Dev.clearCursor_tile (d : Dev) (t : Nat) (w : W64) :
    (d.clearCursor t w).tile t = { d.tile t with cursors := ((d.clearCursor t w).tile t).cursors } := by
  unfold Dev.clearCursor
  split <;> simp

theorem Dev.clearCursor_cursor (d : Dev) (t : Nat) (w : W64) (h : Nat) :
    ((d.clearCursor t w).tile t).cursor h
      = if d.resolve t (bitsOf w 6 13) = .ok h then List.replicate 9 0 else (d.tile t).cursor h := by
  unfold Dev.clearCursor
  cases d.resolve t (bitsOf w 6 13) with
  | error r => simp
  | ok g => simp [Tile.cursor, tget_tdel, eq_comm]

theorem Dev.spreadIssue_eq {d : Dev} {t : Nat} {c : Cmd} {w : W64} (h : d.issuing t 3 6 c w) :
    d.spreadIssue t = (d.modTile t (fun x => x.increment (triples x.args (d.recordOf t (bitsOf w 6 6))) x.rank)).slotDone t 3 :=
  Dev.control_runs h

/-! ## The release of a barrier -/

theorem Tile.atBarrier_of_sameWork {x y : Tile} (h : x.sameWork y) : y.atBarrier = x.atBarrier := by
  obtain ⟨-, -, -, -, -, -, -, -, -, -, -, -, -, -, -, hb⟩ := h
  exact hb

/-- Tile t leaves the barrier it waits at: its BARRIER has issued. -/
def Dev.passBarrier (d : Dev) (t : Nat) : Dev := (d.modTile t (fun x => { x with atBarrier := false })).slotDone t 3

theorem Dev.passBarrier_frame (d : Dev) (t : Nat) :
    ({ d.tile t with atBarrier := false } : Tile).sameWork ((d.passBarrier t).tile t)
      ∧ d.tilesBut (d.passBarrier t) t ∧ d.onlyIn (d.passBarrier t) [.tiles] := by
  obtain ⟨hwork, -, hbut, honly⟩ :=
    Dev.slotDone_after 3 (d.modTile_frame t (fun x => { x with atBarrier := false }))
  rw [Dev.tile_modTile_self] at hwork
  exact ⟨hwork, hbut, honly⟩

/-- A tile that no list entry names stays as it is while the tiles of the list pass their barrier. -/
theorem Dev.passBarriers_tile_ne {l : List (Nat × Tile)} {t : Nat} (d : Dev) (h : ∀ z ∈ l, z.1 ≠ t) :
    (l.foldl (fun d e => d.passBarrier e.1) d).tile t = d.tile t := by
  induction l generalizing d with
  | nil => rfl
  | cons z l ih =>
    obtain ⟨hz, hl⟩ := List.forall_mem_cons.mp h
    exact (ih _ hl).trans ((d.passBarrier_frame z.1).2.1 t hz.symm)

/-- A tile away from any barrier keeps its work, whichever tiles pass theirs; this covers a tile that the list names again. -/
theorem Dev.passBarriers_sameWork (l : List (Nat × Tile)) {t : Nat} (d : Dev) (h : (d.tile t).atBarrier = false) :
    (d.tile t).sameWork ((l.foldl (fun d e => d.passBarrier e.1) d).tile t) := by
  induction l generalizing d with
  | nil => exact Tile.sameWork_refl _
  | cons z l ih =>
    obtain ⟨hwork, hbut, -⟩ := d.passBarrier_frame z.1
    have hz : (d.tile t).sameWork ((d.passBarrier z.1).tile t) := by
      by_cases hzt : z.1 = t
      · subst hzt
        have hsame : ({ d.tile z.1 with atBarrier := false } : Tile) = d.tile z.1 :=
          congrArg (fun b => { d.tile z.1 with atBarrier := b }) h.symm
        exact hsame ▸ hwork
      · rw [hbut t (Ne.symm hzt)]
        exact Tile.sameWork_refl _
    exact Tile.sameWork_trans hz (ih _ ((Tile.atBarrier_of_sameWork hz).trans h))

/-- Each tile that the list names leaves its barrier, its work the same. -/
theorem Dev.passBarriers_tile_mem {l : List (Nat × Tile)} {t : Nat} (d : Dev) (h : ∃ z ∈ l, z.1 = t) :
    ({ d.tile t with atBarrier := false } : Tile).sameWork ((l.foldl (fun d e => d.passBarrier e.1) d).tile t) := by
  induction l generalizing d with
  | nil => simp at h
  | cons z l ih =>
    obtain ⟨hwork, hbut, -⟩ := d.passBarrier_frame z.1
    by_cases hzt : z.1 = t
    · subst hzt
      exact Tile.sameWork_trans hwork (Dev.passBarriers_sameWork l _ (Tile.atBarrier_of_sameWork hwork))
    · have hl : ∃ y ∈ l, y.1 = t := by simpa [hzt] using h
      exact hbut t (Ne.symm hzt) ▸ ih (d.passBarrier z.1) hl

theorem Dev.passBarriers_onlyIn (l : List (Nat × Tile)) (d : Dev) :
    d.onlyIn (l.foldl (fun d e => d.passBarrier e.1) d) [.tiles] := by
  refine Dev.onlyIn_foldl _ (fun d e => ?_) l d
  obtain ⟨-, -, honly⟩ := d.passBarrier_frame e.1
  exact honly

/-- While a tile of the command runs on, BARRIER_RELEASE has no effect. -/
theorem Dev.barrierRelease_waits {d : Dev} {c : Nat}
    (h : ∃ z ∈ d.tiles.filter (fun z => z.2.cmd == some c), z.2.ended = false ∧ z.2.atBarrier = false) :
    d.barrierRelease c = d := by
  obtain ⟨z, hz, he, hb⟩ := h
  have hall : (d.tiles.filter (fun z => z.2.cmd == some c)).all (fun e => e.2.ended || e.2.atBarrier) = false :=
    List.all_eq_false.mpr ⟨z, hz, by simp [he, hb]⟩
  simp only [Dev.barrierRelease, hall]
  simp

/-- Once every tile of the command has ended or waits at a barrier (R114), those that wait pass it. -/
theorem Dev.barrierRelease_passes {d : Dev} {c : Nat}
    (h : ∀ z ∈ d.tiles.filter (fun z => z.2.cmd == some c), z.2.ended = true ∨ z.2.atBarrier = true) :
    d.barrierRelease c = ((d.tiles.filter (fun z => z.2.cmd == some c)).filter (fun z => z.2.atBarrier)).foldl
      (fun d e => d.passBarrier e.1) d := by
  unfold Dev.barrierRelease
  generalize d.tiles.filter (fun z => z.2.cmd == some c) = mine at h ⊢
  have hall : mine.all (fun e => e.2.ended || e.2.atBarrier) = true := List.all_eq_true.mpr (by simpa using h)
  simp only [hall]
  split
  next hnone =>
    have hfilter : mine.filter (fun z => z.2.atBarrier) = [] := by
      rcases hnone with hempty | hfalse | hany
      · simp [List.isEmpty_iff.mp hempty]
      · simp at hfalse
      · simpa [List.filter_eq_nil_iff] using hany
    rw [hfilter]
    rfl
  next => rfl

/-- Settles O10, instruction by instruction: those that move control change their tile by one jump, those that issue change it
and let the bundle end, and BARRIER_RELEASE is an induction over the tiles that wait. -/
theorem loopSlotMovesControl : Obligations.LoopSlotMovesControl := by
  unfold Obligations.LoopSlotMovesControl
  refine ⟨⟨?loop, ?spread, ?cset⟩, ⟨?call, ?ret, ?endProgram⟩, ?wait, ?barrier, ?release⟩
  case loop =>
    intro s t c w h x n last r fresh
    have hn : loopCount c.rc w = n.toNat := loopCount_eq_toNat c.rc w
    have htile : (s.dev.loopIssue t).tile t = fresh.openLoop (s.dev.recordOf t) n.toNat w := by
      rw [Dev.loopIssue_eq h, Dev.tile_jump_self, hn]
    refine ⟨s.dev.loopIssue t, rfl, fun hpos => ?_, fun hneg => ?_, ?_⟩
    · rw [htile, Tile.openLoop, if_neg (by omega)]
      rfl
    · rw [htile, show n.toNat = 0 by omega, Tile.openLoop_zero]
      exact ⟨Tile.sameWork_trans (y := fresh) (by simp [Tile.sameWork, fresh]) (Tile.sameWork_endOf _ _ _ _),
        Tile.endOf_no_loops _ _ fresh _⟩
    · rw [Dev.loopIssue_eq h]
      exact s.dev.jump_frame t _
  case spread =>
    intro s t c w h x
    obtain ⟨hwork, hcur, hframe⟩ := Dev.slotDone_after 3
      (s.dev.modTile_frame t (fun x => x.increment (triples x.args (s.dev.recordOf t (bitsOf w 6 6))) x.rank))
    rw [← Dev.spreadIssue_eq h, Dev.tile_modTile_self] at hwork hcur
    rw [← Dev.spreadIssue_eq h] at hframe
    exact ⟨s.dev.spreadIssue t, rfl, Tile.sameWork_trans (Tile.sameWork_increment _ _ _) hwork,
      fun hl => hcur ((Tile.increment_loops _ _ _).trans hl), hframe⟩
  case cset =>
    intro s t c w h x
    obtain ⟨hwork, hcur, hframe⟩ := Dev.slotDone_after 3 (s.dev.clearCursor_frame t w)
    have htile := s.dev.clearCursor_tile t w
    rw [← Dev.csetIssue_eq h] at hwork hcur hframe
    refine ⟨s.dev.csetIssue t, rfl, Tile.sameWork_trans ?_ hwork, fun hl a => ?_, hframe⟩
    · rw [htile]
      simp [Tile.sameWork, x]
    · rw [Tile.cursor, hcur (by rw [htile]; exact hl)]
      exact s.dev.clearCursor_cursor t w a
  case call =>
    intro s t c w h x a
    have htile : (s.dev.callIssue t).tile t
        = Tile.call { x with issued := [], written := [], preV := [] } (s.dev.recordOf t) w := by
      rw [Dev.callIssue_eq h, Dev.tile_jump_self]
    refine ⟨s.dev.callIssue t, rfl, ?_, fun ha => ?_, fun ha k hk => ?_, ?_⟩
    · rw [htile]
      rfl
    · rw [htile]
      exact if_pos ha
    · rw [htile]
      exact (congrArg (fun l : List (BitVec 13) => l[k]?) (if_neg ha)).trans (bindArgs_getElem? _ _ hk)
    · rw [Dev.callIssue_eq h]
      exact s.dev.jump_frame t _
  case ret =>
    intro s t c w h x fresh
    refine ⟨s.dev.retIssue t, rfl, ?_⟩
    rw [Dev.retIssue_eq h]
    refine ⟨fun hf => ?_, fun f fs hf hd hn => ?_, s.dev.doReturn_frame t⟩
    · exact Dev.doReturn_tile_ended hf
    · exact Dev.doReturn_tile hf hd (le_trans hn (by decide))
  case endProgram =>
    intro s t c w h
    refine ⟨s.dev.endIssue t, rfl, ?_⟩
    rw [Dev.endIssue_eq h]
    exact ⟨Dev.tile_jump_self _ _ _, s.dev.jump_frame t _⟩
  case wait =>
    intro s t c w h x met
    have hmet : x.waitMet w = true ↔ met := x.waitMet_iff w
    refine ⟨fun hno => ?_, fun hyes => ?_⟩
    · have hun := Dev.waitIssue_unmet h (Bool.eq_false_iff.mpr (mt hmet.mp hno))
      exact congrArg (fun e => Host.Outcome.next { s with dev := e }) hun
    · obtain ⟨hwork, hcur, hframe⟩ := Dev.slotDone_after 3 (s.dev.takeArrivals_frame t w)
      have htile := s.dev.takeArrivals_tile t w
      rw [← Dev.waitIssue_met h (hmet.mpr hyes)] at hwork hcur hframe
      refine ⟨s.dev.waitIssue t, rfl, fun a => ?_, ?_, fun hl => ?_, hframe⟩
      · rw [Tile.arrival_of_sameWork hwork]
        exact s.dev.takeArrivals_arrival t w a
      · have hkeep := Tile.sameWork_setArrival x.arrival hwork
        rw [htile] at hkeep
        exact hkeep
      · rw [hcur (by rw [htile]; exact hl), htile]
  case barrier =>
    intro s t c w h
    refine ⟨s.dev.barrierIssue t, rfl, ?_⟩
    rw [Dev.barrierIssue_eq h]
    exact ⟨Dev.tile_modTile_self _ _ _, s.dev.modTile_frame t _⟩
  case release =>
    intro s c mine
    refine ⟨fun hrun => ?_, fun hall => ⟨s.dev.barrierRelease c, rfl, ?_⟩⟩
    · exact congrArg (fun e => Host.Outcome.next { s with dev := e }) (Dev.barrierRelease_waits hrun)
    · rw [Dev.barrierRelease_passes hall]
      refine ⟨fun t ⟨z, hz, hzt, hb⟩ => ?_, fun t hout => ?_, ?_⟩
      · exact Dev.passBarriers_tile_mem s.dev ⟨z, List.mem_filter.mpr ⟨hz, hb⟩, hzt⟩
      · refine Dev.passBarriers_tile_ne s.dev fun z hz hzt => ?_
        obtain ⟨hzm, hb⟩ := List.mem_filter.mp hz
        simp [hout z hzm hzt] at hb
      · exact Dev.passBarriers_onlyIn _ s.dev

end Sys2Proof.Machine
end

section
/-! Submission to a command queue (05_command_queues.md R131 to R133): which registers counting, raising an event and waking may
change, and what a posted write in a queue window does in each of its three outcomes. -/

namespace Sys2Proof.Machine

/-! ## Register frames -/

theorem Dev.regsBut_refl (d : Dev) (rs : List Nat) : d.regsBut d rs := fun _ _ => rfl

theorem Dev.regsBut_trans {d e f : Dev} {rs : List Nat} (h : d.regsBut e rs) (k : e.regsBut f rs) : d.regsBut f rs :=
  fun a ha => (k a ha).trans (h a ha)

theorem Dev.regsBut_mono {d e : Dev} {rs ss : List Nat} (h : d.regsBut e rs) (hs : rs ⊆ ss) : d.regsBut e ss := by
  intro a ha
  refine h a (Bool.eq_false_iff.mpr fun hm => ?_)
  simp [hs (List.contains_iff_mem.mp hm)] at ha

theorem Dev.regsBut_foldl {α : Type} {rs : List Nat} (f : Dev → α → Dev) (h : ∀ (d : Dev) a, d.regsBut (f d a) rs) (l : List α)
    (d : Dev) : d.regsBut (l.foldl f d) rs := by
  induction l generalizing d with
  | nil => exact d.regsBut_refl rs
  | cons a l ih => exact Dev.regsBut_trans (h d a) (ih (f d a))

/-- A change outside the register file keeps every register. -/
theorem Dev.regsBut_of_onlyIn {d e : Dev} {cs : List Comp} (h : d.onlyIn e cs) (hc : cs.contains .regs = false) (rs : List Nat) :
    d.regsBut e rs := fun a _ => Dev.reg_congr (h .regs hc) a

theorem Dev.regsBut_setReg (d : Dev) (a : Nat) (v : W64) : d.regsBut (d.setReg a v) [a] :=
  fun b hb => d.reg_setReg_ne v (by simpa using hb)

theorem Dev.regsBut_putF (d : Dev) (a : Nat) (f : Fld) (x : Nat) : d.regsBut (d.putF a f x) [a] := d.regsBut_setReg a _

/-- A field of a register outside the frame reads as before. -/
theorem Dev.getF_of_regsBut {d e : Dev} {rs : List Nat} (h : d.regsBut e rs) {a : Nat} (ha : rs.contains a = false) (f : Fld) :
    e.getF a f = d.getF a f := congrArg (fld · f) (h a ha)

/-- A saturating counter of 32 bits, one up. -/
theorem Dev.getF_addF_one (d : Dev) (a : Nat) (f : Fld) (hf : f.lo + f.len ≤ 64) :
    (d.addF a f 1).getF a f = min (2 ^ f.len - 1) (d.getF a f + 1) := by
  rw [Dev.addF, Dev.getF_putF_self _ _ _ _ hf, satAdd, min_comm]
  exact Nat.mod_eq_of_lt (by have := Nat.two_pow_pos f.len; omega)

/-! ## Messages and events (R326, R328, R444) -/

/-- The registers that setting an event bit of a page may change: the page's event register, and where the host link loses a
message (R441) the count of lost writes and the event register of HIF. -/
abbrev raiseRegs (page : Nat) : List Nat := [rBlkIntStat page, rHifTxDrop, rBlkIntStat pgHif]

/-- A message that the host link loses is counted and sets TX_DROP (R428, R441). -/
def Dev.loseMsg (d : Dev) : Dev := (d.addF rHifTxDrop fHifTxDrop_Cnt 1).modReg (rBlkIntStat pgHif) (· ||| 8)

/-- A message due leaves the register file alone, or is lost. -/
theorem Dev.sendMsg_regs (d : Dev) (fv : Nat × Nat) :
    (d.sendMsg fv).regs = d.regs ∨ d.sendMsg fv = d.loseMsg := by
  simp only [Dev.sendMsg]
  split
  · exact .inl rfl
  · split
    · exact .inl rfl
    · split
      · exact .inr rfl
      · exact .inl rfl

theorem Dev.sendMsg_regsBut (d : Dev) (fv : Nat × Nat) : d.regsBut (d.sendMsg fv) [rHifTxDrop, rBlkIntStat pgHif] := by
  rcases d.sendMsg_regs fv with hsame | hlost
  · exact fun a _ => Dev.reg_congr hsame a
  · rw [hlost]
    exact Dev.regsBut_trans (Dev.regsBut_mono (d.regsBut_putF _ _ _) (by simp))
      (Dev.regsBut_mono (Dev.regsBut_setReg _ _ _) (by simp))

/-- A message due clears no event bit. -/
theorem Dev.sendMsg_event {d : Dev} {page i : Nat} (hp : rBlkIntStat page ≠ rHifTxDrop) (h : d.event page i = true)
    (fv : Nat × Nat) : (d.sendMsg fv).event page i = true := by
  rcases d.sendMsg_regs fv with hsame | hlost
  · exact (congrArg (bitOf · i) (Dev.reg_congr hsame _)).trans h
  · have hkeep : (d.addF rHifTxDrop fHifTxDrop_Cnt 1).reg (rBlkIntStat page) = d.reg (rBlkIntStat page) :=
      d.reg_putF_ne _ _ hp
    rw [hlost, Dev.event, Dev.loseMsg, Dev.modReg, Dev.reg_setReg]
    rw [Dev.event] at h
    split
    next heq => simpa [bitOf, ← heq, hkeep] using Or.inl h
    next => rw [hkeep, h]

theorem Dev.signal_regsBut (d e : Dev) : e.regsBut (Dev.signal d e) [rHifTxDrop, rBlkIntStat pgHif] :=
  Dev.regsBut_foldl _ (fun d a => d.sendMsg_regsBut a) _ e

theorem Dev.signal_event {e : Dev} {page i : Nat} (hp : rBlkIntStat page ≠ rHifTxDrop) (h : e.event page i = true) (d : Dev) :
    (Dev.signal d e).event page i = true := by
  unfold Dev.signal
  exact List.foldlRecOn (motive := fun e : Dev => e.event page i = true) _ _ h fun _ hb a _ => Dev.sendMsg_event hp hb a

theorem Dev.raise_regsBut (d : Dev) (page bits : Nat) : d.regsBut (d.raise page bits) (raiseRegs page) :=
  Dev.regsBut_trans (Dev.regsBut_mono (d.regsBut_setReg _ _) (by simp))
    (Dev.regsBut_mono (Dev.signal_regsBut _ _) (by simp))

/-- A bit raised is set. -/
theorem Dev.raise_event (d : Dev) {page i : Nat} (hp : rBlkIntStat page ≠ rHifTxDrop) (hi : i < 64) :
    (d.raise page (2 ^ i)).event page i = true := by
  refine Dev.signal_event hp ?_ d
  rw [Dev.event, Dev.modReg, Dev.reg_setReg_self]
  have hbit : (BitVec.ofNat 64 (2 ^ i)).getLsbD i = true := by rw [BitVec.getLsbD_ofNat]; simp [hi]
  rw [bitOf, BitVec.getLsbD_or, hbit, Bool.or_true]

/-! ## Wakes (R375) -/

theorem Dev.driveWakeN_two (d : Dev) : d.driveWakeN 2 = d := by simp [Dev.driveWakeN]

theorem Dev.driveWakeN_frame (d : Dev) (src : Nat) : d.onlyIn (d.driveWakeN src) [.hif] := by
  unfold Dev.driveWakeN
  split
  · intro c hc
    cases c <;> first | rfl | simp at hc
  · exact d.onlyIn_refl _

theorem Dev.onPwr_frame (d : Dev) (f : Pwr → Pwr) : d.onlyIn (d.onPwr f) [.pwr] := by
  intro c hc
  cases c <;> first | rfl | simp at hc

/-- Leaving LULL or FALLOW changes PWR_STATE alone of the registers, and besides it power management and WAKE_N. -/
theorem Dev.startWake_frame (d : Dev) (src : Nat) :
    d.regsBut (d.startWake src) [rPwrState] ∧ d.onlyIn (d.startWake src) [.regs, .pwr, .hif] := by
  have hpwr := d.onPwr_frame (fun x => { x with wakeFrom := d.pstate, wakeWaits := 0, entering := none })
  have hpin := fun e : Dev => e.driveWakeN_frame src
  constructor
  · exact Dev.regsBut_trans (Dev.regsBut_of_onlyIn hpwr (by decide) _)
      (Dev.regsBut_trans (Dev.regsBut_putF _ _ _ _)
        (Dev.regsBut_trans (Dev.regsBut_putF _ _ _ _) (Dev.regsBut_of_onlyIn (hpin _) (by decide) _)))
  · exact Dev.onlyIn_trans (Dev.onlyIn_sub _ hpwr (by decide))
      (Dev.onlyIn_trans (Dev.onlyIn_sub _ (Dev.putF_frame _ _ _ _) (by decide))
        (Dev.onlyIn_trans (Dev.onlyIn_sub _ (Dev.putF_frame _ _ _ _) (by decide)) (Dev.onlyIn_sub _ (hpin _) (by decide))))

theorem Dev.wakeSource_frame (d : Dev) (src : Nat) :
    d.regsBut (d.wakeSource src) [rPwrState] ∧ d.onlyIn (d.wakeSource src) [.regs, .pwr, .hif] := by
  have hsame : d.regsBut d [rPwrState] ∧ d.onlyIn d [.regs, .pwr, .hif] := ⟨d.regsBut_refl _, d.onlyIn_refl _⟩
  unfold Dev.wakeSource
  split
  · split
    · exact hsame
    · exact d.startWake_frame src
  · split
    · exact ⟨Dev.regsBut_of_onlyIn (d.onPwr_frame _) (by decide) _, Dev.onlyIn_sub _ (d.onPwr_frame _) (by decide)⟩
    · exact hsame

/-- In ACTIVE a wake source is absorbed (R375). -/
theorem Dev.wakeSource_active {d : Dev} (h : d.pstate = 0) (src : Nat) : d.wakeSource src = d := by
  simp [Dev.wakeSource, h]

/-- In LULL and FALLOW, source 2 makes the device wake and is named as the source. -/
theorem Dev.wakeSource_two {d : Dev} (h : d.pstate = 2 ∨ d.pstate = 3) :
    (d.wakeSource 2).pstate = 4 ∧ (d.wakeSource 2).getF rPwrState fPwrState_WakeSrc = 2 := by
  have hw : d.wakeSource 2 = d.startWake 2 := by simp [Dev.wakeSource, h]
  rw [hw, Dev.startWake, Dev.driveWakeN_two]
  constructor
  · rw [Dev.pstate, Dev.getF_putF_field _ _ _ _ _ (by decide) (by decide), Dev.setPstate, Dev.getF_putF_self _ _ _ _ (by decide)]
    rfl
  · rw [Dev.getF_putF_self _ _ _ _ (by decide)]
    rfl

/-! ## A posted write in a queue window -/

/-- A posted write of function `f` in queue `q`'s window is no valid submission (R131). -/
def Dev.badWrite (d : Dev) (q f off : Nat) (data : List Byte) : Prop :=
  data.length ≠ 64 ∨ off % 64 ≠ 0 ∨ d.queueEn q = false ∨ d.queueFunc q ≠ f ∨ (d.queuePart q < 6 ∧ d.inReset (d.queuePart q) = true)

/-- A write of queue `q`'s window is rejected (R133). -/
def Dev.rejectRecord (d : Dev) (q : Nat) : Dev := (d.addF (rCqQQrej q) fCqQQrej_Qrej 1).raise (pgCqQ q) (2 ^ (q % 32))

/-- Record `r` finds no credit in queue `q` and is dropped (R133). -/
def Dev.dropRecord (d : Dev) (q : Nat) (r : Rec) : Dev :=
  ((d.addF (rCqQQovf q) fCqQQovf_Qovf 1).putF (rCqQLastdrop q) fCqQLastdrop_Seq (bitsOf r 32 32)).raise (pgCqQ q) (2 ^ (q % 32))

/-- Record `r` is written whole to the word of queue `q`'s storage that WCNT names, and joins the queue (R132, R338). -/
def Dev.joinQueue (d : Dev) (q : Nat) (r : Rec) : Dev :=
  (d.dropWords .queueStorage q [d.getF (rCqQWcnt q) fCqQWcnt_Wcnt % 1024]).enqueue q r

/-- Record `r` is accepted in queue `q`: it joins the queue and WCNT counts it (R132). -/
def Dev.storeRecord (d : Dev) (q : Nat) (r : Rec) : Dev := (d.joinQueue q r).rollF (rCqQWcnt q) fCqQWcnt_Wcnt 1

/-- What an accepted record does to a device that is not ACTIVE: POWER_STATE is wake source 2, any other record source 3 where
PWR_WAKE_EN enables it (Table 13-5). -/
def Dev.wakeFor (d : Dev) (r : Rec) : Dev :=
  if opcodeOf r = 0x21 then d.wakeSource 2
  else if d.getF rPwrWakeEn fPwrWakeEn_Queue = 1 then d.wakeSource 3
  else d

/-- The three outcomes of a posted write in a queue window. -/
theorem Dev.queueWrite_eq {d : Dev} {f off : Nat} {data : List Byte} (hoff : off < 0x80_0000) :
    let q := off / 0x1_0000
    let e := d.queueWrite f off data
    (d.badWrite q f off data → e = d.rejectRecord q)
    ∧ (¬ d.badWrite q f off data → d.credit q = 0 → e = d.dropRecord q (recOf data))
    ∧ (¬ d.badWrite q f off data → d.credit q ≠ 0 → e = (d.storeRecord q (recOf data)).wakeFor (recOf data)) := by
  intro q e
  have hq : ¬ 128 ≤ q := by omega
  have hbad : (data.length ≠ 64 ∨ off % 64 ≠ 0 ∨ (!d.queueEn q) = true ∨ d.queueFunc q ≠ f
      ∨ (d.queuePart q < 6 ∧ d.inReset (d.queuePart q) = true)) ↔ d.badWrite q f off data := by
    simp [Dev.badWrite]
  refine ⟨fun hb => ?_, fun hb hc => ?_, fun hb hc => ?_⟩
  · exact (if_neg hq).trans (if_pos (hbad.mpr hb))
  · exact (if_neg hq).trans ((if_neg (mt hbad.mp hb)).trans (if_pos hc))
  · exact (if_neg hq).trans ((if_neg (mt hbad.mp hb)).trans (if_neg hc))

/-- The registers of queue `q`'s row are none that an event of its page may change. -/
theorem raiseRegs_queueRow {q a : Nat} (ha : 0x11200 + 0x1000 * (q / 32) ≤ a) : (raiseRegs (pgCqQ q)).contains a = false := by
  simp [rBlkIntStat, rHifTxDrop, pgCqQ, pgHif]
  omega

theorem Dev.raise_queueEvent (d : Dev) (q : Nat) : (d.raise (pgCqQ q) (2 ^ (q % 32))).event (pgCqQ q) (q % 32) = true :=
  d.raise_event (by simp [rBlkIntStat, rHifTxDrop, pgCqQ]; omega) (by omega)

theorem Dev.rejectRecord_counts (d : Dev) (q : Nat) :
    (d.rejectRecord q).getF (rCqQQrej q) fCqQQrej_Qrej = min (2 ^ 32 - 1) (d.getF (rCqQQrej q) fCqQQrej_Qrej + 1) :=
  (Dev.getF_of_regsBut (Dev.raise_regsBut _ _ _) (raiseRegs_queueRow (by simp [rCqQQrej]; omega)) _).trans
    (d.getF_addF_one _ _ (by decide))

theorem Dev.rejectRecord_frame (d : Dev) (q : Nat) :
    d.regsBut (d.rejectRecord q) (rCqQQrej q :: raiseRegs (pgCqQ q)) ∧ d.onlyIn (d.rejectRecord q) [.regs, .hif] :=
  ⟨Dev.regsBut_trans (Dev.regsBut_mono (d.regsBut_putF _ _ _) (by simp))
      (Dev.regsBut_mono (Dev.raise_regsBut _ _ _) (by simp)),
    Dev.onlyIn_trans (Dev.onlyIn_sub _ (d.addF_frame _ _ _) (by decide)) (Dev.raise_frame _ _ _)⟩

theorem Dev.dropRecord_counts (d : Dev) (q : Nat) (r : Rec) :
    (d.dropRecord q r).getF (rCqQQovf q) fCqQQovf_Qovf = min (2 ^ 32 - 1) (d.getF (rCqQQovf q) fCqQQovf_Qovf + 1) :=
  calc (d.dropRecord q r).getF (rCqQQovf q) fCqQQovf_Qovf
      = ((d.addF (rCqQQovf q) fCqQQovf_Qovf 1).putF (rCqQLastdrop q) fCqQLastdrop_Seq (bitsOf r 32 32)).getF
          (rCqQQovf q) fCqQQovf_Qovf :=
        Dev.getF_of_regsBut (Dev.raise_regsBut _ _ _) (raiseRegs_queueRow (by simp [rCqQQovf]; omega)) _
    _ = (d.addF (rCqQQovf q) fCqQQovf_Qovf 1).getF (rCqQQovf q) fCqQQovf_Qovf :=
        Dev.getF_putF_ne _ _ _ _ (by simp [rCqQQovf, rCqQLastdrop])
    _ = min (2 ^ 32 - 1) (d.getF (rCqQQovf q) fCqQQovf_Qovf + 1) := d.getF_addF_one _ _ (by decide)

/-- A drop is named in LASTDROP by its record's SEQ. -/
theorem Dev.dropRecord_lastdrop (d : Dev) (q : Nat) (r : Rec) :
    (d.dropRecord q r).getF (rCqQLastdrop q) fCqQLastdrop_Seq = bitsOf r 32 32 :=
  calc (d.dropRecord q r).getF (rCqQLastdrop q) fCqQLastdrop_Seq
      = ((d.addF (rCqQQovf q) fCqQQovf_Qovf 1).putF (rCqQLastdrop q) fCqQLastdrop_Seq (bitsOf r 32 32)).getF
          (rCqQLastdrop q) fCqQLastdrop_Seq :=
        Dev.getF_of_regsBut (Dev.raise_regsBut _ _ _) (raiseRegs_queueRow (by simp [rCqQLastdrop]; omega)) _
    _ = bitsOf r 32 32 % 2 ^ 32 := Dev.getF_putF_self _ _ _ _ (by decide)
    _ = bitsOf r 32 32 := Nat.mod_mod _ _

theorem Dev.dropRecord_frame (d : Dev) (q : Nat) (r : Rec) : d.onlyIn (d.dropRecord q r) [.regs, .hif] :=
  Dev.onlyIn_trans (Dev.onlyIn_sub _ (d.addF_frame _ _ _) (by decide))
    (Dev.onlyIn_trans (Dev.onlyIn_sub _ (Dev.putF_frame _ _ _ _) (by decide)) (Dev.raise_frame _ _ _))

theorem Dev.dropWords_frame (d : Dev) (arr : SramArray) (u : Nat) (ws : List Nat) : d.onlyIn (d.dropWords arr u ws) [.upsets] := by
  unfold Dev.dropWords
  split
  · exact d.onlyIn_refl _
  · exact Dev.onlyIn_foldl _ (fun d w => d.dropUpset_frame arr u w) ws d

theorem Dev.enqueue_frame (d : Dev) (q : Nat) (r : Rec) : d.onlyIn (d.enqueue q r) [.cq] := by
  intro c hc
  cases c <;> first | rfl | simp at hc

theorem Dev.joinQueue_frame (d : Dev) (q : Nat) (r : Rec) : d.onlyIn (d.joinQueue q r) [.cq, .upsets] :=
  Dev.onlyIn_trans (Dev.onlyIn_sub _ (d.dropWords_frame _ _ _) (by decide)) (Dev.onlyIn_sub _ (Dev.enqueue_frame _ q r) (by decide))

theorem Dev.joinQueue_regsBut (d : Dev) (q : Nat) (r : Rec) (rs : List Nat) : d.regsBut (d.joinQueue q r) rs :=
  Dev.regsBut_of_onlyIn (d.joinQueue_frame q r) (by decide) rs

theorem Dev.storeRecord_cq (d : Dev) (q : Nat) (r : Rec) : (d.storeRecord q r).cq = { d.cq with
    storage := tset d.cq.storage q (d.waiting q ++ [r])
    stamps := tset d.cq.stamps q (tget d.cq.stamps [] q ++ [d.cq.nextStamp])
    nextStamp := d.cq.nextStamp + 1 } := by
  have hcq : (d.dropWords .queueStorage q [d.getF (rCqQWcnt q) fCqQWcnt_Wcnt % 1024]).cq = d.cq :=
    d.dropWords_frame _ _ _ .cq (by decide)
  simp [Dev.storeRecord, Dev.joinQueue, Dev.enqueue, Dev.setWaiting, Dev.waiting, hcq]

theorem Dev.storeRecord_frame (d : Dev) (q : Nat) (r : Rec) :
    d.regsBut (d.storeRecord q r) [rCqQWcnt q] ∧ d.onlyIn (d.storeRecord q r) [.cq, .regs, .upsets] :=
  ⟨Dev.regsBut_trans (d.joinQueue_regsBut q r _) (Dev.regsBut_putF _ _ _ _),
    Dev.onlyIn_trans (Dev.onlyIn_sub _ (d.joinQueue_frame q r) (by decide)) (Dev.onlyIn_sub _ (Dev.putF_frame _ _ _ _) (by decide))⟩

theorem Dev.storeRecord_wcnt (d : Dev) (q : Nat) (r : Rec) :
    (d.storeRecord q r).getF (rCqQWcnt q) fCqQWcnt_Wcnt = (d.getF (rCqQWcnt q) fCqQWcnt_Wcnt + 1) % 2 ^ 32 := by
  have hjoin := Dev.getF_of_regsBut (a := rCqQWcnt q) (d.joinQueue_regsBut q r []) rfl fCqQWcnt_Wcnt
  rw [Dev.storeRecord, Dev.rollF, Dev.getF_putF_self _ _ _ _ (by decide), hjoin]
  rfl

/-- No count of a queue is PWR_STATE. -/
theorem rCqQWcnt_ne_rPwrState {q : Nat} (hq : q < 128) : rCqQWcnt q ≠ rPwrState := by
  have hlt : rCqQWcnt q < rPwrState := by
    simp only [rCqQWcnt, rPwrState]
    omega
  exact hlt.ne

theorem Dev.storeRecord_pstate (d : Dev) {q : Nat} (hq : q < 128) (r : Rec) : (d.storeRecord q r).pstate = d.pstate :=
  Dev.getF_of_regsBut (d.storeRecord_frame q r).1 (by simpa using (rCqQWcnt_ne_rPwrState hq).symm) _

theorem Dev.wakeFor_frame (d : Dev) (r : Rec) :
    d.regsBut (d.wakeFor r) [rPwrState] ∧ d.onlyIn (d.wakeFor r) [.regs, .pwr, .hif] := by
  unfold Dev.wakeFor
  split
  · exact d.wakeSource_frame 2
  · split
    · exact d.wakeSource_frame 3
    · exact ⟨d.regsBut_refl _, d.onlyIn_refl _⟩

theorem Dev.wakeFor_active {d : Dev} (h : d.pstate = 0) (r : Rec) : d.wakeFor r = d := by
  simp [Dev.wakeFor, Dev.wakeSource_active h]

/-- A request that reaches the blocks is handled (R323, R402, R426). -/
theorem Dev.received_reached {d : Dev} {f : Nat} (h : d.reached f) (nonPosted : Bool) (k : Dev → Dev) :
    d.received f nonPosted k = k d := by
  obtain ⟨hready, hserves, hboot⟩ := h
  simp [Dev.received, hready, hserves, hboot]

/-- Settles O11, outcome by outcome: a rejected and a dropped write change registers and messages only, and an accepted record
joins its queue before any wake, which touches neither queues nor counts. -/
theorem queueWriteIsAcceptedDroppedOrRejected : Obligations.QueueWriteIsAcceptedDroppedOrRejected := by
  unfold Obligations.QueueWriteIsAcceptedDroppedOrRejected
  intro s f off data hreach hoff d q p bad r
  have hexec : exec (.queueRecordWrite f off data) s = .next { s with dev := d.queueWrite f off data } :=
    congrArg (fun e : Dev => (.next { s with dev := e } : Host.Outcome State Fault Refusal))
      (Dev.received_reached hreach false (fun d => d.queueWrite f off data))
  obtain ⟨hrej, hdrop, hacc⟩ := Dev.queueWrite_eq (d := d) (f := f) (data := data) hoff
  have hq : q < 128 := by omega
  refine ⟨d.queueWrite f off data, hexec, fun hb => ?rejected, fun hb hc => ?dropped, fun hb hc => ?accepted⟩
  case rejected =>
    rw [hrej hb]
    exact ⟨d.rejectRecord_counts q, Dev.raise_queueEvent _ q, d.rejectRecord_frame q⟩
  case dropped =>
    rw [hdrop hb hc]
    exact ⟨d.dropRecord_counts q r, d.dropRecord_lastdrop q r, Dev.raise_queueEvent _ q, d.dropRecord_frame q r⟩
  case accepted =>
    rw [hacc hb hc]
    have hstate := d.storeRecord_pstate hq r
    obtain ⟨hregs, honly⟩ := (d.storeRecord q r).wakeFor_frame r
    refine ⟨?_, ?_, fun hp => ?_, fun hop hp => ?_⟩
    · exact (honly .cq (by decide)).trans (d.storeRecord_cq q r)
    · exact (Dev.getF_of_regsBut hregs (by simpa using rCqQWcnt_ne_rPwrState hq) _).trans (d.storeRecord_wcnt q r)
    · rw [Dev.wakeFor_active (hstate.trans hp)]
      exact d.storeRecord_frame q r
    · rw [Dev.wakeFor, if_pos hop]
      exact Dev.wakeSource_two (by rw [hstate]; exact hp)

end Sys2Proof.Machine
end

section
/-! Atomics (06_memory_ordering.md R166 to R169): what a request leaves when it has finished, what its operation writes to its
target, and which of the two its performance comes to. -/

namespace Sys2Proof.Machine

/-! ## A request that has finished (R169) -/

theorem Dev.slotResult_frame (d : Dev) (t slot old status : Nat) : d.onlyIn (d.slotResult t slot old status) [.slots] := by
  unfold Dev.slotResult
  generalize d.slots.putBytes _ _ = m
  intro c hc
  cases c <;> first | rfl | simp at hc

theorem Dev.tile_slotResult (d : Dev) (t slot old status u : Nat) : (d.slotResult t slot old status).tile u = d.tile u :=
  Dev.tile_congr (d.slotResult_frame t slot old status .tiles (by decide)) u

/-- An operation that is outstanding no longer takes no request with it. -/
theorem Dev.dropOp_atoms (d : Dev) (t id : Nat) : ((d.dropOp t id).tile t).atoms = (d.tile t).atoms := by simp [Dev.dropOp]

/-- The oldest request of a tile leaves its list, and the MOVE that wrote it completes with the last of its requests. -/
def Dev.popAtom (d : Dev) (t : Nat) (q : AtomReq) : Dev :=
  let e := d.modTile t (fun x => { x with atoms := x.atoms.drop 1 })
  if (e.tile t).atoms.any (fun a => a.op == q.op) then e else e.dropOp t q.op

theorem Dev.atomDone_eq (d : Dev) (t : Nat) (q : AtomReq) (old status : Nat) :
    d.atomDone t q old status = (d.slotResult t q.slot old status).popAtom t q := rfl

theorem Dev.popAtom_frame (d : Dev) (t : Nat) (q : AtomReq) :
    d.tilesBut (d.popAtom t q) t ∧ d.onlyIn (d.popAtom t q) [.tiles] := by
  obtain ⟨hbut, honly⟩ := d.modTile_frame t (fun x => { x with atoms := x.atoms.drop 1 })
  unfold Dev.popAtom
  dsimp only
  split
  · exact ⟨hbut, honly⟩
  · obtain ⟨hbut', honly'⟩ := Dev.modTile_frame _ t (fun x => { x with outs := x.outs.filter (fun o => o.id != q.op) })
    exact ⟨Dev.tilesBut_trans hbut hbut', Dev.onlyIn_trans honly honly'⟩

theorem Dev.popAtom_atoms (d : Dev) (t : Nat) (q : AtomReq) : ((d.popAtom t q).tile t).atoms = (d.tile t).atoms.drop 1 := by
  unfold Dev.popAtom
  dsimp only
  split <;> simp [Dev.dropOp_atoms]

/-- A finished request: OLD, STATUS and zeros stand in its slot, it is the tile's oldest no longer, and nothing else changes but
what its own tile has outstanding. -/
theorem Dev.atomDone_effect (d : Dev) (t : Nat) (q : AtomReq) (old status : Nat) :
    let e := d.atomDone t q old status
    e.slots = d.slots.putBytes (t * 4096 + 64 * q.slot + 32) (leBytes 8 old ++ leBytes 1 status ++ zeros 23)
      ∧ (e.tile t).atoms = (d.tile t).atoms.drop 1 ∧ d.tilesBut e t ∧ d.onlyIn e [.slots, .tiles] := by
  simp only [Dev.atomDone_eq]
  obtain ⟨hbut, honly⟩ := (d.slotResult t q.slot old status).popAtom_frame t q
  have hatoms := (d.slotResult t q.slot old status).popAtom_atoms t q
  have htile := fun u => d.tile_slotResult t q.slot old status u
  rw [htile] at hatoms
  exact ⟨honly .slots (by decide), hatoms, fun u hu => (hbut u hu).trans (htile u),
    Dev.onlyIn_trans (Dev.onlyIn_sub _ (d.slotResult_frame _ _ _ _) (by decide)) (Dev.onlyIn_sub _ honly (by decide))⟩

/-! ## What an operation writes (R167) -/

/-- The width of a request's target. -/
def atomWidth (r : Rec) : Nat := if bitOf r 4 then 64 else 32

/-- The target at `l` of request `r` of command `c` takes the value `x`, cut to its width, at its home. -/
def Dev.putTarget (d : Dev) (c : Cmd) (r : Rec) (l x : Nat) : Dev :=
  d.writeHome { addr := l, data := leBytes (atomWidth r / 8) x, func := c.func }

/-- What the operation of request `r` does to a target at `l` that holds `old`. -/
def Dev.atomStore (d : Dev) (c : Cmd) (r : Rec) (l old : Nat) : Dev :=
  let w := atomWidth r
  match atomValue (bitsOf r 0 4) w (bitOf r 5) old (bitsOf r 128 w) (bitsOf r 192 w) with
  | none => d
  | some v => d.putTarget c r l v

section
variable {r : Rec} (d : Dev) (c : Cmd) (l old : Nat)

theorem Dev.atomStore_add (h : bitsOf r 0 4 = 1) :
    d.atomStore c r l old = d.putTarget c r l ((old + bitsOf r 128 (atomWidth r)) % 2 ^ atomWidth r) := by
  simp [Dev.atomStore, atomValue, h]

theorem Dev.atomStore_max (h : bitsOf r 0 4 = 2) :
    d.atomStore c r l old = d.putTarget c r l (atomMax (bitOf r 5) (atomWidth r) old (bitsOf r 128 (atomWidth r))) := by
  simp [Dev.atomStore, atomValue, h]

theorem Dev.atomStore_cas (h : bitsOf r 0 4 = 3) :
    d.atomStore c r l old
      = if old = bitsOf r 192 (atomWidth r) then d.putTarget c r l (bitsOf r 128 (atomWidth r)) else d := by
  by_cases heq : old = bitsOf r 192 (atomWidth r) <;> simp [Dev.atomStore, atomValue, h, heq]

theorem Dev.atomStore_xchg (h : bitsOf r 0 4 = 4) :
    d.atomStore c r l old = d.putTarget c r l (bitsOf r 128 (atomWidth r)) := by
  simp [Dev.atomStore, atomValue, h]

end

/-- A request that is not INVALID names one of the five operations. -/
theorem atomOp_le {r : Rec} (h : atomInvalid r = false) : bitsOf r 0 4 ≤ 4 := by
  simp only [atomInvalid, Bool.or_eq_false_iff, decide_eq_false_iff_not, not_lt] at h
  obtain ⟨⟨⟨⟨⟨hop, -⟩, -⟩, -⟩, -⟩, -⟩ := h
  exact hop

/-! ## The oldest request -/

/-- The oldest request of tile `t`, whose command is `c`, is whole and valid, and nothing earlier holds it back. -/
def Dev.atomReady (d : Dev) (t : Nat) (c : Cmd) (q : AtomReq) : Prop :=
  d.tileCmd t = some c ∧ (∃ rest, (d.tile t).atoms = q :: rest) ∧ q.whole = true
    ∧ atomInvalid (recOf q.data) = false ∧ d.atomWaits t q (recOf q.data) = false

/-- A FENCE orders and finishes, its OLD 0. -/
theorem Dev.atomicPerform_fence {d : Dev} {t : Nat} {c : Cmd} {q : AtomReq} (h : d.atomReady t c q)
    (hop : bitsOf (recOf q.data) 0 4 = 0) :
    d.atomicPerform t = (d.atomOrder t (recOf q.data)).atomDone t q 0 1 := by
  obtain ⟨hcmd, ⟨rest, hatoms⟩, hwhole, hvalid, hfree⟩ := h
  simp [Dev.atomicPerform, hatoms, hcmd, hwhole, hvalid, hfree, hop]

/-- Any other operation reads its target's granule from its home and, where that is memory that reads without poison, writes there
what it has to write and finishes, its OLD the value read. -/
theorem Dev.atomicPerform_target {d d1 d2 : Dev} {t : Nat} {c : Cmd} {q : AtomReq} {l : Nat} {bs : List Byte}
    (h : d.atomReady t c q) (hop : bitsOf (recOf q.data) 0 4 ≠ 0)
    (hxlate : d.xlate (c.reach t).toPort.eng (bitsOf (recOf q.data) 16 8) (bitsOf (recOf q.data) 64 48) true = (d1, .ok l))
    (hhost : isHost l = false) (hslot : isSlot l = false)
    (hread : (d1.atomOrder t (recOf q.data)).readHomeGran 1 (granOf l) = (d2, bs, 0)) :
    let old := leNat ((bs.drop (l % 64)).take (atomWidth (recOf q.data) / 8))
    d.atomicPerform t = (d2.atomStore c (recOf q.data) l old).atomDone t q old 1 := by
  obtain ⟨hcmd, ⟨rest, hatoms⟩, hwhole, hvalid, hfree⟩ := h
  simp only [Dev.atomicPerform, Dev.atomStore, atomWidth, hatoms, hcmd, hwhole, hvalid, hfree, hop, hxlate, hhost, hslot, hread]
  generalize atomValue _ _ _ _ _ _ = v
  cases v <;> rfl

/-- Settles O7: a FENCE is its ordering and a finish, and any other operation a store at its target's home, by R167's table, and a
finish. -/
theorem atomicsActOnTheirTarget : Obligations.AtomicsActOnTheirTarget := by
  unfold Obligations.AtomicsActOnTheirTarget
  intro s t c q rest hcmd hatoms hwhole r at_ w v hvalid hfree
  have hready : s.dev.atomReady t c q := ⟨hcmd, ⟨rest, hatoms⟩, hwhole, hvalid, hfree⟩
  refine ⟨fun d1 d2 l bs hop hxlate hhost hslot hread => ?target, fun hop => ?fence⟩
  case fence =>
    intro d3
    refine ⟨s.dev.atomicPerform t, rfl, ?_⟩
    rw [Dev.atomicPerform_fence hready hop]
    exact Dev.atomDone_effect _ t q 0 1
  case target =>
    intro old put d3
    have hstore : d2.atomStore c r l old = d3 := by
      have hle := atomOp_le hvalid
      have hcases : bitsOf r 0 4 = 1 ∨ bitsOf r 0 4 = 2 ∨ bitsOf r 0 4 = 3 ∨ bitsOf r 0 4 = 4 := by omega
      rcases hcases with hadd | hmax | hcas | hxchg
      · simp only [d3, hadd]
        exact d2.atomStore_add c l old hadd
      · simp only [d3, hmax]
        exact d2.atomStore_max c l old hmax
      · simp only [d3, hcas]
        exact d2.atomStore_cas c l old hcas
      · simp only [d3, hxchg]
        exact d2.atomStore_xchg c l old hxchg
    refine ⟨s.dev.atomicPerform t, rfl, ?_⟩
    rw [Dev.atomicPerform_target hready hop hxlate hhost hslot hread]
    rw [← hstore]
    exact Dev.atomDone_effect _ t q old 1

end Sys2Proof.Machine
end

section
/-! POWER_STATE (13_power_clocks_thermal.md R371 to R373, R376, R377, R394): how a head whose turn has come is taken, what the record
of a command that ends at its start leaves, and what a refusal and a commit do. -/

namespace Sys2Proof.Machine

/-! ## Heads whose turn has come (R140, R141) -/

/-- A head that waits for nothing meets a device whose state lets it start. -/
theorem Dev.startsNow_of_waitReasons {d : Dev} {q : Nat} {r : Rec} (h : d.waitReasons q r = []) :
    d.startsNow (d.queuePart q) r = true := by
  have hown : d.ownReasons q r = [] := by
    unfold Dev.waitReasons at h
    dsimp only at h
    split at h
    · simp at h
    · exact h
  unfold Dev.ownReasons at hown
  dsimp only at hown
  split at hown
  · simp at hown
  · simp only [List.append_eq_nil_iff] at hown
    obtain ⟨⟨⟨_, hstate⟩, _⟩, _⟩ := hown
    by_contra hs
    simp [hs] at hstate

section
variable {d d1 : Dev} {q op : Nat} {r : Rec} {rest : List Rec} {x : Cmd}

/-- A head that may start is handed to its row's meaning, its record out of storage. -/
theorem Dev.takeHead_starting (h : d.starting d1 q op r rest x) (hop : knownOps.contains op = true) (run : Dev → Cmd → Dev) :
    d.takeHead q op run = run d1 x := by
  obtain ⟨⟨hhead, hwait, hbar4, hturn, hchecked, hclean⟩, rfl, hrecord, rfl, rfl⟩ := h
  have hrow : recordRow r = opcodeOf r := if_pos hop
  have hready : d.headReady q (opcodeOf r) = true := by
    simp [Dev.headReady, hhead, hrow, hwait, hbar4, hturn, hchecked]
  have hword : ∀ w, d.readWord .queueStorage q w = (d, false) := fun w => by
    simp [Dev.readWord, Dev.findUpset, hclean]
  simp [Dev.takeHead, Dev.turn, hhead, hready, hword, hrecord]

theorem Dev.starting_upsets (h : d.starting d1 q op r rest x) : d1.upsets = [] := by
  obtain ⟨⟨_, _, _, _, _, hclean⟩, _, _, rfl, _⟩ := h
  exact hclean

end

/-! ## Counts of a queue's row -/

/-- Taking a head changes, of the registers, only the count of records started. -/
theorem Dev.popHead_regsBut (d : Dev) (q : Nat) : d.regsBut (d.popHead q) [rCqQScnt q] :=
  (d.setWaiting q ((d.waiting q).drop 1)).regsBut_putF (rCqQScnt q) fCqQScnt_Scnt _

theorem Dev.popHead_pstate (d : Dev) (q : QueueId) : (d.popHead q).pstate = d.pstate := by
  have hne : rPwrState ≠ rCqQScnt q := by
    have := q.isLt
    simp only [rPwrState, rCqQScnt]
    omega
  exact Dev.getF_of_regsBut (d.popHead_regsBut q) (by simpa using hne) _

/-! ## A command that ends at its start (R141, R145) -/

/-- Records become ready, behind those that are. -/
def Dev.addReady (d : Dev) (ws : List Ready) : Dev := { d with cq := { d.cq with ready := d.cq.ready ++ ws } }

theorem Dev.addReady_frame (d : Dev) (ws : List Ready) : d.onlyIn (d.addReady ws) [.cq] := by
  intro c hc
  cases c <;> first | rfl | simp at hc

theorem Dev.addReady_regsBut (d : Dev) (ws : List Ready) (rs : List Nat) : d.regsBut (d.addReady ws) rs :=
  Dev.regsBut_of_onlyIn (d.addReady_frame ws) (by decide) rs

/-- Where no flipped bit stands, a record becomes ready, or is suppressed, and nothing else changes. -/
theorem Dev.pushRecord_clean {d : Dev} (h : d.upsets = []) (w : Ready) (suppressed : Bool) :
    d.pushRecord w suppressed = d.addReady (if suppressed then [] else [w]) := by
  cases suppressed
  · cases hg : w.group <;> simp [Dev.pushRecord, Dev.addReady, Dev.dropWords, hg, h]
  · simp [Dev.pushRecord, Dev.addReady]

theorem Dev.refuseStart_eq {d : Dev} (h : d.upsets = []) (x : Cmd) {status : Nat} (hs : status < 256) (handle vaddr detail : Nat) :
    d.refuseStart x status handle vaddr detail
      = (d.addReady (if bitOf x.word 17 = true ∧ status = 0 then [] else [d.startRecord x status handle vaddr detail])).rollF
          (rCqQCcnt x.queue) fCqQCcnt_Ccnt 1 := by
  have hzero : BitVec.ofNat 8 status = 0#8 ↔ status = 0 := by
    rw [← BitVec.toNat_inj, BitVec.toNat_ofNat, Nat.mod_eq_of_lt (by simpa using hs)]
    rfl
  simp [Dev.refuseStart, Dev.finishRecord, Dev.pushRecord_clean h, Dev.startRecord, hzero]

/-- Where no flipped bit stands, a command that ends at its start leaves its record and its count, and nothing else. -/
theorem Dev.refuseStart_endsAtStart {d : Dev} (h : d.upsets = []) (x : Cmd) {status : Nat} (hs : status < 256)
    (handle vaddr detail : Nat) :
    d.endsAtStart (d.refuseStart x status handle vaddr detail) x status handle vaddr detail [] := by
  rw [Dev.refuseStart_eq h x hs]
  refine ⟨rfl, ?_, Dev.regsBut_trans (d.addReady_regsBut _ _) (Dev.regsBut_putF _ _ _ _),
    Dev.onlyIn_trans (Dev.onlyIn_sub _ (d.addReady_frame _) (by decide)) (Dev.onlyIn_sub _ (Dev.putF_frame _ _ _ _) (by decide))⟩
  rw [Dev.rollF, Dev.getF_putF_self _ _ _ _ (by decide), Dev.getF_of_regsBut (d.addReady_regsBut _ []) rfl]
  rfl

theorem Dev.endsAtStart_pstate {d e : Dev} {x : Cmd} {q : QueueId} {status handle vaddr detail : Nat} {more : List Comp}
    (h : d.endsAtStart e x status handle vaddr detail more) (hx : x.queue = q) : e.pstate = d.pstate := by
  obtain ⟨_, _, hregs, _⟩ := h
  have hne : rPwrState ≠ rCqQCcnt x.queue := by
    have := q.isLt
    simp only [rPwrState, rCqQCcnt, hx]
    omega
  exact Dev.getF_of_regsBut hregs (by simpa using hne) _

/-! ## A refusal (R373) -/

theorem lowestCode_le (m : Nat) : lowestCode m ≤ 6 := by
  unfold lowestCode
  cases hfind : (List.range 6).find? (fun i => m.testBit i) with
  | none => simp
  | some i =>
    have hmem : i < 6 := List.mem_range.mp (List.mem_of_find?_eq_some hfind)
    simpa using hmem

/-- The mask has the six bits of Table 13-3. -/
theorem Dev.refusers_lt (d : Dev) : d.refusers < 2 ^ 6 := by
  have hbit (i : Nat) (c : Bool) : (if c then 2 ^ (i - 1) else 0) ≤ 2 ^ (i - 1) := by split <;> simp
  have hsum : d.refusers ≤ 2 ^ (1 - 1) + 2 ^ (2 - 1) + 2 ^ (3 - 1) + 2 ^ (4 - 1) + 2 ^ (5 - 1) + 2 ^ (6 - 1) := by
    unfold Dev.refusers
    dsimp only
    gcongr <;> apply hbit
  omega

/-- A device that meets no refuser is not in WAKE_HELD (Table 13-3). -/
theorem Dev.pstate_ne_five_of_refusers {d : Dev} (h : d.refusers = 0) : d.pstate ≠ 5 := by
  intro hp
  simp [Dev.refusers, hp] at h

/-- The registers that a refusal writes: the count, the refusers with the target, and the SEQ. -/
def Dev.noteRefusal (d : Dev) (mask target seq : Nat) : Dev :=
  ((d.addF rPwrRefuse fPwrRefuse_Cnt 1).setReg rPwrRefuseLast
    (BitVec.ofNat 64 (lowestCode mask + atBit 4 mask + atBit 10 target))).setReg rPwrRefuseSeq (BitVec.ofNat 64 (seq % 2 ^ 32))

theorem Dev.refuse_eq (d : Dev) (mask target seq : Nat) : d.refuse mask target seq = (d.noteRefusal mask target seq).raise pgPwr 4 := rfl

section
variable (d : Dev) (mask target seq : Nat)

theorem Dev.refuse_frame : d.onlyIn (d.refuse mask target seq) [.regs, .hif] := by
  have hnote : d.onlyIn (d.noteRefusal mask target seq) [.regs] :=
    Dev.onlyIn_trans (Dev.onlyIn_trans (d.addF_frame _ _ _) (Dev.setReg_frame _ _ _)) (Dev.setReg_frame _ _ _)
  exact Dev.onlyIn_trans (Dev.onlyIn_sub _ hnote (by decide)) (Dev.raise_frame _ _ _)

theorem Dev.refuse_event : (d.refuse mask target seq).event pgPwr 2 = true :=
  (d.noteRefusal mask target seq).raise_event (i := 2) (by decide) (by decide)

/-- A refusal's event touches none of the registers that keep the refusal. -/
theorem Dev.refuse_reg {a : Nat} (ha : (raiseRegs pgPwr).contains a = false) :
    (d.refuse mask target seq).reg a = (d.noteRefusal mask target seq).reg a := Dev.raise_regsBut _ _ _ a ha

theorem Dev.refuse_pstate : (d.refuse mask target seq).pstate = d.pstate := by
  rw [Dev.pstate, Dev.getF, Dev.refuse_reg _ _ _ _ (by decide), Dev.noteRefusal, Dev.reg_setReg_ne _ _ (by decide),
    Dev.reg_setReg_ne _ _ (by decide), Dev.addF, Dev.reg_putF_ne _ _ _ (by decide)]
  rfl

theorem Dev.refuse_count : (d.refuse mask target seq).getF rPwrRefuse fPwrRefuse_Cnt
    = min (2 ^ 32 - 1) (d.getF rPwrRefuse fPwrRefuse_Cnt + 1) := by
  rw [Dev.getF, Dev.refuse_reg _ _ _ _ (by decide), Dev.noteRefusal, Dev.reg_setReg_ne _ _ (by decide),
    Dev.reg_setReg_ne _ _ (by decide)]
  exact d.getF_addF_one _ _ (by decide)

theorem Dev.refuse_last_reg : (d.refuse mask target seq).reg rPwrRefuseLast
    = BitVec.ofNat 64 (lowestCode mask + atBit 4 mask + atBit 10 target) := by
  rw [Dev.refuse_reg _ _ _ _ (by decide), Dev.noteRefusal, Dev.reg_setReg_ne _ _ (by decide), Dev.reg_setReg_self]

/-- PWR_REFUSE_LAST shows the lowest refuser, the mask and the target, each of which its field can hold. -/
theorem Dev.refuse_last (hmask : mask < 2 ^ 6) (htarget : target < 4) :
    let e := d.refuse mask target seq
    e.getF rPwrRefuseLast fPwrRefuseLast_Refuser = lowestCode mask ∧ e.getF rPwrRefuseLast fPwrRefuseLast_Mask = mask
      ∧ e.getF rPwrRefuseLast fPwrRefuseLast_Target = target := by
  have hlow := lowestCode_le mask
  simp only [Dev.getF, Dev.refuse_last_reg, fld, bitsOf, atBit, fPwrRefuseLast_Refuser, fPwrRefuseLast_Mask, fPwrRefuseLast_Target,
    BitVec.toNat_ofNat, Nat.shiftLeft_eq, Nat.shiftRight_eq_div_pow]
  omega

theorem Dev.refuse_seq (hseq : seq < 2 ^ 32) : (d.refuse mask target seq).getF rPwrRefuseSeq fPwrRefuseSeq_Seq = seq := by
  rw [Dev.getF, Dev.refuse_reg _ _ _ _ (by decide), Dev.noteRefusal, Dev.reg_setReg_self]
  simp only [fld, bitsOf, fPwrRefuseSeq_Seq, BitVec.toNat_ofNat, Nat.shiftRight_zero]
  omega

end

/-! ## A commit (R371) -/

theorem Dev.commitEntry_pstate (d : Dev) (t : Nat) : (d.commitEntry t).pstate = 1 :=
  d.getF_putF_self _ _ _ (by decide)

theorem Dev.commitEntry_frame (d : Dev) (t : Nat) :
    d.regsBut (d.commitEntry t) [rPwrState] ∧ d.onlyIn (d.commitEntry t) [.regs, .pwr] := by
  have hpwr := (d.setPstate 1).onPwr_frame (fun x => { x with entering := some t, wakeWaits := 0 })
  exact ⟨Dev.regsBut_trans (d.regsBut_putF _ _ _) (Dev.regsBut_of_onlyIn hpwr (by decide) _),
    Dev.onlyIn_trans (Dev.onlyIn_sub _ (d.putF_frame _ _ _) (by decide)) (Dev.onlyIn_sub _ hpwr (by decide))⟩

/-! ## The row -/

section
variable {s : State} {q : QueueId}

/-- A POWER_STATE after which the device is not ENTERING leaves the pads alone. -/
theorem exec_powerState_stays (h : (s.dev.powerState q).pstate ≠ 1) :
    exec (.powerState q) s = .next { s with dev := s.dev.powerState q } :=
  congrArg Host.Outcome.next (if_neg fun hc => h hc.2)

/-- A POWER_STATE that takes the device from ACTIVE to ENTERING counts the entry at the pads. -/
theorem exec_powerState_enters {t : Nat} (hactive : s.dev.pstate = 0) (henters : (s.dev.powerState q).pstate = 1)
    (ht : (s.dev.powerState q).pwr.entering = some t) :
    exec (.powerState q) s = .next { s with dev := s.dev.powerState q, pads := s.pads.commit t } := by
  refine congrArg Host.Outcome.next ((if_pos ⟨hactive, henters⟩).trans ?_)
  rw [ht]
  rfl

variable {d1 : Dev} {r : Rec} {rest : List Rec} {x : Cmd}

theorem Dev.powerState_starting (h : s.dev.starting d1 q 0x21 r rest x) : s.dev.powerState q = d1.powerStateRun x :=
  Dev.takeHead_starting h (by decide) _

/-- A POWER_STATE starts in ACTIVE and, as a wake that is held lets it, in WAKE_HELD (log entry 22). -/
theorem Dev.starting_pstate (h : s.dev.starting d1 q 0x21 r rest x) : s.dev.pstate = 0 ∨ s.dev.pstate = 5 := by
  obtain ⟨⟨_, hwait, _⟩, _⟩ := h
  have hstarts := Dev.startsNow_of_waitReasons hwait
  simp only [Dev.startsNow, Bool.or_eq_true, Bool.and_eq_true, beq_iff_eq] at hstarts
  obtain hactive | ⟨⟨_, hheld⟩, _⟩ := hstarts
  · exact .inl hactive
  · exact .inr hheld

/-- A POWER_STATE that ends without a commit, `d2` being the device just before its completion, leaves the pads alone. -/
theorem exec_powerState_ends (h : s.dev.starting d1 q 0x21 r rest x) {d2 : Dev} {status detail : Nat} (hs : status < 256)
    (hclean : d2.upsets = []) (hstate : d2.pstate = d1.pstate) (hrun : d1.powerStateRun x = d2.refuseStart x status 0 0 detail) :
    ∃ e : Dev, exec (.powerState q) s = .next { s with dev := e } ∧ d2.endsAtStart e x status 0 0 detail [] := by
  have hends := Dev.refuseStart_endsAtStart hclean x hs 0 0 detail
  have hmeaning := (Dev.powerState_starting h).trans hrun
  have hlow := Dev.starting_pstate h
  obtain ⟨_, _, _, rfl, rfl⟩ := h
  have hsame : (s.dev.powerState q).pstate = s.dev.pstate := by
    rw [hmeaning, Dev.endsAtStart_pstate hends rfl, hstate, Dev.popHead_pstate]
  refine ⟨_, exec_powerState_stays (by omega), ?_⟩
  rw [hmeaning]
  exact hends

end

/-- Settles O20, by TARGET and refusers: all but a commit only end the command, and a commit starts in ACTIVE, as WAKE_HELD is itself
a refuser. -/
theorem powerStateCommitsOrIsRefused : Obligations.PowerStateCommitsOrIsRefused := by
  unfold Obligations.PowerStateCommitsOrIsRefused
  intro s q r rest d1 x h t m
  have hclean := Dev.starting_upsets h
  have hword : x.word = r := by
    obtain ⟨_, _, _, _, rfl⟩ := h
    rfl
  have hlow (ht : t = 1 ∨ t = 2) : t ≠ 3 ∧ t ≠ 0 := by omega
  refine ⟨fun ht => ?invalid, fun ht => ?active, fun ht hm => ?refused, fun ht hm => ?committed⟩
  case invalid =>
    exact exec_powerState_ends h (by decide) hclean rfl (by simp [Dev.powerStateRun, hword, t, ht])
  case active =>
    exact exec_powerState_ends h (by decide) hclean rfl (by simp [Dev.powerStateRun, hword, t, ht])
  case refused =>
    obtain ⟨h3, h0⟩ := hlow ht
    have hrun : d1.powerStateRun x = (d1.refuse m t (bitsOf r 32 32)).refuseStart x 0x70 0 0 m := by
      simp only [Dev.powerStateRun, hword]
      rw [if_neg h3, if_neg h0, if_pos hm]
    have hframe := d1.refuse_frame m t (bitsOf r 32 32)
    obtain ⟨e, hexec, hends⟩ := exec_powerState_ends h (by decide) ((hframe .upsets (by decide)).trans hclean)
      (d1.refuse_pstate _ _ _) hrun
    obtain ⟨hcode, hmask, htarget⟩ := d1.refuse_last m t (bitsOf r 32 32) d1.refusers_lt (by omega)
    exact ⟨_, e, hexec, hends, d1.refuse_count _ _ _, hcode, hmask, htarget,
      d1.refuse_seq _ _ _ (Nat.mod_lt _ (by decide)), d1.refuse_event _ _ _, hframe⟩
  case committed =>
    obtain ⟨h3, h0⟩ := hlow ht
    have hmeaning : s.dev.powerState q = (d1.refuseStart x 0 0 0 0).commitEntry t := by
      rw [Dev.powerState_starting h]
      simp only [Dev.powerStateRun, hword]
      rw [if_neg h3, if_neg h0, if_neg (not_not.mpr hm)]
    have hactive : s.dev.pstate = 0 := by
      refine (Dev.starting_pstate h).resolve_right fun hheld => Dev.pstate_ne_five_of_refusers hm ?_
      obtain ⟨_, _, _, rfl, _⟩ := h
      exact (s.dev.popHead_pstate q).trans hheld
    have hstate : (s.dev.powerState q).pstate = 1 := hmeaning ▸ Dev.commitEntry_pstate _ t
    have hentering : (s.dev.powerState q).pwr.entering = some t := by
      rw [hmeaning]
      rfl
    obtain ⟨hregs, honly⟩ := (d1.refuseStart x 0 0 0 0).commitEntry_frame t
    refine ⟨_, _, Dev.refuseStart_endsAtStart hclean x (by decide) 0 0 0,
      exec_powerState_enters hactive hstate hentering, hstate, hentering, ?_, ?_⟩
    · rw [hmeaning]
      exact hregs
    · rw [hmeaning]
      exact honly

end Sys2Proof.Machine
end

section
/-! # Pad accounting (PadAccountingBalances)

The statement quantifies over every state, also over those that no run reaches. -/

namespace Sys2Proof.Machine

/-- A hung suspect whose context number lies far outside the 16 contexts of a partition: its SECT_CTX_CFG falls on PWR_STATE. -/
def strayedSuspect : Suspect :=
  { ctx := (rPwrState - rSectCtxCfg 0 0) / 0x10, queue := 0, serving := false, opcode := 0, seq := 0, engine := ⟨.tile, 0⟩, outcome := 2,
    status := 0, hung := [], cmd := none }

/-- A device in FALLOW whose pads are held, with a reset of partition 5 in its records phase and that suspect to judge. -/
def strayedReset : State :=
  { pending := [.resetRetrainDone 5 []], pads := { fallow := 1, held := true }
    dev := { regs := [(rPwrState, 3)], parts := [(5, { phase := .records, suspects := [strayedSuspect], replayed := 1 })] } }

theorem strayedReset_padsKept : strayedReset.padsKept :=
  ⟨by unfold State.padsBalance; decide +kernel, fun _ => .inr (.inl (by decide +kernel))⟩

/-- The judgement of R357 clears EN of the suspect's context, which here is bit 0 of PWR_STATE. -/
theorem strayedReset_pstate : (strayedReset.dev.phaseFourEnds 5 []).pstate = 2 := by
  decide +kernel

/-- Refutes O58: the model bounds no context number that a suspect holds, and `padsKept` says nothing of it. From a device in FALLOW
whose one hung suspect names context 0xBFEC4, RESET_RETRAIN_DONE judges it, clears bit 0 of the address of its SECT_CTX_CFG, which is
PWR_STATE, and leaves the held pads in state 2. -/
theorem not_padAccountingBalances : ¬ Obligations.PadAccountingBalances := by
  unfold Obligations.PadAccountingBalances
  intro h
  obtain ⟨-, held⟩ := h strayedReset (({ strayedReset with pending := [] } : State).onDev fun d => d.phaseFourEnds 5 [])
    strayedReset_padsKept rfl
  have hp : (strayedReset.dev.phaseFourEnds 5 []).pstate = 2 := strayedReset_pstate
  have hs := held rfl
  simp only [State.onDev] at hs
  have hd : ({ strayedReset with pending := [] } : State).dev = strayedReset.dev := rfl
  rw [hd, hp] at hs
  omega

end Sys2Proof.Machine
end

section
/-! # What every operation keeps of the memories

Each operation of the machine keeps every memory in canonical form. Only a few write a memory; an operation that writes none keeps
`Dev.memWf` by definition, and every other by the operations it is made of. The lemma about an operation has its name, in the order
of the definitions, so that a proof spells the calls in the operation. -/

namespace Sys2Proof.Machine
namespace Dev.memWf
variable {d e : Dev}

/-! ### Registers, fields and messages -/

theorem setReg (h : d.memWf) {a : Nat} {v : W64} : (d.setReg a v).memWf := h

theorem modReg (h : d.memWf) {a : Nat} {f : W64 → W64} : (d.modReg a f).memWf := h

theorem putF (h : d.memWf) {a : Nat} {f : Fld} {x : Nat} : (d.putF a f x).memWf := h

theorem addF (h : d.memWf) {a : Nat} {f : Fld} {x : Nat} : (d.addF a f x).memWf := h

theorem rollF (h : d.memWf) {a : Nat} {f : Fld} {x : Nat} : (d.rollF a f x).memWf := h

theorem resetRegs (h : d.memWf) {lo hi : Nat} : (d.resetRegs lo hi).memWf := h

theorem blkErr (h : d.memWf) {page : Nat} : (d.blkErr page).memWf := h

theorem sendOut (h : d.memWf) {o : HostOut} : (d.sendOut o).memWf := h

theorem setStk (h : d.memWf) {m : Memory} (hm : m.wf = true) : Dev.memWf { d with stk := m } := ⟨hm, h.2⟩

theorem setSram (h : d.memWf) {m : Memory} (hm : m.wf = true) : Dev.memWf { d with sram := m } :=
  ⟨h.1, h.2.1, hm, h.2.2.2⟩

theorem setSlots (h : d.memWf) {m : Memory} (hm : m.wf = true) : Dev.memWf { d with slots := m } :=
  ⟨h.1, h.2.1, h.2.2.1, hm, h.2.2.2.2⟩

theorem setHost (h : d.memWf) {m : Memory} (hm : m.wf = true) : Dev.memWf { d with host := m } :=
  ⟨h.1, h.2.1, h.2.2.1, h.2.2.2.1, hm⟩

/-- On-die memories as after a loss of power. -/
theorem lost (h : d.memWf) : Dev.memWf { d with tram := {}, sram := {}, slots := {} } := ⟨h.1, rfl, rfl, rfl, h.2.2.2.2⟩

/-- All memories of the device as after a loss of power. -/
theorem cleared (h : d.memWf) : Dev.memWf { d with stk := {}, tram := {}, sram := {}, slots := {} } :=
  ⟨rfl, rfl, rfl, rfl, h.2.2.2.2⟩

theorem ite {c : Prop} [Decidable c] (hd : d.memWf) (he : e.memWf) : (if c then d else e).memWf := by
  split
  · exact hd
  · exact he

theorem ite1 {α : Type} {x y : Dev × α} {c : Prop} [Decidable c] (hx : x.1.memWf) (hy : y.1.memWf) :
    (if c then x else y).1.memWf := by
  split
  · exact hx
  · exact hy

theorem upd (h : d.memWf) {time : Nat} {regs : Tab W64} {latched heldLow : Tab (Nat × Nat)} {cq : Cq} {tiles : Tab Tile}
    {henOps : List HenOp} {nextHenOp : Nat} {cs : Tab Stack} {sect : Tab Sector} {parts : Tab Part} {layoutOn : List Nat} {srv : Srv}
    {fab : Fab} {pwr : Pwr} {thm : Thm} {ras : Ras} {gan : Gander} {hif : Hif} {upsets : List Upset} {free : Nat} :
    Dev.memWf { d with
      time := time, regs := regs, latched := latched, heldLow := heldLow, cq := cq, tiles := tiles, henOps := henOps
      nextHenOp := nextHenOp, cs := cs, sect := sect, parts := parts, layoutOn := layoutOn, srv := srv, fab := fab, pwr := pwr
      thm := thm, ras := ras, gan := gan, hif := hif, upsets := upsets, free := free } := h

theorem fst {α : Type} {x : Dev × α} {r : α} (hx : x = (d, r)) (h : x.1.memWf) : d.memWf := by
  subst hx
  exact h

theorem foldl {α : Type} {f : Dev → α → Dev} {l : List α} (h : d.memWf) (hf : ∀ d a, d.memWf → (f d a).memWf) :
    (l.foldl f d).memWf := Dev.memWf_foldl f hf l d h

theorem foldl1 {α β : Type} {f : Dev × β → α → Dev × β} {l : List α} {x : Dev × β} (h : x.1.memWf)
    (hf : ∀ x a, x.1.memWf → (f x a).1.memWf) : (l.foldl f x).1.memWf := Dev.memWf_foldl_fst f hf l x h

theorem sendMsg (h : d.memWf) {fv : Nat × Nat} : (d.sendMsg fv).memWf := by
  unfold Dev.sendMsg
  exact .ite h (.ite (.upd h) (.ite (.modReg (.addF h)) (.sendOut h)))

theorem signal (h : e.memWf) : (Dev.signal d e).memWf := h.foldl fun _ _ h => h.sendMsg

theorem raise (h : d.memWf) {page bits : Nat} : (d.raise page bits).memWf := signal (modReg h)

/-! ### Bytes, granules, flipped bits and windows -/

theorem txDrop (hd : d.memWf) : d.txDrop.memWf := .raise (.addF hd)

theorem log (hd : d.memWf) {typ : Nat} {payload : List Nat} : (d.log typ payload).memWf :=
  .ite hd (.ite (.raise (.addF hd)) (.upd hd))

theorem setUnit (hd : d.memWf) {u : UnitId} {x : UnitSt} : (d.setUnit u x).memWf := hd

theorem takeOut (hd : d.memWf) {u : UnitId} {reason : Nat} : (d.takeOut u reason).memWf := .ite hd (.raise (.setUnit hd))

theorem modStack (hd : d.memWf) {n : Nat} {f : Stack → Stack} : (d.modStack n f).memWf := hd

theorem dropUpset (hd : d.memWf) {arr : SramArray} {u w : Nat} : (d.dropUpset arr u w).memWf := hd

theorem checkBitmap (hd : d.memWf) {g src : Nat} : (d.checkBitmap g src).memWf := (d.checkBitmap_frame g src).2 hd

theorem readGran (hd : d.memWf) {src g : Nat} : (d.readGran src g).1.memWf := (d.readGran_frame src g).2 hd

theorem readStk (hd : d.memWf) {src a n : Nat} : (d.readStk src a n).1.memWf := .foldl1 hd (fun _ _ h2 => .readGran h2)

theorem writeGran (hd : d.memWf) {a : Nat} {bs : List Byte} {poison : Bool} : (d.writeGran a bs poison).memWf :=
  (d.writeGran_frame a bs poison).2 hd

theorem writeStk (hd : d.memWf) {a : Nat} {bs : List Byte} {poison : Bool} : (d.writeStk a bs poison).memWf :=
  .foldl hd (fun _ _ h2 => .writeGran h2)

theorem readWord (hd : d.memWf) {arr : SramArray} {u w : Nat} : (d.readWord arr u w).1.memWf := by
  unfold Dev.readWord
  split
  · exact hd
  · exact .ite1 (.log (.raise (.addF (.ite hd (.dropUpset hd))))) (.addF (.ite hd (.dropUpset hd)))

theorem readWords (hd : d.memWf) {arr : SramArray} {u : Nat} {ws : List Nat} : (d.readWords arr u ws).1.memWf :=
  .ite1 hd (.foldl1 hd (fun _ _ h2 => .readWord h2))

theorem dropUnit (hd : d.memWf) {arr : SramArray} {u : Nat} : (d.dropUnit arr u).memWf := hd

theorem dropWords (hd : d.memWf) {arr : SramArray} {u : Nat} {ws : List Nat} : (d.dropWords arr u ws).memWf :=
  .ite hd (.foldl hd (fun _ _ h2 => .dropUpset h2))

theorem readSramGran (hd : d.memWf) {tile : Bool} {base u off : Nat} : (d.readSramGran tile base u off).1.memWf :=
  (d.readSramGran_frame tile base u off).2 hd

theorem setQueued (hd : d.memWf) {n p : Nat} {q : List Access} : (d.setQueued n p q).memWf := hd

theorem serve (hd : d.memWf) {a : Access} : (d.serve a).memWf := by
  unfold Dev.serve
  exact .ite ((by
    dsimp only
    split
    · exact .blkErr hd
    · exact .sendOut (.blkErr hd))) ((by
    split
    · exact .writeStk hd
    · exact .sendOut (.ite (.readStk hd) (.addF (.readStk hd)))))

theorem noteWait (hd : d.memWf) {n w : Nat} : (d.noteWait n w).memWf := hd

theorem inWindow (hd : d.memWf) {l : Nat} : (d.inWindow l).memWf :=
.ite hd (.ite (.noteWait (.foldl (.addF (.setQueued hd)) (fun _ _ h3 => .serve (.noteWait h3)))) (.foldl (.addF (.setQueued hd))
    (fun _ _ h3 => .serve (.noteWait h3))))

theorem readHomeGran (hd : d.memWf) {src g : Nat} : (d.readHomeGran src g).1.memWf :=
  .ite1 (.readGran (.inWindow hd)) (.ite1 (.readSramGran hd) (.ite1 (.readSramGran hd) (.ite1 hd hd)))

theorem readBy (hd : d.memWf) {k src a n : Nat} : (d.readBy k src a n).1.memWf := .foldl1 hd (fun _ _ h2 => .readHomeGran h2)

theorem modCmd (hd : d.memWf) {c : Nat} {f : Cmd → Cmd} : (d.modCmd c f).memWf := hd

theorem failCmd (hd : d.memWf) {c status handle vaddr : Nat} : (d.failCmd c status handle vaddr).memWf := hd

theorem notePoison (hd : d.memWf) {c : Option Nat} : (d.notePoison c).memWf := by
  unfold Dev.notePoison
  split
  · exact hd
  · exact .modCmd hd

theorem writeHome (hd : d.memWf) {w : PWrite} : (d.writeHome w).memWf := (d.writeHome_frame w).2 hd

theorem modSect (hd : d.memWf) {k : Nat} {f : Sector → Sector} : (d.modSect k f).memWf := hd

theorem writeBy (hd : d.memWf) {k : Nat} {w : PWrite} : (d.writeBy k w).memWf :=
  .ite (.writeHome hd) (.modSect (.ite (.notePoison hd) hd))

theorem drainOne (hd : d.memWf) {k g : Nat} : (d.drainOne k g).memWf := by
  unfold Dev.drainOne
  split
  · exact hd
  · exact .writeHome (.modSect hd)

theorem drainAll (hd : d.memWf) {k : Nat} : (d.drainAll k).memWf := .foldl (.modSect hd) (fun _ _ h2 => .writeHome h2)

/-! ### Translation -/

theorem readPte (hd : d.memWf) {eng : Engine} {a : Nat} : (d.readPte eng a).1.memWf :=
  .ite1 hd (.ite1 (.readBy hd) (.readBy hd))

theorem walk (hd : d.memWf) {eng : Engine} {va : Nat} : (d.walk eng va).1.memWf := by
  unfold Dev.walk
  dsimp only
  split
  next he => exact fst he (.readPte hd)
  next he =>
    have h1 := fst he (.readPte hd)
    exact .ite1 h1 ((by
      split
      next he => exact fst he (.readPte h1)
      next he =>
        have h2 := fst he (.readPte h1)
        exact .ite1 h2 (.ite1 h2 ((by
          split
          next he => exact fst he (.readPte h2)
          next he =>
            have h3 := fst he (.readPte h2)
            exact .ite1 h3 h3)))))

theorem readPlist (hd : d.memWf) {p list i : Nat} : (d.readPlist p list i).1.memWf := by
  unfold Dev.readPlist
  dsimp only
  split
  next he => exact fst he (.walk hd)
  next he =>
    have h1 := fst he (.walk hd)
    split
    · exact h1
    · exact .ite1 (.readBy h1) (.readBy h1)

theorem kvResolve (hd : d.memWf) {p i off : Nat} {write : Bool} : (d.kvResolve p i off write).1.memWf := by
  unfold Dev.kvResolve
  exact .ite1 hd ((by
    split
    next he => exact fst he (.readPlist hd)
    next he =>
      have h1 := fst he (.readPlist hd)
      exact .ite1 h1 (.ite1 h1 h1)))

theorem kvAddr (hd : d.memWf) {p va : Nat} {write : Bool} : (d.kvAddr p va write).1.memWf := by
  unfold Dev.kvAddr
  split
  · exact hd
  · exact .kvResolve hd

theorem xlatePage (hd : d.memWf) {eng : Engine} {pkey va : Nat} {write : Bool} : (d.xlatePage eng pkey va write).1.memWf := by
  unfold Dev.xlatePage
  split
  next he => exact fst he (.walk hd)
  next he =>
    have h1 := fst he (.walk hd)
    split
    · exact h1
    · exact .ite1 h1 (.ite1 h1 h1)

theorem xlate (hd : d.memWf) {eng : Engine} {pkey va : Nat} {write : Bool} : (d.xlate eng pkey va write).1.memWf := by
  unfold Dev.xlate
  split
  next he => exact fst he (.kvAddr hd)
  next he =>
    have h1 := fst he (.kvAddr hd)
    exact .xlatePage h1

theorem readVa (hd : d.memWf) {eng : Engine} {pkey va n : Nat} : (d.readVa eng pkey va n).1.memWf := by
  unfold Dev.readVa
  exact .foldl1 hd (fun _ _ h2 => (by
    split
    · exact h2
    · split
      next he => exact fst he (.xlate h2)
      next he =>
        have h1 := fst he (.xlate h2)
        exact .ite1 (.readBy h1) (.readBy h1)))

theorem writeVa (hd : d.memWf) {eng : Engine} {pkey va : Nat} {bs : List Byte} {w : PWrite} :
    (d.writeVa eng pkey va bs w).1.memWf := by
  unfold Dev.writeVa
  exact .foldl1 hd (fun _ _ h2 => (by
    split
    · exact h2
    · split
      next he => exact fst he (.xlate h2)
      next he =>
        have h1 := fst he (.xlate h2)
        exact .writeBy h1))

/-! ### The serving engine's books -/

theorem onSrv (hd : d.memWf) {f : Srv → Srv} : (d.onSrv f).memWf := hd

theorem modEntry (hd : d.memWf) {k : Nat} {f : Entry → Entry} : (d.modEntry k f).memWf := hd

theorem enterSlotState (hd : d.memWf) {s st : Nat} : (d.enterSlotState s st).memWf :=
  .ite (.raise (.putF hd)) (.ite (.raise (.putF hd)) (.putF hd))

theorem freePages (hd : d.memWf) {p : Nat} {ps : List Nat} : (d.freePages p ps).memWf := hd

theorem dropNode (hd : d.memWf) {k n : Nat} : (Dev.dropNode k d n).memWf := by
  induction k generalizing d n with
  | zero => exact hd
  | succ k ih =>
    unfold Dev.dropNode
    split
    · exact hd
    · dsimp only
      split
      · exact .freePages (.onSrv hd)
      · split
        · exact .freePages (.onSrv hd)
        · exact .ite (ih (.addF (.onSrv (.freePages (.onSrv hd))))) (.onSrv (.freePages (.onSrv hd)))

theorem evictNode (hd : d.memWf) {n : Nat} : (d.evictNode n).memWf := by
  unfold Dev.evictNode
  split
  · exact hd
  · exact .dropNode (.addF hd)

theorem unrefNode (hd : d.memWf) {n : Nat} : (d.unrefNode n).memWf := by
  unfold Dev.unrefNode
  split
  · exact hd
  · exact .ite (.evictNode (.onSrv hd)) (.onSrv hd)

theorem discardNodes (hd : d.memWf) {who : Node → Bool} : (d.discardNodes who).memWf :=
  .foldl (.onSrv hd) (fun _ _ h3 => .freePages h3)

theorem flushTree (hd : d.memWf) {k p : Nat} : (Dev.flushTree k d p).memWf := by
  induction k generalizing d with
  | zero => exact hd
  | succ k ih =>
    unfold Dev.flushTree
    split
    · exact hd
    · exact ih (.evictNode hd)

theorem setVersion (hd : d.memWf) {v : Nat} {x : Version} : (d.setVersion v x).memWf := hd

theorem freeVersion (hd : d.memWf) {v : Nat} : (d.freeVersion v).memWf :=
  .discardNodes (.ite (.onSrv (.setVersion hd)) (.setVersion hd))

theorem unrefVersion (hd : d.memWf) {v : Nat} : (d.unrefVersion v).memWf :=
  .ite (.freeVersion (.setVersion hd)) (.setVersion hd)

theorem releasePf (hd : d.memWf) {k : Nat} : (d.releasePf k).memWf := .ite hd (.modEntry (.setReg hd))

theorem creditPool (hd : d.memWf) {p n : Nat} : (d.creditPool p n).memWf := hd

theorem releaseCharges (hd : d.memWf) {k : Nat} : (d.releaseCharges k).memWf :=
  .ite hd (.foldl (.freePages (.creditPool (.putF (.modEntry (.releasePf hd))))) (fun _ _ h5 => .unrefNode h5))

theorem enterEvicting (hd : d.memWf) {s : Nat} : (d.enterEvicting s).memWf := .discardNodes (.enterSlotState hd)

theorem freeEntry (hd : d.memWf) {k : Nat} : (d.freeEntry k).memWf :=
.ite hd (.ite (.enterEvicting (.onSrv (.ite (.unrefVersion (.releaseCharges hd)) (.releaseCharges hd)))) (.onSrv (.ite
    (.unrefVersion (.releaseCharges hd)) (.releaseCharges hd))))

theorem judge (hd : d.memWf) {k : Nat} {t : TokenOut} {held : Bool} : (d.judge k t held).1.memWf :=
  .ite1 (.raise (.putF (.addF (.modEntry (.ite (.releasePf hd) hd))))) (.modEntry (.ite (.releasePf hd) hd))

theorem closeWith (hd : d.memWf) {k status cause : Nat} : (d.closeWith k status cause).memWf := hd

theorem abortEntry (hd : d.memWf) {k cause : Nat} : (d.abortEntry k cause).memWf :=
  .ite hd (.raise (.closeWith (.modEntry (.addF hd))))

theorem abortAll (hd : d.memWf) {p cause : Nat} : (d.abortAll p cause).memWf :=
  .onSrv (.foldl (.foldl hd (fun _ _ h2 => .abortEntry h2)) (fun _ _ h3 => .releaseCharges h3))

theorem cancelEntry (hd : d.memWf) {k : Nat} : (d.cancelEntry k).memWf := .ite hd (.ite (.closeWith hd) (.modEntry hd))

theorem cancelOwned (hd : d.memWf) {v : Nat} : (d.cancelOwned v).memWf := .foldl hd (fun _ _ h2 => .cancelEntry h2)

theorem noteCause (hd : d.memWf) {p cause : Nat} : (d.noteCause p cause).memWf := hd

theorem handedOver (hd : d.memWf) {k : Nat} : (d.handedOver k).memWf :=
  .ite (.closeWith (.ite (.modEntry hd) (.ite (.modEntry hd) hd))) (.ite (.modEntry hd) (.ite (.modEntry hd) hd))

theorem enterHeld (hd : d.memWf) {k : Nat} : (d.enterHeld k).memWf := .ite (.modEntry hd) hd

theorem afterRecord (hd : d.memWf) {x : Ready} : (d.afterRecord x).memWf := by
  unfold Dev.afterRecord
  split
  · exact hd
  · exact .ite (.freeEntry hd) (.ite (.modEntry hd) hd)

theorem discardRecords (hd : d.memWf) {who : Ready → Bool} : (d.discardRecords who).memWf :=
  .foldl (.upd hd) (fun _ _ h3 => .afterRecord h3)

theorem loadEnded (hd : d.memWf) {x : Cmd} : (d.loadEnded x).memWf := .ite (.enterSlotState hd) (.ite (.freeVersion hd) hd)

theorem answersNone (hd : d.memWf) {v : Nat} : (d.answersNone v).memWf := hd

theorem dropServing (hd : d.memWf) : d.dropServing.memWf := hd

/-! ### Completion rings -/

theorem ringErr (hd : d.memWf) {r : Nat} : (d.ringErr r).memWf := .raise (.addF hd)

theorem ringSignal (hd : d.memWf) {r : Nat} : (d.ringSignal r).memWf := .upd (.sendMsg hd)

theorem moderate (hd : d.memWf) {r : Nat} {irqNow notOk : Bool} : (d.moderate r irqNow notOk).memWf :=
  .ite (.ringSignal (.upd hd)) (.upd hd)

theorem ringPut (hd : d.memWf) {x : Ready} : (d.ringPut x).memWf :=
.ite (.ringErr hd) (.ite (.rollF (.ringErr (.txDrop hd))) (.moderate (.rollF (.sendOut (.setHost hd (Memory.wf_putBytes
    hd.2.2.2.2 _ _))))))

theorem entryWord (hd : d.memWf) {x : Ready} : (d.entryWord x).1.memWf := by
  unfold Dev.entryWord
  split
  · split
    · exact .judge hd
    · exact hd
  · exact .ite1 (.readWord hd) (.readWord hd)

theorem putRecord (hd : d.memWf) {x : Ready} : (d.putRecord x).memWf := by
  have h1 : (d.entryWord x).1.memWf := .entryWord hd
  unfold Dev.putRecord
  generalize d.entryWord x = y at h1
  obtain ⟨d', y⟩ := y
  dsimp only
  split
  · exact .afterRecord (.ringPut (.handedOver (.upd h1)))
  · exact .afterRecord (.ringPut (.upd h1))

theorem issueRecord (hd : d.memWf) {x : Ready} : (d.issueRecord x).memWf := by
  unfold Dev.issueRecord
  exact .ite ((by
    dsimp only
    split
    · exact .upd hd
    · exact .enterHeld (.upd hd))) (.putRecord hd)

theorem writeHeld (hd : d.memWf) {k r : Nat} : (Dev.writeHeld k d r).memWf := by
  induction k generalizing d with
  | zero => exact hd
  | succ k ih =>
    unfold Dev.writeHeld
    split
    · exact hd
    · exact .ite hd (ih (.putRecord hd))

theorem flushHeld (hd : d.memWf) {r : Nat} : (d.flushHeld r).memWf := .writeHeld hd

theorem pushRecord (hd : d.memWf) {x : Ready} {suppressed : Bool} : (d.pushRecord x suppressed).memWf := by
  unfold Dev.pushRecord
  exact .ite hd (.upd ((by
    split
    · exact hd
    · exact .dropWords hd)))

theorem finishRecord (hd : d.memWf) {q part : Nat} {recd : Rec} {status aflags : Byte} {handle vaddr detail : Nat} :
    (d.finishRecord q part recd status aflags handle vaddr detail).memWf :=
  .rollF (.pushRecord hd)

theorem completionRecordWrite (hd : d.memWf) {r : Nat} : (d.completionRecordWrite r).memWf := by
  unfold Dev.completionRecordWrite
  split
  · exact hd
  · exact .issueRecord hd

theorem moderationTimer (hd : d.memWf) {r : Nat} : (d.moderationTimer r).memWf := by
  unfold Dev.moderationTimer
  dsimp only
  split
  · exact hd
  · exact .ite (.ringSignal hd) hd

/-! ### Started commands -/

theorem enqueue (hd : d.memWf) {q : Nat} {r : Rec} : (d.enqueue q r).memWf := hd

theorem popHead (hd : d.memWf) {q : Nat} : (d.popHead q).memWf := hd

theorem dropHeadReads (hd : d.memWf) {q : Nat} : (d.dropHeadReads q).memWf := hd

theorem flushQueue (hd : d.memWf) {q : Nat} : (d.flushQueue q).memWf := hd

theorem modTile (hd : d.memWf) {t : Nat} {f : Tile → Tile} : (d.modTile t f).memWf := hd

theorem freeTiles (hd : d.memWf) {c : Nat} : (d.freeTiles c).memWf := hd

theorem dropCmd (hd : d.memWf) {c : Nat} : (d.dropCmd c).memWf := hd

theorem dropHenOps (hd : d.memWf) {c : Nat} : (d.dropHenOps c).memWf := hd

theorem dropReads (hd : d.memWf) {c : Nat} : (d.dropReads c).memWf := hd

theorem endCmd (hd : d.memWf) {x : Cmd} : (d.endCmd x).memWf :=
.ite (.loadEnded (.dropCmd (.dropHenOps (.freeTiles (.dropReads hd))))) (.finishRecord (.loadEnded (.dropCmd (.dropHenOps
    (.freeTiles (.dropReads hd))))))

theorem endCmdWith (hd : d.memWf) {x : Cmd} {status detail : Nat} : (d.endCmdWith x status detail).memWf := .endCmd hd

theorem leaveSectors (hd : d.memWf) {x : Cmd} : (d.leaveSectors x).memWf := .foldl hd (fun _ _ h2 => .modSect h2)

theorem abandon (hd : d.memWf) {c : Nat} : (d.abandon c).memWf := hd

/-! ### Elements read and written -/

theorem stepGran {r : StepRead} (hr : r.dev.memWf) {e : Engine} {g : Nat} : (r.gran e g).1.dev.memWf := by
  unfold StepRead.gran
  split
  · exact hr
  · exact .readBy hr

theorem stepBytes {r : StepRead} (hr : r.dev.memWf) {e : Engine} {a n : Nat} : (r.bytes e a n).1.dev.memWf := by
  unfold StepRead.bytes
  exact List.foldlRecOn (motive := fun x : StepRead × List Byte × Nat => x.1.dev.memWf) _ _ hr
    fun x hx g _ => .stepGran hx

theorem stepListEntry {r : StepRead} (hr : r.dev.memWf) {rc : Reach} {h n : Nat} : (r.listEntry rc h n).1.dev.memWf := by
  unfold StepRead.listEntry
  dsimp only
  split
  next he => exact fst he (.xlate hr)
  next he =>
    have h1 := fst he (.xlate hr)
    split
    · exact stepBytes (r := { r with dev := _ }) h1
    · exact stepBytes (r := { r with dev := _ }) h1

/-- Finding where coordinates lie keeps what reading a list entry keeps. -/
theorem placeBy {α : Type} {p : α → Prop} {entry : α → Nat → α × Except Fail Nat} (he : ∀ a i, p a → p (entry a i).1) {a : α}
    (ha : p a) {rc : Reach} {h : Nat} {cs : List Int} {write : Bool} : p (Reach.placeBy entry a rc h cs write).1 := by
  unfold Reach.placeBy
  dsimp only
  split
  · exact ha
  · split
    · exact ha
    next i _ =>
      have hi := he a i ha
      split
      next hq => rwa [hq] at hi
      next hq =>
        rw [hq] at hi
        split
        · exact hi
        · split <;> exact hi

theorem stepPlace {r : StepRead} (hr : r.dev.memWf) {rc : Reach} {h : Nat} {cs : List Int} : (r.place rc h cs).1.dev.memWf :=
  placeBy (p := fun r : StepRead => r.dev.memWf) (fun _ _ hr => .stepListEntry hr) hr

theorem place (hd : d.memWf) {rc : Reach} {h : Nat} {cs : List Int} {write : Bool} : (d.place rc h cs write).1.memWf := by
  unfold Dev.place
  refine placeBy (p := Dev.memWf) (fun d i hd => ?_) hd
  split
  · exact hd
  · exact .stepListEntry hd

theorem locOf (hd : d.memWf) {rc : Reach} {h va : Nat} {write inTile : Bool} : (d.locOf rc h va write inTile).1.memWf := by
  unfold Dev.locOf
  split
  next he => exact fst he (.xlate hd)
  next he =>
    have h1 := fst he (.xlate hd)
    exact .ite1 h1 h1

theorem stepScale {r : StepRead} (hr : r.dev.memWf) {rc : Reach} {x : Desc} {cs : List Int} {inTile : Bool} :
    (r.scale rc x cs inTile).1.dev.memWf := by
  unfold StepRead.scale
  dsimp only
  split
  next he => exact fst he (.locOf hr)
  next he => exact stepBytes (r := { r with dev := _ }) (fst he (.locOf hr))

theorem stepAt {r : StepRead} (hr : r.dev.memWf) {rc : Reach} {h : Nat} {cs : List Int} {inTile : Bool} :
    (r.at_ rc h cs inTile).1.dev.memWf := by
  unfold StepRead.at_
  dsimp only
  split
  next he => exact fst he (.locOf hr)
  next he => exact stepBytes (r := { r with dev := _ }) (fst he (.locOf hr))

/-- What a step's reading of an element does first, it does to the device of `r`. -/
theorem ofStep {α : Type} {x : StepRead × α} {r : StepRead} {y : α} (hx : x = (r, y)) (h : x.1.dev.memWf) : r.dev.memWf := by
  subst hx
  exact h

theorem stepElem {r : StepRead} (hr : r.dev.memWf) {rc : Reach} {h : Nat} {cs : List Int} {inTile scales : Bool} :
    (r.elem rc h cs inTile scales).1.dev.memWf := by
  unfold StepRead.elem
  dsimp only
  split
  next he => exact ofStep he (.stepPlace hr)
  next he => exact ofStep he (.stepPlace hr)
  next he => exact ofStep he (.stepPlace hr)
  next he =>
    have h1 := ofStep he (.stepPlace hr)
    split
    · split
      next hs => exact ofStep hs (.stepScale h1)
      next hs => exact ofStep hs (.stepScale h1)
    · exact h1
  next he =>
    have h1 := ofStep he (.stepPlace hr)
    split
    next ha => exact ofStep ha (.stepAt h1)
    next ha =>
      have h2 := ofStep ha (.stepAt h1)
      split
      · split
        next hs => exact ofStep hs (.stepScale h2)
        next hs => exact ofStep hs (.stepScale h2)
      · exact h2

theorem stepElems {r : StepRead} (hr : r.dev.memWf) {rc : Reach} {h : Nat} {inTile scales : Bool} {cs : List (List Int)} :
    (StepRead.elems rc h inTile scales r cs).1.dev.memWf := by
  induction cs generalizing r with
  | nil => exact hr
  | cons c cs ih =>
    unfold StepRead.elems
    split
    next he => exact ofStep he (.stepElem hr)
    next he => exact ih (ofStep he (.stepElem hr))

theorem readElems (hd : d.memWf) {rc : Reach} {h : Nat} {inTile scales : Bool} {cs : List (List Int)} :
    (Dev.readElems rc h inTile scales d cs).1.memWf := by
  unfold Dev.readElems
  split
  next he => exact ofStep he (.stepElems hd)
  next he => exact ofStep he (.stepElems hd)

theorem placeItem (hd : d.memWf) {rc : Reach} {h : Nat} {inTile : Bool} {it : Item} : (d.placeItem rc h inTile it).1.memWf := by
  unfold Dev.placeItem
  dsimp only
  split
  next he => exact fst he (.place hd)
  next he => exact fst he (.place hd)
  next he => exact fst he (.place hd)
  next he => exact fst he (.place hd)
  next he =>
    have h1 := fst he (.place hd)
    exact .ite1 h1 ((by
      split
      next he => exact fst he (.locOf h1)
      next he =>
        have h2 := fst he (.locOf h1)
        exact .ite1 h2 ((by
          split
          next he => exact fst he (.locOf h2)
          next he => exact fst he (.locOf h2)))))

theorem placeItems (hd : d.memWf) {rc : Reach} {h : Nat} {inTile : Bool} {its : List Item} :
    (Dev.placeItems rc h inTile d its).1.memWf := by
  induction its generalizing d with
  | nil => exact hd
  | cons it its ih =>
    unfold Dev.placeItems
    split
    next he => exact fst he (.placeItem hd)
    next he => exact ih (fst he (.placeItem hd))
    next he => exact ih (fst he (.placeItem hd))

theorem addFlags (hd : d.memWf) {c : Nat} {f : Byte} : (d.addFlags c f).memWf := hd

theorem writeAll (hd : d.memWf) {k : Nat} {keep : Keep} {ws : List PWrite} : (d.writeAll k keep ws).memWf :=
  .foldl hd (fun _ _ h2 => .writeBy h2)

theorem settleGran (hd : d.memWf) {g : Nat} : (d.settleGran g).memWf :=
  .foldl hd (fun _ _ h2 => .foldl (.modSect h2) (fun _ _ h3 => .writeHome h3))

theorem saveOld (hd : d.memWf) {c : Nat} {z : SerialWrite} : (d.saveOld c z).memWf := by
  unfold Dev.saveOld
  split
  · exact hd
  · exact .ite hd (.modCmd (.readBy hd))

theorem serialise (hd : d.memWf) {w : Writer} {h : Nat} {keep : Keep} {zs : List SerialWrite} :
    (d.serialise w h keep zs).memWf := by
  unfold Dev.serialise
  dsimp only
  split
  · exact .modCmd (.foldl (.foldl hd (fun _ _ h2 => .settleGran h2)) (fun _ _ h3 => .saveOld h3))
  · exact .writeAll (.modCmd (.foldl (.foldl hd (fun _ _ h2 => .settleGran h2)) (fun _ _ h3 => .saveOld h3)))

theorem storePlain (hd : d.memWf) {w : Writer} {rc : Reach} {h : Nat} {sat : Option Bool} {keep : Keep} {ps : List Placed} :
    (d.storePlain w rc h sat keep ps).memWf := by
  unfold Dev.storePlain
  refine .ite (.serialise (.addFlags hd)) (.ite (.writeAll ?_) (.writeAll (.addFlags hd)))
  exact .foldl1 (.addFlags hd) fun _ _ hx => .addFlags (.readBy hx)

theorem storeGroup (hd : d.memWf) {w : Writer} {rc : Reach} {h : Nat} {inTile : Bool} {keep : Keep} {ps : List Placed} :
    (d.storeGroup w rc h inTile keep ps).memWf := by
  unfold Dev.storeGroup
  dsimp only
  split
  · exact hd
  · split
    next he =>
      have h1 := fst he (.locOf hd)
      exact .failCmd h1
    next he =>
      have h2 := fst he (.locOf hd)
      exact .ite (.serialise (.serialise (.addFlags h2))) (.writeAll (.writeAll (.addFlags h2)))

theorem storePlaced (hd : d.memWf) {w : Writer} {rc : Reach} {h : Nat} {inTile : Bool} {sat : Option Bool} {keep : Keep}
    {ps : List Placed} :
    (d.storePlaced w rc h inTile sat keep ps).memWf :=
  .ite (.foldl hd (fun _ _ h2 => .storeGroup h2)) (.storePlain hd)

theorem storePart (hd : d.memWf) {w : Writer} {rc : Reach} {h : Nat} {inTile : Bool} {sat : Option Bool} {ps : List Placed}
    {later : List Item} :
    (d.storePart w rc h inTile sat ps later).memWf :=
  .storePlaced (.upd hd)

theorem storeItems (hd : d.memWf) {w : Writer} {rc : Reach} {h : Nat} {inTile : Bool} {sat : Option Bool} {its : List Item} :
    (d.storeItems w rc h inTile sat its).1.memWf := by
  have h1 : (Dev.placeItems rc h inTile d its).1.memWf := .placeItems hd
  unfold Dev.storeItems
  generalize Dev.placeItems rc h inTile d its = x at h1
  obtain ⟨d', ps, bad⟩ := x
  cases bad with
  | none => exact .storePlaced h1
  | some f => exact .failCmd (.storePart h1)

theorem store (hd : d.memWf) {w : Writer} {rc : Reach} {h : Nat} {inTile : Bool} {sat : Option Bool} {its : List Item} :
    (d.store w rc h inTile sat its).memWf :=
  .storeItems hd

/-! ### Reads of host windows -/

theorem hostFail (hd : d.memWf) {addr : Nat} : (d.hostFail addr).memWf := .raise (.putF (.addF hd))

theorem setFetched (hd : d.memWf) {k : Nat} {f : Fetched} : (d.setFetched k f).memWf := hd

theorem clearFetched (hd : d.memWf) {k : Nat} : (d.clearFetched k).memWf := hd

theorem headFailed (hd : d.memWf) {k handle vaddr : Nat} : (d.headFailed k handle vaddr).memWf := .ite hd (.setFetched hd)

theorem sendRead (hd : d.memWf) {c : Option Nat} {r : OutRead} : (d.sendRead c r).memWf := by
  unfold Dev.sendRead
  exact .ite ((by
    dsimp only
    split
    · exact .failCmd (.hostFail hd)
    · exact .headFailed (.hostFail hd)
    · exact .hostFail hd)) (.upd hd)

theorem awaitGrans (hd : d.memWf) {k func : Nat} {need : List HostGran} : (d.awaitGrans k func need).1.memWf := by
  unfold Dev.awaitGrans
  dsimp only
  split
  · exact .foldl hd (fun _ _ h2 => .ite (.sendRead h2) h2)
  · exact .foldl hd (fun _ _ h2 => .ite (.sendRead h2) h2)

/-! ### Tiles at work -/

theorem nextSeq (hd : d.memWf) {c : Nat} : (d.nextSeq c).memWf := hd

theorem illAppend (hd : d.memWf) {x : Cmd} {bs : List Byte} : (d.illAppend x bs).memWf := by
  unfold Dev.illAppend
  exact .ite hd (.ite (.addF hd) ((by
    dsimp only
    split
    next he =>
      have h1 := fst he (.writeVa hd)
      exact .addF h1
    next he =>
      have h2 := fst he (.writeVa hd)
      exact .raise (.rollF h2))))

theorem skip (hd : d.memWf) {t s reason : Nat} {w : W64} : (d.skip t s reason w).memWf := by
  unfold Dev.skip
  split
  · exact hd
  · exact .ite (.addF (.modCmd hd)) (.illAppend (.addF (.modCmd hd)))

theorem fetchTrap (hd : d.memWf) {x : Cmd} {t routine bundle : Nat} : (d.fetchTrap x t routine bundle).memWf :=
  .failCmd (.raise (.setReg hd))

theorem regDrop (hd : d.memWf) {t r lo n : Nat} : (d.regDrop t r lo n).memWf := .dropWords hd

theorem checkReg (hd : d.memWf) {t r : Nat} : (d.checkReg t r).memWf := by
  unfold Dev.checkReg
  generalize List.range 64 = ws
  refine .ite hd (.ite ?_ (.modTile ?_)) <;> exact .foldl1 hd fun _ _ hx => .readWord hx

theorem endBundle (hd : d.memWf) {t : Nat} : (d.endBundle t).memWf := hd

theorem slotDone (hd : d.memWf) {t s : Nat} : (d.slotDone t s).memWf := .ite (.endBundle (.modTile hd)) (.modTile hd)

theorem fetch (hd : d.memWf) {c : Cmd} {t : Nat} {b : BitVec 256} : (d.fetch c t b).1.memWf :=
  .ite1 hd (.ite1 (.fetchTrap (.readWords hd)) (.foldl (.readWords hd) (fun _ _ h3 => .checkReg h3)))

theorem clearWay (hd : d.memWf) {fuel t : Nat} : (Dev.clearWay fuel d t).memWf := by
  induction fuel generalizing d with
  | zero => exact hd
  | succ fuel ih =>
    unfold Dev.clearWay
    dsimp only
    split
    · exact hd
    · refine .ite hd ?_
      split
      · split
        next he => exact fst he (.fetch hd)
        next he => exact ih (.endBundle (fst he (.fetch hd)))
      · refine .ite hd ?_
        split
        next he => exact fst he (.fetch hd)
        next he => exact ih (.slotDone (.skip (fst he (.fetch hd))))

theorem atSlot (hd : d.memWf) {t s op : Nat} : (d.atSlot t s op).1.memWf := by
  unfold Dev.atSlot
  dsimp only
  split
  · exact .clearWay hd
  · exact .ite1 (.clearWay hd) ((by
      split
      next he => exact fst he (.fetch (.clearWay hd))
      next he => exact fst he (.fetch (.clearWay hd))))

theorem descRegs (hd : d.memWf) {u : Nat} {hs : List Nat} : (d.descRegs u hs).1.memWf :=
  .ite1 hd (.foldl1 hd (fun _ _ h2 => .ite1 h2 (.readWords h2)))

theorem checkHandles (hd : d.memWf) {c : Cmd} {t s : Nat} {w : W64} : (d.checkHandles c t s w).1.memWf :=
  .ite1 hd (.descRegs hd)

theorem awaitLists (hd : d.memWf) {c : Cmd} {t : Nat} {ls : List (Nat × List (List Int))} : (d.awaitLists c t ls).1.memWf := by
  unfold Dev.awaitLists
  refine .ite1 hd ?_
  split
  next he => exact .clearFetched (fst he (.awaitGrans hd))
  · exact .awaitGrans hd

theorem issue (hd : d.memWf) {t s op : Nat} {reason : Dev → Cmd → W64 → Nat} {run : Dev → Cmd → W64 → Dev}
    {lists : Dev → Cmd → W64 → List (Nat × List (List Int))} (hrun : ∀ e x y, e.memWf → (run e x y).memWf) :
    (d.issue t s op reason run lists).memWf := by
  unfold Dev.issue
  split
  next he => exact fst he (.atSlot hd)
  next he =>
    have h1 := fst he (.atSlot hd)
    split
    next he =>
      have h2 := fst he (.checkHandles h1)
      exact .failCmd h2
    next he =>
      have h3 := fst he (.checkHandles h1)
      exact .ite (.slotDone (.skip h3)) ((by
        split
        next he =>
          have h4 := fst he (.awaitLists h3)
          exact .failCmd h4
        next he => exact fst he (.awaitLists h3)
        next he =>
          have h5 := fst he (.awaitLists h3)
          exact .slotDone (hrun _ _ _ h5)))

/-! ### The matrix slot -/

theorem scaleCode (hd : d.memWf) {rc : Reach} {h : Nat} {cs : List Int} : (d.scaleCode rc h cs).1.memWf := by
  unfold Dev.scaleCode
  refine .ite1 hd ?_
  split
  next he => exact fst he (.place hd)
  next he => exact fst he (.place hd)
  next he => exact fst he (.place hd)
  all_goals
    next he =>
      have h1 := fst he (.place hd)
      split
      next hs => exact ofStep hs (.stepScale (r := { dev := _ }) h1)
      next hs => exact ofStep hs (.stepScale (r := { dev := _ }) h1)

theorem prepass (hd : d.memWf) {rc : Reach} {ha hb : Nat} {bs : List (List Int × List Int)} :
    (Dev.prepass rc ha hb d bs).1.memWf := by
  induction bs generalizing d with
  | nil => exact hd
  | cons b bs ih =>
    unfold Dev.prepass
    split
    next he => exact fst he (.scaleCode hd)
    next he =>
      have h1 := fst he (.scaleCode hd)
      split
      next hb => exact fst hb (.scaleCode h1)
      next hb =>
        have h2 := ih (fst hb (.scaleCode h1))
        dsimp only
        split
        next hr => exact fst hr h2
        next hr => exact fst hr h2

theorem laneAnchor (hd : d.memWf) {t : Nat} {rc : Reach} {w : W64} {i : Nat} : (d.laneAnchor t rc w i).1.memWf := by
  unfold Dev.laneAnchor
  exact .ite1 hd (.ite1 hd ((by
    split
    next he => exact fst he (.prepass hd)
    next he => exact fst he (.prepass hd))))

theorem laneAnchors (hd : d.memWf) {t : Nat} {rc : Reach} {w : W64} {is : List Nat} :
    (Dev.laneAnchors t rc w d is).1.memWf := by
  induction is generalizing d with
  | nil => exact hd
  | cons i is ih =>
    unfold Dev.laneAnchors
    split
    next he => exact fst he (.laneAnchor hd)
    next he =>
      have h1 := ih (fst he (.laneAnchor hd))
      split
      next hr => exact fst hr h1
      next hr => exact fst hr h1

theorem mmaRows (hd : d.memWf) {rc : Reach} {h : Nat} {c : List (BitVec 32)} {n : Nat} {is : List Nat} :
    (Dev.mmaRows rc h c n d is).1.memWf := by
  induction is generalizing d with
  | nil => exact hd
  | cons i is ih =>
    unfold Dev.mmaRows
    split
    next he => exact fst he (.readElems hd)
    next he =>
      have h1 := ih (fst he (.readElems hd))
      split
      next hr => exact fst hr h1
      next hr => exact fst hr h1

theorem mmaRun (hd : d.memWf) {t : Nat} {c : Cmd} {w : W64} : (d.mmaRun t c w).memWf := by
  unfold Dev.mmaRun
  dsimp only
  split
  next he =>
    have h1 := fst he (.readElems hd)
    exact .failCmd h1
  next he =>
    have h2 := fst he (.readElems hd)
    split
    next he =>
      have h3 := fst he (.mmaRows h2)
      exact .failCmd h3
    next he =>
      have h4 := fst he (.mmaRows h2)
      split
      next he =>
        have h5 := fst he (.ite1 (.laneAnchors h4) h4)
        exact .failCmd h5
      next he =>
        have h6 := fst he (.ite1 (.laneAnchors h4) h4)
        exact .modTile h6

theorem mma (hd : d.memWf) {t : Nat} : (d.mma t).memWf := .issue hd (fun _ _ _ h2 => .mmaRun h2)

theorem checkLanes (hd : d.memWf) {t : Nat} : (d.checkLanes t).memWf :=
  .ite hd (.foldl hd (fun _ _ h2 => .ite (.modTile (.readWord h2)) (.readWord h2)))

theorem sample (hd : d.memWf) {t : Nat} {c : Cmd} {w : W64} {bf16 : Bool} {dst : Nat} {cs : List (BitVec 32)} {seq : Nat} :
    (d.sample t c w bf16 dst cs seq).memWf :=
  .ite (.store (.addFlags (.modTile (.checkLanes hd)))) (.modTile (.regDrop (.addFlags (.modTile (.checkLanes hd)))))

theorem mrdRun (hd : d.memWf) {t : Nat} {c : Cmd} {w : W64} : (d.mrdRun t c w).memWf :=
  .ite (.sample (.modTile (.nextSeq hd))) (.modTile (.modTile (.nextSeq hd)))

theorem mrd (hd : d.memWf) {t : Nat} : (d.mrd t).memWf := .issue hd (fun _ _ _ h2 => .mrdRun h2)

theorem takeSamples (hd : d.memWf) {fuel t : Nat} {c : Cmd} : (Dev.takeSamples fuel d t c).memWf := by
  induction fuel generalizing d with
  | zero => exact hd
  | succ fuel ih =>
    unfold Dev.takeSamples
    split
    · exact ih (.sample (.modTile hd))
    · exact hd

theorem productsLand (hd : d.memWf) {t : Nat} : (d.productsLand t).memWf := by
  unfold Dev.productsLand
  split
  · exact .takeSamples (.modTile (.ite (.dropUnit hd) (.checkLanes hd)))
  · exact hd

/-! ### The vector slot -/

theorem putVreg (hd : d.memWf) {t : Nat} {c : Cmd} {r : Nat} {es : List (Elem × Byte)} : (d.putVreg t c r es).memWf :=
  .addFlags (.modTile (.regDrop hd))

theorem vecIssue (hd : d.memWf) {t op lo : Nat} {f : List Elem → List Elem → List Elem → List (Elem × Byte)} :
    (d.vecIssue t op lo f).memWf :=
  .issue hd (fun _ _ _ h2 => .putVreg h2)

theorem vec2Issue (hd : d.memWf) {t op : Nat} {f : W32 → W32 → W32 × Byte} : (d.vec2Issue t op f).memWf := .vecIssue hd

theorem vec1Issue (hd : d.memWf) {t op : Nat} {f : W32 → W32 × Byte} : (d.vec1Issue t op f).memWf := .vecIssue hd

theorem vfmaIssue (hd : d.memWf) {t : Nat} : (d.vfmaIssue t).memWf := .vecIssue hd

theorem vpairIssue (hd : d.memWf) {t : Nat} : (d.vpairIssue t).memWf := .vecIssue hd

theorem vpmaxiIssue (hd : d.memWf) {t : Nat} : (d.vpmaxiIssue t).memWf := .issue hd (fun _ _ _ h2 => .putVreg (.putVreg h2))

theorem vimmIssue (hd : d.memWf) {t : Nat} : (d.vimmIssue t).memWf := .issue hd (fun _ _ _ h2 => .putVreg h2)

theorem read8 (hd : d.memWf) {t : Nat} {c : Cmd} {h : Nat} : (d.read8 t c h).1.memWf := .readElems hd

theorem xaddIssue (hd : d.memWf) {t : Nat} : (d.xaddIssue t).memWf := by
  unfold Dev.xaddIssue
  exact .issue hd (fun _ _ _ h2 => (by
    dsimp only
    split
    next he =>
      have h1 := fst he (.read8 h2)
      exact .failCmd h1
    next he =>
      have h3 := fst he (.read8 h2)
      split
      next he =>
        have h4 := fst he (.read8 h3)
        exact .failCmd h4
      next he =>
        have h5 := fst he (.read8 h3)
        exact .store (.nextSeq (.addFlags h5))))

theorem xrdIssue (hd : d.memWf) {t : Nat} : (d.xrdIssue t).memWf := by
  unfold Dev.xrdIssue
  exact .issue hd (fun _ _ _ h2 => (by
    split
    next he =>
      have h1 := fst he (.read8 h2)
      exact .failCmd h1
    next he =>
      have h3 := fst he (.read8 h2)
      exact .modTile (.regDrop (.addFlags h3))))

theorem vldIssue (hd : d.memWf) {t : Nat} : (d.vldIssue t).memWf := by
  unfold Dev.vldIssue
  exact .issue hd (fun _ _ _ h2 => (by
    dsimp only
    split
    next he =>
      have h1 := fst he (.readElems h2)
      exact .failCmd h1
    next he =>
      have h3 := fst he (.readElems h2)
      exact .modTile (.regDrop (.addFlags h3))))

theorem vstIssue (hd : d.memWf) {t : Nat} : (d.vstIssue t).memWf := .issue hd (fun _ _ _ h2 => .store (.nextSeq h2))

/-! ### Moves and atomics -/

theorem dropOp (hd : d.memWf) {t id : Nat} : (d.dropOp t id).memWf := hd

theorem pushOp (hd : d.memWf) {t tag : Nat} {k : OutKind} : (d.pushOp t tag k).memWf := hd

theorem planItems (hd : d.memWf) {rc : Reach} {p : MovePlan} {inTile : Bool} : (d.planItems rc p inTile).1.memWf := by
  unfold Dev.planItems
  dsimp only
  split
  next he => exact fst he (.readElems hd)
  next he => exact fst he (.readElems hd)

theorem deliver (hd : d.memWf) {t dt : Nat} {c : Cmd} {p : MovePlan} {inTile : Bool} {its : List Item} :
    (d.deliver t dt c p inTile its).1.memWf :=
  .storeItems hd

theorem runPlan (hd : d.memWf) {t : Nat} {c : Cmd} {p : MovePlan} : (d.runPlan t c p).1.memWf := by
  unfold Dev.runPlan
  split
  next he =>
    have h1 := fst he (.planItems hd)
    exact .failCmd h1
  next he =>
    have h2 := fst he (.planItems hd)
    exact .deliver h2

theorem writeSlots (hd : d.memWf) {t id : Nat} {c : Cmd} {p : MovePlan} : (d.writeSlots t id c p).memWf := by
  unfold Dev.writeSlots
  dsimp only
  split
  next he =>
    have h1 := fst he (.runPlan hd)
    exact .dropOp h1
  next he =>
    have h2 := fst he (.runPlan hd)
    exact .modTile h2

theorem moveRun (hd : d.memWf) {t : Nat} {c : Cmd} {w : W64} : (d.moveRun t c w).memWf :=
  .ite (.writeSlots (.pushOp (.nextSeq hd))) (.foldl (.pushOp (.nextSeq hd)) (fun _ _ h3 => .sendRead h3))

theorem moveIssue (hd : d.memWf) {t : Nat} : (d.moveIssue t).memWf := .issue hd (fun _ _ _ h2 => .moveRun h2)

theorem msendIssue (hd : d.memWf) {t : Nat} : (d.msendIssue t).memWf := .issue hd (fun _ _ _ h2 => .pushOp (.nextSeq h2))

theorem depart (hd : d.memWf) {t id : Nat} {c : Cmd} {p : MovePlan} {dt actr : Nat} : (d.depart t id c p dt actr).memWf := by
  unfold Dev.depart
  split
  next he =>
    have h1 := fst he (.planItems hd)
    exact .dropOp (.failCmd h1)
  next he =>
    have h2 := fst he (.planItems hd)
    exact .modTile h2

theorem moveComplete (hd : d.memWf) {t i : Nat} : (d.moveComplete t i).memWf := by
  unfold Dev.moveComplete
  split
  · exact .ite hd (.dropOp (.runPlan hd))
  · exact .ite hd (.writeSlots hd)
  · exact .depart hd
  · exact hd

theorem arrive (hd : d.memWf) {t id : Nat} {c : Cmd} {p : MovePlan} {dt actr : Nat} {its : List Item} :
    (d.arrive t id c p dt actr its).memWf := by
  unfold Dev.arrive
  split
  next he =>
    have h1 := fst he (.deliver hd)
    exact .dropOp h1
  next he =>
    have h2 := fst he (.deliver hd)
    exact .dropOp (.modTile h2)

theorem msendArrival (hd : d.memWf) {t i : Nat} : (d.msendArrival t i).memWf := by
  unfold Dev.msendArrival
  split
  · exact .arrive hd
  · split
    next he =>
      have h1 := fst he (.planItems hd)
      exact .dropOp (.failCmd h1)
    next he =>
      have h2 := fst he (.planItems hd)
      exact .arrive h2
  · exact hd

theorem slotResult (hd : d.memWf) {t slot old status : Nat} : (d.slotResult t slot old status).memWf :=
  .setSlots hd (Memory.wf_putBytes hd.2.2.2.1 _ _)

theorem atomDone (hd : d.memWf) {t : Nat} {q : AtomReq} {old status : Nat} : (d.atomDone t q old status).memWf :=
  .ite (.modTile (.slotResult hd)) (.dropOp (.modTile (.slotResult hd)))

theorem atomOrder (hd : d.memWf) {t : Nat} {r : Rec} : (d.atomOrder t r).memWf := .ite (.drainAll hd) hd

theorem atomicPerform (hd : d.memWf) {t : Nat} : (d.atomicPerform t).memWf := by
  unfold Dev.atomicPerform
  split
  · exact .ite (.atomDone hd) (.ite (.atomDone hd) (.ite hd (.ite (.atomDone (.atomOrder hd)) ((by
      dsimp only
      split
      next he =>
        have h1 := fst he (.xlate hd)
        exact .modTile (.failCmd h1)
      next he =>
        have h2 := fst he (.xlate hd)
        exact .ite (.atomDone h2) (.ite (.atomDone (.readHomeGran (.atomOrder h2))) ((by
          split
          · exact .atomDone (.readHomeGran (.atomOrder h2))
          · exact .atomDone (.writeHome (.readHomeGran (.atomOrder h2)))))))))))
  · exact hd

/-! ### The loop slot -/

theorem control (hd : d.memWf) {t op : Nat} {run : Dev → Cmd → W64 → Dev} (hrun : ∀ e x y, e.memWf → (run e x y).memWf) :
    (d.control t op run).memWf :=
  .issue hd hrun

theorem jump (hd : d.memWf) {t : Nat} {f : Tile → Tile} : (d.jump t f).memWf := hd

theorem doReturn (hd : d.memWf) {t : Nat} : (d.doReturn t).memWf := by
  unfold Dev.doReturn
  split
  · exact .jump hd
  · exact .modTile (.jump hd)

theorem branch (hd : d.memWf) {t op : Nat} {f : Dev → Cmd → W64 → Dev} (hf : ∀ e x y, e.memWf → (f e x y).memWf) :
    (d.branch t op f).memWf := by
  unfold Dev.branch
  split
  next he => exact fst he (.atSlot hd)
  next he =>
    have h1 := fst he (.atSlot hd)
    exact hf _ _ _ h1

theorem loopIssue (hd : d.memWf) {t : Nat} : (d.loopIssue t).memWf := .branch hd (fun _ _ _ h2 => .jump h2)

theorem callIssue (hd : d.memWf) {t : Nat} : (d.callIssue t).memWf := .branch hd (fun _ _ _ h2 => .jump h2)

theorem retIssue (hd : d.memWf) {t : Nat} : (d.retIssue t).memWf := .branch hd (fun _ _ _ h2 => .doReturn h2)

theorem endIssue (hd : d.memWf) {t : Nat} : (d.endIssue t).memWf := .branch hd (fun _ _ _ h2 => .jump h2)

theorem waitIssue (hd : d.memWf) {t : Nat} : (d.waitIssue t).memWf :=
  .ite (.clearWay hd) (.control (.clearWay hd) (fun _ _ _ h3 => .ite (.modTile h3) h3))

theorem barrierIssue (hd : d.memWf) {t : Nat} : (d.barrierIssue t).memWf := .branch hd (fun _ _ _ h2 => .modTile h2)

theorem barrierRelease (hd : d.memWf) {c : Nat} : (d.barrierRelease c).memWf :=
  .ite hd (.foldl hd (fun _ _ h2 => .slotDone (.modTile h2)))

theorem spreadIssue (hd : d.memWf) {t : Nat} : (d.spreadIssue t).memWf := .control hd (fun _ _ _ h2 => .modTile h2)

theorem csetIssue (hd : d.memWf) {t : Nat} : (d.csetIssue t).memWf := by
  unfold Dev.csetIssue
  exact .control hd (fun _ _ _ h2 => (by
    split
    · exact .modTile h2
    · exact h2))

/-! ### Hen operations -/

theorem scaleAddr (hd : d.memWf) {rc : Reach} {x : Desc} {src : List Int} : (d.scaleAddr rc x src).1.memWf := by
  unfold Dev.scaleAddr
  dsimp only
  split
  next he => exact fst he (.locOf hd)
  next he => exact fst he (.locOf hd)

theorem rowElem (hd : d.memWf) {rc : Reach} {h : Nat} {g : RowGen} {cs : List Int} : (d.rowElem rc h g cs).1.memWf := by
  unfold Dev.rowElem
  dsimp only
  split
  next he => exact fst he (.place hd)
  next he => exact fst he (.place hd)
  next he => exact fst he (.place hd)
  next he =>
    have h1 := fst he (.place hd)
    exact .ite1 h1 ((by
      split
      next he => exact fst he (.scaleAddr h1)
      next he =>
        have h2 := fst he (.scaleAddr h1)
        split
        · exact h2
        · exact h2))
  next he =>
    have h3 := fst he (.place hd)
    split
    next he => exact fst he (.locOf h3)
    next he =>
      have h2 := fst he (.locOf h3)
      split
      · exact h2
      · exact .ite1 h2 ((by
          split
          next he => exact fst he (.scaleAddr h2)
          next he =>
            have h4 := fst he (.scaleAddr h2)
            split
            · exact h4
            · exact h4))

theorem genElems (hd : d.memWf) {rc : Reach} {h : Nat} {g : RowGen} {cs : List (List Int)} :
    (Dev.genElems rc h d g cs).1.memWf := by
  induction cs generalizing d g with
  | nil => exact hd
  | cons c cs ih =>
    unfold Dev.genElems
    split
    next he => exact fst he (.rowElem hd)
    next he => exact ih (fst he (.rowElem hd))

theorem outAddrs (hd : d.memWf) {rc : Reach} {h : Nat} {hen stk : Option Nat} {cs : List (List Int)} :
    (Dev.outAddrs rc h hen stk d cs).1.memWf := by
  induction cs generalizing d with
  | nil => exact hd
  | cons c cs ih =>
    unfold Dev.outAddrs
    split
    next he => exact fst he (.placeItem hd)
    next he =>
      have h1 := fst he (.placeItem hd)
      dsimp only
      split
      · exact h1
      · split
        next hr => exact fst hr (ih h1)
        next hr => exact fst hr (ih h1)

theorem henRows (hd : d.memWf) {rc : Reach} {op : Nat} {b : Rec} {h : HenHandles} {dims rs : List Nat} :
    (Dev.henRows rc op b h dims d rs).1.memWf := by
  induction rs generalizing d with
  | nil => exact hd
  | cons r rs ih =>
    unfold Dev.henRows
    dsimp only
    split
    next he => exact fst he (.genElems hd)
    next he =>
      have h1 := fst he (.genElems hd)
      split
      next ho => exact fst ho (.outAddrs h1)
      next ho =>
        have h2 := fst ho (.outAddrs h1)
        split
        next ha => exact fst ha (.outAddrs h2)
        next ha =>
          have h3 := ih (fst ha (.outAddrs h2))
          split
          next hr => exact fst hr h3
          next hr => exact fst hr h3

theorem inputElem (hd : d.memWf) {rc : Reach} {h : Nat} {cs : List Int} : (d.inputElem rc h cs).1.memWf := by
  unfold Dev.inputElem
  dsimp only
  split
  next he => exact fst he (.place hd)
  next he => exact fst he (.place hd)
  next he => exact fst he (.place hd)
  next he =>
    have h1 := fst he (.place hd)
    exact .ite1 h1 ((by
      split
      next he => exact fst he (.scaleAddr h1)
      next he => exact fst he (.scaleAddr h1)))
  next he =>
    have h2 := fst he (.place hd)
    split
    next he => exact fst he (.locOf h2)
    next he =>
      have h3 := fst he (.locOf h2)
      exact .ite1 (.ite1 h3 ((by
        split
        next he => exact fst he (.scaleAddr h3)
        next he =>
          have h4 := fst he (.scaleAddr h3)
          exact h4))) h3

theorem checkInput (hd : d.memWf) {rc : Reach} {h : Nat} {cs : List (List Int)} : (Dev.checkInput rc h d cs).1.memWf := by
  induction cs generalizing d with
  | nil => exact hd
  | cons c cs ih =>
    unfold Dev.checkInput
    split
    next he => exact fst he (.inputElem hd)
    next he => exact ih (fst he (.inputElem hd))

theorem readColumns (hd : d.memWf) {rc : Reach} {h : Nat} {cs : List (List (List Int))} :
    (Dev.readColumns rc h d cs).1.memWf := by
  induction cs generalizing d with
  | nil => exact hd
  | cons c cs ih =>
    unfold Dev.readColumns
    split
    next he => exact fst he (.readElems hd)
    next he =>
      have h1 := ih (fst he (.readElems hd))
      split
      next hr => exact fst hr h1
      next hr => exact fst hr h1

theorem henInput (hd : d.memWf) {rc : Reach} {h n m : Nat} : (d.henInput rc h n m).1.memWf := by
  unfold Dev.henInput
  dsimp only
  split
  next he => exact fst he (.checkInput hd)
  next he =>
    have h1 := fst he (.checkInput hd)
    exact .readColumns h1

theorem attnOuts (hd : d.memWf) {rc : Reach} {h per : Nat} {stks vs : List Nat} :
    (Dev.attnOuts rc h per stks d vs).1.memWf := by
  induction vs generalizing d with
  | nil => exact hd
  | cons v vs ih =>
    unfold Dev.attnOuts
    dsimp only
    split
    next he => exact fst he (.outAddrs hd)
    next he =>
      have h1 := ih (fst he (.outAddrs hd))
      split
      next hr => exact fst hr h1
      next hr => exact fst hr h1

theorem henBlock (hd : d.memWf) {t : Nat} {rc : Reach} {h : Nat} : (d.henBlock t rc h).1.memWf := by
  unfold Dev.henBlock
  exact .ite1 hd ((by
    split
    next he => exact fst he (.readElems hd)
    next he => exact fst he (.readElems hd)))

theorem henGather (hd : d.memWf) {t : Nat} {c : Cmd} {w : W64} {b : Rec} {h : HenHandles} {dims stks : List Nat} {outId : Nat} :
    (d.henGather t c w b h dims stks outId).1.memWf := by
  unfold Dev.henGather
  dsimp only
  split
  next he => exact fst he (.ite1 (.henInput hd) hd)
  next he =>
    have h1 := fst he (.ite1 (.henInput hd) hd)
    split
    next he => exact fst he (.henRows h1)
    next he =>
      have h2 := fst he (.henRows h1)
      split
      next he => exact fst he (.ite1 (.attnOuts h2) h2)
      next he =>
        have h3 := fst he (.ite1 (.attnOuts h2) h2)
        split
        next he => exact fst he (.ite1 (.attnOuts h3) h3)
        next he => exact fst he (.ite1 (.attnOuts h3) h3)

theorem henReject (hd : d.memWf) {t : Nat} {w : W64} {reason : Nat} : (d.henReject t w reason).memWf := .skip hd

theorem hdispRun (hd : d.memWf) {t : Nat} {c : Cmd} {w : W64} : (d.hdispRun t c w).memWf := by
  unfold Dev.hdispRun
  dsimp only
  split
  next he => exact .failCmd (fst he (.henBlock hd))
  next he =>
    have h1 := fst he (.henBlock hd)
    refine .ite (.henReject h1) ?_
    split
    next hg => exact .failCmd (fst hg (.henGather h1))
    next hg => exact .upd (.modCmd (.pushOp (.drainAll (fst hg (.henGather h1)))))

theorem hdispIssue (hd : d.memWf) {t : Nat} {sel : Nat → Bool} : (d.hdispIssue t sel).memWf :=
  .ite (.clearWay hd) (.issue (.clearWay hd) (fun _ _ _ h3 => .hdispRun h3))

theorem modHenOp (hd : d.memWf) {id : Nat} {f : HenOp → HenOp} : (d.modHenOp id f).memWf := hd

theorem henStart (hd : d.memWf) {id : Nat} : (d.henStart id).memWf := by
  unfold Dev.henStart
  split
  · exact hd
  · exact .ite hd (.modHenOp hd)

theorem henRead (hd : d.memWf) {ty : Nat} {e : HenElem} : (d.henRead ty e).1.memWf := by
  obtain ⟨addr, hi, scale⟩ := e
  unfold Dev.henRead
  cases addr with
  | none =>
    cases scale with
    | none => exact hd
    | some s => exact .readStk hd
  | some a =>
    cases scale with
    | none => exact .readStk hd
    | some s => exact .readStk (.readStk hd)

theorem henReadRow (hd : d.memWf) {ty : Nat} {es : List HenElem} : (d.henReadRow ty es).1.memWf :=
  .foldl1 hd (fun _ _ h2 => .henRead h2)

theorem henWrite (hd : d.memWf) {o : HenOp} {outs : List HenOut} : (d.henWrite o outs).memWf :=
  .foldl hd (fun _ _ h2 => .writeStk (.ite (.notePoison h2) h2))

theorem henRow (hd : d.memWf) {o : HenOp} {u : Nat} {r : HenRow} : (d.henRow o u r).memWf :=
  .addFlags (.henWrite (.henReadRow hd))

theorem henRowsDone (hd : d.memWf) {o : HenOp} {u n : Nat} : (d.henRowsDone o u n).memWf :=
  .ite hd (.modHenOp (.foldl hd (fun _ _ h2 => .henRow h2)))

theorem henRowStep (hd : d.memWf) {u : Nat} : (d.henRowStep u).memWf := by
  unfold Dev.henRowStep
  split
  · exact hd
  · exact .ite (.modHenOp hd) (.ite hd (.henRowsDone (.modHenOp (.upd hd))))

theorem hattnExchange (hd : d.memWf) {id : Nat} : (d.hattnExchange id).memWf := by
  unfold Dev.hattnExchange
  split
  · exact hd
  next o _ =>
    have h1 := foldl1 (f := fun (acc : Dev × List (List ElemRead)) (r : HenRow) =>
      ((acc.1.henReadRow (o.types.getD 0 0) r.elems).1, acc.2 ++ [(acc.1.henReadRow (o.types.getD 0 0) r.elems).2]))
      (l := o.positions) (x := (d, [])) hd fun _ _ hx => .henReadRow hx
    exact .ite hd (.addFlags (.modHenOp h1))

theorem attnFinish (hd : d.memWf) {o : HenOp} : (d.attnFinish o).memWf := by
  have h1 := foldl1 (f := fun (acc : Dev × List (HenRow × List ElemRead)) (r : HenRow) =>
    ((acc.1.henReadRow (o.types.getD 0 0) r.elems).1, acc.2 ++ [(r, (acc.1.henReadRow (o.types.getD 0 0) r.elems).2)]))
    (l := o.positions) (x := (d, [])) hd fun _ _ hx => .henReadRow hx
  exact .addFlags (.henWrite h1)

theorem henOpFinish (hd : d.memWf) {id : Nat} : (d.henOpFinish id).memWf := by
  unfold Dev.henOpFinish
  split
  · exact hd
  · exact .ite hd (.upd (.dropOp (.foldl (.ite (.attnFinish hd) (.foldl hd (fun _ _ h2 => .henRowsDone h2))) (fun _ _ h3 =>
    .rollF h3))))

/-! ### The gander's storage -/

theorem onGan (hd : d.memWf) {f : Gander → Gander} : (d.onGan f).memWf := hd

theorem cfgAsk (hd : d.memWf) {x : CfgChange} {why : CfgCause} : (d.cfgAsk x why).memWf := hd

theorem writeCopy (hd : d.memWf) {b : CfgBlock} : (d.writeCopy b).memWf :=
  .setReg (.putF (.ite (.putF (.onGan hd)) (.putF (.onGan hd))))

theorem finishMbx (hd : d.memWf) {status : Nat} {resp : List Byte} : (d.finishMbx status resp).memWf :=
  .raise (.putF (.setReg (.onGan hd)))

theorem logChange (hd : d.memWf) {x : CfgChange} : (d.logChange x).memWf := by
  unfold Dev.logChange
  split
  · exact .log hd
  · split
    · exact .log hd
    · exact hd
  · exact hd
  · exact .log hd

theorem cfgWritten (hd : d.memWf) {why : CfgCause} : (d.cfgWritten why).memWf := by
  unfold Dev.cfgWritten
  split
  · exact .finishMbx hd
  · exact .modCmd hd
  · exact hd

theorem flashGood (hd : d.memWf) : d.flashGood.1.memWf := hd

theorem configurationWrite (hd : d.memWf) : d.configurationWrite.memWf := by
  unfold Dev.configurationWrite
  split
  · exact hd
  · exact .ite hd (.ite (.cfgWritten (.logChange (.writeCopy (.onGan (.flashGood hd))))) (.ite (.finishMbx (.onGan (.flashGood
    hd))) (.flashGood hd)))

theorem logFlush (hd : d.memWf) : d.logFlush.memWf := .ite hd (.onGan hd)

theorem logNow (hd : d.memWf) {typ : Nat} {payload : List Nat} : (d.logNow typ payload).memWf := .logFlush (.log hd)

/-! ### Partitions, resets and unit service -/

theorem modPart (hd : d.memWf) {p : Nat} {f : Part → Part} : (d.modPart p f).memWf := hd

theorem writeLayout (hd : d.memWf) {w : Nat} : (d.writeLayout w).memWf := .ite (.blkErr hd) (.upd (.putF (.setReg hd)))

theorem zeroSram (hd : d.memWf) {k : Nat} : (d.zeroSram k).memWf :=
  ⟨hd.1, Memory.wf_clear hd.2.1 _ _, Memory.wf_clear hd.2.2.1 _ _, Memory.wf_clear hd.2.2.2.1 _ _, hd.2.2.2.2⟩

theorem dropLib (hd : d.memWf) {k : Nat} : (d.dropLib k).memWf := hd

theorem layoutDone (hd : d.memWf) : d.layoutDone.memWf :=
  .ite hd (.raise (.putF (.upd (.foldl hd (fun _ _ h2 => .resetRegs (.resetRegs (.dropLib (.zeroSram h2))))))))

theorem writeCtxCfg (hd : d.memWf) {k c : Nat} {v : W64} : (d.writeCtxCfg k c v).memWf :=
  .ite (.blkErr hd) (.signal (.setReg hd))

theorem writeCtxRoot (hd : d.memWf) {k c : Nat} {v : W64} : (d.writeCtxRoot k c v).memWf := .ite (.blkErr hd) (.setReg hd)

theorem writeVfBind (hd : d.memWf) {v : Nat} {w : W64} : (d.writeVfBind v w).memWf := .ite (.blkErr hd) (.signal (.setReg hd))

theorem enterSlice (hd : d.memWf) {p k t0 : Nat} {x : Option Nat} : (d.enterSlice p k t0 x).memWf := by
  unfold Dev.enterSlice
  split
  · exact .modPart (.putF hd)
  · exact .modPart (.putF hd)

theorem writeSliceCtrl (hd : d.memWf) {k : Nat} {v : W64} : (d.writeSliceCtrl k v).memWf :=
  .ite (.enterSlice (.setReg hd)) (.setReg hd)

theorem sliceBoundary (hd : d.memWf) {p : Nat} : (d.sliceBoundary p).memWf := by
  unfold Dev.sliceBoundary
  exact .ite hd (.ite ((by
    split
    · exact .enterSlice hd
    · exact .enterSlice hd)) (.ite (.enterSlice hd) hd))

theorem disableLink (hd : d.memWf) {i : Nat} : (d.disableLink i).memWf := hd

theorem stampLink (hd : d.memWf) {i : Nat} : (d.stampLink i).memWf := hd

theorem trainLink (hd : d.memWf) {i : Nat} : (d.trainLink i).memWf := hd

theorem linkOff (hd : d.memWf) {u : UnitId} : (d.linkOff u).memWf := .ite (.disableLink hd) hd

theorem selftest (hd : d.memWf) {failed : List UnitId} : (d.selftest failed).memWf :=
  .ite (.putF (.setReg (.upd hd))) (.raise (.foldl (.putF (.setReg (.upd hd))) (fun _ _ h4 => .linkOff (.takeOut h4))))

theorem resume (hd : d.memWf) {u : UnitId} : (d.resume u).memWf := .ite (.trainLink (.setUnit hd)) (.setUnit hd)

theorem resumeWhere (hd : d.memWf) {who : UnitId → Bool} : (d.resumeWhere who).memWf := .foldl hd (fun _ _ h2 => .resume h2)

theorem returnSelected (hd : d.memWf) : d.returnSelected.memWf := by
  unfold Dev.returnSelected
  split
  · exact .blkErr hd
  · exact .ite (.blkErr hd) (.ite (.resume (.setUnit hd)) (.setUnit hd))

theorem trainFrom (hd : d.memWf) {n : Nat} {clears : Bool} : (d.trainFrom n clears).memWf := hd

theorem resetEvent (hd : d.memWf) {p bit : Nat} : (d.resetEvent p bit).memWf :=
  .signal (.modReg (.foldl hd (fun _ _ h2 => .modReg h2)))

theorem settleBuffer (hd : d.memWf) {k : Nat} : (d.settleBuffer k).memWf :=
  .foldl (.modSect hd) (fun _ _ h2 => .foldl (.upd h2) (fun _ _ h3 => .writeHome h3))

theorem issueAll (hd : d.memWf) {p : Nat} : (d.issueAll p).memWf := .foldl hd (fun _ _ h2 => .issueRecord h2)

theorem dropStaged (hd : d.memWf) : d.dropStaged.memWf := hd

theorem resetWork (hd : d.memWf) {p : Nat} : (d.resetWork p).memWf :=
.foldl (.issueAll (.abortAll (.foldl (.upd (.upd (.foldl (.ite (.dropStaged (.foldl hd (fun _ _ h2 => .endCmdWith (.abandon
    h2)))) (.foldl hd (fun _ _ h2 => .endCmdWith (.abandon h2)))) (fun _ _ h4 => .modSect (.settleBuffer h4))))) (fun _ _ h7 =>
    .flushQueue h7)))) (fun _ _ h10 => .ite h10 (.trainFrom h10))

theorem trainDown (hd : d.memWf) {p : Nat} : (d.trainDown p).memWf := .foldl hd (fun _ _ h2 => .trainLink h2)

theorem beginReset (hd : d.memWf) {p cause trigger : Nat} {suspects : List Suspect} :
    (d.beginReset p cause trigger suspects).memWf :=
.ite hd (.ite (.modPart hd) (.trainDown (.resetWork (.resetEvent (.ite (.modReg (.setReg (.addF (.putF (.modPart hd)))))
    (.setReg (.addF (.putF (.modPart hd)))))))))

theorem recover (hd : d.memWf) {p trigger : Nat} : (d.recover p trigger).memWf := .beginReset hd

theorem ifFailed (hd : d.memWf) {n : Nat} : (d.ifFailed n).memWf :=
  .ite (.recover (.modStack hd)) (.trainFrom (.modStack (.modStack hd)))

theorem stackReady (hd : d.memWf) {n : Nat} : (d.stackReady n).memWf := .ite hd (.raise (.setReg hd))

theorem judgeReplays (hd : d.memWf) {p : Nat} : (d.judgeReplays p).memWf := by
  unfold Dev.judgeReplays
  exact .raise ((by
    split
    · exact .modPart (.modReg hd)
    · exact .putF (.putF (.putF (.modPart (.modReg hd))))
    · exact .putF (.upd (.modPart (.modReg hd)))))

theorem nextReplay (hd : d.memWf) {p : Nat} : (d.nextReplay p).memWf := by
  unfold Dev.nextReplay
  dsimp only
  split
  · exact .judgeReplays hd
  · exact .ite (.judgeReplays hd) ((by
      split
      · exact .modPart hd
      · exact .modPart (.upd (.modPart hd))))

theorem resetRetrainDone (hd : d.memWf) {p : Nat} {failed : List UnitId} : (d.resetRetrainDone p failed).memWf :=
.ite hd (.ite (.modPart (.selftest (.foldl (.foldl hd (fun _ _ h2 => .stackReady h2)) (fun _ _ h3 => .zeroSram h3))))
    (.nextReplay (.modReg (.modPart (.selftest (.foldl (.foldl hd (fun _ _ h2 => .stackReady h2)) (fun _ _ h3 => .zeroSram
    h3)))))))

theorem stackReadyTimeout (hd : d.memWf) {n : Nat} : (d.stackReadyTimeout n).memWf :=
  .ite hd (.stackReady (.takeOut (.modStack hd)))

theorem suspectReplay (hd : d.memWf) {p : Nat} {status : Byte} {hung : List UnitId} :
    (d.suspectReplay p status hung).memWf := by
  unfold Dev.suspectReplay
  exact .ite hd (.nextReplay (.putF (.modPart (.foldl ((by
    split
    · exact hd
    · exact .leaveSectors (.dropCmd (.freeTiles (.abandon hd))))) (fun _ _ h3 => .drainAll h3)))))

theorem resetEnd (hd : d.memWf) {p : Nat} : (d.resetEnd p).memWf :=
.ite hd (.log (.resetEvent (.ite (.modPart (.modReg (.putF (.putF (.issueAll (.modReg (.upd (.foldl (.foldl hd (fun _ _ h2 =>
    .dropLib (.zeroSram h2))) (fun _ _ h3 => .linkOff (.takeOut h3)))))))))) (.resumeWhere (.modPart (.modReg (.putF (.putF
    (.issueAll (.modReg (.upd (.foldl (.foldl hd (fun _ _ h2 => .dropLib (.zeroSram h2))) (fun _ _ h3 => .linkOff (.takeOut
    h3))))))))))))))

theorem partitionReset (hd : d.memWf) {p : Nat} : (d.partitionReset p).memWf := .beginReset hd

theorem resetThokel (hd : d.memWf) {k c : Nat} : (d.resetThokel k c).memWf := hd

theorem clearCounts (hd : d.memWf) {q : Nat} : (d.clearCounts q).memWf := .foldl hd (fun _ _ h2 => .setReg h2)

theorem resetRing (hd : d.memWf) {r : Nat} : (d.resetRing r).memWf := hd

theorem vfFlrPath (hd : d.memWf) {v : Nat} : (d.vfFlrPath v).memWf :=
.setReg (.upd (.answersNone (.foldl (.foldl (.foldl (.discardRecords (.cancelOwned (.foldl hd (fun _ _ h2 => .loadEnded
    (.leaveSectors (.dropCmd (.freeTiles (.abandon h2)))))))) (fun _ _ h5 => .clearCounts (.flushQueue h5))) (fun _ _ h6 =>
    .resetRing h6)) (fun _ _ h7 => .resetThokel h7))))

theorem vfFlrDone (hd : d.memWf) {v : Nat} : (d.vfFlrDone v).memWf := .raise (.modReg hd)

theorem vfFlr (hd : d.memWf) {v : Nat} : (d.vfFlr v).memWf := .ite hd (.vfFlrDone (.vfFlrPath hd))

theorem vfFlrEscalate (hd : d.memWf) {v : Nat} : (d.vfFlrEscalate v).memWf :=
  .ite hd (.ite (.beginReset (.vfFlrDone (.vfFlrPath hd))) (.vfFlrDone (.vfFlrPath hd)))

theorem pfFlr (hd : d.memWf) : d.pfFlr.memWf :=
.upd (.resetRegs (.resetRegs (.resetRegs (.resetRegs (.discardRecords (.foldl (.foldl (.foldl (.upd hd) (fun _ _ h3 =>
    .beginReset h3)) (fun _ _ h4 => .vfFlrPath h4)) (fun _ _ h5 => .flushQueue h5)))))))

/-! ### Power -/

theorem setPstate (hd : d.memWf) {x : Nat} : (d.setPstate x).memWf := hd

theorem onPwr (hd : d.memWf) {f : Pwr → Pwr} : (d.onPwr f).memWf := hd

theorem onHif (hd : d.memWf) {f : Hif → Hif} : (d.onHif f).memWf := hd

theorem refuse (hd : d.memWf) {mask target seq : Nat} : (d.refuse mask target seq).memWf :=
  .raise (.setReg (.setReg (.addF hd)))

theorem commitEntry (hd : d.memWf) {target : Nat} : (d.commitEntry target).memWf := hd

theorem fallowLoss (hd : d.memWf) : d.fallowLoss.memWf :=
  .foldl (.upd (.foldl hd (fun _ _ h2 => .dropLib (.zeroSram h2)))) (fun _ _ h4 => .ite h4 (.disableLink h4))

theorem selfRefresh (hd : d.memWf) {on train : Bool} : (d.selfRefresh on train).memWf :=
  .foldl hd (fun _ _ h2 => .ite h2 (.ite (.setReg h2) (.ite (.trainFrom h2) (.stackReady h2))))

theorem driveWakeN (hd : d.memWf) {src : Nat} : (d.driveWakeN src).memWf := .ite (.onHif hd) hd

theorem startWake (hd : d.memWf) {src : Nat} : (d.startWake src).memWf := .driveWakeN (.putF (.setPstate (.onPwr hd)))

theorem wakeSource (hd : d.memWf) {src : Nat} : (d.wakeSource src).memWf := .ite (.ite hd (.startWake hd)) (.ite (.onPwr hd) hd)

theorem entered (hd : d.memWf) : d.entered.memWf := by
  unfold Dev.entered
  split
  · exact .ite (.raise (.onPwr (.setPstate (.selfRefresh (.ite (.fallowLoss hd) hd))))) (.startWake (.raise (.onPwr (.setPstate
    (.selfRefresh (.ite (.fallowLoss hd) hd))))))
  · exact hd

theorem waitingResets (hd : d.memWf) : d.waitingResets.memWf := .foldl hd (fun _ _ h2 => .ite (.beginReset (.modPart h2)) h2)

theorem reachActive (hd : d.memWf) : d.reachActive.memWf := .waitingResets (.raise (.setPstate hd))

theorem wakeDone (hd : d.memWf) {padHeld : Bool} {failed : List UnitId} : (d.wakeDone padHeld failed).memWf :=
  .ite hd (.ite (.reachActive (.selfRefresh hd)) (.ite (.raise (.setPstate (.selftest hd))) (.reachActive (.selfRefresh hd))))

theorem afterRelease (hd : d.memWf) : d.afterRelease.memWf :=
  .foldl (.selfRefresh (.setPstate hd)) (fun _ _ h3 => .ite (.trainLink h3) h3)

theorem stopAll (hd : d.memWf) : d.stopAll.memWf := .dropServing (.onHif (.upd (.foldl hd (fun _ _ h2 => .settleBuffer h2))))

theorem endUpdate (hd : d.memWf) {result : Nat} : (d.endUpdate result).memWf := by
  unfold Dev.endUpdate
  split
  · exact hd
  · exact .log (.setReg (.onGan hd))

theorem dropRails (hd : d.memWf) : d.dropRails.memWf := by
  have h1 : ((d.endUpdate 5).stopAll).memWf := .stopAll (.endUpdate hd)
  unfold Dev.dropRails
  generalize (d.endUpdate 5).stopAll = x at h1 ⊢
  exact .onHif (.foldl (.putF (.resetRegs (.upd (.cleared h1)))) fun _ _ h => .setReg h)

theorem shutdown (hd : d.memWf) : d.shutdown.memWf := .ite hd (.setPstate (.logNow (.dropRails hd)))

theorem supplySag (hd : d.memWf) : d.supplySag.memWf := .ite hd (.onPwr (.setPstate (.dropRails (.upd hd))))

theorem saveEnd (hd : d.memWf) : d.saveEnd.memWf := .ite hd (.onGan hd)

theorem thermalTrip (hd : d.memWf) {cause : Nat} {hot : List Nat} : (d.thermalTrip cause hot).memWf :=
  .ite hd (.ite (.onPwr hd) (.setPstate (.logNow (.onHif (.dropRails hd)))))

theorem clockSwitch (hd : d.memWf) : d.clockSwitch.memWf := hd

theorem writeClk (hd : d.memWf) {v : W64} : (d.writeClk v).memWf := .ite (.putF hd) (.blkErr hd)

theorem capLimit (hd : d.memWf) : d.capLimit.memWf := .ite (.onPwr hd) (.ite (.onPwr hd) hd)

theorem powerSample (hd : d.memWf) {package : Nat} {rails : List Nat} : (d.powerSample package rails).memWf :=
  .capLimit (.upd (.onPwr (.foldl (.putF (.putF (.onPwr hd))) (fun _ _ h5 => .putF h5))))

theorem learn (hd : d.memWf) {key obs : Nat} : (d.learn key obs).memWf := by
  unfold Dev.learn
  dsimp only
  split
  · exact .onPwr hd
  · exact .onPwr hd

theorem learnRun (hd : d.memWf) {key : Nat} {ks : List Nat} {start : Tab (Nat × Nat × Nat)} : (d.learnRun key ks start).memWf :=
  .foldl hd (fun _ _ h2 => .ite h2 (.learn h2))

theorem phaseUpdate (hd : d.memWf) {x : Cmd} : (d.phaseUpdate x).memWf := .learnRun hd

theorem runBegins (hd : d.memWf) {p : Nat} : (d.runBegins p).memWf := hd

theorem runEnds (hd : d.memWf) {p key : Nat} : (d.runEnds p key).memWf := .runBegins (.learnRun hd)

theorem noteFloor (hd : d.memWf) {k r : Nat} : (d.noteFloor k r).memWf :=
  .ite (.ite (.noteCause (.ite (.noteCause hd) hd)) (.ite (.noteCause hd) hd)) hd

theorem lowerBeat (hd : d.memWf) : d.lowerBeat.memWf := hd

theorem rateUpdate (hd : d.memWf) : d.rateUpdate.memWf :=
.foldl (.ite (.raise (.addF hd)) hd) (fun _ _ h3 => .noteFloor (.ite (.lowerBeat (.putF (.putF (.putF h3)))) (.putF (.putF
    (.putF h3)))))

theorem droop (hd : d.memWf) {k mv : Nat} : (d.droop k mv).memWf := .ite hd (.onPwr (.addF hd))

theorem droopHoldExpiry (hd : d.memWf) {k ns : Nat} : (d.droopHoldExpiry k ns).memWf :=
  .ite hd (.ite (.lowerBeat (.noteCause (.raise (.addF (.onPwr hd))))) (.onPwr hd))

theorem sectorClockOff (hd : d.memWf) {k : Nat} : (d.sectorClockOff k).memWf := .ite hd (.putF hd)

theorem sectorWake (hd : d.memWf) {k : Nat} : (d.sectorWake k).memWf := hd

theorem writePhaseSel (hd : d.memWf) {v : W64} : (d.writePhaseSel v).memWf := by
  unfold Dev.writePhaseSel
  dsimp only
  split
  · exact .setReg (.setReg (.ite (.onPwr hd) hd))
  · exact .setReg (.setReg (.ite (.onPwr hd) hd))

/-! ### Requests of the host -/

theorem unsupported (hd : d.memWf) {f : Nat} {nonPosted : Bool} : (d.unsupported f nonPosted).memWf :=
  .ite (.sendOut (.addF hd)) (.addF hd)

theorem received (hd : d.memWf) {f : Nat} {nonPosted : Bool} {k : Dev → Dev} (hk : ∀ e, e.memWf → (k e).memWf) :
    (d.received f nonPosted k).memWf :=
  .ite hd (.ite (.unsupported hd) (.ite hd (hk _ hd)))

/-! ### Libraries -/

theorem install (hd : d.memWf) {p : Nat} {l : Library} : (d.install p l).memWf :=
  .foldl hd (fun _ _ h2 => .setReg (.setReg (.modSect (.dropUnit h2))))

/-! ### Queues and starts -/

theorem queueWrite (hd : d.memWf) {f off : Nat} {data : List Byte} : (d.queueWrite f off data).memWf :=
.ite hd (.ite (.raise (.addF hd)) (.ite (.raise (.putF (.addF hd))) (.ite (.wakeSource (.rollF (.enqueue (.dropWords hd))))
    (.ite (.wakeSource (.rollF (.enqueue (.dropWords hd)))) (.rollF (.enqueue (.dropWords hd)))))))

theorem readDesc (hd : d.memWf) {eng : Engine} {h : Nat} : (d.readDesc eng h).1.memWf := by
  unfold Dev.readDesc
  split
  next he => exact fst he (.readVa hd)
  next he => exact fst he (.readVa hd)

theorem readDescs (hd : d.memWf) {eng : Engine} {t : Latched} {hs : List Nat} : (Dev.readDescs eng d t hs).1.memWf := by
  induction hs generalizing d t with
  | nil => exact hd
  | cons h hs ih =>
    unfold Dev.readDescs
    split
    next he => exact ih (fst he (.readDesc hd))
    next he => exact ih (fst he (.readDesc hd))

theorem latchAll (hd : d.memWf) {eng : Engine} {hs : List Nat} : (d.latchAll eng hs).1.memWf := .readDescs (.readDescs hd)

theorem readList (hd : d.memWf) {rc : Reach} {h n : Nat} : (d.readList rc h n).1.memWf := by
  unfold Dev.readList
  refine List.foldlRecOn (motive := fun x : StepRead × Except Fail (List Nat) => x.1.dev.memWf) _ _ hd fun x hx i _ => ?_
  split
  · exact hx
  · split
    next he => exact ofStep he (.stepListEntry hx)
    next he => exact ofStep he (.stepListEntry hx)

theorem scanLists (hd : d.memWf) {rc : Reach} {t : Tab (List Nat)} {hs : List Nat} : (Dev.scanLists rc d t hs).1.memWf := by
  induction hs generalizing d t with
  | nil => exact hd
  | cons h hs ih =>
    unfold Dev.scanLists
    dsimp only
    split
    next he => exact fst he (.readList hd)
    next he => exact .ite1 (fst he (.readList hd)) (ih (fst he (.readList hd)))

theorem checkWrites (hd : d.memWf) {rc : Reach} {hs : List Nat} : (Dev.checkWrites rc d hs).1.memWf := .ite1 hd (.scanLists hd)

theorem validate (hd : d.memWf) {eng : Engine} {hs writes : List Nat} {extra : Reach → Option Fail} :
    (d.validate eng hs writes extra).1.memWf := by
  unfold Dev.validate
  dsimp only
  split
  · exact .latchAll hd
  · split
    · exact .latchAll hd
    · split
      next he => exact fst he (.checkWrites (.latchAll hd))
      next he => exact fst he (.checkWrites (.latchAll hd))

theorem begin_ (hd : d.memWf) {x : Cmd} : (d.begin_ x).memWf := .foldl (.upd hd) (fun _ _ h3 => .sectorWake h3)

theorem refuseStart (hd : d.memWf) {x : Cmd} {status handle vaddr detail : Nat} :
    (d.refuseStart x status handle vaddr detail).memWf :=
  .finishRecord hd

theorem refuseHead (hd : d.memWf) {x : Cmd} {status handle vaddr detail : Nat} :
    (d.refuseHead x status handle vaddr detail).memWf :=
  .refuseStart (.popHead hd)

theorem startHead (hd : d.memWf) {x : Cmd} : (d.startHead x).memWf := .begin_ (.popHead hd)

theorem turn (hd : d.memWf) {q op : Nat} {needs : Dev → Cmd → List HostGran} : (d.turn q op needs).1.memWf := by
  unfold Dev.turn
  split
  · exact hd
  · exact .ite1 hd (.ite1 (.refuseHead (.readWord hd)) (.ite1 (.refuseHead (.readWord hd)) (.ite1 (.readWord hd) ((by
      split
      next he =>
        have h1 := fst he (.awaitGrans (.readWord hd))
        exact .refuseHead (.dropHeadReads h1)
      next he => exact fst he (.awaitGrans (.readWord hd))
      next he => exact fst he (.awaitGrans (.readWord hd)))))))

theorem takeHead (hd : d.memWf) {q op : Nat} {run : Dev → Cmd → Dev} (hrun : ∀ e x, e.memWf → (run e x).memWf) :
    (d.takeHead q op run).memWf := by
  unfold Dev.takeHead
  split
  next he => exact fst he (.turn hd)
  next he =>
    have h1 := fst he (.turn hd)
    exact hrun _ _ (.popHead h1)

theorem nop (hd : d.memWf) {q : Nat} : (d.nop q).memWf := .takeHead hd (fun _ _ h2 => .refuseStart h2)

theorem copyClosure (hd : d.memWf) {r : Rec} {ks : List Nat} : (d.copyClosure r ks).1.memWf := by
  unfold Dev.copyClosure
  exact .ite1 hd (.foldl1 hd (fun _ _ h2 => (by
    split
    · exact .readWords h2
    · exact h2)))

theorem zeroSlots (hd : d.memWf) {t : Nat} : (d.zeroSlots t).memWf := .setSlots hd (Memory.wf_clear hd.2.2.2.1 _ _)

theorem settleTile (hd : d.memWf) {t : Nat} : (d.settleTile t).memWf :=
  .ite hd (.dropUnit (.dropUnit (.dropUnit (.dropUnit hd))))

theorem startTiles (hd : d.memWf) {x : Cmd} : (d.startTiles x).memWf :=
  .foldl hd (fun _ _ h2 => .modTile (.zeroSlots (.settleTile h2)))

theorem checkProgram (hd : d.memWf) {x : Cmd} : (d.checkProgram x).1.memWf := by
  unfold Dev.checkProgram
  dsimp only
  split
  next he => exact fst he (.validate hd)
  next he =>
    have h1 := fst he (.validate hd)
    exact .ite1 h1 h1

theorem takeTiles (hd : d.memWf) {x : Cmd} {begun : Bool} : (d.takeTiles x begun).memWf := .ite (.modCmd hd) (.startHead hd)

theorem latchStart (hd : d.memWf) {x : Cmd} {begun : Bool} : (d.latchStart x begun).1.memWf := .ite1 hd (.readWord hd)

theorem runTiles (hd : d.memWf) {x : Cmd} : (d.runTiles x).memWf :=
  .ite (.fetchTrap (.copyClosure hd)) (.startTiles (.copyClosure hd))

theorem launch (hd : d.memWf) {x : Cmd} {checked begun : Bool} : (d.launch x checked begun).memWf := by
  unfold Dev.launch
  exact .ite (.recover (.takeTiles (.latchStart hd))) (.ite (.runTiles (.takeTiles (.latchStart hd))) ((by
    split
    next he =>
      have h1 := fst he (.checkProgram (.latchStart hd))
      exact .ite (.failCmd h1) (.refuseHead h1)
    next he =>
      have h2 := fst he (.checkProgram (.latchStart hd))
      exact .runTiles (.takeTiles h2))))

theorem enterProgram (hd : d.memWf) {x : Cmd} : (d.enterProgram x).memWf := by
  unfold Dev.enterProgram
  exact .ite (.launch hd) ((by
    split
    next he =>
      have h1 := fst he (.checkProgram hd)
      exact .refuseHead h1
    next he =>
      have h2 := fst he (.checkProgram hd)
      exact .ite (.refuseHead h2) (.upd h2)))

theorem programTurn (hd : d.memWf) {q op : Nat} {check : Dev → Cmd → Nat} : (d.programTurn q op check).memWf := by
  unfold Dev.programTurn
  dsimp only
  split
  next he => exact fst he (.turn hd)
  next he =>
    have h1 := fst he (.turn hd)
    exact .ite (.refuseHead h1) (.enterProgram h1)

theorem runProgram (hd : d.memWf) {q : Nat} : (d.runProgram q).memWf := .programTurn hd

theorem askHost (hd : d.memWf) {c func handle : Nat} {ps : List (Nat × Nat)} : (d.askHost c func handle ps).memWf :=
  .foldl hd (fun _ _ h2 => .sendRead h2)

theorem libLoad (hd : d.memWf) {q : Nat} : (d.libLoad q).memWf :=
  .takeHead hd (fun _ _ h2 => .ite (.refuseStart h2) (.askHost (.begin_ h2)))

theorem libLoadVerify (hd : d.memWf) {c : Nat} : (d.libLoadVerify c).memWf := by
  unfold Dev.libLoadVerify
  split
  · exact hd
  · exact .ite hd (.ite (.askHost (.modCmd hd)) ((by
      split
      next he =>
        have h1 := fst he (.readVa hd)
        exact .failCmd h1
      next he =>
        have h2 := fst he (.readVa hd)
        split
        next he =>
          have h3 := fst he (.readVa h2)
          exact .failCmd h3
        next he =>
          have h4 := fst he (.readVa h2)
          split
          · exact .ite (.cfgAsk (.install h4)) (.modCmd (.install h4))
          · exact .failCmd h4)))

theorem finishSerial (hd : d.memWf) {x : Cmd} : (d.finishSerial x).memWf := .ite hd (.addFlags hd)

theorem drainPart (hd : d.memWf) {p : Nat} : (d.drainPart p).memWf := .foldl hd (fun _ _ h2 => .drainAll h2)

theorem commandComplete (hd : d.memWf) {c : Nat} : (d.commandComplete c).memWf := by
  unfold Dev.commandComplete
  split
  · exact hd
  · exact .ite hd ((by
      dsimp only
      split
      · exact .drainPart (.finishSerial hd)
      · exact .endCmd (.leaveSectors (.phaseUpdate (.drainPart (.finishSerial hd))))))

theorem commandTimeout (hd : d.memWf) {c : Nat} : (d.commandTimeout c).memWf := by
  unfold Dev.commandTimeout
  split
  · exact hd
  · exact .ite hd (.ite (.ite hd (.ite hd (.endCmdWith (.dropStaged hd)))) (.abandon (.modCmd (.failCmd hd))))

theorem commandHang (hd : d.memWf) {c : Nat} {hung : List UnitId} : (d.commandHang c hung).memWf := by
  unfold Dev.commandHang
  split
  · exact hd
  · exact .ite hd (.beginReset (.endCmdWith (.leaveSectors (.drainPart (.finishSerial hd)))))

/-! ### COPY -/

theorem copyRead (hd : d.memWf) {rc : Reach} {h : Nat} {scales : Bool} {cs : List (List (List Int))} :
    (Dev.copyRead rc h scales d cs).1.memWf := by
  induction cs generalizing d with
  | nil => exact hd
  | cons c cs ih =>
    have h1 := stepElems (r := { dev := d }) hd (rc := rc) (h := h) (inTile := false) (scales := scales) (cs := c)
    unfold Dev.copyRead
    generalize StepRead.elems rc h false scales { dev := d } c = x at h1
    obtain ⟨r, es, f⟩ := x
    refine .ite1 h1 ?_
    cases f with
    | none => exact ih h1
    | some f => exact h1

theorem copyItems (hd : d.memWf) {rc : Reach} {r : Rec} {ix : List Nat} : (d.copyItems rc r ix).1.memWf := .copyRead hd

theorem copyPart (hd : d.memWf) {x : Cmd} {its : List Item} : (d.copyPart x its).memWf := .ite hd (.storePart hd)

theorem scribble (hd : d.memWf) {k n : Nat} : (d.scribble k n).memWf :=
  .foldl hd fun _ _ h => .upd (.setSram h (Memory.wf_sramWrite h.2.2.1 _ _ _))

theorem haltChannel (hd : d.memWf) {k c : Nat} : (d.haltChannel k c).memWf := .raise (.modReg hd)

theorem storeAliased (hd : d.memWf) {x : Cmd} {zs : List (List (Nat × Item))} : (Dev.storeAliased x d zs).memWf := by
  induction zs generalizing d with
  | nil => exact hd
  | cons z zs ih =>
    unfold Dev.storeAliased
    dsimp only
    split
    next he => exact ih (fst he (.storeItems (.upd hd)))
    next he => exact fst he (.storeItems (.upd hd))

theorem copyStore (hd : d.memWf) {x : Cmd} {its : List Item} : (d.copyStore x its).memWf := .ite (.storeAliased hd) (.store hd)

theorem copyMove (hd : d.memWf) {x : Cmd} : (d.copyMove x).memWf := by
  unfold Dev.copyMove
  dsimp only
  split
  next he =>
    have h1 := fst he (.descRegs hd)
    exact .failCmd h1
  next he =>
    have h2 := fst he (.descRegs hd)
    split
    · exact .failCmd (.copyPart (.ite (.scribble (.copyItems h2)) (.copyItems h2)))
    · exact .failCmd (.haltChannel (.copyPart (.ite (.scribble (.copyItems h2)) (.copyItems h2))))
    · exact .modCmd (.copyStore (.ite (.scribble (.copyItems h2)) (.copyItems h2)))

theorem checkCopy (hd : d.memWf) {x : Cmd} : (d.checkCopy x).1.memWf := by
  unfold Dev.checkCopy
  dsimp only
  split
  next he => exact fst he (.validate hd)
  next he =>
    have h1 := fst he (.validate hd)
    exact .ite1 h1 h1

theorem startCopy (hd : d.memWf) {x : Cmd} {begun : Bool} : (d.startCopy x begun).memWf := by
  unfold Dev.startCopy
  split
  next he =>
    have h1 := fst he (.checkCopy hd)
    exact .ite (.failCmd h1) (.refuseHead h1)
  next he =>
    have h2 := fst he (.checkCopy hd)
    exact .ite (.copyMove (.dropUnit (.ite (.modCmd h2) (.startHead h2)))) (.foldl (.dropUnit (.ite (.modCmd h2)
      (.startHead h2))) (fun _ _ h4 => .sendRead h4))

theorem copy (hd : d.memWf) {q : Nat} : (d.copy q).memWf := by
  unfold Dev.copy
  dsimp only
  split
  next he => exact fst he (.turn hd)
  next he =>
    have h1 := fst he (.turn hd)
    exact .ite (.refuseHead h1) (.startCopy h1)

/-! ### Admission -/

theorem setAnswer (hd : d.memWf) {f k : Nat} {a : Answer} : (d.setAnswer f k a).memWf := hd

theorem answerRead (hd : d.memWf) {f off len : Nat} : (d.answerRead f off len).memWf := hd

theorem refuseSub (hd : d.memWf) {f k : Nat} {p : Option Nat} {a : Answer} : (d.refuseSub f k p a).memWf := hd

theorem askTokens (hd : d.memWf) {k : Nat} : (d.askTokens k).memWf :=
  .ite (.foldl hd (fun _ _ h2 => .sendRead h2)) (.abortEntry (.foldl hd (fun _ _ h2 => .sendRead h2)))

theorem accept (hd : d.memWf) {f k p : Nat} {r : Rec} {c : Charge} {a : Answer} : (d.accept f k p r c a).memWf := by
  unfold Dev.accept
  split
  · exact hd
  · exact .askTokens (.setAnswer (.setReg (.addF (.ite (.setVersion (.onSrv (.putF (.setReg (.putF hd))))) (.onSrv (.putF
    (.setReg (.putF hd))))))))

theorem readSlotMeta (hd : d.memWf) {s : Nat} : (d.readSlotMeta s).memWf :=
  .ite (.readWord hd) (.ite (.recover (.readWord hd)) (.enterSlotState (.readWord hd)))

theorem readVersionMeta (hd : d.memWf) {v : Nat} : (d.readVersionMeta v).memWf := .ite (.recover (.readWord hd)) (.readWord hd)

theorem admitReq (hd : d.memWf) {f k : Nat} {r : Rec} : (d.admitReq f k r).memWf :=
.ite (.refuseSub (.ite (.readVersionMeta (.readSlotMeta hd)) (.readSlotMeta hd))) (.ite (.refuseSub (.ite (.readVersionMeta
    (.readSlotMeta hd)) (.readSlotMeta hd))) (.ite (.refuseSub (.ite (.readVersionMeta (.readSlotMeta hd)) (.readSlotMeta hd)))
    (.ite (.refuseSub (.ite (.readVersionMeta (.readSlotMeta hd)) (.readSlotMeta hd))) (.ite (.refuseSub (.ite (.readVersionMeta
    (.readSlotMeta hd)) (.readSlotMeta hd))) (.accept (.ite (.readVersionMeta (.readSlotMeta hd)) (.readSlotMeta hd)))))))

theorem cancelReq (hd : d.memWf) {f k : Nat} {r : Rec} : (d.cancelReq f k r).memWf :=
  .ite (.cancelEntry (.setAnswer hd)) (.setAnswer hd)

theorem windowWrite (hd : d.memWf) {f off : Nat} {data : List Byte} : (d.windowWrite f off data).memWf :=
.ite hd (.ite (.raise (.addF hd)) (.ite (.wakeSource (.ite (.cancelReq hd) (.admitReq hd))) (.ite (.cancelReq hd) (.admitReq
    hd))))

theorem submit (hd : d.memWf) {f off : Nat} {data : List Byte} : (d.submit f off data).memWf :=
  .received hd (fun _ h2 => .windowWrite h2)

theorem cancel (hd : d.memWf) {f off : Nat} {data : List Byte} : (d.cancel f off data).memWf :=
  .received hd (fun _ h2 => .windowWrite h2)

theorem writeRtSel (hd : d.memWf) {f : Nat} {v : W64} : (d.writeRtSel f v).memWf := hd

/-! ### Key-value pages, the tree of prompts and set-up -/

theorem dmaRead (hd : d.memWf) {eng : Engine} {pkey va n : Nat} : (d.dmaRead eng pkey va n).1.memWf := by
  unfold Dev.dmaRead
  exact .foldl1 hd (fun _ _ h2 => (by
    split
    · exact h2
    · split
      next he => exact fst he (.xlate h2)
      next he =>
        have h1 := fst he (.xlate h2)
        exact .readBy h1))

theorem dmaMove (hd : d.memWf) {eng : Engine} {c : Option Nat} {pkey src dst n : Nat} :
    (d.dmaMove eng c pkey src dst n).1.memWf := by
  unfold Dev.dmaMove
  exact .foldl1 hd (fun _ _ h2 => (by
    split
    · exact h2
    · split
      next he => exact fst he (.dmaRead h2)
      next he =>
        have h1 := fst he (.dmaRead h2)
        split
        next he => exact fst he (.xlate h1)
        next he =>
          have h3 := fst he (.xlate h1)
          exact .writeBy h3))

theorem dmaOutcome (hd : d.memWf) {n k st : Nat} : (d.dmaOutcome n k st).1.memWf :=
  .ite1 hd (.abortEntry (.ite (.haltChannel hd) hd))

theorem allocBlock (hd : d.memWf) {k : Nat} : (d.allocBlock k).1.memWf := by
  unfold Dev.allocBlock
  dsimp only
  split
  · exact hd
  · exact .modEntry (.onSrv (.upd hd))

theorem setPlist (hd : d.memWf) {k i : Nat} {g : PageEnt} : (d.setPlist k i g).memWf := .modEntry (.writeVa hd)

theorem growTo (hd : d.memWf) {k e n : Nat} : (Dev.growTo k d e n).1.memWf := by
  induction k generalizing d with
  | zero => exact hd
  | succ k ih =>
    have h1 : (if (d.entry e).plist.length % (d.tokb (d.entry e).slot / 256) = 0 ∨ (d.entry e).earmark.isEmpty then d.allocBlock e
      else (d, true)).1.memWf := .ite1 (.allocBlock hd) hd
    unfold Dev.growTo
    dsimp only
    refine .ite1 hd ?_
    split
    · exact ih (.setPlist (.modEntry h1))
    · exact h1

theorem reachRows (hd : d.memWf) {k rows : Nat} : (d.reachRows k rows).1.memWf := .growTo hd

theorem markBad (hd : d.memWf) {n : Nat} : (d.markBad n).memWf := by
  unfold Dev.markBad
  dsimp only
  split
  · exact .ite (.evictNode (.onSrv hd)) (.onSrv hd)
  · exact .onSrv hd

theorem badNode (hd : d.memWf) {n : Nat} : (d.badNode n).memWf := .markBad (.foldl hd (fun _ _ h2 => .abortEntry h2))

theorem refNode (hd : d.memWf) {n : Nat} : (d.refNode n).memWf := hd

theorem shareNode (hd : d.memWf) {k b n : Nat} {pages : List Nat} : (d.shareNode k b n pages).memWf :=
  .foldl (.modEntry (.refNode hd)) (fun _ _ h3 => .setPlist h3)

theorem prefixWalk (hd : d.memWf) {k e b : Nat} {parent : Option Nat} {pkey : W64} :
    (Dev.prefixWalk k d e b parent pkey).1.memWf := by
  induction k generalizing d b parent pkey with
  | zero => exact hd
  | succ k ih =>
    unfold Dev.prefixWalk
    dsimp only
    refine .ite1 hd ?_
    split
    · exact .ite1 (.addF (.badNode (.readWord hd))) (ih (.shareNode (.addF (.readWord hd))))
    · exact .addF (.ite (.addF hd) hd)

theorem copyOnWrite (hd : d.memWf) {e b k : Nat} : (d.copyOnWrite e b k).1.memWf := by
  unfold Dev.copyOnWrite
  split
  · exact hd
  · split
    next hr =>
      have h1 := fst hr (.reachRows hd)
      refine .ite1 h1 ?_
      extract_lets d1 eng dst
      split
      next hf =>
        have h2 := fst hf (.foldl1 (.addF (.refNode h1)) fun x i hx => by
          split
          next he => exact fst he (.dmaMove hx)
          next he => exact fst he (.dmaMove hx))
        extract_lets d2
        split
        next hg => exact fst hg (.dmaOutcome (.unrefNode h2))

theorem treeRoom (hd : d.memWf) {k p h : Nat} : (Dev.treeRoom k d p h).1.memWf := by
  induction k generalizing d with
  | zero => exact hd
  | succ k ih =>
    unfold Dev.treeRoom
    refine .ite1 hd ?_
    split
    · exact hd
    · exact ih (.evictNode hd)

theorem publish (hd : d.memWf) {e b : Nat} : (d.publish e b).memWf := by
  unfold Dev.publish
  refine .ite hd (.ite hd ?_)
  split
  next he =>
    have h1 := fst he (.treeRoom hd)
    refine .ite h1 (.modEntry (.creditPool (.foldl ?_ fun _ _ h => .setPlist h)))
    split
    · exact .onSrv (.onSrv (.upd h1))
    · exact .onSrv (.upd h1)

theorem publishFull (hd : d.memWf) {k was : Nat} : (d.publishFull k was).memWf := .foldl hd (fun _ _ h2 => .publish h2)

theorem flush (hd : d.memWf) {p : Nat} : (d.flush p).memWf := .flushTree hd

theorem landSetup (hd : d.memWf) {home : Nat} {bs : List Byte} : (d.landSetup home bs).memWf :=
  .foldl hd fun _ _ h => .setSram h (Memory.wf_sramWrite h.2.2.1 _ _ _)

theorem refund (hd : d.memWf) {k hits : Nat} : (d.refund k hits).memWf := .ite hd (.modEntry (.creditPool hd))

theorem finishSetup (hd : d.memWf) {n k : Nat} {ts : List W32} : (d.finishSetup n k ts).memWf :=
.ite (.ite1 (.copyOnWrite (.refund (.ite1 (.prefixWalk (.modEntry hd)) (.modEntry hd)))) (.refund (.ite1 (.prefixWalk (.modEntry
    hd)) (.modEntry hd)))) (.modEntry (.growTo (.ite1 (.copyOnWrite (.refund (.ite1 (.prefixWalk (.modEntry hd)) (.modEntry
    hd)))) (.refund (.ite1 (.prefixWalk (.modEntry hd)) (.modEntry hd))))))

theorem setupDone (hd : d.memWf) {k : Nat} : (d.setupDone k).memWf := by
  unfold Dev.setupDone
  exact .ite hd ((by
    split
    · exact hd
    · split
      next he =>
        have h1 := fst he (.dmaRead hd)
        exact .abortEntry h1
      next he =>
        have h2 := fst he (.dmaRead hd)
        exact .ite (.dmaOutcome h2) (.finishSetup (.landSetup (.dmaOutcome h2)))))

/-! ### Delta products -/

theorem modelBytes (hd : d.memWf) {p va n : Nat} : (d.modelBytes p va n).1.memWf := by
  unfold Dev.modelBytes
  exact .foldl1 hd (fun _ _ h2 => (by
    dsimp only
    split
    · exact h2
    · exact .readBy h2))

theorem blocksFor (hd : d.memWf) {v m n : Nat} : (d.blocksFor v m n).1.memWf :=
  .foldl1 hd fun x i hx => by
    dsimp only
    refine .ite1 ?_ ?_
    · exact modelBytes hx
    · exact modelBytes (modelBytes hx)

theorem runProducts (hd : d.memWf) {k : Nat} {zs : List DenseProd} : (d.runProducts k zs).1.memWf :=
  .foldl1 hd (fun _ _ h2 => .ite (.upd (.ite1 (.blocksFor h2) h2)) (.writeVa (.upd (.ite1 (.blocksFor h2) h2))))

/-! ### Serving cycles -/

theorem writeKvDescs (hd : d.memWf) {k i attended new first : Nat} : (d.writeKvDescs k i attended new first).memWf :=
  .writeVa hd

theorem readScores (hd : d.memWf) {e n : Nat} : (d.readScores e n).1.memWf := by
  unfold Dev.readScores
  refine .foldl1 hd fun x i hx => ?_
  split
  · exact hx
  · split
    next he => exact fst he (.dmaRead hx)
    next he => exact fst he (.dmaRead hx)

theorem writeScore (hd : d.memWf) {k i : Nat} {score : Option W32} {pos : Nat} : (d.writeScore k i score pos).memWf := by
  unfold Dev.writeScore
  exact .writeVa ((by
    split
    · exact .writeVa hd
    · exact hd))

theorem m4Slot (hd : d.memWf) {e : Nat} : (d.m4Slot e).1.memWf := by
  unfold Dev.m4Slot
  have hw : ∀ {d : Dev} {i : Nat} {s : Option W32} {n : Nat}, d.memWf → (d.writeScore e i s n).memWf := (.writeScore ·)
  generalize Dev.writeScore = f at hw ⊢
  dsimp only
  split
  · exact hw hd
  · split
    next he => exact .abortEntry (fst he (.readScores hd))
    next he =>
      have h1 := fst he (.readScores hd)
      split
      · exact h1
      · exact hw h1

theorem m4Evict (hd : d.memWf) {n k : Nat} : (d.m4Evict n k).1.memWf := by
  unfold Dev.m4Evict
  exact .ite1 hd ((by
    split
    next he =>
      have h1 := fst he (.readScores hd)
      exact .abortEntry h1
    next he =>
      have h2 := fst he (.readScores hd)
      exact .dmaOutcome (.foldl1 h2 (fun _ _ h3 => .ite1 h3 ((by
        split
        next he => exact fst he (.dmaMove h3)
        next he => exact fst he (.dmaMove h3)))))))

theorem readyFold (hd : d.memWf) {p : Nat} : (d.readyFold p).memWf := .ite hd (.onSrv hd)

theorem servingCycle (hd : d.memWf) {p : Nat} : (d.servingCycle p).memWf :=
  .ite hd (.readyFold (.onSrv (.runBegins (.foldl hd (fun _ _ h2 => .sectorWake h2)))))

theorem coltAdapt (hd : d.memWf) {i n k : Nat} : (d.coltAdapt i n k).memWf :=
  .ite hd (.ite (.modEntry (.addF (.addF hd))) (.ite (.addF (.modEntry (.addF (.addF hd)))) (.modEntry (.addF (.addF hd)))))

theorem poisonStep (hd : d.memWf) {k : Nat} : (d.poisonStep k).memWf := .abortEntry (.foldl hd (fun _ _ h2 => .markBad h2))

theorem programWrites (hd : d.memWf) {p : Nat} {ws : List (Nat × List Byte)} : (d.programWrites p ws).memWf :=
  .foldl hd (fun _ _ h2 => .writeVa h2)

theorem produce (hd : d.memWf) {k : Nat} {ts : List W32} {fl : Byte} : (d.produce k ts fl).memWf := hd

theorem readyBatch (hd : d.memWf) {es : List Nat} {rows : Entry → Nat} : (d.readyBatch es rows).1.memWf :=
  .foldl1 hd (fun _ _ h2 => .ite1 (.recover (.readWord h2)) (.reachRows (.readWord h2)))

theorem beforeStep (hd : d.memWf) {k i : Nat} : (d.beforeStep k i).memWf :=
  .ite (.ite (.writeKvDescs (.m4Slot hd)) (.m4Slot hd)) (.writeKvDescs hd)

theorem afterStep (hd : d.memWf) {r : StepResult} : (d.afterStep r).memWf :=
  .ite hd (.ite (.poisonStep hd) (.publishFull (.modEntry (.coltAdapt (.produce hd)))))

theorem stepWrites (hd : d.memWf) {p : Nat} {rs : List StepResult} : (d.stepWrites p rs).1.memWf := by
  induction rs generalizing d with
  | nil => exact hd
  | cons r rs ih =>
    unfold Dev.stepWrites
    exact ih (.runProducts (.programWrites hd))

theorem finishStep (hd : d.memWf) {p s : Nat} {rs : List StepResult} : (d.finishStep p s rs).memWf :=
  .onSrv (.foldl hd (fun _ _ h2 => .afterStep h2))

theorem keepRun (hd : d.memWf) {p : Nat} {x : FoldRun} : (d.keepRun p x).memWf := hd

theorem rerun (hd : d.memWf) {p : Nat} : (d.rerun p).memWf := hd

theorem latchRc (hd : d.memWf) {p : Nat} {rc : List Nat} : (d.latchRc p rc).memWf := hd

theorem decodeStep (hd : d.memWf) {p s : Nat} {rs : List StepResult} : (d.decodeStep p s rs).memWf :=
.ite hd (.ite hd (.ite (.finishStep (.runEnds (.stepWrites (.foldl (.latchRc (.readyBatch hd)) (fun _ _ h3 => .beforeStep
    h3))))) (.ite (.keepRun (.runEnds (.stepWrites (.foldl (.latchRc (.readyBatch hd)) (fun _ _ h3 => .beforeStep h3)))))
    (.rerun (.runEnds (.stepWrites (.foldl (.latchRc (.readyBatch hd)) (fun _ _ h3 => .beforeStep h3))))))))

theorem afterSlice (hd : d.memWf) {r : SliceResult} : (d.afterSlice r).memWf := by
  unfold Dev.afterSlice
  exact .ite hd (.ite (.poisonStep hd) (.ite (.publishFull (.modEntry hd)) ((by
    split
    · exact .publishFull (.modEntry hd)
    · exact .ite (.m4Evict (.publishFull (.modEntry hd))) (.produce (.m4Evict (.publishFull (.modEntry hd))))))))

theorem endCycle (hd : d.memWf) {p : Nat} : (d.endCycle p).memWf := .onSrv (.foldl hd (fun _ _ h2 => .modSect h2))

theorem sliceWrites (hd : d.memWf) {p : Nat} {rs : List SliceResult} : (d.sliceWrites p rs).1.memWf := by
  induction rs generalizing d with
  | nil => exact hd
  | cons r rs ih =>
    unfold Dev.sliceWrites
    exact ih (.runProducts (.programWrites hd))

theorem finishSlice (hd : d.memWf) {p : Nat} {rs : List SliceResult} : (d.finishSlice p rs).memWf :=
  .endCycle (.foldl hd (fun _ _ h2 => .afterSlice h2))

theorem prefillSlice (hd : d.memWf) {p : Nat} {rs : List SliceResult} : (d.prefillSlice p rs).memWf := by
  unfold Dev.prefillSlice
  refine .ite hd ?_
  extract_lets rowsOf
  split
  next key _ _ _ hb =>
    have h1 := fst hb (.readyBatch hd)
    clear_value key
    refine .ite hd ?_
    extract_lets d2
    have h2 : d2.memWf := .foldl (.latchRc h1) fun _ _ h => .writeKvDescs (.ite (.foldl h fun _ _ h => .writeScore h) h)
    split
    next hs =>
      have h3 := fst hs (.sliceWrites h2)
      extract_lets d4
      have h4 : d4.memWf := by
        unfold d4
        split
        · exact h3
        · exact .runEnds h3
      exact .ite (.finishSlice h4) (.ite (.keepRun h4) (.rerun h4))

theorem settleRuns (hd : d.memWf) : d.settleRuns.memWf := by
  unfold Dev.settleRuns
  exact .foldl hd (fun _ _ h2 => .ite (.onSrv h2) ((by
    split
    · exact .finishStep (.onSrv h2)
    · exact .finishSlice (.onSrv h2))))

theorem tokenHandover (hd : d.memWf) {k : Nat} : (d.tokenHandover k).memWf := by
  unfold Dev.tokenHandover
  dsimp only
  split
  · exact hd
  · exact .ite (.handedOver (.modEntry (.upd (.ite1 (.entryWord hd) hd)))) (.modEntry (.upd (.ite1 (.entryWord hd) hd)))

theorem requestRecordWrite (hd : d.memWf) {k : Nat} : (d.requestRecordWrite k).memWf := by
  unfold Dev.requestRecordWrite
  split
  · exact hd
  · exact .issueRecord hd

/-! ### Models and deltas -/

theorem doneAtStart (hd : d.memWf) {x : Cmd} : (d.doneAtStart x).memWf := .refuseStart hd

theorem loadPartly (hd : d.memWf) {eng : Engine} {c pkey src dst n : Nat} : (d.loadPartly eng c pkey src dst n).memWf :=
  .upd (.dmaMove (.upd hd))

theorem loadCopy (hd : d.memWf) {eng : Engine} {c pkey src dst n : Nat} : (d.loadCopy eng c pkey src dst n).1.memWf := by
  unfold Dev.loadCopy
  split
  next he =>
    have h1 := fst he (.dmaRead hd)
    exact .failCmd (.loadPartly h1)
  next he =>
    have h2 := fst he (.dmaRead hd)
    exact .ite1 (.failCmd (.haltChannel (.loadPartly h2))) ((by
      split
      next he =>
        have h3 := fst he (.dmaMove hd)
        exact .failCmd (.loadPartly h2)
      next he => exact fst he (.dmaMove hd)))

theorem finishLoad (hd : d.memWf) {c : Nat} : (d.finishLoad c).memWf := hd

theorem freeVersionsOf (hd : d.memWf) {s : Nat} : (d.freeVersionsOf s).memWf := .foldl hd (fun _ _ h2 => .freeVersion h2)

theorem modelLoad (hd : d.memWf) {q : Nat} : (d.modelLoad q).memWf := by
  unfold Dev.modelLoad
  exact .takeHead hd (fun _ _ h2 => (by
    dsimp only
    split
    · exact .refuseStart (.ite (.readSlotMeta h2) h2)
    · exact .askHost (.begin_ (.enterSlotState (.ite (.enterSlotState (.freeVersionsOf (.enterEvicting (.ite (.readSlotMeta h2)
      h2)))) (.ite (.readSlotMeta h2) h2))))))

theorem slotReady (hd : d.memWf) {s : Nat} {r : Rec} : (d.slotReady s r).memWf := by
  unfold Dev.slotReady
  exact .enterSlotState (.setReg (.setReg (.setReg (.setReg (.setReg (.setReg (.setReg (.putF (.putF (.putF hd))))))))))

theorem modelLoadCheck (hd : d.memWf) {c : Nat} : (d.modelLoadCheck c).memWf := by
  unfold Dev.modelLoadCheck
  split
  · exact hd
  · exact .ite hd ((by
      dsimp only
      split
      next he =>
        have h1 := fst he (.loadCopy hd)
        exact .finishLoad h1
      next he =>
        have h2 := fst he (.loadCopy hd)
        exact .ite (.finishLoad (.failCmd h2)) (.finishLoad (.slotReady h2))))

theorem modelEvict (hd : d.memWf) {q : Nat} : (d.modelEvict q).memWf :=
.takeHead hd (fun _ _ h2 => .ite (.refuseStart (.readSlotMeta h2)) (.doneAtStart (.ite (.enterEvicting (.readSlotMeta h2))
    (.enterSlotState (.readSlotMeta h2)))))

theorem slotEvicted (hd : d.memWf) {s : Nat} : (d.slotEvicted s).memWf :=
  .ite hd (.enterSlotState (.freeVersionsOf (.discardNodes hd)))

theorem goLive (hd : d.memWf) {v : Nat} {old : Option Nat} : (d.goLive v old).memWf :=
  .ite (.ite (.freeVersion (.onSrv (.setVersion hd))) (.setVersion (.onSrv (.setVersion hd)))) (.onSrv (.setVersion hd))

theorem deltaPut (hd : d.memWf) {q : Nat} : (d.deltaPut q).memWf :=
.takeHead hd (fun _ _ h2 => .ite (.refuseStart (.readVersionMeta (.readSlotMeta h2))) (.ite (.doneAtStart (.goLive
    (.readVersionMeta (.readSlotMeta h2)))) (.askHost (.begin_ (.setVersion (.readVersionMeta (.readSlotMeta h2)))))))

theorem deltaPutCheck (hd : d.memWf) {c : Nat} : (d.deltaPutCheck c).memWf := by
  unfold Dev.deltaPutCheck
  split
  · exact hd
  · exact .ite hd ((by
      dsimp only
      split
      next he =>
        have h1 := fst he (.loadCopy hd)
        exact .finishLoad h1
      next he =>
        have h2 := fst he (.loadCopy hd)
        exact .ite (.finishLoad h2) (.ite (.finishLoad (.failCmd h2)) (.finishLoad (.ite (.goLive (.setVersion h2))
          (.setVersion h2))))))

theorem deltaRetire (hd : d.memWf) {q : Nat} : (d.deltaRetire q).memWf :=
.takeHead hd (fun _ _ h2 => .ite (.refuseStart (.readVersionMeta (.readSlotMeta h2))) (.ite (.refuseStart (.readVersionMeta
    (.readSlotMeta h2))) (.ite (.doneAtStart (.freeVersion (.readVersionMeta (.readSlotMeta h2)))) (.doneAtStart (.ite
    (.freeVersion (.ite (.onSrv (.readVersionMeta (.readSlotMeta h2))) (.readVersionMeta (.readSlotMeta h2)))) (.setVersion
    (.ite (.onSrv (.readVersionMeta (.readSlotMeta h2))) (.readVersionMeta (.readSlotMeta h2)))))))))

theorem adaptStep (hd : d.memWf) {q : Nat} : (d.adaptStep q).memWf := .programTurn (.ite (.readVersionMeta hd) hd)

theorem writeDeltaSel (hd : d.memWf) {f : Nat} {v : W64} : (d.writeDeltaSel f v).memWf := .onSrv (.readVersionMeta hd)

/-! ### Stack controllers -/

theorem setBucket (hd : d.memWf) {p : Nat} {b : Bucket} : (d.setBucket p b).memWf := hd

theorem meterRead (hd : d.memWf) {p n : Nat} : (d.meterRead p n).1.memWf := .ite1 hd (.setBucket hd)

theorem meterWrite (hd : d.memWf) {p n : Nat} : (d.meterWrite p n).memWf := .ite hd (.addF (.setBucket hd))

theorem settleBucket (hd : d.memWf) {p : Nat} : (d.settleBucket p).memWf := .ite (.setBucket hd) hd

theorem issueBar4 (hd : d.memWf) {fuel : Nat} : (d.issueBar4 fuel).memWf := by
  induction fuel generalizing d with
  | zero => exact hd
  | succ fuel ih =>
    unfold Dev.issueBar4
    dsimp only
    split
    · exact hd
    · exact ih (.ite (.setQueued (.onHif hd)) (.serve (.onHif hd)))

theorem bar4Arrive (hd : d.memWf) {as : List Access} : (d.bar4Arrive as).memWf := .issueBar4 (.onHif hd)

theorem bar4Read (hd : d.memWf) {f off len : Nat} : (d.bar4Read f off len).memWf := by
  unfold Dev.bar4Read
  split
  · exact .sendOut (.blkErr hd)
  · exact .ite (.sendOut (.blkErr hd)) (.bar4Arrive (.meterRead hd))

theorem bar4Write (hd : d.memWf) {f off : Nat} {data : List Byte} : (d.bar4Write f off data).memWf := by
  unfold Dev.bar4Write
  split
  · exact .blkErr hd
  · exact .ite (.blkErr hd) (.bar4Arrive (.meterWrite hd))

theorem serviceWindow (hd : d.memWf) {n p : Nat} : (d.serviceWindow n p).memWf :=
  .issueBar4 (.foldl (.setQueued (.addF hd)) (fun _ _ h4 => .serve (.noteWait h4)))

theorem writeWinWait (hd : d.memWf) {n : Nat} {v : W64} : (d.writeWinWait n v).memWf := .ite (.setReg hd) hd

theorem writeTempMax (hd : d.memWf) {n : Nat} {v : W64} : (d.writeTempMax n v).memWf := .ite (.putF hd) hd

theorem checkLap (hd : d.memWf) {n : Nat} : (d.checkLap n).memWf := .ite (.raise (.modStack hd)) hd

theorem refreshPeriod (hd : d.memWf) {n p : Nat} : (d.refreshPeriod n p).memWf := .ite hd (.checkLap (.modStack hd))

theorem passEnds (hd : d.memWf) {n p : Nat} : (d.passEnds n p).memWf :=
  .ite (.modStack hd) (.raise (.addF (.setReg (.modStack hd))))

theorem scrubGranule (hd : d.memWf) {g : Nat} : (d.scrubGranule g).memWf := by
  have h1 : (d.readGran 6 g).1.memWf := .readGran hd
  exact .ite hd (.ite (.ifFailed h1) (.ite (.addF h1) (.ite (.addF (.setStk h1 (Memory.wf_setFlag h1.1 _ _))) h1)))

theorem scrubStep (hd : d.memWf) {n p : Nat} : (d.scrubStep n p).memWf :=
.ite (.checkLap hd) (.checkLap (.ite (.modStack (.ite (.checkBitmap hd) (.scrubGranule (.checkBitmap hd)))) (.passEnds
    (.modStack (.ite (.checkBitmap hd) (.scrubGranule (.checkBitmap hd)))))))

theorem bitmapClearDone (hd : d.memWf) {n : Nat} : (d.bitmapClearDone n).memWf :=
  .ite hd (.stackReady (.modStack (.dropUnit (.setStk hd (Memory.wf_clear hd.1 _ _)))))

theorem stackRetrainDone (hd : d.memWf) {n : Nat} : (d.stackRetrainDone n).memWf := .ite (.stackReady (.modStack hd)) hd

/-! ### Links and time -/

theorem onFab (hd : d.memWf) {f : Fab → Fab} : (d.onFab f).memWf := hd

theorem setLink (hd : d.memWf) {i st : Nat} : (d.setLink i st).memWf := hd

theorem sendLink (hd : d.memWf) {i : Nat} {m : LinkMsg} : (d.sendLink i m).memWf := hd

theorem sendAll (hd : d.memWf) {m : LinkMsg} : (d.sendAll m).memWf := .foldl hd (fun _ _ h2 => .sendLink h2)

theorem forget (hd : d.memWf) {i : Nat} : (d.forget i).memWf := hd

theorem fence (hd : d.memWf) {i : Nat} : (d.fence i).memWf := .raise (.setLink hd)

theorem train (hd : d.memWf) {i : Nat} : (d.train i).memWf := hd

theorem sendNotices (hd : d.memWf) : d.sendNotices.memWf := .foldl (.onFab hd) (fun _ _ h3 => .sendAll h3)

theorem notify (hd : d.memWf) {fid link : Nat} {w : Rec} : (d.notify fid link w).memWf :=
  .ite hd (.sendNotices (.putF (.onFab hd)))

theorem goDown (hd : d.memWf) {i reason : Nat} : (d.goDown i reason).memWf :=
  .ite (.notify (.raise (.forget (.putF (.setLink (.stampLink hd)))))) (.raise (.forget (.putF (.setLink (.stampLink hd)))))

theorem retireLink (hd : d.memWf) {i : Nat} : (d.retireLink i).memWf :=
  .ite hd (.ite (.raise (.forget (.setUnit (.setLink hd)))) (.cfgAsk (.forget (.setUnit (.setLink hd)))))

theorem writeLinkCtrl (hd : d.memWf) {i : Nat} {v : W64} : (d.writeLinkCtrl i v).memWf :=
.ite (.ite (.retireLink (.putF hd)) hd) (.ite (.forget (.disableLink (.putF (.ite (.retireLink (.putF hd)) hd)))) (.ite (.train
    (.putF (.ite (.retireLink (.putF hd)) hd))) (.putF (.ite (.retireLink (.putF hd)) hd))))

theorem linkRetry (hd : d.memWf) {i : Nat} : (d.linkRetry i).memWf := .ite (.train hd) hd

theorem linkTrained (hd : d.memWf) {i : Nat} {p : PeerIdent} : (d.linkTrained i p).memWf :=
.ite hd (.ite (.goDown (.putF (.putF hd))) (.ite (.goDown (.putF (.putF hd))) (.fence (.forget (.setReg (.setReg (.putF (.putF
    hd))))))))

theorem trainTimeout (hd : d.memWf) {i : Nat} : (d.trainTimeout i).memWf := .ite (.goDown hd) hd

theorem laneLoss (hd : d.memWf) {i lane : Nat} : (d.laneLoss i lane).memWf := .ite hd (.goDown (.putF hd))

theorem fecLimit (hd : d.memWf) {i corrected n : Nat} : (d.fecLimit i corrected n).memWf :=
  .ite hd (.ite (.goDown (.addF (.addF hd))) (.addF (.addF hd)))

theorem takeWord (hd : d.memWf) {i version : Nat} {k : Dev → Dev} (hk : ∀ e, e.memWf → (k e).memWf) :
    (d.takeWord i version k).memWf :=
  .ite hd (.ite (.addF hd) (hk _ hd))

theorem notice (hd : d.memWf) {i : Nat} {w : Rec} : (d.notice i w).memWf :=
  .takeWord hd (fun _ h2 => .foldl (.notify h2) (fun _ _ h3 => .goDown h3))

theorem ganderLinkMessage (hd : d.memWf) {i : Nat} : (d.ganderLinkMessage i).memWf := .ite (.wakeSource hd) hd

theorem showTime (hd : d.memWf) : d.showTime.memWf := by
  unfold Dev.showTime
  exact .ite (.putF (.setReg (.setReg hd))) ((by
    split
    · exact .putF (.setReg hd)
    · exact .putF (.setReg (.setReg hd))))

theorem gridBeats (hd : d.memWf) : d.gridBeats.memWf := .ite hd (.onFab hd)

theorem stepBy (hd : d.memWf) {s : Int} : (d.stepBy s).memWf := hd

theorem timeStep (hd : d.memWf) : d.timeStep.memWf := by
  unfold Dev.timeStep
  split
  · exact hd
  · exact .ite hd (.ite (.onFab hd) (.raise (.gridBeats (.stepBy (.onFab hd)))))

theorem hearRoot (hd : d.memWf) {root : Nat} : (d.hearRoot root).memWf :=
  .ite (.putF (.onFab (.putF (.onFab hd)))) (.putF (.onFab hd))

theorem bend (hd : d.memWf) {i : Nat} {w : Rec} {at256 : Nat} : (d.bend i w at256).memWf :=
  .takeWord hd (fun _ h2 => .showTime (.timeStep (.ite (.hearRoot (.onFab h2)) (.onFab h2))))

theorem rootTimeout (hd : d.memWf) : d.rootTimeout.memWf := .ite (.showTime (.putF (.putF hd))) hd

theorem timeLost (hd : d.memWf) : d.timeLost.memWf := .ite hd (.raise (.showTime (.putF (.onFab hd))))

theorem slewBeat (hd : d.memWf) : d.slewBeat.memWf := by
  unfold Dev.slewBeat
  split
  · exact hd
  · exact .ite hd (.onFab (.upd hd))

/-! ### Beats and epochs -/

theorem sendPace (hd : d.memWf) : d.sendPace.memWf := .ite hd (.sendAll (.onFab hd))

theorem flushPace (hd : d.memWf) : d.flushPace.memWf := .ite (.sendPace hd) hd

theorem mergePace (hd : d.memWf) {p : Pace} : (d.mergePace p).memWf := .ite hd (.flushPace (.onFab hd))

theorem paceWord (hd : d.memWf) {i : Nat} {w : BitVec 1024} : (d.paceWord i w).memWf :=
  .takeWord hd (fun _ h2 => .ite (.mergePace h2) h2)

theorem beginPace (hd : d.memWf) : d.beginPace.memWf := .sendPace (.onFab (.ite hd (.setReg hd)))

theorem readSlot (hd : d.memWf) {e : SlotEnt} : (d.readSlot e).1.memWf := by
  unfold Dev.readSlot
  refine .foldl1 hd fun x i hx => ?_
  obtain ⟨d', gs, bad⟩ := x
  dsimp only
  split
  next he => exact fst he (.xlate hx)
  next he => exact .readBy (fst he (.xlate hx))

theorem beginSlots (hd : d.memWf) : d.beginSlots.memWf := by
  unfold Dev.beginSlots
  refine .onFab (.foldl1 (f := fun (acc : Dev × List TxSlot) e => _) hd fun x e hx => ?_)
  obtain ⟨d', ts⟩ := x
  exact .ite1 hx (.readSlot hx)

theorem notifyTile (hd : d.memWf) {x : SlotEnt} : (d.notifyTile x).memWf := .ite hd (.modTile hd)

theorem notifyRx (hd : d.memWf) {table : List SlotEnt} {bends : Tab Rec} {i : Option Nat} {rx : List RxSlot} :
    (d.notifyRx table bends i rx).1.memWf :=
  .foldl1 hd (fun _ _ h2 => .ite1 (.notifyTile h2) h2)

theorem bendDeadline (hd : d.memWf) {i : Nat} : (d.bendDeadline i).memWf :=
.ite hd (.ite (.onFab (.notifyRx (.onFab hd))) (.mergePace (.ite (.goDown (.raise (.addF (.addF (.onFab (.notifyRx (.onFab
    hd))))))) (.raise (.addF (.addF (.onFab (.notifyRx (.onFab hd)))))))))

theorem slotFault (hd : d.memWf) {n : Nat} : (d.slotFault n).memWf := .raise (.putF (.addF hd))

theorem slotTx (hd : d.memWf) {n : Nat} : (d.slotTx n).memWf := by
  unfold Dev.slotTx
  split
  · exact hd
  · exact .ite hd (.sendLink (.onFab (.ite (.slotFault (.readWord hd)) (.readWord hd))))

theorem rxPlaces (hd : d.memWf) {x : SlotEnt} : (d.rxPlaces x).1.memWf := by
  unfold Dev.rxPlaces
  exact .foldl1 hd (fun _ _ h2 => (by
    split
    next he => exact fst he (.xlate h2)
    next _ _ _ he _ =>
      have h1 := fst he (.xlate h2)
      exact h1))

theorem slotRx (hd : d.memWf) {n : Nat} {gs : List RxGranule} : (d.slotRx n gs).memWf := by
  unfold Dev.slotRx
  exact .ite hd (.ite hd (.ite (.onFab hd) (.ite (.slotFault (.readWord (.onFab hd))) ((by
    split
    next he =>
      have h1 := fst he (.rxPlaces (.readWord (.onFab hd)))
      exact .slotFault h1
    next he =>
      have h2 := fst he (.rxPlaces (.readWord (.onFab hd)))
      exact .foldl h2 (fun _ _ h5 => .ite h5 (.writeHome (.ite1 h5 (.readBy h5)))))))))

theorem bendSend (hd : d.memWf) {i : Nat} : (d.bendSend i).memWf := .ite (.sendLink hd) hd

theorem stopJobs (hd : d.memWf) {m : BitVec 64} : (d.stopJobs m).memWf :=
  .ite hd (.foldl (.raise (.modReg hd)) (fun _ _ h2 => .ite (.noteCause h2) h2))

theorem gapJobs (hd : d.memWf) {m : BitVec 64} : (d.gapJobs m).memWf :=
  .ite hd (.foldl (.onFab (.raise (.modReg hd))) (fun _ _ h4 => .ite (.noteCause h4) h4))

theorem selectDetour (hd : d.memWf) : d.selectDetour.memWf := by
  unfold Dev.selectDetour
  exact .ite (.onFab hd) (.ite (.onFab hd) ((by
    split
    · exact .putF (.onFab hd)
    · exact .raise (.putF (.stopJobs (.onFab hd))))))

theorem endPeriod (hd : d.memWf) : d.endPeriod.memWf := .settleRuns (.onFab (.upd hd))

theorem decide_ (hd : d.memWf) {b : Nat} : (d.decide_ b).memWf := .ite (.onFab hd) (.ite (.onFab hd) hd)

theorem endBeat (hd : d.memWf) : d.endBeat.memWf :=
.onFab (.ite (.raise (.putF (.decide_ (.ite (.endPeriod (.stopJobs (.gapJobs (.notifyRx hd)))) (.stopJobs (.gapJobs (.notifyRx
    hd))))))) (.decide_ (.ite (.endPeriod (.stopJobs (.gapJobs (.notifyRx hd)))) (.stopJobs (.gapJobs (.notifyRx hd))))))

theorem longBeat (hd : d.memWf) : d.longBeat.memWf := .foldl hd (fun _ _ h2 => .ite (.noteCause h2) h2)

theorem beginBeat (hd : d.memWf) {n : Nat} : (d.beginBeat n).memWf := by
  unfold Dev.beginBeat
  exact .slewBeat (.beginSlots (.sendNotices (.beginPace (.longBeat (.selectDetour (.setReg (.ite (.setReg (.onFab hd)) (.onFab
    hd))))))))

theorem foreignStop (hd : d.memWf) {n : Nat} : (d.foreignStop n).memWf := by
  unfold Dev.foreignStop
  split
  · exact hd
  · exact .ite hd (.foldl (.putF (.onFab hd)) (fun _ _ h3 => .fence h3))

theorem beatBoundary (hd : d.memWf) : d.beatBoundary.memWf := .ite hd (.beginBeat (.foreignStop (.endBeat hd)))

theorem endFence (hd : d.memWf) {status : Nat} : (d.endFence status).memWf := by
  unfold Dev.endFence
  split
  · exact hd
  · exact .ite (.endCmd hd) (.endCmdWith hd)

theorem commitLinks (hd : d.memWf) {table : List SlotEnt} : (d.commitLinks table).memWf :=
  .foldl hd (fun _ _ h2 => .ite (.setLink h2) (.ite (.fence h2) h2))

theorem commit (hd : d.memWf) {img : FabImage} : (d.commit img).memWf :=
  .raise (.endFence (.onSrv (.resumeWhere (.commitLinks (.setReg (.setReg (.setReg (.setReg (.onFab hd)))))))))

theorem epochCommit (hd : d.memWf) : d.epochCommit.memWf := by
  unfold Dev.epochCommit
  split
  · exact hd
  · exact .ite hd (.ite (.beginBeat (.endBeat (.endFence (.onFab (.dropStaged (.readWords hd)))))) (.beginBeat (.commit
    (.endBeat (.readWords hd)))))

theorem foldCommandStart (hd : d.memWf) {q : Nat} : (d.foldCommandStart q).memWf := by
  unfold Dev.foldCommandStart
  split
  · exact .ite hd (.ite (.launch hd) (.ite hd (.ite (.refuseHead hd) (.launch hd))))
  · exact hd

theorem fenceEpoch (hd : d.memWf) {q : Nat} : (d.fenceEpoch q).memWf :=
  .takeHead hd (fun _ _ h2 => .ite (.refuseStart h2) (.askHost (.begin_ h2)))

theorem fenceForm (hd : d.memWf) {x : Cmd} : (d.fenceForm x).memWf := .endCmdWith hd

theorem epochImageCheck (hd : d.memWf) {c : Nat} : (d.epochImageCheck c).memWf := by
  unfold Dev.epochImageCheck
  split
  · exact hd
  · exact .ite hd ((by
      dsimp only
      split
      next he =>
        have h1 := fst he (.readVa hd)
        exact .failCmd h1
      next he =>
        have h2 := fst he (.readVa hd)
        exact .ite (.fenceForm h2) (.ite (.askHost (.modCmd h2)) ((by
          split
          next he =>
            have h3 := fst he (.readVa h2)
            exact .failCmd h3
          next he =>
            have h4 := fst he (.readVa h2)
            exact .ite (.fenceForm h4) (.modCmd (.putF (.onFab h4))))))))

/-! ### Replays -/

theorem startReplay (hd : d.memWf) {p : Nat} : (d.startReplay p).memWf := by
  unfold Dev.startReplay
  split
  · exact hd
  · split
    · exact hd
    · exact .ite hd (.ite (.launch hd) (.ite (.startCopy hd) (.ite (.modCmd (.loadCopy hd)) (.ite (.modCmd (.loadCopy hd))
      (.modCmd hd)))))

theorem phaseFourEnds (hd : d.memWf) {p : Nat} {failed : List UnitId} : (d.phaseFourEnds p failed).memWf :=
  .startReplay (.resetRetrainDone hd)

theorem replayEnds (hd : d.memWf) {p : Nat} {status : Byte} {hung : List UnitId} : (d.replayEnds p status hung).memWf :=
  .startReplay (.suspectReplay hd)

/-! ### Retirement and power states -/

theorem retireUnit (hd : d.memWf) {u : UnitId} {reason : Nat} {persisted : Bool} : (d.retireUnit u reason persisted).memWf := hd

theorem applyRetire (hd : d.memWf) {scope a u reason : Nat} {persisted : Bool} :
    (d.applyRetire scope a u reason persisted).memWf := by
  unfold Dev.applyRetire
  dsimp only
  split
  · exact .putF (.modStack hd)
  · exact .putF (.modStack hd)
  · exact .modReg hd
  · exact .putF (.retireUnit hd)
  · exact .retireUnit hd
  · exact .retireUnit hd
  · exact .retireUnit hd
  · exact .putF (.retireUnit hd)

theorem applyRecord (hd : d.memWf) {r : RetRec} : (d.applyRecord r).memWf := .applyRetire hd

theorem pageRetire (hd : d.memWf) {q : Nat} : (d.pageRetire q).memWf :=
.takeHead hd (fun _ _ h2 => .ite (.refuseStart h2) (.ite (.refuseStart h2) (.ite (.cfgAsk (.begin_ (.applyRetire h2))) (.ite
    (.refuseStart (.applyRetire h2)) (.begin_ (.applyRetire h2))))))

theorem powerStateRun (hd : d.memWf) {x : Cmd} : (d.powerStateRun x).memWf :=
  .ite (.refuseStart hd) (.ite (.refuseStart hd) (.ite (.refuseStart (.refuse hd)) (.commitEntry (.refuseStart hd))))

theorem powerState (hd : d.memWf) {q : Nat} : (d.powerState q).memWf := .takeHead hd (fun _ _ h2 => .powerStateRun h2)

/-! ### Boot, resets and the host link -/

theorem restarted (hd : d.memWf) : d.restarted.memWf := ⟨rfl, rfl, rfl, rfl, hd.2.2.2.2⟩

theorem bootStages (hd : d.memWf) {i : Ident} : (d.bootStages i).memWf :=
.ite (.putF (.setReg (.setReg (.setReg (.setReg (.putF (.onGan hd))))))) (.log (.raise (.putF (.putF (.setReg (.setReg (.setReg
    (.setReg (.putF (.onGan hd))))))))))

theorem recoveryStart (hd : d.memWf) {k : Nat} : (d.recoveryStart k).memWf := .logNow (.putF (.putF hd))

theorem startImage (hd : d.memWf) : d.startImage.memWf := .log (.raise (.putF (.setReg (.setReg (.setReg (.onGan hd))))))

theorem hostLinkTrains (hd : d.memWf) : d.hostLinkTrains.memWf := .ite (.putF hd) hd

theorem boot (hd : d.memWf) {i : Ident} {last : Nat} : (d.boot i last).memWf :=
.hostLinkTrains (.onHif (.ite (.startImage (.setReg (.bootStages (.restarted hd)))) (.setReg (.recoveryStart (.setReg
    (.bootStages (.restarted hd)))))))

theorem trainStack (hd : d.memWf) {n : Nat} : (d.trainStack n).memWf := hd

theorem railsGood (hd : d.memWf) {failed : List UnitId} : (d.railsGood failed).memWf :=
.ite (.hostLinkTrains (.onHif hd)) (.onHif (.foldl (.ite (.ite (.putF (.hostLinkTrains (.onHif hd))) (.selftest (.putF
    (.hostLinkTrains (.onHif hd))))) (.foldl (.ite (.putF (.hostLinkTrains (.onHif hd))) (.selftest (.putF (.hostLinkTrains
    (.onHif hd))))) (fun _ _ h5 => .applyRecord h5))) (fun _ _ h6 => .trainStack h6)))

theorem powerOnComplete (hd : d.memWf) : d.powerOnComplete.memWf :=
  .ite hd (.gridBeats (.onHif (.putF (.putF (.foldl hd (fun _ _ h2 => .stackReady h2))))))

theorem warmReset (hd : d.memWf) {last : Nat} : (d.warmReset last).memWf := by
  have h1 : (d.stopAll).memWf := .stopAll hd
  unfold Dev.warmReset
  generalize d.stopAll = x at h1 ⊢
  dsimp only
  refine .ite ?_ (.raise ?_) <;> exact .foldl (.putF (.setReg (.setPstate (.onPwr (.onHif (.upd (.lost h1))))))) fun _ _ h => .setReg h

theorem linkUpEvent (hd : d.memWf) {rate width : Nat} {flit reversed : Bool} : (d.linkUpEvent rate width flit reversed).memWf :=
  .ite hd (.raise (.onHif (.setReg hd)))

theorem wakeNRelease (hd : d.memWf) : d.wakeNRelease.memWf := .ite hd (.onHif hd)

theorem ideInsecure (hd : d.memWf) : d.ideInsecure.memWf := .ite (.raise (.onHif (.putF hd))) hd

theorem flushPending (hd : d.memWf) {f : Nat} : (d.flushPending f).memWf :=
  .foldl hd (fun _ _ h2 => .ite (.sendMsg (.upd h2)) h2)

theorem setFn (hd : d.memWf) {f : Nat} {g : FnCfg → FnCfg} : (d.setFn f g).memWf := hd

theorem setVfs (hd : d.memWf) {en : Bool} {n : Nat} : (d.setVfs en n).memWf := .onHif (.foldl hd (fun _ _ h2 => .vfFlr h2))

theorem flushFrom (hd : d.memWf) {f : Nat} : (d.flushFrom f).memWf :=
  .ite (.foldl hd (fun _ _ h2 => .flushPending h2)) (.flushPending hd)

theorem configWrite (hd : d.memWf) {f : Nat} {reg : CfgReg} {v : Nat} : (d.configWrite f reg v).memWf := by
  unfold Dev.configWrite
  exact .ite hd ((by
    split
    · exact .flushFrom (.setFn hd)
    · exact .flushPending (.setFn hd)
    · exact .flushPending (.setFn hd)
    · exact .ite (.setFn hd) hd
    · exact .ite (.onHif hd) hd
    · exact .ite (.setVfs hd) hd
    · exact .ite (.setVfs hd) hd
    · exact .ite (.onHif hd) hd
    · exact .ite (.onHif hd) hd
    · exact .ite (.onHif hd) hd))

theorem unsupportedRequest (hd : d.memWf) {f : Nat} : (d.unsupportedRequest f).memWf := .ite (.unsupported hd) hd

theorem poisonedTlp (hd : d.memWf) {f : Nat} : (d.poisonedTlp f).memWf := .ite hd (.ite (.unsupported hd) (.sendOut hd))

theorem dropRead (hd : d.memWf) {i : Nat} : (d.dropRead i).memWf := hd

theorem readFailed (hd : d.memWf) {r : OutRead} : (d.readFailed r).memWf := by
  unfold Dev.readFailed
  dsimp only
  split
  · exact .failCmd (.hostFail hd)
  · split
    · exact .failCmd (.hostFail hd)
    · exact .hostFail hd
  · exact .abortEntry (.hostFail hd)
  · exact .headFailed (.hostFail hd)

theorem readCame (hd : d.memWf) {r : OutRead} : (d.readCame r).memWf := by
  unfold Dev.readCame
  split
  · split
    · exact .ite (.copyMove hd) hd
    · exact hd
  · exact .setFetched hd
  · exact hd

theorem hostReadCompletion (hd : d.memWf) {i : Nat} {status : ReadStatus} {data : List Byte} :
    (d.hostReadCompletion i status data).memWf := by
  unfold Dev.hostReadCompletion
  split
  · exact hd
  next r _ =>
    have h1 : (d.dropRead i).memWf := .dropRead hd
    exact .ite (.readFailed h1) (.ite hd (.readCame (.setHost h1 (Memory.wf_putBytes h1.2.2.2.2 _ _))))

theorem completionTimeout (hd : d.memWf) {i : Nat} : (d.completionTimeout i).memWf := by
  unfold Dev.completionTimeout
  split
  · exact hd
  · exact .ite hd (.readFailed (.dropRead hd))

/-! ### The mailbox -/

theorem mbxGo (hd : d.memWf) : d.mbxGo.memWf := .ite (.blkErr hd) (.ite (.putF hd) (.finishMbx (.putF hd)))

theorem mailbox (hd : d.memWf) {cmd : Nat} {hasRequest : Bool} {k : Dev → Dev} (hk : ∀ e, e.memWf → (k e).memWf) :
    (d.mailbox cmd hasRequest k).memWf :=
  .ite hd (.ite (.finishMbx hd) (hk _ hd))

theorem openStatus (hd : d.memWf) : d.openStatus.memWf := .finishMbx (.upd hd)

theorem identityRead (hd : d.memWf) {i : Ident} : (d.identityRead i).memWf := .mailbox hd (fun _ h2 => .finishMbx h2)

theorem sensorRead (hd : d.memWf) : d.sensorRead.memWf := by
  unfold Dev.sensorRead
  exact .mailbox hd (fun _ h2 => (by
    dsimp only
    split
    · exact .openStatus h2
    · exact .finishMbx (.upd h2)))

theorem logRead (hd : d.memWf) : d.logRead.memWf :=
  .mailbox hd (fun _ h2 => .ite (.openStatus h2) (.ite (.finishMbx h2) (.finishMbx h2)))

theorem logInfo (hd : d.memWf) : d.logInfo.memWf := .mailbox hd (fun _ h2 => .finishMbx (.upd h2))

theorem keyEnrol (hd : d.memWf) : d.keyEnrol.memWf := by
  unfold Dev.keyEnrol
  exact .mailbox hd (fun _ h2 => .ite (.openStatus h2) ((by
    split
    · exact .finishMbx h2
    · exact .cfgAsk (.upd h2))))

theorem keyRevoke (hd : d.memWf) : d.keyRevoke.memWf := by
  unfold Dev.keyRevoke
  exact .mailbox hd (fun _ h2 => (by
    split
    · exact .finishMbx h2
    · exact .cfgAsk h2))

theorem keyList (hd : d.memWf) : d.keyList.memWf := .mailbox hd (fun _ h2 => .ite (.openStatus h2) (.finishMbx h2))

theorem cfgRead (hd : d.memWf) : d.cfgRead.memWf := .mailbox hd (fun _ h2 => .ite (.openStatus h2) (.finishMbx h2))

theorem debugChallenge (hd : d.memWf) {i : Ident} {nonce : BitVec 256} : (d.debugChallenge i nonce).memWf :=
  .mailbox hd (fun _ h2 => .finishMbx (.onGan h2))

theorem eraseSecrets (hd : d.memWf) : d.eraseSecrets.memWf := hd

theorem debugOpen (hd : d.memWf) {i : Ident} : (d.debugOpen i).memWf :=
.mailbox hd (fun _ h2 => .ite (.finishMbx h2) (.ite (.finishMbx (.onGan h2)) (.finishMbx (.onHif (.putF (.putF (.onGan (.logNow
    (.eraseSecrets (.onGan h2))))))))))

/-! ### The management bus -/

theorem reply (hd : d.memWf) {b : Binding} {r : Reply} : (d.reply b r).memWf := hd

theorem answer (hd : d.memWf) {b : Binding} {kind : Nat} {xs : List Nat} : (d.answer b kind xs).memWf := hd

theorem mctp (hd : d.memWf) {b : Binding} {k : Dev → Dev} (hk : ∀ e, e.memWf → (k e).memWf) : (d.mctp b k).memWf :=
  .ite (hk _ hd) hd

theorem setEndpointId (hd : d.memWf) {b : Binding} {eid : Byte} : (d.setEndpointId b eid).memWf := by
  unfold Dev.setEndpointId
  exact .mctp hd (fun _ h2 => .answer ((by
    split
    · exact .putF h2
    · exact .putF h2)))

theorem vdmWake (hd : d.memWf) {b : Binding} : (d.vdmWake b).memWf := .mctp hd (fun _ h2 => .ite (.wakeSource h2) h2)

theorem i3cDynamicAddress (hd : d.memWf) {addr : BitVec 7} : (d.i3cDynamicAddress addr).memWf := .ite (.putF hd) hd

theorem pldmPlatformMonitoring (hd : d.memWf) {b : Binding} {n : Nat} : (d.pldmPlatformMonitoring b n).memWf := by
  unfold Dev.pldmPlatformMonitoring
  exact .mctp hd (fun _ h2 => (by
    split
    · exact .reply h2
    · exact .answer (.upd h2)))

theorem pldmBaseDiscovery (hd : d.memWf) {b : Binding} : (d.pldmBaseDiscovery b).memWf := .mctp hd (fun _ h2 => .answer h2)

theorem signedReq (hd : d.memWf) {i : Ident} {b : Binding} {k : Dev → Dev} (hk : ∀ e, e.memWf → (k e).memWf) :
    (d.signedReq i b k).memWf :=
  .mctp hd (fun _ h3 => .ite (hk _ h3) (.reply h3))

theorem getVersion (hd : d.memWf) {b : Binding} : (d.getVersion b).memWf := .mctp hd (fun _ h2 => .answer h2)

theorem getCapabilities (hd : d.memWf) {b : Binding} : (d.getCapabilities b).memWf := .mctp hd (fun _ h2 => .answer h2)

theorem negotiateAlgorithms (hd : d.memWf) {b : Binding} {ours : Bool} : (d.negotiateAlgorithms b ours).memWf :=
  .mctp hd (fun _ h2 => .answer (.onGan h2))

theorem getDigests (hd : d.memWf) {i : Ident} {b : Binding} : (d.getDigests i b).memWf := .signedReq hd (fun _ h2 => .answer h2)

theorem getCertificate (hd : d.memWf) {i : Ident} {b : Binding} {slot : Nat} : (d.getCertificate i b slot).memWf :=
  .signedReq hd (fun _ h2 => .ite (.reply h2) (.reply h2))

theorem sendMeasurements (hd : d.memWf) {i : Ident} {b : Binding} {bs : List (Nat × List Nat)} {f0 : List Byte}
    {signed_ : Bool} {nonce : BitVec 256} :
    (d.sendMeasurements i b bs f0 signed_ nonce).memWf :=
  hd

theorem getMeasurements (hd : d.memWf) {i : Ident} {b : Binding} {ns : List Nat} {signed_ : Bool} {nonce : BitVec 256} :
    (d.getMeasurements i b ns signed_ nonce).memWf := by
  unfold Dev.getMeasurements
  exact .mctp hd (fun _ h2 => .ite (.reply h2) (.ite (.sendMeasurements h2) (.ite (.sendMeasurements h2) ((by
    split
    · exact h2
    · exact .ite h2 (.sendMeasurements (.onGan h2)))))))

theorem challenge (hd : d.memWf) {i : Ident} {b : Binding} {slot : Nat} {nonce : BitVec 256} :
    (d.challenge i b slot nonce).memWf :=
  .signedReq hd (fun _ h2 => .ite (.reply h2) (.reply h2))

theorem attestationKeyGen (hd : d.memWf) {seed : BitVec 256} : (d.attestationKeyGen seed).memWf :=
  .ite hd (.ite (.raise (.putF (.putF (.setReg (.onGan hd))))) (.putF (.putF (.setReg (.onGan hd)))))

theorem keyExchange (hd : d.memWf) {i : Ident} {b : Binding} {slot : Nat} : (d.keyExchange i b slot).memWf :=
  .signedReq hd (fun _ h2 => .ite (.reply h2) (.ite (.reply h2) (.reply (.onGan h2))))

theorem modSession (hd : d.memWf) {n : Nat} {f : Session → Session} : (d.modSession n f).memWf := hd

theorem inSession (hd : d.memWf) {b : Binding} {n : Nat} {k : Dev → Dev} (hk : ∀ e, e.memWf → (k e).memWf) :
    (d.inSession b n k).memWf := by
  unfold Dev.inSession
  exact .mctp hd (fun _ h3 => (by
    split
    · exact .ite (hk _ h3) (.reply h3)
    · exact .reply h3))

theorem finishSession (hd : d.memWf) {b : Binding} {n : Nat} : (d.finishSession b n).memWf := by
  unfold Dev.finishSession
  exact .mctp hd (fun _ h2 => (by
    split
    · exact .ite (.reply h2) (.answer (.modSession h2))
    · exact .reply h2))

theorem heartbeat (hd : d.memWf) {b : Binding} {n : Nat} : (d.heartbeat b n).memWf := .inSession hd (fun _ h2 => .answer h2)

theorem keyUpdate (hd : d.memWf) {b : Binding} {n : Nat} : (d.keyUpdate b n).memWf :=
  .inSession hd (fun _ h2 => .answer (.modSession h2))

theorem endSession (hd : d.memWf) {b : Binding} {n : Nat} : (d.endSession b n).memWf :=
  .inSession hd (fun _ h2 => .answer (.onGan h2))

theorem ideKm (hd : d.memWf) {b : Binding} {n : Nat} {keySet switch : Bool} : (d.ideKm b n keySet switch).memWf :=
  .inSession hd (fun _ h2 => .ite (.reply h2) (.ite (.answer (.onHif h2)) (.ite (.reply h2) (.answer (.setReg h2)))))

/-! ### Firmware update -/

theorem ganRead (hd : d.memWf) {a n : Nat} : (d.ganRead a n).1.memWf := .ite1 hd (.readStk (.upd hd))

theorem ganWrite (hd : d.memWf) {a : Nat} {bs : List Byte} : (d.ganWrite a bs).memWf := .ite hd (.writeStk hd)

theorem setUpdState (hd : d.memWf) {s : Nat} : (d.setUpdState s).memWf := hd

theorem modUpd (hd : d.memWf) {f : Update → Update} : (d.modUpd f).memWf := hd

theorem fromAgent (hd : d.memWf) {b : Binding} {states : List Nat}
    {k : Dev → Update → Dev} (hk : ∀ e x, e.memWf → (k e x).memWf) :
    (d.fromAgent b states k).memWf := by
  unfold Dev.fromAgent
  exact .mctp hd (fun _ h3 => (by
    split
    · exact .ite (hk _ _ h3) (.reply h3)
    · exact .reply h3))

theorem queryDeviceIdentifiers (hd : d.memWf) {i : Ident} {b : Binding} : (d.queryDeviceIdentifiers i b).memWf :=
  .mctp hd (fun _ h2 => .answer h2)

theorem getFirmwareParameters (hd : d.memWf) {b : Binding} : (d.getFirmwareParameters b).memWf :=
  .mctp hd (fun _ h2 => .answer h2)

theorem requestUpdate (hd : d.memWf) {b : Binding} {maxTransfer : Nat} : (d.requestUpdate b maxTransfer).memWf :=
  .ite hd (.ite (.reply hd) (.ite (.reply hd) (.answer (.setUpdState (.onGan hd)))))

theorem passComponentTable (hd : d.memWf) {b : Binding} : (d.passComponentTable b).memWf :=
  .fromAgent hd (fun _ _ h2 => .answer h2)

theorem updateComponent (hd : d.memWf) {b : Binding} {n : Nat} : (d.updateComponent b n).memWf :=
  .fromAgent hd (fun _ _ h2 => .ite (.reply h2) (.answer (.setUpdState (.modUpd h2))))

theorem requestFirmwareData (hd : d.memWf) {off : Nat} {data : List Byte} : (d.requestFirmwareData off data).memWf := by
  unfold Dev.requestFirmwareData
  split
  · exact hd
  · exact .ite hd (.putF (.modUpd (.ganWrite hd)))

theorem transferComplete (hd : d.memWf) : d.transferComplete.memWf := by
  unfold Dev.transferComplete
  split
  · exact hd
  · exact .ite hd (.setUpdState hd)

theorem failUpdate (hd : d.memWf) {result : Nat} : (d.failUpdate result).memWf := .raise (.endUpdate hd)

theorem staged (hd : d.memWf) {u : Update} : (d.staged u).1.memWf := .ganRead hd

theorem verifyComplete (hd : d.memWf) : d.verifyComplete.memWf := by
  unfold Dev.verifyComplete
  split
  · exact hd
  · refine .ite hd ?_
    split
    next he =>
      have h1 := fst he (.staged hd)
      exact .ite (.failUpdate (.modUpd h1)) (.setUpdState (.onGan (.modUpd h1)))

theorem programImage (hd : d.memWf) {img : List Byte} : (d.programImage img).1.memWf := hd

theorem applyComplete (hd : d.memWf) : d.applyComplete.memWf := by
  unfold Dev.applyComplete
  split
  · exact hd
  · refine .ite hd ?_
    split
    next he =>
      have h1 := fst he (.staged hd)
      split
      next hp =>
        have h2 := fst hp (.programImage h1)
        exact .ite (.failUpdate (.onGan h2)) (.raise (.log (.modUpd (.putF (.putF h2)))))

theorem activateFirmware (hd : d.memWf) {b : Binding} : (d.activateFirmware b).memWf :=
  .fromAgent hd (fun _ _ h2 => .ite (.reply h2) (.answer (.putF (.setUpdState (.onGan h2)))))

theorem getStatus (hd : d.memWf) {b : Binding} : (d.getStatus b).memWf := .mctp hd (fun _ h2 => .answer h2)

theorem cancelUpdateComponent (hd : d.memWf) {b : Binding} : (d.cancelUpdateComponent b).memWf :=
  .fromAgent hd (fun _ _ h2 => .ite (.reply h2) (.answer (.setUpdState (.modUpd h2))))

theorem cancelUpdate (hd : d.memWf) {b : Binding} : (d.cancelUpdate b).memWf :=
  .fromAgent hd (fun _ _ h2 => .ite (.answer (.setUpdState (.onGan h2))) (.ite (.reply h2) (.answer (.endUpdate h2))))

theorem pushedImage (hd : d.memWf) : d.pushedImage.1.memWf := by
  unfold Dev.pushedImage
  split
  next he =>
    have h1 := fst he (.ganRead hd)
    dsimp only
    exact .ite1 h1 (.ganRead h1)

theorem setRcvResult (hd : d.memWf) {r : Nat} : (d.setRcvResult r).memWf := hd

theorem recoveryGo (hd : d.memWf) : d.recoveryGo.memWf := by
  unfold Dev.recoveryGo
  split
  next he =>
    have h1 := fst he (.pushedImage hd)
    refine .ite (.setRcvResult h1) ?_
    split
    next hp => exact .setRcvResult (fst hp (.programImage h1))

/-! ### Register writes -/

theorem plainWrite (hd : d.memWf) {a : Nat} {r : RegRow} {v : W64} : (d.plainWrite a r v).memWf := hd

theorem discardIf (hd : d.memWf) {bad : Bool} {a : Nat} {k : Dev → Dev} (hk : ∀ e, e.memWf → (k e).memWf) :
    (d.discardIf bad a k).memWf :=
  .ite (.blkErr hd) (hk _ hd)

theorem writeHeader (hd : d.memWf) {f page o : Nat} {v : W64} : (d.writeHeader f page o v).memWf :=
  .ite (.ite (.setReg hd) hd) (.ite (.modReg hd) (.ite (.signal (.modReg hd)) (.ite (.raise hd) hd)))

theorem writeQCfg (hd : d.memWf) {q : Nat} {v : W64} : (d.writeQCfg q v).memWf :=
  .discardIf hd (fun _ h2 => .signal (.setReg (.ite (.clearCounts (.ite (.flushQueue h2) h2)) (.ite (.flushQueue h2) h2))))

theorem writeRCfg (hd : d.memWf) {f r : Nat} {v : W64} : (d.writeRCfg f r v).memWf :=
  .discardIf hd (fun _ h2 => .flushHeld (.signal (.setReg (.ite (.setReg (.setReg h2)) h2))))

theorem writeRBase (hd : d.memWf) {r : Nat} {v : W64} : (d.writeRBase r v).memWf := .discardIf hd (fun _ h2 => .setReg h2)

theorem writeRHead (hd : d.memWf) {r : Nat} {v : W64} : (d.writeRHead r v).memWf :=
  .discardIf hd (fun _ h2 => .flushHeld (.setReg h2))

theorem writePartPage (hd : d.memWf) {k a o : Nat} {r : RegRow} {v : W64} : (d.writePartPage k a o r v).memWf :=
.ite (.writeLayout hd) (.ite (.writeVfBind hd) (.ite (.signal (.plainWrite hd)) (.ite (.ite (.wakeSource (.partitionReset hd))
    hd) (.ite (.writeSliceCtrl hd) (.ite (.plainWrite (.settleBucket hd)) (.ite (.ite (.writeCtxCfg hd) (.writeCtxRoot hd))
    (.plainWrite hd)))))))

theorem writeIllCtrl (hd : d.memWf) {k c : Nat} {v : W64} : (d.writeIllCtrl k c v).memWf :=
  .setReg (.ite (.foldl hd (fun _ _ h2 => .setReg h2)) hd)

theorem writeFabCfg (hd : d.memWf) {v : W64} : (d.writeFabCfg v).memWf :=
  .discardIf hd (fun _ h2 => .ite (.showTime (.putF (.setReg h2))) (.setReg h2))

theorem writeAdmCtrl (hd : d.memWf) {p : Nat} {v : W64} : (d.writeAdmCtrl p v).memWf := .discardIf hd (fun _ h2 => .setReg h2)

theorem writeAdm (hd : d.memWf) {p g a : Nat} {r : RegRow} {v : W64} : (d.writeAdm p g a r v).memWf :=
.ite (.writeAdmCtrl hd) (.ite (.ite (.setReg hd) hd) (.ite hd (.discardIf hd (fun _ h2 => .ite (.putF (.plainWrite h2))
    (.plainWrite h2)))))

theorem writeCoef (hd : d.memWf) {p a : Nat} {r : RegRow} {v : W64} : (d.writeCoef p a r v).memWf :=
  .discardIf hd (fun _ h2 => .plainWrite h2)

theorem writeSlotReg (hd : d.memWf) {s a : Nat} {r : RegRow} {v : W64} : (d.writeSlotReg s a r v).memWf :=
  .ite (.plainWrite hd) (.ite (.putF hd) hd)

theorem writePfxCtrl (hd : d.memWf) {p a : Nat} {v : W64} : (d.writePfxCtrl p a v).memWf :=
  .ite (.flush (.discardIf hd (fun _ h2 => .setReg h2))) (.discardIf hd (fun _ h2 => .setReg h2))

theorem writeKvReg (hd : d.memWf) {p g a : Nat} {r : RegRow} {v : W64} : (d.writeKvReg p g a r v).memWf :=
  .ite (.writePfxCtrl hd) (.discardIf hd (fun _ h2 => .plainWrite h2))

theorem writeSrv (hd : d.memWf) {f j a o : Nat} {r : RegRow} {v : W64} : (d.writeSrv f j a o r v).memWf :=
.ite (.ite (.writeRtSel hd) (.ite hd (.ite (.discardIf hd (fun _ h2 => .plainWrite h2)) (.writeAdm hd)))) (.ite (.writeCoef hd)
    (.ite (.writeSlotReg hd) (.ite (.writeKvReg hd) (.ite (.writeDeltaSel hd) hd))))

theorem writePwr (hd : d.memWf) {a : Nat} {r : RegRow} {v : W64} : (d.writePwr a r v).memWf :=
.ite (.writeClk hd) (.ite (.writePhaseSel hd) (.ite (.ite (.putF hd) hd) (.ite (.discardIf hd (fun _ h2 => .plainWrite h2))
    (.plainWrite hd))))

theorem writeThm (hd : d.memWf) {a : Nat} {r : RegRow} {v : W64} : (d.writeThm a r v).memWf :=
  .ite (.discardIf hd (fun _ h2 => .plainWrite h2)) (.ite (.ite (.putF hd) hd) (.plainWrite hd))

theorem writeRas (hd : d.memWf) {a : Nat} {r : RegRow} {v : W64} : (d.writeRas a r v).memWf :=
  .ite (.discardIf hd (fun _ h2 => .plainWrite h2)) (.ite (.ite (.returnSelected hd) hd) (.plainWrite hd))

theorem writeMgmt (hd : d.memWf) {a o : Nat} {r : RegRow} {v : W64} : (d.writeMgmt a o r v).memWf :=
.ite (.ite (.plainWrite hd) hd) (.ite (.ite (.mbxGo hd) hd) (.ite (.discardIf hd (fun _ h2 => .plainWrite h2)) (.plainWrite
    hd)))

theorem writeBar4Win (hd : d.memWf) {v : W64} : (d.writeBar4Win v).memWf := .discardIf hd (fun _ h2 => .setReg h2)

theorem writeCs (hd : d.memWf) {n j a o : Nat} {r : RegRow} {v : W64} : (d.writeCs n j a o r v).memWf :=
  .ite (.writeTempMax hd) (.ite (.writeWinWait hd) (.plainWrite hd))

theorem writeFab (hd : d.memWf) {j a : Nat} {r : RegRow} {v : W64} : (d.writeFab j a r v).memWf :=
.ite (.ite (.writeLinkCtrl hd) (.plainWrite hd)) (.ite (.writeFabCfg hd) (.ite (.discardIf hd (fun _ h2 => .plainWrite h2))
    (.ite (.discardIf hd (fun _ h2 => .plainWrite h2)) (.plainWrite hd))))

theorem applyReg (hd : d.memWf) {f a : Nat} {r : RegRow} {v : W64} : (d.applyReg f a r v).memWf := by
  unfold Dev.applyReg
  exact .ite (.writeHeader hd) ((by
    split
    · exact hd
    · exact .ite (.ite (.writeBar4Win hd) hd) (.ite (.ite (.ite (.writeQCfg hd) (.plainWrite hd)) (.ite (.ite (.writeRBase hd)
      (.ite (.writeRCfg hd) (.ite (.writeRHead hd) (.plainWrite hd)))) hd)) (.ite (.ite (.writePartPage hd) (.ite (.writeIllCtrl
      hd) (.plainWrite hd))) (.ite (.writeCs hd) (.ite (.writeFab hd) (.ite (.writeSrv hd) (.ite (.writePwr hd) (.ite (.writeThm
      hd) (.ite (.writeRas hd) (.ite (.writeMgmt hd) hd)))))))))))

theorem msixWord (hd : d.memWf) {f o w : Nat} : (d.msixWord f o w).memWf := .flushPending (.onHif hd)

theorem msixWrite (hd : d.memWf) {f o size : Nat} {v : W64} : (d.msixWrite f o size v).memWf :=
  .ite (.msixWord (.msixWord hd)) (.msixWord hd)

theorem holdLow (hd : d.memWf) {f a w : Nat} : (d.holdLow f a w).memWf := hd

theorem dropLow (hd : d.memWf) {f : Nat} : (d.dropLow f).memWf := hd

/-! ### Temperature -/

theorem onThm (hd : d.memWf) {f : Thm → Thm} : (d.onThm f).memWf := hd

theorem failMon (hd : d.memWf) {n : Nat} : (d.failMon n).memWf := .raise (.modReg hd)

theorem sampleMon (hd : d.memWf) {i : Ident} {n count : Nat} {volt : Int} : (d.sampleMon i n count volt).memWf :=
  .ite (.failMon (.onThm hd)) (.onThm hd)

theorem checkApart (hd : d.memWf) {n : Nat} : (d.checkApart n).memWf := .ite (.failMon (.onThm hd)) (.onThm hd)

theorem sampleDiode (hd : d.memWf) {r : Reading} : (d.sampleDiode r).memWf := .ite hd (.ite (.raise (.setReg hd)) (.setReg hd))

theorem throttleStep (hd : d.memWf) {k : Nat} {hot : Int} : (d.throttleStep k hot).memWf :=
.ite (.modReg (.ite (.ite (.ite (.modReg (.onThm hd)) (.raise (.modReg (.onThm hd)))) (.onThm hd)) (.ite (.ite (.onThm hd) (.ite
    (.onThm hd) hd)) (.onThm hd)))) (.ite (.ite (.ite (.modReg (.onThm hd)) (.raise (.modReg (.onThm hd)))) (.onThm hd)) (.ite
    (.ite (.onThm hd) (.ite (.onThm hd) hd)) (.onThm hd)))

theorem riseStep (hd : d.memWf) {k : Nat} {rise : Int} : (d.riseStep k rise).memWf :=
.ite (.raise (.ite (.raise (.modReg (.onThm hd))) (.modReg (.onThm hd)))) (.ite (.raise (.modReg (.onThm hd))) (.modReg (.onThm
    hd)))

theorem thermalResponses (hd : d.memWf) : d.thermalResponses.memWf :=
  .foldl hd (fun _ _ h2 => .ite h2 (.riseStep (.throttleStep h2)))

theorem showJunction (hd : d.memWf) {j : Int × Nat} : (d.showJunction j).memWf := .ite (.putF (.setReg hd)) (.setReg hd)

theorem thermalSample (hd : d.memWf) {i : Ident} {diode : Reading} {counts : List (Nat × Int)} :
    (d.thermalSample i diode counts).memWf := by
  unfold Dev.thermalSample
  exact .ite hd (.ite (.thermalTrip (.upd (.thermalResponses ((by
    split
    · exact .showJunction (.sampleDiode (.foldl (.foldl hd (fun _ _ h2 => (by
        split
        · exact .sampleMon h2
        · exact h2))) (fun _ _ h3 => .checkApart h3)))
    · exact .sampleDiode (.foldl (.foldl hd (fun _ _ h2 => (by
        split
        · exact .sampleMon h2
        · exact h2))) (fun _ _ h3 => .checkApart h3))))))) ((by
    split
    · exact .ite (.thermalTrip (.thermalResponses ((by
        split
        · exact .showJunction (.sampleDiode (.foldl (.foldl hd (fun _ _ h2 => (by
            split
            · exact .sampleMon h2
            · exact h2))) (fun _ _ h3 => .checkApart h3)))
        · exact .sampleDiode (.foldl (.foldl hd (fun _ _ h2 => (by
            split
            · exact .sampleMon h2
            · exact h2))) (fun _ _ h3 => .checkApart h3)))))) (.thermalResponses ((by
        split
        · exact .showJunction (.sampleDiode (.foldl (.foldl hd (fun _ _ h2 => (by
            split
            · exact .sampleMon h2
            · exact h2))) (fun _ _ h3 => .checkApart h3)))
        · exact .sampleDiode (.foldl (.foldl hd (fun _ _ h2 => (by
            split
            · exact .sampleMon h2
            · exact h2))) (fun _ _ h3 => .checkApart h3)))))
    · exact .thermalResponses ((by
        split
        · exact .showJunction (.sampleDiode (.foldl (.foldl hd (fun _ _ h2 => (by
            split
            · exact .sampleMon h2
            · exact h2))) (fun _ _ h3 => .checkApart h3)))
        · exact .sampleDiode (.foldl (.foldl hd (fun _ _ h2 => (by
            split
            · exact .sampleMon h2
            · exact h2))) (fun _ _ h3 => .checkApart h3)))))))

theorem recalibrate (hd : d.memWf) {diode : Reading} {counts : List (Nat × Int)} : (d.recalibrate diode counts).memWf := by
  unfold Dev.recalibrate
  exact .ite hd (.foldl hd (fun _ _ h2 => (by
    split
    · exact .onThm h2
    · exact h2)))

theorem stackTempSample (hd : d.memWf) {n : Nat} {readings : List Reading} : (d.stackTempSample n readings).memWf :=
.ite hd (.ite (.thermalTrip (.ite (.putF (.setReg (.modStack hd))) (.raise (.putF (.setReg (.modStack hd)))))) (.ite (.putF
    (.setReg (.modStack hd))) (.raise (.putF (.setReg (.modStack hd))))))

/-! ### Resets of functions -/

theorem onVf (hd : d.memWf) {v : Nat} {k : Dev → Dev} (hk : ∀ e, e.memWf → (k e).memWf) : (d.onVf v k).memWf :=
  .ite (hk _ hd) hd

/-! ### The submission window -/

theorem answerWindow (hd : d.memWf) {f off len : Nat} : (d.answerWindow f off len).memWf :=
  .ite (.sendOut hd) (.received hd (fun _ h2 => .answerRead h2))

/-! ### BAR4 -/

theorem bar4Access (hd : d.memWf) {f off len : Nat} {read : Bool} {k : Dev → Dev} (hk : ∀ e, e.memWf → (k e).memWf) :
    (d.bar4Access f off len read k).memWf :=
  .ite (.ite (hk _ hd) (.ite (.sendOut hd) hd)) (.received hd hk)

/-! ### An AON clock period -/

theorem resetFailedStacks (hd : d.memWf) : d.resetFailedStacks.memWf := .foldl hd (fun _ _ h2 => .ite (.ifFailed h2) h2)

theorem tick (hd : d.memWf) : d.tick.memWf := .ite (.flushPace (.upd (.resetFailedStacks hd))) hd

end Dev.memWf
end Sys2Proof.Machine
end

section
/-! # Every command completes (EveryCommandCompletesAndKeepsTheIdentity, StepsKeepMemoriesCanonical) -/

namespace Sys2Proof.Machine

/-- From `s` to `t` the waiting commands and the identity region stay, and memories stay in canonical form. -/
def State.after (s t : State) : Prop := t.pending = s.pending ∧ t.ident = s.ident ∧ (s.dev.memWf → t.dev.memWf)

namespace State.after
variable {s t u : State}

theorem refl : s.after s := ⟨rfl, rfl, id⟩

theorem trans (h : s.after t) (k : t.after u) : s.after u := ⟨k.1.trans h.1, k.2.1.trans h.2.1, fun m => k.2.2 (h.2.2 m)⟩

theorem onDev {f : Dev → Dev} (hf : s.dev.memWf → (f s.dev).memWf) : s.after (s.onDev f) := ⟨rfl, rfl, hf⟩

theorem withPads {p : Pads} {e : Dev} (he : s.dev.memWf → e.memWf) : s.after { s with pads := p, dev := e } := ⟨rfl, rfl, he⟩

theorem ite {c : Prop} [Decidable c] (ht : s.after t) (hu : s.after u) : s.after (if c then t else u) := by
  split
  · exact ht
  · exact hu

theorem padRelease : s.after s.padRelease := .ite (.withPads .afterRelease) (.onDev fun h => .blkErr h)

theorem powerState {q : Nat} : s.after (s.powerState q) := .ite (.withPads (.powerState ·)) (.withPads (.powerState ·))

theorem boot {last : Nat} : s.after (s.boot last) := .withPads (.boot ·)

theorem powerOn : s.after s.powerOn := .trans (.onDev fun h => .onHif h) .boot

theorem warmReset {last : Nat} : s.after (s.warmReset last) := .ite (.withPads (.warmReset ·)) .refl

theorem warmEnd : s.after s.warmEnd := .ite .boot (.onDev .hostLinkTrains)

theorem perstFalls : s.after s.perstFalls := .ite .refl (.trans .warmReset (.onDev fun h => .onHif (.setReg h)))

theorem perstRises : s.after s.perstRises :=
  have h : s.after (s.onDev fun d => d.onHif fun h => { h with perstN := true }) := .onDev fun h => .onHif h
  .ite .refl (.ite (.ite (.trans h .boot) h) (.trans h .warmEnd))

theorem linkReset {last : Nat} : s.after (s.linkReset last) := .ite (.trans .warmReset .warmEnd) .refl

theorem writeRcvCtrl {v : W64} : s.after (s.writeRcvCtrl v) := by
  have h : s.after (if fld v fMgmtRcvCtrl_Go == 1 then s.onDev Dev.recoveryGo else s) := .ite (.onDev .recoveryGo) .refl
  exact .ite .refl (.ite (.onDev fun h => .blkErr h) (.ite (.trans (.trans h (.onDev fun h => .onHif h)) .boot) h))

theorem writePwrCtrl {v : W64} : s.after (s.writePwrCtrl v) :=
  .ite (.ite (.onDev .shutdown) (.onDev fun h => .blkErr h)) (.ite .padRelease (.ite (.onDev (.wakeSource ·)) .refl))

theorem atReg {f a : Nat} {v : W64} : s.after (s.atReg f a v) := by
  unfold State.atReg
  split
  · exact .refl
  · exact .ite .refl (.ite .writePwrCtrl (.ite .writeRcvCtrl (.onDev (.applyReg ·))))

theorem freshWrite {f off size : Nat} {v : W64} : s.after (s.freshWrite f off size v) := by
  have herr : s.after (s.onDev fun d => d.blkErr pgHif) := .onDev fun h => .blkErr h
  unfold State.freshWrite
  refine .ite herr (.ite (.onDev (.msixWrite ·)) ?_)
  dsimp only
  split
  · exact .ite herr .refl
  · exact .ite (.ite .atReg (.ite (.onDev (.holdLow ·)) .atReg)) (.ite herr .atReg)

theorem bar0Write {f off size : Nat} {v : W64} : s.after (s.bar0Write f off size v) := by
  unfold State.bar0Write
  split
  · exact .freshWrite
  · have h : s.after (s.onDev fun d => d.dropLow f) := .onDev (.dropLow ·)
    exact .ite (.trans h .atReg) (.trans (.trans h .atReg) .freshWrite)

theorem regWrite {f off size : Nat} {v : W64} : s.after (s.regWrite f off size v) :=
  .ite .bar0Write (.ite (.onDev (.unsupported ·)) .refl)

theorem reg32 {f a : Nat} {v : W32} : s.after (s.reg32 f a v) := .regWrite

theorem wordRead {f off : Nat} : s.after (s.wordRead f off).1 := by
  have hlatch : ∀ {t : Tab (Nat × Nat)}, s.after (s.onDev fun d => { d with latched := t }) := .onDev fun h => .upd h
  unfold State.wordRead
  split
  · exact .onDev fun h => .blkErr h
  split
  · exact .refl
  split
  · exact .refl
  dsimp only
  split
  · exact .ite (.onDev fun h => .upd h) .refl
  split
  · exact .onDev fun h => .upd h
  · exact .refl

theorem wholeRead {f off : Nat} : s.after (s.wholeRead f off).1 := by
  have herr : s.after (s.onDev fun d => d.blkErr pgHif) := .onDev fun h => .blkErr h
  unfold State.wholeRead
  dsimp only
  split
  · exact herr
  split
  · exact .refl
  split
  · split
    · exact herr
    · exact .refl
  · split
    · exact .refl
    · exact herr

theorem lowWordRead {f off size : Nat} : s.after (s.lowWordRead f off size) := by
  have hout : ∀ {t : State} {o : HostOut}, t.after (t.onDev fun d => d.sendOut o) := .onDev fun h => .sendOut h
  unfold State.lowWordRead
  refine .ite .refl (.ite (.onDev (.unsupported ·)) (.ite hout (.trans ?_ hout)))
  split
  · exact .wholeRead
  split
  · exact .wordRead
  · exact .onDev fun h => .blkErr h

end State.after

/-- An outcome that is a next state, which comes after `s`. -/
def State.completes (s : State) (o : Host.Outcome State Fault Refusal) : Prop := ∃ t, o = .next t ∧ s.after t

theorem State.completes.next {s t : State} (h : s.after t) : s.completes (.next t) := ⟨t, rfl, h⟩

/-- Every command completes. -/
theorem exec_completes (c : Instr) (s : State) : s.completes (exec c s) := by
  cases c with
  | mma => exact .next (.onDev (.mma ·))
  | mmaProductsLand => exact .next (.onDev (.productsLand ·))
  | mrd => exact .next (.onDev (.mrd ·))
  | vadd => exact .next (.onDev (.vec2Issue ·))
  | vmul => exact .next (.onDev (.vec2Issue ·))
  | vfma => exact .next (.onDev (.vfmaIssue ·))
  | vmax => exact .next (.onDev (.vec2Issue ·))
  | vmin => exact .next (.onDev (.vec2Issue ·))
  | vrcp => exact .next (.onDev (.vec1Issue ·))
  | vrsq => exact .next (.onDev (.vec1Issue ·))
  | vexp2 => exact .next (.onDev (.vec1Issue ·))
  | vlog2 => exact .next (.onDev (.vec1Issue ·))
  | vpair => exact .next (.onDev (.vpairIssue ·))
  | vpmaxi => exact .next (.onDev (.vpmaxiIssue ·))
  | vimm => exact .next (.onDev (.vimmIssue ·))
  | xadd => exact .next (.onDev (.xaddIssue ·))
  | xrd => exact .next (.onDev (.xrdIssue ·))
  | vld => exact .next (.onDev (.vldIssue ·))
  | vst => exact .next (.onDev (.vstIssue ·))
  | move => exact .next (.onDev (.moveIssue ·))
  | moveComplete => exact .next (.onDev (.moveComplete ·))
  | atomicPerform => exact .next (.onDev (.atomicPerform ·))
  | msend => exact .next (.onDev (.msendIssue ·))
  | msendArrival => exact .next (.onDev (.msendArrival ·))
  | hgemm => exact .next (.onDev (.hdispIssue ·))
  | hattn => exact .next (.onDev (.hdispIssue ·))
  | hsoftmax => exact .next (.onDev (.hdispIssue ·))
  | hreduce => exact .next (.onDev (.hdispIssue ·))
  | henStart => exact .next (.onDev (.henStart ·))
  | henRowStep => exact .next (.onDev (.henRowStep ·))
  | hattnExchange => exact .next (.onDev (.hattnExchange ·))
  | henOpFinish => exact .next (.onDev (.henOpFinish ·))
  | loop => exact .next (.onDev (.loopIssue ·))
  | call => exact .next (.onDev (.callIssue ·))
  | ret => exact .next (.onDev (.retIssue ·))
  | wait => exact .next (.onDev (.waitIssue ·))
  | barrier => exact .next (.onDev (.barrierIssue ·))
  | barrierRelease => exact .next (.onDev (.barrierRelease ·))
  | spread => exact .next (.onDev (.spreadIssue ·))
  | cset => exact .next (.onDev (.csetIssue ·))
  | endProgram => exact .next (.onDev (.endIssue ·))
  | queueRecordWrite => exact .next (.onDev fun h => .received h fun _ h => .queueWrite h)
  | nop => exact .next (.onDev (.nop ·))
  | runProgram => exact .next (.onDev (.runProgram ·))
  | copy => exact .next (.onDev (.copy ·))
  | libLoad => exact .next (.onDev (.libLoad ·))
  | libLoadVerify => exact .next (.onDev (.libLoadVerify ·))
  | modelLoad => exact .next (.onDev (.modelLoad ·))
  | modelLoadCheck => exact .next (.onDev (.modelLoadCheck ·))
  | modelEvict => exact .next (.onDev (.modelEvict ·))
  | slotEvicted => exact .next (.onDev (.slotEvicted ·))
  | deltaPut => exact .next (.onDev (.deltaPut ·))
  | deltaPutCheck => exact .next (.onDev (.deltaPutCheck ·))
  | deltaRetire => exact .next (.onDev (.deltaRetire ·))
  | adaptStep => exact .next (.onDev (.adaptStep ·))
  | pageRetire => exact .next (.onDev (.pageRetire ·))
  | powerState => exact .next .powerState
  | fenceEpoch => exact .next (.onDev (.fenceEpoch ·))
  | epochImageCheck => exact .next (.onDev (.epochImageCheck ·))
  | epochCommit => exact .next (.onDev (.epochCommit ·))
  | commandComplete => exact .next (.onDev (.commandComplete ·))
  | completionRecordWrite => exact .next (.onDev (.completionRecordWrite ·))
  | moderationTimer => exact .next (.onDev (.moderationTimer ·))
  | commandTimeout => exact .next (.onDev (.commandTimeout ·))
  | commandHang => exact .next (.onDev (.commandHang ·))
  | cqQCfg => exact .next .reg32
  | cqRCfg => exact .next .reg32
  | cqRHead => exact .next .reg32
  | submit => exact .next (.onDev (.submit ·))
  | cancel => exact .next (.onDev (.cancel ·))
  | answerRead => exact .next (.onDev (.answerWindow ·))
  | setupDone => exact .next (.onDev (.setupDone ·))
  | servingCycle => exact .next (.onDev (.servingCycle ·))
  | decodeStep => exact .next (.onDev (.decodeStep ·))
  | prefillSlice => exact .next (.onDev (.prefillSlice ·))
  | tokenHandover => exact .next (.onDev (.tokenHandover ·))
  | requestRecordWrite => exact .next (.onDev (.requestRecordWrite ·))
  | flush => exact .next .reg32
  | srvAdmParamWrite => exact .next .reg32
  | srvAdmPool => exact .next .reg32
  | srvRtSel => exact .next .reg32
  | srvDeltaSel => exact .next .reg32
  | srvLateMaxClr => exact .next .reg32
  | fabLinkEn => exact .next .reg32
  | retrain => exact .next .reg32
  | retire => exact .next .reg32
  | linkTrained => exact .next (.onDev (.linkTrained ·))
  | trainTimeout => exact .next (.onDev (.trainTimeout ·))
  | linkRetry => exact .next (.onDev (.linkRetry ·))
  | laneLoss => exact .next (.onDev (.laneLoss ·))
  | fecLimit => exact .next (.onDev (.fecLimit ·))
  | beatBoundary => exact .next (.onDev (.beatBoundary ·))
  | paceWord => exact .next (.onDev (.paceWord ·))
  | bend => exact .next (.onDev (.bend ·))
  | bendDeadline => exact .next (.onDev (.bendDeadline ·))
  | notice => exact .next (.onDev (.notice ·))
  | slotTx => exact .next (.onDev (.slotTx ·))
  | slotRx => exact .next (.onDev (.slotRx ·))
  | rootTimeout => exact .next (.onDev (.rootTimeout ·))
  | timeLost => exact .next (.onDev (.timeLost ·))
  | foldCommandStart => exact .next (.onDev (.foldCommandStart ·))
  | sectPartLayout => exact .next .reg32
  | layoutDone => exact .next (.onDev (.layoutDone ·))
  | partitionReset => exact .next (.ite .reg32 .refl)
  | resetRetrainDone => exact .next (.onDev (.phaseFourEnds ·))
  | stackReadyTimeout => exact .next (.onDev (.stackReadyTimeout ·))
  | suspectReplay => exact .next (.onDev (.replayEnds ·))
  | resetEnd => exact .next (.onDev (.resetEnd ·))
  | sliceBoundary => exact .next (.onDev (.sliceBoundary ·))
  | sectSliceCtrl => exact .next .reg32
  | vfFlr => exact .next (.onDev fun h => .onVf h fun _ h => .vfFlr h)
  | vfFlrEscalate => exact .next (.onDev fun h => .onVf h fun _ h => .vfFlrEscalate h)
  | pfFlr => exact .next (.onDev fun h => .ite (.wakeSource (.pfFlr h)) h)
  | blkIntForce => exact .next .reg32
  | errClr => exact .next .reg32
  | registerWrite => exact .next .regWrite
  | bar4Read => exact .next (.onDev fun h => .bar4Access h fun _ h => .bar4Read h)
  | bar4Write => exact .next (.onDev fun h => .bar4Access h fun _ h => .bar4Write h)
  | writeBufferDrain => exact .next (.onDev (.drainOne ·))
  | serviceWindow => exact .next (.onDev (.serviceWindow ·))
  | refreshPeriod => exact .next (.onDev (.refreshPeriod ·))
  | stackTempSample => exact .next (.onDev (.stackTempSample ·))
  | bitmapClearDone => exact .next (.onDev (.bitmapClearDone ·))
  | scrubStep => exact .next (.onDev (.scrubStep ·))
  | csTempMaxClr => exact .next .reg32
  | csWinWaitClr => exact .next .reg32
  | returnUnit => exact .next .reg32
  | rasUnitSel => exact .next .reg32
  | rasSuspSel => exact .next .reg32
  | rasInject => exact .next .regWrite
  | powerOn => exact .next .powerOn
  | railsGood => exact .next (.onDev (.railsGood ·))
  | powerOnComplete => exact .next (.onDev (.powerOnComplete ·))
  | perstN => exact .next .perstFalls
  | hotReset => exact .next .linkReset
  | dlDown => exact .next .linkReset
  | linkUp => exact .next (.onDev (.linkUpEvent ·))
  | hostReadCompletion => exact .next (.onDev (.hostReadCompletion ·))
  | completionTimeout => exact .next (.onDev (.completionTimeout ·))
  | atomicopRequest => exact .next (.onDev (.unsupportedRequest ·))
  | ioRequest => exact .next (.onDev (.unsupportedRequest ·))
  | poisonedTlp => exact .next (.onDev (.poisonedTlp ·))
  | ideInsecure => exact .next (.onDev (.ideInsecure ·))
  | entered => exact .next (.onDev (.entered ·))
  | wake => exact .next .reg32
  | wakeDone => exact .next (.onDev (.wakeDone ·))
  | padRelease => exact .next .reg32
  | shutdown => exact .next .reg32
  | supplySag => exact .next (.onDev (.supplySag ·))
  | saveEnd => exact .next (.onDev (.saveEnd ·))
  | thermalSample => exact .next (.onDev (.thermalSample ·))
  | recalibration => exact .next (.onDev (.recalibrate ·))
  | powerSample => exact .next (.onDev (.powerSample ·))
  | rateUpdate => exact .next (.onDev (.rateUpdate ·))
  | droop => exact .next (.onDev (.droop ·))
  | droopHoldExpiry => exact .next (.onDev (.droopHoldExpiry ·))
  | sectorClockOff => exact .next (.onDev (.sectorClockOff ·))
  | sectorWake => exact .next (.onDev (.sectorWake ·))
  | pwrClk => exact .next .reg32
  | clockSwitch => exact .next (.onDev (.clockSwitch ·))
  | pwrPhaseSel => exact .next .reg32
  | pwrPhaseClear => exact .next .reg32
  | pwrPowerClr => exact .next .reg32
  | thmMonSel => exact .next .reg32
  | thmMaxClr => exact .next .reg32
  | go => exact .next .reg32
  | reboot => exact .next .reg32
  | identityRead => exact .next (.onDev (.identityRead ·))
  | sensorRead => exact .next (.onDev (.sensorRead ·))
  | logRead => exact .next (.onDev (.logRead ·))
  | logInfo => exact .next (.onDev (.logInfo ·))
  | keyEnrol => exact .next (.onDev (.keyEnrol ·))
  | keyRevoke => exact .next (.onDev (.keyRevoke ·))
  | keyList => exact .next (.onDev (.keyList ·))
  | cfgRead => exact .next (.onDev (.cfgRead ·))
  | debugChallenge => exact .next (.onDev (.debugChallenge ·))
  | debugOpen => exact .next (.onDev (.debugOpen ·))
  | configurationWrite => exact .next (.onDev (.configurationWrite ·))
  | logFlush => exact .next (.onDev (.logFlush ·))
  | setEndpointId => exact .next (.onDev (.setEndpointId ·))
  | vdmWake => exact .next (.onDev (.vdmWake ·))
  | getVersion => exact .next (.onDev (.getVersion ·))
  | getCapabilities => exact .next (.onDev (.getCapabilities ·))
  | negotiateAlgorithms => exact .next (.onDev (.negotiateAlgorithms ·))
  | getDigests => exact .next (.onDev (.getDigests ·))
  | getCertificate => exact .next (.onDev (.getCertificate ·))
  | challenge => exact .next (.onDev (.challenge ·))
  | getMeasurements => exact .next (.onDev (.getMeasurements ·))
  | keyExchange => exact .next (.onDev (.keyExchange ·))
  | finish => exact .next (.onDev (.finishSession ·))
  | heartbeat => exact .next (.onDev (.heartbeat ·))
  | keyUpdate => exact .next (.onDev (.keyUpdate ·))
  | endSession => exact .next (.onDev (.endSession ·))
  | attestationKeyGen => exact .next (.onDev (.attestationKeyGen ·))
  | queryDeviceIdentifiers => exact .next (.onDev (.queryDeviceIdentifiers ·))
  | getFirmwareParameters => exact .next (.onDev (.getFirmwareParameters ·))
  | requestUpdate => exact .next (.onDev (.requestUpdate ·))
  | passComponentTable => exact .next (.onDev (.passComponentTable ·))
  | updateComponent => exact .next (.onDev (.updateComponent ·))
  | requestFirmwareData => exact .next (.onDev (.requestFirmwareData ·))
  | transferComplete => exact .next (.onDev (.transferComplete ·))
  | verifyComplete => exact .next (.onDev (.verifyComplete ·))
  | applyComplete => exact .next (.onDev (.applyComplete ·))
  | activateFirmware => exact .next (.onDev (.activateFirmware ·))
  | getStatus => exact .next (.onDev (.getStatus ·))
  | cancelUpdateComponent => exact .next (.onDev (.cancelUpdateComponent ·))
  | cancelUpdate => exact .next (.onDev (.cancelUpdate ·))
  | perstNRise => exact .next .perstRises
  | wakeNRelease => exact .next (.onDev (.wakeNRelease ·))
  | bendSend => exact .next (.onDev (.bendSend ·))
  | ganderLinkMessage => exact .next (.onDev (.ganderLinkMessage ·))
  | pciConfigWrite => exact .next (.onDev (.configWrite ·))
  | lowWordRead => exact .next .lowWordRead
  | ideKm => exact .next (.onDev (.ideKm ·))
  | pldmPlatformMonitoring => exact .next (.onDev (.pldmPlatformMonitoring ·))
  | pldmBaseDiscovery => exact .next (.onDev (.pldmBaseDiscovery ·))
  | i3cDynamicAddress => exact .next (.onDev (.i3cDynamicAddress ·))
  | stackRetrainDone => exact .next (.onDev (.stackRetrainDone ·))

/-- What passes while no command waits comes after the state as a command's effect does. -/
theorem tick_after (s : State) : s.after (s.onDev Dev.tick) := .onDev .tick

/-- Settles O57. -/
theorem everyCommandCompletesAndKeepsTheIdentity : Obligations.EveryCommandCompletesAndKeepsTheIdentity := by
  unfold Obligations.EveryCommandCompletesAndKeepsTheIdentity
  intro c s
  obtain ⟨t, ht, hp, hi, -⟩ := exec_completes c s
  exact ⟨t, ht, hp, hi⟩

/-- Settles O59. -/
theorem stepsKeepMemoriesCanonical : Obligations.StepsKeepMemoriesCanonical := by
  unfold Obligations.StepsKeepMemoriesCanonical
  intro s t hm hs
  unfold step at hs
  split at hs
  · cases hs
    exact (tick_after s).2.2 hm
  next c rest _ =>
    obtain ⟨u, hu, -, -, hd⟩ := exec_completes c { s with pending := rest }
    rw [hu] at hs
    cases hs
    exact hd hm

end Sys2Proof.Machine
end

section
/-! # A step, and the state after reset (StepRunsTheFrontCommand, ResetLeavesTheResetColumn) -/

namespace Sys2Proof.Machine

/-- Settles O60, by evaluating the state after reset. -/
theorem resetLeavesTheResetColumn : Obligations.ResetLeavesTheResetColumn := by
  unfold Obligations.ResetLeavesTheResetColumn
  have hpads : State.reset.padsKept := ⟨rfl, fun h => absurd h (by decide)⟩
  refine ⟨rfl, hpads, ⟨rfl, rfl, rfl, rfl, rfl⟩, fun _ => ⟨rfl, rfl, rfl⟩, rfl, rfl, rfl, by decide +kernel, fun _ => rfl, ?_, ?_, ?_⟩
  · decide +kernel
  · decide +kernel
  · decide +kernel

theorem Dev.foldl_sendLink (is : List Nat) (d : Dev) (m : LinkMsg) :
    is.foldl (fun d i => d.sendLink i m) d = d.onFab (fun x => { x with sent := x.sent ++ is.map (fun i => (i, m)) }) := by
  induction is generalizing d with
  | nil => simp [Dev.onFab]
  | cons i is ih =>
    rw [List.foldl_cons, ih]
    simp [Dev.sendLink, Dev.onFab]

/-- With no stack interface down, an AON clock period begins no reset. -/
theorem Dev.resetFailedStacks_of_up {d : Dev} (h : ∀ n < 12, (d.stackSt n).ifDown = false) : d.resetFailedStacks = d := by
  unfold Dev.resetFailedStacks
  refine List.foldlRecOn (motive := fun e : Dev => e = d) _ _ rfl fun e he n hn => ?_
  subst he
  simp [h n (List.mem_range.mp hn)]

theorem onlyIn_timeFab (d : Dev) {time : Nat} {fab : Fab} : d.onlyIn { d with time := time, fab := fab } [.time, .fab] := by
  intro c hc
  cases c <;> first | rfl | exact absurd hc (by decide)

/-- Settles O56, by the command that waits and, with none, by what a clock period does: without a failed stack it slews and sends
the pace word that is due. -/
theorem stepRunsTheFrontCommand : Obligations.StepRunsTheFrontCommand := by
  unfold Obligations.StepRunsTheFrontCommand
  refine ⟨fun s c rest h => by simp [step, h], fun s h => ⟨s.dev.tick, by simp [step, h, State.onDev], fun hup => ?_, fun hup hst => ?_⟩⟩
  · simp [Dev.tick, hup]
  · have htick : s.dev.tick = Dev.flushPace { s.dev with
        time := ((s.dev.time : Int) + 40 + s.dev.fab.slew).toNat, fab := { s.dev.fab with slew := 0 } } := by
      simp [Dev.tick, hup, Dev.resetFailedStacks_of_up hst]
    rw [htick, Dev.flushPace]
    split
    next hdue =>
      rw [Dev.sendPace]
      split
      next hfull =>
        refine ⟨rfl, onlyIn_timeFab _, fun _ => rfl, fun hs => absurd hs.2.2 (Nat.not_lt.mpr hfull)⟩
      next hroom =>
        rw [Dev.sendAll, Dev.foldl_sendLink]
        exact ⟨rfl, onlyIn_timeFab _, fun hs => absurd ⟨hdue.1, hdue.2, Nat.lt_of_not_le hroom⟩ hs, fun _ => rfl⟩
    next hdue =>
      exact ⟨rfl, onlyIn_timeFab _, fun _ => rfl, fun hs => absurd ⟨hs.1, hs.2.1⟩ hdue⟩

end Sys2Proof.Machine
end

section
/-! # The vector slot (VectorInstructionsCompute) -/

namespace Sys2Proof.Machine

/-- A vector instruction of the plain layout that computes `es` has run. -/
theorem vectorDone_of_vecIssue {s : State} {t : TileId} {op : Nat} {c : Cmd} {w : W64} {es : List Elem} {fl : Byte}
    {f : List Elem → List Elem → List Elem → List (Elem × Byte)} (h : s.dev.vectorReady t op c w)
    (hop : opDefined 1 op = true ∧ op ≠ 0)
    (hes : (f ((s.dev.tile t).vreg (vA w)) ((s.dev.tile t).vreg (vB w)) ((s.dev.tile t).vreg (vC w))).map (·.1) = es)
    (hfl : orAll ((f ((s.dev.tile t).vreg (vA w)) ((s.dev.tile t).vreg (vB w)) ((s.dev.tile t).vreg (vC w))).map (·.2)) = fl) :
    s.dev.vectorDone (s.dev.vecIssue t op 26 f) t c (vD w) es fl := by
  subst hes hfl
  have hw : opOf w = op := h.1.2.2.2.2.2.1
  exact Dev.vecIssue_done h (wordReason_defined (hw ▸ hop.1) (hw ▸ hop.2))

theorem vectorPair_of_vec2Issue {row : TileId → Instr} {op : Nat} {f : W32 → W32 → W32 × Byte} (hop : opDefined 1 op = true ∧ op ≠ 0)
    (hrow : ∀ (t : TileId) (s : State), exec (row t) s = .next (s.onDev fun d => d.vec2Issue t op f)) : VectorPair row op f := by
  intro s t c w h
  refine ⟨_, hrow t s, vectorDone_of_vecIssue h hop ?_ ?_⟩
  · simp only [vec2, List.zip, List.map_zipWith, elem2]
  · simp only [vec2, List.zip, List.map_zipWith, elem2]

theorem vectorUnary_of_vec1Issue {row : TileId → Instr} {op : Nat} {f : W32 → W32 × Byte} (hop : opDefined 1 op = true ∧ op ≠ 0)
    (hrow : ∀ (t : TileId) (s : State), exec (row t) s = .next (s.onDev fun d => d.vec1Issue t op f)) : VectorUnary row op f := by
  intro s t c w h
  refine ⟨_, hrow t s, vectorDone_of_vecIssue h hop ?_ ?_⟩
  · simp only [vec1, List.map_map, Function.comp_def, elem1]
  · simp only [vec1, List.map_map, Function.comp_def, elem1]

theorem vfma_done {s : State} {t : TileId} {c : Cmd} {w : W64} (h : s.dev.vectorReady t 3 c w) :
    let a := (s.dev.tile t).vreg (vA w)
    let b := (s.dev.tile t).vreg (vB w)
    let z := (s.dev.tile t).vreg (vC w)
    s.dev.vectorDone (s.dev.vfmaIssue t) t c (vD w)
      (List.zipWith (fun x (p : Elem × Elem) => ⟨(ffma x.val p.1.val p.2.val).1, x.poison || p.1.poison || p.2.poison⟩) a (b.zip z))
      (orAll (List.zipWith (fun x (p : Elem × Elem) => (ffma x.val p.1.val p.2.val).2) a (b.zip z))) := by
  refine vectorDone_of_vecIssue h (by decide) ?_ ?_
  · rw [List.map_map, List.map_zip_eq_zipWith]; rfl
  · rw [List.map_map, List.map_zip_eq_zipWith]; rfl

theorem orAll_eq_zero {fs : List Byte} (h : ∀ f ∈ fs, f = 0) : orAll fs = 0 := by
  refine List.foldlRecOn (motive := fun x : Byte => x = 0) fs _ rfl fun x hx f hf => ?_
  rw [hx, h f hf]
  rfl

theorem vimm_done {s : State} {t : TileId} {c : Cmd} {w : W64} (h : s.dev.issuing t 1 0xC c w) (hz : bitsOf w 11 21 = 0)
    (hw : (s.dev.tile t).written.contains (vD w) = false) :
    s.dev.vectorDone (s.dev.vimmIssue t) t c (vD w) (List.replicate 128 ⟨BitVec.ofNat 32 (bitsOf w 32 32), false⟩) 0 := by
  have hop : opOf w = 0xC := h.2.2.2.2.2.1
  have hdone := s.dev.putVreg_slotDone h.2.2.2.2.2.2.1 t 1 c (vD w)
    (List.replicate 128 (⟨BitVec.ofNat 32 (bitsOf w 32 32), false⟩, 0))
  have hfl : orAll (List.replicate 128 (0 : Byte)) = 0 := orAll_eq_zero fun f hf => List.eq_of_mem_replicate hf
  rw [List.map_replicate, List.map_replicate, hfl] at hdone
  unfold Dev.vimmIssue
  rw [Dev.issue_performs h (wordReason_defined (by rw [hop]; decide) (by rw [hop]; decide)) (by simp_all [Dev.conflict]) (by simp)]
  exact hdone

theorem Cq.flagged_zero (q : Cq) (c : Nat) : q.flagged c 0 = q := by
  have hid : (fun x : Cmd => if x.id = c then { x with aflags := x.aflags ||| 0 } else x) = id := by
    funext x
    simp
  simp only [Cq.flagged, hid, List.map_id]

theorem Dev.putVreg_clean {d : Dev} (hu : d.upsets = []) (t : Nat) (c : Cmd) (r : Nat) (es : List (Elem × Byte)) :
    d.putVreg t c r es = (d.modTile t (fun x => x.setVreg r (es.map (·.1)))).addFlags c.id (orAll (es.map (·.2))) := by
  simp [Dev.putVreg, Dev.regDrop, Dev.dropWords, hu, orAll, List.foldl_map]

/-- A second result register, whose writing raises no flags, joins a first. -/
theorem Dev.putVreg_twice {d : Dev} (hu : d.upsets = []) (t s : Nat) (c : Cmd) {r q : Nat} (hrq : q ≠ r) (es fs : List Elem) :
    let e := ((d.putVreg t c r (es.map (·, 0))).putVreg t c q (fs.map (·, 0))).slotDone t s
    (e.tile t).now r = es ∧ (e.tile t).now q = fs ∧ (d.tile t).vregsBut (e.tile t) [r, q] ∧ d.tilesBut e t
      ∧ e.cq = d.cq.flagged c.id 0 ∧ d.onlyIn e [.tiles, .cq] := by
  have hz (l : List Elem) : orAll ((l.map (·, (0 : Byte))).map (·.2)) = 0 := orAll_eq_zero (by simp)
  have hv (l : List Elem) : (l.map (·, (0 : Byte))).map (·.1) = l := by simp [Function.comp_def]
  have h1 := d.putVreg_clean hu t c r (es.map (·, 0))
  rw [hz, hv] at h1
  have hcq : (d.putVreg t c r (es.map (·, 0))).cq = d.cq.flagged c.id 0 := by rw [h1]; rfl
  obtain ⟨hnow, ⟨hothers, hwork, hcur⟩, hbut, hflag, honly⟩ :=
    (d.putVreg t c r (es.map (·, 0))).putVreg_slotDone (by rw [h1]; exact hu) t s c q (fs.map (·, 0))
  rw [hz] at hflag
  rw [hv] at hnow
  have ht : (d.putVreg t c r (es.map (·, 0))).tile t = (d.tile t).setVreg r es := by
    rw [h1, Dev.addFlags, Dev.tile_modCmd, Dev.tile_modTile_self]
  rw [ht] at hothers hwork hcur
  refine ⟨?_, hnow, ⟨fun p hp => ?_, ?_, hcur⟩, fun u hne => ?_, ?_, ?_⟩
  · exact (hothers r (by simpa using hrq.symm)).trans (Tile.now_setVreg_self _ _ _)
  · simp only [List.contains_cons, Bool.or_eq_false_iff, beq_eq_false_iff_ne] at hp
    exact (hothers p (by simpa using hp.2.1)).trans (Tile.now_setVreg_ne _ _ hp.1)
  · exact ⟨rfl, hwork.2⟩
  · refine (hbut u hne).trans ?_
    rw [h1, Dev.addFlags, Dev.tile_modCmd]
    exact d.tile_modTile_ne _ hne
  · rw [hflag, hcq, Cq.flagged_zero]
  · refine Dev.onlyIn_trans (e := d.putVreg t c r (es.map (·, 0))) ?_ honly
    rw [h1]
    intro k hk
    cases k <;> first | rfl | simp at hk

/-- Settles O1: the rows of the plain layout by `vectorDone_of_vecIssue`, VIMM and VPMAXI by what writing their registers does. -/
theorem vectorInstructionsCompute : Obligations.VectorInstructionsCompute := by
  unfold Obligations.VectorInstructionsCompute
  refine ⟨⟨?_, ?_, ?_, ?_⟩, ⟨?_, ?_, ?_, ?_⟩, ⟨?_, ?_, ?_⟩, ?_⟩
  · exact vectorPair_of_vec2Issue (by decide) fun _ _ => rfl
  · exact vectorPair_of_vec2Issue (by decide) fun _ _ => rfl
  · exact vectorPair_of_vec2Issue (by decide) fun _ _ => rfl
  · exact vectorPair_of_vec2Issue (by decide) fun _ _ => rfl
  · exact vectorUnary_of_vec1Issue (by decide) fun _ _ => rfl
  · exact vectorUnary_of_vec1Issue (by decide) fun _ _ => rfl
  · exact vectorUnary_of_vec1Issue (by decide) fun _ _ => rfl
  · exact vectorUnary_of_vec1Issue (by decide) fun _ _ => rfl
  · exact fun s t c w h => ⟨_, rfl, vfma_done h⟩
  · intro s t c w h a b sums
    refine ⟨_, rfl, vectorDone_of_vecIssue h (by decide) ?_ ?_⟩
    · rfl
    · rfl
  · exact fun s t c w h hz hw => ⟨_, rfl, vimm_done h hz hw⟩
  · intro s t c w h hz hne hd hc a b second mark pick vals idx
    have hop : opOf w = 0xB := h.2.2.2.2.2.1
    have htwice := Dev.putVreg_twice h.2.2.2.2.2.2.1 t 1 c hne
      ((List.range 64).map (fun i => (maxStep a b i).1) ++ (List.range 64).map (fun i => (maxStep a b i).1))
      ((List.range 64).map (fun i => (maxStep a b i).2) ++ (List.range 64).map (fun i => (maxStep a b i).2))
    have hrun : s.dev.vpmaxiIssue t = _ := Dev.issue_performs h (wordReason_defined (by rw [hop]; decide) (by rw [hop]; decide))
      (by simp_all [Dev.conflict]) (by simp)
    refine ⟨_, rfl, ?_⟩
    simp only [hrun, List.map_map, Function.comp_def, List.map_append] at htwice ⊢
    exact htwice

end Sys2Proof.Machine
end

section
/-! # O37: the common header -/

namespace Sys2Proof.Machine

/-! ## Register writes (R324, R425, R447) -/

/-- A word in place, of a register of one word that is open to its writer, goes to the register itself. -/
theorem State.regWrite_word {s : State} {f a : Nat} {r : RegRow} {v : W64} (h : s.dev.regOpen f a) (hf : findReg a = some (r, a))
    (hs : r.size ≠ 8) (ha : a % 4 = 0) (hm : a < msixTable) :
    s.regWrite f a 4 v = s.atReg f a (BitVec.ofNat 64 (v.toNat % 2 ^ 32)) := by
  obtain ⟨hopen, hlow⟩ := h
  have hplace : ¬ (((4 : Nat) ≠ 4 ∧ (4 : Nat) ≠ 8) ∨ a % 4 ≠ 0) := by omega
  have hmsix : ¬ (msixTable ≤ a ∧ a < msixTable + 1024) := by omega
  simp only [State.regWrite, hopen, if_true, State.bar0Write, hlow, State.freshWrite, if_neg hplace, if_neg hmsix, hf, if_neg hs]
  simp

theorem ofNat_zeroExtend (v : W32) : BitVec.ofNat 64 ((v.zeroExtend 64).toNat % 2 ^ 32) = v.zeroExtend 64 := by
  apply BitVec.eq_of_toNat_eq
  have hv : v.toNat < 2 ^ 32 := v.isLt
  have hw : v.toNat % 2 ^ 64 = v.toNat := Nat.mod_eq_of_lt (by omega)
  simp only [BitVec.toNat_ofNat, BitVec.zeroExtend, BitVec.toNat_setWidth, hw, Nat.mod_eq_of_lt hv]

theorem State.reg32_word {s : State} {f a : Nat} {r : RegRow} {v : W32} (h : s.dev.regOpen f a) (hf : findReg a = some (r, a))
    (hs : r.size ≠ 8) (ha : a % 4 = 0) (hm : a < msixTable) : s.reg32 f a v = s.atReg f a (v.zeroExtend 64) := by
  rw [State.reg32, State.regWrite_word h hf hs ha hm, ofNat_zeroExtend]

/-- What a function does not write it leaves alone. -/
theorem State.atReg_unseen {s : State} {f a : Nat} {v : W64} (h : (s.dev.view f a).2 = false) : s.atReg f a v = s := by
  unfold State.atReg
  split
  · rfl
  · simp [h]

/-- A register that no row of the power and recovery controls gives a meaning of its own takes a write by its page. -/
theorem State.atReg_page {s : State} {f a : Nat} {r : RegRow} {b : Nat} {v : W64} (hf : findReg a = some (r, b))
    (h : (s.dev.view f a).2 = true) (h1 : a ≠ rPwrCtrl) (h2 : a ≠ rMgmtRcvCtrl) :
    s.atReg f a v = s.onDev (fun d => d.applyReg f a r v) := by
  simp [State.atReg, hf, h, h1, h2]

/-! ## The common header -/

theorem pageOf_add {page o : Nat} (hp : page % 4096 = 0) (ho : o < 4096) : pageOf (page + o) = page := by
  simp only [pageOf]
  omega

/-- The header register at `o` of a page. -/
theorem findReg_header {page o : Nat} {r : RegRow} (hi : (pageInfo page).isSome = true) (hp : page % 4096 = 0) (ho : o < 0x40)
    (hr : rows_HDR.find? (fun r => r.covers o) = some r) (hc : r.count ≤ 1) : findReg (page + o) = some (r, page + r.off) := by
  obtain ⟨x, hx⟩ := Option.isSome_iff_exists.mp hi
  have hpage : pageOf (page + o) = page := pageOf_add hp (by omega)
  have hmod : (page + o) % 4096 = o := by omega
  simp only [findReg, hpage, hx, hmod, if_pos ho, hr, if_pos hc]

theorem page_lt_msixTable {page : Nat} (hi : (pageInfo page).isSome = true) : page + 0x40 < msixTable := by
  unfold msixTable
  by_contra hlt
  have hbig : 0x3FEFFC0 ≤ page := by omega
  have hn : pageInfo page = none := by
    unfold pageInfo
    repeat' rw [if_neg (by omega)]
  rw [hn] at hi
  exact absurd hi (by decide)

theorem Dev.view_header_pf (d : Dev) {page o : Nat} (hi : (pageInfo page).isSome = true) (hp : page % 4096 = 0) (ho : o < 0x40) :
    d.view 0 (page + o) = (true, true) := by
  obtain ⟨⟨t, k, j, rows⟩, hx⟩ := Option.isSome_iff_exists.mp hi
  have hmod : (page + o) % 4096 = o := by omega
  simp [Dev.view, pageOf_add hp (show o < 4096 by omega), hx, hmod, Dev.sectLive, ho]

theorem Dev.view_header_vf (d : Dev) {page o f : Nat} (hi : (pageInfo page).isSome = true) (hp : page % 4096 = 0) (ho : o < 0x40)
    (hf : f ≠ 0) (h1 : o ≠ 0x10) (h2 : o ≠ 0x14) : (d.view f (page + o)).2 = false := by
  obtain ⟨⟨t, k, j, rows⟩, hx⟩ := Option.isSome_iff_exists.mp hi
  have hmod : (page + o) % 4096 = o := by omega
  simp only [Dev.view, pageOf_add hp (show o < 4096 by omega), hx, hmod, Dev.sectLive, ho, hf, Dev.vfView]
  by_cases ht : t = 0 <;> simp [ht, h1, h2]

/-- A write of the header register at `o` by the PF. -/
theorem State.reg_header {s : State} {page o : Nat} {r : RegRow} {v : W64} (hi : (pageInfo page).isSome = true) (hp : page % 4096 = 0)
    (ho : o < 0x40) (hr : rows_HDR.find? (fun r => r.covers o) = some r) (hro : r.off = o ∧ r.count ≤ 1 ∧ r.size ≠ 8) (ho4 : o % 4 = 0)
    (h : s.dev.regOpen 0 (page + o)) :
    s.regWrite 0 (page + o) 4 v = s.onDev (fun d => d.writeHeader 0 page o (BitVec.ofNat 64 (v.toNat % 2 ^ 32))) := by
  have hlt := page_lt_msixTable hi
  have hf : findReg (page + o) = some (r, page + o) := by rw [findReg_header hi hp ho hr hro.2.1, hro.1]
  have hmod : (page + o) % 4096 = o := by omega
  have hne : page + o ≠ rPwrCtrl ∧ page + o ≠ rMgmtRcvCtrl := by
    simp only [rPwrCtrl, rMgmtRcvCtrl]
    omega
  rw [State.regWrite_word h hf hro.2.2 (by omega) (by omega),
    State.atReg_page hf (by rw [Dev.view_header_pf _ hi hp ho]) hne.1 hne.2]
  simp only [Dev.applyReg, hmod, if_pos ho, pageOf_add hp (show o < 4096 by omega)]

theorem State.reg32_header {s : State} {page o : Nat} {r : RegRow} {v : W32} (hi : (pageInfo page).isSome = true) (hp : page % 4096 = 0)
    (ho : o < 0x40) (hr : rows_HDR.find? (fun r => r.covers o) = some r) (hro : r.off = o ∧ r.count ≤ 1 ∧ r.size ≠ 8) (ho4 : o % 4 = 0)
    (h : s.dev.regOpen 0 (page + o)) :
    s.reg32 0 (page + o) v = s.onDev (fun d => d.writeHeader 0 page o (v.zeroExtend 64)) := by
  rw [State.reg32, State.reg_header hi hp ho hr hro ho4 h, ofNat_zeroExtend]

/-- Setting events clears none: every bit of `w` and every bit set before is set. -/
theorem Dev.raise_keeps (d : Dev) {page : Nat} (hp : rBlkIntStat page ≠ rHifTxDrop) (w : W64) :
    (d.reg (rBlkIntStat page) ||| w) &&& ~~~ (d.raise page w.toNat).reg (rBlkIntStat page) = 0 := by
  apply BitVec.eq_of_getLsbD_eq
  intro i hi
  cases hb : (d.reg (rBlkIntStat page) ||| w).getLsbD i
  · simp [BitVec.getLsbD_and, hb]
  · have hset : (d.raise page w.toNat).event page i = true := by
      refine Dev.signal_event hp ?_ d
      rw [Dev.event, Dev.modReg, Dev.reg_setReg_self, BitVec.ofNat_toNat, BitVec.setWidth_eq]
      exact hb
    rw [Dev.event, bitOf] at hset
    simp [BitVec.getLsbD_and, BitVec.getLsbD_not, hset]

theorem Dev.raise_reg_ne_hif (d : Dev) {page : Nat} (hp : rBlkIntStat page ≠ rHifTxDrop) (hh : page ≠ pgHif) (w : W64) :
    (d.raise page w.toNat).reg (rBlkIntStat page) = d.reg (rBlkIntStat page) ||| w := by
  have hne : rBlkIntStat page ≠ rBlkIntStat pgHif := by
    simp only [rBlkIntStat]
    omega
  rw [Dev.raise, Dev.signal_regsBut _ _ _ (by simp [hp, hne]), Dev.modReg, Dev.reg_setReg_self, BitVec.ofNat_toNat, BitVec.setWidth_eq]

/-- A field that lies within the word is the same in the word's extension to 64 bits. -/
theorem fld_zeroExtend (v : W32) (f : Fld) : fld (v.zeroExtend 64) f = fld v f := by
  have hv : v.toNat < 2 ^ 64 := by omega
  simp only [fld, bitsOf, BitVec.zeroExtend, BitVec.toNat_setWidth, Nat.mod_eq_of_lt hv]

/-- What is open to a function on a page is open at each of the page's words. -/
theorem Dev.regOpen_add {d : Dev} {f page o : Nat} (hp : page % 4096 = 0) (ho : o < 4096) (h : d.regOpen f page) :
    d.regOpen f (page + o) := by
  have hpage : pageOf page = page := pageOf_add (o := 0) hp (by decide)
  obtain ⟨hopen, hlow⟩ := h
  refine ⟨?_, hlow⟩
  simp only [Dev.bar0Open, pageOf_add hp ho, hpage] at hopen ⊢
  exact hopen

/-- A VF's write of a header register other than STAT and EN changes nothing. -/
theorem State.reg32_header_vf {s : State} {f page o : Nat} {r : RegRow} {v : W32} (hf : f ≠ 0) (hi : (pageInfo page).isSome = true)
    (hp : page % 4096 = 0) (ho : o < 0x40) (hr : rows_HDR.find? (fun r => r.covers o) = some r)
    (hro : r.off = o ∧ r.count ≤ 1 ∧ r.size ≠ 8) (ho4 : o % 4 = 0) (h1 : o ≠ 0x10) (h2 : o ≠ 0x14) (h : s.dev.regOpen f page) :
    s.reg32 f (page + o) v = s := by
  have hlt := page_lt_msixTable hi
  have hrow : findReg (page + o) = some (r, page + o) := by rw [findReg_header hi hp ho hr hro.2.1, hro.1]
  rw [State.reg32_word (Dev.regOpen_add hp (by omega) h) hrow hro.2.2 (by omega) (by omega),
    State.atReg_unseen (Dev.view_header_vf _ hi hp ho hf h1 h2)]

/-- Settles O37, by the rules of a word written to the header of a page. -/
theorem headerRegistersTakeWrites : Obligations.HeaderRegistersTakeWrites := by
  unfold Obligations.HeaderRegistersTakeWrites
  intro s page v hi hp d mask w
  have hstat : rBlkIntStat page ≠ rHifTxDrop := by
    simp only [rBlkIntStat, rHifTxDrop]
    omega
  have hw : BitVec.ofNat 64 (w.toNat % 2 ^ 32) = w := ofNat_zeroExtend v
  refine ⟨fun h => ?force, fun h => ?errClr, fun f hf h => ?vf, fun h => ?stat, fun h => ?en⟩
  case force =>
    have hexec : exec (.blkIntForce 0 page v) s = .next (s.onDev fun d => d.raise page (w &&& mask).toNat) :=
      congrArg Host.Outcome.next (State.reg32_header hi hp (by decide) rfl (by decide) rfl h)
    exact ⟨_, hexec, fun hh => d.raise_reg_ne_hif hstat hh _, d.raise_keeps hstat _, d.raise_regsBut _ _, d.raise_frame _ _⟩
  case errClr =>
    have hexec : exec (.errClr 0 page v) s = .next (s.onDev fun d => if fld w fBlkCtrl_ErrClr = 1 then d.setReg (rBlkErrCnt page) 0 else d) :=
      congrArg Host.Outcome.next (State.reg32_header hi hp (by decide) rfl (by decide) rfl h)
    have hclr : fld w fBlkCtrl_ErrClr = fld v fBlkCtrl_ErrClr := fld_zeroExtend v _
    rw [hclr] at hexec
    refine ⟨_, hexec, ?_⟩
    by_cases hc : fld v fBlkCtrl_ErrClr = 1
    · simp only [if_pos hc]
      exact ⟨Dev.reg_setReg_self _ _ _, d.regsBut_setReg _ _, d.setReg_frame _ _⟩
    · simp only [if_neg hc]
      exact ⟨rfl, fun _ _ => rfl, d.onlyIn_refl _⟩
  case vf =>
    have hf0 : (f : Nat) ≠ 0 := fun h0 => hf (Fin.ext h0)
    exact ⟨congrArg Host.Outcome.next (State.reg32_header_vf hf0 hi hp (by decide) rfl (by decide) rfl (by decide) (by decide) h),
      congrArg Host.Outcome.next (State.reg32_header_vf hf0 hi hp (by decide) rfl (by decide) rfl (by decide) (by decide) h)⟩
  case stat =>
    have hexec : exec (.registerWrite 0 (page + 0x10) 4 w) s = .next (s.onDev fun d => d.modReg (rBlkIntStat page) fun x => x &&& ~~~ (w &&& mask)) := by
      refine congrArg Host.Outcome.next ((State.reg_header hi hp (by decide) rfl (by decide) rfl h).trans ?_)
      rw [hw]
      rfl
    exact ⟨_, hexec, Dev.reg_setReg_self _ _ _, d.regsBut_setReg _ _, d.setReg_frame _ _⟩
  case en =>
    have hexec : exec (.registerWrite 0 (page + 0x14) 4 w) s
        = .next (s.onDev fun d => Dev.signal d (d.modReg (rBlkIntEn page) fun x => (x &&& ~~~ mask) ||| (w &&& mask))) := by
      refine congrArg Host.Outcome.next ((State.reg_header hi hp (by decide) rfl (by decide) rfl h).trans ?_)
      rw [hw]
      rfl
    have hdrop : rBlkIntEn page ≠ rHifTxDrop ∧ rBlkIntEn page ≠ rBlkIntStat pgHif := by
      simp only [rBlkIntEn, rBlkIntStat, rHifTxDrop, pgHif]
      omega
    refine ⟨_, hexec, ?_, ?_, ?_⟩
    · rw [Dev.signal_regsBut _ _ _ (by simp [hdrop])]
      exact Dev.reg_setReg_self _ _ _
    · exact Dev.regsBut_trans (Dev.regsBut_mono (d.regsBut_setReg _ _) (by simp)) (Dev.regsBut_mono (Dev.signal_regsBut _ _) (by simp))
    · exact Dev.onlyIn_trans (Dev.onlyIn_sub _ (d.setReg_frame _ _) rfl) (Dev.signal_frame _ _)

end Sys2Proof.Machine
end

section
/-! # Registers by page -/

namespace Sys2Proof.Machine

/-! ## The register map by page (16 R442 to R447) -/

/-- Offset `a` is register `o` of a page of type `t`, unit `k`, number `j`, past the common header, and its row is `r`. -/
structure RegAt (a t k j o : Nat) (r : RegRow) : Prop where
  info : ∃ rows, pageInfo (pageOf a) = some (t, k, j, rows)
  offset : a % 4096 = o
  row : findReg a = some (r, a)
  past : 0x40 ≤ o
  aligned : a % r.size = 0
  mapped : a < msixTable
  bytes : r.size = 4 ∨ r.size = 8

/-- A register is where the rows of its page put it. -/
theorem RegAt.of_page {page o t k j : Nat} {rows : List RegRow} {r : RegRow} (hi : pageInfo page = some (t, k, j, rows))
    (hp : page % 4096 = 0) (ho : 0x40 ≤ o ∧ o < 4096) (hr : rows.find? (fun r => r.covers o) = some r)
    (hat : (if r.count ≤ 1 then r.off else r.off + (o - r.off) / r.stride * r.stride) = o)
    (hb : r.size = 4 ∧ o % 4 = 0 ∨ r.size = 8 ∧ o % 8 = 0) : RegAt (page + o) t k j o r := by
  have hpage : pageOf (page + o) = page := pageOf_add hp ho.2
  have hmod : (page + o) % 4096 = o := by omega
  have hlt := page_lt_msixTable (page := page) (by rw [hi]; rfl)
  have hmap : page + o < msixTable := by
    have hm : msixTable % 4096 = 0 := rfl
    omega
  have hal : (page + o) % r.size = 0 := by
    rcases hb with ⟨h, h'⟩ | ⟨h, h'⟩ <;> rw [h] <;> omega
  refine ⟨⟨rows, by rw [hpage, hi]⟩, hmod, ?_, ho.1, hal, hmap, hb.imp And.left And.left⟩
  simp only [findReg, hpage, hi, hmod, if_neg (show ¬ o < 0x40 by omega), hr, hat]

section
variable {a t k j o : Nat} {r : RegRow}

theorem RegAt.view_pf (h : RegAt a t k j o r) (ht : t ≠ 3) (d : Dev) : d.view 0 a = (true, true) := by
  obtain ⟨rows, hi⟩ := h.info
  simp [Dev.view, hi, ht]

theorem RegAt.view_vf (h : RegAt a t k j o r) (ht : t ≠ 3) (d : Dev) {f : Nat} (hf : f ≠ 0) : d.view f a = d.vfView f t k j o := by
  obtain ⟨rows, hi⟩ := h.info
  simp [Dev.view, hi, ht, hf, h.offset]

/-- A word written by the function that writes the register takes it by the rules of its page. -/
theorem RegAt.write32 (h : RegAt a t k j o r) (hs : r.size = 4) (h1 : a ≠ rPwrCtrl) (h2 : a ≠ rMgmtRcvCtrl) {s : State} {f : Nat} {v : W32}
    (hopen : s.dev.regOpen f a) (hv : (s.dev.view f a).2 = true) :
    s.reg32 f a v = s.onDev (fun d => d.applyReg f a r (v.zeroExtend 64)) := by
  have hal := h.aligned
  rw [hs] at hal
  rw [State.reg32_word hopen h.row (by omega) hal h.mapped, State.atReg_page h.row hv h1 h2]

theorem RegAt.pf_write32 (h : RegAt a t k j o r) (ht : t ≠ 3) (hs : r.size = 4) (h1 : a ≠ rPwrCtrl) (h2 : a ≠ rMgmtRcvCtrl) {s : State}
    {v : W32} (hopen : s.dev.regOpen 0 a) : s.reg32 0 a v = s.onDev (fun d => d.applyReg 0 a r (v.zeroExtend 64)) :=
  h.write32 hs h1 h2 hopen (by rw [h.view_pf ht])

/-- A double word written to a register of eight bytes by the function that writes it. -/
theorem RegAt.write64 (h : RegAt a t k j o r) (hs : r.size = 8) (h1 : a ≠ rPwrCtrl) (h2 : a ≠ rMgmtRcvCtrl) {s : State} {f : Nat} {v : W64}
    (hopen : s.dev.regOpen f a) (hv : (s.dev.view f a).2 = true) :
    s.regWrite f a 8 v = s.onDev (fun d => d.applyReg f a r v) := by
  obtain ⟨hbar, hlow⟩ := hopen
  have hal := h.aligned
  rw [hs] at hal
  have hm := h.mapped
  have hmsix : ¬ (msixTable ≤ a ∧ a < msixTable + 1024) := by omega
  simp only [State.regWrite, hbar, if_true, State.bar0Write, hlow, State.freshWrite, if_neg hmsix, h.row, hs]
  simp [hal, State.atReg_page h.row hv h1 h2]

/-- What a function does not write it leaves alone. -/
theorem RegAt.unseen32 (h : RegAt a t k j o r) (hs : r.size = 4) {s : State} {f : Nat} {v : W32} (hopen : s.dev.regOpen f a)
    (hv : (s.dev.view f a).2 = false) : s.reg32 f a v = s := by
  have hal := h.aligned
  rw [hs] at hal
  rw [State.reg32_word hopen h.row (by omega) hal h.mapped, State.atReg_unseen hv]

theorem RegAt.vf_unseen32 (h : RegAt a t k j o r) (ht : t ≠ 3) (hs : r.size = 4) {s : State} {f : Func} {v : W32} (hf : f ≠ 0)
    (hopen : s.dev.regOpen f a) (hv : (s.dev.vfView f t k j o).2 = false) : s.reg32 f a v = s :=
  h.unseen32 hs hopen (by rw [h.view_vf ht _ (fun h0 => hf (Fin.ext h0))]; exact hv)

theorem RegAt.apply (h : RegAt a t k j o r) (d : Dev) (f : Nat) (v : W64) :
    d.applyReg f a r v =
      (if t = 1 then (if a = rHifBar4Win then d.writeBar4Win v else d)
      else if t = 2 then
        if 1 ≤ j ∧ j ≤ 4 then
          if o % 0x40 = 0 then d.writeQCfg (32 * (j - 1) + (o - 0x200) / 0x40) v else d.plainWrite a r v
        else if 5 ≤ j then
          if o % 0x40 = 0 then d.writeRBase (32 * (j - 5) + (o - 0x200) / 0x40) v
          else if o % 0x40 = 8 then d.writeRCfg f (32 * (j - 5) + (o - 0x200) / 0x40) v
          else if o % 0x40 = 0x14 then d.writeRHead (32 * (j - 5) + (o - 0x200) / 0x40) v
          else d.plainWrite a r v
        else d
      else if t = 3 then
        if j = 1 then d.writePartPage k a o r v
        else if 0x100 ≤ o ∧ (o - 0x100) % 0x40 = 0x10 then d.writeIllCtrl k ((o - 0x100) / 0x40) v
        else d.plainWrite a r v
      else if t = 4 then d.writeCs k j a o r v
      else if t = 5 then d.writeFab j a r v
      else if t = 6 then d.writeSrv f j a o r v
      else if t = 7 then d.writePwr a r v
      else if t = 8 then d.writeThm a r v
      else if t = 9 then d.writeRas a r v
      else if t = 10 then d.writeMgmt a o r v
      else d) := by
  obtain ⟨rows, hi⟩ := h.info
  have hpast : ¬ o < 0x40 := by have := h.past; omega
  simp only [Dev.applyReg, hi, h.offset, if_neg hpast]

end

/-! ## What a plain register takes (Table 0-4) -/

/-- Two words with the same bits of a field have the same field. -/
theorem fld_eq_of_bits {n m : Nat} {x : BitVec n} {y : BitVec m} {f : Fld} (h : ∀ i, i < f.len → x.getLsbD (f.lo + i) = y.getLsbD (f.lo + i)) :
    fld x f = fld y f := by
  apply Nat.eq_of_testBit_eq
  intro i
  simp only [fld, bitsOf, Nat.testBit_mod_two_pow, Nat.testBit_shiftRight]
  by_cases hi : i < f.len
  · simpa [hi, BitVec.getLsbD] using h i hi
  · simp [hi]

/-- The mask of a field covers it. -/
def fldWithin (f : Fld) (mask : Nat) : Bool := f.lo + f.len ≤ 64 && (List.range f.len).all (fun i => mask.testBit (f.lo + i))

/-- No bit of a field is in the mask. -/
def fldClearOf (f : Fld) (mask : Nat) : Bool := (List.range f.len).all (fun i => !mask.testBit (f.lo + i))

/-- What a write makes of one bit of a register, by its access type. -/
theorem RegRow.merge_bit (r : RegRow) (old v : W64) {i : Nat} (hi : i < 64) :
    (r.merge old v).getLsbD i = (((old.getLsbD i && !r.rw.testBit i) || (v.getLsbD i && r.rw.testBit i))
      && !(v.getLsbD i && r.w1c.testBit i) || (v.getLsbD i && r.w1s.testBit i)) := by
  simp only [RegRow.merge, BitVec.getLsbD_and, BitVec.getLsbD_or, BitVec.getLsbD_not, BitVec.getLsbD_ofNat, hi, decide_true, Bool.true_and]

/-- A field of RW bits takes what is written. -/
theorem RegRow.fld_merge {r : RegRow} {f : Fld} (hc : r.w1c = 0) (hs : r.w1s = 0) (hf : fldWithin f r.rw = true) (old v : W64) :
    fld (r.merge old v) f = fld v f := by
  simp only [fldWithin, Bool.and_eq_true, decide_eq_true_eq, List.all_eq_true, List.mem_range] at hf
  refine fld_eq_of_bits fun i hi => ?_
  rw [r.merge_bit old v (by omega), hf.2 i hi, hc, hs]
  simp

/-- A field of read-only bits stays. -/
theorem RegRow.fld_merge_ro {r : RegRow} {f : Fld} (hc : fldClearOf f r.w1c = true) (hs : fldClearOf f r.w1s = true)
    (hf : fldClearOf f r.rw = true) (old v : W64) : fld (r.merge old v) f = fld old f := by
  simp only [fldClearOf, List.all_eq_true, List.mem_range, Bool.not_eq_true'] at hc hs hf
  refine fld_eq_of_bits fun i hi => ?_
  by_cases hlt : f.lo + i < 64
  · rw [r.merge_bit old v hlt, hf i hi, hc i hi, hs i hi]
    simp
  · rw [BitVec.getLsbD_of_ge _ _ (by omega), BitVec.getLsbD_of_ge _ _ (by omega)]

theorem Dev.getF_plainWrite {d : Dev} {a : Nat} {r : RegRow} {f : Fld} (hc : r.w1c = 0) (hs : r.w1s = 0) (hf : fldWithin f r.rw = true) (v : W64) :
    (d.plainWrite a r v).getF a f = fld v f := by
  rw [Dev.getF, Dev.plainWrite, Dev.reg_setReg_self]
  exact RegRow.fld_merge hc hs hf _ _

theorem Dev.plainWrite_regsBut (d : Dev) (a : Nat) (r : RegRow) (v : W64) : d.regsBut (d.plainWrite a r v) [a] := d.regsBut_setReg _ _

theorem Dev.plainWrite_frame (d : Dev) (a : Nat) (r : RegRow) (v : W64) : d.onlyIn (d.plainWrite a r v) [.regs] := d.setReg_frame _ _

end Sys2Proof.Machine
end

section
/-! # O41: registers of stacks and units -/

namespace Sys2Proof.Machine

/-! ## Registers of stacks and units (O41) -/

theorem fld_lt {n : Nat} (x : BitVec n) (f : Fld) : fld x f < 2 ^ f.len := Nat.mod_lt _ (Nat.two_pow_pos _)

/-- What a field held fits a field as wide. -/
theorem Dev.getF_putF_getF (d : Dev) (a b : Nat) (f g : Fld) (hf : f.lo + f.len ≤ 64) (hw : g.len ≤ f.len) :
    (d.putF a f (d.getF b g)).getF a f = d.getF b g := by
  rw [Dev.getF_putF_self _ _ _ _ hf]
  exact Nat.mod_eq_of_lt (Nat.lt_of_lt_of_le (fld_lt _ _) (Nat.pow_le_pow_right (by decide) hw))

/-- A write that is discarded is counted, and does nothing else. -/
theorem Dev.blkErr_discarded (d : Dev) (page : Nat) : d.discarded (d.blkErr page) page :=
  ⟨d.getF_addF_one _ _ (by decide), d.regsBut_putF _ _ _, d.blkErr_frame _⟩

theorem pageInfo_cs0 (n : StackId) : pageInfo (0x400000 + 0x10000 * n.val) = some (4, n.val, 0, rows_cs0) := by
  have hn := n.isLt
  have hdiv : (0x400000 + 0x10000 * n.val - 0x400000) / 0x10000 = n.val := by omega
  have hmod : (0x400000 + 0x10000 * n.val - 0x400000) % 0x10000 = 0 := by omega
  unfold pageInfo
  iterate 6 rw [if_neg (by omega)]
  rw [if_pos (by omega), hdiv, hmod]
  rfl

theorem regAt_csTempMax (n : StackId) : RegAt (rCsTempMax n) 4 n 0 0x48 ⟨0x48, 0x0, 1, 4, 0x0, 0x0, 0x0, 0x80000000, 0x0⟩ :=
  RegAt.of_page (pageInfo_cs0 n) (by omega) (by decide) rfl rfl (by decide)

theorem regAt_csWinWait (n : StackId) : RegAt (rCsWinWait n) 4 n 0 0x54 ⟨0x54, 0x0, 1, 4, 0x0, 0x0, 0x0, 0x80000000, 0x0⟩ :=
  RegAt.of_page (pageInfo_cs0 n) (by omega) (by decide) rfl rfl (by decide)

theorem regAt_rasUnitSel : RegAt rRasUnitSel 9 0 0 0x50 ⟨0x50, 0x0, 1, 4, 0x1fff, 0x0, 0x0, 0x0, 0x0⟩ :=
  RegAt.of_page (page := 0xE00000) (rows := rows_ras) rfl rfl (by decide) rfl rfl (by decide)

theorem regAt_rasUnitCmd : RegAt rRasUnitCmd 9 0 0 0x58 ⟨0x58, 0x0, 1, 4, 0x0, 0x0, 0x0, 0x1, 0x0⟩ :=
  RegAt.of_page (page := 0xE00000) (rows := rows_ras) rfl rfl (by decide) rfl rfl (by decide)

theorem regAt_rasInject : RegAt rRasInject 9 0 0 0x60 ⟨0x60, 0x0, 1, 8, 0x3ffffffffc0, 0x0, 0x0, 0x0, 0x0⟩ :=
  RegAt.of_page (page := 0xE00000) (rows := rows_ras) rfl rfl (by decide) rfl rfl (by decide)

theorem regAt_rasSuspSel : RegAt rRasSuspSel 9 0 0 0x180 ⟨0x180, 0x0, 1, 4, 0xff, 0x0, 0x0, 0x0, 0x0⟩ :=
  RegAt.of_page (page := 0xE00000) (rows := rows_ras) rfl rfl (by decide) rfl rfl (by decide)

theorem csTempMaxClr_write {s : State} {n : StackId} {v : W32} (h : s.dev.regOpen 0 (rCsTempMax n)) :
    exec (.csTempMaxClr 0 n v) s = .next (s.onDev fun d => d.writeTempMax n (v.zeroExtend 64)) := by
  refine congrArg Host.Outcome.next (((regAt_csTempMax n).pf_write32 (by decide) rfl ?_ ?_ h).trans ?_)
  · simp only [rCsTempMax, rPwrCtrl]; omega
  · simp only [rCsTempMax, rMgmtRcvCtrl]; omega
  · simp [(regAt_csTempMax n).apply, Dev.writeCs]

theorem csWinWaitClr_write {s : State} {n : StackId} {v : W32} (h : s.dev.regOpen 0 (rCsWinWait n)) :
    exec (.csWinWaitClr 0 n v) s = .next (s.onDev fun d => d.writeWinWait n (v.zeroExtend 64)) := by
  refine congrArg Host.Outcome.next (((regAt_csWinWait n).pf_write32 (by decide) rfl ?_ ?_ h).trans ?_)
  · simp only [rCsWinWait, rPwrCtrl]; omega
  · simp only [rCsWinWait, rMgmtRcvCtrl]; omega
  · simp [(regAt_csWinWait n).apply, Dev.writeCs]

theorem Dev.writeTempMax_clears (d : Dev) (n : StackId) (v : W32) :
    (d.writeTempMax n (v.zeroExtend 64)).getF (rCsTempMax n) fCsTempMax_Max
        = (if fld v fCsTempMax_Clr = 1 then d.getF (rCsTemp n) fCsTemp_Temp else d.getF (rCsTempMax n) fCsTempMax_Max)
      ∧ d.regsBut (d.writeTempMax n (v.zeroExtend 64)) [rCsTempMax n] ∧ d.onlyIn (d.writeTempMax n (v.zeroExtend 64)) [.regs] := by
  rw [Dev.writeTempMax, fld_zeroExtend]
  by_cases h : fld v fCsTempMax_Clr = 1
  · simp only [if_pos h]
    exact ⟨d.getF_putF_getF _ _ _ _ (by decide) (by decide), d.regsBut_putF _ _ _, d.putF_frame _ _ _⟩
  · rw [if_neg h, if_neg h]
    exact ⟨rfl, d.regsBut_refl _, d.onlyIn_refl _⟩

theorem Dev.writeWinWait_clears (d : Dev) (n : StackId) (v : W32) :
    (d.writeWinWait n (v.zeroExtend 64)).reg (rCsWinWait n) = (if fld v fCsWinWait_Clr = 1 then 0 else d.reg (rCsWinWait n))
      ∧ d.regsBut (d.writeWinWait n (v.zeroExtend 64)) [rCsWinWait n] ∧ d.onlyIn (d.writeWinWait n (v.zeroExtend 64)) [.regs] := by
  rw [Dev.writeWinWait, fld_zeroExtend]
  by_cases h : fld v fCsWinWait_Clr = 1
  · simp only [if_pos h]
    exact ⟨d.reg_setReg_self _ _, d.regsBut_setReg _ _, d.setReg_frame _ _⟩
  · rw [if_neg h, if_neg h]
    exact ⟨rfl, d.regsBut_refl _, d.onlyIn_refl _⟩

/-- The registers of two words of one page are open together. -/
theorem Dev.regOpen_page {d : Dev} {f a b : Nat} (hp : pageOf a = pageOf b) (h : d.regOpen f a) : d.regOpen f b := by
  obtain ⟨hopen, hlow⟩ := h
  refine ⟨?_, hlow⟩
  rw [Dev.bar0Open, ← hp]
  exact hopen

theorem csTempMax_winWait_page (n : StackId) : pageOf (rCsTempMax n) = pageOf (rCsWinWait n) := by
  simp only [pageOf, rCsTempMax, rCsWinWait]
  omega

/-- A register of the unit service page that the PF writes. -/
theorem ras_write32 {s : State} {a k j o : Nat} {r : RegRow} {v : W32} (hr : RegAt a 9 k j o r) (hs : r.size = 4) (h1 : a ≠ rPwrCtrl)
    (h2 : a ≠ rMgmtRcvCtrl) (h : s.dev.regOpen 0 a) : s.reg32 0 a v = s.onDev fun d => d.writeRas a r (v.zeroExtend 64) := by
  rw [hr.pf_write32 (by decide) hs h1 h2 h]
  simp [hr.apply]

/-- Two fields of a plain register written together (Table 0-4). -/
theorem Dev.plainWrite_fields {d : Dev} {a : Nat} {r : RegRow} {f g : Fld} (hc : r.w1c = 0) (hs : r.w1s = 0) (hf : fldWithin f r.rw = true)
    (hg : fldWithin g r.rw = true) (v : W64) :
    (d.plainWrite a r v).getF a f = fld v f ∧ (d.plainWrite a r v).getF a g = fld v g ∧ d.regsBut (d.plainWrite a r v) [a]
      ∧ d.onlyIn (d.plainWrite a r v) [.regs] :=
  ⟨Dev.getF_plainWrite hc hs hf v, Dev.getF_plainWrite hc hs hg v, d.plainWrite_regsBut _ _ _, d.plainWrite_frame _ _ _⟩

/-! ### RETURN (12 R353) -/

theorem Dev.unit_setUnit_self (d : Dev) (u : UnitId) (x : UnitSt) : (d.setUnit u x).unit u = x := by
  simp [Dev.unit, Dev.setUnit, tget_tset_self]

theorem Dev.unit_setUnit_ne (d : Dev) {u w : UnitId} (x : UnitSt) (h : unitCode w ≠ unitCode u) : (d.setUnit u x).unit w = d.unit w := by
  simp [Dev.unit, Dev.setUnit, tget_tset_ne _ _ _ h]

theorem Dev.setUnit_frame (d : Dev) (u : UnitId) (x : UnitSt) : d.onlyIn (d.setUnit u x) [.ras] := by
  intro c hc
  cases c <;> first | rfl | simp at hc

theorem Dev.unit_of_ras {d e : Dev} (h : e.ras = d.ras) (w : UnitId) : e.unit w = d.unit w := by rw [Dev.unit, h, Dev.unit]

/-- Training a link sets its state and its peer, sends its word, and leaves the units alone. -/
theorem Dev.trainLink_state (d : Dev) (i : Nat) : (d.trainLink i).linkState i = 1 := by
  have hne : rFabLinkState i ≠ rFabLinkPeer i := by
    simp only [rFabLinkState, rFabLinkPeer]
    omega
  rw [Dev.linkState, Dev.trainLink, Dev.getF_putF_ne _ _ _ _ hne, Dev.getF_putF_self _ _ _ _ (by decide)]
  rfl

theorem Dev.trainLink_frame (d : Dev) (i : Nat) : d.onlyIn (d.trainLink i) [.regs, .fab] := by
  intro c hc
  cases c <;> first | rfl | simp at hc

theorem Dev.resume_serves (d : Dev) (u : UnitId) :
    ((d.resume u).unit u).state = 0
      ∧ (u.kind = .link → d.getF (rFabLinkCtrl u.index) fFabLinkCtrl_En = 1 → (d.resume u).linkState u.index = 1)
      ∧ (∀ w : UnitId, unitCode w ≠ unitCode u → (d.resume u).unit w = d.unit w) ∧ d.onlyIn (d.resume u) [.ras, .regs, .fab] := by
  have hras : (d.resume u).ras = (d.setUnit u { (d.unit u) with state := 0, reason := 0 }).ras := by
    unfold Dev.resume
    dsimp only
    split
    · rfl
    · rfl
  refine ⟨?_, fun hk he => ?_, fun w hw => ?_, ?_⟩
  · rw [Dev.unit_of_ras hras, Dev.unit_setUnit_self]
  · unfold Dev.resume
    dsimp only
    rw [if_pos ⟨hk, he⟩]
    exact Dev.trainLink_state _ _
  · rw [Dev.unit_of_ras hras, Dev.unit_setUnit_ne _ _ hw]
  · unfold Dev.resume
    dsimp only
    split
    · exact Dev.onlyIn_trans (Dev.onlyIn_sub _ (d.setUnit_frame _ _) rfl) (Dev.onlyIn_sub _ (Dev.trainLink_frame _ _) rfl)
    · exact Dev.onlyIn_sub _ (d.setUnit_frame _ _) rfl

theorem Dev.resumesNow_iff (d : Dev) (u : UnitId) :
    d.resumesNow u = true ↔ d.hasEpoch = false ∧ ∀ p : Nat, p < 6 → d.unitInPart p u = true → d.quiet p = true := by
  simp only [Dev.resumesNow, Bool.and_eq_true, Bool.not_eq_true', List.all_eq_true, List.mem_range, Bool.or_eq_true]
  refine and_congr_right fun _ => forall_congr' fun p => imp_congr_right fun _ => ?_
  cases d.unitInPart p u <;> simp

theorem Dev.resumesNow_setUnit (d : Dev) (u w : UnitId) (x : UnitSt) : (d.setUnit w x).resumesNow u = d.resumesNow u := rfl

theorem returnUnit_write {s : State} {v : W32} (h : s.dev.regOpen 0 rRasUnitCmd) :
    exec (.returnUnit 0 v) s = .next (s.onDev fun d => if fld v fRasUnitCmd_Return = 1 then d.returnSelected else d) := by
  refine congrArg Host.Outcome.next ((ras_write32 regAt_rasUnitCmd rfl (by decide) (by decide) h).trans ?_)
  simp only [Dev.writeRas, if_neg (show rRasUnitCmd ≠ rRasReplay by decide), if_true, fld_zeroExtend]

/-- Settles O41, register by register. -/
theorem stackAndUnitRegistersTakeWrites : Obligations.StackAndUnitRegistersTakeWrites := by
  unfold Obligations.StackAndUnitRegistersTakeWrites
  refine ⟨fun s n v => ⟨fun h => ?_, fun h => ?_, fun f hf h => ?_⟩, fun s v h => ?_, fun s v => ⟨fun h => ?_, fun h => ?_, fun f hf h => ?_⟩,
    fun s v h => ?_⟩
  · exact ⟨_, csTempMaxClr_write h, s.dev.writeTempMax_clears n v⟩
  · exact ⟨_, csWinWaitClr_write h, s.dev.writeWinWait_clears n v⟩
  · exact ⟨congrArg Host.Outcome.next ((regAt_csTempMax n).vf_unseen32 (by decide) rfl hf h rfl),
      congrArg Host.Outcome.next ((regAt_csWinWait n).vf_unseen32 (by decide) rfl hf (Dev.regOpen_page (csTempMax_winWait_page n) h) rfl)⟩
  · refine ⟨fun hr => ?_, fun hr hsel => ?_, fun u hr hsel => ⟨fun hu => ?_, fun hu => ?_⟩⟩
    · rw [returnUnit_write h, hr]
      rfl
    · refine ⟨s.dev.blkErr pgRas, ?_, Dev.blkErr_discarded _ _⟩
      rw [returnUnit_write h]
      simp only [State.onDev, if_pos hr, Dev.returnSelected, hsel]
    · refine ⟨s.dev.blkErr pgRas, ?_, Dev.blkErr_discarded _ _⟩
      rw [returnUnit_write h]
      simp only [State.onDev, if_pos hr, Dev.returnSelected, hsel, if_pos hu]
    · have hrun : exec (.returnUnit 0 v) s = .next (s.onDev fun d =>
          let e := d.setUnit u { (d.unit u) with state := 3 }
          if d.resumesNow u then e.resume u else e) := by
        rw [returnUnit_write h]
        simp only [State.onDev, if_pos hr, Dev.returnSelected, hsel, hu, ne_eq, not_true_eq_false, if_false, Dev.resumesNow_setUnit]
        rfl
      refine ⟨_, hrun, ?_⟩
      dsimp only
      rw [← Dev.resumesNow_iff]
      by_cases hnow : s.dev.resumesNow u = true
      · obtain ⟨hst, hlink, hothers, hframe⟩ := (s.dev.setUnit u { (s.dev.unit u) with state := 3 }).resume_serves u
        simp only [if_pos hnow]
        exact ⟨fun _ => ⟨hst, hlink⟩, fun hn => absurd hnow hn,
          fun w hw => (hothers w hw).trans (Dev.unit_setUnit_ne _ _ hw),
          Dev.onlyIn_trans (Dev.onlyIn_sub _ (Dev.setUnit_frame _ _ _) rfl) hframe⟩
      · simp only [if_neg hnow]
        exact ⟨fun hn => absurd hn hnow, fun _ => ⟨by rw [Dev.unit_setUnit_self], rfl⟩, fun w hw => Dev.unit_setUnit_ne _ _ hw,
          Dev.onlyIn_sub _ (Dev.setUnit_frame _ _ _) rfl⟩
  · obtain ⟨hk, hi, hregs, hframe⟩ := s.dev.plainWrite_fields (a := rRasUnitSel) (r := ⟨0x50, 0x0, 1, 4, 0x1fff, 0x0, 0x0, 0x0, 0x0⟩)
      (f := fRasUnitSel_Kind) (g := fRasUnitSel_Index) rfl rfl (by decide) (by decide) (v.zeroExtend 64)
    exact ⟨_, congrArg Host.Outcome.next (ras_write32 regAt_rasUnitSel rfl (by decide) (by decide) h), hk.trans (fld_zeroExtend _ _),
      hi.trans (fld_zeroExtend _ _), hregs, hframe⟩
  · obtain ⟨hk, hi, hregs, hframe⟩ := s.dev.plainWrite_fields (a := rRasSuspSel) (r := ⟨0x180, 0x0, 1, 4, 0xff, 0x0, 0x0, 0x0, 0x0⟩)
      (f := fRasSuspSel_Part) (g := fRasSuspSel_Index) rfl rfl (by decide) (by decide) (v.zeroExtend 64)
    exact ⟨_, congrArg Host.Outcome.next (ras_write32 regAt_rasSuspSel rfl (by decide) (by decide) h), hk.trans (fld_zeroExtend _ _),
      hi.trans (fld_zeroExtend _ _), hregs, hframe⟩
  · exact ⟨congrArg Host.Outcome.next (regAt_rasUnitSel.vf_unseen32 (by decide) rfl hf h rfl),
      congrArg Host.Outcome.next (regAt_rasSuspSel.vf_unseen32 (by decide) rfl hf (Dev.regOpen_page rfl h) rfl),
      congrArg Host.Outcome.next (regAt_rasUnitCmd.vf_unseen32 (by decide) rfl hf (Dev.regOpen_page rfl h) rfl)⟩
  · refine ⟨_, (congrArg Host.Outcome.next (regAt_rasInject.write64 rfl (by decide) (by decide) h
      (congrArg Prod.snd (regAt_rasInject.view_pf (by decide) _)))), ?_⟩
    exact s.dev.plainWrite_fields rfl rfl (by decide) (by decide) v

end Sys2Proof.Machine
end

section
/-! # What a boot leaves -/

namespace Sys2Proof.Machine

/-! ## Frames one after the other -/

theorem Dev.onlyIn.after {d e f : Dev} {cs ds : List Comp} (h : d.onlyIn e cs) (k : e.onlyIn f ds)
    (hs : ds.all (fun c => cs.contains c) = true := by rfl) : d.onlyIn f cs :=
  Dev.onlyIn_trans h (Dev.onlyIn_sub cs k hs)

theorem Dev.regsBut.after {d e f : Dev} {rs ss : List Nat} (h : d.regsBut e rs) (k : e.regsBut f ss)
    (hs : ss ⊆ rs := by decide) : d.regsBut f rs :=
  Dev.regsBut_trans h (Dev.regsBut_mono k hs)

/-! ## What messages and log records leave (11 R328, 14 R405) -/

/-- The host interface after messages: only what was sent and what is pending differs. -/
def Hif.spoke (h h' : Hif) : Prop := ∃ vs out, h' = { h with vecs := vs, out := out }

theorem Hif.spoke_refl (h : Hif) : h.spoke h := ⟨h.vecs, h.out, rfl⟩

theorem Hif.spoke_trans {h h' h'' : Hif} (a : h.spoke h') (b : h'.spoke h'') : h.spoke h'' := by
  obtain ⟨vs, out, rfl⟩ := a
  obtain ⟨vs', out', rfl⟩ := b
  exact ⟨vs', out', rfl⟩

theorem Dev.sendMsg_spoke (d : Dev) (fv : Nat × Nat) : d.hif.spoke (d.sendMsg fv).hif := by
  unfold Dev.sendMsg
  dsimp only
  split
  · exact d.hif.spoke_refl
  · split
    · exact ⟨_, d.hif.out, rfl⟩
    · split
      · exact d.hif.spoke_refl
      · exact ⟨d.hif.vecs, _, rfl⟩

theorem Dev.spoke_foldl {α : Type} {f : Dev → α → Dev} (h : ∀ (d : Dev) a, d.hif.spoke (f d a).hif) (xs : List α) (d : Dev) :
    d.hif.spoke (xs.foldl f d).hif := by
  induction xs generalizing d with
  | nil => exact d.hif.spoke_refl
  | cons x xs ih => exact Hif.spoke_trans (h d x) (ih _)

theorem Dev.signal_spoke (d e : Dev) : e.hif.spoke (Dev.signal d e).hif := Dev.spoke_foldl Dev.sendMsg_spoke _ e

theorem Dev.raise_spoke (d : Dev) (page bits : Nat) : d.hif.spoke (d.raise page bits).hif := Dev.signal_spoke _ _

/-- The gander after records were entered: only its log differs. -/
def Gander.logged (g g' : Gander) : Prop := ∃ b q f, g' = { g with logBuf := b, logSeq := q, logFlash := f }

theorem Gander.logged_refl (g : Gander) : g.logged g := ⟨g.logBuf, g.logSeq, g.logFlash, rfl⟩

theorem Gander.logged_trans {g g' g'' : Gander} (a : g.logged g') (b : g'.logged g'') : g.logged g'' := by
  obtain ⟨x, y, z, rfl⟩ := a
  obtain ⟨x', y', z', rfl⟩ := b
  exact ⟨x', y', z', rfl⟩

theorem Dev.raise_gan (d : Dev) (page bits : Nat) : (d.raise page bits).gan = d.gan := d.raise_frame page bits .gan rfl

theorem Dev.log_logged (d : Dev) (typ : Nat) (p : List Nat) : d.gan.logged (d.log typ p).gan := by
  unfold Dev.log
  split
  · exact d.gan.logged_refl
  · split
    · rw [Dev.raise_gan]
      exact d.gan.logged_refl
    · exact ⟨_, _, d.gan.logFlash, rfl⟩

theorem Dev.logFlush_logged (d : Dev) : d.gan.logged d.logFlush.gan := by
  unfold Dev.logFlush
  split
  · exact d.gan.logged_refl
  · exact ⟨_, d.gan.logSeq, _, rfl⟩

theorem Dev.logNow_logged (d : Dev) (typ : Nat) (p : List Nat) : d.gan.logged (d.logNow typ p).gan :=
  Gander.logged_trans (d.log_logged typ p) (Dev.logFlush_logged _)

theorem Dev.log_spoke (d : Dev) (typ : Nat) (p : List Nat) : d.hif.spoke (d.log typ p).hif := by
  unfold Dev.log
  split
  · exact d.hif.spoke_refl
  · split
    · exact Dev.raise_spoke _ _ _
    · exact d.hif.spoke_refl

theorem Dev.logFlush_hif (d : Dev) : d.logFlush.hif = d.hif := by
  unfold Dev.logFlush
  split <;> rfl

theorem Dev.logFlush_regs (d : Dev) : d.logFlush.regs = d.regs := by
  unfold Dev.logFlush
  split <;> rfl

theorem Dev.logNow_spoke (d : Dev) (typ : Nat) (p : List Nat) : d.hif.spoke (d.logNow typ p).hif := by
  rw [Dev.logNow, Dev.logFlush_hif]
  exact d.log_spoke typ p

/-- The registers that a log record may change: the count of records lost, and what reports it. -/
def logRegs : List Nat := [rMgmtLogLost, rBlkIntStat pgMgmt, rHifTxDrop, rBlkIntStat pgHif]

theorem Dev.log_regsBut (d : Dev) (typ : Nat) (p : List Nat) : d.regsBut (d.log typ p) logRegs := by
  unfold Dev.log
  split
  · exact d.regsBut_refl _
  · split
    · exact Dev.regsBut_trans (Dev.regsBut_mono (d.regsBut_putF _ _ _) (by decide)) (Dev.regsBut_mono (Dev.raise_regsBut _ _ _) (by decide))
    · exact fun _ _ => rfl

theorem Dev.logNow_regsBut (d : Dev) (typ : Nat) (p : List Nat) : d.regsBut (d.logNow typ p) logRegs :=
  Dev.regsBut_trans (d.log_regsBut typ p) fun _ _ => by rw [Dev.logNow, Dev.reg, Dev.logFlush_regs, Dev.reg]

theorem Dev.onGan_frame (d : Dev) (f : Gander → Gander) : d.onlyIn (d.onGan f) [.gan] := by
  intro c hc
  cases c <;> first | rfl | simp at hc

theorem Dev.onHif_reg (d : Dev) (f : Hif → Hif) (a : Nat) : (d.onHif f).reg a = d.reg a := rfl

theorem Dev.onHif_frame (d : Dev) (f : Hif → Hif) : d.onlyIn (d.onHif f) [.hif] := by
  intro c hc
  cases c <;> first | rfl | simp at hc

theorem Dev.logFlush_frame (d : Dev) : d.onlyIn d.logFlush [.gan] := by
  unfold Dev.logFlush
  split
  · exact d.onlyIn_refl _
  · exact d.onGan_frame _

theorem Dev.logNow_frame (d : Dev) (typ : Nat) (p : List Nat) : d.onlyIn (d.logNow typ p) [.regs, .hif, .gan] :=
  Dev.onlyIn_trans (d.log_frame typ p) (Dev.onlyIn_sub _ (Dev.logFlush_frame _) rfl)

/-! ## Boot (14 R399, R402) -/

/-- What a boot may change of a device that restarted. -/
abbrev bootParts : List Comp := [.regs, .hif, .gan]

/-- The registers of the stages FUSES, IDENTITY and CONFIG. -/
def stageRegs : List Nat :=
  [rMgmtStatus, rMgmtSecState, rMgmtLms, rRasRetire, rDevUid, rDevStatus] ++ logRegs

/-- The stages FUSES, IDENTITY and CONFIG before a default configuration is reported. -/
def Dev.configured (d : Dev) (i : Ident) : Dev :=
  let g := d.gan
  let c := selectCopy g.copyA g.copyB
  let retired := (c.2.getD factoryBlock).retired.length
  let d := d.onGan (fun g => { g with secretBlocked := g.debugFuse, block := c.2 })
  let d := d.putF rMgmtStatus fMgmtStatus_CfgSrc c.1
  let d := d.setReg rMgmtSecState (BitVec.ofNat 64 ((if g.debugFuse then 1 else 0) + atBit 1 (if i.valid then 1 else 0)
    + atBit 2 (if 32768 ≤ g.lmsUsed then 1 else 0)))
  let d := d.setReg rMgmtLms (BitVec.ofNat 64 (min g.lmsUsed 0xFFFF))
  let d := d.setReg rRasRetire (BitVec.ofNat 64 (retired + atBit 16 (512 - retired)))
  let d := d.setReg rDevUid (if i.valid then i.uniqueId else 0)
  d.putF rDevStatus fDevStatus_DebugOpened (if g.debugFuse then 1 else 0)

theorem Dev.bootStages_eq (d : Dev) (i : Ident) :
    d.bootStages i = if (selectCopy d.gan.copyA d.gan.copyB).1 ≠ 2 then d.configured i
      else (((d.configured i).putF rDevStatus fDevStatus_CfgDefault 1).raise pgMgmt 0x20).log 0x03
        [copyReason d.gan.copyA, copyReason d.gan.copyB] := rfl

theorem Dev.configured_frame (d : Dev) (i : Ident) : d.onlyIn (d.configured i) bootParts := by
  intro c hc
  cases c <;> first | rfl | simp at hc

theorem Dev.configured_gan (d : Dev) (i : Ident) :
    (d.configured i).gan = { d.gan with secretBlocked := d.gan.debugFuse, block := (selectCopy d.gan.copyA d.gan.copyB).2 } := rfl

theorem Dev.configured_regsBut (d : Dev) (i : Ident) : d.regsBut (d.configured i) stageRegs := by
  unfold Dev.configured
  dsimp only
  exact ((((((Dev.regsBut.after (d.regsBut_refl _) (Dev.regsBut_putF _ rMgmtStatus _ _)).after
    (Dev.regsBut_setReg _ rMgmtSecState _)).after (Dev.regsBut_setReg _ rMgmtLms _)).after
    (Dev.regsBut_setReg _ rRasRetire _)).after (Dev.regsBut_setReg _ rDevUid _)).after (Dev.regsBut_putF _ rDevStatus _ _))

theorem Dev.bootStages_frame (d : Dev) (i : Ident) : d.onlyIn (d.bootStages i) bootParts := by
  rw [Dev.bootStages_eq]
  split
  · exact d.configured_frame i
  · exact (((d.configured_frame i).after (Dev.putF_frame _ _ _ _)).after (Dev.raise_frame _ _ _)).after (Dev.log_frame _ _ _)

theorem Dev.bootStages_gan (d : Dev) (i : Ident) :
    Gander.logged { d.gan with secretBlocked := d.gan.debugFuse, block := (selectCopy d.gan.copyA d.gan.copyB).2 } (d.bootStages i).gan := by
  rw [Dev.bootStages_eq]
  split
  · exact Gander.logged_refl _
  · refine Gander.logged_trans ?_ (Dev.log_logged _ _ _)
    rw [Dev.raise_gan]
    exact Gander.logged_refl _

theorem Dev.bootStages_spoke (d : Dev) (i : Ident) : d.hif.spoke (d.bootStages i).hif := by
  rw [Dev.bootStages_eq]
  split
  · exact d.hif.spoke_refl
  · exact Hif.spoke_trans (Dev.raise_spoke ((d.configured i).putF rDevStatus fDevStatus_CfgDefault 1) _ _) (Dev.log_spoke _ _ _)

/-- Reporting a default configuration changes no register that the stages load, but DEV_STATUS. -/
theorem Dev.bootStages_regsBut_configured (d : Dev) (i : Ident) : (d.configured i).regsBut (d.bootStages i) (rDevStatus :: logRegs) := by
  rw [Dev.bootStages_eq]
  split
  · exact Dev.regsBut_refl _ _
  · exact ((Dev.regsBut.after (Dev.regsBut_refl _ _) (Dev.regsBut_putF _ _ _ _)).after (Dev.raise_regsBut _ _ _)).after
      (Dev.log_regsBut _ _ _)

theorem Dev.bootStages_regsBut (d : Dev) (i : Ident) : d.regsBut (d.bootStages i) stageRegs :=
  (d.configured_regsBut i).after (d.bootStages_regsBut_configured i)

theorem Dev.configured_devUid (d : Dev) (i : Ident) : (d.configured i).reg rDevUid = if i.valid = true then i.uniqueId else 0 := by
  unfold Dev.configured
  dsimp only
  rw [Dev.reg_putF_ne _ _ _ (by decide), Dev.reg_setReg_self]

theorem Dev.configured_mgmtStatus (d : Dev) (i : Ident) :
    (d.configured i).reg rMgmtStatus = putFld (d.reg rMgmtStatus) fMgmtStatus_CfgSrc (selectCopy d.gan.copyA d.gan.copyB).1 := by
  unfold Dev.configured
  dsimp only
  rw [Dev.reg_putF_ne _ _ _ (by decide), Dev.reg_setReg_ne _ _ (by decide), Dev.reg_setReg_ne _ _ (by decide),
    Dev.reg_setReg_ne _ _ (by decide), Dev.reg_setReg_ne _ _ (by decide), Dev.reg_putF_self]
  rfl

theorem selectCopy_lt (a b : CfgCopy) : (selectCopy a b).1 < 4 := by
  unfold selectCopy
  split
  · split <;> simp
  · simp
  · simp
  · simp

/-! ### The image (14 R400, R402) -/

/-- The image is started, or recovery boot begins. -/
def Dev.imaged (d : Dev) : Dev :=
  if imageCheck d.gan d.gan.image = 0 then d.startImage
  else (d.recoveryStart (imageCheck d.gan d.gan.image)).setReg rMgmtSvn
    (BitVec.ofNat 64 (d.gan.svnWord []))

theorem Dev.boot_eq (d : Dev) (i : Ident) (last : Nat) :
    d.boot i last = ((((d.restarted.bootStages i).setReg rHifReset (BitVec.ofNat 64 last)).imaged).onHif
      (fun h => { h with phase := .waitRails, pgStk := true, pgCore := true })).hostLinkTrains := by
  unfold Dev.boot Dev.imaged
  dsimp only

theorem Dev.startImage_frame (d : Dev) : d.onlyIn d.startImage bootParts := by
  unfold Dev.startImage
  dsimp only
  exact (((((((d.onlyIn_refl _).after (d.onGan_frame _)).after (Dev.setReg_frame _ _ _)).after (Dev.setReg_frame _ _ _)).after
    (Dev.setReg_frame _ _ _)).after (Dev.putF_frame _ _ _ _)).after (Dev.raise_frame _ _ _)).after (Dev.log_frame _ _ _)

theorem Dev.recoveryStart_frame (d : Dev) (k : Nat) : d.onlyIn (d.recoveryStart k) bootParts :=
  (((d.onlyIn_refl _).after (Dev.putF_frame _ _ _ _)).after (Dev.putF_frame _ _ _ _)).after (Dev.logNow_frame _ _ _)

theorem Dev.imaged_frame (d : Dev) : d.onlyIn d.imaged bootParts := by
  unfold Dev.imaged
  split
  · exact d.startImage_frame
  · exact (d.recoveryStart_frame _).after (Dev.setReg_frame _ _ _)

theorem Dev.startImage_gan (d : Dev) :
    Gander.logged { burnFuses d.gan d.gan.image with runHdr := d.gan.image.take 4096 } d.startImage.gan := by
  unfold Dev.startImage
  dsimp only
  refine Gander.logged_trans ?_ (Dev.log_logged _ _ _)
  rw [Dev.raise_gan]
  exact Gander.logged_refl _

theorem Dev.recoveryStart_gan (d : Dev) (k : Nat) : d.gan.logged (d.recoveryStart k).gan := Dev.logNow_logged _ _ _

theorem Dev.startImage_spoke (d : Dev) : d.hif.spoke d.startImage.hif := by
  unfold Dev.startImage
  dsimp only
  refine Hif.spoke_trans ?_ (Dev.log_spoke _ _ _)
  exact Hif.spoke_trans (Hif.spoke_refl _) (Dev.raise_spoke _ _ _)

theorem Dev.imaged_spoke (d : Dev) : d.hif.spoke d.imaged.hif := by
  unfold Dev.imaged
  split
  · exact d.startImage_spoke
  · rw [Dev.setReg_hif]
    exact Dev.logNow_spoke ((d.putF rMgmtStatus fMgmtStatus_BootMode 1).putF rDevStatus fDevStatus_Recovery 1) _ _

theorem Dev.imaged_gan (d : Dev) :
    if imageCheck d.gan d.gan.image = 0 then Gander.logged { burnFuses d.gan d.gan.image with runHdr := d.gan.image.take 4096 } d.imaged.gan
    else d.gan.logged d.imaged.gan := by
  by_cases hk : imageCheck d.gan d.gan.image = 0
  · rw [if_pos hk, Dev.imaged, if_pos hk]
    exact d.startImage_gan
  · rw [if_neg hk, Dev.imaged, if_neg hk, Dev.setReg_gan]
    exact d.recoveryStart_gan _

/-- The registers that starting an image, or recovery boot, may change. -/
def imageRegs : List Nat := [rMgmtStatus, rDevStatus, rMgmtFwVer, rMgmtSvn, rThmTripLast] ++ logRegs

theorem Dev.startImage_regsBut (d : Dev) : d.regsBut d.startImage imageRegs := by
  unfold Dev.startImage
  dsimp only
  exact ((((((Dev.regsBut.after (e := d.onGan _) (fun _ _ => rfl) (Dev.regsBut_setReg _ rMgmtFwVer _)).after
    (Dev.regsBut_setReg _ rMgmtSvn _)).after (Dev.regsBut_setReg _ rThmTripLast _)).after (Dev.regsBut_putF _ rMgmtStatus _ _)).after
    (Dev.raise_regsBut _ _ _)).after (Dev.log_regsBut _ _ _))

theorem Dev.imaged_regsBut (d : Dev) : d.regsBut d.imaged imageRegs := by
  unfold Dev.imaged
  split
  · exact d.startImage_regsBut
  · exact (((Dev.regsBut.after (d.regsBut_refl _) (Dev.regsBut_putF _ rMgmtStatus _ _)).after (Dev.regsBut_putF _ rDevStatus _ _)).after
      (Dev.logNow_regsBut _ _ _)).after (Dev.regsBut_setReg _ rMgmtSvn _)

theorem Dev.startImage_mgmtStatus (d : Dev) : d.startImage.reg rMgmtStatus = putFld (d.reg rMgmtStatus) fMgmtStatus_FwReady 1 := by
  unfold Dev.startImage
  dsimp only
  rw [Dev.log_regsBut _ _ _ _ rfl, Dev.raise_regsBut _ _ _ _ rfl, Dev.reg_putF_self, Dev.reg_setReg_ne _ _ (by decide),
    Dev.reg_setReg_ne _ _ (by decide), Dev.reg_setReg_ne _ _ (by decide)]
  rfl

theorem Dev.recovery_mgmtStatus (d : Dev) (k : Nat) (v : W64) :
    ((d.recoveryStart k).setReg rMgmtSvn v).reg rMgmtStatus = putFld (d.reg rMgmtStatus) fMgmtStatus_BootMode 1 := by
  rw [Dev.reg_setReg_ne _ _ (by decide), Dev.recoveryStart, Dev.logNow_regsBut _ _ _ _ rfl, Dev.reg_putF_ne _ _ _ (by decide),
    Dev.reg_putF_self]

theorem Dev.recovery_devStatus (d : Dev) (k : Nat) (v : W64) :
    ((d.recoveryStart k).setReg rMgmtSvn v).getF rDevStatus fDevStatus_Recovery = 1 := by
  rw [Dev.getF, Dev.reg_setReg_ne _ _ (by decide), Dev.recoveryStart, Dev.logNow_regsBut _ _ _ _ rfl, Dev.reg_putF_self,
    fld_putFld_self _ _ _ (by decide)]
  rfl

/-! ### The end of a boot (15 R435, R436) -/

theorem Dev.hostLinkTrains_frame (d : Dev) : d.onlyIn d.hostLinkTrains [.regs] := by
  unfold Dev.hostLinkTrains
  split
  · exact d.putF_frame _ _ _
  · exact d.onlyIn_refl _

theorem Dev.hostLinkTrains_gan (d : Dev) : d.hostLinkTrains.gan = d.gan := d.hostLinkTrains_frame .gan rfl

theorem Dev.hostLinkTrains_regsBut (d : Dev) : d.regsBut d.hostLinkTrains [rHifLink] := by
  unfold Dev.hostLinkTrains
  split
  · exact d.regsBut_putF _ _ _
  · exact d.regsBut_refl _

/-- A link that is down trains where PERST_N and RAILS_GOOD are high. -/
theorem Dev.hostLinkTrains_state {d : Dev} (hp : d.hif.phase ≠ .off) (h : d.getF rHifLink fHifLink_State = 0) :
    d.hostLinkTrains.getF rHifLink fHifLink_State = if d.hif.perstN = true ∧ d.hif.railsGood = true then 1 else 0 := by
  unfold Dev.hostLinkTrains
  by_cases hc : d.hif.perstN = true ∧ d.hif.railsGood = true
  · rw [if_pos ⟨hc.1, hc.2, hp, h⟩, if_pos hc, Dev.getF_putF_self _ _ _ _ (by decide)]
    rfl
  · rw [if_neg (fun k => hc ⟨k.1, k.2.1⟩), if_neg hc, h]

/-- What a boot leaves of the host interface: its pins, and messages that were sent. -/
theorem Dev.boot_hif (d : Dev) (i : Ident) (last : Nat) :
    ({ d.restarted.hif with phase := .waitRails, pgStk := true, pgCore := true } : Hif).spoke (d.boot i last).hif := by
  have hregs : ∀ e : Dev, e.hostLinkTrains.hif = e.hif := fun e => e.hostLinkTrains_frame .hif rfl
  obtain ⟨vs, out, h⟩ := Hif.spoke_trans (d.restarted.bootStages_spoke i)
    (Dev.imaged_spoke ((d.restarted.bootStages i).setReg rHifReset (BitVec.ofNat 64 last)))
  refine ⟨vs, out, ?_⟩
  rw [Dev.boot_eq, hregs, Dev.onHif_hif, h]

theorem Dev.restarted_reg (d : Dev) (a : Nat) : d.restarted.reg a = resetOf a := rfl

theorem Dev.boot_frame (d : Dev) (i : Ident) (last : Nat) : d.restarted.onlyIn (d.boot i last) bootParts := by
  rw [Dev.boot_eq]
  exact (((((d.restarted.bootStages_frame i).after (Dev.setReg_frame _ _ _)).after (Dev.imaged_frame _)).after (Dev.onHif_frame _ _)).after
    (Dev.hostLinkTrains_frame _))

/-- The gander after a boot: the image started, or not. -/
theorem Dev.boot_gan (d : Dev) (i : Ident) (last : Nat) :
    ∃ g1 : Gander, Gander.logged { d.restarted.gan with secretBlocked := d.gan.debugFuse, block := (selectCopy d.gan.copyA d.gan.copyB).2 } g1
      ∧ (if imageCheck g1 g1.image = 0 then Gander.logged { burnFuses g1 g1.image with runHdr := g1.image.take 4096 } (d.boot i last).gan
        else g1.logged (d.boot i last).gan) := by
  refine ⟨(d.restarted.bootStages i).gan, d.restarted.bootStages_gan i, ?_⟩
  have hgan : (d.boot i last).gan = ((d.restarted.bootStages i).setReg rHifReset (BitVec.ofNat 64 last)).imaged.gan := by
    rw [Dev.boot_eq, Dev.hostLinkTrains_gan, Dev.onHif_gan]
  rw [hgan]
  exact Dev.imaged_gan ((d.restarted.bootStages i).setReg rHifReset (BitVec.ofNat 64 last))

/-- A register that no stage of a boot writes shows its Reset column after one. -/
theorem Dev.boot_reg {a : Nat} (h1 : stageRegs.contains a = false) (h2 : a ≠ rHifReset) (h3 : imageRegs.contains a = false) (h4 : a ≠ rHifLink)
    (d : Dev) (i : Ident) (last : Nat) : (d.boot i last).reg a = resetOf a := by
  rw [Dev.boot_eq, Dev.hostLinkTrains_regsBut _ _ (by simp [h4]), Dev.onHif_reg, Dev.imaged_regsBut _ _ h3, Dev.reg_setReg_ne _ _ h2,
    Dev.bootStages_regsBut _ _ _ h1]
  rfl

theorem Dev.boot_hifReset (d : Dev) (i : Ident) (last : Nat) : (d.boot i last).reg rHifReset = BitVec.ofNat 64 last := by
  rw [Dev.boot_eq, Dev.hostLinkTrains_regsBut _ _ (by decide), Dev.onHif_reg, Dev.imaged_regsBut _ _ (by decide), Dev.reg_setReg_self]

theorem Dev.boot_devUid (d : Dev) (i : Ident) (last : Nat) : (d.boot i last).reg rDevUid = if i.valid = true then i.uniqueId else 0 := by
  rw [Dev.boot_eq, Dev.hostLinkTrains_regsBut _ _ (by decide), Dev.onHif_reg, Dev.imaged_regsBut _ _ (by decide),
    Dev.reg_setReg_ne _ _ (by decide), Dev.bootStages_regsBut_configured _ _ _ (by decide), Dev.configured_devUid]

/-- MGMT_STATUS before the image is judged: where the configuration came from. -/
theorem Dev.staged_mgmtStatus (d : Dev) (i : Ident) (last : Nat) :
    ((d.restarted.bootStages i).setReg rHifReset (BitVec.ofNat 64 last)).reg rMgmtStatus
      = putFld (resetOf rMgmtStatus) fMgmtStatus_CfgSrc (selectCopy d.gan.copyA d.gan.copyB).1 := by
  rw [Dev.reg_setReg_ne _ _ (by decide), Dev.bootStages_regsBut_configured _ _ _ (by decide), Dev.configured_mgmtStatus]
  rfl

theorem Dev.boot_mgmtStatus (d : Dev) (i : Ident) (last : Nat) :
    (d.boot i last).reg rMgmtStatus = ((d.restarted.bootStages i).setReg rHifReset (BitVec.ofNat 64 last)).imaged.reg rMgmtStatus := by
  rw [Dev.boot_eq, Dev.hostLinkTrains_regsBut _ _ (by decide), Dev.onHif_reg]

/-- A boot leaves the host link training where its pins let it, and down elsewhere. -/
theorem Dev.boot_link (d : Dev) (i : Ident) (last : Nat) :
    (d.boot i last).getF rHifLink fHifLink_State
      = if (d.boot i last).hif.perstN = true ∧ (d.boot i last).hif.railsGood = true then 1 else 0 := by
  have hhif : ∀ e : Dev, e.hostLinkTrains.hif = e.hif := fun e => e.hostLinkTrains_frame .hif rfl
  rw [Dev.boot_eq, hhif]
  refine Dev.hostLinkTrains_state (by rw [Dev.onHif_hif]; exact BootPhase.noConfusion) ?_
  rw [Dev.getF, Dev.onHif_reg, Dev.imaged_regsBut _ _ (by decide), Dev.reg_setReg_ne _ _ (by decide), Dev.bootStages_regsBut _ _ _ (by decide),
    Dev.restarted_reg]
  decide

/-- The gander's part of what a boot leaves. -/
theorem Dev.boot_image (d : Dev) (i : Ident) (last : Nat) :
    let g := d.gan
    let e := d.boot i last
    e.gan.up = true ∧ e.gan.image = g.image ∧ e.gan.copyA = g.copyA ∧ e.gan.copyB = g.copyB ∧ e.gan.lmsUsed = g.lmsUsed
      ∧ e.gan.debugFuse = g.debugFuse ∧ e.gan.att = none ∧ e.gan.sessions = [] ∧ e.gan.upd = none ∧ e.gan.cfgPend = []
      ∧ e.gan.block = (selectCopy g.copyA g.copyB).2
      ∧ (imageCheck g g.image = 0 → e.gan.runHdr = g.image.take 4096 ∧ e.gan.svn = max g.svn (min (byteBits g.image 64 8) 64))
      ∧ (imageCheck g g.image ≠ 0 → e.gan.svn = g.svn) := by
  dsimp only
  obtain ⟨g1, ⟨b, q, f, h1⟩, h2⟩ := d.boot_gan i last
  have hcheck : imageCheck g1 g1.image = imageCheck d.gan d.gan.image := by
    rw [h1]
    rfl
  rw [hcheck] at h2
  split at h2
  case isTrue hk =>
    obtain ⟨b', q', f', h2⟩ := h2
    rw [h2, h1]
    exact ⟨rfl, rfl, rfl, rfl, rfl, rfl, rfl, rfl, rfl, rfl, rfl, fun _ => ⟨rfl, rfl⟩, fun hn => absurd hk hn⟩
  case isFalse hk =>
    obtain ⟨b', q', f', h2⟩ := h2
    rw [h2, h1]
    exact ⟨rfl, rfl, rfl, rfl, rfl, rfl, rfl, rfl, rfl, rfl, rfl, fun hn => absurd hn hk, fun _ => rfl⟩

/-- MGMT_STATUS and DEV_STATUS after a boot, as the image was judged. -/
theorem Dev.boot_status (d : Dev) (i : Ident) (last : Nat) :
    let e := d.boot i last
    e.getF rMgmtStatus fMgmtStatus_CfgSrc = (selectCopy d.gan.copyA d.gan.copyB).1
      ∧ (imageCheck d.gan d.gan.image = 0 → e.getF rMgmtStatus fMgmtStatus_BootMode = 0 ∧ e.getF rMgmtStatus fMgmtStatus_FwReady = 1)
      ∧ (imageCheck d.gan d.gan.image ≠ 0 → e.getF rMgmtStatus fMgmtStatus_BootMode = 1 ∧ e.getF rMgmtStatus fMgmtStatus_FwReady = 0
          ∧ e.getF rDevStatus fDevStatus_Recovery = 1) := by
  dsimp only
  have hsrc : (selectCopy d.gan.copyA d.gan.copyB).1 % 2 ^ fMgmtStatus_CfgSrc.len = (selectCopy d.gan.copyA d.gan.copyB).1 :=
    Nat.mod_eq_of_lt (selectCopy_lt _ _)
  generalize hs : (d.restarted.bootStages i).setReg rHifReset (BitVec.ofNat 64 last) = s
  have hst : s.reg rMgmtStatus = putFld (resetOf rMgmtStatus) fMgmtStatus_CfgSrc (selectCopy d.gan.copyA d.gan.copyB).1 := by
    rw [← hs, Dev.staged_mgmtStatus]
  have hcheck : imageCheck s.gan s.gan.image = imageCheck d.gan d.gan.image := by
    obtain ⟨b, q, f, hg⟩ := d.restarted.bootStages_gan i
    rw [← hs, Dev.setReg_gan, hg]
    rfl
  by_cases hk : imageCheck d.gan d.gan.image = 0
  · have hreg : (d.boot i last).reg rMgmtStatus = putFld (s.reg rMgmtStatus) fMgmtStatus_FwReady 1 := by
      rw [Dev.boot_mgmtStatus, hs, Dev.imaged, if_pos (hcheck.trans hk), Dev.startImage_mgmtStatus]
    simp only [Dev.getF, hreg]
    refine ⟨?_, fun _ => ⟨?_, ?_⟩, fun hn => absurd hk hn⟩
    · rw [fld_putFld_ne _ _ _ _ (by decide) (by decide), hst, fld_putFld_self _ _ _ (by decide), hsrc]
    · rw [fld_putFld_ne _ _ _ _ (by decide) (by decide), hst, fld_putFld_ne _ _ _ _ (by decide) (by decide)]
      decide
    · rw [fld_putFld_self _ _ _ (by decide)]
      rfl
  · have himg : s.imaged = (s.recoveryStart (imageCheck s.gan s.gan.image)).setReg rMgmtSvn (BitVec.ofNat 64 (s.gan.svnWord [])) := by
      rw [Dev.imaged, if_neg (fun h => hk (hcheck.symm.trans h))]
    have hreg : (d.boot i last).reg rMgmtStatus = putFld (s.reg rMgmtStatus) fMgmtStatus_BootMode 1 := by
      rw [Dev.boot_mgmtStatus, hs, himg, Dev.recovery_mgmtStatus]
    have hdev : (d.boot i last).getF rDevStatus fDevStatus_Recovery = s.imaged.getF rDevStatus fDevStatus_Recovery := by
      rw [Dev.getF, Dev.boot_eq, hs, Dev.hostLinkTrains_regsBut _ _ (by decide), Dev.onHif_reg, ← Dev.getF]
    refine ⟨?_, fun h => absurd h hk, fun _ => ⟨?_, ?_, ?_⟩⟩
    · rw [Dev.getF, hreg, fld_putFld_ne _ _ _ _ (by decide) (by decide), hst, fld_putFld_self _ _ _ (by decide), hsrc]
    · rw [Dev.getF, hreg, fld_putFld_self _ _ _ (by decide)]
      rfl
    · rw [Dev.getF, hreg, fld_putFld_ne _ _ _ _ (by decide) (by decide), hst, fld_putFld_ne _ _ _ _ (by decide) (by decide)]
      decide
    · rw [hdev, himg, Dev.recovery_devStatus]

theorem hifReset_last {last : Nat} (h : last < 8) :
    fld (BitVec.ofNat 64 last : W64) fHifReset_Last = last ∧ fld (BitVec.ofNat 64 last : W64) fHifReset_Ready = 0 := by
  revert last
  decide

/-- A boot leaves what the stages of Table 14-2 leave, the host's memory, and no job (R399, R402, R435). -/
theorem State.boot_booted (s : State) {last : Nat} (h : last < 8) : s.booted (s.boot last) last := by
  obtain ⟨vs, out, hhif⟩ := s.dev.boot_hif s.ident last
  obtain ⟨hup, himage, hA, hB, hlms, hfuse, hatt, hsess, hupd, hpend, hblock, hgood, hbad⟩ := s.dev.boot_image s.ident last
  obtain ⟨hsrc, hrun, hrec⟩ := s.dev.boot_status s.ident last
  have hframe := s.dev.boot_frame s.ident last
  have hreset := s.dev.boot_hifReset s.ident last
  have hlast := hifReset_last h
  refine ⟨rfl, rfl, rfl, hframe .time rfl, hframe .cq rfl, hframe .tiles rfl, hframe .henOps rfl, hframe .srv rfl, hframe .fab rfl,
    hframe .parts rfl, hframe .stk rfl, hframe .tram rfl, hframe .sram rfl, hframe .slots rfl, hframe .host rfl, ?_, ?_, ?_, ?_, ?_,
    (congrArg (fld · fHifReset_Last) hreset).trans hlast.1, (congrArg (fld · fHifReset_Ready) hreset).trans hlast.2, ?_,
    s.dev.boot_link s.ident last, hup, himage, hA, hB, hlms, hfuse, hatt, hsess, hupd, hpend, hsrc, hblock, s.dev.boot_devUid s.ident last,
    fun hk => ⟨(hrun hk).1, (hrun hk).2, hgood hk⟩, fun hk => ⟨(hrec hk).1, (hrec hk).2.1, (hrec hk).2.2, hbad hk⟩⟩
  · exact congrArg Hif.phase hhif
  · exact congrArg Hif.pgStk hhif
  · exact congrArg Hif.pgCore hhif
  · exact congrArg Hif.vfEnable hhif
  · exact congrArg Hif.fns hhif
  · have hp : (s.boot last).dev.reg rPwrState = resetOf rPwrState :=
      Dev.boot_reg (by decide) (by decide) (by decide) (by decide) s.dev s.ident last
    rw [Dev.pstate, Dev.getF, hp]
    decide

end Sys2Proof.Machine
end

section
/-! # O50: registers of power, temperature and recovery -/

namespace Sys2Proof.Machine

/-! ## Registers of power, temperature and recovery (O50) -/

theorem regAt_pwrClk : RegAt rPwrClk 7 0 0 0x60 ⟨0x60, 0x0, 1, 4, 0x7f, 0x0, 0x0, 0x0, 0x4040⟩ :=
  RegAt.of_page (page := 0xD00000) (rows := rows_pwr) rfl rfl (by decide) rfl rfl (by decide)

theorem regAt_pwrPhaseSel : RegAt rPwrPhaseSel 7 0 0 0x80 ⟨0x80, 0x0, 1, 4, 0xff, 0x0, 0x0, 0x80000000, 0x0⟩ :=
  RegAt.of_page (page := 0xD00000) (rows := rows_pwr) rfl rfl (by decide) rfl rfl (by decide)

theorem regAt_pwrPower : RegAt rPwrPower 7 0 0 0x68 ⟨0x68, 0x0, 1, 4, 0x0, 0x0, 0x0, 0x80000000, 0x0⟩ :=
  RegAt.of_page (page := 0xD00000) (rows := rows_pwr) rfl rfl (by decide) rfl rfl (by decide)

theorem regAt_thmMonSel : RegAt rThmMonSel 8 0 0 0x54 ⟨0x54, 0x0, 1, 4, 0x7f, 0x0, 0x0, 0x0, 0x0⟩ :=
  RegAt.of_page (page := 0xD80000) (rows := rows_thm) rfl rfl (by decide) rfl rfl (by decide)

theorem regAt_thmMax : RegAt rThmMax 8 0 0 0x70 ⟨0x70, 0x0, 1, 4, 0x0, 0x0, 0x0, 0x80000000, 0x0⟩ :=
  RegAt.of_page (page := 0xD80000) (rows := rows_thm) rfl rfl (by decide) rfl rfl (by decide)

theorem regAt_mgmtRcvCtrl : RegAt rMgmtRcvCtrl 10 0 0 0x70 ⟨0x70, 0x0, 1, 4, 0x0, 0x0, 0x0, 0x3, 0x0⟩ :=
  RegAt.of_page (page := 0xF00000) (rows := rows_mgmt) rfl rfl (by decide) rfl rfl (by decide)

section
variable {s : State} {a k j o : Nat} {r : RegRow} {v : W32}

/-- A register of the power page that the PF writes, but PWR_CTRL. -/
theorem pwr_write32 (hr : RegAt a 7 k j o r) (hs : r.size = 4) (h1 : a ≠ rPwrCtrl) (h2 : a ≠ rMgmtRcvCtrl) (h : s.dev.regOpen 0 a) :
    s.reg32 0 a v = s.onDev fun d => d.writePwr a r (v.zeroExtend 64) := by
  rw [hr.pf_write32 (by decide) hs h1 h2 h]
  simp [hr.apply]

/-- A register of the thermal page that the PF writes. -/
theorem thm_write32 (hr : RegAt a 8 k j o r) (hs : r.size = 4) (h1 : a ≠ rPwrCtrl) (h2 : a ≠ rMgmtRcvCtrl) (h : s.dev.regOpen 0 a) :
    s.reg32 0 a v = s.onDev fun d => d.writeThm a r (v.zeroExtend 64) := by
  rw [hr.pf_write32 (by decide) hs h1 h2 h]
  simp [hr.apply]

end

/-- MGMT_RCV_CTRL as the PF writes it. -/
theorem rcvCtrl_write32 {s : State} {v : W32} (h : s.dev.regOpen 0 rMgmtRcvCtrl) :
    s.reg32 0 rMgmtRcvCtrl v = s.writeRcvCtrl (v.zeroExtend 64) := by
  rw [State.reg32_word h regAt_mgmtRcvCtrl.row (by decide) (by decide) regAt_mgmtRcvCtrl.mapped]
  simp [State.atReg, regAt_mgmtRcvCtrl.row, regAt_mgmtRcvCtrl.view_pf, show rMgmtRcvCtrl ≠ rPwrCtrl by decide]

/-- The low field of a word that holds only it. -/
theorem fld_ofNat_low {n m : Nat} (hn : n < 2 ^ m) (hm : m ≤ 64) : fld (BitVec.ofNat 64 n) ⟨0, m⟩ = n := by
  have h64 : n < 2 ^ 64 := Nat.lt_of_lt_of_le hn (Nat.pow_le_pow_right (by decide) hm)
  simp only [fld, bitsOf, BitVec.toNat_ofNat, Nat.mod_eq_of_lt h64, Nat.shiftRight_zero, Nat.mod_eq_of_lt hn]

theorem Dev.putF_field {d : Dev} {a x : Nat} {f : Fld} (hf : f.lo + f.len ≤ 64) (hx : x < 2 ^ f.len) : (d.putF a f x).getF a f = x := by
  rw [Dev.getF_putF_self _ _ _ _ hf, Nat.mod_eq_of_lt hx]

/-- PWR_PHASE_DATA of an entry of the phase table, or of none (R384). -/
def phaseWord : Option Phase → W64
  | some x => BitVec.ofNat 64 (x.key + atBit 16 (x.p % 2 ^ 16))
  | none => 0xFFFF

/-- The phase table after a write of PWR_PHASE_SEL. -/
def Dev.clearedPhases (d : Dev) (v : W32) : Tab Phase := if fld v fPwrPhaseSel_Clear = 1 then [] else d.pwr.phases

/-- The device with its phase table cleared where CLEAR asks. -/
def Dev.phasesCleared (d : Dev) (v : W32) : Dev :=
  if fld v fPwrPhaseSel_Clear = 1 then d.onPwr (fun x => { x with phases := [] }) else d

theorem Dev.phasesCleared_pwr (d : Dev) (v : W32) : (d.phasesCleared v).pwr = { d.pwr with phases := d.clearedPhases v } := by
  unfold Dev.phasesCleared Dev.clearedPhases
  split <;> rfl

theorem Dev.phasesCleared_frame (d : Dev) (v : W32) : d.onlyIn (d.phasesCleared v) [.pwr] := by
  unfold Dev.phasesCleared
  split
  · exact d.onPwr_frame _
  · exact d.onlyIn_refl _

theorem Dev.writePhaseSel_eq (d : Dev) (v : W32) :
    d.writePhaseSel (v.zeroExtend 64) = ((d.phasesCleared v).setReg rPwrPhaseSel (BitVec.ofNat 64 (fld v fPwrPhaseSel_Index))).setReg
      rPwrPhaseData (phaseWord (tfind (d.clearedPhases v) (fld v fPwrPhaseSel_Index))) := by
  have hphases : (d.phasesCleared v).pwr.phases = d.clearedPhases v := by rw [Dev.phasesCleared_pwr]
  have hfold : (if fld v fPwrPhaseSel_Clear = 1 then d.onPwr (fun x => { x with phases := [] }) else d) = d.phasesCleared v := rfl
  unfold Dev.writePhaseSel
  simp only [fld_zeroExtend, hfold, Dev.setReg_pwr, hphases]
  cases tfind (d.clearedPhases v) (fld v fPwrPhaseSel_Index) <;> rfl

theorem Dev.writePhaseSel_selects (d : Dev) (v : W32) :
    let e := d.writePhaseSel (v.zeroExtend 64)
    e.pwr = { d.pwr with phases := d.clearedPhases v } ∧ e.getF rPwrPhaseSel fPwrPhaseSel_Index = fld v fPwrPhaseSel_Index
      ∧ e.reg rPwrPhaseData = phaseWord (tfind (d.clearedPhases v) (fld v fPwrPhaseSel_Index))
      ∧ d.regsBut e [rPwrPhaseSel, rPwrPhaseData] ∧ d.onlyIn e [.regs, .pwr] := by
  dsimp only
  have hframe := d.phasesCleared_frame v
  have hidx : fld (BitVec.ofNat 64 (fld v fPwrPhaseSel_Index)) fPwrPhaseSel_Index = fld v fPwrPhaseSel_Index :=
    fld_ofNat_low (fld_lt v fPwrPhaseSel_Index) (by decide)
  rw [Dev.writePhaseSel_eq]
  refine ⟨d.phasesCleared_pwr v, ?_, Dev.reg_setReg_self _ _ _, ?_, ?_⟩
  · rw [Dev.getF, Dev.reg_setReg_ne _ _ (by decide), Dev.reg_setReg_self, hidx]
  · exact ((Dev.regsBut_of_onlyIn hframe rfl _).after (Dev.regsBut_setReg _ _ _)).after (Dev.regsBut_setReg _ _ _)
  · exact ((Dev.onlyIn_sub _ hframe rfl).after (Dev.setReg_frame _ _ _)).after (Dev.setReg_frame _ _ _)

/-- A field put with what another field held, or left (CLR of a peak or a maximum). -/
theorem Dev.clear_to (d : Dev) (a b : Nat) (f g : Fld) (p : Prop) [Decidable p] (hf : f.lo + f.len ≤ 64) (hw : g.len ≤ f.len) :
    (if p then d.putF a f (d.getF b g) else d).getF a f = (if p then d.getF b g else d.getF a f)
      ∧ d.regsBut (if p then d.putF a f (d.getF b g) else d) [a] ∧ d.onlyIn (if p then d.putF a f (d.getF b g) else d) [.regs] := by
  by_cases h : p
  · simp only [if_pos h]
    exact ⟨d.getF_putF_getF _ _ _ _ hf hw, d.regsBut_putF _ _ _, d.putF_frame _ _ _⟩
  · rw [if_neg h, if_neg h]
    exact ⟨rfl, d.regsBut_refl _, d.onlyIn_refl _⟩

/-! ### GO and REBOOT (14 R402) -/

theorem imageCheck_le (g : Gander) (img : List Byte) : imageCheck g img ≤ 6 := by
  unfold imageCheck
  dsimp only
  repeat' split
  all_goals decide

/-- GO with an image that fails shows which check failed; with one that passes, whether flash took it. -/
theorem Dev.recoveryGo_shows {d d1 : Dev} {img : List Byte} (h : d.pushedImage = (d1, img)) :
    let k := imageCheck d1.gan img
    let e := d.recoveryGo
    d1.regsBut e [rMgmtRcvCtrl] ∧ d1.onlyIn e [.regs, .gan, .free]
      ∧ (k ≠ 0 → e.getF rMgmtRcvCtrl fMgmtRcvCtrl_Result = k + 2 ∧ d1.onlyIn e [.regs])
      ∧ (k = 0 → (e.getF rMgmtRcvCtrl fMgmtRcvCtrl_Result = 2 ∧ e.gan.image = img.take (byteBits img 96 32))
          ∨ (e.getF rMgmtRcvCtrl fMgmtRcvCtrl_Result = 9 ∧ e.gan.image = [])) := by
  dsimp only
  have hle := imageCheck_le d1.gan img
  by_cases hk : imageCheck d1.gan img = 0
  · have hrun : d.recoveryGo = (d1.programImage img).1.setRcvResult (if (d1.programImage img).2 then 2 else 9) := by
      simp only [Dev.recoveryGo, h, hk, ne_eq, not_true_eq_false, if_false]
    have hprog : d1.onlyIn (d1.programImage img).1 [.gan, .free] := by
      intro c hc
      cases c <;> first | rfl | simp at hc
    have himage : (d1.programImage img).1.gan.image = if (d1.programImage img).2 then img.take (byteBits img 96 32) else [] := rfl
    rw [hrun]
    refine ⟨?_, (Dev.onlyIn_sub _ hprog rfl).after (Dev.putF_frame _ _ _ _), fun hn => absurd hk hn, fun _ => ?_⟩
    · exact (Dev.regsBut_of_onlyIn hprog rfl _).after (Dev.regsBut_putF _ _ _ _)
    · cases hg : (d1.programImage img).2
      · exact .inr ⟨Dev.putF_field (by decide) (by decide), himage.trans (by rw [hg]; rfl)⟩
      · exact .inl ⟨Dev.putF_field (by decide) (by decide), himage.trans (by rw [hg]; rfl)⟩
  · have hrun : d.recoveryGo = d1.setRcvResult (imageCheck d1.gan img + 2) := by
      simp only [Dev.recoveryGo, h, ne_eq, hk, not_false_eq_true, if_true]
    rw [hrun]
    refine ⟨d1.regsBut_putF _ _ _, Dev.onlyIn_sub _ (d1.putF_frame _ _ _) rfl, fun _ => ⟨?_, d1.putF_frame _ _ _⟩, fun h0 => absurd h0 hk⟩
    refine Dev.putF_field (by decide) ?_
    have hlen : 2 ^ fMgmtRcvCtrl_Result.len = 16 := rfl
    omega

/-- What a write of MGMT_RCV_CTRL does, by its two bits. -/
theorem State.writeRcvCtrl_eq (s : State) (v : W32) :
    s.writeRcvCtrl (v.zeroExtend 64) =
      if fld v fMgmtRcvCtrl_Go ≠ 1 ∧ fld v fMgmtRcvCtrl_Reboot ≠ 1 then s
      else if s.dev.recoveryBoot = false then s.onDev (fun d => d.blkErr pgMgmt)
      else
        let t := if fld v fMgmtRcvCtrl_Go = 1 then s.onDev Dev.recoveryGo else s
        if fld v fMgmtRcvCtrl_Reboot = 1 then (t.onDev (fun d => d.onHif (fun h => { h with railsGood := false }))).boot 4 else t := by
  simp [State.writeRcvCtrl, fld_zeroExtend]

/-- The rails stay released over a reboot. -/
theorem State.boot_railsGood (s : State) (last : Nat) :
    ((s.onDev (fun d => d.onHif (fun h => { h with railsGood := false }))).boot last).dev.hif.railsGood = false := by
  obtain ⟨vs, out, h⟩ := Dev.boot_hif (s.dev.onHif (fun h => { h with railsGood := false })) s.ident last
  exact congrArg Hif.railsGood h

/-- A reboot with the rails released is a boot (R402). -/
theorem State.reboot_booted (s : State) :
    s.booted ((s.onDev (fun d => d.onHif (fun h => { h with railsGood := false }))).boot 4) 4 := by
  have h := State.boot_booted (s.onDev (fun d => d.onHif (fun h => { h with railsGood := false }))) (last := 4) (by decide)
  generalize (s.onDev (fun d => d.onHif (fun h => { h with railsGood := false }))).boot 4 = t at h ⊢
  exact h

/-- Settles O50, register by register. -/
theorem powerAndRecoveryRegistersTakeWrites : Obligations.PowerAndRecoveryRegistersTakeWrites := by
  unfold Obligations.PowerAndRecoveryRegistersTakeWrites
  refine ⟨fun row hrow s f v hf h => ?vf, fun s v => ⟨fun h => ?clk, fun h row hrow => ?phase, fun h => ?power, fun h => ?maximum,
    fun h => ?monitor, fun h row hrow => ?recovery⟩⟩
  case vf =>
    simp only [List.mem_cons, List.not_mem_nil, or_false] at hrow
    rcases hrow with rfl | rfl | rfl | rfl | rfl | rfl | rfl | rfl
    · exact congrArg Host.Outcome.next (regAt_pwrClk.vf_unseen32 (by decide) rfl hf h rfl)
    · exact congrArg Host.Outcome.next (regAt_pwrPhaseSel.vf_unseen32 (by decide) rfl hf h rfl)
    · exact congrArg Host.Outcome.next (regAt_pwrPhaseSel.vf_unseen32 (by decide) rfl hf h rfl)
    · exact congrArg Host.Outcome.next (regAt_pwrPower.vf_unseen32 (by decide) rfl hf h rfl)
    · exact congrArg Host.Outcome.next (regAt_thmMonSel.vf_unseen32 (by decide) rfl hf h rfl)
    · exact congrArg Host.Outcome.next (regAt_thmMax.vf_unseen32 (by decide) rfl hf h rfl)
    · exact congrArg Host.Outcome.next (regAt_mgmtRcvCtrl.vf_unseen32 (by decide) rfl hf h rfl)
    · exact congrArg Host.Outcome.next (regAt_mgmtRcvCtrl.vf_unseen32 (by decide) rfl hf h rfl)
  case clk =>
    have hexec : exec (.pwrClk 0 v) s = .next (s.onDev fun d => if 16 ≤ fld v fPwrClk_Target ∧ fld v fPwrClk_Target ≤ 64 then
        d.putF rPwrClk fPwrClk_Target (fld v fPwrClk_Target) else d.blkErr pgPwr) := by
      refine congrArg Host.Outcome.next ((pwr_write32 regAt_pwrClk rfl (by decide) (by decide) h).trans ?_)
      simp only [Dev.writePwr, if_true, Dev.writeClk, fld_zeroExtend]
    refine ⟨fun hlo hhi => ?_, fun hout => ?_⟩
    · simp only [if_pos (And.intro hlo hhi)] at hexec
      exact ⟨_, hexec, Dev.putF_field (by decide) (fld_lt _ _), Dev.getF_putF_field _ _ _ _ _ (by decide) (by decide), Dev.regsBut_putF _ _ _ _,
        Dev.putF_frame _ _ _ _⟩
    · simp only [if_neg (show ¬ (16 ≤ fld v fPwrClk_Target ∧ fld v fPwrClk_Target ≤ 64) by omega)] at hexec
      exact ⟨_, hexec, Dev.blkErr_discarded _ _⟩
  case phase =>
    have hreg : s.reg32 0 rPwrPhaseSel v = s.onDev fun d => d.writePhaseSel (v.zeroExtend 64) := by
      refine (pwr_write32 regAt_pwrPhaseSel rfl (by decide) (by decide) h).trans ?_
      simp only [Dev.writePwr, if_neg (show rPwrPhaseSel ≠ rPwrClk by decide), if_true]
    have hexec : exec (row 0 v) s = .next (s.onDev fun d => d.writePhaseSel (v.zeroExtend 64)) := by
      simp only [List.mem_cons, List.not_mem_nil, or_false] at hrow
      rcases hrow with rfl | rfl <;> exact congrArg Host.Outcome.next hreg
    exact ⟨_, hexec, s.dev.writePhaseSel_selects v⟩
  case power =>
    have hexec : exec (.pwrPowerClr 0 v) s = .next (s.onDev fun d => if fld v fPwrPower_Clr = 1 then
        d.putF rPwrPower fPwrPower_Peak (d.getF rPwrPower fPwrPower_Avg) else d) := by
      refine congrArg Host.Outcome.next ((pwr_write32 regAt_pwrPower rfl (by decide) (by decide) h).trans ?_)
      simp only [Dev.writePwr, if_neg (show rPwrPower ≠ rPwrClk by decide), if_neg (show rPwrPower ≠ rPwrPhaseSel by decide), if_true,
        fld_zeroExtend]
    obtain ⟨hpeak, hregs, hframe⟩ := s.dev.clear_to rPwrPower rPwrPower fPwrPower_Peak fPwrPower_Avg (fld v fPwrPower_Clr = 1) (by decide)
      (by decide)
    refine ⟨_, hexec, hpeak, ?_, hregs, hframe⟩
    split
    · exact Dev.getF_putF_field _ _ _ _ _ (by decide) (by decide)
    · rfl
  case maximum =>
    have hexec : exec (.thmMaxClr 0 v) s = .next (s.onDev fun d => if fld v fThmMax_Clr = 1 then
        d.putF rThmMax fThmMax_Max (d.getF rThmHot fThmHot_Temp) else d) := by
      refine congrArg Host.Outcome.next ((thm_write32 regAt_thmMax rfl (by decide) (by decide) h).trans ?_)
      simp only [Dev.writeThm, if_neg (show rThmMax ≠ rThmLimit by decide), if_true, fld_zeroExtend]
    exact ⟨_, hexec, s.dev.clear_to _ _ _ _ _ (by decide) (by decide)⟩
  case monitor =>
    have hexec : exec (.thmMonSel 0 v) s
        = .next (s.onDev fun d => d.plainWrite rThmMonSel ⟨0x54, 0x0, 1, 4, 0x7f, 0x0, 0x0, 0x0, 0x0⟩ (v.zeroExtend 64)) := by
      refine congrArg Host.Outcome.next ((thm_write32 regAt_thmMonSel rfl (by decide) (by decide) h).trans ?_)
      simp only [Dev.writeThm, if_neg (show rThmMonSel ≠ rThmLimit by decide), if_neg (show rThmMonSel ≠ rThmMax by decide)]
    obtain ⟨hk, hi, hregs, hframe⟩ := s.dev.plainWrite_fields (a := rThmMonSel) (r := ⟨0x54, 0x0, 1, 4, 0x7f, 0x0, 0x0, 0x0, 0x0⟩)
      (f := fThmMonSel_Sect) (g := fThmMonSel_Mon) rfl rfl (by decide) (by decide) (v.zeroExtend 64)
    exact ⟨_, hexec, hk.trans (fld_zeroExtend _ _), hi.trans (fld_zeroExtend _ _), hregs, hframe⟩
  case recovery =>
    have hexec : exec (row 0 v) s = .next (s.writeRcvCtrl (v.zeroExtend 64)) := by
      simp only [List.mem_cons, List.not_mem_nil, or_false] at hrow
      rcases hrow with rfl | rfl <;> exact congrArg Host.Outcome.next (rcvCtrl_write32 h)
    rw [State.writeRcvCtrl_eq] at hexec
    refine ⟨fun hg hr => ?none, fun hgr hrec => ?refused, fun d1 img hg hr hrec hp => ?go, fun d1 img hg hr hrec hp => ?both, fun hg hr hrec => ?reboot⟩
    case none =>
      rw [hexec, hg, hr]
      rfl
    case refused =>
      have hacts : ¬ (fld v fMgmtRcvCtrl_Go ≠ 1 ∧ fld v fMgmtRcvCtrl_Reboot ≠ 1) := by omega
      rw [if_neg hacts, if_pos hrec] at hexec
      exact ⟨_, hexec, Dev.blkErr_discarded _ _⟩
    case go =>
      rw [if_neg (fun h => h.1 hg), if_neg (by simp [hrec]), if_pos hg, if_neg (by omega)] at hexec
      obtain ⟨hregs, hframe, hbad, hgood⟩ := Dev.recoveryGo_shows hp
      exact ⟨_, hexec, hregs, hbad, fun hk => ⟨hframe, hgood hk⟩⟩
    case both =>
      rw [if_neg (fun h => h.1 hg), if_neg (by simp [hrec]), if_pos hg, if_pos hr] at hexec
      obtain ⟨-, hframe, -, -⟩ := Dev.recoveryGo_shows hp
      exact ⟨s.dev.recoveryGo, _, hexec, State.reboot_booted (s.onDev Dev.recoveryGo), hframe⟩
    case reboot =>
      rw [if_neg (fun h => h.2 hr), if_neg (by simp [hrec]), if_neg (show ¬ fld v fMgmtRcvCtrl_Go = 1 by omega), if_pos hr] at hexec
      exact ⟨_, hexec, State.reboot_booted s, State.boot_railsGood s 4⟩

end Sys2Proof.Machine
end

section
/-! # O23: queue and ring registers -/

namespace Sys2Proof.Machine

/-! ## Queue and ring registers (O23) -/

theorem pageInfo_cqQ (q : QueueId) : pageInfo (0x11000 + 0x1000 * (q.val / 32)) = some (2, 0, 1 + q.val / 32, rows_cqQ) := by
  have hq := q.isLt
  have hdiv : (0x11000 + 0x1000 * (q.val / 32) - 0x11000) / 0x1000 = q.val / 32 := by omega
  unfold pageInfo
  rw [if_neg (by omega), if_neg (by omega), if_neg (by omega), if_pos (by omega), hdiv]

theorem pageInfo_cqR (r : RingId) : pageInfo (0x15000 + 0x1000 * (r.val / 32)) = some (2, 0, 5 + r.val / 32, rows_cqR) := by
  have hr := r.isLt
  have hdiv : (0x15000 + 0x1000 * (r.val / 32) - 0x15000) / 0x1000 = r.val / 32 := by omega
  unfold pageInfo
  rw [if_neg (by omega), if_neg (by omega), if_neg (by omega), if_neg (by omega), if_pos (by omega), hdiv]

/-- The copy `i` of a register that stands every 0x40 bytes from 0x200 + `o` on is covered by the row at 0x200 + `o` only. -/
theorem find_cqQ_cfg (i : Fin 32) : rows_cqQ.find? (fun r => r.covers (0x200 + 0x40 * i.val)) = some ⟨0x200, 0x40, 32, 4, 0xfffff, 0x0, 0x0, 0x0, 0xa0000⟩ := by
  revert i
  decide

theorem find_cqR_cfg (i : Fin 32) : rows_cqR.find? (fun r => r.covers (0x208 + 0x40 * i.val)) = some ⟨0x208, 0x40, 32, 4, 0x7ff3f, 0x0, 0x0, 0x0, 0x40600⟩ := by
  revert i
  decide

theorem find_cqR_head (i : Fin 32) : rows_cqR.find? (fun r => r.covers (0x214 + 0x40 * i.val)) = some ⟨0x214, 0x40, 32, 4, 0xffffffff, 0x0, 0x0, 0x0, 0x0⟩ := by
  revert i
  decide

theorem regAt_cqQCfg (q : QueueId) :
    RegAt (rCqQCfg q) 2 0 (1 + q.val / 32) (0x200 + 0x40 * (q.val % 32)) ⟨0x200, 0x40, 32, 4, 0xfffff, 0x0, 0x0, 0x0, 0xa0000⟩ := by
  have ha : rCqQCfg q = 0x11000 + 0x1000 * (q.val / 32) + (0x200 + 0x40 * (q.val % 32)) := by
    simp only [rCqQCfg]
    omega
  rw [ha]
  refine RegAt.of_page (pageInfo_cqQ q) (by omega) (by omega) (find_cqQ_cfg ⟨q.val % 32, Nat.mod_lt _ (by decide)⟩) ?_ (.inl ⟨rfl, by omega⟩)
  simp only [show ¬ (32 ≤ 1) by decide, if_false]
  omega

theorem regAt_cqRCfg (r : RingId) :
    RegAt (rCqRCfg r) 2 0 (5 + r.val / 32) (0x208 + 0x40 * (r.val % 32)) ⟨0x208, 0x40, 32, 4, 0x7ff3f, 0x0, 0x0, 0x0, 0x40600⟩ := by
  have ha : rCqRCfg r = 0x15000 + 0x1000 * (r.val / 32) + (0x208 + 0x40 * (r.val % 32)) := by
    simp only [rCqRCfg]
    omega
  rw [ha]
  refine RegAt.of_page (pageInfo_cqR r) (by omega) (by omega) (find_cqR_cfg ⟨r.val % 32, Nat.mod_lt _ (by decide)⟩) ?_ (.inl ⟨rfl, by omega⟩)
  simp only [show ¬ (32 ≤ 1) by decide, if_false]
  omega

theorem regAt_cqRHead (r : RingId) :
    RegAt (rCqRHead r) 2 0 (5 + r.val / 32) (0x214 + 0x40 * (r.val % 32)) ⟨0x214, 0x40, 32, 4, 0xffffffff, 0x0, 0x0, 0x0, 0x0⟩ := by
  have ha : rCqRHead r = 0x15000 + 0x1000 * (r.val / 32) + (0x214 + 0x40 * (r.val % 32)) := by
    simp only [rCqRHead]
    omega
  rw [ha]
  refine RegAt.of_page (pageInfo_cqR r) (by omega) (by omega) (find_cqR_head ⟨r.val % 32, Nat.mod_lt _ (by decide)⟩) ?_ (.inl ⟨rfl, by omega⟩)
  simp only [show ¬ (32 ≤ 1) by decide, if_false]
  omega

theorem cqQCfg_write {s : State} {q : QueueId} {v : W32} (h : s.dev.regOpen 0 (rCqQCfg q)) :
    exec (.cqQCfg 0 q v) s = .next (s.onDev fun d => d.writeQCfg q (v.zeroExtend 64)) := by
  have hq := q.isLt
  refine congrArg Host.Outcome.next (((regAt_cqQCfg q).pf_write32 (by decide) rfl ?_ ?_ h).trans ?_)
  · simp only [rCqQCfg, rPwrCtrl]; omega
  · simp only [rCqQCfg, rMgmtRcvCtrl]; omega
  · have hj : 1 ≤ 1 + q.val / 32 ∧ 1 + q.val / 32 ≤ 4 := by omega
    have ho : (0x200 + 0x40 * (q.val % 32)) % 0x40 = 0 := by omega
    have hidx : 32 * (1 + q.val / 32 - 1) + (0x200 + 0x40 * (q.val % 32) - 0x200) / 0x40 = q.val := by omega
    simp only [(regAt_cqQCfg q).apply, if_neg (show (2 : Nat) ≠ 1 by decide), if_true, if_pos hj, if_pos ho, hidx]

theorem cqRCfg_write {s : State} {r : RingId} {v : W32} (h : s.dev.regOpen 0 (rCqRCfg r)) :
    exec (.cqRCfg 0 r v) s = .next (s.onDev fun d => d.writeRCfg 0 r (v.zeroExtend 64)) := by
  have hr := r.isLt
  refine congrArg Host.Outcome.next (((regAt_cqRCfg r).pf_write32 (by decide) rfl ?_ ?_ h).trans ?_)
  · simp only [rCqRCfg, rPwrCtrl]; omega
  · simp only [rCqRCfg, rMgmtRcvCtrl]; omega
  · have hj : ¬ (1 ≤ 5 + r.val / 32 ∧ 5 + r.val / 32 ≤ 4) := by omega
    have hj5 : 5 ≤ 5 + r.val / 32 := by omega
    have h0 : ¬ (0x208 + 0x40 * (r.val % 32)) % 0x40 = 0 := by omega
    have h8 : (0x208 + 0x40 * (r.val % 32)) % 0x40 = 8 := by omega
    have hidx : 32 * (5 + r.val / 32 - 5) + (0x208 + 0x40 * (r.val % 32) - 0x200) / 0x40 = r.val := by omega
    simp only [(regAt_cqRCfg r).apply, if_neg (show (2 : Nat) ≠ 1 by decide), if_true, if_neg hj, if_pos hj5, if_neg h0, if_pos h8, hidx]

theorem cqRHead_write {s : State} {r : RingId} {v : W32} (h : s.dev.regOpen 0 (rCqRHead r)) :
    exec (.cqRHead 0 r v) s = .next (s.onDev fun d => d.writeRHead r (v.zeroExtend 64)) := by
  have hr := r.isLt
  refine congrArg Host.Outcome.next (((regAt_cqRHead r).pf_write32 (by decide) rfl ?_ ?_ h).trans ?_)
  · simp only [rCqRHead, rPwrCtrl]; omega
  · simp only [rCqRHead, rMgmtRcvCtrl]; omega
  · have hj : ¬ (1 ≤ 5 + r.val / 32 ∧ 5 + r.val / 32 ≤ 4) := by omega
    have hj5 : 5 ≤ 5 + r.val / 32 := by omega
    have h0 : ¬ (0x214 + 0x40 * (r.val % 32)) % 0x40 = 0 := by omega
    have h8 : ¬ (0x214 + 0x40 * (r.val % 32)) % 0x40 = 8 := by omega
    have h14 : (0x214 + 0x40 * (r.val % 32)) % 0x40 = 0x14 := by omega
    have hidx : 32 * (5 + r.val / 32 - 5) + (0x214 + 0x40 * (r.val % 32) - 0x200) / 0x40 = r.val := by omega
    simp only [(regAt_cqRHead r).apply, if_neg (show (2 : Nat) ≠ 1 by decide), if_true, if_neg hj, if_pos hj5, if_neg h0, if_neg h8,
      if_pos h14, hidx]

/-! ### CQ_Q_CFG (Table 5-10) -/

/-- Registers set to zero in turn. -/
theorem Dev.reg_zeroed (d : Dev) (as : List Nat) (b : Nat) :
    (as.foldl (fun d a => d.setReg a 0) d).reg b = if b ∈ as then 0 else d.reg b := by
  induction as generalizing d with
  | nil => simp
  | cons a as ih =>
    rw [List.foldl_cons, ih, Dev.reg_setReg]
    by_cases hb : b ∈ as
    · simp [hb]
    · by_cases ha : a = b
      · simp [ha]
      · simp [hb, Ne.symm ha]

theorem Dev.clearCounts_frame (d : Dev) (q : Nat) : d.onlyIn (d.clearCounts q) [.regs] :=
  Dev.onlyIn_foldl _ (fun d a => d.setReg_frame a 0) _ d

theorem Dev.flushQueue_frame (d : Dev) (q : Nat) : d.onlyIn (d.flushQueue q) [.cq, .regs, .hif] := by
  intro c hc
  cases c <;> first | rfl | simp at hc

/-- What a change of EN does before the register is set. -/
def Dev.switchQueue (d : Dev) (q : Nat) (en : Bool) : Dev :=
  let d1 := if d.queueEn q && !en then d.flushQueue q else d
  if !d.queueEn q && en then d1.clearCounts q else d1

theorem Dev.switchQueue_frame (d : Dev) (q : Nat) (en : Bool) : d.onlyIn (d.switchQueue q en) [.cq, .regs, .hif] := by
  unfold Dev.switchQueue
  cases d.queueEn q <;> cases en
  · exact d.onlyIn_refl _
  · exact Dev.onlyIn_sub _ (d.clearCounts_frame q) rfl
  · exact d.flushQueue_frame q
  · exact d.onlyIn_refl _

/-- The writes of CQ_Q_CFG that Table 5-10 discards. -/
def Dev.qCfgBad (d : Dev) (q : Nat) (w : W64) : Bool :=
  fld w fCqQCfg_DepthLog2 < 4 || 10 < fld w fCqQCfg_DepthLog2 || (d.queueEn q && w / 2 != d.reg (rCqQCfg q) / 2)
    || 24 < fld w fCqQCfg_Func
    || (fld w fCqQCfg_Func != 0 && (fld w fCqQCfg_Part != d.vfPart (fld w fCqQCfg_Func) || 6 ≤ d.vfPart (fld w fCqQCfg_Func)))
    || d.getF (rCqRCfg (fld w fCqQCfg_Ring)) fCqRCfg_Func != fld w fCqQCfg_Func

theorem Dev.writeQCfg_eq (d : Dev) (q : Nat) (v : W64) :
    d.writeQCfg q v =
      let w := v &&& 0xF_FFFF
      if d.qCfgBad q w = true then d.blkErr (pageOf (rCqQCfg q))
      else Dev.signal (d.switchQueue q (fld w fCqQCfg_En == 1)) ((d.switchQueue q (fld w fCqQCfg_En == 1)).setReg (rCqQCfg q) w) := rfl

/-- Halving a word leaves the bits above its lowest. -/
theorem half_eq_iff (x y : W64) : x / 2 = y / 2 ↔ bitsOf x 1 63 = bitsOf y 1 63 := by
  have hx := x.isLt
  have hy := y.isLt
  have hdx : (x / 2).toNat = x.toNat / 2 := by simp [BitVec.toNat_udiv]
  have hdy : (y / 2).toNat = y.toNat / 2 := by simp [BitVec.toNat_udiv]
  simp only [← BitVec.toNat_inj, hdx, hdy, bitsOf, Nat.shiftRight_eq_div_pow]
  omega

theorem cqQ_ne (q : Nat) :
    ∀ b ∈ [rCqQWcnt q, rCqQScnt q, rCqQCcnt q, rCqQQovf q, rCqQQrej q, rCqQFlushed q, rCqQCfg q], b ≠ rHifTxDrop ∧ b ≠ rBlkIntStat pgHif := by
  intro b hb
  simp only [List.mem_cons, List.not_mem_nil, or_false, rCqQWcnt, rCqQScnt, rCqQCcnt, rCqQQovf, rCqQQrej, rCqQFlushed, rCqQCfg] at hb
  simp only [rHifTxDrop, rBlkIntStat, pgHif]
  omega

/-- A write of a queue's register that is taken. -/
theorem Dev.qCfg_taken (d : Dev) (q : QueueId) (w : W64) :
    let c := d.switchQueue q (fld w fCqQCfg_En == 1)
    let e := Dev.signal c (c.setReg (rCqQCfg q) w)
    e.reg (rCqQCfg q) = w ∧ d.onlyIn e [.cq, .regs, .hif]
      ∧ (d.queueEn q = false → fld w fCqQCfg_En = 1 → e.cq = d.cq
          ∧ ∀ b ∈ [rCqQWcnt q, rCqQScnt q, rCqQCcnt q, rCqQQovf q, rCqQQrej q, rCqQFlushed q], e.reg b = 0)
      ∧ (d.queueEn q = true → fld w fCqQCfg_En = 0 → e.cq = { d.cq with
            storage := tset d.cq.storage q [], stamps := tdel d.cq.stamps q, checked := tdel d.cq.checked q
            fetched := tdel d.cq.fetched q }
          ∧ (∀ z ∈ e.hif.reads, z.purpose ≠ .head q)
          ∧ e.getF (rCqQFlushed q) fCqQFlushed_Flushed
            = min (2 ^ 32 - 1) (d.getF (rCqQFlushed q) fCqQFlushed_Flushed + (d.waiting q).length)) := by
  dsimp only
  generalize hc : d.switchQueue q (fld w fCqQCfg_En == 1) = c
  have hkeep : ∀ b ∈ [rCqQWcnt q, rCqQScnt q, rCqQCcnt q, rCqQQovf q, rCqQQrej q, rCqQFlushed q, rCqQCfg q],
      (Dev.signal c (c.setReg (rCqQCfg q) w)).reg b = (c.setReg (rCqQCfg q) w).reg b :=
    fun b hb => Dev.signal_regsBut _ _ b (by simp [cqQ_ne q b hb])
  have hcq : (Dev.signal c (c.setReg (rCqQCfg q) w)).cq = c.cq := Dev.signal_frame _ _ .cq rfl
  refine ⟨?_, ?_, fun hwas hen => ⟨?_, fun b hb => ?_⟩, fun hwas hen => ⟨?_, ?_, ?_⟩⟩
  · rw [hkeep _ (by simp), Dev.reg_setReg_self]
  · rw [← hc]
    exact (((d.switchQueue_frame q _).after (Dev.setReg_frame _ _ _)).after (Dev.signal_frame _ _))
  · rw [hcq, ← hc]
    simp only [Dev.switchQueue, hwas, hen]
    exact d.clearCounts_frame q .cq rfl
  · have hne : b ≠ rCqQCfg q := by
      simp only [List.mem_cons, List.not_mem_nil, or_false, rCqQWcnt, rCqQScnt, rCqQCcnt, rCqQQovf, rCqQQrej, rCqQFlushed] at hb
      simp only [rCqQCfg]
      omega
    rw [hkeep b (by simp only [List.mem_cons] at hb ⊢; tauto), Dev.reg_setReg_ne _ _ hne, ← hc]
    simp only [Dev.switchQueue, hwas, hen]
    exact (Dev.reg_zeroed d _ b).trans (if_pos hb)
  · rw [hcq, ← hc]
    simp only [Dev.switchQueue, hwas, hen]
    rfl
  · obtain ⟨vs, out, hh⟩ := Dev.signal_spoke c (c.setReg (rCqQCfg q) w)
    rw [hh, ← hc]
    simp only [Dev.switchQueue, hwas, hen]
    intro z hz
    have hz' : z ∈ d.hif.reads.filter (fun r => r.purpose != .head q) := hz
    simpa using (List.mem_filter.mp hz').2
  · have hne : rCqQFlushed q ≠ rCqQCfg q := by
      simp only [rCqQFlushed, rCqQCfg]
      omega
    have hne' : rCqQFlushed q ≠ rCqQScnt q := by
      simp only [rCqQFlushed, rCqQScnt]
      omega
    rw [Dev.getF, hkeep _ (by simp), Dev.reg_setReg_ne _ _ hne, ← Dev.getF, ← hc]
    simp only [Dev.switchQueue, hwas, hen]
    have hflush : (d.flushQueue q).getF (rCqQFlushed q) fCqQFlushed_Flushed
        = (d.addF (rCqQFlushed q) fCqQFlushed_Flushed (d.waiting q).length).getF (rCqQFlushed q) fCqQFlushed_Flushed :=
      Dev.getF_putF_ne (((d.setWaiting q []).dropHeadReads q).addF (rCqQFlushed q) fCqQFlushed_Flushed (d.waiting q).length) _ _ _ hne'
    refine hflush.trans ?_
    rw [Dev.addF, Dev.putF_field (by decide), satAdd, min_comm]
    · rfl
    · have hlen : 2 ^ fCqQFlushed_Flushed.len = 2 ^ 32 := rfl
      rw [satAdd]
      omega

theorem pageOf_cqQCfg (q : QueueId) : pageOf (rCqQCfg q) = pgCqQ q := by
  simp only [pageOf, rCqQCfg, pgCqQ]
  omega

theorem pageOf_cqRCfg (r : RingId) : pageOf (rCqRCfg r) = pgCqR r := by
  simp only [pageOf, rCqRCfg, pgCqR]
  omega

theorem pageOf_cqRHead (r : RingId) : pageOf (rCqRHead r) = pgCqR r := by
  simp only [pageOf, rCqRHead, pgCqR]
  omega

/-! ### Ring registers (Table 5-13) -/

/-- With no record held for a ring none is written. -/
theorem Dev.flushHeld_none {d : Dev} {r : Nat} (h : d.cq.ready.find? (fun x => x.ring == r && x.held) = none) : d.flushHeld r = d := by
  unfold Dev.flushHeld
  cases hn : d.cq.ready.length with
  | zero => rfl
  | succ n => simp only [Dev.writeHeld, h]

theorem cqR_ne (r : Nat) : ∀ b ∈ [rCqRCfg r, rCqRTail r, rCqRHead r], b ≠ rHifTxDrop ∧ b ≠ rBlkIntStat pgHif := by
  intro b hb
  simp only [List.mem_cons, List.not_mem_nil, or_false, rCqRCfg, rCqRTail, rCqRHead] at hb
  simp only [rHifTxDrop, rBlkIntStat, pgHif]
  omega

/-- What a change of EN does to the pointers of a ring. -/
def Dev.switchRing (d : Dev) (r : Nat) (en : Bool) : Dev :=
  if !(d.getF (rCqRCfg r) fCqRCfg_En == 1) && en then (d.setReg (rCqRTail r) 0).setReg (rCqRHead r) 0 else d

theorem Dev.switchRing_frame (d : Dev) (r : Nat) (en : Bool) : d.onlyIn (d.switchRing r en) [.regs] := by
  unfold Dev.switchRing
  split
  · exact ((d.onlyIn_refl _).after (Dev.setReg_frame _ _ _)).after (Dev.setReg_frame _ _ _)
  · exact d.onlyIn_refl _

/-- The writes of CQ_R_CFG that Table 5-13 discards. -/
def Dev.rCfgBad (d : Dev) (r : Nat) (w : W64) : Bool :=
  fld w fCqRCfg_Log2n < 6 || 15 < fld w fCqRCfg_Log2n || (d.getF (rCqRCfg r) fCqRCfg_En == 1
    && (fld w fCqRCfg_Func != d.getF (rCqRCfg r) fCqRCfg_Func || fld w fCqRCfg_Log2n != d.getF (rCqRCfg r) fCqRCfg_Log2n))

theorem Dev.writeRCfg_pf (d : Dev) (r : Nat) (v : W64) :
    d.writeRCfg 0 r v =
      let w := v &&& 0x7_FF3F
      if d.rCfgBad r w = true then d.blkErr (pageOf (rCqRCfg r))
      else (Dev.signal (d.switchRing r (fld w fCqRCfg_En == 1))
          ((d.switchRing r (fld w fCqRCfg_En == 1)).setReg (rCqRCfg r) w)).flushHeld r := rfl

theorem Dev.rCfg_taken {d : Dev} {r : RingId} (hnone : d.cq.ready.find? (fun x => x.ring == r.val && x.held) = none) (w : W64) :
    let c := d.switchRing r (fld w fCqRCfg_En == 1)
    let e := (Dev.signal c (c.setReg (rCqRCfg r) w)).flushHeld r
    e.reg (rCqRCfg r) = w
      ∧ (d.getF (rCqRCfg r) fCqRCfg_En = 0 → fld w fCqRCfg_En = 1 → e.reg (rCqRTail r) = 0 ∧ e.reg (rCqRHead r) = 0)
      ∧ e.cq = d.cq ∧ d.onlyIn e [.regs, .hif] := by
  dsimp only
  generalize hc : d.switchRing r (fld w fCqRCfg_En == 1) = c
  have hframe : d.onlyIn (Dev.signal c (c.setReg (rCqRCfg r) w)) [.regs, .hif] := by
    rw [← hc]
    exact ((Dev.onlyIn_sub _ (d.switchRing_frame r _) rfl).after (Dev.setReg_frame _ _ _)).after (Dev.signal_frame _ _)
  have hcq : (Dev.signal c (c.setReg (rCqRCfg r) w)).cq = d.cq := hframe .cq rfl
  have hkeep : ∀ b ∈ [rCqRCfg r, rCqRTail r, rCqRHead r], (Dev.signal c (c.setReg (rCqRCfg r) w)).reg b = (c.setReg (rCqRCfg r) w).reg b :=
    fun b hb => Dev.signal_regsBut _ _ b (by simp [cqR_ne r b hb])
  rw [Dev.flushHeld_none (by rw [hcq]; exact hnone)]
  have hne : rCqRTail r ≠ rCqRCfg r ∧ rCqRHead r ≠ rCqRCfg r ∧ rCqRTail r ≠ rCqRHead r := by
    simp only [rCqRTail, rCqRCfg, rCqRHead]
    omega
  refine ⟨?_, fun hwas hen => ⟨?_, ?_⟩, hcq, hframe⟩
  · rw [hkeep _ (by simp), Dev.reg_setReg_self]
  · rw [hkeep _ (by simp), Dev.reg_setReg_ne _ _ hne.1, ← hc]
    simp only [Dev.switchRing, hwas, hen]
    exact (Dev.reg_setReg_ne _ _ hne.2.2).trans (Dev.reg_setReg_self _ _ _)
  · rw [hkeep _ (by simp), Dev.reg_setReg_ne _ _ hne.2.1, ← hc]
    simp only [Dev.switchRing, hwas, hen]
    exact Dev.reg_setReg_self _ _ _

/-- Settles O23, register by register. -/
theorem queueAndRingRegistersTakeWrites : Obligations.QueueAndRingRegistersTakeWrites := by
  unfold Obligations.QueueAndRingRegistersTakeWrites
  refine ⟨fun s q v h => ?queue, fun s f q v hf h => ?vf, fun s r v h hnone => ?ring, fun s r v h hnone => ?head⟩
  case queue =>
    have hbad_iff : ∀ (d : Dev) (w : W64), d.qCfgBad q w = true ↔ fld w fCqQCfg_DepthLog2 < 4 ∨ 10 < fld w fCqQCfg_DepthLog2
        ∨ (d.queueEn q = true ∧ bitsOf w 1 63 ≠ bitsOf (d.reg (rCqQCfg q)) 1 63) ∨ 24 < fld w fCqQCfg_Func
        ∨ (fld w fCqQCfg_Func ≠ 0 ∧ (fld w fCqQCfg_Part ≠ d.vfPart (fld w fCqQCfg_Func) ∨ 6 ≤ d.vfPart (fld w fCqQCfg_Func)))
        ∨ d.getF (rCqRCfg (fld w fCqQCfg_Ring)) fCqRCfg_Func ≠ fld w fCqQCfg_Func := by
      intro d w
      simp only [Dev.qCfgBad, Bool.or_eq_true, Bool.and_eq_true, decide_eq_true_eq, bne_iff_ne, ne_eq, half_eq_iff, or_assoc]
    have hexec := cqQCfg_write (v := v) h
    simp only [Dev.writeQCfg_eq] at hexec
    dsimp only
    rw [← hbad_iff]
    by_cases hbad : s.dev.qCfgBad q (v.zeroExtend 64 &&& 0xF_FFFF) = true
    · simp only [State.onDev, if_pos hbad] at hexec
      refine ⟨_, hexec, fun _ => ?_, fun hgood => absurd hbad hgood⟩
      rw [pageOf_cqQCfg]
      exact Dev.blkErr_discarded _ _
    · simp only [State.onDev, if_neg hbad] at hexec
      exact ⟨_, hexec, fun h => absurd h hbad, fun _ => s.dev.qCfg_taken q _⟩
  case vf =>
    have hq := q.isLt
    refine congrArg Host.Outcome.next ((regAt_cqQCfg q).vf_unseen32 (by decide) rfl hf h ?_)
    have hj : 1 + q.val / 32 ≤ 4 := by omega
    have ho : ¬ 0x200 + 0x40 * (q.val % 32) < 0x40 := by omega
    have ho0 : (0x200 + 0x40 * (q.val % 32)) % 0x40 = 0 := by omega
    simp [Dev.vfView, ho, hj, ho0]
  case ring =>
    have hbad_iff : ∀ (d : Dev) (w : W64), d.rCfgBad r w = true ↔ fld w fCqRCfg_Log2n < 6 ∨ 15 < fld w fCqRCfg_Log2n
        ∨ (d.getF (rCqRCfg r) fCqRCfg_En = 1
          ∧ (fld w fCqRCfg_Func ≠ d.getF (rCqRCfg r) fCqRCfg_Func ∨ fld w fCqRCfg_Log2n ≠ d.getF (rCqRCfg r) fCqRCfg_Log2n)) := by
      intro d w
      simp only [Dev.rCfgBad, Bool.or_eq_true, Bool.and_eq_true, decide_eq_true_eq, bne_iff_ne, ne_eq, beq_iff_eq, or_assoc]
    have hexec := cqRCfg_write (v := v) h
    simp only [Dev.writeRCfg_pf] at hexec
    dsimp only
    rw [← hbad_iff]
    by_cases hbad : s.dev.rCfgBad r (v.zeroExtend 64 &&& 0x7_FF3F) = true
    · simp only [State.onDev, if_pos hbad] at hexec
      refine ⟨_, hexec, fun _ => ?_, fun hgood => absurd hbad hgood⟩
      rw [pageOf_cqRCfg]
      exact Dev.blkErr_discarded _ _
    · simp only [State.onDev, if_neg hbad] at hexec
      exact ⟨_, hexec, fun h => absurd h hbad, fun _ => Dev.rCfg_taken hnone _⟩
  case head =>
    have hlt := v.isLt
    have hv : (v.zeroExtend 64).toNat % 2 ^ 32 = v.toNat := by
      simp only [BitVec.zeroExtend, BitVec.toNat_setWidth]
      omega
    have hword : BitVec.ofNat 64 v.toNat = v.zeroExtend 64 := by
      apply BitVec.eq_of_toNat_eq
      simp only [BitVec.zeroExtend, BitVec.toNat_setWidth, BitVec.toNat_ofNat]
    have hexec := cqRHead_write (v := v) h
    simp only [State.onDev, Dev.writeRHead, hv, Dev.discardIf, hword] at hexec
    dsimp only
    by_cases hbad : (decide (0 < (v.toNat + 2 ^ 32 - (s.dev.reg (rCqRTail r)).toNat) % 2 ^ 32)
        && decide ((v.toNat + 2 ^ 32 - (s.dev.reg (rCqRTail r)).toNat) % 2 ^ 32 < 2 ^ 31)) = true
    · rw [if_pos hbad] at hexec
      simp only [Bool.and_eq_true, decide_eq_true_eq] at hbad
      refine ⟨_, hexec, fun _ _ => ?_, fun hgood => by omega⟩
      rw [pageOf_cqRHead]
      exact Dev.blkErr_discarded _ _
    · rw [if_neg hbad, Dev.flushHeld_none (by exact hnone)] at hexec
      simp only [Bool.and_eq_true, decide_eq_true_eq, not_and, not_lt] at hbad
      refine ⟨_, hexec, fun hlo hhi => by omega, fun _ => ⟨Dev.reg_setReg_self _ _ _, Dev.regsBut_setReg _ _ _, Dev.setReg_frame _ _ _⟩⟩

end Sys2Proof.Machine
end

section
/-! # O27: serving registers -/

namespace Sys2Proof.Machine

/-! ## Serving registers (O27) -/

/-- The rows of the admission parameters, from SRV_ADM_DEC_CAP to SRV_ADM_POOL, one word apart. -/
def admRow (i : Fin 8) : RegRow :=
  { off := 0x104 + 4 * i, stride := 0x80, count := 6, size := 4
    rw := [0xffffffff, 0xffffffff, 0xffffffff, 0xffff, 0xffffffff, 0xffffffff, 0x3fff, 0x7ffffff].getD i 0
    w1c := 0x0, w1s := 0x0, wo := 0x0
    rst := [0x0, 0x0, 0x0, 0x0, 0x40404040, 0x40404040, 0x2040, 0x0].getD i 0 }

theorem find_admRow (p : Fin 6) (i : Fin 8) :
    rows_srv0.find? (fun r => r.covers (0x104 + 0x80 * p.val + 4 * i.val)) = some (admRow i) := by
  revert p i
  decide

theorem find_lateMax (p : Fin 6) :
    rows_srv0.find? (fun r => r.covers (0x154 + 0x80 * p.val)) = some ⟨0x154, 0x80, 6, 4, 0x0, 0x0, 0x0, 0x80000000, 0x0⟩ := by
  revert p
  decide

theorem find_pfxCtrl (p : Fin 6) :
    rows_srv8.find? (fun r => r.covers (0x124 + 0x80 * p.val)) = some ⟨0x124, 0x80, 6, 4, 0xff, 0x0, 0x0, 0x100, 0x0⟩ := by
  revert p
  decide

theorem regAt_adm (p : PartId) (i : Fin 8) :
    RegAt (0xC00000 + (0x104 + 0x80 * p.val + 4 * i.val)) 6 0 0 (0x104 + 0x80 * p.val + 4 * i.val) (admRow i) := by
  have hp := p.isLt
  have hi := i.isLt
  refine RegAt.of_page (page := 0xC00000) (rows := rows_srv0) rfl rfl (by omega) (find_admRow p i) ?_ (.inl ⟨rfl, by omega⟩)
  simp only [admRow, show ¬ (6 ≤ 1) by decide, if_false]
  omega

theorem regAt_lateMax (p : PartId) :
    RegAt (0xC00000 + (0x154 + 0x80 * p.val)) 6 0 0 (0x154 + 0x80 * p.val) ⟨0x154, 0x80, 6, 4, 0x0, 0x0, 0x0, 0x80000000, 0x0⟩ := by
  have hp := p.isLt
  refine RegAt.of_page (page := 0xC00000) (rows := rows_srv0) rfl rfl (by omega) (find_lateMax p) ?_ (.inl ⟨rfl, by omega⟩)
  simp only [show ¬ (6 ≤ 1) by decide, if_false]
  omega

theorem regAt_pfxCtrl (p : PartId) :
    RegAt (0xC08000 + (0x124 + 0x80 * p.val)) 6 0 8 (0x124 + 0x80 * p.val) ⟨0x124, 0x80, 6, 4, 0xff, 0x0, 0x0, 0x100, 0x0⟩ := by
  have hp := p.isLt
  refine RegAt.of_page (page := 0xC08000) (rows := rows_srv8) rfl rfl (by omega) (find_pfxCtrl p) ?_ (.inl ⟨rfl, by omega⟩)
  simp only [show ¬ (6 ≤ 1) by decide, if_false]
  omega

theorem regAt_rtSel : RegAt rSrvRtSel 6 0 0 0x48 ⟨0x48, 0x0, 1, 4, 0x3fff, 0x0, 0x0, 0x0, 0x0⟩ :=
  RegAt.of_page (page := 0xC00000) (rows := rows_srv0) rfl rfl (by decide) (by decide) rfl (by decide)

theorem regAt_deltaSel : RegAt rSrvDeltaSel 6 0 9 0x40 ⟨0x40, 0x0, 1, 4, 0xfff, 0x0, 0x0, 0x0, 0x0⟩ :=
  RegAt.of_page (page := 0xC09000) (rows := rows_srv9) rfl rfl (by decide) (by decide) rfl (by decide)

/-- A serving register that its writer reaches. -/
theorem srv_write32 {s : State} {a k j o f : Nat} {r : RegRow} {v : W32} (hr : RegAt a 6 k j o r) (hs : r.size = 4)
    (ha : 0xC00000 ≤ a ∧ a < 0xD00000) (h : s.dev.regOpen f a) (hv : f ≠ 0 → (s.dev.vfView f 6 k j o).2 = true) :
    s.reg32 f a v = s.onDev fun d => d.writeSrv f j a o r (v.zeroExtend 64) := by
  have hview : (s.dev.view f a).2 = true := by
    by_cases hf : f = 0
    · rw [hf, hr.view_pf (by decide)]
    · rw [hr.view_vf (by decide) _ hf, hv hf]
  rw [hr.write32 hs (by simp only [rPwrCtrl]; omega) (by simp only [rMgmtRcvCtrl]; omega) h hview]
  simp [hr.apply]

/-! ### Admission parameters (Table 8-10) -/

/-- An admission parameter as the PF writes it. -/
theorem Dev.writeSrv_adm (d : Dev) (p : PartId) (i : Fin 8) (v : W64) :
    d.writeSrv 0 0 (0xC00000 + (0x104 + 0x80 * p.val + 4 * i.val)) (0x104 + 0x80 * p.val + 4 * i.val) (admRow i) v
      = if (d.liveCount p != 0 || ((i.val == 4 || i.val == 5) && sharesBad v)) = true then d.blkErr (pgSrv 0)
        else
          let e := d.plainWrite (0xC00000 + (0x104 + 0x80 * p.val + 4 * i.val)) (admRow i) v
          if i.val = 7 then e.putF (rSrvPoolFree p) fSrvPoolFree_Free (fld v fSrvAdmPool_Pool) else e := by
  have hp := p.isLt
  have hi := i.isLt
  have hpart : (0x104 + 0x80 * p.val + 4 * i.val - 0x100) / 0x80 = p.val := by omega
  have hg : (0x104 + 0x80 * p.val + 4 * i.val - 0x100) % 0x80 = 4 + 4 * i.val := by omega
  have hpage : pageOf (0xC00000 + (0x104 + 0x80 * p.val + 4 * i.val)) = pgSrv 0 := pageOf_add (page := 0xC00000) rfl (by omega)
  have h14 : (4 + 4 * i.val == 0x14) = (i.val == 4) := by
    refine Bool.eq_iff_iff.mpr ?_
    simp only [beq_iff_eq]
    omega
  have h18 : (4 + 4 * i.val == 0x18) = (i.val == 5) := by
    refine Bool.eq_iff_iff.mpr ?_
    simp only [beq_iff_eq]
    omega
  have h20 : (4 + 4 * i.val = 0x20) = (i.val = 7) := propext ⟨fun h => by omega, fun h => by omega⟩
  unfold Dev.writeSrv
  rw [if_pos rfl, if_neg (by omega), if_neg (by omega), if_neg (by omega), hpart, hg]
  unfold Dev.writeAdm
  rw [if_neg (by omega), if_neg (by omega), if_neg (by omega), Dev.discardIf, hpage, h14, h18]
  simp only [h20]

theorem sharesBad_iff (v : W64) : sharesBad v = true ↔ ∃ j : Nat, j < 4 ∧ 64 < bitsOf v (8 * j) 8 := by
  simp [sharesBad]

/-- A plain register of RW bits takes each of them. -/
theorem Dev.plainWrite_bit {d : Dev} {a i : Nat} {r : RegRow} {v : W32} (hc : r.w1c = 0) (hs : r.w1s = 0) (hi : i < 32)
    (hrw : r.rw.testBit i = true) : ((d.plainWrite a r (v.zeroExtend 64)).reg a).getLsbD i = v.getLsbD i := by
  rw [Dev.plainWrite, Dev.reg_setReg_self, r.merge_bit _ _ (by omega), hrw, hc, hs]
  have hv : (v.zeroExtend 64).getLsbD i = v.getLsbD i := by
    simp only [BitVec.zeroExtend, BitVec.getLsbD_setWidth]
    simp [show i < 64 by omega]
  simp [hv]

/-- A register cleared, or left. -/
theorem Dev.zero_if (d : Dev) (a : Nat) (p : Prop) [Decidable p] :
    (if p then d.setReg a 0 else d).reg a = (if p then 0 else d.reg a)
      ∧ d.regsBut (if p then d.setReg a 0 else d) [a] ∧ d.onlyIn (if p then d.setReg a 0 else d) [.regs] := by
  by_cases h : p
  · simp only [if_pos h]
    exact ⟨d.reg_setReg_self _ _, d.regsBut_setReg _ _, d.setReg_frame _ _⟩
  · rw [if_neg h, if_neg h]
    exact ⟨rfl, d.regsBut_refl _, d.onlyIn_refl _⟩

theorem srvAdm_write {s : State} {p : PartId} {v : W32} (i : Fin 8)
    (h : s.dev.regOpen 0 (0xC00000 + (0x104 + 0x80 * p.val + 4 * i.val))) :
    s.reg32 0 (0xC00000 + (0x104 + 0x80 * p.val + 4 * i.val)) v = s.onDev fun d =>
      if (d.liveCount p != 0 || ((i.val == 4 || i.val == 5) && sharesBad (v.zeroExtend 64))) = true then d.blkErr (pgSrv 0)
      else
        let e := d.plainWrite (0xC00000 + (0x104 + 0x80 * p.val + 4 * i.val)) (admRow i) (v.zeroExtend 64)
        if i.val = 7 then e.putF (rSrvPoolFree p) fSrvPoolFree_Free (fld (v.zeroExtend 64) fSrvAdmPool_Pool) else e := by
  have hp := p.isLt
  have hi := i.isLt
  rw [srv_write32 (regAt_adm p i) rfl (by omega) h (fun h0 => absurd rfl h0)]
  simp only [Dev.writeSrv_adm]

/-- The admission parameters without POOL are the first seven. -/
theorem admParam_eq {p : PartId} {a : Nat} (ha : a ∈ [rSrvAdmDecCap p, rSrvAdmPfSlice p, rSrvAdmBeat p, rSrvAdmSetup p, rSrvAdmShareLo p,
      rSrvAdmShareHi p, rSrvAdmFloor p]) :
    ∃ i : Fin 8, a = 0xC00000 + (0x104 + 0x80 * p.val + 4 * i.val) ∧ i.val ≠ 7
      ∧ ((a = rSrvAdmShareLo p ∨ a = rSrvAdmShareHi p) ↔ i.val = 4 ∨ i.val = 5) := by
  simp only [List.mem_cons, List.not_mem_nil, or_false] at ha
  simp only [rSrvAdmDecCap, rSrvAdmPfSlice, rSrvAdmBeat, rSrvAdmSetup, rSrvAdmShareLo, rSrvAdmShareHi, rSrvAdmFloor] at ha ⊢
  have key : ∃ i : Nat, i < 7 ∧ a = 0xC00100 + 0x80 * p.val + 4 * (i + 1) := by
    rcases ha with rfl | rfl | rfl | rfl | rfl | rfl | rfl
    · exact ⟨0, by omega, by omega⟩
    · exact ⟨1, by omega, by omega⟩
    · exact ⟨3, by omega, by omega⟩
    · exact ⟨2, by omega, by omega⟩
    · exact ⟨4, by omega, by omega⟩
    · exact ⟨5, by omega, by omega⟩
    · exact ⟨6, by omega, by omega⟩
  obtain ⟨i, hi, rfl⟩ := key
  refine ⟨⟨i, by omega⟩, ?_, ?_, ?_⟩
  · show 0xC00100 + 0x80 * p.val + 4 * (i + 1) = 0xC00000 + (0x104 + 0x80 * p.val + 4 * i)
    omega
  · show i ≠ 7
    omega
  · show _ ↔ i = 4 ∨ i = 5
    omega

/-! ### FLUSH (9 R255) -/

/-- The keys of the tree of prompts's nodes. -/
def Dev.nodeKeys (d : Dev) : Finset Nat := (d.srv.nodes.map (·.1)).toFinset

/-- What evicting nodes leaves: no node joins, the entries stay, and of the registers only counts of evictions change. -/
structure Dev.evicts (d e : Dev) : Prop where
  keys : e.nodeKeys ⊆ d.nodeKeys
  entries : e.srv.entries = d.srv.entries
  regs : ∀ a : Nat, (∀ q : Nat, a ≠ rSrvPfxEvict q) → e.reg a = d.reg a
  frame : d.onlyIn e [.srv, .regs]

theorem Dev.evicts_refl (d : Dev) : d.evicts d := ⟨Finset.Subset.refl _, rfl, fun _ _ => rfl, d.onlyIn_refl _⟩

theorem Dev.evicts_trans {d e f : Dev} (h : d.evicts e) (k : e.evicts f) : d.evicts f :=
  ⟨k.keys.trans h.keys, k.entries.trans h.entries, fun a ha => (k.regs a ha).trans (h.regs a ha), Dev.onlyIn_trans h.frame k.frame⟩

theorem Dev.onSrv_frame (d : Dev) (f : Srv → Srv) : d.onlyIn (d.onSrv f) [.srv] := by
  intro c hc
  cases c <;> first | rfl | simp at hc

/-- A change of the nodes that adds no key. -/
theorem Dev.onSrv_evicts {d : Dev} {f : Srv → Srv} (hk : ((f d.srv).nodes.map (·.1)).toFinset ⊆ d.nodeKeys)
    (he : (f d.srv).entries = d.srv.entries) : d.evicts (d.onSrv f) :=
  ⟨hk, he, fun _ _ => rfl, Dev.onlyIn_sub _ (d.onSrv_frame f) rfl⟩

theorem Dev.addF_evicts (d : Dev) (q : Nat) : d.evicts (d.addF (rSrvPfxEvict q) fSrvPfxEvict_Evict 1) :=
  ⟨Finset.Subset.refl _, rfl, fun _ ha => d.reg_putF_ne _ _ (ha q), Dev.onlyIn_sub _ (d.putF_frame _ _ _) rfl⟩

theorem keys_tdel {α : Type} (t : Tab α) (k : Nat) : ((tdel t k).map (·.1)).toFinset = ((t.map (·.1)).toFinset).erase k := by
  ext x
  simp only [tdel, List.mem_toFinset, List.mem_map, List.mem_filter, Finset.mem_erase, bne_iff_ne]
  constructor
  · rintro ⟨e, ⟨he, hne⟩, rfl⟩
    exact ⟨hne, e, he, rfl⟩
  · rintro ⟨hne, e, he, rfl⟩
    exact ⟨e, ⟨he, hne⟩, rfl⟩

theorem keys_tset {α : Type} (t : Tab α) (k : Nat) (v : α) : ((tset t k v).map (·.1)).toFinset = insert k ((t.map (·.1)).toFinset) := by
  induction t with
  | nil => simp [tset]
  | cons e t ih =>
    obtain ⟨k', v'⟩ := e
    simp only [tset]
    split
    · simp
    · split
      next heq => simp [heq]
      next => simp only [List.map_cons, List.toFinset_cons, ih, Finset.insert_comm]

theorem mem_keys_of_tfind {α : Type} {t : Tab α} {k : Nat} {v : α} (h : tfind t k = some v) : k ∈ (t.map (·.1)).toFinset := by
  unfold tfind at h
  split at h
  next e he =>
    have hk : e.1 = k := by simpa using List.find?_some he
    simp only [List.mem_toFinset, List.mem_map]
    exact ⟨e, List.mem_of_find?_eq_some he, hk⟩
  next => exact absurd h nofun

/-- Taking node `n` out of the tree, without what becomes of its parent. -/
def Dev.takeNode (d : Dev) (n : Nat) (x : Node) : Dev := (d.onSrv (fun s => { s with nodes := tdel s.nodes n })).freePages x.part x.pages

theorem Dev.takeNode_keys (d : Dev) (n : Nat) (x : Node) : (d.takeNode n x).nodeKeys = d.nodeKeys.erase n := keys_tdel _ _

theorem Dev.takeNode_evicts (d : Dev) (n : Nat) (x : Node) : d.evicts (d.takeNode n x) := by
  refine ⟨?_, rfl, fun _ _ => rfl, Dev.onlyIn_sub _ (Dev.onlyIn_trans (d.onSrv_frame _) (Dev.onSrv_frame _ _)) rfl⟩
  rw [Dev.takeNode_keys]
  exact Finset.erase_subset _ _

/-- One reference fewer on a node that is there adds no key. -/
theorem Dev.unref_evicts {d : Dev} {m : Nat} {y : Node} (h : tfind d.srv.nodes m = some y) :
    d.evicts (d.onSrv (fun s => { s with nodes := tset s.nodes m y.unref })) := by
  refine Dev.onSrv_evicts ?_ rfl
  rw [keys_tset]
  exact Finset.insert_subset (mem_keys_of_tfind h) (Finset.Subset.refl _)

theorem Dev.dropNode_succ {d : Dev} {n k : Nat} {x : Node} (h : tfind d.srv.nodes n = some x) :
    (d.takeNode n x).evicts (Dev.dropNode (k + 1) d n) := by
  induction k generalizing d n x with
  | zero =>
    rw [Dev.dropNode, h]
    dsimp only
    cases x.parent with
    | none => exact Dev.evicts_refl _
    | some m =>
      dsimp only
      cases hm : tfind ((d.onSrv (fun s => { s with nodes := tdel s.nodes n })).freePages x.part x.pages).srv.nodes m with
      | none => exact Dev.evicts_refl _
      | some y =>
        have hun : (d.takeNode n x).evicts _ := Dev.unref_evicts hm
        dsimp only
        split
        · exact Dev.evicts_trans hun (Dev.addF_evicts _ _)
        · exact hun
  | succ k ih =>
    rw [Dev.dropNode, h]
    dsimp only
    cases x.parent with
    | none => exact Dev.evicts_refl _
    | some m =>
      dsimp only
      cases hm : tfind ((d.onSrv (fun s => { s with nodes := tdel s.nodes n })).freePages x.part x.pages).srv.nodes m with
      | none => exact Dev.evicts_refl _
      | some y =>
        have hun : (d.takeNode n x).evicts _ := Dev.unref_evicts hm
        dsimp only
        split
        · refine Dev.evicts_trans (Dev.evicts_trans hun (Dev.addF_evicts _ y.part)) (Dev.evicts_trans (Dev.takeNode_evicts _ m y.unref) (ih ?_))
          exact tfind_tset_self _ _ _
        · exact hun

/-- A node that is evicted leaves, and none comes. -/
theorem Dev.evictNode_evicts {d : Dev} {n : Nat} {x : Node} (h : tfind d.srv.nodes n = some x) :
    d.evicts (d.evictNode n) ∧ (d.evictNode n).nodeKeys ⊆ d.nodeKeys.erase n := by
  have hadd := d.addF_evicts x.part
  have hdrop := Dev.dropNode_succ (d := d.addF (rSrvPfxEvict x.part) fSrvPfxEvict_Evict 1) (k := d.srv.nodes.length) h
  have hrun : d.evictNode n = Dev.dropNode (d.srv.nodes.length + 1) (d.addF (rSrvPfxEvict x.part) fSrvPfxEvict_Evict 1) n := by
    rw [Dev.evictNode, h]
  rw [hrun]
  refine ⟨Dev.evicts_trans (Dev.evicts_trans hadd (Dev.takeNode_evicts _ n x)) hdrop, ?_⟩
  have hkeys := hdrop.keys
  rw [Dev.takeNode_keys] at hkeys
  exact hkeys

theorem leastBy_mem {α : Type} {key : α → Nat} {l : List α} {x : α} (h : leastBy key l = some x) : x ∈ l := by
  induction l generalizing x with
  | nil => exact absurd h nofun
  | cons y l ih =>
    simp only [leastBy] at h
    split at h
    · simp_all
    · next z hz =>
      split at h
      · exact List.mem_cons_of_mem _ (ih (hz.trans h))
      · simp_all

/-- A node that can be evicted is there. -/
theorem Dev.evictable_found {d : Dev} {p n : Nat} (h : d.evictable p = some n) : ∃ x, tfind d.srv.nodes n = some x := by
  obtain ⟨e, he, rfl⟩ := Option.map_eq_some_iff.mp h
  have hmem := (List.mem_filter.mp (leastBy_mem he)).1
  unfold tfind
  cases hf : d.srv.nodes.find? (fun e' => e'.1 == e.1) with
  | none =>
    have := List.find?_eq_none.mp hf e hmem
    simp at this
  | some y => exact ⟨y.2, rfl⟩

/-- As many steps as there are nodes leave none that can be evicted. -/
theorem Dev.flushTree_flushes (p k : Nat) (d : Dev) : d.evicts (Dev.flushTree k d p) ∧ (d.nodeKeys.card < k → (Dev.flushTree k d p).evictable p = none) := by
  induction k generalizing d with
  | zero => exact ⟨d.evicts_refl, fun h => absurd h (Nat.not_lt_zero _)⟩
  | succ k ih =>
    rw [Dev.flushTree]
    cases hn : d.evictable p with
    | none => exact ⟨d.evicts_refl, fun _ => hn⟩
    | some n =>
      obtain ⟨x, hx⟩ := Dev.evictable_found hn
      obtain ⟨hev, hkeys⟩ := Dev.evictNode_evicts hx
      obtain ⟨hrest, hnone⟩ := ih (d.evictNode n)
      refine ⟨Dev.evicts_trans hev hrest, fun hcard => hnone ?_⟩
      have hlt : (d.nodeKeys.erase n).card < d.nodeKeys.card := Finset.card_erase_lt_of_mem (mem_keys_of_tfind hx)
      have hle := Finset.card_le_card hkeys
      omega

theorem Dev.flush_flushes (d : Dev) (p : Nat) : d.evicts (d.flush p) ∧ (d.flush p).evictable p = none := by
  obtain ⟨hev, hnone⟩ := Dev.flushTree_flushes p (d.srv.nodes.length + 1) d
  refine ⟨hev, hnone ?_⟩
  have hle : d.nodeKeys.card ≤ (d.srv.nodes.map (·.1)).length := List.toFinset_card_le _
  rw [List.length_map] at hle
  omega

theorem pfxCtrl_write {s : State} {p : PartId} {v : W32} (h : s.dev.regOpen 0 (rSrvPfxCtrl p)) :
    exec (.flush 0 p v) s = .next (s.onDev fun d => d.writePfxCtrl p (rSrvPfxCtrl p) (v.zeroExtend 64)) := by
  have hp := p.isLt
  have ha : rSrvPfxCtrl p = 0xC08000 + (0x124 + 0x80 * p.val) := by
    simp only [rSrvPfxCtrl]
    omega
  have hpart : (0x124 + 0x80 * p.val - 0x100) / 0x80 = p.val := by omega
  have hg : (0x124 + 0x80 * p.val - 0x100) % 0x80 = 0x24 := by omega
  refine congrArg Host.Outcome.next ?_
  rw [ha] at h ⊢
  show s.reg32 0 _ v = _
  rw [srv_write32 (regAt_pfxCtrl p) rfl (by omega) h (fun h0 => absurd rfl h0)]
  simp only [Dev.writeSrv, Dev.writeKvReg, hpart, hg, if_true, show ¬ ((8 : Nat) = 0) by decide, show ¬ ((8 : Nat) ≤ 6) by decide,
    show ¬ ((8 : Nat) = 7) by decide, if_false]

/-- FLUSH, with what is written beside it (Table 9-11). -/
theorem Dev.writePfxCtrl_flushes (d : Dev) (p : PartId) {v : W32} (hv : fld v fSrvPfxCtrl_Flush = 1) :
    let a := rSrvPfxCtrl p
    let e := d.writePfxCtrl p a (v.zeroExtend 64)
    e.evictable p = none ∧ (d.liveCount p = 0 → e.reg a = v.zeroExtend 64 &&& 0xFF)
      ∧ (d.liveCount p ≠ 0 → e.reg a = d.reg a ∧ d.counted e (rBlkErrCnt (pageOf a)) fBlkErrCnt_Cnt 1)
      ∧ e.srv.entries = d.srv.entries ∧ d.onlyIn e [.srv, .regs] := by
  dsimp only
  have hp := p.isLt
  have hflush : fld (v.zeroExtend 64) fSrvPfxCtrl_Flush = 1 := (fld_zeroExtend v _).trans hv
  have hctrl : ∀ q : Nat, rSrvPfxCtrl p ≠ rSrvPfxEvict q := by
    intro q
    simp only [rSrvPfxCtrl, rSrvPfxEvict]
    omega
  have hpage : pageOf (rSrvPfxCtrl p) = 0xC08000 := by
    simp only [pageOf, rSrvPfxCtrl]
    omega
  have herr : (∀ q : Nat, rBlkErrCnt (pageOf (rSrvPfxCtrl p)) ≠ rSrvPfxEvict q)
      ∧ rSrvPfxCtrl p ≠ rBlkErrCnt (pageOf (rSrvPfxCtrl p)) := by
    rw [hpage]
    simp only [rBlkErrCnt, rSrvPfxEvict, rSrvPfxCtrl]
    constructor
    · intro q
      omega
    · omega
  simp only [Dev.writePfxCtrl, if_pos hflush, Dev.discardIf]
  by_cases hlive : d.liveCount p = 0
  · simp only [hlive, bne_self_eq_false, Bool.false_eq_true, if_false]
    obtain ⟨hev, hnone⟩ := (d.setReg (rSrvPfxCtrl p) (v.zeroExtend 64 &&& 0xFF)).flush_flushes p
    refine ⟨hnone, fun _ => ?_, fun h => absurd rfl h, hev.entries, (Dev.onlyIn_sub _ (d.setReg_frame _ _) rfl).after hev.frame⟩
    rw [hev.regs _ hctrl, Dev.reg_setReg_self]
  · simp only [show (d.liveCount p != 0) = true by simpa using hlive, if_true]
    obtain ⟨hev, hnone⟩ := (d.blkErr (pageOf (rSrvPfxCtrl p))).flush_flushes p
    refine ⟨hnone, fun h => absurd h hlive, fun _ => ⟨?_, ?_⟩, hev.entries, (Dev.onlyIn_sub _ (d.blkErr_frame _) rfl).after hev.frame⟩
    · rw [hev.regs _ hctrl]
      exact d.reg_putF_ne _ _ herr.2
    · rw [Dev.counted, Dev.getF, hev.regs _ herr.1]
      exact d.getF_addF_one _ _ (by decide)

/-! ### Selects (16 R448) -/

/-- With no upset waiting, reading a version's metadata changes nothing. -/
theorem Dev.readVersionMeta_clean {d : Dev} (h : d.upsets = []) (v : Nat) : d.readVersionMeta v = d := by
  have hw : d.readWord .deltaMeta v 0 = (d, false) := by
    simp [Dev.readWord, Dev.findUpset, h]
  simp [Dev.readVersionMeta, hw]

theorem bitsOf_zero {n : Nat} (lo len : Nat) : bitsOf (0 : BitVec n) lo len = 0 := by
  have h0 : (0 : BitVec n).toNat = 0 := BitVec.toNat_ofNat 0 n ▸ Nat.zero_mod _
  rw [bitsOf, h0, Nat.zero_shiftRight, Nat.zero_mod]

/-- Settles O27, register by register. -/
theorem servingRegistersTakeWrites : Obligations.ServingRegistersTakeWrites := by
  unfold Obligations.ServingRegistersTakeWrites
  refine ⟨fun s p v a ha h => ?param, fun s p v h => ?pool, fun s p v h => ?late, fun s p v h hv => ?flush, fun s f v h => ?entry,
    fun s f v h hup => ?version⟩
  case param =>
    obtain ⟨i, rfl, hi, hshare⟩ := admParam_eq ha
    have hexec : exec (.srvAdmParamWrite 0 _ v) s = .next _ := congrArg Host.Outcome.next (srvAdm_write (p := p) (v := v) i h)
    simp only [State.onDev, if_neg hi] at hexec
    dsimp only
    rw [hshare, ← sharesBad_iff]
    have hbad : (s.dev.liveCount p ≠ 0 ∨ ((i.val = 4 ∨ i.val = 5) ∧ sharesBad (v.zeroExtend 64) = true))
        ↔ (s.dev.liveCount p != 0 || ((i.val == 4 || i.val == 5) && sharesBad (v.zeroExtend 64))) = true := by
      simp only [Bool.or_eq_true, Bool.and_eq_true, bne_iff_ne, beq_iff_eq]
    rw [hbad]
    by_cases hb : (s.dev.liveCount p != 0 || ((i.val == 4 || i.val == 5) && sharesBad (v.zeroExtend 64))) = true
    · rw [if_pos hb] at hexec
      exact ⟨_, hexec, fun _ => Dev.blkErr_discarded _ _, fun h => absurd hb h⟩
    · rw [if_neg hb] at hexec
      refine ⟨_, hexec, fun h => absurd h hb, fun _ => ⟨Dev.plainWrite_regsBut _ _ _ _, Dev.plainWrite_frame _ _ _ _, fun r b j hr hj hrw => ?_⟩⟩
      have hrow : r = admRow i := by
        have := hr.symm.trans (regAt_adm p i).row
        simp only [Option.some.injEq, Prod.mk.injEq] at this
        exact this.1
      rw [hrow] at hrw
      exact Dev.plainWrite_bit rfl rfl hj hrw
  case pool =>
    have hpool : rSrvAdmPool p = 0xC00000 + (0x104 + 0x80 * p.val + 4 * (7 : Fin 8).val) := by
      simp only [rSrvAdmPool]
      omega
    have hne : rSrvAdmPool p ≠ rSrvPoolFree p := by
      simp only [rSrvAdmPool, rSrvPoolFree]
      omega
    have hexec : exec (.srvAdmPool 0 p v) s = .next _ :=
      congrArg Host.Outcome.next ((congrArg (fun a => s.reg32 0 a v) hpool).trans (srvAdm_write (p := p) (v := v) 7 (by rw [← hpool]; exact h)))
    rw [← hpool] at hexec
    have hnot : ((7 : Nat) == 4 || (7 : Nat) == 5) = false := rfl
    simp only [State.onDev, show (7 : Fin 8).val = 7 by decide, if_true, fld_zeroExtend, hnot, Bool.false_and, Bool.or_false,
      bne_iff_ne] at hexec
    by_cases hlive : s.dev.liveCount p = 0
    · rw [if_neg (fun h => h hlive)] at hexec
      refine ⟨_, hexec, fun h => absurd hlive h, fun _ => ⟨?_, Dev.putF_field (by decide) (fld_lt _ _), ?_, ?_⟩⟩
      · rw [Dev.getF_putF_ne _ _ _ _ hne, Dev.getF_plainWrite rfl rfl (by decide), fld_zeroExtend]
      · exact (Dev.regsBut_mono (Dev.plainWrite_regsBut _ _ _ _) (by simp)).after (Dev.regsBut_putF _ _ _ _) (by simp)
      · exact Dev.onlyIn_trans (Dev.plainWrite_frame _ _ _ _) (Dev.putF_frame _ _ _ _)
    · rw [if_pos hlive] at hexec
      exact ⟨_, hexec, fun _ => Dev.blkErr_discarded _ _, fun h => absurd h hlive⟩
  case late =>
    have hp := p.isLt
    have hlate : rSrvLateMax p = 0xC00000 + (0x154 + 0x80 * p.val) := by
      simp only [rSrvLateMax]
      omega
    have hg : (0x154 + 0x80 * p.val - 0x100) % 0x80 = 0x54 := by omega
    have hexec : exec (.srvLateMaxClr 0 p v) s = .next (s.onDev fun d => if fld v fSrvLateMax_Clr = 1 then d.setReg (rSrvLateMax p) 0 else d) := by
      refine congrArg Host.Outcome.next ?_
      rw [hlate] at h ⊢
      show s.reg32 0 _ v = _
      rw [srv_write32 (regAt_lateMax p) rfl (by omega) h (fun h0 => absurd rfl h0)]
      simp only [Dev.writeSrv, if_true, Dev.writeAdm, hg, if_neg (show ¬ (0x154 + 0x80 * p.val = 0x48) by omega),
        if_neg (show ¬ (0x154 + 0x80 * p.val < 0x100) by omega), if_neg (show ¬ (0xE00 ≤ 0x154 + 0x80 * p.val) by omega),
        show ¬ ((0x54 : Nat) = 0) by decide, if_false, fld_zeroExtend]
    exact ⟨_, hexec, s.dev.zero_if _ _⟩
  case flush => exact ⟨_, pfxCtrl_write h, s.dev.writePfxCtrl_flushes p hv⟩
  case entry =>
    have hexec : exec (.srvRtSel f v) s = .next (s.onDev fun d => d.writeRtSel f (v.zeroExtend 64)) := by
      refine congrArg Host.Outcome.next ?_
      rw [srv_write32 regAt_rtSel rfl (by decide) h (fun _ => rfl)]
      simp only [Dev.writeSrv, if_true]
    refine ⟨_, hexec, ?_, Dev.onSrv_frame _ _⟩
    simp only [Dev.writeRtSel, fld_zeroExtend, Dev.onSrv_srv]
    congr 2
    refine congrArg _ (List.map_congr_left fun j _ => ?_)
    split
    · rfl
    · rw [bitsOf_zero]
      rfl
  case version =>
    have hexec : exec (.srvDeltaSel f v) s = .next (s.onDev fun d => d.writeDeltaSel f (v.zeroExtend 64)) := by
      refine congrArg Host.Outcome.next ?_
      rw [srv_write32 regAt_deltaSel rfl (by decide) h (fun _ => rfl)]
      simp only [Dev.writeSrv, show ¬ ((9 : Nat) = 0) by decide, show ¬ ((9 : Nat) ≤ 6) by decide, show ¬ ((9 : Nat) = 7) by decide,
        show ¬ ((9 : Nat) = 8) by decide, if_false, if_true]
    simp only [State.onDev, Dev.writeDeltaSel, fld_zeroExtend, Dev.readVersionMeta_clean hup] at hexec
    refine ⟨_, _, hexec, rfl, Dev.onSrv_frame _ _, fun hsees => ?_, fun hsees => ?_, fun g hg => ?_⟩
    · have hs : (f : Nat) = 0 ∨ _ := hsees.imp (fun h0 => congrArg Fin.val h0) id
      rw [tget_tset_self, if_pos hs]
    · have hs : ¬ ((f : Nat) = 0 ∨ _) := fun h => hsees (h.imp (fun h0 => Fin.ext h0) id)
      rw [tget_tset_self, if_neg hs]
    · exact tget_tset_ne _ _ _ hg

end Sys2Proof.Machine
end

section
/-! # O34: layouts and slices -/

namespace Sys2Proof.Machine

/-! ## Layouts and slices (O34) -/

theorem pageInfo_sectPart (k : SectId) : pageInfo (0x101000 + 0x20000 * k.val) = some (3, k.val, 1, rows_sectPart) := by
  have hk := k.isLt
  have hdiv : (0x101000 + 0x20000 * k.val - 0x100000) / 0x20000 = k.val := by omega
  have hmod : (0x101000 + 0x20000 * k.val - 0x100000) % 0x20000 = 0x1000 := by omega
  unfold pageInfo
  rw [if_neg (by omega), if_neg (by omega), if_neg (by omega), if_neg (by omega), if_neg (by omega), if_pos (by omega), hdiv, hmod]
  rfl

theorem regAt_partLayout : RegAt rSectPartLayout 3 0 1 0x40 ⟨0x40, 0x0, 1, 4, 0x3ffff, 0x0, 0x0, 0x0, 0x3ffff⟩ :=
  RegAt.of_page (page := 0x101000) (rows := rows_sectPart) rfl rfl (by decide) rfl rfl (by decide)

theorem regAt_sliceCtrl (k : SectId) :
    RegAt (rSectSliceCtrl k) 3 k 1 0x20c ⟨0x20c, 0x0, 1, 4, 0xf1, 0x0, 0x0, 0x0, 0x0⟩ :=
  RegAt.of_page (pageInfo_sectPart k) (by omega) (by decide) rfl rfl (by decide)

/-- Which registers of a sector's partition page the PF reaches (R337). -/
theorem RegAt.view_sect {a k j o : Nat} {r : RegRow} (h : RegAt a 3 k j o r) (d : Dev) :
    d.view 0 a = (d.sectLive k j o, d.sectLive k j o) := by
  obtain ⟨rows, hi⟩ := h.info
  cases hl : d.sectLive k j o <;> simp [Dev.view, hi, h.offset, hl]

theorem partLayout_write {s : State} {v : W32} (h : s.dev.regOpen 0 rSectPartLayout) :
    exec (.sectPartLayout 0 v) s = .next (s.onDev fun d => d.writeLayout (v.toNat % 2 ^ 18)) := by
  have hlt := v.isLt
  have hv : (v.zeroExtend 64).toNat = v.toNat := by
    simp only [BitVec.zeroExtend, BitVec.toNat_setWidth]
    omega
  refine congrArg Host.Outcome.next ((regAt_partLayout.write32 rfl (by decide) (by decide) h ?_).trans ?_)
  · rw [regAt_partLayout.view_sect]
    rfl
  · simp [regAt_partLayout.apply, Dev.writePartPage, hv]

/-- Why a layout word is discarded (R315). -/
def Dev.layoutBad (d : Dev) (w : Nat) : Prop :=
  (∃ k : Nat, k < 6 ∧ w / 8 ^ k % 8 = 6) ∨ (∃ p : Nat, p < 6 ∧ [0, 1, 2, 3, 6].contains (layoutSectors w p).length = false)
    ∨ (∃ p : Nat, p < 6 ∧ layoutSectors w p ≠ layoutSectors (d.reg rSectPartLayout).toNat p ∧ d.quiet p = false)
    ∨ (∃ k : Nat, k < 6 ∧ w / 8 ^ k % 8 ≠ 7 ∧ w / 8 ^ k % 8 ≠ (d.reg rSectPartLayout).toNat / 8 ^ k % 8 ∧ d.unitGone .sector k = true)

theorem layoutOk_iff (w : Nat) :
    layoutOk w = false ↔ (∃ k : Nat, k < 6 ∧ w / 8 ^ k % 8 = 6) ∨ ∃ p : Nat, p < 6 ∧ [0, 1, 2, 3, 6].contains (layoutSectors w p).length = false := by
  rw [layoutOk, Bool.and_eq_false_iff, List.all_eq_false, List.all_eq_false]
  refine or_congr ?_ ?_
  · simp only [List.mem_range, bne_iff_ne, ne_eq, not_not]
  · simp only [List.mem_range, Bool.not_eq_true]

theorem Dev.writeLayout_bad {d : Dev} {w : Nat} (h : d.layoutBad w) : d.writeLayout w = d.blkErr (pgPart 0) := by
  unfold Dev.writeLayout
  refine if_pos ?_
  simp only [Bool.or_eq_true, Bool.not_eq_true', layoutOk_iff, List.any_eq_true, List.mem_range, Bool.and_eq_true, bne_iff_ne, ne_eq, or_assoc]
  refine Or.imp id (Or.imp id (Or.imp (fun h => h) (fun ⟨k, hk, h7, hne, hg⟩ => ⟨k, hk, ⟨h7, hne⟩, hg⟩))) h

theorem Dev.writeLayout_good {d : Dev} {w : Nat} (h : ¬ d.layoutBad w) :
    d.writeLayout w = { (d.setReg rSectPartLayout (BitVec.ofNat 64 (w % 2 ^ 18))).putF rSectPartBusy fSectPartBusy_LayoutBusy 1 with
      layoutOn := d.layoutOn ++ (List.range 6).filter (fun k => w / 8 ^ k % 8 != (d.reg rSectPartLayout).toNat / 8 ^ k % 8) } := by
  unfold Dev.writeLayout
  refine if_neg fun hb => h ?_
  simp only [Bool.or_eq_true, Bool.not_eq_true', layoutOk_iff, List.any_eq_true, List.mem_range, Bool.and_eq_true, bne_iff_ne, ne_eq, or_assoc] at hb
  exact Or.imp id (Or.imp id (Or.imp (fun h => h) (fun ⟨k, hk, ⟨h7, hne⟩, hg⟩ => ⟨k, hk, h7, hne, hg⟩))) hb

/-! ### LAYOUT_DONE (R316) -/

/-- A sector that changes partition is cleared: its memories read zero, its library is gone, its pages are at their Reset column. -/
def Dev.clearSect (d : Dev) (k : Nat) : Dev :=
  (((d.zeroSram k).dropLib k).resetRegs (rSectDtabBase k 0) (rSectDtabBase k 0 + 0x400)).resetRegs (pgPart k + 0x200) (pgPart k + 0x500)

theorem Dev.layoutDone_eq {d : Dev} (h : d.getF rSectPartBusy fSectPartBusy_LayoutBusy ≠ 0) :
    d.layoutDone = ({ d.layoutOn.foldl Dev.clearSect d with layoutOn := [] }.putF rSectPartBusy fSectPartBusy_LayoutBusy 0).raise (pgPart 0)
      0x100 := by
  unfold Dev.layoutDone
  rw [if_neg h]
  rfl

theorem Dev.clearSect_frame (d : Dev) (k : Nat) : d.onlyIn (d.clearSect k) [.regs, .tram, .sram, .slots, .sect, .upsets] := by
  intro c hc
  cases c <;> first | rfl | simp at hc

theorem Dev.clearSect_tram (d : Dev) (k : Nat) : (d.clearSect k).tram = d.tram.clear (24 * k * 2 ^ 21) (24 * (k + 1) * 2 ^ 21) := rfl

theorem Dev.clearSect_sram (d : Dev) (k : Nat) : (d.clearSect k).sram = d.sram.clear (k * 2 ^ 24) ((k + 1) * 2 ^ 24) := rfl

theorem Dev.clearSect_sect (d : Dev) (k : Nat) : (d.clearSect k).sect = tmod d.sect {} k (fun s => { s with lib := none }) := rfl

/-- Clearing a range leaves a byte that reads zero so. -/
theorem Memory.clear_zero {m : Memory} {a : Nat} (h : m.byte a = 0) (lo hi : Nat) : (m.clear lo hi).byte a = 0 := by
  by_cases hin : lo ≤ a ∧ a < hi
  · exact m.byte_clear_in hin
  · rw [m.byte_clear_out (by omega), h]

theorem Dev.clearSect_self (d : Dev) (k : Nat) : (d.clearSect k).sramZero k ∧ (tget (d.clearSect k).sect {} k).lib = none := by
  refine ⟨⟨fun a hlo hhi => ?_, fun a hlo hhi => ?_⟩, ?_⟩
  · rw [Dev.clearSect_tram]
    exact Memory.byte_clear_in _ ⟨hlo, hhi⟩
  · rw [Dev.clearSect_sram]
    exact Memory.byte_clear_in _ ⟨hlo, hhi⟩
  · rw [Dev.clearSect_sect, tget_tmod_self]

theorem Dev.clearSect_keeps {d : Dev} {j : Nat} (h : d.sramZero j ∧ (tget d.sect {} j).lib = none) (k : Nat) :
    (d.clearSect k).sramZero j ∧ (tget (d.clearSect k).sect {} j).lib = none := by
  obtain ⟨⟨htram, hsram⟩, hlib⟩ := h
  refine ⟨⟨fun a hlo hhi => ?_, fun a hlo hhi => ?_⟩, ?_⟩
  · rw [Dev.clearSect_tram]
    exact Memory.clear_zero (htram a hlo hhi) _ _
  · rw [Dev.clearSect_sram]
    exact Memory.clear_zero (hsram a hlo hhi) _ _
  · rw [Dev.clearSect_sect]
    by_cases hjk : j = k
    · rw [hjk, tget_tmod_self]
    · rw [tget_tmod_ne _ _ _ hjk, hlib]

theorem Dev.clearSect_other (d : Dev) {j k : Nat} (h : j ≠ k) :
    tget (d.clearSect k).sect {} j = tget d.sect {} j
      ∧ ∀ a : Nat, 24 * j * 2 ^ 21 ≤ a → a < 24 * (j + 1) * 2 ^ 21 → (d.clearSect k).tram.byte a = d.tram.byte a := by
  refine ⟨by rw [Dev.clearSect_sect, tget_tmod_ne _ _ _ h], fun a hlo hhi => ?_⟩
  rw [Dev.clearSect_tram]
  refine Memory.byte_clear_out _ ?_
  omega

/-- Sectors cleared in turn. -/
theorem Dev.clearSects (ks : List Nat) (d : Dev) :
    d.onlyIn (ks.foldl Dev.clearSect d) [.regs, .tram, .sram, .slots, .sect, .upsets]
      ∧ (∀ j, j ∈ ks ∨ (d.sramZero j ∧ (tget d.sect {} j).lib = none) →
          (ks.foldl Dev.clearSect d).sramZero j ∧ (tget (ks.foldl Dev.clearSect d).sect {} j).lib = none)
      ∧ (∀ j, j ∉ ks → tget (ks.foldl Dev.clearSect d).sect {} j = tget d.sect {} j
          ∧ ∀ a : Nat, 24 * j * 2 ^ 21 ≤ a → a < 24 * (j + 1) * 2 ^ 21 → (ks.foldl Dev.clearSect d).tram.byte a = d.tram.byte a) := by
  induction ks generalizing d with
  | nil => exact ⟨d.onlyIn_refl _, fun j h => h.resolve_left List.not_mem_nil, fun j _ => ⟨rfl, fun _ _ _ => rfl⟩⟩
  | cons k ks ih =>
    obtain ⟨hframe, hzero, hother⟩ := ih (d.clearSect k)
    refine ⟨Dev.onlyIn_trans (d.clearSect_frame k) hframe, fun j hj => hzero j ?_, fun j hj => ?_⟩
    · rcases hj with hj | hj
      · rcases List.mem_cons.mp hj with rfl | hj
        · exact .inr (d.clearSect_self j)
        · exact .inl hj
      · exact .inr (Dev.clearSect_keeps hj k)
    · simp only [List.mem_cons, not_or] at hj
      obtain ⟨hsect, htram⟩ := hother j hj.2
      obtain ⟨hsect', htram'⟩ := d.clearSect_other hj.1
      exact ⟨hsect.trans hsect', fun a hlo hhi => (htram a hlo hhi).trans (htram' a hlo hhi)⟩

/-- What ends a layout change once its sectors are clear. -/
theorem Dev.layoutEnd (c : Dev) :
    let e := (({ c with layoutOn := [] } : Dev).putF rSectPartBusy fSectPartBusy_LayoutBusy 0).raise (pgPart 0) 0x100
    e.layoutOn = [] ∧ e.getF rSectPartBusy fSectPartBusy_LayoutBusy = 0 ∧ e.event (pgPart 0) 8 = true
      ∧ c.onlyIn e [.regs, .hif, .layoutOn] := by
  dsimp only
  generalize hb : ({ c with layoutOn := [] } : Dev).putF rSectPartBusy fSectPartBusy_LayoutBusy 0 = b
  have hraise := Dev.raise_frame b (pgPart 0) 0x100
  have hc : c.onlyIn b [.regs, .layoutOn] := by
    rw [← hb]
    intro x hx
    cases x <;> first | rfl | simp at hx
  refine ⟨?_, ?_, Dev.raise_event b (i := 8) (by decide) (by decide), (Dev.onlyIn_sub _ hc rfl).after hraise⟩
  · exact (hraise .layoutOn rfl).trans (by rw [← hb]; rfl)
  · rw [Dev.getF, Dev.raise_regsBut _ _ _ _ (by decide), ← hb]
    exact Dev.getF_putF_self _ _ _ _ (by decide)

theorem Dev.sramZero_congr {c e : Dev} (ht : e.tram = c.tram) (hs : e.sram = c.sram) {k : Nat} (h : c.sramZero k) : e.sramZero k := by
  unfold Dev.sramZero
  rw [ht, hs]
  exact h

theorem Dev.layoutDone_clears {d : Dev} (h : d.getF rSectPartBusy fSectPartBusy_LayoutBusy = 1) :
    let e := d.layoutDone
    e.layoutOn = [] ∧ e.getF rSectPartBusy fSectPartBusy_LayoutBusy = 0 ∧ e.event (pgPart 0) 8 = true
      ∧ (∀ k ∈ d.layoutOn, e.sramZero k ∧ (tget e.sect {} k).lib = none)
      ∧ (∀ k : Nat, d.layoutOn.contains k = false → tget e.sect {} k = tget d.sect {} k
          ∧ ∀ a : Nat, 24 * k * 2 ^ 21 ≤ a → a < 24 * (k + 1) * 2 ^ 21 → e.tram.byte a = d.tram.byte a)
      ∧ d.onlyIn e [.regs, .hif, .tram, .sram, .slots, .sect, .layoutOn, .upsets] := by
  dsimp only
  obtain ⟨hframe, hzero, hother⟩ := Dev.clearSects d.layoutOn d
  have hdone := Dev.layoutDone_eq (d := d) (by omega)
  obtain ⟨hon, hbusy, hevent, hend⟩ := Dev.layoutEnd (d.layoutOn.foldl Dev.clearSect d)
  rw [← hdone] at hon hbusy hevent hend
  have htram : d.layoutDone.tram = _ := hend .tram rfl
  have hsram : d.layoutDone.sram = _ := hend .sram rfl
  have hsect : d.layoutDone.sect = _ := hend .sect rfl
  refine ⟨hon, hbusy, hevent, fun k hk => ?_, fun k hk => ?_, (Dev.onlyIn_sub _ hframe rfl).after hend⟩
  · obtain ⟨hz, hlib⟩ := hzero k (.inl hk)
    exact ⟨Dev.sramZero_congr htram hsram hz, by rw [hsect]; exact hlib⟩
  · rw [htram, hsect]
    exact hother k (by simpa using hk)

/-! ### Slices (R320) -/

/-- The entry with a length that comes first is the one that `firstEntry` names. -/
theorem Dev.nextEntry_eq (d : Dev) (k n m i : Nat) :
    d.nextEntry k n m i = ((List.range m).map (fun j => (i + j) % n)).find? (fun j => d.getF (rSectSliceEnt k j) fSectSliceEnt_Len != 0) := by
  induction m generalizing i with
  | zero => rfl
  | succ m ih =>
    have hshift : ((List.range m).map Nat.succ).map (fun j => (i + j) % n) = (List.range m).map (fun j => (i + 1 + j) % n) := by
      rw [List.map_map]
      refine List.map_congr_left fun j _ => ?_
      simp only [Function.comp, Nat.succ_eq_add_one]
      rw [show i + (j + 1) = i + 1 + j by omega]
    rw [Dev.nextEntry, List.range_succ_eq_map, List.map_cons, hshift, List.find?_cons, ← ih (i + 1)]
    simp only [Nat.add_zero]
    by_cases hl : fld (d.sliceEnt k (i % n)) fSectSliceEnt_Len = 0
    · have hf : (d.getF (rSectSliceEnt k (i % n)) fSectSliceEnt_Len != 0) = false := by simpa [Dev.getF, Dev.sliceEnt] using hl
      rw [if_neg (not_not.mpr hl), hf]
    · have hf : (d.getF (rSectSliceEnt k (i % n)) fSectSliceEnt_Len != 0) = true := by simpa [Dev.getF, Dev.sliceEnt] using hl
      rw [if_pos hl, hf]

theorem Dev.nextEntry_first (d : Dev) (k n i : Nat) : d.nextEntry k n n i = d.firstEntry k n i := d.nextEntry_eq k n n i

theorem Dev.firstEntry_lt {d : Dev} {k n i x : Nat} (hn : 0 < n) (h : d.firstEntry k n i = some x) : x < n := by
  obtain ⟨j, _, rfl⟩ := List.mem_map.mp (List.mem_of_find?_eq_some h)
  exact Nat.mod_lt _ hn

theorem Dev.firstEntry_congr {d e : Dev} {k : Nat} (h : ∀ j, e.reg (rSectSliceEnt k j) = d.reg (rSectSliceEnt k j)) (n i : Nat) :
    e.firstEntry k n i = d.firstEntry k n i := by
  unfold Dev.firstEntry Dev.getF
  simp only [h]

theorem sliceEnt_ne (k e : Nat) : rSectSliceEnt k e ≠ rSectSliceCtrl k := by
  simp only [rSectSliceEnt, rSectSliceCtrl]
  omega

theorem Dev.part_modPart_self (d : Dev) (p : Nat) (f : Part → Part) : (d.modPart p f).part p = f (d.part p) := by
  simp [Dev.part, Dev.modPart]

theorem Dev.modPart_frame' (d : Dev) (p : Nat) (f : Part → Part) : d.onlyIn (d.modPart p f) [.parts] := by
  intro c hc
  cases c <;> first | rfl | simp at hc

/-- An entry comes into force, or none. -/
theorem Dev.enterSlice_on (d : Dev) (p k t : Nat) {x : Option Nat} (hx : ∀ e, x = some e → e < 16) :
    d.sliceOn (d.enterSlice p k t x) p k t x ∧ d.regsBut (d.enterSlice p k t x) [rSectSliceCtrl k]
      ∧ d.onlyIn (d.enterSlice p k t x) [.regs, .parts] := by
  have hregs : ∀ (e : Dev) (f : Part → Part) (a : Nat), (e.modPart p f).reg a = e.reg a := fun _ _ _ => rfl
  cases x with
  | some e =>
    refine ⟨⟨?_, ?_⟩, ?_, ?_⟩
    · exact Dev.putF_field (by decide) (hx e rfl)
    · exact Dev.part_modPart_self _ _ _
    · exact d.regsBut_putF _ _ _
    · exact ((d.onlyIn_refl _).after (d.putF_frame _ _ _)).after (Dev.modPart_frame' _ _ _)
  | none =>
    refine ⟨⟨?_, ?_⟩, ?_, ?_⟩
    · exact d.getF_putF_getF _ _ _ _ (by decide) (by decide)
    · exact Dev.part_modPart_self _ _ _
    · exact d.regsBut_putF _ _ _
    · exact ((d.onlyIn_refl _).after (d.putF_frame _ _ _)).after (Dev.modPart_frame' _ _ _)

/-- SECT_SLICE_CTRL takes EN and LAST and keeps CUR. -/
def Dev.takeSliceCtrl (d : Dev) (k : Nat) (v : W64) : Dev :=
  d.setReg (rSectSliceCtrl k) ((d.reg (rSectSliceCtrl k) &&& 0xF00) ||| (v &&& 0xF1))

theorem Dev.takeSliceCtrl_fields (d : Dev) (k : Nat) (v : W32) :
    let e := d.takeSliceCtrl k (v.zeroExtend 64)
    e.getF (rSectSliceCtrl k) fSectSliceCtrl_En = fld v fSectSliceCtrl_En
      ∧ e.getF (rSectSliceCtrl k) fSectSliceCtrl_Last = fld v fSectSliceCtrl_Last
      ∧ e.getF (rSectSliceCtrl k) fSectSliceCtrl_Cur = d.getF (rSectSliceCtrl k) fSectSliceCtrl_Cur := by
  dsimp only
  simp only [Dev.getF, Dev.takeSliceCtrl, Dev.reg_setReg_self]
  have hbit : ∀ (x y : W64) (i : Nat), i < 64 → ((x &&& 0xF00) ||| (y &&& 0xF1)).getLsbD i
      = ((x.getLsbD i && (0xF00 : Nat).testBit i) || (y.getLsbD i && (0xF1 : Nat).testBit i)) := by
    intro x y i hi
    have h1 : (0xF00 : W64) = BitVec.ofNat 64 0xF00 := rfl
    have h2 : (0xF1 : W64) = BitVec.ofNat 64 0xF1 := rfl
    rw [h1, h2]
    simp only [BitVec.getLsbD_or, BitVec.getLsbD_and, BitVec.getLsbD_ofNat, hi, decide_true, Bool.true_and]
  refine ⟨?_, ?_, ?_⟩
  · rw [← fld_zeroExtend]
    refine fld_eq_of_bits fun i hi => ?_
    have h1 : i = 0 := by
      have : fSectSliceCtrl_En.len = 1 := rfl
      omega
    subst h1
    rw [hbit _ _ _ (by decide)]
    simp [fSectSliceCtrl_En, Nat.testBit]
  · rw [← fld_zeroExtend]
    refine fld_eq_of_bits fun i hi => ?_
    have h4 : i < 4 := hi
    rw [hbit _ _ _ (by simp only [fSectSliceCtrl_Last]; omega)]
    interval_cases i <;> simp [fSectSliceCtrl_Last, Nat.testBit]
  · refine fld_eq_of_bits fun i hi => ?_
    have h4 : i < 4 := hi
    rw [hbit _ _ _ (by simp only [fSectSliceCtrl_Cur]; omega)]
    interval_cases i <;> simp [fSectSliceCtrl_Cur, Nat.testBit]

theorem sliceCtrl_write {s : State} {k : SectId} {v : W32} (h : s.dev.regOpen 0 (rSectSliceCtrl k)) (hl : s.dev.isLive k = true) :
    exec (.sectSliceCtrl 0 k v) s = .next (s.onDev fun d => d.writeSliceCtrl k (v.zeroExtend 64)) := by
  refine congrArg Host.Outcome.next (((regAt_sliceCtrl k).write32 rfl ?_ ?_ h ?_).trans ?_)
  · simp only [rSectSliceCtrl, rPwrCtrl]; omega
  · simp only [rSectSliceCtrl, rMgmtRcvCtrl]; omega
  · rw [(regAt_sliceCtrl k).view_sect]
    simp [Dev.sectLive, hl]
  · simp [(regAt_sliceCtrl k).apply, Dev.writePartPage]

theorem Dev.writeSliceCtrl_eq (d : Dev) (k : Nat) (v : W32) :
    d.writeSliceCtrl k (v.zeroExtend 64) =
      if d.getF (rSectSliceCtrl k) fSectSliceCtrl_En = 0 ∧ fld v fSectSliceCtrl_En = 1 then
        (d.takeSliceCtrl k (v.zeroExtend 64)).enterSlice (d.sectPart k) k d.time (d.firstEntry k (fld v fSectSliceCtrl_Last + 1) 0)
      else d.takeSliceCtrl k (v.zeroExtend 64) := by
  obtain ⟨hen, hlast, -⟩ := d.takeSliceCtrl_fields k v
  have hlay : (d.takeSliceCtrl k (v.zeroExtend 64)).sectPart k = d.sectPart k := by
    have hne : rSectPartLayout ≠ rSectSliceCtrl k := by
      simp only [rSectPartLayout, rSectSliceCtrl]
      omega
    rw [Dev.sectPart, Dev.takeSliceCtrl, Dev.reg_setReg_ne _ _ hne, Dev.sectPart]
  have hfirst : ∀ n, (d.takeSliceCtrl k (v.zeroExtend 64)).nextEntry k n n 0 = d.firstEntry k n 0 := by
    intro n
    rw [Dev.nextEntry_first]
    exact Dev.firstEntry_congr (fun j => Dev.reg_setReg_ne _ _ (sliceEnt_ne k j)) n 0
  have hrun : d.writeSliceCtrl k (v.zeroExtend 64) =
      let e := d.takeSliceCtrl k (v.zeroExtend 64)
      if d.getF (rSectSliceCtrl k) fSectSliceCtrl_En = 0 ∧ e.getF (rSectSliceCtrl k) fSectSliceCtrl_En = 1 then
        e.enterSlice (e.sectPart k) k e.time (e.nextEntry k (e.getF (rSectSliceCtrl k) fSectSliceCtrl_Last + 1)
          (e.getF (rSectSliceCtrl k) fSectSliceCtrl_Last + 1) 0)
      else e := rfl
  simp only [hrun, hen, hlast, hlay, hfirst]
  rfl

theorem fld_last_lt (v : W32) : fld v fSectSliceCtrl_Last < 16 := fld_lt v fSectSliceCtrl_Last

/-- A register other than the slice register stands between the write and the entry: the entry's part reads as before. -/
theorem Dev.sliceOn_of_take {d e : Dev} {p k t : Nat} {v : W64} {x : Option Nat} (h : (d.takeSliceCtrl k v).sliceOn e p k t x)
    (hx : x.isSome = true) : d.sliceOn e p k t x := by
  cases x with
  | none => exact absurd hx nofun
  | some x =>
    obtain ⟨hcur, hpart⟩ := h
    have hent : (d.takeSliceCtrl k v).reg (rSectSliceEnt k x) = d.reg (rSectSliceEnt k x) := Dev.reg_setReg_ne _ _ (sliceEnt_ne k x)
    refine ⟨hcur, ?_⟩
    rw [hpart]
    simp only [Dev.getF, hent]
    rfl

theorem Dev.writeSliceCtrl_takes (d : Dev) (k : Nat) (v : W32) :
    let e := d.writeSliceCtrl k (v.zeroExtend 64)
    e.getF (rSectSliceCtrl k) fSectSliceCtrl_En = fld v fSectSliceCtrl_En
      ∧ e.getF (rSectSliceCtrl k) fSectSliceCtrl_Last = fld v fSectSliceCtrl_Last
      ∧ d.regsBut e [rSectSliceCtrl k] ∧ d.onlyIn e [.regs, .parts]
      ∧ (d.getF (rSectSliceCtrl k) fSectSliceCtrl_En = 1 ∨ fld v fSectSliceCtrl_En = 0 → e.parts = d.parts
          ∧ e.getF (rSectSliceCtrl k) fSectSliceCtrl_Cur = d.getF (rSectSliceCtrl k) fSectSliceCtrl_Cur)
      ∧ (d.getF (rSectSliceCtrl k) fSectSliceCtrl_En = 0 → fld v fSectSliceCtrl_En = 1 →
          (∀ x : Nat, d.firstEntry k (fld v fSectSliceCtrl_Last + 1) 0 = some x → d.sliceOn e (d.sectPart k) k d.time (some x))
          ∧ (d.firstEntry k (fld v fSectSliceCtrl_Last + 1) 0 = none → (e.part (d.sectPart k)).sliceIdle = true)) := by
  dsimp only
  obtain ⟨hen, hlast, hcur⟩ := d.takeSliceCtrl_fields k v
  have hregs : d.regsBut (d.takeSliceCtrl k (v.zeroExtend 64)) [rSectSliceCtrl k] := d.regsBut_setReg _ _
  have hframe : d.onlyIn (d.takeSliceCtrl k (v.zeroExtend 64)) [.regs, .parts] := Dev.onlyIn_sub _ (d.setReg_frame _ _) rfl
  rw [Dev.writeSliceCtrl_eq]
  by_cases hgo : d.getF (rSectSliceCtrl k) fSectSliceCtrl_En = 0 ∧ fld v fSectSliceCtrl_En = 1
  · rw [if_pos hgo]
    have hlt : ∀ x, d.firstEntry k (fld v fSectSliceCtrl_Last + 1) 0 = some x → x < 16 := by
      intro x hx
      have h1 := Dev.firstEntry_lt (Nat.succ_pos _) hx
      have h2 := fld_last_lt v
      omega
    obtain ⟨hon, hregs', hframe'⟩ := (d.takeSliceCtrl k (v.zeroExtend 64)).enterSlice_on (d.sectPart k) k d.time hlt
    have hfields : ∀ f : Fld, f.lo + f.len ≤ fSectSliceCtrl_Cur.lo →
        ((d.takeSliceCtrl k (v.zeroExtend 64)).enterSlice (d.sectPart k) k d.time (d.firstEntry k (fld v fSectSliceCtrl_Last + 1) 0)).getF
          (rSectSliceCtrl k) f = (d.takeSliceCtrl k (v.zeroExtend 64)).getF (rSectSliceCtrl k) f := by
      intro f hf
      cases d.firstEntry k (fld v fSectSliceCtrl_Last + 1) 0 with
      | some x => exact Dev.getF_putF_field _ _ _ _ _ (by decide) (.inl hf)
      | none => exact Dev.getF_putF_field _ _ _ _ _ (by decide) (.inl hf)
    refine ⟨(hfields _ (by decide)).trans hen, (hfields _ (by decide)).trans hlast, Dev.regsBut_trans hregs hregs',
      Dev.onlyIn_trans hframe hframe', fun h => ?_, fun _ _ => ⟨fun x hx => ?_, fun hnone => ?_⟩⟩
    · rcases h with h | h
      · exact absurd (h.symm.trans hgo.1) (by decide)
      · exact absurd (h.symm.trans hgo.2) (by decide)
    · rw [hx] at hon ⊢
      exact Dev.sliceOn_of_take hon rfl
    · rw [hnone] at hon ⊢
      rw [hon.2]
  · rw [if_neg hgo]
    exact ⟨hen, hlast, hregs, hframe, fun _ => ⟨rfl, hcur⟩, fun h0 h1 => absurd ⟨h0, h1⟩ hgo⟩

theorem Dev.sliceBoundary_off {d : Dev} {p : Nat}
    (h : ¬ (d.partExists p = true ∧ d.getF (rSectSliceCtrl (d.liveSect p)) fSectSliceCtrl_En = 1)) : d.sliceBoundary p = d := by
  have hlt : d.getF (rSectSliceCtrl (d.liveSect p)) fSectSliceCtrl_En < 2 := fld_lt _ fSectSliceCtrl_En
  have hoff : !d.partExists p ∨ d.getF (rSectSliceCtrl (d.liveSect p)) fSectSliceCtrl_En = 0 := by
    cases hp : d.partExists p
    · exact .inl rfl
    · refine .inr ?_
      have hne : d.getF (rSectSliceCtrl (d.liveSect p)) fSectSliceCtrl_En ≠ 1 := fun h1 => h ⟨hp, h1⟩
      omega
  unfold Dev.sliceBoundary
  rw [if_pos hoff]

theorem Dev.sliceBoundary_on {d : Dev} {p : Nat} (hp : d.partExists p = true)
    (hen : d.getF (rSectSliceCtrl (d.liveSect p)) fSectSliceCtrl_En = 1) :
    d.sliceBoundary p =
      let k := d.liveSect p
      let n := d.getF (rSectSliceCtrl k) fSectSliceCtrl_Last + 1
      let cur := d.getF (rSectSliceCtrl k) fSectSliceCtrl_Cur
      if (d.part p).sliceIdle = true then d.enterSlice p k d.time (d.firstEntry k n 0)
      else if (d.part p).sliceEnd ≤ d.time then
        d.enterSlice p k (d.part p).sliceEnd (d.firstEntry k n (if cur + 1 < n then cur + 1 else 0))
      else d := by
  have hon : ¬ (!d.partExists p ∨ d.getF (rSectSliceCtrl (d.liveSect p)) fSectSliceCtrl_En = 0) := by
    simp [hp, hen]
  unfold Dev.sliceBoundary
  rw [if_neg hon]
  simp only [Dev.nextEntry_first]
  cases d.firstEntry (d.liveSect p) (d.getF (rSectSliceCtrl (d.liveSect p)) fSectSliceCtrl_Last + 1) 0 <;> rfl

/-- Settles O34: the layout word by what discards it, LAYOUT_DONE by the sectors it clears, and slices by the entry found next. -/
theorem layoutsAndSlicesChange : Obligations.LayoutsAndSlicesChange := by
  unfold Obligations.LayoutsAndSlicesChange
  refine ⟨⟨fun s v h => ?layout, fun s f v hf h => ?vf, fun s h => ?idle, fun s h _ => ?done⟩,
    fun s k v h => ⟨fun hl => ?dead, fun hl => ?ctrl⟩, fun s p => ?boundary⟩
  case layout =>
    have hexec := partLayout_write (v := v) h
    dsimp only
    by_cases hbad : s.dev.layoutBad (v.toNat % 2 ^ 18)
    · simp only [State.onDev, Dev.writeLayout_bad hbad] at hexec
      exact ⟨_, hexec, fun _ => Dev.blkErr_discarded _ _, fun hgood => absurd hbad hgood⟩
    · simp only [State.onDev, Dev.writeLayout_good hbad, Nat.mod_mod] at hexec
      refine ⟨_, hexec, fun h => absurd h hbad, fun _ => ⟨?_, Dev.getF_putF_self _ _ _ _ (by decide), rfl, ?_, ?_⟩⟩
      · exact (Dev.reg_putF_ne _ _ _ (by decide)).trans (Dev.reg_setReg_self _ _ _)
      · exact ((s.dev.regsBut_refl _).after (Dev.regsBut_setReg _ rSectPartLayout _)).after (Dev.regsBut_putF _ rSectPartBusy _ _)
      · intro c hc
        cases c <;> first | rfl | simp at hc
  case vf =>
    have hf0 : (f : Nat) ≠ 0 := fun h0 => hf (Fin.ext h0)
    have hv : (s.dev.view f rSectPartLayout).2 = false := by
      obtain ⟨rows, hi⟩ := regAt_partLayout.info
      have h1 : ¬ (0x40 = 0x100 + 4 * (f.val - 1)) := by omega
      simp [Dev.view, hi, regAt_partLayout.offset, Dev.sectLive, Dev.vfView, hf0, h1]
    exact congrArg Host.Outcome.next (regAt_partLayout.unseen32 rfl h hv)
  case idle =>
    refine congrArg Host.Outcome.next ?_
    show s.onDev Dev.layoutDone = s
    unfold State.onDev Dev.layoutDone
    rw [if_pos h]
  case done => exact ⟨_, rfl, Dev.layoutDone_clears h⟩
  case dead =>
    refine congrArg Host.Outcome.next ((regAt_sliceCtrl k).unseen32 rfl h ?_)
    rw [show ((0 : Func) : Nat) = 0 from rfl, (regAt_sliceCtrl k).view_sect]
    simp [Dev.sectLive, hl]
  case ctrl => exact ⟨_, sliceCtrl_write h hl, s.dev.writeSliceCtrl_takes k v⟩
  case boundary =>
    dsimp only
    have hlast : s.dev.getF (rSectSliceCtrl (s.dev.liveSect p)) fSectSliceCtrl_Last < 16 := fld_lt _ fSectSliceCtrl_Last
    have hexec : exec (.sliceBoundary p) s = .next (s.onDev fun d => d.sliceBoundary p) := rfl
    have hlt : ∀ i x, s.dev.firstEntry (s.dev.liveSect p) (s.dev.getF (rSectSliceCtrl (s.dev.liveSect p)) fSectSliceCtrl_Last + 1) i = some x →
        x < 16 := by
      intro i x hx
      have h1 := Dev.firstEntry_lt (Nat.succ_pos _) hx
      omega
    refine ⟨fun hoff => ?_, fun ⟨hp, hen⟩ hidle hlate => ?_, fun ⟨hp, hen⟩ hidle hlate => ?_, fun ⟨hp, hen⟩ hidle => ?_⟩
    · rw [hexec, State.onDev, Dev.sliceBoundary_off hoff]
    · rw [hexec, State.onDev, Dev.sliceBoundary_on hp hen]
      simp only [hidle, Bool.false_eq_true, if_false, if_neg (Nat.not_le.mpr hlate)]
    · simp only [State.onDev, Dev.sliceBoundary_on hp hen, hidle, Bool.false_eq_true, if_false, if_pos hlate] at hexec
      exact ⟨_, hexec, Dev.enterSlice_on _ _ _ _ (hlt _)⟩
    · simp only [State.onDev, Dev.sliceBoundary_on hp hen, hidle, if_true] at hexec
      exact ⟨_, hexec, Dev.enterSlice_on _ _ _ _ (hlt _)⟩

end Sys2Proof.Machine
end

section
/-! # O28: links -/

namespace Sys2Proof.Machine

/-! ## Links (O28) -/

theorem pageInfo_fabLink (i : LinkId) : pageInfo (0x801000 + 0x1000 * i.val) = some (5, 0, 1 + i.val, rows_fabLink) := by
  have hi := i.isLt
  have hdiv : (0x801000 + 0x1000 * i.val - 0x801000) / 0x1000 = i.val := by omega
  unfold pageInfo
  iterate 8 rw [if_neg (by omega)]
  rw [if_pos (by omega), hdiv]

theorem regAt_fabLinkCtrl (i : LinkId) : RegAt (rFabLinkCtrl i) 5 0 (1 + i.val) 0x40 ⟨0x40, 0x0, 1, 4, 0x1, 0x0, 0x4, 0x2, 0x0⟩ :=
  RegAt.of_page (pageInfo_fabLink i) (by omega) (by decide) rfl rfl (by decide)

theorem fabLinkCtrl_write {s : State} {i : LinkId} {v : W32} (h : s.dev.regOpen 0 (rFabLinkCtrl i)) :
    s.reg32 0 (rFabLinkCtrl i) v = s.onDev fun d => d.writeLinkCtrl i (v.zeroExtend 64) := by
  have hi := i.isLt
  rw [(regAt_fabLinkCtrl i).pf_write32 (by decide) rfl (by simp only [rFabLinkCtrl, rPwrCtrl]; omega)
    (by simp only [rFabLinkCtrl, rMgmtRcvCtrl]; omega) h]
  have hj : 1 + i.val - 1 = i.val := by omega
  have hne : 1 + i.val ≠ 0 := by omega
  simp only [(regAt_fabLinkCtrl i).apply, if_neg (show (5 : Nat) ≠ 1 by decide), if_neg (show (5 : Nat) ≠ 2 by decide),
    if_neg (show (5 : Nat) ≠ 3 by decide), if_neg (show (5 : Nat) ≠ 4 by decide), if_true, Dev.writeFab, if_pos hne, hj]

/-- The registers of one link are apart. -/
theorem linkRegs_ne (i : Nat) :
    rFabLinkState i ≠ rFabLinkCtrl i ∧ rFabLinkPeer i ≠ rFabLinkCtrl i ∧ rFabLinkPeer i ≠ rFabLinkState i ∧ rFabLinkFlight i ≠ rFabLinkState i
      ∧ rFabLinkFlight i ≠ rFabLinkPeer i ∧ rFabLinkState i ≠ rFabDown ∧ rFabLinkExpect i ≠ rFabLinkState i ∧ rFabFoldTag ≠ rFabLinkState i
      ∧ rFabCfg ≠ rFabLinkState i := by
  simp only [rFabLinkState, rFabLinkCtrl, rFabLinkPeer, rFabLinkFlight, rFabDown, rFabLinkExpect, rFabFoldTag, rFabCfg]
  omega

/-- The registers of a link are not those that an event of the fabric page, or a lost message, changes. -/
theorem linkReg_quiet {i a : Nat} (ha : a = rFabLinkState i ∨ a = rFabLinkPeer i ∨ a = rFabLinkFlight i ∨ a = rFabLinkFecCorr i
      ∨ a = rFabLinkFecUncorr i ∨ a = rFabLinkCtrl i) : (raiseRegs pgFab).contains a = false ∧ (raiseRegs pgRas).contains a = false := by
  simp only [rFabLinkState, rFabLinkPeer, rFabLinkFlight, rFabLinkFecCorr, rFabLinkFecUncorr, rFabLinkCtrl] at ha
  have h : a ≠ rBlkIntStat pgFab ∧ a ≠ rHifTxDrop ∧ a ≠ rBlkIntStat pgHif ∧ a ≠ rBlkIntStat pgRas := by
    simp only [rBlkIntStat, pgFab, rHifTxDrop, pgHif, pgRas]
    omega
  simp [raiseRegs, h]

theorem Dev.onFab_frame (d : Dev) (f : Fab → Fab) : d.onlyIn (d.onFab f) [.fab] := by
  intro c hc
  cases c <;> first | rfl | simp at hc

/-- Sending changes only the words sent. -/
theorem Dev.sendAll_sends (d : Dev) (m : LinkMsg) : ∃ sent, d.sendAll m = d.onFab (fun x => { x with sent := sent }) := by
  unfold Dev.sendAll
  generalize d.upLinks = is
  induction is generalizing d with
  | nil => exact ⟨d.fab.sent, rfl⟩
  | cons i is ih =>
    obtain ⟨sent, h⟩ := ih (d.sendLink i m)
    exact ⟨sent, by rw [List.foldl_cons, h]; rfl⟩

theorem Dev.sendNotices_fab (d : Dev) :
    ∃ q n sent, d.sendNotices = d.onFab (fun x => { x with noticeQ := q, noticesSent := n, sent := sent }) := by
  unfold Dev.sendNotices
  dsimp only
  generalize d.fab.noticeQ.take (4 - d.fab.noticesSent) = ws
  generalize hq : d.fab.noticeQ.drop (4 - d.fab.noticesSent) = q
  generalize hn : d.fab.noticesSent + ws.length = n
  have hfold : ∀ (us : List Rec) (e : Dev), ∃ sent, us.foldl (fun d w => d.sendAll (.notice w)) e = e.onFab (fun x => { x with sent := sent }) := by
    intro us
    induction us with
    | nil => exact fun e => ⟨e.fab.sent, rfl⟩
    | cons u us ih =>
      intro e
      obtain ⟨sent, h⟩ := e.sendAll_sends (.notice u)
      obtain ⟨sent', h'⟩ := ih (e.sendAll (.notice u))
      exact ⟨sent', by rw [List.foldl_cons, h', h]; rfl⟩
  obtain ⟨sent, h⟩ := hfold ws (d.onFab (fun x => { x with noticeQ := x.noticeQ.drop (4 - d.fab.noticesSent), noticesSent := x.noticesSent + ws.length }))
  refine ⟨q, n, sent, ?_⟩
  rw [h, ← hq, ← hn]
  rfl

/-- The bits of a number that its word holds whole. -/
theorem bitsOf_ofNat {n m x lo len : Nat} (h : x < 2 ^ m) (hm : m ≤ n) : bitsOf (BitVec.ofNat n x) lo len = (x >>> lo) % 2 ^ len := by
  rw [bitsOf, BitVec.toNat_ofNat, Nat.mod_eq_of_lt (Nat.lt_of_lt_of_le h (Nat.pow_le_pow_right Nat.two_pos hm))]

/-- The beat that a notice of this device names. -/
theorem noticeWord_beat {fid link : Nat} (hf : fid < 2 ^ 10) (hl : link < 2 ^ 14) (beat : Nat) : bitsOf (noticeWord fid link beat) 32 32 = beat % 2 ^ 32 := by
  have h : 1 + atBit 4 2 + atBit 8 fid + atBit 18 link + atBit 32 (beat % 2 ^ 32) = 33 + 256 * fid + 262144 * link + 2 ^ 32 * (beat % 2 ^ 32) := by
    simp only [atBit, Nat.shiftLeft_eq]
    omega
  have h64 : 33 + 256 * fid + 262144 * link + 2 ^ 32 * (beat % 2 ^ 32) < 2 ^ 64 := by omega
  rw [noticeWord, h, bitsOf_ofNat h64 (by decide), Nat.shiftRight_eq_div_pow]
  omega

/-- A notice puts its link in the down-set once, counts it, and touches nothing else but what the fabric sends. -/
theorem Dev.notify_names (d : Dev) (fid link : Nat) (w : Rec) :
    d.linkNamed (d.notify fid link w) fid link (bitsOf w 32 32) ∧ d.regsBut (d.notify fid link w) [rFabDown]
      ∧ d.onlyIn (d.notify fid link w) [.regs, .fab] := by
  unfold Dev.notify
  dsimp only
  by_cases hc : d.fab.forwarded.contains (fid, link, bitsOf w 32 32) = true
  · rw [if_pos hc]
    exact ⟨⟨hc, fun hn => absurd (hc.symm.trans hn) Bool.true_eq_false.mp⟩, d.regsBut_refl _, d.onlyIn_refl _⟩
  · rw [if_neg hc]
    generalize hx : (d.onFab (fun x => { x with
      forwarded := (fid, link, bitsOf w 32 32) :: x.forwarded, noticeQ := x.noticeQ ++ [w]
      down := if x.down.contains (fid, link) then x.down else (fid, link) :: x.down })) = x
    obtain ⟨q, n, sent, hs⟩ := (x.putF rFabDown fFabDown_Count x.fab.down.length).sendNotices_fab
    rw [hs, ← hx]
    refine ⟨⟨?_, fun _ => ?_⟩, d.regsBut_putF _ _ _, ?_⟩
    · simp [Dev.onFab, Dev.putF, Dev.setReg]
    · show (if d.fab.down.contains (fid, link) then d.fab.down else (fid, link) :: d.fab.down).contains (fid, link) = true
      by_cases hd : d.fab.down.contains (fid, link) = true
      · rw [if_pos hd, hd]
      · rw [if_neg hd]
        simp
    · exact (((d.onlyIn_refl _).after (d.onFab_frame _)).after (Dev.putF_frame _ _ _ _)).after (Dev.onFab_frame _ _)

/-- What stands between a device and the one an event was raised in. -/
theorem Dev.raised_of_before {d c e : Dev} {page bit : Nat} {rs rs' : List Nat} {cs : List Comp} (h : d.regsBut c rs') (hf : d.onlyIn c [.regs])
    (hr : c.raised e page bit rs cs) (hs : rs' ⊆ rs) : d.raised e page bit rs cs := by
  obtain ⟨hev, hregs, hframe⟩ := hr
  refine ⟨hev, Dev.regsBut_trans (Dev.regsBut_mono h fun a ha => List.mem_append_left _ (hs ha)) hregs, Dev.onlyIn_trans ?_ hframe⟩
  refine Dev.onlyIn_mono hf fun c hc => ?_
  simp only [List.contains_eq_mem, List.mem_singleton, decide_eq_true_eq] at hc
  simp [hc]

/-- A link goes DOWN: its state, its reason, the event, and the notice to the fold. -/
theorem Dev.goDown_goes (d : Dev) (i : LinkId) {reason : Nat} (hr : reason < 9) :
    let e := d.goDown i reason
    e.linkState i = 4 ∧ e.getF (rFabLinkState i) fFabLinkState_Reason = reason ∧ d.linkNamed e d.fid i (d.fab.beatNo % 2 ^ 32)
      ∧ d.raised e pgFab 0 [rFabLinkState i, rFabDown] [.fab]
      ∧ (∀ f : Fld, fFabLinkState_Reason.lo + fFabLinkState_Reason.len ≤ f.lo → e.getF (rFabLinkState i) f = d.getF (rFabLinkState i) f) := by
  dsimp only
  have hi := i.isLt
  obtain ⟨-, -, -, -, -, hdown, -, -, hcfg⟩ := linkRegs_ne i.val
  have hquiet := (linkReg_quiet (i := i.val) (.inl rfl)).1
  generalize ha : (((d.stampLink i).setLink i 4).putF (rFabLinkState i) fFabLinkState_Reason reason).forget i = a
  have hreg : a.reg (rFabLinkState i) = putFld (putFld (d.reg (rFabLinkState i)) fFabLinkState_State 4) fFabLinkState_Reason reason := by
    rw [← ha]
    exact (Dev.reg_putF_self _ _ _ _).trans (congrArg (putFld · fFabLinkState_Reason reason) (Dev.reg_putF_self _ _ _ _))
  have haregs : d.regsBut a [rFabLinkState i] := by
    rw [← ha]
    exact ((d.regsBut_refl _).after (Dev.regsBut_putF (d.stampLink i) (rFabLinkState i) fFabLinkState_State 4)
      (List.Subset.refl _)).after (Dev.regsBut_putF _ _ _ _) (List.Subset.refl _)
  have haframe : d.onlyIn a [.regs, .fab] := by
    rw [← ha]
    intro c hc
    cases c <;> first | rfl | simp at hc
  have hafab : a.fab.forwarded = d.fab.forwarded ∧ a.fab.down = d.fab.down ∧ a.fab.beatNo = d.fab.beatNo := by
    rw [← ha]
    exact ⟨rfl, rfl, rfl⟩
  generalize hb : a.raise pgFab 1 = b
  have hbregs : a.regsBut b (raiseRegs pgFab) := hb ▸ a.raise_regsBut pgFab 1
  have hbframe : a.onlyIn b [.regs, .hif] := hb ▸ a.raise_frame pgFab 1
  have hbevent : b.event pgFab 0 = true := hb ▸ a.raise_event (i := 0) (by decide) (by decide)
  have hbfab : b.fab = a.fab := hbframe .fab rfl
  have hfid : b.fid = d.fid := by
    rw [Dev.fid, Dev.getF, hbregs _ (by decide), haregs _ (by simp [hcfg]), ← Dev.getF, ← Dev.fid]
  have hgo : d.goDown i reason = b.notify d.fid i (noticeWord d.fid i d.fab.beatNo) := by
    unfold Dev.goDown
    simp only [ha, hb]
    rw [if_pos (by omega), hfid, hbfab, hafab.2.2]
  have hfidlt : d.fid < 2 ^ 10 := fld_lt _ fFabCfg_Fid
  obtain ⟨⟨hfwd, hdn⟩, hnregs, hnframe⟩ := b.notify_names d.fid i (noticeWord d.fid i d.fab.beatNo)
  rw [noticeWord_beat hfidlt (by omega)] at hfwd hdn
  rw [hgo]
  have hst : (b.notify d.fid i (noticeWord d.fid i d.fab.beatNo)).reg (rFabLinkState i)
      = putFld (putFld (d.reg (rFabLinkState i)) fFabLinkState_State 4) fFabLinkState_Reason reason := by
    rw [hnregs _ (by simp [hdown]), hbregs _ hquiet, hreg]
  have hr16 : reason % 2 ^ fFabLinkState_Reason.len = reason := Nat.mod_eq_of_lt (Nat.lt_of_lt_of_le hr (by decide))
  refine ⟨?_, ?_, ⟨hfwd, fun hn => hdn ?_⟩, ⟨?_, ?_, ?_⟩, fun f hf => ?_⟩
  · rw [Dev.linkState, Dev.getF, hst, fld_putFld_ne _ _ _ _ (by decide) (by decide), fld_putFld_self _ _ _ (by decide)]
    rfl
  · rw [Dev.getF, hst, fld_putFld_self _ _ _ (by decide), hr16]
  · rw [hbfab, hafab.1]
    exact hn
  · exact (congrArg (bitOf · 0) (hnregs _ (by decide))).trans hbevent
  · exact ((Dev.regsBut_mono haregs (by simp)).after hbregs (by simp)).after hnregs (by simp)
  · exact ((Dev.onlyIn_sub _ haframe rfl).after hbframe).after hnframe
  · have hf' : fFabLinkState_State.lo + fFabLinkState_State.len ≤ f.lo := Nat.le_trans (by decide) hf
    rw [Dev.getF, hst, fld_putFld_ne _ _ _ _ (by decide) (.inr hf), fld_putFld_ne _ _ _ _ (by decide) (.inr hf'), Dev.getF]

/-! ### FAB_LINK_CTRL (Table 10-2) -/

theorem Dev.forget_frame (d : Dev) (i : Nat) : d.onlyIn (d.forget i) [.fab] := d.onFab_frame _

/-- A link told to train. -/
theorem Dev.train_trains (d : Dev) (i : Nat) :
    (d.train i).linkState i = 1 ∧ (d.train i).getF (rFabLinkPeer i) fFabLinkPeer_Valid = 0
      ∧ (d.train i).fab.sent = d.fab.sent ++ [(i, .training 1 d.fid (d.getF rFabFoldTag fFabFoldTag_Tag) 0x4D12 0x0A01 i)]
      ∧ (d.train i).reg (rFabLinkCtrl i) = d.reg (rFabLinkCtrl i)
      ∧ d.regsBut (d.train i) [rFabLinkState i, rFabLinkPeer i] ∧ d.onlyIn (d.train i) [.regs, .fab] := by
  obtain ⟨hsc, hpc, -, -, -, -, -, -, -⟩ := linkRegs_ne i
  have hregs : d.regsBut (d.train i) [rFabLinkState i, rFabLinkPeer i] :=
    (((d.regsBut_refl _).after (e := d) (Dev.regsBut_putF ({ d with fab := { d.fab with sent := d.fab.sent ++ [(i, d.trainingWord i)] } }.stampLink i)
      (rFabLinkState i) fFabLinkState_Lanes 0) (by simp)).after (Dev.regsBut_putF _ _ _ _) (by simp)).after (Dev.regsBut_putF _ (rFabLinkPeer i) _ _)
      (by simp)
  refine ⟨d.trainLink_state i, Dev.putF_field (by decide) (by decide), rfl, ?_, hregs, ?_⟩
  · exact hregs _ (by simp [hsc.symm, hpc.symm])
  · exact Dev.onlyIn_trans (d.trainLink_frame i) (Dev.onlyIn_sub _ (Dev.forget_frame _ i) rfl)

/-- A link whose EN is cleared. -/
theorem Dev.disableLink_off (d : Dev) (i : Nat) :
    ((d.disableLink i).forget i).linkState i = 0 ∧ ((d.disableLink i).forget i).fab.sent = d.fab.sent
      ∧ d.regsBut ((d.disableLink i).forget i) [rFabLinkState i] ∧ d.onlyIn ((d.disableLink i).forget i) [.regs, .fab] := by
  refine ⟨Dev.putF_field (d := d.putF _ _ _) (by decide) (by decide), rfl, ?_, ?_⟩
  · exact ((d.regsBut_refl _).after (Dev.regsBut_putF d (rFabLinkState i) fFabLinkState_Lanes 0) (by simp)).after
      (Dev.regsBut_putF _ (rFabLinkState i) fFabLinkState_State 0) (by simp)
  · exact (((d.onlyIn_refl _).after (Dev.putF_frame _ _ _ _)).after (Dev.putF_frame _ _ _ _)).after (Dev.forget_frame _ _)

theorem Dev.writeLinkCtrl_gone {d : Dev} {i : LinkId} {v : W64} (hr : fld v fFabLinkCtrl_Retire = 0) (hg : d.unitGone .link i = true) :
    d.writeLinkCtrl i v = d := by
  unfold Dev.writeLinkCtrl
  simp [hr, hg]

theorem Dev.writeLinkCtrl_en {d : Dev} {i : LinkId} {v : W64} (hr : fld v fFabLinkCtrl_Retire = 0) (hg : d.unitGone .link i = false) :
    let e := d.writeLinkCtrl i v
    let en := fld v fFabLinkCtrl_En
    let was := d.getF (rFabLinkCtrl i) fFabLinkCtrl_En
    e.getF (rFabLinkCtrl i) fFabLinkCtrl_En = en
      ∧ e.linkState i = (if en = 0 then 0 else if was = 0 ∨ fld v fFabLinkCtrl_Retrain = 1 then 1 else d.linkState i)
      ∧ (e.linkState i = 1 → d.linkState i ≠ 1 → e.getF (rFabLinkPeer i) fFabLinkPeer_Valid = 0)
      ∧ e.fab.sent = d.fab.sent ++ (if en = 1 ∧ (was = 0 ∨ fld v fFabLinkCtrl_Retrain = 1) then
          [(i.val, .training 1 d.fid (d.getF rFabFoldTag fFabFoldTag_Tag) 0x4D12 0x0A01 i)] else [])
      ∧ d.regsBut e [rFabLinkCtrl i, rFabLinkState i, rFabLinkPeer i] ∧ d.onlyIn e [.regs, .fab] := by
  dsimp only
  have hi := i.isLt
  obtain ⟨hsc, hpc, -, -, -, -, -, -, -⟩ := linkRegs_ne i.val
  have hcfg : rFabCfg ≠ rFabLinkCtrl i ∧ rFabFoldTag ≠ rFabLinkCtrl i := by
    simp only [rFabCfg, rFabFoldTag, rFabLinkCtrl]
    omega
  generalize hc : d.putF (rFabLinkCtrl i) fFabLinkCtrl_En (fld v fFabLinkCtrl_En) = c
  have hen : c.getF (rFabLinkCtrl i) fFabLinkCtrl_En = fld v fFabLinkCtrl_En := hc ▸ Dev.putF_field (by decide) (fld_lt _ _)
  have hcregs : d.regsBut c [rFabLinkCtrl i] := hc ▸ d.regsBut_putF _ _ _
  have hcframe : d.onlyIn c [.regs] := hc ▸ d.putF_frame _ _ _
  have hfab : c.fab = d.fab := hcframe .fab rfl
  have hst : c.linkState i = d.linkState i := congrArg (fld · fFabLinkState_State) (hcregs _ (by simp [hsc]))
  have hrun : d.writeLinkCtrl i v = if fld v fFabLinkCtrl_En = 0 then (c.disableLink i).forget i
      else if d.getF (rFabLinkCtrl i) fFabLinkCtrl_En = 0 ∨ fld v fFabLinkCtrl_Retrain = 1 then c.train i else c := by
    unfold Dev.writeLinkCtrl
    simp [hr, hg, hc]
  have henlt : fld v fFabLinkCtrl_En < 2 := fld_lt v fFabLinkCtrl_En
  by_cases h0 : fld v fFabLinkCtrl_En = 0
  · obtain ⟨hoff, hsent, hregs, hframe⟩ := c.disableLink_off i
    rw [hrun, if_pos h0]
    simp only [h0, Nat.zero_ne_one, false_and, if_true, if_false, List.append_nil]
    refine ⟨?_, hoff, fun h => absurd (hoff.symm.trans h) (by decide), hsent.trans (by rw [hfab]), ?_, (Dev.onlyIn_sub _ hcframe rfl).after hframe⟩
    · rw [Dev.getF, hregs _ (by simp [hsc.symm]), ← Dev.getF, hen, h0]
    · exact (Dev.regsBut_mono hcregs (by simp)).after hregs (by simp)
  · have h1 : fld v fFabLinkCtrl_En = 1 := by omega
    rw [hrun, if_neg h0]
    by_cases ht : d.getF (rFabLinkCtrl i) fFabLinkCtrl_En = 0 ∨ fld v fFabLinkCtrl_Retrain = 1
    · obtain ⟨hstate, hpeer, hsent, hctrl, hregs, hframe⟩ := c.train_trains i
      rw [if_pos ht]
      simp only [h1, Nat.one_ne_zero, if_false, true_and, if_pos ht]
      refine ⟨?_, hstate, fun _ _ => hpeer, ?_, ?_, (Dev.onlyIn_sub _ hcframe rfl).after hframe⟩
      · rw [Dev.getF, hctrl, ← Dev.getF, hen, h1]
      · rw [hsent, hfab, Dev.fid, Dev.fid, Dev.getF, Dev.getF, Dev.getF, Dev.getF, hcregs _ (by simp [hcfg.1]), hcregs _ (by simp [hcfg.2])]
      · exact (Dev.regsBut_mono hcregs (by simp)).after hregs (by simp)
    · rw [if_neg ht]
      simp only [h1, Nat.one_ne_zero, if_false, true_and, if_neg ht, List.append_nil]
      exact ⟨hen.trans h1, hst, fun h hn => absurd (hst.symm.trans h) hn, by rw [hfab], Dev.regsBut_mono hcregs (by simp), Dev.onlyIn_sub _ hcframe rfl⟩

theorem Dev.unitGone_of_retired {d : Dev} {i : Nat} {x : UnitSt} (h : d.unit ⟨.link, i⟩ = x) (hx : x.state = 2) :
    d.unitGone .link i = true ∧ d.unitRetired .link i = true := by
  simp [Dev.unitGone, Dev.unitRetired, h, hx]

/-- RETIRE of a link that is not retired yet. -/
theorem Dev.writeLinkCtrl_retire {d : Dev} {i : LinkId} {v : W64} (hr : fld v fFabLinkCtrl_Retire = 1) (hl : d.linkState i ≠ 5) :
    let e := d.writeLinkCtrl i v
    e.linkState i = 5 ∧ e.unitRetired .link i = true
      ∧ (∀ u : UnitId, unitCode u ≠ unitCode ⟨.link, i⟩ → e.unit u = d.unit u)
      ∧ (512 ≤ d.gan.retireCount → d.raised e pgRas 4 [rFabLinkCtrl i, rFabLinkState i] [.fab, .ras])
      ∧ (¬ 512 ≤ d.gan.retireCount → e.gan.cfgPend = d.gan.cfgPend ++ [(.retire ⟨7, 0, i, d.time⟩, .nobody)]
          ∧ d.regsBut e [rFabLinkCtrl i, rFabLinkState i] ∧ d.onlyIn e [.regs, .fab, .ras, .gan]) := by
  dsimp only
  obtain ⟨hsc, -, -, -, -, -, -, -, -⟩ := linkRegs_ne i.val
  have hquiet := (linkReg_quiet (i := i.val) (.inl rfl)).2
  generalize hc : d.putF (rFabLinkCtrl i) fFabLinkCtrl_Retire 1 = c
  have hcregs : d.regsBut c [rFabLinkCtrl i] := hc ▸ d.regsBut_putF _ _ _
  have hcframe : d.onlyIn c [.regs] := hc ▸ d.putF_frame _ _ _
  have hst : c.linkState i = d.linkState i := congrArg (fld · fFabLinkState_State) (hcregs _ (by simp [hsc]))
  have hgan : c.gan = d.gan := hcframe .gan rfl
  have htime : c.time = d.time := hcframe .time rfl
  generalize hb : ((c.setLink i 5).setUnit ⟨.link, i⟩ { state := 2, reason := 5, persisted := !decide (512 ≤ d.gan.retireCount) }).forget i = b
  have hbregs : c.regsBut b [rFabLinkState i] := hb ▸ c.regsBut_putF _ _ _
  have hbframe : c.onlyIn b [.regs, .fab, .ras] := by
    rw [← hb]
    intro x hx
    cases x <;> first | rfl | simp at hx
  have hbstate : b.linkState i = 5 := hb ▸ Dev.putF_field (d := c) (by decide) (by decide)
  have hbunit : b.unit ⟨.link, i⟩ = { state := 2, reason := 5, persisted := !decide (512 ≤ d.gan.retireCount) } := hb ▸ Dev.unit_setUnit_self _ _ _
  have hbother : ∀ u : UnitId, unitCode u ≠ unitCode ⟨.link, i⟩ → b.unit u = d.unit u := fun u hu => by
    rw [← hb]
    exact (Dev.unit_setUnit_ne (c.setLink i 5) _ hu).trans (Dev.unit_of_ras (hcframe .ras rfl) u)
  have hretire : c.retireLink i = if 512 ≤ d.gan.retireCount then b.raise pgRas 0x10
      else b.cfgAsk (.retire { kind := 7, addr := 0, unit := i, time := d.time }) .nobody := by
    unfold Dev.retireLink
    rw [if_neg (by rw [hst]; exact hl)]
    simp only [hgan, hb]
    rw [show b.time = d.time from (hbframe .time rfl).trans htime]
  have hregs : d.regsBut b [rFabLinkCtrl i, rFabLinkState i] := (Dev.regsBut_mono hcregs (by simp)).after hbregs (by simp)
  have hframe : d.onlyIn b [.regs, .fab, .ras] := (Dev.onlyIn_sub _ hcframe rfl).after hbframe
  have hrun : d.writeLinkCtrl i v = c.retireLink i := by
    have hgone : (c.retireLink i).unitGone .link i = true := by
      have hras : (c.retireLink i).ras = b.ras := by
        rw [hretire]
        split
        · exact b.raise_frame _ _ .ras rfl
        · rfl
      exact (Dev.unitGone_of_retired ((Dev.unit_of_ras hras _).trans hbunit) rfl).1
    unfold Dev.writeLinkCtrl
    simp only [if_pos hr, hc, hgone, if_true]
  rw [hrun, hretire]
  by_cases hf : 512 ≤ d.gan.retireCount
  · simp only [if_pos hf]
    have hraise := b.raise_frame pgRas 0x10
    have hras : (b.raise pgRas 0x10).ras = b.ras := hraise .ras rfl
    refine ⟨?_, (Dev.unitGone_of_retired ((Dev.unit_of_ras hras _).trans hbunit) rfl).2, fun u hu => (Dev.unit_of_ras hras u).trans (hbother u hu),
      fun _ => ⟨b.raise_event (i := 4) (by decide) (by decide), ?_, ?_⟩, fun h => absurd hf h⟩
    · rw [Dev.linkState, Dev.getF, b.raise_regsBut _ _ _ hquiet, ← Dev.getF, ← Dev.linkState, hbstate]
    · exact (Dev.regsBut_mono hregs (by simp)).after (b.raise_regsBut _ _) (by simp)
    · exact (Dev.onlyIn_sub _ hframe rfl).after hraise
  · simp only [if_neg hf]
    refine ⟨hbstate, (Dev.unitGone_of_retired hbunit rfl).2, hbother, fun h => absurd h hf, fun _ => ⟨?_, hregs, ?_⟩⟩
    · have hbgan : b.gan = d.gan := (hbframe .gan rfl).trans hgan
      show b.gan.cfgPend ++ _ = _
      rw [hbgan]
    · exact (Dev.onlyIn_sub _ hframe rfl).after (Dev.onGan_frame _ _)

/-! ### Training ends (R281 to R284) -/

theorem fitTo_lt (w x : Nat) : fitTo w x < 2 ^ w := by
  unfold fitTo
  split
  · assumption
  · exact Nat.mod_lt _ (Nat.two_pow_pos _)

/-- The reason a link that is trained goes DOWN by its peer's identity, or 0 (Table 10-2). -/
def Dev.trainReason (d : Dev) (i : Nat) (p : PeerIdent) : Nat :=
  if p.gen = 0 then 4
  else if p.foldTag.toNat ≠ d.getF rFabFoldTag fFabFoldTag_Tag then 5
  else if p.fid = d.fid ∨ 768 ≤ p.fid ∨ 768 ≤ d.fid then 6
  else if fld (d.reg (rFabLinkExpect i)) fFabLinkExpect_En = 1
    ∧ (fld (d.reg (rFabLinkExpect i)) fFabLinkExpect_Fid ≠ p.fid ∨ fld (d.reg (rFabLinkExpect i)) fFabLinkExpect_Link ≠ p.link) then 7
  else 0

theorem Dev.trainReason_lt (d : Dev) (i : Nat) (p : PeerIdent) : d.trainReason i p < 9 := by
  unfold Dev.trainReason
  repeat' split
  all_goals decide

/-- The generation and lanes that training found. -/
def Dev.trainedAs (d : Dev) (i gen : Nat) : Dev :=
  (d.putF (rFabLinkState i) fFabLinkState_Gen gen).putF (rFabLinkState i) fFabLinkState_Lanes 3

theorem Dev.trainedAs_shows (d : Dev) (i : Nat) {gen : Nat} (h : gen < 16) :
    (d.trainedAs i gen).getF (rFabLinkState i) fFabLinkState_Gen = gen ∧ (d.trainedAs i gen).getF (rFabLinkState i) fFabLinkState_Lanes = 3
      ∧ d.regsBut (d.trainedAs i gen) [rFabLinkState i] ∧ d.onlyIn (d.trainedAs i gen) [.regs] := by
  refine ⟨?_, Dev.putF_field (by decide) (by decide), ?_, ?_⟩
  · exact (Dev.getF_putF_field _ _ _ _ _ (by decide) (by decide)).trans (Dev.putF_field (by decide) h)
  · exact Dev.regsBut_trans (d.regsBut_putF _ _ _) (Dev.regsBut_putF _ _ _ _)
  · exact Dev.onlyIn_trans (d.putF_frame _ _ _) (Dev.putF_frame _ _ _ _)

/-- A link whose peer passes is FENCED, with its peer and its flight time recorded. -/
def Dev.fenceWith (d : Dev) (i : Nat) (p : PeerIdent) : Dev :=
  (((d.setReg (rFabLinkPeer i) (BitVec.ofNat 64 (p.fid + atBit 10 (p.link % 128) + atBit 17 1))).setReg (rFabLinkFlight i)
    (BitVec.ofNat 64 (fitTo 12 p.flight + atBit 12 (if 60 < p.flight then 1 else 0)))).forget i).fence i

theorem Dev.linkTrained_eq {d : Dev} {i : LinkId} (p : PeerIdent) (h : d.linkState i = 1) :
    d.linkTrained i p = if d.trainReason i p ≠ 0 then (d.trainedAs i (min 1 p.gen)).goDown i (d.trainReason i p)
      else (d.trainedAs i (min 1 p.gen)).fenceWith i p := by
  obtain ⟨-, -, -, -, -, -, hexp, htag, hcfg⟩ := linkRegs_ne i.val
  obtain ⟨-, -, hregs, -⟩ := d.trainedAs_shows i (gen := min 1 p.gen) (by omega)
  have hid : (d.trainedAs i (min 1 p.gen)).identityCheck i p = if p.gen = 0 then (d.trainedAs i (min 1 p.gen)).identityCheck i p
      else d.trainReason i p := by
    split
    · rfl
    · rename_i hg
      unfold Dev.identityCheck Dev.trainReason Dev.fid Dev.getF
      rw [if_neg hg, hregs _ (by simp [hexp]), hregs _ (by simp [htag]), hregs _ (by simp [hcfg])]
  unfold Dev.linkTrained
  rw [if_neg (not_not.mpr h)]
  simp only [← Dev.trainedAs.eq_1]
  by_cases hg : p.gen = 0
  · have hr : d.trainReason i p = 4 := by rw [Dev.trainReason, if_pos hg]
    rw [if_pos (by omega), hr, if_pos (by decide)]
  · rw [if_neg (by omega), hid, if_neg hg]
    simp only [Dev.fenceWith]

theorem peerWord_fields {fid link : Nat} (hf : fid < 768) (hl : link < 128) :
    let w : W64 := BitVec.ofNat 64 (fid + atBit 10 link + atBit 17 1)
    fld w fFabLinkPeer_Valid = 1 ∧ fld w fFabLinkPeer_Fid = fid ∧ fld w fFabLinkPeer_Link = link := by
  have h : fid + atBit 10 link + atBit 17 1 = fid + 1024 * link + 131072 := by
    simp only [atBit, Nat.shiftLeft_eq]
    omega
  have hlt : fid + 1024 * link + 131072 < 2 ^ 64 := by omega
  dsimp only
  rw [h]
  simp only [fld, bitsOf, fFabLinkPeer_Valid, fFabLinkPeer_Fid, fFabLinkPeer_Link, BitVec.toNat_ofNat, Nat.mod_eq_of_lt hlt,
    Nat.shiftRight_eq_div_pow]
  omega

theorem flightWord_long {x b : Nat} (hx : x < 2 ^ 12) (hb : b < 2) :
    fld (BitVec.ofNat 64 (x + atBit 12 b) : W64) fFabLinkFlight_Long = b := by
  have h : x + atBit 12 b = x + 4096 * b := by
    simp only [atBit, Nat.shiftLeft_eq]
    omega
  have hlt : x + 4096 * b < 2 ^ 64 := by omega
  rw [h]
  simp only [fld, bitsOf, fFabLinkFlight_Long, BitVec.toNat_ofNat, Nat.mod_eq_of_lt hlt, Nat.shiftRight_eq_div_pow]
  omega

theorem Dev.fenceWith_fences (d : Dev) (i : LinkId) (p : PeerIdent) (hp : p.fid < 768) :
    let e := d.fenceWith i p
    e.linkState i = 2 ∧ e.getF (rFabLinkPeer i) fFabLinkPeer_Valid = 1 ∧ e.getF (rFabLinkPeer i) fFabLinkPeer_Fid = p.fid
      ∧ e.getF (rFabLinkPeer i) fFabLinkPeer_Link = p.link % 128
      ∧ e.getF (rFabLinkFlight i) fFabLinkFlight_Long = (if 60 < p.flight then 1 else 0)
      ∧ d.raised e pgFab 1 [rFabLinkState i, rFabLinkPeer i, rFabLinkFlight i] [.fab]
      ∧ (∀ f : Fld, fFabLinkState_State.lo + fFabLinkState_State.len ≤ f.lo → e.getF (rFabLinkState i) f = d.getF (rFabLinkState i) f) := by
  dsimp only
  obtain ⟨-, -, hps, hfs, hfp, -, -, -, -⟩ := linkRegs_ne i.val
  have hqs := (linkReg_quiet (i := i.val) (.inl rfl)).1
  have hqp := (linkReg_quiet (i := i.val) (.inr (.inl rfl))).1
  have hqf := (linkReg_quiet (i := i.val) (.inr (.inr (.inl rfl)))).1
  obtain ⟨hvalid, hfid, hlink⟩ := peerWord_fields hp (Nat.mod_lt p.link (show 0 < 128 by decide))
  have hflight := flightWord_long (fitTo_lt 12 p.flight) (b := if 60 < p.flight then 1 else 0) (by split <;> decide)
  generalize hw : (BitVec.ofNat 64 (p.fid + atBit 10 (p.link % 128) + atBit 17 1) : W64) = w at hvalid hfid hlink
  generalize hx : (BitVec.ofNat 64 (fitTo 12 p.flight + atBit 12 (if 60 < p.flight then 1 else 0)) : W64) = x at hflight
  generalize hc : (((d.setReg (rFabLinkPeer i) w).setReg (rFabLinkFlight i) x).forget i).setLink i 2 = c
  have hrun : d.fenceWith i p = c.raise pgFab 2 := by
    rw [Dev.fenceWith, hw, hx, Dev.fence, hc]
  have hregs : d.regsBut c [rFabLinkState i, rFabLinkPeer i, rFabLinkFlight i] := by
    rw [← hc]
    exact (((d.regsBut_refl _).after (Dev.regsBut_setReg d (rFabLinkPeer i) w) (by simp)).after (Dev.regsBut_setReg _ (rFabLinkFlight i) x)
      (by simp)).after (Dev.regsBut_putF _ (rFabLinkState i) _ _) (by simp)
  have hframe : d.onlyIn c [.regs, .fab] := by
    rw [← hc]
    intro y hy
    cases y <;> first | rfl | simp at hy
  have hstate : c.reg (rFabLinkState i) = putFld (d.reg (rFabLinkState i)) fFabLinkState_State 2 := by
    rw [← hc]
    refine (Dev.reg_putF_self _ _ _ _).trans (congrArg (putFld · fFabLinkState_State 2) ?_)
    exact (Dev.reg_setReg_ne _ _ hfs.symm).trans (Dev.reg_setReg_ne _ _ hps.symm)
  have hpeer : c.reg (rFabLinkPeer i) = w := by
    rw [← hc]
    exact (Dev.reg_putF_ne _ _ _ hps).trans ((Dev.reg_setReg_ne _ _ hfp.symm).trans (Dev.reg_setReg_self _ _ _))
  have hfl : c.reg (rFabLinkFlight i) = x := by
    rw [← hc]
    exact (Dev.reg_putF_ne _ _ _ hfs).trans (Dev.reg_setReg_self _ _ _)
  have hkeep := c.raise_regsBut pgFab 2
  rw [hrun]
  refine ⟨?_, ?_, ?_, ?_, ?_, ⟨c.raise_event (i := 1) (by decide) (by decide), ?_, ?_⟩, fun f hf => ?_⟩
  · rw [Dev.linkState, Dev.getF, hkeep _ hqs, hstate, fld_putFld_self _ _ _ (by decide)]
    rfl
  · rw [Dev.getF, hkeep _ hqp, hpeer, hvalid]
  · rw [Dev.getF, hkeep _ hqp, hpeer, hfid]
  · rw [Dev.getF, hkeep _ hqp, hpeer, hlink]
  · rw [Dev.getF, hkeep _ hqf, hfl, hflight]
  · exact (Dev.regsBut_mono hregs (by simp)).after hkeep (by simp)
  · exact (Dev.onlyIn_sub _ hframe rfl).after (c.raise_frame _ _)
  · rw [Dev.getF, hkeep _ hqs, hstate, fld_putFld_ne _ _ _ _ (by decide) (.inr hf), Dev.getF]

/-! ### Errors (R308, R311) -/

/-- A saturating counter, `n` up. -/
theorem Dev.addF_counted (d : Dev) (a : Nat) (f : Fld) (n : Nat) (hf : f.lo + f.len ≤ 64) : d.counted (d.addF a f n) a f n := by
  have hpos := Nat.two_pow_pos f.len
  rw [Dev.counted, Dev.addF, Dev.putF_field hf, satAdd, min_comm]
  rw [satAdd]
  omega

/-- A lane lost is shown. -/
theorem lane_lost (x : Nat) (l : Fin 2) : (if x.testBit l then x - 2 ^ l.val else x).testBit l = false := by
  split
  · rename_i h
    have hl : l.val = 0 ∨ l.val = 1 := by omega
    rcases hl with hl | hl <;> rw [hl] at h ⊢ <;> simp only [Nat.testBit_eq_decide_div_mod_eq, decide_eq_true_eq, decide_eq_false_iff_not] at h ⊢ <;> omega
  · rename_i h
    simpa using h

/-- A link that goes DOWN after registers of its own changed. -/
theorem Dev.goDown_after {d c : Dev} (i : LinkId) {reason : Nat} {rs : List Nat} (hr : reason < 9) (hregs : d.regsBut c rs)
    (hframe : d.onlyIn c [.regs]) (hcfg : rs.contains rFabCfg = false) :
    let e := c.goDown i reason
    e.linkState i = 4 ∧ e.getF (rFabLinkState i) fFabLinkState_Reason = reason ∧ d.linkNamed e d.fid i (d.fab.beatNo % 2 ^ 32)
      ∧ (∀ ss, rs ⊆ ss → [rFabLinkState i.val, rFabDown] ⊆ ss → d.raised e pgFab 0 ss [.fab]) := by
  dsimp only
  obtain ⟨hstate, hreason, hnamed, ⟨hev, hraised, hrframe⟩, -⟩ := c.goDown_goes i hr
  have hfid : c.fid = d.fid := congrArg (fld · fFabCfg_Fid) (hregs _ hcfg)
  have hfab : c.fab = d.fab := hframe .fab rfl
  rw [Dev.linkNamed, hfid, hfab] at hnamed
  refine ⟨hstate, hreason, hnamed, fun ss h1 h2 => Dev.raised_of_before hregs hframe ⟨hev, ?_, hrframe⟩ h1⟩
  exact Dev.regsBut_mono hraised fun a ha => (List.mem_append.mp ha).elim (fun h => List.mem_append_left _ (h2 h)) (List.mem_append_right _)

/-- Settles O28: FAB_LINK_CTRL by RETIRE and EN, training by its peer's identity, and each way a link goes DOWN. -/
theorem linksAreControlledAndTrained : Obligations.LinksAreControlledAndTrained := by
  unfold Obligations.LinksAreControlledAndTrained
  refine ⟨fun row hrow s i v h => ?ctrl, fun s i p => ⟨fun hst => ?still, fun hst => ?trained⟩, fun s i => ?timeout, fun s i => ?retry,
    fun s i l => ⟨fun hup => ?laneStill, fun hup => ?lane⟩, fun s i c n => ⟨fun hup => ?fecStill, fun hup => ?fec⟩⟩
  case ctrl =>
    have hexec : exec (row 0 i v) s = .next (s.onDev fun d => d.writeLinkCtrl i (v.zeroExtend 64)) := by
      simp only [List.mem_cons, List.not_mem_nil, or_false] at hrow
      rcases hrow with rfl | rfl | rfl <;> exact congrArg Host.Outcome.next (fabLinkCtrl_write h)
    dsimp only
    simp only [← fld_zeroExtend v]
    exact ⟨_, hexec, fun hr hg => Dev.writeLinkCtrl_gone hr hg, fun hr hg => Dev.writeLinkCtrl_en hr hg,
      fun hr hl => Dev.writeLinkCtrl_retire hr hl⟩
  case still =>
    refine congrArg Host.Outcome.next ?_
    show s.onDev (fun d => d.linkTrained i p) = s
    simp only [State.onDev, Dev.linkTrained, if_pos hst]
  case trained =>
    have hexec : exec (.linkTrained i p) s = .next (s.onDev fun d => d.linkTrained i p) := rfl
    have hlt := s.dev.trainReason_lt i p
    obtain ⟨-, -, -, -, -, -, -, -, hcfg⟩ := linkRegs_ne i.val
    obtain ⟨hgen, hlanes, hregs, hframe⟩ := s.dev.trainedAs_shows i (gen := min 1 p.gen) (by omega)
    rw [← Dev.trainReason.eq_1]
    simp only [State.onDev, Dev.linkTrained_eq p hst] at hexec
    by_cases hr : s.dev.trainReason i p = 0
    · rw [if_neg (not_not.mpr hr)] at hexec
      have hfid : p.fid < 768 := by
        by_contra hbig
        have h6 : p.fid = s.dev.fid ∨ 768 ≤ p.fid ∨ 768 ≤ s.dev.fid := .inr (.inl (Nat.not_lt.mp hbig))
        rw [Dev.trainReason, if_pos h6] at hr
        revert hr
        split
        · decide
        · split <;> decide
      obtain ⟨hstate, hvalid, hpfid, hplink, hlong, ⟨hev, hraised, hrframe⟩, hkeep⟩ := (s.dev.trainedAs i (min 1 p.gen)).fenceWith_fences i p hfid
      exact ⟨_, hexec, (hkeep _ (by decide)).trans hgen, (hkeep _ (by decide)).trans hlanes, fun h => absurd hr h,
        fun _ => ⟨hstate, hvalid, fun _ => hpfid, hplink, hlong, Dev.raised_of_before hregs hframe ⟨hev, hraised, hrframe⟩ (by simp)⟩⟩
    · rw [if_pos hr] at hexec
      obtain ⟨-, -, -, -, hkeep⟩ := (s.dev.trainedAs i (min 1 p.gen)).goDown_goes i hlt
      obtain ⟨hstate, hreason, hnamed, hraised⟩ := Dev.goDown_after (c := s.dev.trainedAs i (min 1 p.gen)) i hlt hregs hframe (by simp [hcfg])
      exact ⟨_, hexec, (hkeep _ (by decide)).trans hgen, (hkeep _ (by decide)).trans hlanes,
        fun _ => ⟨hstate, hreason, hnamed, hraised _ (by simp) (List.Subset.refl _)⟩, fun h => absurd h hr⟩
  case timeout =>
    have hexec : exec (.trainTimeout i) s = .next (s.onDev fun d => d.trainTimeout i) := rfl
    refine ⟨fun hstay => ?_, fun hgo => ?_⟩
    · rw [hexec, State.onDev, Dev.trainTimeout, if_neg hstay]
    · obtain ⟨hstate, hreason, hnamed, hraised⟩ := Dev.goDown_after (d := s.dev) (c := s.dev) (rs := []) (reason := 8) i (by decide)
        (s.dev.regsBut_refl _) (s.dev.onlyIn_refl _) rfl
      refine ⟨(s.dev.goDown i 8), ?_, hstate, hreason, hnamed, hraised _ (by simp) (List.Subset.refl _)⟩
      rw [hexec, State.onDev, Dev.trainTimeout, if_pos hgo]
  case retry =>
    have hexec : exec (.linkRetry i) s = .next (s.onDev fun d => d.linkRetry i) := rfl
    dsimp only
    have hiff : (s.dev.linkState i = 4 ∧ tget s.dev.fab.linkAt 0 i.val + 1000000000 ≤ s.dev.time
        ∧ s.dev.getF (rFabLinkCtrl i) fFabLinkCtrl_En = 1
        ∧ !(5 ≤ s.dev.getF (rFabLinkState i) fFabLinkState_Reason ∧ s.dev.getF (rFabLinkState i) fFabLinkState_Reason ≤ 7)
        ∧ !s.dev.unitGone .link i) ↔
        (s.dev.linkState i = 4 ∧ tget s.dev.fab.linkAt 0 i.val + 1000000000 ≤ s.dev.time
        ∧ s.dev.getF (rFabLinkCtrl i) fFabLinkCtrl_En = 1 ∧ s.dev.getF (rFabLinkState i) fFabLinkState_Reason ≠ 5
        ∧ s.dev.getF (rFabLinkState i) fFabLinkState_Reason ≠ 6 ∧ s.dev.getF (rFabLinkState i) fFabLinkState_Reason ≠ 7
        ∧ s.dev.unitGone .link i = false) := by
      have hr : ∀ r : Nat, (!decide (5 ≤ r ∧ r ≤ 7)) = true ↔ r ≠ 5 ∧ r ≠ 6 ∧ r ≠ 7 := by
        intro r
        rw [Bool.not_eq_true', decide_eq_false_iff_not]
        omega
      rw [hr, Bool.not_eq_true']
      tauto
    rw [← hiff]
    refine ⟨fun hstay => ?_, fun hgo => ?_⟩
    · rw [hexec, State.onDev, Dev.linkRetry, if_neg hstay]
    · obtain ⟨hstate, hpeer, hsent, -, hregs, hframe⟩ := s.dev.train_trains i
      refine ⟨s.dev.train i, ?_, hstate, hpeer, hsent, hregs, hframe⟩
      rw [hexec, State.onDev, Dev.linkRetry, if_pos hgo]
  case laneStill =>
    refine congrArg Host.Outcome.next ?_
    show s.onDev (fun d => d.laneLoss i l) = s
    simp [State.onDev, Dev.laneLoss, hup]
  case lane =>
    have hlanes : s.dev.getF (rFabLinkState i) fFabLinkState_Lanes < 4 := fld_lt _ fFabLinkState_Lanes
    obtain ⟨-, -, -, -, -, -, -, -, hcfg⟩ := linkRegs_ne i.val
    have hexec : exec (.laneLoss i l) s = .next { s with dev := ((s.dev.putF (rFabLinkState i) fFabLinkState_Lanes
        (if (s.dev.getF (rFabLinkState i) fFabLinkState_Lanes).testBit l then s.dev.getF (rFabLinkState i) fFabLinkState_Lanes - 2 ^ l.val
          else s.dev.getF (rFabLinkState i) fFabLinkState_Lanes)).goDown i 1) } := by
      refine congrArg Host.Outcome.next ?_
      show s.onDev (fun d => d.laneLoss i l) = _
      simp only [State.onDev, Dev.laneLoss, hup, Bool.not_true, Bool.false_eq_true, if_false]
    obtain ⟨-, -, -, -, hkeep⟩ := (s.dev.putF (rFabLinkState i) fFabLinkState_Lanes
        (if (s.dev.getF (rFabLinkState i) fFabLinkState_Lanes).testBit l then s.dev.getF (rFabLinkState i) fFabLinkState_Lanes - 2 ^ l.val
          else s.dev.getF (rFabLinkState i) fFabLinkState_Lanes)).goDown_goes i (reason := 1) (by decide)
    obtain ⟨hstate, hreason, hnamed, hraised⟩ := Dev.goDown_after i (reason := 1) (by decide) (s.dev.regsBut_putF (rFabLinkState i)
      fFabLinkState_Lanes (if (s.dev.getF (rFabLinkState i) fFabLinkState_Lanes).testBit l then
        s.dev.getF (rFabLinkState i) fFabLinkState_Lanes - 2 ^ l.val else s.dev.getF (rFabLinkState i) fFabLinkState_Lanes))
      (s.dev.putF_frame _ _ _) (by simp [hcfg])
    refine ⟨_, hexec, hstate, hreason, ?_, hnamed, hraised _ (by simp) (List.Subset.refl _)⟩
    rw [hkeep _ (by decide), Dev.putF_field (by decide)]
    · exact lane_lost _ l
    · refine Nat.lt_of_le_of_lt ?_ hlanes
      split
      · exact Nat.sub_le _ _
      · exact Nat.le_refl _
  case fecStill =>
    refine congrArg Host.Outcome.next ?_
    show s.onDev (fun d => d.fecLimit i c n) = s
    simp [State.onDev, Dev.fecLimit, hup]
  case fec =>
    have hi := i.isLt
    have hne : rFabLinkFecCorr i ≠ rFabLinkFecUncorr i ∧ rFabLinkCfg i ≠ rFabLinkFecCorr i ∧ rFabLinkCfg i ≠ rFabLinkFecUncorr i
        ∧ rFabCfg ≠ rFabLinkFecCorr i ∧ rFabCfg ≠ rFabLinkFecUncorr i ∧ rFabLinkFecCorr i ≠ rFabLinkState i ∧ rFabLinkFecCorr i ≠ rFabDown
        ∧ rFabLinkFecUncorr i ≠ rFabLinkState i ∧ rFabLinkFecUncorr i ≠ rFabDown := by
      simp only [rFabLinkFecCorr, rFabLinkFecUncorr, rFabLinkCfg, rFabCfg, rFabLinkState, rFabDown]
      omega
    generalize ha : (s.dev.addF (rFabLinkFecCorr i) fFabLinkFecCorr_Corr c).addF (rFabLinkFecUncorr i) fFabLinkFecUncorr_Uncorr n = a
    have hregs : s.dev.regsBut a [rFabLinkFecCorr i, rFabLinkFecUncorr i] := ha ▸
      ((s.dev.regsBut_refl _).after (Dev.regsBut_putF s.dev (rFabLinkFecCorr i) _ _) (by simp)).after (Dev.regsBut_putF _ _ _ _) (by simp)
    have hframe : s.dev.onlyIn a [.regs] := ha ▸ Dev.onlyIn_trans (s.dev.addF_frame _ _ _) (Dev.addF_frame _ _ _ _)
    have hcorr : s.dev.counted a (rFabLinkFecCorr i) fFabLinkFecCorr_Corr c := ha ▸
      (Dev.getF_putF_ne _ _ _ _ hne.1).trans (s.dev.addF_counted _ _ _ (by decide))
    have huncorr : s.dev.counted a (rFabLinkFecUncorr i) fFabLinkFecUncorr_Uncorr n := by
      have h := (s.dev.addF (rFabLinkFecCorr i) fFabLinkFecCorr_Corr c).addF_counted (rFabLinkFecUncorr i) fFabLinkFecUncorr_Uncorr n (by decide)
      rw [ha, Dev.counted, Dev.addF, Dev.getF_putF_ne _ _ _ _ hne.1.symm] at h
      exact h
    have hmax : a.getF (rFabLinkCfg i) fFabLinkCfg_UncorrMax = s.dev.getF (rFabLinkCfg i) fFabLinkCfg_UncorrMax :=
      congrArg (fld · fFabLinkCfg_UncorrMax) (hregs _ (by simp [hne]))
    have hexec : exec (.fecLimit i ⟨c, n⟩) s = .next { s with dev := if s.dev.getF (rFabLinkCfg i) fFabLinkCfg_UncorrMax < n then a.goDown i 2 else a } := by
      refine congrArg Host.Outcome.next ?_
      show s.onDev (fun d => d.fecLimit i c n) = _
      simp only [State.onDev, Dev.fecLimit, hup, Bool.not_true, Bool.false_eq_true, if_false, ha, hmax]
    by_cases hgo : s.dev.getF (rFabLinkCfg i) fFabLinkCfg_UncorrMax < n
    · rw [if_pos hgo] at hexec
      obtain ⟨-, -, -, ⟨-, hdregs, -⟩, -⟩ := a.goDown_goes i (reason := 2) (by decide)
      obtain ⟨hstate, hreason, hnamed, hraised⟩ := Dev.goDown_after i (reason := 2) (by decide) hregs hframe (by simp [hne])
      have hqc := (linkReg_quiet (i := i.val) (a := rFabLinkFecCorr i) (by simp)).1
      have hqu := (linkReg_quiet (i := i.val) (a := rFabLinkFecUncorr i) (by simp)).1
      have hkc : (a.goDown i 2).reg (rFabLinkFecCorr i) = a.reg (rFabLinkFecCorr i) := hdregs _ (by simpa [hne] using hqc)
      have hku : (a.goDown i 2).reg (rFabLinkFecUncorr i) = a.reg (rFabLinkFecUncorr i) := hdregs _ (by simpa [hne] using hqu)
      exact ⟨_, hexec, (congrArg (fld · fFabLinkFecCorr_Corr) hkc).trans hcorr, (congrArg (fld · fFabLinkFecUncorr_Uncorr) hku).trans huncorr,
        fun h => absurd hgo (Nat.not_lt.mpr h), fun _ => ⟨hstate, hreason, hnamed, hraised _ (by simp) (by simp)⟩⟩
    · rw [if_neg hgo] at hexec
      exact ⟨_, hexec, hcorr, huncorr, fun _ => ⟨hregs, hframe⟩, fun h => absurd h hgo⟩

end Sys2Proof.Machine
end

section
/-! # O38: accesses of BAR0 -/

namespace Sys2Proof.Machine

/-! ## Accesses of BAR0 (O38) -/

/-- A write that reaches a function with no low word held. -/
theorem State.regWrite_fresh {s : State} {f off n : Nat} {v : W64} (h : s.dev.bar0Open f off = true) (hl : tfind s.dev.heldLow f = none) :
    s.regWrite f off n v = s.freshWrite f off n v := by
  simp only [State.regWrite, h, if_true, State.bar0Write, hl]

theorem State.freshWrite_misplaced {s : State} {f off n : Nat} {v : W64} (h : (n ≠ 4 ∧ n ≠ 8) ∨ off % n ≠ 0) :
    s.freshWrite f off n v = s.onDev (fun d => d.blkErr pgHif) := by
  rw [State.freshWrite, if_pos h]

theorem State.freshWrite_unmapped {s : State} {f off : Nat} {v : W64} (hf : findReg off = none) (ha : off % 4 = 0) (hm : off < msixTable) :
    s.freshWrite f off 4 v = s := by
  have hplace : ¬ (((4 : Nat) ≠ 4 ∧ (4 : Nat) ≠ 8) ∨ off % 4 ≠ 0) := by omega
  have hmsix : ¬ (msixTable ≤ off ∧ off < msixTable + 1024) := by omega
  rw [State.freshWrite, if_neg hplace, if_neg hmsix]
  simp [hf]

theorem State.freshWrite_crossing {s : State} {f off : Nat} {r : RegRow} {v : W64} (hf : findReg off = some (r, off)) (hs : r.size = 4)
    (ha : off % 8 = 0) (hm : off < msixTable) : s.freshWrite f off 8 v = s.onDev (fun d => d.blkErr pgHif) := by
  have hplace : ¬ (((8 : Nat) ≠ 4 ∧ (8 : Nat) ≠ 8) ∨ off % 8 ≠ 0) := by omega
  have hmsix : ¬ (msixTable ≤ off ∧ off < msixTable + 1024) := by omega
  rw [State.freshWrite, if_neg hplace, if_neg hmsix]
  simp [hf, hs]

theorem State.freshWrite_low {s : State} {f off : Nat} {r : RegRow} {v : W64} (hf : findReg off = some (r, off)) (hs : r.size = 8)
    (ha : off % 8 = 0) (hm : off < msixTable) : s.freshWrite f off 4 v = s.onDev (fun d => d.holdLow f off (v.toNat % 2 ^ 32)) := by
  have hplace : ¬ (((4 : Nat) ≠ 4 ∧ (4 : Nat) ≠ 8) ∨ off % 4 ≠ 0) := by omega
  have hmsix : ¬ (msixTable ≤ off ∧ off < msixTable + 1024) := by omega
  rw [State.freshWrite, if_neg hplace, if_neg hmsix]
  simp [hf, hs]

theorem State.freshWrite_whole {s : State} {f off : Nat} {r : RegRow} {v : W64} (hf : findReg off = some (r, off)) (hs : r.size = 8)
    (ha : off % 8 = 0) (hm : off < msixTable) : s.freshWrite f off 8 v = s.atReg f off v := by
  have hplace : ¬ (((8 : Nat) ≠ 4 ∧ (8 : Nat) ≠ 8) ∨ off % 8 ≠ 0) := by omega
  have hmsix : ¬ (msixTable ≤ off ∧ off < msixTable + 1024) := by omega
  rw [State.freshWrite, if_neg hplace, if_neg hmsix]
  simp [hf, hs]

theorem tfind_tdel_self {α : Type} (t : Tab α) (k : Nat) : tfind (tdel t k) k = none := by
  have h : (tdel t k).find? (fun e => e.1 == k) = none := by
    rw [List.find?_eq_none]
    intro e he
    have hne := (List.mem_filter.mp he).2
    simpa using hne
  rw [tfind, h]

/-- The high word of a register whose low word is held writes both together (R5). -/
theorem State.regWrite_both {s : State} {f off low : Nat} {r : RegRow} {v : W64} (hopen : s.dev.bar0Open f off = true)
    (hf : findReg off = some (r, off)) (hs : r.size = 8) (ha : off % 8 = 0) (hm : off < msixTable)
    (hl : tfind s.dev.heldLow f = some (off, low)) :
    s.regWrite f (off + 4) 4 v = State.regWrite { s with dev := { s.dev with heldLow := tdel s.dev.heldLow f } } f off 8
      (BitVec.ofNat 64 (low + v.toNat % 2 ^ 32 * 2 ^ 32)) := by
  have hpage : pageOf (off + 4) = pageOf off := by
    simp only [pageOf]
    omega
  have hopen4 : s.dev.bar0Open f (off + 4) = true := by
    rw [Dev.bar0Open, hpage, ← Dev.bar0Open]
    exact hopen
  have hdropped : ({ s.dev with heldLow := tdel s.dev.heldLow f } : Dev).bar0Open f off = true := hopen
  rw [State.regWrite_fresh (s := { s with dev := { s.dev with heldLow := tdel s.dev.heldLow f } }) hdropped (tfind_tdel_self _ _),
    State.freshWrite_whole hf hs ha hm]
  simp only [State.regWrite, hopen4, if_true, State.bar0Write, hl]
  simp [State.onDev, Dev.dropLow]

/-! ### Reads -/

/-- What a read answers, and the state it leaves. -/
def State.answered (f n : Nat) (x : State × Nat) : State := x.1.onDev (fun d => d.sendOut (.readData f (leBytes n x.2) false 0))

theorem Dev.bar0Open_serves {d : Dev} {f off : Nat} (h : d.bar0Open f off = true) : d.ready = true ∧ d.fnServes f = true := by
  simp only [Dev.bar0Open, Bool.and_eq_true] at h
  exact h.1

theorem State.lowWordRead_open {s : State} {f off : Nat} (n : Nat) (h : s.dev.bar0Open f off = true) :
    s.lowWordRead f off n = State.answered f n (if n = 8 then s.wholeRead f off
      else if n = 4 then s.wordRead f off else (s.onDev (fun d => d.blkErr pgHif), 0)) := by
  obtain ⟨hr, hf⟩ := Dev.bar0Open_serves h
  simp [State.lowWordRead, h, hr, hf, State.answered]

/-- Registers stand below the MSI-X table. -/
theorem not_msix {off : Nat} (hm : off < msixTable) : ¬ (msixTable ≤ off ∧ off < msixTable + 0x1_0000) := by omega

/-- What function f reads of a register (R9, R324). -/
def State.seen (s : State) (f off : Nat) (r : RegRow) : Nat := if (s.dev.view f off).1 = true then s.regShown f off % 2 ^ (8 * r.size) else 0

theorem State.readReg_found {s : State} {f off : Nat} {r : RegRow} (hf : findReg off = some (r, off)) : s.readReg f off = s.seen f off r := by
  simp only [State.readReg, hf, State.seen]

theorem State.wordRead_low {s : State} {f off : Nat} {r : RegRow} (hf : findReg off = some (r, off)) (ha : off % 4 = 0) (hm : off < msixTable) :
    s.wordRead f off = (if isLatched off then s.onDev (fun d => { d with
        latched := tset d.latched (latchKey f off) (off, s.seen f off r / 2 ^ 32) }) else s, s.seen f off r % 2 ^ 32) := by
  simp only [State.wordRead, ha, ne_eq, not_true_eq_false, if_false, if_neg (not_msix hm), hf, State.readReg_found hf, if_true]

theorem State.wordRead_latched {s : State} {f off : Nat} {r : RegRow} {x : Nat × Nat} (hf : findReg (off + 4) = some (r, off))
    (ha : off % 8 = 0) (hm : off + 4 < msixTable) (hx : tfind s.dev.latched (latchKey f off) = some x) :
    s.wordRead f (off + 4) = (s.onDev (fun d => { d with latched := tdel d.latched (latchKey f off) }), x.2) := by
  have ha4 : (off + 4) % 4 = 0 := by omega
  simp only [State.wordRead, ha4, ne_eq, not_true_eq_false, if_false, if_neg (not_msix hm), hf, hx,
    if_neg (show ¬ off + 4 = off by omega)]

theorem State.wholeRead_found {s : State} {f off : Nat} {r : RegRow} (hf : findReg off = some (r, off)) (hs : r.size = 8)
    (ha : off % 8 = 0) (hm : off < msixTable) : s.wholeRead f off = (s, s.seen f off r) := by
  simp only [State.wholeRead, ha, ne_eq, not_true_eq_false, if_false, if_neg (not_msix hm), hf, hs, if_true, State.readReg_found hf]

theorem leBytes_zero (n : Nat) : leBytes n 0 = List.replicate n 0 := by
  induction n with
  | zero => rfl
  | succ n ih => rw [leBytes, Nat.zero_div, ih, List.replicate_succ, BitVec.ofNat_eq_ofNat]

/-- Settles O38: writes by the place and size of the access, reads by the register they find. -/
theorem registerAccessesFollowTheRules : Obligations.RegisterAccessesFollowTheRules := by
  unfold Obligations.RegisterAccessesFollowTheRules
  intro s f off hopen
  have hread : ∀ off n, s.dev.bar0Open f off = true → exec (.lowWordRead f ⟨off, n⟩) s = .next (State.answered f n
      (if n = 8 then s.wholeRead f off else if n = 4 then s.wordRead f off else (s.onDev (fun d => d.blkErr pgHif), 0))) :=
    fun off n h => congrArg Host.Outcome.next (State.lowWordRead_open n h)
  refine ⟨fun hlow => ⟨fun n v hbad => ?misplaced, fun v hf ha hm => ?unmapped, fun r v hf hs ha hm => ?crossing,
      fun r v hf hs ha hm hv => ?unseen, fun r v hf hs ha hm => ?held⟩, fun r low v hf hs ha hm _ hl => ?both, fun r hf ha hm => ?word,
    fun r x hf ha hm hopen4 hx => ?high, fun r hf hs ha hm => ?whole, fun n hbad => ?bad⟩
  case misplaced =>
    exact ⟨_, congrArg Host.Outcome.next ((State.regWrite_fresh hopen hlow).trans (State.freshWrite_misplaced hbad)), Dev.blkErr_discarded _ _⟩
  case unmapped => exact congrArg Host.Outcome.next ((State.regWrite_fresh hopen hlow).trans (State.freshWrite_unmapped hf ha hm))
  case crossing =>
    exact ⟨_, congrArg Host.Outcome.next ((State.regWrite_fresh hopen hlow).trans (State.freshWrite_crossing hf hs ha hm)), Dev.blkErr_discarded _ _⟩
  case unseen =>
    exact congrArg Host.Outcome.next ((State.regWrite_word ⟨hopen, hlow⟩ hf (by omega) ha hm).trans (State.atReg_unseen hv))
  case held => exact congrArg Host.Outcome.next ((State.regWrite_fresh hopen hlow).trans (State.freshWrite_low hf hs ha hm))
  case both => exact congrArg Host.Outcome.next (State.regWrite_both hopen hf hs ha hm hl)
  case word =>
    have hexec := hread off 4 hopen
    rw [if_neg (by decide), if_pos rfl, State.wordRead_low hf ha hm] at hexec
    cases hl : isLatched off with
    | true =>
      rw [hl] at hexec
      refine ⟨_, hexec, rfl, fun _ => ⟨tfind_tset_self _ _ _, ?_⟩, fun h => absurd h Bool.noConfusion⟩
      intro c hc
      cases c <;> first | rfl | simp at hc
    | false =>
      rw [hl] at hexec
      refine ⟨_, hexec, rfl, fun h => absurd h Bool.noConfusion, fun _ => ?_⟩
      intro c hc
      cases c <;> first | rfl | simp at hc
  case high =>
    have hexec := hread (off + 4) 4 hopen4
    rw [if_neg (by decide), if_pos rfl, State.wordRead_latched hf ha hm hx] at hexec
    refine ⟨_, hexec, rfl, tfind_tdel_self _ _, ?_⟩
    intro c hc
    cases c <;> first | rfl | simp at hc
  case whole =>
    have hexec := hread off 8 hopen
    rw [if_pos rfl, State.wholeRead_found hf hs ha hm, State.seen, hs] at hexec
    refine ⟨_, hexec, rfl, ?_⟩
    intro c hc
    cases c <;> first | rfl | simp at hc
  case bad =>
    have hexec := hread off n hopen
    have hx : (if n = 8 then s.wholeRead f off else if n = 4 then s.wordRead f off else (s.onDev (fun d => d.blkErr pgHif), 0))
        = (s.onDev (fun d => d.blkErr pgHif), 0) := by
      by_cases h8 : n = 8
      · rw [if_pos h8, State.wholeRead, if_pos (by subst h8; simpa using hbad)]
      · rw [if_neg h8]
        by_cases h4 : n = 4
        · rw [if_pos h4, State.wordRead, if_pos (by subst h4; simpa using hbad)]
        · rw [if_neg h4]
    rw [hx, State.answered, leBytes_zero] at hexec
    obtain ⟨hcount, hregs, -⟩ := s.dev.blkErr_discarded pgHif
    refine ⟨_, hexec, rfl, hcount, hregs, ?_⟩
    intro c hc
    cases c <;> first | rfl | simp at hc

end Sys2Proof.Machine
end

section
/-! # Warm resets and the pins that begin and end them -/

namespace Sys2Proof.Machine

/-! ## Registers dropped from the file -/

theorem tfind_filter {α : Type} (t : Tab α) (p : Nat → Bool) (k : Nat) :
    tfind (t.filter (fun e => p e.1)) k = if p k then tfind t k else none := by
  induction t with
  | nil => simp [tfind]
  | cons e t ih =>
    obtain ⟨k', v⟩ := e
    rw [tfind_cons, List.filter_cons]
    by_cases hk : k' = k
    · subst hk
      by_cases hp : p k' = true
      · simp [hp, tfind_cons]
      · simp only [hp, Bool.false_eq_true, if_false, ih]
    · by_cases hp : p k' = true
      · simp [hp, tfind_cons, hk, ih]
      · simp [hp, hk, ih]

theorem Dev.reg_upd_regs (d : Dev) (t : Tab W64) (a : Nat) :
    ({ d with regs := t } : Dev).reg a = (tfind t a).getD (resetOf a) := by
  simp only [Dev.reg]
  cases tfind t a <;> rfl

theorem Dev.reg_eq_getD (d : Dev) (a : Nat) : d.reg a = (tfind d.regs a).getD (resetOf a) := d.reg_upd_regs d.regs a

/-- Registers outside a dropped range stay; those in it are at their Reset column. -/
theorem Dev.reg_resetRegs (d : Dev) (lo hi a : Nat) :
    (d.resetRegs lo hi).reg a = if lo ≤ a ∧ a < hi then resetOf a else d.reg a := by
  rw [Dev.reg_eq_getD, Dev.reg_eq_getD, Dev.resetRegs, tfind_filter d.regs (fun x => !(decide (lo ≤ x) && decide (x < hi)))]
  by_cases h : lo ≤ a ∧ a < hi
  · simp [h]
  · have hk : (!(decide (lo ≤ a) && decide (a < hi))) = true := by
      rw [← Bool.decide_and, decide_eq_false h]
      rfl
    rw [if_neg h, if_pos hk]

/-! ## One register of each of several units set -/

theorem Dev.reg_foldl_setReg (at_ : Nat → Nat) (v : W64) (ns : List Nat) (d : Dev) (a : Nat) :
    (ns.foldl (fun d n => d.setReg (at_ n) v) d).reg a = if a ∈ ns.map at_ then v else d.reg a := by
  induction ns generalizing d with
  | nil => rfl
  | cons n ns ih =>
    rw [List.foldl_cons, ih, Dev.reg_setReg]
    by_cases h1 : a ∈ ns.map at_ <;> by_cases h2 : a = at_ n <;> simp [h1, h2]

/-! ## Everything stops (13 R390 to R392, 15 R433) -/

theorem Dev.freed_frame (d : Dev) : d.onlyIn { d with free := d.free + 1 } [.free] := by
  intro c hc
  cases c <;> first | rfl | simp at hc

theorem Dev.settleBuffer_frame (d : Dev) (k : Nat) : d.onlyIn (d.settleBuffer k) engineComps := by
  unfold Dev.settleBuffer
  refine Dev.onlyIn_trans (Dev.onlyIn_sub engineComps (d.modSect_frame _ _) (by decide)) (Dev.onlyIn_foldl _ (fun e g => ?_) _ _)
  exact Dev.onlyIn_trans (Dev.onlyIn_sub engineComps e.freed_frame (by decide))
    (Dev.onlyIn_foldl (fun (e : Dev) (w : PWrite) => e.writeHome { w with cmd := none })
      (fun e w => Dev.onlyIn_sub engineComps (Dev.writeHome_frame e _).1 (by decide)) _ _)

/-- A sector without buffered writes settles nothing. -/
theorem Dev.settleBuffer_empty {d : Dev} {k : Nat} (h : d.wbuf k = []) :
    d.settleBuffer k = d.modSect k (fun s => { s with wbuf := [] }) := by
  simp [Dev.settleBuffer, h]

theorem Dev.wbuf_modSect_empty {d : Dev} (h : d.buffersEmpty) (k : Nat) :
    (d.modSect k (fun s => { s with wbuf := [] })).buffersEmpty := by
  intro j
  rw [Dev.wbuf, Dev.modSect_sect]
  by_cases hj : j = k
  · rw [hj, tget_tmod_self]
  · rw [tget_tmod_ne _ _ _ hj]
    exact h j

theorem Dev.settle_empty_frame {d : Dev} (h : d.buffersEmpty) (ks : List Nat) :
    d.onlyIn (ks.foldl (fun d k => d.settleBuffer k) d) [.sect] := by
  induction ks generalizing d with
  | nil => exact d.onlyIn_refl _
  | cons k ks ih =>
    rw [List.foldl_cons, Dev.settleBuffer_empty (h k)]
    exact Dev.onlyIn_trans (d.modSect_frame _ _) (ih (Dev.wbuf_modSect_empty h k))

/-- The parts that the end of every job may change. -/
abbrev stopComps : List Comp :=
  [.regs, .hif, .gan, .cs, .stk, .upsets, .tram, .sram, .slots, .host, .cq, .tiles, .sect, .free, .henOps, .srv]

/-- What the end of every job leaves of a device whose buffers have settled. -/
def Dev.jobless (d : Dev) : Dev :=
  { d with
    cq := { d.cq with storage := [], stamps := [], checked := [], fetched := [], turns := [], cmds := [], ready := [], modCount := [], modStart := [] }
    tiles := [], henOps := [], hif := { d.hif with reads := [], bar4 := [] }, srv := {} }

theorem Dev.stopAll_eq (d : Dev) : d.stopAll = ((List.range 6).foldl (fun d k => d.settleBuffer k) d).jobless := by
  unfold Dev.stopAll
  generalize (List.range 6).foldl (fun d k => d.settleBuffer k) d = e
  rfl

theorem Dev.jobless_frame (d : Dev) : d.onlyIn d.jobless [.cq, .tiles, .henOps, .hif, .srv] := by
  intro c hc
  cases c <;> first | rfl | simp at hc

theorem Dev.stopAll_frame (d : Dev) : d.onlyIn d.stopAll stopComps := by
  rw [Dev.stopAll_eq]
  exact Dev.onlyIn.after (Dev.onlyIn_sub stopComps (Dev.onlyIn_foldl _ (fun e k => e.settleBuffer_frame k) _ d) (by decide))
    (Dev.jobless_frame _) (by decide)

/-- With every buffer empty the stacks, host memory, registers and the gander stay. -/
theorem Dev.stopAll_empty_frame {d : Dev} (h : d.buffersEmpty) : d.onlyIn d.stopAll [.sect, .cq, .tiles, .henOps, .hif, .srv] := by
  rw [Dev.stopAll_eq]
  exact Dev.onlyIn.after (Dev.onlyIn_sub _ (Dev.settle_empty_frame h _) (by decide)) (Dev.jobless_frame _) (by decide)


/-- No job is left: no command, no record, no tile at work, no hen operation, no request. -/
theorem Dev.stopAll_jobless (d : Dev) : d.stopAll.cq.cmds = [] ∧ d.stopAll.cq.storage = [] ∧ d.stopAll.cq.ready = []
    ∧ d.stopAll.tiles = [] ∧ d.stopAll.henOps = [] ∧ d.stopAll.srv = {} := by
  rw [Dev.stopAll_eq]
  exact ⟨rfl, rfl, rfl, rfl, rfl, rfl⟩

/-! ## What a warm reset leaves (15 R431 to R433) -/

/-- What a warm reset takes of a device whose engines have stopped, before it marks the reset. -/
def Dev.warmCleared (d : Dev) : Dev :=
  { d with
    regs := d.warmRegs, latched := [], heldLow := [], tram := {}, sram := {}, slots := {}, sect := [], parts := [],
    layoutOn := [], fab := { hadParent := d.fab.hadParent, rootHeard := d.time, lowerHeard := d.time },
    cs := d.cs.map (fun (e : Nat × Stack) => (e.1, ({ retired := e.2.retired, unclear := e.2.unclear } : Stack)))
    ras := { d.ras with pendingOos := [] }
    hif := { d.hif with
      phase := .waitRails, warm := true, fns := [], vecs := [], vfEnable := false, numVfs := 0, bar4Log2 := 40,
      maxPayload := 128, maxReadReq := 512, cplRange := 0, buckets := [], ideKeys := [] }
    pwr := { d.pwr with entering := none, wakeWaits := 0 } }

/-- What is left of the other parts, whatever the registers and the host interface show then. -/
theorem Dev.warmCleared_parts {d e : Dev} (h : d.warmCleared.onlyIn e [.regs, .hif]) :
    e.cq = d.cq ∧ e.tiles = d.tiles ∧ e.henOps = d.henOps ∧ e.srv = d.srv ∧ e.sect = [] ∧ e.parts = [] ∧ e.tram = {} ∧ e.sram = {}
      ∧ e.slots = {} ∧ e.time = d.time ∧ e.stk = d.stk ∧ e.host = d.host ∧ e.gan = d.gan ∧ e.ras.units = d.ras.units :=
  ⟨h .cq rfl, h .tiles rfl, h .henOps rfl, h .srv rfl, h .sect rfl, h .parts rfl, h .tram rfl, h .sram rfl, h .slots rfl, h .time rfl,
    h .stk rfl, h .host rfl, h .gan rfl, (congrArg Ras.units (show e.ras = d.warmCleared.ras from h .ras rfl)).trans rfl⟩

/-- The registers that say that and why a device was reset. -/
def Dev.warmMarked (d : Dev) (last warm : Nat) : Dev :=
  (List.range 12).foldl (fun d n => d.setReg (rCsState n) (BitVec.ofNat 64 (atBit 3 1)))
    (((d.setPstate 0).setReg rHifReset (BitVec.ofNat 64 (last + atBit 16 warm))).putF rDevStatus fDevStatus_Ready 0)

/-- A warm reset before it says that the power state changed. -/
def Dev.warmBody (d : Dev) (last : Nat) : Dev :=
  d.stopAll.warmCleared.warmMarked last (satAdd 16 (d.getF rHifReset fHifReset_Warm) 1)

theorem Dev.warmReset_eq (d : Dev) (last : Nat) :
    d.warmReset last = if d.pstate = 0 then d.warmBody last else (d.warmBody last).raise pgPwr 1 := by
  unfold Dev.warmReset Dev.warmBody
  generalize d.stopAll = e
  rfl

theorem Dev.warmMarked_frame (d : Dev) (last warm : Nat) : d.onlyIn (d.warmMarked last warm) [.regs] :=
  Dev.onlyIn_trans (Dev.onlyIn_trans (Dev.onlyIn_trans (d.putF_frame _ _ _) (Dev.setReg_frame _ _ _)) (Dev.putF_frame _ _ _ _))
    (Dev.onlyIn_foldl _ (fun e _ => e.setReg_frame _ _) _ _)

/-- While no function has vectors enabled an event sends no message. -/
theorem Dev.sendMsg_unset {d : Dev} (h : d.hif.fns = []) (fv : Nat × Nat) : d.sendMsg fv = d := by
  have hf : (d.fn fv.1).msixEnable = false := by rw [Dev.fn, h]; rfl
  unfold Dev.sendMsg
  simp [hf]

theorem Dev.raise_unset {d : Dev} (h : d.hif.fns = []) (page bits : Nat) :
    d.raise page bits = d.modReg (rBlkIntStat page) (· ||| BitVec.ofNat 64 bits) := by
  have hs : ∀ (ls : List (Nat × Nat)) (e : Dev), e.hif.fns = [] → ls.foldl Dev.sendMsg e = e := by
    intro ls e he
    induction ls with
    | nil => rfl
    | cons l ls ih => rw [List.foldl_cons, Dev.sendMsg_unset he, ih]
  exact hs _ _ h

theorem Dev.warmBody_fns (d : Dev) (last : Nat) : (d.warmBody last).hif.fns = [] := by
  have hh : (d.warmBody last).hif = d.stopAll.warmCleared.hif := Dev.warmMarked_frame _ _ _ .hif rfl
  rw [hh]
  rfl

/-- A warm reset leaves what its plain part leaves, but for the event of the power page. -/
theorem Dev.warmReset_frame (d : Dev) (last : Nat) : (d.warmBody last).onlyIn (d.warmReset last) [.regs] := by
  rw [Dev.warmReset_eq]
  split
  · exact Dev.onlyIn_refl _ _
  · rw [Dev.raise_unset (d.warmBody_fns last)]
    exact Dev.modReg_frame _ _ _

theorem Dev.warmReset_regsBut (d : Dev) (last : Nat) : (d.warmBody last).regsBut (d.warmReset last) [rBlkIntStat pgPwr] := by
  rw [Dev.warmReset_eq]
  split
  · exact Dev.regsBut_refl _ _
  · rw [Dev.raise_unset (d.warmBody_fns last)]
    exact Dev.regsBut_setReg _ _ _

/-! ### Its registers -/

/-- The registers of a retired link that a warm reset writes. -/
def Dev.retiredLink (d : Dev) (t : Tab W64) (i : Nat) : Tab W64 :=
  tset (tset t (rFabLinkState i) 5) (rFabLinkCtrl i) (d.reg (rFabLinkCtrl i) &&& 4)

theorem Dev.retiredLinks_other (d : Dev) {a : Nat} (is : List Nat) (h : ∀ i ∈ is, a ≠ rFabLinkState i ∧ a ≠ rFabLinkCtrl i) (t : Tab W64) :
    tfind (is.foldl d.retiredLink t) a = tfind t a := by
  induction is generalizing t with
  | nil => rfl
  | cons i is ih =>
    obtain ⟨hs, hc⟩ := h i List.mem_cons_self
    rw [List.foldl_cons, ih (fun j hj => h j (List.mem_cons_of_mem _ hj)), Dev.retiredLink, tfind_tset_ne _ _ hc, tfind_tset_ne _ _ hs]

theorem Dev.retiredLinks_state (d : Dev) (i : Nat) (is : List Nat) (t : Tab W64) :
    tfind (is.foldl d.retiredLink t) (rFabLinkState i) = if i ∈ is then some 5 else tfind t (rFabLinkState i) := by
  have hne : ∀ j, rFabLinkState i ≠ rFabLinkCtrl j := fun j => by unfold rFabLinkState rFabLinkCtrl; omega
  induction is generalizing t with
  | nil => rfl
  | cons j is ih =>
    rw [List.foldl_cons, ih, Dev.retiredLink, tfind_tset_ne _ _ (hne j)]
    by_cases hj : i = j
    · subst hj
      simp
    · have hs : rFabLinkState i ≠ rFabLinkState j := fun h => hj (by unfold rFabLinkState at h; omega)
      rw [tfind_tset_ne _ _ hs]
      simp [hj]

theorem Dev.warmRegs_eq (d : Dev) : d.warmRegs
    = ((List.range 96).filter (fun i => d.linkState i == 5)).foldl d.retiredLink (d.regs.filter (fun e => keptWarm e.1)) := rfl

/-- What a warm reset does not keep is at its Reset column, the registers of retired links apart. -/
theorem Dev.warmRegs_reset (d : Dev) {a : Nat} (hk : keptWarm a = false)
    (hl : ∀ i : Nat, i < 96 → a ≠ rFabLinkState i ∧ a ≠ rFabLinkCtrl i) : tfind d.warmRegs a = none := by
  rw [Dev.warmRegs_eq, Dev.retiredLinks_other d _ fun i hi => hl i (List.mem_range.mp (List.mem_filter.mp hi).1), tfind_filter]
  simp [hk]

theorem keptWarm_linkState : ∀ i : Nat, i < 96 → keptWarm (rFabLinkState i) = false := by decide +kernel

theorem resetOf_linkState : ∀ i : Nat, i < 96 → resetOf (rFabLinkState i) = 0 := by decide +kernel

theorem Dev.warmRegs_linkState (d : Dev) {i : Nat} (hi : i < 96) :
    (tfind d.warmRegs (rFabLinkState i)).getD (resetOf (rFabLinkState i)) = if d.linkState i = 5 then 5 else 0 := by
  rw [Dev.warmRegs_eq, Dev.retiredLinks_state, tfind_filter, keptWarm_linkState i hi]
  by_cases h : d.linkState i = 5
  · simp [h, hi]
  · simp [h, resetOf_linkState i hi]

theorem Dev.warmMarked_reg (d : Dev) (last warm a : Nat) (h : ∀ n : Nat, n < 12 → a ≠ rCsState n) :
    (d.warmMarked last warm).reg a
      = (((d.setPstate 0).setReg rHifReset (BitVec.ofNat 64 (last + atBit 16 warm))).putF rDevStatus fDevStatus_Ready 0).reg a := by
  have hm : a ∉ (List.range 12).map rCsState := by
    intro hm
    obtain ⟨n, hn, rfl⟩ := List.mem_map.mp hm
    exact h n (List.mem_range.mp hn) rfl
  rw [Dev.warmMarked, Dev.reg_foldl_setReg rCsState, if_neg hm]

theorem Dev.warmMarked_stack (d : Dev) (last warm n : Nat) (h : n < 12) :
    (d.warmMarked last warm).reg (rCsState n) = BitVec.ofNat 64 (atBit 3 1) := by
  rw [Dev.warmMarked, Dev.reg_foldl_setReg rCsState, if_pos (List.mem_map_of_mem (List.mem_range.mpr h))]

/-- Registers that no mark of a warm reset stands in: those kept as they were, the others as the links leave them. -/
theorem Dev.warmBody_reg (d : Dev) (last a : Nat) (hs : ∀ n : Nat, n < 12 → a ≠ rCsState n) (hd : a ≠ rDevStatus) (hr : a ≠ rHifReset)
    (hp : a ≠ rPwrState) : (d.warmBody last).reg a = (tfind d.stopAll.warmRegs a).getD (resetOf a) := by
  rw [Dev.warmBody, Dev.warmMarked_reg _ _ _ _ hs, Dev.reg_putF_ne _ _ _ hd, Dev.reg_setReg_ne _ _ hr, Dev.setPstate,
    Dev.reg_putF_ne _ _ _ hp, Dev.reg_eq_getD]
  generalize d.stopAll = e
  rfl

theorem Dev.warmBody_reset (d : Dev) (last : Nat) {a : Nat} (hk : keptWarm a = false) (hr : a ≠ rHifReset)
    (hs : ∀ n : Nat, n < 12 → a ≠ rCsState n) (hl : ∀ i : Nat, i < 96 → a ≠ rFabLinkState i ∧ a ≠ rFabLinkCtrl i) :
    (d.warmBody last).reg a = resetOf a := by
  have hd : a ≠ rDevStatus := by
    rintro rfl
    exact absurd hk (by decide)
  have hp : a ≠ rPwrState := by
    rintro rfl
    exact absurd hk (by decide)
  rw [d.warmBody_reg last a hs hd hr hp, Dev.warmRegs_reset _ hk hl, Option.getD_none]

theorem Dev.warmBody_linkState (d : Dev) (last : Nat) {i : Nat} (hi : i < 96) :
    (d.warmBody last).linkState i = if d.stopAll.linkState i = 5 then 5 else 0 := by
  have hr : (d.warmBody last).reg (rFabLinkState i) = if d.stopAll.linkState i = 5 then 5 else 0 := by
    rw [d.warmBody_reg last, Dev.warmRegs_linkState _ hi]
    · intro n hn
      unfold rFabLinkState rCsState
      omega
    all_goals
      simp only [rFabLinkState, rDevStatus, rHifReset, rPwrState, ne_eq]
      omega
  rw [Dev.linkState, Dev.getF, hr]
  split <;> decide

theorem Dev.warmBody_hifReset (d : Dev) (last : Nat) :
    (d.warmBody last).reg rHifReset = BitVec.ofNat 64 (last + atBit 16 (satAdd 16 (d.getF rHifReset fHifReset_Warm) 1)) := by
  have hs : ∀ n : Nat, n < 12 → rHifReset ≠ rCsState n := fun n _ => by
    simp only [rHifReset, rCsState, ne_eq]
    omega
  rw [Dev.warmBody, Dev.warmMarked_reg _ _ _ _ hs, Dev.reg_putF_ne _ _ _ (by decide), Dev.reg_setReg_self]

theorem Dev.warmBody_pstate (d : Dev) (last : Nat) : (d.warmBody last).pstate = 0 := by
  have hs : ∀ n : Nat, n < 12 → rPwrState ≠ rCsState n := fun n _ => by
    simp only [rPwrState, rCsState, ne_eq]
    omega
  rw [Dev.pstate, Dev.getF, Dev.warmBody, Dev.warmMarked_reg _ _ _ _ hs, Dev.reg_putF_ne _ _ _ (by decide), Dev.reg_setReg_ne _ _ (by decide)]
  exact Dev.getF_putF_self _ _ _ _ (by decide)

/-- The fields of HIF_RESET that a warm reset writes. -/
theorem hifReset_word {last warm : Nat} (hl : last < 8) (hw : warm < 2 ^ 16) :
    fld (BitVec.ofNat 64 (last + atBit 16 warm)) fHifReset_Last = last
      ∧ fld (BitVec.ofNat 64 (last + atBit 16 warm)) fHifReset_Ready = 0
      ∧ fld (BitVec.ofNat 64 (last + atBit 16 warm)) fHifReset_Warm = warm := by
  have h : last + atBit 16 warm < 2 ^ 32 := by
    simp only [atBit, Nat.shiftLeft_eq]
    omega
  simp only [fld, bitsOf_ofNat h (show 32 ≤ 64 by decide), fHifReset_Last, fHifReset_Ready, fHifReset_Warm]
  simp only [atBit, Nat.shiftRight_eq_div_pow, Nat.shiftLeft_eq]
  omega

/-! ### The whole of it -/

/-- A warm reset has begun, whatever else changed of the link and of the event of the power page. -/
theorem State.warmed_of {s t : State} {last : Nat} (hl : last < 8) (hp : t.pads = s.pads.warm) (hi : t.ident = s.ident)
    (hq : t.pending = s.pending) (hf : (s.dev.warmBody last).onlyIn t.dev [.regs, .hif])
    (hr : (s.dev.warmBody last).regsBut t.dev [rBlkIntStat pgPwr])
    (hh : t.dev.hif.reads = [] ∧ t.dev.hif.vfEnable = false ∧ t.dev.hif.fns = [] ∧ t.dev.hif.phase = .waitRails ∧ t.dev.hif.warm = true) :
    s.warmed t last := by
  obtain ⟨h1, h2, h3, h4, h5⟩ := hh
  obtain ⟨hcq, htiles, hhen, hsrv, hsect, hparts, htram, hsram, hslots, htime, hstk', hhost, hgan, hras⟩ :=
    Dev.warmCleared_parts (Dev.onlyIn_trans (Dev.onlyIn_sub [.regs, .hif] (Dev.warmMarked_frame _ _ _) rfl) hf)
  obtain ⟨j1, j2, j3, j4, j5, j6⟩ := s.dev.stopAll_jobless
  have hw : s.dev.getF rHifReset fHifReset_Warm + 1 < 2 ^ 17 := by
    have := fld_lt (s.dev.reg rHifReset) fHifReset_Warm
    simp only [Dev.getF, fHifReset_Warm] at this ⊢
    omega
  obtain ⟨hlast, hready, hwarm⟩ := hifReset_word (warm := satAdd 16 (s.dev.getF rHifReset fHifReset_Warm) 1) hl
    (by simp only [satAdd]; omega)
  have hreset : t.dev.reg rHifReset = _ := (hr rHifReset (by decide)).trans (s.dev.warmBody_hifReset last)
  have hstk : ∀ n : Nat, n < 12 → t.dev.reg (rCsState n) = BitVec.ofNat 64 (atBit 3 1) := fun n hn =>
    (hr (rCsState n) (by simp [rCsState, rBlkIntStat, pgPwr]; omega)).trans (Dev.warmMarked_stack _ _ _ n hn)
  unfold State.warmed
  have htime' : s.dev.stopAll.time = s.dev.time := s.dev.stopAll_frame .time rfl
  rw [← hcq] at j1 j2 j3
  refine ⟨hp, hi, hq, htime.trans htime', j1, j2, j3, htiles.trans j4, hhen.trans j5,
    hsrv.trans j6, hsect, hparts, htram, hsram, hslots, h1, h2, h3, h4, h5, ?_, ?_, ?_, ?_, fun n hn => ?_, fun a hk hne hs hls => ?_, fun he => ?_⟩
  · exact (Dev.getF_of_regsBut hr (by decide) _).trans (s.dev.warmBody_pstate last)
  · rw [Dev.getF, hreset, hready]
  · rw [Dev.getF, hreset, hlast]
  · show Dev.getF _ _ _ = _
    rw [Dev.getF, hreset, hwarm, satAdd, Nat.min_comm]
    rfl
  · rw [Dev.getF, Dev.getF, hstk n hn]
    decide
  · have ha : a ≠ rBlkIntStat pgPwr := by
      rintro rfl
      exact absurd hk (by decide)
    rw [hr a (by simpa using ha), s.dev.warmBody_reset last hk hne hs hls]
  · have hst := Dev.stopAll_empty_frame he
    refine ⟨hstk'.trans (hst .stk rfl), hhost.trans (hst .host rfl), ?_, hgan.trans (hst .gan rfl), fun i hi => ?_⟩
    · have hsame : s.dev.stopAll.ras = s.dev.ras := hst .ras rfl
      rw [hras, hsame]
    · have hne : [rBlkIntStat pgPwr].contains (rFabLinkState i) = false := by
        simp [rFabLinkState, rBlkIntStat, pgPwr]
        omega
      rw [Dev.linkState, Dev.getF_of_regsBut hr hne]
      exact (s.dev.warmBody_linkState last hi).trans (by rw [Dev.linkState, Dev.getF, Dev.reg_congr (hst .regs rfl)]; rfl)

theorem State.warmReset_eq {s : State} (h : s.dev.resettable = true) (last : Nat) :
    s.warmReset last = { s with pads := s.pads.warm, dev := s.dev.warmReset last } := by
  rw [State.warmReset, if_pos h]

/-- The host interface that a warm reset leaves. -/
theorem Dev.warmReset_hif (d : Dev) (last : Nat) :
    (d.warmReset last).hif.reads = [] ∧ (d.warmReset last).hif.vfEnable = false ∧ (d.warmReset last).hif.fns = []
      ∧ (d.warmReset last).hif.phase = .waitRails ∧ (d.warmReset last).hif.warm = true := by
  have h1 : (d.warmReset last).hif = (d.warmBody last).hif := by
    rw [Dev.warmReset_eq]
    split
    · rfl
    · rw [Dev.raise_unset (d.warmBody_fns last), Dev.modReg_hif]
  have h2 : (d.warmBody last).hif = d.stopAll.warmCleared.hif := Dev.warmMarked_frame _ _ _ .hif rfl
  rw [h1, h2, Dev.stopAll_eq]
  exact ⟨rfl, rfl, rfl, rfl, rfl⟩

/-- A warm reset of a running device begins (R431 to R433). -/
theorem State.warmReset_warmed {s : State} (h : s.dev.resettable = true) {last : Nat} (hl : last < 8) : s.warmed (s.warmReset last) last := by
  rw [State.warmReset_eq h]
  exact State.warmed_of hl rfl rfl rfl (Dev.onlyIn_sub _ (s.dev.warmReset_frame last) rfl) (s.dev.warmReset_regsBut last)
    (s.dev.warmReset_hif last)

/-! ## PERST_N (15 R433, R434) -/

/-- The pin falls: the link is down. -/
def Dev.perstLow (d : Dev) : Dev := (d.setReg rHifLink 0).onHif (fun h => { h with perstN := false, perstFellAt := d.time })

theorem State.perstFalls_eq {s : State} (h : s.dev.hif.perstN = true) (last : State) (hw : s.warmReset 1 = last) :
    s.perstFalls = last.onDev Dev.perstLow := by
  subst hw
  rw [State.perstFalls, h]
  rfl

theorem Dev.perstLow_link (d : Dev) : d.perstLow.linkIsUp = false := by
  have h : d.perstLow.getF rHifLink fHifLink_State = 0 := by
    rw [Dev.getF, Dev.perstLow, Dev.onHif_reg, Dev.reg_setReg_self]
    decide
  rw [Dev.linkIsUp, h]
  rfl

theorem resetOf_hifLink : resetOf rHifLink = 0 := by decide +kernel

/-- PERST_N falling begins a warm reset of a running device, its link down besides. -/
theorem State.perstFalls_warmed {s : State} (hr : s.dev.resettable = true) : s.warmed ((s.warmReset 1).onDev Dev.perstLow) 1 := by
  obtain ⟨h1, h2, h3, h4, h5⟩ := s.dev.warmReset_hif 1
  rw [State.warmReset_eq hr]
  refine State.warmed_of (by decide) rfl rfl rfl ?_ ?_ ⟨h1, h2, h3, h4, h5⟩
  · refine Dev.onlyIn.after (Dev.onlyIn_sub [.regs, .hif] (s.dev.warmReset_frame 1) rfl) (ds := [.regs, .hif]) ?_ rfl
    exact Dev.onlyIn.after (Dev.onlyIn_sub [.regs, .hif] (Dev.setReg_frame _ _ _) rfl) (Dev.onHif_frame _ _) rfl
  · intro a ha
    show ((s.dev.warmReset 1).setReg rHifLink 0).reg a = _
    by_cases hl : a = rHifLink
    · subst hl
      rw [Dev.reg_setReg_self, Dev.warmBody_reset _ _ (by decide) (by decide), resetOf_hifLink]
      · intro n _
        simp only [rHifLink, rCsState, ne_eq]
        omega
      · intro i _
        simp only [rHifLink, rFabLinkState, rFabLinkCtrl, ne_eq]
        omega
    · rw [Dev.reg_setReg_ne _ _ hl, s.dev.warmReset_regsBut 1 a ha]

/-- The time PERST_N fell is the time of the reset. -/
theorem Dev.warmReset_time (d : Dev) (last : Nat) : (d.warmReset last).time = d.time := by
  have h1 : (d.warmReset last).time = (d.warmBody last).time := d.warmReset_frame last .time rfl
  have h2 : (d.warmBody last).time = d.stopAll.warmCleared.time := Dev.warmMarked_frame _ _ _ .time rfl
  have h3 : d.stopAll.time = d.time := d.stopAll_frame .time rfl
  rw [h1, h2, ← h3]
  generalize d.stopAll = e
  rfl

/-- PERST_N rising begins the training of the link or restarts the gander, or does nothing but rise (R434, R435). -/
theorem Dev.hostLinkTrains_linkTrains (d : Dev) : d.linkTrains d.hostLinkTrains := by
  unfold Dev.linkTrains Dev.hostLinkTrains
  constructor
  · intro hgo
    rw [if_pos hgo]
    exact ⟨Dev.getF_putF_self _ _ _ _ (by decide), d.regsBut_putF _ _ _, d.putF_frame _ _ _⟩
  · intro hgo
    rw [if_neg hgo]

theorem State.booted_of_onDev {s t : State} {last : Nat} {f : Dev → Dev} (hg : (f s.dev).gan = s.dev.gan) (hh : (f s.dev).host = s.dev.host)
    (h : (s.onDev f).booted t last) : s.booted t last := by
  unfold State.booted at h ⊢
  have e1 : (s.onDev f).dev.gan = s.dev.gan := hg
  have e2 : (s.onDev f).dev.host = s.dev.host := hh
  rw [e1, e2] at h
  exact h

theorem State.warmEnd_boots {s : State} (hw : s.dev.hif.warm = true) (ha : s.dev.getF rMgmtStatus fMgmtStatus_ActPending = 1) :
    s.warmEnd = s.boot 4 := by
  rw [State.warmEnd, if_pos ⟨hw, ha⟩]

theorem State.warmEnd_trains {s : State} (h : ¬ (s.dev.hif.warm = true ∧ s.dev.getF rMgmtStatus fMgmtStatus_ActPending = 1)) :
    s.warmEnd = s.onDev Dev.hostLinkTrains := by
  rw [State.warmEnd, if_neg h]

/-- A hot reset or DL_Down (R431, R433). -/
theorem State.linkReset_acts {β : Type} (ans : State → β) (s : State) {last : Nat} (hl : last < 8) :
    (s.dev.linkIsUp = false ∨ s.dev.resettable = false → ans (s.linkReset last) = ans s)
    ∧ (s.dev.linkIsUp = true → s.dev.resettable = true → ∃ w : State, s.warmed w last
      ∧ (w.dev.getF rMgmtStatus fMgmtStatus_ActPending = 0 → ∃ e : Dev, ans (s.linkReset last) = ans { w with dev := e } ∧ w.dev.linkTrains e)
      ∧ (w.dev.getF rMgmtStatus fMgmtStatus_ActPending = 1 → ∃ t : State, ans (s.linkReset last) = ans t ∧ w.booted t 4)) := by
  refine ⟨fun h => ?_, fun hu hr => ⟨s.warmReset last, State.warmReset_warmed hr hl, fun ha => ?_, fun ha => ?_⟩⟩
  · rw [State.linkReset, if_neg]
    rintro ⟨hu, hr⟩
    simp [hu, hr] at h
  · refine ⟨(s.warmReset last).dev.hostLinkTrains, ?_, Dev.hostLinkTrains_linkTrains _⟩
    rw [State.linkReset, if_pos ⟨hu, hr⟩, State.warmEnd_trains (fun h => by simp [ha] at h)]
    rfl
  · have hw : (s.warmReset last).dev.hif.warm = true := by
      rw [State.warmReset_eq hr]
      exact (s.dev.warmReset_hif last).2.2.2.2
    refine ⟨(s.warmReset last).boot 4, ?_, State.boot_booted _ (by decide)⟩
    rw [State.linkReset, if_pos ⟨hu, hr⟩, State.warmEnd_boots hw ha]

/-- PERST_N after it rose. -/
def Dev.perstHigh (d : Dev) : Dev := d.onHif (fun h => { h with perstN := true })

theorem State.perstRises_off {s : State} (hp : s.dev.hif.perstN = false) (hoff : s.dev.pstate = 6 ∨ s.dev.pstate = 7) :
    s.perstRises = if s.dev.hif.railsGood = true ∧ (s.dev.gan.up = false ∨ s.dev.hif.perstFellAt + 10000000 ≤ s.dev.time)
      then (s.onDev Dev.perstHigh).boot 4 else s.onDev Dev.perstHigh := by
  rw [State.perstRises, if_neg (by simp [hp])]
  exact if_pos hoff

theorem State.perstRises_on {s : State} (hp : s.dev.hif.perstN = false) (hoff : ¬ (s.dev.pstate = 6 ∨ s.dev.pstate = 7)) :
    s.perstRises = (s.onDev Dev.perstHigh).warmEnd := by
  rw [State.perstRises, if_neg (by simp [hp])]
  exact if_neg hoff

/-- Settles O43: a warm reset's registers and parts one by one, then each pin and link event by its own branch. -/
theorem hostResetsAct : Obligations.HostResetsAct := by
  refine ⟨fun s => ⟨fun hp => ?_, fun hp hr => ?_, fun hp hr => ?_⟩, fun row hrow s => ?_, fun s => ⟨fun hp => ?_, fun hp hb hoff => ?_, fun hp hb hoff => ?_, fun hp hb => ?_⟩⟩
  · show Host.Outcome.next s.perstFalls = _
    rw [State.perstFalls, hp]
    rfl
  · show Host.Outcome.next s.perstFalls = _
    rw [State.perstFalls_eq hp s (by rw [State.warmReset, hr]; rfl)]
    rfl
  · refine ⟨(s.warmReset 1).onDev Dev.perstLow, congrArg _ (State.perstFalls_eq hp _ rfl), State.perstFalls_warmed hr, rfl, ?_, Dev.perstLow_link _⟩
    rw [State.warmReset_eq hr]
    exact s.dev.warmReset_time 1
  · simp only [List.mem_cons, List.not_mem_nil, or_false] at hrow
    rcases hrow with rfl | rfl
    · exact s.linkReset_acts Host.Outcome.next (by decide)
    · exact s.linkReset_acts Host.Outcome.next (by decide)
  · show Host.Outcome.next s.perstRises = _
    rw [State.perstRises, if_pos hp]
  · show Host.Outcome.next s.perstRises = _
    rw [State.perstRises_off hp hoff, if_neg fun h => hb (.inl ⟨hoff, h⟩)]
    rfl
  · refine ⟨(s.onDev Dev.perstHigh).dev.hostLinkTrains, ?_, Dev.hostLinkTrains_linkTrains _⟩
    show Host.Outcome.next s.perstRises = _
    rw [State.perstRises_on hp hoff, State.warmEnd_trains (s := s.onDev Dev.perstHigh) fun h => hb (.inr ⟨hoff, h⟩)]
    rfl
  · refine ⟨(s.onDev Dev.perstHigh).boot 4, ?_, State.booted_of_onDev rfl rfl (State.boot_booted _ (by decide))⟩
    show Host.Outcome.next s.perstRises = _
    rcases hb with ⟨hoff, h⟩ | ⟨hoff, hw, ha⟩
    · rw [State.perstRises_off hp hoff, if_pos h]
    · rw [State.perstRises_on hp hoff, State.warmEnd_boots (s := s.onDev Dev.perstHigh) hw ha]

end Sys2Proof.Machine
end

section
/-! # Parts of a device that operations may change -/

namespace Sys2Proof.Machine

/-- The parts `cs` are among the parts `C`. -/
abbrev among (cs C : List Comp) : Prop := cs.all (fun c => C.contains c) = true

/-- The parts that reading an element may change. -/
abbrev elemComps : List Comp := [.regs, .stk, .tram, .sram, .cs, .gan, .hif, .upsets, .free]

theorem among.sub {s cs C : List Comp} (h : among cs C) (k : among s cs := by rfl) : among s C := by
  rw [among, List.all_eq_true] at *
  intro c hc
  exact h c (by simpa using k c hc)

namespace Dev.onlyIn
variable {d₀ d e : Dev} {C : List Comp}

theorem into {cs : List Comp} (h : d₀.onlyIn d C) (hs : among cs C) (k : ∀ b : Dev, b.onlyIn d cs → b.onlyIn e cs) : d₀.onlyIn e C :=
  Dev.onlyIn_trans h (Dev.onlyIn_sub C (k d (d.onlyIn_refl cs)) hs)

theorem ite {a b : Dev} {c : Prop} [Decidable c] (ha : d₀.onlyIn a C) (hb : d₀.onlyIn b C) : d₀.onlyIn (if c then a else b) C := by
  split
  · exact ha
  · exact hb

theorem ite1 {α : Type} {a b : Dev × α} {c : Prop} [Decidable c] (ha : d₀.onlyIn a.1 C) (hb : d₀.onlyIn b.1 C) :
    d₀.onlyIn (if c then a else b).1 C := by
  split
  · exact ha
  · exact hb

theorem fst {α : Type} {x : Dev × α} {r : α} (hx : x = (d, r)) (h : d₀.onlyIn x.1 C) : d₀.onlyIn d C := by
  subst hx
  exact h

theorem foldl {α : Type} {f : Dev → α → Dev} {l : List α} (h : d₀.onlyIn d C) (hf : ∀ d a, d₀.onlyIn d C → d₀.onlyIn (f d a) C) :
    d₀.onlyIn (l.foldl f d) C := List.foldlRecOn (motive := fun e => d₀.onlyIn e C) l f h fun d h a _ => hf d a h

theorem foldl1 {α β : Type} {f : Dev × β → α → Dev × β} {l : List α} {x : Dev × β} (h : d₀.onlyIn x.1 C)
    (hf : ∀ x a, d₀.onlyIn x.1 C → d₀.onlyIn (f x a).1 C) :
    d₀.onlyIn (l.foldl f x).1 C := List.foldlRecOn (motive := fun x : Dev × β => d₀.onlyIn x.1 C) l f h fun d h a _ => hf d a h

theorem setReg (h : d₀.onlyIn d C) {a : Nat} {v : W64} (hs : among [.regs] C := by rfl) : d₀.onlyIn (d.setReg a v) C :=
  h.after (d.setReg_frame a v) hs

theorem modReg (h : d₀.onlyIn d C) {a : Nat} {f : W64 → W64} (hs : among [.regs] C := by rfl) : d₀.onlyIn (d.modReg a f) C := h.setReg hs

theorem putF (h : d₀.onlyIn d C) {a : Nat} {f : Fld} {x : Nat} (hs : among [.regs] C := by rfl) : d₀.onlyIn (d.putF a f x) C := h.setReg hs

theorem addF (h : d₀.onlyIn d C) {a : Nat} {f : Fld} {x : Nat} (hs : among [.regs] C := by rfl) : d₀.onlyIn (d.addF a f x) C := h.setReg hs

theorem rollF (h : d₀.onlyIn d C) {a : Nat} {f : Fld} {x : Nat} (hs : among [.regs] C := by rfl) : d₀.onlyIn (d.rollF a f x) C := h.setReg hs

theorem blkErr (h : d₀.onlyIn d C) {page : Nat} (hs : among [.regs] C := by rfl) : d₀.onlyIn (d.blkErr page) C := h.addF hs

theorem resetRegs (h : d₀.onlyIn d C) {lo hi : Nat} (hs : among [.regs] C := by rfl) : d₀.onlyIn (d.resetRegs lo hi) C :=
  h.into hs fun b hb => Dev.onlyIn_trans hb fun c hc => by cases c <;> first | rfl | cases hc

theorem signal (h : d₀.onlyIn e C) (hs : among [.regs, .hif] C := by rfl) : d₀.onlyIn (Dev.signal d e) C :=
  h.after (Dev.signal_frame d e) hs

theorem raise (h : d₀.onlyIn d C) {page bits : Nat} (hs : among [.regs, .hif] C := by rfl) : d₀.onlyIn (d.raise page bits) C :=
  h.after (d.raise_frame page bits) hs

end Dev.onlyIn

end Sys2Proof.Machine
end

section
/-! # What parts the operations may change: waking, resets and the loss of power

The lemma about an operation has its name, in the order of the definitions. -/

namespace Sys2Proof.Machine
-- These proofs are many and small: elaborated all at once they take more threads than the checker has.
set_option Elab.async false
namespace Dev.onlyIn
variable {d₀ d e : Dev} {C : List Comp}

theorem set_cq (h₀ : d₀.onlyIn d C) {cq : Cq} (sub : among [.cq] C := by rfl) :
    d₀.onlyIn { d with cq := cq } C :=
  h₀.into sub fun _ hd => Dev.onlyIn_trans hd fun c hc => by cases c <;> first | rfl | cases hc

theorem set_cq_free (h₀ : d₀.onlyIn d C) {cq : Cq} {free : Nat} (sub : among [.cq, .free] C := by rfl) :
    d₀.onlyIn { d with cq := cq, free := free } C :=
  h₀.into sub fun _ hd => Dev.onlyIn_trans hd fun c hc => by cases c <;> first | rfl | cases hc

theorem set_cq_hif (h₀ : d₀.onlyIn d C) {cq : Cq} {hif : Hif} (sub : among [.cq, .hif] C := by rfl) :
    d₀.onlyIn { d with cq := cq, hif := hif } C :=
  h₀.into sub fun _ hd => Dev.onlyIn_trans hd fun c hc => by cases c <;> first | rfl | cases hc

theorem set_fab (h₀ : d₀.onlyIn d C) {fab : Fab} (sub : among [.fab] C := by rfl) :
    d₀.onlyIn { d with fab := fab } C :=
  h₀.into sub fun _ hd => Dev.onlyIn_trans hd fun c hc => by cases c <;> first | rfl | cases hc

theorem set_free (h₀ : d₀.onlyIn d C) {free : Nat} (sub : among [.free] C := by rfl) :
    d₀.onlyIn { d with free := free } C :=
  h₀.into sub fun _ hd => Dev.onlyIn_trans hd fun c hc => by cases c <;> first | rfl | cases hc

theorem set_henOps (h₀ : d₀.onlyIn d C) {henOps : List HenOp} (sub : among [.henOps] C := by rfl) :
    d₀.onlyIn { d with henOps := henOps } C :=
  h₀.into sub fun _ hd => Dev.onlyIn_trans hd fun c hc => by cases c <;> first | rfl | cases hc

theorem set_hif (h₀ : d₀.onlyIn d C) {hif : Hif} (sub : among [.hif] C := by rfl) :
    d₀.onlyIn { d with hif := hif } C :=
  h₀.into sub fun _ hd => Dev.onlyIn_trans hd fun c hc => by cases c <;> first | rfl | cases hc

theorem set_host (h₀ : d₀.onlyIn d C) {host : Memory} (sub : among [.host] C := by rfl) :
    d₀.onlyIn { d with host := host } C :=
  h₀.into sub fun _ hd => Dev.onlyIn_trans hd fun c hc => by cases c <;> first | rfl | cases hc

theorem set_slots (h₀ : d₀.onlyIn d C) {slots : Memory} (sub : among [.slots] C := by rfl) :
    d₀.onlyIn { d with slots := slots } C :=
  h₀.into sub fun _ hd => Dev.onlyIn_trans hd fun c hc => by cases c <;> first | rfl | cases hc

theorem set_sram (h₀ : d₀.onlyIn d C) {sram : Memory} (sub : among [.sram] C := by rfl) :
    d₀.onlyIn { d with sram := sram } C :=
  h₀.into sub fun _ hd => Dev.onlyIn_trans hd fun c hc => by cases c <;> first | rfl | cases hc

theorem set_stk (h₀ : d₀.onlyIn d C) {stk : Memory} (sub : among [.stk] C := by rfl) :
    d₀.onlyIn { d with stk := stk } C :=
  h₀.into sub fun _ hd => Dev.onlyIn_trans hd fun c hc => by cases c <;> first | rfl | cases hc

theorem set_tiles (h₀ : d₀.onlyIn d C) {tiles : Tab Tile} (sub : among [.tiles] C := by rfl) :
    d₀.onlyIn { d with tiles := tiles } C :=
  h₀.into sub fun _ hd => Dev.onlyIn_trans hd fun c hc => by cases c <;> first | rfl | cases hc

theorem set_tram_sram_slots_upsets (h₀ : d₀.onlyIn d C) {tram : Memory} {sram : Memory} {slots : Memory} {upsets : List Upset}
    (sub : among [.tram, .sram, .slots, .upsets] C := by rfl) :
    d₀.onlyIn { d with tram := tram, sram := sram, slots := slots, upsets := upsets } C :=
  h₀.into sub fun _ hd => Dev.onlyIn_trans hd fun c hc => by cases c <;> first | rfl | cases hc

theorem set_upsets (h₀ : d₀.onlyIn d C) {upsets : List Upset} (sub : among [.upsets] C := by rfl) :
    d₀.onlyIn { d with upsets := upsets } C :=
  h₀.into sub fun _ hd => Dev.onlyIn_trans hd fun c hc => by cases c <;> first | rfl | cases hc

theorem sendOut (h₀ : d₀.onlyIn d C) {o : HostOut} (sub : among [.hif] C := by rfl) : d₀.onlyIn (d.sendOut o) C :=
  h₀.after (Dev.sendOut_frame _ _) (among.sub sub)

theorem sendMsg (h₀ : d₀.onlyIn d C) {fv : Nat × Nat} (sub : among [.regs, .hif] C := by rfl) : d₀.onlyIn (d.sendMsg fv) C :=
  h₀.after (Dev.sendMsg_frame _ _) (among.sub sub)

theorem txDrop (h₀ : d₀.onlyIn d C) (sub : among [.regs, .hif] C := by rfl) : d₀.onlyIn d.txDrop C :=
  h₀.after (Dev.txDrop_frame _) (among.sub sub)

theorem log (h₀ : d₀.onlyIn d C) {typ : Nat} {payload : List Nat} (sub : among [.regs, .gan, .hif] C := by rfl) : d₀.onlyIn
  (d.log typ payload) C :=
  h₀.after (Dev.log_frame _ _ _) (among.sub sub)

theorem setUnit (h₀ : d₀.onlyIn d C) {u : UnitId} {x : UnitSt} (sub : among [.ras] C := by rfl) : d₀.onlyIn (d.setUnit u x) C :=
  h₀.after (Dev.setUnit_frame _ _ _) (among.sub sub)

theorem takeOut (h₀ : d₀.onlyIn d C) {u : UnitId} {reason : Nat} (sub : among [.regs, .ras, .hif] C := by rfl) : d₀.onlyIn
  (d.takeOut u reason) C :=
  h₀.into sub fun _ hd => .ite hd (.raise (.setUnit hd))

theorem modStack (h₀ : d₀.onlyIn d C) {n : Nat} {f : Stack → Stack} (sub : among [.cs] C := by rfl) : d₀.onlyIn (d.modStack n f)
  C :=
  h₀.after (Dev.modStack_frame _ _ _) (among.sub sub)

theorem logErr (h₀ : d₀.onlyIn d C) {a kind syms src : Nat} (sub : among [.regs, .cs, .gan, .hif] C := by rfl) : d₀.onlyIn
  (d.logErr a kind syms src) C :=
  h₀.after (Dev.logErr_frame _ _ _ _ _) (among.sub sub)

theorem checkBitmap (h₀ : d₀.onlyIn d C) {g src : Nat} (sub : among [.regs, .stk, .cs, .gan, .hif, .upsets] C := by rfl) :
  d₀.onlyIn (d.checkBitmap g src) C :=
  h₀.after (Dev.checkBitmap_frame _ _ _).1 (among.sub sub)

theorem poisonGran (h₀ : d₀.onlyIn d C) {g src : Nat} (sub : among [.regs, .stk, .cs, .gan, .hif] C := by rfl) : d₀.onlyIn
  (d.poisonGran g src) C :=
  h₀.after (Dev.poisonGran_frame _ _ _).1 (among.sub sub)

theorem readGran (h₀ : d₀.onlyIn d C) {src g : Nat} (sub : among [.regs, .stk, .cs, .gan, .hif, .upsets] C := by rfl) :
  d₀.onlyIn (d.readGran src g).1 C :=
  h₀.after (Dev.readGran_frame _ _ _).1 (among.sub sub)

theorem readStk (h₀ : d₀.onlyIn d C) {src a n : Nat} (sub : among [.regs, .stk, .cs, .gan, .hif, .upsets] C := by rfl) :
  d₀.onlyIn (d.readStk src a n).1 C :=
  h₀.after (Dev.readStk_frame _ _ _ _).1 (among.sub sub)

theorem writeWhole (h₀ : d₀.onlyIn d C) {g : Nat} {bs : List Byte} {poison : Bool} {bad : Nat} (sub : among [.regs, .stk, .cs,
  .gan, .hif, .upsets] C := by rfl) : d₀.onlyIn (d.writeWhole g bs poison bad) C :=
  h₀.after (Dev.writeWhole_frame _ _ _ _ _).1 (among.sub sub)

theorem writeGran (h₀ : d₀.onlyIn d C) {a : Nat} {bs : List Byte} {poison : Bool} (sub : among [.regs, .stk, .cs, .gan, .hif,
  .upsets] C := by rfl) : d₀.onlyIn (d.writeGran a bs poison) C :=
  h₀.after (Dev.writeGran_frame _ _ _ _).1 (among.sub sub)

theorem writeStk (h₀ : d₀.onlyIn d C) {a : Nat} {bs : List Byte} {poison : Bool} (sub : among [.regs, .stk, .cs, .gan, .hif,
  .upsets] C := by rfl) : d₀.onlyIn (d.writeStk a bs poison) C :=
  h₀.after (Dev.writeStk_frame _ _ _ _).1 (among.sub sub)

theorem readWord (h₀ : d₀.onlyIn d C) {arr : SramArray} {u w : Nat} (sub : among [.regs, .gan, .hif, .upsets] C := by rfl) :
  d₀.onlyIn (d.readWord arr u w).1 C :=
  h₀.after (Dev.readWord_frame _ _ _ _) (among.sub sub)

theorem readWords (h₀ : d₀.onlyIn d C) {arr : SramArray} {u : Nat} {ws : List Nat} (sub : among [.regs, .gan, .hif, .upsets] C
  := by rfl) : d₀.onlyIn (d.readWords arr u ws).1 C :=
  h₀.after (Dev.readWords_frame _ _ _ _) (among.sub sub)

theorem dropUnit (h₀ : d₀.onlyIn d C) {arr : SramArray} {u : Nat} (sub : among [.upsets] C := by rfl) : d₀.onlyIn (d.dropUnit
  arr u) C :=
  h₀.into sub fun _ hd => .set_upsets hd

theorem dropWords (h₀ : d₀.onlyIn d C) {arr : SramArray} {u : Nat} {ws : List Nat} (sub : among [.upsets] C := by rfl) :
  d₀.onlyIn (d.dropWords arr u ws) C :=
  h₀.after (Dev.dropWords_frame _ _ _ _) (among.sub sub)

theorem readSramGran (h₀ : d₀.onlyIn d C) {tile : Bool} {base u off : Nat} (sub : among [.regs, .tram, .sram, .gan, .hif,
  .upsets] C := by rfl) : d₀.onlyIn (d.readSramGran tile base u off).1 C :=
  h₀.after (Dev.readSramGran_frame _ _ _ _ _).1 (among.sub sub)

theorem overwrite (h₀ : d₀.onlyIn d C) {tile : Bool} {a n : Nat} (sub : among [.regs, .tram, .sram, .gan, .hif, .upsets] C := by
  rfl) : d₀.onlyIn (d.overwrite tile a n) C :=
  h₀.after (Dev.overwrite_frame _ _ _ _).1 (among.sub sub)

theorem writeSram (h₀ : d₀.onlyIn d C) {tile : Bool} {a : Nat} {bs : List Byte} {poison : Bool} (sub : among [.regs, .tram,
  .sram, .gan, .hif, .upsets] C := by rfl) : d₀.onlyIn (d.writeSram tile a bs poison) C :=
  h₀.after (Dev.writeSram_frame _ _ _ _ _).1 (among.sub sub)

theorem serve (h₀ : d₀.onlyIn d C) {a : Access} (sub : among [.regs, .stk, .cs, .gan, .hif, .upsets, .free] C := by rfl) :
  d₀.onlyIn (d.serve a) C :=
  h₀.after (Dev.serve_frame _ _).1 (among.sub sub)

theorem inWindow (h₀ : d₀.onlyIn d C) {l : Nat} (sub : among [.regs, .stk, .cs, .gan, .hif, .upsets, .free] C := by rfl) :
  d₀.onlyIn (d.inWindow l) C :=
  h₀.after (Dev.inWindow_frame _ _).1 (among.sub sub)

theorem readHomeGran (h₀ : d₀.onlyIn d C) {src g : Nat} (sub : among [.regs, .stk, .tram, .sram, .cs, .gan, .hif, .upsets,
  .free] C := by rfl) : d₀.onlyIn (d.readHomeGran src g).1 C :=
  h₀.after (Dev.readHomeGran_frame _ _ _).1 (among.sub sub)

theorem writeHome (h₀ : d₀.onlyIn d C) {w : PWrite} (sub : among [.regs, .stk, .tram, .sram, .slots, .host, .cq, .tiles, .cs,
  .gan, .hif, .upsets, .free] C := by rfl) : d₀.onlyIn (d.writeHome w) C :=
  h₀.after (Dev.writeHome_frame _ _).1 (among.sub sub)

theorem modSect (h₀ : d₀.onlyIn d C) {k : Nat} {f : Sector → Sector} (sub : among [.sect] C := by rfl) : d₀.onlyIn (d.modSect k
  f) C :=
  h₀.after (Dev.modSect_frame _ _ _) (among.sub sub)

theorem onSrv (h₀ : d₀.onlyIn d C) {f : Srv → Srv} (sub : among [.srv] C := by rfl) : d₀.onlyIn (d.onSrv f) C :=
  h₀.after (Dev.onSrv_frame _ _) (among.sub sub)

theorem modEntry (h₀ : d₀.onlyIn d C) {y0 : Nat} {f : Entry → Entry} (sub : among [.srv] C := by rfl) : d₀.onlyIn (d.modEntry y0
  f) C :=
  h₀.into sub fun _ hd => .onSrv hd

theorem enterSlotState (h₀ : d₀.onlyIn d C) {s st : Nat} (sub : among [.regs, .hif] C := by rfl) : d₀.onlyIn (d.enterSlotState s
  st) C :=
  h₀.into sub fun _ hd => .ite (.raise (.putF hd)) (.ite (.raise (.putF hd)) (.putF hd))

theorem freePages (h₀ : d₀.onlyIn d C) {p : Nat} {ps : List Nat} (sub : among [.srv] C := by rfl) : d₀.onlyIn (d.freePages p ps)
  C :=
  h₀.into sub fun _ hd => .onSrv hd

theorem dropNode (h₀ : d₀.onlyIn d C) {k n : Nat} (sub : among [.regs, .srv] C := by rfl) : d₀.onlyIn (Dev.dropNode k d n) C :=
  by
  refine h₀.into sub fun _ hd => ?_
  clear h₀ sub
  induction k generalizing d n with
  | zero => exact hd
  | succ k ih =>
    unfold Dev.dropNode
    split
    · exact hd
    · dsimp only
      split
      · exact .freePages (.onSrv hd)
      · split
        · exact .freePages (.onSrv hd)
        · exact .ite (ih (.addF (.onSrv (.freePages (.onSrv hd))))) (.onSrv (.freePages (.onSrv hd)))

theorem evictNode (h₀ : d₀.onlyIn d C) {n : Nat} (sub : among [.regs, .srv] C := by rfl) : d₀.onlyIn (d.evictNode n) C := by
  refine h₀.into sub fun _ hd => ?_
  unfold Dev.evictNode
  split
  · exact hd
  · exact .dropNode (.addF hd)

theorem unrefNode (h₀ : d₀.onlyIn d C) {n : Nat} (sub : among [.regs, .srv] C := by rfl) : d₀.onlyIn (d.unrefNode n) C := by
  refine h₀.into sub fun _ hd => ?_
  unfold Dev.unrefNode
  split
  · exact hd
  · exact .ite (.evictNode (.onSrv hd)) (.onSrv hd)

theorem discardNodes (h₀ : d₀.onlyIn d C) {who : Node → Bool} (sub : among [.srv] C := by rfl) : d₀.onlyIn (d.discardNodes who)
  C :=
  h₀.into sub fun _ hd => .foldl (.onSrv hd) (fun _ _ h3 => .freePages h3)

theorem setVersion (h₀ : d₀.onlyIn d C) {v : Nat} {x : Version} (sub : among [.srv] C := by rfl) : d₀.onlyIn (d.setVersion v x)
  C :=
  h₀.into sub fun _ hd => .onSrv hd

theorem freeVersion (h₀ : d₀.onlyIn d C) {v : Nat} (sub : among [.srv] C := by rfl) : d₀.onlyIn (d.freeVersion v) C :=
  h₀.into sub fun _ hd => .discardNodes (.ite (.onSrv (.setVersion hd)) (.setVersion hd))

theorem unrefVersion (h₀ : d₀.onlyIn d C) {v : Nat} (sub : among [.srv] C := by rfl) : d₀.onlyIn (d.unrefVersion v) C :=
  h₀.into sub fun _ hd => .ite (.freeVersion (.setVersion hd)) (.setVersion hd)

theorem releasePf (h₀ : d₀.onlyIn d C) {y0 : Nat} (sub : among [.regs, .srv] C := by rfl) : d₀.onlyIn (d.releasePf y0) C :=
  h₀.into sub fun _ hd => .ite hd (.modEntry (.setReg hd))

theorem creditPool (h₀ : d₀.onlyIn d C) {p n : Nat} (sub : among [.regs] C := by rfl) : d₀.onlyIn (d.creditPool p n) C :=
  h₀.into sub fun _ hd => .putF hd

theorem releaseCharges (h₀ : d₀.onlyIn d C) {y0 : Nat} (sub : among [.regs, .srv] C := by rfl) : d₀.onlyIn (d.releaseCharges y0)
  C :=
  h₀.into sub fun _ hd => .ite hd (.foldl (.freePages (.creditPool (.putF (.modEntry (.releasePf hd))))) (fun _ _ h5 =>
    .unrefNode h5))

theorem enterEvicting (h₀ : d₀.onlyIn d C) {s : Nat} (sub : among [.regs, .srv, .hif] C := by rfl) : d₀.onlyIn (d.enterEvicting
  s) C :=
  h₀.into sub fun _ hd => .discardNodes (.enterSlotState hd)

theorem freeEntry (h₀ : d₀.onlyIn d C) {y0 : Nat} (sub : among [.regs, .srv, .hif] C := by rfl) : d₀.onlyIn (d.freeEntry y0) C
  :=
  h₀.into sub fun _ hd => .ite hd (.ite (.enterEvicting (.onSrv (.ite (.unrefVersion (.releaseCharges hd)) (.releaseCharges
    hd)))) (.onSrv (.ite (.unrefVersion (.releaseCharges hd)) (.releaseCharges hd))))

theorem judge (h₀ : d₀.onlyIn d C) {y0 : Nat} {t : TokenOut} {held : Bool} (sub : among [.regs, .srv, .hif] C := by rfl) :
  d₀.onlyIn (d.judge y0 t held).1 C :=
  h₀.into sub fun _ hd => .ite1 (.raise (.putF (.addF (.modEntry (.ite (.releasePf hd) hd))))) (.modEntry (.ite (.releasePf hd)
    hd))

theorem pushFinal (h₀ : d₀.onlyIn d C) {y0 status cause : Nat} (sub : among [.cq, .free] C := by rfl) : d₀.onlyIn (d.pushFinal
  y0 status cause) C :=
  h₀.into sub fun _ hd => .set_cq_free hd

theorem dropTokenReads (h₀ : d₀.onlyIn d C) {y0 : Nat} (sub : among [.hif] C := by rfl) : d₀.onlyIn (d.dropTokenReads y0) C :=
  h₀.into sub fun _ hd => .set_hif hd

theorem closeWith (h₀ : d₀.onlyIn d C) {y0 status cause : Nat} (sub : among [.cq, .srv, .hif, .free] C := by rfl) : d₀.onlyIn
  (d.closeWith y0 status cause) C :=
  h₀.into sub fun _ hd => .pushFinal (.modEntry (.dropTokenReads hd))

theorem abortEntry (h₀ : d₀.onlyIn d C) {y0 cause : Nat} (sub : among [.regs, .cq, .srv, .hif, .free] C := by rfl) : d₀.onlyIn
  (d.abortEntry y0 cause) C :=
  h₀.into sub fun _ hd => .ite hd (.raise (.closeWith (.modEntry (.addF hd))))

theorem abortAll (h₀ : d₀.onlyIn d C) {p cause : Nat} (sub : among [.regs, .cq, .srv, .hif, .free] C := by rfl) : d₀.onlyIn
  (d.abortAll p cause) C :=
  h₀.into sub fun _ hd => .onSrv (.foldl (.foldl hd (fun _ _ h2 => .abortEntry h2)) (fun _ _ h3 => .releaseCharges h3))

theorem handedOver (h₀ : d₀.onlyIn d C) {y0 : Nat} (sub : among [.cq, .srv, .hif, .free] C := by rfl) : d₀.onlyIn (d.handedOver
  y0) C :=
  h₀.into sub fun _ hd => .ite (.closeWith (.ite (.modEntry hd) (.ite (.modEntry hd) hd))) (.ite (.modEntry hd) (.ite (.modEntry
    hd) hd))

theorem enterHeld (h₀ : d₀.onlyIn d C) {y0 : Nat} (sub : among [.srv] C := by rfl) : d₀.onlyIn (d.enterHeld y0) C :=
  h₀.into sub fun _ hd => .ite (.modEntry hd) hd

theorem afterRecord (h₀ : d₀.onlyIn d C) {x : Ready} (sub : among [.regs, .srv, .hif] C := by rfl) : d₀.onlyIn (d.afterRecord x)
  C := by
  refine h₀.into sub fun _ hd => ?_
  unfold Dev.afterRecord
  split
  · exact hd
  · exact .ite (.freeEntry hd) (.ite (.modEntry hd) hd)

theorem loadEnded (h₀ : d₀.onlyIn d C) {x : Cmd} (sub : among [.regs, .srv, .hif] C := by rfl) : d₀.onlyIn (d.loadEnded x) C :=
  h₀.into sub fun _ hd => .ite (.enterSlotState hd) (.ite (.freeVersion hd) hd)

theorem ringErr (h₀ : d₀.onlyIn d C) {r : Nat} (sub : among [.regs, .hif] C := by rfl) : d₀.onlyIn (d.ringErr r) C :=
  h₀.into sub fun _ hd => .raise (.addF hd)

theorem ringSignal (h₀ : d₀.onlyIn d C) {r : Nat} (sub : among [.regs, .cq, .hif] C := by rfl) : d₀.onlyIn (d.ringSignal r) C :=
  h₀.into sub fun _ hd => .set_cq (.sendMsg hd)

theorem moderate (h₀ : d₀.onlyIn d C) {r : Nat} {irqNow notOk : Bool} (sub : among [.regs, .cq, .hif] C := by rfl) : d₀.onlyIn
  (d.moderate r irqNow notOk) C :=
  h₀.into sub fun _ hd => .ite (.ringSignal (.set_cq hd)) (.set_cq hd)

theorem ringPut (h₀ : d₀.onlyIn d C) {x : Ready} (sub : among [.regs, .host, .cq, .hif] C := by rfl) : d₀.onlyIn (d.ringPut x) C
  :=
  h₀.into sub fun _ hd => .ite (.ringErr hd) (.ite (.rollF (.ringErr (.txDrop hd))) (.moderate (.rollF (.sendOut (.set_host
    hd)))))

theorem entryWord (h₀ : d₀.onlyIn d C) {x : Ready} (sub : among [.regs, .srv, .gan, .hif, .upsets] C := by rfl) : d₀.onlyIn
  (d.entryWord x).1 C := by
  refine h₀.into sub fun _ hd => ?_
  unfold Dev.entryWord
  split
  · split
    · exact .judge hd
    · exact hd
  · exact .ite1 (.readWord hd) (.readWord hd)

theorem putRecord (h₀ : d₀.onlyIn d C) {x : Ready} (sub : among [.regs, .host, .cq, .srv, .gan, .hif, .upsets, .free] C := by
  rfl) : d₀.onlyIn (d.putRecord x) C := by
  refine h₀.into sub fun _ hd => ?_
  clear h₀ sub
  have h1 : Dev.onlyIn _ (d.entryWord x).1 _ := .entryWord hd
  unfold Dev.putRecord
  generalize d.entryWord x = y at h1
  obtain ⟨d', y⟩ := y
  dsimp only
  split
  · exact .afterRecord (.ringPut (.handedOver (.set_cq h1)))
  · exact .afterRecord (.ringPut (.set_cq h1))

theorem issueRecord (h₀ : d₀.onlyIn d C) {x : Ready} (sub : among [.regs, .host, .cq, .srv, .gan, .hif, .upsets, .free] C := by
  rfl) : d₀.onlyIn (d.issueRecord x) C := by
  refine h₀.into sub fun _ hd => ?_
  unfold Dev.issueRecord
  exact .ite ((by
    dsimp only
    split
    · exact .set_cq hd
    · exact .enterHeld (.set_cq hd))) (.putRecord hd)

theorem pushRecord (h₀ : d₀.onlyIn d C) {x : Ready} {suppressed : Bool} (sub : among [.cq, .upsets] C := by rfl) : d₀.onlyIn
  (d.pushRecord x suppressed) C := by
  refine h₀.into sub fun _ hd => ?_
  unfold Dev.pushRecord
  exact .ite hd (.set_cq ((by
    split
    · exact hd
    · exact .dropWords hd)))

theorem finishRecord (h₀ : d₀.onlyIn d C) {q part : Nat} {recd : Rec} {status aflags : Byte} {handle vaddr detail : Nat} (sub :
  among [.regs, .cq, .upsets] C := by rfl) : d₀.onlyIn (d.finishRecord q part recd status aflags handle vaddr detail) C :=
  h₀.into sub fun _ hd => .rollF (.pushRecord hd)

theorem flushQueue (h₀ : d₀.onlyIn d C) {q : Nat} (sub : among [.regs, .cq, .hif] C := by rfl) : d₀.onlyIn (d.flushQueue q) C :=
  h₀.after (Dev.flushQueue_frame _ _) (among.sub sub)

theorem freeTiles (h₀ : d₀.onlyIn d C) {c : Nat} (sub : among [.tiles] C := by rfl) : d₀.onlyIn (d.freeTiles c) C :=
  h₀.into sub fun _ hd => .set_tiles hd

theorem dropCmd (h₀ : d₀.onlyIn d C) {c : Nat} (sub : among [.cq] C := by rfl) : d₀.onlyIn (d.dropCmd c) C :=
  h₀.into sub fun _ hd => .set_cq hd

theorem dropHenOps (h₀ : d₀.onlyIn d C) {c : Nat} (sub : among [.henOps] C := by rfl) : d₀.onlyIn (d.dropHenOps c) C :=
  h₀.into sub fun _ hd => .set_henOps hd

theorem dropReads (h₀ : d₀.onlyIn d C) {c : Nat} (sub : among [.cq, .hif] C := by rfl) : d₀.onlyIn (d.dropReads c) C :=
  h₀.into sub fun _ hd => .set_cq_hif hd

theorem endCmd (h₀ : d₀.onlyIn d C) {x : Cmd} (sub : among [.regs, .cq, .tiles, .henOps, .srv, .hif, .upsets] C := by rfl) :
  d₀.onlyIn (d.endCmd x) C :=
  h₀.into sub fun _ hd => .ite (.loadEnded (.dropCmd (.dropHenOps (.freeTiles (.dropReads hd))))) (.finishRecord (.loadEnded
    (.dropCmd (.dropHenOps (.freeTiles (.dropReads hd))))))

theorem endCmdWith (h₀ : d₀.onlyIn d C) {x : Cmd} {status detail : Nat} (sub : among [.regs, .cq, .tiles, .henOps, .srv, .hif,
  .upsets] C := by rfl) : d₀.onlyIn (d.endCmdWith x status detail) C :=
  h₀.into sub fun _ hd => .endCmd hd

theorem abandon (h₀ : d₀.onlyIn d C) {c : Nat} (sub : among [.cq, .tiles, .henOps, .hif] C := by rfl) : d₀.onlyIn (d.abandon c)
  C :=
  h₀.into sub fun _ hd => .dropReads (.dropHenOps (.set_tiles hd))

theorem zeroSram (h₀ : d₀.onlyIn d C) {k : Nat} (sub : among [.tram, .sram, .slots, .upsets] C := by rfl) : d₀.onlyIn
  (d.zeroSram k) C :=
  h₀.into sub fun _ hd => .set_tram_sram_slots_upsets hd

theorem dropLib (h₀ : d₀.onlyIn d C) {k : Nat} (sub : among [.regs, .sect, .upsets] C := by rfl) : d₀.onlyIn (d.dropLib k) C :=
  h₀.into sub fun _ hd => .setReg (.setReg (.modSect (.dropUnit hd)))

theorem disableLink (h₀ : d₀.onlyIn d C) {i : Nat} (sub : among [.regs] C := by rfl) : d₀.onlyIn (d.disableLink i) C :=
  h₀.into sub fun _ hd => .putF (.putF hd)

theorem trainLink (h₀ : d₀.onlyIn d C) {i : Nat} (sub : among [.regs, .fab] C := by rfl) : d₀.onlyIn (d.trainLink i) C :=
  h₀.after (Dev.trainLink_frame _ _) (among.sub sub)

theorem linkOff (h₀ : d₀.onlyIn d C) {u : UnitId} (sub : among [.regs] C := by rfl) : d₀.onlyIn (d.linkOff u) C :=
  h₀.into sub fun _ hd => .ite (.disableLink hd) hd

theorem trainFrom (h₀ : d₀.onlyIn d C) {n : Nat} {clears : Bool} (sub : among [.regs, .cs] C := by rfl) : d₀.onlyIn (d.trainFrom
  n clears) C :=
  h₀.into sub fun _ hd => .setReg (.modStack hd)

theorem resetEvent (h₀ : d₀.onlyIn d C) {p bit : Nat} (sub : among [.regs, .hif] C := by rfl) : d₀.onlyIn (d.resetEvent p bit) C
  :=
  h₀.into sub fun _ hd => .signal (.modReg (.foldl hd (fun _ _ h2 => .modReg h2)))

theorem settleBuffer (h₀ : d₀.onlyIn d C) {k : Nat} (sub : among [.regs, .stk, .tram, .sram, .slots, .host, .cq, .tiles, .cs,
  .sect, .gan, .hif, .upsets, .free] C := by rfl) : d₀.onlyIn (d.settleBuffer k) C :=
  h₀.after (Dev.settleBuffer_frame _ _) (among.sub sub)

theorem issueAll (h₀ : d₀.onlyIn d C) {p : Nat} (sub : among [.regs, .host, .cq, .srv, .gan, .hif, .upsets, .free] C := by rfl)
  : d₀.onlyIn (d.issueAll p) C :=
  h₀.into sub fun _ hd => .foldl hd (fun _ _ h2 => .issueRecord h2)

theorem dropStaged (h₀ : d₀.onlyIn d C) (sub : among [.regs, .fab] C := by rfl) : d₀.onlyIn d.dropStaged C :=
  h₀.into sub fun _ hd => .putF (.set_fab hd)

theorem resetWork (h₀ : d₀.onlyIn d C) {p : Nat} (sub : among [.regs, .stk, .tram, .sram, .slots, .host, .cq, .tiles, .henOps,
  .cs, .sect, .srv, .fab, .gan, .hif, .upsets, .free] C := by rfl) : d₀.onlyIn (d.resetWork p) C :=
  h₀.into sub fun _ hd => .foldl (.issueAll (.abortAll (.foldl (.set_tiles (.set_henOps (.foldl (.ite (.dropStaged (.foldl hd
    (fun _ _ h2 => .endCmdWith (.abandon h2)))) (.foldl hd (fun _ _ h2 => .endCmdWith (.abandon h2)))) (fun _ _ h4 => .modSect
    (.settleBuffer h4))))) (fun _ _ h7 => .flushQueue h7)))) (fun _ _ h10 => .ite h10 (.trainFrom h10))

theorem trainDown (h₀ : d₀.onlyIn d C) {p : Nat} (sub : among [.regs, .fab] C := by rfl) : d₀.onlyIn (d.trainDown p) C :=
  h₀.into sub fun _ hd => .foldl hd (fun _ _ h2 => .trainLink h2)

theorem setPstate (h₀ : d₀.onlyIn d C) {x : Nat} (sub : among [.regs] C := by rfl) : d₀.onlyIn (d.setPstate x) C :=
  h₀.into sub fun _ hd => .putF hd

theorem onPwr (h₀ : d₀.onlyIn d C) {f : Pwr → Pwr} (sub : among [.pwr] C := by rfl) : d₀.onlyIn (d.onPwr f) C :=
  h₀.after (Dev.onPwr_frame _ _) (among.sub sub)

theorem driveWakeN (h₀ : d₀.onlyIn d C) {src : Nat} (sub : among [.hif] C := by rfl) : d₀.onlyIn (d.driveWakeN src) C :=
  h₀.after (Dev.driveWakeN_frame _ _) (among.sub sub)

theorem startWake (h₀ : d₀.onlyIn d C) {src : Nat} (sub : among [.regs, .pwr, .hif] C := by rfl) : d₀.onlyIn (d.startWake src) C
  :=
  h₀.into sub fun _ hd => .driveWakeN (.putF (.setPstate (.onPwr hd)))

end Dev.onlyIn
end Sys2Proof.Machine
end

section
/-! # What accesses leave of the gander -/

namespace Sys2Proof.Machine

/-! ## What an access leaves of the gander: its log alone (14 R405) -/

/-- From `d` to `e` the gander took log records in and did nothing else. -/
def Dev.logs (d e : Dev) : Prop := d.gan.logged e.gan

namespace Dev.logs
variable {d₀ d e : Dev} {C : List Comp}

theorem refl (d : Dev) : d.logs d := d.gan.logged_refl

/-- What leaves the gander alone. -/
theorem keep (h : d₀.logs d) (k : d.onlyIn e C) (hc : C.contains .gan = false := by rfl) : d₀.logs e := by
  have hg : e.gan = d.gan := k .gan hc
  rw [Dev.logs, hg]
  exact h

theorem set_stk (h : d₀.logs d) {m : Memory} : d₀.logs { d with stk := m } := h

theorem set_tram (h : d₀.logs d) {m : Memory} : d₀.logs { d with tram := m } := h

theorem set_sram (h : d₀.logs d) {m : Memory} : d₀.logs { d with sram := m } := h

theorem set_slots (h : d₀.logs d) {m : Memory} : d₀.logs { d with slots := m } := h

theorem log (h : d₀.logs d) {typ : Nat} {p : List Nat} : d₀.logs (d.log typ p) := Gander.logged_trans h (d.log_logged typ p)

theorem logNow (h : d₀.logs d) {typ : Nat} {p : List Nat} : d₀.logs (d.logNow typ p) := Gander.logged_trans h (d.logNow_logged typ p)

theorem ite {a b : Dev} {c : Prop} [Decidable c] (ha : d₀.logs a) (hb : d₀.logs b) : d₀.logs (if c then a else b) := by
  split
  · exact ha
  · exact hb

theorem ite1 {α : Type} {a b : Dev × α} {c : Prop} [Decidable c] (ha : d₀.logs a.1) (hb : d₀.logs b.1) : d₀.logs (if c then a else b).1 := by
  split
  · exact ha
  · exact hb

theorem foldl {α : Type} {f : Dev → α → Dev} {l : List α} (h : d₀.logs d) (hf : ∀ d a, d₀.logs d → d₀.logs (f d a)) :
    d₀.logs (l.foldl f d) := List.foldlRecOn (motive := d₀.logs) l f h fun d h a _ => hf d a h

theorem foldl1 {α β : Type} {f : Dev × β → α → Dev × β} {l : List α} {x : Dev × β} (h : d₀.logs x.1)
    (hf : ∀ x a, d₀.logs x.1 → d₀.logs (f x a).1) :
    d₀.logs (l.foldl f x).1 := List.foldlRecOn (motive := fun x : Dev × β => d₀.logs x.1) l f h fun d h a _ => hf d a h

theorem logErr (h : d₀.logs d) {a kind syms src : Nat} : d₀.logs (d.logErr a kind syms src) := by
  have hl : d₀.logs ((d.countErr (stackOf a) (kind % 2 == 1)).logEnter a kind syms src) :=
    (h.keep (d.countErr_frame _ _)).keep (Dev.logEnter_frame _ _ _ _ _)
  exact .ite (.log hl) hl

theorem checkBitmap (h : d₀.logs d) {g src : Nat} : d₀.logs (d.checkBitmap g src) := by
  unfold Dev.checkBitmap
  split
  · exact h
  next x _ =>
    have h1 : d₀.logs (d.dropUpset .bitmapWord (stackOf g) (bitmapWordOf g)) := h.keep (d.dropUpset_frame _ _ _)
    exact .ite (.logErr (.set_stk h1)) (.logErr h1)

theorem poisonGran (h : d₀.logs d) {g src : Nat} : d₀.logs (d.poisonGran g src) := by
  unfold Dev.poisonGran
  exact .logErr (.keep (.keep (.set_stk h) (Dev.addF_frame _ _ _ _)) (Dev.raise_frame _ _ _))

theorem readGran (h : d₀.logs d) {src g : Nat} : d₀.logs (d.readGran src g).1 := by
  have ht : d₀.logs (d.transfer (stackOf g)).1 := h.keep (d.transfer_frame _)
  unfold Dev.readGran
  simp only
  generalize d.transfer (stackOf g) = t at ht ⊢
  obtain ⟨t, ok⟩ := t
  have hb : d₀.logs (t.checkBitmap g src) := .checkBitmap ht
  generalize t.checkBitmap g src = e at hb ⊢
  have hp : d₀.logs (e.poisonGran g src) := .poisonGran hb
  generalize e.poisonGran g src = q at hp ⊢
  split
  · exact h.keep (d.countPoisonRead_frame _)
  split
  · exact ht
  split
  · exact hb
  split
  · exact hb.keep (e.countPoisonRead_frame _)
  split
  · exact hb
  split
  · exact .logErr hb
  split
  · exact hp
  · split
    · exact hp
    · exact hb
    · exact hb

theorem readStk (h : d₀.logs d) {src a n : Nat} : d₀.logs (d.readStk src a n).1 := by
  unfold Dev.readStk
  exact .foldl1 h (fun _ _ h2 => .readGran h2)

theorem writeWhole (h : d₀.logs d) {g : Nat} {bs : List Byte} {poison : Bool} {bad : Nat} : d₀.logs (d.writeWhole g bs poison bad) := by
  have ht : d₀.logs (d.transfer (stackOf g)).1 := h.keep (d.transfer_frame _)
  have hb : d₀.logs ((d.transfer (stackOf g)).1.checkBitmap g 7) := .checkBitmap ht
  unfold Dev.writeWhole
  exact .ite ht (.ite (.set_stk hb) (.set_stk hb))

theorem writeGran (h : d₀.logs d) {a : Nat} {bs : List Byte} {poison : Bool} : d₀.logs (d.writeGran a bs poison) := by
  have hi : ∀ c : Bool, d₀.logs (if c then d.putF rRasInject fRasInject_Mode 0 else d) := fun c => .ite (h.keep (d.putF_frame _ _ _)) h
  unfold Dev.writeGran
  refine .ite h (.ite (.writeWhole (hi _)) ?_)
  exact .ite (.readGran (hi _)) (.set_stk (.readGran (hi _)))

theorem writeStk (h : d₀.logs d) {a : Nat} {bs : List Byte} {poison : Bool} : d₀.logs (d.writeStk a bs poison) := by
  unfold Dev.writeStk
  exact .foldl h (fun _ _ h2 => .writeGran h2)

theorem readWord (h : d₀.logs d) {arr : SramArray} {u w : Nat} : d₀.logs (d.readWord arr u w).1 := by
  unfold Dev.readWord
  split
  · exact h
  · have hd : ∀ c : Bool, d₀.logs (if c then d else d.dropUpset arr u w) := fun c => .ite h (h.keep (d.dropUpset_frame _ _ _))
    exact .ite1 (.log (.keep (.keep (hd _) (Dev.addF_frame _ _ _ _)) (Dev.raise_frame _ _ _))) (.keep (hd _) (Dev.addF_frame _ _ _ _))

theorem readWords (h : d₀.logs d) {arr : SramArray} {u : Nat} {ws : List Nat} : d₀.logs (d.readWords arr u ws).1 := by
  unfold Dev.readWords
  exact .ite1 h (.foldl1 h (fun _ _ h2 => .readWord h2))

theorem readSramGran (h : d₀.logs d) {tile : Bool} {base u off : Nat} : d₀.logs (d.readSramGran tile base u off).1 := by
  have hw : ∀ arr ws, d₀.logs (d.readWords arr u ws).1 := fun _ _ => .readWords h
  unfold Dev.readSramGran
  have hf : ∀ arr ws, d₀.logs (if !(d.readWords arr u ws).2 then (d.readWords arr u ws).1
      else if tile then { (d.readWords arr u ws).1 with tram := (d.readWords arr u ws).1.tram.setFlag base { poison := true } }
      else { (d.readWords arr u ws).1 with sram := (d.readWords arr u ws).1.sram.setFlag base { poison := true } }) :=
    fun arr ws => .ite (hw arr ws) (.ite (.set_tram (hw arr ws)) (.set_sram (hw arr ws)))
  exact .ite1 (hf _ _) (hf _ _)

theorem overwrite (h : d₀.logs d) {tile : Bool} {a n : Nat} : d₀.logs (d.overwrite tile a n) := by
  unfold Dev.overwrite
  exact .ite h (.foldl h (fun _ _ h2 => .ite (h2.keep (Dev.dropUpset_frame _ _ _ _)) (.readSramGran h2)))

theorem writeSram (h : d₀.logs d) {tile : Bool} {a : Nat} {bs : List Byte} {poison : Bool} : d₀.logs (d.writeSram tile a bs poison) := by
  have ho : d₀.logs (if poison then d.overwrite tile (granOf a) 64 else d.overwrite tile a bs.length) := .ite (.overwrite h) (.overwrite h)
  unfold Dev.writeSram
  exact .ite (.set_tram ho) (.set_sram ho)

theorem serve (h : d₀.logs d) {a : Access} : d₀.logs (d.serve a) := by
  unfold Dev.serve
  refine .ite ?_ ?_
  · dsimp only
    split
    · exact h.keep (d.blkErr_frame _)
    · exact (h.keep (d.blkErr_frame _)).keep (Dev.sendOut_frame _ _)
  · split
    · exact .writeStk h
    · refine .keep ?_ (Dev.sendOut_frame _ _)
      exact .ite (.readStk h) (.keep (.readStk h) (Dev.addF_frame _ _ _ _))

theorem inWindow (h : d₀.logs d) {l : Nat} : d₀.logs (d.inWindow l) := by
  have hs : ∀ n, d₀.logs ((d.setQueued (stackOf l) (pcOf l) []).addF (rCsWinWait (stackOf l)) fCsWinWait_Defer n) :=
    fun n => (h.keep (d.modStack_frame _ _)).keep (Dev.addF_frame _ _ _ _)
  have hf : ∀ n (xs : List Access), d₀.logs (xs.foldl (fun (d : Dev) (a : Access) => (d.noteWait (stackOf l) a.windows).serve a)
      ((d.setQueued (stackOf l) (pcOf l) []).addF (rCsWinWait (stackOf l)) fCsWinWait_Defer n)) :=
    fun n xs => .foldl (hs n) fun e a he => .serve (he.keep (Dev.noteWait_frame _ _ _))
  unfold Dev.inWindow
  exact .ite h (.ite ((hf _ _).keep (Dev.noteWait_frame _ _ _)) (hf _ _))

theorem readHomeGran (h : d₀.logs d) {src g : Nat} : d₀.logs (d.readHomeGran src g).1 := by
  unfold Dev.readHomeGran
  exact .ite1 (.readGran (.inWindow h)) (.ite1 (.readSramGran h) (.ite1 (.readSramGran h) (.ite1 h h)))

theorem writeHome (h : d₀.logs d) {w : PWrite} : d₀.logs (d.writeHome w) := by
  have key : ∀ (e : Dev) (v : PWrite), d₀.logs e → d₀.logs (if isStk v.addr then (e.inWindow v.addr).writeStk v.addr v.data v.poison
      else if isTram v.addr then e.writeSram true (v.addr - 2 ^ 48) v.data v.poison
      else if isSram v.addr then e.writeSram false (v.addr - 2 ^ 49) v.data v.poison
      else { e with slots := e.slots.putBytes (v.addr - 2 ^ 50) v.data }) :=
    fun e v he => .ite (.writeStk (.inWindow he)) (.ite (.writeSram he) (.ite (.writeSram he) (.set_slots he)))
  have h1 : d₀.logs (if w.poison then d.notePoison w.cmd else d) := .ite (h.keep (d.notePoison_frame _)) h
  unfold Dev.writeHome
  simp only
  generalize (if w.poison then d.notePoison w.cmd else d) = d1 at h1 ⊢
  split
  · exact h1.keep (d1.hostWrite_frame w).1
  · cases w.nibble with
    | none => exact key d1 w h1
    | some hi =>
      exact key (d1.readHomeGran 7 (granOf w.addr)).1 { w with
          nibble := none
          data := [nibbleMerge hi ((d1.readHomeGran 7 (granOf w.addr)).2.1.getD (w.addr % 64) 0) (w.data.headD 0)] }
        (.readHomeGran h1)

theorem settleBuffer (h : d₀.logs d) {k : Nat} : d₀.logs (d.settleBuffer k) := by
  unfold Dev.settleBuffer
  exact .foldl (h.keep (d.modSect_frame _ _)) fun e g he => .foldl (he.keep e.freed_frame) fun e w he => .writeHome he

theorem stopAll (h : d₀.logs d) : d₀.logs d.stopAll := by
  rw [Dev.stopAll_eq]
  exact .keep (.foldl h fun e k he => .settleBuffer he) (Dev.jobless_frame _)

end Dev.logs

end Sys2Proof.Machine
end

section
/-! # Power states: entries, wakes and the save -/

namespace Sys2Proof.Machine

/-! ## Stacks in self-refresh and out of it (13 R374, R375) -/

theorem Dev.unitRetired_of_ras {d e : Dev} (h : e.ras = d.ras) (k : UnitKind) (i : Nat) : e.unitRetired k i = d.unitRetired k i := by
  rw [Dev.unitRetired, Dev.unitRetired, Dev.unit, Dev.unit, h]

/-- The stacks that self-refresh and its end act on. -/
def Dev.keptStacks (d : Dev) (ns : List Nat) : List Nat := ns.filter (fun n => !d.unitRetired .stack n)

/-- What is done in turn to every stack that is not retired, where it leaves the units alone. -/
theorem Dev.foldl_stacks {f : Dev → Nat → Dev} (hf : ∀ d n, (f d n).ras = d.ras) (ns : List Nat) (d : Dev) :
    ns.foldl (fun d n => if d.unitRetired .stack n then d else f d n) d = (d.keptStacks ns).foldl f d := by
  induction ns generalizing d with
  | nil => rfl
  | cons n ns ih =>
    rw [List.foldl_cons, ih]
    by_cases h : d.unitRetired .stack n = true
    · have hk : d.keptStacks (n :: ns) = d.keptStacks ns := by simp [Dev.keptStacks, h]
      rw [if_pos h, hk]
    · have hk : d.keptStacks (n :: ns) = n :: d.keptStacks ns := by simp [Dev.keptStacks, h]
      have hs : (f d n).keptStacks ns = d.keptStacks ns :=
        List.filter_congr fun m _ => by rw [Dev.unitRetired_of_ras (hf d n)]
      rw [if_neg h, hk, hs, List.foldl_cons]

theorem Dev.mem_keptStacks {d : Dev} {n : Nat} (hn : n < 12) (h : d.unitRetired .stack n = false) : n ∈ d.keptStacks (List.range 12) :=
  List.mem_filter.mpr ⟨List.mem_range.mpr hn, by rw [h]; rfl⟩

theorem Dev.selfRefresh_on (d : Dev) (train : Bool) : d.selfRefresh true train
    = (d.keptStacks (List.range 12)).foldl (fun d n => d.setReg (rCsState n) (BitVec.ofNat 64 (atBit 3 1))) d :=
  Dev.foldl_stacks (f := fun d n => d.setReg (rCsState n) (BitVec.ofNat 64 (atBit 3 1))) (fun _ _ => rfl) _ d

theorem Dev.selfRefresh_on_frame (d : Dev) (train : Bool) : d.onlyIn (d.selfRefresh true train) [.regs] := by
  rw [Dev.selfRefresh_on]
  exact Dev.onlyIn_foldl _ (fun e _ => e.setReg_frame _ _) _ d

/-- A stack not retired stands in self-refresh, not READY. -/
theorem Dev.selfRefresh_on_stack {d : Dev} {n : Nat} (hn : n < 12) (h : d.unitRetired .stack n = false) (train : Bool) :
    (d.selfRefresh true train).reg (rCsState n) = BitVec.ofNat 64 (atBit 3 1) := by
  rw [Dev.selfRefresh_on, Dev.reg_foldl_setReg rCsState, if_pos (List.mem_map_of_mem (Dev.mem_keptStacks hn h))]

theorem Dev.selfRefresh_on_reg (d : Dev) (train : Bool) {a : Nat} (h : ∀ n : Nat, a ≠ rCsState n) :
    (d.selfRefresh true train).reg a = d.reg a := by
  rw [Dev.selfRefresh_on, Dev.reg_foldl_setReg rCsState, if_neg]
  intro hm
  obtain ⟨n, _, hn⟩ := List.mem_map.mp hm
  exact h n hn.symm

theorem Dev.stackReady_frame (d : Dev) (n : Nat) : d.onlyIn (d.stackReady n) [.regs, .hif] := by
  unfold Dev.stackReady
  split
  · exact d.onlyIn_refl _
  · exact Dev.onlyIn.after (Dev.onlyIn_sub [.regs, .hif] (d.setReg_frame _ _) rfl) (Dev.raise_frame _ _ _)

theorem Dev.stackReady_self (d : Dev) (n : Nat) : (d.stackReady n).getF (rCsState n) fCsState_Ready = 1 := by
  unfold Dev.stackReady
  split
  next h => exact h
  next =>
    have ha : [rBlkIntStat (pgCs0 n), rHifTxDrop, rBlkIntStat pgHif].contains (rCsState n) = false := by
      simp [rCsState, rBlkIntStat, pgCs0, rHifTxDrop, pgHif]
      omega
    rw [Dev.getF_of_regsBut (Dev.raise_regsBut _ _ _) ha, Dev.getF, Dev.reg_setReg_self]
    decide

/-- A stack that becomes READY touches its state and event registers. -/
theorem Dev.stackReady_regsBut (d : Dev) (n : Nat) :
    d.regsBut (d.stackReady n) [rCsState n, rBlkIntStat (pgCs0 n), rHifTxDrop, rBlkIntStat pgHif] := by
  unfold Dev.stackReady
  split
  · exact d.regsBut_refl _
  · exact Dev.regsBut.after (Dev.regsBut_mono (d.regsBut_setReg _ _) (by simp)) (Dev.raise_regsBut _ _ _) (by simp)

/-- Stacks made READY in turn. -/
theorem Dev.foldl_stackReady (ns : List Nat) (d : Dev) :
    (∀ m : Nat, m ∈ ns ∨ d.getF (rCsState m) fCsState_Ready = 1 → (ns.foldl Dev.stackReady d).getF (rCsState m) fCsState_Ready = 1)
      ∧ d.onlyIn (ns.foldl Dev.stackReady d) [.regs, .hif]
      ∧ ∀ a : Nat, (∀ n : Nat, [rCsState n, rBlkIntStat (pgCs0 n), rHifTxDrop, rBlkIntStat pgHif].contains a = false) →
          (ns.foldl Dev.stackReady d).reg a = d.reg a := by
  induction ns generalizing d with
  | nil => exact ⟨fun m h => h.resolve_left List.not_mem_nil, d.onlyIn_refl _, fun _ _ => rfl⟩
  | cons n ns ih =>
    obtain ⟨h1, h2, h3⟩ := ih (d.stackReady n)
    refine ⟨fun m hm => h1 m ?_, Dev.onlyIn_trans (d.stackReady_frame n) h2, fun a ha => (h3 a ha).trans (d.stackReady_regsBut n a (ha n))⟩
    by_cases hmn : m = n
    · rw [hmn]
      exact .inr (d.stackReady_self n)
    · have ha : [rCsState n, rBlkIntStat (pgCs0 n), rHifTxDrop, rBlkIntStat pgHif].contains (rCsState m) = false := by
        simp [rCsState, rBlkIntStat, pgCs0, rHifTxDrop, pgHif]
        omega
      rw [Dev.getF_of_regsBut (d.stackReady_regsBut n) ha]
      exact hm.imp_left fun h => (List.mem_cons.mp h).resolve_left hmn

theorem Dev.selfRefresh_off (d : Dev) :
    d.selfRefresh false false = (d.keptStacks (List.range 12)).foldl Dev.stackReady d :=
  Dev.foldl_stacks (f := Dev.stackReady) (fun d n => d.stackReady_frame n .ras rfl) _ d

/-! ## What FALLOW loses (13 Table 13-4) -/

/-- One sector without power. -/
def Dev.darkSect (d : Dev) (k : Nat) : Dev := (d.zeroSram k).dropLib k

theorem Dev.darkSect_self (d : Dev) (k : Nat) : (d.darkSect k).sramZero k ∧ (tget (d.darkSect k).sect {} k).lib = none :=
  d.clearSect_self k

theorem Dev.darkSect_keeps {d : Dev} {j : Nat} (h : d.sramZero j ∧ (tget d.sect {} j).lib = none) (k : Nat) :
    (d.darkSect k).sramZero j ∧ (tget (d.darkSect k).sect {} j).lib = none := Dev.clearSect_keeps h k

theorem Dev.darkSect_frame (d : Dev) (k : Nat) : d.onlyIn (d.darkSect k) [.regs, .tram, .sram, .slots, .sect, .upsets] :=
  Dev.onlyIn.dropLib (.zeroSram (d.onlyIn_refl _))

theorem Dev.darkSect_regsBut (d : Dev) (k : Nat) : d.regsBut (d.darkSect k) [rSectLibStatus k, rSectLibVer k] := by
  refine Dev.regsBut.after (Dev.regsBut.after (e := (((d.zeroSram k).dropUnit .routineStore k).modSect k (fun s => { s with lib := none })))
    (fun _ _ => rfl) (Dev.regsBut_setReg _ (rSectLibStatus k) 0) (by simp)) (Dev.regsBut_setReg _ (rSectLibVer k) 0) (by simp)

theorem Dev.foldl_darkSect (ks : List Nat) (d : Dev) :
    (∀ j, j ∈ ks ∨ (d.sramZero j ∧ (tget d.sect {} j).lib = none) →
        (ks.foldl Dev.darkSect d).sramZero j ∧ (tget (ks.foldl Dev.darkSect d).sect {} j).lib = none)
      ∧ d.onlyIn (ks.foldl Dev.darkSect d) [.regs, .tram, .sram, .slots, .sect, .upsets]
      ∧ ∀ a : Nat, (∀ k ∈ ks, [rSectLibStatus k, rSectLibVer k].contains a = false) → (ks.foldl Dev.darkSect d).reg a = d.reg a := by
  induction ks generalizing d with
  | nil => exact ⟨fun j h => h.resolve_left List.not_mem_nil, d.onlyIn_refl _, fun _ _ => rfl⟩
  | cons k ks ih =>
    obtain ⟨h1, h2, h3⟩ := ih (d.darkSect k)
    refine ⟨fun j hj => h1 j ?_, Dev.onlyIn_trans (d.darkSect_frame k) h2, fun a ha =>
      (h3 a fun j hj => ha j (List.mem_cons_of_mem _ hj)).trans (d.darkSect_regsBut k a (ha k List.mem_cons_self))⟩
    rcases hj with hj | hj
    · rcases List.mem_cons.mp hj with rfl | hj
      · exact .inr (d.darkSect_self j)
      · exact .inl hj
    · exact .inr (Dev.darkSect_keeps hj k)

/-- A link without power is DISABLED, unless it is retired. -/
def Dev.darkLink (d : Dev) (i : Nat) : Dev := if d.getF (rFabLinkState i) fFabLinkState_State = 5 then d else d.disableLink i

theorem Dev.darkLink_state (d : Dev) (i j : Nat) :
    (d.darkLink i).linkState j = if j = i ∧ d.linkState j ≠ 5 then 0 else d.linkState j := by
  unfold Dev.darkLink
  by_cases h5 : d.getF (rFabLinkState i) fFabLinkState_State = 5
  · rw [if_pos h5, if_neg]
    rintro ⟨rfl, hn⟩
    exact hn h5
  · rw [if_neg h5]
    by_cases hj : j = i
    · subst hj
      rw [if_pos ⟨rfl, h5⟩]
      exact Dev.getF_putF_self _ _ _ _ (by decide)
    · rw [if_neg fun h => hj h.1]
      have hne : rFabLinkState j ≠ rFabLinkState i := fun h => hj (by simp only [rFabLinkState] at h; omega)
      exact (Dev.getF_putF_ne _ _ _ _ hne).trans (Dev.getF_putF_ne _ _ _ _ hne)

theorem Dev.darkLink_frame (d : Dev) (i : Nat) : d.onlyIn (d.darkLink i) [.regs] :=
  Dev.onlyIn.ite (d.onlyIn_refl _) (.disableLink (d.onlyIn_refl _))

theorem Dev.foldl_darkLink (is : List Nat) (d : Dev) (j : Nat) :
    (is.foldl Dev.darkLink d).linkState j = if j ∈ is ∧ d.linkState j ≠ 5 then 0 else d.linkState j := by
  induction is generalizing d with
  | nil => simp
  | cons i is ih =>
    rw [List.foldl_cons, ih, Dev.darkLink_state]
    by_cases hi : j = i <;> by_cases hm : j ∈ is <;> by_cases h5 : d.linkState j = 5 <;> simp [hi, hm, h5] <;> simp_all

theorem Dev.fallowLoss_eq (d : Dev) :
    d.fallowLoss = (List.range 96).foldl Dev.darkLink { (List.range 6).foldl Dev.darkSect d with tiles := [] } := rfl

/-- FALLOW leaves no tile at work, tile and sector memory zero, no library, and links DISABLED but for those retired. -/
theorem Dev.fallowLoss_loses (d : Dev) :
    d.fallowLoss.tiles = [] ∧ (∀ k : Nat, k < 6 → d.fallowLoss.sramZero k ∧ (tget d.fallowLoss.sect {} k).lib = none)
      ∧ (∀ i : Nat, i < 96 → d.fallowLoss.linkState i = if d.linkState i = 5 then 5 else 0)
      ∧ d.onlyIn d.fallowLoss [.regs, .tram, .sram, .slots, .sect, .upsets, .tiles] := by
  obtain ⟨h1, h2, h3⟩ := Dev.foldl_darkSect (List.range 6) d
  rw [Dev.fallowLoss_eq]
  generalize (List.range 6).foldl Dev.darkSect d = x at h1 h2 h3
  have hf : Dev.onlyIn { x with tiles := [] } ((List.range 96).foldl Dev.darkLink { x with tiles := [] }) [.regs] :=
    Dev.onlyIn_foldl _ (fun e i => e.darkLink_frame i) _ _
  refine ⟨hf .tiles rfl, fun k hk => ?_, fun i hi => ?_, ?_⟩
  · obtain ⟨hz, hl⟩ := h1 k (.inl (List.mem_range.mpr hk))
    refine ⟨Dev.sramZero_congr (hf .tram rfl) (hf .sram rfl) hz, ?_⟩
    rw [show (List.foldl Dev.darkLink { x with tiles := [] } (List.range 96)).sect = x.sect from hf .sect rfl]
    exact hl
  · have hx : Dev.linkState { x with tiles := [] } i = d.linkState i := by
      have hr : x.reg (rFabLinkState i) = d.reg (rFabLinkState i) := h3 _ fun k hk => by
        have := List.mem_range.mp hk
        simp [rFabLinkState, rSectLibStatus, rSectLibVer]
        omega
      rw [Dev.linkState, Dev.linkState, Dev.getF, Dev.getF, ← hr]
      rfl
    rw [Dev.foldl_darkLink, hx]
    by_cases h5 : d.linkState i = 5 <;> simp [h5, hi]
  · exact Dev.onlyIn_trans (Dev.onlyIn_trans (Dev.onlyIn_sub _ h2 rfl) (.set_tiles (x.onlyIn_refl _))) (Dev.onlyIn_sub _ hf rfl)

/-! ## The end of an entry (13 R371, R374, R375) -/

/-- The state an entry leads to. -/
def lowState (t : Nat) : Nat := if t = 2 then 3 else 2

/-- The device once what the entry loses is lost, before a wake source that waited acts. -/
def Dev.rested (d : Dev) (t : Nat) : Dev :=
  (((d.selfRefresh true false).setPstate (lowState t)).onPwr (fun x => { x with entering := none })).raise pgPwr 1

theorem Dev.entered_eq {d : Dev} {t : Nat} (hp : d.pstate = 1) (ht : d.pwr.entering = some t) :
    d.entered = if (if t = 2 then d.fallowLoss else d).pwr.wakeWaits = 0 then (if t = 2 then d.fallowLoss else d).rested t
      else ((if t = 2 then d.fallowLoss else d).rested t).startWake (if t = 2 then d.fallowLoss else d).pwr.wakeWaits := by
  unfold Dev.entered
  split
  next u _ hu =>
    obtain rfl : u = t := Option.some.inj (hu.symm.trans ht)
    dsimp only
    generalize (if u = 2 then d.fallowLoss else d) = x
    rfl
  next h => exact absurd ht (h t hp)

theorem Dev.entered_other {d : Dev} (h : d.pstate ≠ 1 ∨ d.pwr.entering = none) : d.entered = d := by
  unfold Dev.entered
  split
  next t hp ht => simp [hp, ht] at h
  next => rfl

theorem Dev.rested_frame (d : Dev) (t : Nat) : d.onlyIn (d.rested t) [.regs, .pwr, .hif] := by
  unfold Dev.rested
  exact .raise (.onPwr (.setPstate (Dev.onlyIn_sub _ (d.selfRefresh_on_frame false) rfl)))

theorem Dev.rested_pwr (d : Dev) (t : Nat) : (d.rested t).pwr = { d.pwr with entering := none } := by
  have h2 : (d.selfRefresh true false).pwr = d.pwr := d.selfRefresh_on_frame false .pwr rfl
  unfold Dev.rested
  generalize d.selfRefresh true false = x at h2 ⊢
  rw [← h2]
  exact Dev.raise_frame _ _ _ .pwr rfl

/-- The registers of the end of an entry. -/
theorem Dev.rested_reg (d : Dev) (t : Nat) {a : Nat} (h : [rBlkIntStat pgPwr, rHifTxDrop, rBlkIntStat pgHif, rPwrState].contains a = false) :
    (d.rested t).reg a = (d.selfRefresh true false).reg a := by
  simp only [List.contains_cons, List.contains_nil, Bool.or_false, Bool.or_eq_false_iff, beq_eq_false_iff_ne] at h
  obtain ⟨h1, h2, h3, h4⟩ := h
  unfold Dev.rested
  generalize d.selfRefresh true false = x
  rw [Dev.raise_regsBut _ _ _ a (by simp [h1, h2, h3])]
  exact Dev.reg_putF_ne _ _ _ h4

theorem Dev.rested_pstate (d : Dev) (t : Nat) : (d.rested t).pstate = lowState t := by
  unfold Dev.rested
  generalize d.selfRefresh true false = x
  rw [Dev.pstate, Dev.getF_of_regsBut (Dev.raise_regsBut _ _ _) (by decide)]
  have hp : (x.setPstate (lowState t)).getF rPwrState fPwrState_State = lowState t := by
    rw [Dev.setPstate, Dev.getF_putF_self _ _ _ _ (by decide), lowState]
    split <;> rfl
  exact hp

theorem Dev.rested_event (d : Dev) (t : Nat) : (d.rested t).event pgPwr 0 = true :=
  Dev.raise_event _ (page := pgPwr) (i := 0) (by decide) (by decide)

/-- A wake begins: the state, the source and where it came from. -/
theorem Dev.startWake_wakes (d : Dev) (src : Nat) :
    (d.startWake src).pstate = 4 ∧ (d.startWake src).pwr = { d.pwr with wakeFrom := d.pstate, wakeWaits := 0, entering := none }
      ∧ (d.startWake src).getF rPwrState fPwrState_WakeSrc = src % 16 ∧ d.regsBut (d.startWake src) [rPwrState] := by
  generalize hx : ((d.onPwr (fun x => { x with wakeFrom := d.pstate, wakeWaits := 0, entering := none })).setPstate 4).putF rPwrState
    fPwrState_WakeSrc src = x
  have hs : d.startWake src = x.driveWakeN src := by rw [← hx]; rfl
  have hf : x.onlyIn (d.startWake src) [.hif] := by
    rw [hs]
    exact x.driveWakeN_frame src
  have hr : ∀ a, (d.startWake src).reg a = x.reg a := Dev.reg_congr (hf .regs rfl)
  refine ⟨?_, (hf .pwr rfl).trans (by rw [← hx]; rfl), ?_, fun a ha => ?_⟩
  · rw [Dev.pstate, Dev.getF, hr, ← hx]
    exact (Dev.getF_putF_field _ _ _ _ _ (by decide) (by decide)).trans (Dev.getF_putF_self _ _ _ _ (by decide))
  · rw [Dev.getF, hr, ← hx]
    exact Dev.getF_putF_self _ _ _ _ (by decide)
  · simp only [List.contains_cons, List.contains_nil, Bool.or_false, beq_eq_false_iff_ne] at ha
    rw [hr, ← hx, Dev.reg_putF_ne _ _ _ ha, Dev.setPstate, Dev.reg_putF_ne _ _ _ ha]
    rfl

/-- What a device at rest shows, whatever wake source acts at once. -/
structure Dev.atRest (d : Dev) (t w : Nat) (e : Dev) : Prop where
  entering : e.pwr.entering = none
  event : e.event pgPwr 0 = true
  low : w = 0 → e.pstate = lowState t
  wakes : w ≠ 0 → e.pstate = 4 ∧ e.pwr.wakeFrom = lowState t ∧ e.getF rPwrState fPwrState_WakeSrc = w % 16
  selfref : ∀ n : Nat, n < 12 → d.unitRetired .stack n = false →
    e.getF (rCsState n) fCsState_Selfref = 1 ∧ e.getF (rCsState n) fCsState_Ready = 0
  links : ∀ i : Nat, e.linkState i = d.linkState i
  frame : d.onlyIn e [.regs, .pwr, .hif]

theorem restWord : fld (BitVec.ofNat 64 (atBit 3 1)) fCsState_Selfref = 1 ∧ fld (BitVec.ofNat 64 (atBit 3 1)) fCsState_Ready = 0 := by decide

theorem Dev.rested_atRest (d : Dev) (t w : Nat) : d.atRest t w (if w = 0 then d.rested t else (d.rested t).startWake w) := by
  have hstk : ∀ n : Nat, n < 12 → d.unitRetired .stack n = false → (d.rested t).reg (rCsState n) = BitVec.ofNat 64 (atBit 3 1) := by
    intro n hn h
    rw [Dev.rested_reg, Dev.selfRefresh_on_stack hn h]
    simp [rCsState, rBlkIntStat, rHifTxDrop, pgHif, pgPwr, rPwrState]
    omega
  have hlink : ∀ i : Nat, (d.rested t).reg (rFabLinkState i) = d.reg (rFabLinkState i) := by
    intro i
    rw [Dev.rested_reg, Dev.selfRefresh_on_reg]
    · intro n
      simp only [rFabLinkState, rCsState, ne_eq]
      omega
    · simp [rFabLinkState, rBlkIntStat, rHifTxDrop, pgHif, pgPwr, rPwrState]
      omega
  by_cases hw : w = 0
  · rw [if_pos hw]
    refine ⟨by rw [Dev.rested_pwr], d.rested_event t, fun _ => d.rested_pstate t, fun h => absurd hw h, fun n hn h => ?_, fun i => ?_,
      d.rested_frame t⟩
    · rw [Dev.getF, Dev.getF, hstk n hn h]
      exact restWord
    · rw [Dev.linkState, Dev.getF, hlink]
      rfl
  · rw [if_neg hw]
    obtain ⟨h1, h2, h3, h4⟩ := (d.rested t).startWake_wakes w
    refine ⟨by rw [h2], ?_, fun h => absurd h hw, fun _ => ⟨h1, by rw [h2]; exact d.rested_pstate t, h3⟩, fun n hn h => ?_, fun i => ?_, ?_⟩
    · rw [Dev.event, h4 _ (by decide)]
      exact d.rested_event t
    · have hne : [rPwrState].contains (rCsState n) = false := by
        simp [rCsState, rPwrState]
        omega
      rw [Dev.getF, Dev.getF, h4 _ hne, hstk n hn h]
      exact restWord
    · have hne : [rPwrState].contains (rFabLinkState i) = false := by
        simp [rFabLinkState, rPwrState]
        omega
      rw [Dev.linkState, Dev.getF, h4 _ hne, hlink]
      rfl
    · exact Dev.onlyIn.startWake (d.rested_frame t)

/-! ## The end of a wake (13 R375, R376, R378) -/

/-- The device of which every stack is READY again, in ACTIVE, before a reset that waited begins. -/
def Dev.awake (d : Dev) : Dev := ((d.selfRefresh false false).setPstate 0).raise pgPwr 1

theorem Dev.awake_frame (d : Dev) : d.onlyIn d.awake [.regs, .hif] := by
  unfold Dev.awake
  refine .raise (.setPstate ?_)
  rw [Dev.selfRefresh_off]
  exact (Dev.foldl_stackReady _ d).2.1

theorem Dev.awake_pstate (d : Dev) : d.awake.pstate = 0 := by
  unfold Dev.awake
  generalize d.selfRefresh false false = x
  rw [Dev.pstate, Dev.getF_of_regsBut (Dev.raise_regsBut _ _ _) (by decide)]
  exact Dev.getF_putF_self _ _ _ _ (by decide)

theorem Dev.awake_event (d : Dev) : d.awake.event pgPwr 0 = true :=
  Dev.raise_event _ (page := pgPwr) (i := 0) (by decide) (by decide)

theorem Dev.awake_stack {d : Dev} {n : Nat} (hn : n < 12) (h : d.unitRetired .stack n = false) :
    d.awake.getF (rCsState n) fCsState_Ready = 1 := by
  have hr := (Dev.foldl_stackReady (d.keptStacks (List.range 12)) d).1 n (.inl (Dev.mem_keptStacks hn h))
  rw [← Dev.selfRefresh_off] at hr
  have h1 : [rBlkIntStat pgPwr, rHifTxDrop, rBlkIntStat pgHif].contains (rCsState n) = false := by
    simp [rCsState, rBlkIntStat, pgPwr, rHifTxDrop, pgHif]
    omega
  have h2 : rCsState n ≠ rPwrState := by
    simp only [rCsState, rPwrState, ne_eq]
    omega
  unfold Dev.awake
  rw [Dev.getF_of_regsBut (Dev.raise_regsBut _ _ _) h1, Dev.setPstate, Dev.getF_putF_ne _ _ _ _ h2, hr]

theorem Dev.awake_reg (d : Dev) {a : Nat} (ha : [rBlkIntStat pgPwr, rHifTxDrop, rBlkIntStat pgHif, rPwrState].contains a = false)
    (hs : ∀ n : Nat, [rCsState n, rBlkIntStat (pgCs0 n), rHifTxDrop, rBlkIntStat pgHif].contains a = false) : d.awake.reg a = d.reg a := by
  simp only [List.contains_cons, List.contains_nil, Bool.or_false, Bool.or_eq_false_iff, beq_eq_false_iff_ne] at ha
  obtain ⟨h1, h2, h3, h4⟩ := ha
  unfold Dev.awake
  rw [Dev.raise_regsBut _ _ _ a (by simp [h1, h2, h3]), Dev.setPstate, Dev.reg_putF_ne _ _ _ h4, Dev.selfRefresh_off]
  exact (Dev.foldl_stackReady _ d).2.2 a hs

/-- A reset that waited for ACTIVE begins. -/
def Dev.startWaiting (d : Dev) (p : Nat) : Dev :=
  if (d.part p).resetWaits then
    (d.modPart p (fun x => { x with resetWaits := false })).beginReset p (d.part p).resetWaitCause (d.part p).trigger []
  else d

theorem Dev.waitingResets_eq (d : Dev) : d.waitingResets = (List.range 6).foldl Dev.startWaiting d := rfl

theorem Dev.foldl_startWaiting_none {d : Dev} {ps : List Nat} (h : ∀ p ∈ ps, (d.part p).resetWaits = false) :
    ps.foldl Dev.startWaiting d = d := by
  induction ps with
  | nil => rfl
  | cons p ps ih =>
    have hp : d.startWaiting p = d := by simp [Dev.startWaiting, h p List.mem_cons_self]
    rw [List.foldl_cons, hp, ih fun q hq => h q (List.mem_cons_of_mem _ hq)]

theorem Dev.wakeDone_awake {d : Dev} {held : Bool} (hp : d.pstate = 4) (hw : d.pwr.wakeFrom = 2 ∨ held = false) (failed : List UnitId) :
    d.wakeDone held failed = d.awake.waitingResets := by
  unfold Dev.wakeDone
  rw [if_neg (by simp [hp])]
  rcases hw with hw | hw
  · rw [if_pos hw]
    rfl
  · subst hw
    by_cases h2 : d.pwr.wakeFrom = 2
    · rw [if_pos h2]
      rfl
    · rw [if_neg h2]
      rfl

/-- A reset that begins while the device is ACTIVE: its partition stands in phase RECORDS, the others as they did. -/
theorem Dev.beginReset_parts {d : Dev} {p cause trigger : Nat} {suspects : List Suspect} (he : d.partExists p = true) (hn : d.inReset p = false)
    (ha : d.pstate = 0) : (d.beginReset p cause trigger suspects).parts = tmod d.parts {} p (fun x => { x with
      phase := .records, resetAt := d.time, cause := cause, trigger := trigger, suspects := suspects, replayed := 0,
      replaying := none, resetWaits := false }) := by
  have hs : d.getF rPwrState fPwrState_State = 0 := ha
  unfold Dev.beginReset
  rw [if_neg (by simp [he, hn]), if_neg (by simp [hs])]
  dsimp only
  generalize hx : d.modPart p _ = x
  generalize d.liveSect p = k
  have hf : ∀ e : Dev, e.parts = x.parts → (((e.resetEvent p 0).resetWork p).trainDown p).parts = x.parts := by
    intro e h
    have hk : e.onlyIn (((e.resetEvent p 0).resetWork p).trainDown p) _ :=
      Dev.onlyIn.trainDown (C := [.regs, .stk, .tram, .sram, .slots, .host, .cq, .tiles, .henOps, .cs, .sect, .srv, .fab, .gan, .hif, .upsets, .free])
        (.resetWork (.resetEvent (e.onlyIn_refl _)))
    exact (show _ = e.parts from hk .parts rfl).trans h
  rw [hf]
  · rw [← hx]
    rfl
  · split <;> rfl

theorem Dev.part_of_parts {d e : Dev} (h : e.parts = d.parts) (p : Nat) : e.part p = d.part p := by rw [Dev.part, Dev.part, h]

theorem Dev.partExists_of_layout {d e : Dev} (h : e.reg rSectPartLayout = d.reg rSectPartLayout) (p : Nat) : e.partExists p = d.partExists p := by
  have hs : ∀ k, e.sectPart k = d.sectPart k := fun k => by rw [Dev.sectPart, Dev.sectPart, h]
  simp only [Dev.partExists, Dev.sectorsOf, hs]

theorem Dev.awake_layout (d : Dev) : d.awake.reg rSectPartLayout = d.reg rSectPartLayout := by
  refine d.awake_reg (by decide) fun n => ?_
  simp [rCsState, rBlkIntStat, pgCs0, rHifTxDrop, pgHif, rSectPartLayout]
  omega

/-- The one reset that waited begins; the others are not there (R378). -/
theorem Dev.waitingResets_one {d : Dev} {p : Nat} (hp : p < 6) (hw : ∀ q : Nat, q < 6 → ((d.part q).resetWaits = true ↔ q = p))
    (he : d.partExists p = true) (hn : d.inReset p = false) (ha : d.pstate = 0) :
    (d.waitingResets.part p).phase = .records ∧ (d.waitingResets.part p).cause = (d.part p).resetWaitCause
      ∧ (d.waitingResets.part p).resetWaits = false := by
  have hlist : List.range 6 = List.range p ++ p :: List.range' (p + 1) (5 - p) := by
    interval_cases p <;> decide
  have hquiet : ∀ q : Nat, q < 6 → q ≠ p → (d.part q).resetWaits = false := fun q hq hne => by
    have := mt (hw q hq).mp hne
    simpa using this
  have hfirst : (List.range p).foldl Dev.startWaiting d = d :=
    Dev.foldl_startWaiting_none fun q hq => hquiet q (by have := List.mem_range.mp hq; omega) (Nat.ne_of_lt (List.mem_range.mp hq))
  generalize hm : d.modPart p (fun x => { x with resetWaits := false }) = m
  have hstart : d.startWaiting p = m.beginReset p (d.part p).resetWaitCause (d.part p).trigger [] := by
    rw [Dev.startWaiting, if_pos ((hw p hp).mpr rfl), hm]
  have hmparts : m.parts = tmod d.parts {} p (fun x => { x with resetWaits := false }) := by
    rw [← hm]
    rfl
  have hmexists : m.partExists p = true := by
    rw [← he]
    exact Dev.partExists_of_layout (by rw [← hm]; rfl) p
  have hmreset : m.inReset p = false := by
    rw [← hn, Dev.inReset, Dev.inReset, hmparts, tget_tmod_self]
  have hmstate : m.pstate = 0 := by
    rw [← ha, ← hm]
    rfl
  have hparts := Dev.beginReset_parts (cause := (d.part p).resetWaitCause) (trigger := (d.part p).trigger) (suspects := []) hmexists hmreset hmstate
  rw [← hstart] at hparts
  have hrest : (List.range' (p + 1) (5 - p)).foldl Dev.startWaiting (d.startWaiting p) = d.startWaiting p := by
    refine Dev.foldl_startWaiting_none fun q hq => ?_
    obtain ⟨hlo, hhi⟩ := List.mem_range'_1.mp hq
    have hne : q ≠ p := by omega
    rw [Dev.part, hparts, tget_tmod_ne _ _ _ hne, hmparts, tget_tmod_ne _ _ _ hne]
    exact hquiet q (by omega) hne
  have hall : d.waitingResets = d.startWaiting p := by
    rw [Dev.waitingResets_eq, hlist, List.foldl_append, hfirst, List.foldl_cons, hrest]
  rw [hall, Dev.part, hparts, tget_tmod_self]
  exact ⟨rfl, rfl, rfl⟩

/-! ## The self-test of what was powered up (13 R376, 12 R352) -/

/-- One unit that failed its test leaves service. -/
def Dev.failTest (d : Dev) (u : UnitId) : Dev := (d.takeOut u 1).linkOff u

theorem Dev.failTest_frame (d : Dev) (u : UnitId) : d.onlyIn (d.failTest u) [.regs, .hif, .ras] :=
  Dev.onlyIn.linkOff (.takeOut (d.onlyIn_refl _))

theorem Dev.unit_setUnit (d : Dev) (u w : UnitId) (x : UnitSt) :
    (d.setUnit u x).unit w = if unitCode w = unitCode u then x else d.unit w := by
  by_cases h : unitCode w = unitCode u
  · rw [if_pos h, Dev.unit, h]
    exact tget_tset_self _ _ _ _
  · rw [if_neg h, Dev.unit_setUnit_ne _ _ h]

theorem Dev.takeOut_out (d : Dev) (u w : UnitId) (reason : Nat) (h : w = u ∨ (d.unit w).state ≠ 0) : ((d.takeOut u reason).unit w).state ≠ 0 := by
  unfold Dev.takeOut
  split
  next h2 =>
    rcases h with rfl | h
    · simp [h2]
    · exact h
  next =>
    rw [Dev.unit_of_ras (Dev.raise_frame _ _ _ .ras rfl), Dev.unit_setUnit]
    split
    next => simp
    next hne => exact h.resolve_left fun he => hne (by rw [he])

theorem Dev.failTest_out (d : Dev) (u w : UnitId) (h : w = u ∨ (d.unit w).state ≠ 0) : ((d.failTest u).unit w).state ≠ 0 := by
  have hk : (d.takeOut u 1).onlyIn (d.failTest u) [.regs] := .linkOff (Dev.onlyIn_refl _ _)
  have hr : (d.failTest u).ras = (d.takeOut u 1).ras := hk .ras rfl
  rw [Dev.unit_of_ras hr]
  exact d.takeOut_out u w 1 h

theorem Dev.failTest_reg (d : Dev) {u : UnitId} (hu : u.kind = .link → u.index < 96) {a : Nat}
    (ha : [rBlkIntStat pgRas, rHifTxDrop, rBlkIntStat pgHif].contains a = false) (hl : ∀ i : Nat, i < 96 → a ≠ rFabLinkState i) :
    (d.failTest u).reg a = d.reg a := by
  have ht : (d.takeOut u 1).reg a = d.reg a := by
    unfold Dev.takeOut
    split
    · rfl
    · exact Dev.raise_regsBut _ _ _ a ha
  rw [← ht, Dev.failTest]
  unfold Dev.linkOff
  split
  next hk =>
    have hne := hl u.index (hu hk.1)
    exact (Dev.reg_putF_ne _ _ _ hne).trans (Dev.reg_putF_ne _ _ _ hne)
  next => rfl

theorem Dev.foldl_failTest (us : List UnitId) (d : Dev) :
    (∀ w, w ∈ us ∨ (d.unit w).state ≠ 0 → ((us.foldl Dev.failTest d).unit w).state ≠ 0)
      ∧ d.onlyIn (us.foldl Dev.failTest d) [.regs, .hif, .ras]
      ∧ ((∀ u ∈ us, u.kind = .link → u.index < 96) → ∀ a : Nat, [rBlkIntStat pgRas, rHifTxDrop, rBlkIntStat pgHif].contains a = false →
          (∀ i : Nat, i < 96 → a ≠ rFabLinkState i) → (us.foldl Dev.failTest d).reg a = d.reg a) := by
  induction us generalizing d with
  | nil => exact ⟨fun w h => h.resolve_left List.not_mem_nil, d.onlyIn_refl _, fun _ _ _ _ => rfl⟩
  | cons u us ih =>
    obtain ⟨h1, h2, h3⟩ := ih (d.failTest u)
    refine ⟨fun w hw => h1 w ?_, Dev.onlyIn_trans (d.failTest_frame u) h2, fun hu a ha hl => ?_⟩
    · rcases hw with hw | hw
      · rcases List.mem_cons.mp hw with rfl | hw
        · exact .inr (d.failTest_out w w (.inl rfl))
        · exact .inl hw
      · exact .inr (d.failTest_out u w (.inr hw))
    · rw [List.foldl_cons, h3 (fun v hv => hu v (List.mem_cons_of_mem _ hv)) a ha hl, d.failTest_reg (hu u List.mem_cons_self) ha hl]

/-- The test has been run: its registers, and every unit that failed it out of service. -/
theorem Dev.selftest_tests (d : Dev) {failed : List UnitId} (hu : ∀ u ∈ failed, u.kind = .link → u.index < 96) :
    (d.selftest failed).getF rRasStatus fRasStatus_SelftestDone = 1 ∧ (∀ u ∈ failed, ((d.selftest failed).unit u).state ≠ 0)
      ∧ d.onlyIn (d.selftest failed) [.regs, .hif, .ras, .free]
      ∧ ∀ a : Nat, [rRasSelftest, rRasStatus, rBlkIntStat pgRas, rHifTxDrop, rBlkIntStat pgHif].contains a = false →
          (∀ i : Nat, i < 96 → a ≠ rFabLinkState i) → (d.selftest failed).reg a = d.reg a := by
  generalize hx : (({ d with free := d.free + 1 } : Dev).setReg rRasSelftest (BitVec.ofNat 64 (min failed.length 0xFFFF
    + atBit 16 (Config.freeWord d.free % 2 ^ 16)))).putF rRasStatus fRasStatus_SelftestDone 1 = x
  have hdone : x.getF rRasStatus fRasStatus_SelftestDone = 1 := by
    rw [← hx]
    exact Dev.getF_putF_self _ _ _ _ (by decide)
  have hreg : ∀ a : Nat, a ≠ rRasSelftest → a ≠ rRasStatus → x.reg a = d.reg a := fun a h1 h2 => by
    rw [← hx, Dev.reg_putF_ne _ _ _ h2, Dev.reg_setReg_ne _ _ h1]
    rfl
  have hframe : d.onlyIn x [.regs, .hif, .ras, .free] := by
    rw [← hx]
    exact .putF (.setReg (.set_free (d.onlyIn_refl _)))
  have heq : d.selftest failed = if failed.isEmpty then x else (failed.foldl Dev.failTest x).raise pgRas 1 := by
    rw [← hx]
    rfl
  cases failed with
  | nil =>
    rw [heq]
    refine ⟨hdone, fun u hu => absurd hu List.not_mem_nil, hframe, fun a ha _ => hreg a ?_ ?_⟩ <;> rintro rfl <;> exact absurd ha (by decide)
  | cons u us =>
    obtain ⟨h1, h2, h3⟩ := Dev.foldl_failTest (u :: us) x
    have h3 := h3 hu
    rw [heq, List.isEmpty_cons, if_neg (by decide)]
    refine ⟨?_, fun w hw => ?_, .raise (Dev.onlyIn_trans hframe (Dev.onlyIn_sub _ h2 rfl)), fun a ha hl => ?_⟩
    · have hs : ((u :: us).foldl Dev.failTest x).reg rRasStatus = x.reg rRasStatus :=
        h3 rRasStatus (by decide) fun i hi => by
          simp only [rRasStatus, rFabLinkState, ne_eq]
          omega
      rw [Dev.getF_of_regsBut (Dev.raise_regsBut _ _ _) (by decide), Dev.getF, hs]
      exact hdone
    · rw [Dev.unit_of_ras (Dev.raise_frame _ _ _ .ras rfl)]
      exact h1 w (.inl hw)
    · simp only [List.contains_cons, List.contains_nil, Bool.or_false, Bool.or_eq_false_iff, beq_eq_false_iff_ne] at ha
      obtain ⟨a1, a2, a3, a4, a5⟩ := ha
      have ha' : [rBlkIntStat pgRas, rHifTxDrop, rBlkIntStat pgHif].contains a = false := by simp [a3, a4, a5]
      rw [Dev.raise_regsBut _ _ _ a ha', h3 a ha' hl, hreg a a1 a2]

/-! ## The save (13 R390 to R392, 14 R405) -/

/-- Records programmed after `b` leave it: the ring drops only records that are far older. -/
theorem flushLog_keeps (rs : List LogRec) : ∀ a b : List LogRec, b.length + rs.length ≤ 100000 → ∃ a', flushLog (a ++ b) rs = a' ++ b ++ rs := by
  induction rs with
  | nil => exact fun a b _ => ⟨a, by simp [flushLog]⟩
  | cons r rs ih =>
    intro a b hlen
    have hlen' : (b ++ [r]).length + rs.length ≤ 100000 := by
      simp only [List.length_append, List.length_cons, List.length_nil] at hlen ⊢
      omega
    have hcut : ∃ a1, (if r.seq % 1024 = 1 then eraseOldest (a ++ b ++ [r]) else a ++ b ++ [r]) = a1 ++ (b ++ [r]) := by
      unfold eraseOldest
      split
      · split
        next hbig =>
          have hdrop : 1024 ≤ a.length := by
            simp only [List.length_append, List.length_cons, List.length_nil] at hbig hlen
            omega
          exact ⟨a.drop 1024, by rw [List.append_assoc, List.drop_append_of_le_length hdrop]⟩
        next => exact ⟨a, List.append_assoc _ _ _⟩
      · exact ⟨a, List.append_assoc _ _ _⟩
    obtain ⟨a1, h1⟩ := hcut
    obtain ⟨a2, h2⟩ := ih a1 (b ++ [r]) hlen'
    refine ⟨a2, ?_⟩
    unfold flushLog
    dsimp only
    rw [h1, h2]
    simp

theorem flushLog_mem {r : LogRec} {flash rs : List LogRec} (h : r ∈ rs) (hl : rs.length ≤ 100000) : r ∈ flushLog flash rs := by
  obtain ⟨a, ha⟩ := flushLog_keeps rs flash [] (by simpa using hl)
  rw [List.append_nil] at ha
  rw [ha]
  exact List.mem_append_right _ h

theorem Dev.saveEnd_saves {d : Dev} (hp : d.pstate = 7) (hup : d.gan.up = true) :
    d.saveEnd.gan.up = false ∧ d.saveEnd.gan.logBuf = [] ∧ d.onlyIn d.saveEnd [.gan] ∧ d.saveEnd.gan.image = d.gan.image
      ∧ ∃ r ∈ d.saveEnd.gan.logFlash, r.typ = 0x22 ∧ r.seq = (d.gan.logSeq + 1) % 2 ^ 32 ∧ r.time = d.time
        ∧ r.payload = [d.pwr.sagTrigger, d.gan.logBuf.length - 18] ++ d.pwr.sagTrip := by
  unfold Dev.saveEnd
  rw [if_neg (by simp [hp, hup])]
  refine ⟨rfl, rfl, d.onGan_frame _, rfl, ⟨0x22, (d.gan.logSeq + 1) % 2 ^ 32, d.time,
    [d.pwr.sagTrigger, d.gan.logBuf.length - 18] ++ d.pwr.sagTrip⟩, ?_, rfl, rfl, rfl, rfl⟩
  refine flushLog_mem List.mem_cons_self ?_
  simp only [List.length_append, List.length_cons, List.length_map, List.length_range, List.length_take]
  omega

/-- The device without its rails: `x` is what stopped before. -/
def Dev.dark (x : Dev) (thm : Thm) : Dev :=
  ((List.range 12).foldl (fun d n => d.setReg (rCsState n) 0) ((({ x with
    stk := {}, tram := {}, sram := {}, slots := {}, sect := [], cs := [], parts := [], layoutOn := [], fab := {},
    thm := thm } : Dev).resetRegs pgHif (pgHif + 0x1000)).putF rDevStatus fDevStatus_Ready 0)).onHif
    (fun h => { h with pgStk := false, pgCore := false, railsGood := false, phase := .off })

theorem Dev.dropRails_eq (d : Dev) : d.dropRails = ((d.endUpdate 5).stopAll).dark { d.thm with sects := [] } := by
  unfold Dev.dropRails
  generalize (d.endUpdate 5).stopAll = x
  rfl

/-- The parts of a device without rails. -/
theorem Dev.dark_parts (x : Dev) (thm : Thm) :
    (x.dark thm).stk = {} ∧ (x.dark thm).tram = {} ∧ (x.dark thm).sram = {} ∧ (x.dark thm).cq = x.cq ∧ (x.dark thm).tiles = x.tiles ∧ (x.dark thm).srv = x.srv
      ∧ (x.dark thm).gan = x.gan ∧ (x.dark thm).hif = { x.hif with pgStk := false, pgCore := false, railsGood := false, phase := .off } := by
  unfold Dev.dark
  generalize hy : (({ x with
    stk := {}, tram := {}, sram := {}, slots := {}, sect := [], cs := [], parts := [], layoutOn := [], fab := {},
    thm := thm } : Dev).resetRegs pgHif (pgHif + 0x1000)).putF rDevStatus fDevStatus_Ready 0 = y
  have hf : y.onlyIn ((List.range 12).foldl (fun d n => d.setReg (rCsState n) 0) y) [.regs] :=
    Dev.onlyIn_foldl _ (fun e _ => e.setReg_frame _ _) _ _
  have hhif : ((List.range 12).foldl (fun d n => d.setReg (rCsState n) 0) y).hif = y.hif := hf .hif rfl
  refine ⟨(hf .stk rfl).trans ?_, (hf .tram rfl).trans ?_, (hf .sram rfl).trans ?_, (hf .cq rfl).trans ?_, (hf .tiles rfl).trans ?_,
    (hf .srv rfl).trans ?_, (hf .gan rfl).trans ?_, ?_⟩
  case refine_8 =>
    rw [Dev.onHif_hif, hhif, ← hy]
    rfl
  all_goals
    rw [← hy]
    rfl

theorem resetOf_hifReset : fld (resetOf rHifReset) fHifReset_Ready = 0 := by decide +kernel

/-- The registers of the host interface and of the power state in a device without rails. -/
theorem Dev.dark_reg (x : Dev) (thm : Thm) {a : Nat} (hs : ∀ n : Nat, n < 12 → a ≠ rCsState n) (hd : a ≠ rDevStatus) :
    (x.dark thm).reg a = if pgHif ≤ a ∧ a < pgHif + 0x1000 then resetOf a else x.reg a := by
  have hn : a ∉ (List.range 12).map rCsState := fun hm => by
    obtain ⟨n, hn, he⟩ := List.mem_map.mp hm
    exact hs n (List.mem_range.mp hn) he.symm
  unfold Dev.dark
  rw [Dev.onHif_reg, Dev.reg_foldl_setReg rCsState, if_neg hn, Dev.reg_putF_ne _ _ _ hd, Dev.reg_resetRegs]
  rfl

theorem rCsState_ne {a : Nat} (h : a < 0x400000 ∨ 0xD00000 ≤ a ∧ a < 0xD01000 := by decide) : ∀ n : Nat, n < 12 → a ≠ rCsState n := by
  intro n hn
  simp only [rCsState, ne_eq]
  omega

/-- Nothing serves a device without rails: the Reset column of the host interface. -/
theorem Dev.unserved_of {d e : Dev} {x : Dev} {thm : Thm} (he : e = x.dark thm) (h : e.regsBut d [rPwrState]) : d.unserved := by
  have hr : ∀ a : Nat, a ≠ rPwrState → pgHif ≤ a → a < pgHif + 0x1000 → d.reg a = resetOf a := by
    intro a hp hlo hhi
    rw [h a (by simpa using hp), he, Dev.dark_reg x thm (rCsState_ne (.inl (by simp only [pgHif] at hhi; omega))) ?_, if_pos ⟨hlo, hhi⟩]
    rintro rfl
    exact absurd hlo (by decide)
  have hreset : d.reg rHifReset = resetOf rHifReset := hr _ (by decide) (by decide) (by decide)
  have hlink : d.getF rHifLink fHifLink_State = 0 := by
    rw [Dev.getF, hr rHifLink (by decide) (by decide) (by decide), resetOf_hifLink]
    decide
  refine ⟨?_, hlink, ?_⟩
  · rw [Dev.ready, Dev.getF, hreset, resetOf_hifReset]
    rfl
  · rw [Dev.linkCarries, hlink]
    rfl

/-- Ending an update takes it away. -/
theorem Dev.endUpdate_none (d : Dev) (result : Nat) : (d.endUpdate result).gan.upd = none ∧ (d.endUpdate result).gan.up = d.gan.up := by
  unfold Dev.endUpdate
  split
  next h => exact ⟨h, rfl⟩
  next u _ =>
    obtain ⟨b, q, f, hg⟩ := Dev.log_logged (((d.onGan (fun g => { g with upd := none })).setReg rMgmtUpdStatus
      (BitVec.ofNat 64 (atBit 16 result)))) 0x30 ([u.oldVer] ++ u.newVer.toList ++ [result])
    rw [hg]
    exact ⟨rfl, rfl⟩

/-- What a device without rails holds (13 R390 to R392). -/
theorem Dev.dropRails_dark (d : Dev) :
    d.dropRails.stk = {} ∧ d.dropRails.tram = {} ∧ d.dropRails.sram = {} ∧ d.dropRails.cq.cmds = [] ∧ d.dropRails.cq.ready = []
      ∧ d.dropRails.tiles = [] ∧ d.dropRails.srv = {} ∧ d.dropRails.gan.upd = none ∧ d.dropRails.gan.up = d.gan.up
      ∧ d.dropRails.hif.pgStk = false ∧ d.dropRails.hif.pgCore = false ∧ d.dropRails.hif.phase = .off := by
  obtain ⟨hupd, hup⟩ := d.endUpdate_none 5
  obtain ⟨j1, j2, j3, j4, j5, j6⟩ := (d.endUpdate 5).stopAll_jobless
  obtain ⟨b, q, f, hg⟩ := Dev.logs.stopAll (Dev.logs.refl (d.endUpdate 5))
  rw [Dev.dropRails_eq]
  generalize (d.endUpdate 5).stopAll = x at j1 j2 j3 j4 j5 j6 hg ⊢
  obtain ⟨h1, h2, h3, h4, h5, h6, h7, h8⟩ := x.dark_parts { d.thm with sects := [] }
  rw [← h4] at j1 j3
  refine ⟨h1, h2, h3, j1, j3, h5.trans j4, h6.trans j6, ?_, ?_, by rw [h8], by rw [h8], by rw [h8]⟩
  · rw [h7, hg]
    exact hupd
  · rw [h7, hg]
    exact hup

theorem Dev.supplySag_saves {d : Dev} (h6 : d.pstate ≠ 6) (h7 : d.pstate ≠ 7) (hup : d.gan.up = true) :
    d.supplySag = (({ d with free := d.free + 1 } : Dev).dropRails.setPstate 7).onPwr (fun x => { x with
      sagTrigger := Config.freeWord d.free, sagTrip := [] }) := by
  unfold Dev.supplySag
  exact if_neg (by simp [h6, h7, hup])

/-- A meaning that acts on the device alone. -/
theorem State.onDev_next {s : State} {f : Dev → Dev} {e : Dev} (h : f s.dev = e) :
    (Host.Outcome.next (s.onDev f) : Host.Outcome State Fault Refusal) = .next { s with dev := e } := by
  rw [← h]
  rfl

/-- Settles O46: each end of an entry, a wake and a save by its own branch, with what it loses and what it leaves. -/
theorem powerStatesChange : Obligations.PowerStatesChange := by
  refine ⟨fun s => ⟨fun h => ?_, fun t hp ht => ?_⟩, fun s failed => ⟨fun h => ?_, fun hact hq => ?_, fun p hact hq he hn => ?_, fun hp hw hh hu => ?_⟩,
    fun s => ⟨fun h => ?_, fun h6 h7 hup => ?_⟩, fun s => ⟨fun h => ?_, fun hp hup => ?_⟩⟩
  · exact State.onDev_next (f := Dev.entered) (Dev.entered_other h)
  · refine ⟨s.dev.entered, State.onDev_next (f := Dev.entered) rfl, ?_⟩
    rw [Dev.entered_eq hp ht]
    obtain ⟨l1, l2, l3, l4⟩ := s.dev.fallowLoss_loses
    by_cases h2 : t = 2
    · have hpwr : s.dev.fallowLoss.pwr = s.dev.pwr := l4 .pwr rfl
      have hret : ∀ n, s.dev.fallowLoss.unitRetired .stack n = s.dev.unitRetired .stack n := Dev.unitRetired_of_ras (l4 .ras rfl) _
      have hstk : s.dev.fallowLoss.stk = s.dev.stk := l4 .stk rfl
      rw [if_pos h2, hpwr]
      obtain ⟨r1, r2, r3, r4, r5, r6, r7⟩ := s.dev.fallowLoss.rested_atRest t s.dev.pwr.wakeWaits
      have hsect := r7 .sect rfl
      simp only [Dev.agree] at hsect
      refine ⟨r1, r2, (r7 .stk rfl).trans hstk, r3, r4, fun n hn h => r5 n hn ((hret n).trans h), fun _ => ⟨(r7 .tiles rfl).trans l1, fun k hk => ?_, fun i hi => ?_⟩,
        fun h => absurd h2 h⟩
      · obtain ⟨hz, hl⟩ := l2 k hk
        refine ⟨Dev.sramZero_congr (r7 .tram rfl) (r7 .sram rfl) hz, (congrArg Sector.lib ?_).trans hl⟩
        rw [hsect]
      · exact (r6 i).trans (l3 i hi)
    · rw [if_neg h2]
      obtain ⟨r1, r2, r3, r4, r5, r6, r7⟩ := s.dev.rested_atRest t s.dev.pwr.wakeWaits
      exact ⟨r1, r2, r7 .stk rfl, r3, r4, r5, fun h => absurd h h2,
        fun _ => ⟨r7 .tiles rfl, r7 .tram rfl, r7 .sram rfl, r7 .sect rfl, fun i _ => r6 i⟩⟩
  · refine State.onDev_next (f := fun d => d.wakeDone s.pads.held failed) ?_
    unfold Dev.wakeDone
    exact if_pos h
  · have hf := s.dev.awake_frame
    have hquiet : s.dev.awake.waitingResets = s.dev.awake :=
      Dev.foldl_startWaiting_none fun p hp => by
        rw [Dev.part_of_parts (hf .parts rfl)]
        exact hq p (List.mem_range.mp hp)
    exact ⟨s.dev.awake, State.onDev_next (f := fun d => d.wakeDone s.pads.held failed) ((Dev.wakeDone_awake hact.1 hact.2 failed).trans hquiet),
      s.dev.awake_pstate, s.dev.awake_event, fun n hn h => Dev.awake_stack hn h, hf⟩
  · have hparts : ∀ q, s.dev.awake.part q = s.dev.part q := Dev.part_of_parts (s.dev.awake_frame .parts rfl)
    have hone := Dev.waitingResets_one p.isLt (fun q hq' => by rw [hparts]; exact hq q hq')
      ((Dev.partExists_of_layout s.dev.awake_layout _).trans he)
      (by rw [← hn]; exact congrArg (fun t => (tget t ({} : Part) p.val).phase != .none) (s.dev.awake_frame .parts rfl)) s.dev.awake_pstate
    rw [hparts] at hone
    exact ⟨s.dev.awake.waitingResets, State.onDev_next (f := fun d => d.wakeDone s.pads.held failed) (Dev.wakeDone_awake hact.1 hact.2 failed), hone⟩
  · obtain ⟨t1, t2, t3, t4⟩ := s.dev.selftest_tests hu
    generalize hx : s.dev.selftest failed = x at t1 t2 t3 t4
    have heq : s.dev.wakeDone s.pads.held failed = (x.setPstate 5).raise pgPwr (2 ^ 1) := by
      unfold Dev.wakeDone
      rw [if_neg (by simp [hp]), if_neg hw, if_pos hh, hx]
      rfl
    have hr : (x.setPstate 5).regsBut ((x.setPstate 5).raise pgPwr (2 ^ 1)) _ := Dev.raise_regsBut _ _ _
    refine ⟨_, State.onDev_next (f := fun d => d.wakeDone s.pads.held failed) heq, ?_, Dev.raise_event _ (by decide) (by decide), ?_, fun u hu' => ?_, ?_⟩
    · rw [Dev.pstate, Dev.getF_of_regsBut hr (by decide)]
      exact Dev.getF_putF_self _ _ _ _ (by decide)
    · rw [Dev.getF_of_regsBut hr (by decide), Dev.setPstate, Dev.getF_putF_ne _ _ _ _ (by decide)]
      exact t1
    · rw [Dev.unit_of_ras (Dev.raise_frame _ _ _ .ras rfl)]
      exact t2 u hu'
    · exact .raise (.setPstate t3)
  · refine State.onDev_next (f := Dev.supplySag) ?_
    unfold Dev.supplySag
    exact if_pos (by simpa using h)
  · have heq := Dev.supplySag_saves h6 h7 hup
    generalize hd : ({ s.dev with free := s.dev.free + 1 } : Dev) = d at heq
    have hup' : d.gan.up = true := by rw [← hd]; exact hup
    obtain ⟨g1, g2, g3, g4, g5, g6, g7, g8, g9, g10, g11, g12⟩ := d.dropRails_dark
    have hun : ∀ y : Dev, d.dropRails.regsBut y [rPwrState] → y.unserved := fun y h => Dev.unserved_of d.dropRails_eq h
    generalize d.dropRails = x at heq g1 g2 g3 g4 g5 g6 g7 g8 g9 g10 g11 g12 hun
    exact ⟨_, State.onDev_next (f := Dev.supplySag) heq, Dev.getF_putF_self _ _ _ _ (by decide), g1, g2, g3, g4, g5, g6, g7, g8, g10, g11, g12,
      hun _ (x.regsBut_putF rPwrState fPwrState_State 7), rfl, g9.trans hup'⟩
  · refine State.onDev_next (f := Dev.saveEnd) ?_
    unfold Dev.saveEnd
    exact if_pos (by simpa using h)
  · exact ⟨s.dev.saveEnd, State.onDev_next (f := Dev.saveEnd) rfl, Dev.saveEnd_saves hp hup⟩

end Sys2Proof.Machine
end

section
/-! # What parts the operations may change: the power-on sequence

The lemma about an operation has its name, in the order of the definitions. -/

namespace Sys2Proof.Machine
-- These proofs are many and small: elaborated all at once they take more threads than the checker has.
set_option Elab.async false
namespace Dev.onlyIn
variable {d₀ d e : Dev} {C : List Comp}

theorem selftest (h₀ : d₀.onlyIn d C) {failed : List UnitId} (sub : among [.regs, .ras, .hif, .free] C := by rfl) : d₀.onlyIn
  (d.selftest failed) C :=
  h₀.into sub fun _ hd => .ite (.putF (.setReg (.set_free hd))) (.raise (.foldl (.putF (.setReg (.set_free hd))) (fun _ _ h4 =>
    .linkOff (.takeOut h4))))

theorem onHif (h₀ : d₀.onlyIn d C) {f : Hif → Hif} (sub : among [.hif] C := by rfl) : d₀.onlyIn (d.onHif f) C :=
  h₀.after (Dev.onHif_frame _ _) (among.sub sub)

theorem onFab (h₀ : d₀.onlyIn d C) {f : Fab → Fab} (sub : among [.fab] C := by rfl) : d₀.onlyIn (d.onFab f) C :=
  h₀.after (Dev.onFab_frame _ _) (among.sub sub)

theorem gridBeats (h₀ : d₀.onlyIn d C) (sub : among [.fab] C := by rfl) : d₀.onlyIn d.gridBeats C :=
  h₀.into sub fun _ hd => .ite hd (.onFab hd)

theorem retireUnit (h₀ : d₀.onlyIn d C) {u : UnitId} {reason : Nat} {persisted : Bool} (sub : among [.ras] C := by rfl) :
  d₀.onlyIn (d.retireUnit u reason persisted) C :=
  h₀.into sub fun _ hd => .setUnit hd

theorem applyRetire (h₀ : d₀.onlyIn d C) {scope a u reason : Nat} {persisted : Bool} (sub : among [.regs, .cs, .ras] C := by
  rfl) : d₀.onlyIn (d.applyRetire scope a u reason persisted) C := by
  refine h₀.into sub fun _ hd => ?_
  unfold Dev.applyRetire
  dsimp only
  split
  · exact .putF (.modStack hd)
  · exact .putF (.modStack hd)
  · exact .modReg hd
  · exact .putF (.retireUnit hd)
  · exact .retireUnit hd
  · exact .retireUnit hd
  · exact .retireUnit hd
  · exact .putF (.retireUnit hd)

theorem hostLinkTrains (h₀ : d₀.onlyIn d C) (sub : among [.regs] C := by rfl) : d₀.onlyIn d.hostLinkTrains C :=
  h₀.after (Dev.hostLinkTrains_frame _) (among.sub sub)

theorem trainStack (h₀ : d₀.onlyIn d C) {n : Nat} (sub : among [.regs, .cs] C := by rfl) : d₀.onlyIn (d.trainStack n) C :=
  h₀.into sub fun _ hd => .trainFrom hd

end Dev.onlyIn
end Sys2Proof.Machine
end

section
/-! # The power-on sequence -/

namespace Sys2Proof.Machine

/-! ## POWER_ON (15 R435 steps 1 to 3) -/

theorem State.powerOn_booted (s : State) : s.booted s.powerOn 0 ∧ s.powerOn.dev.hif.perstN = false ∧ s.powerOn.dev.hif.railsGood = false := by
  obtain ⟨vs, out, hh⟩ := Dev.boot_hif (s.dev.onHif (fun h => { h with perstN := false, railsGood := false, perstFellAt := 0 })) s.ident 0
  refine ⟨State.booted_of_onDev (f := fun d => d.onHif (fun h => { h with perstN := false, railsGood := false, perstFellAt := 0 })) rfl rfl
    (State.boot_booted _ (by decide)), ?_, ?_⟩
  · exact congrArg Hif.perstN hh
  · exact congrArg Hif.railsGood hh

/-! ## Retirement records applied (12 R351) -/

/-- A register that no retirement writes. -/
def offRetire (a : Nat) : Prop :=
  (∀ n : Nat, n < 12 → a ≠ rCsRetireState n) ∧ (∀ n p : Nat, n < 12 → p < 32 → a ≠ rCsRetireBank n p) ∧ ∀ i : Nat, i < 96 → a ≠ rFabLinkState i

/-- What a record may name, so that it names what the device has. -/
def RetRec.plain (r : RetRec) : Prop := r.addr < stackTop ∧ r.unit < 144 ∧ (7 ≤ r.kind → r.unit < 96)

theorem stackOf_lt {a : Nat} (h : a < stackTop) : stackOf a < 12 := by
  simp only [stackOf, stackTop, stackBytes] at *
  omega

theorem pcOf_lt (a : Nat) : pcOf a < 32 := Nat.mod_lt _ (by decide)

theorem Dev.retireUnit_frame (d : Dev) (u : UnitId) (reason : Nat) (persisted : Bool) : d.onlyIn (d.retireUnit u reason persisted) [.ras] :=
  d.setUnit_frame _ _

theorem Dev.applyRetire_reg (d : Dev) {scope a u reason : Nat} {persisted : Bool} (ha : a < stackTop) (hu : 7 ≤ scope → u < 96) {b : Nat}
    (hb : offRetire b) : (d.applyRetire scope a u reason persisted).reg b = d.reg b := by
  obtain ⟨h1, h2, h3⟩ := hb
  have hn := h1 _ (stackOf_lt ha)
  have hbank := h2 _ _ (stackOf_lt ha) (pcOf_lt a)
  unfold Dev.applyRetire
  split
  · exact Dev.reg_putF_ne _ _ _ hn
  · exact Dev.reg_putF_ne _ _ _ hn
  · exact Dev.reg_setReg_ne _ _ hbank
  · exact Dev.reg_putF_ne _ _ _ hn
  · rfl
  · rfl
  · rfl
  next h0 h1' h2' h3' h4 h5 h6 =>
    have hk : 7 ≤ scope := by
      by_contra hlt
      interval_cases scope
      all_goals simp_all
    exact Dev.reg_putF_ne _ _ _ (h3 u (hu hk))

theorem Dev.applyRetire_frame (d : Dev) (scope a u reason : Nat) (persisted : Bool) :
    d.onlyIn (d.applyRetire scope a u reason persisted) [.regs, .cs, .ras] := .applyRetire (d.onlyIn_refl _)

/-- A retirement leaves whether the bitmap of a stack was cleared. -/
theorem Dev.applyRetire_unclear (d : Dev) (scope a u reason : Nat) (persisted : Bool) (n : Nat) :
    ((d.applyRetire scope a u reason persisted).stackSt n).unclear = (d.stackSt n).unclear := by
  have hmod : ((d.modStack (stackOf a) (fun s => { s with retired := s.retired ++ [regionOf scope a] })).stackSt n).unclear
      = (d.stackSt n).unclear := by
    rw [Dev.stackSt, Dev.stackSt, Dev.modStack_cs]
    by_cases h : n = stackOf a
    · rw [h, tget_tmod_self]
    · rw [tget_tmod_ne _ _ _ h]
  unfold Dev.applyRetire
  split
  · exact hmod
  · exact hmod
  all_goals rfl

theorem Dev.retireUnit_retires (d : Dev) (u w : UnitId) (reason : Nat) (persisted : Bool) (h : w = u ∨ (d.unit w).state = 2) :
    ((d.retireUnit u reason persisted).unit w).state = 2 := by
  rw [Dev.retireUnit, Dev.unit_setUnit]
  split
  next => rfl
  next hne => exact h.resolve_left fun he => hne (by rw [he])

/-- The unit that a record retires, where it retires one of a tile, DMA, sector or stack. -/
def RetRec.names (r : RetRec) (w : UnitId) : Prop :=
  (r.kind = 3 ∧ w = ⟨.stack, stackOf r.addr⟩) ∨ (r.kind = 4 ∧ w = ⟨.tile, r.unit⟩) ∨ (r.kind = 5 ∧ w = ⟨.dma, r.unit⟩)
    ∨ (r.kind = 6 ∧ w = ⟨.sector, r.unit⟩)

theorem Dev.applyRecord_retires (d : Dev) (r : RetRec) (w : UnitId) (h : r.names w ∨ (d.unit w).state = 2) :
    ((d.applyRecord r).unit w).state = 2 := by
  have hkeep : ∀ e : Dev, e.ras = d.ras → ¬ r.names w → (e.unit w).state = 2 := fun e he hn => by
    rw [Dev.unit_of_ras he]
    exact h.resolve_left hn
  unfold Dev.applyRecord Dev.applyRetire
  simp only [RetRec.names] at h hkeep
  split
  next hk => exact hkeep _ rfl (by simp [hk])
  next hk => exact hkeep _ rfl (by simp [hk])
  next hk => exact hkeep _ rfl (by simp [hk])
  next hk => exact d.retireUnit_retires _ w _ _ (by simpa [hk] using h)
  next hk => exact d.retireUnit_retires _ w _ _ (by simpa [hk] using h)
  next hk => exact d.retireUnit_retires _ w _ _ (by simpa [hk] using h)
  next hk => exact d.retireUnit_retires _ w _ _ (by simpa [hk] using h)
  next _ _ _ h3 h4 h5 h6 => exact d.retireUnit_retires _ w _ _ (.inr (h.resolve_left (by
    rintro (⟨hk, _⟩ | ⟨hk, _⟩ | ⟨hk, _⟩ | ⟨hk, _⟩)
    exacts [h3 hk, h4 hk, h5 hk, h6 hk])))

theorem Dev.foldl_applyRecord (rs : List RetRec) (d : Dev) :
    d.onlyIn (rs.foldl (fun d r => d.applyRecord r) d) [.regs, .cs, .ras]
      ∧ (∀ n : Nat, ((rs.foldl (fun d r => d.applyRecord r) d).stackSt n).unclear = (d.stackSt n).unclear)
      ∧ (∀ w : UnitId, (∃ r ∈ rs, r.names w) ∨ (d.unit w).state = 2 → ((rs.foldl (fun d r => d.applyRecord r) d).unit w).state = 2)
      ∧ ((∀ r ∈ rs, r.plain) → ∀ b : Nat, offRetire b → (rs.foldl (fun d r => d.applyRecord r) d).reg b = d.reg b) := by
  induction rs generalizing d with
  | nil => exact ⟨d.onlyIn_refl _, fun _ => rfl, fun w h => h.resolve_left fun ⟨r, hr, _⟩ => absurd hr List.not_mem_nil, fun _ _ _ => rfl⟩
  | cons r rs ih =>
    obtain ⟨h1, h2, h3, h4⟩ := ih (d.applyRecord r)
    refine ⟨Dev.onlyIn_trans (d.applyRetire_frame _ _ _ _ _) h1, fun n => (h2 n).trans (d.applyRetire_unclear _ _ _ _ _ n), fun w hw => h3 w ?_,
      fun hp b hb => ?_⟩
    · rcases hw with ⟨r', hr', hn⟩ | hw
      · rcases List.mem_cons.mp hr' with rfl | hr'
        · exact .inr (d.applyRecord_retires _ w (.inl hn))
        · exact .inl ⟨r', hr', hn⟩
      · exact .inr (d.applyRecord_retires r w (.inr hw))
    · obtain ⟨ha, _, hu⟩ := hp r List.mem_cons_self
      rw [List.foldl_cons, h4 (fun r' hr' => hp r' (List.mem_cons_of_mem _ hr')) b hb]
      exact d.applyRetire_reg ha hu hb

/-! ## Stacks that train (15 R435 step 7) -/

/-- The state word of a stack that trains. -/
def trainWord (clears : Bool) : W64 := BitVec.ofNat 64 (atBit 1 1 + atBit 2 (if clears then 1 else 0) + atBit 3 1)

theorem trainWord_fields (clears : Bool) : fld (trainWord clears) fCsState_Training = 1 ∧ fld (trainWord clears) fCsState_Ready = 0
    ∧ fld (trainWord clears) fCsState_VbmClear = if clears = true then 1 else 0 := by
  cases clears <;> decide

theorem Dev.trainStack_frame (d : Dev) (n : Nat) : d.onlyIn (d.trainStack n) [.regs, .cs] := .trainStack (d.onlyIn_refl _)

theorem Dev.trainStack_st (d : Dev) (n m : Nat) :
    (d.trainStack n).stackSt m = if m = n then { d.stackSt n with trainAt := d.time } else d.stackSt m := by
  have hcs : (d.trainStack n).cs = tmod d.cs {} n (fun s => { s with trainAt := d.time }) := rfl
  rw [Dev.stackSt, hcs]
  by_cases h : m = n
  · rw [if_pos h, h, tget_tmod_self]
    rfl
  · rw [if_neg h, tget_tmod_ne _ _ _ h]
    rfl

theorem Dev.trainStack_reg (d : Dev) (n a : Nat) :
    (d.trainStack n).reg a = if a = rCsState n then trainWord (d.stackSt n).unclear else d.reg a := by
  rw [Dev.trainStack, Dev.trainFrom, Dev.reg_setReg]
  rfl

theorem rCsState_inj {m n : Nat} (h : rCsState m = rCsState n) : m = n := by
  simp only [rCsState] at h
  omega

/-- Stacks trained in turn. -/
theorem Dev.foldl_trainStack (ns : List Nat) (d : Dev) :
    d.onlyIn (ns.foldl (fun d n => d.trainStack n) d) [.regs, .cs]
      ∧ (∀ a : Nat, (∀ n ∈ ns, a ≠ rCsState n) → (ns.foldl (fun d n => d.trainStack n) d).reg a = d.reg a)
      ∧ (∀ m : Nat, ((ns.foldl (fun d n => d.trainStack n) d).stackSt m).unclear = (d.stackSt m).unclear)
      ∧ ∀ m : Nat, m ∈ ns ∨ ((d.stackSt m).trainAt = d.time ∧ d.reg (rCsState m) = trainWord (d.stackSt m).unclear) →
          ((ns.foldl (fun d n => d.trainStack n) d).stackSt m).trainAt = d.time
            ∧ (ns.foldl (fun d n => d.trainStack n) d).reg (rCsState m) = trainWord (d.stackSt m).unclear := by
  induction ns generalizing d with
  | nil => exact ⟨d.onlyIn_refl _, fun _ _ => rfl, fun _ => rfl, fun m h => h.resolve_left List.not_mem_nil⟩
  | cons n ns ih =>
    obtain ⟨h1, h2, h3, h4⟩ := ih (d.trainStack n)
    have hclear : ∀ m, ((d.trainStack n).stackSt m).unclear = (d.stackSt m).unclear := fun m => by
      rw [Dev.trainStack_st]
      split
      next h => rw [h]
      next => rfl
    refine ⟨Dev.onlyIn_trans (d.trainStack_frame n) h1, fun a ha => ?_, fun m => (h3 m).trans (hclear m), fun m hm => ?_⟩
    · rw [List.foldl_cons, h2 a fun k hk => ha k (List.mem_cons_of_mem _ hk), Dev.trainStack_reg, if_neg (ha n List.mem_cons_self)]
    · have hgoal := h4 m
      rw [hclear, show (d.trainStack n).time = d.time from d.trainStack_frame n .time rfl] at hgoal
      refine hgoal ?_
      by_cases hmn : m = n
      · right
        rw [Dev.trainStack_st, if_pos hmn, Dev.trainStack_reg, if_pos (by rw [hmn]), hmn]
        exact ⟨rfl, rfl⟩
      · refine hm.imp (fun h => (List.mem_cons.mp h).resolve_left hmn) fun h => ?_
        rw [Dev.trainStack_st, if_neg hmn, Dev.trainStack_reg, if_neg fun he => hmn (rCsState_inj he)]
        exact h

/-! ## RAILS_GOOD (15 R435 steps 5 to 7) -/

/-- The device once its rails are good and the host link trains where it may. -/
def Dev.railed (d : Dev) : Dev := (d.onHif (fun h => { h with railsGood := true })).hostLinkTrains

/-- The rails' step before the stacks train. -/
def Dev.tested (d : Dev) (failed : List UnitId) : Dev :=
  let d := d.putF rPwrClk fPwrClk_Cur d.effClk
  let d := if d.recoveryBoot then d else d.selftest failed
  if d.hif.warm ∨ d.recoveryBoot then d else d.gan.cfg.retired.foldl (fun d r => d.applyRecord r) d

theorem Dev.railsGood_waits {d : Dev} {failed : List UnitId}
    (h : ¬ (d.hif.phase = .waitRails ∧ d.hif.pgStk = true ∧ (d.hif.warm = true → d.hif.perstN = true))) :
    d.railsGood failed = d.railed := by
  have hh : d.railed.hif = { d.hif with railsGood := true } := Dev.hostLinkTrains_frame _ .hif rfl
  unfold Dev.railsGood
  refine if_pos ?_
  show d.railed.hif.phase ≠ .waitRails ∨ _ ∨ _
  rw [show (d.onHif (fun h => { h with railsGood := true })).hostLinkTrains = d.railed from rfl, hh]
  by_contra hc
  simp only [not_or, Decidable.not_not, Bool.not_eq_true', Bool.not_eq_false, not_and] at hc
  exact h ⟨hc.1, hc.2.1, fun hw => by simpa using hc.2.2 hw⟩

theorem Dev.railsGood_goes {d : Dev} {failed : List UnitId}
    (h : d.hif.phase = .waitRails ∧ d.hif.pgStk = true ∧ (d.hif.warm = true → d.hif.perstN = true)) :
    d.railsGood failed = ((d.railed.tested failed).bootStacks.foldl (fun d n => d.trainStack n) (d.railed.tested failed)).onHif
      (fun h => { h with phase := .training }) := by
  have hh : d.railed.hif = { d.hif with railsGood := true } := Dev.hostLinkTrains_frame _ .hif rfl
  unfold Dev.railsGood
  refine if_neg ?_
  rw [show (d.onHif (fun h => { h with railsGood := true })).hostLinkTrains = d.railed from rfl, hh]
  simp only [not_or, Decidable.not_not, Bool.not_eq_true', Bool.not_eq_false, not_and]
  exact ⟨h.1, h.2.1, fun hw => by simpa using h.2.2 hw⟩

theorem Dev.railed_frame (d : Dev) : d.onlyIn d.railed [.regs, .hif] := .hostLinkTrains (.onHif (d.onlyIn_refl _))

theorem Dev.railed_regsBut (d : Dev) : d.regsBut d.railed [rHifLink] := Dev.hostLinkTrains_regsBut _

/-- The effective clock depends on neither the host link's register nor the host interface. -/
theorem Dev.railed_effClk (d : Dev) : d.railed.effClk = d.effClk := by
  have hr : ∀ (a : Nat) (f : Fld), a ≠ rHifLink → d.railed.getF a f = d.getF a f :=
    fun a f ha => Dev.getF_of_regsBut d.railed_regsBut (by simpa using ha) f
  have hfloor : ∀ p, d.railed.getF (rSrvAdmFloor p) fSrvAdmFloor_Clk = d.getF (rSrvAdmFloor p) fSrvAdmFloor_Clk := fun p => hr _ _ (by
    simp only [rSrvAdmFloor, rHifLink, ne_eq]
    omega)
  have hlive : ∀ p, d.railed.liveCount p = d.liveCount p := fun p => by
    rw [Dev.liveCount, Dev.liveCount, show d.railed.srv = d.srv from d.railed_frame .srv rfl]
  have hfab : d.railed.fab = d.fab := d.railed_frame .fab rfl
  have hepoch : d.railed.hasEpoch = d.hasEpoch := by rw [Dev.hasEpoch, Dev.hasEpoch, hr rFabStatus _ (by decide)]
  have hfb : d.railed.fbClk = d.fbClk := by
    unfold Dev.fbClk
    rw [hfab, hepoch]
  simp only [Dev.effClk, Dev.heldClk, hfb, hfloor, hlive, hfab, hr rFabStatus _ (by decide), hr rPwrClk _ (by decide)]

theorem Dev.tested_frame (d : Dev) (failed : List UnitId) : d.onlyIn (d.tested failed) [.regs, .hif, .ras, .cs, .free] := by
  unfold Dev.tested
  dsimp only
  have h1 : d.onlyIn (if (d.putF rPwrClk fPwrClk_Cur d.effClk).recoveryBoot then d.putF rPwrClk fPwrClk_Cur d.effClk
      else (d.putF rPwrClk fPwrClk_Cur d.effClk).selftest failed) [.regs, .hif, .ras, .cs, .free] :=
    .ite (.putF (d.onlyIn_refl _)) (.selftest (.putF (d.onlyIn_refl _)))
  exact .ite h1 (Dev.onlyIn.after h1 (Dev.foldl_applyRecord _ _).1)

/-- Registers that the rails' step leaves: all but the clock, the self-test's, and those of retired units. -/
def offTest (a : Nat) : Prop :=
  [rRasSelftest, rRasStatus, rBlkIntStat pgRas, rHifTxDrop, rBlkIntStat pgHif].contains a = false ∧ offRetire a

theorem Dev.selftest_spoke (d : Dev) (failed : List UnitId) : d.hif.spoke (d.selftest failed).hif := by
  have hstep : ∀ (e : Dev) (u : UnitId), e.hif.spoke (e.failTest u).hif := by
    intro e u
    have hl : (e.takeOut u 1).onlyIn (e.failTest u) [.regs] := .linkOff (Dev.onlyIn_refl _ _)
    rw [show (e.failTest u).hif = (e.takeOut u 1).hif from hl .hif rfl, Dev.takeOut]
    split
    · exact e.hif.spoke_refl
    · exact Dev.raise_spoke _ _ _
  generalize hx : (({ d with free := d.free + 1 } : Dev).setReg rRasSelftest (BitVec.ofNat 64 (min failed.length 0xFFFF
    + atBit 16 (Config.freeWord d.free % 2 ^ 16)))).putF rRasStatus fRasStatus_SelftestDone 1 = x
  have heq : d.selftest failed = if failed.isEmpty then x else (failed.foldl Dev.failTest x).raise pgRas 1 := by
    rw [← hx]
    rfl
  have hxh : x.hif = d.hif := by
    rw [← hx]
    rfl
  rw [heq, ← hxh]
  split
  · exact x.hif.spoke_refl
  · exact Hif.spoke_trans (Dev.spoke_foldl (f := Dev.failTest) hstep failed x) (Dev.raise_spoke _ _ _)

theorem Dev.tested_spoke (d : Dev) (failed : List UnitId) : d.hif.spoke (d.tested failed).hif := by
  have hx : ∀ x : Dev, d.hif.spoke x.hif →
      d.hif.spoke (if x.hif.warm ∨ x.recoveryBoot then x else x.gan.cfg.retired.foldl (fun d r => d.applyRecord r) x).hif := by
    intro x h
    split
    · exact h
    · rw [show (x.gan.cfg.retired.foldl (fun d r => d.applyRecord r) x).hif = x.hif from (Dev.foldl_applyRecord _ x).1 .hif rfl]
      exact h
  unfold Dev.tested
  refine hx _ ?_
  split
  · exact d.hif.spoke_refl
  · exact Dev.selftest_spoke (d.putF rPwrClk fPwrClk_Cur d.effClk) failed

/-- The registers after the rails' step. -/
theorem Dev.tested_reg (d : Dev) {failed : List UnitId} (hu : ∀ u ∈ failed, u.kind = .link → u.index < 96)
    (hp : ∀ r ∈ d.gan.cfg.retired, r.plain) {a : Nat} (ha : offTest a) :
    (d.tested failed).reg a = (d.putF rPwrClk fPwrClk_Cur d.effClk).reg a := by
  obtain ⟨hq, hr⟩ := ha
  unfold Dev.tested
  dsimp only
  generalize hb : d.putF rPwrClk fPwrClk_Cur d.effClk = b
  have hg : b.gan = d.gan := by rw [← hb]; rfl
  have hx : ∀ x : Dev, x.gan = b.gan → x.reg a = b.reg a →
      (if x.hif.warm ∨ x.recoveryBoot then x else x.gan.cfg.retired.foldl (fun d r => d.applyRecord r) x).reg a = b.reg a := by
    intro x hxg hxr
    split
    · exact hxr
    · rw [(Dev.foldl_applyRecord _ x).2.2.2 (by rw [hxg, hg]; exact hp) a hr, hxr]
  obtain ⟨-, -, hf, ht⟩ := b.selftest_tests hu
  refine hx _ ?_ ?_
  · split
    · rfl
    · exact hf .gan rfl
  · split
    · rfl
    · exact ht a hq hr.2.2

/-- The rails' step leaves whether the bitmap of a stack was cleared. -/
theorem Dev.tested_unclear (d : Dev) (failed : List UnitId) (n : Nat) : ((d.tested failed).stackSt n).unclear = (d.stackSt n).unclear := by
  unfold Dev.tested
  dsimp only
  generalize hb : d.putF rPwrClk fPwrClk_Cur d.effClk = b
  have hst : ∀ x : Dev, x.cs = d.cs →
      ((if x.hif.warm ∨ x.recoveryBoot then x else x.gan.cfg.retired.foldl (fun d r => d.applyRecord r) x).stackSt n).unclear
        = (d.stackSt n).unclear := by
    intro x hc
    have hx : (x.stackSt n).unclear = (d.stackSt n).unclear := by rw [Dev.stackSt, Dev.stackSt, hc]
    split
    · exact hx
    · exact ((Dev.foldl_applyRecord _ x).2.1 n).trans hx
  refine hst _ ?_
  have hself : b.onlyIn (b.selftest failed) [.regs, .hif, .ras, .free] := .selftest (b.onlyIn_refl _)
  have hbc : b.cs = d.cs := by rw [← hb]; rfl
  split
  · exact hbc
  · exact (hself .cs rfl).trans hbc

/-- With the pages of the self-test and the records left out nothing but the clock changed. -/
theorem Dev.tested_clock (d : Dev) (h : d.gan.cfg.retired = []) :
    (d.tested []).reg rPwrClk = (d.putF rPwrClk fPwrClk_Cur d.effClk).reg rPwrClk := by
  refine d.tested_reg (fun u hu => absurd hu List.not_mem_nil) (by simp [h]) ⟨by decide, fun n hn => ?_, fun n p hn _ => ?_, fun i hi => ?_⟩
  · simp only [rPwrClk, rCsRetireState, ne_eq]
    omega
  · simp only [rPwrClk, rCsRetireBank, ne_eq]
    omega
  · simp only [rPwrClk, rFabLinkState, ne_eq]
    omega

/-- After a power-on every unit that a record names is retired. -/
theorem Dev.tested_retires (d : Dev) {failed : List UnitId} (hu : ∀ u ∈ failed, u.kind = .link → u.index < 96)
    (hr : d.recoveryBoot = false) (hw : d.hif.warm = false) {w : UnitId} (h : ∃ r ∈ d.gan.cfg.retired, r.names w) :
    ((d.tested failed).unit w).state = 2 := by
  unfold Dev.tested
  dsimp only
  generalize hb : d.putF rPwrClk fPwrClk_Cur d.effClk = b
  have hbg : b.gan = d.gan := by rw [← hb]; rfl
  have hbw : b.hif = d.hif := by rw [← hb]; rfl
  have hbr : b.recoveryBoot = false := by
    rw [← hr, ← hb, Dev.recoveryBoot, Dev.recoveryBoot, Dev.getF_putF_ne _ _ _ _ (by decide)]
  obtain ⟨-, -, hf, ht⟩ := b.selftest_tests hu
  have hxr : (b.selftest failed).recoveryBoot = false := by
    rw [← hbr, Dev.recoveryBoot, Dev.recoveryBoot, Dev.getF, Dev.getF, ht rMgmtStatus (by decide) fun i hi => by
      simp only [rMgmtStatus, rFabLinkState, ne_eq]
      omega]
  have hxw : (b.selftest failed).hif.warm = false := by
    obtain ⟨vs, out, hs⟩ := b.selftest_spoke failed
    rw [hs, ← hw, ← hbw]
  have hxg : (b.selftest failed).gan = b.gan := hf .gan rfl
  rw [hbr, if_neg Bool.false_ne_true, if_neg (by simp [hxr, hxw])]
  exact (Dev.foldl_applyRecord _ _).2.2.1 w (.inl (by rw [hxg, hbg]; exact h))

theorem rCsState_offTest {n : Nat} (hn : n < 12) : offTest (rCsState n) := by
  refine ⟨?_, fun m hm => ?_, fun m p hm hp => ?_, fun i hi => ?_⟩
  · simp [rCsState, rRasSelftest, rRasStatus, rBlkIntStat, pgRas, rHifTxDrop, pgHif]
    omega
  · simp only [rCsState, rCsRetireState, ne_eq]
    omega
  · simp only [rCsState, rCsRetireBank, ne_eq]
    omega
  · simp only [rCsState, rFabLinkState, ne_eq]
    omega

/-- Registers low in the map, and those of the management and power pages. -/
theorem offTest_of_low {a : Nat} (ha : a < 0x400000 ∨ 0xF00000 ≤ a)
    (h : [rHifTxDrop, rBlkIntStat pgHif].contains a = false) : offTest a := by
  simp only [List.contains_cons, List.contains_nil, Bool.or_false, Bool.or_eq_false_iff, beq_eq_false_iff_ne] at h
  refine ⟨?_, fun m hm => ?_, fun m p hm hp => ?_, fun i hi => ?_⟩
  · simp only [List.contains_cons, List.contains_nil, Bool.or_false, Bool.or_eq_false_iff, beq_eq_false_iff_ne]
    refine ⟨?_, ?_, ?_, h.1, h.2⟩ <;> simp only [rRasSelftest, rRasStatus, rBlkIntStat, pgRas, ne_eq] <;> omega
  · simp only [rCsRetireState, ne_eq]
    omega
  · simp only [rCsRetireBank, ne_eq]
    omega
  · simp only [rFabLinkState, ne_eq]
    omega

/-- The stacks that train are the same before and after the rails' step. -/
theorem Dev.tested_bootStacks (d : Dev) {failed : List UnitId} (hu : ∀ u ∈ failed, u.kind = .link → u.index < 96)
    (hp : ∀ r ∈ d.gan.cfg.retired, r.plain) : (d.railed.tested failed).bootStacks = d.bootStacks := by
  have hg : d.railed.gan = d.gan := d.railed_frame .gan rfl
  have hm : (d.railed.tested failed).reg rMgmtStatus = d.reg rMgmtStatus := by
    rw [Dev.tested_reg _ hu (by rw [hg]; exact hp) (offTest_of_low (.inr (by decide)) (by decide)), Dev.reg_putF_ne _ _ _ (by decide),
      d.railed_regsBut _ (by decide)]
  rw [Dev.bootStacks, Dev.bootStacks, Dev.recoveryBoot, Dev.recoveryBoot, Dev.getF, Dev.getF, hm]

theorem Dev.mem_bootStacks {d : Dev} {n : Nat} (h : n ∈ d.bootStacks) : n < 12 := by
  unfold Dev.bootStacks at h
  split at h
  · simp only [List.mem_singleton] at h
    omega
  · exact List.mem_range.mp h

theorem Dev.railed_link {d : Dev} (hp : d.hif.phase = .waitRails) :
    d.railed.getF rHifLink fHifLink_State
      = (if d.hif.perstN = true ∧ d.getF rHifLink fHifLink_State = 0 then 1 else d.getF rHifLink fHifLink_State) := by
  unfold Dev.railed Dev.hostLinkTrains
  by_cases hc : d.hif.perstN = true ∧ d.getF rHifLink fHifLink_State = 0
  · rw [if_pos hc, if_pos ⟨hc.1, rfl, by simp [hp], hc.2⟩]
    exact Dev.getF_putF_self _ _ _ _ (by decide)
  · rw [if_neg hc, if_neg fun h => hc ⟨h.1, h.2.2.2⟩]
    rfl

/-- What the rails' step leads to (R435 steps 5 to 7). -/
theorem Dev.railsGood_trains {d : Dev} {failed : List UnitId}
    (hgo : d.hif.phase = .waitRails ∧ d.hif.pgStk = true ∧ (d.hif.warm = true → d.hif.perstN = true))
    (hu : ∀ u ∈ failed, u.kind = .link → u.index < 96) (hp : ∀ r ∈ d.gan.cfg.retired, r.plain) :
    let e := d.railsGood failed
    e.hif.phase = .training ∧ e.stk = d.stk ∧ e.cq = d.cq ∧ e.tiles = d.tiles
      ∧ (∀ n ∈ d.bootStacks, e.getF (rCsState n) fCsState_Training = 1 ∧ e.getF (rCsState n) fCsState_Ready = 0
          ∧ e.getF (rCsState n) fCsState_VbmClear = (if (d.stackSt n).unclear = true then 1 else 0) ∧ (e.stackSt n).trainAt = d.time)
      ∧ e.getF rHifLink fHifLink_State
          = (if d.hif.perstN = true ∧ d.getF rHifLink fHifLink_State = 0 then 1 else d.getF rHifLink fHifLink_State)
      ∧ (failed = [] → d.gan.cfg.retired = [] → e.getF rPwrClk fPwrClk_Cur = d.effClk % 128)
      ∧ (d.recoveryBoot = false → d.hif.warm = false → ∀ w : UnitId, (∃ r ∈ d.gan.cfg.retired, r.names w) → (e.unit w).state = 2) := by
  have hg : d.railed.gan = d.gan := d.railed_frame .gan rfl
  have hf1 : d.onlyIn (d.railed.tested failed) [.regs, .hif, .ras, .cs, .free] :=
    Dev.onlyIn_trans (Dev.onlyIn_sub _ d.railed_frame rfl) (d.railed.tested_frame failed)
  have hreg : ∀ a, offTest a → (d.railed.tested failed).reg a = (d.railed.putF rPwrClk fPwrClk_Cur d.railed.effClk).reg a :=
    fun a ha => d.railed.tested_reg hu (by rw [hg]; exact hp) ha
  have hclear : ∀ n, ((d.railed.tested failed).stackSt n).unclear = (d.stackSt n).unclear := fun n => by
    rw [Dev.tested_unclear, Dev.stackSt, Dev.stackSt, show d.railed.cs = d.cs from d.railed_frame .cs rfl]
  have hclk : failed = [] → d.gan.cfg.retired = [] →
      (d.railed.tested failed).getF rPwrClk fPwrClk_Cur = d.effClk % 128 := by
    rintro rfl hn
    rw [Dev.getF, Dev.tested_clock _ (by rw [hg]; exact hn), Dev.railed_effClk]
    exact Dev.getF_putF_self _ _ _ _ (by decide)
  have hret : d.recoveryBoot = false → d.hif.warm = false → ∀ w : UnitId, (∃ r ∈ d.gan.cfg.retired, r.names w) →
      ((d.railed.tested failed).unit w).state = 2 := by
    intro hr hw w h
    refine d.railed.tested_retires hu ?_ ?_ (by rw [hg]; exact h)
    · rw [← hr, Dev.recoveryBoot, Dev.recoveryBoot, Dev.getF_of_regsBut d.railed_regsBut (by decide)]
    · rw [← hw, show d.railed.hif = { d.hif with railsGood := true } from Dev.hostLinkTrains_frame _ .hif rfl]
  have hlink : (d.railed.tested failed).getF rHifLink fHifLink_State = d.railed.getF rHifLink fHifLink_State := by
    rw [Dev.getF, hreg _ (offTest_of_low (.inl (by decide)) (by decide)), Dev.reg_putF_ne _ _ _ (by decide)]
    rfl
  have hboot := d.tested_bootStacks hu hp
  dsimp only
  rw [Dev.railsGood_goes hgo]
  generalize d.railed.tested failed = x at hf1 hreg hclear hclk hret hlink hboot ⊢
  obtain ⟨h1, h2, h3, h4⟩ := Dev.foldl_trainStack x.bootStacks x
  rw [hboot] at h1 h2 h3 h4 ⊢
  generalize d.bootStacks.foldl (fun d n => d.trainStack n) x = y at h1 h2 h3 h4 ⊢
  have hf : d.onlyIn y [.regs, .hif, .ras, .cs, .free] := Dev.onlyIn.after hf1 h1
  have hlow : ∀ a, a < 0x400000 ∨ 0xD00000 ≤ a → y.reg a = x.reg a := fun a ha => h2 a fun n hn => by
    have := Dev.mem_bootStacks hn
    simp only [rCsState, ne_eq]
    omega
  refine ⟨rfl, hf .stk rfl, hf .cq rfl, hf .tiles rfl, fun n hn => ?_, ?_, fun h1 h2 => ?_, fun hr hw w h => ?_⟩
  · obtain ⟨ht, hw⟩ := h4 n (.inl hn)
    obtain ⟨w1, w2, w3⟩ := trainWord_fields (d.stackSt n).unclear
    rw [hclear] at hw
    have hb : ∀ f, Dev.getF (y.onHif (fun h => { h with phase := .training })) (rCsState n) f = fld (trainWord (d.stackSt n).unclear) f :=
      fun f => congrArg (fld · f) hw
    rw [hb, hb, hb]
    exact ⟨w1, w2, w3, ht.trans (hf1 .time rfl)⟩
  · rw [← Dev.railed_link hgo.1, ← hlink]
    exact congrArg (fld · fHifLink_State) (hlow rHifLink (.inl (by decide)))
  · rw [← hclk h1 h2]
    exact congrArg (fld · fPwrClk_Cur) (hlow rPwrClk (.inr (by decide)))
  · rw [← hret hr hw w h]
    exact congrArg UnitSt.state (Dev.unit_of_ras (h1 .ras rfl) w)

theorem Dev.railsGood_high (d : Dev)
    (hgo : d.hif.phase = .waitRails ∧ d.hif.pgStk = true ∧ (d.hif.warm = true → d.hif.perstN = true)) (failed : List UnitId) :
    (d.railsGood failed).hif.railsGood = true := by
  have hrail : d.railed.hif = { d.hif with railsGood := true } := Dev.hostLinkTrains_frame _ .hif rfl
  obtain ⟨vs, out, hs⟩ := d.railed.tested_spoke failed
  rw [Dev.railsGood_goes hgo]
  generalize d.railed.tested failed = x at hs ⊢
  have hf := (Dev.foldl_trainStack x.bootStacks x).1
  rw [Dev.onHif_hif, show (x.bootStacks.foldl (fun d n => d.trainStack n) x).hif = x.hif from hf .hif rfl, hs, hrail]

/-! ## POWER_ON_COMPLETE (15 R435 step 9) -/

/-- Step 9 begins: PERST_N is high and no bitmap clear is under way. -/
def Dev.completes (d : Dev) : Prop :=
  d.hif.phase = .training ∧ d.hif.perstN = true ∧ ∀ n ∈ d.bootStacks, d.getF (rCsState n) fCsState_VbmClear ≠ 1

theorem Dev.powerOnComplete_waits {d : Dev} (h : ¬ d.completes) : d.powerOnComplete = d := by
  unfold Dev.powerOnComplete
  refine if_pos ?_
  by_contra hc
  simp only [not_or, Decidable.not_not, Bool.not_eq_true', Bool.not_eq_false, Bool.not_eq_true, List.any_eq_false, beq_iff_eq] at hc
  exact h ⟨hc.1, hc.2.1, hc.2.2⟩

/-- The device whose stacks are READY and that serves requests. -/
def Dev.served (d : Dev) : Dev :=
  (((d.bootStacks.foldl (fun d n => d.stackReady n) d).putF rHifReset fHifReset_Ready 1).putF rDevStatus fDevStatus_Ready 1).onHif
    (fun h => { h with phase := .complete, warm := false })

theorem Dev.powerOnComplete_goes {d : Dev} (h : d.completes) : d.powerOnComplete = d.served.gridBeats := by
  unfold Dev.powerOnComplete
  refine if_neg ?_
  simp only [not_or, Decidable.not_not, Bool.not_eq_true', Bool.not_eq_false, Bool.not_eq_true, List.any_eq_false, beq_iff_eq]
  exact ⟨h.1, h.2.1, h.2.2⟩

theorem Dev.gridBeats_frame (d : Dev) : d.onlyIn d.gridBeats [.fab] := .gridBeats (d.onlyIn_refl _)

theorem Dev.served_facts (d : Dev) :
    d.served.hif.phase = .complete ∧ d.served.hif.warm = false ∧ d.served.ready = true ∧ d.served.getF rDevStatus fDevStatus_Ready = 1
      ∧ (∀ n ∈ d.bootStacks, d.served.getF (rCsState n) fCsState_Ready = 1) ∧ d.onlyIn d.served [.regs, .hif]
      ∧ d.served.hasEpoch = d.hasEpoch := by
  obtain ⟨h1, h2, h3⟩ := Dev.foldl_stackReady d.bootStacks d
  unfold Dev.served
  rw [show (fun (d : Dev) n => d.stackReady n) = Dev.stackReady from rfl]
  generalize d.bootStacks.foldl Dev.stackReady d = x at h1 h2 h3 ⊢
  refine ⟨rfl, rfl, ?_, Dev.getF_putF_self _ _ _ _ (by decide), fun n hn => ?_, .onHif (.putF (.putF h2)), ?_⟩
  · have hr : ((x.putF rHifReset fHifReset_Ready 1).putF rDevStatus fDevStatus_Ready 1).getF rHifReset fHifReset_Ready = 1 := by
      rw [Dev.getF_putF_ne _ _ _ _ (by decide), Dev.getF_putF_self _ _ _ _ (by decide)]
      rfl
    exact congrArg (· == 1) hr
  · have hne : rCsState n ≠ rDevStatus ∧ rCsState n ≠ rHifReset := by
      simp only [rCsState, rDevStatus, rHifReset, ne_eq]
      omega
    have hr : ((x.putF rHifReset fHifReset_Ready 1).putF rDevStatus fDevStatus_Ready 1).getF (rCsState n) fCsState_Ready = 1 := by
      rw [Dev.getF_putF_ne _ _ _ _ hne.1, Dev.getF_putF_ne _ _ _ _ hne.2]
      exact h1 n (.inl hn)
    exact hr
  · have hr : ((x.putF rHifReset fHifReset_Ready 1).putF rDevStatus fDevStatus_Ready 1).reg rFabStatus = d.reg rFabStatus := by
      rw [Dev.reg_putF_ne _ _ _ (by decide), Dev.reg_putF_ne _ _ _ (by decide)]
      refine h3 _ fun n => ?_
      simp [rCsState, rBlkIntStat, pgCs0, rHifTxDrop, pgHif, rFabStatus]
      omega
    exact congrArg (fun v => fld v fFabStatus_EpochState != 0) hr

theorem Dev.gridBeats_fab (d : Dev) : d.gridBeats.fab = if d.hasEpoch = true then d.fab else
    { d.fab with beatStart := d.time / 8000 * 8000, beatNo := d.time / 8000, len1 := 8000 } := by
  unfold Dev.gridBeats
  split <;> rfl

/-- Settles O42: each step of the sequence by its own branch, with the registers that the self-test, the retirement list and the
stacks write kept apart. -/
theorem powerOnSequenceRuns : Obligations.PowerOnSequenceRuns := by
  refine ⟨fun s => ⟨s.powerOn, rfl, s.powerOn_booted⟩, fun s failed => ⟨s.dev.railsGood failed,
    State.onDev_next (f := fun d => d.railsGood failed) rfl, ?_, fun hgo => ?_, fun hgo hplain => ?_⟩, fun s => ⟨fun hgo => ?_, fun hgo => ?_⟩⟩
  · by_cases hgo : s.dev.hif.phase = .waitRails ∧ s.dev.hif.pgStk = true ∧ (s.dev.hif.warm = true → s.dev.hif.perstN = true)
    · exact s.dev.railsGood_high hgo failed
    · rw [Dev.railsGood_waits hgo, show s.dev.railed.hif = _ from Dev.hostLinkTrains_frame _ .hif rfl]
      rfl
  · rw [Dev.railsGood_waits hgo]
    exact Dev.hostLinkTrains_linkTrains _
  · obtain ⟨hu, hp⟩ := hplain
    obtain ⟨h1, h2, h3, h4, h5, h6, h7, h8⟩ := Dev.railsGood_trains hgo hu hp
    refine ⟨h1, h2, h3, h4, h5, h6, h7, fun hr hw r hmem => ⟨fun hk => ?_, fun hk => ?_, fun hk => ?_, fun hk => ?_⟩⟩
    · exact h8 hr hw _ ⟨r, hmem, .inr (.inl ⟨hk, rfl⟩)⟩
    · exact h8 hr hw _ ⟨r, hmem, .inr (.inr (.inl ⟨hk, rfl⟩))⟩
    · exact h8 hr hw _ ⟨r, hmem, .inr (.inr (.inr ⟨hk, rfl⟩))⟩
    · exact h8 hr hw _ ⟨r, hmem, .inl ⟨hk, rfl⟩⟩
  · exact State.onDev_next (f := Dev.powerOnComplete) (Dev.powerOnComplete_waits hgo)
  · obtain ⟨h1, h2, h3, h4, h5, h6, h7⟩ := s.dev.served_facts
    have hf := s.dev.served.gridBeats_frame
    have hreg : ∀ a, s.dev.served.gridBeats.reg a = s.dev.served.reg a := Dev.reg_congr (hf .regs rfl)
    have hhif : s.dev.served.gridBeats.hif = s.dev.served.hif := hf .hif rfl
    have hget : ∀ a f, s.dev.served.gridBeats.getF a f = s.dev.served.getF a f := fun a f => congrArg (fld · f) (hreg a)
    refine ⟨s.dev.served.gridBeats, State.onDev_next (f := Dev.powerOnComplete) (Dev.powerOnComplete_goes hgo), ?_, ?_, ?_, (hget _ _).trans h4,
      fun n hn => (hget _ _).trans (h5 n hn), ?_, Dev.onlyIn_trans (Dev.onlyIn_sub _ h6 rfl) (Dev.onlyIn_sub _ hf rfl)⟩
    · rw [hhif, h1]
    · rw [hhif, h2]
    · rw [← h3, Dev.ready, Dev.ready, hget]
    · rw [Dev.gridBeats_fab, h7, show s.dev.served.fab = s.dev.fab from h6 .fab rfl, show s.dev.served.time = s.dev.time from h6 .time rfl]

end Sys2Proof.Machine
end

section
/-! # What parts the operations may change: configuration space

The lemma about an operation has its name, in the order of the definitions. -/

namespace Sys2Proof.Machine
-- These proofs are many and small: elaborated all at once they take more threads than the checker has.
set_option Elab.async false
namespace Dev.onlyIn
variable {d₀ d e : Dev} {C : List Comp}

theorem failCmd (h₀ : d₀.onlyIn d C) {c status handle vaddr : Nat} (sub : among [.cq, .tiles] C := by rfl) : d₀.onlyIn
  (d.failCmd c status handle vaddr) C :=
  h₀.after (Dev.failCmd_frame _ _ _ _ _) (among.sub sub)

theorem cancelEntry (h₀ : d₀.onlyIn d C) {y0 : Nat} (sub : among [.cq, .srv, .hif, .free] C := by rfl) : d₀.onlyIn
  (d.cancelEntry y0) C :=
  h₀.into sub fun _ hd => .ite hd (.ite (.closeWith hd) (.modEntry hd))

theorem cancelOwned (h₀ : d₀.onlyIn d C) {v : Nat} (sub : among [.cq, .srv, .hif, .free] C := by rfl) : d₀.onlyIn (d.cancelOwned
  v) C :=
  h₀.into sub fun _ hd => .foldl hd (fun _ _ h2 => .cancelEntry h2)

theorem setWaiting (h₀ : d₀.onlyIn d C) {q : Nat} {rs : List Rec} (sub : among [.cq] C := by rfl) : d₀.onlyIn (d.setWaiting q
  rs) C :=
  h₀.into sub fun _ hd => .set_cq hd

theorem popHead (h₀ : d₀.onlyIn d C) {q : Nat} (sub : among [.regs, .cq] C := by rfl) : d₀.onlyIn (d.popHead q) C :=
  h₀.into sub fun _ hd => .set_cq (.rollF (.setWaiting hd))

theorem dropHeadReads (h₀ : d₀.onlyIn d C) {q : Nat} (sub : among [.hif] C := by rfl) : d₀.onlyIn (d.dropHeadReads q) C :=
  h₀.into sub fun _ hd => .set_hif hd

theorem leaveSectors (h₀ : d₀.onlyIn d C) {x : Cmd} (sub : among [.sect] C := by rfl) : d₀.onlyIn (d.leaveSectors x) C :=
  h₀.into sub fun _ hd => .foldl hd (fun _ _ h2 => .modSect h2)

theorem hostFail (h₀ : d₀.onlyIn d C) {addr : Nat} (sub : among [.regs, .hif] C := by rfl) : d₀.onlyIn (d.hostFail addr) C :=
  h₀.into sub fun _ hd => .raise (.putF (.addF hd))

theorem setFetched (h₀ : d₀.onlyIn d C) {k : Nat} {f : Fetched} (sub : among [.cq] C := by rfl) : d₀.onlyIn (d.setFetched k f) C
  :=
  h₀.into sub fun _ hd => .set_cq hd

theorem headFailed (h₀ : d₀.onlyIn d C) {k handle vaddr : Nat} (sub : among [.cq] C := by rfl) : d₀.onlyIn (d.headFailed k
  handle vaddr) C :=
  h₀.into sub fun _ hd => .ite hd (.setFetched hd)

theorem sendRead (h₀ : d₀.onlyIn d C) {c : Option Nat} {r : OutRead} (sub : among [.regs, .cq, .tiles, .hif] C := by rfl) :
  d₀.onlyIn (d.sendRead c r) C := by
  refine h₀.into sub fun _ hd => ?_
  unfold Dev.sendRead
  exact .ite ((by
    dsimp only
    split
    · exact .failCmd (.hostFail hd)
    · exact .headFailed (.hostFail hd)
    · exact .hostFail hd)) (.set_hif hd)

theorem awaitGrans (h₀ : d₀.onlyIn d C) {k func : Nat} {need : List HostGran} (sub : among [.regs, .cq, .tiles, .hif] C := by
  rfl) : d₀.onlyIn (d.awaitGrans k func need).1 C := by
  refine h₀.into sub fun _ hd => ?_
  unfold Dev.awaitGrans
  dsimp only
  split
  · exact .foldl hd (fun _ _ h2 => .ite (.sendRead h2) h2)
  · exact .foldl hd (fun _ _ h2 => .ite (.sendRead h2) h2)

theorem resetThokel (h₀ : d₀.onlyIn d C) {k c : Nat} (sub : among [.regs] C := by rfl) : d₀.onlyIn (d.resetThokel k c) C :=
  h₀.into sub fun _ hd => .resetRegs hd

theorem clearCounts (h₀ : d₀.onlyIn d C) {q : Nat} (sub : among [.regs] C := by rfl) : d₀.onlyIn (d.clearCounts q) C :=
  h₀.after (Dev.clearCounts_frame _ _) (among.sub sub)

theorem resetRing (h₀ : d₀.onlyIn d C) {r : Nat} (sub : among [.regs] C := by rfl) : d₀.onlyIn (d.resetRing r) C :=
  h₀.into sub fun _ hd => .setReg (.setReg (.setReg hd))

theorem vfFlrDone (h₀ : d₀.onlyIn d C) {v : Nat} (sub : among [.regs, .hif] C := by rfl) : d₀.onlyIn (d.vfFlrDone v) C :=
  h₀.into sub fun _ hd => .raise (.modReg hd)

theorem refuse (h₀ : d₀.onlyIn d C) {mask target seq : Nat} (sub : among [.regs, .hif] C := by rfl) : d₀.onlyIn (d.refuse mask
  target seq) C :=
  h₀.after (Dev.refuse_frame _ _ _ _) (among.sub sub)

theorem commitEntry (h₀ : d₀.onlyIn d C) {target : Nat} (sub : among [.regs, .pwr] C := by rfl) : d₀.onlyIn (d.commitEntry
  target) C :=
  h₀.into sub fun _ hd => .onPwr (.setPstate hd)

theorem refuseStart (h₀ : d₀.onlyIn d C) {x : Cmd} {status handle vaddr detail : Nat} (sub : among [.regs, .cq, .upsets] C := by
  rfl) : d₀.onlyIn (d.refuseStart x status handle vaddr detail) C :=
  h₀.into sub fun _ hd => .finishRecord hd

theorem refuseHead (h₀ : d₀.onlyIn d C) {x : Cmd} {status handle vaddr detail : Nat} (sub : among [.regs, .cq, .upsets] C := by
  rfl) : d₀.onlyIn (d.refuseHead x status handle vaddr detail) C :=
  h₀.into sub fun _ hd => .refuseStart (.popHead hd)

theorem turn (h₀ : d₀.onlyIn d C) {q op : Nat} {needs : Dev → Cmd → List HostGran} (sub : among [.regs, .cq, .tiles, .gan, .hif,
  .upsets] C := by rfl) : d₀.onlyIn (d.turn q op needs).1 C := by
  refine h₀.into sub fun _ hd => ?_
  unfold Dev.turn
  split
  · exact hd
  · exact .ite1 hd (.ite1 (.refuseHead (.readWord hd)) (.ite1 (.refuseHead (.readWord hd)) (.ite1 (.readWord hd) ((by
      split
      next _ _ he =>
        have h200 := fst he (.awaitGrans (.readWord hd))
        exact .refuseHead (.dropHeadReads h200)
      next _ he =>
        have h210 := fst he (.awaitGrans (.readWord hd))
        exact h210
      next _ he =>
        have h220 := fst he (.awaitGrans (.readWord hd))
        exact h220)))))

theorem takeHead (hd : d₀.onlyIn d C) {q op : Nat} {run : Dev → Cmd → Dev} (hrun : ∀ e x, d₀.onlyIn e C → d₀.onlyIn (run e x) C)
    (sub : among [.regs, .cq, .tiles, .gan, .hif, .upsets] C := by rfl) : d₀.onlyIn (d.takeHead q op run) C := by
  unfold Dev.takeHead
  split
  next he => exact fst he (.turn hd (among.sub sub))
  next he => exact hrun _ _ (.popHead (fst he (.turn hd (among.sub sub))) (among.sub sub))

theorem powerStateRun (h₀ : d₀.onlyIn d C) {x : Cmd} (sub : among [.regs, .cq, .pwr, .hif, .upsets] C := by rfl) : d₀.onlyIn
  (d.powerStateRun x) C :=
  h₀.into sub fun _ hd => .ite (.refuseStart hd) (.ite (.refuseStart hd) (.ite (.refuseStart (.refuse hd)) (.commitEntry
    (.refuseStart hd))))

theorem powerState (h₀ : d₀.onlyIn d C) {q : Nat} (sub : among [.regs, .cq, .tiles, .pwr, .gan, .hif, .upsets] C := by rfl) :
  d₀.onlyIn (d.powerState q) C :=
  h₀.into sub fun _ hd => .takeHead hd (fun _ _ h2 => .powerStateRun h2)

theorem flushPending (h₀ : d₀.onlyIn d C) {f : Nat} (sub : among [.regs, .hif] C := by rfl) : d₀.onlyIn (d.flushPending f) C :=
  h₀.into sub fun _ hd => .foldl hd (fun _ _ h2 => .ite (.sendMsg (.set_hif h2)) h2)

theorem setFn (h₀ : d₀.onlyIn d C) {f : Nat} {g : FnCfg → FnCfg} (sub : among [.hif] C := by rfl) : d₀.onlyIn (d.setFn f g) C :=
  h₀.into sub fun _ hd => .onHif hd

theorem flushFrom (h₀ : d₀.onlyIn d C) {f : Nat} (sub : among [.regs, .hif] C := by rfl) : d₀.onlyIn (d.flushFrom f) C :=
  h₀.into sub fun _ hd => .ite (.foldl hd (fun _ _ h2 => .flushPending h2)) (.flushPending hd)

end Dev.onlyIn
end Sys2Proof.Machine
end

section
/-! # The link's events and configuration space -/

namespace Sys2Proof.Machine

/-! ## The link's own events (15 R421, R430, R437) -/

/-- The bits that an event raises are set. -/
theorem Dev.raise_sets (d : Dev) {page bits i : Nat} (hp : rBlkIntStat page ≠ rHifTxDrop) (hb : bits.testBit i = true) (hi : i < 64) :
    (d.raise page bits).event page i = true := by
  refine Dev.signal_event hp ?_ d
  rw [Dev.event, Dev.modReg, Dev.reg_setReg_self, bitOf, BitVec.getLsbD_or, BitVec.getLsbD_ofNat]
  simp [hi, hb]

/-- What HIF_LINK shows of the link that came up. -/
def linkUpWord (rate width : Nat) (flit rev : Bool) : Nat :=
  rate % 16 + atBit 4 (width % 16) + atBit 8 (if flit then 1 else 0) + atBit 9 2 + atBit 12 (if rev then 1 else 0)

theorem linkUpWord_fields {rate width : Nat} (hr : rate < 16) (hw : width < 16) (flit rev : Bool) :
    let w : W64 := BitVec.ofNat 64 (linkUpWord rate width flit rev)
    fld w fHifLink_State = 2 ∧ fld w fHifLink_Rate = rate ∧ fld w fHifLink_Width = width ∧ fld w fHifLink_Flit = (if flit then 1 else 0)
      ∧ fld w fHifLink_Reversed = (if rev then 1 else 0) := by
  have hlt : linkUpWord rate width flit rev < 2 ^ 13 := by
    unfold linkUpWord atBit
    simp only [Nat.shiftLeft_eq]
    split <;> split <;> omega
  simp only [fld, bitsOf_ofNat hlt (by decide : 13 ≤ 64), fHifLink_State, fHifLink_Rate, fHifLink_Width, fHifLink_Flit, fHifLink_Reversed]
  simp only [linkUpWord, atBit, Nat.shiftLeft_eq, Nat.shiftRight_eq_div_pow]
  cases flit <;> cases rev <;> simp only [if_true, if_false, Bool.false_eq_true] <;> omega

/-- The link after LINK_UP. -/
def Dev.linkedUp (d : Dev) (rate width : Nat) (flit rev : Bool) : Dev :=
  ((d.setReg rHifLink (BitVec.ofNat 64 (linkUpWord rate width flit rev))).onHif (fun h => { h with wakeN := true })).raise pgHif
    (1 + if rate < 7 ∨ width < 8 then 2 else 0)

theorem Dev.linkUpEvent_stays {d : Dev} (h : ¬ (d.hif.perstN = true ∧ (d.hif.phase = .training ∨ d.hif.phase = .complete)))
    (rate width : Nat) (flit rev : Bool) : d.linkUpEvent rate width flit rev = d := by
  unfold Dev.linkUpEvent
  rw [if_pos]
  simp only [Bool.not_eq_true', Bool.or_eq_false_iff, beq_eq_false_iff_ne]
  cases hp : d.hif.perstN
  · exact .inl rfl
  · rw [hp] at h
    exact .inr ⟨fun e => h ⟨rfl, .inl e⟩, fun e => h ⟨rfl, .inr e⟩⟩

theorem Dev.linkUpEvent_goes {d : Dev} (h : d.hif.perstN = true ∧ (d.hif.phase = .training ∨ d.hif.phase = .complete))
    (rate width : Nat) (flit rev : Bool) : d.linkUpEvent rate width flit rev = d.linkedUp rate width flit rev := by
  unfold Dev.linkUpEvent
  rw [if_neg]
  · rfl
  · obtain ⟨hp, hphase⟩ := h
    rcases hphase with hphase | hphase <;> simp [hp, hphase]

theorem Dev.linkedUp_frame (d : Dev) (rate width : Nat) (flit rev : Bool) : d.onlyIn (d.linkedUp rate width flit rev) [.regs, .hif] :=
  .raise (.onHif (.setReg (d.onlyIn_refl _)))

theorem Dev.linkedUp_regs (d : Dev) (rate width : Nat) (flit rev : Bool) :
    d.regsBut (d.linkedUp rate width flit rev) ([rHifLink] ++ [rBlkIntStat pgHif, rHifTxDrop, rBlkIntStat pgHif]) :=
  Dev.regsBut_trans (Dev.regsBut_mono (d.regsBut_setReg _ _) (by simp)) (Dev.regsBut_mono (Dev.raise_regsBut _ _ _) (by simp))

theorem Dev.linkedUp_getF (d : Dev) (rate width : Nat) (flit rev : Bool) (f : Fld) :
    (d.linkedUp rate width flit rev).getF rHifLink f = fld (BitVec.ofNat 64 (linkUpWord rate width flit rev)) f := by
  refine (Dev.getF_of_regsBut (Dev.raise_regsBut _ _ _) rfl f).trans ?_
  exact congrArg (fld · f) (Dev.reg_setReg_self _ _ _)

theorem Dev.linkedUp_wakeN (d : Dev) (rate width : Nat) (flit rev : Bool) : (d.linkedUp rate width flit rev).hif.wakeN = true := by
  obtain ⟨vs, out, hh⟩ := Dev.raise_spoke
    ((d.setReg rHifLink (BitVec.ofNat 64 (linkUpWord rate width flit rev))).onHif (fun h => { h with wakeN := true })) pgHif
    (1 + if rate < 7 ∨ width < 8 then 2 else 0)
  exact congrArg Hif.wakeN hh

theorem Dev.ideInsecure_established {d : Dev} (h : d.getF rHifIde fHifIde_State = 1) :
    d.ideInsecure.getF rHifIde fHifIde_State = 2 ∧ d.ideInsecure.hif.ideKeys = [] ∧ d.raised d.ideInsecure pgHif 4 [rHifIde] [] := by
  have he : d.ideInsecure = ((d.putF rHifIde fHifIde_State 2).onHif (fun h => { h with ideKeys := [] })).raise pgHif 0x10 := if_pos h
  rw [he]
  obtain ⟨vs, out, hh⟩ := Dev.raise_spoke ((d.putF rHifIde fHifIde_State 2).onHif (fun h => { h with ideKeys := [] })) pgHif 0x10
  refine ⟨?_, congrArg Hif.ideKeys hh, Dev.raise_sets _ (by decide) (by decide) (by decide), ?_, .raise (.onHif (.putF (d.onlyIn_refl _)))⟩
  · refine (Dev.getF_of_regsBut (Dev.raise_regsBut _ _ _) rfl _).trans ?_
    exact Dev.getF_putF_self _ _ _ _ (by decide)
  · exact Dev.regsBut_trans (Dev.regsBut_mono (d.regsBut_putF _ _ _) (by simp)) (Dev.regsBut_mono (Dev.raise_regsBut _ _ _) (by simp))

/-! ## What an FLR of a VF takes of its commands and of its configuration (11 R333, R335) -/

/-- Nothing but commands that are gone, and the functions' configuration stands. -/
def Dev.sheds (d e : Dev) : Prop := (∀ x ∈ e.cq.cmds, x ∈ d.cq.cmds) ∧ e.hif.fns = d.hif.fns

namespace Dev.sheds
variable {d e f : Dev}

theorem refl (d : Dev) : d.sheds d := ⟨fun _ h => h, rfl⟩

theorem trans (h : d.sheds e) (k : e.sheds f) : d.sheds f := ⟨fun x hx => h.1 x (k.1 x hx), k.2.trans h.2⟩

theorem ite {c : Prop} [Decidable c] (h : d.sheds e) (k : d.sheds f) : d.sheds (if c then e else f) := by
  split
  · exact h
  · exact k

theorem foldl {α : Type} {g : Dev → α → Dev} (hg : ∀ (d : Dev) a, d.sheds (g d a)) (xs : List α) (d : Dev) : d.sheds (xs.foldl g d) :=
  List.foldlRecOn (motive := fun e => d.sheds e) xs g (refl d) fun e h a _ => h.trans (hg e a)

/-- A step that leaves the command processor and the host interface sheds nothing. -/
theorem of_frame {cs : List Comp} (h : d.onlyIn e cs)
    (hq : cs.contains .cq = false := by rfl) (hh : cs.contains .hif = false := by rfl) : d.sheds e :=
  ⟨fun x hx => by rwa [show e.cq = d.cq from h .cq hq] at hx, congrArg Hif.fns (h .hif hh)⟩

theorem of_hif {cs : List Comp} (h : d.onlyIn e cs) (hf : e.hif.fns = d.hif.fns) (hq : cs.contains .cq = false := by rfl) : d.sheds e :=
  ⟨fun x hx => by rwa [show e.cq = d.cq from h .cq hq] at hx, hf⟩

theorem raise (d : Dev) (page bits : Nat) : d.sheds (d.raise page bits) := by
  obtain ⟨vs, out, hh⟩ := Dev.raise_spoke d page bits
  exact of_hif (d.raise_frame page bits) (by rw [hh])

theorem abandon (d : Dev) (c : Nat) : d.sheds (d.abandon c) := ⟨fun _ h => h, rfl⟩

theorem enterSlotState (d : Dev) (s st : Nat) : d.sheds (d.enterSlotState s st) :=
  have h : d.sheds (d.putF (rSrvSlotState s) fSrvSlotState_State st) := of_frame (.putF (d.onlyIn_refl [.regs]))
  .ite (h.trans (raise _ _ _)) (.ite (h.trans (raise _ _ _)) h)

theorem freeVersion (d : Dev) (v : Nat) : d.sheds (d.freeVersion v) := of_frame (.freeVersion (d.onlyIn_refl [.srv]))

theorem loadEnded (d : Dev) (x : Cmd) : d.sheds (d.loadEnded x) := .ite (enterSlotState _ _ _) (.ite (freeVersion _ _) (refl _))

theorem closeWith (d : Dev) (i status cause : Nat) : d.sheds (d.closeWith i status cause) := ⟨fun _ h => h, rfl⟩

theorem cancelEntry (d : Dev) (i : Nat) : d.sheds (d.cancelEntry i) :=
  .ite (refl _) (.ite (closeWith _ _ _ _) (of_frame (.modEntry (d.onlyIn_refl [.srv]))))

theorem cancelOwned (d : Dev) (v : Nat) : d.sheds (d.cancelOwned v) := foldl cancelEntry _ _

theorem freeEntry (d : Dev) (i : Nat) : d.sheds (d.freeEntry i) := by
  unfold Dev.freeEntry
  refine .ite (refl _) ?_
  have hcharges : d.sheds (d.releaseCharges i) := of_frame (.releaseCharges (d.onlyIn_refl [.regs, .srv]))
  have hversion : d.sheds (if (d.entry i).deltaEn then (d.releaseCharges i).unrefVersion (d.entry i).delta else d.releaseCharges i) :=
    .ite (hcharges.trans (of_frame (.unrefVersion (Dev.onlyIn_refl _ [.srv])))) hcharges
  refine .ite ?_ ?_
  · exact (hversion.trans (of_frame (.onSrv (Dev.onlyIn_refl _ [.srv])))).trans
      ((enterSlotState _ _ _).trans (of_frame (.discardNodes (Dev.onlyIn_refl _ [.srv]))))
  · exact hversion.trans (of_frame (.onSrv (Dev.onlyIn_refl _ [.srv])))

theorem afterRecord (d : Dev) (x : Ready) : d.sheds (d.afterRecord x) := by
  unfold Dev.afterRecord
  split
  · exact refl _
  · exact .ite (freeEntry _ _) (.ite (of_frame (.modEntry (d.onlyIn_refl [.srv]))) (refl _))

theorem discardRecords (d : Dev) (who : Ready → Bool) : d.sheds (d.discardRecords who) :=
  .trans (e := { d with cq := { d.cq with ready := d.cq.ready.filter (fun x => !who x) } }) ⟨fun _ h => h, rfl⟩ (foldl afterRecord _ _)

theorem flushQueue (d : Dev) (q : Nat) : d.sheds (d.flushQueue q) := ⟨fun _ h => h, rfl⟩

theorem dropCmd (d : Dev) (c : Nat) : d.sheds (d.dropCmd c) := ⟨fun _ h => List.mem_of_mem_filter h, rfl⟩

end Dev.sheds

/-- An FLR takes one command of its function. -/
def Dev.flrDrops (d : Dev) (x : Cmd) : Dev := ((((d.abandon x.id).freeTiles x.id).dropCmd x.id).leaveSectors x).loadEnded x

theorem Dev.flrDrops_sheds (d : Dev) (x : Cmd) : d.sheds (d.flrDrops x) :=
  ((Dev.sheds.abandon d _).trans (.trans (e := (d.abandon x.id).freeTiles x.id) (.of_frame (.freeTiles (Dev.onlyIn_refl _ [.tiles])))
    (Dev.sheds.dropCmd _ _))).trans ((Dev.sheds.of_frame (.leaveSectors (Dev.onlyIn_refl _ [.sect]))).trans (.loadEnded _ _))

theorem Dev.flrDrops_gone (d : Dev) (x : Cmd) : ∀ y ∈ (d.flrDrops x).cq.cmds, y.id ≠ x.id := by
  intro y hy
  have hmem : y ∈ (((d.abandon x.id).freeTiles x.id).dropCmd x.id).cq.cmds :=
    ((Dev.sheds.of_frame (.leaveSectors (Dev.onlyIn_refl _ [.sect]))).trans (.loadEnded _ x)).1 y hy
  simpa using (List.mem_filter.mp hmem).2

theorem Dev.foldl_flrDrops_gone (xs : List Cmd) (d : Dev) : ∀ x ∈ xs, ∀ y ∈ (xs.foldl Dev.flrDrops d).cq.cmds, y.id ≠ x.id := by
  induction xs generalizing d with
  | nil => exact fun x hx => absurd hx List.not_mem_nil
  | cons z zs ih =>
    intro x hx y hy
    rcases List.mem_cons.mp hx with rfl | hx
    · exact d.flrDrops_gone x y ((Dev.sheds.foldl Dev.flrDrops_sheds zs _).1 y hy)
    · exact ih _ x hx y hy

/-- The commands of the function that an FLR takes. -/
def Dev.flrCmds (d : Dev) (v : Nat) : Dev := (d.cq.cmds.filter (fun x => x.func == v)).foldl Dev.flrDrops d

theorem Dev.flrCmds_sheds (d : Dev) (v : Nat) : d.sheds (d.flrCmds v) := .foldl Dev.flrDrops_sheds _ _

theorem Dev.flrCmds_gone (d : Dev) (v : Nat) : ∀ x ∈ (d.flrCmds v).cq.cmds, x.func ≠ v := by
  intro x hx hf
  exact Dev.foldl_flrDrops_gone _ d x (List.mem_filter.mpr ⟨(d.flrCmds_sheds v).1 x hx, by simp [hf]⟩) x hx rfl

/-- The queues, rings and contexts of the function that an FLR takes. -/
def Dev.flrQueues (d : Dev) (v : Nat) : Dev :=
  let rings := (List.range 128).filter (fun r => d.getF (rCqRCfg r) fCqRCfg_Func == v)
  let d := d.discardRecords (fun x => rings.contains x.ring)
  let d := ((List.range 128).filter (fun q => d.queueFunc q == v)).foldl (fun d q => (d.flushQueue q).clearCounts q) d
  let d := rings.foldl (fun d r => d.resetRing r) d
  let p := d.vfPart v
  let k := d.liveSect p
  ((List.range 16).filter (fun c => d.ctxEn p c && d.ctxFunc p c == v)).foldl (fun d c => d.resetThokel k c) d

theorem Dev.flrQueues_sheds (d : Dev) (v : Nat) : d.sheds (d.flrQueues v) := by
  refine ((Dev.sheds.discardRecords d _).trans (Dev.sheds.foldl (fun d q => ?_) _ _)).trans ((Dev.sheds.foldl (fun d r => ?_) _ _).trans
    (Dev.sheds.foldl (fun d c => ?_) _ _))
  · exact (Dev.sheds.flushQueue d q).trans (.of_frame (.clearCounts (Dev.onlyIn_refl _ [.regs])))
  · exact .of_frame (.resetRing (Dev.onlyIn_refl _ [.regs]))
  · exact .of_frame (.resetThokel (Dev.onlyIn_refl _ [.regs]))

/-- The configuration of the function that an FLR takes. -/
def Dev.flrFunction (d : Dev) (v : Nat) : Dev :=
  let d := d.answersNone v
  let d := { d with hif := { d.hif with
    vecs := d.hif.vecs.filter (fun e => !(64 * v ≤ e.1 && e.1 < 64 * (v + 1)))
    fns := tset d.hif.fns v {} } }
  d.setReg (rSectVfEvent v) 0

theorem Dev.vfFlrPath_eq (d : Dev) (v : Nat) : d.vfFlrPath v = (((d.flrCmds v).cancelOwned v).flrQueues v).flrFunction v := rfl

theorem Dev.flrQueues_cmds (d : Dev) (v : Nat) : d.sheds (((d.flrCmds v).cancelOwned v).flrQueues v) :=
  ((d.flrCmds_sheds v).trans (.cancelOwned _ _)).trans (Dev.flrQueues_sheds _ v)

/-- An FLR takes the commands of its function, and only commands. -/
theorem Dev.vfFlrPath_cmds (d : Dev) (v : Nat) : (∀ x ∈ (d.vfFlrPath v).cq.cmds, x ∈ d.cq.cmds) ∧ ∀ x ∈ (d.vfFlrPath v).cq.cmds, x.func ≠ v :=
  ⟨fun x hx => (d.flrQueues_cmds v).1 x hx,
    fun x hx => d.flrCmds_gone v x (((Dev.sheds.cancelOwned _ _).trans (Dev.flrQueues_sheds _ v)).1 x hx)⟩

theorem Dev.vfFlrPath_fns (d : Dev) (v : Nat) : (d.vfFlrPath v).hif.fns = tset d.hif.fns v {} := by
  rw [Dev.vfFlrPath_eq]
  show tset (((d.flrCmds v).cancelOwned v).flrQueues v).hif.fns v {} = _
  rw [(d.flrQueues_cmds v).2]

theorem Dev.vfFlr_cmds (d : Dev) {v : Nat} (hv : v ≠ 0) :
    (∀ x ∈ (d.vfFlr v).cq.cmds, x ∈ d.cq.cmds) ∧ ∀ x ∈ (d.vfFlr v).cq.cmds, x.func ≠ v := by
  have hcq : (d.vfFlr v).cq = (d.vfFlrPath v).cq := by
    rw [Dev.vfFlr, if_neg hv]
    have hdone : (d.vfFlrPath v).onlyIn ((d.vfFlrPath v).vfFlrDone v) [.regs, .hif] := .vfFlrDone (Dev.onlyIn_refl _ _)
    exact hdone .cq rfl
  rw [hcq]
  exact d.vfFlrPath_cmds v

theorem Dev.vfFlr_fns (d : Dev) {v : Nat} (hv : v ≠ 0) : (d.vfFlr v).hif.fns = tset d.hif.fns v {} := by
  rw [Dev.vfFlr, if_neg hv, Dev.vfFlrDone, (Dev.sheds.raise _ _ _).2]
  exact d.vfFlrPath_fns v

/-! ## The VFs present change (11 R335) -/

/-- Functions that an FLR took, and nothing else, are blank, and only their commands are gone. -/
def Dev.vfsLeave (d e : Dev) : Prop := (∀ x ∈ e.cq.cmds, x ∈ d.cq.cmds) ∧ ∀ g, e.fn g = d.fn g ∨ e.fn g = {}

/-- What an FLR of one VF takes. -/
def Dev.vfLeaves (d e : Dev) (v : Nat) : Prop :=
  (∀ x ∈ e.cq.cmds, x ∈ d.cq.cmds) ∧ (∀ x ∈ e.cq.cmds, x.func ≠ v) ∧ e.hif.fns = tset d.hif.fns v {}

theorem Dev.vfFlr_leaves (d : Dev) {v : Nat} (hv : v ≠ 0) : d.vfLeaves (d.vfFlr v) v :=
  ⟨(d.vfFlr_cmds hv).1, (d.vfFlr_cmds hv).2, d.vfFlr_fns hv⟩

theorem Dev.fn_of_vfLeaves {d e : Dev} {v : Nat} (h : d.vfLeaves e v) (g : Nat) : e.fn g = if g = v then {} else d.fn g := by
  rw [Dev.fn, h.2.2, tget_tset, Dev.fn]

/-- The VFs of a list leave one after the other. -/
theorem Dev.foldl_vfLeaves {F : Dev → Nat → Dev} (hF : ∀ (d : Dev) v, d.vfLeaves (F d v) (v + 1)) (vs : List Nat) (d : Dev) :
    d.vfsLeave (vs.foldl F d) ∧ ∀ v ∈ vs, (vs.foldl F d).fn (v + 1) = {} ∧ ∀ x ∈ (vs.foldl F d).cq.cmds, x.func ≠ v + 1 := by
  induction vs generalizing d with
  | nil => exact ⟨⟨fun _ h => h, fun _ => .inl rfl⟩, fun v hv => absurd hv List.not_mem_nil⟩
  | cons z zs ih =>
    obtain ⟨⟨hsub, hfn⟩, hall⟩ := ih (F d z)
    obtain ⟨hin, hout, -⟩ := hF d z
    have hfns := Dev.fn_of_vfLeaves (hF d z)
    rw [List.foldl_cons]
    refine ⟨⟨fun x hx => hin x (hsub x hx), fun g => ?_⟩, fun v hv => ?_⟩
    · rcases hfn g with h | h
      · rw [h, hfns]
        split
        · exact .inr rfl
        · exact .inl rfl
      · exact .inr h
    · rcases List.mem_cons.mp hv with rfl | hv
      · refine ⟨?_, fun x hx => hout x (hsub x hx)⟩
        rcases hfn (v + 1) with h | h
        · rw [h, hfns, if_pos rfl]
        · exact h
      · exact hall v hv

/-- The VFs that are no longer present have nothing left. -/
theorem Dev.setVfs_takes (d : Dev) (en : Bool) (n : Nat) :
    (d.setVfs en n).hif.vfEnable = en ∧ (d.setVfs en n).hif.numVfs = n
      ∧ ∀ g : Nat, g ≠ 0 → d.hif.vfEnable = true → g ≤ d.hif.numVfs → (en = false ∨ n < g) →
        (d.setVfs en n).fn g = {} ∧ ∀ y ∈ (d.setVfs en n).cq.cmds, y.func ≠ g := by
  refine ⟨rfl, rfl, fun g hg hen hle hgone => ?_⟩
  have hall := (Dev.foldl_vfLeaves (fun d v => d.vfFlr_leaves (Nat.succ_ne_zero v)) ((List.range (if d.hif.vfEnable then d.hif.numVfs else 0)).filter
    (fun v => decide ((if en then n else 0) ≤ v))) d).2 (g - 1) (by
      rw [List.mem_filter, List.mem_range, hen, if_pos rfl]
      refine ⟨by omega, decide_eq_true ?_⟩
      rcases hgone with rfl | hlt
      · exact Nat.zero_le _
      · split <;> omega)
  rw [show g - 1 + 1 = g by omega] at hall
  exact hall

/-! ## Messages that wait no longer (11 R326) -/

/-- The message of one vector goes where it waits no longer. -/
def Dev.flushVector (d : Dev) (f v : Nat) : Dev :=
  let e := d.vector f v
  if e.pend ∧ (d.fn f).msixEnable ∧ !(d.fn f).msixMask ∧ !e.masked ∧ d.masters f then
    { d with hif := { d.hif with vecs := tset d.hif.vecs (64 * f + v) { e with pend := false } } }.sendMsg (f, v)
  else d

theorem Dev.flushPending_eq (d : Dev) (f : Nat) : d.flushPending f = (List.range 64).foldl (fun d v => d.flushVector f v) d := rfl

/-- What messages that go change: vectors that were pending are no longer, and their messages are out where the link carries. -/
def Dev.flushes (d e : Dev) : Prop :=
  e.hif.fns = d.hif.fns ∧ (∀ o ∈ d.hif.out, o ∈ e.hif.out) ∧ e.linkCarries = d.linkCarries
    ∧ ∀ f v : Nat, v < 64 → e.vector f v = d.vector f v
        ∨ e.vector f v = { d.vector f v with pend := false }
          ∧ (d.linkCarries = true → HostOut.message f v (d.vector f v).addr (d.vector f v).data ∈ e.hif.out)

namespace Dev.flushes
variable {d e k : Dev}

theorem refl (d : Dev) : d.flushes d := ⟨rfl, fun _ h => h, rfl, fun _ _ _ => .inl rfl⟩

theorem trans (h : d.flushes e) (h' : e.flushes k) : d.flushes k := by
  obtain ⟨hfns, hout, hlink, hvec⟩ := h
  obtain ⟨hfns', hout', hlink', hvec'⟩ := h'
  refine ⟨hfns'.trans hfns, fun o ho => hout' o (hout o ho), hlink'.trans hlink, fun f v hv => ?_⟩
  rcases hvec f v hv with h1 | ⟨h1, hsent⟩
  · rw [← hlink, ← h1]
    exact hvec' f v hv
  · refine .inr ⟨?_, fun hl => hout' _ (hsent hl)⟩
    rcases hvec' f v hv with h2 | ⟨h2, -⟩
    · rw [h2, h1]
    · rw [h2, h1]

theorem foldl {α : Type} {g : Dev → α → Dev} (hg : ∀ (d : Dev) a, d.flushes (g d a)) (xs : List α) (d : Dev) : d.flushes (xs.foldl g d) :=
  List.foldlRecOn (motive := fun e => d.flushes e) xs g (refl d) fun e h a _ => h.trans (hg e a)

/-- A vector whose message went is not pending again. -/
theorem pend (h : d.flushes e) {f v : Nat} (hv : v < 64) (hp : (d.vector f v).pend = false) : (e.vector f v).pend = false := by
  rcases h.2.2.2 f v hv with h1 | ⟨h1, -⟩
  · rw [h1, hp]
  · rw [h1]

end Dev.flushes

theorem Dev.linkCarries_of_regs {d e : Dev} (h : d.regsBut e [rHifTxDrop, rBlkIntStat pgHif]) : e.linkCarries = d.linkCarries := by
  unfold Dev.linkCarries
  rw [Dev.getF_of_regsBut h rfl, Dev.getF_of_regsBut h rfl]

/-- The device whose vector v of function f waits no longer, before its message goes. -/
def Dev.unpend (d : Dev) (f v : Nat) : Dev :=
  { d with hif := { d.hif with vecs := tset d.hif.vecs (64 * f + v) { d.vector f v with pend := false } } }

theorem Dev.unpend_self (d : Dev) (f v : Nat) : (d.unpend f v).vector f v = { d.vector f v with pend := false } := tget_tset_self _ _ _ _

theorem Dev.unpend_ne (d : Dev) {f v g w : Nat} (h : 64 * g + w ≠ 64 * f + v) : (d.unpend f v).vector g w = d.vector g w :=
  tget_tset_ne _ _ _ h

/-- A message that is not held back is sent, or lost where the link does not carry it. -/
theorem Dev.sendMsg_goes {d : Dev} {f v : Nat} (hen : (d.fn f).msixEnable = true) (hmask : (d.fn f).msixMask = false)
    (hvec : (d.vector f v).masked = false) (hm : d.masters f = true) :
    d.sendMsg (f, v) = if d.linkCarries then d.sendOut (.message f v (d.vector f v).addr (d.vector f v).data) else d.loseMsg := by
  unfold Dev.sendMsg
  simp only [hen, hmask, hvec, hm, Bool.not_true, Bool.or_false, Bool.false_eq_true, if_false]
  cases d.linkCarries <;> rfl

/-- A vector goes. -/
theorem Dev.flushVector_goes {d : Dev} {f v : Nat} (hv : v < 64) (hp : (d.vector f v).pend = true) (hen : (d.fn f).msixEnable = true)
    (hmask : (d.fn f).msixMask = false) (hvec : (d.vector f v).masked = false) (hm : d.masters f = true) :
    ((d.flushVector f v).vector f v).pend = false ∧ d.flushes (d.flushVector f v) := by
  have heq : d.flushVector f v = (d.unpend f v).sendMsg (f, v) := if_pos ⟨hp, hen, by simp [hmask], by simp [hvec], hm⟩
  have hself := d.unpend_self f v
  have hregs := Dev.sendMsg_regsBut (d.unpend f v) (f, v)
  have hsend := Dev.sendMsg_goes (d := d.unpend f v) (f := f) (v := v) hen hmask (by rw [hself]; exact hvec) hm
  have hlink : (d.unpend f v).linkCarries = d.linkCarries := rfl
  rw [heq]
  have hvecs : ((d.unpend f v).sendMsg (f, v)).hif.vecs = (d.unpend f v).hif.vecs := by
    rw [hsend]
    split <;> rfl
  have hvector : ∀ g w, ((d.unpend f v).sendMsg (f, v)).vector g w = (d.unpend f v).vector g w := fun g w => by
    rw [Dev.vector, hvecs, Dev.vector]
  refine ⟨by rw [hvector, hself], ?_, fun o ho => ?_, (Dev.linkCarries_of_regs hregs).trans hlink, fun g w hw => ?_⟩
  · rw [hsend]
    split <;> rfl
  · rw [hsend]
    split
    · exact List.mem_append_left _ ho
    · exact ho
  · rw [hvector]
    by_cases hgw : 64 * g + w = 64 * f + v
    · obtain ⟨rfl, rfl⟩ : g = f ∧ w = v := by omega
      refine .inr ⟨hself, fun hl => ?_⟩
      rw [hsend, if_pos (hlink.trans hl), hself]
      exact List.mem_append_right _ (List.mem_singleton.mpr rfl)
    · exact .inl (d.unpend_ne hgw)

theorem Dev.flushVector_stays {d : Dev} {f v : Nat} (h : ¬ ((d.vector f v).pend = true ∧ (d.fn f).msixEnable = true ∧ (d.fn f).msixMask = false
    ∧ (d.vector f v).masked = false ∧ d.masters f = true)) : d.flushVector f v = d := by
  refine if_neg fun hc => h ?_
  simpa using hc

theorem Dev.flushVector_flushes (d : Dev) (f : Nat) {v : Nat} (hv : v < 64) : d.flushes (d.flushVector f v) := by
  by_cases h : (d.vector f v).pend = true ∧ (d.fn f).msixEnable = true ∧ (d.fn f).msixMask = false ∧ (d.vector f v).masked = false
      ∧ d.masters f = true
  · obtain ⟨hp, hen, hmask, hvec, hm⟩ := h
    exact (Dev.flushVector_goes hv hp hen hmask hvec hm).2
  · rw [Dev.flushVector_stays h]
    exact .refl d

theorem Dev.foldl_flushVector (f : Nat) {vs : List Nat} (hvs : ∀ v ∈ vs, v < 64) (d : Dev) :
    d.flushes (vs.foldl (fun d v => d.flushVector f v) d) :=
  List.foldlRecOn (motive := fun e => d.flushes e) vs _ (.refl d) fun e h v hv => h.trans (e.flushVector_flushes f (hvs v hv))

theorem Dev.flushPending_flushes (d : Dev) (f : Nat) : d.flushes (d.flushPending f) := Dev.foldl_flushVector f (fun _ => List.mem_range.mp) d

theorem Dev.fn_of_flushes {d e : Dev} (h : d.flushes e) (g : Nat) : e.fn g = d.fn g := by rw [Dev.fn, h.1, Dev.fn]

theorem Dev.masters_of_flushes {d e : Dev} (h : d.flushes e) (g : Nat) : e.masters g = d.masters g := by
  rw [Dev.masters, Dev.fn_of_flushes h, Dev.fn_of_flushes h, Dev.masters]

/-- A vector of a function that is enabled, unmasked and a bus master is pending no longer. -/
theorem Dev.foldl_flushVector_pend {f j : Nat} (hj : j < 64) : ∀ {vs : List Nat}, (∀ v ∈ vs, v < 64) → j ∈ vs → ∀ {d : Dev},
    (d.vector f j).masked = false → (d.fn f).msixEnable = true → (d.fn f).msixMask = false → d.masters f = true →
    ((vs.foldl (fun d v => d.flushVector f v) d).vector f j).pend = false := by
  intro vs
  induction vs with
  | nil => exact fun _ hjv => absurd hjv List.not_mem_nil
  | cons v vs ih =>
    intro hvs hjv d hvec hen hmask hm
    have hrest := fun w hw => hvs w (List.mem_cons_of_mem _ hw)
    have hstep := d.flushVector_flushes f (hvs v List.mem_cons_self)
    rw [List.foldl_cons]
    by_cases hv : v = j
    · subst hv
      refine (Dev.foldl_flushVector f hrest _).pend hj ?_
      cases hp : (d.vector f v).pend
      · exact hstep.pend hj hp
      · exact (Dev.flushVector_goes hj hp hen hmask hvec hm).1
    · refine ih hrest ((List.mem_cons.mp hjv).resolve_left (Ne.symm hv)) ?_ ?_ ?_ ?_
      · rcases hstep.2.2.2 f j hj with h | ⟨h, -⟩
        · rw [h, hvec]
        · rw [h, hvec]
      · rw [Dev.fn_of_flushes hstep, hen]
      · rw [Dev.fn_of_flushes hstep, hmask]
      · rw [Dev.masters_of_flushes hstep, hm]

theorem Dev.flushPending_pend {d : Dev} {f j : Nat} (hj : j < 64) (hvec : (d.vector f j).masked = false) (hen : (d.fn f).msixEnable = true)
    (hmask : (d.fn f).msixMask = false) (hm : d.masters f = true) : ((d.flushPending f).vector f j).pend = false :=
  Dev.foldl_flushVector_pend hj (fun _ => List.mem_range.mp) (List.mem_range.mpr hj) hvec hen hmask hm

theorem Dev.flushFrom_flushes (d : Dev) (f : Nat) : d.flushes (d.flushFrom f) := by
  unfold Dev.flushFrom
  split
  · exact .foldl (fun d g => d.flushPending_flushes g) _ _
  · exact d.flushPending_flushes f

theorem Dev.flushFrom_pend {d : Dev} {f j : Nat} (hj : j < 64) (hvec : (d.vector f j).masked = false) (hen : (d.fn f).msixEnable = true)
    (hmask : (d.fn f).msixMask = false) (hm : d.masters f = true) : ((d.flushFrom f).vector f j).pend = false := by
  unfold Dev.flushFrom
  split
  next h0 =>
    subst h0
    rw [show 25 = 24 + 1 from rfl, List.range_succ_eq_map, List.foldl_cons]
    exact (Dev.flushes.foldl (fun d g => d.flushPending_flushes g) _ (d.flushPending 0)).pend hj (Dev.flushPending_pend hj hvec hen hmask hm)
  next => exact Dev.flushPending_pend hj hvec hen hmask hm

/-! ## Configuration writes (11 R323, 15 R420, R428) -/

/-- What a write of a function's own registers does: the function takes it, no other function changes, and the messages that wait no
longer go. -/
def Dev.ownTaken (d e : Dev) (f : Nat) (x : FnCfg) : Prop :=
  e.fn f = x ∧ (∀ g : Nat, g ≠ f → e.fn g = d.fn g) ∧ d.onlyIn e [.hif, .regs]

/-- The messages of a function that waited and need wait no longer are out. -/
def Dev.ownFlushed (d e : Dev) (f : Nat) : Prop :=
  ∀ j : Nat, j < 64 → (d.vector f j).pend = true → (d.vector f j).masked = false →
    (e.fn f).msixEnable = true → (e.fn f).msixMask = false → e.masters f = true → (e.vector f j).pend = false
      ∧ (d.linkCarries = true → HostOut.message f j (d.vector f j).addr (d.vector f j).data ∈ e.hif.out)

theorem Dev.setFn_taken (d : Dev) (f : Nat) (g : FnCfg → FnCfg) : d.ownTaken (d.setFn f g) f (g (d.fn f)) :=
  ⟨tget_tmod_self _ _ _ _, fun _ h => tget_tmod_ne _ _ _ h, .setFn (d.onlyIn_refl _)⟩

theorem Dev.ownTaken_flushes {d k e : Dev} {f : Nat} {x : FnCfg} (h : d.ownTaken k f x) (hf : k.flushes e) (hframe : k.onlyIn e [.hif, .regs]) :
    d.ownTaken e f x :=
  ⟨(Dev.fn_of_flushes hf f).trans h.1, fun g hg => (Dev.fn_of_flushes hf g).trans (h.2.1 g hg), Dev.onlyIn_trans h.2.2 hframe⟩

/-- What goes after a function's configuration was set. -/
theorem Dev.ownFlushed_of {d k e : Dev} {f : Nat} (hf : k.flushes e) (hv : ∀ j, k.vector f j = d.vector f j) (hl : k.linkCarries = d.linkCarries)
    (hp : ∀ j, j < 64 → (k.vector f j).masked = false → (k.fn f).msixEnable = true → (k.fn f).msixMask = false → k.masters f = true →
      (e.vector f j).pend = false) : d.ownFlushed e f := by
  intro j hj hpend hvec hen hmask hm
  rw [Dev.fn_of_flushes hf] at hen hmask
  rw [Dev.masters_of_flushes hf] at hm
  have hnot := hp j hj (by rw [hv, hvec]) hen hmask hm
  refine ⟨hnot, fun hlink => ?_⟩
  rcases hf.2.2.2 f j hj with h | ⟨-, hsent⟩
  · rw [h, hv, hpend] at hnot
    exact absurd hnot (by decide)
  · rw [← hv]
    exact hsent (hl.trans hlink)

theorem Dev.setFn_flushPending (d : Dev) (f : Nat) (g : FnCfg → FnCfg) :
    d.ownTaken ((d.setFn f g).flushPending f) f (g (d.fn f)) ∧ d.ownFlushed ((d.setFn f g).flushPending f) f :=
  ⟨Dev.ownTaken_flushes (d.setFn_taken f g) (Dev.flushPending_flushes _ f) (.flushPending (Dev.onlyIn_refl _ _)),
    Dev.ownFlushed_of (k := d.setFn f g) (Dev.flushPending_flushes _ f) (fun _ => rfl) rfl
      fun _ hj hvec hen hmask hm => Dev.flushPending_pend hj hvec hen hmask hm⟩

theorem Dev.setFn_flushFrom (d : Dev) (f : Nat) (g : FnCfg → FnCfg) :
    d.ownTaken ((d.setFn f g).flushFrom f) f (g (d.fn f)) ∧ d.ownFlushed ((d.setFn f g).flushFrom f) f :=
  ⟨Dev.ownTaken_flushes (d.setFn_taken f g) (Dev.flushFrom_flushes _ f) (.flushFrom (Dev.onlyIn_refl _ _)),
    Dev.ownFlushed_of (k := d.setFn f g) (Dev.flushFrom_flushes _ f) (fun _ => rfl) rfl
      fun _ hj hvec hen hmask hm => Dev.flushFrom_pend hj hvec hen hmask hm⟩

/-- A function that configuration writes reach. -/
def Dev.configReaches (d : Dev) (f : Nat) : Prop := d.ready = true ∧ (f = 0 ∨ (d.hif.vfEnable = true ∧ f ≤ d.hif.numVfs))

theorem Dev.configWrite_absent {d : Dev} {f : Nat} (h : ¬ d.configReaches f) (r : CfgReg) (v : Nat) : d.configWrite f r v = d := by
  refine if_pos ?_
  simp only [Dev.configReaches] at h
  simp only [Bool.not_eq_true', Bool.or_eq_false_iff, beq_eq_false_iff_ne, Bool.and_eq_false_iff, decide_eq_false_iff_not]
  by_contra hc
  push Not at hc
  refine h ⟨by simpa using hc.1, ?_⟩
  by_cases hf : f = 0
  · exact .inl hf
  · have := hc.2 hf
    exact .inr ⟨by simpa using this.1, this.2⟩

theorem Dev.configReaches.guard {d : Dev} {f : Nat} (h : d.configReaches f) :
    ¬ ((!d.ready) = true ∨ (!(f == 0 || (d.hif.vfEnable && decide (f ≤ d.hif.numVfs)))) = true) := by
  obtain ⟨hr, hf | ⟨he, hn⟩⟩ := h
  · simp [hr, hf]
  · simp [hr, he, hn]

/-- A write of the registers that every function has, which are its own. -/
theorem Dev.configWrite_own {d : Dev} {f : Nat} (h : d.configReaches f) (v : Nat) :
    d.configWrite f .busMaster v = (d.setFn f (fun c => { c with busMaster := v % 2 == 1 })).flushFrom f
      ∧ d.configWrite f .msixEnable v = (d.setFn f (fun c => { c with msixEnable := v % 2 == 1 })).flushPending f
      ∧ d.configWrite f .msixMask v = (d.setFn f (fun c => { c with msixMask := v % 2 == 1 })).flushPending f
      ∧ d.configWrite f .powerState v = if v = 0 ∨ v = 3 then d.setFn f (fun c => { c with d3 := v == 3 }) else d :=
  ⟨if_neg h.guard, if_neg h.guard, if_neg h.guard, if_neg h.guard⟩

/-- A write of the registers of the PF alone. -/
theorem Dev.configWrite_pf {d : Dev} {f : Nat} (h : d.configReaches f) (v : Nat) :
    (d.configWrite f .bar4Size v = if f = 0 ∧ 36 ≤ v ∧ v ≤ 40 then d.onHif (fun h => { h with bar4Log2 := v }) else d)
      ∧ (d.configWrite f .vfEnable v = if f = 0 ∧ !d.recoveryBoot then d.setVfs (v % 2 == 1) d.hif.numVfs else d)
      ∧ (d.configWrite f .numVfs v = if f = 0 ∧ v ≤ 24 ∧ !d.recoveryBoot then d.setVfs d.hif.vfEnable v else d)
      ∧ (d.configWrite f .maxPayload v =
          if f = 0 ∧ (v = 128 ∨ v = 256 ∨ v = 512) then d.onHif (fun h => { h with maxPayload := v }) else d)
      ∧ (d.configWrite f .maxReadReq v =
          if f = 0 ∧ [128, 256, 512, 1024, 2048, 4096].contains v then d.onHif (fun h => { h with maxReadReq := v }) else d)
      ∧ (d.configWrite f .cplTimeoutRange v = if f = 0 ∧ v ≤ 4 then d.onHif (fun h => { h with cplRange := v }) else d) :=
  ⟨if_neg h.guard, if_neg h.guard, if_neg h.guard, if_neg h.guard, if_neg h.guard, if_neg h.guard⟩

/-- Settles O44: the link's events by their two outcomes, each configuration write by its register, the messages of a function that
wait no longer one vector after the other, and the VFs that leave one FLR after the other. -/
theorem linkAndConfigurationSpaceAct : Obligations.LinkAndConfigurationSpaceAct := by
  unfold Obligations.LinkAndConfigurationSpaceAct
  refine ⟨fun s rate width flit rev => ?_, fun s => ?_, fun s => ?_, fun s f r v => ?_, fun s => ?_⟩
  · refine ⟨fun h => State.onDev_next (Dev.linkUpEvent_stays h _ _ _ _), fun h hr hw =>
      ⟨s.dev.linkedUp rate width flit rev, State.onDev_next (Dev.linkUpEvent_goes h _ _ _ _), ?_⟩⟩
    obtain ⟨h1, h2, h3, h4, h5⟩ := linkUpWord_fields hr hw flit rev
    simp only [Dev.linkedUp_getF]
    refine ⟨h1, h2, h3, h4, h5, Dev.linkedUp_wakeN _ _ _ _ _, fun hd => ?_, Dev.raise_sets _ (by decide) ?_ (by decide),
      Dev.linkedUp_regs _ _ _ _ _, Dev.linkedUp_frame _ _ _ _ _⟩
    · refine Dev.raise_sets _ (by decide) ?_ (by decide)
      rw [if_pos hd]
      decide
    · split <;> decide
  · exact ⟨fun h => State.onDev_next (if_neg h), fun h => ⟨_, rfl, Dev.ideInsecure_established h⟩⟩
  · refine ⟨fun h => State.onDev_next (if_pos h), fun hw ht => State.onDev_next (if_neg ?_)⟩
    rw [hw]
    simpa using ht
  · by_cases hreach : s.dev.configReaches f
    swap
    · exact ⟨fun _ => State.onDev_next (Dev.configWrite_absent hreach r v), fun h => absurd ⟨h.1.1, by simpa using h.1.2⟩ hreach⟩
    have hhere : s.dev.ready = true ∧ (f = 0 ∨ s.dev.hif.vfEnable = true ∧ f.val ≤ s.dev.hif.numVfs) := ⟨hreach.1, by simpa using hreach.2⟩
    have hz : f.val = 0 ↔ f = 0 := Fin.val_eq_zero_iff
    obtain ⟨hbus, hen, hmask, hpower⟩ := Dev.configWrite_own hreach v
    obtain ⟨hbar, hvf, hnum, hpay, hreq, hrange⟩ := Dev.configWrite_pf hreach v
    cases r with
    | busMaster =>
      obtain ⟨⟨hself, hothers, hframe⟩, hflushed⟩ := s.dev.setFn_flushFrom f (fun c => { c with busMaster := v % 2 == 1 })
      exact ⟨fun h => absurd ⟨hhere, .inl rfl, trivial⟩ h, fun _ => ⟨_, State.onDev_next hbus, fun _ => hself, nofun, nofun, nofun,
        fun _ => ⟨hothers, hframe, fun j hj hp hm _ => hflushed j hj hp hm⟩, nofun, nofun, nofun, nofun, nofun, nofun, nofun⟩⟩
    | msixEnable =>
      obtain ⟨⟨hself, hothers, hframe⟩, hflushed⟩ := s.dev.setFn_flushPending f (fun c => { c with msixEnable := v % 2 == 1 })
      exact ⟨fun h => absurd ⟨hhere, .inl rfl, trivial⟩ h, fun _ => ⟨_, State.onDev_next hen, nofun, fun _ => hself, nofun, nofun,
        fun _ => ⟨hothers, hframe, fun j hj hp hm _ => hflushed j hj hp hm⟩, nofun, nofun, nofun, nofun, nofun, nofun, nofun⟩⟩
    | msixMask =>
      obtain ⟨⟨hself, hothers, hframe⟩, hflushed⟩ := s.dev.setFn_flushPending f (fun c => { c with msixMask := v % 2 == 1 })
      exact ⟨fun h => absurd ⟨hhere, .inl rfl, trivial⟩ h, fun _ => ⟨_, State.onDev_next hmask, nofun, nofun, fun _ => hself, nofun,
        fun _ => ⟨hothers, hframe, fun j hj hp hm _ => hflushed j hj hp hm⟩, nofun, nofun, nofun, nofun, nofun, nofun, nofun⟩⟩
    | powerState =>
      by_cases hv : v = 0 ∨ v = 3
      · obtain ⟨hself, hothers, hframe⟩ := s.dev.setFn_taken f (fun c => { c with d3 := v == 3 })
        exact ⟨fun h => absurd ⟨hhere, .inl rfl, hv⟩ h, fun _ => ⟨_, State.onDev_next (hpower.trans (if_pos hv)), nofun, nofun, nofun,
          fun _ => hself, fun _ => ⟨hothers, hframe, fun _ _ _ _ hne => absurd rfl hne⟩, nofun, nofun, nofun, nofun, nofun, nofun, nofun⟩⟩
      · exact ⟨fun _ => State.onDev_next (hpower.trans (if_neg hv)), fun h => absurd h.2.2 hv⟩
    | bar4Size =>
      by_cases hc : f.val = 0 ∧ 36 ≤ v ∧ v ≤ 40
      · exact ⟨fun h => absurd ⟨hhere, .inr (hz.mp hc.1), hc.2⟩ h, fun _ => ⟨_, State.onDev_next (hbar.trans (if_pos hc)), nofun, nofun, nofun, nofun,
          fun h => absurd h (by decide), fun _ => rfl, nofun, nofun, nofun, nofun, nofun, fun h => h.elim nofun nofun⟩⟩
      · exact ⟨fun _ => State.onDev_next (hbar.trans (if_neg hc)), fun h => absurd ⟨hz.mpr (h.2.1.resolve_left (by decide)), h.2.2⟩ hc⟩
    | vfEnable =>
      obtain ⟨henable, hcount, htakes⟩ := s.dev.setVfs_takes (v % 2 == 1) s.dev.hif.numVfs
      by_cases hc : f.val = 0 ∧ (!s.dev.recoveryBoot) = true
      · exact ⟨fun h => absurd ⟨hhere, .inr (hz.mp hc.1), by simpa using hc.2⟩ h, fun _ => ⟨_, State.onDev_next (hvf.trans (if_pos hc)), nofun, nofun, nofun, nofun,
          fun h => absurd h (by decide), nofun, nofun, nofun, nofun, fun _ => ⟨henable, hcount⟩, nofun, fun _ g hg hen hle hgone => htakes g hg hen hle hgone⟩⟩
      · exact ⟨fun _ => State.onDev_next (hvf.trans (if_neg hc)), fun h => absurd ⟨hz.mpr (h.2.1.resolve_left (by decide)), by simpa using h.2.2⟩ hc⟩
    | numVfs =>
      obtain ⟨henable, hcount, htakes⟩ := s.dev.setVfs_takes s.dev.hif.vfEnable v
      by_cases hc : f.val = 0 ∧ v ≤ 24 ∧ (!s.dev.recoveryBoot) = true
      · exact ⟨fun h => absurd ⟨hhere, .inr (hz.mp hc.1), hc.2.1, by simpa using hc.2.2⟩ h, fun _ => ⟨_, State.onDev_next (hnum.trans (if_pos hc)), nofun, nofun, nofun, nofun,
          fun h => absurd h (by decide), nofun, nofun, nofun, nofun, nofun, fun _ => ⟨hcount, henable⟩, fun _ g hg hen hle hgone => htakes g hg hen hle hgone⟩⟩
      · exact ⟨fun _ => State.onDev_next (hnum.trans (if_neg hc)), fun h => absurd ⟨hz.mpr (h.2.1.resolve_left (by decide)), h.2.2.1, by simpa using h.2.2.2⟩ hc⟩
    | maxPayload =>
      by_cases hc : f.val = 0 ∧ (v = 128 ∨ v = 256 ∨ v = 512)
      · exact ⟨fun h => absurd ⟨hhere, .inr (hz.mp hc.1), hc.2⟩ h, fun _ => ⟨_, State.onDev_next (hpay.trans (if_pos hc)), nofun, nofun, nofun, nofun,
          fun h => absurd h (by decide), nofun, fun _ => rfl, nofun, nofun, nofun, nofun, fun h => h.elim nofun nofun⟩⟩
      · exact ⟨fun _ => State.onDev_next (hpay.trans (if_neg hc)), fun h => absurd ⟨hz.mpr (h.2.1.resolve_left (by decide)), h.2.2⟩ hc⟩
    | maxReadReq =>
      by_cases hc : f.val = 0 ∧ [128, 256, 512, 1024, 2048, 4096].contains v = true
      · exact ⟨fun h => absurd ⟨hhere, .inr (hz.mp hc.1), by simpa using hc.2⟩ h, fun _ => ⟨_, State.onDev_next (hreq.trans (if_pos hc)), nofun, nofun, nofun, nofun,
          fun h => absurd h (by decide), nofun, nofun, fun _ => rfl, nofun, nofun, nofun, fun h => h.elim nofun nofun⟩⟩
      · exact ⟨fun _ => State.onDev_next (hreq.trans (if_neg hc)), fun h => absurd ⟨hz.mpr (h.2.1.resolve_left (by decide)), by simpa using h.2.2⟩ hc⟩
    | cplTimeoutRange =>
      by_cases hc : f.val = 0 ∧ v ≤ 4
      · exact ⟨fun h => absurd ⟨hhere, .inr (hz.mp hc.1), hc.2⟩ h, fun _ => ⟨_, State.onDev_next (hrange.trans (if_pos hc)), nofun, nofun, nofun, nofun,
          fun h => absurd h (by decide), nofun, nofun, nofun, fun _ => rfl, nofun, nofun, fun h => h.elim nofun nofun⟩⟩
      · exact ⟨fun _ => State.onDev_next (hrange.trans (if_neg hc)), fun h => absurd ⟨hz.mpr (h.2.1.resolve_left (by decide)), h.2.2⟩ hc⟩
  · have hv : s.ident.vid.toNat < 2 ^ 16 := s.ident.vid.isLt
    simp only [State.configRead, if_pos, atBit, Nat.shiftLeft_eq]
    exact ⟨by omega, by omega⟩

end Sys2Proof.Machine
end

section
/-! # What parts the operations may change: Host reads that fail and that come back

The lemma about an operation has its name, in the order of the definitions. -/

namespace Sys2Proof.Machine
-- These proofs are many and small: elaborated all at once they take more threads than the checker has.
set_option Elab.async false
namespace Dev.onlyIn
variable {d₀ d e : Dev} {C : List Comp}

theorem dropRead (h₀ : d₀.onlyIn d C) {i : Nat} (sub : among [.hif] C := by rfl) : d₀.onlyIn (d.dropRead i) C :=
  h₀.into sub fun _ hd => .onHif hd

end Dev.onlyIn
end Sys2Proof.Machine
end

section
/-! # Host reads that fail and that come back -/

namespace Sys2Proof.Machine

/-! ## A read that fails (15 R427) -/

/-- An event set stays set when others are raised. -/
theorem Dev.event_raise {d : Dev} {page i : Nat} (h : d.event page i = true) (hp : rBlkIntStat page ≠ rHifTxDrop) (q bits : Nat) :
    (d.raise q bits).event page i = true := by
  refine Dev.signal_event hp ?_ d
  rw [Dev.event] at h
  rw [Dev.event, Dev.modReg, Dev.reg_setReg]
  split
  next heq => rw [bitOf, BitVec.getLsbD_or, ← heq, ← bitOf, h, Bool.true_or]
  next => exact h

/-- What every failed read shows, whatever it was for: it is counted, its address is kept, and memory stands. -/
def Dev.aborted (d e : Dev) (addr : Nat) : Prop :=
  e.host = d.host ∧ e.stk = d.stk ∧ d.counted e rHifAbortCnt fHifAbortCnt_Cnt 1 ∧ e.getF rHifAbortLast fHifAbortLast_Addr = addr % 2 ^ 64
    ∧ e.event pgHif 2 = true

/-- The device once a failed read is outstanding no longer and counted. -/
def Dev.readLost (d : Dev) (i addr : Nat) : Dev := (d.dropRead i).hostFail addr

theorem Dev.readLost_frame (d : Dev) (i addr : Nat) : d.onlyIn (d.readLost i addr) [.regs, .hif] := .hostFail (.dropRead (d.onlyIn_refl _))

theorem Dev.readLost_reads (d : Dev) (i addr : Nat) : (d.readLost i addr).hif.reads = d.hif.reads.eraseIdx i := by
  obtain ⟨vs, out, hh⟩ := (((d.dropRead i).addF rHifAbortCnt fHifAbortCnt_Cnt 1).putF rHifAbortLast fHifAbortLast_Addr addr).raise_spoke pgHif 4
  rw [Dev.readLost, Dev.hostFail, hh]
  rfl

theorem Dev.readLost_aborted (d : Dev) (i addr : Nat) : d.aborted (d.readLost i addr) addr := by
  have hregs := (((d.dropRead i).addF rHifAbortCnt fHifAbortCnt_Cnt 1).putF rHifAbortLast fHifAbortLast_Addr addr).raise_regsBut pgHif 4
  refine ⟨d.readLost_frame i addr .host rfl, d.readLost_frame i addr .stk rfl, ?_, ?_, Dev.raise_sets _ (by decide) (by decide) (by decide)⟩
  · rw [Dev.counted, Dev.readLost, Dev.hostFail, Dev.getF_of_regsBut hregs rfl]
    exact (Dev.getF_putF_ne _ _ _ _ (by decide)).trans ((d.dropRead i).addF_counted _ _ _ (by decide))
  · rw [Dev.readLost, Dev.hostFail, Dev.getF_of_regsBut hregs rfl]
    exact Dev.getF_putF_self _ _ _ _ (by decide)

/-- A step that leaves memory and registers leaves what a failed read shows. -/
theorem Dev.aborted_after {d k e : Dev} {addr : Nat} (h : d.aborted k addr) (hf : k.onlyIn e [.cq, .tiles]) : d.aborted e addr := by
  obtain ⟨hhost, hstk, hcount, haddr, hevent⟩ := h
  have hreg : ∀ a, e.reg a = k.reg a := Dev.reg_congr (hf .regs rfl)
  refine ⟨(hf .host rfl).trans hhost, (hf .stk rfl).trans hstk, ?_, ?_, ?_⟩
  · rw [Dev.counted, Dev.getF, hreg]
    exact hcount
  · rw [Dev.getF, hreg]
    exact haddr
  · rw [Dev.event, hreg]
    exact hevent

theorem Dev.modEntry_entry_self (d : Dev) (j : Nat) (f : Entry → Entry) : (d.modEntry j f).entry j = f (d.entry j) := tget_tmod_self _ _ _ _

theorem Dev.modEntry_entry_ne (d : Dev) {j k : Nat} (f : Entry → Entry) (h : k ≠ j) : (d.modEntry j f).entry k = d.entry k := tget_tmod_ne _ _ _ h

/-- A request that closes. -/
theorem Dev.closeWith_entry_self (d : Dev) (j status cause : Nat) :
    (d.closeWith j status cause).entry j = { d.entry j with state := .closing, outs := [] } := (d.dropTokenReads j).modEntry_entry_self j _

theorem Dev.closeWith_entry_ne (d : Dev) {j k : Nat} (status cause : Nat) (h : k ≠ j) : (d.closeWith j status cause).entry k = d.entry k :=
  (d.dropTokenReads j).modEntry_entry_ne _ h

/-- A request aborted: counted, its cause kept, and closed. -/
def Dev.abortOpen (d : Dev) (i cause : Nat) : Dev :=
  ((d.addF (rSrvAbort (d.entry i).part) fSrvAbort_Abort 1).modEntry i (fun x => { x with cause := cause })).closeWith i 0x11 cause

theorem Dev.abortEntry_open {d : Dev} {i : Nat} (ho : (d.entry i).occupied = true) (hs : (d.entry i).state ≠ .closing) (cause : Nat) :
    d.abortEntry i cause = (d.abortOpen i cause).raise (pgSrv 0) (2 ^ (8 + (d.entry i).part)) := if_neg (by simp [ho, hs])

theorem Dev.abortEntry_shut {d : Dev} {i : Nat} (h : ¬ ((d.entry i).occupied = true ∧ (d.entry i).state ≠ .closing)) (cause : Nat) :
    d.abortEntry i cause = d := by
  refine if_pos ?_
  rw [Bool.not_eq_true']
  by_contra hc
  push Not at hc
  exact h ⟨by simpa using hc.1, hc.2⟩

theorem Dev.abortOpen_regs (d : Dev) (i cause : Nat) : d.regsBut (d.abortOpen i cause) [rSrvAbort (d.entry i).part] := d.regsBut_putF _ _ _

/-- What an abort of a request writes lies on the serving pages. -/
theorem Dev.abortEntry_regs (d : Dev) (i cause : Nat) :
    d.regsBut (d.abortEntry i cause) (rSrvAbort (d.entry i).part :: raiseRegs (pgSrv 0)) := by
  by_cases h : (d.entry i).occupied = true ∧ (d.entry i).state ≠ .closing
  · rw [Dev.abortEntry_open h.1 h.2]
    exact Dev.regsBut_trans (Dev.regsBut_mono (d.abortOpen_regs i cause) (by simp)) (Dev.regsBut_mono (Dev.raise_regsBut _ _ _) (by simp))
  · rw [Dev.abortEntry_shut h]
    exact fun _ _ => rfl

theorem Dev.abortEntry_event {d : Dev} {page i : Nat} (h : d.event page i = true) (hp : rBlkIntStat page ≠ rHifTxDrop) {j cause : Nat}
    (hs : rBlkIntStat page ≠ rSrvAbort (d.entry j).part) : (d.abortEntry j cause).event page i = true := by
  by_cases ho : (d.entry j).occupied = true ∧ (d.entry j).state ≠ .closing
  · rw [Dev.abortEntry_open ho.1 ho.2]
    refine Dev.event_raise ?_ hp _ _
    exact (congrArg (bitOf · i) (d.abortOpen_regs j cause _ (by simpa using hs))).trans h
  · rwa [Dev.abortEntry_shut ho]

theorem Dev.aborted_abortEntry {d k : Dev} {addr : Nat} (h : d.aborted k addr) (j cause : Nat) : d.aborted (k.abortEntry j cause) addr := by
  obtain ⟨hhost, hstk, hcount, haddr, hevent⟩ := h
  have hframe : k.onlyIn (k.abortEntry j cause) [.regs, .cq, .srv, .hif, .free] := .abortEntry (k.onlyIn_refl _)
  have hregs := k.abortEntry_regs j cause
  have hlow : ∀ a : Nat, a < 0xC00000 → a ≠ rHifTxDrop → a ≠ rBlkIntStat pgHif →
      (rSrvAbort (k.entry j).part :: raiseRegs (pgSrv 0)).contains a = false := by
    intro a ha htx hst
    have hsrv : a ≠ rSrvAbort (k.entry j).part ∧ a ≠ rBlkIntStat (pgSrv 0) := by
      simp only [rSrvAbort, rBlkIntStat, pgSrv]
      omega
    simp only [List.contains_eq_mem, List.mem_cons, List.not_mem_nil, or_false, decide_eq_false_iff_not, not_or]
    exact ⟨hsrv.1, hsrv.2, htx, hst⟩
  refine ⟨(hframe .host rfl).trans hhost, (hframe .stk rfl).trans hstk, ?_, ?_, Dev.abortEntry_event hevent (by decide) ?_⟩
  · rw [Dev.counted, Dev.getF_of_regsBut hregs (hlow _ (by decide) (by decide) (by decide))]
    exact hcount
  · rw [Dev.getF_of_regsBut hregs (hlow _ (by decide) (by decide) (by decide))]
    exact haddr
  · simp only [rBlkIntStat, pgHif, rSrvAbort]
    omega

/-- A request with nothing to hand over closes with its cause. -/
theorem Dev.abortEntry_closes {d : Dev} {j cause : Nat} (ho : (d.entry j).occupied = true) (hs : (d.entry j).state ≠ .closing) :
    ((d.abortEntry j cause).entry j).state = .closing ∧ ((d.abortEntry j cause).entry j).cause = cause := by
  have hsrv : (d.abortEntry j cause).srv = (d.abortOpen j cause).srv := by
    rw [Dev.abortEntry_open ho hs]
    exact Dev.raise_frame _ _ _ .srv rfl
  have hentry : (d.abortOpen j cause).entry j = { d.entry j with cause := cause, state := .closing, outs := [] } := by
    rw [Dev.abortOpen, Dev.closeWith_entry_self, Dev.modEntry_entry_self]
    rfl
  rw [Dev.entry, hsrv, ← Dev.entry, hentry]
  exact ⟨rfl, rfl⟩

/-- The device with the data of a read that came. -/
def Dev.readData (d : Dev) (i addr : Nat) (data : List Byte) : Dev :=
  { d with
    hif := { d.hif with reads := d.hif.reads.eraseIdx i }
    host := d.host.putBytes addr data }

theorem Dev.hostReadCompletion_failed {d : Dev} {i : Nat} {r : OutRead} (hr : d.hif.reads[i]? = some r) {st : ReadStatus} (hs : st ≠ .ok)
    (data : List Byte) : d.hostReadCompletion i st data = (d.dropRead i).readFailed r := by
  simp only [Dev.hostReadCompletion, hr, if_pos hs]

theorem Dev.hostReadCompletion_odd {d : Dev} {i : Nat} {r : OutRead} (hr : d.hif.reads[i]? = some r) {data : List Byte}
    (hl : data.length ≠ r.len) : d.hostReadCompletion i .ok data = d := by
  simp only [Dev.hostReadCompletion, hr, ne_eq, not_true_eq_false, if_false, if_pos hl]

theorem Dev.hostReadCompletion_came {d : Dev} {i : Nat} {r : OutRead} (hr : d.hif.reads[i]? = some r) {data : List Byte}
    (hl : data.length = r.len) : d.hostReadCompletion i .ok data = (d.readData i r.addr data).readCame r := by
  simp only [Dev.hostReadCompletion, hr, ne_eq, not_true_eq_false, if_false, hl]
  rfl

theorem Dev.completionTimeout_failed {d : Dev} {i : Nat} {r : OutRead} (hr : d.hif.reads[i]? = some r)
    (ht : r.sentAt + cplTimeout d.hif.cplRange ≤ d.time) : d.completionTimeout i = (d.dropRead i).readFailed r := by
  simp only [Dev.completionTimeout, hr, if_neg (Nat.not_lt.mpr ht)]

theorem Dev.completionTimeout_early {d : Dev} {i : Nat} {r : OutRead} (hr : d.hif.reads[i]? = some r)
    (ht : d.time < r.sentAt + cplTimeout d.hif.cplRange) : d.completionTimeout i = d := by
  simp only [Dev.completionTimeout, hr, if_pos ht]

/-- A failed read fails its command. -/
theorem Dev.readFailed_cmd {d : Dev} {i : Nat} {r : OutRead} {c : Nat} (h : r.purpose = .cmd c ∨ ∃ t j, r.purpose = .op t j ∧ (d.tile t).cmd = some c) :
    (d.dropRead i).readFailed r = (d.readLost i r.addr).failCmd c 0x33 r.handle r.vaddr := by
  rcases h with h | ⟨t, j, h, hc⟩
  · simp only [Dev.readFailed, h]
    rfl
  · have ht : (((d.dropRead i).hostFail r.addr).tile t).cmd = some c := by
      rw [Dev.tile, show ((d.dropRead i).hostFail r.addr).tiles = d.tiles from d.readLost_frame i r.addr .tiles rfl]
      exact hc
    simp only [Dev.readFailed, h, ht]
    rfl

theorem Dev.readFailed_idle {d : Dev} {i : Nat} {r : OutRead} {t j : Nat} (h : r.purpose = .op t j) (hc : (d.tile t).cmd = none) :
    (d.dropRead i).readFailed r = d.readLost i r.addr := by
  have ht : (((d.dropRead i).hostFail r.addr).tile t).cmd = none := by
    rw [Dev.tile, show ((d.dropRead i).hostFail r.addr).tiles = d.tiles from d.readLost_frame i r.addr .tiles rfl]
    exact hc
  simp only [Dev.readFailed, h, ht]
  rfl

theorem Dev.readFailed_tokens {d : Dev} {i : Nat} {r : OutRead} {j : Nat} (h : r.purpose = .tokens j) :
    (d.dropRead i).readFailed r = (d.readLost i r.addr).abortEntry j 3 := by
  simp only [Dev.readFailed, h]
  rfl

theorem Dev.readFailed_head {d : Dev} {i : Nat} {r : OutRead} {k : Nat} (h : r.purpose = .head k) :
    (d.dropRead i).readFailed r = (d.readLost i r.addr).headFailed k r.handle r.vaddr := by
  simp only [Dev.readFailed, h]
  rfl

/-- What a failed read does, by what it was for. -/
def Dev.failsFor (d e : Dev) (i : Nat) (r : OutRead) : Prop :=
  ((∀ j : Nat, r.purpose ≠ .tokens j) → e.hif.reads = d.hif.reads.eraseIdx i) ∧ e.host = d.host ∧ e.stk = d.stk
    ∧ d.counted e rHifAbortCnt fHifAbortCnt_Cnt 1 ∧ e.getF rHifAbortLast fHifAbortLast_Addr = r.addr % 2 ^ 64
    ∧ e.event pgHif 2 = true
    ∧ (∀ c : Nat, (r.purpose = .cmd c ∨ ∃ t j : Nat, r.purpose = .op t j ∧ (d.tile t).cmd = some c) →
        e.cq.cmds = d.cq.cmds.map (fun y => if y.id = c then y.fail d.time 0x33 r.handle r.vaddr else y))
    ∧ (∀ k : Nat, r.purpose = .head k → (d.fetchedAt k).failed = none → (e.fetchedAt k).failed = some (r.handle, r.vaddr))
    ∧ (∀ j : Nat, r.purpose = .tokens j → (d.entry j).occupied = true → (d.entry j).state ≠ .closing → (d.entry j).outs = [] →
        (e.entry j).state = .closing ∧ (e.entry j).cause = 3)

/-- The failures that leave registers and memory: what remains to be said is of the command and of the head. -/
theorem Dev.failsFor_of {d e : Dev} {i : Nat} {r : OutRead} (hf : (d.readLost i r.addr).onlyIn e [.cq, .tiles])
    (ht : ∀ j : Nat, r.purpose ≠ .tokens j)
    (hc : ∀ c : Nat, (r.purpose = .cmd c ∨ ∃ t j : Nat, r.purpose = .op t j ∧ (d.tile t).cmd = some c) →
      e.cq.cmds = d.cq.cmds.map (fun y => if y.id = c then y.fail d.time 0x33 r.handle r.vaddr else y))
    (hh : ∀ k : Nat, r.purpose = .head k → (d.fetchedAt k).failed = none → (e.fetchedAt k).failed = some (r.handle, r.vaddr)) :
    d.failsFor e i r := by
  obtain ⟨hhost, hstk, hcount, haddr, hevent⟩ := Dev.aborted_after (d.readLost_aborted i r.addr) hf
  have hhif : e.hif = (d.readLost i r.addr).hif := hf .hif rfl
  exact ⟨fun _ => by rw [hhif, d.readLost_reads], hhost, hstk, hcount, haddr, hevent, hc, hh, fun j hj => absurd hj (ht j)⟩

theorem Dev.failCmd_cmds (d : Dev) (c status handle vaddr : Nat) :
    (d.failCmd c status handle vaddr).cq.cmds = d.cq.cmds.map (fun y => if y.id = c then y.fail d.time status handle vaddr else y) := rfl

theorem Dev.readFailed_fails (d : Dev) (i : Nat) (r : OutRead) : d.failsFor ((d.dropRead i).readFailed r) i r := by
  have hframe := d.readLost_frame i r.addr
  have hcq : (d.readLost i r.addr).cq = d.cq := hframe .cq rfl
  have hcmd : ∀ c : Nat, (r.purpose = .cmd c ∨ ∃ t j, r.purpose = .op t j ∧ (d.tile t).cmd = some c) →
      ((d.dropRead i).readFailed r).cq.cmds = d.cq.cmds.map (fun y => if y.id = c then y.fail d.time 0x33 r.handle r.vaddr else y) := by
    intro c hc
    have htime : (d.readLost i r.addr).time = d.time := hframe .time rfl
    rw [Dev.readFailed_cmd hc, Dev.failCmd_cmds, hcq, htime]
  have hfail : ∀ c, (d.readLost i r.addr).onlyIn ((d.readLost i r.addr).failCmd c 0x33 r.handle r.vaddr) [.cq, .tiles] := fun c =>
    .failCmd (Dev.onlyIn_refl _ _)
  cases hp : r.purpose with
  | cmd c =>
    refine Dev.failsFor_of ?_ (by simp [hp]) hcmd (by simp [hp])
    rw [Dev.readFailed_cmd (.inl hp)]
    exact hfail c
  | op t j =>
    refine Dev.failsFor_of ?_ (by simp [hp]) hcmd (by simp [hp])
    cases hc : (d.tile t).cmd with
    | none =>
      rw [Dev.readFailed_idle hp hc]
      exact Dev.onlyIn_refl _ _
    | some c =>
      rw [Dev.readFailed_cmd (.inr ⟨t, j, hp, hc⟩)]
      exact hfail c
  | head k =>
    have hat : (d.readLost i r.addr).fetchedAt k = d.fetchedAt k := by rw [Dev.fetchedAt, hcq, Dev.fetchedAt]
    refine Dev.failsFor_of ?_ (by simp [hp]) hcmd fun k' hk' hnone => ?_
    · rw [Dev.readFailed_head hp]
      exact .headFailed (Dev.onlyIn_refl _ _)
    · obtain rfl : k = k' := by simpa [hp] using hk'
      rw [Dev.readFailed_head hp, Dev.headFailed, hat, hnone]
      exact congrArg Fetched.failed (tget_tset_self _ _ _ _)
  | tokens j =>
    rw [Dev.readFailed_tokens hp]
    obtain ⟨hhost, hstk, hcount, haddr, hevent⟩ := Dev.aborted_abortEntry (d.readLost_aborted i r.addr) j 3
    have hentry : (d.readLost i r.addr).entry j = d.entry j := by
      rw [Dev.entry, show (d.readLost i r.addr).srv = d.srv from hframe .srv rfl, Dev.entry]
    refine ⟨fun h => absurd hp (h j), hhost, hstk, hcount, haddr, hevent, ?_, ?_, fun j' hj' ho hs _ => ?_⟩
    · simp [hp]
    · simp [hp]
    · obtain rfl : j = j' := by simpa [hp] using hj'
      exact Dev.abortEntry_closes (by rw [hentry, ho]) (by rw [hentry]; exact hs)

/-! ## A read that comes back -/

/-- A read that ends no waiting COPY only brings its data. -/
theorem Dev.readCame_data {d : Dev} {r : OutRead} (hk : ∀ k : Nat, r.purpose ≠ .head k)
    (h : ∀ (c : Nat) (x : Cmd), r.purpose = .cmd c → d.cmd? c = some x → x.opcode ≠ 0x02 ∨ x.phase ≠ .running) : d.readCame r = d := by
  cases hp : r.purpose with
  | cmd c =>
    cases hc : d.cmd? c with
    | none => simp only [Dev.readCame, hp, hc]
    | some x =>
      have hx := h c x hp hc
      simp only [Dev.readCame, hp, hc]
      exact if_neg fun hcond => hx.elim (fun h => h hcond.1) fun h => h hcond.2.1
  | op t j => simp only [Dev.readCame, hp]
  | head k => exact absurd hp (hk k)
  | tokens j => simp only [Dev.readCame, hp]

/-- Settles O45: a read that fails by what it was for, one that comes back with its data, and the requests that reach no block. -/
theorem hostReadsComeBackOrFail : Obligations.HostReadsComeBackOrFail := by
  unfold Obligations.HostReadsComeBackOrFail
  refine ⟨fun s i r hr => ⟨fun st data hs => ?_, fun data hl => ?_, fun data hl hcopy => ⟨fun hk => ?_, fun k hk => ?_⟩, fun ht => ?_, fun ht => ?_⟩,
    fun s i st data hr => ?_, fun row hrow s f => ?_, fun s f bar off data => ?_⟩
  · exact ⟨_, State.onDev_next (Dev.hostReadCompletion_failed hr hs data), s.dev.readFailed_fails i r⟩
  · exact State.onDev_next (Dev.hostReadCompletion_odd hr hl)
  · refine State.onDev_next ((Dev.hostReadCompletion_came hr hl).trans (Dev.readCame_data hk ?_))
    exact hcopy
  · refine State.onDev_next ((Dev.hostReadCompletion_came hr hl).trans ?_)
    simp only [Dev.readCame, hk]
    rfl
  · exact State.onDev_next (Dev.completionTimeout_early hr ht)
  · exact ⟨_, State.onDev_next (Dev.completionTimeout_failed hr ht), s.dev.readFailed_fails i r⟩
  · exact ⟨State.onDev_next (by simp only [Dev.hostReadCompletion, hr]), State.onDev_next (by simp only [Dev.completionTimeout, hr])⟩
  · have hexec : exec (row f) s = .next (s.onDev fun d => d.unsupportedRequest f) := by
      simp only [List.mem_cons, List.not_mem_nil, or_false] at hrow
      rcases hrow with rfl | rfl <;> rfl
    rw [hexec]
    refine ⟨fun h => State.onDev_next (if_neg (by simp [h])), fun h => ⟨_, State.onDev_next (if_pos h), ?_, rfl, ?_, ?_⟩⟩
    · exact s.dev.addF_counted _ _ _ (by decide)
    · exact s.dev.regsBut_putF _ _ _
    · exact .sendOut (.addF (s.dev.onlyIn_refl _))
  · have hstop : s.dev.ready = true → ¬ (!s.dev.ready) = true := fun h => by simp [h]
    refine ⟨fun h => State.onDev_next (if_pos (by simp [h])), fun h hs => ⟨_, State.onDev_next ((if_neg (hstop h)).trans (if_pos (by simp [hs]))), ?_⟩,
      fun h hs => State.onDev_next ((if_neg (hstop h)).trans (if_neg (by simp [hs])))⟩
    exact ⟨s.dev.addF_counted _ _ _ (by decide), s.dev.regsBut_putF _ _ _, .addF (s.dev.onlyIn_refl _)⟩

end Sys2Proof.Machine
end

section
/-! # What parts the operations may change: The stacks kept up: refresh, temperature, scrubbing

The lemma about an operation has its name, in the order of the definitions. -/

namespace Sys2Proof.Machine
-- These proofs are many and small: elaborated all at once they take more threads than the checker has.
set_option Elab.async false
namespace Dev.onlyIn
variable {d₀ d e : Dev} {C : List Comp}

theorem stackReady (h₀ : d₀.onlyIn d C) {n : Nat} (sub : among [.regs, .hif] C := by rfl) : d₀.onlyIn (d.stackReady n) C :=
  h₀.into sub fun _ hd => .ite hd (.raise (.setReg hd))

theorem checkLap (h₀ : d₀.onlyIn d C) {n : Nat} (sub : among [.regs, .cs, .hif] C := by rfl) : d₀.onlyIn (d.checkLap n) C :=
  h₀.into sub fun _ hd => .ite (.raise (.modStack hd)) hd

end Dev.onlyIn
end Sys2Proof.Machine
end

section
/-! # The stacks kept up: refresh, temperature, scrubbing -/

namespace Sys2Proof.Machine

/-! ## Refresh and the lap timer of a stack (07 R208, 12 R345) -/

theorem Dev.stackSt_modStack (d : Dev) (n : Nat) (f : Stack → Stack) : (d.modStack n f).stackSt n = f (d.stackSt n) := tget_tmod_self _ _ _ _

theorem Dev.stackSt_raise (d : Dev) (page bits n : Nat) : (d.raise page bits).stackSt n = d.stackSt n := by
  rw [Dev.stackSt, show (d.raise page bits).cs = d.cs from d.raise_frame page bits .cs rfl, Dev.stackSt]

theorem Dev.regsBut_ite {c : Prop} [Decidable c] {d a b : Dev} {rs : List Nat} (ha : d.regsBut a rs) (hb : d.regsBut b rs) :
    d.regsBut (if c then a else b) rs := by
  split
  · exact ha
  · exact hb

/-- The registers that a lap over its limit may change. -/
abbrev lapRegs (n : Nat) : List Nat := [rBlkIntStat (pgCs1 n), rHifTxDrop, rBlkIntStat pgHif]

theorem Dev.checkLap_frame (d : Dev) (n : Nat) : d.onlyIn (d.checkLap n) [.cs, .regs, .hif] := .checkLap (d.onlyIn_refl _)

theorem Dev.checkLap_regsBut (d : Dev) (n : Nat) : d.regsBut (d.checkLap n) (lapRegs n) :=
  Dev.regsBut_ite (Dev.raise_regsBut (d.modStack n (fun s => { s with lapLate := true })) _ _) (d.regsBut_refl _)

/-- The lap timer changes of a stack only what shows that it ran out. -/
theorem Dev.checkLap_stackSt (d : Dev) (n : Nat) :
    ((d.checkLap n).stackSt n).refreshRow = (d.stackSt n).refreshRow ∧ ((d.checkLap n).stackSt n).scrubAt = (d.stackSt n).scrubAt := by
  unfold Dev.checkLap
  dsimp only
  split
  · rw [Dev.stackSt_raise, Dev.stackSt_modStack]
    exact ⟨rfl, rfl⟩
  · exact ⟨rfl, rfl⟩

/-- The rows of each bank that a band refreshes in a period, as 07 R208 gives them. -/
theorem bandRows_eq (b : Nat) : bandRows b = if b = 0 then 8 else if b = 1 then 16 else 32 := by
  unfold bandRows
  split
  · rfl
  · rfl
  next h0 h1 =>
    rw [if_neg h0, if_neg h1]

/-! ## Temperature samples of a stack (07 R209 to R211) -/

theorem foldl_max_fst (xs : List (Nat × Nat)) (b : Nat × Nat) :
    (xs.foldl (fun b x => if b.1 < x.1 then x else b) b).1 = (xs.map (·.1)).foldl max b.1 := by
  induction xs generalizing b with
  | nil => rfl
  | cons x xs ih =>
    rw [List.foldl_cons, ih, List.map_cons, List.foldl_cons]
    congr 1
    split <;> omega

/-- The hottest of some readings is their maximum. -/
theorem hottest_max (ts : List Nat) : (hottest ts).1 = ts.foldl max 0 := by
  have hmap : ((List.range ts.length).map (fun i => (ts.getD i 0, i))).map (·.1) = ts := by
    apply List.ext_getElem
    · simp
    · intro i h1 h2
      simp [List.getD_eq_getElem?_getD, h2]
  rw [hottest, foldl_max_fst, hmap]
  cases ts with
  | nil => rfl
  | cons t ts => simp

/-- What CS_TEMP shows. -/
def tempWord (t band : Nat) (bad : Bool) (at_ : Nat) : Nat := t + atBit 10 band + atBit 12 (if bad then 1 else 0) + atBit 13 at_

theorem tempWord_fields {t band : Nat} (ht : t < 1024) (hb : band < 4) (bad : Bool) (at_ : Nat) :
    let w : W64 := BitVec.ofNat 64 (tempWord t band bad at_)
    fld w fCsTemp_Temp = t ∧ fld w fCsTemp_Band = band ∧ fld w fCsTemp_SensorFail = (if bad then 1 else 0) := by
  simp only [fld, bitsOf, BitVec.toNat_ofNat, fCsTemp_Temp, fCsTemp_Band, fCsTemp_SensorFail, tempWord, atBit, Nat.shiftLeft_eq,
    Nat.shiftRight_eq_div_pow]
  cases bad <;> simp only [if_true, if_false, Bool.false_eq_true] <;> omega

/-- How many samples running lay low enough below the band. -/
def Dev.samplesBelow (d : Dev) (n t : Nat) : Nat :=
  if t + 12 ≤ bandStart (d.getF (rCsTemp n) fCsTemp_Band) then (d.stackSt n).below + 1 else 0

/-- The band after a sample: raised at once, lowered by one after ten samples below it. -/
def Dev.bandAfter (d : Dev) (n t : Nat) : Nat :=
  if d.getF (rCsTemp n) fCsTemp_Band < bandOf t then bandOf t
  else if 10 ≤ d.samplesBelow n t then d.getF (rCsTemp n) fCsTemp_Band - 1 else d.getF (rCsTemp n) fCsTemp_Band

/-- How many samples running lay at 115 °C or more. -/
def Dev.hotAfter (d : Dev) (n t : Nat) : Nat := if 460 ≤ t then (d.stackSt n).hot + 1 else 0

/-- The events that a sample raises. -/
def Dev.tempBits (d : Dev) (n t : Nat) (bad : Bool) : Nat :=
  (if d.getF (rCsTemp n) fCsTemp_Band < d.bandAfter n t then 1 else 0) + (if 420 ≤ t then 2 else 0)
    + (if bad ∧ !decide (d.getF (rCsTemp n) fCsTemp_SensorFail = 1) then 4 else 0)

/-- A stack's temperature registers once a sample was taken, before its events are raised. -/
def Dev.tempShown (d : Dev) (n t : Nat) (bad : Bool) (at_ : Nat) : Dev :=
  let below := if d.bandAfter n t ≠ d.getF (rCsTemp n) fCsTemp_Band then 0 else d.samplesBelow n t
  let d' := (d.modStack n (fun s => { s with below := below, hot := d.hotAfter n t })).setReg (rCsTemp n)
    (BitVec.ofNat 64 (t + atBit 10 (d.bandAfter n t) + atBit 12 (if bad then 1 else 0) + atBit 13 at_))
  d'.putF (rCsTempMax n) fCsTempMax_Max (max t (d'.getF (rCsTempMax n) fCsTempMax_Max))

/-- The device with a sample's events raised. -/
def Dev.tempRaised (d : Dev) (n t : Nat) (bad : Bool) (at_ : Nat) : Dev :=
  if d.tempBits n t bad = 0 then d.tempShown n t bad at_ else (d.tempShown n t bad at_).raise (pgCs0 n) (d.tempBits n t bad)

/-- A sample shows its temperature, raises its events, and trips at the tenth hot one running. -/
theorem Dev.stackTempSample_eq (d : Dev) (n : Nat) (rs : List Reading) :
    d.stackTempSample n rs =
      let t := min (hottest (rs.map stackReading)).1 1023
      let e := d.tempRaised n t (rs.any (fun r => r.bad)) (hottest (rs.map stackReading)).2
      if rs.isEmpty then d else if 10 ≤ d.hotAfter n t then e.thermalTrip 2 [100 + n, t] else e := rfl

theorem Dev.tempRaised_frame (d : Dev) (n t : Nat) (bad : Bool) (at_ : Nat) : d.onlyIn (d.tempRaised n t bad at_) [.cs, .regs, .hif] :=
  have h : d.onlyIn (d.tempShown n t bad at_) [.cs, .regs, .hif] := .putF (.setReg (.modStack (d.onlyIn_refl _)))
  .ite h (.raise h)

theorem Dev.tempShown_regsBut (d : Dev) (n t : Nat) (bad : Bool) (at_ : Nat) :
    d.regsBut (d.tempShown n t bad at_) [rCsTemp n, rCsTempMax n] :=
  Dev.regsBut_trans (e := (d.modStack n _).setReg (rCsTemp n) _) (Dev.regsBut_mono (Dev.regsBut_setReg _ _ _) (by simp))
    (Dev.regsBut_mono (Dev.regsBut_putF _ _ _ _) (by simp))

theorem Dev.tempRaised_regsBut (d : Dev) (n t : Nat) (bad : Bool) (at_ : Nat) :
    (d.tempShown n t bad at_).regsBut (d.tempRaised n t bad at_) (raiseRegs (pgCs0 n)) :=
  Dev.regsBut_ite (Dev.regsBut_refl _ _) (Dev.raise_regsBut _ _ _)

theorem rCsTemp_quiet (n : Nat) : (raiseRegs (pgCs0 n)).contains (rCsTemp n) = false ∧ (raiseRegs (pgCs0 n)).contains (rCsTempMax n) = false := by
  simp [rCsTemp, rCsTempMax, rBlkIntStat, pgCs0, rHifTxDrop, pgHif]
  omega

theorem rCsTemp_ne_max (n : Nat) : rCsTemp n ≠ rCsTempMax n := by
  simp only [rCsTemp, rCsTempMax]
  omega

theorem Dev.tempRaised_temp (d : Dev) (n t : Nat) (bad : Bool) (at_ : Nat) (f : Fld) :
    (d.tempRaised n t bad at_).getF (rCsTemp n) f = fld (BitVec.ofNat 64 (tempWord t (d.bandAfter n t) bad at_) : W64) f := by
  rw [Dev.getF_of_regsBut (d.tempRaised_regsBut n t bad at_) (rCsTemp_quiet n).1, Dev.tempShown,
    Dev.getF_putF_ne _ _ _ _ (rCsTemp_ne_max n), Dev.getF, Dev.reg_setReg_self]
  rfl

theorem Dev.tempRaised_max (d : Dev) (n : Nat) {t : Nat} (ht : t < 1024) (bad : Bool) (at_ : Nat) :
    (d.tempRaised n t bad at_).getF (rCsTempMax n) fCsTempMax_Max = max t (d.getF (rCsTempMax n) fCsTempMax_Max) := by
  have hmax : d.getF (rCsTempMax n) fCsTempMax_Max < 1024 := fld_lt _ _
  rw [Dev.getF_of_regsBut (d.tempRaised_regsBut n t bad at_) (rCsTemp_quiet n).2, Dev.tempShown, Dev.getF_putF_self _ _ _ _ (by decide),
    Dev.getF, Dev.reg_setReg_ne _ _ (rCsTemp_ne_max n).symm]
  exact Nat.mod_eq_of_lt (max_lt ht hmax)

theorem bandOf_lt (t : Nat) : bandOf t < 4 := by
  unfold bandOf
  split
  · decide
  · split <;> decide

theorem Dev.bandAfter_lt (d : Dev) (n t : Nat) : d.bandAfter n t < 4 := by
  have hold : d.getF (rCsTemp n) fCsTemp_Band < 4 := fld_lt _ _
  have hband := bandOf_lt t
  unfold Dev.bandAfter
  split
  · exact hband
  · split <;> omega

theorem Dev.bandAfter_up {d : Dev} {n t : Nat} (h : d.getF (rCsTemp n) fCsTemp_Band < bandOf t) : d.bandAfter n t = bandOf t := if_pos h

theorem Dev.bandAfter_down {d : Dev} {n t : Nat} (h : ¬ d.getF (rCsTemp n) fCsTemp_Band < bandOf t) :
    d.bandAfter n t = d.getF (rCsTemp n) fCsTemp_Band ∨ d.bandAfter n t = d.getF (rCsTemp n) fCsTemp_Band - 1 := by
  unfold Dev.bandAfter
  rw [if_neg h]
  split
  · exact .inr rfl
  · exact .inl rfl

/-- An event of a sample is raised. -/
theorem Dev.tempRaised_event {d : Dev} {n t i : Nat} {bad : Bool} (h : (d.tempBits n t bad).testBit i = true) (hi : i < 64) (at_ : Nat) :
    (d.tempRaised n t bad at_).event (pgCs0 n) i = true := by
  have hne : d.tempBits n t bad ≠ 0 := fun h0 => by simp [h0] at h
  rw [Dev.tempRaised, if_neg hne]
  refine Dev.raise_sets _ ?_ h hi
  simp only [rBlkIntStat, pgCs0, rHifTxDrop]
  omega

theorem Dev.tempBits_band {d : Dev} {n t : Nat} (h : d.getF (rCsTemp n) fCsTemp_Band < bandOf t) (bad : Bool) :
    (d.tempBits n t bad).testBit 0 = true := by
  rw [Dev.tempBits, Dev.bandAfter_up h, if_pos h]
  split <;> split <;> decide

theorem Dev.tempBits_crit (d : Dev) (n : Nat) {t : Nat} (h : 420 ≤ t) (bad : Bool) : (d.tempBits n t bad).testBit 1 = true := by
  rw [Dev.tempBits, if_pos h]
  split <;> split <;> decide

/-! ## The trip (13 R388) -/

/-- A trip that acts: the rails fall, and everything in the stacks and every command is lost. -/
theorem Dev.thermalTrip_trips {d : Dev} (h6 : d.pstate ≠ 6) (h7 : d.pstate ≠ 7) (cause : Nat) (hot : List Nat) :
    (d.thermalTrip cause hot).pstate = 6 ∧ (d.thermalTrip cause hot).hif.thermtripN = false ∧ (d.thermalTrip cause hot).stk = {}
      ∧ (d.thermalTrip cause hot).cq.cmds = [] := by
  have he : d.thermalTrip cause hot = ((d.dropRails.onHif (fun h => { h with thermtripN := false })).logNow 0x20 (cause :: hot ++ d.rates)).setPstate 6 :=
    (if_neg h6).trans (if_neg h7)
  obtain ⟨hstk, -, -, hcmds, -⟩ := d.dropRails_dark
  rw [he]
  generalize d.dropRails = x at hstk hcmds
  have hframe := (x.onHif (fun h => { h with thermtripN := false })).logNow_frame 0x20 (cause :: hot ++ d.rates)
  obtain ⟨vs, out, hh⟩ := (x.onHif (fun h => { h with thermtripN := false })).logNow_spoke 0x20 (cause :: hot ++ d.rates)
  generalize (x.onHif (fun h => { h with thermtripN := false })).logNow 0x20 (cause :: hot ++ d.rates) = y at hframe hh
  have hcq : y.cq = x.cq := hframe .cq rfl
  have hstk' : y.stk = x.stk := hframe .stk rfl
  refine ⟨Dev.getF_putF_self _ _ _ _ (by decide), ?_, hstk'.trans hstk, (congrArg Cq.cmds hcq).trans hcmds⟩
  exact congrArg Hif.thermtripN hh

theorem Dev.tempRaised_pstate (d : Dev) {n : Nat} (hn : n < 12) (t : Nat) (bad : Bool) (at_ : Nat) : (d.tempRaised n t bad at_).pstate = d.pstate := by
  have h1 : (raiseRegs (pgCs0 n)).contains rPwrState = false := by
    simp [rPwrState, rBlkIntStat, pgCs0, rHifTxDrop, pgHif]
    omega
  have h2 : [rCsTemp n, rCsTempMax n].contains rPwrState = false := by
    simp [rPwrState, rCsTemp, rCsTempMax]
    omega
  rw [Dev.pstate, Dev.getF_of_regsBut (d.tempRaised_regsBut n t bad at_) h1, Dev.getF_of_regsBut (d.tempShown_regsBut n t bad at_) h2, Dev.pstate]

/-! ## Granules of a stack (07 R203) -/

theorem physOf_parts {n p a : Nat} (hp : p < 32) (ha : a < 2415919104) :
    stackOf (physOf n p a) = n ∧ pcOf (physOf n p a) = p ∧ pcLocal (physOf n p a) = a := by
  have hb : stackBytes = 77309411328 := rfl
  have hlow : a / 0x1_0000 * 2 ^ 21 + p * 0x1_0000 + a % 0x1_0000 < 77309411328 := by omega
  have hphys : physOf n p a = n * 77309411328 + (a / 65536 * 2097152 + p * 65536 + a % 65536) := by
    rw [physOf, hb]
    omega
  have hmod : physOf n p a % 77309411328 = a / 65536 * 2097152 + p * 65536 + a % 65536 := by
    rw [hphys]
    omega
  refine ⟨?_, ?_, ?_⟩
  · rw [stackOf, hb, hphys]
    omega
  · rw [pcOf, hb, hmod]
    omega
  · rw [pcLocal, hb, hmod]
    omega

/-- A granule is one of those whose validity its bitmap word holds. -/
theorem mem_bitmapGrans {n p i : Nat} (hp : p < 32) (hi : 64 * i < 2415919104) : physOf n p (64 * i) ∈ bitmapGrans (physOf n p (64 * i)) := by
  obtain ⟨hs, hc, hl⟩ := physOf_parts (n := n) hp hi
  have hat : pcLocal (physOf n p (64 * i)) / 4096 * 4096 + 64 * (i % 64) = 64 * i := by
    rw [hl]
    omega
  generalize hg : physOf n p (64 * i) = g at hs hc hat ⊢
  rw [bitmapGrans]
  exact List.mem_map.mpr ⟨i % 64, List.mem_range.mpr (Nat.mod_lt _ (by decide)), by rw [hs, hc, hat, hg]⟩

/-! ## Reads by the scrubber (07 R205, 12 R345) -/

/-- The registers of a stack's error log. -/
def errLogRegs (n : Nat) : List Nat :=
  rCsErrOvf n :: (List.range 32).flatMap (fun i => [rCsErrLogA n i, rCsErrLogB n i, rCsErrLogTime n i]) ++ raiseRegs (pgCs1 n)

theorem mem_errLogRegs {n i : Nat} (hi : i < 32) :
    rCsErrLogA n i ∈ errLogRegs n ∧ rCsErrLogB n i ∈ errLogRegs n ∧ rCsErrLogTime n i ∈ errLogRegs n := by
  have h : ∀ a, a ∈ [rCsErrLogA n i, rCsErrLogB n i, rCsErrLogTime n i] → a ∈ errLogRegs n := fun a ha =>
    List.mem_append_left _ (List.mem_cons_of_mem _ (List.mem_flatMap.mpr ⟨i, List.mem_range.mpr hi, ha⟩))
  exact ⟨h _ (by simp), h _ (by simp), h _ (by simp)⟩

theorem raiseRegs_errLog (n : Nat) : raiseRegs (pgCs1 n) ⊆ errLogRegs n := List.subset_append_right _ _

theorem Dev.checkThresh_regsBut (d : Dev) (n i : Nat) : d.regsBut (d.checkThresh n i) (errLogRegs n) :=
  Dev.regsBut_ite (Dev.regsBut_mono (Dev.raise_regsBut (d.modStack n (fun s => { s with threshSeen := i :: s.threshSeen })) _ _)
    (raiseRegs_errLog n)) (d.regsBut_refl _)

theorem Dev.regsBut_setReg_mem {d e : Dev} {rs : List Nat} (h : d.regsBut e rs) {a : Nat} (ha : a ∈ rs) (v : W64) : d.regsBut (e.setReg a v) rs :=
  Dev.regsBut_trans h (Dev.regsBut_mono (e.regsBut_setReg a v) (by simpa using ha))

theorem Dev.logAgain_regsBut (d : Dev) (a syms src : Nat) {i : Nat} (hi : i < 32) :
    d.regsBut (d.logAgain a syms src i) (errLogRegs (stackOf a)) := by
  obtain ⟨-, hb, ht⟩ := mem_errLogRegs (n := stackOf a) hi
  exact Dev.regsBut_trans (Dev.regsBut_setReg_mem (Dev.regsBut_setReg_mem (d.regsBut_refl _) hb _) ht _) (Dev.checkThresh_regsBut _ _ _)

theorem Dev.logNew_regsBut (d : Dev) (a kind syms src : Nat) {i : Nat} (hi : i < 32) :
    d.regsBut (d.logNew a kind syms src i) (errLogRegs (stackOf a)) := by
  obtain ⟨ha, hb, ht⟩ := mem_errLogRegs (n := stackOf a) hi
  let e := ((d.setReg (rCsErrLogA (stackOf a) i) (BitVec.ofNat 64 (1 + atBit 1 kind + atBit 3 (pcOf a) + atBit 8 (bankOf a)
    + atBit 14 (rowOf a)))).setReg (rCsErrLogB (stackOf a) i) (BitVec.ofNat 64 (granInRow a + atBit 4 syms + atBit 8 src + atBit 16 1))).setReg
    (rCsErrLogTime (stackOf a) i) (BitVec.ofNat 64 d.time)
  have he : d.regsBut e (errLogRegs (stackOf a)) :=
    Dev.regsBut_setReg_mem (Dev.regsBut_setReg_mem (Dev.regsBut_setReg_mem (d.regsBut_refl _) ha _) hb _) ht _
  exact Dev.regsBut_trans he
    (Dev.checkThresh_regsBut (e.modStack (stackOf a) (fun s => { s with threshSeen := s.threshSeen.filter (· != i) })) _ _)

/-- The error log's free or least entry is one of its 32. -/
theorem Dev.logSlot_lt {d : Dev} {n : Nat} {un : Bool} {i : Nat} (h : d.logSlot n un = some i) : i < 32 := by
  unfold Dev.logSlot at h
  split at h
  next j hj =>
    obtain rfl := Option.some.inj h
    exact List.mem_range.mp (List.mem_of_find?_eq_some hj)
  next =>
    split at h
    · exact List.mem_range.mp (List.mem_of_mem_filter (leastBy_mem h))
    · exact absurd h nofun

theorem Dev.logEnter_regsBut (d : Dev) (a kind syms src : Nat) : d.regsBut (d.logEnter a kind syms src) (errLogRegs (stackOf a)) := by
  unfold Dev.logEnter
  dsimp only
  split
  next i hi => exact d.logAgain_regsBut a syms src (List.mem_range.mp (List.mem_of_find?_eq_some hi))
  next =>
    split
    next i hi => exact d.logNew_regsBut a kind syms src (Dev.logSlot_lt hi)
    next =>
      exact Dev.regsBut_trans (Dev.regsBut_mono (d.regsBut_putF _ _ _) (by simp [errLogRegs]))
        (Dev.regsBut_mono (Dev.raise_regsBut _ _ _) (raiseRegs_errLog _))

theorem Dev.countErr_regsBut (d : Dev) (n : Nat) (un : Bool) : d.regsBut (d.countErr n un) (rCsErrTotal n :: raiseRegs (pgCs1 n)) := by
  unfold Dev.countErr
  refine Dev.regsBut_ite ?_ ?_
  · exact Dev.regsBut_trans (Dev.regsBut_mono (d.regsBut_putF _ _ _) (by simp)) (Dev.regsBut_mono (Dev.raise_regsBut _ _ _) (by simp))
  · exact Dev.regsBut_mono (d.regsBut_putF _ _ _) (by simp)

/-- What an error logged may change besides the counts of its stack. -/
def logErrRegs (n : Nat) : List Nat := errLogRegs n ++ logRegs

theorem Dev.logErr_after (d : Dev) (a kind syms src : Nat) :
    (d.countErr (stackOf a) (kind % 2 == 1)).regsBut (d.logErr a kind syms src) (logErrRegs (stackOf a)) := by
  have h := Dev.regsBut_mono ((d.countErr (stackOf a) (kind % 2 == 1)).logEnter_regsBut a kind syms src) (List.subset_append_left _ logRegs)
  refine Dev.regsBut_ite (Dev.regsBut_trans h ?_) h
  exact Dev.regsBut_mono (Dev.log_regsBut _ _ _) (List.subset_append_right _ _)

/-- The counts of a stack's errors and of its scrubber. -/
def countReg (n a : Nat) : Prop := a = rCsErrTotal n ∨ a = rCsScrubFix n

theorem countReg_quiet {n a : Nat} (h : countReg n a) :
    (logErrRegs n).contains a = false ∧ (raiseRegs (pgCs1 n)).contains a = false ∧ (raiseRegs (pgCs0 n)).contains a = false
      ∧ (lapRegs n).contains a = false ∧ a ≠ rCsPoison n := by
  have ha : a = 0x401040 + 0x10000 * n ∨ a = 0x40105c + 0x10000 * n := by
    rcases h with rfl | rfl
    · left
      simp only [rCsErrTotal]
      omega
    · right
      simp only [rCsScrubFix]
      omega
  have hlog : a ∉ (List.range 32).flatMap (fun i => [rCsErrLogA n i, rCsErrLogB n i, rCsErrLogTime n i]) := by
    intro hm
    obtain ⟨i, hi, hm⟩ := List.mem_flatMap.mp hm
    simp only [rCsErrLogA, rCsErrLogB, rCsErrLogTime, List.mem_cons, List.not_mem_nil, or_false] at hm
    omega
  have hraise : ∀ page, page = pgCs1 n ∨ page = pgCs0 n → a ∉ raiseRegs page := by
    intro page hp
    simp only [raiseRegs, rBlkIntStat, pgCs0, pgCs1, rHifTxDrop, pgHif, List.mem_cons, List.not_mem_nil, or_false] at hp ⊢
    omega
  have hovf : a ≠ rCsErrOvf n ∧ a ∉ logRegs ∧ a ≠ rCsPoison n := by
    simp only [logRegs, rCsErrOvf, rCsPoison, rMgmtLogLost, rBlkIntStat, pgMgmt, rHifTxDrop, pgHif, List.mem_cons, List.not_mem_nil, or_false]
    omega
  obtain ⟨h1, h2, h3⟩ := hovf
  have hin : a ∉ logErrRegs n := by
    rw [logErrRegs, errLogRegs, List.mem_append, List.mem_append, List.mem_cons]
    rintro (((h | h) | h) | h)
    · exact h1 h
    · exact hlog h
    · exact hraise _ (.inl rfl) h
    · exact h2 h
  simp only [List.contains_eq_mem, decide_eq_false_iff_not]
  exact ⟨hin, hraise _ (.inl rfl), hraise _ (.inr rfl), hraise _ (.inl rfl), h3⟩

theorem Dev.checkBitmap_clean {d : Dev} (h : d.upsets = []) (g src : Nat) : d.checkBitmap g src = d := by
  simp only [Dev.checkBitmap, Dev.findUpset, h, List.find?_nil]

theorem Dev.transfer_clean {d : Dev} (h : d.upsets = []) (n : Nat) : d.transfer n = (d, true) := by
  simp only [Dev.transfer, h, List.find?_nil]

/-- A granule in service that is valid and whose bitmap word and interface are sound. -/
def Dev.soundGran (d : Dev) (g : Nat) : Prop := d.upsets = [] ∧ d.deadGran g = false ∧ (d.stk.flag g).valid = true

/-- A granule of three or four bad symbols becomes poison. -/
theorem Dev.readGran_bad {d : Dev} {g : Nat} (h : d.soundGran g) (h3 : 3 ≤ (d.stk.flag g).bad) (h4 : (d.stk.flag g).bad ≤ 4) (src : Nat) :
    d.readGran src g = (d.poisonGran g src, (zeros 64, 2)) := by
  obtain ⟨hu, hl, hv⟩ := h
  simp only [Dev.readGran, hl, Dev.transfer_clean hu, Dev.checkBitmap_clean hu, hv, Bool.false_eq_true, if_false, Bool.not_true]
  rw [if_neg (by omega), if_neg (by omega), if_neg (by omega), if_pos h4]

/-- A granule of one or two bad symbols is corrected as it is read, and logged. -/
theorem Dev.readGran_fix {d : Dev} {g : Nat} (h : d.soundGran g) (hp : (d.stk.flag g).poison = false) (h1 : 1 ≤ (d.stk.flag g).bad)
    (h2 : (d.stk.flag g).bad ≤ 2) (src : Nat) :
    d.readGran src g = (d.logErr g 0 (d.stk.flag g).bad src, (d.stk.bytes g 64, 0)) := by
  obtain ⟨hu, hl, hv⟩ := h
  simp only [Dev.readGran, hl, Dev.transfer_clean hu, Dev.checkBitmap_clean hu, hv, hp, Bool.false_eq_true, if_false, Bool.not_true, false_and,
    Bool.not_false, true_and]
  rw [if_neg (by omega), if_pos h2]

/-- A granule without a bad symbol is read as it stands, and counted where it is poison. -/
theorem Dev.readGran_good {d : Dev} {g : Nat} (h : d.soundGran g) (h0 : (d.stk.flag g).bad = 0) (src : Nat) :
    (d.readGran src g).1.stk = d.stk ∧ (d.readGran src g).2.2 ≤ 1 := by
  obtain ⟨hu, hl, hv⟩ := h
  simp only [Dev.readGran, hl, Dev.transfer_clean hu, Dev.checkBitmap_clean hu, hv, h0, Bool.false_eq_true, if_false, Bool.not_true]
  split
  · exact ⟨rfl, Nat.le_refl 1⟩
  · exact ⟨rfl, Nat.zero_le 1⟩

/-- Reading a sound granule stays within its stack, its registers and the log, and meets no failure of the interface. -/
theorem Dev.readGran_sound {d : Dev} {g : Nat} (h : d.soundGran g) (src : Nat) :
    d.onlyIn (d.readGran src g).1 [.stk, .regs, .cs, .gan, .hif] ∧ (d.readGran src g).2.2 ≠ 3 := by
  obtain ⟨hu, hl, hv⟩ := h
  have hlog : ∀ kind syms, d.onlyIn (d.logErr g kind syms src) [.stk, .regs, .cs, .gan, .hif] := fun _ _ => .logErr (d.onlyIn_refl _)
  have hpoison : d.onlyIn (d.poisonGran g src) [.stk, .regs, .cs, .gan, .hif] := .poisonGran (d.onlyIn_refl _)
  have h0 : (0 : Nat) ≠ 3 := by decide
  have h1 : (1 : Nat) ≠ 3 := by decide
  have h2 : (2 : Nat) ≠ 3 := by decide
  simp only [Dev.readGran, hl, Dev.transfer_clean hu, Dev.checkBitmap_clean hu, hv, Bool.false_eq_true, if_false, Bool.not_true]
  generalize d.poisonGran g src = e at hpoison
  split
  · exact ⟨.addF (d.onlyIn_refl _), h1⟩
  · split
    · exact ⟨d.onlyIn_refl _, h0⟩
    · split
      · exact ⟨hlog _ _, h0⟩
      · split
        · exact ⟨hpoison, h2⟩
        · split
          · exact ⟨hpoison, h2⟩
          · exact ⟨d.onlyIn_refl _, h0⟩
          · exact ⟨d.onlyIn_refl _, h0⟩

/-! ## What the scrubber makes of a granule (12 R345) -/

theorem Dev.scrubGranule_eq {d : Dev} {g : Nat} (h : d.soundGran g) :
    d.scrubGranule g =
      let r := d.readGran 6 g
      let f := d.stk.flag g
      if r.2.2 = 2 then r.1.addF (rCsScrubFix (stackOf g)) fCsScrubFix_Poisoned 1
      else if r.2.2 = 0 ∧ 1 ≤ f.bad ∧ f.bad ≤ 2 then
        ({ r.1 with stk := r.1.stk.setFlag g { f with bad := 0 } }).addF (rCsScrubFix (stackOf g)) fCsScrubFix_Corrected 1
      else r.1 := by
  have hs := h
  obtain ⟨-, hl, hv⟩ := h
  unfold Dev.scrubGranule
  rw [if_neg (by simp [hl, hv])]
  exact if_neg (Dev.readGran_sound hs 6).2

theorem Dev.scrubGranule_sound {d : Dev} {g : Nat} (h : d.soundGran g) : d.onlyIn (d.scrubGranule g) [.stk, .regs, .cs, .gan, .hif] := by
  have hread := (Dev.readGran_sound h 6).1
  rw [Dev.scrubGranule_eq h]
  exact .ite (.addF hread) (.ite (.addF (.set_stk hread)) hread)

theorem Memory.flag_setFlag_self (m : Memory) (g : Nat) (f : GranFlag) : (m.setFlag g f).flag g = f := by
  by_cases h : f = {}
  · rw [Memory.flag, Memory.setFlag, if_pos h, tget_tdel, if_pos rfl, h]
  · rw [Memory.flag, Memory.setFlag, if_neg h, tget_tset_self]

/-- A count that a step adds, and that what follows leaves. -/
theorem Dev.counted_after {d k e : Dev} {a : Nat} {f : Fld} {n : Nat} (h : d.counted k a f n) (hr : e.reg a = k.reg a) : d.counted e a f n := by
  rw [Dev.counted, Dev.getF, hr]
  exact h

theorem Dev.counted_before {d k e : Dev} {a : Nat} {f : Fld} {n : Nat} (hr : k.reg a = d.reg a) (h : k.counted e a f n) : d.counted e a f n := by
  rw [Dev.counted, show k.getF a f = d.getF a f from congrArg (fld · f) hr] at h
  exact h

theorem rCsErrTotal_ne_fix (n : Nat) : rCsErrTotal n ≠ rCsScrubFix n := by
  simp only [rCsErrTotal, rCsScrubFix]
  omega

/-- An error logged is counted, and leaves the scrubber's count. -/
theorem Dev.logErr_counts (d : Dev) (g kind syms src : Nat) :
    d.counted (d.logErr g kind syms src) (rCsErrTotal (stackOf g)) (if kind % 2 = 1 then fCsErrTotal_Ue else fCsErrTotal_Ce) 1
      ∧ (d.logErr g kind syms src).reg (rCsScrubFix (stackOf g)) = d.reg (rCsScrubFix (stackOf g)) := by
  have hafter := d.logErr_after g kind syms src
  obtain ⟨hq, hr, -⟩ := countReg_quiet (n := stackOf g) (.inl rfl)
  obtain ⟨hq', hr', -⟩ := countReg_quiet (n := stackOf g) (.inr rfl)
  refine ⟨Dev.counted_after ?_ (hafter _ hq), (hafter _ hq').trans ?_⟩
  · unfold Dev.countErr
    by_cases hk : kind % 2 = 1
    · rw [if_pos (by simp [hk]), if_pos hk]
      exact Dev.counted_after (d.addF_counted _ _ _ (by decide)) (Dev.raise_regsBut _ _ _ _ hr)
    · rw [if_neg (by simp [hk]), if_neg hk]
      exact d.addF_counted _ _ _ (by decide)
  · refine Dev.countErr_regsBut d _ _ _ ?_
    have hne : rCsScrubFix (stackOf g) ∉ raiseRegs (pgCs1 (stackOf g)) := by simpa using hr'
    simp only [List.contains_eq_mem, decide_eq_false_iff_not, List.mem_cons, not_or]
    exact ⟨(rCsErrTotal_ne_fix _).symm, by simpa using hne⟩

/-- What the scrubber counts of a granule of stack n: one more in its own count, and one more error. -/
def Dev.scrubCounts (d e : Dev) (n : Nat) (fix err : Fld) : Prop :=
  d.counted e (rCsScrubFix n) fix 1 ∧ d.counted e (rCsErrTotal n) err 1

theorem Dev.scrubCounts_add {d k : Dev} {n : Nat} {fix err : Fld} (hf : fix.lo + fix.len ≤ 64) (hr : k.reg (rCsScrubFix n) = d.reg (rCsScrubFix n))
    (he : d.counted k (rCsErrTotal n) err 1) : d.scrubCounts (k.addF (rCsScrubFix n) fix 1) n fix err :=
  ⟨Dev.counted_before hr (k.addF_counted _ _ _ hf), Dev.counted_after he (Dev.reg_putF_ne _ _ _ (rCsErrTotal_ne_fix n))⟩

/-- A granule of one or two bad symbols is repaired. -/
theorem Dev.scrubGranule_fix {d : Dev} {g : Nat} (h : d.soundGran g) (hp : (d.stk.flag g).poison = false) (h1 : 1 ≤ (d.stk.flag g).bad)
    (h2 : (d.stk.flag g).bad ≤ 2) :
    (d.scrubGranule g).stk = d.stk.setFlag g { d.stk.flag g with bad := 0 }
      ∧ d.scrubCounts (d.scrubGranule g) (stackOf g) fCsScrubFix_Corrected fCsErrTotal_Ce := by
  have hstk : (d.logErr g 0 (d.stk.flag g).bad 6).stk = d.stk := d.logErr_frame g 0 _ 6 .stk rfl
  obtain ⟨herr, hfix⟩ := d.logErr_counts g 0 (d.stk.flag g).bad 6
  rw [Dev.scrubGranule_eq h, Dev.readGran_fix h hp h1 h2]
  dsimp only
  rw [if_neg (by decide), if_pos ⟨rfl, h1, h2⟩]
  refine ⟨?_, ?_⟩
  · show (d.logErr g 0 (d.stk.flag g).bad 6).stk.setFlag g _ = _
    rw [hstk]
  · exact Dev.scrubCounts_add (by decide) hfix herr

/-- A granule poisoned, before its events: its bytes are gone. -/
def Dev.poisoned (d : Dev) (g : Nat) : Dev :=
  { d with stk := (d.stk.clear g (g + 64)).setFlag g { valid := true, poison := true } }.addF (rCsPoison (stackOf g)) fCsPoison_Written 1

/-- A granule poisoned, before the error is logged. -/
def Dev.poisonShown (d : Dev) (g : Nat) : Dev := (d.poisoned g).raise (pgCs0 (stackOf g)) 8

theorem Dev.poisonGran_eq (d : Dev) (g src : Nat) : d.poisonGran g src = (d.poisonShown g).logErr g 1 0xF src := rfl

theorem Dev.poisonShown_stk (d : Dev) (g : Nat) :
    (d.poisonShown g).stk = (d.stk.clear g (g + 64)).setFlag g { valid := true, poison := true } := by
  have h : (d.poisonShown g).stk = (d.poisoned g).stk := (d.poisoned g).raise_frame (pgCs0 (stackOf g)) 8 .stk rfl
  exact h

theorem Dev.poisonShown_reg (d : Dev) {g a : Nat} (ha : countReg (stackOf g) a) : (d.poisonShown g).reg a = d.reg a := by
  obtain ⟨-, -, hr, -, hne⟩ := countReg_quiet ha
  have h : (d.poisoned g).reg a = d.reg a := Dev.reg_putF_ne { d with stk := _ } _ _ hne
  exact ((d.poisoned g).raise_regsBut (pgCs0 (stackOf g)) 8 a hr).trans h

theorem Dev.scrubGranule_bad {d : Dev} {g : Nat} (h : d.soundGran g) (h3 : 3 ≤ (d.stk.flag g).bad) (h4 : (d.stk.flag g).bad ≤ 4) :
    (d.scrubGranule g).stk = (d.stk.clear g (g + 64)).setFlag g { valid := true, poison := true }
      ∧ d.scrubCounts (d.scrubGranule g) (stackOf g) fCsScrubFix_Poisoned fCsErrTotal_Ue := by
  have hkstk := d.poisonShown_stk g
  have htotal : (d.poisonShown g).reg (rCsErrTotal (stackOf g)) = d.reg (rCsErrTotal (stackOf g)) := d.poisonShown_reg (.inl rfl)
  have hshown : (d.poisonShown g).reg (rCsScrubFix (stackOf g)) = d.reg (rCsScrubFix (stackOf g)) := d.poisonShown_reg (.inr rfl)
  rw [Dev.scrubGranule_eq h, Dev.readGran_bad h h3 h4, Dev.poisonGran_eq]
  dsimp only
  generalize d.poisonShown g = k at hkstk htotal hshown
  obtain ⟨herr, hfix⟩ := k.logErr_counts g 1 0xF 6
  have hstk : (k.logErr g 1 0xF 6).stk = k.stk := k.logErr_frame g 1 0xF 6 .stk rfl
  rw [if_pos rfl]
  exact ⟨hstk.trans hkstk, Dev.scrubCounts_add (by decide) (hfix.trans hshown) (Dev.counted_before htotal herr)⟩

theorem Dev.scrubGranule_good {d : Dev} {g : Nat} (h : d.soundGran g) (h0 : (d.stk.flag g).bad = 0) : (d.scrubGranule g).stk = d.stk := by
  obtain ⟨hstk, hst⟩ := Dev.readGran_good h h0 6
  rw [Dev.scrubGranule_eq h]
  dsimp only
  rw [if_neg (by omega), if_neg (by omega)]
  exact hstk

/-- The scrubber of a channel runs: its stack serves, it is on, and nothing else uses the channel. -/
def Dev.scrubs (d : Dev) (n p : Nat) : Prop :=
  d.getF (rCsState n) fCsState_Ready = 1 ∧ d.getF (rCsScrubCtrl n) fCsScrubCtrl_En = 1
    ∧ (∀ o ∈ d.henOps, o.hens.contains (32 * n + p) = false) ∧ d.queued n p = []

theorem Dev.scrubStep_idle {d : Dev} {n p : Nat} (h : ¬ d.scrubs n p) : d.scrubStep n p = d.checkLap n := by
  have hr : d.getF (rCsState n) fCsState_Ready < 2 := fld_lt _ _
  have he : d.getF (rCsScrubCtrl n) fCsScrubCtrl_En < 2 := fld_lt _ _
  refine if_pos ?_
  by_contra hc
  push Not at hc
  obtain ⟨h1, h2, h3, h4⟩ := hc
  refine h ⟨by omega, by omega, ?_, by simpa using h4⟩
  simpa using h3

/-- The device with the scrubber of channel p at its next granule. -/
def Dev.scrubMoved (d : Dev) (n p i : Nat) : Dev := d.modStack n (fun s => { s with scrubAt := tset s.scrubAt p i })

/-- A step of a scrubber over a granule that is valid: it takes the granule and goes on to the next. -/
theorem Dev.scrubStep_runs {d : Dev} {n p : Nat} (hp : p < 32) (h : d.scrubs n p) (hi : tget (d.stackSt n).scrubAt 0 p + 64 < pcGranules)
    (hs : d.soundGran (physOf n p (64 * tget (d.stackSt n).scrubAt 0 p))) :
    d.scrubStep n p = ((d.scrubGranule (physOf n p (64 * tget (d.stackSt n).scrubAt 0 p))).scrubMoved n p
      (tget (d.stackSt n).scrubAt 0 p + 1)).checkLap n := by
  obtain ⟨hready, hen, hhens, hqueue⟩ := h
  obtain ⟨hu, -, hv⟩ := hs
  have hpc : pcGranules = 37748736 := rfl
  generalize hat : tget (d.stackSt n).scrubAt 0 p = i at hi hv
  have hmem : physOf n p (64 * i) ∈ bitmapGrans (physOf n p (64 * i)) := mem_bitmapGrans hp (by omega)
  have hskip : (bitmapGrans (physOf n p (64 * i))).all (fun h => !(d.stk.flag h).valid) = false := by
    rw [List.all_eq_false]
    exact ⟨_, hmem, by simp [hv]⟩
  have hnot : ¬ (d.getF (rCsState n) fCsState_Ready = 0 ∨ d.getF (rCsScrubCtrl n) fCsScrubCtrl_En = 0
      ∨ d.henOps.any (fun o => o.hens.contains (32 * n + p)) ∨ !(d.queued n p).isEmpty) := by
    simp [hready, hen, hqueue]
    simpa using hhens
  unfold Dev.scrubStep
  rw [if_neg hnot, hat]
  dsimp only
  rw [Dev.checkBitmap_clean hu, hskip]
  generalize physOf n p (64 * i) = g
  simp only [Bool.false_eq_true, and_false, if_false]
  generalize d.scrubGranule g = e
  have hlt : i + 1 < pcGranules := by omega
  rw [if_pos hlt, if_pos hlt]
  rfl

theorem Dev.stackSt_scrubMoved (d : Dev) (n p i : Nat) : tget ((d.scrubMoved n p i).stackSt n).scrubAt 0 p = i := by
  rw [Dev.scrubMoved, Dev.stackSt_modStack]
  exact tget_tset_self _ _ _ _

/-- What a step of the scrubber leaves after the granule: memory stands, and so do the counts. -/
theorem Dev.scrubMoved_after (k : Dev) (n p i : Nat) :
    let e := (k.scrubMoved n p i).checkLap n
    e.stk = k.stk ∧ tget (e.stackSt n).scrubAt 0 p = i ∧ k.onlyIn e [.regs, .cs, .hif] ∧ ∀ a, countReg n a → e.reg a = k.reg a := by
  have hlap := (k.scrubMoved n p i).checkLap_frame n
  refine ⟨(hlap .stk rfl).trans rfl, ?_, .checkLap (.modStack (k.onlyIn_refl _)), fun a ha => ?_⟩
  · rw [((k.scrubMoved n p i).checkLap_stackSt n).2]
    exact k.stackSt_scrubMoved n p i
  · obtain ⟨-, -, -, hq, -⟩ := countReg_quiet ha
    exact (k.scrubMoved n p i).checkLap_regsBut n a hq

theorem Dev.scrubCounts_after {d k e : Dev} {n : Nat} {fix err : Fld} (h : d.scrubCounts k n fix err) (hr : ∀ a, countReg n a → e.reg a = k.reg a) :
    d.scrubCounts e n fix err :=
  ⟨Dev.counted_after h.1 (hr _ (.inr rfl)), Dev.counted_after h.2 (hr _ (.inl rfl))⟩

/-! ## The bitmap clear (07 R207) -/

theorem tget_eq_getD {α : Type} (t : Tab α) (d : α) (k : Nat) : tget t d k = (tfind t k).getD d := by
  induction t with
  | nil => rfl
  | cons x t ih =>
    obtain ⟨j, v⟩ := x
    rw [tget, tfind_cons]
    split <;> simp_all

theorem Memory.flag_clear_in (m : Memory) {lo hi a : Nat} (h : lo ≤ a ∧ a < hi) : (m.clear lo hi).flag a = {} := by
  have hf : tfind (m.clear lo hi).flags a = none :=
    (tfind_filter m.flags (fun k => !(decide (lo ≤ k) && decide (k < hi))) a).trans (if_neg (by simp [h]))
  rw [Memory.flag, tget_eq_getD, hf]
  rfl

/-- A stack's bitmap cleared: the stack before it is READY. -/
def Dev.bitmapCleared (d : Dev) (n : Nat) : Dev :=
  ({ d with stk := d.stk.clear (n * stackBytes) ((n + 1) * stackBytes) }.dropUnit .bitmapWord n).modStack n (fun s => { s with
    unclear := false, scrubAt := [], lapDone := [], lapStart := d.time, lapLate := false })

theorem Dev.bitmapClearDone_clears {d : Dev} {n : Nat} (h : d.getF (rCsState n) fCsState_VbmClear = 1) :
    d.bitmapClearDone n = (d.bitmapCleared n).stackReady n := if_neg (by omega)

/-- Settles O40: refresh by the band, a sample by what it shows and whether it trips, a step of the scrubber by the granule's symbols, and
the ends of the bitmap clear and of a stack's own retraining by the rule of a stack that becomes READY. -/
theorem stacksAreKeptUp : Obligations.StacksAreKeptUp := by
  unfold Obligations.StacksAreKeptUp
  refine ⟨fun s n p => ⟨fun h => State.onDev_next (if_pos h), fun h => ?_⟩, fun s n rs hrs => ⟨fun ht => ?_, fun ht hhot h6 h7 => ?_⟩,
    fun s n p => ⟨fun h => ?_, fun h hi hu hl hv => ?_⟩, fun s n => ⟨fun h => State.onDev_next (if_pos h), fun h => ?_⟩,
    fun s n => ⟨fun h => ?_, fun h => ?_⟩⟩
  · let k : Dev := s.dev.modStack n (fun x => { x with
      refreshRow := tset x.refreshRow p ((tget x.refreshRow 0 p + bandRows (s.dev.getF (rCsTemp n) fCsTemp_Band)) % rowsPerBank) })
    have hk : k.stackSt n = { s.dev.stackSt n with
        refreshRow := tset (s.dev.stackSt n).refreshRow p ((tget (s.dev.stackSt n).refreshRow 0 p
          + bandRows (s.dev.getF (rCsTemp n) fCsTemp_Band)) % rowsPerBank) } := Dev.stackSt_modStack _ _ _
    refine ⟨k.checkLap n, State.onDev_next (if_neg h), ?_, fun q hq => ?_, k.checkLap_regsBut n, .checkLap (.modStack (s.dev.onlyIn_refl _))⟩
    · rw [(k.checkLap_stackSt n).1, hk, tget_tset_self]
      rfl
    · rw [(k.checkLap_stackSt n).1, hk, tget_tset_ne _ _ _ hq]
  · have he : rs.isEmpty = false := by simpa using hrs
    have htemp : min (hottest (rs.map stackReading)).1 1023 = min 1023 ((rs.map (fun r => if r.bad then 440 else r.temp.toNat)).foldl max 0) := by
      rw [hottest_max, min_comm]
      rfl
    generalize hT : min 1023 ((rs.map (fun r => if r.bad then 440 else r.temp.toNat)).foldl max 0) = t at ht htemp ⊢
    have hlt : t < 1024 := by omega
    obtain ⟨f1, f2, f3⟩ := tempWord_fields hlt (s.dev.bandAfter_lt n t) (rs.any (fun r => r.bad)) (hottest (rs.map stackReading)).2
    refine ⟨s.dev.tempRaised n t (rs.any (fun r => r.bad)) (hottest (rs.map stackReading)).2, State.onDev_next ?_, ?_, ?_, s.dev.tempRaised_max n hlt _ _,
      fun hb => ?_, fun hb => ?_, fun hc => Dev.tempRaised_event (s.dev.tempBits_crit n hc _) (by decide) _, s.dev.tempRaised_frame n t _ _⟩
    · rw [Dev.stackTempSample_eq, htemp, he]
      have hcool : ¬ 10 ≤ s.dev.hotAfter n t := by
        rw [Dev.hotAfter, if_neg (by omega)]
        decide
      exact if_neg hcool
    · rw [Dev.tempRaised_temp, f1]
    · rw [Dev.tempRaised_temp, f3]
    · refine ⟨?_, Dev.tempRaised_event (Dev.tempBits_band hb _) (by decide) _⟩
      rw [Dev.tempRaised_temp, f2, Dev.bandAfter_up hb]
      rfl
    · rw [Dev.tempRaised_temp, f2]
      exact Dev.bandAfter_down hb
  · have he : rs.isEmpty = false := by simpa using hrs
    have htemp : min (hottest (rs.map stackReading)).1 1023 = min 1023 ((rs.map (fun r => if r.bad then 440 else r.temp.toNat)).foldl max 0) := by
      rw [hottest_max, min_comm]
      rfl
    generalize hT : min 1023 ((rs.map (fun r => if r.bad then 440 else r.temp.toNat)).foldl max 0) = t at ht htemp
    have hk := s.dev.tempRaised_pstate n.isLt t (rs.any (fun r => r.bad)) (hottest (rs.map stackReading)).2
    refine ⟨_, State.onDev_next ?_, Dev.thermalTrip_trips (d := s.dev.tempRaised n t (rs.any (fun r => r.bad)) (hottest (rs.map stackReading)).2)
      (by rw [hk]; exact h6) (by rw [hk]; exact h7) 2 [100 + n, t]⟩
    rw [Dev.stackTempSample_eq, htemp, he]
    have hten : 10 ≤ s.dev.hotAfter n t := by
      rw [Dev.hotAfter, if_pos ht, hhot]
    exact if_pos hten
  · exact ⟨_, State.onDev_next (Dev.scrubStep_idle h), s.dev.checkLap_frame n .stk rfl, (s.dev.checkLap_stackSt n).2⟩
  · have hs : s.dev.soundGran (physOf n p (64 * tget (s.dev.stackSt n).scrubAt 0 p)) := ⟨hu, hl, hv⟩
    have hpc : pcGranules = 37748736 := rfl
    have hstack : stackOf (physOf n p (64 * tget (s.dev.stackSt n).scrubAt 0 p)) = n := (physOf_parts p.isLt (by omega)).1
    refine ⟨_, State.onDev_next (Dev.scrubStep_runs p.isLt h hi hs), ?_⟩
    have hframe := Dev.scrubGranule_sound hs
    have hfix := Dev.scrubGranule_fix hs
    have hbad := Dev.scrubGranule_bad hs
    have hgood := Dev.scrubGranule_good hs
    rw [hstack] at hfix hbad
    generalize physOf n p (64 * tget (s.dev.stackSt n).scrubAt 0 p) = g at *
    generalize s.dev.scrubGranule g = k at *
    obtain ⟨hstk, hat, hafter, hcount⟩ := k.scrubMoved_after n p (tget (s.dev.stackSt n).scrubAt 0 p + 1)
    refine ⟨hat, Dev.onlyIn.after (Dev.onlyIn_sub _ hframe (by rfl)) hafter rfl, fun hp h1 h2 => ?_, fun h3 h4 => ?_, fun h0 => hstk.trans (hgood h0)⟩
    · obtain ⟨hk, hc⟩ := hfix hp h1 h2
      obtain ⟨hc1, hc2⟩ := Dev.scrubCounts_after hc hcount
      rw [hstk, hk]
      exact ⟨rfl, Memory.flag_setFlag_self _ _ _, hc1, hc2⟩
    · obtain ⟨hk, hc⟩ := hbad h3 h4
      obtain ⟨hc1, hc2⟩ := Dev.scrubCounts_after hc hcount
      rw [hstk, hk]
      refine ⟨Memory.flag_setFlag_self _ _ _, fun x hlo hhi => ?_, fun x hx => ?_, hc1, hc2⟩
      · rw [Memory.byte_setFlag]
        exact Memory.byte_clear_in _ ⟨hlo, hhi⟩
      · rw [Memory.byte_setFlag]
        exact Memory.byte_clear_out _ (by omega)
  · refine ⟨_, State.onDev_next (Dev.bitmapClearDone_clears h), ?_⟩
    have hframe := (s.dev.bitmapCleared n).stackReady_frame n
    have hstk : ((s.dev.bitmapCleared n).stackReady n).stk = s.dev.stk.clear (n * stackBytes) ((n + 1) * stackBytes) := hframe .stk rfl
    have hups : ((s.dev.bitmapCleared n).stackReady n).upsets = s.dev.upsets.filter (fun x => !(x.arr == .bitmapWord && x.unit == n.val)) :=
      hframe .upsets rfl
    rw [hstk]
    refine ⟨fun x hlo hhi => ⟨Memory.byte_clear_in _ ⟨hlo, hhi⟩, by rw [Memory.flag_clear_in _ ⟨hlo, hhi⟩]⟩, fun x hx => ?_,
      Dev.stackReady_self _ _, hups, .stackReady (.modStack (.dropUnit (.set_stk (s.dev.onlyIn_refl _))))⟩
    refine Memory.byte_clear_out _ ?_
    rw [Nat.add_mul, Nat.one_mul]
    exact hx
  · exact State.onDev_next (if_neg (by simp [h]))
  · refine ⟨_, State.onDev_next (if_pos h), ?_, Dev.stackReady_self _ _, .stackReady (.modStack (s.dev.onlyIn_refl _))⟩
    have hcs : ((s.dev.modStack n (fun x => { x with retraining := false })).stackReady n).cs = (s.dev.modStack n (fun x => { x with retraining := false })).cs :=
      Dev.stackReady_frame _ n .cs rfl
    rw [Dev.stackSt, hcs, ← Dev.stackSt, Dev.stackSt_modStack]

end Sys2Proof.Machine
end

section
/-! # Heads that wait, and heads whose record fails its check -/

namespace Sys2Proof.Machine

/-! ## Heads that may not start, and heads whose record fails its check (05 R136, R140, R141) -/

/-- What the meaning of a row does with a head that may not start, and with one whose record fails its check. -/
def headFails (f : Dev → Dev) (q op : Nat) : Prop :=
  (∀ d : Dev, d.headReady q op = false → f d = d)
    ∧ ∀ (d : Dev) (r : Rec) (rest : List Rec), d.headOpen q r rest → recordRow r = op → d.recordCheck q r ≠ 0 →
      f d = d.refuseHead (d.mkCmd q r) (d.recordCheck q r) 0 0 0

section
variable {d : Dev} {q op : Nat} {r : Rec} {rest : List Rec}

theorem Dev.headReady_waits (h : ∀ r ∈ (d.waiting q).head?, d.waitReasons q r ≠ [] ∨ d.outOfTurn q = true) : d.headReady q op = false := by
  unfold Dev.headReady
  split
  · rfl
  next r rest heq =>
    rcases h r (by simp [heq]) with h | h
    · simp [h]
    · simp [h]

theorem Dev.headOpen_ready (h : d.headOpen q r rest) (hr : recordRow r = op) : d.headReady q op = true := by
  obtain ⟨hhead, hwait, hbar4, hturn, hchecked, -⟩ := h
  simp [Dev.headReady, hhead, hr, hwait, hbar4, hturn, hchecked]

theorem Dev.readWord_clean (h : d.upsets = []) (arr : SramArray) (u w : Nat) : d.readWord arr u w = (d, false) := by
  simp [Dev.readWord, Dev.findUpset, h]

theorem Dev.turn_notReady (h : d.headReady q op = false) (needs : Dev → Cmd → List HostGran) : d.turn q op needs = (d, none) := by
  unfold Dev.turn
  split
  · rfl
  · exact if_pos (by simp [h])

theorem Dev.turn_fails (h : d.headOpen q r rest) (hr : recordRow r = op) (hc : d.recordCheck q r ≠ 0) (needs : Dev → Cmd → List HostGran) :
    d.turn q op needs = (d.refuseHead (d.mkCmd q r) (d.recordCheck q r) 0 0 0, none) := by
  have hready := Dev.headOpen_ready h hr
  obtain ⟨hhead, -, -, -, -, hclean⟩ := h
  unfold Dev.turn
  rw [hhead]
  dsimp only
  rw [hready, Dev.readWord_clean hclean]
  simp only [Bool.not_true, Bool.false_eq_true, if_false]
  exact if_pos hc

end

theorem headFails_takeHead (q op : Nat) (run : Dev → Cmd → Dev) : headFails (fun d => d.takeHead q op run) q op :=
  ⟨fun d h => by simp only [Dev.takeHead, Dev.turn_notReady h],
    fun d r rest h hr hc => by simp only [Dev.takeHead, Dev.turn_fails h hr hc]⟩

theorem headFails_programTurn (q op : Nat) (check : Dev → Cmd → Nat) : headFails (fun d => d.programTurn q op check) q op :=
  ⟨fun d h => by simp only [Dev.programTurn, Dev.turn_notReady h],
    fun d r rest h hr hc => by simp only [Dev.programTurn, Dev.turn_fails h hr hc]⟩

theorem headFails_copy (q : Nat) : headFails (fun d => d.copy q) q 0x02 :=
  ⟨fun d h => by simp only [Dev.copy, Dev.turn_notReady h], fun d r rest h hr hc => by simp only [Dev.copy, Dev.turn_fails h hr hc]⟩

theorem Dev.readSlotMeta_clean {d : Dev} (h : d.upsets = []) (n : Nat) : d.readSlotMeta n = d := by
  simp only [Dev.readSlotMeta, Dev.readWord_clean h, Bool.not_false, if_true]

theorem headFails_adaptStep (q : Nat) : headFails (fun d => d.adaptStep q) q 0x14 := by
  obtain ⟨hwait, hfail⟩ := headFails_programTurn q 0x14 (fun d x => d.programCheck x.part x.word)
  refine ⟨fun d h => ?_, fun d r rest h hr hc => ?_⟩
  · simp only [Dev.adaptStep, h, Bool.false_eq_true, if_false]
    exact hwait d h
  · have hopen := h
    obtain ⟨-, -, -, -, -, hclean⟩ := h
    simp only [Dev.adaptStep, Dev.readVersionMeta_clean hclean, ite_self]
    exact hfail d r rest hopen hr hc

theorem Dev.recordCheck_lt (d : Dev) (q : Nat) (r : Rec) : d.recordCheck q r < 256 := by
  unfold Dev.recordCheck
  dsimp only
  repeat' split
  all_goals decide

/-- A head whose record fails its check completes with that status and runs nothing. -/
theorem Dev.refuseHead_endsAtStart {d : Dev} (h : d.upsets = []) (q : Nat) (r : Rec) :
    (d.popHead q).endsAtStart (d.refuseHead (d.mkCmd q r) (d.recordCheck q r) 0 0 0) (d.mkCmd q r) (d.recordCheck q r) 0 0 0 [] := by
  have hclean : (d.popHead q).upsets = [] := h
  exact Dev.refuseStart_endsAtStart hclean (d.mkCmd q r) (d.recordCheck_lt q r) 0 0 0

/-- The rows that take a head, each by the function of the model that it runs on the device. -/
theorem headRows_mem {row : (QueueId → Instr) × Nat}
    (h : row ∈ [((fun q => Instr.nop q : QueueId → Instr), 0), (.runProgram, 0x01), (.copy, 0x02), (.libLoad, 0x03), (.modelLoad, 0x10),
       (.modelEvict, 0x11), (.deltaPut, 0x12), (.deltaRetire, 0x13), (.adaptStep, 0x14), (.pageRetire, 0x20), (.fenceEpoch, 0x22)]) (q : QueueId) :
    ∃ f : Dev → Dev, headFails f q row.2 ∧ ∀ s, exec (row.1 q) s = .next (s.onDev f) := by
  simp only [List.mem_cons, List.not_mem_nil, or_false] at h
  rcases h with rfl | rfl | rfl | rfl | rfl | rfl | rfl | rfl | rfl | rfl | rfl
  · exact ⟨fun d => d.nop q, headFails_takeHead _ _ _, fun _ => rfl⟩
  · exact ⟨fun d => d.runProgram q, headFails_programTurn _ _ _, fun _ => rfl⟩
  · exact ⟨fun d => d.copy q, headFails_copy _, fun _ => rfl⟩
  · exact ⟨fun d => d.libLoad q, headFails_takeHead _ _ _, fun _ => rfl⟩
  · exact ⟨fun d => d.modelLoad q, headFails_takeHead _ _ _, fun _ => rfl⟩
  · exact ⟨fun d => d.modelEvict q, headFails_takeHead _ _ _, fun _ => rfl⟩
  · exact ⟨fun d => d.deltaPut q, headFails_takeHead _ _ _, fun _ => rfl⟩
  · exact ⟨fun d => d.deltaRetire q, headFails_takeHead _ _ _, fun _ => rfl⟩
  · exact ⟨fun d => d.adaptStep q, headFails_adaptStep _, fun _ => rfl⟩
  · exact ⟨fun d => d.pageRetire q, headFails_takeHead _ _ _, fun _ => rfl⟩
  · exact ⟨fun d => d.fenceEpoch q, headFails_takeHead _ _ _, fun _ => rfl⟩

/-- A POWER_STATE whose head may not start changes nothing. -/
theorem exec_powerState_waits {s : State} {q : QueueId} (h : s.dev.headReady q 0x21 = false) : exec (.powerState q) s = .next s := by
  have hd : s.dev.powerState q = s.dev := (headFails_takeHead q 0x21 (fun d x => d.powerStateRun x)).1 s.dev h
  refine congrArg Host.Outcome.next ?_
  unfold State.powerState
  rw [hd, if_neg (by omega)]

/-- A POWER_STATE whose record fails its check ends with that status. -/
theorem exec_powerState_fails {s : State} {q : QueueId} {r : Rec} {rest : List Rec} (h : s.dev.headOpen q r rest) (hr : recordRow r = 0x21)
    (hc : s.dev.recordCheck q r ≠ 0) :
    exec (.powerState q) s = .next { s with dev := s.dev.refuseHead (s.dev.mkCmd q r) (s.dev.recordCheck q r) 0 0 0 } := by
  have hd : s.dev.powerState q = s.dev.refuseHead (s.dev.mkCmd q r) (s.dev.recordCheck q r) 0 0 0 :=
    (headFails_takeHead q 0x21 (fun d x => d.powerStateRun x)).2 s.dev r rest h hr hc
  obtain ⟨-, -, -, -, -, hclean⟩ := h
  have hp : (s.dev.refuseHead (s.dev.mkCmd q r) (s.dev.recordCheck q r) 0 0 0).pstate = s.dev.pstate := by
    rw [Dev.endsAtStart_pstate (Dev.refuseHead_endsAtStart hclean q r) rfl, Dev.popHead_pstate]
  refine congrArg Host.Outcome.next ?_
  unfold State.powerState
  rw [hd]
  dsimp only
  rw [hp, if_neg (by omega)]

/-- Settles O12: each row takes its head by the same rule, POWER_STATE with the pads as they stand. -/
theorem headsCompleteAtTheirStart : Obligations.HeadsCompleteAtTheirStart := by
  unfold Obligations.HeadsCompleteAtTheirStart
  refine ⟨fun row hrow s q => ?_, fun s q r rest d1 x h => ?_⟩
  · by_cases hpower : row = (.powerState, 0x21)
    · subst hpower
      refine ⟨fun r hr h => exec_powerState_waits (Dev.headReady_waits fun r' hr' => ?_), fun r rest h hr hc =>
        ⟨_, exec_powerState_fails h hr hc, Dev.refuseHead_endsAtStart h.2.2.2.2.2 q r⟩⟩
      rwa [Option.mem_unique hr' hr]
    · obtain ⟨f, ⟨hwait, hfail⟩, hexec⟩ := headRows_mem (row := row) (by
        simp only [List.mem_cons, List.not_mem_nil, or_false] at hrow ⊢
        tauto) q
      refine ⟨fun r hr h => ?_, fun r rest h hr hc => ⟨_, (hexec s).trans (State.onDev_next (hfail s.dev r rest h hr hc)), ?_⟩⟩
      · rw [hexec]
        refine State.onDev_next (hwait s.dev (Dev.headReady_waits fun r' hr' => ?_))
        rwa [Option.mem_unique hr' hr]
      · obtain ⟨-, -, -, -, -, hclean⟩ := h
        exact Dev.refuseHead_endsAtStart hclean q r
  · refine ⟨_, State.onDev_next (Dev.takeHead_starting h (by decide) _), ?_⟩
    exact Dev.refuseStart_endsAtStart (Dev.starting_upsets h) x (by decide) 0 0 0

end Sys2Proof.Machine
end

section
/-! # What parts the operations may change: Commands that start and ask for host memory

The lemma about an operation has its name, in the order of the definitions. -/

namespace Sys2Proof.Machine
-- These proofs are many and small: elaborated all at once they take more threads than the checker has.
set_option Elab.async false
namespace Dev.onlyIn
variable {d₀ d e : Dev} {C : List Comp}

theorem sectorWake (h₀ : d₀.onlyIn d C) {k : Nat} (sub : among [.regs, .sect] C := by rfl) : d₀.onlyIn (d.sectorWake k) C :=
  h₀.into sub fun _ hd => .putF (.modSect hd)

end Dev.onlyIn
end Sys2Proof.Machine
end

section
/-! # Commands that start and ask for host memory -/

namespace Sys2Proof.Machine

/-! ## A command that starts and asks for host memory (05 R142, 15 R427) -/

/-- The registers that a start may change: the clock gating of the sectors. -/
abbrev gateRegs : List Nat := (List.range 6).map rPwrSectMax

theorem Dev.sectorWake_frame (d : Dev) (k : Nat) : d.onlyIn (d.sectorWake k) [.regs, .sect] := .sectorWake (d.onlyIn_refl _)

theorem Dev.foldl_sectorWake (ks : List Nat) (hks : ∀ k ∈ ks, k < 6) (d : Dev) :
    d.regsBut (ks.foldl (fun d k => d.sectorWake k) d) gateRegs ∧ d.onlyIn (ks.foldl (fun d k => d.sectorWake k) d) [.regs, .sect] := by
  refine List.foldlRecOn (motive := fun e => d.regsBut e gateRegs ∧ d.onlyIn e [.regs, .sect]) ks _ ⟨d.regsBut_refl _, d.onlyIn_refl _⟩
    fun e he k hk => ⟨Dev.regsBut_trans he.1 ?_, Dev.onlyIn_trans he.2 (e.sectorWake_frame k)⟩
  refine Dev.regsBut_mono (rs := [rPwrSectMax k]) (Dev.regsBut_putF (e.modSect k _) _ _ _) ?_
  simpa using List.mem_map.mpr ⟨k, List.mem_range.mpr (hks k hk), rfl⟩

/-- A command that starts is the last of those started, and its sectors are awake. -/
theorem Dev.begin_begun (d : Dev) (x : Cmd) : d.begun (d.begin_ x) x [] := by
  let k : Dev := { d with cq := { d.cq with cmds := d.cq.cmds ++ [x], nextId := max d.cq.nextId (x.id + 1) } }
  obtain ⟨hregs, hframe⟩ := Dev.foldl_sectorWake ((List.range 6).filter (fun k => x.usesSector k))
    (fun j hj => List.mem_range.mp (List.mem_of_mem_filter hj)) k
  have hk : d.onlyIn k [.cq, .regs, .sect] := .set_cq (d.onlyIn_refl _)
  exact ⟨hframe .cq rfl, Dev.regsBut_trans (fun _ _ => rfl) hregs, Dev.onlyIn.after hk hframe rfl⟩

theorem Dev.begun_mono {d e : Dev} {x : Cmd} {cs ds : List Comp} (h : d.begun e x cs)
    (hs : among ([Comp.cq, .regs, .sect] ++ cs) ([Comp.cq, .regs, .sect] ++ ds) := by rfl) : d.begun e x ds :=
  ⟨h.1, h.2.1, Dev.onlyIn_sub _ h.2.2 hs⟩

/-- The reads that a command asks for, one of 64 bytes for each piece. -/
def readsOf (c func time : Nat) (ps : List (Nat × Nat)) : List OutRead :=
  ps.map (fun g => (⟨func, g.2, 64, .cmd c, g.1, 0, time⟩ : OutRead))

/-- A function that may send asks for every piece. -/
theorem Dev.askHost_asks (ps : List (Nat × Nat)) {d : Dev} {func : Nat} (hm : d.masters func = true) (c : Nat) :
    d.askHost c func 0 ps = { d with hif := { d.hif with reads := d.hif.reads ++ readsOf c func d.time ps } } := by
  induction ps generalizing d with
  | nil => simp [Dev.askHost, readsOf]
  | cons g gs ih =>
    have hstep : d.sendRead (some c) { func := func, addr := g.2, len := 64, purpose := .cmd c, vaddr := g.1, handle := 0, sentAt := 0 }
        = { d with hif := { d.hif with reads := d.hif.reads ++ [⟨func, g.2, 64, .cmd c, g.1, 0, d.time⟩] } } := by
      unfold Dev.sendRead
      rw [if_neg (by simp [hm])]
    have hm' : ({ d with hif := { d.hif with reads := d.hif.reads ++ [⟨func, g.2, 64, .cmd c, g.1, 0, d.time⟩] } } : Dev).masters func = true := hm
    have hcons : d.askHost c func 0 (g :: gs) = ({ d with hif := { d.hif with
        reads := d.hif.reads ++ [⟨func, g.2, 64, .cmd c, g.1, 0, d.time⟩] } } : Dev).askHost c func 0 gs := by
      rw [← hstep]
      rfl
    rw [hcons, ih hm']
    simp [readsOf]

theorem Dev.masters_of_fns {d e : Dev} (h : e.hif.fns = d.hif.fns) (f : Nat) : e.masters f = d.masters f := by
  rw [Dev.masters, Dev.fn, Dev.fn, h]
  rfl

/-- A command that starts and asks for its pieces of host memory. -/
theorem Dev.begin_asks {d : Dev} {x : Cmd} {func : Nat} (hm : d.masters func = true) (c : Nat) (ps : List (Nat × Nat)) :
    d.begun ((d.begin_ x).askHost c func 0 ps) x [.hif]
      ∧ ((d.begin_ x).askHost c func 0 ps).hif.reads = (d.begin_ x).hif.reads ++ readsOf c func (d.begin_ x).time ps
      ∧ (d.begin_ x).onlyIn ((d.begin_ x).askHost c func 0 ps) [.hif] := by
  obtain ⟨hcq, hregs, hframe⟩ := d.begin_begun x
  have hhif : (d.begin_ x).hif = d.hif := hframe .hif rfl
  rw [Dev.askHost_asks ps ((Dev.masters_of_fns (congrArg Hif.fns hhif) func).trans hm)]
  have hset : (d.begin_ x).onlyIn { d.begin_ x with hif := { (d.begin_ x).hif with
      reads := (d.begin_ x).hif.reads ++ readsOf c func (d.begin_ x).time ps } } [.hif] := .set_hif (Dev.onlyIn_refl _ _)
  exact ⟨⟨hcq, hregs, Dev.onlyIn.after (Dev.onlyIn_sub _ hframe rfl) hset rfl⟩, rfl, hset⟩

theorem Dev.starting_word {d d1 : Dev} {q op : Nat} {r : Rec} {rest : List Rec} {x : Cmd} (h : d.starting d1 q op r rest x) : x.word = r := by
  obtain ⟨-, -, -, -, rfl⟩ := h
  rfl

/-- Settles O15: both commands start, and ask for the pieces of their header. -/
theorem imageCommandsStart : Obligations.ImageCommandsStart := by
  unfold Obligations.ImageCommandsStart
  refine ⟨fun s q r rest d1 x h hva hm => ?_, fun s q r rest d1 x h hm => ?_⟩
  · obtain rfl := Dev.starting_word h
    obtain ⟨hbegun, hreads, hframe⟩ := Dev.begin_asks (x := { x with phase := .waiting }) hm x.id
      ((d1.begin_ { x with phase := .waiting }).hostPieces ((d1.begin_ { x with phase := .waiting }).cpOf x.part x.ctx) (bitsOf x.word 176 8)
        (bitsOf x.word 128 48) 64)
    refine ⟨_, State.onDev_next ((Dev.takeHead_starting h (by decide) _).trans (if_neg (by simpa using hva))), d1.begin_begun _, hreads, hframe⟩
  · intro p hctx hfunc htrap halign hepoch hone
    obtain rfl := Dev.starting_word h
    have hcheck : d1.fenceCheck x = 0 := by
      have hp : fencePart x.word = p := rfl
      unfold Dev.fenceCheck
      dsimp only
      rw [hp, if_neg (by simp [hctx, hfunc]), if_neg (by simp [htrap]), if_neg (by simpa using halign), if_neg (by omega),
        if_neg (by simpa using hone)]
    obtain ⟨hbegun, hreads, hframe⟩ := Dev.begin_asks (x := { x with phase := .running }) hm x.id
      ((d1.begin_ { x with phase := .running }).hostPieces x.fenceEngine (bitsOf x.word 184 8) (bitsOf x.word 136 48) 512)
    exact ⟨_, State.onDev_next ((Dev.takeHead_starting h (by decide) _).trans (if_neg (by simpa using hcheck))), d1.begin_begun _, hreads, hframe⟩

end Sys2Proof.Machine
end

section
/-! # What parts the operations may change: A model slot through its states (09 Table 9-4)

The lemma about an operation has its name, in the order of the definitions. -/

namespace Sys2Proof.Machine
-- These proofs are many and small: elaborated all at once they take more threads than the checker has.
set_option Elab.async false
namespace Dev.onlyIn
variable {d₀ d e : Dev} {C : List Comp}

theorem freeVersionsOf (h₀ : d₀.onlyIn d C) {s : Nat} (sub : among [.srv] C := by rfl) : d₀.onlyIn (d.freeVersionsOf s) C :=
  h₀.into sub fun _ hd => .foldl hd (fun _ _ h2 => .freeVersion h2)

end Dev.onlyIn
end Sys2Proof.Machine
end

section
/-! # A model slot through its states (09 Table 9-4) -/

namespace Sys2Proof.Machine

/-! ## States of a model slot (09 Table 9-4) -/

theorem Dev.slotState_of_reg {d e : Dev} {n : Nat} (h : e.reg (rSrvSlotState n) = d.reg (rSrvSlotState n)) : e.slotState n = d.slotState n := by
  rw [Dev.slotState, Dev.getF, h]
  rfl

theorem rSrvSlotState_quiet (n k : Nat) : (raiseRegs (pgSrv k)).contains (rSrvSlotState n) = false := by
  simp [rSrvSlotState, rBlkIntStat, pgSrv, rHifTxDrop, pgHif]
  omega

/-- A slot enters a state, whatever event tells of it. -/
theorem Dev.enterSlotState_self (d : Dev) (n : Nat) {st : Nat} (h : st < 8) : (d.enterSlotState n st).slotState n = st := by
  have hput : (d.putF (rSrvSlotState n) fSrvSlotState_State st).slotState n = st :=
    (Dev.getF_putF_self _ _ _ _ (by decide)).trans (Nat.mod_eq_of_lt h)
  have hraise : ∀ bits, ((d.putF (rSrvSlotState n) fSrvSlotState_State st).raise (pgSrv 7) bits).slotState n = st := fun bits =>
    (Dev.slotState_of_reg (Dev.raise_regsBut _ _ _ _ (rSrvSlotState_quiet n 7))).trans hput
  unfold Dev.enterSlotState
  dsimp only
  split
  · exact hraise _
  · split
    · exact hraise _
    · exact hput

theorem Dev.enterSlotState_frame (d : Dev) (n st : Nat) : d.onlyIn (d.enterSlotState n st) [.regs, .hif] := .enterSlotState (d.onlyIn_refl _)

theorem Dev.foldl_freePages_srv (xs : List (Nat × Node)) (d : Dev) :
    ∃ a, (xs.foldl (fun d e => d.freePages e.2.part e.2.pages) d).srv = { d.srv with arena := a } := by
  induction xs generalizing d with
  | nil => exact ⟨_, rfl⟩
  | cons x xs ih =>
    obtain ⟨a, ha⟩ := ih (d.freePages x.2.part x.2.pages)
    exact ⟨a, by rw [List.foldl_cons, ha]; rfl⟩

/-- Nodes discarded: they are gone, their pages are free, and nothing else of the requests changes. -/
theorem Dev.discardNodes_srv (d : Dev) (who : Node → Bool) :
    ∃ a, (d.discardNodes who).srv = { d.srv with nodes := d.srv.nodes.filter (fun e => !who e.2), arena := a } := by
  obtain ⟨a, ha⟩ := Dev.foldl_freePages_srv (d.srv.nodes.filter (fun e => who e.2))
    (d.onSrv (fun s => { s with nodes := s.nodes.filter (fun e => !who e.2) }))
  exact ⟨a, by rw [Dev.discardNodes, ha]; rfl⟩

theorem Dev.discardNodes_frame (d : Dev) (who : Node → Bool) : d.onlyIn (d.discardNodes who) [.srv] := .discardNodes (d.onlyIn_refl _)

/-- A version freed: it is FREE, no lineage names it that it belonged to, its nodes are gone, and the requests stand. -/
theorem Dev.freeVersion_srv (d : Dev) (v : Nat) :
    ∃ a cur, (d.freeVersion v).srv = { d.srv with
        versions := tdel d.srv.versions v, current := cur, nodes := d.srv.nodes.filter (fun e => !(e.2.delta == some v)), arena := a }
      ∧ cur = if tfind d.srv.current (d.version v).lineage = some v then tdel d.srv.current (d.version v).lineage else d.srv.current := by
  unfold Dev.freeVersion
  dsimp only
  by_cases h : tfind d.srv.current (d.version v).lineage = some v
  · rw [if_pos h]
    have hv : tfind (d.setVersion v {}).srv.current (d.version v).lineage = some v := h
    rw [if_pos hv]
    obtain ⟨a, ha⟩ := ((d.setVersion v {}).onSrv (fun s => { s with current := tdel s.current (d.version v).lineage })).discardNodes_srv
      (fun n => n.delta == some v)
    exact ⟨a, _, ha.trans rfl, rfl⟩
  · rw [if_neg h]
    have hv : ¬ tfind (d.setVersion v {}).srv.current (d.version v).lineage = some v := h
    rw [if_neg hv]
    obtain ⟨a, ha⟩ := (d.setVersion v {}).discardNodes_srv (fun n => n.delta == some v)
    exact ⟨a, _, ha.trans rfl, rfl⟩

theorem Dev.freeVersion_version (d : Dev) (v u : Nat) : (d.freeVersion v).version u = if u = v then {} else d.version u := by
  obtain ⟨a, cur, hsrv, -⟩ := d.freeVersion_srv v
  rw [Dev.version, hsrv]
  exact tget_tdel _ _ _ _

/-- Versions freed one after the other: each of them is FREE, and of nodes only some are gone. -/
theorem Dev.foldl_freeVersion (vs : List Nat) (d : Dev) :
    let e := vs.foldl (fun d v => d.freeVersion v) d
    e.srv.entries = d.srv.entries ∧ (∀ z ∈ e.srv.nodes, z ∈ d.srv.nodes) ∧ ∀ u, e.version u = if u ∈ vs then {} else d.version u := by
  induction vs generalizing d with
  | nil => exact ⟨rfl, fun _ h => h, fun u => by simp⟩
  | cons v vs ih =>
    obtain ⟨hentries, hnodes, hversions⟩ := ih (d.freeVersion v)
    obtain ⟨a, cur, hsrv, -⟩ := d.freeVersion_srv v
    refine ⟨hentries.trans (by rw [hsrv]), fun z hz => ?_, fun u => ?_⟩
    · have h := hnodes z hz
      rw [hsrv] at h
      exact List.mem_of_mem_filter h
    · rw [List.foldl_cons, hversions, Dev.freeVersion_version]
      by_cases hu : u ∈ vs
      · rw [if_pos hu, if_pos (List.mem_cons_of_mem _ hu)]
      · rw [if_neg hu]
        by_cases huv : u = v
        · rw [if_pos huv, if_pos (huv ▸ List.mem_cons_self)]
        · rw [if_neg huv, if_neg (by simp [huv, hu])]

theorem mem_of_tget_ne {α : Type} {t : Tab α} {d : α} {k : Nat} (h : tget t d k ≠ d) : (k, tget t d k) ∈ t := by
  induction t with
  | nil => exact absurd rfl h
  | cons x t ih =>
    obtain ⟨j, v⟩ := x
    rw [tget] at h ⊢
    by_cases hj : (j == k) = true
    · rw [if_pos hj]
      exact List.mem_cons.mpr (.inl (by rw [beq_iff_eq.mp hj]))
    · rw [if_neg hj] at h ⊢
      exact List.mem_cons_of_mem _ (ih h)

/-- No version of a slot is left. -/
theorem Dev.freeVersionsOf_frees (d : Dev) (n : Nat) :
    (d.freeVersionsOf n).srv.entries = d.srv.entries ∧ (∀ z ∈ (d.freeVersionsOf n).srv.nodes, z ∈ d.srv.nodes)
      ∧ ∀ v, (d.version v).slot = n → ((d.freeVersionsOf n).version v).state = .free := by
  obtain ⟨hentries, hnodes, hversions⟩ := Dev.foldl_freeVersion ((d.srv.versions.filter (fun v => v.2.slot == n)).map (·.1)) d
  refine ⟨hentries, hnodes, fun v hv => ?_⟩
  rw [Dev.freeVersionsOf, hversions]
  split
  · rfl
  next hnot =>
    by_contra hs
    have hne : d.version v ≠ {} := fun h => hs (by rw [h])
    exact hnot (List.mem_map.mpr ⟨_, List.mem_filter.mpr ⟨mem_of_tget_ne hne, beq_iff_eq.mpr hv⟩, rfl⟩)

theorem Dev.enterEvicting_slotState (d : Dev) (n : Nat) : (d.enterEvicting n).slotState n = 4 := by
  have hregs : (d.enterEvicting n).regs = (d.enterSlotState n 4).regs := (d.enterSlotState n 4).discardNodes_frame _ .regs rfl
  exact (Dev.slotState_of_reg (Dev.reg_congr hregs _)).trans (d.enterSlotState_self n (by decide))

/-- A command in progress that asks for host memory: its reads are sent at the time it starts. -/
theorem Dev.begin_asks_at {d : Dev} {x : Cmd} {func : Nat} (hm : d.masters func = true) (c : Nat) (ps : List (Nat × Nat)) :
    d.begun ((d.begin_ x).askHost c func 0 ps) x [.hif]
      ∧ ((d.begin_ x).askHost c func 0 ps).hif.reads = d.hif.reads ++ readsOf c func d.time ps := by
  obtain ⟨hbegun, hreads, -⟩ := Dev.begin_asks (x := x) hm c ps
  obtain ⟨-, -, hframe⟩ := d.begin_begun x
  have hhif : (d.begin_ x).hif = d.hif := hframe .hif rfl
  have htime : (d.begin_ x).time = d.time := hframe .time rfl
  rw [hhif, htime] at hreads
  exact ⟨hbegun, hreads⟩

/-! ## The ends of these commands -/

/-- A command that is done at its start ends with OK. -/
theorem Dev.doneAtStart_ends {d : Dev} (h : d.upsets = []) (x : Cmd) : d.endsAtStart (d.doneAtStart x) x 0 0 0 0 [] :=
  Dev.refuseStart_endsAtStart h x (by decide) 0 0 0

/-- The slot that a MODEL_LOAD takes, evicted first where it was READY. -/
def Dev.slotTaken (d : Dev) (n : Nat) : Dev :=
  (if d.slotState n = 2 then ((d.enterEvicting n).freeVersionsOf n).enterSlotState n 0 else d).enterSlotState n 1

theorem Dev.slotTaken_loading (d : Dev) (n : Nat) : (d.slotTaken n).slotState n = 1 ∧ d.onlyIn (d.slotTaken n) [.regs, .srv, .hif] := by
  refine ⟨Dev.enterSlotState_self _ n (by decide), .enterSlotState ?_⟩
  split
  · exact .enterSlotState (.freeVersionsOf (.enterEvicting (d.onlyIn_refl _)))
  · exact d.onlyIn_refl _

theorem Dev.slotTaken_fns (d : Dev) (n : Nat) : (d.slotTaken n).hif.fns = d.hif.fns := by
  refine (Dev.sheds.trans (e := if d.slotState n = 2 then ((d.enterEvicting n).freeVersionsOf n).enterSlotState n 0 else d) (.ite ?_ (.refl d))
    (.enterSlotState _ n 1)).2
  have hevict : d.sheds (d.enterEvicting n) := (Dev.sheds.enterSlotState d n 4).trans (.of_frame ((d.enterSlotState n 4).discardNodes_frame _))
  exact (hevict.trans (.of_frame (cs := [.srv]) (.freeVersionsOf (Dev.onlyIn_refl _ _)))).trans (.enterSlotState _ n 0)

theorem Dev.loadCheck_lt {d : Dev} {x : Cmd} {code : Nat} (h : d.loadCheck x = .error code) : code < 256 := by
  have hchannel : ∀ p c, d.noChannel p c < 256 := fun p c => by
    unfold Dev.noChannel
    split <;> decide
  unfold Dev.loadCheck at h
  dsimp only at h
  repeat' split at h
  all_goals cases h
  all_goals simp [hchannel]

/-- MODEL_LOAD's meaning, once its head may start. -/
theorem Dev.modelLoad_starting {d d1 : Dev} {q : Nat} {r : Rec} {rest : List Rec} {x : Cmd} (h : d.starting d1 q 0x10 r rest x) :
    (∀ code, d1.loadCheck x = .error code → d.modelLoad q = d1.refuseStart x code 0 0 0)
      ∧ ∀ n k, d1.loadCheck x = .ok (n, k) → d.modelLoad q =
          let d3 := d1.slotTaken n
          let y : Cmd := { x with slot := n, engines := [⟨.dma, 4 * k + 3⟩] }
          (d3.begin_ y).askHost x.id x.func 0 ((d3.begin_ y).hostPieces (dmaOf (loadPart x.part x.word) x.ctx k) (bitsOf x.word 192 8)
            (bitsOf x.word 144 48) (bitsOf x.word 200 40)) := by
  have hrun : d.modelLoad q = _ := Dev.takeHead_starting h (by decide) _
  have hmeta : (if bitsOf x.word 128 5 < 16 then d1.readSlotMeta (bitsOf x.word 128 5) else d1) = d1 := by
    rw [Dev.readSlotMeta_clean (Dev.starting_upsets h), ite_self]
  refine ⟨fun code hc => ?_, fun n k hc => ?_⟩
  · refine hrun.trans ?_
    simp only [hmeta, hc]
  · refine hrun.trans ?_
    simp only [hmeta, hc]
    rfl

/-- The device once a MODEL_EVICT of a READY slot took effect: the drain, or with no live request the eviction. -/
def Dev.evictStarted (d : Dev) (n : Nat) : Dev := if d.slotLive n = 0 then d.enterEvicting n else d.enterSlotState n 3

theorem Dev.evictStarted_parts (d : Dev) (n : Nat) :
    (d.evictStarted n).slotState n = (if d.slotLive n = 0 then 4 else 3)
      ∧ (d.evictStarted n).srv.nodes = d.srv.nodes.filter (fun z => !(d.slotLive n == 0 && z.2.slot == n))
      ∧ d.onlyIn (d.evictStarted n) [.regs, .srv, .hif] := by
  unfold Dev.evictStarted
  by_cases h : d.slotLive n = 0
  · simp only [h, if_true, beq_self_eq_true, Bool.true_and]
    obtain ⟨a, ha⟩ := (d.enterSlotState n 4).discardNodes_srv (fun z => z.slot == n)
    have hsrv : (d.enterSlotState n 4).srv = d.srv := d.enterSlotState_frame n 4 .srv rfl
    refine ⟨d.enterEvicting_slotState n, ?_, .enterEvicting (d.onlyIn_refl _)⟩
    rw [Dev.enterEvicting, ha, hsrv]
  · have hb : (d.slotLive n == 0) = false := by simpa using h
    simp only [h, if_false, hb, Bool.false_and, Bool.not_false, List.filter_true]
    exact ⟨d.enterSlotState_self n (by decide), congrArg Srv.nodes (d.enterSlotState_frame n 3 .srv rfl), .enterSlotState (d.onlyIn_refl _)⟩

/-- MODEL_EVICT's meaning, once its head may start. -/
theorem Dev.modelEvict_starting {d d1 : Dev} {q : Nat} {r : Rec} {rest : List Rec} {x : Cmd} (h : d.starting d1 q 0x11 r rest x) :
    d.modelEvict q = if d1.slotState (bitsOf x.word 128 4) ≠ 2 ∨ (x.part ≠ 7 ∧ d1.slotPart (bitsOf x.word 128 4) ≠ x.part)
      then d1.refuseStart x 0x42 0 0 0 else (d1.evictStarted (bitsOf x.word 128 4)).doneAtStart x := by
  have hrun : d.modelEvict q = _ := Dev.takeHead_starting h (by decide) _
  refine hrun.trans ?_
  dsimp only
  rw [Dev.readSlotMeta_clean (Dev.starting_upsets h)]
  rfl

/-- An eviction that ends. -/
theorem Dev.slotEvicted_ends {d : Dev} {n : Nat} (h : d.slotState n = 4)
    (hx : ∀ x ∈ d.cq.cmds, x.opcode = 0x14 → (d.version (bitsOf x.word 296 12)).slot ≠ n) :
    d.slotEvicted n = ((d.discardNodes (fun z => z.slot == n)).freeVersionsOf n).enterSlotState n 0 := by
  refine if_neg ?_
  simp only [h, ne_eq, not_true_eq_false, false_or, List.any_eq_true, Bool.and_eq_true, beq_iff_eq, not_exists, not_and]
  exact hx

/-- Settles O17: a load by its check, an eviction by its slot, and its end by what is freed. -/
theorem modelsLoadAndLeave : Obligations.ModelsLoadAndLeave := by
  unfold Obligations.ModelsLoadAndLeave
  refine ⟨fun s q r rest d1 x h hm => ?_, fun s q r rest d1 x h => ?_, fun s n h hx => ?_⟩
  · obtain rfl := Dev.starting_word h
    have hclean := Dev.starting_upsets h
    obtain ⟨herr, hok⟩ := Dev.modelLoad_starting h
    cases hc : d1.loadCheck x with
    | error code => exact ⟨_, State.onDev_next (herr code hc), Dev.refuseStart_endsAtStart hclean x (Dev.loadCheck_lt hc) 0 0 0⟩
    | ok nk =>
      obtain ⟨n, k⟩ := nk
      obtain ⟨hloading, hframe⟩ := d1.slotTaken_loading n
      have hm' := (Dev.masters_of_fns (d1.slotTaken_fns n) x.func).trans hm
      have htime : (d1.slotTaken n).time = d1.time := hframe .time rfl
      refine ⟨_, State.onDev_next (hok n k hc), ?_⟩
      have hasks := fun ps => Dev.begin_asks_at (x := { x with slot := n, engines := [⟨.dma, 4 * k + 3⟩] }) hm' x.id ps
      obtain ⟨hbegun, hreads⟩ := hasks (((d1.slotTaken n).begin_ { x with slot := n, engines := [⟨.dma, 4 * k + 3⟩] }).hostPieces
        (dmaOf (loadPart x.part x.word) x.ctx k) (bitsOf x.word 192 8) (bitsOf x.word 144 48) (bitsOf x.word 200 40))
      rw [htime] at hreads
      exact ⟨hloading, hframe, hbegun, hreads⟩
  · intro n
    obtain rfl := Dev.starting_word h
    have hclean := Dev.starting_upsets h
    refine ⟨_, State.onDev_next (Dev.modelEvict_starting h), fun hs hp => ?_, fun hn => ?_⟩
    · obtain ⟨hstate, hnodes, hframe⟩ := d1.evictStarted_parts n
      have hnot : ¬ (d1.slotState n ≠ 2 ∨ (x.part ≠ 7 ∧ d1.slotPart n ≠ x.part)) := by tauto
      rw [if_neg hnot]
      exact ⟨hstate, hnodes, hframe, Dev.doneAtStart_ends ((hframe .upsets rfl).trans hclean) x⟩
    · have hyes : d1.slotState n ≠ 2 ∨ (x.part ≠ 7 ∧ d1.slotPart n ≠ x.part) := by tauto
      rw [if_pos hyes]
      exact Dev.refuseStart_endsAtStart hclean x (by decide) 0 0 0
  · refine ⟨_, State.onDev_next (Dev.slotEvicted_ends h hx), Dev.enterSlotState_self _ _ (by decide), ?_⟩
    obtain ⟨a, ha⟩ := s.dev.discardNodes_srv (fun z => z.slot == n.val)
    obtain ⟨hentries, hnodes, hversions⟩ := (s.dev.discardNodes (fun z => z.slot == n.val)).freeVersionsOf_frees n
    have hframe : s.dev.onlyIn ((s.dev.discardNodes (fun z => z.slot == n.val)).freeVersionsOf n) [.srv] :=
      .freeVersionsOf (.discardNodes (s.dev.onlyIn_refl _))
    have hsrv := ((s.dev.discardNodes (fun z => z.slot == n.val)).freeVersionsOf n).enterSlotState_frame n 0 .srv rfl
    have hv : ∀ v, (s.dev.discardNodes (fun z => z.slot == n.val)).version v = s.dev.version v := fun v => by rw [Dev.version, ha, Dev.version]
    generalize hk : (s.dev.discardNodes (fun z => z.slot == n.val)).freeVersionsOf n = k at *
    have hsrv' : (k.enterSlotState n 0).srv = k.srv := hsrv
    refine ⟨?_, fun v hslot => ?_, ?_, .enterSlotState (Dev.onlyIn_sub _ hframe rfl)⟩
    · rw [hsrv', List.all_eq_true]
      intro z hz
      have hmem := hnodes z hz
      rw [ha] at hmem
      simpa using (List.mem_filter.mp hmem).2
    · rw [Dev.version, hsrv', ← Dev.version]
      exact hversions v (by rw [hv, hslot])
    · rw [hsrv', hentries, ha]

end Sys2Proof.Machine
end

section
/-! # What parts the operations may change: Versions come and go (09 Table 9-6)

The lemma about an operation has its name, in the order of the definitions. -/

namespace Sys2Proof.Machine
-- These proofs are many and small: elaborated all at once they take more threads than the checker has.
set_option Elab.async false
namespace Dev.onlyIn
variable {d₀ d e : Dev} {C : List Comp}

theorem goLive (h₀ : d₀.onlyIn d C) {v : Nat} {old : Option Nat} (sub : among [.srv] C := by rfl) : d₀.onlyIn (d.goLive v old) C
  :=
  h₀.into sub fun _ hd => .ite (.ite (.freeVersion (.onSrv (.setVersion hd))) (.setVersion (.onSrv (.setVersion hd)))) (.onSrv
    (.setVersion hd))

end Dev.onlyIn
end Sys2Proof.Machine
end

section
/-! # Versions come and go (09 Table 9-6) -/

namespace Sys2Proof.Machine

/-! ## Versions -/

theorem Dev.noChannel_lt (d : Dev) (p c : Nat) : d.noChannel p c < 256 := by
  unfold Dev.noChannel
  split <;> decide

theorem Dev.putCheck_lt (d : Dev) (p : Nat) (r : Rec) : d.putCheck p r < 256 := by
  have hchannel := d.noChannel_lt p 3
  unfold Dev.putCheck
  dsimp only
  split_ifs
  all_goals simp [hchannel]

theorem Dev.setVersion_version (d : Dev) (v u : Nat) (x : Version) : (d.setVersion v x).version u = if u = v then (if x.state = .free then {} else x) else d.version u := by
  unfold Dev.setVersion Dev.version Dev.onSrv
  dsimp only
  split
  · exact tget_tdel _ _ _ _
  · exact tget_tset _ _ _ _ _

theorem Dev.setVersion_state (d : Dev) (v : Nat) (x : Version) : ((d.setVersion v x).version v).state = x.state := by
  rw [Dev.setVersion_version, if_pos rfl]
  split
  next h => exact h.symm
  · rfl

/-- DELTA_PUT's checks, passed: a FREEZE names a TRAIN version, and what it goes on from is LIVE. -/
theorem Dev.putCheck_freeze {d : Dev} {p : Nat} {r : Rec} (h : d.putCheck p r = 0) (hf : bitsOf r 144 2 = 2) :
    (d.version (bitsOf r 128 12)).state = .train ∧ ∀ o, oldOf r = some o → (d.version o).state = .live := by
  have hput : d.putState r = false := by
    by_contra hp
    have hp' : d.putState r = true := by simpa using hp
    unfold Dev.putCheck at h
    simp only [hp', if_true] at h
    split_ifs at h
    all_goals simp_all
  unfold Dev.putState at hput
  simp only [hf, if_true, Bool.or_eq_false_iff, bne_eq_false_iff_eq] at hput
  obtain ⟨⟨htrain, -⟩, hold⟩ := hput
  refine ⟨htrain, fun o ho => ?_⟩
  rw [ho] at hold
  simp only [Bool.or_eq_false_iff, bne_eq_false_iff_eq] at hold
  exact hold.1

theorem Dev.goLive_frame (d : Dev) (v : Nat) (old : Option Nat) : d.onlyIn (d.goLive v old) [.srv] := .goLive (d.onlyIn_refl _)

/-- Ending another version leaves this one's state. -/
theorem Dev.endVersion_state (d : Dev) {v o : Nat} (h : v ≠ o) (y : Version) (c r : Prop) [Decidable c] [Decidable r] :
    ((if c then (if r then d.freeVersion o else d.setVersion o y) else d).version v).state = (d.version v).state := by
  split
  · split
    · rw [Dev.freeVersion_version, if_neg h]
    · rw [Dev.setVersion_version, if_neg h]
  · rfl

/-- A version that goes live is live, unless the one it goes on from is itself. -/
theorem Dev.goLive_live (d : Dev) {v : Nat} {old : Option Nat} (h : old ≠ some v) : ((d.goLive v old).version v).state = .live := by
  have hset : ∀ l, (((d.setVersion v { d.version v with state := .live, lineage := l }).onSrv
      (fun s => { s with current := tset s.current l v })).version v).state = .live := fun l =>
    d.setVersion_state v { d.version v with state := .live, lineage := l }
  unfold Dev.goLive
  dsimp only
  cases old with
  | none => exact hset v
  | some o =>
    have hne : v ≠ o := fun hv => h (congrArg some hv.symm)
    exact (Dev.endVersion_state _ hne _ _ _).trans (hset _)

/-! ## DELTA_PUT and DELTA_RETIRE -/

/-- DELTA_PUT's meaning, once its head may start. -/
theorem Dev.deltaPut_starting {d d1 : Dev} {q : Nat} {r : Rec} {rest : List Rec} {x : Cmd} (h : d.starting d1 q 0x12 r rest x) :
    d.deltaPut q = if d1.putCheck x.part x.word ≠ 0 then d1.refuseStart x (d1.putCheck x.part x.word) 0 0 0
      else if bitsOf x.word 144 2 = 2 then (d1.goLive (bitsOf x.word 128 12) (oldOf x.word)).doneAtStart x
      else
        let k := (d1.fixedChannel x.part (d1.liveSect x.part) 3).getD 0
        let d2 := d1.setVersion (bitsOf x.word 128 12)
          { state := .loading, slot := bitsOf x.word 140 4, part := x.part, lineage := bitsOf x.word 128 12, base := bitsOf x.word 208 48,
            bytes := bitsOf x.word 264 32 }
        let d3 := d2.begin_ { x with slot := bitsOf x.word 128 12, engines := [⟨.dma, 4 * k + 3⟩] }
        d3.askHost x.id x.func 0 (d3.hostPieces (dmaOf x.part x.ctx k) (bitsOf x.word 256 8) (bitsOf x.word 160 48) (bitsOf x.word 264 32)) := by
  have hclean := Dev.starting_upsets h
  have hrun : d.deltaPut q = _ := Dev.takeHead_starting h (by decide) _
  refine hrun.trans ?_
  dsimp only
  rw [Dev.readSlotMeta_clean hclean, Dev.readVersionMeta_clean hclean]

/-- The device once a LIVE version was retired. -/
def Dev.versionLeaves (d : Dev) (v : Nat) : Dev :=
  let y := d.version v
  let d := if tfind d.srv.current y.lineage = some v then d.onSrv (fun t => { t with current := tdel t.current y.lineage }) else d
  if y.refs = 0 then d.freeVersion v else d.setVersion v { y with state := .retiring }

/-- DELTA_RETIRE's meaning, once its head may start. -/
theorem Dev.deltaRetire_starting {d d1 : Dev} {q : Nat} {r : Rec} {rest : List Rec} {x : Cmd} (h : d.starting d1 q 0x13 r rest x) :
    d.deltaRetire q =
      let v := bitsOf x.word 128 12
      let s := bitsOf x.word 140 4
      let y := d1.version v
      if d1.slotState s ≠ 2 ∨ d1.slotPart s ≠ x.part then d1.refuseStart x 0x42 0 0 0
      else if y.slot ≠ s ∨ (y.state ≠ .live ∧ y.state ≠ .train) then d1.refuseStart x 0x44 0 0 0
      else if y.state = .train then (d1.freeVersion v).doneAtStart x
      else (d1.versionLeaves v).doneAtStart x := by
  have hclean := Dev.starting_upsets h
  have hrun : d.deltaRetire q = _ := Dev.takeHead_starting h (by decide) _
  refine hrun.trans ?_
  dsimp only
  rw [Dev.readSlotMeta_clean hclean, Dev.readVersionMeta_clean hclean]
  rfl

/-- A version freed leaves its lineage, where it was the current one, without. -/
theorem Dev.freeVersion_current (d : Dev) (v : Nat) : tfind (d.freeVersion v).srv.current (d.version v).lineage ≠ some v := by
  obtain ⟨a, cur, hsrv, hcur⟩ := d.freeVersion_srv v
  rw [hsrv, hcur]
  dsimp only
  split
  · rw [tfind_tdel_self]
    simp
  next h => exact h

/-- What a LIVE version leaves behind. -/
theorem Dev.versionLeaves_parts (d : Dev) (v : Nat) :
    ((d.versionLeaves v).version v).state = (if (d.version v).refs = 0 then .free else .retiring)
      ∧ tfind (d.versionLeaves v).srv.current (d.version v).lineage ≠ some v
      ∧ (d.versionLeaves v).srv.entries = d.srv.entries
      ∧ (∀ u, u ≠ v → (d.versionLeaves v).version u = d.version u)
      ∧ d.onlyIn (d.versionLeaves v) [.srv] := by
  unfold Dev.versionLeaves
  dsimp only
  have hd1 : ∃ d1 : Dev, d1 = (if tfind d.srv.current (d.version v).lineage = some v then
      d.onSrv (fun t => { t with current := tdel t.current (d.version v).lineage }) else d)
      ∧ tfind d1.srv.current (d.version v).lineage ≠ some v ∧ d1.srv.entries = d.srv.entries ∧ (∀ u, d1.version u = d.version u)
      ∧ d.onlyIn d1 [.srv] := by
    refine ⟨_, rfl, ?_⟩
    split
    · exact ⟨by simp [Dev.onSrv, tfind_tdel_self], rfl, fun _ => rfl, .onSrv (d.onlyIn_refl _)⟩
    next h => exact ⟨h, rfl, fun _ => rfl, d.onlyIn_refl _⟩
  obtain ⟨d1, he, hcur, hentries, hversion, hframe⟩ := hd1
  rw [← he]
  split
  · obtain ⟨a, cur, hsrv, hcur'⟩ := d1.freeVersion_srv v
    refine ⟨by rw [Dev.freeVersion_version, if_pos rfl], ?_, by rw [hsrv]; exact hentries, fun u hu => ?_, .freeVersion hframe⟩
    · have h := d1.freeVersion_current v
      rwa [hversion] at h
    · rw [Dev.freeVersion_version, if_neg hu, hversion]
  · exact ⟨Dev.setVersion_state _ _ _, hcur, hentries, fun u hu => by rw [Dev.setVersion_version, if_neg hu, hversion], .setVersion hframe⟩

/-- Settles O18: DELTA_PUT by its check and mode, DELTA_RETIRE by the version's state. -/
theorem deltasComeAndGo : Obligations.DeltasComeAndGo := by
  unfold Obligations.DeltasComeAndGo
  refine ⟨fun s q r rest d1 x h hm => ?_, fun s q r rest d1 x h => ?_⟩
  · obtain rfl := Dev.starting_word h
    have hclean := Dev.starting_upsets h
    refine ⟨_, State.onDev_next (Dev.deltaPut_starting h), fun hc => ?_, fun hc hf => ?_, fun hc hf => ?_⟩
    · rw [if_pos hc]
      exact Dev.refuseStart_endsAtStart hclean x (d1.putCheck_lt _ _) 0 0 0
    · rw [if_neg (not_not.mpr hc), if_pos hf]
      obtain ⟨htrain, hlive⟩ := Dev.putCheck_freeze hc hf
      have hne : oldOf x.word ≠ some (bitsOf x.word 128 12) := fun ho => by
        have hl := hlive _ ho
        rw [htrain] at hl
        exact absurd hl (by decide)
      exact ⟨d1.goLive_live hne, d1.goLive_frame _ _, Dev.doneAtStart_ends ((d1.goLive_frame _ _ .upsets rfl).trans hclean) x⟩
    · rw [if_neg (not_not.mpr hc), if_neg hf]
      generalize (d1.fixedChannel x.part (d1.liveSect x.part) 3).getD 0 = k
      have hasks := fun y ps d2 (hd : d2 = d1.setVersion (bitsOf x.word 128 12) y) =>
        Dev.begin_asks_at (d := d2) (x := { x with slot := bitsOf x.word 128 12, engines := [⟨.dma, 4 * k + 3⟩] })
          (by rw [hd]; exact hm : d2.masters x.func = true) x.id ps
      obtain ⟨hbegun, hreads⟩ := hasks _ _ _ rfl
      exact ⟨Dev.setVersion_state _ _ _, hbegun, hreads⟩
  · intro v y hs hp hy
    obtain rfl := Dev.starting_word h
    have hclean := Dev.starting_upsets h
    have hrun := Dev.deltaRetire_starting h
    have hslot : ¬ (d1.slotState (bitsOf x.word 140 4) ≠ 2 ∨ d1.slotPart (bitsOf x.word 140 4) ≠ x.part) := by tauto
    dsimp only at hrun
    rw [if_neg hslot] at hrun
    by_cases htrain : y.state = .train
    · rw [if_neg (by tauto), if_pos htrain] at hrun
      have hframe : d1.onlyIn (d1.freeVersion v) [.srv] := .freeVersion (d1.onlyIn_refl _)
      obtain ⟨a, cur, hsrv, -⟩ := d1.freeVersion_srv v
      refine ⟨d1.freeVersion v, _, State.onDev_next hrun, fun _ => ?_, fun _ hn => absurd htrain hn⟩
      refine ⟨Dev.doneAtStart_ends ((hframe .upsets rfl).trans hclean) x, hframe, ?_, fun _ => d1.freeVersion_current v,
        by rw [hsrv], fun u hu => by rw [Dev.freeVersion_version, if_neg hu]⟩
      rw [Dev.freeVersion_version, if_pos rfl, if_neg (by rw [htrain]; simp)]
    · by_cases hlive : y.state = .live
      · rw [if_neg (by tauto), if_neg htrain] at hrun
        obtain ⟨hstate, hcur, hentries, hothers, hframe⟩ := d1.versionLeaves_parts v
        refine ⟨d1.versionLeaves v, _, State.onDev_next hrun, fun _ => ?_, fun hn => absurd hlive hn⟩
        refine ⟨Dev.doneAtStart_ends ((hframe .upsets rfl).trans hclean) x, hframe, ?_, fun _ => hcur, hentries, hothers⟩
        rw [hstate]
        simp [hlive, y]
      · rw [if_pos (.inr ⟨hlive, htrain⟩)] at hrun
        exact ⟨d1, _, State.onDev_next hrun, fun h => (h.elim hlive htrain).elim,
          fun _ _ => Dev.refuseStart_endsAtStart hclean x (by decide) 0 0 0⟩

end Sys2Proof.Machine
end

section
/-! # What parts the operations may change: PAGE_RETIRE (12 R346 to R351)

The lemma about an operation has its name, in the order of the definitions. -/

namespace Sys2Proof.Machine
-- These proofs are many and small: elaborated all at once they take more threads than the checker has.
set_option Elab.async false
namespace Dev.onlyIn
variable {d₀ d e : Dev} {C : List Comp}

theorem onGan (h₀ : d₀.onlyIn d C) {f : Gander → Gander} (sub : among [.gan] C := by rfl) : d₀.onlyIn (d.onGan f) C :=
  h₀.after (Dev.onGan_frame _ _) (among.sub sub)

theorem cfgAsk (h₀ : d₀.onlyIn d C) {x : CfgChange} {why : CfgCause} (sub : among [.gan] C := by rfl) : d₀.onlyIn (d.cfgAsk x
  why) C :=
  h₀.into sub fun _ hd => .onGan hd

end Dev.onlyIn
end Sys2Proof.Machine
end

section
/-! # PAGE_RETIRE (12 R346 to R351) -/

namespace Sys2Proof.Machine

theorem Dev.retireCheck_lt (d : Dev) (r : Rec) : d.retireCheck r < 256 := by
  unfold Dev.retireCheck
  dsimp only
  split_ifs
  all_goals decide

/-- What PAGE_RETIRE accepts names something there is. -/
theorem Dev.retireCheck_scope {d : Dev} {r : Rec} (h : d.retireCheck r = 0) : bitsOf r 128 3 < 7 := by
  have hlt : bitsOf r 128 3 < 8 := Nat.mod_lt _ (by decide)
  unfold Dev.retireCheck at h
  dsimp only at h
  split_ifs at h
  all_goals omega

theorem Dev.retireUnit_retired (d : Dev) (k : UnitKind) (i reason : Nat) (persisted : Bool) :
    (d.retireUnit ⟨k, i⟩ reason persisted).unitRetired k i = true := by
  rw [Dev.unitRetired, Dev.retireUnit, Dev.unit_setUnit_self]
  rfl

/-- A bit put in a register is there. -/
theorem bitOf_or_two_pow (v : W64) {k : Nat} (h : k < 64) : bitOf (v ||| BitVec.ofNat 64 (2 ^ k)) k = true := by
  rw [bitOf, BitVec.getLsbD_or, BitVec.getLsbD_ofNat, Nat.testBit_two_pow_self, decide_eq_true h, Bool.and_self, Bool.or_true]

/-- What was retired counts as retired. -/
theorem Dev.applyRetire_retires (d : Dev) {scope : Nat} (h : scope < 7) (a u reason : Nat) (persisted : Bool) :
    (d.applyRetire scope a u reason persisted).isRetired scope a u = true := by
  have hregion : ∀ f v sc, (((d.modStack (stackOf a) (fun s => { s with retired := s.retired ++ [regionOf sc a] })).putF
      (rCsRetireState (stackOf a)) f v).stackSt (stackOf a)).retired.contains (regionOf sc a) = true := fun f v sc => by
    have hs := d.stackSt_modStack (stackOf a) (fun s => { s with retired := s.retired ++ [regionOf sc a] })
    rw [show (((d.modStack (stackOf a) (fun s => { s with retired := s.retired ++ [regionOf sc a] })).putF
      (rCsRetireState (stackOf a)) f v).stackSt (stackOf a)) = _ from hs]
    simp
  have hunit : ∀ k i, (d.retireUnit ⟨k, i⟩ reason persisted).unitRetired k i = true := fun k i => d.retireUnit_retired k i _ _
  unfold Dev.isRetired
  dsimp only
  interval_cases scope
  · exact Bool.or_eq_true_iff.mpr (.inr (hregion _ _ 0))
  · exact Bool.or_eq_true_iff.mpr (.inr (hregion _ _ 1))
  · have hbank : bankOf a < 64 := (Nat.mod_lt _ (by decide : 48 > 0)).trans (by decide)
    have hreg : (d.applyRetire 2 a u reason persisted).reg (rCsRetireBank (stackOf a) (pcOf a))
        = d.reg (rCsRetireBank (stackOf a) (pcOf a)) ||| BitVec.ofNat 64 (2 ^ bankOf a) := Dev.reg_setReg_self _ _ _
    rw [hreg]
    exact Bool.or_eq_true_iff.mpr (.inr (bitOf_or_two_pow _ hbank))
  · exact hunit .stack _
  · exact hunit .tile u
  · exact hunit .dma u
  · exact hunit .sector u

/-- PAGE_RETIRE's meaning, once its head may start. -/
theorem Dev.pageRetire_starting {d d1 : Dev} {q : Nat} {r : Rec} {rest : List Rec} {x : Cmd} (h : d.starting d1 q 0x20 r rest x) :
    d.pageRetire q = if d1.retireCheck x.word ≠ 0 then d1.refuseStart x (d1.retireCheck x.word) 0 0 0
      else if d1.isRetired (bitsOf x.word 128 3) (bitsOf x.word 136 40) (bitsOf x.word 176 8) then d1.refuseStart x 0 0 0 0
      else
        let d2 := d1.applyRetire (bitsOf x.word 128 3) (bitsOf x.word 136 40) (bitsOf x.word 176 8) 4 (bitOf x.word 184)
        let y : Cmd := { x with nextSeq := d2.nextHenOp }
        if bitOf x.word 184 then (d2.begin_ { y with phase := .waiting }).cfgAsk (.retire ⟨bitsOf x.word 128 3, bitsOf x.word 136 40,
            retireUnitNo (bitsOf x.word 128 3) (bitsOf x.word 136 40) (bitsOf x.word 176 8), d2.time⟩) (.cmd x.id)
        else if d2.retireQuiet y then d2.refuseStart y 0 0 0 0
        else d2.begin_ { y with phase := .finished } :=
  Dev.takeHead_starting h (by decide) _

/-- A command that waits for a configuration write. -/
theorem Dev.begin_cfgAsk (d : Dev) (x : Cmd) (c : CfgChange) (why : CfgCause) :
    d.begun ((d.begin_ x).cfgAsk c why) x [.gan]
      ∧ ((d.begin_ x).cfgAsk c why).gan = { d.gan with cfgPend := d.gan.cfgPend ++ [(c, why)] } := by
  obtain ⟨hcq, hregs, hframe⟩ := d.begin_begun x
  have hgan : (d.begin_ x).gan = d.gan := hframe .gan rfl
  have hask : (d.begin_ x).onlyIn ((d.begin_ x).cfgAsk c why) [.gan] := .cfgAsk (Dev.onlyIn_refl _ _)
  exact ⟨⟨hcq, hregs, Dev.onlyIn.after (Dev.onlyIn_sub _ hframe rfl) hask rfl⟩, by rw [← hgan]; rfl⟩

/-- Settles O19, by the check, what is retired already, and PERSIST. -/
theorem pageRetireRetires : Obligations.PageRetireRetires := by
  unfold Obligations.PageRetireRetires
  intro s q r rest d1 x h sc a u code
  obtain rfl := Dev.starting_word h
  have hclean := Dev.starting_upsets h
  refine ⟨_, State.onDev_next (Dev.pageRetire_starting h), fun hc => ?_, fun hc hr => ?_, fun hc hr => ?_⟩
  · rw [if_pos hc]
    exact Dev.refuseStart_endsAtStart hclean x (d1.retireCheck_lt _) 0 0 0
  · rw [if_neg (not_not.mpr hc), if_pos hr]
    exact Dev.refuseStart_endsAtStart hclean x (by decide) 0 0 0
  · rw [if_neg (not_not.mpr hc), if_neg (by rw [hr]; decide)]
    have hframe := d1.applyRetire_frame sc a u 4 (bitOf x.word 184)
    have htime := hframe .time rfl
    have hupsets := (hframe .upsets rfl).trans hclean
    have hretired := d1.applyRetire_retires (Dev.retireCheck_scope hc) a u 4 (bitOf x.word 184)
    dsimp only
    generalize d1.applyRetire sc a u 4 (bitOf x.word 184) = d2 at hframe htime hupsets hretired ⊢
    refine ⟨hretired, hframe, fun hp hq => ?_, fun hp hq => ?_, fun hp => ?_⟩
    · rw [if_neg (by rw [hp]; decide), if_pos hq]
      exact Dev.refuseStart_endsAtStart hupsets _ (by decide) 0 0 0
    · rw [if_neg (by rw [hp]; decide), if_neg (by rw [hq]; decide)]
      exact d2.begin_begun _
    · rw [if_pos hp, ← htime]
      exact d2.begin_cfgAsk _ _ _

end Sys2Proof.Machine
end

section
/-! # Records and their ring (05 R147 to R149) -/

namespace Sys2Proof.Machine

/-- A record ready for ring 0. -/
def plainRecord : Ready := { group := some 0, ring := 0, irqNow := false, notOk := false, word := 0 }

/-- A device with ring 0 enabled and the link up whose host memory is not in canonical form: byte 5 is stored behind byte 100, where a
write of zero does not look for it. -/
def looseHost : State :=
  { dev := { regs := [(rHifLink, 0x400), (rCqRCfg 0, 1)], host := { cells := [(100, 1), (5, 7)] }
             hif := { fns := [(0, { busMaster := true })] }, cq := { ready := [plainRecord] } } }


theorem looseHost_keeps_byte : (looseHost.dev.completionRecordWrite 0).host.byte 5 = 7 := by decide

/-- Refutes O22: host memory out of canonical form (which no step brings about, by O59) keeps a byte that a record's zero byte was to
replace, so the record does not read back as written. -/
theorem not_recordsReachTheirRing : ¬ Obligations.RecordsReachTheirRing := by
  unfold Obligations.RecordsReachTheirRing
  intro h
  obtain ⟨hrecord, -⟩ := h
  obtain ⟨e, hexec, -, hgoes⟩ := hrecord looseHost 0 plainRecord (by decide) rfl rfl
  obtain ⟨-, -, -, -, -, -, hwritten⟩ := hgoes (by decide)
  obtain ⟨⟨hbytes, -, -⟩, -⟩ := hwritten (by decide) (by decide +kernel)
  have he : e = looseHost.dev.completionRecordWrite 0 := by
    have hrun : exec (.completionRecordWrite 0) looseHost = .next (looseHost.onDev (fun d => d.completionRecordWrite 0)) := rfl
    rw [hrun] at hexec
    injection hexec with hnext
    exact (congrArg State.dev hnext).symm
  have hbyte : e.host.byte 5 = 0 := congrArg (fun bs => bs.getD 5 0) hbytes
  rw [he, looseHost_keeps_byte] at hbyte
  exact absurd hbyte (by decide)

end Sys2Proof.Machine
end

section
/-! # Tokens are judged as they are handed over (08 R233 to R235) -/

namespace Sys2Proof.Machine

/-! ## A token handed over (08 R233 to R235) -/

/-- A request whose token was handed over goes from PREFILL to DECODE; what it owes stands. -/
theorem Dev.handedOver_parts {d : Dev} {i : Nat} (h : (d.entry i).cancelled = false) :
    ((d.handedOver i).entry i).state = (if (d.entry i).state = .prefill then .decode else (d.entry i).state)
      ∧ ((d.entry i).state = .prefill → ((d.handedOver i).entry i).fresh = true)
      ∧ ((d.handedOver i).entry i).outs = (d.entry i).outs ∧ ((d.handedOver i).entry i).deadline = (d.entry i).deadline
      ∧ ((d.handedOver i).entry i).cause = (d.entry i).cause ∧ (∀ j, j ≠ i → (d.handedOver i).entry j = d.entry j)
      ∧ d.onlyIn (d.handedOver i) [.srv] := by
  have hmod : ∀ f : Entry → Entry, (∀ j, j ≠ i → (d.modEntry i f).entry j = d.entry j) ∧ d.onlyIn (d.modEntry i f) [.srv] :=
    fun f => ⟨fun j hj => d.modEntry_entry_ne f hj, .modEntry (d.onlyIn_refl _)⟩
  unfold Dev.handedOver
  simp only [h, Bool.false_eq_true, false_and, if_false]
  by_cases hp : (d.entry i).state = .prefill
  · simp only [hp, if_true, Dev.modEntry_entry_self, implies_true, true_and]
    exact hmod _
  · simp only [hp, if_false]
    by_cases hb : (d.entry i).state = .held ∧ (d.entry i).before = .prefill
    · rw [if_pos hb, Dev.modEntry_entry_self]
      exact ⟨rfl, False.elim, rfl, rfl, rfl, hmod _⟩
    · rw [if_neg hb]
      exact ⟨rfl, False.elim, rfl, rfl, rfl, fun _ _ => rfl, d.onlyIn_refl _⟩

/-- A late token counted. -/
def Dev.lateCounted (d : Dev) (p ns : Nat) : Dev :=
  let d := d.addF (rSrvLate p) fSrvLate_Late 1
  let d := d.putF (rSrvLateMax p) fSrvLateMax_Max (max (d.getF (rSrvLateMax p) fSrvLateMax_Max) (min ns (2 ^ 31 - 1)))
  d.raise (pgSrv 0) (2 ^ p)

theorem srvPage_quiet {a : Nat} (h : 0xC00100 ≤ a ∧ a < 0xC01000) : (raiseRegs (pgSrv 0)).contains a = false := by
  simp [rBlkIntStat, pgSrv, rHifTxDrop, pgHif]
  omega

theorem Dev.lateCounted_parts (d : Dev) {p : Nat} (hp : p < 6) (ns : Nat) :
    (d.lateCounted p ns).event (pgSrv 0) p = true
      ∧ (d.lateCounted p ns).getF (rSrvLate p) fSrvLate_Late = min (2 ^ 32 - 1) (d.getF (rSrvLate p) fSrvLate_Late + 1)
      ∧ (d.lateCounted p ns).getF (rSrvLateMax p) fSrvLateMax_Max = max (d.getF (rSrvLateMax p) fSrvLateMax_Max) (min ns (2 ^ 31 - 1))
      ∧ d.onlyIn (d.lateCounted p ns) [.regs, .hif] := by
  have hne : rSrvLate p ≠ rSrvLateMax p := by simp [rSrvLate, rSrvLateMax]
  have hlate : (raiseRegs (pgSrv 0)).contains (rSrvLate p) = false := srvPage_quiet (by simp [rSrvLate]; omega)
  have hmax : (raiseRegs (pgSrv 0)).contains (rSrvLateMax p) = false := srvPage_quiet (by simp [rSrvLateMax]; omega)
  have hlt : d.getF (rSrvLateMax p) fSrvLateMax_Max < 2 ^ 31 := Nat.mod_lt _ (Nat.two_pow_pos _)
  have hother : (d.addF (rSrvLate p) fSrvLate_Late 1).getF (rSrvLateMax p) fSrvLateMax_Max = d.getF (rSrvLateMax p) fSrvLateMax_Max :=
    d.getF_putF_ne _ _ _ hne.symm
  refine ⟨Dev.raise_sets _ (by decide) (Nat.testBit_two_pow_self) (by omega), ?_, ?_, .raise (.putF (.addF (d.onlyIn_refl _)))⟩
  · rw [Dev.lateCounted, Dev.getF_of_regsBut (Dev.raise_regsBut _ _ _) hlate, Dev.getF_putF_ne _ _ _ _ hne]
    exact d.getF_addF_one _ _ (by decide)
  · rw [Dev.lateCounted, Dev.getF_of_regsBut (Dev.raise_regsBut _ _ _) hmax, Dev.getF_putF_self _ _ _ _ (by decide), hother]
    exact Nat.mod_eq_of_lt (by have : fSrvLateMax_Max.len = 31 := rfl; rw [this]; omega)

/-- Giving back the prefill charge leaves what a token is judged by, and the counts of late tokens. -/
theorem Dev.releasePf_parts (d : Dev) (i : Nat) :
    (∃ b, (d.releasePf i).entry i = { d.entry i with pfHeld := b }) ∧ (∀ j, j ≠ i → (d.releasePf i).entry j = d.entry j)
      ∧ d.regsBut (d.releasePf i) [rSrvPfPend (d.entry i).part] ∧ d.onlyIn (d.releasePf i) [.srv, .regs] := by
  unfold Dev.releasePf
  dsimp only
  split
  · exact ⟨⟨_, rfl⟩, fun _ _ => rfl, d.regsBut_refl _, d.onlyIn_refl _⟩
  · refine ⟨⟨false, Dev.modEntry_entry_self _ _ _⟩, fun j hj => Dev.modEntry_entry_ne _ _ hj, d.regsBut_setReg _ _,
      .modEntry (.setReg (d.onlyIn_refl _))⟩

/-- What a request is after its token was judged: its causes are forgotten, and its grid goes on at `next`. -/
def Entry.judged (x : Entry) (cause next : Nat) (b : Bool) : Entry := { x with pfHeld := b, causes := [], cause := cause, deadline := next }

/-- A token judged as it is handed over. -/
theorem Dev.judge_parts (d : Dev) (i : Nat) (t : TokenOut) (hpart : (d.entry i).part < 6) :
    let x := d.entry i
    let late : Prop := x.deadline < d.time
    let cause := if late then x.causes.foldl min 8 else 0
    let e := (d.judge i t false).1
    (d.judge i t false).2 = requestWord (if late then 1 else 0) t.aflags cause (x.finalToken t) x.seq i t.token d.time t.index (d.time - x.deadline)
      ∧ (∃ b, e.entry i = x.judged (if late then cause else x.cause)
          (if late then d.time + 2 * d.cadence x.part else x.deadline + d.cadence x.part) b)
      ∧ (∀ j, j ≠ i → e.entry j = d.entry j) ∧ d.onlyIn e [.srv, .regs, .hif]
      ∧ (late → e.event (pgSrv 0) x.part = true
          ∧ e.getF (rSrvLate x.part) fSrvLate_Late = min (2 ^ 32 - 1) (d.getF (rSrvLate x.part) fSrvLate_Late + 1)
          ∧ e.getF (rSrvLateMax x.part) fSrvLateMax_Max = max (d.getF (rSrvLateMax x.part) fSrvLateMax_Max) (min (d.time - x.deadline) (2 ^ 31 - 1))) := by
  intro x late cause e
  obtain ⟨d1, hd1, ⟨b, hentry⟩, hothers, hregs, hframe⟩ : ∃ d1 : Dev, d1 = (if t.index = 1 then d.releasePf i else d)
      ∧ (∃ b, d1.entry i = { x with pfHeld := b }) ∧ (∀ j, j ≠ i → d1.entry j = d.entry j)
      ∧ d.regsBut d1 [rSrvPfPend x.part] ∧ d.onlyIn d1 [.srv, .regs] := by
    refine ⟨_, rfl, ?_⟩
    split
    · exact d.releasePf_parts i
    · exact ⟨⟨_, rfl⟩, fun _ _ => rfl, d.regsBut_refl _, d.onlyIn_refl _⟩
  have htime : d1.time = d.time := hframe .time rfl
  obtain ⟨d2, hjudge, hentry2, hothers2, hregs2, hframe2⟩ : ∃ d2 : Dev, d.judge i t false
        = (if late then d2.lateCounted x.part (d.time - x.deadline) else d2,
          requestWord (if late then 1 else 0) t.aflags cause (x.finalToken t) x.seq i t.token d.time t.index (d.time - x.deadline))
      ∧ d2.entry i = x.judged (if late then cause else x.cause) (if late then d.time + 2 * d.cadence x.part else x.deadline + d.cadence x.part) b
      ∧ (∀ j, j ≠ i → d2.entry j = d.entry j) ∧ d.regsBut d2 [rSrvPfPend x.part] ∧ d.onlyIn d2 [.srv, .regs] := by
    refine ⟨d1.modEntry i (fun y => y.judged (if late then cause else y.cause) (if late then d1.time + 2 * d.cadence x.part else y.deadline + d.cadence x.part) y.pfHeld), ?_, ?_, ?_, hregs, .modEntry hframe⟩
    · unfold Dev.judge
      rw [← hd1]
      by_cases hl : (d.entry i).deadline < d.time
      · simp only [x, late, cause, hl, if_true, true_or]
        rfl
      · simp only [x, late, cause, hl, if_false, false_or]
        rfl
    · rw [Dev.modEntry_entry_self, hentry, htime]
      rfl
    · exact fun j hj => (Dev.modEntry_entry_ne _ _ hj).trans (hothers j hj)
  have hquiet : ∀ a, a = rSrvLate x.part ∨ a = rSrvLateMax x.part → [rSrvPfPend x.part].contains a = false := fun a ha => by
    rcases ha with rfl | rfl <;> simp [rSrvPfPend, rSrvLate, rSrvLateMax]
  obtain ⟨hevent, hcount, hmax, hlframe⟩ := d2.lateCounted_parts hpart (d.time - x.deadline)
  rw [Dev.getF_of_regsBut hregs2 (hquiet _ (.inl rfl))] at hcount
  rw [Dev.getF_of_regsBut hregs2 (hquiet _ (.inr rfl))] at hmax
  have he : e = if late then d2.lateCounted x.part (d.time - x.deadline) else d2 := by rw [show e = (d.judge i t false).1 from rfl, hjudge]
  have hsrv : e.srv = d2.srv := by
    rw [he]
    split
    · exact hlframe .srv rfl
    · rfl
  have hentries : ∀ j, e.entry j = d2.entry j := fun j => by rw [Dev.entry, hsrv, Dev.entry]
  refine ⟨by rw [hjudge], ⟨b, (hentries i).trans hentry2⟩, fun j hj => (hentries j).trans (hothers2 j hj), ?_, fun hl => ?_⟩
  · rw [he]
    split
    · exact Dev.onlyIn.after (Dev.onlyIn_sub _ hframe2 rfl) hlframe rfl
    · exact Dev.onlyIn_sub _ hframe2 rfl
  · rw [he, if_pos hl]
    exact ⟨hevent, hcount, hmax⟩

/-- The record of a token, before it is judged. -/
def Dev.tokenRecord (d : Dev) (i : Nat) (t : TokenOut) : Ready :=
  { group := none, ring := (d.entry i).ring, irqNow := false, notOk := false, word := 0, entry := some i,
    final := (d.entry i).finalToken t, tok := some t }

/-- Device `d` with record `w` ready, the first token of request `i` gone. -/
def Dev.tokenQueued (d : Dev) (i : Nat) (w : Ready) (fin : Bool) (rest : List TokenOut) : Dev :=
  ({ d with cq := { d.cq with ready := d.cq.ready ++ [w] } }).modEntry i (fun x => { x with
    outs := if fin then [] else rest
    state := if fin then .closing else x.state })

theorem Dev.tokenQueued_frame (d : Dev) (i : Nat) (w : Ready) (fin : Bool) (rest : List TokenOut) : d.onlyIn (d.tokenQueued i w fin rest) [.cq, .srv] :=
  .modEntry (.set_cq (d.onlyIn_refl _))

theorem Dev.tokenHandover_shut {d : Dev} {i : Nat} {t : TokenOut} {rest : List TokenOut} (h : (d.entry i).outs = t :: rest)
    (hshut : d.ringOpen (d.entry i).ring = false) :
    d.tokenHandover i = d.tokenQueued i (d.tokenRecord i t) ((d.entry i).finalToken t) rest := by
  unfold Dev.tokenHandover
  simp only [h, hshut]
  rfl

theorem Dev.tokenHandover_open {d : Dev} {i : Nat} {t : TokenOut} {rest : List TokenOut} (h : (d.entry i).outs = t :: rest)
    (hopen : d.ringOpen (d.entry i).ring = true) :
    d.tokenHandover i = ((d.judge i t false).1.tokenQueued i
      { d.tokenRecord i t with word := (d.judge i t false).2, tok := none, notOk := bitsOf (d.judge i t false).2 8 8 != 0 }
      ((d.entry i).finalToken t) rest).handedOver i := by
  unfold Dev.tokenHandover
  simp only [h, hopen]
  rfl

theorem Dev.event_of_regs {d e : Dev} (h : e.regs = d.regs) (page i : Nat) : e.event page i = d.event page i := by
  rw [Dev.event, Dev.reg_congr h, Dev.event]

theorem Dev.getF_of_regs {d e : Dev} (h : e.regs = d.regs) (a : Nat) (f : Fld) : e.getF a f = d.getF a f := by
  rw [Dev.getF, Dev.reg_congr h, Dev.getF]

/-- Settles O26: the token judged, queued and handed over where its ring has room, and queued only where it has none. -/
theorem tokenHandoverIsJudged : Obligations.TokenHandoverIsJudged := by
  unfold Obligations.TokenHandoverIsJudged
  intro s i t rest d x houts hpart hcancel fin late cause word state
  cases hopen : d.ringOpen x.ring with
  | false =>
    have hq := d.tokenQueued_frame i (d.tokenRecord i t) fin rest
    refine ⟨_, _, State.onDev_next (Dev.tokenHandover_shut houts hopen), rfl, rfl, rfl, rfl, ?_, ?_, fun j hj => Dev.modEntry_entry_ne _ _ hj,
      fun _ => ⟨rfl, ?_, hq⟩, fun _ ho => absurd ho (by decide), fun ho => absurd ho (by decide)⟩
    all_goals rw [Dev.tokenQueued, Dev.modEntry_entry_self]
    · simp only [state, hopen, Bool.false_eq_true, false_and, if_false]
      rfl
    · rfl
  | true =>
    obtain ⟨hword, ⟨b, hentry⟩, hothers, hframe, hlate⟩ := d.judge_parts i t hpart
    have hrun := Dev.tokenHandover_open houts hopen
    generalize (d.judge i t false).2 = wd at hword hrun
    generalize (d.judge i t false).1 = d1 at hentry hothers hframe hlate hrun
    generalize hw : ({ d.tokenRecord i t with word := wd, tok := none, notOk := bitsOf wd 8 8 != 0 } : Ready) = w at hrun
    have hq := d1.tokenQueued_frame i w fin rest
    have hready : (d1.tokenQueued i w fin rest).cq.ready = d.cq.ready ++ [w] := by
      rw [show (d1.tokenQueued i w fin rest).cq.ready = d1.cq.ready ++ [w] from rfl, show d1.cq = d.cq from hframe .cq rfl]
    have hself : (d1.tokenQueued i w fin rest).entry i = _ := Dev.modEntry_entry_self _ _ _
    have hother : ∀ j : Nat, j ≠ i.val → (d1.tokenQueued i w fin rest).entry j = d.entry j := fun j hj =>
      (Dev.modEntry_entry_ne _ _ hj).trans (hothers j hj)
    rw [show ∀ q, ({ d1 with cq := q } : Dev).entry i = d1.entry i from fun _ => rfl, hentry] at hself
    generalize d1.tokenQueued i w fin rest = d2 at hq hready hself hother hrun
    obtain ⟨hstate, hfresh, houts2, hdeadline, hcause, hothers2, hframe2⟩ := Dev.handedOver_parts (d := d2) (i := i) (by rw [hself]; exact hcancel)
    have hregs : (d2.handedOver i).regs = d1.regs := (hframe2 .regs rfl).trans (hq .regs rfl)
    have hcq : (d2.handedOver i).cq = d2.cq := hframe2 .cq rfl
    refine ⟨w, _, State.onDev_next hrun, by rw [hcq, hready], ?_⟩
    subst hw
    refine ⟨rfl, rfl, rfl, ?_, ?_, fun j hj => (hothers2 j hj).trans (hother j hj), fun ho => absurd ho (by decide), fun hf _ hp => ?_, fun _ => ⟨?_, rfl, ?_, ?_, fun hl => ?_⟩⟩
    · rw [hstate, hself]
      cases hf : fin with
      | true => simp [state, hf]
      | false =>
        simp only [state, hf, hopen, Bool.false_eq_true, if_false, true_and]
        rfl
    · rw [houts2, hself]
    · exact hfresh (by rw [hself, hf]; exact hp)
    · exact hword
    · exact Dev.onlyIn.after (Dev.onlyIn.after (Dev.onlyIn_sub _ hframe rfl) hq rfl) hframe2 rfl
    · rw [hdeadline, hself]
      rfl
    · obtain ⟨hevent, hcount, hmax⟩ := hlate hl
      refine ⟨?_, (Dev.event_of_regs hregs _ _).trans hevent, ?_, ?_⟩
      · rw [hcause, hself]
        exact if_pos hl
      · exact (Dev.getF_of_regs hregs _ _).trans hcount
      · exact (Dev.getF_of_regs hregs _ _).trans hmax

end Sys2Proof.Machine
end

section
/-! # What parts the operations may change: The submission window answers (08 R218 to R231)

The lemma about an operation has its name, in the order of the definitions. -/

namespace Sys2Proof.Machine
-- These proofs are many and small: elaborated all at once they take more threads than the checker has.
set_option Elab.async false
namespace Dev.onlyIn
variable {d₀ d e : Dev} {C : List Comp}

theorem setAnswer (h₀ : d₀.onlyIn d C) {f k : Nat} {a : Answer} (sub : among [.srv] C := by rfl) : d₀.onlyIn (d.setAnswer f k a)
  C :=
  h₀.into sub fun _ hd => .onSrv hd

theorem refuseSub (h₀ : d₀.onlyIn d C) {f k : Nat} {p : Option Nat} {a : Answer} (sub : among [.regs, .srv] C := by rfl) :
  d₀.onlyIn (d.refuseSub f k p a) C :=
  h₀.into sub fun _ hd => .setAnswer (.setReg (.setReg (.addF hd)))

end Dev.onlyIn
end Sys2Proof.Machine
end

section
/-! # The submission window answers (08 R218 to R231) -/

namespace Sys2Proof.Machine

/-! ## The submission window (08 R218 to R231) -/

/-- A submission that reaches an active device is answered, and wakes nothing. -/
theorem Dev.windowWrite_submission {d e : Dev} {f off : Nat} {data : List Byte} (h : isSubmission off data = true)
    (he : e = if bitsOf (recOf data) 0 4 = 1 ∧ bitsOf (recOf data) 4 4 = 1 then d.cancelReq f ((off - 0x80_0000) / 0x100) (recOf data)
      else d.admitReq f ((off - 0x80_0000) / 0x100) (recOf data)) (hp : e.pstate = 0) : d.windowWrite f off data = e := by
  have hwindow : (decide (0x80_0000 ≤ off) && decide (off < 0x81_0000)) = true := by
    unfold isSubmission at h
    simp only [Bool.and_eq_true] at h ⊢
    exact h.1.1
  unfold Dev.windowWrite
  simp only [hwindow, h, Bool.not_true, Bool.false_eq_true, if_false, ← he, Dev.wakeSource_active hp, ite_self]

theorem Dev.pstate_of_regs {d e : Dev} (h : e.regs = d.regs) : e.pstate = d.pstate := Dev.getF_of_regs h _ _

/-! ### Refusals (R230) -/

/-- A SUBMIT refused: answered so and counted, and no request changes. -/
theorem Dev.refuseSub_parts (d : Dev) (f k : Nat) (p : Option Nat) (a : Answer) (hreason : a.reason < 256) :
    let e := d.refuseSub f k p a
    tget e.srv.answers {} (256 * f + k) = { a with answer := 2 } ∧ e.srv.entries = d.srv.entries
      ∧ e.getF (rSrvRefuse (p.getD 0)) fSrvRefuse_Refuse = min (2 ^ 32 - 1) (d.getF (rSrvRefuse (p.getD 0)) fSrvRefuse_Refuse + 1)
      ∧ e.getF (rSrvLastRefuse (p.getD 0)) fSrvLastRefuse_Reason = a.reason
      ∧ e.getF (rSrvLastSeq (p.getD 0)) fSrvLastSeq_Seq = a.seq.toNat
      ∧ d.regsBut e [rSrvRefuse (p.getD 0), rSrvLastRefuse (p.getD 0), rSrvLastSeq (p.getD 0)] ∧ d.onlyIn e [.srv, .regs] := by
  generalize hn : p.getD 0 = n
  have h1 : rSrvRefuse n ≠ rSrvLastRefuse n := by simp [rSrvRefuse, rSrvLastRefuse]
  have h2 : rSrvRefuse n ≠ rSrvLastSeq n := by simp [rSrvRefuse, rSrvLastSeq]
  have h3 : rSrvLastRefuse n ≠ rSrvLastSeq n := by simp [rSrvLastRefuse, rSrvLastSeq]
  have hregs : (d.refuseSub f k p a).regs = (((d.addF (rSrvRefuse n) fSrvRefuse_Refuse 1).setReg (rSrvLastRefuse n) (BitVec.ofNat 64 a.reason)).setReg
      (rSrvLastSeq n) (BitVec.ofNat 64 a.seq.toNat)).regs := by
    rw [← hn]
    rfl
  refine ⟨tget_tset_self _ _ _ _, rfl, ?_, ?_, ?_, ?_, .refuseSub (d.onlyIn_refl _)⟩
  · rw [Dev.getF_of_regs hregs, Dev.getF, Dev.reg_setReg_ne _ _ h2, Dev.reg_setReg_ne _ _ h1]
    exact d.getF_addF_one _ _ (by decide)
  · rw [Dev.getF_of_regs hregs, Dev.getF, Dev.reg_setReg_ne _ _ h3, Dev.reg_setReg_self]
    exact fld_ofNat_low hreason (by decide)
  · rw [Dev.getF_of_regs hregs, Dev.getF, Dev.reg_setReg_self]
    exact fld_ofNat_low a.seq.isLt (by decide)
  · refine Dev.regsBut_trans (e := (((d.addF (rSrvRefuse n) fSrvRefuse_Refuse 1).setReg (rSrvLastRefuse n) (BitVec.ofNat 64 a.reason)).setReg
      (rSrvLastSeq n) (BitVec.ofNat 64 a.seq.toNat))) ?_ (fun b _ => Dev.reg_congr hregs b)
    exact Dev.regsBut_setReg_mem (Dev.regsBut_setReg_mem (Dev.regsBut_mono (d.regsBut_putF _ _ _) (by simp)) (by simp) _) (by simp) _

/-! ### Acceptance (R224) -/

/-- What SUBMIT's charges do to the registers of its partition. -/
def Dev.chargedFor (d : Dev) (p : Nat) (c : Charge) : Dev :=
  let d := d.putF (rSrvLoad p) fSrvLoad_Load (d.getF (rSrvLoad p) fSrvLoad_Load + c.dec + c.base)
  let d := d.setReg (rSrvPfPend p) (d.reg (rSrvPfPend p) + BitVec.ofNat 64 c.pf)
  d.putF (rSrvPoolFree p) fSrvPoolFree_Free (d.getF (rSrvPoolFree p) fSrvPoolFree_Free - c.pages)

theorem Dev.chargedFor_parts (d : Dev) (p : Nat) (c : Charge) :
    (d.chargedFor p c).getF (rSrvLoad p) fSrvLoad_Load = (d.getF (rSrvLoad p) fSrvLoad_Load + (c.dec + c.base)) % 2 ^ 32
      ∧ (d.chargedFor p c).getF (rSrvPoolFree p) fSrvPoolFree_Free = (d.getF (rSrvPoolFree p) fSrvPoolFree_Free - c.pages) % 2 ^ 27
      ∧ (d.chargedFor p c).reg (rSrvPfPend p) = d.reg (rSrvPfPend p) + BitVec.ofNat 64 c.pf
      ∧ d.regsBut (d.chargedFor p c) [rSrvLoad p, rSrvPfPend p, rSrvPoolFree p] := by
  have h1 : rSrvLoad p ≠ rSrvPfPend p := by simp [rSrvLoad, rSrvPfPend]
  have h2 : rSrvLoad p ≠ rSrvPoolFree p := by simp [rSrvLoad, rSrvPoolFree]
  have h3 : rSrvPfPend p ≠ rSrvPoolFree p := by simp [rSrvPfPend, rSrvPoolFree]
  refine ⟨?_, ?_, ?_, ?_⟩
  · rw [Dev.chargedFor, Dev.getF_putF_ne _ _ _ _ h2, Dev.getF, Dev.reg_setReg_ne _ _ h1, ← Dev.getF, Dev.getF_putF_self _ _ _ _ (by decide),
      Nat.add_assoc]
    rfl
  · rw [Dev.chargedFor, Dev.getF_putF_self _ _ _ _ (by decide), Dev.getF, Dev.reg_setReg_ne _ _ h3.symm, ← Dev.getF,
      Dev.getF_putF_ne _ _ _ _ h2.symm]
    rfl
  · rw [Dev.chargedFor, Dev.reg_putF_ne _ _ _ h3, Dev.reg_setReg_self, Dev.reg_putF_ne _ _ _ h1.symm]
  · exact Dev.regsBut_trans (Dev.regsBut_setReg_mem (Dev.regsBut_mono (d.regsBut_putF _ _ _) (by simp)) (by simp) _)
      (Dev.regsBut_mono (Dev.regsBut_putF _ _ _ _) (by simp))

/-- The requests and versions of an accepted SUBMIT. -/
def Dev.requestEntered (d : Dev) (i p : Nat) (x : Entry) : Dev :=
  let d := d.onSrv (fun s => { s with entries := tset s.entries i x, accepts := s.accepts + 1, rotation := tmod s.rotation 0 p (· + 1) })
  if x.deltaEn then d.setVersion x.delta { d.version x.delta with refs := (d.version x.delta).refs + 1 } else d

theorem Dev.requestEntered_parts (d : Dev) (i p : Nat) (x : Entry) :
    (d.requestEntered i p x).entry i = x ∧ (∀ j, j ≠ i → (d.requestEntered i p x).entry j = d.entry j) ∧ d.onlyIn (d.requestEntered i p x) [.srv] := by
  have hentries : (d.requestEntered i p x).srv.entries = tset d.srv.entries i x := by
    unfold Dev.requestEntered
    dsimp only
    split <;> rfl
  have hframe : d.onlyIn (d.requestEntered i p x) [.srv] := by
    unfold Dev.requestEntered
    exact .ite (.setVersion (.onSrv (d.onlyIn_refl _))) (.onSrv (d.onlyIn_refl _))
  refine ⟨by rw [Dev.entry, hentries, tget_tset_self], fun j hj => by rw [Dev.entry, hentries, tget_tset_ne _ _ _ hj, Dev.entry], hframe⟩

/-- The read of a piece of a token list. -/
def Entry.tokenRead (x : Entry) (i : Nat) (g : Nat × Nat) : OutRead :=
  { func := x.func, addr := g.2, len := 64, purpose := .tokens i, vaddr := g.1, handle := 0, sentAt := 0 }

theorem Dev.foldl_sendRead (ps : List (Nat × Nat)) {d : Dev} {x : Entry} (hm : d.masters x.func = true) (i : Nat) :
    ∃ rs, ps.foldl (fun d g => d.sendRead none (x.tokenRead i g)) d
        = { d with hif := { d.hif with reads := d.hif.reads ++ rs } } := by
  induction ps generalizing d with
  | nil => exact ⟨[], by rw [List.append_nil]; rfl⟩
  | cons g ps ih =>
    have hsend : d.sendRead none (x.tokenRead i g)
        = { d with hif := { d.hif with reads := d.hif.reads
            ++ [{ x.tokenRead i g with sentAt := d.time }] } } := by
      simp [Dev.sendRead, Entry.tokenRead, hm]
    rw [List.foldl_cons, hsend]
    obtain ⟨rs, hrs⟩ := ih (d := { d with hif := { d.hif with reads := d.hif.reads
      ++ [{ x.tokenRead i g with sentAt := d.time }] } }) hm
    exact ⟨_ :: rs, by rw [hrs, List.append_assoc]; rfl⟩

/-- The reads of a request's token list, sent one after the other. -/
def Dev.readTokens (d : Dev) (i : Nat) : Dev :=
  (d.hostPieces (dmaOf (d.entry i).part (d.entry i).ctx (d.entry i).home) (d.entry i).pkey (d.entry i).tokensVa (4 * (d.entry i).plen)).foldl
    (fun d' g => d'.sendRead none ((d.entry i).tokenRead i g)) d

theorem Dev.askTokens_eq (d : Dev) (i : Nat) : d.askTokens i =
    if (d.hostPieces (dmaOf (d.entry i).part (d.entry i).ctx (d.entry i).home) (d.entry i).pkey (d.entry i).tokensVa (4 * (d.entry i).plen)).isEmpty
      ∨ d.masters (d.entry i).func then d.readTokens i else (d.readTokens i).abortEntry i 3 := rfl

/-- The token list of a request is asked for. -/
theorem Dev.askTokens_asks {d : Dev} {i : Nat} (hm : d.masters (d.entry i).func = true) :
    ∃ rs, d.askTokens i = { d with hif := { d.hif with reads := d.hif.reads ++ rs } } := by
  obtain ⟨rs, hrs⟩ := Dev.foldl_sendRead (d.hostPieces (dmaOf (d.entry i).part (d.entry i).ctx (d.entry i).home) (d.entry i).pkey
    (d.entry i).tokensVa (4 * (d.entry i).plen)) hm i
  exact ⟨rs, by rw [Dev.askTokens_eq, if_pos (.inr hm)]; exact hrs⟩

/-- An accepted SUBMIT before its token list is asked for. -/
def Dev.accepted (d : Dev) (p i : Nat) (x : Entry) (c : Charge) : Dev :=
  (((d.chargedFor p c).requestEntered i p x).addF (rSrvAccept p) fSrvAccept_Accept 1).setReg (rSrvSlotLru x.slot) (BitVec.ofNat 64 d.time)

theorem Dev.accepted_time (d : Dev) (p i : Nat) (x : Entry) (c : Charge) : ((d.chargedFor p c).requestEntered i p x).time = d.time :=
  ((d.chargedFor p c).requestEntered_parts i p x).2.2 .time rfl

theorem Dev.accepted_parts (d : Dev) {p i : Nat} {x : Entry} (hp : p < 6) (hx : x.slot < 16) (c : Charge) :
    (d.accepted p i x c).entry i = x ∧ (∀ j, j ≠ i → (d.accepted p i x c).entry j = d.entry j)
      ∧ (d.accepted p i x c).getF (rSrvLoad p) fSrvLoad_Load = (d.getF (rSrvLoad p) fSrvLoad_Load + (c.dec + c.base)) % 2 ^ 32
      ∧ (d.accepted p i x c).getF (rSrvPoolFree p) fSrvPoolFree_Free = (d.getF (rSrvPoolFree p) fSrvPoolFree_Free - c.pages) % 2 ^ 27
      ∧ (d.accepted p i x c).reg (rSrvPfPend p) = d.reg (rSrvPfPend p) + BitVec.ofNat 64 c.pf
      ∧ (d.accepted p i x c).cadence p = d.cadence p ∧ (d.accepted p i x c).pstate = d.pstate
      ∧ d.onlyIn (d.accepted p i x c) [.srv, .regs] := by
  obtain ⟨hload, hpool, hpend, hregs⟩ := d.chargedFor_parts p c
  obtain ⟨hself, hothers, hframe⟩ := (d.chargedFor p c).requestEntered_parts i p x
  have hlate : (d.chargedFor p c).regsBut (d.accepted p i x c) [rSrvAccept p, rSrvSlotLru x.slot] :=
    Dev.regsBut_trans (Dev.regsBut_of_onlyIn hframe rfl _) (Dev.regsBut_setReg_mem (Dev.regsBut_mono (Dev.regsBut_putF _ _ _ _) (by simp)) (by simp) _)
  have hquiet : ∀ b, 0xC00100 + 0x80 * p ≤ b → b < 0xC00100 + 0x80 * p + 0x3c → [rSrvAccept p, rSrvSlotLru x.slot].contains b = false := fun b h1 h2 => by
    simp [rSrvAccept, rSrvSlotLru]
    omega
  have hadm : ∀ b, b = rSrvAdmDecCap p ∨ b = rSrvAdmPfSlice p ∨ b = rSrvAdmBeat p → (d.accepted p i x c).reg b = d.reg b := fun b hb => by
    have hrange : 0xC00100 + 0x80 * p ≤ b ∧ b < 0xC00100 + 0x80 * p + 0x28 := by
      rcases hb with rfl | rfl | rfl <;> simp [rSrvAdmDecCap, rSrvAdmPfSlice, rSrvAdmBeat]
    refine (hlate b (hquiet b hrange.1 (by omega))).trans (hregs b ?_)
    simp [rSrvLoad, rSrvPfPend, rSrvPoolFree]
    omega
  refine ⟨hself, hothers, ?_, ?_, ?_, ?_, ?_, ?_⟩
  · rw [Dev.getF_of_regsBut hlate (hquiet _ (by simp [rSrvLoad]) (by simp [rSrvLoad])), hload]
  · rw [Dev.getF_of_regsBut hlate (hquiet _ (by simp [rSrvPoolFree]) (by simp [rSrvPoolFree])), hpool]
  · rw [hlate _ (hquiet _ (by simp [rSrvPfPend]) (by simp [rSrvPfPend])), hpend]
  · simp only [Dev.cadence, Dev.getF, hadm _ (.inl rfl), hadm _ (.inr (.inl rfl)), hadm _ (.inr (.inr rfl))]
    rfl
  · have hstate : (d.accepted p i x c).reg rPwrState = d.reg rPwrState := (hlate _ (by simp [rPwrState, rSrvAccept, rSrvSlotLru]; omega)).trans
      (hregs _ (by simp [rPwrState, rSrvLoad, rSrvPfPend, rSrvPoolFree]; omega))
    rw [Dev.pstate, Dev.getF, hstate]
    rfl
  · exact .setReg (.addF (Dev.onlyIn.after (.putF (.setReg (.putF (d.onlyIn_refl _)))) hframe rfl))

theorem Dev.accept_takes {d : Dev} {f k p i : Nat} {r : Rec} {c : Charge} {a : Answer} (hi : d.freeIndex p = some i) :
    d.accept f k p r c a = ((d.accepted p i (d.newEntry f p i r c) c).setAnswer f k
      { a with answer := 1, entry := i, first := c.first, cadence := (d.accepted p i (d.newEntry f p i r c) c).cadence p }).askTokens i := by
  unfold Dev.accept
  rw [hi]
  have ht := d.accepted_time p i (d.newEntry f p i r c) c
  unfold Dev.accepted
  rw [← ht]
  rfl

/-! ### Cancelling (R231) -/

/-- The low byte and status of a request record. -/
theorem requestWord_status (status : Nat) (h : status < 256) (aflags : Byte) (cause : Nat) (final : Bool) (seq : W32) (e : Nat) (token : W32)
    (time index late : Nat) : bitsOf (requestWord status aflags cause final seq e token time index late) 8 8 = status := by
  rw [bitsOf, requestWord, BitVec.toNat_ofNat, Nat.shiftRight_eq_div_pow]
  simp only [atBit, Nat.shiftLeft_eq]
  generalize aflags.toNat = a, seq.toNat = b, token.toNat = c, time % 2 ^ 64 = t, index % 2 ^ 24 = n, min late (2 ^ 32 - 1) = l,
    (if final = true then 1 else 0) = f
  omega

/-- A request that owes nothing is closed, with a final record. -/
theorem Dev.closeWith_parts (d : Dev) (i status cause : Nat) (h : status < 256) :
    (∃ w : Ready, (d.closeWith i status cause).cq.ready = d.cq.ready ++ [w] ∧ w.entry = some i ∧ w.final = true ∧ w.ring = (d.entry i).ring
      ∧ bitsOf w.word 8 8 = status) ∧ d.onlyIn (d.closeWith i status cause) [.srv, .cq, .hif, .free] := by
  refine ⟨⟨_, rfl, rfl, rfl, ?_, requestWord_status _ h _ _ _ _ _ _ _ _ _⟩, .closeWith (d.onlyIn_refl _)⟩
  have hring : ((d.closeWith i status cause).entry i).ring = (d.entry i).ring := by rw [Dev.closeWith_entry_self]
  exact hring

theorem Dev.owesTokens_iff (d : Dev) (i : Nat) : d.owesTokens i = true ↔ (d.entry i).outs ≠ [] ∨ ∃ y ∈ d.cq.ready, y.entry = some i ∧ y.tok.isSome = true := by
  simp [Dev.owesTokens]

/-- The answer of CANCEL. -/
def Dev.cancelAnswer (d : Dev) (r : Rec) (found : Bool) : Answer :=
  { answer := if found then 3 else 4, entry := bitsOf r 352 14, arrival := d.time, seq := BitVec.ofNat 32 (bitsOf r 32 32) }

theorem Dev.cancelReq_mine {d : Dev} {f k : Nat} {r : Rec} (h : (d.entry (bitsOf r 352 14)).occupied = true ∧ (d.entry (bitsOf r 352 14)).func = f) :
    d.cancelReq f k r = (d.setAnswer f k (d.cancelAnswer r true)).cancelEntry (bitsOf r 352 14) := if_pos h

theorem Dev.cancelReq_other {d : Dev} {f k : Nat} {r : Rec} (h : ¬ ((d.entry (bitsOf r 352 14)).occupied = true ∧ (d.entry (bitsOf r 352 14)).func = f)) :
    d.cancelReq f k r = d.setAnswer f k (d.cancelAnswer r false) := if_neg h

theorem Dev.cancelEntry_closing {d : Dev} {i : Nat} (h : (d.entry i).state = .closing) : d.cancelEntry i = d := if_pos (.inr h)

theorem Dev.cancelEntry_owes {d : Dev} {i : Nat} (ho : (d.entry i).occupied = true) (h : (d.entry i).state ≠ .closing) (howes : d.owesTokens i = true) :
    d.cancelEntry i = d.modEntry i (fun x => { x with cancelled := true }) := by
  unfold Dev.cancelEntry
  simp only [ho, h, howes, Bool.not_true, Bool.false_eq_true, or_false, if_false]

theorem Dev.cancelEntry_free {d : Dev} {i : Nat} (ho : (d.entry i).occupied = true) (h : (d.entry i).state ≠ .closing) (howes : d.owesTokens i = false) :
    d.cancelEntry i = d.closeWith i 0x10 0 := by
  unfold Dev.cancelEntry
  simp only [ho, h, howes, Bool.not_true, Bool.false_eq_true, or_false, if_false, Bool.not_false, if_true]

/-- Cancelling changes neither registers nor answers. -/
theorem Dev.cancelEntry_keeps (d : Dev) (i : Nat) : (d.cancelEntry i).regs = d.regs ∧ (d.cancelEntry i).srv.answers = d.srv.answers
    ∧ ∀ j, j ≠ i → (d.cancelEntry i).entry j = d.entry j := by
  unfold Dev.cancelEntry
  dsimp only
  split
  · exact ⟨rfl, rfl, fun _ _ => rfl⟩
  · split
    · exact ⟨rfl, rfl, fun j hj => d.closeWith_entry_ne _ _ hj⟩
    · exact ⟨rfl, rfl, fun j hj => d.modEntry_entry_ne _ hj⟩

/-! ### The window read (R220) -/

/-- What a read of the submission window answers at offset `o`. -/
def Dev.windowByte (d : Dev) (f o : Nat) : Byte :=
  if 0x80_0000 ≤ o ∧ o < 0x81_0000 ∧ 0x40 ≤ o % 0x100 ∧ o % 0x100 < 0x60 then
    (tget d.srv.answers {} (256 * f + (o - 0x80_0000) / 0x100)).bytes.getD (o % 0x100 - 0x40) 0
  else 0

theorem Dev.windowByte_in (d : Dev) (f : Nat) {o : Nat} (hlo : 0x80_0000 ≤ o) (hhi : o < 0x81_0000) :
    d.windowByte f o = if 0x40 ≤ o % 0x100 ∧ o % 0x100 < 0x60 then
      (tget d.srv.answers {} (256 * f + (o - 0x80_0000) / 0x100)).bytes.getD (o % 0x100 - 0x40) 0 else 0 := by
  simp only [Dev.windowByte, hlo, hhi, true_and]

/-! ### The reason of a refusal (Table 8-8) -/

/-- The lowest reason to refuse a SUBMIT record whose priority is capped; 0 where none holds. -/
def Dev.submitReason (d : Dev) (f : Nat) (r : Rec) : Nat :=
  let p := (d.subPart f r).getD 7
  let c := d.chargeOf p r d.time
  if d.submitCheck f p r ≠ 0 then d.submitCheck f p r
  else if bitsOf r 208 16 ≠ 0 ∧ bitsOf r 208 16 * 1000 < d.cadence p then 0xA
  else if d.loadLimit p (bitsOf r 8 3) < d.getF (rSrvLoad p) fSrvLoad_Load + (c.dec + c.base) then 0xB
  else if d.getF (rSrvPoolFree p) fSrvPoolFree_Free < c.pages then 0xC
  else if bitsOf r 184 24 ≠ 0 ∧ bitsOf r 184 24 * 1000 < c.first - d.time then 0xD else 0

theorem Dev.submitCheck_lt (d : Dev) (f p : Nat) (r : Rec) : d.submitCheck f p r < 256 := by
  unfold Dev.submitCheck
  dsimp only
  split_ifs
  all_goals decide

theorem Dev.submitReason_lt (d : Dev) (f : Nat) (r : Rec) : d.submitReason f r < 256 := by
  have hcheck := d.submitCheck_lt f ((d.subPart f r).getD 7) r
  unfold Dev.submitReason
  dsimp only
  split_ifs
  all_goals simp [hcheck]

/-- What every answer to a SUBMIT holds. -/
def Dev.admitAnswer (d : Dev) (r : Rec) : Answer := { seq := BitVec.ofNat 32 (bitsOf r 32 32), arrival := d.time }

/-- A SUBMIT with a reason is refused with it; any other is accepted. -/
theorem Dev.admitReq_judged {d : Dev} (h : d.upsets = []) (f k : Nat) (r0 : Rec) :
    let r := d.cappedPrio f r0
    let a := d.admitAnswer r
    (d.submitReason f r ≠ 0 → ∃ b : Answer, d.admitReq f k r0 = d.refuseSub f k (d.subPart f r) b
      ∧ b.seq = a.seq ∧ b.arrival = a.arrival ∧ b.reason = d.submitReason f r)
    ∧ (d.submitReason f r = 0 → d.submitCheck f ((d.subPart f r).getD 7) r = 0
      ∧ d.admitReq f k r0 = d.accept f k ((d.subPart f r).getD 7) r (d.chargeOf ((d.subPart f r).getD 7) r d.time) a) := by
  intro r a
  have hrun : d.admitReq f k r0 =
      let p := (d.subPart f r).getD 7
      let c := d.chargeOf p r d.time
      let load := d.getF (rSrvLoad p) fSrvLoad_Load + (c.dec + c.base)
      let lim := d.loadLimit p (bitsOf r 8 3)
      let pool := d.getF (rSrvPoolFree p) fSrvPoolFree_Free
      let refuse (b : Answer) := d.refuseSub f k (d.subPart f r) b
      if d.submitCheck f p r ≠ 0 then refuse { a with reason := d.submitCheck f p r }
      else if bitsOf r 208 16 ≠ 0 ∧ bitsOf r 208 16 * 1000 < d.cadence p then refuse { a with reason := 0xA, cadence := d.cadence p }
      else if lim < load then refuse { a with reason := 0xB, need := load - lim }
      else if pool < c.pages then refuse { a with reason := 0xC, need := c.pages - pool }
      else if bitsOf r 184 24 ≠ 0 ∧ bitsOf r 184 24 * 1000 < c.first - d.time then
        refuse { a with reason := 0xD, first := c.first, cadence := d.cadence p }
      else d.accept f k p r c a := by
    unfold Dev.admitReq
    dsimp only
    rw [Dev.readSlotMeta_clean h, Dev.readVersionMeta_clean h, ite_self]
    rfl
  rw [hrun]
  unfold Dev.submitReason
  dsimp only
  split_ifs with h1 h2 h3 h4 h5
  · exact ⟨fun _ => ⟨_, rfl, rfl, rfl, rfl⟩, fun hr => absurd hr h1⟩
  case neg => exact ⟨fun hr => absurd rfl hr, fun _ => ⟨not_not.mp h1, rfl⟩⟩
  all_goals exact ⟨fun _ => ⟨_, rfl, rfl, rfl, rfl⟩, fun hr => absurd hr (by decide)⟩

/-- Capping a priority leaves the sequence number. -/
theorem Dev.cappedPrio_seq (d : Dev) (f : Nat) (r : Rec) : bitsOf (d.cappedPrio f r) 32 32 = bitsOf r 32 32 := by
  unfold Dev.cappedPrio
  split
  · rfl
  · exact fld_putFld_ne r ⟨8, 3⟩ ⟨32, 32⟩ _ (by decide) (.inr (by decide))

/-- The answer to an accepted SUBMIT. -/
def Dev.acceptAnswer (d : Dev) (p i : Nat) (r : Rec) (c : Charge) : Answer :=
  { d.admitAnswer r with answer := 1, entry := i, first := c.first, cadence := d.cadence p }

/-- A SUBMIT that passes the checks names a partition that exists, and finds a free entry. -/
theorem Dev.submitCheck_passed {d : Dev} {f p : Nat} {r : Rec} (h : d.submitCheck f p r = 0) : p < 6 ∧ ∃ i, d.freeIndex p = some i := by
  unfold Dev.submitCheck at h
  dsimp only at h
  split_ifs at h with h1 h2 h3 h4 h5 h6 h7 h8 h9
  refine ⟨?_, Option.isSome_iff_exists.mp (by simpa [Option.isSome_iff_ne_none] using h9)⟩
  have hexists : d.partExists p = true := by
    by_contra hp
    exact h2 (.inl (by simpa using hp))
  unfold Dev.partExists at hexists
  simp only [Bool.and_eq_true, decide_eq_true_eq] at hexists
  exact hexists.1

/-- Asking for a token list, whether or not it can be read, leaves the answers and the power state. -/
theorem Dev.askTokens_keeps (d : Dev) {i : Nat} (hp : (d.entry i).part < 6) :
    (d.askTokens i).srv.answers = d.srv.answers ∧ (d.askTokens i).pstate = d.pstate := by
  have hread : ∀ (e : Dev) (g : Nat × Nat), let e' := e.sendRead none ((d.entry i).tokenRead i g)
      e.onlyIn e' [.regs, .hif] ∧ e.regsBut e' (rHifAbortCnt :: rHifAbortLast :: raiseRegs pgHif) := fun e g => by
    unfold Dev.sendRead
    dsimp only
    split
    · refine ⟨.hostFail (e.onlyIn_refl _), ?_⟩
      exact Dev.regsBut_trans (Dev.regsBut_trans (Dev.regsBut_mono (e.regsBut_putF _ _ _) (by simp)) (Dev.regsBut_mono (Dev.regsBut_putF _ _ _ _) (by simp)))
        (Dev.regsBut_mono (Dev.raise_regsBut _ _ _) (by simp))
    · exact ⟨.set_hif (e.onlyIn_refl _), fun _ _ => rfl⟩
  have hfold : ∀ (ps : List (Nat × Nat)) (e : Dev), let e' := ps.foldl (fun d' g => d'.sendRead none ((d.entry i).tokenRead i g)) e
      e'.srv = e.srv ∧ e'.pstate = e.pstate := fun ps => by
    induction ps with
    | nil => exact fun e => ⟨rfl, rfl⟩
    | cons g ps ih =>
      intro e
      obtain ⟨hsrv, hstate⟩ := ih (e.sendRead none ((d.entry i).tokenRead i g))
      obtain ⟨hframe, hregs⟩ := hread e g
      exact ⟨hsrv.trans (hframe .srv rfl), hstate.trans (Dev.getF_of_regsBut hregs (by decide) _)⟩
  obtain ⟨hsrv, hstate⟩ : (d.readTokens i).srv = d.srv ∧ (d.readTokens i).pstate = d.pstate := hfold _ d
  rw [Dev.askTokens_eq]
  split
  · exact ⟨congrArg Srv.answers hsrv, hstate⟩
  · generalize d.readTokens i = k at hsrv hstate ⊢
    have hpart : (k.entry i).part < 6 := by rwa [Dev.entry, hsrv]
    refine ⟨?_, (Dev.getF_of_regsBut (k.abortEntry_regs i 3) ?_ _).trans hstate⟩
    · by_cases h : (k.entry i).occupied = true ∧ (k.entry i).state ≠ .closing
      · rw [Dev.abortEntry_open h.1 h.2, show ((k.abortOpen i 3).raise (pgSrv 0) (2 ^ (8 + (k.entry i).part))).srv = (k.abortOpen i 3).srv from
          Dev.raise_frame _ _ _ .srv rfl, ← hsrv]
        rfl
      · rw [Dev.abortEntry_shut h, hsrv]
    · simp [rSrvAbort, rBlkIntStat, rPwrState, pgSrv, pgHif, rHifTxDrop]
      omega

/-- Settles O24: the submission window's writes, refused, accepted or cancelling, and its reads. -/
theorem submissionsAreAnswered : Obligations.SubmissionsAreAnswered := by
  unfold Obligations.SubmissionsAreAnswered
  refine ⟨fun s f off data hreach hsub hclean hp => ?submit, fun s f off data hreach hsub hp h1 h2 => ?cancel, fun s f off len hreach hlo hhi => ?read⟩
  case submit =>
    intro d r hkind k p pr c cad load pool reason a
    have hrun : ∀ e : Dev, d.admitReq f k (recOf data) = e → e.pstate = d.pstate → exec (.submit f off data) s = .next { s with dev := e } := fun e he hpe => by
      refine State.onDev_next (f := fun d => d.submit f off data) ((Dev.received_reached hreach false _).trans ?_)
      refine Dev.windowWrite_submission hsub ?_ (hpe.trans hp)
      rw [if_neg (by tauto), ← he]
    obtain ⟨hrefuse, haccept⟩ := Dev.admitReq_judged hclean f k (recOf data)
    have hseq : bitsOf r 32 32 = bitsOf (recOf data) 32 32 := d.cappedPrio_seq f (recOf data)
    have hreason : d.submitReason f r = reason := rfl
    by_cases hz : reason = 0
    · obtain ⟨hcheck, haccept⟩ := haccept hz
      obtain ⟨hp6, i, hi⟩ := Dev.submitCheck_passed hcheck
      rw [Dev.accept_takes hi] at haccept
      have hslot : (d.newEntry f p i r c).slot < 16 := Nat.mod_lt _ (by decide)
      have hpart : (d.newEntry f p i r c).part = p := rfl
      have hfunc : (d.newEntry f p i r c).func = f := rfl
      obtain ⟨hself, hothers, hload, hpool, hpend, hcad, hstate, hframe⟩ := d.accepted_parts (i := i) hp6 hslot c
      generalize d.accepted p i (d.newEntry f p i r c) c = d1 at *
      have hacc : d.admitReq f k (recOf data) = (d1.setAnswer f k (d.acceptAnswer p i r c)).askTokens i := by
        rw [haccept, hcad]
        rfl
      obtain ⟨d2, hd2⟩ : ∃ d2, d2 = d1.setAnswer f k (d.acceptAnswer p i r c) := ⟨_, rfl⟩
      have hans : tget d2.srv.answers {} (256 * f + k) = d.acceptAnswer p i r c := hd2 ▸ tget_tset_self _ _ _ _
      have hentry : ∀ j, d2.entry j = d1.entry j := fun _ => by rw [hd2]; rfl
      have hset : d1.onlyIn d2 [.srv] := hd2 ▸ .setAnswer (d1.onlyIn_refl _)
      rw [← hd2] at hacc
      obtain ⟨hkans, hkstate⟩ := d2.askTokens_keeps (i := i) (by rw [hentry, hself, hpart]; exact hp6)
      have hregs2 : d2.regs = d1.regs := hset .regs rfl
      refine ⟨_, hrun _ hacc (hkstate.trans ((Dev.pstate_of_regs hregs2).trans hstate)), ?_, ?_, fun h => absurd hz h, fun j _ hj hm => ?_⟩
      · rw [show a (d2.askTokens i) = _ from (congrArg (tget · {} (256 * f.val + k)) hkans).trans hans]
        exact congrArg (BitVec.ofNat 32) hseq
      · rw [show a (d2.askTokens i) = _ from (congrArg (tget · {} (256 * f.val + k)) hkans).trans hans]
        rfl
      · obtain rfl : i = j := Option.some.inj (hi.symm.trans hj)
        have hm2 : d2.masters (d2.entry i).func = true := by
          have hhif : d2.hif = d.hif := (hset .hif rfl).trans (hframe .hif rfl)
          rw [hentry, hself, hfunc]
          exact (Dev.masters_of_fns (congrArg Hif.fns hhif) f).trans hm
        obtain ⟨rs, hrs⟩ := Dev.askTokens_asks hm2
        have hkans' : a (d2.askTokens i) = d.acceptAnswer p i r c := (congrArg (tget · {} (256 * f.val + k)) hkans).trans hans
        have hkregs : (d2.askTokens i).regs = d1.regs := by rw [hrs]; exact hregs2
        have hkentry : ∀ j, (d2.askTokens i).entry j = d1.entry j := fun j => by rw [hrs]; exact hentry j
        have hframe2 : d.onlyIn (d2.askTokens i) [.srv, .regs, .hif] := by
          rw [hrs]
          exact .set_hif (Dev.onlyIn.after (Dev.onlyIn_sub _ hframe rfl) hset rfl)
        rw [hkans']
        exact ⟨rfl, rfl, rfl, rfl, (hkentry i).trans hself, fun j hj => (hkentry j).trans (hothers j hj),
          (Dev.getF_of_regs hkregs _ _).trans hload, (Dev.getF_of_regs hkregs _ _).trans hpool, (Dev.reg_congr hkregs _).trans hpend, hframe2⟩
    · obtain ⟨b, hb, hbseq, hbarrival, hbreason⟩ := hrefuse hz
      have hlt : b.reason < 256 := hbreason ▸ d.submitReason_lt f r
      obtain ⟨hans, hentries, hcount, hlast, hlastSeq, hregs, hframe⟩ := d.refuseSub_parts f k (d.subPart f r) b hlt
      have hpr : (d.subPart f r).getD 0 < 6 := by
        unfold Dev.subPart
        dsimp only
        split_ifs <;> simp [*]
      have hstate : (d.refuseSub f k (d.subPart f r) b).pstate = d.pstate := Dev.getF_of_regsBut hregs
        (by simp [rPwrState, rSrvRefuse, rSrvLastRefuse, rSrvLastSeq]; omega) _
      refine ⟨_, hrun _ hb hstate, ?_, ?_, fun _ => ⟨?_, ?_, hentries, hcount, ?_, ?_, hregs, hframe⟩, fun _ h => absurd h hz⟩
      · rw [show a (d.refuseSub f k (d.subPart f r) b) = _ from hans]
        exact hbseq.trans (congrArg (BitVec.ofNat 32) hseq)
      · rw [show a (d.refuseSub f k (d.subPart f r) b) = _ from hans]
        exact hbarrival
      · rw [show a (d.refuseSub f k (d.subPart f r) b) = _ from hans]
      · rw [show a (d.refuseSub f k (d.subPart f r) b) = _ from hans]
        exact hbreason
      · exact hlast.trans hbreason
      · refine hlastSeq.trans ?_
        rw [hbseq, Dev.admitAnswer, BitVec.toNat_ofNat, hseq]
        exact Nat.mod_eq_of_lt (Nat.mod_lt _ (Nat.two_pow_pos _))
  case cancel =>
    intro d k i x mine owes
    have hrun : ∀ e : Dev, d.cancelReq f k (recOf data) = e → e.regs = d.regs → exec (.cancel f off data) s = .next { s with dev := e } := fun e he hregs => by
      refine State.onDev_next (f := fun d => d.cancel f off data) ((Dev.received_reached hreach false _).trans ?_)
      refine Dev.windowWrite_submission hsub ?_ ((Dev.pstate_of_regs hregs).trans hp)
      rw [if_pos ⟨h1, h2⟩, ← he]
    by_cases hm : mine
    · obtain ⟨d1, hd1⟩ : ∃ d1, d1 = d.setAnswer f k (d.cancelAnswer (recOf data) true) := ⟨_, rfl⟩
      have hset : d.onlyIn d1 [.srv] := hd1 ▸ .setAnswer (d.onlyIn_refl _)
      have hentry : ∀ j, d1.entry j = d.entry j := fun j => by rw [hd1]; rfl
      have howes : d1.owesTokens i = true ↔ owes := by rw [hd1]; exact d.owesTokens_iff i
      obtain ⟨hregs, hans, hothers⟩ := d1.cancelEntry_keeps i
      refine ⟨d1.cancelEntry i, hrun _ ((Dev.cancelReq_mine hm).trans (by rw [hd1])) (hregs.trans (hset .regs rfl)), ?_,
        fun j hj => (hothers j hj).trans (hentry j), fun hn => absurd hm hn, fun _ hc => ?_, fun _ hc ho => ?_, fun _ hc ho => ?_⟩
      · rw [hans, hd1, if_pos hm]
        exact tget_tset_self _ _ _ _
      · rw [Dev.cancelEntry_closing (by rw [hentry]; exact hc)]
        exact ⟨hentry i, hset⟩
      · rw [Dev.cancelEntry_owes (by rw [hentry]; exact hm.1) (by rw [hentry]; exact hc) (howes.mpr ho), Dev.modEntry_entry_self, hentry]
        exact ⟨rfl, .modEntry hset⟩
      · have hno : d1.owesTokens i = false := Bool.eq_false_iff.mpr fun h => ho (howes.mp h)
        rw [Dev.cancelEntry_free (by rw [hentry]; exact hm.1) (by rw [hentry]; exact hc) hno, Dev.closeWith_entry_self, hentry]
        obtain ⟨⟨w, hready, hwentry, hfinal, hring, hstatus⟩, hframe⟩ := d1.closeWith_parts i 0x10 0 (by decide)
        rw [hentry] at hring
        rw [show d1.cq = d.cq from hset .cq rfl] at hready
        exact ⟨rfl, ⟨w, hready, hwentry, hfinal, hring, hstatus⟩, Dev.onlyIn.after (Dev.onlyIn_sub _ hset rfl) hframe rfl⟩
    · have hset : d.onlyIn (d.setAnswer f k (d.cancelAnswer (recOf data) false)) [.srv] := .setAnswer (d.onlyIn_refl _)
      refine ⟨_, hrun _ (Dev.cancelReq_other hm) (hset .regs rfl), ?_, fun _ _ => rfl, fun _ => ⟨rfl, hset⟩, fun h => absurd h hm, fun h => absurd h hm,
        fun h => absurd h hm⟩
      rw [if_neg hm]
      exact tget_tset_self _ _ _ _
  case read =>
    obtain ⟨-, -, hboot⟩ := id hreach
    have hrun : s.dev.answerWindow f off len = s.dev.answerRead f off len := by
      have hno : ¬ (s.dev.ready = true ∧ s.dev.fnServes f = true ∧ s.dev.recoveryBoot = true) := fun h => by simp [hboot] at h
      exact (if_neg hno).trans (Dev.received_reached hreach true _)
    refine ⟨(List.range len).map (fun i => s.dev.windowByte f (off + i)), _, State.onDev_next hrun, by simp, rfl, .sendOut (s.dev.onlyIn_refl _), fun j hj => ?_⟩
    rw [List.getElem?_map, List.getElem?_range hj, Option.map_some, Dev.windowByte_in _ _ (by omega) (by omega)]

end Sys2Proof.Machine
end

section
/-! # What parts the operations may change: Configuration writes and the log's flush (14 R404, R405)

The lemma about an operation has its name, in the order of the definitions. -/

namespace Sys2Proof.Machine
-- These proofs are many and small: elaborated all at once they take more threads than the checker has.
set_option Elab.async false
namespace Dev.onlyIn
variable {d₀ d e : Dev} {C : List Comp}

theorem modCmd (h₀ : d₀.onlyIn d C) {c : Nat} {f : Cmd → Cmd} (sub : among [.cq] C := by rfl) : d₀.onlyIn (d.modCmd c f) C :=
  h₀.after (Dev.modCmd_frame _ _ _) (among.sub sub)

theorem writeCopy (h₀ : d₀.onlyIn d C) {b : CfgBlock} (sub : among [.regs, .gan] C := by rfl) : d₀.onlyIn (d.writeCopy b) C :=
  h₀.into sub fun _ hd => .setReg (.putF (.ite (.putF (.onGan hd)) (.putF (.onGan hd))))

theorem finishMbx (h₀ : d₀.onlyIn d C) {status : Nat} {resp : List Byte} (sub : among [.regs, .gan, .hif] C := by rfl) :
  d₀.onlyIn (d.finishMbx status resp) C :=
  h₀.into sub fun _ hd => .raise (.putF (.setReg (.onGan hd)))

theorem cfgWritten (h₀ : d₀.onlyIn d C) {why : CfgCause} (sub : among [.regs, .cq, .gan, .hif] C := by rfl) : d₀.onlyIn
  (d.cfgWritten why) C := by
  refine h₀.into sub fun _ hd => ?_
  unfold Dev.cfgWritten
  split
  · exact .finishMbx hd
  · exact .modCmd hd
  · exact hd

end Dev.onlyIn
end Sys2Proof.Machine
end

section
/-! # Configuration writes and the log's flush (14 R404, R405) -/

namespace Sys2Proof.Machine

/-! ## The mailbox's end (14 R406) -/

/-- The registers that the end of a mailbox command may change. -/
def mbxRegs : List Nat := rMgmtMbxStatus :: rMgmtMbxCtrl :: raiseRegs pgMgmt

/-- The number in the low byte of a word made of a status and a length. -/
theorem fld_status {n m : Nat} (hn : n < 256) : fld (BitVec.ofNat 64 (n + atBit 16 m)) ⟨0, 8⟩ = n := by
  rw [fld, bitsOf, BitVec.toNat_ofNat, Nat.shiftRight_zero, atBit, Nat.shiftLeft_eq]
  dsimp only
  omega

/-- A mailbox command ends: its status shows, it is busy no longer, and its response stands. -/
theorem Dev.finishMbx_parts (d : Dev) {status : Nat} (h : status < 256) (resp : List Byte) :
    (d.finishMbx status resp).getF rMgmtMbxStatus fMgmtMbxStatus_Status = status
      ∧ (d.finishMbx status resp).getF rMgmtMbxCtrl fMgmtMbxCtrl_Busy = 0
      ∧ (d.finishMbx status resp).event pgMgmt 0 = true
      ∧ (d.finishMbx status resp).gan = { d.gan with respBuf := resp.take 1024 }
      ∧ d.regsBut (d.finishMbx status resp) mbxRegs ∧ d.onlyIn (d.finishMbx status resp) [.gan, .regs, .hif] := by
  have hne : rMgmtMbxStatus ≠ rMgmtMbxCtrl := by decide
  refine ⟨?_, ?_, Dev.raise_sets _ (by decide) (by decide) (by decide), ?_, ?_, .finishMbx (d.onlyIn_refl _)⟩
  · rw [Dev.finishMbx, Dev.getF_of_regsBut (Dev.raise_regsBut _ _ _) (by decide), Dev.getF_putF_ne _ _ _ _ hne, Dev.getF, Dev.reg_setReg_self]
    exact fld_status h
  · rw [Dev.finishMbx, Dev.getF_of_regsBut (Dev.raise_regsBut _ _ _) (by decide), Dev.getF_putF_self _ _ _ _ (by decide), Nat.zero_mod]
  · rw [Dev.finishMbx, Dev.raise_gan]
    rfl
  · refine Dev.regsBut_trans (Dev.regsBut_setReg_mem (a := rMgmtMbxCtrl) (Dev.regsBut_setReg_mem (a := rMgmtMbxStatus) (d.regsBut_refl mbxRegs) ?_ _) ?_ _)
      (Dev.regsBut_mono (Dev.raise_regsBut _ _ _) ?_)
    all_goals simp [mbxRegs]

/-! ## Configuration writes (14 R403, R404) -/

theorem Dev.writeCopy_parts (d : Dev) (b : CfgBlock) :
    let b' : CfgBlock := { b with seq := (b.seq + 1) % 2 ^ 32 }
    let inA : Prop := d.getF rMgmtStatus fMgmtStatus_CfgSrc = 0
    (d.writeCopy b).gan = (if inA then { d.gan with copyB := .block b', copyA := .badVersion, block := some b' }
        else { d.gan with copyA := .block b', copyB := .badVersion, block := some b' })
      ∧ (d.writeCopy b).getF rMgmtStatus fMgmtStatus_CfgSrc = (if inA then 1 else 0)
      ∧ (d.writeCopy b).getF rDevStatus fDevStatus_CfgDefault = 0
      ∧ d.onlyIn (d.writeCopy b) [.gan, .regs] := by
  intro b' inA
  have h1 : rMgmtStatus ≠ rRasRetire := by decide
  have h2 : rMgmtStatus ≠ rDevStatus := by decide
  have h3 : rDevStatus ≠ rRasRetire := by decide
  refine ⟨?_, ?_, ?_, .writeCopy (d.onlyIn_refl _)⟩
  · unfold Dev.writeCopy
    dsimp only
    split <;> rfl
  · unfold Dev.writeCopy
    dsimp only
    rw [Dev.getF, Dev.reg_setReg_ne _ _ h1, ← Dev.getF, Dev.getF_putF_ne _ _ _ _ h2]
    split
    · exact Dev.getF_putF_self _ _ _ _ (by decide)
    · exact Dev.getF_putF_self _ _ _ _ (by decide)
  · unfold Dev.writeCopy
    dsimp only
    rw [Dev.getF, Dev.reg_setReg_ne _ _ h3, ← Dev.getF, Dev.getF_putF_self _ _ _ _ (by decide), Nat.zero_mod]

/-- The record of a change is entered, or there is none. -/
theorem Dev.logChange_parts (d : Dev) (x : CfgChange) :
    d.gan.logged (d.logChange x).gan ∧ d.regsBut (d.logChange x) logRegs ∧ d.onlyIn (d.logChange x) [.regs, .hif, .gan] := by
  have hnone : d.gan.logged d.gan ∧ d.regsBut d logRegs ∧ d.onlyIn d [.regs, .hif, .gan] := ⟨d.gan.logged_refl, d.regsBut_refl _, d.onlyIn_refl _⟩
  have hlog : ∀ typ p, d.gan.logged (d.log typ p).gan ∧ d.regsBut (d.log typ p) logRegs ∧ d.onlyIn (d.log typ p) [.regs, .hif, .gan] :=
    fun typ p => ⟨d.log_logged typ p, d.log_regsBut typ p, d.log_frame typ p⟩
  unfold Dev.logChange
  cases x with
  | enrol i k => exact hlog _ _
  | revoke i =>
    dsimp only
    split
    · exact hlog _ _
    · exact hnone
  | mark key ver => exact hnone
  | retire r => exact hlog _ _

theorem flushLog_append (flash buf : List LogRec) (h : flash.length + buf.length ≤ 261120) : flushLog flash buf = flash ++ buf := by
  induction buf generalizing flash with
  | nil => exact (List.append_nil flash).symm
  | cons r buf ih =>
    have hlen : (flash ++ [r]).length + buf.length ≤ 261120 := by simp only [List.length_append, List.length_cons, List.length_nil] at h ⊢; omega
    have hkeep : eraseOldest (flash ++ [r]) = flash ++ [r] := if_neg (by omega)
    rw [flushLog, hkeep, ite_self, ih _ hlen, List.append_assoc]
    rfl

/-- The device that has drawn whether flash reads back and takes the first change off the list. -/
def Dev.cfgTaken (d : Dev) (rest : List (CfgChange × CfgCause)) : Dev :=
  { d with free := d.free + 1 }.onGan (fun g => { g with cfgPend := rest })

/-- The device once a change is programmed and recorded. -/
def Dev.cfgProgrammed (d : Dev) (x : CfgChange) (rest : List (CfgChange × CfgCause)) : Dev :=
  ((d.cfgTaken rest).writeCopy (d.gan.cfg.apply x)).logChange x

theorem Dev.configurationWrite_eq {d : Dev} {x : CfgChange} {why : CfgCause} {rest : List (CfgChange × CfgCause)}
    (h : d.gan.cfgPend = (x, why) :: rest) (hup : d.gan.up = true) :
    d.configurationWrite = if Config.freeWord d.free % 2 == 0 then (d.cfgProgrammed x rest).cfgWritten why
      else if why = .mailbox then (d.cfgTaken rest).finishMbx 7 [] else { d with free := d.free + 1 } := by
  unfold Dev.configurationWrite
  simp only [h, hup, Bool.not_true, Bool.false_eq_true, if_false]
  rfl

/-- What programming a change does to the copies, and to nothing else. -/
theorem Dev.cfgProgrammed_parts (d : Dev) (x : CfgChange) (rest : List (CfgChange × CfgCause)) :
    let b := d.gan.cfg.apply x
    let e := d.cfgProgrammed x rest
    e.gan.cfgPend = rest ∧ e.gan.cfg = { b with seq := (b.seq + 1) % 2 ^ 32 }
      ∧ e.getF rMgmtStatus fMgmtStatus_CfgSrc = (if d.getF rMgmtStatus fMgmtStatus_CfgSrc = 0 then 1 else 0)
      ∧ (d.getF rMgmtStatus fMgmtStatus_CfgSrc = 0 → e.gan.copyB = .block e.gan.cfg ∧ e.gan.copyA = .badVersion)
      ∧ (d.getF rMgmtStatus fMgmtStatus_CfgSrc ≠ 0 → e.gan.copyA = .block e.gan.cfg ∧ e.gan.copyB = .badVersion)
      ∧ e.getF rDevStatus fDevStatus_CfgDefault = 0 ∧ e.cq = d.cq ∧ d.onlyIn e [.gan, .regs, .hif, .free] := by
  intro b e
  obtain ⟨hgan, hsrc, hdef, hframe⟩ := (d.cfgTaken rest).writeCopy_parts b
  obtain ⟨⟨lb, ls, lf, hlog⟩, hregs, hlframe⟩ := ((d.cfgTaken rest).writeCopy b).logChange_parts x
  have htaken : d.onlyIn (d.cfgTaken rest) [.gan, .free] := .onGan (.set_free (d.onlyIn_refl _))
  have hall : d.onlyIn e [.gan, .regs, .hif, .free] :=
    Dev.onlyIn.after (Dev.onlyIn.after (Dev.onlyIn_sub _ htaken rfl) hframe rfl) hlframe rfl
  have hsame : (d.cfgTaken rest).getF rMgmtStatus fMgmtStatus_CfgSrc = d.getF rMgmtStatus fMgmtStatus_CfgSrc := rfl
  rw [hsame] at hsrc
  simp only [hsame] at hgan
  have hegan : e.gan = _ := hlog
  rw [hgan] at hegan
  have hsrc' : e.getF rMgmtStatus fMgmtStatus_CfgSrc = _ := (Dev.getF_of_regsBut hregs (by decide) _).trans hsrc
  have hdef' : e.getF rDevStatus fDevStatus_CfgDefault = 0 := (Dev.getF_of_regsBut hregs (by decide) _).trans hdef
  have hcq : e.cq = d.cq := hall .cq rfl
  by_cases hz : d.getF rMgmtStatus fMgmtStatus_CfgSrc = 0
  · rw [if_pos hz] at hegan
    rw [hegan]
    exact ⟨rfl, rfl, hsrc', fun _ => ⟨rfl, rfl⟩, fun h => absurd hz h, hdef', hcq, hall⟩
  · rw [if_neg hz] at hegan
    rw [hegan]
    exact ⟨rfl, rfl, hsrc', fun h => absurd h hz, fun _ => ⟨rfl, rfl⟩, hdef', hcq, hall⟩

/-- Settles O52: a change is programmed or stays, by whether flash reads back; the log is flushed. -/
theorem flashWritesTakeEffect : Obligations.FlashWritesTakeEffect := by
  unfold Obligations.FlashWritesTakeEffect
  refine ⟨fun s h => ?_, fun s x why rest h hup => ?_, fun s => ⟨fun h => ?_, fun hup hlen => ?_⟩⟩
  · refine State.onDev_next (f := fun d => d.configurationWrite) ?_
    unfold Dev.configurationWrite
    split
    · rfl
    next x why rest hpend =>
      have hdown : s.dev.gan.up = false := h.resolve_left (by rw [hpend]; simp)
      simp only [hdown, Bool.not_false, if_true]
  · intro d b
    refine ⟨_, State.onDev_next (Dev.configurationWrite_eq h hup), ?_⟩
    by_cases hgood : (Config.freeWord d.free % 2 == 0) = true
    · rw [if_pos hgood]
      obtain ⟨hpend, hcfg, hsrc, hA, hB, hdef, hcq, hframe⟩ := d.cfgProgrammed_parts x rest
      generalize d.cfgProgrammed x rest = d1 at *
      refine .inl ?_
      cases why with
      | mailbox =>
        obtain ⟨hstatus, hbusy, -, hgan, hregs, hmframe⟩ := d1.finishMbx_parts (status := 0) (by decide) []
        have hkeep : (d1.cfgWritten .mailbox).gan = { d1.gan with respBuf := [] } := hgan
        rw [hkeep]
        exact ⟨hpend, hcfg, (Dev.getF_of_regsBut hregs (by decide) _).trans hsrc, hA, hB, (Dev.getF_of_regsBut hregs (by decide) _).trans hdef,
          fun _ => ⟨hstatus, hbusy⟩, fun c hc => (by cases hc), Dev.onlyIn.after (Dev.onlyIn_sub _ hframe rfl) hmframe rfl⟩
      | cmd c =>
        refine ⟨hpend, hcfg, hsrc, hA, hB, hdef, fun hw => (by cases hw), fun c' hc => ?_, .cfgWritten (Dev.onlyIn_sub _ hframe rfl)⟩
        obtain rfl : c = c' := by injection hc
        rw [← hcq]
        exact List.map_congr_left fun y _ => (ite_and ..).symm
      | nobody => exact ⟨hpend, hcfg, hsrc, hA, hB, hdef, fun hw => (by cases hw), fun c hc => (by cases hc), Dev.onlyIn_sub _ hframe rfl⟩
    · rw [if_neg hgood]
      refine .inr ?_
      by_cases hw : why = .mailbox
      · rw [if_pos hw]
        obtain ⟨hstatus, -, -, hgan, -, hmframe⟩ := (d.cfgTaken rest).finishMbx_parts (status := 7) (by decide) []
        rw [hgan]
        exact ⟨rfl, rfl, rfl, hmframe .cq rfl, fun _ => ⟨rfl, hstatus⟩, fun hn => absurd hw hn⟩
      · rw [if_neg hw]
        exact ⟨rfl, rfl, rfl, rfl, fun hm => absurd hm hw, fun _ => ⟨rfl, .set_free (d.onlyIn_refl _)⟩⟩
  · refine State.onDev_next (f := fun d => d.logFlush) ?_
    simp [Dev.logFlush, h]
  · refine State.onDev_next (f := fun d => d.logFlush) ?_
    have hflush : s.dev.logFlush = s.dev.onGan (fun g => { g with logFlash := flushLog g.logFlash g.logBuf, logBuf := [] }) := if_neg (by simp [hup])
    rw [hflush, Dev.onGan, flushLog_append _ _ hlen]

end Sys2Proof.Machine
end

section
/-! # Mailbox commands (14 R406 to R408, R418) -/

namespace Sys2Proof.Machine

/-! ## When a mailbox command runs (14 R406, R407) -/

theorem Dev.mailbox_idle {d : Dev} {cmd : Nat} (h : ¬ d.mbxRuns cmd) (b : Bool) (k : Dev → Dev) : d.mailbox cmd b k = d := by
  refine if_pos ?_
  rw [Dev.mbxRuns] at h
  simp only [Bool.not_eq_true']
  by_contra hn
  simp only [not_or, Bool.not_eq_false, ne_eq, not_not] at hn
  exact h hn

section
variable {d : Dev} {cmd : Nat} (h : d.mbxRuns cmd)
include h

theorem Dev.mailbox_judged (b : Bool) (k : Dev → Dev) : d.mailbox cmd b k =
    if (if b then 2048 < d.reqLen || !Config.lenInRange cmd d.reqLen else d.reqLen != 0) then d.finishMbx 2 [] else k d := by
  obtain ⟨hfree, hbusy, hcmd⟩ := h
  refine if_neg ?_
  simp [hfree, hbusy, hcmd]

theorem Dev.mailbox_long (hl : 2048 < d.reqLen) (k : Dev → Dev) : d.mailbox cmd true k = d.finishMbx 2 [] := by
  rw [Dev.mailbox_judged h]
  exact if_pos (by simp [hl])

theorem Dev.mailbox_bad (hl : Config.lenInRange cmd d.reqLen = false) (k : Dev → Dev) : d.mailbox cmd true k = d.finishMbx 2 [] := by
  rw [Dev.mailbox_judged h]
  exact if_pos (by simp [hl])

theorem Dev.mailbox_good (hm : d.reqLen ≤ 2048) (hl : Config.lenInRange cmd d.reqLen = true) (k : Dev → Dev) : d.mailbox cmd true k = k d := by
  rw [Dev.mailbox_judged h]
  exact if_neg (by simp [hl, hm])

theorem Dev.mailbox_full (hl : d.reqLen ≠ 0) (k : Dev → Dev) : d.mailbox cmd false k = d.finishMbx 2 [] := by
  rw [Dev.mailbox_judged h]
  exact if_pos (by simpa using hl)

theorem Dev.mailbox_empty (hl : d.reqLen = 0) (k : Dev → Dev) : d.mailbox cmd false k = k d := by
  rw [Dev.mailbox_judged h]
  exact if_neg (by simp [hl])

end

/-! ## How it ends -/

/-- The number in bits 26:16 of a word made of a status and a length. -/
theorem fld_length {n m : Nat} (hn : n < 256) (hm : m ≤ 1024) : fld (BitVec.ofNat 64 (n + atBit 16 m)) ⟨16, 11⟩ = m := by
  rw [fld, bitsOf, BitVec.toNat_ofNat, Nat.shiftRight_eq_div_pow, atBit, Nat.shiftLeft_eq]
  dsimp only
  omega

theorem Dev.finishMbx_rlen (d : Dev) {status : Nat} (h : status < 256) (resp : List Byte) :
    (d.finishMbx status resp).getF rMgmtMbxStatus fMgmtMbxStatus_Rlen = min resp.length 1024 := by
  have hne : rMgmtMbxStatus ≠ rMgmtMbxCtrl := by decide
  rw [Dev.finishMbx, Dev.getF_of_regsBut (Dev.raise_regsBut _ _ _) (by decide), Dev.getF_putF_ne _ _ _ _ hne, Dev.getF, Dev.reg_setReg_self]
  exact fld_length h (Nat.min_le_right _ _)

/-- A command that a device, changed in its gander only, ends. -/
theorem Dev.finishMbx_done {d k : Dev} (hk : d.onlyIn k [.gan, .free]) {status : Nat} (h : status < 256) (resp : List Byte) :
    d.mbxDone (k.finishMbx status resp) k.gan status resp := by
  obtain ⟨hstatus, hbusy, hevent, hgan, hregs, hframe⟩ := k.finishMbx_parts h resp
  exact ⟨hstatus, k.finishMbx_rlen h resp, hgan, hbusy, hevent, Dev.regsBut_trans (Dev.regsBut_of_onlyIn hk rfl _) hregs,
    Dev.onlyIn.after (Dev.onlyIn_sub _ hk rfl) hframe rfl⟩

/-- A command that ends without anything else done. -/
theorem Dev.finishMbx_ends (d : Dev) {status : Nat} (h : status < 256) (resp : List Byte) : d.mbxDone (d.finishMbx status resp) d.gan status resp :=
  Dev.finishMbx_done (d.onlyIn_refl _) h resp

theorem Dev.finishMbx_drawn (d : Dev) (n : Nat) {status : Nat} (h : status < 256) (resp : List Byte) :
    d.mbxDone ({ d with free := n }.finishMbx status resp) d.gan status resp :=
  Dev.finishMbx_done (k := { d with free := n }) (.set_free (d.onlyIn_refl _)) h resp

theorem Dev.openStatus_open (d : Dev) : d.mbxOpen d.openStatus := ⟨_, Nat.mod_lt _ (by decide), d.finishMbx_drawn _ (Nat.mod_lt _ (by decide)) _⟩

/-- A command that waits for a configuration write. -/
theorem Dev.cfgAsk_waits (d : Dev) (n : Nat) (x : CfgChange) : d.mbxWaits ({ d with free := n }.cfgAsk x .mailbox) x :=
  ⟨rfl, .cfgAsk (.set_free (d.onlyIn_refl _))⟩

/-! ## Key slots (14 R408) -/

theorem Dev.keySlot_held {d : Dev} {id : Nat} {z : Nat × KeyEnt} (h : d.gan.cfg.keys.find? (fun y => y.2.keyid == id) = some z) :
    d.keySlot id = some z.1 := by
  unfold Dev.keySlot
  simp only [h]

/-- The key slots that hold no valid key. -/
def CfgBlock.openSlots (b : CfgBlock) : List Nat :=
  (List.range 16).filter (fun i => match tfind b.keys i with | some e => !e.valid | none => true)

theorem CfgBlock.mem_openSlots {b : CfgBlock} {j : Nat} : j ∈ b.openSlots ↔ j < 16 ∧ ∀ z : KeyEnt, tfind b.keys j = some z → z.valid = false := by
  rw [CfgBlock.openSlots, List.mem_filter, List.mem_range]
  cases h : tfind b.keys j with
  | none => simp
  | some e => simp

theorem Dev.keySlot_new {d : Dev} {id : Nat} (h : d.gan.cfg.keys.find? (fun y => y.2.keyid == id) = none) :
    d.keySlot id = d.gan.cfg.openSlots[Config.freeWord d.free % d.gan.cfg.openSlots.length]? := by
  unfold Dev.keySlot
  simp only [h]
  rfl

theorem getElem?_mod_of_ne_nil {α : Type} {l : List α} (h : l ≠ []) (n : Nat) : ∃ x ∈ l, l[n % l.length]? = some x := by
  have hlt : n % l.length < l.length := Nat.mod_lt _ (List.length_pos_iff.mpr h)
  exact ⟨l[n % l.length], List.getElem_mem hlt, List.getElem?_eq_getElem hlt⟩

/-! ## Debug access (14 R418) -/

theorem Dev.debugBarred_iff (d : Dev) : d.debugBarred = true ↔
    (∃ p : Nat, p < 6 ∧ d.partExists p = true) ∨ d.fab.staged ≠ none ∨ d.hasEpoch = true ∨ d.gan.upd ≠ none := by
  unfold Dev.debugBarred
  simp only [Bool.or_eq_true, List.any_eq_true, List.mem_range, Option.isSome_iff_ne_none, or_assoc]

/-- Debug access open, before the mailbox command ends. -/
def Dev.debugOpened (d : Dev) (p : List Nat) : Dev :=
  let d := d.eraseSecrets.logNow 0x32 p
  let d := d.onGan (fun g => { g with debugFuse := true, debugOn := true })
  let d := (d.putF rMgmtSecState fMgmtSecState_DebugOpened 1).putF rDevStatus fDevStatus_DebugOpened 1
  d.onHif (fun h => { h with dbgOpen := true })

theorem Dev.debugOpened_parts (d : Dev) (p : List Nat) :
    let e := d.debugOpened p
    e.gan.debugFuse = true ∧ e.gan.debugOn = true ∧ e.gan.secretBlocked = true ∧ e.gan.att = none ∧ e.gan.sessions = []
      ∧ e.gan.nonce = d.gan.nonce ∧ e.hif.ideKeys = [] ∧ e.hif.dbgOpen = true
      ∧ e.getF rMgmtSecState fMgmtSecState_DebugOpened = 1 ∧ e.getF rMgmtSecState fMgmtSecState_AttestReady = 0
      ∧ e.getF rDevStatus fDevStatus_DebugOpened = 1 ∧ e.getF rHifIde fHifIde_State = 0 := by
  intro e
  have hne1 : rMgmtSecState ≠ rDevStatus := by decide
  have hne2 : rHifIde ≠ rDevStatus := by decide
  have hne3 : rHifIde ≠ rMgmtSecState := by decide
  obtain ⟨d1, hd1⟩ : ∃ d1, d1 = d.eraseSecrets.logNow 0x32 p := ⟨_, rfl⟩
  obtain ⟨lb, ls, lf, hgan⟩ : d.eraseSecrets.gan.logged d1.gan := hd1 ▸ Dev.logNow_logged _ _ _
  obtain ⟨vs, out, hhif⟩ : d.eraseSecrets.hif.spoke d1.hif := hd1 ▸ Dev.logNow_spoke _ _ _
  have hregs : d.eraseSecrets.regsBut d1 logRegs := hd1 ▸ Dev.logNow_regsBut _ _ _
  have hattest : d1.getF rMgmtSecState fMgmtSecState_AttestReady = 0 := (Dev.getF_of_regsBut hregs (by decide) _).trans
    ((Dev.getF_putF_self _ _ _ _ (by decide)).trans (Nat.zero_mod _))
  have hide : d1.getF rHifIde fHifIde_State = 0 := by
    rw [Dev.getF_of_regsBut hregs (by decide), Dev.eraseSecrets, Dev.getF_putF_ne _ _ _ _ hne3, Dev.getF, Dev.reg_setReg_self]
    decide
  have he : e = (((d1.onGan (fun g => { g with debugFuse := true, debugOn := true })).putF rMgmtSecState fMgmtSecState_DebugOpened 1).putF
      rDevStatus fDevStatus_DebugOpened 1).onHif (fun h => { h with dbgOpen := true }) := by rw [hd1]; rfl
  have heg : e.gan = { d1.gan with debugFuse := true, debugOn := true } := by rw [he]; rfl
  have heh : e.hif = { d1.hif with dbgOpen := true } := by rw [he]; rfl
  rw [heg, heh, hgan, hhif]
  refine ⟨rfl, rfl, rfl, rfl, rfl, rfl, rfl, rfl, ?_, ?_, ?_, ?_⟩
  all_goals rw [he]
  · exact (Dev.getF_putF_ne _ _ _ _ hne1).trans (Dev.getF_putF_self _ _ _ _ (by decide))
  · exact (Dev.getF_putF_ne _ _ _ _ hne1).trans ((Dev.getF_putF_field _ _ _ _ _ (by decide) (.inr (by decide))).trans hattest)
  · exact Dev.getF_putF_self _ _ _ _ (by decide)
  · exact (Dev.getF_putF_ne _ _ _ _ hne2).trans ((Dev.getF_putF_ne _ _ _ _ hne3).trans hide)

/-! ## The commands, each once its length is good -/

theorem Dev.sensorRead_ends {d : Dev} (h : d.mbxRuns 0x02) (hm : d.reqLen ≤ 2048) (hl : Config.lenInRange 0x02 d.reqLen = true) :
    (∀ x : Nat × Bool, d.sensor (d.reqNum 0x02 0) = some x →
        d.mbxDone d.sensorRead d.gan 0 (Config.respBytes 0x02 (sensorNumbers (d.reqNum 0x02 0) x)))
      ∧ (d.sensor (d.reqNum 0x02 0) = none → d.mbxOpen d.sensorRead) := by
  have hrun := Dev.mailbox_good h hm hl
  refine ⟨fun x hx => ?_, fun hx => ?_⟩
  · rw [Dev.sensorRead, hrun]
    simp only [hx]
    exact d.finishMbx_drawn _ (by decide) _
  · rw [Dev.sensorRead, hrun]
    simp only [hx]
    exact d.openStatus_open

theorem Dev.logRead_ends {d : Dev} (h : d.mbxRuns 0x03) (hm : d.reqLen ≤ 2048) (hl : Config.lenInRange 0x03 d.reqLen = true) :
    let n := d.reqNum 0x03 1
    let rs := (List.range n).filterMap (fun j => (d.gan.logFlash ++ d.gan.logBuf).find? (fun r => r.seq == (d.reqNum 0x03 0 + j) % 2 ^ 32))
    (n = 0 ∨ 16 < n → d.mbxOpen d.logRead)
      ∧ (0 < n → n ≤ 16 → rs = [] → d.mbxDone d.logRead d.gan 6 [])
      ∧ (0 < n → n ≤ 16 → rs ≠ [] → d.mbxDone d.logRead d.gan 0 (rs.flatMap LogRec.bytes)) := by
  intro n rs
  have hrun : d.logRead = if n = 0 ∨ 16 < n then d.openStatus else if rs.isEmpty then d.finishMbx 6 [] else d.finishMbx 0 (rs.flatMap LogRec.bytes) :=
    Dev.mailbox_good h hm hl _
  rw [hrun]
  refine ⟨fun hn => ?_, fun h1 h2 hr => ?_, fun h1 h2 hr => ?_⟩
  · rw [if_pos hn]
    exact d.openStatus_open
  · rw [if_neg (by omega), if_pos (by rw [hr]; rfl)]
    exact d.finishMbx_ends (by decide) _
  · rw [if_neg (by omega), if_neg (by simpa using hr)]
    exact d.finishMbx_ends (by decide) _

theorem Dev.keyEnrol_ends {d : Dev} (h : d.mbxRuns 0x10) (hm : d.reqLen ≤ 2048) (hl : Config.lenInRange 0x10 d.reqLen = true) :
    let id := d.reqNum 0x10 0 % 65536
    let k : KeyEnt := { keyid := id, valid := true, ecdsa := d.reqBlob 0x10 0, lms := d.reqBlob 0x10 1 }
    (id = 0 → d.mbxOpen d.keyEnrol)
      ∧ (id ≠ 0 → d.keySlot id = none → d.mbxDone d.keyEnrol d.gan 5 [])
      ∧ (∀ j, id ≠ 0 → d.keySlot id = some j → d.mbxWaits d.keyEnrol (.enrol j k)) := by
  intro id k
  have hrun := Dev.mailbox_good h hm hl
  refine ⟨fun hz => ?_, fun hz hs => ?_, fun j hz hs => ?_⟩
  · rw [Dev.keyEnrol, hrun]
    rw [if_pos hz]
    exact d.openStatus_open
  · rw [Dev.keyEnrol, hrun]
    simp only [show d.keySlot (d.reqNum 0x10 0 % 65536) = none from hs]
    rw [if_neg hz]
    exact d.finishMbx_ends (by decide) _
  · rw [Dev.keyEnrol, hrun]
    simp only [show d.keySlot (d.reqNum 0x10 0 % 65536) = some j from hs]
    rw [if_neg hz]
    exact d.cfgAsk_waits _ _

theorem Dev.keyRevoke_ends {d : Dev} (h : d.mbxRuns 0x11) (hm : d.reqLen ≤ 2048) (hl : Config.lenInRange 0x11 d.reqLen = true) :
    let z := d.gan.cfg.keys.find? (fun y => y.2.keyid == d.reqNum 0x11 0 && y.2.valid)
    (z = none → d.mbxDone d.keyRevoke d.gan 6 []) ∧ (∀ y : Nat × KeyEnt, z = some y → d.mbxWaits d.keyRevoke (.revoke y.1)) := by
  intro z
  have hrun := Dev.mailbox_good h hm hl
  refine ⟨fun hz => ?_, fun y hz => ?_⟩
  · rw [Dev.keyRevoke, hrun]
    simp only [show d.gan.cfg.keys.find? (fun y => y.2.keyid == d.reqNum 0x11 0 && y.2.valid) = none from hz]
    exact d.finishMbx_ends (by decide) _
  · rw [Dev.keyRevoke, hrun]
    simp only [show d.gan.cfg.keys.find? (fun y => y.2.keyid == d.reqNum 0x11 0 && y.2.valid) = some y from hz]
    exact d.cfgAsk_waits d.free _

theorem Dev.keyList_ends {d : Dev} (h : d.mbxRuns 0x12) (hm : d.reqLen ≤ 2048) (hl : Config.lenInRange 0x12 d.reqLen = true) :
    let a := d.reqNum 0x12 0
    let n := d.reqNum 0x12 1
    (15 < a ∨ n = 0 ∨ 5 < n → d.mbxOpen d.keyList)
      ∧ (a ≤ 15 → 0 < n → n ≤ 5 → d.mbxDone d.keyList d.gan 0
          (((List.range n).filter (fun j => a + j ≤ 15)).flatMap (fun j => d.gan.cfg.keyBytes (a + j)))) := by
  intro a n
  have hrun := Dev.mailbox_good h hm hl
  refine ⟨fun hb => ?_, fun h1 h2 h3 => ?_⟩
  · rw [Dev.keyList, hrun, if_pos hb]
    exact d.openStatus_open
  · rw [Dev.keyList, hrun, if_neg (by omega)]
    exact d.finishMbx_ends (by decide) _

theorem fixLen_length (n : Nat) (bs : List Byte) : (fixLen n bs).length = n := by
  simp [fixLen, zeros]
  omega

theorem Dev.cfgRead_ends {d : Dev} (h : d.mbxRuns 0x20) (hm : d.reqLen ≤ 2048) (hl : Config.lenInRange 0x20 d.reqLen = true) :
    let n := d.reqNum 0x20 2
    (1024 < n → d.mbxOpen d.cfgRead) ∧ (n ≤ 1024 → ∃ bs : List Byte, bs.length = n ∧ d.mbxDone d.cfgRead d.gan 0 bs) := by
  intro n
  have hrun := Dev.mailbox_good h hm hl
  refine ⟨fun hb => ?_, fun hn => ?_⟩
  · rw [Dev.cfgRead, hrun, if_pos hb]
    exact d.openStatus_open
  · rw [Dev.cfgRead, hrun, if_neg (by omega)]
    exact ⟨_, fixLen_length _ _, d.finishMbx_ends (by decide) _⟩

theorem Dev.debugOpen_ends {d : Dev} {i : Ident} (h : d.mbxRuns 0x31) (hm : d.reqLen ≤ 2048) (hl : Config.lenInRange 0x31 d.reqLen = true) :
    (d.debugBarred = true → d.mbxDone (d.debugOpen i) d.gan 3 [])
      ∧ (d.debugBarred = false → d.tokenGood i = false → d.mbxDone (d.debugOpen i) { d.gan with nonce := none } 4 [])
      ∧ (d.debugBarred = false → d.tokenGood i = true → ∃ p, d.debugOpen i = ((d.onGan (fun g => { g with nonce := none })).debugOpened p).finishMbx 0 []) := by
  have hrun := Dev.mailbox_good h hm hl
  refine ⟨fun hb => ?_, fun hb ht => ?_, fun hb ht => ?_⟩
  · rw [Dev.debugOpen, hrun, if_pos hb]
    exact d.finishMbx_ends (by decide) _
  · rw [Dev.debugOpen, hrun, if_neg (by simp [hb])]
    simp only [ht, Bool.not_false, if_true]
    exact Dev.finishMbx_done (k := d.onGan (fun g => { g with nonce := none })) (.onGan (d.onlyIn_refl _)) (by decide) _
  · rw [Dev.debugOpen, hrun, if_neg (by simp [hb])]
    simp only [ht, Bool.not_true, Bool.false_eq_true, if_false]
    exact ⟨_, rfl⟩

/-- Settles O51, command by command. -/
theorem mailboxCommandsDoTheirWork : Obligations.MailboxCommandsDoTheirWork := by
  unfold Obligations.MailboxCommandsDoTheirWork
  refine ⟨fun row hrow s h => ?idle, fun s nonce h => ?waiting, fun row hrow s h hl => ?long, fun s nonce => ?plain, fun s hm => ?asking⟩
  case idle =>
    simp only [List.mem_cons, List.not_mem_nil, or_false] at hrow
    rcases hrow with rfl | rfl | rfl | rfl | rfl | rfl | rfl | rfl | rfl
    all_goals exact State.onDev_next (Dev.mailbox_idle h _ _)
  case waiting => exact State.onDev_next (Dev.mailbox_idle h _ _)
  case long =>
    have hdone : s.dev.mbxDone (s.dev.finishMbx 2 []) s.dev.gan 2 [] := s.dev.finishMbx_ends (by decide) _
    refine ⟨s.dev.finishMbx 2 [], ?_, hdone⟩
    simp only [List.mem_cons, List.not_mem_nil, or_false] at hrow
    rcases hrow with rfl | rfl | rfl | rfl | rfl | rfl | rfl
    all_goals exact State.onDev_next (Dev.mailbox_long h hl _)
  case plain =>
    intro d i g
    have hbad : d.mbxDone (d.finishMbx 2 []) g 2 [] := d.finishMbx_ends (by decide) _
    refine ⟨fun h => ⟨_, State.onDev_next rfl, fun hl => ?_, fun hl => ?_⟩, fun h => ?_, fun h => ⟨_, State.onDev_next rfl, fun hl => ?_, fun hl => ?_⟩⟩
    · rw [Dev.identityRead, Dev.mailbox_full h hl]
      exact hbad
    · rw [Dev.identityRead, Dev.mailbox_empty h hl]
      exact d.finishMbx_ends (by decide) _
    · refine ⟨(g.records.map (·.seq)).headD (Config.freeWord d.free), (g.records.map (·.seq)).getLastD (Config.freeWord (d.free + 1)), _,
        State.onDev_next rfl, fun hl => ?_, fun hl => ⟨?_, fun r hr => ?_, fun r hr => ?_⟩⟩
      · rw [Dev.logInfo, Dev.mailbox_full h hl]
        exact hbad
      · rw [Dev.logInfo, Dev.mailbox_empty h hl]
        exact d.finishMbx_drawn _ (by decide) _
      · rw [List.headD_eq_head?_getD, List.head?_map, show g.records.head? = some r from hr]
        rfl
      · rw [List.getLastD_eq_getLast?, List.getLast?_map, show g.records.getLast? = some r from hr]
        rfl
    · rw [Dev.debugChallenge, Dev.mailbox_full h hl]
      exact hbad
    · rw [Dev.debugChallenge, Dev.mailbox_empty h hl]
      exact Dev.finishMbx_done (k := d.onGan (fun g => { g with nonce := some nonce })) (.onGan (d.onlyIn_refl _)) (by decide) _
  case asking =>
    intro d g
    have hbad : d.mbxDone (d.finishMbx 2 []) g 2 [] := d.finishMbx_ends (by decide) _
    refine ⟨fun h => ⟨_, State.onDev_next rfl, fun hl => ?_, fun hl => Dev.sensorRead_ends h hm hl⟩,
      fun h => ⟨_, State.onDev_next rfl, fun hl => ?_, fun hl => Dev.logRead_ends h hm hl⟩,
      fun h => ⟨_, State.onDev_next rfl, fun hl => ?_, fun hl => ?_⟩,
      fun h => ⟨_, State.onDev_next rfl, fun hl => ?_, fun hl => Dev.keyRevoke_ends h hm hl⟩,
      fun h => ⟨_, State.onDev_next rfl, fun hl => ?_, fun hl => Dev.keyList_ends h hm hl⟩,
      fun h => ⟨_, State.onDev_next rfl, fun hl => ?_, fun hl => Dev.cfgRead_ends h hm hl⟩,
      fun h => ⟨_, State.onDev_next rfl, fun hl => ?_, fun hl => ?_⟩⟩
    · rw [Dev.sensorRead, Dev.mailbox_bad h hl]
      exact hbad
    · rw [Dev.logRead, Dev.mailbox_bad h hl]
      exact hbad
    · rw [Dev.keyEnrol, Dev.mailbox_bad h hl]
      exact hbad
    · obtain ⟨hzero, hfull, hnew⟩ := Dev.keyEnrol_ends h hm hl
      refine ⟨hzero, fun z hz hk => hnew _ hz (Dev.keySlot_held hk), fun hz hk => ⟨fun hall => hfull hz ?_, fun hex => ?_⟩⟩
      · have hnil : d.gan.cfg.openSlots = [] := List.eq_nil_iff_forall_not_mem.mpr fun j hj => by
          obtain ⟨hj16, hopen⟩ := CfgBlock.mem_openSlots.mp hj
          obtain ⟨z, hzj, hvalid⟩ := hall j hj16
          exact absurd (hopen z hzj) (by simp [hvalid])
        rw [Dev.keySlot_new hk, hnil]
        rfl
      · obtain ⟨j, hj⟩ := hex
        have hne : d.gan.cfg.openSlots ≠ [] := List.ne_nil_of_mem (CfgBlock.mem_openSlots.mpr hj)
        obtain ⟨x, hx, hslot⟩ := getElem?_mod_of_ne_nil hne (Config.freeWord d.free)
        obtain ⟨hx16, hopen⟩ := CfgBlock.mem_openSlots.mp hx
        exact ⟨x, hx16, hopen, hnew x hz ((Dev.keySlot_new hk).trans hslot)⟩
    · rw [Dev.keyRevoke, Dev.mailbox_bad h hl]
      exact hbad
    · rw [Dev.keyList, Dev.mailbox_bad h hl]
      exact hbad
    · rw [Dev.cfgRead, Dev.mailbox_bad h hl]
      exact hbad
    · rw [Dev.debugOpen, Dev.mailbox_bad h hl]
      exact hbad
    · obtain ⟨hbarred, hrefused, hopened⟩ := Dev.debugOpen_ends (i := s.ident) h hm hl
      refine ⟨fun hb => hbarred (d.debugBarred_iff.mpr hb), fun hb ht => hrefused (Bool.eq_false_iff.mpr fun h => hb (d.debugBarred_iff.mp h)) ht,
        fun hb ht => ?_⟩
      obtain ⟨p, hp⟩ := hopened (Bool.eq_false_iff.mpr fun h => hb (d.debugBarred_iff.mp h)) ht
      rw [hp]
      obtain ⟨hfuse, hon, hblocked, hatt, hsessions, hnonce, hkeys, hdbg, hsec, hready, hdev, hide⟩ :=
        (d.onGan (fun g => { g with nonce := none })).debugOpened_parts p
      generalize (d.onGan (fun g => { g with nonce := none })).debugOpened p = d1 at *
      obtain ⟨hstatus, hbusy, hevent, hgan, hregs, -⟩ := d1.finishMbx_parts (status := 0) (by decide) []
      obtain ⟨vs, out, hhif⟩ : d1.hif.spoke (d1.finishMbx 0 []).hif := Dev.raise_spoke _ _ _
      rw [hgan, hhif]
      exact ⟨hstatus, hbusy, hevent, hfuse, hon, hblocked, hatt, hsessions, hnonce, hkeys, hdbg, (Dev.getF_of_regsBut hregs (by decide) _).trans hsec,
        (Dev.getF_of_regsBut hregs (by decide) _).trans hready, (Dev.getF_of_regsBut hregs (by decide) _).trans hdev,
        (Dev.getF_of_regsBut hregs (by decide) _).trans hide⟩

end Sys2Proof.Machine
end

section
/-! # What parts the operations may change: Requests on the management bus (14 R410 to R412)

The lemma about an operation has its name, in the order of the definitions. -/

namespace Sys2Proof.Machine
-- These proofs are many and small: elaborated all at once they take more threads than the checker has.
set_option Elab.async false
namespace Dev.onlyIn
variable {d₀ d e : Dev} {C : List Comp}

theorem reply (h₀ : d₀.onlyIn d C) {b : Binding} {r : Reply} (sub : among [.gan] C := by rfl) : d₀.onlyIn (d.reply b r) C :=
  h₀.into sub fun _ hd => .onGan hd

theorem answer (h₀ : d₀.onlyIn d C) {b : Binding} {kind : Nat} {xs : List Nat} (sub : among [.gan] C := by rfl) : d₀.onlyIn
  (d.answer b kind xs) C :=
  h₀.into sub fun _ hd => .reply hd

end Dev.onlyIn
end Sys2Proof.Machine
end

section
/-! # Requests on the management bus (14 R410 to R412) -/

namespace Sys2Proof.Machine

/-! ## Requests on the management bus (14 R407, R410) -/

/-- A request that meets no firmware, or whose binding is down, changes nothing. -/
theorem Dev.mctp_deaf {d : Dev} {b : Binding} (h : ¬ d.heard b) (k : Dev → Dev) : d.mctp b k = d := by
  refine if_neg fun hb => h ?_
  simp only [Bool.and_eq_true, Bool.not_eq_true'] at hb
  exact ⟨hb.1.1, hb.1.2, hb.2⟩

theorem Dev.mctp_heard {d : Dev} {b : Binding} (h : d.heard b) (k : Dev → Dev) : d.mctp b k = k d := by
  obtain ⟨hfree, hidle, hup⟩ := h
  refine if_pos ?_
  simp [hfree, hidle, hup]

theorem Dev.reply_only (d : Dev) (b : Binding) (r : Reply) : d.only (d.reply b r) b r := ⟨rfl, .reply (d.onlyIn_refl _)⟩

/-- A reply after the gander changed. -/
theorem Dev.reply_said (d : Dev) (f : Gander → Gander) (b : Binding) (r : Reply) : d.said ((d.onGan f).reply b r) (f d.gan) b r [] :=
  ⟨rfl, .reply (.onGan (d.onlyIn_refl _))⟩

/-! ### Attestation's answers (R411, R412) -/

theorem Dev.attests_iff (d : Dev) (i : Ident) : d.attests i = true ↔ i.valid = true ∧ d.gan.debugFuse = false := by
  simp [Dev.attests]

theorem Dev.signedReq_barred {d : Dev} {b : Binding} {i : Ident} (h : d.heard b) (ha : ¬ (i.valid = true ∧ d.gan.debugFuse = false)) (k : Dev → Dev) :
    d.signedReq i b k = d.reply b .errUnspecified := by
  rw [Dev.signedReq, Dev.mctp_heard h, if_neg (fun hs => ha ((d.attests_iff i).mp hs))]

theorem Dev.signedReq_served {d : Dev} {b : Binding} {i : Ident} (h : d.heard b) (ha : i.valid = true ∧ d.gan.debugFuse = false) (k : Dev → Dev) :
    d.signedReq i b k = k d := by
  rw [Dev.signedReq, Dev.mctp_heard h, if_pos ((d.attests_iff i).mpr ha)]

/-- With fewer than four sessions a number below 4 is free. -/
theorem Gander.freeSession_free {g : Gander} (h : g.sessions.length < 4) : g.freeSession < 4 ∧ ∀ z ∈ g.sessions, z.number ≠ g.freeSession := by
  unfold Gander.freeSession
  cases hf : (List.range 4).find? (fun n => g.sessions.all (fun s => s.number != n)) with
  | some n =>
    have hall := List.find?_some hf
    have hmem := List.mem_of_find?_eq_some hf
    exact ⟨List.mem_range.mp hmem, fun z hz => by simpa using List.all_eq_true.mp hall z hz⟩
  | none =>
    exfalso
    have hused : ∀ n ∈ List.range 4, n ∈ g.sessions.map (·.number) := fun n hn => by
      have hno := List.find?_eq_none.mp hf n hn
      simpa using hno
    have hlen := (List.nodup_range (n := 4)).subperm (fun n hn => hused n hn) |>.length_le
    simp at hlen
    omega

/-! ### Wake requests (R375) -/

/-- A wake from the bus or the pin drives WAKE_N low where the link is not up (R375). -/
theorem Dev.startWake_wakeN (d : Dev) {src : Nat} (hs : src = 5 ∨ src = 6) (hl : d.getF rHifLink fHifLink_State ≠ 2) :
    (d.startWake src).hif.wakeN = false := by
  obtain ⟨x, hx⟩ : ∃ x, x = ((d.onPwr (fun x => { x with wakeFrom := d.pstate, wakeWaits := 0, entering := none })).setPstate 4).putF rPwrState
    fPwrState_WakeSrc src := ⟨_, rfl⟩
  have hwake : d.startWake src = x.driveWakeN src := by rw [hx]; rfl
  have hhif : x.hif = d.hif := by rw [hx]; rfl
  have hlink : x.getF rHifLink fHifLink_State = d.getF rHifLink fHifLink_State := by
    rw [hx]
    exact (Dev.getF_putF_ne _ _ _ _ (by decide)).trans (Dev.getF_putF_ne _ _ _ _ (by decide))
  rw [hwake, Dev.driveWakeN]
  split
  · rfl
  next hn =>
    have hlow : ¬ x.hif.wakeN = true := fun hw => hn ⟨hs, hlink ▸ hl, hw⟩
    simpa using hlow

/-! ### Endpoint addresses (R410) -/

/-- The field of MGMT_MCTP that holds a binding's endpoint address. -/
def eidField : Binding → Fld
  | .pcie => fMgmtMctp_EidPcie
  | .i3c => fMgmtMctp_EidI3c

/-- A device with the endpoint address of a binding set, and what answers for it. -/
def Dev.setEid (d : Dev) (b : Binding) (eid : Byte) : Dev := (d.putF rMgmtMctp (eidField b) eid.toNat).answer b 0x100 [eid.toNat]

theorem Dev.setEid_parts (d : Dev) (b : Binding) (eid : Byte) :
    d.said (d.setEid b eid) d.gan b (.ok (Config.respBytes 0x100 [eid.toNat])) [.regs] ∧ d.regsBut (d.setEid b eid) [rMgmtMctp]
      ∧ (d.setEid b eid).getF rMgmtMctp fMgmtMctp_EidPcie = (if b = .pcie then eid.toNat else d.getF rMgmtMctp fMgmtMctp_EidPcie)
      ∧ (d.setEid b eid).getF rMgmtMctp fMgmtMctp_EidI3c = (if b = .i3c then eid.toNat else d.getF rMgmtMctp fMgmtMctp_EidI3c) := by
  refine ⟨⟨rfl, .answer (.putF (d.onlyIn_refl _))⟩, d.regsBut_putF _ _ _, ?_, ?_⟩
  all_goals
    cases b
  · exact (Dev.getF_putF_self _ _ _ _ (by decide)).trans (Nat.mod_eq_of_lt eid.isLt)
  · exact Dev.getF_putF_field _ _ _ _ _ (by decide) (by decide)
  · exact Dev.getF_putF_field _ _ _ _ _ (by decide) (by decide)
  · exact (Dev.getF_putF_self _ _ _ _ (by decide)).trans (Nat.mod_eq_of_lt eid.isLt)

/-- SET_ENDPOINT_ID. -/
theorem Dev.setEndpointId_heard {d : Dev} {b : Binding} (h : d.heard b) (eid : Byte) : d.setEndpointId b eid = d.setEid b eid := by
  refine (Dev.mctp_heard h _).trans ?_
  cases b <;> rfl

/-- Settles O53, request by request. -/
theorem managementRequestsAreAnswered : Obligations.ManagementRequestsAreAnswered := by
  unfold Obligations.ManagementRequestsAreAnswered
  refine ⟨fun row hrow s b h => ?deaf, fun s b eid ours n h => ?control, fun s addr => ?i3c, fun s b slot nonce h => ?spdm⟩
  case deaf =>
    simp only [List.mem_cons, List.not_mem_nil, or_false] at hrow
    rcases hrow with rfl | rfl | rfl | rfl | rfl | rfl | rfl | rfl | rfl | rfl | rfl | rfl | rfl | rfl | rfl | rfl | rfl | rfl | rfl | rfl | rfl | rfl | rfl | rfl | rfl
    all_goals refine State.onDev_next ?_
    all_goals
      simp only [Dev.getVersion, Dev.getCapabilities, Dev.pldmBaseDiscovery, Dev.vdmWake, Dev.getDigests, Dev.queryDeviceIdentifiers,
        Dev.getFirmwareParameters, Dev.getStatus, Dev.passComponentTable, Dev.activateFirmware, Dev.cancelUpdateComponent, Dev.cancelUpdate,
        Dev.setEndpointId, Dev.negotiateAlgorithms, Dev.pldmPlatformMonitoring, Dev.getCertificate, Dev.challenge, Dev.getMeasurements,
        Dev.keyExchange, Dev.finishSession, Dev.heartbeat, Dev.keyUpdate, Dev.endSession, Dev.ideKm, Dev.updateComponent, Dev.signedReq,
        Dev.fromAgent, Dev.inSession, Dev.mctp_deaf h]
  case control =>
    intro d g
    refine ⟨fun row hrow => ?_, ⟨_, State.onDev_next (Dev.setEndpointId_heard h eid), ?_⟩, ⟨_, State.onDev_next (Dev.mctp_heard h _), ?_⟩,
      ⟨_, State.onDev_next (Dev.mctp_heard h _), fun hn => ?_, fun x hx => ?_⟩, fun hw => ?_, fun hw hp => ?_, fun hw hp => ?_⟩
    · simp only [List.mem_cons, List.not_mem_nil, or_false] at hrow
      rcases hrow with rfl | rfl | rfl
      all_goals exact ⟨_, State.onDev_next (Dev.mctp_heard h _), d.reply_only _ _⟩
    · exact d.setEid_parts b eid
    · cases ours with
      | true => exact d.reply_said _ _ _
      | false => exact d.reply_said _ _ _
    · simp only [show s.dev.sensor n = none from hn]
      exact d.reply_only _ _
    · simp only [show s.dev.sensor n = some x from hx]
      exact ⟨rfl, .reply (.set_free (d.onlyIn_refl _))⟩
    · refine State.onDev_next ((Dev.mctp_heard h _).trans (if_neg ?_))
      rw [show s.dev.getF rPwrWakeEn fPwrWakeEn_Mgmt = 0 from hw]
      decide
    · refine ⟨d.startWake 5, State.onDev_next ((Dev.mctp_heard h _).trans ((if_pos hw).trans ?_)), ?_⟩
      · exact (if_pos hp).trans (if_neg (by simp))
      · obtain ⟨hstate, -, hsrc, -⟩ := d.startWake_wakes 5
        refine ⟨hstate, hsrc, fun hl => d.startWake_wakeN (.inl rfl) hl, .startWake (d.onlyIn_refl _)⟩
    · exact State.onDev_next ((Dev.mctp_heard h _).trans ((if_pos hw).trans (Dev.wakeSource_active hp 5)))
  case i3c =>
    refine ⟨fun hf => ?_, fun hf => ⟨_, State.onDev_next (if_pos hf), ?_, s.dev.regsBut_putF _ _ _, .putF (s.dev.onlyIn_refl _)⟩⟩
    · exact State.onDev_next (if_neg (by rw [hf]; decide))
    · exact (Dev.getF_putF_self _ _ _ _ (by decide)).trans (Nat.mod_eq_of_lt addr.isLt)
  case spdm =>
    intro d i g attests cert sign chain
    refine ⟨fun row hrow ha => ?_, fun ha hs row hrow => ?_, fun ha => ?_, fun ha => ?_, fun ha => ?_, fun ha hl => ?_, fun ha hl => ?_⟩
    · refine ⟨d.reply b .errUnspecified, ?_, d.reply_only _ _⟩
      simp only [List.mem_cons, List.not_mem_nil, or_false] at hrow
      rcases hrow with rfl | rfl | rfl | rfl
      all_goals exact State.onDev_next (Dev.signedReq_barred h ha _)
    · refine ⟨d.reply b .errOther, ?_, d.reply_only _ _⟩
      simp only [List.mem_cons, List.not_mem_nil, or_false] at hrow
      rcases hrow with rfl | rfl | rfl
      all_goals exact State.onDev_next ((Dev.signedReq_served h ha _).trans (if_pos hs))
    · exact ⟨_, State.onDev_next (Dev.signedReq_served h ha _), d.reply_only _ _⟩
    · exact ⟨_, State.onDev_next ((Dev.signedReq_served h ha _).trans (if_neg (by simp))), d.reply_only _ _⟩
    · exact ⟨_, State.onDev_next ((Dev.signedReq_served h ha _).trans (if_neg (by simp))), d.reply_only _ _⟩
    · exact ⟨d.reply b .errSessionLimit, State.onDev_next ((Dev.signedReq_served h ha _).trans ((if_neg (by simp)).trans (if_pos hl))), d.reply_only _ _⟩
    · obtain ⟨hn, hfree⟩ := Gander.freeSession_free hl
      refine ⟨g.freeSession, _, State.onDev_next ((Dev.signedReq_served h ha _).trans ((if_neg (by simp)).trans (if_neg (show ¬ 4 ≤ g.sessions.length by omega)))), hn, hfree, ?_⟩
      exact d.reply_said _ _ _

end Sys2Proof.Machine
end

section
/-! # Measurements, attestation keys and sessions (14 R412 to R414) -/

namespace Sys2Proof.Machine

/-! ## Measurements (14 R412 to R414) -/

/-- The reply with measurement blocks `bs`, with block 0xF0 as `f0`, and signed where that is asked for. -/
def Gander.measured (g : Gander) (i : Ident) (bs : List (Nat × List Nat)) (f0 : List Byte) (sg : Bool) (nonce : BitVec 256) : Reply :=
  let m := Config.respBytes 0x114 (bs.flatMap (fun x => x.1 :: x.2) ++ [leNat f0, f0.length])
  .ok (if sg then m ++ g.aliasSign i (leBytes 32 nonce.toNat ++ m) else m)

section
variable {d : Dev} {b : Binding} {i : Ident} {ns : List Nat} {sg : Bool} {nonce : BitVec 256} (h : d.heard b)
include h

theorem Dev.getMeasurements_barred (hs : (sg || ns.contains 0xF0) = true) (ha : d.attests i = false) :
    d.getMeasurements i b ns sg nonce = d.reply b .errUnspecified :=
  (Dev.mctp_heard h _).trans (if_pos (by simp only [hs, ha, Bool.not_false, Bool.and_true]))

theorem Dev.getMeasurements_plain (hf : ns.contains 0xF0 = false) (ha : sg = true → d.attests i = true) :
    d.getMeasurements i b ns sg nonce = d.sendMeasurements i b (d.blocks ns) [] sg nonce := by
  have hno : ¬ ((sg || ns.contains 0xF0) && !d.attests i) = true := by
    rw [hf]
    cases hs : sg with
    | false => simp
    | true => simp [ha hs]
  exact (Dev.mctp_heard h _).trans ((if_neg hno).trans (if_pos (by rw [hf]; rfl)))

variable (hf : ns.contains 0xF0 = true) (ha : d.attests i = true)
include hf ha

theorem Dev.getMeasurements_spent (hl : 32768 ≤ d.gan.lmsUsed) :
    d.getMeasurements i b ns sg nonce = d.sendMeasurements i b (d.blocks ns) [1] sg nonce := by
  refine (Dev.mctp_heard h _).trans ?_
  have hspent : d.gan.exhausted = true := decide_eq_true hl
  simp only [ha, hf, hspent, Bool.not_true, Bool.and_false, Bool.false_eq_true, if_false, if_true]

theorem Dev.getMeasurements_waits (hl : d.gan.lmsUsed < 32768) (hk : ∀ k : AttKey, d.gan.att = some k → 32768 ≤ k.used) :
    d.getMeasurements i b ns sg nonce = d := by
  refine (Dev.mctp_heard h _).trans ?_
  have hleft : d.gan.exhausted = false := decide_eq_false (by omega)
  simp only [ha, hf, hleft, Bool.not_true, Bool.and_false, Bool.false_eq_true, if_false]
  split
  · rfl
  next k hatt => exact if_pos (hk k hatt)

theorem Dev.getMeasurements_leaf (hl : d.gan.lmsUsed < 32768) {k : AttKey} (hatt : d.gan.att = some k) (hk : k.used < 32768) :
    d.getMeasurements i b ns sg nonce = (d.onGan (fun g => { g with att := some { k with used := k.used + 1 } })).sendMeasurements i b (d.blocks ns)
      (d.gan.block240 i k nonce (d.blocks ns)) sg nonce := by
  refine (Dev.mctp_heard h _).trans ?_
  have hleft : d.gan.exhausted = false := decide_eq_false (by omega)
  have hused : ¬ 32768 ≤ k.used := by omega
  simp only [ha, hf, hleft, hatt, hused, Bool.not_true, Bool.and_false, Bool.false_eq_true, if_false]

end

/-! ## Attestation keys (14 R413) -/

/-- The device with a fresh attestation key, before its warning. -/
def Dev.keyed (d : Dev) (seed : BitVec 256) (leaf : Option Nat) (used : Nat) : Dev :=
  let d := d.onGan (fun g => { g with att := some { seed := seed, used := 0, idLeaf := leaf }, lmsUsed := used })
  let d := d.setReg rMgmtLms (BitVec.ofNat 64 (min used 0xFFFF))
  (d.putF rMgmtSecState fMgmtSecState_AttestReady 1).putF rMgmtSecState fMgmtSecState_LmsExhausted (if 32768 ≤ used then 1 else 0)

theorem Dev.keyed_parts (d : Dev) (seed : BitVec 256) (leaf : Option Nat) (used : Nat) :
    (d.keyed seed leaf used).gan = { d.gan with att := some { seed := seed, used := 0, idLeaf := leaf }, lmsUsed := used }
      ∧ (d.keyed seed leaf used).getF rMgmtLms fMgmtLms_Used = min used 65535
      ∧ (d.keyed seed leaf used).getF rMgmtSecState fMgmtSecState_AttestReady = 1
      ∧ (d.keyed seed leaf used).getF rMgmtSecState fMgmtSecState_LmsExhausted = (if 32768 ≤ used then 1 else 0)
      ∧ d.regsBut (d.keyed seed leaf used) [rMgmtLms, rMgmtSecState] ∧ d.onlyIn (d.keyed seed leaf used) [.gan, .regs] := by
  have hne : rMgmtLms ≠ rMgmtSecState := by decide
  refine ⟨rfl, ?_, ?_, ?_, ?_, .putF (.putF (.setReg (.onGan (d.onlyIn_refl _))))⟩
  · rw [Dev.keyed, Dev.getF_putF_ne _ _ _ _ hne, Dev.getF_putF_ne _ _ _ _ hne, Dev.getF, Dev.reg_setReg_self]
    exact fld_ofNat_low (by omega) (by decide)
  · exact (Dev.getF_putF_field _ _ _ _ _ (by decide) (by decide)).trans (Dev.getF_putF_self _ _ _ _ (by decide))
  · refine (Dev.getF_putF_self _ _ _ _ (by decide)).trans ?_
    split <;> rfl
  · exact Dev.regsBut_setReg_mem (Dev.regsBut_setReg_mem (Dev.regsBut_setReg_mem (fun _ _ => rfl) (by simp) _) (by simp) _) (by simp) _

/-- Whether the attestation key has no leaf left, or there is none. -/
theorem Dev.attestationKeyGen_waits {d : Dev} (h : d.ganFree = false ∨ d.gan.secretBlocked = true ∨ ¬ ∀ k : AttKey, d.gan.att = some k → 32768 ≤ k.used)
    (seed : BitVec 256) : d.attestationKeyGen seed = d := by
  refine if_pos ?_
  rcases h with h | h | h
  · simp [h]
  · simp [h]
  · push Not at h
    obtain ⟨k, hk, hused⟩ := h
    simp [hk, hused]

theorem Dev.attestationKeyGen_keys {d : Dev} (hf : d.ganFree = true) (hs : d.gan.secretBlocked = false)
    (hk : ∀ k : AttKey, d.gan.att = some k → 32768 ≤ k.used) (seed : BitVec 256) :
    let used := if 32768 ≤ d.gan.lmsUsed then d.gan.lmsUsed else d.gan.lmsUsed + 1
    let e := d.keyed seed (if 32768 ≤ d.gan.lmsUsed then none else some d.gan.lmsUsed) used
    d.attestationKeyGen seed = if d.gan.lmsUsed < 32768 ∧ 32768 - used < 1024 then e.raise pgMgmt 0x40 else e := by
  intro used e
  have hspent : ∀ p : Bool, (match d.gan.att with | none => true | some k => decide (32768 ≤ k.used)) = p → p = true := fun p hp => by
    rw [← hp]
    cases hatt : d.gan.att with
    | none => rfl
    | some k => exact decide_eq_true (hk k hatt)
  unfold Dev.attestationKeyGen
  dsimp only
  rw [if_neg ?_]
  · by_cases hl : 32768 ≤ d.gan.lmsUsed
    · have hexhausted : d.gan.exhausted = true := decide_eq_true hl
      simp only [e, used, Dev.keyed, hexhausted, hl, if_true, show ¬ d.gan.lmsUsed < 32768 by omega, Option.isSome_none, Bool.false_eq_true, false_and, if_false]
    · have hexhausted : d.gan.exhausted = false := decide_eq_false hl
      simp only [e, used, hexhausted, hl, show d.gan.lmsUsed < 32768 by omega, Option.isSome_some, Bool.false_eq_true, true_and, if_false]
      rfl
  · rw [hf, hs]
    simp only [Bool.not_true, Bool.false_eq_true, false_or, Bool.not_eq_true', Bool.not_eq_false]
    exact hspent _ rfl

/-! ## Sessions (14 R412; 15 R430) -/

section
variable {d : Dev} {b : Binding} {n : Nat} (h : d.heard b)
include h

/-- Without a finished session a request within one is refused. -/
theorem Dev.inSession_refused (hz : ∀ x : Session, d.session b n = some x → x.finished = false) (k : Dev → Dev) :
    d.inSession b n k = d.reply b .errOther := by
  refine (Dev.mctp_heard h _).trans ?_
  split
  next x hx => exact if_neg (by simp [hz x hx])
  · rfl

theorem Dev.inSession_served {x : Session} (hx : d.session b n = some x) (hf : x.finished = true) (k : Dev → Dev) : d.inSession b n k = k d := by
  refine (Dev.mctp_heard h _).trans ?_
  simp only [hx, hf, if_true]

theorem Dev.finishSession_refused (hz : ∀ x : Session, d.session b n = some x → x.finished = true) : d.finishSession b n = d.reply b .errOther := by
  refine (Dev.mctp_heard h _).trans ?_
  split
  next x hx => exact if_pos (hz x hx)
  · rfl

theorem Dev.finishSession_finishes {x : Session} (hx : d.session b n = some x) (hf : x.finished = false) :
    d.finishSession b n = (d.modSession n (fun s => { s with finished := true })).answer b 0x117 [n] := by
  refine (Dev.mctp_heard h _).trans ?_
  simp only [hx, hf, Bool.false_eq_true, if_false]

end

/-- IDE_KM within a session. -/
def Dev.ideKmServed (d : Dev) (b : Binding) (n : Nat) (keySet switch : Bool) : Dev :=
  if d.gan.debugFuse then d.reply b .errOther
  else if !switch then (d.onHif (fun h => { h with ideKeys := keySet :: h.ideKeys.filter (· != keySet) })).answer b 0x11B [n]
  else if !d.hif.ideKeys.contains keySet then d.reply b .errOther
  else (d.setReg rHifIde (BitVec.ofNat 64 (1 + if keySet then 4 else 0))).answer b 0x11C [n]

/-- The warning that few identity leaves are left, and what it leaves alone. -/
theorem Dev.leavesLow_parts (k : Dev) (c : Prop) [Decidable c] :
    let e := if c then k.raise pgMgmt 0x40 else k
    e.gan = k.gan ∧ (∀ a, a = rMgmtLms ∨ a = rMgmtSecState → ∀ f, e.getF a f = k.getF a f) ∧ (c → e.event pgMgmt 6 = true)
      ∧ k.regsBut e (raiseRegs pgMgmt) ∧ k.onlyIn e [.regs, .hif] := by
  by_cases hc : c
  · simp only [hc, if_true]
    refine ⟨k.raise_gan _ _, fun a ha f => Dev.getF_of_regsBut (k.raise_regsBut pgMgmt 0x40) ?_ f,
      fun _ => Dev.raise_sets _ (by decide) (by decide) (by decide), k.raise_regsBut _ _, k.raise_frame _ _⟩
    rcases ha with rfl | rfl <;> decide
  · simp only [hc, if_false]
    exact ⟨trivial, fun _ _ _ => trivial, False.elim, k.regsBut_refl _, k.onlyIn_refl _⟩

/-- Settles O54: measurements, keys and sessions by their cases. -/
theorem measurementsAndSessionsAreServed : Obligations.MeasurementsAndSessionsAreServed := by
  unfold Obligations.MeasurementsAndSessionsAreServed
  refine ⟨fun s b ns sg nonce h => ?measure, fun s seed => ?key, fun s b n set sw h => ?session⟩
  case measure =>
    intro d i g attests bs answer f0
    refine ⟨fun hs ha => ⟨_, State.onDev_next (Dev.getMeasurements_barred h hs ha), d.reply_only _ _⟩,
      fun hf ha => ⟨_, State.onDev_next (Dev.getMeasurements_plain h hf ha), d.reply_only _ _⟩,
      fun hf ha hl => ⟨_, State.onDev_next (Dev.getMeasurements_spent h hf ha hl), d.reply_only _ _⟩,
      fun hf ha hl hk => State.onDev_next (Dev.getMeasurements_waits h hf ha hl hk),
      fun k hf ha hl hatt hk => ⟨_, State.onDev_next (Dev.getMeasurements_leaf h hf ha hl hatt hk), d.reply_said _ _ _⟩⟩
  case key =>
    intro d g spent used
    refine ⟨fun hw => State.onDev_next (Dev.attestationKeyGen_waits hw seed), fun hf hs hk => ⟨_, State.onDev_next (Dev.attestationKeyGen_keys hf hs hk seed), ?_⟩⟩
    obtain ⟨hgan, hused, hready, hexhausted, hregs, hframe⟩ := d.keyed_parts seed (if 32768 ≤ g.lmsUsed then none else some g.lmsUsed) used
    generalize d.keyed seed (if 32768 ≤ g.lmsUsed then none else some g.lmsUsed) used = k at *
    obtain ⟨hkgan, hkreg, hkevent, hkregs, hkframe⟩ := k.leavesLow_parts (g.lmsUsed < 32768 ∧ 32768 - used < 1024)
    exact ⟨hkgan.trans hgan, (hkreg _ (.inl rfl) _).trans hused, (hkreg _ (.inr rfl) _).trans hready, (hkreg _ (.inr rfl) _).trans hexhausted,
      fun h1 h2 => hkevent ⟨h1, h2⟩, Dev.regsBut_trans (Dev.regsBut_mono hregs (by simp)) (Dev.regsBut_mono hkregs (by simp)),
      Dev.onlyIn.after (Dev.onlyIn_sub _ hframe rfl) hkframe rfl⟩
  case session =>
    intro d g z
    refine ⟨fun row hrow hz => ?_, fun hz => ⟨_, State.onDev_next (Dev.finishSession_refused h hz), d.reply_only _ _⟩,
      fun x hx hf => ⟨_, State.onDev_next (Dev.finishSession_finishes h hx hf), d.reply_said _ _ _⟩,
      fun x hx hf => ⟨⟨_, State.onDev_next (Dev.inSession_served h hx hf _), d.reply_only _ _⟩,
        ⟨_, State.onDev_next (Dev.inSession_served h hx hf _), d.reply_said _ _ _⟩,
        ⟨_, State.onDev_next (Dev.inSession_served h hx hf _), d.reply_said _ _ _⟩,
        ⟨d.ideKmServed b n set sw, State.onDev_next (Dev.inSession_served h hx hf _), ?_⟩⟩⟩
    · refine ⟨d.reply b .errOther, ?_, d.reply_only _ _⟩
      simp only [List.mem_cons, List.not_mem_nil, or_false] at hrow
      rcases hrow with rfl | rfl | rfl | rfl
      all_goals exact State.onDev_next (Dev.inSession_refused h hz _)
    · refine ⟨fun hd => ?_, fun hd hs => ?_, fun hd hs hk => ?_, fun hd hs hk => ?_⟩
      · rw [Dev.ideKmServed, if_pos hd]
        exact d.reply_only _ _
      · rw [Dev.ideKmServed, if_neg (by simpa using hd), hs, if_pos (by decide)]
        exact ⟨⟨rfl, .answer (.onHif (d.onlyIn_refl _))⟩, rfl⟩
      · rw [Dev.ideKmServed, if_neg (by simpa using hd), hs, if_neg (by decide), if_pos (by simpa using hk)]
        exact d.reply_only _ _
      · rw [Dev.ideKmServed, if_neg (by simpa using hd), hs, if_neg (by decide), if_neg (by simpa using hk)]
        have hreg : ((d.setReg rHifIde (BitVec.ofNat 64 (1 + if set = true then 4 else 0))).answer b 0x11C [n]).reg rHifIde
            = BitVec.ofNat 64 (1 + if set = true then 4 else 0) := Dev.reg_setReg_self _ _ _
        refine ⟨⟨rfl, .answer (.setReg (d.onlyIn_refl _))⟩, d.regsBut_setReg _ _, ?_, ?_⟩
        · rw [Dev.getF, hreg]
          cases set <;> decide
        · rw [Dev.getF, hreg]
          cases set <;> decide

end Sys2Proof.Machine
end

section
/-! # What parts the operations may change: A firmware update (14 R415 to R417)

The lemma about an operation has its name, in the order of the definitions. -/

namespace Sys2Proof.Machine
-- These proofs are many and small: elaborated all at once they take more threads than the checker has.
set_option Elab.async false
namespace Dev.onlyIn
variable {d₀ d e : Dev} {C : List Comp}

theorem modUpd (h₀ : d₀.onlyIn d C) {f : Update → Update} (sub : among [.gan] C := by rfl) : d₀.onlyIn (d.modUpd f) C :=
  h₀.into sub fun _ hd => .onGan hd

end Dev.onlyIn
end Sys2Proof.Machine
end

section
/-! # A firmware update (14 R415 to R417) -/

namespace Sys2Proof.Machine

/-! ## Which registers an access to stack memory may change -/

/-- A register of the stacks' pages, or one that a report of theirs may change. -/
def stackSide (a : Nat) : Prop := (0x400000 ≤ a ∧ a < 0x4C0000) ∨ a ∈ rRasInject :: logRegs

/-- From `d` to `e` no register changed but those on the stacks' side. -/
def Dev.besidesStacks (d e : Dev) : Prop := ∀ a, ¬ stackSide a → e.reg a = d.reg a

namespace Dev.besidesStacks
variable {d e f : Dev}

theorem refl (d : Dev) : d.besidesStacks d := fun _ _ => rfl

theorem trans (h : d.besidesStacks e) (k : e.besidesStacks f) : d.besidesStacks f := fun a ha => (k a ha).trans (h a ha)

theorem of_regs (h : e.regs = d.regs) : d.besidesStacks e := fun a _ => Dev.reg_congr h a

theorem of_regsBut {rs : List Nat} (h : d.regsBut e rs) (hs : ∀ a ∈ rs, stackSide a) : d.besidesStacks e := fun a ha =>
  h a (Bool.eq_false_iff.mpr fun hc => ha (hs a (List.contains_iff_mem.mp hc)))

theorem ite {a b : Dev} {c : Prop} [Decidable c] (ha : d.besidesStacks a) (hb : d.besidesStacks b) : d.besidesStacks (if c then a else b) := by
  split
  · exact ha
  · exact hb

theorem foldl {α : Type} {p : α → Prop} {f : Dev → α → Dev} (hf : ∀ (d : Dev) a, p a → d.besidesStacks (f d a)) (l : List α) (hl : ∀ a ∈ l, p a) (d : Dev) :
    d.besidesStacks (l.foldl f d) := by
  induction l generalizing d with
  | nil => exact refl d
  | cons a l ih => exact (hf d a (hl a List.mem_cons_self)).trans (ih (fun b hb => hl b (List.mem_cons_of_mem _ hb)) _)

end Dev.besidesStacks

theorem stackSide_page {n a : Nat} (hn : n < 12) (h : 0x400000 + 0x10000 * n ≤ a) (h' : a < 0x410000 + 0x10000 * n) : stackSide a := .inl (by omega)

theorem stackSide_raise {n page : Nat} (hn : n < 12) (hp : page = pgCs0 n ∨ page = pgCs1 n) : ∀ a ∈ raiseRegs page, stackSide a := by
  intro a ha
  simp only [raiseRegs, List.mem_cons, List.not_mem_nil, or_false] at ha
  rcases ha with rfl | rfl | rfl
  · refine stackSide_page hn ?_ ?_
    all_goals
      rcases hp with rfl | rfl <;> simp only [rBlkIntStat, pgCs0, pgCs1] <;> omega
  · exact .inr (by decide)
  · exact .inr (by decide)

section
variable {n : Nat} (hn : n < 12)
include hn

theorem stackSide_errLog : ∀ a ∈ logErrRegs n, stackSide a := by
  intro a ha
  rw [logErrRegs, errLogRegs, List.mem_append, List.mem_append, List.mem_cons] at ha
  rcases ha with (((rfl | hm) | hr) | hl)
  · exact stackSide_page hn (by simp only [rCsErrOvf]; omega) (by simp only [rCsErrOvf]; omega)
  · obtain ⟨i, hi, hm⟩ := List.mem_flatMap.mp hm
    have hi32 := List.mem_range.mp hi
    simp only [rCsErrLogA, rCsErrLogB, rCsErrLogTime, List.mem_cons, List.not_mem_nil, or_false] at hm
    exact stackSide_page hn (by omega) (by omega)
  · exact stackSide_raise hn (.inr rfl) a hr
  · exact .inr (List.mem_cons_of_mem _ hl)

theorem Dev.countErr_besides (d : Dev) (un : Bool) : d.besidesStacks (d.countErr n un) := by
  refine .of_regsBut (d.countErr_regsBut n un) fun a ha => ?_
  rcases List.mem_cons.mp ha with rfl | hr
  · exact stackSide_page hn (by simp only [rCsErrTotal]; omega) (by simp only [rCsErrTotal]; omega)
  · exact stackSide_raise hn (.inr rfl) a hr

theorem Dev.countPoison_besides (d : Dev) (f : Fld) : d.besidesStacks (d.addF (rCsPoison n) f 1) := by
  refine .of_regsBut (d.regsBut_putF _ _ _) fun a ha => ?_
  obtain rfl := List.mem_singleton.mp ha
  exact stackSide_page hn (by simp only [rCsPoison]; omega) (by simp only [rCsPoison]; omega)

theorem Dev.raiseStack_besides (d : Dev) {page : Nat} (hp : page = pgCs0 n ∨ page = pgCs1 n) (bits : Nat) : d.besidesStacks (d.raise page bits) :=
  .of_regsBut (d.raise_regsBut page bits) (stackSide_raise hn hp)

theorem Dev.transfer_besides (d : Dev) : d.besidesStacks (d.transfer n).1 := by
  have hretry : ∀ (d : Dev) f k, d.besidesStacks (d.addF (rCsIfRetry n) f k) := fun d f k => .of_regsBut (d.regsBut_putF _ _ _) fun a ha => by
    obtain rfl := List.mem_singleton.mp ha
    exact stackSide_page hn (by simp only [rCsIfRetry]; omega) (by simp only [rCsIfRetry]; omega)
  unfold Dev.transfer
  split
  · exact .refl d
  next x _ =>
    have hdrop : d.besidesStacks { d with upsets := d.upsets.filter (fun (y : Upset) => !(y.arr == SramArray.ifTransfer && y.unit == n)) } := .of_regs rfl
    dsimp only
    split
    · exact hdrop.trans (hretry _ _ _)
    · exact ((hdrop.trans (hretry _ _ _)).trans (hretry _ _ _)).trans ((Dev.raiseStack_besides hn _ (.inr rfl) _).trans (.of_regs rfl))

end

namespace Dev.besidesStacks
variable {d₀ d : Dev} {g src : Nat} (hg : stackOf g < 12) (h : d₀.besidesStacks d)
include hg h

theorem logErr {kind syms : Nat} : d₀.besidesStacks (d.logErr g kind syms src) :=
  (h.trans (d.countErr_besides hg _)).trans (.of_regsBut (logErr_after d g kind syms src) (stackSide_errLog hg))

theorem countPoison {f : Fld} : d₀.besidesStacks (d.addF (rCsPoison (stackOf g)) f 1) := h.trans (d.countPoison_besides hg f)

theorem raise {bits : Nat} : d₀.besidesStacks (d.raise (pgCs0 (stackOf g)) bits) := h.trans (d.raiseStack_besides hg (.inl rfl) bits)

omit hg in
theorem set_stk {m : Memory} : d₀.besidesStacks { d with stk := m } := h

theorem poisonGran : d₀.besidesStacks (d.poisonGran g src) := by
  unfold Dev.poisonGran
  exact logErr hg (raise hg (countPoison hg (set_stk h)))

theorem checkBitmap : d₀.besidesStacks (d.checkBitmap g src) := by
  unfold Dev.checkBitmap
  split
  · exact h
  next x _ =>
    have hdrop : d₀.besidesStacks (d.dropUpset .bitmapWord (stackOf g) (bitmapWordOf g)) := h.trans (.of_regs (Dev.dropUpset_frame _ _ _ _ .regs rfl))
    exact .ite (logErr hg (set_stk hdrop)) (logErr hg hdrop)

theorem readGran : d₀.besidesStacks (d.readGran src g).1 := by
  have ht := h.trans (d.transfer_besides hg)
  unfold Dev.readGran
  simp only
  generalize d.transfer (stackOf g) = t at ht ⊢
  obtain ⟨t, ok⟩ := t
  have hb := checkBitmap hg (src := src) ht
  generalize t.checkBitmap g src = e at hb ⊢
  have hp := poisonGran hg (src := src) hb
  generalize e.poisonGran g src = q at hp ⊢
  split
  · exact countPoison hg h
  split
  · exact ht
  split
  · exact hb
  split
  · exact countPoison hg hb
  split
  · exact hb
  split
  · exact logErr hg hb
  split
  · exact hp
  split
  · exact hp
  · exact hb
  · exact hb

theorem writeWhole {bs : List Byte} {poison : Bool} {bad : Nat} : d₀.besidesStacks (d.writeWhole g bs poison bad) := by
  have ht := h.trans (d.transfer_besides hg)
  unfold Dev.writeWhole
  generalize d.transfer (stackOf g) = t at ht ⊢
  have hb := checkBitmap hg (src := 7) ht
  exact .ite ht (.ite (set_stk hb) (set_stk hb))

end Dev.besidesStacks

theorem Dev.writeGran_besides (d : Dev) {a : Nat} (ha : a < stackTop) (bs : List Byte) (poison : Bool) : d.besidesStacks (d.writeGran a bs poison) := by
  have hg : stackOf (granOf a) < 12 := by
    have hb : stackBytes = 77309411328 := rfl
    have ht : stackTop = 927712935936 := rfl
    rw [ht] at ha
    rw [stackOf, granOf, hb]
    omega
  have hi : ∀ c : Bool, d.besidesStacks (if c then d.putF rRasInject fRasInject_Mode 0 else d) := fun c =>
    .ite (.of_regsBut (d.regsBut_putF _ _ _) fun b hb => .inr (by simp_all)) (.refl d)
  unfold Dev.writeGran
  refine .ite (.refl d) (.ite (.writeWhole hg (hi _)) ?_)
  exact .ite (.readGran hg (hi _)) (.set_stk (.readGran hg (hi _)))

theorem cutGrans_nil (k a : Nat) : cutGrans k a [] = [] := by cases k <;> rfl

theorem cutGrans_below (k : Nat) {a : Nat} {bs : List Byte} {x : Nat × List Byte} (hx : x ∈ cutGrans k a bs) : x.1 < a + bs.length := by
  induction k generalizing a bs with
  | zero => cases hx
  | succ k ih =>
    cases bs with
    | nil => cases hx
    | cons b bs =>
      rw [cutGrans] at hx
      · rcases List.mem_cons.mp hx with rfl | hx
        · simp
        · by_cases hlen : 64 - a % 64 < (b :: bs).length
          · have := ih hx
            simp only [List.length_drop, List.length_cons] at this hlen ⊢
            omega
          · rw [List.drop_eq_nil_of_le (by omega), cutGrans_nil] at hx
            cases hx
      · exact nofun

theorem Dev.writeStk_besides (d : Dev) {a : Nat} {bs : List Byte} (h : a + bs.length ≤ stackTop) (poison : Bool) : d.besidesStacks (d.writeStk a bs poison) := by
  have hstep : ∀ (d : Dev) (x : Nat × List Byte), x.1 < stackTop → d.besidesStacks (d.writeGran x.1 x.2 poison) := fun d x hx =>
    d.writeGran_besides hx _ _
  unfold Dev.writeStk
  exact Dev.besidesStacks.foldl hstep _ (fun x hx => Nat.lt_of_lt_of_le (cutGrans_below _ hx) h) d

/-! ## The update's own steps (14 R415, R416) -/

theorem Dev.fromAgent_refused {d : Dev} {b : Binding} {states : List Nat} (h : d.notUpdating b states) (k : Dev → Update → Dev) :
    d.fromAgent b states k = d.reply b .notInUpdate := by
  obtain ⟨hheard, hno⟩ := h
  refine (Dev.mctp_heard hheard _).trans ?_
  split
  next u hu => exact if_neg fun hc => absurd hc.2 (by rw [hno u hu hc.1]; decide)
  · rfl

theorem Dev.fromAgent_served {d : Dev} {b : Binding} {u : Update} {states : List Nat} (h : d.updating b u states) (k : Dev → Update → Dev) :
    d.fromAgent b states k = k d u := by
  obtain ⟨hheard, hu, hagent, hstate⟩ := h
  refine (Dev.mctp_heard hheard _).trans ?_
  simp only [hu, hagent, hstate, and_self, if_true]

theorem Dev.updState_of_reg {d e : Dev} (h : e.reg rMgmtUpdStatus = d.reg rMgmtUpdStatus) : e.updState = d.updState := by
  rw [Dev.updState, Dev.getF, h]
  rfl

/-- The update enters a state. -/
theorem Dev.setUpdState_parts (d : Dev) {st : Nat} (h : st < 8) :
    (d.setUpdState st).updState = st ∧ d.regsBut (d.setUpdState st) [rMgmtUpdStatus] ∧ d.onlyIn (d.setUpdState st) [.regs] := by
  refine ⟨?_, Dev.regsBut_trans (d.regsBut_putF _ _ _) (Dev.regsBut_putF _ _ _ _), .putF (.putF (d.onlyIn_refl _))⟩
  exact (Dev.getF_putF_field _ _ _ _ _ (by decide) (by decide)).trans ((Dev.getF_putF_self _ _ _ _ (by decide)).trans (Nat.mod_eq_of_lt h))

/-- The gander changed, the update in another state, and a reply. -/
theorem Dev.updated_parts (d : Dev) (f : Gander → Gander) {st : Nat} (h : st < 8) (b : Binding) (kind : Nat) :
    let e := ((d.onGan f).setUpdState st).answer b kind []
    e.updState = st ∧ d.regsBut e [rMgmtUpdStatus] ∧ d.said e (f d.gan) b (.ok (Config.respBytes kind [])) [.regs] := by
  obtain ⟨hstate, hregs, hframe⟩ := (d.onGan f).setUpdState_parts h
  exact ⟨hstate, hregs, congrArg (fun g : Gander => { g with replies := g.replies ++ [(b, Reply.ok (Config.respBytes kind []))] }) (hframe .gan rfl),
    .answer (Dev.onlyIn.after (.onGan (d.onlyIn_refl _)) hframe rfl)⟩

/-- A new image activated. -/
theorem Dev.activated_parts (d : Dev) (b : Binding) :
    let e := (((d.onGan (fun g => { g with upd := none })).setUpdState 5).putF rMgmtStatus fMgmtStatus_ActPending 1).answer b 0x125 []
    e.updState = 5 ∧ e.getF rMgmtStatus fMgmtStatus_ActPending = 1 ∧ d.said e { d.gan with upd := none } b (.ok (Config.respBytes 0x125 [])) [.regs]
      ∧ d.regsBut e [rMgmtUpdStatus, rMgmtStatus] := by
  have hne : rMgmtUpdStatus ≠ rMgmtStatus := by decide
  obtain ⟨hstate, hregs, hframe⟩ := (d.onGan (fun g => { g with upd := none })).setUpdState_parts (st := 5) (by decide)
  have hgan : ((d.onGan (fun g => { g with upd := none })).setUpdState 5).gan = { d.gan with upd := none } := hframe .gan rfl
  have hall : d.onlyIn ((d.onGan (fun g => { g with upd := none })).setUpdState 5) [.gan, .regs] := Dev.onlyIn.after (.onGan (d.onlyIn_refl _)) hframe rfl
  have hregs' : d.regsBut ((d.onGan (fun g => { g with upd := none })).setUpdState 5) [rMgmtUpdStatus, rMgmtStatus] := Dev.regsBut_mono hregs (by simp)
  generalize (d.onGan (fun g => { g with upd := none })).setUpdState 5 = k at *
  have hput : k.onlyIn (k.putF rMgmtStatus fMgmtStatus_ActPending 1) [.regs] := .putF (k.onlyIn_refl _)
  have hput1 : (k.putF rMgmtStatus fMgmtStatus_ActPending 1).getF rMgmtStatus fMgmtStatus_ActPending = 1 := Dev.getF_putF_self _ _ _ _ (by decide)
  have hput2 : (k.putF rMgmtStatus fMgmtStatus_ActPending 1).updState = 5 := (Dev.getF_putF_ne _ _ _ _ hne).trans hstate
  have hput3 : d.regsBut (k.putF rMgmtStatus fMgmtStatus_ActPending 1) [rMgmtUpdStatus, rMgmtStatus] :=
    Dev.regsBut_trans hregs' (Dev.regsBut_mono (k.regsBut_putF _ _ _) (by simp))
  have hpgan := (hput .gan rfl).trans hgan
  have hpall := Dev.onlyIn.after hall hput (ds := [.regs]) rfl
  generalize k.putF rMgmtStatus fMgmtStatus_ActPending 1 = m at *
  have hgsaid : (m.answer b 0x125 []).gan = { m.gan with replies := m.gan.replies ++ [(b, .ok (Config.respBytes 0x125 []))] } := rfl
  rw [hpgan] at hgsaid
  exact ⟨hput2, hput1, ⟨hgsaid, .answer hpall⟩, hput3⟩

/-- The update in progress changed. -/
theorem Dev.modUpd_gan (d : Dev) (f : Update → Update) : (d.modUpd f).gan = { d.gan with upd := d.gan.upd.map f } := rfl

/-- An update that ends, with its result. -/
theorem Dev.endUpdate_parts {d : Dev} {u : Update} (h : d.gan.upd = some u) {result : Nat} (hr : result < 16) :
    (d.endUpdate result).updState = 0 ∧ (d.endUpdate result).getF rMgmtUpdStatus fMgmtUpdStatus_Result = result
      ∧ (d.endUpdate result).gan.upd = none ∧ (d.endUpdate result).gan.image = d.gan.image ∧ (d.endUpdate result).gan.replies = d.gan.replies
      ∧ d.onlyIn (d.endUpdate result) [.gan, .regs, .hif] := by
  obtain ⟨d1, hd1⟩ : ∃ d1, d1 = (d.onGan (fun g => { g with upd := none })).setReg rMgmtUpdStatus (BitVec.ofNat 64 (atBit 16 result)) := ⟨_, rfl⟩
  have hend : d.endUpdate result = d1.log 0x30 ([u.oldVer] ++ u.newVer.toList ++ [result]) := by
    unfold Dev.endUpdate
    simp only [h]
    rw [hd1]
  obtain ⟨lb, ls, lf, hgan⟩ := d1.log_logged 0x30 ([u.oldVer] ++ u.newVer.toList ++ [result])
  have hreg : (d.endUpdate result).reg rMgmtUpdStatus = BitVec.ofNat 64 (atBit 16 result) := by
    rw [hend, d1.log_regsBut _ _ _ (by decide), hd1, Dev.reg_setReg_self]
  have hframe : d.onlyIn d1 [.gan, .regs] := hd1 ▸ .setReg (.onGan (d.onlyIn_refl _))
  have hgan1 : d1.gan = { d.gan with upd := none } := hd1 ▸ rfl
  have hword : atBit 16 result = result * 65536 := Nat.shiftLeft_eq _ _
  rw [hend] at hreg ⊢
  rw [hgan, hgan1]
  refine ⟨?_, ?_, rfl, rfl, rfl, Dev.onlyIn.after (Dev.onlyIn_sub _ hframe rfl) (d1.log_frame _ _) rfl⟩
  · rw [Dev.updState, Dev.getF, hreg, fld, bitsOf, BitVec.toNat_ofNat, hword]
    show (result * 65536 % 2 ^ 64) >>> 0 % 2 ^ 3 = 0
    rw [Nat.shiftRight_zero]
    omega
  · rw [Dev.getF, hreg, fld, bitsOf, BitVec.toNat_ofNat, hword]
    show (result * 65536 % 2 ^ 64) >>> 16 % 2 ^ 4 = result
    rw [Nat.shiftRight_eq_div_pow]
    omega

/-- An update that fails ends with its result and UPDATE_FAIL. -/
theorem Dev.failUpdate_parts {d : Dev} {u : Update} (h : d.gan.upd = some u) {result : Nat} (hr : result < 16) :
    (d.failUpdate result).updState = 0 ∧ (d.failUpdate result).getF rMgmtUpdStatus fMgmtUpdStatus_Result = result
      ∧ (d.failUpdate result).gan.upd = none ∧ (d.failUpdate result).gan.image = d.gan.image ∧ (d.failUpdate result).event pgMgmt 3 = true := by
  obtain ⟨hstate, hresult, hupd, himage, -, -⟩ := Dev.endUpdate_parts h hr
  have hregs := (d.endUpdate result).raise_regsBut pgMgmt 8
  rw [Dev.failUpdate, Dev.raise_gan]
  exact ⟨(Dev.getF_of_regsBut hregs (by decide) _).trans hstate, (Dev.getF_of_regsBut hregs (by decide) _).trans hresult, hupd, himage,
    Dev.raise_sets _ (by decide) (by decide) (by decide)⟩

/-! ### The component's bytes -/

/-- What the gander writes into the staging region leaves the update's own register and the gander, but for its log. -/
theorem Dev.ganWrite_keeps (d : Dev) (a : Nat) (bs : List Byte) :
    (d.ganWrite a bs).reg rMgmtUpdStatus = d.reg rMgmtUpdStatus ∧ d.gan.logged (d.ganWrite a bs).gan := by
  unfold Dev.ganWrite
  split
  · exact ⟨rfl, d.gan.logged_refl⟩
  next h => exact ⟨d.writeStk_besides (Nat.le_of_not_lt h) false _ (by unfold stackSide; decide), Dev.logs.writeStk (Dev.logs.refl d)⟩

theorem Dev.ganRead_logs (d : Dev) (a n : Nat) : d.gan.logged (d.ganRead a n).1.gan := by
  unfold Dev.ganRead
  split
  · exact d.gan.logged_refl
  · exact Dev.logs.readStk (d₀ := d) (d := { d with free := d.free + 1 }) (Dev.logs.refl d)

theorem Gander.logged_upd {g g' : Gander} (h : g.logged g') : g'.upd = g.upd := by
  obtain ⟨_, _, _, rfl⟩ := h
  rfl

/-- PROGRESS stands beside the state and the result. -/
theorem Dev.progress_updState (d : Dev) (p : Nat) : (d.putF rMgmtUpdStatus fMgmtUpdStatus_Progress p).updState = d.updState
    ∧ (d.putF rMgmtUpdStatus fMgmtUpdStatus_Progress p).getF rMgmtUpdStatus fMgmtUpdStatus_Result = d.getF rMgmtUpdStatus fMgmtUpdStatus_Result := by
  have hlen : fMgmtUpdStatus_Progress.lo + fMgmtUpdStatus_Progress.len ≤ 64 := by decide
  exact ⟨d.getF_putF_field _ _ fMgmtUpdStatus_State p hlen (by decide), d.getF_putF_field _ _ fMgmtUpdStatus_Result p hlen (by decide)⟩

/-- A portion that comes is staged. -/
theorem Dev.requestFirmwareData_stages {d : Dev} {u : Update} {off : Nat} {data : List Byte} (hu : d.gan.upd = some u) (hfw : d.firmware = true)
    (hs : d.updState = 2) (hoff : off = u.nextOff) (hne : data ≠ []) (hlen : data.length = u.portion) (hw : d.stageWaits = false) :
    (d.requestFirmwareData off data).gan.upd = some { u with nextOff := u.nextOff + data.length }
      ∧ (d.requestFirmwareData off data).updState = 2 ∧ (d.requestFirmwareData off data).stk = (d.ganWrite (d.stageBase + off) data).stk := by
  obtain ⟨hreg, hlog⟩ := d.ganWrite_keeps (d.stageBase + off) data
  have hrun : d.requestFirmwareData off data = ((d.ganWrite (d.stageBase + off) data).modUpd (fun z => { z with nextOff := u.nextOff + data.length })).putF
      rMgmtUpdStatus fMgmtUpdStatus_Progress (openDiv 6 (100 * (u.nextOff + data.length)) u.bytes) := by
    unfold Dev.requestFirmwareData
    simp only [hu]
    exact if_neg (by simp [hfw, hs, hoff, hne, hlen, hw])
  rw [hrun]
  generalize d.ganWrite (d.stageBase + off) data = w at hreg hlog
  have hupd : (w.modUpd (fun z => { z with nextOff := u.nextOff + data.length })).gan.upd = some { u with nextOff := u.nextOff + data.length } := by
    rw [Dev.modUpd_gan, Gander.logged_upd hlog, hu]
    rfl
  obtain ⟨z, hz⟩ : ∃ z, z = w.modUpd (fun z => { z with nextOff := u.nextOff + data.length }) := ⟨_, rfl⟩
  have hframe : w.onlyIn z [.gan] := hz ▸ .modUpd (w.onlyIn_refl _)
  have hstate : z.updState = 2 := (Dev.updState_of_reg ((Dev.reg_congr (hframe .regs rfl) _).trans hreg)).trans hs
  rw [← hz] at hupd ⊢
  generalize openDiv 6 (100 * (u.nextOff + data.length)) u.bytes = p
  have hput : z.onlyIn (z.putF rMgmtUpdStatus fMgmtUpdStatus_Progress p) [.regs] := .putF (z.onlyIn_refl _)
  exact ⟨(congrArg Gander.upd (hput .gan rfl)).trans hupd, (Dev.progress_updState z p).1.trans hstate, (hput .stk rfl).trans (hframe .stk rfl)⟩

/-- What VERIFY_COMPLETE makes of the staged bytes. -/
def Dev.verified (d : Dev) (img : List Byte) (poison : Bool) : Dev :=
  let d := d.modUpd (fun u => { u with newVer := some (byteBits img 32 32) })
  if poison ∨ imageCheck d.gan img ≠ 0 then d.failUpdate 2 else (d.onGan (fun g => { g with image := [] })).setUpdState 4

theorem Dev.verified_parts {d : Dev} {u : Update} (h : d.gan.upd = some u) (img : List Byte) (bad : Bool) :
    (bad = false → imageCheck d.gan img = 0 → (d.verified img bad).updState = 4 ∧ d.onlyIn (d.verified img bad) [.gan, .regs]
        ∧ (d.verified img bad).gan = { d.gan with upd := d.gan.upd.map (fun z => { z with newVer := some (byteBits img 32 32) }), image := [] })
      ∧ (bad = true ∨ imageCheck d.gan img ≠ 0 → (d.verified img bad).updState = 0 ∧ (d.verified img bad).gan.image = d.gan.image
        ∧ (d.verified img bad).gan.upd = none ∧ (d.verified img bad).getF rMgmtUpdStatus fMgmtUpdStatus_Result = 2
        ∧ (d.verified img bad).event pgMgmt 3 = true) := by
  obtain ⟨d1, hd1⟩ : ∃ d1, d1 = d.modUpd (fun u => { u with newVer := some (byteBits img 32 32) }) := ⟨_, rfl⟩
  have hrun : d.verified img bad = if bad ∨ imageCheck d.gan img ≠ 0 then d1.failUpdate 2 else (d1.onGan (fun g => { g with image := [] })).setUpdState 4 := by
    rw [hd1]
    rfl
  have hgan : d1.gan = { d.gan with upd := d.gan.upd.map (fun z => { z with newVer := some (byteBits img 32 32) }) } := hd1 ▸ rfl
  have hframe : d.onlyIn d1 [.gan] := hd1 ▸ .modUpd (d.onlyIn_refl _)
  rw [hrun]
  refine ⟨fun hb hc => ?_, fun hb => ?_⟩
  · rw [if_neg (by simp [hb, hc])]
    obtain ⟨hstate, -, hset⟩ := (d1.onGan (fun g => { g with image := [] })).setUpdState_parts (st := 4) (by decide)
    refine ⟨hstate, Dev.onlyIn.after (.onGan (Dev.onlyIn_sub _ hframe rfl)) hset rfl, (hset .gan rfl).trans ?_⟩
    rw [Dev.onGan, hgan]
  · rw [if_pos hb]
    have hu1 : d1.gan.upd = some { u with newVer := some (byteBits img 32 32) } := by
      rw [hgan, h]
      rfl
    obtain ⟨hstate, hresult, hupd, himage, hevent⟩ := Dev.failUpdate_parts hu1 (result := 2) (by decide)
    exact ⟨hstate, himage.trans (by rw [hgan]), hupd, hresult, hevent⟩

/-- What APPLY_COMPLETE makes of the staged bytes. -/
def Dev.appliedImage (d : Dev) (u : Update) (img : List Byte) (poison : Bool) : Dev :=
  let (d, good) := d.programImage img
  if poison ∨ !good ∨ Config.sha384 (byteSlice img 4096 (byteBits img 96 32 - 4096)) ≠ BitVec.ofNat 384 (leNat (byteSlice img 16 48)) then
    (d.onGan (fun g => { g with image := [] })).failUpdate 3
  else
    let d := (d.putF rMgmtUpdStatus fMgmtUpdStatus_Result 1).putF rMgmtUpdStatus fMgmtUpdStatus_Progress 100
    ((d.modUpd (fun u => { u with applied := true })).log 0x30 ([u.oldVer] ++ u.newVer.toList ++ [1])).raise pgMgmt 4

theorem Dev.appliedImage_parts {d : Dev} {z : Update} (h : d.gan.upd = some z) (u : Update) (img : List Byte) (bad : Bool) :
    let e := d.appliedImage u img bad
    (bad = false ∧ Config.sha384 (byteSlice img 4096 (byteBits img 96 32 - 4096)) = BitVec.ofNat 384 (leNat (byteSlice img 16 48))
        ∧ e.gan.image = img.take (byteBits img 96 32) ∧ e.event pgMgmt 2 = true
        ∧ e.gan.upd = d.gan.upd.map (fun z => { z with applied := true }) ∧ e.getF rMgmtUpdStatus fMgmtUpdStatus_Result = 1)
      ∨ (e.gan.image = [] ∧ e.updState = 0 ∧ e.gan.upd = none ∧ e.event pgMgmt 3 = true ∧ e.getF rMgmtUpdStatus fMgmtUpdStatus_Result = 3) := by
  intro e
  obtain ⟨d1, good, hd1⟩ : ∃ d1 good, d.programImage img = (d1, good) := ⟨_, _, rfl⟩
  obtain ⟨hfirst, hsecond⟩ := Prod.mk.inj hd1
  have hupd : d1.gan.upd = some z := hfirst ▸ h
  have himage : d1.gan.image = if good then img.take (byteBits img 96 32) else [] := by
    rw [← hfirst, ← hsecond]
    rfl
  have hrun : e = if bad ∨ !good ∨ Config.sha384 (byteSlice img 4096 (byteBits img 96 32 - 4096)) ≠ BitVec.ofNat 384 (leNat (byteSlice img 16 48)) then
      (d1.onGan (fun g => { g with image := [] })).failUpdate 3
    else ((((d1.putF rMgmtUpdStatus fMgmtUpdStatus_Result 1).putF rMgmtUpdStatus fMgmtUpdStatus_Progress 100).modUpd
      (fun u => { u with applied := true })).log 0x30 ([u.oldVer] ++ u.newVer.toList ++ [1])).raise pgMgmt 4 := by
    simp only [e, Dev.appliedImage, hd1]
  rw [hrun]
  split
  · obtain ⟨hstate, hresult, hnone, hempty, hevent⟩ := Dev.failUpdate_parts (d := d1.onGan (fun g => { g with image := [] })) hupd (result := 3) (by decide)
    exact .inr ⟨hempty, hstate, hnone, hevent, hresult⟩
  next hno =>
    push Not at hno
    obtain ⟨hbad, hgood, hfits⟩ := hno
    obtain ⟨d0, hd0⟩ : ∃ d0, d0 = (d1.putF rMgmtUpdStatus fMgmtUpdStatus_Result 1).putF rMgmtUpdStatus fMgmtUpdStatus_Progress 100 := ⟨_, rfl⟩
    have hframe0 : d1.onlyIn d0 [.regs] := hd0 ▸ .putF (.putF (d1.onlyIn_refl _))
    have hresult0 : d0.getF rMgmtUpdStatus fMgmtUpdStatus_Result = 1 :=
      hd0 ▸ (Dev.progress_updState _ _).2.trans (Dev.getF_putF_self _ _ _ _ (by decide))
    rw [← hd0]
    have hresult : (d0.modUpd (fun u => { u with applied := true })).getF rMgmtUpdStatus fMgmtUpdStatus_Result = 1 := hresult0
    have hgan2 : (d0.modUpd (fun u => { u with applied := true })).gan = { d1.gan with upd := d1.gan.upd.map (fun z => { z with applied := true }) } := by
      rw [Dev.modUpd_gan, show d0.gan = d1.gan from hframe0 .gan rfl]
    generalize d0.modUpd (fun u => { u with applied := true }) = d2 at hresult hgan2 ⊢
    obtain ⟨lb, ls, lf, hlog⟩ := d2.log_logged 0x30 ([u.oldVer] ++ u.newVer.toList ++ [1])
    refine .inl ⟨by simpa using hbad, hfits, ?_, Dev.raise_sets _ (by decide) (by decide) (by decide), ?_, ?_⟩
    · rw [Dev.raise_gan, hlog, hgan2]
      exact himage.trans (if_pos (by simpa using hgood))
    · rw [Dev.raise_gan, hlog, hgan2, hupd, h]
    · rw [Dev.getF_of_regsBut (Dev.raise_regsBut _ _ _) (by decide), Dev.getF_of_regsBut (Dev.log_regsBut _ _ _) (by decide)]
      exact hresult

/-! ### Requests of the update agent -/

/-- Whether REQUEST_UPDATE is not heard (R407, R415). -/
abbrev Dev.updateDeaf (d : Dev) (b : Binding) : Prop :=
  d.gan.up = false ∨ d.pstate = 6 ∨ d.pstate = 7 ∨ d.gan.cfgPend ≠ [] ∨ d.bindingUp b = false
    ∨ (d.mbxBusy = true ∧ d.getF rMgmtMbxCmd fMgmtMbxCmd_Cmd ≠ 0x31)

theorem Dev.requestUpdate_deaf {d : Dev} {b : Binding} (h : d.updateDeaf b) (n : Nat) : d.requestUpdate b n = d := by
  refine if_pos ?_
  rcases h with h | h | h | h | h | ⟨h1, h2⟩
  · simp [h]
  · simp [h]
  · simp [h]
  · simp [h]
  · simp [h]
  · simp [h1, Dev.debugOpening, h2]

theorem Dev.requestUpdate_heard {d : Dev} {b : Binding} (h : ¬ d.updateDeaf b) (n : Nat) : d.requestUpdate b n =
    if d.gan.upd.isSome then d.reply b .alreadyInUpdate
    else if d.cannotUpdate then d.reply b .unableToInitiate
    else ((d.onGan (fun g => { g with upd := some { agent := b, maxTransfer := n, oldVer := d.getF rMgmtFwVer fMgmtFwVer_FwVer } })).setUpdState 1).answer
      b 0x122 [] := by
  refine if_neg fun hc => h ?_
  rcases hc with hc | hc | hc | hc | hc | ⟨h1, h2⟩
  · exact .inl (by simpa using hc)
  · exact .inr (.inl hc)
  · exact .inr (.inr (.inl hc))
  · exact .inr (.inr (.inr (.inl (by simpa using hc))))
  · exact .inr (.inr (.inr (.inr (.inl (by simpa using hc)))))
  · refine .inr (.inr (.inr (.inr (.inr ⟨h1, fun hcmd => ?_⟩))))
    simp [Dev.debugOpening, h1, hcmd] at h2

/-! ### Verification and apply -/

theorem Dev.verifyComplete_waits {d : Dev} (h : ¬ (d.firmware = true ∧ d.updState = 3 ∧ d.stageWaits = false)) : d.verifyComplete = d := by
  unfold Dev.verifyComplete
  split
  · rfl
  · split
    · rfl
    next hno =>
      simp only [not_or, ne_eq, not_not, Bool.not_eq_true', Bool.not_eq_true, Bool.not_eq_false] at hno
      exact absurd hno h

theorem Dev.verifyComplete_judges {d d1 : Dev} {u : Update} {img : List Byte} {bad : Bool} (hu : d.gan.upd = some u)
    (h : d.firmware = true ∧ d.updState = 3 ∧ d.stageWaits = false) (hread : d.ganRead d.stageBase u.bytes = (d1, img, bad)) :
    d.verifyComplete = d1.verified img bad := by
  obtain ⟨hfw, hs, hwait⟩ := h
  unfold Dev.verifyComplete
  split
  next hnone => exact absurd (hu.symm.trans hnone) (by simp)
  next v hv =>
    obtain rfl : u = v := Option.some.inj (hu.symm.trans hv)
    rw [if_neg (by simp [hfw, hs, hwait]), Dev.staged, hread, Dev.verified]

theorem Dev.applyComplete_waits {d : Dev} {u : Update} (hu : d.gan.upd = some u)
    (h : ¬ (d.firmware = true ∧ d.updState = 4 ∧ u.applied = false ∧ d.stageWaits = false)) : d.applyComplete = d := by
  unfold Dev.applyComplete
  split
  · rfl
  next v hv =>
    obtain rfl : u = v := Option.some.inj (hu.symm.trans hv)
    split
    · rfl
    next hno =>
      simp only [not_or, ne_eq, not_not, Bool.not_eq_true', Bool.not_eq_true, Bool.not_eq_false] at hno
      exact absurd hno h

theorem Dev.applyComplete_judges {d d1 : Dev} {u : Update} {img : List Byte} {bad : Bool} (hu : d.gan.upd = some u)
    (h : d.firmware = true ∧ d.updState = 4 ∧ u.applied = false ∧ d.stageWaits = false) (hread : d.ganRead d.stageBase u.bytes = (d1, img, bad)) :
    d.applyComplete = d1.appliedImage u img bad := by
  obtain ⟨hfw, hs, happ, hwait⟩ := h
  unfold Dev.applyComplete
  split
  next hnone => exact absurd (hu.symm.trans hnone) (by simp)
  next v hv =>
    obtain rfl : u = v := Option.some.inj (hu.symm.trans hv)
    rw [if_neg (by simp [hfw, hs, happ, hwait]), Dev.staged, hread, Dev.appliedImage]

/-- Settles O55: what answers at any time, the agent's requests, and the update's own steps. -/
theorem firmwareUpdateGoesThroughItsStates : Obligations.FirmwareUpdateGoesThroughItsStates := by
  unfold Obligations.FirmwareUpdateGoesThroughItsStates
  refine ⟨fun s b n => ?requests, fun s h row hrow => ?none, fun s u off data hu => ?steps⟩
  case requests =>
    intro d g at_ down
    refine ⟨fun h row hrow => ?_, ⟨fun hd => ?_, fun hd => ⟨_, State.onDev_next (Dev.requestUpdate_heard hd n), fun hu => ?_, fun hu hc => ?_, fun hu hc => ?_⟩⟩,
      fun row hrow h => ?_, fun u h => ⟨⟨_, State.onDev_next (Dev.fromAgent_served h _), d.reply_only _ _⟩,
        ⟨_, State.onDev_next (Dev.fromAgent_served h _), fun hn => ?_, fun hn => ?_⟩⟩,
      fun u h => ⟨_, State.onDev_next (Dev.fromAgent_served h _), fun ha => ?_, fun ha => ?_⟩,
      fun u h => ⟨_, State.onDev_next (Dev.fromAgent_served h _), fun ha => ?_, fun ha => ?_⟩,
      fun u h => ⟨_, State.onDev_next (Dev.fromAgent_served h _), fun ha hs => ?_, fun ha => ?_, fun ha hs => ?_⟩⟩
    · simp only [List.mem_cons, List.not_mem_nil, or_false] at hrow
      rcases hrow with rfl | rfl | rfl
      all_goals exact ⟨_, State.onDev_next (Dev.mctp_heard h _), d.reply_only _ _⟩
    · exact State.onDev_next (Dev.requestUpdate_deaf hd n)
    · rw [if_pos (Option.isSome_iff_ne_none.mpr hu)]
      exact d.reply_only _ _
    · rw [if_neg (by simp [show d.gan.upd = none from hu]), if_pos hc]
      exact d.reply_only _ _
    · rw [if_neg (by simp [show d.gan.upd = none from hu]), if_neg (by simp [hc])]
      obtain ⟨hstate, hregs, hsaid⟩ := d.updated_parts
        (fun g => { g with upd := some { agent := b, maxTransfer := n, oldVer := d.getF rMgmtFwVer fMgmtFwVer_FwVer } }) (st := 1) (by decide) b 0x122
      exact ⟨hstate, hsaid, hregs⟩
    · refine ⟨d.reply b .notInUpdate, ?_, d.reply_only _ _⟩
      simp only [List.mem_cons, List.not_mem_nil, or_false] at hrow
      rcases hrow with rfl | rfl | rfl | rfl | rfl
      all_goals exact State.onDev_next (Dev.fromAgent_refused h _)
    · rw [if_pos hn]
      exact d.reply_only _ _
    · rw [if_neg (by omega)]
      obtain ⟨hstate, hregs, hsaid⟩ := d.updated_parts
        (fun g => { g with upd := g.upd.map (fun u => { u with bytes := n, nextOff := 0 }) }) (st := 2) (by decide) b 0x124
      rw [show d.gan.upd = some u from h.2.1] at hsaid
      exact ⟨hstate, hregs, hsaid⟩
    · rw [if_pos (by simp [ha])]
      exact d.reply_only _ _
    · rw [if_neg (by simp [ha])]
      exact d.activated_parts b
    · rw [if_pos ha]
      exact d.reply_only _ _
    · rw [if_neg ha]
      obtain ⟨hstate, hregs, hsaid⟩ := d.updated_parts
        (fun g => { g with upd := g.upd.map (fun u => { u with bytes := 0, nextOff := 0 }) }) (st := 1) (by decide) b 0x127
      rw [show d.gan.upd = some u from h.2.1] at hsaid
      exact ⟨hstate, hregs, hsaid⟩
    · rw [if_neg (by simp [ha]), if_pos hs]
      exact d.reply_only _ _
    · cases happ : u.applied with
      | true =>
        rw [if_pos rfl]
        obtain ⟨hstate, -, hgan, hframe⟩ := d.updated_parts (fun g => { g with upd := none }) (st := 0) (by decide) b 0x128
        exact ⟨hstate, by rw [hgan], by rw [hgan], by rw [hgan], Dev.onlyIn_sub _ hframe rfl⟩
      | false =>
        have hs : at_ ≠ 4 := ha.resolve_left (by simp [happ])
        rw [if_neg (by decide), if_neg hs]
        obtain ⟨hstate, -, hupd, himage, hreplies, hframe⟩ := Dev.endUpdate_parts (d := d) h.2.1 (result := 4) (by decide)
        exact ⟨hstate, hupd, himage, congrArg (· ++ [(b, Reply.ok (Config.respBytes 0x128 []))]) hreplies, .answer hframe⟩
    · rw [if_neg (by simp [ha]), if_neg hs]
      obtain ⟨-, hresult, -⟩ := Dev.endUpdate_parts (d := d) h.2.1 (result := 4) (by decide)
      exact hresult
  case none =>
    simp only [List.mem_cons, List.not_mem_nil, or_false] at hrow
    rcases hrow with rfl | rfl | rfl | rfl
    · exact State.onDev_next (by simp only [Dev.requestFirmwareData, h])
    · exact State.onDev_next (by simp only [Dev.transferComplete, h])
    · exact State.onDev_next (by simp only [Dev.verifyComplete, h])
    · exact State.onDev_next (by simp only [Dev.applyComplete, h])
  case steps =>
    intro d come whole verifies applies
    refine ⟨fun hn => ?_, fun hc => ?_, fun hn => ?_, fun hw => ?_, fun hn => ?_, fun d1 img bad hv hread => ?_, fun hn => ?_, fun d1 img bad hv hread => ?_⟩
    · refine State.onDev_next (f := fun d => d.requestFirmwareData off data) ?_
      unfold Dev.requestFirmwareData
      simp only [hu]
      refine if_pos ?_
      by_contra hno
      simp only [not_or, ne_eq, not_not, Bool.not_eq_true', Bool.not_eq_true, Bool.not_eq_false, List.isEmpty_eq_false_iff] at hno
      exact hn ⟨hno.1, hno.2.1, hno.2.2.1, hno.2.2.2.2.1, hno.2.2.2.1, hno.2.2.2.2.2⟩
    · obtain ⟨hfw, hs, hoff, hne, hlen, hwait⟩ := hc
      exact ⟨_, State.onDev_next rfl, Dev.requestFirmwareData_stages hu hfw hs hoff hne hlen hwait⟩
    · refine State.onDev_next (f := fun d => d.transferComplete) ?_
      unfold Dev.transferComplete
      simp only [hu]
      refine if_pos ?_
      by_contra hno
      simp only [not_or, ne_eq, not_not, Bool.not_eq_true', Bool.not_eq_false] at hno
      exact hn hno
    · obtain ⟨hfw, hs, hend⟩ := hw
      have hrun : d.transferComplete = d.setUpdState 3 := by
        unfold Dev.transferComplete
        simp only [show d.gan.upd = some u from hu]
        exact if_neg (by simp [hfw, hs, hend])
      exact ⟨_, State.onDev_next hrun, d.setUpdState_parts (by decide)⟩
    · exact State.onDev_next (Dev.verifyComplete_waits hn)
    · have hlog := d.ganRead_logs d.stageBase u.bytes
      rw [hread] at hlog
      exact ⟨_, State.onDev_next (Dev.verifyComplete_judges hu hv hread), Dev.verified_parts ((Gander.logged_upd hlog).trans hu) img bad⟩
    · exact State.onDev_next (Dev.applyComplete_waits hu hn)
    · have hlog := d.ganRead_logs d.stageBase u.bytes
      rw [hread] at hlog
      exact ⟨_, State.onDev_next (Dev.applyComplete_judges hu hv hread), Dev.appliedImage_parts ((Gander.logged_upd hlog).trans hu) u img bad⟩

end Sys2Proof.Machine
end

section
/-! # The deadline of a beat's BENDs -/

namespace Sys2Proof.Machine

/-! ## Slots that notify their arrival counters (10 R300) -/

/-- A notification counts once at its tile's counter, where its partition is not in reset, and touches nothing but tiles. -/
theorem Dev.notifyTile_counts (d : Dev) (e : SlotEnt) :
    d.onlyIn (d.notifyTile e) [.tiles] ∧ ∀ t a : Nat, tget ((d.notifyTile e).tile t).arrival 0 a
      = tget (d.tile t).arrival 0 a + if seNtile e == t && seNactr e == a && !d.inReset (sePart e) then 1 else 0 := by
  unfold Dev.notifyTile
  by_cases hr : d.inReset (sePart e) = true
  · simp only [hr, if_true, Bool.not_true, Bool.and_false, Bool.false_eq_true, if_false]
    exact ⟨d.onlyIn_refl _, fun _ _ => (BitVec.add_zero _).symm⟩
  · rw [if_neg hr]
    refine ⟨(d.modTile_frame _ _).2, fun t a => ?_⟩
    by_cases ht : seNtile e = t
    · subst ht
      rw [Dev.tile_modTile_self]
      by_cases ha : seNactr e = a
      · subst ha
        simp [hr]
      · rw [tget_tset_ne _ _ _ (Ne.symm ha)]
        simp [ha]
    · rw [Dev.tile_modTile_ne _ _ (Ne.symm ht)]
      simp [ht]

/-- An RX slot that notifies when the deadline of a link, or of any, passes: it is confirmed and has not yet. -/
def notifies (table : List SlotEnt) (bends : Tab Rec) (rx : List RxSlot) (i : Option Nat) (s : RxSlot) : Bool :=
  seNotify (table.getD s.n 0) && !s.notified && (i.isNone || i == some (seLink (table.getD s.n 0))) && confirmed table bends rx s

/-- The notifications of a list of slots that count at counter `a` of tile `t`. -/
def Dev.arrivalsOf (d : Dev) (table : List SlotEnt) (bends : Tab Rec) (rx : List RxSlot) (i : Option Nat) (t a : Nat) (l : List RxSlot) : Nat :=
  (l.filter (fun s => notifies table bends rx i s && (seNtile (table.getD s.n 0) == t && seNactr (table.getD s.n 0) == a
    && !d.inReset (sePart (table.getD s.n 0))))).length

/-- Slots notified in their order: each that notifies is marked and counts once, and nothing but tiles is touched. -/
theorem Dev.notifyRx_notifies (d : Dev) (table : List SlotEnt) (bends : Tab Rec) (i : Option Nat) (rx : List RxSlot) :
    d.onlyIn (d.notifyRx table bends i rx).1 [.tiles]
      ∧ (d.notifyRx table bends i rx).2 = rx.map (fun s => if notifies table bends rx i s then { s with notified := true } else s)
      ∧ ∀ t a : Nat, tget ((d.notifyRx table bends i rx).1.tile t).arrival 0 a
          = tget (d.tile t).arrival 0 a + d.arrivalsOf table bends rx i t a rx := by
  have hfold : ∀ (l : List RxSlot) (c : Dev) (out : List RxSlot), c.parts = d.parts →
      let r := l.foldl (fun (acc : Dev × List RxSlot) s =>
        if notifies table bends rx i s then (acc.1.notifyTile (table.getD s.n 0), acc.2 ++ [{ s with notified := true }])
        else (acc.1, acc.2 ++ [s])) (c, out)
      c.onlyIn r.1 [.tiles]
        ∧ r.2 = out ++ l.map (fun s => if notifies table bends rx i s then { s with notified := true } else s)
        ∧ ∀ t a : Nat, tget (r.1.tile t).arrival 0 a = tget (c.tile t).arrival 0 a + d.arrivalsOf table bends rx i t a l := by
    intro l
    induction l with
    | nil => exact fun c out _ => ⟨c.onlyIn_refl _, (List.append_nil _).symm, fun _ _ => (BitVec.add_zero _).symm⟩
    | cons s l ih =>
      intro c out hparts
      simp only [List.foldl_cons, List.map_cons]
      by_cases hs : notifies table bends rx i s = true
      · obtain ⟨hframe, hcount⟩ := c.notifyTile_counts (table.getD s.n 0)
        obtain ⟨hframe', hout, hcount'⟩ := ih (c.notifyTile (table.getD s.n 0)) (out ++ [{ s with notified := true }])
          ((hframe .parts rfl).trans hparts)
        simp only [hs, if_true]
        refine ⟨Dev.onlyIn_trans hframe hframe', by rw [hout, List.append_assoc]; rfl, fun t a => ?_⟩
        have hreset : c.inReset (sePart (table.getD s.n 0)) = d.inReset (sePart (table.getD s.n 0)) := by rw [Dev.inReset, Dev.inReset, hparts]
        rw [hcount', hcount, hreset, BitVec.add_assoc]
        congr 1
        rw [Dev.arrivalsOf, Dev.arrivalsOf, List.filter_cons, hs, Bool.true_and]
        split
        · rw [List.length_cons, BitVec.natCast_eq_ofNat, BitVec.natCast_eq_ofNat, BitVec.ofNat_add, BitVec.add_comm]
          rfl
        · exact BitVec.zero_add _
      · obtain ⟨hframe', hout, hcount'⟩ := ih c (out ++ [s]) hparts
        simp only [hs, Bool.false_eq_true, if_false]
        refine ⟨hframe', by rw [hout, List.append_assoc]; rfl, fun t a => ?_⟩
        rw [hcount', Dev.arrivalsOf, Dev.arrivalsOf, List.filter_cons]
        simp [hs]
  exact hfold rx d [] rfl

/-! ## Lost streams in the pace word (10 R301, R293) -/

/-- The bits of a set of jobs. -/
theorem foldl_jobBit (js : List Nat) (m : BitVec 64) (j : Nat) (hj : ∀ k ∈ js, k < 64) :
    (js.foldl (fun m j => m ||| jobBit j) m).getLsbD j = (m.getLsbD j || js.contains j) := by
  induction js generalizing m with
  | nil => simp
  | cons k js ih =>
    rw [List.foldl_cons, ih _ fun x hx => hj x (List.mem_cons_of_mem _ hx), BitVec.getLsbD_or]
    have hk := hj k (List.mem_cons_self ..)
    have hbit : (jobBit k).getLsbD j = (j == k) := by
      rw [jobBit, BitVec.getLsbD_ofNat, Nat.testBit_two_pow]
      by_cases h : j = k
      · simp [h, hk]
      · simp [h, Ne.symm h]
    rw [hbit, List.contains_cons, Bool.or_assoc]

/-- A pace word put out touches nothing but what the fabric sends. -/
theorem Dev.flushPace_flushes (d : Dev) : d.onlyIn d.flushPace [.fab] ∧ d.flushPace.fab.pace = d.fab.pace
    ∧ d.flushPace.fab.deadlineDone = d.fab.deadlineDone ∧ d.flushPace.fab.rxPrev = d.fab.rxPrev
    ∧ d.flushPace.fab.forwarded = d.fab.forwarded ∧ d.flushPace.fab.down = d.fab.down := by
  unfold Dev.flushPace Dev.sendPace
  split
  · split
    · exact ⟨d.onlyIn_refl _, rfl, rfl, rfl, rfl, rfl⟩
    · obtain ⟨sent, hs⟩ := (d.onFab (fun x => { x with paceSent := x.paceSent + 1, paceAt := d.time, paceDue := false })).sendAll_sends
        (.pace (d.fab.pace.word d.fab.beatNo))
      rw [hs]
      exact ⟨((d.onlyIn_refl _).after (d.onFab_frame _)).after (Dev.onFab_frame _ _), rfl, rfl, rfl, rfl, rfl⟩
  · exact ⟨d.onlyIn_refl _, rfl, rfl, rfl, rfl, rfl⟩

/-- A pace word merged is in the device's own, and touches nothing but the fabric. -/
theorem Dev.mergePace_merges (d : Dev) (p : Pace) : d.onlyIn (d.mergePace p) [.fab] ∧ (d.mergePace p).fab.pace = d.fab.pace.merge p
    ∧ (d.mergePace p).fab.deadlineDone = d.fab.deadlineDone ∧ (d.mergePace p).fab.rxPrev = d.fab.rxPrev
    ∧ (d.mergePace p).fab.forwarded = d.fab.forwarded ∧ (d.mergePace p).fab.down = d.fab.down := by
  unfold Dev.mergePace
  dsimp only
  split
  next h => exact ⟨d.onlyIn_refl _, h.symm, rfl, rfl, rfl, rfl⟩
  next =>
    obtain ⟨hframe, hpace, hdone, hrx, hfwd, hdown⟩ := (d.onFab (fun x => { x with pace := d.fab.pace.merge p, paceDue := true })).flushPace_flushes
    exact ⟨((d.onlyIn_refl _).after (d.onFab_frame _)).after hframe, hpace, hdone, hrx, hfwd, hdown⟩

theorem nodup_eraseDups (l : List Nat) : l.eraseDups.Nodup := by
  induction hn : l.length using Nat.strong_induction_on generalizing l with
  | _ n ih =>
    cases l with
    | nil => simp
    | cons a l =>
      rw [List.eraseDups_cons, List.nodup_cons]
      refine ⟨by simp, ih _ ?_ _ rfl⟩
      rw [← hn, List.length_cons]
      exact Nat.lt_succ_of_le (List.length_filter_le _ _)

/-- The RX slots of a beat that a link was to receive. -/
def Dev.slotsOn (d : Dev) (i : Nat) : List RxSlot := d.fab.rxPrev.filter (fun s => seLink (d.fab.tablePrev.getD s.n 0) == i)

/-- The jobs of a link none of whose streams the deadline confirms. -/
def Dev.lostJobs (d : Dev) (i : Nat) : List Nat :=
  (((d.slotsOn i).map (fun s => seJob (d.fab.tablePrev.getD s.n 0))).eraseDups).filter (fun j =>
    !(d.slotsOn i).any (fun s => seJob (d.fab.tablePrev.getD s.n 0) == j && confirmed d.fab.tablePrev d.fab.bendsPrev d.fab.rxPrev s))

theorem Dev.mem_lostJobs (d : Dev) (i j : Nat) : j ∈ d.lostJobs i ↔ (∃ x ∈ d.slotsOn i, seJob (d.fab.tablePrev.getD x.n 0) = j)
    ∧ ∀ x ∈ d.slotsOn i, seJob (d.fab.tablePrev.getD x.n 0) = j → confirmed d.fab.tablePrev d.fab.bendsPrev d.fab.rxPrev x = false := by
  simp [Dev.lostJobs, List.mem_eraseDups]

/-- Two lists of the same numbers, each number once. -/
theorem length_eq_of_same {js ks : List Nat} (hj : js.Nodup) (hk : ks.Nodup) (h : ∀ j, j ∈ js ↔ j ∈ ks) : js.length = ks.length :=
  ((List.perm_ext_iff_of_nodup hj hk).mpr h).length_eq

/-- A device whose fabric is on its way past a deadline: what it notified and marked done. -/
def Dev.deadlinePassed (d : Dev) (i : Nat) : Dev :=
  ((d.onFab (fun x => { x with deadlineDone := i :: x.deadlineDone })).notifyRx d.fab.tablePrev d.fab.bendsPrev (some i) d.fab.rxPrev).1.onFab
    (fun x => { x with rxPrev := d.fab.rxPrev.map (fun s => if notifies d.fab.tablePrev d.fab.bendsPrev d.fab.rxPrev (some i) s
      then { s with notified := true } else s) })

theorem Dev.deadlinePassed_passes (d : Dev) (i : Nat) :
    d.onlyIn (d.deadlinePassed i) [.fab, .tiles]
      ∧ (d.deadlinePassed i).fab = { d.fab with deadlineDone := i :: d.fab.deadlineDone, rxPrev := d.fab.rxPrev.map (fun s =>
          if notifies d.fab.tablePrev d.fab.bendsPrev d.fab.rxPrev (some i) s then { s with notified := true } else s) }
      ∧ ∀ t a : Nat, tget ((d.deadlinePassed i).tile t).arrival 0 a
          = tget (d.tile t).arrival 0 a + d.arrivalsOf d.fab.tablePrev d.fab.bendsPrev d.fab.rxPrev (some i) t a d.fab.rxPrev := by
  obtain ⟨hframe, -, hcount⟩ := (d.onFab (fun x => { x with deadlineDone := i :: x.deadlineDone })).notifyRx_notifies d.fab.tablePrev
    d.fab.bendsPrev (some i) d.fab.rxPrev
  refine ⟨(((d.onlyIn_refl _).after (d.onFab_frame _)).after hframe).after (Dev.onFab_frame _ _), ?_, hcount⟩
  rw [Dev.deadlinePassed, Dev.onFab, hframe .fab rfl]
  rfl

/-- What the streams that a deadline found lost do: they are counted, and the pace word names their jobs. -/
def Dev.streamsLost (d : Dev) (i : Nat) (lost : List Nat) (bends : Tab Rec) : Dev :=
  let c := ((d.addF rFabBtmoCnt fFabBtmoCnt_Cnt lost.length).addF (rFabLinkBtmo i) fFabLinkBtmo_Btmo lost.length).raise pgFab 4
  (if !thas bends i ∧ c.linkUp i then c.goDown i 3 else c).mergePace
    { need := 0, epoch := 0, gap := (lost.filter (fun j => bendState bends i j != some 3)).foldl (fun m j => m ||| jobBit j) 0,
      stop := (lost.filter (fun j => bendState bends i j == some 3)).foldl (fun m j => m ||| jobBit j) 0 }

theorem Dev.bendDeadline_eq (d : Dev) (i : Nat) : d.bendDeadline i
    = if d.fab.deadlineDone.contains i ∨ d.time < d.graceEnd then d
      else if (d.lostJobs i).isEmpty then d.deadlinePassed i
      else (d.deadlinePassed i).streamsLost i (d.lostJobs i) d.fab.bendsPrev := by
  unfold Dev.bendDeadline
  split
  · rfl
  · obtain ⟨-, hout, -⟩ := (d.onFab (fun x => { x with deadlineDone := i :: x.deadlineDone })).notifyRx_notifies d.fab.tablePrev
      d.fab.bendsPrev (some i) d.fab.rxPrev
    unfold Dev.deadlinePassed
    rw [← hout]
    rfl

/-- What a beat's deadline works on: the pace, the deadlines done, and the slots of the beat before. -/
def Fab.deadlines (x : Fab) : Pace × List Nat × List RxSlot := (x.pace, x.deadlineDone, x.rxPrev)

theorem Dev.notify_deadlines (d : Dev) (fid link : Nat) (w : Rec) : (d.notify fid link w).fab.deadlines = d.fab.deadlines := by
  unfold Dev.notify
  dsimp only
  split
  · rfl
  · generalize hx : (d.onFab _).putF rFabDown fFabDown_Count _ = x
    have hkeep : x.fab.deadlines = d.fab.deadlines := by
      rw [← hx]
      rfl
    obtain ⟨q, n, sent, hs⟩ := x.sendNotices_fab
    rw [hs, ← hkeep]
    rfl

theorem Dev.goDown_deadlines (d : Dev) (i reason : Nat) : (d.goDown i reason).fab.deadlines = d.fab.deadlines := by
  unfold Dev.goDown
  dsimp only
  generalize ha : (((d.stampLink i).setLink i 4).putF (rFabLinkState i) fFabLinkState_Reason reason).forget i = a
  have hafab : (a.raise pgFab 1).fab.deadlines = d.fab.deadlines := by
    rw [a.raise_frame pgFab 1 .fab rfl, ← ha]
    rfl
  split
  · rw [Dev.notify_deadlines, hafab]
  · exact hafab

/-- Events of the fabric stay set when a link goes DOWN. -/
theorem Dev.goDown_event {d : Dev} {n : Nat} (i : LinkId) (reason : Nat) (h : d.event pgFab n = true) : (d.goDown i reason).event pgFab n = true := by
  have hst : rBlkIntStat pgFab ≠ rFabLinkState i := by
    simp only [rBlkIntStat, pgFab, rFabLinkState]
    omega
  unfold Dev.goDown
  dsimp only
  generalize ha : (((d.stampLink i).setLink i 4).putF (rFabLinkState i) fFabLinkState_Reason reason).forget i = a
  have haregs : d.regsBut a [rFabLinkState i] := by
    rw [← ha]
    exact ((d.regsBut_refl _).after (Dev.regsBut_putF (d.stampLink i) (rFabLinkState i) fFabLinkState_State 4)
      (List.Subset.refl _)).after (Dev.regsBut_putF _ _ _ _) (List.Subset.refl _)
  have hb : (a.raise pgFab 1).event pgFab n = true :=
    Dev.event_raise ((congrArg (bitOf · n) (haregs _ (by rw [List.contains_cons, List.contains_nil, Bool.or_false]; exact beq_false_of_ne hst))).trans h)
      (by decide) _ _
  generalize a.raise pgFab 1 = b at hb
  split
  · obtain ⟨-, hregs, -⟩ := b.notify_names b.fid i (noticeWord b.fid i b.fab.beatNo)
    exact (congrArg (bitOf · n) (hregs _ (by decide))).trans hb
  · exact hb

/-- What the lost streams of a link leave: their counts, the event, the jobs in the pace word, and the link DOWN where it heard no BEND. -/
theorem Dev.streamsLost_loses (d : Dev) (i : LinkId) (lost : List Nat) (bends : Tab Rec) (hlost : ∀ j ∈ lost, j < 64) :
    let e := d.streamsLost i lost bends
    d.counted e rFabBtmoCnt fFabBtmoCnt_Cnt lost.length ∧ d.counted e (rFabLinkBtmo i) fFabLinkBtmo_Btmo lost.length
      ∧ (∀ j : Nat, e.fab.pace.stop.getLsbD j = (d.fab.pace.stop.getLsbD j || lost.contains j && bendState bends i j == some 3))
      ∧ (∀ j : Nat, e.fab.pace.gap.getLsbD j = (d.fab.pace.gap.getLsbD j || lost.contains j && bendState bends i j != some 3))
      ∧ (thas bends i.val = false → d.linkUp i = true → e.linkState i = 4
          ∧ e.getF (rFabLinkState i) fFabLinkState_Reason = 3 ∧ d.linkNamed e d.fid i (d.fab.beatNo % 2 ^ 32))
      ∧ (thas bends i.val = true ∨ d.linkUp i = false → e.linkState i = d.linkState i)
      ∧ d.raised e pgFab 2 [rFabBtmoCnt, rFabLinkBtmo i, rFabLinkState i, rFabDown] [.fab]
      ∧ e.fab.deadlineDone = d.fab.deadlineDone ∧ e.fab.rxPrev = d.fab.rxPrev ∧ e.tiles = d.tiles := by
  dsimp only
  have hi := i.isLt
  have hne : rFabLinkBtmo i ≠ rFabBtmoCnt ∧ rFabLinkState i ≠ rFabBtmoCnt ∧ rFabLinkState i ≠ rFabLinkBtmo i ∧ rFabCfg ≠ rFabLinkBtmo i
      ∧ rFabDown ≠ rFabLinkBtmo i := by
    simp only [rFabLinkBtmo, rFabBtmoCnt, rFabLinkState, rFabCfg, rFabDown]
    omega
  have hquiet : ∀ a, a = rFabBtmoCnt ∨ a = rFabLinkBtmo i ∨ a = rFabLinkState i ∨ a = rFabCfg → (raiseRegs pgFab).contains a = false := by
    simp only [raiseRegs, List.contains_cons, List.contains_nil, rFabLinkBtmo, rFabBtmoCnt, rFabLinkState, rFabCfg, rBlkIntStat, pgFab, rHifTxDrop,
      pgHif, Bool.or_false, Bool.or_eq_false_iff, beq_eq_false_iff_ne]
    omega
  unfold Dev.streamsLost
  dsimp only
  generalize ha : (d.addF rFabBtmoCnt fFabBtmoCnt_Cnt lost.length).addF (rFabLinkBtmo i) fFabLinkBtmo_Btmo lost.length = a
  have haregs : d.regsBut a [rFabBtmoCnt, rFabLinkBtmo i] := by
    rw [← ha]
    exact ((d.regsBut_refl _).after (Dev.regsBut_putF _ _ _ _) (by simp)).after (Dev.regsBut_putF _ _ _ _) (by simp)
  have haframe : d.onlyIn a [.regs] := by
    rw [← ha]
    exact ((d.onlyIn_refl _).after (Dev.addF_frame _ _ _ _)).after (Dev.addF_frame _ _ _ _)
  have hcnt : d.counted a rFabBtmoCnt fFabBtmoCnt_Cnt lost.length := by
    rw [Dev.counted, ← ha, Dev.addF, Dev.getF_putF_ne _ _ _ _ hne.1.symm]
    exact d.addF_counted _ _ _ (by decide)
  have hbtmo : d.counted a (rFabLinkBtmo i) fFabLinkBtmo_Btmo lost.length := by
    have h := (d.addF rFabBtmoCnt fFabBtmoCnt_Cnt lost.length).addF_counted (rFabLinkBtmo i) fFabLinkBtmo_Btmo lost.length (by decide)
    rw [ha] at h
    rw [Dev.counted, h, Dev.addF, Dev.getF_putF_ne _ _ _ _ hne.1]
  generalize hb : a.raise pgFab 4 = b
  have hbregs : a.regsBut b (raiseRegs pgFab) := hb ▸ a.raise_regsBut pgFab 4
  have hbframe : d.onlyIn b [.regs, .hif] := hb ▸ (Dev.onlyIn_sub _ haframe rfl).after (a.raise_frame pgFab 4)
  have hbevent : b.event pgFab 2 = true := hb ▸ a.raise_event (i := 2) (by decide) (by decide)
  have hbkeep : d.regsBut b ([rFabBtmoCnt, rFabLinkBtmo i] ++ raiseRegs pgFab) :=
    (Dev.regsBut_mono haregs (by simp)).after hbregs (by simp)
  have hbfab : b.fab = d.fab := hbframe .fab rfl
  have hbstate : b.reg (rFabLinkState i) = d.reg (rFabLinkState i) := by
    refine hbkeep _ ?_
    rw [List.contains_eq_any_beq, List.any_append, ← List.contains_eq_any_beq, ← List.contains_eq_any_beq, hquiet _ (.inr (.inr (.inl rfl)))]
    simp [hne.2.1, hne.2.2.1]
  have hbfid : b.fid = d.fid := by
    refine congrArg (fld · fFabCfg_Fid) (hbkeep _ ?_)
    rw [List.contains_eq_any_beq, List.any_append, ← List.contains_eq_any_beq, ← List.contains_eq_any_beq, hquiet _ (.inr (.inr (.inr rfl)))]
    simp [hne.2.2.2.1, show rFabCfg ≠ rFabBtmoCnt by decide]
  have hup : b.linkUp i = d.linkUp i := by
    simp only [Dev.linkUp, Dev.linkState, Dev.getF, hbstate]
  generalize hc : (if (!thas bends i.val) = true ∧ b.linkUp i = true then b.goDown i 3 else b) = c
  obtain ⟨hcregs, hcframe, hcevent, hcdead, hcdown, hcstay⟩ : b.regsBut c ([rFabLinkState i, rFabDown] ++ raiseRegs pgFab)
      ∧ b.onlyIn c [.regs, .hif, .fab] ∧ c.event pgFab 2 = true ∧ c.fab.deadlines = d.fab.deadlines
      ∧ (thas bends i.val = false → d.linkUp i = true → c.linkState i = 4
          ∧ c.getF (rFabLinkState i) fFabLinkState_Reason = 3 ∧ d.linkNamed c d.fid i (d.fab.beatNo % 2 ^ 32))
      ∧ (thas bends i.val = true ∨ d.linkUp i = false → c.linkState i = d.linkState i) := by
    rw [← hc, hup]
    split
    next hgo =>
      obtain ⟨hstate, hreason, hnamed, ⟨-, hregs, hframe⟩, -⟩ := b.goDown_goes i (reason := 3) (by decide)
      rw [Dev.linkNamed, hbfid, hbfab] at hnamed
      refine ⟨Dev.regsBut_mono hregs (by simp [raiseRegs]), Dev.onlyIn_sub _ hframe rfl, Dev.goDown_event i 3 hbevent,
        (Dev.goDown_deadlines b i 3).trans (congrArg Fab.deadlines hbfab), fun _ _ => ⟨hstate, hreason, hnamed⟩, fun h => ?_⟩
      rcases h with h | h <;> simp [h] at hgo
    next hgo =>
      refine ⟨b.regsBut_refl _, b.onlyIn_refl _, hbevent, congrArg Fab.deadlines hbfab, fun h1 h2 => absurd ⟨by rw [h1]; rfl, h2⟩ hgo,
        fun _ => congrArg (fld · fFabLinkState_State) hbstate⟩
  obtain ⟨hpace, hdone, hrx⟩ : c.fab.pace = d.fab.pace ∧ c.fab.deadlineDone = d.fab.deadlineDone ∧ c.fab.rxPrev = d.fab.rxPrev := by
    simpa only [Fab.deadlines, Prod.mk.injEq] using hcdead
  generalize hp : ({ need := 0, epoch := 0, gap := _, stop := _ } : Pace) = p
  obtain ⟨hmframe, hmpace, hmdone, hmrx, hmfwd, hmdn⟩ := c.mergePace_merges p
  have hmregs : (c.mergePace p).regs = c.regs := hmframe .regs rfl
  have hckeep : d.regsBut c ([rFabBtmoCnt, rFabLinkBtmo i, rFabLinkState i, rFabDown] ++ raiseRegs pgFab) :=
    (Dev.regsBut_mono hbkeep (by simp)).after hcregs (by simp)
  have hcut : ∀ (q : Nat → Bool) (j : Nat), ((lost.filter q).foldl (fun m j => m ||| jobBit j) 0).getLsbD j = (lost.contains j && q j) := by
    intro q j
    rw [foldl_jobBit _ _ _ fun k hk => hlost k (List.mem_filter.mp hk).1, Bool.eq_iff_iff]
    simp
  have hcount : c.reg rFabBtmoCnt = a.reg rFabBtmoCnt ∧ c.reg (rFabLinkBtmo i) = a.reg (rFabLinkBtmo i) := by
    refine ⟨(hcregs _ ?_).trans (hbregs _ (hquiet _ (.inl rfl))), (hcregs _ ?_).trans (hbregs _ (hquiet _ (.inr (.inl rfl))))⟩ <;>
      rw [List.contains_eq_any_beq, List.any_append, ← List.contains_eq_any_beq, ← List.contains_eq_any_beq]
    · rw [hquiet _ (.inl rfl)]
      simp [hne.2.1.symm, show rFabBtmoCnt ≠ rFabDown by decide]
    · rw [hquiet _ (.inr (.inl rfl))]
      simp [hne.2.2.1.symm, hne.2.2.2.2.symm]
  refine ⟨?_, ?_, fun j => ?_, fun j => ?_, fun h1 h2 => ?_, fun h => ?_, ⟨?_, ?_, ?_⟩, hmdone.trans hdone, hmrx.trans hrx, ?_⟩
  · rw [Dev.counted, Dev.getF_of_regs hmregs, Dev.getF, hcount.1]
    exact hcnt
  · rw [Dev.counted, Dev.getF_of_regs hmregs, Dev.getF, hcount.2]
    exact hbtmo
  · rw [hmpace, Pace.merge, BitVec.getLsbD_or, hpace, ← hp, hcut]
  · rw [hmpace, Pace.merge, BitVec.getLsbD_or, hpace, ← hp, hcut]
  · obtain ⟨hstate, hreason, hnamed⟩ := hcdown h1 h2
    rw [Dev.linkNamed, hmfwd, hmdn, ← Dev.linkNamed]
    exact ⟨(Dev.getF_of_regs hmregs _ _).trans hstate, (Dev.getF_of_regs hmregs _ _).trans hreason, hnamed⟩
  · exact (Dev.getF_of_regs hmregs _ _).trans (hcstay h)
  · exact (Dev.event_of_regs hmregs _ _).trans hcevent
  · exact hckeep.after (Dev.regsBut_of_onlyIn hmframe rfl []) (List.nil_subset _)
  · exact ((Dev.onlyIn_sub _ hbframe rfl).after hcframe).after hmframe
  · rw [hmframe .tiles rfl, hcframe .tiles rfl, hbframe .tiles rfl]

theorem seJob_lt (e : SlotEnt) : seJob e < 64 := Nat.mod_lt _ (by decide)

theorem Dev.lostJobs_lt {d : Dev} {i j : Nat} (h : j ∈ d.lostJobs i) : j < 64 := by
  obtain ⟨⟨x, -, hx⟩, -⟩ := (d.mem_lostJobs i j).mp h
  exact hx ▸ seJob_lt _

/-- The slots that a deadline notifies, as the spec names them. -/
theorem noted_eq (table : List SlotEnt) (bends : Tab Rec) (rx : List RxSlot) (i : Nat) :
    (rx.map fun s => if notifies table bends rx (some i) s then { s with notified := true } else s)
      = rx.map fun x => if seLink (table.getD x.n 0) = i ∧ seNotify (table.getD x.n 0) = true ∧ confirmed table bends rx x = true
          then { x with notified := true } else x := by
  refine List.map_congr_left fun x _ => ?_
  cases hn : x.notified with
  | true =>
    have hsame : ({ x with notified := true } : RxSlot) = x := by rw [← hn]
    rw [hsame, ite_self, ite_self]
  | false =>
    refine if_congr ?_ rfl rfl
    simp only [notifies, hn, Bool.and_eq_true, Bool.not_false, Option.isNone_some, Bool.false_or, beq_iff_eq, Option.some.injEq, @eq_comm Nat i]
    tauto

/-- The notifications that count, as the spec names them. -/
theorem Dev.arrivalsOf_eq (d : Dev) (i t a : Nat) :
    d.arrivalsOf d.fab.tablePrev d.fab.bendsPrev d.fab.rxPrev (some i) t a d.fab.rxPrev
      = ((d.slotsOn i).filter (fun x => seNotify (d.fab.tablePrev.getD x.n 0) && !x.notified
          && confirmed d.fab.tablePrev d.fab.bendsPrev d.fab.rxPrev x && seNtile (d.fab.tablePrev.getD x.n 0) == t
          && seNactr (d.fab.tablePrev.getD x.n 0) == a && !d.inReset (sePart (d.fab.tablePrev.getD x.n 0)))).length := by
  rw [Dev.arrivalsOf, Dev.slotsOn, List.filter_filter]
  congr 1
  refine List.filter_congr fun x _ => ?_
  rw [Bool.eq_iff_iff]
  simp only [notifies, Bool.and_eq_true, Option.isNone_some, Bool.false_or, beq_iff_eq, Option.some.injEq, @eq_comm Nat i]
  constructor
  · rintro ⟨⟨⟨⟨hn, hf⟩, hl⟩, hc⟩, ⟨ht, ha⟩, hr⟩
    exact ⟨⟨⟨⟨⟨⟨hn, hf⟩, hc⟩, ht⟩, ha⟩, hr⟩, hl⟩
  · rintro ⟨⟨⟨⟨⟨⟨hn, hf⟩, hc⟩, ht⟩, ha⟩, hr⟩, hl⟩
    exact ⟨⟨⟨⟨hn, hf⟩, hl⟩, hc⟩, ⟨ht, ha⟩, hr⟩

/-- Settles O33: the deadline done once, its notifications, and the streams it finds lost. -/
theorem deadlinesConfirmOrTimeOut : Obligations.DeadlinesConfirmOrTimeOut := by
  unfold Obligations.DeadlinesConfirmOrTimeOut
  intro s i
  dsimp only
  have hdue : (s.dev.fab.deadlineDone.contains i.val = true ∨ s.dev.time < s.dev.graceEnd)
      ↔ ¬ (s.dev.fab.deadlineDone.contains i.val = false ∧ s.dev.fab.beatStart + s.dev.getF rFabTmo fFabTmo_Grace ≤ s.dev.time) := by
    rw [not_and_or, Bool.not_eq_false, Nat.not_le]
    rfl
  have hexec : exec (.bendDeadline i) s = .next (s.onDev fun d => d.bendDeadline i) := rfl
  have heq := s.dev.bendDeadline_eq i
  refine ⟨fun h => ?_, fun h => ?_⟩
  · rw [if_pos (hdue.mpr h)] at heq
    rw [hexec, State.onDev, heq]
  · rw [if_neg fun hn => hdue.mp hn h] at heq
    obtain ⟨hframe, hfab, hcount⟩ := s.dev.deadlinePassed_passes i
    have hnodup : (s.dev.lostJobs i).Nodup := (nodup_eraseDups _).filter _
    have hpaces : ∀ t a : Nat, tget ((s.dev.deadlinePassed i).tile t).arrival 0 a = _ := fun t a => (hcount t a).trans (by rw [Dev.arrivalsOf_eq])
    rw [noted_eq] at hfab
    by_cases hnone : (s.dev.lostJobs i).isEmpty = true
    · rw [if_pos hnone] at heq
      rw [List.isEmpty_iff] at hnone
      refine ⟨s.dev.deadlinePassed i, hexec.trans (State.onDev_next heq), by rw [hfab], by rw [hfab], hpaces, fun _ => ⟨hframe, by rw [hfab]⟩,
        fun js hjs hmem hne => absurd ?_ hne⟩
      refine List.eq_nil_iff_forall_not_mem.mpr fun j hj => ?_
      have := (s.dev.mem_lostJobs i j).mpr ((hmem j).mp hj)
      rw [hnone] at this
      exact List.not_mem_nil this
    · rw [if_neg hnone] at heq
      obtain ⟨hcnt, hbtmo, hstop, hgap, hdown, hstay, ⟨hevent, hregs, heframe⟩, hdone, hrx, htiles⟩ :=
        (s.dev.deadlinePassed i).streamsLost_loses i (s.dev.lostJobs i) s.dev.fab.bendsPrev fun j hj => Dev.lostJobs_lt hj
      generalize (s.dev.deadlinePassed i).streamsLost i (s.dev.lostJobs i) s.dev.fab.bendsPrev = e at *
      have hpregs : (s.dev.deadlinePassed i).regs = s.dev.regs := hframe .regs rfl
      generalize s.dev.deadlinePassed i = p at *
      refine ⟨e, hexec.trans (State.onDev_next heq), by rw [hdone, hfab], by rw [hrx, hfab], fun t a => ?_, fun hno => ?_, fun js hjs hmem hne => ?_⟩
      · rw [Dev.tile_congr htiles]
        exact hpaces t a
      · refine absurd (List.isEmpty_iff.mpr (List.eq_nil_iff_forall_not_mem.mpr fun j hj => ?_)) hnone
        exact hno j ((s.dev.mem_lostJobs i j).mp hj)
      · have hsame : ∀ j : Nat, j ∈ js ↔ j ∈ s.dev.lostJobs i := fun j => (hmem j).trans (s.dev.mem_lostJobs i j).symm
        have hlen := length_eq_of_same hjs hnodup hsame
        have hcont : ∀ j : Nat, (s.dev.lostJobs i).contains j = js.contains j := fun j => by
          rw [Bool.eq_iff_iff, List.contains_iff_mem, List.contains_iff_mem, hsame]
        have hlink : p.linkState i = s.dev.linkState i := Dev.getF_of_regs hpregs _ _
        have hup : p.linkUp i = s.dev.linkUp i := by rw [Dev.linkUp, Dev.linkUp, hlink]
        have hfid : p.fid = s.dev.fid := Dev.getF_of_regs hpregs _ _
        rw [Dev.counted, ← hlen, Dev.getF_of_regs hpregs] at hcnt hbtmo
        have hbeat : p.fab.beatNo = s.dev.fab.beatNo := by rw [hfab]
        have hfwd : p.fab.forwarded = s.dev.fab.forwarded := by rw [hfab]
        rw [hup, Dev.linkNamed, hfid, hbeat, hfwd] at hdown
        rw [hup, hlink] at hstay
        refine ⟨hcnt, hbtmo, fun j => ?_, fun j => ?_, ?_, hstay, hevent, ?_, ?_⟩
        · rw [hstop, hcont, hfab]
        · rw [hgap, hcont, hfab]
        · exact hdown
        · exact Dev.regsBut_trans (Dev.regsBut_of_onlyIn hframe rfl _) hregs
        · exact (Dev.onlyIn_sub _ hframe rfl).after heframe

end Sys2Proof.Machine
end

section
/-! # The time that a device hears, and notices -/

namespace Sys2Proof.Machine

/-! ## What a device shows of the time it keeps (10 R285, Table 10-3) -/

theorem Dev.setReg_only (d : Dev) (a : Nat) (v : W64) : d.onlyIn (d.setReg a v) [.regs] := d.setReg_frame _ _

/-- The time shown changes FAB_STATUS.TIME_ALIGNED, FAB_TIME and FAB_TIME_ROOT. -/
theorem Dev.showTime_shows (d : Dev) :
    d.regsBut d.showTime [rFabStatus, rFabTime, rFabTimeRoot] ∧ d.onlyIn d.showTime [.regs]
      ∧ ∀ f : Fld, fFabStatus_TimeAligned.lo + fFabStatus_TimeAligned.len ≤ f.lo → d.showTime.getF rFabStatus f = d.getF rFabStatus f := by
  have hset : ∀ (u v : W64) (n : Nat), let e := ((d.setReg rFabTime u).setReg rFabTimeRoot v).putF rFabStatus fFabStatus_TimeAligned n
      d.regsBut e [rFabStatus, rFabTime, rFabTimeRoot] ∧ d.onlyIn e [.regs]
        ∧ ∀ f : Fld, fFabStatus_TimeAligned.lo + fFabStatus_TimeAligned.len ≤ f.lo → e.getF rFabStatus f = d.getF rFabStatus f := by
    intro u v n
    refine ⟨(((d.regsBut_refl _).after (Dev.regsBut_setReg _ _ _) (by simp)).after (Dev.regsBut_setReg _ _ _) (by simp)).after
      (Dev.regsBut_putF _ _ _ _) (by simp), (((d.onlyIn_refl _).after (Dev.setReg_only _ _ _)).after (Dev.setReg_only _ _ _)).after
      (Dev.putF_frame _ _ _ _), fun f hf => ?_⟩
    rw [Dev.getF_putF_field _ _ _ _ _ (by decide) (.inr hf), Dev.getF, Dev.reg_setReg_ne _ _ (by decide), Dev.reg_setReg_ne _ _ (by decide), Dev.getF]
  have hlost : ∀ (u : W64) (n : Nat), let e := (d.setReg rFabTime u).putF rFabStatus fFabStatus_TimeAligned n
      d.regsBut e [rFabStatus, rFabTime, rFabTimeRoot] ∧ d.onlyIn e [.regs]
        ∧ ∀ f : Fld, fFabStatus_TimeAligned.lo + fFabStatus_TimeAligned.len ≤ f.lo → e.getF rFabStatus f = d.getF rFabStatus f := by
    intro u n
    refine ⟨((d.regsBut_refl _).after (Dev.regsBut_setReg _ _ _) (by simp)).after (Dev.regsBut_putF _ _ _ _) (by simp),
      ((d.onlyIn_refl _).after (Dev.setReg_only _ _ _)).after (Dev.putF_frame _ _ _ _), fun f hf => ?_⟩
    rw [Dev.getF_putF_field _ _ _ _ _ (by decide) (.inr hf), Dev.getF, Dev.reg_setReg_ne _ _ (by decide), Dev.getF]
  unfold Dev.showTime
  split
  · exact hset _ _ _
  · split
    · exact hlost _ _
    · exact hset _ _ _

/-- A root shows itself, aligned and at distance 0. -/
theorem Dev.showTime_root {d : Dev} (h : d.getF rFabStatus fFabStatus_Root = 1) :
    d.showTime.getF rFabStatus fFabStatus_TimeAligned = 1 ∧ d.showTime.reg rFabTimeRoot = BitVec.ofNat 64 d.fid
      ∧ d.showTime.getF rFabTime fFabTime_Dist = 0 := by
  have hroot : d.isRoot = true := by rw [Dev.isRoot, h]; rfl
  unfold Dev.showTime
  rw [if_pos hroot]
  refine ⟨Dev.putF_field (by decide) (by decide), ?_, ?_⟩
  · rw [Dev.reg_putF_ne _ _ _ (by decide), Dev.reg_setReg_self, Dev.fid, Dev.getF, Dev.reg_setReg_ne _ _ (by decide), ← Dev.getF, ← Dev.fid]
  · rw [Dev.getF_putF_ne _ _ _ _ (by decide), Dev.getF, Dev.reg_setReg_ne _ _ (by decide), Dev.reg_setReg_self]
    decide

/-- A device without a parent shows that it is not aligned. -/
theorem Dev.showTime_orphan {d : Dev} (h : d.getF rFabStatus fFabStatus_Root ≠ 1) (hp : d.parent = none) :
    d.showTime.getF rFabStatus fFabStatus_TimeAligned = 0 ∧ d.showTime.getF rFabTime fFabTime_Dist = 15
      ∧ d.regsBut d.showTime [rFabStatus, rFabTime] := by
  have hroot : ¬ d.isRoot = true := by
    rw [Dev.isRoot, beq_iff_eq]
    exact h
  unfold Dev.showTime
  rw [if_neg hroot, hp]
  refine ⟨Dev.putF_field (by decide) (by decide), ?_, ?_⟩
  · rw [Dev.getF_putF_ne _ _ _ _ (by decide), Dev.getF, Dev.reg_setReg_self]
    decide
  · exact ((d.regsBut_refl _).after (Dev.regsBut_setReg _ _ _) (by simp)).after (Dev.regsBut_putF _ _ _ _) (by simp)

theorem tfind_mapped {α : Type} (g : α → α) (t : Tab α) (k : Nat) : tfind (t.map fun e => (e.1, g e.2)) k = (tfind t k).map g := by
  induction t with
  | nil => rfl
  | cons e t ih =>
    obtain ⟨k', v⟩ := e
    rw [List.map_cons, tfind_cons, tfind_cons, ih]
    split <;> rfl

/-- What a BEND that was heard says, but for the offset it gives. -/
def Heard.said (h : Heard) : Nat × Nat × Nat × Nat := (h.root, h.dist, h.txTime, h.rxTime)

/-- A step of DEV_TIME takes along what was heard and when, and nothing else. -/
theorem Dev.stepBy_steps (d : Dev) (x : Int) :
    (∀ i : Nat, (tfind (d.stepBy x).fab.heard i).map Heard.said = (tfind d.fab.heard i).map Heard.said)
      ∧ (d.stepBy x).fab.bends = d.fab.bends ∧ (d.stepBy x).fab.bendsPrev = d.fab.bendsPrev
      ∧ (d.fab.rootHeard = d.time → (d.stepBy x).fab.rootHeard = (d.stepBy x).time)
      ∧ (d.fab.lowerHeard = d.time → (d.stepBy x).fab.lowerHeard = (d.stepBy x).time) ∧ d.onlyIn (d.stepBy x) [.fab, .time] := by
  refine ⟨fun i => ?_, rfl, rfl, fun h => ?_, fun h => ?_, fun c hc => ?_⟩
  · show (tfind (d.fab.heard.map fun e => (e.1, { e.2 with offset := e.2.offset - 256 * x })) i).map Heard.said = _
    rw [tfind_mapped (fun h : Heard => { h with offset := h.offset - 256 * x }), Option.map_map]
    rfl
  · exact congrArg (fun n : Nat => ((n : Int) + x).toNat) h
  · exact congrArg (fun n : Nat => ((n : Int) + x).toNat) h
  · cases c <;> first | rfl | simp at hc

/-- The first parent found sets DEV_TIME, except where an epoch or a request holds it; what was heard stays. -/
theorem Dev.timeStep_steps (d : Dev) :
    (∀ i : Nat, (tfind d.timeStep.fab.heard i).map Heard.said = (tfind d.fab.heard i).map Heard.said)
      ∧ d.timeStep.fab.bends = d.fab.bends ∧ d.timeStep.fab.bendsPrev = d.fab.bendsPrev
      ∧ (d.fab.rootHeard = d.time → d.timeStep.fab.rootHeard = d.timeStep.time)
      ∧ (d.fab.lowerHeard = d.time → d.timeStep.fab.lowerHeard = d.timeStep.time)
      ∧ (d.hasEpoch = true ∨ d.anyOccupied = true ∨ d.fab.hadParent = true → d.timeStep.time = d.time)
      ∧ d.regsBut d.timeStep (raiseRegs pgDev) ∧ d.onlyIn d.timeStep [.fab, .regs, .time, .hif] := by
  have hstay : (∀ i : Nat, (tfind d.fab.heard i).map Heard.said = (tfind d.fab.heard i).map Heard.said)
      ∧ d.fab.bends = d.fab.bends ∧ d.fab.bendsPrev = d.fab.bendsPrev ∧ (d.fab.rootHeard = d.time → d.fab.rootHeard = d.time)
      ∧ (d.fab.lowerHeard = d.time → d.fab.lowerHeard = d.time)
      ∧ (d.hasEpoch = true ∨ d.anyOccupied = true ∨ d.fab.hadParent = true → d.time = d.time)
      ∧ d.regsBut d (raiseRegs pgDev) ∧ d.onlyIn d [.fab, .regs, .time, .hif] :=
    ⟨fun _ => rfl, rfl, rfl, id, id, fun _ => rfl, d.regsBut_refl _, d.onlyIn_refl _⟩
  unfold Dev.timeStep
  split
  · exact hstay
  next h _ =>
    split
    · exact hstay
    next hfirst =>
      dsimp only
      generalize hb : d.onFab (fun x => { x with hadParent := true }) = b
      have hbregs : b.regs = d.regs := hb ▸ rfl
      split
      next =>
        subst hb
        exact ⟨fun _ => rfl, rfl, rfl, id, id, fun _ => rfl, Dev.regsBut_of_onlyIn (d.onFab_frame _) rfl _, Dev.onlyIn_sub _ (d.onFab_frame _) rfl⟩
      next hfree =>
        obtain ⟨hheard, hbends, hprev, hroot, hlower, hframe⟩ := b.stepBy_steps (openUnits 6 h.offset 256)
        have hbfab : b.fab = { d.fab with hadParent := true } := hb ▸ rfl
        have hbtime : b.time = d.time := hb ▸ rfl
        have hbframe : d.onlyIn b [.fab] := hb ▸ d.onFab_frame _
        generalize b.stepBy (openUnits 6 h.offset 256) = c at *
        have hcregs : c.regs = d.regs := (hframe .regs rfl).trans hbregs
        obtain ⟨g, hg⟩ : ∃ g, g = c.gridBeats := ⟨_, rfl⟩
        have hgkeep : g.fab.heard = c.fab.heard ∧ g.fab.bends = c.fab.bends ∧ g.fab.bendsPrev = c.fab.bendsPrev
            ∧ g.fab.rootHeard = c.fab.rootHeard ∧ g.fab.lowerHeard = c.fab.lowerHeard ∧ g.time = c.time ∧ c.onlyIn g [.fab] := by
          rw [hg, Dev.gridBeats]
          split
          · exact ⟨rfl, rfl, rfl, rfl, rfl, rfl, c.onlyIn_refl _⟩
          · exact ⟨rfl, rfl, rfl, rfl, rfl, rfl, c.onFab_frame _⟩
        rw [← hg]
        obtain ⟨hgheard, hgbends, hgprev, hgroot, hglower, hgtime, hgframe⟩ := hgkeep
        have hraise := g.raise_frame pgDev 1
        have hregs := g.raise_regsBut pgDev 1
        rw [hbfab, hbtime] at hroot hlower
        generalize g.raise pgDev 1 = r at *
        rw [hraise .fab rfl, hraise .time rfl, hgheard, hgbends, hgprev, hgroot, hglower, hgtime]
        refine ⟨fun i => (hheard i).trans (by rw [hbfab]), hbends.trans (by rw [hbfab]), hprev.trans (by rw [hbfab]), hroot, hlower, fun hn => ?_, ?_, ?_⟩
        · refine absurd hn ?_
          have hep : b.hasEpoch = d.hasEpoch := by rw [Dev.hasEpoch, Dev.getF_of_regs hbregs, Dev.hasEpoch]
          have hocc : b.anyOccupied = d.anyOccupied := by rw [Dev.anyOccupied, hbframe .srv rfl, Dev.anyOccupied]
          rw [hep, hocc] at hfree
          rintro (hn | hn | hn)
          · exact hfree (.inl hn)
          · exact hfree (.inr hn)
          · exact hfirst (.inl hn)
        · exact Dev.regsBut_trans (Dev.regsBut_of_onlyIn (Dev.onlyIn_trans (Dev.onlyIn_sub [.fab, .time] hbframe rfl)
            (Dev.onlyIn_trans hframe (Dev.onlyIn_sub _ hgframe rfl))) rfl _) hregs
        · exact (((Dev.onlyIn_sub _ hbframe rfl).after hframe).after hgframe).after hraise

/-- A root that was heard clears TIME_LOST, and ROOT where this device follows it. -/
theorem Dev.hearRoot_hears (d : Dev) (root : Nat) :
    (d.hearRoot root).getF rFabStatus fFabStatus_TimeLost = 0 ∧ (d.hearRoot root).fab.rootHeard = (d.hearRoot root).time
      ∧ (d.getF rFabCfg fFabCfg_TimeRoot = 0 ∨ root < d.fid →
          (d.hearRoot root).getF rFabStatus fFabStatus_Root = 0 ∧ (d.hearRoot root).fab.lowerHeard = (d.hearRoot root).time)
      ∧ (d.hearRoot root).fab.heard = d.fab.heard ∧ (d.hearRoot root).fab.bends = d.fab.bends
      ∧ (d.hearRoot root).fab.bendsPrev = d.fab.bendsPrev ∧ (d.hearRoot root).fab.hadParent = d.fab.hadParent
      ∧ (d.hearRoot root).hasEpoch = d.hasEpoch ∧ d.regsBut (d.hearRoot root) [rFabStatus] ∧ d.onlyIn (d.hearRoot root) [.fab, .regs] := by
  unfold Dev.hearRoot
  dsimp only
  generalize hb : (d.onFab (fun x => { x with rootHeard := d.time })).putF rFabStatus fFabStatus_TimeLost 0 = b
  have hbregs : d.regsBut b [rFabStatus] := hb ▸ Dev.regsBut_trans (Dev.regsBut_of_onlyIn (d.onFab_frame _) rfl _) (Dev.regsBut_putF _ _ _ _)
  have hbframe : d.onlyIn b [.fab, .regs] := hb ▸ (Dev.onlyIn_sub _ (d.onFab_frame _) rfl).after (Dev.putF_frame _ _ _ _)
  have hbfab : b.fab = { d.fab with rootHeard := d.time } := by
    rw [← hb]
    exact Dev.putF_frame _ _ _ _ .fab rfl
  have hbtime : b.time = d.time := hbframe .time rfl
  have hlost : b.getF rFabStatus fFabStatus_TimeLost = 0 := hb ▸ Dev.putF_field (by decide) (by decide)
  have hepoch : b.getF rFabStatus fFabStatus_EpochState = d.getF rFabStatus fFabStatus_EpochState := by
    rw [← hb, Dev.getF_putF_field _ _ _ _ _ (by decide) (.inl (by decide))]
    rfl
  have hcand : (b.getF rFabCfg fFabCfg_TimeRoot = 0 ∨ root < b.fid) ↔ (d.getF rFabCfg fFabCfg_TimeRoot = 0 ∨ root < d.fid) := by
    have hcfg : b.reg rFabCfg = d.reg rFabCfg := hbregs _ (by decide)
    rw [Dev.fid, Dev.fid, Dev.getF, Dev.getF, Dev.getF, Dev.getF, hcfg]
  split
  next hgo =>
    generalize hc : (b.onFab (fun x => { x with lowerHeard := b.time })).putF rFabStatus fFabStatus_Root 0 = c
    have hcfab : c.fab = { b.fab with lowerHeard := b.time } := by
      rw [← hc]
      exact Dev.putF_frame _ _ _ _ .fab rfl
    have hcframe : b.onlyIn c [.fab, .regs] := hc ▸ (Dev.onlyIn_sub _ (b.onFab_frame _) rfl).after (Dev.putF_frame _ _ _ _)
    have hctime : c.time = b.time := hcframe .time rfl
    have hkeep : ∀ f : Fld, f.lo + f.len ≤ fFabStatus_Root.lo → c.getF rFabStatus f = b.getF rFabStatus f := by
      intro f hf
      rw [← hc, Dev.getF_putF_field _ _ _ _ _ (by decide) (.inl hf)]
      rfl
    refine ⟨(hkeep _ (by decide)).trans hlost, ?_, fun _ => ⟨hc ▸ Dev.putF_field (by decide) (by decide), by rw [hcfab, hctime]⟩, by rw [hcfab, hbfab],
      by rw [hcfab, hbfab], by rw [hcfab, hbfab], by rw [hcfab, hbfab], ?_, ?_, hbframe.after hcframe⟩
    · rw [hcfab, hbfab, hctime, hbtime]
    · rw [Dev.hasEpoch, hkeep _ (by decide), hepoch, Dev.hasEpoch]
    · refine Dev.regsBut_trans hbregs (hc ▸ Dev.regsBut_trans (Dev.regsBut_of_onlyIn (b.onFab_frame _) rfl _) (Dev.regsBut_putF _ _ _ _))
  next hgo =>
    refine ⟨hlost, by rw [hbfab, hbtime], fun h => absurd (hcand.mpr h) hgo, by rw [hbfab], by rw [hbfab], by rw [hbfab], by rw [hbfab], ?_, hbregs, hbframe⟩
    rw [Dev.hasEpoch, hepoch, Dev.hasEpoch]

/-- A word that comes by a link: let lie where the link is down, counted as bad where its generation is another's, else taken. -/
theorem Dev.takeWord_cases (d : Dev) (i : Nat) (v : Nat) (k : Dev → Dev) :
    (d.linkUp i = false → d.takeWord i v k = d)
      ∧ (d.linkUp i = true → v ≠ d.getF (rFabLinkState i) fFabLinkState_Gen → d.takeWord i v k = d.addF (rFabLinkBadword i) fFabLinkBadword_Bad 1)
      ∧ (d.linkUp i = true → v = d.getF (rFabLinkState i) fFabLinkState_Gen → d.takeWord i v k = k d) := by
  unfold Dev.takeWord
  refine ⟨fun h => ?_, fun h hv => ?_, fun h hv => ?_⟩
  · simp [h]
  · rw [h, if_neg (by simp), if_pos hv]
  · rw [h, if_neg (by simp), if_neg (not_not_intro hv)]

/-- A bad word is counted, and nothing else happens. -/
theorem Dev.badWord_counts (d : Dev) (i : Nat) :
    let e := d.addF (rFabLinkBadword i) fFabLinkBadword_Bad 1
    d.counted e (rFabLinkBadword i) fFabLinkBadword_Bad 1 ∧ d.regsBut e [rFabLinkBadword i] ∧ d.onlyIn e [.regs] :=
  ⟨d.addF_counted _ _ _ (by decide), d.regsBut_putF _ _ _, d.addF_frame _ _ _⟩

/-- What a BEND is remembered as, by the beat it names. -/
def Dev.noted (d : Dev) (i : Nat) (w : Rec) (t : Nat) : Dev :=
  d.onFab (fun x => { x with
    heard := tset x.heard i (heardOf w t)
    bends := if bitsOf w 32 32 = x.beatNo % 2 ^ 32 then tset x.bends i w else x.bends
    bendsPrev := if bitsOf w 32 32 ≠ x.beatNo % 2 ^ 32 ∧ bitsOf w 32 32 = x.prevNo % 2 ^ 32 ∧ !thas x.bendsPrev i ∧ t ≤ 256 * d.graceEnd
      then tset x.bendsPrev i w else x.bendsPrev })

/-- A BEND of this generation is remembered, and its root followed. -/
theorem Dev.bend_hears (d : Dev) (i : Nat) (w : Rec) (t : Nat) (hup : d.linkUp i = true) (hgen : bitsOf w 0 4 = d.getF (rFabLinkState i) fFabLinkState_Gen) :
    let e := d.bend i w t
    (tfind e.fab.heard i).map Heard.said = some (bitsOf w 8 10, bitsOf w 18 4, bitsOf w 64 72, t)
      ∧ e.fab.bends = (d.noted i w t).fab.bends ∧ e.fab.bendsPrev = (d.noted i w t).fab.bendsPrev
      ∧ (bitsOf w 18 4 ≠ 15 → bitsOf w 8 10 ≠ d.fid → e.getF rFabStatus fFabStatus_TimeLost = 0 ∧ e.fab.rootHeard = e.time
          ∧ (d.getF rFabCfg fFabCfg_TimeRoot = 0 ∨ bitsOf w 8 10 < d.fid →
              e.getF rFabStatus fFabStatus_Root = 0 ∧ e.fab.lowerHeard = e.time))
      ∧ (d.hasEpoch = true ∨ d.anyOccupied = true ∨ d.fab.hadParent = true → e.time = d.time)
      ∧ d.regsBut e [rFabStatus, rFabTime, rFabTimeRoot, rBlkIntStat pgDev, rHifTxDrop, rBlkIntStat pgHif]
      ∧ d.onlyIn e [.fab, .regs, .time, .hif] := by
  dsimp only
  have hbend : d.bend i w t = ((if bitsOf w 18 4 ≠ 15 ∧ bitsOf w 8 10 ≠ d.fid then (d.noted i w t).hearRoot (bitsOf w 8 10)
      else d.noted i w t).timeStep).showTime := ((d.takeWord_cases i _ _).2.2 hup hgen).trans rfl
  have hn : (tfind (d.noted i w t).fab.heard i).map Heard.said = some (bitsOf w 8 10, bitsOf w 18 4, bitsOf w 64 72, t) := by
    rw [Dev.noted, Dev.onFab, tfind_tset_self]
    rfl
  have hnframe : d.onlyIn (d.noted i w t) [.fab] := d.onFab_frame _
  have hnparent : (d.noted i w t).fab.hadParent = d.fab.hadParent := rfl
  generalize d.noted i w t = n at *
  obtain ⟨b, hb⟩ : ∃ b, b = if bitsOf w 18 4 ≠ 15 ∧ bitsOf w 8 10 ≠ d.fid then n.hearRoot (bitsOf w 8 10) else n := ⟨_, rfl⟩
  have hnregs : n.regs = d.regs := hnframe .regs rfl
  have hnfid : n.fid = d.fid := Dev.getF_of_regs hnregs _ _
  obtain ⟨hbheard, hbbends, hbprev, hbroot, hbepoch, hbregs, hbframe⟩ : b.fab.heard = n.fab.heard ∧ b.fab.bends = n.fab.bends
      ∧ b.fab.bendsPrev = n.fab.bendsPrev
      ∧ (bitsOf w 18 4 ≠ 15 → bitsOf w 8 10 ≠ d.fid → b.getF rFabStatus fFabStatus_TimeLost = 0 ∧ b.fab.rootHeard = b.time
          ∧ (d.getF rFabCfg fFabCfg_TimeRoot = 0 ∨ bitsOf w 8 10 < d.fid →
              b.getF rFabStatus fFabStatus_Root = 0 ∧ b.fab.lowerHeard = b.time))
      ∧ (b.hasEpoch = n.hasEpoch ∧ b.fab.hadParent = n.fab.hadParent) ∧ n.regsBut b [rFabStatus] ∧ n.onlyIn b [.fab, .regs] := by
    rw [hb]
    split
    next =>
      obtain ⟨hlost, hroot, hlower, hheard, hbends, hprev, hparent, hepoch, hregs, hframe⟩ := n.hearRoot_hears (bitsOf w 8 10)
      rw [hnfid, Dev.getF_of_regs hnregs] at hlower
      exact ⟨hheard, hbends, hprev, fun _ _ => ⟨hlost, hroot, hlower⟩, ⟨hepoch, hparent⟩, hregs, hframe⟩
    next hno => exact ⟨rfl, rfl, rfl, fun h1 h2 => absurd ⟨h1, h2⟩ hno, ⟨rfl, rfl⟩, n.regsBut_refl _, n.onlyIn_refl _⟩
  rw [← hb] at hbend
  obtain ⟨hcheard, hcbends, hcprev, hcroot, hclower, hctime, hcregs, hcframe⟩ := b.timeStep_steps
  have hcstatus : b.timeStep.reg rFabStatus = b.reg rFabStatus := hcregs _ (by decide)
  generalize b.timeStep = c at *
  obtain ⟨hsregs, hsframe, hskeep⟩ := c.showTime_shows
  rw [hbend, hsframe .fab rfl, hsframe .time rfl]
  refine ⟨by rw [hcheard, hbheard, hn], by rw [hcbends, hbbends], by rw [hcprev, hbprev], fun h1 h2 => ?_, fun h => ?_, ?_, ?_⟩
  · obtain ⟨hlost, hroot, hlower⟩ := hbroot h1 h2
    refine ⟨?_, hcroot hroot, fun hcand => ⟨?_, hclower (hlower hcand).2⟩⟩
    · rw [hskeep _ (by decide), Dev.getF, hcstatus]
      exact hlost
    · rw [hskeep _ (by decide), Dev.getF, hcstatus]
      exact (hlower hcand).1
  · have hbtime : b.time = d.time := (hbframe .time rfl).trans (hnframe .time rfl)
    rw [hctime, hbtime]
    have hocc : b.anyOccupied = d.anyOccupied := by rw [Dev.anyOccupied, hbframe .srv rfl, hnframe .srv rfl, Dev.anyOccupied]
    have hep : n.hasEpoch = d.hasEpoch := by rw [Dev.hasEpoch, Dev.getF_of_regs hnregs, Dev.hasEpoch]
    rw [hbepoch.1, hbepoch.2, hocc, hep, hnparent]
    exact h
  · refine Dev.regsBut_trans (Dev.regsBut_of_onlyIn hnframe rfl _) (((Dev.regsBut_mono hbregs ?_).after hcregs ?_).after hsregs ?_) <;> simp [raiseRegs]
  · exact (((Dev.onlyIn_sub _ hnframe rfl).after hbframe).after hcframe).after hsframe

/-! ## Notices (10 R283, R308) -/

/-- A link whose peer went DOWN goes DOWN for it: its state and its reason, and the event. -/
theorem Dev.goDown_told (d : Dev) (j : LinkId) :
    (d.goDown j 9).linkState j = 4 ∧ (d.goDown j 9).getF (rFabLinkState j) fFabLinkState_Reason = 9
      ∧ (d.goDown j 9).fab.forwarded = d.fab.forwarded ∧ (d.goDown j 9).fab.down = d.fab.down
      ∧ d.regsBut (d.goDown j 9) (rFabLinkState j :: raiseRegs pgFab) ∧ d.onlyIn (d.goDown j 9) [.fab, .regs, .hif] := by
  unfold Dev.goDown
  dsimp only
  rw [if_neg (by simp)]
  generalize ha : (((d.stampLink j).setLink j 4).putF (rFabLinkState j) fFabLinkState_Reason 9).forget j = a
  have hreg : a.reg (rFabLinkState j) = putFld (putFld (d.reg (rFabLinkState j)) fFabLinkState_State 4) fFabLinkState_Reason 9 := by
    rw [← ha]
    exact (Dev.reg_putF_self _ _ _ _).trans (congrArg (putFld · fFabLinkState_Reason 9) (Dev.reg_putF_self _ _ _ _))
  have haregs : d.regsBut a [rFabLinkState j] := by
    rw [← ha]
    exact ((d.regsBut_refl _).after (Dev.regsBut_putF (d.stampLink j) (rFabLinkState j) fFabLinkState_State 4)
      (List.Subset.refl _)).after (Dev.regsBut_putF _ _ _ _) (List.Subset.refl _)
  have haframe : d.onlyIn a [.regs, .fab] := by
    rw [← ha]
    intro c hc
    cases c <;> first | rfl | simp at hc
  have hafab : a.fab.forwarded = d.fab.forwarded ∧ a.fab.down = d.fab.down := by
    rw [← ha]
    exact ⟨rfl, rfl⟩
  have hquiet := (linkReg_quiet (i := j.val) (.inl rfl)).1
  have hraise := a.raise_frame pgFab 1
  have hregs := a.raise_regsBut pgFab 1
  generalize a.raise pgFab 1 = b at *
  have hst : b.reg (rFabLinkState j) = a.reg (rFabLinkState j) := hregs _ hquiet
  rw [hraise .fab rfl, Dev.linkState, Dev.getF, Dev.getF, hst, hreg]
  refine ⟨?_, fld_putFld_self _ _ _ (by decide), hafab.1, hafab.2, ?_, ?_⟩
  · rw [fld_putFld_ne _ _ _ _ (by decide) (by decide), fld_putFld_self _ _ _ (by decide)]
    rfl
  · exact (Dev.regsBut_mono haregs (by simp)).after hregs (by simp)
  · exact (Dev.onlyIn_sub _ haframe rfl).after hraise

/-- The registers of the links that a notice takes DOWN. -/
def noticeRegs : List Nat := (List.range 96).map rFabLinkState ++ raiseRegs pgFab

theorem rFabLinkState_inj {i j : Nat} (h : rFabLinkState i = rFabLinkState j) : i = j := by
  simp only [rFabLinkState] at h
  omega

/-- Links told, one after the other, that their peers went DOWN. -/
theorem Dev.goDown_all (js : List Nat) (d : Dev) (hjs : ∀ j ∈ js, j < 96) :
    let e := js.foldl (fun d j => d.goDown j 9) d
    (∀ j : LinkId, j.val ∈ js → e.linkState j = 4 ∧ e.getF (rFabLinkState j) fFabLinkState_Reason = 9)
      ∧ (∀ j : LinkId, j.val ∉ js → e.reg (rFabLinkState j) = d.reg (rFabLinkState j))
      ∧ e.fab.forwarded = d.fab.forwarded ∧ e.fab.down = d.fab.down ∧ d.regsBut e noticeRegs ∧ d.onlyIn e [.fab, .regs, .hif] := by
  induction js generalizing d with
  | nil => exact ⟨fun j h => absurd h (by simp), fun _ _ => rfl, rfl, rfl, d.regsBut_refl _, d.onlyIn_refl _⟩
  | cons k js ih =>
    have hk : k < 96 := hjs k (List.mem_cons_self ..)
    obtain ⟨hstate, hreason, hfwd, hdown, hregs, hframe⟩ := d.goDown_told ⟨k, hk⟩
    obtain ⟨hin, hout, hfwd', hdown', hregs', hframe'⟩ := ih (d.goDown k 9) fun j hj => hjs j (List.mem_cons_of_mem _ hj)
    rw [List.foldl_cons]
    refine ⟨fun j hj => ?_, fun j hj => ?_, hfwd'.trans hfwd, hdown'.trans hdown, ?_, Dev.onlyIn_trans hframe hframe'⟩
    · by_cases hjs' : j.val ∈ js
      · exact hin j hjs'
      · have hjk : j.val = k := (List.mem_cons.mp hj).resolve_right hjs'
        have hreg := hout j hjs'
        rw [Dev.linkState, Dev.getF, Dev.getF, hreg, ← Dev.getF, ← Dev.getF, ← Dev.linkState, hjk]
        exact ⟨hstate, hreason⟩
    · obtain ⟨hjk, hjs'⟩ := not_or.mp (fun h => hj (List.mem_cons.mpr h))
      refine (hout j hjs').trans (hregs _ ?_)
      rw [List.contains_cons, (linkReg_quiet (i := j.val) (.inl rfl)).1, Bool.or_false]
      exact beq_false_of_ne fun h => hjk (rFabLinkState_inj h)
    · refine Dev.regsBut_trans (Dev.regsBut_mono hregs fun a ha => ?_) hregs'
      rcases List.mem_cons.mp ha with ha | ha
      · exact List.mem_append_left _ (List.mem_map.mpr ⟨k, List.mem_range.mpr hk, ha.symm⟩)
      · exact List.mem_append_right _ ha

theorem Dev.mem_peerOf (d : Dev) (fid link : Nat) (j : LinkId) : j.val ∈ d.peerOf fid link
    ↔ d.linkUp j = true ∧ d.getF (rFabLinkPeer j) fFabLinkPeer_Fid = fid ∧ d.getF (rFabLinkPeer j) fFabLinkPeer_Link = link := by
  have := j.isLt
  simp [Dev.peerOf, Dev.upLinks, and_assoc]
  tauto

theorem tfind_of_not_thas {α : Type} {t : Tab α} {k : Nat} (h : thas t k = false) : tfind t k = none := by
  rw [tfind, List.find?_eq_none.mpr]
  exact List.any_eq_false.mp h

/-- A device that lost the time: no parent, TIME_LOST, and the event. -/
def Dev.timeAdrift (d : Dev) : Dev :=
  (((d.onFab (fun x => { x with hadParent := false, heard := [] })).putF rFabStatus fFabStatus_TimeLost 1).showTime).raise pgFab 0x80

theorem Dev.timeAdrift_shown (d : Dev) (h : d.getF rFabStatus fFabStatus_Root ≠ 1) :
    d.timeAdrift.getF rFabStatus fFabStatus_TimeLost = 1 ∧ d.timeAdrift.getF rFabStatus fFabStatus_TimeAligned = 0
      ∧ d.timeAdrift.getF rFabTime fFabTime_Dist = 15 ∧ d.raised d.timeAdrift pgFab 7 [rFabStatus, rFabTime] [.fab] := by
  unfold Dev.timeAdrift
  generalize hb : (d.onFab (fun x => { x with hadParent := false, heard := [] })).putF rFabStatus fFabStatus_TimeLost 1 = b
  have hbregs : d.regsBut b [rFabStatus] := hb ▸ Dev.regsBut_trans (Dev.regsBut_of_onlyIn (d.onFab_frame _) rfl _) (Dev.regsBut_putF _ _ _ _)
  have hbframe : d.onlyIn b [.fab, .regs] := hb ▸ (Dev.onlyIn_sub _ (d.onFab_frame _) rfl).after (Dev.putF_frame _ _ _ _)
  have hbheard : b.fab.heard = [] := by
    rw [← hb]
    exact congrArg Fab.heard (Dev.putF_frame _ _ _ _ .fab rfl)
  have hblost : b.getF rFabStatus fFabStatus_TimeLost = 1 := hb ▸ Dev.putF_field (by decide) (by decide)
  have hbroot : b.getF rFabStatus fFabStatus_Root ≠ 1 := by
    rw [← hb, Dev.getF_putF_field _ _ _ _ _ (by decide) (.inr (by decide))]
    exact h
  have hparent : b.parent = none := by
    rw [Dev.parent, hbheard]
    rfl
  obtain ⟨halign, hdist, hregs⟩ := Dev.showTime_orphan hbroot hparent
  obtain ⟨-, hframe, hkeep⟩ := b.showTime_shows
  have hlost := (hkeep fFabStatus_TimeLost (by decide)).trans hblost
  generalize b.showTime = c at *
  have hraise := c.raise_regsBut pgFab 0x80
  have hstat : (c.raise pgFab 0x80).reg rFabStatus = c.reg rFabStatus := hraise _ (by decide)
  have htime : (c.raise pgFab 0x80).reg rFabTime = c.reg rFabTime := hraise _ (by decide)
  rw [Dev.getF, Dev.getF, Dev.getF, hstat, htime]
  refine ⟨hlost, halign, hdist, c.raise_event (i := 7) (by decide) (by decide), ?_, ?_⟩
  · exact (((Dev.regsBut_mono hbregs (by simp)).after hregs (by simp)).after hraise (by simp [raiseRegs]))
  · exact ((Dev.onlyIn_sub _ hbframe rfl).after hframe).after (c.raise_frame pgFab 0x80)

/-- Settles O31: BENDs, the root's and the lost time, notices, and messages of the gander's links. -/
theorem timeWordsAndNotices : Obligations.TimeWordsAndNotices := by
  unfold Obligations.TimeWordsAndNotices
  refine ⟨fun s i w t => ?bend, fun s i => ?send, fun s => ?root, fun s => ?lost, fun s i w => ?notice, fun s i => ?message⟩
  case bend =>
    have hexec : exec (.bend i w t) s = .next (s.onDev fun d => d.bend i w t) := rfl
    obtain ⟨hdown, hbad, -⟩ := s.dev.takeWord_cases i (bitsOf w 0 4) (fun d => ((if bitsOf w 18 4 ≠ 15 ∧ bitsOf w 8 10 ≠ d.fid then (d.noted i w t).hearRoot (bitsOf w 8 10)
      else d.noted i w t).timeStep).showTime)
    refine ⟨fun hup => ?_, fun hup hgen => ?_, fun hup hgen => ?_⟩
    · exact hexec.trans (State.onDev_next (hdown hup))
    · exact ⟨_, hexec.trans (State.onDev_next (hbad hup hgen)), s.dev.badWord_counts i⟩
    · obtain ⟨hheard, hbends, hprev, hroot, htime, hregs, hframe⟩ := s.dev.bend_hears i w t hup hgen
      refine ⟨_, hexec, hheard, fun hb => ?_, fun hb hp hfresh => ?_, hroot, htime, hregs, hframe⟩
      · rw [hbends]
        show tfind (if bitsOf w 32 32 = s.dev.fab.beatNo % 2 ^ 32 then tset s.dev.fab.bends i w else s.dev.fab.bends) i = some w
        rw [if_pos hb, tfind_tset_self]
      · rw [hprev]
        show tfind (if bitsOf w 32 32 ≠ s.dev.fab.beatNo % 2 ^ 32 ∧ bitsOf w 32 32 = s.dev.fab.prevNo % 2 ^ 32 ∧ !thas s.dev.fab.bendsPrev i
          ∧ t ≤ 256 * s.dev.graceEnd then tset s.dev.fab.bendsPrev i w else s.dev.fab.bendsPrev) i = _
        have hnone : tfind s.dev.fab.bendsPrev i = none := tfind_of_not_thas hfresh
        by_cases hin : t ≤ 256 * s.dev.graceEnd
        · rw [if_pos ⟨hb, hp, by rw [hfresh]; rfl, hin⟩, tfind_tset_self]
          exact (if_pos hin).symm
        · rw [if_neg fun h => hin h.2.2.2, hnone]
          exact (if_neg hin).symm
  case send =>
    have hexec : exec (.bendSend i) s = .next (s.onDev fun d => d.bendSend i) := rfl
    refine ⟨s.dev.bendSend i, hexec, ?_, ?_⟩
    · unfold Dev.bendSend
      split
      · rfl
      · rw [List.append_nil]
    · unfold Dev.bendSend
      split
      · exact s.dev.onFab_frame _
      · exact s.dev.onlyIn_refl _
  case root =>
    have hexec : exec .rootTimeout s = .next (s.onDev Dev.rootTimeout) := rfl
    refine ⟨fun h => hexec.trans (State.onDev_next (if_neg h)), fun h => ?_⟩
    have hstep : s.dev.rootTimeout = ((s.dev.putF rFabStatus fFabStatus_Root 1).putF rFabStatus fFabStatus_TimeLost 0).showTime := if_pos h
    have hroot : ((s.dev.putF rFabStatus fFabStatus_Root 1).putF rFabStatus fFabStatus_TimeLost 0).getF rFabStatus fFabStatus_Root = 1 := by
      rw [Dev.getF_putF_field _ _ _ _ _ (by decide) (.inr (by decide))]
      exact Dev.putF_field (by decide) (by decide)
    have hlost : ((s.dev.putF rFabStatus fFabStatus_Root 1).putF rFabStatus fFabStatus_TimeLost 0).getF rFabStatus fFabStatus_TimeLost = 0 :=
      Dev.putF_field (by decide) (by decide)
    have hbregs : s.dev.regsBut ((s.dev.putF rFabStatus fFabStatus_Root 1).putF rFabStatus fFabStatus_TimeLost 0) [rFabStatus] :=
      Dev.regsBut_trans (Dev.regsBut_putF _ _ _ _) (Dev.regsBut_putF _ _ _ _)
    have hbframe : s.dev.onlyIn ((s.dev.putF rFabStatus fFabStatus_Root 1).putF rFabStatus fFabStatus_TimeLost 0) [.regs] :=
      Dev.onlyIn_trans (Dev.putF_frame _ _ _ _) (Dev.putF_frame _ _ _ _)
    generalize (s.dev.putF rFabStatus fFabStatus_Root 1).putF rFabStatus fFabStatus_TimeLost 0 = b at *
    obtain ⟨halign, hfid, hdist⟩ := Dev.showTime_root hroot
    obtain ⟨hregs, hframe, hkeep⟩ := b.showTime_shows
    refine ⟨_, hexec.trans (State.onDev_next hstep), (hkeep _ (by decide)).trans hroot, (hkeep _ (by decide)).trans hlost, halign, ?_, hdist, ?_,
      Dev.onlyIn_trans hbframe hframe⟩
    · rw [hfid, Dev.fid, Dev.getF, hbregs _ (by decide), ← Dev.getF, ← Dev.fid]
    · exact (Dev.regsBut_mono hbregs (by simp)).after hregs (by simp)
  case lost =>
    have hexec : exec .timeLost s = .next (s.onDev Dev.timeLost) := rfl
    have hbit : s.dev.getF rFabStatus fFabStatus_TimeLost < 2 := fld_lt _ _
    have hcond : (s.dev.isRoot = true ∨ s.dev.time < s.dev.fab.rootHeard + 8000000 ∨ s.dev.getF rFabStatus fFabStatus_TimeLost = 1)
        ↔ ¬ (s.dev.getF rFabStatus fFabStatus_Root ≠ 1 ∧ s.dev.fab.rootHeard + 8000000 ≤ s.dev.time
          ∧ s.dev.getF rFabStatus fFabStatus_TimeLost = 0) := by
      rw [Dev.isRoot, beq_iff_eq]
      omega
    refine ⟨fun h => hexec.trans (State.onDev_next (if_pos (hcond.mpr h))), fun h => ?_⟩
    have hstep : s.dev.timeLost = s.dev.timeAdrift := if_neg fun hn => hcond.mp hn h
    obtain ⟨hnroot, -, -⟩ := h
    exact ⟨_, hexec.trans (State.onDev_next hstep), s.dev.timeAdrift_shown hnroot⟩
  case notice =>
    have hexec : exec (.notice i w) s = .next (s.onDev fun d => d.notice i w) := rfl
    obtain ⟨hdown, hbad, hgood⟩ := s.dev.takeWord_cases i (bitsOf w 0 4)
      (fun d => (d.peerOf (bitsOf w 8 10) (bitsOf w 18 7)).foldl (fun d j => d.goDown j 9) (d.notify (bitsOf w 8 10) (bitsOf w 18 7) w))
    refine ⟨fun hup => ?_, fun hup hgen => ?_, fun hup hgen => ?_⟩
    · exact hexec.trans (State.onDev_next (hdown hup))
    · exact ⟨_, hexec.trans (State.onDev_next (hbad hup hgen)), s.dev.badWord_counts i⟩
    · obtain ⟨hnamed, hnregs, hnframe⟩ := s.dev.notify_names (bitsOf w 8 10) (bitsOf w 18 7) w
      obtain ⟨hin, hout, hfwd, hdn, hregs, hframe⟩ := Dev.goDown_all (s.dev.peerOf (bitsOf w 8 10) (bitsOf w 18 7))
        (s.dev.notify (bitsOf w 8 10) (bitsOf w 18 7) w) fun j hj => by
          simp only [Dev.peerOf, Dev.upLinks, List.mem_filter, List.mem_range] at hj
          exact hj.1.1
      refine ⟨_, hexec.trans (State.onDev_next (hgood hup hgen)), ?_, fun j hj => hin j ((s.dev.mem_peerOf _ _ j).mpr hj), fun j hj => ?_, ?_, ?_⟩
      · rw [Dev.linkNamed, hfwd, hdn]
        exact hnamed
      · refine (hout j fun h => hj ((s.dev.mem_peerOf _ _ j).mp h)).trans (hnregs _ ?_)
        simp [(linkRegs_ne j.val).2.2.2.2.2.1]
      · refine Dev.regsBut_trans (Dev.regsBut_mono hnregs ?_) (Dev.regsBut_mono hregs ?_)
        · exact fun a ha => List.mem_append_right _ (List.mem_cons.mpr (.inl (List.mem_singleton.mp ha)))
        · exact List.append_subset.mpr ⟨List.subset_append_left _ _, fun a ha => List.mem_append_right _ (List.mem_cons_of_mem _ ha)⟩
      · exact (Dev.onlyIn_sub _ hnframe rfl).after hframe
  case message =>
    have hexec : exec (.ganderLinkMessage i) s = .next (s.onDev fun d => d.ganderLinkMessage i) := rfl
    refine ⟨fun hheard hp => ?_, fun hheard hent => ?_, fun h => ?_⟩
    · have hstep : s.dev.ganderLinkMessage i = s.dev.startWake 6 := by
        rw [Dev.ganderLinkMessage, if_pos hheard, Dev.wakeSource, if_pos (.inl hp), if_neg (by rw [hp]; decide)]
      obtain ⟨hstate, hpwr, hsrc, hregs⟩ := s.dev.startWake_wakes 6
      rw [hp] at hpwr
      exact ⟨_, hexec.trans (State.onDev_next hstep), hstate, hsrc, hpwr, s.dev.startWake_wakeN (.inr rfl), hregs, (s.dev.startWake_frame 6).2⟩
    · obtain ⟨hp, hwait, hent⟩ := hent
      refine hexec.trans (State.onDev_next ?_)
      rw [Dev.ganderLinkMessage, if_pos hheard, Dev.wakeSource, if_neg (by rw [hp]; decide), if_pos ⟨hp, hwait, by simpa using hent⟩]
      rfl
    · refine hexec.trans (State.onDev_next ?_)
      rw [Dev.ganderLinkMessage]
      split
      next hheard =>
        obtain ⟨hp, hent⟩ := h.resolve_left (not_not_intro hheard)
        rw [Dev.wakeSource]
        split
        next hlow =>
          rw [if_pos ⟨rfl, hlow.resolve_left hp⟩]
        next =>
          rw [if_neg fun hn => hent ⟨hn.1, hn.2.1, by simpa using hn.2.2⟩]
      next => rfl

end Sys2Proof.Machine
end

section
/-! # Slots that leave and come -/

namespace Sys2Proof.Machine

/-! ## Slots that leave (10 R295) -/

/-- A slot that faults is counted and named, with the event. -/
theorem Dev.slotFault_faults (d : Dev) (n : Nat) :
    d.counted (d.slotFault n) rFabSlotFault fFabSlotFault_Cnt 1 ∧ (d.slotFault n).getF rFabSlotFault fFabSlotFault_Idx = n % 2 ^ 15
      ∧ d.raised (d.slotFault n) pgFab 8 [rFabSlotFault] [] := by
  unfold Dev.slotFault
  generalize ha : (d.addF rFabSlotFault fFabSlotFault_Cnt 1).putF rFabSlotFault fFabSlotFault_Idx n = a
  have haregs : d.regsBut a [rFabSlotFault] := ha ▸ Dev.regsBut_trans (Dev.regsBut_putF _ _ _ _) (Dev.regsBut_putF _ _ _ _)
  have haframe : d.onlyIn a [.regs] := ha ▸ Dev.onlyIn_trans (Dev.addF_frame _ _ _ _) (Dev.putF_frame _ _ _ _)
  have hcnt : d.counted a rFabSlotFault fFabSlotFault_Cnt 1 := by
    rw [Dev.counted, ← ha, Dev.getF_putF_field _ _ _ _ _ (by decide) (.inl (by decide))]
    exact d.addF_counted _ _ _ (by decide)
  have hidx : a.getF rFabSlotFault fFabSlotFault_Idx = n % 2 ^ 15 := ha ▸ Dev.getF_putF_self _ _ _ _ (by decide)
  have hregs := a.raise_regsBut pgFab 0x100
  have hreg : (a.raise pgFab 0x100).reg rFabSlotFault = a.reg rFabSlotFault := hregs _ (by decide)
  rw [Dev.counted, Dev.getF, hreg, show (a.raise pgFab 0x100).getF rFabSlotFault fFabSlotFault_Idx = a.getF rFabSlotFault fFabSlotFault_Idx from
    congrArg (fld · fFabSlotFault_Idx) hreg]
  exact ⟨hcnt, hidx, a.raise_event (i := 8) (by decide) (by decide), Dev.regsBut_trans (Dev.regsBut_mono haregs (by simp))
    (Dev.regsBut_mono hregs (by simp [raiseRegs])), (Dev.onlyIn_sub _ haframe rfl).after (a.raise_frame pgFab 0x100)⟩

/-- What a slot that leaves carries: zeros, poison, or what stood at the boundary. -/
def TxSlot.leaves (t : TxSlot) (zero : Bool) : List (Rec × Bool) :=
  if zero = true then t.granules.map (fun _ => (0, false)) else if t.fault = true then t.granules.map (fun _ => (0, true)) else t.granules

/-- A slot that left is marked sent. -/
def Dev.slotLeft (d : Dev) (n l : Nat) (zero : Bool) (gs : List (Rec × Bool)) : Dev :=
  (d.onFab (fun x => { x with tx := x.tx.map (fun y => if y.n = n then { y with sent := true, zeros := zero } else y) })).sendLink l (.slot n gs)

theorem Dev.slotTx_eq {d : Dev} {n : Nat} {t : TxSlot} (ht : d.fab.tx.find? (fun x => x.n == n && !x.sent) = some t) (hclean : d.upsets = []) :
    d.slotTx n = if d.linkState (seLink (d.tableNow.getD n 0)) ≠ 3 then d
      else let zero := t.zeros || d.inReset (sePart (d.tableNow.getD n 0))
        (if t.fault then d.slotFault n else d).slotLeft n (seLink (d.tableNow.getD n 0)) zero (t.leaves zero) := by
  unfold Dev.slotTx
  rw [ht]
  dsimp only
  split
  · rfl
  · rw [Dev.readWord_clean hclean]
    dsimp only
    rw [Bool.or_false]
    have hparts : (if t.fault then d.slotFault n else d).inReset (sePart (d.tableNow.getD n 0)) = d.inReset (sePart (d.tableNow.getD n 0)) := by
      split
      · rw [Dev.inReset, (d.slotFault_faults n).2.2.2.2 .parts rfl, Dev.inReset]
      · rfl
    rw [hparts]
    rfl

/-! ## Slots that come (10 R297) -/

/-- The place of a slot of one granule. -/
theorem Dev.rxPlaces_one {d d1 : Dev} {e : SlotEnt} {l : Nat} (hn : seGranules e = 1)
    (hx : d.xlate (seEngine e) (sePkey e) (seVaddr e) true = (d1, .ok l)) : d.rxPlaces e = (d1, some [l]) := by
  rw [Dev.rxPlaces, hn, List.range_one, List.foldl_cons, List.foldl_nil, Nat.mul_zero, Nat.add_zero, hx]
  rfl

/-- What a slot of one granule arriving marks. -/
def Dev.slotCame (d : Dev) (n : Nat) : Dev :=
  d.onFab (fun x => { x with rx := x.rx.map (fun s => if s.n = n then { s with arrived := true } else s) })

/-- An intact granule that comes in a COPY slot is written where the slot says. -/
theorem Dev.slotRx_one {d d1 : Dev} {n l : Nat} {g : RxGranule} (hr : d.fab.rx.any (fun r => r.n == n && !r.arrived) = true)
    (hl : d.linkState (seLink (d.tableNow.getD n 0)) = 3) (hn : seGranules (d.tableNow.getD n 0) = 1) (hop : seOp (d.tableNow.getD n 0) = 0)
    (harr : g.arrived = true) (hjob : d.stoppedJob (seJob (d.tableNow.getD n 0)) = false) (hreset : d.inReset (sePart (d.tableNow.getD n 0)) = false)
    (hclean : d.upsets = [])
    (hx : (d.slotCame n).xlate (seEngine (d.tableNow.getD n 0)) (sePkey (d.tableNow.getD n 0)) (seVaddr (d.tableNow.getD n 0)) true = (d1, .ok l)) :
    d.slotRx n [g] = d1.writeHome { addr := l, data := recBytes g.data, poison := g.poison } := by
  have hcame : d.onFab (fun x => { x with
      rx := x.rx.map (fun s => if s.n = n then { s with arrived := [g].all (fun g => g.arrived) } else s) }) = d.slotCame n := by
    simp [Dev.slotCame, harr]
  have hjob' : (d.slotCame n).stoppedJob (seJob (d.tableNow.getD n 0)) = false := hjob
  have hreset' : (d.slotCame n).inReset (sePart (d.tableNow.getD n 0)) = false := hreset
  have hclean' : (d.slotCame n).upsets = [] := hclean
  unfold Dev.slotRx
  dsimp only
  generalize d.tableNow.getD n 0 = e at *
  rw [hr, if_neg (by simp), if_neg (by simp [hl, hn]), hcame]
  generalize d.slotCame n = c at *
  rw [if_neg (by simp [hjob', hreset']), Dev.readWord_clean hclean']
  dsimp only
  rw [if_neg Bool.false_ne_true, Dev.rxPlaces_one hn hx]
  simp only [List.zip_cons_cons, List.zip_nil_right, List.foldl_cons, List.foldl_nil, harr, hop, Bool.not_true, Bool.false_eq_true, if_false, if_true,
    rxResult]

/-- Settles O32: slots that leave and slots that come, and those that are not of the beat. -/
theorem slotsSendAndReceive : Obligations.SlotsSendAndReceive := by
  unfold Obligations.SlotsSendAndReceive
  have htx : ∀ (s : State) (n : Nat), exec (.slotTx n) s = .next (s.onDev fun d => d.slotTx n) := fun _ _ => rfl
  have hrx : ∀ (s : State) (n : Nat) (gs : List RxGranule), exec (.slotRx n gs) s = .next (s.onDev fun d => d.slotRx n gs) := fun _ _ _ => rfl
  refine ⟨fun s n t ht hclean => ⟨fun hl => ?_, fun hl => ?_⟩, fun s n ht => ?_, fun s n g d1 l hr hl hn hop harr hjob hreset hclean hxl => ?_, fun s n gs hr => ?_⟩
  · refine (htx s n).trans (State.onDev_next ?_)
    rw [Dev.slotTx_eq ht hclean]
    exact if_pos hl
  · have heq := Dev.slotTx_eq ht hclean
    rw [if_neg (not_not_intro (show s.dev.linkState (seLink (s.dev.tableNow.getD n 0)) = 3 from hl))] at heq
    refine ⟨_, (htx s n).trans (State.onDev_next heq), ?_, fun hf => ?_, fun hf => ?_⟩
    · have hfab : (if t.fault = true then s.dev.slotFault n else s.dev).fab = s.dev.fab := by
        split
        · exact (s.dev.slotFault_faults n).2.2.2.2 .fab rfl
        · rfl
      rw [Dev.slotLeft, Dev.sendLink, Dev.onFab, Dev.onFab, hfab]
      rfl
    · rw [hf, if_neg Bool.false_ne_true]
      exact Dev.onlyIn_trans (Dev.onFab_frame _ _) (Dev.onFab_frame _ _)
    · rw [hf, if_pos rfl]
      obtain ⟨hcnt, hidx, hev, hregs, hframe⟩ := s.dev.slotFault_faults n
      have hleft : ∀ (d : Dev) (l : Nat) (z : Bool) (gs : List (Rec × Bool)), d.onlyIn (d.slotLeft n l z gs) [.fab] :=
        fun d l z gs => Dev.onlyIn_trans (Dev.onFab_frame _ _) (Dev.onFab_frame _ _)
      dsimp only
      generalize s.dev.slotFault n = c at *
      have hcl := hleft c (seLink (s.dev.tableNow.getD n 0)) (t.zeros || s.dev.inReset (sePart (s.dev.tableNow.getD n 0)))
        (t.leaves (t.zeros || s.dev.inReset (sePart (s.dev.tableNow.getD n 0))))
      generalize c.slotLeft n (seLink (s.dev.tableNow.getD n 0)) _ _ = e at hcl ⊢
      have heregs : e.regs = c.regs := hcl .regs rfl
      rw [Dev.counted, Dev.getF_of_regs heregs, Dev.getF_of_regs heregs]
      exact ⟨hcnt, hidx, (Dev.event_of_regs heregs _ _).trans hev, Dev.regsBut_trans hregs (Dev.regsBut_of_onlyIn hcl rfl _),
        (Dev.onlyIn_sub _ hframe rfl).after hcl⟩
  · refine (htx s n).trans (State.onDev_next ?_)
    rw [Dev.slotTx, ht]
  · refine (hrx s n [g]).trans (State.onDev_next ?_)
    exact Dev.slotRx_one hr hl hn hop harr hjob hreset hclean hxl
  · refine (hrx s n gs).trans (State.onDev_next ?_)
    rw [Dev.slotRx, hr]
    rfl

end Sys2Proof.Machine
end

section
/-! # Temperature samples and calibration -/

namespace Sys2Proof.Machine

/-! ## Temperature monitors sampled (13 R386, R387) -/

/-- The registers that a failed monitor changes. -/
def monRegs : List Nat := [rThmFailLo, rThmFailMid, rThmFailHi] ++ raiseRegs pgThm

/-- The register and bit of a monitor's failure. -/
theorem Dev.failMon_fails (d : Dev) {n : Nat} (hn : n < 72) :
    (d.failMon n).monFailed n = true ∧ (∀ m : Nat, d.monFailed m = true → (d.failMon n).monFailed m = true)
      ∧ d.regsBut (d.failMon n) monRegs ∧ d.onlyIn (d.failMon n) [.regs, .hif] := by
  obtain ⟨a, ha⟩ : ∃ a, a = if n < 32 then rThmFailLo else if n < 64 then rThmFailMid else rThmFailHi := ⟨_, rfl⟩
  have hmem : a = rThmFailLo ∨ a = rThmFailMid ∨ a = rThmFailHi := by
    rw [ha]
    split
    · exact .inl rfl
    · split
      · exact .inr (.inl rfl)
      · exact .inr (.inr rfl)
  have hstep : d.failMon n = (d.modReg a (· ||| BitVec.ofNat 64 (2 ^ (n % 32)))).raise pgThm 8 := by
    rw [ha]
    rfl
  have hquiet : ∀ b, b = rThmFailLo ∨ b = rThmFailMid ∨ b = rThmFailHi → (raiseRegs pgThm).contains b = false := by
    rintro b (rfl | rfl | rfl) <;> decide
  have hreg : ∀ b, b = rThmFailLo ∨ b = rThmFailMid ∨ b = rThmFailHi →
      (d.failMon n).reg b = if b = a then d.reg a ||| BitVec.ofNat 64 (2 ^ (n % 32)) else d.reg b := by
    intro b hb
    rw [hstep, Dev.raise_regsBut _ _ _ _ (hquiet b hb), Dev.modReg, Dev.reg_setReg]
  have hmono : ∀ b k : Nat, b = rThmFailLo ∨ b = rThmFailMid ∨ b = rThmFailHi → bitOf (d.reg b) k = true → bitOf ((d.failMon n).reg b) k = true := by
    intro b k hb hk
    rw [hreg b hb]
    split
    next h => rw [bitOf, BitVec.getLsbD_or, ← bitOf, ← h, hk, Bool.true_or]
    next => exact hk
  refine ⟨?_, fun m hm => ?_, ?_, ?_⟩
  · have hbit : bitOf ((d.failMon n).reg a) (n % 32) = true := by
      rw [hreg a hmem, if_pos rfl, bitOf, BitVec.getLsbD_or, BitVec.getLsbD_ofNat, Nat.testBit_two_pow_self]
      simp
      omega
    unfold Dev.monFailed
    rw [ha] at hbit
    split
    next h =>
      rw [if_pos h, Nat.mod_eq_of_lt h] at hbit
      exact hbit
    next h =>
      rw [if_neg h] at hbit
      split
      next h64 =>
        rw [if_pos h64, show n % 32 = n - 32 by omega] at hbit
        exact hbit
      next h64 =>
        rw [if_neg h64, show n % 32 = n - 64 by omega] at hbit
        exact hbit
  · unfold Dev.monFailed at hm ⊢
    split
    next h =>
      rw [if_pos h] at hm
      exact hmono _ _ (.inl rfl) hm
    next h =>
      rw [if_neg h] at hm
      split
      next h64 =>
        rw [if_pos h64] at hm
        exact hmono _ _ (.inr (.inl rfl)) hm
      next h64 =>
        rw [if_neg h64] at hm
        exact hmono _ _ (.inr (.inr rfl)) hm
  · rw [hstep]
    refine ((d.regsBut_refl _).after (Dev.regsBut_setReg _ _ _) ?_).after (Dev.raise_regsBut _ _ _) (by simp [monRegs])
    rcases hmem with h | h | h <;> simp [h, monRegs]
  · rw [hstep]
    exact (Dev.onlyIn_sub _ (d.modReg_frame _ _) rfl).after (Dev.raise_frame _ _ _)

/-- What sampling a monitor leaves: what failed stays failed, the responses stay, and only monitors, failures and the event change. -/
structure Dev.sampling (d e : Dev) : Prop where
  failed : ∀ m : Nat, d.monFailed m = true → e.monFailed m = true
  sects : e.thm.sects = d.thm.sects
  low : e.thm.lowPowerSince = d.thm.lowPowerSince
  regs : d.regsBut e monRegs
  frame : d.onlyIn e [.thm, .regs, .hif]

theorem Dev.sampling.refl (d : Dev) : d.sampling d := ⟨fun _ h => h, rfl, rfl, d.regsBut_refl _, d.onlyIn_refl _⟩

theorem Dev.sampling.trans {d e f : Dev} (h : d.sampling e) (k : e.sampling f) : d.sampling f :=
  ⟨fun m hm => k.failed m (h.failed m hm), k.sects.trans h.sects, k.low.trans h.low, Dev.regsBut_trans h.regs k.regs, Dev.onlyIn_trans h.frame k.frame⟩

theorem Dev.failMon_sampling (d : Dev) {n : Nat} (hn : n < 72) : d.sampling (d.failMon n) ∧ ∀ m, (d.failMon n).mon m = d.mon m := by
  obtain ⟨-, hmono, hregs, hframe⟩ := d.failMon_fails hn
  have hthm : (d.failMon n).thm = d.thm := hframe .thm rfl
  exact ⟨⟨hmono, congrArg Thm.sects hthm, congrArg Thm.lowPowerSince hthm, hregs, Dev.onlyIn_sub _ hframe rfl⟩,
    fun m => by rw [Dev.mon, hthm, Dev.mon]⟩

theorem Dev.onThm_frame (d : Dev) (f : Thm → Thm) : d.onlyIn (d.onThm f) [.thm] := by
  intro c hc
  cases c <;> first | rfl | simp at hc

/-- Monitors replaced: nothing else of the device changes. -/
theorem Dev.onMons_sampling (d : Dev) (f : Tab Mon → Tab Mon) : d.sampling (d.onThm (fun x => { x with mons := f x.mons })) :=
  ⟨fun _ h => h, rfl, rfl, d.regsBut_refl _, Dev.onlyIn_sub _ (d.onThm_frame _) rfl⟩

/-- A monitor sampled shows its reading and fails where it is out of range. -/
theorem Dev.sampleMon_samples (d : Dev) (i : Ident) {n : Nat} (hn : n < 72) (c : Nat) (v : Int) :
    let t := monReading i (d.mon n) n c v
    d.sampling (d.sampleMon i n c v) ∧ ((d.sampleMon i n c v).mon n).last = t
      ∧ (c = 0 ∨ Config.monSaturated c = true ∨ t < -160 ∨ 600 < t → (d.sampleMon i n c v).monFailed n = true)
      ∧ ∀ m : Nat, m ≠ n → (d.sampleMon i n c v).mon m = d.mon m := by
  unfold Dev.sampleMon
  dsimp only
  generalize monReading i (d.mon n) n c v = t
  have hset := d.onMons_sampling (fun ms => tset ms n { d.mon n with hist := (t :: (d.mon n).hist).take 51 })
  have hmon : ∀ m, (d.onThm (fun x => { x with mons := tset x.mons n { d.mon n with hist := (t :: (d.mon n).hist).take 51 } })).mon m
      = tget (tset d.thm.mons n { d.mon n with hist := (t :: (d.mon n).hist).take 51 }) {} m := fun _ => rfl
  dsimp only at hset
  generalize d.onThm (fun x => { x with mons := tset x.mons n { d.mon n with hist := (t :: (d.mon n).hist).take 51 } }) = b at hset hmon ⊢
  have hself : (b.mon n).last = t := by
    rw [hmon, tget_tset_self]
    rfl
  have hother : ∀ m, m ≠ n → b.mon m = d.mon m := fun m hm => by rw [hmon, tget_tset_ne _ _ _ hm, Dev.mon]
  split
  next h =>
    obtain ⟨hfail, hsame⟩ := b.failMon_sampling hn
    exact ⟨hset.trans hfail, by rw [hsame, hself], fun _ => (b.failMon_fails hn).1, fun m hm => by rw [hsame, hother m hm]⟩
  next h => exact ⟨hset, hself, fun hc => absurd hc h, hother⟩

/-- The monitors of a list sampled, one after the other. -/
def Dev.sampleMons (d : Dev) (i : Ident) (counts : List (Nat × Int)) (ws : List Nat) : Dev :=
  ws.foldl (fun d n =>
    match counts[n]? with
    | some (c, v) => d.sampleMon i n c v
    | none => d) d

theorem Dev.sampleMons_samples (i : Ident) (counts : List (Nat × Int)) (ws : List Nat) (d : Dev) (hnd : ws.Nodup) (hlt : ∀ n ∈ ws, n < 72) :
    d.sampling (d.sampleMons i counts ws)
      ∧ (∀ (n c : Nat) (v : Int), n ∈ ws → counts[n]? = some (c, v) →
          let t := monReading i (d.mon n) n c v
          ((d.sampleMons i counts ws).mon n).last = t
            ∧ (c = 0 ∨ Config.monSaturated c = true ∨ t < -160 ∨ 600 < t → (d.sampleMons i counts ws).monFailed n = true))
      ∧ ∀ m : Nat, m ∉ ws → (d.sampleMons i counts ws).mon m = d.mon m := by
  induction ws generalizing d with
  | nil => exact ⟨.refl d, fun n c v h => absurd h (by simp), fun _ _ => rfl⟩
  | cons k ws ih =>
    obtain ⟨hk, hws⟩ := List.nodup_cons.mp hnd
    obtain ⟨b, hb⟩ : ∃ b, b = match counts[k]? with
      | some (c, v) => d.sampleMon i k c v
      | none => d := ⟨_, rfl⟩
    have hstep : d.sampleMons i counts (k :: ws) = b.sampleMons i counts ws := by
      rw [hb]
      rfl
    obtain ⟨hsamp, hin, hout⟩ := ih b hws fun n hn => hlt n (List.mem_cons_of_mem _ hn)
    obtain ⟨hbsamp, hbself, hbother⟩ : d.sampling b
        ∧ (∀ (c : Nat) (v : Int), counts[k]? = some (c, v) → (b.mon k).last = monReading i (d.mon k) k c v
          ∧ (c = 0 ∨ Config.monSaturated c = true ∨ monReading i (d.mon k) k c v < -160 ∨ 600 < monReading i (d.mon k) k c v → b.monFailed k = true))
        ∧ ∀ m : Nat, m ≠ k → b.mon m = d.mon m := by
      rw [hb]
      split
      next c v hc =>
        obtain ⟨h1, h2, h3, h4⟩ := d.sampleMon_samples i (hlt k (List.mem_cons_self ..)) c v
        refine ⟨h1, fun c' v' hc' => ?_, h4⟩
        rw [hc, Option.some.injEq, Prod.mk.injEq] at hc'
        rw [← hc'.1, ← hc'.2]
        exact ⟨h2, h3⟩
      next hc => exact ⟨.refl d, fun c' v' hc' => absurd (hc.symm.trans hc') (by simp), fun _ _ => rfl⟩
    rw [hstep]
    refine ⟨hbsamp.trans hsamp, fun n c v hn hc => ?_, fun m hm => ?_⟩
    · rcases List.mem_cons.mp hn with rfl | hn
      · obtain ⟨hlast, hfail⟩ := hbself c v hc
        exact ⟨by rw [hout n hk, hlast], fun h => hsamp.failed n (hfail h)⟩
      · have hne : n ≠ k := fun h => hk (h ▸ hn)
        rw [← hbother n hne]
        exact hin n c v hn hc
    · rw [hout m fun h => hm (List.mem_cons_of_mem _ h), hbother m fun h => hm (h ▸ List.mem_cons_self ..)]

/-- A monitor that stood apart `c` times fails at the tenth, and keeps its reading. -/
def Dev.markApart (d : Dev) (n c : Nat) : Dev :=
  let d := d.onThm (fun x => { x with mons := tmod x.mons {} n (fun m => { m with apart := c }) })
  if 10 ≤ c then d.failMon n else d

theorem Dev.markApart_keeps (d : Dev) {n : Nat} (hn : n < 72) (c : Nat) :
    d.sampling (d.markApart n c) ∧ ∀ m : Nat, ((d.markApart n c).mon m).last = (d.mon m).last := by
  unfold Dev.markApart
  dsimp only
  have hset := d.onMons_sampling (fun ms => tmod ms {} n (fun m => { m with apart := c }))
  have hmon : ∀ m, (d.onThm (fun x => { x with mons := tmod x.mons {} n (fun m => { m with apart := c }) })).mon m
      = tget (tmod d.thm.mons {} n (fun m => { m with apart := c })) {} m := fun _ => rfl
  generalize d.onThm (fun x => { x with mons := tmod x.mons {} n (fun m => { m with apart := c }) }) = b at hset hmon ⊢
  have hlast : ∀ m : Nat, (b.mon m).last = (d.mon m).last := by
    intro m
    rw [hmon]
    by_cases h : m = n
    · subst h
      rw [tget_tmod_self]
      rfl
    · rw [tget_tmod_ne _ _ _ h]
      rfl
  split
  · obtain ⟨hfail, hsame⟩ := b.failMon_sampling hn
    exact ⟨hset.trans hfail, fun m => by rw [hsame, hlast]⟩
  · exact ⟨hset, hlast⟩

/-- A monitor compared with its sector's others keeps every reading. -/
theorem Dev.checkApart_keeps (d : Dev) {n : Nat} (hn : n < 72) :
    d.sampling (d.checkApart n) ∧ ∀ m : Nat, ((d.checkApart n).mon m).last = (d.mon m).last := d.markApart_keeps hn _

theorem Dev.checkAparts_keep (ws : List Nat) (d : Dev) (hlt : ∀ n ∈ ws, n < 72) :
    d.sampling (ws.foldl (fun d n => d.checkApart n) d) ∧ ∀ m : Nat, ((ws.foldl (fun d n => d.checkApart n) d).mon m).last = (d.mon m).last := by
  induction ws generalizing d with
  | nil => exact ⟨.refl d, fun _ => rfl⟩
  | cons n ws ih =>
    obtain ⟨hsamp, hlast⟩ := d.checkApart_keeps (hlt n (List.mem_cons_self ..))
    obtain ⟨hsamp', hlast'⟩ := ih (d.checkApart n) fun m hm => hlt m (List.mem_cons_of_mem _ hm)
    exact ⟨hsamp.trans hsamp', fun m => (hlast' m).trans (hlast m)⟩

/-! ## The junction (13 R388) -/

theorem fieldOf_lt (x : Int) : fieldOf 12 x < 4096 := by
  rw [fieldOf, wrapNat]
  omega

theorem fld_fail {n : Nat} (h : n < 4096) : fld (BitVec.ofNat 64 (n + atBit 12 1)) fThmDiode_Fail = 1 := by
  simp only [fld, bitsOf, fThmDiode_Fail, atBit, BitVec.toNat_ofNat, Nat.shiftLeft_eq, Nat.shiftRight_eq_div_pow]
  omega

theorem fld_temp {n k : Nat} (h : n < 4096) : fld (BitVec.ofNat 64 (n + 4096 * k)) fThmHot_Temp = n := by
  simp only [fld, bitsOf, fThmHot_Temp, BitVec.toNat_ofNat, Nat.shiftRight_zero]
  omega

/-- The die diode read: it stays failed once it is, and a bad reading fails it. -/
theorem Dev.sampleDiode_reads (d : Dev) (r : Reading) :
    d.regsBut (d.sampleDiode r) (rThmDiode :: raiseRegs pgThm) ∧ d.onlyIn (d.sampleDiode r) [.regs, .hif]
      ∧ (d.getF rThmDiode fThmDiode_Fail = 0 → r.bad = true → (d.sampleDiode r).getF rThmDiode fThmDiode_Fail = 1) := by
  unfold Dev.sampleDiode
  dsimp only
  generalize (_ && decide (160 < _)) = off
  split
  next h => exact ⟨d.regsBut_refl _, d.onlyIn_refl _, fun h0 => absurd (h0.symm.trans h) (by decide)⟩
  next h =>
    split
    next hbad =>
      refine ⟨((d.regsBut_refl _).after (Dev.regsBut_setReg _ _ _) (by simp)).after (Dev.raise_regsBut _ _ _) (by simp),
        (Dev.onlyIn_sub _ (d.setReg_frame _ _) rfl).after (Dev.raise_frame _ _ _), fun _ _ => ?_⟩
      rw [Dev.getF, Dev.raise_regsBut _ _ _ _ (by decide), Dev.reg_setReg_self]
      exact fld_fail (fieldOf_lt r.temp)
    next hgood =>
      exact ⟨(d.regsBut_refl _).after (Dev.regsBut_setReg _ _ _) (by simp), Dev.onlyIn_sub _ (d.setReg_frame _ _) rfl,
        fun _ hb => absurd (.inl hb) hgood⟩

/-- The junction shown. -/
theorem Dev.showJunction_shows (d : Dev) (j : Int × Nat) :
    (d.showJunction j).getF rThmHot fThmHot_Temp = wrapNat 12 j.1 ∧ d.regsBut (d.showJunction j) [rThmHot, rThmMax]
      ∧ d.onlyIn (d.showJunction j) [.regs] := by
  obtain ⟨k, hk⟩ : ∃ k : Nat, (if j.2 = 72 then atBit 19 1 else atBit 12 (j.2 / 12) + atBit 15 (j.2 % 12)) = 4096 * k := by
    split
    · exact ⟨128, rfl⟩
    · refine ⟨j.2 / 12 + 8 * (j.2 % 12), ?_⟩
      simp only [atBit, Nat.shiftLeft_eq]
      omega
  unfold Dev.showJunction
  rw [hk]
  dsimp only
  have htemp : (d.setReg rThmHot (BitVec.ofNat 64 (fieldOf 12 j.1 + 4096 * k))).getF rThmHot fThmHot_Temp = wrapNat 12 j.1 := by
    rw [Dev.getF, Dev.reg_setReg_self]
    exact fld_temp (fieldOf_lt j.1)
  have hregs : d.regsBut (d.setReg rThmHot (BitVec.ofNat 64 (fieldOf 12 j.1 + 4096 * k))) [rThmHot, rThmMax] :=
    (d.regsBut_refl _).after (Dev.regsBut_setReg _ _ _) (by simp)
  have hframe : d.onlyIn (d.setReg rThmHot (BitVec.ofNat 64 (fieldOf 12 j.1 + 4096 * k))) [.regs] := d.setReg_frame _ _
  generalize d.setReg rThmHot (BitVec.ofNat 64 (fieldOf 12 j.1 + 4096 * k)) = b at *
  split
  · exact ⟨(Dev.getF_putF_ne _ _ _ _ (by decide)).trans htemp, hregs.after (Dev.regsBut_putF _ _ _ _) (by simp), Dev.onlyIn_trans hframe (Dev.putF_frame _ _ _ _)⟩
  · exact ⟨htemp, hregs, hframe⟩

/-- What the junction and the sensors' trip rest on. -/
theorem Dev.junction_congr {d e : Dev} (hp : e.pstate = 3 ↔ d.pstate = 3) (hf : ∀ m, e.monFailed m = d.monFailed m)
    (hd : e.reg rThmDiode = d.reg rThmDiode) (hm : ∀ m, (e.mon m).last = (d.mon m).last) :
    e.junction = d.junction ∧ e.sensorTrip = d.sensorTrip ∧ e.working = d.working := by
  have hw : e.working = d.working := by
    unfold Dev.working
    simp only [hp, hf]
  refine ⟨?_, ?_, hw⟩
  · have hall : e.working.map (fun n => ((e.mon n).last, n)) = d.working.map (fun n => ((d.mon n).last, n)) := by simp only [hw, hm]
    have hfail : e.getF rThmDiode fThmDiode_Fail = d.getF rThmDiode fThmDiode_Fail := congrArg (fld · fThmDiode_Fail) hd
    have htemp : e.getF rThmDiode fThmDiode_Temp = d.getF rThmDiode fThmDiode_Temp := congrArg (fld · fThmDiode_Temp) hd
    rw [Dev.junction, Dev.junction, hall, hfail, htemp]
  · unfold Dev.sensorTrip
    simp only [hf, Dev.getF, hd]

/-! ## A sector's responses (13 R389) -/

/-- The registers that a response changes. -/
def thmRegs : List Nat := rThmStatus :: raiseRegs pgThm

/-- What the responses of sector `k` leave: the other sectors, their bits, the monitors, and all but THM_STATUS and the event. -/
structure Dev.responds (d e : Dev) (k : Nat) : Prop where
  others : ∀ j : Nat, j ≠ k → e.thmSect j = d.thmSect j
  bits : ∀ b : Nat, b < 6 → b ≠ k → bitOf (e.reg rThmStatus) b = bitOf (d.reg rThmStatus) b
  mons : e.thm.mons = d.thm.mons
  regs : d.regsBut e thmRegs
  frame : d.onlyIn e [.thm, .regs, .hif]

theorem Dev.responds.refl (d : Dev) (k : Nat) : d.responds d k := ⟨fun _ _ => rfl, fun _ _ _ => rfl, rfl, d.regsBut_refl _, d.onlyIn_refl _⟩

theorem Dev.responds.trans {d e f : Dev} {k : Nat} (h : d.responds e k) (l : e.responds f k) : d.responds f k :=
  ⟨fun j hj => (l.others j hj).trans (h.others j hj), fun b hb hk => (l.bits b hb hk).trans (h.bits b hb hk), l.mons.trans h.mons,
    Dev.regsBut_trans h.regs l.regs, Dev.onlyIn_trans h.frame l.frame⟩

/-- A sector's state set. -/
def Dev.setThm (d : Dev) (k : Nat) (x : ThmSect) : Dev := d.onThm (fun y => { y with sects := tset y.sects k x })

theorem Dev.setThm_self (d : Dev) (k : Nat) (x : ThmSect) : (d.setThm k x).thmSect k = x := tget_tset_self ..

theorem Dev.setThm_responds (d : Dev) (k : Nat) (x : ThmSect) : d.responds (d.setThm k x) k :=
  ⟨fun _ hj => tget_tset_ne _ _ _ hj, fun _ _ _ => rfl, rfl, d.regsBut_refl _, Dev.onlyIn_sub _ (d.onThm_frame _) rfl⟩

theorem Dev.modStatus_responds (d : Dev) (k : Nat) (f : W64 → W64) (hf : ∀ w b, b < 6 → b ≠ k → bitOf (f w) b = bitOf w b) :
    d.responds (d.modReg rThmStatus f) k := by
  refine ⟨fun _ _ => rfl, fun b hb hk => ?_, rfl, (d.regsBut_refl _).after (Dev.regsBut_setReg _ _ _) (by simp [thmRegs]),
    Dev.onlyIn_sub _ (d.modReg_frame _ _) rfl⟩
  rw [Dev.modReg, Dev.reg_setReg_self, hf _ b hb hk]

theorem Dev.raiseThm_status (d : Dev) (bits : Nat) : (d.raise pgThm bits).reg rThmStatus = d.reg rThmStatus :=
  Dev.raise_regsBut _ _ _ _ (by decide)

theorem Dev.raiseThm_responds (d : Dev) (k bits : Nat) : d.responds (d.raise pgThm bits) k := by
  have hframe := d.raise_frame pgThm bits
  refine ⟨fun _ _ => ?_, fun _ _ _ => by rw [Dev.raiseThm_status], congrArg Thm.mons (hframe .thm rfl), ?_, Dev.onlyIn_sub _ hframe rfl⟩
  · rw [Dev.thmSect, hframe .thm rfl, Dev.thmSect]
  · exact Dev.regsBut_mono (d.raise_regsBut pgThm bits) (by simp [thmRegs])

theorem Dev.raiseThm_sect (d : Dev) (k bits : Nat) : (d.raise pgThm bits).thmSect k = d.thmSect k := by
  rw [Dev.thmSect, d.raise_frame pgThm bits .thm rfl, Dev.thmSect]

theorem bit_set {k : Nat} (hk : k < 6) (w : W64) (b : Nat) (hb : b < 6) (hne : b ≠ k) : bitOf (w ||| BitVec.ofNat 64 (2 ^ k)) b = bitOf w b := by
  have h : ∀ k < 6, ∀ b < 6, b ≠ k → (BitVec.ofNat 64 (2 ^ k)).getLsbD b = false := by decide
  rw [bitOf, BitVec.getLsbD_or, h k hk b hb hne, Bool.or_false, bitOf]

theorem bit_clear {k : Nat} (hk : k < 6) (w : W64) (b : Nat) (hb : b < 6) (hne : b ≠ k) :
    bitOf (w &&& BitVec.ofNat 64 (2 ^ 64 - 1 - 2 ^ k)) b = bitOf w b := by
  have h : ∀ k < 6, ∀ b < 6, b ≠ k → (BitVec.ofNat 64 (2 ^ 64 - 1 - 2 ^ k)).getLsbD b = true := by decide
  rw [bitOf, BitVec.getLsbD_and, h k hk b hb hne, Bool.and_true, bitOf]

theorem bit_rise {k : Nat} (hk : k < 6) (act freeze : Bool) (w : W64) (b : Nat) (hb : b < 6) :
    bitOf ((w &&& BitVec.ofNat 64 (2 ^ 64 - 1 - 2 ^ (8 + k) - 2 ^ (16 + k)))
      ||| BitVec.ofNat 64 ((if act = true then 2 ^ (8 + k) else 0) + (if freeze = true then 2 ^ (16 + k) else 0))) b = bitOf w b := by
  have h : ∀ k < 6, ∀ b < 6, (BitVec.ofNat 64 (2 ^ 64 - 1 - 2 ^ (8 + k) - 2 ^ (16 + k))).getLsbD b = true := by decide
  have h' : ∀ act freeze : Bool, ∀ k < 6, ∀ b < 6,
      (BitVec.ofNat 64 ((if act = true then 2 ^ (8 + k) else 0) + (if freeze = true then 2 ^ (16 + k) else 0))).getLsbD b = false := by decide
  rw [bitOf, BitVec.getLsbD_or, BitVec.getLsbD_and, h k hk b hb, h' act freeze k hk b hb, Bool.and_true, Bool.or_false, bitOf]

/-- At T_THROTTLE or above, where its throttle is off or last stepped 100 µs ago, a sector's limit falls by four. -/
theorem Dev.throttleStep_throttles (d : Dev) {k : Nat} (hk : k < 6) (hot : Int) :
    d.responds (d.throttleStep k hot) k
      ∧ (4 * (d.getF rThmLimit fThmLimit_TThrottle : Int) ≤ hot →
          bitOf (d.reg rThmStatus) k = false ∨ (d.thmSect k).steppedAt + 100000 ≤ d.time →
          ((d.throttleStep k hot).thmSect k).throttle = max 1 ((d.thmSect k).throttle - 4) ∧ bitOf ((d.throttleStep k hot).reg rThmStatus) k = true) := by
  have hend : ∀ e : Dev, d.responds e k → ∀ p : Prop, [Decidable p] →
      d.responds (if p then e.modReg rThmStatus (fun w => w &&& BitVec.ofNat 64 (2 ^ 64 - 1 - 2 ^ k)) else e) k := by
    intro e he p _
    split
    · exact he.trans (e.modStatus_responds k _ (fun w b => bit_clear hk w b))
    · exact he
  unfold Dev.throttleStep
  dsimp only
  generalize 4 * (d.getF rThmLimit fThmLimit_TThrottle : Int) = tt
  by_cases hhot : tt ≤ hot
  · rw [if_pos hhot]
    have hnot : ∀ n : Nat, ¬ (hot < tt - 8 ∧ n = 64) := fun n hn => by omega
    rw [if_neg (hnot _)]
    split
    next hstep =>
      have hset := d.setThm_responds k { d.thmSect k with throttle := max 1 ((d.thmSect k).throttle - 4), steppedAt := d.time, cool := false }
      have hself := d.setThm_self k { d.thmSect k with throttle := max 1 ((d.thmSect k).throttle - 4), steppedAt := d.time, cool := false }
      have hthr := congrArg ThmSect.throttle hself
      rw [Dev.setThm] at hset hthr
      generalize d.onThm _ = b at hset hthr ⊢
      have hbit := hset.trans (b.modStatus_responds k (· ||| BitVec.ofNat 64 (2 ^ k)) (fun w b => bit_set hk w b))
      have hon : bitOf ((b.modReg rThmStatus (· ||| BitVec.ofNat 64 (2 ^ k))).reg rThmStatus) k = true := by
        rw [Dev.modReg, Dev.reg_setReg_self]
        exact bitOf_or_two_pow _ (by omega)
      have hthr' : ((b.modReg rThmStatus (· ||| BitVec.ofNat 64 (2 ^ k))).thmSect k).throttle = max 1 ((d.thmSect k).throttle - 4) := hthr
      generalize b.modReg rThmStatus (· ||| BitVec.ofNat 64 (2 ^ k)) = c at *
      split
      · exact ⟨hbit, fun _ _ => ⟨hthr', hon⟩⟩
      · exact ⟨hbit.trans (c.raiseThm_responds k 1), fun _ _ => ⟨by rw [Dev.raiseThm_sect, hthr'], by rw [Dev.raiseThm_status, hon]⟩⟩
    next hstep =>
      refine ⟨d.setThm_responds k _, fun _ h => absurd ?_ hstep⟩
      rcases h with h | h
      · exact .inl (by rw [h]; rfl)
      · exact .inr h
  · rw [if_neg hhot]
    refine ⟨hend _ ?_ _, fun h => absurd h hhot⟩
    split
    · split
      · exact d.setThm_responds k _
      · split
        · exact d.setThm_responds k _
        · exact .refl d k
    · exact d.setThm_responds k _

/-- A sector's state after a rise. -/
def ThmSect.risen (x : ThmSect) (time lim : Nat) (rise : Int) : ThmSect :=
  let warn : Bool := 6 ≤ rise
  let act : Bool := 16 ≤ rise
  let x := if warn then { x with warnAt := time } else x
  let past := !warn && x.warnAt + 1000000 ≤ time
  let x := if warn ∧ x.freeze.isNone then { x with freeze := some lim } else if past then { x with freeze := none, act := false } else x
  if act then { x with act := true } else x

theorem ThmSect.risen_parts (x : ThmSect) (time lim : Nat) (rise : Int) :
    (x.risen time lim rise).throttle = x.throttle ∧ (6 ≤ rise → (x.risen time lim rise).freeze.isSome = true)
      ∧ (16 ≤ rise → (x.risen time lim rise).act = true) := by
  unfold ThmSect.risen
  dsimp only
  by_cases h6 : 6 ≤ rise
  · simp only [h6, decide_true, if_true, Bool.not_true, Bool.false_and, true_and, forall_const, Bool.false_eq_true, if_false, decide_eq_true_eq]
    cases hf : x.freeze with
    | none => by_cases h16 : 16 ≤ rise <;> simp [h16]
    | some z => by_cases h16 : 16 ≤ rise <;> simp [h16]
  · have h16 : ¬ 16 ≤ rise := by omega
    simp only [h6, h16, decide_false, Bool.false_eq_true, if_false, false_and, Bool.not_false, Bool.true_and, decide_eq_true_eq, false_implies, and_true]
    split <;> rfl

/-- A sector's rise, by the state it leaves. -/
theorem Dev.riseStep_eq (d : Dev) (k : Nat) (rise : Int) :
    let x := (d.thmSect k).risen d.time (d.computeLim k (d.computeHold k)) rise
    let b := (d.setThm k x).modReg rThmStatus (fun w => (w &&& BitVec.ofNat 64 (2 ^ 64 - 1 - 2 ^ (8 + k) - 2 ^ (16 + k)))
      ||| BitVec.ofNat 64 ((if x.act then 2 ^ (8 + k) else 0) + (if x.freeze.isSome then 2 ^ (16 + k) else 0)))
    let c := if x.freeze.isSome ∧ (d.thmSect k).freeze.isNone then b.raise pgThm 2 else b
    d.riseStep k rise = if x.act ∧ !(d.thmSect k).act then c.raise pgThm 4 else c := rfl

/-- A rise of 1.5 °C in 50 samples freezes a sector's limit, and one of 4 °C makes it act. -/
theorem Dev.riseStep_freezes (d : Dev) {k : Nat} (hk : k < 6) (rise : Int) :
    d.responds (d.riseStep k rise) k ∧ ((d.riseStep k rise).thmSect k).throttle = (d.thmSect k).throttle
      ∧ bitOf ((d.riseStep k rise).reg rThmStatus) k = bitOf (d.reg rThmStatus) k
      ∧ (6 ≤ rise → ((d.riseStep k rise).thmSect k).freeze.isSome = true)
      ∧ (16 ≤ rise → ((d.riseStep k rise).thmSect k).act = true) := by
  rw [Dev.riseStep_eq]
  obtain ⟨hthr, hfreeze, hact⟩ := (d.thmSect k).risen_parts d.time (d.computeLim k (d.computeHold k)) rise
  generalize (d.thmSect k).risen d.time (d.computeLim k (d.computeHold k)) rise = x at *
  have hset := d.setThm_responds k x
  have hself := d.setThm_self k x
  have hstat : (d.setThm k x).reg rThmStatus = d.reg rThmStatus := rfl
  generalize d.setThm k x = a at *
  have hmod := a.modStatus_responds k _ (fun w b hb _ => bit_rise hk x.act x.freeze.isSome w b hb)
  have hbit := bit_rise hk x.act x.freeze.isSome (a.reg rThmStatus) k hk
  have hreg : ∀ f : W64 → W64, (a.modReg rThmStatus f).reg rThmStatus = f (a.reg rThmStatus) := fun f => Dev.reg_setReg_self _ _ _
  have hmself : ∀ f : W64 → W64, (a.modReg rThmStatus f).thmSect k = x := fun _ => hself
  generalize hb : a.modReg rThmStatus _ = b at *
  have hbstat : bitOf (b.reg rThmStatus) k = bitOf (d.reg rThmStatus) k := by
    rw [← hb, hreg, hbit, hstat]
  have hbsect : b.thmSect k = x := hb ▸ hmself _
  have hraised : ∀ (e : Dev) (p : Prop) [Decidable p] (bits : Nat), d.responds e k → e.thmSect k = x →
      bitOf (e.reg rThmStatus) k = bitOf (d.reg rThmStatus) k →
      d.responds (if p then e.raise pgThm bits else e) k ∧ (if p then e.raise pgThm bits else e).thmSect k = x
        ∧ bitOf ((if p then e.raise pgThm bits else e).reg rThmStatus) k = bitOf (d.reg rThmStatus) k := by
    intro e p _ bits h1 h2 h3
    split
    · exact ⟨h1.trans (e.raiseThm_responds k bits), by rw [Dev.raiseThm_sect, h2], by rw [Dev.raiseThm_status, h3]⟩
    · exact ⟨h1, h2, h3⟩
  obtain ⟨h1, h2, h3⟩ := hraised b (x.freeze.isSome = true ∧ (d.thmSect k).freeze.isNone = true) 2 (hset.trans hmod) hbsect hbstat
  obtain ⟨r1, r2, r3⟩ := hraised _ (x.act = true ∧ (!(d.thmSect k).act) = true) 4 h1 h2 h3
  exact ⟨r1, by rw [r2, hthr], r3, fun h => by rw [r2, hfreeze h], fun h => by rw [r2, hact h]⟩

/-- The working monitors of a sector. -/
def Dev.sectorMons (d : Dev) (k : Nat) : List Mon := (d.working.filter (fun n => n / 12 == k)).map d.mon

/-- What a sector's responses do. -/
def Dev.responded (d e : Dev) (k : Nat) : Prop :=
  d.sectorMons k ≠ [] →
    (4 * (d.getF rThmLimit fThmLimit_TThrottle : Int) ≤ maxInt (-2048) ((d.sectorMons k).map Mon.last) →
      bitOf (d.reg rThmStatus) k = false ∨ (d.thmSect k).steppedAt + 100000 ≤ d.time →
      (e.thmSect k).throttle = max 1 ((d.thmSect k).throttle - 4) ∧ bitOf (e.reg rThmStatus) k = true)
    ∧ (6 ≤ maxInt (-2048) ((d.sectorMons k).map Mon.rise) → (e.thmSect k).freeze.isSome = true)
    ∧ (16 ≤ maxInt (-2048) ((d.sectorMons k).map Mon.rise) → (e.thmSect k).act = true)

/-- A sector responds. -/
def Dev.respond (d : Dev) (k : Nat) : Dev :=
  if (d.sectorMons k).isEmpty then d
  else (d.throttleStep k (maxInt (-2048) ((d.sectorMons k).map Mon.last))).riseStep k (maxInt (-2048) ((d.sectorMons k).map Mon.rise))

theorem Dev.respond_responds (d : Dev) {k : Nat} (hk : k < 6) : d.responds (d.respond k) k ∧ d.responded (d.respond k) k := by
  unfold Dev.respond
  split
  next h => exact ⟨.refl d k, fun hne => absurd (List.isEmpty_iff.mp h) hne⟩
  next h =>
    obtain ⟨hkeep, hthr⟩ := d.throttleStep_throttles hk (maxInt (-2048) ((d.sectorMons k).map Mon.last))
    generalize d.throttleStep k (maxInt (-2048) ((d.sectorMons k).map Mon.last)) = b at *
    obtain ⟨hkeep', hsame, hbit, hfreeze, hact⟩ := b.riseStep_freezes hk (maxInt (-2048) ((d.sectorMons k).map Mon.rise))
    exact ⟨hkeep.trans hkeep', fun _ => ⟨fun h1 h2 => ⟨hsame.trans (hthr h1 h2).1, hbit.trans (hthr h1 h2).2⟩, hfreeze, hact⟩⟩

/-- The parts of a device that the junction and the sectors' responses rest on. -/
structure Dev.sameMons (d e : Dev) : Prop where
  pstate : e.pstate = d.pstate
  failed : ∀ m, e.monFailed m = d.monFailed m
  diode : e.reg rThmDiode = d.reg rThmDiode
  limit : e.reg rThmLimit = d.reg rThmLimit
  mons : e.thm.mons = d.thm.mons
  time : e.time = d.time

theorem Dev.sameMons.refl (d : Dev) : d.sameMons d := ⟨rfl, fun _ => rfl, rfl, rfl, rfl, rfl⟩

theorem Dev.sameMons.trans {d e f : Dev} (h : d.sameMons e) (k : e.sameMons f) : d.sameMons f :=
  ⟨k.pstate.trans h.pstate, fun m => (k.failed m).trans (h.failed m), k.diode.trans h.diode, k.limit.trans h.limit, k.mons.trans h.mons,
    k.time.trans h.time⟩

theorem Dev.monFailed_congr {d e : Dev} (h1 : e.reg rThmFailLo = d.reg rThmFailLo) (h2 : e.reg rThmFailMid = d.reg rThmFailMid)
    (h3 : e.reg rThmFailHi = d.reg rThmFailHi) (m : Nat) : e.monFailed m = d.monFailed m := by
  rw [Dev.monFailed, Dev.monFailed, h1, h2, h3]

theorem Dev.responds.sameMons {d e : Dev} {k : Nat} (h : d.responds e k) : d.sameMons e :=
  ⟨congrArg (fld · fPwrState_State) (h.regs _ (by decide)), Dev.monFailed_congr (h.regs _ (by decide)) (h.regs _ (by decide)) (h.regs _ (by decide)),
    h.regs _ (by decide), h.regs _ (by decide), h.mons, h.frame .time rfl⟩

theorem Dev.sameMons.mon {d e : Dev} (h : d.sameMons e) (m : Nat) : e.mon m = d.mon m := by rw [Dev.mon, h.mons, Dev.mon]

theorem Dev.sameMons.judged {d e : Dev} (h : d.sameMons e) : e.junction = d.junction ∧ e.sensorTrip = d.sensorTrip ∧ e.working = d.working :=
  Dev.junction_congr (by rw [h.pstate]) h.failed h.diode fun m => congrArg Mon.last (h.mon m)

theorem Dev.sameMons.sectorMons {d e : Dev} (h : d.sameMons e) (k : Nat) : e.sectorMons k = d.sectorMons k := by
  rw [Dev.sectorMons, Dev.sectorMons, h.judged.2.2]
  exact List.map_congr_left fun m _ => h.mon m

/-- The sectors of a list respond, one after the other. -/
theorem Dev.respondAll_responds (ks : List Nat) (d : Dev) (hnd : ks.Nodup) (hlt : ∀ k ∈ ks, k < 6) :
    let e := ks.foldl Dev.respond d
    d.sameMons e ∧ d.regsBut e thmRegs ∧ d.onlyIn e [.thm, .regs, .hif] ∧ (∀ k ∈ ks, d.responded e k)
      ∧ ∀ k : Nat, k < 6 → k ∉ ks → e.thmSect k = d.thmSect k ∧ bitOf (e.reg rThmStatus) k = bitOf (d.reg rThmStatus) k := by
  induction ks generalizing d with
  | nil => exact ⟨.refl d, d.regsBut_refl _, d.onlyIn_refl _, fun _ h => absurd h (by simp), fun _ _ _ => ⟨rfl, rfl⟩⟩
  | cons k ks ih =>
    obtain ⟨hk, hks⟩ := List.nodup_cons.mp hnd
    have hk6 := hlt k (List.mem_cons_self ..)
    obtain ⟨hkeep, hresp⟩ := d.respond_responds hk6
    obtain ⟨hsame, hregs, hframe, hin, hout⟩ := ih (d.respond k) hks fun j hj => hlt j (List.mem_cons_of_mem _ hj)
    have hsame1 := hkeep.sameMons
    rw [List.foldl_cons]
    refine ⟨hsame1.trans hsame, Dev.regsBut_trans hkeep.regs hregs, Dev.onlyIn_trans hkeep.frame hframe, fun j hj => ?_, fun j hj6 hj => ?_⟩
    · rcases List.mem_cons.mp hj with rfl | hj
      · obtain ⟨hs, hb⟩ := hout j hk6 hk
        rw [Dev.responded, hs, hb]
        exact hresp
      · have hjk : j ≠ k := fun h => hk (h ▸ hj)
        have h := hin j hj
        rw [Dev.responded, hsame1.sectorMons, hkeep.others j hjk, hkeep.bits j (hlt j (List.mem_cons_of_mem _ hj)) hjk, hsame1.time, Dev.getF,
          hsame1.limit] at h
        exact h
    · have hjk : j ≠ k := fun h => hj (h ▸ List.mem_cons_self ..)
      obtain ⟨hs, hb⟩ := hout j hj6 fun h => hj (List.mem_cons_of_mem _ h)
      exact ⟨hs.trans (hkeep.others j hjk), hb.trans (hkeep.bits j hj6 hjk)⟩

theorem Dev.thermalResponses_respond (d : Dev) :
    d.sameMons d.thermalResponses ∧ d.regsBut d.thermalResponses thmRegs ∧ d.onlyIn d.thermalResponses [.thm, .regs, .hif]
      ∧ ∀ k : Nat, k < 6 → d.responded d.thermalResponses k := by
  obtain ⟨hsame, hregs, hframe, hin, -⟩ := Dev.respondAll_responds (List.range 6) d List.nodup_range fun k hk => List.mem_range.mp hk
  exact ⟨hsame, hregs, hframe, fun k hk => hin k (List.mem_range.mpr hk)⟩

/-! ## The sample up to its verdict -/

/-- What a sample finds and does before it asks for a trip. -/
def Dev.sampled (d : Dev) (i : Ident) (diode : Reading) (counts : List (Nat × Int)) : Dev :=
  let b := d.sampleMons i counts d.working
  let c := ((d.working.filter (fun n => !b.monFailed n)).foldl (fun d n => d.checkApart n) b).sampleDiode diode
  (match c.junction with
    | some j => c.showJunction j
    | none => c).thermalResponses

/-- The trip that a sample asks for, if any. -/
def Dev.judgeTrip (d : Dev) : Dev :=
  if d.sensorTrip then { d with free := d.free + 2 }.thermalTrip 3 d.hottestSensor
  else
    match d.junction with
    | some j => if 472 ≤ j.1 then d.thermalTrip 1 d.hottestSensor else d
    | none => d

theorem Dev.thermalSample_eq {d : Dev} (h : ¬ ((!d.gan.up) = true ∨ d.pstate = 6)) (i : Ident) (diode : Reading) (counts : List (Nat × Int)) :
    d.thermalSample i diode counts = (d.sampled i diode counts).judgeTrip := by
  unfold Dev.thermalSample
  rw [if_neg h]
  unfold Dev.sampled Dev.sampleMons
  dsimp only
  generalize (List.foldl (fun (d : Dev) n => d.checkApart n) _ _).sampleDiode diode = c
  generalize Dev.thermalResponses _ = e
  rfl

/-- What a sample finds: the readings, the failures, the junction shown and the sectors' responses. -/
theorem Dev.sampled_samples (d : Dev) (i : Ident) (diode : Reading) (counts : List (Nat × Int)) :
    let e := d.sampled i diode counts
    (∀ (n c : Nat) (v : Int), d.working.contains n = true → counts[n]? = some (c, v) →
        let t := monReading i (d.mon n) n c v
        (e.mon n).last = t ∧ (c = 0 ∨ Config.monSaturated c = true ∨ t < -160 ∨ 600 < t → e.monFailed n = true))
      ∧ (d.getF rThmDiode fThmDiode_Fail = 0 → diode.bad = true → e.getF rThmDiode fThmDiode_Fail = 1)
      ∧ (∀ j : Int × Nat, e.junction = some j → e.getF rThmHot fThmHot_Temp = wrapNat 12 j.1)
      ∧ e.pstate = d.pstate ∧ d.onlyIn e [.thm, .regs, .hif]
      ∧ ∀ k : Nat, k < 6 → e.sectorMons k ≠ [] →
          (4 * (d.getF rThmLimit fThmLimit_TThrottle : Int) ≤ maxInt (-2048) ((e.sectorMons k).map Mon.last) →
            bitOf (d.reg rThmStatus) k = false ∨ (d.thmSect k).steppedAt + 100000 ≤ d.time →
            (e.thmSect k).throttle = max 1 ((d.thmSect k).throttle - 4) ∧ bitOf (e.reg rThmStatus) k = true)
          ∧ (6 ≤ maxInt (-2048) ((e.sectorMons k).map Mon.rise) → (e.thmSect k).freeze.isSome = true)
          ∧ (16 ≤ maxInt (-2048) ((e.sectorMons k).map Mon.rise) → (e.thmSect k).act = true) := by
  have hlt : ∀ n ∈ d.working, n < 72 := by
    intro n hn
    unfold Dev.working at hn
    split at hn
    · exact absurd hn (by simp)
    · exact List.mem_range.mp (List.mem_filter.mp hn).1
  have hnd : d.working.Nodup := by
    unfold Dev.working
    split
    · exact List.nodup_nil
    · exact List.nodup_range.filter _
  unfold Dev.sampled
  dsimp only
  obtain ⟨hsamp, hin, -⟩ := Dev.sampleMons_samples i counts d.working d hnd hlt
  generalize d.sampleMons i counts d.working = b at *
  obtain ⟨hsamp', hlast'⟩ := Dev.checkAparts_keep (d.working.filter (fun n => !b.monFailed n)) b fun n hn => hlt n (List.mem_filter.mp hn).1
  have hab := hsamp.trans hsamp'
  generalize List.foldl (fun (d : Dev) n => d.checkApart n) b _ = a at *
  obtain ⟨hdregs, hdframe, hdbad⟩ := a.sampleDiode_reads diode
  generalize a.sampleDiode diode = c at *
  have hcthm : c.thm = a.thm := hdframe .thm rfl
  obtain ⟨g, hg⟩ : ∃ g, g = match c.junction with
    | some j => c.showJunction j
    | none => c := ⟨_, rfl⟩
  rw [← hg]
  have hgfacts : c.regsBut g [rThmHot, rThmMax] ∧ c.onlyIn g [.regs] ∧ ∀ j : Int × Nat, c.junction = some j → g.getF rThmHot fThmHot_Temp = wrapNat 12 j.1 := by
    rw [hg]
    cases hj : c.junction with
    | none => exact ⟨c.regsBut_refl _, c.onlyIn_refl _, fun j h => absurd h (by simp)⟩
    | some j =>
      obtain ⟨hshow, hregs, hframe⟩ := c.showJunction_shows j
      exact ⟨hregs, hframe, fun j' h => (Option.some.inj h) ▸ hshow⟩
  obtain ⟨hgregs, hgframe, hgshow⟩ := hgfacts
  have hcg : c.sameMons g := ⟨congrArg (fld · fPwrState_State) (hgregs _ (by decide)),
    Dev.monFailed_congr (hgregs _ (by decide)) (hgregs _ (by decide)) (hgregs _ (by decide)), hgregs _ (by decide), hgregs _ (by decide),
    congrArg Thm.mons (hgframe .thm rfl), hgframe .time rfl⟩
  obtain ⟨hge, heregs, heframe, hresp⟩ := g.thermalResponses_respond
  generalize g.thermalResponses = e at *
  have hce := hcg.trans hge
  have hlimit : g.getF rThmLimit fThmLimit_TThrottle = d.getF rThmLimit fThmLimit_TThrottle := by
    rw [Dev.getF, hgregs _ (by decide), hdregs _ (by decide), hab.regs _ (by decide), Dev.getF]
  have hstatus : g.reg rThmStatus = d.reg rThmStatus := by
    rw [hgregs _ (by decide), hdregs _ (by decide), hab.regs _ (by decide)]
  have hsect : ∀ k, g.thmSect k = d.thmSect k := fun k => by
    rw [Dev.thmSect, show g.thm.sects = d.thm.sects from (congrArg Thm.sects ((hgframe .thm rfl).trans hcthm)).trans hab.sects, Dev.thmSect]
  have hframe : d.onlyIn e [.thm, .regs, .hif] := ((hab.frame.after hdframe).after hgframe).after heframe
  have htime : g.time = d.time := hge.time.symm.trans (hframe .time rfl)
  refine ⟨fun n c' v hn hc => ?_, fun h0 hb => ?_, fun j hj => ?_, ?_, hframe, fun k hk hne => ?_⟩
  · obtain ⟨hread, hfail⟩ := hin n c' v (List.contains_iff_mem.mp hn) hc
    have hmon : (e.mon n).last = (b.mon n).last := by rw [hce.mon, Dev.mon, hcthm, ← Dev.mon, hlast']
    have hfails : e.monFailed n = a.monFailed n := (hce.failed n).trans (Dev.monFailed_congr (hdregs _ (by decide)) (hdregs _ (by decide)) (hdregs _ (by decide)) n)
    exact ⟨hmon.trans hread, fun h => hfails.trans (hsamp'.failed n (hfail h))⟩
  · have ha0 : a.getF rThmDiode fThmDiode_Fail = 0 := by rw [Dev.getF, hab.regs _ (by decide), ← Dev.getF, h0]
    rw [Dev.getF, hce.diode, ← Dev.getF, hdbad ha0 hb]
  · rw [Dev.getF, heregs _ (by decide), ← Dev.getF, hgshow j (hce.judged.1.symm.trans hj)]
  · rw [hce.pstate, Dev.pstate, Dev.getF, hdregs _ (by decide), hab.regs _ (by decide), ← Dev.getF, ← Dev.pstate]
  · have h := hresp k hk
    rw [Dev.responded, hlimit, hstatus, hsect, htime, ← hge.sectorMons] at h
    exact h hne

/-! ## The trip (13 R388, R390) -/

theorem Dev.endUpdate_quiet (d : Dev) (r : Nat) : d.onlyIn (d.endUpdate r) [.gan, .regs, .hif] ∧ d.regsBut (d.endUpdate r) (rMgmtUpdStatus :: logRegs) := by
  unfold Dev.endUpdate
  split
  · exact ⟨d.onlyIn_refl _, d.regsBut_refl _⟩
  · exact ⟨((Dev.onlyIn_sub _ (d.onGan_frame _) rfl).after (Dev.setReg_frame _ _ _)).after (Dev.log_frame _ _ _),
      ((Dev.regsBut_of_onlyIn (d.onGan_frame _) rfl _).after (Dev.regsBut_setReg _ _ _) (by simp)).after (Dev.log_regsBut _ _ _) (by simp)⟩

theorem Dev.dark_thm (x : Dev) (thm : Thm) : (x.dark thm).thm = thm := by
  unfold Dev.dark
  generalize hy : (Dev.resetRegs _ _ _).putF rDevStatus fDevStatus_Ready 0 = y
  have hf : y.onlyIn ((List.range 12).foldl (fun d n => d.setReg (rCsState n) 0) y) [.regs] :=
    Dev.onlyIn_foldl _ (fun e _ => e.setReg_frame _ _) _ _
  rw [Dev.onHif_thm, hf .thm rfl, ← hy]
  rfl

/-- The monitors' registers are on no stack page and not of the host interface. -/
theorem Dev.dropRails_thm {d : Dev} : d.dropRails.thm.mons = d.thm.mons
    ∧ (d.buffersEmpty → ∀ a : Nat, 0xD80000 ≤ a → (rMgmtUpdStatus :: logRegs).contains a = false → d.dropRails.reg a = d.reg a) := by
  refine ⟨?_, fun hb a ha hq => ?_⟩
  · rw [Dev.dropRails_eq]
    generalize (d.endUpdate 5).stopAll = x
    rw [Dev.dark_thm]
  · obtain ⟨hframe, hregs⟩ := d.endUpdate_quiet 5
    have hb' : (d.endUpdate 5).buffersEmpty := fun k => by
      rw [Dev.wbuf, hframe .sect rfl]
      exact hb k
    have hstop : (d.endUpdate 5).stopAll.regs = (d.endUpdate 5).regs := Dev.stopAll_empty_frame hb' .regs rfl
    have hstack : ∀ n : Nat, n < 12 → a ≠ rCsState n := fun n hn => by
      simp only [rCsState]
      omega
    have hstatus : a ≠ rDevStatus := by
      simp only [rDevStatus]
      omega
    have hhost : ¬ (pgHif ≤ a ∧ a < pgHif + 0x1000) := by
      simp only [pgHif]
      omega
    rw [Dev.dropRails_eq, Dev.dark_reg _ _ hstack hstatus, if_neg hhost, Dev.reg_congr hstop, hregs a hq]

/-- A trip that acts: the device in TRIPPED, unserved, its monitors as they stood, and their registers too where nothing was buffered. -/
theorem Dev.thermalTrip_keeps {d : Dev} (h6 : d.pstate ≠ 6) (h7 : d.pstate ≠ 7) (cause : Nat) (hot : List Nat) :
    let e := d.thermalTrip cause hot
    e.pstate = 6 ∧ e.hif.thermtripN = false ∧ e.hif.pgCore = false ∧ e.unserved ∧ e.stk = {} ∧ e.cq.cmds = [] ∧ e.tiles = []
      ∧ e.thm.mons = d.thm.mons
      ∧ (d.buffersEmpty → ∀ a : Nat, 0xD80000 ≤ a → (rMgmtUpdStatus :: rPwrState :: logRegs).contains a = false → e.reg a = d.reg a) := by
  have he : d.thermalTrip cause hot = ((d.dropRails.onHif (fun h => { h with thermtripN := false })).logNow 0x20 (cause :: hot ++ d.rates)).setPstate 6 :=
    (if_neg h6).trans (if_neg h7)
  obtain ⟨hp, htrip, hstk, hcmds⟩ := Dev.thermalTrip_trips h6 h7 cause hot
  obtain ⟨-, -, -, -, -, htiles, -, -, -, -, hcore, -⟩ := d.dropRails_dark
  obtain ⟨hmons, hregs⟩ := d.dropRails_thm
  have hdark := Dev.dropRails_eq d
  dsimp only
  generalize d.dropRails = x at *
  generalize d.thermalTrip cause hot = e at *
  obtain ⟨y, hy, hframe, hlregs, hpg⟩ : ∃ y, e = y.setPstate 6 ∧ x.onlyIn y [.regs, .hif, .gan]
      ∧ x.regsBut y logRegs ∧ y.hif.pgCore = x.hif.pgCore := by
    have hl := (x.onHif (fun h => { h with thermtripN := false })).logNow_regsBut 0x20 (cause :: hot ++ d.rates)
    have hf := (x.onHif (fun h => { h with thermtripN := false })).logNow_frame 0x20 (cause :: hot ++ d.rates)
    obtain ⟨vs, out, hh⟩ := (x.onHif (fun h => { h with thermtripN := false })).logNow_spoke 0x20 (cause :: hot ++ d.rates)
    generalize (x.onHif (fun h => { h with thermtripN := false })).logNow 0x20 (cause :: hot ++ d.rates) = y at *
    exact ⟨y, he, (Dev.onlyIn_sub _ (x.onHif_frame _) rfl).after hf, hl, by rw [hh]; rfl⟩
  have hset : y.onlyIn (y.setPstate 6) [.regs] := y.putF_frame _ _ _
  have hsregs : y.regsBut (y.setPstate 6) [rPwrState] := y.regsBut_putF _ _ _
  have hall : x.regsBut (e) (rPwrState :: logRegs) := by
    rw [hy]
    exact (Dev.regsBut_mono hlregs (by simp)).after hsregs (by simp)
  have hframe' : x.onlyIn (e) [.regs, .hif, .gan] := by
    rw [hy]
    exact hframe.after hset
  refine ⟨hp, htrip, ?_, ?_, hstk, hcmds, (hframe' .tiles rfl).trans htiles, (congrArg Thm.mons (hframe' .thm rfl)).trans hmons, fun hb a ha hq => ?_⟩
  · rw [hy]
    exact (congrArg Hif.pgCore (hset .hif rfl)).trans (hpg.trans hcore)
  · have hlow : ∀ a : Nat, (rPwrState :: logRegs).contains a = false → pgHif ≤ a → a < pgHif + 0x1000 → a ≠ rDevStatus →
        (e).reg a = resetOf a := by
      intro a hq hlo hhi hne
      rw [hall a hq, hdark, Dev.dark_reg _ _ (rCsState_ne (.inl (by simp only [pgHif] at hhi; omega))) hne, if_pos ⟨hlo, hhi⟩]
    have hlink : e.getF rHifLink fHifLink_State = 0 := by
      rw [Dev.getF, hlow _ (by decide) (by decide) (by decide) (by decide), resetOf_hifLink]
      decide
    refine ⟨?_, hlink, ?_⟩
    · rw [Dev.ready, Dev.getF, hlow _ (by decide) (by decide) (by decide) (by decide), resetOf_hifReset]
      rfl
    · rw [Dev.linkCarries, hlink]
      rfl
  · have hq' : (rPwrState :: logRegs).contains a = false ∧ (rMgmtUpdStatus :: logRegs).contains a = false := by
      simp only [List.contains_cons, Bool.or_eq_false_iff] at hq ⊢
      exact ⟨hq.2, hq.1, hq.2.2⟩
    rw [hall a hq'.1, hregs hb a ha hq'.2]

/-- A device in TRIPPED with everything lost. -/
def Dev.tripped (e : Dev) : Prop :=
  e.pstate = 6 ∧ e.hif.thermtripN = false ∧ e.hif.pgCore = false ∧ e.unserved ∧ e.stk = {} ∧ e.cq.cmds = [] ∧ e.tiles = []

/-- Whether the sensors or the junction ask for a trip. -/
def Dev.tripsNow (e : Dev) : Prop := e.sensorTrip = true ∨ ∃ j : Int × Nat, e.junction = some j ∧ 472 ≤ j.1

/-- What a sample found still shows. -/
structure Dev.sameSample (d e : Dev) : Prop where
  mons : e.thm.mons = d.thm.mons
  failed : ∀ m, e.monFailed m = d.monFailed m
  diode : e.reg rThmDiode = d.reg rThmDiode
  hot : e.reg rThmHot = d.reg rThmHot
  junction : e.junction = d.junction
  trips : e.tripsNow ↔ d.tripsNow

theorem Dev.thermalTrip_trip {d : Dev} (h6 : d.pstate ≠ 6) (h7 : d.pstate ≠ 7) (h3 : d.pstate ≠ 3) (cause : Nat) (hot : List Nat) :
    (d.thermalTrip cause hot).tripped ∧ (d.buffersEmpty → d.sameSample (d.thermalTrip cause hot)) := by
  obtain ⟨hp, ht, hc, hu, hstk, hcmds, htiles, hmons, hregs⟩ := Dev.thermalTrip_keeps h6 h7 cause hot
  generalize d.thermalTrip cause hot = e at *
  refine ⟨⟨hp, ht, hc, hu, hstk, hcmds, htiles⟩, fun hb => ?_⟩
  have hr := hregs hb
  have hfailed : ∀ m, e.monFailed m = d.monFailed m :=
    Dev.monFailed_congr (hr _ (by decide) (by decide)) (hr _ (by decide) (by decide)) (hr _ (by decide) (by decide))
  have hdiode : e.reg rThmDiode = d.reg rThmDiode := hr _ (by decide) (by decide)
  have hmon : ∀ m, (e.mon m).last = (d.mon m).last := fun m => by rw [Dev.mon, hmons, Dev.mon]
  obtain ⟨hj, hs, -⟩ := Dev.junction_congr (d := d) (e := e) (by rw [hp]; exact ⟨fun h => absurd h (by decide), fun h => absurd h h3⟩) hfailed hdiode hmon
  exact ⟨hmons, hfailed, hdiode, hr _ (by decide) (by decide), hj, by rw [Dev.tripsNow, Dev.tripsNow, hj, hs]⟩

/-- A sample trips where the sensors or the junction ask for it, and else does nothing more. -/
theorem Dev.judgeTrip_judges {e : Dev} (h6 : e.pstate ≠ 6) (h7 : e.pstate ≠ 7) (h3 : e.pstate ≠ 3) :
    (e.tripsNow ∧ e.judgeTrip.tripped ∧ (e.buffersEmpty → e.sameSample e.judgeTrip)) ∨ (¬ e.tripsNow ∧ e.judgeTrip = e) := by
  unfold Dev.judgeTrip
  by_cases hs : e.sensorTrip = true
  · rw [if_pos hs]
    obtain ⟨htripped, hkeep⟩ := Dev.thermalTrip_trip (d := { e with free := e.free + 2 }) h6 h7 h3 3 e.hottestSensor
    refine .inl ⟨.inl hs, htripped, fun hb => ?_⟩
    obtain ⟨hmons, hfailed, hdiode, hhot, hjunc, htrips⟩ := hkeep hb
    exact ⟨hmons, hfailed, hdiode, hhot, hjunc, htrips⟩
  · rw [if_neg hs]
    split
    next j hj =>
      by_cases hhot : 472 ≤ j.1
      · rw [if_pos hhot]
        exact .inl ⟨.inr ⟨j, hj, hhot⟩, Dev.thermalTrip_trip h6 h7 h3 1 e.hottestSensor⟩
      · rw [if_neg hhot]
        refine .inr ⟨?_, rfl⟩
        rintro (h | ⟨j', hj', h⟩)
        · exact hs h
        · rw [hj, Option.some.injEq] at hj'
          exact hhot (hj' ▸ h)
    next hj =>
      refine .inr ⟨?_, rfl⟩
      rintro (h | ⟨j', hj', -⟩)
      · exact hs h
      · rw [hj] at hj'
        exact absurd hj' (by simp)

/-! ## Calibration (13 R387) -/

/-- The working monitors take their calibration, and nothing else changes. -/
theorem calibrated_mons (diode : Reading) (counts : List (Nat × Int)) (ws : List Nat) (d : Dev) (hnd : ws.Nodup) :
    let e := ws.foldl (fun d n =>
      match counts[n]? with
      | some cv => d.onThm (fun x => { x with
          mons := tmod x.mons {} n (fun m => { m with nCal := (cv.1 : Int), vCal := cv.2, tCal := diode.temp }) })
      | none => d) d
    d.onlyIn e [.thm]
      ∧ (∀ (n c : Nat) (v : Int), n ∈ ws → counts[n]? = some (c, v) → e.mon n = { d.mon n with nCal := (c : Int), vCal := v, tCal := diode.temp })
      ∧ ∀ n : Nat, n ∉ ws → e.mon n = d.mon n := by
  induction ws generalizing d with
  | nil => exact ⟨d.onlyIn_refl _, fun n c v h => absurd h (by simp), fun _ _ => rfl⟩
  | cons k ws ih =>
    obtain ⟨hk, hws⟩ := List.nodup_cons.mp hnd
    rw [List.foldl_cons]
    obtain ⟨b, hb⟩ : ∃ b, b = match counts[k]? with
      | some cv => d.onThm (fun x => { x with
          mons := tmod x.mons {} k (fun m => { m with nCal := (cv.1 : Int), vCal := cv.2, tCal := diode.temp }) })
      | none => d := ⟨_, rfl⟩
    obtain ⟨hbframe, hbself, hbother⟩ : d.onlyIn b [.thm]
        ∧ (∀ (c : Nat) (v : Int), counts[k]? = some (c, v) → b.mon k = { d.mon k with nCal := (c : Int), vCal := v, tCal := diode.temp })
        ∧ ∀ n : Nat, n ≠ k → b.mon n = d.mon n := by
      rw [hb]
      split
      next cv hc =>
        refine ⟨d.onThm_frame _, fun c v hcv => ?_, fun n hn => by rw [Dev.mon, Dev.onThm_thm, tget_tmod_ne _ _ _ hn, Dev.mon]⟩
        rw [hc, Option.some.injEq] at hcv
        rw [hcv, Dev.mon, Dev.onThm_thm, tget_tmod_self, ← Dev.mon]
      next hc => exact ⟨d.onlyIn_refl _, fun c v hcv => absurd (hc.symm.trans hcv) (by simp), fun _ _ => rfl⟩
    obtain ⟨hframe, hin, hout⟩ := ih b hws
    rw [← hb]
    refine ⟨Dev.onlyIn_trans hbframe hframe, fun n c v hn hc => ?_, fun n hn => ?_⟩
    · rcases List.mem_cons.mp hn with rfl | hn
      · rw [hout n hk, hbself c v hc]
      · rw [hin n c v hn hc, hbother n fun h => hk (h ▸ hn)]
    · rw [hout n fun h => hn (List.mem_cons_of_mem _ h), hbother n fun h => hn (h ▸ List.mem_cons_self ..)]

theorem Dev.working_nodup (d : Dev) : d.working.Nodup := by
  unfold Dev.working
  split
  · exact List.nodup_nil
  · exact List.nodup_range.filter _

/-- When a calibration is due. -/
theorem Dev.recalibrate_due (d : Dev) (diode : Reading) :
    (d.getF rThmDiode fThmDiode_Fail = 1 ∨ diode.bad = true ∨ (!(d.hif.phase == .training || match d.thm.lowPowerSince with
        | some t => decide (t + 10000000 ≤ d.time)
        | none => false)) = true)
      ↔ ¬ (d.getF rThmDiode fThmDiode_Fail = 0 ∧ diode.bad = false
        ∧ (d.hif.phase = .training ∨ ∃ t : Nat, d.thm.lowPowerSince = some t ∧ t + 10000000 ≤ d.time)) := by
  have hbit : d.getF rThmDiode fThmDiode_Fail < 2 := fld_lt _ _
  have hfail : d.getF rThmDiode fThmDiode_Fail = 1 ↔ ¬ d.getF rThmDiode fThmDiode_Fail = 0 := by omega
  rw [hfail]
  cases d.thm.lowPowerSince <;> cases diode.bad <;> simp <;> tauto

/-- Settles O48: a sample's readings, its responses and its trip, and a calibration when it is due. -/
theorem temperatureIsSampledAndActedOn : Obligations.TemperatureIsSampledAndActedOn := by
  unfold Obligations.TemperatureIsSampledAndActedOn
  refine ⟨fun s diode counts => ⟨fun h => ?still, fun hup h6 h3 h7 => ?sample⟩, fun s diode counts => ?cal⟩
  case still =>
    have hexec : exec (.thermalSample diode counts) s = .next (s.onDev fun d => d.thermalSample s.ident diode counts) := rfl
    refine hexec.trans (State.onDev_next ?_)
    unfold Dev.thermalSample
    rw [if_pos (by rw [Bool.not_eq_true']; exact h)]
  case sample =>
    have hexec : exec (.thermalSample diode counts) s = .next (s.onDev fun d => d.thermalSample s.ident diode counts) := rfl
    have hrun := Dev.thermalSample_eq (d := s.dev) (by simp [hup, h6]) s.ident diode counts
    obtain ⟨hread, hdiode, hjunc, hp, hframe, hresp⟩ := s.dev.sampled_samples s.ident diode counts
    generalize s.dev.sampled s.ident diode counts = e at *
    rcases Dev.judgeTrip_judges (e := e) (by rw [hp]; exact h6) (by rw [hp]; exact h7) (by rw [hp]; exact h3) with ⟨htrips, htripped, hkeep⟩ | ⟨hno, hsame⟩
    · refine ⟨e.judgeTrip, hexec.trans (State.onDev_next hrun), .inl ?_⟩
      generalize e.judgeTrip = t at *
      obtain ⟨t1, t2, t3, t4, t5, t6, t7⟩ := htripped
      refine ⟨t1, t2, t3, t4, t5, t6, t7, fun hb => ?_⟩
      have hk := hkeep fun k => by
        rw [Dev.wbuf, hframe .sect rfl]
        exact hb k
      have hmon : ∀ n, t.mon n = e.mon n := fun n => by rw [Dev.mon, hk.mons, Dev.mon]
      refine ⟨⟨fun n c v hn hc => ?_, fun h0 hbad => ?_, fun j hj => ?_⟩, hk.trips.mpr htrips⟩
      · rw [hmon, hk.failed]
        exact hread n c v hn hc
      · rw [Dev.getF, hk.diode]
        exact hdiode h0 hbad
      · rw [Dev.getF, hk.hot]
        exact hjunc j (hk.junction.symm.trans hj)
    · exact ⟨e, hexec.trans (State.onDev_next (hrun.trans hsame)), .inr ⟨⟨hread, hdiode, hjunc⟩, hno, hp, hframe, hresp⟩⟩
  case cal =>
    have hexec : exec (.recalibration diode counts) s = .next (s.onDev fun d => d.recalibrate diode counts) := rfl
    have hdue := s.dev.recalibrate_due diode
    refine ⟨fun h => hexec.trans (State.onDev_next (if_pos (hdue.mpr h))), fun h => ?_⟩
    obtain ⟨hframe, hin, hout⟩ := calibrated_mons diode counts s.dev.working s.dev s.dev.working_nodup
    refine ⟨_, hexec.trans (State.onDev_next (if_neg fun hn => hdue.mp hn h)), hframe, fun n c v hn hc => hin n c v (List.contains_iff_mem.mp hn) hc,
      fun n hn => hout n ?_⟩
    rw [← List.contains_iff_mem, hn]
    exact Bool.false_ne_true

end Sys2Proof.Machine
end

section
/-! # A beat's length overwritten -/

namespace Sys2Proof.Machine

/-! ## A beat's length overwritten (O29)

CS_POISON of a stack numbered 64 would stand where FAB_BEAT_LEN does. No stack has that number, but a state may hold a queued read of
an address that far out, and the statement is about every state. -/

/-- A machine at a beat boundary with a slot to send, whose stack 0 holds a queued read of an address past every stack, poisoned there. -/
def farRead : State where
  dev :=
    { time := 8000
      regs := [(rSectPartLayout, 0), (rFabStatus, 1), (rFabLinkState 0, 3)]
      hif := { phase := .complete }
      fab := { active := some { hdr := 0, work := [], tables := [[BitVec.ofNat 256 (1 + 2 ^ 32)]], epoch := 0 } }
      cs := [(0, { accQ := [(0, [{ func := 0, addr := 64 * stackBytes, len := 64, data := none, windows := 0, held := 0 }])] })]
      stk := { flags := [(64 * stackBytes, { valid := true, poison := true })] } }

theorem farRead_runs : farRead.dev.fabricRuns = true ∧ farRead.dev.fab.beatStart + farRead.dev.fab.len1 ≤ farRead.dev.time
    ∧ farRead.dev.commitDue = false := by decide +kernel

/-- The slot's first page-table read serves the queued read, and its poison is counted in FAB_BEAT_LEN. -/
theorem farRead_overwrites : farRead.dev.beatBoundary.reg rFabBeatLen ≠ BitVec.ofNat 64 farRead.dev.fab.len2 := by decide +kernel

/-- Refutes O29: at a boundary the read of a TX slot may count a poisoned granule in FAB_BEAT_LEN. -/
theorem not_beatsRunAndEpochsCommit : ¬ Obligations.BeatsRunAndEpochsCommit := by
  unfold Obligations.BeatsRunAndEpochsCommit
  intro h
  obtain ⟨hboundary, -⟩ := h
  have hlen : ∀ s : State, s.dev.fabricRuns = true ∧ s.dev.fab.beatStart + s.dev.fab.len1 ≤ s.dev.time ∧ s.dev.commitDue = false →
      s.dev.beatBoundary.reg rFabBeatLen = BitVec.ofNat 64 s.dev.fab.len2 := by
    intro s hs
    obtain ⟨-, hruns⟩ := hboundary s
    obtain ⟨e, hexec, -, -, -, -, -, -, -, hlen, -⟩ := hruns hs
    have hrun : exec .beatBoundary s = .next (s.onDev (fun d => d.beatBoundary)) := rfl
    rw [hrun] at hexec
    injection hexec with hnext
    have he : s.dev.beatBoundary = e := congrArg State.dev hnext
    rw [he, hlen]
  exact farRead_overwrites (hlen farRead farRead_runs)

end Sys2Proof.Machine
end

section
/-! # What parts the operations may change: Fold commands and programs on their tiles

The lemma about an operation has its name, in the order of the definitions. -/

namespace Sys2Proof.Machine
-- These proofs are many and small: elaborated all at once they take more threads than the checker has.
set_option Elab.async false
namespace Dev.onlyIn
variable {d₀ d e : Dev} {C : List Comp}

theorem modTile (h₀ : d₀.onlyIn d C) {t : Nat} {f : Tile → Tile} (sub : among [.tiles] C := by rfl) : d₀.onlyIn (d.modTile t f)
  C :=
  h₀.into sub fun _ hd => .set_tiles hd

theorem zeroSlots (h₀ : d₀.onlyIn d C) {t : Nat} (sub : among [.slots] C := by rfl) : d₀.onlyIn (d.zeroSlots t) C :=
  h₀.into sub fun _ hd => .set_slots hd

end Dev.onlyIn
end Sys2Proof.Machine
end

section
/-! # Fold commands and programs on their tiles -/

namespace Sys2Proof.Machine

/-! ## Programs start on their tiles (04 Table 4-1, R165; 05 R142) -/

theorem nodup_tileSet (r : Rec) : (tileSet r).Nodup := by
  refine List.nodup_flatMap.mpr ⟨fun k _ => List.Nodup.map (fun a b h => by omega) (List.Nodup.filter _ List.nodup_range), ?_⟩
  refine List.Pairwise.imp ?_ (List.Nodup.filter _ (List.nodup_range (n := 6)))
  intro j k hne t hj hk
  obtain ⟨a, ha, rfl⟩ := List.mem_map.mp hj
  obtain ⟨b, hb, heq⟩ := List.mem_map.mp hk
  have ha24 := List.mem_range.mp (List.mem_of_mem_filter ha)
  have hb24 := List.mem_range.mp (List.mem_of_mem_filter hb)
  omega

/-- The tile of rank `i` as a program's command starts on it. -/
def startedTile (x : Cmd) (i : Nat) : Tile :=
  { cmd := some x.id, rank := i, nt := x.tiles.length, routine := bitsOf x.word 128 8
    args := (List.range 8).map (fun k => BitVec.ofNat 13 (bitsOf x.word (192 + 13 * k) 13)) }

/-- One tile of a command starts. -/
def Dev.startTile (x : Cmd) (d : Dev) (tr : Nat × Nat) : Dev :=
  ((d.settleTile tr.1).zeroSlots tr.1).modTile tr.1 (fun _ => startedTile x tr.2)

theorem Dev.startTiles_eq (d : Dev) (x : Cmd) : d.startTiles x = (x.tiles.zip (List.range x.tiles.length)).foldl (Dev.startTile x) d := rfl

theorem Dev.startTile_clean {d : Dev} (h : d.upsets = []) (x : Cmd) (tr : Nat × Nat) :
    d.startTile x tr = (d.zeroSlots tr.1).modTile tr.1 (fun _ => startedTile x tr.2) := by
  rw [Dev.startTile, Dev.settleTile, if_pos (by simp [h])]

theorem Dev.startTile_frame {d : Dev} (h : d.upsets = []) (x : Cmd) (tr : Nat × Nat) : d.onlyIn (d.startTile x tr) [.tiles, .slots] := by
  rw [Dev.startTile_clean h]
  exact .modTile (.zeroSlots (d.onlyIn_refl _))

/-- The atomic slots of tile `t` are zero (R165). -/
def Dev.slotsZero (d : Dev) (t : Nat) : Prop := ∀ a : Nat, t * 4096 ≤ a → a < (t + 1) * 4096 → d.slots.byte a = 0

theorem Dev.slotsZero_startTile {d : Dev} (h : d.upsets = []) (x : Cmd) (tr : Nat × Nat) {t : Nat} (hz : t = tr.1 ∨ d.slotsZero t) :
    (d.startTile x tr).slotsZero t := by
  rw [Dev.startTile_clean h]
  intro a hlo hhi
  show (d.slots.clear (tr.1 * 4096) ((tr.1 + 1) * 4096)).byte a = 0
  by_cases hin : tr.1 * 4096 ≤ a ∧ a < (tr.1 + 1) * 4096
  · exact Memory.byte_clear_in _ hin
  · rw [Memory.byte_clear_out _ (by omega)]
    rcases hz with rfl | hz
    · omega
    · exact hz a hlo hhi

/-- Tiles that start, each once, stand as a command starts them; the other tiles stay. -/
theorem Dev.foldl_startTile (x : Cmd) (trs : List (Nat × Nat)) (hnodup : (trs.map (·.1)).Nodup) {d : Dev} (h : d.upsets = []) :
    let e := trs.foldl (Dev.startTile x) d
    d.onlyIn e [.tiles, .slots] ∧ (∀ tr ∈ trs, e.tile tr.1 = startedTile x tr.2)
      ∧ (∀ t : Nat, d.slotsZero t ∨ t ∈ trs.map (·.1) → e.slotsZero t) ∧ ∀ t ∉ trs.map (·.1), e.tile t = d.tile t := by
  induction trs generalizing d with
  | nil => exact ⟨d.onlyIn_refl _, by simp, fun t ht => by simpa using ht, fun _ _ => rfl⟩
  | cons tr trs ih =>
    rw [List.map_cons, List.nodup_cons] at hnodup
    obtain ⟨hnew, hnodup⟩ := hnodup
    have hstep := Dev.startTile_frame h x tr
    obtain ⟨hframe, hstart, hzero, hkeep⟩ := ih hnodup (d := d.startTile x tr) ((hstep .upsets rfl).trans h)
    have hself : (d.startTile x tr).tile tr.1 = startedTile x tr.2 := by
      rw [Dev.startTile_clean h, Dev.tile_modTile_self]
    refine ⟨Dev.onlyIn_trans hstep hframe, fun u hu => ?_, fun t ht => ?_, fun t ht => ?_⟩
    · rcases List.mem_cons.mp hu with rfl | hu
      · exact (hkeep _ hnew).trans hself
      · exact hstart u hu
    · rw [List.map_cons, List.mem_cons] at ht
      refine hzero t ?_
      rcases ht with ht | rfl | ht
      · exact .inl (Dev.slotsZero_startTile h x tr (.inr ht))
      · exact .inl (Dev.slotsZero_startTile h x tr (.inl rfl))
      · exact .inr ht
    · rw [List.map_cons, List.mem_cons, not_or] at ht
      refine (hkeep t ht.2).trans ?_
      rw [Dev.startTile_clean h, Dev.tile_modTile_ne _ _ ht.1]
      rfl

theorem mem_zip_range {α : Type} {l : List α} {i : Nat} {a : α} (h : l[i]? = some a) : (a, i) ∈ l.zip (List.range l.length) := by
  obtain ⟨hi, rfl⟩ := List.getElem?_eq_some_iff.mp h
  exact List.mem_iff_getElem.mpr ⟨i, by simpa using hi, by simp⟩

/-- The tiles of a command start at its routine's first bundle, with their ranks and the bound arguments. -/
theorem Dev.startTiles_starts {d : Dev} (h : d.upsets = []) (x : Cmd) (hx : x.tiles.Nodup) :
    d.onlyIn (d.startTiles x) [.tiles, .slots]
      ∧ (∀ (i t : Nat), x.tiles[i]? = some t → (d.startTiles x).tile t = startedTile x i ∧ (d.startTiles x).slotsZero t)
      ∧ ∀ t : Nat, x.tiles.contains t = false → (d.startTiles x).tile t = d.tile t := by
  have hmap : (x.tiles.zip (List.range x.tiles.length)).map (·.1) = x.tiles := List.map_fst_zip (by simp)
  obtain ⟨hframe, hstart, hzero, hkeep⟩ := Dev.foldl_startTile x _ (by rwa [hmap]) h
  rw [hmap] at hzero hkeep
  exact ⟨hframe, fun i t hi => ⟨hstart (t, i) (mem_zip_range hi), hzero t (.inr (List.mem_of_getElem? hi))⟩,
    fun t ht => hkeep t (by simpa using ht)⟩

/-- Command `x` as its tiles start: it runs from now, on the tiles of its set. -/
def Dev.running (d : Dev) (x : Cmd) : Cmd :=
  { x with tiles := tileSet x.word, phase := .running, start := d.time, bypass := d.trainRange x.word }

/-- A program command whose checks have passed starts: it has begun, and its tiles stand at their first bundle. -/
theorem Dev.runTiles_starts {d : Dev} (h : d.upsets = []) (x : Cmd) :
    let e := (d.takeTiles x false).runTiles x
    let ts := tileSet x.word
    (d.popHead x.queue).begun e (d.running x) [.tiles, .slots]
      ∧ (∀ (i t : Nat), ts[i]? = some t → e.tile t = startedTile (d.running x) i ∧ e.slotsZero t)
      ∧ ∀ t : Nat, ts.contains t = false → e.tile t = d.tile t := by
  have htake : d.takeTiles x false = (d.popHead x.queue).begin_ (d.running x) := by
    simp [Dev.takeTiles, Dev.startHead, Dev.running]
  obtain ⟨hcq, hregs, hframe⟩ := (d.popHead x.queue).begin_begun (d.running x)
  rw [← htake] at hcq hregs hframe
  generalize d.takeTiles x false = d1 at *
  have hpop : d.onlyIn (d.popHead x.queue) [.cq, .regs] := .popHead (d.onlyIn_refl _)
  have hclean : d1.upsets = [] := (hframe .upsets rfl).trans ((hpop .upsets rfl).trans h)
  have hrun : d1.runTiles x = d1.startTiles { x with tiles := tileSet x.word } := by
    simp [Dev.runTiles, Dev.copyClosure, hclean]
  obtain ⟨hframe2, hstart, hkeep⟩ := Dev.startTiles_starts hclean { x with tiles := tileSet x.word } (nodup_tileSet x.word)
  dsimp only
  rw [hrun]
  refine ⟨⟨(hframe2 .cq rfl).trans hcq, fun a ha => ?_, Dev.onlyIn.after (Dev.onlyIn_sub _ hframe rfl) hframe2 rfl⟩, hstart, fun t ht => ?_⟩
  · exact (Dev.reg_congr (hframe2 .regs rfl) a).trans (hregs a ha)
  · exact (hkeep t ht).trans (Dev.tile_congr ((hframe .tiles rfl).trans (hpop .tiles rfl)) t)

theorem Dev.latchStart_clean {d : Dev} (h : d.upsets = []) (x : Cmd) :
    d.latchStart x false = (d, { x with rc := d.latchCounts x.word, serial := [], olds := [] }, false) := by
  unfold Dev.latchStart
  simp only [Dev.readWord_clean h, ite_self, Bool.false_eq_true, if_false]

/-- Where no flipped bit stands, a command that has passed its checks starts on its tiles. -/
theorem Dev.launch_checked {d : Dev} (h : d.upsets = []) (x : Cmd) :
    d.launch x true false = (d.takeTiles { x with rc := d.latchCounts x.word, serial := [], olds := [] } false).runTiles
      { x with rc := d.latchCounts x.word, serial := [], olds := [] } := by
  unfold Dev.launch
  rw [Dev.latchStart_clean h]
  simp

/-- Settles O30: the waits of the head, and the start at its period, are the branches of the check. -/
theorem foldCommandsStartAtPeriods : Obligations.FoldCommandsStartAtPeriods := by
  unfold Obligations.FoldCommandsStartAtPeriods
  intro s q
  refine ⟨fun h => State.onDev_next ?_, fun x r rest hx hw => ?_⟩
  · unfold Dev.foldCommandStart
    rcases h with h | h
    · rw [h]
    · rw [h]
      split
      · simp_all
      · rfl
  have heq : s.dev.foldCommandStart q =
      if !(s.dev.waitReasons q r).isEmpty ∨ s.dev.bar4Before q then s.dev
      else if !s.dev.foldPart x.part then
        s.dev.launch { x with id := s.dev.cq.nextId, sums := s.dev.pwr.sums, fold := false } true false
      else if s.dev.fab.beatNo % s.dev.period ≠ 0 ∨ s.dev.fab.beatStart < x.start then s.dev
      else if s.dev.jobStopped x.part then s.dev.refuseHead { x with id := s.dev.cq.nextId, sums := s.dev.pwr.sums } 0x55 0 0 0
      else s.dev.launch { x with id := s.dev.cq.nextId, sums := s.dev.pwr.sums } true false := by
    unfold Dev.foldCommandStart
    rw [hx, hw]
  refine ⟨fun h => State.onDev_next ?_, fun hready hfold htime hstop hclean => ?_, fun hready hfold hclean => ?_⟩
  · rw [heq]
    rcases h with h | ⟨hfold, htime⟩
    · rw [if_pos]
      by_cases hreasons : s.dev.waitReasons q r = []
      · exact .inr (by simpa [hreasons] using h)
      · exact .inl (by simpa using hreasons)
    · rw [if_neg (by simp [hfold] : ¬ (!s.dev.foldPart x.part) = true),
        if_pos (by omega : s.dev.fab.beatNo % s.dev.period ≠ 0 ∨ s.dev.fab.beatStart < x.start), ite_self]
  · obtain ⟨hreasons, hbar4⟩ := hready
    rw [if_neg (by simp [hreasons, hbar4]), if_neg (by simp [hfold]), if_neg (by omega), if_pos hstop] at heq
    exact ⟨_, State.onDev_next heq, Dev.refuseStart_endsAtStart (d := s.dev.popHead x.queue) hclean _ (by decide) 0 0 0⟩
  · obtain ⟨hreasons, hbar4⟩ := hready
    have hlaunch : s.dev.foldCommandStart q = s.dev.launch
        { x with id := s.dev.cq.nextId, sums := s.dev.pwr.sums, fold := if s.dev.foldPart x.part = true then x.fold else false } true false := by
      rw [heq, if_neg (by simp [hreasons, hbar4])]
      rcases hfold with hfold | ⟨htime, hstop⟩
      · rw [if_pos (by simp [hfold]), if_neg (by simp [hfold])]
      · by_cases hfold : s.dev.foldPart x.part = true
        · rw [if_neg (by simp [hfold]), if_neg (by omega), if_neg (by simp [hstop]), if_pos hfold]
        · rw [if_pos (by simp [hfold]), if_neg hfold]
    rw [Dev.launch_checked hclean] at hlaunch
    exact ⟨_, State.onDev_next hlaunch, Dev.runTiles_starts hclean _⟩

end Sys2Proof.Machine
end

section
/-! # RUN_PROGRAM and ADAPT_STEP -/

namespace Sys2Proof.Machine

/-! ## RUN_PROGRAM and ADAPT_STEP (05 R142, 10 R302) -/

section
variable {d d1 d2 : Dev} {q op : Nat} {r : Rec} {rest : List Rec} {x : Cmd}

/-- A head that may start, and has what it reads of host memory, becomes its command. -/
theorem Dev.turn_starting (h : d.starting d1 q op r rest x) (hop : knownOps.contains op = true) (needs : Dev → Cmd → List HostGran)
    (hhas : d.headHas q x.func (needs d x)) : d.turn q op needs = (d, some x) := by
  obtain ⟨⟨hhead, hwait, hbar4, hturn, hchecked, hclean⟩, rfl, hrecord, rfl, rfl⟩ := h
  have hrow : recordRow r = opcodeOf r := if_pos hop
  have hready : d.headReady q (opcodeOf r) = true := by
    simp [Dev.headReady, hhead, hrow, hwait, hbar4, hturn, hchecked]
  unfold Dev.turn
  rw [hhead]
  dsimp only
  rw [Dev.readWord_clean hclean]
  simp only [hready, hrecord, Bool.not_true, Bool.false_eq_true, if_false, ne_eq, not_true_eq_false]
  rcases hhas with hhas | hhas
  · rw [hhas]
    rfl
  · rw [hhas]
    exact ite_self _

/-- A program command that passes its dispatch check is handed on to the checks of its descriptors. -/
theorem Dev.programTurn_starting (h : d.starting d1 q op r rest x) (hop : knownOps.contains op = true)
    (hcheck : d.programCheck x.part x.word = 0)
    (hhas : d.headHas q x.func (d.startNeeds q (d.cpOf x.part x.ctx) (ascending (d.programHandles x.part x.word).1)
      (ascending (d.programHandles x.part x.word).2))) :
    d.programTurn q op (fun d x => d.programCheck x.part x.word) = d.enterProgram x := by
  unfold Dev.programTurn
  dsimp only
  rw [Dev.turn_starting h hop _ (by simpa only [hcheck, ne_eq, not_true_eq_false, if_false] using hhas)]
  simp [hcheck]

/-- A command whose descriptors are good passes its checks. -/
theorem Dev.checkProgram_passes {rc : Reach}
    (hvalid : d.validate (d.cpOf x.part x.ctx) (d.programHandles x.part x.word).1 (d.programHandles x.part x.word).2 = (d2, .ok rc))
    (hlate : d2.lateCheck x.part x.word = false) : d.checkProgram x = (d2, .ok { x with descs := rc.descs, lists := rc.lists }) := by
  unfold Dev.checkProgram
  dsimp only
  rw [hvalid]
  simp [hlate]

end

/-- Each of the two rows runs the same turn, where no flipped bit stands. -/
theorem programRows_mem {row : (QueueId → Instr) × Nat} (h : row ∈ [((fun q => Instr.runProgram q : QueueId → Instr), 0x01), (.adaptStep, 0x14)])
    (s : State) (q : QueueId) (hclean : s.dev.upsets = []) :
    knownOps.contains row.2 = true ∧ (row.2 = 0x01 ∨ row.2 = 0x14)
      ∧ exec (row.1 q) s = .next (s.onDev (fun d => d.programTurn q row.2 (fun d x => d.programCheck x.part x.word))) := by
  simp only [List.mem_cons, List.not_mem_nil, or_false] at h
  rcases h with rfl | rfl
  · exact ⟨by decide, .inl rfl, rfl⟩
  · refine ⟨by decide, .inr rfl, State.onDev_next (e := s.dev.programTurn q 0x14 (fun d x => d.programCheck x.part x.word)) ?_⟩
    simp only [Dev.adaptStep, Dev.readVersionMeta_clean hclean, ite_self]

/-- Settles O13: the head becomes its command, its descriptors are latched, and it starts on its tiles or waits as checked. -/
theorem programsStartOnTheirTiles : Obligations.ProgramsStartOnTheirTiles := by
  unfold Obligations.ProgramsStartOnTheirTiles
  intro row hrow s q r rest d1 d2 x rc hstart hcheck
  dsimp only
  intro hhas hvalid htrains hclean
  have hclean0 : s.dev.upsets = [] := by
    obtain ⟨⟨-, -, -, -, -, hclean0⟩, -⟩ := hstart
    exact hclean0
  obtain ⟨hop, hrows, hexec⟩ := programRows_mem hrow s q hclean0
  have hrun := Dev.programTurn_starting hstart hop
  obtain ⟨-, hopcode, -, -, hx⟩ := hstart
  have hqueue : x.queue = q := by rw [hx]; rfl
  have hword : x.word = r := by rw [hx]; rfl
  have hlatched : ∀ counts, { x with rc := counts, serial := [], olds := [] } = { x with rc := counts } := fun _ => by rw [hx]; rfl
  subst hword
  rw [← hqueue] at hhas ⊢
  have hlate : d2.lateCheck x.part x.word = false := by
    rcases hrows with h1 | h14
    · simp [Dev.lateCheck, hopcode, h1]
    · simp [Dev.lateCheck, htrains h14]
  replace hrun := hrun hcheck (by rwa [← hqueue])
  refine ⟨fun hfold => ?_, fun hfold => ?_⟩
  · have hlaunch : s.dev.enterProgram x
        = (d2.takeTiles { x with rc := s.dev.latchCounts x.word, descs := rc.descs, lists := rc.lists } false).runTiles
          { x with rc := s.dev.latchCounts x.word, descs := rc.descs, lists := rc.lists } := by
      unfold Dev.enterProgram Dev.launch
      rw [if_pos (by simp [hfold]), Dev.latchStart_clean hclean0, hlatched]
      dsimp only
      rw [Dev.checkProgram_passes (x := { x with rc := s.dev.latchCounts x.word }) hvalid hlate]
      simp
    refine ⟨_, hexec.trans (State.onDev_next (hrun.trans hlaunch)), Dev.runTiles_starts hclean _⟩
  · have henter : s.dev.enterProgram x = if d2.jobStopped x.part then d2.refuseHead { x with descs := rc.descs, lists := rc.lists } 0x55 0 0 0
        else { d2 with cq := { d2.cq with checked := tset d2.cq.checked x.queue { x with descs := rc.descs, lists := rc.lists, fold := true } } } := by
      unfold Dev.enterProgram
      rw [if_neg (by simp [hfold]), Dev.checkProgram_passes hvalid hlate]
    refine ⟨_, hexec.trans (State.onDev_next (hrun.trans henter)), fun hgo => ?_, fun hstop => ?_⟩
    · rw [if_neg (by simp [hgo])]
      exact ⟨rfl, .set_cq (d2.onlyIn_refl _)⟩
    · rw [if_pos hstop]
      exact Dev.refuseStart_endsAtStart (d := d2.popHead x.queue) hclean _ (by decide) 0 0 0

end Sys2Proof.Machine
end

section
/-! # HDISP -/

namespace Sys2Proof.Machine

/-! ## HDISP (04 R123, R124; 07 R191) -/

section
variable {d : Dev} {t s op : Nat} {c : Cmd} {w : W64}

/-- An instruction about to issue that nothing makes illegal waits for the list entries it reads, and then is performed. -/
theorem Dev.issue_awaits {reason : Dev → Cmd → W64 → Nat} {run : Dev → Cmd → W64 → Dev} {lists : Dev → Cmd → W64 → List (Nat × List (List Int))}
    (h : d.issuing t s op c w) (hd : wordReason s w = 0) (hl : reason d c w = 0) {d0 : Dev}
    {came : Bool} (ha : d.awaitLists c t (lists d c w) = (d0, .ok came)) :
    d.issue t s op reason run lists = if came then (run d0 c w).slotDone t s else d0 := by
  obtain ⟨-, -, -, -, -, -, hclean, -⟩ := id h
  unfold Dev.issue
  cases came <;> simp [Dev.atSlot_issuing h hd, Dev.checkHandles, hclean, hl, ha]

end

/-- A hen operation joins those of the stack controllers, outstanding under its instruction's tag, its hens engines of its command. -/
def Dev.dispatchOp (d : Dev) (t : Nat) (c : Cmd) (w : W64) (o : HenOp) : Dev :=
  let d := (d.pushOp t (bitsOf w 6 4) (.hdisp o.id)).modCmd c.id (fun x => { x with
    engines := (x.engines ++ o.hens.map (fun u => (⟨.hen, u⟩ : UnitId))).eraseDups })
  { d with henOps := d.henOps ++ [o], nextHenOp := d.nextHenOp + 1 }

theorem Dev.dispatchOp_tiles (d : Dev) (t : Nat) (c : Cmd) (w : W64) (o : HenOp) :
    (d.dispatchOp t c w o).tiles = (d.pushOp t (bitsOf w 6 4) (.hdisp o.id)).tiles := rfl

theorem Dev.dispatchOp_joins (d : Dev) (t : Nat) (c : Cmd) (w : W64) (o : HenOp) :
    (d.dispatchOp t c w o).henOps = d.henOps ++ [o] ∧ (d.dispatchOp t c w o).nextHenOp = d.nextHenOp + 1
      ∧ ((d.dispatchOp t c w o).tile t).outs = (d.tile t).outs ++ [⟨(d.tile t).nextOp, bitsOf w 6 4, .hdisp o.id⟩]
      ∧ d.tilesBut (d.dispatchOp t c w o) t ∧ d.onlyIn (d.dispatchOp t c w o) [.tiles, .cq, .henOps, .nextHenOp] := by
  refine ⟨rfl, rfl, ?_, fun u hu => ?_, fun k hk => by cases k <;> first | rfl | simp at hk⟩
  · rw [Dev.tile_congr (d.dispatchOp_tiles t c w o), Dev.pushOp, Dev.tile_modTile_self]
  · rw [Dev.tile_congr (d.dispatchOp_tiles t c w o), Dev.pushOp, Dev.tile_modTile_ne _ _ hu]

section
variable {d0 d1 : Dev} {t : Nat} {c : Cmd} {w : W64} {block : Option Rec}
  (hblock : d0.henBlock t (c.reach t) (d0.handle t (hdH0 w)) = (d1, .ok block))
include hblock

/-- An HDISP that passes its checks sends its sector's buffered writes home and dispatches the operation. -/
theorem Dev.hdispRun_dispatches {d2 : Dev} {o : HenOp} (hcheck : (d1.henCheck t (c.reach t) w block (d0.stacksOf c.part).length).1 = 0)
    (hgather : d1.henGather t c w (block.getD 0) (d1.henCheck t (c.reach t) w block (d0.stacksOf c.part).length).2.1
      (d1.henCheck t (c.reach t) w block (d0.stacksOf c.part).length).2.2 (d0.stacksOf c.part) (d1.tile t).nextOp = (d2, .ok o)) :
    d0.hdispRun t c w = (d2.drainAll (t / 24)).dispatchOp t c w o := by
  unfold Dev.hdispRun
  dsimp only
  rw [hblock]
  dsimp only
  rw [if_neg (by simp [hcheck]), hgather]
  rfl

/-- An HDISP that fails a check is a skip. -/
theorem Dev.hdispRun_rejects (hcheck : (d1.henCheck t (c.reach t) w block (d0.stacksOf c.part).length).1 ≠ 0) :
    d0.hdispRun t c w = d1.skip t 2 (d1.henCheck t (c.reach t) w block (d0.stacksOf c.part).length).1 w := by
  unfold Dev.hdispRun
  dsimp only
  rw [hblock]
  dsimp only
  rw [if_pos hcheck]
  rfl

end

theorem Dev.henGather_op {d d2 : Dev} {t : Nat} {c : Cmd} {w : W64} {b : Rec} {h : HenHandles} {dims stks : List Nat} {outId : Nat} {o : HenOp}
    (hgather : d.henGather t c w b h dims stks outId = (d2, .ok o)) : o.kind = hdOp w ∧ o.started = false ∧ o.cmd = c.id := by
  unfold Dev.henGather at hgather
  dsimp only at hgather
  repeat' split at hgather
  all_goals simp only [Prod.mk.injEq, reduceCtorEq, and_false, Except.ok.injEq] at hgather
  all_goals
    obtain ⟨-, rfl⟩ := hgather
    exact ⟨rfl, rfl, rfl⟩

/-- Each operation's row is the one HDISP that its HENOP selects. -/
theorem hdispRows_mem {row : (TileId → Instr) × (Nat → Bool)}
    (h : row ∈ [(Instr.hgemm, fun k : Nat => k != 2 && k != 3 && k != 4), (.hattn, (· == 2)), (.hsoftmax, (· == 3)), (.hreduce, (· == 4))])
    (s : State) (t : TileId) : exec (row.1 t) s = .next (s.onDev (fun d => d.hdispIssue t row.2)) := by
  simp only [List.mem_cons, List.not_mem_nil, or_false] at h
  rcases h with rfl | rfl | rfl | rfl <;> rfl

/-- Settles O8: the instruction is performed where its lists have come, dispatching the operation or skipping it. -/
theorem hdispDispatchesOrRejects : Obligations.HdispDispatchesOrRejects := by
  unfold Obligations.HdispDispatchesOrRejects
  intro row hrow s t c w d0 d1 block hissue hsel hlegal hawait hblock
  obtain ⟨-, -, -, hslot, hw, hop, -, -⟩ := id hissue
  have hword : wordReason 2 w = 0 := wordReason_defined (by rw [hop]; decide) (by rw [hop]; decide)
  have hrun : s.dev.hdispIssue t row.2 = (d0.hdispRun t c w).slotDone t 2 := by
    have hway : Dev.clearWay wayFuel s.dev t = s.dev := s.dev.clearWay_ready t 2 wayFuel hslot (by rw [hw]; exact hword)
    unfold Dev.hdispIssue
    dsimp only
    rw [hway, hw, if_neg (by simp [hsel]), Dev.issue_awaits hissue hword hlegal hawait, if_pos rfl]
  refine ⟨_, (hdispRows_mem hrow s t).trans (State.onDev_next hrun), fun d2 o hcheck hgather => ?_, fun hcheck => ?_⟩
  · obtain ⟨hkind, hstarted, hcmd⟩ := Dev.henGather_op hgather
    rw [Dev.hdispRun_dispatches hblock hcheck hgather]
    obtain ⟨hops, hnext, houts, hbut, honly⟩ := (d2.drainAll (t / 24)).dispatchOp_joins t c w o
    obtain ⟨⟨-, -, -, hkeep, -⟩, -, hbut2, honly2⟩ := ((d2.drainAll (t / 24)).dispatchOp t c w o).slotDone_frame t 2
    exact ⟨(honly2 .henOps rfl).trans hops, hkind, hstarted, hcmd, (honly2 .nextHenOp rfl).trans hnext, hkeep.trans houts,
      Dev.tilesBut_trans hbut hbut2, Dev.onlyIn.after honly honly2 rfl⟩
  · rw [Dev.hdispRun_rejects hblock hcheck]
    obtain ⟨hwork, -, -, honly⟩ := (d1.skip t 2 (d1.henCheck t (c.reach t) w block (d0.stacksOf c.part).length).1 w).slotDone_frame t 2
    exact ⟨honly .henOps rfl, honly, hwork⟩

end Sys2Proof.Machine
end

section
/-! # Hen operations of one number -/

namespace Sys2Proof.Machine

/-! ## Hen operations of one number (07 R195) -/

/-- An HSOFTMAX without rows on the listed hens, waiting in the stack controllers under number 0. -/
def waitingOp (hens : List Nat) : HenOp :=
  { id := 0, cmd := 0, tile := 0, outId := 0, kind := 3, block := 0, dims := [], types := [], scaled := (false, false), rows := [], input := []
    outO := [], outM := [], stks := [], hens := hens, started := false, exchanged := false, rowMax := [], scores := [], stepsLeft := [] }

/-- Two operations of number 0 wait; the first runs on no hen, the second on hen 0. -/
def twinOps : State :=
  { State.reset with dev := { State.reset.dev with henOps := [waitingOp [], waitingOp [0]] } }

theorem twinOps_found : twinOps.dev.henOp? (waitingOp []).id = some (waitingOp []) ∧ twinOps.dev.inMesh (waitingOp []) = false := by
  decide +kernel

/-- Each operation of that number counts the steps of its own hens. -/
theorem twinOps_start : (twinOps.dev.henStart 0).henOps.map (·.stepsLeft) = [[], [(0, 0)]] := by decide +kernel

/-- Refutes O9: a start reaches each operation of its number, and one of other hens has other steps left. -/
theorem not_henOperationsRun : ¬ Obligations.HenOperationsRun := by
  unfold Obligations.HenOperationsRun
  intro h
  obtain ⟨⟨hstart, -⟩, -⟩ := h
  have hsteps : ∀ (s : State) (o : HenOp), s.dev.henOp? o.id = some o → o.started = false → s.dev.inMesh o = false →
      (s.dev.henStart o.id).henOps = s.dev.henOps.map (fun p => if p.id = o.id then
        { p with started := true, stepsLeft := o.hens.foldl (fun z u => tset z u (o.stepsOf u)) [] } else p) := by
    intro s o hfind hidle hmesh
    obtain ⟨-, hruns⟩ := hstart s o hfind hidle
    obtain ⟨e, hexec, hops, -⟩ := hruns hmesh
    have hrun : exec (.henStart o.id) s = .next (s.onDev (fun d => d.henStart o.id)) := rfl
    rw [hrun] at hexec
    injection hexec with hnext
    have he : s.dev.henStart o.id = e := congrArg State.dev hnext
    rw [he, hops]
  have htwin := congrArg (List.map (·.stepsLeft)) (hsteps twinOps (waitingOp []) twinOps_found.1 rfl twinOps_found.2)
  exact absurd (twinOps_start.symm.trans htwin) (by decide +kernel)

end Sys2Proof.Machine
end

section
/-! # What parts the operations may change: The matrix slot

The lemma about an operation has its name, in the order of the definitions. -/

namespace Sys2Proof.Machine
-- These proofs are many and small: elaborated all at once they take more threads than the checker has.
set_option Elab.async false
namespace Dev.onlyIn
variable {d₀ d e : Dev} {C : List Comp}

theorem addFlags (h₀ : d₀.onlyIn d C) {c : Nat} {f : Byte} (sub : among [.cq] C := by rfl) : d₀.onlyIn (d.addFlags c f) C :=
  h₀.into sub fun _ hd => .modCmd hd

theorem nextSeq (h₀ : d₀.onlyIn d C) {c : Nat} (sub : among [.cq] C := by rfl) : d₀.onlyIn (d.nextSeq c) C :=
  h₀.into sub fun _ hd => .modCmd hd

end Dev.onlyIn
end Sys2Proof.Machine
end

section
/-! # The matrix slot -/

namespace Sys2Proof.Machine

/-! ## The matrix slot (04 R103, R120) -/

/-- An MMA whose operands can be read puts its products in flight, and opens an accumulation where it starts one. -/
theorem Dev.mmaRun_flies {d0 d1 d2 d3 : Dev} {t : Nat} {c : Cmd} {w : W64} {bs : List ElemRead} {rows : List (List ElemRead)}
    {an : List (Int × Bool)}
    (hb : Dev.readElems (c.reach t) (d0.handle t (mmaB w)) true true d0
      (laneCoords ((d0.tile t).cursor (d0.handle t (mmaB w))) (mmaTerms (mmaPair w)) 0) = (d1, .ok bs))
    (ha : Dev.mmaRows (c.reach t) (d0.handle t (mmaA w)) ((d0.tile t).cursor (d0.handle t (mmaA w))) (mmaTerms (mmaPair w)) d1 (List.range 64)
      = (d2, .ok rows))
    (han : (if (d0.tile t).mmaOpens w ∧ mmaPair w ≠ 2 then Dev.laneAnchors t (c.reach t) w d2 (List.range 64)
      else (d2, .ok ((List.range 64).map (fun i => ((((d0.tile t).openAcc.map OpenAcc.anchors).getD []).getD i 0, false))))) = (d3, .ok an)) :
    d0.mmaRun t c w = d3.modTile t (fun x => { x with
      inflight := x.inflight ++ [.products ((d0.tile t).mmaOpens w) (mmaPair w == 2) ((List.range 64).map (fun i =>
        let p := (pairOps (mmaPair w) ((c.reach t).desc (d0.handle t (mmaA w))) ((c.reach t).desc (d0.handle t (mmaB w)))).products
          (an.getD i (0, false)).1 (rows.getD i []) bs
        let z := if (d0.tile t).mmaOpens w then (d0.tile t).seed w i else {}
        { p with seed := z.val, poison := p.poison || (an.getD i (0, false)).2 || z.poison }))]
      openAcc := if (d0.tile t).mmaOpens w then some ⟨mmaPair w, mmaAnchor w, an.map (·.1)⟩ else x.openAcc }) := by
  unfold Dev.mmaRun
  dsimp only
  rw [hb]
  dsimp only
  rw [ha]
  dsimp only
  rw [han]

theorem orAll_map {α : Type} (f : α → Byte) (l : List α) : l.foldl (fun z r => z ||| f r) 0 = orAll (l.map f) := by
  rw [orAll, List.foldl_map]

theorem tget_foldl_tset_range {α : Type} (f : α → Nat → α) (dflt : α) (n : Nat) (l : Tab α) (i : Nat) :
    tget ((List.range n).foldl (fun l i => tset l i (f (tget l dflt i) i)) l) dflt i
      = if i < n then f (tget l dflt i) i else tget l dflt i := by
  induction n with
  | zero => simp
  | succ n ih =>
    rw [List.range_succ, List.foldl_append, List.foldl_cons, List.foldl_nil]
    by_cases hi : i = n
    · subst hi
      rw [tget_tset_self, ih, if_neg (by omega), if_pos (by omega)]
    · rw [tget_tset_ne _ _ _ hi, ih]
      have hlt : i < n ↔ i < n + 1 := by omega
      simp only [hlt]

theorem Dev.takeSamples_none {d : Dev} {t : Nat} (n : Nat) (c : Cmd)
    (h : ∀ w b k cs q, (d.tile t).inflight.head? ≠ some (.readout w b k cs q)) : Dev.takeSamples n d t c = d := by
  cases n with
  | zero => rfl
  | succ n =>
    unfold Dev.takeSamples
    split
    next heq => exact absurd (by rw [heq]; rfl) (h _ _ _ _ _)
    next => rfl

theorem Dev.checkLanes_clean {d : Dev} (h : d.upsets = []) (t : Nat) : d.checkLanes t = d := by
  rw [Dev.checkLanes, h]
  rfl

theorem Dev.regDrop_clean {d : Dev} (h : d.upsets = []) (t r lo n : Nat) : d.regDrop t r lo n = d := by
  rw [Dev.regDrop, Dev.dropWords, h]
  rfl

theorem Dev.modTile_congr {d : Dev} {t : Nat} {f g : Tile → Tile} (h : f (d.tile t) = g (d.tile t)) : d.modTile t f = d.modTile t g :=
  congrArg (fun x => { d with tiles := tset d.tiles t x }) h

/-- The products that come first have landed in a tile's 64 lanes. -/
def Tile.landed (x : Tile) (start bf16 : Bool) (ps : List LaneProd) (rest : List Inflight) : Tile :=
  { x with
    inflight := rest
    lanes := (List.range 64).foldl (fun l i => tset l i ((tget l {} i).land start bf16 (ps.getD i {}))) x.lanes }

theorem Tile.landed_lane (x : Tile) (start bf16 : Bool) (ps : List LaneProd) (rest : List Inflight) {i : Nat} (hi : i < 64) :
    tget (x.landed start bf16 ps rest).lanes {} i = (tget x.lanes {} i).land start bf16 (ps.getD i {}) := by
  have hall := tget_foldl_tset_range (fun (l : Lane) i => l.land start bf16 (ps.getD i {})) {} 64 x.lanes i
  rw [if_pos hi] at hall
  unfold Tile.landed
  generalize List.range 64 = is at hall ⊢
  exact hall

theorem Tile.landed_others (x : Tile) (start bf16 : Bool) (ps : List LaneProd) (rest : List Inflight) :
    ({ x.landed start bf16 ps rest with lanes := x.lanes, inflight := x.inflight } : Tile) = x := by
  unfold Tile.landed
  cases x
  dsimp only

/-- Where no flipped bit stands and no readout waits behind them, the oldest products land and nothing else happens. -/
theorem Dev.productsLand_lands {d : Dev} {t : Nat} {c : Cmd} {start bf16 : Bool} {ps : List LaneProd} {rest : List Inflight}
    (hc : d.tileCmd t = some c) (hclean : d.upsets = []) (hfront : (d.tile t).inflight = .products start bf16 ps :: rest)
    (hrest : ∀ w b h cs q, rest.head? ≠ some (.readout w b h cs q)) :
    d.productsLand t = d.modTile t (fun x => x.landed start bf16 ps rest) := by
  have hdrop : (if start then d.dropUnit .accumulator t else d.checkLanes t) = d := by
    rw [Dev.checkLanes_clean hclean, Dev.dropUnit, hclean]
    exact (congrArg (ite (start = true) · d) (congrArg (fun us => { d with upsets := us }) hclean.symm)).trans (ite_self d)
  unfold Dev.productsLand
  rw [hfront, hc]
  dsimp only
  rw [hdrop]
  refine Dev.takeSamples_none _ _ ?_
  rw [Dev.tile_modTile_self]
  exact hrest

/-! ### The sample of an MRD (R103) -/

/-- An MRD reads its lanes: those of a BF16 accumulation keep what the readout left, and the command has the flags raised. -/
def Dev.readOut (d : Dev) (t : Nat) (c : Cmd) (w : W64) (bf16 : Bool) : Dev :=
  let rs := readLanes (d.tile t).lanes bf16 w
  (d.modTile t (fun x => { x with
    lanes := (List.range 64).foldl (fun l i =>
      match rs[i]? with
      | some r => if bf16 then tset l i r.2.2 else l
      | none => l) x.lanes })).addFlags c.id (orAll (rs.map (·.2.1)))

theorem Dev.readOut_frame (d : Dev) (t : Nat) (c : Cmd) (w : W64) (bf16 : Bool) :
    (d.readOut t c w bf16).cq = d.cq.flagged c.id (orAll ((readLanes (d.tile t).lanes bf16 w).map (·.2.1)))
      ∧ d.tilesBut (d.readOut t c w bf16) t ∧ d.onlyIn (d.readOut t c w bf16) [.tiles, .cq] :=
  ⟨rfl, fun u hu => by rw [Dev.readOut, Dev.addFlags, Dev.tile_modCmd, Dev.tile_modTile_ne _ _ hu], .addFlags (.modTile (d.onlyIn_refl _))⟩

theorem Dev.readOut_tile (d : Dev) (t : Nat) (c : Cmd) (w : W64) (bf16 : Bool) :
    ∃ ls : Tab Lane, (d.readOut t c w bf16).tile t = { d.tile t with lanes := ls } :=
  ⟨_, by rw [Dev.readOut, Dev.addFlags, Dev.tile_modCmd, Dev.tile_modTile_self]⟩

section
variable {d : Dev} (hclean : d.upsets = []) (t : Nat) (c : Cmd) (w : W64) (bf16 : Bool) (dst : Nat) (cs : List (BitVec 32)) (seq : Nat)
include hclean

/-- A sample through DST stores its 64 results. -/
theorem Dev.sample_dst (hw : mrdToDst w = true) :
    d.sample t c w bf16 dst cs seq = (d.readOut t c w bf16).store (c.writer (d.tile t).rank seq) (c.reach t) dst true none
      ((List.range 64).map (fun i => ⟨coordsAt cs i 0, mrdType (mrdMode w), ((readLanes (d.tile t).lanes bf16 w).getD i (0, 0, {})).1, none,
        ((readLanes (d.tile t).lanes bf16 w).getD i (0, 0, {})).2.2.poison⟩)) := by
  unfold Dev.sample
  rw [Dev.checkLanes_clean hclean]
  dsimp only
  rw [if_pos hw, orAll_map]
  rfl

/-- A sample to VD writes half of the register. -/
theorem Dev.sample_vd (hw : mrdToDst w = false) (hwritten : (d.tile t).written.contains (bitsOf w 18 5) = true) :
    d.sample t c w bf16 dst cs seq = (d.readOut t c w bf16).modTile t (fun x => x.setVreg (bitsOf w 18 5)
      (setHalf (x.now (bitsOf w 18 5)) (bitOf w 23)
        ((readLanes (d.tile t).lanes bf16 w).map (fun r => ⟨BitVec.ofNat 32 r.1, r.2.2.poison⟩)))) := by
  obtain ⟨ls, htile⟩ := d.readOut_tile t c w bf16
  unfold Dev.sample
  rw [Dev.checkLanes_clean hclean]
  dsimp only
  rw [if_neg (by simp [hw]), orAll_map]
  show ((d.readOut t c w bf16).regDrop t _ _ _).modTile t _ = _
  rw [Dev.regDrop_clean (d := d.readOut t c w bf16) hclean]
  refine Dev.modTile_congr ?_
  rw [htile]
  exact if_pos hwritten

end

/-! ### MRD as it issues -/

/-- The command has counted the readout, and its tile's bundle writes the register it names. -/
def Dev.mrdStart (d : Dev) (t : Nat) (c : Cmd) (w : W64) : Dev :=
  (d.nextSeq c.id).modTile t (fun x => { x with written := if mrdToDst w then x.written else bitsOf w 18 5 :: x.written })

theorem Dev.mrdStart_tile (d : Dev) (t : Nat) (c : Cmd) (w : W64) :
    (d.mrdStart t c w).tile t = { d.tile t with written := if mrdToDst w then (d.tile t).written else bitsOf w 18 5 :: (d.tile t).written } := by
  rw [Dev.mrdStart, Dev.tile_modTile_self]
  rfl

theorem Dev.mrdStart_frame (d : Dev) (t : Nat) (c : Cmd) (w : W64) :
    d.tilesBut (d.mrdStart t c w) t ∧ d.onlyIn (d.mrdStart t c w) [.tiles, .cq] :=
  ⟨fun u hu => by rw [Dev.mrdStart, Dev.tile_modTile_ne _ _ hu]; rfl, .modTile (.nextSeq (d.onlyIn_refl _))⟩

/-- Whether the readouts of a tile are of a BF16 accumulation. -/
def Tile.readsBf16 (x : Tile) : Bool :=
  match x.openAcc with
  | none => false
  | some o => o.pair == 2

theorem Dev.mrdRun_eq (d : Dev) (t : Nat) (c : Cmd) (w : W64) :
    d.mrdRun t c w =
      let h := d.handle t (bitsOf w 24 13)
      if (d.tile t).inflight.isEmpty then (d.mrdStart t c w).sample t c w (d.tile t).readsBf16 h ((d.tile t).cursor h) c.nextSeq
      else (d.mrdStart t c w).modTile t (fun x => { x with
        inflight := x.inflight ++ [.readout w (d.tile t).readsBf16 h ((d.tile t).cursor h) c.nextSeq] }) := by
  have hcursor : ∀ (k : Nat), ((d.mrdStart t c w).tile t).cursor k = (d.tile t).cursor k := fun k => by
    rw [Dev.mrdStart_tile]
    rfl
  dsimp only
  by_cases hfree : (d.tile t).inflight.isEmpty
  · rw [if_pos hfree]
    exact if_pos hfree
  · rw [if_neg hfree]
    refine (if_neg hfree).trans (Dev.modTile_congr ?_)
    show ({ (d.mrdStart t c w).tile t with inflight := _ ++ [.readout w _ _ (((d.mrdStart t c w).tile t).cursor _) _] } : Tile) = _
    rw [hcursor]
    rfl

/-- An MRD about to issue that is legal runs. -/
theorem exec_mrd {s : State} {t : TileId} {c : Cmd} {w : W64} (h : s.dev.issuing t 0 2 c w) (hl : s.dev.mrdReason t c w = 0) :
    exec (.mrd t) s = .next { s with dev := (s.dev.mrdRun t c w).slotDone t 0 } := by
  obtain ⟨-, -, -, -, -, hop, -, -⟩ := id h
  exact State.onDev_next (Dev.issue_performs h (wordReason_defined (by rw [hop]; decide) (by rw [hop]; decide)) hl (by simp))

section
variable {d : Dev} {t : Nat} {c : Cmd} {w : W64} (hclean : d.upsets = [])

/-- Behind products in flight an MRD waits. -/
theorem Dev.mrdRun_waits (hbusy : (d.tile t).inflight ≠ []) :
    let e := (d.mrdRun t c w).slotDone t 0
    let h := d.handle t (bitsOf w 24 13)
    (e.tile t).inflight = (d.tile t).inflight ++ [.readout w (d.tile t).readsBf16 h ((d.tile t).cursor h) c.nextSeq]
      ∧ (e.tile t).vregs = (d.tile t).vregs ∧ (e.tile t).lanes = (d.tile t).lanes ∧ d.tilesBut e t ∧ d.onlyIn e [.tiles, .cq] := by
  have hrun := d.mrdRun_eq t c w
  dsimp only at hrun ⊢
  rw [if_neg (by simpa using hbusy)] at hrun
  rw [hrun]
  obtain ⟨hbut, honly⟩ := d.mrdStart_frame t c w
  have hframe := (d.mrdStart t c w).modTile_frame t (fun x => { x with inflight := x.inflight
    ++ [.readout w (d.tile t).readsBf16 (d.handle t (bitsOf w 24 13)) ((d.tile t).cursor (d.handle t (bitsOf w 24 13))) c.nextSeq] })
  obtain ⟨hwork, -, hbut2, honly2⟩ := Dev.slotDone_after 0 hframe
  rw [Dev.tile_modTile_self, Dev.mrdStart_tile] at hwork
  obtain ⟨hv, hlanes, -, -, -, -, hinflight, -⟩ := hwork
  exact ⟨hinflight, hv, hlanes, Dev.tilesBut_trans hbut hbut2, Dev.onlyIn.after honly honly2 rfl⟩

include hclean

/-- With nothing in flight an MRD to VD writes half of its register. -/
theorem Dev.mrdRun_vd (hfree : (d.tile t).inflight = []) (hw : mrdToDst w = false) :
    let e := (d.mrdRun t c w).slotDone t 0
    let rs := readLanes (d.tile t).lanes (d.tile t).readsBf16 w
    (e.tile t).now (bitsOf w 18 5) = setHalf ((d.tile t).now (bitsOf w 18 5)) (bitOf w 23)
        (rs.map (fun r => ⟨BitVec.ofNat 32 r.1, r.2.2.poison⟩))
      ∧ (∀ q : Nat, q ≠ bitsOf w 18 5 → (e.tile t).now q = (d.tile t).now q)
      ∧ e.cq = (d.nextSeq c.id).cq.flagged c.id (orAll (rs.map (·.2.1))) ∧ d.tilesBut e t ∧ d.onlyIn e [.tiles, .cq] := by
  have hrun := d.mrdRun_eq t c w
  have hstart := d.mrdStart_tile t c w
  obtain ⟨hbut, honly⟩ := d.mrdStart_frame t c w
  have hcq : (d.mrdStart t c w).cq = (d.nextSeq c.id).cq := rfl
  have hclean1 : (d.mrdStart t c w).upsets = [] := hclean
  dsimp only at hrun ⊢
  rw [if_pos (by simp [hfree])] at hrun
  generalize d.mrdStart t c w = d1 at *
  rw [Dev.sample_vd hclean1 t c w _ _ _ _ hw (by rw [hstart]; simp [hw])] at hrun
  rw [hrun]
  obtain ⟨hcq1, hbut1, honly1⟩ := d1.readOut_frame t c w (d.tile t).readsBf16
  obtain ⟨ls, hread⟩ := d1.readOut_tile t c w (d.tile t).readsBf16
  have hlanes : (d1.tile t).lanes = (d.tile t).lanes := by rw [hstart]
  rw [hlanes] at hcq1 ⊢
  generalize d1.readOut t c w (d.tile t).readsBf16 = d2 at *
  obtain ⟨⟨hv, -⟩, -, hbut2, honly2⟩ := Dev.slotDone_after 0 (d2.modTile_frame t (fun x => x.setVreg (bitsOf w 18 5)
    (setHalf (x.now (bitsOf w 18 5)) (bitOf w 23)
      ((readLanes (d.tile t).lanes (d.tile t).readsBf16 w).map (fun r => ⟨BitVec.ofNat 32 r.1, r.2.2.poison⟩)))))
  rw [Dev.tile_modTile_self] at hv
  have hnow : ∀ q, (d2.tile t).now q = (d.tile t).now q := fun q => by rw [hread, hstart]; rfl
  refine ⟨?_, fun q hq => ?_, ?_, Dev.tilesBut_trans (Dev.tilesBut_trans hbut hbut1) hbut2, Dev.onlyIn.after (Dev.onlyIn_trans honly honly1) honly2 rfl⟩
  · rw [Tile.now, hv, ← hnow]
    exact Tile.now_setVreg_self _ _ _
  · rw [Tile.now, hv, ← hnow]
    exact Tile.now_setVreg_ne _ _ hq
  · rw [(honly2 .cq rfl : _ = _), hcq1, hcq]

/-- With nothing in flight an MRD through DST stores its results. -/
theorem Dev.mrdRun_dst (hfree : (d.tile t).inflight = []) (hw : mrdToDst w = true) :
    let e := (d.mrdRun t c w).slotDone t 0
    let h := d.handle t (bitsOf w 24 13)
    let rs := readLanes (d.tile t).lanes (d.tile t).readsBf16 w
    ∃ d1 : Dev, d.onlyIn d1 [.tiles, .cq] ∧ d1.cq = (d.nextSeq c.id).cq.flagged c.id (orAll (rs.map (·.2.1)))
      ∧ let d2 := d1.store (c.writer (d.tile t).rank c.nextSeq) (c.reach t) h true none ((List.range 64).map (fun i =>
          ⟨coordsAt ((d.tile t).cursor h) i 0, mrdType (mrdMode w), (rs.getD i (0, 0, {})).1, none, (rs.getD i (0, 0, {})).2.2.poison⟩))
        (d2.tile t).sameWork (e.tile t) ∧ d2.tilesBut e t ∧ d2.onlyIn e [.tiles] := by
  have hrun := d.mrdRun_eq t c w
  have hstart := d.mrdStart_tile t c w
  obtain ⟨-, honly⟩ := d.mrdStart_frame t c w
  have hcq : (d.mrdStart t c w).cq = (d.nextSeq c.id).cq := rfl
  have hclean1 : (d.mrdStart t c w).upsets = [] := hclean
  dsimp only at hrun ⊢
  rw [if_pos (by simp [hfree])] at hrun
  generalize d.mrdStart t c w = d1 at *
  have hlanes : (d1.tile t).lanes = (d.tile t).lanes := by rw [hstart]
  have hrank : (d1.tile t).rank = (d.tile t).rank := by rw [hstart]
  obtain ⟨hcq1, -, honly1⟩ := d1.readOut_frame t c w (d.tile t).readsBf16
  rw [Dev.sample_dst hclean1 t c w _ _ _ _ hw, hlanes, hrank] at hrun
  rw [hlanes] at hcq1
  rw [hrun]
  obtain ⟨hwork, -, hbut, honly2⟩ := Dev.slotDone_frame ((d1.readOut t c w (d.tile t).readsBf16).store _ _ _ _ _ _) t 0
  exact ⟨_, Dev.onlyIn_trans honly honly1, hcq1.trans (by rw [hcq]), hwork, hbut, honly2⟩

end

/-- Settles O5: an MMA puts its products in flight, the oldest land, and an MRD reads the lanes or waits. -/
theorem matrixInstructionsRun : Obligations.MatrixInstructionsRun := by
  unfold Obligations.MatrixInstructionsRun
  refine ⟨fun s t c w d0 d1 d2 d3 bs rows an hissue => ?_, fun s t c start bf16 ps rest hc hclean hfront hrest => ?_, fun s t c w hissue hl => ?_⟩
  · obtain ⟨-, -, -, -, -, hop, -, -⟩ := id hissue
    have hword : wordReason 0 w = 0 := wordReason_defined (by rw [hop]; decide) (by rw [hop]; decide)
    intro x rc ha hb pair hlegal
    refine ⟨fun hwait => State.onDev_next ?_, ?_⟩
    · exact (Dev.issue_awaits (run := fun d c w => d.mmaRun t c w) (lists := fun d c w => d.mmaLists t c w) hissue hword hlegal hwait).trans
        (if_neg (by simp))
    · intro hawait hbs hrows han lane
      refine ⟨_, State.onDev_next (Dev.issue_awaits (reason := fun d c w => d.mmaReason t c w) (run := fun d c w => d.mmaRun t c w)
        (lists := fun d c w => d.mmaLists t c w) hissue hword hlegal hawait), ?_⟩
      rw [if_pos rfl, Dev.mmaRun_flies hbs hrows han]
      obtain ⟨⟨hv, hlanes, -, houts, -, -, hinflight, hopen, -⟩, -, hbut, honly⟩ := Dev.slotDone_after 0 (d3.modTile_frame t (fun x' => { x' with
        inflight := x'.inflight ++ [.products (x.mmaOpens w) (pair == 2) ((List.range 64).map lane)]
        openAcc := if x.mmaOpens w then some ⟨pair, mmaAnchor w, an.map (·.1)⟩ else x'.openAcc }))
      rw [Dev.tile_modTile_self] at hv hlanes houts hinflight hopen
      exact ⟨hinflight, hopen, hlanes, hv, houts, hbut, honly⟩
  · refine ⟨_, State.onDev_next (Dev.productsLand_lands hc hclean hfront hrest), ?_, fun i hi => ?_, ?_, s.dev.modTile_frame t _⟩
    · rw [Dev.tile_modTile_self]
      rfl
    · rw [Dev.tile_modTile_self]
      exact Tile.landed_lane _ start bf16 ps rest hi
    · rw [Dev.tile_modTile_self]
      exact Tile.landed_others _ start bf16 ps rest
  · obtain ⟨-, -, -, -, -, -, hclean, -⟩ := id hissue
    intro x bf16
    obtain ⟨b, hb⟩ : ∃ b, b = bf16 := ⟨_, rfl⟩
    have hreads : b = x.readsBf16 := hb
    rw [← hb, hreads]
    clear hb
    exact ⟨_, exec_mrd hissue hl, Dev.mrdRun_waits, Dev.mrdRun_vd hclean, Dev.mrdRun_dst hclean⟩

end Sys2Proof.Machine
end

section
/-! # What parts the operations may change: Moves and messages between tiles

The lemma about an operation has its name, in the order of the definitions. -/

namespace Sys2Proof.Machine
-- These proofs are many and small: elaborated all at once they take more threads than the checker has.
set_option Elab.async false
namespace Dev.onlyIn
variable {d₀ d e : Dev} {C : List Comp}

theorem pushOp (h₀ : d₀.onlyIn d C) {t tag : Nat} {k : OutKind} (sub : among [.tiles] C := by rfl) : d₀.onlyIn (d.pushOp t tag
  k) C :=
  h₀.into sub fun _ hd => .modTile hd

end Dev.onlyIn
end Sys2Proof.Machine
end

section
/-! # Moves and messages between tiles -/

namespace Sys2Proof.Machine

/-! ## Moves and messages between tiles (04 R108, R109, R111) -/

theorem Dev.pushOp_tile (d : Dev) (t tag : Nat) (k : OutKind) :
    (d.pushOp t tag k).tile t = { d.tile t with outs := (d.tile t).outs ++ [⟨(d.tile t).nextOp, tag, k⟩], nextOp := (d.tile t).nextOp + 1 } := by
  rw [Dev.pushOp, Dev.tile_modTile_self]

/-- What an instruction of the move slot has made outstanding once it issues. -/
def Dev.outstanding (d : Dev) (t : Nat) (c : Cmd) (tag : Nat) (k : OutKind) : Dev := (d.nextSeq c.id).pushOp t tag k

theorem Dev.outstanding_tile (d : Dev) (t : Nat) (c : Cmd) (tag : Nat) (k : OutKind) : (d.outstanding t c tag k).tile t
    = { d.tile t with outs := (d.tile t).outs ++ [⟨(d.tile t).nextOp, tag, k⟩], nextOp := (d.tile t).nextOp + 1 } :=
  (d.nextSeq c.id).pushOp_tile t tag k

theorem Dev.outstanding_frame (d : Dev) (t : Nat) (c : Cmd) (tag : Nat) (k : OutKind) :
    d.tilesBut (d.outstanding t c tag k) t ∧ d.onlyIn (d.outstanding t c tag k) [.tiles, .cq] :=
  ⟨fun u hu => by rw [Dev.outstanding, Dev.pushOp, Dev.tile_modTile_ne _ _ hu]; rfl, .pushOp (.nextSeq (d.onlyIn_refl _))⟩

/-- An operation outstanding, its slot done: nothing else of the tile changed. -/
theorem Dev.outstanding_slotDone (d : Dev) (t s : Nat) (c : Cmd) (tag : Nat) (k : OutKind) :
    let e := (d.outstanding t c tag k).slotDone t s
    (e.tile t).outs = (d.tile t).outs ++ [⟨(d.tile t).nextOp, tag, k⟩]
      ∧ ({ e.tile t with outs := (d.tile t).outs } : Tile).sameWork (d.tile t) ∧ d.tilesBut e t ∧ d.onlyIn e [.tiles, .cq] := by
  obtain ⟨hbut, honly⟩ := d.outstanding_frame t c tag k
  obtain ⟨hwork, -, hbut2, honly2⟩ := (d.outstanding t c tag k).slotDone_frame t s
  rw [Dev.outstanding_tile] at hwork
  obtain ⟨hv, hl, har, houts, hrest⟩ := hwork
  refine ⟨houts, ⟨hv.symm, hl.symm, har.symm, rfl, ?_⟩, Dev.tilesBut_trans hbut hbut2, Dev.onlyIn.after honly honly2 rfl⟩
  obtain ⟨h1, h2, h3, h4, h5, h6, h7, h8, h9, h10, h11, h12⟩ := hrest
  exact ⟨h1.symm, h2.symm, h3.symm, h4.symm, h5.symm, h6.symm, h7.symm, h8.symm, h9.symm, h10.symm, h11.symm, h12.symm⟩

/-- A tile's move asks for a host granule. -/
def opRead (func t id time : Nat) (g : HostGran) : OutRead := ⟨func, g.addr, 64, .op t id, g.vaddr, g.handle, time⟩

/-- The device has sent the reads of a tile's move. -/
def Dev.sendOps (d : Dev) (c : Cmd) (t id : Nat) (gs : List HostGran) : Dev :=
  gs.foldl (fun d g => d.sendRead (some c.id)
    { func := c.func, addr := g.addr, len := 64, purpose := .op t id, vaddr := g.vaddr, handle := g.handle, sentAt := 0 }) d

theorem Dev.sendOps_asks (c : Cmd) (t id : Nat) (gs : List HostGran) {d : Dev} (hm : d.masters c.func = true) :
    d.sendOps c t id gs = { d with hif := { d.hif with reads := d.hif.reads ++ gs.map (opRead c.func t id d.time) } } := by
  induction gs generalizing d with
  | nil => simp [Dev.sendOps]
  | cons g gs ih =>
    have hcons : d.sendOps c t id (g :: gs) = ({ d with hif := { d.hif with
        reads := d.hif.reads ++ [opRead c.func t id d.time g] } } : Dev).sendOps c t id gs := by
      unfold Dev.sendOps
      rw [List.foldl_cons, Dev.sendRead, if_neg (by simp [hm])]
      rfl
    have hm' : ({ d with hif := { d.hif with reads := d.hif.reads ++ [opRead c.func t id d.time g] } } : Dev).masters c.func = true := hm
    rw [hcons, ih hm']
    simp

theorem Dev.sendOps_frame (c : Cmd) (t id : Nat) (gs : List HostGran) {d : Dev} (hm : d.masters c.func = true) :
    (d.sendOps c t id gs).hif.reads = d.hif.reads ++ gs.map (opRead c.func t id d.time) ∧ d.onlyIn (d.sendOps c t id gs) [.hif] := by
  rw [Dev.sendOps_asks c t id gs hm]
  exact ⟨rfl, .set_hif (d.onlyIn_refl _)⟩

/-- What a MOVE's issue does, by the host granules it needs and the slots it writes. -/
theorem Dev.moveRun_eq (d : Dev) (t : Nat) (c : Cmd) (w : W64) :
    let p := d.planOf t c w 36 40 (bitOf w 43)
    let id := (d.tile t).nextOp
    let host := d.hostGrans (c.reach t).toPort p.src (!isRaw ((c.reach t).desc p.dst).elem) p.sources
    let port := (d.planPlaces t c p).any (fun q => isSlot q.loc)
    let d1 := d.outstanding t c (bitsOf w 6 4) (if port then .slots p else .move p)
    d.moveRun t c w = if port ∧ host.isEmpty ∧ !(d.tile t).slotsBefore id then d1.writeSlots t id c p else d1.sendOps c t id host := by
  have hbefore : ∀ tag k, ((d.outstanding t c tag k).tile t).slotsBefore (d.tile t).nextOp = (d.tile t).slotsBefore (d.tile t).nextOp :=
    fun tag k => by
      rw [Dev.outstanding_tile]
      simp [Tile.slotsBefore]
  dsimp only
  rw [← hbefore (bitsOf w 6 4) (if (d.planPlaces t c (d.planOf t c w 36 40 (bitOf w 43))).any (fun q => isSlot q.loc)
    then .slots (d.planOf t c w 36 40 (bitOf w 43)) else .move (d.planOf t c w 36 40 (bitOf w 43)))]
  rfl

/-- The requests left for the slots that a plan has written. -/
def Dev.slotReqs (d d2 : Dev) (t id : Nat) (c : Cmd) (p : MovePlan) : List AtomReq :=
  (slotsWritten t (d.planPlaces t c p) (elemBytes ((c.reach t).desc p.dst).elem)).map
    (fun z => ⟨z.1, z.2, id, p.dst, p.seq, d2.slots.bytes (t * 4096 + 64 * z.1) 64⟩)

theorem Dev.writeSlots_writes {d d2 : Dev} {t id : Nat} {c : Cmd} {p : MovePlan} (h : d.runPlan t c p = (d2, true)) :
    d.writeSlots t id c p = d2.modTile t (fun x => { x with
      atoms := x.atoms ++ d.slotReqs d2 t id c p
      outs := x.outs.map (fun o => if o.id = id then { o with kind := .atomics } else o) }) := by
  unfold Dev.writeSlots
  rw [h]
  rfl

/-- A MOVE that has performed its plan, or whose message has left, is outstanding no longer. -/
theorem Dev.dropOp_drops (d : Dev) (t id : Nat) :
    ((d.dropOp t id).tile t).outs = (d.tile t).outs.filter (fun o => o.id != id)
      ∧ ({ (d.dropOp t id).tile t with outs := (d.tile t).outs } : Tile) = d.tile t ∧ d.tilesBut (d.dropOp t id) t
      ∧ d.onlyIn (d.dropOp t id) [.tiles] := by
  have htile : (d.dropOp t id).tile t = { d.tile t with outs := (d.tile t).outs.filter (fun o => o.id != id) } := by
    rw [Dev.dropOp, Dev.tile_modTile_self]
  rw [htile]
  exact ⟨rfl, rfl, d.modTile_frame t _⟩

/-- The message of an operation is on its way. -/
def Tile.sent (x : Tile) (id : Nat) (p : MovePlan) (dt a : Nat) (its : List Item) : Tile :=
  { x with outs := x.outs.map (fun o => if o.id = id then { o with kind := .sent p dt a its } else o) }

theorem Tile.pendingTag_sent {x : Tile} {id g : Nat} (p : MovePlan) (dt a : Nat) (its : List Item)
    (h : x.outs.all (fun o => o.id == id || o.tag != g) = true) : (x.sent id p dt a its).pendingTag g = false := by
  simp only [Tile.pendingTag, Tile.sent, List.any_map, List.any_eq_false, Function.comp_apply]
  intro o ho
  have hor := List.all_eq_true.mp h o ho
  by_cases hid : o.id = id
  · simp [hid, OutKind.counts]
  · simp only [hid, if_false]
    simp_all

/-- A message has arrived: its tile's counter counts it where no access failed. -/
theorem Dev.arrive_counts {d d1 : Dev} {t id dt a : Nat} {c : Cmd} {p : MovePlan} {its : List Item} {ok : Bool}
    (h : d.deliver t dt c p true its = (d1, ok)) :
    let e := d.arrive t id c p dt a its
    tget (e.tile dt).arrival 0 a = (if ok then tget (d1.tile dt).arrival 0 a + 1 else tget (d1.tile dt).arrival 0 a)
      ∧ (∀ b : Nat, b ≠ a → tget (e.tile dt).arrival 0 b = tget (d1.tile dt).arrival 0 b)
      ∧ (e.tile t).outs = (d1.tile t).outs.filter (fun o => o.id != id)
      ∧ (∀ u : Nat, u ≠ t → u ≠ dt → e.tile u = d1.tile u) ∧ d1.onlyIn e [.tiles] := by
  have hdrop : ∀ (d : Dev) (u : Nat), ((d.dropOp t id).tile u).arrival = (d.tile u).arrival := fun d u => by
    obtain ⟨-, hsame, hbut, -⟩ := d.dropOp_drops t id
    by_cases hu : u = t
    · rw [hu]
      have harrival := congrArg Tile.arrival hsame
      exact harrival
    · rw [hbut u hu]
  have hkeep : ∀ u : Nat, u ≠ t → (d1.dropOp t id).tile u = d1.tile u := (d1.dropOp_drops t id).2.2.1
  unfold Dev.arrive
  rw [h]
  cases ok with
  | false =>
    dsimp only
    rw [hdrop]
    exact ⟨rfl, fun _ _ => rfl, (d1.dropOp_drops t id).1, fun u hu _ => hkeep u hu, (d1.dropOp_drops t id).2.2.2⟩
  | true =>
    dsimp only
    rw [hdrop, Dev.tile_modTile_self]
    obtain ⟨houts, -, hbut, honly⟩ := (d1.modTile dt (fun x => { x with arrival := tset x.arrival a (tget x.arrival 0 a + 1) })).dropOp_drops t id
    refine ⟨tget_tset_self _ _ _ _, fun b hb => tget_tset_ne _ _ _ hb, houts.trans ?_, fun u hu hdt => ?_,
      Dev.onlyIn_trans (d1.modTile_frame dt _).2 honly⟩
    · by_cases hdt : t = dt
      · subst hdt
        rw [Dev.tile_modTile_self]
      · rw [Dev.tile_modTile_ne _ _ hdt]
    · rw [hbut u hu, Dev.tile_modTile_ne _ _ hdt]

/-- A MOVE as it issues: it becomes outstanding, asks for its host granules, or writes its slots. -/
theorem Dev.moveRun_issues (d : Dev) (t : Nat) (c : Cmd) (w : W64) :
    let p := d.planOf t c w 36 40 (bitOf w 43)
    let x := d.tile t
    let host := d.hostGrans (c.reach t).toPort p.src (!isRaw ((c.reach t).desc p.dst).elem) p.sources
    let port := (d.planPlaces t c p).any (fun q => isSlot q.loc)
    let out : OutOp := ⟨x.nextOp, bitsOf w 6 4, if port then .slots p else .move p⟩
    let e := (d.moveRun t c w).slotDone t 2
    (host = [] → port = false ∨ x.slotsBefore x.nextOp = true → (e.tile t).outs = x.outs ++ [out]
        ∧ ({ e.tile t with outs := x.outs } : Tile).sameWork x ∧ d.tilesBut e t ∧ d.onlyIn e [.tiles, .cq])
      ∧ (host ≠ [] → d.masters c.func = true → (e.tile t).outs = x.outs ++ [out]
        ∧ e.hif.reads = d.hif.reads ++ host.map (opRead c.func t x.nextOp d.time) ∧ d.tilesBut e t ∧ d.onlyIn e [.tiles, .cq, .hif])
      ∧ (∀ d2 : Dev, host = [] → port = true → x.slotsBefore x.nextOp = false →
        let d1 := d.outstanding t c (bitsOf w 6 4) (.slots p)
        d1.runPlan t c p = (d2, true) →
        (e.tile t).atoms = (d2.tile t).atoms ++ d1.slotReqs d2 t x.nextOp c p
          ∧ (e.tile t).outs = (d2.tile t).outs.map (fun o => if o.id = x.nextOp then { o with kind := .atomics } else o)
          ∧ d2.tilesBut e t ∧ d2.onlyIn e [.tiles]) := by
  have heq := d.moveRun_eq t c w
  dsimp only at heq ⊢
  generalize d.planOf t c w 36 40 (bitOf w 43) = p at *
  generalize d.hostGrans (c.reach t).toPort p.src (!isRaw ((c.reach t).desc p.dst).elem) p.sources = host at *
  generalize hport : (d.planPlaces t c p).any (fun q => isSlot q.loc) = port at *
  refine ⟨fun hhost hslots => ?_, fun hhost hm => ?_, fun d2 hhost hslots hfirst hplan => ?_⟩
  · rw [if_neg (by rcases hslots with h | h <;> simp [h]), hhost] at heq
    rw [heq]
    exact d.outstanding_slotDone t 2 c _ _
  · rw [if_neg (by simp [hhost])] at heq
    obtain ⟨hbut, honly⟩ := d.outstanding_frame t c (bitsOf w 6 4) (if port = true then .slots p else .move p)
    have htile := d.outstanding_tile t c (bitsOf w 6 4) (if port = true then .slots p else .move p)
    generalize d.outstanding t c (bitsOf w 6 4) (if port = true then .slots p else .move p) = d1 at *
    have hhif : d1.hif = d.hif := honly .hif rfl
    have htime : d1.time = d.time := honly .time rfl
    obtain ⟨hreads, honly2⟩ := Dev.sendOps_frame c t (d.tile t).nextOp host ((Dev.masters_of_fns (congrArg Hif.fns hhif) c.func).trans hm)
    rw [heq]
    generalize d1.sendOps c t (d.tile t).nextOp host = d2 at *
    have htiles : d2.tiles = d1.tiles := honly2 .tiles rfl
    obtain ⟨⟨-, -, -, houts, -⟩, -, hbut3, honly3⟩ := d2.slotDone_frame t 2
    have hframe : d.onlyIn d2 [.tiles, .cq, .hif] := Dev.onlyIn.after (Dev.onlyIn_sub _ honly rfl) honly2 rfl
    refine ⟨?_, ?_, fun u hu => ?_, Dev.onlyIn.after hframe honly3 rfl⟩
    · rw [houts, Dev.tile_congr htiles, htile]
    · rw [(honly3 .hif rfl : _ = _), hreads, hhif, htime]
    · rw [hbut3 u hu, Dev.tile_congr htiles, hbut u hu]
  · rw [if_pos (by simp [hslots, hhost, hfirst]), if_pos hslots, Dev.writeSlots_writes hplan] at heq
    rw [heq]
    obtain ⟨hwork, -, hbut, honly⟩ := Dev.slotDone_after 2 (d2.modTile_frame t (fun x => { x with
      atoms := x.atoms ++ (d.outstanding t c (bitsOf w 6 4) (.slots p)).slotReqs d2 t (d.tile t).nextOp c p
      outs := x.outs.map (fun o => if o.id = (d.tile t).nextOp then { o with kind := .atomics } else o) }))
    rw [Dev.tile_modTile_self] at hwork
    obtain ⟨-, -, -, houts, -, -, -, -, -, -, -, -, hatoms, -⟩ := hwork
    exact ⟨hatoms, houts, hbut, honly⟩

/-- A legal instruction whose list entries have come is performed, and its slot has issued. -/
theorem Dev.issue_runs {d d0 : Dev} {t s op : Nat} {c : Cmd} {w : W64} {reason : Dev → Cmd → W64 → Nat} {run : Dev → Cmd → W64 → Dev}
    {lists : Dev → Cmd → W64 → List (Nat × List (List Int))} (h : d.issuing t s op c w) (hd : wordReason s w = 0) (hl : reason d c w = 0)
    (ha : d.awaitLists c t (lists d c w) = (d0, .ok true)) : d.issue t s op reason run lists = (run d0 c w).slotDone t s :=
  (Dev.issue_awaits h hd hl ha).trans (if_pos rfl)

/-- Settles O6: what a MOVE and an MSEND do at their issue, and what their ends do. -/
theorem movesRunAndComplete : Obligations.MovesRunAndComplete := by
  unfold Obligations.MovesRunAndComplete
  have hword : ∀ {op : Nat} {w : W64}, opOf w = op → opDefined 2 op = true → op ≠ 0 → wordReason 2 w = 0 := fun hop hd hz =>
    wordReason_defined (by rw [hop]; exact hd) (by rw [hop]; exact hz)
  refine ⟨⟨fun s t c w d0 hissue hlegal hawait => ?_, fun s t c w d0 hissue hlegal hawait => ?_⟩,
    fun s t c i id tag p hc hout hreads => ?_, fun s t c i id tag dt a p d1 its hc hout hplan => ?_,
    fun s t c i id tag dt a p its d1 ok hc hout hdeliver => ?_⟩
  · obtain ⟨-, -, -, -, -, hop, -, -⟩ := id hissue
    have hrun : s.dev.moveIssue t = (d0.moveRun t c w).slotDone t 2 :=
      Dev.issue_runs (reason := fun d c w => d.moveReason t c w (bitsOf w 44 20 != 0) (12 < bitsOf w 36 4 || 6 < bitsOf w 40 3))
        (run := fun d c w => d.moveRun t c w) (lists := fun d c w => c.moveLists t (d.planOf t c w 36 40 (bitOf w 43)))
        hissue (hword hop (by decide) (by decide)) hlegal hawait
    exact ⟨_, State.onDev_next hrun, d0.moveRun_issues t c w⟩
  · obtain ⟨-, -, -, -, -, hop, -, -⟩ := id hissue
    have hrun : s.dev.msendIssue t = (d0.outstanding t c (bitsOf w 6 4)
        (.msend (d0.planOf t c w 45 49 false) (t / 24 * 24 + bitsOf w 36 5) (bitsOf w 41 4))).slotDone t 2 :=
      Dev.issue_runs
        (reason := fun d c w => d.moveReason t c w (bitsOf w 52 12 != 0) (12 < bitsOf w 45 4 || 6 < bitsOf w 49 3 || 23 < bitsOf w 36 5))
        (run := fun d c w => d.outstanding t c (bitsOf w 6 4)
          (.msend (d.planOf t c w 45 49 false) (t / 24 * 24 + bitsOf w 36 5) (bitsOf w 41 4)))
        (lists := fun d c w => c.moveLists t (d.planOf t c w 45 49 false)) hissue (hword hop (by decide) (by decide)) hlegal hawait
    exact ⟨_, State.onDev_next hrun, d0.outstanding_slotDone t 2 c _ _⟩
  · have hrun : s.dev.moveComplete t i = (s.dev.runPlan t c p).1.dropOp t id := by
      unfold Dev.moveComplete
      rw [hout, hc]
      exact if_neg (by simp [hreads])
    exact ⟨_, State.onDev_next hrun, (s.dev.runPlan t c p).1.dropOp_drops t id⟩
  · have hrun : s.dev.moveComplete t i = d1.modTile t (fun x => x.sent id p dt a its) := by
      unfold Dev.moveComplete
      rw [hout, hc]
      dsimp only
      unfold Dev.depart
      rw [hplan]
      rfl
    refine ⟨_, State.onDev_next hrun, ?_, fun g hg => ?_, ?_, d1.modTile_frame t _⟩
    · rw [Dev.tile_modTile_self]
      rfl
    · rw [Dev.tile_modTile_self]
      exact Tile.pendingTag_sent p dt a its hg
    · rw [Dev.tile_modTile_self]
      rfl
  · have hrun : s.dev.msendArrival t i = s.dev.arrive t id c p dt a its := by
      unfold Dev.msendArrival
      rw [hout, hc]
    exact ⟨_, State.onDev_next hrun, Dev.arrive_counts hdeliver⟩

end Sys2Proof.Machine
end

section
/-! # What parts the operations may change: COPY

The lemma about an operation has its name, in the order of the definitions. -/

namespace Sys2Proof.Machine
-- These proofs are many and small: elaborated all at once they take more threads than the checker has.
set_option Elab.async false
namespace Dev.onlyIn
variable {d₀ d e : Dev} {C : List Comp}

theorem begin_ (h₀ : d₀.onlyIn d C) {x : Cmd} (sub : among [.regs, .cq, .sect] C := by rfl) : d₀.onlyIn (d.begin_ x) C :=
  h₀.into sub fun _ hd => .foldl (.set_cq hd) (fun _ _ h3 => .sectorWake h3)

end Dev.onlyIn
end Sys2Proof.Machine
end

section
/-! # COPY -/

namespace Sys2Proof.Machine

/-! ## COPY (05 R79, R80, R142) -/

theorem Dev.dropUnit_clean {d : Dev} (h : d.upsets = []) (arr : SramArray) (u : Nat) : d.dropUnit arr u = d := by
  rw [Dev.dropUnit, h]
  exact congrArg (fun us => { d with upsets := us }) h.symm

theorem Dev.descRegs_clean {d : Dev} (h : d.upsets = []) (u : Nat) (hs : List Nat) : d.descRegs u hs = (d, none) := by
  rw [Dev.descRegs, h]
  rfl

/-- A function that may send sends each of a command's reads. -/
theorem Dev.foldl_sendRead_asks {α : Type} (c : Nat) {func : Nat} {f : α → OutRead} (hf : ∀ a, (f a).func = func) (gs : List α) {d : Dev}
    (hm : d.masters func = true) : gs.foldl (fun d g => d.sendRead (some c) (f g)) d
      = { d with hif := { d.hif with reads := d.hif.reads ++ gs.map (fun g => { f g with sentAt := d.time }) } } := by
  induction gs generalizing d with
  | nil => simp
  | cons g gs ih =>
    have hstep : d.sendRead (some c) (f g) = { d with hif := { d.hif with reads := d.hif.reads ++ [{ f g with sentAt := d.time }] } } := by
      rw [Dev.sendRead, if_neg (by simp [hf, hm])]
    have hm' : ({ d with hif := { d.hif with reads := d.hif.reads ++ [{ f g with sentAt := d.time }] } } : Dev).masters func = true := hm
    rw [List.foldl_cons, hstep, ih hm']
    simp

/-- What a head is as a COPY whose descriptors are good. -/
def Cmd.copying (x : Cmd) (rc : Reach) (time : Nat) : Cmd :=
  { x with
    descs := rc.descs, lists := rc.lists, phase := .running, start := time
    engines := [⟨.dma, 4 * copySect x.word + bitsOf x.word 163 2⟩] }

theorem Dev.checkCopy_passes {d d2 : Dev} {x : Cmd} {rc : Reach} (hslot : x.slot = 0)
    (hvalid : d.validate (d.cpOf x.part x.ctx) [copySrc x.word, copyDst x.word] [copyDst x.word] (countsDiffer x.word) = (d2, .ok rc))
    (hstaged : rc.staged x.word = false) : d.checkCopy x = (d2, .ok (x.copying rc d2.time)) := by
  unfold Dev.checkCopy
  dsimp only
  rw [hvalid]
  simp only [hstaged, Bool.false_and, Bool.false_eq_true, if_false, Cmd.copying]
  rw [← hslot]

/-- A good COPY starts, and asks for host memory or moves its elements. -/
theorem Dev.startCopy_starts {d d2 : Dev} {x : Cmd} {rc : Reach} (hcheck : d.checkCopy x = (d2, .ok (x.copying rc d2.time)))
    (hclean : d2.upsets = []) :
    let d3 := (d2.popHead x.queue).begin_ (x.copying rc d2.time)
    d.startCopy x false = if (d3.copyHost (x.copying rc d2.time)).isEmpty then d3.copyMove (x.copying rc d2.time)
      else (d3.copyHost (x.copying rc d2.time)).foldl (fun d g => d.sendRead (some x.id)
        { func := x.func, addr := g.addr, len := 64, purpose := .cmd x.id, vaddr := g.vaddr, handle := g.handle, sentAt := 0 }) d3 := by
  have hkeep : (d2.popHead x.queue).onlyIn ((d2.popHead x.queue).begin_ (x.copying rc d2.time)) [.regs, .cq, .sect] := .begin_ (Dev.onlyIn_refl _ _)
  have hup : ((d2.popHead x.queue).begin_ (x.copying rc d2.time)).upsets = [] := (hkeep .upsets rfl).trans hclean
  unfold Dev.startCopy
  rw [hcheck]
  dsimp only
  rw [if_neg (by decide : ¬ false = true), Dev.dropUnit_clean (d := d2.startHead (x.copying rc d2.time)) hup]
  rfl

/-- The moved elements of a COPY are stored, and its engine has finished. -/
theorem Dev.copyMove_moves {d d4 : Dev} {x : Cmd} {its : List Item} (hclean : d.upsets = []) (hslot : x.slot = 0)
    (hread : d.copyItems x.copyReach x.word (List.range (x.copyReach.count (copySrc x.word))) = (d4, its, none))
    (halias : d4.aliased x.copyReach x.word = false) :
    d.copyMove x = (d4.store x.copyWriter x.copyReach (copyDst x.word) false (copySat x.word) its).modCmd x.id
      (fun y => if y.phase = .running then { y with phase := .finished } else y) := by
  unfold Dev.copyMove
  dsimp only
  rw [Dev.descRegs_clean hclean]
  dsimp only
  rw [hread]
  dsimp only
  rw [if_neg (by simp [hslot]), Dev.copyStore, if_neg (by simp [halias])]

/-- What `validate` accepts has passed its further check. -/
theorem Dev.validate_extra {d d2 : Dev} {e : Engine} {hs writes : List Nat} {extra : Reach → Option Fail} {rc : Reach}
    (h : d.validate e hs writes extra = (d2, .ok rc)) : ∃ rc0 : Reach, rc0.descs = rc.descs ∧ extra rc0 = none := by
  unfold Dev.validate at h
  dsimp only at h
  split at h
  · simp at h
  split at h
  · simp at h
  next hextra =>
    split at h
    · simp at h
    · simp only [Prod.mk.injEq, Except.ok.injEq] at h
      obtain ⟨-, rfl⟩ := h
      exact ⟨⟨e, (d.latchAll e hs).2.1, []⟩, rfl, hextra⟩

theorem Reach.count_congr {rc rc0 : Reach} (h : rc0.descs = rc.descs) (k : Nat) : rc0.count k = rc.count k := by
  have hdesc : ∀ j, rc0.desc j = rc.desc j := fun j => by rw [Reach.desc, h]; rfl
  simp only [Reach.count, Reach.extents, Reach.listLen, hdesc]

/-- A running command has finished. -/
theorem Dev.finishRunning (d : Dev) (c : Nat) :
    let e := d.modCmd c (fun y => if y.phase = .running then { y with phase := .finished } else y)
    d.onlyIn e [.cq] ∧ e.cq.cmds = d.cq.cmds.map (fun z => if z.id = c ∧ z.phase = .running then { z with phase := .finished } else z)
      ∧ ({ e.cq with cmds := d.cq.cmds } : Cq) = d.cq := by
  refine ⟨.modCmd (d.onlyIn_refl _), ?_, rfl⟩
  refine List.map_congr_left fun z _ => ?_
  by_cases hid : z.id = c
  · simp [hid]
  · simp [hid]

/-- A COPY whose dispatch check passes is handed on to the checks of its descriptors. -/
theorem Dev.copy_starting {d d1 : Dev} {q : Nat} {r : Rec} {rest : List Rec} {x : Cmd} (h : d.starting d1 q 0x02 r rest x)
    (hcheck : d.copyCheck x.part x.word = 0)
    (hhas : d.headHas q x.func (d.startNeeds q (d.cpOf x.part x.ctx) (ascending [copySrc x.word, copyDst x.word])
      [copyDst x.word, copySrc x.word])) : d.copy q = d.startCopy x false := by
  unfold Dev.copy
  dsimp only
  rw [Dev.turn_starting h (by decide) _ (by simpa only [hcheck, ne_eq, not_true_eq_false, if_false] using hhas)]
  simp [hcheck]

/-- Settles O14: a COPY whose checks pass starts, and moves its elements or asks for host memory. -/
theorem copyMovesItsElements : Obligations.CopyMovesItsElements := by
  unfold Obligations.CopyMovesItsElements
  intro s q r rest d1 d2 x rc0 hstart hcheck
  dsimp only
  intro hhas hvalid hstaged hclean
  have hcopy := Dev.copy_starting hstart
  obtain ⟨-, -, -, -, hx⟩ := hstart
  have hqueue : x.queue = q := by rw [hx]; rfl
  have hword : x.word = r := by rw [hx]; rfl
  have hslot : x.slot = 0 := by rw [hx]; rfl
  subst hword
  have hbegun := (d2.popHead q).begin_begun (x.copying rc0 d2.time)
  have hstarts := Dev.startCopy_starts (Dev.checkCopy_passes hslot hvalid hstaged) hclean
  replace hcopy := (hcopy hcheck hhas).trans hstarts
  rw [hqueue] at hcopy
  have hup : ((d2.popHead q).begin_ (x.copying rc0 d2.time)).upsets = [] := by
    obtain ⟨-, -, hframe⟩ := hbegun
    exact (hframe .upsets rfl).trans hclean
  refine ⟨?_, hbegun, fun d4 its hhost hread halias => ?_, fun hhost hm => ?_⟩
  · obtain ⟨rc, hdescs, hextra⟩ := Dev.validate_extra hvalid
    have heq : rc.count (copySrc x.word) = rc.count (copyDst x.word) := by
      by_contra hne
      simp [countsDiffer, hne] at hextra
    have hcount : ∀ k, (x.copying rc0 d2.time).copyReach.count k = rc.count k := Reach.count_congr hdescs.symm
    exact (hcount _).trans (heq.trans (hcount _).symm)
  · exact ⟨_, State.onDev_next ((hcopy.trans (if_pos (List.isEmpty_iff.mpr hhost))).trans
      (Dev.copyMove_moves (x := x.copying rc0 d2.time) hup hslot hread halias)), Dev.finishRunning _ x.id⟩
  · exact ⟨_, State.onDev_next ((hcopy.trans (if_neg fun h => hhost (List.isEmpty_iff.mp h))).trans
      (Dev.foldl_sendRead_asks x.id (func := x.func) (fun _ => rfl) _ hm)), rfl, .set_hif (Dev.onlyIn_refl _ _)⟩

end Sys2Proof.Machine
end

section
/-! # What parts the operations may change: Ends of commands, and images that are judged

The lemma about an operation has its name, in the order of the definitions. -/

namespace Sys2Proof.Machine
-- These proofs are many and small: elaborated all at once they take more threads than the checker has.
set_option Elab.async false
namespace Dev.onlyIn
variable {d₀ d e : Dev} {C : List Comp}

theorem install (h₀ : d₀.onlyIn d C) {p : Nat} {l : Library} (sub : among [.regs, .sect, .upsets] C := by rfl) : d₀.onlyIn
  (d.install p l) C :=
  h₀.into sub fun _ hd => .foldl hd (fun _ _ h2 => .setReg (.setReg (.modSect (.dropUnit h2))))

theorem finishLoad (h₀ : d₀.onlyIn d C) {c : Nat} (sub : among [.cq] C := by rfl) : d₀.onlyIn (d.finishLoad c) C :=
  h₀.into sub fun _ hd => .modCmd hd

end Dev.onlyIn
end Sys2Proof.Machine
end

section
/-! # Ends of commands, and images that are judged -/

namespace Sys2Proof.Machine

/-! ## How a command's engines end (05 R142, R147) -/

theorem Dev.pushRecord_cq (d : Dev) (w : Ready) (suppressed : Bool) :
    (d.pushRecord w suppressed).cq = { d.cq with ready := d.cq.ready ++ (if suppressed then [] else [w]) } := by
  cases suppressed
  · unfold Dev.pushRecord
    rw [if_neg (by decide)]
    cases w.group with
    | none => rfl
    | some g =>
      have hframe : d.onlyIn (d.dropWords .complEntry g [w.queue]) [.upsets] := .dropWords (d.onlyIn_refl _)
      have hcq : (d.dropWords .complEntry g [w.queue]).cq = d.cq := hframe .cq rfl
      dsimp only
      rw [hcq]
      rfl
  · simp [Dev.pushRecord]

/-- A command's record as its queue's ring will hold it. -/
def Dev.endRecord (d : Dev) (x : Cmd) : Ready :=
  { group := some x.part, ring := d.getF (rCqQCfg x.queue) fCqQCfg_Ring, irqNow := bitOf x.word 18
    notOk := x.finalStatus != 0, queue := x.queue
    word := completionWord x.finalStatus x.aflags x.queue (bitsOf x.word 32 32) x.handle (bitsOf x.word 88 4) x.vaddr d.time x.finalDetail
      (bitsOf x.word 4 8) }

/-- What a command holds is let go as it ends, its record not yet ready. -/
def Dev.letGo (d : Dev) (x : Cmd) : Dev := ((((d.dropReads x.id).freeTiles x.id).dropHenOps x.id).dropCmd x.id).loadEnded x

theorem Dev.letGo_frame (d : Dev) (x : Cmd) : d.onlyIn (d.letGo x) [.regs, .cq, .tiles, .henOps, .srv, .hif] :=
  .loadEnded (.dropCmd (.dropHenOps (.freeTiles (.dropReads (d.onlyIn_refl _)))))

theorem Dev.letGo_cq (d : Dev) (x : Cmd) :
    (d.letGo x).cq = { d.cq with fetched := d.cq.fetched.filter (fun e => !d.readsFor x.id (.head e.1)), cmds := d.cq.cmds.filter (fun y => y.id != x.id) } := by
  have hloaded := fun e : Dev => (Dev.onlyIn.loadEnded (d₀ := e) (C := [.regs, .srv, .hif]) (e.onlyIn_refl _) (x := x)) .cq rfl
  exact hloaded _

theorem Dev.endCmd_serving {d : Dev} {x : Cmd} (h : x.serving = true) : d.endCmd x = d.letGo x := if_pos h

theorem Dev.endCmd_eq {d : Dev} {x : Cmd} (h : x.serving = false) :
    d.endCmd x = ((d.letGo x).pushRecord ((d.letGo x).endRecord x) (bitOf x.word 17 && x.finalStatus == 0)).rollF (rCqQCcnt x.queue) fCqQCcnt_Ccnt 1 :=
  if_neg (by simp [h])

theorem Dev.endCmd_cq {d : Dev} {x : Cmd} (h : x.serving = false) : (d.endCmd x).cq = { (d.letGo x).cq with
    ready := d.cq.ready ++ (if bitOf x.word 17 && x.finalStatus == 0 then [] else [(d.letGo x).endRecord x]) } := by
  rw [Dev.endCmd_eq h]
  refine (Dev.pushRecord_cq _ _ _).trans ?_
  rw [Dev.letGo_cq]

theorem Dev.endCmd_cmds (d : Dev) (x : Cmd) : (d.endCmd x).cq.cmds = d.cq.cmds.filter (fun y => y.id != x.id) := by
  cases h : x.serving
  · rw [Dev.endCmd_cq h, Dev.letGo_cq]
  · rw [Dev.endCmd_serving h, Dev.letGo_cq]

/-! ## Images that are judged (04 R118, R119; 09 R262, R268; 10 R291) -/

theorem Dev.cmd?_id {d : Dev} {c : Nat} {x : Cmd} (h : d.cmd? c = some x) : x.id = c := by simpa using List.find?_some h

/-- A command that failed: its engines stop with a status. -/
theorem Dev.failCmd_fails (d : Dev) (c status handle vaddr : Nat) :
    d.onlyIn (d.failCmd c status handle vaddr) [.cq, .tiles] ∧ (d.failCmd c status handle vaddr).cq.cmds
      = d.cq.cmds.map (fun y => if y.id = c then y.fail d.time status handle vaddr else y) := ⟨.failCmd (d.onlyIn_refl _), rfl⟩

theorem Cmd.fail_stops (x : Cmd) (time status handle vaddr : Nat) :
    (x.fail time status handle vaddr).id = x.id ∧ (x.fail time status handle vaddr).phase = .stopping := by
  unfold Cmd.fail
  dsimp only
  split <;> exact ⟨rfl, rfl⟩

/-- A load that failed is stopping, and not finished. -/
theorem Dev.failCmd_finishLoad (d : Dev) (c status : Nat) :
    d.onlyIn ((d.failCmd c status 0 0).finishLoad c) [.cq, .tiles] ∧ ((d.failCmd c status 0 0).finishLoad c).cq.cmds
      = d.cq.cmds.map (fun y => if y.id = c then y.fail d.time status 0 0 else y) := by
  refine ⟨.finishLoad (.failCmd (d.onlyIn_refl _)), ?_⟩
  show ((d.failCmd c status 0 0).cq.cmds.map _) = _
  rw [(d.failCmd_fails c status 0 0).2, List.map_map]
  refine List.map_congr_left fun y _ => ?_
  by_cases hid : y.id = c
  · simp [hid, Cmd.fail_stops]
  · simp [hid]

theorem Dev.finishLoad_finishes (d : Dev) (c : Nat) : d.onlyIn (d.finishLoad c) [.cq] ∧ (d.finishLoad c).cq.cmds
    = d.cq.cmds.map (fun y => if y.id = c ∧ y.phase = .running then { y with phase := .finished } else y) := by
  obtain ⟨hframe, hcmds, -⟩ := d.finishRunning c
  exact ⟨hframe, hcmds⟩

/-- A model whose data are in place makes its slot READY. -/
theorem Dev.slotReady_state (d : Dev) (n : Nat) (r : Rec) : (d.slotReady n r).slotState n = 2 := by
  unfold Dev.slotReady
  dsimp only
  exact Dev.enterSlotState_self _ n (by decide)

/-- What the judgement of a library makes of its load. -/
def Dev.libJudged (d : Dev) (c p : Nat) : Nat × Option Library → Dev
  | (0, some l) =>
    if (d.install p l).gan.cfg.mark l.keyid < l.libVer then (d.install p l).cfgAsk (.mark l.keyid l.libVer) (.cmd c)
    else (d.install p l).modCmd c (fun y => { y with phase := .finished })
  | (code, _) => d.failCmd c code 0 0

theorem Dev.libLoadVerify_judges {d d1 d2 : Dev} {c : Nat} {x : Cmd} {h img : List Byte} (hc : d.cmd? c = some x) (hop : x.opcode = 0x03)
    (hphase : x.phase = .waiting) (hwaits : d.libWaits x = false) (hcfg : d.gan.cfgPend = []) (hrest : x.slot = 0 → d.libRest x = [])
    (hhead : d.readVa (d.cpOf x.part x.ctx) (bitsOf x.word 176 8) (bitsOf x.word 128 48) 64 = (d1, .ok h))
    (himg : d1.readVa (d.cpOf x.part x.ctx) (bitsOf x.word 176 8) (bitsOf x.word 128 48) (imageBytes h + 1716) = (d2, .ok img)) :
    d.libLoadVerify c = d2.libJudged c x.part (judgeLibrary d2.gan.cfg img) := by
  unfold Dev.libLoadVerify
  rw [hc]
  dsimp only
  rw [if_neg (by simp [hop, hphase, hwaits, hcfg]), if_neg (by
    by_cases hslot : x.slot = 0
    · simp [hslot, hrest hslot]
    · simp [hslot]), hhead]
  dsimp only
  rw [himg]
  rfl

theorem Dev.install_frame (d : Dev) (p : Nat) (l : Library) : d.onlyIn (d.install p l) [.regs, .sect, .upsets] := .install (d.onlyIn_refl _)

/-- A library that is good comes into force, and its load finishes or waits for its mark. -/
theorem Dev.libJudged_good (d : Dev) (c p : Nat) (l : Library) :
    let e := d.libJudged c p (0, some l)
    if l.libVer ≤ d.gan.cfg.mark l.keyid then (d.install p l).onlyIn e [.cq]
      ∧ e.cq.cmds = (d.install p l).cq.cmds.map (fun y => if y.id = c then { y with phase := .finished } else y)
    else e.gan.cfgPend = d.gan.cfgPend ++ [(.mark l.keyid l.libVer, .cmd c)] ∧ e.cq = (d.install p l).cq ∧ e.sect = (d.install p l).sect := by
  have hgan : (d.install p l).gan = d.gan := (d.install_frame p l) .gan rfl
  have heq : d.libJudged c p (0, some l) =
      if (d.install p l).gan.cfg.mark l.keyid < l.libVer then (d.install p l).cfgAsk (.mark l.keyid l.libVer) (.cmd c)
      else (d.install p l).modCmd c (fun y => { y with phase := .finished }) := rfl
  dsimp only
  rw [heq, hgan]
  generalize d.install p l = d1 at *
  by_cases hmark : l.libVer ≤ d.gan.cfg.mark l.keyid
  · rw [if_pos hmark, if_neg (by omega)]
    exact ⟨.modCmd (d1.onlyIn_refl _), rfl⟩
  · rw [if_neg hmark, if_pos (by omega), ← hgan]
    exact ⟨rfl, rfl, rfl⟩

/-- What a model whose data were copied makes of its load. -/
theorem Dev.modelLoadCheck_judges {d d1 : Dev} {c : Nat} {x : Cmd} {bs : List Byte} (hc : d.cmd? c = some x) (hop : x.opcode = 0x10)
    (hphase : x.phase = .running) (hwaits : d.readsWait c = false)
    (hcopy : d.loadCopy (dmaOf (loadPart x.part x.word) x.ctx x.dmaSect) c (bitsOf x.word 192 8) (bitsOf x.word 144 48)
      (fld (d.reg (rSrvSlotBase x.slot)) fSrvSlotBase_Base * 65536) (bitsOf x.word 200 40) = (d1, some bs)) :
    d.modelLoadCheck c = if crc32c bs ≠ bitsOf x.word 320 32 then (d1.failCmd c 0x43 0 0).finishLoad c
      else (d1.slotReady x.slot x.word).finishLoad c := by
  unfold Dev.modelLoadCheck
  rw [hc]
  dsimp only
  rw [if_neg (by simp [hop, hphase, hwaits]), hcopy]

/-- What a delta that was copied makes of its load. -/
theorem Dev.deltaPutCheck_judges {d d1 : Dev} {c : Nat} {x : Cmd} {img : List Byte} (hc : d.cmd? c = some x) (hop : x.opcode = 0x12)
    (hphase : x.phase = .running) (hwaits : d.readsWait c = false)
    (hcopy : d.loadCopy { dmaOf x.part x.ctx x.dmaSect with
      bypass := (bitsOf x.word 208 48, bitsOf x.word 208 48 + bitsOf x.word 264 32) } c (bitsOf x.word 256 8) (bitsOf x.word 160 48)
      (bitsOf x.word 208 48) (bitsOf x.word 264 32) = (d1, some img))
    (hloading : (d1.version x.slot).state = .loading) :
    d.deltaPutCheck c =
      let code := d1.deltaImage (d1.version x.slot).slot (bitsOf x.word 296 32) img
      if code ≠ 0 then (d1.failCmd c code 0 0).finishLoad c
      else
        let d2 := d1.setVersion x.slot { d1.version x.slot with nb := deltaNb img, state := .train }
        (if bitsOf x.word 144 2 = 0 then d2.goLive x.slot (oldOf x.word) else d2).finishLoad c := by
  unfold Dev.deltaPutCheck
  rw [hc]
  dsimp only
  rw [if_neg (by simp [hop, hphase, hwaits]), hcopy]
  dsimp only
  rw [if_neg (by simp [hloading])]

/-- What an epoch's image that was read makes of its fence. -/
theorem Dev.epochImageCheck_judges {d d1 d2 : Dev} {c : Nat} {x : Cmd} {hb bs : List Byte} (hc : d.cmd? c = some x) (hop : x.opcode = 0x22)
    (hphase : x.phase = .running) (hwaits : d.readsWait c = false)
    (hhead : d.readVa x.fenceEngine (bitsOf x.word 184 8) (bitsOf x.word 136 48) 512 = (d1, .ok hb))
    (hsize : (imageTables (BitVec.ofNat 4096 (leNat hb))).foldl (· + ·) 0 ≤ 32768)
    (hrest : x.slot = 0 → d1.hostPieces x.fenceEngine (bitsOf x.word 184 8) (bitsOf x.word 136 48 + 512)
      (imageRest (BitVec.ofNat 4096 (leNat hb))) = [])
    (himg : d1.readVa x.fenceEngine (bitsOf x.word 184 8) (bitsOf x.word 136 48) (512 + imageRest (BitVec.ofNat 4096 (leNat hb))) = (d2, .ok bs)) :
    d.epochImageCheck c = if !d2.imageOk bs then d2.fenceForm x
      else ((d2.onFab (fun y => { y with staged := some (imageOf (bitsOf x.word 192 32) bs) })).putF rFabStatus fFabStatus_Staged 1).modCmd c
        (fun y => { y with phase := .finished }) := by
  unfold Dev.epochImageCheck
  rw [hc]
  dsimp only
  rw [if_neg (by simp [hop, hphase, hwaits]), hhead]
  dsimp only
  rw [if_neg (by omega), if_neg (by
    by_cases hslot : x.slot = 0
    · simp [hslot, hrest hslot]
    · simp [hslot]), himg]

/-- An epoch's image is staged, and its command finished. -/
theorem Dev.stage_staged (d : Dev) (c : Nat) (z : FabImage) :
    let e := ((d.onFab (fun y => { y with staged := some z })).putF rFabStatus fFabStatus_Staged 1).modCmd c (fun y => { y with phase := .finished })
    e.fab = { d.fab with staged := some z } ∧ e.getF rFabStatus fFabStatus_Staged = 1
      ∧ e.cq.cmds = d.cq.cmds.map (fun y => if y.id = c then { y with phase := .finished } else y)
      ∧ d.regsBut e [rFabStatus] ∧ d.onlyIn e [.fab, .cq, .regs] :=
  ⟨rfl, Dev.getF_putF_self (d.onFab _) _ _ _ (by decide), rfl, Dev.regsBut_putF (d.onFab _) _ _ _,
    .modCmd (.putF (.onFab (d.onlyIn_refl _)))⟩

/-- Settles O16: each image by what its check makes of it. -/
theorem imagesAreJudged : Obligations.ImagesAreJudged := by
  unfold Obligations.ImagesAreJudged
  refine ⟨fun s c x d1 d2 h img hc hop hphase hwaits hcfg hrest => ?_, fun s c x d1 bs hc hop hphase hwaits => ?_,
    fun s c x d1 img hc hop hphase hwaits => ?_, fun s c x d1 d2 hb bs hc hop hphase hwaits => ?_⟩
  · intro e0 hhead himg
    refine ⟨_, State.onDev_next (Dev.libLoadVerify_judges hc hop hphase hwaits hcfg hrest hhead himg), ?_⟩
    split
    next l heq =>
      rw [heq]
      exact d2.libJudged_good c x.part l
    next code o hbad heq =>
      rw [heq]
      have hfail : d2.libJudged c x.part (code, o) = d2.failCmd c code 0 0 := by
        unfold Dev.libJudged
        split
        next l' hgood =>
          exact absurd hgood (by simpa using hbad l')
        next => simp_all
      rw [hfail]
      exact d2.failCmd_fails c code 0 0
  · intro r hcopy
    have hrun := Dev.modelLoadCheck_judges hc hop hphase hwaits hcopy
    refine ⟨fun hcrc => ?_, fun hcrc => ?_⟩
    · refine ⟨_, State.onDev_next (hrun.trans (if_neg (by simpa using hcrc))), ?_⟩
      have hstate : (d1.slotReady x.slot x.word).slotState x.slot = 2 := d1.slotReady_state x.slot x.word
      generalize d1.slotReady x.slot x.word = d2 at hstate
      exact ⟨hstate, d2.finishLoad_finishes c⟩
    · exact ⟨_, State.onDev_next (hrun.trans (if_pos hcrc)), Dev.failCmd_finishLoad _ c _⟩
  · intro r dst n hcopy hloading code
    have hrun := Dev.deltaPutCheck_judges hc hop hphase hwaits hcopy hloading
    refine ⟨fun hcode => ?_, fun hcode => ?_⟩
    · refine ⟨_, State.onDev_next (hrun.trans (if_neg (by simpa using hcode))), ?_⟩
      intro d2 d3
      exact Dev.finishLoad_finishes d3 c
    · exact ⟨_, State.onDev_next (hrun.trans (if_pos hcode)), Dev.failCmd_finishLoad _ c _⟩
  · intro e0 va hhead h hsize hrest himg
    have hrun := Dev.epochImageCheck_judges hc hop hphase hwaits hhead hsize hrest himg
    refine ⟨fun hok => ?_, fun hbad => ?_⟩
    · refine ⟨_, State.onDev_next (hrun.trans (if_neg (by simp [hok]))), d2.stage_staged c _⟩
    · have hframe : d2.onlyIn (d2.fenceForm x) [.regs, .cq, .tiles, .henOps, .srv, .hif, .upsets] := .endCmdWith (d2.onlyIn_refl _)
      refine ⟨_, State.onDev_next (hrun.trans (if_pos (by simp [hbad]))), hframe .fab rfl, ?_⟩
      rw [← Dev.cmd?_id hc]
      exact Dev.endCmd_cmds d2 _

end Sys2Proof.Machine
end

section
/-! # What parts the operations may change: The end of a started command

The lemma about an operation has its name, in the order of the definitions. -/

namespace Sys2Proof.Machine
-- These proofs are many and small: elaborated all at once they take more threads than the checker has.
set_option Elab.async false
namespace Dev.onlyIn
variable {d₀ d e : Dev} {C : List Comp}

theorem learn (h₀ : d₀.onlyIn d C) {key obs : Nat} (sub : among [.pwr] C := by rfl) : d₀.onlyIn (d.learn key obs) C := by
  refine h₀.into sub fun _ hd => ?_
  unfold Dev.learn
  dsimp only
  split
  · exact .onPwr hd
  · exact .onPwr hd

theorem learnRun (h₀ : d₀.onlyIn d C) {key : Nat} {ks : List Nat} {start : Tab (Nat × Nat × Nat)} (sub : among [.pwr] C := by
  rfl) : d₀.onlyIn (d.learnRun key ks start) C :=
  h₀.into sub fun _ hd => .foldl hd (fun _ _ h2 => .ite h2 (.learn h2))

theorem phaseUpdate (h₀ : d₀.onlyIn d C) {x : Cmd} (sub : among [.pwr] C := by rfl) : d₀.onlyIn (d.phaseUpdate x) C :=
  h₀.into sub fun _ hd => .learnRun hd

end Dev.onlyIn
end Sys2Proof.Machine
end

section
/-! # The end of a started command -/

namespace Sys2Proof.Machine

/-! ## The end of a started command (05 R142 to R145; 12 R354 to R356) -/

/-- The registers that letting go of a command may change: its slot's state and the event that tells of it. -/
def letGoRegs (n : Nat) : List Nat := rSrvSlotState n :: raiseRegs (pgSrv 7)

theorem Dev.enterSlotState_regsBut (d : Dev) (n st : Nat) : d.regsBut (d.enterSlotState n st) (letGoRegs n) := by
  have hput : d.regsBut (d.putF (rSrvSlotState n) fSrvSlotState_State st) (letGoRegs n) :=
    Dev.regsBut_mono (Dev.regsBut_putF _ _ _ _) (by simp [letGoRegs])
  have hraise : ∀ bits, d.regsBut ((d.putF (rSrvSlotState n) fSrvSlotState_State st).raise (pgSrv 7) bits) (letGoRegs n) := fun bits =>
    Dev.regsBut_trans hput (Dev.regsBut_mono (Dev.raise_regsBut _ _ _) (List.subset_cons_self _ _))
  unfold Dev.enterSlotState
  dsimp only
  split
  · exact hraise _
  · split
    · exact hraise _
    · exact hput

theorem Dev.loadEnded_regsBut (d : Dev) (x : Cmd) : d.regsBut (d.loadEnded x) (letGoRegs x.slot) := by
  unfold Dev.loadEnded
  split
  · exact d.enterSlotState_regsBut _ _
  · split
    · have hframe : d.onlyIn (d.freeVersion x.slot) [.srv] := .freeVersion (d.onlyIn_refl _)
      exact Dev.regsBut_of_onlyIn hframe rfl _
    · exact d.regsBut_refl _

theorem Dev.released_frame (d : Dev) (x : Cmd) :
    d.onlyIn ((((d.dropReads x.id).freeTiles x.id).dropHenOps x.id).dropCmd x.id) [.cq, .tiles, .henOps, .hif] :=
  .dropCmd (.dropHenOps (.freeTiles (.dropReads (d.onlyIn_refl _))))

theorem Dev.letGo_regsBut (d : Dev) (x : Cmd) : d.regsBut (d.letGo x) (letGoRegs x.slot) :=
  Dev.regsBut_trans (Dev.regsBut_of_onlyIn (d.released_frame x) rfl _) (Dev.loadEnded_regsBut _ x)

/-- No register of a queue's row changes as a command lets go. -/
theorem not_mem_letGoRegs {q : Nat} (_hq : q < 128) (n : Nat) :
    (letGoRegs n).contains (rCqQCfg q) = false ∧ (letGoRegs n).contains (rCqQCcnt q) = false := by
  simp [letGoRegs, rSrvSlotState, rCqQCfg, rCqQCcnt, rBlkIntStat, pgSrv, rHifTxDrop, pgHif]
  omega

theorem Dev.letGo_cfg (d : Dev) (x : Cmd) {q : Nat} (hq : q < 128) :
    (d.letGo x).getF (rCqQCfg q) fCqQCfg_Ring = d.getF (rCqQCfg q) fCqQCfg_Ring
      ∧ (d.letGo x).getF (rCqQCcnt q) fCqQCcnt_Ccnt = d.getF (rCqQCcnt q) fCqQCcnt_Ccnt := by
  obtain ⟨hcfg, hcnt⟩ := not_mem_letGoRegs hq x.slot
  exact ⟨Dev.getF_of_regsBut (d.letGo_regsBut x) hcfg _, Dev.getF_of_regsBut (d.letGo_regsBut x) hcnt _⟩

/-! ### Tiles of a command that ends (R86) -/

theorem Dev.letGo_tiles (d : Dev) (x : Cmd) : (d.letGo x).tiles = (d.freeTiles x.id).tiles := by
  have hloaded : (((((d.dropReads x.id).freeTiles x.id).dropHenOps x.id).dropCmd x.id)).onlyIn (d.letGo x) [.regs, .srv, .hif] :=
    .loadEnded (Dev.onlyIn_refl _ _)
  exact (hloaded .tiles rfl).trans rfl

theorem Dev.freeTiles_free (d : Dev) (c : Nat) : ∀ z ∈ (d.freeTiles c).tiles, z.2.cmd ≠ some c := by
  intro z hz
  obtain ⟨y, -, rfl⟩ := List.mem_map.mp hz
  split
  · simp
  · assumption

theorem tget_map_keyed {α : Type} (f : α → α) (g : Nat × α → Nat × α) (hg : ∀ e, g e = e ∨ g e = (e.1, f e.2)) {β : Type} (p : α → β)
    (hp : ∀ x, p (f x) = p x) (t : Tab α) (d : α) (k : Nat) : p (tget (t.map g) d k) = p (tget t d k) := by
  induction t with
  | nil => rfl
  | cons e t ih =>
    rw [List.map_cons]
    rcases hg e with h | h
    · rw [h, tget, tget]
      split
      · rfl
      · exact ih
    · rw [h, tget, tget]
      split
      · exact hp _
      · exact ih

theorem Dev.freeTiles_arrival (d : Dev) (c t : Nat) : ((d.freeTiles c).tile t).arrival = (d.tile t).arrival :=
  tget_map_keyed (fun x : Tile => { arrival := x.arrival }) _ (fun e => by
    split
    · exact .inr rfl
    · exact .inl rfl) Tile.arrival (fun _ => rfl) d.tiles {} t

/-! ### Completion (R142) -/

/-- The record of a command that ends, from the device as it stood. -/
theorem Dev.endRecord_word (d : Dev) (x : Cmd) : ((d.letGo x).endRecord x).word = completionWord x.finalStatus x.aflags x.queue
    (bitsOf x.word 32 32) x.handle (bitsOf x.word 88 4) x.vaddr d.time x.finalDetail (bitsOf x.word 4 8) := by
  have htime : (d.letGo x).time = d.time := (d.letGo_frame x) .time rfl
  rw [Dev.endRecord, htime]

theorem Dev.endRecord_ring (d : Dev) {x : Cmd} (hq : x.queue < 128) :
    ((d.letGo x).endRecord x).ring = d.getF (rCqQCfg x.queue) fCqQCfg_Ring := (d.letGo_cfg x hq).1

theorem Dev.endCmd_frame (d : Dev) (x : Cmd) : d.onlyIn (d.endCmd x) [.regs, .cq, .tiles, .henOps, .srv, .hif, .upsets] := .endCmd (d.onlyIn_refl _)

theorem Dev.endCmd_tiles {d : Dev} {x : Cmd} (h : x.serving = false) : (d.endCmd x).tiles = (d.freeTiles x.id).tiles := by
  have hpush : (d.letGo x).onlyIn (d.endCmd x) [.cq, .upsets, .regs] := by
    rw [Dev.endCmd_eq h]
    exact .rollF (.pushRecord (Dev.onlyIn_refl _ _))
  exact (hpush .tiles rfl).trans (d.letGo_tiles x)

theorem Dev.endCmd_counts {d : Dev} {x : Cmd} (h : x.serving = false) (hq : x.queue < 128) :
    (d.endCmd x).getF (rCqQCcnt x.queue) fCqQCcnt_Ccnt = (d.getF (rCqQCcnt x.queue) fCqQCcnt_Ccnt + 1) % 2 ^ 32 := by
  have hpush : (d.letGo x).onlyIn ((d.letGo x).pushRecord ((d.letGo x).endRecord x) (bitOf x.word 17 && x.finalStatus == 0)) [.cq, .upsets] :=
    .pushRecord (Dev.onlyIn_refl _ _)
  rw [Dev.endCmd_eq h, Dev.rollF, Dev.getF_putF_self _ _ _ _ (by decide), Dev.getF_of_regs (hpush .regs rfl), (d.letGo_cfg x hq).2]
  rfl

/-- A started command whose engines have finished ends, its engines leaving their sectors. -/
theorem Dev.commandComplete_ends {d : Dev} {c : Nat} {x y : Cmd} (hc : d.cmd? c = some x) (hdone : d.cmdDone x = true) (hop : x.opcode ≠ 0x22)
    (htime : d.inStopTime x = true) (hquiet : d.retireQuiet x = true) (hserving : x.serving = false)
    (hy : ((d.finishSerial x).drainPart x.bufferPart).cmd? c = some y) :
    d.commandComplete c = ((((d.finishSerial x).drainPart x.bufferPart).phaseUpdate y).leaveSectors y).endCmd y := by
  unfold Dev.commandComplete
  rw [hc]
  dsimp only
  rw [if_neg (by simp [hserving, hdone, hop, htime, hquiet]), hy]

theorem Dev.left_frame (d : Dev) (x : Cmd) : d.onlyIn ((d.phaseUpdate x).leaveSectors x) [.pwr, .sect] := .leaveSectors (.phaseUpdate (d.onlyIn_refl _))

/-! ### Timeout and hang (R144, R145, R354) -/

/-- The engines of a command that has expired have nothing of it outstanding. -/
theorem Dev.abandon_tiles (d : Dev) (c : Nat) : ∀ z ∈ (d.abandon c).tiles, z.2.cmd = some c →
    z.2.outs = [] ∧ z.2.inflight = [] ∧ z.2.atoms = [] ∧ z.2.stopped = true := by
  intro z hz hcmd
  obtain ⟨y, -, rfl⟩ := List.mem_map.mp hz
  split at hcmd
  next h =>
    rw [if_pos h]
    exact ⟨rfl, rfl, rfl, rfl⟩
  next h => exact absurd hcmd h

theorem Dev.abandon_henOps (d : Dev) (c : Nat) : ∀ o ∈ (d.abandon c).henOps, o.cmd ≠ c := fun o ho => by
  simpa using (List.mem_filter.mp ho).2

theorem Dev.abandon_cmds (d : Dev) (c : Nat) : (d.abandon c).cq.cmds = d.cq.cmds := rfl

/-- A command that has expired, as it stands. -/
def Cmd.expired (x : Cmd) (time : Nat) (z : Cmd) : Cmd :=
  { z.fail time 0x36 0 0 with detail := openDiv 4 (time - x.start) 1000, handle := 0, vaddr := 0, expiredAt := time }

theorem Dev.commandTimeout_serving {d : Dev} {c : Nat} {x : Cmd} (hc : d.cmd? c = some x)
    (h : x.serving = true ∨ d.time < x.start + 1000 * d.timeoutOf x) : d.commandTimeout c = d := by
  unfold Dev.commandTimeout
  rw [hc]
  dsimp only
  rw [if_pos (by tauto)]

theorem Dev.commandTimeout_expires {d : Dev} {c : Nat} {x : Cmd} (hc : d.cmd? c = some x) (hserving : x.serving = false) (hstatus : x.status ≠ 0x36)
    (hop : x.opcode ≠ 0x22) (htime : x.start + 1000 * d.timeoutOf x ≤ d.time) :
    d.commandTimeout c = ((d.failCmd c 0x36 0 0).modCmd c
      (fun y => { y with detail := elapsedUs d x, handle := 0, vaddr := 0, expiredAt := d.time })).abandon c := by
  unfold Dev.commandTimeout
  rw [hc]
  dsimp only
  rw [if_neg (by simp only [hserving, hstatus, Bool.false_eq_true, false_or, not_lt]; exact htime), if_neg hop]

/-- A command that has expired stops as for a fault, with TIMEOUT, and nothing of it is outstanding. -/
theorem Dev.expire_stops (d : Dev) (c : Nat) (x : Cmd) :
    let e := ((d.failCmd c 0x36 0 0).modCmd c (fun y => { y with detail := elapsedUs d x, handle := 0, vaddr := 0, expiredAt := d.time })).abandon c
    e.cq.cmds = d.cq.cmds.map (fun z => if z.id = c then x.expired d.time z else z) ∧ d.onlyIn e [.cq, .tiles, .henOps, .hif] := by
  refine ⟨?_, .abandon (.modCmd (.failCmd (d.onlyIn_refl _)))⟩
  rw [Dev.abandon_cmds]
  show ((d.failCmd c 0x36 0 0).cq.cmds.map _) = _
  rw [(d.failCmd_fails c 0x36 0 0).2, List.map_map]
  refine List.map_congr_left fun y _ => ?_
  by_cases hid : y.id = c
  · simp only [Function.comp_apply, if_pos hid]
    exact if_pos ((y.fail_stops _ _ _ _).1.trans hid)
  · simp [hid]

theorem Dev.commandHang_hangs {d : Dev} {c : Nat} {x y : Cmd} {u : UnitId} {us : List UnitId} (hc : d.cmd? c = some x) (hstatus : x.status = 0x36)
    (htime : x.expiredAt + 10000 ≤ d.time) (hy : ((d.finishSerial x).drainPart x.bufferPart).cmd? c = some y) :
    d.commandHang c (u :: us) = ((((d.finishSerial x).drainPart x.bufferPart).leaveSectors y).endCmdWith y 0x37 y.detail).beginReset
      (if d.engineParts (u :: us) = [] then x.part else (d.engineParts (u :: us)).headD x.part) 4 1
      (d.suspectsOf (if d.engineParts (u :: us) = [] then x.part else (d.engineParts (u :: us)).headD x.part) (u :: us)) := by
  unfold Dev.commandHang
  rw [hc]
  dsimp only
  rw [if_neg (by simp only [hstatus, ne_eq, not_true_eq_false, List.isEmpty_cons, Bool.false_eq_true, false_or, not_lt]; exact htime), hy]
  simp only [List.isEmpty_iff, Option.getD_some]

theorem Dev.commandHang_waits {d : Dev} {c : Nat} {x : Cmd} {us : List UnitId} (hc : d.cmd? c = some x) (htime : d.time < x.expiredAt + 10000) :
    d.commandHang c us = d := by
  unfold Dev.commandHang
  rw [hc]
  dsimp only
  rw [if_pos (by simp [htime])]

/-- The record of a command that ends with HANG. -/
theorem Dev.endCmdWith_hang {d : Dev} {x : Cmd} (h : x.serving = false) (detail : Nat) :
    ∃ w ∈ (d.endCmdWith x 0x37 detail).cq.ready, w.word
      = completionWord 0x37 x.aflags x.queue (bitsOf x.word 32 32) 0 (bitsOf x.word 88 4) 0 d.time detail (bitsOf x.word 4 8) := by
  let y : Cmd := { x with status := BitVec.ofNat 8 0x37, faultAt := some d.time, detail := detail, handle := 0, vaddr := 0 }
  have hstatus : y.finalStatus = 0x37 := if_pos rfl
  have hdetail : y.finalDetail = detail := if_neg (by rw [hstatus]; decide)
  have hrecord := d.endRecord_word y
  rw [hstatus, hdetail] at hrecord
  refine ⟨(d.letGo y).endRecord y, ?_, hrecord⟩
  rw [Dev.endCmdWith, Dev.endCmd_cq (x := y) h, hstatus]
  simp

/-- Settles O21: how a command completes, how its check finds it expired, and how it ends with HANG. -/
theorem startedCommandsEnd : Obligations.StartedCommandsEnd := by
  unfold Obligations.StartedCommandsEnd
  refine ⟨fun s c x y hc hdone hop htime hquiet => ?_, fun s c x hc hserving => ⟨State.onDev_next ?_, State.onDev_next ?_⟩,
    fun s c x hc hserving hstatus hop => ?_, fun s c x y u us hc hstatus => ?_⟩
  · intro d1 hy hserving hyserving hq
    have hleft := d1.left_frame y
    refine ⟨_, State.onDev_next (Dev.commandComplete_ends hc hdone hop htime hquiet hserving hy), ?_⟩
    generalize (d1.phaseUpdate y).leaveSectors y = z at *
    have hcq : z.cq = d1.cq := hleft .cq rfl
    have hregs : z.regs = d1.regs := hleft .regs rfl
    have hnow : z.time = d1.time := hleft .time rfl
    have htiles : z.tiles = d1.tiles := hleft .tiles rfl
    have hid := Dev.cmd?_id hy
    have hword := z.endRecord_word y
    rw [hnow] at hword
    refine ⟨?_, ?_, ⟨(z.letGo y).endRecord y, hword, (z.endRecord_ring hq).trans (Dev.getF_of_regs hregs _ _), rfl, ?_⟩, ?_, ?_, fun t => ?_,
      Dev.onlyIn_trans (Dev.onlyIn_sub _ hleft rfl) (Dev.onlyIn_sub _ (z.endCmd_frame y) rfl)⟩
    · rw [Dev.endCmd_cmds, hcq, hid]
    · rw [Dev.endCmd_cq hyserving, Dev.letGo_cq, hcq]
    · rw [Dev.endCmd_cq hyserving, hcq]
      simp
    · rw [Dev.endCmd_counts hyserving hq, Dev.getF_of_regs hregs]
    · rw [Dev.endCmd_tiles hyserving, hid]
      exact z.freeTiles_free c
    · rw [Dev.tile_congr (Dev.endCmd_tiles hyserving), Dev.freeTiles_arrival, Dev.tile_congr htiles]
  · unfold Dev.commandComplete
    rw [hc]
    exact if_pos (.inl hserving)
  · exact Dev.commandTimeout_serving hc (.inl hserving)
  · refine ⟨fun htime => State.onDev_next (Dev.commandTimeout_serving hc (.inr htime)), fun htime => ?_⟩
    obtain ⟨hcmds, hframe⟩ := s.dev.expire_stops c x
    exact ⟨_, State.onDev_next (Dev.commandTimeout_expires hc hserving hstatus hop htime), hcmds, Dev.abandon_tiles _ c, Dev.abandon_henOps _ c, hframe⟩
  · refine ⟨fun htime => State.onDev_next (Dev.commandHang_waits hc htime), fun htime => ?_⟩
    intro p d1 d2 hy hyserving
    refine ⟨?_, ?_, State.onDev_next (Dev.commandHang_hangs hc hstatus htime hy)⟩
    · rw [List.all_eq_true]
      intro z hz
      rw [show d2.cq.cmds = _ from Dev.endCmd_cmds _ _] at hz
      exact (List.mem_filter.mp hz).2
    · have hnow : (d1.leaveSectors y).time = d1.time := (Dev.onlyIn.leaveSectors (C := [.sect]) (d1.onlyIn_refl _)) .time rfl
      rw [← hnow]
      exact Dev.endCmdWith_hang hyserving y.detail

end Sys2Proof.Machine
end

section
/-! # What parts the operations may change: Setting up requests, serving cycles, decode steps and prefill slices

The lemma about an operation has its name, in the order of the definitions. -/

namespace Sys2Proof.Machine
-- These proofs are many and small: elaborated all at once they take more threads than the checker has.
set_option Elab.async false
namespace Dev.onlyIn
variable {d₀ d e : Dev} {C : List Comp}

theorem readBy (h₀ : d₀.onlyIn d C) {k src a n : Nat} (sub : among [.regs, .stk, .tram, .sram, .cs, .gan, .hif, .upsets, .free]
  C := by rfl) : d₀.onlyIn (d.readBy k src a n).1 C :=
  h₀.after (Dev.readBy_frame _ _ _ _ _).1 (among.sub sub)

theorem readPte (h₀ : d₀.onlyIn d C) {y0 : Engine} {a : Nat} (sub : among [.regs, .stk, .tram, .sram, .cs, .gan, .hif, .upsets,
  .free] C := by rfl) : d₀.onlyIn (d.readPte y0 a).1 C :=
  h₀.into sub fun _ hd => .ite1 hd (.ite1 (.readBy hd) (.readBy hd))

theorem walk (h₀ : d₀.onlyIn d C) {y0 : Engine} {va : Nat} (sub : among [.regs, .stk, .tram, .sram, .cs, .gan, .hif, .upsets,
  .free] C := by rfl) : d₀.onlyIn (d.walk y0 va).1 C := by
  refine h₀.into sub fun _ hd => ?_
  unfold Dev.walk
  dsimp only
  split
  next _ _ he =>
    have h100 := fst he (.readPte hd)
    exact h100
  next _ _ he =>
    have h110 := fst he (.readPte hd)
    exact .ite1 h110 ((by
      split
      next _ _ he =>
        have h200 := fst he (.readPte h110)
        exact h200
      next _ _ he =>
        have h210 := fst he (.readPte h110)
        exact .ite1 h210 (.ite1 h210 ((by
          split
          next _ _ he =>
            have h300 := fst he (.readPte h210)
            exact h300
          next _ _ he =>
            have h310 := fst he (.readPte h210)
            exact .ite1 h310 h310)))))

theorem readPlist (h₀ : d₀.onlyIn d C) {p list i : Nat} (sub : among [.regs, .stk, .tram, .sram, .cs, .gan, .hif, .upsets,
  .free] C := by rfl) : d₀.onlyIn (d.readPlist p list i).1 C := by
  refine h₀.into sub fun _ hd => ?_
  unfold Dev.readPlist
  dsimp only
  split
  next _ _ he =>
    have h100 := fst he (.walk hd)
    exact h100
  next _ _ _ _ he =>
    have h110 := fst he (.walk hd)
    split
    · exact h110
    · exact .ite1 (.readBy h110) (.readBy h110)

theorem kvResolve (h₀ : d₀.onlyIn d C) {p i off : Nat} {write : Bool} (sub : among [.regs, .stk, .tram, .sram, .cs, .gan, .hif,
  .upsets, .free] C := by rfl) : d₀.onlyIn (d.kvResolve p i off write).1 C := by
  refine h₀.into sub fun _ hd => ?_
  unfold Dev.kvResolve
  exact .ite1 hd ((by
    split
    next _ _ he =>
      have h100 := fst he (.readPlist hd)
      exact h100
    next _ _ he =>
      have h110 := fst he (.readPlist hd)
      exact .ite1 h110 (.ite1 h110 h110)))

theorem kvAddr (h₀ : d₀.onlyIn d C) {p va : Nat} {write : Bool} (sub : among [.regs, .stk, .tram, .sram, .cs, .gan, .hif,
  .upsets, .free] C := by rfl) : d₀.onlyIn (d.kvAddr p va write).1 C := by
  refine h₀.into sub fun _ hd => ?_
  unfold Dev.kvAddr
  split
  · exact hd
  · exact .kvResolve hd

theorem xlatePage (h₀ : d₀.onlyIn d C) {y0 : Engine} {pkey va : Nat} {write : Bool} (sub : among [.regs, .stk, .tram, .sram,
  .cs, .gan, .hif, .upsets, .free] C := by rfl) : d₀.onlyIn (d.xlatePage y0 pkey va write).1 C := by
  refine h₀.into sub fun _ hd => ?_
  unfold Dev.xlatePage
  split
  next _ _ he =>
    have h100 := fst he (.walk hd)
    exact h100
  next _ _ _ _ he =>
    have h110 := fst he (.walk hd)
    split
    · exact h110
    · exact .ite1 h110 (.ite1 h110 h110)

theorem xlate (h₀ : d₀.onlyIn d C) {y0 : Engine} {pkey va : Nat} {write : Bool} (sub : among [.regs, .stk, .tram, .sram, .cs,
  .gan, .hif, .upsets, .free] C := by rfl) : d₀.onlyIn (d.xlate y0 pkey va write).1 C := by
  refine h₀.into sub fun _ hd => ?_
  unfold Dev.xlate
  split
  next _ _ he =>
    have h100 := fst he (.kvAddr hd)
    exact h100
  next _ _ he =>
    have h110 := fst he (.kvAddr hd)
    exact .xlatePage h110

theorem runBegins (h₀ : d₀.onlyIn d C) {p : Nat} (sub : among [.pwr] C := by rfl) : d₀.onlyIn (d.runBegins p) C :=
  h₀.into sub fun _ hd => .onPwr hd

theorem runEnds (h₀ : d₀.onlyIn d C) {p key : Nat} (sub : among [.pwr] C := by rfl) : d₀.onlyIn (d.runEnds p key) C :=
  h₀.into sub fun _ hd => .runBegins (.learnRun hd)

theorem treeRoom (h₀ : d₀.onlyIn d C) {k p h : Nat} (sub : among [.regs, .srv] C := by rfl) : d₀.onlyIn (Dev.treeRoom k d p h).1
  C := by
  refine h₀.into sub fun _ hd => ?_
  clear h₀ sub
  induction k generalizing d with
  | zero => exact hd
  | succ k ih =>
    unfold Dev.treeRoom
    refine .ite1 hd ?_
    split
    · exact hd
    · exact ih (.evictNode hd)

theorem readyFold (h₀ : d₀.onlyIn d C) {p : Nat} (sub : among [.srv] C := by rfl) : d₀.onlyIn (d.readyFold p) C :=
  h₀.into sub fun _ hd => .ite hd (.onSrv hd)

end Dev.onlyIn
end Sys2Proof.Machine
end

section
/-! # Setting up requests, serving cycles, decode steps and prefill slices -/

namespace Sys2Proof.Machine

/-! ## Writes on no command's behalf (06 R172, R173) -/

/-- What a write to its home may change, on no command's behalf. -/
abbrev homeComps : List Comp := [.regs, .stk, .tram, .sram, .slots, .host, .cs, .gan, .hif, .upsets, .free]

/-- A write at its place on the device. -/
theorem Dev.placed_frame (d : Dev) (w : PWrite) :
    d.onlyIn (if isStk w.addr then (d.inWindow w.addr).writeStk w.addr w.data w.poison
      else if isTram w.addr then d.writeSram true (w.addr - 2 ^ 48) w.data w.poison
      else if isSram w.addr then d.writeSram false (w.addr - 2 ^ 49) w.data w.poison
      else { d with slots := d.slots.putBytes (w.addr - 2 ^ 50) w.data }) homeComps :=
  .ite (.writeStk (.inWindow (d.onlyIn_refl _)))
    (.ite (.writeSram (d.onlyIn_refl _)) (.ite (.writeSram (d.onlyIn_refl _)) (.set_slots (d.onlyIn_refl _))))

section
variable {d : Dev} {w : PWrite} (hw : w.cmd = none)
include hw

theorem Dev.hostWrite_uncommanded : d.onlyIn (d.hostWrite w) [.regs, .host, .hif] := by
  unfold Dev.hostWrite
  split
  · dsimp only
    rw [hw]
    exact .txDrop (d.onlyIn_refl _)
  · dsimp only
    split
    · exact .sendOut (.set_host (.addF (d.onlyIn_refl _)))
    · exact .sendOut (.set_host (d.onlyIn_refl _))

theorem Dev.writeHome_uncommanded : d.onlyIn (d.writeHome w) homeComps := by
  have hnote : (if w.poison then d.notePoison w.cmd else d) = d := by
    rw [hw]
    exact ite_self d
  unfold Dev.writeHome
  rw [hnote]
  dsimp only
  refine .ite (Dev.onlyIn_sub _ (Dev.hostWrite_uncommanded hw) rfl) ?_
  split
  · exact d.placed_frame w
  · have hread : d.onlyIn (d.readHomeGran 7 (granOf w.addr)).1 homeComps := .readHomeGran (d.onlyIn_refl _)
    exact Dev.onlyIn_trans hread (Dev.placed_frame _ _)

theorem Dev.writeBy_uncommanded (k : Nat) : d.onlyIn (d.writeBy k w) (.sect :: homeComps) := by
  have hnote : (if w.poison then d.notePoison w.cmd else d) = d := by
    rw [hw]
    exact ite_self d
  unfold Dev.writeBy
  rw [hnote]
  exact .ite (Dev.onlyIn_sub _ (Dev.writeHome_uncommanded hw) rfl) (.modSect (d.onlyIn_refl _))

theorem Dev.writeVa_uncommanded (e : Engine) (pkey va : Nat) (bs : List Byte) : d.onlyIn (d.writeVa e pkey va bs w).1 (.sect :: homeComps) := by
  unfold Dev.writeVa
  refine List.foldlRecOn (motive := fun (acc : Dev × Except (Nat × Nat) Unit) => d.onlyIn acc.1 (.sect :: homeComps)) _ _ (d.onlyIn_refl _) fun acc hacc piece _ => ?_
  obtain ⟨d1, r⟩ := acc
  cases r with
  | error f => exact hacc
  | ok u =>
    have hx : d.onlyIn (d1.xlate e pkey piece.1 true).1 (.sect :: homeComps) := .xlate hacc
    dsimp only
    generalize d1.xlate e pkey piece.1 true = z at *
    obtain ⟨d2, r⟩ := z
    cases r with
    | error f => exact hx
    | ok l => exact Dev.onlyIn_trans hx (Dev.writeBy_uncommanded (w := { w with addr := l, data := piece.2, nibble := none, vaddr := piece.1 }) hw _)

end

/-! ## A request as pages are taken for it, and blocks published (09 R246 to R250) -/

/-- What a request has of tokens: their taking of pages leaves it. -/
def Entry.sameRun (x y : Entry) : Prop :=
  y.state = x.state ∧ y.prompt = x.prompt ∧ y.plen = x.plen ∧ y.pos = x.pos ∧ y.lastToken = x.lastToken ∧ y.outs = x.outs ∧ y.gen = x.gen
    ∧ y.output = x.output

theorem Entry.sameRun_refl (x : Entry) : x.sameRun x := ⟨rfl, rfl, rfl, rfl, rfl, rfl, rfl, rfl⟩

theorem Entry.sameRun_trans {x y z : Entry} (h : x.sameRun y) (k : y.sameRun z) : x.sameRun z := by
  obtain ⟨h1, h2, h3, h4, h5, h6, h7, h8⟩ := h
  obtain ⟨k1, k2, k3, k4, k5, k6, k7, k8⟩ := k
  exact ⟨k1.trans h1, k2.trans h2, k3.trans h3, k4.trans h4, k5.trans h5, k6.trans h6, k7.trans h7, k8.trans h8⟩

/-- Between two states of the device, request `i` stands where it stood, the other requests are the same, and queues and tiles too. -/
def Dev.sameRuns (d e : Dev) (i : Nat) : Prop :=
  (d.entry i).sameRun (e.entry i) ∧ (∀ j ≠ i, e.entry j = d.entry j) ∧ e.cq = d.cq ∧ e.tiles = d.tiles

namespace Dev.sameRuns

variable {d e f : Dev} {i : Nat}

theorem refl (d : Dev) (i : Nat) : d.sameRuns d i := ⟨Entry.sameRun_refl _, fun _ _ => rfl, rfl, rfl⟩

theorem trans (h : d.sameRuns e i) (k : e.sameRuns f i) : d.sameRuns f i :=
  ⟨Entry.sameRun_trans h.1 k.1, fun j hj => (k.2.1 j hj).trans (h.2.1 j hj), k.2.2.1.trans h.2.2.1, k.2.2.2.trans h.2.2.2⟩

theorem of_entries {cs : List Comp} (h : d.onlyIn e cs) (hs : e.srv.entries = d.srv.entries) (hq : cs.contains .cq = false := by rfl)
    (ht : cs.contains .tiles = false := by rfl) : d.sameRuns e i := by
  have hall : ∀ j, e.entry j = d.entry j := fun j => by rw [Dev.entry, hs]; rfl
  exact ⟨by rw [hall]; exact Entry.sameRun_refl _, fun j _ => hall j, h .cq hq, h .tiles ht⟩

theorem of_frame {cs : List Comp} (h : d.onlyIn e cs) (hq : cs.contains .cq = false := by rfl) (ht : cs.contains .tiles = false := by rfl)
    (hs : cs.contains .srv = false := by rfl) : d.sameRuns e i := of_entries h (congrArg Srv.entries (h .srv hs)) hq ht

theorem modEntry (d : Dev) (i : Nat) {g : Entry → Entry} (hg : ∀ x : Entry, x.sameRun (g x)) : d.sameRuns (d.modEntry i g) i :=
  ⟨by rw [Dev.modEntry_entry_self]; exact hg _, fun j hj => Dev.modEntry_entry_ne _ _ hj, rfl, rfl⟩

end Dev.sameRuns

theorem Dev.setPlist_sameRuns (d : Dev) (i n : Nat) (g : PageEnt) : d.sameRuns (d.setPlist i n g) i := by
  unfold Dev.setPlist
  refine .trans (.of_frame (Dev.writeVa_uncommanded rfl _ _ _ _)) (.modEntry _ _ fun x => ⟨rfl, rfl, rfl, rfl, rfl, rfl, rfl, rfl⟩)

theorem Dev.allocBlock_sameRuns (d : Dev) (i : Nat) : d.sameRuns (d.allocBlock i).1 i := by
  unfold Dev.allocBlock
  dsimp only
  split
  · exact .refl _ _
  · refine .trans (.of_entries (Dev.onlyIn.onSrv (.set_free (d.onlyIn_refl [.srv, .free]))) rfl)
      (.modEntry _ _ fun x => ⟨rfl, rfl, rfl, rfl, rfl, rfl, rfl, rfl⟩)

theorem Dev.growTo_sameRuns (k : Nat) (d : Dev) (i n : Nat) : d.sameRuns (Dev.growTo k d i n).1 i := by
  induction k generalizing d with
  | zero => exact .refl _ _
  | succ k ih =>
    have hroom : d.sameRuns (if (d.entry i).plist.length % (d.tokb (d.entry i).slot / 256) = 0 ∨ (d.entry i).earmark.isEmpty
        then d.allocBlock i else (d, true)).1 i := by
      split
      · exact d.allocBlock_sameRuns i
      · exact .refl _ _
    unfold Dev.growTo
    dsimp only
    split
    · exact .refl _ _
    · generalize (if (d.entry i).plist.length % (d.tokb (d.entry i).slot / 256) = 0 ∨ (d.entry i).earmark.isEmpty
        then d.allocBlock i else (d, true)) = z at *
      split
      · refine .trans ?_ (ih _)
        refine .trans (.trans hroom ?_) (Dev.setPlist_sameRuns _ _ _ _)
        exact .modEntry _ _ fun x => ⟨rfl, rfl, rfl, rfl, rfl, rfl, rfl, rfl⟩
      · exact hroom

theorem Dev.refund_sameRuns (d : Dev) (i hits : Nat) : d.sameRuns (d.refund i hits) i := by
  unfold Dev.refund
  dsimp only
  split
  · exact .refl _ _
  · exact .trans (.of_frame (.creditPool (d.onlyIn_refl [.regs]))) (.modEntry _ _ fun x => ⟨rfl, rfl, rfl, rfl, rfl, rfl, rfl, rfl⟩)

theorem Dev.dropNode_entries (k : Nat) (d : Dev) (n : Nat) : (Dev.dropNode k d n).srv.entries = d.srv.entries := by
  induction k generalizing d n with
  | zero => rfl
  | succ k ih =>
    unfold Dev.dropNode
    split
    · rfl
    · dsimp only
      split
      · rfl
      · split
        · rfl
        · split
          · exact (ih _ _).trans rfl
          · rfl

theorem Dev.evictNode_entries (d : Dev) (n : Nat) : (d.evictNode n).srv.entries = d.srv.entries := by
  unfold Dev.evictNode
  split
  · rfl
  · exact (Dev.dropNode_entries _ _ _).trans rfl

theorem Dev.treeRoom_entries (k : Nat) (d : Dev) (p h : Nat) : (Dev.treeRoom k d p h).1.srv.entries = d.srv.entries := by
  induction k generalizing d with
  | zero => rfl
  | succ k ih =>
    unfold Dev.treeRoom
    dsimp only
    split
    · rfl
    · split
      · rfl
      · exact (ih _).trans (d.evictNode_entries _)

theorem Dev.treeRoom_sameRuns (k : Nat) (d : Dev) (p h i : Nat) : d.sameRuns (Dev.treeRoom k d p h).1 i :=
  .of_entries (.treeRoom (d.onlyIn_refl [.regs, .srv])) (Dev.treeRoom_entries k d p h)

theorem Dev.sameRuns.foldl {α : Type} {g : Dev → α → Dev} {i : Nat} (hg : ∀ (d : Dev) a, d.sameRuns (g d a) i) (xs : List α) (d : Dev) :
    d.sameRuns (xs.foldl g d) i :=
  List.foldlRecOn (motive := fun e => d.sameRuns e i) xs g (Dev.sameRuns.refl d i) fun _ he a _ => he.trans (hg _ a)

theorem Dev.sameRuns.onSrv (d : Dev) (i : Nat) {g : Srv → Srv} (hg : ∀ x : Srv, (g x).entries = x.entries) : d.sameRuns (d.onSrv g) i :=
  .of_entries (.onSrv (d.onlyIn_refl [.srv])) (hg _)

theorem Dev.sameRuns.ite {c : Prop} [Decidable c] {d e f : Dev} {i : Nat} (h : d.sameRuns e i) (k : d.sameRuns f i) :
    d.sameRuns (if c then e else f) i := by
  split
  · exact h
  · exact k

/-- The node of a block joins the tree, under its parent. -/
def Dev.joinNode (d : Dev) (nd : Node) (parent : Option Nat) : Dev :=
  let n := d.newNode
  let d := { d with free := d.free + 1 }.onSrv (fun s => { s with nodes := tset s.nodes n nd })
  match parent with
  | some m => d.onSrv (fun s => { s with nodes := s.nodes.map (fun (y : Nat × Node) => if y.1 = m then (y.1, { y.2 with refs := y.2.refs + 1 }) else y) })
  | none => d

theorem Dev.joinNode_sameRuns (d : Dev) (nd : Node) (parent : Option Nat) (i : Nat) : d.sameRuns (d.joinNode nd parent) i := by
  have hnode : d.sameRuns ({ d with free := d.free + 1 }.onSrv (fun s => { s with nodes := tset s.nodes d.newNode nd })) i :=
    .of_entries (Dev.onlyIn.onSrv (.set_free (d.onlyIn_refl [.srv, .free]))) rfl
  unfold Dev.joinNode
  dsimp only
  split
  · exact .trans hnode (.onSrv _ i fun _ => rfl)
  · exact hnode

theorem Dev.publish_sameRuns (d : Dev) (i b : Nat) : d.sameRuns (d.publish i b) i := by
  have hroom := Dev.treeRoom_sameRuns (d.srv.nodes.length + 1) d (d.entry i).part (d.tokb (d.entry i).slot / 256) i
  unfold Dev.publish
  dsimp only
  generalize (if b = 0 then none else (d.entry i).nodes[b - 1]?) = parent
  generalize Dev.treeRoom (d.srv.nodes.length + 1) d (d.entry i).part (d.tokb (d.entry i).slot / 256) = z at *
  refine .ite (.refl _ _) (.ite (.refl _ _) (.ite hroom ?_))
  refine .trans ?_ (.modEntry _ _ fun x => ⟨rfl, rfl, rfl, rfl, rfl, rfl, rfl, rfl⟩)
  refine .trans ?_ (.of_frame (.creditPool (Dev.onlyIn_refl _ [.regs])))
  refine .trans ?_ (.foldl (fun d gi => d.setPlist_sameRuns i _ _) _ _)
  exact .trans hroom (Dev.joinNode_sameRuns z.1 _ parent i)

theorem Dev.publishFull_sameRuns (d : Dev) (i was : Nat) : d.sameRuns (d.publishFull i was) i := .foldl (fun d b => d.publish_sameRuns i b) _ _

/-! ## SETUP_DONE (08 R226, R227) -/

/-- A request that has its prompt's tokens. -/
def Entry.prompted (x : Entry) (ts : List W32) : Entry := { x with prompt := ts, lastToken := ts.getLast?.getD 0 }

/-- With the tree of prompts off nothing of a prompt is cached: the request takes pages for its first row, and goes on. -/
theorem Dev.finishSetup_uncached {d : Dev} {i : Nat} (hoff : d.getF (rSrvPfxCtrl (d.entry i).part) fSrvPfxCtrl_En = 0) (k : Nat) (ts : List W32) :
    ∃ e : Dev, (d.modEntry i (fun x => x.prompted ts)).sameRuns e i
      ∧ d.finishSetup i k ts = e.modEntry i (fun x => { x with pos := 0, state := if x.plen - 0 = 1 then .decode else .prefill }) := by
  have hpart : ((d.modEntry i (fun x => x.prompted ts)).entry i).part = (d.entry i).part := by
    rw [Dev.modEntry_entry_self]
    rfl
  have htree : ((d.modEntry i (fun x => x.prompted ts)).getF (rSrvPfxCtrl ((d.modEntry i (fun x => x.prompted ts)).entry i).part) fSrvPfxCtrl_En == 1
      && !(d.modEntry i (fun x => x.prompted ts)).slotM4 ((d.modEntry i (fun x => x.prompted ts)).entry i).slot) = false := by
    rw [hpart, show (d.modEntry i (fun x => x.prompted ts)).getF _ _ = 0 from hoff]
    rfl
  have hgrow : ∀ m n, (d.modEntry i (fun x => x.prompted ts)).sameRuns (Dev.growTo m ((d.modEntry i (fun x => x.prompted ts)).refund i 0) i n).1 i :=
    fun m n => .trans (Dev.refund_sameRuns _ i 0) (Dev.growTo_sameRuns m _ i n)
  unfold Dev.finishSetup Entry.prompted at *
  dsimp only at *
  rw [htree]
  exact ⟨_, hgrow _ _, rfl⟩

theorem Dev.landSetup_frame (d : Dev) (home : Nat) (bs : List Byte) : d.onlyIn (d.landSetup home bs) [.sram] :=
  List.foldlRecOn (motive := fun e : Dev => d.onlyIn e [.sram]) _ _ (d.onlyIn_refl _) fun _ he _ _ => .set_sram he

/-- A request whose token list has landed takes the prompt, and goes on. -/
theorem Dev.setupDone_runs {d d1 : Dev} {i : Nat} {eng : Engine} {bs : List Byte} (hadm : (d.entry i).state = .admitted)
    (hread : ∀ r ∈ d.hif.reads, r.purpose ≠ .tokens i) (heng : d.setupEngine (d.entry i) = some eng)
    (hdma : d.dmaRead eng (d.entry i).pkey (d.entry i).tokensVa (4 * (d.entry i).plen) = (d1, .ok (bs, 0))) :
    d.setupDone i = (d1.landSetup (d.entry i).home bs).finishSetup i eng.sect (tokensOf bs) := by
  have hgo : ¬ ((d.entry i).state ≠ .admitted ∨ d.hif.reads.any (fun r => r.purpose == .tokens i) = true) := by
    rintro (h | h)
    · exact h hadm
    · obtain ⟨r, hr, h⟩ := List.any_eq_true.mp h
      exact hread r hr (eq_of_beq h)
  unfold Dev.setupDone
  dsimp only
  rw [if_neg hgo, heng]
  dsimp only
  rw [hdma]
  rfl

theorem setup_runs (s : State) (i : EntryId) (eng : Engine) (d1 : Dev) (bs : List Byte) :
    let d := s.dev
    let x := d.entry i
    x.state = .admitted → (∀ r ∈ d.hif.reads, r.purpose ≠ .tokens i) → d.setupEngine x = some eng →
    d.dmaRead eng x.pkey x.tokensVa (4 * x.plen) = (d1, .ok (bs, 0)) → d1.entry i = x →
    d.getF (rSrvPfxCtrl x.part) fSrvPfxCtrl_En = 0 → d1.getF (rSrvPfxCtrl x.part) fSrvPfxCtrl_En = 0 →
    ∃ e : Dev, exec (.setupDone i) s = .next { s with dev := e }
      ∧ (e.entry i).prompt = tokensOf bs ∧ (e.entry i).lastToken = (tokensOf bs).getLast?.getD 0 ∧ (e.entry i).pos = 0
      ∧ (e.entry i).state = (if x.plen = 1 then .decode else .prefill)
      ∧ (∀ j : Nat, j ≠ i → e.entry j = d1.entry j) ∧ e.cq = d1.cq ∧ e.tiles = d1.tiles := by
  intro d x hadm hread heng hdma hx _ hoff
  have hland := d1.landSetup_frame x.home bs
  have hent : ∀ j, (d1.landSetup x.home bs).entry j = d1.entry j := fun j => by rw [Dev.entry, hland .srv rfl]; rfl
  have htree : (d1.landSetup x.home bs).getF (rSrvPfxCtrl ((d1.landSetup x.home bs).entry i).part) fSrvPfxCtrl_En = 0 := by
    rw [hent, hx, Dev.getF_of_regs (hland .regs rfl)]
    exact hoff
  obtain ⟨f, hruns, hfin⟩ := Dev.finishSetup_uncached htree eng.sect (tokensOf bs)
  have hstep : exec (.setupDone i) s = .next { s with dev := d.setupDone i } := rfl
  rw [hstep, Dev.setupDone_runs hadm hread heng hdma, hfin]
  obtain ⟨hrun, hothers, hcq, htiles⟩ := hruns
  obtain ⟨-, hprompt, hplen, -, hlast, -, -, -⟩ := hrun
  rw [Dev.modEntry_entry_self, hent, hx] at hprompt hplen hlast
  refine ⟨_, rfl, ?_⟩
  rw [Dev.modEntry_entry_self]
  refine ⟨hprompt, hlast, rfl, ?_, fun j hj => ?_, ?_, ?_⟩
  · show (if (f.entry i).plen - 0 = 1 then ReqState.decode else .prefill) = _
    rw [hplen]
    rfl
  · rw [Dev.modEntry_entry_ne _ _ hj, hothers j hj, Dev.modEntry_entry_ne _ _ hj, hent]
  · exact hcq.trans (hland .cq rfl)
  · exact htiles.trans (hland .tiles rfl)


/-! ## SERVING_CYCLE (08 R225, 10 R305) -/

theorem Dev.sectorWake_gated_self (d : Dev) (k : Nat) : (d.sectorWake k).getF (rPwrSectMax k) fPwrSectMax_Gated = 0 :=
  Dev.getF_putF_self (d.modSect k _) _ fPwrSectMax_Gated 0 (by decide)

theorem Dev.sectorWake_keeps_ungated {d : Dev} {k : Nat} (h : d.getF (rPwrSectMax k) fPwrSectMax_Gated = 0) (j : Nat) :
    (d.sectorWake j).getF (rPwrSectMax k) fPwrSectMax_Gated = 0 := by
  by_cases hj : rPwrSectMax k = rPwrSectMax j
  · rw [hj]
    exact d.sectorWake_gated_self j
  · exact (Dev.getF_putF_ne _ fPwrSectMax_Gated _ _ hj).trans h

/-- Every sector woken runs its clock. -/
theorem Dev.foldl_sectorWake_ungated (ks : List Nat) (d : Dev) :
    ∀ k, k ∈ ks ∨ d.getF (rPwrSectMax k) fPwrSectMax_Gated = 0 →
      (ks.foldl (fun d k => d.sectorWake k) d).getF (rPwrSectMax k) fPwrSectMax_Gated = 0 := by
  induction ks generalizing d with
  | nil => rintro k (hk | hk); exacts [absurd hk List.not_mem_nil, hk]
  | cons j ks ih =>
    intro k hk
    refine ih (d.sectorWake j) k ?_
    rcases hk with hk | hk
    · rcases List.mem_cons.mp hk with rfl | hk
      · exact .inr (d.sectorWake_gated_self k)
      · exact .inl hk
    · exact .inr (Dev.sectorWake_keeps_ungated hk j)

theorem Dev.sectorsOf_lt {d : Dev} {p k : Nat} (h : k ∈ d.sectorsOf p) : k < 6 := List.mem_range.mp (List.mem_of_mem_filter h)

theorem Dev.hasEpoch_of_gates {d e : Dev} (hregs : d.regsBut e gateRegs) : e.hasEpoch = d.hasEpoch := by
  rw [Dev.hasEpoch, Dev.getF_of_regsBut hregs (by decide)]
  rfl

/-- Whether a partition runs on the fold does not depend on the clock gates. -/
theorem Dev.foldPart_of_gates {d e : Dev} (hfab : e.fab = d.fab) (hregs : d.regsBut e gateRegs) (p : Nat) : e.foldPart p = d.foldPart p := by
  simp only [Dev.foldPart, Dev.jobsByte, hfab, Dev.hasEpoch_of_gates hregs]

theorem Dev.nextPeriod_of_gates {d e : Dev} (hfab : e.fab = d.fab) (hregs : d.regsBut e gateRegs) : e.nextPeriod = d.nextPeriod := by
  simp only [Dev.nextPeriod, Dev.period, Dev.hdr, hfab, Dev.hasEpoch_of_gates hregs]

/-- A partition of the fold gets its next period; the rest of the device stays. -/
theorem Dev.readyFold_srv (d : Dev) (p : Nat) : (d.readyFold p).srv = { d.srv with
    foldFrom := if d.foldPart p = true then tmod d.srv.foldFrom 0 p (fun b => if d.fab.beatNo ≤ b ∧ thas d.srv.foldFrom p then b else d.nextPeriod)
      else d.srv.foldFrom } := by
  unfold Dev.readyFold
  cases d.foldPart p <;> rfl

theorem cycle_starts (s : State) (p : PartId) :
    let d := s.dev
    let idle : Prop := d.inState p .decode = [] ∧ d.inState p .prefill = []
    let owes : Prop := thas d.srv.cycles p = true ∧ (d.stepsLeft p ≠ [] ∨ d.inState p .prefill ≠ [])
    (d.cyclesRun p = false ∨ idle ∨ owes → exec (.servingCycle p) s = .next s)
    ∧ (d.cyclesRun p = true → ¬ idle → ¬ owes → ∃ e : Dev, exec (.servingCycle p) s = .next { s with dev := e }
        ∧ e.srv = { d.srv with
            cycles := tset d.srv.cycles p d.time, stepsDone := tdel d.srv.stepsDone p
            entries := d.srv.entries.map (fun (z : Nat × Entry) => if z.2.part = p then (z.1, { z.2 with fresh := false }) else z)
            foldFrom := if d.foldPart p = true then
                tmod d.srv.foldFrom 0 p (fun b => if d.fab.beatNo ≤ b ∧ thas d.srv.foldFrom p then b else d.nextPeriod)
              else d.srv.foldFrom }
        ∧ (∀ k ∈ d.sectorsOf p, e.getF (rPwrSectMax k) fPwrSectMax_Gated = 0)
        ∧ e.pwr = { d.pwr with runs := tset d.pwr.runs p d.pwr.sums }
        ∧ d.regsBut e ((List.range 6).map rPwrSectMax) ∧ d.onlyIn e [.srv, .regs, .sect, .pwr]) := by
  intro d idle owes
  have hrest : (!d.cyclesRun p ∨ (thas d.srv.cycles p ∧ (!(d.stepsLeft p).isEmpty ∨ !(d.inState p .prefill).isEmpty))
      ∨ ((d.inState p .decode).isEmpty ∧ (d.inState p .prefill).isEmpty)) ↔ (d.cyclesRun p = false ∨ idle ∨ owes) := by
    simp only [Bool.not_eq_true', List.isEmpty_iff, List.isEmpty_eq_false_iff, idle, owes]
    tauto
  have hstep : exec (.servingCycle p) s = .next { s with dev := d.servingCycle p } := rfl
  rw [hstep]
  unfold Dev.servingCycle
  constructor
  · intro h
    rw [if_pos (hrest.mpr h)]
  · intro hrun hidle howes
    rw [if_neg (fun h => by rcases hrest.mp h with h | h | h; exacts [by simp [hrun] at h, hidle h, howes h])]
    have hwake := Dev.foldl_sectorWake (d.sectorsOf p) (fun k hk => Dev.sectorsOf_lt hk) d
    have hungated := Dev.foldl_sectorWake_ungated (d.sectorsOf p) d
    generalize (d.sectorsOf p).foldl (fun d k => d.sectorWake k) d = f at hwake hungated
    obtain ⟨hregs, hframe⟩ := hwake
    have hsrv := hframe .srv rfl
    have hpwr := hframe .pwr rfl
    have htime := hframe .time rfl
    have hfab := hframe .fab rfl
    generalize hg : Dev.onSrv (f.runBegins p) _ = g
    have hgsrv : g.srv = { d.srv with
        cycles := tset d.srv.cycles p d.time, stepsDone := tdel d.srv.stepsDone p
        entries := d.srv.entries.map (fun (z : Nat × Entry) => if z.2.part = p then (z.1, { z.2 with fresh := false }) else z) } := by
      rw [← hg, ← hsrv, ← htime]
      rfl
    have hgregs : d.regsBut g gateRegs := by rw [← hg]; exact hregs
    have hgfab : g.fab = d.fab := by rw [← hg]; exact hfab
    have hgframe : d.onlyIn g [.srv, .regs, .sect, .pwr] := by
      rw [← hg]
      exact Dev.onlyIn.onSrv (.runBegins (Dev.onlyIn_sub _ hframe rfl))
    have hready : g.onlyIn (g.readyFold p) [.srv] := .readyFold (g.onlyIn_refl _)
    refine ⟨_, rfl, ?_, fun k hk => ?_, ?_, Dev.regsBut_trans hgregs (fun _ _ => Dev.reg_congr (hready .regs rfl) _), Dev.onlyIn.after hgframe hready rfl⟩
    · rw [Dev.readyFold_srv, Dev.foldPart_of_gates hgfab hgregs, Dev.nextPeriod_of_gates hgfab hgregs, hgfab, hgsrv]
    · rw [Dev.getF_of_regs (hready .regs rfl), ← hg]
      exact hungated k (.inl hk)
    · rw [hready .pwr rfl, ← hg, ← hpwr]
      rfl


/-! ## DECODE_STEP (08 R228, R229, R233) -/

/-- What stands when a decode step of slot `n` of partition `p` may run. -/
def Dev.stepStands (d : Dev) (p n : Nat) : Prop :=
  d.stepInTime p ≠ none ∧ d.cyclesRun p = true ∧ thas d.srv.cycles p = true
    ∧ (d.stepsLeft p).head? = some n ∧ d.descsFit p n = true ∧ ∀ i ∈ d.decodersOf p n, (d.entry i).outs = []

theorem Dev.not_stepStands_iff (d : Dev) (p n : Nat) :
    ((d.stepInTime p).isNone ∨ !d.cyclesRun p ∨ !thas d.srv.cycles p ∨ (d.stepsLeft p).head? ≠ some n ∨ !d.descsFit p n
      ∨ (d.decodersOf p n).any (fun e => !(d.entry e).outs.isEmpty)) ↔ ¬ d.stepStands p n := by
  simp only [Dev.stepStands, Option.isNone_iff_eq_none, Bool.not_eq_true', List.any_eq_true, List.isEmpty_eq_false_iff, not_and_or, not_forall,
    ne_eq, not_not, Bool.not_eq_true, exists_prop]

theorem Dev.coltAdapt_sameRuns (d : Dev) (i n k : Nat) : d.sameRuns (d.coltAdapt i n k) i := by
  unfold Dev.coltAdapt
  dsimp only
  have hcount : d.sameRuns ((d.addF (rSrvColtPass (d.entry i).part) fSrvColtPass_Pass 1).addF (rSrvColtTok (d.entry i).part) fSrvColtTok_Tok k) i :=
    .of_frame (.addF (.addF (d.onlyIn_refl [.regs])))
  refine .ite (.refl _ _) (.ite ?_ (.ite ?_ ?_))
  · exact .trans hcount (.modEntry _ _ fun x => ⟨rfl, rfl, rfl, rfl, rfl, rfl, rfl, rfl⟩)
  · refine .trans ?_ (.of_frame (.addF (Dev.onlyIn_refl _ [.regs])))
    exact .trans hcount (.modEntry _ _ fun x => ⟨rfl, rfl, rfl, rfl, rfl, rfl, rfl, rfl⟩)
  · exact .trans hcount (.modEntry _ _ fun x => ⟨rfl, rfl, rfl, rfl, rfl, rfl, rfl, rfl⟩)

/-- What a decode step of one request keeps of its tokens. -/
theorem Dev.afterStep_verified {d : Dev} {r : StepResult} (hst : (d.entry r.entry).state = .decode) (hp : r.poison = false) :
    let x := d.entry r.entry
    let v := x.verify (x.gen + 1) r.mainRows r.coltRows (r.drafts.take x.drafts)
    let ts := cutEos x.eos v.1
    let y := (d.afterStep r).entry r.entry
    y.outs = (ts.zip (List.range ts.length)).map (fun t => ⟨t.1, x.gen + 1 + t.2, r.aflags ||| v.2⟩)
      ∧ y.gen = x.gen + ts.length ∧ y.output = x.output ++ ts ∧ y.pos = x.pos + (v.1.length - 1) + 1
      ∧ y.lastToken = ts.getLast?.getD x.lastToken ∧ y.state = .decode := by
  intro x v ts y
  have hy : d.afterStep r = (((d.produce r.entry ts (r.aflags ||| v.2)).coltAdapt r.entry x.drafts (v.1.length - 1)).modEntry r.entry
      (fun y => { y with pos := y.pos + (v.1.length - 1) + 1 })).publishFull r.entry x.pos := by
    unfold Dev.afterStep
    dsimp only
    rw [if_neg (not_not.mpr hst), if_neg (by simp [hp])]
  obtain ⟨hcolt, -, -, -⟩ := (d.produce r.entry ts (r.aflags ||| v.2)).coltAdapt_sameRuns r.entry x.drafts (v.1.length - 1)
  generalize (d.produce r.entry ts (r.aflags ||| v.2)).coltAdapt r.entry x.drafts (v.1.length - 1) = f at hy hcolt
  obtain ⟨hpub, -, -, -⟩ := (f.modEntry r.entry (fun y => { y with pos := y.pos + (v.1.length - 1) + 1 })).publishFull_sameRuns r.entry x.pos
  rw [← hy, Dev.modEntry_entry_self] at hpub
  rw [Dev.produce, Dev.modEntry_entry_self] at hcolt
  obtain ⟨hstate, -, -, hpos, hlast, houts, hgen, houtput⟩ := hpub
  obtain ⟨hstate', -, -, hpos', hlast', houts', hgen', houtput'⟩ := hcolt
  exact ⟨houts.trans houts', hgen.trans hgen', houtput.trans houtput', hpos.trans (congrArg (· + (v.1.length - 1) + 1) hpos'), hlast.trans hlast',
    hstate.trans (hstate'.trans hst)⟩

theorem decode_steps (s : State) (p : PartId) (n : SlotId) (rs : List StepResult) (d1 : Dev) (es : List Nat) :
     let d := s.dev
     let stands : Prop := d.stepInTime p ≠ none ∧ d.cyclesRun p = true ∧ thas d.srv.cycles p = true
       ∧ (d.stepsLeft p).head? = some n.val ∧ d.descsFit p n = true ∧ ∀ i ∈ d.decodersOf p n, (d.entry i).outs = []
     (¬ stands → exec (.decodeStep p n rs) s = .next s)
     ∧ (stands → d.readyBatch (d.decodersOf p n) d.decodeRows = (d1, es) → d1.covers es rs = true →
       let d2 := (es.zip (List.range es.length)).foldl (fun d z => d.beforeStep z.1 z.2)
         (d1.latchRc p (stepCounts (d1.inTiles p es.length) es.length))
       let d3 := (d2.stepWrites p rs).1
       let rs' := (d2.stepWrites p rs).2
       let d4 := d3.runEnds p (d.stepPhase p n es.length)
       (d.foldPart p = true → exec (.decodeStep p n rs) s = .next { s with
           dev := if d.stepInTime p = some true then d4.keepRun p (.step n rs') else d4.rerun p })
       ∧ (d.foldPart p = false → ∃ e : Dev, exec (.decodeStep p n rs) s = .next { s with dev := e }
           ∧ (tget e.srv.stepsDone [] p).contains n.val = true
           ∧ (∀ r : StepResult, rs' = [r] → r.poison = false → (d4.entry r.entry).state = .decode →
               let x := d4.entry r.entry
               let v := x.verify (x.gen + 1) r.mainRows r.coltRows (r.drafts.take x.drafts)
               let ts := cutEos x.eos v.1
               let y := e.entry r.entry
               y.outs = (ts.zip (List.range ts.length)).map (fun t => ⟨t.1, x.gen + 1 + t.2, r.aflags ||| v.2⟩)
                 ∧ y.gen = x.gen + ts.length ∧ y.output = x.output ++ ts ∧ y.pos = x.pos + (v.1.length - 1) + 1
                 ∧ y.lastToken = ts.getLast?.getD x.lastToken ∧ y.state = .decode))) := by
  intro d stands
  have hstep : exec (.decodeStep p n rs) s = .next { s with dev := d.decodeStep p n rs } := rfl
  rw [hstep]
  unfold Dev.decodeStep
  constructor
  · intro h
    rw [if_pos ((d.not_stepStands_iff p n).mpr h)]
  · intro h hbatch hcov d2 d3 rs' d4
    rw [if_neg (fun k => (d.not_stepStands_iff p n).mp k h), hbatch]
    dsimp only
    rw [if_neg (by simp [hcov])]
    change (d.foldPart p = true → Host.Outcome.next { s with dev := (if !d.foldPart p then d4.finishStep p n rs'
        else if d.stepInTime p = some true then d4.keepRun p (.step n rs') else d4.rerun p) } = _)
      ∧ (d.foldPart p = false → ∃ e : Dev, Host.Outcome.next { s with dev := (if !d.foldPart p then d4.finishStep p n rs'
        else if d.stepInTime p = some true then d4.keepRun p (.step n rs') else d4.rerun p) } = _ ∧ _)
    clear_value d2 d3 rs' d4
    constructor
    · intro hfold
      rw [hfold]
      rfl
    · intro hfold
      rw [hfold]
      refine ⟨_, rfl, ?_, fun r hr hp hst => ?_⟩
      · show (tget (tmod (rs'.foldl (fun d r => d.afterStep r) d4).srv.stepsDone [] p (· ++ [n.val])) [] p).contains n.val = true
        rw [tget_tmod_self]
        simp
      · subst hr
        exact Dev.afterStep_verified hst hp


/-! ## PREFILL_SLICE (08 R227, R230, 09 R250) -/

/-- What stands when prefill slices with the results `rs` may run in partition `p`. -/
def Dev.sliceStands (d : Dev) (p : Nat) (rs : List SliceResult) : Prop :=
  d.stepInTime p ≠ none ∧ d.cyclesRun p = true ∧ thas d.srv.cycles p = true ∧ d.stepsLeft p = []
    ∧ d.sliceFits rs = true ∧ d.sliceSmall p rs = true ∧ ∀ r ∈ rs, d.descsFit p (d.entry r.entry).slot = true

theorem Dev.not_sliceStands_iff (d : Dev) (p : Nat) (rs : List SliceResult) :
    ((d.stepInTime p).isNone ∨ !d.cyclesRun p ∨ !thas d.srv.cycles p ∨ !(d.stepsLeft p).isEmpty ∨ !d.sliceFits rs ∨ !d.sliceSmall p rs
      ∨ rs.any (fun r => !d.descsFit p (d.entry r.entry.val).slot)) ↔ ¬ d.sliceStands p rs := by
  simp only [Dev.sliceStands, Option.isNone_iff_eq_none, Bool.not_eq_true', List.any_eq_true, List.isEmpty_eq_false_iff, not_and_or, not_forall,
    ne_eq, not_not, Bool.not_eq_true, exists_prop]

theorem thas_tdel_self {α : Type} (t : Tab α) (k : Nat) : thas (tdel t k) k = false := by
  simp [thas, tdel]

theorem Dev.foldl_idleSince (ks : List Nat) (d : Dev) :
    let e := ks.foldl (fun d k => d.modSect k (fun s => { s with idleSince := d.time })) d
    d.onlyIn e [.sect] ∧ ∀ k, k ∈ ks ∨ (tget d.sect {} k).idleSince = d.time → (tget e.sect {} k).idleSince = d.time := by
  induction ks generalizing d with
  | nil => exact ⟨d.onlyIn_refl _, fun k hk => hk.resolve_left List.not_mem_nil⟩
  | cons j ks ih =>
    obtain ⟨hframe, hidle⟩ := ih (d.modSect j (fun s => { s with idleSince := d.time }))
    refine ⟨Dev.onlyIn_trans (.modSect (d.onlyIn_refl _)) hframe, fun k hk => hidle k ?_⟩
    by_cases hkj : k = j
    · subst hkj
      refine .inr ?_
      rw [Dev.modSect_sect, tget_tmod_self]
      rfl
    · refine hk.imp (fun hk => (List.mem_cons.mp hk).resolve_left hkj) (fun hk => ?_)
      rw [Dev.modSect_sect, tget_tmod_ne _ _ _ hkj]
      exact hk

/-- At the end of a cycle its partition's sectors are idle, and the cycle is gone. -/
theorem Dev.endCycle_ends (d : Dev) (p : Nat) :
    (d.endCycle p).srv = { d.srv with cycles := tdel d.srv.cycles p, stepsDone := tdel d.srv.stepsDone p }
      ∧ (∀ k ∈ d.sectorsOf p, (tget (d.endCycle p).sect {} k).idleSince = d.time) ∧ d.onlyIn (d.endCycle p) [.srv, .sect] := by
  obtain ⟨hframe, hidle⟩ := Dev.foldl_idleSince (d.sectorsOf p) d
  unfold Dev.endCycle
  generalize (d.sectorsOf p).foldl (fun d k => d.modSect k (fun s => { s with idleSince := d.time })) d = f at hframe hidle
  refine ⟨?_, fun k hk => hidle k (.inl hk), Dev.onlyIn.onSrv (Dev.onlyIn_sub _ hframe rfl)⟩
  rw [← hframe .srv rfl]
  rfl

theorem Dev.endCycle_sameRuns (d : Dev) (p i : Nat) : d.sameRuns (d.endCycle p) i := by
  obtain ⟨hsrv, -, hframe⟩ := d.endCycle_ends p
  exact .of_entries hframe (by rw [hsrv])

theorem Dev.afterSlice_partly {d : Dev} {r : SliceResult} (hst : (d.entry r.entry).state = .prefill) (hp : r.poison = false)
    (hpart : (d.entry r.entry).pos + r.tokens ≠ (d.entry r.entry).plen) :
    (d.modEntry r.entry (fun y => { y with pos := y.pos + r.tokens })).sameRuns (d.afterSlice r) r.entry := by
  unfold Dev.afterSlice
  dsimp only
  rw [if_neg (not_not.mpr hst), if_neg (by simp [hp]), if_pos hpart]
  exact Dev.publishFull_sameRuns _ _ _

/-- The rows that the slices `rs` give a request. -/
def Dev.sliceRows (d : Dev) (rs : List SliceResult) (x : Entry) : Nat :=
  x.pos + ((rs.find? (fun r => (d.entry r.entry.val).order == x.order)).elim 0 (·.tokens))

theorem Dev.sliceRows_single (d : Dev) (r : SliceResult) :
    d.sliceRows [r] = fun x => x.pos + if (d.entry r.entry).order = x.order then r.tokens else 0 := by
  funext x
  unfold Dev.sliceRows
  rw [List.find?_singleton]
  by_cases h : (d.entry r.entry).order = x.order
  · rw [if_pos h, if_pos (beq_iff_eq.mpr h)]
    rfl
  · rw [if_neg h, if_neg (fun k => h (beq_iff_eq.mp k))]
    rfl

/-- What one slice writes before its products: its scores' rows and its descriptors. -/
def Dev.beforeSlice (d : Dev) (r : SliceResult) (i : Nat) : Dev :=
  let x := d.entry r.entry
  (if d.slotM4 x.slot then (List.range r.tokens).foldl (fun d j => d.writeScore r.entry (x.pos + j) none (x.pos + j)) d
    else d).writeKvDescs r.entry i (x.pos + r.tokens) r.tokens x.pos

/-- What follows the slices' writes: their outcome, or in a fold partition its wait. -/
def Dev.slicesEnd (d d4 : Dev) (p : Nat) (rs : List SliceResult) : Dev :=
  if !d.foldPart p then d4.finishSlice p rs
  else if d.stepInTime p = some true then d4.keepRun p (.slice rs)
  else d4.rerun p

theorem Dev.prefillSlice_runs {d d1 : Dev} {p : Nat} {rs : List SliceResult} (h : d.sliceStands p rs)
    (hbatch : d.readyBatch ((d.prefillOrder p).take rs.length) (d.sliceRows rs) = (d1, rs.map (fun r => r.entry.val))) :
    let d2 := (rs.zip (List.range rs.length)).foldl (fun d z => d.beforeSlice z.1 z.2) (d1.latchRc p (stepCounts 1 rs.length))
    let d3 := (d2.sliceWrites p rs).1
    let d4 := (rs.head?.map (fun r => slicePhase p (d.entry r.entry.val).slot)).elim d3 (d3.runEnds p)
    d.prefillSlice p rs = d.slicesEnd d4 p (d2.sliceWrites p rs).2 := by
  intro d2 d3 d4
  unfold Dev.prefillSlice
  rw [if_neg (fun k => (d.not_sliceStands_iff p rs).mp k h)]
  unfold Dev.sliceRows at hbatch
  dsimp only
  rw [hbatch]
  dsimp only
  rw [if_neg (not_not.mpr rfl)]
  cases rs <;> rfl

/-- One slice's writes give one result, of the same request and rows. -/
theorem Dev.sliceWrites_single (d : Dev) (p : Nat) (r : SliceResult) :
    ∃ r' : SliceResult, (d.sliceWrites p [r]).2 = [r'] ∧ r'.entry = r.entry ∧ r'.tokens = r.tokens := ⟨_, rfl, rfl, rfl⟩

theorem slices_run (s : State) (p : PartId) (rs : List SliceResult) :
     let d := s.dev
     let stands : Prop := d.stepInTime p ≠ none ∧ d.cyclesRun p = true ∧ thas d.srv.cycles p = true ∧ d.stepsLeft p = []
       ∧ d.sliceFits rs = true ∧ d.sliceSmall p rs = true ∧ ∀ r ∈ rs, d.descsFit p (d.entry r.entry).slot = true
     (¬ stands → exec (.prefillSlice p rs) s = .next s)
     ∧ (stands → rs = [] → d.foldPart p = true → exec (.prefillSlice p rs) s = .next { s with
           dev := if d.stepInTime p = some true then (d.latchRc p [1, 0, 0]).keepRun p (.slice []) else (d.latchRc p [1, 0, 0]).rerun p })
     ∧ (stands → rs = [] → d.foldPart p = false → ∃ e : Dev, exec (.prefillSlice p rs) s = .next { s with dev := e }
         ∧ e.srv = { d.srv with
             cycles := tdel d.srv.cycles p, stepsDone := tdel d.srv.stepsDone p, counts := tset d.srv.counts p [1, 0, 0] }
         ∧ (∀ k ∈ d.sectorsOf p, (tget e.sect {} k).idleSince = d.time) ∧ d.onlyIn e [.srv, .sect])
     ∧ (∀ (r : SliceResult) (d1 : Dev), stands → rs = [r] →
         d.readyBatch ((d.prefillOrder p).take 1) (fun x => x.pos + if (d.entry r.entry).order = x.order then r.tokens else 0)
           = (d1, [r.entry.val]) →
         let d2 := (let x := d1.entry r.entry
           let d1 := d1.latchRc p [1, 0, 1]
           (if d1.slotM4 x.slot then (List.range r.tokens).foldl (fun d j => d.writeScore r.entry (x.pos + j) none (x.pos + j)) d1
             else d1).writeKvDescs r.entry 0 (x.pos + r.tokens) r.tokens x.pos)
         let d3 := (d2.sliceWrites p [r]).1
         let x := d3.entry r.entry
         d.foldPart p = false → (∀ r' ∈ (d2.sliceWrites p [r]).2, r'.poison = false) → x.state = .prefill →
         x.pos + r.tokens ≠ x.plen →
         ∃ e : Dev, exec (.prefillSlice p rs) s = .next { s with dev := e }
           ∧ (e.entry r.entry).pos = x.pos + r.tokens ∧ (e.entry r.entry).state = .prefill
           ∧ thas e.srv.cycles p = false ∧ (e.entry r.entry).outs = x.outs) := by
  intro d stands
  have hstep : exec (.prefillSlice p rs) s = .next { s with dev := d.prefillSlice p rs } := rfl
  rw [hstep]
  refine ⟨fun h => ?_, fun h hrs hfold => ?_, fun h hrs hfold => ?_, ?_⟩
  · rw [Dev.prefillSlice, if_pos ((d.not_sliceStands_iff p rs).mpr h)]
  · subst hrs
    rw [Dev.prefillSlice_runs h (d1 := d) (by simp [Dev.readyBatch]), Dev.slicesEnd, hfold]
    rfl
  · subst hrs
    rw [Dev.prefillSlice_runs h (d1 := d) (by simp [Dev.readyBatch]), Dev.slicesEnd, hfold]
    obtain ⟨hsrv, hidle, hframe⟩ := (d.latchRc p [1, 0, 0]).endCycle_ends p
    exact ⟨_, rfl, hsrv, hidle, Dev.onlyIn.after (.onSrv (d.onlyIn_refl [.srv, .sect])) hframe rfl⟩
  · intro r d1 h hrs hbatch d2 d3 x hfold hpoison hst hpart
    subst hrs
    rw [← d.sliceRows_single r] at hbatch
    have hrun := Dev.prefillSlice_runs (rs := [r]) h hbatch
    change d.prefillSlice p [r] = d.slicesEnd (d3.runEnds p (slicePhase p (d.entry r.entry.val).slot)) p (d2.sliceWrites p [r]).2 at hrun
    obtain ⟨r', hout, hentry, htokens⟩ := d2.sliceWrites_single p r
    rw [hout] at hrun hpoison
    rw [Dev.slicesEnd, hfold] at hrun
    have hstart : d3.sameRuns (d3.runEnds p (slicePhase p (d.entry r.entry.val).slot)) r.entry := .of_frame (.runEnds (d3.onlyIn_refl [.pwr]))
    clear_value d2 d3
    generalize d3.runEnds p (slicePhase p (d.entry r.entry.val).slot) = d4 at hrun hstart
    obtain ⟨⟨hstate4, -, hplen4, hpos4, -, houts4, -, -⟩, -, -, -⟩ := hstart
    have hslice := Dev.afterSlice_partly (d := d4) (r := r') (by rw [hentry, hstate4]; exact hst) (hpoison r' (List.mem_singleton.mpr rfl))
      (by rw [hentry, hpos4, hplen4, htokens]; exact hpart)
    have hend := (d4.afterSlice r').endCycle_sameRuns p r.entry
    obtain ⟨hsrv, -, -⟩ := (d4.afterSlice r').endCycle_ends p
    rw [hentry, htokens] at hslice
    obtain ⟨⟨hstate, -, -, hpos, -, houts, -, -⟩, -, -, -⟩ := Dev.sameRuns.trans hslice hend
    rw [Dev.modEntry_entry_self] at hstate hpos houts
    refine ⟨_, congrArg (fun e => Host.Outcome.next { s with dev := e }) hrun, ?_, ?_, ?_, ?_⟩
    · exact hpos.trans (congrArg (· + r.tokens) hpos4)
    · exact hstate.trans (hstate4.trans hst)
    · show thas ((d4.afterSlice r').endCycle p).srv.cycles p = false
      rw [hsrv]
      exact thas_tdel_self _ _
    · exact houts.trans houts4

/-- Settles O25: a setup with the tree of prompts off changes of its request the prompt and its state only; a cycle marks its requests and ungates its
sectors; a step or slice leaves its outcome to the request, which taking pages and publishing blocks keep. -/
theorem servingCyclesRun : Obligations.ServingCyclesRun := by
  unfold Obligations.ServingCyclesRun
  exact ⟨⟨setup_runs, cycle_starts⟩, decode_steps, slices_run⟩

end Sys2Proof.Machine
end

section
/-! # What parts the operations may change: Reads through cursors, and the instructions that make them

The lemma about an operation has its name, in the order of the definitions. -/

namespace Sys2Proof.Machine
-- These proofs are many and small: elaborated all at once they take more threads than the checker has.
set_option Elab.async false
namespace Dev.onlyIn
variable {d₀ d e : Dev} {C : List Comp}

theorem countPoisonRead (h₀ : d₀.onlyIn d C) {g : Nat} (sub : among [.regs] C := by rfl) : d₀.onlyIn (d.countPoisonRead g) C :=
  h₀.after (Dev.countPoisonRead_frame _ _) (among.sub sub)

theorem noteWait (h₀ : d₀.onlyIn d C) {n w : Nat} (sub : among [.regs, .free] C := by rfl) : d₀.onlyIn (d.noteWait n w) C :=
  h₀.after (Dev.noteWait_frame _ _ _) (among.sub sub)

theorem clearFetched (h₀ : d₀.onlyIn d C) {k : Nat} (sub : among [.cq] C := by rfl) : d₀.onlyIn (d.clearFetched k) C :=
  h₀.into sub fun _ hd => .set_cq hd

theorem awaitLists (h₀ : d₀.onlyIn d C) {c : Cmd} {t : Nat} {ls : List (Nat × List (List Int))} (sub : among [.regs, .cq,
  .tiles, .hif] C := by rfl) : d₀.onlyIn (d.awaitLists c t ls).1 C := by
  refine h₀.into sub fun _ hd => ?_
  clear h₀ sub
  unfold Dev.awaitLists
  refine .ite1 hd ?_
  split
  next he => exact .clearFetched (fst he (.awaitGrans hd))
  · exact .awaitGrans hd

end Dev.onlyIn
end Sys2Proof.Machine
end

section
/-! # Reads through cursors, and the instructions that make them -/

namespace Sys2Proof.Machine

/-! ## Where no upset waits, reads leave none (12 R338) -/

/-- No upset waits in any array. -/
def Dev.calm (d : Dev) : Prop := d.upsets = []

namespace Dev.calm

variable {d e : Dev}

theorem of_frame {cs : List Comp} (h : d.calm) (hf : d.onlyIn e cs) (hu : cs.contains .upsets = false := by rfl) : e.calm := (hf .upsets hu).trans h

theorem foldl {α : Type} {f : Dev → α → Dev} {l : List α} (h : d.calm) (hf : ∀ e a, Dev.calm e → (f e a).calm) : (l.foldl f d).calm :=
  List.foldlRecOn l f h fun e he a _ => hf e a he

theorem foldl1 {α β : Type} {f : Dev × β → α → Dev × β} {l : List α} {b : β} (h : d.calm) (hf : ∀ z a, Dev.calm z.1 → (f z a).1.calm) :
    (l.foldl f (d, b)).1.calm := List.foldlRecOn (motive := fun z : Dev × β => z.1.calm) l f h fun z hz a _ => hf z a hz

theorem ite {c : Prop} [Decidable c] {d e : Dev} (h : d.calm) (k : e.calm) : (if c then d else e).calm := by split <;> assumption

theorem ite1 {α : Type} {c : Prop} [Decidable c] {x y : Dev × α} (h : x.1.calm) (k : y.1.calm) : (if c then x else y).1.calm := by
  split <;> assumption

theorem fst {α : Type} {x : Dev × α} {e : Dev} {a : α} (hx : x = (e, a)) (h : x.1.calm) : e.calm := by
  subst hx
  exact h

theorem readGran (h : d.calm) (src g : Nat) : (d.readGran src g).1.calm := by
  unfold Dev.readGran
  dsimp only
  rw [Dev.transfer_clean h]
  dsimp only
  rw [Dev.checkBitmap_clean h]
  have hp : (d.countPoisonRead g).calm := h.of_frame (.countPoisonRead (d.onlyIn_refl [.regs]))
  have hlog : ∀ ty b, (d.logErr g ty b src).calm := fun ty b => h.of_frame (.logErr (d.onlyIn_refl [.regs, .cs, .gan, .hif]))
  have hpois : (d.poisonGran g src).calm := h.of_frame (.poisonGran (d.onlyIn_refl [.regs, .stk, .cs, .gan, .hif]))
  generalize d.stk.flag g = f
  split
  · exact hp
  · rw [if_neg (by decide)]
    split
    · exact h
    · split
      · exact hp
      · split
        · exact h
        · split
          · exact hlog _ _
          · split
            · dsimp only
              exact hpois
            · split
              · dsimp only
                exact hpois
              · exact h
              · exact h

theorem readStk (h : d.calm) (src a n : Nat) : (d.readStk src a n).1.calm := .foldl1 h fun _ _ hz => .readGran hz _ _

theorem writeWhole (h : d.calm) (g : Nat) (bs : List Byte) (poison : Bool) (bad : Nat) : (d.writeWhole g bs poison bad).calm := by
  unfold Dev.writeWhole
  dsimp only
  rw [Dev.transfer_clean h]
  dsimp only
  rw [Dev.checkBitmap_clean h]
  exact .ite h (.ite h h)

theorem writeGran (h : d.calm) (a : Nat) (bs : List Byte) (poison : Bool) : (d.writeGran a bs poison).calm := by
  unfold Dev.writeGran
  dsimp only
  generalize (bitsOf (d.reg rRasInject) 6 34 * 64 == granOf a && fld (d.reg rRasInject) fRasInject_Mode != 0) = hit
  have hput : (if hit = true then d.putF rRasInject fRasInject_Mode 0 else d).calm := .ite h h
  generalize (if hit = true then d.putF rRasInject fRasInject_Mode 0 else d) = f at hput
  exact .ite h (.ite (.writeWhole hput _ _ _ _) (.ite (.readGran hput _ _) (.readGran hput _ _)))

theorem writeStk (h : d.calm) (a : Nat) (bs : List Byte) (poison : Bool) : (d.writeStk a bs poison).calm := .foldl h fun _ _ he => .writeGran he _ _ _

theorem serve (h : d.calm) (a : Access) : (d.serve a).calm := by
  have hclosed : (d.blkErr pgHif).calm := h.of_frame (.blkErr (d.onlyIn_refl [.regs, .hif]))
  unfold Dev.serve
  dsimp only
  refine .ite ?_ ?_
  · split
    · exact hclosed
    · exact hclosed.of_frame (.sendOut (Dev.onlyIn_refl _ [.hif]))
  · split
    · exact .writeStk h _ _ _
    · have hread := Dev.calm.readStk h 4 a.addr a.len
      refine .of_frame ?_ (.sendOut (Dev.onlyIn_refl _ [.hif]))
      exact .ite hread hread

theorem inWindow (h : d.calm) (l : Nat) : (d.inWindow l).calm := by
  have hwait : ∀ {e : Dev} (n w : Nat), e.calm → (e.noteWait n w).calm := fun n w he => he.of_frame (.noteWait (Dev.onlyIn_refl _ [.regs, .free]))
  unfold Dev.inWindow
  refine .ite h (.ite (hwait _ _ ?_) ?_) <;> exact .foldl h fun _ _ he => .serve (hwait _ _ he) _

theorem readSramGran (h : d.calm) (tile : Bool) (base u off : Nat) : (d.readSramGran tile base u off).1.calm := by
  unfold Dev.readSramGran
  rw [Dev.readWords_clean h]
  exact .ite1 h h

theorem readHomeGran (h : d.calm) (src g : Nat) : (d.readHomeGran src g).1.calm :=
  .ite1 (.readGran (.inWindow h _) _ _) (.ite1 (.readSramGran h _ _ _ _) (.ite1 (.readSramGran h _ _ _ _) (.ite1 h h)))

theorem readBy (h : d.calm) (k src a n : Nat) : (d.readBy k src a n).1.calm := .foldl1 h fun _ _ hz => .readHomeGran hz _ _

/-! Address translation (06 R178 on). -/

theorem readPte (h : d.calm) (eng : Engine) (a : Nat) : (d.readPte eng a).1.calm := .ite1 h (.ite1 (.readBy h _ _ _ _) (.readBy h _ _ _ _))

theorem walk (h : d.calm) (eng : Engine) (va : Nat) : (d.walk eng va).1.calm := by
  unfold Dev.walk
  dsimp only
  split
  next h1 => exact .fst h1 (.readPte h _ _)
  next h1 =>
    have hroot := Dev.calm.fst h1 (.readPte h _ _)
    refine .ite1 hroot ?_
    split
    next h2 => exact .fst h2 (.readPte hroot _ _)
    next h2 =>
      have hmid := Dev.calm.fst h2 (.readPte hroot _ _)
      refine .ite1 hmid (.ite1 hmid ?_)
      split
      next h3 => exact .fst h3 (.readPte hmid _ _)
      next h3 =>
        have hleaf := Dev.calm.fst h3 (.readPte hmid _ _)
        exact .ite1 hleaf hleaf

theorem readPlist (h : d.calm) (p list i : Nat) : (d.readPlist p list i).1.calm := by
  unfold Dev.readPlist
  dsimp only
  split
  next h1 => exact .fst h1 (.walk h _ _)
  next h1 =>
    have hwalk := Dev.calm.fst h1 (.walk h _ _)
    split
    · exact hwalk
    · exact .ite1 (.readBy hwalk _ _ _ _) (.readBy hwalk _ _ _ _)

theorem kvAddr (h : d.calm) (p va : Nat) (write : Bool) : (d.kvAddr p va write).1.calm := by
  unfold Dev.kvAddr Dev.kvResolve
  split
  · exact h
  · refine .ite1 h ?_
    split
    next h1 => exact .fst h1 (.readPlist h _ _ _)
    next h1 =>
      have hlist := Dev.calm.fst h1 (.readPlist h _ _ _)
      exact .ite1 hlist (.ite1 hlist hlist)

theorem xlate (h : d.calm) (eng : Engine) (pkey va : Nat) (write : Bool) : (d.xlate eng pkey va write).1.calm := by
  unfold Dev.xlate
  split
  next h1 => exact .fst h1 (.kvAddr h _ _ _)
  next h1 =>
    have hkv := Dev.calm.fst h1 (.kvAddr h _ _ _)
    unfold Dev.xlatePage
    split
    next h2 => exact .fst h2 (.walk hkv _ _)
    next h2 =>
      have hwalk := Dev.calm.fst h2 (.walk hkv _ _)
      split
      · exact hwalk
      · exact .ite1 hwalk (.ite1 hwalk hwalk)

theorem locOf (h : d.calm) (rc : Reach) (k va : Nat) (write inTile : Bool) : (d.locOf rc k va write inTile).1.calm := by
  unfold Dev.locOf
  split
  next h1 => exact .fst h1 (.xlate h _ _ _ _)
  next h1 => exact .ite1 (.fst h1 (.xlate h _ _ _ _)) (.fst h1 (.xlate h _ _ _ _))

end Dev.calm

/-! Elements read in one step (03 R68, 06 R169). -/

namespace StepRead

variable {r : StepRead}

theorem calm_of {α : Type} {x : StepRead × α} {r : StepRead} {y : α} (hx : x = (r, y)) (h : x.1.dev.calm) : r.dev.calm := by
  subst hx
  exact h

theorem bytes_calm (h : r.dev.calm) (e : Engine) (a n : Nat) : (r.bytes e a n).1.dev.calm := by
  refine List.foldlRecOn (motive := fun x : StepRead × List Byte × Nat => x.1.dev.calm) _ _ h fun x hx g _ => ?_
  unfold StepRead.gran
  dsimp only
  cases tfind x.1.seen g with
  | some _ => exact hx
  | none => exact .readBy hx _ _ _ _

theorem listEntry_calm (h : r.dev.calm) (rc : Reach) (k n : Nat) : (r.listEntry rc k n).1.dev.calm := by
  unfold StepRead.listEntry
  dsimp only
  split
  next h1 => exact .fst h1 (.xlate h _ _ _ _)
  next h1 =>
    have hbytes := StepRead.bytes_calm (r := { r with dev := _ }) (.fst h1 (.xlate h _ _ _ _))
    split
    · exact hbytes _ _ _
    · exact hbytes _ _ _

theorem place_calm (h : r.dev.calm) (rc : Reach) (k : Nat) (cs : List Int) : (r.place rc k cs).1.dev.calm :=
  Dev.memWf.placeBy (p := fun r : StepRead => r.dev.calm) (fun _ _ hr => listEntry_calm hr _ _ _) h

theorem scale_calm (h : r.dev.calm) (rc : Reach) (x : Desc) (cs : List Int) (inTile : Bool) : (r.scale rc x cs inTile).1.dev.calm := by
  unfold StepRead.scale
  dsimp only
  split
  next h1 => exact .fst h1 (.locOf h _ _ _ _ _)
  next h1 => exact bytes_calm (r := { r with dev := _ }) (.fst h1 (.locOf h _ _ _ _ _)) _ _ _

theorem at_calm (h : r.dev.calm) (rc : Reach) (k : Nat) (cs : List Int) (inTile : Bool) : (r.at_ rc k cs inTile).1.dev.calm := by
  unfold StepRead.at_
  dsimp only
  split
  next h1 => exact .fst h1 (.locOf h _ _ _ _ _)
  next h1 => exact bytes_calm (r := { r with dev := _ }) (.fst h1 (.locOf h _ _ _ _ _)) _ _ _

theorem elem_calm (h : r.dev.calm) (rc : Reach) (k : Nat) (cs : List Int) (inTile scales : Bool) : (r.elem rc k cs inTile scales).1.dev.calm := by
  have hplace := r.place_calm h rc k cs
  have hscale : ∀ {q : StepRead}, q.dev.calm → ∀ src, (q.scale rc (rc.desc k) src inTile).1.dev.calm := fun hq src => scale_calm hq _ _ _ _
  unfold StepRead.elem
  dsimp only
  split
  next h1 => exact calm_of h1 hplace
  next h1 => exact calm_of h1 hplace
  next h1 => exact calm_of h1 hplace
  next h1 =>
    split
    · split
      next h2 => exact calm_of h2 (hscale (calm_of h1 hplace) _)
      next h2 => exact calm_of h2 (hscale (calm_of h1 hplace) _)
    · exact calm_of h1 hplace
  next h1 =>
    have hat := at_calm (calm_of h1 hplace)
    split
    next h2 => exact calm_of h2 (hat _ _ _ _)
    next h2 =>
      have hread := calm_of h2 (hat _ _ _ _)
      split
      · split
        next h3 => exact calm_of h3 (hscale hread _)
        next h3 => exact calm_of h3 (hscale hread _)
      · exact hread

theorem elems_calm (h : r.dev.calm) (rc : Reach) (k : Nat) (inTile scales : Bool) (cs : List (List Int)) :
    (StepRead.elems rc k inTile scales r cs).1.dev.calm := by
  induction cs generalizing r with
  | nil => exact h
  | cons c cs ih =>
    unfold StepRead.elems
    split
    next h1 => exact calm_of h1 (elem_calm h _ _ _ _ _)
    next h1 => exact ih (calm_of h1 (elem_calm h _ _ _ _ _))

end StepRead

theorem Dev.readElems_calm {d : Dev} (h : d.calm) (rc : Reach) (k : Nat) (inTile scales : Bool) (cs : List (List Int)) :
    (Dev.readElems rc k inTile scales d cs).1.calm := by
  have helems := StepRead.elems_calm (r := { dev := d }) h rc k inTile scales cs
  unfold Dev.readElems
  split
  next h1 => exact StepRead.calm_of h1 helems
  next h1 => exact StepRead.calm_of h1 helems

theorem Dev.awaitLists_calm {d : Dev} (h : d.calm) (c : Cmd) (t : Nat) (ls : List (Nat × List (List Int))) : (d.awaitLists c t ls).1.calm :=
  h.of_frame (.awaitLists (d.onlyIn_refl [.regs, .cq, .tiles, .hif]))


/-! ## A part of a vector register written (04 R121) -/

/-- Flags met and a register written, its slot done: the effect of an instruction that reads through a cursor. -/
theorem Dev.setVreg_slotDone {d : Dev} (h : d.calm) (t s r lo n : Nat) (c : Cmd) (v : List Elem) (f : Byte) :
    d.vectorDone ((((d.addFlags c.id f).regDrop t r lo n).modTile t (fun x => x.setVreg r v)).slotDone t s) t c r v f := by
  have hdrop : (d.addFlags c.id f).regDrop t r lo n = d.addFlags c.id f := Dev.regDrop_clean (d := d.addFlags c.id f) h t r lo n
  rw [hdrop]
  have htile : ((d.addFlags c.id f).modTile t (fun x => x.setVreg r v)).tile t = (d.tile t).setVreg r v := Dev.tile_modTile_self _ _ _
  have hbut : d.tilesBut ((d.addFlags c.id f).modTile t (fun x => x.setVreg r v)) t := fun u hu => Dev.tile_modTile_ne _ _ hu
  have honly : d.onlyIn ((d.addFlags c.id f).modTile t (fun x => x.setVreg r v)) [.tiles, .cq] := .modTile (.addFlags (d.onlyIn_refl _))
  have hcq : ((d.addFlags c.id f).modTile t (fun x => x.setVreg r v)).cq = d.cq.flagged c.id f := rfl
  generalize (d.addFlags c.id f).modTile t (fun x => x.setVreg r v) = e at *
  obtain ⟨hwork, hcur, hbut', honly'⟩ := e.slotDone_frame t s
  rw [htile] at hwork hcur
  obtain ⟨hregs, h2, h3, h4, h5, h6, h7, h8, h9, h10, h11, h12, h13, h14, h15, h16⟩ := hwork
  refine ⟨?_, ⟨fun q hq => ?_, ?_, fun hl => hcur hl⟩, Dev.tilesBut_trans hbut hbut', (honly' .cq rfl).trans hcq, Dev.onlyIn.after honly honly' rfl⟩
  · rw [Tile.now, hregs]
    exact Tile.now_setVreg_self _ _ _
  · rw [Tile.now, hregs]
    exact Tile.now_setVreg_ne _ _ (by simpa using hq)
  · exact ⟨rfl, h2.symm, h3.symm, h4.symm, h5.symm, h6.symm, h7.symm, h8.symm, h9.symm, h10.symm, h11.symm, h12.symm, h13.symm, h14.symm,
      h15.symm, h16.symm⟩

/-- Asking for list entries leaves every tile. -/
theorem Dev.sendRead_headTiles (d : Dev) (r : OutRead) : d.onlyIn (d.sendRead none r) [.regs, .cq, .hif] := by
  have hfail : d.onlyIn (d.hostFail r.addr) [.regs, .cq, .hif] := .hostFail (d.onlyIn_refl _)
  unfold Dev.sendRead
  refine .ite ?_ (.set_hif (d.onlyIn_refl _))
  dsimp only
  split
  next heq => exact absurd heq (by simp)
  next => exact .headFailed hfail
  next => exact hfail

theorem Dev.awaitLists_tiles (d : Dev) (c : Cmd) (t : Nat) (ls : List (Nat × List (List Int))) :
    d.onlyIn (d.awaitLists c t ls).1 [.regs, .cq, .hif] := by
  have hgrans : ∀ k f gs, d.onlyIn (d.awaitGrans k f gs).1 [.regs, .cq, .hif] := fun k f gs => by
    have hfold := List.foldlRecOn (motive := fun e : Dev => d.onlyIn e [.regs, .cq, .hif]) gs (fun (d : Dev) (g : HostGran) =>
      if (!(d.fetchedAt k).got.contains g.addr) && !d.hif.reads.any (fun r => r.purpose == .head k && r.addr == g.addr) then
        d.sendRead none { func := f, addr := g.addr, len := 64, purpose := .head k, vaddr := g.vaddr, handle := g.handle, sentAt := 0 }
      else d) (d.onlyIn_refl _) fun e he g _ => .ite (Dev.onlyIn_trans he (e.sendRead_headTiles _)) he
    unfold Dev.awaitGrans
    dsimp only
    split
    · exact hfold
    · exact hfold
  unfold Dev.awaitLists
  refine .ite1 (d.onlyIn_refl _) ?_
  split
  next heq => exact .clearFetched (.fst heq (hgrans _ _ _))
  · exact hgrans _ _ _

/-- A tile whose list entries have come stands as it stood. -/
theorem Dev.tile_awaited {d d0 : Dev} {c : Cmd} {t : Nat} {ls : List (Nat × List (List Int))} {b : Bool}
    (h : d.awaitLists c t ls = (d0, .ok b)) (u : Nat) : d0.tile u = d.tile u :=
  Dev.tile_congr ((Dev.onlyIn.fst h (d.awaitLists_tiles c t ls)) .tiles rfl) u

theorem Dev.handle_of_tile {d e : Dev} {t : Nat} (h : e.tile t = d.tile t) (v : Nat) : e.handle t v = d.handle t v := by
  rw [Dev.handle, Dev.resolve, h]
  rfl

theorem orAll_map_snd {α : Type} (l : List α) (f : α → Elem × Byte) :
    ((l.map f).foldl (fun a v => a ||| v.2) 0) = orAll (l.map (fun x => (f x).2)) := by
  rw [orAll, List.foldl_map, List.foldl_map]

/-- What was read becomes part of a register, from element `lo` on, each by `f`, and the slot is done. -/
def Dev.putPart {α : Type} (d : Dev) (t s : Nat) (c : Cmd) (r lo n : Nat) (f : α → Elem × Byte) (es : List α) : Dev :=
  let old := tget (d.tile t).vregs zeroReg r
  (((d.addFlags c.id ((es.map f).foldl (fun a v => a ||| v.2) 0)).regDrop t r lo n).modTile t
    (fun x => x.setVreg r (old.take lo ++ (es.map f).map (·.1) ++ old.drop (lo + n)))).slotDone t s

theorem Dev.putPart_done {α : Type} {d : Dev} (h : d.calm) (t s : Nat) (c : Cmd) (r lo n : Nat) (f : α → Elem × Byte) (es : List α) :
    let e := d.putPart t s c r lo n f es
    (e.tile t).now r = ((d.tile t).now r).take lo ++ es.map (fun x => (f x).1) ++ ((d.tile t).now r).drop (lo + n)
      ∧ (d.tile t).vregsBut (e.tile t) [r] ∧ d.tilesBut e t ∧ e.cq = d.cq.flagged c.id (orAll (es.map (fun x => (f x).2)))
      ∧ d.onlyIn e [.tiles, .cq] := by
  have hdone := Dev.setVreg_slotDone h t s r lo n c (((d.tile t).now r).take lo ++ (es.map f).map (·.1) ++ ((d.tile t).now r).drop (lo + n))
    ((es.map f).foldl (fun a v => a ||| v.2) 0)
  rw [orAll_map_snd, List.map_map] at hdone
  rw [Dev.putPart, orAll_map_snd, List.map_map]
  exact hdone

/-- The element that XRD makes of a partial, and the flags it meets. -/
def readoutOf (w : W64) (x : ElemRead) : Elem × Byte :=
  (⟨(readPartial (asPartial x) (signed 9 (bitsOf w 28 9))).1, x.out != 0 || partialPoison (asPartial x)⟩,
    (readPartial (asPartial x) (signed 9 (bitsOf w 28 9))).2)

theorem xrd_computes (s : State) (t : TileId) (c : Cmd) (w : W64) (d0 d' : Dev) (es : List ElemRead) : s.dev.issuing t 1 0xE c w →
    let h := s.dev.handle t (bitsOf w 6 13)
    let r := bitsOf w 19 5
    let g := 8 * bitsOf w 24 4
    s.dev.formReason t (bitsOf w 37 27 != 0) false [bitsOf w 6 13] = 0 → ((c.reach t).desc h).elem = 12 →
    (s.dev.tile t).written.contains r = false →
    (s.dev.awaitLists c t (s.dev.rowLists t c 8 [h]) = (d0, .ok false) → exec (.xrd t) s = .next { s with dev := d0 })
    ∧ (s.dev.awaitLists c t (s.dev.rowLists t c 8 [h]) = (d0, .ok true) → d0.read8 t c h = (d', .ok es) →
    let out (x : ElemRead) : W32 × Byte := readPartial (asPartial x) (signed 9 (bitsOf w 28 9))
    ∃ e : Dev, exec (.xrd t) s = .next { s with dev := e }
      ∧ (e.tile t).now r = ((d'.tile t).now r).take g
          ++ es.map (fun x => ⟨(out x).1, x.out != 0 || partialPoison (asPartial x)⟩) ++ ((d'.tile t).now r).drop (g + 8)
      ∧ (d'.tile t).vregsBut (e.tile t) [r] ∧ d'.tilesBut e t
      ∧ e.cq = d'.cq.flagged c.id (orAll (es.map (fun x => (out x).2))) ∧ d'.onlyIn e [.tiles, .cq]) := by
  intro hissue h r g hform helem hwritten
  obtain ⟨-, -, -, -, -, hop, hcalm, -⟩ := id hissue
  have hword : wordReason 1 w = 0 := wordReason_defined (by rw [hop]; rfl) (by rw [hop]; decide)
  have hstep : exec (.xrd t) s = .next { s with dev := s.dev.xrdIssue t } := rfl
  have hlegal : firstReason [s.dev.formReason t (bitsOf w 37 27 != 0) false [bitsOf w 6 13],
      if s.dev.formReason t (bitsOf w 37 27 != 0) false [bitsOf w 6 13] = 0
        ∧ ((c.reach t).desc (s.dev.handle t (bitsOf w 6 13))).elem ≠ 12 then 5 else 0, s.dev.conflict t [bitsOf w 19 5]] = 0 := by
    rw [hform, if_neg (fun k => k.2 helem), Dev.conflict, List.any_cons, hwritten]
    rfl
  rw [hstep]
  constructor
  · intro hawait
    rw [Dev.xrdIssue, Dev.issue_awaits hissue hword hlegal hawait]
    rfl
  · intro hawait hread out
    have hd' : d'.calm := .fst hread (Dev.readElems_calm (.fst hawait (Dev.awaitLists_calm hcalm _ _ _)) _ _ _ _ _)
    rw [Dev.xrdIssue, Dev.issue_awaits hissue hword hlegal hawait, if_pos rfl, Dev.handle_of_tile (Dev.tile_awaited hawait t),
      show d0.read8 t c (s.dev.handle t (bitsOf w 6 13)) = (d', .ok es) from hread]
    exact ⟨d'.putPart t 1 c r g 8 (readoutOf w) es, rfl, Dev.putPart_done hd' t 1 c r g 8 (readoutOf w) es⟩

/-- The element that VLD makes of what it read, and the flags it meets. -/
def widenedOf (x : Desc) (y : ElemRead) : Elem × Byte :=
  if noTerm x y then ({}, 0) else (⟨(widen x.elem y.scale y.code).1, y.out != 0⟩, (widen x.elem y.scale y.code).2)

theorem vld_loads (s : State) (t : TileId) (c : Cmd) (w : W64) (d0 d' : Dev) (es : List ElemRead) : s.dev.issuing t 2 1 c w →
    let h := s.dev.handle t (bitsOf w 15 13)
    let r := bitsOf w 10 5
    let span := partSpan (bitsOf w 28 2)
    let x := (c.reach t).desc h
    let lists := s.dev.rowLists t c span.2 [h]
    s.dev.vecMemReason t c w 30 [r] = 0 →
    (s.dev.awaitLists c t lists = (d0, .ok false) → exec (.vld t) s = .next { s with dev := d0 })
    ∧ (s.dev.awaitLists c t lists = (d0, .ok true) →
    Dev.readElems (c.reach t) h true true d0 ((List.range span.2).map (fun i => coordsAt (d0.cursor t h) i 0)) = (d', .ok es) →
    let val (y : ElemRead) : Elem × Byte :=
      if x.scaleEn && y.scale.isNone then ({}, 0)
      else (⟨(widen x.elem y.scale y.code).1, y.out != 0⟩, (widen x.elem y.scale y.code).2)
    ∃ e : Dev, exec (.vld t) s = .next { s with dev := e }
      ∧ (e.tile t).now r = ((d'.tile t).now r).take span.1 ++ es.map (fun y => (val y).1)
          ++ ((d'.tile t).now r).drop (span.1 + span.2)
      ∧ (d'.tile t).vregsBut (e.tile t) [r] ∧ d'.tilesBut e t
      ∧ e.cq = d'.cq.flagged c.id (orAll (es.map (fun y => (val y).2))) ∧ d'.onlyIn e [.tiles, .cq]) := by
  intro hissue h r span x lists hlegal
  obtain ⟨-, -, -, -, -, hop, hcalm, -⟩ := id hissue
  have hword : wordReason 2 w = 0 := wordReason_defined (by rw [hop]; rfl) (by rw [hop]; decide)
  have hstep : exec (.vld t) s = .next { s with dev := s.dev.vldIssue t } := rfl
  rw [hstep]
  constructor
  · intro hawait
    rw [Dev.vldIssue, Dev.issue_awaits hissue hword hlegal hawait]
    rfl
  · intro hawait hread val
    have hd' : d'.calm := .fst hread (Dev.readElems_calm (.fst hawait (Dev.awaitLists_calm hcalm _ _ _)) _ _ _ _ _)
    rw [Dev.vldIssue, Dev.issue_awaits hissue hword hlegal hawait, if_pos rfl, Dev.handle_of_tile (Dev.tile_awaited hawait t)]
    dsimp only
    rw [show Dev.readElems (c.reach t) (s.dev.handle t (bitsOf w 15 13)) true true d0
      (laneCoords (d0.cursor t (s.dev.handle t (bitsOf w 15 13))) (partSpan (bitsOf w 28 2)).2 0) = (d', .ok es) from hread]
    exact ⟨d'.putPart t 2 c r span.1 span.2 (widenedOf x) es, rfl, Dev.putPart_done hd' t 2 c r span.1 span.2 (widenedOf x) es⟩

theorem vst_stores (s : State) (t : TileId) (c : Cmd) (w : W64) : s.dev.issuing t 2 2 c w → s.dev.vecMemReason t c w 31 [] = 0 →
    let h := s.dev.handle t (bitsOf w 15 13)
    let span := partSpan (bitsOf w 28 2)
    let v := (s.dev.tile t).vreg (bitsOf w 10 5)
    let d1 := (s.dev.nextSeq c.id).store (c.writer (s.dev.tile t).rank c.nextSeq) (c.reach t) h true
      (if bitOf w 30 then some true else none)
      ((List.range span.2).map (fun i => ⟨coordsAt ((s.dev.tile t).cursor h) i 0, 5, (v.getD (span.1 + i) {}).val.toNat, none,
        (v.getD (span.1 + i) {}).poison⟩))
    ∃ e : Dev, exec (.vst t) s = .next { s with dev := e }
      ∧ (d1.tile t).sameWork (e.tile t) ∧ d1.tilesBut e t ∧ d1.onlyIn e [.tiles] := by
  intro hissue hlegal h span v d1
  obtain ⟨-, -, -, -, -, hop, -, -⟩ := id hissue
  have hword : wordReason 2 w = 0 := wordReason_defined (by rw [hop]; rfl) (by rw [hop]; decide)
  have hrun : s.dev.vstIssue t = d1.slotDone t 2 := Dev.issue_performs hissue hword hlegal (Dev.awaitLists_nil _ _ _)
  have hstep : exec (.vst t) s = .next { s with dev := s.dev.vstIssue t } := rfl
  obtain ⟨hwork, -, hframe⟩ := d1.slotDone_frame t 2
  exact ⟨_, hstep.trans (by rw [hrun]), hwork, hframe⟩

/-- Settles O4: what is read has no upset behind it, so that the register written loses none. -/
theorem vldLoadsVstStores : Obligations.VldLoadsVstStores := by
  unfold Obligations.VldLoadsVstStores
  exact ⟨vld_loads, vst_stores⟩

/-- Two lists of one length, taken together by their places. -/
theorem zip_eq_map_range {α : Type} {as bs : List α} {n : Nat} (ha : as.length = n) (hb : bs.length = n) (z : α) :
    as.zip bs = (List.range n).map (fun i => (as.getD i z, bs.getD i z)) := by
  refine List.ext_getElem (by simp [ha, hb]) fun i hi _ => ?_
  have hlen : i < as.length ∧ i < bs.length := by simpa using hi
  rw [List.getElem_zip, List.getElem_map, List.getElem_range, List.getD_eq_getElem _ _ hlen.1, List.getD_eq_getElem _ _ hlen.2]

/-- The sum of two partials at the word's ANCHOR, with its flags, and its mark. -/
def sumOf (w : W64) (p : ElemRead × ElemRead) : (BitVec 128 × Byte) × Bool :=
  (exactSum (signed 10 (bitsOf w 45 10)) [asPartial p.1, asPartial p.2], p.1.out != 0 || p.2.out != 0)

/-- Eight partials are stored through DST's cursor, their flags met. -/
def Dev.storeSums (d : Dev) (t : Nat) (c : Cmd) (k : Nat) (rs : List ((BitVec 128 × Byte) × Bool)) : Dev :=
  let d := d.addFlags c.id (rs.foldl (fun f r => f ||| r.1.2) 0)
  (d.nextSeq c.id).store (c.writer (d.tile t).rank c.nextSeq) (c.reach t) k true none
    ((List.range 8).map (fun i => ⟨coordsAt ((d.tile t).cursor k) i 0, 12, (rs.getD i ((0, 0), false)).1.1.toNat, none, (rs.getD i ((0, 0), false)).2⟩))

/-- Eight sums stored, written out by their places. -/
theorem Dev.storeSums_range (d : Dev) (t : Nat) (c : Cmd) (k : Nat) (f : Nat → (BitVec 128 × Byte) × Bool) :
    d.storeSums t c k ((List.range 8).map f) =
      let d := d.addFlags c.id (orAll ((List.range 8).map (fun i => (f i).1.2)))
      (d.nextSeq c.id).store (c.writer (d.tile t).rank c.nextSeq) (c.reach t) k true none
        ((List.range 8).map (fun i => ⟨coordsAt ((d.tile t).cursor k) i 0, 12, (f i).1.1.toNat, none, (f i).2⟩)) := by
  have hget : ∀ i ∈ List.range 8, ((List.range 8).map f).getD i ((0, 0), false) = f i := fun i hi => by
    rw [List.getD_eq_getElem _ _ (by simpa using hi), List.getElem_map, List.getElem_range]
  have hflags : ((List.range 8).map f).foldl (fun a r => a ||| r.1.2) 0 = orAll ((List.range 8).map (fun i => (f i).1.2)) := by
    rw [orAll, List.foldl_map, List.foldl_map]
  rw [Dev.storeSums, hflags]
  dsimp only
  exact congrArg (Dev.store _ _ _ k true none) (List.map_congr_left fun i hi => by rw [hget i hi])

theorem xadd_computes (s : State) (t : TileId) (c : Cmd) (w : W64) (d0 d1 d2 : Dev) (as bs : List ElemRead) : s.dev.issuing t 1 0xD c w →
    let h1 := s.dev.handle t (bitsOf w 6 13)
    let h2 := s.dev.handle t (bitsOf w 19 13)
    let h3 := s.dev.handle t (bitsOf w 32 13)
    s.dev.formReason t (bitsOf w 55 9 != 0) false [bitsOf w 6 13, bitsOf w 19 13, bitsOf w 32 13] = 0 →
    ((c.reach t).desc h1).elem = 12 → ((c.reach t).desc h2).elem = 12 → ((c.reach t).desc h3).elem = 12 →
    (s.dev.awaitLists c t (s.dev.rowLists t c 8 [h1, h2]) = (d0, .ok false) → exec (.xadd t) s = .next { s with dev := d0 })
    ∧ (s.dev.awaitLists c t (s.dev.rowLists t c 8 [h1, h2]) = (d0, .ok true) →
    d0.read8 t c h1 = (d1, .ok as) → d1.read8 t c h2 = (d2, .ok bs) →
    let sum (i : Nat) : BitVec 128 × Byte := exactSum (signed 10 (bitsOf w 45 10))
      [asPartial (as.getD i ⟨0, none, 0⟩), asPartial (bs.getD i ⟨0, none, 0⟩)]
    let bad (i : Nat) : Bool := (as.getD i ⟨0, none, 0⟩).out != 0 || (bs.getD i ⟨0, none, 0⟩).out != 0
    let d3 := d2.addFlags c.id (orAll ((List.range 8).map (fun i => (sum i).2)))
    let d4 := (d3.nextSeq c.id).store (c.writer (d3.tile t).rank c.nextSeq) (c.reach t) h3 true none
      ((List.range 8).map (fun i => ⟨coordsAt ((d3.tile t).cursor h3) i 0, 12, (sum i).1.toNat, none, bad i⟩))
    as.length = 8 → bs.length = 8 →
    ∃ e : Dev, exec (.xadd t) s = .next { s with dev := e }
      ∧ (d4.tile t).sameWork (e.tile t) ∧ d4.tilesBut e t ∧ d4.onlyIn e [.tiles]) := by
  intro hissue h1 h2 h3 hform helem1 helem2 helem3
  obtain ⟨-, -, -, -, -, hop, -, -⟩ := id hissue
  have hword : wordReason 1 w = 0 := wordReason_defined (by rw [hop]; rfl) (by rw [hop]; decide)
  have hstep : exec (.xadd t) s = .next { s with dev := s.dev.xaddIssue t } := rfl
  have hpartials : [bitsOf w 6 13, bitsOf w 19 13, bitsOf w 32 13].all (fun v => ((c.reach t).desc (s.dev.handle t v)).elem == 12) = true := by
    simp only [List.all_cons, List.all_nil, Bool.and_true, Bool.and_eq_true, beq_iff_eq]
    exact ⟨helem1, helem2, helem3⟩
  have hlegal : (if s.dev.formReason t (bitsOf w 55 9 != 0) false [bitsOf w 6 13, bitsOf w 19 13, bitsOf w 32 13] ≠ 0 then
      s.dev.formReason t (bitsOf w 55 9 != 0) false [bitsOf w 6 13, bitsOf w 19 13, bitsOf w 32 13]
      else if [bitsOf w 6 13, bitsOf w 19 13, bitsOf w 32 13].all (fun v => ((c.reach t).desc (s.dev.handle t v)).elem == 12) then 0 else 5) = 0 := by
    rw [if_neg (not_not.mpr hform), if_pos hpartials]
  rw [hstep]
  constructor
  · intro hawait
    rw [Dev.xaddIssue, Dev.issue_awaits hissue hword hlegal hawait]
    rfl
  · intro hawait hread1 hread2 sum bad d3 d4 has hbs
    have htile := Dev.tile_awaited hawait t
    have hsums : d2.storeSums t c h3 ((as.zip bs).map (sumOf w)) = d4 := by
      rw [zip_eq_map_range has hbs ⟨0, none, 0⟩, List.map_map]
      exact d2.storeSums_range t c h3 _
    have hrun : s.dev.xaddIssue t = d4.slotDone t 1 := by
      rw [Dev.xaddIssue, Dev.issue_awaits hissue hword hlegal hawait, if_pos rfl, ← hsums, Dev.handle_of_tile htile, Dev.handle_of_tile htile,
        Dev.handle_of_tile htile]
      dsimp only
      rw [show d0.read8 t c (s.dev.handle t (bitsOf w 6 13)) = (d1, .ok as) from hread1]
      dsimp only
      rw [show d1.read8 t c (s.dev.handle t (bitsOf w 19 13)) = (d2, .ok bs) from hread2]
      rfl
    obtain ⟨hwork, -, hframe⟩ := d4.slotDone_frame t 1
    exact ⟨_, by rw [hrun], hwork, hframe⟩

/-- Settles O3: an XRD writes its part of a register, with no upset behind it; an XADD's eight sums are stored by their places. -/
theorem exactPartialInstructionsCompute : Obligations.ExactPartialInstructionsCompute := by
  unfold Obligations.ExactPartialInstructionsCompute
  exact ⟨xrd_computes, xadd_computes⟩

end Sys2Proof.Machine
end

section
/-! # What parts the operations may change: What a function's reset takes

The lemma about an operation has its name, in the order of the definitions. -/

namespace Sys2Proof.Machine
-- These proofs are many and small: elaborated all at once they take more threads than the checker has.
set_option Elab.async false
namespace Dev.onlyIn
variable {d₀ d e : Dev} {C : List Comp}

theorem discardRecords (h₀ : d₀.onlyIn d C) {who : Ready → Bool} (sub : among [.regs, .cq, .srv, .hif] C := by rfl) : d₀.onlyIn
  (d.discardRecords who) C :=
  h₀.into sub fun _ hd => .foldl (.set_cq hd) (fun _ _ h3 => .afterRecord h3)

theorem answersNone (h₀ : d₀.onlyIn d C) {v : Nat} (sub : among [.srv] C := by rfl) : d₀.onlyIn (d.answersNone v) C :=
  h₀.into sub fun _ hd => .onSrv hd

theorem vfFlrPath (h₀ : d₀.onlyIn d C) {v : Nat} (sub : among [.regs, .cq, .tiles, .henOps, .sect, .srv, .hif, .free] C := by
  rfl) : d₀.onlyIn (d.vfFlrPath v) C :=
  h₀.into sub fun _ hd => .setReg (.set_hif (.answersNone (.foldl (.foldl (.foldl (.discardRecords (.cancelOwned (.foldl hd (fun
    _ _ h2 => .loadEnded (.leaveSectors (.dropCmd (.freeTiles (.abandon h2)))))))) (fun _ _ h5 => .clearCounts (.flushQueue
    h5))) (fun _ _ h6 => .resetRing h6)) (fun _ _ h7 => .resetThokel h7))))

theorem vfFlr (h₀ : d₀.onlyIn d C) {v : Nat} (sub : among [.regs, .cq, .tiles, .henOps, .sect, .srv, .hif, .free] C := by rfl) :
  d₀.onlyIn (d.vfFlr v) C :=
  h₀.into sub fun _ hd => .ite hd (.vfFlrDone (.vfFlrPath hd))

theorem wakeSource (h₀ : d₀.onlyIn d C) {src : Nat} (sub : among [.regs, .pwr, .hif] C := by rfl) : d₀.onlyIn (d.wakeSource src)
  C :=
  h₀.into sub fun _ hd => .ite (.ite hd (.startWake hd)) (.ite (.onPwr hd) hd)

end Dev.onlyIn
end Sys2Proof.Machine
end

section
/-! # What a function's reset takes -/

namespace Sys2Proof.Machine

/-! ## What a reset and the FLR of another function leave of a function (11 R333 to R336, 12 R355) -/

/-- A request that an FLR of function `v` has dealt with, or that is none of `v`'s. -/
def Entry.leaves (v : Nat) (x : Entry) : Prop := x.occupied = true → x.func = v → x.state = .closing ∨ x.cancelled = true

/-- The settings of the host interface that only configuration and FLRs change. -/
def Hif.settings (h : Hif) : Tab FnCfg × Bool × Nat × Nat × Nat × Nat × Nat :=
  (h.fns, h.vfEnable, h.numVfs, h.bar4Log2, h.maxPayload, h.maxReadReq, h.cplRange)

/-- PWR_STATE, SECT_PART_LAYOUT, SECT_VF_FLR_DONE and every CQ_Q_CFG. -/
def keptAddr (a : Nat) : Prop := a = 0xD00040 ∨ a = 0x101040 ∨ a = 0x1010F0 ∨ (0x11200 ≤ a ∧ a < 0x15000 ∧ a % 0x40 = 0)

/-- A register that is neither of those nor the events of the first sector's page. -/
def spareAddr (a : Nat) : Prop := ¬ keptAddr a ∧ a ≠ 0x101010

/-! ### The registers that the shared operations write -/

theorem spare_rHifTxDrop : spareAddr rHifTxDrop := by
  simp only [spareAddr, keptAddr, rHifTxDrop]
  omega

theorem spare_rHifPoisonTx : spareAddr rHifPoisonTx := by
  simp only [spareAddr, keptAddr, rHifPoisonTx]
  omega

theorem spare_rMgmtLogLost : spareAddr rMgmtLogLost := by
  simp only [spareAddr, keptAddr, rMgmtLogLost]
  omega

theorem spare_rRasInject : spareAddr rRasInject := by
  simp only [spareAddr, keptAddr, rRasInject]
  omega

theorem spare_rFabStatus : spareAddr rFabStatus := by
  simp only [spareAddr, keptAddr, rFabStatus]
  omega

theorem spare_rRasStatus : spareAddr rRasStatus := by
  simp only [spareAddr, keptAddr, rRasStatus]
  omega

theorem spare_rCsErrTotal (n : Nat) : spareAddr (rCsErrTotal n) := by
  simp only [spareAddr, keptAddr, rCsErrTotal]
  omega

theorem spare_rCsErrOvf (n : Nat) : spareAddr (rCsErrOvf n) := by
  simp only [spareAddr, keptAddr, rCsErrOvf]
  omega

theorem spare_rCsPoison (n : Nat) : spareAddr (rCsPoison n) := by
  simp only [spareAddr, keptAddr, rCsPoison]
  omega

theorem spare_rCsIfRetry (n : Nat) : spareAddr (rCsIfRetry n) := by
  simp only [spareAddr, keptAddr, rCsIfRetry]
  omega

theorem spare_rCsWinWait (n : Nat) : spareAddr (rCsWinWait n) := by
  simp only [spareAddr, keptAddr, rCsWinWait]
  omega

theorem spare_rRasSramUe (n : Nat) : spareAddr (rRasSramUe n) := by
  simp only [spareAddr, keptAddr, rRasSramUe]
  omega

theorem spare_rRasSramCe (n : Nat) : spareAddr (rRasSramCe n) := by
  simp only [spareAddr, keptAddr, rRasSramCe]
  omega

theorem spare_rRasRecovTrig (n : Nat) : spareAddr (rRasRecovTrig n) := by
  simp only [spareAddr, keptAddr, rRasRecovTrig]
  omega

theorem spare_rSrvSlotState (n : Nat) : spareAddr (rSrvSlotState n) := by
  simp only [spareAddr, keptAddr, rSrvSlotState]
  omega

theorem spare_rSrvPfxEvict (n : Nat) : spareAddr (rSrvPfxEvict n) := by
  simp only [spareAddr, keptAddr, rSrvPfxEvict]
  omega

theorem spare_rSrvPfPend (n : Nat) : spareAddr (rSrvPfPend n) := by
  simp only [spareAddr, keptAddr, rSrvPfPend]
  omega

theorem spare_rSrvPoolFree (n : Nat) : spareAddr (rSrvPoolFree n) := by
  simp only [spareAddr, keptAddr, rSrvPoolFree]
  omega

theorem spare_rSrvLoad (n : Nat) : spareAddr (rSrvLoad n) := by
  simp only [spareAddr, keptAddr, rSrvLoad]
  omega

theorem spare_rSrvLate (n : Nat) : spareAddr (rSrvLate n) := by
  simp only [spareAddr, keptAddr, rSrvLate]
  omega

theorem spare_rSrvLateMax (n : Nat) : spareAddr (rSrvLateMax n) := by
  simp only [spareAddr, keptAddr, rSrvLateMax]
  omega

theorem spare_rSrvAbort (n : Nat) : spareAddr (rSrvAbort n) := by
  simp only [spareAddr, keptAddr, rSrvAbort]
  omega

theorem spare_rCqRErr (n : Nat) : spareAddr (rCqRErr n) := by
  simp only [spareAddr, keptAddr, rCqRErr]
  omega

theorem spare_rCqRTail (n : Nat) : spareAddr (rCqRTail n) := by
  simp only [spareAddr, keptAddr, rCqRTail]
  omega

theorem spare_rCqQCcnt (n : Nat) : spareAddr (rCqQCcnt n) := by
  simp only [spareAddr, keptAddr, rCqQCcnt]
  omega

theorem spare_rCqQFlushed (n : Nat) : spareAddr (rCqQFlushed n) := by
  simp only [spareAddr, keptAddr, rCqQFlushed]
  omega

theorem spare_rCqQScnt (n : Nat) : spareAddr (rCqQScnt n) := by
  simp only [spareAddr, keptAddr, rCqQScnt]
  omega

theorem spare_rFabLinkState (n : Nat) : spareAddr (rFabLinkState n) := by
  simp only [spareAddr, keptAddr, rFabLinkState]
  omega

theorem spare_rFabLinkPeer (n : Nat) : spareAddr (rFabLinkPeer n) := by
  simp only [spareAddr, keptAddr, rFabLinkPeer]
  omega

theorem spare_rSectPartStatus (n : Nat) : spareAddr (rSectPartStatus n) := by
  simp only [spareAddr, keptAddr, rSectPartStatus]
  omega

theorem spare_hifErrCnt : spareAddr (rBlkErrCnt pgHif) := by
  simp only [spareAddr, keptAddr, rBlkErrCnt, pgHif]
  omega

theorem kept_pgHif : ¬ keptAddr (rBlkIntStat pgHif) := by
  simp only [keptAddr, rBlkIntStat, pgHif]
  omega

theorem kept_pgMgmt : ¬ keptAddr (rBlkIntStat pgMgmt) := by
  simp only [keptAddr, rBlkIntStat, pgMgmt]
  omega

theorem kept_pgRas : ¬ keptAddr (rBlkIntStat pgRas) := by
  simp only [keptAddr, rBlkIntStat, pgRas]
  omega

theorem kept_pgCs0 (n : Nat) : ¬ keptAddr (rBlkIntStat (pgCs0 n)) := by
  simp only [keptAddr, rBlkIntStat, pgCs0]
  omega

theorem kept_pgCs1 (n : Nat) : ¬ keptAddr (rBlkIntStat (pgCs1 n)) := by
  simp only [keptAddr, rBlkIntStat, pgCs1]
  omega

theorem kept_pgSrv (n : Nat) : ¬ keptAddr (rBlkIntStat (pgSrv n)) := by
  simp only [keptAddr, rBlkIntStat, pgSrv]
  omega

theorem kept_pgCqR (n : Nat) : ¬ keptAddr (rBlkIntStat (pgCqR n)) := by
  simp only [keptAddr, rBlkIntStat, pgCqR]
  omega

theorem kept_pgPart (n : Nat) : ¬ keptAddr (rBlkIntStat (pgPart n)) := by
  simp only [keptAddr, rBlkIntStat, pgPart]
  omega

/-- Between two states of the device the registers of `keptAddr`, the settings and the first sector's events stand; commands of no further
function have come, nothing waits in a queue that was empty, and requests that were dealt with still are. -/
structure Dev.standsBy (d e : Dev) : Prop where
  regs : ∀ a, keptAddr a → e.reg a = d.reg a
  event : ∀ i, d.event (pgPart 0) i = true → e.event (pgPart 0) i = true
  settings : e.hif.settings = d.hif.settings
  cmds : ∀ x ∈ e.cq.cmds, ∃ y ∈ d.cq.cmds, y.func = x.func
  waiting : ∀ q, d.waiting q = [] → e.waiting q = []
  entries : ∀ i v, v ≠ 0 → (d.entry i).leaves v → (e.entry i).leaves v

namespace Dev.standsBy

variable {d₀ d e f : Dev}

theorem refl (d : Dev) : d.standsBy d := ⟨fun _ _ => rfl, fun _ h => h, rfl, fun x hx => ⟨x, hx, rfl⟩, fun _ h => h, fun _ _ _ h => h⟩

theorem trans (h : d.standsBy e) (k : e.standsBy f) : d.standsBy f where
  regs a ha := (k.regs a ha).trans (h.regs a ha)
  event i hi := k.event i (h.event i hi)
  settings := k.settings.trans h.settings
  cmds x hx := by
    obtain ⟨y, hy, hyx⟩ := k.cmds x hx
    obtain ⟨z, hz, hzy⟩ := h.cmds y hy
    exact ⟨z, hz, hzy.trans hyx⟩
  waiting q hq := k.waiting q (h.waiting q hq)
  entries i v hv hi := k.entries i v hv (h.entries i v hv hi)

/-- A step that leaves registers, settings, commands, waiting records and requests. -/
theorem same (h : d₀.standsBy d) (hs : e.regs = d.regs ∧ e.hif.settings = d.hif.settings ∧ e.cq.cmds = d.cq.cmds ∧ e.cq.storage = d.cq.storage
    ∧ e.srv.entries = d.srv.entries) : d₀.standsBy e := by
  obtain ⟨hregs, hsettings, hcmds, hstorage, hentries⟩ := hs
  refine h.trans ⟨fun a _ => Dev.reg_congr hregs a, fun i hi => ?_, hsettings, fun x hx => ⟨x, by rwa [hcmds] at hx, rfl⟩, fun q hq => ?_,
    fun i v _ hi => ?_⟩
  · rwa [Dev.event, Dev.reg_congr hregs]
  · rwa [Dev.waiting, hstorage]
  · rwa [Dev.entry, hentries]

theorem ite {c : Prop} [Decidable c] (h : d.standsBy e) (k : d.standsBy f) : d.standsBy (if c then e else f) := by split <;> assumption

theorem ite1 {α : Type} {c : Prop} [Decidable c] {x y : Dev × α} (h : d.standsBy x.1) (k : d.standsBy y.1) :
    d.standsBy (if c then x else y).1 := by split <;> assumption

theorem fst {α : Type} {x : Dev × α} {a : α} (hx : x = (e, a)) (h : d.standsBy x.1) : d.standsBy e := by
  subst hx
  exact h

theorem foldl {α : Type} {g : Dev → α → Dev} {l : List α} (h : d₀.standsBy d) (hg : ∀ e a, d₀.standsBy e → d₀.standsBy (g e a)) :
    d₀.standsBy (l.foldl g d) := List.foldlRecOn l g h fun e he a _ => hg e a he

theorem foldl1 {α β : Type} {g : Dev × β → α → Dev × β} {l : List α} {b : β} (h : d₀.standsBy d)
    (hg : ∀ z a, d₀.standsBy z.1 → d₀.standsBy (g z a).1) : d₀.standsBy (l.foldl g (d, b)).1 :=
  List.foldlRecOn (motive := fun z : Dev × β => d₀.standsBy z.1) l g h fun z hz a _ => hg z a hz

/-! ### Registers and events -/

theorem setReg (h : d₀.standsBy d) {a : Nat} (ha : spareAddr a) {w : W64} : d₀.standsBy (d.setReg a w) := by
  obtain ⟨hk, hev⟩ := ha
  refine h.trans ⟨fun b hb => Dev.reg_setReg_ne _ _ fun hab => hk (hab ▸ hb), fun i hi => ?_, rfl, fun x hx => ⟨x, hx, rfl⟩, fun _ h => h,
    fun _ _ _ h => h⟩
  have hne : rBlkIntStat (pgPart 0) ≠ a := fun hab => hev hab.symm
  rwa [Dev.event, Dev.reg_setReg_ne _ _ hne]

theorem addF (h : d₀.standsBy d) {a : Nat} {g : Fld} {n : Nat} (ha : spareAddr a) : d₀.standsBy (d.addF a g n) := h.setReg ha

theorem putF (h : d₀.standsBy d) {a : Nat} {g : Fld} {n : Nat} (ha : spareAddr a) : d₀.standsBy (d.putF a g n) := h.setReg ha

theorem rollF (h : d₀.standsBy d) {a : Nat} {g : Fld} {n : Nat} (ha : spareAddr a) : d₀.standsBy (d.rollF a g n) := h.setReg ha

theorem of_spoke {h h' : Hif} (k : h.spoke h') : h'.settings = h.settings := by
  obtain ⟨vs, out, rfl⟩ := k
  rfl

theorem signal (h : d₀.standsBy e) (k : Dev) : d₀.standsBy (Dev.signal k e) := by
  have hf := Dev.signal_frame k e
  refine h.trans ⟨fun a ha => Dev.signal_regsBut k e a ?_, fun i hi => Dev.signal_event (by decide) hi k, of_spoke (Dev.signal_spoke k e),
    fun x hx => ⟨x, by rwa [show _ = e.cq from hf .cq rfl] at hx, rfl⟩, fun q hq => ?_, fun i v _ hi => ?_⟩
  · simp only [keptAddr] at ha
    simp [rHifTxDrop, rBlkIntStat, pgHif]
    omega
  · rwa [Dev.waiting, show _ = e.cq from hf .cq rfl]
  · rwa [Dev.entry, show _ = e.srv from hf .srv rfl]

theorem orReg (h : d₀.standsBy d) {a : Nat} (ha : ¬ keptAddr a) {w : W64} : d₀.standsBy (d.modReg a (· ||| w)) := by
  refine h.trans ⟨fun b hb => Dev.reg_setReg_ne _ _ fun hab => ha (hab ▸ hb), fun i hi => ?_, rfl, fun x hx => ⟨x, hx, rfl⟩, fun _ h => h,
    fun _ _ _ h => h⟩
  by_cases hab : rBlkIntStat (pgPart 0) = a
  · rw [Dev.event, hab, Dev.modReg, Dev.reg_setReg_self, bitOf, BitVec.getLsbD_or, ← hab]
    rw [Dev.event, bitOf] at hi
    rw [hi]
    rfl
  · rwa [Dev.event, Dev.modReg, Dev.reg_setReg_ne _ _ hab]

theorem raise (h : d₀.standsBy d) {page bits : Nat} (hp : ¬ keptAddr (rBlkIntStat page)) : d₀.standsBy (d.raise page bits) :=
  (h.orReg hp).signal d

theorem sendOut (h : d₀.standsBy d) {o : HostOut} : d₀.standsBy (d.sendOut o) := h.same ⟨rfl, rfl, rfl, rfl, rfl⟩

theorem sendMsg (h : d₀.standsBy d) {fv : Nat × Nat} : d₀.standsBy (d.sendMsg fv) := by
  have hf := d.sendMsg_frame fv
  refine h.trans ⟨fun a ha => d.sendMsg_regsBut fv a ?_, fun i hi => Dev.sendMsg_event (by decide) hi fv, of_spoke (d.sendMsg_spoke fv),
    fun x hx => ⟨x, by rwa [show _ = d.cq from hf .cq rfl] at hx, rfl⟩, fun q hq => ?_, fun i v _ hi => ?_⟩
  · simp only [keptAddr] at ha
    simp [rHifTxDrop, rBlkIntStat, pgHif]
    omega
  · rwa [Dev.waiting, show _ = d.cq from hf .cq rfl]
  · rwa [Dev.entry, show _ = d.srv from hf .srv rfl]

/-! ### Parts of the device that the relation does not speak of -/

theorem set_stk (h : d₀.standsBy d) {m : Memory} : d₀.standsBy { d with stk := m } := h.same ⟨rfl, rfl, rfl, rfl, rfl⟩

theorem set_tram (h : d₀.standsBy d) {m : Memory} : d₀.standsBy { d with tram := m } := h.same ⟨rfl, rfl, rfl, rfl, rfl⟩

theorem set_sram (h : d₀.standsBy d) {m : Memory} : d₀.standsBy { d with sram := m } := h.same ⟨rfl, rfl, rfl, rfl, rfl⟩

theorem set_slots (h : d₀.standsBy d) {m : Memory} : d₀.standsBy { d with slots := m } := h.same ⟨rfl, rfl, rfl, rfl, rfl⟩

theorem set_host (h : d₀.standsBy d) {m : Memory} : d₀.standsBy { d with host := m } := h.same ⟨rfl, rfl, rfl, rfl, rfl⟩

theorem set_tiles (h : d₀.standsBy d) {m : Tab Tile} : d₀.standsBy { d with tiles := m } := h.same ⟨rfl, rfl, rfl, rfl, rfl⟩

theorem set_henOps (h : d₀.standsBy d) {m : List HenOp} : d₀.standsBy { d with henOps := m } := h.same ⟨rfl, rfl, rfl, rfl, rfl⟩

theorem set_fab (h : d₀.standsBy d) {m : Fab} : d₀.standsBy { d with fab := m } := h.same ⟨rfl, rfl, rfl, rfl, rfl⟩

theorem set_upsets (h : d₀.standsBy d) {m : List Upset} : d₀.standsBy { d with upsets := m } := h.same ⟨rfl, rfl, rfl, rfl, rfl⟩

theorem set_free (h : d₀.standsBy d) {m : Nat} : d₀.standsBy { d with free := m } := h.same ⟨rfl, rfl, rfl, rfl, rfl⟩

theorem modStack (h : d₀.standsBy d) {n : Nat} {g : Stack → Stack} : d₀.standsBy (d.modStack n g) := h.same ⟨rfl, rfl, rfl, rfl, rfl⟩

theorem modSect (h : d₀.standsBy d) {n : Nat} {g : Sector → Sector} : d₀.standsBy (d.modSect n g) := h.same ⟨rfl, rfl, rfl, rfl, rfl⟩

theorem modPart (h : d₀.standsBy d) {n : Nat} {g : Part → Part} : d₀.standsBy (d.modPart n g) := h.same ⟨rfl, rfl, rfl, rfl, rfl⟩

theorem txDrop (h : d₀.standsBy d) : d₀.standsBy d.txDrop := .raise (.addF h spare_rHifTxDrop) kept_pgHif

theorem blkErrHif (h : d₀.standsBy d) : d₀.standsBy (d.blkErr pgHif) := .addF h spare_hifErrCnt

/-! ### Stack memory (07 R205 to R207, 12 R338) -/

theorem log (h : d₀.standsBy d) {typ : Nat} {payload : List Nat} : d₀.standsBy (d.log typ payload) :=
  .ite h (.ite (.raise (.addF h spare_rMgmtLogLost) kept_pgMgmt) (h.same ⟨rfl, rfl, rfl, rfl, rfl⟩))

theorem checkThresh (h : d₀.standsBy d) {n i : Nat} : d₀.standsBy (d.checkThresh n i) := .ite (.raise (.modStack h) (kept_pgCs1 _)) h

theorem countErr (h : d₀.standsBy d) {n : Nat} {un : Bool} : d₀.standsBy (d.countErr n un) := .ite (.raise (.addF h (spare_rCsErrTotal _)) (kept_pgCs1 _)) (.addF h (spare_rCsErrTotal _))

theorem spare_errLog {n i j : Nat} (hi : i < 32) (hj : j < 16) : spareAddr (0x401200 + 0x10000 * n + 0x10 * i + j) := by
  simp only [spareAddr, keptAddr]
  omega

theorem logAgain (h : d₀.standsBy d) {a syms src i : Nat} (hi : i < 32) : d₀.standsBy (d.logAgain a syms src i) :=
  .checkThresh (.setReg (.setReg h (spare_errLog (j := 4) hi (by decide))) (spare_errLog (j := 8) hi (by decide)))

theorem logNew (h : d₀.standsBy d) {a kind syms src i : Nat} (hi : i < 32) : d₀.standsBy (d.logNew a kind syms src i) :=
  .checkThresh (.modStack (.setReg (.setReg (.setReg h (spare_errLog (j := 0) hi (by decide))) (spare_errLog (j := 4) hi (by decide)))
    (spare_errLog (j := 8) hi (by decide))))

end Dev.standsBy

theorem Dev.logMatch_lt {d : Dev} {n pc bank row i : Nat} {un : Bool} (h : d.logMatch n pc bank row un = some i) : i < 32 :=
  List.mem_range.mp (List.mem_of_find?_eq_some h)

namespace Dev.standsBy

variable {d₀ d e f : Dev}

theorem logEnter (h : d₀.standsBy d) {a kind syms src : Nat} : d₀.standsBy (d.logEnter a kind syms src) := by
  unfold Dev.logEnter
  dsimp only
  split
  next hm => exact .logAgain h (Dev.logMatch_lt hm)
  · split
    next hs => exact .logNew h (Dev.logSlot_lt hs)
    · exact .raise (.addF h (spare_rCsErrOvf _)) (kept_pgCs1 _)

theorem logErr (h : d₀.standsBy d) {a kind syms src : Nat} : d₀.standsBy (d.logErr a kind syms src) :=
  .ite (.log (.logEnter (.countErr h))) (.logEnter (.countErr h))

theorem checkBitmap (h : d₀.standsBy d) {g src : Nat} : d₀.standsBy (d.checkBitmap g src) := by
  unfold Dev.checkBitmap
  split
  · exact h
  · dsimp only
    exact .ite (.logErr (.set_stk (.set_upsets h))) (.logErr (.set_upsets h))

theorem poisonGran (h : d₀.standsBy d) {g src : Nat} : d₀.standsBy (d.poisonGran g src) := by
  unfold Dev.poisonGran
  exact .logErr (.raise (.addF (.set_stk h) (spare_rCsPoison _)) (kept_pgCs0 _))

theorem countPoisonRead (h : d₀.standsBy d) {g : Nat} : d₀.standsBy (d.countPoisonRead g) := .addF h (spare_rCsPoison _)

theorem transfer (h : d₀.standsBy d) {n : Nat} : d₀.standsBy (d.transfer n).1 := by
  unfold Dev.transfer
  split
  · exact h
  · exact .ite1 (.addF (.set_upsets h) (spare_rCsIfRetry _))
      (.modStack (.raise (.addF (.addF (.set_upsets h) (spare_rCsIfRetry _)) (spare_rCsIfRetry _)) (kept_pgCs1 _)))

theorem readGran (h : d₀.standsBy d) {src g : Nat} : d₀.standsBy (d.readGran src g).1 := by
  have htransfer : d₀.standsBy (d.transfer (stackOf g)).1 := .transfer h
  unfold Dev.readGran
  dsimp only
  generalize d.transfer (stackOf g) = z at htransfer
  obtain ⟨d1, ok⟩ := z
  have hmap : d₀.standsBy (d1.checkBitmap g src) := .checkBitmap htransfer
  dsimp only at htransfer ⊢
  generalize d1.checkBitmap g src = d2 at hmap
  generalize d2.stk.flag g = fl
  have hpois : d₀.standsBy (d2.poisonGran g src) := .poisonGran hmap
  have hlog : ∀ n, d₀.standsBy (d2.logErr g 0 n src) := fun _ => .logErr hmap
  have hcount : d₀.standsBy (d2.countPoisonRead g) := .countPoisonRead hmap
  have hdead : d₀.standsBy (d.countPoisonRead g) := .countPoisonRead h
  generalize d2.poisonGran g src = d3 at *
  generalize d2.countPoisonRead g = d4 at *
  generalize d.countPoisonRead g = d5 at *
  refine .ite1 hdead (.ite1 htransfer (.ite1 hmap (.ite1 hcount (.ite1 hmap (.ite1 (hlog _) (.ite1 hpois ?_))))))
  split
  · exact hpois
  · exact hmap
  · exact hmap

theorem readStk (h : d₀.standsBy d) {src a n : Nat} : d₀.standsBy (d.readStk src a n).1 := .foldl1 h fun _ _ hz => .readGran hz

theorem writeWhole (h : d₀.standsBy d) {g : Nat} {bs : List Byte} {poison : Bool} {bad : Nat} :
    d₀.standsBy (d.writeWhole g bs poison bad) := by
  have htransfer : d₀.standsBy (d.transfer (stackOf g)).1 := .transfer h
  unfold Dev.writeWhole
  dsimp only
  generalize d.transfer (stackOf g) = z at htransfer
  exact .ite htransfer (.ite (.set_stk (.checkBitmap htransfer)) (.set_stk (.checkBitmap htransfer)))

theorem writeGran (h : d₀.standsBy d) {a : Nat} {bs : List Byte} {poison : Bool} : d₀.standsBy (d.writeGran a bs poison) := by
  unfold Dev.writeGran
  dsimp only
  generalize (bitsOf (d.reg rRasInject) 6 34 * 64 == granOf a && fld (d.reg rRasInject) fRasInject_Mode != 0) = hit
  have hput : d₀.standsBy (if hit = true then d.putF rRasInject fRasInject_Mode 0 else d) := .ite (.putF h spare_rRasInject) h
  generalize (if hit = true then d.putF rRasInject fRasInject_Mode 0 else d) = k at hput
  have hread : d₀.standsBy (k.readGran 7 (granOf a)).1 := .readGran hput
  generalize k.readGran 7 (granOf a) = z at hread
  exact .ite h (.ite (.writeWhole hput) (.ite hread (.set_stk hread)))

theorem writeStk (h : d₀.standsBy d) {a : Nat} {bs : List Byte} {poison : Bool} : d₀.standsBy (d.writeStk a bs poison) :=
  .foldl h fun _ _ he => .writeGran he

theorem serve (h : d₀.standsBy d) {a : Access} : d₀.standsBy (d.serve a) := by
  have hread : d₀.standsBy (d.readStk 4 a.addr a.len).1 := .readStk h
  unfold Dev.serve
  dsimp only
  generalize d.readStk 4 a.addr a.len = z at hread
  refine .ite ?_ ?_
  · split
    · exact .blkErrHif h
    · exact .sendOut (.blkErrHif h)
  · split
    · exact .writeStk h
    · exact .sendOut (.ite hread (.addF hread spare_rHifPoisonTx))

theorem noteWait (h : d₀.standsBy d) {n w : Nat} : d₀.standsBy (d.noteWait n w) := .putF (.set_free h) (spare_rCsWinWait _)

theorem inWindow (h : d₀.standsBy d) {l : Nat} : d₀.standsBy (d.inWindow l) := by
  have hserved : ∀ q n (e : Dev), d₀.standsBy e → d₀.standsBy ((afterWindows q).foldl (fun d a => (d.noteWait n a.windows).serve a) e) :=
    fun q n e he => .foldl he fun _ _ he => .serve (.noteWait he)
  unfold Dev.inWindow
  refine .ite h (.ite (.noteWait (hserved _ _ _ ?_)) (hserved _ _ _ ?_)) <;> exact .addF (.modStack h) (spare_rCsWinWait _)

/-! ### The memories of tiles and sectors, and host memory -/

theorem readWord (h : d₀.standsBy d) {arr : SramArray} {u w : Nat} : d₀.standsBy (d.readWord arr u w).1 := by
  unfold Dev.readWord
  split
  · exact h
  next x _ =>
    have hdrop : d₀.standsBy (if (x.ue && arr.keeps) = true then d else d.dropUpset arr u w) := .ite h (.set_upsets h)
    exact .ite1 (.log (.raise (.addF hdrop (spare_rRasSramUe _)) kept_pgRas)) (.addF hdrop (spare_rRasSramCe _))

theorem readWords (h : d₀.standsBy d) {arr : SramArray} {u : Nat} {ws : List Nat} : d₀.standsBy (d.readWords arr u ws).1 :=
  .ite1 h (.foldl1 h fun _ _ hz => .readWord hz)

theorem readSramGran (h : d₀.standsBy d) {tile : Bool} {base u off : Nat} : d₀.standsBy (d.readSramGran tile base u off).1 := by
  have hwords : ∀ arr ws, d₀.standsBy (d.readWords arr u ws).1 := fun _ _ => .readWords h
  unfold Dev.readSramGran
  dsimp only
  exact .ite1 (.ite (hwords _ _) (.ite (.set_tram (hwords _ _)) (.set_sram (hwords _ _))))
    (.ite (hwords _ _) (.ite (.set_tram (hwords _ _)) (.set_sram (hwords _ _))))

theorem overwrite (h : d₀.standsBy d) {tile : Bool} {a n : Nat} : d₀.standsBy (d.overwrite tile a n) :=
  .ite h (.foldl h fun _ _ he => .ite (.set_upsets he) (.readSramGran he))

theorem writeSram (h : d₀.standsBy d) {tile : Bool} {a : Nat} {bs : List Byte} {poison : Bool} : d₀.standsBy (d.writeSram tile a bs poison) :=
  .ite (.set_tram (.ite (.overwrite h) (.overwrite h))) (.set_sram (.ite (.overwrite h) (.overwrite h)))

theorem readHomeGran (h : d₀.standsBy d) {src g : Nat} : d₀.standsBy (d.readHomeGran src g).1 :=
  .ite1 (.readGran (.inWindow h)) (.ite1 (.readSramGran h) (.ite1 (.readSramGran h) (.ite1 h h)))

/-- A command of the device changes, not whose it is. -/
theorem modCmd (h : d₀.standsBy d) {c : Nat} {g : Cmd → Cmd} (hg : ∀ x, (g x).func = x.func) : d₀.standsBy (d.modCmd c g) := by
  refine h.trans ⟨fun _ _ => rfl, fun _ h => h, rfl, fun x hx => ?_, fun _ h => h, fun _ _ _ h => h⟩
  obtain ⟨y, hy, rfl⟩ := List.mem_map.mp hx
  refine ⟨y, hy, ?_⟩
  split
  · exact (hg y).symm
  · rfl

theorem failCmd (h : d₀.standsBy d) {c status handle vaddr : Nat} : d₀.standsBy (d.failCmd c status handle vaddr) := by
  refine .set_tiles (.modCmd h fun x => ?_)
  unfold Cmd.fail
  dsimp only
  split <;> rfl

theorem notePoison (h : d₀.standsBy d) {c : Option Nat} : d₀.standsBy (d.notePoison c) := by
  unfold Dev.notePoison
  split
  · exact h
  · exact .modCmd h fun _ => rfl

theorem hostWrite (h : d₀.standsBy d) {w : PWrite} : d₀.standsBy (d.hostWrite w) := by
  unfold Dev.hostWrite
  refine .ite ?_ (.sendOut (.set_host (.ite (.addF h spare_rHifPoisonTx) h)))
  dsimp only
  split
  · exact .txDrop h
  · exact .failCmd (.txDrop h)

theorem writeHome (h : d₀.standsBy d) {w : PWrite} : d₀.standsBy (d.writeHome w) := by
  have hplace : ∀ (e : Dev) (w : PWrite), d₀.standsBy e → d₀.standsBy (if isStk w.addr then (e.inWindow w.addr).writeStk w.addr w.data w.poison
      else if isTram w.addr then e.writeSram true (w.addr - 2 ^ 48) w.data w.poison
      else if isSram w.addr then e.writeSram false (w.addr - 2 ^ 49) w.data w.poison
      else { e with slots := e.slots.putBytes (w.addr - 2 ^ 50) w.data }) := fun e w he =>
    .ite (.writeStk (.inWindow he)) (.ite (.writeSram he) (.ite (.writeSram he) (.set_slots he)))
  unfold Dev.writeHome
  dsimp only
  have hnote : d₀.standsBy (if w.poison = true then d.notePoison w.cmd else d) := .ite (.notePoison h) h
  generalize (if w.poison = true then d.notePoison w.cmd else d) = k at hnote
  have hread : d₀.standsBy (k.readHomeGran 7 (granOf w.addr)).1 := .readHomeGran hnote
  generalize k.readHomeGran 7 (granOf w.addr) = z at hread
  refine .ite (.hostWrite hnote) ?_
  cases w.nibble with
  | none => exact hplace _ _ hnote
  | some hi => exact hplace _ _ hread

theorem settleBuffer (h : d₀.standsBy d) {k : Nat} : d₀.standsBy (d.settleBuffer k) :=
  .foldl (.modSect h) fun _ _ he => .foldl (.set_free he) fun _ _ he => .writeHome he

/-! ### The serving engine's books (08, 09) -/

theorem enterSlotState (h : d₀.standsBy d) {s st : Nat} : d₀.standsBy (d.enterSlotState s st) :=
  .ite (.raise (.putF h (spare_rSrvSlotState _)) (kept_pgSrv _)) (.ite (.raise (.putF h (spare_rSrvSlotState _)) (kept_pgSrv _))
    (.putF h (spare_rSrvSlotState _)))

theorem freePages (h : d₀.standsBy d) {p : Nat} {ps : List Nat} : d₀.standsBy (d.freePages p ps) := h.same ⟨rfl, rfl, rfl, rfl, rfl⟩

/-- The serving engine's state changes, but no request. -/
theorem onSrv (h : d₀.standsBy d) {g : Srv → Srv} (hg : (g d.srv).entries = d.srv.entries) : d₀.standsBy (d.onSrv g) := h.same ⟨rfl, rfl, rfl, rfl, hg⟩

theorem dropNode (h : d₀.standsBy d) {k n : Nat} : d₀.standsBy (Dev.dropNode k d n) := by
  induction k generalizing d n with
  | zero => exact h
  | succ k ih =>
    unfold Dev.dropNode
    split
    · exact h
    · dsimp only
      split
      · exact .freePages (.onSrv h rfl)
      · split
        · exact .freePages (.onSrv h rfl)
        · exact .ite (ih (.addF (.onSrv (.freePages (.onSrv h rfl)) rfl) (spare_rSrvPfxEvict _))) (.onSrv (.freePages (.onSrv h rfl)) rfl)

theorem evictNode (h : d₀.standsBy d) {n : Nat} : d₀.standsBy (d.evictNode n) := by
  unfold Dev.evictNode
  split
  · exact h
  · exact .dropNode (.addF h (spare_rSrvPfxEvict _))

theorem unrefNode (h : d₀.standsBy d) {n : Nat} : d₀.standsBy (d.unrefNode n) := by
  unfold Dev.unrefNode
  split
  · exact h
  · exact .ite (.evictNode (.onSrv h rfl)) (.onSrv h rfl)

theorem discardNodes (h : d₀.standsBy d) {who : Node → Bool} : d₀.standsBy (d.discardNodes who) := .foldl (.onSrv h rfl) fun _ _ he => .freePages he

theorem setVersion (h : d₀.standsBy d) {v : Nat} {x : Version} : d₀.standsBy (d.setVersion v x) := .onSrv h rfl

theorem freeVersion (h : d₀.standsBy d) {v : Nat} : d₀.standsBy (d.freeVersion v) := by
  unfold Dev.freeVersion
  exact .discardNodes (.ite (.onSrv (.setVersion h) rfl) (.setVersion h))

theorem unrefVersion (h : d₀.standsBy d) {v : Nat} : d₀.standsBy (d.unrefVersion v) := .ite (.freeVersion (.setVersion h)) (.setVersion h)

/-- One request changes: where an FLR has dealt with it, it still has. -/
theorem modEntry (h : d₀.standsBy d) {i : Nat} {g : Entry → Entry} (hg : ∀ v, (d.entry i).leaves v → (g (d.entry i)).leaves v) :
    d₀.standsBy (d.modEntry i g) := by
  refine h.trans ⟨fun _ _ => rfl, fun _ h => h, rfl, fun x hx => ⟨x, hx, rfl⟩, fun _ h => h, fun j v _ hj => ?_⟩
  by_cases hij : j = i
  · subst hij
    rw [Dev.modEntry_entry_self]
    exact hg v hj
  · rwa [Dev.modEntry_entry_ne _ _ hij]

theorem releasePf (h : d₀.standsBy d) {i : Nat} : d₀.standsBy (d.releasePf i) := .ite h (.modEntry (.setReg h (spare_rSrvPfPend _)) fun _ hx => hx)

theorem creditPool (h : d₀.standsBy d) {p n : Nat} : d₀.standsBy (d.creditPool p n) := .putF h (spare_rSrvPoolFree _)

theorem releaseCharges (h : d₀.standsBy d) {i : Nat} : d₀.standsBy (d.releaseCharges i) :=
  .ite h (.foldl (.freePages (.creditPool (.putF (.modEntry (.releasePf h) fun _ hx => hx) (spare_rSrvLoad _)))) fun _ _ he => .unrefNode he)

theorem enterEvicting (h : d₀.standsBy d) {s : Nat} : d₀.standsBy (d.enterEvicting s) := .discardNodes (.enterSlotState h)

/-- An entry goes. -/
theorem dropEntry (h : d₀.standsBy d) {i : Nat} : d₀.standsBy (d.onSrv (fun s => { s with entries := tdel s.entries i })) := by
  refine h.trans ⟨fun _ _ => rfl, fun _ h => h, rfl, fun x hx => ⟨x, hx, rfl⟩, fun _ h => h, fun j v _ hj => ?_⟩
  show (tget (tdel d.srv.entries i) {} j).leaves v
  rw [tget_tdel]
  split
  · exact fun hocc => absurd hocc (by decide)
  · exact hj

theorem freeEntry (h : d₀.standsBy d) {i : Nat} : d₀.standsBy (d.freeEntry i) :=
  .ite h (.ite (.enterEvicting (.dropEntry (.ite (.unrefVersion (.releaseCharges h)) (.releaseCharges h))))
    (.dropEntry (.ite (.unrefVersion (.releaseCharges h)) (.releaseCharges h))))

theorem judge (h : d₀.standsBy d) {i : Nat} {t : TokenOut} {held : Bool} : d₀.standsBy (d.judge i t held).1 := by
  have hjudged : ∀ {e : Dev} {g : Entry → Entry}, (∀ v, (e.entry i).leaves v → (g (e.entry i)).leaves v) → d₀.standsBy e →
      d₀.standsBy (e.modEntry i g) := fun hg he => .modEntry he hg
  unfold Dev.judge
  exact .ite1 (.raise (.putF (.addF (hjudged (fun _ hx => hx) (.ite (.releasePf h) h)) (spare_rSrvLate _)) (spare_rSrvLateMax _)) (kept_pgSrv _))
    (hjudged (fun _ hx => hx) (.ite (.releasePf h) h))

/-! ### Records (05 R147, 08 R233 to R235) -/

theorem pushFinal (h : d₀.standsBy d) {i status cause : Nat} : d₀.standsBy (d.pushFinal i status cause) := h.same ⟨rfl, rfl, rfl, rfl, rfl⟩

theorem dropTokenReads (h : d₀.standsBy d) {i : Nat} : d₀.standsBy (d.dropTokenReads i) := h.same ⟨rfl, rfl, rfl, rfl, rfl⟩

theorem closeWith (h : d₀.standsBy d) {i status cause : Nat} : d₀.standsBy (d.closeWith i status cause) :=
  .pushFinal (.modEntry (.dropTokenReads h) fun _ _ _ _ => .inl rfl)

theorem abortEntry (h : d₀.standsBy d) {i cause : Nat} : d₀.standsBy (d.abortEntry i cause) :=
  .ite h (.raise (.closeWith (.modEntry (.addF h (spare_rSrvAbort _)) fun _ hx => hx)) (kept_pgSrv _))

theorem abortAll (h : d₀.standsBy d) {p cause : Nat} : d₀.standsBy (d.abortAll p cause) := by
  unfold Dev.abortAll
  exact .onSrv (.foldl (.foldl h fun _ _ he => .abortEntry he) fun _ _ he => .releaseCharges he) rfl

theorem cancelEntry (h : d₀.standsBy d) {i : Nat} : d₀.standsBy (d.cancelEntry i) :=
  .ite h (.ite (.closeWith h) (.modEntry h fun _ _ _ _ => .inr rfl))

theorem cancelOwned (h : d₀.standsBy d) {v : Nat} : d₀.standsBy (d.cancelOwned v) := .foldl h fun _ _ he => .cancelEntry he

/-- A request that is still served and that an FLR has dealt with was cancelled, and stays so. -/
theorem leaves_of_served {v : Nat} {x y : Entry} (h : x.leaves v) (hs : x.state = .prefill ∨ x.state = .decode ∨ x.state = .held)
    (hf : y.func = x.func) (hc : y.cancelled = x.cancelled) : y.leaves v := by
  intro _ hv
  have hocc : x.occupied = true := by
    rcases hs with hs | hs | hs <;> rw [Entry.occupied, hs] <;> rfl
  rcases h hocc (hf.symm.trans hv) with hclosing | hcancelled
  · rw [hclosing] at hs
    simp at hs
  · exact .inr (hc.trans hcancelled)

theorem handedOver (h : d₀.standsBy d) {i : Nat} : d₀.standsBy (d.handedOver i) := by
  unfold Dev.handedOver
  dsimp only
  have hserved : d₀.standsBy (if (d.entry i).state = .prefill then d.modEntry i (fun x => { x with state := .decode, fresh := true })
      else if (d.entry i).state = .held ∧ (d.entry i).before = .prefill then d.modEntry i (fun x => { x with before := .decode, fresh := true })
      else d) := by
    split
    next hs => exact .modEntry h fun _ hx => leaves_of_served hx (.inl hs) rfl rfl
    · exact .ite (.modEntry h fun _ hx => hx) h
  exact .ite (.closeWith hserved) hserved

theorem enterHeld (h : d₀.standsBy d) {i : Nat} : d₀.standsBy (d.enterHeld i) := by
  unfold Dev.enterHeld
  dsimp only
  split
  next hs => exact .modEntry h fun _ hx => leaves_of_served hx (hs.imp id .inl) rfl rfl
  · exact h

theorem afterRecord (h : d₀.standsBy d) {x : Ready} : d₀.standsBy (d.afterRecord x) := by
  unfold Dev.afterRecord
  split
  · exact h
  · refine .ite (.freeEntry h) ?_
    split
    next hs => exact .modEntry h fun _ hx => leaves_of_served hx (.inr (.inr hs.1)) rfl rfl
    · exact h

theorem discardRecords (h : d₀.standsBy d) {who : Ready → Bool} : d₀.standsBy (d.discardRecords who) := by
  unfold Dev.discardRecords
  exact .foldl (h.same ⟨rfl, rfl, rfl, rfl, rfl⟩) fun _ _ he => .afterRecord he

theorem loadEnded (h : d₀.standsBy d) {x : Cmd} : d₀.standsBy (d.loadEnded x) := .ite (.enterSlotState h) (.ite (.freeVersion h) h)

theorem answersNone (h : d₀.standsBy d) {v : Nat} : d₀.standsBy (d.answersNone v) := .onSrv h rfl

theorem ringErr (h : d₀.standsBy d) {r : Nat} : d₀.standsBy (d.ringErr r) := .raise (.addF h (spare_rCqRErr _)) (kept_pgCqR _)

theorem ringSignal (h : d₀.standsBy d) {r : Nat} : d₀.standsBy (d.ringSignal r) := by
  unfold Dev.ringSignal
  exact .same (.sendMsg h) ⟨rfl, rfl, rfl, rfl, rfl⟩

theorem moderate (h : d₀.standsBy d) {r : Nat} {irqNow notOk : Bool} : d₀.standsBy (d.moderate r irqNow notOk) := by
  unfold Dev.moderate
  refine .ite (.ringSignal (.same h ?_)) (.same h ?_) <;> exact ⟨rfl, rfl, rfl, rfl, rfl⟩

theorem ringPut (h : d₀.standsBy d) {x : Ready} : d₀.standsBy (d.ringPut x) :=
  .ite (.ringErr h) (.ite (.rollF (.ringErr (.txDrop h)) (spare_rCqRTail _)) (.moderate (.rollF (.sendOut (.set_host h)) (spare_rCqRTail _))))

theorem entryWord (h : d₀.standsBy d) {x : Ready} : d₀.standsBy (d.entryWord x).1 := by
  unfold Dev.entryWord
  split
  · split
    · exact .judge h
    · exact h
  · exact .ite1 (.readWord h) (.readWord h)

theorem putRecord (h : d₀.standsBy d) {x : Ready} : d₀.standsBy (d.putRecord x) := by
  have hword : d₀.standsBy (d.entryWord x).1 := .entryWord h
  unfold Dev.putRecord
  generalize d.entryWord x = z at hword
  obtain ⟨d1, y⟩ := z
  have herase : d₀.standsBy { d1 with cq := { d1.cq with ready := d1.cq.ready.erase x } } := hword.same ⟨rfl, rfl, rfl, rfl, rfl⟩
  dsimp only
  split
  · exact .afterRecord (.ringPut (.handedOver herase))
  · exact .afterRecord (.ringPut herase)

theorem issueRecord (h : d₀.standsBy d) {x : Ready} : d₀.standsBy (d.issueRecord x) := by
  have hmark : d₀.standsBy { d with cq := { d.cq with ready := d.cq.ready.map (markHeld x) } } := h.same ⟨rfl, rfl, rfl, rfl, rfl⟩
  unfold Dev.issueRecord
  refine .ite ?_ (.putRecord h)
  dsimp only
  split
  · exact hmark
  · exact .enterHeld hmark

theorem issueAll (h : d₀.standsBy d) {p : Nat} : d₀.standsBy (d.issueAll p) := .foldl h fun _ _ he => .issueRecord he

/-! ### Commands and queues (05 R142 to R145) -/

theorem pushRecord (h : d₀.standsBy d) {x : Ready} {suppressed : Bool} : d₀.standsBy (d.pushRecord x suppressed) := by
  unfold Dev.pushRecord
  refine .ite h ?_
  dsimp only
  split
  · exact h.same ⟨rfl, rfl, rfl, rfl, rfl⟩
  · exact .same (.ite h (.foldl h fun _ _ he => .set_upsets he)) ⟨rfl, rfl, rfl, rfl, rfl⟩

theorem finishRecord (h : d₀.standsBy d) {q part : Nat} {r : Rec} {status aflags : Byte} {handle vaddr detail : Nat} :
    d₀.standsBy (d.finishRecord q part r status aflags handle vaddr detail) := .rollF (.pushRecord h) (spare_rCqQCcnt _)

theorem setWaiting (h : d₀.standsBy d) {q : Nat} : d₀.standsBy (d.setWaiting q []) := by
  refine h.trans ⟨fun _ _ => rfl, fun _ h => h, rfl, fun x hx => ⟨x, hx, rfl⟩, fun q' hq => ?_, fun _ _ _ h => h⟩
  rw [Dev.waiting, Dev.setWaiting, tget_tset]
  split
  · rfl
  · exact hq

theorem flushQueue (h : d₀.standsBy d) {q : Nat} : d₀.standsBy (d.flushQueue q) := by
  have hempty : d₀.standsBy ((d.setWaiting q []).dropHeadReads q) := .same (.setWaiting h) ⟨rfl, rfl, rfl, rfl, rfl⟩
  have hcount : d₀.standsBy ((((d.setWaiting q []).dropHeadReads q).addF (rCqQFlushed q) fCqQFlushed_Flushed (d.waiting q).length).rollF
      (rCqQScnt q) fCqQScnt_Scnt (d.waiting q).length) := .rollF (.addF hempty (spare_rCqQFlushed _)) (spare_rCqQScnt _)
  unfold Dev.flushQueue
  exact hcount.same ⟨rfl, rfl, rfl, rfl, rfl⟩

/-- Commands leave. -/
theorem dropCmd (h : d₀.standsBy d) {c : Nat} : d₀.standsBy (d.dropCmd c) :=
  h.trans ⟨fun _ _ => rfl, fun _ h => h, rfl, fun x hx => ⟨x, List.mem_of_mem_filter hx, rfl⟩, fun _ h => h, fun _ _ _ h => h⟩

theorem freeTiles (h : d₀.standsBy d) {c : Nat} : d₀.standsBy (d.freeTiles c) := .set_tiles h

theorem dropHenOps (h : d₀.standsBy d) {c : Nat} : d₀.standsBy (d.dropHenOps c) := .set_henOps h

theorem dropReads (h : d₀.standsBy d) {c : Nat} : d₀.standsBy (d.dropReads c) := h.same ⟨rfl, rfl, rfl, rfl, rfl⟩

theorem abandon (h : d₀.standsBy d) {c : Nat} : d₀.standsBy (d.abandon c) := by
  unfold Dev.abandon
  exact .dropReads (.dropHenOps (.set_tiles h))

theorem endCmd (h : d₀.standsBy d) {x : Cmd} : d₀.standsBy (d.endCmd x) :=
  have hended : d₀.standsBy (((((d.dropReads x.id).freeTiles x.id).dropHenOps x.id).dropCmd x.id).loadEnded x) :=
    .loadEnded (.dropCmd (.dropHenOps (.freeTiles (.dropReads h))))
  .ite hended (.finishRecord hended)

theorem leaveSectors (h : d₀.standsBy d) {x : Cmd} : d₀.standsBy (d.leaveSectors x) := .foldl h fun _ _ he => .modSect he

/-! ### The reset of a partition (12 R354 to R356) -/

theorem trainLink (h : d₀.standsBy d) {i : Nat} : d₀.standsBy (d.trainLink i) := by
  unfold Dev.trainLink Dev.stampLink
  exact .putF (.putF (.putF (.set_fab (.set_fab h)) (spare_rFabLinkState _)) (spare_rFabLinkState _)) (spare_rFabLinkPeer _)

theorem trainDown (h : d₀.standsBy d) {p : Nat} : d₀.standsBy (d.trainDown p) := .foldl h fun _ _ he => .trainLink he

theorem trainFrom (h : d₀.standsBy d) {n : Nat} {clears : Bool} (hn : n < 12) : d₀.standsBy (d.trainFrom n clears) :=
  .setReg (.modStack h) (by
    simp only [spareAddr, keptAddr, rCsState]
    omega)

theorem resetEvent (h : d₀.standsBy d) {p bit : Nat} : d₀.standsBy (d.resetEvent p bit) := by
  unfold Dev.resetEvent
  refine .signal (.orReg ?_ ?_) _
  · refine List.foldlRecOn (motive := fun e => d₀.standsBy e) _ _ h fun e he v hv => .orReg he ?_
    obtain ⟨j, hj, rfl⟩ := List.mem_map.mp (List.mem_of_mem_filter hv)
    have hj := List.mem_range.mp hj
    simp only [keptAddr, rSectVfEvent]
    omega
  · simp only [keptAddr, rBlkIntStat, pgPart]
    omega

theorem dropStaged (h : d₀.standsBy d) : d₀.standsBy d.dropStaged := .putF (.set_fab h) spare_rFabStatus

end Dev.standsBy

theorem Dev.stacksOf_lt {d : Dev} {p n : Nat} (h : n ∈ d.stacksOf p) : n < 12 := by
  obtain ⟨k, hk, hn⟩ := List.mem_flatMap.mp h
  have hk := Dev.sectorsOf_lt hk
  simp at hn
  omega

namespace Dev.standsBy

variable {d₀ d e f : Dev}

theorem resetWork (h : d₀.standsBy d) {p : Nat} : d₀.standsBy (d.resetWork p) := by
  unfold Dev.resetWork
  dsimp only
  generalize byQueue _ = lost
  have hlost : d₀.standsBy (lost.foldl (fun d x => (d.abandon x.id).endCmdWith x 0x38 0) d) := .foldl h fun _ _ he => .endCmd (.abandon he)
  generalize lost.foldl (fun d x => (d.abandon x.id).endCmdWith x 0x38 0) d = d1 at hlost
  have hstaged : d₀.standsBy (if lost.any (fun x => x.opcode == 0x22) = true then d1.dropStaged else d1) := .ite (.dropStaged hlost) hlost
  generalize (if lost.any (fun x => x.opcode == 0x22) = true then d1.dropStaged else d1) = d2 at hstaged
  have hsettled : d₀.standsBy ((d2.sectorsOf p).foldl (fun d k => (d.settleBuffer k).modSect k (fun s => { s with idleSince := d.time })) d2) :=
    .foldl hstaged fun _ _ he => .modSect (.settleBuffer he)
  generalize (d2.sectorsOf p).foldl (fun d k => (d.settleBuffer k).modSect k (fun s => { s with idleSince := d.time })) d2 = d3 at hsettled
  have htiles := Dev.standsBy.set_tiles (m := d3.tiles.map (fun (e : Nat × Tile) => if d3.sectPart (e.1 / 24) = p then (e.1, ({} : Tile)) else e))
    (.set_henOps (m := d3.henOps.filter (fun o => !o.stks.any (fun n => d3.stackPart n == p))) hsettled)
  refine List.foldlRecOn (motive := fun e => d₀.standsBy e) _ _ (.issueAll (.abortAll (.foldl htiles fun _ _ he => .flushQueue he)))
    fun e he n hn => .ite he (.trainFrom he (Dev.stacksOf_lt hn))

theorem beginReset (h : d₀.standsBy d) {p cause trigger : Nat} {suspects : List Suspect} :
    d₀.standsBy (d.beginReset p cause trigger suspects) := by
  unfold Dev.beginReset
  dsimp only
  have hstart : ∀ g w, d₀.standsBy ((((d.modPart p g).putF (rSectPartStatus (d.liveSect p)) fSectPartStatus_LastCause cause).addF
      (rSectPartStatus (d.liveSect p)) fSectPartStatus_Resets 1).setReg (rRasRecovTrig p) w) := fun g w =>
    .setReg (.addF (.putF (.modPart h) (spare_rSectPartStatus _)) (spare_rSectPartStatus _)) (spare_rRasRecovTrig _)
  exact .ite h (.ite (.modPart h) (.trainDown (.resetWork (.resetEvent (.ite (.orReg (hstart _ _) spare_rRasStatus.1) (hstart _ _))))))

end Dev.standsBy

namespace Dev.standsBy

end Dev.standsBy

/-! ## What an FLR of a VF takes (11 R333) -/

namespace Dev.standsBy

variable {d₀ d e f : Dev}

theorem flrDrops (h : d₀.standsBy d) {x : Cmd} : d₀.standsBy (d.flrDrops x) := by
  unfold Dev.flrDrops
  exact .loadEnded (.leaveSectors (.dropCmd (.freeTiles (.abandon h))))

theorem flrCmds (h : d₀.standsBy d) {v : Nat} : d₀.standsBy (d.flrCmds v) := .foldl h fun _ _ he => .flrDrops he

theorem spare_queueCount (q : Nat) {i : Nat} (hi : 0 < i ∧ i < 0x40) : spareAddr (0x11200 + 0x1000 * (q / 32) + 0x40 * (q % 32) + i) := by
  simp only [spareAddr, keptAddr]
  omega

theorem clearCounts (h : d₀.standsBy d) {q : Nat} : d₀.standsBy (d.clearCounts q) := by
  unfold Dev.clearCounts
  simp only [List.foldl_cons, List.foldl_nil]
  exact .setReg (.setReg (.setReg (.setReg (.setReg (.setReg h (spare_queueCount q (i := 0xc) (by decide))) (spare_queueCount q (i := 0x10) (by decide)))
    (spare_queueCount q (i := 0x14) (by decide))) (spare_queueCount q (i := 0x18) (by decide))) (spare_queueCount q (i := 0x1c) (by decide)))
    (spare_queueCount q (i := 0x24) (by decide))

theorem resetRing (h : d₀.standsBy d) {r : Nat} : d₀.standsBy (d.resetRing r) := by
  have hspare : ∀ i ∈ [0x8, 0xc, 0x14], spareAddr (0x15200 + 0x1000 * (r / 32) + 0x40 * (r % 32) + i) := fun i hi => by
    simp at hi
    simp only [spareAddr, keptAddr]
    omega
  unfold Dev.resetRing
  exact .setReg (.setReg (.setReg h (hspare 0x8 (by simp))) (hspare 0xc (by simp))) (hspare 0x14 (by simp))

/-- Registers go to their Reset column, none of those the relation speaks of among them. -/
theorem resetRegs (h : d₀.standsBy d) {lo hi : Nat} (hs : ∀ a, lo ≤ a → a < hi → spareAddr a) : d₀.standsBy (d.resetRegs lo hi) := by
  refine h.trans ⟨fun a ha => ?_, fun i hi' => ?_, rfl, fun x hx => ⟨x, hx, rfl⟩, fun _ h => h, fun _ _ _ h => h⟩
  · rw [Dev.reg_resetRegs, if_neg fun k => (hs a k.1 k.2).1 ha]
  · rwa [Dev.event, Dev.reg_resetRegs, if_neg fun k => (hs _ k.1 k.2).2 rfl]

theorem resetThokel (h : d₀.standsBy d) {k c : Nat} (hc : c < 16) : d₀.standsBy (d.resetThokel k c) :=
  .resetRegs h fun a hlo hhi => by
    simp only [rSectDtabBase] at hlo hhi
    simp only [spareAddr, keptAddr]
    omega

end Dev.standsBy

/-- The FLR of a function starts at the queues it owns, its records discarded. -/
def Dev.flrRecords (d : Dev) (v : Nat) : Dev :=
  d.discardRecords (fun x => ((List.range 128).filter (fun r => d.getF (rCqRCfg r) fCqRCfg_Func == v)).contains x.ring)

/-- The queues of a list flushed, their counts cleared. -/
def Dev.flushAll (d : Dev) (qs : List Nat) : Dev := qs.foldl (fun d q => (d.flushQueue q).clearCounts q) d

/-- The rings and contexts of the function that an FLR takes. -/
def Dev.flrRings (d : Dev) (v : Nat) (rings : List Nat) : Dev :=
  let d := rings.foldl (fun d r => d.resetRing r) d
  let p := d.vfPart v
  let k := d.liveSect p
  ((List.range 16).filter (fun c => d.ctxEn p c && d.ctxFunc p c == v)).foldl (fun d c => d.resetThokel k c) d

theorem Dev.flrQueues_eq (d : Dev) (v : Nat) : d.flrQueues v =
    ((d.flrRecords v).flushAll ((List.range 128).filter (fun q => (d.flrRecords v).queueFunc q == v))).flrRings v
      ((List.range 128).filter (fun r => d.getF (rCqRCfg r) fCqRCfg_Func == v)) := rfl

namespace Dev.standsBy

variable {d₀ d e f : Dev}

theorem flrRecords (h : d₀.standsBy d) {v : Nat} : d₀.standsBy (d.flrRecords v) := .discardRecords h

theorem flushAll (h : d₀.standsBy d) {qs : List Nat} : d₀.standsBy (d.flushAll qs) := .foldl h fun _ _ he => .clearCounts (.flushQueue he)

theorem flrRings (h : d₀.standsBy d) {v : Nat} {rings : List Nat} : d₀.standsBy (d.flrRings v rings) := by
  have hrings : d₀.standsBy (rings.foldl (fun d r => d.resetRing r) d) := .foldl h fun _ _ he => .resetRing he
  unfold Dev.flrRings
  dsimp only
  generalize rings.foldl (fun d r => d.resetRing r) d = d1 at hrings
  exact List.foldlRecOn (motive := fun e => d₀.standsBy e) _ _ hrings fun e he c hc =>
    .resetThokel he (List.mem_range.mp (List.mem_of_mem_filter hc))

theorem flrQueues (h : d₀.standsBy d) {v : Nat} : d₀.standsBy (d.flrQueues v) := by
  rw [Dev.flrQueues_eq]
  exact .flrRings (.flushAll (.flrRecords h))

end Dev.standsBy

/-! ### Its requests -/

theorem Dev.cancelEntry_leaves (d : Dev) (i v : Nat) : ((d.cancelEntry i).entry i).leaves v := by
  unfold Dev.cancelEntry
  dsimp only
  split
  next h =>
    intro hocc _
    rcases h with h | h
    · rw [hocc] at h
      exact absurd h (by decide)
    · exact .inl h
  · split
    · have hclosed : ((d.closeWith i 0x10 0).entry i).state = .closing := by
        show (((d.dropTokenReads i).modEntry i (fun x => { x with state := .closing, outs := [] })).entry i).state = .closing
        rw [Dev.modEntry_entry_self]
      exact fun _ _ => .inl hclosed
    · rw [Dev.modEntry_entry_self]
      exact fun _ _ => .inr rfl

theorem Dev.foldl_cancelEntry_leaves {v : Nat} (hv : v ≠ 0) {i : Nat} : ∀ {es : List Nat}, i ∈ es → ∀ {d : Dev},
    ((es.foldl (fun d e => d.cancelEntry e) d).entry i).leaves v
  | j :: es, hi, d => by
    have hrest : (d.cancelEntry j).standsBy (es.foldl (fun d e => d.cancelEntry e) (d.cancelEntry j)) :=
      .foldl (.refl _) fun _ _ he => .cancelEntry he
    rcases List.mem_cons.mp hi with rfl | hi
    · exact hrest.entries i v hv (d.cancelEntry_leaves i v)
    · exact Dev.foldl_cancelEntry_leaves hv hi

theorem mem_of_tget {α : Type} {t : Tab α} {z : α} {k : Nat} : tget t z k = z ∨ (k, tget t z k) ∈ t := by
  induction t with
  | nil => exact .inl rfl
  | cons e t ih =>
    obtain ⟨j, y⟩ := e
    unfold tget
    split
    next h =>
      rw [eq_of_beq h]
      exact .inr List.mem_cons_self
    · exact ih.imp id (List.mem_cons_of_mem _)

theorem Dev.mem_entriesWhere {d : Dev} {i : Nat} {who : Entry → Bool} (hocc : (d.entry i).occupied = true) (hw : who (d.entry i) = true) :
    i ∈ d.entriesWhere who := by
  rcases mem_of_tget (t := d.srv.entries) (z := ({} : Entry)) (k := i) with h | h
  · have hfree : d.entry i = {} := h
    rw [hfree] at hocc
    exact absurd hocc (by decide)
  · exact List.mem_map.mpr ⟨(i, d.entry i), List.mem_filter.mpr ⟨h, by simp only [hocc, hw]; rfl⟩, rfl⟩

theorem Dev.cancelOwned_leaves (d : Dev) {v : Nat} (hv : v ≠ 0) (i : Nat) : ((d.cancelOwned v).entry i).leaves v := by
  by_cases hown : (d.entry i).occupied = true ∧ (d.entry i).func = v
  · have hmem : i ∈ d.entriesWhere (fun x => x.func == v) := Dev.mem_entriesWhere hown.1 (beq_iff_eq.mpr hown.2)
    rw [Dev.cancelOwned]
    exact Dev.foldl_cancelEntry_leaves hv hmem
  · have hstands : d.standsBy (d.cancelOwned v) := .cancelOwned (.refl d)
    exact hstands.entries i v hv fun hocc hf => absurd ⟨hocc, hf⟩ hown

/-! ### Its queues -/

/-- The counts of a queue (Table 5-8). -/
abbrev queueCounts (q : Nat) : List Nat := [rCqQWcnt q, rCqQScnt q, rCqQCcnt q, rCqQQovf q, rCqQQrej q, rCqQFlushed q]

theorem queueCounts_range {q a : Nat} (h : a ∈ queueCounts q) (hq : q < 128) : 0x11200 ≤ a ∧ a < 0x15000 := by
  simp only [queueCounts, List.mem_cons, List.not_mem_nil, or_false, rCqQWcnt, rCqQScnt, rCqQCcnt, rCqQQovf, rCqQQrej, rCqQFlushed] at h
  omega

theorem Dev.foldl_setZero (as : List Nat) (d : Dev) (a : Nat) :
    (as.foldl (fun d a => d.setReg a 0) d).reg a = if a ∈ as then 0 else d.reg a := by
  induction as generalizing d with
  | nil => rfl
  | cons b as ih =>
    rw [List.foldl_cons, ih]
    by_cases has : a ∈ as
    · rw [if_pos has, if_pos (List.mem_cons_of_mem _ has)]
    · rw [if_neg has]
      by_cases hab : a = b
      · rw [hab, Dev.reg_setReg_self, if_pos List.mem_cons_self]
      · rw [Dev.reg_setReg_ne _ _ hab, if_neg (by simp [hab, has])]

theorem Dev.clearCounts_reg (d : Dev) (q a : Nat) : (d.clearCounts q).reg a = if a ∈ queueCounts q then 0 else d.reg a := Dev.foldl_setZero _ _ _

theorem Dev.flushQueue_reg (d : Dev) {q a : Nat} (h : a ∉ queueCounts q) : (d.flushQueue q).reg a = d.reg a := by
  have hflushed : a ≠ rCqQFlushed q := fun k => h (by simp [k])
  have hscnt : a ≠ rCqQScnt q := fun k => h (by simp [k])
  exact (Dev.reg_setReg_ne _ _ hscnt).trans (Dev.reg_setReg_ne _ _ hflushed)

theorem Dev.flushQueue_empties (d : Dev) (q : Nat) : (d.flushQueue q).waiting q = [] := tget_tset_self _ _ _ _

/-- A queue flushed has its counts at zero, and leaves those of others. -/
theorem Dev.flushed_reg (d : Dev) (q a : Nat) : ((d.flushQueue q).clearCounts q).reg a = if a ∈ queueCounts q then 0 else d.reg a := by
  rw [Dev.clearCounts_reg]
  split
  · rfl
  next h => exact d.flushQueue_reg h

theorem Dev.flushAll_zero {a : Nat} : ∀ (qs : List Nat) (d : Dev), d.reg a = 0 ∨ (∃ q ∈ qs, a ∈ queueCounts q) → (d.flushAll qs).reg a = 0
  | [], d, h => h.resolve_right (by simp)
  | q :: qs, d, h => by
    refine Dev.flushAll_zero qs _ ?_
    rw [Dev.flushed_reg]
    by_cases ha : a ∈ queueCounts q
    · exact .inl (if_pos ha)
    · rw [if_neg ha]
      refine h.imp id fun ⟨p, hp, hap⟩ => ?_
      rcases List.mem_cons.mp hp with rfl | hp
      · exact absurd hap ha
      · exact ⟨p, hp, hap⟩

theorem Dev.flushAll_empties {q : Nat} : ∀ {qs : List Nat}, q ∈ qs → ∀ {d : Dev}, (d.flushAll qs).waiting q = []
  | p :: qs, hq, d => by
    have hrest : ((d.flushQueue p).clearCounts p).standsBy (((d.flushQueue p).clearCounts p).flushAll qs) := .flushAll (.refl _)
    rcases List.mem_cons.mp hq with rfl | hq
    · exact hrest.waiting q (d.flushQueue_empties q)
    · exact Dev.flushAll_empties hq

/-- Registers below the sectors' pages and outside the rings' stand as rings and contexts are reset. -/
theorem Dev.flrRings_reg (d : Dev) (v : Nat) (rings : List Nat) {a : Nat} (ha : a < 0x15000) : (d.flrRings v rings).reg a = d.reg a := by
  have hring : ∀ (e : Dev) r, (e.resetRing r).reg a = e.reg a := fun e r => by
    have hne : ∀ b, 0x15000 ≤ b → a ≠ b := fun b hb => by omega
    exact (Dev.reg_setReg_ne _ _ (hne _ (by simp only [rCqRHead]; omega))).trans ((Dev.reg_setReg_ne _ _ (hne _ (by simp only [rCqRMod]; omega))).trans
      (Dev.reg_setReg_ne _ _ (hne _ (by simp only [rCqRCfg]; omega))))
  have hctx : ∀ (e : Dev) k c, (e.resetThokel k c).reg a = e.reg a := fun e k c => by
    rw [Dev.resetThokel, Dev.reg_resetRegs, if_neg]
    simp only [rSectDtabBase]
    omega
  unfold Dev.flrRings
  dsimp only
  have hrings : (rings.foldl (fun d r => d.resetRing r) d).reg a = d.reg a :=
    List.foldlRecOn (motive := fun e : Dev => e.reg a = d.reg a) _ _ rfl fun e he r _ => (hring e r).trans he
  generalize rings.foldl (fun d r => d.resetRing r) d = d1 at hrings
  exact List.foldlRecOn (motive := fun e : Dev => e.reg a = d.reg a) _ _ hrings fun e he c _ => (hctx e _ c).trans he

theorem Dev.queueFunc_kept {d e : Dev} (h : d.standsBy e) {q : Nat} (hq : q < 128) : e.queueFunc q = d.queueFunc q := by
  rw [Dev.queueFunc, Dev.getF, h.regs (rCqQCfg q)]
  · rfl
  · simp only [keptAddr, rCqQCfg]
    omega

theorem Dev.flrQueues_takes (d : Dev) (v : Nat) {q : Nat} (hq : q < 128) (hf : d.queueFunc q = v) :
    (d.flrQueues v).waiting q = [] ∧ ∀ a ∈ queueCounts q, (d.flrQueues v).reg a = 0 := by
  have hmem : q ∈ (List.range 128).filter (fun q => (d.flrRecords v).queueFunc q == v) := by
    refine List.mem_filter.mpr ⟨List.mem_range.mpr hq, beq_iff_eq.mpr ?_⟩
    rw [Dev.queueFunc_kept (.flrRecords (.refl d)) hq, hf]
  rw [Dev.flrQueues_eq]
  generalize (List.range 128).filter (fun q => (d.flrRecords v).queueFunc q == v) = qs at hmem
  generalize (List.range 128).filter (fun r => d.getF (rCqRCfg r) fCqRCfg_Func == v) = rings
  have hrings : ((d.flrRecords v).flushAll qs).standsBy (((d.flrRecords v).flushAll qs).flrRings v rings) := .flrRings (.refl _)
  refine ⟨hrings.waiting q (Dev.flushAll_empties hmem), fun a ha => ?_⟩
  rw [Dev.flrRings_reg _ _ _ (queueCounts_range ha hq).2]
  exact Dev.flushAll_zero _ _ (.inr ⟨q, hmem, ha⟩)

/-! ### What an FLR of a VF has done -/

/-- The state of the device once the FLR of a VF has taken what it owned. -/
structure Dev.vfTaken (d e : Dev) (v : Nat) : Prop where
  kept : ∀ a, keptAddr a → e.reg a = d.reg a
  cmds : ∀ x ∈ e.cq.cmds, x.func ≠ v
  waiting : ∀ q < 128, d.queueFunc q = v → e.waiting q = []
  counts : ∀ q < 128, d.queueFunc q = v → ∀ a ∈ queueCounts q, e.reg a = 0
  entries : ∀ i, (e.entry i).leaves v
  fns : e.hif.fns = tset d.hif.fns v {}
  vfEvent : e.reg (rSectVfEvent v) = 0

theorem Dev.flrFunction_reg (d : Dev) (v : Nat) {a : Nat} (ha : a ≠ rSectVfEvent v) : (d.flrFunction v).reg a = d.reg a :=
  Dev.reg_setReg_ne _ _ ha

theorem kept_ne_vfEvent {a v : Nat} (hv : 0 < v) (hv' : v < 25) (ha : keptAddr a) : a ≠ rSectVfEvent v := by
  simp only [keptAddr] at ha
  simp only [rSectVfEvent]
  omega

theorem Dev.vfFlrPath_takes (d : Dev) {v : Nat} (hv : 0 < v) (hv' : v < 25) : d.vfTaken (d.vfFlrPath v) v := by
  obtain ⟨-, hcmds⟩ := d.vfFlrPath_cmds v
  have hfns := d.vfFlrPath_fns v
  rw [Dev.vfFlrPath_eq] at hcmds hfns ⊢
  have hcancel : d.standsBy ((d.flrCmds v).cancelOwned v) := .cancelOwned (.flrCmds (.refl d))
  have hleaves := (d.flrCmds v).cancelOwned_leaves (Nat.pos_iff_ne_zero.mp hv)
  generalize (d.flrCmds v).cancelOwned v = d1 at *
  have hqueues : d1.standsBy (d1.flrQueues v) := .flrQueues (.refl d1)
  have htakes : ∀ q < 128, d.queueFunc q = v → (d1.flrQueues v).waiting q = [] ∧ ∀ a ∈ queueCounts q, (d1.flrQueues v).reg a = 0 := fun q hq hf =>
    d1.flrQueues_takes v hq (by rw [Dev.queueFunc_kept hcancel hq, hf])
  generalize d1.flrQueues v = d2 at *
  refine ⟨fun a ha => ?_, hcmds, fun q hq hf => (htakes q hq hf).1, fun q hq hf a ha => ?_, fun i => hqueues.entries i v (Nat.pos_iff_ne_zero.mp hv) (hleaves i),
    hfns, Dev.reg_setReg_self _ _ _⟩
  · rw [Dev.flrFunction_reg _ _ (kept_ne_vfEvent hv hv' ha), hqueues.regs a ha, hcancel.regs a ha]
  · have hrange := queueCounts_range ha hq
    rw [Dev.flrFunction_reg]
    · exact (htakes q hq hf).2 a ha
    · simp only [rSectVfEvent]
      omega

/-- The state of the device once the FLR of a VF has said that it is done. -/
structure Dev.vfGone (d e : Dev) (v : Nat) : Prop where
  power : e.reg rPwrState = d.reg rPwrState
  layout : e.reg rSectPartLayout = d.reg rSectPartLayout
  cmds : ∀ x ∈ e.cq.cmds, x.func ≠ v
  waiting : ∀ q < 128, d.queueFunc q = v → e.waiting q = []
  counts : ∀ q < 128, d.queueFunc q = v → ∀ a ∈ queueCounts q, e.reg a = 0
  entries : ∀ i, (e.entry i).leaves v
  fn : e.fn v = {}
  vfEvent : e.reg (rSectVfEvent v) = 0
  done : bitOf (e.reg rSectVfFlrDone) v = true
  event : e.event (pgPart 0) 9 = true

/-- SECT_VF_FLR_DONE and its event are what saying that it is done changes of the registers. -/
theorem Dev.vfFlrDone_reg (d : Dev) (v : Nat) {a : Nat} (hd : a ≠ rSectVfFlrDone) (hr : (raiseRegs (pgPart 0)).contains a = false) :
    (d.vfFlrDone v).reg a = d.reg a := (Dev.raise_regsBut _ _ _ a hr).trans (Dev.reg_setReg_ne _ _ hd)

theorem Dev.vfFlrDone_done (d : Dev) {v : Nat} (hv : v < 64) : bitOf ((d.vfFlrDone v).reg rSectVfFlrDone) v = true := by
  have hreg : (d.vfFlrDone v).reg rSectVfFlrDone = d.reg rSectVfFlrDone ||| BitVec.ofNat 64 (2 ^ v) :=
    (Dev.raise_regsBut _ _ _ _ (by decide)).trans (Dev.reg_setReg_self _ _ _)
  rw [hreg, bitOf, BitVec.getLsbD_or, BitVec.getLsbD_ofNat]
  simp [hv]

theorem Dev.vfFlrDone_event (d : Dev) (v : Nat) : (d.vfFlrDone v).event (pgPart 0) 9 = true :=
  Dev.raise_sets (bits := 0x200) _ (by decide) (by decide) (by decide)

theorem Dev.vfFlr_gone (d : Dev) {v : Nat} (hv : 0 < v) (hv' : v < 25) : d.vfGone (d.vfFlr v) v := by
  have htaken := d.vfFlrPath_takes hv hv'
  rw [Dev.vfFlr, if_neg (Nat.pos_iff_ne_zero.mp hv)]
  generalize d.vfFlrPath v = k at htaken
  have hframe : k.onlyIn (k.vfFlrDone v) [.regs, .hif] := .vfFlrDone (k.onlyIn_refl _)
  have hcq : (k.vfFlrDone v).cq = k.cq := hframe .cq rfl
  have hsrv : (k.vfFlrDone v).srv = k.srv := hframe .srv rfl
  have hkept : ∀ {a}, a ≠ rSectVfFlrDone → (raiseRegs (pgPart 0)).contains a = false → keptAddr a → (k.vfFlrDone v).reg a = d.reg a :=
    fun hd hr ha => (k.vfFlrDone_reg v hd hr).trans (htaken.kept _ ha)
  refine ⟨hkept (by decide) (by decide) (.inl rfl), hkept (by decide) (by decide) (.inr (.inl rfl)), fun x hx => htaken.cmds x (by rwa [hcq] at hx),
    fun q hq hf => ?_, fun q hq hf a ha => ?_, fun i => ?_, ?_, ?_, k.vfFlrDone_done (by omega), k.vfFlrDone_event v⟩
  · rw [Dev.waiting, hcq]
    exact htaken.waiting q hq hf
  · have hrange := queueCounts_range ha hq
    rw [k.vfFlrDone_reg v (by simp only [rSectVfFlrDone]; omega) (by simp [rBlkIntStat, pgPart, rHifTxDrop, pgHif]; omega)]
    exact htaken.counts q hq hf a ha
  · rw [Dev.entry, hsrv]
    exact htaken.entries i
  · have hfns : (k.vfFlrDone v).hif.fns = k.hif.fns := (Dev.sheds.raise _ _ _).2
    rw [Dev.fn, hfns, htaken.fns]
    exact tget_tset_self _ _ _ _
  · rw [k.vfFlrDone_reg v (by simp only [rSectVfEvent, rSectVfFlrDone]; omega) (by simp [rSectVfEvent, rBlkIntStat, pgPart, rHifTxDrop, pgHif]; omega)]
    exact htaken.vfEvent

/-- A reset that follows leaves gone what is gone. -/
theorem Dev.vfGone_then {d e f : Dev} {v : Nat} (hv : v ≠ 0) (h : d.vfGone e v) (k : e.standsBy f) :
    (∀ x ∈ f.cq.cmds, x.func ≠ v) ∧ (∀ q < 128, d.queueFunc q = v → f.waiting q = []) ∧ (∀ i, (f.entry i).leaves v) ∧ f.fn v = {}
      ∧ bitOf (f.reg rSectVfFlrDone) v = true ∧ f.event (pgPart 0) 9 = true := by
  refine ⟨fun x hx => ?_, fun q hq hf => k.waiting q (h.waiting q hq hf), fun i => k.entries i v hv (h.entries i), ?_, ?_, k.event 9 h.event⟩
  · obtain ⟨y, hy, hyx⟩ := k.cmds x hx
    rw [← hyx]
    exact h.cmds y hy
  · have hfns : f.hif.fns = e.hif.fns := congrArg Prod.fst k.settings
    rw [Dev.fn, hfns]
    exact h.fn
  · rw [k.regs rSectVfFlrDone (.inr (.inr (.inl rfl)))]
    exact h.done

/-- What the FLR of a VF shows, its partition reset besides or not. -/
def Dev.vfFlrShows (d e : Dev) (v : Nat) (resets : Bool) : Prop :=
  (∀ x ∈ e.cq.cmds, x.func ≠ v)
  ∧ (∀ q : Nat, q < 128 → d.queueFunc q = v → e.waiting q = [] ∧ (resets = false → ∀ a ∈ queueCounts q, e.reg a = 0))
  ∧ (∀ i : Nat, (e.entry i).leaves v) ∧ e.fn v = {} ∧ bitOf (e.reg rSectVfFlrDone) v = true ∧ e.event (pgPart 0) 9 = true
  ∧ (resets = false ∨ (∀ x ∈ d.cq.cmds, x.func ≠ v) → e.reg (rSectVfEvent v) = 0 ∧ e.stk = d.stk ∧ e.tram = d.tram
      ∧ e.sram = d.sram ∧ e.parts = d.parts)
  ∧ (resets = true → (∃ x ∈ d.cq.cmds, x.func = v) → d.partExists (d.vfPart v) = true → d.inReset (d.vfPart v) = false → d.pstate = 0 →
      (e.part (d.vfPart v)).phase = .records ∧ (e.part (d.vfPart v)).cause = 2)

theorem Dev.vfFlr_shows (d : Dev) {v : Nat} (hv : 0 < v) (hv' : v < 25) {resets : Bool}
    (hcmds : resets = true → ∀ x ∈ d.cq.cmds, x.func ≠ v) :    d.vfFlrShows (d.vfFlr v) v resets := by
  have hgone := d.vfFlr_gone hv hv'
  have hframe : d.onlyIn (d.vfFlr v) [.regs, .cq, .tiles, .henOps, .sect, .srv, .hif, .free] := .vfFlr (d.onlyIn_refl _)
  exact ⟨hgone.cmds, fun q hq hf => ⟨hgone.waiting q hq hf, fun _ => hgone.counts q hq hf⟩, hgone.entries, hgone.fn, hgone.done, hgone.event,
    fun _ => ⟨hgone.vfEvent, hframe .stk rfl, hframe .tram rfl, hframe .sram rfl, hframe .parts rfl⟩,
    fun hr ⟨x, hx, hxv⟩ => absurd hxv (hcmds hr x hx)⟩

theorem Dev.vfFlrEscalate_shows (d : Dev) {v : Nat} (hv : 0 < v) (hv' : v < 25) : d.vfFlrShows (d.vfFlrEscalate v) v true := by
  have hpath : (d.vfFlrPath v).vfFlrDone v = d.vfFlr v := (if_neg (Nat.pos_iff_ne_zero.mp hv)).symm
  unfold Dev.vfFlrEscalate
  rw [if_neg (Nat.pos_iff_ne_zero.mp hv)]
  dsimp only
  rw [hpath]
  split
  next hleft =>
    obtain ⟨x, hx, hxv⟩ := List.any_eq_true.mp hleft
    have hgone := d.vfFlr_gone hv hv'
    have hframe : d.onlyIn (d.vfFlr v) [.regs, .cq, .tiles, .henOps, .sect, .srv, .hif, .free] := .vfFlr (d.onlyIn_refl _)
    obtain ⟨hcmds, hwaiting, hentries, hfn, hdone, hevent⟩ := Dev.vfGone_then (Nat.pos_iff_ne_zero.mp hv) hgone
      (.beginReset (p := d.vfPart v) (cause := 2) (trigger := 4) (suspects := []) (.refl _))
    refine ⟨hcmds, fun q hq hf => ⟨hwaiting q hq hf, fun hr => absurd hr (by decide)⟩, hentries, hfn, hdone, hevent, fun hnone => ?_,
      fun _ _ hexists hin hactive => ?_⟩
    · rcases hnone with hr | hnone
      · exact absurd hr (by decide)
      · exact absurd (eq_of_beq hxv) (hnone x hx)
    · have hin' : (d.vfFlr v).inReset (d.vfPart v) = false := by
        rw [Dev.inReset, hframe .parts rfl]
        exact hin
      have hparts := Dev.beginReset_parts (d := d.vfFlr v) (p := d.vfPart v) (cause := 2) (trigger := 4) (suspects := [])
        (by rw [Dev.partExists_of_layout hgone.layout]; exact hexists) hin' (by rw [Dev.pstate, Dev.getF, hgone.power]; exact hactive)
      rw [Dev.part, hparts, tget_tmod_self]
      exact ⟨rfl, rfl⟩
  next hleft =>
    refine d.vfFlr_shows hv hv' fun _ x hx hxv => hleft (List.any_eq_true.mpr ⟨x, hx, beq_iff_eq.mpr hxv⟩)

/-! ## The FLR of the PF (11 R336) -/

theorem Dev.part_modPart_ne (d : Dev) {p k : Nat} (f : Part → Part) (h : p ≠ k) : (d.modPart k f).part p = d.part p :=
  tget_tmod_ne d.parts {} f h

/-- A reset touches the state of its own partition only. -/
theorem Dev.beginReset_part_ne (d : Dev) {p k cause trigger : Nat} {suspects : List Suspect} (h : p ≠ k) :
    (d.beginReset k cause trigger suspects).part p = d.part p := by
  by_cases hskip : d.partExists k = true ∧ d.inReset k = false
  · obtain ⟨hexists, hin⟩ := hskip
    by_cases hactive : d.pstate = 0
    · rw [Dev.part, Dev.beginReset_parts hexists hin hactive, tget_tmod_ne _ _ _ h]
      rfl
    · have hne : d.getF rPwrState fPwrState_State ≠ 0 := hactive
      have hwaits : d.beginReset k cause trigger suspects =
          d.modPart k (fun x => { x with resetWaits := true, resetWaitCause := cause, trigger := trigger }) := by
        rw [Dev.beginReset, if_neg (by simp [hexists, hin]), if_pos hne]
      rw [hwaits]
      exact d.part_modPart_ne _ h
  · have hstays : d.beginReset k cause trigger suspects = d := by
      rw [Dev.beginReset, if_pos]
      cases hexists : d.partExists k
      · exact .inl rfl
      · refine .inr ?_
        simpa [hexists] using hskip
    rw [hstays]

/-- A partition that a reset of the PF may begin on. -/
def Dev.mayReset (d : Dev) (p : Nat) : Prop := d.partExists p = true ∧ d.inReset p = false ∧ d.pstate = 0

/-- A partition in the records of a reset that the PF's FLR began. -/
def Dev.pfReset (d : Dev) (p : Nat) : Prop := (d.part p).phase = .records ∧ (d.part p).cause = 3

theorem Dev.pfReset_of_parts {d e : Dev} {p : Nat} (h : e.parts = d.parts) (k : d.pfReset p) : e.pfReset p := by
  rw [Dev.pfReset, Dev.part_of_parts h]
  exact k

theorem Dev.pfReset_begins {d : Dev} {p : Nat} (h : d.mayReset p) : (d.beginReset p 3 4 []).pfReset p := by
  obtain ⟨hexists, hin, hactive⟩ := h
  rw [Dev.pfReset, Dev.part, Dev.beginReset_parts hexists hin hactive, tget_tmod_self]
  exact ⟨rfl, rfl⟩

theorem Dev.pfReset_keeps {d : Dev} {p k : Nat} (h : d.pfReset p) : (d.beginReset k 3 4 []).pfReset p := by
  by_cases hk : p = k
  · subst hk
    have hin : d.inReset p = true := by
      show ((d.part p).phase != .none) = true
      rw [h.1]
      rfl
    rw [Dev.beginReset, if_pos (.inr hin)]
    exact h
  · rw [Dev.pfReset, d.beginReset_part_ne hk]
    exact h

theorem Dev.mayReset_keeps {d : Dev} {p k : Nat} (h : d.mayReset p) (hk : p ≠ k) : (d.beginReset k 3 4 []).mayReset p := by
  obtain ⟨hexists, hin, hactive⟩ := h
  have hstands : d.standsBy (d.beginReset k 3 4 []) := .beginReset (.refl d)
  have hpart := d.beginReset_part_ne (cause := 3) (trigger := 4) (suspects := []) hk
  refine ⟨?_, ?_, ?_⟩
  · rw [Dev.partExists_of_layout (hstands.regs rSectPartLayout (.inr (.inl rfl)))]
    exact hexists
  · show (((d.beginReset k 3 4 []).part p).phase != .none) = false
    rw [hpart]
    exact hin
  · rw [Dev.pstate, Dev.getF, hstands.regs rPwrState (.inl rfl)]
    exact hactive

theorem Dev.foldl_beginReset_keeps {p : Nat} (ps : List Nat) {d : Dev} (h : d.pfReset p) :
    (ps.foldl (fun d p => d.beginReset p 3 4 []) d).pfReset p :=
  List.foldlRecOn (motive := fun e : Dev => e.pfReset p) _ _ h fun _ he _ _ => Dev.pfReset_keeps he

theorem Dev.foldl_beginReset {p : Nat} : ∀ {ps : List Nat}, p ∈ ps → ∀ {d : Dev}, d.mayReset p →
    (ps.foldl (fun d p => d.beginReset p 3 4 []) d).pfReset p
  | k :: ps, hp, d, h => by
    by_cases hk : p = k
    · subst hk
      exact Dev.foldl_beginReset_keeps ps (Dev.pfReset_begins h)
    · exact Dev.foldl_beginReset ((List.mem_cons.mp hp).resolve_left hk) (Dev.mayReset_keeps h hk)

/-- The configuration space at its Reset values. -/
def Dev.pfBlank (d : Dev) : Prop :=
  d.hif.vfEnable = false ∧ d.hif.bar4Log2 = 40 ∧ d.hif.maxReadReq = 512 ∧ d.hif.maxPayload = 128 ∧ d.hif.cplRange = 0 ∧ ∀ f : Nat, d.fn f = {}

theorem Dev.pfBlank_of_settings {d e : Dev} (h : d.pfBlank) (hs : e.hif.settings = d.hif.settings) : e.pfBlank := by
  simp only [Hif.settings, Prod.mk.injEq] at hs
  obtain ⟨hfns, hvf, -, hbar4, hpayload, hread, hcpl⟩ := hs
  obtain ⟨h1, h2, h3, h4, h5, h6⟩ := h
  refine ⟨hvf.trans h1, hbar4.trans h2, hread.trans h3, hpayload.trans h4, hcpl.trans h5, fun f => ?_⟩
  rw [Dev.fn, hfns]
  exact h6 f

theorem Dev.pfBlank_then {d e : Dev} (h : d.pfBlank) (k : d.standsBy e) : e.pfBlank := Dev.pfBlank_of_settings h k.settings

theorem Dev.flrFunction_pfBlank {d : Dev} (h : d.pfBlank) (v : Nat) : (d.flrFunction v).pfBlank := by
  obtain ⟨h1, h2, h3, h4, h5, h6⟩ := h
  refine ⟨h1, h2, h3, h4, h5, fun f => ?_⟩
  show tget (tset d.hif.fns v {}) {} f = {}
  rw [tget_tset]
  split
  · rfl
  · exact h6 f

theorem Dev.vfFlrPath_pfBlank {d : Dev} (h : d.pfBlank) (v : Nat) : (d.vfFlrPath v).pfBlank := by
  rw [Dev.vfFlrPath_eq]
  exact Dev.flrFunction_pfBlank (Dev.pfBlank_then h (.flrQueues (.cancelOwned (.flrCmds (.refl d))))) v

/-- The device whose configuration space is at its Reset values. -/
def Dev.blanked (d : Dev) : Dev := { d with hif := { d.hif with
  fns := [], vecs := [], vfEnable := false, numVfs := 0, bar4Log2 := 40, maxPayload := 128, maxReadReq := 512, cplRange := 0 } }

/-- The FLR of the PF up to its registers: partitions reset, VFs and its own queues taken. -/
def Dev.pfTakes (d : Dev) : Dev :=
  let d := (List.range 6).foldl (fun d p => d.beginReset p 3 4 []) d.blanked
  let d := ((List.range 24).map (· + 1)).foldl (fun d v => d.vfFlrPath v) d
  let d := ((List.range 128).filter (fun q => d.queuePart q == 7)).foldl (fun d q => d.flushQueue q) d
  d.discardRecords (fun _ => true)

/-- The registers of queues, rings and functions go to their Reset column, and what waits goes. -/
def Dev.pfClears (d : Dev) : Dev :=
  let d := (((d.resetRegs 0x10000 0x19000).resetRegs 0x101080 0x1010E0).resetRegs 0x1010F0 0x1010F4).resetRegs 0x101100 0x101160
  { d with cq := { d.cq with storage := [], stamps := [], checked := [], fetched := [], turns := [], modCount := [], modStart := [] } }

theorem Dev.pfFlr_eq (d : Dev) : d.pfFlr = d.pfTakes.pfClears := rfl

theorem Dev.pfTakes_takes (d : Dev) : d.pfTakes.pfBlank ∧ ∀ p, d.mayReset p → d.pfTakes.pfReset p := by
  have hblank : d.blanked.pfBlank := ⟨rfl, rfl, rfl, rfl, rfl, fun _ => rfl⟩
  have hmayReset : ∀ p, d.mayReset p → d.blanked.mayReset p := fun _ h => h
  unfold Dev.pfTakes
  dsimp only
  generalize d.blanked = d1 at *
  have hreset : ((List.range 6).foldl (fun d p => d.beginReset p 3 4 []) d1).pfBlank :=
    Dev.pfBlank_then hblank (.foldl (.refl d1) fun _ _ he => .beginReset he)
  have hphase : ∀ p, d.mayReset p → ((List.range 6).foldl (fun d p => d.beginReset p 3 4 []) d1).pfReset p := fun p hp => by
    have hlt : p < 6 := by
      have hexists := hp.1
      simp only [Dev.partExists, Bool.and_eq_true, decide_eq_true_eq] at hexists
      exact hexists.1
    exact Dev.foldl_beginReset (List.mem_range.mpr hlt) (hmayReset p hp)
  generalize (List.range 6).foldl (fun d p => d.beginReset p 3 4 []) d1 = d2 at hreset hphase
  have hvfs : (((List.range 24).map (· + 1)).foldl (fun d v => d.vfFlrPath v) d2).pfBlank :=
    List.foldlRecOn (motive := fun e : Dev => e.pfBlank) _ _ hreset fun _ he v _ => Dev.vfFlrPath_pfBlank he v
  have hvfParts : d2.onlyIn (((List.range 24).map (· + 1)).foldl (fun d v => d.vfFlrPath v) d2) [.regs, .cq, .tiles, .henOps, .sect, .srv, .hif, .free] :=
    .foldl (d2.onlyIn_refl _) fun _ _ he => .vfFlrPath he
  generalize ((List.range 24).map (· + 1)).foldl (fun d v => d.vfFlrPath v) d2 = d3 at hvfs hvfParts
  generalize (List.range 128).filter (fun q => d3.queuePart q == 7) = qs
  have hqueues : d3.standsBy ((qs.foldl (fun d q => d.flushQueue q) d3).discardRecords (fun _ => true)) :=
    .discardRecords (.foldl (.refl d3) fun _ _ he => .flushQueue he)
  have hqueueParts : d3.onlyIn ((qs.foldl (fun d q => d.flushQueue q) d3).discardRecords (fun _ => true)) [.regs, .cq, .srv, .hif] :=
    .discardRecords (.foldl (d3.onlyIn_refl _) fun _ _ he => .flushQueue he)
  exact ⟨Dev.pfBlank_then hvfs hqueues, fun p hp => Dev.pfReset_of_parts (hqueueParts .parts rfl) (Dev.pfReset_of_parts (hvfParts .parts rfl) (hphase p hp))⟩

theorem Dev.pfClears_clears (d : Dev) : d.pfClears.hif = d.hif ∧ d.pfClears.parts = d.parts ∧ (∀ q, d.pfClears.waiting q = [])
    ∧ ∀ a, 0x10000 ≤ a → a < 0x19000 → d.pfClears.reg a = resetOf a := by
  refine ⟨rfl, rfl, fun _ => rfl, fun a hlo hhi => ?_⟩
  show ((((d.resetRegs 0x10000 0x19000).resetRegs 0x101080 0x1010E0).resetRegs 0x1010F0 0x1010F4).resetRegs 0x101100 0x101160).reg a = _
  rw [Dev.reg_resetRegs, if_neg (by omega), Dev.reg_resetRegs, if_neg (by omega), Dev.reg_resetRegs, if_neg (by omega), Dev.reg_resetRegs,
    if_pos ⟨hlo, hhi⟩]

/-- A wake that an FLR causes changes PWR_STATE and the power state of the device only. -/
theorem Dev.wakeSource_flr (d : Dev) : (d.wakeSource 7).hif = d.hif ∧ (d.wakeSource 7).parts = d.parts ∧ (d.wakeSource 7).cq = d.cq
    ∧ ∀ a, a ≠ rPwrState → (d.wakeSource 7).reg a = d.reg a := by
  have hframe : d.onlyIn (d.wakeSource 7) [.regs, .pwr, .hif] := .wakeSource (d.onlyIn_refl _)
  refine ⟨?_, hframe .parts rfl, hframe .cq rfl, fun a ha => ?_⟩
  · unfold Dev.wakeSource
    split
    · rfl
    · split <;> rfl
  · unfold Dev.wakeSource
    split
    · exact (Dev.reg_setReg_ne _ _ ha).trans (Dev.reg_setReg_ne _ _ ha)
    · split <;> rfl

theorem pfFlr_takes (s : State) :
    let d := s.dev
    (d.ready = false → exec .pfFlr s = .next s)
    ∧ (d.ready = true → ∃ e : Dev, exec .pfFlr s = .next { s with dev := e }
        ∧ e.hif.vfEnable = false ∧ e.hif.bar4Log2 = 40 ∧ e.hif.maxReadReq = 512 ∧ e.hif.maxPayload = 128 ∧ e.hif.cplRange = 0
        ∧ (∀ f : Nat, e.fn f = {}) ∧ (∀ q : Nat, e.waiting q = [])
        ∧ (∀ a : Nat, 0x10000 ≤ a → a < 0x19000 → e.reg a = resetOf a)
        ∧ (∀ p : Nat, d.partExists p = true → d.inReset p = false → d.pstate = 0 →
            (e.part p).phase = .records ∧ (e.part p).cause = 3)) := by
  intro d
  have hstep : exec .pfFlr s = .next { s with dev := if d.ready then d.pfFlr.wakeSource 7 else d } := rfl
  rw [hstep]
  refine ⟨fun h => by rw [h]; rfl, fun h => ?_⟩
  rw [h, if_pos rfl]
  obtain ⟨hblank, hphase⟩ := d.pfTakes_takes
  obtain ⟨hhif, hparts, hwaiting, hregs⟩ := d.pfTakes.pfClears_clears
  obtain ⟨hhif', hparts', hcq', hregs'⟩ := d.pfFlr.wakeSource_flr
  rw [Dev.pfFlr_eq] at hhif' hparts' hcq' hregs' ⊢
  obtain ⟨h1, h2, h3, h4, h5, h6⟩ := Dev.pfBlank_of_settings hblank (congrArg Hif.settings (hhif'.trans hhif))
  refine ⟨_, rfl, h1, h2, h3, h4, h5, h6, fun q => ?_, fun a hlo hhi => ?_, fun p hexists hin hactive => ?_⟩
  · rw [Dev.waiting, hcq']
    exact hwaiting q
  · rw [hregs' a (by simp only [rPwrState]; omega)]
    exact hregs a hlo hhi
  · exact Dev.pfReset_of_parts (hparts'.trans hparts) (hphase p ⟨hexists, hin, hactive⟩)

/-- A function that is present and is no PF. -/
def Dev.vfHere (d : Dev) (v : Func) : Prop := d.ready = true ∧ d.hif.vfEnable = true ∧ v ≤ d.hif.numVfs ∧ v ≠ 0

theorem Dev.onVf_absent {d : Dev} {v : Func} {k : Dev → Dev} (h : ¬ d.vfHere v) (hk : v = 0 → k d = d) : d.onVf v k = d := by
  unfold Dev.onVf
  split
  next hguard =>
    by_cases hv : v = 0
    · exact hk hv
    · exact absurd ⟨hguard.1, hguard.2.1, hguard.2.2, hv⟩ h
  · rfl

theorem Dev.onVf_here {d : Dev} {v : Func} (h : d.vfHere v) (k : Dev → Dev) : d.onVf v k = k d := if_pos ⟨h.1, h.2.1, h.2.2.1⟩

theorem Dev.vfHere_pos {d : Dev} {v : Func} (h : d.vfHere v) : 0 < v.val :=
  Nat.pos_iff_ne_zero.mpr fun hv => h.2.2.2 (Fin.ext hv)

theorem Dev.vfFlr_pf (d : Dev) {v : Nat} (h : v = 0) : d.vfFlr v = d := if_pos h

theorem Dev.vfFlrEscalate_pf (d : Dev) {v : Nat} (h : v = 0) : d.vfFlrEscalate v = d := if_pos h

theorem vfFlr_row (s : State) (v : Func) :
    (¬ s.dev.vfHere v → exec (.vfFlr v) s = .next s)
    ∧ (s.dev.vfHere v → ∃ e : Dev, exec (.vfFlr v) s = .next { s with dev := e } ∧ s.dev.vfFlrShows e v false) := by
  have hstep : exec (.vfFlr v) s = .next { s with dev := s.dev.onVf v (fun d => d.vfFlr v) } := rfl
  rw [hstep]
  refine ⟨fun h => ?_, fun h => ?_⟩
  · rw [Dev.onVf_absent (k := fun d => d.vfFlr v) h fun hv => s.dev.vfFlr_pf (Fin.val_eq_of_eq hv)]
  · rw [Dev.onVf_here h]
    exact ⟨_, rfl, s.dev.vfFlr_shows (Dev.vfHere_pos h) v.isLt fun hr => absurd hr (by decide)⟩

theorem vfFlrEscalate_row (s : State) (v : Func) :
    (¬ s.dev.vfHere v → exec (.vfFlrEscalate v) s = .next s)
    ∧ (s.dev.vfHere v → ∃ e : Dev, exec (.vfFlrEscalate v) s = .next { s with dev := e } ∧ s.dev.vfFlrShows e v true) := by
  have hstep : exec (.vfFlrEscalate v) s = .next { s with dev := s.dev.onVf v (fun d => d.vfFlrEscalate v) } := rfl
  rw [hstep]
  refine ⟨fun h => ?_, fun h => ?_⟩
  · rw [Dev.onVf_absent (k := fun d => d.vfFlrEscalate v) h fun hv => s.dev.vfFlrEscalate_pf (Fin.val_eq_of_eq hv)]
  · rw [Dev.onVf_here h]
    exact ⟨_, rfl, s.dev.vfFlrEscalate_shows (Dev.vfHere_pos h) v.isLt⟩

/-- Settles O36: what resets do besides leaves a function gone that an FLR took; each partition begins its reset once. -/
theorem functionResetsTakeWhatTheirFunctionsOwn : Obligations.FunctionResetsTakeWhatTheirFunctionsOwn := by
  unfold Obligations.FunctionResetsTakeWhatTheirFunctionsOwn
  refine ⟨fun row hrow s v => ?_, pfFlr_takes⟩
  simp only [List.mem_cons, List.not_mem_nil, or_false] at hrow
  rcases hrow with rfl | rfl
  · exact vfFlr_row s v
  · exact vfFlrEscalate_row s v

end Sys2Proof.Machine
end
